-- ==== Sys2Proof/Word.lean ====
section
/-! DEFINITION. The widths of the machine's words and the type of a sparse table. -/

namespace Sys2Proof

/-- Eight bits: the smallest addressable unit (R7). -/
abbrev Byte := BitVec 8
/-- Sixteen bits. -/
abbrev Half := BitVec 16
/-- A 32-bit register or field (R8). -/
abbrev Word := BitVec 32
/-- A 64-bit register or field (R8). -/
abbrev Dword := BitVec 64
/-- A 256-bit value: one tile op (R190), a hash (R44), a descriptor half. -/
abbrev Bits256 := BitVec 256
/-- A finite map by number, listed in strictly rising order of its keys. -/
abbrev Tab (α : Type) := List (Nat × α)

end Sys2Proof
end

