-- ==== Sys2Proof/Syntax.lean ====
section
/-! DEFINITION. The commands of the block: one constructor per row of the table of operations and events, with the
row's operands. What the outside world hands over with a command (bytes of host memory, messages, sensor readings, outcomes of
error checks) is an operand; what a command does it reads from the state. -/

namespace Sys2Proof

/-- Who makes a control-window access: a host through a Gheklink port, or the Carrier on a control processor of a die
(R411, R487). -/
inductive Agent where
  | host (port : Fin 2)
  | carrier (die : Fin 2)
deriving DecidableEq, Repr

/-- What the module's sensors of one island show to a planner run (R442, R444): replica slack in 0.5 % of the cycle,
ageing-oscillator loss in 0.01 %, headroom in 0.1 mV, whether the goal is out of reach, and the point the planner
picks for it. -/
structure IslandReading where
  island : Fin 512
  slack : Fin 256
  roDelta : Int
  headroom : Fin 65536
  belowGoal : Bool
  vCode : Fin 71
  fCode : Fin 105
deriving DecidableEq, Repr

/-- What an error-correction check of a read word finds. -/
inductive EccOutcome where
  | clean | corrected | uncorrectable
deriving DecidableEq, Repr

/-- What a read of an on-die SRAM meets (R438): in a core's scratchpad, by the scrub or by another read, the read half of a write of part of a word
among them; in a semaphore bank; in control state; or in another buffer of an island, which carries a granule of a packet. -/
inductive SramRead where
  | scrub (ecc : EccOutcome)
  | word (word : Fin 524288) (ecc : EccOutcome)
  | semaphore (sem : Fin 131072) (ecc : EccOutcome)
  /-- A structure of control state, and whether both of its copies are lost. -/
  | control (part : Byte) (bothLost : Bool)
  | buffer (island : Fin 512) (offset : Word) (packet granule : Nat) (ecc : EccOutcome)
deriving DecidableEq, Repr

/-- The bits of a stored 64-bit word that read wrong: 0–63 its data bits, 64–71 its check bits (R295). -/
structure WordError where
  word : Fin 8
  flips : List (Fin 72)
deriving DecidableEq, Repr

/-- The bit errors that an access meets in a granule (device address ÷ 64), as the cache (R308) or the DRAM (R295) holds it. -/
structure HbmError where
  granule : Nat
  words : List WordError
  inCache : Bool
deriving DecidableEq, Repr

/-- What the tag check of a lookup finds (R308, R439): nothing, one copy of a way corrected or uncorrectable, or both
copies of a way uncorrectable. -/
inductive TagOutcome where
  | clean
  | corrected
  | oneCopyLost (way : Fin 8)
  | bothLost (way : Fin 8) (set : Nat)
deriving DecidableEq, Repr

/-- The atomic operations (R291). -/
inductive AtomicOp where
  | add | swap | cas | and | or | umin | umax
deriving DecidableEq, Repr

/-- How a retrain ends (R331, R386): at 8 lanes, at 4 lanes, or not at all. -/
inductive RetrainResult where
  | full8 | half4 | failed
deriving DecidableEq, Repr

/-- A flow of ring messages (R387): point messages of a class, or a group's messages in a direction (2: a hand-off's). -/
inductive CrFlow where
  | point (cls : Fin 4)
  | group (group : Fin 256) (dir : Fin 3)
deriving DecidableEq, Repr

/-- The header of a received ring message (R384), and the port it came in by. -/
structure CrHead where
  port : Fin 6
  src : Fin 64
  cls : Fin 4
  seq : Word
deriving DecidableEq, Repr

/-- The payload of JOIN (R403), and the place at which discovery met the module. -/
structure JoinInfo where
  place : Fin 64
  serial : Dword
  poolBase : Dword
  poolSlots : Word
  capacity : Half
  queueCount : Half
  firstQueue : Half
  standby : Bool
  share : Dword
deriving DecidableEq, Repr

/-- A prompt that the manager's Carrier admits (R255): the session record it takes, the worker and the region it chose. -/
structure Admission where
  session : Fin 65536
  nspace : Dword
  cls : Fin 4
  context : Fin 4096
  prompt : List Word
  nMax : Fin 262145
  worker : Fin 64
  region : Dword
  /-- The window start of R261 at admission. -/
  windowLo : Word
deriving DecidableEq, Repr

/-- What the Carrier knows of a session at the receipt of its step: the next input token, the window start where it moves (R261), and why the session
ends, 0 where it goes on. -/
structure StepResult where
  session : Fin 65536
  token : Word
  windowLo : Option Word
  ended : Fin 5
deriving DecidableEq, Repr

/-- What the adapter refuses: a piece of a transfer, or a queue's receipt write (R341, R342). -/
inductive RefusedAccess where
  | piece (xfer : Nat) (piece : Nat)
  | receipt (queue : Fin 1024)
deriving DecidableEq, Repr

/-- A flit of a packet that arrived with an uncorrectable error (R21): its number in the packet, and the stop and link at which it was
found. -/
structure FlitError where
  flit : Fin 256
  die : Fin 2
  x : Fin 13
  y : Fin 9
  link : Byte
deriving DecidableEq, Repr

/-- What an access to HBM meets: wrong bits of what it reads, and what its lookup finds of the tags. -/
structure AccessErrors where
  words : List HbmError
  tags : TagOutcome
deriving DecidableEq, Repr

/-- What a fetched block meets: wrong bits where it is read, and an error on its way. -/
structure FetchErrors where
  words : List HbmError
  flit : Option FlitError
deriving DecidableEq, Repr

/-- The port that a read of `DBG_SCR_DATA` names: its core, and the half of the register where it reads only one (R8, R209). -/
structure DebugPort where
  core : Fin 168
  half : Option (Fin 2)
deriving DecidableEq, Repr

/-- Where an atomic at a home stop goes: its device address, with the class of the access; or, where an engine asks for it, its virtual address and
the engine's number with the context; and what the access meets. -/
structure AtomicPlace where
  requester : Option (Fin 192 × Fin 4096)
  cls : Fin 4
  addr : Nat
  met : AccessErrors
deriving DecidableEq, Repr

/-- Where an atomic of a peer goes, and what the access meets there. -/
structure PeerPlace where
  offset : Fin 281474976710656
  met : AccessErrors
deriving DecidableEq, Repr

/-- Where what arrives comes from: the network, in which packets wait by number; a port, with the data of a host read that has returned; or a
circuit, of which a flit forwarded before arrives now, at a granule of the consumer's ring. -/
inductive PacketSource where
  | queued (index : Nat)
  | hostData (port : Fin 2) (index : Nat) (bytes : List Byte)
  | circuit (die : Fin 2) (link : Fin 4096) (granule : Nat)
deriving DecidableEq, Repr

/-- A control processor's access (R411): device memory, or the control window. -/
inductive CarrierAccessKind where
  | readMem (addr : Nat) (len : Fin 257)
  | writeMem (addr : Nat) (bytes : List Byte)
  | readReg (offset : Fin 33554432) (wide : Bool)
deriving DecidableEq, Repr

/-- What the training of a stack finds at a boot (R292): the DQ lanes that fail, whether a command or address lane fails, and by how much, modulo
2¹⁶, the level at which a lane trains lies above the baseline it starts from. -/
structure StackTraining where
  stack : Fin 12
  failed : List (Fin 16 × Fin 64)
  command : Bool
  moved : List (Fin 16 × Fin 64 × Half)
deriving DecidableEq, Repr

/-- The commands of the table of operations and events. -/
inductive Instr where
  /-- `ACCESS_MISALIGNED`: an access of a size or alignment that R8 does not allow -/
  | accessMisaligned (who : Agent) (offset : Fin 33554432) (size : Fin 4096) (isRead : Bool)
  /-- `REGISTER_WRITE`: a write to a register that has no row of its own (R11) -/
  | registerWrite (who : Agent) (offset : Fin 33554432) (value : Dword) (wide : Bool)
  /-- `ISL_CLOCK_STEP`: the 100 ns step timer of a compute or grinder island (R17) -/
  | islClockStep (island : Fin 512)
  /-- `PACKET_DELIVER`: a packet arrives at its stop, with an uncorrectable flit if there is one (R21, R22) -/
  | packetDeliver (source : PacketSource) (flitError : Option FlitError)
  /-- `BLEND_LOAD`: a write of `PM_CALL` that starts BLEND_LOAD (R66) -/
  | blendLoad (who : Agent) (slot : Fin 12) (notify : Bool) (vector : Fin 1024)
  /-- `BLEND_STAGE`: a write of `PM_CALL` that starts BLEND_STAGE (R415) -/
  | blendStage (who : Agent) (slot : Fin 12) (notify : Bool) (vector : Fin 1024)
  /-- `REBLEND`: a write of `PM_CALL` that starts REBLEND (R68) -/
  | reblend (who : Agent) (slot : Fin 12) (notify : Bool) (vector : Fin 1024)
  /-- `BLEND_COPY_DONE`: the image's copy ends: what host memory held, none where a read was refused or the host lost (R66, R488) -/
  | blendCopyDone (image : Option (List Byte))
  /-- `BLEND_MEASURE_DONE`: the measurement of the signed message is done (R44) -/
  | blendMeasureDone
  /-- `BLEND_SIGNATURE_DONE`: the owner's key and signature have been checked (R43) -/
  | blendSignatureDone
  /-- `BLEND_VALIDATE_DONE`: the image has been validated (R63) -/
  | blendValidateDone
  /-- `BLEND_APPLY_DONE`: a full image is applied (R66) -/
  | blendApplyDone
  /-- `PLANNER_BOOT_RUN_DONE`: the boot run has a reading of every linked island and sets its point (R446) -/
  | plannerBootRunDone (readings : List IslandReading)
  /-- `REBLEND_STOP_DONE`: the target has stopped, its transfers are complete, and its links drain (R71) -/
  | reblendStopDone
  /-- `DRAIN_TIMEOUT`: a complete-mode drain passes its limit (R70) -/
  | drainTimeout
  /-- `REBLEND_CLEAN_DONE`: the ways are clean, and the tables are written; `readings` are those of newly linked islands (R71) -/
  | reblendCleanDone (readings : List IslandReading)
  /-- `REBLEND_RESUME`: the target's islands are at their floor and fetching resumes (R71) -/
  | reblendResume
  /-- `MAT_GRID`: a grid-mode MAT op, or a MAT op of an invalid mode, whose check fails, stands at the PC of a logical core, and it is issued or faults (R193). -/
  | matGrid (core : Fin 160)
  /-- `MAT_FAN`: a fan-mode MAT op stands at the PC of a logical core, and it is issued or faults (R193). -/
  | matFan (core : Fin 160)
  /-- `MAT_WIDE`: a wide-mode MAT op stands at the PC of a logical core, and it is issued or faults (R193). -/
  | matWide (core : Fin 160)
  /-- `MAT_START`: the oldest MAT op that has not started starts on a logical core (R121, R171). -/
  | matStart (core : Fin 160)
  /-- `ACC_OVERFLOW`: an overflow of the MAT op in progress calls for a replay or saturates (R132, R133). -/
  | accOverflow (core : Fin 160)
  /-- `ACC_REPLAY_RESTART`: the drain and the restore of a replay have ended (R132). -/
  | accReplayRestart (core : Fin 160)
  /-- `MAT_COMPLETE`: the MAT op in progress completes (R189). -/
  | matComplete (core : Fin 160)
  /-- `VEC`: a VEC op stands at the PC of a logical core, and it is issued or faults (R195). -/
  | vec (core : Fin 160)
  /-- `VEC_START`: the oldest VEC op that has not started starts (R184). -/
  | vecStart (core : Fin 160)
  /-- `VEC_COMPLETE`: the VEC op in progress completes (R189). -/
  | vecComplete (core : Fin 160)
  /-- `MOV_LOAD`: a MOV LOAD, or a MOV of an invalid kind, whose check fails stands at the PC of a logical core, and it is issued or faults (R196). -/
  | movLoad (core : Fin 160)
  /-- `MOV_LOAD_UNSEAL`: a MOV LOAD with `UNSEAL` stands at the PC of a logical core, and it is issued or faults (R283). -/
  | movLoadUnseal (core : Fin 160)
  /-- `MOV_STORE`: a MOV STORE stands at the PC of a logical core, and it is issued or faults (R196). -/
  | movStore (core : Fin 160)
  /-- `MOV_LOCAL`: a MOV LOCAL stands at the PC of a logical core, and it is issued or faults (R196). -/
  | movLocal (core : Fin 160)
  /-- `MOV_FILL_NEAR`: a MOV FILL_NEAR stands at the PC of a logical core, and it is issued or faults (R196). -/
  | movFillNear (core : Fin 160)
  /-- `MOV_FILL_FAR`: a MOV FILL_FAR stands at the PC of a logical core, and it is issued or faults (R196). -/
  | movFillFar (core : Fin 160)
  /-- `MOV_COMPLETE`: the MOV op at a place of the issue window has landed (R196). -/
  | movComplete (core : Fin 160) (slot : Fin 8)
  /-- `UNSEAL_CHECK_DONE`: the check of the unit that the MOV at a place of the issue window unseals (R284). -/
  | unsealCheckDone (core : Fin 160) (slot : Fin 8)
  /-- `GRD`: a GRD op stands at the PC of a logical core, and it is issued or faults (R198). -/
  | grd (core : Fin 160)
  /-- `SEM_WAIT`: a SEM WAIT, or a SEM op of an invalid sub-op, whose check fails stands at the PC of a logical core, and it is issued or faults (R199). -/
  | semWait (core : Fin 160)
  /-- `SEM_POST`: a SEM POST stands at the PC of a logical core, and it is issued or faults (R199). -/
  | semPost (core : Fin 160)
  /-- `SEM_SET`: a SEM SET stands at the PC of a logical core, and it is issued or faults (R199). -/
  | semSet (core : Fin 160)
  /-- `SEM_POST_FIRE`: the oldest POST of a core whose fence has cleared fires (R217). -/
  | semPostFire (core : Fin 160)
  /-- `WAIT_TIMEOUT`: the WAIT that holds a core has passed its limit (R225). -/
  | waitTimeout (core : Fin 160)
  /-- `CTL_END`: a CTL END, or an op of an invalid class or CTL sub-op, whose check fails stands at the PC of a logical core, and it is issued or faults (R200). -/
  | ctlEnd (core : Fin 160)
  /-- `CTL_LOOP`: a CTL LOOP stands at the PC of a logical core, and it is issued or faults (R200). -/
  | ctlLoop (core : Fin 160)
  /-- `CTL_SET`: a CTL SET stands at the PC of a logical core, and it is issued or faults (R200). -/
  | ctlSet (core : Fin 160)
  /-- `CTL_LDX`: a CTL LDX stands at the PC of a logical core, and it is issued or faults (R200). -/
  | ctlLdx (core : Fin 160)
  /-- `CTL_ARM`: a CTL ARM stands at the PC of a logical core, and it is issued or faults (R219). -/
  | ctlArm (core : Fin 160)
  /-- `CTL_CHEAP`: a CTL CHEAP stands at the PC of a logical core, and it is issued or faults (R206). -/
  | ctlCheap (core : Fin 160)
  /-- `CTL_LIVE`: a CTL LIVE stands at the PC of a logical core, and it is issued or faults (R206). -/
  | ctlLive (core : Fin 160)
  /-- `CTL_DEBUG_ACC_READ`: a CTL DEBUG `ACC_READ`, or a DEBUG of an invalid function, whose check fails stands at the PC of a logical core, and it is issued or faults (R144). -/
  | ctlDebugAccRead (core : Fin 160)
  /-- `CTL_DEBUG_BREAK`: a CTL DEBUG `BREAK` stands at the PC of a logical core, and it is issued or faults (R200). -/
  | ctlDebugBreak (core : Fin 160)
  /-- `OVERRUN`: the op at a place of the issue window, or the op at PC that its unit has not taken, has passed its bound (R202). -/
  | overrun (core : Fin 160) (slot : Option (Fin 8))
  /-- `BLOCK_FETCH_DONE`: the program block that many blocks after the one PC stands in arrives, with the errors its read met (R187). -/
  | blockFetchDone (core : Fin 160) (ahead : Fin 4) (errs : FetchErrors)
  /-- `INVOCATION_END`: an invocation whose units have finished and whose transfers have landed ends (R205). -/
  | invocationEnd (inv : Nat)
  /-- `SEQ_STEP_STEP`: a write of `SEQ_STEP` of a physical core's block with `STEP` 1, and its `HALT` bit (R50). -/
  | seqStepStep (agent : Agent) (core : Fin 168) (halt : Bool)
  /-- `SEQ_STEP_HALT`: a write of `SEQ_STEP` with `STEP` 0 (R50). -/
  | seqStepHalt (agent : Agent) (core : Fin 168) (halt : Bool)
  /-- `DBG_SCR_DATA_READ`: a read of `DBG_SCR_DATA` of a physical core's block, whole or of one half (R8, R209). -/
  | dbgScrDataRead (agent : Agent) (port : DebugPort)
  /-- `SWITCH_REQUEST`: the scheduler requests the switch-out of a resident invocation (R207). -/
  | switchRequest (inv : Nat)
  /-- `TILE_BOUNDARY_SAVE`: a core whose switch was requested has reached its tile boundary (R208). -/
  | tileBoundarySave (core : Fin 160)
  /-- `SPILL_SAVE_DONE`: a core's save has reached the save slot (R370). -/
  | spillSaveDone (core : Fin 160)
  /-- `CONTEXT_RESUME`: a switched-out invocation is resumed; `lost` says that its slot read back uncorrectable (R370). -/
  | contextResume (inv : Nat) (lost : Bool)
  /-- `RESUME_RESTORE_DONE`: a core's restore and reloads have finished (R208). -/
  | resumeRestoreDone (core : Fin 160)
  /-- `STREAM_CHUNK_ISSUE`: a persistent link's stream takes its next chunk's granules and issues it (R220). -/
  | streamChunkIssue (link : Fin 8192)
  /-- `STREAM_CHUNK_LANDED`: a chunk in flight has landed (R220). -/
  | streamChunkLanded (link : Fin 8192) (chunk : Fin 16)
  /-- `STREAM_STALL`: a transfer on which nothing has landed for the stall limit (R224). -/
  | streamStall (xfer : Nat)
  /-- `GRD_BATCH_BEGIN`: a grinder begins its next batch, or the input of the batch it has begun arrives further (R239). -/
  | grdBatchBegin (grinder : Fin 32)
  /-- `GRD_ROW_READ_RETURN`: a row read in flight of a begun batch returns (R236). -/
  | grdRowReadReturn (grinder : Fin 32) (batch : Fin 2) (read : Fin 512)
  /-- `GRD_BATCH_COMPLETE`: a begun batch's pooled rows, then its output and its result record, are complete (R238). -/
  | grdBatchComplete (grinder : Fin 32) (batch : Fin 2)
  /-- `TABLE_DEFINE`: a write of `TBL_CMD` with DEFINE, or with an `OP` that R244 does not name. -/
  | tableDefine (agent : Agent) (die port : Fin 2) (value : Dword)
  /-- `TABLE_STAGE`: a write of `TBL_CMD` with STAGE (R241). -/
  | tableStage (agent : Agent) (die port : Fin 2) (value : Dword)
  /-- `TABLE_SWITCH`: a write of `TBL_CMD` with SWITCH (R241). -/
  | tableSwitch (agent : Agent) (die port : Fin 2) (value : Dword)
  /-- `TABLE_RETIRE`: a write of `TBL_CMD` with RETIRE and `FORCE` 0 (R241). -/
  | tableRetire (agent : Agent) (die port : Fin 2) (value : Dword)
  /-- `TABLE_RETIRE_FORCE`: a write of `TBL_CMD` with RETIRE and `FORCE` 1 (R241). -/
  | tableRetireForce (agent : Agent) (die port : Fin 2) (value : Dword)
  /-- `TABLE_UPDATE`: a write of `TBL_CMD` with UPDATE (R242). -/
  | tableUpdate (agent : Agent) (die port : Fin 2) (value : Dword)
  /-- `TABLE_UNDEFINE`: a write of `TBL_CMD` with UNDEFINE (R244). -/
  | tableUndefine (agent : Agent) (die port : Fin 2) (value : Dword)
  /-- `UPDATE_FOLD`: a pending update of a die's store folds into its row; `source` are the source's bytes where it lies outside HBM (R242). -/
  | updateFold (die : Fin 2) (update : Fin 4096) (source : List Byte)
  /-- `SESSION_ADMIT`: the manager admits a prompt (R255) -/
  | sessionAdmit (admission : Admission)
  /-- `STEP_BATCH_BUILD`: the manager sends a worker a step for some of its sessions, with the envelope and enclosure that the Carrier made (R267) -/
  | stepBatchBuild (worker : Fin 64) (queue : Fin 1024) (id : Dword) (sessions : List (Fin 65536)) (envelope enclosure : List Byte)
  /-- `PREFIX_NODE_BAD_REPORT`: a home worker reports a prefix slot that an uncorrectable error reached (R259) -/
  | prefixNodeBadReport (home : Fin 64) (slot : Dword)
  /-- `HBM_ACCESS`: an access that waits at a stack's stop is performed (R290, R298, R301-R308) -/
  | hbmAccess (stack : Fin 12) (index : Nat) (errs : List HbmError) (tags : TagOutcome)
  /-- `HBM_ATOMIC`: an atomic is performed at the home stop (R291) -/
  | hbmAtomic (op : AtomicOp) (place : AtomicPlace) (wide : Bool) (operand compare : Dword)
  /-- `BACKGROUND_FILL_START`: a pending background fill takes an idle slot (R304) -/
  | backgroundFillStart (die : Fin 2) (index : Nat) (errs : List HbmError)
  /-- `BACKGROUND_FILL_DROP`: a background fill that has waited 2 µs is dropped (R304) -/
  | backgroundFillDrop (die : Fin 2) (index : Nat)
  /-- `EVICTION_WRITEBACK_DONE`: an eviction-buffer entry is written to the DRAM (R306) -/
  | evictionWritebackDone (die : Fin 2) (index : Nat)
  /-- `HBM_PATROL_READ`: the patrol reads its next granule (R299) -/
  | hbmPatrolRead (stack : Fin 12) (words : List WordError)
  /-- `HBM_SCRUB_LATE`: the patrol is behind its 24-hour round (R299) -/
  | hbmScrubLate (stack : Fin 12)
  /-- `HBM_RETRAIN_PAUSE_START`: a channel pauses for re-training; a lane that no longer trains is named (R294) -/
  | hbmRetrainPauseStart (stack : Fin 12) (channel : Fin 16) (newSpare : Option (Fin 64))
  /-- `HBM_RETRAIN_PAUSE_END`: the pause ends (R294) -/
  | hbmRetrainPauseEnd (stack : Fin 12)
  /-- `CACHE_CLEAN_DONE`: a clean's last write-back has been performed (R309, R310) -/
  | cacheCleanDone (die : Fin 2)
  /-- `SEG_WRITE`: a write of `PM_CALL` that starts SEG_WRITE (R325) -/
  | segWrite (who : Agent) (slot : Fin 12) (notify : Bool) (vector : Fin 1024)
  /-- `SEG_CLEAR`: a write of `PM_CALL` that starts SEG_CLEAR (R325) -/
  | segClear (who : Agent) (slot : Fin 12) (notify : Bool) (vector : Fin 1024)
  /-- `SEG_READ`: a write of `PM_CALL` that starts SEG_READ (R325) -/
  | segRead (who : Agent) (slot : Fin 12) (notify : Bool) (vector : Fin 1024)
  /-- `SEG_ADVISE_WILL_NEED`: a write of `PM_CALL` that starts SEG_ADVISE with WILL_NEED, or with an `ADVICE` that R416 does not name (R323) -/
  | segAdviseWillNeed (who : Agent) (slot : Fin 12) (notify : Bool) (vector : Fin 1024)
  /-- `SEG_ADVISE_COLD`: a write of `PM_CALL` that starts SEG_ADVISE with COLD (R323) -/
  | segAdviseCold (who : Agent) (slot : Fin 12) (notify : Bool) (vector : Fin 1024)
  /-- `SEG_ADVISE_READ_MOSTLY`: a write of `PM_CALL` that starts SEG_ADVISE with READ_MOSTLY (R323) -/
  | segAdviseReadMostly (who : Agent) (slot : Fin 12) (notify : Bool) (vector : Fin 1024)
  /-- `SEG_ADVISE_REVOKE_RM`: a write of `PM_CALL` that starts SEG_ADVISE with REVOKE_RM (R323) -/
  | segAdviseRevokeRm (who : Agent) (slot : Fin 12) (notify : Bool) (vector : Fin 1024)
  /-- `SEG_ADVISE_HOT`: a write of `PM_CALL` that starts SEG_ADVISE with HOT (R316) -/
  | segAdviseHot (who : Agent) (slot : Fin 12) (notify : Bool) (vector : Fin 1024)
  /-- `SEG_ADVISE_NORMAL`: a write of `PM_CALL` that starts SEG_ADVISE with NORMAL (R323) -/
  | segAdviseNormal (who : Agent) (slot : Fin 12) (notify : Bool) (vector : Fin 1024)
  /-- `SEG_ADVISE_COPY_DONE`: an advice copy ends; `data` is what host memory held, for a copy into HBM, none where an access to the host was refused or the host was lost (R324) -/
  | segAdviseCopyDone (context : Fin 4096) (data : Option (List Byte))
  /-- `SEG_INVALIDATE_APPLY`: an engine applies a withdrawal's invalidation (R326) -/
  | segInvalidateApply (context : Fin 4096) (index : Fin 64) (engine : Fin 192)
  /-- `SEG_WITHDRAW_ACK`: an engine whose old-translation pieces have landed acknowledges (R326) -/
  | segWithdrawAck (context : Fin 4096) (index : Fin 64) (engine : Fin 192)
  /-- `SEG_MISS_FILL`: the directory serves an engine's oldest miss (R315) -/
  | segMissFill (engine : Fin 192)
  /-- `SEG_FAULT_RESOLVE_RETRY`: SEG_FAULT_RESOLVE written with ACTION 0 (R321) -/
  | segFaultResolveRetry (who : Agent) (record : Fin 32)
  /-- `SEG_FAULT_RESOLVE_FAIL`: SEG_FAULT_RESOLVE written with ACTION 1 (R321) -/
  | segFaultResolveFail (who : Agent) (record : Fin 32)
  /-- `SEGMENT_FAULT_TIMEOUT`: a record has been pending for LIMIT_US (R322) -/
  | segmentFaultTimeout (record : Fin 32)
  /-- `SEG_FAULT_CTRL_WRITE`: a write of SEG_FAULT_CTRL (R322) -/
  | segFaultCtrlWrite (who : Agent) (value : Word)
  /-- `GK_LINK_UP`: a port comes up and its adapter reports a host identity (R332) -/
  | gkLinkUp (port : Fin 2) (identity : Dword) (lanes4 : Bool)
  /-- `GK_REPLAY`: a flit is resent with every later flit (R330) -/
  | gkReplay (port : Fin 2)
  /-- `GK_RETRAIN`: a second replay, excess replays or a loss of lock starts a quick retrain (R331) -/
  | gkRetrain (port : Fin 2)
  /-- `GK_RETRAIN_DONE`: a retrain ends (R331) -/
  | gkRetrainDone (port : Fin 2) (result : RetrainResult)
  /-- `GK_LINK_CTRL_RETRAIN`: GK_LINK_CTRL written with RETRAIN 1, FULL 0 (R331) -/
  | gkLinkCtrlRetrain (who : Agent) (port : Fin 2)
  /-- `GK_LINK_CTRL_FULL`: GK_LINK_CTRL written with RETRAIN 1, FULL 1 (R331) -/
  | gkLinkCtrlFull (who : Agent) (port : Fin 2)
  /-- `HOST_LOST_TIMEOUT`: 100 ms after a host's last port went down (R331, R345) -/
  | hostLostTimeout (host : Fin 2)
  /-- `HOST_RESET`: an adapter reports a host reset on a port (R345) -/
  | hostReset (port : Fin 2)
  /-- `HOST_REGISTER`: GK_HOST_CTRL with CMD 1 (R333) -/
  | hostRegister (who : Agent) (queue : Fin 1024) (count : Fin 2048)
  /-- `HOST_RELEASE`: GK_HOST_CTRL with CMD 2 (R333) -/
  | hostRelease (who : Agent)
  /-- `HOST_DRAIN`: GK_HOST_CTRL with CMD 3; `refusedAt` is the spilled receipt the adapter refuses again (R343) -/
  | hostDrain (who : Agent) (queue : Fin 1024) (refusedAt : Option (Fin 256))
  /-- `HOST_ACCESS_REFUSED`: the adapter refuses an access (R341, R342) -/
  | hostAccessRefused (target : RefusedAccess)
  /-- `FLUSH_READ_RETURN`: a port's oldest flush read returns (R337) -/
  | flushReadReturn (port : Fin 2)
  /-- `GK_SPILL_BASE_WRITE`: a write of GK_SPILL_BASE (R344) -/
  | gkSpillBaseWrite (who : Agent) (value : Dword)
  /-- `MAILBOX_TO_CARRIER`: MB_RING written for a mode-0 mailbox (R346) -/
  | mailboxToCarrier (who : Agent) (mailbox : Fin 64)
  /-- `MAILBOX_SUBMIT`: MB_RING written for a mode-1 mailbox; `enclosure` is what host memory holds for an envelope that names one there, `refused` that its read is refused (R346) -/
  | mailboxSubmit (who : Agent) (mailbox : Fin 64) (enclosure : List Byte) (refused : Bool)
  /-- `M2H_MESSAGE`: the module writes a message of the Carrier's, or its own next notice, to a free mailbox (R347) -/
  | m2hMessage (mailbox : Fin 64) (message : Option (List Byte))
  /-- `MB_M2H_FULL_RELEASE`: a host writes 1 to a FULL bit (R347) -/
  | mbM2hFullRelease (who : Agent) (mailbox : Fin 64)
  /-- `VECTOR_RAISE`: a vector is raised (R349) -/
  | vectorRaise (vector : Fin 1024)
  /-- `VECTOR_HOLDOFF_END`: a vector's holdoff ends (R349) -/
  | vectorHoldoffEnd (vector : Fin 1024)
  /-- `IV_CTRL_WRITE`: a write of IV_CTRL (R348, R349) -/
  | ivCtrlWrite (who : Agent) (vector : Fin 1024) (value : Word)
  /-- `GK_WAKE`: an adapter signals link wake to a sleeping port (R469) -/
  | gkWake (port : Fin 2)
  /-- `SQ_TAIL_WRITE`: a write of a queue's `SQ_TAIL` (R358). -/
  | sqTailWrite (agent : Agent) (queue : Fin 1024) (value : Word)
  /-- `RQ_HEAD_WRITE`: a write of a queue's `RQ_HEAD` (R353). -/
  | rqHeadWrite (agent : Agent) (queue : Fin 1024) (value : Word)
  /-- `SQ_ENABLE`: a write of a queue's `SQ_CTRL` with `ENABLE` 1 (R352). -/
  | sqEnable (agent : Agent) (queue : Fin 1024) (value : Word)
  /-- `SQ_DISABLE`: a write of a queue's `SQ_CTRL` with `ENABLE` 0 (R352). -/
  | sqDisable (agent : Agent) (queue : Fin 1024) (value : Word)
  /-- `ENVELOPE_STAGE`: the front end has fetched the next envelope of a queue and its enclosure; `refused` says that the adapter refused the enclosure read (R357). -/
  | envelopeStage (queue : Fin 1024) (envelope enclosure : List Byte) (refused : Bool)
  /-- `INVOCATION_DISPATCH`: a partition's front end dispatches its next envelope, or switches out what that envelope needs (R365). -/
  | invocationDispatch (partition : Fin 64)
  /-- `INVOCATION_RUNNABLE`: a switched-out invocation has become runnable, and blocked residents make room for it (R371). -/
  | invocationRunnable (inv : Nat)
  /-- `RECEIPT_WRITE`: a queue's oldest receipt is written, or its flushes are asked for, or its write is acknowledged (R339, R342, R362) -/
  | receiptWrite (queue : Fin 1024)
  /-- `COURIER_REPLAY`: a flit is resent with every later flit (R386) -/
  | courierReplay (port : Fin 6)
  /-- `COURIER_RETRAIN`: a second replay or a loss of lock starts a retrain (R386) -/
  | courierRetrain (port : Fin 6)
  /-- `COURIER_RETRAIN_DONE`: a retrain ends (R386) -/
  | courierRetrainDone (port : Fin 6) (result : RetrainResult)
  /-- `READ`: a READ message is performed in its flow (R390) -/
  | read (head : CrHead) (offset : Fin 281474976710656) (bytes : Fin 4097) (met : AccessErrors)
  /-- `READ_DATA`: the data of a remote read, with its marks (R388) -/
  | readData (head : CrHead) (offset : Fin 281474976710656) (data : List (Byte × Bool))
  /-- `WRITE`: a WRITE message is performed in its flow (R390) -/
  | write (head : CrHead) (offset : Fin 281474976710656) (data : List (Byte × Bool)) (met : AccessErrors)
  /-- `ATOMIC`: an ATOMIC message is performed in its flow (R390) -/
  | atomic (head : CrHead) (op : AtomicOp) (place : PeerPlace) (wide : Bool) (operand compare : Dword)
  /-- `ACK`: a message is acknowledged (R387) -/
  | ack (head : CrHead) (flow : CrFlow) (seq : Word) (old : Dword)
  /-- `NACK`: a message is refused (R391, R395, R405) -/
  | nack (head : CrHead) (flow : CrFlow) (seq : Word) (reason : Fin 256)
  /-- `GATHER`: a group message arrives; `sameRecord` says that the sender's record agrees in `KIND`, `MEMBERS`, `ROW` and `ROWS` (R393-R395) -/
  | gather (head : CrHead) (group : Fin 256) (offset : Fin 281474976710656) (data : List (Byte × Bool)) (sameRecord : Bool)
  /-- `STEP`: a step envelope arrives (R405) -/
  | step (head : CrHead) (queue : Fin 1024) (epoch : Word) (id : Dword) (envelope enclosure : List Byte)
  /-- `STEP_RECEIPT`: a worker's step receipt arrives, with what the Carrier knows of its sessions (R405) -/
  | stepReceipt (head : CrHead) (queue : Fin 1024) (epoch : Word) (id : Dword) (receipt : List Byte) (results : List StepResult)
  /-- `ROUTED`: a ROUTED message arrives, on the worker ring or by an uplink (R408) -/
  | routed (head : CrHead) (up : Bool) (ring position : Fin 64) (data : List Byte)
  /-- `JOIN`: a worker joins (R403) -/
  | join (head : CrHead) (epoch : Word) (join : JoinInfo)
  /-- `ASSIGN`: the manager assigns this module's position (R382) -/
  | assign (head : CrHead) (epoch : Word) (ring position : Fin 64)
  /-- `HEARTBEAT`: a HEARTBEAT arrives (R402) -/
  | heartbeat (head : CrHead) (epoch : Word)
  /-- `HEARTBEAT_SEND`: the manager sends HEARTBEAT (R402) -/
  | heartbeatSend
  /-- `TIME`: a TIME message arrives (R407) -/
  | time (head : CrHead) (epoch : Word) (time : Dword)
  /-- `TIME_EXCHANGE`: a hop's delay is measured (R407) -/
  | timeExchange (port : Fin 6) (delayNs : Half)
  /-- `LINK_NOTICE`: a LINK_NOTICE brings the ring map, or a link's change: place at its west end, ring, and whether it is up (R383) -/
  | linkNotice (head : CrHead) (epoch : Word) (places : Option (List (Option (Fin 64)))) (link : Option (Fin 64 × Fin 2 × Bool))
  /-- `ANNOUNCE`: a new manager announces itself (R409) -/
  | announce (head : CrHead) (epoch : Word)
  /-- `DRAIN_RING`: a neighbour asks to move a ring's traffic (R399) -/
  | drainRing (head : CrHead) (epoch : Word) (ring : Fin 2)
  /-- `COURIER_RESEND`: a message of the retry store has gone 20 µs without an acknowledgement (R387) -/
  | courierResend (index : Fin 4096)
  /-- `COURIER_PEER_LOST`: a message to a position has gone `LIMIT_MS` without an acknowledgement (R389) -/
  | courierPeerLost (position : Fin 64)
  /-- `MANAGER_LOST`: no HEARTBEAT has come for 1 ms (R409) -/
  | managerLost
  /-- `BYPASS_SWITCH_SETTLE`: a bypass switch finishes its move (R398) -/
  | bypassSwitchSettle (switch : Fin 3)
  /-- `CAPS`: a write of `PM_CALL` that starts CAPS (R417) -/
  | caps (who : Agent) (slot : Fin 12) (notify : Bool) (vector : Fin 1024)
  /-- `QUOTE`: a write of `PM_CALL` that starts QUOTE (R431) -/
  | quote (who : Agent) (slot : Fin 12) (notify : Bool) (vector : Fin 1024)
  /-- `OWNER_REGISTER`: a write of `PM_CALL` that starts OWNER_REGISTER, with the signature that host memory held, none where the read was refused or the host lost (R429) -/
  | ownerRegister (who : Agent) (slot : Fin 12) (notify : Bool) (vector : Fin 1024) (signature : Option (List Byte))
  /-- `OWNER_TRANSFER`: a write of `PM_CALL` that starts OWNER_TRANSFER, with the two signatures that host memory held (R430) -/
  | ownerTransfer (who : Agent) (slot : Fin 12) (notify : Bool) (vector : Fin 1024) (signatures : Option (List Byte))
  /-- `CARRIER_LOAD`: a write of `PM_CALL` that starts CARRIER_LOAD (R427) -/
  | carrierLoad (who : Agent) (slot : Fin 12) (notify : Bool) (vector : Fin 1024)
  /-- `CARRIER_LOAD_DONE`: the Carrier image has been copied, measured and verified: what host memory held, none where a read was refused or the host lost (R427) -/
  | carrierLoadDone (image : Option (List Byte))
  /-- `CONTEXT_CLAIM`: a write of `PM_CALL` that starts CONTEXT_CLAIM with a claim, or with an `OP` that R416 does not name (R420) -/
  | contextClaim (who : Agent) (slot : Fin 12) (notify : Bool) (vector : Fin 1024)
  /-- `CONTEXT_RELEASE`: a write of `PM_CALL` that starts CONTEXT_CLAIM with a release (R420) -/
  | contextRelease (who : Agent) (slot : Fin 12) (notify : Bool) (vector : Fin 1024)
  /-- `QUEUE_CONTEXT`: a write of `PM_CALL` that starts QUEUE_CONTEXT (R369) -/
  | queueContext (who : Agent) (slot : Fin 12) (notify : Bool) (vector : Fin 1024)
  /-- `RING_QUEUES_SET`: a write of `PM_CALL` that starts RING_QUEUES with set, or with an `OP` that R416 does not name (R405) -/
  | ringQueuesSet (who : Agent) (slot : Fin 12) (notify : Bool) (vector : Fin 1024)
  /-- `RING_QUEUES_CLEAR`: a write of `PM_CALL` that starts RING_QUEUES with clear (R405) -/
  | ringQueuesClear (who : Agent) (slot : Fin 12) (notify : Bool) (vector : Fin 1024)
  /-- `SAVE_POOL`: a write of `PM_CALL` that starts SAVE_POOL (R370) -/
  | savePool (who : Agent) (slot : Fin 12) (notify : Bool) (vector : Fin 1024)
  /-- `ABORT`: a write of `PM_CALL` that starts ABORT (R373) -/
  | abort (who : Agent) (slot : Fin 12) (notify : Bool) (vector : Fin 1024)
  /-- `KEY_INSTALL`: a write of `PM_CALL` that starts KEY_INSTALL (R433) -/
  | keyInstall (who : Agent) (slot : Fin 12) (notify : Bool) (vector : Fin 1024)
  /-- `KEY_BIND`: a write of `PM_CALL` that starts KEY_BIND (R434) -/
  | keyBind (who : Agent) (slot : Fin 12) (notify : Bool) (vector : Fin 1024)
  /-- `KEY_REMOVE`: a write of `PM_CALL` that starts KEY_REMOVE (R434) -/
  | keyRemove (who : Agent) (slot : Fin 12) (notify : Bool) (vector : Fin 1024)
  /-- `EXPORT_WINDOW`: a write of `PM_CALL` that starts EXPORT_WINDOW (R390) -/
  | exportWindow (who : Agent) (slot : Fin 12) (notify : Bool) (vector : Fin 1024)
  /-- `GROUP_WRITE`: a write of `PM_CALL` that starts GROUP_WRITE with a write, or with an `OP` that R416 does not name (R392) -/
  | groupWrite (who : Agent) (slot : Fin 12) (notify : Bool) (vector : Fin 1024)
  /-- `GROUP_DELETE`: a write of `PM_CALL` that starts GROUP_WRITE with a delete (R416) -/
  | groupDelete (who : Agent) (slot : Fin 12) (notify : Bool) (vector : Fin 1024)
  /-- `HBM_REPAIR`: a write of `PM_CALL` that starts HBM_REPAIR (R300) -/
  | hbmRepair (who : Agent) (slot : Fin 12) (notify : Bool) (vector : Fin 1024)
  /-- `ISLAND_RETIRE`: a write of `PM_CALL` that starts ISLAND_RETIRE (R439) -/
  | islandRetire (who : Agent) (slot : Fin 12) (notify : Bool) (vector : Fin 1024)
  /-- `BOOT_START`: the boot begins: the offset at which the read of the serial or helper area fails, none where it is good (R424, R425) -/
  | bootStart (recordBad : Option Word)
  /-- `BOOT_DONE`: key derivation and HBM training are complete (R424, R425, R292) -/
  | bootDone (pufOk : Bool) (training : List StackTraining)
  /-- `SLACK_ALARM`: a slack detector of a compute or grinder island fires (R443) -/
  | slackAlarm (island : Fin 512)
  /-- `PLANNER_DAILY_RUN`: a daily run reads every island's sensors (R446) -/
  | plannerDailyRun (readings : List IslandReading)
  /-- `PLAN_CTRL_RUN`: a write of PLAN_CTRL with RUN 1 (R446) -/
  | planCtrlRun (who : Agent) (goal : Fin 256) (readings : List IslandReading)
  /-- `POWER_ON_HOUR`: a power-on hour has passed (R448) -/
  | powerOnHour
  /-- `SCRATCHPAD_SCRUB`: the scrub reads the next word of a physical core's scratchpad, or another read of an SRAM meets an error (R438) -/
  | scratchpadScrub (core : Fin 168) (met : SramRead)
  /-- `LOG_ENTRY_WRITE`: the log takes the oldest entry waiting at an island (R451, R452) -/
  | logEntryWrite (island : Fin 512)
  /-- `LOG_INTERVAL_END`: the rate-limiting interval of a code and source ends (R486) -/
  | logIntervalEnd (island : Fin 512) (code : Half)
  /-- `LOG_MIRROR_SEND`: the next qualifying entry is mirrored to the manager (R453) -/
  | logMirrorSend
  /-- `SUPPLY_WARNING`: a sample of the input below 45.0 V, in mV: the first stretches every island (R456) -/
  | supplyWarning (mv : Half)
  /-- `SUPPLY_WARNING_CLEAR`: the input has stayed above 45.5 V for 10 µs (R456) -/
  | supplyWarningClear (mv : Half)
  /-- `SUPPLY_RESET`: the input falls below 41.0 V (R457) -/
  | supplyReset (mv : Half)
  /-- `SUPPLY_RESTORED`: after a supply reset, the input has stayed above 44.0 V for 5 ms (R457) -/
  | supplyRestored (mv : Half)
  /-- `SUPPLY_OFF`: the input falls below 30 V (R455, R461) -/
  | supplyOff
  /-- `POWER_UP`: the input rises through 44.0 V from OFF (R458) -/
  | powerUp (mv : Half)
  /-- `POWER_GOOD`: power is good 31 ms after the rise (R458) -/
  | powerGood
  /-- `MRST_N_ASSERT`: `MRST_N` has been held low for 10 µs (R463) -/
  | mrstNAssert
  /-- `MRST_N_RELEASE`: `MRST_N` is released (R464) -/
  | mrstNRelease
  /-- `PWR_CTRL_MODULE_RESET`: a write of `PWR_CTRL` with `MODULE_RESET` (R464) -/
  | pwrCtrlModuleReset (who : Agent) (wdogMs : Fin 256)
  /-- `POSTMASTER_RESET`: an uncorrectable Postmaster SRAM word at an offset, or, where none is given, a die or HBM rail out of regulation for 10 µs (R463) -/
  | postmasterReset (sram : Option Word)
  /-- `MODULE_RESET_BOOT`: 1.5 ms after a module reset, the boot is due (R464) -/
  | moduleResetBoot
  /-- `PWR_CTRL_CARRIER_RESTART`: a write of `PWR_CTRL` with `CARRIER_RESTART` (R465) -/
  | pwrCtrlCarrierRestart (who : Agent) (wdogMs : Fin 256)
  /-- `CARRIER_WATCHDOG_EXPIRY`: the Carrier has not kicked the watchdog for `WDOG_MS` (R465) -/
  | carrierWatchdogExpiry
  /-- `PWR_CTRL_WDOG_KICK`: a write of `PWR_CTRL` with `WDOG_KICK` (R465) -/
  | pwrCtrlWdogKick (who : Agent) (wdogMs : Fin 256)
  /-- `PWR_CTRL_PARK`: a write of `PWR_CTRL` with `PARK` (R468) -/
  | pwrCtrlPark (who : Agent) (wdogMs : Fin 256)
  /-- `PARK_DONE`: the park completes (R468) -/
  | parkDone
  /-- `PWR_CTRL_UNPARK`: a write of `PWR_CTRL` with `UNPARK`, with what re-training finds (R469) -/
  | pwrCtrlUnpark (who : Agent) (wdogMs : Fin 256) (training : List StackTraining)
  /-- `UNPARK_DONE`: the unpark's boot run has a reading of every linked island (R469) -/
  | unparkDone (readings : List IslandReading)
  /-- `JUNCTION_TEMP_CHANGE`: a sensor reads a junction temperature (R459) -/
  | junctionTempChange (island : Fin 512) (tempC : Fin 256)
  /-- `THERMAL_CRITICAL_TIMEOUT`: a sensor has been at 105 °C or above for 1 s (R459) -/
  | thermalCriticalTimeout
  /-- `INPUT_POWER_LIMIT`: the input power, averaged over 1 ms (R459) -/
  | inputPowerLimit (watts : Half)
  /-- `HBM_TEMP_CHANGE`: a stack's temperature (R460) -/
  | hbmTempChange (stack : Fin 12) (tempC : Fin 256)
  /-- `CORE_RESET`: the Postmaster resets a physical core (R466) -/
  | coreReset (core : Fin 168)
  /-- `ISLAND_IDLE_GATE`: an island has had no op and no batch for 64 cycles (R467) -/
  | islandIdleGate (island : Fin 512)
  /-- `SB_READ_MOD_ID`: sideband command 0x00 (R479) -/
  | sbReadModId
  /-- `SB_READ_MOD_STATE`: sideband command 0x01 (R479) -/
  | sbReadModState
  /-- `SB_READ_MOD_SERIAL`: sideband command 0x02 (R479) -/
  | sbReadModSerial
  /-- `SB_READ_PM_STATUS`: sideband command 0x03 (R479) -/
  | sbReadPmStatus
  /-- `SB_READ_PWR_SUPPLY`: sideband command 0x04 (R479) -/
  | sbReadPwrSupply
  /-- `SB_READ_PWR_THERMAL`: sideband command 0x05 (R479) -/
  | sbReadPwrThermal
  /-- `SB_READ_ALERT_STATUS`: sideband command 0x06 (R479) -/
  | sbReadAlertStatus
  /-- `SB_READ_LOG_SEQ`: sideband command 0x07 (R479) -/
  | sbReadLogSeq
  /-- `SB_READ_MODULE_RECORD`: sideband command 0x10: bytes of the module record (R480) -/
  | sbReadModuleRecord (offset : Fin 16777216) (count : Fin 33)
  /-- `SB_UNUSED_COMMAND`: any other sideband command (R479) -/
  | sbUnusedCommand (command : Byte)
  /-- `COURIER_LINK_UP`: a port's link finishes training, with the places that it spans (R400, R401) -/
  | courierLinkUp (port : Fin 6) (neighbour : Fin 64) (bypassed : Fin 64) (lanes4 : Bool)
  /-- `PM_CALL_DONE`: a call that takes time finishes (R414) -/
  | pmCallDone (slot : Fin 12)
  /-- `SLACK_CHECK_DONE`: a full slack check of an island completes (R445) -/
  | slackCheckDone (island : Fin 512) (pass : Bool) (reading : IslandReading)
  /-- `PLANNER_RUN_DONE`: a daily or requested run completes (R446, R449) -/
  | plannerRunDone
  /-- `SEM_POST_REGISTER`: a write of `SEM_POST` (R214) -/
  | semPostRegister (who : Agent) (die : Fin 2) (value : Word)
  /-- `CARRIER_ACCESS`: a control processor's access to a device address or the control window (R411) -/
  | carrierAccess (die : Fin 2) (access : CarrierAccessKind)
deriving DecidableEq, Repr

end Sys2Proof
end

