-- ==== Sys2Proof/Config.lean ====
section
/-! DEFINITION. What an implementation fixes and what the manual leaves open: constants without a body, so that nothing proved of the
machine can rest on a value of theirs. -/

namespace Sys2Proof.Config

/-! ### Values fixed in a module -/

/-- The serial number in the module record (R423). -/
opaque serial : Dword
/-- SHAKE256 of the boot ROM, as the Postmaster measures it (R424). -/
opaque romHash : Bits256
/-- The seed that the Postmaster rebuilds from the power-up pattern of its SRAM (R422). -/
opaque pufSeed : Bits256
/-- The device addresses of a DRAM row: stack, pseudo-channel, bank group, bank, row; the controller's mapping is its own (R286). -/
opaque rowAddrs : Nat → Nat → Nat → Nat → Nat → List Nat

/-- The lane, 0 to 31, of the pseudo-channel that carries a bit of a stored word (R296 names the bit of an erased lane and not which). -/
opaque eccLane : Nat → Fin 72 → Nat
/-- What the SEC-DED code makes of a word with more wrong bits than the rules speak of, stored plain or with the check bits of poison (R295,
R297): detected, unnoticed, or one bit taken for the error. -/
opaque eccMany : Bool → List (Fin 72) → Option (Option (Fin 72))

/-! ### Cryptography -/

/-- The randomizer, 32 bytes, of the signature of a quote with these bytes before it: FIPS 205 lets it be drawn at random (R431). -/
opaque signRandom : List Byte → List Byte

/-! ### Approximated functions (R139, R176): codes of FP32 operands to codes of FP32 results -/

/-- The functions that the manual gives only to an accuracy. -/
inductive Approx where
  | exp | exp2 | log | log2 | tanh | sigmoid | gelu | silu | rsqrt
deriving DecidableEq, Repr

/-- The result for a finite operand, by its FP32 code. -/
opaque approx : Approx → Nat → Nat

/-- The context virtual address on a worker at which its Carrier reaches a prefix region of another worker, by worker, home and slot: a peer-homed
segment that the Carrier chooses (R267). -/
opaque peerChain : Nat → Nat → Nat → Nat

/-! ### Open results -/

/-- Whether a fused multiply-add of zero, infinity and a quiet NaN signals invalid, which IEEE 754 leaves open (R93, R95). -/
opaque fmaInvalidNan : Bool
/-- The partial sum that the cupping unit forms of an op's squares, given as FP32 codes in order (R163 gives no order and no
precision of it). -/
opaque statSum : List Nat → Nat

/-- What a permuting stage reads, as a code, from a lane of its beat that holds no element (R166, R177). -/
opaque idleLane : Nat → Nat

/-! ### Free values, each drawn once by its number -/

/-- A number of cycles or operations that only timing decides. -/
opaque freeCount : Nat → Nat
/-- A byte that nothing fixes. -/
opaque freeByte : Nat → Nat → Byte
/-- A choice that nothing fixes. -/
opaque freeChoice : Nat → Nat

end Sys2Proof.Config
end

