-- ==== Sys2Proof/Machine/State.lean ====
section
/-! DEFINITION. The state of the module: every register, table, queue, buffer and counter the manual names, as plain
data, the reasons a step can stop, and the state right after a cold reset. -/

namespace Sys2Proof.Machine

/-- Why a command could stop the machine with a fault. No command of this block does: every effect the manual gives
is a next state. The one reason named is kept for a decoder that hands over no command. -/
inductive Fault where
  /-- Raised by nobody; safe, since a run never meets it. -/
  | noCommand
deriving DecidableEq, Repr

/-- Why a command could be refused. -/
inductive Refusal where
  /-- A row of the table that has no meaning yet, by its mnemonic; raised by the dispatcher alone; safe, because the
  run stops there. -/
  | notModelled (mnemonic : String)
deriving DecidableEq, Repr

/-- What a command answers. -/
abbrev Out (σ : Type) := Host.Outcome σ Fault Refusal


/-- A byte with the poison of the granule that carries it (R226, R290). -/
abbrev PByte := Byte × Bool

/-- Bytes on the move, each with its granule's poison. -/
abbrev PData := List PByte
/-! ### Scope, module, log, margin planner, power (00, 01, 19, 20, 21) -/

/-- `MOD_STATE.STATE` (R461). -/
inductive ModState where
  | off | rom | awaitCarrier | awaitBlend | serving | parked | faulted
deriving DecidableEq, Repr

/-- The events of the postmarked log (R454). -/
inductive Event where
  | accessMisaligned | resetCause | carrierAccessDenied | pmCallDropped
  | blendRejected | reblendDone | ownerRegistered | ownerTransferred | recordInvalid | pufFailed
  | tileFault | tileLate | accSaturated | quantScaleInvalid | netUncorrectable | sramUncorrectable
  | pmSramUncorrectable | controlStateLost
  | semOverflow | semUncorrectable | linkReset | streamStall
  | grdIndexRange | grdTableDenied | grdBadDesc | tableForcedRetire | tableCmdDropped
  | dzSizeFault | dzHeaderFault | sealCheckFailed | sealKeyDenied
  | hbmUncorrectable | hbmLaneSpared | hbmStackOffline | hbmOfflineAccess | hbmScrubLate | hbmRepair
  | mscCleanDropped | mscUncorrectable | mscTagLost | cacheWayRetired
  | segFaultFull | segmentFaultTimeout | segWithdrawDone
  | gkRetrain | gkLinkDegraded | gkLinkDown | hostReset | hostCmdRefused | hostAccessRefused | mailboxOverrun
  | spillBaseRefused
  | queueConfigRefused | sqTailInvalid | rqHeadInvalid | envelopeInvalid | receiptSpilled | queueSpillStop
  | savePoolFull
  | courierRetrain | courierLinkDegraded | courierLinkDown | courierPeerLost | peerAccessRefused
  | courierGroupRefused | courierRingOpen | courierRingSplit | timeStepped | managerLost
  | marginRun | marginLow | slackAlarm | islandRetired
  | supplyDip | thermalThrottle | thermalCritical
  | logDropped | logMirrorGap
deriving DecidableEq, Repr

/-- One entry of the postmarked log (R450). `source` is die × 256 + island. -/
structure LogEntry where
  postmark : Nat
  event : Event
  source : Nat
  count : Nat
  data : List Byte
deriving DecidableEq, Repr

/-- An entry written under a sequence number (R451). -/
structure LogSlot where
  seq : Nat
  entry : LogEntry
deriving DecidableEq, Repr

/-- An open rate-limiting interval of one event and source (R486). -/
structure LogInterval where
  event : Event
  source : Nat
  endsAt : Nat
  count : Nat
  last : LogEntry
deriving DecidableEq, Repr

/-- The postmarked log and its registers (R450–R453). -/
structure LogState where
  /-- Entries by sequence number mod 16,384. -/
  slots : Tab LogSlot
  next : Nat
  /-- Entries waiting at each island (R452), oldest first, by island index. -/
  queues : Tab (List LogEntry)
  intervals : List LogInterval
  /-- `LOG_CTRL`. -/
  vector : Nat
  irqSev : Nat
  mirrorSev : Nat
  /-- `LOG_STATUS`. -/
  mirrorLost : Word
  dropped : Word
  /-- Dropped since the last LOG_DROPPED entry was written (R452). -/
  droppedSince : Nat
  mirrorSeq : Nat
deriving DecidableEq, Repr

/-- An island's margin-history entry (R449). -/
structure MarginEntry where
  vCode : Nat
  fCode : Nat
  headroom : Nat
  roDelta : Int
  retired : Bool
  belowGoal : Bool
  /-- `REASON`; for island 124 the mask of retired ways. -/
  reason : Nat
  run : Nat
  slope : Int
deriving DecidableEq, Repr

/-- A run entry of the margin history (R449). -/
structure RunEntry where
  run : Nat
  hours : Nat
  kind : Nat
  retired : Nat
  changed : Nat
  minHeadroom : Nat
  minIsland : Nat
  predict : Nat
  lanesSpared : Nat
  dips : Nat
  alarms : Nat
  maxTemp : Nat
deriving DecidableEq, Repr

/-- A header copy of the margin history (R449). -/
structure MarginHeader where
  hours : Nat
  runs : Nat
  seq : Nat
deriving DecidableEq, Repr

/-- The common and margin registers of an island block, and what the island's own mechanisms remember (R29, R30,
R442–R445, R459). -/
structure Island where
  /-- `ISL_STATE.POWER`: 0 power-gated, 1 clock-gated, 2 running. -/
  power : Nat
  faulty : Bool
  floor : Nat
  target : Nat
  current : Nat
  /-- Device time of the last code step (R17). -/
  lastStep : Nat
  /-- What the clock has counted, and the running time (`runTime`) at which it had: 160 ticks are a cycle (R17, R202, R456). -/
  ticks : Nat
  ticksAt : Nat
  tempC : Nat
  /-- `CURRENT` is below `TARGET` for temperature or power (R459). -/
  throttled : Bool
  vCode : Nat
  headroom : Nat
  roDelta : Int
  slack : Nat
  alarms : Nat
  belowGoal : Bool
  /-- Times of slack alarms at the highest voltage and the floor (R439). -/
  alarmTimes : List Nat
  /-- `ISL_SRAM_ECC`. -/
  eccUncorrected : Word
  eccCorrected : Word
  /-- Times and offsets of uncorrectable scratchpad words (R439). -/
  eccErrors : List (Nat × Nat)
  /-- Next word of the scratchpad scrub (R438). -/
  scrubWord : Nat
  /-- A full slack check in progress: its voltage and frequency codes, and whether a stretch has voided it. -/
  check : Option (Nat × Nat)
  checkVoid : Bool
  /-- Device time since which the island has been clock-gated with no work (R446, R467). -/
  gatedSince : Option Nat
  /-- Headroom of the last 30 runs with their power-on hours, newest first (R448). -/
  history : List (Nat × Nat)
  predict : Nat
deriving DecidableEq, Repr

/-- The planner's registers and run state (R444–R448). -/
structure PlanState where
  predictHours : Nat
  minHeadroom : Nat
  retired : Nat
  running : Bool
  bootDone : Bool
  hours : Nat
  goal : Nat
  /-- The goal in force, taken from `GOAL` at the start of a run. -/
  goalNow : Nat
  lastRun : Option Nat
  runNo : Nat
  /-- Kind of the run in progress. -/
  runKind : Nat
  changed : Nat
  lanesSpared : Nat
  retiredThisRun : Nat
  dipsSince : Nat
  alarmsSince : Nat
  maxTempSince : Nat
  /-- Device time of the last power-on hour counted. -/
  lastHour : Nat
deriving DecidableEq, Repr

/-- A module reset that has been triggered and not yet reached its boot (R464). -/
structure ResetPending where
  kind : Nat
  since : Nat
deriving DecidableEq, Repr

/-- Supply, reset, thermal and park state (R455–R470, R479). -/
structure PowerState where
  /-- `PWR_CTRL.WDOG_MS` and the time of the last kick. -/
  wdogMs : Nat
  wdogKick : Nat
  /-- `PWR_STATUS`. -/
  parkResult : Nat
  lastReset : Nat
  /-- `PWR_SUPPLY`. -/
  minMv : Half
  nowMv : Half
  dips : Nat
  powerW : Nat
  /-- The stretch in force: start time and lowest voltage (R456). -/
  stretch : Option (Nat × Nat)
  /-- ns of stretches that have ended: a stretched clock runs at 75 % (R456). -/
  stretched : Nat
  /-- `PWR_THERMAL.PEAK_C`. -/
  peakC : Nat
  /-- Sensors at the critical level, by island index, or 512 + stack, with the device time since which they have been (R459, R460). -/
  critical : Tab Nat
  /-- Input power above 1,600 W throttles the floorless islands (R459). -/
  powerLimit : Bool
  mrstHeld : Bool
  reset : Option ResetPending
  /-- The boot of R424 waits to start. -/
  bootDue : Option Nat
  /-- Islands and rails are stopped by a supply reset (R457). -/
  supplyReset : Bool
  /-- The die and HBM rails are up. -/
  rails : Bool
  /-- HBM is in self-refresh. -/
  selfRefresh : Bool
  /-- Power-on times of rail regulator faults (R462). -/
  regFaults : List Nat
  /-- Alert status (R479). -/
  alertCritical : Bool
  alertFaulted : Bool
  /-- A park or unpark in progress. -/
  parking : Bool
  unparking : Bool
  /-- The unpark's boot run has set every point. -/
  unparkRan : Bool
deriving DecidableEq, Repr

/-! ### The applied structure (02) -/

/-- A partition of the applied structure (R45–R50). -/
structure Partition where
  express : Bool
  /-- 0 grid, 1 fan, 2 switchable (R47). -/
  dataflow : Nat
  cacheRegion : Option Nat
  grinderMask : Nat
  streamUnits : Nat
  stationaryUnits : Nat
  spillUnits : Nat
  accumVisible : Bool
  singleStep : Bool
  hostScratchRead : Bool
  semBase : Nat
  semUnits : Nat
  /-- Die-local logical cores, ascending. -/
  cores : List Nat
  /-- Its stage library (R62), 32 bytes a descriptor. -/
  stages : List Bits256
deriving DecidableEq, Repr

/-- An end of a link (R54). -/
structure LinkEnd where
  grinder : Bool
  port : Nat
  unit : Nat
deriving DecidableEq, Repr

/-- A stream link (R54). -/
structure LinkDef where
  producer : LinkEnd
  consumer : LinkEnd
  length : Nat
  order : Nat
  slotMask : Nat
  ringKib : Nat
  ringOffset : Nat
  semFull : Nat
  semEmpty : Nat
  persistent : Bool
deriving DecidableEq, Repr

/-- A queue's binding (R60). -/
structure QueueBind where
  partition : Nat
  cls : Nat
  depthLog2 : Nat
deriving DecidableEq, Repr

/-- The `CLASSES` record (R58). -/
structure ClassDef where
  expressHbm : Bool
  expressRing : Bool
  expressFloor : Nat
  weightFirst : Nat
  weightSecond : Nat
  weightBulk : Nat
deriving DecidableEq, Repr

/-- The `ROLE` record (R61). -/
structure RoleDef where
  manager : Bool
  uplinkEast : Bool
  uplinkWest : Bool
  sessionLimit : Nat
  prefixNodes : Nat
  tableBase : Nat
  tableSize : Nat
deriving DecidableEq, Repr

/-- How a cache region places lines (R302, R303). -/
inductive Placement where
  | direct | sectored
deriving DecidableEq, Repr

/-- A cache region's definition (R53), by die × 8 + region. -/
structure RegionDef where
  placement : Placement
  wayMask : Nat
deriving DecidableEq, Repr

/-- A structure: what an image's sections spell. -/
structure Structure where
  /-- By partition ID: die × 32 + index (R40). -/
  parts : Tab Partition
  /-- Spare-map entries as written, by logical core (R51). -/
  spareWritten : Tab Nat
  /-- Physical core (die × 84 + number) of each linked logical core. -/
  spare : Tab Nat
  regions : Tab RegionDef
  /-- By die × 4,096 + index. -/
  links : Tab LinkDef
  queues : Tab QueueBind
  classes : ClassDef
  role : RoleDef
deriving DecidableEq, Repr

/-! ### Postmaster and trust (18) -/

/-- An owner-area copy of the module record (R423). -/
structure OwnerCopy where
  hash : Bits256
  counter : Word
  seq : Word
deriving DecidableEq, Repr

/-- A spare lane or an erasure of a channel (R292, R300): DQ lane number, and whether it is erased. -/
structure LaneFix where
  stack : Nat
  channel : Nat
  lane : Nat
  erased : Bool
deriving DecidableEq, Repr

/-- A row repair of a pseudo-channel (R300). -/
structure RowRepair where
  stack : Nat
  pseudo : Nat
  bankGroup : Nat
  bank : Nat
  row : Nat
  hard : Bool
deriving DecidableEq, Repr

/-- The module record (R423): what the serial EEPROM holds. The serial number is the module's own. -/
structure ModRecord where
  ownerA : Option OwnerCopy
  ownerB : Option OwnerCopy
  /-- HBM lane map: fixes in force, by stack and channel. -/
  lanes : List LaneFix
  /-- Training baselines: trained level of each DQ lane, by stack × 1024 + channel × 64 + lane (R292). -/
  baselines : Tab Nat
  repairs : List RowRepair
  headerA : Option MarginHeader
  headerB : Option MarginHeader
  islands : Tab MarginEntry
  runs : Tab RunEntry
deriving DecidableEq, Repr

/-- A Postmaster call slot (R413). Argument and reply bytes are listed where they are not 0. -/
structure CallSlot where
  state : Nat
  notify : Bool
  vector : Nat
  func : Nat
  result : Dword
  args : Tab Byte
  reply : Tab Byte
  /-- What a call that takes time will answer: result and reply. -/
  due : Option (Dword × List Byte)
  /-- Contexts that a release waits to give up (R419). -/
  waits : List Nat
  /-- The caller: a host number, or none for the Carrier. -/
  caller : Option Nat
  /-- The reply is discarded, since the Carrier was restarted (R465). -/
  discard : Bool
deriving DecidableEq, Repr

/-- A per-model key under a handle (R432, R433). -/
structure KeySlot where
  key : Bits256
  context : Nat
deriving DecidableEq, Repr

/-- A running Carrier load (R427). -/
structure CarrierLoading where
  slot : Nat
  base : Nat
  size : Nat
  imageLen : Nat
  image : List Byte
deriving DecidableEq, Repr

/-- What the Postmaster holds in private SRAM, its call slots and the module record (R410–R434). -/
structure PmState where
  fault : Nat
  slots : Tab CallSlot
  record : ModRecord
  /-- The Postmaster's copy of the record; none until the boot has read it (R480). -/
  copy : Option ModRecord
  /-- `MOD_SERIAL`. -/
  serial : Dword
  /-- The seed of R422, once rebuilt. -/
  seed : Option Bits256
  romHash : Bits256
  /-- The boot has begun (R424). -/
  booting : Bool
  /-- Record offset at which the boot's read of the serial or helper area failed. -/
  recordBad : Option Nat
  /-- `PM_STATUS.CARRIER`. -/
  carrierRuns : Bool
  carrierBase : Nat
  carrierSize : Nat
  carrierMeas : Bits256
  carrierVersion : Dword
  carrierEntry : Nat
  carrierSigOffset : Nat
  carrierLoading : Option CarrierLoading
  /-- Context owners by context number (R420). -/
  contexts : Tab Nat
  keys : Tab KeySlot
deriving DecidableEq, Repr

/-! ### Blend loads in progress (R66–R76) -/

/-- Which call runs (R66, R68, R415). -/
inductive LoadKind where
  | full | stage | reblend
deriving DecidableEq, Repr

/-- Where a load stands. -/
inductive LoadPhase where
  | copying | measuring | verifying | validating | stopping | cleaning | resuming | applying | bootRun
  /-- The boot run has set every point, and the islands' clocks move to them (R66). -/
  | ramping
deriving DecidableEq, Repr

/-- A blend load or re-blend in progress. -/
structure BlendLoad where
  kind : LoadKind
  slot : Nat
  len : Nat
  phase : LoadPhase
  image : List Byte
  /-- SHAKE256 of the signed message. -/
  meas : Bits256
  abortMode : Bool
  drainLimitUs : Nat
  /-- The structure that would result. -/
  next : Structure
  target : Nat
  /-- Start of the quiesce (R70, R72). -/
  started : Nat
  roleChange : Bool
  /-- Newly linked cores that the Postmaster has yet to reset (R71, R466). -/
  joining : List Nat
deriving DecidableEq, Repr

/-- The applied structure and its measurement (R37, R38, R44). -/
structure BlendState where
  applied : Bool
  cur : Structure
  meas : Bits256
  blendId : Dword
  reblends : Nat
  load : Option BlendLoad
  /-- The staged image and the measurement of its signed message. -/
  staged : Option (List Byte × Bits256)
  /-- The stack that carries the reservation. -/
  reserve : Option Nat
  /-- Compute islands powered since the cold reset, whose scratchpads have been written with zeros (R435). -/
  zeroed : List Nat
  /-- Physical cores with a verified point since the cold reset (R71). -/
  verified : List Nat
  /-- Partitions whose front ends do not fetch (R71). -/
  quiesced : List Nat
  /-- Device time at which a partition's fetching last resumed after a re-blend outage (R74, R375). -/
  resumedAt : Tab Nat
deriving DecidableEq, Repr

def structureReset : Structure :=
  { parts := [], spareWritten := [], spare := [], regions := [], links := [], queues := [],
    classes := { expressHbm := false, expressRing := false, expressFloor := 0, weightFirst := 0, weightSecond := 0,
                 weightBulk := 0 },
    role := { manager := false, uplinkEast := false, uplinkWest := false, sessionLimit := 0, prefixNodes := 0,
              tableBase := 0, tableSize := 0 } }

def blendReset : BlendState :=
  { applied := false, cur := structureReset, meas := 0, blendId := 0, reblends := 0, load := none, staged := none,
    reserve := none, zeroed := [], verified := [], quiesced := [], resumedAt := [] }

/-! ### A core: sequencer, units, tile queues (03–09) -/

/-- An op in the issue window (R186), in program order. -/
structure IssuedOp where
  seq : Nat
  addr : Nat
  word : Bits256
  started : Bool
  issuedAt : Nat
  /-- The op joins the chain of the MAT op issued before it (R116, R203); its chain was broken by a replay after it had begun (R132). -/
  joins : Bool
  abandoned : Bool
  /-- Far address with the register's value at issue, scratchpad references likewise (R191). -/
  near : Nat
  near2 : Nat
  near3 : Nat
  near4 : Nat
  far : Nat
  /-- The island's ticks at its start, and C of a started VEC op (R185, R202). -/
  startedAt : Nat
  count : Nat
  /-- A POST's fence: ops it still waits for (R199). -/
  fence : List Nat
  /-- The transfer or batch it made. -/
  xfer : Option Nat
  /-- Cycles that replays have added to its bound (R134). -/
  extra : Nat
  /-- The frame record that an expander op's check has read (R270): DZ reference, base reference, bytes, flags, first block. -/
  frame : List Nat
deriving DecidableEq, Repr

/-- A 2 KiB program block (R187) with the poison of its granules. -/
structure Block where
  base : Nat
  bytes : List Byte
  poison : List Bool
deriving DecidableEq, Repr

/-- A live range (R206). -/
structure LiveRange where
  reload : Bool
  start : Nat
  reg : Nat
  length : Nat
deriving DecidableEq, Repr

/-- A wait that holds issue (R199). -/
structure HeldWait where
  sem : Nat
  count : Nat
  timeoutUs : Nat
  since : Nat
  addr : Nat
  granted : Bool
deriving DecidableEq, Repr

/-- A take that waits at a semaphore (R211). -/
inductive Waiter where
  | core (phys : Nat) (count : Nat)
  | stream (die : Nat) (link : Nat) (count : Nat)
  /-- A grinder at one of its links, by die-local index (R232). -/
  | grinder (g : Nat) (link : Nat) (count : Nat)
deriving DecidableEq, Repr

/-- A semaphore (R210, R211). -/
structure Semaphore where
  value : Nat
  waiters : List Waiter
deriving DecidableEq, Repr


/-- The accumulation of one array (R126, R143): values by cell 64m + n, in wide mode the codes of the running sums; cells
that are special (1 NaN, 2 +∞, 3 −∞), saturated or poisoned. -/
structure ArrAcc where
  kept : Bool
  /-- Pair class (R104), mode (R193), and whether the pair is an integer pair or wide FP64. -/
  cls : Nat
  mode : Nat
  isInt : Bool
  fp64 : Bool
  x : Int
  r : Nat
  vals : Tab Int
  special : Tab Nat
  sat : List Nat
  poison : List Nat
deriving DecidableEq, Repr

/-- How far a tile-queue entry has come (R171). -/
inductive TileState where
  | reserved | occupied | popped
deriving DecidableEq, Repr

/-- A tile-queue entry (R172). -/
structure TileEntry where
  state : TileState
  addr : Nat
  stride : Nat
  rows : Nat
  fmt : Nat
  seq : Nat
deriving DecidableEq, Repr

/-- The MAT op in progress (R132): its place in the window, the snapshot of each masked array, and what replays did. -/
structure MatRun where
  seq : Nat
  snap : Tab ArrAcc
  /-- A replay drains and restores. -/
  draining : Bool
  /-- A saturation of this op has been logged (R133). -/
  satNoted : Bool
  replays : Nat
  /-- The island's ticks at which the attempt in progress began, and the arrays that have shown a saturation in it (R144, R203). -/
  since : Nat
  satArrays : List Nat
deriving DecidableEq, Repr

/-- The VEC op in progress, with the tile-queue entries it popped, by array (R171). -/
structure VecRun where
  seq : Nat
  popped : List (Nat × TileEntry)
deriving DecidableEq, Repr

/-- The last MAT op issued: what a chain compares (R116, R117). -/
structure ChainRef where
  mode : Nat
  cls : Nat
  m : Nat
  mask : Nat
  n : Nat
  /-- Its number in the window. -/
  seq : Nat
deriving DecidableEq, Repr

/-- `SEQ_FAULT`. -/
structure SeqFault where
  code : Nat
  cls : Nat
  valid : Bool
  addr : Nat
deriving DecidableEq, Repr

/-- Where a core's sequencer stands. -/
inductive CorePhase where
  | idle
  | running
  /-- Issue has stopped for a switch (R207). -/
  | boundary
  | saving
  | restoring
  /-- Issue has stopped for an early end (R205). -/
  | faulted
deriving DecidableEq, Repr

/-- A core's context, saved at a tile boundary (R206, R208). -/
structure SavedCore where
  pc : Nat
  xs : List Dword
  lcs : List Word
  withdrawn : List IssuedOp
  wait : Option HeldWait
  live : List LiveRange
  liveMore : Option Nat
  ended : Bool
  gens : Tab Dword
  acc : Tab ArrAcc
  tiles : Tab (List TileEntry)
  ranges : List (Nat × PData)
  /-- The bytes as the spill area and the save slot hold them, and where they lie in the slot (R208, R370). -/
  image : PData
  slotOff : Nat
deriving DecidableEq, Repr

/-- A physical core (R186–R209 and the registers of its island block). -/
structure Core where
  inv : Option Nat
  phase : CorePhase
  pc : Nat
  /-- x0–x7; x0 stays 0. -/
  xs : List Dword
  lcs : List Word
  /-- The issue window, oldest first, and the number of the next op. -/
  window : List IssuedOp
  nextSeq : Nat
  blocks : List Block
  live : List LiveRange
  /-- `MORE` of the last CHEAP or LIVE op, and how many LIVE ops have followed. -/
  liveMore : Option Nat
  wait : Option HeldWait
  /-- Ops withdrawn at a switch, to be issued again in order. -/
  withdrawn : List IssuedOp
  /-- END has issued. -/
  ended : Bool
  halt : Bool
  fault : SeqFault
  /-- Device time at which the core's invocation ended with a unit busy (R466). -/
  endedAt : Option Nat
  /-- The state in the spill area, and the reload transfers awaited on resume. -/
  spill : Option SavedCore
  reloads : List Nat
  /-- Generators: epilogue of array a, lane n at 64a + n; vector lane n at 256 + n (R99). -/
  gens : Tab Dword
  acc : Tab ArrAcc
  arrMode : Nat
  arrClass : Nat
  /-- Mode of the last MAT op issued (R121), and the op a next one would chain to. -/
  issueMode : Nat
  chain : Option ChainRef
  mat : Option MatRun
  /-- The op behind it that has joined its chain and begun (R103, R117). -/
  matNext : Option MatRun
  /-- The op at PC that its unit has not taken, by address, with the island's ticks at its first try (R202). -/
  stall : Option (Nat × Nat)
  vec : Option VecRun
  tiles : Tab (List TileEntry)
  tileSeq : Tab Nat
  fpStatus : Nat
  arrBusy : Dword
  arrMacs : Dword
  accReplays : Dword
  accSats : Dword
  vecBusy : Dword
  dzFaults : Dword
  sealFails : Dword
  stallUs : Nat
  dbgWord : Nat
  dbgPoison : Bool
deriving DecidableEq, Repr

def arrAccReset : ArrAcc :=
  { kept := false, cls := 0, mode := 0, isInt := false, fp64 := false, x := 0, r := 0, vals := [], special := [], sat := [],
    poison := [] }

def seqFaultReset : SeqFault := { code := 0, cls := 0, valid := false, addr := 0 }

def coreReset : Core :=
  { inv := none, phase := .idle, pc := 0, xs := [0, 0, 0, 0, 0, 0, 0, 0], lcs := [0, 0, 0, 0], window := [], nextSeq := 0,
    blocks := [], live := [], liveMore := none, wait := none, withdrawn := [], ended := false, halt := false,
    fault := seqFaultReset, endedAt := none, spill := none, reloads := [], gens := [], acc := [], arrMode := 0,
    arrClass := 0, issueMode := 0, chain := none, mat := none, matNext := none, stall := none, vec := none, tiles := [], tileSeq := [], fpStatus := 0,
    arrBusy := 0, arrMacs := 0, accReplays := 0, accSats := 0, vecBusy := 0, dzFaults := 0, sealFails := 0,
    stallUs := 0x3E8, dbgWord := 0, dbgPoison := false }

/-! ### Streams of links (09) -/

/-- A stream armed on a link (R219): context virtual base, bytes, chunks issued. -/
structure Stream where
  base : Nat
  length : Nat
  issued : Nat
  context : Nat
  inv : Nat
  /-- Class of the arming invocation's traffic. -/
  cls : Nat
deriving DecidableEq, Repr

/-- A chunk in flight (R220), with its granules and the transfer that moves it. -/
structure Chunk where
  no : Nat
  granules : Nat
  xfer : Nat
  landed : Bool
deriving DecidableEq, Repr

/-- A link's engine (R219–R221). -/
structure LinkRun where
  active : Option Stream
  pending : Option Stream
  /-- Ring position of the next chunk, from `RING_OFFSET`. -/
  position : Nat
  /-- Chunks in flight, in order, and the number of the next one. -/
  chunks : List Chunk
  nextChunk : Nat
  /-- The take for the next chunk waits, or has been granted. -/
  waiting : Bool
  granted : Bool
deriving DecidableEq, Repr

def linkRunReset : LinkRun :=
  { active := none, pending := none, position := 0, chunks := [], nextChunk := 0, waiting := false, granted := false }

/-- A die's select registers of island 106 (R214 and the link registers). -/
structure DieSelect where
  sem : Nat
  link : Nat
deriving DecidableEq, Repr

def dieSelectReset : DieSelect := { sem := 0, link := 0 }

/-! ### Grinders and table stores (10) -/

/-- A batch descriptor (R230). -/
structure BatchDesc where
  table : Nat
  flags : Nat
  outFmt : Nat
  bags : Nat
  epoch : Nat
  inLink : Nat
  outLink : Nat
  lenRef : Nat
  idxRef : Nat
  wgtRef : Nat
  outRef : Nat
  outStride : Nat
  resultRef : Nat
  /-- Its reserved fields, field limits and alignments are those of R230. -/
  fieldsOk : Bool
deriving DecidableEq, Repr

/-- The version a batch is bound to (R239): slot, tag, q, and the slot's base and rows. -/
structure Binding where
  slot : Nat
  epoch : Nat
  q : Nat
  base : Nat
  rows : Nat
deriving DecidableEq, Repr

/-- Where a batch stands. -/
inductive BatchPhase where
  /-- Accepted; its descriptor is being read. -/
  | queued
  | lengths
  | arrays
  | pooling
  | writing
deriving DecidableEq, Repr

/-- A batch on a grinder (R238). -/
structure Batch where
  id : Nat
  inv : Nat
  context : Nat
  cls : Nat
  region : Option Nat
  /-- Issuing physical core and the op's number in its window. -/
  core : Nat
  opSeq : Nat
  done : Option Nat
  phase : BatchPhase
  desc : Option BatchDesc
  binding : Option Binding
  /-- Transfers of the descriptor, lengths, indices and weights, outputs and result record, as they are made. -/
  xfers : List Nat
  /-- Input bytes taken from a link. -/
  ring : PData
  lens : List (Nat × Bool)
  idx : List (Nat × Bool)
  wgt : List (Nat × Bool)
  /-- Indices issued or attached so far, and those whose windows have been applied to the output rows (R233, R237). -/
  next : Nat
  applied : Nat
  /-- Row reads in flight: row and transfer. -/
  outstanding : List (Nat × Nat)
  /-- Rows resident in the combiner, least recently used first, and every row read. -/
  resident : List Nat
  data : Tab PData
  reads : Nat
  lookups : Nat
  /-- Result forced on it: 2 VERSION_RETIRED, 4 TABLE_DENIED, 3 BAD_DESC, 5 ABORTED. -/
  forced : Option Nat
  /-- Pooled rows made, and output rows handed to an output link. -/
  rows : List PData
  rowsOut : Nat
  unposted : Nat
  /-- Its result record has been handed to the network. -/
  recorded : Bool
deriving DecidableEq, Repr

/-- A grinder (R236–R238). -/
structure Grinder where
  queue : List Batch
  active : List Batch
  nextId : Nat
  /-- Ring position of each of its links. -/
  linkPos : Tab Nat
  /-- Links at which a take of the grinder waits, and granules granted to it and not yet used, by link (R211, R232). -/
  takes : List Nat
  granted : Tab Nat
  lookups : Dword
  reads : Dword
deriving DecidableEq, Repr

def grinderReset : Grinder := { queue := [], active := [], nextId := 0, linkPos := [], takes := [], granted := [], lookups := 0, reads := 0 }

/-- A version slot (R229): state 0 EMPTY, 1 STAGED, 2 CURRENT, 3 PREVIOUS. -/
structure TableSlot where
  state : Nat
  base : Nat
  rows : Nat
  epoch : Nat
deriving DecidableEq, Repr

/-- A table of a die's store (R229). -/
structure TableEntry where
  rowFmt : Nat
  sliceBytes : Nat
  rowStride : Nat
  owner : Nat
  slot0 : TableSlot
  slot1 : TableSlot
  /-- The PREVIOUS slot is marked, with the post that is due. -/
  retiring : Option (Option Nat)
  /-- UNDEFINE waits for the last bound batch. -/
  undefining : Option (Option Nat)
  /-- Batches stopped by a RETIRE with `FORCE` whose slot has not emptied yet (R241). -/
  forced : Option Nat
  seq : Nat
deriving DecidableEq, Repr

/-- A pending row update (R242). -/
structure RowUpdate where
  table : Nat
  slot : Nat
  row : Nat
  source : Nat
  u : Nat
  done : Option Nat
deriving DecidableEq, Repr

/-- A command port of a store (R245). -/
structure TablePort where
  args : List Dword
  seq : Nat
  code : Nat
  /-- Device time at which `BUSY` falls, and the post that then fires. -/
  busyUntil : Nat
  due : Option Nat
deriving DecidableEq, Repr

def tablePortReset : TablePort := { args := [0, 0, 0, 0], seq := 0, code := 0, busyUntil := 0, due := none }

/-- A die's table store. -/
structure TableStore where
  tables : Tab TableEntry
  updates : List RowUpdate
  port0 : TablePort
  port1 : TablePort
  query : Nat
deriving DecidableEq, Repr

def tableStoreReset : TableStore := { tables := [], updates := [], port0 := tablePortReset, port1 := tablePortReset, query := 0 }
/-! ### HBM, the memory-side cache, transfers and segments (13, 14) -/

/-- A line or sector held in a die's cache (R301–R303). `lines` of a die list it by line number (address ÷ 256). -/
structure CacheLine where
  region : Nat
  way : Nat
  dirty : Bool
  bytes : List Byte
  /-- Poison of the four granules. -/
  poison : List Bool
  /-- Last use, for the least-recently-used rule. -/
  stamp : Nat
deriving DecidableEq, Repr

/-- A dirty line on its way to the DRAM (R306). -/
structure EvbEntry where
  line : Nat
  bytes : List Byte
  poison : List Bool
  /-- Since when it waits, and how many younger Bulk transfers of its pseudo-channel have passed it (R288). -/
  since : Nat
  passed : Nat
  /-- A clean put it in (R309). -/
  cleaned : Bool
deriving DecidableEq, Repr

/-- A background fill that has not started (R304). -/
structure PendingFill where
  line : Nat
  region : Nat
  since : Nat
deriving DecidableEq, Repr

/-- One die's memory-side cache (R301–R310). -/
structure DieCache where
  lines : Tab CacheLine
  evb : List EvbEntry
  fills : List PendingFill
  /-- Ways powered, out of service and being cleaned, as rising lists of way numbers. -/
  powered : List Nat
  faulty : List Nat
  cleaning : List Nat
  /-- Ways that the walk of a clean has not wholly passed, and the next tag of the first of them (R309). -/
  walk : List Nat
  walkTag : Nat
  /-- Region of each way that is in one. -/
  wayRegion : Tab Nat
  /-- Placement of each region. -/
  placement : Tab Placement
  /-- Ways that power down when the clean completes. -/
  departing : List Nat
  hits : Dword
  misses : Dword
  fillCount : Dword
  fillsDropped : Dword
  corrected : Dword
  clock : Nat
  /-- Times and ways of uncorrectable data errors (R439). -/
  wayErrors : List (Nat × Nat)
deriving DecidableEq, Repr

/-- What an access does (R290, R291). -/
inductive AccessKind where
  | read | write | atomic
deriving DecidableEq, Repr

/-- An access waiting at its stop, oldest first: a piece of a transfer. -/
structure Arrived where
  xfer : Nat
  piece : Nat
  kind : AccessKind
  addr : Nat
  len : Nat
  data : PData
  /-- The cache region in which it allocates (R301). -/
  region : Option Nat
  cls : Nat
  since : Nat
  /-- How many younger accesses of its class and pseudo-channel have passed it (R288). -/
  passed : Nat
deriving DecidableEq, Repr

/-- What one access of a read has delivered, while other accesses of its piece wait (R287). -/
structure ReadPart where
  xfer : Nat
  piece : Nat
  addr : Nat
  data : PData
deriving DecidableEq, Repr

/-- The deficit round robin of a pseudo-channel (R288): the class in turn, 1 to 3, and the slots that First, Second and Bulk have left. -/
structure Wheel where
  turn : Nat
  first : Nat
  second : Nat
  bulk : Nat
deriving DecidableEq, Repr

def wheelReset : Wheel := { turn := 1, first := 0, second := 0, bulk := 0 }

/-- A memory controller and its stack (R286–R300). -/
structure McState where
  tempC : Nat
  /-- `MC_STATE.TRAIN`. -/
  train : Nat
  /-- Lane fixes in force on the stack, and those that wait for the channel's next pause (R294). -/
  fixes : List LaneFix
  newFixes : List LaneFix
  /-- Those that take effect in the pause in progress. -/
  coming : List LaneFix
  /-- The channel paused and since when. -/
  pause : Option (Nat × Nat)
  /-- Device time at which its last pause started. -/
  lastPause : Option Nat
  rdBytes : Dword
  wrBytes : Dword
  corrected : Dword
  uncorrected : Dword
  expressMax : Nat
  arrivals : List Arrived
  parts : List ReadPart
  /-- Round robin of each pseudo-channel. -/
  wheels : Tab Wheel
  /-- Next granule of the patrol and the start of its round. -/
  patrolNext : Nat
  patrolStart : Nat
  /-- HBM_SCRUB_LATE has been logged of this round. -/
  patrolLate : Bool
  /-- Row repairs in force, soft and hard. -/
  repairs : List RowRepair
deriving DecidableEq, Repr

/-- Who holds a transfer. -/
inductive XferOwner where
  | mov (core : Nat) (op : Nat)
  | stream (die : Nat) (link : Nat) (chunk : Nat)
  | batch (grinder : Nat) (batch : Nat)
  /-- A reload range on resume (R208). -/
  | reload (core : Nat)
deriving DecidableEq, Repr

/-- How far a piece has come. -/
inductive PieceState where
  /-- A MOV's, behind an earlier MOV of its core that has not started (R188). -/
  | waiting
  /-- Waiting for the directory (R315). -/
  | missing
  /-- Held at a fault record, or for want of one (R318, R319). -/
  | held (record : Option Nat)
  /-- A packet on the network, a message on the ring or an access at a port. -/
  | sent
  | landed
  /-- Cancelled or refused (R224, R321, R341). -/
  | ended
deriving DecidableEq, Repr

/-- A 4 KiB-aligned piece of a transfer (R313). -/
structure Piece where
  vaddr : Nat
  len : Nat
  /-- Where its bytes lie in the owner's scratchpad. -/
  near : Nat
  state : PieceState
  /-- The translation it was made with: segment index and `GEN`. -/
  trans : Option (Nat × Nat)
  daddr : Nat
deriving DecidableEq, Repr

/-- A transfer between an engine and far memory (R196, R313). -/
structure Xfer where
  engine : Nat
  context : Nat
  /-- The invocation it works for. -/
  inv : Nat
  owner : XferOwner
  kind : AccessKind
  cls : Nat
  region : Option Nat
  pieces : List Piece
  /-- Device time at which a byte last landed, or the transfer began (R224). -/
  lastLand : Nat
  /-- Its data go nowhere: cancelled (R224). -/
  cancelled : Bool
  /-- A held piece was failed or the host refused it (R321, R341). -/
  failed : Bool
  /-- Its data lie in `payload` and not in a scratchpad: a fill, a batch's reads and writes, a sealed unit, a skewed load. -/
  buffered : Bool
  payload : PData
  /-- An `UNSEAL` transfer: its key, none where the handle was refused, and whether its check has completed (R283, R285). -/
  sealed_ : Option (Option Bits256)
  checked : Bool
deriving DecidableEq, Repr

/-- Segment homes (R311). -/
inductive SegHome where
  | empty | local | host | peer
deriving DecidableEq, Repr

/-- A segment-table entry (R311), with what REVOKE_RM gives back (R323). -/
structure SegEntry where
  vstart : Nat
  length : Nat
  dbase : Nat
  read : Bool
  write : Bool
  atomic : Bool
  home : SegHome
  hot : Bool
  readMostly : Bool
  gen : Nat
  hostBase : Nat
  hostWrite : Bool
  hostRead : Bool
deriving DecidableEq, Repr

/-- A segment-cache entry (R315). -/
structure SegCached where
  context : Nat
  index : Nat
  entry : SegEntry
  stamp : Nat
deriving DecidableEq, Repr

/-- Why an access faults (R318). -/
inductive SegReason where
  | noSegment | rights | homeDown | badPiece
deriving DecidableEq, Repr

/-- A fault record (R319, R320). -/
structure FaultRec where
  vaddr : Nat
  context : Nat
  /-- The covering segment, or none. -/
  segment : Option Nat
  reason : SegReason
  kindRead : Bool
  kindWrite : Bool
  kindAtomic : Bool
  postmark : Nat
  /-- Engines with a piece held here, as a rising list. -/
  waiters : List Nat
  /-- While it resolves with RETRY: the pieces, by transfer and place, that wait for the directory to translate them again (R321). -/
  resolving : Option (List (Nat × Nat))
deriving DecidableEq, Repr

/-- A withdrawal in progress (R326). -/
structure Withdrawal where
  context : Nat
  index : Nat
  oldGen : Nat
  wTime : Nat
  /-- Engines that have applied the invalidation, and that have acknowledged. -/
  applied : List Nat
  acked : List Nat
  /-- Pieces still held under the old translation when the invalidation was applied. -/
  drained : Nat
  slot : Nat
deriving DecidableEq, Repr

/-- The segment calls of R325. -/
inductive SegOp where
  | write (e : SegEntry) (reservedOk : Bool) | clear | read
  | willNeed (dest : Nat) | cold (dest : Nat) | readMostly (dest : Nat) | revokeRm | hot | normal
deriving DecidableEq, Repr

/-- A segment call accepted and not yet finished (R325). -/
structure SegCall where
  slot : Nat
  host : Nat
  context : Nat
  index : Nat
  op : SegOp
  /-- 0 waiting to run; 1 first withdrawal draining; 2 copying; 3 final withdrawal draining. -/
  phase : Nat
  /-- The entry as the call found it, and the code that the call will return. -/
  orig : SegEntry
  code : Nat
deriving DecidableEq, Repr

/-- Segments, engines and faults (R311–R328). -/
structure SegState where
  /-- Entries by context × 64 + index. -/
  entries : Tab SegEntry
  /-- Segment caches by engine. -/
  caches : Tab (List SegCached)
  /-- Order in which segments were advised HOT, newest first: context × 64 + index (R316). -/
  hotOrder : List Nat
  clock : Nat
  records : Tab FaultRec
  overflow : Bool
  limitUs : Nat
  /-- `SEG_MISSES` by island, which is the engine's own (R315). -/
  misses : Tab Dword
  withdrawals : List Withdrawal
  calls : List SegCall
deriving DecidableEq, Repr

/-! ### Gheklink and the host (15) -/

/-- What a write to host memory carries, for whom its delivery counts. -/
inductive HostWriteFor where
  | piece (xfer : Nat) (piece : Nat)
  | receipt (queue : Nat)
  | quote (slot : Nat)
  | copyOut (context : Nat) (index : Nat)
deriving DecidableEq, Repr

/-- A posted write to host memory (R335, R337): the host, the 39-bit adapter address and the bytes, without poison
(R226). `seq` numbers the deliveries of a port. -/
structure HostWrite where
  host : Nat
  addr : Nat
  bytes : List Byte
  /-- Granules whose mark the write has lost (R226, R227). -/
  marks : Nat
  for_ : HostWriteFor
  invocation : Nat
  /-- The translation it was made under: engine, context, segment and `GEN`. -/
  trans : Option (Nat × Nat × Nat × Nat)
  seq : Nat
deriving DecidableEq, Repr

/-- A read of host memory that a port carries. -/
structure HostRead where
  host : Nat
  addr : Nat
  len : Nat
  xfer : Nat
  piece : Nat
deriving DecidableEq, Repr

/-- `GK_LINK_STATE.STATE` (R331). -/
inductive GkLink where
  | down | training | up | retraining | hostReset
deriving DecidableEq, Repr

/-- A Gheklink port (R329–R332, R337). -/
structure GkPort where
  link : GkLink
  lanes : Nat
  host : Option Nat
  identity : Dword
  retrains : Word
  replays : Word
  /-- Times of the replays of the last ms (R331). -/
  replayTimes : List Nat
  /-- The retrain in progress is a full one. -/
  full : Bool
  /-- Writes and reads the port holds, in order: not yet taken by the adapter. -/
  held : List HostWrite
  /-- Writes delivered and not yet flushed (R337). -/
  unflushed : List HostWrite
  reads : List HostRead
  /-- Deliveries numbered so far. -/
  seq : Nat
  /-- Flush reads under way: each covers deliveries up to a number. -/
  flushes : List Nat
deriving DecidableEq, Repr

/-- `GK_HOST_STATE.STATE` (R333). -/
inductive HostCond where
  | absent | linked | registered | lost
deriving DecidableEq, Repr

/-- A host (R332, R333). -/
structure HostState where
  cond : HostCond
  identity : Option Dword
  queueFirst : Nat
  queueCount : Nat
  /-- RELEASE was written: the number is cleared when the ports go down. -/
  released : Bool
  /-- Device time at which its last port went down. -/
  lostSince : Option Nat
  /-- Writes and receipts discarded since the loss, while HOST_RESET is still to be logged (R345). -/
  discarded : Option (Nat × Nat)
  /-- Port whose island is the `SOURCE` of HOST_RESET (R487). -/
  lossPort : Nat
deriving DecidableEq, Repr

/-- `MB_CTRL` of a mailbox (R346). -/
structure MbCtrl where
  mode : Bool
  queue : Nat
  vector : Nat
deriving DecidableEq, Repr

/-- A module notice (R347). -/
inductive NoticeKind where
  | spill | drained | port
deriving DecidableEq, Repr

/-- A notice waiting for its host's notice mailbox. -/
structure Notice where
  kind : NoticeKind
  port : Nat
  queue : Nat
  spilled : Nat
  postmark : Nat
deriving DecidableEq, Repr

/-- `IV_CTRL` of a vector and its last delivery (R348, R349). -/
structure VectorState where
  enable : Bool
  mask : Bool
  pending : Bool
  owner : Nat
  holdoffUs : Nat
  lastSent : Option Nat
deriving DecidableEq, Repr

/-- A vector message sent to an adapter. -/
structure VectorMsg where
  vector : Nat
  host : Nat
  port : Nat
  at_ : Nat
deriving DecidableEq, Repr

/-- The Gheklink side of the module (R329–R350). -/
structure HostSide where
  ports : Tab GkPort
  hosts : Tab HostState
  spillBase : Nat
  /-- Host-to-module mailbox bytes by mailbox × 256 + offset, and the device time at which a mailbox's `BUSY` falls. -/
  h2m : Tab Byte
  busy : Tab Nat
  /-- Module-to-host mailbox bytes, and the mailboxes that hold a message. -/
  m2h : Tab Byte
  full : List Nat
  mbCtrl : Tab MbCtrl
  /-- Notices waiting by host. -/
  notices : Tab (List Notice)
  /-- Messages handed to the Carrier from mode-0 mailboxes, oldest first. -/
  toCarrier : List (Nat × List Byte)
  vectors : Tab VectorState
  /-- Vectors raised and not yet acted on, oldest first, with the port of the write that each signals. -/
  raised : List (Nat × Option Nat)
  /-- Vector messages sent, oldest first. -/
  sent : List VectorMsg
  /-- Writes that adapters have acknowledged, oldest first, with their ports; the model's own record of what has left. -/
  delivered : List (Nat × HostWrite)
deriving DecidableEq, Repr

/-! ### Queues, invocations and receipts (16) -/

/-- Receipt status codes (R361). -/
inductive Status where
  | ok | okPoisoned | okReplayed | aborted | late | hostLost | segmentFault | sizeFault | versionRetired
  | preemptResumed
deriving DecidableEq, Repr

/-- A receipt (R360), before it has its index in the ring. -/
structure Receipt where
  status : Status
  mailbox : Bool
  fault : Nat
  fpFlags : Nat
  replays : Nat
  switches : Nat
  queue : Nat
  invocation : Nat
  postmark : Nat
  poisoned : Nat
  sqIndex : Nat
  notify : Bool
deriving DecidableEq, Repr

/-- An envelope that has been fetched and checked, with its enclosure (R355–R357). -/
structure Envelope where
  fence : Bool
  notify : Bool
  cores : Nat
  linkSet : Nat
  rankStride : Nat
  program : Nat
  seed : Dword
  pin : Option Nat
  mailbox : Bool
  /-- Index in its ring, or `MB_TAG`. -/
  sqIndex : Nat
  enclosure : List Byte
  /-- What its check found: nothing, or the fault code of R364. -/
  bad : Nat
  /-- Start of R375: the arrival of its doorbell, mailbox write or step message. -/
  start : Nat
deriving DecidableEq, Repr

/-- A FENCE that has been dispatched, and the invocations it waits for (R355). -/
structure FenceWait where
  sqIndex : Nat
  mailbox : Bool
  waits : List Nat
deriving DecidableEq, Repr

/-- A queue (R351–R364). -/
structure QueueState where
  sqTail : Nat
  sqHead : Nat
  rqTail : Nat
  rqHead : Nat
  sqRing : Nat
  rqRing : Nat
  enable : Bool
  fastMode : Bool
  hold : Bool
  context : Nat
  /-- A QUEUE_CONTEXT call has bound the queue (R369). -/
  bound : Bool
  vector : Nat
  error : Bool
  idle : Bool
  linkWait : Bool
  coreWait : Bool
  lat : Nat
  staged : List Envelope
  /-- Envelopes submitted by mailbox, in the order of their `MB_RING` writes (R359). -/
  mailed : List Envelope
  /-- Receipts due, oldest first. -/
  due : List Receipt
  fences : List FenceWait
  /-- A receipt write that the adapter has neither acknowledged nor refused (R342): the receipt and its ring index. -/
  inFlight : Option (Receipt × Nat)
  /-- Receipts in the spill area, oldest first: which of them raise the queue's vector; their bytes lie in HBM. -/
  spill : List Bool
  /-- Place of the oldest in the area, and the receipts spilled since the area was last empty. -/
  spillFirst : Nat
  spillTotal : Nat
  /-- A refused receipt held internally while there is no spill area (R342). -/
  heldBack : Option Receipt
  spillStop : Bool
  ringFeedOk : Bool
  ringFed : Bool
  /-- Envelopes handed over by STEP messages, oldest first (R405). -/
  fed : List Envelope
  /-- Doorbells whose envelopes may wait: the tail that each wrote and its time, oldest first (R375). -/
  doorbells : List (Nat × Nat)
  /-- Dispatched and not yet receipted, FENCEs and rejected envelopes included (R354). -/
  openCount : Nat
deriving DecidableEq, Repr

/-- How far an invocation has come. -/
inductive InvState where
  | resident | switching | switchedOut | resuming
deriving DecidableEq, Repr

/-- An invocation in progress (R365, R369). -/
structure Invocation where
  queue : Nat
  context : Nat
  partition : Nat
  cls : Nat
  /-- Logical cores, ascending: the core of rank k is the kth. -/
  cores : List Nat
  linkSet : Nat
  program : Nat
  seed : Dword
  enclosure : List Byte
  rankStride : Nat
  notify : Bool
  mailbox : Bool
  sqIndex : Nat
  state : InvState
  dispatched : Nat
  /-- The first early end: status and fault code (R363). -/
  early : Option (Status × Nat)
  /-- The adapter refused one of its accesses: it runs on, and ends SEGMENT_FAULT (R341). -/
  refused : Bool
  sizeFault : Bool
  versionRetired : Bool
  poisoned : Nat
  /-- A saturation that R131 does not exempt has poisoned an element (R136). -/
  satPoison : Bool
  replays : Nat
  switches : Nat
  fpFlags : Nat
  /-- Cores whose program has ended. -/
  done : List Nat
  /-- Cores whose state has been saved in the switch-out under way, or whose restore has finished. -/
  saved : List Nat
  /-- The save slot that holds it. -/
  slot : Option Nat
  preempted : Bool
  /-- Time since which all of its cores have been blocked (R371). -/
  blockedSince : Option Nat
  outSince : Nat
deriving DecidableEq, Repr

/-- A partition's save pool (R370). -/
structure SavePool where
  base : Nat
  slots : Nat
  used : List Nat
deriving DecidableEq, Repr

/-- The dispatcher: queues, invocations and pools. -/
structure QueueSide where
  queues : Tab QueueState
  /-- Invocations by number. -/
  invs : Tab Invocation
  nextInv : Nat
  /-- Save pools by partition ID (die × 32 + index). -/
  pools : Tab SavePool
  /-- Saved states in pool slots, by invocation: each core's, by logical core (R370). -/
  savedCores : Tab (List (Nat × SavedCore))
  /-- Queue last served of each partition and class, for the round robin (R367). -/
  lastServed : Tab Nat
deriving DecidableEq, Repr

/-! ### The Courier ring (17) -/

/-- `CR_PORT_STATE.STATE`. -/
inductive CrLink where
  | down | training | up | retraining | dark | disabled
deriving DecidableEq, Repr

/-- A Courier port (R378-R386). -/
structure CrPort where
  link : CrLink
  lanes : Nat
  neighbour : Option Nat
  bypassed : Nat
  express : Bool
  moved : Bool
  /-- The retrain in progress is a full one. -/
  full : Bool
  retrains : Word
  replays : Word
  /-- Delay of the hop in ns, as last measured (R407). -/
  hopDelay : Nat
deriving DecidableEq, Repr

/-- A bypass switch (R398): position 0 bypass, 1 moving, 2 in ring. -/
structure CrSwitch where
  pos : Nat
  hold : Bool
  moves : Nat
deriving DecidableEq, Repr

/-- A message (R384, R385); `up` says that it travels on the manager ring. -/
structure CrMsg where
  type : Nat
  cls : Nat
  src : Nat
  dst : Nat
  seq : Nat
  tag : Nat
  payload : PData
  up : Bool
deriving DecidableEq, Repr

/-- A message in the retry store (R387): its flow, a direction it keeps, when it was first and last sent, the positions that have not
acknowledged it, and the piece it carries. -/
structure CrStored where
  msg : CrMsg
  flow : Nat
  dir : Option Nat
  first : Nat
  last : Nat
  waits : List Nat
  piece : Option (Nat × Nat)
deriving DecidableEq, Repr

/-- An export window (R390). -/
structure ExportWin where
  base : Nat
  length : Nat
  read : Bool
  write : Bool
  atomic : Bool
  sources : Nat
deriving DecidableEq, Repr

/-- A group record (R392). -/
structure GroupRec where
  handoff : Bool
  cls : Nat
  context : Nat
  source : Nat
  members : Nat
  base : Nat
  row : Nat
  rows : Nat
  sem : Nat
deriving DecidableEq, Repr

/-- A step ID that a worker has accepted, the queue and index that run it, and its receipt once there is one (R405). -/
structure StepSeen where
  id : Dword
  queue : Nat
  index : Nat
  receipt : Option (List Byte)
deriving DecidableEq, Repr

/-- What a worker declared in its JOIN (R403). -/
structure JoinRec where
  serial : Dword
  poolBase : Dword
  poolSlots : Nat
  capacity : Nat
  queueCount : Nat
  firstQueue : Nat
  standby : Bool
  share : Dword
deriving DecidableEq, Repr

/-- The Courier side (R378-R409). -/
structure CourierState where
  ports : Tab CrPort
  switches : Tab CrSwitch
  /-- `CR_RETRY.LIMIT_MS`. -/
  limitMs : Nat
  /-- `CR_TIME_OFFSET`, and the difference that `DEV_TIME` has still to absorb by slewing, with the ticks since its last step. -/
  timeOffset : Int
  slew : Int
  slewTicks : Nat
  /-- `MOD_POSITION`: position, once assigned, and ring number. -/
  position : Option Nat
  ringNo : Nat
  /-- Positions whose modules can be reached. -/
  present : List Nat
  /-- The ring map: positions in the east order of the places, and the links that are down: place at their west end, and ring. -/
  places : List (Option Nat)
  down : List (Nat × Nat)
  /-- The ring that the next message east, and west, takes. -/
  altEast : Nat
  altWest : Nat
  /-- Last `SEQ` sent in each flow, messages not yet acknowledged, oldest first, and last `SEQ` performed of each flow. -/
  out : Tab Nat
  store : List CrStored
  inn : Tab Nat
  /-- Old values that ATOMICs returned, by flow: `SEQ` and value. -/
  olds : Tab (List (Nat × Dword × Bool))
  /-- Messages that have been turned away, by flow: `SEQ` and reason. -/
  turned : Tab (List (Nat × Nat))
  windows : Tab ExportWin
  groups : Tab GroupRec
  /-- Accepted step IDs, oldest first. -/
  steps : List StepSeen
  /-- Highest epoch accepted, the manager's position, and whether it is lost (R409). -/
  epoch : Nat
  managerPos : Nat
  managerLost : Bool
  lastBeat : Nat
  beatSent : Nat
  /-- The manager's positions by serial number, and what workers declared, by position. -/
  serials : List (Dword × Nat)
  joins : Tab JoinRec
  /-- Step tables that the manager has sent out, by step ID: worker and table bytes (R267). -/
  tables : Tab (Nat × List Byte × List Byte)
  /-- Steps that wait for the standby to acknowledge what records them (R406): worker, class, queue and payload. -/
  heldSteps : List (Nat × Nat × Nat × PData)
  /-- Carrier data received by ROUTED, oldest first, with its source. -/
  inbox : List (Nat × List Byte)
  /-- Messages that have left by a port, oldest first; the model's own record of the ring. -/
  sent : List (Nat × CrMsg)
deriving DecidableEq, Repr

def crPortReset : CrPort :=
  { link := .disabled, lanes := 0, neighbour := none, bypassed := 0, express := false, moved := false, full := false, retrains := 0,
    replays := 0, hopDelay := 0 }

def crSwitchReset : CrSwitch := { pos := 0, hold := false, moves := 0 }

def courierReset : CourierState :=
  { ports := [], switches := [], limitMs := 0x64, timeOffset := 0, slew := 0, slewTicks := 0, position := none, ringNo := 0, present := [],
    places := [], down := [], altEast := 0, altWest := 0, out := [], store := [], inn := [], olds := [], turned := [], windows := [], groups := [],
    steps := [], epoch := 0, managerPos := 0, managerLost := false, lastBeat := 0, beatSent := 0, serials := [], joins := [], tables := [], heldSteps := [],
    inbox := [], sent := [] }
/-! ### Reset values (the Reset columns of the register tables; the assumption log where a table gives none) -/

def islandReset : Island :=
  { power := 0, faulty := false, floor := 0, target := 0x30, current := 0x30, lastStep := 0, ticks := 0, ticksAt := 0, tempC := 0,
    throttled := false, vCode := 0, headroom := 0, roDelta := 0, slack := 0, alarms := 0, belowGoal := false,
    alarmTimes := [], eccUncorrected := 0, eccCorrected := 0, eccErrors := [], scrubWord := 0, check := none,
    checkVoid := false, gatedSince := none, history := [], predict := 0xFFFFFFFF }

def logReset : LogState :=
  { slots := [], next := 0, queues := [], intervals := [], vector := 0, irqSev := 3, mirrorSev := 1, mirrorLost := 0,
    dropped := 0, droppedSince := 0, mirrorSeq := 0 }

def planReset : PlanState :=
  { predictHours := 0xFFFFFFFF, minHeadroom := 0, retired := 0, running := false, bootDone := false, hours := 0,
    goal := 0x60, goalNow := 0x60, lastRun := none, runNo := 0, runKind := 0, changed := 0, lanesSpared := 0, retiredThisRun := 0,
    dipsSince := 0, alarmsSince := 0, maxTempSince := 0, lastHour := 0 }

def powerReset : PowerState :=
  { wdogMs := 0, wdogKick := 0, parkResult := 0, lastReset := 0, minMv := 0xFFFF, nowMv := 0, dips := 0, powerW := 0,
    stretch := none, stretched := 0, peakC := 0, critical := [], powerLimit := false, mrstHeld := false, reset := none,
    bootDue := some 0, supplyReset := false, rails := true, selfRefresh := false, regFaults := [], alertCritical := false,
    alertFaulted := false, parking := false, unparking := false, unparkRan := false }

def marginEntryReset : MarginEntry :=
  { vCode := 0, fCode := 0, headroom := 0, roDelta := 0, retired := false, belowGoal := false, reason := 0, run := 0,
    slope := 0 }

def recordReset : ModRecord :=
  { ownerA := some { hash := 0, counter := 0, seq := 0 }, ownerB := none, lanes := [], baselines := [], repairs := [],
    headerA := none, headerB := none, islands := [], runs := [] }

def callSlotReset : CallSlot :=
  { state := 0, notify := false, vector := 0, func := 0, result := 0, args := [], reply := [], due := none,
    waits := [], caller := none, discard := false }

def pmReset : PmState :=
  { fault := 0, slots := [], record := recordReset, copy := none, serial := 0, seed := none, romHash := 0,
    booting := false, recordBad := none, carrierRuns := false, carrierBase := 0, carrierSize := 0, carrierMeas := 0,
    carrierVersion := 0, carrierEntry := 0, carrierSigOffset := 0, carrierLoading := none, contexts := [], keys := [] }

def dieCacheReset : DieCache :=
  { lines := [], evb := [], fills := [], powered := [], faulty := [], cleaning := [], walk := [], walkTag := 0, wayRegion := [], placement := [],
    departing := [], hits := 0, misses := 0, fillCount := 0, fillsDropped := 0, corrected := 0, clock := 0,
    wayErrors := [] }

def mcReset : McState :=
  { tempC := 0, train := 0, fixes := [], newFixes := [], pause := none, lastPause := none, rdBytes := 0, wrBytes := 0, corrected := 0,
    uncorrected := 0, expressMax := 0, arrivals := [], parts := [], wheels := [], coming := [], patrolNext := 0, patrolStart := 0, patrolLate := false, repairs := [] }

def segEntryReset : SegEntry :=
  { vstart := 0, length := 0, dbase := 0, read := false, write := false, atomic := false, home := .empty, hot := false,
    readMostly := false, gen := 0, hostBase := 0, hostWrite := false, hostRead := false }

def segReset : SegState :=
  { entries := [], caches := [], hotOrder := [], clock := 0, records := [], overflow := false, limitUs := 0x3E8,
    misses := [], withdrawals := [], calls := [] }

def gkPortReset : GkPort :=
  { link := .down, lanes := 0, host := none, identity := 0, retrains := 0, replays := 0,
    replayTimes := [], full := false, held := [], unflushed := [], reads := [], seq := 0,
    flushes := [] }

def hostStateReset : HostState :=
  { cond := .absent, identity := none, queueFirst := 0, queueCount := 0, released := false, lostSince := none,
    discarded := none, lossPort := 0 }

def mbCtrlReset : MbCtrl := { mode := false, queue := 0, vector := 0 }

def vectorReset : VectorState :=
  { enable := false, mask := false, pending := false, owner := 0, holdoffUs := 0, lastSent := none }

def hostSideReset : HostSide :=
  { ports := [], hosts := [], spillBase := 0, h2m := [], busy := [], m2h := [], full := [], mbCtrl := [], notices := [],
    toCarrier := [], vectors := [], raised := [], sent := [], delivered := [] }

def queueReset : QueueState :=
  { sqTail := 0, sqHead := 0, rqTail := 0, rqHead := 0, sqRing := 0, rqRing := 0, enable := false, fastMode := false,
    hold := false, context := 0, bound := false, vector := 0, error := false, idle := false, linkWait := false,
    coreWait := false, lat := 0, staged := [], mailed := [], due := [], fences := [], inFlight := none, spill := [], spillFirst := 0,
    spillTotal := 0, heldBack := none, spillStop := false, ringFeedOk := false, ringFed := false, fed := [], doorbells := [],
    openCount := 0 }

def queueSideReset : QueueSide :=
  { queues := [], invs := [], nextInv := 1, pools := [], savedCores := [], lastServed := [] }

def semReset : Semaphore := { value := 0, waiters := [] }

/-! ### The network and the whole state -/

/-- Where a packet goes (R20). -/
inductive NetDest where
  | stack (s : Nat)
  | core (phys : Nat)
  | gkPort (p : Nat)
  | courierPort (p : Nat)
  | grinder (g : Nat)
deriving DecidableEq, Repr

/-- What a packet is. -/
inductive PacketKind where
  /-- A read or write request of a piece. -/
  | request
  /-- The data of a read coming back to the engine. -/
  | reply
deriving DecidableEq, Repr

/-- A packet on the network (R22), oldest first. -/
structure Packet where
  src : NetDest
  dst : NetDest
  cls : Nat
  kind : PacketKind
  xfer : Nat
  piece : Nat
  data : PData
deriving DecidableEq, Repr

/-- The whole module. -/
structure State where
  /-- Commands that wait, first in, first out. -/
  pending : List Instr
  /-- How many free values have been drawn; the model's own. -/
  freeCtr : Nat
  /-- `DEV_TIME` (R28). -/
  devTime : Nat
  mode : ModState
  log : LogState
  plan : PlanState
  power : PowerState
  /-- Islands by die × 256 + number (R29). -/
  isl : Tab Island
  pm : PmState
  /-- Bytes of HBM and of the scratchpads, listed where they are not 0; scratchpads by physical core. -/
  mem : List Host.Cell
  /-- Poisoned granules (address ÷ 64). -/
  poison : List Nat
  cache : Tab DieCache
  mc : Tab McState
  seg : SegState
  xfers : Tab Xfer
  nextXfer : Nat
  net : List Packet
  host : HostSide
  qs : QueueSide
  sems : Tab Semaphore
  /-- Physical cores by die × 84 + number. -/
  cores : Tab Core
  /-- Link engines by die × 4,096 + index. -/
  links : Tab LinkRun
  selects : Tab DieSelect
  /-- Grinders 0–31 and the dies' table stores. -/
  grinders : Tab Grinder
  stores : Tab TableStore
  blend : BlendState
  courier : CourierState
  /-- What reads of the outside world were answered, oldest first (R8, R209, R479); the model's own record of the buses. -/
  answers : List (List Byte)
deriving DecidableEq, Repr

/-- The machine right after a cold reset: power is good, the trust processor starts, `DEV_TIME` counts from 0 and the
state is ROM (R458). -/
def State.reset : State :=
  { pending := [], freeCtr := 0, devTime := 0, mode := .rom, log := logReset, plan := planReset, power := powerReset,
    isl := [], pm := pmReset, mem := [], poison := [], cache := [], mc := [], seg := segReset, xfers := [],
    nextXfer := 0, net := [], host := hostSideReset, qs := queueSideReset, sems := [], cores := [], links := [], selects := [], grinders := [], stores := [],
    blend := blendReset, courier := courierReset, answers := [] }

end Sys2Proof.Machine
end

