-- ==== Sys2Proof/Machine/Numbers.lean ====
section
/-! DEFINITION. Number formats, conversion, rounding and IEEE 754 arithmetic, exact in rationals until a result is rounded (R77-R102). -/

namespace Sys2Proof.Machine

/-- A value: a signed zero, a non-zero rational n/d, an infinity, or a NaN whose 52-bit payload lies as in FP64. -/
inductive Num where
  | zero (neg : Bool)
  | fin (neg : Bool) (n d : Nat)
  | inf (neg : Bool)
  | nan (neg : Bool) (payload : Nat)
deriving DecidableEq, Repr

/-- The quiet bit of a payload. -/
def quietBit : Nat := 2 ^ 51
/-- The positive default NaN (R95). -/
def defaultNan : Num := .nan false quietBit

def numNeg : Num → Bool
  | .zero s | .fin s _ _ | .inf s | .nan s _ => s
def isNan : Num → Bool
  | .nan _ _ => true
  | _ => false
def isInf : Num → Bool
  | .inf _ => true
  | _ => false
def isFinite : Num → Bool
  | .zero _ | .fin _ _ _ => true
  | _ => false
def isZero : Num → Bool
  | .zero _ => true
  | _ => false
/-- A signalling NaN. -/
def isSnan : Num → Bool
  | .nan _ p => decide (p < quietBit)
  | _ => false
def quieted : Num → Num
  | .nan s p => .nan s (if p < quietBit then p + quietBit else p)
  | v => v
def negate : Num → Num
  | .zero s => .zero (!s) | .fin s n d => .fin (!s) n d | .inf s => .inf (!s) | .nan s p => .nan (!s) p
def absolute : Num → Num
  | .zero _ => .zero false | .fin _ n d => .fin false n d | .inf _ => .inf false | .nan _ p => .nan false p

/-! ### Formats (R77-R86) -/

/-- Format codes. -/
def fmtBits (f : Nat) : Nat :=
  if f ≤ 1 then 4 else if f ≤ 3 then 6 else if f ≤ 6 then 8 else if f ≤ 8 then 16 else if f = 9 then 32 else 64
def fmtValid (f : Nat) : Bool := decide (f ≤ 10)
def fmtIsInt (f : Nat) : Bool := f == 1 || f == 6
/-- Exponent width, mantissa width and bias (R80). -/
def fmtE (f : Nat) : Nat := [2, 0, 2, 3, 4, 5, 0, 8, 5, 8, 11].getD f 0
def fmtM (f : Nat) : Nat := [1, 0, 3, 2, 3, 2, 0, 7, 10, 23, 52].getD f 0
def fmtBias (f : Nat) : Nat := [1, 0, 1, 3, 7, 15, 0, 127, 15, 127, 1023].getD f 0
/-- Formats without infinities. -/
def fmtSaturates (f : Nat) : Bool := decide (f ≤ 4) || f == 6
/-- The largest finite magnitude as a code. -/
def fmtMaxCode (f : Nat) : Nat :=
  if f = 0 then 7 else if f = 2 ∨ f = 3 then 0x1F else if f = 4 then 0x7E else (2 ^ fmtE f - 1) * 2 ^ fmtM f - 1
def intMax (f : Nat) : Nat := if f = 1 then 7 else 127

/-- n × 2^e as a rational. -/
def scaled (n : Nat) (e : Int) : Nat × Nat := if 0 ≤ e then (n * 2 ^ e.toNat, 1) else (n, 2 ^ (-e).toNat)

/-- A finite value from a magnitude, zero included. -/
def mkFin (neg : Bool) (n d : Nat) : Num := if n = 0 then .zero neg else .fin neg n d
def ofInt (v : Int) : Num := mkFin (decide (v < 0)) v.natAbs 1

/-- The magnitude that an exponent and mantissa code spell (R79). -/
def magOf (f c : Nat) : Nat × Nat :=
  let m := fmtM f
  let e := c / 2 ^ m
  if e = 0 then scaled c (1 - (fmtBias f : Int) - m)
  else scaled (2 ^ m + c % 2 ^ m) ((e : Int) - fmtBias f - m)

/-- What a code of a format means (R79-R86). DEDUCED: code 0x20 of F6E2 and F6E3 keeps its sign as R88 has it; in sums it adds nothing,
as R82 has it (log entry 21). -/
def decodeFmt (f c : Nat) : Num :=
  if fmtIsInt f then
    let v := toSigned (fmtBits f) c
    ofInt (if v < -(intMax f : Int) then -(intMax f : Int) else v)
  else
    let w := fmtE f + fmtM f
    let s := bitOf c w
    let a := c % 2 ^ w
    let m := a % 2 ^ fmtM f
    if f = 0 ∧ c = 8 then defaultNan
    else if f = 4 ∧ a = 0x7F then .nan s (m * 2 ^ 49)
    else if 5 ≤ f ∧ a / 2 ^ fmtM f = 2 ^ fmtE f - 1 then
      if m = 0 then .inf s else .nan s (m * 2 ^ (52 - fmtM f))
    else mkFin s (magOf f a).1 (magOf f a).2

/-! ### Rounding -/

/-- ⌊log₂ (n/d)⌋ of a positive rational. -/
def log2Q (n d : Nat) : Int :=
  let k : Int := (Nat.log2 n : Int) - Nat.log2 d
  if 0 ≤ k then (if d * 2 ^ k.toNat ≤ n then k else k - 1)
  else (if d ≤ n * 2 ^ (-k).toNat then k else k - 1)

/-- n/d in steps of 2^e: whole steps, remainder and what the remainder is out of. -/
def gridQ (n d : Nat) (e : Int) : Nat × Nat × Nat :=
  let num := if 0 ≤ e then n else n * 2 ^ (-e).toNat
  let den := if 0 ≤ e then d * 2 ^ e.toNat else d
  (num / den, num % den, den)

/-- Whether a magnitude of q whole steps and a remainder goes up, in a mode of R92; a stochastic draw u goes up below the first 12
bits of the fraction (R97). -/
def goesUp (mode : Nat) (neg : Bool) (u q rem den : Nat) : Bool :=
  if rem = 0 then false
  else
    match mode with
    | 0 => decide (den < 2 * rem) || (decide (2 * rem = den) && q % 2 == 1)
    | 1 => false
    | 2 => !neg
    | 3 => neg
    | 4 => decide (den ≤ 2 * rem)
    | _ => decide (u < 4096 * rem / den)

/-- The IEEE flags (R95): bits 0 INVALID, 1 DIVBYZERO, 2 OVERFLOW, 3 UNDERFLOW, 4 INEXACT, 5 SATURATED, 6 NAN_ZEROED. -/
def flag (n : Nat) (b : Bool) : Nat := if b then 2 ^ n else 0

/-- The result of a conversion: its code, the flags it raises, and whether R90 poisons its granule. -/
structure Conv where
  code : Nat
  flags : Nat
  poison : Bool
deriving DecidableEq, Repr

/-- The code of a NaN in a format (R90). -/
def nanCode (f : Nat) (neg : Bool) (payload : Nat) : Nat :=
  let s := b2n neg
  if f = 0 then 8
  else if f = 4 then s * 128 + 0x7F
  else if f = 5 then s * 128 + 0x7E
  else
    let m := payload / 2 ^ (52 - fmtM f)
    let m := if m < 2 ^ (fmtM f - 1) then m + 2 ^ (fmtM f - 1) else m
    s * 2 ^ (fmtE f + fmtM f) + (2 ^ fmtE f - 1) * 2 ^ fmtM f + m

/-- A sign put on a magnitude code; formats without a negative zero write 0 (R89, R90). -/
def signCode (f : Nat) (neg : Bool) (c : Nat) : Nat :=
  if neg ∧ !(f = 0 ∧ c = 0) then 2 ^ (fmtE f + fmtM f) + c else c

/-- The magnitude code to which a positive rational rounds with no upper limit, and whether it is inexact. -/
def roundCode (f mode : Nat) (neg : Bool) (u n d : Nat) : Nat × Bool :=
  let emin : Int := 1 - (fmtBias f : Int)
  let e := max (log2Q n d) emin
  let (q, rem, den) := gridQ n d (e - fmtM f)
  let q := if goesUp mode neg u q rem den then q + 1 else q
  ((e - emin).toNat * 2 ^ fmtM f + q, rem != 0)

/-- Tiny after rounding (R95): the result with an unbounded exponent lies below the smallest normal number. -/
def tinyAfter (f mode : Nat) (neg : Bool) (n d : Nat) : Bool :=
  let e := log2Q n d
  let (q, rem, den) := gridQ n d (e - fmtM f)
  let q := if goesUp mode neg 0 q rem den then q + 1 else q
  decide (log2Q (scaled q (e - fmtM f)).1 (scaled q (e - fmtM f)).2 < 1 - (fmtBias f : Int))

/-- A magnitude above the largest finite one. -/
def beyondMax (f n d : Nat) : Bool :=
  let (a, b) := magOf f (fmtMaxCode f)
  decide (a * d < n * b)

/-- Whether an overflow in a directed mode stops at the largest finite value. -/
def overflowStops (mode : Nat) (neg : Bool) : Bool := mode == 1 || (mode == 2 && neg) || (mode == 3 && !neg)

/-- A finite non-zero value into a floating-point format (R89, R97). -/
def convFin (f mode : Nat) (neg : Bool) (u n d : Nat) : Conv :=
  if fmtSaturates f then
    if beyondMax f n d then { code := signCode f neg (fmtMaxCode f), flags := flag 5 true, poison := false }
    else { code := signCode f neg (roundCode f mode neg u n d).1, flags := 0, poison := false }
  else
    let infCode := fmtMaxCode f + 1
    if mode = 5 then
      if beyondMax f n d then
        let (a, b) := scaled 2 ((fmtBias f : Int))
        if a * d ≤ n * b then { code := signCode f neg infCode, flags := 0, poison := false }
        else { code := signCode f neg (fmtMaxCode f), flags := flag 5 true, poison := false }
      else { code := signCode f neg (roundCode f mode neg u n d).1, flags := 0, poison := false }
    else
      let (c, inexact) := roundCode f mode neg u n d
      if infCode ≤ c then
        { code := signCode f neg (if overflowStops mode neg then fmtMaxCode f else infCode),
          flags := flag 2 true + flag 4 true, poison := false }
      else { code := signCode f neg c, flags := flag 4 inexact + flag 3 (inexact && tinyAfter f mode neg n d), poison := false }

/-- A finite magnitude into an integer format (R89). -/
def convIntFin (f mode : Nat) (neg : Bool) (u n d : Nat) : Conv :=
  let top := intMax f
  let sat := decide (top * d < n)
  let (q, rem, den) := gridQ n d 0
  let q := if sat then top else if goesUp mode neg u q rem den then q + 1 else q
  { code := ofSigned (fmtBits f) (if neg then -(q : Int) else q), flags := flag 5 sat, poison := false }

/-- Conversion of a value into a format in a rounding mode (R88-R90, R97), with the draw u of a stochastic one. A signalling NaN signals INVALID
on its way into FP16, FP32 and FP64, the conversions that R93 lists. -/
def convert (f mode u : Nat) (v : Num) : Conv :=
  match v with
  | .nan s p =>
    if f = 2 ∨ f = 3 ∨ fmtIsInt f = true then { code := 0, flags := flag 6 true, poison := true }
    else { code := nanCode f s p, flags := flag 0 (decide (8 ≤ f) && decide (p < quietBit)), poison := false }
  | .inf s =>
    if fmtIsInt f then { code := ofSigned (fmtBits f) (if s then -(intMax f : Int) else intMax f), flags := flag 5 true, poison := false }
    else if fmtSaturates f then { code := signCode f s (fmtMaxCode f), flags := flag 5 true, poison := false }
    else { code := signCode f s (fmtMaxCode f + 1), flags := 0, poison := false }
  | .zero s =>
    { code := if fmtIsInt f then 0 else signCode f s 0, flags := 0, poison := false }
  | .fin s n d => if fmtIsInt f then convIntFin f mode s u n d else convFin f mode s u n d

/-- A value rounded to a format, and the flags. -/
def roundTo (f mode : Nat) (v : Num) : Num × Nat :=
  let c := convert f mode 0 v
  (decodeFmt f c.code, c.flags)

/-- Rounded to FP32 nearest-even, flags dropped: the steps of the epilogue (R138). -/
def rnd32 (v : Num) : Num := (roundTo 9 0 v).1
def code32 (v : Num) : Nat := (convert 9 0 0 v).code
def val32 (c : Nat) : Num := decodeFmt 9 c

/-! ### Exact arithmetic: each answers an unrounded value and the flags of the operation itself -/

/-- The first NaN operand, quieted, with INVALID for a signalling one (R95). -/
def nanOf (ops : List Num) : Option (Num × Nat) :=
  match ops.find? isNan with
  | none => none
  | some v => some (quieted v, flag 0 (ops.any isSnan))

/-- A signed rational sum. -/
def addFin (mode : Nat) (s : Bool) (n d : Nat) (t : Bool) (m e : Nat) : Num :=
  if s = t then .fin s (n * e + m * d) (d * e)
  else if n * e = m * d then .zero (mode == 3)
  else if m * d < n * e then .fin s (n * e - m * d) (d * e)
  else .fin t (m * d - n * e) (d * e)

def numAdd (mode : Nat) (a b : Num) : Num × Nat :=
  match nanOf [a, b] with
  | some r => r
  | none =>
    match a, b with
    | .inf s, .inf t => if s = t then (a, 0) else (defaultNan, flag 0 true)
    | .inf _, _ => (a, 0)
    | _, .inf _ => (b, 0)
    | .zero s, .zero t => (.zero (if s = t then s else mode == 3), 0)
    | .zero _, _ => (b, 0)
    | _, .zero _ => (a, 0)
    | .fin s n d, .fin t m e => (addFin mode s n d t m e, 0)
    | _, _ => (defaultNan, 0)

def numSub (mode : Nat) (a b : Num) : Num × Nat :=
  match nanOf [a, b] with
  | some r => r
  | none => numAdd mode a (negate b)

def numMul (a b : Num) : Num × Nat :=
  match nanOf [a, b] with
  | some r => r
  | none =>
    let s := numNeg a != numNeg b
    match a, b with
    | .inf _, .zero _ => (defaultNan, flag 0 true)
    | .zero _, .inf _ => (defaultNan, flag 0 true)
    | .inf _, _ => (.inf s, 0)
    | _, .inf _ => (.inf s, 0)
    | .fin _ n d, .fin _ m e => (.fin s (n * m) (d * e), 0)
    | _, _ => (.zero s, 0)

def numDiv (a b : Num) : Num × Nat :=
  match nanOf [a, b] with
  | some r => r
  | none =>
    let s := numNeg a != numNeg b
    match a, b with
    | .inf _, .inf _ => (defaultNan, flag 0 true)
    | .zero _, .zero _ => (defaultNan, flag 0 true)
    | .inf _, _ => (.inf s, 0)
    | _, .inf _ => (.zero s, 0)
    | .zero _, _ => (.zero s, 0)
    | .fin _ _ _, .zero _ => (.inf s, flag 1 true)
    | .fin _ n d, .fin _ m e => (.fin s (n * e) (d * m), 0)
    | _, _ => (defaultNan, 0)

/-- a × b + c before its one rounding. -/
def numFma (mode : Nat) (a b c : Num) : Num × Nat :=
  let bad := (isInf a && isZero b) || (isZero a && isInf b)
  match nanOf [a, b, c] with
  | some (v, fl) => (v, if bad && !isSnan c && Config.fmaInvalidNan then flag 0 true else fl)
  | none =>
    let (p, fl) := numMul a b
    if fl ≠ 0 then (p, fl) else numAdd mode p c

/-- The integer square root, bit by bit from a power of two. -/
def isqrtGo : Nat → Nat → Nat → Nat
  | 0, _, r => r
  | k + 1, n, r => if (r + 2 ^ k) * (r + 2 ^ k) ≤ n then isqrtGo k n (r + 2 ^ k) else isqrtGo k n r
def isqrt (n : Nat) : Nat := isqrtGo (Nat.log2 n / 2 + 1) n 0

/-- The square root: 64 bits of it, with a last bit that says the rest is not 0, which rounds as the exact root does. -/
def numSqrt (a : Num) : Num × Nat :=
  match nanOf [a] with
  | some r => r
  | none =>
    match a with
    | .zero s => (.zero s, 0)
    | .inf false => (a, 0)
    | .fin false n d =>
      let e := log2Q n d
      let k : Int := 64 - e / 2
      let (m, den) := scaled 1 (2 * k)
      let x := n * m / (d * den)
      let r := isqrt x
      let sticky := if r * r = x ∧ n * m % (d * den) = 0 then 0 else 1
      let (p, q) := scaled (2 * r + sticky) (-k - 1)
      (.fin false p q, 0)
    | _ => (defaultNan, flag 0 true)

/-! ### Comparison -/

/-- a < b for values that are not NaN. -/
def numLt (a b : Num) : Bool :=
  match a, b with
  | .inf s, .inf t => s && !t
  | .inf s, _ => s
  | _, .inf t => !t
  | .zero _, .zero _ => false
  | .zero _, .fin t _ _ => !t
  | .fin s _ _, .zero _ => s
  | .fin s n d, .fin t m e =>
    if s != t then s else if s then decide (m * d < n * e) else decide (n * e < m * d)
  | _, _ => false

def numEq (a b : Num) : Bool :=
  match a, b with
  | .inf s, .inf t => s == t
  | .zero _, .zero _ => true
  | .fin s n d, .fin t m e => s == t && n * e == m * d
  | _, _ => false

/-- IEEE 754-2019 minimum and maximum; −0 lies below +0. -/
def numMin (a b : Num) : Num × Nat :=
  match nanOf [a, b] with
  | some r => r
  | none => (if numLt a b then a else if numLt b a then b else if numNeg a then a else b, 0)
def numMax (a b : Num) : Num × Nat :=
  match nanOf [a, b] with
  | some r => r
  | none => (if numLt a b then b else if numLt b a then a else if numNeg a then b else a, 0)

/-- minimumNumber and maximumNumber: a NaN loses to a number. -/
def numMinNum (a b : Num) : Num × Nat :=
  if isNan a && !isNan b then (b, flag 0 (isSnan a))
  else if isNan b && !isNan a then (a, flag 0 (isSnan b))
  else numMin a b
def numMaxNum (a b : Num) : Num × Nat :=
  if isNan a && !isNan b then (b, flag 0 (isSnan a))
  else if isNan b && !isNan a then (a, flag 0 (isSnan b))
  else numMax a b

/-- CMP predicates (R176): whether it holds, and INVALID. -/
def numCmp (p : Nat) (a b : Num) : Bool × Nat :=
  let un := isNan a || isNan b
  let quietFlag := flag 0 (isSnan a || isSnan b)
  match p with
  | 0 => (!un && numEq a b, quietFlag)
  | 1 => (un || !numEq a b, quietFlag)
  | 2 => (!un && numLt a b, flag 0 un)
  | 3 => (!un && (numLt a b || numEq a b), flag 0 un)
  | _ => (un, quietFlag)

/-- roundToIntegral in a mode: exact in the format, so nothing but the rounding itself. -/
def numRoundInt (mode : Nat) (a : Num) : Num × Nat :=
  match nanOf [a] with
  | some r => r
  | none =>
    match a with
    | .fin s n d =>
      let (q, rem, den) := gridQ n d 0
      (mkFin s (if goesUp mode s 0 q rem den then q + 1 else q) 1, 0)
    | v => (v, 0)

/-! ### FP32 steps to nearest even -/

def add32 (a b : Num) : Num := rnd32 (numAdd 0 a b).1
def sub32 (a b : Num) : Num := rnd32 (numSub 0 a b).1
def mul32 (a b : Num) : Num := rnd32 (numMul a b).1
def div32 (a b : Num) : Num := rnd32 (numDiv a b).1
def one32 : Num := .fin false 1 1

/-! ### Stochastic draws (R98) -/

def mix64 (z : Dword) : Dword :=
  let z := (z ^^^ (z >>> 30)) * 0xBF58476D1CE4E5B9
  let z := (z ^^^ (z >>> 27)) * 0x94D049BB133111EB
  z ^^^ (z >>> 31)

/-- A lane's generator at the start of an invocation. -/
def srInit (seed inv : Dword) (lane : Nat) : Dword :=
  let x := mix64 (seed ^^^ mix64 (inv ^^^ mix64 (BitVec.ofNat 64 lane)))
  if x = 0 then 0x9E3779B97F4A7C15 else x

/-- The state after a draw. -/
def srNext (x : Dword) : Dword :=
  let x := x ^^^ (x <<< 13)
  let x := x ^^^ (x >>> 7)
  x ^^^ (x <<< 17)

/-- The 12 bits that a draw returns, from the state after it. -/
def srValue (x : Dword) : Nat := ((x * 0x2545F4914F6CDD1D) >>> 52).toNat

/-! ### Packed elements (R78) -/

/-- The bytes that n packed elements take. -/
def packedBytes (f n : Nat) : Nat :=
  if fmtBits f = 4 then (n + 1) / 2 else if fmtBits f = 6 then (n + 3) / 4 * 3 else n * (fmtBits f / 8)

/-- The code of element i of a packed vector. -/
def elemAt (f : Nat) (bytes : List Byte) (i : Nat) : Nat :=
  if fmtBits f = 4 then (bytes.getD (i / 2) 0).toNat / 16 ^ (i % 2) % 16
  else if fmtBits f = 6 then leNat (sliceAt bytes (i / 4 * 3) 3) / 64 ^ (i % 4) % 64
  else leNat (sliceAt bytes (i * (fmtBits f / 8)) (fmtBits f / 8))

/-- The first and one past the last byte that hold element i. -/
def elemSpan (f i : Nat) : Nat × Nat :=
  if fmtBits f = 4 then (i / 2, i / 2 + 1)
  else if fmtBits f = 6 then (i / 4 * 3 + i % 4 * 6 / 8, i / 4 * 3 + (i % 4 * 6 + 5) / 8 + 1)
  else (i * (fmtBits f / 8), (i + 1) * (fmtBits f / 8))

/-- Whether a byte that holds element i is marked. -/
def elemMarked (f : Nat) (d : PData) (i : Nat) : Bool :=
  let (a, b) := elemSpan f i
  ((d.drop a).take (b - a)).any (·.2)

/-- Codes packed into one number, little end first. -/
def packNum (w : Nat) : List Nat → Nat
  | [] => 0
  | c :: t => c % 2 ^ w + 2 ^ w * packNum w t

/-- A vector of codes packed into bytes, padded with 0. -/
def packCodes (f : Nat) (cs : List Nat) : List Byte := leBytes (packedBytes f cs.length) (packNum (fmtBits f) cs)

/-- Packed bytes, each marked where an element in it is. -/
def packMarked (f : Nat) (cs : List (Nat × Bool)) : PData :=
  let bytes := packCodes f (cs.map (·.1))
  (List.range bytes.length).map (fun k =>
    (bytes.getD k 0, (List.range cs.length).any (fun i =>
      decide ((elemSpan f i).1 ≤ k) && decide (k < (elemSpan f i).2) && ((cs.getD i (0, false)).2))))

end Sys2Proof.Machine
end

