-- ==== Sys2Proof/Machine/Approx.lean ====
section
/-! DEFINITION. Functions that the manual gives to an accuracy (R139, R176, R262): a reference of some 100 good bits, the accuracy, and a result
that is free within it. -/

namespace Sys2Proof.Machine

/-! ### References, in fixed point with 160 bits of fraction -/

def fixOne : Int := 2 ^ 160
/-- ln 2. -/
def fixLn2 : Int := 1013035739299659071135698605846798551586536899366

/-- The terms of the series of e^r from the i-th on. -/
def expTerms : Nat → Int → Int → Int → Int → Int
  | 0, _, _, _, sum => sum
  | k + 1, i, r, t, sum => expTerms k (i + 1) r (t * r / fixOne / i) (sum + t * r / fixOne / i)

/-- e^x of a fixed-point x, as a rational. -/
def expRef (x : Int) : Nat × Nat :=
  let k := (x + fixLn2 / 2) / fixLn2
  scaled (expTerms 40 1 (x - k * fixLn2) fixOne fixOne).toNat (k - 160)

/-- The terms of the series of artanh from the i-th on, i odd; t is the power of z. -/
def artanhTerms : Nat → Int → Int → Int → Int → Int
  | 0, _, _, _, sum => sum
  | k + 1, i, zz, t, sum => artanhTerms k (i + 2) zz (t * zz / fixOne) (sum + t / i)

/-- ln (n/d) of a positive rational, in fixed point. -/
def lnRef (n d : Nat) : Int :=
  let e := log2Q n d
  let (a, b) := scaled 1 (-e)
  let num : Int := n * a
  let den : Int := d * b
  let z := (num - den) * fixOne / (num + den)
  2 * artanhTerms 60 1 (z * z / fixOne) z 0 + e * fixLn2

/-- A signed rational. -/
abbrev SignedQ := Bool × Nat × Nat

def fixQ (x : Int) : SignedQ := (decide (x < 0), x.natAbs, 2 ^ 160)
/-- A value beyond every format here. -/
def hugeQ : SignedQ := (false, 2 ^ 200, 1)

/-- E ÷ (1 + E) where E = e^x, of a fixed-point x; 0 and 1 far out. -/
def sigmoidRef (x : Int) : Nat × Nat :=
  if 200 * fixOne ≤ x then (1, 1) else if x ≤ -200 * fixOne then (0, 1) else ((expRef x).1, (expRef x).1 + (expRef x).2)

/-- The exact function of a finite operand that is not 0 and lies in its domain, to some 100 bits. -/
def approxRef (k : Config.Approx) (neg : Bool) (n d : Nat) : SignedQ :=
  let sgn : Int := if neg then -1 else 1
  let x : Int := sgn * n * fixOne / d
  match k with
  | .exp => if 200 * fixOne ≤ x then hugeQ else if x ≤ -200 * fixOne then (false, 0, 1) else (false, expRef x)
  | .exp2 => if 200 * fixOne ≤ x then hugeQ else if x ≤ -200 * fixOne then (false, 0, 1) else (false, expRef (sgn * n * fixLn2 / d))
  | .log => fixQ (lnRef n d)
  | .log2 => let y := lnRef n d; (decide (y < 0), y.natAbs, fixLn2.toNat)
  | .tanh =>
    if 20 * d ≤ n then (neg, 1, 1)
    else if n * 2 ^ 20 ≤ d then (neg, n * (3 * d * d - n * n), 3 * d * d * d)
    else let (a, b) := expRef (2 * n * fixOne / d); (neg, a - b, a + b)
  | .sigmoid => (false, sigmoidRef x)
  | .gelu =>
    let u := 2 * 7978845608 * sgn * n * (1000000 * d * d + 44715 * n * n) * fixOne / (10000000000 * 1000000 * d * d * d)
    let (a, b) := sigmoidRef u
    (neg, n * a, d * b)
  | .silu => let (a, b) := sigmoidRef x; (neg, n * a, d * b)
  | .rsqrt =>
    match (numSqrt (.fin false d n)).1 with
    | .fin _ a b => (false, a, b)
    | _ => (false, 0, 1)

/-! ### The accuracy -/

/-- The accuracy stated, in FP32 ulp, and whether 2^-126 is the least of it (R139, R176). -/
def approxUlps : Config.Approx → Nat × Bool
  | .sigmoid => (3, false)
  | .gelu | .silu => (4, true)
  | _ => (2, false)

/-- Where an ulp of FP32 lies at a magnitude: its power of two. -/
def ulpExp (n d : Nat) : Int := if n = 0 then -149 else max (log2Q n d) (-126) - 23

/-- A value lies within the accuracy of a function at a reference. The reference's own error is allowed for by 2^-30 ulp. -/
def withinAccuracy (k : Config.Approx) (ref : SignedQ) (v : Num) : Bool :=
  let (s, n, d) := ref
  let (ulps, floor) := approxUlps k
  let e := ulpExp n d
  let e := if floor ∧ ulps * 2 ^ (e + 149).toNat < 2 ^ 23 then -128 else e
  let (tn, td) := scaled (ulps * 2 ^ 30 + 1) (e - 30)
  let off := fun (t : Bool) (a b : Nat) =>
    let x : Int := (if t then -(a : Int) else a) * d - (if s then -(n : Int) else n) * b
    decide (x.natAbs * td ≤ tn * (b * d))
  match v with
  | .zero _ => off false 0 1
  | .fin t a b => off t a b
  | .inf t => t == s && decide (2 ^ 128 * d * td ≤ n * td + tn * d)
  | .nan _ _ => false

/-- The result for a finite operand that is not 0: free within the accuracy. -/
def approxFin (k : Config.Approx) (a : Num) (neg : Bool) (n d : Nat) : Num :=
  let ref := approxRef k neg n d
  let v := val32 (Config.approx k (code32 a))
  if withinAccuracy k ref v then v else rnd32 (mkFin ref.1 ref.2.1 ref.2.2)

/-- The result for a zero, where the exact function has a finite value f there: free within the accuracy of f. -/
def approxZero (k : Config.Approx) (a : Num) (f : Num) : Num :=
  let ref : SignedQ := match f with | .fin s n d => (s, n, d) | _ => (false, 0, 1)
  let v := val32 (Config.approx k (code32 a))
  if withinAccuracy k ref v then v else f

/-- An approximated function of an FP32 operand (R139, R176): its limits at infinities and at the values the table names, exactly 1.0 for EXP of a
zero (R262), otherwise a result that is free within the accuracy. What LOG, LOG2 and RSQRT give for −0 is stated nowhere and free. -/
def approxOf (k : Config.Approx) (a : Num) : Num :=
  match a with
  | .nan _ _ => quieted a
  | .inf s =>
    match k with
    | .exp | .exp2 => if s then .zero false else a
    | .log | .log2 => if s then defaultNan else a
    | .tanh => .fin s 1 1
    | .sigmoid => if s then .zero false else one32
    | .gelu | .silu => if s then .zero false else a
    | .rsqrt => if s then defaultNan else .zero false
  | .zero s =>
    match k with
    | .exp => one32
    | .exp2 => approxZero k a one32
    | .log | .log2 => if s then val32 (Config.approx k (code32 a)) else .inf true
    | .rsqrt => if s then val32 (Config.approx k (code32 a)) else .inf false
    | .sigmoid => approxZero k a (.fin false 1 2)
    | .tanh | .gelu | .silu => approxZero k a a
  | .fin s n d =>
    match s, k with
    | true, .log | true, .log2 | true, .rsqrt => defaultNan
    | _, _ => approxFin k a s n d

end Sys2Proof.Machine
end

