-- ==== Sys2Proof/Machine/Crypto.lean ====
section
/-! DEFINITION. The hash functions SHAKE and SHA-3 (FIPS 202) and AES-256-GCM (FIPS 197, NIST SP 800-38D), which R43, R44, R252, R281, R422-R433 and
R449 name by their standards. -/

namespace Sys2Proof.Machine

/-! ### Keccak (FIPS 202) -/

/-- How far the lane at x + 5·y turns. -/
def keccakTurns : List Nat := [0, 1, 62, 28, 27, 36, 44, 6, 55, 20] ++ [3, 10, 43, 25, 39, 41, 45, 15, 21, 8] ++ [18, 2, 61, 56, 14]

/-- The constants of the 24 rounds. -/
def keccakRounds : List Dword :=
  [0x0000000000000001, 0x0000000000008082, 0x800000000000808A, 0x8000000080008000, 0x000000000000808B, 0x0000000080000001] ++
  [0x8000000080008081, 0x8000000000008009, 0x000000000000008A, 0x0000000000000088, 0x0000000080008009, 0x000000008000000A] ++
  [0x000000008000808B, 0x800000000000008B, 0x8000000000008089, 0x8000000000008003, 0x8000000000008002, 0x8000000000000080] ++
  [0x000000000000800A, 0x800000008000000A, 0x8000000080008081, 0x8000000000008080, 0x0000000080000001, 0x8000000080008008]

/-- A lane of the state. -/
def lane (a : List Dword) (x y : Nat) : Dword := (a[x % 5 + 5 * (y % 5)]?).getD 0

/-- 25 lanes by their column and row. -/
def lanes (f : Nat → Nat → Dword) : List Dword := (List.range 25).map (fun i => f (i % 5) (i / 5))

/-- One round. -/
def keccakRound (a : List Dword) (rc : Dword) : List Dword :=
  let par := (List.range 5).map (fun x => lane a x 0 ^^^ lane a x 1 ^^^ lane a x 2 ^^^ lane a x 3 ^^^ lane a x 4)
  let d := (List.range 5).map (fun x => (par[(x + 4) % 5]?).getD 0 ^^^ ((par[(x + 1) % 5]?).getD 0).rotateLeft 1)
  let t := lanes (fun x y => (lane a x y ^^^ (d[x]?).getD 0).rotateLeft ((keccakTurns[x + 5 * y]?).getD 0))
  let b := lanes (fun x y => lane t (x + 3 * y) x)
  lanes (fun x y => lane b x y ^^^ (~~~lane b (x + 1) y &&& lane b (x + 2) y) ^^^ (if x + 5 * y = 0 then rc else 0))

/-- The permutation of 24 rounds. -/
def keccakF (a : List Dword) : List Dword := keccakRounds.foldl keccakRound a

/-- The bytes of the state, lane after lane. -/
def keccakBytes (a : List Dword) : List Byte := a.flatMap (fun w => leBytes 8 w.toNat)

/-- A block of the message enters. -/
def keccakAbsorb (a : List Dword) (block : List Byte) : List Dword :=
  keccakF ((List.range 25).map (fun i => (a[i]?).getD 0 ^^^ BitVec.ofNat 64 (fieldAt block (8 * i) 8)))

/-- `n` blocks of the output. -/
def keccakSqueeze (rate : Nat) : Nat → List Dword → List Byte
  | 0, _ => []
  | n + 1, a => (keccakBytes a).take rate ++ keccakSqueeze rate n (keccakF a)

/-- The sponge of a rate, in bytes: the message, the bits that tell the functions apart, the padding, and `n` bytes out. -/
def sponge (rate mark : Nat) (m : List Byte) (n : Nat) : List Byte :=
  let blocks := m.length / rate + 1
  let padded := padTo (rate * blocks) (m ++ [BitVec.ofNat 8 mark])
  let padded := setNth padded (rate * blocks - 1) ((padded[rate * blocks - 1]?).getD 0 ||| 0x80)
  let a := (List.range blocks).foldl (fun a i => keccakAbsorb a (sliceAt padded (rate * i) rate)) (List.replicate 25 0)
  (keccakSqueeze rate (ceilDiv n rate) a).take n

/-- n bytes of SHAKE256, and of SHAKE128. -/
@[irreducible] def shake256Bytes (m : List Byte) (n : Nat) : List Byte := sponge 136 0x1F m n
@[irreducible] def shake128Bytes (m : List Byte) (n : Nat) : List Byte := sponge 168 0x1F m n
/-- SHA3-256 and SHA3-512. -/
@[irreducible] def sha3x256 (m : List Byte) : List Byte := sponge 136 0x06 m 32
@[irreducible] def sha3x512 (m : List Byte) : List Byte := sponge 72 0x06 m 64

/-- The first 256 bits of SHAKE256, as a number whose little-endian bytes they are. -/
@[irreducible] def shake256 (m : List Byte) : Bits256 := BitVec.ofNat 256 (leNat (shake256Bytes m 32))

/-! ### AES-256 (FIPS 197) -/

/-- A byte times x in the field of 2⁸ elements. -/
def xtime (b : Byte) : Byte := (b <<< 1) ^^^ (if b.msb then 0x1B else 0)

/-- The product of two bytes in that field. -/
def gfMul (a b : Byte) : Byte :=
  ((List.range 8).foldl (fun (p : Byte × Byte) i => (if b.getLsbD i then p.1 ^^^ p.2 else p.1, xtime p.2)) (0, a)).1

/-- The substitution: the inverse, a²⁵⁴, under the affine map. -/
def subByte (a : Byte) : Byte :=
  let sq (x : Byte) := gfMul x x
  let a2 := sq a; let a4 := sq a2; let a8 := sq a4; let a16 := sq a8; let a32 := sq a16; let a64 := sq a32; let a128 := sq a64
  let i := gfMul (gfMul (gfMul a2 a4) (gfMul a8 a16)) (gfMul (gfMul a32 a64) a128)
  i ^^^ i.rotateLeft 1 ^^^ i.rotateLeft 2 ^^^ i.rotateLeft 3 ^^^ i.rotateLeft 4 ^^^ 0x63

/-- XOR of two byte strings of one length. -/
def xorBytes (a b : List Byte) : List Byte := List.zipWith (· ^^^ ·) a b

/-- The round keys' words: `n` words after the key's 8. -/
def expandKey (key : List Byte) : Nat → List (List Byte)
  | 0 => (List.range 8).map (fun i => sliceAt key (4 * i) 4)
  | n + 1 =>
    let w := expandKey key n
    let i := n + 8
    let last := (w[i - 1]?).getD []
    let t :=
      if i % 8 = 0 then xorBytes ((last.drop 1 ++ last.take 1).map subByte) [1 <<< (i / 8 - 1), 0, 0, 0]
      else if i % 8 = 4 then last.map subByte
      else last
    w ++ [xorBytes ((w[n]?).getD []) t]

/-- The 15 round keys. -/
def roundKeys (key : List Byte) : List (List Byte) :=
  let w := expandKey key 52
  (List.range 15).map (fun r => (sliceAt w (4 * r) 4).flatten)

/-- Row r of column c moves r columns. -/
def shiftRows (b : List Byte) : List Byte := (List.range 16).map (fun i => (b[(i + 4 * (i % 4)) % 16]?).getD 0)

/-- A column is mixed. -/
def mixColumn (b : List Byte) : List Byte :=
  (List.range 4).map (fun r =>
    let at_ (k : Nat) := (b[(r + k) % 4]?).getD 0
    xtime (at_ 0) ^^^ (xtime (at_ 1) ^^^ at_ 1) ^^^ at_ 2 ^^^ at_ 3)

def mixColumns (b : List Byte) : List Byte := (List.range 4).flatMap (fun c => mixColumn (sliceAt b (4 * c) 4))

/-- A block under AES-256, by its round keys. -/
def aesBlock (keys : List (List Byte)) (b : List Byte) : List Byte :=
  let k (r : Nat) := (keys[r]?).getD []
  let b := (List.range 13).foldl (fun b r => xorBytes (mixColumns (shiftRows (b.map subByte))) (k (r + 1))) (xorBytes b (k 0))
  xorBytes (shiftRows (b.map subByte)) (k 14)

/-! ### GCM (SP 800-38D) -/

/-- The number that big-endian bytes spell, and its n big-endian bytes. -/
def beNat (b : List Byte) : Nat := leNat b.reverse
def beBytes (n v : Nat) : List Byte := (leBytes n v).reverse

/-- The product of two blocks; the first bit of a block is its most significant. -/
def ghashMul (x y : BitVec 128) : BitVec 128 :=
  ((List.range 128).foldl (fun (p : BitVec 128 × BitVec 128) i =>
    (if x.getMsbD i then p.1 ^^^ p.2 else p.1, (p.2 >>> 1) ^^^ (if p.2.getLsbD 0 then 0xE1#128 <<< 120 else 0))) (0, y)).1

/-- The hash of whole blocks under H. -/
def ghash (h : BitVec 128) (m : List Byte) : BitVec 128 :=
  (List.range (m.length / 16)).foldl (fun y i => ghashMul (y ^^^ BitVec.ofNat 128 (beNat (sliceAt m (16 * i) 16))) h) 0

/-- Filled with zero bytes to whole blocks. -/
def padBlock (b : List Byte) : List Byte := padTo (alignUp b.length 16) b

/-- The keystream of a 96-bit IV from a counter, over a message. -/
def gctr (keys : List (List Byte)) (iv : List Byte) (first : Nat) (m : List Byte) : List Byte :=
  xorBytes m ((List.range (ceilDiv m.length 16)).flatMap (fun i => aesBlock keys (iv ++ beBytes 4 (first + i))))

/-- Decryption in counter mode under a 256-bit key, without the check (R281). -/
@[irreducible] def aesGcmStream (key iv cipher : List Byte) : List Byte := gctr (roundKeys key) iv 2 cipher

/-- The 128-bit tag over additional data and a ciphertext (R281). -/
@[irreducible] def aesGcmTag (key iv aad cipher : List Byte) : List Byte :=
  let keys := roundKeys key
  let h := BitVec.ofNat 128 (beNat (aesBlock keys (zeros 16)))
  let s := ghash h (padBlock aad ++ padBlock cipher ++ beBytes 8 (8 * aad.length) ++ beBytes 8 (8 * cipher.length))
  gctr keys iv 1 (beBytes 16 s.toNat)

/-- Authenticated decryption (R433). -/
def aesGcmOpen (key iv aad cipher tag : List Byte) : Option (List Byte) :=
  if aesGcmTag key iv aad cipher = tag then some (aesGcmStream key iv cipher) else none

end Sys2Proof.Machine
end

