-- ==== Sys2Proof/Machine/Sparse.lean ====
section
/-! DEFINITION. Sparse tables in canonical form: keys strictly rising, and no entry that an unlisted key would read as. -/

namespace Sys2Proof.Machine

/-- The entry listed under a key. -/
def tabFind {α : Type} : Tab α → Nat → Option α
  | [], _ => none
  | (k, v) :: t, n => if n = k then some v else tabFind t n

/-- The entry under a key, or what an unlisted key reads as. -/
def tabGet {α : Type} (d : α) (m : Tab α) (n : Nat) : α :=
  (tabFind m n).getD d

/-- Every entry but the one under a key. -/
def tabDel {α : Type} : Tab α → Nat → Tab α
  | [], _ => []
  | (k, v) :: t, n => if n = k then tabDel t n else (k, v) :: tabDel t n

/-- The table with an entry listed under a key, in rising order. -/
def tabPut {α : Type} : Tab α → Nat → α → Tab α
  | [], n, v => [(n, v)]
  | (k, w) :: t, n, v =>
    if n < k then (n, v) :: (k, w) :: t
    else if n = k then (n, v) :: t
    else (k, w) :: tabPut t n v

/-- Write an entry; one equal to what an unlisted key reads as is taken out. -/
def tabSet {α : Type} [DecidableEq α] (d : α) (m : Tab α) (n : Nat) (v : α) : Tab α :=
  if v = d then tabDel m n else tabPut m n v

/-- Change the entry under a key. -/
def tabUpd {α : Type} [DecidableEq α] (d : α) (m : Tab α) (n : Nat) (f : α → α) : Tab α :=
  tabSet d m n (f (tabGet d m n))

/-- Keys strictly rising from a bound. -/
def tabRising {α : Type} : Nat → Tab α → Bool
  | _, [] => true
  | b, (k, _) :: t => decide (b ≤ k) && tabRising (k + 1) t

/-- The canonical form: keys strictly rising, and no entry equal to what an unlisted key reads as. -/
def tabWf {α : Type} [DecidableEq α] (d : α) (m : Tab α) : Bool :=
  tabRising 0 m && m.all (fun e => decide (e.2 ≠ d))

/-- A set of numbers as a strictly rising list: membership. -/
def setHas (m : List Nat) (n : Nat) : Bool := m.contains n

/-- Add a number to a rising list. -/
def setIns : List Nat → Nat → List Nat
  | [], n => [n]
  | k :: t, n => if n < k then n :: k :: t else if n = k then k :: t else k :: setIns t n

/-- Take a number out of a rising list. -/
def setDel : List Nat → Nat → List Nat
  | [], _ => []
  | k :: t, n => if n = k then setDel t n else k :: setDel t n

/-- The numbers strictly rise from a bound. -/
def setRising : Nat → List Nat → Bool
  | _, [] => true
  | b, k :: t => decide (b ≤ k) && setRising (k + 1) t

end Sys2Proof.Machine
end

