-- ==== Sys2Proof/Machine/Ops.lean ====
section
/-! DEFINITION. The named operations over the module's memory, islands, log, vectors and free values that every family of commands
shares. -/

namespace Sys2Proof.Machine

/-! ### Islands (R29, R30) -/

/-- The index of an island: die × 256 + number. -/
def islIx (die n : Nat) : Nat := die * 256 + n

/-- The trust processor's island (R29). -/
def islTrust : Nat := 126

/-- The island of a physical core, numbered die × 84 + number. -/
def islOfCore (phys : Nat) : Nat := islIx (phys / 84) (phys % 84)

/-- The island of grinder g (0–31). -/
def islOfGrinder (g : Nat) : Nat := islIx (g / 16) (84 + g % 16)

/-- The island of memory controller s (0–11). -/
def islOfMc (s : Nat) : Nat := islIx (s / 6) (100 + s % 6)

/-- The island of Gheklink port p. -/
def islOfGk (p : Nat) : Nat := 127 + p

/-- The island of Courier port p on die 1. -/
def islOfCourier (p : Nat) : Nat := islIx 1 (126 + p)

def isComputeIsl (n : Nat) : Bool := decide (n % 256 < 84)
def isGrinderIsl (n : Nat) : Bool := decide (84 ≤ n % 256) && decide (n % 256 < 100)

/-- A compute or grinder island: the islands with a movable clock (R16, R17). -/
def isMovable (n : Nat) : Bool := decide (n % 256 < 100)

/-- An island that exists (R29). -/
def islExists (n : Nat) : Bool := decide (n % 256 < 129) || (decide (n / 256 = 1) && decide (n % 256 < 132))

def getIsl (s : State) (n : Nat) : Island := tabGet islandReset s.isl n
def setIsl (s : State) (n : Nat) (i : Island) : State := { s with isl := tabSet islandReset s.isl n i }
def updIsl (s : State) (n : Nat) (f : Island → Island) : State := setIsl s n (f (getIsl s n))

/-- Time as clocks see it, in quarters of a ns: a stretched ns counts three of them (R456). -/
def runTime (s : State) : Nat :=
  4 * s.devTime - (s.power.stretched + (match s.power.stretch with | some (t, _) => s.devTime - t | none => 0))

/-- What an island's clock has counted by now (R17, R202): 160 ticks are a cycle. -/
def islTicks (s : State) (n : Nat) : Nat := let i := getIsl s n; i.ticks + i.current * (runTime s - i.ticksAt)

/-- Whole cycles of an island's clock in a number of its ticks, and ticks of a number of cycles. -/
def cyclesOf (ticks : Nat) : Nat := ticks / 160
def ticksOf (cycles : Nat) : Nat := 160 * cycles

/-- An island's clock runs at another code from now on. -/
def setCode (s : State) (n code : Nat) (i : Island) : Island :=
  { i with current := code, lastStep := s.devTime, ticks := islTicks s n, ticksAt := runTime s }

/-- A transfer wakes a clock-gated island (R30). -/
def wakeIsl (n : Nat) (s : State) : State := updIsl s n (fun i => if i.power = 1 then { i with power := 2, gatedSince := none } else i)

/-- The island indices of the movable islands, or of all islands. -/
def movableIsls : List Nat := (List.range 100) ++ (List.range 100).map (· + 256)
def allIsls : List Nat := (List.range 129) ++ (List.range 132).map (· + 256)

/-! ### Free values -/

/-- Draw the next free value's number. -/
def drawFree (s : State) : Nat × State := (s.freeCtr, { s with freeCtr := s.freeCtr + 1 })

/-! ### Interrupt vectors (R348, R349) -/

/-- Raise a vector, for a write that left by a port: it waits for VECTOR_RAISE. -/
def raiseVectorOn (p : Option Nat) (v : Nat) (s : State) : State :=
  { s with host := { s.host with raised := s.host.raised ++ [(v, p)] } }

/-- Raise a vector that signals no host write. -/
def raiseVector (v : Nat) (s : State) : State := raiseVectorOn none v s

/-! ### The postmarked log (R450–R454, R486) -/

/-- Event codes (R454). -/
def eventCode : Event → Nat
  | .accessMisaligned => 0x0101 | .resetCause => 0x0102 | .carrierAccessDenied => 0x0103 | .pmCallDropped => 0x0104
  | .blendRejected => 0x0201 | .reblendDone => 0x0202 | .ownerRegistered => 0x0203 | .ownerTransferred => 0x0204
  | .recordInvalid => 0x0205 | .pufFailed => 0x0206
  | .tileFault => 0x0301 | .tileLate => 0x0302 | .accSaturated => 0x0303 | .quantScaleInvalid => 0x0304
  | .netUncorrectable => 0x0305 | .sramUncorrectable => 0x0306 | .pmSramUncorrectable => 0x0307
  | .controlStateLost => 0x0308
  | .semOverflow => 0x0401 | .semUncorrectable => 0x0402 | .linkReset => 0x0403 | .streamStall => 0x0404
  | .grdIndexRange => 0x0501 | .grdTableDenied => 0x0502 | .grdBadDesc => 0x0503 | .tableForcedRetire => 0x0504
  | .tableCmdDropped => 0x0505
  | .dzSizeFault => 0x0601 | .dzHeaderFault => 0x0602 | .sealCheckFailed => 0x0603 | .sealKeyDenied => 0x0604
  | .hbmUncorrectable => 0x0701 | .hbmLaneSpared => 0x0702 | .hbmStackOffline => 0x0703
  | .hbmOfflineAccess => 0x0704 | .hbmScrubLate => 0x0705 | .hbmRepair => 0x0706
  | .mscCleanDropped => 0x0801 | .mscUncorrectable => 0x0802 | .mscTagLost => 0x0803 | .cacheWayRetired => 0x0804
  | .segFaultFull => 0x0901 | .segmentFaultTimeout => 0x0902 | .segWithdrawDone => 0x0903
  | .gkRetrain => 0x0A01 | .gkLinkDegraded => 0x0A02 | .gkLinkDown => 0x0A03 | .hostReset => 0x0A04
  | .hostCmdRefused => 0x0A05 | .hostAccessRefused => 0x0A06 | .mailboxOverrun => 0x0A07
  | .spillBaseRefused => 0x0A08
  | .queueConfigRefused => 0x0B01 | .sqTailInvalid => 0x0B02 | .rqHeadInvalid => 0x0B03
  | .envelopeInvalid => 0x0B04 | .receiptSpilled => 0x0B05 | .queueSpillStop => 0x0B06 | .savePoolFull => 0x0B07
  | .courierRetrain => 0x0C01 | .courierLinkDegraded => 0x0C02 | .courierLinkDown => 0x0C03
  | .courierPeerLost => 0x0C04 | .peerAccessRefused => 0x0C05 | .courierGroupRefused => 0x0C06
  | .courierRingOpen => 0x0C07 | .courierRingSplit => 0x0C08 | .timeStepped => 0x0C09 | .managerLost => 0x0C0A
  | .marginRun => 0x0D01 | .marginLow => 0x0D02 | .slackAlarm => 0x0D03 | .islandRetired => 0x0D04
  | .supplyDip => 0x0E01 | .thermalThrottle => 0x0E02 | .thermalCritical => 0x0E03
  | .logDropped => 0x0F01 | .logMirrorGap => 0x0F02

/-- Severities (R454): 0 INFO, 1 NOTICE, 2 WARNING, 3 ERROR, 4 CRITICAL. -/
def eventSeverity : Event → Nat
  | .resetCause | .reblendDone | .ownerRegistered | .ownerTransferred | .segWithdrawDone | .marginRun => 0
  | .accessMisaligned | .pmCallDropped | .linkReset | .tableForcedRetire | .hbmLaneSpared | .hbmRepair
  | .mscCleanDropped | .gkRetrain | .courierRetrain | .timeStepped => 1
  | .carrierAccessDenied | .blendRejected | .accSaturated | .quantScaleInvalid | .semOverflow | .grdIndexRange
  | .tableCmdDropped | .hbmScrubLate | .cacheWayRetired | .segFaultFull | .gkLinkDegraded | .hostCmdRefused
  | .mailboxOverrun | .spillBaseRefused | .queueConfigRefused | .sqTailInvalid | .rqHeadInvalid
  | .envelopeInvalid | .receiptSpilled | .savePoolFull | .courierLinkDegraded | .marginLow | .slackAlarm
  | .supplyDip | .thermalThrottle | .logDropped | .logMirrorGap => 2
  | .tileFault | .tileLate | .netUncorrectable | .sramUncorrectable | .semUncorrectable | .streamStall
  | .grdTableDenied | .grdBadDesc | .dzSizeFault | .dzHeaderFault | .sealCheckFailed | .sealKeyDenied
  | .hbmUncorrectable | .hbmOfflineAccess | .mscUncorrectable | .segmentFaultTimeout | .gkLinkDown | .hostReset
  | .hostAccessRefused | .queueSpillStop | .courierLinkDown | .courierPeerLost | .peerAccessRefused
  | .courierGroupRefused | .courierRingOpen | .islandRetired => 3
  | .recordInvalid | .pufFailed | .pmSramUncorrectable | .controlStateLost | .hbmStackOffline | .mscTagLost
  | .courierRingSplit | .managerLost | .thermalCritical => 4

/-- An entry made now. -/
def mkEntry (s : State) (e : Event) (source : Nat) (data : List Byte) : LogEntry :=
  { postmark := s.devTime, event := e, source := source, count := 1, data := data }

/-- The interval of an event and source, if one is open. -/
def findInterval (l : List LogInterval) (e : Event) (source : Nat) : Option LogInterval :=
  l.find? (fun i => decide (i.event = e) && decide (i.source = source))

/-- Replace or add the interval of its event and source. -/
def putInterval (l : List LogInterval) (i : LogInterval) : List LogInterval :=
  l.filter (fun j => !(decide (j.event = i.event) && decide (j.source = i.source))) ++ [i]

/-- Count an entry that found its queue full (R452). -/
def countDropped (l : LogState) : LogState :=
  { l with dropped := l.dropped + 1, droppedSince := l.droppedSince + 1 }

/-- Put an entry in its island's queue of 16; answer whether there was room (R452). -/
def queueEntry (e : LogEntry) (l : LogState) : Bool × LogState :=
  let q := tabGet [] l.queues e.source
  if q.length < 16 then (true, { l with queues := tabSet [] l.queues e.source (q ++ [e]) })
  else (false, countDropped l)

/-- One occurrence of an event limited to one entry per interval (R486): written at once when no interval is open,
counted otherwise. -/
def logLimitedEntry (len : Nat) (e : LogEntry) (l : LogState) : Bool × LogState :=
  match findInterval l.intervals e.event e.source with
  | some i => (true, { l with intervals := putInterval l.intervals { i with count := satAdd 0xFFFF i.count 1, last := e } })
  | none =>
    let (ok, l) := queueEntry e l
    (ok, { l with intervals := putInterval l.intervals { event := e.event, source := e.source,
                                                         endsAt := e.postmark + len, count := 0, last := e } })

/-- LOG_DROPPED, at most once per 1 ms (R452). -/
def noteDropped (s : State) (l : LogState) : LogState :=
  (logLimitedEntry 1000000 (mkEntry s .logDropped islTrust []) l).2

/-- Log an event at once. -/
def logEvent (e : Event) (source : Nat) (data : List Byte) (s : State) : State :=
  let (ok, l) := queueEntry (mkEntry s e source data) s.log
  { s with log := if ok then l else noteDropped s l }

/-- Log an event limited to one entry per 1 ms (R486). -/
def logLimited (e : Event) (source : Nat) (data : List Byte) (s : State) : State :=
  let (ok, l) := logLimitedEntry 1000000 (mkEntry s e source data) s.log
  { s with log := if ok then l else noteDropped s l }

/-! ### Memory: bytes and granule poison (R31, R290, R438) -/

/-- Bases of the device address map (R31). -/
def hbmTop : Nat := 0x4800000000
def stackSize : Nat := 0x600000000
def scratchBase : Nat := 0x8000000000
def scratchTop : Nat := 0x8028000000
def scratchSize : Nat := 0x400000
def hostBase : Nat := 0x10000000000
def hostTop : Nat := 0x20000000000
def peerBase : Nat := 0x200000000000
def peerTop : Nat := 0x400000000000
def peerSlot : Nat := 0x8000000000

/-- Where the model keeps byte `off` of physical core p's scratchpad. -/
def scratchKey (phys off : Nat) : Nat := scratchBase + phys * scratchSize + off % scratchSize

/-- What a byte of memory that nothing has written reads as. -/
def emptyByte : Byte := 0

/-- One byte of HBM or scratchpad storage. -/
def memByte (s : State) (a : Nat) : Byte := tabGet emptyByte s.mem a

/-- Write one byte of storage. -/
def setMemByte (s : State) (a : Nat) (b : Byte) : State := { s with mem := tabSet emptyByte s.mem a b }

/-- The poison mark of the granule that holds an address. -/
def memPoison (s : State) (a : Nat) : Bool := setHas s.poison (a / 64)

/-- Set or clear the mark of the granule that holds an address. -/
def setMemPoison (s : State) (a : Nat) (p : Bool) : State :=
  { s with poison := if p then setIns s.poison (a / 64) else setDel s.poison (a / 64) }

/-- n bytes of storage from an address, each with its granule's mark. -/
def memRead (s : State) : Nat → Nat → PData
  | _, 0 => []
  | a, n + 1 => (memByte s a, memPoison s a) :: memRead s (a + 1) n

/-- n plain bytes of storage. -/
def memBytes (s : State) : Nat → Nat → List Byte
  | _, 0 => []
  | a, n + 1 => memByte s a :: memBytes s (a + 1) n

/-- Store bytes, without touching the marks. -/
def storeBytes (s : State) : Nat → PData → State
  | _, [] => s
  | a, (b, _) :: t => storeBytes (setMemByte s a b) (a + 1) t

/-- Whether the bytes of a write that fall in a granule carry a mark. -/
def feedsPoison (a : Nat) (d : PData) (g : Nat) : Bool :=
  ((d.drop (g * 64 - a)).take (if a ≤ g * 64 then 64 else (g + 1) * 64 - a)).any (·.2)

/-- Settle the mark of one granule after a write (R290, R438): a whole granule takes the mark of the data; a part of
one keeps a mark and takes that of poisoned data. -/
def settleGranule (a : Nat) (d : PData) (g : Nat) (s : State) : State :=
  if a ≤ g * 64 ∧ (g + 1) * 64 ≤ a + d.length then setMemPoison s (g * 64) (feedsPoison a d g)
  else if feedsPoison a d g then setMemPoison s (g * 64) true else s

/-- The granules that a range of bytes touches. -/
def granulesOf (a n : Nat) : List Nat :=
  if n = 0 then [] else (List.range ((a + n - 1) / 64 - a / 64 + 1)).map (· + a / 64)

/-- Write bytes with their marks (R290, R438, R226). -/
def memWrite (s : State) (a : Nat) (d : PData) : State :=
  forEach (granulesOf a d.length) (fun g t => settleGranule a d g t) (storeBytes s a d)

/-- Bytes with no mark. -/
def clean (l : List Byte) : PData := l.map (fun b => (b, false))

/-- Bytes that all carry a mark. -/
def marked (l : List Byte) : PData := l.map (fun b => (b, true))

/-- Mark every granule of a range and keep its bytes. -/
def poisonRange (s : State) (a n : Nat) : State :=
  forEach (granulesOf a n) (fun g t => setMemPoison t (g * 64) true) s

/-- Granules among written data that carry a mark, counted by the granules of the destination. -/
def countMarked (a : Nat) (d : PData) : Nat :=
  ((granulesOf a d.length).filter (feedsPoison a d)).length

/-! ### A scratchpad, by physical core (R31, R192) -/

def scrByte (s : State) (phys off : Nat) : Byte := memByte s (scratchKey phys off)
def scrRead (s : State) (phys off n : Nat) : PData := memRead s (scratchKey phys off) n
def scrBytes (s : State) (phys off n : Nat) : List Byte := memBytes s (scratchKey phys off) n
def scrWrite (s : State) (phys off : Nat) (d : PData) : State := memWrite s (scratchKey phys off) d

/-- The little-endian number at a scratchpad offset. -/
def scrNat (s : State) (phys off n : Nat) : Nat := leNat (scrBytes s phys off n)

/-- Whether any granule of a range is marked. -/
def scrPoisoned (s : State) (phys off n : Nat) : Bool :=
  (granulesOf (scratchKey phys off) n).any (fun g => setHas s.poison g)

/-! ### The module's faulted state (R461, R462) -/

/-- Islands stopped and power-gated, scratchpads kept (R462). -/
def gateMovable (s : State) : State :=
  forEach movableIsls (fun n t => updIsl t n (fun i => { i with power := 0 })) s

/-- Add one to a 64-bit counter. -/
def inc64 (c : Dword) (n : Nat) : Dword := c + BitVec.ofNat 64 n

end Sys2Proof.Machine
end

