-- ==== Sys2Proof/Machine/Dz.lean ====
section
/-! DEFINITION. The expander: DZ frames and blocks, their faults and their poison (R269-R280). -/

namespace Sys2Proof.Machine

/-- A frame record with its references resolved (R270). -/
structure DzFrame where
  dz : Nat
  base : Nat
  encBytes : Nat
  flags : Nat
  first : Nat
deriving DecidableEq, Repr

def DzFrame.hasBase (f : DzFrame) : Bool := bitOf f.flags 0

/-- An expanded granule: its 64 bytes and its mark. -/
abbrev Granule := List Byte × Bool

def zeroGranule : Granule := (zeros 64, false)

/-- A run, with its length, or a literal, with its mask; none for a reserved bit (R273). -/
inductive DzSymbol where
  | run (k : Nat)
  | literal (mask : Nat)
  | bad
deriving DecidableEq, Repr

def dzSymbol (v : Nat) : DzSymbol :=
  if bitOf v 15 then (if bitsOf v 14 8 = 0 then .literal (v % 256) else .bad)
  else if bitsOf v 14 6 = 0 then .run (v % 64 + 1) else .bad

/-- The qwords that a mask names. -/
def maskCount (mask : Nat) : Nat := ((List.range 8).filter (bitOf mask)).length

/-- The bytes of a literal granule from its literal qwords in order. -/
def literalBytes (mask : Nat) (lits : List Byte) : Nat → List Byte
  | 0 => []
  | j + 1 =>
    literalBytes mask lits j ++
      (if bitOf mask j then sliceAt lits (8 * ((List.range j).filter (bitOf mask)).length) 8 else zeros 8)

/-- What one block's symbols give: output granules before the XOR, each with a flag that says it is filled and takes no base. -/
structure DzOut where
  granules : List (Granule × Bool)
  /-- Literal qwords used. -/
  used : Nat
  /-- A literal reached beyond the block. -/
  short : Bool
  /-- The symbols produced more than 64 granules. -/
  long : Bool
deriving DecidableEq, Repr

/-- Run the symbols in order (R273, R277). `lit` are the literal bytes inside the block with their marks. -/
def dzRun (lit : PData) : List DzSymbol → DzOut → DzOut
  | [], o => o
  | sy :: t, o =>
    if o.short then o
    else if 64 ≤ o.granules.length then { o with long := true }
    else
      match sy with
      | .bad => o
      | .run k =>
        let n := min k (64 - o.granules.length)
        dzRun lit t { o with granules := o.granules ++ List.replicate n (zeroGranule, false), long := o.long || decide (n < k) }
      | .literal mask =>
        let c := maskCount mask
        if lit.length < 8 * (o.used + c) then { o with short := true }
        else
          let l := sliceAt lit (8 * o.used) (8 * c)
          dzRun lit t { o with granules := o.granules ++ [((literalBytes mask (l.map (·.1)) 8, l.any (·.2)), false)],
                               used := o.used + c }

/-- Fill a block's missing granules with zero bytes, which take no base. -/
def dzFill (l : List (Granule × Bool)) : List (Granule × Bool) :=
  (l ++ List.replicate (64 - l.length) (zeroGranule, true)).take 64

/-- One block: its 64 granules, whether it had a size fault, and its declared extent. None is a header fault. -/
def dzBlock (s : State) (phys : Nat) (f : DzFrame) (off expected : Nat) : Option (List Granule × Bool × Nat) :=
  let at_ := f.dz + off
  let h := scrBytes s phys at_ 64
  let kind := fieldAt h 0 1
  let flags := fieldAt h 1 1
  let enc := fieldAt h 2 2
  let n := fieldAt h 8 1
  let based := bitOf flags 0
  let extent := min enc (f.encBytes - off)
  let syms := if kind = 1 then (List.range (min n ((extent - 64) / 2))).map (fun i => dzSymbol (scrNat s phys (at_ + 64 + 2 * i) 2)) else []
  if f.encBytes < off + 64 || decide (2 < kind) || enc % 16 != 0 || decide (enc < 64) || decide (4160 < enc) ||
     flags / 2 != 0 || !(sliceAt h 9 55).all (· == 0) || syms.contains .bad || (based && !f.hasBase) || (based && kind == 2) ||
     fieldAt h 4 4 != expected || scrPoisoned s phys at_ 64 then none
  else
    let litAt := 64 + alignUp (2 * n) 16
    let lit := scrRead s phys (at_ + litAt) (extent - litAt)
    let raw := scrRead s phys (at_ + 64) (extent - 64)
    let o : DzOut :=
      if kind = 0 then { granules := List.replicate 64 (zeroGranule, false), used := 0, short := false, long := false }
      else if kind = 1 then dzRun lit syms { granules := [], used := 0, short := false, long := false }
      else
        { granules := (List.range (min 64 (raw.length / 64))).map (fun k =>
            (((sliceAt raw (64 * k) 64).map (·.1), (sliceAt raw (64 * k) 64).any (·.2)), false)),
          used := 0, short := decide (raw.length < 4096), long := false }
    let symbolsMarked := kind == 1 && scrPoisoned s phys (at_ + 64) (2 * n)
    let conforms :=
      decide (extent = enc) && o.granules.length == 64 && !o.short && !o.long &&
      (if kind = 0 then enc == 64 && n == 0
       else if kind = 1 then enc == 64 + 16 * ceilDiv n 8 + 16 * ceilDiv o.used 2 && decide (1 ≤ n) && decide (n ≤ 64)
       else enc == 4160 && n == 0)
    let k := expected - f.first
    let out := (List.range 64).map (fun g =>
      let e := (dzFill o.granules).getD g (zeroGranule, true)
      let baseAt := f.base + 4096 * k + 64 * g
      if based && !e.2 then
        (xorBytes e.1.1 (scrBytes s phys baseAt 64), e.1.2 || scrPoisoned s phys baseAt 64 || symbolsMarked || !conforms)
      else (e.1.1, e.1.2 || symbolsMarked || !conforms || (based && scrPoisoned s phys baseAt 64)))
    some (out, !conforms, enc)

/-- An op's whole expansion: its granules, the numbers of blocks with a size fault, and the expected number of the first block with a
header fault with how many blocks it takes. -/
structure DzResult where
  granules : List Granule
  sizeFaults : List Nat
  headerFault : Option (Nat × Nat)
deriving DecidableEq, Repr

def dzGo (s : State) (phys : Nat) (f : DzFrame) : Nat → Nat → Nat → DzResult
  | 0, _, _ => { granules := [], sizeFaults := [], headerFault := none }
  | n + 1, off, expected =>
    match dzBlock s phys f off expected with
    | none =>
      { granules := List.replicate (64 * (n + 1)) (zeros 64, true), sizeFaults := [], headerFault := some (expected, n + 1) }
    | some (g, bad, enc) =>
      let r := dzGo s phys f n (off + enc) (expected + 1)
      { r with granules := g ++ r.granules, sizeFaults := (if bad then [expected] else []) ++ r.sizeFaults }

/-- Expand n blocks of a frame (R271, R276). -/
def dzExpand (s : State) (phys : Nat) (f : DzFrame) (n : Nat) : DzResult := dzGo s phys f n 0 f.first

/-- The expanded weight bytes. -/
def dzBytes (r : DzResult) : PData := (r.granules.map (fun g => g.1.map (fun b => (b, g.2)))).flatten

end Sys2Proof.Machine
end

