-- ==== Sys2Proof/Machine/TileOp.lean ====
section
/-! DEFINITION. Tile ops: their fields as the encoding tables give them (R190-R200), and the registers and references of a core (R186,
R191). -/

namespace Sys2Proof.Machine

def getCore (s : State) (p : Nat) : Core := tabGet coreReset s.cores p
def setCore (s : State) (p : Nat) (c : Core) : State := { s with cores := tabSet coreReset s.cores p c }
def updCore (s : State) (p : Nat) (f : Core → Core) : State := setCore s p (f (getCore s p))

/-! ### Fields -/

/-- A field of n bytes at an offset of a tile op. -/
def opField (w : Bits256) (off n : Nat) : Nat := w.toNat / 2 ^ (8 * off) % 2 ^ (8 * n)

def opClass (w : Bits256) : Nat := opField w 0 1 % 16
def opSub (w : Bits256) : Nat := opField w 0 1 / 16
def opFlags (w : Bits256) : Nat := opField w 1 1
def opBound (w : Bits256) : Nat := opField w 2 2

/-! ### References (R191) -/

/-- Register n; x0 reads 0. -/
def regOf (c : Core) (n : Nat) : Nat := if n = 0 then 0 else (c.xs.getD n 0).toNat

/-- A scratchpad reference resolved. -/
def nearRef (c : Core) (r : Nat) : Nat := (r % 2 ^ 22 + regOf c (bitsOf r 24 22) % 2 ^ 22) % 2 ^ 22
def nearReserved (r : Nat) : Bool := r / 2 ^ 25 % 2 ^ 7 != 0

/-- A far reference resolved. -/
def farRef (c : Core) (r : Nat) : Nat := (r % 2 ^ 48 + regOf c (bitsOf r 50 48)) % 2 ^ 48
def farReserved (r : Nat) : Bool := r / 2 ^ 51 % 2 ^ 13 != 0

/-! ### MAT (R193) -/

/-- A MAT op's fields. -/
structure MatOp where
  mode : Nat
  handoff : Bool
  cont : Bool
  post : Bool
  scaled_ : Bool
  expander : Bool
  fw : Nat
  fa : Nat
  mask : Nat
  m : Nat
  nOrRound : Nat
  pOrK : Nat
  x : Int
  astride : Nat
deriving DecidableEq, Repr

def matOp (w : Bits256) : MatOp :=
  let f := opFlags w
  { mode := opSub w, handoff := bitOf f 0, cont := bitOf f 1, post := bitOf f 2, scaled_ := bitOf f 3, expander := bitOf f 4,
    fw := opField w 4 1 % 16, fa := opField w 4 1 / 16, mask := opField w 5 1 % 16, m := opField w 6 1,
    nOrRound := opField w 7 1, pOrK := opField w 8 2, x := toSigned 16 (opField w 0xA 2), astride := opField w 0x1C 4 % 2 ^ 22 }

/-- The arrays of a mask, rising. -/
def maskArrays (mask : Nat) : List Nat := (List.range 4).filter (bitOf mask)

/-- The operand pairs of R87. -/
def shortFloat (f : Nat) : Bool := decide (2 ≤ f) && decide (f ≤ 5)
def pairValid (fw fa : Nat) : Bool :=
  (fw == 0 && fa == 0) || (fw == 1 && (fa == 1 || fa == 6)) || (fw == 6 && fa == 6) ||
  ((fw == 0 || shortFloat fw) && shortFloat fa) || (shortFloat fw && fa == 0) ||
  ((fw == 7 || fw == 8) && (fa == 0 || shortFloat fa || fa == 7 || fa == 8)) ||
  ((fw == 0 || shortFloat fw) && (fa == 7 || fa == 8)) || (fw == 9 && fa == 9) || (fw == 10 && fa == 10)

/-- The pair class (R104): 0 nibble, 1 byte, 2 half, 3 wide. -/
def pairClass (fw fa : Nat) : Nat :=
  if 9 ≤ fw ∧ fw ≤ 10 then 3 else if fw = 7 ∨ fw = 8 ∨ fa = 7 ∨ fa = 8 then 2
  else if fmtBits fw = 4 ∧ fmtBits fa = 4 ∧ fw = fa then 0 else 1

def MatOp.cls (o : MatOp) : Nat := pairClass o.fw o.fa
/-- T (R104). -/
def MatOp.t (o : MatOp) : Nat := if o.cls = 2 ∨ o.cls = 3 then 4 else 1
/-- Reduction indices per pass. -/
def MatOp.kp (o : MatOp) : Nat := if o.cls = 0 then 128 else 64
/-- Groups per pass (R105). -/
def MatOp.groups (o : MatOp) : Nat := o.kp / 32
/-- Bytes of an activation line or row (R104). -/
def MatOp.line (o : MatOp) : Nat := o.kp * fmtBits o.fa / 8
/-- Bytes of a weight row (grid) or vector (fan). -/
def MatOp.vecBytes (o : MatOp) : Nat := o.kp * fmtBits o.fw / 8
def MatOp.n (o : MatOp) : Nat := if o.mode = 1 then o.nOrRound else 64
/-- Q or Q′ (R109, R114). -/
def MatOp.q (o : MatOp) : Nat := max (if o.mode = 1 then o.n else o.m) (64 / o.t) + 1
/-- B (R194). -/
def MatOp.tile (o : MatOp) : Nat := if o.mode = 1 then o.n * o.vecBytes else 64 * o.vecBytes
/-- Bytes from one pass's weights in scratchpad to the next's. -/
def MatOp.tileStep (o : MatOp) : Nat := if o.scaled_ then o.tile + 64 * o.groups else o.tile
def MatOp.fp64 (o : MatOp) : Bool := o.fw == 10
/-- Output rows and columns of an array. -/
def MatOp.rows (o : MatOp) : Nat := if o.mode = 2 then (if o.fp64 then 4 else 8) else o.m
def MatOp.cols (o : MatOp) : Nat := if o.mode = 2 then (if o.fp64 then 16 else 64) else if o.mode = 1 then o.n else 64
/-- The isolated count (R112, R115, R120). -/
def MatOp.isolated (o : MatOp) : Nat :=
  if o.mode = 0 then o.t * ((o.pOrK - 1) * o.q + o.m + 64) + 129
  else if o.mode = 1 then o.t * (65 + (o.pOrK - 1) * o.q + o.n) + 25 + o.m
  else 4 * o.pOrK + 24
/-- What one op of a chain counts (R117). -/
def MatOp.chainCount (o : MatOp) : Nat := if o.mode = 2 then o.isolated else o.t * o.pOrK * o.q
/-- Multiply-accumulates of one array (`ARR_MACS`). -/
def MatOp.macs (o : MatOp) : Nat :=
  if o.mode = 2 then o.rows * o.cols * o.pOrK else o.m * o.cols * o.kp * o.pOrK

/-! ### MOV, GRD (R196, R198) -/

/-- A MOV op's fields. -/
structure MovOp where
  kind : Nat
  skew : Bool
  unsealed : Bool
  near : Nat
  far : Nat
  rowBytes : Nat
  rows : Nat
  nearStride : Nat
  farStride : Nat
  done : Option Nat
deriving DecidableEq, Repr

def semDone (v : Nat) : Option Nat := if bitOf v 23 then some (v % 2 ^ 17) else none

def movOp (w : Bits256) : MovOp :=
  { kind := opSub w, skew := bitOf (opFlags w) 0, unsealed := bitOf (opFlags w) 1, near := opField w 4 4, far := opField w 8 8,
    rowBytes := opField w 0x10 3, rows := opField w 0x13 2, nearStride := opField w 0x15 3 % 2 ^ 22,
    farStride := opField w 0x18 4, done := semDone (opField w 0x1C 3) }

def grdGrinder (w : Bits256) : Nat := opField w 4 1
def grdDesc (w : Bits256) : Nat := opField w 8 8
def grdDone (w : Bits256) : Option Nat := semDone (opField w 0x10 3)

/-! ### SEM (R199) -/

def semId (w : Bits256) : Nat := opField w 4 4 % 2 ^ 17
def semCount (w : Bits256) : Nat := opField w 8 2
def semArg (w : Bits256) : Nat := opField w 0xA 2

/-! ### CTL (R200, R206) -/

/-- A range entry of CHEAP or LIVE (R206). -/
def rangeAt (w : Bits256) (i : Nat) : Nat × Nat := (opField w (8 + 8 * i) 4, opField w (12 + 8 * i) 4)
def rangeCount (w : Bits256) : Nat := opField w 4 1 % 4
def liveRange (e : Nat × Nat) : LiveRange :=
  { reload := bitOf e.1 31, start := e.1 % 2 ^ 22, reg := bitsOf e.1 24 22, length := e.2 }

/-! ### Blocks (R187) -/

/-- The program block that holds an address. -/
def blockBase (pc : Nat) : Nat := pc / 2048 * 2048

/-- The op at an address of a held block, and whether its granule is poisoned. -/
def opAt (c : Core) (pc : Nat) : Option (Bits256 × Bool) :=
  match c.blocks.find? (fun b => decide (b.base = blockBase pc)) with
  | none => none
  | some b => some (BitVec.ofNat 256 (leNat (sliceAt b.bytes (pc % 2048) 32)), b.poison.getD (pc % 2048 / 64) false)

/-- Bytes of the fixed state (R206). -/
def fixedState (c : Core) : Nat :=
  4608 + 16 * (c.tiles.map (fun e => (e.2.filter (fun t => decide (t.state = .occupied))).length)).foldl (· + ·) 0 +
    34368 * (c.acc.filter (·.2.kept)).length

end Sys2Proof.Machine
end

