-- ==== Sys2Proof/Machine/Mat.lean ====
section
/-! DEFINITION. The matrix arrays: group sums, accumulation, wide chains, overflow and poison (R103-R136). -/

namespace Sys2Proof.Machine

/-- Where an op's operands lie: the references resolved at issue. -/
structure MatRefs where
  act : Nat
  weights : Nat
  epi : Nat
  scales : Nat
deriving DecidableEq, Repr

/-- What a started op reads: its fields, its references, and the expander's bytes where it feeds the bus. -/
structure MatIn where
  op : MatOp
  refs : MatRefs
  phys : Nat
  dz : PData
deriving DecidableEq, Repr

/-! ### Operand elements (R110, R113, R119, R194) -/

/-- A packed element of a scratchpad area, with the mark of its granule. -/
def scrElem (s : State) (phys base f i : Nat) : Nat × Bool :=
  let (a, b) := elemSpan f i
  let d := scrRead s phys (base + a) (b - a)
  (if fmtBits f < 8 then
     (if fmtBits f = 4 then leNat (d.map (·.1)) / 16 ^ (i % 2) % 16 else leNat (d.map (·.1)) / 2 ^ (i % 4 * 6 % 8) % 64)
   else leNat (d.map (·.1)), d.any (·.2))

/-- A packed element of a list of bytes. -/
def listElem (d : PData) (base f i : Nat) : Nat × Bool :=
  let (a, b) := elemSpan f i
  let e := sliceAt d (base + a) (b - a)
  (if fmtBits f < 8 then
     (if fmtBits f = 4 then leNat (e.map (·.1)) / 16 ^ (i % 2) % 16 else leNat (e.map (·.1)) / 2 ^ (i % 4 * 6 % 8) % 64)
   else leNat (e.map (·.1)), e.any (·.2))

/-- Activation of array a at pass p, data row m, reduction index k of the pass. -/
def actElem (s : State) (v : MatIn) (a p m k : Nat) : Nat :=
  let o := v.op
  let base := v.refs.act + a * o.astride
  if o.mode = 0 then
    let i := if o.cls = 0 then k / 2 else k
    (scrElem s v.phys (base + (p * o.q + m + i) * o.line) o.fa k).1
  else (scrElem s v.phys (base + p * o.m * o.line + m * o.line) o.fa k).1

/-- Weight at pass p, column n, reduction index k of the pass: in grid mode row i of the tile holds, at position n, the index i or, in
the nibble class, 2i and 2i + 1; in fan mode vector n holds its indices in order. -/
def weightElem (s : State) (v : MatIn) (p n k : Nat) : Nat :=
  let o := v.op
  let (off, i) :=
    if o.mode = 0 then (if o.cls = 0 then (k / 2 * o.vecBytes, 2 * n + k % 2) else (k * o.vecBytes, n))
    else (n * o.vecBytes, k)
  if o.expander then (listElem v.dz (p * o.tile + off) o.fw i).1
  else (scrElem s v.phys (v.refs.weights + p * o.tileStep + off) o.fw i).1

/-- Where pass p's scale record lies. -/
def scaleBase (v : MatIn) (p : Nat) : Nat :=
  let o := v.op
  if o.expander then v.refs.scales + p * 64 * o.groups else v.refs.weights + p * o.tileStep + o.tile

/-- The block code of column n and group g, with its mark (R156). -/
def scaleCode (s : State) (v : MatIn) (p n g : Nat) : Nat × Bool :=
  let at_ := scaleBase v p + n * v.op.groups + g
  (scrNat s v.phys at_ 1, scrPoisoned s v.phys at_ 1)

/-! ### Poison (R124, R158, R279) -/

/-- Whether pass p's activations poison data row m of array a: in grid mode any line that holds a stream row of it, in fan mode its row. -/
def actPoison (s : State) (v : MatIn) (a p m : Nat) : Bool :=
  let o := v.op
  let base := v.refs.act + a * o.astride
  if o.mode = 0 then (List.range 64).any (fun i => scrPoisoned s v.phys (base + (p * o.q + m + i) * o.line) o.line)
  else scrPoisoned s v.phys (base + (p * o.m + m) * o.line) o.line

/-- Whether pass p's weights poison column n: any row of a grid tile, the vector of a fan tile, or the column's scale codes. -/
def weightPoison (s : State) (v : MatIn) (p n : Nat) : Bool :=
  let o := v.op
  let (lo, len) := if o.mode = 0 then (0, o.tile) else (n * o.vecBytes, o.vecBytes)
  (if o.expander then (sliceAt v.dz (p * o.tile + lo) len).any (·.2)
   else scrPoisoned s v.phys (v.refs.weights + p * o.tileStep + lo) len) ||
  (o.scaled_ && scrPoisoned s v.phys (scaleBase v p + n * o.groups) o.groups)

/-! ### Groups (R105-R107) -/

/-- Specials of an element: 0 finite, 1 NaN, 2 +∞, 3 −∞ (R91). -/
def joinSpecial (a b : Nat) : Nat :=
  if a = 1 ∨ b = 1 then 1 else if a = 0 then b else if b = 0 then a else if a = b then a else 1

/-- The special kind of a product. -/
def productSpecial (a b : Num) : Nat :=
  if isNan a || isNan b then 1
  else if isInf a || isInf b then
    (if isZero a || isZero b then 1 else if numNeg a != numNeg b then 3 else 2)
  else 0

/-- A finite product as a sign and a rational; zeros are left out. -/
def productFin (a b : Num) : Option (Bool × Nat × Nat) :=
  match a, b with
  | .fin s n d, .fin t m e => some (s != t, n * m, d * e)
  | _, _ => none

/-- A group's sum in steps of 2^e, after each product is truncated to the step (R105); integer pairs are exact (R106). -/
def groupSum (isInt : Bool) (f : Nat) (ps : List (Bool × Nat × Nat)) : Int × Int :=
  match ps with
  | [] => (0, 0)
  | _ =>
    let e : Int := if isInt then 0 else (ps.map (fun p => log2Q p.2.1 p.2.2)).foldl max (log2Q (ps.headD (false, 1, 1)).2.1 (ps.headD (false, 1, 1)).2.2) - f - 4
    ((ps.map (fun p => let q := (gridQ p.2.1 p.2.2 e).1; if p.1 then -(q : Int) else (q : Int))).foldl (· + ·) 0, e)

/-- q × 2^e × scale, truncated toward zero to a multiple of 2^x, in steps of 2^x (R107, R127). -/
def enterWindow (q e : Int) (scale : Num) (x : Int) : Int :=
  match scale with
  | .fin _ n d =>
    let r := ((gridQ (q.natAbs * n) d (x - e)).1 : Int)
    if q < 0 then -r else r
  | _ => 0

/-- What one group adds to a cell: the amount in steps of the window, and its special. -/
def groupInto (s : State) (v : MatIn) (xeff : Int) (a p m n g : Nat) : Int × Nat :=
  let o := v.op
  let isInt := fmtIsInt o.fw
  let ks := (List.range 32).map (· + 32 * g)
  let ops := ks.map (fun k => (decodeFmt o.fa (actElem s v a p m k), decodeFmt o.fw (weightElem s v p n k)))
  let code := if o.scaled_ then (scaleCode s v p n g).1 else 0x38
  if o.scaled_ ∧ (128 ≤ code ∨ code = 0x7F) then (0, 1)
  else if o.scaled_ ∧ code = 0 then (0, 0)
  else
    let sp := (ops.map (fun q => productSpecial q.1 q.2)).foldl joinSpecial 0
    let (q, e) := groupSum isInt (fmtM o.fw + fmtM o.fa) (ops.filterMap (fun q => productFin q.1 q.2))
    (enterWindow q e (decodeFmt 4 code) xeff, sp)

/-! ### A cell over an op (R126-R133) -/

/-- A cell in the course of an op. -/
structure CellRun where
  a : Int
  special : Nat
  sat : Bool
  poison : Bool
  /-- Saturated by an overflow that R131 does not exempt. -/
  counted : Bool
  /-- The pass of the first overflow that R131 does not exempt. -/
  overflow : Option Nat
deriving DecidableEq, Repr

def accMax : Int := 2 ^ 63 - 1
def accMin : Int := -(2 ^ 63)

/-- Add one group's amount in pass p. -/
def addToCell (p : Nat) (c : CellRun) (amount : Int) (sp : Nat) : CellRun :=
  let c := { c with special := joinSpecial c.special sp }
  let v := c.a + amount
  if c.sat then c
  else if accMin ≤ v ∧ v ≤ accMax then { c with a := v }
  else
    let exempt := c.poison || c.special != 0
    { c with a := if v < 0 then accMin else accMax, sat := true, counted := !exempt,
             overflow := if exempt then c.overflow else if c.overflow.isNone then some p else c.overflow }

/-- One cell (m, n) of array a over all passes of a grid or fan op, from its snapshot. -/
def runCell (s : State) (v : MatIn) (xeff : Int) (a m n : Nat) (c : CellRun) : CellRun :=
  (List.range v.op.pOrK).foldl (fun c p =>
    let c := { c with poison := c.poison || actPoison s v a p m || weightPoison s v p n }
    (List.range v.op.groups).foldl (fun c g =>
      let (amount, sp) := groupInto s v xeff a p m n g
      addToCell p c amount sp) c) c

/-! ### Wide mode (R119, R120) -/

/-- Activation and weight codes of a step, with their marks. -/
def wideAct (s : State) (v : MatIn) (a m k : Nat) : Nat × Bool :=
  scrElem s v.phys (v.refs.act + a * v.op.astride + 32 * k) v.op.fa m
def wideWeight (s : State) (v : MatIn) (n k : Nat) : Nat × Bool :=
  let off := k * (if v.op.fp64 then 128 else 256)
  if v.op.expander then listElem v.dz off v.op.fw n else scrElem s v.phys (v.refs.weights + off) v.op.fw n

/-- One wide output element: the code of its running sum, its poison and the flags raised. -/
def runWide (s : State) (v : MatIn) (a m n : Nat) (start : Nat) (poison : Bool) : Nat × Bool × Nat :=
  let f := v.op.fw
  (List.range v.op.pOrK).foldl (fun (acc : Nat × Bool × Nat) k =>
    let x := wideAct s v a m k
    let w := wideWeight s v n k
    let (r, fl) := numFma v.op.nOrRound (decodeFmt f x.1) (decodeFmt f w.1) (decodeFmt f acc.1)
    let c := convert f v.op.nOrRound 0 r
    (c.code, acc.2.1 || x.2 || w.2, acc.2.2 ||| fl ||| c.flags)) (start, poison, 0)

/-! ### A whole array -/

/-- The exponent in force. -/
def ArrAcc.xeff (c : ArrAcc) : Int := c.x + 8 * (c.r : Int)

/-- A fresh accumulation of an op (R118). -/
def freshAcc (o : MatOp) : ArrAcc :=
  { arrAccReset with cls := o.cls, mode := o.mode, isInt := fmtIsInt o.fw, fp64 := o.fp64, x := o.x }

/-- The cells of an op's outputs: row and column. -/
def opCells (o : MatOp) : List (Nat × Nat) :=
  ((List.range o.rows).map (fun m => (List.range o.cols).map (fun n => (m, n)))).flatten

/-- What a run of an op leaves in one array: the accumulation, which cells saturated with a count, the first pass and cell of each
overflow that is not exempt, and the IEEE flags of wide mode. -/
structure ArrayOut where
  acc : ArrAcc
  counted : List Nat
  overflows : List (Nat × Nat × Nat)
  flags : Nat
deriving DecidableEq, Repr

/-- Run an op on array a from a snapshot. -/
def runArray (s : State) (v : MatIn) (a : Nat) (snap : ArrAcc) : ArrayOut :=
  let o := v.op
  if o.mode = 2 then
    (opCells o).foldl (fun (t : ArrayOut) (mn : Nat × Nat) =>
      let key := 64 * mn.1 + mn.2
      let (code, p, fl) := runWide s v a mn.1 mn.2 (tabGet 0 snap.vals key).toNat (setHas snap.poison key)
      { t with acc := { t.acc with vals := tabSet 0 t.acc.vals key (code : Int),
                                   poison := if p then setIns t.acc.poison key else t.acc.poison },
               flags := t.flags ||| fl })
      { acc := snap, counted := [], overflows := [], flags := 0 }
  else
    (opCells o).foldl (fun (t : ArrayOut) (mn : Nat × Nat) =>
      let key := 64 * mn.1 + mn.2
      let c := runCell s v snap.xeff a mn.1 mn.2
        { a := tabGet 0 snap.vals key, special := tabGet 0 snap.special key, sat := setHas snap.sat key,
          poison := setHas snap.poison key, counted := false, overflow := none }
      { t with acc := { t.acc with vals := tabSet 0 t.acc.vals key c.a,
                                   special := tabSet 0 t.acc.special key c.special,
                                   sat := if c.sat then setIns t.acc.sat key else t.acc.sat,
                                   poison := if c.poison then setIns t.acc.poison key else t.acc.poison },
               counted := if c.counted then t.counted ++ [key] else t.counted,
               overflows := match c.overflow with | some p => t.overflows ++ [(p, mn.1, mn.2)] | none => t.overflows })
      { acc := snap, counted := [], overflows := [], flags := 0 }

/-! ### Overflow timing (R111, R114, R132) -/

/-- The cycle at which pass p's sum reaches cell (m, n), from the stream start. -/
def sumCycle (o : MatOp) (e : Nat × Nat × Nat) : Nat :=
  let (p, m, n) := e
  if o.mode = 0 then o.t * (p * o.q + m + n) + 128 else o.t * (p * o.q + n) + 24

/-- Output rows that have left an array by a cycle: none in fan mode before the last sum, in grid mode those of R111. -/
def rowsLeft (o : MatOp) (cycle : Nat) : Nat :=
  if o.mode = 0 ∧ o.handoff then
    ((List.range o.m).filter (fun m => decide (o.t * ((o.pOrK - 1) * o.q + m + 63) + 128 ≤ cycle))).length
  else 0

/-- Divide a restored accumulation by 2⁸, toward zero, and count the replay (R132). -/
def raised (c : ArrAcc) : ArrAcc :=
  { c with r := c.r + 1, vals := (c.vals.map (fun e => (e.1, e.2.tdiv 256))).filter (fun e => decide (e.2 ≠ 0)) }

end Sys2Proof.Machine
end

