-- ==== Sys2Proof/Machine/Epilogue.lean ====
section
/-! DEFINITION. The fused epilogue, row quantisation and the cupping unit (R137-R164). -/

namespace Sys2Proof.Machine

/-! ### The descriptor (R137) -/

/-- An epilogue descriptor. -/
structure EpiDesc where
  flags : Nat
  act : Nat
  outFmt : Nat
  round : Nat
  rowScale : Nat
  colScale : Nat
  bias : Nat
  clampLo : Nat
  clampHi : Nat
  out : Nat
  outStride : Nat
  arrayStride : Nat
  qscale : Nat
  stats : Nat
  /-- Bytes 0x2C to 0x3F are 0. -/
  reservedOk : Bool
deriving DecidableEq, Repr

def epiDesc (s : State) (phys at_ : Nat) : EpiDesc :=
  let b := scrBytes s phys at_ 64
  { flags := fieldAt b 0 1, act := fieldAt b 1 1, outFmt := fieldAt b 2 1, round := fieldAt b 3 1, rowScale := fieldAt b 4 4,
    colScale := fieldAt b 8 4, bias := fieldAt b 0xC 4, clampLo := fieldAt b 0x10 4, clampHi := fieldAt b 0x14 4,
    out := fieldAt b 0x18 4, outStride := fieldAt b 0x1C 4, arrayStride := fieldAt b 0x20 4, qscale := fieldAt b 0x24 4,
    stats := fieldAt b 0x28 4, reservedOk := (sliceAt b 0x2C 20).all (· == 0) }

def EpiDesc.hasRowScale (d : EpiDesc) : Bool := bitOf d.flags 0
def EpiDesc.hasColScale (d : EpiDesc) : Bool := bitOf d.flags 1
def EpiDesc.hasBias (d : EpiDesc) : Bool := bitOf d.flags 2
def EpiDesc.rowQuant (d : EpiDesc) : Bool := bitOf d.flags 3
def EpiDesc.cupping (d : EpiDesc) : Bool := bitOf d.flags 4

/-- The quantisable formats (R149). -/
def quantisable (f : Nat) : Bool := decide (f ≤ 6)
/-- q_max as a value. -/
def qMax (f : Nat) : Num :=
  if fmtIsInt f then ofInt (intMax f) else .fin false (magOf f (fmtMaxCode f)).1 (magOf f (fmtMaxCode f)).2

/-- The field rules of R137, R142 and R149. -/
def EpiDesc.fieldsOk (d : EpiDesc) (o : MatOp) : Bool :=
  decide (d.flags < 32) && decide (d.act ≤ 5) && fmtValid d.outFmt && d.reservedOk &&
  (d.round == 0 || (d.round == 5 && decide (d.outFmt < 9))) &&
  [d.rowScale, d.colScale, d.bias, d.out, d.qscale, d.stats].all (· % 16 == 0) &&
  !isNan (val32 d.clampLo) && !isNan (val32 d.clampHi) && !numLt (val32 d.clampHi) (val32 d.clampLo) &&
  !(d.rowQuant && !quantisable d.outFmt) &&
  (if o.fp64 then d.flags == 0 && d.act == 0 && d.outFmt == 10 && d.round == 0 else true)

/-- The ranges that the descriptor names, for an op. -/
def EpiDesc.ranges (d : EpiDesc) (o : MatOp) : List (Nat × Nat) :=
  ((maskArrays o.mask).map (fun a =>
    (List.range o.rows).map (fun m => (d.out + a * d.arrayStride + m * d.outStride, packedBytes d.outFmt o.cols)))).flatten ++
  (if d.hasRowScale then (maskArrays o.mask).map (fun a => (d.rowScale + 256 * a, 256)) else []) ++
  (if d.hasColScale then [(d.colScale, 256)] else []) ++
  (if d.hasBias then [(d.bias, 256)] else []) ++
  (if d.rowQuant then (maskArrays o.mask).map (fun a => (d.qscale + 80 * a, 80)) else []) ++
  (if d.cupping then [(d.stats, 32)] else [])

/-! ### Row scales (R147-R150) -/

/-- A second-level scale: a positive power of two (R147). -/
def tileScaleOk (c : Nat) : Bool :=
  c % 2 ^ 23 == 0 && decide (c < 2 ^ 31) && c / 2 ^ 23 != 0 && c / 2 ^ 23 != 0xFF

/-- The largest magnitude of the finite values. -/
def absMax (vs : List Num) : Num :=
  vs.foldl (fun m v => if isFinite v && numLt m (absolute v) then absolute v else m) (.zero false)

/-- A segment's first-level code, divisor and flags, from its absolute maximum (R150). -/
def segmentScale (amax s2 qmax : Num) : Nat × Num × Nat :=
  if isZero amax then (0, one32, 0)
  else
    let t := div32 (div32 amax qmax) s2
    let (code, sat) :=
      match t with
      | .fin _ n d => if beyondMax 4 n d then (0x7E, true) else ((roundCode 4 2 false 0 n d).1, false)
      | .zero _ => (0, false)
      | _ => (0x7E, true)
    let code := max code 1
    (code, mul32 (decodeFmt 4 code) s2, flag 5 sat)

/-- A scale block as the module writes it: `TILE_SCALE` stays (R152). -/
def scaleBlock (rows fmt : Nat) (codes : List Nat) : List Byte :=
  leBytes 1 rows ++ leBytes 1 fmt ++ zeros 10 ++ (List.range 64).map (fun m => BitVec.ofNat 8 (if m < rows then codes.getD m 0 else 0))

/-! ### The cupping unit (R161-R163) -/

/-- Partial statistics: codes of the errors and of the measured values, how many saturated, how many were skipped. -/
structure CupPart where
  errs : List Nat
  vals : List Nat
  sat : Nat
  skipped : Nat
deriving DecidableEq, Repr

def cupNone : CupPart := { errs := [], vals := [], sat := 0, skipped := 0 }

/-- A conversion behind a row's scale: a value beyond q_max, an infinity too, takes q_max and saturates, in E5M2 as in the formats without
infinities (R150). -/
def convertQuant (f mode u : Nat) (v : Num) : Conv :=
  if f = 5 ∧ !isNan v ∧ numLt (qMax f) (absolute v) then { code := signCode f (numNeg v) (fmtMaxCode f), flags := flag 5 true, poison := false }
  else convert f mode u v

/-- Measure one conversion: v is the value before quantisation, `code` the result in a format, d the divisor. The error is rounded once (R161). -/
def cupMeasure (p : CupPart) (skip : Bool) (f : Nat) (v d : Num) (code : Nat) (saturated : Bool) : CupPart :=
  if skip then { p with skipped := p.skipped + 1 }
  else
    { p with errs := p.errs ++ [code32 (numSub 0 v (numMul (decodeFmt f code) d).1).1], vals := p.vals ++ [code32 v],
             sat := p.sat + b2n saturated }

/-- The sum of an op's squares, of FP32 codes (R162, R163). Their order and precision is open: the sum is exact where every partial sum in every
order is exact in FP32, and otherwise free between the largest square and twice as many times it as there are squares. DESIGN CHOICE for these
bounds, log entry 17. -/
def squareSum (cs : List Nat) : Num :=
  let sq := cs.map (fun c => (numMul (val32 c) (val32 c)).1)
  if sq.any isNan then defaultNan
  else if sq.any isInf then .inf false
  else
    let total := sq.foldl (fun t x => (numAdd 0 t x).1) (.zero false)
    let top := sq.foldl (fun m x => if numLt m x then x else m) (.zero false)
    match total with
    | .fin _ n d =>
      let step := max (log2Q n d - 23) (-149)
      let onGrid := sq.all (fun x => match x with | .fin _ a b => (gridQ a b step).2.1 == 0 | _ => true)
      let c := val32 (Config.statSum cs)
      if onGrid then rnd32 total
      else if !isNan c && !numLt c (rnd32 top) && !numLt (numMul (ofInt (2 * cs.length)) (rnd32 top)).1 c then c else rnd32 total
    | _ => .zero false

/-- A sum of a block after a partial sum is added: +∞ stays, and an op that measured nothing leaves it (R163). -/
def statAdd (old : Nat) (cs : List Nat) : Nat :=
  if cs = [] ∨ val32 old = .inf false then old else code32 (add32 (val32 old) (squareSum cs))

/-- The block after an op's statistics are added (R163). -/
def cupAdd (b : List Byte) (p : CupPart) : List Byte :=
  let maxErr := p.errs.foldl (fun m e => code32 (numMax (val32 m) (absolute (val32 e))).1) (fieldAt b 0xC 4)
  leBytes 8 (fieldAt b 0 8 + p.errs.length) ++
  leBytes 4 (statAdd (fieldAt b 8 4) p.errs) ++
  leBytes 4 maxErr ++
  leBytes 4 (statAdd (fieldAt b 0x10 4) p.vals) ++
  leBytes 4 (satAdd 0xFFFFFFFF (fieldAt b 0x14 4) p.sat) ++
  leBytes 4 (satAdd 0xFFFFFFFF (fieldAt b 0x18 4) p.skipped) ++ zeros 4

/-! ### Rows (R138-R140) -/

/-- The activation functions (R139). -/
def activate (d : EpiDesc) (v : Num) : Num :=
  if isNan v then quieted v
  else
    match d.act with
    | 0 => v
    | 1 => (numMax v (.zero false)).1
    | 2 => (numMin (numMax v (val32 d.clampLo)).1 (val32 d.clampHi)).1
    | 3 => approxOf .gelu v
    | 4 => approxOf .silu v
    | _ => approxOf .tanh v

/-- An element after step 4: its value, whether it is special from step 1, and its poison so far. -/
structure EpiElem where
  v : Num
  special : Bool
  poison : Bool
deriving DecidableEq, Repr

/-- Steps 1 to 4 for one element (R138, R142). -/
def epiElem (s : State) (phys : Nat) (o : MatOp) (d : EpiDesc) (acc : ArrAcc) (counted : List Nat) (a m n : Nat) : EpiElem :=
  let key := 64 * m + n
  let sp := tabGet 0 acc.special key
  let p := setHas acc.poison key || counted.contains key ||
    (d.hasRowScale && scrPoisoned s phys (d.rowScale + 256 * a + 4 * m) 4) ||
    (d.hasColScale && scrPoisoned s phys d.colScale 256) || (d.hasBias && scrPoisoned s phys d.bias 256)
  let raw := tabGet 0 acc.vals key
  if o.mode != 2 && sp != 0 then
    { v := if sp = 1 then defaultNan else .inf (sp == 3), special := true, poison := p }
  else
    let v1 := if o.mode = 2 then val32 raw.toNat
              else rnd32 (mkFin (decide (raw < 0)) (scaled raw.natAbs acc.xeff).1 (scaled raw.natAbs acc.xeff).2)
    let rs := if d.hasRowScale then val32 (scrNat s phys (d.rowScale + 256 * a + 4 * m) 4) else one32
    let cs := if d.hasColScale then val32 (scrNat s phys (d.colScale + 4 * n) 4) else one32
    let bi := if d.hasBias then val32 (scrNat s phys (d.bias + 4 * n) 4) else .zero false
    { v := activate d (add32 (mul32 (mul32 v1 rs) cs) bi), special := false, poison := p }

/-- What the epilogue of one array gives: the rows' packed bytes, the codes of row scales, flags raised, generators and statistics. -/
structure EpiOut where
  rows : List PData
  codes : List Nat
  flags : Nat
  gens : Tab Dword
  cup : CupPart
deriving DecidableEq, Repr

/-- Step 6 for one element of lane n, drawing where the mode is stochastic. -/
def epiNarrow (d : EpiDesc) (lane : Nat) (e : EpiElem) (div : Num) (t : List (Nat × Bool) × EpiOut) : List (Nat × Bool) × EpiOut :=
  let (cs, o) := t
  let g := if d.round = 5 then srNext (tabGet 0 o.gens lane) else tabGet 0 o.gens lane
  let gens := if d.round = 5 then tabSet 0 o.gens lane g else o.gens
  let v5 := if e.special then e.v else div32 e.v div
  let c := if d.rowQuant then convertQuant d.outFmt d.round (srValue g) v5 else convert d.outFmt d.round (srValue g) e.v
  (cs ++ [(c.code, e.poison || c.poison)],
   { o with gens := gens, flags := o.flags ||| (c.flags &&& 0x60),
            cup := if d.cupping then
                     cupMeasure o.cup (e.special || e.poison || isInf e.v) d.outFmt e.v
                       (if d.rowQuant && !e.special then div else one32) c.code (bitOf c.flags 5)
                   else o.cup })

/-- One output row (R138 steps 1 to 7). `s2` is the array's `TILE_SCALE`, none where it is invalid or poisoned (R154). -/
def epiRow (s : State) (phys : Nat) (o : MatOp) (d : EpiDesc) (acc : ArrAcc) (counted : List Nat) (s2 : Option Num) (a m : Nat)
    (t : EpiOut) : EpiOut :=
  let es := (List.range o.cols).map (epiElem s phys o d acc counted a m)
  let es := if d.rowQuant && s2.isNone then es.map (fun e => { e with poison := true }) else es
  let (code, div, fl) :=
    match d.rowQuant, s2 with
    | true, some s2 => segmentScale (absMax ((es.filter (fun e => !e.special)).map (·.v))) s2 (qMax d.outFmt)
    | _, _ => (0, one32, 0)
  let (cs, t) := (List.range o.cols).foldl (fun r n =>
    epiNarrow d (64 * a + n) (es.getD n { v := .zero false, special := false, poison := false }) div r) (([] : List (Nat × Bool)), t)
  { t with rows := t.rows ++ [packMarked d.outFmt cs], codes := t.codes ++ [code], flags := t.flags ||| fl }

/-- The array's `TILE_SCALE` where R147 and R154 let it be used. -/
def tileScaleAt (s : State) (phys at_ : Nat) : Option Num :=
  let c := scrNat s phys at_ 4
  if tileScaleOk c && !scrPoisoned s phys at_ 4 then some (val32 c) else none

/-- An FP64 wide hand-off only writes (R142). -/
def epiWide64 (o : MatOp) (acc : ArrAcc) (m : Nat) (t : EpiOut) : EpiOut :=
  { t with rows := t.rows ++ [packMarked 10 ((List.range o.cols).map (fun n =>
      ((tabGet 0 acc.vals (64 * m + n)).toNat, setHas acc.poison (64 * m + n))))], codes := t.codes ++ [0] }

/-- The epilogue of one array. -/
def epiArray (s : State) (phys : Nat) (o : MatOp) (d : EpiDesc) (acc : ArrAcc) (counted : List Nat) (a : Nat) (gens : Tab Dword)
    (cup : CupPart) : EpiOut :=
  let s2 := tileScaleAt s phys (d.qscale + 80 * a)
  (List.range o.rows).foldl (fun t m =>
    if o.fp64 then epiWide64 o acc m t else epiRow s phys o d acc counted s2 a m t)
    { rows := [], codes := [], flags := 0, gens := gens, cup := cup }

end Sys2Proof.Machine
end

