-- ==== Sys2Proof/Machine/StageDesc.lean ====
section
/-! DEFINITION. Stage descriptors of the vector engine: their fields and what a blend load rejects (R173–R177, R183). -/

namespace Sys2Proof.Machine

/-- A field of a stage descriptor: `n` bytes at an offset (R173). -/
def stField (d : Bits256) (off n : Nat) : Nat := (d.toNat / 2 ^ (8 * off)) % 2 ^ (8 * n)

def stOpcode (d : Bits256) : Nat := stField d 0 1
def stSrcA (d : Bits256) : Nat := stField d 1 1
def stSrcB (d : Bits256) : Nat := stField d 2 1
def stSrcC (d : Bits256) : Nat := stField d 3 1
def stSweeps (d : Bits256) : Nat := stField d 4 1 % 8
def stWrite (d : Bits256) : Nat := stField d 5 1 % 4
def stArith (d : Bits256) : Nat := stField d 6 1 % 8
def stOut (d : Bits256) : Nat := stField d 7 1 % 8
def stFp64 (d : Bits256) : Bool := bitOf (stField d 8 1) 0
def stCupping (d : Bits256) : Bool := bitOf (stField d 8 1) 1
def stSlot (d : Bits256) : Nat := stField d 9 1 % 8
def stCtrl (d : Bits256) : Nat := stField d 0xA 2
def stImm0 (d : Bits256) : Nat := stField d 0xC 4
def stImm1 (d : Bits256) : Nat := stField d 0x10 4

/-- The opcodes of R176. -/
def stOpcodeValid (o : Nat) : Bool :=
  decide (o ≤ 0x19) || (decide (0x20 ≤ o) && decide (o ≤ 0x24)) || o == 0x28 || o == 0x29 ||
  (decide (0x30 ≤ o) && decide (o ≤ 0x35))

/-- A reduction (R178). -/
def stIsReduction (o : Nat) : Bool := decide (0x20 ≤ o) && decide (o ≤ 0x24)

/-- How many of the operands a, b, c an opcode names (R176, R179, R180). -/
def stUses (o : Nat) : Nat :=
  if o == 0x04 || o == 0x0F then 3
  else if o == 0x01 || o == 0x02 || o == 0x03 || o == 0x05 || (decide (0x08 ≤ o) && decide (o ≤ 0x0B)) || o == 0x0E ||
    o == 0x28 || o == 0x29 || (decide (0x31 ≤ o) && decide (o ≤ 0x35)) then 2
  else 1

/-- A selector that names an operand (R174). -/
def stSelValid (fp64 : Bool) (c : Nat) : Bool :=
  decide (c ≤ 2) || (decide (8 ≤ c) && decide (c ≤ 0x18)) || (c == 0x19 && !fp64)

/-- An operand is named where the opcode uses it and is 0xFF where it does not (R176). -/
def stSelOk (fp64 used : Bool) (c : Nat) : Bool := if used then stSelValid fp64 c else c == 0xFF

/-- The opcodes permitted only in FP32 chains (R176). -/
def stFp32Only (o : Nat) : Bool := (decide (0x11 ≤ o) && decide (o ≤ 0x19)) || o == 0x28 || o == 0x29

/-- `CTRL` as the opcode gives it, 0 where it gives none (R176, R177). -/
def stCtrlOk (o c : Nat) : Bool :=
  if o == 0x0E then decide (c ≤ 4)
  else if o == 0x30 then decide (c % 8 ≤ 3) && decide (c < 2 ^ 14)
  else if decide (0x32 ≤ o) && decide (o ≤ 0x35) then decide (c % 8 = 0) && decide (c < 64)
  else c == 0

/-- The reserved bits of a descriptor are 0 (R173). -/
def stReservedOk (d : Bits256) : Bool :=
  decide (stField d 4 1 < 8) && decide (stField d 5 1 < 4) && decide (stField d 6 1 < 8) && decide (stField d 7 1 < 8) &&
  decide (stField d 8 1 < 4) && decide (stField d 9 1 < 8) && stField d 0x14 12 == 0

/-- A descriptor that a blend load accepts (R183). -/
def stageValid (d : Bits256) : Bool :=
  let o := stOpcode d
  stOpcodeValid o && stReservedOk d && stCtrlOk o (stCtrl d) &&
  stSelOk (stFp64 d) true (stSrcA d) && stSelOk (stFp64 d) (decide (2 ≤ stUses o)) (stSrcB d) &&
  stSelOk (stFp64 d) (decide (3 ≤ stUses o)) (stSrcC d) &&
  decide (stArith d ≤ 4) && decide (stOut d ≤ 5) && stSweeps d != 0 &&
  !(stFp32Only o && stFp64 d) && !(stCupping d && stWrite d == 0)

end Sys2Proof.Machine
end

