-- ==== Sys2Proof/Machine/Vec.lean ====
section
/-! DEFINITION. The vector engine: stream blocks, beats, sweeps, stages, checks and counts (R165-R185). -/

namespace Sys2Proof.Machine

/-! ### Stream blocks (R168, R169) -/

/-- A stream entry; `mode` 0 unused, 1 rows, 2 row-broadcast, 3 column. -/
structure VStream where
  addr : Nat
  stride : Nat
  fmt : Nat
  mode : Nat
  queue : Bool
  arr : Nat
  reservedOk : Bool
deriving DecidableEq, Repr

/-- A stream block. -/
structure VBlock where
  rows : Nat
  cols : Nat
  scalar : Nat
  qscale : Nat
  stats : Nat
  ins : List VStream
  outs : List VStream
  reservedOk : Bool
deriving DecidableEq, Repr

def vStream (b : List Byte) (off : Nat) : VStream :=
  let mode := fieldAt b (off + 7) 1
  { addr := fieldAt b off 4, stride := 16 * fieldAt b (off + 4) 2, fmt := fieldAt b (off + 6) 1 % 16, mode := mode % 4,
    queue := bitOf mode 2, arr := mode / 8 % 4, reservedOk := fieldAt b (off + 6) 1 / 16 == 0 && mode / 32 == 0 }

def vBlock (s : State) (phys at_ : Nat) : VBlock :=
  let b := scrBytes s phys at_ 64
  { rows := fieldAt b 0 2, cols := fieldAt b 2 2, scalar := fieldAt b 4 4, qscale := fieldAt b 8 4, stats := fieldAt b 0xC 4,
    ins := [vStream b 0x10, vStream b 0x18, vStream b 0x20], outs := [vStream b 0x28, vStream b 0x30],
    reservedOk := (sliceAt b 0x38 8).all (· == 0) }

def vUnused : VStream := { addr := 0, stride := 0, fmt := 0, mode := 0, queue := false, arr := 0, reservedOk := true }
def VBlock.inp (b : VBlock) (i : Nat) : VStream := b.ins.getD i vUnused
def VBlock.outp (b : VBlock) (i : Nat) : VStream := b.outs.getD i vUnused

/-- The block with its queue streams taken from popped entries (R169, R171). -/
def VBlock.popped (b : VBlock) (es : List (Nat × TileEntry)) : VBlock :=
  match es with
  | [] => b
  | (_, e) :: _ =>
    { b with rows := e.rows, ins := b.ins.map (fun i =>
        if i.mode != 0 && i.queue then
          match es.find? (fun x => x.1 == i.arr) with
          | some x => { i with addr := x.2.addr, stride := x.2.stride }
          | none => i
        else i) }

/-! ### Lanes and beats (R165, R166) -/

def lanesOf (fp64 : Bool) : Nat := if fp64 then 64 else 256
def isPow2 (n : Nat) : Bool := n != 0 && 2 ^ Nat.log2 n == n
def isPacked (w cols : Nat) : Bool := isPow2 cols && decide (2 * cols ≤ w)

/-- A lane of a beat: the row and column it holds. -/
abbrev Lane := Option (Nat × Nat)

/-- The beats of one row group. -/
def beatsOf (w rows cols group : Nat) : List (List Lane) :=
  if isPacked w cols then
    [(List.range w).map (fun l =>
      let r := group * (w / cols) + l / cols
      if r < rows then some (r, l % cols) else none)]
  else
    (List.range (ceilDiv cols w)).map (fun k =>
      (List.range w).map (fun l => if k * w + l < cols then some (group, k * w + l) else none))

/-- How many row groups there are, and the rows of one. -/
def groupCount (w rows cols : Nat) : Nat := if isPacked w cols then ceilDiv rows (w / cols) else rows
def groupRows (w rows cols group : Nat) : List Nat :=
  if isPacked w cols then ((List.range (w / cols)).map (· + group * (w / cols))).filter (· < rows) else [group]

/-! ### Values in the engine -/

/-- A value with its poison. -/
abbrev PNum := Num × Bool

/-- Where a stream holds the element of a row and column: row address and place in the row (R169). -/
def vPlace (i : VStream) (r c : Nat) : Nat × Nat :=
  if i.mode = 1 then (i.addr + r * i.stride, c) else if i.mode = 2 then (i.addr, c) else (i.addr + r * i.stride, 0)

/-- The chain's own format. -/
def chainFmt (fp64 : Bool) : Nat := if fp64 then 10 else 9

/-- An element of an input stream, widened to the chain's precision, which quiets a signalling NaN (R88, R169, R182). -/
def vInput (s : State) (phys : Nat) (fp64 : Bool) (i : VStream) (r c : Nat) : PNum :=
  let e := scrElem s phys (vPlace i r c).1 i.fmt (vPlace i r c).2
  let v := decodeFmt i.fmt e.1
  (if decide (i.fmt < chainFmt fp64) then quieted v else v, e.2)

/-- Widening a signalling NaN of FP16 or FP32 signals INVALID (R93). -/
def vInputFlags (s : State) (phys : Nat) (fp64 : Bool) (i : VStream) (r c : Nat) : Nat :=
  flag 0 (decide (8 ≤ i.fmt) && decide (i.fmt < chainFmt fp64) && isSnan (decodeFmt i.fmt (scrElem s phys (vPlace i r c).1 i.fmt (vPlace i r c).2).1))

/-- Scalar slots of the rows of a group, by row × 8 + slot. -/
abbrev Slots := Tab PNum

def slotZero : PNum := (.zero false, false)
def slotSize (fp64 : Bool) : Nat := if fp64 then 8 else 4
def slotAddr (b : VBlock) (fp64 : Bool) (r k : Nat) : Nat := b.scalar + 8 * slotSize fp64 * r + slotSize fp64 * k

def readSlots (s : State) (phys : Nat) (b : VBlock) (fp64 : Bool) (rows : List Nat) : Slots :=
  rows.foldl (fun t r => (List.range 8).foldl (fun t k =>
    let a := slotAddr b fp64 r k
    tabPut t (8 * r + k) (decodeFmt (if fp64 then 10 else 9) (scrNat s phys a (slotSize fp64)), scrPoisoned s phys a (slotSize fp64))) t) []

/-- An operand by its selector (R174), for a lane. -/
def vOperand (s : State) (phys : Nat) (b : VBlock) (d : Bits256) (slots : Slots) (results : List (List PNum)) (lane : Nat) (rc : Nat × Nat)
    (sel : Nat) : PNum :=
  if sel ≤ 2 then vInput s phys (stFp64 d) (b.inp sel) rc.1 rc.2
  else if 8 ≤ sel ∧ sel < 0x10 then (results.getD (sel - 8) []).getD lane slotZero
  else if 0x10 ≤ sel ∧ sel < 0x18 then tabGet slotZero slots (8 * rc.1 + (sel - 0x10))
  else if sel = 0x18 then
    (if stFp64 d then decodeFmt 10 (stImm0 d + 2 ^ 32 * stImm1 d) else val32 (stImm0 d), false)
  else if sel = 0x19 then (val32 (stImm1 d), false)
  else slotZero

/-! ### Stages (R176, R177) -/

/-- Round a stage's result in its rounding mode, collecting flags (R176). -/
def ieeeStage (fp64 : Bool) (mode : Nat) (r : Num × Nat) : Num × Nat :=
  let (v, fl) := roundTo (if fp64 then 10 else 9) mode r.1
  (v, r.2 ||| fl)

/-- The functions of FP32 chains that only an accuracy fixes. -/
def approxStage (o : Nat) : Config.Approx :=
  match o with
  | 0x11 => .exp | 0x12 => .exp2 | 0x13 => .log | 0x14 => .log2 | 0x15 => .tanh | 0x16 => .sigmoid | 0x17 => .gelu
  | 0x18 => .silu | _ => .rsqrt

/-- An element-wise stage: result and flags. -/
def elementStage (d : Bits256) (a b c : Num) : Num × Nat :=
  let fp := stFp64 d
  let md := stArith d
  match stOpcode d with
  | 0x00 => (a, 0)
  | 0x01 => ieeeStage fp md (numAdd md a b)
  | 0x02 => ieeeStage fp md (numSub md a b)
  | 0x03 => ieeeStage fp md (numMul a b)
  | 0x04 => ieeeStage fp md (numFma md a b c)
  | 0x05 => ieeeStage fp md (numDiv a b)
  | 0x06 => ieeeStage fp md (numSqrt a)
  | 0x07 => ieeeStage fp md (numDiv one32 a)
  | 0x08 => numMin a b
  | 0x09 => numMax a b
  | 0x0A => numMinNum a b
  | 0x0B => numMaxNum a b
  | 0x0C => (absolute a, 0)
  | 0x0D => (negate a, 0)
  | 0x0E => let (h, fl) := numCmp (stCtrl d % 8) a b; (if h then one32 else .zero false, fl)
  | 0x0F => (if isZero c then b else a, 0)
  | 0x10 => numRoundInt md a
  | o => (approxOf (approxStage o) a, 0)

/-- The group size of a permuting stage. -/
def permGroup (d : Bits256) : Nat := 2 ^ (stCtrl d / 8 % 8 + 1)

/-- Where lane i of a permuting stage takes its value: from operand a or b, and the lane (R177). -/
def permSource (d : Bits256) (i : Nat) : Bool × Nat :=
  let g := permGroup d
  let n := stCtrl d / 64 % 256
  let base := i - i % g
  let j := i % g
  let h := g / 2
  match stOpcode d with
  | 0x30 =>
    (false, match stCtrl d % 8 with
            | 0 => base + g - 1 - j
            | 1 => base + (j + n) % g
            | 2 => i ^^^ n
            | _ => base + n % g)
  | 0x32 => if j % 2 = 0 then (false, base + j / 2) else (true, base + (j - 1) / 2)
  | 0x33 => if j % 2 = 0 then (false, base + h + j / 2) else (true, base + h + (j - 1) / 2)
  | 0x34 => if j < h then (false, base + 2 * j) else (true, base + 2 * (j - h))
  | _ => if j < h then (false, base + 2 * j + 1) else (true, base + 2 * (j - h) + 1)

/-- What lane l of an operand holds in a beat; an idle lane holds what nothing fixes. -/
def laneValue (fp64 : Bool) (beat : List Lane) (xs : List PNum) (l : Nat) : PNum :=
  match beat.getD l none with
  | some _ => xs.getD l slotZero
  | none => (decodeFmt (if fp64 then 10 else 9) (Config.idleLane l), false)

/-- ⌊b⌋ mod 256 of a SHUFFLE index; none for a NaN or an infinity. -/
def shuffleIndex (b : Num) : Option Nat :=
  match b with
  | .zero _ => some 0
  | .fin s n d =>
    let q : Int := if s then -((n + d - 1) / d : Nat) else (n / d : Nat)
    some (q % 256).toNat
  | _ => none

/-! ### Running a sweep -/

/-- What a row group's run carries: slots, outputs written so far by output, row, column, codes of quantised rows, flags, generators,
statistics, and whether a `TILE_SCALE` was bad. -/
structure VRun where
  slots : Slots
  outs : List (Nat × Nat × Nat × Nat × Bool)
  codes : Tab Nat
  flags : Nat
  gens : Tab Dword
  cup : CupPart
  badScale : Bool
  /-- Elements fed to the reductions of the sweep: chain position, row, lane and value in beat order. -/
  fed : List (Nat × Nat × Nat × PNum)
deriving DecidableEq, Repr

/-- The code and divisor of a QUANT row (R150, R180): from its RAMAX slot and the block's `TILE_SCALE`. -/
def quantRow (s : State) (phys : Nat) (b : VBlock) (fmt r : Nat) (amax : Num) : Nat × Num × Nat × Bool :=
  match tileScaleAt s phys (b.qscale + 80 * (r / 64)) with
  | none => (0, one32, 0, true)
  | some s2 => let (c, d, fl) := segmentScale amax s2 (qMax fmt); (c, d, fl, false)

/-- The output that a stage writes. -/
def stWrites (d : Bits256) : List Nat := (List.range 2).filter (bitOf (stWrite d))

/-- The flags that the elements a stage reads raise as they enter the engine. -/
def entryFlags (s : State) (phys : Nat) (b : VBlock) (beat : List Lane) (d : Bits256) : Nat :=
  ([stSrcA d, stSrcB d, stSrcC d].filter (· ≤ 2)).foldl (fun fl sel =>
    beat.foldl (fun fl rc => match rc with | some rc => fl ||| vInputFlags s phys (stFp64 d) (b.inp sel) rc.1 rc.2 | none => fl) fl) 0

/-- One stage over the lanes of a beat: its results, and the run after. -/
def runStage (s : State) (phys : Nat) (b : VBlock) (beat : List Lane) (k : Nat) (d : Bits256) (results : List (List PNum)) (t : VRun) :
    List PNum × VRun :=
  let op := vOperand s phys b d t.slots results
  let opA := fun l rc => op l rc (stSrcA d)
  let opB := fun l rc => op l rc (stSrcB d)
  let opC := fun l rc => op l rc (stSrcC d)
  let o := stOpcode d
  let cells := (List.range beat.length).zip beat
  if stIsReduction o then
    ([], { t with fed := t.fed ++ cells.filterMap (fun (l, rc) => rc.map (fun rc => (k, rc.1, l, opA l rc))) })
  else if o = 0x28 then
    let r := cells.map (fun (l, rc) =>
      match rc with
      | none => slotZero
      | some rc =>
        let m := tabGet slotZero t.slots (8 * rc.1 + stSlot d)
        let x := opA l rc
        let tt := opB l rc
        let mn := (numMax m.1 tt.1).1
        (if numEq mn (.inf true) then .zero false else approxOf .exp (sub32 x.1 mn), x.2 || tt.2 || m.2))
    (r, { t with fed := t.fed ++ cells.filterMap (fun (l, rc) => rc.map (fun rc => (k, rc.1, l, r.getD l slotZero))) })
  else if o = 0x29 then
    let fmt := (b.outp ((stWrites d).headD 0)).fmt
    cells.foldl (fun (acc : List PNum × VRun) (lrc : Nat × Lane) =>
      match lrc.2 with
      | none => (acc.1 ++ [slotZero], acc.2)
      | some rc =>
        let amax := opB lrc.1 rc
        let x := opA lrc.1 rc
        let (c, dv, fl, bad) := quantRow s phys b fmt rc.1 amax.1
        (acc.1 ++ [(div32 x.1 dv, x.2 || amax.2 || bad)],
         { acc.2 with codes := tabPut acc.2.codes rc.1 c, flags := acc.2.flags ||| fl, badScale := acc.2.badScale || bad }))
      (([] : List PNum), t)
  else if 0x30 ≤ o then
    let xs := cells.map (fun (l, rc) => match rc with | some rc => opA l rc | none => slotZero)
    let ys := if o = 0x30 then [] else cells.map (fun (l, rc) => match rc with | some rc => opB l rc | none => slotZero)
    (cells.map (fun (l, _) =>
      if o = 0x31 then
        let y := laneValue (stFp64 d) beat ys l
        match shuffleIndex y.1 with
        | none => (defaultNan, y.2)
        | some i => let x := laneValue (stFp64 d) beat xs i; (x.1, x.2 || y.2)
      else
        let (fromB, i) := permSource d l
        laneValue (stFp64 d) beat (if fromB then ys else xs) i), t)
  else
    cells.foldl (fun (acc : List PNum × VRun) (lrc : Nat × Lane) =>
      match lrc.2 with
      | none => (acc.1 ++ [slotZero], acc.2)
      | some rc =>
        let x := opA lrc.1 rc
        let y := opB lrc.1 rc
        let z := opC lrc.1 rc
        let (v, fl) := elementStage d x.1 y.1 z.1
        (acc.1 ++ [(v, x.2 || y.2 || z.2)], { acc.2 with flags := acc.2.flags ||| fl })) (([] : List PNum), t)

/-- The flags a conversion to a format raises in the engine: IEEE flags only for the IEEE formats (R93, R96, R181). -/
def convFlags (fmt mode fl : Nat) : Nat := if 8 ≤ fmt ∧ mode ≠ 5 then fl else fl &&& 0x60

/-- A stage's result as its output's format holds it: quantised behind a QUANT stage (R150), as it stands where the output has the chain's own
format, converted otherwise (R181). -/
def vNarrow (d : Bits256) (fmt u : Nat) (v : Num) : Conv :=
  match v with
  | .nan s p =>
    if fmt = chainFmt (stFp64 d) then
      { code := b2n s * 2 ^ (fmtE fmt + fmtM fmt) + (2 ^ fmtE fmt - 1) * 2 ^ fmtM fmt + p / 2 ^ (52 - fmtM fmt), flags := 0, poison := false }
    else convert fmt (stOut d) u v
  | v => if stOpcode d = 0x29 then convertQuant fmt (stOut d) u v else convert fmt (stOut d) u v

/-- Convert and write one element to output `out`, drawing in vector lane `lane`. -/
def vWrite (b : VBlock) (d : Bits256) (out row col lane : Nat) (v : PNum) (input div : Num) (t : VRun) : VRun :=
  let fmt := (b.outp out).fmt
  let md := stOut d
  let g := if md = 5 then srNext (tabGet 0 t.gens (256 + lane)) else 0
  let c := vNarrow d fmt (srValue g) v.1
  { t with gens := if md = 5 then tabSet 0 t.gens (256 + lane) g else t.gens,
           flags := t.flags ||| convFlags fmt md c.flags,
           outs := t.outs ++ [(out, row, col, c.code, v.2 || c.poison)],
           cup := if stCupping d then cupMeasure t.cup (v.2 || isInf input) fmt input div c.code (bitOf c.flags 5) else t.cup }

/-- The writes of one beat to one output. -/
def beatWrites (s : State) (phys : Nat) (b : VBlock) (beat : List Lane) (chain : List Bits256) (sweep out : Nat)
    (results : List (List PNum)) (t : VRun) : VRun :=
  match ((List.range chain.length).zip chain).find? (fun e =>
    bitOf (stSweeps e.2) sweep && bitOf (stWrite e.2) out && !stIsReduction (stOpcode e.2)) with
  | none => t
  | some (k, d) =>
    ((List.range beat.length).zip beat).foldl (fun t (lrc : Nat × Lane) =>
      match lrc.2 with
      | none => t
      | some rc =>
        let v := (results.getD k []).getD lrc.1 slotZero
        if stOpcode d = 0x29 then
          let amax := vOperand s phys b d t.slots results lrc.1 rc (stSrcB d)
          vWrite b d out rc.1 rc.2 lrc.1 v (vOperand s phys b d t.slots results lrc.1 rc (stSrcA d)).1
            (quantRow s phys b (b.outp out).fmt rc.1 amax.1).2.1 t
        else vWrite b d out rc.1 rc.2 lrc.1 v v.1 one32 t) t

/-- One beat of a sweep. -/
def runBeat (s : State) (phys : Nat) (b : VBlock) (chain : List Bits256) (sweep : Nat) (beat : List Lane) (t : VRun) : VRun :=
  let r := ((List.range chain.length).zip chain).foldl (fun (acc : List (List PNum) × VRun) (kd : Nat × Bits256) =>
    if bitOf (stSweeps kd.2) sweep then
      let (x, t) := runStage s phys b beat kd.1 kd.2 acc.1 acc.2
      (acc.1 ++ [x], { t with flags := t.flags ||| entryFlags s phys b beat kd.2 })
    else (acc.1 ++ [[]], acc.2)) (([] : List (List PNum)), t)
  beatWrites s phys b beat chain sweep 1 r.1 (beatWrites s phys b beat chain sweep 0 r.1 r.2)

/-! ### Reductions (R178) -/

/-- Combine neighbours pairwise. -/
def pairUp {α : Type} (f : α → α → α) : List (Option α) → List (Option α)
  | some a :: some b :: t => some (f a b) :: pairUp f t
  | a :: b :: t => (if a.isSome then a else b) :: pairUp f t
  | l => l

/-- Combine the lanes by the fixed binary tree. -/
def treeOf {α : Type} (f : α → α → α) : Nat → List (Option α) → Option α
  | 0, l => (l.headD none)
  | n + 1, l => treeOf f n (pairUp f l)

/-- The combining step of a reduction, to nearest even in the chain's precision. -/
def reduceStep (fp64 : Bool) (o : Nat) (a b : Num) : Num :=
  let rnd := fun (r : Num × Nat) => (roundTo (if fp64 then 10 else 9) 0 r.1).1
  match o with
  | 0x20 | 0x21 => rnd (numAdd 0 a b)
  | 0x22 => (numMax a b).1
  | 0x23 => (numMin a b).1
  | _ => if numLt a b then b else a

/-- What a reduction takes of one element. -/
def reduceEntry (fp64 : Bool) (o : Nat) (a : Num) : Num :=
  match o with
  | 0x21 => (roundTo (if fp64 then 10 else 9) 0 (numMul a a).1).1
  | 0x24 => if isFinite a then absolute a else .zero false
  | _ => a

/-- The result of a reduction over one row: each lane in beat order, then the tree. -/
def reduceRow (fp64 : Bool) (o w : Nat) (xs : List (Nat × Num)) : Num :=
  let lanes := (List.range w).map (fun l =>
    match (xs.filter (fun e => e.1 == l)).map (fun e => reduceEntry fp64 o e.2) with
    | [] => none
    | x :: t => some (t.foldl (reduceStep fp64 o) x))
  (treeOf (reduceStep fp64 o) (Nat.log2 w) lanes).getD (.zero false)

/-- The end of a sweep: reductions and softmax steps write their slots, and reductions their column outputs. A column output converted
stochastically draws in the lane of the row's first element, which no rule settles: DESIGN CHOICE, log entry 21. -/
def endSweep (b : VBlock) (fp64 : Bool) (rows : List Nat) (chain : List Bits256) (sweep : Nat) (t : VRun) : VRun :=
  let w := lanesOf fp64
  let t := ((List.range chain.length).zip chain).foldl (fun t (kd : Nat × Bits256) =>
    let (k, d) := kd
    let o := stOpcode d
    if !bitOf (stSweeps d) sweep then t
    else if stIsReduction o then
      rows.foldl (fun t r =>
        let mine := t.fed.filter (fun e => e.1 == k && e.2.1 == r)
        let first := (mine.headD (0, 0, 0, slotZero)).2.2.1
        let v := reduceRow fp64 o w (mine.map (fun e => (e.2.2.1 - (if isPacked w b.cols then first else 0), e.2.2.2.1)))
        let p := mine.any (·.2.2.2.2)
        let t := { t with slots := tabPut t.slots (8 * r + stSlot d) (v, p) }
        (stWrites d).foldl (fun t out => vWrite b d out r 0 first (v, p) v one32 t) t) t
    else if o = 0x28 then
      rows.foldl (fun t r =>
        let mine := t.fed.filter (fun e => e.1 == k && e.2.1 == r)
        let first := (mine.headD (0, 0, 0, slotZero)).2.2.1
        let sum := reduceRow false 0x20 w (mine.map (fun e => (e.2.2.1 - (if isPacked w b.cols then first else 0), e.2.2.2.1)))
        let get := fun i => tabGet slotZero t.slots (8 * r + i)
        let m := get (stSlot d)
        let tt := if 0x10 ≤ stSrcB d ∧ stSrcB d < 0x18 then get (stSrcB d - 0x10) else slotZero
        let mn := (numMax m.1 tt.1).1
        let alpha := if numEq mn (.inf true) then one32 else approxOf .exp (sub32 m.1 mn)
        let l := add32 (mul32 (get (stSlot d + 1)).1 alpha) sum
        let p := mine.any (·.2.2.2.2) || m.2 || tt.2 || (get (stSlot d + 1)).2
        { t with slots := tabPut (tabPut (tabPut t.slots (8 * r + stSlot d) (mn, p)) (8 * r + stSlot d + 1) (l, p))
                            (8 * r + stSlot d + 2) (alpha, p) }) t
    else if o = 0x29 then t
    else t) t
  { t with fed := [] }

/-- One row group (R175): slots in, three sweeps, slots out in the run. -/
def runGroup (s : State) (phys : Nat) (b : VBlock) (fp64 : Bool) (chain : List Bits256) (group : Nat) (t : VRun) : VRun :=
  let w := lanesOf fp64
  let rows := groupRows w b.rows b.cols group
  let mine := readSlots s phys b fp64 rows
  let t := { t with slots := mine.foldl (fun u e => tabPut u e.1 e.2) t.slots }
  (List.range 3).foldl (fun t sweep =>
    let t := (beatsOf w b.rows b.cols group).foldl (fun t beat => runBeat s phys b chain sweep beat t) t
    endSweep b fp64 rows chain sweep t) t

/-! ### Use of slots and streams -/

/-- Slots that a stage reads. -/
def slotReads (d : Bits256) : List Nat :=
  (([stSrcA d, stSrcB d, stSrcC d].filter (fun c => decide (0x10 ≤ c) && decide (c < 0x18))).map (· - 0x10)) ++
  (if stOpcode d = 0x28 then [stSlot d, stSlot d + 1] else [])

def usesSlots (chain : List Bits256) : Bool :=
  chain.any (fun d => slotReads d != [] || stIsReduction (stOpcode d) || stOpcode d == 0x28)

/-- The slots of some rows that a run changed, as writes. -/
def slotWrites (s : State) (phys : Nat) (b : VBlock) (fp64 : Bool) (rows : List Nat) (slots : Slots) : List (Nat × PData) :=
  let before := readSlots s phys b fp64 rows
  (slots.filter (fun e => rows.contains (e.1 / 8) && decide (tabFind before e.1 ≠ some e.2))).map (fun e =>
    (slotAddr b fp64 (e.1 / 8) (e.1 % 8), (leBytes (slotSize fp64) (convert (chainFmt fp64) 0 0 e.2.1).code).map (fun x => (x, e.2.2))))

/-- A whole VEC op from a starting state of the scratchpad. A row group reads the slots that the groups before it have written back (R175); its
streams are those that the op found, since outputs may not overlap inputs but where they cover them in one sweep (R184). -/
def runVec (s : State) (phys : Nat) (b : VBlock) (fp64 : Bool) (chain : List Bits256) (gens : Tab Dword) : VRun :=
  ((List.range (groupCount (lanesOf fp64) b.rows b.cols)).foldl (fun (u : State × VRun) g =>
    let t := runGroup u.1 phys b fp64 chain g u.2
    (if usesSlots chain then
       (slotWrites u.1 phys b fp64 (groupRows (lanesOf fp64) b.rows b.cols g) t.slots).foldl (fun v e => scrWrite v phys e.1 e.2) u.1
     else u.1, t))
    (s, { slots := [], outs := [], codes := [], flags := 0, gens := gens, cup := cupNone, badScale := false, fed := [] })).2

/-- Inputs that the stages of a sweep name. -/
def inputsOf (chain : List Bits256) (p : Bits256 → Bool) : List Nat :=
  (List.range 3).filter (fun i => chain.any (fun d => p d && [stSrcA d, stSrcB d, stSrcC d].contains i))

/-! ### The checks at start (R184) -/

/-- The bytes of row r of a stream: start and length. -/
def streamRow (b : VBlock) (i : VStream) (r : Nat) : Nat × Nat :=
  if i.mode = 3 then (i.addr + r * i.stride, packedBytes i.fmt 1)
  else if i.mode = 2 then (i.addr, packedBytes i.fmt b.cols)
  else (i.addr + r * i.stride, packedBytes i.fmt b.cols)

def streamRows (b : VBlock) (i : VStream) : List (Nat × Nat) :=
  if i.mode = 2 then [streamRow b i 0] else (List.range b.rows).map (streamRow b i)

def rowsMeet (x y : List (Nat × Nat)) : Bool := x.any (fun a => y.any (fun c => overlaps a.1 a.2 c.1 c.2))

/-- The streams of a block that are in use. -/
def streamsIn (l : List VStream) : List VStream := l.filter (fun i => i.mode != 0)

/-- Areas that a VEC op uses: streams, slots, scale blocks and statistics. -/
def vecAreas (b : VBlock) (fp64 : Bool) (chain : List Bits256) : List (List (Nat × Nat)) :=
  (streamsIn b.ins ++ streamsIn b.outs).map (streamRows b) ++
  (if usesSlots chain then [[(b.scalar, 8 * slotSize fp64 * b.rows)]] else []) ++
  (if chain.any (fun d => stOpcode d == 0x29) then [[(b.qscale, 80 * ceilDiv b.rows 64)]] else []) ++
  (if chain.any stCupping then [[(b.stats, 32)]] else [])

/-- A stream or slot area that overlaps another against R184. -/
def vecOverlap (b : VBlock) (fp64 : Bool) (chain : List Bits256) : Bool :=
  let ins := streamsIn b.ins
  let outs := streamsIn b.outs
  let single := chain.all (fun d => stSweeps d == 1)
  let covers := fun (o i : VStream) => single && streamRows b o == streamRows b i && fmtBits o.fmt == fmtBits i.fmt
  let slots := if usesSlots chain then [[(b.scalar, 8 * slotSize fp64 * b.rows)]] else []
  let rows := fun (l : List VStream) => l.map (streamRows b)
  let pairs := fun (l : List (List (Nat × Nat))) =>
    (List.range l.length).any (fun i => (List.range i).any (fun j => rowsMeet (l.getD i []) (l.getD j [])))
  pairs (rows ins) || pairs (rows outs) ||
  outs.any (fun o => ins.any (fun i => rowsMeet (streamRows b o) (streamRows b i) && !covers o i)) ||
  slots.any (fun x => (rows ins ++ rows outs).any (rowsMeet x))

/-- A reduction of an opcode writes a stage's slot operand in a sweep before every sweep of the stage (R179, R180). -/
def reducedBefore (chain : List Bits256) (o : Nat) (d : Bits256) : Bool :=
  decide (0x10 ≤ stSrcB d) && decide (stSrcB d < 0x18) &&
  chain.any (fun e => stOpcode e == o && stSlot e == stSrcB d - 0x10 &&
    (List.range 3).all (fun x => !bitOf (stSweeps d) x || (List.range x).any (bitOf (stSweeps e))))

/-- One stage's own rules in its chain. -/
def stageOk (b : VBlock) (fp64 : Bool) (chain : List Bits256) (k : Nat) (d : Bits256) : Bool :=
  let o := stOpcode d
  let sels := [stSrcA d, stSrcB d, stSrcC d]
  let earlier := fun c =>
    if 8 ≤ c ∧ c < 0x10 then
      match (chain.take k)[c - 8]? with
      | none => false
      | some e => !stIsReduction (stOpcode e) && (stSweeps d &&& stSweeps e) == stSweeps d
    else true
  let slotOk := fun n => chain.all (fun e =>
    !(stIsReduction (stOpcode e) && stSlot e == n) ||
    (List.range 3).all (fun x => (List.range 3).all (fun y => !(bitOf (stSweeps d) x && bitOf (stSweeps e) y && decide (x ≤ y)))))
  let outRound := fun (i : Nat) => if (b.outp i).fmt < 9 then stOut d == 0 || stOut d == 5 else decide (stOut d ≤ 4)
  stFp64 d == fp64 && sels.all earlier && (slotReads d).all slotOk &&
  sels.all (fun c => decide (2 < c) || (b.inp c).mode != 0) &&
  (stWrites d).all (fun i => (b.outp i).mode == (if stIsReduction o then 3 else 1) && outRound i) &&
  (if o = 0x29 then (stWrites d).length == 1 && (stWrites d).all (fun i => quantisable (b.outp i).fmt) &&
                    reducedBefore chain 0x24 d else true) &&
  (if o = 0x28 then reducedBefore chain 0x22 d && decide (stSlot d ≤ 5) else true) &&
  (if stCupping d then (stWrites d).length == 1 && !stIsReduction o else true) &&
  (if 0x30 ≤ o ∧ o ≠ 0x31 then
     decide (permGroup d ≤ lanesOf fp64) && (!isPacked (lanesOf fp64) b.cols || decide (permGroup d ≤ b.cols)) &&
     (o != 0x30 || stCtrl d % 8 != 2 || decide (stCtrl d / 64 % 256 < permGroup d))
   else true)

/-- One stream entry's own rules. -/
def streamOk (fp64 isIn : Bool) (i : VStream) : Bool :=
  i.reservedOk && !(i.queue && (!isIn || i.mode != 1)) &&
  (i.mode == 0 ||
   (fmtValid i.fmt && i.addr % 16 == 0 && !(isIn && !fp64 && i.fmt == 10) && !(!isIn && i.mode == 2)))

/-- The checks of R184 but for the areas' place: false is BAD_VEC. -/
def vecOk (b : VBlock) (chain : List Bits256) (count : Nat) : Bool :=
  match chain with
  | [] => false
  | d :: _ =>
    let fp64 := stFp64 d
    let union := chain.foldl (fun u e => u ||| stSweeps e) 0
    decide (chain.length = count) && (union == 1 || union == 3 || union == 7) && b.reservedOk &&
    decide (1 ≤ b.rows) && decide (b.rows ≤ 4096) && decide (1 ≤ b.cols) && decide (b.cols ≤ 16384) &&
    b.scalar % 16 == 0 && b.qscale % 16 == 0 && b.stats % 16 == 0 &&
    b.ins.all (streamOk fp64 true) && b.outs.all (streamOk fp64 false) &&
    ((List.range chain.length).zip chain).all (fun e => stageOk b fp64 chain e.1 e.2) &&
    (List.range 2).all (fun o => (chain.filter (fun e => bitOf (stWrite e) o)).length == (if (b.outp o).mode = 0 then 0 else 1)) &&
    !vecOverlap b fp64 chain

/-! ### The count (R185) -/

/-- Cycles that a stage adds to each beat (R176). -/
def stCost (o : Nat) : Nat :=
  if (decide (5 ≤ o) && decide (o ≤ 7)) || o == 0x19 || o == 0x28 || o == 0x29 then 4
  else if o = 0x17 ∨ o = 0x18 then 3
  else if 0x11 ≤ o ∧ o ≤ 0x16 then 2 else 1

/-- Bytes a beat moves in one stream in a sweep: each row that it holds is packed, and padded, by itself (R78). -/
def beatBytes (i : VStream) (beat : List Lane) (rows : Nat) : Nat :=
  let each := (beat.filter Option.isSome).length / max rows 1
  if i.mode = 3 then rows * packedBytes i.fmt 1
  else if i.mode = 2 then packedBytes i.fmt each
  else rows * packedBytes i.fmt each

/-- The count of one row group. -/
def groupCycles (b : VBlock) (fp64 : Bool) (chain : List Bits256) (sweeps group : Nat) : Nat :=
  let w := lanesOf fp64
  let beats := beatsOf w b.rows b.cols group
  let rows := (groupRows w b.rows b.cols group).length
  let slotBytes := if usesSlots chain then 8 * slotSize fp64 * rows else 0
  ((List.range sweeps).map (fun sw =>
    let run := chain.filter (fun d => bitOf (stSweeps d) sw)
    let c := (run.map (fun d => stCost (stOpcode d))).foldl (· + ·) 0
    ((List.range beats.length).map (fun k =>
      let beat := beats.getD k []
      let last := k + 1 == beats.length
      let ins := ((inputsOf run (fun _ => true)).map (fun i => beatBytes (b.inp i) beat rows)).foldl (· + ·) 0
      let outs := ((run.map stWrites).flatten.map (fun o =>
        if (b.outp o).mode = 3 ∧ !last then 0 else beatBytes (b.outp o) beat rows)).foldl (· + ·) 0
      let sl := (if sw = 0 ∧ k = 0 then slotBytes else 0) + (if sw + 1 = sweeps ∧ last then slotBytes else 0)
      max c (ceilDiv (ins + outs + sl) 1024))).foldl (· + ·) 0)).foldl (· + ·) 0

/-- C (R185). -/
def vecCount (b : VBlock) (chain : List Bits256) : Nat :=
  let fp64 := match chain with | d :: _ => stFp64 d | [] => false
  let sweeps := Nat.log2 (chain.foldl (fun u e => u ||| stSweeps e) 1) + 1
  ((List.range (groupCount (lanesOf fp64) b.rows b.cols)).map (groupCycles b fp64 chain sweeps)).foldl (· + ·) 0 + 24 + 8 * (sweeps - 1)

end Sys2Proof.Machine
end

