-- ==== Sys2Proof/Machine/Hbm.lean ====
section
/-! DEFINITION. HBM stacks and the memory-side cache: one access at its home stop, and what cleans, retirements and the faulted
state do to the cache (13, R439, R462). -/

namespace Sys2Proof.Machine

def getCache (s : State) (die : Nat) : DieCache := tabGet dieCacheReset s.cache die
def setCache (s : State) (die : Nat) (c : DieCache) : State := { s with cache := tabSet dieCacheReset s.cache die c }
def getMc (s : State) (stack : Nat) : McState := tabGet mcReset s.mc stack
def setMc (s : State) (stack : Nat) (m : McState) : State := { s with mc := tabSet mcReset s.mc stack m }
def updMc (s : State) (stack : Nat) (f : McState → McState) : State := setMc s stack (f (getMc s stack))

/-- The stack of an HBM device address (R31). -/
def stackOf (a : Nat) : Nat := a / stackSize

/-- The die of a stack (R13). -/
def dieOfStack (stack : Nat) : Nat := stack / 6

/-- The pseudo-channel of an HBM device address (R286). -/
def pseudoOf (a : Nat) : Nat := (a % stackSize) / 2048 % 32

/-- The address within the pseudo-channel (R286). -/
def pseudoAddr (a : Nat) : Nat := (a % stackSize) / 2048 / 32 * 2048 + a % 2048

/-- The channel: a pair of pseudo-channels. -/
def channelOf (a : Nat) : Nat := pseudoOf a / 2

/-- Out of service (R293). -/
def stackOffline (s : State) (stack : Nat) : Bool := (getMc s stack).train == 3

/-- The pieces of a range that lie in one 256-byte line each: address and length. -/
def linePieces (a n : Nat) : List (Nat × Nat) :=
  if n = 0 then [] else
    (List.range ((a + n - 1) / 256 - a / 256 + 1)).map (fun k =>
      let lo := max a ((a / 256 + k) * 256)
      let hi := min (a + n) ((a / 256 + k + 1) * 256)
      (lo, hi - lo))

/-- A request's accesses: its bytes within each 2 KiB unit (R287). -/
def unitPieces (a n : Nat) : List (Nat × Nat) :=
  if n = 0 then [] else
    (List.range ((a + n - 1) / 2048 - a / 2048 + 1)).map (fun k =>
      let lo := max a ((a / 2048 + k) * 2048)
      let hi := min (a + n) ((a / 2048 + k + 1) * 2048)
      (lo, hi - lo))

/-- A channel of a stack is paused (R294). -/
def channelPaused (s : State) (a : Nat) : Bool :=
  match (getMc s (stackOf a)).pause with | some (c, _) => c == channelOf a | none => false

/-- A paused channel holds part of a range. -/
def rangePaused (s : State) (a n : Nat) : Bool := (unitPieces a n).any (fun p => channelPaused s p.1)

/-! ### Lines -/

/-- n bytes of a line from an offset, with their marks. -/
def lineSlice (bytes : List Byte) (poison : List Bool) (off n : Nat) : PData :=
  (List.range n).map (fun i => (bytes.getD (off + i) 0, poison.getD ((off + i) / 64) false))

/-- The marks of a line after a write of `d` at an offset (R290). -/
def mergeMarks (poison : List Bool) (off : Nat) (d : PData) : List Bool :=
  (List.range 4).map (fun g =>
    let old := poison.getD g false
    let feeds := feedsPoison off d g
    if off ≤ g * 64 ∧ (g + 1) * 64 ≤ off + d.length then feeds
    else if off < (g + 1) * 64 ∧ g * 64 < off + d.length then old || feeds else old)

/-- The bytes of a line after a write. -/
def mergeBytes (bytes : List Byte) (off : Nat) (d : PData) : List Byte :=
  bytes.take off ++ d.map (·.1) ++ bytes.drop (off + d.length)

/-- A line as the DRAM holds it. -/
def dramLine (s : State) (line : Nat) : List Byte × List Bool :=
  (memBytes s (line * 256) 256, (List.range 4).map (fun g => memPoison s (line * 256 + g * 64)))

/-- An access to a stack out of service is not performed (R293). -/
def offlineAccess (a : Nat) (s : State) : State :=
  logLimited .hbmOfflineAccess (islOfMc (stackOf a)) (leBytes 8 a) s

/-- Write a whole line to the DRAM. -/
def writeLine (s : State) (line : Nat) (bytes : List Byte) (poison : List Bool) : State :=
  if stackOffline s (stackOf (line * 256)) then offlineAccess (line * 256) s
  else updMc (memWrite s (line * 256) (lineSlice bytes poison 0 256)) (stackOf (line * 256))
    (fun m => { m with wrBytes := inc64 m.wrBytes 256 })

/-! ### Placement (R302, R303) -/

/-- The ways of a region, rising. -/
def waysOf (c : DieCache) (r : Nat) : List Nat :=
  (List.range 8).filter (fun w => setHas c.powered w && tabFind c.wayRegion w == some r)

/-- Lines of the cache that meet a test. -/
def linesWhere (c : DieCache) (p : Nat → CacheLine → Bool) : List (Nat × CacheLine) :=
  c.lines.filter (fun e => p e.1 e.2)

/-- The last use of a set's entry in a way. -/
def entryStamp (c : DieCache) (set way : Nat) : Nat :=
  (linesWhere c (fun l e => decide (e.way = way) && decide (l / 8 % 8192 = set))).foldl (fun m e => max m e.2.stamp) 0

/-- The way with the least recent entry. -/
def lruWay (c : DieCache) (set : Nat) : List Nat → Option Nat
  | [] => none
  | w :: t =>
    match lruWay c set t with
    | none => some w
    | some v => if entryStamp c set w ≤ entryStamp c set v then some w else some v

/-- Where a line would go in a region: its way and the lines it replaces; none where the region can take nothing. -/
def placeFor (c : DieCache) (r line : Nat) : Option (Nat × List (Nat × CacheLine)) :=
  let ways := waysOf c r
  match tabFind c.placement r with
  | none => none
  | some .direct =>
    if ways = [] ∨ ways.any (fun w => setHas c.cleaning w) then none
    else
      let len := ways.length * 65536
      some (ways.getD (line % len / 65536) 0,
            linesWhere c (fun l e => decide (e.region = r) && decide (l % len = line % len) && decide (l ≠ line)))
  | some .sectored =>
    let set := line / 8 % 8192
    match linesWhere c (fun l e => decide (e.region = r) && decide (l / 8 = line / 8)) with
    | (_, e) :: _ => if setHas c.cleaning e.way then none else some (e.way, [])
    | [] =>
      let open_ := ways.filter (fun w => !setHas c.cleaning w)
      let taken := fun w => (linesWhere c (fun l e => decide (e.way = w) && decide (l / 8 % 8192 = set))) ≠ []
      match open_.filter (fun w => !decide (taken w)) with
      | w :: _ => some (w, [])
      | [] =>
        match lruWay c set open_ with
        | none => none
        | some w => some (w, linesWhere c (fun l e => decide (e.way = w) && decide (l / 8 % 8192 = set)))

/-- Lines leave the cache at a time: dirty ones go to the eviction buffer (R306, R309). -/
def evictLines (c : DieCache) (now : Nat) (cleaned : Bool) (v : List (Nat × CacheLine)) : DieCache :=
  { c with lines := v.foldl (fun t e => tabDel t e.1) c.lines,
           evb := c.evb ++ (v.filter (·.2.dirty)).map (fun e =>
             { line := e.1, bytes := e.2.bytes, poison := e.2.poison, since := now, passed := 0, cleaned := cleaned }) }

/-- Allocate a line in a region at a time, if its victims fit the eviction buffer (R304–R306). -/
def allocLine (c : DieCache) (now region line : Nat) (dirty : Bool) (bytes : List Byte) (poison : List Bool) : Option DieCache :=
  match placeFor c region line with
  | none => none
  | some (way, v) =>
    if 64 < c.evb.length + (v.filter (·.2.dirty)).length then
      some { c with fillsDropped := inc64 c.fillsDropped 1 }
    else
      let c := evictLines c now false v
      some { c with lines := tabPut c.lines line { region := region, way := way, dirty := dirty, bytes := bytes,
                                                   poison := poison, stamp := c.clock + 1 },
                    clock := c.clock + 1, fillCount := inc64 c.fillCount 1 }

/-- Whether an allocation takes place, or is refused for want of room. -/
def allocated (c d : DieCache) : Bool := decide (c.fillCount ≠ d.fillCount)

/-- A line used now. -/
def touchLine (c : DieCache) (line : Nat) (e : CacheLine) : DieCache :=
  { c with lines := tabPut c.lines line { e with stamp := c.clock + 1 }, clock := c.clock + 1 }

/-- An access of a die has been served: from the cache and the eviction buffer alone, or from the DRAM too. -/
def countAccess (die : Nat) (hit : Bool) (s : State) : State :=
  let c := getCache s die
  setCache s die (if hit then { c with hits := inc64 c.hits 1 } else { c with misses := inc64 c.misses 1 })

/-- The eviction-buffer entry of a line. -/
def findEvb (c : DieCache) (line : Nat) : Option EvbEntry := c.evb.find? (fun e => decide (e.line = line))

/-- A line that the cache or the eviction buffer holds. -/
def holdsLine (c : DieCache) (line : Nat) : Bool := (tabFind c.lines line).isSome || (findEvb c line).isSome

/-- Cancel a pending fill of a sector (R307). -/
def cancelFill (c : DieCache) (line : Nat) : DieCache :=
  if c.fills.any (fun f => decide (f.line = line)) then
    { c with fills := c.fills.filter (fun f => decide (f.line ≠ line)), fillsDropped := inc64 c.fillsDropped 1 }
  else c

/-! ### Writing back, and the faulted state -/

/-- Write back every eviction-buffer entry and every dirty line of a die, and empty its cache. -/
def flushDie (die : Nat) (s : State) : State :=
  let c := getCache s die
  let s := forEach c.evb (fun e t => writeLine t e.line e.bytes e.poison) s
  let s := forEach (c.lines.filter (·.2.dirty)) (fun e t => writeLine t e.1 e.2.bytes e.2.poison) s
  setCache s die { c with lines := [], evb := [], fills := [] }

def flushCaches (s : State) : State := flushDie 1 (flushDie 0 s)

/-- The hold drives are withdrawn: the switches fall to bypass (R398). -/
def dropHold (c : CourierState) : CourierState :=
  { c with switches := c.switches.map (fun e => (e.1, { e.2 with hold := false, pos := if e.2.pos = 0 then 0 else 1 })) }

/-- A core's units in their reset state: the counters, `DMA_STALL` and what lies in its scratchpad are kept (R466). -/
def idleCore (c : Core) : Core :=
  { coreReset with arrBusy := c.arrBusy, arrMacs := c.arrMacs, accReplays := c.accReplays, accSats := c.accSats, vecBusy := c.vecBusy,
                   dzFaults := c.dzFaults, sealFails := c.sealFails, stallUs := c.stallUs }

/-- Every core and grinder stops, and what was on its way for them is gone. -/
def stopEngines (s : State) : State :=
  { s with cores := s.cores.map (fun e => (e.1, idleCore e.2)),
           grinders := s.grinders.map (fun e => (e.1, { e.2 with queue := [], active := [], linkPos := [], takes := [], granted := [] })),
           mc := s.mc.map (fun e => (e.1, { e.2 with arrivals := [], parts := [] })),
           xfers := [], net := [], links := [], qs := { s.qs with invs := [] } }

/-- The module enters FAULTED (R461, R462): movable islands stopped and gated with scratchpads kept, dirty lines written back, HBM in
self-refresh, the alert status set. -/
def enterFaulted (fault : Nat) (s : State) : State :=
  if s.mode = .off ∨ s.mode = .faulted then s
  else
    let s := stopEngines (flushCaches (gateMovable s))
    { s with mode := .faulted, pm := { s.pm with fault := fault, carrierRuns := false },
             power := { s.power with selfRefresh := true, alertFaulted := true, parking := false, unparking := false, unparkRan := false },
             courier := dropHold s.courier }

/-! ### Taking ways out of service (R309, R310, R439) -/

/-- Begin a clean of some ways; the departing ones power down when it completes. -/
def beginClean (die : Nat) (ways departing : List Nat) (s : State) : State :=
  let c := getCache s die
  setCache s die { c with cleaning := ways.foldl setIns c.cleaning, departing := departing.foldl setIns c.departing,
                          walk := c.walk ++ ways.filter (fun w => !(c.walk.contains w)) }

/-- The placement of the region that a way belongs to. -/
def wayPlacement (c : DieCache) (way : Nat) : Option Placement := (tabFind c.wayRegion way).bind (tabFind c.placement)

/-- The tags of a way: one for each line of a direct way, one for each set of a sectored one (R302, R303). -/
def wayTags (c : DieCache) (way : Nat) : Nat := if wayPlacement c way = some .direct then 65536 else 8192

/-- The lines under one tag of a way: a line, or the sectors of an entry. -/
def tagLines (c : DieCache) (way tag : Nat) : List (Nat × CacheLine) :=
  linesWhere c (fun l e => decide (e.way = way) &&
    (if wayPlacement c way = some .direct then decide (l % 65536 = tag) else decide (l / 8 % 8192 = tag)))

/-- The walk of a clean passes tags, one after another: what lies under a tag leaves the cache, dirty lines through the eviction buffer, and the
walk waits where that has no room for them (R306, R309). -/
def walkTags (now : Nat) : Nat → DieCache → DieCache
  | 0, c => c
  | n + 1, c =>
    match c.walk with
    | [] => c
    | w :: rest =>
      let v := tagLines c w c.walkTag
      if 64 < c.evb.length + (v.filter (·.2.dirty)).length then c
      else
        let c := evictLines c now true v
        walkTags now n (if c.walkTag + 1 < wayTags c w then { c with walkTag := c.walkTag + 1 } else { c with walk := rest, walkTag := 0 })

/-- The ways that a change of a region's ways cleans (R310). -/
def cleanedFor (c : DieCache) (way : Nat) : List Nat :=
  match tabFind c.wayRegion way with
  | none => if setHas c.powered way then [way] else []
  | some r =>
    match tabFind c.placement r with
    | some .direct => waysOf c r
    | _ => [way]

/-- The margin history's entry of an island. -/
def marginEntry (s : State) (n : Nat) : MarginEntry := tabGet marginEntryReset s.pm.record.islands n

/-- Change an island's entry of the margin history, in the record and in the Postmaster's copy (R449, R480). -/
def updMargin (s : State) (n : Nat) (f : MarginEntry → MarginEntry) : State :=
  let put := fun (r : ModRecord) => { r with islands := tabSet marginEntryReset r.islands n (f (tabGet marginEntryReset r.islands n)) }
  { s with pm := { s.pm with record := put s.pm.record, copy := s.pm.copy.map put } }

/-- Take a cache way out of service (R439): marked, recorded, logged, cleaned and powered down. -/
def retireWay (die way reason : Nat) (s : State) : State :=
  let c := getCache s die
  if setHas c.faulty way then s
  else
    let s := setCache s die { c with faulty := setIns c.faulty way }
    let s := updMargin s (islIx die 124) (fun e => { e with retired := true, reason := if bitOf e.reason way then e.reason else e.reason + 2 ^ way })
    let s := { s with plan := { s.plan with retired := s.plan.retired + 1, retiredThisRun := s.plan.retiredThisRun + 1 } }
    let s := logEvent .cacheWayRetired (islIx die 124) (leBytes 1 way ++ leBytes 1 reason) s
    beginClean die (cleanedFor c way) [way] s

/-- Count an uncorrectable data error of a way: two within 24 hours retire it (R439). -/
def noteWayError (die way : Nat) (s : State) : State :=
  let c := getCache s die
  let recent := (c.wayErrors.filter (fun e => decide (s.devTime < e.1 + 86400000000000))) ++ [(s.devTime, way)]
  let s := setCache s die { c with wayErrors := recent }
  if 2 ≤ (recent.filter (fun e => decide (e.2 = way))).length then retireWay die way 3 s else s

/-- What a tag check does (R308, R439); the second answer says that the module has faulted. -/
def tagCheck (die : Nat) (t : TagOutcome) (s : State) : State × Bool :=
  match t with
  | .clean => (s, false)
  | .corrected => (setCache s die { getCache s die with corrected := inc64 (getCache s die).corrected 1 }, false)
  | .oneCopyLost way => (retireWay die way.val 3 s, false)
  | .bothLost way set =>
    let s := logEvent .mscTagLost (islIx die 124) (leBytes 1 way.val ++ leBytes 4 set) s
    let c := getCache s die
    (enterFaulted 3 (setCache s die { c with lines := (tagLines c way.val set).foldl (fun t e => tabDel t e.1) c.lines }), true)

/-! ### The codes of a granule (R295–R298, R308) -/

/-- Bits of a word, each kept where it stands an odd number of times: a bit that flips twice reads right. -/
def oddBits (l : List (Fin 72)) : List (Fin 72) := l.foldl (fun t b => if t.contains b then t.erase b else t ++ [b]) []

/-- The wrong bits of word w of a granule. -/
def wordFlips (l : List WordError) (w : Nat) : List (Fin 72) := oddBits ((l.filter (fun e => e.word.val == w)).flatMap (·.flips))

/-- What a word's check says of it, and the bits that it is delivered with wrong: one error is corrected and two are detected; the outcome of more
is the code's own. -/
def wordCheck (poisoned : Bool) (flips : List (Fin 72)) : EccOutcome × List (Fin 72) :=
  match poisoned, flips with
  | false, [] => (.clean, [])
  | false, [_] => (.corrected, [])
  | false, [_, _] => (.uncorrectable, flips)
  | _, _ =>
    match Config.eccMany poisoned flips with
    | none => (.uncorrectable, flips)
    | some none => (.clean, flips)
    | some (some b) => (.corrected, oddBits (flips ++ [b]))

/-- What the checks of a granule's eight words say: how many are corrected, whether the granule is uncorrectable, and the data bits, 0 to 511, that
are delivered wrong. A poisoned granule of which only some words give the syndrome of poison is uncorrectable (R297). -/
def granuleCheck (poisoned : Bool) (l : List WordError) : Nat × Bool × List Nat :=
  let words := (List.range 8).map (wordFlips l)
  if words.all (fun f => f.isEmpty) then (0, false, [])
  else
    let outs := words.map (wordCheck poisoned)
    let bad := outs.any (fun o => decide (o.1 = .uncorrectable)) || (poisoned && words.any (fun f => f.isEmpty))
    let out := if poisoned && bad then words else outs.map (·.2)
    (if bad then 0 else (outs.filter (fun o => decide (o.1 = .corrected))).length, bad,
     (List.range 8).flatMap (fun w => ((out.getD w []).filter (fun b => decide (b.val < 64))).map (fun b => w * 64 + b.val)))

/-- Bytes with some of their bits flipped. -/
def flipBits (l : List Byte) (bits : List Nat) : List Byte :=
  bits.foldl (fun b i => setNth b (i / 8) (b.getD (i / 8) 0 ^^^ BitVec.ofNat 8 (2 ^ (i % 8)))) l

/-! ### The DRAM (R295–R298) -/

/-- A bit of a word lies on an erased lane of its pseudo-channel, and is decoded as an erasure (R296). -/
def onErased (m : McState) (pc w : Nat) (b : Fin 72) : Bool :=
  m.fixes.any (fun f => f.erased && decide (f.channel = pc / 2) && decide (f.lane = pc % 2 * 32 + Config.eccLane w b))

/-- The errors of a granule without those on erased lanes. -/
def seenErrors (m : McState) (pc : Nat) (l : List WordError) : List WordError :=
  l.map (fun e => { e with flips := e.flips.filter (fun b => !onErased m pc e.word.val b) })

/-- What the checks of one granule's read do (R298): corrected words are counted and written back corrected; an uncorrectable granule is logged and
rewritten with its data as read and with poison. -/
def dramCheck (s : State) (g : Nat) (l : List WordError) : State :=
  let stack := stackOf (g * 64)
  let r := granuleCheck (memPoison s (g * 64)) (seenErrors (getMc s stack) (pseudoOf (g * 64)) l)
  let s := if r.2.2 = [] then s
    else memWrite s (g * 64) ((flipBits (memBytes s (g * 64) 64) r.2.2).map (fun b => (b, memPoison s (g * 64))))
  if r.2.1 then
    logEvent .hbmUncorrectable (islOfMc stack) (leBytes 8 (g * 64))
      (setMemPoison (updMc s stack (fun m => { m with uncorrected := inc64 m.uncorrected 1 })) (g * 64) true)
  else updMc s stack (fun m => { m with corrected := inc64 m.corrected r.1 })

/-- The checks of the DRAM's granules that an access reads. -/
def dramChecks (gs : List Nat) (errs : List HbmError) (s : State) : State :=
  forEach (errs.filter (fun e => !e.inCache && gs.contains e.granule)) (fun e t => dramCheck t e.granule e.words) s

/-- Read bytes of one line from the DRAM, with the errors met. -/
def dramRead (s : State) (a n : Nat) (errs : List HbmError) : PData × State :=
  let s := dramChecks (granulesOf a n) errs s
  (memRead s a n, updMc s (stackOf a) (fun m => { m with rdBytes := inc64 m.rdBytes n }))

/-! ### One access of one line -/

/-- One error of a cached line's data. -/
def cacheError (die line : Nat) (e : HbmError) (s : State) : State :=
  let c := getCache s die
  match tabFind c.lines line with
  | none => s
  | some l =>
    let r := granuleCheck false e.words
    let lo := e.granule % 4 * 64
    let l := { l with bytes := l.bytes.take lo ++ flipBits (sliceAt l.bytes lo 64) r.2.2 ++ l.bytes.drop (lo + 64) }
    if !r.2.1 then setCache s die { c with lines := tabPut c.lines line l, corrected := inc64 c.corrected r.1 }
    else if l.dirty then
      noteWayError die l.way (logEvent .mscUncorrectable (islIx die 124) (leBytes 8 (e.granule * 64))
        (setCache s die { c with lines := tabPut c.lines line { l with poison := setNth l.poison (e.granule % 4) true } }))
    else
      noteWayError die l.way (logEvent .mscCleanDropped (islIx die 124) (leBytes 8 (e.granule * 64))
        (setCache s die { c with lines := tabDel c.lines line }))

/-- The errors of a cached line's data (R308): corrected words are counted, a dirty granule is poisoned, a clean line is dropped. -/
def cacheCheck (die line : Nat) (errs : List HbmError) (s : State) : State :=
  forEach (errs.filter (fun e => e.inCache && decide (e.granule / 4 = line))) (cacheError die line) s

/-- What a read that misses allocates (R304): a whole line, or a background fill of it. -/
def readAllocates (die : Nat) (region : Option Nat) (a n : Nat) (d : PData) (s : State) : State :=
  let c := getCache s die
  let line := a / 256
  match region with
  | none => s
  | some r =>
    if n = 256 then
      match allocLine c s.devTime r line false (d.map (·.1)) ((List.range 4).map (fun g => memPoison s (line * 256 + g * 64))) with
      | some c => setCache s die c
      | none => s
    else if c.fills.any (fun f => decide (f.line = line)) || (placeFor c r line).isNone then s
    else setCache s die { c with fills := c.fills ++ [{ line := line, region := r, since := s.devTime }] }

/-- A read within one line at its home stop (R290, R301–R308): its data, whether the cache or the eviction buffer served it, and the state
after. -/
def lineRead (s : State) (region : Option Nat) (a n : Nat) (errs : List HbmError) : (PData × Bool) × State :=
  let line := a / 256
  let die := dieOfStack (stackOf a)
  let s := cacheCheck die line errs s
  let c := getCache s die
  match tabFind c.lines line with
  | some e => ((lineSlice e.bytes e.poison (a % 256) n, true), setCache s die (touchLine c line e))
  | none =>
    match findEvb c line with
    | some e => ((lineSlice e.bytes e.poison (a % 256) n, true), s)
    | none =>
      let (d, s) := dramRead s a n errs
      ((d, false), readAllocates die region a n d s)

/-- The granules that a write merges at the controller by a read-modify-write: those of which it covers part of a word (R290). -/
def mergedGranules (a n : Nat) : List Nat :=
  (granulesOf a n).filter (fun g => (a % 8 != 0 && g == a / 64) || ((a + n) % 8 != 0 && g == (a + n) / 64))

/-- Write bytes of one line to the DRAM: partial words are merged, which reads their granules and checks them (R290, R298). -/
def dramWrite (s : State) (a : Nat) (d : PData) (errs : List HbmError) : State :=
  let s := dramChecks (mergedGranules a d.length) errs s
  updMc (memWrite s a d) (stackOf a) (fun m => { m with wrBytes := inc64 m.wrBytes d.length })

/-- Merge a write into a line of the cache or an entry of the eviction buffer; none where neither holds it (R305, R306). -/
def mergeHeld (c : DieCache) (a : Nat) (d : PData) : Option DieCache :=
  let line := a / 256
  match tabFind c.lines line with
  | some e => some (touchLine c line { e with dirty := true, bytes := mergeBytes e.bytes (a % 256) d, poison := mergeMarks e.poison (a % 256) d })
  | none =>
    if (findEvb c line).isSome then
      some { c with evb := c.evb.map (fun e =>
        if e.line = line then { e with bytes := mergeBytes e.bytes (a % 256) d, poison := mergeMarks e.poison (a % 256) d } else e) }
    else none

/-- A write within one line at its home stop (R290, R305–R307): whether the cache or the eviction buffer held it, and the state after. -/
def lineWrite (s : State) (region : Option Nat) (a : Nat) (d : PData) (errs : List HbmError) : Bool × State :=
  let line := a / 256
  let die := dieOfStack (stackOf a)
  let s := cacheCheck die line errs s
  let c := cancelFill (getCache s die) line
  match mergeHeld c a d with
  | some c => (true, setCache s die c)
  | none =>
    let s := setCache s die c
    match region with
    | none => (false, dramWrite s a d errs)
    | some r =>
      if d.length = 256 then
        match allocLine c s.devTime r line true (d.map (·.1)) (mergeMarks [false, false, false, false] 0 d) with
        | some c2 => if allocated c c2 then (false, setCache s die c2) else (false, dramWrite (setCache s die c2) a d errs)
        | none => (false, dramWrite s a d errs)
      else (false, dramWrite s a d errs)

/-! ### One access: bytes within one 2 KiB unit (R287) -/

/-- Read the lines of an access: the data, and whether every line was held. -/
def linesReadGo (region : Option Nat) (errs : List HbmError) : List (Nat × Nat) → State → (PData × Bool) × State
  | [], s => (([], true), s)
  | (a, n) :: t, s =>
    let (r, s) := lineRead s region a n errs
    let (q, s) := linesReadGo region errs t s
    ((r.1 ++ q.1, r.2 && q.2), s)

/-- A read of one access; a stack out of service answers poisoned zeros (R293). -/
def accessRead (s : State) (region : Option Nat) (a n : Nat) (errs : List HbmError) : PData × State :=
  if stackOffline s (stackOf a) then (marked (zeros n), offlineAccess a s)
  else
    let (r, s) := linesReadGo region errs (linePieces a n) s
    (r.1, countAccess (dieOfStack (stackOf a)) r.2 s)

/-- Write the lines of an access, of data that begin at an address. -/
def linesWriteGo (region : Option Nat) (errs : List HbmError) (at_ : Nat) (d : PData) : List (Nat × Nat) → State → Bool × State
  | [], s => (true, s)
  | (a, n) :: t, s =>
    let (h, s) := lineWrite s region a (sliceAt d (a - at_) n) errs
    let (q, s) := linesWriteGo region errs at_ d t s
    (h && q, s)

/-- A write of one access; a stack out of service drops it (R293). -/
def accessWrite (s : State) (region : Option Nat) (a : Nat) (d : PData) (errs : List HbmError) : State :=
  if stackOffline s (stackOf a) then offlineAccess a s
  else
    let (h, s) := linesWriteGo region errs a d (linePieces a d.length) s
    countAccess (dieOfStack (stackOf a)) h s

/-! ### Requests of any length -/

/-- Read HBM: one access for each unit. -/
def hbmReadGo (region : Option Nat) (errs : List HbmError) : List (Nat × Nat) → State → PData × State
  | [], s => ([], s)
  | (a, n) :: t, s =>
    let (d, s) := accessRead s region a n errs
    let (e, s) := hbmReadGo region errs t s
    (d ++ e, s)

def hbmRead (s : State) (region : Option Nat) (a n : Nat) (errs : List HbmError) : PData × State :=
  hbmReadGo region errs (unitPieces a n) s

/-- Write HBM: one access for each unit. -/
def hbmWrite (s : State) (region : Option Nat) (a : Nat) (d : PData) (errs : List HbmError) : State :=
  forEach (unitPieces a d.length) (fun p t => accessWrite t region p.1 (sliceAt d (p.1 - a) p.2) errs) s

/-- What HBM holds at an address, wherever it is held: cache, eviction buffer or DRAM. -/
def hbmPeek (s : State) (a : Nat) : PByte :=
  let c := getCache s (dieOfStack (stackOf a))
  match tabFind c.lines (a / 256) with
  | some e => (e.bytes.getD (a % 256) 0, e.poison.getD (a % 256 / 64) false)
  | none =>
    match findEvb c (a / 256) with
    | some e => (e.bytes.getD (a % 256) 0, e.poison.getD (a % 256 / 64) false)
    | none => (memByte s a, memPoison s a)

/-! ### Atomics (R291) -/

/-- The new value of an operand of w bits. -/
def atomicResult (op : AtomicOp) (w old x cmp : Nat) : Nat :=
  match op with
  | .add => (old + x) % 2 ^ w
  | .swap => x % 2 ^ w
  | .cas => if old = cmp % 2 ^ w then x % 2 ^ w else old
  | .and => old &&& (x % 2 ^ w)
  | .or => old ||| (x % 2 ^ w)
  | .umin => min old (x % 2 ^ w)
  | .umax => max old (x % 2 ^ w)

/-- An atomic on a held operand: its old value and mark, and its line after; a poisoned one does not change. -/
def heldAtomic (c : DieCache) (bytes : List Byte) (poison : List Bool) (op : AtomicOp) (a n x cmp : Nat) : (Nat × Bool) × DieCache :=
  let d := lineSlice bytes poison (a % 256) n
  let old := leNat (d.map (·.1))
  if d.any (·.2) then ((old, true), c)
  else ((old, false), (mergeHeld (cancelFill c (a / 256)) a (clean (leBytes n (atomicResult op (8 * n) old x cmp)))).getD c)

/-- An atomic on an operand that only the DRAM holds: its granule is read, changed and written back, and not allocated. -/
def dramAtomic (s : State) (op : AtomicOp) (a n x cmp : Nat) (errs : List HbmError) : (Nat × Bool) × State :=
  let s := (dramRead s (a / 64 * 64) 64 errs).2
  let old := leNat (memBytes s a n)
  if memPoison s a then ((old, true), s)
  else
    let die := dieOfStack (stackOf a)
    let s := setCache s die (cancelFill (getCache s die) (a / 256))
    ((old, false), updMc (memWrite s a (clean (leBytes n (atomicResult op (8 * n) old x cmp)))) (stackOf a)
      (fun m => { m with wrBytes := inc64 m.wrBytes 64 }))

/-- Perform an atomic at the home stop, as one access (R291): the old value, its mark, and the state after. A stack out of service answers a
poisoned zero and changes nothing (R293). -/
def hbmAtomic (s : State) (op : AtomicOp) (a n x cmp : Nat) (errs : List HbmError) : (Nat × Bool) × State :=
  let die := dieOfStack (stackOf a)
  if stackOffline s (stackOf a) then ((0, true), offlineAccess a s)
  else
    let s := cacheCheck die (a / 256) errs s
    let c := getCache s die
    match tabFind c.lines (a / 256), findEvb c (a / 256) with
    | some e, _ =>
      let (r, c) := heldAtomic c e.bytes e.poison op a n x cmp
      (r, countAccess die true (setCache s die c))
    | none, some e =>
      let (r, c) := heldAtomic c e.bytes e.poison op a n x cmp
      (r, countAccess die true (setCache s die c))
    | none, none =>
      let (r, s) := dramAtomic s op a n x cmp errs
      (r, countAccess die false s)

/-! ### Order and slots (R288, R290, R294) -/

/-- Two ranges share a 256-byte line. -/
def linesMeet (a n b m : Nat) : Bool := overlaps (a / 256) ((a + n - 1) / 256 - a / 256 + 1) (b / 256) ((b + m - 1) / 256 - b / 256 + 1)

/-- A waiting transfer of a pseudo-channel: an access at the stop, or a write-back of the die's eviction buffer. -/
structure Rival where
  cls : Nat
  since : Nat
  passed : Nat
  slots : Nat
deriving DecidableEq, Repr

/-- Every line of a range is held: the access uses no pin time. -/
def allHeld (s : State) (a n : Nat) : Bool := (linePieces a n).all (fun p => holdsLine (getCache s (dieOfStack (stackOf a))) (p.1 / 256))

/-- The slots of 64 bytes that an access takes. -/
def slotsFor (n : Nat) : Nat := (n + 63) / 64

/-- A write-back waits on a pseudo-channel of a stack. -/
def backOn (stack pc : Nat) (e : EvbEntry) : Bool := decide (stackOf (e.line * 256) = stack) && decide (pseudoOf (e.line * 256) = pc)

/-- An access waits for the DRAM of a pseudo-channel. -/
def accessOn (s : State) (pc : Nat) (r : Arrived) : Bool := decide (pseudoOf r.addr = pc) && !allHeld s r.addr r.len

/-- What waits on a pseudo-channel of a stack. -/
def rivals (s : State) (stack pc : Nat) : List Rival :=
  ((getMc s stack).arrivals.filter (accessOn s pc)).map (fun r => { cls := r.cls, since := r.since, passed := r.passed, slots := slotsFor r.len }) ++
  ((getCache s (dieOfStack stack)).evb.filter (backOn stack pc)).map (fun e => { cls := 3, since := e.since, passed := e.passed, slots := 4 })

/-- The weight of a class in the applied blend (R58). -/
def classWeight (s : State) (k : Nat) : Nat :=
  let c := s.blend.cur.classes
  if k = 1 then c.weightFirst else if k = 2 then c.weightSecond else c.weightBulk

def Wheel.left (w : Wheel) (k : Nat) : Nat := if k = 1 then w.first else if k = 2 then w.second else w.bulk
def Wheel.setLeft (w : Wheel) (k n : Nat) : Wheel :=
  if k = 1 then { w with first := n } else if k = 2 then { w with second := n } else { w with bulk := n }

/-- Deficit round robin over the classes that wait (R288): the class to serve with the slots its transfer takes, and the wheel after. A class in turn
with too few slots left, or none waiting, passes the turn, and the next one gains its weight. -/
def roundRobin (s : State) (need : Nat → Option Nat) : Nat → Wheel → Option (Nat × Wheel)
  | 0, _ => none
  | n + 1, w =>
    let k := w.turn
    let pass := fun (w : Wheel) => let j := k % 3 + 1; { w.setLeft j (w.left j + classWeight s j) with turn := j }
    match need k with
    | none => roundRobin s need n (pass (w.setLeft k 0))
    | some c => if c ≤ w.left k then some (k, w.setLeft k (w.left k - c)) else roundRobin s need n (pass w)

/-- The wheel after a transfer of a class takes its slots on a pseudo-channel; none where other transfers come first: Express before every class, First,
Second and Bulk in turn, and within a class the oldest, which younger ones pass at most 4 times. -/
def takeSlots (s : State) (stack pc : Nat) (r : Rival) : Option Wheel :=
  let l := rivals s stack pc
  let w := tabGet wheelReset (getMc s stack).wheels pc
  let older := l.filter (fun o => decide (o.cls = r.cls) && decide (o.since < r.since))
  if older.any (fun o => decide (4 ≤ o.passed)) then none
  else if r.cls = 0 then some w
  else if l.any (fun o => o.cls == 0) then none
  else
    let need := fun k => if k = r.cls then some r.slots else (l.find? (fun o => o.cls == k)).map (·.slots)
    match roundRobin s need 128 w with
    | some (k, w) => if k = r.cls then some w else none
    | none => some w

/-- A transfer of a class takes its slots: the wheel turns, and the older transfers of its class are passed. -/
def passOlder (stack pc : Nat) (r : Rival) (w : Wheel) (s : State) : State :=
  let die := dieOfStack stack
  let bump := fun (since passed : Nat) => if since < r.since then passed + 1 else passed
  let c := getCache s die
  let pass := fun (e : Arrived) => if e.cls = r.cls ∧ accessOn s pc e then { e with passed := bump e.since e.passed } else e
  let s := updMc s stack (fun m => { m with wheels := tabSet wheelReset m.wheels pc w, arrivals := m.arrivals.map pass })
  if r.cls ≠ 3 then s
  else setCache s die { c with evb := c.evb.map (fun e => if backOn stack pc e then { e with passed := bump e.since e.passed } else e) }

/-- A range of HBM that an access of some class reaches now: no channel of it is paused, no earlier access waits at one of its lines, and its turn
has come at every pseudo-channel whose DRAM it needs. -/
def hbmReady (s : State) (cls a n : Nat) : Bool :=
  (unitPieces a n).all (fun p =>
    !channelPaused s p.1 && (getMc s (stackOf p.1)).arrivals.all (fun e => !linesMeet e.addr e.len p.1 p.2) &&
    (allHeld s p.1 p.2 ||
      (takeSlots s (stackOf p.1) (pseudoOf p.1) { cls := cls, since := s.devTime, passed := 0, slots := slotsFor p.2 }).isSome))

/-- A range of any length that no earlier access and no paused channel holds (R290, R294). -/
def rangeFree (s : State) (a n : Nat) : Bool :=
  (List.range 12).all (fun k =>
    let m := getMc s k
    !overlaps a n (k * stackSize) stackSize ||
      (m.arrivals.all (fun e => !linesMeet e.addr e.len a n) && (if n < 65536 then !rangePaused s a n else m.pause.isNone)))

/-- Direct accesses to a range take their turns. -/
def hbmTurn (cls a n : Nat) (s : State) : State :=
  forEach (unitPieces a n) (fun p t =>
    let r : Rival := { cls := cls, since := t.devTime, passed := 0, slots := slotsFor p.2 }
    if allHeld t p.1 p.2 then t
    else match takeSlots t (stackOf p.1) (pseudoOf p.1) r with
      | some w => passOlder (stackOf p.1) (pseudoOf p.1) r w t
      | none => t) s

end Sys2Proof.Machine
end

