-- ==== Sys2Proof/Machine/Sem.lean ====
section
/-! DEFINITION. Who is where, semaphores and link rings: what every family of run-time commands shares (R49, R210-R218). -/

namespace Sys2Proof.Machine

/-! ### Logical and physical cores, partitions (R15, R45, R51) -/

/-- The physical core linked to a logical core. -/
def physOf (s : State) (l : Nat) : Option Nat := tabFind s.blend.cur.spare l

/-- The logical core linked to a physical core. -/
def logicalOf (s : State) (p : Nat) : Option Nat := (s.blend.cur.spare.find? (fun e => decide (e.2 = p))).map (·.1)

/-- A partition of the applied structure. -/
def getPart (s : State) (pid : Nat) : Option Partition := tabFind s.blend.cur.parts pid

/-- The partition of a logical core, with its ID. -/
def partOf (s : State) (l : Nat) : Option (Nat × Partition) :=
  s.blend.cur.parts.find? (fun e => decide (e.1 / 32 = l / 80) && e.2.cores.contains (l % 80))

/-- The partition of a grinder. -/
def partOfGrinder (s : State) (g : Nat) : Option (Nat × Partition) :=
  s.blend.cur.parts.find? (fun e => decide (e.1 / 32 = g / 16) && bitOf e.2.grinderMask (g % 16))

/-- The partition of a physical core. -/
def partOfPhys (s : State) (p : Nat) : Option (Nat × Partition) := (logicalOf s p).bind (partOf s)

/-- Offsets below this one lie in the stream-buffer and stationary areas (R48, R192). -/
def opArea (s : State) (phys : Nat) : Nat :=
  match partOfPhys s phys with
  | some (_, q) => (q.streamUnits + q.stationaryUnits) * 131072
  | none => 0

/-! ### Invocations and queues -/

def getQ (s : State) (q : Nat) : QueueState := tabGet queueReset s.qs.queues q
def setQ (s : State) (q : Nat) (x : QueueState) : State :=
  { s with qs := { s.qs with queues := tabSet queueReset s.qs.queues q x } }
def updQ (s : State) (q : Nat) (f : QueueState → QueueState) : State := setQ s q (f (getQ s q))
def getInv (s : State) (i : Nat) : Option Invocation := tabFind s.qs.invs i
def setInv (s : State) (i : Nat) (x : Invocation) : State := { s with qs := { s.qs with invs := tabPut s.qs.invs i x } }
def updInv (s : State) (i : Nat) (f : Invocation → Invocation) : State :=
  match getInv s i with
  | none => s
  | some x => setInv s i (f x)

/-- The physical cores of an invocation, by rank. -/
def invPhys (s : State) (x : Invocation) : List Nat := x.cores.filterMap (physOf s)

/-- Every core of a resident invocation is blocked: held by a wait with nothing in its units (R207, R371). -/
def coreBlocked (c : Core) : Bool := c.wait.isSome && c.window == [] && decide (c.phase = .running)

/-- Set or clear the time since which an invocation has been blocked. -/
def refreshBlocked (i : Nat) (s : State) : State :=
  updInv s i (fun x =>
    if decide (x.state = .resident) && (invPhys s x).all (fun p => coreBlocked (getCore s p)) then
      { x with blockedSince := if x.blockedSince.isNone then some s.devTime else x.blockedSince }
    else { x with blockedSince := none })

/-! ### Semaphores (R210-R214) -/

def getSem (s : State) (i : Nat) : Semaphore := tabGet semReset s.sems i
def setSem (s : State) (i : Nat) (x : Semaphore) : State := { s with sems := tabSet semReset s.sems i x }
def semMax : Nat := 16777215

/-- The network-segment island that holds a semaphore (R210). -/
def semIsland (i : Nat) : Nat := islIx (i / 65536) (106 + i % 65536 % 9)

/-- The owner of a semaphore: the partition in whose range it lies; none for a Carrier semaphore (R49). -/
def semOwner (s : State) (i : Nat) : Option Nat :=
  (s.blend.cur.parts.find? (fun e =>
    decide (e.1 / 32 = i / 65536) && decide (e.2.semBase ≤ i % 65536) && decide (i % 65536 < e.2.semBase + 64 * e.2.semUnits))).map (·.1)

/-- A take is granted to its waiter. -/
def grantTo (w : Waiter) (s : State) : State :=
  match w with
  | .core p _ =>
    let c := getCore s p
    let s := setCore s p { c with wait := none, pc := (c.pc + 32) % 2 ^ 48 }
    let s := updIsl s (islOfCore p) (fun i => { i with power := 2, gatedSince := none })
    match c.inv with
    | some i => refreshBlocked i s
    | none => s
  | .stream die l _ =>
    { s with links := tabUpd linkRunReset s.links (die * 4096 + l) (fun r => { r with waiting := false, granted := true }) }
  | .grinder g l n =>
    { s with grinders := tabUpd grinderReset s.grinders g (fun x =>
        { x with takes := setDel x.takes l, granted := tabSet 0 x.granted l (tabGet 0 x.granted l + n) }) }

def waiterCount : Waiter → Nat
  | .core _ n => n
  | .stream _ _ n => n
  | .grinder _ _ n => n

/-- Grant from the oldest, as far as the value reaches (R211): granted, left waiting, and the value left. -/
def grantGo : List Waiter → Nat → List Waiter × List Waiter × Nat
  | [], v => ([], [], v)
  | w :: t, v =>
    if waiterCount w ≤ v then
      let (g, r, u) := grantGo t (v - waiterCount w)
      (w :: g, r, u)
    else ([], w :: t, v)

/-- Give a semaphore a value and grant its waiters. -/
def semSettle (i v : Nat) (waiters : List Waiter) (s : State) : State :=
  let (g, r, u) := grantGo waiters v
  forEach g grantTo (setSem s i { value := u, waiters := r })

/-- A post of count n (R212). -/
def semPost (i n : Nat) (s : State) : State :=
  let x := getSem s i
  let s := if semMax < x.value + n then logEvent .semOverflow (semIsland i) (leBytes 4 i) s else s
  semSettle i (min semMax (x.value + n)) x.waiters s

/-- A set (R212). -/
def semSet (i v : Nat) (s : State) : State := semSettle i v (getSem s i).waiters s

/-- A take: granted at once, or the waiter joins (R211). -/
def semTake (i n : Nat) (w : Waiter) (s : State) : Bool × State :=
  let x := getSem s i
  if x.waiters = [] ∧ n ≤ x.value then (true, setSem s i { x with value := x.value - n })
  else (false, setSem s i { x with waiters := x.waiters ++ [w] })

/-- A waiter leaves; the waiters behind it are granted what the value satisfies (R211). -/
def semLeave (i : Nat) (w : Waiter) (s : State) : State :=
  let x := getSem s i
  semSettle i x.value (x.waiters.filter (fun y => decide (y ≠ w))) s

/-- A semaphore that a partition's SEM ops may reach (R49): its own range, or a Carrier semaphore. -/
def semReach (s : State) (pid i : Nat) : Bool :=
  match semOwner s i with
  | none => true
  | some p => p == pid

/-! ### Links (R54, R213-R218) -/

def getLink (s : State) (l : Nat) : LinkRun := tabGet linkRunReset s.links l
def setLink (s : State) (l : Nat) (x : LinkRun) : State := { s with links := tabSet linkRunReset s.links l x }
def linkDef (s : State) (l : Nat) : Option LinkDef := tabFind s.blend.cur.links l

/-- The physical core at a link's core end. -/
def endPhys (s : State) (die : Nat) (e : LinkEnd) : Option Nat := if e.grinder then none else physOf s (die * 80 + e.unit)

/-- The grinder at an end of a link of a die. -/
def endGrinder (die : Nat) (e : LinkEnd) : Option Nat := if e.grinder then some (die * 16 + e.unit % 16) else none

/-- A grinder's end of a link returns to the ring's start, and its take there is gone (R213, R221, R232). -/
def resetEnd (l : Nat) (g : Option Nat) (s : State) : State :=
  match g with
  | none => s
  | some g =>
    { s with grinders := tabUpd grinderReset s.grinders g (fun x =>
        { x with linkPos := tabSet 0 x.linkPos (l % 4096) 0, takes := setDel x.takes (l % 4096), granted := tabSet 0 x.granted (l % 4096) 0 }) }

def resetEnds (l : Nat) (d : LinkDef) (s : State) : State :=
  resetEnd l (endGrinder (l / 4096) d.consumer) (resetEnd l (endGrinder (l / 4096) d.producer) s)

/-- Give a link's semaphores their starting values and drop their waiters; a grinder's end starts anew (R213). -/
def resetLinkSems (l : Nat) (d : LinkDef) (s : State) : State :=
  let die := l / 4096
  let s := resetEnds l d s
  setSem (setSem s (die * 65536 + d.semFull) semReset) (die * 65536 + d.semEmpty) { value := d.ringKib * 16, waiters := [] }

/-- Links whose producer is a core, on the port given, whose ring or send copy meets a range of that core's scratchpad. -/
def feedingLinks (s : State) (logical port off n : Nat) : List (Nat × LinkDef) :=
  s.blend.cur.links.filter (fun e =>
    decide (e.1 / 4096 = logical / 80) && !e.2.producer.grinder && decide (e.2.producer.port = port) &&
    decide (e.2.producer.unit = logical % 80) && !e.2.consumer.grinder && decide (e.2.consumer.unit ≠ logical % 80) &&
    overlaps e.2.ringOffset (e.2.ringKib * 1024) off n)

/-- Data sent to another core's scratchpad: it wakes a clock-gated core, and does not reach a power-gated one (R30). -/
def sendScr (phys off : Nat) (d : PData) (s : State) : State :=
  if (getIsl s (islOfCore phys)).power = 0 then s else scrWrite (wakeIsl (islOfCore phys) s) phys off d

/-- A core's port writes its scratchpad: what falls in a link's send copy is forwarded to the consumer's ring (R215). -/
def portWrite (phys port off : Nat) (d : PData) (s : State) : State :=
  let s' := scrWrite s phys off d
  match logicalOf s phys with
  | none => s'
  | some l =>
    forEach (feedingLinks s l port off d.length) (fun e t =>
      match physOf s (l / 80 * 80 + e.2.consumer.unit) with
      | none => t
      | some cp =>
        let lo := max off e.2.ringOffset
        let hi := min (off + d.length) (e.2.ringOffset + e.2.ringKib * 1024)
        sendScr cp lo (scrRead s' phys lo (hi - lo)) t) s'

/-! ### The window -/

/-- An op leaves the issue window (R189). -/
def retireOp (phys seq : Nat) (s : State) : State :=
  let c := getCore s phys
  let s := setCore s phys { c with window := c.window.filter (fun o => o.seq != seq) }
  match c.inv with
  | some i => refreshBlocked i s
  | none => s

def findOp (c : Core) (seq : Nat) : Option IssuedOp := c.window.find? (fun o => o.seq == seq)

/-- Raise flags in `FP_STATUS` and in the invocation's receipt (R96). -/
def raiseFlags (phys flags : Nat) (s : State) : State :=
  let c := getCore s phys
  let s := setCore s phys { c with fpStatus := c.fpStatus ||| flags }
  match c.inv with
  | some i => updInv s i (fun x => { x with fpFlags := x.fpFlags ||| flags })
  | none => s

/-! ### Early ends (R205, R363) -/

/-- Unissued ops are gone: the mode and the chain that a next MAT op meets are those of the last MAT op still in the window, or of the arrays as
they stand (R116, R121). -/
def keepIssued (c : Core) : Core :=
  match (c.window.filter (fun o => opClass o.word == 0)).getLast? with
  | some o => { c with issueMode := opSub o.word, chain := c.chain.bind (fun k => if k.seq = o.seq then some k else none) }
  | none => { c with issueMode := c.arrMode, chain := none }

/-- The transfers of a core's MOV ops that are no longer in its window are gone: nothing of them had been sent. -/
def dropGone (phys : Nat) (s : State) : State :=
  let c := getCore s phys
  { s with xfers := s.xfers.filter (fun e => match e.2.owner with | .mov p n => p != phys || (findOp c n).isSome | _ => true) }

/-- Stop a core for an early end: nothing more issues, unstarted ops and unfired posts are dropped, its wait leaves. -/
def stopCore (phys : Nat) (s : State) : State :=
  let c := getCore s phys
  let s := match c.wait with
    | some w => semLeave w.sem (.core phys w.count) s
    | none => s
  let started := c.window.filter (fun o => o.started && opClass o.word != 4)
  dropGone phys (updCore s phys (fun c =>
    keepIssued { c with phase := .faulted, wait := none, window := started, withdrawn := [], endedAt := some s.devTime, stall := none }))

/-- Record the first early end of an invocation and stop its cores; a switched-out one loses its save slot. -/
def endEarly (i : Nat) (st : Status) (code : Nat) (s : State) : State :=
  match getInv s i with
  | none => s
  | some x =>
    if x.early.isSome then s
    else
      let (st, code) := if x.refused then (.segmentFault, 0) else (st, code)
      let s := setInv s i { x with early := some (st, code), blockedSince := none }
      match x.state with
      | .switchedOut =>
        let s := setInv s i { x with early := some (st, code), state := .resident, slot := none, done := x.cores }
        match x.slot with
        | some k =>
          { s with qs := { s.qs with savedCores := tabDel s.qs.savedCores i, pools := (tabFind s.qs.pools x.partition).elim s.qs.pools
                                       (fun p => tabPut s.qs.pools x.partition { p with used := setDel p.used k }) } }
        | none => s
      | _ => forEach ((invPhys s x).filter (fun p => (getCore s p).inv == some i)) stopCore s

/-- Record a fault in `SEQ_FAULT` (R205). -/
def recordFault (phys code cls addr : Nat) (s : State) : State :=
  updCore s phys (fun c => if c.fault.valid then c else { c with fault := { code := code, cls := cls, valid := true, addr := addr } })

/-- An invalid op: recorded, logged, and the invocation ends ABORTED (R205). -/
def tileFault (phys code cls addr : Nat) (s : State) : State :=
  let s := recordFault phys code cls addr s
  match (getCore s phys).inv with
  | none => s
  | some i => endEarly i .aborted code (logEvent .tileFault (islOfCore phys) (leBytes 1 code ++ leBytes 8 addr ++ leBytes 8 i) s)

end Sys2Proof.Machine
end

