-- ==== Sys2Proof/Machine/Xfer.lean ====
section
/-! DEFINITION. Translation, transfers and their pieces, fault records and cancellations (R31-R36, R224, R311-R322, R335-R341). -/

namespace Sys2Proof.Machine

/-! ### Segments (R311-R315) -/

def getSeg (s : State) (ctx i : Nat) : SegEntry := tabGet segEntryReset s.seg.entries (ctx * 64 + i)
def segCovers (e : SegEntry) (va : Nat) : Bool :=
  decide (e.home ≠ .empty) && decide (e.vstart ≤ va) && decide (va < e.vstart + e.length)

/-- The segment of a context that covers an address. -/
def covering (s : State) (ctx va : Nat) : Option (Nat × SegEntry) :=
  ((List.range 64).map (fun i => (i, getSeg s ctx i))).find? (fun e => segCovers e.2 va)

/-- The rights that a kind of access needs (R313). -/
def grants (e : SegEntry) : AccessKind → Bool
  | .read => e.read
  | .write => e.write
  | .atomic => e.atomic

/-- Stack, scratchpad, host or peer: the parts of the device address map (R31). -/
inductive DevPlace where
  | hbm (a : Nat)
  | scratch (logical off : Nat)
  | host (h a : Nat)
  | peer (slot off : Nat)
  | nowhere
deriving DecidableEq, Repr

def placeOf (a : Nat) : DevPlace :=
  if a < hbmTop then .hbm a
  else if scratchBase ≤ a ∧ a < scratchTop then .scratch ((a - scratchBase) / scratchSize) (a % scratchSize)
  else if hostBase ≤ a ∧ a < hostTop then .host ((a - hostBase) / 2 ^ 39) ((a - hostBase) % 2 ^ 39)
  else if peerBase ≤ a ∧ a < peerTop ∧ (a - peerBase) % peerSlot < hbmTop then .peer ((a - peerBase) / peerSlot) ((a - peerBase) % peerSlot)
  else .nowhere

/-! ### Engines (R314) -/

/-- The engine of a physical core, or of a grinder. -/
def engineOfPhys (s : State) (p : Nat) : Nat := (logicalOf s p).getD 0
def engineOfGrinder (g : Nat) : Nat := 160 + g
def engineIsland (s : State) (e : Nat) : Nat := if e < 160 then islOfCore ((physOf s e).getD 0) else islOfGrinder (e - 160)
def engineStop (s : State) (e : Nat) : NetDest := if e < 160 then .core ((physOf s e).getD 0) else .grinder (e - 160)

def engineCache (s : State) (e : Nat) : List SegCached := tabGet [] s.seg.caches e

/-- The cached entry that covers an address. -/
def cacheLookup (s : State) (e ctx va : Nat) : Option SegCached :=
  (engineCache s e).find? (fun c => decide (c.context = ctx) && segCovers c.entry va)

/-- Pinned entries: those of the four segments most recently advised HOT among the resident ones (R316). -/
def pinnedKeys (s : State) (cs : List SegCached) : List Nat :=
  (s.seg.hotOrder.filter (fun k => cs.any (fun c => decide (c.context * 64 + c.index = k)) && (tabGet segEntryReset s.seg.entries k).hot)).take 4

/-- Put an entry in an engine's cache of 16, in place of the least recently used that is not pinned. -/
def cacheFill (s : State) (e ctx i : Nat) : State :=
  let cs := (engineCache s e).filter (fun c => !(decide (c.context = ctx) && decide (c.index = i)))
  let pins := pinnedKeys s cs
  let free := cs.filter (fun c => !pins.contains (c.context * 64 + c.index))
  let oldest := free.foldl (fun (m : Option SegCached) c => match m with
    | none => some c
    | some b => if c.stamp < b.stamp then some c else some b) none
  let cs := if cs.length < 16 then cs else match oldest with
    | some v => cs.filter (fun c => decide (c ≠ v))
    | none => cs.drop 1
  { s with seg := { s.seg with caches := tabSet [] s.seg.caches e
                                  (cs ++ [{ context := ctx, index := i, entry := getSeg s ctx i, stamp := s.seg.clock + 1 }]),
                               clock := s.seg.clock + 1 } }

/-! ### Transfers -/

def getXfer (s : State) (x : Nat) : Option Xfer := tabFind s.xfers x
def setXfer (s : State) (x : Nat) (v : Xfer) : State := { s with xfers := tabPut s.xfers x v }
def delXfer (s : State) (x : Nat) : State := { s with xfers := tabDel s.xfers x }
def updPiece (s : State) (x p : Nat) (f : Piece → Piece) : State :=
  match getXfer s x with
  | none => s
  | some v => match v.pieces[p]? with
    | none => s
    | some q => setXfer s x { v with pieces := setNth v.pieces p (f q) }
def getPiece (s : State) (x p : Nat) : Option (Xfer × Piece) :=
  (getXfer s x).bind (fun v => v.pieces[p]?.map (fun q => (v, q)))

/-- Split a virtual range into 4 KiB-aligned pieces (R313): address, length, offset from the start. -/
def splitRange (va n : Nat) : List (Nat × Nat × Nat) :=
  if n = 0 then [] else
    (List.range ((va + n - 1) / 4096 - va / 4096 + 1)).map (fun k =>
      let lo := max va ((va / 4096 + k) * 4096)
      let hi := min (va + n) ((va / 4096 + k + 1) * 4096)
      (lo, hi - lo, lo - va))

def mkPiece (va n near : Nat) : Piece :=
  { vaddr := va % 2 ^ 48, len := n, near := near, state := .missing, trans := none, daddr := 0 }

/-- The pieces of one row. -/
def rowPieces (far near n : Nat) : List Piece := (splitRange far n).map (fun e => mkPiece e.1 e.2.1 (near + e.2.2))

/-- A piece has come to its end. -/
def pieceOver (p : Piece) : Bool := decide (p.state = .landed) || decide (p.state = .ended)
def xferDone (x : Xfer) : Bool := x.pieces.all pieceOver

/-- A transfer with an external home: a host or a peer (R224). -/
def pieceExternal (p : Piece) : Bool :=
  match p.trans with
  | none => false
  | some _ => match placeOf p.daddr with | .host _ _ => true | .peer _ _ => true | _ => false
def xferExternal (x : Xfer) : Bool := x.pieces.any pieceExternal

/-- The bytes a write piece carries: from its payload or from its core's scratchpad. -/
def pieceData (s : State) (x : Xfer) (p : Piece) : PData :=
  if x.buffered then sliceAt x.payload p.near p.len
  else match physOf s x.engine with
    | some ph => scrRead s ph p.near p.len
    | none => clean (zeros p.len)

/-- Count poisoned granules that an invocation writes outside scratchpad (R227). -/
def countPoison (x : Xfer) (daddr : Nat) (d : PData) (s : State) : State :=
  if x.kind = .write then
    updInv s x.inv (fun i => { i with poisoned := satAdd 0xFFFFFFFF i.poisoned (countMarked daddr d) })
  else s

/-! ### Fault records (R318-R321) -/

def reasonCode : SegReason → Nat
  | .noSegment => 1 | .rights => 2 | .homeDown => 3 | .badPiece => 4

/-- Whether a pending record has a fault's key (R319); one that is resolving is joined no more (R321). -/
def sameKey (r : FaultRec) (ctx va : Nat) (seg : Option Nat) : Bool :=
  r.resolving.isNone && decide (r.context = ctx) &&
  (match r.segment, seg with
   | some a, some b => a == b
   | none, none => r.vaddr / 2 ^ 21 == va / 2 ^ 21
   | _, _ => false)

/-- Join or make a fault record; none where no record is free. -/
def raiseFault (e ctx va : Nat) (seg : Option Nat) (reason : SegReason) (kind : AccessKind) (s : State) : Option Nat × State :=
  let mark := fun (r : FaultRec) => { r with kindRead := r.kindRead || kind == .read, kindWrite := r.kindWrite || kind == .write,
                                             kindAtomic := r.kindAtomic || kind == .atomic,
                                             waiters := setIns r.waiters e }
  match s.seg.records.find? (fun r => sameKey r.2 ctx va seg) with
  | some (k, r) => (some k, { s with seg := { s.seg with records := tabPut s.seg.records k (mark r) } })
  | none =>
    match (List.range 32).find? (fun k => (tabFind s.seg.records k).isNone) with
    | some k =>
      let r : FaultRec := { vaddr := va, context := ctx, segment := seg, reason := reason, kindRead := false, kindWrite := false,
                            kindAtomic := false, postmark := s.devTime, waiters := [], resolving := none }
      (some k, { s with seg := { s.seg with records := tabPut s.seg.records k (mark r) } })
    | none =>
      (none, logLimited .segFaultFull (engineIsland s e) (leBytes 2 e) { s with seg := { s.seg with overflow := true } })

/-! ### Sending a piece -/

/-- The position of this module, where the manager has given it one (R381). -/
def modPosition (s : State) : Option Nat := s.courier.position

/-- Whether the module at a position of the ring can be reached (R383, R389). -/
def peerPresent (s : State) (slot : Nat) : Bool := s.courier.present.contains slot

/-- What stops an access to HBM: an offline stack, or the reservation (R38, R318). -/
def hbmFault (s : State) (h n : Nat) : Option SegReason :=
  if stackOffline s (stackOf h) then some .homeDown
  else match s.blend.reserve with
    | some k => if overlaps h n (k * stackSize + 0x5FE000000) 0x2000000 then some .badPiece else none
    | none => none

/-- What stops a piece under a translation: a reason of R318. The peer slot of this module's own position is its HBM (R33), and nothing reaches a
power-gated core (R30). -/
def placeFault (s : State) (a n : Nat) : Option SegReason :=
  match placeOf a with
  | .hbm h => hbmFault s h n
  | .scratch l _ =>
    match physOf s l with
    | some p => if (getIsl s (islOfCore p)).power = 0 then some .homeDown else none
    | none => some .homeDown
  | .host _ _ => none
  | .peer slot o => if some slot = modPosition s then hbmFault s o n else if peerPresent s slot then none else some .homeDown
  | .nowhere => some .homeDown

/-- Where a piece's packet goes; a peer slot that is this module's own goes to HBM (R33). Which port's stop takes a packet is open: a peer's
go to Courier port 0, and a host's to Gheklink port h mod 2, so that all to one peer or host keep their order. DESIGN CHOICE, log entry 64. -/
def pieceDest (s : State) (a : Nat) : NetDest × Nat :=
  match placeOf a with
  | .hbm h => (.stack (stackOf h), h)
  | .scratch l o => (.core ((physOf s l).getD 0), scratchKey ((physOf s l).getD 0) o)
  | .host h o => (.gkPort (h % 2), hostBase + h * 2 ^ 39 + o)
  | .peer slot o => if some slot = modPosition s then (.stack (stackOf o), o) else (.courierPort 0, a)
  | .nowhere => (.gkPort 0, a)

/-- The host of an address is registered (R336). -/
def hostServes (s : State) (a : Nat) : Bool :=
  match placeOf a with
  | .host h _ => decide ((tabGet hostStateReset s.host.hosts h).cond = .registered)
  | _ => true

/-- Mark what a read piece has not brought as poisoned, keeping the bytes (R224, R321); the marks go over links as writes do (R226). -/
def poisonPiece (x : Nat) (p : Piece) (s : State) : State :=
  match getXfer s x with
  | none => s
  | some v =>
    if v.kind = .write then s
    else if v.buffered then
      setXfer s x { v with payload := v.payload.take p.near ++ (sliceAt v.payload p.near p.len).map (fun b => (b.1, true)) ++
                                      v.payload.drop (p.near + p.len) }
    else match physOf s v.engine with
      | some ph => portWrite ph 0 p.near (marked (scrBytes s ph p.near p.len)) (poisonRange s (scratchKey ph p.near) p.len)
      | none => s

/-- End a piece without its data. -/
def endPiece (x p : Nat) (s : State) : State :=
  match getPiece s x p with
  | none => s
  | some (_, q) => if pieceOver q then s else updPiece (poisonPiece x q s) x p (fun q => { q with state := .ended })

/-- An earlier MOV of the core has not started: the DMA starts them in order (R188). -/
def behindMov (s : State) : XferOwner → Bool
  | .mov p n => (getCore s p).window.any (fun o => decide (o.seq < n) && opClass o.word == 2 && !o.started)
  | _ => false

/-- The DMA has issued the first read of a MOV's transfer: the op has started (R189). -/
def startMov (owner : XferOwner) (s : State) : State :=
  match owner with
  | .mov p n => updCore s p (fun c => { c with window := c.window.map (fun o => if o.seq = n ∧ opClass o.word = 2 then { o with started := true } else o) })
  | _ => s

/-- Send a piece under an entry of its context, or hold it at a fault. -/
def sendPiece (x p : Nat) (c : SegCached) (s : State) : State :=
  match getPiece s x p with
  | none => s
  | some (v, q) =>
    let a := c.entry.dbase + (q.vaddr - c.entry.vstart)
    let fault := fun r =>
      let (k, s) := raiseFault v.engine v.context q.vaddr (some c.index) r v.kind s
      updPiece s x p (fun q => { q with state := .held k, trans := none })
    if !grants c.entry v.kind then fault .rights
    else match placeFault s a q.len with
      | some r => fault r
      | none =>
        if !hostServes s a then endEarly v.inv .hostLost 0 (endPiece x p s)
        else
          let (dst, key) := pieceDest s a
          let s := startMov v.owner (updPiece s x p (fun q => { q with state := .sent, trans := some (c.index, c.entry.gen), daddr := key }))
          { s with net := s.net ++ [{ src := engineStop s v.engine, dst := dst, cls := v.cls, kind := .request, xfer := x, piece := p,
                                      data := if v.kind = .write then pieceData s v q else [] }] }

/-- Translate a piece: through the engine's cache, or it waits for the directory (R315). -/
def startPiece (x p : Nat) (s : State) : State :=
  match getPiece s x p with
  | none => s
  | some (v, q) =>
    if behindMov s v.owner then updPiece s x p (fun q => { q with state := .waiting })
    else match cacheLookup s v.engine v.context q.vaddr with
    | none => updPiece s x p (fun q => { q with state := .missing })
    | some c =>
      let cs := (engineCache s v.engine).map (fun d => if d = c then { d with stamp := s.seg.clock + 1 } else d)
      sendPiece x p c { s with seg := { s.seg with caches := tabSet [] s.seg.caches v.engine cs, clock := s.seg.clock + 1 } }

/-- Start the pieces of a transfer that wait behind another MOV. -/
def startWaiting (x : Nat) (s : State) : State :=
  match getXfer s x with
  | none => s
  | some v => forEach (List.range v.pieces.length) (fun p t =>
      match getPiece t x p with
      | some (_, q) => if q.state = .waiting then startPiece x p t else t
      | none => t) s

/-- A MOV that may start does: its pieces are looked up, or, with no piece to send, it reads at once. -/
def pumpMov (phys : Nat) (o : IssuedOp) (s : State) : State :=
  if opClass o.word ≠ 2 ∨ behindMov s (.mov phys o.seq) then s
  else
    match o.xfer with
    | none => startMov (.mov phys o.seq) s
    | some n =>
      match getXfer s n with
      | some v => if v.owner ≠ .mov phys o.seq then s else if v.pieces = [] then startMov (.mov phys o.seq) s else startWaiting n s
      | none => s

/-- A core's DMA goes on to the MOVs that may start now, in order. -/
def pumpMovs (phys : Nat) (s : State) : State := forEach (getCore s phys).window (pumpMov phys) s

/-- The DMA of the core whose MOV a transfer serves goes on. -/
def pumpXfer (x : Nat) (s : State) : State :=
  match getXfer s x with
  | some v => (match v.owner with | .mov p _ => pumpMovs p s | _ => s)
  | none => s

/-- Make a transfer and start its pieces; answer its number. -/
def newXfer (v : Xfer) (s : State) : Nat × State :=
  let x := s.nextXfer
  let s := { setXfer s x v with nextXfer := x + 1 }
  (x, forEach (List.range v.pieces.length) (fun p t => startPiece x p t) s)

/-- A transfer of an engine with nothing on the way yet. -/
def xferOf (s : State) (engine ctx inv : Nat) (owner : XferOwner) (kind : AccessKind) (cls : Nat) (region : Option Nat)
    (pieces : List Piece) : Xfer :=
  { engine := engine, context := ctx, inv := inv, owner := owner, kind := kind, cls := cls, region := region, pieces := pieces,
    lastLand := s.devTime, cancelled := false, failed := false, buffered := false, payload := [], sealed_ := none, checked := false }

/-! ### Landing -/

/-- A piece lands: a read's data go where the transfer puts them, and the marks among a write's data are counted. -/
def landPiece (x p : Nat) (d : PData) (s : State) : State :=
  match getPiece s x p with
  | none => s
  | some (v, q) =>
    if pieceOver q then s
    else
      let s :=
        if v.kind = .write then countPoison v q.daddr d s
        else if v.buffered then
          setXfer s x { v with payload := v.payload.take q.near ++ d ++ v.payload.drop (q.near + d.length) }
        else match physOf s v.engine with
          | some ph => portWrite ph 0 q.near d s
          | none => s
      let s := updPiece s x p (fun q => { q with state := .landed })
      match getXfer s x with
      | some w => setXfer s x { w with lastLand := s.devTime }
      | none => s

/-- Pieces not yet over. -/
def openPieces (v : Xfer) : List Nat := (List.range v.pieces.length).filter (fun p =>
  match v.pieces[p]? with | some q => !pieceOver q | none => false)

/-- The address by which a transfer is logged: its first piece's. -/
def xferAddr (v : Xfer) : Nat := match v.pieces with | q :: _ => q.vaddr | [] => 0

/-- Granules of a transfer that have not landed. -/
def openGranules (v : Xfer) : Nat :=
  ((openPieces v).map (fun p => match v.pieces[p]? with | some q => (granulesOf q.vaddr q.len).length | none => 0)).foldl (· + ·) 0

/-- Transfers of an invocation. -/
def xfersOfInv (s : State) (i : Nat) : List (Nat × Xfer) := s.xfers.filter (fun e => decide (e.2.inv = i))

/-- Resolve one piece held at a record with FAIL (R321). -/
def failHeld (k : Nat) (s : State) : State :=
  forEach s.xfers (fun e t =>
    forEach (List.range e.2.pieces.length) (fun p t =>
      match getPiece t e.1 p with
      | some (v, q) =>
        if q.state = .held (some k) then
          let t := startMov v.owner (endPiece e.1 p t)
          let t := match getXfer t e.1 with | some w => setXfer t e.1 { w with failed := true } | none => t
          endEarly v.inv .segmentFault 0 t
        else t
      | none => t) t) s

/-- Pieces held for want of a record try again once one is free (R319). -/
def retryUnrecorded (s : State) : State :=
  forEach s.xfers (fun e t =>
    forEach (List.range e.2.pieces.length) (fun p t =>
      match getPiece t e.1 p with
      | some (_, q) => if q.state = .held none then pumpXfer e.1 (startPiece e.1 p t) else t
      | none => t) t) s

/-- Free a record. -/
def freeRecord (k : Nat) (s : State) : State :=
  retryUnrecorded { s with seg := { s.seg with records := tabDel s.seg.records k } }

/-- FAIL a record (R321). -/
def failRecord (k : Nat) (s : State) : State := freeRecord k (failHeld k s)

/-- Pieces of a list that wait for the directory. -/
def stillMissing (s : State) (l : List (Nat × Nat)) : List (Nat × Nat) :=
  l.filter (fun e => match getPiece s e.1 e.2 with | some (_, q) => decide (q.state = .missing) | none => false)

/-- A resolving record is freed once every waiter has translated its pieces again (R321). -/
def settleRecord (k : Nat) (s : State) : State :=
  match tabFind s.seg.records k with
  | none => s
  | some r =>
    match r.resolving with
    | none => s
    | some l =>
      let left := stillMissing s l
      if left = [] then freeRecord k s
      else
        let ws := left.foldl (fun w e => match getXfer s e.1 with | some v => setIns w v.engine | none => w) []
        { s with seg := { s.seg with records := tabPut s.seg.records k { r with resolving := some left, waiters := ws } } }

def settleRecords (s : State) : State := forEach (s.seg.records.map (·.1)) settleRecord s

/-- RETRY a record (R321): its pieces translate again against the table; the record resolves until the last has. -/
def retryRecord (k : Nat) (s : State) : State :=
  match tabFind s.seg.records k with
  | none => s
  | some r =>
    let held := s.xfers.flatMap (fun e => ((List.range e.2.pieces.length).filter (fun p => match e.2.pieces[p]? with
      | some q => decide (q.state = .held (some k)) | none => false)).map (fun p => (e.1, p)))
    let s := { s with seg := { s.seg with records := tabPut s.seg.records k { r with resolving := some held } } }
    settleRecord k (forEach held (fun e t => pumpXfer e.1 (startPiece e.1 e.2 t)) s)

/-- Cancel a transfer (R224): what has not landed is poisoned and never sent, the transfer completes, and the stall is logged. -/
def cancelXfer (x : Nat) (s : State) : State :=
  match getXfer s x with
  | none => s
  | some v =>
    let island := engineIsland s v.engine
    let data := leBytes 8 (xferAddr v) ++ leBytes 4 (if v.kind = .write then 0 else openGranules v)
    let s := forEach (openPieces v) (fun p t => endPiece x p t) s
    let s := match getXfer s x with | some w => startMov w.owner (setXfer s x { w with cancelled := true }) | none => s
    let dropWrites := fun (l : List HostWrite) => l.filter (fun w => match w.for_ with | .piece y _ => y != x | _ => true)
    let s := { s with net := s.net.filter (fun k => k.xfer != x),
                      host := { s.host with ports := s.host.ports.map (fun e => (e.1, { e.2 with held := dropWrites e.2.held })) } }
    settleRecords (pumpXfer x (logEvent .streamStall island data s))

/-- Count a miss of an engine, in its island's `SEG_MISSES` (R315). -/
def countMiss (e : Nat) (s : State) : State :=
  let k := engineIsland s e
  { s with seg := { s.seg with misses := tabSet 0 s.seg.misses k (inc64 (tabGet 0 s.seg.misses k) 1) } }

/-- The directory serves a piece that missed (R315): the entry joins the cache, or the piece faults. -/
def fillMiss (x p : Nat) (s : State) : State :=
  match getPiece s x p with
  | none => s
  | some (v, q) =>
    let s := countMiss v.engine s
    settleRecords (match covering s v.context q.vaddr with
      | none =>
        let (k, s) := raiseFault v.engine v.context q.vaddr none .noSegment v.kind s
        updPiece s x p (fun q => { q with state := .held k })
      | some (i, _) => pumpXfer x (startPiece x p (cacheFill s v.engine v.context i)))

/-- The oldest piece of an engine that waits for the directory. -/
def oldestMiss (s : State) (e : Nat) : Option (Nat × Nat) :=
  (s.xfers.filter (fun x => decide (x.2.engine = e))).findSome? (fun x =>
    ((List.range x.2.pieces.length).find? (fun p => match x.2.pieces[p]? with | some q => decide (q.state = .missing) | none => false)).map
      (fun p => (x.1, p)))

/-! ### Translation ahead of use (R317) -/

/-- Keep the segment of an address resident in an engine's cache; an address in no segment costs nothing. -/
def prefetch (e ctx va : Nat) (s : State) : State :=
  match cacheLookup s e ctx va, covering s ctx va with
  | none, some (i, _) => cacheFill s e ctx i
  | _, _ => s

/-- Translate an address of a unit's own access: through the engine's cache, filled from the directory on a counted miss (R315). -/
def translate (e ctx va : Nat) (s : State) : Option SegEntry × State :=
  match cacheLookup s e ctx va with
  | some c => (some c.entry, s)
  | none =>
    let s := countMiss e s
    match covering s ctx va with
    | some (i, d) => (some d, cacheFill s e ctx i)
    | none => (none, s)

/-- A 4 KiB piece of HBM that a unit reaches at once through a context's segments: its device address, or no access. -/
def inlineAddr (s : State) (ctx va n : Nat) (kind : AccessKind) : Option Nat :=
  match covering s ctx va with
  | none => none
  | some (_, e) =>
    let a := e.dbase + (va - e.vstart)
    if grants e kind && segCovers e (va + n - 1) && decide (a + n ≤ hbmTop) && (hbmFault s a n).isNone then some a else none

end Sys2Proof.Machine
end

