-- ==== Sys2Proof/Machine/Issue.lean ====
section
/-! DEFINITION. Issue: when the sequencer issues, the static checks of every class with their fault codes, and what issuing does (R187-R206). -/

namespace Sys2Proof.Machine

/-- The codes whose conditions hold; the lowest is recorded (R205). -/
def lowestCode (l : List (Bool × Nat)) : Option Nat :=
  (l.filter (·.1)).foldl (fun m e => match m with | none => some e.2 | some c => some (min c e.2)) none

/-- All bytes of an op in some ranges are 0. -/
def opZero (w : Bits256) (rs : List (Nat × Nat)) : Bool := rs.all (fun r => opField w r.1 r.2 == 0)

/-- A range of the scratchpad inside the areas that ops may reach (R192). -/
def inArea (s : State) (phys : Nat) (r : Nat × Nat) : Bool := decide (r.1 + r.2 ≤ opArea s phys)

/-! ### MAT (R193, R125, R201, R205) -/

/-- What the next op will find kept on an array, by its class, mode and X: by the last MAT op in the window that uses it, else by the array
(R118, R205). -/
def expectKept (c : Core) (a : Nat) : Option (Nat × Nat × Int) :=
  let mats := c.window.filter (fun o => opClass o.word == 0 && bitOf (matOp o.word).mask a)
  match mats.getLast? with
  | some o => let m := matOp o.word; if m.handoff then none else some (m.cls, m.mode, m.x)
  | none => let k := tabGet arrAccReset c.acc a; if k.kept then some (k.cls, k.mode, k.x) else none

/-- A frame record read for the expander (R270). -/
def dzFrame (s : State) (phys : Nat) (c : Core) (at_ : Nat) : DzFrame :=
  let b := scrBytes s phys at_ 16
  { dz := nearRef c (fieldAt b 0 4), base := nearRef c (fieldAt b 4 4), encBytes := fieldAt b 8 4, flags := fieldAt b 0xC 1,
    first := fieldAt b 0xD 3 }

/-- Weight bytes of an op (R194, R271). -/
def weightBytes (o : MatOp) : Nat := if o.mode = 2 then o.pOrK * (if o.fp64 then 128 else 256) else o.pOrK * o.tile

/-- The scratchpad ranges that a MAT op's operands take. -/
def matRanges (o : MatOp) (r : MatRefs) (fr : DzFrame) : List (Nat × Nat) :=
  ((maskArrays o.mask).map (fun a =>
    (r.act + a * o.astride,
     if o.mode = 0 then (o.pOrK * o.q + 63) * o.line else if o.mode = 1 then o.pOrK * o.m * o.line else 32 * o.pOrK))) ++
  (if o.expander then
     [(r.weights, 16), (fr.dz, fr.encBytes)] ++ (if fr.hasBase then [(fr.base, weightBytes o)] else []) ++
     (if o.scaled_ then [(r.scales, o.pOrK * 64 * o.groups)] else [])
   else [(r.weights, if o.mode = 2 then weightBytes o else o.pOrK * o.tileStep)])

def matRefs (c : Core) (w : Bits256) : MatRefs :=
  { act := nearRef c (opField w 0xC 4), weights := nearRef c (opField w 0x10 4), epi := nearRef c (opField w 0x14 4),
    scales := nearRef c (opField w 0x18 4) }

/-- Whether an op changes the mode of the last MAT op issued (R121). -/
def changesMode (c : Core) (o : MatOp) : Bool := o.mode != c.issueMode

/-- The least bound of a MAT op (R201): the chain count, plus 256 for a change of mode. -/
def matMin (c : Core) (o : MatOp) : Nat := o.chainCount + (if changesMode c o then 256 else 0)

/-- The checks of a MAT op. -/
def matChecks (s : State) (phys : Nat) (c : Core) (w : Bits256) : Option Nat :=
  let o := matOp w
  let r := matRefs c w
  let fr := dzFrame s phys c r.weights
  let d := epiDesc s phys r.epi
  let flow := match partOfPhys s phys with | some (_, p) => p.dataflow | none => 2
  let wide := o.mode == 2
  let bad := decide (2 < o.mode)
  let fmtBad := !fmtValid o.fw || !fmtValid o.fa || !pairValid o.fw o.fa || ((o.cls == 3) != wide) ||
    (wide && decide (4 < o.nOrRound))
  let limit := o.mask == 0 || o.pOrK == 0 ||
    (if wide then decide (1018 < o.pOrK) else o.m == 0 || decide (64 < o.m) || (o.mode == 1 && (o.nOrRound == 0 || decide (64 < o.nOrRound))))
  let kept := (maskArrays o.mask).map (expectKept c)
  let wants := some (o.cls, o.mode, o.x)
  lowestCode
    [(bad, 0x01),
     (opFlags w / 32 != 0 || opField w 5 1 / 16 != 0 || (wide && (o.m != 0 || decide (8 ≤ o.nOrRound))) ||
      (o.mode == 0 && o.nOrRound != 0) || (!o.handoff && opField w 0x14 4 != 0) ||
      (!(o.scaled_ && o.expander) && opField w 0x18 4 != 0) || opField w 0x1C 4 / 2 ^ 22 != 0 ||
      nearReserved (opField w 0xC 4) || nearReserved (opField w 0x10 4) || nearReserved (opField w 0x14 4) ||
      nearReserved (opField w 0x18 4), 0x02),
     (fmtBad, 0x03),
     ((flow == 0 && o.mode == 1) || (flow == 1 && o.mode == 0), 0x04),
     (limit || (!bad && !fmtBad && decide (4096 < matMin c o)), 0x05),
     (decide (4096 < opBound w) || (!bad && !fmtBad && !limit && decide (opBound w < matMin c o)) || opBound w == 0, 0x06),
     ((fmtIsInt o.fw && o.x != 0) || decide (o.x < -256) || decide (127 < o.x) ||
      (o.cont && kept.any (fun k => decide (k ≠ wants))) || (!o.handoff && o.post), 0x07),
     (o.handoff && (r.epi % 64 != 0 || (inArea s phys (r.epi, 64) && (scrPoisoned s phys r.epi 64 || !d.fieldsOk o))), 0x08),
     ((o.expander && ((o.mode == 0 && o.cls == 2 && decide (16 ≤ fmtBits o.fw)) || weightBytes o % 4096 != 0 ||
        (inArea s phys (r.weights, 16) && (fr.flags / 2 != 0 || fr.dz % 16 != 0 || fr.encBytes % 16 != 0 ||
          nearReserved (scrNat s phys r.weights 4) || (fr.hasBase && nearReserved (scrNat s phys (r.weights + 4) 4)) ||
          scrPoisoned s phys r.weights 16)))) ||
      (o.scaled_ && (wide || fmtIsInt o.fw || decide (16 ≤ fmtBits o.fw))), 0x09),
     (!(matRanges o r fr).all (inArea s phys) || (o.expander && r.weights % 16 != 0) ||
      (o.handoff && (!inArea s phys (r.epi, 64) || !(d.ranges o).all (inArea s phys))), 0x0B)]

/-! ### VEC, MOV, GRD (R195-R198) -/

/-- The stages that a VEC op names, from its partition's library. -/
def opChain (s : State) (phys : Nat) (w : Bits256) : List Bits256 :=
  match partOfPhys s phys with
  | some (_, p) => sliceAt p.stages (opField w 4 1) (min (opField w 5 1 % 16) (256 - opField w 4 1))
  | none => []

/-- The arrays whose tile queues a stream block names. -/
def queueArrays (b : VBlock) : List Nat := (List.range 4).filter (fun a => b.ins.any (fun i => i.mode != 0 && i.queue && i.arr == a))

/-- The stream block and the chain of a VEC op keep R184, but for what its queue entries bring. -/
def vecBlockOk (s : State) (phys near : Nat) (b : VBlock) (w : Bits256) : Bool :=
  let chain := opChain s phys w
  let count := opField w 5 1 % 16
  let fp64 := match chain with | d :: _ => stFp64 d | [] => false
  vecOk b chain count && decide (1 ≤ count) && decide (count ≤ 8) && near % 64 == 0 &&
  (vecAreas b fp64 chain).all (fun l => l.all (inArea s phys))

/-- The checks of a VEC op at issue. Where no stream waits for a queue entry, which gives C, the bound is held to C here (R201). -/
def vecChecks (s : State) (phys : Nat) (c : Core) (w : Bits256) : Option Nat :=
  let near := nearRef c (opField w 8 4)
  let b := vBlock s phys near
  let least := if inArea s phys (near, 64) && queueArrays b == [] && vecBlockOk s phys near b w then vecCount b (opChain s phys w) else 1
  lowestCode
    [(opSub w != 0, 0x01),
     (opFlags w != 0 || opField w 5 1 / 16 != 0 || nearReserved (opField w 8 4) || !opZero w [(6, 2), (0xC, 20)], 0x02),
     (decide (opBound w < least) || decide (4096 < least) || opBound w == 0 || decide (4096 < opBound w), 0x06),
     (!inArea s phys (nearRef c (opField w 8 4), 64), 0x0B)]

/-- The near rows of a MOV: start and length. -/
def movRows (o : MovOp) (near : Nat) : List (Nat × Nat) :=
  if o.skew then [(near, (o.rows + 63) * o.rowBytes)]
  else (List.range o.rows).map (fun r => (near + r * o.nearStride, o.rowBytes))

def movChecks (s : State) (phys : Nat) (c : Core) (w : Bits256) : Option Nat :=
  let o := movOp w
  let near := nearRef c o.near
  let src := nearRef c (o.far % 2 ^ 32)
  let pid := ((partOfPhys s phys).map (·.1)).getD 0
  let nearUsed := o.kind != 4
  let farUsed := o.kind != 2 && o.kind != 3
  let fill := o.kind == 3 || o.kind == 4
  lowestCode
    [(decide (4 < o.kind) || (o.skew && o.kind != 0 && o.kind != 2) || (o.unsealed && o.kind != 0), 0x01),
     (opFlags w / 4 != 0 || (nearUsed && nearReserved o.near) || (farUsed && farReserved o.far) ||
      (!farUsed && o.far / 2 ^ 32 != 0) || (o.kind == 2 && nearReserved (o.far % 2 ^ 32)) || opField w 0x15 3 / 2 ^ 22 != 0 ||
      (o.unsealed && o.farStride / 2 ^ 16 != 0) || bitsOf (opField w 0x1C 3) 22 17 != 0 || opField w 0x1F 1 != 0, 0x02),
     (o.rowBytes == 0 || decide (4194304 < o.rowBytes) || o.rows == 0 ||
      (o.skew && (!([32, 48, 64, 128].contains o.rowBytes) || o.nearStride != 0)) ||
      (fill && (o.rowBytes % 4 != 0 || (if o.kind = 3 then o.nearStride else o.farStride) % 4 != 0)) ||
      (o.unsealed && (o.rows != 1 || o.skew || o.nearStride != 0 || farRef c o.far % 16 != 0 || o.rowBytes % 16 != 0)), 0x05),
     (decide (opBound w < 8) || decide (4096 < opBound w), 0x06),
     ((nearUsed && !(movRows o near).all (inArea s phys)) ||
      (o.kind == 2 && !((List.range o.rows).map (fun r => (src + r * o.farStride, o.rowBytes))).all (inArea s phys)), 0x0B),
     (match o.done with | some d => !semReach s pid d | none => false, 0x0C)]

def grdChecks (s : State) (phys : Nat) (w : Bits256) : Option Nat :=
  let part := partOfPhys s phys
  let pid := (part.map (·.1)).getD 0
  let mask := (part.map (·.2.grinderMask)).getD 0
  lowestCode
    [(opSub w != 0, 0x01),
     (opFlags w != 0 || farReserved (grdDesc w) || bitsOf (opField w 0x10 3) 22 17 != 0 || !opZero w [(5, 3), (0x13, 13)], 0x02),
     (decide (opBound w < 8) || decide (4096 < opBound w), 0x06),
     (match grdDone w with | some d => !semReach s pid d | none => false, 0x0C),
     (decide (16 ≤ grdGrinder w) || !bitOf mask (grdGrinder w), 0x0D)]

/-! ### SEM and CTL (R199, R200, R206) -/

def semChecks (s : State) (phys : Nat) (w : Bits256) : Option Nat :=
  let pid := ((partOfPhys s phys).map (·.1)).getD 0
  let sub := opSub w
  lowestCode
    [(decide (2 < sub), 0x01),
     (opFlags w != 0 || opField w 4 4 / 2 ^ 17 != 0 || (sub == 1 && semArg w / 16 != 0) || (sub == 2 && semArg w != 0) ||
      !opZero w [(0xC, 20)], 0x02),
     (decide (sub < 2) && semCount w == 0, 0x05),
     (decide (opBound w < 4) || decide (4096 < opBound w), 0x06),
     (!semReach s pid (semId w) || (sub == 2 && semOwner s (semId w) != some pid), 0x0C)]

/-- Reserved bytes of a CTL op, by sub-op. -/
def ctlReserved (w : Bits256) : Bool :=
  match opSub w with
  | 0 => opFlags w != 0 || !opZero w [(4, 28)]
  | 1 => opFlags w != 0 || opField w 4 1 / 4 != 0 || opField w 5 1 / 64 != 0 || !opZero w [(6, 2), (0xC, 4)]
  | 2 => opFlags w / 4 != 0 || opField w 4 1 / 8 != 0 || opField w 5 1 / 4 != 0 || !opZero w [(6, 2), (0x14, 12)]
  | 3 => opFlags w != 0 || opField w 4 1 / 8 != 0 || nearReserved (opField w 8 4) || !opZero w [(5, 3), (0xC, 20)]
  | 4 => opFlags w != 0 || farReserved (opField w 8 8) || !opZero w [(6, 2), (0x18, 8)]
  | 5 | 6 => opFlags w / 2 != 0 || opField w 4 1 / 4 != 0 || !opZero w [(5, 3)] ||
    (List.range (rangeCount w)).any (fun i => bitsOf (rangeAt w i).1 30 25 != 0)
  | 7 => opFlags w != 0 || opField w 5 1 / 4 != 0 || nearReserved (opField w 8 4) || !opZero w [(6, 2), (0xC, 20)]
  | _ => false

/-- The LOOP target, in ops. -/
def loopTarget (w : Bits256) : Int := toSigned 32 (opField w 8 4)

/-- The ranges that a CHEAP or LIVE op leaves declared. -/
def declared (c : Core) (w : Bits256) : List LiveRange :=
  (if opSub w = 5 then [] else c.live) ++ (List.range (rangeCount w)).map (fun i => liveRange (rangeAt w i))

/-- The rules of R206 on a declaration. -/
def liveOk (s : State) (phys : Nat) (c : Core) (w : Bits256) : Bool :=
  let l := declared c w
  let spill := match partOfPhys s phys with | some (_, p) => p.spillUnits * 131072 | none => 0
  (List.range (rangeCount w)).all (fun i => let e := (rangeAt w i).1; bitOf e 31 || bitsOf e 24 22 == 0) &&
  l.all (fun r => inArea s phys (r.start, r.length)) &&
  (List.range l.length).all (fun i => (List.range i).all (fun j =>
    match l[i]?, l[j]? with
    | some a, some b => !overlaps a.start a.length b.start b.length
    | _, _ => true)) &&
  decide (((l.filter (fun r => !r.reload)).map (·.length)).foldl (· + ·) 0 + fixedState c ≤ spill)

/-- The die-wide number of the link that an ARM names. -/
def armLink (s : State) (phys : Nat) (w : Bits256) : Nat := ((logicalOf s phys).getD 0) / 80 * 4096 + opField w 4 2

def armOk (s : State) (phys : Nat) (w : Bits256) : Bool :=
  let l := (logicalOf s phys).getD 0
  let len := opField w 0x10 8
  match linkDef s (armLink s phys w) with
  | none => false
  | some d =>
    let mine := fun (e : LinkEnd) => !e.grinder && e.unit == l % 80
    decide (opField w 4 2 < 4096) && (mine d.producer || mine d.consumer) && d.persistent &&
    ((!d.producer.grinder && d.producer.port == 0) || (!d.consumer.grinder && d.consumer.port == 0)) &&
    len % 64 == 0 && decide (len ≤ 2 ^ 40)

def ctlChecks (s : State) (phys : Nat) (c : Core) (w : Bits256) : Option Nat :=
  let sub := opSub w
  let dbg := partOfPhys s phys
  let live := sub == 6
  lowestCode
    [(decide (7 < sub) || decide (5 < opClass w) || (sub == 7 && decide (1 < opField w 4 1)), 0x01),
     (ctlReserved w, 0x02),
     (sub == 1 && (decide (0 < loopTarget w) || decide (loopTarget w < -65536)), 0x05),
     (decide (opBound w < (if sub = 7 ∧ opField w 4 1 = 0 then 200 else 4)) || decide (4096 < opBound w), 0x06),
     ((sub == 3 && (nearRef c (opField w 8 4) % 8 != 0 || !inArea s phys (nearRef c (opField w 8 4), 8))) ||
      (sub == 7 && opField w 4 1 == 0 && !inArea s phys (nearRef c (opField w 8 4), 34368)), 0x0B),
     (sub == 4 && !armOk s phys w, 0x0E),
     (sub == 7 && (match dbg with
        | some (_, p) => if opField w 4 1 = 0 then !p.accumVisible else !p.singleStep
        | none => true), 0x0F),
     ((live && (match c.liveMore with | some n => decide (3 ≤ n) | none => true)) ||
      ((sub == 5 || live) && !liveOk s phys c w), 0x10)]

/-- The lowest fault code of an op. -/
def opChecks (s : State) (phys : Nat) (c : Core) (w : Bits256) : Option Nat :=
  match opClass w with
  | 0 => matChecks s phys c w
  | 1 => vecChecks s phys c w
  | 2 => movChecks s phys c w
  | 3 => grdChecks s phys w
  | 4 => semChecks s phys w
  | _ => ctlChecks s phys c w

/-! ### Chains (R103, R116, R117, R203) -/

/-- Cycles from the start of an op to the first at which its chain's successor acts (R203): the shadow load of the successor's first row, or of
its first activation block. -/
def joinBy (o : MatOp) : Nat := if o.mode = 1 then o.t * ((o.pOrK - 1) * o.q + 65) else o.t * (o.pOrK * o.q)

/-- A MAT op that follows another of its chain (R116). -/
def chainWith (k : ChainRef) (o : MatOp) : Bool :=
  decide (o.mode < 2) && k.mode == o.mode && k.cls == o.cls && k.m == o.m && k.mask == o.mask && k.n == o.n

/-- Whether a MAT op that is issued now joins the chain of the one issued before it: that op has not started, or its attempt in progress has not
come to the cycle of R203; one that is about to be replayed has its rerun ahead of it: DEDUCED, log entry 65. -/
def joinsChain (s : State) (phys : Nat) (c : Core) (o : MatOp) : Bool :=
  match c.chain with
  | none => false
  | some k =>
    chainWith k o &&
    (match findOp c k.seq with
     | none => false
     | some p =>
       !p.started || p.abandoned ||
       (match [c.mat, c.matNext].findSome? (fun r => r.bind (fun r => if r.seq = k.seq then some r else none)) with
        | none => true
        | some r => r.draining || decide (islTicks s (islOfCore phys) ≤ r.since + ticksOf (joinBy (matOp p.word)))))

/-! ### Effects of issue -/

/-- PC past the op. -/
def nextPc (c : Core) : Nat := (c.pc + 32) % 2 ^ 48

/-- The frame record of an expander op, as a list. -/
def frameOf (s : State) (phys : Nat) (c : Core) (w : Bits256) : List Nat :=
  if opClass w = 0 ∧ (matOp w).expander then
    let f := dzFrame s phys c (nearRef c (opField w 0x10 4))
    [f.dz, f.base, f.encBytes, f.flags, f.first]
  else []

/-- Where an op's first scratchpad reference stands, by class. -/
def nearAt (w : Bits256) : Nat := match opClass w with | 1 => 8 | 2 => 4 | _ => 0xC
/-- And its second. -/
def near2At (w : Bits256) : Nat := if opClass w = 2 then 8 else 0x10

/-- An op takes a place in the window. -/
def pushOp (phys : Nat) (w : Bits256) (started : Bool) (s : State) : State :=
  updCore s phys (fun c =>
    let o : IssuedOp :=
      { seq := c.nextSeq, addr := c.pc, word := w, started := started, issuedAt := s.devTime, frame := frameOf s phys c w,
        near := nearRef c (opField w (nearAt w) 4), near2 := nearRef c (opField w (near2At w) 4), near3 := nearRef c (opField w 0x14 4),
        near4 := nearRef c (opField w 0x18 4), far := farRef c (opField w 8 8), startedAt := islTicks s (islOfCore phys), count := 0,
        joins := opClass w == 0 && joinsChain s phys c (matOp w), abandoned := false,
        fence := if opClass w = 4 then
                   (c.window.filter (fun p => decide (opClass p.word < 4) && bitOf (semArg w) (opClass p.word))).map (·.seq) else [],
        xfer := none, extra := 0 }
    { c with window := c.window ++ [o], nextSeq := c.nextSeq + 1, pc := nextPc c, stall := none })

/-- The partition's cache region for its transfers (R45). -/
def regionOf (s : State) (phys : Nat) : Option Nat :=
  match partOfPhys s phys with | some (_, p) => p.cacheRegion | none => none

/-- The class of an invocation's traffic. -/
def invClass (s : State) (i : Nat) : Nat := match getInv s i with | some x => x.cls | none => 3
def invContext (s : State) (i : Nat) : Nat := match getInv s i with | some x => x.context | none => 0

/-- The pieces of a MOV between the scratchpad and far memory. -/
def movPieces (o : MovOp) (near far : Nat) : List Piece :=
  if o.unsealed then rowPieces far 0 (o.rowBytes + 40)
  else if o.skew ∨ o.kind = 4 then
    ((List.range o.rows).map (fun r => rowPieces ((far + r * o.farStride) % 2 ^ 48) (r * o.rowBytes) o.rowBytes)).flatten
  else ((List.range o.rows).map (fun r => rowPieces ((far + r * o.farStride) % 2 ^ 48) (near + r * o.nearStride) o.rowBytes)).flatten

/-- A 32-bit pattern over n bytes. -/
def patternBytes (v n : Nat) : List Byte := (List.range n).map (fun i => BitVec.ofNat 8 (v / 256 ^ (i % 4)))

/-- The key that an `UNSEAL` transfer uses, where its handle is bound to the context (R285). -/
def unsealKey (s : State) (ctx handle : Nat) : Option Bits256 :=
  match tabFind s.pm.keys handle with
  | some k => if k.context = ctx ∧ handle < 4096 then some k.key else none
  | none => none

/-- Attach a transfer to an op of the window. -/
def attachTo (phys seq x : Nat) (s : State) : State :=
  updCore s phys (fun c => { c with window := c.window.map (fun o => if o.seq = seq then { o with xfer := some x } else o) })

/-- Make the transfer of a MOV op that stands in the window; the op starts with its first read, behind the MOVs before it (R188, R189, R196). -/
def beginMov (phys : Nat) (p : IssuedOp) (s : State) : State :=
  let c := getCore s phys
  let o := movOp p.word
  let i := c.inv.getD 0
  let ctx := invContext s i
  let e := engineOfPhys s phys
  let base := xferOf s e ctx i (.mov phys p.seq) (if o.kind = 0 then .read else .write) (invClass s i) (regionOf s phys)
  let x : Option Xfer :=
    match o.kind with
    | 0 =>
      let key := if o.unsealed then some (unsealKey s ctx (o.farStride % 2 ^ 16)) else none
      let ps := if key = some none then [] else movPieces o p.near p.far
      some { base ps with buffered := o.skew || o.unsealed, sealed_ := key,
                          payload := if o.skew then clean (zeros (o.rows * o.rowBytes))
                                     else if o.unsealed then clean (zeros (o.rowBytes + 40)) else [] }
    | 1 => some (base (movPieces o p.near p.far))
    | 4 => some { base (movPieces o p.near p.far) with buffered := true, payload := clean (patternBytes o.near (o.rows * o.rowBytes)) }
    | _ => none
  pumpMovs phys (match x with
    | some x => let (n, s) := newXfer x s; attachTo phys p.seq n s
    | none => s)

/-- A MOV op is issued: it takes its place in the window and its transfer is made. -/
def issueMov (phys : Nat) (w : Bits256) (s : State) : State :=
  let s := pushOp phys w false s
  match (getCore s phys).window.getLast? with
  | some p => beginMov phys p s
  | none => s

/-- A grinder takes a batch (R198, R238): its descriptor is read. -/
def issueGrd (phys : Nat) (w : Bits256) (s : State) : State :=
  let c := getCore s phys
  let i := c.inv.getD 0
  let g := ((logicalOf s phys).getD 0) / 80 * 16 + grdGrinder w
  let far := farRef c (grdDesc w)
  let seq := c.nextSeq
  let s := pushOp phys w true s
  let gr := tabGet grinderReset s.grinders g
  let id := gr.nextId
  let x := { xferOf s (engineOfGrinder g) (invContext s i) i (.batch g id) .read (invClass s i) (regionOf s phys) (rowPieces far 0 64) with
               buffered := true, payload := clean (zeros 64) }
  let (n, s) := newXfer x s
  let b : Batch :=
    { id := id, inv := i, context := invContext s i, cls := invClass s i, region := regionOf s phys, core := phys, opSeq := seq,
      done := grdDone w, phase := .queued, desc := none, binding := none, xfers := [n], ring := [], lens := [], idx := [], wgt := [],
      next := 0, applied := 0, outstanding := [], resident := [], data := [], reads := 0, lookups := 0, forced := none, rows := [], rowsOut := 0,
      unposted := 0, recorded := false }
  { s with grinders := tabSet grinderReset s.grinders g { tabGet grinderReset s.grinders g with
             queue := (tabGet grinderReset s.grinders g).queue ++ [b], nextId := id + 1 } }

/-- A SEM op is issued (R199). -/
def issueSem (phys : Nat) (w : Bits256) (s : State) : State :=
  let c := getCore s phys
  let id := semId w
  match opSub w with
  | 0 =>
    let (ok, s) := semTake id (semCount w) (.core phys (semCount w)) s
    if ok then updCore s phys (fun c => { c with pc := nextPc c })
    else
      let s := updCore s phys (fun c => { c with wait := some { sem := id, count := semCount w, timeoutUs := semArg w,
                                                                since := s.devTime, addr := c.pc, granted := false } })
      match c.inv with
      | some i => refreshBlocked i s
      | none => s
  | 1 =>
    if semArg w = 0 then semPost id (semCount w) (updCore s phys (fun c => { c with pc := nextPc c }))
    else pushOp phys w true s
  | _ => semSet id (semCount w) (updCore s phys (fun c => { c with pc := nextPc c }))

/-- Write an address register; x0 ignores writes (R186). -/
def setReg (c : Core) (n : Nat) (v : Dword) : Core := if n = 0 then c else { c with xs := setNth c.xs n v }

/-- Arm a link, or cancel its streams (R219). -/
def armStream (l : Nat) (base len ctx inv cls : Nat) (s : State) : State :=
  let r := getLink s l
  if len = 0 then setLink s l { r with pending := none, active := none, waiting := false, granted := false }
  else
    let st : Stream := { base := base, length := len, issued := 0, context := ctx, inv := inv, cls := cls }
    setLink s l (if r.active.isNone then { r with active := some st } else { r with pending := some st })

/-- The take of a link's next chunk that waits, if any, leaves its semaphore. -/
def dropChunkTake (l : Nat) (s : State) : State :=
  match linkDef s l with
  | none => s
  | some d =>
    let die := l / 4096
    let sem := die * 65536 + (if !d.producer.grinder && d.producer.port == 0 then d.semEmpty else d.semFull)
    let x := getSem s sem
    semSettle sem x.value (x.waiters.filter (fun w => match w with | .stream a b _ => !(a == die && b == l % 4096) | _ => true)) s

/-- An array's accumulation in the layout of R144: what is kept, or zeros. -/
def accImage (k : ArrAcc) : List Byte :=
  let wide := k.kept && k.mode == 2
  let values := ((List.range 4096).map (fun n => leBytes 8 (ofSigned 64 (tabGet 0 k.vals n)))).flatten
  let special := (List.range 1024).map (fun b => BitVec.ofNat 8 (if wide then 0 else
    packNum 2 ((List.range 4).map (fun j => tabGet 0 k.special (4 * b + j)))))
  let sat := (List.range 512).map (fun b => BitVec.ofNat 8 (if wide then 0 else
    packNum 1 ((List.range 8).map (fun j => b2n (setHas k.sat (8 * b + j))))))
  let tail := if wide ∨ !k.kept then zeros 64 else leBytes 2 (ofSigned 16 k.xeff) ++ leBytes 1 k.r ++ zeros 61
  values ++ special ++ sat ++ tail

/-- A CTL op is issued (R200). -/
def issueCtl (phys : Nat) (w : Bits256) (s : State) : State :=
  let c := getCore s phys
  match opSub w with
  | 0 => setCore s phys { c with ended := true, pc := nextPc c }
  | 1 =>
    let l := opField w 4 1 % 4
    let v := c.lcs.getD l 0 - 1
    let c := { c with lcs := setNth c.lcs l v }
    if v = 0 then setCore s phys { c with pc := nextPc c }
    else
      let a := opField w 5 1 % 8
      let b := opField w 5 1 / 8 % 8
      let c := setReg c a (BitVec.ofNat 64 (regOf c a) + BitVec.ofNat 64 (opField w 0x10 8))
      let c := setReg c b (BitVec.ofNat 64 (regOf c b) + BitVec.ofNat 64 (opField w 0x18 8))
      setCore s phys { c with pc := (((c.pc : Int) + 32 * loopTarget w) % (2 ^ 48 : Int)).toNat }
  | 2 =>
    let c := if bitOf (opFlags w) 0 then setReg c (opField w 4 1 % 8) (BitVec.ofNat 64 (opField w 8 8)) else c
    let c := if bitOf (opFlags w) 1 then { c with lcs := setNth c.lcs (opField w 5 1 % 4) (BitVec.ofNat 32 (opField w 0x10 4)) } else c
    setCore s phys { c with pc := nextPc c }
  | 3 => setCore s phys { setReg c (opField w 4 1 % 8) (BitVec.ofNat 64 (scrNat s phys (nearRef c (opField w 8 4)) 8)) with pc := nextPc c }
  | 4 =>
    let l := armLink s phys w
    let len := opField w 0x10 8
    let i := c.inv.getD 0
    let s := setCore s phys { c with pc := nextPc c }
    let s := if len = 0 then dropChunkTake l s else s
    armStream l (farRef c (opField w 8 8)) len (invContext s i) i (invClass s i) s
  | 5 => setCore s phys { c with live := declared c w, liveMore := if bitOf (opFlags w) 0 then some 0 else none, pc := nextPc c }
  | 6 =>
    setCore s phys { c with live := declared c w,
                            liveMore := if bitOf (opFlags w) 0 then some (c.liveMore.getD 0 + 1) else none, pc := nextPc c }
  | _ =>
    if opField w 4 1 = 0 then
      let a := opField w 5 1 % 4
      let k := tabGet arrAccReset c.acc a
      let at_ := nearRef c (opField w 8 4)
      scrWrite (setCore s phys { c with pc := nextPc c }) phys at_ (clean (accImage k))
    else setCore s phys { c with halt := true, pc := nextPc c }

/-! ### One op -/

/-- Whether a unit can take an op now (R188, R196, R198, R200, R219). -/
def unitTakes (s : State) (phys : Nat) (c : Core) (w : Bits256) : Bool :=
  match opClass w with
  | 2 => decide ((s.xfers.filter (fun e => match e.2.owner with | .mov p _ => p == phys && !xferDone e.2 | _ => false)).length < 32)
  | 3 =>
    let g := ((logicalOf s phys).getD 0) / 80 * 16 + grdGrinder w
    decide ((tabGet grinderReset s.grinders g).queue.length < 16)
  | 5 =>
    if opSub w = 4 then opField w 0x10 8 == 0 || (getLink s (armLink s phys w)).pending.isNone
    else if opSub w = 7 ∧ opField w 4 1 = 0 then !c.window.any (fun o => opClass o.word == 0)
    else true
  | _ => true

/-- The sequencer may issue: a resident invocation runs, nothing holds issue and the window has a place. -/
def canIssue (c : Core) (step : Bool) : Bool :=
  c.inv.isSome && decide (c.phase = .running) && !c.ended && c.wait.isNone && (step || !c.halt) && decide (c.window.length < 8) &&
  c.withdrawn == []

/-- A CHEAP or LIVE op stands before a LIVE one only if nothing comes between (R200). -/
def endDeclaring (phys : Nat) (w : Bits256) (s : State) : State :=
  if opClass w = 5 ∧ (opSub w = 5 ∨ opSub w = 6) then s else updCore s phys (fun c => { c with liveMore := none, stall := none })

/-- What issuing an op of a class does. -/
def issueClass (phys : Nat) (w : Bits256) (s : State) : State :=
  match opClass w with
  | 0 =>
    let o := matOp w
    let s := pushOp phys w false s
    updCore s phys (fun c => { c with issueMode := o.mode,
                                      chain := some { mode := o.mode, cls := o.cls, m := o.m, mask := o.mask, n := o.n, seq := c.nextSeq - 1 } })
  | 1 => pushOp phys w false s
  | 2 => issueMov phys w s
  | 3 => issueGrd phys w s
  | 4 => issueSem phys w s
  | _ => issueCtl phys w s

/-- The next MOV ops that stand in the fetched blocks from an address on (R317): at most n of them among k ops. -/
def nextMovs (c : Core) : Nat → Nat → Nat → List Bits256
  | 0, _, _ => []
  | _, 0, _ => []
  | k + 1, n + 1, pc =>
    match opAt c pc with
    | none => []
    | some (w, _) => if opClass w = 2 then w :: nextMovs c k n (pc + 32) else nextMovs c k (n + 1) (pc + 32)

/-- The far references of the next four MOV ops beyond the window, and the first address of the next program block (R317). -/
def prefetchOps (phys : Nat) (s : State) : State :=
  let c := getCore s phys
  match c.inv with
  | none => s
  | some i =>
    let e := engineOfPhys s phys
    let ctx := invContext s i
    let movs := (nextMovs c 256 4 c.pc).filter (fun w => opSub w == 0 || opSub w == 1 || opSub w == 4)
    prefetch e ctx (blockBase c.pc + 2048) (forEach movs (fun w t => prefetch e ctx (farRef c (opField w 8 8)) t) s)

/-- The segments of a stream's next four chunks (R317). -/
def prefetchStream (e : Nat) (st : Stream) (s : State) : State :=
  forEach (List.range 4) (fun k t =>
    if st.issued + 4096 * k < st.length then prefetch e st.context ((st.base + st.issued + 4096 * k) % 2 ^ 48) t else t) s

/-- The segments that the streams of a link will need, where a core's port 0 drives it (R317). -/
def prefetchLink (l : Nat) (s : State) : State :=
  match linkDef s l with
  | none => s
  | some d =>
    let end_ := if !d.producer.grinder && d.producer.port == 0 then endPhys s (l / 4096) d.producer
                else if !d.consumer.grinder && d.consumer.port == 0 then endPhys s (l / 4096) d.consumer else none
    match end_ with
    | none => s
    | some p =>
      let r := getLink s l
      forEach (r.active.toList ++ r.pending.toList) (prefetchStream (engineOfPhys s p)) s

/-- Issue an op that has passed its checks; the engine then looks ahead (R317). -/
def issueOp (phys : Nat) (w : Bits256) (s : State) : State :=
  let l := armLink s phys w
  let s := endDeclaring phys w (issueClass phys w s)
  prefetchOps phys (if opClass w = 5 ∧ opSub w = 4 then prefetchLink l s else s)

/-- The op at PC waits for its unit: its count begins (R201, R202). -/
def noteStall (phys : Nat) (s : State) : State :=
  updCore s phys (fun c => match c.stall with
    | some (a, _) => if a = c.pc then c else { c with stall := some (c.pc, islTicks s (islOfCore phys)) }
    | none => { c with stall := some (c.pc, islTicks s (islOfCore phys)) })

/-- Issue the op at PC, if it is one that `pick` names and its unit can take it: a poisoned op or one that fails its checks faults. -/
def issueAt (phys : Nat) (step : Bool) (pick : Bits256 → Bool) (s : State) : State :=
  let c := getCore s phys
  if !canIssue c step then s
  else
    match opAt c c.pc with
    | none => s
    | some (w, bad) =>
      if !pick w then s
      else if bad then tileFault phys 0x11 (opClass w) c.pc s
      else
        match opChecks s phys c w with
        | some code => tileFault phys code (opClass w) c.pc s
        | none => if unitTakes s phys c w then issueOp phys w s else noteStall phys s

/-- Issue on a logical core. -/
def issueLogical (l : Nat) (pick : Bits256 → Bool) (s : State) : State :=
  match physOf s l with
  | none => s
  | some p => issueAt p false pick s

end Sys2Proof.Machine
end

