-- ==== Sys2Proof/Machine/Run.lean ====
section
/-! DEFINITION. The units at work: starts, replays and completions of MAT, VEC and MOV ops, posts that fire, overruns and waits that
end (R121-R136, R171, R196-R202, R217, R225, R283-R285). -/

namespace Sys2Proof.Machine

/-- A command on the physical core linked to a logical core. -/
def onCore (l : Nat) (f : Nat → State → State) (s : State) : State :=
  match physOf s l with
  | none => s
  | some p => f p s

/-- The oldest op of a class that has not started. -/
def firstWaiting (c : Core) (cls : Nat) : Option IssuedOp := c.window.find? (fun o => opClass o.word == cls && !o.started)

/-- Change an op in the window. -/
def updOp (phys seq : Nat) (f : IssuedOp → IssuedOp) (s : State) : State :=
  updCore s phys (fun c => { c with window := c.window.map (fun o => if o.seq = seq then f o else o) })

/-- Add a count that only timing decides to a counter of a core. -/
def addFree (phys : Nat) (f : Core → Nat → Core) (s : State) : State :=
  let (k, s) := drawFree s
  updCore s phys (fun c => f c (Config.freeCount k))

/-! ### MAT (R121, R132, R171) -/

def frameOfList : List Nat → DzFrame
  | [a, b, c, d, e] => { dz := a, base := b, encBytes := c, flags := d, first := e }
  | _ => { dz := 0, base := 0, encBytes := 0, flags := 0, first := 0 }

/-- What the expander makes of an op's blocks (R270-R279). -/
def opDz (s : State) (phys : Nat) (o : IssuedOp) : DzResult :=
  let m := matOp o.word
  if m.expander then dzExpand s phys (frameOfList o.frame) (weightBytes m / 4096)
  else { granules := [], sizeFaults := [], headerFault := none }

/-- What a started MAT op reads. -/
def matIn (s : State) (phys : Nat) (o : IssuedOp) : MatIn :=
  { op := matOp o.word, refs := { act := o.near, weights := o.near2, epi := o.near3, scales := o.near4 }, phys := phys,
    dz := dzBytes (opDz s phys o) }

/-- The masked arrays' outputs of an attempt. -/
def matOuts (s : State) (v : MatIn) (run : MatRun) : List (Nat × ArrayOut) :=
  (maskArrays v.op.mask).map (fun a => (a, runArray s v a (tabGet arrAccReset run.snap a)))

/-- The earliest cycle at which one of some arrays overflows. -/
def detectCycle (v : MatIn) (arrays : List Nat) (outs : List (Nat × ArrayOut)) : Nat :=
  match ((outs.filter (fun e => arrays.contains e.1)).map (fun e => e.2.overflows.map (sumCycle v.op))).flatten with
  | [] => 0
  | c :: t => t.foldl min c

/-- The arrays on which an overflow calls for a replay (R132, R133): those that overflow in the detection cycle, after which the attempt stops. -/
def replayArrays (v : MatIn) (run : MatRun) (outs : List (Nat × ArrayOut)) : List Nat :=
  if fmtIsInt v.op.fw then []
  else
    let hot := (outs.filter (fun e => e.2.overflows != [] && decide ((tabGet arrAccReset run.snap e.1).r < 2))).map (·.1)
    let det := detectCycle v hot outs
    hot.filter (fun a => decide (detectCycle v [a] outs = det))

/-- The next MAT op to start: the oldest that has not, or whose chain a replay has broken. -/
def nextMat (c : Core) : Option IssuedOp := c.window.find? (fun o => opClass o.word == 0 && (!o.started || o.abandoned))

/-- The snapshot of each masked array at an op's start (R132): the kept accumulation, which goes on as the op's own kind, or a new one. -/
def snapOf (c : Core) (m : MatOp) : Tab ArrAcc :=
  (maskArrays m.mask).map (fun a =>
    (a, if m.cont then { tabGet arrAccReset c.acc a with isInt := fmtIsInt m.fw, fp64 := m.fp64 } else freshAcc m))

/-- An op's accumulations begin. -/
def enterMat (run : MatRun) (m : MatOp) (c : Core) : Core :=
  let snap := snapOf c m
  { c with mat := some { run with snap := snap }, acc := snap.foldl (fun t e => tabSet arrAccReset t e.1 e.2) c.acc, arrMode := m.mode,
           arrClass := m.cls }

/-- Reserve a tile-queue entry on each array of a posting op (R171). -/
def reserveTiles (m : MatOp) (c : Core) : Core :=
  let entry : TileEntry := { state := .reserved, addr := 0, stride := 0, rows := 0, fmt := 0, seq := 0 }
  if m.post then { c with tiles := (maskArrays m.mask).foldl (fun t a => tabPut t a (tabGet [] t a ++ [entry])) c.tiles } else c

/-- An op begins, its counting from some ticks of the island's clock. -/
def markStarted (phys seq at_ : Nat) (joined : Bool) (s : State) : State :=
  updOp phys seq (fun o => { o with started := true, abandoned := false, joins := joined, startedAt := at_ }) s

def newRun (seq since : Nat) : MatRun :=
  { seq := seq, snap := [], draining := false, satNoted := false, replays := 0, since := since, satArrays := [] }

/-- Start the core's next MAT op: its predecessor has finished, or it has joined that op's chain (R103, R117); and where it posts every masked
array's queue has a free entry. -/
def startMat (phys : Nat) (s : State) : State :=
  let c := getCore s phys
  match nextMat c with
  | none => s
  | some o =>
    let m := matOp o.word
    if (c.phase ≠ .running ∧ !o.abandoned) ∨ (m.post ∧ (maskArrays m.mask).any (fun a => decide (8 ≤ (tabGet [] c.tiles a).length))) then s
    else
      match c.mat with
      | none =>
        let now := islTicks s (islOfCore phys)
        markStarted phys o.seq now false (updCore s phys (fun c => enterMat (newRun o.seq now) m (reserveTiles m c)))
      | some run =>
        if !o.joins ∨ run.draining ∨ c.matNext.isSome then s
        else
          let at_ := run.since + ticksOf (match findOp c run.seq with | some p => (matOp p.word).chainCount | none => 0)
          markStarted phys o.seq at_ true (updCore s phys (fun c => { reserveTiles m c with matNext := some (newRun o.seq at_) }))

/-- The faults of one attempt's blocks: counted for every attempt, logged for the first (R277-R279). -/
def noteDz (phys : Nat) (first : Bool) (r : DzResult) (s : State) : State :=
  let c := getCore s phys
  let i := c.inv.getD 0
  let n := r.sizeFaults.length + (match r.headerFault with | some h => h.2 | none => 0)
  if n = 0 then s
  else
    let s := updInv (setCore s phys { c with dzFaults := inc64 c.dzFaults n }) i (fun x => { x with sizeFault := true })
    if !first then s
    else
      let s := forEach r.sizeFaults (fun b t => logEvent .dzSizeFault (islOfCore phys) (leBytes 4 b ++ leBytes 8 i) t) s
      match r.headerFault with
      | some h => logEvent .dzHeaderFault (islOfCore phys) (leBytes 4 h.1 ++ leBytes 8 i) s
      | none => s

/-- Output rows of an array, written through port 1 (R54). -/
def writeRows (phys : Nat) (d : EpiDesc) (a : Nat) (rows : List PData) (s : State) : State :=
  forEach ((List.range rows.length).zip rows) (fun e t => portWrite phys 1 (d.out + a * d.arrayStride + e.1 * d.outStride) e.2 t) s

/-- ACC_SATURATED, once per op (R133). -/
def noteSaturation (phys : Nat) (o : IssuedOp) (run : MatRun) (outs : List (Nat × ArrayOut)) (s : State) : State :=
  let sat := outs.filter (fun e => e.2.counted != [])
  if run.satNoted ∨ sat = [] then s
  else logEvent .accSaturated (islOfCore phys)
    (leBytes 8 o.addr ++ leBytes 1 ((sat.map (fun e => 2 ^ e.1)).foldl (· + ·) 0) ++ leBytes 8 ((getCore s phys).inv.getD 0)) s

/-- A replay breaks the chain behind it (R132, R134): an op of it that had begun is abandoned, its reserved entries are given back, and it will
start isolated with its isolated count. -/
def abandonNext (c : Core) : Core :=
  match c.matNext with
  | none => c
  | some n =>
    let m := match findOp c n.seq with | some p => matOp p.word | none => matOp 0
    { c with matNext := none,
             tiles := if m.post then (maskArrays m.mask).foldl (fun t a => tabPut t a (tabGet [] t a).dropLast) c.tiles else c.tiles,
             window := c.window.map (fun p =>
               if p.seq = n.seq then { p with abandoned := true, joins := false, extra := p.extra + (m.isolated - m.chainCount) } else p) }

/-- An overflow of the attempt in progress: a replay where an array's r is below 2, else the saturation is logged. -/
def overflowMat (phys : Nat) (s : State) : State :=
  let c := getCore s phys
  match c.mat with
  | none => s
  | some run =>
    match findOp c run.seq with
    | none => s
    | some o =>
      let v := matIn s phys o
      let outs := matOuts s v run
      let arrays := replayArrays v run outs
      if run.draining then s
      else if arrays = [] then
        let sat := (outs.filter (fun e => e.2.counted != [])).map (·.1)
        if sat = [] then s
        else updCore (noteSaturation phys o run outs s) phys (fun c => { c with mat := some { run with satNoted := true, satArrays := sat } })
      else
        let left := rowsLeft v.op (detectCycle v arrays outs)
        let d := epiDesc s phys v.refs.epi
        let s' := forEach outs (fun e t =>
          if left = 0 then t
          else
            let out := epiArray s phys { v.op with m := left } d e.2.acc e.2.counted e.1 (getCore t phys).gens cupNone
            raiseFlags phys out.flags (updCore (writeRows phys d e.1 out.rows t) phys (fun c => { c with gens := out.gens }))) s
        let s' := noteDz phys (run.replays == 0) (opDz s phys o) s'
        let snap := run.snap.map (fun e => (e.1, if arrays.contains e.1 then raised e.2 else e.2))
        let s' := updCore s' phys (fun c => abandonNext
          { c with mat := some { run with snap := snap, draining := true, replays := run.replays + 1, satArrays := [] },
                   acc := snap.foldl (fun t e => tabSet arrAccReset t e.1 e.2) c.acc, accReplays := inc64 c.accReplays 1,
                   window := c.window.map (fun p => if p.seq = o.seq then { p with extra := p.extra + v.op.isolated + 192 } else p) })
        let s' := match c.inv with
          | some i => updInv s' i (fun x => { x with replays := x.replays + 1 })
          | none => s'
        addFree phys (fun c n => { c with arrMacs := inc64 c.arrMacs n }) s'

/-- The replay runs again, from the op's isolated lead (R132). -/
def restartMat (phys : Nat) (s : State) : State :=
  updCore s phys (fun c => { c with mat := c.mat.map (fun r =>
    if r.draining then { r with draining := false, since := islTicks s (islOfCore phys) } else r) })

/-- The oldest reserved entry of a queue fills. -/
def fillTile (e : TileEntry) : List TileEntry → List TileEntry
  | [] => [e]
  | q :: t => if q.state = .reserved then e :: t else q :: fillTile e t

/-- Post a finished tile to array a's queue: the reserved entry fills (R171, R172). -/
def postTile (phys a : Nat) (o : MatOp) (d : EpiDesc) (s : State) : State :=
  updCore s phys (fun c =>
    let n := tabGet 0 c.tileSeq a
    let entry : TileEntry :=
      { state := .occupied, addr := d.out + a * d.arrayStride, stride := d.outStride, rows := o.rows, fmt := d.outFmt, seq := n }
    { c with tiles := tabPut c.tiles a (fillTile entry (tabGet [] c.tiles a)), tileSeq := tabSet 0 c.tileSeq a ((n + 1) % 65536) })

/-- The epilogue of every masked array, with scale blocks, statistics and flags (R137-R163). -/
def handOff (phys : Nat) (o : IssuedOp) (v : MatIn) (outs : List (Nat × ArrayOut)) (s : State) : State :=
  let d := epiDesc s phys v.refs.epi
  let (s', cup) := outs.foldl (fun (t : State × CupPart) (e : Nat × ArrayOut) =>
    let out := epiArray s phys v.op d e.2.acc e.2.counted e.1 (getCore t.1 phys).gens t.2
    let u := updCore (writeRows phys d e.1 out.rows t.1) phys (fun c => { c with gens := out.gens })
    let u := if d.rowQuant then portWrite phys 1 (d.qscale + 80 * e.1 + 4) (clean (scaleBlock v.op.rows d.outFmt out.codes)) u else u
    (raiseFlags phys out.flags u, out.cup)) (s, cupNone)
  let s' := if d.cupping then portWrite phys 1 d.stats (clean (cupAdd (scrBytes s' phys d.stats 32) cup)) s' else s'
  match if d.rowQuant then outs.find? (fun e => (tileScaleAt s phys (d.qscale + 80 * e.1)).isNone) else none with
  | some e => logEvent .quantScaleInvalid (islOfCore phys) (leBytes 8 o.addr ++ scrBytes s phys (d.qscale + 80 * e.1) 4) s'
  | none => s'

/-- The op that has joined the chain behind a finished op is the one in progress now. -/
def nextOfChain (c : Core) : Core :=
  match c.matNext with
  | none => c
  | some n => enterMat n (match findOp c n.seq with | some p => matOp p.word | none => matOp 0) { c with matNext := none }

/-- The MAT op in progress completes, unless an overflow still calls for a replay. -/
def completeMat (phys : Nat) (s : State) : State :=
  let c := getCore s phys
  match c.mat with
  | none => s
  | some run =>
    match findOp c run.seq with
    | none => s
    | some o =>
      let v := matIn s phys o
      let outs := matOuts s v run
      if run.draining ∨ replayArrays v run outs ≠ [] then s
      else
        let s' := noteDz phys (run.replays == 0) (opDz s phys o) (noteSaturation phys o run outs s)
        let s' := raiseFlags phys (outs.foldl (fun f e => f ||| e.2.flags) 0) s'
        let s' := if v.op.handoff then handOff phys o v outs s' else s'
        let s' := if v.op.post then forEach outs (fun e t => postTile phys e.1 v.op (epiDesc s phys v.refs.epi) t) s' else s'
        let kept := fun (e : Nat × ArrayOut) =>
          if v.op.handoff then arrAccReset
          else { e.2.acc with kept := true, poison := e.2.counted.foldl setIns e.2.acc.poison }
        let sat := outs.any (fun e => e.2.counted != [])
        let s' := match c.inv with
          | some i => updInv s' i (fun x => { x with satPoison := x.satPoison || sat })
          | none => s'
        let s' := updCore s' phys (fun c => nextOfChain
          { c with mat := none, acc := outs.foldl (fun t e => tabSet arrAccReset t e.1 (kept e)) c.acc,
                   accSats := inc64 c.accSats ((outs.map (fun e => e.2.counted.length)).foldl (· + ·) 0),
                   arrMacs := inc64 c.arrMacs (v.op.macs * outs.length) })
        retireOp phys o.seq (addFree phys (fun c n => { c with arrBusy := inc64 c.arrBusy n }) s')

/-! ### VEC (R171, R184, R195) -/

/-- The oldest occupied entry of an array's queue. -/
def headTile (c : Core) (a : Nat) : Option TileEntry := (tabGet [] c.tiles a).find? (fun e => decide (e.state = .occupied))

/-- The oldest occupied entry becomes popped. -/
def popTile : List TileEntry → List TileEntry
  | [] => []
  | e :: t => if e.state = .occupied then { e with state := .popped } :: t else e :: popTile t

/-- What stops a VEC op at its start: BAD_BOUND, or BAD_VEC for every condition of R184, an area out of range too (R205). -/
def vecStartCode (s : State) (phys : Nat) (o : IssuedOp) (b : VBlock) (es : List (Nat × TileEntry)) : Option Nat :=
  let chain := opChain s phys o.word
  let ok := vecBlockOk s phys o.near b o.word && es.all (fun e => decide (e.2.rows = b.rows))
  lowestCode
    [(ok && (decide (4096 < vecCount b chain) || decide (opBound o.word < vecCount b chain)), 0x06), (!ok, 0x0A)]

/-- Start the core's next VEC op once its queue entries are there. -/
def startVec (phys : Nat) (s : State) : State :=
  let c := getCore s phys
  match c.vec, firstWaiting c 1 with
  | none, some o =>
    let b := vBlock s phys o.near
    let as_ := queueArrays b
    let es := as_.filterMap (fun a => (headTile c a).map (fun e => (a, e)))
    if c.phase ≠ .running ∨ es.length ≠ as_.length then s
    else
      match vecStartCode s phys o (b.popped es) es with
      | some k => tileFault phys k 1 o.addr s
      | none =>
        updOp phys o.seq (fun p => { p with started := true, startedAt := islTicks s (islOfCore phys),
                                            count := vecCount (b.popped es) (opChain s phys o.word) })
          (setCore s phys { c with vec := some { seq := o.seq, popped := es },
                                   tiles := as_.foldl (fun t a => tabPut t a (popTile (tabGet [] t a))) c.tiles })
  | _, _ => s

/-- Rows of an output of a finished run, in order; a stage that runs in several sweeps leaves what it wrote last. -/
def outRows (b : VBlock) (r : VRun) (o : Nat) : List (Nat × PData) :=
  (List.range b.rows).map (fun row =>
    let cells := r.outs.filter (fun e => e.1 == o && e.2.1 == row)
    let n := if (b.outp o).mode = 3 then 1 else b.cols
    (row, packMarked (b.outp o).fmt ((List.range n).map (fun col =>
      match cells.reverse.find? (fun e => e.2.2.1 == col) with
      | some e => (e.2.2.2.1, e.2.2.2.2)
      | none => (0, false)))))

/-- The VEC op in progress completes: outputs through port 2, slots, scale blocks and statistics; its entries free. -/
def completeVec (phys : Nat) (s : State) : State :=
  let c := getCore s phys
  match c.vec with
  | none => s
  | some run =>
    match findOp c run.seq with
    | none => s
    | some o =>
      let chain := opChain s phys o.word
      let fp64 := match chain with | d :: _ => stFp64 d | [] => false
      let b := (vBlock s phys o.near).popped run.popped
      let r := runVec s phys b fp64 chain c.gens
      let used := (List.range 2).filter (fun k => (b.outp k).mode != 0)
      let s' := forEach used (fun k t => forEach (outRows b r k) (fun e t =>
        portWrite phys 2 ((b.outp k).addr + e.1 * (b.outp k).stride) e.2 t) t) s
      let s' := if usesSlots chain then forEach (slotWrites s phys b fp64 (List.range b.rows) r.slots) (fun e t => portWrite phys 2 e.1 e.2 t) s' else s'
      let quant := chain.find? (fun d => stOpcode d == 0x29)
      let s' := match quant with
        | none => s'
        | some d =>
          let fmt := (b.outp ((stWrites d).headD 0)).fmt
          forEach (List.range (ceilDiv b.rows 64)) (fun t u =>
            portWrite phys 2 (b.qscale + 80 * t + 4)
              (clean (scaleBlock (min 64 (b.rows - 64 * t)) fmt ((List.range 64).map (fun m => tabGet 0 r.codes (64 * t + m))))) u) s'
      let s' := if chain.any stCupping then portWrite phys 2 b.stats (clean (cupAdd (scrBytes s' phys b.stats 32) r.cup)) s' else s'
      let bad := (List.range (ceilDiv b.rows 64)).find? (fun t => (tileScaleAt s phys (b.qscale + 80 * t)).isNone)
      let s' := match r.badScale, bad with
        | true, some t => logEvent .quantScaleInvalid (islOfCore phys) (leBytes 8 o.addr ++ scrBytes s phys (b.qscale + 80 * t) 4) s'
        | _, _ => s'
      let s' := updCore (raiseFlags phys r.flags s') phys (fun c =>
        { c with vec := none, gens := r.gens,
                 tiles := run.popped.foldl (fun t e => tabSet [] t e.1 ((tabGet [] t e.1).filter (fun q => decide (q.state ≠ .popped)))) c.tiles })
      retireOp phys o.seq (addFree phys (fun c n => { c with vecBusy := inc64 c.vecBusy n }) s')

/-! ### MOV (R196, R197, R283-R285) -/

/-- Position i of a row of w-bit positions, with the mark of the bytes it lies in. -/
def skewElem (w : Nat) (row : PData) (i : Nat) : Nat × Bool :=
  let lo := w * i / 8
  let hi := (w * (i + 1) + 7) / 8
  let d := sliceAt row lo (hi - lo)
  (leNat (d.map (·.1)) / 2 ^ (w * i % 8) % 2 ^ w, d.any (·.2))

/-- The line t of a skewed block: position i comes from row t − i where there is one, and keeps what it held otherwise (R197); one that has been
lost on the way keeps what it held, marked (R224). -/
def skewLine (w : Nat) (rows : List PData) (lost : Nat → Nat → Bool) (old : PData) (t : Nat) : PData :=
  let cells := (List.range 64).map (fun i =>
    if i ≤ t then
      match rows[t - i]? with
      | some r => if lost (t - i) i then (((skewElem w old i).1, true), true) else (skewElem w r i, true)
      | none => (skewElem w old i, false)
    else (skewElem w old i, false))
  let bytes := leBytes old.length (packNum w (cells.map (·.1.1)))
  (List.range old.length).map (fun k =>
    (bytes.getD k 0, (List.range 64).any (fun i =>
      decide (w * i / 8 ≤ k) && decide (k < (w * (i + 1) + 7) / 8) && (cells.getD i ((0, false), false)).1.2)))

/-- Write rows skewed from `near` on (R197). -/
def skewWrite (phys near rowBytes : Nat) (rows : List PData) (lost : Nat → Nat → Bool) (s : State) : State :=
  forEach (List.range (rows.length + 63)) (fun t u =>
    portWrite phys 0 (near + t * rowBytes) (skewLine (rowBytes / 8) rows lost (scrRead u phys (near + t * rowBytes) rowBytes) t) u) s

/-- The rows of a payload. -/
def payloadRows (d : PData) (rowBytes n : Nat) : List PData := (List.range n).map (fun r => sliceAt d (r * rowBytes) rowBytes)

/-- Whether position i of row r of a skewed LOAD lies in a piece that a cancellation or a failure has ended without data (R224). -/
def skewLost (rowBytes : Nat) (x : Xfer) (r i : Nat) : Bool :=
  let w := rowBytes / 8
  x.pieces.any (fun q => decide (q.state = .ended) && overlaps q.near q.len (r * rowBytes + w * i / 8) (max 1 ((w * (i + 1) + 7) / 8 - w * i / 8)))

/-- What a MOV does to its core's scratchpad when it completes, beyond what has landed. -/
def movFinish (phys : Nat) (o : IssuedOp) (x : Option Xfer) (s : State) : State :=
  let m := movOp o.word
  match m.kind with
  | 0 =>
    match x with
    | some x =>
      if m.skew then skewWrite phys o.near m.rowBytes (payloadRows x.payload m.rowBytes m.rows) (skewLost m.rowBytes x) s else s
    | none => s
  | 2 =>
    let src := o.near2
    if m.skew then
      skewWrite phys o.near m.rowBytes ((List.range m.rows).map (fun r => scrRead s phys (src + r * m.farStride) m.rowBytes)) (fun _ _ => false) s
    else forEach (List.range m.rows) (fun r t =>
      portWrite phys 0 (o.near + r * m.nearStride) (scrRead t phys (src + r * m.farStride) m.rowBytes) t) s
  | 3 =>
    forEach (List.range m.rows) (fun r t =>
      portWrite phys 0 (o.near + r * m.nearStride) (clean (patternBytes (m.far % 2 ^ 32) m.rowBytes)) t) s
  | _ => s

/-- A post of `SEM_DONE`. -/
def postDone (d : Option Nat) (s : State) : State :=
  match d with
  | some i => semPost i 1 s
  | none => s

/-- The MOV op at a place of the window completes once its transfer has landed and an unseal has been checked. -/
def completeMov (slot phys : Nat) (s : State) : State :=
  match (getCore s phys).window[slot]? with
  | none => s
  | some o =>
    let x := o.xfer.bind (getXfer s)
    let ready := match x with
      | some x => xferDone x && (x.sealed_.isNone || x.checked)
      | none => true
    if opClass o.word ≠ 2 ∨ !o.started ∨ !ready then s
    else
      let s := movFinish phys o x s
      let s := match o.xfer with | some n => delXfer s n | none => s
      postDone (movOp o.word).done (pumpMovs phys (retireOp phys o.seq s))

/-- An unsealed unit's outcome: the plaintext, or none (R281-R285). -/
def unsealed (x : Xfer) (key : Bits256) (rowBytes : Nat) : Option (List Byte) :=
  let b := x.payload.map (·.1)
  let head := b.take 32
  let cipher := sliceAt b 32 rowBytes
  let iv := sliceAt b 8 12
  if fieldAt b 0 4 == 0x4C414553 && fieldAt b 4 4 == rowBytes && rowBytes % 16 == 0 && decide (16 ≤ rowBytes) && (sliceAt b 0x14 12).all (· == 0) && !x.payload.any (·.2) &&
     !x.cancelled && !x.failed && (aesGcmTag (leBytes 32 key.toNat) iv head cipher).take 8 == sliceAt b (32 + rowBytes) 8
  then some (padTo rowBytes (aesGcmStream (leBytes 32 key.toNat) iv cipher))
  else none

/-- The check of an unsealed unit completes (R284). -/
def checkUnseal (slot phys : Nat) (s : State) : State :=
  let c := getCore s phys
  match c.window[slot]? with
  | none => s
  | some o =>
    match o.xfer with
    | none => s
    | some n =>
      match getXfer s n with
      | none => s
      | some x =>
        let m := movOp o.word
        match x.sealed_ with
        | none => s
        | some k =>
          if !xferDone x ∨ x.checked then s
          else
            let s := setXfer s n { x with checked := true }
            match k.bind (fun key => unsealed x key m.rowBytes) with
            | some d => portWrite phys 0 o.near (clean d) s
            | none =>
              let s := portWrite phys 0 o.near (marked (zeros m.rowBytes)) s
              let s := poisonRange s (scratchKey phys o.near) m.rowBytes
              let s := updCore s phys (fun c => { c with sealFails := inc64 c.sealFails 1 })
              let i := c.inv.getD 0
              match k with
              | none => logEvent .sealKeyDenied (islOfCore phys) (leBytes 2 (m.farStride % 2 ^ 16) ++ leBytes 8 i) s
              | some _ => logEvent .sealCheckFailed (islOfCore phys) (leBytes 8 o.far ++ leBytes 8 i) s

/-! ### Posts, overruns and waits (R199, R202, R217, R225) -/

/-- The oldest POST whose fence has cleared fires. -/
def firePost (phys : Nat) (s : State) : State :=
  let c := getCore s phys
  match c.window.find? (fun o => opClass o.word == 4 && o.fence.all (fun n => (findOp c n).isNone)) with
  | none => s
  | some o => semPost (semId o.word) (semCount o.word) (retireOp phys o.seq s)

/-- An op has overrun: TILE_LATE is logged and the invocation ends LATE. -/
def lateOp (phys addr cls beyond : Nat) (s : State) : State :=
  let i := (getCore s phys).inv.getD 0
  endEarly i .late 0x20 (logEvent .tileLate (islOfCore phys) (leBytes 8 addr ++ leBytes 8 i ++ leBytes 4 beyond)
    (recordFault phys 0x20 cls addr s))

/-- A started MAT op that has not completed within its bound, a VEC op that has run past its C or its bound (R185), or a MOV, GRD or ARM op at PC
that its unit has not taken within its bound (R201, R202). -/
def overrun (slot : Option Nat) (phys : Nat) (s : State) : State :=
  let c := getCore s phys
  let now := islTicks s (islOfCore phys)
  match slot with
  | some k =>
    match c.window[k]? with
    | none => s
    | some o =>
      let used := cyclesOf (now - o.startedAt)
      let bound := opBound o.word + o.extra
      let late := if opClass o.word = 0 then decide (bound ≤ used) else opClass o.word == 1 && (decide (bound ≤ used) || decide (o.count < used))
      if o.started ∧ !o.abandoned ∧ late then
        lateOp phys o.addr (opClass o.word) (used - min bound (if opClass o.word = 1 then o.count else bound)) s
      else s
  | none =>
    match opAt c c.pc, c.stall with
    | some (w, bad), some (a, t) =>
      let used := cyclesOf (now - t)
      if a = c.pc ∧ canIssue c false ∧ !bad ∧ (opClass w = 2 ∨ opClass w = 3 ∨ (opClass w = 5 ∧ opSub w = 4)) ∧ opChecks s phys c w = none ∧
          !unitTakes s phys c w ∧ opBound w ≤ used then
        lateOp phys c.pc (opClass w) (used - opBound w) s
      else s
    | _, _ => s

/-- Whether a transfer has an external home, translated or not (R224). -/
def xferAbroad (s : State) (x : Xfer) : Bool :=
  x.pieces.any (fun p => pieceExternal p ||
    (!pieceOver p && p.trans.isNone && match covering s x.context p.vaddr with
      | some (_, e) => decide (e.home = .host) || decide (e.home = .peer)
      | none => false))

/-- Cancel what an invocation's external transfers have not landed (R225). -/
def cancelAbroad (i : Nat) (s : State) : State :=
  forEach ((xfersOfInv s i).filter (fun e => !xferDone e.2 && xferAbroad s e.2)) (fun e t => cancelXfer e.1 t) s

/-- A WAIT's limit has passed (R225). -/
def waitTimeout (phys : Nat) (s : State) : State :=
  let c := getCore s phys
  match c.wait, c.inv with
  | some w, some i =>
    if w.timeoutUs ≠ 0 ∧ w.timeoutUs * 1000 < s.devTime - w.since ∧ c.phase = .running then
      cancelAbroad i (endEarly i .late 0x21 (recordFault phys 0x21 4 w.addr s))
    else s
  | _, _ => s

/-! ### The rows -/

/-- `MAT_START` (R121, R171). -/
def execMatStart (core : Fin 160) (s : State) : Out State := .next (onCore core.val startMat s)
/-- `ACC_OVERFLOW` (R132, R133). -/
def execAccOverflow (core : Fin 160) (s : State) : Out State := .next (onCore core.val overflowMat s)
/-- `ACC_REPLAY_RESTART` (R132). -/
def execAccReplayRestart (core : Fin 160) (s : State) : Out State := .next (onCore core.val restartMat s)
/-- `MAT_COMPLETE` (R189). -/
def execMatComplete (core : Fin 160) (s : State) : Out State := .next (onCore core.val completeMat s)
/-- `VEC_START` (R184). -/
def execVecStart (core : Fin 160) (s : State) : Out State := .next (onCore core.val startVec s)
/-- `VEC_COMPLETE` (R189). -/
def execVecComplete (core : Fin 160) (s : State) : Out State := .next (onCore core.val completeVec s)
/-- `MOV_COMPLETE` (R196). -/
def execMovComplete (core : Fin 160) (slot : Fin 8) (s : State) : Out State := .next (onCore core.val (completeMov slot.val) s)
/-- `UNSEAL_CHECK_DONE` (R284). -/
def execUnsealCheckDone (core : Fin 160) (slot : Fin 8) (s : State) : Out State := .next (onCore core.val (checkUnseal slot.val) s)
/-- `SEM_POST_FIRE` (R217). -/
def execSemPostFire (core : Fin 160) (s : State) : Out State := .next (onCore core.val firePost s)
/-- `WAIT_TIMEOUT` (R225). -/
def execWaitTimeout (core : Fin 160) (s : State) : Out State := .next (onCore core.val waitTimeout s)
/-- `OVERRUN` (R202). -/
def execOverrun (core : Fin 160) (slot : Option (Fin 8)) (s : State) : Out State :=
  .next (onCore core.val (overrun (slot.map (·.val))) s)

end Sys2Proof.Machine
end

