-- ==== Sys2Proof/Machine/BlendCheck.lean ====
section
/-! DEFINITION. Blend images: layout, parsing and the checks of a load in the order of R488 (R39–R63, R69). -/

namespace Sys2Proof.Machine

/-- A failed check: code (R65), section and record (R64). -/
structure BlendFail where
  code : Nat
  section_ : Nat
  record : Nat
deriving DecidableEq, Repr

/-- A failure with no section and no record (R488). -/
def failPlain (code : Nat) : BlendFail := { code := code, section_ := 0xFF, record := 0xFFFFFFFF }

/-- The 64-bit load result (R64). -/
def loadResult (f : BlendFail) (phase : Nat) : Dword :=
  BitVec.ofNat 64 (fld 32 f.record + fld 16 f.section_ + fld 8 phase + f.code)

/-- The first failure of a list of checks. -/
def firstFail : List (Option BlendFail) → Option BlendFail
  | [] => none
  | some f :: _ => some f
  | none :: t => firstFail t

def failIf (b : Bool) (f : BlendFail) : Option BlendFail := if b then some f else none

/-- Bytes that are all 0. -/
def allZero (l : List Byte) : Bool := l.all (fun b => b == 0)

/-! ### Header and signature block (R40, R43) -/

def sigBlockLen : Nat := 29872
def hdrMagic (img : List Byte) : Nat := fieldAt img 0x00 4
def hdrFormat (img : List Byte) : Nat := fieldAt img 0x04 2
def hdrKind (img : List Byte) : Nat := fieldAt img 0x06 1
def hdrFlags (img : List Byte) : Nat := fieldAt img 0x07 1
def hdrSize (img : List Byte) : Nat := fieldAt img 0x08 4
def hdrSigOffset (img : List Byte) : Nat := fieldAt img 0x0C 4
def hdrSections (img : List Byte) : Nat := fieldAt img 0x10 2
def hdrTarget (img : List Byte) : Nat := fieldAt img 0x12 1
def hdrBlendId (img : List Byte) : Nat := fieldAt img 0x18 8
def hdrBaseHash (img : List Byte) : Nat := fieldAt img 0x20 32
def hdrRoleChange (img : List Byte) : Bool := bitOf (hdrFlags img) 0

/-- The signed message: bytes 0 to `SIG_OFFSET` − 1 (R43). -/
def signedMessage (img : List Byte) : List Byte := img.take (hdrSigOffset img)
def sigPublicKey (img : List Byte) : List Byte := sliceAt img (hdrSigOffset img + 0x10) 64
def sigSignature (img : List Byte) : List Byte := sliceAt img (hdrSigOffset img + 0x50) 29792

/-- Step 3: header and signature-block fields of a blend image (R488); a wrong kind for the call is WRONG_STATE (R65). -/
def checkHeader (img : List Byte) (len : Nat) (wantPartial : Bool) : Option BlendFail :=
  let so := hdrSigOffset img
  firstFail
    [failIf (hdrMagic img != 0x444E4C42) (failPlain 0x01),
     failIf (hdrFormat img != 1) (failPlain 0x02),
     failIf (decide (1 < hdrKind img)) (failPlain 0x02),
     failIf ((hdrKind img == 1) != wantPartial) (failPlain 0x21),
     failIf (hdrSize img != len) (failPlain 0x03),
     failIf (so + sigBlockLen != hdrSize img || so % 64 != 0) (failPlain 0x03),
     failIf (fieldAt img so 4 != 0x47534C42) (failPlain 0x01),
     failIf (fieldAt img (so + 4) 2 != 2) (failPlain 0x02),
     failIf (fieldAt img (so + 8) 4 != 29792) (failPlain 0x02)]

/-- Step 6: header against kind (R488). A partial image's `TARGET` with a bit of [7:6] set, which R40 gives as 0, is RESERVED_NONZERO:
DESIGN CHOICE, log entry 62. -/
def checkKind (img : List Byte) (meas : Bits256) : Option BlendFail :=
  let so := hdrSigOffset img
  let full := hdrKind img == 0
  firstFail
    [failIf (full && (hdrFlags img != 0 || hdrTarget img != 0 || hdrBaseHash img != 0)) (failPlain 0x02),
     failIf (hdrFlags img / 2 != 0 || decide (64 ≤ hdrTarget img) || !allZero (sliceAt img 0x13 5) || !allZero (sliceAt img 0x40 192) ||
             !allZero (sliceAt img (so + 6) 2) || !allZero (sliceAt img (so + 0xC) 4)) (failPlain 0x07),
     failIf (!full && hdrBaseHash img != meas.toNat) (failPlain 0x20)]

/-! ### Directory (R41, R42) -/

/-- A directory entry (R41). -/
structure SecEntry where
  ix : Nat
  type : Nat
  inst : Nat
  off : Nat
  len : Nat
deriving DecidableEq, Repr

def dirEntry (img : List Byte) (i : Nat) : SecEntry :=
  let o := 0x100 + 16 * i
  { ix := i, type := fieldAt img o 2, inst := fieldAt img (o + 2) 2, off := fieldAt img (o + 4) 4,
    len := fieldAt img (o + 8) 4 }

def directory (img : List Byte) : List SecEntry := (List.range (hdrSections img)).map (dirEntry img)

/-- Record sizes by section type (R42). -/
def recSize : Nat → Nat
  | 1 => 64 | 2 => 80 | 3 => 8 | 4 => 32 | 5 => 32 | 6 => 16 | 7 => 4096 | 8 => 32 | _ => 0

/-- An instance valid for its scope (R42). -/
def instOk (type inst : Nat) : Bool :=
  if type ≤ 4 then decide (inst < 2) else if type = 5 then decide (inst < 64) else inst == 0

/-- The record count that a type may have (R42). -/
def countOk (isPartial : Bool) (e : SecEntry) : Bool :=
  let n := e.len / recSize e.type
  if e.type = 2 ∨ 6 ≤ e.type then n == 1 else if e.type = 1 ∧ isPartial then decide (n ≤ 1) else true

def checkDirEntry (img : List Byte) (isPartial : Bool) (e : SecEntry) : Option BlendFail :=
  let bad := fun c => some { code := c, section_ := e.ix, record := 0xFFFFFFFF }
  if fieldAt img (0x100 + 16 * e.ix + 0xC) 4 != 0 then bad 0x07
  else if e.type = 0 ∨ 8 < e.type then bad 0x06
  else if !instOk e.type e.inst || e.off % 64 != 0 || decide (hdrSigOffset img < e.off + e.len) ||
      e.len % recSize e.type != 0 || !countOk isPartial e then bad 0x06
  else none

/-- Entries that must not overlap the directory or an earlier entry. -/
def checkOverlap (img : List Byte) : Option BlendFail :=
  let dirEnd := 0x100 + 16 * hdrSections img
  let es := directory img
  if hdrSigOffset img < dirEnd then some (failPlain 0x06)
  else
    firstFail (es.map (fun e =>
      failIf (overlaps e.off e.len 0 dirEnd ||
              es.any (fun f => decide (f.ix < e.ix) && overlaps e.off e.len f.off f.len))
        { code := 0x06, section_ := e.ix, record := 0xFFFFFFFF }))

def checkDuplicates (img : List Byte) : Option BlendFail :=
  let es := directory img
  firstFail (es.map (fun e =>
    failIf (es.any (fun f => decide (f.ix < e.ix) && f.type == e.type && f.inst == e.inst))
      { code := 0x06, section_ := e.ix, record := 0xFFFFFFFF }))

/-- Sections an image must carry (R42), as type and instance. -/
def requiredSections (img : List Byte) : List (Nat × Nat) :=
  if hdrKind img = 0 then
    [(1, 0), (1, 1), (2, 0), (2, 1), (3, 0), (3, 1), (4, 0), (4, 1), (6, 0), (7, 0), (8, 0)]
  else
    let d := hdrTarget img / 32 % 2
    [(1, d), (2, d), (3, d), (4, d), (7, 0)] ++ (if hdrRoleChange img then [(8, 0)] else [])

/-- Sections that an image may carry besides the required ones. -/
def optionalSection (img : List Byte) (e : SecEntry) : Bool :=
  e.type == 5 && (hdrKind img == 0 || e.inst == hdrTarget img)

def checkMissing (img : List Byte) : Option BlendFail :=
  let es := directory img
  firstFail
    [failIf ((requiredSections img).any (fun r => !es.any (fun e => e.type == r.1 && e.inst == r.2))) (failPlain 0x06),
     firstFail (es.map (fun e =>
       failIf (!optionalSection img e && !(requiredSections img).contains (e.type, e.inst))
         { code := 0x06, section_ := e.ix, record := 0xFFFFFFFF }))]

/-- Step 7 (R488). A `SECTION_COUNT` outside 1 to 128 (R40), for which no rule names the code, is BAD_DIRECTORY with `SECTION` 0xFF, before any
entry is checked: DESIGN CHOICE, log entry 62. -/
def checkDirectory (img : List Byte) : Option BlendFail :=
  firstFail
    [failIf (hdrSections img == 0 || decide (128 < hdrSections img)) (failPlain 0x06),
     firstFail ((directory img).map (checkDirEntry img (hdrKind img == 1))),
     checkOverlap img, checkDuplicates img, checkMissing img]

/-- Step 8: the first byte of a gap that is not 0 (R39, R488). -/
def gapByte (img : List Byte) : Option Nat :=
  let es := directory img
  (List.range (hdrSigOffset img)).find? (fun o =>
    decide (0x100 + 16 * hdrSections img ≤ o) && !es.any (fun e => decide (e.off ≤ o) && decide (o < e.off + e.len)) &&
      img.getD o 0 != 0)

def checkGaps (img : List Byte) : Option BlendFail :=
  (gapByte img).map (fun o => { code := 0x07, section_ := 0xFF, record := o })

/-! ### Records -/

def secOf (img : List Byte) (type inst : Nat) : Option SecEntry :=
  (directory img).find? (fun e => e.type == type && e.inst == inst)

def secRecords (img : List Byte) (e : SecEntry) (size : Nat) : List (List Byte) :=
  (List.range (e.len / size)).map (fun i => sliceAt img (e.off + i * size) size)

def recordsOf (img : List Byte) (type inst size : Nat) : List (List Byte) :=
  match secOf img type inst with
  | none => []
  | some e => secRecords img e size

/-- The numbers of the bits of a mask, rising. -/
def maskBits (width m : Nat) : List Nat := (List.range width).filter (bitOf m)

/-- A partition record (R45), with its stage library. -/
def parsePartition (r : List Byte) (stages : List Bits256) : Partition :=
  let cr := fieldAt r 3 1
  let dbg := fieldAt r 9 1
  { express := bitOf (fieldAt r 1 1) 0, dataflow := fieldAt r 2 1, cacheRegion := if cr = 0xFF then none else some cr,
    grinderMask := fieldAt r 4 2, streamUnits := fieldAt r 6 1, stationaryUnits := fieldAt r 7 1,
    spillUnits := fieldAt r 8 1, accumVisible := bitOf dbg 0, singleStep := bitOf dbg 1, hostScratchRead := bitOf dbg 2,
    semBase := fieldAt r 0xA 2, semUnits := fieldAt r 0xC 2, cores := maskBits 80 (fieldAt r 0x10 16), stages := stages }

def parseStages (img : List Byte) (pid : Nat) : List Bits256 :=
  (recordsOf img 5 pid 32).map (fun r => BitVec.ofNat 256 (leNat r))

def parseEnd (v : Nat) : LinkEnd := { grinder := v / 2 ^ 14 == 1, port := v / 2 ^ 11 % 8, unit := v % 256 }

/-- A link record (R54). -/
def parseLink (r : List Byte) : LinkDef :=
  let route := fieldAt r 4 4
  { producer := parseEnd (fieldAt r 0 2), consumer := parseEnd (fieldAt r 2 2), length := route / 2 ^ 27,
    order := route % 2 ^ 20, slotMask := fieldAt r 8 2, ringKib := fieldAt r 0xA 2, ringOffset := fieldAt r 0xC 4,
    semFull := fieldAt r 0x10 2, semEmpty := fieldAt r 0x12 2, persistent := bitOf (fieldAt r 0x14 2) 0 }

def parseClasses (r : List Byte) : ClassDef :=
  { expressHbm := fieldAt r 0 1 == 1, expressRing := fieldAt r 1 1 == 1, expressFloor := fieldAt r 2 1,
    weightFirst := fieldAt r 4 1, weightSecond := fieldAt r 5 1, weightBulk := fieldAt r 6 1 }

def parseRole (r : List Byte) : RoleDef :=
  { manager := fieldAt r 0 1 == 1, uplinkEast := bitOf (fieldAt r 1 1) 0, uplinkWest := bitOf (fieldAt r 1 1) 1,
    sessionLimit := fieldAt r 4 4, prefixNodes := fieldAt r 8 4, tableBase := fieldAt r 0x10 8,
    tableSize := fieldAt r 0x18 8 }

/-! ### Spare maps (R51, R52) -/

/-- The lowest-numbered healthy physical core of a die that no entry names. -/
def pickSpare (faulty : Nat → Bool) (taken : List Nat) : Option Nat :=
  (List.range 84).find? (fun p => !faulty p && !taken.contains p)

/-- Link automatic entries in rising order. `keep` gives the core that an entry keeps. -/
def resolveAuto (faulty : Nat → Bool) (keep : Nat → Option Nat) : List (Nat × Nat) → List Nat → Tab Nat
  | [], _ => []
  | (n, e) :: t, taken =>
    if e < 84 then (n, e) :: resolveAuto faulty keep t taken
    else if e = 0xFF then
      match keep n with
      | some p => (n, p) :: resolveAuto faulty keep t taken
      | none =>
        match pickSpare faulty taken with
        | some p => (n, p) :: resolveAuto faulty keep t (p :: taken)
        | none => resolveAuto faulty keep t taken
    else resolveAuto faulty keep t taken

/-- The links of one die: die-local logical core to die-local physical core. -/
def resolveSpare (faulty : Nat → Bool) (keep : Nat → Option Nat) (entries : List Nat) : Tab Nat :=
  let es := (List.range entries.length).zip entries
  let named := (entries.filter (· < 84)) ++ (es.filterMap (fun e => if e.2 = 0xFF then keep e.1 else none))
  resolveAuto faulty keep es named

/-! ### Stops and routes (R15, R20, R52, R56, R57) -/

def coreStop (p : Nat) : Nat × Nat := (1 + p % 12, 1 + p / 12)

def grinderCols : List Nat := [1, 3, 4, 5, 7, 8, 9, 11]

/-- The stop of die-local grinder g. -/
def grinderStop (g : Nat) : Nat × Nat := (grinderCols.getD (g % 8) 0, if g < 8 then 0 else 8)

def absDiff (a b : Nat) : Nat := if a ≤ b then b - a else a - b

/-- One move of a route: a column move toward dx, or a row move toward dy. -/
def moveStop (row : Bool) (from_ dst : Nat × Nat) : Nat × Nat :=
  if row then (from_.1, if from_.2 < dst.2 then from_.2 + 1 else from_.2 - 1)
  else (if from_.1 < dst.1 then from_.1 + 1 else from_.1 - 1, from_.2)

/-- The mesh links of a route: stop, and stop moved to. -/
def routeLinks (order : Nat) (dst : Nat × Nat) : Nat → Nat × Nat → List ((Nat × Nat) × (Nat × Nat))
  | 0, _ => []
  | n + 1, at_ =>
    let nx := moveStop (order % 2 == 1) at_ dst
    (at_, nx) :: routeLinks (order / 2) dst n nx

def popcount (w m : Nat) : Nat := (maskBits w m).length

/-- The columns-first route between two stops (R52). -/
def columnsFirst (a b : Nat × Nat) : Nat × Nat :=
  let dx := absDiff a.1 b.1
  let dy := absDiff a.2 b.2
  (dx + dy, (2 ^ dy - 1) * 2 ^ dx)

/-- A run of more than 3 consecutive slots, round the wheel (R57). -/
def longRun (m : Nat) : Bool :=
  (List.range 16).any (fun k => bitOf m k && bitOf m ((k + 1) % 16) && bitOf m ((k + 2) % 16) && bitOf m ((k + 3) % 16))

/-- The stop of a link end on a die, where its unit exists. -/
def endStop (st : Structure) (die : Nat) (e : LinkEnd) : Option (Nat × Nat) :=
  if e.grinder then some (grinderStop e.unit)
  else (tabFind st.spare (die * 80 + e.unit)).map (fun p => coreStop (p % 84))

/-- Links of one die, with their index. -/
def linksOfDie (st : Structure) (die : Nat) : List (Nat × LinkDef) :=
  st.links.filter (fun e => decide (e.1 / 4096 = die))

/-- The mesh links a link reserves. -/
def linkUses (st : Structure) (die : Nat) (l : LinkDef) : List ((Nat × Nat) × (Nat × Nat)) :=
  match endStop st die l.producer, endStop st die l.consumer with
  | some a, some b => routeLinks l.order b l.length a
  | _, _ => []

/-- The partition of a die's link end. -/
def partOfEnd (st : Structure) (die : Nat) (e : LinkEnd) : Option Nat :=
  (st.parts.find? (fun p => decide (p.1 / 32 = die) &&
    (if e.grinder then bitOf p.2.grinderMask e.unit else p.2.cores.contains e.unit))).map (·.1)

/-- The scratchpad that holds a link's ring: the consumer's, or the producer's for a grinder consumer (R55). -/
def ringUnit (l : LinkDef) : Nat := if l.consumer.grinder then l.producer.unit else l.consumer.unit

/-- Ranges a link takes in scratchpads: its ring, and its producer's send copy where that is another scratchpad (R215). -/
def ringRanges (l : LinkDef) : List (Nat × Nat × Nat) :=
  (ringUnit l, l.ringOffset, l.ringKib * 1024) ::
  (if !l.producer.grinder && !l.consumer.grinder && l.producer.unit != l.consumer.unit then
     [(l.producer.unit, l.ringOffset, l.ringKib * 1024)] else [])

/-! ### Step 9: the checks of each section's records -/

/-- What a section check needs: the image, the structure that would result, the dies' faulty cores and ways. -/
structure CheckEnv where
  img : List Byte
  st : Structure
  /-- Faulty islands by index (R29), and faulty ways by die × 8 + way. -/
  faultyIsl : List Nat
  faultyWay : List Nat
  reserveBase : Nat
  /-- The die-local physical core that a die's automatic entry keeps in a partial image. -/
  keep : Nat → Nat → Option Nat

/-- The records of a spare map (R51). In a partial image an entry that names a core which another partition's automatic entry keeps (R73)
names a core twice: DEDUCED, log entry 61. -/
def checkSpare (v : CheckEnv) (e : SecEntry) : Option BlendFail :=
  let es := (sliceAt v.img e.off 80).map (·.toNat)
  let kept := fun (n : Nat) => if es.getD n 0 = 0xFF then v.keep e.inst n else none
  firstFail ((List.range 80).map (fun n =>
    let x := es.getD n 0
    let bad := fun c => { code := c, section_ := e.ix, record := n : BlendFail }
    firstFail
      [failIf (decide (84 ≤ x) && x != 0xFE && x != 0xFF) (bad 0x10),
       failIf (decide (x < 84) && (es.take n).contains x) (bad 0x10),
       failIf (decide (x < 84) && (List.range n).any (fun m => kept m == some x)) (bad 0x10),
       failIf (match kept n with | some p => (es.take n).contains p | none => false) (bad 0x10),
       failIf (x == 0xFF && (tabFind v.st.spare (e.inst * 80 + n)).isNone) (bad 0x10),
       failIf (decide (x < 84) && v.faultyIsl.contains (islIx e.inst x)) (bad 0x11)]))

/-- The records of a partition section (R45-R49). A `SEM_BASE` that is no multiple of 64 and a `SEM_UNITS` outside 1 to 1,024, for which R65
names no code, are SEMAPHORE: DESIGN CHOICE, log entry 62. -/
def checkPartitions (v : CheckEnv) (e : SecEntry) : Option BlendFail :=
  let rs := secRecords v.img e 64
  let ps := rs.map (fun r => (fieldAt r 0 1, parsePartition r []))
  let others := (v.st.parts.filter (fun p => decide (p.1 / 32 = e.inst) && !ps.any (fun q => q.1 == p.1 % 32))).map
    (fun p => (p.1 % 32, p.2))
  firstFail ((List.range rs.length).map (fun i =>
    let r := rs.getD i []
    let p := ps.getD i (0, parsePartition [] [])
    let seen := others ++ ps.take i
    let bad := fun c => { code := c, section_ := e.ix, record := 64 * i : BlendFail }
    firstFail
      [failIf (decide (2 ≤ fieldAt r 1 1) || decide (8 ≤ fieldAt r 9 1) || !allZero (sliceAt r 0xE 2) ||
               fieldAt r 0x10 16 / 2 ^ 80 != 0 || !allZero (sliceAt r 0x20 32)) (bad 0x07),
       failIf (decide (32 ≤ p.1) || seen.any (fun q => q.1 == p.1) || p.2.cores == [] ||
               seen.any (fun q => q.2.cores.any p.2.cores.contains || q.2.grinderMask &&& p.2.grinderMask != 0) ||
               p.2.cores.any (fun c => (tabFind v.st.spare (e.inst * 80 + c)).isNone) ||
               (match p.2.cacheRegion with
                | none => false
                | some r => (tabFind v.st.regions (e.inst * 8 + r)).isNone || decide (8 ≤ r))) (bad 0x12),
       failIf (p.2.streamUnits + p.2.stationaryUnits + p.2.spillUnits != 32) (bad 0x13),
       failIf (decide (2 < p.2.dataflow)) (bad 0x14),
       failIf (p.2.semBase % 64 != 0 || p.2.semUnits == 0 || decide (1024 < p.2.semUnits) ||
               decide (65536 < p.2.semBase + 64 * p.2.semUnits) ||
               seen.any (fun q => overlaps q.2.semBase (64 * q.2.semUnits) p.2.semBase (64 * p.2.semUnits))) (bad 0x1A)]))

def checkRegions (v : CheckEnv) (e : SecEntry) : Option BlendFail :=
  let rs := secRecords v.img e 8
  firstFail ((List.range rs.length).map (fun i =>
    let r := rs.getD i []
    let seen := rs.take i
    let bad := fun c => { code := c, section_ := e.ix, record := 8 * i : BlendFail }
    firstFail
      [failIf (!allZero (sliceAt r 3 5)) (bad 0x07),
       failIf (decide (8 ≤ fieldAt r 0 1) || decide (2 ≤ fieldAt r 1 1) || fieldAt r 2 1 == 0 ||
               seen.any (fun q => fieldAt q 0 1 == fieldAt r 0 1 || fieldAt q 2 1 &&& fieldAt r 2 1 != 0) ||
               (maskBits 8 (fieldAt r 2 1)).any (fun w => v.faultyWay.contains (e.inst * 8 + w))) (bad 0x15)]))

/-- A link end that exists (R54): kind, port and unit. DEDUCED: no rule ties a port to a direction, log entry 60. -/
def endOk (raw : Nat) : Bool :=
  let k := raw / 2 ^ 14
  let port := raw / 2 ^ 11 % 8
  let u := raw % 256
  (k == 0 && decide (port < 3) && decide (u < 80)) ||
  (k == 1 && decide (port < 2) && decide (u < 16))

/-- The route of a link agrees with its ends (R56). -/
def routeOk (a b : Nat × Nat) (same : Bool) (l : LinkDef) : Bool :=
  if same then l.length == 0 && l.order == 0
  else l.length == absDiff a.1 b.1 + absDiff a.2 b.2 && popcount 20 l.order == absDiff a.2 b.2 &&
    decide (l.order < 2 ^ l.length)

/-- The slot rules hold on every mesh link of a route among some links (R57). -/
def slotsOk (st : Structure) (die : Nat) (l : LinkDef) (others : List LinkDef) : Bool :=
  (linkUses st die l).all (fun seg =>
    let masks := (others.filter (fun o => (linkUses st die o).contains seg)).map (·.slotMask)
    let union := masks.foldl (· ||| ·) 0
    union &&& l.slotMask == 0 && decide (popcount 16 (union ||| l.slotMask) ≤ 12) && !longRun (union ||| l.slotMask))

/-- A link whose automatic end is routed anew (R52). -/
def rerouted (st : Structure) (die : Nat) (l : LinkDef) : LinkDef :=
  let auto := fun (e : LinkEnd) => !e.grinder && tabGet 0xFE st.spareWritten (die * 80 + e.unit) == 0xFF
  if auto l.producer || auto l.consumer then
    match endStop st die l.producer, endStop st die l.consumer with
    | some a, some b => { l with length := (columnsFirst a b).1, order := (columnsFirst a b).2 }
    | _, _ => l
  else l

/-- The records of a link section, each with the route that R52 gives it, beside the circuits that stay (R54-R57). -/
def checkLinks (v : CheckEnv) (e : SecEntry) (applied : List LinkDef) : Option BlendFail :=
  let rs := secRecords v.img e 32
  let die := e.inst
  let mine := rs.map (fun r => rerouted v.st die (parseLink r))
  firstFail ((List.range rs.length).map (fun i =>
    let r := rs.getD i []
    let l := mine.getD i (parseLink r)
    let seen := applied ++ mine.take i
    let same := !l.producer.grinder && !l.consumer.grinder && l.producer.unit == l.consumer.unit
    let bad := fun c => { code := c, section_ := e.ix, record := 32 * i : BlendFail }
    let pp := partOfEnd v.st die l.producer
    let area := match pp with | some p => ((tabFind v.st.parts p).map (·.streamUnits)).getD 0 * 131072 | none => 0
    let semLo := match pp with | some p => ((tabFind v.st.parts p).map (·.semBase)).getD 0 | none => 0
    let semN := match pp with | some p => ((tabFind v.st.parts p).map (·.semUnits)).getD 0 * 64 | none => 0
    let inRange := fun (x : Nat) => decide (semLo ≤ x) && decide (x < semLo + semN)
    firstFail
      [failIf (fieldAt r 0 2 / 256 % 8 != 0 || fieldAt r 2 2 / 256 % 8 != 0 || fieldAt r 4 4 / 2 ^ 20 % 128 != 0 ||
               decide (2 ≤ fieldAt r 0x14 2) || !allZero (sliceAt r 0x16 10)) (bad 0x07),
       failIf (!endOk (fieldAt r 0 2) || !endOk (fieldAt r 2 2) || (endStop v.st die l.producer).isNone ||
               (endStop v.st die l.consumer).isNone || pp.isNone || partOfEnd v.st die l.consumer != pp ||
               (l.producer.grinder && l.consumer.grinder)) (bad 0x16),
       failIf (!routeOk ((endStop v.st die l.producer).getD (0, 0)) ((endStop v.st die l.consumer).getD (0, 0)) same l)
         (bad 0x17),
       failIf (if same then l.slotMask != 0 else l.slotMask == 0 || !slotsOk v.st die l seen) (bad 0x18),
       failIf (l.ringKib % 4 != 0 || l.ringKib == 0 || decide (2048 < l.ringKib) || l.ringOffset % 4096 != 0 ||
               decide (area < l.ringOffset + l.ringKib * 1024) ||
               (ringRanges l).any (fun x => seen.any (fun o => (ringRanges o).any (fun y =>
                 x.1 == y.1 && overlaps x.2.1 x.2.2 y.2.1 y.2.2)))) (bad 0x19),
       failIf (!inRange l.semFull || !inRange l.semEmpty || l.semFull == l.semEmpty ||
               seen.any (fun o => o.semFull == l.semFull || o.semEmpty == l.semFull || o.semFull == l.semEmpty ||
                 o.semEmpty == l.semEmpty)) (bad 0x1A),
       failIf (decide (4096 ≤ seen.length)) (bad 0x1F)]))

/-- The descriptors of a stage library (R62, R183). R183 gives STAGE for a reserved field too, which is read as the exception to the order of
R488: DEDUCED, log entry 60. A descriptor past the 256th, and a library of a partition that does not exist, for which no rule names the code, are
STAGE: DESIGN CHOICE, log entry 62. -/
def checkStages (v : CheckEnv) (e : SecEntry) : Option BlendFail :=
  let rs := secRecords v.img e 32
  firstFail ((List.range rs.length).map (fun i =>
    let d := BitVec.ofNat 256 (leNat (rs.getD i []))
    failIf (!stageValid d || decide (256 ≤ i) || (tabFind v.st.parts e.inst).isNone) { code := 0x1E, section_ := e.ix, record := 32 * i }))

def checkClasses (v : CheckEnv) (e : SecEntry) : Option BlendFail :=
  let r := sliceAt v.img e.off 16
  let c := v.st.classes
  firstFail
    [failIf (fieldAt r 3 1 != 0 || !allZero (sliceAt r 7 9)) { code := 0x07, section_ := e.ix, record := 0 },
     failIf (decide (2 ≤ fieldAt r 0 1) || decide (2 ≤ fieldAt r 1 1) ||
             (c.expressFloor != 0 && (decide (c.expressFloor < 0x48) || decide (0x60 < c.expressFloor))) ||
             c.weightFirst == 0 || c.weightSecond == 0 || c.weightBulk == 0 ||
             (v.st.parts.any (·.2.express) && (!c.expressHbm || !c.expressRing || c.expressFloor == 0)))
       { code := 0x1B, section_ := e.ix, record := 0 }]

/-- R59 for a partial image, which carries no `CLASSES` record: an Express target without reservations. The code is CLASS with `SECTION` 0xFF,
after the sections and before the target (`validateImage`): DESIGN CHOICE, log entry 62. -/
def checkExpressTarget (v : CheckEnv) : Bool :=
  v.st.parts.any (·.2.express) &&
    (!v.st.classes.expressHbm || !v.st.classes.expressRing || v.st.classes.expressFloor == 0)

def checkQueues (v : CheckEnv) (e : SecEntry) : Option BlendFail :=
  let rs := (List.range 1024).map (fun q => sliceAt v.img (e.off + 4 * q) 4)
  firstFail ((List.range 1024).map (fun q =>
    let r := rs.getD q []
    let p := fieldAt r 0 1
    let bad := fun c => { code := c, section_ := e.ix, record := 4 * q : BlendFail }
    firstFail
      [failIf (fieldAt r 3 1 != 0) (bad 0x07),
       failIf (if p = 0xFF then fieldAt r 1 1 != 0 || fieldAt r 2 1 != 0
               else match tabFind v.st.parts p with
                 | none => true
                 | some d => decide (3 < fieldAt r 1 1) || decide (16 < fieldAt r 2 1) ||
                     (fieldAt r 1 1 == 0) != d.express) (bad 0x1C)]))

/-- The least `TABLE_SIZE` of a manager (R404). -/
def managerTableSize (sessions nodes : Nat) : Nat := alignUp (4096 + 128 * sessions + 80 * nodes) 4096

def checkRole (v : CheckEnv) (e : SecEntry) : Option BlendFail :=
  let r := sliceAt v.img e.off 32
  let x := parseRole r
  firstFail
    [failIf (!allZero (sliceAt r 2 2) || !allZero (sliceAt r 0xC 4) || decide (4 ≤ fieldAt r 1 1))
       { code := 0x07, section_ := e.ix, record := 0 },
     failIf (decide (2 ≤ fieldAt r 0 1) ||
             (if x.manager then
                x.sessionLimit == 0 || decide (65536 < x.sessionLimit) || decide (4194304 < x.prefixNodes) ||
                x.tableBase % 4096 != 0 || decide (hbmTop < x.tableBase + x.tableSize) ||
                overlaps x.tableBase x.tableSize v.reserveBase 0x2000000 ||
                decide (x.tableSize < managerTableSize x.sessionLimit x.prefixNodes)
              else fieldAt r 1 1 != 0 || x.sessionLimit != 0 || x.prefixNodes != 0 || x.tableBase != 0 || x.tableSize != 0))
       { code := 0x1D, section_ := e.ix, record := 0 }]

/-- Step 9 for one directory entry. -/
def checkSection (v : CheckEnv) (applied : List LinkDef) (e : SecEntry) : Option BlendFail :=
  match e.type with
  | 1 => checkPartitions v e
  | 2 => checkSpare v e
  | 3 => checkRegions v e
  | 4 => checkLinks v e applied
  | 5 => checkStages v e
  | 6 => checkClasses v e
  | 7 => checkQueues v e
  | _ => checkRole v e

/-! ### The structure that would result -/

/-- The faulty physical cores of a die. -/
def faultyCore (faultyIsl : List Nat) (die p : Nat) : Bool := faultyIsl.contains (islIx die p)

/-- Spare-map entries of a die: from the image where it carries them, else as applied. -/
def spareEntries (img : List Byte) (cur : Structure) (die : Nat) : List Nat :=
  match secOf img 2 die with
  | some e => (sliceAt img e.off 80).map (·.toNat)
  | none => (List.range 80).map (fun n => tabGet 0xFE cur.spareWritten (die * 80 + n))

/-- A re-blend keeps the cores of entries that it does not change and that are not the target's (R51, R73). -/
def keepCore (isPartial : Bool) (cur : Structure) (es : List Nat) (die target n : Nat) : Option Nat :=
  if !isPartial then none
  else
    let mine := match tabFind cur.parts target with | some p => decide (target / 32 = die) && p.cores.contains n | none => false
    if mine then none
    else if es.getD n 0 = tabGet 0xFE cur.spareWritten (die * 80 + n) then
      (tabFind cur.spare (die * 80 + n)).map (· % 84)
    else none

def spareOfDie (img : List Byte) (cur : Structure) (faultyIsl : List Nat) (isPartial : Bool) (target die : Nat) : Tab Nat :=
  let es := spareEntries img cur die
  (resolveSpare (faultyCore faultyIsl die) (keepCore isPartial cur es die target) es).map
    (fun e => (die * 80 + e.1, die * 84 + e.2))

def parseRegions (img : List Byte) (die : Nat) : Tab RegionDef :=
  (recordsOf img 3 die 8).foldl (fun t r =>
    tabPut t (die * 8 + fieldAt r 0 1) { placement := if fieldAt r 1 1 = 0 then .direct else .sectored,
                                         wayMask := fieldAt r 2 1 }) []

def parseQueues (img : List Byte) (cur : Tab QueueBind) : Tab QueueBind :=
  match secOf img 7 0 with
  | none => cur
  | some e =>
    (List.range 1024).foldl (fun t q =>
      let o := e.off + 4 * q
      if fieldAt img o 1 = 0xFF then t
      else tabPut t q { partition := fieldAt img o 1, cls := fieldAt img (o + 1) 1, depthLog2 := fieldAt img (o + 2) 1 }) []

/-- The partitions of an image's records for a die. A partial image without a `STAGES` section leaves its target an empty library, as R42 says of
a full image: DESIGN CHOICE, log entry 62. -/
def parseParts (img : List Byte) (die : Nat) : Tab Partition :=
  (recordsOf img 1 die 64).foldl (fun t r =>
    let pid := die * 32 + fieldAt r 0 1
    tabPut t pid (parsePartition r (parseStages img pid))) []

def mergeTab {α : Type} (t u : Tab α) : Tab α := u.foldl (fun t e => tabPut t e.1 e.2) t

/-- Give each link of a list the lowest index of its die that is free. -/
def placeLinks (die : Nat) : List LinkDef → Tab LinkDef → Tab LinkDef
  | [], t => t
  | l :: ls, t =>
    placeLinks die ls (tabPut t (((List.range (t.length + 1)).map (· + die * 4096)).find? (fun k => (tabFind t k).isNone) |>.getD (die * 4096)) l)

/-- Links of a die that stay, under their indices: those of other partitions than the target (R73). -/
def keptLinks (isPartial : Bool) (cur : Structure) (die target : Nat) : Tab LinkDef :=
  if isPartial then (linksOfDie cur die).filter (fun e => partOfEnd cur die e.2.producer != some target) else []

/-- The combined structure of R63: what an image spells, over the applied structure for a partial image. -/
def combined (img : List Byte) (cur : Structure) (faultyIsl : List Nat) : Structure :=
  let isPartial := hdrKind img == 1
  let target := hdrTarget img
  let has := fun type die => (secOf img type die).isSome
  let written := (List.range 160).foldl (fun t c =>
    tabSet 0xFE t c ((spareEntries img cur (c / 80)).getD (c % 80) 0xFE)) []
  let spare := spareOfDie img cur faultyIsl isPartial target 0 ++ spareOfDie img cur faultyIsl isPartial target 1
  let keepPart := fun (e : Nat × Partition) => isPartial && e.1 != target
  let parts := mergeTab (cur.parts.filter keepPart) (mergeTab (parseParts img 0) (parseParts img 1))
  let regions := mergeTab (cur.regions.filter (fun e => isPartial && !has 3 (e.1 / 8)))
    (mergeTab (parseRegions img 0) (parseRegions img 1))
  let st : Structure :=
    { parts := parts, spareWritten := written, spare := spare, regions := regions, links := [],
      queues := parseQueues img cur.queues,
      classes := (match recordsOf img 6 0 16 with | r :: _ => parseClasses r | [] => cur.classes),
      role := (match recordsOf img 8 0 32 with | r :: _ => parseRole r | [] => cur.role) }
  let dieLinks := fun die =>
    let img' := (recordsOf img 4 die 32).map (fun r => rerouted st die (parseLink r))
    if isPartial && !has 4 die then linksOfDie cur die else placeLinks die img' (keptLinks isPartial cur die target)
  { st with links := dieLinks 0 ++ dieLinks 1 }

/-! ### Step 10: what a partial image may change (R69) -/

/-- Cores of the old or new target on its die. -/
def targetCores (cur next : Structure) (target : Nat) : List Nat :=
  ((tabFind cur.parts target).map (·.cores)).getD [] ++ ((tabFind next.parts target).map (·.cores)).getD []

/-- Regions of a die that some other partition than the target uses. -/
def regionShared (cur : Structure) (target key : Nat) : Bool :=
  cur.parts.any (fun p => p.1 != target && p.1 / 32 == key / 8 && p.2.cacheRegion == some (key % 8))

/-- Step 10. R488 gives no order of the comparisons: the spare map, the partition record, cache regions, links and queue entries, each rising:
DESIGN CHOICE, log entry 62. -/
def checkTarget (img : List Byte) (cur next : Structure) : Option BlendFail :=
  let target := hdrTarget img
  let die := target / 32
  let at_ := fun (type : Nat) (rec : Nat) =>
    { code := 0x22, section_ := ((secOf img type (if type = 7 then 0 else die)).map (·.ix)).getD 0xFF, record := rec : BlendFail }
  firstFail
    ((List.range 80).map (fun n =>
       failIf (tabGet 0xFE cur.spareWritten (die * 80 + n) != tabGet 0xFE next.spareWritten (die * 80 + n) &&
               !(targetCores cur next target).contains n) (at_ 2 n)) ++
     [firstFail ((List.range (recordsOf img 1 die 64).length).map (fun i =>
        failIf (die * 32 + fieldAt ((recordsOf img 1 die 64).getD i []) 0 1 != target) (at_ 1 (64 * i)))),
      firstFail ((List.range 8).map (fun r =>
        let k := die * 8 + r
        failIf (regionShared cur target k && tabFind cur.regions k != tabFind next.regions k)
          (match (recordsOf img 3 die 8).findIdx? (fun x => fieldAt x 0 1 == r) with | some i => at_ 3 (8 * i) | none => failPlain 0x22))),
      firstFail ((List.range (recordsOf img 4 die 32).length).map (fun i =>
        let l := parseLink ((recordsOf img 4 die 32).getD i [])
        failIf (partOfEnd next die l.producer != some target) (at_ 4 (32 * i)))),
      firstFail ((List.range 1024).map (fun q =>
        let a := tabFind cur.queues q
        let b := tabFind next.queues q
        failIf (a != b && !((a.map (·.partition)) == some target || (b.map (·.partition)) == some target)) (at_ 7 (4 * q))))])

/-! ### Phase 3 as a whole -/

/-- Faulty islands and ways of the module. -/
def faultyIslands (s : State) : List Nat := (s.isl.filter (·.2.faulty)).map (·.1)
def faultyWays (s : State) : List Nat :=
  (tabGet dieCacheReset s.cache 0).faulty ++ (tabGet dieCacheReset s.cache 1).faulty.map (· + 8)

/-- The base of the blend reservation (R38). -/
def reserveBase (s : State) : Nat :=
  match s.blend.reserve with
  | some k => k * stackSize + 0x5FE000000
  | none => 0x23FE000000

/-- The validate phase (R63, R488 steps 6 to 10): the first failure, or the structure to apply. -/
def validateImage (s : State) (img : List Byte) : Option BlendFail × Structure :=
  let fi := faultyIslands s
  let next := combined img s.blend.cur fi
  let v : CheckEnv := { img := img, st := next, faultyIsl := fi, faultyWay := faultyWays s, reserveBase := reserveBase s,
                        keep := fun die => keepCore (hdrKind img == 1) s.blend.cur (spareEntries img s.blend.cur die) die (hdrTarget img) }
  let isPartial := hdrKind img == 1
  let applied := fun (e : SecEntry) => if isPartial then (keptLinks true s.blend.cur e.inst (hdrTarget img)).map (·.2) else []
  (firstFail
    [checkKind img s.blend.meas, checkDirectory img, checkGaps img,
     firstFail ((directory img).map (fun e => checkSection v (applied e) e)),
     failIf (isPartial && checkExpressTarget v) (failPlain 0x1B),
     if isPartial then checkTarget img s.blend.cur next else none], next)

end Sys2Proof.Machine
end

