-- ==== Sys2Proof/Machine/Stops.lean ====
section
/-! DEFINITION. The network's stops, the units at them, the routes of packets between them, and flits that arrive with an error (R20-R24). -/

namespace Sys2Proof.Machine

/-- A network stop: its die, column and row. -/
abbrev Stop := Nat × Nat × Nat

/-- The stops of a die: columns 0 to 12 and rows 0 to 8, but for (0, 0) and (0, 8) (R20). -/
def stopExists (p : Stop) : Bool :=
  decide (p.1 < 2) && decide (p.2.1 ≤ 12) && decide (p.2.2 ≤ 8) && !(decide (p.2.1 = 0) && (decide (p.2.2 = 0) || decide (p.2.2 = 8)))

/-- The stops of the units (R20). -/
def unitStop : NetDest → Stop
  | .stack n => (dieOfStack n, 2 + 4 * (n % 6 % 3), if n % 6 < 3 then 0 else 8)
  | .core p => (p / 84, coreStop (p % 84))
  | .grinder g => (g / 16, grinderStop (g % 16))
  | .gkPort p => (0, 0, 3 + p)
  | .courierPort p => (1, 0, 2 + p)

/-- The stops of a die's control-processor cluster, and of the trust processor (R20). -/
def controlStop (die : Nat) : Stop := (die, 0, 1)
def trustStop : Stop := (0, 0, 2)

/-- The columns from one to another, without the first. -/
def columnsTo (a b : Nat) : List Nat := if a ≤ b then (List.range (b - a)).map (· + a + 1) else (List.range (a - b)).map (fun k => a - 1 - k)

/-- The stops of a packet's dimension-ordered route (R22, R24): along the source row to the destination's column, over the bridge in that row where
the destination is on the other die, then along the column. -/
def packetRoute (a b : Stop) : List Stop :=
  let row := a.2.2
  (a :: (if a.1 = b.1 then (columnsTo a.2.1 b.2.1).map (fun x => (a.1, x, row))
    else (columnsTo a.2.1 12).map (fun x => (a.1, x, row)) ++ (b.1, 12, row) :: (columnsTo 12 b.2.1).map (fun x => (b.1, x, row)))) ++
  (columnsTo row b.2.2).map (fun y => (b.1, b.2.1, y))

/-- A flit error lies in data that travel from one unit to another, at a stop of their route (R21, R22). -/
def errorOnWay (e : Option FlitError) (src dst : NetDest) (d : PData) : Bool :=
  match e with
  | none => true
  | some e => decide (256 * e.flit.val < d.length) && (packetRoute (unitStop src) (unitStop dst)).contains (e.die.val, e.x.val, e.y.val)

/-- Log an uncorrectable flit (R21). -/
def logFlit (e : FlitError) (s : State) : State :=
  logEvent .netUncorrectable (islIx e.die.val (106 + e.y.val)) (leBytes 1 e.x.val ++ leBytes 1 e.y.val ++ [e.link]) s

/-- A flit's four granules are poisoned, and the error is logged (R21). -/
def spoilFlit (e : Option FlitError) (d : PData) (s : State) : PData × State :=
  match e with
  | none => (d, s)
  | some e =>
    let lo := 256 * e.flit.val
    (d.take lo ++ (sliceAt d lo 256).map (fun b => (b.1, true)) ++ d.drop (lo + 256), logFlit e s)

end Sys2Proof.Machine
end

