-- ==== Sys2Proof/Machine/Sequencer.lean ====
section
/-! DEFINITION. The sequencer around its ops: block fetches, the end of an invocation, single steps, switches at tile boundaries, and
persistent streams (R187, R205-R209, R219-R224, R363, R370-R372). -/

namespace Sys2Proof.Machine

/-! ### Block fetch (R187) -/

/-- Keep four blocks, the ones from PC's block on before others. -/
def keepBlocks (pc : Nat) (bs : List Block) : List Block :=
  let near := bs.filter (fun b => decide (blockBase pc ≤ b.base) && decide (b.base < blockBase pc + 8192))
  let far := bs.filter (fun b => !(decide (blockBase pc ≤ b.base) && decide (b.base < blockBase pc + 8192)))
  near ++ far.drop (far.length + near.length - 4)

/-- Where a program block lies in HBM under a translation, if a fetch may read it there (R187, R318). -/
def blockAddr (s : State) (e : SegEntry) (base : Nat) : Option Nat :=
  let a := e.dbase + (base - e.vstart)
  if e.read && decide (e.home = .local) && segCovers e (base + 2047) && (hbmFault s a 2048).isNone then some a else none

/-- The block k blocks after PC's arrives, translated by the core's engine (R314, R315), over the network from its stack (R21, R22), once its turn
at the stop has come (R288, R290); one that PC stands in and that cannot be fetched ends the invocation. -/
def fetchBlock (k : Nat) (errs : List HbmError) (flit : Option FlitError) (phys : Nat) (s : State) : State :=
  let c := getCore s phys
  match c.inv with
  | none => s
  | some i =>
    let base := blockBase c.pc + 2048 * k
    if c.phase ≠ .running ∨ c.ended ∨ c.blocks.any (fun b => decide (b.base = base)) then s
    else
      let (seg, s) := translate (engineOfPhys s phys) (invContext s i) base s
      match seg.bind (fun e => blockAddr s e base) with
      | none => if k = 0 then endEarly i .segmentFault 0 s else s
      | some a =>
        let cls := ((getInv s i).map (·.cls)).getD 1
        if !hbmReady s cls a 2048 || !errorOnWay flit (.stack (stackOf a)) (.core phys) (clean (zeros 2048)) then s
        else
        let (d, s) := hbmRead (hbmTurn cls a 2048 s) (regionOf s phys) a 2048 errs
        let (d, s) := spoilFlit flit d s
        let b : Block := { base := base, bytes := d.map (·.1), poison := (List.range 32).map (fun g => (d.getD (64 * g) (0, false)).2) }
        prefetchOps phys (updCore s phys (fun c => { c with blocks := keepBlocks c.pc (c.blocks ++ [b]) }))

/-! ### Links at an early end (R221) -/

/-- The links with an endpoint on one of some logical cores. -/
def linksOn (s : State) (logicals : List Nat) : List (Nat × LinkDef) :=
  s.blend.cur.links.filter (fun e => logicals.any (fun l =>
    decide (e.1 / 4096 = l / 80) &&
    ((!e.2.producer.grinder && e.2.producer.unit == l % 80) || (!e.2.consumer.grinder && e.2.consumer.unit == l % 80))))

/-- Cancel a link's streams; chunks already issued still land. -/
def stopStreams (l : Nat) (s : State) : State :=
  let s := dropChunkTake l s
  setLink s l { getLink s l with active := none, pending := none, waiting := false, granted := false }

/-- Reset a link: its ring is discarded, its semaphores and positions, a grinder's too, return to their start (R221, R232). -/
def resetLink (l : Nat) (d : LinkDef) (s : State) : State :=
  let die := l / 4096
  let free := (getSem s (die * 65536 + d.semEmpty)).value
  let s := resetEnds l d (logEvent .linkReset (islIx die 106) (leBytes 2 (l % 4096) ++ leBytes 4 (d.ringKib * 16 - free)) s)
  setLink (semSet (die * 65536 + d.semEmpty) (d.ringKib * 16) (semSet (die * 65536 + d.semFull) 0 s)) l linkRunReset

/-! ### The end of an invocation (R205, R221, R360-R363) -/

/-- The status and fault code that an invocation reports. -/
def invStatus (x : Invocation) : Status × Nat :=
  match x.early with
  | some e => e
  | none =>
    (if x.refused then .segmentFault else if x.sizeFault then .sizeFault else if x.versionRetired then .versionRetired
     else if x.poisoned ≠ 0 ∨ x.satPoison then .okPoisoned else if x.replays ≠ 0 then .okReplayed
     else if x.switches ≠ 0 then .preemptResumed else .ok, 0)

/-- The receipt of an invocation that ends now. -/
def invReceipt (s : State) (i : Nat) (x : Invocation) : Receipt :=
  { status := (invStatus x).1, mailbox := x.mailbox, fault := (invStatus x).2, fpFlags := x.fpFlags, replays := min 255 x.replays,
    switches := min 255 x.switches, queue := x.queue, invocation := i, postmark := s.devTime, poisoned := x.poisoned,
    sqIndex := x.sqIndex, notify := x.notify }

/-- The receipt of a FENCE. -/
def fenceReceipt (s : State) (q : Nat) (f : FenceWait) : Receipt :=
  { status := .ok, mailbox := f.mailbox, fault := 0, fpFlags := 0, replays := 0, switches := 0, queue := q, invocation := 0,
    postmark := s.devTime, poisoned := 0, sqIndex := f.sqIndex, notify := false }

/-- The host that has claimed a queue. -/
def queueHost (s : State) (q : Nat) : Option Nat :=
  [0, 1].find? (fun h => let x := tabGet hostStateReset s.host.hosts h
                         decide (x.queueFirst ≤ q) && decide (q < x.queueFirst + x.queueCount))

def getHost (s : State) (h : Nat) : HostState := tabGet hostStateReset s.host.hosts h
def setHost (s : State) (h : Nat) (x : HostState) : State := { s with host := { s.host with hosts := tabSet hostStateReset s.host.hosts h x } }
def updHost (s : State) (h : Nat) (f : HostState → HostState) : State := setHost s h (f (getHost s h))
def getGk (s : State) (p : Nat) : GkPort := tabGet gkPortReset s.host.ports p
def setGk (s : State) (p : Nat) (x : GkPort) : State := { s with host := { s.host with ports := tabSet gkPortReset s.host.ports p x } }
def updGk (s : State) (p : Nat) (f : GkPort → GkPort) : State := setGk s p (f (getGk s p))

/-- A queue whose host is lost drops its receipts, and the loss counts them (R345). -/
def dropLost (q : Nat) (s : State) : State :=
  match queueHost s q with
  | none => s
  | some h =>
    let x := getHost s h
    let n := (getQ s q).due.length
    if x.cond ≠ .lost ∨ n = 0 ∨ (getQ s q).ringFed then s
    else
      updHost (updQ s q (fun y => { y with due := [], openCount := y.openCount - n })) h (fun x =>
        { x with discarded := x.discarded.map (fun d => (d.1, d.2 + n)) })

/-- HOST_RESET is logged once every invocation that the loss stopped has ended (R345). -/
def settleLoss (h : Nat) (s : State) : State :=
  let x := getHost s h
  match x.discarded with
  | none => s
  | some (w, r) =>
    if s.qs.invs.any (fun e => (queueHost s e.2.queue == some h && !(getQ s e.2.queue).ringFed) || decide (e.2.early = some (.hostLost, 0))) then s
    else
      updHost (logEvent .hostReset (islOfGk x.lossPort) (leBytes 1 h ++ leBytes 4 w ++ leBytes 4 r) s) h (fun x => { x with discarded := none })

/-- A released host's queues are free once nothing of theirs is open (R333). -/
def settleRelease (h : Nat) (s : State) : State :=
  let x := getHost s h
  let qs := (List.range x.queueCount).map (· + x.queueFirst)
  if !x.released ∨ x.queueCount = 0 ∨ qs.any (fun q => (getQ s q).openCount != 0 || (getQ s q).due != []) then s
  else updHost (forEach qs (fun q t => updQ t q (fun y => { y with enable := false, staged := [], mailed := [] })) s) h
    (fun x => { x with queueFirst := 0, queueCount := 0, released := decide (x.cond ≠ .absent) })

/-- What the hosts wait for may have come. -/
def settleHosts (s : State) : State := settleRelease 1 (settleRelease 0 (settleLoss 1 (settleLoss 0 s)))

/-- A receipt is due, and the FENCEs that waited for its invocation follow it (R355, R362). -/
def addReceipt (r : Receipt) (s : State) : State :=
  updQ s r.queue (fun q =>
    let fs := q.fences.map (fun f => { f with waits := setDel f.waits r.invocation })
    let ready := fs.filter (fun f => f.waits == [])
    { q with due := q.due ++ [r] ++ ready.map (fenceReceipt s r.queue), fences := fs.filter (fun f => f.waits != []) })

/-- The physical cores on which an invocation is resident. -/
def residentOn (s : State) (i : Nat) (x : Invocation) : List Nat := (invPhys s x).filter (fun p => (getCore s p).inv == some i)

/-- Every unit has finished and begun transfers have landed. -/
def invSettled (s : State) (i : Nat) (x : Invocation) : Bool :=
  (residentOn s i x).all (fun p =>
    let c := getCore s p
    c.window == [] && (x.early.isSome || (c.ended && c.wait.isNone && decide (c.phase = .running)))) &&
  (xfersOfInv s i).all (fun e => match e.2.owner with | .mov _ _ => xferDone e.2 | .reload _ => xferDone e.2 | _ => true) &&
  (x.early.isSome || decide (x.state = .resident))

/-- Free a save slot. -/
def freeSlot (pid : Nat) (slot : Option Nat) (i : Nat) (s : State) : State :=
  match slot, tabFind s.qs.pools pid with
  | some k, some p =>
    { s with qs := { s.qs with savedCores := tabDel s.qs.savedCores i, pools := tabPut s.qs.pools pid { p with used := setDel p.used k } } }
  | _, _ => s

/-- A core is free again; one that has been taken out of service is power-gated (R440). -/
def freeCore (early : Bool) (phys : Nat) (s : State) : State :=
  let s := updIsl s (islOfCore phys) (fun i => if i.faulty then { i with power := 0 } else i)
  updCore s phys (fun c => keepIssued
    { c with inv := none, phase := .idle, window := [], blocks := [], live := [], liveMore := none, wait := none, withdrawn := [],
             ended := false, endedAt := none, spill := none, reloads := [],
             mat := none, matNext := none, stall := none, vec := none, tiles := if early then [] else c.tiles })

/-- The invocation ends: links reset where it ended early, its receipt is due, its cores are free. -/
def finishInv (i : Nat) (s : State) : State :=
  match getInv s i with
  | none => s
  | some x =>
    if !invSettled s i x then s
    else
      let early := x.early.isSome || x.refused
      let links := if early then linksOn s x.cores else []
      let s := forEach links (fun e t => stopStreams e.1 t) s
      if links.any (fun e => (getLink s e.1).chunks != []) then s
      else
        let s := forEach links (fun e t => resetLink e.1 e.2 t) s
        let s := forEach (residentOn s i x) (fun p t => freeCore early p t) s
        let s := forEach (xfersOfInv s i) (fun e t => match e.2.owner with | .reload _ => delXfer t e.1 | _ => t) s
        let s := freeSlot x.partition x.slot i s
        let s := { s with qs := { s.qs with invs := tabDel s.qs.invs i, savedCores := tabDel s.qs.savedCores i } }
        settleHosts (dropLost x.queue (addReceipt (invReceipt s i x) s))

/-! ### Switching (R206-R208, R370-R372) -/

/-- The lowest free slot of a partition's save pool. -/
def freeSaveSlot (s : State) (pid : Nat) : Option Nat :=
  match tabFind s.qs.pools pid with
  | none => none
  | some p => (List.range p.slots).find? (fun k => !setHas p.used k)

/-- The fence of a post names a withdrawn op. -/
def waitsFor (out : List Nat) (o : IssuedOp) : Bool := opClass o.word == 4 && o.fence.any (out.contains ·)

/-- Stop a core's issue: ops not started are withdrawn with the posts that wait for them, and a held WAIT leaves its semaphore. -/
def drainCore (phys : Nat) (s : State) : State :=
  let c := getCore s phys
  let s := match c.wait with
    | some w => semLeave w.sem (.core phys w.count) s
    | none => s
  dropGone phys (updCore s phys (fun c =>
    let out := (c.window.filter (fun o => !o.started && opClass o.word != 4)).map (·.seq)
    let gone := fun (o : IssuedOp) => out.contains o.seq || waitsFor out o
    keepIssued { c with phase := .boundary, withdrawn := c.window.filter gone, window := c.window.filter (fun o => !gone o), stall := none }))

/-- The scheduler requests a switch of a resident invocation; with no free slot it is not made. -/
def requestSwitch (i : Nat) (preempt : Bool) (s : State) : State :=
  match getInv s i with
  | none => s
  | some x =>
    if x.state ≠ .resident ∨ x.early.isSome ∨ x.cls = 0 then s
    else
      match freeSaveSlot s x.partition, tabFind s.qs.pools x.partition with
      | some k, some p =>
        let s := { s with qs := { s.qs with pools := tabPut s.qs.pools x.partition { p with used := setIns p.used k } } }
        let s := setInv s i { x with state := .switching, slot := some k, preempted := preempt, blockedSince := none, saved := [] }
        forEach (residentOn s i x) drainCore s
      | _, _ => logEvent .savePoolFull (islIx (x.partition / 32) 125) (leBytes 1 x.partition) s

/-- The bytes that a core's save writes to its spill area (R206, R208): 512 bytes of sequencer state, whose layout is open, the generators, the
occupied tile-queue entries, the kept accumulations and the save ranges. Their order is the model's: DESIGN CHOICE, log entry 63. -/
def saveImage (free : Nat) (v : SavedCore) : PData :=
  let entry := fun (t : TileEntry) => leBytes 4 t.addr ++ leBytes 4 t.stride ++ leBytes 1 t.rows ++ leBytes 1 t.fmt ++ leBytes 2 t.seq ++ zeros 4
  clean ((List.range 512).map (Config.freeByte free)) ++
  clean ((List.range 512).flatMap (fun g => leBytes 8 (tabGet 0 v.gens g).toNat)) ++
  clean ((v.tiles.flatMap Prod.snd).flatMap entry) ++ clean ((v.acc.map Prod.snd).flatMap accImage) ++ v.ranges.flatMap Prod.snd

/-- Save a core at its tile boundary (R208): the fixed state and the save ranges go to the spill area. -/
def saveCore (phys : Nat) (s : State) : State :=
  let c := getCore s phys
  if c.phase ≠ .boundary ∨ c.window ≠ [] then s
  else
    let (k, s) := drawFree s
    let save : SavedCore :=
      { pc := c.pc, xs := c.xs, lcs := c.lcs, withdrawn := c.withdrawn, wait := c.wait, live := c.live, liveMore := c.liveMore,
        ended := c.ended, gens := c.gens, acc := c.acc.filter (·.2.kept),
        tiles := (c.tiles.map (fun e => (e.1, e.2.filter (fun t => decide (t.state = .occupied))))).filter (fun e => e.2 != []),
        ranges := (c.live.filter (fun r => !r.reload)).map (fun r => (r.start, scrRead s phys r.start r.length)), image := [], slotOff := 0 }
    let save := { save with image := saveImage k save }
    setCore (scrWrite s phys (opArea s phys) save.image) phys
      { c with phase := .saving, spill := some save, acc := [], tiles := [], withdrawn := [], wait := none, live := [] }

/-- Where an invocation's save slot lies in HBM: slots have the size of the partition's spill area (R370). -/
def slotBase (s : State) (x : Invocation) : Option Nat :=
  match x.slot, tabFind s.qs.pools x.partition, getPart s x.partition with
  | some k, some p, some q => some (p.base + k * (q.spillUnits * 131072))
  | _, _, _ => none

/-- The saved state is copied to its slot, behind what other cores have put there, and the core is free (R370). -/
def saveDone (phys : Nat) (s : State) : State :=
  let c := getCore s phys
  match c.inv, c.spill, logicalOf s phys with
  | some i, some v, some l =>
    if c.phase ≠ .saving then s
    else
      match getInv s i with
      | none => s
      | some x =>
        let before : List (Nat × SavedCore) := tabGet [] s.qs.savedCores i
        let v := { v with slotOff := (before.map (fun (e : Nat × SavedCore) => e.2.image.length)).foldl (· + ·) 0 }
        let ready := match slotBase s x with
          | some a => hbmReady s x.cls (a + v.slotOff) v.image.length
          | none => true
        if !ready then s
        else
        let s := match slotBase s x with
          | some a => hbmWrite (hbmTurn x.cls (a + v.slotOff) v.image.length s) none (a + v.slotOff) v.image []
          | none => s
        let s := { s with qs := { s.qs with savedCores := tabPut s.qs.savedCores i (before ++ [(l, v)]) } }
        let s := freeCore false phys s
        let saved := setIns x.saved l
        setInv s i (if x.cores.all (saved.contains ·) then
            { x with saved := [], state := .switchedOut, switches := x.switches + 1, outSince := s.devTime }
          else { x with saved := saved })
  | _, _, _ => s

/-- A switched-out invocation may run again (R371). -/
def runnable (s : State) (i : Nat) (x : Invocation) : Bool :=
  decide (x.state = .switchedOut) &&
  (x.preempted || (tabGet [] s.qs.savedCores i).any (fun e => match e.2.wait with
    | some w => (getSem s w.sem).waiters == [] && decide (w.count ≤ (getSem s w.sem).value)
    | none => false))

/-- A core that the front end may take: no resident invocation, in service, not under a slack check (R365, R440, R445). -/
def coreFree (s : State) (l : Nat) : Bool :=
  match physOf s l with
  | some p => (getCore s p).inv.isNone && !(getIsl s (islOfCore p)).faulty && (getIsl s (islOfCore p)).check.isNone
  | none => false

/-- Its cores are free. -/
def coresFree (s : State) (x : Invocation) : Bool := x.cores.all (coreFree s)

/-- An invocation that goes before another (R371). -/
def goesBefore (x y : Invocation) : Bool := decide (x.cls < y.cls) || (x.cls == y.cls && decide (x.outSince < y.outSince))

/-- Restore one core from its saved state, which has been copied back into its spill area, and start its reloads (R208, R370). -/
def restoreCore (i : Nat) (x : Invocation) (l : Nat) (v : SavedCore) (s : State) : State :=
  match physOf s l with
  | none => s
  | some p =>
    let c := getCore s p
    let s := scrWrite s p (opArea s p) v.image
    let s := setCore s p
      { c with inv := some i, phase := .restoring, chain := none, pc := v.pc, xs := v.xs, lcs := v.lcs, window := [], withdrawn := v.withdrawn,
               wait := none, live := v.live, liveMore := v.liveMore, ended := v.ended, gens := v.gens, acc := v.acc, tiles := v.tiles,
               spill := some v, blocks := [], nextSeq := v.withdrawn.foldl (fun m o => max m (o.seq + 1)) c.nextSeq }
    let s := forEach v.ranges (fun r t => scrWrite t p r.1 r.2) s
    let s := updIsl s (islOfCore p) (fun e => { e with power := 2, gatedSince := none })
    forEach (v.live.filter (·.reload)) (fun r t =>
      let far := (v.xs.getD r.reg 0).toNat % 2 ^ 48
      let (n, t) := newXfer (xferOf t (engineOfPhys t p) x.context i (.reload p) .read x.cls (regionOf t p) (rowPieces far r.start r.length)) t
      updCore t p (fun c => { c with reloads := c.reloads ++ [n] })) s

/-- A partition that a re-blend in abort mode has quiesced; in complete mode what has been dispatched runs to its end (R70). -/
def resumeBarred (s : State) (pid : Nat) : Bool :=
  s.blend.quiesced.contains pid && (match s.blend.load with | some l => l.abortMode | none => true)

/-- Resume a switched-out invocation from its slot; a slot that cannot be read ends it with SAVE_LOST (R370). -/
def resumeInv (i : Nat) (lost : Bool) (s : State) : State :=
  match getInv s i with
  | none => s
  | some x =>
    let rival := s.qs.invs.any (fun e =>
      e.1 != i && e.2.cores.any (x.cores.contains ·) && runnable s e.1 e.2 && coresFree s e.2 && goesBefore e.2 x)
    if !runnable s i x ∨ !coresFree s x ∨ rival ∨ resumeBarred s x.partition ∨ s.mode ≠ .serving then s
    else
      let dead : Bool := match tabFind s.qs.pools x.partition with | some p => stackOffline s (stackOf p.base) | none => true
      if lost ∨ dead then endEarly i .aborted 0x33 s
      else
        let saves := tabGet [] s.qs.savedCores i
        let s := freeSlot x.partition x.slot i s
        let s := setInv s i { x with state := .resuming, slot := none, saved := [], preempted := false }
        forEach saves (fun e t => restoreCore i x e.1 e.2 t) s

/-- Withdrawn ops as they are issued again (R208): none has begun, and the first MAT op has no op before it to join. -/
def reissued (l : List IssuedOp) : List IssuedOp :=
  let first := (l.find? (fun o => opClass o.word == 0)).map (·.seq)
  l.map (fun o => { o with xfer := none, joins := o.joins && decide (some o.seq ≠ first) })

/-- A core's restore and reloads have finished: withdrawn ops are issued again and it runs from PC (R208). -/
def restoreDone (phys : Nat) (s : State) : State :=
  let c := getCore s phys
  match c.inv, logicalOf s phys with
  | some i, some l =>
    if c.phase ≠ .restoring ∨ c.reloads.any (fun n => match getXfer s n with | some x => !xferDone x | none => false) then s
    else
      let s := forEach c.reloads (fun n t => delXfer t n) s
      let s := updCore s phys (fun c => keepIssued
        { c with phase := .running, window := reissued c.withdrawn, withdrawn := [], spill := none, reloads := [] })
      let s := forEach (getCore s phys).window (fun o t => if opClass o.word = 2 then beginMov phys { o with xfer := none } t else t) s
      updInv s i (fun x =>
        let saved := setIns x.saved l
        if x.cores.all (saved.contains ·) then { x with saved := [], state := .resident } else { x with saved := saved })
  | _, _ => s

/-! ### Streams (R219-R224) -/

/-- The core at whose port 0 a link's stream runs, and whether it is a read stream. -/
def streamEnd (s : State) (l : Nat) (d : LinkDef) : Option (Nat × Bool) :=
  if !d.producer.grinder && d.producer.port == 0 then (endPhys s (l / 4096) d.producer).map (fun p => (p, true))
  else if !d.consumer.grinder && d.consumer.port == 0 then (endPhys s (l / 4096) d.consumer).map (fun p => (p, false))
  else none

/-- The bytes of a stream's next chunk. -/
def chunkBytes (st : Stream) : Nat := min 4096 (st.length - st.issued)

/-- A range of a ring as pieces of scratchpad: it may wrap at the ring's end. -/
def ringPieces (d : LinkDef) (pos far n : Nat) : List Piece :=
  let ring := d.ringKib * 1024
  let head := min n (ring - pos)
  rowPieces far (d.ringOffset + pos) head ++ rowPieces ((far + head) % 2 ^ 48) d.ringOffset (n - head)

/-- Issue a link's next chunk once its granules are taken (R220); the engine looks ahead to the next four (R317). -/
def issueChunk (l : Nat) (s : State) : State :=
  let r := getLink s l
  match linkDef s l, r.active with
  | some d, some st =>
    match streamEnd s l d with
    | none => s
    | some (p, isRead) =>
      if 16 ≤ r.chunks.length ∨ r.waiting then s
      else
        let n := chunkBytes st
        let die := l / 4096
        let sem := die * 65536 + (if isRead then d.semEmpty else d.semFull)
        let (ok, s) := if r.granted then (true, s) else semTake sem (n / 64) (.stream die (l % 4096) (n / 64)) s
        if !ok then setLink s l { r with waiting := true }
        else
          let x := xferOf s (engineOfPhys s p) st.context st.inv (.stream die (l % 4096) r.nextChunk) (if isRead then .read else .write) st.cls
            (regionOf s p) (ringPieces d r.position (st.base + st.issued) n)
          let (k, s) := newXfer x s
          let chunk : Chunk := { no := r.nextChunk, granules := n / 64, xfer := k, landed := false }
          let fin := decide (st.length ≤ st.issued + n)
          prefetchLink l (setLink s l
            { r with chunks := r.chunks ++ [chunk], nextChunk := r.nextChunk + 1, waiting := false, granted := false,
                               position := (r.position + n) % (d.ringKib * 1024),
                               active := if fin then r.pending else some { st with issued := st.issued + n },
                               pending := if fin then none else r.pending } )
  | _, _ => s

/-- The leading landed chunks, and the rest. -/
def landedPrefix : List Chunk → List Chunk × List Chunk
  | [] => ([], [])
  | c :: t => if c.landed then ((c :: (landedPrefix t).1), (landedPrefix t).2) else ([], c :: t)

/-- A chunk has landed; posts fire in chunk order (R220). -/
def chunkLanded (l k : Nat) (s : State) : State :=
  let r := getLink s l
  match linkDef s l, r.chunks[k]? with
  | some d, some c =>
    match getXfer s c.xfer with
    | none => s
    | some x =>
      if !xferDone x then s
      else
        let sem := (l / 4096) * 65536 + (if x.kind = .read then d.semFull else d.semEmpty)
        let (fire, rest) := landedPrefix (setNth r.chunks k { c with landed := true })
        let s := setLink (delXfer s c.xfer) l { r with chunks := rest }
        forEach fire (fun c t => semPost sem c.granules t) s
  | _, _ => s

/-- The stall limit of a core's DMA: on an Express partition 0 acts as 1,000 (R377). -/
def stallLimit (s : State) (phys : Nat) : Nat :=
  let u := (getCore s phys).stallUs
  match partOfPhys s phys with
  | some (_, p) => if u = 0 ∧ p.express then 1000 else u
  | none => u

/-- An external transfer of a core on which nothing has landed for the stall limit (R224). -/
def stallXfer (x : Nat) (s : State) : State :=
  match getXfer s x with
  | none => s
  | some v =>
    match if v.engine < 160 then physOf s v.engine else none with
    | none => s
    | some p =>
      let u := stallLimit s p
      if u ≠ 0 ∧ !xferDone v ∧ xferAbroad s v ∧ u * 1000 ≤ s.devTime - v.lastLand then cancelXfer x s else s

/-! ### Stepping and the debug port (R50, R208, R209) -/

def singleStep (s : State) (phys : Nat) : Bool := match partOfPhys s phys with | some (_, p) => p.singleStep | none => false

/-- A write of `SEQ_STEP`: the halt bit, and one op where the core is halted. -/
def stepCore (phys : Nat) (halt : Bool) (s : State) : State :=
  if !singleStep s phys then s
  else
    let s := updCore s phys (fun c => { c with halt := halt })
    if halt then issueAt phys true (fun _ => true) s else s

def haltCore (phys : Nat) (halt : Bool) (s : State) : State :=
  if singleStep s phys then updCore s phys (fun c => { c with halt := halt }) else s

/-- No second host holds a number: the ports serve one host (R332). -/
def joined (s : State) : Bool := decide ((getHost s 1).cond = .absent)

/-- A control-window access can arrive: its port's link is up, or the Carrier runs. -/
def reaches (s : State) : Agent → Bool
  | .host p => decide ((getGk s p.val).link = .up)
  | .carrier _ => s.pm.carrierRuns

/-- A write to the control window has its effect where it arrives. -/
def whenReached (who : Agent) (f : State → State) (s : State) : State := if reaches s who then f s else s

/-- The host through which an access comes. -/
def agentHost (s : State) : Agent → Option Nat
  | .host p => if (getGk s p.val).link = .up then (getGk s p.val).host else none
  | .carrier _ => none

/-- Two hosts are linked (R332). -/
def splitMode (s : State) : Bool := !joined s

/-- A queue that a host has claimed. -/
def claims (s : State) (h q : Nat) : Bool :=
  let x := getHost s h
  decide (x.queueFirst ≤ q) && decide (q < x.queueFirst + x.queueCount)

/-- Who may read a core's scratchpad through the debug port (R209): a host, and in split mode one that has claimed a queue of the partition; the
Carrier reads no scratchpad (R412). -/
def mayPeek (s : State) (a : Agent) (phys : Nat) : Bool :=
  match partOfPhys s phys with
  | none => false
  | some (pid, p) =>
    match a with
    | .carrier _ => false
    | .host _ => p.hostScratchRead && (!splitMode s || match agentHost s a with
      | some h => s.blend.cur.queues.any (fun e => e.2.partition == pid && claims s h e.1)
      | none => false)

/-- Hand back the answer of a read. -/
def answer (d : List Byte) (s : State) : State := { s with answers := s.answers ++ [d] }

/-- A read of `DBG_SCR_DATA` of n bytes at an offset of the register: all of it, or either half (R8, R209). -/
def debugRead (a : Agent) (phys at_ n : Nat) (s : State) : State :=
  if !mayPeek s a phys then answer (zeros n) s
  else
    let c := getCore s phys
    let off := 8 * c.dbgWord
    answer (scrBytes s phys (off + at_) n)
      (setCore s phys { c with dbgPoison := scrPoisoned s phys off 8, dbgWord := (c.dbgWord + 1) % 524288 })

/-! ### The rows -/

/-- `BLOCK_FETCH_DONE` (R187). -/
def execBlockFetchDone (core : Fin 160) (ahead : Fin 4) (errs : FetchErrors) (s : State) : Out State :=
  .next (onCore core.val (fetchBlock ahead.val errs.words errs.flit) s)
/-- `INVOCATION_END` (R205). -/
def execInvocationEnd (inv : Nat) (s : State) : Out State := .next (finishInv inv s)
/-- `SEQ_STEP_STEP` (R50). -/
def execSeqStepStep (agent : Agent) (core : Fin 168) (halt : Bool) (s : State) : Out State := .next (whenReached agent (stepCore core.val halt) s)
/-- `SEQ_STEP_HALT` (R50). -/
def execSeqStepHalt (agent : Agent) (core : Fin 168) (halt : Bool) (s : State) : Out State := .next (whenReached agent (haltCore core.val halt) s)
/-- `DBG_SCR_DATA_READ` (R209). -/
def execDbgScrDataRead (agent : Agent) (port : DebugPort) (s : State) : Out State :=
  .next (whenReached agent (match port.half with
    | none => debugRead agent port.core.val 0 8
    | some h => debugRead agent port.core.val (4 * h.val) 4) s)
/-- `TILE_BOUNDARY_SAVE` (R208). -/
def execTileBoundarySave (core : Fin 160) (s : State) : Out State := .next (onCore core.val saveCore s)
/-- `SPILL_SAVE_DONE` (R370). -/
def execSpillSaveDone (core : Fin 160) (s : State) : Out State := .next (onCore core.val saveDone s)
/-- `CONTEXT_RESUME` (R370). -/
def execContextResume (inv : Nat) (lost : Bool) (s : State) : Out State := .next (resumeInv inv lost s)
/-- `RESUME_RESTORE_DONE` (R208). -/
def execResumeRestoreDone (core : Fin 160) (s : State) : Out State := .next (onCore core.val restoreDone s)
/-- `STREAM_CHUNK_ISSUE` (R220). -/
def execStreamChunkIssue (link : Fin 8192) (s : State) : Out State := .next (issueChunk link.val s)
/-- `STREAM_CHUNK_LANDED` (R220). -/
def execStreamChunkLanded (link : Fin 8192) (chunk : Fin 16) (s : State) : Out State := .next (chunkLanded link.val chunk.val s)
/-- `STREAM_STALL` (R224). -/
def execStreamStall (xfer : Nat) (s : State) : Out State := .next (stallXfer xfer s)

end Sys2Proof.Machine
end

