-- ==== Sys2Proof/Machine/Grinder.lean ====
section
/-! DEFINITION. Grinders and table stores: batches, binding, pooling, versions and row updates (R228-R246). -/

namespace Sys2Proof.Machine

def getGrinder (s : State) (g : Nat) : Grinder := tabGet grinderReset s.grinders g
def setGrinder (s : State) (g : Nat) (x : Grinder) : State := { s with grinders := tabSet grinderReset s.grinders g x }
def getStore (s : State) (die : Nat) : TableStore := tabGet tableStoreReset s.stores die
def setStore (s : State) (die : Nat) (x : TableStore) : State := { s with stores := tabSet tableStoreReset s.stores die x }
def updStore (s : State) (die : Nat) (f : TableStore → TableStore) : State := setStore s die (f (getStore s die))

/-! ### Tables (R229) -/

/-- Bytes of an element and whether rows carry a scale. -/
def rowElem (fmt : Nat) : Nat := if fmt = 9 then 4 else if fmt = 7 then 2 else 1
def rowScaled (fmt : Nat) : Bool := fmt == 4 || fmt == 5 || fmt == 6
def rowFmtOk (fmt : Nat) : Bool := fmt == 9 || fmt == 7 || rowScaled fmt
/-- S, and `COLS`. -/
def TableEntry.rowBytes (t : TableEntry) : Nat := t.sliceBytes + (if rowScaled t.rowFmt then 4 else 0)
def TableEntry.cols (t : TableEntry) : Nat := t.sliceBytes / rowElem t.rowFmt
def TableEntry.slot (t : TableEntry) (k : Nat) : TableSlot := if k = 0 then t.slot0 else t.slot1
def TableEntry.setSlot (t : TableEntry) (k : Nat) (v : TableSlot) : TableEntry := if k = 0 then { t with slot0 := v } else { t with slot1 := v }
/-- The slot in a state. -/
def TableEntry.slotIn (t : TableEntry) (st : Nat) : Option Nat :=
  if t.slot0.state = st then some 0 else if t.slot1.state = st then some 1 else none
/-- W (R233). -/
def TableEntry.window (t : TableEntry) : Nat := min 4096 (524288 / (64 * ceilDiv t.rowBytes 64))
/-- O, for an output format (R230). -/
def outBytes (cols fmt : Nat) : Nat := alignUp (cols * (if fmt = 9 then 4 else 2)) 64

/-! ### Descriptors (R230) -/

def batchDesc (b : List Byte) : BatchDesc :=
  let f := fieldAt b 2 1
  { table := fieldAt b 0 2, flags := f, outFmt := fieldAt b 3 1, bags := fieldAt b 4 2, epoch := fieldAt b 8 4, inLink := fieldAt b 0xC 2,
    outLink := fieldAt b 0xE 2, lenRef := fieldAt b 0x10 8, idxRef := fieldAt b 0x18 8, wgtRef := fieldAt b 0x20 8,
    outRef := fieldAt b 0x28 8, outStride := fieldAt b 0x30 4, resultRef := fieldAt b 0x38 8,
    fieldsOk :=
      decide (fieldAt b 0 2 ≤ 511) && decide (f < 32) && [9, 7, 8].contains (fieldAt b 3 1) && fieldAt b 4 2 != 0 && fieldAt b 6 2 == 0 &&
      fieldAt b 0x34 4 == 0 && [0x10, 0x18, 0x20, 0x28, 0x38].all (fun o => decide (fieldAt b o 8 < 2 ^ 48)) &&
      fieldAt b 0x38 8 % 32 == 0 &&
      (if bitOf f 3 then fieldAt b 0x10 8 == 0 && fieldAt b 0x18 8 == 0 && fieldAt b 0x20 8 == 0 else fieldAt b 0xC 2 == 0) &&
      (bitOf f 1 || fieldAt b 0x20 8 == 0) &&
      (if bitOf f 4 then fieldAt b 0x28 8 == 0 && fieldAt b 0x30 4 == 0 else fieldAt b 0xE 2 == 0 && fieldAt b 0x30 4 % 64 == 0) }

def BatchDesc.idxBytes (d : BatchDesc) : Nat := if bitOf d.flags 0 then 8 else 4
def BatchDesc.weighted (d : BatchDesc) : Bool := bitOf d.flags 1
def BatchDesc.wgtBytes (d : BatchDesc) : Nat := if bitOf d.flags 2 then 2 else 4
def BatchDesc.fromLink (d : BatchDesc) : Bool := bitOf d.flags 3
def BatchDesc.toLink (d : BatchDesc) : Bool := bitOf d.flags 4
/-- An index whose bits are all 1 is padding (R231). -/
def BatchDesc.isPadding (d : BatchDesc) (i : Nat) : Bool := i == 2 ^ (8 * d.idxBytes) - 1

/-- A link of a grinder, at its producer or consumer end. -/
def grinderLink (s : State) (g k : Nat) (producer : Bool) : Option LinkDef :=
  match linkDef s (g / 16 * 4096 + k) with
  | none => none
  | some d =>
    let e := if producer then d.producer else d.consumer
    if e.grinder && e.unit == g % 16 && e.port == (if producer then 0 else 1) then some d else none

/-- A descriptor that R230 accepts for a grinder. -/
def descOk (s : State) (g : Nat) (d : BatchDesc) : Bool :=
  d.fieldsOk && (!d.fromLink || (grinderLink s g d.inLink false).isSome) && (!d.toLink || (grinderLink s g d.outLink true).isSome)

/-! ### Batches -/

/-- Change a batch that a grinder has begun. -/
def updBatch (g id : Nat) (f : Batch → Batch) (s : State) : State :=
  let x := getGrinder s g
  setGrinder s g { x with active := x.active.map (fun b => if b.id = id then f b else b) }

/-- A far array that a batch reads: a buffered transfer. -/
def readFar (g : Nat) (b : Batch) (va n : Nat) (s : State) : Nat × State :=
  newXfer { xferOf s (engineOfGrinder g) b.context b.inv (.batch g b.id) .read b.cls b.region (rowPieces va 0 n) with
              buffered := true, payload := clean (zeros n) } s

/-- The data of a batch's transfer that has ended. -/
def takeXfer (x : Nat) (s : State) : PData × State :=
  match getXfer s x with
  | some v => (v.payload, delXfer s x)
  | none => ([], s)

def xferOver (s : State) (x : Nat) : Bool := match getXfer s x with | some v => xferDone v | none => true

/-- Split bytes into n little-endian elements of w bytes, each with its mark. -/
def elements (w n : Nat) (d : PData) : List (Nat × Bool) :=
  (List.range n).map (fun k => let e := sliceAt d (w * k) w; (leNat (e.map (·.1)), e.any (·.2)))

/-- Lengths up to the first marked one: no index of a later bag can be found (R235). -/
def goodLens (l : List (Nat × Bool)) : List Nat := (l.takeWhile (fun e => !e.2)).map (·.1)
def indexCount (l : List (Nat × Bool)) : Nat := (goodLens l).foldl (· + ·) 0

/-- Where the ring of a link with a grinder lies: the core at its other end. -/
def ringCore (s : State) (die : Nat) (d : LinkDef) : Option Nat := endPhys s die (if d.consumer.grinder then d.producer else d.consumer)

/-- Bytes of a ring from a position, wrapping. -/
def ringRead (s : State) (phys : Nat) (d : LinkDef) (pos n : Nat) : PData :=
  let ring := d.ringKib * 1024
  let head := min n (ring - pos)
  scrRead s phys (d.ringOffset + pos) head ++ scrRead s phys d.ringOffset (n - head)

/-- Write a ring from a position, wrapping: sent to its core, which wakes (R30). -/
def ringWrite (phys : Nat) (d : LinkDef) (pos : Nat) (x : PData) (s : State) : State :=
  let ring := d.ringKib * 1024
  let head := min x.length (ring - pos)
  sendScr phys d.ringOffset (x.drop head) (sendScr phys (d.ringOffset + pos) (x.take head) s)

/-- A grinder takes up to a number of granules at one of its links: those granted to it before, then those that the semaphore holds while nobody
waits. Where it gets none it joins the semaphore's waiters with a take of `join` granules (R211, R232). -/
def linkTake (g link sem want join : Nat) (s : State) : Nat × State :=
  let gr := getGrinder s g
  let had := min want (tabGet 0 gr.granted link)
  let x := getSem s sem
  let more := if x.waiters = [] then min (want - had) x.value else 0
  if had + more < join then
    if gr.takes.contains link then (0, s)
    else
      let need := join - tabGet 0 gr.granted link
      (0, setGrinder (setSem s sem { x with waiters := x.waiters ++ [.grinder g link need] }) g { gr with takes := setIns gr.takes link })
  else
    (had + more, setGrinder (setSem s sem { x with value := x.value - more }) g
      { gr with granted := tabSet 0 gr.granted link (tabGet 0 gr.granted link - had) })

/-- Take what an input ring holds, up to a number of granules, and free them (R232). The grinder takes granule by granule: where none is there it
waits for one: DESIGN CHOICE, log entry 68. -/
def takeRing (g : Nat) (d : LinkDef) (link want : Nat) (s : State) : PData × State :=
  let die := g / 16
  match ringCore s die d with
  | none => ([], s)
  | some p =>
    if want = 0 ∨ (getIsl s (islOfCore p)).power = 0 then ([], s)
    else
      let (n, s) := linkTake g link (die * 65536 + d.semFull) want 1 s
      if n = 0 then ([], s)
      else
        let s := wakeIsl (islOfCore p) s
        let gr := getGrinder s g
        let pos := tabGet 0 gr.linkPos link
        let data := ringRead s p d pos (64 * n)
        let s := setGrinder s g { gr with linkPos := tabSet 0 gr.linkPos link ((pos + 64 * n) % (d.ringKib * 1024)) }
        (data, semPost (die * 65536 + d.semEmpty) n s)

/-- Bytes that a batch's input takes in a ring, from what is known of its lengths. -/
def ringNeeds (d : BatchDesc) (lens : Option (List (Nat × Bool))) : Nat :=
  let head := alignUp (2 * d.bags) 64
  match lens with
  | none => head
  | some l => head + alignUp (indexCount l * d.idxBytes) 64 + (if d.weighted then alignUp (indexCount l * d.wgtBytes) 64 else 0)

/-! ### Binding (R239, R240) -/

/-- Bind a batch: the version, what result is forced on it, or nothing. -/
def bindBatch (s : State) (g : Nat) (b : Batch) (d : BatchDesc) : Option Binding × Option Nat :=
  match tabFind (getStore s (g / 16)).tables d.table with
  | none => (none, some 4)
  | some t =>
    if t.owner ≠ b.context ∨ t.undefining.isSome then (none, some 4)
    else
      let pick :=
        if d.epoch = 0 then t.slotIn 2
        else [0, 1].find? (fun k => (t.slot k).epoch == d.epoch && ((t.slot k).state == 2 || ((t.slot k).state == 3 && t.retiring.isNone)))
      match pick with
      | some k => (some { slot := k, epoch := (t.slot k).epoch, q := t.seq, base := (t.slot k).base, rows := (t.slot k).rows }, none)
      | none => (none, some 2)

/-- The table of a batch. -/
def batchTable (s : State) (g : Nat) (b : Batch) : Option TableEntry := b.desc.bind (fun d => tabFind (getStore s (g / 16)).tables d.table)

/-- An output stride too small for the table's rows breaks R230. -/
def strideOk (s : State) (g : Nat) (d : BatchDesc) : Bool :=
  match tabFind (getStore s (g / 16)).tables d.table with
  | some t => d.toLink || decide (outBytes t.cols d.outFmt ≤ d.outStride)
  | none => true

/-- The address that a row read of a batch uses: the latest accepted update with number at most q, or the version's row (R239). -/
def rowSource (s : State) (g : Nat) (d : BatchDesc) (v : Binding) (t : TableEntry) (row : Nat) : Nat :=
  let ups := (getStore s (g / 16)).updates.filter (fun u => u.table == d.table && u.slot == v.slot && u.row == row && decide (u.u ≤ v.q))
  match ups.getLast? with
  | some u => u.source
  | none => (v.base + row * t.rowStride * 64) % 2 ^ 48

/-! ### Row reads and the combiner (R236, R237) -/

/-- Whether the index at a place is a row to look up. -/
def isLookup (d : BatchDesc) (v : Binding) (i : Nat) : Bool := !d.isPadding i && decide (i < v.rows)

/-- Split a bag into windows of at most W distinct lookups (R233). -/
def windowsGo (d : BatchDesc) (v : Binding) (w : Nat) : List (Nat × Num) → List (Nat × Num) → List Nat → List (List (Nat × Num))
  | [], cur, _ => if cur = [] then [] else [cur]
  | e :: t, cur, seen =>
    if !isLookup d v e.1 ∨ seen.contains e.1 then windowsGo d v w t (cur ++ [e]) seen
    else if seen.length < w then windowsGo d v w t (cur ++ [e]) (seen ++ [e.1])
    else cur :: windowsGo d v w t [e] [e.1]

/-- Bytes that a row read moves, and that its entry takes in the row buffer: whole granules (R236, R237). -/
def TableEntry.entryBytes (t : TableEntry) : Nat := 64 * ceilDiv t.rowBytes 64

/-- Entries and row-buffer bytes that a grinder's batches hold in its combiner. -/
def combinerUse (s : State) (g : Nat) (l : List Batch) : Nat × Nat :=
  l.foldl (fun n b =>
    (n.1 + b.resident.length, n.2 + b.resident.length * ((batchTable s g b).map TableEntry.entryBytes |>.getD 0))) (0, 0)

/-- A use of a row is attached and waits to be applied (R237). -/
def useWaits (b : Batch) (r : Nat) : Bool := (sliceAt b.idx b.applied (b.next - b.applied)).any (fun e => e.1 == r)

/-- Evict one entry: the least recently used with no read out and no attached use waiting, of the older batch first (DESIGN CHOICE, log
entry 69). -/
def evictOne : List Batch → Option (List Batch)
  | [] => none
  | b :: t =>
    match b.resident.find? (fun r => !b.outstanding.any (fun o => o.1 == r) && !useWaits b r) with
    | some r => some ({ b with resident := b.resident.filter (· != r) } :: t)
    | none => (evictOne t).map (b :: ·)

/-- Make room in the combiner for an entry: 4,096 entries and 512 KiB of rows in all (R233, R237). -/
def roomFor (s : State) (g bytes : Nat) : Nat → List Batch → Option (List Batch)
  | 0, _ => none
  | n + 1, l =>
    let u := combinerUse s g l
    if u.1 + 1 ≤ 4096 ∧ u.2 + bytes ≤ 524288 then some l
    else match evictOne l with
      | some l => roomFor s g bytes n l
      | none => none

/-- Replace a batch in a list. -/
def putBatch (b : Batch) (l : List Batch) : List Batch := l.map (fun a => if a.id = b.id then b else a)

/-- Take in one index of a batch: it is skipped, attaches, or makes a read. The answer is the grinder's batches after, and the row to read; none
where no entry or read is free. -/
def takeIndex (s : State) (g : Nat) (b : Batch) (d : BatchDesc) (v : Binding) (t : TableEntry) : Option (List Batch × Option Nat) :=
  let act := (getGrinder s g).active
  match b.idx[b.next]? with
  | none => none
  | some (i, _) =>
    let b := { b with next := b.next + 1, lookups := b.lookups + b2n (!d.isPadding i) }
    if !isLookup d v i then some (putBatch b act, none)
    else if b.resident.contains i then some (putBatch { b with resident := (b.resident.filter (· != i)) ++ [i] } act, none)
    else if 512 ≤ (act.map (fun a => a.outstanding.length)).foldl (· + ·) 0 then none
    else (roomFor s g t.entryBytes 8193 act).map (fun l =>
      (l.map (fun a => if a.id = b.id then { b with resident := a.resident ++ [i] } else a), some i))

/-- Lengths, in indices, of the windows of a batch's bags in order (R233). -/
def windowLens (t : TableEntry) (d : BatchDesc) (v : Binding) : List Nat → List (Nat × Bool) → List Nat
  | [], _ => []
  | n :: lens, idx =>
    (windowsGo d v t.window ((idx.take n).map (fun e => (e.1, one32))) [] []).map (·.length) ++ windowLens t d v lens (idx.drop n)

/-- How far the windows are applied: each whole, in order, once every row that it uses has returned. -/
def appliedTo (d : BatchDesc) (v : Binding) (b : Batch) : List Nat → Nat → Nat
  | [], at_ => at_
  | n :: ws, at_ =>
    let ready := (sliceAt b.idx at_ n).all (fun e =>
      !isLookup d v e.1 || ((tabFind b.data e.1).isSome && !b.outstanding.any (fun o => o.1 == e.1)))
    if at_ + n ≤ b.next ∧ ready then appliedTo d v b ws (at_ + n) else at_

/-- Apply what can be applied of a batch (R233, R237). -/
def applyWindows (g id : Nat) (s : State) : State :=
  match (getGrinder s g).active.find? (fun b => b.id == id) with
  | none => s
  | some b =>
    match b.desc, b.binding, batchTable s g b with
    | some d, some v, some t => updBatch g id (fun b => { b with applied := appliedTo d v b (windowLens t d v (goodLens b.lens) b.idx) 0 }) s
    | _, _, _ => s

/-- Take in up to n indices of a batch. -/
def intake : Nat → Nat → Nat → State → State
  | 0, _, _, s => s
  | n + 1, g, id, s =>
    match (getGrinder s g).active.find? (fun b => b.id == id) with
    | none => s
    | some b =>
      match b.desc, b.binding, batchTable s g b with
      | some d, some v, some t =>
        if b.forced.isSome ∨ b.phase ≠ .pooling then s
        else
          match takeIndex s g b d v t with
          | none => s
          | some (l, none) => intake n g id (setGrinder s g { getGrinder s g with active := l })
          | some (l, some row) =>
            let (x, s) := readFar g b (rowSource s g d v t row) t.entryBytes s
            let gr := getGrinder s g
            let s := setGrinder s g { gr with active := l, reads := inc64 gr.reads 1 }
            intake n g id (updBatch g id (fun b => { b with outstanding := b.outstanding ++ [(row, x)], reads := b.reads + 1 }) s)
      | _, _, _ => s

/-- Take in what a batch can, and apply what can be applied. -/
def intakeOne (g id : Nat) (s : State) : State :=
  match (getGrinder s g).active.find? (fun b => b.id == id) with
  | some b =>
    let s' := applyWindows g id (intake (b.idx.length - b.next) g id (applyWindows g id s))
    match (getGrinder s' g).active.find? (fun c => c.id == id) with
    | some c => setGrinder s' g { getGrinder s' g with lookups := inc64 (getGrinder s' g).lookups (c.lookups - b.lookups) }
    | none => s'
  | none => s

/-- Every batch of a grinder takes in what it can: reads and entries that one frees serve another (R236, R237). -/
def intakeAll (g : Nat) (s : State) : State := forEach ((getGrinder s g).active.map (·.id)) (intakeOne g) s

/-- The first out-of-range index of a batch is logged once (R231). -/
def noteRange (g : Nat) (b : Batch) (d : BatchDesc) (v : Binding) (s : State) : State :=
  match b.idx.find? (fun e => !d.isPadding e.1 && decide (v.rows ≤ e.1)) with
  | some e => logEvent .grdIndexRange (islOfGrinder g) (leBytes 2 d.table ++ leBytes 8 e.1) s
  | none => s

/-! ### Beginning a batch -/

/-- The next batch of the queue begins: it binds, or its result is forced; one that an abort stopped in the queue ends ABORTED (R70, R246). -/
def beginBatch (g : Nat) (s : State) : State :=
  let gr := getGrinder s g
  match gr.queue with
  | [] => s
  | b :: rest =>
    let waits := gr.active.any (fun a => a.forced.isNone && (decide (a.phase ≠ .pooling) && decide (a.phase ≠ .writing) || decide (a.next < a.idx.length)))
    let ready := match b.xfers with | x :: _ => xferOver s x | [] => true
    if waits ∨ !ready then s
    else
      let x := b.xfers.headD 0
      let failed : Bool := match getXfer s x with | some v => v.failed | none => false
      let addr := match getXfer s x with | some v => xferAddr v | none => 0
      let (data, s) := takeXfer x s
      let d := batchDesc (data.map (·.1))
      let (v, forced) := bindBatch s g b d
      let bad : Bool := !descOk s g d || addr % 64 != 0 || ((forced.isNone || forced == some 2) && !strideOk s g d)
      let forced := if failed || b.forced == some 5 then some 5 else if bad then some 3 else forced
      let b' := { b with desc := some d, binding := if forced.isSome then none else v, forced := forced, xfers := [],
                         phase := if forced.isSome then .pooling else .lengths }
      let s := setGrinder s g { getGrinder s g with queue := rest, active := (getGrinder s g).active ++ [b'] }
      match forced with
      | some 3 => endEarly b.inv .aborted 0 (logEvent .grdBadDesc (islOfGrinder g) (leBytes 8 addr) s)
      | some 4 => endEarly b.inv .aborted 0 (logEvent .grdTableDenied (islOfGrinder g) (leBytes 2 d.table ++ leBytes 2 b.context) s)
      | some _ => s
      | none =>
        if d.fromLink then s
        else
          let (x, s) := readFar g b d.lenRef (2 * d.bags) s
          updBatch g b.id (fun b => { b with xfers := [x] }) s

/-- Arrays are all there: pooling starts. -/
def startPooling (g : Nat) (b : Batch) (d : BatchDesc) (lens idx wgt : List (Nat × Bool)) (s : State) : State :=
  let s := updBatch g b.id (fun b => { b with lens := lens, idx := idx, wgt := wgt, xfers := [], phase := .pooling }) s
  let s := match b.binding with
    | some v => noteRange g { b with idx := idx } d v s
    | none => s
  intakeAll g s

/-- An input that is arriving takes its next step. -/
def inputStep (g : Nat) (b : Batch) (d : BatchDesc) (s : State) : State :=
  if d.fromLink then
    match grinderLink s g d.inLink false with
    | none => s
    | some l =>
      let lens := if alignUp (2 * d.bags) 64 ≤ b.ring.length then some (elements 2 d.bags b.ring) else none
      let want := (ringNeeds d lens - b.ring.length) / 64
      let (data, s) := takeRing g l d.inLink want s
      let ring := b.ring ++ data
      let s := updBatch g b.id (fun b => { b with ring := ring }) s
      match lens with
      | none => s
      | some lens =>
        if ring.length < ringNeeds d (some lens) then s
        else
          let n := indexCount lens
          let at_ := alignUp (2 * d.bags) 64
          startPooling g b d lens (elements d.idxBytes n (ring.drop at_))
            (if d.weighted then elements d.wgtBytes n (ring.drop (at_ + alignUp (n * d.idxBytes) 64)) else []) s
  else if !b.xfers.all (xferOver s) then s
  else
    match b.phase, b.xfers with
    | .lengths, [x] =>
      let (data, s) := takeXfer x s
      let lens := elements 2 d.bags data
      let n := indexCount lens
      let (i, s) := readFar g b d.idxRef (n * d.idxBytes) s
      let (w, s) := if d.weighted then readFar g b d.wgtRef (n * d.wgtBytes) s else (i, s)
      updBatch g b.id (fun b => { b with lens := lens, phase := .arrays, xfers := if d.weighted then [i, w] else [i] }) s
    | .arrays, i :: t =>
      let n := indexCount b.lens
      let (di, s) := takeXfer i s
      let (dw, s) := match t with | w :: _ => takeXfer w s | [] => ([], s)
      startPooling g b d b.lens (elements d.idxBytes n di) (if d.weighted then elements d.wgtBytes n dw else []) s
    | _, _ => s

/-- The segments that a grinder will need (R317): the arrays and outputs of its batches, and the base of each version that one may bind. -/
def prefetchGrinder (g : Nat) (s : State) : State :=
  let e := engineOfGrinder g
  let far := fun (b : Batch) (va : Nat) (t : State) => if va = 0 then t else prefetch e b.context (va % 2 ^ 48) t
  forEach (getGrinder s g).active (fun b t =>
    match b.desc with
    | none => t
    | some d =>
      let t := forEach [d.lenRef, d.idxRef, d.wgtRef, d.outRef, d.resultRef] (far b) t
      match batchTable t g b with
      | some w => if w.owner = b.context then forEach ([w.slot0, w.slot1].filter (fun v => v.state == 2 || v.state == 3)) (fun v => far b v.base) t else t
      | none => t) s

/-- A grinder begins its next batch, or the batch whose input is arriving goes on (R238, R239). -/
def grinderBegin (g : Nat) (s : State) : State :=
  prefetchGrinder g (match (getGrinder s g).active.find? (fun b => b.forced.isNone && (b.phase == .lengths || b.phase == .arrays)) with
    | some b => match b.desc with | some d => inputStep g b d s | none => s
    | none => beginBatch g s)

/-! ### Stopping a batch (R70, R238, R241) -/

/-- A grinder's take at a link leaves the semaphore's waiters, and what it was granted there and has not used goes back. -/
def leaveLink (g link sem : Nat) (s : State) : State :=
  let gr := getGrinder s g
  let x := getSem s sem
  let mine := fun (w : Waiter) => match w with | .grinder h l _ => h == g && l == link | _ => false
  let s := setGrinder s g { gr with takes := setDel gr.takes link, granted := tabSet 0 gr.granted link 0 }
  semSettle sem (min semMax (x.value + tabGet 0 gr.granted link)) (x.waiters.filter (fun w => !mine w)) s

/-- A batch stops with a result: it issues no further read, its reads return and are discarded, and its takes leave. An aborted one hands no further
row to its output link; rows already pooled stay with one whose version is retired. -/
def stopBatch (code g : Nat) (b : Batch) (s : State) : State :=
  if b.forced.isSome then s
  else
    let s := updBatch g b.id (fun b =>
      { b with forced := some code, phase := if b.phase = .writing then .writing else .pooling,
               rows := if code = 5 ∧ (b.desc.map BatchDesc.toLink).getD false then b.rows.take b.rowsOut else b.rows }) s
    match b.desc with
    | none => s
    | some d =>
      let s := match d.fromLink, grinderLink s g d.inLink false with
        | true, some l => leaveLink g d.inLink (g / 16 * 65536 + l.semFull) s
        | _, _ => s
      match code = 5 && d.toLink, grinderLink s g d.outLink true with
      | true, some l => leaveLink g d.outLink (g / 16 * 65536 + l.semEmpty) s
      | _, _ => s

/-- Every batch of an invocation stops, begun or not (R70, R373). -/
def abortBatches (inv : Nat) (s : State) : State :=
  forEach (List.range 32) (fun g t =>
    let gr := getGrinder t g
    let t := if gr.queue.any (fun b => b.inv == inv) then
        setGrinder t g { gr with queue := gr.queue.map (fun b => if b.inv = inv then { b with forced := some 5 } else b) }
      else t
    forEach (gr.active.filter (fun b => b.inv == inv)) (stopBatch 5 g) t) s

/-- A row read returns into the combiner (R236). -/
def rowReturn (g which k : Nat) (s : State) : State :=
  match (getGrinder s g).active[which]? with
  | none => s
  | some b =>
    match b.outstanding[k]? with
    | none => s
    | some (row, x) =>
      if !xferOver s x then s
      else
        let (data, s) := takeXfer x s
        let s := updBatch g b.id (fun b =>
          { b with outstanding := b.outstanding.eraseIdx k, data := if b.forced.isSome then b.data else tabPut b.data row data }) s
        intakeAll g s

/-! ### Pooling (R233-R235) -/

/-- A value with its mark. -/
abbrev Marked := Num × Bool

/-- Distinct lookups of a window in order of first appearance. -/
def distinctOf (d : BatchDesc) (v : Binding) (l : List (Nat × Num)) : List Nat :=
  l.foldl (fun u e => if isLookup d v e.1 && !u.contains e.1 then u ++ [e.1] else u) []

/-- Column j of a row, with its mark; a marked scale marks the whole row. -/
def rowColumn (t : TableEntry) (data : PData) (j : Nat) : Marked :=
  let e := sliceAt data (j * rowElem t.rowFmt) (rowElem t.rowFmt)
  (decodeFmt t.rowFmt (leNat (e.map (·.1))), e.any (·.2) || (rowScaled t.rowFmt && (sliceAt data t.sliceBytes 4).any (·.2)))

def rnd32n (r : Num × Nat) : Num := (roundTo 9 0 r.1).1

/-- The pooled row of one bag: indices with weights. -/
def poolBag (t : TableEntry) (d : BatchDesc) (v : Binding) (data : Tab PData) (bag : List (Nat × Num)) : List Marked :=
  (windowsGo d v t.window bag [] []).foldl (fun out win =>
    (distinctOf d v win).foldl (fun (out : List Marked) i =>
      let row := tabGet [] data i
      let ws := (win.filter (fun e => e.1 == i)).foldl (fun a e => add32 a e.2) (.zero false)
      let c := if rowScaled t.rowFmt then mul32 ws (val32 (leNat ((sliceAt row t.sliceBytes 4).map (·.1)))) else ws
      (List.range t.cols).map (fun j =>
        let o := out.getD j (.zero false, false)
        let x := rowColumn t row j
        (rnd32n (numFma 0 c x.1 o.1), o.2 || x.2))) out)
    (List.replicate t.cols (.zero false, false))

/-- An output row: converted, padded, and marked whole where the bag is. -/
def packRow (t : TableEntry) (d : BatchDesc) (xs : List Marked) (bad : Bool) : PData :=
  let cs := xs.map (fun x => let c := convert d.outFmt 0 0 x.1; (c.code, x.2 || bad || c.poison))
  let p := packMarked d.outFmt cs
  let o := outBytes t.cols d.outFmt
  (p ++ (zeros (o - p.length)).map (fun b => (b, false))).take o |>.map (fun b => (b.1, b.2 || bad))

/-- All output rows of a batch. -/
def poolRows (t : TableEntry) (b : Batch) (d : BatchDesc) : List PData :=
  let o := outBytes t.cols d.outFmt
  let blank := (zeros o).map (fun x => (x, true))
  match b.binding with
  | none => List.replicate d.bags blank
  | some v =>
    let lens := goodLens b.lens
    ((List.range d.bags).foldl (fun (acc : Nat × List PData) k =>
      match lens[k]? with
      | none => (acc.1, acc.2 ++ [blank])
      | some n =>
        let idx := sliceAt b.idx acc.1 n
        let wgt := if d.weighted then (sliceAt b.wgt acc.1 n).map (fun w => (decodeFmt (if d.wgtBytes = 2 then 7 else 9) w.1, w.2))
                   else List.replicate n (one32, false)
        let whole := acc.1 + n ≤ b.next ∧ idx.all (fun e => !isLookup d v e.1 || (tabFind b.data e.1).isSome)
        let row :=
          if b.forced.isSome ∧ ¬ whole then blank
          else
            let bad := idx.any (fun e => e.2 || (!d.isPadding e.1 && decide (v.rows ≤ e.1))) || wgt.any (·.2)
            packRow t d (poolBag t d v b.data ((idx.map (·.1)).zip (wgt.map (·.1)))) bad
        (acc.1 + n, acc.2 ++ [row])) (0, [])).2

/-! ### Versions (R241, R242) -/

/-- A batch in progress bound to a slot of a table of its die's store. -/
def boundTo (die table slot : Nat) (g : Nat) (b : Batch) : Bool :=
  g / 16 == die && (match b.desc, b.binding with | some d, some v => d.table == table && v.slot == slot | _, _ => false)

/-- Batches in progress on a die that are bound to a slot of a table. -/
def boundBatches (s : State) (die table slot : Nat) : List (Nat × Batch) :=
  (s.grinders.map (fun e => (e.2.active.filter (boundTo die table slot e.1)).map (fun b => (e.1, b)))).flatten

/-- Drop the pending updates of a slot; their posts fire (R242). -/
def dropUpdates (die table slot : Nat) (s : State) : State :=
  let st := getStore s die
  let mine := fun (u : RowUpdate) => u.table == table && u.slot == slot
  forEach (st.updates.filter mine) (fun u t => postDone u.done t) (setStore s die { st with updates := st.updates.filter (fun u => !mine u) })

def slotEmpty : TableSlot := { state := 0, base := 0, rows := 0, epoch := 0 }

/-- A marked slot empties and an undefined table goes once no batch in progress is bound to it. -/
def settleTable (die table : Nat) (s : State) : State :=
  match tabFind (getStore s die).tables table with
  | none => s
  | some t =>
    let s := match t.retiring, t.slotIn 3 with
      | some done, some k =>
        if boundBatches s die table k ≠ [] then s
        else
          let s := updStore (dropUpdates die table k s) die (fun st =>
            { st with tables := tabPut st.tables table { t.setSlot k slotEmpty with retiring := none, forced := none } })
          let s := match t.forced with
            | some n => logEvent .tableForcedRetire (islIx die 114) (leBytes 2 table ++ leBytes 4 (t.slot k).epoch ++ leBytes 4 n) s
            | none => s
          postDone done s
      | _, _ => s
    match t.undefining, t.slotIn 2 with
    | some done, some k =>
      if boundBatches s die table k ≠ [] then s
      else postDone done (updStore (dropUpdates die table k s) die (fun st => { st with tables := tabDel st.tables table }))
    | _, _ => s

/-! ### Completing a batch -/

/-- The status of a batch (R246). -/
def batchStatus (b : Batch) : Nat :=
  match b.forced with
  | some f => f
  | none => if b.rows.any (fun r => r.any (·.2)) then 1 else 0

/-- The result record. -/
def resultRecord (b : Batch) (d : BatchDesc) : List Byte :=
  let (slot, epoch, q) := match b.binding with | some v => (v.slot, v.epoch, v.q) | none => (0xFF, 0, 0)
  leBytes 1 (batchStatus b) ++ leBytes 1 slot ++ leBytes 2 d.table ++ leBytes 4 epoch ++ leBytes 4 q ++
  leBytes 4 (b.rows.filter (fun r => r.any (·.2))).length ++ leBytes 8 b.lookups ++ leBytes 8 b.reads

/-- Hand output rows to a link's ring while it has room, a row's granules taken at once (log entry 68); posts each 4,096 bytes and at the end
(R232). -/
def feedRing : Nat → Nat → Nat → LinkDef → BatchDesc → State → State
  | 0, _, _, _, _, s => s
  | n + 1, g, id, l, d, s =>
    match (getGrinder s g).active.find? (fun b => b.id == id) with
    | none => s
    | some b =>
      let die := g / 16
      match b.rows[b.rowsOut]?, ringCore s die l with
      | some row, some p =>
        let k := row.length / 64
        let gated : Bool := (getIsl s (islOfCore p)).power == 0
        let (got, s) := if gated then (0, s) else linkTake g d.outLink (die * 65536 + l.semEmpty) k k s
        if got < k then s
        else
          let gr := getGrinder s g
          let pos := tabGet 0 gr.linkPos d.outLink
          let s := ringWrite p l pos row s
          let s := setGrinder s g { getGrinder s g with linkPos := tabSet 0 gr.linkPos d.outLink ((pos + row.length) % (l.ringKib * 1024)) }
          let held := b.unposted + k
          let post := decide (64 ≤ held) || decide (b.rowsOut + 1 = b.rows.length)
          let s := updBatch g id (fun b => { b with rowsOut := b.rowsOut + 1, unposted := if post then 0 else held }) s
          let s := if post then semPost (die * 65536 + l.semFull) held s else s
          feedRing n g id l d s
      | _, _ => s

/-- Whether a batch's rows are all at their place. -/
def rowsLanded (s : State) (b : Batch) (d : BatchDesc) : Bool :=
  if d.toLink then decide (b.rows.length ≤ b.rowsOut) else b.xfers.all (xferOver s)

/-- The batch is over: its post fires, its op leaves the window, slots that waited for it empty. -/
def endBatch (g : Nat) (b : Batch) (s : State) : State :=
  let s := forEach b.xfers (fun x t => delXfer t x) s
  let gr := getGrinder s g
  let s := setGrinder s g { gr with active := gr.active.filter (fun a => a.id != b.id) }
  let s := if batchStatus b = 2 then updInv s b.inv (fun x => { x with versionRetired := true }) else s
  let s := retireOp b.core b.opSeq (postDone b.done s)
  let s := match b.desc with
    | some d => settleTable (g / 16) d.table s
    | none => s
  intakeAll g s

/-- A begun batch goes on to its rows, their landing, its result record and its end (R238, R246). -/
def completeBatch (g which : Nat) (s : State) : State :=
  match (getGrinder s g).active[which]? with
  | none => s
  | some b =>
    match b.desc with
    | none => s
    | some d =>
      if b.phase = .pooling then
        if b.outstanding ≠ [] ∨ !b.xfers.all (xferOver s) ∨ (b.forced.isNone ∧ b.next < b.idx.length) then s
        else
          let s := forEach b.xfers (fun x t => delXfer t x) s
          let writes : Bool := match b.forced with | some 2 => true | some _ => false | none => true
          let rows := match writes, batchTable s g b with | true, some t => poolRows t b d | _, _ => []
          let s := updBatch g b.id (fun b => { b with rows := rows, phase := .writing, xfers := [] }) s
          if d.toLink ∨ rows = [] then s
          else
            let o := (rows.headD []).length
            let ps := ((List.range rows.length).map (fun r => rowPieces ((d.outRef + r * d.outStride) % 2 ^ 48) (r * o) o)).flatten
            let (x, s) := newXfer { xferOf s (engineOfGrinder g) b.context b.inv (.batch g b.id) .write b.cls b.region ps with
                                      buffered := true, payload := rows.flatten } s
            updBatch g b.id (fun b => { b with xfers := [x] }) s
      else if b.phase ≠ .writing then s
      else
        let s := match d.toLink, grinderLink s g d.outLink true with
          | true, some l => feedRing (b.rows.length - b.rowsOut) g b.id l d s
          | _, _ => s
        match (getGrinder s g).active.find? (fun a => a.id == b.id) with
        | none => s
        | some b =>
          if !(if b.recorded then b.xfers.all (xferOver s) else rowsLanded s b d) then s
          else if b.recorded ∨ d.resultRef = 0 ∨ 2 ^ 48 ≤ d.resultRef ∨ d.resultRef % 32 ≠ 0 then endBatch g b s
          else
            let s := forEach b.xfers (fun x t => delXfer t x) s
            let rec_ := clean (resultRecord b d)
            let (x, s) := newXfer { xferOf s (engineOfGrinder g) b.context b.inv (.batch g b.id) .write b.cls b.region
                                      (rowPieces d.resultRef 0 32) with buffered := true, payload := rec_ } s
            updBatch g b.id (fun b => { b with xfers := [x], recorded := true }) s

/-! ### Table commands (R244, R245) -/

/-- A Carrier semaphore (R49). -/
def carrierSem (s : State) (i : Nat) : Bool := (semOwner s i).isNone

/-- What a command answers: a code, and the store after it. -/
abbrev TableAnswer := Nat × State

def bit63 (v : Dword) (hi lo : Nat) : Nat := bitsOf v.toNat hi lo

/-- DEFINE. -/
def tableDefine (die table : Nat) (a : List Dword) (s : State) : TableAnswer :=
  let a0 := a.getD 0 0
  let a1 := a.getD 1 0
  let a2 := a.getD 2 0
  let a3 := a.getD 3 0
  let fmt := bit63 a1 40 37
  let slice := bit63 a1 53 41
  let stride := bit63 a2 15 0
  let rows := bit63 a1 36 0
  let bytes := slice + (if rowScaled fmt then 4 else 0)
  if bit63 a0 63 48 ≠ 0 ∨ bit63 a1 63 54 ≠ 0 ∨ bit63 a2 63 28 ≠ 0 ∨ bit63 a3 63 32 ≠ 0 then (1, s)
  else if !rowFmtOk fmt ∨ slice % 4 ≠ 0 ∨ slice = 0 ∨ 4096 < bytes ∨ stride < ceilDiv bytes 64 ∨ bit63 a0 47 0 % 64 ≠ 0 ∨ rows = 0 ∨
      2 ^ 36 < rows ∨ bit63 a3 31 0 = 0 then (2, s)
  else if (tabFind (getStore s die).tables table).isSome then (3, s)
  else
    let t : TableEntry :=
      { rowFmt := fmt, sliceBytes := slice, rowStride := stride, owner := bit63 a2 27 16,
        slot0 := { state := 2, base := bit63 a0 47 0, rows := rows, epoch := bit63 a3 31 0 }, slot1 := slotEmpty,
        retiring := none, undefining := none, forced := none, seq := 0 }
    (0, updStore s die (fun st => { st with tables := tabPut st.tables table t }))

/-- STAGE. -/
def tableStage (die table : Nat) (a : List Dword) (s : State) : TableAnswer :=
  let a0 := a.getD 0 0
  let a1 := a.getD 1 0
  let a3 := a.getD 3 0
  let rows := bit63 a1 36 0
  let epoch := bit63 a3 31 0
  if bit63 a0 63 48 ≠ 0 ∨ bit63 a1 63 37 ≠ 0 ∨ a.getD 2 0 ≠ 0 ∨ bit63 a3 63 32 ≠ 0 then (1, s)
  else
    match tabFind (getStore s die).tables table with
    | none => (if bit63 a0 47 0 % 64 ≠ 0 ∨ rows = 0 ∨ 2 ^ 36 < rows ∨ epoch = 0 then 2 else 3, s)
    | some t =>
      let other := t.slot0.epoch == epoch && t.slot0.state != 0 || t.slot1.epoch == epoch && t.slot1.state != 0
      if bit63 a0 47 0 % 64 ≠ 0 ∨ rows = 0 ∨ 2 ^ 36 < rows ∨ epoch = 0 ∨ other then (2, s)
      else
        match t.slotIn 0 with
        | none => (3, s)
        | some k =>
          (0, updStore s die (fun st =>
            { st with tables := tabPut st.tables table (t.setSlot k { state := 1, base := bit63 a0 47 0, rows := rows, epoch := epoch }) }))

/-- Arguments that a command leaves at 0. -/
def noArgs (a : List Dword) : Bool := a.all (· == 0)

/-- SWITCH. -/
def tableSwitch (die table : Nat) (a : List Dword) (s : State) : TableAnswer :=
  if !noArgs a then (1, s)
  else
    match tabFind (getStore s die).tables table with
    | none => (3, s)
    | some t =>
      match t.slotIn 1, t.slotIn 2 with
      | some n, some c =>
        let t := (t.setSlot n { t.slot n with state := 2 }).setSlot c { t.slot c with state := 3 }
        (0, updStore s die (fun st => { st with tables := tabPut st.tables table t }))
      | _, _ => (3, s)

/-- RETIRE, with or without `FORCE`. -/
def tableRetire (die table : Nat) (force : Bool) (done : Option Nat) (a : List Dword) (s : State) : TableAnswer :=
  if !noArgs a then (1, s)
  else
    match tabFind (getStore s die).tables table with
    | none => (3, s)
    | some t =>
      match t.slotIn 3 with
      | none => (3, s)
      | some k =>
        if t.retiring.isSome then (3, s)
        else
          let bound := boundBatches s die table k
          let s := updStore s die (fun st =>
            { st with tables := tabPut st.tables table { t with retiring := some done, forced := if force then some bound.length else none } })
          let s := if force then forEach bound (fun e u => stopBatch 2 e.1 e.2 u) s else s
          (0, settleTable die table s)

/-- UPDATE. -/
def tableUpdate (die table : Nat) (done : Option Nat) (a : List Dword) (s : State) : TableAnswer :=
  let a0 := a.getD 0 0
  let a1 := a.getD 1 0
  if bit63 a0 63 48 ≠ 0 ∨ bit63 a1 63 36 ≠ 0 ∨ a.getD 2 0 ≠ 0 ∨ a.getD 3 0 ≠ 0 then (1, s)
  else
    match tabFind (getStore s die).tables table with
    | none => (if bit63 a0 47 0 % 64 ≠ 0 then 2 else 3, s)
    | some t =>
      match t.slotIn 2 with
      | none => (3, s)
      | some k =>
        if bit63 a0 47 0 % 64 ≠ 0 ∨ (t.slot k).rows ≤ bit63 a1 35 0 then (2, s)
        else if 4096 ≤ (getStore s die).updates.length then (4, s)
        else
          let u : RowUpdate := { table := table, slot := k, row := bit63 a1 35 0, source := bit63 a0 47 0, u := t.seq + 1, done := done }
          (0, updStore s die (fun st => { st with tables := tabPut st.tables table { t with seq := t.seq + 1 }, updates := st.updates ++ [u] }))

/-- UNDEFINE. -/
def tableUndefine (die table : Nat) (done : Option Nat) (a : List Dword) (s : State) : TableAnswer :=
  if !noArgs a then (1, s)
  else
    match tabFind (getStore s die).tables table with
    | none => (3, s)
    | some t =>
      if (t.slotIn 1).isSome ∨ (t.slotIn 3).isSome ∨ t.undefining.isSome then (3, s)
      else (0, settleTable die table (updStore s die (fun st => { st with tables := tabPut st.tables table { t with undefining := some done } })))

/-- The island that logs a control-window access (R487). -/
def agentIsland : Agent → Nat
  | .host p => 127 + p.val
  | .carrier d => islIx d.val 125

def getPort (st : TableStore) (p : Nat) : TablePort := if p = 0 then st.port0 else st.port1
def setPort (st : TableStore) (p : Nat) (x : TablePort) : TableStore := if p = 0 then { st with port0 := x } else { st with port1 := x }

/-- The post that a port's last command owes fires once `BUSY` has fallen (R244). -/
def firePort (die port : Nat) (s : State) : State :=
  let pt := getPort (getStore s die) port
  match pt.due with
  | none => s
  | some i =>
    if s.devTime < pt.busyUntil then s
    else semPost i 1 (updStore s die (fun st => setPort st port { getPort st port with due := none }))

/-- The posts of every port that are due. -/
def firePorts (s : State) : State := firePort 1 1 (firePort 1 0 (firePort 0 1 (firePort 0 0 s)))

/-- A write of `TBL_CMD` whose `OP` is one of `ops`: dropped while the port is busy, else checked and performed. The command takes its effect at the
write, where R244 has it hold from the fall of `BUSY` at most 2 µs later; DEFINE, STAGE and SWITCH post at that fall: DESIGN CHOICE, log entry 57. -/
def tableCommand (ops : Nat → Bool) (die port : Nat) (agent : Agent) (v : Dword)
    (act : Nat → Option Nat → List Dword → State → TableAnswer) (s : State) : State :=
  let op := bit63 v 3 0
  let table := bit63 v 16 8
  let pt := getPort (getStore s die) port
  if !reaches s agent ∨ !ops op then s
  else if s.devTime < pt.busyUntil then
    logEvent .tableCmdDropped (agentIsland agent) (leBytes 1 port ++ leBytes 1 op) s
  else
    let s := firePort die port s
    let done := if bit63 v 41 41 = 1 then some (bit63 v 40 24) else none
    let reserved := bit63 v 63 42 != 0 || bit63 v 23 17 != 0 || bit63 v 7 5 != 0 || (op != 4 && bit63 v 4 4 != 0)
    let semBad : Bool := match done with | some i => !carrierSem s i | none => false
    let (code, s) :=
      if reserved then (1, s)
      else if semBad then (2, s)
      else act table done pt.args s
    let (k, s) := drawFree s
    let seq := match tabFind (getStore s die).tables table with | some t => t.seq | none => 0
    updStore s die (fun st => setPort st port { getPort st port with code := code, seq := seq,
                                                                     due := if code = 0 ∧ 1 ≤ op ∧ op ≤ 3 then done else none,
                                                                     busyUntil := s.devTime + Config.freeCount k % 2001 })

/-! ### Folding an update (R242) -/

/-- An update may fold: every batch in progress bound to its version has q at least u, and no earlier update of its row is pending. -/
def mayFold (s : State) (die : Nat) (u : RowUpdate) : Bool :=
  (boundBatches s die u.table u.slot).all (fun e => match e.2.binding with | some v => decide (u.u ≤ v.q) | none => true) &&
  !(getStore s die).updates.any (fun w => w.table == u.table && w.slot == u.slot && w.row == u.row && decide (w.u < u.u))

/-- Where a piece of a row or of an update's source lies: in HBM, in a core's scratchpad, or with a host or a peer. -/
inductive FoldPlace where
  | hbm (a : Nat)
  | scratch (key : Nat)
  | outside
deriving DecidableEq, Repr

/-- The place of a piece under the owner's segments, where they grant the access (R229, R313). -/
def foldPlace (s : State) (ctx va n : Nat) (kind : AccessKind) : Option FoldPlace :=
  match covering s ctx va with
  | none => none
  | some (_, e) =>
    let a := e.dbase + (va - e.vstart)
    if !grants e kind || !segCovers e (va + n - 1) || (placeFault s a n).isSome then none
    else match placeOf a with
      | .hbm h => if hbmReady s 1 h n then some (.hbm h) else none
      | .scratch l off => (physOf s l).map (fun p => .scratch (scratchKey p off))
      | .peer slot off => if some slot = modPosition s then (if hbmReady s 1 off n then some (.hbm off) else none) else some .outside
      | .host _ _ => some .outside
      | .nowhere => none

/-- The places of the pieces of a range, with each piece's offset and length; none where a piece is not reached. -/
def foldPlaces (s : State) (ctx va n : Nat) (kind : AccessKind) : Option (List (FoldPlace × Nat × Nat)) :=
  (splitRange va n).mapM (fun e => (foldPlace s ctx (e.1 % 2 ^ 48) e.2.1 kind).map (fun p => (p, e.2.2, e.2.1)))

/-- Read the pieces of an update's source; what lies with a host or a peer comes with the command. -/
def foldRead (src : PData) : List (FoldPlace × Nat × Nat) → State → PData × State
  | [], s => ([], s)
  | (p, off, n) :: t, s =>
    let (d, s) := match p with
      | .hbm a => hbmRead (hbmTurn 1 a n s) none a n []
      | .scratch k => (memRead s k n, s)
      | .outside => (sliceAt (src ++ clean (zeros 4096)) off n, s)
    let (e, s) := foldRead src t s
    (d ++ e, s)

/-- Fold the k-th pending update of a die: `src` are its source's bytes where the source lies with a host or a peer. It stays pending while a piece
of its row or its source is not reached. The row lies in HBM (R228) or in a scratchpad. -/
def foldUpdate (die k : Nat) (src : PData) (s : State) : State :=
  match (getStore s die).updates[k]? with
  | none => s
  | some u =>
    match tabFind (getStore s die).tables u.table with
    | none => s
    | some t =>
      let n := t.rowBytes
      let row := ((t.slot u.slot).base + u.row * t.rowStride * 64) % 2 ^ 48
      match foldPlaces s t.owner row n .write, foldPlaces s t.owner u.source n .read with
      | some ws, some rs =>
        if !mayFold s die u ∨ ws.any (fun e => decide (e.1 = .outside)) then s
        else
          let (data, s) := foldRead src rs s
          let s := forEach ws (fun e t =>
            let d := sliceAt data e.2.1 e.2.2
            match e.1 with
            | .hbm a => hbmWrite (hbmTurn 1 a e.2.2 t) none a d []
            | .scratch k => memWrite t k d
            | .outside => t) s
          postDone u.done (updStore s die (fun st => { st with updates := st.updates.filter (fun w => decide (w ≠ u)) }))
      | _, _ => s

/-! ### The rows -/

/-- `GRD_BATCH_BEGIN` (R239). -/
def execGrdBatchBegin (grinder : Fin 32) (s : State) : Out State :=
  .next (grinderBegin grinder.val (if (getGrinder s grinder.val).queue = [] ∧ (getGrinder s grinder.val).active = [] then s
    else updIsl s (islOfGrinder grinder.val) (fun i => { i with power := 2, gatedSince := none })))
/-- `GRD_ROW_READ_RETURN` (R236). -/
def execGrdRowReadReturn (grinder : Fin 32) (batch : Fin 2) (read : Fin 512) (s : State) : Out State :=
  .next (rowReturn grinder.val batch.val read.val s)
/-- `GRD_BATCH_COMPLETE` (R238). -/
def execGrdBatchComplete (grinder : Fin 32) (batch : Fin 2) (s : State) : Out State := .next (completeBatch grinder.val batch.val s)
/-- `TABLE_DEFINE` (R244), and a write of an `OP` that R244 does not name. -/
def execTableDefine (agent : Agent) (die port : Fin 2) (value : Dword) (s : State) : Out State :=
  .next (tableCommand (fun o => o == 1 || o == 0 || decide (6 < o)) die.val port.val agent value
    (fun t _ a s => if bit63 value 3 0 = 1 then tableDefine die.val t a s else (1, s)) s)
/-- `TABLE_STAGE` (R241). -/
def execTableStage (agent : Agent) (die port : Fin 2) (value : Dword) (s : State) : Out State :=
  .next (tableCommand (· == 2) die.val port.val agent value (fun t _ => tableStage die.val t) s)
/-- `TABLE_SWITCH` (R241). -/
def execTableSwitch (agent : Agent) (die port : Fin 2) (value : Dword) (s : State) : Out State :=
  .next (tableCommand (· == 3) die.val port.val agent value (fun t _ => tableSwitch die.val t) s)
/-- `TABLE_RETIRE` (R241). -/
def execTableRetire (agent : Agent) (die port : Fin 2) (value : Dword) (s : State) : Out State :=
  .next (tableCommand (fun o => o == 4 && bit63 value 4 4 == 0) die.val port.val agent value (fun t => tableRetire die.val t false) s)
/-- `TABLE_RETIRE_FORCE` (R241). -/
def execTableRetireForce (agent : Agent) (die port : Fin 2) (value : Dword) (s : State) : Out State :=
  .next (tableCommand (fun o => o == 4 && bit63 value 4 4 == 1) die.val port.val agent value (fun t => tableRetire die.val t true) s)
/-- `TABLE_UPDATE` (R242). -/
def execTableUpdate (agent : Agent) (die port : Fin 2) (value : Dword) (s : State) : Out State :=
  .next (tableCommand (· == 5) die.val port.val agent value (tableUpdate die.val) s)
/-- `TABLE_UNDEFINE` (R244). -/
def execTableUndefine (agent : Agent) (die port : Fin 2) (value : Dword) (s : State) : Out State :=
  .next (tableCommand (· == 6) die.val port.val agent value (tableUndefine die.val) s)
/-- `UPDATE_FOLD` (R242). -/
def execUpdateFold (die : Fin 2) (update : Fin 4096) (source : List Byte) (s : State) : Out State :=
  .next (foldUpdate die.val update.val (clean source) s)

end Sys2Proof.Machine
end

