-- ==== Sys2Proof/Machine/Clock.lean ====
section
/-! DEFINITION. The device-time clock: one tick of one nanosecond, steered toward the manager's time (R28, R407), and what the module does of
itself as that time passes: the walk of a cache clean (R309) and the posts of the table stores (R244). -/

namespace Sys2Proof.Machine

/-- Ticks between two slewing steps: 200 ppm (R407). -/
def slewPeriod : Nat := 5000

/-- A nanosecond passes while no command waits: `DEV_TIME` counts in every state but OFF and never decreases (R28); while it slews, one tick
in 5,000 counts twice or not at all (R407). -/
def advance (s : State) : State :=
  if s.mode = .off then s
  else if s.courier.slew = 0 then { s with devTime := s.devTime + 1 }
  else if s.courier.slewTicks + 1 < slewPeriod then
    { s with devTime := s.devTime + 1, courier := { s.courier with slewTicks := s.courier.slewTicks + 1 } }
  else if 0 < s.courier.slew then
    { s with devTime := s.devTime + 2, courier := { s.courier with slew := s.courier.slew - 1, slewTicks := 0 } }
  else { s with courier := { s.courier with slew := s.courier.slew + 1, slewTicks := 0 } }

/-- Whole cycles of a cache island's 1.8 GHz clock by a running time in quarters of a ns (R16, R456). -/
def cacheCycles (quarters : Nat) : Nat := quarters * 9 / 20

/-- The walk of a clean passes one tag in each cycle of its cache's clock (R309). -/
def walkCache (cycles die : Nat) (s : State) : State :=
  let c := getCache s die
  if c.walk = [] then s else setCache s die (walkTags s.devTime cycles c)

/-- The cycles of the cache islands that pass from one state to another. -/
def cyclesBetween (s t : State) : Nat := cacheCycles (runTime t) - cacheCycles (runTime s)

/-- A nanosecond of idle time and what falls due in it; in OFF none passes. -/
def tick (s : State) : State :=
  if s.mode = .off then s
  else
    let t := advance s
    firePorts (walkCache (cyclesBetween s t) 1 (walkCache (cyclesBetween s t) 0 t))

end Sys2Proof.Machine
end

