-- ==== Sys2Proof/Machine/Queue.lean ====
section
/-! DEFINITION. Queues, envelopes, dispatch and the scheduler (R351-R359, R365-R373). -/

namespace Sys2Proof.Machine

def queueBind (s : State) (q : Nat) : Option QueueBind := tabFind s.blend.cur.queues q
/-- D (R351); 0 where the blend does not bind the queue. -/
def queueDepth (s : State) (q : Nat) : Nat := match queueBind s q with | some b => 2 ^ b.depthLog2 | none => 0
/-- A difference of free-running counters. -/
def ahead (a b : Nat) : Nat := (a + 2 ^ 32 - b % 2 ^ 32) % 2 ^ 32

/-- Island 125 of the die of a queue's partition (R487). -/
def queueIsland (s : State) (q : Nat) : Nat := islIx ((match queueBind s q with | some b => b.partition | none => 0) / 32) 125

/-- Who may write a queue's registers: the host that has claimed it, and the Carrier. -/
def mayDrive (s : State) (a : Agent) (q : Nat) : Bool :=
  match a with
  | .carrier _ => s.pm.carrierRuns
  | .host _ => match agentHost s a with | some h => claims s h q | none => false

/-- A queue's doorbells with one more: those that a lower tail takes back, and those that the head has passed, go. -/
def ringBell (x : QueueState) (v now : Nat) : List (Nat × Nat) :=
  x.doorbells.filter (fun e => decide (0 < ahead e.1 x.sqHead) && decide (ahead e.1 x.sqHead < ahead v x.sqHead)) ++ [(v, now)]

/-- The start of the envelope k places past the head: the time of the first doorbell that covers it (R375). -/
def bellTime (x : QueueState) (k now : Nat) : Nat :=
  match x.doorbells.find? (fun e => decide (k < ahead e.1 x.sqHead) && decide (ahead e.1 x.sqHead < 2 ^ 31)) with
  | some e => e.2
  | none => now

/-! ### Counters and control (R352, R353) -/

/-- `SQ_TAIL` is written: the doorbell where it is valid (R353, R358). -/
def writeTail (a : Agent) (q v : Nat) (s : State) : State :=
  let x := getQ s q
  if !mayDrive s a q ∨ x.ringFed then s
  else if ahead v x.sqHead ≤ queueDepth s q then setQ s q { x with sqTail := v, doorbells := ringBell x v s.devTime, idle := false }
  else logEvent .sqTailInvalid (agentIsland a) (leBytes 2 q ++ leBytes 4 v) (setQ s q { x with error := true })

/-- `RQ_HEAD` is written (R353). -/
def writeHead (a : Agent) (q v : Nat) (s : State) : State :=
  let x := getQ s q
  if !mayDrive s a q ∨ x.ringFed then s
  else if ahead v x.rqHead ≤ ahead x.rqTail x.rqHead then setQ s q { x with rqHead := v }
  else logEvent .rqHeadInvalid (agentIsland a) (leBytes 2 q ++ leBytes 4 v) (setQ s q { x with error := true })

/-- A ring lies whole in a host's aperture half, 4 KiB aligned (R351). -/
def ringOk (h base n : Nat) : Bool :=
  base % 4096 == 0 && decide (hostBase + h * 2 ^ 39 ≤ base) && decide (base + n ≤ hostBase + (h + 1) * 2 ^ 39)

/-- The conditions of R352 on `ENABLE`. -/
def mayEnable (s : State) (q : Nat) : Bool :=
  let x := getQ s q
  let d := queueDepth s q
  (queueBind s q).isSome &&
  (match queueHost s q with
   | none => false
   | some h => if x.ringFed then x.sqRing == 0 && x.rqRing == 0 else ringOk h x.sqRing (64 * d) && ringOk h x.rqRing (32 * d)) &&
  x.sqTail == x.sqHead && x.rqTail == x.sqHead && x.rqHead == x.sqHead

/-- The writable fields of `SQ_CTRL` but for `ENABLE`. -/
def ctrlFields (x : QueueState) (v : Nat) : QueueState :=
  { x with fastMode := bitOf v 30, hold := bitOf v 29, vector := v % 1024 }

/-- A write of 1 to `SQ_CTRL.ENABLE` (R352). -/
def enableQueue (a : Agent) (q v : Nat) (s : State) : State :=
  if !mayDrive s a q ∨ !bitOf v 31 then s
  else
    let s := updQ s q (fun x => ctrlFields x v)
    if (getQ s q).enable then s
    else if mayEnable s q then updQ s q (fun x => { x with enable := true })
    else logEvent .queueConfigRefused (agentIsland a) (leBytes 2 q) s

/-- A write of 0 to `SQ_CTRL.ENABLE`: fetching stops, and staged envelopes are dropped. -/
def disableQueue (a : Agent) (q v : Nat) (s : State) : State :=
  if !mayDrive s a q ∨ bitOf v 31 then s
  else updQ s q (fun x => { ctrlFields x v with enable := false, staged := [] })

/-! ### Envelopes (R355-R357) -/

/-- Where an envelope came from. -/
inductive EnvFrom where
  | ring | mailbox | step
deriving DecidableEq, Repr

/-- Every field after `KIND` of a FENCE is 0, but for `MB_TAG` of one that came by mailbox. -/
def fenceOk (b : List Byte) (src : EnvFrom) : Bool :=
  (sliceAt b 1 0x23).all (· == 0) && (sliceAt b 0x28 24).all (· == 0) && (src == .mailbox || fieldAt b 0x24 4 == 0)

/-- The rules of R355 and R356 on an INVOKE envelope. -/
def invokeOk (p : Partition) (h : Option Nat) (b : List Byte) (src : EnvFrom) : Bool :=
  let inline_ := bitOf (fieldAt b 1 1) 0
  let cores := fieldAt b 2 1
  let n := fieldAt b 4 2
  let stride := fieldAt b 6 2
  let addr := fieldAt b 0x10 8
  let pin := fieldAt b 0x20 1
  decide (fieldAt b 1 1 < 4) && decide (1 ≤ cores) && decide (cores ≤ p.cores.length) && n % 8 == 0 && decide (56 ≤ n) && decide (n ≤ 4096) &&
  (stride == 0 || (stride % 8 == 0 && decide (56 ≤ stride))) && decide ((cores - 1) * stride + 56 ≤ n) &&
  fieldAt b 8 8 % 32 == 0 && decide (fieldAt b 8 8 < 2 ^ 48) &&
  (match src with
   | .ring => !inline_
   | .mailbox => !inline_ || decide (n ≤ 192)
   | .step => inline_) &&
  (if inline_ then addr == 0 else
    match h with
    | some h => addr % 64 == 0 && decide (hostBase + h * 2 ^ 39 ≤ addr) && decide (addr + n ≤ hostBase + (h + 1) * 2 ^ 39)
    | none => false) &&
  (pin == 0xFF || p.cores.contains pin) &&
  (sliceAt b 0x21 3).all (· == 0) && (sliceAt b 0x28 24).all (· == 0) && (src == .mailbox || fieldAt b 0x24 4 == 0)

/-- An envelope as it is staged: parsed, checked, with its enclosure; `refused` says that the read of an enclosure in host memory was (R357). -/
def readEnvelope (s : State) (q : Nat) (b enc : List Byte) (refused : Bool) (src : EnvFrom) (index start : Nat) : Envelope :=
  let ok : Bool := match queueBind s q with
    | none => false
    | some qb => match getPart s qb.partition with
      | none => false
      | some p => if fieldAt b 0 1 = 1 then fenceOk b src else fieldAt b 0 1 == 0 && invokeOk p (queueHost s q) b src
  { fence := fieldAt b 0 1 == 1, notify := bitOf (fieldAt b 1 1) 1, cores := fieldAt b 2 1, linkSet := fieldAt b 3 1,
    rankStride := fieldAt b 6 2, program := fieldAt b 8 8, seed := BitVec.ofNat 64 (fieldAt b 0x18 8),
    pin := if fieldAt b 0x20 1 = 0xFF then none else some (fieldAt b 0x20 1), mailbox := src == .mailbox,
    sqIndex := if src = .mailbox then fieldAt b 0x24 4 else index,
    enclosure := padTo (fieldAt b 4 2) enc, bad := if !ok then 0x30 else if refused && fieldAt b 0 1 == 0 && !bitOf (fieldAt b 1 1) 0 then 0x31 else 0, start := start }

/-- The queue's front end may fetch (R354, R71, R342). -/
def mayServe (s : State) (q : Nat) : Bool :=
  let x := getQ s q
  x.enable && !x.hold && !x.spillStop && decide (s.mode = .serving) &&
  (match queueBind s q with | some b => !s.blend.quiesced.contains b.partition | none => false) &&
  (x.ringFed || match queueHost s q with | some h => decide ((getHost s h).cond = .registered) | none => false)

/-- Fetch, check and stage the next envelope of a queue's ring; with none to fetch, the front end goes idle (R357-R359). -/
def stageEnvelope (q : Nat) (b enc : List Byte) (refused : Bool) (s : State) : State :=
  let x := getQ s q
  let left := ahead x.sqTail x.sqHead
  if !mayServe s q then s
  else if left ≤ x.staged.length then setQ s q { x with idle := true }
  else if 2 ≤ x.staged.length then s
  else
    let e := match x.ringFed, x.fed[x.staged.length]? with
      | true, some f => f
      | _, _ => readEnvelope s q (padTo 64 b) enc refused .ring ((x.sqHead + x.staged.length) % 2 ^ 32)
               (bellTime x x.staged.length s.devTime)
    setQ s q { x with staged := x.staged ++ [e], idle := decide (left = x.staged.length + 1) }

/-! ### Choosing cores (R365, R366) -/

/-- The logical cores of a partition, with die. -/
def partLogicals (pid : Nat) (p : Partition) : List Nat := p.cores.map (· + pid / 32 * 80)

/-- The cores that an envelope would take; none where they are not free. -/
def pickCores (s : State) (pid : Nat) (p : Partition) (e : Envelope) : Option (List Nat) :=
  let ls := partLogicals pid p
  match e.pin with
  | some k =>
    let c := (ls.filter (fun l => decide (k + pid / 32 * 80 ≤ l))).take e.cores
    if c.length = e.cores ∧ c.all (coreFree s) then some c else none
  | none =>
    let c := (ls.filter (coreFree s)).take e.cores
    if c.length = e.cores then some c else none

/-- An invocation with the same link set is in progress on one of some cores (R366). -/
def linkSetBusy (s : State) (ls : Nat) (cores : List Nat) : Bool :=
  s.qs.invs.any (fun i => i.2.linkSet == ls && i.2.cores.any (cores.contains ·))

/-- A pinned envelope whose cores are not all in the partition at dispatch (R357). -/
def pinBad (pid : Nat) (p : Partition) (e : Envelope) : Bool :=
  match e.pin with
  | some k => decide (((partLogicals pid p).filter (fun l => decide (k + pid / 32 * 80 ≤ l))).length < e.cores)
  | none => false

/-- The fault code with which an envelope is rejected at dispatch; 0 for none. -/
def envBad (pid : Nat) (p : Partition) (e : Envelope) : Nat :=
  if e.bad ≠ 0 then e.bad else if !e.fence && pinBad pid p e then 0x30 else 0

/-- The envelope that a queue would dispatch next: a mailbox one before its ring's (R359). -/
def nextEnvelope (x : QueueState) : Option Envelope := match x.mailed with | e :: _ => some e | [] => x.staged.head?

/-- Every dispatched envelope has a free receipt slot (R354). -/
def receiptRoom (s : State) (q : Nat) : Bool :=
  let x := getQ s q
  decide (ahead x.rqTail x.rqHead + x.openCount < queueDepth s q)

/-- What the next envelope of a queue waits for. -/
inductive Hold where
  | ready (cores : List Nat) | forCores | forLinks | other
deriving DecidableEq, Repr

def envHold (s : State) (q : Nat) : Hold :=
  match queueBind s q with
  | none => .other
  | some b =>
    match getPart s b.partition, nextEnvelope (getQ s q) with
    | some p, some e =>
      if !mayServe s q ∨ !receiptRoom s q then .other
      else if envBad b.partition p e ≠ 0 ∨ e.fence then .ready []
      else
        match pickCores s b.partition p e with
        | none => .forCores
        | some c => if linkSetBusy s e.linkSet c then .forLinks else .ready c
    | _, _ => .other

/-! ### Dispatch (R186, R365) -/

/-- The generators of a core at the start of an invocation (R98, R99). -/
def seedGens (seed : Dword) (inv l : Nat) : Tab Dword :=
  (List.range 512).map (fun k => (k, srInit seed (BitVec.ofNat 64 inv)
    (l * 2048 + (if k < 256 then k / 64 * 256 + k % 64 else 1024 + (k - 256)))))

/-- A core's sequencer starts (R186). -/
def startCore (i : Nat) (e : Envelope) (rank l : Nat) (s : State) : State :=
  match physOf s l with
  | none => s
  | some p =>
    let enc := e.enclosure.drop (rank * e.rankStride)
    let s := updIsl s (islOfCore p) (fun x => { x with power := 2, gatedSince := none })
    updCore s p (fun c => keepIssued
      { c with inv := some i, phase := .running, pc := e.program,
               xs := 0 :: (List.range 7).map (fun k => BitVec.ofNat 64 (fieldAt enc (8 * k) 8)),
               lcs := [0, 0, 0, 0], window := [], nextSeq := 0, blocks := [], live := [], liveMore := none, wait := none,
               withdrawn := [], ended := false, endedAt := none, spill := none, reloads := [],
               gens := seedGens e.seed i l, mat := none, matNext := none, vec := none, stall := none })

/-- An envelope leaves its queue. -/
def takeEnvelope (x : QueueState) (e : Envelope) : QueueState :=
  if e.mailbox then { x with mailed := x.mailed.drop 1 }
  else { x with staged := x.staged.drop 1, fed := x.fed.drop (b2n x.ringFed), sqHead := (x.sqHead + 1) % 2 ^ 32 }

/-- Dispatch the next envelope of a queue onto cores. -/
def dispatch (q : Nat) (cores : List Nat) (s : State) : State :=
  match queueBind s q with
  | none => s
  | some b =>
    match getPart s b.partition, nextEnvelope (getQ s q) with
    | some p, some e =>
      let bad := envBad b.partition p e
      let lat := fun (x : QueueState) => max x.lat (min 0xFFFFFFFF (s.devTime - max e.start (tabGet 0 s.blend.resumedAt b.partition)))
      let s := { s with qs := { s.qs with lastServed := tabSet 0 s.qs.lastServed (b.partition * 4 + b.cls) q } }
      let s := updQ s q (fun x => { takeEnvelope x e with openCount := x.openCount + 1, linkWait := false, coreWait := false,
                                                          lat := if bad = 0 ∧ !e.fence then lat x else x.lat })
      let i := s.qs.nextInv
      if bad ≠ 0 then
        let s := { s with qs := { s.qs with nextInv := i + 1 } }
        let s := logEvent .envelopeInvalid (queueIsland s q) (leBytes 2 q ++ leBytes 4 e.sqIndex) s
        dropLost q (addReceipt { status := .aborted, mailbox := e.mailbox, fault := bad, fpFlags := 0, replays := 0, switches := 0, queue := q,
                                 invocation := i, postmark := s.devTime, poisoned := 0, sqIndex := e.sqIndex, notify := e.notify } s)
      else if e.fence then
        let open_ := (s.qs.invs.filter (fun v => v.2.queue == q)).map (·.1)
        let f : FenceWait := { sqIndex := e.sqIndex, mailbox := e.mailbox, waits := open_ }
        updQ s q (fun x => if open_ = [] then { x with due := x.due ++ [fenceReceipt s q f] } else { x with fences := x.fences ++ [f] })
      else
        let v : Invocation :=
          { queue := q, context := (getQ s q).context, partition := b.partition, cls := b.cls, cores := cores, linkSet := e.linkSet,
            program := e.program, seed := e.seed, enclosure := e.enclosure, rankStride := e.rankStride, notify := e.notify,
            mailbox := e.mailbox, sqIndex := e.sqIndex, state := .resident, dispatched := s.devTime, early := none, refused := false,
            sizeFault := false, versionRetired := false, poisoned := 0, replays := 0, switches := 0, fpFlags := 0, done := [], saved := [],
            slot := none, preempted := false, satPoison := false, blockedSince := none, outSince := 0 }
        let s := { s with qs := { s.qs with nextInv := i + 1, invs := tabPut s.qs.invs i v } }
        forEach ((List.range cores.length).zip cores) (fun e' t => startCore i e e'.1 e'.2 t) s
    | _, _ => s

/-! ### The scheduler (R367, R368, R371) -/

/-- The queues of a partition and class, round robin from the one after the last served. -/
def queuesOf (s : State) (pid cls : Nat) : List Nat :=
  let qs := (s.blend.cur.queues.filter (fun e => e.2.partition == pid && e.2.cls == cls)).map (·.1)
  let last := tabGet 0 s.qs.lastServed (pid * 4 + cls)
  qs.filter (fun q => decide (last < q)) ++ qs.filter (fun q => decide (q ≤ last))

/-- A switched-out invocation of a class that could be resumed now. -/
def resumable (s : State) (pid cls : Nat) : Bool :=
  s.qs.invs.any (fun e => e.2.partition == pid && e.2.cls == cls && runnable s e.1 e.2 && coresFree s e.2)

/-- The invocations that a waiting envelope of class c would have switched out (R368): lowest class first and, within a class, most recently
dispatched first, until its cores are free. -/
def victims (s : State) (pid cls : Nat) (p : Partition) (e : Envelope) : List Nat :=
  if p.express then []
  else
    let lower := s.qs.invs.filter (fun i => i.2.partition == pid && decide (cls < i.2.cls) && decide (i.2.state = .resident) && i.2.early.isNone)
    let before := fun (a b : Nat × Invocation) => decide (b.2.cls < a.2.cls) || (a.2.cls == b.2.cls && decide (b.1 ≤ a.1))
    let order : List (Nat × Invocation) := sortBy before lower
    let enough := fun (gone : List (Nat × Invocation)) =>
      let ok := fun l => coreFree s l || gone.any (fun g => g.2.cores.contains l)
      match e.pin with
      | some k =>
        let c := ((partLogicals pid p).filter (fun l => decide (k + pid / 32 * 80 ≤ l))).take e.cores
        c.length == e.cores && c.all ok
      | none => decide (e.cores ≤ ((partLogicals pid p).filter ok).length)
    let order : List (Nat × Invocation) := match e.pin with
      | some k =>
        let c := ((partLogicals pid p).filter (fun l => decide (k + pid / 32 * 80 ≤ l))).take e.cores
        order.filter (fun i => i.2.cores.any (c.contains ·))
      | none => order
    match (List.range (order.length + 1)).find? (fun n => enough (order.take n)) with
    | some n => (order.take n).map (·.1)
    | none => []

/-- Note what the next envelope of a queue waits for. -/
def noteHold (q : Nat) (s : State) : State :=
  match envHold s q with
  | .forCores => updQ s q (fun x => { x with coreWait := true, linkWait := false })
  | .forLinks => updQ s q (fun x => { x with linkWait := true, coreWait := false })
  | _ => s

/-- Serve the classes of a partition from Express down: dispatch one envelope, else switch out what the first waiting one needs. -/
def serveClasses (pid : Nat) : List Nat → State → State
  | [], s => s
  | c :: t, s =>
    if resumable s pid c then s
    else
      let qs := queuesOf s pid c
      match qs.findSome? (fun q => match envHold s q with | .ready cores => some (q, cores) | _ => none) with
      | some (q, cores) => dispatch q cores s
      | none =>
        let s := forEach qs noteHold s
        let need := qs.findSome? (fun q =>
          match envHold s q, getPart s pid, nextEnvelope (getQ s q) with
          | .forCores, some p, some e => if victims s pid c p e = [] then none else some (victims s pid c p e)
          | _, _, _ => none)
        match need with
        | some v => forEach v (fun i t => requestSwitch i true t) s
        | none => serveClasses pid t s

/-- The resident invocations on the cores of another. -/
def residentsUnder (s : State) (x : Invocation) : List (Nat × Invocation) :=
  s.qs.invs.filter (fun e => decide (e.2.state = .resident) && (residentOn s e.1 e.2).any (fun p => x.cores.any (fun l => physOf s l == some p)))

/-- A runnable invocation's cores are held by blocked residents only: they are switched out, the one blocked longest first (R371). -/
def makeRoom (i : Nat) (s : State) : State :=
  match getInv s i with
  | none => s
  | some x =>
    let rs := residentsUnder s x
    if !runnable s i x ∨ rs = [] ∨ rs.any (fun e => e.2.blockedSince.isNone) then s
    else
      let before := fun (a b : Nat × Invocation) => decide (a.2.blockedSince.getD 0 ≤ b.2.blockedSince.getD 0)
      forEach ((sortBy before rs).map (·.1)) (fun k t => requestSwitch k false t) s

/-- A switch that the scheduler wants: for a waiting envelope, or for a runnable invocation (R368, R371). -/
def switchWanted (s : State) (i : Nat) : Option Bool :=
  match getInv s i with
  | none => none
  | some x =>
    let wanted := (List.range x.cls).any (fun c => (queuesOf s x.partition c).any (fun q =>
      match envHold s q, getPart s x.partition, nextEnvelope (getQ s q) with
      | .forCores, some p, some e => (victims s x.partition c p e).contains i
      | _, _, _ => false))
    if wanted then some true
    else if s.qs.invs.any (fun e => runnable s e.1 e.2 && (let rs := residentsUnder s e.2
                                     rs.any (fun r => r.1 == i) && rs.all (fun r => r.2.blockedSince.isSome))) then some false
    else none

/-! ### The rows -/

/-- `SQ_TAIL_WRITE` (R358). -/
def execSqTailWrite (agent : Agent) (queue : Fin 1024) (value : Word) (s : State) : Out State :=
  .next (writeTail agent queue.val value.toNat s)
/-- `RQ_HEAD_WRITE` (R353). -/
def execRqHeadWrite (agent : Agent) (queue : Fin 1024) (value : Word) (s : State) : Out State :=
  .next (writeHead agent queue.val value.toNat s)
/-- `SQ_ENABLE` (R352). -/
def execSqEnable (agent : Agent) (queue : Fin 1024) (value : Word) (s : State) : Out State :=
  .next (enableQueue agent queue.val value.toNat s)
/-- `SQ_DISABLE` (R352). -/
def execSqDisable (agent : Agent) (queue : Fin 1024) (value : Word) (s : State) : Out State :=
  .next (disableQueue agent queue.val value.toNat s)
/-- `ENVELOPE_STAGE` (R357). -/
def execEnvelopeStage (queue : Fin 1024) (envelope enclosure : List Byte) (refused : Bool) (s : State) : Out State :=
  .next (stageEnvelope queue.val envelope enclosure refused s)
/-- `INVOCATION_DISPATCH` (R365). -/
def execInvocationDispatch (partition : Fin 64) (s : State) : Out State := .next (serveClasses partition.val [0, 1, 2, 3] s)
/-- `INVOCATION_RUNNABLE` (R371). -/
def execInvocationRunnable (inv : Nat) (s : State) : Out State := .next (makeRoom inv s)
/-- `SWITCH_REQUEST` (R207). -/
def execSwitchRequest (inv : Nat) (s : State) : Out State :=
  .next (match switchWanted s inv with | some p => requestSwitch inv p s | none => s)

end Sys2Proof.Machine
end

