-- ==== Sys2Proof/Machine/Host.lean ====
section
/-! DEFINITION. Gheklink and the hosts: links, the order of host writes, loss and reset of a host, refusals and the spill area, mailboxes
and vectors (R329-R350). -/

namespace Sys2Proof.Machine

/-! ### Ports of a host (R332, R335) -/

def portUp (s : State) (p : Nat) : Bool := decide ((getGk s p).link = .up)
/-- The ports that serve a host, and those of them that are up. -/
def portsOf (s : State) (h : Nat) : List Nat := [0, 1].filter (fun p => decide ((getGk s p).host = some h))
def upPorts (s : State) (h : Nat) : List Nat := (portsOf s h).filter (portUp s)

/-- The port that a 4 KiB piece at a host address is bound to while an earlier write to it is undelivered. -/
def boundPort (s : State) (h o : Nat) : Option Nat :=
  [0, 1].find? (fun p => (getGk s p).held.any (fun w => w.host == h && w.addr / 4096 == o / 4096))

/-- The port of a piece (R335): by bit 12 while both are up, else the one that is; none where it must wait. -/
def portFor (s : State) (h o : Nat) : Option Nat :=
  match boundPort s h o with
  | some p => if portUp s p then some p else none
  | none => match upPorts s h with
    | [p] => some p
    | _ :: _ => some (bitsOf o 12 12)
    | [] => none

/-- The port at which a piece waits while none can carry it. -/
def waitPort (s : State) (h o : Nat) : Nat :=
  match boundPort s h o with
  | some p => p
  | none => if (portsOf s h).contains (bitsOf o 12 12) then bitsOf o 12 12 else (portsOf s h).headD 0

/-! ### Writes: delivered, then flushed (R335, R337) -/

/-- The adapter has acknowledged a write: it is delivered, and a piece that it carries lands. -/
def deliverWrite (p : Nat) (w : HostWrite) (s : State) : State :=
  let k := getGk s p
  let w := { w with seq := k.seq }
  let s := setGk s p { k with seq := k.seq + 1, unflushed := k.unflushed ++ [w] }
  let s := { s with host := { s.host with delivered := s.host.delivered ++ [(p, w)] } }
  match w.for_ with
  | .piece x n => updInv (landPiece x n [] s) w.invocation (fun i => { i with poisoned := satAdd 0xFFFFFFFF i.poisoned w.marks })
  | _ => s

/-- A write leaves by its port, or waits in it. -/
def sendWrite (w : HostWrite) (s : State) : State :=
  match portFor s w.host w.addr with
  | some p => deliverWrite p w s
  | none => updGk s (waitPort s w.host w.addr) (fun k => { k with held := k.held ++ [w] })

/-- A write is made for work of class Express: its transfer's, or its receipt's queue's. -/
def expressWrite (s : State) (w : HostWrite) : Bool :=
  match w.for_ with
  | .piece x _ => (match getXfer s x with | some v => v.cls == 0 | none => false)
  | .receipt q => (match tabFind s.blend.cur.queues q with | some b => b.cls == 0 | none => false)
  | _ => false

/-- The order in which the writes that wait at a port enter the link: Express first, each class in issue order (R331). That an Express write stays
behind an earlier write to its own 4 KiB piece (R335), and a later Express one behind it, is the model's: DEDUCED, log entry 66. -/
def enterOrder (s : State) (l : List HostWrite) : List HostWrite :=
  let meets := fun (w v : HostWrite) => expressWrite s v || (v.host == w.host && v.addr / 4096 == w.addr / 4096)
  let (front, back) := l.foldl (fun fb w =>
    if expressWrite s w && !fb.2.any (meets w) then (fb.1 ++ [w], fb.2) else (fb.1, fb.2 ++ [w])) (([] : List HostWrite), ([] : List HostWrite))
  front ++ back

/-- A port that is up sends what it has held. -/
def releaseHeld (p : Nat) (s : State) : State :=
  let h := enterOrder s (getGk s p).held
  forEach h (fun w t => deliverWrite p w t) (updGk s p (fun k => { k with held := [] }))

/-- What a port that went down has not had acknowledged goes to another, in its order (R345). -/
def movePort (p q : Nat) (s : State) : State :=
  let k := getGk s p
  let s := setGk s p { k with held := [], reads := [], unflushed := [], flushes := [] }
  let s := updGk s q (fun d =>
    { d with held := d.held ++ k.held, reads := d.reads ++ k.reads,
             unflushed := d.unflushed ++ k.unflushed.map (fun w => { w with seq := d.seq }), seq := d.seq + 1,
             flushes := d.flushes ++ k.flushes.map (fun _ => d.seq + 1) })
  if portUp s q then releaseHeld q s else s

/-- Ask for a flush of everything a port has delivered so far, unless one under way covers it. -/
def askFlush (p : Nat) (s : State) : State :=
  let k := getGk s p
  if k.unflushed = [] ∨ k.flushes.any (fun n => decide (k.seq ≤ n)) then s else setGk s p { k with flushes := k.flushes ++ [k.seq] }

/-- A port's oldest flush read returns (R337). -/
def flushReturn (p : Nat) (s : State) : State :=
  let k := getGk s p
  match k.flushes with
  | [] => s
  | n :: t => if k.link ≠ .up then s else setGk s p { k with flushes := t, unflushed := k.unflushed.filter (fun w => decide (n ≤ w.seq)) }

/-! ### Notices (R347) -/

/-- The mailboxes of a host (R332). -/
def mbOwner (s : State) (k : Nat) : Nat := if joined s ∨ k < 32 then 0 else 1
def noticeMailbox (s : State) (h : Nat) : Nat := if joined s ∨ h = 1 then 63 else 31

def getMbCtrl (s : State) (k : Nat) : MbCtrl := tabGet mbCtrlReset s.host.mbCtrl k

/-- A notice waits; one of the same queue that still waits is merged into it. -/
def addNotice (h : Nat) (n : Notice) (s : State) : State :=
  let l := tabGet [] s.host.notices h
  let same := fun (m : Notice) => decide (n.kind ≠ .port) && decide (m.kind ≠ .port) && m.queue == n.queue
  let l := if l.any same then l.map (fun m => if same m then n else m) else l ++ [n]
  { s with host := { s.host with notices := tabSet [] s.host.notices h l } }

/-- A port of a host went down, came up or changed width. -/
def portNotice (p : Nat) (s : State) : State :=
  match (getGk s p).host with
  | some h => addNotice h { kind := .port, port := p, queue := 0, spilled := 0, postmark := s.devTime } s
  | none => s

def noticeBytes (n : Notice) : List Byte :=
  leBytes 1 (match n.kind with | .spill => 1 | .drained => 2 | .port => 3) ++ leBytes 1 n.port ++ leBytes 2 n.queue ++ leBytes 2 n.spilled ++
  zeros 2 ++ leBytes 8 n.postmark ++ zeros 240

/-! ### Loss of a host (R345, R374) -/

/-- A device address in a host's aperture half. -/
def inHalf (h a : Nat) : Bool := decide (hostBase + h * 2 ^ 39 ≤ a) && decide (a < hostBase + (h + 1) * 2 ^ 39)

/-- The pieces on their way to or from a host's memory. -/
def hostPieces (s : State) (h : Nat) : List (Nat × Nat) :=
  (s.xfers.map (fun e => (openPieces e.2).filterMap (fun p => match e.2.pieces[p]? with
    | some q => if q.state = .sent ∧ inHalf h q.daddr then some (e.1, p) else none
    | none => none))).flatten

/-- Queues that a host's loss stops: its own but for the ring-fed (R405). -/
def lossQueues (s : State) (h : Nat) : List Nat :=
  let x := getHost s h
  ((List.range x.queueCount).map (· + x.queueFirst)).filter (fun q => !(getQ s q).ringFed)

/-- The receipts a queue holds for its host. -/
def receiptsHeld (x : QueueState) : Nat := x.due.length + x.spill.length + b2n x.inFlight.isSome + b2n x.heldBack.isSome

/-- A queue of a lost host (R374). -/
def loseQueue (x : QueueState) : QueueState :=
  { x with enable := false, sqTail := 0, sqHead := 0, rqTail := 0, rqHead := 0, sqRing := 0, rqRing := 0, staged := [], mailed := [], due := [],
           inFlight := none, spill := [], spillFirst := 0, spillTotal := 0, heldBack := none, spillStop := false,
           openCount := x.openCount - receiptsHeld x }

/-- Whether a network packet is a write to a host's memory. -/
def packetWrites (s : State) (h : Nat) (k : Packet) : Bool :=
  decide (k.kind = .request) && (match getPiece s k.xfer k.piece with | some (v, q) => decide (v.kind = .write) && inHalf h q.daddr | none => false)

/-- The loss of a host: its queues, writes, transfers, invocations, mailboxes and vectors. -/
def loseHost (h : Nat) (s : State) : State :=
  let x := getHost s h
  if x.cond ≠ .linked ∧ x.cond ≠ .registered then s
  else
    let qs := lossQueues s h
    let pieces := hostPieces s h
    let hit := (pieces.filterMap (fun e => (getXfer s e.1).map (·.inv))) ++
      (s.qs.invs.filter (fun e => qs.contains e.2.queue)).map (·.1)
    let writes := (s.host.ports.map (fun e => (e.2.held.filter (fun w => w.host == h)).length)).foldl (· + ·) 0 +
      (s.net.filter (packetWrites s h)).length
    let receipts := (qs.map (fun q => receiptsHeld (getQ s q))).foldl (· + ·) 0
    let gone := fun (l : List HostWrite) => l.filter (fun w => w.host != h)
    let s := { s with
      net := s.net.filter (fun k => !pieces.contains (k.xfer, k.piece)),
      host := { s.host with
        ports := s.host.ports.map (fun e => (e.1,
          { e.2 with held := gone e.2.held, unflushed := gone e.2.unflushed, reads := e.2.reads.filter (fun r => r.host != h),
                     flushes := if e.2.host = some h then [] else e.2.flushes })),
        busy := s.host.busy.filter (fun e => mbOwner s e.1 != h), full := s.host.full.filter (fun k => mbOwner s k != h),
        notices := tabDel s.host.notices h,
        vectors := s.host.vectors.map (fun e => (e.1, if e.2.enable && e.2.owner == h then { e.2 with enable := false, pending := false } else e.2)) } }
    let s := setHost s h { x with cond := .lost, lostSince := none, lossPort := (portsOf s h).headD 0, discarded := some (writes, receipts) }
    let s := forEach pieces (fun e t => endPiece e.1 e.2 t) s
    let s := forEach qs (fun q t => updQ t q loseQueue) s
    let s := forEach hit (fun i t => endEarly i .hostLost 0 t) s
    settleLoss h s

/-! ### The link layer (R330-R332) -/

/-- A retrain starts: counted and logged. -/
def startRetrain (p : Nat) (full : Bool) (s : State) : State :=
  logEvent .gkRetrain (islOfGk p) (leBytes 1 p)
    (updGk s p (fun k => { k with link := .retraining, full := full, retrains := k.retrains + 1 }))

/-- A port goes down (R331, R345). -/
def portDown (p : Nat) (s : State) : State :=
  let s := portNotice p (logEvent .gkLinkDown (islOfGk p) (leBytes 1 p) s)
  let s := updGk s p (fun k => { k with link := .down, lanes := 0 })
  match (getGk s p).host with
  | none => s
  | some h =>
    match (portsOf s h).filter (fun q => decide ((getGk s q).link ≠ .down)) with
    | q :: _ => movePort p q s
    | [] =>
      if (getHost s h).released ∧ (getHost s h).cond = .linked then
        let s := forEach (portsOf s h) (fun q t => updGk t q (fun k => { k with host := none })) s
        let s := { s with pm := { s.pm with contexts := s.pm.contexts.filter (fun e => e.2 != h) } }
        settleRelease h (updHost s h (fun x => { x with cond := .absent, identity := none }))
      else updHost s h (fun x => { x with lostSince := if x.cond = .linked ∨ x.cond = .registered then some s.devTime else none })

/-- The number that a host identity has, or takes when it is first linked (R332). -/
def hostNumber (s : State) (id : Dword) : Option Nat :=
  match [0, 1].find? (fun h => decide ((getHost s h).cond ≠ .absent) && decide ((getHost s h).identity = some id)) with
  | some h => some h
  | none => [0, 1].find? (fun h => decide ((getHost s h).cond = .absent))

/-- A port comes up and its adapter reports a host identity. -/
def linkUp (p : Nat) (id : Dword) (lanes : Nat) (s : State) : State :=
  let k := getGk s p
  if k.link = .up ∨ k.link = .retraining ∨ (getIsl s (islOfGk p)).power ≠ 2 ∨ s.power.reset.isSome ∨ s.power.supplyReset then s
  else
    let h := hostNumber s id
    let s := setGk s p { k with link := .up, lanes := lanes, host := h, identity := id }
    match h with
    | none => s
    | some h =>
      let s := updHost s h (fun x => { x with cond := if x.cond = .absent then .linked else x.cond, identity := some id, lostSince := none })
      let s := forEach ((portsOf s h).filter (fun q => decide (q ≠ p) && decide ((getGk s q).link = .down))) (fun q t => movePort q p t) s
      portNotice p (releaseHeld p s)

/-- A replay: counted (R330); the seventeenth within 1 ms starts a retrain (R331). -/
def replay (p : Nat) (s : State) : State :=
  let k := getGk s p
  if k.link ≠ .up then s
  else
    let times := (k.replayTimes.filter (fun t => decide (s.devTime < t + 1000000))) ++ [s.devTime]
    let s := setGk s p { k with replays := k.replays + 1, replayTimes := times }
    if 16 < times.length then startRetrain p false s else s

/-- A retrain ends (R331). -/
def retrainDone (p : Nat) (r : RetrainResult) (s : State) : State :=
  let k := getGk s p
  if k.link ≠ .retraining then s
  else
    match r, k.full with
    | .failed, false => startRetrain p true s
    | .failed, true => portDown p s
    | .half4, true =>
      let s := logEvent .gkLinkDegraded (islOfGk p) (leBytes 1 p ++ leBytes 1 4) (setGk s p { k with link := .up, lanes := 4 })
      releaseHeld p (if k.lanes = 4 then s else portNotice p s)
    | .full8, true =>
      let s := setGk s p { k with link := .up, lanes := 8 }
      releaseHeld p (if k.lanes = 8 then s else portNotice p s)
    | _, false => releaseHeld p (setGk s p { k with link := .up })

/-- `GK_LINK_CTRL` with `RETRAIN` (R331). -/
def ctrlRetrain (p : Nat) (full : Bool) (s : State) : State :=
  if (getGk s p).link = .up then startRetrain p full s else s

/-! ### Host commands (R333, R343) -/

def cmdRefused (who : Agent) (h cmd : Nat) (s : State) : State := logEvent .hostCmdRefused (agentIsland who) (leBytes 1 h ++ leBytes 1 cmd) s

/-- The claims of two hosts do not meet, and the range exists. -/
def claimOk (s : State) (h q n : Nat) : Bool :=
  let y := getHost s (1 - h)
  decide (0 < n) && decide (q + n ≤ 1024) && !overlaps q n y.queueFirst y.queueCount

/-- REGISTER. -/
def registerHost (who : Agent) (q n : Nat) (s : State) : State :=
  match agentHost s who with
  | none => s
  | some h =>
    let x := getHost s h
    if claimOk s h q n ∧ (x.cond = .linked ∨ x.cond = .lost) then
      setHost s h { x with cond := .registered, queueFirst := q, queueCount := n, released := false }
    else cmdRefused who h 1 s

/-- RELEASE. -/
def releaseHost (who : Agent) (s : State) : State :=
  match agentHost s who with
  | none => s
  | some h =>
    if (getHost s h).cond = .registered then settleRelease h (updHost s h (fun x => { x with cond := .linked, released := true }))
    else cmdRefused who h 2 s

/-! ### Receipts (R342, R360-R362) -/

/-- The status codes of R361. -/
def statusCode : Status → Nat
  | .ok => 0x00 | .okPoisoned => 0x01 | .okReplayed => 0x02 | .aborted => 0x10 | .late => 0x11 | .hostLost => 0x12
  | .segmentFault => 0x13 | .sizeFault => 0x14 | .versionRetired => 0x15 | .preemptResumed => 0x20

/-- A receipt's 32 bytes at ring index j of a ring of D slots (R360). -/
def receiptBytes (r : Receipt) (j d : Nat) : List Byte :=
  leBytes 1 (statusCode r.status) ++ leBytes 1 ((j / d + 1) % 2 + 2 * b2n r.mailbox) ++ leBytes 1 r.fault ++ leBytes 1 r.fpFlags ++
  leBytes 1 r.replays ++ leBytes 1 r.switches ++ leBytes 2 r.queue ++ leBytes 8 r.invocation ++ leBytes 8 r.postmark ++
  leBytes 4 r.poisoned ++ leBytes 4 r.sqIndex

/-- A receipt raises its queue's vector (R362). -/
def receiptRaises (r : Receipt) : Bool := r.notify || (decide (0x10 ≤ statusCode r.status) && decide (statusCode r.status ≤ 0x1F))

/-- The ring index of the next receipt that has no index yet, the spilled ones before it. -/
def nextIndex (x : QueueState) : Nat := (x.rqTail + x.spill.length + b2n x.heldBack.isSome) % 2 ^ 32

/-- Where receipt j of a queue is written: its host and adapter address. -/
def receiptPlace (s : State) (q j : Nat) : Nat × Nat :=
  let a := (getQ s q).rqRing + 32 * (j % queueDepth s q)
  ((a - hostBase) / 2 ^ 39, (a - hostBase) % 2 ^ 39)

/-- Whether the spill area stops a queue (R342); the stop is logged when it begins. -/
def refreshStop (q : Nat) (s : State) : State :=
  let x := getQ s q
  let stop := x.heldBack.isSome || (decide (s.host.spillBase ≠ 0) && decide (256 ≤ x.openCount))
  let s := if stop && !x.spillStop then logEvent .queueSpillStop (queueIsland s q) (leBytes 2 q) s else s
  updQ s q (fun x => { x with spillStop := stop })

/-- A place of a queue's spill area (R342). -/
def spillAddr (s : State) (q k : Nat) : Nat := s.host.spillBase + q * 8192 + 32 * (k % 256)

/-- A receipt goes to the spill area, or is held where there is none. -/
def spillReceipt (q : Nat) (r : Receipt) (s : State) : State :=
  let x := getQ s q
  if s.host.spillBase = 0 then refreshStop q (setQ s q { x with heldBack := some r })
  else
    let n := x.spill.length
    let s := hbmWrite s none (spillAddr s q (x.spillFirst + n)) (clean (receiptBytes r (nextIndex x) (queueDepth s q))) []
    let s := setQ s q { x with spill := x.spill ++ [receiptRaises r], spillTotal := x.spillTotal + 1 }
    let s := refreshStop q s
    if x.spillTotal % 64 ≠ 0 then s
    else
      let s := logEvent .receiptSpilled (queueIsland s q) (leBytes 2 q ++ leBytes 2 (n + 1)) s
      match queueHost s q with
      | some h => addNotice h { kind := .spill, port := 0, queue := q, spilled := n + 1, postmark := s.devTime } s
      | none => s

/-- A receipt has reached the ring: `RQ_TAIL` advances and the vector follows (R362). -/
def receiptArrived (q : Nat) (port : Option Nat) (raises : Bool) (s : State) : State :=
  let s := updQ s q (fun x => { x with rqTail := (x.rqTail + 1) % 2 ^ 32, openCount := x.openCount - 1 })
  let s := if raises then raiseVectorOn port (getQ s q).vector s else s
  settleHosts (refreshStop q s)

/-- Write one receipt's bytes to the ring at index j. -/
def writeRing (q j inv : Nat) (bytes : List Byte) (s : State) : State :=
  let (h, a) := receiptPlace s q j
  sendWrite { host := h, addr := a, bytes := bytes, marks := 0, for_ := .receipt q, invocation := inv, trans := none, seq := 0 } s

/-- Drain one spilled receipt to the ring. -/
def drainOne (q : Nat) (s : State) : State :=
  let x := getQ s q
  let j := x.rqTail
  let port := let (h, a) := receiptPlace s q j; portFor s h a
  match x.heldBack, x.spill with
  | some r, _ =>
    receiptArrived q port (receiptRaises r) (updQ (writeRing q j r.invocation (receiptBytes r j (queueDepth s q)) s) q
      (fun x => { x with heldBack := none }))
  | none, v :: t =>
    let (d, s) := hbmRead s none (spillAddr s q x.spillFirst) 32 []
    receiptArrived q port v (updQ (writeRing q j 0 (d.map (·.1)) s) q
      (fun x => { x with spill := t, spillFirst := if t = [] then 0 else (x.spillFirst + 1) % 256, spillTotal := if t = [] then 0 else x.spillTotal }))
  | none, [] => s

/-- DRAIN (R343): the receipts before the one refused again are written, in order, and a DRAINED notice follows. -/
def drainHost (who : Agent) (q : Nat) (refusedAt : Option (Fin 256)) (s : State) : State :=
  match agentHost s who with
  | none => s
  | some h =>
    if (getHost s h).cond ≠ .registered then cmdRefused who h 3 s
    else if !claims s h q then s
    else
      let x := getQ s q
      let n := x.spill.length + b2n x.heldBack.isSome
      let k := match refusedAt with | some r => min r.val n | none => n
      let s := iter k (fun _ t => drainOne q t) s
      addNotice h { kind := .drained, port := 0, queue := q, spilled := (getQ s q).spill.length, postmark := s.devTime } s

/-! ### Refused accesses (R341, R342) -/

/-- Take a piece out of the network and of the ports. -/
def withdrawPiece (x p : Nat) (s : State) : State :=
  let keepW := fun (w : HostWrite) => decide (w.for_ ≠ .piece x p)
  { s with net := s.net.filter (fun k => !(k.xfer == x && k.piece == p)),
           host := { s.host with ports := s.host.ports.map (fun e => (e.1,
             { e.2 with held := e.2.held.filter keepW, reads := e.2.reads.filter (fun r => !(r.xfer == x && r.piece == p)) })) } }

/-- A piece that has been sent to host memory. -/
def sentToHost (s : State) (x p : Nat) : Option (Xfer × Piece) :=
  match getPiece s x p with
  | some (v, q) => if q.state = .sent ∧ hostBase ≤ q.daddr ∧ q.daddr < hostTop then some (v, q) else none
  | none => none

/-- The adapter refuses an access. -/
def accessRefused (t : RefusedAccess) (s : State) : State :=
  match t with
  | .piece x p =>
    match sentToHost s x p with
    | none => s
    | some (v, q) =>
      let s := logEvent .hostAccessRefused (engineIsland s v.engine) (leBytes 8 q.daddr ++ leBytes 8 v.inv) s
      let s := endPiece x p (withdrawPiece x p s)
      let s := match getXfer s x with | some w => setXfer s x { w with failed := true } | none => s
      updInv s v.inv (fun i => { i with refused := true })
  | .receipt q =>
    match (getQ s q.val).inFlight with
    | none => s
    | some (r, _) => spillReceipt q.val r (updQ s q.val (fun x => { x with inFlight := none }))

/-- `GK_SPILL_BASE` is written (R344). -/
def writeSpillBase (who : Agent) (v : Nat) (s : State) : State :=
  let b := v % 2 ^ 48
  let inService := (List.range 12).all (fun k => !overlaps b 0x800000 (k * stackSize) stackSize || !stackOffline s k)
  let clear : Bool := match s.blend.reserve with | some k => !overlaps b 0x800000 (k * stackSize + 0x5FE000000) 0x2000000 | none => true
  let ok := b == 0 || (b % 4096 == 0 && decide (b + 0x800000 ≤ hbmTop) && inService && clear)
  if ok ∧ [0, 1].all (fun h => decide ((getHost s h).cond ≠ .registered)) then { s with host := { s.host with spillBase := b } }
  else logEvent .spillBaseRefused (agentIsland who) (leBytes 8 v) s

/-! ### Mailboxes (R346, R347) -/

/-- A control-window access that the Carrier may not make (R411). -/
def carrierDenied (die : Nat) (offset : Nat) (s : State) : State := logEvent .carrierAccessDenied (islIx die 125) (leBytes 8 offset) s

/-- A mailbox stays busy until the Carrier runs. -/
def busyUntilCarrier : Nat := 2 ^ 64

def mbBusy (s : State) (k : Nat) : Bool := decide (s.devTime < tabGet 0 s.host.busy k)

/-- The 256 bytes of a host-to-module mailbox. -/
def mbBytes (s : State) (k : Nat) : List Byte := (List.range 256).map (fun i => tabGet 0 s.host.h2m (256 * k + i))

/-- A mailbox is busy while the module copies it: at most 1 µs. -/
def holdMailbox (k : Nat) (s : State) : State :=
  let (n, s) := drawFree s
  { s with host := { s.host with busy := tabSet 0 s.host.busy k (s.devTime + Config.freeCount n % 1001) } }

/-- What a write of `MB_RING` meets first: its owner, its mode, a busy mailbox. -/
def ringMailbox (mode : Bool) (who : Agent) (k : Nat) (act : Nat → State → State) (s : State) : State :=
  if (getMbCtrl s k).mode ≠ mode then s
  else
    match who, agentHost s who with
    | .carrier d, _ => carrierDenied d.val 0x48000 s
    | .host _, none => s
    | .host _, some h =>
      if mbOwner s k ≠ h then s
      else if mbBusy s k then logEvent .mailboxOverrun (agentIsland who) (leBytes 1 k) s
      else act h s

/-- Mode 0: the message goes to the Carrier, at once or when it runs again (R465). -/
def toCarrier (k : Nat) (s : State) : State :=
  if s.pm.carrierRuns then
    holdMailbox k { s with host := { s.host with toCarrier := s.host.toCarrier ++ [(k, mbBytes s k)] } }
  else { s with host := { s.host with busy := tabSet 0 s.host.busy k busyUntilCarrier } }

/-- The Carrier runs again: the mailboxes that waited are handed over. -/
def carrierTakesMail (s : State) : State :=
  forEach ((List.range 64).filter (fun k => tabGet 0 s.host.busy k == busyUntilCarrier)) (fun k t =>
    { t with host := { t.host with toCarrier := t.host.toCarrier ++ [(k, mbBytes t k)], busy := tabDel t.host.busy k } }) s

/-- Mode 1: an envelope for the mailbox's queue. -/
def submitMail (who : Agent) (k h : Nat) (enclosure : List Byte) (refused : Bool) (s : State) : State :=
  let q := (getMbCtrl s k).queue
  if !claims s h q then logEvent .mailboxOverrun (agentIsland who) (leBytes 1 k) s
  else
    let b := mbBytes s k
    let inline_ := bitOf (fieldAt b 1 1) 0
    let e := readEnvelope s q (b.take 64) (if inline_ then b.drop 64 else enclosure) (refused && !inline_) .mailbox 0 s.devTime
    holdMailbox k (updQ s q (fun x => { x with mailed := x.mailed ++ [e] }))

/-- A message is written to a free module-to-host mailbox. -/
def putMessage (k : Nat) (b : List Byte) (s : State) : State :=
  let s := { s with host := { s.host with
    m2h := (List.range 256).foldl (fun t i => tabSet 0 t (256 * k + i) (b.getD i 0)) s.host.m2h, full := setIns s.host.full k } }
  raiseVector (getMbCtrl s k).vector s

/-- The next message of a mailbox: the Carrier's, or the next notice of its host. -/
def sendMessage (k : Nat) (m : Option (List Byte)) (s : State) : State :=
  let h := mbOwner s k
  if setHas s.host.full k ∨ upPorts s h = [] ∨ ((getHost s h).cond ≠ .linked ∧ (getHost s h).cond ≠ .registered) then s
  else
    match m, tabGet [] s.host.notices h with
    | some b, _ => if k = noticeMailbox s h ∨ !s.pm.carrierRuns then s else putMessage k b s
    | none, n :: t =>
      if k = noticeMailbox s h then putMessage k (noticeBytes n) { s with host := { s.host with notices := tabSet [] s.host.notices h t } } else s
    | none, [] => s

/-- A host releases a mailbox. -/
def releaseFull (who : Agent) (k : Nat) (s : State) : State :=
  match who, agentHost s who with
  | .carrier d, _ => carrierDenied d.val 0x48010 s
  | .host _, some h => if mbOwner s k = h then { s with host := { s.host with full := setDel s.host.full k } } else s
  | .host _, none => s

/-! ### Vectors (R348, R349) -/

def getVec (s : State) (v : Nat) : VectorState := tabGet vectorReset s.host.vectors v
def setVec (s : State) (v : Nat) (x : VectorState) : State := { s with host := { s.host with vectors := tabSet vectorReset s.host.vectors v x } }

/-- The holdoff of a vector has run out. -/
def holdoffOver (s : State) (x : VectorState) : Bool :=
  match x.lastSent with | some t => decide (t + 1000 * x.holdoffUs ≤ s.devTime) | none => true

/-- The port by which a vector message leaves: that of the write that it signals, else one that is up. -/
def vectorPort (s : State) (h : Nat) (p : Option Nat) : Option Nat :=
  match p with
  | some q => if (upPorts s h).contains q then some q else (upPorts s h).head?
  | none => (upPorts s h).head?

/-- Send a vector's message to its owner's adapter. -/
def sendVector (v p : Nat) (s : State) : State :=
  let x := getVec s v
  let s := setVec s v { x with pending := false, lastSent := some s.devTime }
  { s with host := { s.host with sent := s.host.sent ++ [{ vector := v, host := x.owner, port := p, at_ := s.devTime }] } }

/-- Send what pends, if the mask and the holdoff let it. -/
def sendPending (v : Nat) (s : State) : State :=
  let x := getVec s v
  match vectorPort s x.owner none with
  | some p => if x.enable ∧ x.pending ∧ !x.mask ∧ holdoffOver s x then sendVector v p s else s
  | none => s

/-- Take the oldest raise of a vector. -/
def takeRaise (v : Nat) : List (Nat × Option Nat) → Option (Option Nat × List (Nat × Option Nat))
  | [] => none
  | e :: t => if e.1 = v then some (e.2, t) else (takeRaise v t).map (fun r => (r.1, e :: r.2))

/-- A raised vector is acted on. -/
def actRaise (v : Nat) (s : State) : State :=
  match takeRaise v s.host.raised with
  | none => s
  | some (p, rest) =>
    let x := getVec s v
    let s' := { s with host := { s.host with raised := rest } }
    if !x.enable then s'
    else if x.mask ∨ !holdoffOver s x ∨ x.pending then setVec s' v { x with pending := true }
    else match vectorPort s x.owner p with
      | some p => sendVector v p s'
      | none => s

/-- `IV_CTRL` is written. -/
def writeIvCtrl (who : Agent) (v w : Nat) (s : State) : State :=
  match who, agentHost s who with
  | .carrier d, _ => carrierDenied d.val (0x60000 + 8 * v) s
  | .host _, none => s
  | .host _, some h =>
    let x := getVec s v
    if x.enable ∧ x.owner ≠ h then s
    else
      let en := bitOf w 31
      sendPending v (setVec s v { x with enable := en, mask := bitOf w 30, holdoffUs := bitsOf w 25 16,
                                         owner := if en then h else x.owner, pending := x.pending && en })

/-! ### The rows -/

/-- `GK_LINK_UP` (R332). -/
def execGkLinkUp (port : Fin 2) (identity : Dword) (lanes4 : Bool) (s : State) : Out State :=
  .next (linkUp port.val identity (if lanes4 then 4 else 8) s)
/-- `GK_REPLAY` (R330). -/
def execGkReplay (port : Fin 2) (s : State) : Out State := .next (replay port.val s)
/-- `GK_RETRAIN` (R331). -/
def execGkRetrain (port : Fin 2) (s : State) : Out State := .next (ctrlRetrain port.val false s)
/-- `GK_RETRAIN_DONE` (R331). -/
def execGkRetrainDone (port : Fin 2) (result : RetrainResult) (s : State) : Out State := .next (retrainDone port.val result s)
/-- `GK_LINK_CTRL_RETRAIN` (R331). -/
def execGkLinkCtrlRetrain (who : Agent) (port : Fin 2) (s : State) : Out State := .next (whenReached who (ctrlRetrain port.val false) s)
/-- `GK_LINK_CTRL_FULL` (R331). -/
def execGkLinkCtrlFull (who : Agent) (port : Fin 2) (s : State) : Out State := .next (whenReached who (ctrlRetrain port.val true) s)
/-- `HOST_LOST_TIMEOUT` (R345). -/
def execHostLostTimeout (host : Fin 2) (s : State) : Out State :=
  .next (match (getHost s host.val).lostSince with
    | some t => if t + 100000000 ≤ s.devTime then loseHost host.val s else s
    | none => s)
/-- `HOST_RESET` (R345). -/
def execHostReset (port : Fin 2) (s : State) : Out State :=
  .next (match (getGk s port.val).link, (getGk s port.val).host with
    | .up, some h => forEach (portsOf s h) (fun q t => updGk t q (fun k => { k with link := .hostReset, lanes := 0, host := none })) (loseHost h s)
    | _, _ => s)
/-- `HOST_REGISTER` (R333). -/
def execHostRegister (who : Agent) (queue : Fin 1024) (count : Fin 2048) (s : State) : Out State :=
  .next (registerHost who queue.val count.val s)
/-- `HOST_RELEASE` (R333). -/
def execHostRelease (who : Agent) (s : State) : Out State := .next (releaseHost who s)
/-- `HOST_DRAIN` (R343). -/
def execHostDrain (who : Agent) (queue : Fin 1024) (refusedAt : Option (Fin 256)) (s : State) : Out State :=
  .next (drainHost who queue.val refusedAt s)
/-- `HOST_ACCESS_REFUSED` (R341). -/
def execHostAccessRefused (target : RefusedAccess) (s : State) : Out State := .next (accessRefused target s)
/-- `FLUSH_READ_RETURN` (R337). -/
def execFlushReadReturn (port : Fin 2) (s : State) : Out State := .next (flushReturn port.val s)
/-- `GK_SPILL_BASE_WRITE` (R344). -/
def execGkSpillBaseWrite (who : Agent) (value : Dword) (s : State) : Out State := .next (whenReached who (writeSpillBase who value.toNat) s)
/-- `MAILBOX_TO_CARRIER` (R346). -/
def execMailboxToCarrier (who : Agent) (mailbox : Fin 64) (s : State) : Out State :=
  .next (ringMailbox false who mailbox.val (fun _ t => toCarrier mailbox.val t) s)
/-- `MAILBOX_SUBMIT` (R346). -/
def execMailboxSubmit (who : Agent) (mailbox : Fin 64) (enclosure : List Byte) (refused : Bool) (s : State) : Out State :=
  .next (ringMailbox true who mailbox.val (fun h t => submitMail who mailbox.val h enclosure refused t) s)
/-- `M2H_MESSAGE` (R347). -/
def execM2hMessage (mailbox : Fin 64) (message : Option (List Byte)) (s : State) : Out State :=
  .next (sendMessage mailbox.val message s)
/-- `MB_M2H_FULL_RELEASE` (R347). -/
def execMbM2hFullRelease (who : Agent) (mailbox : Fin 64) (s : State) : Out State := .next (releaseFull who mailbox.val s)
/-- `VECTOR_RAISE` (R349). -/
def execVectorRaise (vector : Fin 1024) (s : State) : Out State := .next (actRaise vector.val s)
/-- `VECTOR_HOLDOFF_END` (R349). -/
def execVectorHoldoffEnd (vector : Fin 1024) (s : State) : Out State := .next (sendPending vector.val s)
/-- `IV_CTRL_WRITE` (R348, R349). -/
def execIvCtrlWrite (who : Agent) (vector : Fin 1024) (value : Word) (s : State) : Out State :=
  .next (writeIvCtrl who vector.val value.toNat s)
/-- `GK_WAKE` (R469): a port that sleeps in PARKED comes up with its host and width. -/
def execGkWake (port : Fin 2) (s : State) : Out State :=
  .next (if s.mode = .parked ∧ (getIsl s (islOfGk port.val)).power = 0 then
      updGk (updIsl s (islOfGk port.val) (fun i => { i with power := 2 })) port.val (fun k =>
        if k.lanes = 0 then k else { k with link := .up })
    else s)

end Sys2Proof.Machine
end

