-- ==== Sys2Proof/Machine/Pm.lean ====
section
/-! DEFINITION. Postmaster calls: slots, the order of checks, results (R413-R419), and the ranges that the Postmaster protects (R421). -/

namespace Sys2Proof.Machine

/-! ### Slots (R413) -/

def getSlot (s : State) (k : Nat) : CallSlot := tabGet callSlotReset s.pm.slots k
def setSlot (s : State) (k : Nat) (x : CallSlot) : State := { s with pm := { s.pm with slots := tabSet callSlotReset s.pm.slots k x } }
def updSlot (s : State) (k : Nat) (f : CallSlot → CallSlot) : State := setSlot s k (f (getSlot s k))

/-- The host that owns a slot below 8 (R413). -/
def slotHost (s : State) (k : Nat) : Nat := if joined s ∨ k < 4 then 0 else 1

/-- An agent owns a slot. -/
def ownsSlot (s : State) (who : Agent) (k : Nat) : Bool :=
  match who with
  | .carrier _ => s.pm.carrierRuns && decide (8 ≤ k)
  | .host _ => decide (k < 8) && agentHost s who == some (slotHost s k)

/-- The control-window offset of a slot. -/
def slotOffset (k : Nat) : Nat := 0x11000 + 0x1000 * k

/-- The little-endian argument of n bytes at an argument offset, and argument bytes as they lie. -/
def argBytes (x : CallSlot) (off n : Nat) : List Byte := (List.range n).map (fun i => tabGet 0 x.args (off + i))
def argAt (x : CallSlot) (off n : Nat) : Nat := leNat (argBytes x off n)

/-! ### Results (R418) -/

def pmOk : Nat := 0x00
def pmBadFunc : Nat := 0x40
def pmNotPermitted : Nat := 0x41
def pmWrongState : Nat := 0x42
def pmBadArg : Nat := 0x43
def pmProtected : Nat := 0x46
def pmBusy : Nat := 0x4A
def pmSignature : Nat := 0x4B
def pmOwner : Nat := 0x4C
def pmUnwrap : Nat := 0x4D
def pmFull : Nat := 0x4E
def pmHostFetch : Nat := 0x4F

/-- A call ends: reply, result, `STATE` 2, and the vector that `NOTIFY` asked for (R414). A call whose caller was restarted loses its reply
(R465). -/
def finishCall (k result : Nat) (reply : List Byte) (s : State) : State :=
  let x := getSlot s k
  if x.state ≠ 1 then s
  else
    let put := fun (t : Tab Byte) => ((List.range reply.length).zip reply).foldl (fun t e => tabSet 0 t e.1 e.2) t
    let y := { x with state := 2, due := none, waits := [], discard := false }
    let s := setSlot s k (if x.discard then y else { y with result := BitVec.ofNat 64 result, reply := put x.reply })
    if x.notify ∧ k < 8 then raiseVector x.vector s else s

/-- How a call's own work leaves it. -/
inductive CallEnd where
  /-- Finished at once. -/
  | now (result : Nat) (reply : List Byte)
  /-- It runs on. -/
  | later
deriving DecidableEq, Repr

/-- Which callers and states a call admits, and the argument bytes that R416 names for it: offset and size. -/
structure CallRule where
  func : Nat
  hosts : Bool
  carrier : CallSlot → Bool
  states : List ModState
  named : List (Nat × Nat)
  /-- The codes of a load for a wrong state (R488), in the layout of R64. -/
  load : Bool

/-- A code in the layout of R64, for a failure of no section and no record. -/
def loadCode (code phase : Nat) : Nat := (loadResult (failPlain code) phase).toNat

/-- The checks that every call meets: caller, module state, reserved arguments (R418); 0 where it passes. -/
def callCheck (s : State) (r : CallRule) (caller : Option Nat) (x : CallSlot) : Nat :=
  let callerOk : Bool := match caller with
    | none => r.carrier x
    | some h => r.hosts && (decide ((getHost s h).cond = .linked) || decide ((getHost s h).cond = .registered))
  if !callerOk then pmNotPermitted
  else if !r.states.contains s.mode then (if r.load then 0x21 else pmWrongState)
  else if x.args.any (fun e => !r.named.any (fun n => decide (n.1 ≤ e.1) && decide (e.1 < n.1 + n.2))) then pmBadFunc
  else 0

/-- A write of `PM_CALL` with a call's number (R413, R414): refused to other agents, dropped while the slot runs, else checked and begun. `pick`
says whether the arguments spell this row's operation. -/
def pmCall (r : CallRule) (pick : CallSlot → Bool) (who : Agent) (k : Nat) (notify : Bool) (vec : Nat)
    (body : CallSlot → Option Nat → State → State × CallEnd) (s : State) : State :=
  let x := getSlot s k
  if !pick x then s
  else if !ownsSlot s who k then
    match who with
    | .carrier d => if s.pm.carrierRuns then carrierDenied d.val (slotOffset k) s else s
    | .host _ => s
  else if x.state = 1 then logEvent .pmCallDropped (agentIsland who) (leBytes 1 k ++ leBytes 2 r.func) s
  else
    let caller := agentHost s who
    let x := { x with state := 1, notify := notify, vector := vec, func := r.func, caller := caller, due := none, waits := [], discard := false }
    let s := setSlot s k x
    let code := callCheck s r caller x
    if code ≠ 0 then finishCall k (if r.load then loadCode code 0 else code) [] s
    else
      match body x caller s with
      | (s, .now res rep) => finishCall k res rep s
      | (s, .later) => s

/-! ### The owner (R423, R428) -/

/-- The owner copy in force: the valid one with the higher sequence. -/
def ownerNow (r : ModRecord) : Option OwnerCopy :=
  match r.ownerA, r.ownerB with
  | some a, some b => if a.seq.toNat < b.seq.toNat then some b else some a
  | some a, none => some a
  | none, b => b

/-- The registered owner-key hash; 0 while no owner is registered. -/
def ownerHash (s : State) : Bits256 := match ownerNow s.pm.record with | some c => c.hash | none => 0

/-- An owner is registered, and a public key hashes to its hash. -/
def ownerMatches (s : State) (key : List Byte) : Bool := ownerHash s != 0 && shake256 key == ownerHash s

/-! ### What callers may name (R420) -/

/-- A context that a host owns. -/
def ownsContext (s : State) (h c : Nat) : Bool := tabFind s.pm.contexts c == some h

/-- A range in a host's half of the aperture (R414). -/
def inOwnHalf (h a n : Nat) : Bool := decide (hostBase + h * 2 ^ 39 ≤ a) && decide (a + n ≤ hostBase + (h + 1) * 2 ^ 39)

/-! ### Protected ranges (R421) -/

/-- The reservation of R38, once chosen. -/
def reservation (s : State) : List (Nat × Nat) :=
  match s.blend.reserve with | some k => [(k * stackSize + 0x5FE000000, 0x2000000)] | none => []

/-- The spill units of a partition, in bytes: the size of a save slot (R370). -/
def slotBytes (s : State) (pid : Nat) : Nat := match getPart s pid with | some p => p.spillUnits * 131072 | none => 0

/-- The save pools, as ranges. -/
def poolRanges (s : State) : List (Nat × Nat) := s.qs.pools.map (fun e => (e.2.base, e.2.slots * slotBytes s e.1))

/-- A table range of a `ROLE` record. -/
def roleRange (r : RoleDef) : List (Nat × Nat) := if r.tableSize = 0 then [] else [(r.tableBase, r.tableSize)]

/-- The table range of a staged image's `ROLE` record. -/
def stagedRole (s : State) : List (Nat × Nat) :=
  match s.blend.staged with
  | none => []
  | some (img, _) => ((recordsOf img 8 0 32).map (fun r => roleRange (parseRole r))).flatten

def carrierRegion (s : State) : List (Nat × Nat) := if s.pm.carrierSize = 0 then [] else [(s.pm.carrierBase, s.pm.carrierSize)]
def spillRange (s : State) : List (Nat × Nat) := if s.host.spillBase = 0 then [] else [(s.host.spillBase, 0x800000)]
def offlineRanges (s : State) : List (Nat × Nat) := ((List.range 12).filter (stackOffline s)).map (fun k => (k * stackSize, stackSize))

/-- Every protected range (R421). -/
def protectedRanges (s : State) : List (Nat × Nat) :=
  reservation s ++ carrierRegion s ++ poolRanges s ++ spillRange s ++ roleRange s.blend.cur.role ++ stagedRole s ++ offlineRanges s

def meetsAny (a n : Nat) (l : List (Nat × Nat)) : Bool := l.any (fun r => overlaps a n r.1 r.2)

/-- A local segment lies over a range of HBM. -/
def segmentOver (s : State) (a n : Nat) : Bool :=
  s.seg.entries.any (fun e => decide (e.2.home = .local) && overlaps a n e.2.dbase e.2.length)

/-- A range lies whole in HBM that is in service. -/
def inService (s : State) (a n : Nat) : Bool := decide (a + n ≤ hbmTop) && !meetsAny a n (offlineRanges s)

end Sys2Proof.Machine
end

