-- ==== Sys2Proof/Machine/Seg.lean ====
section
/-! DEFINITION. Segment calls, withdrawals and their drains, advice, and the fault registers (R311-R328). -/

namespace Sys2Proof.Machine

def setSeg (s : State) (ctx i : Nat) (e : SegEntry) : State :=
  { s with seg := { s.seg with entries := tabSet segEntryReset s.seg.entries (ctx * 64 + i) e } }

/-! ### Descriptors (R311, R312) -/

/-- The 32 bytes of an entry. -/
def segBytes (e : SegEntry) : List Byte :=
  leBytes 8 e.vstart ++ leBytes 8 e.length ++ leBytes 8 e.dbase ++ leBytes 1 (b2n e.read + 2 * b2n e.write + 4 * b2n e.atomic) ++
  leBytes 1 (match e.home with | .empty => 0 | .local => 1 | .host => 2 | .peer => 3) ++
  leBytes 1 (b2n e.hot + 2 * b2n e.readMostly) ++ leBytes 1 0 ++ leBytes 4 e.gen

/-- The entry that a descriptor spells. -/
def parseSeg (b : List Byte) : SegEntry :=
  { segEntryReset with
    vstart := fieldAt b 0 8, length := fieldAt b 8 8, dbase := fieldAt b 0x10 8, read := bitOf (fieldAt b 0x18 1) 0,
    write := bitOf (fieldAt b 0x18 1) 1, atomic := bitOf (fieldAt b 0x18 1) 2,
    home := match fieldAt b 0x19 1 with | 1 => .local | 2 => .host | 3 => .peer | _ => .empty }

/-- The fields of a descriptor are in range (R311). -/
def segArgsOk (b : List Byte) : Bool :=
  let v := fieldAt b 0 8
  let n := fieldAt b 8 8
  let d := fieldAt b 0x10 8
  v % 4096 == 0 && decide (v < 2 ^ 48) && n % 4096 == 0 && decide (4096 ≤ n) && decide (v + n ≤ 2 ^ 48) && d % 4096 == 0 &&
  decide (d < 2 ^ 48) && decide (fieldAt b 0x19 1 ≤ 3) && fieldAt b 0x1C 4 == 0

/-- The reserved fields of a descriptor and its `ADVICE` are 0. -/
def segReservedOk (b : List Byte) : Bool :=
  decide (fieldAt b 0x18 1 < 8) && fieldAt b 0x1A 1 == 0 && fieldAt b 0x1B 1 == 0

/-- The range of R31 that a device range lies wholly inside, as a home (R312, rules 1 and 2). -/
def homeOf (s : State) (a n : Nat) : Option SegHome :=
  if a + n ≤ hbmTop then some .local
  else if scratchBase ≤ a ∧ a + n ≤ scratchTop then
    if (List.range ((a + n - 1) / scratchSize - a / scratchSize + 1)).all (fun k =>
        (physOf s ((a - scratchBase) / scratchSize + k)).isSome) then some .local else none
  else if hostBase ≤ a ∧ a + n ≤ hostTop then some .host
  else if peerBase ≤ a ∧ a + n ≤ peerTop ∧ (a - peerBase) % peerSlot + n ≤ hbmTop then some .peer
  else none

/-- In split mode, what another host's contexts and half keep out (R420). -/
def splitForbids (s : State) (h : Nat) (e : SegEntry) : Bool :=
  splitMode s &&
  ((decide (e.home = .host) && !inOwnHalf h e.dbase e.length) ||
   (decide (e.home = .local) && s.seg.entries.any (fun f => decide (f.2.home = .local) && overlaps e.dbase e.length f.2.dbase f.2.length &&
     (match tabFind s.pm.contexts (f.1 / 64) with | some g => g != h | none => false))))

/-- The HBM address behind a device address: that of this module's own slot of the peer window, else itself (R33). -/
def localBase (s : State) (a : Nat) : Nat :=
  match placeOf a with
  | .peer slot o => if some slot = modPosition s then o else a
  | _ => a

/-- The rules of R312 on a descriptor for an index of a context, in order: 0, or code and failing rule. -/
def checkSeg (s : State) (h ctx i : Nat) (e : SegEntry) (reservedOk : Bool) : Nat × Nat :=
  match homeOf s e.dbase e.length with
  | none => (0x44, 1)
  | some home =>
    if home ≠ e.home then (0x45, 2)
    else if meetsAny e.dbase e.length (protectedRanges s) || meetsAny (localBase s e.dbase) e.length (protectedRanges s) || splitForbids s h e then
      (pmProtected, 3)
    else if (List.range 64).any (fun k => let f := getSeg s ctx k
                                          k != i && decide (f.home ≠ .empty) && overlaps e.vstart e.length f.vstart f.length) then (0x47, 4)
    else if e.atomic && !(decide (home = .peer) || (decide (home = .local) && decide (e.dbase < hbmTop))) then (0x48, 5)
    else if !e.read && !e.write && !e.atomic then (0x48, 6)
    else if !reservedOk then (0x49, 7)
    else (0, 0)

/-! ### Withdrawals (R326, R327) -/

/-- Write a new entry: its generation rises, and a hold on the old one begins. -/
def withdraw (slot ctx i : Nat) (e : SegEntry) (s : State) : State :=
  let old := getSeg s ctx i
  let s := setSeg s ctx i { e with gen := (old.gen + 1) % 2 ^ 32 }
  let w : Withdrawal := { context := ctx, index := i, oldGen := old.gen, wTime := s.devTime, applied := [], acked := [], drained := 0, slot := slot }
  { s with seg := { s.seg with withdrawals := s.seg.withdrawals ++ [w] } }

/-- The withdrawal receipt (R328). -/
def withdrawReceipt (w : Withdrawal) (done : Nat) : List Byte :=
  leBytes 8 w.wTime ++ leBytes 8 done ++ leBytes 4 w.oldGen ++ leBytes 4 (min w.drained 0xFFFFFFFF) ++ leBytes 2 w.context ++
  leBytes 1 w.index ++ zeros 5

/-- Pieces of an engine held under an old translation and not landed. -/
def heldUnder (s : State) (w : Withdrawal) (engine : Nat) : Nat :=
  ((s.xfers.filter (fun e => e.2.engine == engine && e.2.context == w.context)).map (fun e =>
    (e.2.pieces.filter (fun q => decide (q.state = .sent) && decide (q.trans = some (w.index, w.oldGen)))).length)).foldl (· + ·) 0

/-- Host writes of an engine under an old translation that a port has not flushed (R327). -/
def unflushedUnder (w : Withdrawal) (engine : Nat) (k : GkPort) : Nat :=
  (k.unflushed.filter (fun x => decide (x.trans = some (engine, w.context, w.index, w.oldGen)))).length

/-- The engine asks for the flushes that its drain needs. -/
def flushFor (w : Withdrawal) (engine : Nat) (s : State) : State :=
  forEach [0, 1] (fun p t => if unflushedUnder w engine (getGk t p) = 0 then t else askFlush p t) s

def findWithdrawal (s : State) (ctx i : Nat) : Option Withdrawal :=
  s.seg.withdrawals.find? (fun w => w.context == ctx && w.index == i)

def putWithdrawal (s : State) (w : Withdrawal) : State :=
  { s with seg := { s.seg with withdrawals := s.seg.withdrawals.map (fun v => if v.context = w.context ∧ v.index = w.index then w else v) } }

/-- An engine applies an invalidation: it drops its entry and counts what it holds. -/
def applyInvalidate (ctx i engine : Nat) (s : State) : State :=
  match findWithdrawal s ctx i with
  | none => s
  | some w =>
    if setHas w.applied engine then s
    else
      let n := heldUnder s w engine + unflushedUnder w engine (getGk s 0) + unflushedUnder w engine (getGk s 1)
      let cs := (engineCache s engine).filter (fun c => !(c.context == ctx && c.index == i))
      let s := { s with seg := { s.seg with caches := tabSet [] s.seg.caches engine cs } }
      flushFor w engine (putWithdrawal s { w with applied := setIns w.applied engine, drained := w.drained + n })

/-! ### Segment calls (R323-R325) -/

def findCall (s : State) (slot : Nat) : Option SegCall := s.seg.calls.find? (fun c => c.slot == slot)
def putCall (s : State) (c : SegCall) : State :=
  { s with seg := { s.seg with calls := s.seg.calls.map (fun d => if d.slot = c.slot then c else d) } }

/-- A segment call ends and leaves its context's order. -/
def endCall (slot result : Nat) (reply : List Byte) (s : State) : State :=
  finishCall slot result reply { s with seg := { s.seg with calls := s.seg.calls.filter (fun d => d.slot != slot) } }

/-- The most recently advised HOT come first (R316). -/
def noteHot (key : Nat) (hot : Bool) (s : State) : State :=
  let l := s.seg.hotOrder.filter (fun k => k != key)
  { s with seg := { s.seg with hotOrder := if hot then key :: l else l } }

/-- The final entry of an advice (R323). -/
def advisedEntry (e : SegEntry) : SegOp → SegEntry
  | .willNeed d => { e with dbase := d, home := .local }
  | .cold d => { e with dbase := d, home := .host, atomic := false, readMostly := false, hostBase := 0, hostRead := false, hostWrite := false }
  | .readMostly d => { e with dbase := d, home := .local, read := true, write := false, atomic := false, readMostly := true, hostBase := e.dbase,
                              hostRead := e.read, hostWrite := e.write }
  | .revokeRm => { e with dbase := e.hostBase, home := .host, read := e.hostRead, write := e.hostWrite, atomic := false, readMostly := false,
                          hostBase := 0, hostRead := false, hostWrite := false }
  | .hot => { e with hot := true }
  | .normal => { e with hot := false }
  | _ => e

/-- What an advice finds wrong: its object, or its destination (R323). -/
def checkAdvice (s : State) (c : SegCall) (e : SegEntry) : Nat × Nat :=
  let dest := fun (hbm : Bool) (d : Nat) =>
    if hbm && decide (hbmTop < d + e.length) then (0x44, 1)
    else
      let f := advisedEntry e c.op
      checkSeg s c.host c.context c.index f true
  match c.op with
  | .willNeed d => if e.home ≠ .host then (pmWrongState, 0) else dest true d
  | .readMostly d => if e.home ≠ .host then (pmWrongState, 0) else dest true d
  | .cold d => if e.home ≠ .local ∨ hbmTop ≤ e.dbase then (pmWrongState, 0) else dest false d
  | .revokeRm => if !e.readMostly then (pmWrongState, 0) else (0, 0)
  | _ => if e.home = .empty then (pmWrongState, 0) else (0, 0)

/-- Run a call whose turn has come, against the table as the earlier calls have left it. -/
def runCall (c : SegCall) (s : State) : State :=
  let e := getSeg s c.context c.index
  let begin_ := fun (phase : Nat) (f : SegEntry) (t : State) =>
    withdraw c.slot c.context c.index f (putCall t { c with phase := phase, orig := e })
  match c.op with
  | .read => endCall c.slot pmOk (segBytes e) s
  | .write f ok =>
    let (code, rule) := checkSeg s c.host c.context c.index f ok
    if code ≠ 0 then endCall c.slot (code + rule * 2 ^ 32) [] s
    else if e.home = .empty then endCall c.slot pmOk (zeros 32) (setSeg s c.context c.index { f with gen := (e.gen + 1) % 2 ^ 32 })
    else begin_ 3 f s
  | .clear =>
    if e.home = .empty then endCall c.slot pmOk (zeros 32) (setSeg s c.context c.index { segEntryReset with gen := (e.gen + 1) % 2 ^ 32 })
    else begin_ 3 segEntryReset s
  | op =>
    let (code, rule) := checkAdvice s c e
    if code ≠ 0 then endCall c.slot (code + rule * 2 ^ 32) [] s
    else
      let key := c.context * 64 + c.index
      match op with
      | .hot => begin_ 3 (advisedEntry e op) (noteHot key true s)
      | .normal => begin_ 3 (advisedEntry e op) (noteHot key false s)
      | .revokeRm => begin_ 3 (advisedEntry e op) s
      | _ => begin_ 1 { e with write := false, atomic := false } s

/-- Run the calls of a context in order until one has to wait. -/
def runCalls (ctx : Nat) : Nat → State → State
  | 0, s => s
  | n + 1, s =>
    match s.seg.calls.find? (fun c => c.context == ctx) with
    | none => s
    | some c => if c.phase ≠ 0 then s else runCalls ctx n (runCall c s)

def runContext (ctx : Nat) (s : State) : State := runCalls ctx (s.seg.calls.length + 1) s

/-- The last acknowledgement: the withdrawal is over, and its call goes on (R326). -/
def withdrawalDone (w : Withdrawal) (s : State) : State :=
  let s := { s with seg := { s.seg with withdrawals := s.seg.withdrawals.filter (fun v => !(v.context == w.context && v.index == w.index)) } }
  let s := logEvent .segWithdrawDone islTrust
    (leBytes 2 w.context ++ leBytes 1 w.index ++ leBytes 4 w.oldGen ++ leBytes 4 (min w.drained 0xFFFFFFFF)) s
  match findCall s w.slot with
  | none => s
  | some c =>
    if c.phase = 1 then putCall s { c with phase := 2 }
    else runContext w.context (endCall w.slot c.code (withdrawReceipt w s.devTime) s)

/-- An engine acknowledges, once what it held has landed and its host writes are flushed. -/
def ackWithdrawal (ctx i engine : Nat) (s : State) : State :=
  match findWithdrawal s ctx i with
  | none => s
  | some w =>
    if !setHas w.applied engine ∨ setHas w.acked engine ∨ heldUnder s w engine ≠ 0 ∨
        [0, 1].any (fun p => (getGk s p).held.any (fun x => decide (x.trans = some (engine, w.context, w.index, w.oldGen)))) then s
    else if unflushedUnder w engine (getGk s 0) + unflushedUnder w engine (getGk s 1) ≠ 0 then flushFor w engine s
    else
      let w := { w with acked := setIns w.acked engine }
      let s := putWithdrawal s w
      if w.acked.length = 192 then withdrawalDone w s else s

/-- The 4 KiB pieces of a copy to host memory. -/
def copyOut (c : SegCall) (base a n : Nat) (s : State) : State :=
  forEach (splitRange a n) (fun e t =>
    let (d, t) := hbmRead t none e.1 e.2.1 []
    sendWrite { host := (base - hostBase) / 2 ^ 39, addr := (base - hostBase) % 2 ^ 39 + e.2.2, bytes := d.map (·.1), marks := 0,
                for_ := .copyOut c.context c.index, invocation := 0, trans := none, seq := 0 } t) s

/-- An advice's copy ends and the final entry is written (R324). A copy that a host's refusal or loss stops gives the entry back as it was. -/
def copyDone (ctx : Nat) (data : Option (List Byte)) (s : State) : State :=
  match s.seg.calls.find? (fun c => c.context == ctx) with
  | none => s
  | some c =>
    let reach := match data, c.op with
      | some _, .cold _ => rangeFree s c.orig.dbase c.orig.length
      | some _, .willNeed d => rangeFree s d c.orig.length
      | some _, .readMostly d => rangeFree s d c.orig.length
      | _, _ => true
    if c.phase ≠ 2 ∨ !reach then s
    else
      let next := fun (code : Nat) (f : SegEntry) (t : State) => withdraw c.slot ctx c.index f (putCall t { c with phase := 3, code := code })
      match data, c.op with
      | none, _ => next pmHostFetch c.orig s
      | some _, .cold d =>
        let h := (getHost s ((d - hostBase) / 2 ^ 39)).cond
        if h ≠ .linked ∧ h ≠ .registered then next pmHostFetch c.orig s
        else next pmOk (advisedEntry c.orig c.op) (copyOut c d c.orig.dbase c.orig.length s)
      | some b, .willNeed d => next pmOk (advisedEntry c.orig c.op) (hbmWrite s none d (clean (padTo c.orig.length b)) [])
      | some b, .readMostly d => next pmOk (advisedEntry c.orig c.op) (hbmWrite s none d (clean (padTo c.orig.length b)) [])
      | some _, _ => s

/-! ### Accepting a call (R325, R415, R416) -/

def segRule (func : Nat) (carrier : Bool) (named : List (Nat × Nat)) : CallRule :=
  { func := func, hosts := true, carrier := fun _ => carrier, states := [.awaitBlend, .serving], named := named, load := false }

/-- A segment call's context, index and ownership; then it joins its context's calls. -/
def acceptSeg (op : CallSlot → SegOp) (argsOk : CallSlot → Bool) (k : Nat) (x : CallSlot) (caller : Option Nat) (s : State) : State × CallEnd :=
  let ctx := argAt x 0 2
  let i := argAt x 2 1
  if 4096 ≤ ctx ∨ 64 ≤ i ∨ !argsOk x then (s, .now pmBadArg [])
  else
    let own : Bool := match caller with | some h => ownsContext s h ctx | none => true
    if !own then (s, .now pmNotPermitted [])
    else
      let c : SegCall := { slot := k, host := caller.getD 0, context := ctx, index := i, op := op x, phase := 0, orig := segEntryReset, code := pmOk }
      (runContext ctx { s with seg := { s.seg with calls := s.seg.calls ++ [c] } }, .later)

def segCall (func : Nat) (carrier : Bool) (named : List (Nat × Nat)) (pick : CallSlot → Bool) (op : CallSlot → SegOp) (argsOk : CallSlot → Bool)
    (who : Agent) (slot : Fin 12) (notify : Bool) (vector : Fin 1024) (s : State) : State :=
  pmCall (segRule func carrier named) pick who slot.val notify vector.val (acceptSeg op argsOk slot.val) s

/-- An advice: the byte of the operands that names it, and its destination. -/
def adviseCall (pick : Nat → Bool) (op : Nat → SegOp) (destOk : Nat → Bool) (who : Agent) (slot : Fin 12) (notify : Bool) (vector : Fin 1024)
    (s : State) : State :=
  segCall 0x23 false [(0, 4), (8, 8)] (fun x => pick (argAt x 3 1)) (fun x => op (argAt x 8 8))
    (fun x => decide (argAt x 3 1 ≤ 5) && destOk (argAt x 8 8)) who slot notify vector s

/-- A destination base: 4 KiB aligned and 48 bits wide. -/
def destAligned (d : Nat) : Bool := d % 4096 == 0 && decide (d < 2 ^ 48)

/-! ### The fault registers (R321, R322) -/

/-- Fail every record that has reached the limit. -/
def failOld (s : State) (k : Nat) : Bool :=
  match tabFind s.seg.records k with
  | some r => r.resolving.isNone && s.seg.limitUs != 0 && decide (r.postmark + 1000 * s.seg.limitUs ≤ s.devTime)
  | none => false

/-- A record has been pending for the limit (R322). -/
def faultTimeout (k : Nat) (s : State) : State :=
  match tabFind s.seg.records k with
  | none => s
  | some r =>
    if failOld s k then
      failRecord k (logEvent .segmentFaultTimeout islTrust (leBytes 1 k ++ leBytes 2 r.context ++ leBytes 1 (r.segment.getD 0xFF)) s)
    else s

/-- A record that is pending is resolved; a write to a free one, or to one that is resolving already, changes nothing. -/
def resolve (k : Nat) (f : Nat → State → State) (s : State) : State :=
  match tabFind s.seg.records k with
  | some r => if r.resolving.isNone then f k s else s
  | none => s

/-! ### The rows -/

/-- `SEG_WRITE` (R325). -/
def execSegWrite (who : Agent) (slot : Fin 12) (notify : Bool) (vector : Fin 1024) (s : State) : Out State :=
  .next (segCall 0x20 false [(0, 3), (8, 32)] (fun _ => true) (fun x => .write (parseSeg (argBytes x 8 32)) (segReservedOk (argBytes x 8 32)))
    (fun x => segArgsOk (argBytes x 8 32)) who slot notify vector s)
/-- `SEG_CLEAR` (R325). -/
def execSegClear (who : Agent) (slot : Fin 12) (notify : Bool) (vector : Fin 1024) (s : State) : Out State :=
  .next (segCall 0x21 false [(0, 3)] (fun _ => true) (fun _ => .clear) (fun _ => true) who slot notify vector s)
/-- `SEG_READ` (R325). -/
def execSegRead (who : Agent) (slot : Fin 12) (notify : Bool) (vector : Fin 1024) (s : State) : Out State :=
  .next (segCall 0x22 true [(0, 3)] (fun _ => true) (fun _ => .read) (fun _ => true) who slot notify vector s)
/-- `SEG_ADVISE_WILL_NEED` (R323). -/
def execSegAdviseWillNeed (who : Agent) (slot : Fin 12) (notify : Bool) (vector : Fin 1024) (s : State) : Out State :=
  .next (adviseCall (fun a => decide (a = 0 ∨ 5 < a)) .willNeed destAligned who slot notify vector s)
/-- `SEG_ADVISE_COLD` (R323). -/
def execSegAdviseCold (who : Agent) (slot : Fin 12) (notify : Bool) (vector : Fin 1024) (s : State) : Out State :=
  .next (adviseCall (· == 1) .cold destAligned who slot notify vector s)
/-- `SEG_ADVISE_READ_MOSTLY` (R323). -/
def execSegAdviseReadMostly (who : Agent) (slot : Fin 12) (notify : Bool) (vector : Fin 1024) (s : State) : Out State :=
  .next (adviseCall (· == 2) .readMostly destAligned who slot notify vector s)
/-- `SEG_ADVISE_REVOKE_RM` (R323). -/
def execSegAdviseRevokeRm (who : Agent) (slot : Fin 12) (notify : Bool) (vector : Fin 1024) (s : State) : Out State :=
  .next (adviseCall (· == 3) (fun _ => .revokeRm) (· == 0) who slot notify vector s)
/-- `SEG_ADVISE_HOT` (R316). -/
def execSegAdviseHot (who : Agent) (slot : Fin 12) (notify : Bool) (vector : Fin 1024) (s : State) : Out State :=
  .next (adviseCall (· == 4) (fun _ => .hot) (· == 0) who slot notify vector s)
/-- `SEG_ADVISE_NORMAL` (R323). -/
def execSegAdviseNormal (who : Agent) (slot : Fin 12) (notify : Bool) (vector : Fin 1024) (s : State) : Out State :=
  .next (adviseCall (· == 5) (fun _ => .normal) (· == 0) who slot notify vector s)
/-- `SEG_ADVISE_COPY_DONE` (R324). -/
def execSegAdviseCopyDone (context : Fin 4096) (data : Option (List Byte)) (s : State) : Out State := .next (copyDone context.val data s)
/-- `SEG_INVALIDATE_APPLY` (R326). -/
def execSegInvalidateApply (context : Fin 4096) (index : Fin 64) (engine : Fin 192) (s : State) : Out State :=
  .next (applyInvalidate context.val index.val engine.val s)
/-- `SEG_WITHDRAW_ACK` (R326). -/
def execSegWithdrawAck (context : Fin 4096) (index : Fin 64) (engine : Fin 192) (s : State) : Out State :=
  .next (ackWithdrawal context.val index.val engine.val s)
/-- `SEG_MISS_FILL` (R315). -/
def execSegMissFill (engine : Fin 192) (s : State) : Out State :=
  .next (match oldestMiss s engine.val with | some (x, p) => fillMiss x p s | none => s)
/-- `SEG_FAULT_RESOLVE_RETRY` (R321). -/
def execSegFaultResolveRetry (who : Agent) (record : Fin 32) (s : State) : Out State :=
  .next (whenReached who (resolve record.val retryRecord) s)
/-- `SEG_FAULT_RESOLVE_FAIL` (R321). -/
def execSegFaultResolveFail (who : Agent) (record : Fin 32) (s : State) : Out State :=
  .next (whenReached who (resolve record.val failRecord) s)
/-- `SEGMENT_FAULT_TIMEOUT` (R322). -/
def execSegmentFaultTimeout (record : Fin 32) (s : State) : Out State := .next (faultTimeout record.val s)
/-- `SEG_FAULT_CTRL_WRITE` (R322). -/
def execSegFaultCtrlWrite (who : Agent) (value : Word) (s : State) : Out State :=
  .next (whenReached who (fun t => forEach (List.range 32) faultTimeout { t with seg := { t.seg with limitUs := value.toNat % 65536 } }) s)

end Sys2Proof.Machine
end

