-- ==== Sys2Proof/Machine/Courier.lean ====
section
/-! DEFINITION. The Courier ring: ports, switches, routes, flows and retries, remote accesses, groups, steps and ring control (R378-R409). -/

namespace Sys2Proof.Machine

/-! ### Ports and switches (R378-R386, R398) -/

def getCr (s : State) (p : Nat) : CrPort := tabGet crPortReset s.courier.ports p
def setCr (s : State) (p : Nat) (x : CrPort) : State := { s with courier := { s.courier with ports := tabSet crPortReset s.courier.ports p x } }
def updCr (s : State) (p : Nat) (f : CrPort → CrPort) : State := setCr s p (f (getCr s p))
def getSw (s : State) (k : Nat) : CrSwitch := tabGet crSwitchReset s.courier.switches k
def setSw (s : State) (k : Nat) (x : CrSwitch) : State := { s with courier := { s.courier with switches := tabSet crSwitchReset s.courier.switches k x } }

/-- The island of the ring engine. -/
def islRing : Nat := islOfCourier 0

/-- A port carries messages: its link is up and its traffic has not moved. -/
def portCarries (s : State) (p : Nat) : Bool := let x := getCr s p; decide (x.link = .up) && !x.moved

/-! ### Routes (R383) -/

/-- The occupied places in east order, with their positions. -/
def occupied (c : CourierState) : List (Nat × Nat) :=
  ((List.range c.places.length).zip c.places).filterMap (fun e => e.2.map (fun p => (e.1, p)))

/-- Where a position stands among the occupied places. -/
def occOf (c : CourierState) (pos : Nat) : Option Nat := (occupied c).findIdx? (fun e => e.2 == pos)

/-- The links on the way of some hops from one occupied place: place at the west end of each. -/
def wayLinks (occ : List (Nat × Nat)) (own dir hops : Nat) : List Nat :=
  let n := occ.length
  (List.range hops).map (fun j => (occ.getD (if dir = 0 then (own + j) % n else (own + 2 * n - 1 - j) % n) (0, 0)).1)

/-- A ring serves a way: this module's port on it carries, and no link of the way is down. -/
def ringServes (s : State) (way : List Nat) (dir ring : Nat) : Bool :=
  portCarries s (2 * ring + dir) && way.all (fun l => !s.courier.down.contains (l, ring))

/-- The ring that a message takes in a direction: the one whose turn it is, else the other. -/
def pickRing (s : State) (way : List Nat) (dir : Nat) : Option Nat :=
  let first := if dir = 0 then s.courier.altEast else s.courier.altWest
  if ringServes s way dir first then some first else if ringServes s way dir (1 - first) then some (1 - first) else none

/-- The directions to a position, the shorter first, each with the hops; a position that the map does not show is tried both ways. -/
def waysTo (s : State) (dst : Nat) : List (Nat × Nat) :=
  match s.courier.position.bind (occOf s.courier), occOf s.courier dst with
  | some o, some d =>
    let n := (occupied s.courier).length
    let e := (d + n - o) % n
    let w := (o + n - d) % n
    if e ≤ w then [(0, e), (1, w)] else [(1, w), (0, e)]
  | _, _ => [(0, 0), (1, 0)]

/-- The port by which a message leaves. -/
def portTo (s : State) (dst : Nat) (dir : Option Nat) : Option Nat :=
  let occ := occupied s.courier
  let own := (s.courier.position.bind (occOf s.courier)).getD 0
  let ways := match dir with | some d => [(d, 0)] | none => waysTo s dst
  (ways.filterMap (fun w => (pickRing s (wayLinks occ own w.1 w.2) w.1).map (fun r => 2 * r + w.1))).head?

/-- The next message of a port's direction takes the other ring. -/
def turnRing (p : Nat) (c : CourierState) : CourierState :=
  if p % 2 = 0 then { c with altEast := 1 - c.altEast } else { c with altWest := 1 - c.altWest }

/-! ### Sending (R384, R385, R387) -/

/-- Message types. -/
def crRead : Nat := 0x01
def crReadData : Nat := 0x02
def crWrite : Nat := 0x03
def crAtomic : Nat := 0x04
def crAck : Nat := 0x05
def crNack : Nat := 0x06
def crGather : Nat := 0x10
def crStep : Nat := 0x20
def crStepReceipt : Nat := 0x21
def crRouted : Nat := 0x30
def crControl : Nat := 0x40

/-- This module's position in a header. -/
def ownPos (s : State) : Nat := s.courier.position.getD 0xFF

/-- A message leaves by a port. -/
def emitOn (p : Nat) (m : CrMsg) (s : State) : State := { s with courier := { s.courier with sent := s.courier.sent ++ [(p, m)] } }

/-- A message leaves by the current route, if there is one. A worker sends nothing to a manager that is lost (R409); a JOIN may leave before any
link is up, by discovery (R382). -/
def emit (m : CrMsg) (dir : Option Nat) (s : State) : State :=
  if m.up then
    if portCarries s 4 then emitOn 4 m s else if portCarries s 5 then emitOn 5 m s else s
  else if s.courier.managerLost ∧ m.dst = s.courier.managerPos then s
  else
    match portTo s m.dst dir with
    | some p => emitOn p m { s with courier := turnRing p s.courier }
    | none => if m.type = crControl ∧ m.tag % 256 = 1 then emitOn 0 m s else s

def flowPoint (dst cls : Nat) (up : Bool) : Nat := dst * 4 + cls + (if up then 2 ^ 20 else 0)
def flowGroup (group dir dst : Nat) : Nat := 2 ^ 12 + (group * 3 + dir) * 64 + (if dir = 2 then dst else 0)

/-- The retry store has room. -/
def storeRoom (s : State) : Bool := decide (s.courier.store.length < 4096)

/-- Number a message in its flow, keep it for retries, and send it. -/
def sendMsg (flow : Nat) (m : CrMsg) (dir : Option Nat) (waits : List Nat) (piece : Option (Nat × Nat)) (s : State) : State :=
  let q := (tabGet 0 s.courier.out flow + 1) % 2 ^ 32
  let m := { m with seq := q, src := ownPos s }
  let e : CrStored := { msg := m, flow := flow, dir := dir, first := s.devTime, last := s.devTime, waits := waits, piece := piece }
  emit m dir { s with courier := { s.courier with out := tabSet 0 s.courier.out flow q, store := s.courier.store ++ [e] } }

/-- A point message of a type and class to a position. -/
def sendPoint (type cls dst tag : Nat) (payload : PData) (piece : Option (Nat × Nat)) (s : State) : State :=
  sendMsg (flowPoint dst cls false) { type := type, cls := cls, src := 0, dst := dst, seq := 0, tag := tag, payload := payload, up := false } none [dst] piece s

/-- A control message: function, epoch and payload. -/
def sendControl (fn dst : Nat) (payload : List Byte) (s : State) : State :=
  sendPoint crControl 0 dst (fn + s.courier.epoch * 2 ^ 32) (clean payload) none s

/-- An answer that is not itself kept for retries. -/
def answerMsg (type : Nat) (h : CrHead) (tag : Nat) (payload : PData) (s : State) : State :=
  emit { type := type, cls := h.cls.val, src := ownPos s, dst := h.src.val, seq := 0, tag := tag, payload := payload, up := 4 ≤ h.port.val } none s

def ackMsg (h : CrHead) (s : State) : State := answerMsg crAck h h.seq.toNat [] s
def nackMsg (h : CrHead) (reason : Nat) (s : State) : State := answerMsg crNack h (h.seq.toNat + reason * 2 ^ 32) [] s

/-! ### Receiving in order (R387) -/

/-- A message can arrive: its port's link is up and this module has a position. -/
def arrives (s : State) (h : CrHead) : Bool := decide ((getCr s h.port.val).link = .up) && s.courier.position.isSome && decide (s.mode ≠ .off)

def inPoint (h : CrHead) : Nat := h.src.val * 4 + h.cls.val + (if 4 ≤ h.port.val then 2 ^ 20 else 0)
def inGroup (h : CrHead) (group dir : Nat) : Nat := 2 ^ 12 + (h.src.val * 256 + group) * 3 + dir

/-- A message of a flow is turned away, and will be each time it comes. -/
def turnAway (key : Nat) (h : CrHead) (reason : Nat) (s : State) : State :=
  let l := tabGet [] s.courier.turned key ++ [(h.seq.toNat, reason)]
  nackMsg h reason { s with courier := { s.courier with turned := tabSet [] s.courier.turned key (l.drop (l.length - 256)) } }

/-- Answer a message of a flow that has come before: as it was turned away, or as it is acknowledged. -/
def answerAgain (key : Nat) (h : CrHead) (again : State → State) (s : State) : State :=
  match (tabGet [] s.courier.turned key).find? (fun e => e.1 == h.seq.toNat) with
  | some e => nackMsg h e.2 s
  | none => again s

/-- Perform a message in the order of its flow: the next is performed, one that came before is only answered again (R387), in the same way that it
was answered first (log entry 70), and a later one waits. -/
def inFlow (h : CrHead) (key : Nat) (again f : State → State) (s : State) : State :=
  if !arrives s h then s
  else
    let last := tabGet 0 s.courier.inn key
    let d := (h.seq.toNat + 2 ^ 32 - last) % 2 ^ 32
    if d = 1 then f { s with courier := { s.courier with inn := tabSet 0 s.courier.inn key h.seq.toNat } }
    else if d = 0 ∨ 2 ^ 31 ≤ d then answerAgain key h again s
    else s

/-! ### Remote accesses (R388-R391) -/

/-- One window covers a range, grants the access and names its source. -/
def windowOk (s : State) (src a n : Nat) (right : ExportWin → Bool) : Bool :=
  s.courier.windows.any (fun e => right e.2 && bitOf e.2.sources src && decide (e.2.base ≤ a) && decide (a + n ≤ e.2.base + e.2.length))

/-- The range meets a stack that is out of service. -/
def rangeOffline (s : State) (a n : Nat) : Bool := stackOffline s (stackOf a) || stackOffline s (stackOf (a + n - 1))

def logRefused (pos reason a : Nat) (s : State) : State :=
  logEvent .peerAccessRefused islRing (leBytes 1 pos ++ leBytes 1 reason ++ leBytes 8 a) s

/-- A peer's access is granted: it came over this module's own ring and not over an uplink (R34), and a window grants it (R390). -/
def peerGranted (s : State) (h : CrHead) (a n : Nat) (right : ExportWin → Bool) : Bool :=
  decide (h.port.val < 4) && windowOk s h.src.val a n right

/-- A peer's access is performed, or refused. -/
def peerAccess (h : CrHead) (a n : Nat) (right : ExportWin → Bool) (perform : State → State) (s : State) : State :=
  let refuse := fun r => logRefused h.src.val r a (turnAway (inPoint h) h r s)
  if !peerGranted s h a n right then refuse 1 else if rangeOffline s a n then refuse 5 else perform s

/-- A message is the next of its flow. -/
def nextInFlow (s : State) (h : CrHead) (key : Nat) : Bool := decide ((h.seq.toNat + 2 ^ 32 - tabGet 0 s.courier.inn key) % 2 ^ 32 = 1)

/-- A peer's access that would be performed waits at the stop: its turn has not come (R288, R290, R294). -/
def peerWaits (h : CrHead) (a n : Nat) (right : ExportWin → Bool) (s : State) : Bool :=
  nextInFlow s h (inPoint h) && peerGranted s h a n right && !rangeOffline s a n && !hbmReady s h.cls.val a n

/-- A peer's access takes its turn, and its lookup checks the tags (R288, R308). -/
def lookUp (h : CrHead) (a n : Nat) (tags : TagOutcome) (f : State → State) (s : State) : State :=
  let (s, dead) := tagCheck (dieOfStack (stackOf a)) tags (hbmTurn h.cls.val a n s)
  if dead then s else f s

/-! ### Groups (R392-R395) -/

/-- The number of members below a position. -/
def memberRank (g : GroupRec) (pos : Nat) : Nat := ((List.range pos).filter (bitOf g.members)).length

def memberList (g : GroupRec) : List Nat := maskBits 64 g.members

/-- The bytes of a group's buffer. -/
def groupBytes (g : GroupRec) : Nat := g.row * g.rows * (if g.handoff then 1 else (memberList g).length)

/-- What two ranges share. -/
def meet (a n b m : Nat) : Option (Nat × Nat) :=
  let lo := max a b
  let hi := min (a + n) (b + m)
  if lo < hi then some (lo, hi - lo) else none

/-- The parts of a range that are a member's own. -/
def ownParts (g : GroupRec) (pos a n : Nat) : List (Nat × Nat) :=
  if g.handoff then (if pos = g.source then (meet a n g.base (groupBytes g)).toList else [])
  else if !bitOf g.members pos ∨ a + n ≤ g.base then []
  else
    let line := (memberList g).length * g.row
    let k := memberRank g pos
    let r0 := (max a g.base - g.base) / line
    let r1 := min (g.rows - 1) ((a + n - 1 - g.base) / line)
    ((List.range (r1 + 1 - r0)).map (· + r0)).filterMap (fun r => meet a n (g.base + r * line + k * g.row) g.row)

/-- Send one group message: its members in a direction, or a hand-off to one position. -/
def sendGather (id : Nat) (g : GroupRec) (dir dst a : Nat) (d : PData) (s : State) : State :=
  if d = [] then s
  else
    let waits := if dir = 2 then [dst] else (memberList g).filter (· != ownPos s)
    sendMsg (flowGroup id dir dst)
      { type := crGather, cls := g.cls, src := 0, dst := if dir = 2 then dst else 0xFF, seq := 0, tag := id + (a - g.base) * 2 ^ 16, payload := d, up := false }
      (if dir = 2 then none else some dir) waits none s

/-- A write into this module's own parts of a group's buffer is captured and forwarded (R393, R394). -/
def captureIn (id : Nat) (g : GroupRec) (a : Nat) (d : PData) (s : State) : State :=
  forEach (ownParts g (ownPos s) a d.length) (fun r t =>
    let x := sliceAt d (r.1 - a) r.2
    if g.handoff then forEach ((memberList g).filter (· != ownPos t)) (fun p u => sendGather id g 2 p r.1 x u) t
    else
      let gs := (granulesOf r.1 r.2).length
      let east := (r.1 / 64 + (gs + 1) / 2) * 64 - r.1
      sendGather id g 1 0 (r.1 + east) (x.drop east) (sendGather id g 0 0 r.1 (x.take east) t)) s

/-- Every group's capture of a write performed at a stop. -/
def captureWrite (a : Nat) (d : PData) (s : State) : State :=
  if s.courier.position.isNone then s else forEach s.courier.groups (fun e t => captureIn e.1 e.2 a d t) s

/-- The next member in a direction from this module. -/
def nextMember (s : State) (g : GroupRec) (dir : Nat) : Option Nat :=
  let occ := occupied s.courier
  let n := occ.length
  match s.courier.position.bind (occOf s.courier) with
  | none => none
  | some o => (((List.range (n - 1)).map (fun j => (occ.getD ((if dir = 0 then o + 1 + j else o + 2 * n - 1 - j) % n) (0, 0)).2)).filter (bitOf g.members)).head?

/-- The direction of travel of a message that came in by a port. -/
def travelDir (g : GroupRec) (h : CrHead) : Nat := if g.handoff then 2 else if h.port.val % 2 = 1 then 0 else 1

/-- Pass a group message on, but for the last member in its direction. -/
def passOn (h : CrHead) (id : Nat) (g : GroupRec) (off : Nat) (d : PData) (s : State) : State :=
  let dir := travelDir g h
  if dir = 2 ∨ nextMember s g dir = some h.src.val ∨ nextMember s g dir = none then s
  else emit { type := crGather, cls := h.cls.val, src := h.src.val, dst := 0xFF, seq := h.seq.toNat, tag := id + off * 2 ^ 16, payload := d, up := false } (some dir) s

/-- A group message that this module cannot perform (R395). -/
def groupBad (s : State) (g : Option GroupRec) (h : CrHead) (off n : Nat) (same : Bool) : Bool :=
  match g with
  | none => true
  | some g => !same || !bitOf g.members h.src.val || !bitOf g.members (ownPos s) || !decide (ownParts g h.src.val (g.base + off) n = [(g.base + off, n)])

/-- A GATHER arrives. -/
def gather (h : CrHead) (id off : Nat) (d : PData) (same : Bool) (s : State) : State :=
  match tabFind s.courier.groups id with
  | none => inFlow h (inGroup h id 0) (nackMsg h 4) (turnAway (inGroup h id 0) h 4) s
  | some g =>
    let dir := travelDir g h
    if groupBad s (some g) h off d.length same then
      inFlow h (inGroup h id dir) (nackMsg h 4) (turnAway (inGroup h id dir) h 4) s
    else
      let a := g.base + off
      if nextInFlow s h (inGroup h id dir) && !hbmReady s h.cls.val a d.length then s
      else inFlow h (inGroup h id dir) (fun t => passOn h id g off d (ackMsg h t)) (fun t =>
        let t := hbmWrite (hbmTurn h.cls.val a d.length t) none a d []
        passOn h id g off d (ackMsg h (semPost (65536 + g.sem) (granulesOf (g.base + off) d.length).length t))) s

/-! ### The manager's tables and the standby (R404, R406) -/

/-- A write to the manager's tables: performed in HBM, and captured for the standby's copy. -/
def tableWrite (a : Nat) (b : List Byte) (s : State) : State := captureWrite a (clean b) (hbmWrite s none a (clean b) [])

/-- No table write waits for the standby's acknowledgement. -/
def mirrored (s : State) : Bool :=
  !s.courier.store.any (fun e => e.msg.type == crGather &&
    (match tabFind s.courier.groups (e.msg.tag % 256) with
     | some g => g.handoff && overlaps g.base (groupBytes g) s.blend.cur.role.tableBase s.blend.cur.role.tableSize
     | none => false))

/-- Steps leave once the standby has acknowledged the writes that record them (R406). -/
def sendSteps (s : State) : State :=
  if s.courier.heldSteps = [] ∨ !mirrored s then s
  else
    forEach s.courier.heldSteps (fun h t => sendPoint crStep h.2.1 h.1 (h.2.2.1 + t.courier.epoch * 2 ^ 32) h.2.2.2 none t)
      { s with courier := { s.courier with heldSteps := [] } }

/-! ### Acknowledgements (R387, R391, R395, R405) -/

/-- The flow of a message that a position answers. -/
def flowOf (src : Nat) (up : Bool) : CrFlow → Nat
  | .point c => flowPoint src c.val up
  | .group g d => flowGroup g.val d.val src

/-- The stored message that an answer names. -/
def findStored (s : State) (h : CrHead) (flow : CrFlow) (seq : Nat) : Option CrStored :=
  s.courier.store.find? (fun e => e.flow == flowOf h.src.val (4 ≤ h.port.val) flow && e.msg.seq == seq && e.waits.contains h.src.val)

/-- Replace a stored message, or take it out. -/
def putStored (e : CrStored) (f : Option CrStored) (s : State) : State :=
  { s with courier := { s.courier with store := s.courier.store.filterMap (fun x => if x.flow = e.flow ∧ x.msg.seq = e.msg.seq then f else some x) } }

/-- A position has acknowledged: the message goes once all have. -/
def ackedBy (e : CrStored) (pos : Nat) (s : State) : State :=
  let w := e.waits.filter (· != pos)
  putStored e (if w = [] then none else some { e with waits := w }) s

/-- An ACK: its piece lands, an atomic's old value is answered, and the acknowledgement of a step receipt advances `RQ_HEAD`. -/
def acked (h : CrHead) (flow : CrFlow) (seq : Nat) (old : Dword) (s : State) : State :=
  match if arrives s h then findStored s h flow seq else none with
  | none => s
  | some e =>
    if e.msg.type = crRead then s
    else
      let s := ackedBy e h.src.val s
      let s := match e.piece with | some (x, p) => landPiece x p e.msg.payload s | none => s
      let s := if e.msg.type = crAtomic then answer (leBytes 8 old.toNat) s else s
      let s := if e.msg.type = crStepReceipt then updQ s (e.msg.tag % 1024) (fun q => { q with rqHead := (q.rqHead + 1) % 2 ^ 32 }) else s
      sendSteps s

/-- A NACK: a refused access ends poisoned or dropped and its invocation will end SEGMENT_FAULT; a full queue's step is sent again later, as a
new message; a refused group message is logged. -/
def nacked (h : CrHead) (flow : CrFlow) (seq reason : Nat) (s : State) : State :=
  match if arrives s h then findStored s h flow seq else none with
  | none => s
  | some e =>
    if reason = 2 then
      let q := (tabGet 0 s.courier.out e.flow + 1) % 2 ^ 32
      let s := putStored e (some { e with msg := { e.msg with seq := q }, last := s.devTime }) s
      { s with courier := { s.courier with out := tabSet 0 s.courier.out e.flow q } }
    else
      let s := putStored e none s
      if reason = 4 then sendSteps (logEvent .courierGroupRefused islRing (leBytes 2 (e.msg.tag % 256) ++ leBytes 1 h.src.val) s)
      else
        match e.piece with
        | none => s
        | some (x, p) =>
          match getXfer s x with
          | none => s
          | some v =>
            let s := endPiece x p (logRefused h.src.val reason (e.msg.tag % 2 ^ 48) s)
            let s := match getXfer s x with | some w => setXfer s x { w with failed := true } | none => s
            updInv s v.inv (fun i => { i with refused := true })

/-- The data of a remote read land. -/
def readData (h : CrHead) (off : Nat) (d : PData) (s : State) : State :=
  inFlow h (inPoint h) (ackMsg h) (fun t =>
    let t := ackMsg h t
    match t.courier.store.find? (fun e => e.msg.type == crRead && e.msg.dst == h.src.val && e.msg.cls == h.cls.val && e.msg.tag == off + d.length * 2 ^ 48) with
    | none => t
    | some e =>
      let t := putStored e none t
      match e.piece with | some (x, p) => landPiece x p d t | none => t) s

/-- The old value that an ATOMIC returned. -/
def oldValue (s : State) (key seq : Nat) : Option (Dword × Bool) := ((tabGet [] s.courier.olds key).find? (fun e => e.1 == seq)).map (·.2)

/-- An ATOMIC is performed once, in its turn at the stop, and its old value kept, with its mark, for duplicates. -/
def peerAtomic (h : CrHead) (op : AtomicOp) (a : Nat) (wide : Bool) (x cmp : Nat) (errs : List HbmError) (tags : TagOutcome) (s : State) : State :=
  let n := if wide then 8 else 4
  let reply := fun (v : Dword × Bool) (t : State) => answerMsg crAck h h.seq.toNat ((leBytes n v.1.toNat).map (fun b => (b, v.2))) t
  if peerWaits h a n (·.atomic) s then s
  else
    inFlow h (inPoint h) (fun t => match oldValue t (inPoint h) h.seq.toNat with | some v => reply v t | none => nackMsg h 1 t) (fun t =>
      peerAccess h a n (·.atomic) (fun t =>
        lookUp h a n tags (fun t =>
          let ((old, bad), t) := hbmAtomic t op a n x cmp errs
          let t := if bad then t else captureWrite a ((List.range n).map (fun i => hbmPeek t (a + i))) t
          let v := (BitVec.ofNat 64 old, bad)
          let keep := (tabGet [] t.courier.olds (inPoint h) ++ [(h.seq.toNat, v)])
          let t := { t with courier := { t.courier with olds := tabSet [] t.courier.olds (inPoint h) (keep.drop (keep.length - 256)) } }
          reply v t) t) t) s

/-! ### Retries and lost peers (R387, R389) -/

/-- Send a stored message again. -/
def resend (k : Nat) (s : State) : State :=
  match s.courier.store[k]? with
  | none => s
  | some e => if s.devTime < e.last + 20000 then s else emit e.msg e.dir (putStored e (some { e with last := s.devTime }) s)

/-- A step receipt that is held while the manager is lost (R409). -/
def receiptHeld (s : State) (e : CrStored) : Bool := s.courier.managerLost && e.msg.type == crStepReceipt && e.msg.dst == s.courier.managerPos

/-- The messages of this module's own ring that are held for a position, but for step receipts that wait for a new manager; those on the uplinks wait for a ring's manager (R408, R409). -/
def heldFor (s : State) (pos : Nat) : List CrStored := s.courier.store.filter (fun e => !e.msg.up && e.waits.contains pos && !receiptHeld s e)

/-- Declare a position absent: every message held for it ends. -/
def peerLost (pos : Nat) (s : State) : State :=
  let late := (heldFor s pos).any (fun e => decide (e.first + s.courier.limitMs * 1000000 ≤ s.devTime))
  if s.courier.limitMs = 0 ∨ !late then s
  else
    let s := logEvent .courierPeerLost islRing (leBytes 1 pos) s
    let s := { s with courier := { s.courier with present := setDel s.courier.present pos } }
    sendSteps (forEach (heldFor s pos) (fun e t =>
      let t := ackedBy e pos t
      match e.piece with | some (x, p) => endPiece x p t | none => t) s)

/-! ### Link changes (R386, R400, R401) -/

/-- The open points of the ring, walking east from the manager: the places just east of each. -/
def openPoints (c : CourierState) : List Nat :=
  let occ := occupied c
  let n := occ.length
  let start := (occOf c c.managerPos).getD 0
  if n < 2 then []
  else
    ((List.range n).map (fun j => (start + j) % n)).filterMap (fun i =>
      let a := (occ.getD i (0, 0)).1
      let b := (occ.getD ((i + 1) % n) (0, 0)).1
      let span := (b + 2 * c.places.length - a - 1) % c.places.length
      if 3 < span ∨ (c.down.contains (a, 0) ∧ c.down.contains (a, 1)) then some b else none)

/-- Log what a change of the map has opened. -/
def noteOpen (before : Nat) (s : State) : State :=
  match openPoints s.courier with
  | [] => s
  | g :: t =>
    let s := if before = 0 then logEvent .courierRingOpen islRing (leBytes 1 g) s else s
    if before ≤ 1 ∧ t ≠ [] then logEvent .courierRingSplit islRing (leBytes 1 g) s else s

/-- A link goes down or comes up in the ring map. -/
def markLink (place ring : Nat) (up : Bool) (s : State) : State :=
  let before := (openPoints s.courier).length
  let rest := s.courier.down.filter (· != (place, ring))
  noteOpen before { s with courier := { s.courier with down := if up then rest else rest ++ [(place, ring)] } }

/-- The place at the west end of a port's link. -/
def linkPlace (s : State) (p : Nat) : Option Nat :=
  let occ := occupied s.courier
  (s.courier.position.bind (occOf s.courier)).map (fun o => (occ.getD (if p % 2 = 0 then o else (o + occ.length - 1) % occ.length) (0, 0)).1)

/-- Tell every module of a link's change, and note it here. -/
def noticeLink (p : Nat) (up : Bool) (s : State) : State :=
  if 4 ≤ p then s
  else
    match linkPlace s p with
    | none => s
    | some l =>
      let s := markLink l (p / 2) up s
      forEach s.courier.present (fun d t => sendControl 5 d (leBytes 1 l ++ leBytes 1 (p / 2) ++ leBytes 1 (b2n up)) t) s

/-- A port loses its link. -/
def crDown (p : Nat) (s : State) : State :=
  noticeLink p false (logEvent .courierLinkDown (islOfCourier p) (leBytes 1 p) (updCr s p (fun x => { x with link := .down, lanes := 0, neighbour := none })))

/-- A retrain starts: the port's traffic moves to another route. -/
def crRetrain (p : Nat) (full : Bool) (s : State) : State :=
  logEvent .courierRetrain (islOfCourier p) (leBytes 1 p)
    (updCr s p (fun x => { x with link := .retraining, moved := true, full := full, retrains := x.retrains + 1 }))

/-- A retrain ends; a quick one that fails is followed by a full one. -/
def crRetrained (p : Nat) (r : RetrainResult) (s : State) : State :=
  let x := getCr s p
  if x.link ≠ .retraining then s
  else
    match r, x.full with
    | .failed, false => crRetrain p true s
    | .failed, true => crDown p s
    | .half4, true => logEvent .courierLinkDegraded (islOfCourier p) (leBytes 1 p ++ leBytes 1 4) (setCr s p { x with link := .up, lanes := 4, moved := false })
    | .full8, true => setCr s p { x with link := .up, lanes := 8, moved := false }
    | _, false => setCr s p { x with link := .up, moved := false }

/-! ### Bypass switches (R398, R399) -/

/-- The neighbours of this module on the ring, east and west. -/
def ringNeighbours (s : State) : List Nat :=
  let occ := occupied s.courier
  let n := occ.length
  match s.courier.position.bind (occOf s.courier) with
  | none => []
  | some o => if n < 2 then [] else [(occ.getD ((o + 1) % n) (0, 0)).2, (occ.getD ((o + n - 1) % n) (0, 0)).2]

/-- Apply a switch's hold: the neighbours move that ring's traffic, and the switch moves into the ring. -/
def applyHold (k : Nat) (s : State) : State :=
  if (getSw s k).hold then s
  else
    let s := if k < 2 then forEach (ringNeighbours s) (fun d t => sendControl 7 d (leBytes 1 k) t) s else s
    setSw s k { getSw s k with hold := true, pos := 1 }

/-- The hold of the U switch is withdrawn: it moves to bypass (R398). -/
def releaseHold (s : State) : State := if (getSw s 2).hold then setSw s 2 { getSw s 2 with hold := false, pos := 1 } else s

/-- The holds that are due: ring A once this module serves and has its position, ring B after ring A's links have trained, the U switch of a
manager with an uplink, and of no other module. -/
def holdDue (s : State) : State :=
  if s.mode ≠ .serving then s
  else
    let r := s.blend.cur.role
    let s := if r.manager && (r.uplinkEast || r.uplinkWest) then applyHold 2 s else releaseHold s
    if s.courier.position.isNone then s
    else
      let s := applyHold 0 s
      let settled := fun (p : Nat) => let l := (getCr s p).link; decide (l = .up) || decide (l = .down)
      if decide ((getSw s 0).pos = 2) && settled 0 && settled 1 then applyHold 1 s else s

/-- A switch has finished its move: its ports train, or go dark. -/
def settleSwitch (k : Nat) (s : State) : State :=
  let w := getSw s k
  if w.pos ≠ 1 then s
  else
    let s := setSw s k { w with pos := if w.hold then 2 else 0, moves := min 0xFFFF (w.moves + 1) }
    forEach [2 * k, 2 * k + 1] (fun p t =>
      let x := getCr t p
      if x.link = .disabled then t
      else if w.hold then setCr t p { x with link := .training }
      else
        let t := if x.link = .up ∨ x.link = .retraining then crDown p t else t
        updCr t p (fun x => { x with link := .dark, moved := false })) s

/-- A port's link comes up; one that spans more than three bypassed places does not train (R401). -/
def crLinkUp (p pos bypassed : Nat) (lanes4 : Bool) (s : State) : State :=
  let x := getCr s p
  if (getIsl s (islOfCourier p)).power = 0 ∨ (getSw s (p / 2)).pos ≠ 2 ∨ !(decide (x.link = .training) || decide (x.link = .down) || decide (x.link = .dark)) then s
  else if 3 < bypassed then holdDue (noticeLink p false (setCr s p { x with link := .down }))
  else
    let s := setCr s p { x with link := .up, lanes := if lanes4 then 4 else 8, neighbour := some pos, bypassed := bypassed, moved := false,
                                express := s.blend.cur.classes.expressRing }
    let s := if lanes4 then logEvent .courierLinkDegraded (islOfCourier p) (leBytes 1 p ++ leBytes 1 4) s else s
    holdDue (noticeLink p true s)

/-- The Courier islands and ports: ports 0-3 once a blend is applied, the uplinks where the role enables them (R30, R76, R378). -/
def setCourierIslands (r : RoleDef) (s : State) : State :=
  let put := fun (p : Nat) (on : Bool) (t : State) =>
    let t := updIsl t (islOfCourier p) (fun i => { i with power := if on then 2 else 0 })
    updCr t p (fun x => if !on then { x with link := .disabled, lanes := 0, neighbour := none } else if x.link = .disabled then { x with link := .dark } else x)
  put 5 r.uplinkWest (put 4 r.uplinkEast (put 3 true (put 2 true (put 1 true (put 0 true s)))))

/-! ### Ring control (R382, R402-R409) -/

/-- A control message is performed in its flow; one of an epoch below the highest accepted is refused (R405). -/
def control (h : CrHead) (epoch : Nat) (f : State → State) (s : State) : State :=
  inFlow h (inPoint h) (ackMsg h) (fun t =>
    if epoch < t.courier.epoch then turnAway (inPoint h) h 3 t else f (ackMsg h { t with courier := { t.courier with epoch := epoch } })) s

/-- The module's ring-fed queues. -/
def ringFedQueues (s : State) : List Nat := (s.qs.queues.filter (fun e => e.2.ringFed)).map (·.1)

/-- The payload of a JOIN; the Carrier's own declarations are its to choose (R403). -/
def joinPayload (s : State) : List Byte :=
  let free := fun k n => (List.range n).map (fun i => Config.freeByte s.freeCtr (k + i))
  leBytes 8 s.pm.serial.toNat ++ free 8 14 ++ leBytes 2 (ringFedQueues s).length ++ leBytes 2 ((ringFedQueues s).head?.getD 0) ++
  [Config.freeByte s.freeCtr 26 &&& 1] ++ zeros 5 ++ free 32 8

/-- A worker sends JOIN. -/
def sendJoin (s : State) : State := sendControl 1 s.courier.managerPos (joinPayload s) { s with freeCtr := s.freeCtr + 1 }

/-- The manager's own position: the one it keeps, or 0 where it has none (R382, R409). -/
def takeManagerPos (s : State) : State :=
  let pos := s.courier.position.getD 0
  { s with courier := { s.courier with position := some pos, managerPos := pos, places := if s.courier.places = [] then [some pos] else s.courier.places } }

/-- The module begins to serve: a manager takes position 0, a worker asks to join (R382, R403). -/
def joinRing (s : State) : State :=
  if s.blend.cur.role.manager then holdDue (takeManagerPos s)
  else sendJoin (holdDue s)

/-- A position's entry in the header page: the serial number that holds it, and 1. The page's layout, with 1 and the ring number at its start, is the
model's: DESIGN CHOICE, log entry 71. -/
def headerEntry (s : State) (pos : Nat) : Nat := s.blend.cur.role.tableBase + 0x100 + 16 * pos

/-- The manager records the ring number, its own place and a module's in the header page (R404, R408); a manager without tables has none. -/
def recordPlace (serial : Dword) (pos : Nat) (s : State) : State :=
  if s.blend.cur.role.tableSize = 0 then s
  else
    let t := tableWrite s.blend.cur.role.tableBase [1, BitVec.ofNat 8 s.courier.ringNo] s
    let t := match s.courier.position with | some p => tableWrite (headerEntry s p) (leBytes 8 s.pm.serial.toNat ++ [1]) t | none => t
    tableWrite (headerEntry s pos) (leBytes 8 serial.toNat ++ [1]) t

/-- Bytes of HBM as they stand. -/
def peekBytes (s : State) (a n : Nat) : List Byte := (List.range n).map (fun i => (hbmPeek s (a + i)).1)

/-- The new manager takes the ring number and the positions from its copy of the header page, if one is there (R408, R409). -/
def readPlaces (s : State) : State :=
  let head := peekBytes s s.blend.cur.role.tableBase 2
  if s.blend.cur.role.tableSize = 0 ∨ fieldAt head 0 1 ≠ 1 then s
  else
    let entries := (List.range 64).map (fun p => (peekBytes s (headerEntry s p) 9, p))
    { s with courier := { s.courier with ringNo := fieldAt head 1 1,
                                         serials := (entries.filter (fun e => fieldAt e.1 8 1 == 1)).map (fun e => (BitVec.ofNat 64 (fieldAt e.1 0 8), e.2)) } }

/-- A standby becomes manager: it keeps its position, raises the epoch, rebuilds its state and announces itself (R409). -/
def becomeManager (s : State) : State :=
  let s := readPlaces (takeManagerPos s)
  let s := { s with courier := { s.courier with epoch := s.courier.epoch + 1, managerLost := false } }
  forEach s.courier.present (fun d t => sendControl 6 d [] t) s

/-- The ring map as bytes: 0xFF for a blank or a module in bypass. -/
def mapBytes (c : CourierState) : List Byte := (c.places.map (fun p => leBytes 1 (p.getD 0xFF))).flatten

/-- The lowest position that no serial holds. -/
def freePosition (c : CourierState) : Option Nat := (List.range 64).find? (fun p => some p != c.position && !c.serials.any (fun e => e.2 == p))

/-- The flows between this module and a position that has come back start again: what it sent and performed before is forgotten. -/
def restartFlows (pos : Nat) (c : CourierState) : CourierState :=
  let from_ := fun (k : Nat) => decide (k / 4 = pos) && decide (k < 2 ^ 12) || (decide (2 ^ 12 ≤ k) && decide (k < 2 ^ 20) && decide ((k - 2 ^ 12) / 768 = pos))
  { c with out := c.out.filter (fun e => !(decide (e.1 / 4 = pos) && decide (e.1 < 2 ^ 12))), inn := c.inn.filter (fun e => !from_ e.1),
           olds := c.olds.filter (fun e => !from_ e.1), turned := c.turned.filter (fun e => !from_ e.1) }

/-- A flow goes on from a message that opens it, JOIN or ASSIGN. -/
def openFlow (h : CrHead) (c : CourierState) : CourierState := { c with inn := tabSet 0 c.inn (inPoint h) h.seq.toNat }

/-- The manager takes a worker in: its old position or the lowest free one, and the map to every module. -/
def joined' (j : JoinInfo) (s : State) : State :=
  let c := s.courier
  match ((c.serials.find? (fun e => e.1 == j.serial)).map (·.2)).or (freePosition c) with
  | none => s
  | some pos =>
    let r : JoinRec := { serial := j.serial, poolBase := j.poolBase, poolSlots := j.poolSlots.toNat, capacity := j.capacity.toNat,
                         queueCount := j.queueCount.toNat, firstQueue := j.firstQueue.toNat, standby := j.standby, share := j.share }
    let places := setNth (c.places ++ List.replicate (j.place.val + 1 - c.places.length) none) j.place.val (some pos)
    let serials := if c.serials.any (fun e => e.1 == j.serial) then c.serials else c.serials ++ [(j.serial, pos)]
    let c := if setHas c.present pos then c else restartFlows pos c
    let s := { s with courier := { c with serials := serials, joins := tabPut c.joins pos r, places := places, present := setIns c.present pos } }
    let s := sendControl 2 pos (leBytes 1 c.ringNo ++ leBytes 1 pos) (recordPlace j.serial pos s)
    forEach s.courier.present (fun d t => sendControl 5 d (mapBytes t.courier) t) s

/-- The ring map, or a link's change. -/
def linkNotice (h : CrHead) (places : Option (List (Option (Fin 64)))) (link : Option (Fin 64 × Fin 2 × Bool)) (s : State) : State :=
  let s := match places with
    | none => s
    | some l =>
      let ps := l.map (fun p => p.map (·.val))
      let before := (openPoints s.courier).length
      let now := (ps.filterMap id).filter (· != ownPos s)
      let back := now.filter (fun p => p != h.src.val && !setHas s.courier.present p)
      noteOpen before { s with courier := { back.foldl (fun c p => restartFlows p c) s.courier with places := ps, present := now.foldl setIns [] } }
  match link with
  | some (l, r, up) => markLink l.val r.val up s
  | none => s

/-- A token goes on round its ring: east on ring A, west on ring B (R380). -/
def passToken (h : CrHead) (fn : Nat) (payload : List Byte) (s : State) : State :=
  let m : CrMsg := { type := crControl, cls := h.cls.val, src := h.src.val, dst := 0xFF, seq := h.seq.toNat, tag := fn + s.courier.epoch * 2 ^ 32,
                     payload := clean payload, up := false }
  if s.blend.cur.role.manager then s
  else if h.port.val = 1 ∧ portCarries s 0 then emitOn 0 m s
  else if h.port.val = 2 ∧ portCarries s 3 then emitOn 3 m s
  else s

/-- A heartbeat restarts the loss timer. -/
def heartbeat (h : CrHead) (epoch : Nat) (s : State) : State :=
  if !arrives s h ∨ epoch < s.courier.epoch then s
  else passToken h 3 [] { s with courier := { s.courier with epoch := epoch, lastBeat := s.devTime, managerLost := false } }

/-- A token of the manager sets out on each ring: east on ring A, west on ring B (R380). -/
def sendToken (fn : Nat) (payload : List Byte) (s : State) : State :=
  let m : CrMsg := { type := crControl, cls := 0, src := ownPos s, dst := 0xFF, seq := 0, tag := fn + s.courier.epoch * 2 ^ 32, payload := clean payload,
                     up := false }
  let s := if portCarries s 0 then emitOn 0 m s else s
  if portCarries s 3 then emitOn 3 m s else s

/-- A manager's time travels east on the manager ring, under its ring number (R407). -/
def sendTimeUp (ring : Nat) (s : State) : State :=
  if portCarries s 4 then
    emitOn 4 { type := crControl, cls := 0, src := ring, dst := 0xFF, seq := 0, tag := 4 + s.courier.epoch * 2 ^ 32, payload := clean (leBytes 8 s.devTime), up := true } s
  else s

/-- The manager sends a heartbeat on each ring, while its Carrier runs (R402, R465), and its time with it, on the manager ring too: that TIME goes
out with each heartbeat is the model's, DESIGN CHOICE, log entry 74. -/
def sendBeat (s : State) : State :=
  if !s.blend.cur.role.manager ∨ !s.pm.carrierRuns ∨ s.mode ≠ .serving ∨ s.devTime < s.courier.beatSent + 100000 then s
  else sendTimeUp s.courier.ringNo (sendToken 4 (leBytes 8 s.devTime) (sendToken 3 [] { s with courier := { s.courier with beatSent := s.devTime } }))

/-- A TIME message: a module that is more than 1 µs behind at its join steps forward once; otherwise it slews (R407). A manager follows the time that
comes over the manager ring from one of a lower ring number, whose number the header's `SRC` gives there: DEDUCED, log entry 74. -/
def steerTime (h : CrHead) (epoch time : Nat) (s : State) : State :=
  let mgr := s.blend.cur.role.manager
  if (!mgr && decide (epoch < s.courier.epoch)) ∨ (mgr && !(decide (4 ≤ h.port.val) && decide (h.src.val < s.courier.ringNo))) ∨ s.mode = .off then s
  else
    let diff : Int := (time + (getCr s h.port.val).hopDelay : Nat) - (s.devTime : Int)
    let s :=
      if s.courier.position.isNone ∧ 1000 < diff then
        let t := { s with devTime := s.devTime + diff.toNat, courier := { s.courier with timeOffset := 0, slew := 0 } }
        logEvent .timeStepped islRing (leBytes 8 diff.toNat) t
      else { s with courier := { s.courier with timeOffset := -diff, slew := diff } }
    if mgr then sendTimeUp h.src.val s else passToken h 4 (leBytes 8 s.devTime) s

/-- ASSIGN: `MOD_POSITION` is written, and the switches may move into the ring. The manager's flow goes on from it. -/
def assign (h : CrHead) (epoch ring pos : Nat) (s : State) : State :=
  if s.mode ≠ .serving ∨ s.blend.cur.role.manager then s
  else if epoch < s.courier.epoch then nackMsg h 3 s
  else
    let c := openFlow h s.courier
    ackMsg h <| holdDue { s with courier := { c with epoch := epoch, ringNo := ring, position := some pos, managerPos := h.src.val,
                                                     lastBeat := s.devTime, managerLost := false } }

/-- ANNOUNCE: JOIN goes to the new manager, and held receipts are sent to it. -/
def announce (h : CrHead) (s : State) : State :=
  let c := s.courier
  let held := c.store.filter (fun e => e.msg.type == crStepReceipt && e.msg.dst == c.managerPos)
  let s := { s with courier := { c with managerPos := h.src.val, managerLost := false, lastBeat := s.devTime,
                                        store := c.store.filter (fun e => !(e.msg.type == crStepReceipt && e.msg.dst == c.managerPos)) } }
  forEach held (fun e t => sendPoint crStepReceipt e.msg.cls h.src.val (e.msg.tag % 2 ^ 32 + t.courier.epoch * 2 ^ 32) e.msg.payload none t) (sendJoin s)

/-- No heartbeat for 1 ms. -/
def managerGone (s : State) : State :=
  let c := s.courier
  if s.blend.cur.role.manager ∨ c.position.isNone ∨ c.managerLost ∨ s.devTime < c.lastBeat + 1000000 then s
  else logEvent .managerLost islRing (leBytes 1 c.managerPos ++ leBytes 4 c.epoch) { s with courier := { c with managerLost := true } }

/-- A neighbour drains a ring: this side's traffic of that ring moves to the other. -/
def drainRing (h : CrHead) (ring : Nat) (s : State) : State := updCr s (2 * ring + h.port.val % 2) (fun x => { x with moved := true })

/-! ### Steps (R405) and Carrier data (R408) -/

/-- Send a step's receipt to the manager. -/
def sendStepReceipt (q : Nat) (id : Dword) (b : List Byte) (s : State) : State :=
  let cls := match queueBind s q with | some x => x.cls | none => 0
  sendPoint crStepReceipt cls s.courier.managerPos (q + s.courier.epoch * 2 ^ 32) (clean (leBytes 8 id.toNat ++ b)) none s

/-- A new step takes its place in a ring-fed queue. -/
def acceptStep (q : Nat) (id : Dword) (env enc : List Byte) (s : State) : State :=
  let x := getQ s q
  let e := readEnvelope s q (padTo 64 env) enc false .step x.sqTail s.devTime
  let steps := s.courier.steps ++ [{ id := id, queue := q, index := x.sqTail, receipt := none }]
  let s := setQ s q { x with sqTail := (x.sqTail + 1) % 2 ^ 32, fed := x.fed ++ [e], idle := false }
  { s with courier := { s.courier with steps := steps.drop (steps.length - 65536) } }

/-- A STEP arrives. -/
def stepMsg (h : CrHead) (q epoch : Nat) (id : Dword) (env enc : List Byte) (s : State) : State :=
  inFlow h (inPoint h) (ackMsg h) (fun t =>
    let x := getQ t q
    if epoch < t.courier.epoch then turnAway (inPoint h) h 3 t
    else
      let t := { t with courier := { t.courier with epoch := epoch } }
      match t.courier.steps.find? (fun e => e.id == id) with
      | some e => match e.receipt with | some b => sendStepReceipt e.queue id b (ackMsg h t) | none => ackMsg h t
      | none =>
        if !x.ringFed ∨ !x.enable then turnAway (inPoint h) h 1 t
        else if queueDepth t q ≤ ahead x.sqTail x.sqHead ∨ !receiptRoom t q then turnAway (inPoint h) h 2 t
        else ackMsg h (acceptStep q id env enc t)) s

/-- A ROUTED message goes to the Carrier here, on to its position, or toward its ring (R408). -/
def routed (h : CrHead) (ring pos : Nat) (data : List Byte) (s : State) : State :=
  let tag := ring + pos * 64
  inFlow h (inPoint h) (ackMsg h) (fun t =>
    let t := ackMsg h t
    let mgr := t.blend.cur.role.manager
    if ring = t.courier.ringNo ∧ some pos = t.courier.position then { t with courier := { t.courier with inbox := t.courier.inbox ++ [(h.src.val, data)] } }
    else if ring = t.courier.ringNo then (if mgr then sendPoint crRouted h.cls.val pos tag (clean data) none t else t)
    else if mgr then
      sendMsg (flowPoint ring h.cls.val true) { type := crRouted, cls := h.cls.val, src := 0, dst := ring, seq := 0, tag := tag, payload := clean data, up := true }
        none [ring] none t
    else sendPoint crRouted h.cls.val t.courier.managerPos tag (clean data) none t) s

/-! ### The log's mirror (R453) -/

/-- The 64 bytes of a log entry (R450). -/
def logBytes (l : LogSlot) : List Byte :=
  let e := l.entry
  leBytes 8 e.postmark ++ leBytes 2 (eventCode e.event) ++ leBytes 2 e.source ++ leBytes 1 (eventSeverity e.event) ++ leBytes 1 0 ++
  leBytes 2 e.count ++ leBytes 8 l.seq ++ padTo 40 e.data

/-- The first entry at or after a number that is to be mirrored. -/
def nextMirror (l : LogState) (from_ : Nat) : Option (Nat × LogSlot) :=
  let due := l.slots.filter (fun e => decide (from_ ≤ e.2.seq) && decide (l.mirrorSev ≤ eventSeverity e.2.entry.event))
  due.foldl (fun m e => match m with | none => some e | some x => if e.2.seq < x.2.seq then some e else m) none

/-- Mirror the next entry; entries overwritten before they were mirrored are counted and logged. -/
def mirrorSend (s : State) : State :=
  let c := s.courier
  let role := s.blend.cur.role
  let standby := (c.joins.find? (fun e => e.2.standby)).map (·.1)
  match c.position, if role.manager then standby else some c.managerPos with
  | some _, some dst =>
    if c.managerLost ∨ !storeRoom s ∨ s.mode = .off then s
    else
      let l := s.log
      let s := if l.mirrorSeq + 16384 < l.next then
          let lost := l.next - 16384 - l.mirrorSeq
          logEvent .logMirrorGap islTrust (leBytes 8 l.mirrorSeq ++ leBytes 8 (l.next - 16385))
            { s with log := { l with mirrorSeq := l.next - 16384, mirrorLost := l.mirrorLost + BitVec.ofNat 32 lost } }
        else s
      match nextMirror s.log s.log.mirrorSeq with
      | none => { s with log := { s.log with mirrorSeq := s.log.next } }
      | some (_, e) =>
        sendPoint crRouted 1 dst (c.ringNo + dst * 64) (clean (leBytes 8 s.pm.serial.toNat ++ logBytes e)) none
          { s with log := { s.log with mirrorSeq := e.seq + 1 } }
  | _, _ => s

/-! ### The rows -/

/-- `COURIER_REPLAY` (R386). -/
def execCourierReplay (port : Fin 6) (s : State) : Out State :=
  .next (if (getCr s port.val).link = .up then updCr s port.val (fun x => { x with replays := x.replays + 1 }) else s)
/-- `COURIER_RETRAIN` (R386). -/
def execCourierRetrain (port : Fin 6) (s : State) : Out State :=
  .next (if (getCr s port.val).link = .up then crRetrain port.val false s else s)
/-- `COURIER_RETRAIN_DONE` (R386). -/
def execCourierRetrainDone (port : Fin 6) (result : RetrainResult) (s : State) : Out State := .next (crRetrained port.val result s)
/-- `COURIER_LINK_UP` (R400, R401). -/
def execCourierLinkUp (port : Fin 6) (neighbour bypassed : Fin 64) (lanes4 : Bool) (s : State) : Out State :=
  .next (crLinkUp port.val neighbour.val bypassed.val lanes4 s)
/-- `READ` (R390). -/
def execRead (head : CrHead) (offset : Fin 281474976710656) (bytes : Fin 4097) (met : AccessErrors) (s : State) : Out State :=
  .next (if peerWaits head offset.val bytes.val (·.read) s then s
    else inFlow head (inPoint head) id (peerAccess head offset.val bytes.val (·.read) (lookUp head offset.val bytes.val met.tags (fun t =>
      let (d, t) := hbmRead t none offset.val bytes.val met.words
      sendPoint crReadData head.cls.val head.src.val (offset.val + bytes.val * 2 ^ 48) d none t))) s)
/-- `READ_DATA` (R388). -/
def execReadData (head : CrHead) (offset : Fin 281474976710656) (data : List (Byte × Bool)) (s : State) : Out State :=
  .next (readData head offset.val data s)
/-- `WRITE` (R390). -/
def execWrite (head : CrHead) (offset : Fin 281474976710656) (data : List (Byte × Bool)) (met : AccessErrors) (s : State) : Out State :=
  .next (if peerWaits head offset.val data.length (·.write) s then s
    else inFlow head (inPoint head) (ackMsg head) (peerAccess head offset.val data.length (·.write)
      (lookUp head offset.val data.length met.tags (fun t => ackMsg head (captureWrite offset.val data (hbmWrite t none offset.val data met.words))))) s)
/-- `ATOMIC` (R390, R291). -/
def execAtomic (head : CrHead) (op : AtomicOp) (place : PeerPlace) (wide : Bool) (operand compare : Dword) (s : State) : Out State :=
  .next (peerAtomic head op place.offset.val wide operand.toNat compare.toNat place.met.words place.met.tags s)
/-- `ACK` (R387). -/
def execAck (head : CrHead) (flow : CrFlow) (seq : Word) (old : Dword) (s : State) : Out State := .next (acked head flow seq.toNat old s)
/-- `NACK` (R391, R395). -/
def execNack (head : CrHead) (flow : CrFlow) (seq : Word) (reason : Fin 256) (s : State) : Out State := .next (nacked head flow seq.toNat reason.val s)
/-- `GATHER` (R393-R395). -/
def execGather (head : CrHead) (group : Fin 256) (offset : Fin 281474976710656) (data : List (Byte × Bool)) (sameRecord : Bool) (s : State) : Out State :=
  .next (gather head group.val offset.val data sameRecord s)
/-- `STEP` (R405). -/
def execStep (head : CrHead) (queue : Fin 1024) (epoch : Word) (id : Dword) (envelope enclosure : List Byte) (s : State) : Out State :=
  .next (stepMsg head queue.val epoch.toNat id envelope enclosure s)
/-- `ROUTED` (R408). -/
def execRouted (head : CrHead) (_up : Bool) (ring position : Fin 64) (data : List Byte) (s : State) : Out State :=
  .next (routed head ring.val position.val data s)
/-- `JOIN` (R382, R403). -/
def execJoin (head : CrHead) (_epoch : Word) (join : JoinInfo) (s : State) : Out State :=
  .next (if s.blend.cur.role.manager ∧ s.pm.carrierRuns ∧ s.mode = .serving then
      joined' join (ackMsg head { s with courier := openFlow head s.courier })
    else s)
/-- `ASSIGN` (R382). -/
def execAssign (head : CrHead) (epoch : Word) (ring position : Fin 64) (s : State) : Out State :=
  .next (assign head epoch.toNat ring.val position.val s)
/-- `HEARTBEAT` (R402). -/
def execHeartbeat (head : CrHead) (epoch : Word) (s : State) : Out State := .next (heartbeat head epoch.toNat s)
/-- `HEARTBEAT_SEND` (R402). -/
def execHeartbeatSend (s : State) : Out State := .next (sendBeat s)
/-- `TIME` (R407). -/
def execTime (head : CrHead) (epoch : Word) (time : Dword) (s : State) : Out State := .next (steerTime head epoch.toNat time.toNat s)
/-- `TIME_EXCHANGE` (R407). -/
def execTimeExchange (port : Fin 6) (delayNs : Half) (s : State) : Out State :=
  .next (if (getCr s port.val).link = .up then updCr s port.val (fun x => { x with hopDelay := delayNs.toNat }) else s)
/-- `LINK_NOTICE` (R383). -/
def execLinkNotice (head : CrHead) (epoch : Word) (places : Option (List (Option (Fin 64)))) (link : Option (Fin 64 × Fin 2 × Bool)) (s : State) : Out State :=
  .next (control head epoch.toNat (linkNotice head places link) s)
/-- `ANNOUNCE` (R409). -/
def execAnnounce (head : CrHead) (epoch : Word) (s : State) : Out State := .next (control head epoch.toNat (announce head) s)
/-- `DRAIN_RING` (R399). -/
def execDrainRing (head : CrHead) (epoch : Word) (ring : Fin 2) (s : State) : Out State := .next (control head epoch.toNat (drainRing head ring.val) s)
/-- `COURIER_RESEND` (R387). -/
def execCourierResend (index : Fin 4096) (s : State) : Out State := .next (resend index.val s)
/-- `COURIER_PEER_LOST` (R389). -/
def execCourierPeerLost (position : Fin 64) (s : State) : Out State := .next (peerLost position.val s)
/-- `MANAGER_LOST` (R409). -/
def execManagerLost (s : State) : Out State := .next (managerGone s)
/-- `BYPASS_SWITCH_SETTLE` (R398). -/
def execBypassSwitchSettle (switch : Fin 3) (s : State) : Out State := .next (settleSwitch switch.val s)
/-- `LOG_MIRROR_SEND` (R453). -/
def execLogMirrorSend (s : State) : Out State := .next (mirrorSend s)

end Sys2Proof.Machine
end

