-- ==== Sys2Proof/Machine/Planner.lean ====
section
/-! DEFINITION. Islands' clocks, slack alarms, retirements, the margin planner, the scratchpad scrub and the log's own steps (R17, R438-R454,
R459, R486). -/

namespace Sys2Proof.Machine

/-! ### Floors and clocks (R17, R59, R459) -/

/-- The lowest code of an island: its floor, or the bottom of the range. -/
def bottomCode (i : Island) : Nat := if i.floor = 0 then 0x18 else i.floor

/-- Change the frequency of an island by one code. -/
def stepCode (n code : Nat) (throttled : Bool) (s : State) : State :=
  updIsl s n (fun i => { setCode s n code i with throttled := throttled })

/-- The step timer of a movable island: one code toward `TARGET`, or the pace of R459 by its temperature and the input power. -/
def clockStep (n : Nat) (s : State) : State :=
  let i := getIsl s n
  let since := s.devTime - i.lastStep
  if !isMovable n ∨ i.power = 0 ∨ s.power.supplyReset then s
  else
    let low := if 105 ≤ i.tempC then 0x18 else bottomCode i
    let hot := decide (100 ≤ i.tempC)
    let byPower := s.power.powerLimit && i.floor == 0
    if hot ∨ byPower then
      if since < 10000 ∨ i.current ≤ low then s
      else
        let s := stepCode n (i.current - 1) true s
        if 105 ≤ i.tempC then s
        else if hot then logLimited .thermalThrottle n (leBytes 1 i.tempC ++ leBytes 1 (i.current - 1)) s
        else logLimited .thermalThrottle islTrust (leBytes 1 0 ++ leBytes 1 (i.current - 1)) s
    else if i.target < i.current then (if since < 100 then s else stepCode n (i.current - 1) i.throttled s)
    else if i.current = i.target then (if i.throttled then updIsl s n (fun i => { i with throttled := false }) else s)
    else if i.throttled then
      if 97 ≤ i.tempC ∨ since < 1000000 then s else stepCode n (i.current + 1) (decide (i.current + 1 ≠ i.target)) s
    else if since < 100 then s else stepCode n (i.current + 1) false s

/-! ### Taking an island out of service (R439-R441) -/

/-- The logical core of an island, 0xFF for none. -/
def logicalOfIsl (s : State) (n : Nat) : Nat := if isComputeIsl n then (logicalOf s (n / 256 * 84 + n % 256)).getD 0xFF else 0xFF

/-- An island that works for no invocation (R440, R446). -/
def unused (s : State) (n : Nat) : Bool :=
  if isComputeIsl n then (getCore s (n / 256 * 84 + n % 256)).inv.isNone
  else let g := getGrinder s (n / 256 * 16 + n % 256 - 84); g.queue == [] && g.active == []

/-- An island goes out of service: recorded and logged; a linked core's invocations end. -/
def retireIsland (n reason : Nat) (s : State) : State :=
  if (getIsl s n).faulty then s
  else
    let l := logicalOfIsl s n
    let idle := unused s n
    let s := updIsl s n (fun i => { i with faulty := true, check := none, power := if idle then 0 else i.power })
    let s := updMargin s n (fun e => { e with retired := true, reason := reason })
    let s := { s with plan := { s.plan with retired := s.plan.retired + 1, retiredThisRun := s.plan.retiredThisRun + 1 } }
    let s := logEvent .islandRetired islTrust (leBytes 2 n ++ leBytes 1 reason ++ leBytes 1 l) s
    forEach (s.qs.invs.filter (fun e => l != 0xFF && e.2.cores.contains l)) (fun e t => endEarly e.1 .aborted 0x34 t) s

/-- Times within the last 24 hours. -/
def lastDay (s : State) (l : List Nat) : List Nat := l.filter (fun t => decide (s.devTime < t + 86400000000000))

/-- A detector fires: lower the target, else raise the voltage, else count toward retirement (R443). -/
def slackAlarm (n : Nat) (s : State) : State :=
  let i := getIsl s n
  if !isMovable n ∨ i.power = 0 ∨ i.faulty then s
  else
    let atFloor := decide (i.target ≤ bottomCode i)
    let atTop := decide (0x46 ≤ i.vCode)
    let f := if atFloor then i.target else i.target - 1
    let v := if atFloor ∧ !atTop then i.vCode + 1 else i.vCode
    let times := if atFloor && atTop then lastDay s i.alarmTimes ++ [s.devTime] else i.alarmTimes
    let s := setIsl s n { i with target := f, vCode := v, alarms := satAdd 0xFF i.alarms 1, alarmTimes := times }
    let s := { s with plan := { s.plan with alarmsSince := satAdd 0xFFFF s.plan.alarmsSince 1 } }
    let s := logLimited .slackAlarm n (leBytes 1 f ++ leBytes 1 v) s
    if 3 ≤ (lastDay s times).length ∧ atFloor ∧ atTop then retireIsland n 2 s else s

/-! ### Points and fits (R444, R448) -/

/-- The goal of an island, raised to its floor. -/
def goalOf (s : State) (n : Nat) : Nat := max (getIsl s n).floor (if isGrinderIsl n then 3 * s.plan.goalNow / 4 else s.plan.goalNow)

/-- The highest code of an island's range (R16). -/
def topCode (n : Nat) : Nat := if isGrinderIsl n then 0x50 else 0x68

/-- The point that a reading gives: the goal at the lowest voltage that passes, else the highest frequency that passes at the highest voltage,
within the island's range. -/
def readPoint (s : State) (r : IslandReading) : Nat × Nat :=
  let n := r.island.val
  if r.belowGoal then (0x46, max (bottomCode (getIsl s n)) (min (topCode n) r.fCode.val)) else (r.vCode.val, min (topCode n) (goalOf s n))

/-- The replicas show 12 % of the cycle in slack (R445). -/
def slackOk (r : IslandReading) : Bool := decide (24 ≤ r.slack.val)

/-- A sum of integers. -/
def sumInt (l : List Int) : Int := l.foldl (· + ·) 0

/-- The least-squares line through (hours, headroom): numerator and denominator of its slope. -/
def fitSlope (h : List (Nat × Nat)) : Int × Int :=
  let n : Int := h.length
  let x := sumInt (h.map (fun e => (e.2 : Int)))
  let y := sumInt (h.map (fun e => (e.1 : Int)))
  let xx := sumInt (h.map (fun e => (e.2 : Int) * e.2))
  let xy := sumInt (h.map (fun e => (e.2 : Int) * e.1))
  (n * xy - x * y, n * xx - x * x)

/-- The slope per 1,000 hours, to the nearest 0.1 mV. -/
def fitPerThousand (h : List (Nat × Nat)) : Int :=
  let (a, b) := fitSlope h
  if b = 0 then 0 else (2000 * a + b) / (2 * b)

/-- The hour at which the line reaches 0; all ones where it does not fall. -/
def fitZero (h : List (Nat × Nat)) : Nat :=
  let (a, b) := fitSlope h
  if b ≤ 0 ∨ 0 ≤ a then 0xFFFFFFFF
  else
    let x := sumInt (h.map (fun e => (e.2 : Int)))
    let y := sumInt (h.map (fun e => (e.1 : Int)))
    min 0xFFFFFFFE ((x * a - y * b) / ((h.length : Int) * a)).toNat

/-! ### Runs (R446, R449) -/

/-- Write the header copy with the lower sequence, or the missing one. -/
def putHeader (r : ModRecord) (hours runs : Nat) : ModRecord :=
  let seqOf := fun (h : Option MarginHeader) => (h.map (·.seq)).getD 0
  let new : MarginHeader := { hours := hours, runs := runs, seq := max (seqOf r.headerA) (seqOf r.headerB) + 1 }
  if r.headerA.isNone ∨ (r.headerB.isSome ∧ seqOf r.headerA ≤ seqOf r.headerB) then { r with headerA := some new } else { r with headerB := some new }

/-- Change the module record and the Postmaster's copy of it. -/
def updRecord (f : ModRecord → ModRecord) (s : State) : State :=
  { s with pm := { s.pm with record := f s.pm.record, copy := s.pm.copy.map f } }

/-- A point takes effect on an island. -/
def movePoint (n v f : Nat) (s : State) : State :=
  let changed := decide ((getIsl s n).vCode ≠ v ∨ (getIsl s n).target ≠ f)
  let s := updIsl s n (fun i => { i with vCode := v, target := f })
  if changed then { s with plan := { s.plan with changed := s.plan.changed + 1 } } else s

/-- A point has been verified: the margin history takes it, and a compute island has had one since the cold reset (R71). -/
def verified (n : Nat) (s : State) : State :=
  let s := updMargin s n (fun e => { e with vCode := (getIsl s n).vCode, fCode := (getIsl s n).target, run := s.plan.runNo })
  if isComputeIsl n then { s with blend := { s.blend with verified := setIns s.blend.verified (n / 256 * 84 + n % 256) } } else s

/-- A compute island that has had no verified point since the cold reset. -/
def unverified (s : State) (n : Nat) : Bool := isComputeIsl n && !setHas s.blend.verified (n / 256 * 84 + n % 256)

/-- An island's reading goes to its registers and history. -/
def takeReading (r : IslandReading) (s : State) : State :=
  let n := r.island.val
  let head := if r.belowGoal then 0 else r.headroom.val
  let i := getIsl s n
  let hist := ((head, s.plan.hours) :: i.history).take 30
  let s := setIsl s n { i with headroom := head, roDelta := r.roDelta, slack := r.slack.val, alarms := 0, belowGoal := r.belowGoal,
                               history := hist, predict := fitZero hist }
  updMargin s n (fun e => { e with headroom := head, roDelta := r.roDelta, belowGoal := r.belowGoal, slope := fitPerThousand hist })

/-- Movable islands that are powered and in service. -/
def liveIsls (s : State) : List Nat := movableIsls.filter (fun n => (getIsl s n).power != 0 && !(getIsl s n).faulty)

/-- The island of least headroom, the lowest-numbered of equals. -/
def leastHeadroom (s : State) : List Nat → Option Nat
  | [] => none
  | n :: t =>
    match leastHeadroom s t with
    | none => some n
    | some m => if (getIsl s n).headroom ≤ (getIsl s m).headroom then some n else some m

/-- A run begins. -/
def beginRun (kind : Nat) (s : State) : State :=
  { s with plan := { s.plan with running := true, goalNow := s.plan.goal, runKind := kind, runNo := s.plan.runNo + 1, changed := 0, lanesSpared := 0, retiredThisRun := 0 } }

/-- A run ends: low margins are logged, the run entry and the header are written. -/
def endRun (s : State) : State :=
  let live := liveIsls s
  let least := leastHeadroom s live
  let minH := match least with | some n => (getIsl s n).headroom | none => 0
  let predict := live.foldl (fun m n => min m (getIsl s n).predict) 0xFFFFFFFF
  let s := forEach live (fun n t =>
    let i := getIsl t n
    if i.headroom < 200 ∨ (i.predict ≠ 0xFFFFFFFF ∧ i.predict < t.plan.hours + 2000) then
      logEvent .marginLow islTrust (leBytes 2 n ++ leBytes 2 i.headroom ++ leBytes 4 i.predict) t
    else t) s
  let p := s.plan
  let e : RunEntry :=
    { run := p.runNo, hours := p.hours, kind := p.runKind, retired := p.retiredThisRun, changed := p.changed, minHeadroom := minH,
      minIsland := least.getD 0, predict := predict, lanesSpared := p.lanesSpared, dips := p.dipsSince, alarms := p.alarmsSince,
      maxTemp := p.maxTempSince }
  let s := updRecord (fun r => putHeader { r with runs := tabPut r.runs (p.runNo % 2928) e } p.hours p.runNo) s
  { s with plan := { p with running := false, lastRun := some s.devTime, predictHours := predict, minHeadroom := minH, dipsSince := 0,
                            alarmsSince := 0, maxTempSince := 0 } }

/-- The boot run in progress sets every island's point (R446) and ends; each island then ramps to its point (R17, R66). An island that cannot
pass goes out of service. -/
def bootRun (rs : List IslandReading) (s : State) : State :=
  endRun (forEach (rs.filter (fun r => (liveIsls s).contains r.island.val)) (fun r t =>
    let n := r.island.val
    let (v, f) := readPoint t r
    if slackOk r then takeReading r (verified n (movePoint n v f t)) else retireIsland n 1 t) s)

/-- Every live island runs at its target (R66). -/
def ramped (s : State) : Bool := (liveIsls s).all (fun n => (getIsl s n).current == (getIsl s n).target)

/-- The boot run has a reading of every island that it checks. -/
def readsAll (rs : List IslandReading) (s : State) : Bool := (liveIsls s).all (fun n => rs.any (fun r => r.island.val == n))

/-- An island of an Express partition. -/
def expressIsl (s : State) (n : Nat) : Bool :=
  if isComputeIsl n then match partOfPhys s (n / 256 * 84 + n % 256) with | some (_, p) => p.express | none => false
  else match partOfGrinder s (n / 256 * 16 + n % 256 - 84) with | some (_, p) => p.express | none => false

/-- A point of no more speed and no less voltage. -/
def moreSlack (i : Island) (v f : Nat) : Bool := decide (i.vCode ≤ v) && decide (f ≤ i.target)

/-- A daily run reads one island in place. -/
def dailyIsland (r : IslandReading) (s : State) : State :=
  let n := r.island.val
  if !(liveIsls s).contains n then s
  else
    let i := getIsl s n
    let (v, f) := readPoint s r
    let s := takeReading r s
    if moreSlack i v f then (if slackOk r then s else movePoint n v f s)
    else
      let gated : Bool := match i.gatedSince with | some t => decide (t + 100000 ≤ s.devTime) | none => false
      if gated && unused s n && !expressIsl s n && slackOk r then updIsl s n (fun i => { i with check := some (v, f), checkVoid := s.power.stretch.isSome }) else s

/-- A daily or requested run starts. -/
def dailyRun (kind : Nat) (rs : List IslandReading) (s : State) : State :=
  if s.plan.running ∨ !s.plan.bootDone ∨ s.mode ≠ .serving then s else forEach rs dailyIsland (beginRun kind s)

/-- A full slack check completes (R445): the island moves if it passed. A check voided by a supply dip is made
again, and so is one of a newly linked core, at the point that the search takes next (R71). -/
def checkDone (n : Nat) (pass : Bool) (r : IslandReading) (s : State) : State :=
  let i := getIsl s n
  match i.check with
  | none => s
  | some (v, f) =>
    if i.checkVoid then updIsl s n (fun i => { i with checkVoid := s.power.stretch.isSome })
    else
      let s := updIsl s n (fun i => { i with check := none })
      if pass then takeReading { r with island := BitVec.toFin (BitVec.ofNat 9 n) } (verified n (movePoint n v f s))
      else if v = 0x46 ∧ f ≤ bottomCode i then retireIsland n 1 s
      else if unverified s n then updIsl s n (fun i => { i with check := some (readPoint s { r with island := BitVec.toFin (BitVec.ofNat 9 n) }) })
      else s

/-- A daily or requested run ends once no check is in progress. -/
def runDone (s : State) : State :=
  if !s.plan.running ∨ s.plan.runKind = 0 ∨ movableIsls.any (fun n => (getIsl s n).check.isSome) then s
  else
    let p := s.plan
    let s := endRun s
    logEvent .marginRun islTrust (leBytes 4 p.runNo ++ leBytes 2 p.changed ++ leBytes 2 s.plan.minHeadroom ++ leBytes 4 s.plan.predictHours) s

/-- A write of `PLAN_CTRL` with `RUN` 1. -/
def planCtrlRun (goal : Nat) (rs : List IslandReading) (s : State) : State :=
  let s := if 0x48 ≤ goal ∧ goal ≤ 0x68 then { s with plan := { s.plan with goal := goal } } else s
  match s.plan.lastRun with
  | some t => if s.devTime < t + 3600000000000 then s else dailyRun 2 rs s
  | none => dailyRun 2 rs s

/-- A power-on hour has passed (R448). -/
def powerOnHour (s : State) : State :=
  if s.devTime < s.plan.lastHour + 3600000000000 ∨ s.mode = .off then s
  else
    let h := s.plan.hours + 1
    updRecord (fun r => putHeader r h s.plan.runNo) { s with plan := { s.plan with hours := h, lastHour := s.plan.lastHour + 3600000000000 } }

/-! ### Errors of on-die SRAM (R438) -/

/-- An uncorrectable scratchpad word: two at different addresses within 24 hours retire the island. -/
def scrubBad (p off : Nat) (s : State) : State :=
  let n := islOfCore p
  let s := setMemPoison s (scratchKey p off) true
  let s := logEvent .sramUncorrectable n (leBytes 4 off) s
  let i := getIsl s n
  let errs := (i.eccErrors.filter (fun e => decide (s.devTime < e.1 + 86400000000000))) ++ [(s.devTime, off)]
  let s := setIsl s n { i with eccUncorrected := i.eccUncorrected + 1, eccErrors := errs }
  if errs.any (fun e => e.2 != off) then retireIsland n 3 s else s

/-- A word of a powered scratchpad is read: corrected and counted, or its granule poisoned. -/
def readWord (p off : Nat) (ecc : EccOutcome) (s : State) : State :=
  if (getIsl s (islOfCore p)).power = 0 then s
  else match ecc with
    | .clean => s
    | .corrected => updIsl s (islOfCore p) (fun i => { i with eccCorrected := i.eccCorrected + 1 })
    | .uncorrectable => scrubBad p off s

/-- The scrub reads the next word of a scratchpad. -/
def scrub (p : Nat) (ecc : EccOutcome) (s : State) : State :=
  let n := islOfCore p
  let i := getIsl s n
  if i.power = 0 then s else readWord p (8 * i.scrubWord) ecc (setIsl s n { i with scrubWord := (i.scrubWord + 1) % 524288 })

/-- A semaphore's word: one that cannot be corrected leaves the semaphore at 0, and its takes go on waiting. -/
def readSem (i : Nat) (ecc : EccOutcome) (s : State) : State :=
  if ecc ≠ .uncorrectable ∨ (getIsl s (semIsland i)).power = 0 then s
  else logEvent .semUncorrectable (semIsland i) (leBytes 4 i) (setSem s i { getSem s i with value := 0 })

/-- Control state is served from its other copy; with both lost the module enters FAULTED (R462). -/
def readControl (part : Nat) (bothLost : Bool) (s : State) : State :=
  if !bothLost ∨ s.mode = .off ∨ s.mode = .faulted then s else enterFaulted 4 (logEvent .controlStateLost islTrust (leBytes 1 part) s)

/-- Another buffer of a powered island: the granule of a packet that it carries is poisoned. -/
def readBuffer (n off k g : Nat) (ecc : EccOutcome) (s : State) : State :=
  match s.net[k]? with
  | none => s
  | some p =>
    if ecc ≠ .uncorrectable ∨ (getIsl s n).power = 0 ∨ p.data.length ≤ 64 * g then s
    else
      let d := p.data.take (64 * g) ++ (sliceAt p.data (64 * g) 64).map (fun b => (b.1, true)) ++ p.data.drop (64 * g + 64)
      logEvent .sramUncorrectable n (leBytes 4 off) { s with net := setNth s.net k { p with data := d } }

/-- What a read of an SRAM meets. That errors which other reads meet come with this row is the model's: DESIGN CHOICE, log entry 88. -/
def sramRead (p : Nat) (r : SramRead) (s : State) : State :=
  match r with
  | .scrub ecc => scrub p ecc s
  | .word w ecc => readWord p (8 * w.val) ecc s
  | .semaphore i ecc => readSem i.val ecc s
  | .control part lost => readControl part.toNat lost s
  | .buffer n off k g ecc => readBuffer n.val off.toNat k g ecc s

/-! ### The log (R450-R452, R486) -/

/-- Write the oldest entry that waits at an island. -/
def logWrite (island : Nat) (s : State) : State :=
  match tabGet [] s.log.queues island with
  | [] => s
  | e :: t =>
    if s.mode = .off then s
    else
      let l := s.log
      let e := if e.event = .logDropped then { e with data := leBytes 4 l.droppedSince } else e
      let l := { l with queues := tabSet [] l.queues island t, slots := tabPut l.slots (l.next % 16384) { seq := l.next, entry := e },
                        next := l.next + 1, droppedSince := if e.event = .logDropped then 0 else l.droppedSince }
      let s := { s with log := l }
      let s := if eventSeverity e.event = 4 then { s with power := { s.power with alertCritical := true } } else s
      if l.irqSev ≤ eventSeverity e.event then raiseVector l.vector s else s

/-- A rate-limiting interval ends: one entry stands for the occurrences counted. -/
def intervalEnd (source code : Nat) (s : State) : State :=
  match s.log.intervals.find? (fun i => i.source == source && eventCode i.event == code) with
  | none => s
  | some i =>
    if s.devTime < i.endsAt then s
    else
      let l := { s.log with intervals := s.log.intervals.filter (fun j => !(decide (j.event = i.event) && j.source == i.source)) }
      if i.count = 0 then { s with log := l }
      else
        let (ok, l) := queueEntry { i.last with count := i.count } l
        { s with log := if ok then l else noteDropped s l }

/-! ### The rows -/

/-- `ISL_CLOCK_STEP` (R17). -/
def execIslClockStep (island : Fin 512) (s : State) : Out State := .next (clockStep island.val s)
/-- `SLACK_ALARM` (R443). -/
def execSlackAlarm (island : Fin 512) (s : State) : Out State := .next (slackAlarm island.val s)
/-- `PLANNER_DAILY_RUN` (R446). -/
def execPlannerDailyRun (readings : List IslandReading) (s : State) : Out State :=
  .next (match s.plan.lastRun with
    | some t => if t + 86400000000000 ≤ s.devTime then dailyRun 1 readings s else s
    | none => s)
/-- `PLAN_CTRL_RUN` (R446). -/
def execPlanCtrlRun (who : Agent) (goal : Fin 256) (readings : List IslandReading) (s : State) : Out State :=
  .next (whenReached who (planCtrlRun goal.val readings) s)
/-- `PLANNER_RUN_DONE` (R446). -/
def execPlannerRunDone (s : State) : Out State := .next (runDone s)
/-- `SLACK_CHECK_DONE` (R445). -/
def execSlackCheckDone (island : Fin 512) (pass : Bool) (reading : IslandReading) (s : State) : Out State :=
  .next (checkDone island.val pass reading s)
/-- `POWER_ON_HOUR` (R448). -/
def execPowerOnHour (s : State) : Out State := .next (powerOnHour s)
/-- `SCRATCHPAD_SCRUB` (R438). -/
def execScratchpadScrub (core : Fin 168) (met : SramRead) (s : State) : Out State := .next (sramRead core.val met s)
/-- `LOG_ENTRY_WRITE` (R451). -/
def execLogEntryWrite (island : Fin 512) (s : State) : Out State := .next (logWrite island.val s)
/-- `LOG_INTERVAL_END` (R486). -/
def execLogIntervalEnd (island : Fin 512) (code : Half) (s : State) : Out State := .next (intervalEnd island.val code.toNat s)

end Sys2Proof.Machine
end

