-- ==== Sys2Proof/Machine/SlhDsa.lean ====
section
/-! DEFINITION. SLH-DSA with SHAKE at 256 bits (FIPS 205): verification for the owner's signatures (R43, R427-R430) and key generation and signing for
the identity pair (R422, R431). The functions' names and order are those of the standard. -/

namespace Sys2Proof.Machine.Slh

/-- A parameter set: the hypertree's height and layers, and the height and number of the FORS trees; n is 32 and lg_w is 4. -/
structure Params where
  h : Nat
  d : Nat
  a : Nat
  k : Nat
deriving DecidableEq, Repr

/-- SLH-DSA-SHAKE-256s and -256f. -/
def small : Params := { h := 64, d := 8, a := 14, k := 22 }
def fast : Params := { h := 68, d := 17, a := 9, k := 35 }

/-- The height of one tree. -/
def Params.hp (p : Params) : Nat := p.h / p.d

/-- The bytes of a signature: R, the FORS part and the hypertree part. -/
def Params.forsBytes (p : Params) : Nat := p.k * (1 + p.a) * 32
def Params.sigBytes (p : Params) : Nat := 32 + p.forsBytes + (p.h + p.d * 67) * 32

/-- An address: layer, tree, type and three words. -/
structure Adrs where
  layer : Nat
  tree : Nat
  type : Nat
  w1 : Nat
  w2 : Nat
  w3 : Nat
deriving DecidableEq, Repr

def Adrs.bytes (a : Adrs) : List Byte :=
  beBytes 4 a.layer ++ beBytes 12 a.tree ++ beBytes 4 a.type ++ beBytes 4 a.w1 ++ beBytes 4 a.w2 ++ beBytes 4 a.w3

/-- The type changes and the three words are cleared. -/
def Adrs.turn (a : Adrs) (t : Nat) : Adrs := { a with type := t, w1 := 0, w2 := 0, w3 := 0 }

/-- F, H and T: one hash of the key's seed, the address and the message. -/
def tweak (seed : List Byte) (a : Adrs) (m : List Byte) : List Byte := shake256Bytes (seed ++ a.bytes ++ m) 32

/-- `n` digits of `b` bits, the first from the most significant bits of the bytes. -/
def digits (x : List Byte) (b n : Nat) : List Nat :=
  let len := ceilDiv (b * n) 8
  let v := beNat (x.take len)
  (List.range n).map (fun i => v / 2 ^ (8 * len - b * (i + 1)) % 2 ^ b)

/-! ### WOTS+ -/

/-- `n` steps of a chain from its step i. -/
def chain (seed : List Byte) (a : Adrs) : Nat → Nat → List Byte → List Byte
  | _, 0, x => x
  | i, n + 1, x => chain seed a (i + 1) n (tweak seed { a with w3 := i } x)

/-- The 67 digits signed: the message's 64 and their checksum's 3. -/
def wotsDigits (m : List Byte) : List Nat :=
  let d := digits m 4 64
  d ++ digits (beBytes 2 ((d.map (fun x => 15 - x)).sum * 16)) 4 3

/-- A WOTS+ public key of its 67 ends. -/
def wotsRoot (seed : List Byte) (a : Adrs) (ends : List (List Byte)) : List Byte := tweak seed { a.turn 1 with w1 := a.w1 } ends.flatten

/-- The public key that a signature gives. -/
def wotsPkFromSig (seed : List Byte) (a : Adrs) (sig m : List Byte) : List Byte :=
  wotsRoot seed a ((wotsDigits m).zipIdx.map (fun e => chain seed { a with w2 := e.2 } e.1 (15 - e.1) (sliceAt sig (32 * e.2) 32)))

/-- The secret of a chain. -/
def wotsSecret (sk seed : List Byte) (a : Adrs) (i : Nat) : List Byte :=
  shake256Bytes (seed ++ ({ a.turn 5 with w1 := a.w1, w2 := i } : Adrs).bytes ++ sk) 32

def wotsPk (sk seed : List Byte) (a : Adrs) : List Byte :=
  wotsRoot seed a ((List.range 67).map (fun i => chain seed { a with w2 := i } 0 15 (wotsSecret sk seed a i)))

def wotsSign (sk seed : List Byte) (a : Adrs) (m : List Byte) : List Byte :=
  ((wotsDigits m).zipIdx.map (fun e => chain seed { a with w2 := e.2 } 0 e.1 (wotsSecret sk seed a e.2))).flatten

/-! ### Trees: XMSS and FORS -/

/-- The root from a leaf and its path of siblings: `up` names a node's address by its height and index. -/
def climb (seed : List Byte) (up : Nat → Nat → Adrs) : List (List Byte) → Nat → Nat → List Byte → List Byte
  | [], _, _, node => node
  | s :: t, z, i, node =>
    climb seed up t (z + 1) (i / 2) (tweak seed (up (z + 1) (i / 2)) (if i % 2 = 0 then node ++ s else s ++ node))

/-- A node of a tree by its index and height. -/
def treeNode (seed : List Byte) (up : Nat → Nat → Adrs) (leaf : Nat → List Byte) : Nat → Nat → List Byte
  | 0, i => leaf i
  | z + 1, i => tweak seed (up (z + 1) i) (treeNode seed up leaf z (2 * i) ++ treeNode seed up leaf z (2 * i + 1))

/-- The siblings of a leaf's path. -/
def treePath (seed : List Byte) (up : Nat → Nat → Adrs) (leaf : Nat → List Byte) (height i : Nat) : List Byte :=
  (List.range height).flatMap (fun z => treeNode seed up leaf z (if i / 2 ^ z % 2 = 0 then i / 2 ^ z + 1 else i / 2 ^ z - 1))

/-- The siblings, 32 bytes each. -/
def siblings (b : List Byte) (n : Nat) : List (List Byte) := (List.range n).map (fun i => sliceAt b (32 * i) 32)

/-- The address of an XMSS tree's node, and of its leaf's WOTS+ key. -/
def xmssUp (a : Adrs) (z i : Nat) : Adrs := { a.turn 2 with w2 := z, w3 := i }
def xmssLeaf (a : Adrs) (i : Nat) : Adrs := { a.turn 0 with w1 := i }

def xmssPkFromSig (p : Params) (seed : List Byte) (a : Adrs) (i : Nat) (sig m : List Byte) : List Byte :=
  climb seed (xmssUp a) (siblings (sig.drop 2144) p.hp) 0 i (wotsPkFromSig seed (xmssLeaf a i) sig m)

def xmssNode (sk seed : List Byte) (a : Adrs) (z i : Nat) : List Byte := treeNode seed (xmssUp a) (fun i => wotsPk sk seed (xmssLeaf a i)) z i

def xmssSign (p : Params) (sk seed : List Byte) (a : Adrs) (i : Nat) (m : List Byte) : List Byte :=
  wotsSign sk seed (xmssLeaf a i) m ++ treePath seed (xmssUp a) (fun i => wotsPk sk seed (xmssLeaf a i)) p.hp i

/-- The address of layer j above the tree of a message. -/
def layerAdrs (p : Params) (tree j : Nat) : Adrs := { layer := j, tree := tree / 2 ^ (p.hp * j), type := 0, w1 := 0, w2 := 0, w3 := 0 }

/-- The leaf at layer j. -/
def layerLeaf (p : Params) (tree leaf j : Nat) : Nat := if j = 0 then leaf else tree / 2 ^ (p.hp * (j - 1)) % 2 ^ p.hp

/-- The bytes of a layer's signature. -/
def Params.layerBytes (p : Params) : Nat := (67 + p.hp) * 32

/-- The root that a hypertree signature gives. -/
def htRoot (p : Params) (seed : List Byte) (tree leaf : Nat) (sig m : List Byte) : List Byte :=
  (List.range p.d).foldl (fun node j => xmssPkFromSig p seed (layerAdrs p tree j) (layerLeaf p tree leaf j) (sliceAt sig (p.layerBytes * j) p.layerBytes) node) m

def htSign (p : Params) (sk seed : List Byte) (tree leaf : Nat) (m : List Byte) : List Byte :=
  ((List.range p.d).foldl (fun (e : List Byte × List Byte) j =>
    let a := layerAdrs p tree j
    let s := xmssSign p sk seed a (layerLeaf p tree leaf j) e.2
    (e.1 ++ s, xmssPkFromSig p seed a (layerLeaf p tree leaf j) s e.2)) ([], m)).1

/-- The address of a FORS node. -/
def forsUp (a : Adrs) (z i : Nat) : Adrs := { a with w2 := z, w3 := i }

/-- The secret of a FORS leaf. -/
def forsSecret (sk seed : List Byte) (a : Adrs) (i : Nat) : List Byte :=
  shake256Bytes (seed ++ ({ a.turn 6 with w1 := a.w1, w3 := i } : Adrs).bytes ++ sk) 32

/-- The key of the FORS trees' roots. -/
def forsRoot (seed : List Byte) (a : Adrs) (roots : List (List Byte)) : List Byte := tweak seed { a.turn 4 with w1 := a.w1 } roots.flatten

def forsPkFromSig (p : Params) (seed : List Byte) (a : Adrs) (sig md : List Byte) : List Byte :=
  let tree := 32 * (1 + p.a)
  forsRoot seed a ((digits md p.a p.k).zipIdx.map (fun e =>
    let b := sliceAt sig (tree * e.2) tree
    let leaf := e.2 * 2 ^ p.a + e.1
    climb seed (forsUp a) (siblings (b.drop 32) p.a) 0 leaf (tweak seed (forsUp a 0 leaf) (b.take 32))))

def forsSign (p : Params) (sk seed : List Byte) (a : Adrs) (md : List Byte) : List Byte :=
  ((digits md p.a p.k).zipIdx.map (fun e =>
    let leaf := e.2 * 2 ^ p.a + e.1
    forsSecret sk seed a leaf ++ treePath seed (forsUp a) (fun i => tweak seed (forsUp a 0 i) (forsSecret sk seed a i)) p.a leaf)).flatten

/-! ### Keys, signatures and their check -/

/-- A message's digest, cut into the FORS message, the tree and the leaf. -/
def digest (p : Params) (r seed root m : List Byte) : List Byte × Nat × Nat :=
  let n := ceilDiv (p.k * p.a) 8
  let t := ceilDiv (p.h - p.hp) 8
  let l := ceilDiv p.hp 8
  let d := shake256Bytes (r ++ seed ++ root ++ m) (n + t + l)
  (d.take n, beNat (sliceAt d n t) % 2 ^ (p.h - p.hp), beNat (sliceAt d (n + t) l) % 2 ^ p.hp)

/-- The address of the FORS trees. -/
def forsAdrs (tree leaf : Nat) : Adrs := { layer := 0, tree := tree, type := 3, w1 := leaf, w2 := 0, w3 := 0 }

/-- A signature over a message, the context string already before it, checks under a 64-byte public key. -/
@[irreducible] def verify (p : Params) (pk m sig : List Byte) : Bool :=
  let seed := pk.take 32
  let root := sliceAt pk 32 32
  let (md, tree, leaf) := digest p (sig.take 32) seed root m
  pk.length == 64 && sig.length == p.sigBytes &&
  htRoot p seed tree leaf (sig.drop (32 + p.forsBytes)) (forsPkFromSig p seed (forsAdrs tree leaf) (sliceAt sig 32 p.forsBytes) md) == root

/-- The public key of SK.seed and PK.seed. -/
@[irreducible] def publicKey (p : Params) (sk seed : List Byte) : List Byte := seed ++ xmssNode sk seed (layerAdrs p 0 (p.d - 1)) p.hp 0

/-- A signature over a message, the context string already before it, with the randomizer's 32 bytes. -/
@[irreducible] def sign (p : Params) (sk prf seed random m : List Byte) : List Byte :=
  let root := (publicKey p sk seed).drop 32
  let r := shake256Bytes (prf ++ random ++ m) 32
  let (md, tree, leaf) := digest p r seed root m
  let a := forsAdrs tree leaf
  let fors := forsSign p sk seed a md
  r ++ fors ++ htSign p sk seed tree leaf (forsPkFromSig p seed a fors md)

end Sys2Proof.Machine.Slh
end

