-- ==== Sys2Proof/Machine/Blend.lean ====
section
/-! DEFINITION. Blend loads, staged images and re-blends, phase by phase (R37-R76, R488). -/

namespace Sys2Proof.Machine

/-! ### Ends of a load -/

/-- The load in progress, in a phase and in the module state that it needs. -/
def inPhase (p : LoadPhase) (f : BlendLoad → State → State) (s : State) : State :=
  match s.blend.load with
  | none => s
  | some l => if l.phase = p ∧ s.mode = (if l.kind = .full then .awaitBlend else .serving) then f l s else s

def setLoad (s : State) (l : Option BlendLoad) : State := { s with blend := { s.blend with load := l } }

/-- The load ends, and its call returns a result of R64. -/
def endLoad (l : BlendLoad) (result : Dword) (s : State) : State := finishCall l.slot result.toNat [] (setLoad s none)

/-- An image is rejected (R63): nothing changes, and the result is logged with the image's `BLEND_ID`. -/
def rejectLoad (l : BlendLoad) (f : BlendFail) (phase : Nat) (s : State) : State :=
  let r := loadResult f phase
  endLoad l r (logEvent .blendRejected islTrust (leBytes 8 r.toNat ++ leBytes 8 (hdrBlendId l.image)) s)

/-! ### The calls (R66, R68, R415, R416, R488) -/

/-- A host image's address in the caller's half, 64-byte aligned (R414, R416). R416 states the alignment for BLEND_LOAD and BLEND_STAGE; that
REBLEND's `IMAGE_ADDR` needs it too (BAD_ARG) is the model's: DEDUCED, log entry 62. -/
def imageAddrOk (h a n : Nat) : Bool := a % 64 == 0 && inOwnHalf h a n

/-- No engine can reach the reservation: its stack is out of service (R38). -/
def reserveLost (s : State) : Bool := match s.blend.reserve with | some k => stackOffline s k | none => true

/-- Any load runs (R419). -/
def loadRuns (s : State) : Bool := s.blend.load.isSome || s.pm.carrierLoading.isSome

/-- A load begins. -/
def newLoad (kind : LoadKind) (k len : Nat) (phase : LoadPhase) (image : List Byte) (meas : Bits256) (x : CallSlot) : BlendLoad :=
  { kind := kind, slot := k, len := len, phase := phase, image := image, meas := meas, abortMode := kind == .reblend && argAt x 1 1 == 1,
    drainLimitUs := if kind = .reblend then argAt x 4 4 else 0, next := structureReset, target := 0, started := 0, roleChange := false,
    joining := [] }

/-- A call that names a host image: arguments, length, then whether another load runs. -/
def acceptImage (kind : LoadKind) (limit addr len k : Nat) (x : CallSlot) (caller : Option Nat) (s : State) : State × CallEnd :=
  if !imageAddrOk (caller.getD 0) addr len then (s, .now (loadCode pmBadArg 0) [])
  else if limit < len ∨ len < 0x100 + sigBlockLen then (s, .now (loadCode 0x03 0) [])
  else if loadRuns s then (s, .now (loadCode 0x24 0) [])
  else if kind ≠ .full ∧ reserveLost s then (s, .now (loadCode 0x21 0) [])
  else (setLoad s (some (newLoad kind k len .copying [] 0 x)), .later)

def loadRule (func : Nat) (st : ModState) : CallRule :=
  { func := func, hosts := true, carrier := fun _ => false, states := [st], named := [(0, 12)], load := true }

/-- REBLEND's own checks: a host image is copied, the staged one is validated at once. -/
def acceptReblend (k : Nat) (x : CallSlot) (caller : Option Nat) (s : State) : State × CallEnd :=
  let source := argAt x 0 1
  let mode := argAt x 1 1
  let limit := argAt x 4 4
  let addr := argAt x 8 8
  let len := argAt x 0x10 4
  if 1 < source ∨ 1 < mode ∨ (mode = 0) = (limit = 0) ∨ (source = 1 ∧ (addr ≠ 0 ∨ len ≠ 0)) then (s, .now (loadCode pmBadArg 0) [])
  else if source = 0 then acceptImage .reblend 0x1000000 addr len k x caller s
  else if loadRuns s then (s, .now (loadCode 0x24 0) [])
  else if reserveLost s then (s, .now (loadCode 0x21 0) [])
  else
    match s.blend.staged with
    | none => (s, .now (loadCode 0x21 0) [])
    | some (img, m) => (setLoad s (some (newLoad .reblend k img.length .validating img m x)), .later)

def reblendRule : CallRule :=
  { func := 8, hosts := true, carrier := fun x => argAt x 0 1 == 1, states := [.serving], named := [(0, 2), (4, 16)], load := true }

/-! ### Copy, measurement and signature (R38, R43, R44, R63) -/

/-- Base of the staging area, or of the half that holds a staged image. -/
def stagingBase (s : State) (kind : LoadKind) : Nat := reserveBase s + (if kind = .stage then 0x800000 else 0)

/-- The image has been copied, or its read failed; its header is checked. A host image of REBLEND over 8 MiB overwrites the half of the staging
area in which a staged image lies; the staged image is kept all the same: DESIGN CHOICE, log entry 62. -/
def copied (image : Option (List Byte)) (l : BlendLoad) (s : State) : State :=
  match image with
  | none => rejectLoad { l with image := [] } (failPlain pmHostFetch) 0 s
  | some b =>
    let img := padTo l.len b
    let s := hbmWrite s none (stagingBase s l.kind) (clean img) []
    let s := if l.kind = .stage then { s with blend := { s.blend with staged := none } } else s
    match checkHeader img l.len (decide (l.kind ≠ .full)) with
    | some f => rejectLoad { l with image := img } f 0 s
    | none => setLoad s (some { l with image := img, phase := .measuring })

def measured (l : BlendLoad) (s : State) : State :=
  setLoad s (some { l with meas := shake256 (signedMessage l.image), phase := .verifying })

/-- The context string of a blend's signature. -/
def blendContext : List Byte := [0x44, 0x45, 0x52, 0x4C, 0x41, 0x52, 0x2D, 0x42, 0x4C, 0x45, 0x4E, 0x44]

/-- What an SLH-DSA signature with a context string is over. -/
def withContext (ctx m : List Byte) : List Byte := 0 :: BitVec.ofNat 8 ctx.length :: ctx ++ m

/-- The owner's key and signature over an image: 0, or a code of R65. -/
def checkSignature (s : State) (ctx img : List Byte) : Nat :=
  if !ownerMatches s (sigPublicKey img) then 0x05
  else if !Slh.verify Slh.small (sigPublicKey img) (withContext ctx (signedMessage img)) (sigSignature img) then 0x04
  else 0

def signatureDone (l : BlendLoad) (s : State) : State :=
  let code := checkSignature s blendContext l.image
  if code ≠ 0 then rejectLoad l (failPlain code) 2 s
  else if l.kind = .stage then endLoad l (loadResult (failPlain 0) 6) { s with blend := { s.blend with staged := some (l.image, l.meas) } }
  else setLoad s (some { l with phase := .validating })

/-! ### Structure in force -/

/-- The dataflow mode in which a partition starts (R121): 0 grid, 1 fan. -/
def startMode (p : Partition) : Nat := if p.dataflow = 1 then 1 else 0

/-- The physical cores of a partition. -/
def partPhys (st : Structure) (pid : Nat) (p : Partition) : List Nat := p.cores.filterMap (fun l => tabFind st.spare (pid / 32 * 80 + l))

/-- The grinders of a partition. -/
def partGrinders (pid : Nat) (p : Partition) : List Nat := (maskBits 16 p.grinderMask).map (· + pid / 32 * 16)

/-- A compute island's scratchpad is written with zeros when it first powers up after a cold reset (R435). -/
def zeroScratch (p : Nat) (s : State) : State :=
  if setHas s.blend.zeroed p then s
  else
    let lo := scratchKey p 0
    let hi := lo + scratchSize
    { s with mem := s.mem.filter (fun e => decide (e.1 < lo) || decide (hi ≤ e.1)),
             poison := s.poison.filter (fun g => decide (g * 64 < lo) || decide (hi ≤ g * 64)),
             blend := { s.blend with zeroed := setIns s.blend.zeroed p } }

/-- Power up an island that was gated, at 1.2 GHz. -/
def powerUpIsl (n : Nat) (s : State) : State :=
  updIsl s n (fun i =>
    if i.power = 0 ∧ !i.faulty then { setCode s n 0x30 i with power := 2, target := 0x30, throttled := false, gatedSince := none } else i)

/-- A core that is linked and in no partition takes no work and stays clock-gated (R46). -/
def idleLinked (n : Nat) (s : State) : State :=
  updIsl s n (fun i => if i.power = 0 then i else { i with power := 1, gatedSince := i.gatedSince.or (some s.devTime) })

/-- The physical cores of an Express partition, whose islands have a floor (R59). -/
def expressPhys (st : Structure) : List Nat :=
  (st.parts.filter (fun e => e.2.express)).flatMap (fun e => e.2.cores.filterMap (fun l => tabFind st.spare (e.1 / 32 * 80 + l)))

/-- Floors of a partition's islands (R59). -/
def setFloors (cl : ClassDef) (pid : Nat) (p : Partition) (st : Structure) (s : State) : State :=
  let floor := if p.express then cl.expressFloor else 0
  let s := forEach (partPhys st pid p) (fun c t => updIsl t (islOfCore c) (fun i => { i with floor := floor })) s
  forEach (partGrinders pid p) (fun g t => updIsl t (islOfGrinder g) (fun i => { i with floor := min floor 0x50 })) s

/-- The linked cores and the partitions' grinders power up, a linked core in no partition stays clock-gated, and the others are gated (R30, R46). A
core in no Express partition has no floor (R59). -/
def powerStructure (st : Structure) (s : State) : State :=
  let cores := st.spare.map (·.2)
  let used := (st.parts.map (fun e => partPhys st e.1 e.2)).flatten
  let grs := (st.parts.map (fun e => partGrinders e.1 e.2)).flatten
  let s := forEach cores (fun c t => powerUpIsl (islOfCore c) (zeroScratch c t)) s
  let s := forEach (cores.filter (fun c => !used.contains c)) (fun c t => idleLinked (islOfCore c) t) s
  let s := forEach (cores.filter (fun c => !(expressPhys st).contains c)) (fun c t => updIsl t (islOfCore c) (fun i => { i with floor := 0 })) s
  let s := forEach grs (fun g t => powerUpIsl (islOfGrinder g) t) s
  let keep := cores.map islOfCore ++ grs.map islOfGrinder
  forEach (movableIsls.filter (fun n => !keep.contains n)) (fun n t => updIsl t n (fun i => { i with power := 0, floor := 0, gatedSince := none })) s

/-- A die's cache regions as a structure gives them: ways of no region, and ways out of service, are powered down (R53, R310). -/
def setRegions (st : Structure) (die : Nat) (s : State) : State :=
  let c := getCache s die
  let rs := st.regions.filter (fun e => e.1 / 8 == die)
  let ways : Tab Nat := (List.range 8).filterMap (fun w =>
    if setHas c.faulty w then none else (rs.find? (fun e => bitOf e.2.wayMask w)).map (fun e => (w, e.1 % 8)))
  setCache s die { c with wayRegion := ways, powered := ways.map (·.1), placement := rs.map (fun e => (e.1 % 8, e.2.placement)) }

/-- The mode of a partition's cores after a load or re-blend (R121). -/
def setModes (st : Structure) (pid : Nat) (p : Partition) (s : State) : State :=
  forEach (partPhys st pid p) (fun c t => updCore t c (fun x => { x with arrMode := startMode p, issueMode := startMode p, chain := none })) s

/-! ### Validation (R63, R69, R71) -/

/-- The invocations of a partition. -/
def invsOf (s : State) (pid : Nat) : List Nat := (s.qs.invs.filter (fun e => e.2.partition == pid)).map (·.1)

/-- The queues bound to a partition. -/
def queuesFor (s : State) (pid : Nat) : List Nat := (s.blend.cur.queues.filter (fun e => e.2.partition == pid)).map (·.1)

/-- The target stops fetching and drops what it has fetched; in abort mode its invocations end (R70, R71). -/
def quiesce (l : BlendLoad) (s : State) : State :=
  let s := { s with blend := { s.blend with quiesced := setIns s.blend.quiesced l.target } }
  let s := forEach (queuesFor s l.target) (fun q t => updQ t q (fun x => { x with staged := [] })) s
  if l.abortMode then forEach (invsOf s l.target) (fun i t => endEarly i .aborted 0 (abortBatches i t)) s else s

def validated (l : BlendLoad) (s : State) : State :=
  match validateImage s l.image with
  | (some f, _) => rejectLoad l f 3 s
  | (none, next) =>
    let l := { l with next := next, target := hdrTarget l.image, roleChange := hdrRoleChange l.image, started := s.devTime }
    if l.kind = .full then setLoad s (some { l with phase := .applying })
    else quiesce l (setLoad s (some { l with phase := .stopping }))

/-! ### A full load (R66) -/

/-- Apply a full image: islands, tables, semaphores, cache regions; the boot run starts. -/
def applyFull (l : BlendLoad) (s : State) : State :=
  let st := l.next
  let s := flushCaches s
  let s := { s with blend := { s.blend with applied := true, cur := st, meas := l.meas, blendId := BitVec.ofNat 64 (hdrBlendId l.image), reblends := 0,
                                            quiesced := [], staged := none },
                    sems := [], links := [] }
  let s := beginRun 0 (powerStructure st s)
  let s := forEach st.parts (fun e t => setModes st e.1 e.2 (setFloors st.classes e.1 e.2 st t)) s
  let s := forEach st.links (fun e t => resetLinkSems e.1 e.2 t) s
  let s := setCourierIslands st.role (setRegions st 1 (setRegions st 0 s))
  setLoad s (some { l with phase := .bootRun })

/-- Every point is set and every island runs at it: the module serves. -/
def enterServing (l : BlendLoad) (s : State) : State :=
  endLoad l (loadResult (failPlain 0) 6) (joinRing { s with mode := .serving, plan := { s.plan with bootDone := true } })

/-- The boot run has set every point; the module serves at once if every island already runs at it, and ramps first otherwise. -/
def bootRunDone (rs : List IslandReading) (l : BlendLoad) (s : State) : State :=
  if !readsAll rs s then s
  else
    let s := bootRun rs s
    if ramped s then enterServing l s else setLoad s (some { l with phase := .ramping })

/-- The islands ramp to their points: the module serves once each has reached its own. -/
def rampDone (l : BlendLoad) (s : State) : State := if ramped s then enterServing l s else s

/-! ### A re-blend (R70-R76) -/

/-- The links of a partition. -/
def linksFor (st : Structure) (pid : Nat) : List (Nat × LinkDef) :=
  (linksOfDie st (pid / 32)).filter (fun e => partOfEnd st (pid / 32) e.2.producer == some pid)

/-- The target's grinders have no batch. -/
def grindersIdle (s : State) (pid : Nat) : Bool :=
  match getPart s pid with
  | none => true
  | some p => (partGrinders pid p).all (fun g => (getGrinder s g).queue == [] && (getGrinder s g).active == [])

/-- The engines of a partition. -/
def enginesOf (s : State) (pid : Nat) : List Nat :=
  match getPart s pid with
  | none => []
  | some p => p.cores.map (· + pid / 32 * 80) ++ (partGrinders pid p).map engineOfGrinder

/-- The ways that change regions clean (R310), and those that leave every region. -/
def waysToClean (old new : Structure) (die : Nat) : List Nat × List Nat :=
  let has := fun (st : Structure) (w : Nat) => st.regions.any (fun e => e.1 / 8 == die && bitOf e.2.wayMask w)
  let clean := (List.range 8).filter (fun w => old.regions.any (fun e =>
    e.1 / 8 == die && bitOf e.2.wayMask w &&
    (match tabFind new.regions e.1 with
     | none => true
     | some d => decide (d.placement ≠ e.2.placement) || (if e.2.placement = .direct then d.wayMask != e.2.wayMask else !bitOf d.wayMask w))))
  (clean, clean.filter (fun w => !has new w))

/-- The target has stopped and its transfers are complete: its links drain, its segment caches empty, and ways that leave a region are cleaned. -/
def stopDone (l : BlendLoad) (s : State) : State :=
  if invsOf s l.target ≠ [] ∨ !grindersIdle s l.target then s
  else
    let links := linksFor s.blend.cur l.target
    let s := forEach links (fun e t => stopStreams e.1 t) s
    if links.any (fun e => (getLink s e.1).chunks != []) then s
    else
      let s := forEach links (fun e t => resetLink e.1 e.2 t) s
      let s := forEach (match getPart s l.target with | some p => partPhys s.blend.cur l.target p | none => []) (fun c t => updCore t c (fun x => { x with tiles := [] })) s
      let s := { s with seg := { s.seg with caches := (enginesOf s l.target).foldl tabDel s.seg.caches } }
      let (ways, out) := waysToClean s.blend.cur l.next (l.target / 32)
      setLoad (beginClean (l.target / 32) ways out s) (some { l with phase := .cleaning })

/-- The target fetches again; an Express latency counts from here (R74). -/
def resumeFetch (pid : Nat) (s : State) : State :=
  { s with blend := { s.blend with quiesced := setDel s.blend.quiesced pid, resumedAt := tabSet 0 s.blend.resumedAt pid s.devTime } }

/-- The re-blend is abandoned: fetching resumes under the old structure. -/
def abandon (code phase : Nat) (l : BlendLoad) (s : State) : State := endLoad l (loadResult (failPlain code) phase) (resumeFetch l.target s)

/-- Invocations of a complete-mode drain have not all ended within the limit (R70). -/
def drainLate (l : BlendLoad) (s : State) : State :=
  if l.abortMode ∨ invsOf s l.target = [] ∨ s.devTime < l.started + l.drainLimitUs * 1000 then s else abandon 0x23 4 l s

/-- The semaphores of a partition take their starting values (R213). -/
def resetSems (st : Structure) (pid : Nat) (s : State) : State :=
  match tabFind st.parts pid with
  | none => s
  | some p =>
    let lo := pid / 32 * 65536 + p.semBase
    let s := { s with sems := s.sems.filter (fun e => decide (e.1 < lo) || decide (lo + 64 * p.semUnits ≤ e.1)) }
    forEach (linksFor st pid) (fun e t => resetLinkSems e.1 e.2 t) s

/-- The point that a newly linked core's slack check starts from: its reading's, else its history's (R446). -/
def checkPoint (s : State) (rs : List IslandReading) (n : Nat) : Option (Nat × Nat) :=
  match rs.find? (fun r => r.island.val == n) with
  | some r => some (readPoint s r)
  | none => let e := marginEntry s n; if e.fCode = 0 then none else some (e.vCode, e.fCode)

/-- The physical cores that the new target links and the applied structure does not. -/
def newCores (cur next : Structure) (target : Nat) : List Nat :=
  match tabFind next.parts target with
  | none => []
  | some p => (partPhys next target p).filter (fun c => !cur.spare.any (fun e => e.2 == c))

/-- The cores of the target in a structure. -/
def partCores (st : Structure) (pid : Nat) : List Nat := match tabFind st.parts pid with | some p => partPhys st pid p | none => []

/-- The next structure comes into force: links without state, regions, semaphores, power, modes and floors (R71). -/
def enterNext (l : BlendLoad) (s : State) : State :=
  let die := l.target / 32
  let s := { s with blend := { s.blend with cur := l.next }, links := (linksFor l.next l.target).foldl (fun t e => tabDel t e.1) s.links }
  let s := resetSems l.next l.target (setRegions l.next die (powerStructure l.next s))
  let s := match tabFind l.next.parts l.target with
    | some p => setModes l.next l.target p (setFloors l.next.classes l.target p l.next s)
    | none => s
  forEach (partCores l.next l.target) (fun c t => updIsl t (islOfCore c) (fun i => if i.power = 1 then { i with power := 2, gatedSince := none } else i)) s

/-- A changed role takes effect (R76). -/
def enterRole (l : BlendLoad) (wasManager : Bool) (s : State) : State :=
  if !l.roleChange then s
  else
    let s := setCourierIslands l.next.role s
    holdDue (if !wasManager && l.next.role.manager then becomeManager s else s)

/-- The points of the target's islands: a newly linked core's own, checked where it is unverified, and the floors. -/
def enterPoints (rs : List IslandReading) (l : BlendLoad) (fresh : List Nat) (s : State) : State :=
  let s := forEach (fresh.filter (fun c => unverified s (islOfCore c))) (fun c t =>
    updIsl t (islOfCore c) (fun i => { i with check := checkPoint t rs (islOfCore c), checkVoid := t.power.stretch.isSome })) s
  let s := forEach (fresh.filter (fun c => !unverified s (islOfCore c))) (fun c t =>
    updIsl t (islOfCore c) (fun i => { i with target := (marginEntry t (islOfCore c)).fCode })) s
  let grs := match tabFind l.next.parts l.target with | some p => partGrinders l.target p | none => []
  forEach ((partCores l.next l.target).map islOfCore ++ grs.map islOfGrinder) (fun n t =>
    updIsl t n (fun i => if i.check.isSome then i else { i with target := max i.floor i.target })) s

/-- The ways are clean: the cores are checked, and the tables written (R71, R75). -/
def cleanDone (rs : List IslandReading) (l : BlendLoad) (s : State) : State :=
  let die := l.target / 32
  if (getCache s die).cleaning ≠ [] then s
  else
    let fresh := newCores s.blend.cur l.next l.target
    if (partCores l.next l.target).any (fun c => (getIsl s (islOfCore c)).faulty) then abandon 0x11 5 l (setRegions s.blend.cur die s)
    else if fresh.any (fun c => unverified s (islOfCore c) && (checkPoint s rs (islOfCore c)).isNone) then s
    else
      setLoad (enterPoints rs l fresh (enterRole l s.blend.cur.role.manager (enterNext l s))) (some { l with phase := .resuming, joining := fresh })

/-- The newly linked cores have been reset, and the target's islands are powered and at their floor: it serves again (R71). -/
def resumeTarget (l : BlendLoad) (s : State) : State :=
  let cores := partCores s.blend.cur l.target
  let waits := fun (c : Nat) => let i := getIsl s (islOfCore c)
                                !i.faulty && (i.check.isSome || decide (i.current < i.floor))
  if l.joining ≠ [] ∨ cores.any waits then s
  else
    let m := shake256 (leBytes 32 s.blend.meas.toNat ++ leBytes 32 l.meas.toNat)
    let s := resumeFetch l.target { s with blend := { s.blend with meas := m, reblends := s.blend.reblends + 1, staged := none } }
    let outage := min 0xFFFFFFFF (s.devTime - l.started)
    let s := logEvent .resetCause islTrust (leBytes 1 6) s
    endLoad l (loadResult (failPlain 0) 6)
      (logEvent .reblendDone islTrust (leBytes 1 l.target ++ leBytes 4 outage ++ leBytes 32 m.toNat) s)

/-! ### The rows -/

/-- `BLEND_LOAD` (R66). -/
def execBlendLoad (who : Agent) (slot : Fin 12) (notify : Bool) (vector : Fin 1024) (s : State) : Out State :=
  .next (pmCall (loadRule 6 .awaitBlend) (fun _ => true) who slot.val notify vector.val (fun x c t =>
    acceptImage .full 0x1000000 (argAt x 0 8) (argAt x 8 4) slot.val x c t) s)
/-- `BLEND_STAGE` (R415). -/
def execBlendStage (who : Agent) (slot : Fin 12) (notify : Bool) (vector : Fin 1024) (s : State) : Out State :=
  .next (pmCall (loadRule 7 .serving) (fun _ => true) who slot.val notify vector.val (fun x c t =>
    acceptImage .stage 0x800000 (argAt x 0 8) (argAt x 8 4) slot.val x c t) s)
/-- `REBLEND` (R68, R70). -/
def execReblend (who : Agent) (slot : Fin 12) (notify : Bool) (vector : Fin 1024) (s : State) : Out State :=
  .next (pmCall reblendRule (fun _ => true) who slot.val notify vector.val (acceptReblend slot.val) s)
/-- `BLEND_COPY_DONE` (R63). -/
def execBlendCopyDone (image : Option (List Byte)) (s : State) : Out State := .next (inPhase .copying (copied image) s)
/-- `BLEND_MEASURE_DONE` (R44). -/
def execBlendMeasureDone (s : State) : Out State := .next (inPhase .measuring measured s)
/-- `BLEND_SIGNATURE_DONE` (R43). -/
def execBlendSignatureDone (s : State) : Out State := .next (inPhase .verifying signatureDone s)
/-- `BLEND_VALIDATE_DONE` (R63). -/
def execBlendValidateDone (s : State) : Out State := .next (inPhase .validating validated s)
/-- `BLEND_APPLY_DONE` (R66). -/
def execBlendApplyDone (s : State) : Out State := .next (inPhase .applying applyFull s)
/-- `PLANNER_BOOT_RUN_DONE` (R66, R446): the run sets the points; given again, the ramp is complete. -/
def execPlannerBootRunDone (readings : List IslandReading) (s : State) : Out State :=
  .next (match s.blend.load with
    | some l => if l.phase = .ramping then inPhase .ramping rampDone s else inPhase .bootRun (bootRunDone readings) s
    | none => s)
/-- `REBLEND_STOP_DONE` (R71). -/
def execReblendStopDone (s : State) : Out State := .next (inPhase .stopping stopDone s)
/-- `DRAIN_TIMEOUT` (R70). -/
def execDrainTimeout (s : State) : Out State := .next (inPhase .stopping drainLate s)
/-- `REBLEND_CLEAN_DONE` (R71). -/
def execReblendCleanDone (readings : List IslandReading) (s : State) : Out State := .next (inPhase .cleaning (cleanDone readings) s)
/-- `REBLEND_RESUME` (R71). -/
def execReblendResume (s : State) : Out State := .next (inPhase .resuming resumeTarget s)

end Sys2Proof.Machine
end

