-- ==== Sys2Proof/Machine/HbmRows.lean ====
section
/-! DEFINITION. What the memory controllers and the caches do by themselves: fills, write-backs, cleans, the patrol, retraining pauses,
and atomics (R294, R299, R304, R306, R309). -/

namespace Sys2Proof.Machine

/-- No access of any class waits on an address's pseudo-channel: an idle slot (R288). -/
def idleSlot (s : State) (a : Nat) : Bool := !channelPaused s a && (rivals s (stackOf a) (pseudoOf a)).isEmpty

/-- Take the nth entry out of a list. -/
def dropNth {α : Type} (l : List α) (n : Nat) : List α := l.take n ++ l.drop (n + 1)

/-! ### Background fills (R304) -/

/-- A fill is dropped and counted. -/
def dropFill (die k : Nat) (s : State) : State :=
  let c := getCache s die
  setCache s die { c with fills := dropNth c.fills k, fillsDropped := inc64 c.fillsDropped 1 }

/-- A pending fill takes an idle slot and reads its sector. -/
def startFill (die k : Nat) (errs : List HbmError) (s : State) : State :=
  match (getCache s die).fills[k]? with
  | none => s
  | some f =>
    let a := f.line * 256
    if f.since + 2000 ≤ s.devTime ∨ !idleSlot s a then s
    else if stackOffline s (stackOf a) then dropFill die k (offlineAccess a s)
    else
      let (d, s) := dramRead s a 256 errs
      let c := getCache s die
      match allocLine { c with fills := dropNth c.fills k } s.devTime f.region f.line false (d.map (·.1))
          ((List.range 4).map (fun g => memPoison s (a + g * 64))) with
      | some c => setCache s die c
      | none => dropFill die k s

/-- A fill that has not started within 2 µs. -/
def lateFill (die k : Nat) (s : State) : State :=
  match (getCache s die).fills[k]? with
  | some f => if f.since + 2000 ≤ s.devTime then dropFill die k s else s
  | none => s

/-! ### Write-backs and cleans (R306, R309, R310) -/

/-- A write-back is performed and its entry leaves the buffer: a Bulk transfer of its pseudo-channel, in its turn (R288). -/
def writeBack (die k : Nat) (s : State) : State :=
  let c := getCache s die
  match c.evb[k]? with
  | none => s
  | some e =>
    let a := e.line * 256
    let r : Rival := { cls := 3, since := e.since, passed := e.passed, slots := 4 }
    if channelPaused s a then s
    else match takeSlots s (stackOf a) (pseudoOf a) r with
      | none => s
      | some w =>
        writeLine (passOlder (stackOf a) (pseudoOf a) r w (setCache s die { c with evb := dropNth c.evb k })) e.line e.bytes e.poison

/-- The lines that a clean has still to pass, and the write-backs that it waits for. -/
def cleanedLines (c : DieCache) : List (Nat × CacheLine) := linesWhere c (fun _ e => setHas c.cleaning e.way)
def cleanedBacks (c : DieCache) : List EvbEntry := c.evb.filter (·.cleaned)

/-- A clean completes: the rest of its walk passes the lines left, each dirty one through the eviction buffer, its last write-back is performed, and
departing ways power down. It does not complete while a paused channel holds one of its write-backs (R294). -/
def finishClean (die : Nat) (s : State) : State :=
  let c := getCache s die
  let out := (cleanedLines c).filter (·.2.dirty)
  if c.cleaning = [] ∨ out.any (fun e => channelPaused s (e.1 * 256)) ∨ (cleanedBacks c).any (fun e => channelPaused s (e.line * 256)) then s
  else
    let s := setCache s die
      { c with lines := c.lines.filter (fun e => !setHas c.cleaning e.2.way), evb := c.evb.filter (fun e => !e.cleaned), cleaning := [],
               departing := [], walk := [], walkTag := 0, powered := c.powered.filter (fun w => !setHas c.departing w),
               wayRegion := c.wayRegion.filter (fun e => !setHas c.departing e.1) }
    let s := forEach (cleanedBacks c) (fun e t => writeLine t e.line e.bytes e.poison) s
    forEach out (fun e t => writeLine t e.1 e.2.bytes e.2.poison) s

/-! ### The patrol (R299) -/

/-- Granules of a stack, and the length of a round. -/
def stackGranules : Nat := stackSize / 64
def patrolRound : Nat := 86400000000000

/-- The patrol reads its next granule in an idle slot. -/
def patrol (stack : Nat) (words : List WordError) (s : State) : State :=
  let m := getMc s stack
  let a := stack * stackSize + m.patrolNext * 64
  if (m.train ≠ 1 ∧ m.train ≠ 2) ∨ !idleSlot s a ∨ s.power.selfRefresh then s
  else
    updMc (dramCheck s (a / 64) words) stack (fun m =>
      let wraps := decide (m.patrolNext + 1 = stackGranules)
      { m with rdBytes := inc64 m.rdBytes 64, patrolNext := if wraps then 0 else m.patrolNext + 1,
               patrolStart := if wraps then s.devTime else m.patrolStart, patrolLate := m.patrolLate && !wraps })

/-- The patrol is behind its round. -/
def patrolBehind (stack : Nat) (s : State) : State :=
  let m := getMc s stack
  if (m.train ≠ 1 ∧ m.train ≠ 2) ∨ m.patrolLate ∨ s.devTime ≤ m.patrolStart + patrolRound then s
  else
    logEvent .hbmScrubLate (islOfMc stack) (leBytes 1 stack ++ leBytes 4 ((s.devTime - m.patrolStart - patrolRound) / 3600000000000))
      (setMc s stack { m with patrolLate := true })

/-! ### Lanes and retraining pauses (R292-R296) -/

/-- Write a fix into the record's lane map. -/
def recordFix (f : LaneFix) (s : State) : State :=
  let put := fun (r : ModRecord) => { r with lanes := r.lanes ++ [f] }
  { s with pm := { s.pm with record := put s.pm.record, copy := s.pm.copy.map put } }

/-- A stack goes out of service; the manual numbers no causes. -/
def stackOut (stack : Nat) (s : State) : State :=
  let (n, s) := drawFree s
  let s := updIsl (updMc s stack (fun m => { m with train := 3, pause := none })) (islOfMc stack) (fun i => { i with power := 0 })
  let s := if s.blend.reserve = some stack then { s with blend := { s.blend with staged := none } } else s
  logEvent .hbmStackOffline (islOfMc stack) (leBytes 1 stack ++ [Config.freeByte n 0]) s

/-- What replaces a failed lane: a spare of its channel, an erasure of its pseudo-channel, or nothing. -/
def fixFor (m : McState) (stack ch lane : Nat) : Option LaneFix :=
  let all := (m.fixes ++ m.coming ++ m.newFixes).filter (fun f => f.channel == ch)
  if (all.filter (fun f => !f.erased)).length < 2 then some { stack := stack, channel := ch, lane := lane, erased := false }
  else if all.any (fun f => f.erased && f.lane / 32 == lane / 32) then none
  else some { stack := stack, channel := ch, lane := lane, erased := true }

/-- A lane no longer trains: its fix waits for the channel's pause to end, or the stack goes out of service. -/
def laneFails (stack ch lane : Nat) (s : State) : State :=
  match fixFor (getMc s stack) stack ch lane with
  | none => stackOut stack s
  | some f =>
    let s := recordFix f (updMc s stack (fun m => { m with newFixes := m.newFixes ++ [f] }))
    let s := { s with plan := { s.plan with lanesSpared := s.plan.lanesSpared + 1 } }
    logEvent .hbmLaneSpared (islOfMc stack) (leBytes 1 stack ++ leBytes 1 ch ++ leBytes 1 lane ++ leBytes 1 (b2n f.erased)) s

/-- A die may start a pause: none is in progress, and none started in the last 100 µs. -/
def mayPause (s : State) (die : Nat) : Bool :=
  ((List.range 6).map (· + 6 * die)).all (fun k =>
    let m := getMc s k
    m.pause.isNone && (match m.lastPause with | some t => decide (t + 100000 ≤ s.devTime) | none => true))

/-- The planner re-trains a channel in service: spares and erasures that waited for the pause take effect in it, and a lane that fails in it gets one
for the channel's next pause (R294). -/
def startPause (stack ch : Nat) (lane : Option (Fin 64)) (s : State) : State :=
  let m := getMc s stack
  if (m.train ≠ 1 ∧ m.train ≠ 2) ∨ !s.plan.running ∨ !mayPause s (dieOfStack stack) then s
  else
    let (here, other) := (m.newFixes.filter (fun f => f.channel == ch), m.newFixes.filter (fun f => f.channel != ch))
    let s := setMc s stack { m with pause := some (ch, s.devTime), lastPause := some s.devTime, coming := here, newFixes := other }
    match lane with
    | some l => laneFails stack ch l.val s
    | none => s

/-- The pause ends: the channel's new spares and erasures take effect. -/
def endPause (stack : Nat) (s : State) : State :=
  let m := getMc s stack
  match m.pause with
  | none => s
  | some _ =>
    setMc s stack { m with pause := none, fixes := m.fixes ++ m.coming, coming := [], train := if m.coming.any (·.erased) then 2 else m.train }

/-! ### The rows -/

/-- `BACKGROUND_FILL_START` (R304). -/
def execBackgroundFillStart (die : Fin 2) (index : Nat) (errs : List HbmError) (s : State) : Out State :=
  .next (startFill die.val index errs s)
/-- `BACKGROUND_FILL_DROP` (R304). -/
def execBackgroundFillDrop (die : Fin 2) (index : Nat) (s : State) : Out State := .next (lateFill die.val index s)
/-- `EVICTION_WRITEBACK_DONE` (R306). -/
def execEvictionWritebackDone (die : Fin 2) (index : Nat) (s : State) : Out State := .next (writeBack die.val index s)
/-- `CACHE_CLEAN_DONE` (R309). -/
def execCacheCleanDone (die : Fin 2) (s : State) : Out State := .next (finishClean die.val s)
/-- `HBM_PATROL_READ` (R299). -/
def execHbmPatrolRead (stack : Fin 12) (words : List WordError) (s : State) : Out State := .next (patrol stack.val words s)
/-- `HBM_SCRUB_LATE` (R299). -/
def execHbmScrubLate (stack : Fin 12) (s : State) : Out State := .next (patrolBehind stack.val s)
/-- `HBM_RETRAIN_PAUSE_START` (R294). -/
def execHbmRetrainPauseStart (stack : Fin 12) (channel : Fin 16) (newSpare : Option (Fin 64)) (s : State) : Out State :=
  .next (startPause stack.val channel.val newSpare s)
/-- `HBM_RETRAIN_PAUSE_END` (R294). -/
def execHbmRetrainPauseEnd (stack : Fin 12) (s : State) : Out State := .next (endPause stack.val s)

end Sys2Proof.Machine
end

