-- ==== Sys2Proof/Machine/Manager.lean ====
section
/-! DEFINITION. The manager's tables: session records, prefix nodes, admission, step batches and receipts (R248, R252-R259, R267, R268, R402-R406). -/

namespace Sys2Proof.Machine

/-! ### Tables in HBM (R254, R404) -/

/-- A session record (R404). `promptLen`, `matched` and `tiles` lie in the Carrier's part: the tokens of the prompt, how many nodes of the chain
were there before the session, and the tiles of its region (R248). -/
structure Session where
  state : Nat
  worker : Nat
  cls : Nat
  ended : Nat
  nspace : Nat
  nMax : Nat
  length : Nat
  region : Nat
  chainNode : Nat
  chainLen : Nat
  context : Nat
  lastStep : Nat
  windowLo : Nat
  token : Nat
  admitted : Nat
  promptLen : Nat
  matched : Nat
  tiles : Nat
deriving DecidableEq, Repr

/-- A prefix node (R254): state 0 FREE, 1 FILLING, 2 READY, 3 BAD. -/
structure Node where
  hash : Nat
  parent : Nat
  depth : Nat
  state : Nat
  home : Nat
  refs : Nat
  children : Nat
  slot : Nat
  lastUse : Nat
  nspace : Nat
deriving DecidableEq, Repr

def noNode : Nat := 0xFFFFFFFF

/-- The bytes of a prefix region (R249): of a region of one tile. -/
def regionBytes : Nat := 10526720

/-- The bytes of a region of some tiles (R249): two halves of 80 layers of tile records. -/
def tilesBytes (tiles : Nat) : Nat := 2 * 80 * tiles * 65792

def parseSession (b : List Byte) : Session :=
  { state := fieldAt b 4 1, worker := fieldAt b 5 1, cls := fieldAt b 6 1, ended := fieldAt b 7 1, nspace := fieldAt b 8 8, nMax := fieldAt b 0x10 4,
    length := fieldAt b 0x14 4, region := fieldAt b 0x18 8, chainNode := fieldAt b 0x20 4, chainLen := fieldAt b 0x24 2, context := fieldAt b 0x26 2,
    lastStep := fieldAt b 0x28 8, windowLo := fieldAt b 0x30 4, token := fieldAt b 0x34 4, admitted := fieldAt b 0x38 8,
    promptLen := fieldAt b 0x40 4, matched := fieldAt b 0x44 4, tiles := fieldAt b 0x48 4 }

def sessionBytes (i : Nat) (x : Session) : List Byte :=
  leBytes 4 i ++ leBytes 1 x.state ++ leBytes 1 x.worker ++ leBytes 1 x.cls ++ leBytes 1 x.ended ++ leBytes 8 x.nspace ++ leBytes 4 x.nMax ++
  leBytes 4 x.length ++ leBytes 8 x.region ++ leBytes 4 x.chainNode ++ leBytes 2 x.chainLen ++ leBytes 2 x.context ++ leBytes 8 x.lastStep ++
  leBytes 4 x.windowLo ++ leBytes 4 x.token ++ leBytes 8 x.admitted ++ leBytes 4 x.promptLen ++ leBytes 4 x.matched ++
  leBytes 4 x.tiles

def parseNode (b : List Byte) : Node :=
  { hash := fieldAt b 0 16, parent := fieldAt b 0x10 4, depth := fieldAt b 0x14 2, state := fieldAt b 0x16 1, home := fieldAt b 0x17 1,
    refs := fieldAt b 0x18 4, children := fieldAt b 0x1C 4, slot := fieldAt b 0x20 8, lastUse := fieldAt b 0x28 8, nspace := fieldAt b 0x30 8 }

def nodeBytes (x : Node) : List Byte :=
  leBytes 16 x.hash ++ leBytes 4 x.parent ++ leBytes 2 x.depth ++ leBytes 1 x.state ++ leBytes 1 x.home ++ leBytes 4 x.refs ++ leBytes 4 x.children ++
  leBytes 8 x.slot ++ leBytes 8 x.lastUse ++ leBytes 8 x.nspace ++ zeros 8

/-- Session records follow the header page, and node records follow them (R404). -/
def sessionAddr (s : State) (i : Nat) : Nat := s.blend.cur.role.tableBase + 4096 + 128 * i
def nodeAddr (s : State) (k : Nat) : Nat := s.blend.cur.role.tableBase + 4096 + 128 * s.blend.cur.role.sessionLimit + 64 * k

def getSession (s : State) (i : Nat) : Session := parseSession (peekBytes s (sessionAddr s i) 128)
def putSession (i : Nat) (x : Session) (s : State) : State := tableWrite (sessionAddr s i) (sessionBytes i x) s
def getNode (s : State) (k : Nat) : Node := parseNode (peekBytes s (nodeAddr s k) 64)
def putNode (k : Nat) (x : Node) (s : State) : State := tableWrite (nodeAddr s k) (nodeBytes x) s
def updNode (k : Nat) (f : Node → Node) (s : State) : State := putNode k (f (getNode s k)) s

def nodeIxs (s : State) : List Nat := List.range s.blend.cur.role.prefixNodes
def sessionIxs (s : State) : List Nat := List.range s.blend.cur.role.sessionLimit

/-- This module is a manager that serves, and its Carrier runs (R402, R465). -/
def managing (s : State) : Bool := s.blend.cur.role.manager && s.pm.carrierRuns && decide (s.mode = .serving)

/-! ### Hashes and nodes (R252, R255-R259) -/

/-- The first 128 bits of SHAKE256. -/
def t128 (b : List Byte) : Nat := (shake256 b).toNat % 2 ^ 128

/-- "DERLAR-KVPREFIX". -/
def prefixLabel : List Byte := [0x44, 0x45, 0x52, 0x4C, 0x41, 0x52, 0x2D, 0x4B, 0x56, 0x50, 0x52, 0x45, 0x46, 0x49, 0x58]

/-- The hashes of the first blocks of a prompt. -/
def chainHashes : Nat → Nat → List Word → List Nat
  | 0, _, _ => []
  | n + 1, h, toks =>
    let h' := t128 (leBytes 16 h ++ ((toks.take 64).map (fun w => leBytes 4 w.toNat)).flatten)
    h' :: chainHashes n h' (toks.drop 64)

/-- The node of a hash that is there and not BAD. -/
def findNode (s : State) (h : Nat) : Option Nat :=
  (nodeIxs s).find? (fun k => let x := getNode s k; x.hash == h && (x.state == 1 || x.state == 2))

/-- The nodes of the longest prefix of a chain that are there. -/
def matchChain (s : State) : List Nat → List Nat
  | [] => []
  | h :: t => match findNode s h with | some k => k :: matchChain s t | none => []

/-- A node becomes FREE, and its parent loses a child. -/
def evictNode (k : Nat) (s : State) : State :=
  let x := getNode s k
  let s := putNode k { x with state := 0 } s
  if x.parent = noNode then s else updNode x.parent (fun p => { p with children := p.children - 1 }) s

/-- The node to evict: unused, without children, of the oldest use; at a home if one is named (R258). -/
def evictable (s : State) (home : Option Nat) : Option Nat :=
  let c := (nodeIxs s).filter (fun k => let x := getNode s k
                                        x.refs == 0 && x.children == 0 && (x.state == 2 || x.state == 3) && (match home with | some w => x.home == w | none => true))
  c.foldl (fun m k => match m with | none => some k | some j => if (getNode s k).lastUse < (getNode s j).lastUse then some k else some j) none

/-- A free pool slot of a worker, by its offset. -/
def freePool (s : State) (w : Nat) : Option Nat :=
  match tabFind s.courier.joins w with
  | none => none
  | some j => ((List.range j.poolSlots).map (· * regionBytes)).find? (fun o =>
      !(nodeIxs s).any (fun k => let x := getNode s k; x.state != 0 && x.home == w && x.slot == o))

/-- A free record. -/
def freeNode (s : State) : Option Nat := (nodeIxs s).find? (fun k => (getNode s k).state == 0)

/-- Make room for a node at a worker: a slot, then a record. -/
def makeNodeRoom (w : Nat) (s : State) : State :=
  let s := if (freePool s w).isSome then s else match evictable s (some w) with | some k => evictNode k s | none => s
  if (freeNode s).isSome then s else match evictable s none with | some k => evictNode k s | none => s

/-- Insert nodes for hashes below a parent, until one gets no slot or record: the nodes inserted. -/
def insertNodes (ns w : Nat) : List Nat → Nat → Nat → State → List Nat × State
  | [], _, _, s => ([], s)
  | h :: t, parent, depth, s =>
    let s := makeNodeRoom w s
    match freePool s w, freeNode s with
    | some slot, some k =>
      let x : Node := { hash := h, parent := parent, depth := depth + 1, state := 1, home := w, refs := 1, children := 0, slot := slot,
                        lastUse := s.devTime, nspace := ns }
      let s := putNode k x s
      let s := if parent = noNode then s else updNode parent (fun p => { p with children := p.children + 1 }) s
      let (ks, s) := insertNodes ns w t k (depth + 1) s
      (k :: ks, s)
    | _, _ => ([], s)

/-- The nodes of a chain, from its deepest. -/
def chainUp (s : State) : Nat → Nat → List Nat
  | 0, _ => []
  | n + 1, k => if k = noNode then [] else k :: chainUp s n (getNode s k).parent

/-- A session's chain, from its first block. -/
def chainOf (s : State) (x : Session) : List Nat := (chainUp s x.chainLen x.chainNode).reverse

/-- A session's own nodes: those that its prefill fills. -/
def ownNodes (s : State) (x : Session) : List Nat := (chainOf s x).drop x.matched

/-- Release a session's chain (R257). -/
def releaseChain (x : Session) (s : State) : State := forEach (chainOf s x) (fun k t => updNode k (fun n => { n with refs := n.refs - 1 }) t) s

/-- A session not yet dispatched whose chain has a BAD node takes fresh nodes from there on (R256). -/
def repairChain (i : Nat) (s : State) : State :=
  let x := getSession s i
  let chain := chainOf s x
  let good := chain.takeWhile (fun k => (getNode s k).state != 3)
  if x.state ≠ 1 ∨ x.lastStep ≠ 0 ∨ good.length = chain.length then s
  else
    let hs := (chain.drop good.length).map (fun k => (getNode s k).hash)
    let s := forEach (chain.drop good.length) (fun k t => updNode k (fun n => { n with refs := n.refs - 1 }) t) s
    let (ks, s) := insertNodes x.nspace x.worker hs ((good.getLast?).getD noNode) good.length s
    putSession i { x with chainNode := (((good ++ ks).getLast?).getD noNode), chainLen := (good ++ ks).length, matched := min x.matched good.length } s

/-- A node becomes BAD, and sessions not yet dispatched leave it. -/
def setBad (k : Nat) (s : State) : State :=
  let s := updNode k (fun n => { n with state := 3 }) s
  forEach ((sessionIxs s).filter (fun i => (getSession s i).state == 1)) repairChain s

/-! ### Admission (R248, R255) -/

/-- The tiles of a sequence region after a chain of nodes (R248, R255). -/
def regionTiles (nMax nodes : Nat) : Nat := ceilDiv (nMax - 64 * nodes) 64

/-- A region of some tiles is free at a worker: 4 KiB aligned, within the 48-bit virtual addresses, and apart from the region of every session of the
worker and the context that is there. -/
def regionFree (s : State) (worker context base tiles : Nat) : Bool :=
  base % 4096 == 0 && decide (base + tilesBytes tiles ≤ 2 ^ 48) &&
  (sessionIxs s).all (fun i =>
    let x := getSession s i
    x.state == 0 || x.worker != worker || x.context != context || !overlaps base (tilesBytes tiles) x.region (tilesBytes x.tiles))

/-- Admit a prompt. The Carrier's choice of the region's place is the command's; a place that is not free admits nothing. -/
def admitSession (a : Admission) (s : State) : State :=
  let n := a.prompt.length
  let i := a.session.val
  if !managing s ∨ s.blend.cur.role.sessionLimit ≤ i ∨ (getSession s i).state ≠ 0 ∨ n = 0 ∨ a.nMax.val < n ∨ !mirrored s then s
  else
    let hs := if a.nspace = 0 then [] else chainHashes ((n - 1) / 64) (t128 (prefixLabel ++ leBytes 8 a.nspace.toNat)) a.prompt
    let found := matchChain s hs
    let t := forEach found (fun k t => updNode k (fun x => { x with refs := x.refs + 1, lastUse := t.devTime }) t) s
    let (made, t) := insertNodes a.nspace.toNat a.worker.val (hs.drop found.length) ((found.getLast?).getD noNode) found.length t
    let chain := found ++ made
    let tiles := regionTiles a.nMax.val chain.length
    if !regionFree s a.worker.val a.context.val a.region.toNat tiles then s
    else
      putSession i
        { state := 1, worker := a.worker.val, cls := a.cls.val, ended := 0, nspace := a.nspace.toNat, nMax := a.nMax.val, length := 0,
          region := a.region.toNat, chainNode := (chain.getLast?).getD noNode, chainLen := chain.length, context := a.context.val, lastStep := 0,
          windowLo := a.windowLo.toNat, token := 0, admitted := s.devTime, promptLen := n, matched := found.length, tiles := tiles } t

/-! ### Step batches (R267, R268) -/

/-- A session may take a step of a worker now. -/
def stepReady (s : State) (w i : Nat) : Bool :=
  let x := getSession s i
  x.worker == w && x.ended == 0 &&
  ((x.state == 2 && decide (x.length < x.nMax)) ||
   (x.state == 1 && x.lastStep == 0 && ((chainOf s x).take x.matched).all (fun k => (getNode s k).state == 2)))

/-- A session's entry of the step table, its chain starting at an index of the chain list. -/
def stepEntry (s : State) (all : List Nat) (i off : Nat) : List Byte :=
  let x := getSession s i
  let shared := all.any (fun j => j != i && (chainOf s (getSession s j)).any ((chainOf s x).contains ·))
  leBytes 4 i ++ leBytes 4 x.length ++ leBytes 8 x.region ++ leBytes 4 off ++ leBytes 2 x.chainLen ++ leBytes 2 (b2n shared) ++ leBytes 4 x.token ++
  leBytes 4 x.windowLo

/-- The step table. -/
def stepTable (s : State) (all : List Nat) : List Nat → Nat → List Byte
  | [], _ => []
  | i :: t, off => stepEntry s all i off ++ stepTable s all t (off + (getSession s i).chainLen)

/-- One chain-list entry on a worker: the prefix region's context virtual address, in the worker's own pool by its JOIN, or through a peer-homed
segment of the worker's Carrier. -/
def chainEntry (j : JoinRec) (w : Nat) (x : Node) : List Byte :=
  leBytes 8 (if x.home = w then j.poolBase.toNat + x.slot else Config.peerChain w x.home x.slot)

/-- The chain list of some sessions, in the order of the step table. -/
def chainList (s : State) (j : JoinRec) (w : Nat) (is : List Nat) : List Byte :=
  is.flatMap (fun i => (chainOf s (getSession s i)).flatMap (fun k => chainEntry j w (getNode s k)))

/-- Send a worker a step of some of its sessions, once the standby has acknowledged what records it (R406). The step table and the chain list that the enclosure names are kept with the step until its receipt:
the manual gives no message that carries them into the worker's HBM. DESIGN CHOICE, log entry 59. -/
def buildStep (w q : Nat) (id : Dword) (is : List Nat) (env enc : List Byte) (s : State) : State :=
  match tabFind s.courier.joins w with
  | none => s
  | some j =>
    let ok := managing s && mirrored s && storeRoom s && s.courier.present.contains w && decide (is.length ≤ j.capacity) && is != [] && decide (id ≠ 0) &&
      (tabFind s.courier.tables id.toNat).isNone && is.all (fun i => decide (i < s.blend.cur.role.sessionLimit) && stepReady s w i) &&
      decide (is.eraseDups.length = is.length) && decide (j.firstQueue ≤ q) && decide (q < j.firstQueue + j.queueCount)
    if !ok then s
    else
      let cls := (is.head?.map (fun i => (getSession s i).cls)).getD 1
      let s := { s with courier := { s.courier with tables := tabPut s.courier.tables id.toNat (w, stepTable s is is 0, chainList s j w is) } }
      let s := forEach is (fun i t => let x := getSession t i
                                      putSession i { x with state := if x.state = 1 then 1 else 3, lastStep := id.toNat } t) s
      sendSteps { s with courier := { s.courier with heldSteps := s.courier.heldSteps ++ [(w, cls, q, clean (leBytes 8 id.toNat ++ padTo 64 env ++ enc))] } }

/-- A session's step has returned (R256, R257). -/
def sessionReturns (early : Option Nat) (rs : List StepResult) (i : Nat) (s : State) : State :=
  let x := getSession s i
  let own := if x.state = 1 then ownNodes s x else []
  let r := rs.find? (fun r => r.session.val == i)
  let s := forEach own (fun k t => if early.isSome then setBad k t else if (getNode t k).state = 1 then updNode k (fun n => { n with state := 2 }) t else t) s
  let len := if x.state = 1 then x.promptLen else x.length + 1
  let why : Nat := match early with
    | some e => e
    | none => let e := match r with | some r => r.ended.val | none => 0
              if e ≠ 0 then e else if x.nMax ≤ len then 1 else 0
  let y := { x with length := if early.isSome then x.length else len, token := match r with | some r => r.token.toNat | none => x.token,
                    windowLo := match r.bind (·.windowLo) with | some l => l.toNat | none => x.windowLo, ended := why }
  if why = 0 then putSession i { y with state := 2 } s else putSession i { y with state := 0 } (releaseChain x s)

/-- How a receipt ends its sessions: aborted, or their host lost; none where the step completed (R221, R404). -/
def earlyEnd (receipt : List Byte) : Option Nat :=
  let st := fieldAt receipt 0 1
  if st = statusCode .hostLost then some 4
  else if st = statusCode .aborted ∨ st = statusCode .late ∨ st = statusCode .segmentFault then some 3 else none

/-- A worker's step receipt. -/
def stepReturned (h : CrHead) (epoch : Nat) (id : Dword) (receipt : List Byte) (rs : List StepResult) (s : State) : State :=
  inFlow h (inPoint h) (ackMsg h) (fun t =>
    let t := ackMsg h t
    if !managing t ∨ epoch < t.courier.epoch ∨ (tabFind t.courier.tables id.toNat).isNone then t
    else
      let t := { t with courier := { t.courier with tables := tabDel t.courier.tables id.toNat } }
      forEach ((sessionIxs t).filter (fun i => let x := getSession t i; x.lastStep == id.toNat && (x.state == 1 || x.state == 3)))
        (sessionReturns (earlyEnd receipt) rs) t) s

/-! ### The rows -/

/-- `SESSION_ADMIT` (R255). -/
def execSessionAdmit (admission : Admission) (s : State) : Out State := .next (admitSession admission s)
/-- `STEP_BATCH_BUILD` (R267). -/
def execStepBatchBuild (worker : Fin 64) (queue : Fin 1024) (id : Dword) (sessions : List (Fin 65536)) (envelope enclosure : List Byte) (s : State) : Out State :=
  .next (buildStep worker.val queue.val id (sessions.map (·.val)) envelope enclosure s)
/-- `PREFIX_NODE_BAD_REPORT` (R259). -/
def execPrefixNodeBadReport (home : Fin 64) (slot : Dword) (s : State) : Out State :=
  .next (if managing s then
      forEach ((nodeIxs s).filter (fun k => let x := getNode s k; x.state != 0 && x.home == home.val && x.slot == slot.toNat)) setBad s
    else s)
/-- `STEP_RECEIPT` (R405). -/
def execStepReceipt (head : CrHead) (_queue : Fin 1024) (epoch : Word) (id : Dword) (receipt : List Byte) (results : List StepResult) (s : State) : Out State :=
  .next (stepReturned head epoch.toNat id receipt results s)

end Sys2Proof.Machine
end

