-- ==== Sys2Proof/Machine/MlKem.lean ====
section
/-! DEFINITION. ML-KEM-1024 (FIPS 203): the encapsulation key and decapsulation of R422 and R433. The functions' names are those of the standard. -/

namespace Sys2Proof.Machine.Kem

/-- A polynomial: 256 numbers below q. -/
abbrev Poly := List Nat

def q : Nat := 3329

def add (a b : Poly) : Poly := List.zipWith (fun x y => (x + y) % q) a b
def sub (a b : Poly) : Poly := List.zipWith (fun x y => (x + q - y) % q) a b
def scale (c : Nat) (a : Poly) : Poly := a.map (fun x => c * x % q)

/-- A power of ζ = 17. -/
def zeta (e : Nat) : Nat := 17 ^ (e % 256) % q

/-- The transform of a polynomial modulo X^(2^(n+1)) - ζ^e: the remainders modulo its two factors, in turn. -/
def nttFrom : Nat → Nat → Poly → Poly
  | 0, _, f => f
  | n + 1, e, f =>
    let lo := f.take (2 ^ (n + 1))
    let hi := scale (zeta (e / 2)) (f.drop (2 ^ (n + 1)))
    nttFrom n (e / 2) (add lo hi) ++ nttFrom n (e / 2 + 128) (sub lo hi)

/-- Its inverse. -/
def unttFrom : Nat → Nat → Poly → Poly
  | 0, _, f => f
  | n + 1, e, f =>
    let a := unttFrom n (e / 2) (f.take (2 ^ (n + 1)))
    let b := unttFrom n (e / 2 + 128) (f.drop (2 ^ (n + 1)))
    scale 1665 (add a b) ++ scale (1665 * zeta (256 - e / 2)) (sub a b)

def ntt (f : Poly) : Poly := nttFrom 7 128 f
def untt (f : Poly) : Poly := unttFrom 7 128 f

/-- The odd exponents of the 128 quadratic factors, in the transform's order. -/
def gammas : Nat → Nat → List Nat
  | 0, e => [e]
  | n + 1, e => gammas n (e / 2) ++ gammas n (e / 2 + 128)

/-- The product of two transforms, pair by pair. -/
def mulPairs : List Nat → Poly → Poly → Poly
  | e :: es, a :: b :: f, c :: d :: g => (a * c + b * d % q * zeta e) % q :: (a * d + b * c) % q :: mulPairs es f g
  | _, _, _ => []

def mul (a b : Poly) : Poly := mulPairs (gammas 7 128) a b

/-- The sum of the products of two vectors. -/
def dot (a b : List Poly) : Poly := (List.zipWith mul a b).foldl add (List.replicate 256 0)

/-- Numbers below q, 12 bits each, from a stream. -/
def sampleFrom : List Byte → List Nat
  | a :: b :: c :: t => ([a.toNat + 256 * (b.toNat % 16), b.toNat / 16 + 16 * c.toNat].filter (· < q)) ++ sampleFrom t
  | _ => []

/-- `SampleNTT`: of 1,344 bytes of the stream, which hold 896 candidates, the first 256 below q. -/
def sampleNtt (b : List Byte) : Poly := (sampleFrom (shake128Bytes b 1344)).take 256

/-- `SamplePolyCBD` of 128 bytes of the stream of a seed and a number. -/
def sampleCbd (seed : List Byte) (n : Nat) : Poly :=
  (shake256Bytes (seed ++ leBytes 1 n) 128).flatMap (fun b => [b.toNat % 16, b.toNat / 16].map (fun v => (v % 2 + v / 2 % 2 + q - v / 4 % 2 - v / 8) % q))

/-- `ByteEncode` and `ByteDecode` of d bits a number. -/
def encode (d : Nat) (f : Poly) : List Byte := leBytes (32 * d) (f.foldr (fun x v => x + 2 ^ d * v) 0)
def decode (d : Nat) (b : List Byte) : Poly := (List.range 256).map (fun i => leNat (b.take (32 * d)) / 2 ^ (d * i) % 2 ^ d)

def compress (d x : Nat) : Nat := (2 * x * 2 ^ d + q) / (2 * q) % 2 ^ d
def decompress (d y : Nat) : Nat := (2 * q * y + 2 ^ d) / 2 ^ (d + 1)

/-- The matrix of a public seed, an entry at a row and a column. -/
def entry (rho : List Byte) (i j : Nat) : Poly := sampleNtt (rho ++ leBytes 1 j ++ leBytes 1 i)

/-- Four polynomials by their number. -/
def four (f : Nat → Poly) : List Poly := (List.range 4).map f

/-- The secret vector's transform and the encapsulation key of the seed d. -/
def keyGen (d : List Byte) : List Poly × List Byte :=
  let g := sha3x512 (d ++ [4])
  let rho := g.take 32
  let sigma := g.drop 32
  let s := four (fun i => ntt (sampleCbd sigma i))
  let t := four (fun i => add (dot (four (entry rho i)) s) (ntt (sampleCbd sigma (4 + i))))
  (s, t.flatMap (encode 12) ++ rho)

/-- The encapsulation key of the seed d (R422). -/
@[irreducible] def encapsKey (d : List Byte) : List Byte := (keyGen d).2

/-- `K-PKE.Encrypt`. -/
def encrypt (ek m r : List Byte) : List Byte :=
  let t := four (fun i => (decode 12 (sliceAt ek (384 * i) 384)).map (· % q))
  let rho := sliceAt ek 1536 32
  let y := four (fun i => ntt (sampleCbd r i))
  let u := four (fun i => add (untt (dot (four (fun j => entry rho j i)) y)) (sampleCbd r (4 + i)))
  let v := add (add (untt (dot t y)) (sampleCbd r 8)) ((decode 1 m).map (decompress 1))
  u.flatMap (fun f => encode 11 (f.map (compress 11))) ++ encode 5 (v.map (compress 5))

/-- `K-PKE.Decrypt`. -/
def decrypt (s : List Poly) (c : List Byte) : List Byte :=
  let u := four (fun i => (decode 11 (sliceAt c (352 * i) 352)).map (decompress 11))
  let v := (decode 5 (sliceAt c 1408 160)).map (decompress 5)
  encode 1 ((sub v (untt (dot s (u.map ntt)))).map (compress 1))

/-- `ML-KEM.Decaps` with the pair of the seeds d and z: the shared secret, another one where the ciphertext is not what it should be. -/
@[irreducible] def decaps (d z c : List Byte) : List Byte :=
  let (s, ek) := keyGen d
  let m := decrypt s c
  let g := sha3x512 (m ++ sha3x256 ek)
  if encrypt ek m (g.drop 32) = c then g.take 32 else shake256Bytes (z ++ c) 32

end Sys2Proof.Machine.Kem
end

