-- ==== Sys2Proof/Machine/PmRows.lean ====
section
/-! DEFINITION. The Postmaster's calls and the boot (R292, R300, R369, R370, R373, R390, R392, R405, R410-R434, R439-R441). -/

namespace Sys2Proof.Machine

/-! ### What several calls share -/

/-- A call of R415 that is no load. -/
def plainRule (func : Nat) (hosts carrier : Bool) (states : List ModState) (named : List (Nat × Nat)) : CallRule :=
  { func := func, hosts := hosts, carrier := fun _ => carrier, states := states, named := named, load := false }

/-- What a call that takes time will answer. -/
def setDue (k code : Nat) (reply : List Byte) (s : State) : State × CallEnd :=
  (updSlot s k (fun x => { x with due := some (BitVec.ofNat 64 code, reply) }), .later)

/-- QUOTE, OWNER_REGISTER and OWNER_TRANSFER run one at a time (R419). -/
def trustBusy (s : State) (k : Nat) : Bool :=
  (List.range 12).any (fun j => j != k && decide ((getSlot s j).state = 1) && [2, 3, 4].contains (getSlot s j).func)

/-- A range of contexts. -/
def ctxRange (x : CallSlot) : List Nat := (List.range (argAt x 2 2)).map (· + argAt x 0 2)

/-! ### CAPS and QUOTE (R417, R431) -/

/-- `MOD_REV` (R3). -/
def modRev : Nat := 0x01031111

/-- The calls of R415. -/
def allFuncs : List Nat := [1, 2, 3, 4, 5, 6, 7, 8, 0x10, 0x11, 0x12, 0x13, 0x14, 0x20, 0x21, 0x22, 0x23, 0x30, 0x31, 0x32, 0x40, 0x41, 0x50, 0x51]

/-- The capability block (R417). -/
def capsBlock (s : State) : List Byte :=
  leBytes 4 modRev ++ leBytes 4 1 ++ leBytes 16 ((allFuncs.map (2 ^ ·)).foldl (· + ·) 0) ++ leBytes 4 7 ++ leBytes 4 0x4000000 ++ leBytes 4 0x1000000 ++
  leBytes 8 (reserveBase s) ++ zeros 20

/-- `MOD_STATE.STATE` (R461). -/
def modeCode : ModState → Nat
  | .off => 0 | .rom => 1 | .awaitCarrier => 2 | .awaitBlend => 3 | .serving => 4 | .parked => 5 | .faulted => 6

/-- ASCII text as bytes. -/
def ascii (t : String) : List Byte := t.toList.map (fun c => BitVec.ofNat 8 c.toNat)

/-- What is derived from the seed for a key pair: part k, of 32 bytes, of the hash of the seed and a label (R422). -/
def derivedPart (s : State) (label : String) (k : Nat) : List Byte :=
  sliceAt (shake256Bytes (leBytes 32 (s.pm.seed.getD 0).toNat ++ ascii label) 96) (32 * k) 32

/-- The parts of the identity pair, SK.seed, SK.prf and PK.seed, and of the ML-KEM pair, d and z (R422). -/
def identityPart (s : State) (k : Nat) : List Byte := derivedPart s "DERLAR-ID-SIG" k
def kemPart (s : State) (k : Nat) : List Byte := derivedPart s "DERLAR-ID-KEM" k

/-- The identity's public key, and the encapsulation key (R422). -/
def identityKey (s : State) : List Byte := Slh.publicKey Slh.fast (identityPart s 0) (identityPart s 2)
def kemKey (s : State) : List Byte := Kem.encapsKey (kemPart s 0)

/-- Bytes 0x000-0x73F of a quote. -/
def quoteHead (s : State) (nonce : List Byte) : List Byte :=
  leBytes 4 0x544F5551 ++ leBytes 2 1 ++ leBytes 2 3 ++ leBytes 8 s.pm.serial.toNat ++ leBytes 4 modRev ++ leBytes 1 (modeCode s.mode) ++ zeros 11 ++
  nonce ++ leBytes 32 s.pm.romHash.toNat ++ leBytes 32 s.pm.carrierMeas.toNat ++ leBytes 32 s.blend.meas.toNat ++ leBytes 32 (ownerHash s).toNat ++
  leBytes 8 s.devTime ++ leBytes 8 s.blend.blendId.toNat ++ leBytes 8 s.pm.carrierVersion.toNat ++ leBytes 4 s.blend.reblends ++ zeros 4 ++
  padTo 64 (identityKey s) ++ padTo 1568 (kemKey s)

/-- A quote: the head and its signature. -/
def quoteBytes (s : State) (nonce : List Byte) : List Byte :=
  let h := quoteHead s nonce
  h ++ padTo 49856 (Slh.sign Slh.fast (identityPart s 0) (identityPart s 1) (identityPart s 2) (padTo 32 (Config.signRandom h))
    (withContext (ascii "DERLAR-QUOTE") h))

/-- Write bytes to host memory for a call, in 4 KiB pieces. -/
def writeHost (h : Nat) (why : HostWriteFor) (a : Nat) (b : List Byte) (s : State) : State :=
  forEach (splitRange a b.length) (fun e t =>
    sendWrite { host := h, addr := (e.1 - hostBase) % 2 ^ 39, bytes := sliceAt b e.2.2 e.2.1, marks := 0, for_ := why, invocation := 0,
                trans := none, seq := 0 } t) s

def quoteSize : Nat := 51712

def quote (k : Nat) (x : CallSlot) (caller : Option Nat) (s : State) : State × CallEnd :=
  let h := caller.getD 0
  let a := argAt x 0x20 8
  if !imageAddrOk h a quoteSize then (s, .now pmBadArg [])
  else if trustBusy s k then (s, .now pmBusy [])
  else setDue k pmOk (leBytes 4 quoteSize) (writeHost h (.quote k) a (quoteBytes s (argBytes x 0 32)) s)

/-! ### The owner (R423, R428-R430) -/

/-- Overwrite the owner copy with the lower sequence, or the invalid one. -/
def putOwner (hash : Bits256) (counter : Word) (r : ModRecord) : ModRecord :=
  match r.ownerA, r.ownerB with
  | some a, some b =>
    if a.seq.toNat < b.seq.toNat then { r with ownerA := some { hash := hash, counter := counter, seq := b.seq + 1 } }
    else { r with ownerB := some { hash := hash, counter := counter, seq := a.seq + 1 } }
  | some a, none => { r with ownerB := some { hash := hash, counter := counter, seq := a.seq + 1 } }
  | none, b => { r with ownerA := some { hash := hash, counter := counter, seq := (match b with | some b => b.seq + 1 | none => 1) } }

/-- The transfer counter in force. -/
def ownerCounter (s : State) : Word := match ownerNow s.pm.record with | some c => c.counter | none => 0

/-- What OWNER_REGISTER's signature is over. -/
def registerStatement (s : State) : List Byte := ascii "DERLAR-OWNER-REG" ++ leBytes 8 s.pm.serial.toNat

/-- What OWNER_TRANSFER's signatures are over. -/
def transferStatement (s : State) (newKey : List Byte) : List Byte :=
  ascii "DERLAR-OWNER-XFER" ++ leBytes 8 s.pm.serial.toNat ++ leBytes 4 ((ownerCounter s).toNat + 1) ++ leBytes 32 (shake256 newKey).toNat

/-- An owner's signature with no context string. -/
def ownerSigned (key m sig : List Byte) : Bool := Slh.verify Slh.small key (withContext [] m) sig

def ownerRegister (k : Nat) (signature : Option (List Byte)) (x : CallSlot) (caller : Option Nat) (s : State) : State × CallEnd :=
  let key := argBytes x 0 64
  if !inOwnHalf (caller.getD 0) (argAt x 0x40 8) 29792 then (s, .now pmBadArg [])
  else if trustBusy s k then (s, .now pmBusy [])
  else if ownerHash s ≠ 0 then (s, .now pmOwner [])
  else
    match signature with
    | none => setDue k pmHostFetch [] s
    | some b =>
      if !ownerSigned key (registerStatement s) (padTo 29792 b) then setDue k pmSignature [] s
      else
        let h := shake256 key
        setDue k pmOk [] (logEvent .ownerRegistered islTrust (leBytes 32 h.toNat) (updRecord (putOwner h 0) s))

def ownerTransfer (k : Nat) (signatures : Option (List Byte)) (x : CallSlot) (caller : Option Nat) (s : State) : State × CallEnd :=
  let key := argBytes x 0 64
  let newKey := argBytes x 0x40 64
  if !inOwnHalf (caller.getD 0) (argAt x 0x80 8) 59584 then (s, .now pmBadArg [])
  else if trustBusy s k then (s, .now pmBusy [])
  else if !ownerMatches s key then (s, .now pmOwner [])
  else
    match signatures with
    | none => setDue k pmHostFetch [] s
    | some b =>
      let b := padTo 59584 b
      let m := transferStatement s newKey
      if !ownerSigned key m (b.take 29792) || !ownerSigned newKey m (b.drop 29792) then setDue k pmSignature [] s
      else
        let h := shake256 newKey
        let n := ownerCounter s + 1
        setDue k pmOk [] (logEvent .ownerTransferred islTrust (leBytes 32 h.toNat ++ leBytes 4 n.toNat) (updRecord (putOwner h n) s))

/-! ### The Carrier (R411, R426, R427) -/

def carrierLimit : Nat := 0x4000000
def mib2 : Nat := 0x200000

/-- The Carrier region that a load names (R427). -/
def regionOk (s : State) (base size len : Nat) : Bool :=
  base % mib2 == 0 && size % mib2 == 0 && decide (len ≤ size) && decide (size ≤ 2 ^ 32) && inService s base size && !meetsAny base size (reservation s)

def carrierLoad (k : Nat) (x : CallSlot) (caller : Option Nat) (s : State) : State × CallEnd :=
  let addr := argAt x 0 8
  let len := argAt x 8 4
  let base := argAt x 0x10 8
  let size := argAt x 0x18 8
  if !imageAddrOk (caller.getD 0) addr len then (s, .now (loadCode pmBadArg 0) [])
  else if carrierLimit < len ∨ len < 0x100 + sigBlockLen then (s, .now (loadCode 0x03 0) [])
  else if !regionOk s base size len then (s, .now (loadCode pmBadArg 0) [])
  else if loadRuns s then (s, .now (loadCode 0x24 0) [])
  else ({ s with pm := { s.pm with carrierLoading := some { slot := k, base := base, size := size, imageLen := len, image := [] } } }, .later)

/-- The header checks of a Carrier image, in the order of R488: 0, or a code of R65. -/
def carrierHeader (img : List Byte) (len : Nat) : Nat :=
  let so := fieldAt img 0x0C 4
  if fieldAt img 0 4 ≠ 0x52524143 then 0x01
  else if fieldAt img 4 2 ≠ 1 then 0x02
  else if fieldAt img 8 4 ≠ len then 0x03
  else if so + sigBlockLen ≠ len ∨ so % 64 ≠ 0 then 0x03
  else if so ≤ fieldAt img 0x10 4 then 0x03
  else if fieldAt img so 4 ≠ 0x47534143 then 0x01
  else if fieldAt img (so + 4) 2 ≠ 2 ∨ fieldAt img (so + 8) 4 ≠ 29792 then 0x02
  else if !allZero (sliceAt img 6 2) || !allZero (sliceAt img 0x14 4) || !allZero (sliceAt img 0x20 224) || !allZero (sliceAt img (so + 6) 2) ||
      !allZero (sliceAt img (so + 0xC) 4) then 0x02
  else 0

def carrierContext : List Byte := ascii "DERLAR-CARRIER"

/-- The control-processor clusters. -/
def controlIsls : List Nat := [islIx 0 125, islIx 1 125]

/-- The control processors start: their islands run, the watchdog counts from now, and the mail that waited is handed over. -/
def startCarrier (s : State) : State :=
  let s := forEach controlIsls (fun n t => updIsl t n (fun i => { i with power := 2 })) s
  carrierTakesMail { s with pm := { s.pm with carrierRuns := true }, power := { s.power with wdogKick := s.devTime } }

/-- The copy, the measurement and the check of a Carrier image end. -/
def carrierLoaded (image : Option (List Byte)) (s : State) : State :=
  match s.pm.carrierLoading with
  | none => s
  | some c =>
    if s.mode ≠ .awaitCarrier then s
    else
      let s := { s with pm := { s.pm with carrierLoading := none } }
      let done := fun (code phase : Nat) (t : State) => finishCall c.slot (loadCode code phase) [] t
      match image with
      | none => done pmHostFetch 0 s
      | some b =>
        let img := padTo c.imageLen b
        let s := hbmWrite s none c.base (clean img) []
        let head := carrierHeader img c.imageLen
        if head ≠ 0 then done head 0 s
        else
          let code := checkSignature s carrierContext img
          if code ≠ 0 then done code 2 s
          else
            let s := { s with mode := .awaitBlend, pm := { s.pm with
              carrierBase := c.base, carrierSize := c.size, carrierMeas := shake256 (signedMessage img),
              carrierVersion := BitVec.ofNat 64 (fieldAt img 0x18 8), carrierEntry := fieldAt img 0x10 4, carrierSigOffset := fieldAt img 0x0C 4 } }
            done 0 6 (startCarrier s)

/-! ### Contexts and queues (R369, R405, R420) -/

/-- Nothing holds a context (R420): no segment, queue, key, grinder table or group. -/
def contextFree (s : State) (c : Nat) : Bool :=
  s.seg.entries.all (fun e => e.1 / 64 != c || decide (e.2.home = .empty)) &&
  s.qs.queues.all (fun e => !e.2.bound || e.2.context != c) &&
  s.pm.keys.all (fun e => e.2.context != c) &&
  s.stores.all (fun e => e.2.tables.all (fun t => t.2.owner != c)) &&
  s.courier.groups.all (fun e => e.2.context != c)

/-- A segment call that names one of some contexts is in progress (R419). -/
def segCallOn (s : State) (l : List Nat) : Bool := s.seg.calls.any (fun c => l.contains c.context)

def ctxArgsOk (x : CallSlot) : Bool :=
  decide (argAt x 4 1 ≤ 1) && decide (1 ≤ argAt x 2 2) && decide (argAt x 0 2 + argAt x 2 2 ≤ 4096)

def claimContexts (x : CallSlot) (caller : Option Nat) (s : State) : State × CallEnd :=
  let h := caller.getD 0
  let l := ctxRange x
  if !ctxArgsOk x then (s, .now pmBadArg [])
  else if l.any (fun c => match tabFind s.pm.contexts c with | some g => g != h | none => false) then (s, .now pmNotPermitted [])
  else ({ s with pm := { s.pm with contexts := l.foldl (fun t c => tabPut t c h) s.pm.contexts } }, .now pmOk [])

/-- The release itself, once the segment calls before it are over. -/
def releaseNow (h : Nat) (l : List Nat) (s : State) : State × Nat :=
  if !l.all (ownsContext s h) then (s, pmNotPermitted)
  else if !l.all (contextFree s) then (s, pmWrongState)
  else ({ s with pm := { s.pm with contexts := l.foldl tabDel s.pm.contexts } }, pmOk)

def releaseContexts (k : Nat) (x : CallSlot) (caller : Option Nat) (s : State) : State × CallEnd :=
  if !ctxArgsOk x then (s, .now pmBadArg [])
  else if segCallOn s (ctxRange x) then (updSlot s k (fun y => { y with waits := ctxRange x }), .later)
  else let (s, code) := releaseNow (caller.getD 0) (ctxRange x) s; (s, .now code [])

def queueContext (x : CallSlot) (caller : Option Nat) (s : State) : State × CallEnd :=
  let h := caller.getD 0
  let q := argAt x 0 2
  let c := argAt x 2 2
  let f := argAt x 4 1
  if 1 < f then (s, .now pmBadFunc [])
  else if 1024 ≤ q ∨ 4096 ≤ c then (s, .now pmBadArg [])
  else if !claims s h q || !ownsContext s h c then (s, .now pmNotPermitted [])
  else if (getQ s q).enable then (s, .now pmWrongState [])
  else (updQ s q (fun y => { y with context := c, bound := true, ringFeedOk := f == 1 }), .now pmOk [])

def ringArgsOk (x : CallSlot) : Bool :=
  decide (argAt x 4 1 ≤ 1) && decide (1 ≤ argAt x 2 2) && decide (argAt x 0 2 + argAt x 2 2 ≤ 1024)

def ringSet (x : CallSlot) (s : State) : State × CallEnd :=
  let l := ctxRange x
  if !ringArgsOk x then (s, .now pmBadArg [])
  else if l.any (fun q => !(getQ s q).ringFeedOk) then (s, .now pmNotPermitted [])
  else if l.any (fun q => (queueBind s q).isNone) then (s, .now pmWrongState [])
  else (forEach l (fun q t => updQ t q (fun y => { y with ringFed := true })) s, .now pmOk [])

def ringClear (x : CallSlot) (s : State) : State × CallEnd :=
  let l := ctxRange x
  if !ringArgsOk x then (s, .now pmBadArg [])
  else if l.any (fun q => (getQ s q).ringFed && (getQ s q).enable) then (s, .now pmWrongState [])
  else (forEach l (fun q t => updQ t q (fun y => { y with ringFed := false, fed := [] })) s, .now pmOk [])

/-! ### Save pools and aborts (R370, R373) -/

def savePool (x : CallSlot) (s : State) : State × CallEnd :=
  let pid := argAt x 0 1
  let base := argAt x 8 8
  let n := argAt x 0x10 4
  let bytes := n * slotBytes s pid
  let inUse := match tabFind s.qs.pools pid with | some p => decide (p.used ≠ []) | none => false
  if (getPart s pid).isNone ∨ base % 4096 ≠ 0 ∨ 65535 < n then (s, .now pmBadArg [])
  else if inUse then (s, .now pmWrongState [])
  else
    let without := { s with qs := { s.qs with pools := tabDel s.qs.pools pid } }
    if n = 0 then (without, .now pmOk [])
    else if !inService s base bytes then (s, .now pmBadArg [])
    else if meetsAny base bytes (protectedRanges without) || segmentOver s base bytes then (s, .now pmProtected [])
    else ({ s with qs := { s.qs with pools := tabPut s.qs.pools pid { base := base, slots := n, used := [] } } }, .now pmOk [])

def abortInv (x : CallSlot) (caller : Option Nat) (s : State) : State × CallEnd :=
  let i := argAt x 0 8
  match getInv s i with
  | none => (s, .now pmBadArg [])
  | some v =>
    if v.early.isSome then (s, .now pmBadArg [])
    else
      let own : Bool := match caller with | some h => claims s h v.queue | none => true
      if !own then (s, .now pmNotPermitted []) else (endEarly i .aborted 0x32 (abortBatches i s), .now pmOk [])

/-! ### Keys (R285, R432-R434) -/

/-- The key that a wrapped one holds (R433). -/
def unwrapKey (s : State) (x : CallSlot) : Option Bits256 :=
  let k := Kem.decaps (kemPart s 0) (kemPart s 1) (argBytes x 0x10 1568)
  let kek := leBytes 32 (shake256 (k ++ ascii "DERLAR-KEYWRAP")).toNat
  (aesGcmOpen kek (argBytes x 0x630 12) (leBytes 8 s.pm.serial.toNat ++ ascii "DERLAR-MODELKEY") (argBytes x 0x640 32) (argBytes x 0x660 16)).map
    (fun b => BitVec.ofNat 256 (leNat (padTo 32 b)))

def keyInstall (k : Nat) (x : CallSlot) (caller : Option Nat) (s : State) : State × CallEnd :=
  let i := argAt x 0 2
  let c := argAt x 2 2
  if 4096 ≤ i ∨ 4096 ≤ c then (s, .now pmBadArg [])
  else if !ownsContext s (caller.getD 0) c then (s, .now pmNotPermitted [])
  else if (tabFind s.pm.keys i).isSome then (s, .now pmFull [])
  else
    match unwrapKey s x with
    | none => setDue k pmUnwrap [] s
    | some key => setDue k pmOk [] { s with pm := { s.pm with keys := tabPut s.pm.keys i { key := key, context := c } } }

/-- A key of one of the caller's contexts. -/
def ownKey (s : State) (h i : Nat) : Option KeySlot := (tabFind s.pm.keys i).filter (fun k => ownsContext s h k.context)

def keyBind (x : CallSlot) (caller : Option Nat) (s : State) : State × CallEnd :=
  let h := caller.getD 0
  let i := argAt x 0 2
  let c := argAt x 2 2
  if 4096 ≤ i ∨ 4096 ≤ c then (s, .now pmBadArg [])
  else
    match ownKey s h i with
    | none => (s, .now pmNotPermitted [])
    | some v =>
      if !ownsContext s h c then (s, .now pmNotPermitted [])
      else ({ s with pm := { s.pm with keys := tabPut s.pm.keys i { v with context := c } } }, .now pmOk [])

def keyRemove (x : CallSlot) (caller : Option Nat) (s : State) : State × CallEnd :=
  let i := argAt x 0 2
  if 4096 ≤ i then (s, .now pmBadArg [])
  else
    match ownKey s (caller.getD 0) i with
    | none => (s, .now pmNotPermitted [])
    | some _ => ({ s with pm := { s.pm with keys := tabDel s.pm.keys i } }, .now pmOk [])

/-! ### Export windows and groups (R390, R392) -/

/-- The HBM segments of a host's own contexts, as ranges. -/
def ownHbm (s : State) (h : Nat) : List (Nat × Nat) :=
  (s.seg.entries.filter (fun e => ownsContext s h (e.1 / 64) && decide (e.2.home = .local) && decide (e.2.dbase < hbmTop))).map
    (fun e => (e.2.dbase, e.2.length))

/-- A range lies inside a union of ranges. -/
def covered (l : List (Nat × Nat)) : Nat → Nat → Nat → Bool
  | 0, _, n => n == 0
  | f + 1, a, n =>
    if n = 0 then true
    else match l.find? (fun r => decide (r.1 ≤ a) && decide (a < r.1 + r.2)) with
      | none => false
      | some r => let m := r.1 + r.2 - a; covered l f (a + m) (n - m)

def exportWindow (x : CallSlot) (caller : Option Nat) (s : State) : State × CallEnd :=
  let w := argAt x 0 1
  let r := argAt x 1 1
  let base := argAt x 8 8
  let n := argAt x 0x10 8
  let mine := ownHbm s (caller.getD 0)
  let put := fun (t : Tab ExportWin) => ({ s with courier := { s.courier with windows := t } }, CallEnd.now pmOk [])
  if 7 < r then (s, .now pmBadFunc [])
  else if 64 ≤ w ∨ base % 4096 ≠ 0 ∨ n % 4096 ≠ 0 ∨ hbmTop < base + n then (s, .now pmBadArg [])
  else if n = 0 then put (tabDel s.courier.windows w)
  else if !covered mine (mine.length + 1) base n then (s, .now pmBadArg [])
  else put (tabPut s.courier.windows w
    { base := base, length := n, read := bitOf r 0, write := bitOf r 1, atomic := bitOf r 2, sources := argAt x 0x18 8 })

/-- The group record that the arguments spell. -/
def parseGroup (x : CallSlot) : GroupRec :=
  { handoff := argAt x 2 1 == 1, cls := argAt x 3 1, context := argAt x 4 2, source := argAt x 6 1, members := argAt x 8 8, base := argAt x 0x10 8,
    row := argAt x 0x18 4, rows := argAt x 0x1C 2, sem := argAt x 0x1E 2 }

/-- The fields of a group record are in range. -/
def groupArgsOk (x : CallSlot) (g : GroupRec) : Bool :=
  decide (argAt x 0 2 < 256) && decide (argAt x 2 1 ≤ 1) && decide (g.cls ≤ 3) && (if g.handoff then decide (g.source < 64) else g.source == 0) &&
  decide (2 ≤ (memberList g).length) && g.base % 4096 == 0 && decide (1 ≤ g.row) && g.row % 64 == 0 && decide (g.row ≤ 65536) && decide (1 ≤ g.rows)

/-- The buffer lies within one HBM segment of its context, or, for the Carrier, within a table range. -/
def groupBufferOk (s : State) (g : GroupRec) : Bool :=
  let inside := fun (r : Nat × Nat) => decide (r.1 ≤ g.base) && decide (g.base + groupBytes g ≤ r.1 + r.2)
  if g.context = 0xFFFF then (roleRange s.blend.cur.role ++ stagedRole s).any inside
  else ((s.seg.entries.filter (fun e => e.1 / 64 == g.context && decide (e.2.home = .local) && decide (e.2.dbase < hbmTop))).map
    (fun e => (e.2.dbase, e.2.length))).any inside

/-- The semaphore is a Carrier semaphore, or lies in a partition bound to one of the context's queues. -/
def groupSemOk (s : State) (g : GroupRec) : Bool :=
  match semOwner s (65536 + g.sem) with
  | none => true
  | some pid => s.blend.cur.queues.any (fun e => e.2.partition == pid && (getQ s e.1).bound && (getQ s e.1).context == g.context)

/-- A caller may name a context: its own, or, for the Carrier, the Carrier's. -/
def groupOwner (s : State) (caller : Option Nat) (c : Nat) : Bool :=
  match caller with | some h => ownsContext s h c | none => c == 0xFFFF

def putGroup (k : Nat) (g : Option GroupRec) (s : State) : State :=
  { s with courier := { s.courier with groups := match g with | some g => tabPut s.courier.groups k g | none => tabDel s.courier.groups k } }

def groupWrite (x : CallSlot) (caller : Option Nat) (s : State) : State × CallEnd :=
  let g := parseGroup x
  let k := argAt x 0 2
  let taken := match tabFind s.courier.groups k with | some o => !groupOwner s caller o.context | none => false
  if 1 < argAt x 0x20 1 ∨ !groupArgsOk x g then (s, .now pmBadArg [])
  else if !groupOwner s caller g.context || taken then (s, .now pmNotPermitted [])
  else if !groupBufferOk s g || !groupSemOk s g then (s, .now pmBadArg [])
  else (putGroup k (some g) s, .now pmOk [])

def groupDelete (x : CallSlot) (caller : Option Nat) (s : State) : State × CallEnd :=
  let k := argAt x 0 2
  if 256 ≤ k ∨ !allZero (argBytes x 2 30) then (s, .now pmBadArg [])
  else
    match tabFind s.courier.groups k with
    | none => (s, .now pmWrongState [])
    | some g => if groupOwner s caller g.context then (putGroup k none s, .now pmOk []) else (s, .now pmNotPermitted [])

/-- Hosts write any group of their contexts; the Carrier those of context 0xFFFF, and its deletes are checked against the record. -/
def groupRule : CallRule :=
  { func := 0x41, hosts := true, carrier := fun x => argAt x 0x20 1 == 1 || argAt x 4 2 == 0xFFFF, states := [.serving], named := [(0, 7), (8, 25)],
    load := false }

/-! ### Repairs and retirements (R300, R439) -/

/-- The fields of a repair are in range for its resource. -/
def repairArgsOk (x : CallSlot) : Bool :=
  let r := argAt x 1 1
  decide (argAt x 0 1 < 12) && decide (r ≤ 4) && (argAt x 6 1 == (if r = 4 then 1 else 0)) &&
  (if r ≤ 1 then decide (argAt x 2 1 < 16) && decide (argAt x 3 1 < 64) && argAt x 4 1 == 0 && argAt x 5 1 == 0 && argAt x 8 4 == 0
   else decide (argAt x 2 1 < 32) && argAt x 3 1 == 0)

/-- The bytes of a repaired row are undefined until they are written. -/
def loseRow (r : RowRepair) (s : State) : State :=
  let (n, s) := drawFree s
  let l := (Config.rowAddrs r.stack r.pseudo r.bankGroup r.bank r.row).filter (fun a => decide (a < hbmTop) && stackOf a == r.stack && pseudoOf a == r.pseudo)
  forEach l (fun a t => setMemByte t a (Config.freeByte n a)) s

/-- Change the repair list of the record and of its stack. -/
def setRepairs (stack : Nat) (f : List RowRepair → List RowRepair) (s : State) : State :=
  let s := updRecord (fun r => { r with repairs := f r.repairs }) s
  updMc s stack (fun m => { m with repairs := f m.repairs })

/-- A repair of the bank group of another. -/
def sameGroup (a b : RowRepair) : Bool := a.stack == b.stack && a.pseudo == b.pseudo && a.bankGroup == b.bankGroup

/-- Apply a repair to a stack in service: 0, or a code. -/
def repair (x : CallSlot) (s : State) : State × Nat :=
  let stack := argAt x 0 1
  let unit := argAt x 2 1
  let lane := argAt x 3 1
  let m := getMc s stack
  let row : RowRepair := { stack := stack, pseudo := unit, bankGroup := argAt x 4 1, bank := argAt x 5 1, row := argAt x 8 4, hard := argAt x 1 1 == 4 }
  let here := m.fixes.filter (fun f => f.channel == unit)
  let log := fun (p r : Nat) (t : State) => (logEvent .hbmRepair (islOfMc stack) (leBytes 1 stack ++ leBytes 1 p ++ leBytes 1 (argAt x 1 1) ++ leBytes 4 r) t, pmOk)
  let fix := fun (erased : Bool) =>
    let f : LaneFix := { stack := stack, channel := unit, lane := lane, erased := erased }
    log (2 * unit + lane / 32) 0 (recordFix f (setMc s stack { m with fixes := m.fixes ++ [f], train := if erased then 2 else m.train }))
  if m.train = 3 then (s, pmWrongState)
  else match argAt x 1 1 with
    | 0 => if 2 ≤ (here.filter (fun f => !f.erased)).length then (s, pmFull) else fix false
    | 1 => if here.any (fun f => f.erased && f.lane / 32 == lane / 32) then (s, pmFull) else fix true
    | 2 =>
      if m.repairs.any (fun r => sameGroup r row && !r.hard) then (s, pmFull)
      else log unit row.row (loseRow row (setRepairs stack (fun l => l ++ [row]) s))
    | 3 =>
      if !m.repairs.contains row then (s, pmWrongState)
      else log unit row.row (loseRow row (setRepairs stack (fun l => l.filter (fun r => r != row)) s))
    | _ =>
      if m.repairs.any (fun r => sameGroup r row && r.hard) then (s, pmFull)
      else log unit row.row (loseRow row (setRepairs stack (fun l => l.filter (fun r => !sameGroup r row) ++ [row]) s))

def hbmRepair (k : Nat) (x : CallSlot) (s : State) : State × CallEnd :=
  if 1 < argAt x 6 1 then (s, .now pmBadFunc [])
  else if !repairArgsOk x then (s, .now pmBadArg [])
  else
    let (t, code) := repair x s
    if code = pmOk then setDue k pmOk [] t else (s, .now code [])

def islandRetire (x : CallSlot) (s : State) : State × CallEnd :=
  let die := argAt x 0 1
  let kind := argAt x 1 1
  let i := argAt x 2 1
  let w := argAt x 3 1
  if 1 < die ∨ 1 < kind ∨ (kind = 0 ∧ (99 < i ∨ w ≠ 0)) ∨ (kind = 1 ∧ (i ≠ 0 ∨ 7 < w)) then (s, .now pmBadArg [])
  else (if kind = 0 then retireIsland (islIx die i) 4 s else retireWay die w 4 s, .now pmOk [])

/-! ### The end of calls that take time (R414) -/

/-- A quote's writes have all left. -/
def quoteGone (s : State) (k : Nat) : Bool := s.host.ports.all (fun e => e.2.held.all (fun w => decide (w.for_ ≠ .quote k)))

/-- A call ends: one whose answer is due, or a release that the segment calls before it have held up. -/
def callDone (k : Nat) (s : State) : State :=
  let x := getSlot s k
  if x.state ≠ 1 then s
  else
    match x.due with
    | some (r, b) => if quoteGone s k then finishCall k r.toNat b s else s
    | none =>
      if x.waits = [] ∨ segCallOn s x.waits then s
      else let (s, code) := releaseNow (x.caller.getD 0) x.waits s; finishCall k code [] s

/-! ### Boot (R30, R38, R292, R424, R425, R441) -/

/-- The fixed islands that the boot needs (R30). -/
def bootIsls : List Nat :=
  [islTrust, islOfGk 0, islOfGk 1] ++ [0, 1].flatMap (fun d => (List.range 25).map (fun i => islIx d (100 + i)))

/-- Recorded retirements mark islands and ways (R441). -/
def markRetired (s : State) : State :=
  let s := forEach (s.pm.record.islands.filter (fun e => isMovable e.1 && e.2.retired)) (fun e t => updIsl t e.1 (fun i => { i with faulty := true })) s
  forEach [0, 1] (fun d t => setCache t d { getCache t d with faulty := maskBits 8 (marginEntry t (islIx d 124)).reason }) s

/-- The header of the margin history in force. -/
def headerNow (r : ModRecord) : Option MarginHeader :=
  match r.headerA, r.headerB with
  | some a, some b => if a.seq < b.seq then some b else some a
  | some a, none => some a
  | none, b => b

/-- Steps 1 to 4 of R424. -/
def bootStart (recordBad : Option Nat) (s : State) : State :=
  let due : Bool := match s.power.bootDue with | some t => decide (t ≤ s.devTime) | none => false
  if s.mode ≠ .rom ∨ s.pm.booting ∨ s.power.mrstHeld ∨ !due then s
  else
    let s := logEvent .resetCause islTrust (leBytes 1 s.power.lastReset) s
    let s := forEach bootIsls (fun n t => updIsl t n (fun i => { i with power := 2 })) s
    let head := headerNow s.pm.record
    let s := { s with
      power := { s.power with bootDue := none, selfRefresh := false },
      pm := { s.pm with booting := true, recordBad := recordBad, romHash := Config.romHash, copy := if recordBad.isNone then some s.pm.record else none,
                        serial := if recordBad.isNone then Config.serial else 0 },
      plan := { s.plan with hours := max s.plan.hours ((head.map (·.hours)).getD 0), runNo := max s.plan.runNo ((head.map (·.runs)).getD 0) } }
    markRetired s

/-- One lane of a stack in training: used, spared, erased, or the stack goes out of service. -/
def trainLane (stack ch lane : Nat) (s : State) : State :=
  let m := getMc s stack
  if m.train = 3 then s
  else match fixFor m stack ch lane with
    | none => stackOut stack s
    | some f =>
      logEvent .hbmLaneSpared (islOfMc stack) (leBytes 1 stack ++ leBytes 1 ch ++ leBytes 1 lane ++ leBytes 1 (b2n f.erased))
        (recordFix f (setMc s stack { m with fixes := m.fixes ++ [f] }))

/-- A stack trains, from the lane map and each lane's baseline of the record (R292). -/
def trainStack (l : List StackTraining) (stack : Nat) (s : State) : State :=
  let s := updMc s stack (fun m =>
    { m with train := 0, pause := none, coming := [], newFixes := [], fixes := s.pm.record.lanes.filter (fun f => f.stack == stack),
             repairs := s.pm.record.repairs.filter (fun r => r.stack == stack) })
  let s := match l.find? (fun t => t.stack.val == stack) with
    | none => s
    | some t =>
      let s := forEach t.failed (fun e u => trainLane stack e.1.val e.2.val u) s
      let s := if t.command ∧ (getMc s stack).train ≠ 3 then stackOut stack s else s
      let put := fun (b : Tab Nat) (e : Fin 16 × Fin 64 × Half) =>
        let k := stack * 1024 + e.1.val * 64 + e.2.1.val
        tabSet 0 b k ((tabGet 0 b k + e.2.2.toNat) % 65536)
      updRecord (fun r => { r with baselines := t.moved.foldl put r.baselines }) s
  updMc s stack (fun m => if m.train = 3 then m else { m with train := if m.fixes.any (·.erased) then 2 else 1 })

/-- The stack that takes the reservation (R38). -/
def pickReserve (s : State) : Option Nat := ([5, 4, 3, 2, 1, 0] ++ [11, 10, 9, 8, 7, 6]).find? (fun k => !stackOffline s k)

/-- Steps 5 to 7 of R424, and the faults of R425. -/
def bootDone (pufOk : Bool) (training : List StackTraining) (s : State) : State :=
  if s.mode ≠ .rom ∨ !s.pm.booting then s
  else
    let s := { s with pm := { s.pm with booting := false } }
    let badAt : Option Nat :=
      if s.pm.recordBad.isSome then s.pm.recordBad else if (ownerNow s.pm.record).isNone then some 0x2000 else none
    match badAt with
    | some o => enterFaulted 1 (logEvent .recordInvalid islTrust (leBytes 4 o) s)
    | none =>
      if !pufOk then enterFaulted 2 (logEvent .pufFailed islTrust [] s)
      else
        let s := forEach (List.range 12) (trainStack training) { s with pm := { s.pm with seed := some Config.pufSeed } }
        let s := forEach (List.range 12) (fun k t => updMc t k (fun m => { m with patrolNext := 0, patrolStart := t.devTime, patrolLate := false })) s
        { s with mode := .awaitCarrier, blend := { s.blend with reserve := pickReserve s } }

/-! ### The rows -/

/-- One row of the call table. -/
def callRow (r : CallRule) (pick : CallSlot → Bool) (who : Agent) (slot : Fin 12) (notify : Bool) (vector : Fin 1024)
    (body : CallSlot → Option Nat → State → State × CallEnd) (s : State) : Out State :=
  .next (pmCall r pick who slot.val notify vector.val body s)

/-- Any arguments. -/
def anyArgs (_ : CallSlot) : Bool := true

/-- `CAPS` (R417). -/
def execCaps (who : Agent) (slot : Fin 12) (notify : Bool) (vector : Fin 1024) (s : State) : Out State :=
  callRow (plainRule 1 true true [.awaitCarrier, .awaitBlend, .serving] []) anyArgs who slot notify vector (fun _ _ t => (t, .now pmOk (capsBlock t))) s
/-- `QUOTE` (R431). -/
def execQuote (who : Agent) (slot : Fin 12) (notify : Bool) (vector : Fin 1024) (s : State) : Out State :=
  callRow (plainRule 2 true false [.awaitCarrier, .awaitBlend, .serving] [(0, 40)]) anyArgs who slot notify vector (quote slot.val) s
/-- `OWNER_REGISTER` (R429). -/
def execOwnerRegister (who : Agent) (slot : Fin 12) (notify : Bool) (vector : Fin 1024) (signature : Option (List Byte)) (s : State) : Out State :=
  callRow (plainRule 3 true false [.awaitCarrier] [(0, 72)]) anyArgs who slot notify vector (ownerRegister slot.val signature) s
/-- `OWNER_TRANSFER` (R430). -/
def execOwnerTransfer (who : Agent) (slot : Fin 12) (notify : Bool) (vector : Fin 1024) (signatures : Option (List Byte)) (s : State) : Out State :=
  callRow (plainRule 4 true false [.awaitCarrier] [(0, 136)]) anyArgs who slot notify vector (ownerTransfer slot.val signatures) s
/-- `CARRIER_LOAD` (R427). -/
def execCarrierLoad (who : Agent) (slot : Fin 12) (notify : Bool) (vector : Fin 1024) (s : State) : Out State :=
  callRow { plainRule 5 true false [.awaitCarrier] [(0, 12), (0x10, 16)] with load := true } anyArgs who slot notify vector (carrierLoad slot.val) s
/-- `CARRIER_LOAD_DONE` (R427). -/
def execCarrierLoadDone (image : Option (List Byte)) (s : State) : Out State := .next (carrierLoaded image s)
/-- `CONTEXT_CLAIM` (R420). -/
def execContextClaim (who : Agent) (slot : Fin 12) (notify : Bool) (vector : Fin 1024) (s : State) : Out State :=
  callRow (plainRule 0x10 true false [.awaitBlend, .serving] [(0, 5)]) (fun x => argAt x 4 1 != 1) who slot notify vector claimContexts s
/-- `CONTEXT_RELEASE` (R420). -/
def execContextRelease (who : Agent) (slot : Fin 12) (notify : Bool) (vector : Fin 1024) (s : State) : Out State :=
  callRow (plainRule 0x10 true false [.awaitBlend, .serving] [(0, 5)]) (fun x => argAt x 4 1 == 1) who slot notify vector (releaseContexts slot.val) s
/-- `QUEUE_CONTEXT` (R369, R419). -/
def execQueueContext (who : Agent) (slot : Fin 12) (notify : Bool) (vector : Fin 1024) (s : State) : Out State :=
  callRow (plainRule 0x11 true false [.serving] [(0, 5)]) anyArgs who slot notify vector queueContext s
/-- `RING_QUEUES_SET` (R405). -/
def execRingQueuesSet (who : Agent) (slot : Fin 12) (notify : Bool) (vector : Fin 1024) (s : State) : Out State :=
  callRow (plainRule 0x12 false true [.serving] [(0, 5)]) (fun x => argAt x 4 1 != 0) who slot notify vector (fun x _ => ringSet x) s
/-- `RING_QUEUES_CLEAR` (R405). -/
def execRingQueuesClear (who : Agent) (slot : Fin 12) (notify : Bool) (vector : Fin 1024) (s : State) : Out State :=
  callRow (plainRule 0x12 false true [.serving] [(0, 5)]) (fun x => argAt x 4 1 == 0) who slot notify vector (fun x _ => ringClear x) s
/-- `SAVE_POOL` (R370). -/
def execSavePool (who : Agent) (slot : Fin 12) (notify : Bool) (vector : Fin 1024) (s : State) : Out State :=
  callRow (plainRule 0x13 false true [.serving] [(0, 1), (8, 12)]) anyArgs who slot notify vector (fun x _ => savePool x) s
/-- `ABORT` (R373). -/
def execAbort (who : Agent) (slot : Fin 12) (notify : Bool) (vector : Fin 1024) (s : State) : Out State :=
  callRow (plainRule 0x14 true true [.serving] [(0, 8)]) anyArgs who slot notify vector abortInv s
/-- `KEY_INSTALL` (R433). -/
def execKeyInstall (who : Agent) (slot : Fin 12) (notify : Bool) (vector : Fin 1024) (s : State) : Out State :=
  callRow (plainRule 0x30 true false [.awaitBlend, .serving] [(0, 4), (0x10, 1580), (0x640, 48)]) anyArgs who slot notify vector (keyInstall slot.val) s
/-- `KEY_BIND` (R434). -/
def execKeyBind (who : Agent) (slot : Fin 12) (notify : Bool) (vector : Fin 1024) (s : State) : Out State :=
  callRow (plainRule 0x31 true false [.awaitBlend, .serving] [(0, 4)]) anyArgs who slot notify vector keyBind s
/-- `KEY_REMOVE` (R434). -/
def execKeyRemove (who : Agent) (slot : Fin 12) (notify : Bool) (vector : Fin 1024) (s : State) : Out State :=
  callRow (plainRule 0x32 true false [.awaitBlend, .serving] [(0, 2)]) anyArgs who slot notify vector keyRemove s
/-- `EXPORT_WINDOW` (R390). -/
def execExportWindow (who : Agent) (slot : Fin 12) (notify : Bool) (vector : Fin 1024) (s : State) : Out State :=
  callRow (plainRule 0x40 true false [.serving] [(0, 2), (8, 24)]) anyArgs who slot notify vector exportWindow s
/-- `GROUP_WRITE` (R392). -/
def execGroupWrite (who : Agent) (slot : Fin 12) (notify : Bool) (vector : Fin 1024) (s : State) : Out State :=
  callRow groupRule (fun x => argAt x 0x20 1 != 1) who slot notify vector groupWrite s
/-- `GROUP_DELETE` (R416). -/
def execGroupDelete (who : Agent) (slot : Fin 12) (notify : Bool) (vector : Fin 1024) (s : State) : Out State :=
  callRow groupRule (fun x => argAt x 0x20 1 == 1) who slot notify vector groupDelete s
/-- `HBM_REPAIR` (R300). -/
def execHbmRepair (who : Agent) (slot : Fin 12) (notify : Bool) (vector : Fin 1024) (s : State) : Out State :=
  callRow (plainRule 0x50 true false [.awaitBlend] [(0, 7), (8, 4)]) anyArgs who slot notify vector (fun x _ => hbmRepair slot.val x) s
/-- `ISLAND_RETIRE` (R439). -/
def execIslandRetire (who : Agent) (slot : Fin 12) (notify : Bool) (vector : Fin 1024) (s : State) : Out State :=
  callRow (plainRule 0x51 true false [.awaitBlend, .serving] [(0, 4)]) anyArgs who slot notify vector (fun x _ => islandRetire x) s
/-- `PM_CALL_DONE` (R414). -/
def execPmCallDone (slot : Fin 12) (s : State) : Out State := .next (callDone slot.val s)
/-- `BOOT_START` (R424). -/
def execBootStart (recordBad : Option Word) (s : State) : Out State := .next (bootStart (recordBad.map (·.toNat)) s)
/-- `BOOT_DONE` (R424, R425). -/
def execBootDone (pufOk : Bool) (training : List StackTraining) (s : State) : Out State := .next (bootDone pufOk training s)

end Sys2Proof.Machine
end

