-- ==== Sys2Proof/Machine/Power.lean ====
section
/-! DEFINITION. Supply, temperature, resets, the Carrier restart, parking and idling (R440, R455-R470). -/

namespace Sys2Proof.Machine

/-! ### What resets leave (R464, R470) -/

/-- The log across a module reset: entries queued at islands that stop are lost and counted; those of the trust processor stay. -/
def keepLog (l : LogState) : LogState :=
  let own := tabGet [] l.queues islTrust
  let lost := ((l.queues.filter (fun e => e.1 != islTrust)).map (fun e => e.2.length)).foldl (· + ·) 0
  { l with queues := tabSet [] [] islTrust own, dropped := l.dropped + BitVec.ofNat 32 lost, droppedSince := l.droppedSince + lost }

/-- The module stops for a reset of kinds 1 to 4, and its settings return to their reset values. The module record, the log, `DEV_TIME`, the
contents of HBM and of the scratchpads, and the numbering of invocations are kept; dirty lines are written back first. -/
def stopModule (s : State) : State :=
  let s := flushCaches s
  { State.reset with
    pending := s.pending, freeCtr := s.freeCtr, devTime := s.devTime, mode := s.mode, log := keepLog s.log,
    plan := { planReset with hours := s.plan.hours, runNo := s.plan.runNo, lastHour := s.plan.lastHour, dipsSince := s.plan.dipsSince,
                             alarmsSince := s.plan.alarmsSince, maxTempSince := s.plan.maxTempSince },
    power := { powerReset with lastReset := s.power.lastReset, nowMv := s.power.nowMv, powerW := s.power.powerW, stretch := s.power.stretch, stretched := s.power.stretched,
                               critical := s.power.critical, powerLimit := s.power.powerLimit, mrstHeld := s.power.mrstHeld, bootDue := none,
                               selfRefresh := true, regFaults := s.power.regFaults, alertCritical := s.power.alertCritical,
                               alertFaulted := s.power.alertFaulted },
    isl := tabSet islandReset (s.isl.filterMap (fun e => if e.2.tempC = 0 then none else some (e.1, { islandReset with tempC := e.2.tempC })))
             islTrust { islandReset with tempC := (getIsl s islTrust).tempC, power := (getIsl s islTrust).power },
    mc := s.mc.filterMap (fun e => if e.2.tempC = 0 then none else some (e.1, { mcReset with tempC := e.2.tempC })),
    pm := { pmReset with record := s.pm.record }, mem := s.mem, poison := s.poison,
    host := { hostSideReset with sent := s.host.sent, delivered := s.host.delivered }, qs := { queueSideReset with nextInv := s.qs.nextInv },
    blend := { blendReset with zeroed := s.blend.zeroed, verified := s.blend.verified },
    courier := { courierReset with switches := (dropHold s.courier).switches, sent := s.courier.sent }, answers := s.answers }

/-- A module reset of kind 1, 2 or 4 is triggered. -/
def triggerReset (kind : Nat) (s : State) : State :=
  if s.mode = .off ∨ s.power.reset.isSome ∨ s.power.supplyReset then s
  else
    let s := stopModule s
    { s with power := { s.power with reset := some { kind := kind, since := s.devTime } } }

/-- The boot of R424 is due. -/
def startBoot (kind : Nat) (s : State) : State :=
  { s with mode := .rom, power := { s.power with reset := none, supplyReset := false, lastReset := kind, bootDue := some s.devTime } }

/-- 1.5 ms after the trigger, or at the release of the pin if later. -/
def resetBoot (s : State) : State :=
  match s.power.reset with
  | none => s
  | some r => if s.mode = .off ∨ s.power.mrstHeld ∨ s.devTime < r.since + 1500000 then s else startBoot r.kind s

/-- What a loss of supply leaves: the module record and the level of the pin. -/
def supplyLost (s : State) : State :=
  { State.reset with
    pending := s.pending, freeCtr := s.freeCtr, mode := .off, pm := { pmReset with record := s.pm.record },
    power := { powerReset with mrstHeld := s.power.mrstHeld, bootDue := none, rails := false },
    host := { hostSideReset with sent := s.host.sent, delivered := s.host.delivered },
    courier := { courierReset with sent := s.courier.sent }, answers := s.answers }

/-! ### The input (R455-R458) -/

/-- A sample of the input voltage. -/
def sampleMv (mv : Half) (s : State) : State :=
  { s with power := { s.power with nowMv := mv, minMv := if mv.toNat < s.power.minMv.toNat then mv else s.power.minMv } }

/-- Below the warning level: every island stretches, and the checks in progress are void. -/
def supplyWarning (mv : Half) (s : State) : State :=
  if s.mode = .off ∨ 45000 ≤ mv.toNat then s
  else
    let s := sampleMv mv s
    match s.power.stretch with
    | some (t, low) => { s with power := { s.power with stretch := some (t, min low mv.toNat) } }
    | none =>
      let s := { s with power := { s.power with stretch := some (s.devTime, mv.toNat) } }
      { s with isl := s.isl.map (fun e => (e.1, { e.2 with checkVoid := e.2.check.isSome || e.2.checkVoid })) }

/-- The stretch ends: logged and counted. -/
def supplyClear (mv : Half) (s : State) : State :=
  match s.power.stretch with
  | none => s
  | some (t, low) =>
    let s := sampleMv mv s
    let s := { s with power := { s.power with stretch := none, stretched := s.power.stretched + (s.devTime - t), dips := satAdd 0xFFFF s.power.dips 1 },
                      plan := { s.plan with dipsSince := satAdd 0xFFFF s.plan.dipsSince 1 } }
    logEvent .supplyDip islTrust (leBytes 2 low ++ leBytes 4 (min 0xFFFFFFFF (s.devTime - t))) s

/-- Below the reset level: a supply reset, or, before power is good, the power-up ends. -/
def supplyFalls (mv : Half) (s : State) : State :=
  if 41000 ≤ mv.toNat then s
  else if s.mode = .off then { s with power := { s.power with rails := false, nowMv := mv } }
  else if s.power.supplyReset then sampleMv mv s
  else
    let s := stopModule (sampleMv mv s)
    { s with power := { s.power with supplyReset := true } }

/-- The input has been back for 5 ms. -/
def supplyBack (mv : Half) (s : State) : State :=
  if s.mode ≠ .off ∧ s.power.supplyReset then startBoot 3 (sampleMv mv s) else s

/-- Power is good: the trust processor starts and `DEV_TIME` counts from 0. -/
def powerGood (s : State) : State :=
  if s.mode = .off ∧ s.power.rails then
    updIsl { s with mode := .rom, devTime := 0, power := { s.power with bootDue := some 0, lastReset := 0 } } islTrust (fun i => { i with power := 2 })
  else s

/-! ### The reset pin, the Postmaster's own reset (R463, R464) -/

def pinLow (s : State) : State :=
  let s := triggerReset 1 s
  { s with power := { s.power with mrstHeld := true } }

/-- A rail out of regulation: the third fault within one hour ends in FAULTED (R462). -/
def railFault (s : State) : State :=
  if s.mode = .off then s
  else
    let l := s.power.regFaults.filter (fun t => decide (s.devTime < t + 3600000000000)) ++ [s.devTime]
    let s := { s with power := { s.power with regFaults := l } }
    if 3 ≤ l.length then enterFaulted 6 s else triggerReset 4 s

/-- An uncorrectable word of the Postmaster's SRAM (R438). -/
def sramFault (off : Nat) (s : State) : State :=
  if s.mode = .off then s else triggerReset 4 (logEvent .pmSramUncorrectable islTrust (leBytes 4 off) s)

/-! ### `PWR_CTRL` and the Carrier restart (R465) -/

/-- A write of `PWR_CTRL`: `WDOG_MS`, and the bit that the command names, which only a host may set but for `WDOG_KICK`. -/
def writePwr (hostOnly : Bool) (who : Agent) (wdogMs : Nat) (f : State → State) (s : State) : State :=
  if !reaches s who then s
  else
    let s := { s with power := { s.power with wdogMs := wdogMs } }
    match hostOnly, who with
    | true, .carrier _ => s
    | _, _ => f s

/-- The image copy still has its measurement. -/
def carrierIntact (s : State) : Bool :=
  shake256 ((List.range s.pm.carrierSigOffset).map (fun i => (hbmPeek s (s.pm.carrierBase + i)).1)) == s.pm.carrierMeas

/-- Calls of the Carrier in progress will complete, and their replies are discarded. -/
def discardCarrierCalls (s : State) : State :=
  forEach [8, 9, 10, 11] (fun k t => updSlot t k (fun x => if x.state = 1 then { x with discard := true } else x)) s

/-- Measure the copy, and start the Carrier if it is the one that was verified. -/
def measureAndStart (s : State) : State := if carrierIntact s then startCarrier s else s

/-- A Carrier restart. -/
def restartCarrier (s : State) : State :=
  if !s.pm.carrierRuns then s
  else
    let s := logEvent .resetCause islTrust (leBytes 1 5) s
    measureAndStart (discardCarrierCalls { s with pm := { s.pm with carrierRuns := false } })

/-- The watchdog has run out. -/
def watchdogOut (s : State) : State :=
  if s.power.wdogMs ≠ 0 ∧ s.power.wdogKick + 1000000 * s.power.wdogMs ≤ s.devTime then restartCarrier s else s

/-! ### Parking (R399, R468, R469) -/

/-- What R468 asks of a park, and R38 of its reservation. -/
def mayPark (s : State) : Bool :=
  decide (s.mode = .serving) && !s.blend.cur.role.manager && s.qs.queues.all (fun e => !e.2.enable) && s.qs.invs == [] && !loadRuns s &&
  !reserveLost s && !s.power.parking

/-- The directory is saved to the start of the staging area. -/
def saveDirectory (s : State) : State :=
  let lo := reserveBase s
  let hi := lo + 0x800000
  let s := { s with mem := s.mem.filter (fun e => decide (e.1 < lo) || decide (hi ≤ e.1)),
                    poison := s.poison.filter (fun g => decide (g * 64 < lo) || decide (hi ≤ g * 64)) }
  forEach s.seg.entries (fun e t => memWrite t (lo + 32 * e.1) (clean (segBytes e.2))) s

/-- The park begins: the neighbours move their traffic, streams and links are reset, the caches are cleaned, the staged image is discarded. -/
def park (s : State) : State :=
  if !mayPark s then { s with power := { s.power with parkResult := 2 } }
  else
    let s := forEach [0, 1] (fun k t => forEach (ringNeighbours t) (fun d u => sendControl 7 d (leBytes 1 k) u) t) s
    let s := forEach s.blend.cur.links (fun e t => resetLink e.1 e.2 (stopStreams e.1 t)) s
    let s := flushCaches { s with blend := { s.blend with staged := none } }
    { s with power := { s.power with parking := true } }

/-- The islands that a park gates besides the compute and grinder islands. -/
def parkedIsls : List Nat :=
  [0, 1].flatMap (fun d => ((List.range 18).map (· + 106) ++ [124, 125]).map (islIx d ·)) ++ [islOfGk 0, islOfGk 1] ++ (List.range 6).map islOfCourier

/-- Semaphores in PARKED: load values, Carrier semaphores 0 (R470). -/
def loadSems (s : State) : State := forEach s.blend.cur.links (fun e t => resetLinkSems e.1 e.2 t) { s with sems := [] }

/-- The park is complete. -/
def parkDone (s : State) : State :=
  if !s.power.parking ∨ s.mode ≠ .serving then s
  else
    let s := stopEngines (saveDirectory (loadSems s))
    let s := forEach (movableIsls ++ parkedIsls) (fun n t => updIsl t n (fun i => { i with power := 0, gatedSince := none })) s
    let s := forEach [0, 1] (fun p t => updGk t p (fun k => { k with link := .down })) s
    let c := dropHold s.courier
    { s with mode := .parked, pm := { s.pm with carrierRuns := false }, seg := { s.seg with caches := [] },
             power := { s.power with parking := false, parkResult := 1, selfRefresh := true },
             courier := { c with position := none, store := [], ports := c.ports.map (fun e => (e.1,
               { e.2 with link := .disabled, lanes := 0, neighbour := none, moved := false })) } }

/-- An unpark: HBM, islands, structure and Carrier. -/
def unpark (training : List StackTraining) (s : State) : State :=
  if s.mode ≠ .parked ∨ s.power.unparking then s
  else
    let s := { s with power := { s.power with unparking := true, selfRefresh := false } }
    let s := forEach ((List.range 12).filter (fun k => !stackOffline s k)) (trainStack training) s
    let s := forEach (bootIsls.filter (fun n => decide (n % 256 < 100 ∨ 105 < n % 256))) (fun n t => updIsl t n (fun i => { i with power := 2 })) s
    let st := s.blend.cur
    let s := powerStructure st s
    let s := forEach st.parts (fun e t => setModes st e.1 e.2 (setFloors st.classes e.1 e.2 st t)) s
    beginRun 0 (measureAndStart (setCourierIslands st.role s))

/-- The unpark is complete: the module serves and rejoins the rings. -/
def unparked (s : State) : State :=
  joinRing { s with mode := .serving, power := { s.power with unparking := false, unparkRan := false, parkResult := 3 } }

/-- The unpark's boot run sets the points; the module serves once every island runs at its own. -/
def unparkDone (rs : List IslandReading) (s : State) : State :=
  if s.mode ≠ .parked ∨ !s.power.unparking then s
  else if s.power.unparkRan then (if ramped s then unparked s else s)
  else if !readsAll rs s then s
  else
    let s := bootRun rs s
    if ramped s then unparked s else { s with power := { s.power with unparkRan := true } }

/-! ### Temperature and input power (R459, R460) -/

/-- The hottest sensor: its island, or a stack's memory controller, and its temperature. -/
def hottest (s : State) : Nat × Nat :=
  let l := s.isl.map (fun e => (e.1, e.2.tempC)) ++ s.mc.map (fun e => (islOfMc e.1, e.2.tempC))
  l.foldl (fun m e => if m.2 < e.2 then e else m) (islTrust, 0)

def logCritical (s : State) : State := let h := hottest s; logEvent .thermalCritical h.1 (leBytes 1 h.2) s

/-- A sensor's reading: it reaches or leaves the critical level, or ends in FAULTED. -/
def readSensor (key c : Nat) (s : State) : State :=
  let was := (tabFind s.power.critical key).isSome
  if c < 105 then { s with power := { s.power with critical := tabDel s.power.critical key } }
  else
    let s := if was then s else logCritical { s with power := { s.power with critical := tabPut s.power.critical key s.devTime } }
    if c < 115 then s else enterFaulted 5 (if was then logCritical s else s)

/-- An island's junction temperature. -/
def junction (n c : Nat) (s : State) : State :=
  if !islExists n ∨ s.mode = .off then s
  else
    let s := updIsl s n (fun i => { i with tempC := c })
    readSensor n c { s with power := { s.power with peakC := max s.power.peakC c }, plan := { s.plan with maxTempSince := max s.plan.maxTempSince c } }

/-- A stack's temperature. -/
def stackTemp (k c : Nat) (s : State) : State :=
  if s.mode = .off then s else readSensor (512 + k) c (updMc s k (fun m => { m with tempC := c }))

/-- A sensor has been at the critical level for 1 s. -/
def criticalTimeout (s : State) : State :=
  if s.mode = .off ∨ s.mode = .faulted ∨ s.power.critical.all (fun e => decide (s.devTime < e.2 + 1000000000)) then s
  else enterFaulted 5 (logCritical s)

/-- The input power. -/
def inputPower (w : Nat) (s : State) : State :=
  { s with power := { s.power with powerW := w, powerLimit := if 1600 < w then true else if w < 1550 then false else s.power.powerLimit } }

/-! ### Core resets and idling (R466, R467) -/

/-- A unit of the core is still busy 1 ms after its invocation ended. -/
def coreStuck (s : State) (p : Nat) : Bool :=
  let c := getCore s p
  match c.endedAt with
  | some t => decide (t + 1000000 ≤ s.devTime) && (c.window != [] || c.mat.isSome || c.matNext.isSome || c.vec.isSome)
  | none => false

/-- The core has been newly linked by the re-blend in progress and has not started. -/
def coreJoining (s : State) (p : Nat) : Bool := match s.blend.load with | some l => l.joining.contains p | none => false

/-- A newly linked core has been reset (R71, R466). -/
def joinedCore (p : Nat) (s : State) : State :=
  { s with blend := { s.blend with load := s.blend.load.map (fun l => { l with joining := l.joining.filter (fun c => c != p) }) } }

/-- The units of a core return to their reset state; its transfers are cancelled and its links reset. -/
def resetCore (p : Nat) (s : State) : State :=
  let l := logicalOf s p
  let links := match l with | some l => linksOn s [l] | none => []
  let mine := match l with | some l => (s.xfers.filter (fun e => e.2.engine == l && !xferDone e.2)).map (·.1) | none => []
  let s := logEvent .resetCause (islOfCore p) (leBytes 1 7) s
  let s := forEach mine cancelXfer s
  let s := forEach links (fun e t => resetLink e.1 e.2 (stopStreams e.1 t)) s
  let inv := (getCore s p).inv
  let s := match inv with | some i => endEarly i .aborted 0 s | none => s
  updCore s p (fun c => { idleCore c with inv := inv, phase := if inv.isSome then .faulted else .idle })

def coreReset' (p : Nat) (s : State) : State := if coreStuck s p || coreJoining s p then joinedCore p (resetCore p s) else s

/-- An island with no op and no batch. -/
def islandIdle (s : State) (n : Nat) : Bool :=
  if isComputeIsl n then let c := getCore s (n / 256 * 84 + n % 256); c.inv.isNone || coreBlocked c
  else let g := getGrinder s (n / 256 * 16 + n % 256 - 84); g.queue == [] && g.active == []

def idleGate (n : Nat) (s : State) : State :=
  if isMovable n ∧ (getIsl s n).power = 2 ∧ islandIdle s n then updIsl s n (fun i => { i with power := 1, gatedSince := some s.devTime }) else s

/-! ### The rows -/

/-- `SUPPLY_WARNING` (R456). -/
def execSupplyWarning (mv : Half) (s : State) : Out State := .next (supplyWarning mv s)
/-- `SUPPLY_WARNING_CLEAR` (R456). -/
def execSupplyWarningClear (mv : Half) (s : State) : Out State := .next (supplyClear mv s)
/-- `SUPPLY_RESET` (R457). -/
def execSupplyReset (mv : Half) (s : State) : Out State := .next (supplyFalls mv s)
/-- `SUPPLY_RESTORED` (R457). -/
def execSupplyRestored (mv : Half) (s : State) : Out State := .next (supplyBack mv s)
/-- `SUPPLY_OFF` (R461, R470). -/
def execSupplyOff (s : State) : Out State := .next (supplyLost s)
/-- `POWER_UP` (R458). -/
def execPowerUp (mv : Half) (s : State) : Out State :=
  .next (if s.mode = .off then { s with power := { s.power with rails := true, nowMv := mv } } else s)
/-- `POWER_GOOD` (R458). -/
def execPowerGood (s : State) : Out State := .next (powerGood s)
/-- `MRST_N_ASSERT` (R463). -/
def execMrstNAssert (s : State) : Out State := .next (pinLow s)
/-- `MRST_N_RELEASE` (R464). -/
def execMrstNRelease (s : State) : Out State := .next { s with power := { s.power with mrstHeld := false } }
/-- `PWR_CTRL_MODULE_RESET` (R464). -/
def execPwrCtrlModuleReset (who : Agent) (wdogMs : Fin 256) (s : State) : Out State := .next (writePwr true who wdogMs.val (triggerReset 2) s)
/-- `POSTMASTER_RESET` (R438, R462, R463). -/
def execPostmasterReset (sram : Option Word) (s : State) : Out State :=
  .next (match sram with | some o => sramFault o.toNat s | none => railFault s)
/-- `MODULE_RESET_BOOT` (R464). -/
def execModuleResetBoot (s : State) : Out State := .next (resetBoot s)
/-- `PWR_CTRL_CARRIER_RESTART` (R465). -/
def execPwrCtrlCarrierRestart (who : Agent) (wdogMs : Fin 256) (s : State) : Out State := .next (writePwr true who wdogMs.val restartCarrier s)
/-- `CARRIER_WATCHDOG_EXPIRY` (R465). -/
def execCarrierWatchdogExpiry (s : State) : Out State := .next (watchdogOut s)
/-- `PWR_CTRL_WDOG_KICK` (R465). -/
def execPwrCtrlWdogKick (who : Agent) (wdogMs : Fin 256) (s : State) : Out State :=
  .next (writePwr false who wdogMs.val (fun t => { t with power := { t.power with wdogKick := t.devTime } }) s)
/-- `PWR_CTRL_PARK` (R468). -/
def execPwrCtrlPark (who : Agent) (wdogMs : Fin 256) (s : State) : Out State := .next (writePwr true who wdogMs.val park s)
/-- `PARK_DONE` (R468). -/
def execParkDone (s : State) : Out State := .next (parkDone s)
/-- `PWR_CTRL_UNPARK` (R469). -/
def execPwrCtrlUnpark (who : Agent) (wdogMs : Fin 256) (training : List StackTraining) (s : State) : Out State :=
  .next (writePwr true who wdogMs.val (unpark training) s)
/-- `UNPARK_DONE` (R469). -/
def execUnparkDone (readings : List IslandReading) (s : State) : Out State := .next (unparkDone readings s)
/-- `JUNCTION_TEMP_CHANGE` (R459). -/
def execJunctionTempChange (island : Fin 512) (tempC : Fin 256) (s : State) : Out State := .next (junction island.val tempC.val s)
/-- `THERMAL_CRITICAL_TIMEOUT` (R459). -/
def execThermalCriticalTimeout (s : State) : Out State := .next (criticalTimeout s)
/-- `INPUT_POWER_LIMIT` (R459). -/
def execInputPowerLimit (watts : Half) (s : State) : Out State := .next (inputPower watts.toNat s)
/-- `HBM_TEMP_CHANGE` (R460). -/
def execHbmTempChange (stack : Fin 12) (tempC : Fin 256) (s : State) : Out State := .next (stackTemp stack.val tempC.val s)
/-- `CORE_RESET` (R466). -/
def execCoreReset (core : Fin 168) (s : State) : Out State := .next (coreReset' core.val s)
/-- `ISLAND_IDLE_GATE` (R467). -/
def execIslandIdleGate (island : Fin 512) (s : State) : Out State := .next (idleGate island.val s)

end Sys2Proof.Machine
end

