-- ==== Sys2Proof/Machine/Network.lean ====
section
/-! DEFINITION. Packets that arrive, HBM accesses that are performed, and receipts that are written (R21, R22, R30, R290, R339, R362,
R405). -/

namespace Sys2Proof.Machine

/-! ### Packets (R21, R22) -/

/-- The stops of a circuit's route (R22, R56). -/
def circuitStops (s : State) (die : Nat) (l : LinkDef) : List Stop :=
  (linkUses s.blend.cur die l).flatMap (fun u => [(die, u.1), (die, u.2)])

/-- A flit of a circuit arrives with an error: four granules of the consumer's ring, as far as the ring goes, are marked, and the error is logged
(R21). The error comes as a command of its own after the write that the circuit forwarded: DESIGN CHOICE, log entry 67. -/
def circuitError (die link g : Nat) (e : FlitError) (s : State) : State :=
  match tabFind s.blend.cur.links (die * 4096 + link) with
  | none => s
  | some l =>
    if l.consumer.grinder ∨ !(circuitStops s die l).contains (e.die.val, e.x.val, e.y.val) then s
    else match tabFind s.blend.cur.spare (die * 80 + l.consumer.unit) with
      | none => s
      | some p =>
        let off := g * 64
        logFlit e (poisonRange s (scratchKey p (l.ringOffset + off)) (min 256 (l.ringKib * 1024 - off)))

/-- Send a reply toward the engine of a piece. -/
def sendReply (src : NetDest) (x p cls : Nat) (d : PData) (s : State) : State :=
  match getXfer s x with
  | none => s
  | some v =>
    { s with net := s.net ++ [{ src := src, dst := engineStop s v.engine, cls := cls, kind := .reply, xfer := x, piece := p, data := d }] }

/-- A request reaches a scratchpad: the access is performed there; a clock-gated core wakes, and nothing reaches a power-gated one (R30). -/
def scratchAccess (phys : Nat) (k : Packet) (v : Xfer) (q : Piece) (d : PData) (s : State) : State :=
  if (getIsl s (islOfCore phys)).power = 0 then s
  else
    let s := wakeIsl (islOfCore phys) s
    match v.kind with
    | .write => landPiece k.xfer k.piece [] (memWrite s q.daddr d)
    | .read => sendReply (.core phys) k.xfer k.piece k.cls (memRead s q.daddr q.len) s
    | .atomic => s

/-- A request reaches a Gheklink port: a write goes to its host as a posted write, a read waits for the host's data. -/
def hostPiece (k : Packet) (v : Xfer) (q : Piece) (d : PData) (s : State) : State :=
  let h := (q.daddr - hostBase) / 2 ^ 39
  let o := (q.daddr - hostBase) % 2 ^ 39
  match v.kind with
  | .write =>
    sendWrite { host := h, addr := o, bytes := d.map (·.1), marks := countMarked q.daddr d, for_ := .piece k.xfer k.piece, invocation := v.inv,
                trans := q.trans.map (fun t => (v.engine, v.context, t.1, t.2)), seq := 0 } s
  | .read =>
    updGk s ((portFor s h o).getD (waitPort s h o)) (fun g =>
      { g with reads := g.reads ++ [{ host := h, addr := o, len := q.len, xfer := k.xfer, piece := k.piece }] })
  | .atomic => s

/-- A request reaches a Courier port: it leaves as a READ or a WRITE (R385, R388). -/
def peerPiece (k : Packet) (v : Xfer) (q : Piece) (d : PData) (s : State) : State :=
  let slot := (q.daddr - peerBase) / peerSlot
  let tag := (q.daddr - peerBase) % peerSlot + q.len * 2 ^ 48
  sendPoint (match v.kind with | .read => crRead | .write => crWrite | .atomic => crAtomic) k.cls slot tag d (some (k.xfer, k.piece)) s

/-- A request reaches a stack's stop, where its accesses wait to be performed, one for each 2 KiB unit (R287). -/
def stackPiece (stack : Nat) (k : Packet) (v : Xfer) (q : Piece) (d : PData) (s : State) : State :=
  updMc s stack (fun m => { m with arrivals := m.arrivals ++ (unitPieces q.daddr q.len).map (fun u =>
    { xfer := k.xfer, piece := k.piece, kind := v.kind, addr := u.1, len := u.2, data := sliceAt d (u.1 - q.daddr) u.2, region := v.region,
      cls := k.cls, since := s.devTime, passed := 0 }) })

/-- A reply reaches its engine: the piece lands, and a gated core wakes. -/
def replyArrives (k : Packet) (d : PData) (s : State) : State :=
  landPiece k.xfer k.piece d (match k.dst with | .core p => wakeIsl (islOfCore p) s | _ => s)

/-- What a packet does at its stop. -/
def packetArrives (k : Packet) (d : PData) (s : State) : State :=
  match k.kind, getPiece s k.xfer k.piece with
  | .reply, _ => replyArrives k d s
  | .request, none => s
  | .request, some (v, q) =>
    match k.dst with
    | .stack n => stackPiece n k v q d s
    | .core p => scratchAccess p k v q d s
    | .gkPort _ => hostPiece k v q d s
    | .courierPort _ => peerPiece k v q d s
    | .grinder _ => s

/-- An earlier packet of the same source, destination and class keeps its place before a later one. -/
def packetBehind (l : List Packet) (i : Nat) (k : Packet) : Bool :=
  (l.take i).any (fun j => decide (j.src = k.src) && decide (j.dst = k.dst) && j.cls == k.cls)

/-- A packet that the ring's retry store has no room for waits at the port. -/
def packetStuck (s : State) (k : Packet) : Bool :=
  match k.dst, k.kind with
  | .courierPort _, .request => !storeRoom s
  | _, _ => false

/-- The ith packet of the network arrives. -/
def deliverQueued (i : Nat) (e : Option FlitError) (s : State) : State :=
  match s.net[i]? with
  | none => s
  | some k =>
    if packetBehind s.net i k ∨ packetStuck s k ∨ !errorOnWay e k.src k.dst k.data then s
    else
      let (d, s) := spoilFlit e k.data { s with net := dropNth s.net i }
      packetArrives k d s

/-- A host has answered a read of a port: its data travel to the engine and land. -/
def deliverHostData (p i : Nat) (bytes : List Byte) (e : Option FlitError) (s : State) : State :=
  let g := getGk s p
  match g.reads[i]? with
  | none => s
  | some r =>
    match getXfer s r.xfer with
    | none => if g.link ≠ .up then s else setGk s p { g with reads := dropNth g.reads i }
    | some v =>
      if g.link ≠ .up ∨ !errorOnWay e (.gkPort p) (engineStop s v.engine) (clean (padTo r.len bytes)) then s
      else
        let (d, s) := spoilFlit e (clean (padTo r.len bytes)) (setGk s p { g with reads := dropNth g.reads i })
        landPiece r.xfer r.piece d (match engineStop s v.engine with | .core c => wakeIsl (islOfCore c) s | _ => s)

/-! ### HBM accesses (R290) -/

/-- An access must wait: an earlier one is to the same line, or its channel is paused (R290, R294). -/
def accessWaits (s : State) (stack i : Nat) (r : Arrived) : Bool :=
  ((getMc s stack).arrivals.take i).any (fun e => linesMeet e.addr e.len r.addr r.len) || channelPaused s r.addr

/-- An access among those that want the slots of its pseudo-channel. -/
def rivalOf (r : Arrived) : Rival := { cls := r.cls, since := r.since, passed := r.passed, slots := slotsFor r.len }

/-- The turn of an access at its pseudo-channel (R288): none where others come first, else the wheel after it. What the cache and the eviction buffer
hold needs no slot and turns no wheel. -/
def accessTurn (s : State) (stack : Nat) (r : Arrived) : Option (Option Wheel) :=
  if allHeld s r.addr r.len then some none else (takeSlots s stack (pseudoOf r.addr) (rivalOf r)).map some

/-- An access takes its turn. -/
def takeTurn (stack : Nat) (r : Arrived) (w : Option Wheel) (s : State) : State :=
  match w with
  | none => s
  | some w => passOlder stack (pseudoOf r.addr) (rivalOf r) w s

/-- An access leaves the list of a stop, and the longest Express access is kept (R289). -/
def takeArrival (stack i : Nat) (r : Arrived) (s : State) : State :=
  updMc s stack (fun m => { m with arrivals := dropNth m.arrivals i,
                                   expressMax := if r.cls = 0 then max m.expressMax (min 0xFFFF (s.devTime - r.since)) else m.expressMax })

/-- Other accesses of a piece still wait. -/
def moreOfPiece (s : State) (stack : Nat) (r : Arrived) : Bool :=
  (getMc s stack).arrivals.any (fun e => decide (e.xfer = r.xfer) && decide (e.piece = r.piece))

/-- The data of one access of a read leave; with those of the piece's last access, the reply is whole. -/
def readPart (stack : Nat) (r : Arrived) (d : PData) (s : State) : State :=
  let m := getMc s stack
  let mine := fun (e : ReadPart) => decide (e.xfer = r.xfer) && decide (e.piece = r.piece)
  let all := m.parts ++ [{ xfer := r.xfer, piece := r.piece, addr := r.addr, data := d }]
  if moreOfPiece s stack r then setMc s stack { m with parts := all }
  else
    let got := (all.filter mine).mergeSort (fun a b => decide (a.addr ≤ b.addr))
    sendReply (.stack stack) r.xfer r.piece r.cls (got.flatMap (·.data)) (setMc s stack { m with parts := all.filter (fun e => !mine e) })

/-- An access at a stack's stop is performed. -/
def performAccess (stack i : Nat) (errs : List HbmError) (tags : TagOutcome) (s : State) : State :=
  match (getMc s stack).arrivals[i]? with
  | none => s
  | some r =>
    if accessWaits s stack i r then s
    else match accessTurn s stack r with
      | none => s
      | some w =>
        let (s, dead) := tagCheck (dieOfStack stack) tags (takeArrival stack i r (takeTurn stack r w s))
        if dead then s
        else
          match r.kind with
          | .read =>
            let (d, s) := accessRead s r.region r.addr r.len errs
            readPart stack r d s
          | .write =>
            let s := accessWrite s r.region r.addr r.data errs
            let s := if stackOffline s stack then s else captureWrite r.addr r.data s
            let s := match getPiece s r.xfer r.piece with
              | some (v, q) => if pieceOver q then s else countPoison v r.addr r.data s
              | none => s
            if moreOfPiece s stack r then s else landPiece r.xfer r.piece [] s
          | .atomic => s

/-! ### Atomics (R291) -/

/-- An atomic at the home stop, in its turn; its old value is answered with a byte that says whether it is poisoned. -/
def atomicAt (cls : Nat) (op : AtomicOp) (a : Nat) (wide : Bool) (x cmp : Nat) (errs : List HbmError) (tags : TagOutcome) (s : State) : State :=
  let n := if wide then 8 else 4
  if hbmTop ≤ a ∨ a % n ≠ 0 ∨ !hbmReady s cls a n then s
  else
    let (s, dead) := tagCheck (dieOfStack (stackOf a)) tags (hbmTurn cls a n s)
    if dead then s
    else
      let (r, s) := hbmAtomic s op a n x cmp errs
      let s := if r.2 then s else captureWrite a ((List.range n).map (fun i => hbmPeek s (a + i))) s
      answer (leBytes n r.1 ++ leBytes 1 (b2n r.2)) s

def atomicCode : AtomicOp → Nat
  | .add => 0 | .swap => 1 | .cas => 2 | .and => 3 | .or => 4 | .umin => 5 | .umax => 6

/-- An engine's atomic at a virtual address of a context: it needs atomic rights (R313), and goes to the home that the segment names. One that faults
is reported (R318–R320) and not performed. No engine of the manual issues one by itself: DESIGN CHOICE, log entry 58. -/
def requestAtomic (e ctx cls : Nat) (op : AtomicOp) (va : Nat) (wide : Bool) (x cmp : Nat) (errs : List HbmError) (tags : TagOutcome) (s : State) : State :=
  let n := if wide then 8 else 4
  if va % n ≠ 0 then s
  else
    let s := (translate e ctx va s).2
    match covering s ctx va with
    | none => (raiseFault e ctx va none .noSegment .atomic s).2
    | some (i, g) =>
      let d := g.dbase + (va - g.vstart)
      if !grants g .atomic then (raiseFault e ctx va (some i) .rights .atomic s).2
      else match placeFault s d n with
        | some r => (raiseFault e ctx va (some i) r .atomic s).2
        | none =>
          match placeOf d with
          | .hbm h => atomicAt cls op h wide x cmp errs tags s
          | .peer slot o =>
            if some slot = modPosition s then atomicAt cls op o wide x cmp errs tags s
            else sendPoint crAtomic cls slot (o + atomicCode op * 2 ^ 48 + b2n wide * 2 ^ 51) (clean (leBytes 8 x ++ leBytes 8 cmp)) none s
          | _ => s

/-! ### Receipts (R339, R342, R362, R405) -/

/-- The receipt of a step that came over the ring goes to the manager, and is kept for duplicates. -/
def ringReceipt (q : Nat) (r : Receipt) (rest : List Receipt) (s : State) : State :=
  if !storeRoom s then s
  else
    let x := getQ s q
    let b := receiptBytes r (nextIndex x) (queueDepth s q)
    let mine := fun (e : StepSeen) => e.queue == q && e.index == r.sqIndex && e.receipt.isNone && !r.mailbox
    let s := setQ s q { x with due := rest }
    let s := match s.courier.steps.find? mine with
      | none => s
      | some e =>
        sendStepReceipt q e.id b
          { s with courier := { s.courier with steps := s.courier.steps.map (fun f => if f = e then { f with receipt := some b } else f) } }
    receiptArrived q none (receiptRaises r) s

/-- Ports other than the receipt's that have delivered writes of its invocation and not been flushed since. -/
def unflushedPorts (s : State) (inv p : Nat) : List Nat :=
  [0, 1].filter (fun k => decide (k ≠ p) && (getGk s k).unflushed.any (fun w => w.invocation == inv))

/-- A queue's next receipt: the flushes that ordered mode asks for, then the write. -/
def beginReceipt (q : Nat) (r : Receipt) (rest : List Receipt) (s : State) : State :=
  let x := getQ s q
  if x.ringFed then ringReceipt q r rest s
  else if x.heldBack.isSome then s
  else if x.spill ≠ [] then spillReceipt q r (setQ s q { x with due := rest })
  else
    let place := receiptPlace s q (nextIndex x)
    match portFor s place.1 place.2 with
    | none => s
    | some p =>
      if !x.fastMode ∧ unflushedPorts s r.invocation p ≠ [] then forEach (unflushedPorts s r.invocation p) askFlush s
      else setQ s q { x with due := rest, inFlight := some (r, nextIndex x) }

/-- The adapter acknowledges a queue's receipt write: `RQ_TAIL` advances and the vector follows. -/
def ackReceipt (q : Nat) (r : Receipt) (j : Nat) (s : State) : State :=
  let place := receiptPlace s q j
  match portFor s place.1 place.2 with
  | none => s
  | some p =>
    receiptArrived q (some p) (receiptRaises r)
      (writeRing q j r.invocation (receiptBytes r j (queueDepth s q)) (updQ s q (fun x => { x with inFlight := none })))

/-- One step of a queue's receipts. -/
def writeReceipt (q : Nat) (s : State) : State :=
  let x := getQ s q
  match x.inFlight, x.due with
  | some (r, j), _ => ackReceipt q r j s
  | none, r :: t => beginReceipt q r t s
  | none, [] => s

/-! ### The rows -/

/-- `PACKET_DELIVER` (R22). -/
def execPacketDeliver (source : PacketSource) (flitError : Option FlitError) (s : State) : Out State :=
  .next (match source with
    | .queued i => deliverQueued i flitError s
    | .circuit die link g => (match flitError with | some e => circuitError die.val link.val g e s | none => s)
    | .hostData p i bytes => deliverHostData p.val i bytes flitError s)
/-- `HBM_ACCESS` (R290). -/
def execHbmAccess (stack : Fin 12) (index : Nat) (errs : List HbmError) (tags : TagOutcome) (s : State) : Out State :=
  .next (performAccess stack.val index errs tags s)
/-- `HBM_ATOMIC` (R291). -/
def execHbmAtomic (op : AtomicOp) (place : AtomicPlace) (wide : Bool) (operand compare : Dword) (s : State) : Out State :=
  let met := place.met
  .next (match place.requester with
    | none => atomicAt place.cls.val op place.addr wide operand.toNat compare.toNat met.words met.tags s
    | some (e, ctx) => requestAtomic e.val ctx.val place.cls.val op place.addr wide operand.toNat compare.toNat met.words met.tags s)
/-- `RECEIPT_WRITE` (R362). -/
def execReceiptWrite (queue : Fin 1024) (s : State) : Out State := .next (writeReceipt queue.val s)

end Sys2Proof.Machine
end

