-- ==== Sys2Proof/Machine/Registers.lean ====
section
/-! DEFINITION. The control window: what each register reads, which widths it takes, and the writes that have no row of their own (R8, R11,
R12, R27-R29, R411), the semaphore and link registers of R214, and the module record as bytes (R423, R449). -/

namespace Sys2Proof.Machine

/-! ### The layout (R27, R29) -/

/-- The slot and the offset in it of a place in the call area (R413). -/
def slotPart (off : Nat) : Option (Nat × Nat) :=
  if 0x11000 ≤ off ∧ off < 0x1D000 then some ((off - 0x11000) / 0x1000, (off - 0x11000) % 0x1000) else none

/-- The queue and the offset in its block (R351). -/
def queuePart (off : Nat) : Option (Nat × Nat) :=
  if 0x20000 ≤ off ∧ off < 0x40000 then some ((off - 0x20000) / 128, (off - 0x20000) % 128) else none

/-- The die, the island and the offset in its block (R29). -/
def islandPart (off : Nat) : Option (Nat × Nat × Nat) :=
  if 0x200000 ≤ off ∧ off < 0x400000 then
    some ((off - 0x200000) / 0x100000, (off - 0x200000) % 0x100000 / 0x1000, (off - 0x200000) % 0x1000)
  else none

/-- The units of islands (R29). -/
inductive Unit_ where
  | compute (phys : Nat)
  | grinder (g : Nat)
  | memory (stack : Nat)
  | segment0 (die : Nat)
  | segment8 (die : Nat)
  | cache (die : Nat)
  | control
  | trust
  | gk (p : Nat)
  | courier (p : Nat)
  | plain
deriving DecidableEq, Repr

def unitOf (die i : Nat) : Unit_ :=
  if i < 84 then .compute (die * 84 + i)
  else if i < 100 then .grinder (die * 16 + (i - 84))
  else if i < 106 then .memory (die * 6 + (i - 100))
  else if i = 106 then .segment0 die
  else if i = 114 then .segment8 die
  else if i = 124 then .cache die
  else if die = 0 then (if i = 125 then .control else if i = 126 then .trust else if i = 127 ∨ i = 128 then .gk (i - 127) else .plain)
  else if 126 ≤ i ∧ i < 132 then .courier (i - 126)
  else .plain

/-! ### Widths (R8) -/

/-- Offsets of the 64-bit registers of an island block. -/
def wideRegs : Unit_ → List Nat
  | .compute _ => [0xA8, 0xB0, 0xC8, 0xD0, 0xE8, 0x108, 0x110, 0x160, 0x168, 0x180, 0x1C0, 0x1C8, 0x1E8]
  | .grinder _ => [0x48, 0x50, 0x58, 0x1C0]
  | .memory _ => [0x48, 0x50, 0x58, 0x60]
  | .segment0 _ => [0x58]
  | .segment8 _ => [0x40, 0x48, 0x50, 0x58, 0x60, 0x68, 0x80, 0x88, 0x90, 0x98, 0xA0, 0xA8, 0xC0]
  | .cache _ => [0x48, 0x50, 0x58, 0x60, 0x70]
  | .control => (List.range 256).map (fun k => 0x800 + 8 * k)
  | .trust => [0x40, 0x50, 0x60, 0x68, 0x88]
  | .gk _ => [0x48]
  | .courier _ => [0x48]
  | .plain => []

/-- A 64-bit register starts at an offset that is a multiple of 8. -/
def isWide (off : Nat) : Bool :=
  match slotPart off, queuePart off, islandPart off with
  | some (_, o), _, _ => o == 8
  | _, some (_, o), _ => o == 0x10 || o == 0x18
  | _, _, some (d, i, o) => (wideRegs (unitOf d i)).contains o
  | none, none, none =>
    off == 8 || off == 0x10 || (decide (0x40000 ≤ off) && decide (off < 0x48000)) || off == 0x48008 || off == 0x48010 || off == 0x48210 ||
    (decide (0x100000 ≤ off) && decide (off < 0x200000))

/-- The argument and reply bytes of a call slot, to which the manual gives no width. -/
def isCallBytes (off : Nat) : Bool := match slotPart off with | some (_, o) => decide (0x40 ≤ o) | none => false

/-- The accesses that R8 allows. -/
def accessFits (off n : Nat) (isRead : Bool) : Bool :=
  off % n == 0 && decide (off + n ≤ 0x2000000) &&
  (if n = 8 then isWide off || isCallBytes off else n == 4 && (isRead || !isWide (off / 8 * 8)))

/-- An access that R8 does not allow is dropped and logged; a read returns ones in each lane. The payload's size byte holds the size modulo 256:
DESIGN CHOICE, log entry 79. -/
def misaligned (who : Agent) (off n : Nat) (isRead : Bool) (s : State) : State :=
  let (f, s) := drawFree s
  let port := match who with | .host p => leBytes 1 p.val | .carrier _ => [Config.freeByte f 0]
  let s := logEvent .accessMisaligned (agentIsland who) (leBytes 4 off ++ leBytes 1 n ++ port) s
  if isRead then answer (List.replicate n 0xFF) s else s

/-! ### What registers read -/

/-- Put a Bool at a bit. -/
def bitAt (lo : Nat) (b : Bool) : Nat := fld lo (b2n b)

/-- Bit k set for each number of a list. -/
def maskOf (l : List Nat) : Nat := (l.map (2 ^ ·)).foldl (· + ·) 0

def sumOf (l : List Nat) : Nat := l.foldl (· + ·) 0
def maxOf (l : List Nat) : Nat := l.foldl max 0

/-- `ISL_STATE` (R29). -/
def islState (s : State) (die i : Nat) : Nat :=
  let x := getIsl s (islIx die i)
  let logical := if i < 84 then (logicalOf s (die * 84 + i)).getD 0xFF else 0xFF
  fld 8 logical + bitAt 4 x.faulty + bitAt 3 s.power.stretch.isSome + x.power

/-- `ISL_CLOCK` (R29). -/
def islClock (x : Island) : Nat := fld 16 x.floor + fld 8 x.target + x.current

/-- `ISL_MARGIN` (R444). -/
def islMargin (x : Island) : Nat :=
  fld 48 x.headroom + fld 32 (ofSigned 16 x.roDelta) + fld 24 x.slack + fld 16 x.vCode + fld 8 (min 0xFF x.alarms) + b2n x.belowGoal

/-- `SEG_MISSES` of an engine. -/
def segMisses (s : State) (e : Nat) : Nat := (tabGet (0 : Dword) s.seg.misses e).toNat

/-- `SEQ_STATE.STATE`. -/
def seqCode (c : Core) : Nat :=
  match c.phase with
  | .idle => 0
  | .boundary => 4
  | .saving => 5
  | .restoring => 6
  | .faulted => 8
  | .running => if c.wait.isSome then 2 else if c.halt then 7 else if (opAt c c.pc).isNone && !c.ended then 3 else 1

/-- Arrays 0-3 that meet a test, as a mask. -/
def arrMask (p : Nat → Bool) : Nat := maskOf ((List.range 4).filter p)

/-- `ARR_STATE`; whether a drain is in progress while an op of another mode waits is a question of time alone. -/
def arrState (f : Nat) (c : Core) : Nat :=
  let active := match c.mat.bind (fun m => findOp c m.seq) with | some o => (matOp o.word).mask | none => 0
  let drain := match c.mat, nextMat c with
    | none, some o => (matOp o.word).mode != c.arrMode && Config.freeChoice f % 2 == 1
    | _, _ => false
  fld 12 (arrMask (fun a => (tabGet arrAccReset c.acc a).kept)) + fld 8 active + bitAt 4 drain + fld 2 c.arrClass + c.arrMode

/-- `ACC_STATUS`. -/
def accStatus (c : Core) : Nat :=
  sumOf ((List.range 4).map (fun a => fld (16 + 2 * a) (tabGet arrAccReset c.acc a).r)) +
  fld 12 (arrMask (fun a => (tabGet arrAccReset c.acc a).sat != [] || (match c.mat with | some r => r.satArrays.contains a | none => false)))

/-- `VEC_STATE`; which sweep is in progress is a question of time alone. -/
def vecState (s : State) (f phys : Nat) : Nat :=
  let c := getCore s phys
  let occ := fun a => ((tabGet [] c.tiles a).filter (fun t => decide (t.state = .occupied))).length
  let fp64 := match c.vec.bind (fun v => findOp c v.seq) with
    | some o => (match opChain s phys o.word with | d :: _ => stFp64 d | [] => false)
    | none => false
  sumOf ((List.range 4).map (fun a => fld (16 + 4 * a) (occ a))) + (if c.vec.isSome then fld 2 (Config.freeChoice f % 3) else 0) +
  bitAt 1 fp64 + b2n c.vec.isSome

/-- `SEQ_STATE`. -/
def seqState (c : Core) : Nat :=
  fld 20 c.window.length + fld 16 (arrMask (fun k => c.window.any (fun o => o.started && opClass o.word == k))) + seqCode c

/-- The registers of a compute island. -/
def coreReg (s : State) (f phys o : Nat) : Nat :=
  let c := getCore s phys
  let x := getIsl s (islOfCore phys)
  match o with
  | 0x80 => c.fpStatus
  | 0xA0 => arrState f c
  | 0xA8 => c.arrBusy.toNat
  | 0xB0 => c.arrMacs.toNat
  | 0xC0 => accStatus c
  | 0xC8 => c.accReplays.toNat
  | 0xD0 => c.accSats.toNat
  | 0xE0 => vecState s f phys
  | 0xE8 => c.vecBusy.toNat
  | 0x100 => seqState c
  | 0x108 => c.pc
  | 0x110 => fld 56 c.fault.code + fld 52 c.fault.cls + bitAt 48 c.fault.valid + c.fault.addr
  | 0x118 => bitAt 0 c.halt
  | 0x140 => c.stallUs
  | 0x160 => c.dzFaults.toNat
  | 0x168 => c.sealFails.toNat
  | 0x180 => segMisses s (islOfCore phys)
  | 0x1C0 => islMargin x
  | 0x1C8 => fld 32 x.eccUncorrected.toNat + x.eccCorrected.toNat
  | 0x1E0 => bitAt 31 c.dbgPoison + fld 3 c.dbgWord
  | _ => 0

/-- The registers of a grinder island. -/
def grinderReg (s : State) (g o : Nat) : Nat :=
  let x := getGrinder s g
  match o with
  | 0x40 => fld 27 x.queue.length + fld 16 (sumOf (x.active.map (·.outstanding.length))) + fld 3 (sumOf (x.active.map (·.resident.length))) +
            bitAt 0 (x.active != [])
  | 0x48 => x.lookups.toNat
  | 0x50 => x.reads.toNat
  | 0x58 => segMisses s (islOfGrinder g)
  | 0x1C0 => islMargin (getIsl s (islOfGrinder g))
  | _ => 0

/-- The registers of a memory controller. -/
def memoryReg (s : State) (stack o : Nat) : Nat :=
  let m := getMc s stack
  match o with
  | 0x40 => fld 24 m.tempC + fld 16 ((m.fixes.filter (fun f => !f.erased)).length) + fld 12 (min 15 (m.fixes.filter (·.erased)).length) +
            fld 10 (if 95 ≤ m.tempC then 2 else if 85 < m.tempC then 1 else 0) + bitAt 9 s.blend.cur.classes.expressHbm + bitAt 8 m.pause.isSome + m.train
  | 0x48 => m.rdBytes.toNat
  | 0x50 => m.wrBytes.toNat
  | 0x58 => m.corrected.toNat
  | 0x60 => m.uncorrected.toNat
  | 0x68 => m.expressMax
  | _ => 0

/-- Chunks of a stream not yet issued. -/
def chunksLeft (t : Stream) : Nat := ceilDiv (t.length - t.issued) 4096

/-- A chunk is past half of its core's stall limit (R224). -/
def chunkStalled (s : State) (x : Nat) : Bool :=
  match getXfer s x with
  | none => false
  | some v =>
    match if v.engine < 160 then physOf s v.engine else none with
    | none => false
    | some p => stallLimit s p != 0 && !xferDone v && decide (500 * stallLimit s p < s.devTime - v.lastLand)

/-- `LINK_STATE`. -/
def linkState (s : State) (l : Nat) : Nat :=
  let r := getLink s l
  let left := match r.active with | some t => chunksLeft t | none => 0
  fld 62 (b2n r.active.isSome + b2n (r.active.isSome && r.pending.isSome)) + bitAt 61 (r.chunks.any (fun c => !c.landed && chunkStalled s c.xfer)) +
  fld 32 left + r.position

/-- The registers of a row-0 network segment (R214). -/
def segment0Reg (s : State) (die o : Nat) : Nat :=
  let sel := tabGet dieSelectReset s.selects die
  match o with
  | 0x40 => sel.sem
  | 0x44 => let x := getSem s (die * 65536 + sel.sem); fld 24 (min 0xFF x.waiters.length) + x.value
  | 0x50 => sel.link
  | 0x58 => linkState s (die * 4096 + sel.link)
  | _ => 0

/-- The registers of a table-store port (R245). -/
def portReg (s : State) (p : TablePort) (o : Nat) : Nat :=
  match o with
  | 0x28 => fld 32 (p.seq % 2 ^ 32) + fld 8 p.code + bitAt 0 (decide (s.devTime < p.busyUntil))
  | 0x20 => 0
  | _ => if o < 0x20 ∧ o % 8 = 0 then (p.args.getD (o / 8) 0).toNat else 0

/-- `TBL_QUERY` (R245). -/
def tableQuery (st : TableStore) : Nat :=
  match tabFind st.tables st.query with
  | none => st.query
  | some t =>
    fld 32 (t.seq % 2 ^ 32) + fld 18 (st.updates.filter (fun u => u.table == st.query)).length + bitAt 17 t.retiring.isSome + bitAt 16 true +
    fld 14 t.slot1.state + fld 12 t.slot0.state + st.query

/-- The registers of a row-8 network segment. -/
def segment8Reg (s : State) (die o : Nat) : Nat :=
  let st := getStore s die
  if 0x40 ≤ o ∧ o < 0x70 then portReg s st.port0 (o - 0x40)
  else if 0x80 ≤ o ∧ o < 0xB0 then portReg s st.port1 (o - 0x80)
  else if o = 0xC0 then tableQuery st else 0

/-- The registers of a memory-side cache. -/
def cacheReg (s : State) (die o : Nat) : Nat :=
  let c := getCache s die
  match o with
  | 0x40 => fld 24 (maskOf c.cleaning) + fld 16 (maskOf c.faulty) + fld 8 (maskOf c.powered)
  | 0x44 => sumOf ((List.range 8).map (fun w => fld (4 * w) ((tabFind c.wayRegion w).getD 0xF)))
  | 0x48 => c.hits.toNat
  | 0x50 => c.misses.toNat
  | 0x58 => c.fillCount.toNat
  | 0x60 => c.fillsDropped.toNat
  | 0x68 => c.evb.length
  | 0x70 => c.corrected.toNat
  | _ => 0

/-- A fault record's 64 bytes (R320): `STATE` is 2 while the pieces that a RETRY has taken up translate again. -/
def faultBytes : Option FaultRec → List Byte
  | none => zeros 64
  | some r =>
    leBytes 8 r.vaddr ++ leBytes 2 r.context ++ leBytes 1 (r.segment.getD 0xFF) ++ leBytes 1 (reasonCode r.reason) ++
    leBytes 1 (b2n r.kindRead + bitAt 1 r.kindWrite + bitAt 2 r.kindAtomic) ++ leBytes 1 (if r.resolving.isSome then 2 else 1) ++ leBytes 2 r.waiters.length ++ leBytes 8 r.postmark ++
    zeros 8 ++ leBytes 24 (maskOf r.waiters) ++ zeros 8

/-- The registers of the control-processor cluster of die 0 (R319-R322). -/
def controlReg (s : State) (o : Nat) : Nat :=
  if 0x800 ≤ o then fieldAt (faultBytes (tabFind s.seg.records ((o - 0x800) / 64))) ((o - 0x800) % 64) 8
  else if o = 0x40 then fld 8 s.seg.records.length + bitAt 1 s.seg.overflow
  else if o = 0x44 then s.seg.limitUs else 0

/-- `PWR_STATUS`. -/
def pwrStatus (s : State) : Nat := fld 8 s.power.parkResult + bitAt 3 s.power.stretch.isSome + s.power.lastReset

/-- `PWR_SUPPLY`. -/
def pwrSupply (s : State) : Nat :=
  fld 48 s.power.minMv.toNat + fld 32 s.power.nowMv.toNat + fld 16 (min 0xFFFF s.power.dips) + min 0xFFFF s.power.powerW

/-- `PWR_THERMAL`. -/
def pwrThermal (s : State) : Nat :=
  fld 24 (maxOf (s.isl.map (·.2.tempC))) + fld 16 s.power.peakC + fld 8 (maxOf (s.mc.map (·.2.tempC))) + bitAt 1 (s.power.critical != []) +
  bitAt 0 (s.isl.any (·.2.throttled))

/-- The registers of the trust-processor island (R444-R453, R455-R469). -/
def trustReg (s : State) (o : Nat) : Nat :=
  match o with
  | 0x40 => fld 32 s.plan.predictHours + fld 16 s.plan.minHeadroom + fld 8 (min 0xFF s.plan.retired) + bitAt 1 s.plan.running + b2n s.plan.bootDone
  | 0x48 => s.plan.hours % 2 ^ 32
  | 0x4C => fld 8 s.plan.goal
  | 0x50 => s.log.next
  | 0x58 => fld 16 s.log.vector + fld 8 s.log.irqSev + s.log.mirrorSev
  | 0x60 => fld 32 s.log.mirrorLost.toNat + s.log.dropped.toNat
  | 0x68 => s.log.mirrorSeq
  | 0x80 => fld 8 s.power.wdogMs
  | 0x84 => pwrStatus s
  | 0x88 => pwrSupply s
  | 0x90 => pwrThermal s
  | _ => 0

/-- The registers of a Gheklink port; a replay is over within the command that counts it. -/
def gkReg (s : State) (p o : Nat) : Nat :=
  let k := getGk s p
  let code := match k.link with | .down => 0 | .training => 1 | .up => 2 | .retraining => 3 | .hostReset => 4
  match o with
  | 0x40 => fld 12 k.lanes + fld 8 (k.host.getD 7) + code
  | 0x48 => fld 32 k.retrains.toNat + k.replays.toNat
  | _ => 0

/-- The registers of a Courier port. -/
def courierReg (s : State) (p o : Nat) : Nat :=
  let x := getCr s p
  let code := match x.link with | .down => 0 | .training => 1 | .up => 2 | .retraining => 3 | .dark => 4 | .disabled => 5
  if o = 0x40 then fld 24 (x.neighbour.getD 0xFF) + fld 16 x.bypassed + fld 12 x.lanes + bitAt 9 x.express + bitAt 8 x.moved + code
  else if o = 0x48 then fld 32 x.retrains.toNat + x.replays.toNat
  else if o = 0x50 ∧ p % 2 = 0 then let w := getSw s (p / 2); fld 16 (min 0xFFFF w.moves) + bitAt 2 w.hold + w.pos
  else if o = 0x60 ∧ p = 0 then s.courier.limitMs
  else if o = 0x68 ∧ p = 0 then ofSigned 32 s.courier.timeOffset else 0

/-- A register of an island block. -/
def islandReg (s : State) (f die i o : Nat) : Nat :=
  if !islExists (islIx die i) then 0
  else if o = 0 then islState s die i
  else if o = 8 ∧ i < 100 then islClock (getIsl s (islIx die i))
  else if o < 0x40 then 0
  else
    match unitOf die i with
    | .compute p => coreReg s f p o
    | .grinder g => grinderReg s g o
    | .memory k => memoryReg s k o
    | .segment0 d => segment0Reg s d o
    | .segment8 d => segment8Reg s d o
    | .cache d => cacheReg s d o
    | .control => controlReg s o
    | .trust => trustReg s o
    | .gk p => gkReg s p o
    | .courier p => courierReg s p o
    | .plain => 0

/-- `PM_STATUS` (R413): what the boot has yet to read is read as its reset value. -/
def pmStatus (s : State) : Nat :=
  fld 16 (maskOf ((List.range 12).filter (fun k => decide ((getSlot s k).state = 1)))) + fld 8 (if s.mode = .faulted then s.pm.fault else 0) +
  bitAt 3 s.blend.staged.isSome + bitAt 2 s.blend.applied + bitAt 1 s.pm.carrierRuns + bitAt 0 (s.pm.copy.isSome && ownerHash s != 0)

/-- A call slot's bytes (R413). -/
def slotReg (s : State) (k o n : Nat) : Nat :=
  let x := getSlot s k
  if o = 0 then fld 30 x.state + bitAt 26 x.notify + fld 16 x.vector + x.func
  else if o = 8 then x.result.toNat
  else if 0x40 ≤ o ∧ o < 0x800 then leNat ((List.range n).map (fun i => tabGet 0 x.args (o - 0x40 + i)))
  else if 0x800 ≤ o then leNat ((List.range n).map (fun i => tabGet 0 x.reply (o - 0x800 + i))) else 0

/-- A queue's registers (R351-R354). -/
def queueReg (s : State) (q o : Nat) : Nat :=
  let x := getQ s q
  match o with
  | 0x00 => x.sqTail
  | 0x04 => x.sqHead
  | 0x08 => x.rqTail
  | 0x0C => x.rqHead
  | 0x10 => x.sqRing
  | 0x18 => x.rqRing
  | 0x20 => bitAt 31 x.enable + bitAt 30 x.fastMode + bitAt 29 x.hold + fld 16 x.context + x.vector
  | 0x24 => fld 16 (min 0xFFFF x.openCount) + fld 5 x.staged.length + bitAt 4 x.linkWait + bitAt 3 x.coreWait + bitAt 2 x.spillStop +
            bitAt 1 x.error + b2n x.idle
  | 0x28 => x.lat
  | _ => 0

/-- `GK_HOST_STATE` (R333). -/
def hostReg (s : State) (h : Nat) : Nat :=
  let x := getHost s h
  let code := match x.cond with | .absent => 0 | .linked => 1 | .registered => 2 | .lost => 3
  fld 21 x.queueCount + fld 11 x.queueFirst + fld 2 (maskOf (upPorts s h)) + code

/-- `IV_CTRL` (R348). -/
def vectorReg (s : State) (v : Nat) : Nat :=
  let x := getVec s v
  bitAt 31 x.enable + bitAt 30 x.mask + bitAt 29 x.pending + fld 28 x.owner + fld 16 x.holdoffUs

/-- `MB_CTRL` (R346). -/
def mbReg (s : State) (k : Nat) : Nat := let x := getMbCtrl s k; bitAt 31 x.mode + fld 16 x.queue + x.vector

/-- A register of the mailboxes, hosts and vectors. -/
def linkReg (s : State) (off : Nat) : Nat :=
  if off < 0x44000 then leNat ((List.range 8).map (fun i => tabGet 0 s.host.h2m (off - 0x40000 + i)))
  else if off < 0x48000 then leNat ((List.range 8).map (fun i => tabGet 0 s.host.m2h (off - 0x44000 + i)))
  else if off = 0x48008 then maskOf ((List.range 64).filter (mbBusy s))
  else if off = 0x48010 then maskOf s.host.full
  else if 0x48100 ≤ off ∧ off < 0x48200 then mbReg s ((off - 0x48100) / 4)
  else if off = 0x48200 ∨ off = 0x48204 then hostReg s ((off - 0x48200) / 4)
  else if off = 0x48210 then s.host.spillBase
  else if 0x60000 ≤ off ∧ off < 0x62000 ∧ off % 8 = 0 then vectorReg s ((off - 0x60000) / 8) else 0

/-- The log window (R451). -/
def logReg (s : State) (off : Nat) : Nat :=
  match tabFind s.log.slots ((off - 0x100000) / 64) with
  | some e => fieldAt (logBytes e) ((off - 0x100000) % 64) 8
  | none => 0

/-- `MOD_POSITION`. -/
def modPositionReg (s : State) : Nat := match s.courier.position with | some p => bitAt 31 true + fld 8 s.courier.ringNo + p | none => 0

/-- The register, or the n bytes of a call slot, at an offset. `f` numbers a free value. -/
def regRead (s : State) (f off n : Nat) : Nat :=
  match slotPart off, queuePart off, islandPart off with
  | some (k, o), _, _ => slotReg s k o n
  | _, some (q, o), _ => queueReg s q o
  | _, _, some (d, i, o) => islandReg s f d i o
  | none, none, none =>
    if off = 0 then 0x1D4E9640
    else if off = 4 then modRev
    else if off = 8 then s.pm.serial.toNat
    else if off = 0x10 then s.devTime
    else if off = 0x18 then modeCode s.mode
    else if off = 0x1C then modPositionReg s
    else if off = 0x10000 then pmStatus s
    else if 0x40000 ≤ off ∧ off < 0x100000 then linkReg s off
    else if 0x100000 ≤ off ∧ off < 0x200000 then logReg s off else 0

/-- The n bytes that an access of an allowed width reads: a register, or one half of a 64-bit register. -/
def regBytes (s : State) (f off n : Nat) : List Byte :=
  if n = 4 ∧ isWide (off / 8 * 8) then sliceAt (leBytes 8 (regRead s f (off / 8 * 8) 8)) (off % 8) 4
  else leBytes n (regRead s f off n)

/-- A read of `DBG_SCR_DATA` at a compute island. -/
def debugOffset (off : Nat) : Option Nat :=
  match islandPart off with
  | some (d, i, o) => if i < 84 ∧ o / 8 * 8 = 0x1E8 then some (d * 84 + i) else none
  | none => none

/-- Perform a read of the control window and hand back its bytes. -/
def readWindow (who : Agent) (off n : Nat) (s : State) : State :=
  match debugOffset off with
  | some p => debugRead who p (off % 8) n s
  | none => let (f, s) := drawFree s; answer (regBytes s f off n) s

/-! ### Writes without a row of their own (R11) -/

/-- A 64-bit half. -/
def lowHalf (v : Nat) : Word := BitVec.ofNat 32 v
def highHalf (v : Nat) : Word := BitVec.ofNat 32 (v / 2 ^ 32)

/-- A compute island. -/
def writeCore (who : Agent) (phys o v : Nat) (s : State) : State :=
  let d := BitVec.ofNat 64 v
  let put := fun (f : Core → Core) => updCore s phys f
  match o with
  | 0x80 => put (fun c => { c with fpStatus := c.fpStatus &&& (0x7F - v % 0x80) })
  | 0xA8 => put (fun c => { c with arrBusy := d })
  | 0xB0 => put (fun c => { c with arrMacs := d })
  | 0xC8 => put (fun c => { c with accReplays := d })
  | 0xD0 => put (fun c => { c with accSats := d })
  | 0xE8 => put (fun c => { c with vecBusy := d })
  | 0x110 => if bitOf v 48 then put (fun c => { c with fault := { c.fault with valid := false } }) else s
  | 0x140 => put (fun c => { c with stallUs := v % 65536 })
  | 0x160 => put (fun c => { c with dzFaults := d })
  | 0x168 => put (fun c => { c with sealFails := d })
  | 0x180 => { s with seg := { s.seg with misses := tabSet 0 s.seg.misses (islOfCore phys) d } }
  | 0x1C8 => updIsl s (islOfCore phys) (fun i => { i with eccUncorrected := highHalf v, eccCorrected := lowHalf v })
  | 0x1E0 => if mayPeek s who phys then put (fun c => { c with dbgWord := bitsOf v 21 3 }) else s
  | _ => s

/-- A grinder island. -/
def writeGrinder (g o v : Nat) (s : State) : State :=
  let d := BitVec.ofNat 64 v
  match o with
  | 0x48 => setGrinder s g { getGrinder s g with lookups := d }
  | 0x50 => setGrinder s g { getGrinder s g with reads := d }
  | 0x58 => { s with seg := { s.seg with misses := tabSet 0 s.seg.misses (islOfGrinder g) d } }
  | _ => s

/-- A memory controller. -/
def writeMemory (k o v : Nat) (s : State) : State :=
  let d := BitVec.ofNat 64 v
  match o with
  | 0x48 => updMc s k (fun m => { m with rdBytes := d })
  | 0x50 => updMc s k (fun m => { m with wrBytes := d })
  | 0x58 => updMc s k (fun m => { m with corrected := d })
  | 0x60 => updMc s k (fun m => { m with uncorrected := d })
  | 0x68 => updMc s k (fun m => { m with expressMax := v % 65536 })
  | _ => s

/-- The select registers of a row-0 segment. -/
def writeSelect (die o v : Nat) (s : State) : State :=
  match o with
  | 0x40 => { s with selects := tabUpd dieSelectReset s.selects die (fun x => { x with sem := v % 65536 }) }
  | 0x50 => { s with selects := tabUpd dieSelectReset s.selects die (fun x => { x with link := v % 4096 }) }
  | _ => s

/-- The arguments and the query of a table store. -/
def writeTable (die o v : Nat) (s : State) : State :=
  let arg := fun (p k : Nat) => updStore s die (fun st =>
    setPort st p { getPort st p with args := setNth (getPort st p).args k (BitVec.ofNat 64 v) })
  if 0x40 ≤ o ∧ o < 0x60 then arg 0 ((o - 0x40) / 8)
  else if 0x80 ≤ o ∧ o < 0xA0 then arg 1 ((o - 0x80) / 8)
  else if o = 0xC0 then updStore s die (fun st => { st with query := v % 512 }) else s

/-- A memory-side cache. -/
def writeCacheReg (die o v : Nat) (s : State) : State :=
  let d := BitVec.ofNat 64 v
  let c := getCache s die
  match o with
  | 0x48 => setCache s die { c with hits := d }
  | 0x50 => setCache s die { c with misses := d }
  | 0x58 => setCache s die { c with fillCount := d }
  | 0x60 => setCache s die { c with fillsDropped := d }
  | 0x70 => setCache s die { c with corrected := d }
  | _ => s

/-- The trust-processor island. -/
def writeTrust (who : Agent) (o v : Nat) (s : State) : State :=
  match o with
  | 0x4C =>
    let goal := bitsOf v 15 8
    if bitOf v 0 ∨ goal < 0x48 ∨ 0x68 < goal then s else { s with plan := { s.plan with goal := goal } }
  | 0x58 => { s with log := { s.log with vector := bitsOf v 25 16, irqSev := bitsOf v 10 8, mirrorSev := bitsOf v 2 0 } }
  | 0x60 => { s with log := { s.log with mirrorLost := highHalf v, dropped := lowHalf v } }
  | 0x80 => if bitOf v 16 ∨ bitsOf v 3 0 ≠ 0 then s else writePwr false who (bitsOf v 15 8) id s
  | 0x88 => { s with power := { s.power with minMv := BitVec.ofNat 16 (bitsOf v 63 48), dips := bitsOf v 31 16 } }
  | 0x90 => { s with power := { s.power with peakC := bitsOf v 23 16 } }
  | _ => s

/-- A Courier port. -/
def writeCourierReg (p o v : Nat) (s : State) : State :=
  if o = 0x48 then updCr s p (fun x => { x with retrains := highHalf v, replays := lowHalf v })
  else if o = 0x60 ∧ p = 0 then { s with courier := { s.courier with limitMs := v % 65536 } } else s

/-- An island block. -/
def writeIsland (who : Agent) (die i o v : Nat) (s : State) : State :=
  match unitOf die i with
  | .compute p => writeCore who p o v s
  | .grinder g => writeGrinder g o v s
  | .memory k => writeMemory k o v s
  | .segment0 d => writeSelect d o v s
  | .segment8 d => writeTable d o v s
  | .cache d => writeCacheReg d o v s
  | .control => if o = 0x40 ∧ bitOf v 1 then { s with seg := { s.seg with overflow := false } } else s
  | .trust => writeTrust who o v s
  | .gk p => if o = 0x48 then updGk s p (fun k => { k with retrains := highHalf v, replays := lowHalf v }) else s
  | .courier p => writeCourierReg p o v s
  | .plain => s

/-- A write of `PM_CALL` that starts no known call: an unknown number is answered BAD_FUNC, in the states that admit calls (R462, R468), and number 0
only sets the other fields. -/
def writeCall (who : Agent) (k v : Nat) (s : State) : State :=
  let func := bitsOf v 15 0
  if allFuncs.contains func then s
  else if func ≠ 0 then
    let rule : CallRule := { func := func, hosts := true, carrier := fun _ => true, named := [(0, 0x7C0)], load := false,
                             states := [.awaitCarrier, .awaitBlend, .serving] }
    pmCall rule (fun _ => true) who k (bitOf v 26) (bitsOf v 25 16) (fun _ _ t => (t, .now pmBadFunc [])) s
  else if !ownsSlot s who k then s
  else if (getSlot s k).state = 1 then logEvent .pmCallDropped (agentIsland who) (leBytes 1 k ++ leBytes 2 0) s
  else updSlot s k (fun x => { x with notify := bitOf v 26, vector := bitsOf v 25 16, func := 0 })

/-- A call slot. -/
def writeSlot (who : Agent) (k o n v : Nat) (s : State) : State :=
  if o = 0 then writeCall who k v s
  else if 0x40 ≤ o ∧ o < 0x800 ∧ ownsSlot s who k then
    updSlot s k (fun x => { x with args := ((List.range n).zip (leBytes n v)).foldl (fun t e => tabSet 0 t (o - 0x40 + e.1) e.2) x.args })
  else s

/-- A queue's block. -/
def writeQueueReg (who : Agent) (q o v : Nat) (s : State) : State :=
  let x := getQ s q
  if !mayDrive s who q then s
  else
    match o with
    | 0x10 => if x.enable then s else setQ s q { x with sqRing := v % 2 ^ 48 }
    | 0x18 => if x.enable then s else setQ s q { x with rqRing := v % 2 ^ 48 }
    | 0x20 => if bitOf v 31 = x.enable then setQ s q (ctrlFields x v) else s
    | 0x24 => if bitOf v 1 then setQ s q { x with error := false } else s
    | 0x28 => setQ s q { x with lat := v % 2 ^ 32 }
    | _ => s

/-- Mailbox buffers and `MB_CTRL`, by the host that owns the mailbox. -/
def writeMailbox (who : Agent) (off v : Nat) (s : State) : State :=
  match agentHost s who with
  | none => s
  | some h =>
    if 0x40000 ≤ off ∧ off < 0x44000 then
      let k := (off - 0x40000) / 256
      if mbOwner s k ≠ h then s
      else if mbBusy s k then logEvent .mailboxOverrun (agentIsland who) (leBytes 1 k) s
      else
        let put := fun (t : Tab Byte) (e : Nat × Byte) => tabSet 0 t (off - 0x40000 + e.1) e.2
        { s with host := { s.host with h2m := ((List.range 8).zip (leBytes 8 v)).foldl put s.host.h2m } }
    else if 0x48100 ≤ off ∧ off < 0x48200 then
      let k := (off - 0x48100) / 4
      if mbOwner s k ≠ h then s
      else
        { s with host := { s.host with mbCtrl := tabSet mbCtrlReset s.host.mbCtrl k
                                         { mode := bitOf v 31, queue := bitsOf v 25 16, vector := bitsOf v 9 0 } } }
    else s

/-- What the Carrier may not reach in the control window (R411): the mailbox buffers and their registers. -/
def carrierBarred (off : Nat) : Bool :=
  (decide (0x40000 ≤ off) && decide (off < 0x48018)) || (decide (0x48100 ≤ off) && decide (off < 0x48200))

/-- What the Carrier may not write besides: the hosts' call slots, and the vectors. -/
def carrierReadOnly (off : Nat) : Bool :=
  (decide (0x11000 ≤ off) && decide (off < 0x19000)) || (decide (0x60000 ≤ off) && decide (off < 0x62000) && off % 8 == 0)

/-- A write of a width that its register takes. -/
def writeWindow (who : Agent) (off n v : Nat) (s : State) : State :=
  match slotPart off, queuePart off, islandPart off with
  | some (k, o), _, _ => writeSlot who k o n v s
  | _, some (q, o), _ => writeQueueReg who q o v s
  | _, _, some (d, i, o) => writeIsland who d i o v s
  | none, none, none => writeMailbox who off v s

/-- A write to the control window: dropped for its width, refused to the Carrier, or applied field by field. The width is judged first, and then
logged alone: DESIGN CHOICE, log entry 79. -/
def registerWrite (who : Agent) (off n v : Nat) (s : State) : State :=
  if !reaches s who then s
  else if !accessFits off n false then misaligned who off n false s
  else
    match who with
    | .carrier d => if carrierBarred off || carrierReadOnly off then carrierDenied d.val off s else writeWindow who off n v s
    | .host _ => writeWindow who off n v s

/-! ### The Carrier's accesses (R411) -/

/-- The Carrier window. -/
def carrierWindow (s : State) : List (Nat × Nat) := carrierRegion s ++ roleRange s.blend.cur.role ++ stagedRole s

/-- A range lies whole in one range of the window. -/
def inCarrierWindow (s : State) (a n : Nat) : Bool := (carrierWindow s).any (fun r => decide (r.1 ≤ a) && decide (a + n ≤ r.1 + r.2))

/-- A control processor's access. One of class First to HBM waits its turn (R288). Of a register read the width is judged before R411: DESIGN CHOICE,
log entry 79. -/
def carrierAccess (die : Fin 2) (k : CarrierAccessKind) (s : State) : State :=
  if !s.pm.carrierRuns then s
  else
    match k with
    | .readMem a n =>
      if !inCarrierWindow s a n.val then answer (zeros n.val) (carrierDenied die.val a s)
      else if !hbmReady s 1 a n.val then s
      else let (d, s) := hbmRead (hbmTurn 1 a n.val s) none a n.val []; answer (d.map (·.1)) s
    | .writeMem a b =>
      if !inCarrierWindow s a b.length then carrierDenied die.val a s
      else if !hbmReady s 1 a b.length then s
      else captureWrite a (clean b) (hbmWrite (hbmTurn 1 a b.length s) none a (clean b) [])
    | .readReg off wide =>
      let n := if wide then 8 else 4
      if !accessFits off.val n true then misaligned (.carrier die) off.val n true s
      else if carrierBarred off.val then answer (zeros n) (carrierDenied die.val off.val s)
      else readWindow (.carrier die) off.val n s

/-! ### The sideband (R479, R480) -/

/-- The sideband answers in every state but OFF. -/
def sideband (reply : State → List Byte) (s : State) : State := if s.mode = .off then s else answer (reply s) s

/-- A record copy's check: the first 8 bytes of SHAKE256. -/
def checkBytes (b : List Byte) : List Byte := leBytes 8 (shake256 b).toNat

/-- An owner copy's bytes (R423). -/
def ownerBytes (c : OwnerCopy) : List Byte :=
  let b := leBytes 32 c.hash.toNat ++ leBytes 4 c.counter.toNat ++ leBytes 4 c.seq.toNat
  b ++ checkBytes b

/-- A header copy's bytes (R449). -/
def headerBytes (h : MarginHeader) : List Byte :=
  let b := leBytes 4 1 ++ leBytes 4 h.hours ++ leBytes 4 h.runs ++ leBytes 4 h.seq ++ zeros 40
  b ++ checkBytes b

/-- An island entry's bytes (R449). -/
def marginBytes (e : MarginEntry) : List Byte :=
  leBytes 1 e.vCode ++ leBytes 1 e.fCode ++ leBytes 2 e.headroom ++ leBytes 2 (ofSigned 16 e.roDelta) ++
  leBytes 1 (b2n e.retired + bitAt 1 e.belowGoal) ++ leBytes 1 e.reason ++ leBytes 4 e.run ++ leBytes 2 (ofSigned 16 e.slope) ++ zeros 2

/-- A run entry's bytes (R449). -/
def runBytes (e : RunEntry) : List Byte :=
  let b := leBytes 4 e.run ++ leBytes 4 e.hours ++ leBytes 1 e.kind ++ leBytes 1 e.retired ++ leBytes 2 e.changed ++ leBytes 2 e.minHeadroom ++
    leBytes 2 e.minIsland ++ leBytes 4 e.predict ++ leBytes 2 e.lanesSpared ++ leBytes 2 e.dips ++ leBytes 2 (min 0xFFFF e.alarms) ++
    leBytes 1 e.maxTemp ++ zeros 29
  b ++ checkBytes b

/-- Byte i of an item of the record; one that has never been written is free. -/
def itemByte (f off i : Nat) : Option (List Byte) → Byte
  | some b => (b[i]?).getD (Config.freeByte f off)
  | none => Config.freeByte f off

/-- A byte of the readable areas of the module record; the layout of the serial and of the HBM area is not given, and bytes of other areas
read 0. -/
def recordByte (r : ModRecord) (f off : Nat) : Byte :=
  if off < 0x1000 then Config.freeByte f off
  else if off < 0x2000 then 0
  else if off < 0x2400 then itemByte f off (off - 0x2000) (r.ownerA.map ownerBytes)
  else if off < 0x2800 then itemByte f off (off - 0x2400) (r.ownerB.map ownerBytes)
  else if off < 0x3000 then 0
  else if off < 0x10000 then Config.freeByte f off
  else if off < 0x10040 then itemByte f off (off - 0x10000) (r.headerA.map headerBytes)
  else if off < 0x10080 then itemByte f off (off - 0x10040) (r.headerB.map headerBytes)
  else if off < 0x10400 then 0
  else if off < 0x12400 then (marginBytes (tabGet marginEntryReset r.islands ((off - 0x10400) / 16))).getD ((off - 0x10400) % 16) 0
  else if off < 0x40000 then itemByte f off ((off - 0x12400) % 64) ((tabFind r.runs ((off - 0x12400) / 64)).map runBytes)
  else 0

/-- The module-record read: a NACK until the boot has made the copy. -/
def recordRead (off n : Nat) (s : State) : State :=
  if s.mode = .off then s
  else
    match s.pm.copy with
    | none => answer [] s
    | some r => let (f, s) := drawFree s; answer ((List.range n).map (fun i => recordByte r f (off + i))) s

/-- Command 0x06: the alert status, which the read clears. -/
def alertRead (s : State) : State :=
  if s.mode = .off then s
  else
    answer (leBytes 4 (b2n s.power.alertCritical + bitAt 1 s.power.alertFaulted))
      { s with power := { s.power with alertCritical := false, alertFaulted := false } }

/-- A sideband command that has a row of its own. -/
def knownCommand (c : Byte) : Bool := decide (c.toNat ≤ 7) || c.toNat == 0x10

/-! ### The rows -/

/-- `ACCESS_MISALIGNED` (R8). -/
def execAccessMisaligned (who : Agent) (offset : Fin 33554432) (size : Fin 4096) (isRead : Bool) (s : State) : Out State :=
  .next (if reaches s who && !accessFits offset.val size.val isRead then misaligned who offset.val size.val isRead s else s)
/-- `REGISTER_WRITE` (R11). -/
def execRegisterWrite (who : Agent) (offset : Fin 33554432) (value : Dword) (wide : Bool) (s : State) : Out State :=
  .next (registerWrite who offset.val (if wide then 8 else 4) (if wide then value.toNat else value.toNat % 2 ^ 32) s)
/-- `SEM_POST_REGISTER` (R214): a post to the selected semaphore, ignored where it is a partition's. -/
def execSemPostRegister (who : Agent) (die : Fin 2) (value : Word) (s : State) : Out State :=
  .next (let i := die.val * 65536 + (tabGet dieSelectReset s.selects die.val).sem
    if reaches s who && carrierSem s i then semPost i (value.toNat % 65536) s else s)
/-- `CARRIER_ACCESS` (R411). -/
def execCarrierAccess (die : Fin 2) (access : CarrierAccessKind) (s : State) : Out State := .next (carrierAccess die access s)
/-- `SB_READ_MOD_ID` (R479). -/
def execSbReadModId (s : State) : Out State := .next (sideband (fun _ => leBytes 4 0x1D4E9640) s)
/-- `SB_READ_MOD_STATE` (R479). -/
def execSbReadModState (s : State) : Out State := .next (sideband (fun t => leBytes 4 (modeCode t.mode)) s)
/-- `SB_READ_MOD_SERIAL` (R479). -/
def execSbReadModSerial (s : State) : Out State := .next (sideband (fun t => leBytes 8 t.pm.serial.toNat) s)
/-- `SB_READ_PM_STATUS` (R479). -/
def execSbReadPmStatus (s : State) : Out State := .next (sideband (fun t => leBytes 4 (pmStatus t)) s)
/-- `SB_READ_PWR_SUPPLY` (R479). -/
def execSbReadPwrSupply (s : State) : Out State := .next (sideband (fun t => leBytes 8 (pwrSupply t)) s)
/-- `SB_READ_PWR_THERMAL` (R479). -/
def execSbReadPwrThermal (s : State) : Out State := .next (sideband (fun t => leBytes 4 (pwrThermal t)) s)
/-- `SB_READ_ALERT_STATUS` (R479). -/
def execSbReadAlertStatus (s : State) : Out State := .next (alertRead s)
/-- `SB_READ_LOG_SEQ` (R479). -/
def execSbReadLogSeq (s : State) : Out State := .next (sideband (fun t => leBytes 8 t.log.next) s)
/-- `SB_READ_MODULE_RECORD` (R480). -/
def execSbReadModuleRecord (offset : Fin 16777216) (count : Fin 33) (s : State) : Out State := .next (recordRead offset.val count.val s)
/-- `SB_UNUSED_COMMAND` (R479). -/
def execSbUnusedCommand (command : Byte) (s : State) : Out State :=
  .next (if knownCommand command then s else sideband (fun _ => [0xFF]) s)

end Sys2Proof.Machine
end

