-- ==== Sys2Proof/Machine/TileRows.lean ====
section
/-! DEFINITION. The tile ops: each row issues the op that stands at the PC of a logical core, where the op is of the row's kind
(R188, R190-R200). -/

namespace Sys2Proof.Machine

/-- Words of `MAT_GRID` (R193). -/
def isMatGrid : Bits256 → Bool := fun w => opClass w == 0 && opSub w != 1 && opSub w != 2

/-- `MAT_GRID` (R193). -/
def execMatGrid (core : Fin 160) (s : State) : Out State := .next (issueLogical core.val isMatGrid s)

/-- Words of `MAT_FAN` (R193). -/
def isMatFan : Bits256 → Bool := fun w => opClass w == 0 && opSub w == 1

/-- `MAT_FAN` (R193). -/
def execMatFan (core : Fin 160) (s : State) : Out State := .next (issueLogical core.val isMatFan s)

/-- Words of `MAT_WIDE` (R193). -/
def isMatWide : Bits256 → Bool := fun w => opClass w == 0 && opSub w == 2

/-- `MAT_WIDE` (R193). -/
def execMatWide (core : Fin 160) (s : State) : Out State := .next (issueLogical core.val isMatWide s)

/-- Words of `VEC` (R195). -/
def isVec : Bits256 → Bool := fun w => opClass w == 1

/-- `VEC` (R195). -/
def execVec (core : Fin 160) (s : State) : Out State := .next (issueLogical core.val isVec s)

/-- Words of `MOV_LOAD` (R196). -/
def isMovLoad : Bits256 → Bool := fun w => opClass w == 2 && (decide (4 < opSub w) || (opSub w == 0 && !bitOf (opFlags w) 1))

/-- `MOV_LOAD` (R196). -/
def execMovLoad (core : Fin 160) (s : State) : Out State := .next (issueLogical core.val isMovLoad s)

/-- Words of `MOV_LOAD_UNSEAL` (R283). -/
def isMovLoadUnseal : Bits256 → Bool := fun w => opClass w == 2 && opSub w == 0 && bitOf (opFlags w) 1

/-- `MOV_LOAD_UNSEAL` (R283). -/
def execMovLoadUnseal (core : Fin 160) (s : State) : Out State := .next (issueLogical core.val isMovLoadUnseal s)

/-- Words of `MOV_STORE` (R196). -/
def isMovStore : Bits256 → Bool := fun w => opClass w == 2 && opSub w == 1

/-- `MOV_STORE` (R196). -/
def execMovStore (core : Fin 160) (s : State) : Out State := .next (issueLogical core.val isMovStore s)

/-- Words of `MOV_LOCAL` (R196). -/
def isMovLocal : Bits256 → Bool := fun w => opClass w == 2 && opSub w == 2

/-- `MOV_LOCAL` (R196). -/
def execMovLocal (core : Fin 160) (s : State) : Out State := .next (issueLogical core.val isMovLocal s)

/-- Words of `MOV_FILL_NEAR` (R196). -/
def isMovFillNear : Bits256 → Bool := fun w => opClass w == 2 && opSub w == 3

/-- `MOV_FILL_NEAR` (R196). -/
def execMovFillNear (core : Fin 160) (s : State) : Out State := .next (issueLogical core.val isMovFillNear s)

/-- Words of `MOV_FILL_FAR` (R196). -/
def isMovFillFar : Bits256 → Bool := fun w => opClass w == 2 && opSub w == 4

/-- `MOV_FILL_FAR` (R196). -/
def execMovFillFar (core : Fin 160) (s : State) : Out State := .next (issueLogical core.val isMovFillFar s)

/-- Words of `GRD` (R198). -/
def isGrd : Bits256 → Bool := fun w => opClass w == 3

/-- `GRD` (R198). -/
def execGrd (core : Fin 160) (s : State) : Out State := .next (issueLogical core.val isGrd s)

/-- Words of `SEM_WAIT` (R199). -/
def isSemWait : Bits256 → Bool := fun w => opClass w == 4 && opSub w != 1 && opSub w != 2

/-- `SEM_WAIT` (R199). -/
def execSemWait (core : Fin 160) (s : State) : Out State := .next (issueLogical core.val isSemWait s)

/-- Words of `SEM_POST` (R199). -/
def isSemPost : Bits256 → Bool := fun w => opClass w == 4 && opSub w == 1

/-- `SEM_POST` (R199). -/
def execSemPost (core : Fin 160) (s : State) : Out State := .next (issueLogical core.val isSemPost s)

/-- Words of `SEM_SET` (R199). -/
def isSemSet : Bits256 → Bool := fun w => opClass w == 4 && opSub w == 2

/-- `SEM_SET` (R199). -/
def execSemSet (core : Fin 160) (s : State) : Out State := .next (issueLogical core.val isSemSet s)

/-- Words of `CTL_END` (R200). -/
def isCtlEnd : Bits256 → Bool := fun w => decide (5 < opClass w) || (opClass w == 5 && (opSub w == 0 || decide (7 < opSub w)))

/-- `CTL_END` (R200). -/
def execCtlEnd (core : Fin 160) (s : State) : Out State := .next (issueLogical core.val isCtlEnd s)

/-- Words of `CTL_LOOP` (R200). -/
def isCtlLoop : Bits256 → Bool := fun w => opClass w == 5 && opSub w == 1

/-- `CTL_LOOP` (R200). -/
def execCtlLoop (core : Fin 160) (s : State) : Out State := .next (issueLogical core.val isCtlLoop s)

/-- Words of `CTL_SET` (R200). -/
def isCtlSet : Bits256 → Bool := fun w => opClass w == 5 && opSub w == 2

/-- `CTL_SET` (R200). -/
def execCtlSet (core : Fin 160) (s : State) : Out State := .next (issueLogical core.val isCtlSet s)

/-- Words of `CTL_LDX` (R200). -/
def isCtlLdx : Bits256 → Bool := fun w => opClass w == 5 && opSub w == 3

/-- `CTL_LDX` (R200). -/
def execCtlLdx (core : Fin 160) (s : State) : Out State := .next (issueLogical core.val isCtlLdx s)

/-- Words of `CTL_ARM` (R219). -/
def isCtlArm : Bits256 → Bool := fun w => opClass w == 5 && opSub w == 4

/-- `CTL_ARM` (R219). -/
def execCtlArm (core : Fin 160) (s : State) : Out State := .next (issueLogical core.val isCtlArm s)

/-- Words of `CTL_CHEAP` (R206). -/
def isCtlCheap : Bits256 → Bool := fun w => opClass w == 5 && opSub w == 5

/-- `CTL_CHEAP` (R206). -/
def execCtlCheap (core : Fin 160) (s : State) : Out State := .next (issueLogical core.val isCtlCheap s)

/-- Words of `CTL_LIVE` (R206). -/
def isCtlLive : Bits256 → Bool := fun w => opClass w == 5 && opSub w == 6

/-- `CTL_LIVE` (R206). -/
def execCtlLive (core : Fin 160) (s : State) : Out State := .next (issueLogical core.val isCtlLive s)

/-- Words of `CTL_DEBUG_ACC_READ` (R144). -/
def isCtlDebugAccRead : Bits256 → Bool := fun w => opClass w == 5 && opSub w == 7 && opField w 4 1 != 1

/-- `CTL_DEBUG_ACC_READ` (R144). -/
def execCtlDebugAccRead (core : Fin 160) (s : State) : Out State := .next (issueLogical core.val isCtlDebugAccRead s)

/-- Words of `CTL_DEBUG_BREAK` (R200). -/
def isCtlDebugBreak : Bits256 → Bool := fun w => opClass w == 5 && opSub w == 7 && opField w 4 1 == 1

/-- `CTL_DEBUG_BREAK` (R200). -/
def execCtlDebugBreak (core : Fin 160) (s : State) : Out State := .next (issueLogical core.val isCtlDebugBreak s)

end Sys2Proof.Machine
end

