-- ==== Sys2Proof/Machine/Dispatch.lean ====
section
/-! DEFINITION. What each command does to everything but the queue: one arm per row of the table. -/

namespace Sys2Proof.Machine

def exec (i : Instr) (s : State) : Host.Outcome State Fault Refusal :=
  match i with
  | .accessMisaligned who offset size isRead => Sys2Proof.Machine.execAccessMisaligned who offset size isRead s
  | .registerWrite who offset value wide => Sys2Proof.Machine.execRegisterWrite who offset value wide s
  | .islClockStep island => Sys2Proof.Machine.execIslClockStep island s
  | .packetDeliver source flitError => Sys2Proof.Machine.execPacketDeliver source flitError s
  | .blendLoad who slot notify vector => Sys2Proof.Machine.execBlendLoad who slot notify vector s
  | .blendStage who slot notify vector => Sys2Proof.Machine.execBlendStage who slot notify vector s
  | .reblend who slot notify vector => Sys2Proof.Machine.execReblend who slot notify vector s
  | .blendCopyDone image => Sys2Proof.Machine.execBlendCopyDone image s
  | .blendMeasureDone => Sys2Proof.Machine.execBlendMeasureDone s
  | .blendSignatureDone => Sys2Proof.Machine.execBlendSignatureDone s
  | .blendValidateDone => Sys2Proof.Machine.execBlendValidateDone s
  | .blendApplyDone => Sys2Proof.Machine.execBlendApplyDone s
  | .plannerBootRunDone readings => Sys2Proof.Machine.execPlannerBootRunDone readings s
  | .reblendStopDone => Sys2Proof.Machine.execReblendStopDone s
  | .drainTimeout => Sys2Proof.Machine.execDrainTimeout s
  | .reblendCleanDone readings => Sys2Proof.Machine.execReblendCleanDone readings s
  | .reblendResume => Sys2Proof.Machine.execReblendResume s
  | .matGrid core => Sys2Proof.Machine.execMatGrid core s
  | .matFan core => Sys2Proof.Machine.execMatFan core s
  | .matWide core => Sys2Proof.Machine.execMatWide core s
  | .matStart core => Sys2Proof.Machine.execMatStart core s
  | .accOverflow core => Sys2Proof.Machine.execAccOverflow core s
  | .accReplayRestart core => Sys2Proof.Machine.execAccReplayRestart core s
  | .matComplete core => Sys2Proof.Machine.execMatComplete core s
  | .vec core => Sys2Proof.Machine.execVec core s
  | .vecStart core => Sys2Proof.Machine.execVecStart core s
  | .vecComplete core => Sys2Proof.Machine.execVecComplete core s
  | .movLoad core => Sys2Proof.Machine.execMovLoad core s
  | .movLoadUnseal core => Sys2Proof.Machine.execMovLoadUnseal core s
  | .movStore core => Sys2Proof.Machine.execMovStore core s
  | .movLocal core => Sys2Proof.Machine.execMovLocal core s
  | .movFillNear core => Sys2Proof.Machine.execMovFillNear core s
  | .movFillFar core => Sys2Proof.Machine.execMovFillFar core s
  | .movComplete core slot => Sys2Proof.Machine.execMovComplete core slot s
  | .unsealCheckDone core slot => Sys2Proof.Machine.execUnsealCheckDone core slot s
  | .grd core => Sys2Proof.Machine.execGrd core s
  | .semWait core => Sys2Proof.Machine.execSemWait core s
  | .semPost core => Sys2Proof.Machine.execSemPost core s
  | .semSet core => Sys2Proof.Machine.execSemSet core s
  | .semPostFire core => Sys2Proof.Machine.execSemPostFire core s
  | .waitTimeout core => Sys2Proof.Machine.execWaitTimeout core s
  | .ctlEnd core => Sys2Proof.Machine.execCtlEnd core s
  | .ctlLoop core => Sys2Proof.Machine.execCtlLoop core s
  | .ctlSet core => Sys2Proof.Machine.execCtlSet core s
  | .ctlLdx core => Sys2Proof.Machine.execCtlLdx core s
  | .ctlArm core => Sys2Proof.Machine.execCtlArm core s
  | .ctlCheap core => Sys2Proof.Machine.execCtlCheap core s
  | .ctlLive core => Sys2Proof.Machine.execCtlLive core s
  | .ctlDebugAccRead core => Sys2Proof.Machine.execCtlDebugAccRead core s
  | .ctlDebugBreak core => Sys2Proof.Machine.execCtlDebugBreak core s
  | .overrun core slot => Sys2Proof.Machine.execOverrun core slot s
  | .blockFetchDone core ahead errs => Sys2Proof.Machine.execBlockFetchDone core ahead errs s
  | .invocationEnd inv => Sys2Proof.Machine.execInvocationEnd inv s
  | .seqStepStep agent core halt => Sys2Proof.Machine.execSeqStepStep agent core halt s
  | .seqStepHalt agent core halt => Sys2Proof.Machine.execSeqStepHalt agent core halt s
  | .dbgScrDataRead agent port => Sys2Proof.Machine.execDbgScrDataRead agent port s
  | .switchRequest inv => Sys2Proof.Machine.execSwitchRequest inv s
  | .tileBoundarySave core => Sys2Proof.Machine.execTileBoundarySave core s
  | .spillSaveDone core => Sys2Proof.Machine.execSpillSaveDone core s
  | .contextResume inv lost => Sys2Proof.Machine.execContextResume inv lost s
  | .resumeRestoreDone core => Sys2Proof.Machine.execResumeRestoreDone core s
  | .streamChunkIssue link => Sys2Proof.Machine.execStreamChunkIssue link s
  | .streamChunkLanded link chunk => Sys2Proof.Machine.execStreamChunkLanded link chunk s
  | .streamStall xfer => Sys2Proof.Machine.execStreamStall xfer s
  | .grdBatchBegin grinder => Sys2Proof.Machine.execGrdBatchBegin grinder s
  | .grdRowReadReturn grinder batch read => Sys2Proof.Machine.execGrdRowReadReturn grinder batch read s
  | .grdBatchComplete grinder batch => Sys2Proof.Machine.execGrdBatchComplete grinder batch s
  | .tableDefine agent die port value => Sys2Proof.Machine.execTableDefine agent die port value s
  | .tableStage agent die port value => Sys2Proof.Machine.execTableStage agent die port value s
  | .tableSwitch agent die port value => Sys2Proof.Machine.execTableSwitch agent die port value s
  | .tableRetire agent die port value => Sys2Proof.Machine.execTableRetire agent die port value s
  | .tableRetireForce agent die port value => Sys2Proof.Machine.execTableRetireForce agent die port value s
  | .tableUpdate agent die port value => Sys2Proof.Machine.execTableUpdate agent die port value s
  | .tableUndefine agent die port value => Sys2Proof.Machine.execTableUndefine agent die port value s
  | .updateFold die update source => Sys2Proof.Machine.execUpdateFold die update source s
  | .sessionAdmit admission => Sys2Proof.Machine.execSessionAdmit admission s
  | .stepBatchBuild worker queue id sessions envelope enclosure => Sys2Proof.Machine.execStepBatchBuild worker queue id sessions envelope enclosure s
  | .prefixNodeBadReport home slot => Sys2Proof.Machine.execPrefixNodeBadReport home slot s
  | .hbmAccess stack index errs tags => Sys2Proof.Machine.execHbmAccess stack index errs tags s
  | .hbmAtomic op place wide operand compare => Sys2Proof.Machine.execHbmAtomic op place wide operand compare s
  | .backgroundFillStart die index errs => Sys2Proof.Machine.execBackgroundFillStart die index errs s
  | .backgroundFillDrop die index => Sys2Proof.Machine.execBackgroundFillDrop die index s
  | .evictionWritebackDone die index => Sys2Proof.Machine.execEvictionWritebackDone die index s
  | .hbmPatrolRead stack words => Sys2Proof.Machine.execHbmPatrolRead stack words s
  | .hbmScrubLate stack => Sys2Proof.Machine.execHbmScrubLate stack s
  | .hbmRetrainPauseStart stack channel newSpare => Sys2Proof.Machine.execHbmRetrainPauseStart stack channel newSpare s
  | .hbmRetrainPauseEnd stack => Sys2Proof.Machine.execHbmRetrainPauseEnd stack s
  | .cacheCleanDone die => Sys2Proof.Machine.execCacheCleanDone die s
  | .segWrite who slot notify vector => Sys2Proof.Machine.execSegWrite who slot notify vector s
  | .segClear who slot notify vector => Sys2Proof.Machine.execSegClear who slot notify vector s
  | .segRead who slot notify vector => Sys2Proof.Machine.execSegRead who slot notify vector s
  | .segAdviseWillNeed who slot notify vector => Sys2Proof.Machine.execSegAdviseWillNeed who slot notify vector s
  | .segAdviseCold who slot notify vector => Sys2Proof.Machine.execSegAdviseCold who slot notify vector s
  | .segAdviseReadMostly who slot notify vector => Sys2Proof.Machine.execSegAdviseReadMostly who slot notify vector s
  | .segAdviseRevokeRm who slot notify vector => Sys2Proof.Machine.execSegAdviseRevokeRm who slot notify vector s
  | .segAdviseHot who slot notify vector => Sys2Proof.Machine.execSegAdviseHot who slot notify vector s
  | .segAdviseNormal who slot notify vector => Sys2Proof.Machine.execSegAdviseNormal who slot notify vector s
  | .segAdviseCopyDone context data => Sys2Proof.Machine.execSegAdviseCopyDone context data s
  | .segInvalidateApply context index engine => Sys2Proof.Machine.execSegInvalidateApply context index engine s
  | .segWithdrawAck context index engine => Sys2Proof.Machine.execSegWithdrawAck context index engine s
  | .segMissFill engine => Sys2Proof.Machine.execSegMissFill engine s
  | .segFaultResolveRetry who record => Sys2Proof.Machine.execSegFaultResolveRetry who record s
  | .segFaultResolveFail who record => Sys2Proof.Machine.execSegFaultResolveFail who record s
  | .segmentFaultTimeout record => Sys2Proof.Machine.execSegmentFaultTimeout record s
  | .segFaultCtrlWrite who value => Sys2Proof.Machine.execSegFaultCtrlWrite who value s
  | .gkLinkUp port identity lanes4 => Sys2Proof.Machine.execGkLinkUp port identity lanes4 s
  | .gkReplay port => Sys2Proof.Machine.execGkReplay port s
  | .gkRetrain port => Sys2Proof.Machine.execGkRetrain port s
  | .gkRetrainDone port result => Sys2Proof.Machine.execGkRetrainDone port result s
  | .gkLinkCtrlRetrain who port => Sys2Proof.Machine.execGkLinkCtrlRetrain who port s
  | .gkLinkCtrlFull who port => Sys2Proof.Machine.execGkLinkCtrlFull who port s
  | .hostLostTimeout host => Sys2Proof.Machine.execHostLostTimeout host s
  | .hostReset port => Sys2Proof.Machine.execHostReset port s
  | .hostRegister who queue count => Sys2Proof.Machine.execHostRegister who queue count s
  | .hostRelease who => Sys2Proof.Machine.execHostRelease who s
  | .hostDrain who queue refusedAt => Sys2Proof.Machine.execHostDrain who queue refusedAt s
  | .hostAccessRefused target => Sys2Proof.Machine.execHostAccessRefused target s
  | .flushReadReturn port => Sys2Proof.Machine.execFlushReadReturn port s
  | .gkSpillBaseWrite who value => Sys2Proof.Machine.execGkSpillBaseWrite who value s
  | .mailboxToCarrier who mailbox => Sys2Proof.Machine.execMailboxToCarrier who mailbox s
  | .mailboxSubmit who mailbox enclosure refused => Sys2Proof.Machine.execMailboxSubmit who mailbox enclosure refused s
  | .m2hMessage mailbox message => Sys2Proof.Machine.execM2hMessage mailbox message s
  | .mbM2hFullRelease who mailbox => Sys2Proof.Machine.execMbM2hFullRelease who mailbox s
  | .vectorRaise vector => Sys2Proof.Machine.execVectorRaise vector s
  | .vectorHoldoffEnd vector => Sys2Proof.Machine.execVectorHoldoffEnd vector s
  | .ivCtrlWrite who vector value => Sys2Proof.Machine.execIvCtrlWrite who vector value s
  | .gkWake port => Sys2Proof.Machine.execGkWake port s
  | .sqTailWrite agent queue value => Sys2Proof.Machine.execSqTailWrite agent queue value s
  | .rqHeadWrite agent queue value => Sys2Proof.Machine.execRqHeadWrite agent queue value s
  | .sqEnable agent queue value => Sys2Proof.Machine.execSqEnable agent queue value s
  | .sqDisable agent queue value => Sys2Proof.Machine.execSqDisable agent queue value s
  | .envelopeStage queue envelope enclosure refused => Sys2Proof.Machine.execEnvelopeStage queue envelope enclosure refused s
  | .invocationDispatch partition => Sys2Proof.Machine.execInvocationDispatch partition s
  | .invocationRunnable inv => Sys2Proof.Machine.execInvocationRunnable inv s
  | .receiptWrite queue => Sys2Proof.Machine.execReceiptWrite queue s
  | .courierReplay port => Sys2Proof.Machine.execCourierReplay port s
  | .courierRetrain port => Sys2Proof.Machine.execCourierRetrain port s
  | .courierRetrainDone port result => Sys2Proof.Machine.execCourierRetrainDone port result s
  | .read head offset bytes met => Sys2Proof.Machine.execRead head offset bytes met s
  | .readData head offset data => Sys2Proof.Machine.execReadData head offset data s
  | .write head offset data met => Sys2Proof.Machine.execWrite head offset data met s
  | .atomic head op place wide operand compare => Sys2Proof.Machine.execAtomic head op place wide operand compare s
  | .ack head flow seq old => Sys2Proof.Machine.execAck head flow seq old s
  | .nack head flow seq reason => Sys2Proof.Machine.execNack head flow seq reason s
  | .gather head group offset data sameRecord => Sys2Proof.Machine.execGather head group offset data sameRecord s
  | .step head queue epoch id envelope enclosure => Sys2Proof.Machine.execStep head queue epoch id envelope enclosure s
  | .stepReceipt head queue epoch id receipt results => Sys2Proof.Machine.execStepReceipt head queue epoch id receipt results s
  | .routed head up ring position data => Sys2Proof.Machine.execRouted head up ring position data s
  | .join head epoch join => Sys2Proof.Machine.execJoin head epoch join s
  | .assign head epoch ring position => Sys2Proof.Machine.execAssign head epoch ring position s
  | .heartbeat head epoch => Sys2Proof.Machine.execHeartbeat head epoch s
  | .heartbeatSend => Sys2Proof.Machine.execHeartbeatSend s
  | .time head epoch time => Sys2Proof.Machine.execTime head epoch time s
  | .timeExchange port delayNs => Sys2Proof.Machine.execTimeExchange port delayNs s
  | .linkNotice head epoch places link => Sys2Proof.Machine.execLinkNotice head epoch places link s
  | .announce head epoch => Sys2Proof.Machine.execAnnounce head epoch s
  | .drainRing head epoch ring => Sys2Proof.Machine.execDrainRing head epoch ring s
  | .courierResend index => Sys2Proof.Machine.execCourierResend index s
  | .courierPeerLost position => Sys2Proof.Machine.execCourierPeerLost position s
  | .managerLost => Sys2Proof.Machine.execManagerLost s
  | .bypassSwitchSettle switch => Sys2Proof.Machine.execBypassSwitchSettle switch s
  | .caps who slot notify vector => Sys2Proof.Machine.execCaps who slot notify vector s
  | .quote who slot notify vector => Sys2Proof.Machine.execQuote who slot notify vector s
  | .ownerRegister who slot notify vector signature => Sys2Proof.Machine.execOwnerRegister who slot notify vector signature s
  | .ownerTransfer who slot notify vector signatures => Sys2Proof.Machine.execOwnerTransfer who slot notify vector signatures s
  | .carrierLoad who slot notify vector => Sys2Proof.Machine.execCarrierLoad who slot notify vector s
  | .carrierLoadDone image => Sys2Proof.Machine.execCarrierLoadDone image s
  | .contextClaim who slot notify vector => Sys2Proof.Machine.execContextClaim who slot notify vector s
  | .contextRelease who slot notify vector => Sys2Proof.Machine.execContextRelease who slot notify vector s
  | .queueContext who slot notify vector => Sys2Proof.Machine.execQueueContext who slot notify vector s
  | .ringQueuesSet who slot notify vector => Sys2Proof.Machine.execRingQueuesSet who slot notify vector s
  | .ringQueuesClear who slot notify vector => Sys2Proof.Machine.execRingQueuesClear who slot notify vector s
  | .savePool who slot notify vector => Sys2Proof.Machine.execSavePool who slot notify vector s
  | .abort who slot notify vector => Sys2Proof.Machine.execAbort who slot notify vector s
  | .keyInstall who slot notify vector => Sys2Proof.Machine.execKeyInstall who slot notify vector s
  | .keyBind who slot notify vector => Sys2Proof.Machine.execKeyBind who slot notify vector s
  | .keyRemove who slot notify vector => Sys2Proof.Machine.execKeyRemove who slot notify vector s
  | .exportWindow who slot notify vector => Sys2Proof.Machine.execExportWindow who slot notify vector s
  | .groupWrite who slot notify vector => Sys2Proof.Machine.execGroupWrite who slot notify vector s
  | .groupDelete who slot notify vector => Sys2Proof.Machine.execGroupDelete who slot notify vector s
  | .hbmRepair who slot notify vector => Sys2Proof.Machine.execHbmRepair who slot notify vector s
  | .islandRetire who slot notify vector => Sys2Proof.Machine.execIslandRetire who slot notify vector s
  | .bootStart recordBad => Sys2Proof.Machine.execBootStart recordBad s
  | .bootDone pufOk training => Sys2Proof.Machine.execBootDone pufOk training s
  | .slackAlarm island => Sys2Proof.Machine.execSlackAlarm island s
  | .plannerDailyRun readings => Sys2Proof.Machine.execPlannerDailyRun readings s
  | .planCtrlRun who goal readings => Sys2Proof.Machine.execPlanCtrlRun who goal readings s
  | .powerOnHour => Sys2Proof.Machine.execPowerOnHour s
  | .scratchpadScrub core met => Sys2Proof.Machine.execScratchpadScrub core met s
  | .logEntryWrite island => Sys2Proof.Machine.execLogEntryWrite island s
  | .logIntervalEnd island code => Sys2Proof.Machine.execLogIntervalEnd island code s
  | .logMirrorSend => Sys2Proof.Machine.execLogMirrorSend s
  | .supplyWarning mv => Sys2Proof.Machine.execSupplyWarning mv s
  | .supplyWarningClear mv => Sys2Proof.Machine.execSupplyWarningClear mv s
  | .supplyReset mv => Sys2Proof.Machine.execSupplyReset mv s
  | .supplyRestored mv => Sys2Proof.Machine.execSupplyRestored mv s
  | .supplyOff => Sys2Proof.Machine.execSupplyOff s
  | .powerUp mv => Sys2Proof.Machine.execPowerUp mv s
  | .powerGood => Sys2Proof.Machine.execPowerGood s
  | .mrstNAssert => Sys2Proof.Machine.execMrstNAssert s
  | .mrstNRelease => Sys2Proof.Machine.execMrstNRelease s
  | .pwrCtrlModuleReset who wdogMs => Sys2Proof.Machine.execPwrCtrlModuleReset who wdogMs s
  | .postmasterReset sram => Sys2Proof.Machine.execPostmasterReset sram s
  | .moduleResetBoot => Sys2Proof.Machine.execModuleResetBoot s
  | .pwrCtrlCarrierRestart who wdogMs => Sys2Proof.Machine.execPwrCtrlCarrierRestart who wdogMs s
  | .carrierWatchdogExpiry => Sys2Proof.Machine.execCarrierWatchdogExpiry s
  | .pwrCtrlWdogKick who wdogMs => Sys2Proof.Machine.execPwrCtrlWdogKick who wdogMs s
  | .pwrCtrlPark who wdogMs => Sys2Proof.Machine.execPwrCtrlPark who wdogMs s
  | .parkDone => Sys2Proof.Machine.execParkDone s
  | .pwrCtrlUnpark who wdogMs training => Sys2Proof.Machine.execPwrCtrlUnpark who wdogMs training s
  | .unparkDone readings => Sys2Proof.Machine.execUnparkDone readings s
  | .junctionTempChange island tempC => Sys2Proof.Machine.execJunctionTempChange island tempC s
  | .thermalCriticalTimeout => Sys2Proof.Machine.execThermalCriticalTimeout s
  | .inputPowerLimit watts => Sys2Proof.Machine.execInputPowerLimit watts s
  | .hbmTempChange stack tempC => Sys2Proof.Machine.execHbmTempChange stack tempC s
  | .coreReset core => Sys2Proof.Machine.execCoreReset core s
  | .islandIdleGate island => Sys2Proof.Machine.execIslandIdleGate island s
  | .sbReadModId => Sys2Proof.Machine.execSbReadModId s
  | .sbReadModState => Sys2Proof.Machine.execSbReadModState s
  | .sbReadModSerial => Sys2Proof.Machine.execSbReadModSerial s
  | .sbReadPmStatus => Sys2Proof.Machine.execSbReadPmStatus s
  | .sbReadPwrSupply => Sys2Proof.Machine.execSbReadPwrSupply s
  | .sbReadPwrThermal => Sys2Proof.Machine.execSbReadPwrThermal s
  | .sbReadAlertStatus => Sys2Proof.Machine.execSbReadAlertStatus s
  | .sbReadLogSeq => Sys2Proof.Machine.execSbReadLogSeq s
  | .sbReadModuleRecord offset count => Sys2Proof.Machine.execSbReadModuleRecord offset count s
  | .sbUnusedCommand command => Sys2Proof.Machine.execSbUnusedCommand command s
  | .courierLinkUp port neighbour bypassed lanes4 => Sys2Proof.Machine.execCourierLinkUp port neighbour bypassed lanes4 s
  | .pmCallDone slot => Sys2Proof.Machine.execPmCallDone slot s
  | .slackCheckDone island pass reading => Sys2Proof.Machine.execSlackCheckDone island pass reading s
  | .plannerRunDone => Sys2Proof.Machine.execPlannerRunDone s
  | .semPostRegister who die value => Sys2Proof.Machine.execSemPostRegister who die value s
  | .carrierAccess die access => Sys2Proof.Machine.execCarrierAccess die access s

end Sys2Proof.Machine
end

