-- ==== Sys2Proof/Safety.lean ====
section
/-! DEFINITION. The terms in which claims about the module are written: the parts of the state and which of them a command leaves as
they were, the canonical form of memory, and the invariant that every step keeps. -/

namespace Sys2Proof.Machine

/-- The canonical form of memory: addresses strictly rising, and no byte listed that an unlisted address reads as. -/
def Memory.wf (m : List Host.Cell) : Bool := tabWf emptyByte m

/-- What every step keeps of the bytes and marks that the module holds: memory is in its canonical form, and the poisoned granules
(R226, R290) are listed once each, rising. -/
def State.stored (s : State) : Bool := Memory.wf s.mem && setRising 0 s.poison

/-- The parts of the state, one for each of its fields; transfers are numbered with their table. -/
inductive Part where
  | pending | freeCtr | devTime | mode | log | plan | power | isl | pm | mem | poison | cache | mc | seg | xfers | net | host | qs | sems
  | cores | links | selects | grinders | stores | blend | courier | answers
deriving DecidableEq, Repr

/-- A part of the state is in `t` what it was in `s`; of memory, that every byte reads as it did. -/
def Part.same (s t : State) : Part → Prop
  | .pending => t.pending = s.pending
  | .freeCtr => t.freeCtr = s.freeCtr
  | .devTime => t.devTime = s.devTime
  | .mode => t.mode = s.mode
  | .log => t.log = s.log
  | .plan => t.plan = s.plan
  | .power => t.power = s.power
  | .isl => t.isl = s.isl
  | .pm => t.pm = s.pm
  | .mem => t.mem = s.mem ∧ ∀ a, memByte t a = memByte s a
  | .poison => t.poison = s.poison
  | .cache => t.cache = s.cache
  | .mc => t.mc = s.mc
  | .seg => t.seg = s.seg
  | .xfers => t.xfers = s.xfers ∧ t.nextXfer = s.nextXfer
  | .net => t.net = s.net
  | .host => t.host = s.host
  | .qs => t.qs = s.qs
  | .sems => t.sems = s.sems
  | .cores => t.cores = s.cores
  | .links => t.links = s.links
  | .selects => t.selects = s.selects
  | .grinders => t.grinders = s.grinders
  | .stores => t.stores = s.stores
  | .blend => t.blend = s.blend
  | .courier => t.courier = s.courier
  | .answers => t.answers = s.answers

/-- Every part of the state but the listed ones is in `t` what it was in `s`. -/
def SameExcept (ps : List Part) (s t : State) : Prop := ∀ p : Part, p ∉ ps → p.same s t

/-- Every physical core but one is in `t` what it was in `s`. -/
def OtherCores (p : Nat) (s t : State) : Prop := ∀ q, q ≠ p → getCore t q = getCore s q

/-- Every island but one is in `t` what it was in `s`. -/
def OtherIslands (n : Nat) (s t : State) : Prop := ∀ m, m ≠ n → getIsl t m = getIsl s m

/-- Every queue but one is in `t` what it was in `s`. -/
def OtherQueues (q : Nat) (s t : State) : Prop := ∀ r, r ≠ q → getQ t r = getQ s r

/-! ### When an op issues (R187-R206) -/

/-- A core issues (R187, R188, R202, R207): a running invocation is on it, which has not ended and holds no wait, nothing halts it, its window of 8
has a place, and no op that a switch withdrew waits to be issued again. -/
abbrev IssueOpen (c : Core) : Prop :=
  c.inv.isSome = true ∧ c.phase = .running ∧ c.ended = false ∧ c.wait = none ∧ c.halt = false ∧ c.window.length < 8 ∧ c.withdrawn = []

/-- The semaphore of a `SEM_DONE` field, where it names one, is one that the partition may post (R49). -/
abbrev DoneOk (s : State) (p : Nat) (done : Option Nat) : Prop :=
  ∀ d ∈ done, semReach s (((partOfPhys s p).map (·.1)).getD 0) d = true

/-- A valid MAT op: its mode, formats, mask and extents (R87, R104, R125, R193), its partition's dataflow (R47), its bound (R201), its accumulation
(R118, R126), its epilogue descriptor (R137), its weight source (R123, R155, R270), its areas (R192) and its reserved fields. -/
abbrev MatValid (s : State) (p : Nat) (w : Bits256) : Prop :=
  let c := getCore s p
  let o := matOp w
  let r := matRefs c w
  let fr := dzFrame s p c r.weights
  let d := epiDesc s p r.epi
  let flow := ((partOfPhys s p).map (·.2.dataflow)).getD 2
  (o.mode ≤ 2 ∧ fmtValid o.fw = true ∧ fmtValid o.fa = true ∧ pairValid o.fw o.fa = true ∧ (o.cls = 3 ↔ o.mode = 2)) ∧
  (o.mask ≠ 0 ∧ o.pOrK ≠ 0 ∧ (o.mode ≠ 2 → 1 ≤ o.m ∧ o.m ≤ 64) ∧ (o.mode = 0 → o.nOrRound = 0) ∧
    (o.mode = 1 → 1 ≤ o.nOrRound ∧ o.nOrRound ≤ 64) ∧ (o.mode = 2 → o.pOrK ≤ 1018 ∧ o.m = 0 ∧ o.nOrRound ≤ 4)) ∧
  (¬(flow = 0 ∧ o.mode = 1) ∧ ¬(flow = 1 ∧ o.mode = 0)) ∧
  (1 ≤ opBound w ∧ matMin c o ≤ opBound w ∧ opBound w ≤ 4096) ∧
  ((fmtIsInt o.fw = true → o.x = 0) ∧ -256 ≤ o.x ∧ o.x ≤ 127 ∧
    (o.cont = true → ∀ a ∈ maskArrays o.mask, expectKept c a = some (o.cls, o.mode, o.x)) ∧ (o.handoff = false → o.post = false)) ∧
  (o.handoff = true → r.epi % 64 = 0 ∧ inArea s p (r.epi, 64) = true ∧ scrPoisoned s p r.epi 64 = false ∧ d.fieldsOk o = true ∧
    ∀ a ∈ d.ranges o, inArea s p a = true) ∧
  (o.expander = true → ¬(o.mode = 0 ∧ o.cls = 2 ∧ 16 ≤ fmtBits o.fw) ∧ weightBytes o % 4096 = 0 ∧ r.weights % 16 = 0 ∧ fr.flags < 2 ∧
    fr.dz % 16 = 0 ∧ fr.encBytes % 16 = 0 ∧ nearReserved (scrNat s p r.weights 4) = false ∧
    (fr.hasBase = true → nearReserved (scrNat s p (r.weights + 4) 4) = false) ∧ scrPoisoned s p r.weights 16 = false) ∧
  (o.scaled_ = true → o.mode ≠ 2 ∧ fmtIsInt o.fw = false ∧ fmtBits o.fw < 16) ∧
  (∀ a ∈ matRanges o r fr, inArea s p a = true) ∧
  (opFlags w < 32 ∧ opField w 5 1 < 16 ∧ (o.handoff = false → opField w 0x14 4 = 0) ∧
    (¬(o.scaled_ = true ∧ o.expander = true) → opField w 0x18 4 = 0) ∧ opField w 0x1C 4 < 2 ^ 22 ∧
    nearReserved (opField w 0xC 4) = false ∧ nearReserved (opField w 0x10 4) = false ∧ nearReserved (opField w 0x14 4) = false ∧
    nearReserved (opField w 0x18 4) = false)

/-- A valid VEC op at issue (R184, R195, R201): its fields, its stream block in the op areas, and its bound, which is held to C where no stream
waits for a queue entry. -/
abbrev VecValid (s : State) (p : Nat) (w : Bits256) : Prop :=
  let near := nearRef (getCore s p) (opField w 8 4)
  let b := vBlock s p near
  opSub w = 0 ∧ opFlags w = 0 ∧ opField w 5 1 < 16 ∧ nearReserved (opField w 8 4) = false ∧ opZero w [(6, 2), (0xC, 20)] = true ∧
  1 ≤ opBound w ∧ opBound w ≤ 4096 ∧ inArea s p (near, 64) = true ∧
  (queueArrays b = [] → vecBlockOk s p near b w = true → vecCount b (opChain s p w) ≤ opBound w)

/-- A valid MOV op (R196, R283): its kind and flags, its reserved fields, its limits, its bound, its near rows in the op areas and its `SEM_DONE`. -/
abbrev MovValid (s : State) (p : Nat) (w : Bits256) : Prop :=
  let c := getCore s p
  let o := movOp w
  let near := nearRef c o.near
  let src := nearRef c (o.far % 2 ^ 32)
  (o.kind ≤ 4 ∧ (o.skew = true → o.kind = 0 ∨ o.kind = 2) ∧ (o.unsealed = true → o.kind = 0)) ∧
  (opFlags w < 4 ∧ (o.kind ≠ 4 → nearReserved o.near = false) ∧
    (o.kind ≠ 2 → o.kind ≠ 3 → farReserved o.far = false) ∧ (o.kind = 2 ∨ o.kind = 3 → o.far < 2 ^ 32) ∧
    (o.kind = 2 → nearReserved (o.far % 2 ^ 32) = false) ∧ opField w 0x15 3 < 2 ^ 22 ∧ (o.unsealed = true → o.farStride < 2 ^ 16) ∧
    bitsOf (opField w 0x1C 3) 22 17 = 0 ∧ opField w 0x1F 1 = 0) ∧
  (1 ≤ o.rowBytes ∧ o.rowBytes ≤ 4194304 ∧ 1 ≤ o.rows ∧
    (o.skew = true → o.rowBytes ∈ [32, 48, 64, 128] ∧ o.nearStride = 0) ∧
    (o.kind = 3 → o.rowBytes % 4 = 0 ∧ o.nearStride % 4 = 0) ∧ (o.kind = 4 → o.rowBytes % 4 = 0 ∧ o.farStride % 4 = 0) ∧
    (o.unsealed = true → o.rows = 1 ∧ o.skew = false ∧ o.nearStride = 0 ∧ farRef c o.far % 16 = 0 ∧ o.rowBytes % 16 = 0)) ∧
  (8 ≤ opBound w ∧ opBound w ≤ 4096) ∧
  (o.kind ≠ 4 → ∀ r ∈ movRows o near, inArea s p r = true) ∧
  (o.kind = 2 → ∀ r < o.rows, inArea s p (src + r * o.farStride, o.rowBytes) = true) ∧
  DoneOk s p o.done

/-- A valid GRD op (R198): its fields, its bound, a grinder of its partition and its `SEM_DONE`. -/
abbrev GrdValid (s : State) (p : Nat) (w : Bits256) : Prop :=
  opSub w = 0 ∧ opFlags w = 0 ∧ farReserved (grdDesc w) = false ∧ bitsOf (opField w 0x10 3) 22 17 = 0 ∧
  opZero w [(5, 3), (0x13, 13)] = true ∧ 8 ≤ opBound w ∧ opBound w ≤ 4096 ∧ DoneOk s p (grdDone w) ∧
  grdGrinder w < 16 ∧ bitOf (((partOfPhys s p).map (·.2.grinderMask)).getD 0) (grdGrinder w) = true

/-- A valid SEM op (R49, R199): its fields, its bound, and a semaphore that its partition reaches, and owns where it is set. -/
abbrev SemValid (s : State) (p : Nat) (w : Bits256) : Prop :=
  let pid := ((partOfPhys s p).map (·.1)).getD 0
  opSub w ≤ 2 ∧ opFlags w = 0 ∧ opField w 4 4 < 2 ^ 17 ∧ (opSub w = 1 → semArg w < 16) ∧ (opSub w = 2 → semArg w = 0) ∧
  opZero w [(0xC, 20)] = true ∧ (opSub w < 2 → semCount w ≠ 0) ∧ 4 ≤ opBound w ∧ opBound w ≤ 4096 ∧
  semReach s pid (semId w) = true ∧ (opSub w = 2 → semOwner s (semId w) = some pid)

/-- A valid CTL op (R50, R200, R206): its reserved fields, its limits and bound, its scratchpad reference, the link that an ARM names, the
partition's debug permissions, and a declaration that keeps R206. -/
abbrev CtlValid (s : State) (p : Nat) (w : Bits256) : Prop :=
  let c := getCore s p
  let at_ := nearRef c (opField w 8 4)
  let dbg := (partOfPhys s p).map (·.2)
  opSub w ≤ 7 ∧ ctlReserved w = false ∧ opBound w ≤ 4096 ∧
  (opSub w = 1 → loopTarget w ≤ 0 ∧ -65536 ≤ loopTarget w) ∧
  (if opSub w = 7 ∧ opField w 4 1 = 0 then 200 else 4) ≤ opBound w ∧
  (opSub w = 3 → at_ % 8 = 0 ∧ inArea s p (at_, 8) = true) ∧
  (opSub w = 4 → armOk s p w = true) ∧
  (opSub w = 7 → opField w 4 1 ≤ 1 ∧ (opField w 4 1 = 0 → inArea s p (at_, 34368) = true ∧ (dbg.map (·.accumVisible)).getD false = true) ∧
    (opField w 4 1 = 1 → (dbg.map (·.singleStep)).getD false = true)) ∧
  (opSub w = 6 → ∃ n, c.liveMore = some n ∧ n < 3) ∧
  (opSub w = 5 ∨ opSub w = 6 → liveOk s p c w = true)

/-- A valid op of each class; no other class is valid (R190, R205). -/
abbrev OpValid (s : State) (p : Nat) (w : Bits256) : Prop :=
  (opClass w = 0 ∧ MatValid s p w) ∨ (opClass w = 1 ∧ VecValid s p w) ∨ (opClass w = 2 ∧ MovValid s p w) ∨
  (opClass w = 3 ∧ GrdValid s p w) ∨ (opClass w = 4 ∧ SemValid s p w) ∨ (opClass w = 5 ∧ CtlValid s p w)

/-- The unit can take the op: DMA has fewer than 32 transfers of the core in progress (R188), the grinder's queue of 16 has a place (R198), the link
has no stream pending (R219), and an ACC_READ finds no MAT op in the window (R200). -/
abbrev UnitFree (s : State) (p : Nat) (w : Bits256) : Prop :=
  (opClass w = 2 → (s.xfers.filter (fun e => match e.2.owner with | .mov q _ => q == p && !xferDone e.2 | _ => false)).length < 32) ∧
  (opClass w = 3 → (getGrinder s ((logicalOf s p).getD 0 / 80 * 16 + grdGrinder w)).queue.length < 16) ∧
  (opClass w = 5 → opSub w = 4 → opField w 0x10 8 = 0 ∨ (getLink s (armLink s p w)).pending = none) ∧
  (opClass w = 5 → opSub w = 7 → opField w 4 1 = 0 → ∀ o ∈ (getCore s p).window, opClass o.word ≠ 0)

/-- When an op stands at PC of a core that issues and is issued: the logical core is linked, the op's granule carries no mark, the op is valid and its
unit can take it. -/
abbrev ReadyOp (s : State) (l p : Nat) (w : Bits256) : Prop :=
  physOf s l = some p ∧ IssueOpen (getCore s p) ∧ opAt (getCore s p) (getCore s p).pc = some (w, false) ∧ OpValid s p w ∧ UnitFree s p w

/-- What an op's issue leaves besides its own effect `u`: a declaration that it does not continue is over, as is a stall, and its engine's cache may hold
segments ahead of use (R200, R202, R317). -/
def AfterIssue (p : Nat) (u t : State) : Prop :=
  getCore t p = { getCore u p with liveMore := none, stall := none } ∧ OtherCores p u t ∧ SameExcept [.cores, .seg] u t

/-- Wherever a segment leads to the device address of a host, that host is registered (R336). -/
def EntryServes (s : State) (e : SegEntry) : Prop := ∀ va, segCovers e va = true → hostServes s (e.dbase + (va - e.vstart)) = true

/-- No segment of the tables or of an engine's cache leads to a host that is not registered (R313, R315, R336). -/
def HostsServe (s : State) : Prop :=
  (∀ k, EntryServes s (tabGet segEntryReset s.seg.entries k)) ∧ ∀ n, ∀ c ∈ engineCache s n, EntryServes s c.entry

/-- The op has taken the last place of the core's issue window, and PC stands past it (R188, R190). -/
def Placed (s t : State) (p : Nat) (w : Bits256) (started : Bool) : Prop :=
  (getCore t p).pc = nextPc (getCore s p) ∧ (getCore t p).nextSeq = (getCore s p).nextSeq + 1 ∧
  ∃ o : IssuedOp, (getCore t p).window = (getCore s p).window ++ [o] ∧ o.word = w ∧ o.addr = (getCore s p).pc ∧
    o.seq = (getCore s p).nextSeq ∧ o.started = started ∧ o.issuedAt = s.devTime

/-- A MOV op has taken a place in the window, and PC stands past it; it has started where no MOV before it waits (R188, R189, R196). -/
def MovPlaced (s t : State) (p : Nat) (w : Bits256) (x : Option Nat) : Prop :=
  (getCore t p).pc = nextPc (getCore s p) ∧ (getCore t p).nextSeq = (getCore s p).nextSeq + 1 ∧
  (getCore t p).window.length = (getCore s p).window.length + 1 ∧
  ∃ o ∈ (getCore t p).window, o.word = w ∧ o.addr = (getCore s p).pc ∧ o.seq = (getCore s p).nextSeq ∧ o.issuedAt = s.devTime ∧ o.xfer = x

/-- A MOV op has taken a place in the window and its transfer, numbered next, has been made for the core's invocation (R189, R196). -/
def TransferBegun (s t : State) (p : Nat) (w : Bits256) (x : Xfer) : Prop :=
  getXfer t s.nextXfer = some x ∧ t.nextXfer = s.nextXfer + 1 ∧ x.owner = .mov p (getCore s p).nextSeq ∧
  x.inv = (getCore s p).inv.getD 0 ∧ MovPlaced s t p w (some s.nextXfer)

/-- A byte that a write of n bytes through a core's port reaches: one of the core's own scratchpad, or of the ring to which the send copy of a
link forwards what falls in it (R215). -/
def PortHits (s : State) (p port off n a : Nat) : Prop :=
  (scratchKey p off ≤ a ∧ a < scratchKey p off + n) ∨
  ∃ l e cp, logicalOf s p = some l ∧ e ∈ feedingLinks s l port off n ∧ physOf s (l / 80 * 80 + e.2.consumer.unit) = some cp ∧
    scratchKey cp (max off e.2.ringOffset) ≤ a ∧
    a < scratchKey cp (max off e.2.ringOffset) + (min (off + n) (e.2.ringOffset + e.2.ringKib * 1024) - max off e.2.ringOffset)

/-- A call that a write of `PM_CALL` starts (R413, R414, R418): the agent owns the slot, the slot is not running, and the checks that every
call meets pass. -/
def CallAdmitted (s : State) (who : Agent) (k : Nat) (r : CallRule) : Prop :=
  ownsSlot s who k = true ∧ (getSlot s k).state ≠ 1 ∧ ∀ x : CallSlot, x.args = (getSlot s k).args → callCheck s r (agentHost s who) x = 0

/-- A call has ended in `t` with a result and a reply (R414, R417). -/
def CallEnded (t : State) (k result : Nat) (reply : List Byte) : Prop :=
  (getSlot t k).state = 2 ∧ (getSlot t k).result = BitVec.ofNat 64 result ∧ ∀ j < reply.length, tabGet 0 (getSlot t k).reply j = reply.getD j 0

/-- Every line that a range of HBM meets is in the DRAM alone, at a stack in service: no cache holds it, and no eviction buffer. -/
def InDram (s : State) (a n : Nat) : Prop :=
  ∀ l, a / 256 ≤ l → l ≤ (a + n - 1) / 256 → stackOffline s (stackOf (l * 256)) = false ∧
    tabFind (getCache s (dieOfStack (stackOf (l * 256)))).lines l = none ∧ findEvb (getCache s (dieOfStack (stackOf (l * 256)))) l = none

/-! ### What each command may change -/

/-- Every part but the queue of commands. -/
def everyPart : List Part :=
  [.freeCtr, .devTime, .mode, .log, .plan, .power, .isl, .pm, .mem, .poison, .cache, .mc, .seg,
   .xfers, .net, .host, .qs, .sems, .cores, .links, .selects, .grinders, .stores, .blend, .courier, .answers]

/-- The parts of the state that each command may change; it leaves every other part as it was. A reset may change every part but the queue
of commands. -/
def Reaches : Instr → List Part
  | .accessMisaligned .. => [.freeCtr, .log, .answers]
  | .registerWrite .. => [.freeCtr, .log, .plan, .power, .isl, .pm, .cache, .mc, .seg, .host, .qs, .cores, .selects, .grinders, .stores, .courier, .answers]
  | .islClockStep .. => [.log, .isl]
  | .packetDeliver .. => [.log, .isl, .mem, .poison, .mc, .xfers, .net, .host, .qs, .courier]
  | .blendLoad .. => [.log, .pm, .host, .blend]
  | .blendStage .. => [.log, .pm, .host, .blend]
  | .reblend .. => [.log, .pm, .host, .blend]
  | .blendCopyDone .. => [.log, .plan, .pm, .mem, .poison, .cache, .mc, .host, .blend]
  | .blendMeasureDone .. => [.blend]
  | .blendSignatureDone .. => [.log, .pm, .host, .blend]
  | .blendValidateDone .. => [.log, .isl, .pm, .xfers, .host, .qs, .sems, .cores, .links, .grinders, .blend]
  | .blendApplyDone .. => [.log, .plan, .isl, .mem, .poison, .cache, .mc, .sems, .cores, .links, .grinders, .blend, .courier]
  | .plannerBootRunDone .. => [.freeCtr, .mode, .log, .plan, .isl, .pm, .xfers, .host, .qs, .sems, .cores, .links, .grinders, .blend, .courier]
  | .reblendStopDone .. => [.log, .isl, .cache, .seg, .qs, .sems, .cores, .links, .grinders, .blend]
  | .drainTimeout .. => [.pm, .host, .blend]
  | .reblendCleanDone .. => [.isl, .pm, .mem, .poison, .cache, .host, .sems, .cores, .links, .grinders, .blend, .courier]
  | .reblendResume .. => [.log, .pm, .host, .blend]
  | .matGrid .. => [.log, .isl, .mem, .poison, .seg, .xfers, .net, .qs, .sems, .cores, .links, .grinders]
  | .matFan .. => [.log, .isl, .mem, .poison, .seg, .xfers, .net, .qs, .sems, .cores, .links, .grinders]
  | .matWide .. => [.log, .isl, .mem, .poison, .seg, .xfers, .net, .qs, .sems, .cores, .links, .grinders]
  | .matStart .. => [.cores]
  | .accOverflow .. => [.freeCtr, .log, .isl, .mem, .poison, .qs, .cores]
  | .accReplayRestart .. => [.cores]
  | .matComplete .. => [.freeCtr, .log, .isl, .mem, .poison, .qs, .cores]
  | .vec .. => [.log, .isl, .mem, .poison, .seg, .xfers, .net, .qs, .sems, .cores, .links, .grinders]
  | .vecStart .. => [.log, .isl, .xfers, .qs, .sems, .cores, .links, .grinders]
  | .vecComplete .. => [.freeCtr, .log, .isl, .mem, .poison, .qs, .cores]
  | .movLoad .. => [.log, .isl, .mem, .poison, .seg, .xfers, .net, .qs, .sems, .cores, .links, .grinders]
  | .movLoadUnseal .. => [.log, .isl, .mem, .poison, .seg, .xfers, .net, .qs, .sems, .cores, .links, .grinders]
  | .movStore .. => [.log, .isl, .mem, .poison, .seg, .xfers, .net, .qs, .sems, .cores, .links, .grinders]
  | .movLocal .. => [.log, .isl, .mem, .poison, .seg, .xfers, .net, .qs, .sems, .cores, .links, .grinders]
  | .movFillNear .. => [.log, .isl, .mem, .poison, .seg, .xfers, .net, .qs, .sems, .cores, .links, .grinders]
  | .movFillFar .. => [.log, .isl, .mem, .poison, .seg, .xfers, .net, .qs, .sems, .cores, .links, .grinders]
  | .movComplete .. => [.log, .isl, .mem, .poison, .seg, .xfers, .net, .qs, .sems, .cores, .links, .grinders]
  | .unsealCheckDone .. => [.log, .isl, .mem, .poison, .xfers, .cores]
  | .grd .. => [.log, .isl, .mem, .poison, .seg, .xfers, .net, .qs, .sems, .cores, .links, .grinders]
  | .semWait .. => [.log, .isl, .mem, .poison, .seg, .xfers, .net, .qs, .sems, .cores, .links, .grinders]
  | .semPost .. => [.log, .isl, .mem, .poison, .seg, .xfers, .net, .qs, .sems, .cores, .links, .grinders]
  | .semSet .. => [.log, .isl, .mem, .poison, .seg, .xfers, .net, .qs, .sems, .cores, .links, .grinders]
  | .semPostFire .. => [.log, .isl, .qs, .sems, .cores, .links, .grinders]
  | .waitTimeout .. => [.log, .isl, .mem, .poison, .seg, .xfers, .net, .host, .qs, .sems, .cores, .links, .grinders]
  | .ctlEnd .. => [.log, .isl, .mem, .poison, .seg, .xfers, .net, .qs, .sems, .cores, .links, .grinders]
  | .ctlLoop .. => [.log, .isl, .mem, .poison, .seg, .xfers, .net, .qs, .sems, .cores, .links, .grinders]
  | .ctlSet .. => [.log, .isl, .mem, .poison, .seg, .xfers, .net, .qs, .sems, .cores, .links, .grinders]
  | .ctlLdx .. => [.log, .isl, .mem, .poison, .seg, .xfers, .net, .qs, .sems, .cores, .links, .grinders]
  | .ctlArm .. => [.log, .isl, .mem, .poison, .seg, .xfers, .net, .qs, .sems, .cores, .links, .grinders]
  | .ctlCheap .. => [.log, .isl, .mem, .poison, .seg, .xfers, .net, .qs, .sems, .cores, .links, .grinders]
  | .ctlLive .. => [.log, .isl, .mem, .poison, .seg, .xfers, .net, .qs, .sems, .cores, .links, .grinders]
  | .ctlDebugAccRead .. => [.log, .isl, .mem, .poison, .seg, .xfers, .net, .qs, .sems, .cores, .links, .grinders]
  | .ctlDebugBreak .. => [.log, .isl, .mem, .poison, .seg, .xfers, .net, .qs, .sems, .cores, .links, .grinders]
  | .overrun .. => [.log, .isl, .xfers, .qs, .sems, .cores, .links, .grinders]
  | .blockFetchDone .. => [.log, .plan, .isl, .pm, .mem, .poison, .cache, .mc, .seg, .xfers, .qs, .sems, .cores, .links, .grinders]
  | .invocationEnd .. => [.log, .isl, .xfers, .host, .qs, .sems, .cores, .links, .grinders]
  | .seqStepStep .. => [.log, .isl, .mem, .poison, .seg, .xfers, .net, .qs, .sems, .cores, .links, .grinders]
  | .seqStepHalt .. => [.cores]
  | .dbgScrDataRead .. => [.cores, .answers]
  | .switchRequest .. => [.log, .isl, .xfers, .qs, .sems, .cores, .links, .grinders]
  | .tileBoundarySave .. => [.freeCtr, .mem, .poison, .cores]
  | .spillSaveDone .. => [.log, .plan, .isl, .pm, .mem, .poison, .cache, .mc, .qs, .cores]
  | .contextResume .. => [.log, .isl, .mem, .poison, .seg, .xfers, .net, .qs, .sems, .cores, .links, .grinders]
  | .resumeRestoreDone .. => [.log, .isl, .mem, .poison, .seg, .xfers, .net, .qs, .sems, .cores, .links, .grinders]
  | .streamChunkIssue .. => [.log, .isl, .mem, .poison, .seg, .xfers, .net, .qs, .sems, .cores, .links, .grinders]
  | .streamChunkLanded .. => [.log, .isl, .xfers, .qs, .sems, .cores, .links, .grinders]
  | .streamStall .. => [.log, .isl, .mem, .poison, .seg, .xfers, .net, .host, .qs, .sems, .cores, .links, .grinders]
  | .grdBatchBegin .. => [.log, .isl, .mem, .poison, .seg, .xfers, .net, .qs, .sems, .cores, .links, .grinders]
  | .grdRowReadReturn .. => [.log, .isl, .mem, .poison, .seg, .xfers, .net, .qs, .sems, .cores, .links, .grinders]
  | .grdBatchComplete .. => [.log, .isl, .mem, .poison, .seg, .xfers, .net, .qs, .sems, .cores, .links, .grinders, .stores]
  | .tableDefine .. => [.freeCtr, .log, .isl, .qs, .sems, .cores, .links, .grinders, .stores]
  | .tableStage .. => [.freeCtr, .log, .isl, .qs, .sems, .cores, .links, .grinders, .stores]
  | .tableSwitch .. => [.freeCtr, .log, .isl, .qs, .sems, .cores, .links, .grinders, .stores]
  | .tableRetire .. => [.freeCtr, .log, .isl, .qs, .sems, .cores, .links, .grinders, .stores]
  | .tableRetireForce .. => [.freeCtr, .log, .isl, .qs, .sems, .cores, .links, .grinders, .stores]
  | .tableUpdate .. => [.freeCtr, .log, .isl, .qs, .sems, .cores, .links, .grinders, .stores]
  | .tableUndefine .. => [.freeCtr, .log, .isl, .qs, .sems, .cores, .links, .grinders, .stores]
  | .updateFold .. => [.log, .plan, .isl, .pm, .mem, .poison, .cache, .mc, .qs, .sems, .cores, .links, .grinders, .stores]
  | .sessionAdmit .. => [.log, .plan, .pm, .mem, .poison, .cache, .mc, .courier]
  | .stepBatchBuild .. => [.log, .plan, .pm, .mem, .poison, .cache, .mc, .courier]
  | .prefixNodeBadReport .. => [.log, .plan, .pm, .mem, .poison, .cache, .mc, .courier]
  | .hbmAccess .. => [.mode, .log, .plan, .power, .isl, .pm, .mem, .poison, .cache, .mc, .xfers, .net, .qs, .cores, .links, .grinders, .courier]
  | .hbmAtomic .. => [.mode, .log, .plan, .power, .isl, .pm, .mem, .poison, .cache, .mc, .seg, .xfers, .net, .qs, .cores, .links, .grinders, .courier, .answers]
  | .backgroundFillStart .. => [.log, .mem, .poison, .cache, .mc]
  | .backgroundFillDrop .. => [.cache]
  | .evictionWritebackDone .. => [.log, .mem, .poison, .cache, .mc]
  | .hbmPatrolRead .. => [.log, .mem, .poison, .mc]
  | .hbmScrubLate .. => [.log, .mc]
  | .hbmRetrainPauseStart .. => [.freeCtr, .log, .plan, .isl, .pm, .mc, .blend]
  | .hbmRetrainPauseEnd .. => [.mc]
  | .cacheCleanDone .. => [.log, .mem, .poison, .cache, .mc]
  | .segWrite .. => [.log, .pm, .seg, .host]
  | .segClear .. => [.log, .pm, .seg, .host]
  | .segRead .. => [.log, .pm, .seg, .host]
  | .segAdviseWillNeed .. => [.log, .pm, .seg, .host]
  | .segAdviseCold .. => [.log, .pm, .seg, .host]
  | .segAdviseReadMostly .. => [.log, .pm, .seg, .host]
  | .segAdviseRevokeRm .. => [.log, .pm, .seg, .host]
  | .segAdviseHot .. => [.log, .pm, .seg, .host]
  | .segAdviseNormal .. => [.log, .pm, .seg, .host]
  | .segAdviseCopyDone .. => [.log, .plan, .isl, .pm, .mem, .poison, .cache, .mc, .seg, .xfers, .host, .qs]
  | .segInvalidateApply .. => [.seg, .host]
  | .segWithdrawAck .. => [.log, .pm, .seg, .host]
  | .segMissFill .. => [.log, .isl, .mem, .poison, .seg, .xfers, .net, .qs, .sems, .cores, .links, .grinders]
  | .segFaultResolveRetry .. => [.log, .isl, .mem, .poison, .seg, .xfers, .net, .qs, .sems, .cores, .links, .grinders]
  | .segFaultResolveFail .. => [.log, .isl, .mem, .poison, .seg, .xfers, .net, .qs, .sems, .cores, .links, .grinders]
  | .segmentFaultTimeout .. => [.log, .isl, .mem, .poison, .seg, .xfers, .net, .qs, .sems, .cores, .links, .grinders]
  | .segFaultCtrlWrite .. => [.log, .isl, .mem, .poison, .seg, .xfers, .net, .qs, .sems, .cores, .links, .grinders]
  | .gkLinkUp .. => [.isl, .mem, .poison, .xfers, .host, .qs]
  | .gkReplay .. => [.log, .host]
  | .gkRetrain .. => [.log, .host]
  | .gkRetrainDone .. => [.log, .isl, .pm, .mem, .poison, .xfers, .host, .qs]
  | .gkLinkCtrlRetrain .. => [.log, .host]
  | .gkLinkCtrlFull .. => [.log, .host]
  | .hostLostTimeout .. => [.log, .isl, .mem, .poison, .xfers, .net, .host, .qs, .sems, .cores, .links, .grinders]
  | .hostReset .. => [.log, .isl, .mem, .poison, .xfers, .net, .host, .qs, .sems, .cores, .links, .grinders]
  | .hostRegister .. => [.log, .host]
  | .hostRelease .. => [.log, .host, .qs]
  | .hostDrain .. => [.log, .plan, .isl, .pm, .mem, .poison, .cache, .mc, .xfers, .host, .qs]
  | .hostAccessRefused .. => [.log, .plan, .isl, .pm, .mem, .poison, .cache, .mc, .xfers, .net, .host, .qs]
  | .flushReadReturn .. => [.host]
  | .gkSpillBaseWrite .. => [.log, .host]
  | .mailboxToCarrier .. => [.freeCtr, .log, .host]
  | .mailboxSubmit .. => [.freeCtr, .log, .host, .qs]
  | .m2hMessage .. => [.host]
  | .mbM2hFullRelease .. => [.log, .host]
  | .vectorRaise .. => [.host]
  | .vectorHoldoffEnd .. => [.host]
  | .ivCtrlWrite .. => [.log, .host]
  | .gkWake .. => [.isl, .host]
  | .sqTailWrite .. => [.log, .qs]
  | .rqHeadWrite .. => [.log, .qs]
  | .sqEnable .. => [.log, .qs]
  | .sqDisable .. => [.qs]
  | .envelopeStage .. => [.qs]
  | .invocationDispatch .. => [.log, .isl, .xfers, .host, .qs, .sems, .cores, .links, .grinders]
  | .invocationRunnable .. => [.log, .isl, .xfers, .qs, .sems, .cores, .links, .grinders]
  | .receiptWrite .. => [.log, .plan, .isl, .pm, .mem, .poison, .cache, .mc, .xfers, .host, .qs, .courier]
  | .courierReplay .. => [.courier]
  | .courierRetrain .. => [.log, .courier]
  | .courierRetrainDone .. => [.log, .courier]
  | .read .. => [.mode, .log, .plan, .power, .isl, .pm, .mem, .poison, .cache, .mc, .xfers, .net, .qs, .cores, .links, .grinders, .courier]
  | .readData .. => [.isl, .mem, .poison, .xfers, .qs, .courier]
  | .write .. => [.mode, .log, .plan, .power, .isl, .pm, .mem, .poison, .cache, .mc, .xfers, .net, .qs, .cores, .links, .grinders, .courier]
  | .atomic .. => [.mode, .log, .plan, .power, .isl, .pm, .mem, .poison, .cache, .mc, .xfers, .net, .qs, .cores, .links, .grinders, .courier]
  | .ack .. => [.isl, .mem, .poison, .xfers, .qs, .courier, .answers]
  | .nack .. => [.log, .isl, .mem, .poison, .xfers, .qs, .courier]
  | .gather .. => [.log, .plan, .isl, .pm, .mem, .poison, .cache, .mc, .qs, .sems, .cores, .links, .grinders, .courier]
  | .step .. => [.qs, .courier]
  | .stepReceipt .. => [.log, .plan, .pm, .mem, .poison, .cache, .mc, .courier]
  | .routed .. => [.courier]
  | .join .. => [.log, .plan, .pm, .mem, .poison, .cache, .mc, .courier]
  | .assign .. => [.courier]
  | .heartbeat .. => [.courier]
  | .heartbeatSend .. => [.courier]
  | .time .. => [.devTime, .log, .courier]
  | .timeExchange .. => [.courier]
  | .linkNotice .. => [.log, .courier]
  | .announce .. => [.freeCtr, .courier]
  | .drainRing .. => [.courier]
  | .courierResend .. => [.courier]
  | .courierPeerLost .. => [.log, .isl, .mem, .poison, .xfers, .courier]
  | .managerLost .. => [.log, .courier]
  | .bypassSwitchSettle .. => [.log, .courier]
  | .caps .. => [.log, .pm, .host]
  | .quote .. => [.log, .isl, .pm, .mem, .poison, .xfers, .host, .qs]
  | .ownerRegister .. => [.log, .pm, .host]
  | .ownerTransfer .. => [.log, .pm, .host]
  | .carrierLoad .. => [.log, .pm, .host]
  | .carrierLoadDone .. => [.mode, .log, .plan, .power, .isl, .pm, .mem, .poison, .cache, .mc, .host]
  | .contextClaim .. => [.log, .pm, .host]
  | .contextRelease .. => [.log, .pm, .host]
  | .queueContext .. => [.log, .pm, .host, .qs]
  | .ringQueuesSet .. => [.log, .pm, .host, .qs]
  | .ringQueuesClear .. => [.log, .pm, .host, .qs]
  | .savePool .. => [.log, .pm, .host, .qs]
  | .abort .. => [.log, .isl, .pm, .xfers, .host, .qs, .sems, .cores, .links, .grinders]
  | .keyInstall .. => [.log, .pm, .host]
  | .keyBind .. => [.log, .pm, .host]
  | .keyRemove .. => [.log, .pm, .host]
  | .exportWindow .. => [.log, .pm, .host, .courier]
  | .groupWrite .. => [.log, .pm, .host, .courier]
  | .groupDelete .. => [.log, .pm, .host, .courier]
  | .hbmRepair .. => [.freeCtr, .log, .pm, .mem, .mc, .host]
  | .islandRetire .. => [.log, .plan, .isl, .pm, .cache, .xfers, .host, .qs, .sems, .cores, .links, .grinders]
  | .bootStart .. => [.log, .plan, .power, .isl, .pm, .cache]
  | .bootDone .. => [.freeCtr, .mode, .log, .power, .isl, .pm, .mem, .poison, .cache, .mc, .xfers, .net, .qs, .cores, .links, .grinders, .blend, .courier]
  | .slackAlarm .. => [.log, .plan, .isl, .pm, .xfers, .qs, .sems, .cores, .links, .grinders]
  | .plannerDailyRun .. => [.plan, .isl, .pm]
  | .planCtrlRun .. => [.plan, .isl, .pm]
  | .powerOnHour .. => [.plan, .pm]
  | .scratchpadScrub .. => [.mode, .log, .plan, .power, .isl, .pm, .mem, .poison, .cache, .mc, .xfers, .net, .qs, .sems, .cores, .links, .grinders, .courier]
  | .logEntryWrite .. => [.log, .power, .host]
  | .logIntervalEnd .. => [.log]
  | .logMirrorSend .. => [.log, .courier]
  | .supplyWarning .. => [.power, .isl]
  | .supplyWarningClear .. => [.log, .plan, .power]
  | .supplyReset .. => everyPart
  | .supplyRestored .. => [.mode, .power]
  | .supplyOff .. => everyPart
  | .powerUp .. => [.power]
  | .powerGood .. => [.devTime, .mode, .power, .isl]
  | .mrstNAssert .. => everyPart
  | .mrstNRelease .. => [.power]
  | .pwrCtrlModuleReset .. => everyPart
  | .postmasterReset .. => everyPart
  | .moduleResetBoot .. => [.mode, .power]
  | .pwrCtrlCarrierRestart .. => [.log, .power, .isl, .pm, .host]
  | .carrierWatchdogExpiry .. => [.log, .power, .isl, .pm, .host]
  | .pwrCtrlWdogKick .. => [.power]
  | .pwrCtrlPark .. => [.log, .power, .isl, .mem, .poison, .cache, .mc, .qs, .sems, .cores, .links, .grinders, .blend, .courier]
  | .parkDone .. => [.mode, .power, .isl, .pm, .mem, .poison, .mc, .seg, .xfers, .net, .host, .qs, .sems, .cores, .links, .grinders, .courier]
  | .pwrCtrlUnpark .. => [.freeCtr, .log, .plan, .power, .isl, .pm, .mem, .poison, .mc, .host, .cores, .blend, .courier]
  | .unparkDone .. => [.freeCtr, .mode, .log, .plan, .power, .isl, .pm, .xfers, .qs, .sems, .cores, .links, .grinders, .blend, .courier]
  | .junctionTempChange .. => [.mode, .log, .plan, .power, .isl, .pm, .mem, .poison, .cache, .mc, .xfers, .net, .qs, .cores, .links, .grinders, .courier]
  | .thermalCriticalTimeout .. => [.mode, .log, .power, .isl, .pm, .mem, .poison, .cache, .mc, .xfers, .net, .qs, .cores, .links, .grinders, .courier]
  | .inputPowerLimit .. => [.power]
  | .hbmTempChange .. => [.mode, .log, .power, .isl, .pm, .mem, .poison, .cache, .mc, .xfers, .net, .qs, .cores, .links, .grinders, .courier]
  | .coreReset .. => [.log, .isl, .mem, .poison, .seg, .xfers, .net, .host, .qs, .sems, .cores, .links, .grinders, .blend]
  | .islandIdleGate .. => [.isl]
  | .sbReadModId .. => [.answers]
  | .sbReadModState .. => [.answers]
  | .sbReadModSerial .. => [.answers]
  | .sbReadPmStatus .. => [.answers]
  | .sbReadPwrSupply .. => [.answers]
  | .sbReadPwrThermal .. => [.answers]
  | .sbReadAlertStatus .. => [.power, .answers]
  | .sbReadLogSeq .. => [.answers]
  | .sbReadModuleRecord .. => [.freeCtr, .answers]
  | .sbUnusedCommand .. => [.answers]
  | .courierLinkUp .. => [.log, .courier]
  | .pmCallDone .. => [.pm, .host]
  | .slackCheckDone .. => [.log, .plan, .isl, .pm, .xfers, .qs, .sems, .cores, .links, .grinders, .blend]
  | .plannerRunDone .. => [.log, .plan, .pm]
  | .semPostRegister .. => [.log, .isl, .qs, .sems, .cores, .links, .grinders]
  | .carrierAccess .. => [.freeCtr, .log, .plan, .pm, .mem, .poison, .cache, .mc, .cores, .courier, .answers]

end Sys2Proof.Machine
end

