-- ==== Sys2Proof/Certificates/Slice0/Obligations.lean ====
section
/-! DEFINITION. The statements about the module that the provers are asked for. -/

open Sys2Proof Sys2Proof.Machine

/-! ### The queue of commands and the whole state -/

/-- A step takes the command at the front of the queue and is that command on the state with the queue's rest. -/
def Obligations.StepRunsTheFrontCommand : Prop :=
  ∀ (c : Instr) (rest : List Instr) (s : State),
    step { s with pending := c :: rest } = exec c { s with pending := rest }

/-- On an empty queue a step is a tick of 1 ns (R28; that the tick takes the place of idling is log entry 3): `DEV_TIME` counts on, a slew
in progress comes nearer to its end by at most 1 ns, the walk of a cache clean passes a tag in each cycle of the cache's clock (R309), a table port's
post fires once the port is no longer busy (R244), and in OFF nothing changes. -/
def Obligations.EmptyQueueTicks : Prop :=
  ∀ s : State, s.pending = [] →
    (s.mode = .off → step s = .next s) ∧
    (s.mode ≠ .off → s.courier.slew = 0 → (∀ d < 2, (getCache s d).walk = []) → (∀ d < 2, ∀ k < 2, (getPort (getStore s d) k).due = none) →
      step s = .next { s with devTime := s.devTime + 1 }) ∧
    ∃ t, step s = .next t ∧ SameExcept [.devTime, .log, .isl, .cache, .qs, .sems, .cores, .links, .grinders, .stores, .courier] s t ∧
      s.devTime ≤ t.devTime ∧ t.devTime ≤ s.devTime + 2 ∧ t.courier.slew.natAbs ≤ s.courier.slew.natAbs ∧
      (∀ d < 2, s.mode ≠ .off → (getCache s d).walk ≠ [] → getCache t d = walkTags t.devTime (cyclesBetween s (advance s)) (getCache s d)) ∧
      (∀ d < 2, ∀ k < 2, ∀ i, s.mode ≠ .off → (getPort (getStore s d) k).due = some i →
        (getPort (getStore t d) k).due = if (getPort (getStore s d) k).busyUntil ≤ t.devTime then none else some i)

/-- No command stops the module: each answers a next state. -/
def Obligations.EveryCommandAnswersANextState : Prop :=
  ∀ (c : Instr) (s : State), ∃ t, exec c s = .next t

/-- A command changes no part of the state but those that `Reaches` lists for it; the queue of commands is never among them. -/
def Obligations.CommandsReachOnlyTheirParts : Prop :=
  ∀ (c : Instr) (s t : State), exec c s = .next t → SameExcept (Reaches c) s t

/-- Every step keeps the canonical form of memory and of the list of poisoned granules (R226, R290). -/
def Obligations.StepsKeepMemoryAndMarksCanonical : Prop :=
  ∀ s t : State, s.stored = true → step s = .next t → t.stored = true

/-- What reset leaves (R28, R444, R446, R450, R458, R461 and the register tables): ROM, `DEV_TIME` 0, a boot due, no command waiting, no byte
of memory and no mark listed, and the islands, cores, Gheklink ports, queues and call slots as their reset values give them. -/
def Obligations.ResetLeavesTheModuleInRom : Prop :=
  State.reset.pending = [] ∧ State.reset.mode = .rom ∧ State.reset.devTime = 0 ∧ State.reset.power.bootDue = some 0 ∧
  State.reset.blend.applied = false ∧ State.reset.pm.carrierRuns = false ∧ State.reset.plan.goal = 0x60 ∧
  State.reset.courier.limitMs = 100 ∧ State.reset.seg.limitUs = 1000 ∧ State.reset.mem = [] ∧ State.reset.poison = [] ∧ State.reset.stored = true ∧
  (∀ a, memByte State.reset a = emptyByte) ∧ (∀ n, getIsl State.reset n = islandReset) ∧ (∀ p, getCore State.reset p = coreReset) ∧
  (∀ p, (getGk State.reset p).link = .down) ∧ (∀ q, getQ State.reset q = queueReset) ∧ (∀ k, getSlot State.reset k = callSlotReset)

/-- `MOD_STATE.STATE` changes only as R461's table gives. -/
def Obligations.ModuleStateChangesAsTheTableGives : Prop :=
  ∀ (c : Instr) (s t : State), exec c s = .next t →
    t.mode = s.mode ∨
    (s.mode = .off ∧ t.mode = .rom ∧ c = .powerGood) ∨
    (s.mode = .rom ∧ t.mode = .awaitCarrier ∧ ∃ ok tr, c = .bootDone ok tr) ∨
    (s.mode = .awaitCarrier ∧ t.mode = .awaitBlend ∧ ∃ image, c = .carrierLoadDone image) ∨
    (s.mode = .awaitBlend ∧ t.mode = .serving ∧ ∃ rs, c = .plannerBootRunDone rs) ∨
    (s.mode = .serving ∧ t.mode = .parked ∧ c = .parkDone) ∨
    (s.mode = .parked ∧ t.mode = .serving ∧ ∃ rs, c = .unparkDone rs) ∨
    (s.mode ≠ .off ∧ s.mode ≠ .faulted ∧ t.mode = .faulted ∧ 1 ≤ t.pm.fault ∧ t.pm.fault ≤ 6) ∨
    (s.mode ≠ .off ∧ t.mode = .rom ∧ (c = .moduleResetBoot ∨ ∃ mv, c = .supplyRestored mv)) ∨
    (t.mode = .off ∧ c = .supplyOff)

/-- `DEV_TIME` never decreases (R28): of all commands only the loss of supply, after which the module is OFF, and the power-up that follows
it set it back to 0. -/
def Obligations.DeviceTimeNeverDecreases : Prop :=
  ∀ (c : Instr) (s t : State), exec c s = .next t →
    s.devTime ≤ t.devTime ∨ (c = .supplyOff ∧ t.mode = .off ∧ t.devTime = 0) ∨
    (c = .powerGood ∧ s.mode = .off ∧ t.mode = .rom ∧ t.devTime = 0)

/-! ### Tile ops: issue (R188-R200) -/

/-- A MAT or VEC op that is ready takes a place in the issue window, to be started by its unit; PC moves past it. The core keeps the mode that the
last MAT op issued asks for (R121), and a MAT op knows whether it joins the chain of the one before it (R116, R203). Nothing else changes but what
every issue leaves (R188, R193, R195, R317). -/
def Obligations.MatAndVecOpsTakeAPlaceInTheWindow : Prop :=
  ∀ (core : Fin 160) (s : State) (p : Nat) (w : Bits256), ReadyOp s core.val p w →
    let mat := fun (t : State) (mode : Nat) => Placed s t p w false ∧ (getCore t p).issueMode = mode ∧
      (∃ o ∈ (getCore t p).window, o.seq = (getCore s p).nextSeq ∧ o.joins = joinsChain s p (getCore s p) (matOp w)) ∧
      OtherCores p s t ∧ SameExcept [.cores, .seg] s t
    (isMatGrid w = true → ∃ t, exec (.matGrid core) s = .next t ∧ mat t 0) ∧
    (isMatFan w = true → ∃ t, exec (.matFan core) s = .next t ∧ mat t 1) ∧
    (isMatWide w = true → ∃ t, exec (.matWide core) s = .next t ∧ mat t 2) ∧
    (isVec w = true → ∃ t, exec (.vec core) s = .next t ∧ Placed s t p w false ∧
      (getCore t p).issueMode = (getCore s p).issueMode ∧ OtherCores p s t ∧ SameExcept [.cores, .seg] s t)

/-- A MOV op that is ready takes a place in the window, where every host is registered, and one with a far end begins its transfer, as a read or a
write of the pieces of its rows (R188, R189, R196, R283, R313). An `UNSEAL` whose handle is not bound to the context reads nothing (R285). With no
other MOV in the window, a LOCAL and a FILL_NEAR start at once and change nothing else. -/
def Obligations.MovOpsBeginTheirTransfers : Prop :=
  ∀ (core : Fin 160) (s : State) (p : Nat) (w : Bits256), ReadyOp s core.val p w → HostsServe s →
    let c := getCore s p
    let far := movPieces (movOp w) (nearRef c (movOp w).near) (farRef c (movOp w).far)
    let key := unsealKey s (invContext s (c.inv.getD 0)) ((movOp w).farStride % 2 ^ 16)
    let alone := ∀ o ∈ c.window, opClass o.word ≠ 2
    (isMovLoad w = true → ∃ t x, exec (.movLoad core) s = .next t ∧ TransferBegun s t p w x ∧ x.kind = .read ∧ x.pieces.length = far.length ∧
      OtherCores p s t ∧ SameExcept (Reaches (.movLoad core)) s t) ∧
    (isMovLoadUnseal w = true → ∃ t x, exec (.movLoadUnseal core) s = .next t ∧ TransferBegun s t p w x ∧ x.kind = .read ∧
      x.sealed_ = some key ∧ x.pieces.length = (if key = none then 0 else far.length) ∧ OtherCores p s t ∧
      SameExcept (Reaches (.movLoadUnseal core)) s t) ∧
    (isMovStore w = true → ∃ t x, exec (.movStore core) s = .next t ∧ TransferBegun s t p w x ∧ x.kind = .write ∧
      x.pieces.length = far.length ∧ OtherCores p s t ∧ SameExcept (Reaches (.movStore core)) s t) ∧
    (isMovFillFar w = true → ∃ t x, exec (.movFillFar core) s = .next t ∧ TransferBegun s t p w x ∧ x.kind = .write ∧
      x.pieces.length = far.length ∧ OtherCores p s t ∧ SameExcept (Reaches (.movFillFar core)) s t) ∧
    (isMovLocal w = true → ∃ t, exec (.movLocal core) s = .next t ∧ MovPlaced s t p w none ∧ OtherCores p s t ∧
      (alone → Placed s t p w true ∧ SameExcept [.cores, .seg] s t)) ∧
    (isMovFillNear w = true → ∃ t, exec (.movFillNear core) s = .next t ∧ MovPlaced s t p w none ∧ OtherCores p s t ∧
      (alone → Placed s t p w true ∧ SameExcept [.cores, .seg] s t))

/-- A GRD op that is ready hands its grinder a batch, whose descriptor a transfer begins to read (R198, R238). -/
def Obligations.GrdOpsHandTheirGrinderABatch : Prop :=
  ∀ (core : Fin 160) (s : State) (p : Nat) (w : Bits256), ReadyOp s core.val p w → HostsServe s → isGrd w = true →
    ∃ t b x, exec (.grd core) s = .next t ∧
      let g := (logicalOf s p).getD 0 / 80 * 16 + grdGrinder w
      (getGrinder t g).queue = (getGrinder s g).queue ++ [b] ∧ (getGrinder t g).nextId = (getGrinder s g).nextId + 1 ∧
      (∀ k, k ≠ g → getGrinder t k = getGrinder s k) ∧ Placed s t p w true ∧
      b.id = (getGrinder s g).nextId ∧ b.phase = .queued ∧ b.core = p ∧ b.inv = (getCore s p).inv.getD 0 ∧ b.done = grdDone w ∧
      b.xfers = [s.nextXfer] ∧ getXfer t s.nextXfer = some x ∧ x.owner = .batch g b.id ∧ x.kind = .read ∧ OtherCores p s t ∧
      SameExcept (Reaches (.grd core)) s t

/-- SEM ops (R199, R211, R212). A WAIT whose take succeeds subtracts its count and issue goes on; one that cannot is held, with PC where it
is and the core among the semaphore's waiters, youngest. A POST with `AFTER` 0 posts at once and one with a fence takes a place in the
window, with the earlier ops of its units as its fence. A SET gives the semaphore its value. -/
def Obligations.SemOpsWaitPostAndSet : Prop :=
  ∀ (core : Fin 160) (s : State) (p : Nat) (w : Bits256), ReadyOp s core.val p w →
    let c := getCore s p
    let next := updCore s p (fun c => { c with pc := nextPc c })
    let v := getSem s (semId w)
    (isSemWait w = true → v.waiters = [] → semCount w ≤ v.value → ∃ t, exec (.semWait core) s = .next t ∧
      AfterIssue p (setSem next (semId w) { v with value := v.value - semCount w }) t) ∧
    (isSemWait w = true → ¬(v.waiters = [] ∧ semCount w ≤ v.value) → ∃ t, exec (.semWait core) s = .next t ∧
      (getCore t p).pc = c.pc ∧ (getCore t p).wait = some { sem := semId w, count := semCount w, timeoutUs := semArg w, since := s.devTime,
                                                            addr := c.pc, granted := false } ∧
      getSem t (semId w) = { value := v.value, waiters := v.waiters ++ [.core p (semCount w)] } ∧
      OtherCores p s t ∧ SameExcept [.sems, .cores, .qs, .seg] s t) ∧
    (isSemPost w = true → semArg w = 0 → ∃ t, exec (.semPost core) s = .next t ∧ AfterIssue p (semPost (semId w) (semCount w) next) t) ∧
    (isSemPost w = true → semArg w ≠ 0 → ∃ t, exec (.semPost core) s = .next t ∧ Placed s t p w true ∧
      (∃ o ∈ (getCore t p).window, o.seq = c.nextSeq ∧ o.fence =
        (c.window.filter (fun q => decide (opClass q.word < 4) && bitOf (semArg w) (opClass q.word))).map (·.seq)) ∧
      OtherCores p s t ∧ SameExcept [.cores, .seg] s t) ∧
    (isSemSet w = true → ∃ t, exec (.semSet core) s = .next t ∧ AfterIssue p (semSet (semId w) (semCount w) next) t)

/-- A post adds its count up to the limit of 24 bits, logging SEM_OVERFLOW beyond it, and a set replaces the value; then the waiting takes
are granted strictly from the oldest, each subtracting its count, until one cannot be, and no younger one passes it (R211, R212). -/
def Obligations.PostsAndSetsGrantTheOldestWaiters : Prop :=
  ∀ (i n : Nat) (s : State),
    (∃ granted rest, (getSem s i).waiters = granted ++ rest ∧
      getSem (semPost i n s) i = { value := min semMax ((getSem s i).value + n) - (granted.map waiterCount).sum, waiters := rest } ∧
      (granted.map waiterCount).sum ≤ min semMax ((getSem s i).value + n) ∧
      (∀ w, rest.head? = some w → min semMax ((getSem s i).value + n) < (granted.map waiterCount).sum + waiterCount w)) ∧
    (∃ granted rest, (getSem s i).waiters = granted ++ rest ∧
      getSem (semSet i n s) i = { value := n - (granted.map waiterCount).sum, waiters := rest } ∧
      (granted.map waiterCount).sum ≤ n ∧ (∀ w, rest.head? = some w → n < (granted.map waiterCount).sum + waiterCount w)) ∧
    (semMax < (getSem s i).value + n ↔ (semPost i n s).log ≠ s.log) ∧
    (∀ j, j ≠ i → getSem (semPost i n s) j = getSem s j ∧ getSem (semSet i n s) j = getSem s j)

/-- The CTL ops of the loop counters and registers (R186, R200): END ends issue; LOOP decrements its counter modulo 2^32 and, where it is
not 0 then, adds the increments to its two registers and branches; SET sets what it names; LDX loads a register. A write of x0 has no
effect. -/
def Obligations.CtlOpsLoopSetAndLoad : Prop :=
  ∀ (core : Fin 160) (s : State) (p : Nat) (w : Bits256), ReadyOp s core.val p w →
    let c := getCore s p
    (isCtlEnd w = true → ∃ t, exec (.ctlEnd core) s = .next t ∧ AfterIssue p (setCore s p { c with ended := true, pc := nextPc c }) t) ∧
    (isCtlLoop w = true → ∃ t, exec (.ctlLoop core) s = .next t ∧ OtherCores p s t ∧ SameExcept [.cores, .seg] s t ∧
      let k := opField w 4 1 % 4
      let a := opField w 5 1 % 8
      let b := opField w 5 1 / 8 % 8
      (getCore t p).lcs = setNth c.lcs k (c.lcs.getD k 0 - 1) ∧
      (c.lcs.getD k 0 = 1 → (getCore t p).xs = c.xs ∧ (getCore t p).pc = nextPc c) ∧
      (c.lcs.getD k 0 ≠ 1 →
        (getCore t p).pc = (((c.pc : Int) + 32 * loopTarget w) % (2 ^ 48 : Int)).toNat ∧
        (getCore t p).xs =
          (setReg (setReg c a (BitVec.ofNat 64 (regOf c a) + BitVec.ofNat 64 (opField w 0x10 8))) b
            (BitVec.ofNat 64 (regOf (setReg c a (BitVec.ofNat 64 (regOf c a) + BitVec.ofNat 64 (opField w 0x10 8))) b) +
              BitVec.ofNat 64 (opField w 0x18 8))).xs)) ∧
    (isCtlSet w = true → ∃ t, exec (.ctlSet core) s = .next t ∧ OtherCores p s t ∧ SameExcept [.cores, .seg] s t ∧
      (getCore t p).pc = nextPc c ∧
      (getCore t p).xs = (if bitOf (opFlags w) 0 ∧ opField w 4 1 % 8 ≠ 0 then setNth c.xs (opField w 4 1 % 8) (BitVec.ofNat 64 (opField w 8 8)) else c.xs) ∧
      (getCore t p).lcs = (if bitOf (opFlags w) 1 then setNth c.lcs (opField w 5 1 % 4) (BitVec.ofNat 32 (opField w 0x10 4)) else c.lcs)) ∧
    (isCtlLdx w = true → ∃ t, exec (.ctlLdx core) s = .next t ∧ OtherCores p s t ∧ SameExcept [.cores, .seg] s t ∧
      (getCore t p).pc = nextPc c ∧ (getCore t p).lcs = c.lcs ∧
      (getCore t p).xs = (if opField w 4 1 % 8 = 0 then c.xs else
        setNth c.xs (opField w 4 1 % 8) (BitVec.ofNat 64 (scrNat s p (nearRef c (opField w 8 4)) 8))))

/-- ARM starts a link's stream at once or leaves it pending behind an active one, and a `LENGTH` of 0 cancels both (R200, R219); CHEAP starts a
live-range declaration and LIVE continues it (R206); BREAK halts issue (R50); ACC_READ copies an array's accumulation to 34,368 bytes of the
core's scratchpad and to no other byte (R144). -/
def Obligations.CtlOpsArmDeclareAndDebug : Prop :=
  ∀ (core : Fin 160) (s : State) (p : Nat) (w : Bits256), ReadyOp s core.val p w →
    let c := getCore s p
    let l := armLink s p w
    (isCtlArm w = true → opField w 0x10 8 ≠ 0 → ∃ t st, exec (.ctlArm core) s = .next t ∧ (getCore t p).pc = nextPc c ∧
      st.base = farRef c (opField w 8 8) ∧ st.length = opField w 0x10 8 ∧ st.issued = 0 ∧ st.inv = c.inv.getD 0 ∧
      getLink t l = (if (getLink s l).active.isNone then { getLink s l with active := some st } else { getLink s l with pending := some st }) ∧
      (∀ k, k ≠ l → getLink t k = getLink s k) ∧ OtherCores p s t ∧ SameExcept [.cores, .links, .seg] s t) ∧
    (isCtlArm w = true → opField w 0x10 8 = 0 → ∃ t, exec (.ctlArm core) s = .next t ∧
      ((∀ i n, Waiter.core p n ∉ (getSem s i).waiters) → (getCore t p).pc = nextPc c) ∧ (getLink t l).active = none ∧ (getLink t l).pending = none ∧ (getLink t l).chunks = (getLink s l).chunks) ∧
    (isCtlCheap w = true → ∃ t, exec (.ctlCheap core) s = .next t ∧ getCore t p =
      { c with live := (List.range (rangeCount w)).map (fun i => liveRange (rangeAt w i)),
               liveMore := if bitOf (opFlags w) 0 then some 0 else none, pc := nextPc c } ∧ OtherCores p s t ∧ SameExcept [.cores, .seg] s t) ∧
    (isCtlLive w = true → ∃ t, exec (.ctlLive core) s = .next t ∧ getCore t p =
      { c with live := c.live ++ (List.range (rangeCount w)).map (fun i => liveRange (rangeAt w i)),
               liveMore := if bitOf (opFlags w) 0 then some (c.liveMore.getD 0 + 1) else none, pc := nextPc c } ∧ OtherCores p s t ∧
      SameExcept [.cores, .seg] s t) ∧
    (isCtlDebugBreak w = true → ∃ t, exec (.ctlDebugBreak core) s = .next t ∧ AfterIssue p (setCore s p { c with halt := true, pc := nextPc c }) t) ∧
    (isCtlDebugAccRead w = true → ∃ t, exec (.ctlDebugAccRead core) s = .next t ∧ (getCore t p).pc = nextPc c ∧
      (∀ a, (a < scratchKey p (nearRef c (opField w 8 4)) ∨ scratchKey p (nearRef c (opField w 8 4)) + 34368 ≤ a) → memByte t a = memByte s a) ∧
      (∀ n, n < 4096 → leNat (memBytes t (scratchKey p (nearRef c (opField w 8 4)) + 8 * n) 8) =
        ofSigned 64 (tabGet 0 (tabGet arrAccReset c.acc (opField w 5 1 % 4)).vals n)) ∧
      OtherCores p s t ∧ SameExcept [.cores, .mem, .poison, .seg] s t)

/-- The rows of the tile ops, each with the words that it issues. -/
def TileRows (core : Fin 160) : List (Instr × (Bits256 → Bool)) :=
  [(.matGrid core, isMatGrid), (.matFan core, isMatFan), (.matWide core, isMatWide), (.vec core, isVec), (.movLoad core, isMovLoad),
   (.movLoadUnseal core, isMovLoadUnseal), (.movStore core, isMovStore), (.movLocal core, isMovLocal), (.movFillNear core, isMovFillNear),
   (.movFillFar core, isMovFillFar), (.grd core, isGrd), (.semWait core, isSemWait), (.semPost core, isSemPost), (.semSet core, isSemSet),
   (.ctlEnd core, isCtlEnd), (.ctlLoop core, isCtlLoop), (.ctlSet core, isCtlSet), (.ctlLdx core, isCtlLdx), (.ctlArm core, isCtlArm),
   (.ctlCheap core, isCtlCheap), (.ctlLive core, isCtlLive), (.ctlDebugAccRead core, isCtlDebugAccRead), (.ctlDebugBreak core, isCtlDebugBreak)]

/-- An op that breaks a rule is checked at issue, before it does anything (R205): its core records the lowest code that applies in
`SEQ_FAULT`, where none is recorded yet, and its invocation ends ABORTED with that code, where it has not ended early before and no access of
its was refused. An op of which a byte lies in a poisoned granule faults with POISONED_OP (R187). -/
def Obligations.InvalidOpsFaultAtIssue : Prop :=
  ∀ (core : Fin 160) (s : State) (p : Nat) (w : Bits256) (bad : Bool) (code : Nat) (x : Invocation) (i : Nat),
    physOf s core.val = some p → canIssue (getCore s p) false = true → opAt (getCore s p) (getCore s p).pc = some (w, bad) →
    code = (if bad then 0x11 else (opChecks s p (getCore s p) w).getD 0) → (bad = true ∨ (opChecks s p (getCore s p) w).isSome = true) →
    (getCore s p).inv = some i → getInv s i = some x → x.early = none → x.refused = false → x.state = .resident →
    ∀ e ∈ TileRows core, e.2 w = true → ∃ t, exec e.1 s = .next t ∧
      ((getCore s p).fault.valid = false → (getCore t p).fault = { code := code, cls := opClass w, valid := true, addr := (getCore s p).pc }) ∧
      ((getCore s p).fault.valid = true → (getCore t p).fault = (getCore s p).fault) ∧
      (∃ y, getInv t i = some y ∧ y.early = some (.aborted, code)) ∧ SameExcept [.log, .isl, .xfers, .qs, .sems, .cores, .links, .grinders] s t

/-- A tile row whose core cannot issue, or at whose PC no op of the row's kind stands, does nothing. A valid op whose unit cannot take it waits at PC,
and its count begins (R188, R201, R202). -/
def Obligations.TileRowsIssueOnlyTheirOwnOps : Prop :=
  ∀ (core : Fin 160) (s : State), ∀ e ∈ TileRows core,
    ((∀ p w bad, physOf s core.val = some p → canIssue (getCore s p) false = true → opAt (getCore s p) (getCore s p).pc = some (w, bad) →
      e.2 w = false) → exec e.1 s = .next s) ∧
    (∀ p w, physOf s core.val = some p → canIssue (getCore s p) false = true → opAt (getCore s p) (getCore s p).pc = some (w, false) →
      opChecks s p (getCore s p) w = none → unitTakes s p (getCore s p) w = false → e.2 w = true →
      ∃ t since, exec e.1 s = .next t ∧ getCore t p = { getCore s p with stall := some ((getCore s p).pc, since) } ∧
        (since = islTicks s (islOfCore p) ∨ (getCore s p).stall = some ((getCore s p).pc, since)) ∧ OtherCores p s t ∧ SameExcept [.cores] s t)

/-! ### The units at work (R121-R136, R171, R184, R189, R196-R202, R217, R225, R284) -/

/-- The oldest MAT op that has not started, or whose chain a replay has broken, starts once its predecessor has finished, or joins that op's chain
at the predecessor's chain count; where it posts, every masked array's queue has a free entry. It continues its arrays or starts them afresh, and
reserves its tile entries (R103, R117, R118, R121, R171). An op that posts waits while a masked array's queue is full, and one that joins no chain
while its predecessor is in progress. An overflow calls for a replay while an array's r is below 2: the restored accumulations divide by 2⁸ with one
replay more, counted in `ACC_REPLAYS`, the op's bound grows by its isolated count and 192 cycles, and the replay restarts once drained (R132, R201);
an op that had joined its chain is abandoned, to start isolated with its isolated count (R134). Beyond that the cells saturate, which is logged once
an op (R133); with nothing saturated nothing happens. A MAT op in progress that calls for no replay completes (R103, R118, R133, R138, R172, R189):
it leaves the window, and one that has joined its chain is the one in progress then. Without hand-off its arrays keep their accumulations and no
byte of memory changes; with hand-off they are free and only the output rows, the scale blocks and the statistics that its descriptor names, with
what links forward of them, are written. -/
def Obligations.MatOpsStartReplayAndComplete : Prop :=
  (∀ (core : Fin 160) (s : State) (p : Nat) (o : IssuedOp),
    physOf s core.val = some p → nextMat (getCore s p) = some o → ((getCore s p).phase = .running ∨ o.abandoned = true) →
    let m := matOp o.word
    let c := getCore s p
    let now := islTicks s (islOfCore p)
    let room := m.post = true → ∀ a ∈ maskArrays m.mask, (tabGet [] c.tiles a).length < 8
    let begun := fun (t : State) (at_ : Nat) (joined : Bool) =>
      (m.post = true → ∀ a ∈ maskArrays m.mask, (tabGet [] (getCore t p).tiles a).length = (tabGet [] c.tiles a).length + 1) ∧
      (m.post = false → (getCore t p).tiles = c.tiles) ∧
      (∀ q ∈ (getCore t p).window, q.seq = o.seq → q.started = true ∧ q.abandoned = false ∧ q.joins = joined ∧ q.startedAt = at_) ∧
      (getCore t p).window.length = c.window.length ∧ OtherCores p s t ∧ SameExcept [.cores] s t
    (c.mat = none → room → ∃ t run, exec (.matStart core) s = .next t ∧ begun t now false ∧ (getCore t p).mat = some run ∧ run.seq = o.seq ∧
      run.draining = false ∧ run.replays = 0 ∧ run.since = now ∧ run.snap = snapOf c m ∧
      (getCore t p).arrMode = m.mode ∧ (getCore t p).arrClass = m.cls ∧
      (∀ a ∈ maskArrays m.mask, tabGet arrAccReset (getCore t p).acc a =
        if m.cont then { tabGet arrAccReset c.acc a with isInt := fmtIsInt m.fw, fp64 := m.fp64 } else freshAcc m) ∧
      (∀ a, a ∉ maskArrays m.mask → tabGet arrAccReset (getCore t p).acc a = tabGet arrAccReset c.acc a)) ∧
    (∀ run q, c.mat = some run → findOp c run.seq = some q → o.joins = true → run.draining = false → c.matNext = none → room →
      ∃ t, exec (.matStart core) s = .next t ∧ begun t (run.since + ticksOf (matOp q.word).chainCount) true ∧ (getCore t p).mat = some run ∧
        (getCore t p).matNext = some (newRun o.seq (run.since + ticksOf (matOp q.word).chainCount)) ∧ (getCore t p).acc = c.acc) ∧
    (m.post = true → (∃ a ∈ maskArrays m.mask, 8 ≤ (tabGet [] c.tiles a).length) → exec (.matStart core) s = .next s) ∧
    (∀ run, c.mat = some run → (o.joins = false ∨ run.draining = true ∨ c.matNext ≠ none) → exec (.matStart core) s = .next s)) ∧
  (∀ (core : Fin 160) (s : State) (p : Nat) (run : MatRun) (o : IssuedOp),
    physOf s core.val = some p → (getCore s p).mat = some run → findOp (getCore s p) run.seq = some o →
    let v := matIn s p o
    let outs := matOuts s v run
    let arrays := replayArrays v run outs
    (run.draining = false → arrays ≠ [] → ∃ t r, exec (.accOverflow core) s = .next t ∧ (getCore t p).mat = some r ∧ r.draining = true ∧
      r.replays = run.replays + 1 ∧ r.snap = run.snap.map (fun e => (e.1, if arrays.contains e.1 then raised e.2 else e.2)) ∧
      (getCore t p).accReplays = (getCore s p).accReplays + 1 ∧
      (∀ q ∈ (getCore s p).window, q.seq = o.seq → (∀ n, (getCore s p).matNext = some n → n.seq ≠ o.seq) →
        { q with extra := q.extra + v.op.isolated + 192 } ∈ (getCore t p).window) ∧
      (getCore t p).matNext = none ∧ (∀ n q, (getCore s p).matNext = some n → n.seq ≠ o.seq → findOp (getCore s p) n.seq = some q →
        { q with abandoned := true, joins := false, extra := q.extra + ((matOp q.word).isolated - (matOp q.word).chainCount) } ∈
          (getCore t p).window) ∧
      OtherCores p s t ∧ SameExcept [.freeCtr, .log, .isl, .mem, .poison, .qs, .cores] s t) ∧
    (run.draining = false → arrays = [] → (∃ e ∈ outs, e.2.counted ≠ []) → ∃ t, exec (.accOverflow core) s = .next t ∧
      (getCore t p).mat = some { run with satNoted := true, satArrays := (outs.filter (fun e => e.2.counted != [])).map (·.1) } ∧ (run.satNoted = true → t.log = s.log) ∧ OtherCores p s t ∧
      SameExcept [.log, .cores] s t) ∧
    (run.draining = false → arrays = [] → (∀ e ∈ outs, e.2.counted = []) → exec (.accOverflow core) s = .next s) ∧
    (run.draining = true → exec (.accOverflow core) s = .next s ∧ ∃ t, exec (.accReplayRestart core) s = .next t ∧
      (getCore t p).mat = some { run with draining := false, since := islTicks s (islOfCore p) } ∧ OtherCores p s t ∧ SameExcept [.cores] s t)) ∧
  (∀ (core : Fin 160) (s : State) (p : Nat) (run : MatRun) (o : IssuedOp),
    physOf s core.val = some p → (getCore s p).mat = some run → findOp (getCore s p) run.seq = some o → run.draining = false →
    let c := getCore s p
    let v := matIn s p o
    let d := epiDesc s p v.refs.epi
    let outs := matOuts s v run
    replayArrays v run outs = [] → ∃ t, exec (.matComplete core) s = .next t ∧
      (c.matNext = none → (getCore t p).mat = none) ∧ (∀ n q, c.matNext = some n → findOp c n.seq = some q → ∃ r, (getCore t p).mat = some r ∧
        (getCore t p).matNext = none ∧ r.seq = n.seq ∧ r.since = n.since ∧ r.draining = n.draining) ∧
      (getCore t p).window = c.window.filter (fun q => q.seq != run.seq) ∧
      (getCore t p).arrMacs = c.arrMacs + BitVec.ofNat 64 (v.op.macs * outs.length) ∧
      (c.matNext = none → ∀ e ∈ outs, tabGet arrAccReset (getCore t p).acc e.1 =
        if v.op.handoff then arrAccReset else { e.2.acc with kept := true, poison := e.2.counted.foldl setIns e.2.acc.poison }) ∧
      (v.op.handoff = false → (getCore t p).fpStatus = c.fpStatus ||| outs.foldl (fun f e => f ||| e.2.flags) 0 ∧
        t.poison = s.poison ∧ ∀ a, memByte t a = memByte s a) ∧
      (v.op.handoff = true → ∀ a,
        (∀ e ∈ outs, ∀ r < v.op.rows, ¬PortHits s p 1 (d.out + e.1 * d.arrayStride + r * d.outStride)
          (packedBytes (if v.op.fp64 then 10 else d.outFmt) v.op.cols) a) →
        (d.rowQuant = true → ∀ e ∈ outs, ¬PortHits s p 1 (d.qscale + 80 * e.1 + 4) 76 a) →
        (d.cupping = true → ¬PortHits s p 1 d.stats 32 a) → memByte t a = memByte s a) ∧
      OtherCores p s t ∧ SameExcept [.freeCtr, .log, .isl, .mem, .poison, .qs, .cores] s t)

/-- A VEC op starts once the tile queues it names each hold an occupied entry, whose oldest is popped (R171, R184); one that breaks a rule of
its block faults with the lowest code instead. When it completes it leaves the window, its entries are free, and only its output rows, slots,
scale blocks and statistics, with what links forward of them, are written. -/
def Obligations.VecOpsStartAndComplete : Prop :=
  ∀ (core : Fin 160) (s : State) (p : Nat) (o : IssuedOp), physOf s core.val = some p →
    let c := getCore s p
    let block := vBlock s p o.near
    let es := (queueArrays block).filterMap (fun a => (headTile c a).map (fun e => (a, e)))
    (c.phase = .running → c.vec = none → firstWaiting c 1 = some o → (∀ a ∈ queueArrays block, (headTile c a).isSome = true) →
      (vecStartCode s p o (block.popped es) es = none → ∃ t, exec (.vecStart core) s = .next t ∧
        (getCore t p).vec = some { seq := o.seq, popped := es } ∧
        (∀ a ∈ queueArrays block, tabGet [] (getCore t p).tiles a = popTile (tabGet [] c.tiles a)) ∧
        (∀ q ∈ (getCore t p).window, q.seq = o.seq → q.started = true ∧ q.startedAt = islTicks s (islOfCore p) ∧
          q.count = vecCount (block.popped es) (opChain s p o.word)) ∧ OtherCores p s t ∧ SameExcept [.cores] s t) ∧
      (∀ k, vecStartCode s p o (block.popped es) es = some k → c.fault.valid = false → ∃ t, exec (.vecStart core) s = .next t ∧
        (getCore t p).fault = { code := k, cls := 1, valid := true, addr := o.addr } ∧ (getCore t p).vec = none)) ∧
    (∀ run, c.vec = some run → findOp c run.seq = some o →
      let chain := opChain s p o.word
      let fp64 := match chain with | d :: _ => stFp64 d | [] => false
      let b := block.popped run.popped
      let r := runVec s p b fp64 chain c.gens
      ∃ t, exec (.vecComplete core) s = .next t ∧ (getCore t p).vec = none ∧ (getCore t p).gens = r.gens ∧
        (getCore t p).fpStatus = c.fpStatus ||| r.flags ∧ (getCore t p).window = c.window.filter (fun q => q.seq != run.seq) ∧
        (∀ e ∈ run.popped, ∀ q ∈ tabGet [] (getCore t p).tiles e.1, q.state ≠ .popped) ∧
        (∀ a, (∀ k < 2, (b.outp k).mode ≠ 0 → ∀ e ∈ outRows b r k, ¬PortHits s p 2 ((b.outp k).addr + e.1 * (b.outp k).stride) e.2.length a) →
          (usesSlots chain = true → ∀ e ∈ slotWrites s p b fp64 (List.range b.rows) r.slots, ¬PortHits s p 2 e.1 e.2.length a) →
          (chain.any (fun d => stOpcode d == 0x29) = true → ∀ k < ceilDiv b.rows 64, ¬PortHits s p 2 (b.qscale + 80 * k + 4) 76 a) →
          (chain.any stCupping = true → ¬PortHits s p 2 b.stats 32 a) → memByte t a = memByte s a) ∧
        OtherCores p s t ∧ SameExcept [.freeCtr, .log, .isl, .mem, .poison, .qs, .cores] s t)

/-- A MOV op that has started, of which every piece has landed and whose sealed unit has been checked, completes: it leaves the window, its transfer
is gone, the MOVs behind it go on, and `SEM_DONE`, where it is named, is posted by 1 (R188, R196). A plain LOAD, a STORE and a FILL_FAR write
nothing more then; a LOCAL, a FILL_NEAR and a skewed op write their rows, a FILL_NEAR the bytes of its pattern. The check of a sealed unit (R284,
R285): the plaintext of one that passes is written at the near reference; for one that fails, or whose handle is not bound to the context, zeros
with every granule marked poisoned are, and `SEAL_FAILS` counts it. -/
def Obligations.MovOpsCompleteAndPost : Prop :=
  (∀ (core : Fin 160) (slot : Fin 8) (s : State) (p : Nat) (o : IssuedOp),
    physOf s core.val = some p → (getCore s p).window[slot.val]? = some o → opClass o.word = 2 → o.started = true →
    (∀ x, o.xfer.bind (getXfer s) = some x → xferDone x = true ∧ (x.sealed_ = none ∨ x.checked = true)) →
    let m := movOp o.word
    ∃ u, exec (.movComplete core slot) s = .next (postDone m.done (pumpMovs p u)) ∧
      (getCore u p).window = (getCore s p).window.filter (fun q => q.seq != o.seq) ∧
      (∀ n, o.xfer = some n → getXfer u n = none) ∧ OtherCores p s u ∧ SameExcept [.isl, .mem, .poison, .xfers, .qs, .cores] s u ∧
      ((m.kind = 1 ∨ m.kind = 4 ∨ (m.kind = 0 ∧ m.skew = false)) → ∀ a, memByte u a = memByte s a) ∧
      ((m.kind = 2 ∨ m.kind = 3) → (m.kind = 2 → m.skew = false) → ∀ a,
        (∀ r < m.rows, ¬PortHits s p 0 (o.near + r * m.nearStride) m.rowBytes a) → memByte u a = memByte s a) ∧
      ((m.kind = 0 ∨ m.kind = 2) → m.skew = true → ∀ a,
        (∀ r < m.rows + 63, ¬PortHits s p 0 (o.near + r * m.rowBytes) m.rowBytes a) → memByte u a = memByte s a) ∧
      (m.kind = 3 → m.rows = 1 → (∀ e ∈ s.blend.cur.links, e.2.producer.port ≠ 0) → ∀ j < m.rowBytes,
        memByte u (scratchKey p o.near + j) = BitVec.ofNat 8 (m.far % 2 ^ 32 / 256 ^ (j % 4))) ∧
      (m.kind = 2 → m.skew = false → m.rows = 1 → (∀ e ∈ s.blend.cur.links, e.2.producer.port ≠ 0) → ∀ j < m.rowBytes,
        memByte u (scratchKey p o.near + j) = memByte s (scratchKey p o.near2 + j))) ∧
  (∀ (core : Fin 160) (slot : Fin 8) (s : State) (p n : Nat) (o : IssuedOp) (x : Xfer) (k : Option Bits256),
    physOf s core.val = some p → (getCore s p).window[slot.val]? = some o → o.xfer = some n → getXfer s n = some x → x.sealed_ = some k →
    xferDone x = true → x.checked = false → (∀ e ∈ s.blend.cur.links, e.2.producer.port ≠ 0) →
    let m := movOp o.word
    let at_ := scratchKey p o.near
    (∀ d, k.bind (fun key => unsealed x key m.rowBytes) = some d → ∃ t, exec (.unsealCheckDone core slot) s = .next t ∧
      getXfer t n = some { x with checked := true } ∧ d.length = m.rowBytes ∧ (∀ j < m.rowBytes, memByte t (at_ + j) = d.getD j 0) ∧
      (∀ a, (a < at_ ∨ at_ + m.rowBytes ≤ a) → memByte t a = memByte s a) ∧ SameExcept [.mem, .poison, .xfers] s t) ∧
    (k.bind (fun key => unsealed x key m.rowBytes) = none → ∃ t, exec (.unsealCheckDone core slot) s = .next t ∧
      getXfer t n = some { x with checked := true } ∧ (∀ j < m.rowBytes, memByte t (at_ + j) = 0 ∧ memPoison t (at_ + j) = true) ∧
      (getCore t p).sealFails = (getCore s p).sealFails + 1 ∧ (∀ a, (a < at_ ∨ at_ + m.rowBytes ≤ a) → memByte t a = memByte s a) ∧
      OtherCores p s t ∧ SameExcept [.log, .mem, .poison, .xfers, .cores] s t))

/-- The oldest POST whose fence has cleared leaves the window and posts (R217). -/
def Obligations.PostsFireOnceTheirFenceHasCleared : Prop :=
  ∀ (core : Fin 160) (s : State) (p : Nat), physOf s core.val = some p →
    (∀ o, (getCore s p).window.find? (fun o => opClass o.word == 4 && o.fence.all (fun n => (findOp (getCore s p) n).isNone)) = some o →
      ∃ u, exec (.semPostFire core) s = .next (semPost (semId o.word) (semCount o.word) u) ∧
        (getCore u p).window = (getCore s p).window.filter (fun q => q.seq != o.seq) ∧ OtherCores p s u ∧ SameExcept [.qs, .cores] s u) ∧
    ((∀ o ∈ (getCore s p).window, opClass o.word = 4 → ∃ n ∈ o.fence, (findOp (getCore s p) n).isSome = true) →
      exec (.semPostFire core) s = .next s)

/-- An op past its bound, and a WAIT past its limit, end the invocation LATE with codes 0x20 and 0x21, recorded where no fault is yet
(R185, R202, R205, R225): a started MAT or VEC op that has used as many cycles as its bound and its extension, a VEC op that has run past its C, a
MOV, GRD or ARM op at PC that its unit has not taken within its bound, and a WAIT held for more than its limit in microseconds. An op within
its bound stays, and a WAIT whose limit is 0 never times out. -/
def Obligations.OverrunsAndTimeoutsEndLate : Prop :=
  ∀ (core : Fin 160) (s : State) (p i : Nat) (x : Invocation),
    physOf s core.val = some p → (getCore s p).inv = some i → getInv s i = some x → x.early = none → x.refused = false →
    (getCore s p).fault.valid = false →
    let c := getCore s p
    let used := fun (since : Nat) => cyclesOf (islTicks s (islOfCore p) - since)
    let late := fun (r : Host.Outcome State Fault Refusal) (code cls addr : Nat) => ∃ t y, r = .next t ∧ getInv t i = some y ∧
      y.early = some (.late, code) ∧ (getCore t p).fault = { code := code, cls := cls, valid := true, addr := addr }
    (∀ (k : Fin 8) o, c.window[k.val]? = some o → o.started = true → o.abandoned = false → opClass o.word < 2 →
      (opBound o.word + o.extra ≤ used o.startedAt ∨ (opClass o.word = 1 ∧ o.count < used o.startedAt)) →
      late (exec (.overrun core (some k)) s) 0x20 (opClass o.word) o.addr) ∧
    (∀ (k : Fin 8) o, c.window[k.val]? = some o → used o.startedAt < opBound o.word + o.extra →
      (opClass o.word = 1 → used o.startedAt ≤ o.count) → exec (.overrun core (some k)) s = .next s) ∧
    (∀ w since, opAt c c.pc = some (w, false) → canIssue c false = true → c.stall = some (c.pc, since) →
      (opClass w = 2 ∨ opClass w = 3 ∨ (opClass w = 5 ∧ opSub w = 4)) → opChecks s p c w = none → unitTakes s p c w = false →
      (opBound w ≤ used since → late (exec (.overrun core none) s) 0x20 (opClass w) c.pc) ∧
      (used since < opBound w → exec (.overrun core none) s = .next s)) ∧
    (∀ w, c.wait = some w → c.phase = .running → w.timeoutUs ≠ 0 → w.timeoutUs * 1000 < s.devTime - w.since →
      late (exec (.waitTimeout core) s) 0x21 4 w.addr) ∧
    (∀ w, c.wait = some w → w.timeoutUs = 0 → exec (.waitTimeout core) s = .next s)

/-! ### The sequencer around its ops (R50, R187, R205-R209, R219-R224, R360-R363, R370-R372) -/

/-- A program block arrives from local HBM, over the network from its stack, into one of the core's four block buffers, translated by the core's
engine and read through the home cache once its turn has come; the block that PC stands in and that no local segment grants ends the invocation
with SEGMENT_FAULT, while a block ahead of it that cannot be fetched is left (R187, R314, R318). A flit error on the way poisons what it
carried (R21). -/
def Obligations.ProgramBlocksArriveFromHbm : Prop :=
  ∀ (core : Fin 160) (ahead : Fin 4) (errs : List HbmError) (flit : Option FlitError) (s : State) (p i : Nat),
    physOf s core.val = some p → (getCore s p).inv = some i → (getCore s p).phase = .running → (getCore s p).ended = false →
    let base := blockBase (getCore s p).pc + 2048 * ahead.val
    let u := translate (engineOfPhys s p) (invContext s i) base s
    let cls := ((getInv s i).map (·.cls)).getD 1
    (∀ b ∈ (getCore s p).blocks, b.base ≠ base) →
    (∀ e a, u.1 = some e → blockAddr u.2 e base = some a →
      let due := hbmReady u.2 cls a 2048 && errorOnWay flit (.stack (stackOf a)) (.core p) (clean (zeros 2048))
      let r := hbmRead (hbmTurn cls a 2048 u.2) (regionOf s p) a 2048 errs
      let d := (spoilFlit flit r.1 r.2).1
      (due = true → ∃ t b, exec (.blockFetchDone core ahead ⟨errs, flit⟩) s = .next t ∧ b ∈ (getCore t p).blocks ∧ b.base = base ∧
        b.bytes = d.map (·.1) ∧ b.poison = (List.range 32).map (fun g => (d.getD (64 * g) (0, false)).2) ∧
        (getCore t p).pc = (getCore s p).pc ∧ (getCore t p).window = (getCore s p).window) ∧
      (due = false → exec (.blockFetchDone core ahead ⟨errs, flit⟩) s = .next u.2)) ∧
    ((u.1.bind (fun e => blockAddr u.2 e base)) = none →
      (0 < ahead.val → exec (.blockFetchDone core ahead ⟨errs, flit⟩) s = .next u.2) ∧
      (ahead.val = 0 → ∀ x, getInv s i = some x → x.early = none → ∃ t y, exec (.blockFetchDone core ahead ⟨errs, flit⟩) s = .next t ∧
        getInv t i = some y ∧ y.early = some (.segmentFault, 0)))

/-- An invocation whose units have finished and whose transfers have landed ends (R205, R221, R360-R363): its receipt is due at its queue with the
status that comes first in R360's order, its cores are free, and the links on its cores are reset where it ended early. The status of a receipt
(R360): what ended the invocation early, else the first that applies of SEGMENT_FAULT, SIZE_FAULT, VERSION_RETIRED, OK_POISONED (for a poisoned
granule stored outside scratchpad or a saturated accumulation, R136), OK_REPLAYED and PREEMPT_RESUMED, else OK. -/
def Obligations.InvocationsEndWithTheirReceipt : Prop :=
  (∀ (i : Nat) (s : State) (x : Invocation), getInv s i = some x → invSettled s i x = true →
    (∀ h, queueHost s x.queue = some h → (getHost s h).cond ≠ .lost) →
    ((x.early = none ∧ x.refused = false) ∨ ∀ e ∈ linksOn s x.cores, (getLink s e.1).chunks = []) →
    ∃ t r more, exec (.invocationEnd i) s = .next t ∧ getInv t i = none ∧
      (getQ t x.queue).due = (getQ s x.queue).due ++ [r] ++ more ∧ (∀ f ∈ more, f.invocation = 0 ∧ f.status = .ok) ∧
      r.invocation = i ∧ r.queue = x.queue ∧ r.mailbox = x.mailbox ∧ r.sqIndex = x.sqIndex ∧ r.notify = x.notify ∧
      r.postmark = s.devTime ∧ r.fpFlags = x.fpFlags ∧ r.poisoned = x.poisoned ∧ r.replays = min 255 x.replays ∧
      r.switches = min 255 x.switches ∧ (r.status, r.fault) = invStatus x ∧
      (∀ p ∈ residentOn s i x, (getCore t p).inv = none ∧ (getCore t p).phase = .idle ∧ (getCore t p).window = []) ∧
      (x.early ≠ none → ∀ e ∈ linksOn s x.cores, (getLink t e.1).active = none ∧ (getLink t e.1).pending = none ∧ (getLink t e.1).position = 0) ∧
      SameExcept (Reaches (.invocationEnd i)) s t) ∧
  (∀ x : Invocation,
    (∀ e, x.early = some e → invStatus x = e) ∧
    (x.early = none → x.refused = true → invStatus x = (.segmentFault, 0)) ∧
    (x.early = none → x.refused = false →
      (x.sizeFault = true → invStatus x = (.sizeFault, 0)) ∧
      (x.sizeFault = false → x.versionRetired = true → invStatus x = (.versionRetired, 0)) ∧
      (x.sizeFault = false → x.versionRetired = false → (0 < x.poisoned ∨ x.satPoison = true) → invStatus x = (.okPoisoned, 0)) ∧
      (x.sizeFault = false → x.versionRetired = false → x.poisoned = 0 → x.satPoison = false → 0 < x.replays → invStatus x = (.okReplayed, 0)) ∧
      (x.sizeFault = false → x.versionRetired = false → x.poisoned = 0 → x.satPoison = false → x.replays = 0 →
        invStatus x = (if x.switches = 0 then .ok else .preemptResumed, 0))))

/-- Single-stepping (R50) acts on the cores of a partition that enables it: `HALT` is written, and `STEP` on a core then halted issues its
next op; elsewhere a write of `SEQ_STEP` does nothing. The debug port (R8, R209) reads 8 bytes of a core's scratchpad at its index, or either half
of them, and moves the index on where the agent may look, and reads 0 otherwise. An access over a link that is not up does not arrive. -/
def Obligations.SteppingAndTheDebugPort : Prop :=
  ∀ (agent : Agent) (core : Fin 168) (halt : Bool) (half : Option (Fin 2)) (s : State),
    (reaches s agent = false ∨ singleStep s core.val = false →
      exec (.seqStepStep agent core halt) s = .next s ∧ exec (.seqStepHalt agent core halt) s = .next s) ∧
    (reaches s agent = true → singleStep s core.val = true →
      let u := setCore s core.val { getCore s core.val with halt := halt }
      exec (.seqStepHalt agent core halt) s = .next u ∧ (halt = false → exec (.seqStepStep agent core halt) s = .next u) ∧
      (∀ w, halt = true → canIssue (getCore u core.val) true = true → opAt (getCore u core.val) (getCore u core.val).pc = some (w, false) →
        opChecks u core.val (getCore u core.val) w = none → opClass w < 2 → ∃ t, exec (.seqStepStep agent core halt) s = .next t ∧
          Placed s t core.val w false ∧ (getCore t core.val).halt = true ∧ OtherCores core.val s t ∧ SameExcept [.cores, .seg] s t)) ∧
    (let at_ := match half with | some h => 4 * h.val | none => 0
     let n := match half with | some _ => 4 | none => 8
     let word := 8 * (getCore s core.val).dbgWord
     (reaches s agent = false → exec (.dbgScrDataRead agent ⟨core, half⟩) s = .next s) ∧
     (reaches s agent = true → mayPeek s agent core.val = false →
       exec (.dbgScrDataRead agent ⟨core, half⟩) s = .next { s with answers := s.answers ++ [zeros n] }) ∧
     (reaches s agent = true → mayPeek s agent core.val = true → ∃ t, exec (.dbgScrDataRead agent ⟨core, half⟩) s = .next t ∧
       t.answers = s.answers ++ [scrBytes s core.val (word + at_) n] ∧
       (getCore t core.val).dbgWord = ((getCore s core.val).dbgWord + 1) % 524288 ∧
       (getCore t core.val).dbgPoison = scrPoisoned s core.val word 8 ∧
       OtherCores core.val s t ∧ SameExcept [.cores, .answers] s t))

/-- A switch that the scheduler wants of a resident invocation below class Express takes a free slot of its partition's save pool and brings its
cores to their tile boundaries; with no free slot it is only logged (R207, R371). A core at its boundary with nothing left in its window saves its
registers, its queues, its kept accumulations and its live ranges to its spill area (R206, R208), and once these have been copied to the slot in HBM
it is free; when all have, the invocation is switched out (R370). -/
def Obligations.SwitchesSaveAtTileBoundaries : Prop :=
  ∀ (i : Nat) (s : State) (x : Invocation), getInv s i = some x →
    (∀ wanted, switchWanted s i = some wanted → x.state = .resident → x.early = none → x.cls ≠ 0 →
      (∀ k, freeSaveSlot s x.partition = some k → ∃ t y, exec (.switchRequest i) s = .next t ∧ getInv t i = some y ∧
        y.state = .switching ∧ y.slot = some k ∧ (∃ q, tabFind t.qs.pools x.partition = some q ∧ setHas q.used k = true) ∧
        (∀ p ∈ residentOn s i x, (getCore t p).phase = .boundary ∧
          ∀ o ∈ (getCore t p).window, o.started = true ∨ opClass o.word = 4)) ∧
      (freeSaveSlot s x.partition = none → ∃ t, exec (.switchRequest i) s = .next t ∧ t.log ≠ s.log ∧ SameExcept [.log] s t)) ∧
    (∀ (core : Fin 160) p, physOf s core.val = some p →
      let c := getCore s p
      (c.phase = .boundary → c.window = [] → ∃ t v, exec (.tileBoundarySave core) s = .next t ∧ (getCore t p).phase = .saving ∧
        (getCore t p).spill = some v ∧ v.pc = c.pc ∧ v.xs = c.xs ∧ v.lcs = c.lcs ∧ v.withdrawn = c.withdrawn ∧ v.wait = c.wait ∧
        v.live = c.live ∧ v.gens = c.gens ∧ v.acc = c.acc.filter (·.2.kept) ∧
        v.ranges = (c.live.filter (fun r => !r.reload)).map (fun r => (r.start, scrRead s p r.start r.length)) ∧
        (∀ j < v.image.length, memByte t (scratchKey p (opArea s p) + j) = (v.image.getD j (0, false)).1) ∧
        (∀ a, (a < scratchKey p (opArea s p) ∨ scratchKey p (opArea s p) + v.image.length ≤ a) → memByte t a = memByte s a) ∧
        OtherCores p s t ∧ SameExcept [.freeCtr, .mem, .poison, .cores] s t) ∧
      (∀ l v off, c.phase = .saving → c.inv = some i → c.spill = some v → logicalOf s p = some l →
        off = ((tabGet [] s.qs.savedCores i).map (fun (e : Nat × SavedCore) => e.2.image.length)).foldl (· + ·) 0 →
        (∀ a, slotBase s x = some a → hbmReady s x.cls (a + off) v.image.length = true) → ∃ t y, exec (.spillSaveDone core) s = .next t ∧
        (getCore t p).inv = none ∧ (getCore t p).phase = .idle ∧ (l, { v with slotOff := off }) ∈ tabGet [] t.qs.savedCores i ∧ getInv t i = some y ∧
        ((∀ k ∈ x.cores, k = l ∨ k ∈ x.saved) → y.state = .switchedOut ∧ y.switches = x.switches + 1 ∧ y.outSince = s.devTime) ∧
        ((∃ k ∈ x.cores, k ≠ l ∧ k ∉ x.saved) → y.state = x.state) ∧
        (∀ a, slotBase s x = some a →
          let u := hbmWrite (hbmTurn x.cls (a + off) v.image.length s) none (a + off) v.image []
          t.mem = u.mem ∧ t.poison = u.poison ∧ t.cache = u.cache ∧ t.mc = u.mc) ∧
        OtherCores p s t ∧ SameExcept (Reaches (.spillSaveDone core)) s t))

/-- A switched-out invocation that is runnable resumes once its cores are free and none goes before it (R370, R371): its slot is free again and
every core restores what it saved; a slot that cannot be read ends it with code 0x33. A core whose restore and reloads have finished issues
its withdrawn ops again, their transfers made anew, and runs from the saved PC (R208). -/
def Obligations.SwitchedOutInvocationsResume : Prop :=
  ∀ (i : Nat) (s : State) (x : Invocation), getInv s i = some x →
    (∀ (lost dead : Bool), runnable s i x = true → coresFree s x = true → x.early = none → x.refused = false →
      resumeBarred s x.partition = false → s.mode = .serving →
      (∀ e ∈ s.qs.invs, e.1 = i ∨ ¬(∃ k ∈ e.2.cores, k ∈ x.cores) ∨ goesBefore e.2 x = false) →
      dead = (match tabFind s.qs.pools x.partition with | some p => stackOffline s (stackOf p.base) | none => true) →
      ((lost = true ∨ dead = true) → ∃ t y, exec (.contextResume i lost) s = .next t ∧ getInv t i = some y ∧ y.early = some (.aborted, 0x33)) ∧
      (lost = false → dead = false →
        let saves := tabGet [] s.qs.savedCores i
        ∃ t y, exec (.contextResume i lost) s = .next t ∧ getInv t i = some y ∧ y.state = .resuming ∧ y.slot = none ∧
        (∀ e ∈ saves, ∀ p, physOf s e.1 = some p → (∀ k ∈ saves, k.2.live = []) → (∀ k ∈ saves, physOf s k.1 = some p → k = e) →
          (getCore t p).inv = some i ∧ (getCore t p).phase = .restoring ∧ (getCore t p).pc = e.2.pc ∧ (getCore t p).xs = e.2.xs ∧
          (getCore t p).lcs = e.2.lcs ∧ (getCore t p).acc = e.2.acc ∧ (getCore t p).tiles = e.2.tiles ∧
          (getCore t p).withdrawn = e.2.withdrawn) ∧
        (∀ l v p off d, saves = [(l, v)] → physOf s l = some p → v.live = [] → v.ranges = [(off, d)] →
          (∀ j < d.length, memByte t (scratchKey p off + j) = (d.getD j (0, false)).1) ∧
          ∀ a, (a < scratchKey p off ∨ scratchKey p off + d.length ≤ a) →
            (a < scratchKey p (opArea s p) ∨ scratchKey p (opArea s p) + v.image.length ≤ a) → memByte t a = memByte s a))) ∧
    (∀ (core : Fin 160) p l, physOf s core.val = some p → (getCore s p).inv = some i → logicalOf s p = some l → (getCore s p).phase = .restoring →
      (∀ n ∈ (getCore s p).reloads, ∀ v, getXfer s n = some v → xferDone v = true) → HostsServe s → ∃ t y, exec (.resumeRestoreDone core) s = .next t ∧
        (getCore t p).phase = .running ∧
        (getCore t p).window.map (fun o => (o.seq, o.word, o.addr)) = (getCore s p).withdrawn.map (fun o => (o.seq, o.word, o.addr)) ∧
        ((∀ o ∈ (getCore s p).withdrawn, opClass o.word ≠ 2) → (getCore t p).window = reissued (getCore s p).withdrawn) ∧
        (getCore t p).withdrawn = [] ∧ (getCore t p).pc = (getCore s p).pc ∧
        getInv t i = some y ∧ ((∀ k ∈ x.cores, k = l ∨ k ∈ x.saved) → y.state = .resident) ∧ OtherCores p s t ∧
        SameExcept (Reaches (.resumeRestoreDone core)) s t)

/-- A stream's next chunk, of at most 4,096 bytes, issues once its granules are taken and fewer than 16 are in flight, and the ring position moves
past it (R220); with its semaphore short it waits. A chunk that has landed at the head of those in flight posts its granules. A transfer abroad on
which nothing has landed for the stall limit is cancelled and logged (R224). A chunk whose transfer has ended is landed: with those before it landed
too it leaves with them, and each posts its granules in chunk order (R220); else it stays in flight, landed. A transfer abroad of a core on which
nothing has landed for the core's stall limit is cancelled: nothing of it is on the way any more, every piece of it has ended, and STREAM_STALL is
logged (R224). With a limit of 0 on a partition below Express no transfer stalls. -/
def Obligations.StreamsIssueLandAndStall : Prop :=
  (∀ (link : Fin 8192) (s : State) (d : LinkDef) (st : Stream) (p : Nat) (isRead : Bool),
    linkDef s link.val = some d → (getLink s link.val).active = some st → streamEnd s link.val d = some (p, isRead) →
    (getLink s link.val).chunks.length < 16 → (getLink s link.val).waiting = false →
    let r := getLink s link.val
    let n := min 4096 (st.length - st.issued)
    let sem := link.val / 4096 * 65536 + (if isRead then d.semEmpty else d.semFull)
    ((r.granted = true ∨ ((getSem s sem).waiters = [] ∧ n / 64 ≤ (getSem s sem).value)) → ∃ t c, exec (.streamChunkIssue link) s = .next t ∧
      (getLink t link.val).chunks = r.chunks ++ [c] ∧ c.no = r.nextChunk ∧ c.granules = n / 64 ∧ c.xfer = s.nextXfer ∧ c.landed = false ∧
      (getLink t link.val).position = (r.position + n) % (d.ringKib * 1024) ∧ (getLink t link.val).nextChunk = r.nextChunk + 1 ∧
      (st.length ≤ st.issued + n → (getLink t link.val).active = r.pending ∧ (getLink t link.val).pending = none) ∧
      (st.issued + n < st.length → (getLink t link.val).active = some { st with issued := st.issued + n })) ∧
    (r.granted = false → ¬((getSem s sem).waiters = [] ∧ n / 64 ≤ (getSem s sem).value) → ∃ t, exec (.streamChunkIssue link) s = .next t ∧
      (getLink t link.val).waiting = true ∧ (getLink t link.val).chunks = r.chunks ∧
      (getSem t sem).waiters = (getSem s sem).waiters ++ [.stream (link.val / 4096) (link.val % 4096) (n / 64)] ∧ SameExcept [.sems, .links] s t)) ∧
  (∀ (link : Fin 8192) (chunk : Fin 16) (s : State) (d : LinkDef) (c : Chunk) (x : Xfer),
    linkDef s link.val = some d → (getLink s link.val).chunks[chunk.val]? = some c → getXfer s c.xfer = some x → xferDone x = true →
    let sem := link.val / 4096 * 65536 + (if x.kind = .read then d.semFull else d.semEmpty)
    ∃ u fire rest, exec (.streamChunkLanded link chunk) s = .next (forEach fire (fun c t => Machine.semPost sem c.granules t) u) ∧
      fire ++ rest = setNth (getLink s link.val).chunks chunk.val { c with landed := true } ∧ (∀ k ∈ fire, k.landed = true) ∧
      (∀ k, rest.head? = some k → k.landed = false) ∧ (getLink u link.val).chunks = rest ∧ getXfer u c.xfer = none ∧
      SameExcept [.xfers, .links] s u) ∧
  (∀ (n : Nat) (s : State) (x : Xfer) (p : Nat), getXfer s n = some x → x.engine < 160 → physOf s x.engine = some p →
    (stallLimit s p ≠ 0 → xferDone x = false → xferAbroad s x = true → stallLimit s p * 1000 ≤ s.devTime - x.lastLand →
      ∃ t y, exec (.streamStall n) s = .next t ∧ getXfer t n = some y ∧ y.cancelled = true ∧ xferDone y = true ∧
        (∀ k ∈ t.net, k.xfer ≠ n) ∧ t.log ≠ s.log ∧ (∀ a, memByte t a = memByte s a)) ∧
    (stallLimit s p = 0 → exec (.streamStall n) s = .next s))

/-! ### Grinders and table stores (R228-R246) -/

/-- A grinder's next batch begins once its descriptor has arrived and no batch ahead of it still takes its input (R239): it leaves the grinder's
queue and binds the version that its epoch names, with the updates accepted so far (R240); one that an abort stopped in the queue (R70), or whose
descriptor cannot be read, breaks R230, or names a table or a version that it may not use has its result forced instead, and a descriptor that
breaks R230 or names a denied table ends its invocation ABORTED. A row read that has returned gives its bytes to the combiner, once for all the
lookups that attach to it (R236). A batch whose rows have all returned pools them, each output row in the format, order and precision of R233-R235;
once they are where they belong its result record is written, where it has one, and then it ends: its op leaves its core's window and its semaphore
is posted (R238, R246). -/
def Obligations.GrinderBatchesBeginReadAndEnd : Prop :=
  (∀ (grinder : Fin 32) (s : State) (b : Batch) (rest : List Batch) (x : Nat) (v : Xfer),
    let g := grinder.val
    (getGrinder s g).queue = b :: rest → b.xfers = [x] → getXfer s x = some v → xferDone v = true →
    (∀ a ∈ (getGrinder s g).active, a.phase ≠ .lengths ∧ a.phase ≠ .arrays ∧
      (a.forced = none → (a.phase = .pooling ∨ a.phase = .writing) ∧ a.idx.length ≤ a.next)) →
    let d := batchDesc (v.payload.map (·.1))
    let bound := bindBatch s g b d
    let bad := !descOk s g d || xferAddr v % 64 != 0 || ((bound.2.isNone || bound.2 == some 2) && !strideOk s g d)
    let gone := v.failed || b.forced == some 5
    ∃ t b', exec (.grdBatchBegin grinder) s = .next t ∧ (getGrinder t g).queue = rest ∧ b' ∈ (getGrinder t g).active ∧ b'.id = b.id ∧
      b'.desc = some d ∧ b'.forced = (if gone then some 5 else if bad then some 3 else bound.2) ∧
      b'.binding = (if gone || bad || bound.2.isSome then none else bound.1) ∧
      b'.phase = (if b'.forced.isSome then .pooling else .lengths) ∧
      (∀ y, b'.forced = some 3 ∨ b'.forced = some 4 → getInv s b.inv = some y → y.early = none → y.refused = false →
        ∃ z, getInv t b.inv = some z ∧ z.early = some (.aborted, 0)) ∧
      SameExcept (Reaches (.grdBatchBegin grinder)) s t) ∧
  (∀ (grinder : Fin 32) (batch : Fin 2) (read : Fin 512) (s : State) (b : Batch) (row x : Nat) (v : Xfer),
    (getGrinder s grinder.val).active[batch.val]? = some b → (getGrinder s grinder.val).active.find? (fun a => a.id == b.id) = some b →
    b.outstanding[read.val]? = some (row, x) → getXfer s x = some v →
    xferDone v = true → b.forced = none → ∃ t b', exec (.grdRowReadReturn grinder batch read) s = .next t ∧
      (getGrinder t grinder.val).active[batch.val]? = some b' ∧ tabFind b'.data row = some v.payload ∧
      SameExcept (Reaches (.grdRowReadReturn grinder batch read)) s t) ∧
  (∀ (grinder : Fin 32) (batch : Fin 2) (s : State) (b : Batch) (d : BatchDesc),
    let g := grinder.val
    (getGrinder s g).active[batch.val]? = some b → (getGrinder s g).active.find? (fun a => a.id == b.id) = some b → b.desc = some d →
    (b.phase = .pooling → b.outstanding = [] → (∀ x ∈ b.xfers, xferOver s x = true) → (b.forced = none → b.idx.length ≤ b.next) →
      ∃ t b', exec (.grdBatchComplete grinder batch) s = .next t ∧ b' ∈ (getGrinder t g).active ∧ b'.id = b.id ∧ b'.phase = .writing ∧
        b'.rows = (if b.forced = none ∨ b.forced = some 2 then (match batchTable s g b with | some e => poolRows e b d | none => []) else [])) ∧
    (b.phase = .writing → b.recorded = false → d.toLink = false → (∀ x ∈ b.xfers, xferOver s x = true) → d.resultRef ≠ 0 →
      d.resultRef < 2 ^ 48 → d.resultRef % 32 = 0 → ∃ t b' x v, exec (.grdBatchComplete grinder batch) s = .next t ∧
        b' ∈ (getGrinder t g).active ∧ b'.id = b.id ∧ b'.recorded = true ∧ b'.xfers = [x] ∧ getXfer t x = some v ∧ v.kind = .write ∧
        v.payload = clean (resultRecord b d)) ∧
    (b.phase = .writing → d.toLink = false → (b.recorded = true ∨ d.resultRef = 0) → (∀ x ∈ b.xfers, xferOver s x = true) →
      ∃ t, exec (.grdBatchComplete grinder batch) s = .next t ∧ (∀ a ∈ (getGrinder t g).active, a.id ≠ b.id) ∧
        (∀ o ∈ (getCore t b.core).window, o.seq ≠ b.opSeq) ∧
        (∀ y, b.forced = some 2 → getInv s b.inv = some y → ∃ z, getInv t b.inv = some z ∧ z.versionRetired = true)))

/-- A table command that arrives at a port that is not busy, with no reserved bit set and a completion semaphore, where it names one, that is the
Carrier's: it is checked and performed at the write (log entry 57), and its code, 0 where it is accepted, stands in the port; DEFINE, STAGE and
SWITCH owe their post, which fires once the port is no longer busy (R241, R242, R244, R245). DEFINE makes a table with a current version; STAGE
fills the empty slot; SWITCH makes the staged version current and the current one retired; RETIRE empties the retired slot once no batch in progress
is bound to it, with `FORCE` the batches bound to it end with their results forced; UPDATE numbers a row update and queues it; UNDEFINE takes the
table away once no batch is bound to it. A table command at a port still busy is dropped and logged, and no store changes (R245), and one over a
link that is not up does not arrive; at a free port one with a reserved bit set, or with an `OP` that R244 does not name, answers 1, and one that
names a semaphore that is not the Carrier's answers 2. -/
def Obligations.TableCommandsChangeTheirTable : Prop :=
  (∀ (agent : Agent) (die port : Fin 2) (v : Dword) (s : State),
    let st := getStore s die.val
    let pt := getPort st port.val
    let table := bit63 v 16 8
    let a := fun k => pt.args.getD k 0
    let done := if bit63 v 41 41 = 1 then some (bit63 v 40 24) else none
    let code := fun (t : State) => (getPort (getStore t die.val) port.val).code
    let entry := fun (t : State) => tabFind (getStore t die.val).tables table
    let due := fun (t : State) => (getPort (getStore t die.val) port.val).due
    reaches s agent = true → pt.busyUntil ≤ s.devTime → bit63 v 63 42 = 0 → bit63 v 23 17 = 0 → bit63 v 7 5 = 0 → (bit63 v 3 0 ≠ 4 → bit63 v 4 4 = 0) →
    (∀ i, done = some i → carrierSem s i = true) →
    (bit63 v 3 0 = 1 → entry s = none → bit63 (a 0) 63 48 = 0 → bit63 (a 1) 63 54 = 0 → bit63 (a 2) 63 28 = 0 → bit63 (a 3) 63 32 = 0 →
      rowFmtOk (bit63 (a 1) 40 37) = true → bit63 (a 1) 53 41 % 4 = 0 → bit63 (a 1) 53 41 ≠ 0 →
      bit63 (a 1) 53 41 + (if rowScaled (bit63 (a 1) 40 37) then 4 else 0) ≤ 4096 →
      ceilDiv (bit63 (a 1) 53 41 + (if rowScaled (bit63 (a 1) 40 37) then 4 else 0)) 64 ≤ bit63 (a 2) 15 0 →
      bit63 (a 0) 47 0 % 64 = 0 → bit63 (a 1) 36 0 ≠ 0 → bit63 (a 1) 36 0 ≤ 2 ^ 36 → bit63 (a 3) 31 0 ≠ 0 →
      ∃ t e, exec (.tableDefine agent die port v) s = .next t ∧ code t = 0 ∧ due t = done ∧ entry t = some e ∧ e.rowFmt = bit63 (a 1) 40 37 ∧
        e.sliceBytes = bit63 (a 1) 53 41 ∧ e.rowStride = bit63 (a 2) 15 0 ∧ e.owner = bit63 (a 2) 27 16 ∧ e.seq = 0 ∧
        e.slot0 = { state := 2, base := bit63 (a 0) 47 0, rows := bit63 (a 1) 36 0, epoch := bit63 (a 3) 31 0 } ∧ e.slot1 = slotEmpty) ∧
    (∀ e k, bit63 v 3 0 = 2 → entry s = some e → e.slotIn 0 = some k → bit63 (a 0) 63 48 = 0 → bit63 (a 1) 63 37 = 0 → a 2 = 0 →
      bit63 (a 3) 63 32 = 0 → bit63 (a 0) 47 0 % 64 = 0 → bit63 (a 1) 36 0 ≠ 0 → bit63 (a 1) 36 0 ≤ 2 ^ 36 → bit63 (a 3) 31 0 ≠ 0 →
      (e.slot0.state = 0 ∨ e.slot0.epoch ≠ bit63 (a 3) 31 0) → (e.slot1.state = 0 ∨ e.slot1.epoch ≠ bit63 (a 3) 31 0) →
      ∃ t, exec (.tableStage agent die port v) s = .next t ∧ code t = 0 ∧ due t = done ∧
        entry t = some (e.setSlot k { state := 1, base := bit63 (a 0) 47 0, rows := bit63 (a 1) 36 0, epoch := bit63 (a 3) 31 0 })) ∧
    (∀ e n c, bit63 v 3 0 = 3 → noArgs pt.args = true → entry s = some e → e.slotIn 1 = some n → e.slotIn 2 = some c →
      ∃ t f, exec (.tableSwitch agent die port v) s = .next t ∧ code t = 0 ∧ due t = done ∧ entry t = some f ∧ f.slot n = { e.slot n with state := 2 } ∧
        f.slot c = { e.slot c with state := 3 }) ∧
    (∀ e k, bit63 v 3 0 = 4 → noArgs pt.args = true → entry s = some e → e.slotIn 3 = some k → e.retiring = none → e.undefining = none →
      let bound := boundBatches s die.val table k
      (bit63 v 4 4 = 0 → ∃ t f, exec (.tableRetire agent die port v) s = .next t ∧ code t = 0 ∧ entry t = some f ∧
        (bound = [] → f.slot k = slotEmpty ∧ f.retiring = none) ∧ (bound ≠ [] → f.slot k = e.slot k ∧ f.retiring = some done)) ∧
      (bit63 v 4 4 = 1 → (∀ x ∈ bound, x.2 ∈ (getGrinder s x.1).active) → ∃ t f, exec (.tableRetireForce agent die port v) s = .next t ∧ code t = 0 ∧ entry t = some f ∧
        (bound = [] → f.slot k = slotEmpty ∧ f.retiring = none) ∧
        (bound ≠ [] → f.retiring = some done ∧
          ∀ g b, (g, b) ∈ bound → b.forced = none → ∀ c ∈ (getGrinder t g).active, c.id = b.id → c.forced = some 2 ∧ (c.phase = .pooling ∨ c.phase = .writing)))) ∧
    (∀ e k, bit63 v 3 0 = 5 → entry s = some e → e.slotIn 2 = some k → bit63 (a 0) 63 48 = 0 → bit63 (a 1) 63 36 = 0 → a 2 = 0 → a 3 = 0 →
      bit63 (a 0) 47 0 % 64 = 0 → bit63 (a 1) 35 0 < (e.slot k).rows → st.updates.length < 4096 →
      ∃ t, exec (.tableUpdate agent die port v) s = .next t ∧ code t = 0 ∧ entry t = some { e with seq := e.seq + 1 } ∧
        (getPort (getStore t die.val) port.val).seq = e.seq + 1 ∧
        (getStore t die.val).updates = st.updates ++
          [{ table := table, slot := k, row := bit63 (a 1) 35 0, source := bit63 (a 0) 47 0, u := e.seq + 1, done := done }]) ∧
    (∀ e k, bit63 v 3 0 = 6 → noArgs pt.args = true → entry s = some e → e.slotIn 1 = none → e.slotIn 3 = none → e.slotIn 2 = some k →
      e.undefining = none → ∃ t, exec (.tableUndefine agent die port v) s = .next t ∧ code t = 0 ∧
        entry t = if boundBatches s die.val table k = [] then none else some { e with undefining := some done })) ∧
  (∀ (agent : Agent) (die port : Fin 2) (v : Dword) (s : State) (c : Instr),
    c ∈ [.tableDefine agent die port v, .tableStage agent die port v, .tableSwitch agent die port v, .tableRetire agent die port v,
         .tableRetireForce agent die port v, .tableUpdate agent die port v, .tableUndefine agent die port v] →
    (c = .tableDefine agent die port v → ¬(2 ≤ bit63 v 3 0 ∧ bit63 v 3 0 ≤ 6)) → (c = .tableStage agent die port v → bit63 v 3 0 = 2) →
    (c = .tableSwitch agent die port v → bit63 v 3 0 = 3) → (c = .tableRetire agent die port v → bit63 v 3 0 = 4 ∧ bit63 v 4 4 = 0) →
    (c = .tableRetireForce agent die port v → bit63 v 3 0 = 4 ∧ bit63 v 4 4 = 1) → (c = .tableUpdate agent die port v → bit63 v 3 0 = 5) →
    (c = .tableUndefine agent die port v → bit63 v 3 0 = 6) →
    let busy := (getPort (getStore s die.val) port.val).busyUntil
    let quiet := fun (t : State) => (getPort (getStore s die.val) port.val).due = none → SameExcept [.freeCtr, .stores] s t
    (reaches s agent = false → exec c s = .next s) ∧
    (reaches s agent = true → s.devTime < busy → ∃ t, exec c s = .next t ∧ t.log ≠ s.log ∧ SameExcept [.log] s t) ∧
    (reaches s agent = true → busy ≤ s.devTime → (bit63 v 63 42 ≠ 0 ∨ bit63 v 23 17 ≠ 0 ∨ bit63 v 7 5 ≠ 0 ∨ (bit63 v 3 0 ≠ 4 ∧ bit63 v 4 4 ≠ 0)) →
      ∃ t, exec c s = .next t ∧ (getPort (getStore t die.val) port.val).code = 1 ∧
        (getStore t die.val).tables = (getStore s die.val).tables ∧ quiet t) ∧
    (reaches s agent = true → busy ≤ s.devTime → bit63 v 63 42 = 0 → bit63 v 23 17 = 0 → bit63 v 7 5 = 0 → (bit63 v 3 0 ≠ 4 → bit63 v 4 4 = 0) →
      ((bit63 v 41 41 = 1 ∧ carrierSem s (bit63 v 40 24) = false) → ∃ t, exec c s = .next t ∧
        (getPort (getStore t die.val) port.val).code = 2 ∧ (getStore t die.val).tables = (getStore s die.val).tables ∧
        quiet t) ∧
      ((bit63 v 41 41 = 0 ∨ carrierSem s (bit63 v 40 24) = true) → (bit63 v 3 0 = 0 ∨ 6 < bit63 v 3 0) → ∃ t, exec c s = .next t ∧
        (getPort (getStore t die.val) port.val).code = 1 ∧ (getStore t die.val).tables = (getStore s die.val).tables ∧
        quiet t)))

/-- A pending update whose version no batch still reads the old row of, with no earlier update of the row before it, folds (R242): its source's
bytes, piece by piece under the owner's segments (R229, R313), replace the row, in HBM or in a scratchpad, it is pending no more, and its post
fires. It stays pending while a batch still reads the old row, or a piece of its row or its source is not reached. -/
def Obligations.UpdatesFoldIntoTheirRows : Prop :=
  ∀ (die : Fin 2) (update : Fin 4096) (source : List Byte) (s : State) (u : RowUpdate) (e : TableEntry),
    (getStore s die.val).updates[update.val]? = some u → tabFind (getStore s die.val).tables u.table = some e →
    let row := foldPlaces s e.owner (((e.slot u.slot).base + u.row * e.rowStride * 64) % 2 ^ 48) e.rowBytes .write
    let src := foldPlaces s e.owner u.source e.rowBytes .read
    (∀ ws rs, row = some ws → src = some rs → mayFold s die.val u = true → (∀ w ∈ ws, w.1 ≠ .outside) →
      let r := foldRead (clean source) rs s
      let put := fun (w : FoldPlace × Nat × Nat) (t : State) => match w.1 with
        | .hbm a => hbmWrite (hbmTurn 1 a w.2.2 t) none a (sliceAt r.1 w.2.1 w.2.2) []
        | .scratch k => memWrite t k (sliceAt r.1 w.2.1 w.2.2)
        | .outside => t
      exec (.updateFold die update source) s = .next (postDone u.done (updStore (forEach ws put r.2) die.val
        (fun st => { st with updates := st.updates.filter (fun w => decide (w ≠ u)) })))) ∧
    ((row = none ∨ src = none ∨ mayFold s die.val u = false) → exec (.updateFold die update source) s = .next s)

/-! ### Packets and HBM (R21, R22, R290-R310) -/

/-- A packet that none of its source, destination and class is ahead of does at its stop what it is for (R22, R33, R290, R335, R339): a request
waits at a stack, one access for each 2 KiB unit (R287), is performed in a scratchpad that is not power-gated (R30), leaves for a host or a peer; a
reply lands at its engine. A packet behind another one, or one for the ring while the retry store is full, stays. An uncorrectable flit, at a stop of
the packet's route, poisons its granules (R21); that of a circuit, at a stop of the circuit's, the granules of the consumer's ring. -/
def Obligations.PacketsDoWhatTheirStopDoes : Prop :=
  ∀ (i : Nat) (s : State) (k : Packet), s.net[i]? = some k →
    let u := { s with net := dropNth s.net i }
    let go := fun e => exec (.packetDeliver (.queued i) e) s
    (∀ e, packetBehind s.net i k = true ∨ packetStuck s k = true ∨ errorOnWay e k.src k.dst k.data = false → go e = .next s) ∧
    (packetBehind s.net i k = false → packetStuck s k = false →
      (∀ v q n, k.kind = .request → k.dst = .stack n → getPiece s k.xfer k.piece = some (v, q) →
        let rs := fun (d : PData) => (unitPieces q.daddr q.len).map (fun x => (
          { xfer := k.xfer, piece := k.piece, kind := v.kind, addr := x.1, len := x.2, data := sliceAt d (x.1 - q.daddr) x.2, region := v.region,
            cls := k.cls, since := s.devTime, passed := 0 } : Arrived))
        go none = .next (updMc u n (fun m => { m with arrivals := m.arrivals ++ rs k.data })) ∧
        ∀ f : FlitError, errorOnWay (some f) k.src k.dst k.data = true → ∃ t d, go (some f) = .next t ∧ t.log ≠ s.log ∧
          (getMc t n).arrivals = (getMc s n).arrivals ++ rs d ∧
          ∀ j : Nat, d[j]? = (k.data[j]?).map (fun b => (b.1, b.2 || decide (j / 256 = f.flit.val)))) ∧
      (∀ v q p, k.kind = .request → k.dst = .core p → getPiece s k.xfer k.piece = some (v, q) → v.kind = .write → pieceOver q = false →
        (getIsl s (islOfCore p)).power ≠ 0 → ∃ t w r, go none = .next t ∧ getPiece t k.xfer k.piece = some (w, r) ∧ r.state = .landed ∧ w.lastLand = s.devTime ∧
          (∀ j < k.data.length, memByte t (q.daddr + j) = (k.data.getD j (0, false)).1) ∧
          (∀ a, (a < q.daddr ∨ q.daddr + k.data.length ≤ a) → memByte t a = memByte s a) ∧ t.net = u.net ∧
          (getIsl t (islOfCore p)).power = (if (getIsl s (islOfCore p)).power = 1 then 2 else (getIsl s (islOfCore p)).power)) ∧
      (∀ v q p, k.kind = .request → k.dst = .core p → getPiece s k.xfer k.piece = some (v, q) → v.kind = .read →
        (getIsl s (islOfCore p)).power ≠ 0 → ∃ t, go none = .next t ∧ SameExcept [.isl, .net] s t ∧ t.net = u.net ++
          [{ src := .core p, dst := engineStop s v.engine, cls := k.cls, kind := .reply, xfer := k.xfer, piece := k.piece,
             data := memRead s q.daddr q.len }]) ∧
      (∀ p, k.kind = .request → k.dst = .core p → (getPiece s k.xfer k.piece).isSome = true → (getIsl s (islOfCore p)).power = 0 → go none = .next u) ∧
      (∀ v q, k.kind = .reply → getPiece s k.xfer k.piece = some (v, q) → v.kind = .read → pieceOver q = false →
        ∃ t w r, go none = .next t ∧ getPiece t k.xfer k.piece = some (w, r) ∧ r.state = .landed ∧ t.net = u.net ∧
          (v.buffered = true → w.payload = v.payload.take q.near ++ k.data ++ v.payload.drop (q.near + k.data.length) ∧
            ∀ a, memByte t a = memByte s a) ∧
          (∀ ph, v.buffered = false → physOf s v.engine = some ph →
            ∀ a, ¬PortHits s ph 0 q.near k.data.length a → memByte t a = memByte s a)) ∧
      (∀ v q g p, k.kind = .request → k.dst = .gkPort g → getPiece s k.xfer k.piece = some (v, q) → pieceOver q = false →
        portFor s ((q.daddr - hostBase) / 2 ^ 39) ((q.daddr - hostBase) % 2 ^ 39) = some p →
        (v.kind = .write → ∃ t w r, go none = .next t ∧ t.host.delivered = s.host.delivered ++ [(p, w)] ∧
          w.host = (q.daddr - hostBase) / 2 ^ 39 ∧ w.addr = (q.daddr - hostBase) % 2 ^ 39 ∧ w.bytes = k.data.map (·.1) ∧
          getPiece t k.xfer k.piece = some r ∧ r.2.state = .landed) ∧
        (v.kind = .read → ∃ t r, go none = .next t ∧ (getGk t p).reads = (getGk s p).reads ++ [r] ∧ r.xfer = k.xfer ∧ r.piece = k.piece ∧
          r.addr = (q.daddr - hostBase) % 2 ^ 39 ∧ r.len = q.len ∧ SameExcept [.net, .host] s t)) ∧
      (∀ v q c, k.kind = .request → k.dst = .courierPort c → getPiece s k.xfer k.piece = some (v, q) → ∃ t e, go none = .next t ∧
        t.courier.store = s.courier.store ++ [e] ∧ e.piece = some (k.xfer, k.piece) ∧ e.msg.payload = k.data ∧ e.msg.cls = k.cls ∧
        e.msg.type = (match v.kind with | .read => crRead | .write => crWrite | .atomic => crAtomic) ∧ SameExcept [.net, .courier] s t)) ∧
    (∀ (p : Fin 2) j bytes r v q, (getGk s p.val).reads[j]? = some r → (getGk s p.val).link = .up → getXfer s r.xfer = some v →
      getPiece s r.xfer r.piece = some (v, q) → pieceOver q = false → v.kind = .read → ∃ t w r', exec (.packetDeliver (.hostData p j bytes) none) s = .next t ∧
        getPiece t r.xfer r.piece = some (w, r') ∧ r'.state = .landed ∧ (getGk t p.val).reads = dropNth (getGk s p.val).reads j ∧
        (v.buffered = true → w.payload = v.payload.take q.near ++ clean (padTo r.len bytes) ++ v.payload.drop (q.near + (padTo r.len bytes).length))) ∧
    (∀ (die : Fin 2) (link : Fin 4096) g (f : FlitError) l p, linkDef s (die.val * 4096 + link.val) = some l → l.consumer.grinder = false →
      (circuitStops s die.val l).contains (f.die.val, f.x.val, f.y.val) = true → physOf s (die.val * 80 + l.consumer.unit) = some p →
      ∃ t, exec (.packetDeliver (.circuit die link g) (some f)) s = .next t ∧ t.log ≠ s.log ∧ SameExcept [.log, .poison] s t ∧
        ∀ j < min 256 (l.ringKib * 1024 - g * 64), memPoison t (scratchKey p (l.ringOffset + g * 64) + j) = true)

/-- An access at a stack's stop that no earlier access to one of its lines is ahead of, whose channel does not pause and whose turn at its
pseudo-channel has come is performed at its home cache (R288, R290, R294, R301, R308): when the last access of a read's piece is, its data return to
its engine as a reply, and that of a write's piece lands it. An uncached write reaches the DRAM, and nothing else there changes. One that must
wait stays; a way both of whose tag copies are lost takes the module to FAULTED with code 3. -/
def Obligations.HbmAccessesArePerformedInOrder : Prop :=
  ∀ (stack : Fin 12) (i : Nat) (errs : List HbmError) (tags : TagOutcome) (s : State) (r : Arrived),
    (getMc s stack.val).arrivals[i]? = some r →
    let go := exec (.hbmAccess stack i errs tags) s
    let rest := dropNth (getMc s stack.val).arrivals i
    let more := rest.any (fun e => decide (e.xfer = r.xfer) && decide (e.piece = r.piece))
    let left := fun (t : State) => (getMc t stack.val).arrivals.map (fun e => (e.xfer, e.piece, e.addr, e.since)) =
      rest.map (fun e => (e.xfer, e.piece, e.addr, e.since))
    (accessWaits s stack.val i r = true ∨ accessTurn s stack.val r = none → go = .next s) ∧
    (accessWaits s stack.val i r = false → ∀ w, accessTurn s stack.val r = some w →
      let taken := tagCheck (dieOfStack stack.val) tags (takeArrival stack.val i r (takeTurn stack.val r w s))
      let d := (accessRead taken.1 r.region r.addr r.len errs).1
      (∀ way set, tags = .bothLost way set → s.mode ≠ .off → s.mode ≠ .faulted → ∃ t, go = .next t ∧ t.mode = .faulted ∧ t.pm.fault = 3) ∧
      (∀ v, r.kind = .read → (∀ way set, tags ≠ .bothLost way set) → getXfer s r.xfer = some v → ∃ t, go = .next t ∧ left t ∧
        (errs = [] → ∀ a, memByte t a = memByte s a) ∧
        (more = true → t.net = s.net ∧ (getMc t stack.val).parts = (getMc s stack.val).parts ++
          [{ xfer := r.xfer, piece := r.piece, addr := r.addr, data := d }]) ∧
        (more = false → (∀ e ∈ (getMc s stack.val).parts, ¬(e.xfer = r.xfer ∧ e.piece = r.piece)) →
          t.net = s.net ++ [{ src := .stack stack.val, dst := engineStop s v.engine, cls := r.cls, kind := .reply, xfer := r.xfer,
                              piece := r.piece, data := d }])) ∧
      (∀ v q, r.kind = .write → (∀ way set, tags ≠ .bothLost way set) → getPiece s r.xfer r.piece = some (v, q) → v.kind = .write →
        pieceOver q = false → ∃ t x p, go = .next t ∧ left t ∧ getPiece t r.xfer r.piece = some (x, p) ∧
        (more = false → p.state = .landed) ∧ (more = true → p = q) ∧
        (r.region = none → tags = .clean → errs = [] → InDram s r.addr r.data.length →
          (∀ j < r.data.length, memByte t (r.addr + j) = (r.data.getD j (0, false)).1) ∧
          ∀ a, (a < r.addr ∨ r.addr + r.data.length ≤ a) → memByte t a = memByte s a)))

/-- An atomic on 4 or 8 bytes of HBM that its alignment, its address and its turn allow (R290, R291) answers the old value and puts the result of
its operation in its place, in the cached line or the DRAM; a poisoned operand is answered marked and does not change. One that an engine asks for
at a virtual address (log entry 58) needs the segment's atomic right (R313), is reported where it faults (R318), and goes to the home that the
segment names, over the ring to a peer. What the caches and the memory controllers do by themselves (R292-R299, R304, R306, R309): a pending fill
starts in an idle slot within 2 µs and is dropped after them; a write-back, in its turn, puts its line in the DRAM and frees its entry; a clean
empties its ways, with its write-backs performed, and the departing ones power down; the patrol reads granule after granule, corrects and reports
what its codes find, and wraps; a channel pauses for re-training, and the spares that waited for the pause take effect at its end. -/
def Obligations.CachesControllersAndAtomics : Prop :=
  (∀ (cls : Fin 4) (op : AtomicOp) (a : Nat) (wide : Bool) (x cmp : Dword) (errs : List HbmError) (tags : TagOutcome) (s : State),
    let n := if wide then 8 else 4
    let go := fun by_ b errs tags => exec (.hbmAtomic op ⟨by_, cls, b, errs, tags⟩ wide x cmp)
    let result := fun old => atomicResult op (8 * n) old x.toNat cmp.toNat
    ((hbmTop ≤ a ∨ a % n ≠ 0 ∨ hbmReady s cls.val a n = false) → go none a errs tags s = .next s) ∧
    (a < hbmTop → a % n = 0 → hbmReady s cls.val a n = true → stackOffline s (stackOf a) = false →
      (InDram s a n → ∃ t, go none a [] .clean s = .next t ∧
        t.answers = s.answers ++ [memBytes s a n ++ [BitVec.ofNat 8 (b2n (memPoison s a))]] ∧
        (memPoison s a = true → ∀ b, memByte t b = memByte s b) ∧
        (memPoison s a = false → memBytes t a n = leBytes n (result (leNat (memBytes s a n)))) ∧
        (∀ b, (b < a ∨ a + n ≤ b) → memByte t b = memByte s b)) ∧
      (∀ e, tabFind (getCache s (dieOfStack (stackOf a))).lines (a / 256) = some e →
        let d := lineSlice e.bytes e.poison (a % 256) n
        let old := leNat (d.map (·.1))
        d.any (·.2) = false → ∃ t f, go none a [] .clean s = .next t ∧ t.answers = s.answers ++ [leBytes n old ++ [0]] ∧
          tabFind (getCache t (dieOfStack (stackOf a))).lines (a / 256) = some f ∧ f.dirty = true ∧
          f.bytes = mergeBytes e.bytes (a % 256) (clean (leBytes n (result old))) ∧ ∀ b, memByte t b = memByte s b)) ∧
    (∀ (e : Fin 192) (ctx : Fin 4096),
      let u := (translate e.val ctx.val a s).2
      let g := covering u ctx.val a
      (a % n ≠ 0 → go (some (e, ctx)) a errs tags s = .next s) ∧
      (a % n = 0 → g = none → go (some (e, ctx)) a errs tags s = .next (raiseFault e.val ctx.val a none .noSegment .atomic u).2) ∧
      (∀ i f, a % n = 0 → g = some (i, f) →
        let d := f.dbase + (a - f.vstart)
        (f.atomic = false → go (some (e, ctx)) a errs tags s = .next (raiseFault e.val ctx.val a (some i) .rights .atomic u).2) ∧
        (∀ r, f.atomic = true → placeFault u d n = some r →
          go (some (e, ctx)) a errs tags s = .next (raiseFault e.val ctx.val a (some i) r .atomic u).2) ∧
        (∀ h, f.atomic = true → placeFault u d n = none → placeOf d = .hbm h → go (some (e, ctx)) a errs tags s = go none h errs tags u) ∧
        (∀ slot o, f.atomic = true → placeFault u d n = none → placeOf d = .peer slot o → some slot ≠ modPosition u →
          ∃ t m, go (some (e, ctx)) a errs tags s = .next t ∧ t.courier.store = s.courier.store ++ [m] ∧ m.msg.type = crAtomic ∧
            m.msg.dst = slot ∧ m.msg.cls = cls.val ∧ m.msg.payload = clean (leBytes 8 x.toNat ++ leBytes 8 cmp.toNat))))) ∧
  (∀ (die : Fin 2) (stack : Fin 12) (k : Nat) (s : State),
    let c := getCache s die.val
    let m := getMc s stack.val
    let a := stack.val * stackSize + m.patrolNext * 64
    (∀ f errs, c.fills[k]? = some f → s.devTime < f.since + 2000 → idleSlot s (f.line * 256) = true → ∃ t,
      exec (.backgroundFillStart die k errs) s = .next t ∧ (getCache t die.val).fills = dropNth c.fills k ∧ (errs = [] → ∀ b, memByte t b = memByte s b)) ∧
    (∀ f, c.fills[k]? = some f → f.since + 2000 ≤ s.devTime → exec (.backgroundFillDrop die k) s =
      .next (setCache s die.val { c with fills := dropNth c.fills k, fillsDropped := c.fillsDropped + 1 })) ∧
    (∀ e, c.evb[k]? = some e →
      let turn := takeSlots s (stackOf (e.line * 256)) (pseudoOf (e.line * 256)) { cls := 3, since := e.since, passed := e.passed, slots := 4 }
      (channelPaused s (e.line * 256) = true ∨ turn = none → exec (.evictionWritebackDone die k) s = .next s) ∧
      (channelPaused s (e.line * 256) = false → turn ≠ none → stackOffline s (stackOf (e.line * 256)) = false → ∃ t,
        exec (.evictionWritebackDone die k) s = .next t ∧ (getCache t die.val).evb.map (·.line) = (dropNth c.evb k).map (·.line) ∧
        (∀ j < 256, memByte t (e.line * 256 + j) = e.bytes.getD j 0) ∧
        (∀ b, (b < e.line * 256 ∨ e.line * 256 + 256 ≤ b) → memByte t b = memByte s b) ∧ SameExcept [.mem, .poison, .cache, .mc] s t)) ∧
    (let out := (cleanedLines c).filter (·.2.dirty)
     let held := out.any (fun e => channelPaused s (e.1 * 256)) || (cleanedBacks c).any (fun e => channelPaused s (e.line * 256))
     ((c.cleaning = [] ∨ held = true) → exec (.cacheCleanDone die) s = .next s) ∧
     (c.cleaning ≠ [] → held = false → ∃ t, exec (.cacheCleanDone die) s = .next t ∧ (getCache t die.val).cleaning = [] ∧
      (getCache t die.val).departing = [] ∧ (getCache t die.val).walk = [] ∧ (getCache t die.val).evb = c.evb.filter (fun e => !e.cleaned) ∧
      (getCache t die.val).lines = c.lines.filter (fun e => !setHas c.cleaning e.2.way) ∧
      (getCache t die.val).powered = c.powered.filter (fun w => !setHas c.departing w) ∧
      ∀ b, (∀ e ∈ cleanedBacks c, e.line ≠ b / 256) → (∀ e ∈ out, e.1 ≠ b / 256) → memByte t b = memByte s b)) ∧
    (∀ words, (m.train = 1 ∨ m.train = 2) → idleSlot s a = true → s.power.selfRefresh = false → m.patrolNext < stackGranules → ∃ t,
      exec (.hbmPatrolRead stack words) s = .next t ∧
      (getMc t stack.val).patrolNext = (if m.patrolNext + 1 = stackGranules then 0 else m.patrolNext + 1) ∧
      (m.patrolNext + 1 = stackGranules → (getMc t stack.val).patrolStart = s.devTime ∧ (getMc t stack.val).patrolLate = false) ∧
      let seen := granuleCheck (memPoison s a) (seenErrors m (pseudoOf a) words)
      (words = [] → t.poison = s.poison ∧ t.log = s.log ∧ ∀ b, memByte t b = memByte s b) ∧
      (seen.2.1 = true → memPoison t a = true ∧ t.log ≠ s.log ∧ (getMc t stack.val).uncorrected = m.uncorrected + 1) ∧
      (seen.2.1 = false → t.log = s.log ∧ (getMc t stack.val).corrected = m.corrected + BitVec.ofNat 64 seen.1) ∧
      SameExcept [.log, .mem, .poison, .mc] s t) ∧
    ((m.train = 1 ∨ m.train = 2) → m.patrolLate = false → m.patrolStart + patrolRound < s.devTime → ∃ t,
      exec (.hbmScrubLate stack) s = .next t ∧ getMc t stack.val = { m with patrolLate := true } ∧ t.log ≠ s.log ∧ SameExcept [.log, .mc] s t) ∧
    (∀ (ch : Fin 16) lane, (m.train = 1 ∨ m.train = 2) → s.plan.running = true → mayPause s (dieOfStack stack.val) = true → ∃ t,
      exec (.hbmRetrainPauseStart stack ch lane) s = .next t ∧ (getMc t stack.val).lastPause = some s.devTime ∧
      (let new := { m with pause := some (ch.val, s.devTime), lastPause := some s.devTime,
                           coming := m.newFixes.filter (fun f => f.channel == ch.val), newFixes := m.newFixes.filter (fun f => f.channel != ch.val) }
       (lane = none → getMc t stack.val = new ∧ SameExcept [.mc] s t) ∧
       (∀ l, lane = some l → (∀ f, fixFor new stack.val ch.val l.val = some f → (getMc t stack.val).newFixes = new.newFixes ++ [f] ∧
          (getMc t stack.val).coming = new.coming ∧ t.pm.record.lanes = s.pm.record.lanes ++ [f]) ∧
        (fixFor new stack.val ch.val l.val = none → (getMc t stack.val).train = 3 ∧ (getMc t stack.val).pause = none)))) ∧
    (∀ ch at_, m.pause = some (ch, at_) → ∃ t, exec (.hbmRetrainPauseEnd stack) s = .next t ∧ (getMc t stack.val).pause = none ∧
      (getMc t stack.val).fixes = m.fixes ++ m.coming ∧ (getMc t stack.val).coming = [] ∧
      ((∃ f ∈ m.coming, f.erased = true) → (getMc t stack.val).train = 2) ∧ SameExcept [.mc] s t))

/-! ### Segments (R311-R328) -/

/-- A segment call that its slot, its caller and its arguments admit, and that no earlier call of its context is ahead of, runs at once (R312, R323,
R325, R326). SEG_READ answers the entry. SEG_WRITE and SEG_CLEAR of an empty entry write it with a generation one higher; of a live one they put the
new entry in place and begin the withdrawal of the old translation. A descriptor that breaks a rule of R312 is answered with the first code and its
rule. The advices of R323, each as its row: WILL_NEED and READ_MOSTLY of a host home and COLD of a home in HBM first withdraw the rights to write
and to perform atomics; REVOKE_RM gives a read-mostly segment its host home back; HOT and NORMAL set and clear the mark that pins a segment's
entries (R316). The wrong home answers WRONG_STATE. -/
def Obligations.SegmentCallsAndAdvices : Prop :=
  (∀ (who : Agent) (slot : Fin 12) (notify : Bool) (vector : Fin 1024) (s : State),
    let k := slot.val
    let x := getSlot s k
    let ctx := argAt x 0 2
    let i := argAt x 2 1
    let old := getSeg s ctx i
    let new := parseSeg (argBytes x 8 32)
    let check := checkSeg s ((agentHost s who).getD 0) ctx i new (segReservedOk (argBytes x 8 32))
    let next := (old.gen + 1) % 2 ^ 32
    let begun := fun (t : State) (f : SegEntry) => (getSlot t k).state = 1 ∧ getSeg t ctx i = { f with gen := next } ∧
      ∃ w, t.seg.withdrawals = s.seg.withdrawals ++ [w] ∧ w.context = ctx ∧ w.index = i ∧ w.oldGen = old.gen ∧ w.slot = k ∧
        w.wTime = s.devTime ∧ w.applied = [] ∧ w.acked = []
    ctx < 4096 → i < 64 → (∀ h, agentHost s who = some h → ownsContext s h ctx = true) → (∀ c ∈ s.seg.calls, c.context ≠ ctx) →
    (CallAdmitted s who k (segRule 0x22 true [(0, 3)]) → ∃ t, exec (.segRead who slot notify vector) s = .next t ∧ CallEnded t k 0 (segBytes old) ∧
      (∀ c j, getSeg t c j = getSeg s c j)) ∧
    (CallAdmitted s who k (segRule 0x20 false [(0, 3), (8, 32)]) → segArgsOk (argBytes x 8 32) = true →
      (check.1 ≠ 0 → ∃ t, exec (.segWrite who slot notify vector) s = .next t ∧ CallEnded t k (check.1 + check.2 * 2 ^ 32) [] ∧
        (∀ c j, getSeg t c j = getSeg s c j)) ∧
      (check.1 = 0 → old.home = .empty → ∃ t, exec (.segWrite who slot notify vector) s = .next t ∧ CallEnded t k 0 (zeros 32) ∧
        getSeg t ctx i = { new with gen := next } ∧ ∀ c j, c * 64 + j ≠ ctx * 64 + i → getSeg t c j = getSeg s c j) ∧
      (check.1 = 0 → old.home ≠ .empty → ∃ t, exec (.segWrite who slot notify vector) s = .next t ∧ begun t new ∧
        ∀ c j, c * 64 + j ≠ ctx * 64 + i → getSeg t c j = getSeg s c j)) ∧
    (CallAdmitted s who k (segRule 0x21 false [(0, 3)]) →
      (old.home = .empty → ∃ t, exec (.segClear who slot notify vector) s = .next t ∧ CallEnded t k 0 (zeros 32) ∧
        getSeg t ctx i = { segEntryReset with gen := next }) ∧
      (old.home ≠ .empty → ∃ t, exec (.segClear who slot notify vector) s = .next t ∧ begun t segEntryReset ∧
        ∀ c j, c * 64 + j ≠ ctx * 64 + i → getSeg t c j = getSeg s c j))) ∧
  (∀ (who : Agent) (slot : Fin 12) (notify : Bool) (vector : Fin 1024) (s : State),
    let k := slot.val
    let x := getSlot s k
    let ctx := argAt x 0 2
    let i := argAt x 2 1
    let old := getSeg s ctx i
    let d := argAt x 8 8
    let next := (old.gen + 1) % 2 ^ 32
    let begun := fun (r : Host.Outcome State Fault Refusal) (f : SegEntry) (phase : Nat) => ∃ t c w, r = .next t ∧ (getSlot t k).state = 1 ∧
      getSeg t ctx i = { f with gen := next } ∧ t.seg.calls = s.seg.calls ++ [c] ∧ c.slot = k ∧ c.context = ctx ∧ c.index = i ∧ c.phase = phase ∧
      c.orig = old ∧ t.seg.withdrawals = s.seg.withdrawals ++ [w] ∧ w.context = ctx ∧ w.index = i ∧ w.oldGen = old.gen ∧ w.slot = k
    let wrong := fun (r : Host.Outcome State Fault Refusal) => ∃ t, r = .next t ∧ CallEnded t k pmWrongState [] ∧ ∀ c j, getSeg t c j = getSeg s c j
    let stripped := { old with write := false, atomic := false }
    let destOk := fun (op : SegOp) (hbm : Bool) => (hbm = true → d + old.length ≤ hbmTop) ∧
      (checkSeg s ((agentHost s who).getD 0) ctx i (advisedEntry old op) true).1 = 0
    ctx < 4096 → i < 64 → (∀ h, agentHost s who = some h → ownsContext s h ctx = true) → (∀ c ∈ s.seg.calls, c.context ≠ ctx ∧ c.slot ≠ k) →
    CallAdmitted s who k (segRule 0x23 false [(0, 4), (8, 8)]) →
    (argAt x 3 1 = 0 → destAligned d = true →
      (old.home = .host → destOk (.willNeed d) true → begun (exec (.segAdviseWillNeed who slot notify vector) s) stripped 1) ∧
      (old.home ≠ .host → wrong (exec (.segAdviseWillNeed who slot notify vector) s))) ∧
    (argAt x 3 1 = 1 → destAligned d = true →
      (old.home = .local → old.dbase < hbmTop → destOk (.cold d) false → begun (exec (.segAdviseCold who slot notify vector) s) stripped 1) ∧
      (old.home ≠ .local → wrong (exec (.segAdviseCold who slot notify vector) s))) ∧
    (argAt x 3 1 = 2 → destAligned d = true →
      (old.home = .host → destOk (.readMostly d) true → begun (exec (.segAdviseReadMostly who slot notify vector) s) stripped 1) ∧
      (old.home ≠ .host → wrong (exec (.segAdviseReadMostly who slot notify vector) s))) ∧
    (argAt x 3 1 = 3 → d = 0 →
      (old.readMostly = true → begun (exec (.segAdviseRevokeRm who slot notify vector) s) (advisedEntry old .revokeRm) 3) ∧
      (old.readMostly = false → wrong (exec (.segAdviseRevokeRm who slot notify vector) s))) ∧
    (argAt x 3 1 = 4 → d = 0 →
      (old.home ≠ .empty → begun (exec (.segAdviseHot who slot notify vector) s) { old with hot := true } 3 ∧
        ∀ t, exec (.segAdviseHot who slot notify vector) s = .next t → t.seg.hotOrder.head? = some (ctx * 64 + i)) ∧
      (old.home = .empty → wrong (exec (.segAdviseHot who slot notify vector) s))) ∧
    (argAt x 3 1 = 5 → d = 0 →
      (old.home ≠ .empty → begun (exec (.segAdviseNormal who slot notify vector) s) { old with hot := false } 3 ∧
        ∀ t, exec (.segAdviseNormal who slot notify vector) s = .next t → ctx * 64 + i ∉ t.seg.hotOrder) ∧
      (old.home = .empty → wrong (exec (.segAdviseNormal who slot notify vector) s))))

/-- A withdrawal goes to every engine once (R326, R327): an engine that applies it drops its cached entry and counts what it still holds under the
old translation, and it acknowledges once all of that has landed and its host writes are flushed; the last of the 192
acknowledgements ends the call with the withdrawal receipt (R328). When an advice's copy is done, which no access or pause holds up and whose host
is registered, the final entry is written and its own withdrawal begins; one that a host stops gives the entry back (R324). -/
def Obligations.WithdrawalsDrainEveryEngine : Prop :=
  ∀ (context : Fin 4096) (index : Fin 64) (engine : Fin 192) (s : State),
    (∀ w, findWithdrawal s context.val index.val = some w →
      let held := heldUnder s w engine.val + unflushedUnder w engine.val (getGk s 0) + unflushedUnder w engine.val (getGk s 1)
      (setHas w.applied engine.val = false → ∃ t v, exec (.segInvalidateApply context index engine) s = .next t ∧
        findWithdrawal t context.val index.val = some v ∧ v.applied = setIns w.applied engine.val ∧ v.drained = w.drained + held ∧ v.acked = w.acked ∧
        (∀ c ∈ engineCache t engine.val, ¬(c.context = context.val ∧ c.index = index.val)) ∧ SameExcept [.seg, .host] s t) ∧
      (setHas w.applied engine.val = true → setHas w.acked engine.val = false → held = 0 →
        (∀ p < 2, ∀ x ∈ (getGk s p).held, x.trans ≠ some (engine.val, context.val, index.val, w.oldGen)) → w.context = context.val → w.index = index.val →
        ((setIns w.acked engine.val).length ≠ 192 → ∃ t v, exec (.segWithdrawAck context index engine) s = .next t ∧
          findWithdrawal t context.val index.val = some v ∧ v.acked = setIns w.acked engine.val ∧ SameExcept [.seg] s t) ∧
        ((setIns w.acked engine.val).length = 192 → ∀ c, findCall s w.slot = some c →
          (c.phase = 1 → ∃ t d, exec (.segWithdrawAck context index engine) s = .next t ∧ findCall t w.slot = some d ∧ d.phase = 2 ∧
            findWithdrawal t context.val index.val = none) ∧
          (c.phase ≠ 1 → (getSlot s w.slot).state = 1 → (getSlot s w.slot).discard = false → ∃ t, exec (.segWithdrawAck context index engine) s = .next t ∧
            CallEnded t w.slot c.code (withdrawReceipt { w with acked := setIns w.acked engine.val } s.devTime))))) ∧
    (∀ data c f code, s.seg.calls.find? (fun c => c.context == context.val) = some c → c.phase = 2 →
      ((data = none ∧ f = c.orig ∧ code = pmHostFetch) ∨
       (data ≠ none ∧ code = pmOk ∧ f = advisedEntry c.orig c.op ∧
         ∃ d, (c.op = .cold d ∧ rangeFree s c.orig.dbase c.orig.length = true ∧ (getHost s ((d - hostBase) / 2 ^ 39)).cond = .registered) ∨
           ((c.op = .willNeed d ∨ c.op = .readMostly d) ∧ rangeFree s d c.orig.length = true))) →
      ∃ t w d, exec (.segAdviseCopyDone context data) s = .next t ∧
        getSeg t context.val c.index = { f with gen := ((getSeg s context.val c.index).gen + 1) % 2 ^ 32 } ∧
        t.seg.withdrawals = s.seg.withdrawals ++ [w] ∧ w.oldGen = (getSeg s context.val c.index).gen ∧ w.slot = c.slot ∧
        d ∈ t.seg.calls ∧ d.slot = c.slot ∧ d.phase = 3 ∧ d.code = code)

/-- The oldest piece of an engine that waits for the directory is served (R315): a segment that covers it joins the engine's cache and the piece
goes on; with none it is held at a fault record of its reason and its address's 2 MiB (R318, R319). The miss is counted at the engine's island
(R315). A pending fault record is resolved by what arrives (R321, R322): RETRY translates the pieces held at it again, and it is free once the last
of them has, resolving until then; FAIL, and the limit, free it and end each of its pieces, and with it the invocation of each in SEGMENT_FAULT. A
limit is written whole. A record that is free or resolving already is not resolved again. -/
def Obligations.MissesAndFaultRecordsAreServed : Prop :=
  (∀ (engine : Fin 192) (s : State) (x p : Nat) (v : Xfer) (q : Piece), oldestMiss s engine.val = some (x, p) → getPiece s x p = some (v, q) →
    v.engine = engine.val → (∀ f ∈ s.seg.records, f.2.resolving = none) →
    let counted := fun (t : State) => tabGet 0 t.seg.misses (engineIsland s engine.val) = tabGet 0 s.seg.misses (engineIsland s engine.val) + 1
    (∀ i e, HostsServe s → covering s v.context q.vaddr = some (i, e) → ∃ t w r, exec (.segMissFill engine) s = .next t ∧ counted t ∧ getPiece t x p = some (w, r) ∧
      r.state ≠ .missing ∧ ∃ c ∈ engineCache t engine.val, c.context = v.context ∧ c.index = i ∧ c.entry = getSeg s v.context i) ∧
    (covering s v.context q.vaddr = none → ∃ t w r k, exec (.segMissFill engine) s = .next t ∧ counted t ∧ getPiece t x p = some (w, r) ∧ r.state = .held k ∧
      SameExcept [.log, .seg, .xfers] s t ∧
      ∀ n, k = some n → ∃ f, tabFind t.seg.records n = some f ∧ f.context = v.context ∧ f.segment = none ∧ f.vaddr / 2 ^ 21 = q.vaddr / 2 ^ 21 ∧
        setHas f.waiters engine.val = true)) ∧
  (∀ (who : Agent) (record : Fin 32) (value : Word) (s : State),
    (reaches s who = true → ∃ t, exec (.segFaultCtrlWrite who value) s = .next t ∧ t.seg.limitUs = value.toNat % 65536) ∧
    (reaches s who = false → exec (.segFaultCtrlWrite who value) s = .next s ∧ exec (.segFaultResolveRetry who record) s = .next s ∧
      exec (.segFaultResolveFail who record) s = .next s) ∧
    ((∀ f, tabFind s.seg.records record.val = some f → f.resolving ≠ none) → exec (.segFaultResolveRetry who record) s = .next s ∧
      exec (.segFaultResolveFail who record) s = .next s ∧ exec (.segmentFaultTimeout record) s = .next s) ∧
    (∀ f, tabFind s.seg.records record.val = some f → f.resolving = none →
      let failed := fun (r : Host.Outcome State Fault Refusal) => ∃ t, r = .next t ∧
        (∀ g, tabFind t.seg.records record.val = some g → g.postmark = s.devTime) ∧
        ∀ n p v q, getPiece s n p = some (v, q) → q.state = .held (some record.val) →
          getXfer t n = none ∨
          (∃ w r, getPiece t n p = some (w, r) ∧ r.state = .ended ∧ w.failed = true) ∧
            ∀ y, getInv s v.inv = some y → y.early = none → ∃ z, getInv t v.inv = some z ∧ z.early = some (.segmentFault, 0)
      (reaches s who = true → ∃ t, exec (.segFaultResolveRetry who record) s = .next t ∧
        ∀ g, tabFind t.seg.records record.val = some g → g.postmark = s.devTime ∨ ∃ l, g.resolving = some l ∧ l ≠ []) ∧
      (reaches s who = true → failed (exec (.segFaultResolveFail who record) s)) ∧
      (s.seg.limitUs ≠ 0 → f.postmark + 1000 * s.seg.limitUs ≤ s.devTime → failed (exec (.segmentFaultTimeout record) s)) ∧
      (s.seg.limitUs = 0 ∨ s.devTime < f.postmark + 1000 * s.seg.limitUs → exec (.segmentFaultTimeout record) s = .next s)))

/-! ### Hosts, mailboxes and vectors (R329-R350) -/

/-- The link layer (R330-R332): a port that may come up comes up with its lanes and the number that its host's identity has or takes; a replay is
counted, and the seventeenth within 1 ms starts a quick retrain; a retrain, asked for or not, is counted and logged, a quick one that fails becomes
a full one, and a full one ends at 8 lanes, at 4 lanes, or with the port down. -/
def Obligations.GheklinkPortsTrainRetrainAndReplay : Prop :=
  ∀ (port : Fin 2) (s : State),
    let p := port.val
    let k := getGk s p
    (∀ id (lanes4 : Bool), k.link ≠ .up → k.link ≠ .retraining → (getIsl s (islOfGk p)).power = 2 → s.power.reset = none → s.power.supplyReset = false →
      ∃ t, exec (.gkLinkUp port id lanes4) s = .next t ∧ (getGk t p).link = .up ∧ (getGk t p).lanes = (if lanes4 then 4 else 8) ∧
        (getGk t p).host = hostNumber s id ∧ (getGk t p).identity = id ∧ SameExcept (Reaches (.gkLinkUp port id lanes4)) s t ∧
        ∀ h, hostNumber s id = some h → (getHost t h).identity = some id ∧ (getHost t h).lostSince = none ∧
          (getHost t h).cond = (if (getHost s h).cond = .absent then .linked else (getHost s h).cond)) ∧
    (k.link = .up →
      let lately := k.replayTimes.filter (fun r => decide (s.devTime < r + 1000000))
      (lately.length < 16 → ∃ t, exec (.gkReplay port) s = .next t ∧ (getGk t p).replays = k.replays + 1 ∧ (getGk t p).link = .up ∧
        SameExcept [.host] s t) ∧
      (16 ≤ lately.length → ∃ t, exec (.gkReplay port) s = .next t ∧ (getGk t p).replays = k.replays + 1 ∧ (getGk t p).link = .retraining ∧
        (getGk t p).full = false ∧ (getGk t p).retrains = k.retrains + 1 ∧ t.log ≠ s.log ∧ SameExcept [.log, .host] s t)) ∧
    (let begun := fun full (t : State) => getGk t p = { k with link := .retraining, full := full, retrains := k.retrains + 1 } ∧ t.log ≠ s.log ∧
        SameExcept [.log, .host] s t
     (k.link = .up → ∃ t, exec (.gkRetrain port) s = .next t ∧ begun false t) ∧
     ∀ who,
        (k.link = .up → reaches s who = true → (∃ t, exec (.gkLinkCtrlRetrain who port) s = .next t ∧ begun false t) ∧
          ∃ t, exec (.gkLinkCtrlFull who port) s = .next t ∧ begun true t) ∧
        (reaches s who = false → exec (.gkLinkCtrlRetrain who port) s = .next s ∧ exec (.gkLinkCtrlFull who port) s = .next s)) ∧
    (k.link = .retraining →
      (k.full = false → ∃ t, exec (.gkRetrainDone port .failed) s = .next t ∧ (getGk t p).link = .retraining ∧ (getGk t p).full = true ∧
        (getGk t p).retrains = k.retrains + 1) ∧
      (k.full = false → ∀ r, r ≠ .failed → ∃ t, exec (.gkRetrainDone port r) s = .next t ∧ (getGk t p).link = .up ∧ (getGk t p).lanes = k.lanes) ∧
      (k.full = true → (∃ t, exec (.gkRetrainDone port .full8) s = .next t ∧ (getGk t p).link = .up ∧ (getGk t p).lanes = 8) ∧
        (∃ t, exec (.gkRetrainDone port .half4) s = .next t ∧ (getGk t p).link = .up ∧ (getGk t p).lanes = 4 ∧ t.log ≠ s.log) ∧
        (∃ t, exec (.gkRetrainDone port .failed) s = .next t ∧ (getGk t p).link = .down ∧ (getGk t p).lanes = 0 ∧ t.log ≠ s.log)))

/-- Hosts come and go (R333, R345, R374, R469): REGISTER claims a range of queues that no other host has, RELEASE gives it up once nothing is open; a
host whose last port has been down for 100 ms, and one whose port is reset, are lost with their queues, and their invocations end in
HOST_LOST; a port that sleeps in PARKED wakes. A command that the host's state does not allow is only logged. -/
def Obligations.HostsRegisterReleaseAndAreLost : Prop :=
  ∀ (who : Agent) (h : Nat) (s : State),
    let x := getHost s h
    let lost := fun (t : State) => (getHost t h).cond = .lost ∧ (getHost t h).lostSince = none ∧
      (∀ q ∈ lossQueues s h, (getQ t q).enable = false ∧ (getQ t q).sqTail = 0 ∧ (getQ t q).sqHead = 0 ∧ (getQ t q).rqTail = 0 ∧ (getQ t q).rqHead = 0) ∧
      ∀ i v, getInv s i = some v → v.queue ∈ lossQueues s h → v.early = none → v.refused = false →
        ∃ w, getInv t i = some w ∧ w.early = some (.hostLost, 0)
    (agentHost s who = some h →
      (∀ (q : Fin 1024) (n : Fin 2048), claimOk s h q.val n.val = true → (x.cond = .linked ∨ x.cond = .lost) → exec (.hostRegister who q n) s =
        .next (setHost s h { x with cond := .registered, queueFirst := q.val, queueCount := n.val, released := false })) ∧
      (∀ (q : Fin 1024) (n : Fin 2048), ¬(claimOk s h q.val n.val = true ∧ (x.cond = .linked ∨ x.cond = .lost)) → ∃ t,
        exec (.hostRegister who q n) s = .next t ∧ t.log ≠ s.log ∧ SameExcept [.log] s t) ∧
      (x.cond = .registered → ∃ t, exec (.hostRelease who) s = .next t ∧ (getHost t h).cond = .linked ∧
        ((∀ q, x.queueFirst ≤ q → q < x.queueFirst + x.queueCount → (getQ s q).openCount = 0 ∧ (getQ s q).due = []) → (getHost t h).queueCount = 0) ∧
        (∀ q, x.queueFirst ≤ q → q < x.queueFirst + x.queueCount → (getQ s q).openCount ≠ 0 → (getHost t h).queueCount = x.queueCount)) ∧
      (x.cond ≠ .registered → ∃ t, exec (.hostRelease who) s = .next t ∧ t.log ≠ s.log ∧ SameExcept [.log] s t)) ∧
    (∀ (host : Fin 2) since, host.val = h → (x.cond = .linked ∨ x.cond = .registered) → x.lostSince = some since → since + 100000000 ≤ s.devTime →
      ∃ t, exec (.hostLostTimeout host) s = .next t ∧ lost t) ∧
    (∀ port : Fin 2, (getGk s port.val).link = .up → (getGk s port.val).host = some h → (x.cond = .linked ∨ x.cond = .registered) →
      ∃ t, exec (.hostReset port) s = .next t ∧ lost t ∧ ∀ p ∈ portsOf s h, (getGk t p).link = .hostReset ∧ (getGk t p).lanes = 0 ∧
        (getGk t p).host = none) ∧
    (∀ port : Fin 2, s.mode = .parked → (getIsl s (islOfGk port.val)).power = 0 → ∃ t, exec (.gkWake port) s = .next t ∧
      (getIsl t (islOfGk port.val)).power = 2 ∧ ((getGk s port.val).lanes ≠ 0 → (getGk t port.val).link = .up) ∧ SameExcept [.isl, .host] s t)

/-- Refusals, spilled receipts and flushes (R337, R341-R344): a refused piece ends poisoned, its transfer fails and its invocation will report
SEGMENT_FAULT; a refused receipt goes to the spill area, or is held where there is none, and DRAIN writes what is spilled in order; a flush
read that returns covers what was delivered before it. `GK_SPILL_BASE` takes a base that HBM in service holds while no host is
registered. -/
def Obligations.RefusalsSpillsAndFlushes : Prop :=
  ∀ (s : State),
    (∀ x p v q, sentToHost s x p = some (v, q) → ∃ t w r, exec (.hostAccessRefused (.piece x p)) s = .next t ∧ getPiece t x p = some (w, r) ∧
      r.state = .ended ∧ w.failed = true ∧ t.log ≠ s.log ∧ ∀ y, getInv s v.inv = some y → ∃ z, getInv t v.inv = some z ∧ z.refused = true) ∧
    (∀ (q : Fin 1024) r j, (getQ s q.val).inFlight = some (r, j) →
      (s.host.spillBase = 0 → ∃ t, exec (.hostAccessRefused (.receipt q)) s = .next t ∧ (getQ t q.val).heldBack = some r ∧
        (getQ t q.val).inFlight = none ∧ (getQ t q.val).spillStop = true ∧ OtherQueues q.val s t ∧ SameExcept [.log, .qs] s t) ∧
      (s.host.spillBase ≠ 0 → ∃ t, exec (.hostAccessRefused (.receipt q)) s = .next t ∧ (getQ t q.val).inFlight = none ∧
        (getQ t q.val).spill = (getQ s q.val).spill ++ [receiptRaises r] ∧ (getQ t q.val).spillTotal = (getQ s q.val).spillTotal + 1)) ∧
    (∀ who h (q : Fin 1024), agentHost s who = some h → (getHost s h).cond = .registered → claims s h q.val = true →
      ∃ t, exec (.hostDrain who q none) s = .next t ∧ (getQ t q.val).spill = [] ∧ (getQ t q.val).heldBack = none) ∧
    (∀ (port : Fin 2) n rest, (getGk s port.val).flushes = n :: rest → (getGk s port.val).link = .up → exec (.flushReadReturn port) s =
      .next (setGk s port.val { getGk s port.val with
        flushes := rest, unflushed := (getGk s port.val).unflushed.filter (fun w => decide (n ≤ w.seq)) })) ∧
    (∀ who (v : Dword), reaches s who = true → (∀ h < 2, (getHost s h).cond ≠ .registered) →
      (v.toNat % 2 ^ 48 = 0 → exec (.gkSpillBaseWrite who v) s = .next { s with host := { s.host with spillBase := 0 } }) ∧
      (v.toNat % 4096 = 0 → v.toNat % 2 ^ 48 + 0x800000 ≤ hbmTop → (∀ k < 12, stackOffline s k = false) → s.blend.reserve = none →
        exec (.gkSpillBaseWrite who v) s = .next { s with host := { s.host with spillBase := v.toNat % 2 ^ 48 } }) ∧
      (v.toNat % 4096 ≠ 0 → ∃ t, exec (.gkSpillBaseWrite who v) s = .next t ∧ t.log ≠ s.log ∧ SameExcept [.log] s t)) ∧
    (∀ who (v : Dword), reaches s who = true → (∃ h < 2, (getHost s h).cond = .registered) → ∃ t, exec (.gkSpillBaseWrite who v) s = .next t ∧ t.log ≠ s.log ∧
      SameExcept [.log] s t)

/-- Mailboxes (R346, R347): a ring of one in mode 0 hands its 256 bytes to the Carrier, at once or when it runs again; in mode 1 it is an envelope
for the mailbox's queue; a busy one is only logged. The Carrier's messages and the module's notices take a free mailbox of a host that is there,
raise its vector, and the host releases it. Vectors (R348, R349): a raise of an enabled vector is sent to its owner, unless its mask, its holdoff or
a raise that pends keeps it back, pending; what pends is sent once the holdoff has run out or a write of `IV_CTRL` takes the mask away; a vector
that is not enabled sends nothing. A host writes the vectors that are free or its own. -/
def Obligations.MailboxesAndVectors : Prop :=
  (∀ (who : Agent) (mailbox : Fin 64) (s : State) (h : Nat),
    let k := mailbox.val
    let full := fun (b : List Byte) (t : State) => k ∈ t.host.full ∧ (∀ j < 256, tabGet 0 t.host.m2h (256 * k + j) = b.getD j 0) ∧
      t.host.raised = s.host.raised ++ [((getMbCtrl s k).vector, none)] ∧ SameExcept [.host] s t
    ((∃ p, who = .host p) → agentHost s who = some h → mbOwner s k = h →
      (mbBusy s k = false →
        ((getMbCtrl s k).mode = false → s.pm.carrierRuns = true → ∃ t, exec (.mailboxToCarrier who mailbox) s = .next t ∧
          t.host.toCarrier = s.host.toCarrier ++ [(k, mbBytes s k)] ∧ tabGet 0 t.host.busy k ≤ s.devTime + 1000 ∧ SameExcept [.freeCtr, .host] s t) ∧
        ((getMbCtrl s k).mode = false → s.pm.carrierRuns = false → ∃ t, exec (.mailboxToCarrier who mailbox) s = .next t ∧
          t.host.toCarrier = s.host.toCarrier ∧ tabGet 0 t.host.busy k = busyUntilCarrier ∧ SameExcept [.host] s t) ∧
        (∀ enc refused, (getMbCtrl s k).mode = true → claims s h (getMbCtrl s k).queue = true → ∃ t e,
          exec (.mailboxSubmit who mailbox enc refused) s = .next t ∧ e.mailbox = true ∧ e.sqIndex = fieldAt (mbBytes s k) 0x24 4 ∧
          (getQ t (getMbCtrl s k).queue).mailed = (getQ s (getMbCtrl s k).queue).mailed ++ [e] ∧
          OtherQueues (getMbCtrl s k).queue s t ∧ SameExcept [.freeCtr, .host, .qs] s t)) ∧
      (mbBusy s k = true →
        ((getMbCtrl s k).mode = false → ∃ t, exec (.mailboxToCarrier who mailbox) s = .next t ∧ t.log ≠ s.log ∧ SameExcept [.log] s t) ∧
        (∀ enc refused, (getMbCtrl s k).mode = true → ∃ t, exec (.mailboxSubmit who mailbox enc refused) s = .next t ∧ t.log ≠ s.log ∧
          SameExcept [.log] s t)) ∧
      exec (.mbM2hFullRelease who mailbox) s = .next { s with host := { s.host with full := setDel s.host.full k } }) ∧
    (k ∉ s.host.full → upPorts s (mbOwner s k) ≠ [] → ((getHost s (mbOwner s k)).cond = .linked ∨ (getHost s (mbOwner s k)).cond = .registered) →
      (∀ b, k ≠ noticeMailbox s (mbOwner s k) → s.pm.carrierRuns = true → ∃ t, exec (.m2hMessage mailbox (some b)) s = .next t ∧ full b t) ∧
      (∀ n rest, k = noticeMailbox s (mbOwner s k) → tabGet [] s.host.notices (mbOwner s k) = n :: rest → ∃ t,
        exec (.m2hMessage mailbox none) s = .next t ∧ full (noticeBytes n) t ∧ tabGet [] t.host.notices (mbOwner s k) = rest)) ∧
    (k ∈ s.host.full → ∀ m, exec (.m2hMessage mailbox m) s = .next s)) ∧
  (∀ (vector : Fin 1024) (s : State),
    let v := vector.val
    let x := getVec s v
    let sent := fun (t : State) => (getVec t v).pending = false ∧ (getVec t v).lastSent = some s.devTime ∧
      ∃ p, t.host.sent = s.host.sent ++ [{ vector := v, host := x.owner, port := p, at_ := s.devTime }]
    (∀ p rest, takeRaise v s.host.raised = some (p, rest) →
      (x.enable = false → exec (.vectorRaise vector) s = .next { s with host := { s.host with raised := rest } }) ∧
      (x.enable = true → (x.mask = true ∨ holdoffOver s x = false ∨ x.pending = true) → ∃ t, exec (.vectorRaise vector) s = .next t ∧
        getVec t v = { x with pending := true } ∧ t.host.raised = rest ∧ t.host.sent = s.host.sent ∧ SameExcept [.host] s t) ∧
      (x.enable = true → x.mask = false → holdoffOver s x = true → x.pending = false → (vectorPort s x.owner p).isSome = true → ∃ t,
        exec (.vectorRaise vector) s = .next t ∧ sent t ∧ t.host.raised = rest ∧ SameExcept [.host] s t)) ∧
    (x.enable = true → x.pending = true → x.mask = false → holdoffOver s x = true → (vectorPort s x.owner none).isSome = true → ∃ t,
      exec (.vectorHoldoffEnd vector) s = .next t ∧ sent t ∧ SameExcept [.host] s t) ∧
    (∀ (p : Fin 2) h (w : Word), agentHost s (.host p) = some h →
      (x.enable = true → x.owner ≠ h → exec (.ivCtrlWrite (.host p) vector w) s = .next s) ∧
      (x.enable = false ∨ x.owner = h → ∃ t, exec (.ivCtrlWrite (.host p) vector w) s = .next t ∧ (getVec t v).enable = bitOf w.toNat 31 ∧
        (getVec t v).mask = bitOf w.toNat 30 ∧ (getVec t v).holdoffUs = bitsOf w.toNat 25 16 ∧
        (getVec t v).owner = (if bitOf w.toNat 31 then h else x.owner) ∧ SameExcept [.host] s t)))

/-! ### Queues (R351-R374) -/

/-- The counters and control of a queue (R352, R353, R357, R358): a valid tail rings the doorbell and a valid head frees receipts, an invalid one
sets `ERROR` and is logged, and each doorbell's time is kept for the envelopes that it covers (R375); ENABLE takes effect where R352's conditions
hold and is logged otherwise; a write of 0 stops the queue and drops its staged envelopes. A queue that is ring-fed, or another host's, takes no
write. While a queue may be served and fewer than two envelopes are staged, the next of its ring is fetched, checked and staged; with none left the
front end is idle. -/
def Obligations.QueuesTakeTheirCountersAndEnvelopes : Prop :=
  ∀ (agent : Agent) (queue : Fin 1024) (v : Word) (s : State),
    let q := queue.val
    let x := getQ s q
    let refused := fun (r : Host.Outcome State Fault Refusal) (e : Event) => ∃ t, r = .next t ∧ getQ t q = { x with error := true } ∧
      t.log = (logEvent e (agentIsland agent) (leBytes 2 q ++ leBytes 4 v.toNat) s).log ∧ OtherQueues q s t ∧ SameExcept [.log, .qs] s t
    (mayDrive s agent q = false ∨ x.ringFed = true → exec (.sqTailWrite agent queue v) s = .next s ∧ exec (.rqHeadWrite agent queue v) s = .next s) ∧
    (mayDrive s agent q = true → x.ringFed = false →
      (ahead v.toNat x.sqHead ≤ queueDepth s q → exec (.sqTailWrite agent queue v) s =
        .next (setQ s q { x with sqTail := v.toNat, doorbells := ringBell x v.toNat s.devTime, idle := false })) ∧
      (queueDepth s q < ahead v.toNat x.sqHead → refused (exec (.sqTailWrite agent queue v) s) .sqTailInvalid) ∧
      (ahead v.toNat x.rqHead ≤ ahead x.rqTail x.rqHead → exec (.rqHeadWrite agent queue v) s = .next (setQ s q { x with rqHead := v.toNat })) ∧
      (ahead x.rqTail x.rqHead < ahead v.toNat x.rqHead → refused (exec (.rqHeadWrite agent queue v) s) .rqHeadInvalid)) ∧
    (mayDrive s agent q = true →
      let y := { x with fastMode := bitOf v.toNat 30, hold := bitOf v.toNat 29, vector := v.toNat % 1024 }
      (bitOf v.toNat 31 = true → (x.enable = true ∨ mayEnable s q = true) → ∃ t, exec (.sqEnable agent queue v) s = .next t ∧
        getQ t q = { y with enable := true } ∧ OtherQueues q s t ∧ SameExcept [.qs] s t) ∧
      (bitOf v.toNat 31 = true → x.enable = false → mayEnable s q = false → ∃ t, exec (.sqEnable agent queue v) s = .next t ∧ getQ t q = y ∧
        t.log ≠ s.log ∧ OtherQueues q s t ∧ SameExcept [.log, .qs] s t) ∧
      (bitOf v.toNat 31 = false → ∃ t, exec (.sqDisable agent queue v) s = .next t ∧ getQ t q = { y with enable := false, staged := [] } ∧
        OtherQueues q s t ∧ SameExcept [.qs] s t)) ∧
    (∀ b enc (bad : Bool), mayServe s q = true →
      let left := ahead x.sqTail x.sqHead
      (left ≤ x.staged.length → exec (.envelopeStage queue b enc bad) s = .next (setQ s q { x with idle := true })) ∧
      (x.staged.length < left → x.staged.length < 2 → x.ringFed = false →
        let e := readEnvelope s q (padTo 64 b) enc bad .ring ((x.sqHead + x.staged.length) % 2 ^ 32) (bellTime x x.staged.length s.devTime)
        exec (.envelopeStage queue b enc bad) s = .next (setQ s q { x with staged := x.staged ++ [e], idle := decide (left = x.staged.length + 1) })) ∧
      (∀ e, x.staged.length < left → x.staged.length < 2 → x.ringFed = true → x.fed[x.staged.length]? = some e →
        exec (.envelopeStage queue b enc bad) s = .next (setQ s q { x with staged := x.staged ++ [e], idle := decide (left = x.staged.length + 1) })))

/-- The highest class of a partition at which an envelope is ready dispatches it (R186, R359, R365, R367): it leaves its queue, and becomes an
invocation resident on the cores chosen for it, each of which starts at the program with the registers of its rank's enclosure; a FENCE waits for
the invocations of its queue in progress; an envelope that breaks a rule ends ABORTED. A runnable invocation whose cores are held by a blocked one
has it switched out (R371). The dispatch latency counts from the envelope's doorbell, or from the resume of its partition where that is later
(R375). A runnable invocation whose cores one blocked resident holds has that one switched out, where its pool has a free slot (R371). -/
def Obligations.ReadyEnvelopesAreDispatched : Prop :=
  (∀ (partition : Fin 64) (s : State) (c q : Nat) (cores : List Nat) (b : QueueBind) (p : Partition) (e : Envelope),
    c < 4 → (∀ d < c, resumable s partition.val d = false ∧ ∀ r ∈ queuesOf s partition.val d, envHold s r = .other) →
    resumable s partition.val c = false →
    (queuesOf s partition.val c).findSome? (fun q => match envHold s q with | .ready cores => some (q, cores) | _ => none) = some (q, cores) →
    queueBind s q = some b → getPart s b.partition = some p → nextEnvelope (getQ s q) = some e →
    ∃ t, exec (.invocationDispatch partition) s = .next t ∧ (getQ t q).openCount ≤ (getQ s q).openCount + 1 ∧
      (e.mailbox = true → (getQ t q).mailed = (getQ s q).mailed.drop 1 ∧ (getQ t q).sqHead = (getQ s q).sqHead) ∧
      (e.mailbox = false → (getQ t q).staged = (getQ s q).staged.drop 1 ∧ (getQ t q).sqHead = ((getQ s q).sqHead + 1) % 2 ^ 32) ∧
      (envBad b.partition p e = 0 → e.fence = false → t.qs.nextInv = s.qs.nextInv + 1 ∧ (getQ t q).openCount = (getQ s q).openCount + 1 ∧
        (getQ t q).lat = max (getQ s q).lat (min 0xFFFFFFFF (s.devTime - max e.start (tabGet 0 s.blend.resumedAt b.partition))) ∧
        (∃ v, getInv t s.qs.nextInv = some v ∧ v.queue = q ∧ v.cores = cores ∧ v.cls = b.cls ∧ v.partition = b.partition ∧
          v.context = (getQ s q).context ∧ v.state = .resident ∧ v.program = e.program ∧ v.sqIndex = e.sqIndex ∧ v.notify = e.notify ∧
          v.early = none ∧ v.dispatched = s.devTime) ∧
        (∀ rank l phys, cores[rank]? = some l → physOf s l = some phys →
          (∀ k j, cores[k]? = some j → physOf s j = some phys → k = rank) →
          (getCore t phys).inv = some s.qs.nextInv ∧ (getCore t phys).phase = .running ∧ (getCore t phys).pc = e.program ∧
          (getCore t phys).lcs = [0, 0, 0, 0] ∧ (getCore t phys).window = [] ∧
          (getCore t phys).xs = 0 :: (List.range 7).map (fun k => BitVec.ofNat 64 (fieldAt (e.enclosure.drop (rank * e.rankStride)) (8 * k) 8)))) ∧
      (envBad b.partition p e = 0 → e.fence = true →
        ((∀ v ∈ s.qs.invs, v.2.queue ≠ q) → ∃ r, (getQ t q).due = (getQ s q).due ++ [r] ∧ r.status = .ok ∧ r.sqIndex = e.sqIndex) ∧
        ((∃ v ∈ s.qs.invs, v.2.queue = q) → ∃ f, (getQ t q).fences = (getQ s q).fences ++ [f] ∧
          f.waits = (s.qs.invs.filter (fun v => v.2.queue == q)).map (·.1))) ∧
      (envBad b.partition p e ≠ 0 → (∀ h, queueHost s q = some h → (getHost s h).cond ≠ .lost) → t.log ≠ s.log ∧
        ∃ r more, (getQ t q).due = (getQ s q).due ++ [r] ++ more ∧ r.status = .aborted ∧ r.fault = envBad b.partition p e ∧ r.sqIndex = e.sqIndex)) ∧
  (∀ (i k : Nat) (s : State) (x y : Invocation), getInv s i = some x → runnable s i x = true → residentsUnder s x = [(k, y)] →
    getInv s k = some y → y.blockedSince.isSome = true → y.early = none → y.cls ≠ 0 →
    (∀ n, freeSaveSlot s y.partition = some n → ∃ t z, exec (.invocationRunnable i) s = .next t ∧ getInv t k = some z ∧ z.state = .switching ∧
      z.slot = some n ∧ z.preempted = false ∧ ∀ p ∈ residentOn s k y, (getCore t p).phase = .boundary) ∧
    (freeSaveSlot s y.partition = none → ∃ t, exec (.invocationRunnable i) s = .next t ∧ t.log ≠ s.log ∧ SameExcept [.log] s t))

/-- A queue's receipts reach its host in order (R337-R339, R342, R362): the oldest due one goes out by its port once, in ordered mode, the other
port has flushed what it delivered for the invocation; acknowledged, it stands in the ring in its 32 bytes, `RQ_TAIL` moves on and the
queue's vector is raised where the receipt asks for it. With receipts spilled before it, it is spilled too. -/
def Obligations.ReceiptsReachTheRingInOrder : Prop :=
  ∀ (queue : Fin 1024) (s : State),
    let q := queue.val
    let x := getQ s q
    (∀ r rest p, x.inFlight = none → x.due = r :: rest → x.ringFed = false → x.heldBack = none → x.spill = [] →
      portFor s (receiptPlace s q (nextIndex x)).1 (receiptPlace s q (nextIndex x)).2 = some p →
      ((x.fastMode = true ∨ unflushedPorts s r.invocation p = []) → exec (.receiptWrite queue) s =
        .next (setQ s q { x with due := rest, inFlight := some (r, nextIndex x) })) ∧
      (x.fastMode = false → unflushedPorts s r.invocation p ≠ [] → ∃ t, exec (.receiptWrite queue) s = .next t ∧ getQ t q = x ∧
        (∀ k ∈ unflushedPorts s r.invocation p, ∃ n ∈ (getGk t k).flushes, (getGk s k).seq ≤ n) ∧ SameExcept [.host] s t)) ∧
    (∀ r j p, x.inFlight = some (r, j) → portFor s (receiptPlace s q j).1 (receiptPlace s q j).2 = some p → ∃ t w, exec (.receiptWrite queue) s = .next t ∧
      (getQ t q).inFlight = none ∧ (getQ t q).rqTail = (x.rqTail + 1) % 2 ^ 32 ∧ (getQ t q).openCount = x.openCount - 1 ∧
      t.host.delivered = s.host.delivered ++ [(p, w)] ∧ w.bytes = receiptBytes r j (queueDepth s q) ∧ w.host = (receiptPlace s q j).1 ∧
      w.addr = (receiptPlace s q j).2 ∧
      t.host.raised = s.host.raised ++ (if receiptRaises r then [(x.vector, some p)] else [])) ∧
    (∀ r rest, x.inFlight = none → x.due = r :: rest → x.ringFed = false → x.heldBack = none → x.spill ≠ [] → s.host.spillBase ≠ 0 →
      ∃ t, exec (.receiptWrite queue) s = .next t ∧ (getQ t q).spill = x.spill ++ [receiptRaises r] ∧ (getQ t q).due = rest ∧
        (getQ t q).rqTail = x.rqTail) ∧
    (x.inFlight = none → x.due = [] → exec (.receiptWrite queue) s = .next s)

/-! ### The Courier ring (R378-R409, R453) -/

/-- A Courier port (R386, R400, R401, R407): a replay is counted; a retrain moves the port's traffic away; a quick one that fails is followed by
a full one, a full one that fails takes the link down, which every module of the map is told; a link comes up where its switch has moved in
and at most three places are bypassed, at 8 lanes or, logged, at 4. A switch that has settled trains its two ports, or darkens them (R398). -/
def Obligations.CourierPortsTrainRetrainAndGoDown : Prop :=
  ∀ (port : Fin 6) (pos byp : Fin 64) (half : Bool) (r : RetrainResult) (ns : Half) (k : Fin 3) (s : State),
    let p := port.val
    let x := getCr s p
    (x.link = .up → exec (.courierReplay port) s = .next (setCr s p { x with replays := x.replays + 1 }) ∧
      exec (.timeExchange port ns) s = .next (setCr s p { x with hopDelay := ns.toNat }) ∧
      ∃ t, exec (.courierRetrain port) s = .next t ∧
        getCr t p = { x with link := .retraining, moved := true, full := false, retrains := x.retrains + 1 } ∧
        t.log = (logEvent .courierRetrain (islOfCourier p) (leBytes 1 p) s).log ∧ (∀ q, q ≠ p → getCr t q = getCr s q) ∧ SameExcept [.log, .courier] s t) ∧
    (x.link = .retraining →
      (r ≠ .failed → x.full = false → exec (.courierRetrainDone port r) s = .next (setCr s p { x with link := .up, moved := false })) ∧
      (r = .full8 → x.full = true → exec (.courierRetrainDone port r) s = .next (setCr s p { x with link := .up, lanes := 8, moved := false })) ∧
      (r = .half4 → x.full = true → ∃ t, exec (.courierRetrainDone port r) s = .next t ∧ getCr t p = { x with link := .up, lanes := 4, moved := false } ∧
        t.log = (logEvent .courierLinkDegraded (islOfCourier p) (leBytes 1 p ++ leBytes 1 4) s).log ∧ SameExcept [.log, .courier] s t) ∧
      (r = .failed → x.full = false → ∃ t, exec (.courierRetrainDone port r) s = .next t ∧
        getCr t p = { x with link := .retraining, moved := true, full := true, retrains := x.retrains + 1 } ∧ SameExcept [.log, .courier] s t) ∧
      (r = .failed → x.full = true → ∃ t, exec (.courierRetrainDone port r) s = .next t ∧
        getCr t p = { x with link := .down, lanes := 0, neighbour := none } ∧ t.log ≠ s.log ∧ (∀ q, q ≠ p → getCr t q = getCr s q) ∧
        (∀ l, p < 4 → linkPlace s p = some l → (l, p / 2) ∈ t.courier.down ∧
          t.courier.store.length = s.courier.store.length + s.courier.present.length) ∧ SameExcept [.log, .courier] s t)) ∧
    ((getIsl s (islOfCourier p)).power ≠ 0 → (getSw s (p / 2)).pos = 2 → (x.link = .training ∨ x.link = .down ∨ x.link = .dark) →
      (byp.val ≤ 3 → ∃ t, exec (.courierLinkUp port pos byp half) s = .next t ∧
        getCr t p = { x with link := .up, lanes := if half then 4 else 8, neighbour := some pos.val, bypassed := byp.val, moved := false,
                             express := s.blend.cur.classes.expressRing } ∧
        (∀ q, q ≠ p → getCr t q = getCr s q) ∧ (∀ l, p < 4 → linkPlace s p = some l → (l, p / 2) ∉ t.courier.down) ∧ SameExcept [.log, .courier] s t) ∧
      (3 < byp.val → ∃ t, exec (.courierLinkUp port pos byp half) s = .next t ∧ getCr t p = { x with link := .down } ∧
        SameExcept [.log, .courier] s t)) ∧
    ((getSw s k.val).pos = 1 → ∃ t, exec (.bypassSwitchSettle k) s = .next t ∧ (getSw t k.val).pos = (if (getSw s k.val).hold then 2 else 0) ∧
      (getSw t k.val).hold = (getSw s k.val).hold ∧ (getSw t k.val).moves = min 0xFFFF ((getSw s k.val).moves + 1) ∧
      (∀ q, (q = 2 * k.val ∨ q = 2 * k.val + 1) → ((getCr s q).link = .disabled → getCr t q = getCr s q) ∧
        ((getCr s q).link ≠ .disabled → (getSw s k.val).hold = true → (getCr t q).link = .training) ∧
        ((getCr s q).link ≠ .disabled → (getSw s k.val).hold = false → (getCr t q).link = .dark ∧ (getCr t q).moved = false)) ∧
      SameExcept [.log, .courier] s t)

/-- Messages of a flow are performed in order and once (R387, R390, R391, R393-R395): one that is not the next waits, one that came before is
answered as it was answered first. A remote access is performed where it came over the own ring and one window covers it, grants it and names its
source, once its turn at the stop has come (R34, R288, R290, R294); it is refused and logged elsewhere, or where a stack is out of service; an
atomic's old value is kept with its mark for its duplicates; a group's write lands in its buffer and posts its semaphore. That a refusal is
answered again in the same way is the model's: DESIGN CHOICE, log entry 70. -/
def Obligations.PeerMessagesArePerformedInOrder : Prop :=
  ∀ (h : CrHead) (off : Fin 281474976710656) (n : Fin 4097) (errs : List HbmError) (tags : TagOutcome) (data : List (Byte × Bool)) (op : AtomicOp)
      (wide : Bool) (x cmp : Dword) (q : Fin 1024) (epoch : Word) (env enc : List Byte) (up : Bool) (ring pos : Fin 64)
      (places : Option (List (Option (Fin 64)))) (link : Option (Fin 64 × Fin 2 × Bool)) (r2 : Fin 2) (id : Fin 256) (same : Bool) (s : State),
    let key := inPoint h
    let d := (h.seq.toNat + 2 ^ 32 - tabGet 0 s.courier.inn key) % 2 ^ 32
    let taken (k : Nat) : State := { s with courier := { s.courier with inn := tabSet 0 s.courier.inn k h.seq.toNat } }
    let others : List Instr := [.readData h off data, .write h off data ⟨errs, tags⟩, .step h q epoch x env enc, .routed h up ring pos env,
      .linkNotice h epoch places link, .announce h epoch, .drainRing h epoch r2]
    let read : Instr := .read h off n ⟨errs, tags⟩
    let write : Instr := .write h off data ⟨errs, tags⟩
    let atomic : Instr := .atomic h op ⟨off, errs, tags⟩ wide x cmp
    let bytes : Nat := if wide then 8 else 4
    let turned := (tabGet [] s.courier.turned key).find? (fun e => e.1 == h.seq.toNat)
    let looked (k : Nat) := tagCheck (dieOfStack (stackOf off.val)) tags (hbmTurn h.cls.val off.val k (taken key))
    let refused (c : Instr) (reason : Nat) : Prop := ∃ t, exec c s = .next t ∧
      t.log = (logEvent .peerAccessRefused islRing (leBytes 1 h.src.val ++ leBytes 1 reason ++ leBytes 8 off.val) s).log ∧
      t.courier.store = s.courier.store ∧ tabGet 0 t.courier.inn key = h.seq.toNat ∧
      (tabGet [] t.courier.turned key).getLast? = some (h.seq.toNat, reason) ∧ SameExcept [.log, .courier] s t
    (∀ c ∈ read :: atomic :: others, (arrives s h = false ∨ (1 < d ∧ d < 2 ^ 31)) → exec c s = .next s) ∧
    (arrives s h = true → (d = 0 ∨ 2 ^ 31 ≤ d) →
      (∀ e, turned = some e → ∀ c ∈ read :: atomic :: others, exec c s = .next (nackMsg h e.2 s)) ∧
      (turned = none → exec read s = .next s ∧ (∀ c ∈ others, exec c s = .next (ackMsg h s)) ∧
        ∀ v, oldValue s key h.seq.toNat = some v →
          exec atomic s = .next (answerMsg crAck h h.seq.toNat ((leBytes bytes v.1.toNat).map (fun b => (b, v.2))) s))) ∧
    (arrives s h = true → d = 1 → ∀ c k right, (c, k, right) ∈ [(read, n.val, ExportWin.read), (write, data.length, ExportWin.write),
        (atomic, bytes, ExportWin.atomic)] →
      (peerGranted s h off.val k right = false → refused c 1) ∧
      (peerGranted s h off.val k right = true → rangeOffline s off.val k = true → refused c 5) ∧
      (peerGranted s h off.val k right = true → rangeOffline s off.val k = false → hbmReady s h.cls.val off.val k = false → exec c s = .next s) ∧
      (peerGranted s h off.val k right = true → rangeOffline s off.val k = false → hbmReady s h.cls.val off.val k = true →
        (looked k).2 = true → exec c s = .next (looked k).1)) ∧
    (arrives s h = true → d = 1 →
      (peerGranted s h off.val n.val (·.read) = true → rangeOffline s off.val n.val = false → hbmReady s h.cls.val off.val n.val = true →
        (looked n.val).2 = false →
        let got := hbmRead (looked n.val).1 none off.val n.val errs
        ∃ t e, exec read s = .next t ∧ t.courier.store = got.2.courier.store ++ [e] ∧ e.msg.type = crReadData ∧ e.msg.dst = h.src.val ∧
          e.msg.cls = h.cls.val ∧ e.msg.payload = got.1 ∧ e.waits = [h.src.val] ∧
          e.msg.seq = (tabGet 0 s.courier.out e.flow + 1) % 2 ^ 32 ∧ t.mem = got.2.mem ∧ t.poison = got.2.poison) ∧
      (peerGranted s h off.val data.length (·.write) = true → rangeOffline s off.val data.length = false →
        hbmReady s h.cls.val off.val data.length = true → (looked data.length).2 = false →
        let w := hbmWrite (looked data.length).1 none off.val data errs
        ∃ t, exec write s = .next t ∧ t.mem = w.mem ∧ t.poison = w.poison ∧ tabGet 0 t.courier.inn key = h.seq.toNat) ∧
      (peerGranted s h off.val bytes (·.atomic) = true → rangeOffline s off.val bytes = false → hbmReady s h.cls.val off.val bytes = true →
        (looked bytes).2 = false → oldValue s key h.seq.toNat = none →
        let done := hbmAtomic (looked bytes).1 op off.val bytes x.toNat cmp.toNat errs
        ∃ t, exec atomic s = .next t ∧ t.mem = done.2.mem ∧ tabGet 0 t.courier.inn key = h.seq.toNat ∧
          (tabGet [] t.courier.olds key).getLast? = some (h.seq.toNat, (BitVec.ofNat 64 done.1.1, done.1.2))) ∧
      (∀ e v p, (ackMsg h (taken key)).courier.store.find? (fun e => e.msg.type == crRead && e.msg.dst == h.src.val && e.msg.cls == h.cls.val &&
          e.msg.tag == off.val + data.length * 2 ^ 48) = some e → ∀ i j, e.piece = some (i, j) → getPiece s i j = some (v, p) → pieceOver p = false →
        ∃ t w p', exec (.readData h off data) s = .next t ∧ getPiece t i j = some (w, p') ∧ p'.state = .landed ∧
          ∀ f ∈ t.courier.store, f.flow = e.flow → f.msg.seq ≠ e.msg.seq)) ∧
    (∀ g, tabFind s.courier.groups id.val = some g →
      let gk := inGroup h id.val (travelDir g h)
      let gd := (h.seq.toNat + 2 ^ 32 - tabGet 0 s.courier.inn gk) % 2 ^ 32
      let cmd : Instr := .gather h id off data same
      arrives s h = true →
      (gd = 1 → groupBad s (some g) h off.val data.length same = true → exec cmd s = .next (turnAway gk h 4 (taken gk))) ∧
      (gd = 1 → groupBad s (some g) h off.val data.length same = false → hbmReady s h.cls.val (g.base + off.val) data.length = false →
        exec cmd s = .next s) ∧
      (gd = 1 → groupBad s (some g) h off.val data.length same = false → hbmReady s h.cls.val (g.base + off.val) data.length = true →
        let w := hbmWrite (hbmTurn h.cls.val (g.base + off.val) data.length (taken gk)) none (g.base + off.val) data []
        ∃ t, exec cmd s = .next t ∧ t.mem = w.mem ∧ t.poison = w.poison ∧ tabGet 0 t.courier.inn gk = h.seq.toNat ∧
          t.sems = (semPost (65536 + g.sem) (granulesOf (g.base + off.val) data.length).length w).sems) ∧
      ((gd = 0 ∨ 2 ^ 31 ≤ gd) → ∃ t, exec cmd s = .next t ∧ SameExcept [.courier] s t))

/-- An answer ends what waits for it (R387, R389, R391, R395, R405): an ACK of the last position that a message waits for frees its entry and
lands its piece, and that of a step's receipt advances `RQ_HEAD`; a NACK ends the access it refuses and marks its invocation, keeps a full
queue's step for a later try, and logs a refused group message. An answer to the last table write lets the steps go that waited for it (R406).
An entry unanswered for 20 µs is sent again; a position that has not answered
within the limit of `CR_RETRY` is absent, and nothing of this module's ring waits for it any more, but for receipts that wait for a new manager (R409). -/
def Obligations.AnswersEndWhatWaitsForThem : Prop :=
  ∀ (h : CrHead) (flow : CrFlow) (seq : Word) (old : Dword) (reason : Fin 256) (i : Fin 4096) (pos : Fin 64) (s : State) (e : CrStored),
    let stepsGo (t : State) : Prop :=
      (mirrored t = true → t.courier.heldSteps = [] ∧ ∀ x ∈ s.courier.heldSteps, ∃ f ∈ t.courier.store, f.msg.type = crStep ∧ f.msg.dst = x.1 ∧
        f.msg.cls = x.2.1 ∧ f.msg.payload = x.2.2.2 ∧ f.waits = [x.1]) ∧
      (mirrored t = false → t.courier.heldSteps = s.courier.heldSteps)
    let noHeld := s.courier.heldSteps = []
    (arrives s h = true → findStored s h flow seq.toNat = some e →
      (e.msg.type ≠ crRead → ∃ t, exec (.ack h flow seq old) s = .next t ∧ stepsGo t ∧
        (noHeld → (∀ w ∈ e.waits, w = h.src.val) → ∀ f ∈ t.courier.store, f.flow = e.flow → f.msg.seq ≠ e.msg.seq) ∧
        ((∃ w ∈ e.waits, w ≠ h.src.val) → { e with waits := e.waits.filter (· != h.src.val) } ∈ t.courier.store) ∧
        (∀ j k v p, e.piece = some (j, k) → getPiece s j k = some (v, p) → pieceOver p = false → ∃ w p', getPiece t j k = some (w, p') ∧
          p'.state = .landed) ∧
        (e.msg.type = crStepReceipt → (getQ t (e.msg.tag % 1024)).rqHead = ((getQ s (e.msg.tag % 1024)).rqHead + 1) % 2 ^ 32)) ∧
      (reason.val = 2 → ∃ t, exec (.nack h flow seq reason) s = .next t ∧
        tabGet 0 t.courier.out e.flow = (tabGet 0 s.courier.out e.flow + 1) % 2 ^ 32 ∧
        { e with msg := { e.msg with seq := tabGet 0 t.courier.out e.flow }, last := s.devTime } ∈ t.courier.store ∧ SameExcept [.courier] s t) ∧
      (reason.val = 4 → ∃ t, exec (.nack h flow seq reason) s = .next t ∧ stepsGo t ∧ (noHeld → ∀ f ∈ t.courier.store, f.flow = e.flow → f.msg.seq ≠ e.msg.seq) ∧
        t.log = (logEvent .courierGroupRefused islRing (leBytes 2 (e.msg.tag % 256) ++ leBytes 1 h.src.val) s).log ∧ SameExcept [.log, .courier] s t) ∧
      (reason.val ≠ 2 → reason.val ≠ 4 → ∀ j k v p, e.piece = some (j, k) → getPiece s j k = some (v, p) → ∃ t w p',
        exec (.nack h flow seq reason) s = .next t ∧ getPiece t j k = some (w, p') ∧ pieceOver p' = true ∧ w.failed = true ∧
        (∀ f ∈ t.courier.store, f.flow = e.flow → f.msg.seq ≠ e.msg.seq) ∧ t.log ≠ s.log ∧
        ∀ u, getInv s v.inv = some u → getInv t v.inv = some { u with refused := true })) ∧
    (s.courier.store[i.val]? = some e → s.devTime < e.last + 20000 → exec (.courierResend i) s = .next s) ∧
    (s.courier.store[i.val]? = some e → e.last + 20000 ≤ s.devTime → ∃ t, exec (.courierResend i) s = .next t ∧
      { e with last := s.devTime } ∈ t.courier.store ∧ SameExcept [.courier] s t ∧
      (∀ p, e.msg.up = false → s.courier.managerLost = false → portTo s e.msg.dst e.dir = some p → t.courier.sent = s.courier.sent ++ [(p, e.msg)])) ∧
    (s.courier.limitMs ≠ 0 → e ∈ s.courier.store → e.msg.up = false → pos.val ∈ e.waits → receiptHeld s e = false → e.first + s.courier.limitMs * 1000000 ≤ s.devTime → ∃ t,
      exec (.courierPeerLost pos) s = .next t ∧ pos.val ∉ t.courier.present ∧ stepsGo t ∧
      (noHeld → ∀ f ∈ t.courier.store, f.msg.up = false → receiptHeld s f = false → pos.val ∉ f.waits) ∧
      t.log = (logEvent .courierPeerLost islRing (leBytes 1 pos.val) s).log)

/-- Ring control (R382, R383, R399, R402, R403, R405, R407, R409): a manager that serves gives a joining worker its position, the old one or the
lowest free, and records it in the header page of its tables, if it has any (DESIGN CHOICE, log entry 71); ASSIGN writes `MOD_POSITION`; a heartbeat restarts the loss timer and goes on round its ring; a manager whose Carrier runs sends one
a 100 µs, and its time with it, over its uplink too (DESIGN CHOICE, log entry 74); TIME slews `DEV_TIME`, or steps it forward once at the join, a manager's from a lower
ring over its uplink (DEDUCED, log entry 74); a change of the map or a link takes its place in the map; ANNOUNCE makes its
sender the manager, to which JOIN and every held receipt go; a lower epoch than the highest accepted is refused. -/
def Obligations.RingControlKeepsTheRing : Prop :=
  ∀ (h : CrHead) (epoch : Word) (ring pos : Fin 64) (time : Dword) (j : JoinInfo) (places : Option (List (Option (Fin 64))))
      (link : Option (Fin 64 × Fin 2 × Bool)) (r2 : Fin 2) (s : State),
    let c := s.courier
    let mgr := s.blend.cur.role.manager
    let given := ((c.serials.find? (fun e => e.1 == j.serial)).map (·.2)).or (freePosition c)
    let next := arrives s h = true ∧ (h.seq.toNat + 2 ^ 32 - tabGet 0 c.inn (inPoint h)) % 2 ^ 32 = 1
    let taken : State := { s with courier := { c with inn := tabSet 0 c.inn (inPoint h) h.seq.toNat } }
    (∀ p, mgr = true → s.pm.carrierRuns = true → s.mode = .serving → given = some p → ∃ t r, exec (.join h epoch j) s = .next t ∧
      tabFind t.courier.joins p = some r ∧ r.serial = j.serial ∧ r.standby = j.standby ∧ r.share = j.share ∧ p ∈ t.courier.present ∧
      t.courier.places[j.place.val]? = some (some p) ∧ (t.courier.serials.find? (fun e => e.1 == j.serial)).map (·.2) = some p ∧
      SameExcept [.log, .plan, .pm, .mem, .poison, .cache, .mc, .courier] s t ∧ (s.blend.cur.role.tableSize = 0 → SameExcept [.courier] s t) ∧
      (s.blend.cur.role.tableSize ≠ 0 → InDram s (headerEntry s p) 16 → memBytes t (headerEntry s p) 9 = leBytes 8 j.serial.toNat ++ [1])) ∧
    (mgr = false → s.mode = .serving → epoch.toNat < c.epoch → exec (.assign h epoch ring pos) s = .next (nackMsg h 3 s)) ∧
    (mgr = false → s.mode = .serving → c.epoch ≤ epoch.toNat → ∃ t, exec (.assign h epoch ring pos) s = .next t ∧ t.courier.position = some pos.val ∧
      t.courier.ringNo = ring.val ∧ t.courier.managerPos = h.src.val ∧ t.courier.epoch = epoch.toNat ∧ t.courier.lastBeat = s.devTime ∧
      t.courier.managerLost = false ∧ tabGet 0 t.courier.inn (inPoint h) = h.seq.toNat ∧ (getSw t 0).hold = true ∧ SameExcept [.courier] s t) ∧
    (arrives s h = true → c.epoch ≤ epoch.toNat → ∃ t, exec (.heartbeat h epoch) s = .next t ∧ t.courier.epoch = epoch.toNat ∧
      t.courier.lastBeat = s.devTime ∧ t.courier.managerLost = false ∧ SameExcept [.courier] s t ∧
      (mgr = true → t.courier.sent = c.sent) ∧
      (∀ i o, (i, o) ∈ [(1, 0), (2, 3)] → mgr = false → h.port.val = i → portCarries s o = true → ∃ m, t.courier.sent = c.sent ++ [(o, m)] ∧
        m.type = crControl ∧ m.tag % 256 = 3)) ∧
    (s.pm.carrierRuns = false → exec .heartbeatSend s = .next s) ∧
    (mgr = true → s.pm.carrierRuns = true → s.mode = .serving → c.beatSent + 100000 ≤ s.devTime → ∃ t, exec .heartbeatSend s = .next t ∧ t.courier.beatSent = s.devTime ∧
      t.courier.sent.length = c.sent.length + 2 * b2n (portCarries s 0) + 2 * b2n (portCarries s 3) + b2n (portCarries s 4) ∧ SameExcept [.courier] s t) ∧
    (mgr = true → (h.port.val < 4 ∨ c.ringNo ≤ h.src.val) → exec (.time h epoch time) s = .next s) ∧
    (((mgr = false ∧ c.epoch ≤ epoch.toNat) ∨ (mgr = true ∧ 4 ≤ h.port.val ∧ h.src.val < c.ringNo)) → s.mode ≠ .off →
      let late : Int := ((time.toNat + (getCr s h.port.val).hopDelay : Nat) : Int) - (s.devTime : Int)
      ((c.position = none ∧ 1000 < late) → ∃ t, exec (.time h epoch time) s = .next t ∧
        t.devTime = time.toNat + (getCr s h.port.val).hopDelay ∧ t.courier.slew = 0 ∧ t.log ≠ s.log ∧ SameExcept [.devTime, .log, .courier] s t) ∧
      ((c.position ≠ none ∨ late ≤ 1000) → ∃ t, exec (.time h epoch time) s = .next t ∧ t.courier.slew = late ∧ t.courier.timeOffset = -late ∧
        SameExcept [.courier] s t)) ∧
    (next → epoch.toNat < c.epoch → ∀ m ∈ [Instr.linkNotice h epoch places link, .announce h epoch, .drainRing h epoch r2],
      exec m s = .next (turnAway (inPoint h) h 3 taken)) ∧
    (next → c.epoch ≤ epoch.toNat →
      (∃ t, exec (.linkNotice h epoch places link) s = .next t ∧ t.courier.epoch = epoch.toNat ∧
        (∀ l, places = some l → t.courier.places = l.map (fun p => p.map (·.val))) ∧
        (∀ l r up, link = some (l, r, up) → ((l.val, r.val) ∈ t.courier.down ↔ up = false)) ∧ SameExcept [.log, .courier] s t) ∧
      (∃ t, exec (.announce h epoch) s = .next t ∧ t.courier.managerPos = h.src.val ∧ t.courier.managerLost = false ∧ t.courier.epoch = epoch.toNat ∧
        t.courier.lastBeat = s.devTime ∧ t.freeCtr = s.freeCtr + 1 ∧ t.courier.store.length = c.store.length + 1 ∧
        (∀ e ∈ t.courier.store, e.msg.type = crStepReceipt → e.msg.dst = c.managerPos → h.src.val = c.managerPos) ∧ SameExcept [.freeCtr, .courier] s t) ∧
      ∃ t, exec (.drainRing h epoch r2) s = .next t ∧ (getCr t (2 * r2.val + h.port.val % 2)).moved = true ∧ t.courier.epoch = epoch.toNat ∧
        (∀ q, q ≠ 2 * r2.val + h.port.val % 2 → getCr t q = getCr s q) ∧ SameExcept [.courier] s t) ∧
    (mgr = false → c.position ≠ none → c.managerLost = false → c.lastBeat + 1000000 ≤ s.devTime → ∃ t, exec .managerLost s = .next t ∧
      t.courier = { c with managerLost := true } ∧ t.log = (logEvent .managerLost islRing (leBytes 1 c.managerPos ++ leBytes 4 c.epoch) s).log ∧
      SameExcept [.log, .courier] s t)

/-- A step is accepted once into its ring-fed queue, and its receipt sent again if it has one already; one for a queue that is not ring-fed or
not enabled, or that is full, is turned away (R405); a ROUTED message reaches the Carrier of
its module, or goes on to its position, its manager or up to its ring (R408). The log's next entry due is sent to the module that mirrors it,
and entries lost before that are counted (R453). -/
def Obligations.StepsAndCarrierDataAreRouted : Prop :=
  ∀ (h : CrHead) (q : Fin 1024) (epoch : Word) (id : Dword) (env enc : List Byte) (up : Bool) (ring pos : Fin 64) (data : List Byte) (s : State),
    let c := s.courier
    let x := getQ s q.val
    let mgr := s.blend.cur.role.manager
    let next := arrives s h = true ∧ (h.seq.toNat + 2 ^ 32 - tabGet 0 c.inn (inPoint h)) % 2 ^ 32 = 1
    let taken : State := { s with courier := { c with inn := tabSet 0 c.inn (inPoint h) h.seq.toNat } }
    let cmd : Instr := .step h q epoch id env enc
    let seen := c.steps.find? (fun e => e.id == id)
    let full := queueDepth s q.val ≤ ahead x.sqTail x.sqHead ∨ receiptRoom s q.val = false
    let sends (t : State) (dst type : Nat) (payload : PData) : Prop := ∃ e, t.courier.store = c.store ++ [e] ∧ e.msg.dst = dst ∧ e.msg.type = type ∧
      e.msg.payload = payload
    (next → epoch.toNat < c.epoch → exec cmd s = .next (turnAway (inPoint h) h 3 taken)) ∧
    (next → c.epoch ≤ epoch.toNat →
      (∀ e b, seen = some e → e.receipt = some b → ∃ t, exec cmd s = .next t ∧ sends t c.managerPos crStepReceipt (clean (leBytes 8 id.toNat ++ b)) ∧
        t.qs = s.qs) ∧
      (∀ e, seen = some e → e.receipt = none → ∃ t, exec cmd s = .next t ∧ t.qs = s.qs ∧ t.courier.steps = c.steps ∧ t.courier.store = c.store) ∧
      (seen = none → (x.ringFed = false ∨ x.enable = false) → ∃ t, exec cmd s = .next t ∧ t.qs = s.qs ∧ t.courier.steps = c.steps ∧
        (tabGet [] t.courier.turned (inPoint h)).getLast? = some (h.seq.toNat, 1)) ∧
      (seen = none → x.ringFed = true → x.enable = true → full → ∃ t, exec cmd s = .next t ∧ t.qs = s.qs ∧ t.courier.steps = c.steps ∧
        (tabGet [] t.courier.turned (inPoint h)).getLast? = some (h.seq.toNat, 2)) ∧
      (seen = none → x.ringFed = true → x.enable = true → ¬full → ∃ t, exec cmd s = .next t ∧
        getQ t q.val = { x with sqTail := (x.sqTail + 1) % 2 ^ 32, fed := x.fed ++ [readEnvelope s q.val (padTo 64 env) enc false .step x.sqTail s.devTime],
                                idle := false } ∧
        t.courier.steps.getLast? = some { id := id, queue := q.val, index := x.sqTail, receipt := none } ∧ t.courier.epoch = epoch.toNat ∧
        OtherQueues q.val s t ∧ SameExcept [.qs, .courier] s t)) ∧
    (next → let here := ring.val = c.ringNo ∧ some pos.val = c.position
      (here → ∃ t, exec (.routed h up ring pos data) s = .next t ∧ t.courier.inbox = c.inbox ++ [(h.src.val, data)] ∧ t.courier.store = c.store ∧
        SameExcept [.courier] s t) ∧
      (¬here → mgr = true → ring.val = c.ringNo → ∃ t, exec (.routed h up ring pos data) s = .next t ∧ sends t pos.val crRouted (clean data)) ∧
      (¬here → mgr = true → ring.val ≠ c.ringNo → ∃ t, exec (.routed h up ring pos data) s = .next t ∧ sends t ring.val crRouted (clean data)) ∧
      (mgr = false → ring.val ≠ c.ringNo → ∃ t, exec (.routed h up ring pos data) s = .next t ∧ sends t c.managerPos crRouted (clean data))) ∧
    (∀ k e, c.position ≠ none → mgr = false → c.managerLost = false → storeRoom s = true → s.mode ≠ .off → s.log.next ≤ s.log.mirrorSeq + 16384 →
      nextMirror s.log s.log.mirrorSeq = some (k, e) → ∃ t, exec .logMirrorSend s = .next t ∧ t.log = { s.log with mirrorSeq := e.seq + 1 } ∧
        sends t c.managerPos crRouted (clean (leBytes 8 s.pm.serial.toNat ++ logBytes e)) ∧ SameExcept [.log, .courier] s t)

/-! ### The manager's tables (R248, R252-R259, R267, R268, R404) -/

/-- The manager's sessions and nodes (R255-R257, R259, R267): an admitted prompt has its record, with the region of free virtual addresses that its
positions past the chain need (R248) and its window start (R261), ready for its first step at the worker named for it, and with no free region
nothing is admitted; a built step goes to its worker once the standby has acknowledged what records it (R406), with its table and chain list kept for it (DESIGN CHOICE,
log entry 59), and its sessions are in the step; a receipt of a completed step returns each session with its token, or ends it; a node reported bad is BAD. The records stand in the
tables in HBM. -/
def Obligations.SessionsFollowTheirSteps : Prop :=
  ∀ (a : Admission) (w : Fin 64) (q : Fin 1024) (id : Dword) (is : List (Fin 65536)) (env enc : List Byte) (slot : Dword) (h : CrHead) (epoch : Word)
      (receipt : List Byte) (rs : List StepResult) (s : State),
    let c := s.courier
    let own (i : Nat) (x : Session) (t : State) : Prop := memBytes t (sessionAddr s i) (sessionBytes i x).length = sessionBytes i x
    let free (i : Nat) : Prop := InDram s (sessionAddr s i) 128
    (let i := a.session.val
     managing s = true → i < s.blend.cur.role.sessionLimit → (getSession s i).state = 0 → a.prompt ≠ [] → a.prompt.length ≤ a.nMax.val →
      (∀ k ≤ regionTiles a.nMax.val 0, regionFree s a.worker.val a.context.val a.region.toNat k = true) → mirrored s = true → free i →
      let hs := if a.nspace = 0 then [] else chainHashes ((a.prompt.length - 1) / 64) (t128 (prefixLabel ++ leBytes 8 a.nspace.toNat)) a.prompt
      ∃ t x, exec (.sessionAdmit a) s = .next t ∧ own i x t ∧ x.state = 1 ∧ x.worker = a.worker.val ∧ x.cls = a.cls.val ∧ x.nspace = a.nspace.toNat ∧
        x.nMax = a.nMax.val ∧ x.length = 0 ∧ x.region = a.region.toNat ∧ x.context = a.context.val ∧ x.lastStep = 0 ∧ x.admitted = s.devTime ∧
        x.matched = (matchChain s hs).length ∧ x.matched ≤ x.chainLen ∧ x.chainLen ≤ hs.length ∧ x.tiles = regionTiles a.nMax.val x.chainLen ∧
        x.windowLo = a.windowLo.toNat ∧ (a.nspace = 0 → x.chainLen = 0 ∧ ∀ b, (b < sessionAddr s i ∨ sessionAddr s i + 128 ≤ b) →
          memByte t b = memByte s b)) ∧
    (a.nspace = 0 → regionFree s a.worker.val a.context.val a.region.toNat (regionTiles a.nMax.val 0) = false → exec (.sessionAdmit a) s = .next s) ∧
    (let l := is.map (·.val)
     ∀ j, tabFind c.joins w.val = some j → managing s = true → mirrored s = true → storeRoom s = true → w.val ∈ c.present → l.length ≤ j.capacity →
      l ≠ [] → id ≠ 0 → tabFind c.tables id.toNat = none → (∀ i ∈ l, i < s.blend.cur.role.sessionLimit ∧ stepReady s w.val i = true ∧ free i) →
      l.eraseDups.length = l.length → j.firstQueue ≤ q.val → q.val < j.firstQueue + j.queueCount →
      let payload := clean (leBytes 8 id.toNat ++ padTo 64 env ++ enc)
      let cls := (l.head?.map (fun i => (getSession s i).cls)).getD 1
      ∃ t,
        exec (.stepBatchBuild w q id is env enc) s = .next t ∧ tabFind t.courier.tables id.toNat = some (w.val, stepTable s l l 0, chainList s j w.val l) ∧
        (mirrored t = true → t.courier.heldSteps = [] ∧ ∃ e, t.courier.store.getLast? = some e ∧ e.msg.type = crStep ∧ e.msg.dst = w.val ∧
          e.msg.cls = cls ∧ e.msg.payload = payload) ∧
        (mirrored t = false → t.courier.heldSteps = c.heldSteps ++ [(w.val, cls, q.val, payload)]) ∧
        ∀ i ∈ l, own i { getSession s i with state := if (getSession s i).state = 1 then 1 else 3, lastStep := id.toNat } t) ∧
    (managing s = true → (∀ i ∈ sessionIxs s, (getSession s i).state ≠ 1) →
      (∀ k ∈ nodeIxs s, InDram s (nodeAddr s k) 64) → ∃ t, exec (.prefixNodeBadReport w slot) s = .next t ∧
        ∀ k ∈ nodeIxs s, (getNode s k).state ≠ 0 → (getNode s k).home = w.val → (getNode s k).slot = slot.toNat →
          memBytes t (nodeAddr s k) 64 = nodeBytes { getNode s k with state := 3 }) ∧
    (arrives s h = true → (h.seq.toNat + 2 ^ 32 - tabGet 0 c.inn (inPoint h)) % 2 ^ 32 = 1 → managing s = true → c.epoch ≤ epoch.toNat →
      (tabFind c.tables id.toNat).isSome = true → ∃ t, exec (.stepReceipt h q epoch id receipt rs) s = .next t ∧
        tabFind t.courier.tables id.toNat = none ∧
        ∀ i r, i ∈ sessionIxs s → free i → (getSession s i).lastStep = id.toNat → (getSession s i).state = 3 → earlyEnd receipt = none →
          rs.find? (fun r => r.session.val == i) = some r →
          let x := getSession s i
          let why := if r.ended.val ≠ 0 then r.ended.val else if x.nMax ≤ x.length + 1 then 1 else 0
          own i { x with state := if why = 0 then 2 else 0, length := x.length + 1, token := r.token.toNat, ended := why,
                         windowLo := (r.windowLo.map (·.toNat)).getD x.windowLo } t)

/-! ### Islands, margins and the log (R17, R438-R453, R459, R486) -/

/-- An island's clock follows its target a code at a time, and counts its cycles at each, and under heat or short of power it goes down (R17, R459).
A slack alarm lowers the target, else raises the voltage, and the third within a day at the end of both retires the island (R439, R443). A check
that passes moves the island to its point, and one that fails at the end retires it; one that fails elsewhere leaves a verified island where it is,
and has a newly linked one checked at its next point (R445, R71). The planner's runs (R444-R446, R448, R449): a daily run starts a day after the
last, a requested one an hour after; each reads the islands, and moves one to a point of more slack where its slack is short; a run that is done is
recorded in its entry of the module record and logged. A power-on hour is counted in the header of the record. -/
def Obligations.IslandsAndThePlannerKeepTheirMargins : Prop :=
  (∀ (n : Fin 512) (pass : Bool) (r : IslandReading) (s : State),
    let i := getIsl s n.val
    let only (c : Instr) (x : Island) : Prop := ∃ t, exec c s = .next t ∧ getIsl t n.val = x ∧ OtherIslands n.val s t
    let alarm : Instr := .slackAlarm n
    let check : Instr := .slackCheckDone n pass r
    let hot := decide (100 ≤ i.tempC) || (s.power.powerLimit && i.floor == 0)
    (isMovable n.val = true → i.power ≠ 0 → s.power.supplyReset = false →
      let at_ := fun (code : Nat) (throttled : Bool) => { i with
        current := code, lastStep := s.devTime, throttled := throttled, ticks := islTicks s n.val, ticksAt := runTime s }
      (hot = true → 10000 ≤ s.devTime - i.lastStep → (if 105 ≤ i.tempC then 0x18 else bottomCode i) < i.current →
        only (.islClockStep n) (at_ (i.current - 1) true)) ∧
      (hot = false → i.target < i.current → 100 ≤ s.devTime - i.lastStep → exec (.islClockStep n) s =
        .next (setIsl s n.val (at_ (i.current - 1) i.throttled))) ∧
      (hot = false → i.current < i.target → i.throttled = false → 100 ≤ s.devTime - i.lastStep → exec (.islClockStep n) s =
        .next (setIsl s n.val (at_ (i.current + 1) false))) ∧
      (hot = false → i.current < i.target → i.throttled = true → i.tempC < 97 → 1000000 ≤ s.devTime - i.lastStep → exec (.islClockStep n) s =
        .next (setIsl s n.val (at_ (i.current + 1) (decide (i.current + 1 ≠ i.target)))))) ∧
    (isMovable n.val = true → i.power ≠ 0 → i.faulty = false →
      (bottomCode i < i.target → only alarm { i with target := i.target - 1, alarms := satAdd 0xFF i.alarms 1 }) ∧
      (i.target ≤ bottomCode i → i.vCode < 0x46 → only alarm { i with vCode := i.vCode + 1, alarms := satAdd 0xFF i.alarms 1 }) ∧
      (i.target ≤ bottomCode i → 0x46 ≤ i.vCode → (lastDay s i.alarmTimes).length < 2 →
        only alarm { i with alarms := satAdd 0xFF i.alarms 1, alarmTimes := lastDay s i.alarmTimes ++ [s.devTime] }) ∧
      (i.target ≤ bottomCode i → 0x46 ≤ i.vCode → 2 ≤ (lastDay s i.alarmTimes).length → ∃ t, exec alarm s = .next t ∧
        (getIsl t n.val).faulty = true ∧ t.plan.retired = s.plan.retired + 1 ∧ t.log ≠ s.log)) ∧
    (∀ v f, i.check = some (v, f) →
      (i.checkVoid = true → only check { i with checkVoid := s.power.stretch.isSome }) ∧
      (i.checkVoid = false → pass = true → ∃ t, exec check s = .next t ∧ (getIsl t n.val).vCode = v ∧ (getIsl t n.val).target = f ∧
        (getIsl t n.val).check = none ∧ (getIsl t n.val).headroom = (if r.belowGoal then 0 else r.headroom.val) ∧ (getIsl t n.val).slack = r.slack.val ∧
        OtherIslands n.val s t) ∧
      (i.checkVoid = false → pass = false → v = 0x46 → f ≤ bottomCode i → ∃ t, exec check s = .next t ∧ (getIsl t n.val).faulty = true) ∧
      (i.checkVoid = false → pass = false → (v ≠ 0x46 ∨ bottomCode i < f) →
        (unverified s n.val = false → only check { i with check := none }) ∧
        (unverified s n.val = true → only check { i with check := some (readPoint s { r with island := n }) })))) ∧
  (∀ (who : Agent) (goal : Fin 256) (r : IslandReading) (rs : List IslandReading) (s : State),
    let p := s.plan
    let ready := p.running = false ∧ p.bootDone = true ∧ s.mode = .serving
    let begun (t : State) (kind g : Nat) : Prop := t.plan.running = true ∧ t.plan.runKind = kind ∧ t.plan.runNo = p.runNo + 1 ∧ t.plan.goal = g ∧
      t.plan.goalNow = g
    let n := r.island.val
    let point := readPoint (beginRun 1 s) r
    (∀ last, p.lastRun = some last → ready →
      (last + 86400000000000 ≤ s.devTime → (∃ t, exec (.plannerDailyRun rs) s = .next t ∧ begun t 1 p.goal) ∧
        ((liveIsls s).contains n = true → moreSlack (getIsl s n) point.1 point.2 = true → slackOk r = false → ∃ t, exec (.plannerDailyRun [r]) s = .next t ∧
          (getIsl t n).vCode = point.1 ∧ (getIsl t n).target = point.2 ∧ (getIsl t n).alarms = 0 ∧ OtherIslands n s t)) ∧
      (s.devTime < last + 86400000000000 → exec (.plannerDailyRun rs) s = .next s) ∧
      (reaches s who = true → last + 3600000000000 ≤ s.devTime → ∃ t, exec (.planCtrlRun who goal rs) s = .next t ∧
        begun t 2 (if 0x48 ≤ goal.val ∧ goal.val ≤ 0x68 then goal.val else p.goal)) ∧
      (reaches s who = false → exec (.planCtrlRun who goal rs) s = .next s) ∧
      (reaches s who = true → s.devTime < last + 3600000000000 → exec (.planCtrlRun who goal rs) s =
        .next { s with plan := { p with goal := if 0x48 ≤ goal.val ∧ goal.val ≤ 0x68 then goal.val else p.goal } })) ∧
    (p.running = true → p.runKind ≠ 0 → (∀ m ∈ movableIsls, (getIsl s m).check = none) → ∃ t e, exec .plannerRunDone s = .next t ∧
      t.plan.running = false ∧ t.plan.lastRun = some s.devTime ∧ tabFind t.pm.record.runs (p.runNo % 2928) = some e ∧ e.run = p.runNo ∧
      e.kind = p.runKind ∧ e.changed = p.changed ∧ e.retired = p.retiredThisRun ∧ e.minHeadroom = t.plan.minHeadroom ∧ t.log ≠ s.log) ∧
    (p.lastHour + 3600000000000 ≤ s.devTime → s.mode ≠ .off → ∃ t x, exec .powerOnHour s = .next t ∧
      t.plan = { p with hours := p.hours + 1, lastHour := p.lastHour + 3600000000000 } ∧
      (t.pm.record.headerA = some x ∨ t.pm.record.headerB = some x) ∧ x.hours = p.hours + 1 ∧ x.runs = p.runNo ∧ SameExcept [.plan, .pm] s t) ∧
    (s.devTime < p.lastHour + 3600000000000 → exec .powerOnHour s = .next s))

/-- The scrub reads a scratchpad word by word (R438): a word that cannot be corrected is poisoned and logged, and a second one at another address
within a day takes the island out of service (R439). Another read may meet such an error too (DESIGN CHOICE, log entry 88): a semaphore's reads 0 and
its takes go on waiting, lost control state makes the module FAULTED, and a buffer's poisons the granule of a packet. An island's oldest waiting entry takes the next place of the log (R450, R451): one of
severity 4 raises the alert, and one that the threshold takes raises the vector. An ended interval leaves one entry with its count (R486). -/
def Obligations.ScrubAndLogGoOn : Prop :=
  ∀ (core : Fin 168) (ecc : EccOutcome) (word : Fin 524288) (sem : Fin 131072) (part : Byte) (off : Word) (k g : Nat) (n : Fin 512) (code : Half)
      (s : State),
    let isl := islOfCore core.val
    let i := getIsl s isl
    let scrub : Instr := .scratchpadScrub core (.scrub ecc)
    let moved : Island := { i with scrubWord := (i.scrubWord + 1) % 524288 }
    let errs := i.eccErrors.filter (fun e => decide (s.devTime < e.1 + 86400000000000))
    let l := s.log
    (i.power ≠ 0 →
      (ecc = .clean → exec scrub s = .next (setIsl s isl moved)) ∧
      (ecc = .corrected → ∃ t, exec scrub s = .next t ∧ getIsl t isl = { moved with eccCorrected := i.eccCorrected + 1 } ∧ OtherIslands isl s t ∧
        SameExcept [.isl] s t) ∧
      (ecc = .uncorrectable → ∃ t, exec scrub s = .next t ∧ memPoison t (scratchKey core.val (8 * i.scrubWord)) = true ∧ t.log ≠ s.log ∧
        (∀ a, memByte t a = memByte s a) ∧ (getIsl t isl).scrubWord = moved.scrubWord ∧ (getIsl t isl).eccUncorrected = i.eccUncorrected + 1 ∧
        ((∃ e ∈ errs, e.2 ≠ 8 * i.scrubWord) → (getIsl t isl).faulty = true) ∧
        ((∀ e ∈ errs, e.2 = 8 * i.scrubWord) → (getIsl t isl).faulty = i.faulty))) ∧
    (i.power = 0 → exec scrub s = .next s) ∧
    (i.power ≠ 0 → ∃ t, exec (.scratchpadScrub core (.word word .uncorrectable)) s = .next t ∧ memPoison t (scratchKey core.val (8 * word.val)) = true ∧
      t.log ≠ s.log ∧ (∀ a, memByte t a = memByte s a) ∧ (getIsl t isl).scrubWord = i.scrubWord ∧
      (getIsl t isl).eccUncorrected = i.eccUncorrected + 1) ∧
    ((getIsl s (semIsland sem.val)).power ≠ 0 → exec (.scratchpadScrub core (.semaphore sem .uncorrectable)) s =
      .next (logEvent .semUncorrectable (semIsland sem.val) (leBytes 4 sem.val) (setSem s sem.val { getSem s sem.val with value := 0 }))) ∧
    exec (.scratchpadScrub core (.control part false)) s = .next s ∧
    (s.mode ≠ .off → s.mode ≠ .faulted → ∃ t, exec (.scratchpadScrub core (.control part true)) s = .next t ∧ t.mode = .faulted ∧ t.pm.fault = 4 ∧
      t.power.alertFaulted = true) ∧
    (∀ p, s.net[k]? = some p → 64 * g < p.data.length → (getIsl s n.val).power ≠ 0 → ∃ t q,
      exec (.scratchpadScrub core (.buffer n off k g .uncorrectable)) s = .next t ∧ t.net[k]? = some q ∧ q = { p with data := q.data } ∧
      q.data.map (·.1) = p.data.map (·.1) ∧
      (∀ m b, q.data[m]? = some b → b.2 = if 64 * g ≤ m ∧ m < 64 * g + 64 then true else (p.data.getD m (0, false)).2) ∧
      (∀ m, m ≠ k → t.net[m]? = s.net[m]?) ∧ SameExcept [.log, .net] s t) ∧
    (∀ e rest, tabGet [] l.queues n.val = e :: rest → s.mode ≠ .off → e.event ≠ .logDropped → ∃ t, exec (.logEntryWrite n) s = .next t ∧
      tabFind t.log.slots (l.next % 16384) = some { seq := l.next, entry := e } ∧ t.log.next = l.next + 1 ∧ tabGet [] t.log.queues n.val = rest ∧
      t.power.alertCritical = (s.power.alertCritical || decide (eventSeverity e.event = 4)) ∧
      t.host.raised = s.host.raised ++ (if l.irqSev ≤ eventSeverity e.event then [(l.vector, none)] else []) ∧ SameExcept [.log, .power, .host] s t) ∧
    (∀ v, l.intervals.find? (fun v => v.source == n.val && eventCode v.event == code.toNat) = some v →
      (s.devTime < v.endsAt → exec (.logIntervalEnd n code) s = .next s) ∧
      (v.endsAt ≤ s.devTime → ∃ t, exec (.logIntervalEnd n code) s = .next t ∧ SameExcept [.log] s t ∧
        (v.count = 0 → t.log.queues = l.queues ∧ findInterval t.log.intervals v.event v.source = none) ∧
        (v.count ≠ 0 → (tabGet [] l.queues v.last.source).length < 16 →
          tabGet [] t.log.queues v.last.source = tabGet [] l.queues v.last.source ++ [{ v.last with count := v.count }] ∧
          findInterval t.log.intervals v.event v.source = none))) ∧
    (∀ (e : Event) (source : Nat) (data : List Byte),
      (findInterval l.intervals e source = none → (logLimited e source data s).log.intervals.filter (fun v => v.event == e && v.source == source) =
          [{ event := e, source := source, endsAt := s.devTime + 1000000, count := 0, last := mkEntry s e source data }] ∨
          16 ≤ (tabGet [] l.queues source).length) ∧
      (findInterval l.intervals e source = none → (tabGet [] l.queues source).length < 16 →
        tabGet [] (logLimited e source data s).log.queues source = tabGet [] l.queues source ++ [mkEntry s e source data]) ∧
      (∀ v, findInterval l.intervals e source = some v → (logLimited e source data s).log.queues = l.queues ∧
        findInterval (logLimited e source data s).log.intervals e source =
          some { v with count := satAdd 0xFFFF v.count 1, last := mkEntry s e source data }))

/-! ### Blend loads and re-blends (R37-R76, R488) -/

/-- A blend call that its slot and its caller admit begins a load (R66, R68, R415, R416): BLEND_LOAD and BLEND_STAGE copy an image of the caller's
half of the aperture, REBLEND one of its own or the staged one; an address, a length or a mode that may not be is answered at once, and so is
any while another load runs (R419, R488). The copied image is checked, measured and its signature verified (R43, R44, R63); an image that fails
is rejected with its code, and nothing else of the structure changes. -/
def Obligations.LoadsCheckTheirImage : Prop :=
  ∀ (who : Agent) (slot : Fin 12) (notify : Bool) (vector : Fin 1024) (b : List Byte) (s : State),
    let k := slot.val
    let x := getSlot s k
    let half := (agentHost s who).getD 0
    let begun (c : Instr) (l : BlendLoad) : Prop := ∃ t, exec c s = .next t ∧ t.blend = { s.blend with load := some l } ∧ (getSlot t k).state = 1 ∧
      SameExcept [.pm, .blend] s t
    let answered (c : Instr) (code : Nat) : Prop := ∃ t, exec c s = .next t ∧ CallEnded t k (loadCode code 0) [] ∧ t.blend = s.blend
    let sized (a n limit : Nat) : Prop := imageAddrOk half a n = true ∧ n ≤ limit ∧ 0x100 + sigBlockLen ≤ n
    (∀ (load : Instr) (kind : LoadKind) (rule : CallRule) (limit : Nat),
      (load = .blendLoad who slot notify vector ∧ kind = .full ∧ rule = loadRule 6 .awaitBlend ∧ limit = 0x1000000) ∨
        (load = .blendStage who slot notify vector ∧ kind = .stage ∧ rule = loadRule 7 .serving ∧ limit = 0x800000) → CallAdmitted s who k rule →
      (sized (argAt x 0 8) (argAt x 8 4) limit → loadRuns s = false → (kind = .full ∨ reserveLost s = false) →
        begun load (newLoad kind k (argAt x 8 4) .copying [] 0 x)) ∧
      (sized (argAt x 0 8) (argAt x 8 4) limit → loadRuns s = true → answered load 0x24) ∧
      (imageAddrOk half (argAt x 0 8) (argAt x 8 4) = false → answered load pmBadArg) ∧
      (imageAddrOk half (argAt x 0 8) (argAt x 8 4) = true → limit < argAt x 8 4 → answered load 0x03)) ∧
    (CallAdmitted s who k reblendRule → argAt x 0 1 ≤ 1 → argAt x 1 1 ≤ 1 →
      let load : Instr := .reblend who slot notify vector
      ((argAt x 1 1 = 0 ↔ argAt x 4 4 = 0) → answered load pmBadArg) ∧
      (¬(argAt x 1 1 = 0 ↔ argAt x 4 4 = 0) →
        (argAt x 0 1 = 0 → sized (argAt x 8 8) (argAt x 0x10 4) 0x1000000 → loadRuns s = false → reserveLost s = false →
          begun load (newLoad .reblend k (argAt x 0x10 4) .copying [] 0 x)) ∧
        (∀ img m, argAt x 0 1 = 1 → argAt x 8 8 = 0 → argAt x 0x10 4 = 0 → loadRuns s = false → reserveLost s = false → s.blend.staged = some (img, m) →
          begun load (newLoad .reblend k img.length .validating img m x)) ∧
        (argAt x 0 1 = 1 → argAt x 8 8 = 0 → argAt x 0x10 4 = 0 → loadRuns s = false → s.blend.staged = none → answered load 0x21))) ∧
    (∀ l, s.blend.load = some l → s.mode = (if l.kind = .full then .awaitBlend else .serving) → (getSlot s l.slot).state = 1 →
      (getSlot s l.slot).discard = false →
      let rejected (c : Instr) (f : BlendFail) (phase : Nat) : Prop := ∃ t, exec c s = .next t ∧ t.blend.load = none ∧ t.blend.cur = s.blend.cur ∧
        CallEnded t l.slot (loadResult f phase).toNat [] ∧ t.log ≠ s.log
      let code := checkSignature s blendContext l.image
      (l.phase = .copying →
        (rejected (.blendCopyDone none) (failPlain pmHostFetch) 0) ∧
        (∀ f, checkHeader (padTo l.len b) l.len (decide (l.kind ≠ .full)) = some f → rejected (.blendCopyDone (some b)) f 0) ∧
        (checkHeader (padTo l.len b) l.len (decide (l.kind ≠ .full)) = none → ∃ t, exec (.blendCopyDone (some b)) s = .next t ∧
          t.blend.load = some { l with image := padTo l.len b, phase := .measuring } ∧
          t.mem = (hbmWrite s none (stagingBase s l.kind) (clean (padTo l.len b)) []).mem)) ∧
      (l.phase = .measuring → exec .blendMeasureDone s =
        .next { s with blend := { s.blend with load := some { l with meas := shake256 (signedMessage l.image), phase := .verifying } } }) ∧
      (l.phase = .verifying →
        (code ≠ 0 → rejected .blendSignatureDone (failPlain code) 2) ∧
        (code = 0 → l.kind = .stage → ∃ t, exec .blendSignatureDone s = .next t ∧ t.blend = { s.blend with load := none, staged := some (l.image, l.meas) } ∧
          CallEnded t l.slot (loadResult (failPlain 0) 6).toNat []) ∧
        (code = 0 → l.kind ≠ .stage → exec .blendSignatureDone s =
          .next { s with blend := { s.blend with load := some { l with phase := .validating } } })) ∧
      (l.phase = .validating →
        (∀ f st, validateImage s l.image = (some f, st) → rejected .blendValidateDone f 3) ∧
        (∀ next, validateImage s l.image = (none, next) →
          let v := { l with next := next, target := hdrTarget l.image, roleChange := hdrRoleChange l.image, started := s.devTime }
          (l.kind = .full → exec .blendValidateDone s = .next { s with blend := { s.blend with load := some { v with phase := .applying } } }) ∧
          (l.kind ≠ .full → ∃ t, exec .blendValidateDone s = .next t ∧ t.blend.load = some { v with phase := .stopping } ∧
            v.target ∈ t.blend.quiesced ∧ (∀ q ∈ queuesFor s v.target, (getQ t q).staged = []) ∧
            (l.abortMode = true → ∀ i y, getInv t i = some y → y.partition = v.target → y.early.isSome = true)))))

/-- A full image in force (R30, R46, R66, R435, R446): its structure is applied, its cores and grinders power up at 1.2 GHz over scratchpads of
zeros, a linked core in no partition stays clock-gated, every other movable island is gated, and once the boot run has set the points and every
island runs at its own the module serves. A re-blend (R70-R76) stops its target and waits for its work to end or its limit to pass, drains its links
and caches, puts the new structure in force, and lets the target serve again when its newly linked cores have been reset and its islands are checked
and at their floor (that order: log entry 78); its measurement joins the module's. -/
def Obligations.BlendsTakeEffect : Prop :=
  ∀ (rs : List IslandReading) (s : State) (l : BlendLoad), s.blend.load = some l → s.mode = (if l.kind = .full then .awaitBlend else .serving) →
    let ends (c : Instr) (code phase : Nat) : Prop := ∃ t, exec c s = .next t ∧ t.blend.load = none ∧ t.blend.cur = s.blend.cur ∧
      CallEnded t l.slot (loadResult (failPlain code) phase).toNat [] ∧ l.target ∉ t.blend.quiesced ∧ tabGet 0 t.blend.resumedAt l.target = s.devTime
    let serves (c : Instr) : Prop := ∃ t, exec c s = .next t ∧ t.mode = .serving ∧ t.plan.bootDone = true ∧ t.blend.load = none ∧
      CallEnded t l.slot (loadResult (failPlain 0) 6).toNat []
    let waiting := (getSlot s l.slot).state = 1 ∧ (getSlot s l.slot).discard = false
    let cores := match tabFind l.next.parts l.target with | some p => partPhys l.next l.target p | none => []
    let fresh := newCores s.blend.cur l.next l.target
    let unset (c : Nat) : Prop := unverified s (islOfCore c) = true ∧ checkPoint s rs (islOfCore c) = none
    let held (c : Nat) : Prop := (getIsl s (islOfCore c)).faulty = false ∧
      ((getIsl s (islOfCore c)).check.isSome = true ∨ (getIsl s (islOfCore c)).current < (getIsl s (islOfCore c)).floor)
    let used := (l.next.parts.map (fun e => partPhys l.next e.1 e.2)).flatten
    let boot : Instr := .plannerBootRunDone rs
    let running := match tabFind s.blend.cur.parts l.target with | some p => partPhys s.blend.cur l.target p | none => []
    (l.phase = .applying → ∃ t, exec .blendApplyDone s = .next t ∧ t.blend.applied = true ∧ t.blend.cur = l.next ∧ t.blend.meas = l.meas ∧
      t.blend.blendId = BitVec.ofNat 64 (hdrBlendId l.image) ∧ t.blend.reblends = 0 ∧ t.blend.load = some { l with phase := .bootRun } ∧
      (∀ e ∈ l.next.spare, (getIsl s (islOfCore e.2)).power = 0 → (getIsl s (islOfCore e.2)).faulty = false →
        (getIsl t (islOfCore e.2)).power = (if e.2 ∈ used then 2 else 1) ∧ (getIsl t (islOfCore e.2)).target = 0x30 ∧ (getIsl t (islOfCore e.2)).current = 0x30) ∧
      (∀ e ∈ l.next.spare, e.2 ∉ s.blend.zeroed → ∀ off < scratchSize, memByte t (scratchKey e.2 off) = 0) ∧
      (∀ n ∈ movableIsls, n ∉ l.next.spare.map (fun e => islOfCore e.2) → n ∉ ((l.next.parts.map (fun e => partGrinders e.1 e.2)).flatten.map islOfGrinder) →
        (getIsl t n).power = 0) ∧
      (∀ p < 4, (getCr t p).link ≠ .disabled ∧ (getIsl t (islOfCourier p)).power = 2)) ∧
    (l.phase = .bootRun → (readsAll rs s = false → exec boot s = .next s) ∧
      (readsAll rs s = true →
        let b := bootRun rs s
        (∀ r ∈ rs, (∀ r' ∈ rs, r'.island = r.island → r' = r) → r.island.val ∈ liveIsls s → slackOk r = true →
          (getIsl b r.island.val).vCode = (readPoint s r).1 ∧ (getIsl b r.island.val).target = (readPoint s r).2 ∧
          (getIsl b r.island.val).current = (getIsl s r.island.val).current) ∧
        (ramped b = false → exec boot s = .next (setLoad b (some { l with phase := .ramping }))) ∧ (ramped b = true → waiting → serves boot))) ∧
    (l.phase = .ramping → (ramped s = false → exec boot s = .next s) ∧ (ramped s = true → waiting → serves boot)) ∧
    (l.phase = .stopping →
      (invsOf s l.target ≠ [] ∨ grindersIdle s l.target = false → exec .reblendStopDone s = .next s) ∧
      (invsOf s l.target = [] → grindersIdle s l.target = true → linksFor s.blend.cur l.target = [] → ∃ t, exec .reblendStopDone s = .next t ∧
        t.blend.load = some { l with phase := .cleaning } ∧ (∀ c ∈ running, (getCore t c).tiles = []) ∧ (∀ e ∈ enginesOf s l.target, tabFind t.seg.caches e = none) ∧
        ∀ w ∈ (waysToClean s.blend.cur l.next (l.target / 32)).1, w ∈ (getCache t (l.target / 32)).cleaning) ∧
      (l.abortMode = false → invsOf s l.target ≠ [] → l.started + l.drainLimitUs * 1000 ≤ s.devTime → waiting → ends .drainTimeout 0x23 4) ∧
      (s.devTime < l.started + l.drainLimitUs * 1000 → exec .drainTimeout s = .next s)) ∧
    (l.phase = .cleaning →
      ((getCache s (l.target / 32)).cleaning ≠ [] → exec (.reblendCleanDone rs) s = .next s) ∧
      ((getCache s (l.target / 32)).cleaning = [] →
        ((∃ c ∈ cores, (getIsl s (islOfCore c)).faulty = true) → waiting → ends (.reblendCleanDone rs) 0x11 5) ∧
        ((∀ c ∈ cores, (getIsl s (islOfCore c)).faulty = false) → (∃ c ∈ fresh, unset c) → exec (.reblendCleanDone rs) s = .next s) ∧
        ((∀ c ∈ cores, (getIsl s (islOfCore c)).faulty = false) → (∀ c ∈ fresh, ¬unset c) → ∃ t, exec (.reblendCleanDone rs) s = .next t ∧
          t.blend.cur = l.next ∧ t.blend.load = some { l with phase := .resuming, joining := fresh } ∧ (∀ e ∈ linksFor l.next l.target, getLink t e.1 = linkRunReset)))) ∧
    (l.phase = .resuming →
      ((l.joining ≠ [] ∨ ∃ c ∈ running, held c) → exec .reblendResume s = .next s) ∧
      (l.joining = [] → (∀ c ∈ running, ¬held c) → waiting → ∃ t, exec .reblendResume s = .next t ∧
        t.blend = { s.blend with meas := shake256 (leBytes 32 s.blend.meas.toNat ++ leBytes 32 l.meas.toNat), reblends := s.blend.reblends + 1,
                                 staged := none, load := none, quiesced := setDel s.blend.quiesced l.target,
                                 resumedAt := tabSet 0 s.blend.resumedAt l.target s.devTime } ∧
        CallEnded t l.slot (loadResult (failPlain 0) 6).toNat [] ∧ t.log ≠ s.log))

/-! ### The Postmaster: boot, identity and calls (R30, R38, R300, R369, R370, R373, R390, R392, R405, R410-R434, R439-R441) -/

/-- Boot and identity (R38, R417, R423-R431): the boot powers its islands, reads the record and trains HBM, and a bad record or PUF ends it in
FAULTED 1 or 2; CAPS answers the capability block, QUOTE writes its statement to the caller's memory, an owner is registered once and handed on with
both signatures; a Carrier whose header and signature hold starts, and the module awaits its blend. -/
def Obligations.BootAndIdentityHold : Prop :=
  ∀ (who : Agent) (slot : Fin 12) (notify : Bool) (vector : Fin 1024) (b : List Byte) (bad : Option Word) (puf : Bool) (training : List StackTraining)
      (s : State),
    let k := slot.val
    let x := getSlot s k
    let half := (agentHost s who).getD 0
    let due (c : Instr) (code : Nat) (reply : List Byte) (P : State → Prop) : Prop := ∃ t, exec c s = .next t ∧ (getSlot t k).state = 1 ∧
      (getSlot t k).due = some (BitVec.ofNat 64 code, reply) ∧ P t
    let answered (c : Instr) (code : Nat) (reply : List Byte) : Prop := ∃ t, exec c s = .next t ∧ CallEnded t k code reply ∧ SameExcept [.pm, .host] s t
    let key := argBytes x 0 64
    let newKey := argBytes x 0x40 64
    let m := transferStatement s newKey
    (CallAdmitted s who k (plainRule 1 true true [.awaitCarrier, .awaitBlend, .serving] []) → answered (.caps who slot notify vector) 0 (capsBlock s)) ∧
    (CallAdmitted s who k (plainRule 2 true false [.awaitCarrier, .awaitBlend, .serving] [(0, 40)]) →
      let a := argAt x 0x20 8
      (imageAddrOk half a quoteSize = false → answered (.quote who slot notify vector) pmBadArg []) ∧
      (imageAddrOk half a quoteSize = true → trustBusy s k = true → answered (.quote who slot notify vector) pmBusy []) ∧
      (imageAddrOk half a quoteSize = true → trustBusy s k = false → due (.quote who slot notify vector) 0 (leBytes 4 quoteSize) (fun t =>
        t.host = (writeHost half (.quote k) a (quoteBytes s (argBytes x 0 32)) s).host))) ∧
    (CallAdmitted s who k (plainRule 3 true false [.awaitCarrier] [(0, 72)]) → inOwnHalf half (argAt x 0x40 8) 29792 = true → trustBusy s k = false →
      let call (v : Option (List Byte)) : Instr := .ownerRegister who slot notify vector v
      (ownerHash s ≠ 0 → answered (call (some b)) pmOwner []) ∧
      (ownerHash s = 0 → due (call none) pmHostFetch [] (fun t => t.pm.record = s.pm.record) ∧
        (ownerSigned key (registerStatement s) (padTo 29792 b) = false → due (call (some b)) pmSignature [] (fun t => t.pm.record = s.pm.record)) ∧
        (ownerSigned key (registerStatement s) (padTo 29792 b) = true → due (call (some b)) 0 [] (fun t =>
          t.pm.record = putOwner (shake256 key) 0 s.pm.record ∧ t.log ≠ s.log)))) ∧
    (CallAdmitted s who k (plainRule 4 true false [.awaitCarrier] [(0, 136)]) → inOwnHalf half (argAt x 0x80 8) 59584 = true → trustBusy s k = false →
      let call (v : Option (List Byte)) : Instr := .ownerTransfer who slot notify vector v
      let both := ownerSigned key m ((padTo 59584 b).take 29792) && ownerSigned newKey m ((padTo 59584 b).drop 29792)
      (ownerMatches s key = false → answered (call (some b)) pmOwner []) ∧
      (ownerMatches s key = true → (both = false → due (call (some b)) pmSignature [] (fun t => t.pm.record = s.pm.record)) ∧
        (both = true → due (call (some b)) 0 [] (fun t =>
          t.pm.record = putOwner (shake256 newKey) (ownerCounter s + 1) s.pm.record ∧ t.log ≠ s.log)))) ∧
    (CallAdmitted s who k { plainRule 5 true false [.awaitCarrier] [(0, 12), (0x10, 16)] with load := true } →
      imageAddrOk half (argAt x 0 8) (argAt x 8 4) = true → argAt x 8 4 ≤ carrierLimit → 0x100 + sigBlockLen ≤ argAt x 8 4 →
      regionOk s (argAt x 0x10 8) (argAt x 0x18 8) (argAt x 8 4) = true →
      (loadRuns s = true → answered (.carrierLoad who slot notify vector) (loadCode 0x24 0) []) ∧
      (loadRuns s = false → ∃ t l, exec (.carrierLoad who slot notify vector) s = .next t ∧ (getSlot t k).state = 1 ∧ t.pm.carrierLoading = some l ∧ l.slot = k ∧
        l.base = argAt x 0x10 8 ∧ l.size = argAt x 0x18 8 ∧ l.imageLen = argAt x 8 4)) ∧
    (∀ l, s.pm.carrierLoading = some l → s.mode = .awaitCarrier → (getSlot s l.slot).state = 1 → (getSlot s l.slot).discard = false →
      let img := padTo l.imageLen b
      let code := checkSignature s carrierContext img
      let failed (v : Option (List Byte)) (c phase : Nat) : Prop := ∃ t, exec (.carrierLoadDone v) s = .next t ∧ t.mode = .awaitCarrier ∧
        t.pm.carrierLoading = none ∧ t.pm.carrierRuns = s.pm.carrierRuns ∧ CallEnded t l.slot (loadCode c phase) []
      failed none pmHostFetch 0 ∧ (carrierHeader img l.imageLen ≠ 0 → failed (some b) (carrierHeader img l.imageLen) 0) ∧
      (carrierHeader img l.imageLen = 0 → code ≠ 0 → failed (some b) code 2) ∧
      (carrierHeader img l.imageLen = 0 → code = 0 → ∃ t, exec (.carrierLoadDone (some b)) s = .next t ∧ t.mode = .awaitBlend ∧ t.pm.carrierRuns = true ∧
        t.pm.carrierBase = l.base ∧ t.pm.carrierSize = l.size ∧ t.pm.carrierMeas = shake256 (signedMessage img) ∧
        t.power.wdogKick = s.devTime ∧ CallEnded t l.slot (loadCode 0 6) [])) ∧
    (x.state = 1 → x.discard = false → (∀ r reply, x.due = some (r, reply) → (quoteGone s k = false → exec (.pmCallDone slot) s = .next s) ∧
        (quoteGone s k = true → answered (.pmCallDone slot) r.toNat reply)) ∧
      (x.due = none → x.waits ≠ [] → segCallOn s x.waits = false → x.waits.all (ownsContext s (x.caller.getD 0)) = true →
        x.waits.all (contextFree s) = true → ∃ t, exec (.pmCallDone slot) s = .next t ∧ CallEnded t k 0 [] ∧
          ∀ c ∈ x.waits, tabFind t.pm.contexts c = none)) ∧
    (∀ at_, s.mode = .rom → s.pm.booting = false → s.power.mrstHeld = false → s.power.bootDue = some at_ → at_ ≤ s.devTime → ∃ t,
      exec (.bootStart bad) s = .next t ∧ t.pm.booting = true ∧ t.power.bootDue = none ∧ t.pm.serial = (if bad = none then Config.serial else 0) ∧
      t.pm.copy = (if bad = none then some s.pm.record else none) ∧ (∀ n ∈ bootIsls, (getIsl t n).power = 2) ∧ t.log ≠ s.log ∧ t.mode = .rom) ∧
    (s.mode = .rom → s.pm.booting = true →
      let done : Instr := .bootDone puf training
      (s.pm.recordBad ≠ none → ∃ t, exec done s = .next t ∧ t.mode = .faulted ∧ t.pm.fault = 1) ∧
      (s.pm.recordBad = none → ownerNow s.pm.record ≠ none → puf = false → ∃ t, exec done s = .next t ∧ t.mode = .faulted ∧ t.pm.fault = 2) ∧
      (s.pm.recordBad = none → ownerNow s.pm.record ≠ none → puf = true → ∃ t, exec done s = .next t ∧ t.mode = .awaitCarrier ∧
        t.pm.seed = some Config.pufSeed ∧ t.blend.reserve = pickReserve t ∧ ∀ j < 12, (getMc t j).patrolNext = 0 ∧
          (training.find? (fun v => v.stack.val == j) = none → (getMc t j).train = 1 ∨ (getMc t j).train = 2)))

/-- The other calls of R415, each of a caller that may make it (R300, R369, R370, R373, R390, R392, R405, R420, R432-R434, R439): contexts are
claimed and released, queues bound and fed by the ring, save pools, keys, export windows and groups written and removed, invocations aborted, and
HBM repaired and islands retired. A call that names what is not its caller's, or is in use, changes nothing. -/
def Obligations.CallsChangeWhatTheyName : Prop :=
  ∀ (who : Agent) (slot : Fin 12) (notify : Bool) (vector : Fin 1024) (s : State),
    let k := slot.val
    let x := getSlot s k
    let h := (agentHost s who).getD 0
    let a0 := argAt x 0 2
    let a2 := argAt x 2 2
    let ended (c : Instr) (code : Nat) (P : State → Prop) : Prop := ∃ t, exec c s = .next t ∧ CallEnded t k code [] ∧ P t
    let call (mk : Agent → Fin 12 → Bool → Fin 1024 → Instr) : Instr := mk who slot notify vector
    let refuses (c : Instr) (code : Nat) : Prop := ended c code (fun t => SameExcept [.pm, .host] s t ∧ t.pm.contexts = s.pm.contexts ∧ t.pm.keys = s.pm.keys)
    let adm (func : Nat) (hosts carrier : Bool) (states : List ModState) (named : List (Nat × Nat)) : Prop :=
      CallAdmitted s who k (plainRule func hosts carrier states named)
    (adm 0x10 true false [.awaitBlend, .serving] [(0, 5)] → ctxArgsOk x = true →
      (argAt x 4 1 = 0 → (∀ c ∈ ctxRange x, tabFind s.pm.contexts c = none ∨ tabFind s.pm.contexts c = some h) → ended (call .contextClaim) 0 (fun t =>
        (∀ c ∈ ctxRange x, tabFind t.pm.contexts c = some h) ∧ ∀ c, c ∉ ctxRange x → tabFind t.pm.contexts c = tabFind s.pm.contexts c)) ∧
      (argAt x 4 1 = 0 → (∃ c ∈ ctxRange x, ∃ g, g ≠ h ∧ tabFind s.pm.contexts c = some g) → refuses (call .contextClaim) pmNotPermitted) ∧
      (argAt x 4 1 = 1 → segCallOn s (ctxRange x) = true → ∃ t, exec (call .contextRelease) s = .next t ∧ (getSlot t k).state = 1 ∧
        (getSlot t k).waits = ctxRange x ∧ t.pm.contexts = s.pm.contexts) ∧
      (argAt x 4 1 = 1 → segCallOn s (ctxRange x) = false → (ctxRange x).all (ownsContext s h) = true →
        ((ctxRange x).all (contextFree s) = true → ended (call .contextRelease) 0 (fun t => ∀ c ∈ ctxRange x, tabFind t.pm.contexts c = none)) ∧
        ((ctxRange x).all (contextFree s) = false → refuses (call .contextRelease) pmWrongState))) ∧
    (adm 0x11 true false [.serving] [(0, 5)] → argAt x 4 1 ≤ 1 → a0 < 1024 → a2 < 4096 → claims s h a0 = true → ownsContext s h a2 = true →
      ((getQ s a0).enable = true → refuses (call .queueContext) pmWrongState) ∧
      ((getQ s a0).enable = false → ended (call .queueContext) 0 (fun t => OtherQueues a0 s t ∧
        getQ t a0 = { getQ s a0 with context := a2, bound := true, ringFeedOk := argAt x 4 1 == 1 }))) ∧
    (adm 0x12 false true [.serving] [(0, 5)] → ringArgsOk x = true →
      (argAt x 4 1 = 1 → (∀ q ∈ ctxRange x, (getQ s q).ringFeedOk = true ∧ (queueBind s q).isSome = true) → ended (call .ringQueuesSet) 0 (fun t =>
        ∀ q ∈ ctxRange x, getQ t q = { getQ s q with ringFed := true })) ∧
      (argAt x 4 1 = 1 → (∃ q ∈ ctxRange x, (getQ s q).ringFeedOk = false) → refuses (call .ringQueuesSet) pmNotPermitted) ∧
      (argAt x 4 1 = 0 → (∀ q ∈ ctxRange x, (getQ s q).enable = false) → ended (call .ringQueuesClear) 0 (fun t =>
        ∀ q ∈ ctxRange x, getQ t q = { getQ s q with ringFed := false, fed := [] }))) ∧
    (adm 0x13 false true [.serving] [(0, 1), (8, 12)] → (getPart s (argAt x 0 1)).isSome = true → argAt x 8 8 % 4096 = 0 → argAt x 0x10 4 ≤ 65535 →
      (∀ p, tabFind s.qs.pools (argAt x 0 1) = some p → p.used = []) →
      let bytes := argAt x 0x10 4 * slotBytes s (argAt x 0 1)
      (argAt x 0x10 4 = 0 → ended (call .savePool) 0 (fun t => tabFind t.qs.pools (argAt x 0 1) = none)) ∧
      (tabFind s.qs.pools (argAt x 0 1) = none → argAt x 0x10 4 ≠ 0 → inService s (argAt x 8 8) bytes = true → segmentOver s (argAt x 8 8) bytes = false →
        meetsAny (argAt x 8 8) bytes (protectedRanges s) = false → ended (call .savePool) 0 (fun t =>
          tabFind t.qs.pools (argAt x 0 1) = some { base := argAt x 8 8, slots := argAt x 0x10 4, used := [] })) ∧
      (argAt x 0x10 4 ≠ 0 → inService s (argAt x 8 8) bytes = true → segmentOver s (argAt x 8 8) bytes = true → refuses (call .savePool) pmProtected)) ∧
    (adm 0x14 true true [.serving] [(0, 8)] →
      (getInv s (argAt x 0 8) = none → refuses (call .abort) pmBadArg) ∧
      ∀ v, getInv s (argAt x 0 8) = some v → v.early = none →
        (∀ g, agentHost s who = some g → claims s g v.queue = false → refuses (call .abort) pmNotPermitted) ∧
        ((∀ g, agentHost s who = some g → claims s g v.queue = true) → v.refused = false → ended (call .abort) 0 (fun t =>
          ∃ w, getInv t (argAt x 0 8) = some w ∧ w.early = some (.aborted, 0x32)))) ∧
    (adm 0x30 true false [.awaitBlend, .serving] [(0, 4), (0x10, 1580), (0x640, 48)] → a0 < 4096 → a2 < 4096 → ownsContext s h a2 = true →
      ((tabFind s.pm.keys a0).isSome = true → refuses (call .keyInstall) pmFull) ∧
      (tabFind s.pm.keys a0 = none → ∃ t, exec (call .keyInstall) s = .next t ∧ (getSlot t k).state = 1 ∧
        (unwrapKey s x = none → (getSlot t k).due = some (BitVec.ofNat 64 pmUnwrap, []) ∧ t.pm.keys = s.pm.keys) ∧
        (∀ key, unwrapKey s x = some key → (getSlot t k).due = some (0, []) ∧ tabFind t.pm.keys a0 = some { key := key, context := a2 }))) ∧
    (adm 0x31 true false [.awaitBlend, .serving] [(0, 4)] → a0 < 4096 → a2 < 4096 →
      (ownKey s h a0 = none → refuses (call .keyBind) pmNotPermitted) ∧
      (∀ v, ownKey s h a0 = some v → ownsContext s h a2 = true → ended (call .keyBind) 0 (fun t =>
        tabFind t.pm.keys a0 = some { v with context := a2 } ∧ ∀ i, i ≠ a0 → tabFind t.pm.keys i = tabFind s.pm.keys i))) ∧
    (adm 0x32 true false [.awaitBlend, .serving] [(0, 2)] → a0 < 4096 →
      (ownKey s h a0 = none → refuses (call .keyRemove) pmNotPermitted) ∧
      ((ownKey s h a0).isSome = true → ended (call .keyRemove) 0 (fun t => tabFind t.pm.keys a0 = none))) ∧
    (let w := argAt x 0 1
     let n := argAt x 0x10 8
     adm 0x40 true false [.serving] [(0, 2), (8, 24)] → w < 64 → argAt x 1 1 ≤ 7 → argAt x 8 8 % 4096 = 0 → n % 4096 = 0 → argAt x 8 8 + n ≤ hbmTop →
      (n = 0 → ended (call .exportWindow) 0 (fun t => tabFind t.courier.windows w = none)) ∧
      (n ≠ 0 → covered (ownHbm s h) ((ownHbm s h).length + 1) (argAt x 8 8) n = false → refuses (call .exportWindow) pmBadArg) ∧
      (n ≠ 0 → covered (ownHbm s h) ((ownHbm s h).length + 1) (argAt x 8 8) n = true → ended (call .exportWindow) 0 (fun t => ∃ e,
        tabFind t.courier.windows w = some e ∧ e.base = argAt x 8 8 ∧ e.length = n ∧ e.read = bitOf (argAt x 1 1) 0 ∧ e.write = bitOf (argAt x 1 1) 1 ∧
        e.atomic = bitOf (argAt x 1 1) 2 ∧ e.sources = argAt x 0x18 8))) ∧
    (CallAdmitted s who k groupRule →
      let g := parseGroup x
      let mine (g : GroupRec) : Prop := groupOwner s (agentHost s who) g.context = true
      (argAt x 0x20 1 = 0 → groupArgsOk x g = true → groupBufferOk s g = true → groupSemOk s g = true → mine g →
        (∀ o, tabFind s.courier.groups a0 = some o → mine o) → ended (call .groupWrite) 0 (fun t => tabFind t.courier.groups a0 = some g)) ∧
      (argAt x 0x20 1 = 0 → groupArgsOk x g = true → ¬mine g → refuses (call .groupWrite) pmNotPermitted) ∧
      (argAt x 0x20 1 = 1 → a0 < 256 → allZero (argBytes x 2 30) = true → ∀ o, tabFind s.courier.groups a0 = some o →
        (mine o → ended (call .groupDelete) 0 (fun t => tabFind t.courier.groups a0 = none)) ∧
        (¬mine o → refuses (call .groupDelete) pmNotPermitted))) ∧
    (adm 0x50 true false [.awaitBlend] [(0, 7), (8, 4)] → repairArgsOk x = true → (getMc s (argAt x 0 1)).train ≠ 3 →
      let m := getMc s (argAt x 0 1)
      let row : RowRepair := { stack := argAt x 0 1, pseudo := argAt x 2 1, bankGroup := argAt x 4 1, bank := argAt x 5 1, row := argAt x 8 4,
                               hard := argAt x 1 1 == 4 }
      (argAt x 1 1 = 0 → (m.fixes.filter (fun f => f.channel == argAt x 2 1 && !f.erased)).length < 2 → ∃ t f, exec (call .hbmRepair) s = .next t ∧
        (getSlot t k).due = some (0, []) ∧ (getMc t (argAt x 0 1)).fixes = m.fixes ++ [f] ∧ t.pm.record.lanes = s.pm.record.lanes ++ [f] ∧
        f.channel = argAt x 2 1 ∧ f.lane = argAt x 3 1 ∧ f.erased = false ∧ t.log ≠ s.log) ∧
      (argAt x 1 1 = 2 → m.repairs.any (fun r => sameGroup r row && !r.hard) = false → ∃ t, exec (call .hbmRepair) s = .next t ∧
        (getSlot t k).due = some (0, []) ∧ (getMc t (argAt x 0 1)).repairs = m.repairs ++ [row] ∧ t.pm.record.repairs = s.pm.record.repairs ++ [row] ∧
        t.log ≠ s.log)) ∧
    (adm 0x51 true false [.awaitBlend, .serving] [(0, 4)] → argAt x 0 1 ≤ 1 →
      (argAt x 1 1 = 0 → argAt x 2 1 ≤ 99 → argAt x 3 1 = 0 → ended (call .islandRetire) 0 (fun t =>
        (getIsl t (islIx (argAt x 0 1) (argAt x 2 1))).faulty = true)) ∧
      (argAt x 1 1 = 1 → argAt x 2 1 = 0 → argAt x 3 1 ≤ 7 → ended (call .islandRetire) 0 (fun t => argAt x 3 1 ∈ (getCache t (argAt x 0 1)).faulty)))

/-! ### Supply, resets, parking, temperature and idling (R438, R440, R455-R470) -/

/-- Supply and resets (R438, R455-R458, R462-R465, R470): below the warning level the islands stretch, which is counted and logged as it ends; below
the reset level, at the pin, by `PWR_CTRL`, for a rail or for the Postmaster's SRAM the module stops, keeping `DEV_TIME`, the record and its memory,
and boots 1.5 ms later, or 5 ms after the input is back; three rail faults within an hour end in FAULTED 6. Loss of the input leaves OFF. The
Carrier restarts by command or watchdog, if its copy is still the one measured. -/
def Obligations.ResetsKeepWhatTheyMust : Prop :=
  ∀ (mv : Half) (who : Agent) (ms : Fin 256) (word : Word) (s : State),
    let p := s.power
    let stops (c : Instr) (P : State → Prop) : Prop := ∃ t, exec c s = .next t ∧ t.mode = s.mode ∧ t.devTime = s.devTime ∧ t.pm.record = s.pm.record ∧
      t.pm.carrierRuns = false ∧ t.blend.applied = false ∧ t.qs.invs = [] ∧ t.xfers = [] ∧ t.net = [] ∧ (∀ c, getCore t c = coreReset) ∧ P t ∧
      ((∀ d < 2, (getCache s d).evb = [] ∧ ∀ e ∈ (getCache s d).lines, e.2.dirty = false) → ∀ a, memByte t a = memByte s a)
    let kind (n : Nat) (t : State) : Prop := t.power.reset = some { kind := n, since := s.devTime }
    let host := ∃ g, who = .host g
    let restart (c : Instr) : Prop := s.pm.carrierRuns = true → ∃ t, exec c s = .next t ∧ t.log ≠ s.log ∧ t.mode = s.mode ∧
      t.pm.carrierRuns = carrierIntact s ∧ (∀ k ∈ [8, 9, 10, 11], (getSlot s k).state = 1 → (getSlot t k).discard = true) ∧
      (carrierIntact s = true → t.power.wdogKick = s.devTime)
    let faults := p.regFaults.filter (fun t => decide (s.devTime < t + 3600000000000))
    (s.mode ≠ .off → mv.toNat < 45000 → ∃ t, exec (.supplyWarning mv) s = .next t ∧ t.power.nowMv = mv ∧ t.power.minMv.toNat = min mv.toNat p.minMv.toNat ∧
      (p.stretch = none → t.power.stretch = some (s.devTime, mv.toNat) ∧ ∀ n, (getIsl s n).check.isSome = true → (getIsl t n).checkVoid = true) ∧
      (∀ a low, p.stretch = some (a, low) → t.power.stretch = some (a, min low mv.toNat)) ∧ SameExcept [.power, .isl] s t) ∧
    (∀ a low, p.stretch = some (a, low) → ∃ t, exec (.supplyWarningClear mv) s = .next t ∧ t.power.stretch = none ∧
      t.power.dips = satAdd 0xFFFF p.dips 1 ∧ t.plan.dipsSince = satAdd 0xFFFF s.plan.dipsSince 1 ∧ SameExcept [.log, .plan, .power] s t ∧
      t.log = (logEvent .supplyDip islTrust (leBytes 2 low ++ leBytes 4 (min 0xFFFFFFFF (s.devTime - a))) s).log) ∧
    (mv.toNat < 41000 → (s.mode = .off → exec (.supplyReset mv) s = .next { s with power := { p with rails := false, nowMv := mv } }) ∧
      (s.mode ≠ .off → p.supplyReset = false → stops (.supplyReset mv) (fun t => t.power.supplyReset = true))) ∧
    (s.mode ≠ .off → p.supplyReset = true → ∃ t, exec (.supplyRestored mv) s = .next t ∧ t.mode = .rom ∧ t.power.supplyReset = false ∧ t.power.reset = none ∧
      t.power.lastReset = 3 ∧ t.power.bootDue = some s.devTime ∧ SameExcept [.mode, .power] s t) ∧
    (∃ t, exec .supplyOff s = .next t ∧ t.mode = .off ∧ t.devTime = 0 ∧ t.mem = [] ∧ t.poison = [] ∧ t.pm.record = s.pm.record ∧ t.pending = s.pending ∧
      t.blend.applied = false ∧ t.log = State.reset.log ∧ t.power.mrstHeld = p.mrstHeld) ∧
    (s.mode = .off → exec (.powerUp mv) s = .next { s with power := { p with rails := true, nowMv := mv } } ∧
      (p.rails = true → exec .powerGood s = .next (setIsl { s with mode := .rom, devTime := 0, power := { p with bootDue := some 0, lastReset := 0 } } islTrust
        { getIsl s islTrust with power := 2 })) ∧
      (p.rails = false → exec .powerGood s = .next s)) ∧
    (s.mode ≠ .off → p.reset = none → p.supplyReset = false →
      stops .mrstNAssert (fun t => kind 1 t ∧ t.power.mrstHeld = true) ∧
      (reaches s who = true → host → stops (.pwrCtrlModuleReset who ms) (kind 2)) ∧
      stops (.postmasterReset (some word)) (kind 4) ∧
      (faults.length < 2 → stops (.postmasterReset none) (fun t => kind 4 t ∧ t.power.regFaults = faults ++ [s.devTime]))) ∧
    (s.mode ≠ .off → s.mode ≠ .faulted → 2 ≤ faults.length → ∃ t, exec (.postmasterReset none) s = .next t ∧ t.mode = .faulted ∧ t.pm.fault = 6) ∧
    (exec .mrstNRelease s = .next { s with power := { p with mrstHeld := false } }) ∧
    (∀ r, p.reset = some r → s.mode ≠ .off →
      (p.mrstHeld = true ∨ s.devTime < r.since + 1500000 → exec .moduleResetBoot s = .next s) ∧
      (p.mrstHeld = false → r.since + 1500000 ≤ s.devTime → exec .moduleResetBoot s = .next { s with
        mode := .rom, power := { p with reset := none, supplyReset := false, lastReset := r.kind, bootDue := some s.devTime } })) ∧
    (reaches s who = true → host → restart (.pwrCtrlCarrierRestart who ms)) ∧
    (p.wdogMs ≠ 0 → p.wdogKick + 1000000 * p.wdogMs ≤ s.devTime → restart .carrierWatchdogExpiry) ∧
    (s.devTime < p.wdogKick + 1000000 * p.wdogMs → exec .carrierWatchdogExpiry s = .next s) ∧
    (reaches s who = true → exec (.pwrCtrlWdogKick who ms) s = .next { s with power := { p with wdogMs := ms.val, wdogKick := s.devTime } })

/-- Parking, temperature and idling (R459, R460, R466-R469): a park that R468 allows saves the directory, gates the islands and leaves HBM in
self-refresh, and an unpark brings the structure back under its boot run and serves once every island runs at its point; a sensor at 105 degrees is
critical, and at 115, or after 1 s, the module is FAULTED with code 5; the input power sets its limit. A core whose unit does not stop, or that a
re-blend has newly linked, is reset, and an island without work is clock-gated. -/
def Obligations.ParkHeatAndIdleness : Prop :=
  ∀ (who : Agent) (ms : Fin 256) (training : List StackTraining) (rs : List IslandReading) (n : Fin 512) (c : Fin 256) (w : Half) (stack : Fin 12)
      (core : Fin 168) (s : State),
    let p := s.power
    let host := ∃ g, who = .host g
    let used := (s.blend.cur.parts.map (fun e => partPhys s.blend.cur e.1 e.2)).flatten
    let done : Instr := .unparkDone rs
    let b := bootRun rs s
    let back : Prop := ∃ t, exec done s = .next t ∧ t.mode = .serving ∧ t.power.unparking = false ∧ t.power.unparkRan = false ∧ t.power.parkResult = 3
    let only (i : Nat) (x : Island) (t : State) : Prop := getIsl t i = x ∧ OtherIslands i s t
    let hot (cmd : Instr) (key : Nat) : Prop :=
      (c.val < 105 → ∃ t, exec cmd s = .next t ∧ tabFind t.power.critical key = none ∧ t.mode = s.mode ∧ t.log = s.log) ∧
      (105 ≤ c.val → c.val < 115 → tabFind p.critical key = none → ∃ t, exec cmd s = .next t ∧ tabFind t.power.critical key = some s.devTime ∧
        t.log ≠ s.log ∧ t.mode = s.mode) ∧
      (105 ≤ c.val → c.val < 115 → ∀ a, tabFind p.critical key = some a → ∃ t, exec cmd s = .next t ∧ tabFind t.power.critical key = some a ∧ t.log = s.log) ∧
      (115 ≤ c.val → s.mode ≠ .faulted → ∃ t, exec cmd s = .next t ∧ t.mode = .faulted ∧ t.pm.fault = 5 ∧ t.power.selfRefresh = true)
    (reaches s who = true → host →
      (mayPark s = true → ∃ t, exec (.pwrCtrlPark who ms) s = .next t ∧ t.power.parking = true ∧ t.blend.staged = none ∧ t.mode = .serving) ∧
      (mayPark s = false → exec (.pwrCtrlPark who ms) s = .next { s with power := { p with wdogMs := ms.val, parkResult := 2 } }) ∧
      (s.mode = .parked → p.unparking = false → ∃ t, exec (.pwrCtrlUnpark who ms training) s = .next t ∧ t.power.unparking = true ∧
        t.power.selfRefresh = false ∧ t.mode = .parked ∧ t.blend.cur = s.blend.cur ∧
        ∀ e ∈ s.blend.cur.spare, (getIsl s (islOfCore e.2)).power = 0 → (getIsl s (islOfCore e.2)).faulty = false → (getIsl t (islOfCore e.2)).power = (if e.2 ∈ used then 2 else 1))) ∧
    (p.parking = true → s.mode = .serving → ∃ t, exec .parkDone s = .next t ∧ t.mode = .parked ∧ t.pm.carrierRuns = false ∧ t.power.parkResult = 1 ∧
      t.power.parking = false ∧ t.power.selfRefresh = true ∧ t.courier.position = none ∧ t.courier.store = [] ∧ t.xfers = [] ∧
      (∀ m ∈ movableIsls, (getIsl t m).power = 0) ∧ (tabRising 0 s.seg.entries = true → ∀ e ∈ s.seg.entries,
        memBytes t (reserveBase s + 32 * e.1) 32 = segBytes e.2)) ∧
    (s.mode = .parked → p.unparking = true →
      (p.unparkRan = false → (readsAll rs s = false → exec done s = .next s) ∧ (readsAll rs s = true → ramped b = true → back) ∧
        (readsAll rs s = true → ramped b = false → exec done s = .next { b with power := { b.power with unparkRan := true } })) ∧
      (p.unparkRan = true → (ramped s = true → back) ∧ (ramped s = false → exec done s = .next s))) ∧
    (islExists n.val = true → s.mode ≠ .off → hot (.junctionTempChange n c) n.val ∧ (c.val < 115 → ∃ t, exec (.junctionTempChange n c) s = .next t ∧
      only n.val { getIsl s n.val with tempC := c.val } t ∧ t.power.peakC = max p.peakC c.val ∧ SameExcept [.log, .plan, .power, .isl] s t)) ∧
    (s.mode ≠ .off → hot (.hbmTempChange stack c) (512 + stack.val) ∧ (c.val < 115 → ∃ t, exec (.hbmTempChange stack c) s = .next t ∧
      getMc t stack.val = { getMc s stack.val with tempC := c.val } ∧ SameExcept [.log, .power, .mc] s t)) ∧
    (s.mode ≠ .off → s.mode ≠ .faulted → (∃ e ∈ p.critical, e.2 + 1000000000 ≤ s.devTime) → ∃ t, exec .thermalCriticalTimeout s = .next t ∧
      t.mode = .faulted ∧ t.pm.fault = 5) ∧
    ((∀ e ∈ p.critical, s.devTime < e.2 + 1000000000) → exec .thermalCriticalTimeout s = .next s) ∧
    (exec (.inputPowerLimit w) s = .next { s with power := { p with
      powerW := w.toNat, powerLimit := if 1600 < w.toNat then true else if w.toNat < 1550 then false else p.powerLimit } }) ∧
    ((coreStuck s core.val = true ∨ coreJoining s core.val = true) → ∃ t, exec (.coreReset core) s = .next t ∧ (getCore t core.val).window = [] ∧
      (getCore t core.val).mat = none ∧ (getCore t core.val).vec = none ∧ t.log ≠ s.log ∧ (getCore t core.val).inv = (getCore s core.val).inv ∧
      (getCore t core.val).phase = (if (getCore s core.val).inv.isSome then .faulted else .idle) ∧ coreJoining t core.val = false) ∧
    (coreStuck s core.val = false → coreJoining s core.val = false → exec (.coreReset core) s = .next s) ∧
    (isMovable n.val = true → (getIsl s n.val).power = 2 → islandIdle s n.val = true → exec (.islandIdleGate n) s =
      .next (setIsl s n.val { getIsl s n.val with power := 1, gatedSince := some s.devTime })) ∧
    ((getIsl s n.val).power ≠ 2 ∨ islandIdle s n.val = false → exec (.islandIdleGate n) s = .next s)

/-! ### The control window, the Carrier and the sideband (R8, R11, R27-R29, R214, R351, R411, R413, R450, R479, R480) -/

/-- An access of the wrong width or place is dropped and logged, and a read of it returns ones (R8); one that nothing can send changes nothing. A
write goes to the fields that its register has: a flag that a 1 clears, a field that is kept, the bytes of a call's arguments, a ring that a stopped
queue takes. The Carrier reaches its own window, where its turn at the stop has come (R288, R290, R294), and no mailbox (R411). That a width is
judged before R411, and the size byte of a log entry: DESIGN CHOICE, log entry 79. -/
def Obligations.RegistersTakeTheirWrites : Prop :=
  ∀ (who : Agent) (off : Fin 33554432) (v : Dword) (wide isRead : Bool) (size : Fin 4096) (die : Fin 2) (word : Word) (a : Nat) (count : Fin 257)
      (b : List Byte) (s : State),
    let n := if wide then 8 else 4
    let val := if wide then v.toNat else v.toNat % 2 ^ 32
    let write : Instr := .registerWrite who off v wide
    let host := ∃ p, who = .host p
    let sem := die.val * 65536 + (tabGet dieSelectReset s.selects die.val).sem
    (reaches s who = false → exec write s = .next s ∧ exec (.accessMisaligned who off size isRead) s = .next s ∧
      exec (.semPostRegister who die word) s = .next s) ∧
    (reaches s who = true → accessFits off.val size.val isRead = false → ∃ t, exec (.accessMisaligned who off size isRead) s = .next t ∧
      t.freeCtr = s.freeCtr + 1 ∧ t.log ≠ s.log ∧ t.answers = s.answers ++ (if isRead then [List.replicate size.val 0xFF] else []) ∧
      SameExcept [.freeCtr, .log, .answers] s t) ∧
    (reaches s who = true → accessFits off.val n false = false → ∃ t, exec write s = .next t ∧ t.log ≠ s.log ∧ t.answers = s.answers ∧
      SameExcept [.freeCtr, .log] s t) ∧
    (reaches s who = true → (carrierSem s sem = true → exec (.semPostRegister who die word) s = .next (semPost sem (word.toNat % 65536) s)) ∧
      (carrierSem s sem = false → exec (.semPostRegister who die word) s = .next s)) ∧
    (reaches s who = true → host →
      (∀ i < 84, off.val = 0x200000 + die.val * 0x100000 + i * 0x1000 + 0x80 → wide = false → exec write s =
        .next (updCore s (die.val * 84 + i) (fun c => { c with fpStatus := c.fpStatus &&& (0x7F - val % 0x80) }))) ∧
      (∀ k < 12, off.val = 0x200000 + die.val * 0x100000 + (100 + k % 6) * 0x1000 + 0x68 → k / 6 = die.val → wide = false → exec write s =
        .next (updMc s k (fun m => { m with expressMax := val % 65536 }))) ∧
      (off.val = 0x27E058 → wide = false → exec write s =
        .next { s with log := { s.log with vector := bitsOf val 25 16, irqSev := bitsOf val 10 8, mirrorSev := bitsOf val 2 0 } }) ∧
      (∀ q < 1024, off.val = 0x20000 + q * 128 + 0x10 → wide = true → mayDrive s who q = true →
        ((getQ s q).enable = false → exec write s = .next (setQ s q { getQ s q with sqRing := val % 2 ^ 48 })) ∧
        ((getQ s q).enable = true → exec write s = .next s)) ∧
      (∀ k j, k < 12 → off.val = 0x11000 + k * 0x1000 + 0x40 + j → j % 8 = 0 → j + 8 ≤ 0x7C0 → wide = true →
        (ownsSlot s who k = true → ∃ t, exec write s = .next t ∧ SameExcept [.pm] s t ∧
          (∀ i < 8, tabGet 0 (getSlot t k).args (j + i) = (leBytes 8 val).getD i 0) ∧
          ∀ i, (i < j ∨ j + 8 ≤ i) → tabGet 0 (getSlot t k).args i = tabGet 0 (getSlot s k).args i) ∧
        (ownsSlot s who k = false → exec write s = .next s)) ∧
      (off.val < 0x11000 → accessFits off.val n false = true → exec write s = .next s)) ∧
    (∀ d, who = .carrier d → reaches s who = true → accessFits off.val n false = true → (carrierBarred off.val = true ∨ carrierReadOnly off.val = true) →
      exec write s = .next (carrierDenied d.val off.val s)) ∧
    (s.pm.carrierRuns = false → exec (.carrierAccess die (.readMem a count)) s = .next s) ∧
    (s.pm.carrierRuns = true →
      (inCarrierWindow s a count.val = false → ∃ t, exec (.carrierAccess die (.readMem a count)) s = .next t ∧
        t.answers = s.answers ++ [zeros count.val] ∧ t.log = (carrierDenied die.val a s).log ∧ SameExcept [.log, .answers] s t) ∧
      (inCarrierWindow s a count.val = true → hbmReady s 1 a count.val = true → ∃ t, exec (.carrierAccess die (.readMem a count)) s = .next t ∧
        t.answers = s.answers ++ [(hbmRead (hbmTurn 1 a count.val s) none a count.val []).1.map (·.1)] ∧ ∀ x, memByte t x = memByte s x) ∧
      (inCarrierWindow s a count.val = true → hbmReady s 1 a count.val = false → exec (.carrierAccess die (.readMem a count)) s = .next s) ∧
      (inCarrierWindow s a b.length = true → hbmReady s 1 a b.length = true →
        let w := hbmWrite (hbmTurn 1 a b.length s) none a (clean b) []
        ∃ t, exec (.carrierAccess die (.writeMem a b)) s = .next t ∧ t.mem = w.mem ∧ t.poison = w.poison) ∧
      (inCarrierWindow s a b.length = true → hbmReady s 1 a b.length = false → exec (.carrierAccess die (.writeMem a b)) s = .next s) ∧
      (inCarrierWindow s a b.length = false → exec (.carrierAccess die (.writeMem a b)) s = .next (carrierDenied die.val a s)) ∧
      (∃ t, exec (.carrierAccess die (.readReg 0x18 false)) s = .next t ∧ t.answers = s.answers ++ [leBytes 4 (modeCode s.mode)]) ∧
      (∃ t, exec (.carrierAccess die (.readReg 0x10 true)) s = .next t ∧ t.answers = s.answers ++ [leBytes 8 s.devTime]))

/-- The sideband (R479, R480): in every state but OFF each command is answered with its register, the alert status is cleared by its read, the
module record is read where the boot has copied it, with every byte outside its readable areas 0, and a command of no meaning is answered 0xFF. In
OFF nothing answers. -/
def Obligations.SidebandAnswersItsCommands : Prop :=
  ∀ (off : Fin 16777216) (count : Fin 33) (cmd : Byte) (s : State),
    let answersBytes (c : Instr) (b : List Byte) : Prop := exec c s = .next { s with answers := s.answers ++ [b] }
    (s.mode = .off → ∀ c ∈ [Instr.sbReadModId, .sbReadModState, .sbReadModSerial, .sbReadPmStatus, .sbReadPwrSupply, .sbReadPwrThermal,
      .sbReadAlertStatus, .sbReadLogSeq, .sbReadModuleRecord off count, .sbUnusedCommand cmd], exec c s = .next s) ∧
    (s.mode ≠ .off →
      answersBytes .sbReadModId [0x40, 0x96, 0x4E, 0x1D] ∧ answersBytes .sbReadModState (leBytes 4 (modeCode s.mode)) ∧
      answersBytes .sbReadModSerial (leBytes 8 s.pm.serial.toNat) ∧ answersBytes .sbReadPmStatus (leBytes 4 (pmStatus s)) ∧
      answersBytes .sbReadPwrSupply (leBytes 8 (pwrSupply s)) ∧ answersBytes .sbReadPwrThermal (leBytes 4 (pwrThermal s)) ∧ answersBytes .sbReadLogSeq (leBytes 8 s.log.next) ∧
      (exec .sbReadAlertStatus s = .next { s with
        answers := s.answers ++ [leBytes 4 ((if s.power.alertCritical then 1 else 0) + (if s.power.alertFaulted then 2 else 0))],
        power := { s.power with alertCritical := false, alertFaulted := false } }) ∧
      (s.pm.copy = none → answersBytes (.sbReadModuleRecord off count) []) ∧
      (∀ r, s.pm.copy = some r → ∃ t, exec (.sbReadModuleRecord off count) s = .next t ∧ SameExcept [.freeCtr, .answers] s t ∧
        t.answers = s.answers ++ [(List.range count.val).map (fun i => recordByte r s.freeCtr (off.val + i))] ∧
        ∀ i, ¬(off.val + i < 0x1000 ∨ (0x2000 ≤ off.val + i ∧ off.val + i < 0x2800) ∨ (0x3000 ≤ off.val + i ∧ off.val + i < 0x40000)) →
          recordByte r s.freeCtr (off.val + i) = 0) ∧
      (knownCommand cmd = false → answersBytes (.sbUnusedCommand cmd) [0xFF]) ∧ (knownCommand cmd = true → exec (.sbUnusedCommand cmd) s = .next s))
end

