-- ==== Sys2Proof/Laws/Frame.lean ====
section
/-! SUPPORT. How frames compose: what a chain of changes leaves as it was. -/

namespace Sys2Proof.Machine

set_option linter.unusedTactic false
set_option linter.unreachableTactic false
set_option linter.unnecessarySeqFocus false

/-- Every part of one list is in another. -/
def covers (ps qs : List Part) : Bool := qs.all (fun q => ps.contains q)

theorem covers_mem {ps qs : List Part} (h : covers ps qs = true) {p : Part} (hp : p ∉ ps) : p ∉ qs := by
  intro hq
  rw [covers, List.all_eq_true] at h
  exact hp (List.contains_iff_mem.1 (h p hq))

theorem SameExcept.refl (ps : List Part) (s : State) : SameExcept ps s s := by
  intro p _
  cases p <;> first | rfl | exact ⟨rfl, fun _ => rfl⟩ | exact ⟨rfl, rfl⟩

theorem SameExcept.ident (ps : List Part) (s : State) : SameExcept ps s (@id State s) := SameExcept.refl ps s

theorem SameExcept.trans {ps : List Part} {s t u : State} (h : SameExcept ps s t) (h' : SameExcept ps t u) : SameExcept ps s u := by
  intro p hp
  have a := h p hp
  have b := h' p hp
  cases p <;> first
    | exact Eq.trans b a
    | exact ⟨b.1.trans a.1, fun n => (b.2 n).trans (a.2 n)⟩
    | exact ⟨b.1.trans a.1, b.2.trans a.2⟩

theorem SameExcept.weaken {ps qs : List Part} {s t : State} (h : SameExcept qs s t) (hq : covers ps qs = true) : SameExcept ps s t :=
  fun p hp => h p (covers_mem hq hp)

theorem covers_refl (ps : List Part) : covers ps ps = true := by simp [covers]

theorem covers_trans {ps qs rs : List Part} (h : covers ps qs = true) (h' : covers qs rs = true) : covers ps rs = true := by
  rw [covers, List.all_eq_true] at *
  exact fun r hr => h r (List.contains_iff_mem.1 (h' r hr))

/-- A change after changes that leave the same parts. -/
theorem SameExcept.after {ps : List Part} {s t u : State} (h : SameExcept ps t u) (h0 : SameExcept ps s t) : SameExcept ps s u :=
  h0.trans h

/-- A change that reaches some parts, after changes that reach no others. -/
theorem SameExcept.step {ps qs : List Part} {s t u : State} (h : SameExcept qs t u) (hq : covers ps qs = true)
    (h0 : SameExcept ps s t) : SameExcept ps s u := h0.trans (h.weaken hq)

/-- The same of the state in a pair. -/
theorem SameExcept.pair {α : Type} {ps qs : List Part} {s t u : State} {r : α × State} {x : α} (hr : r = (x, u))
    (h : SameExcept qs t r.2) (hq : covers ps qs = true) (h0 : SameExcept ps s t) : SameExcept ps s u := by
  subst hr; exact h0.trans (h.weaken hq)

theorem SameExcept.pairFst {α : Type} {ps qs : List Part} {s t u : State} {r : State × α} {x : α} (hr : r = (u, x))
    (h : SameExcept qs t r.1) (hq : covers ps qs = true) (h0 : SameExcept ps s t) : SameExcept ps s u := by
  subst hr; exact h0.trans (h.weaken hq)

theorem SameExcept.forEach {β : Type} {ps : List Part} {f : β → State → State} (h : ∀ b t, SameExcept ps t (f b t)) :
    ∀ (l : List β) {s t : State}, SameExcept ps s t → SameExcept ps s (forEach l f t)
  | [], _, _, h0 => h0
  | b :: l, _, _, h0 => SameExcept.forEach h l (h0.trans (h b _))

theorem SameExcept.foldl {β : Type} {ps : List Part} {f : State → β → State} (h : ∀ t b, SameExcept ps t (f t b)) :
    ∀ (l : List β) {s t : State}, SameExcept ps s t → SameExcept ps s (l.foldl f t)
  | [], _, _, h0 => h0
  | b :: l, _, _, h0 => SameExcept.foldl h l (h0.trans (h _ b))

theorem SameExcept.foldlFst {α β : Type} {ps : List Part} {f : State × α → β → State × α} (h : ∀ t b, SameExcept ps t.1 (f t b).1) :
    ∀ (l : List β) {s : State} {t : State × α}, SameExcept ps s t.1 → SameExcept ps s (l.foldl f t).1
  | [], _, _, h0 => h0
  | b :: l, _, _, h0 => SameExcept.foldlFst h l (h0.trans (h _ b))

theorem SameExcept.iter {ps : List Part} {f : Nat → State → State} (h : ∀ k t, SameExcept ps t (f k t)) :
    ∀ (n : Nat) {s t : State}, SameExcept ps s t → SameExcept ps s (iter n f t)
  | 0, _, _, h0 => h0
  | n + 1, _, _, h0 => (SameExcept.iter h n h0).trans (h n _)

/-- A change of fields. -/
def FieldsSame (ps : List Part) (s t : State) : Prop := ∀ p : Part, p ∉ ps → p.same s t

theorem FieldsSame.intro {ps : List Part} {s t : State} (h : ∀ p : Part, p ∉ ps → p.same s t) : FieldsSame ps s t := h

theorem FieldsSame.weaken {ps qs : List Part} {s t : State} (h : FieldsSame qs s t) (hq : covers ps qs = true) : FieldsSame ps s t :=
  fun p hp => h p (covers_mem hq hp)

theorem covers_intro {ps qs : List Part} (h : covers ps qs = true) : covers ps qs = true := h

theorem SameExcept.fields {ps : List Part} {s t : State} {a b c d e f g h i j k l m n o p q r u v w x y z aa bb cc}
    (h1 : FieldsSame ps t (State.mk t.pending a b c d e f g h i j k l m n o p q r u v w x y z aa bb cc)) (h0 : SameExcept ps s t) :
    SameExcept ps s (State.mk t.pending a b c d e f g h i j k l m n o p q r u v w x y z aa bb cc) := SameExcept.trans h0 h1

/-- What keeps every byte and every mark keeps the canonical forms. -/
theorem SameExcept.stored {ps : List Part} {s t : State} (h : SameExcept ps s t) (hm : (ps.contains .mem || ps.contains .poison) = false)
    (hs : s.stored = true) : t.stored = true := by
  rw [Bool.or_eq_false_iff] at hm
  have a := (h .mem (fun hp => by simp [hp] at hm)).1
  have b := h .poison (fun hp => by simp [hp] at hm)
  simp only [Part.same] at a b
  unfold State.stored at *
  rw [a, b]
  exact hs

end Sys2Proof.Machine
end

