-- ==== Sys2Proof/Laws/Sparse.lean ====
section
/-! SUPPORT. The laws of the sparse tables: a read after a write, and that every operation keeps the canonical form. -/

namespace Sys2Proof.Machine

set_option linter.unusedTactic false
set_option linter.unreachableTactic false
set_option linter.unnecessarySeqFocus false

section
variable {α : Type}

@[simp] theorem tabFind_nil (n : Nat) : tabFind ([] : Tab α) n = none := rfl

@[simp] theorem tabFind_tabDel_same (m : Tab α) (n : Nat) : tabFind (tabDel m n) n = none := by
  induction m with
  | nil => rfl
  | cons e t ih =>
    obtain ⟨k, v⟩ := e
    by_cases h : n = k <;> simp [tabDel, h, tabFind] <;> simp_all

theorem tabFind_tabDel_ne (m : Tab α) {n k : Nat} (h : k ≠ n) : tabFind (tabDel m n) k = tabFind m k := by
  induction m with
  | nil => rfl
  | cons e t ih =>
    obtain ⟨j, v⟩ := e
    by_cases hj : n = j
    · subst hj; simp [tabDel, tabFind, h, ih]
    · by_cases hk : k = j <;> simp [tabDel, hj, tabFind, hk, ih] <;> simp_all

@[simp] theorem tabFind_tabPut_same (m : Tab α) (n : Nat) (v : α) : tabFind (tabPut m n v) n = some v := by
  induction m with
  | nil => simp [tabPut, tabFind]
  | cons e t ih =>
    obtain ⟨j, w⟩ := e
    by_cases h1 : n < j
    · simp [tabPut, h1, tabFind]
    · by_cases h2 : n = j <;> simp [tabPut, h1, h2, tabFind] <;> simp_all

theorem tabFind_tabPut_ne (m : Tab α) {n k : Nat} (v : α) (h : k ≠ n) : tabFind (tabPut m n v) k = tabFind m k := by
  induction m with
  | nil => simp [tabPut, tabFind, h]
  | cons e t ih =>
    obtain ⟨j, w⟩ := e
    by_cases h1 : n < j
    · simp [tabPut, h1, tabFind, h]
    · by_cases h2 : n = j
      · subst h2; simp [tabPut, tabFind, h]
      · simp [tabPut, h1, h2, tabFind, ih]

@[simp] theorem tabGet_nil (d : α) (n : Nat) : tabGet d ([] : Tab α) n = d := rfl

variable [DecidableEq α]

/-- A read of the key just written gives what was written. -/
@[simp] theorem tabGet_tabSet_same (d : α) (m : Tab α) (n : Nat) (v : α) : tabGet d (tabSet d m n v) n = v := by
  unfold tabGet tabSet
  split <;> simp_all

/-- A write of one key leaves every other as it reads. -/
theorem tabGet_tabSet_ne (d : α) (m : Tab α) {n k : Nat} (v : α) (h : k ≠ n) : tabGet d (tabSet d m n v) k = tabGet d m k := by
  unfold tabGet tabSet
  split
  · rw [tabFind_tabDel_ne _ h]
  · rw [tabFind_tabPut_ne _ _ h]

theorem tabGet_tabSet (d : α) (m : Tab α) (n k : Nat) (v : α) : tabGet d (tabSet d m n v) k = if k = n then v else tabGet d m k := by
  by_cases h : k = n
  · subst h; simp
  · simp [h, tabGet_tabSet_ne d m v h]

end

/-! ### The canonical form -/

section
variable {α : Type}

theorem tabRising_mono {b c : Nat} (h : b ≤ c) : ∀ {m : Tab α}, tabRising c m = true → tabRising b m = true
  | [], _ => rfl
  | (k, v) :: t, hm => by
    simp only [tabRising, Bool.and_eq_true, decide_eq_true_eq] at hm ⊢
    exact ⟨Nat.le_trans h hm.1, hm.2⟩

theorem tabRising_tabDel (n : Nat) : ∀ {b : Nat} {m : Tab α}, tabRising b m = true → tabRising b (tabDel m n) = true
  | _, [], _ => rfl
  | b, (k, v) :: t, hm => by
    simp only [tabRising, Bool.and_eq_true, decide_eq_true_eq] at hm
    unfold tabDel
    split
    · exact tabRising_tabDel n (tabRising_mono (by omega) hm.2)
    · simp only [tabRising, Bool.and_eq_true, decide_eq_true_eq]
      exact ⟨hm.1, tabRising_tabDel n hm.2⟩

theorem tabRising_tabPut {n : Nat} (v : α) : ∀ {b : Nat} {m : Tab α}, b ≤ n → tabRising b m = true → tabRising b (tabPut m n v) = true
  | b, [], hb, _ => by simp [tabPut, tabRising, hb]
  | b, (k, w) :: t, hb, hm => by
    simp only [tabRising, Bool.and_eq_true, decide_eq_true_eq] at hm
    unfold tabPut
    split
    · simp only [tabRising, Bool.and_eq_true, decide_eq_true_eq]
      exact ⟨hb, by omega, hm.2⟩
    · split
      · simp only [tabRising, Bool.and_eq_true, decide_eq_true_eq]
        subst_vars
        exact ⟨hb, hm.2⟩
      · simp only [tabRising, Bool.and_eq_true, decide_eq_true_eq]
        exact ⟨hm.1, tabRising_tabPut v (by omega) hm.2⟩

theorem tabDel_mem {n : Nat} {e : Nat × α} : ∀ {m : Tab α}, e ∈ tabDel m n → e ∈ m
  | [], h => h
  | (k, v) :: t, h => by
    unfold tabDel at h
    split at h
    · exact List.mem_cons_of_mem _ (tabDel_mem h)
    · rcases List.mem_cons.1 h with h | h
      · exact h ▸ List.mem_cons_self
      · exact List.mem_cons_of_mem _ (tabDel_mem h)

theorem tabPut_mem {n : Nat} {v : α} {e : Nat × α} : ∀ {m : Tab α}, e ∈ tabPut m n v → e = (n, v) ∨ e ∈ m
  | [], h => by simp [tabPut] at h; exact .inl h
  | (k, w) :: t, h => by
    unfold tabPut at h
    split at h
    · rcases List.mem_cons.1 h with h | h
      · exact .inl h
      · exact .inr h
    · split at h
      · rcases List.mem_cons.1 h with h | h
        · exact .inl h
        · exact .inr (List.mem_cons_of_mem _ h)
      · rcases List.mem_cons.1 h with h | h
        · exact .inr (h ▸ List.mem_cons_self)
        · rcases tabPut_mem h with h | h
          · exact .inl h
          · exact .inr (List.mem_cons_of_mem _ h)

variable [DecidableEq α]

/-- The empty table is in its canonical form. -/
@[simp] theorem tabWf_nil (d : α) : tabWf d [] = true := rfl

theorem tabWf_iff (d : α) (m : Tab α) : tabWf d m = true ↔ tabRising 0 m = true ∧ ∀ e ∈ m, e.2 ≠ d := by
  simp [tabWf]

/-- A write keeps the canonical form. -/
theorem tabWf_tabSet {d : α} {m : Tab α} (n : Nat) (v : α) (h : tabWf d m = true) : tabWf d (tabSet d m n v) = true := by
  rw [tabWf_iff] at h ⊢
  unfold tabSet
  split
  · exact ⟨tabRising_tabDel n h.1, fun e he => h.2 e (tabDel_mem he)⟩
  · refine ⟨tabRising_tabPut v (Nat.zero_le _) h.1, fun e he => ?_⟩
    rcases tabPut_mem he with rfl | he
    · assumption
    · exact h.2 e he

omit [DecidableEq α] in
theorem tabRising_filter (p : Nat × α → Bool) : ∀ {b : Nat} {m : Tab α}, tabRising b m = true → tabRising b (m.filter p) = true
  | _, [], _ => rfl
  | b, (k, v) :: t, hm => by
    simp only [tabRising, Bool.and_eq_true, decide_eq_true_eq] at hm
    rw [List.filter_cons]
    split
    · simp only [tabRising, Bool.and_eq_true, decide_eq_true_eq]
      exact ⟨hm.1, tabRising_filter p hm.2⟩
    · exact tabRising_filter p (tabRising_mono (by omega) hm.2)

/-- Taking out entries keeps the canonical form. -/
theorem tabWf_filter {d : α} {m : Tab α} (p : Nat × α → Bool) (h : tabWf d m = true) : tabWf d (m.filter p) = true := by
  rw [tabWf_iff] at h ⊢
  exact ⟨tabRising_filter p h.1, fun e he => h.2 e (List.mem_filter.1 he).1⟩

end

/-! ### Rising sets -/

theorem setRising_mono {b c : Nat} (h : b ≤ c) : ∀ {m : List Nat}, setRising c m = true → setRising b m = true
  | [], _ => rfl
  | k :: t, hm => by
    simp only [setRising, Bool.and_eq_true, decide_eq_true_eq] at hm ⊢
    exact ⟨Nat.le_trans h hm.1, hm.2⟩

theorem setRising_setDel (n : Nat) : ∀ {b : Nat} {m : List Nat}, setRising b m = true → setRising b (setDel m n) = true
  | _, [], _ => rfl
  | b, k :: t, hm => by
    simp only [setRising, Bool.and_eq_true, decide_eq_true_eq] at hm
    unfold setDel
    split
    · exact setRising_setDel n (setRising_mono (by omega) hm.2)
    · simp only [setRising, Bool.and_eq_true, decide_eq_true_eq]
      exact ⟨hm.1, setRising_setDel n hm.2⟩

theorem setRising_setIns {n : Nat} : ∀ {b : Nat} {m : List Nat}, b ≤ n → setRising b m = true → setRising b (setIns m n) = true
  | b, [], hb, _ => by simp [setIns, setRising, hb]
  | b, k :: t, hb, hm => by
    simp only [setRising, Bool.and_eq_true, decide_eq_true_eq] at hm
    unfold setIns
    split
    · simp only [setRising, Bool.and_eq_true, decide_eq_true_eq]
      exact ⟨hb, by omega, hm.2⟩
    · split
      · simp only [setRising, Bool.and_eq_true, decide_eq_true_eq]
        subst_vars
        exact ⟨hm.1, hm.2⟩
      · simp only [setRising, Bool.and_eq_true, decide_eq_true_eq]
        exact ⟨hm.1, setRising_setIns (by omega) hm.2⟩

theorem setRising_filter (p : Nat → Bool) : ∀ {b : Nat} {m : List Nat}, setRising b m = true → setRising b (m.filter p) = true
  | _, [], _ => rfl
  | b, k :: t, hm => by
    simp only [setRising, Bool.and_eq_true, decide_eq_true_eq] at hm
    rw [List.filter_cons]
    split
    · simp only [setRising, Bool.and_eq_true, decide_eq_true_eq]
      exact ⟨hm.1, setRising_filter p hm.2⟩
    · exact setRising_filter p (setRising_mono (by omega) hm.2)

theorem mem_setIns {n k : Nat} : ∀ {m : List Nat}, k ∈ setIns m n ↔ k = n ∨ k ∈ m
  | [] => by simp [setIns]
  | j :: t => by
    unfold setIns
    split
    · simp
    · split
      · subst_vars; simp
      · rw [List.mem_cons, mem_setIns, List.mem_cons]; exact or_left_comm

theorem mem_setDel {n k : Nat} : ∀ {m : List Nat}, k ∈ setDel m n ↔ k ≠ n ∧ k ∈ m
  | [] => by simp [setDel]
  | j :: t => by
    unfold setDel
    split
    · subst_vars
      rw [mem_setDel, List.mem_cons]
      constructor
      · exact fun h => ⟨h.1, .inr h.2⟩
      · rintro ⟨h, rfl | h'⟩
        · exact absurd rfl h
        · exact ⟨h, h'⟩
    · rw [List.mem_cons, mem_setDel, List.mem_cons]
      constructor
      · rintro (rfl | h)
        · exact ⟨fun h => by subst h; contradiction, .inl rfl⟩
        · exact ⟨h.1, .inr h.2⟩
      · rintro ⟨h, rfl | h'⟩
        · exact .inl rfl
        · exact .inr ⟨h, h'⟩

end Sys2Proof.Machine
end

