-- ==== Sys2Proof/Laws/StoredBase.lean ====
section
/-! SUPPORT. The canonical form of memory and of the marks: what the plainest operations keep of it, and how that composes. -/

namespace Sys2Proof.Machine

set_option linter.unusedTactic false
set_option linter.unreachableTactic false
set_option linter.unnecessarySeqFocus false

theorem stored_iff (s : State) : s.stored = true ↔ Memory.wf s.mem = true ∧ setRising 0 s.poison = true := by
  simp [State.stored]

/-- Reset memory is in its canonical form. -/
theorem reset_stored : State.reset.stored = true := rfl

theorem setMemByte_stored {s : State} (a : Nat) (b : Byte) (h : s.stored = true) : (setMemByte s a b).stored = true := by
  rw [stored_iff] at *
  exact ⟨tabWf_tabSet a b h.1, h.2⟩

theorem setMemPoison_stored {s : State} (a : Nat) (p : Bool) (h : s.stored = true) : (setMemPoison s a p).stored = true := by
  rw [stored_iff] at *
  refine ⟨h.1, ?_⟩
  unfold setMemPoison
  dsimp only
  split
  · exact setRising_setIns (Nat.zero_le _) h.2
  · exact setRising_setDel _ h.2

/-- Taking out bytes and marks keeps the forms. -/
theorem filter_stored {s t : State} (p : Host.Cell → Bool) (q : Nat → Bool) (hm : t.mem = s.mem.filter p) (hp : t.poison = s.poison.filter q)
    (h : s.stored = true) : t.stored = true := by
  rw [stored_iff] at *
  rw [hm, hp]
  exact ⟨tabWf_filter p h.1, setRising_filter q h.2⟩

theorem forEach_stored {β : Type} {f : β → State → State} (hf : ∀ b t, t.stored = true → (f b t).stored = true) :
    ∀ (l : List β) {t : State}, t.stored = true → (forEach l f t).stored = true
  | [], _, h => h
  | b :: l, _, h => forEach_stored hf l (hf b _ h)

theorem foldl_stored {β : Type} {f : State → β → State} (hf : ∀ t b, t.stored = true → (f t b).stored = true) :
    ∀ (l : List β) {t : State}, t.stored = true → (l.foldl f t).stored = true
  | [], _, h => h
  | b :: l, _, h => foldl_stored hf l (hf _ b h)

theorem foldlFst_stored {α β : Type} {f : State × α → β → State × α} (hf : ∀ t b, t.1.stored = true → (f t b).1.stored = true) :
    ∀ (l : List β) {t : State × α}, t.1.stored = true → (l.foldl f t).1.stored = true
  | [], _, h => h
  | b :: l, _, h => foldlFst_stored hf l (hf _ b h)

theorem iter_stored {f : Nat → State → State} (hf : ∀ k t, t.stored = true → (f k t).stored = true) :
    ∀ (n : Nat) {t : State}, t.stored = true → (iter n f t).stored = true
  | 0, _, h => h
  | n + 1, _, h => hf n _ (iter_stored hf n h)

/-- A change of other fields. -/
theorem fields_stored {t : State} {a0 a b c d e f g h k l m n o p q r u v w x y z aa bb cc}
    (hs : t.stored = true) : (State.mk a0 a b c d e f g h t.mem t.poison k l m n o p q r u v w x y z aa bb cc).stored = true := hs

theorem pairFst_stored {α : Type} {u : State} {r : State × α} {x : α} (hr : r = (u, x)) (h : r.1.stored = true) : u.stored = true := by
  subst hr; exact h

end Sys2Proof.Machine
end

