-- ==== Sys2Proof/Laws/Ops.lean ====
section
/-! SUPPORT. What each operation of Machine/Ops.lean reaches: every other part of the state is as it was (`_reach`), and memory and the
marks keep their canonical form (`_stored`). -/

namespace Sys2Proof.Machine

set_option linter.unusedTactic false
set_option linter.unreachableTactic false
set_option linter.unnecessarySeqFocus false

theorem setIsl_reach (s b c) : SameExcept [.isl] s (setIsl s b c) := by
  unfold setIsl
  try dsimp only
  repeat' first
    | with_reducible exact SameExcept.refl _ _
    | ((with_reducible apply covers_intro); decide)
    | ((with_reducible apply FieldsSame.intro); intro q hq; cases q <;> first | exact absurd (by decide) hq | (dsimp only [Part.same, memByte]; done) | (dsimp only [Part.same, memByte]; exact ⟨rfl, fun _ => rfl⟩) | (dsimp only [Part.same]; exact ⟨rfl, rfl⟩))
    | with_reducible apply SameExcept.fields

theorem updIsl_reach (s b c) : SameExcept [.isl] s (updIsl s b c) := by
  unfold updIsl
  try dsimp only
  repeat' first
    | with_reducible exact SameExcept.refl _ _
    | ((with_reducible apply covers_intro); decide)
    | with_reducible apply SameExcept.step (setIsl_reach _ _ _)

theorem wakeIsl_reach (a s) : SameExcept [.isl] s (wakeIsl a s) := by
  unfold wakeIsl
  try dsimp only
  repeat' first
    | with_reducible exact SameExcept.refl _ _
    | ((with_reducible apply covers_intro); decide)
    | with_reducible apply SameExcept.step (updIsl_reach _ _ _)
    | split

theorem drawFree_reach (s) : SameExcept [.freeCtr] s (drawFree s).2 := by
  unfold drawFree
  try dsimp only
  repeat' first
    | with_reducible exact SameExcept.refl _ _
    | ((with_reducible apply covers_intro); decide)
    | ((with_reducible apply FieldsSame.intro); intro q hq; cases q <;> first | exact absurd (by decide) hq | (dsimp only [Part.same, memByte]; done) | (dsimp only [Part.same, memByte]; exact ⟨rfl, fun _ => rfl⟩) | (dsimp only [Part.same]; exact ⟨rfl, rfl⟩))
    | dsimp only
    | with_reducible apply SameExcept.fields

theorem raiseVectorOn_reach (a b s) : SameExcept [.host] s (raiseVectorOn a b s) := by
  unfold raiseVectorOn
  try dsimp only
  repeat' first
    | with_reducible exact SameExcept.refl _ _
    | ((with_reducible apply covers_intro); decide)
    | ((with_reducible apply FieldsSame.intro); intro q hq; cases q <;> first | exact absurd (by decide) hq | (dsimp only [Part.same, memByte]; done) | (dsimp only [Part.same, memByte]; exact ⟨rfl, fun _ => rfl⟩) | (dsimp only [Part.same]; exact ⟨rfl, rfl⟩))
    | with_reducible apply SameExcept.fields

theorem raiseVector_reach (a s) : SameExcept [.host] s (raiseVector a s) := by
  unfold raiseVector
  try dsimp only
  repeat' first
    | with_reducible exact SameExcept.refl _ _
    | ((with_reducible apply covers_intro); decide)
    | with_reducible apply SameExcept.step (raiseVectorOn_reach _ _ _)

theorem logEvent_reach (a b c s) : SameExcept [.log] s (logEvent a b c s) := by
  unfold logEvent
  try dsimp only
  repeat' first
    | with_reducible exact SameExcept.refl _ _
    | ((with_reducible apply covers_intro); decide)
    | ((with_reducible apply FieldsSame.intro); intro q hq; cases q <;> first | exact absurd (by decide) hq | (dsimp only [Part.same, memByte]; done) | (dsimp only [Part.same, memByte]; exact ⟨rfl, fun _ => rfl⟩) | (dsimp only [Part.same]; exact ⟨rfl, rfl⟩))
    | split
    | dsimp only
    | with_reducible apply SameExcept.fields

theorem logLimited_reach (a b c s) : SameExcept [.log] s (logLimited a b c s) := by
  unfold logLimited
  try dsimp only
  repeat' first
    | with_reducible exact SameExcept.refl _ _
    | ((with_reducible apply covers_intro); decide)
    | ((with_reducible apply FieldsSame.intro); intro q hq; cases q <;> first | exact absurd (by decide) hq | (dsimp only [Part.same, memByte]; done) | (dsimp only [Part.same, memByte]; exact ⟨rfl, fun _ => rfl⟩) | (dsimp only [Part.same]; exact ⟨rfl, rfl⟩))
    | split
    | dsimp only
    | with_reducible apply SameExcept.fields

theorem setMemByte_reach (s b c) : SameExcept [.mem] s (setMemByte s b c) := by
  unfold setMemByte
  try dsimp only
  repeat' first
    | with_reducible exact SameExcept.refl _ _
    | ((with_reducible apply covers_intro); decide)
    | ((with_reducible apply FieldsSame.intro); intro q hq; cases q <;> first | exact absurd (by decide) hq | (dsimp only [Part.same, memByte]; done) | (dsimp only [Part.same, memByte]; exact ⟨rfl, fun _ => rfl⟩) | (dsimp only [Part.same]; exact ⟨rfl, rfl⟩))
    | with_reducible apply SameExcept.fields

theorem setMemPoison_reach (s b c) : SameExcept [.poison] s (setMemPoison s b c) := by
  unfold setMemPoison
  try dsimp only
  repeat' first
    | with_reducible exact SameExcept.refl _ _
    | ((with_reducible apply covers_intro); decide)
    | ((with_reducible apply FieldsSame.intro); intro q hq; cases q <;> first | exact absurd (by decide) hq | (dsimp only [Part.same, memByte]; done) | (dsimp only [Part.same, memByte]; exact ⟨rfl, fun _ => rfl⟩) | (dsimp only [Part.same]; exact ⟨rfl, rfl⟩))
    | split
    | with_reducible apply SameExcept.fields

theorem storeBytes_reach (s b c) : SameExcept [.mem] s (storeBytes s b c) := by
  induction c generalizing s b with
  | nil => exact SameExcept.refl _ _
  | cons e t ih => exact SameExcept.step (ih _ _) rfl (setMemByte_reach _ _ _)

theorem settleGranule_reach (a b c s) : SameExcept [.poison] s (settleGranule a b c s) := by
  unfold settleGranule
  try dsimp only
  repeat' first
    | with_reducible exact SameExcept.refl _ _
    | ((with_reducible apply covers_intro); decide)
    | with_reducible apply SameExcept.step (setMemPoison_reach _ _ _)
    | split

theorem memWrite_reach (s b c) : SameExcept [.mem, .poison] s (memWrite s b c) := by
  unfold memWrite
  try dsimp only
  repeat' first
    | with_reducible exact SameExcept.refl _ _
    | ((with_reducible apply covers_intro); decide)
    | with_reducible apply SameExcept.step (settleGranule_reach _ _ _ _)
    | with_reducible apply SameExcept.step (storeBytes_reach _ _ _)
    | with_reducible apply SameExcept.forEach
    | ((with_reducible intro _ _); try dsimp only)
    | ((with_reducible intro _); try dsimp only)

theorem poisonRange_reach (s b c) : SameExcept [.poison] s (poisonRange s b c) := by
  unfold poisonRange
  try dsimp only
  repeat' first
    | with_reducible exact SameExcept.refl _ _
    | ((with_reducible apply covers_intro); decide)
    | with_reducible apply SameExcept.step (setMemPoison_reach _ _ _)
    | with_reducible apply SameExcept.forEach
    | ((with_reducible intro _ _); try dsimp only)
    | ((with_reducible intro _); try dsimp only)

theorem scrWrite_reach (s b c d) : SameExcept [.mem, .poison] s (scrWrite s b c d) := by
  unfold scrWrite
  try dsimp only
  repeat' first
    | with_reducible exact SameExcept.refl _ _
    | ((with_reducible apply covers_intro); decide)
    | with_reducible apply SameExcept.step (memWrite_reach _ _ _)

theorem gateMovable_reach (s) : SameExcept [.isl] s (gateMovable s) := by
  unfold gateMovable
  try dsimp only
  repeat' first
    | with_reducible exact SameExcept.refl _ _
    | ((with_reducible apply covers_intro); decide)
    | with_reducible apply SameExcept.step (updIsl_reach _ _ _)
    | with_reducible apply SameExcept.forEach
    | ((with_reducible intro _ _); try dsimp only)
    | ((with_reducible intro _); try dsimp only)

/-! ### The canonical form -/

theorem storeBytes_stored {s : State} (b c) (h : s.stored = true) : (storeBytes s b c).stored = true := by
  induction c generalizing b s with
  | nil => exact h
  | cons e t ih => exact ih _ (setMemByte_stored _ _ h)

theorem settleGranule_stored {s : State} (a b c) (h : s.stored = true) : (settleGranule a b c s).stored = true := by
  unfold settleGranule
  try dsimp only
  repeat' first
    | with_reducible assumption
    | with_reducible apply setMemPoison_stored
    | split

theorem memWrite_stored {s : State} (b c) (h : s.stored = true) : (memWrite s b c).stored = true := by
  unfold memWrite
  try dsimp only
  repeat' first
    | with_reducible assumption
    | with_reducible apply settleGranule_stored
    | with_reducible apply storeBytes_stored
    | with_reducible apply forEach_stored
    | ((with_reducible intro _ _ _ _); try dsimp only)
    | ((with_reducible intro _ _ _); try dsimp only)
    | ((with_reducible intro _ _); try dsimp only)

theorem poisonRange_stored {s : State} (b c) (h : s.stored = true) : (poisonRange s b c).stored = true := by
  unfold poisonRange
  try dsimp only
  repeat' first
    | with_reducible assumption
    | with_reducible apply setMemPoison_stored
    | with_reducible apply forEach_stored
    | ((with_reducible intro _ _ _ _); try dsimp only)
    | ((with_reducible intro _ _ _); try dsimp only)
    | ((with_reducible intro _ _); try dsimp only)

theorem scrWrite_stored {s : State} (b c d) (h : s.stored = true) : (scrWrite s b c d).stored = true := by
  unfold scrWrite
  try dsimp only
  repeat' first
    | with_reducible assumption
    | with_reducible apply memWrite_stored

end Sys2Proof.Machine
end

