-- ==== Sys2Proof/Laws/Hbm.lean ====
section
/-! SUPPORT. What each operation of Machine/Hbm.lean reaches: every other part of the state is as it was (`_reach`), and memory and the
marks keep their canonical form (`_stored`). -/

namespace Sys2Proof.Machine

set_option linter.unusedTactic false
set_option linter.unreachableTactic false
set_option linter.unnecessarySeqFocus false

theorem setCache_reach (s b c) : SameExcept [.cache] s (setCache s b c) := by
  unfold setCache
  try dsimp only
  repeat' first
    | with_reducible exact SameExcept.refl _ _
    | ((with_reducible apply covers_intro); decide)
    | ((with_reducible apply FieldsSame.intro); intro q hq; cases q <;> first | exact absurd (by decide) hq | (dsimp only [Part.same, memByte]; done) | (dsimp only [Part.same, memByte]; exact ⟨rfl, fun _ => rfl⟩) | (dsimp only [Part.same]; exact ⟨rfl, rfl⟩))
    | with_reducible apply SameExcept.fields

theorem setMc_reach (s b c) : SameExcept [.mc] s (setMc s b c) := by
  unfold setMc
  try dsimp only
  repeat' first
    | with_reducible exact SameExcept.refl _ _
    | ((with_reducible apply covers_intro); decide)
    | ((with_reducible apply FieldsSame.intro); intro q hq; cases q <;> first | exact absurd (by decide) hq | (dsimp only [Part.same, memByte]; done) | (dsimp only [Part.same, memByte]; exact ⟨rfl, fun _ => rfl⟩) | (dsimp only [Part.same]; exact ⟨rfl, rfl⟩))
    | with_reducible apply SameExcept.fields

theorem updMc_reach (s b c) : SameExcept [.mc] s (updMc s b c) := by
  unfold updMc
  try dsimp only
  repeat' first
    | with_reducible exact SameExcept.refl _ _
    | ((with_reducible apply covers_intro); decide)
    | with_reducible apply SameExcept.step (setMc_reach _ _ _)

theorem offlineAccess_reach (a s) : SameExcept [.log] s (offlineAccess a s) := by
  unfold offlineAccess
  try dsimp only
  repeat' first
    | with_reducible exact SameExcept.refl _ _
    | ((with_reducible apply covers_intro); decide)
    | with_reducible apply SameExcept.step (logLimited_reach _ _ _ _)

theorem writeLine_reach (s b c d) : SameExcept [.log, .mem, .poison, .mc] s (writeLine s b c d) := by
  unfold writeLine
  try dsimp only
  repeat' first
    | with_reducible exact SameExcept.refl _ _
    | ((with_reducible apply covers_intro); decide)
    | with_reducible apply SameExcept.step (offlineAccess_reach _ _)
    | with_reducible apply SameExcept.step (updMc_reach _ _ _)
    | with_reducible apply SameExcept.step (memWrite_reach _ _ _)
    | split

theorem countAccess_reach (a b s) : SameExcept [.cache] s (countAccess a b s) := by
  unfold countAccess
  try dsimp only
  repeat' first
    | with_reducible exact SameExcept.refl _ _
    | ((with_reducible apply covers_intro); decide)
    | with_reducible apply SameExcept.step (setCache_reach _ _ _)
    | split

theorem flushDie_reach (a s) : SameExcept [.log, .mem, .poison, .cache, .mc] s (flushDie a s) := by
  unfold flushDie
  try dsimp only
  repeat' first
    | with_reducible exact SameExcept.refl _ _
    | ((with_reducible apply covers_intro); decide)
    | with_reducible apply SameExcept.step (writeLine_reach _ _ _ _)
    | with_reducible apply SameExcept.step (setCache_reach _ _ _)
    | with_reducible apply SameExcept.forEach
    | ((with_reducible intro _ _); try dsimp only)
    | ((with_reducible intro _); try dsimp only)

theorem flushCaches_reach (s) : SameExcept [.log, .mem, .poison, .cache, .mc] s (flushCaches s) := by
  unfold flushCaches
  try dsimp only
  repeat' first
    | with_reducible exact SameExcept.refl _ _
    | ((with_reducible apply covers_intro); decide)
    | with_reducible apply SameExcept.step (flushDie_reach _ _)

theorem stopEngines_reach (s) : SameExcept [.mc, .xfers, .net, .qs, .cores, .links, .grinders] s (stopEngines s) := by
  unfold stopEngines
  try dsimp only
  repeat' first
    | with_reducible exact SameExcept.refl _ _
    | ((with_reducible apply covers_intro); decide)
    | ((with_reducible apply FieldsSame.intro); intro q hq; cases q <;> first | exact absurd (by decide) hq | (dsimp only [Part.same, memByte]; done) | (dsimp only [Part.same, memByte]; exact ⟨rfl, fun _ => rfl⟩) | (dsimp only [Part.same]; exact ⟨rfl, rfl⟩))
    | with_reducible apply SameExcept.fields

theorem enterFaulted_reach (a s) : SameExcept [.mode, .log, .power, .isl, .pm, .mem, .poison, .cache, .mc, .xfers, .net, .qs, .cores, .links, .grinders, .courier] s (enterFaulted a s) := by
  unfold enterFaulted
  try dsimp only
  repeat' first
    | with_reducible exact SameExcept.refl _ _
    | ((with_reducible apply covers_intro); decide)
    | with_reducible apply SameExcept.step (stopEngines_reach _)
    | with_reducible apply SameExcept.step (flushCaches_reach _)
    | with_reducible apply SameExcept.step (gateMovable_reach _)
    | ((with_reducible apply FieldsSame.intro); intro q hq; cases q <;> first | exact absurd (by decide) hq | (dsimp only [Part.same, memByte]; done) | (dsimp only [Part.same, memByte]; exact ⟨rfl, fun _ => rfl⟩) | (dsimp only [Part.same]; exact ⟨rfl, rfl⟩))
    | split
    | with_reducible apply SameExcept.fields

theorem beginClean_reach (a b c s) : SameExcept [.cache] s (beginClean a b c s) := by
  unfold beginClean
  try dsimp only
  repeat' first
    | with_reducible exact SameExcept.refl _ _
    | ((with_reducible apply covers_intro); decide)
    | with_reducible apply SameExcept.step (setCache_reach _ _ _)
    | with_reducible apply SameExcept.foldl
    | with_reducible apply SameExcept.foldlFst
    | ((with_reducible intro _ _); try dsimp only)
    | ((with_reducible intro _); try dsimp only)
    | dsimp only

theorem updMargin_reach (s b c) : SameExcept [.pm] s (updMargin s b c) := by
  unfold updMargin
  try dsimp only
  repeat' first
    | with_reducible exact SameExcept.refl _ _
    | ((with_reducible apply covers_intro); decide)
    | ((with_reducible apply FieldsSame.intro); intro q hq; cases q <;> first | exact absurd (by decide) hq | (dsimp only [Part.same, memByte]; done) | (dsimp only [Part.same, memByte]; exact ⟨rfl, fun _ => rfl⟩) | (dsimp only [Part.same]; exact ⟨rfl, rfl⟩))
    | with_reducible apply SameExcept.fields

theorem retireWay_reach (a b c s) : SameExcept [.log, .plan, .pm, .cache] s (retireWay a b c s) := by
  unfold retireWay
  try dsimp only
  repeat' first
    | with_reducible exact SameExcept.refl _ _
    | ((with_reducible apply covers_intro); decide)
    | with_reducible apply SameExcept.step (setCache_reach _ _ _)
    | with_reducible apply SameExcept.step (updMargin_reach _ _ _)
    | with_reducible apply SameExcept.step (logEvent_reach _ _ _ _)
    | with_reducible apply SameExcept.step (beginClean_reach _ _ _ _)
    | ((with_reducible apply FieldsSame.intro); intro q hq; cases q <;> first | exact absurd (by decide) hq | (dsimp only [Part.same, memByte]; done) | (dsimp only [Part.same, memByte]; exact ⟨rfl, fun _ => rfl⟩) | (dsimp only [Part.same]; exact ⟨rfl, rfl⟩))
    | split
    | with_reducible apply SameExcept.fields

theorem noteWayError_reach (a b s) : SameExcept [.log, .plan, .pm, .cache] s (noteWayError a b s) := by
  unfold noteWayError
  try dsimp only
  repeat' first
    | with_reducible exact SameExcept.refl _ _
    | ((with_reducible apply covers_intro); decide)
    | with_reducible apply SameExcept.step (setCache_reach _ _ _)
    | with_reducible apply SameExcept.step (retireWay_reach _ _ _ _)
    | split

theorem tagCheck_reach (a b s) : SameExcept [.mode, .log, .plan, .power, .isl, .pm, .mem, .poison, .cache, .mc, .xfers, .net, .qs, .cores, .links, .grinders, .courier] s (tagCheck a b s).1 := by
  unfold tagCheck
  try dsimp only
  repeat' first
    | with_reducible exact SameExcept.refl _ _
    | ((with_reducible apply covers_intro); decide)
    | with_reducible apply SameExcept.step (setCache_reach _ _ _)
    | with_reducible apply SameExcept.step (retireWay_reach _ _ _ _)
    | with_reducible apply SameExcept.step (logEvent_reach _ _ _ _)
    | with_reducible apply SameExcept.step (enterFaulted_reach _ _)
    | with_reducible apply SameExcept.foldl
    | with_reducible apply SameExcept.foldlFst
    | ((with_reducible intro _ _); try dsimp only)
    | ((with_reducible intro _); try dsimp only)
    | split
    | dsimp only

theorem dramCheck_reach (s b c) : SameExcept [.log, .mem, .poison, .mc] s (dramCheck s b c) := by
  unfold dramCheck
  try dsimp only
  repeat' first
    | with_reducible exact SameExcept.refl _ _
    | ((with_reducible apply covers_intro); decide)
    | with_reducible apply SameExcept.step (memWrite_reach _ _ _)
    | with_reducible apply SameExcept.step (logEvent_reach _ _ _ _)
    | with_reducible apply SameExcept.step (setMemPoison_reach _ _ _)
    | with_reducible apply SameExcept.step (updMc_reach _ _ _)
    | split

theorem dramChecks_reach (a b s) : SameExcept [.log, .mem, .poison, .mc] s (dramChecks a b s) := by
  unfold dramChecks
  try dsimp only
  repeat' first
    | with_reducible exact SameExcept.refl _ _
    | ((with_reducible apply covers_intro); decide)
    | with_reducible apply SameExcept.step (dramCheck_reach _ _ _)
    | with_reducible apply SameExcept.forEach
    | ((with_reducible intro _ _); try dsimp only)
    | ((with_reducible intro _); try dsimp only)

theorem dramRead_reach (s b c d) : SameExcept [.log, .mem, .poison, .mc] s (dramRead s b c d).2 := by
  unfold dramRead
  try dsimp only
  repeat' first
    | with_reducible exact SameExcept.refl _ _
    | ((with_reducible apply covers_intro); decide)
    | with_reducible apply SameExcept.step (dramChecks_reach _ _ _)
    | with_reducible apply SameExcept.step (updMc_reach _ _ _)
    | dsimp only

theorem cacheError_reach (a b c s) : SameExcept [.log, .plan, .pm, .cache] s (cacheError a b c s) := by
  unfold cacheError
  try dsimp only
  repeat' first
    | with_reducible exact SameExcept.refl _ _
    | ((with_reducible apply covers_intro); decide)
    | with_reducible apply SameExcept.step (setCache_reach _ _ _)
    | with_reducible apply SameExcept.step (noteWayError_reach _ _ _)
    | with_reducible apply SameExcept.step (logEvent_reach _ _ _ _)
    | split
    | dsimp only

theorem cacheCheck_reach (a b c s) : SameExcept [.log, .plan, .pm, .cache] s (cacheCheck a b c s) := by
  unfold cacheCheck
  try dsimp only
  repeat' first
    | with_reducible exact SameExcept.refl _ _
    | ((with_reducible apply covers_intro); decide)
    | with_reducible apply SameExcept.step (cacheError_reach _ _ _ _)
    | with_reducible apply SameExcept.forEach
    | ((with_reducible intro _ _); try dsimp only)
    | ((with_reducible intro _); try dsimp only)

theorem readAllocates_reach (a b c d e s) : SameExcept [.cache] s (readAllocates a b c d e s) := by
  unfold readAllocates
  try dsimp only
  repeat' first
    | with_reducible exact SameExcept.refl _ _
    | ((with_reducible apply covers_intro); decide)
    | with_reducible apply SameExcept.step (setCache_reach _ _ _)
    | split
    | dsimp only

theorem lineRead_reach (s b c d e) : SameExcept [.log, .plan, .pm, .mem, .poison, .cache, .mc] s (lineRead s b c d e).2 := by
  unfold lineRead
  try dsimp only
  repeat' first
    | with_reducible exact SameExcept.refl _ _
    | ((with_reducible apply covers_intro); decide)
    | with_reducible apply SameExcept.step (cacheCheck_reach _ _ _ _)
    | with_reducible apply SameExcept.step (setCache_reach _ _ _)
    | with_reducible apply SameExcept.step (dramRead_reach _ _ _ _)
    | with_reducible apply SameExcept.step (readAllocates_reach _ _ _ _ _ _)
    | split
    | dsimp only

theorem dramWrite_reach (s b c d) : SameExcept [.log, .mem, .poison, .mc] s (dramWrite s b c d) := by
  unfold dramWrite
  try dsimp only
  repeat' first
    | with_reducible exact SameExcept.refl _ _
    | ((with_reducible apply covers_intro); decide)
    | with_reducible apply SameExcept.step (dramChecks_reach _ _ _)
    | with_reducible apply SameExcept.step (updMc_reach _ _ _)
    | with_reducible apply SameExcept.step (memWrite_reach _ _ _)

theorem lineWrite_reach (s b c d e) : SameExcept [.log, .plan, .pm, .mem, .poison, .cache, .mc] s (lineWrite s b c d e).2 := by
  unfold lineWrite
  try dsimp only
  repeat' first
    | with_reducible exact SameExcept.refl _ _
    | ((with_reducible apply covers_intro); decide)
    | with_reducible apply SameExcept.step (cacheCheck_reach _ _ _ _)
    | with_reducible apply SameExcept.step (setCache_reach _ _ _)
    | with_reducible apply SameExcept.step (dramWrite_reach _ _ _ _)
    | split
    | dsimp only

theorem linesReadGo_reach (a b c s) : SameExcept [.log, .plan, .pm, .mem, .poison, .cache, .mc] s (linesReadGo a b c s).2 := by
  induction c generalizing s with
  | nil => exact SameExcept.refl _ _
  | cons e t ih =>
    unfold linesReadGo
    try dsimp only
    repeat' first
      | with_reducible exact SameExcept.refl _ _
      | ((with_reducible apply covers_intro); decide)
      | with_reducible apply SameExcept.step (ih _)
      | with_reducible apply SameExcept.step (lineRead_reach _ _ _ _ _)
      | split
      | dsimp only

theorem accessRead_reach (s b c d e) : SameExcept [.log, .plan, .pm, .mem, .poison, .cache, .mc] s (accessRead s b c d e).2 := by
  unfold accessRead
  try dsimp only
  repeat' first
    | with_reducible exact SameExcept.refl _ _
    | ((with_reducible apply covers_intro); decide)
    | with_reducible apply SameExcept.step (offlineAccess_reach _ _)
    | with_reducible apply SameExcept.step (linesReadGo_reach _ _ _ _)
    | with_reducible apply SameExcept.step (countAccess_reach _ _ _)
    | split
    | dsimp only

theorem linesWriteGo_reach (a b c d e s) : SameExcept [.log, .plan, .pm, .mem, .poison, .cache, .mc] s (linesWriteGo a b c d e s).2 := by
  induction e generalizing s with
  | nil => exact SameExcept.refl _ _
  | cons e t ih =>
    unfold linesWriteGo
    try dsimp only
    repeat' first
      | with_reducible exact SameExcept.refl _ _
      | ((with_reducible apply covers_intro); decide)
      | with_reducible apply SameExcept.step (ih _)
      | with_reducible apply SameExcept.step (lineWrite_reach _ _ _ _ _)
      | split
      | dsimp only

theorem accessWrite_reach (s b c d e) : SameExcept [.log, .plan, .pm, .mem, .poison, .cache, .mc] s (accessWrite s b c d e) := by
  unfold accessWrite
  try dsimp only
  repeat' first
    | with_reducible exact SameExcept.refl _ _
    | ((with_reducible apply covers_intro); decide)
    | with_reducible apply SameExcept.step (offlineAccess_reach _ _)
    | with_reducible apply SameExcept.step (linesWriteGo_reach _ _ _ _ _ _)
    | with_reducible apply SameExcept.step (countAccess_reach _ _ _)
    | split
    | dsimp only

theorem hbmReadGo_reach (a b c s) : SameExcept [.log, .plan, .pm, .mem, .poison, .cache, .mc] s (hbmReadGo a b c s).2 := by
  induction c generalizing s with
  | nil => exact SameExcept.refl _ _
  | cons e t ih =>
    unfold hbmReadGo
    try dsimp only
    repeat' first
      | with_reducible exact SameExcept.refl _ _
      | ((with_reducible apply covers_intro); decide)
      | with_reducible apply SameExcept.step (ih _)
      | with_reducible apply SameExcept.step (accessRead_reach _ _ _ _ _)
      | split
      | dsimp only

theorem hbmRead_reach (s b c d e) : SameExcept [.log, .plan, .pm, .mem, .poison, .cache, .mc] s (hbmRead s b c d e).2 := by
  unfold hbmRead
  try dsimp only
  repeat' first
    | with_reducible exact SameExcept.refl _ _
    | ((with_reducible apply covers_intro); decide)
    | with_reducible apply SameExcept.step (hbmReadGo_reach _ _ _ _)
    | dsimp only

theorem hbmWrite_reach (s b c d e) : SameExcept [.log, .plan, .pm, .mem, .poison, .cache, .mc] s (hbmWrite s b c d e) := by
  unfold hbmWrite
  try dsimp only
  repeat' first
    | with_reducible exact SameExcept.refl _ _
    | ((with_reducible apply covers_intro); decide)
    | with_reducible apply SameExcept.step (accessWrite_reach _ _ _ _ _)
    | with_reducible apply SameExcept.forEach
    | ((with_reducible intro _ _); try dsimp only)
    | ((with_reducible intro _); try dsimp only)

theorem dramAtomic_reach (s b c d e f g) : SameExcept [.log, .mem, .poison, .cache, .mc] s (dramAtomic s b c d e f g).2 := by
  unfold dramAtomic
  try dsimp only
  repeat' first
    | with_reducible exact SameExcept.refl _ _
    | ((with_reducible apply covers_intro); decide)
    | with_reducible apply SameExcept.step (dramRead_reach _ _ _ _)
    | with_reducible apply SameExcept.step (setCache_reach _ _ _)
    | with_reducible apply SameExcept.step (updMc_reach _ _ _)
    | with_reducible apply SameExcept.step (memWrite_reach _ _ _)
    | split
    | dsimp only

theorem hbmAtomic_reach (s b c d e f g) : SameExcept [.log, .plan, .pm, .mem, .poison, .cache, .mc] s (hbmAtomic s b c d e f g).2 := by
  unfold hbmAtomic
  try dsimp only
  repeat' first
    | with_reducible exact SameExcept.refl _ _
    | ((with_reducible apply covers_intro); decide)
    | with_reducible apply SameExcept.step (offlineAccess_reach _ _)
    | with_reducible apply SameExcept.step (cacheCheck_reach _ _ _ _)
    | with_reducible apply SameExcept.step (countAccess_reach _ _ _)
    | with_reducible apply SameExcept.step (setCache_reach _ _ _)
    | with_reducible apply SameExcept.step (dramAtomic_reach _ _ _ _ _ _ _)
    | split
    | dsimp only

theorem passOlder_reach (a b c d s) : SameExcept [.cache, .mc] s (passOlder a b c d s) := by
  unfold passOlder
  try dsimp only
  repeat' first
    | with_reducible exact SameExcept.refl _ _
    | ((with_reducible apply covers_intro); decide)
    | with_reducible apply SameExcept.step (updMc_reach _ _ _)
    | with_reducible apply SameExcept.step (setCache_reach _ _ _)
    | split

theorem hbmTurn_reach (a b c s) : SameExcept [.cache, .mc] s (hbmTurn a b c s) := by
  unfold hbmTurn
  try dsimp only
  repeat' first
    | with_reducible exact SameExcept.refl _ _
    | ((with_reducible apply covers_intro); decide)
    | with_reducible apply SameExcept.step (passOlder_reach _ _ _ _ _)
    | with_reducible apply SameExcept.forEach
    | ((with_reducible intro _ _); try dsimp only)
    | ((with_reducible intro _); try dsimp only)
    | split
    | dsimp only

/-! ### The canonical form -/

theorem writeLine_stored {s : State} (b c d) (h : s.stored = true) : (writeLine s b c d).stored = true := by
  unfold writeLine
  try dsimp only
  repeat' first
    | with_reducible assumption
    | with_reducible apply SameExcept.stored (offlineAccess_reach _ _) rfl
    | with_reducible apply SameExcept.stored (updMc_reach _ _ _) rfl
    | with_reducible apply memWrite_stored
    | split

theorem flushDie_stored {s : State} (a) (h : s.stored = true) : (flushDie a s).stored = true := by
  unfold flushDie
  try dsimp only
  repeat' first
    | with_reducible assumption
    | with_reducible apply writeLine_stored
    | with_reducible apply SameExcept.stored (setCache_reach _ _ _) rfl
    | with_reducible apply forEach_stored
    | ((with_reducible intro _ _ _ _); try dsimp only)
    | ((with_reducible intro _ _ _); try dsimp only)
    | ((with_reducible intro _ _); try dsimp only)

theorem flushCaches_stored {s : State} (h : s.stored = true) : (flushCaches s).stored = true := by
  unfold flushCaches
  try dsimp only
  repeat' first
    | with_reducible assumption
    | with_reducible apply flushDie_stored

theorem enterFaulted_stored {s : State} (a) (h : s.stored = true) : (enterFaulted a s).stored = true := by
  unfold enterFaulted
  try dsimp only
  repeat' first
    | with_reducible assumption
    | with_reducible apply SameExcept.stored (stopEngines_reach _) rfl
    | with_reducible apply flushCaches_stored
    | with_reducible apply SameExcept.stored (gateMovable_reach _) rfl
    | split
    | with_reducible apply fields_stored

theorem tagCheck_stored {s : State} (a b) (h : s.stored = true) : (tagCheck a b s).1.stored = true := by
  unfold tagCheck
  try dsimp only
  repeat' first
    | with_reducible assumption
    | with_reducible apply SameExcept.stored (setCache_reach _ _ _) rfl
    | with_reducible apply SameExcept.stored (retireWay_reach _ _ _ _) rfl
    | with_reducible apply SameExcept.stored (logEvent_reach _ _ _ _) rfl
    | with_reducible apply enterFaulted_stored
    | with_reducible apply foldl_stored
    | with_reducible apply foldlFst_stored
    | ((with_reducible intro _ _ _ _); try dsimp only)
    | ((with_reducible intro _ _ _); try dsimp only)
    | ((with_reducible intro _ _); try dsimp only)
    | split
    | dsimp only

theorem dramCheck_stored {s : State} (b c) (h : s.stored = true) : (dramCheck s b c).stored = true := by
  unfold dramCheck
  try dsimp only
  repeat' first
    | with_reducible assumption
    | with_reducible apply memWrite_stored
    | with_reducible apply SameExcept.stored (logEvent_reach _ _ _ _) rfl
    | with_reducible apply setMemPoison_stored
    | with_reducible apply SameExcept.stored (updMc_reach _ _ _) rfl
    | split

theorem dramChecks_stored {s : State} (a b) (h : s.stored = true) : (dramChecks a b s).stored = true := by
  unfold dramChecks
  try dsimp only
  repeat' first
    | with_reducible assumption
    | with_reducible apply dramCheck_stored
    | with_reducible apply forEach_stored
    | ((with_reducible intro _ _ _ _); try dsimp only)
    | ((with_reducible intro _ _ _); try dsimp only)
    | ((with_reducible intro _ _); try dsimp only)

theorem dramRead_stored {s : State} (b c d) (h : s.stored = true) : (dramRead s b c d).2.stored = true := by
  unfold dramRead
  try dsimp only
  repeat' first
    | with_reducible assumption
    | with_reducible apply dramChecks_stored
    | with_reducible apply SameExcept.stored (updMc_reach _ _ _) rfl
    | dsimp only

theorem lineRead_stored {s : State} (b c d e) (h : s.stored = true) : (lineRead s b c d e).2.stored = true := by
  unfold lineRead
  try dsimp only
  repeat' first
    | with_reducible assumption
    | with_reducible apply SameExcept.stored (cacheCheck_reach _ _ _ _) rfl
    | with_reducible apply SameExcept.stored (setCache_reach _ _ _) rfl
    | with_reducible apply dramRead_stored
    | with_reducible apply SameExcept.stored (readAllocates_reach _ _ _ _ _ _) rfl
    | split
    | dsimp only

theorem dramWrite_stored {s : State} (b c d) (h : s.stored = true) : (dramWrite s b c d).stored = true := by
  unfold dramWrite
  try dsimp only
  repeat' first
    | with_reducible assumption
    | with_reducible apply dramChecks_stored
    | with_reducible apply SameExcept.stored (updMc_reach _ _ _) rfl
    | with_reducible apply memWrite_stored

theorem lineWrite_stored {s : State} (b c d e) (h : s.stored = true) : (lineWrite s b c d e).2.stored = true := by
  unfold lineWrite
  try dsimp only
  repeat' first
    | with_reducible assumption
    | with_reducible apply SameExcept.stored (cacheCheck_reach _ _ _ _) rfl
    | with_reducible apply SameExcept.stored (setCache_reach _ _ _) rfl
    | with_reducible apply dramWrite_stored
    | split
    | dsimp only

theorem linesReadGo_stored {s : State} (a b c) (h : s.stored = true) : (linesReadGo a b c s).2.stored = true := by
  induction c generalizing s with
  | nil => exact h
  | cons e t ih =>
    unfold linesReadGo
    try dsimp only
    repeat' first
      | with_reducible assumption
      | with_reducible apply ih
      | with_reducible apply lineRead_stored
      | split
      | dsimp only

theorem accessRead_stored {s : State} (b c d e) (h : s.stored = true) : (accessRead s b c d e).2.stored = true := by
  unfold accessRead
  try dsimp only
  repeat' first
    | with_reducible assumption
    | with_reducible apply SameExcept.stored (offlineAccess_reach _ _) rfl
    | with_reducible apply linesReadGo_stored
    | with_reducible apply SameExcept.stored (countAccess_reach _ _ _) rfl
    | split
    | dsimp only

theorem linesWriteGo_stored {s : State} (a b c d e) (h : s.stored = true) : (linesWriteGo a b c d e s).2.stored = true := by
  induction e generalizing s with
  | nil => exact h
  | cons e t ih =>
    unfold linesWriteGo
    try dsimp only
    repeat' first
      | with_reducible assumption
      | with_reducible apply ih
      | with_reducible apply lineWrite_stored
      | split
      | dsimp only

theorem accessWrite_stored {s : State} (b c d e) (h : s.stored = true) : (accessWrite s b c d e).stored = true := by
  unfold accessWrite
  try dsimp only
  repeat' first
    | with_reducible assumption
    | with_reducible apply SameExcept.stored (offlineAccess_reach _ _) rfl
    | with_reducible apply linesWriteGo_stored
    | with_reducible apply SameExcept.stored (countAccess_reach _ _ _) rfl
    | split
    | dsimp only

theorem hbmReadGo_stored {s : State} (a b c) (h : s.stored = true) : (hbmReadGo a b c s).2.stored = true := by
  induction c generalizing s with
  | nil => exact h
  | cons e t ih =>
    unfold hbmReadGo
    try dsimp only
    repeat' first
      | with_reducible assumption
      | with_reducible apply ih
      | with_reducible apply accessRead_stored
      | split
      | dsimp only

theorem hbmRead_stored {s : State} (b c d e) (h : s.stored = true) : (hbmRead s b c d e).2.stored = true := by
  unfold hbmRead
  try dsimp only
  repeat' first
    | with_reducible assumption
    | with_reducible apply hbmReadGo_stored
    | dsimp only

theorem hbmWrite_stored {s : State} (b c d e) (h : s.stored = true) : (hbmWrite s b c d e).stored = true := by
  unfold hbmWrite
  try dsimp only
  repeat' first
    | with_reducible assumption
    | with_reducible apply accessWrite_stored
    | with_reducible apply forEach_stored
    | ((with_reducible intro _ _ _ _); try dsimp only)
    | ((with_reducible intro _ _ _); try dsimp only)
    | ((with_reducible intro _ _); try dsimp only)

theorem dramAtomic_stored {s : State} (b c d e f g) (h : s.stored = true) : (dramAtomic s b c d e f g).2.stored = true := by
  unfold dramAtomic
  try dsimp only
  repeat' first
    | with_reducible assumption
    | with_reducible apply dramRead_stored
    | with_reducible apply SameExcept.stored (setCache_reach _ _ _) rfl
    | with_reducible apply SameExcept.stored (updMc_reach _ _ _) rfl
    | with_reducible apply memWrite_stored
    | split
    | dsimp only

theorem hbmAtomic_stored {s : State} (b c d e f g) (h : s.stored = true) : (hbmAtomic s b c d e f g).2.stored = true := by
  unfold hbmAtomic
  try dsimp only
  repeat' first
    | with_reducible assumption
    | with_reducible apply SameExcept.stored (offlineAccess_reach _ _) rfl
    | with_reducible apply SameExcept.stored (cacheCheck_reach _ _ _ _) rfl
    | with_reducible apply SameExcept.stored (countAccess_reach _ _ _) rfl
    | with_reducible apply SameExcept.stored (setCache_reach _ _ _) rfl
    | with_reducible apply dramAtomic_stored
    | split
    | dsimp only

end Sys2Proof.Machine
end

