-- ==== Sys2Proof/Laws/TileOp.lean ====
section
/-! SUPPORT. What each operation of Machine/TileOp.lean reaches: every other part of the state is as it was (`_reach`), and memory and the
marks keep their canonical form (`_stored`). -/

namespace Sys2Proof.Machine

set_option linter.unusedTactic false
set_option linter.unreachableTactic false
set_option linter.unnecessarySeqFocus false

theorem setCore_reach (s b c) : SameExcept [.cores] s (setCore s b c) := by
  unfold setCore
  try dsimp only
  repeat' first
    | with_reducible exact SameExcept.refl _ _
    | ((with_reducible apply covers_intro); decide)
    | ((with_reducible apply FieldsSame.intro); intro q hq; cases q <;> first | exact absurd (by decide) hq | (dsimp only [Part.same, memByte]; done) | (dsimp only [Part.same, memByte]; exact ⟨rfl, fun _ => rfl⟩) | (dsimp only [Part.same]; exact ⟨rfl, rfl⟩))
    | with_reducible apply SameExcept.fields

theorem updCore_reach (s b c) : SameExcept [.cores] s (updCore s b c) := by
  unfold updCore
  try dsimp only
  repeat' first
    | with_reducible exact SameExcept.refl _ _
    | ((with_reducible apply covers_intro); decide)
    | with_reducible apply SameExcept.step (setCore_reach _ _ _)

end Sys2Proof.Machine
end

