-- ==== Sys2Proof/Laws/Sem.lean ====
section
/-! SUPPORT. What each operation of Machine/Sem.lean reaches: every other part of the state is as it was (`_reach`), and memory and the
marks keep their canonical form (`_stored`). -/

namespace Sys2Proof.Machine

set_option linter.unusedTactic false
set_option linter.unreachableTactic false
set_option linter.unnecessarySeqFocus false

theorem setQ_reach (s b c) : SameExcept [.qs] s (setQ s b c) := by
  unfold setQ
  try dsimp only
  repeat' first
    | with_reducible exact SameExcept.refl _ _
    | ((with_reducible apply covers_intro); decide)
    | ((with_reducible apply FieldsSame.intro); intro q hq; cases q <;> first | exact absurd (by decide) hq | (dsimp only [Part.same, memByte]; done) | (dsimp only [Part.same, memByte]; exact ⟨rfl, fun _ => rfl⟩) | (dsimp only [Part.same]; exact ⟨rfl, rfl⟩))
    | with_reducible apply SameExcept.fields

theorem updQ_reach (s b c) : SameExcept [.qs] s (updQ s b c) := by
  unfold updQ
  try dsimp only
  repeat' first
    | with_reducible exact SameExcept.refl _ _
    | ((with_reducible apply covers_intro); decide)
    | with_reducible apply SameExcept.step (setQ_reach _ _ _)

theorem setInv_reach (s b c) : SameExcept [.qs] s (setInv s b c) := by
  unfold setInv
  try dsimp only
  repeat' first
    | with_reducible exact SameExcept.refl _ _
    | ((with_reducible apply covers_intro); decide)
    | ((with_reducible apply FieldsSame.intro); intro q hq; cases q <;> first | exact absurd (by decide) hq | (dsimp only [Part.same, memByte]; done) | (dsimp only [Part.same, memByte]; exact ⟨rfl, fun _ => rfl⟩) | (dsimp only [Part.same]; exact ⟨rfl, rfl⟩))
    | with_reducible apply SameExcept.fields

theorem updInv_reach (s b c) : SameExcept [.qs] s (updInv s b c) := by
  unfold updInv
  try dsimp only
  repeat' first
    | with_reducible exact SameExcept.refl _ _
    | ((with_reducible apply covers_intro); decide)
    | with_reducible apply SameExcept.step (setInv_reach _ _ _)
    | split
    | dsimp only

theorem refreshBlocked_reach (a s) : SameExcept [.qs] s (refreshBlocked a s) := by
  unfold refreshBlocked
  try dsimp only
  repeat' first
    | with_reducible exact SameExcept.refl _ _
    | ((with_reducible apply covers_intro); decide)
    | with_reducible apply SameExcept.step (updInv_reach _ _ _)
    | split

theorem setSem_reach (s b c) : SameExcept [.sems] s (setSem s b c) := by
  unfold setSem
  try dsimp only
  repeat' first
    | with_reducible exact SameExcept.refl _ _
    | ((with_reducible apply covers_intro); decide)
    | ((with_reducible apply FieldsSame.intro); intro q hq; cases q <;> first | exact absurd (by decide) hq | (dsimp only [Part.same, memByte]; done) | (dsimp only [Part.same, memByte]; exact ⟨rfl, fun _ => rfl⟩) | (dsimp only [Part.same]; exact ⟨rfl, rfl⟩))
    | with_reducible apply SameExcept.fields

theorem grantTo_reach (a s) : SameExcept [.isl, .qs, .cores, .links, .grinders] s (grantTo a s) := by
  unfold grantTo
  try dsimp only
  repeat' first
    | with_reducible exact SameExcept.refl _ _
    | ((with_reducible apply covers_intro); decide)
    | with_reducible apply SameExcept.step (setCore_reach _ _ _)
    | with_reducible apply SameExcept.step (updIsl_reach _ _ _)
    | with_reducible apply SameExcept.step (refreshBlocked_reach _ _)
    | ((with_reducible apply FieldsSame.intro); intro q hq; cases q <;> first | exact absurd (by decide) hq | (dsimp only [Part.same, memByte]; done) | (dsimp only [Part.same, memByte]; exact ⟨rfl, fun _ => rfl⟩) | (dsimp only [Part.same]; exact ⟨rfl, rfl⟩))
    | split
    | dsimp only
    | with_reducible apply SameExcept.fields

theorem semSettle_reach (a b c s) : SameExcept [.isl, .qs, .sems, .cores, .links, .grinders] s (semSettle a b c s) := by
  unfold semSettle
  try dsimp only
  repeat' first
    | with_reducible exact SameExcept.refl _ _
    | ((with_reducible apply covers_intro); decide)
    | with_reducible apply SameExcept.step (grantTo_reach _ _)
    | with_reducible apply SameExcept.step (setSem_reach _ _ _)
    | with_reducible apply SameExcept.forEach
    | ((with_reducible intro _ _); try dsimp only)
    | ((with_reducible intro _); try dsimp only)
    | split
    | dsimp only

theorem semPost_reach (a b s) : SameExcept [.log, .isl, .qs, .sems, .cores, .links, .grinders] s (semPost a b s) := by
  unfold semPost
  try dsimp only
  repeat' first
    | with_reducible exact SameExcept.refl _ _
    | ((with_reducible apply covers_intro); decide)
    | with_reducible apply SameExcept.step (logEvent_reach _ _ _ _)
    | with_reducible apply SameExcept.step (semSettle_reach _ _ _ _)
    | split

theorem semSet_reach (a b s) : SameExcept [.isl, .qs, .sems, .cores, .links, .grinders] s (semSet a b s) := by
  unfold semSet
  try dsimp only
  repeat' first
    | with_reducible exact SameExcept.refl _ _
    | ((with_reducible apply covers_intro); decide)
    | with_reducible apply SameExcept.step (semSettle_reach _ _ _ _)

theorem semTake_reach (a b c s) : SameExcept [.sems] s (semTake a b c s).2 := by
  unfold semTake
  try dsimp only
  repeat' first
    | with_reducible exact SameExcept.refl _ _
    | ((with_reducible apply covers_intro); decide)
    | with_reducible apply SameExcept.step (setSem_reach _ _ _)
    | split
    | dsimp only

theorem semLeave_reach (a b s) : SameExcept [.isl, .qs, .sems, .cores, .links, .grinders] s (semLeave a b s) := by
  unfold semLeave
  try dsimp only
  repeat' first
    | with_reducible exact SameExcept.refl _ _
    | ((with_reducible apply covers_intro); decide)
    | with_reducible apply SameExcept.step (semSettle_reach _ _ _ _)

theorem setLink_reach (s b c) : SameExcept [.links] s (setLink s b c) := by
  unfold setLink
  try dsimp only
  repeat' first
    | with_reducible exact SameExcept.refl _ _
    | ((with_reducible apply covers_intro); decide)
    | ((with_reducible apply FieldsSame.intro); intro q hq; cases q <;> first | exact absurd (by decide) hq | (dsimp only [Part.same, memByte]; done) | (dsimp only [Part.same, memByte]; exact ⟨rfl, fun _ => rfl⟩) | (dsimp only [Part.same]; exact ⟨rfl, rfl⟩))
    | with_reducible apply SameExcept.fields

theorem resetEnd_reach (a b s) : SameExcept [.grinders] s (resetEnd a b s) := by
  unfold resetEnd
  try dsimp only
  repeat' first
    | with_reducible exact SameExcept.refl _ _
    | ((with_reducible apply covers_intro); decide)
    | ((with_reducible apply FieldsSame.intro); intro q hq; cases q <;> first | exact absurd (by decide) hq | (dsimp only [Part.same, memByte]; done) | (dsimp only [Part.same, memByte]; exact ⟨rfl, fun _ => rfl⟩) | (dsimp only [Part.same]; exact ⟨rfl, rfl⟩))
    | split
    | dsimp only
    | with_reducible apply SameExcept.fields

theorem resetEnds_reach (a b s) : SameExcept [.grinders] s (resetEnds a b s) := by
  unfold resetEnds
  try dsimp only
  repeat' first
    | with_reducible exact SameExcept.refl _ _
    | ((with_reducible apply covers_intro); decide)
    | with_reducible apply SameExcept.step (resetEnd_reach _ _ _)

theorem resetLinkSems_reach (a b s) : SameExcept [.sems, .grinders] s (resetLinkSems a b s) := by
  unfold resetLinkSems
  try dsimp only
  repeat' first
    | with_reducible exact SameExcept.refl _ _
    | ((with_reducible apply covers_intro); decide)
    | with_reducible apply SameExcept.step (resetEnds_reach _ _ _)
    | with_reducible apply SameExcept.step (setSem_reach _ _ _)

theorem sendScr_reach (a b c s) : SameExcept [.isl, .mem, .poison] s (sendScr a b c s) := by
  unfold sendScr
  try dsimp only
  repeat' first
    | with_reducible exact SameExcept.refl _ _
    | ((with_reducible apply covers_intro); decide)
    | with_reducible apply SameExcept.step (scrWrite_reach _ _ _ _)
    | with_reducible apply SameExcept.step (wakeIsl_reach _ _)
    | split

theorem portWrite_reach (a b c d s) : SameExcept [.isl, .mem, .poison] s (portWrite a b c d s) := by
  unfold portWrite
  try dsimp only
  repeat' first
    | with_reducible exact SameExcept.refl _ _
    | ((with_reducible apply covers_intro); decide)
    | with_reducible apply SameExcept.step (scrWrite_reach _ _ _ _)
    | with_reducible apply SameExcept.step (sendScr_reach _ _ _ _)
    | with_reducible apply SameExcept.forEach
    | ((with_reducible intro _ _); try dsimp only)
    | ((with_reducible intro _); try dsimp only)
    | split
    | dsimp only

theorem retireOp_reach (a b s) : SameExcept [.qs, .cores] s (retireOp a b s) := by
  unfold retireOp
  try dsimp only
  repeat' first
    | with_reducible exact SameExcept.refl _ _
    | ((with_reducible apply covers_intro); decide)
    | with_reducible apply SameExcept.step (setCore_reach _ _ _)
    | with_reducible apply SameExcept.step (refreshBlocked_reach _ _)
    | split
    | dsimp only

theorem raiseFlags_reach (a b s) : SameExcept [.qs, .cores] s (raiseFlags a b s) := by
  unfold raiseFlags
  try dsimp only
  repeat' first
    | with_reducible exact SameExcept.refl _ _
    | ((with_reducible apply covers_intro); decide)
    | with_reducible apply SameExcept.step (setCore_reach _ _ _)
    | with_reducible apply SameExcept.step (updInv_reach _ _ _)
    | split
    | dsimp only

theorem dropGone_reach (a s) : SameExcept [.xfers] s (dropGone a s) := by
  unfold dropGone
  try dsimp only
  repeat' first
    | with_reducible exact SameExcept.refl _ _
    | ((with_reducible apply covers_intro); decide)
    | ((with_reducible apply FieldsSame.intro); intro q hq; cases q <;> first | exact absurd (by decide) hq | (dsimp only [Part.same, memByte]; done) | (dsimp only [Part.same, memByte]; exact ⟨rfl, fun _ => rfl⟩) | (dsimp only [Part.same]; exact ⟨rfl, rfl⟩))
    | split
    | dsimp only
    | with_reducible apply SameExcept.fields

theorem stopCore_reach (a s) : SameExcept [.isl, .xfers, .qs, .sems, .cores, .links, .grinders] s (stopCore a s) := by
  unfold stopCore
  try dsimp only
  repeat' first
    | with_reducible exact SameExcept.refl _ _
    | ((with_reducible apply covers_intro); decide)
    | with_reducible apply SameExcept.step (semLeave_reach _ _ _)
    | with_reducible apply SameExcept.step (dropGone_reach _ _)
    | with_reducible apply SameExcept.step (updCore_reach _ _ _)
    | split
    | dsimp only

theorem endEarly_reach (a b c s) : SameExcept [.isl, .xfers, .qs, .sems, .cores, .links, .grinders] s (endEarly a b c s) := by
  unfold endEarly
  try dsimp only
  repeat' first
    | with_reducible exact SameExcept.refl _ _
    | ((with_reducible apply covers_intro); decide)
    | with_reducible apply SameExcept.step (setInv_reach _ _ _)
    | with_reducible apply SameExcept.step (stopCore_reach _ _)
    | with_reducible apply SameExcept.forEach
    | ((with_reducible apply FieldsSame.intro); intro q hq; cases q <;> first | exact absurd (by decide) hq | (dsimp only [Part.same, memByte]; done) | (dsimp only [Part.same, memByte]; exact ⟨rfl, fun _ => rfl⟩) | (dsimp only [Part.same]; exact ⟨rfl, rfl⟩))
    | ((with_reducible intro _ _); try dsimp only)
    | ((with_reducible intro _); try dsimp only)
    | split
    | dsimp only
    | with_reducible apply SameExcept.fields

theorem recordFault_reach (a b c d s) : SameExcept [.cores] s (recordFault a b c d s) := by
  unfold recordFault
  try dsimp only
  repeat' first
    | with_reducible exact SameExcept.refl _ _
    | ((with_reducible apply covers_intro); decide)
    | with_reducible apply SameExcept.step (updCore_reach _ _ _)
    | split

theorem tileFault_reach (a b c d s) : SameExcept [.log, .isl, .xfers, .qs, .sems, .cores, .links, .grinders] s (tileFault a b c d s) := by
  unfold tileFault
  try dsimp only
  repeat' first
    | with_reducible exact SameExcept.refl _ _
    | ((with_reducible apply covers_intro); decide)
    | with_reducible apply SameExcept.step (recordFault_reach _ _ _ _ _)
    | with_reducible apply SameExcept.step (endEarly_reach _ _ _ _)
    | with_reducible apply SameExcept.step (logEvent_reach _ _ _ _)
    | split
    | dsimp only

/-! ### The canonical form -/

theorem sendScr_stored {s : State} (a b c) (h : s.stored = true) : (sendScr a b c s).stored = true := by
  unfold sendScr
  try dsimp only
  repeat' first
    | with_reducible assumption
    | with_reducible apply scrWrite_stored
    | with_reducible apply SameExcept.stored (wakeIsl_reach _ _) rfl
    | split

theorem portWrite_stored {s : State} (a b c d) (h : s.stored = true) : (portWrite a b c d s).stored = true := by
  unfold portWrite
  try dsimp only
  repeat' first
    | with_reducible assumption
    | with_reducible apply scrWrite_stored
    | with_reducible apply sendScr_stored
    | with_reducible apply forEach_stored
    | ((with_reducible intro _ _ _ _); try dsimp only)
    | ((with_reducible intro _ _ _); try dsimp only)
    | ((with_reducible intro _ _); try dsimp only)
    | split
    | dsimp only

end Sys2Proof.Machine
end

