-- ==== Sys2Proof/Laws/Xfer.lean ====
section
/-! SUPPORT. What each operation of Machine/Xfer.lean reaches: every other part of the state is as it was (`_reach`), and memory and the
marks keep their canonical form (`_stored`). -/

namespace Sys2Proof.Machine

set_option linter.unusedTactic false
set_option linter.unreachableTactic false
set_option linter.unnecessarySeqFocus false

theorem cacheFill_reach (s b c d) : SameExcept [.seg] s (cacheFill s b c d) := by
  unfold cacheFill
  try dsimp only
  repeat' first
    | with_reducible exact SameExcept.refl _ _
    | ((with_reducible apply covers_intro); decide)
    | with_reducible apply SameExcept.foldl
    | with_reducible apply SameExcept.foldlFst
    | ((with_reducible apply FieldsSame.intro); intro q hq; cases q <;> first | exact absurd (by decide) hq | (dsimp only [Part.same, memByte]; done) | (dsimp only [Part.same, memByte]; exact ⟨rfl, fun _ => rfl⟩) | (dsimp only [Part.same]; exact ⟨rfl, rfl⟩))
    | ((with_reducible intro _ _); try dsimp only)
    | ((with_reducible intro _); try dsimp only)
    | split
    | dsimp only
    | with_reducible apply SameExcept.fields

theorem setXfer_reach (s b c) : SameExcept [.xfers] s (setXfer s b c) := by
  unfold setXfer
  try dsimp only
  repeat' first
    | with_reducible exact SameExcept.refl _ _
    | ((with_reducible apply covers_intro); decide)
    | ((with_reducible apply FieldsSame.intro); intro q hq; cases q <;> first | exact absurd (by decide) hq | (dsimp only [Part.same, memByte]; done) | (dsimp only [Part.same, memByte]; exact ⟨rfl, fun _ => rfl⟩) | (dsimp only [Part.same]; exact ⟨rfl, rfl⟩))
    | with_reducible apply SameExcept.fields

theorem delXfer_reach (s b) : SameExcept [.xfers] s (delXfer s b) := by
  unfold delXfer
  try dsimp only
  repeat' first
    | with_reducible exact SameExcept.refl _ _
    | ((with_reducible apply covers_intro); decide)
    | ((with_reducible apply FieldsSame.intro); intro q hq; cases q <;> first | exact absurd (by decide) hq | (dsimp only [Part.same, memByte]; done) | (dsimp only [Part.same, memByte]; exact ⟨rfl, fun _ => rfl⟩) | (dsimp only [Part.same]; exact ⟨rfl, rfl⟩))
    | with_reducible apply SameExcept.fields

theorem updPiece_reach (s b c d) : SameExcept [.xfers] s (updPiece s b c d) := by
  unfold updPiece
  try dsimp only
  repeat' first
    | with_reducible exact SameExcept.refl _ _
    | ((with_reducible apply covers_intro); decide)
    | with_reducible apply SameExcept.step (setXfer_reach _ _ _)
    | split
    | dsimp only

theorem countPoison_reach (a b c s) : SameExcept [.qs] s (countPoison a b c s) := by
  unfold countPoison
  try dsimp only
  repeat' first
    | with_reducible exact SameExcept.refl _ _
    | ((with_reducible apply covers_intro); decide)
    | with_reducible apply SameExcept.step (updInv_reach _ _ _)
    | split

theorem raiseFault_reach (a b c d e f s) : SameExcept [.log, .seg] s (raiseFault a b c d e f s).2 := by
  unfold raiseFault
  try dsimp only
  repeat' first
    | with_reducible exact SameExcept.refl _ _
    | ((with_reducible apply covers_intro); decide)
    | with_reducible apply SameExcept.step (logLimited_reach _ _ _ _)
    | ((with_reducible apply FieldsSame.intro); intro q hq; cases q <;> first | exact absurd (by decide) hq | (dsimp only [Part.same, memByte]; done) | (dsimp only [Part.same, memByte]; exact ⟨rfl, fun _ => rfl⟩) | (dsimp only [Part.same]; exact ⟨rfl, rfl⟩))
    | split
    | dsimp only
    | with_reducible apply SameExcept.fields

theorem poisonPiece_reach (a b s) : SameExcept [.isl, .mem, .poison, .xfers] s (poisonPiece a b s) := by
  unfold poisonPiece
  try dsimp only
  repeat' first
    | with_reducible exact SameExcept.refl _ _
    | ((with_reducible apply covers_intro); decide)
    | with_reducible apply SameExcept.step (setXfer_reach _ _ _)
    | with_reducible apply SameExcept.step (portWrite_reach _ _ _ _ _)
    | with_reducible apply SameExcept.step (poisonRange_reach _ _ _)
    | split
    | dsimp only

theorem endPiece_reach (a b s) : SameExcept [.isl, .mem, .poison, .xfers] s (endPiece a b s) := by
  unfold endPiece
  try dsimp only
  repeat' first
    | with_reducible exact SameExcept.refl _ _
    | ((with_reducible apply covers_intro); decide)
    | with_reducible apply SameExcept.step (updPiece_reach _ _ _ _)
    | with_reducible apply SameExcept.step (poisonPiece_reach _ _ _)
    | split
    | dsimp only

theorem startMov_reach (a s) : SameExcept [.cores] s (startMov a s) := by
  unfold startMov
  try dsimp only
  repeat' first
    | with_reducible exact SameExcept.refl _ _
    | ((with_reducible apply covers_intro); decide)
    | with_reducible apply SameExcept.step (updCore_reach _ _ _)
    | split
    | dsimp only

theorem sendPiece_reach (a b c s) : SameExcept [.log, .isl, .mem, .poison, .seg, .xfers, .net, .qs, .sems, .cores, .links, .grinders] s (sendPiece a b c s) := by
  unfold sendPiece
  try dsimp only
  repeat' first
    | with_reducible exact SameExcept.refl _ _
    | ((with_reducible apply covers_intro); decide)
    | with_reducible apply SameExcept.step (raiseFault_reach _ _ _ _ _ _ _)
    | with_reducible apply SameExcept.step (updPiece_reach _ _ _ _)
    | with_reducible apply SameExcept.step (endEarly_reach _ _ _ _)
    | with_reducible apply SameExcept.step (endPiece_reach _ _ _)
    | with_reducible apply SameExcept.step (startMov_reach _ _)
    | ((with_reducible apply FieldsSame.intro); intro q hq; cases q <;> first | exact absurd (by decide) hq | (dsimp only [Part.same, memByte]; done) | (dsimp only [Part.same, memByte]; exact ⟨rfl, fun _ => rfl⟩) | (dsimp only [Part.same]; exact ⟨rfl, rfl⟩))
    | split
    | dsimp only
    | with_reducible apply SameExcept.fields

theorem startPiece_reach (a b s) : SameExcept [.log, .isl, .mem, .poison, .seg, .xfers, .net, .qs, .sems, .cores, .links, .grinders] s (startPiece a b s) := by
  unfold startPiece
  try dsimp only
  repeat' first
    | with_reducible exact SameExcept.refl _ _
    | ((with_reducible apply covers_intro); decide)
    | with_reducible apply SameExcept.step (updPiece_reach _ _ _ _)
    | with_reducible apply SameExcept.step (sendPiece_reach _ _ _ _)
    | ((with_reducible apply FieldsSame.intro); intro q hq; cases q <;> first | exact absurd (by decide) hq | (dsimp only [Part.same, memByte]; done) | (dsimp only [Part.same, memByte]; exact ⟨rfl, fun _ => rfl⟩) | (dsimp only [Part.same]; exact ⟨rfl, rfl⟩))
    | split
    | dsimp only
    | with_reducible apply SameExcept.fields

theorem startWaiting_reach (a s) : SameExcept [.log, .isl, .mem, .poison, .seg, .xfers, .net, .qs, .sems, .cores, .links, .grinders] s (startWaiting a s) := by
  unfold startWaiting
  try dsimp only
  repeat' first
    | with_reducible exact SameExcept.refl _ _
    | ((with_reducible apply covers_intro); decide)
    | with_reducible apply SameExcept.step (startPiece_reach _ _ _)
    | with_reducible apply SameExcept.forEach
    | ((with_reducible intro _ _); try dsimp only)
    | ((with_reducible intro _); try dsimp only)
    | split
    | dsimp only

theorem pumpMov_reach (a b s) : SameExcept [.log, .isl, .mem, .poison, .seg, .xfers, .net, .qs, .sems, .cores, .links, .grinders] s (pumpMov a b s) := by
  unfold pumpMov
  try dsimp only
  repeat' first
    | with_reducible exact SameExcept.refl _ _
    | ((with_reducible apply covers_intro); decide)
    | with_reducible apply SameExcept.step (startMov_reach _ _)
    | with_reducible apply SameExcept.step (startWaiting_reach _ _)
    | split
    | dsimp only

theorem pumpMovs_reach (a s) : SameExcept [.log, .isl, .mem, .poison, .seg, .xfers, .net, .qs, .sems, .cores, .links, .grinders] s (pumpMovs a s) := by
  unfold pumpMovs
  try dsimp only
  repeat' first
    | with_reducible exact SameExcept.refl _ _
    | ((with_reducible apply covers_intro); decide)
    | with_reducible apply SameExcept.step (pumpMov_reach _ _ _)
    | with_reducible apply SameExcept.forEach
    | ((with_reducible intro _ _); try dsimp only)
    | ((with_reducible intro _); try dsimp only)

theorem pumpXfer_reach (a s) : SameExcept [.log, .isl, .mem, .poison, .seg, .xfers, .net, .qs, .sems, .cores, .links, .grinders] s (pumpXfer a s) := by
  unfold pumpXfer
  try dsimp only
  repeat' first
    | with_reducible exact SameExcept.refl _ _
    | ((with_reducible apply covers_intro); decide)
    | with_reducible apply SameExcept.step (pumpMovs_reach _ _)
    | split
    | dsimp only

theorem newXfer_reach (a s) : SameExcept [.log, .isl, .mem, .poison, .seg, .xfers, .net, .qs, .sems, .cores, .links, .grinders] s (newXfer a s).2 := by
  unfold newXfer
  try dsimp only
  repeat' first
    | with_reducible exact SameExcept.refl _ _
    | ((with_reducible apply covers_intro); decide)
    | with_reducible apply SameExcept.step (setXfer_reach _ _ _)
    | with_reducible apply SameExcept.step (startPiece_reach _ _ _)
    | with_reducible apply SameExcept.forEach
    | ((with_reducible apply FieldsSame.intro); intro q hq; cases q <;> first | exact absurd (by decide) hq | (dsimp only [Part.same, memByte]; done) | (dsimp only [Part.same, memByte]; exact ⟨rfl, fun _ => rfl⟩) | (dsimp only [Part.same]; exact ⟨rfl, rfl⟩))
    | ((with_reducible intro _ _); try dsimp only)
    | ((with_reducible intro _); try dsimp only)
    | dsimp only
    | with_reducible apply SameExcept.fields

theorem landPiece_reach (a b c s) : SameExcept [.isl, .mem, .poison, .xfers, .qs] s (landPiece a b c s) := by
  unfold landPiece
  try dsimp only
  repeat' first
    | with_reducible exact SameExcept.refl _ _
    | ((with_reducible apply covers_intro); decide)
    | with_reducible apply SameExcept.step (countPoison_reach _ _ _ _)
    | with_reducible apply SameExcept.step (setXfer_reach _ _ _)
    | with_reducible apply SameExcept.step (portWrite_reach _ _ _ _ _)
    | with_reducible apply SameExcept.step (updPiece_reach _ _ _ _)
    | split
    | dsimp only

theorem failHeld_reach (a s) : SameExcept [.isl, .mem, .poison, .xfers, .qs, .sems, .cores, .links, .grinders] s (failHeld a s) := by
  unfold failHeld
  try dsimp only
  repeat' first
    | with_reducible exact SameExcept.refl _ _
    | ((with_reducible apply covers_intro); decide)
    | with_reducible apply SameExcept.step (startMov_reach _ _)
    | with_reducible apply SameExcept.step (endPiece_reach _ _ _)
    | with_reducible apply SameExcept.step (setXfer_reach _ _ _)
    | with_reducible apply SameExcept.step (endEarly_reach _ _ _ _)
    | with_reducible apply SameExcept.forEach
    | ((with_reducible intro _ _); try dsimp only)
    | ((with_reducible intro _); try dsimp only)
    | split
    | dsimp only

theorem retryUnrecorded_reach (s) : SameExcept [.log, .isl, .mem, .poison, .seg, .xfers, .net, .qs, .sems, .cores, .links, .grinders] s (retryUnrecorded s) := by
  unfold retryUnrecorded
  try dsimp only
  repeat' first
    | with_reducible exact SameExcept.refl _ _
    | ((with_reducible apply covers_intro); decide)
    | with_reducible apply SameExcept.step (pumpXfer_reach _ _)
    | with_reducible apply SameExcept.step (startPiece_reach _ _ _)
    | with_reducible apply SameExcept.forEach
    | ((with_reducible intro _ _); try dsimp only)
    | ((with_reducible intro _); try dsimp only)
    | split
    | dsimp only

theorem freeRecord_reach (a s) : SameExcept [.log, .isl, .mem, .poison, .seg, .xfers, .net, .qs, .sems, .cores, .links, .grinders] s (freeRecord a s) := by
  unfold freeRecord
  try dsimp only
  repeat' first
    | with_reducible exact SameExcept.refl _ _
    | ((with_reducible apply covers_intro); decide)
    | with_reducible apply SameExcept.step (retryUnrecorded_reach _)
    | ((with_reducible apply FieldsSame.intro); intro q hq; cases q <;> first | exact absurd (by decide) hq | (dsimp only [Part.same, memByte]; done) | (dsimp only [Part.same, memByte]; exact ⟨rfl, fun _ => rfl⟩) | (dsimp only [Part.same]; exact ⟨rfl, rfl⟩))
    | with_reducible apply SameExcept.fields

theorem failRecord_reach (a s) : SameExcept [.log, .isl, .mem, .poison, .seg, .xfers, .net, .qs, .sems, .cores, .links, .grinders] s (failRecord a s) := by
  unfold failRecord
  try dsimp only
  repeat' first
    | with_reducible exact SameExcept.refl _ _
    | ((with_reducible apply covers_intro); decide)
    | with_reducible apply SameExcept.step (freeRecord_reach _ _)
    | with_reducible apply SameExcept.step (failHeld_reach _ _)

theorem settleRecord_reach (a s) : SameExcept [.log, .isl, .mem, .poison, .seg, .xfers, .net, .qs, .sems, .cores, .links, .grinders] s (settleRecord a s) := by
  unfold settleRecord
  try dsimp only
  repeat' first
    | with_reducible exact SameExcept.refl _ _
    | ((with_reducible apply covers_intro); decide)
    | with_reducible apply SameExcept.step (freeRecord_reach _ _)
    | with_reducible apply SameExcept.foldl
    | with_reducible apply SameExcept.foldlFst
    | ((with_reducible apply FieldsSame.intro); intro q hq; cases q <;> first | exact absurd (by decide) hq | (dsimp only [Part.same, memByte]; done) | (dsimp only [Part.same, memByte]; exact ⟨rfl, fun _ => rfl⟩) | (dsimp only [Part.same]; exact ⟨rfl, rfl⟩))
    | ((with_reducible intro _ _); try dsimp only)
    | ((with_reducible intro _); try dsimp only)
    | split
    | dsimp only
    | with_reducible apply SameExcept.fields

theorem settleRecords_reach (s) : SameExcept [.log, .isl, .mem, .poison, .seg, .xfers, .net, .qs, .sems, .cores, .links, .grinders] s (settleRecords s) := by
  unfold settleRecords
  try dsimp only
  repeat' first
    | with_reducible exact SameExcept.refl _ _
    | ((with_reducible apply covers_intro); decide)
    | with_reducible apply SameExcept.step (settleRecord_reach _ _)
    | with_reducible apply SameExcept.forEach
    | ((with_reducible intro _ _); try dsimp only)
    | ((with_reducible intro _); try dsimp only)

theorem retryRecord_reach (a s) : SameExcept [.log, .isl, .mem, .poison, .seg, .xfers, .net, .qs, .sems, .cores, .links, .grinders] s (retryRecord a s) := by
  unfold retryRecord
  try dsimp only
  repeat' first
    | with_reducible exact SameExcept.refl _ _
    | ((with_reducible apply covers_intro); decide)
    | with_reducible apply SameExcept.step (settleRecord_reach _ _)
    | with_reducible apply SameExcept.step (pumpXfer_reach _ _)
    | with_reducible apply SameExcept.step (startPiece_reach _ _ _)
    | with_reducible apply SameExcept.forEach
    | ((with_reducible apply FieldsSame.intro); intro q hq; cases q <;> first | exact absurd (by decide) hq | (dsimp only [Part.same, memByte]; done) | (dsimp only [Part.same, memByte]; exact ⟨rfl, fun _ => rfl⟩) | (dsimp only [Part.same]; exact ⟨rfl, rfl⟩))
    | ((with_reducible intro _ _); try dsimp only)
    | ((with_reducible intro _); try dsimp only)
    | split
    | dsimp only
    | with_reducible apply SameExcept.fields

theorem cancelXfer_reach (a s) : SameExcept [.log, .isl, .mem, .poison, .seg, .xfers, .net, .host, .qs, .sems, .cores, .links, .grinders] s (cancelXfer a s) := by
  unfold cancelXfer
  try dsimp only
  repeat' first
    | with_reducible exact SameExcept.refl _ _
    | ((with_reducible apply covers_intro); decide)
    | with_reducible apply SameExcept.step (endPiece_reach _ _ _)
    | with_reducible apply SameExcept.step (startMov_reach _ _)
    | with_reducible apply SameExcept.step (setXfer_reach _ _ _)
    | with_reducible apply SameExcept.step (settleRecords_reach _)
    | with_reducible apply SameExcept.step (pumpXfer_reach _ _)
    | with_reducible apply SameExcept.step (logEvent_reach _ _ _ _)
    | with_reducible apply SameExcept.forEach
    | ((with_reducible apply FieldsSame.intro); intro q hq; cases q <;> first | exact absurd (by decide) hq | (dsimp only [Part.same, memByte]; done) | (dsimp only [Part.same, memByte]; exact ⟨rfl, fun _ => rfl⟩) | (dsimp only [Part.same]; exact ⟨rfl, rfl⟩))
    | ((with_reducible intro _ _); try dsimp only)
    | ((with_reducible intro _); try dsimp only)
    | split
    | dsimp only
    | with_reducible apply SameExcept.fields

theorem countMiss_reach (a s) : SameExcept [.seg] s (countMiss a s) := by
  unfold countMiss
  try dsimp only
  repeat' first
    | with_reducible exact SameExcept.refl _ _
    | ((with_reducible apply covers_intro); decide)
    | ((with_reducible apply FieldsSame.intro); intro q hq; cases q <;> first | exact absurd (by decide) hq | (dsimp only [Part.same, memByte]; done) | (dsimp only [Part.same, memByte]; exact ⟨rfl, fun _ => rfl⟩) | (dsimp only [Part.same]; exact ⟨rfl, rfl⟩))
    | with_reducible apply SameExcept.fields

theorem fillMiss_reach (a b s) : SameExcept [.log, .isl, .mem, .poison, .seg, .xfers, .net, .qs, .sems, .cores, .links, .grinders] s (fillMiss a b s) := by
  unfold fillMiss
  try dsimp only
  repeat' first
    | with_reducible exact SameExcept.refl _ _
    | ((with_reducible apply covers_intro); decide)
    | with_reducible apply SameExcept.step (countMiss_reach _ _)
    | with_reducible apply SameExcept.step (settleRecords_reach _)
    | with_reducible apply SameExcept.step (raiseFault_reach _ _ _ _ _ _ _)
    | with_reducible apply SameExcept.step (updPiece_reach _ _ _ _)
    | with_reducible apply SameExcept.step (pumpXfer_reach _ _)
    | with_reducible apply SameExcept.step (startPiece_reach _ _ _)
    | with_reducible apply SameExcept.step (cacheFill_reach _ _ _ _)
    | split
    | dsimp only

theorem prefetch_reach (a b c s) : SameExcept [.seg] s (prefetch a b c s) := by
  unfold prefetch
  try dsimp only
  repeat' first
    | with_reducible exact SameExcept.refl _ _
    | ((with_reducible apply covers_intro); decide)
    | with_reducible apply SameExcept.step (cacheFill_reach _ _ _ _)
    | split
    | dsimp only

theorem translate_reach (a b c s) : SameExcept [.seg] s (translate a b c s).2 := by
  unfold translate
  try dsimp only
  repeat' first
    | with_reducible exact SameExcept.refl _ _
    | ((with_reducible apply covers_intro); decide)
    | with_reducible apply SameExcept.step (countMiss_reach _ _)
    | with_reducible apply SameExcept.step (cacheFill_reach _ _ _ _)
    | split
    | dsimp only

/-! ### The canonical form -/

theorem poisonPiece_stored {s : State} (a b) (h : s.stored = true) : (poisonPiece a b s).stored = true := by
  unfold poisonPiece
  try dsimp only
  repeat' first
    | with_reducible assumption
    | with_reducible apply SameExcept.stored (setXfer_reach _ _ _) rfl
    | with_reducible apply portWrite_stored
    | with_reducible apply poisonRange_stored
    | split
    | dsimp only

theorem endPiece_stored {s : State} (a b) (h : s.stored = true) : (endPiece a b s).stored = true := by
  unfold endPiece
  try dsimp only
  repeat' first
    | with_reducible assumption
    | with_reducible apply SameExcept.stored (updPiece_reach _ _ _ _) rfl
    | with_reducible apply poisonPiece_stored
    | split
    | dsimp only

theorem sendPiece_stored {s : State} (a b c) (h : s.stored = true) : (sendPiece a b c s).stored = true := by
  unfold sendPiece
  try dsimp only
  repeat' first
    | with_reducible assumption
    | with_reducible apply SameExcept.stored (raiseFault_reach _ _ _ _ _ _ _) rfl
    | with_reducible apply SameExcept.stored (updPiece_reach _ _ _ _) rfl
    | with_reducible apply SameExcept.stored (endEarly_reach _ _ _ _) rfl
    | with_reducible apply endPiece_stored
    | with_reducible apply SameExcept.stored (startMov_reach _ _) rfl
    | split
    | dsimp only
    | with_reducible apply fields_stored

theorem startPiece_stored {s : State} (a b) (h : s.stored = true) : (startPiece a b s).stored = true := by
  unfold startPiece
  try dsimp only
  repeat' first
    | with_reducible assumption
    | with_reducible apply SameExcept.stored (updPiece_reach _ _ _ _) rfl
    | with_reducible apply sendPiece_stored
    | split
    | dsimp only
    | with_reducible apply fields_stored

theorem startWaiting_stored {s : State} (a) (h : s.stored = true) : (startWaiting a s).stored = true := by
  unfold startWaiting
  try dsimp only
  repeat' first
    | with_reducible assumption
    | with_reducible apply startPiece_stored
    | with_reducible apply forEach_stored
    | ((with_reducible intro _ _ _ _); try dsimp only)
    | ((with_reducible intro _ _ _); try dsimp only)
    | ((with_reducible intro _ _); try dsimp only)
    | split
    | dsimp only

theorem pumpMov_stored {s : State} (a b) (h : s.stored = true) : (pumpMov a b s).stored = true := by
  unfold pumpMov
  try dsimp only
  repeat' first
    | with_reducible assumption
    | with_reducible apply SameExcept.stored (startMov_reach _ _) rfl
    | with_reducible apply startWaiting_stored
    | split
    | dsimp only

theorem pumpMovs_stored {s : State} (a) (h : s.stored = true) : (pumpMovs a s).stored = true := by
  unfold pumpMovs
  try dsimp only
  repeat' first
    | with_reducible assumption
    | with_reducible apply pumpMov_stored
    | with_reducible apply forEach_stored
    | ((with_reducible intro _ _ _ _); try dsimp only)
    | ((with_reducible intro _ _ _); try dsimp only)
    | ((with_reducible intro _ _); try dsimp only)

theorem pumpXfer_stored {s : State} (a) (h : s.stored = true) : (pumpXfer a s).stored = true := by
  unfold pumpXfer
  try dsimp only
  repeat' first
    | with_reducible assumption
    | with_reducible apply pumpMovs_stored
    | split
    | dsimp only

theorem newXfer_stored {s : State} (a) (h : s.stored = true) : (newXfer a s).2.stored = true := by
  unfold newXfer
  try dsimp only
  repeat' first
    | with_reducible assumption
    | with_reducible apply SameExcept.stored (setXfer_reach _ _ _) rfl
    | with_reducible apply startPiece_stored
    | with_reducible apply forEach_stored
    | ((with_reducible intro _ _ _ _); try dsimp only)
    | ((with_reducible intro _ _ _); try dsimp only)
    | ((with_reducible intro _ _); try dsimp only)
    | dsimp only
    | with_reducible apply fields_stored

theorem landPiece_stored {s : State} (a b c) (h : s.stored = true) : (landPiece a b c s).stored = true := by
  unfold landPiece
  try dsimp only
  repeat' first
    | with_reducible assumption
    | with_reducible apply SameExcept.stored (countPoison_reach _ _ _ _) rfl
    | with_reducible apply SameExcept.stored (setXfer_reach _ _ _) rfl
    | with_reducible apply portWrite_stored
    | with_reducible apply SameExcept.stored (updPiece_reach _ _ _ _) rfl
    | split
    | dsimp only

theorem failHeld_stored {s : State} (a) (h : s.stored = true) : (failHeld a s).stored = true := by
  unfold failHeld
  try dsimp only
  repeat' first
    | with_reducible assumption
    | with_reducible apply SameExcept.stored (startMov_reach _ _) rfl
    | with_reducible apply endPiece_stored
    | with_reducible apply SameExcept.stored (setXfer_reach _ _ _) rfl
    | with_reducible apply SameExcept.stored (endEarly_reach _ _ _ _) rfl
    | with_reducible apply forEach_stored
    | ((with_reducible intro _ _ _ _); try dsimp only)
    | ((with_reducible intro _ _ _); try dsimp only)
    | ((with_reducible intro _ _); try dsimp only)
    | split
    | dsimp only

theorem retryUnrecorded_stored {s : State} (h : s.stored = true) : (retryUnrecorded s).stored = true := by
  unfold retryUnrecorded
  try dsimp only
  repeat' first
    | with_reducible assumption
    | with_reducible apply pumpXfer_stored
    | with_reducible apply startPiece_stored
    | with_reducible apply forEach_stored
    | ((with_reducible intro _ _ _ _); try dsimp only)
    | ((with_reducible intro _ _ _); try dsimp only)
    | ((with_reducible intro _ _); try dsimp only)
    | split
    | dsimp only

theorem freeRecord_stored {s : State} (a) (h : s.stored = true) : (freeRecord a s).stored = true := by
  unfold freeRecord
  try dsimp only
  repeat' first
    | with_reducible assumption
    | with_reducible apply retryUnrecorded_stored
    | with_reducible apply fields_stored

theorem failRecord_stored {s : State} (a) (h : s.stored = true) : (failRecord a s).stored = true := by
  unfold failRecord
  try dsimp only
  repeat' first
    | with_reducible assumption
    | with_reducible apply freeRecord_stored
    | with_reducible apply failHeld_stored

theorem settleRecord_stored {s : State} (a) (h : s.stored = true) : (settleRecord a s).stored = true := by
  unfold settleRecord
  try dsimp only
  repeat' first
    | with_reducible assumption
    | with_reducible apply freeRecord_stored
    | with_reducible apply foldl_stored
    | with_reducible apply foldlFst_stored
    | ((with_reducible intro _ _ _ _); try dsimp only)
    | ((with_reducible intro _ _ _); try dsimp only)
    | ((with_reducible intro _ _); try dsimp only)
    | split
    | dsimp only
    | with_reducible apply fields_stored

theorem settleRecords_stored {s : State} (h : s.stored = true) : (settleRecords s).stored = true := by
  unfold settleRecords
  try dsimp only
  repeat' first
    | with_reducible assumption
    | with_reducible apply settleRecord_stored
    | with_reducible apply forEach_stored
    | ((with_reducible intro _ _ _ _); try dsimp only)
    | ((with_reducible intro _ _ _); try dsimp only)
    | ((with_reducible intro _ _); try dsimp only)

theorem retryRecord_stored {s : State} (a) (h : s.stored = true) : (retryRecord a s).stored = true := by
  unfold retryRecord
  try dsimp only
  repeat' first
    | with_reducible assumption
    | with_reducible apply settleRecord_stored
    | with_reducible apply pumpXfer_stored
    | with_reducible apply startPiece_stored
    | with_reducible apply forEach_stored
    | ((with_reducible intro _ _ _ _); try dsimp only)
    | ((with_reducible intro _ _ _); try dsimp only)
    | ((with_reducible intro _ _); try dsimp only)
    | split
    | dsimp only
    | with_reducible apply fields_stored

theorem cancelXfer_stored {s : State} (a) (h : s.stored = true) : (cancelXfer a s).stored = true := by
  unfold cancelXfer
  try dsimp only
  repeat' first
    | with_reducible assumption
    | with_reducible apply endPiece_stored
    | with_reducible apply SameExcept.stored (startMov_reach _ _) rfl
    | with_reducible apply SameExcept.stored (setXfer_reach _ _ _) rfl
    | with_reducible apply settleRecords_stored
    | with_reducible apply pumpXfer_stored
    | with_reducible apply SameExcept.stored (logEvent_reach _ _ _ _) rfl
    | with_reducible apply forEach_stored
    | ((with_reducible intro _ _ _ _); try dsimp only)
    | ((with_reducible intro _ _ _); try dsimp only)
    | ((with_reducible intro _ _); try dsimp only)
    | split
    | dsimp only
    | with_reducible apply fields_stored

theorem fillMiss_stored {s : State} (a b) (h : s.stored = true) : (fillMiss a b s).stored = true := by
  unfold fillMiss
  try dsimp only
  repeat' first
    | with_reducible assumption
    | with_reducible apply SameExcept.stored (countMiss_reach _ _) rfl
    | with_reducible apply settleRecords_stored
    | with_reducible apply SameExcept.stored (raiseFault_reach _ _ _ _ _ _ _) rfl
    | with_reducible apply SameExcept.stored (updPiece_reach _ _ _ _) rfl
    | with_reducible apply pumpXfer_stored
    | with_reducible apply startPiece_stored
    | with_reducible apply SameExcept.stored (cacheFill_reach _ _ _ _) rfl
    | split
    | dsimp only

end Sys2Proof.Machine
end

