-- ==== Sys2Proof/Laws/Issue.lean ====
section
/-! SUPPORT. What each operation of Machine/Issue.lean reaches: every other part of the state is as it was (`_reach`), and memory and the
marks keep their canonical form (`_stored`). -/

namespace Sys2Proof.Machine

set_option linter.unusedTactic false
set_option linter.unreachableTactic false
set_option linter.unnecessarySeqFocus false

theorem pushOp_reach (a b c s) : SameExcept [.cores] s (pushOp a b c s) := by
  unfold pushOp
  try dsimp only
  repeat' first
    | with_reducible exact SameExcept.refl _ _
    | ((with_reducible apply covers_intro); decide)
    | with_reducible apply SameExcept.step (updCore_reach _ _ _)
    | split

theorem attachTo_reach (a b c s) : SameExcept [.cores] s (attachTo a b c s) := by
  unfold attachTo
  try dsimp only
  repeat' first
    | with_reducible exact SameExcept.refl _ _
    | ((with_reducible apply covers_intro); decide)
    | with_reducible apply SameExcept.step (updCore_reach _ _ _)
    | split

theorem beginMov_reach (a b s) : SameExcept [.log, .isl, .mem, .poison, .seg, .xfers, .net, .qs, .sems, .cores, .links, .grinders] s (beginMov a b s) := by
  unfold beginMov
  try dsimp only
  repeat' first
    | with_reducible exact SameExcept.refl _ _
    | ((with_reducible apply covers_intro); decide)
    | with_reducible apply SameExcept.step (pumpMovs_reach _ _)
    | with_reducible apply SameExcept.step (newXfer_reach _ _)
    | with_reducible apply SameExcept.step (attachTo_reach _ _ _ _)
    | split
    | dsimp only

theorem issueMov_reach (a b s) : SameExcept [.log, .isl, .mem, .poison, .seg, .xfers, .net, .qs, .sems, .cores, .links, .grinders] s (issueMov a b s) := by
  unfold issueMov
  try dsimp only
  repeat' first
    | with_reducible exact SameExcept.refl _ _
    | ((with_reducible apply covers_intro); decide)
    | with_reducible apply SameExcept.step (pushOp_reach _ _ _ _)
    | with_reducible apply SameExcept.step (beginMov_reach _ _ _)
    | split
    | dsimp only

theorem issueGrd_reach (a b s) : SameExcept [.log, .isl, .mem, .poison, .seg, .xfers, .net, .qs, .sems, .cores, .links, .grinders] s (issueGrd a b s) := by
  unfold issueGrd
  try dsimp only
  repeat' first
    | with_reducible exact SameExcept.refl _ _
    | ((with_reducible apply covers_intro); decide)
    | with_reducible apply SameExcept.step (pushOp_reach _ _ _ _)
    | with_reducible apply SameExcept.step (newXfer_reach _ _)
    | ((with_reducible apply FieldsSame.intro); intro q hq; cases q <;> first | exact absurd (by decide) hq | (dsimp only [Part.same, memByte]; done) | (dsimp only [Part.same, memByte]; exact ⟨rfl, fun _ => rfl⟩) | (dsimp only [Part.same]; exact ⟨rfl, rfl⟩))
    | split
    | dsimp only
    | with_reducible apply SameExcept.fields

theorem issueSem_reach (a b s) : SameExcept [.log, .isl, .qs, .sems, .cores, .links, .grinders] s (issueSem a b s) := by
  unfold issueSem
  try dsimp only
  repeat' first
    | with_reducible exact SameExcept.refl _ _
    | ((with_reducible apply covers_intro); decide)
    | with_reducible apply SameExcept.step (semTake_reach _ _ _ _)
    | with_reducible apply SameExcept.step (updCore_reach _ _ _)
    | with_reducible apply SameExcept.step (refreshBlocked_reach _ _)
    | with_reducible apply SameExcept.step (semPost_reach _ _ _)
    | with_reducible apply SameExcept.step (pushOp_reach _ _ _ _)
    | with_reducible apply SameExcept.step (semSet_reach _ _ _)
    | split
    | dsimp only

theorem armStream_reach (a b c d e f s) : SameExcept [.links] s (armStream a b c d e f s) := by
  unfold armStream
  try dsimp only
  repeat' first
    | with_reducible exact SameExcept.refl _ _
    | ((with_reducible apply covers_intro); decide)
    | with_reducible apply SameExcept.step (setLink_reach _ _ _)
    | split

theorem dropChunkTake_reach (a s) : SameExcept [.isl, .qs, .sems, .cores, .links, .grinders] s (dropChunkTake a s) := by
  unfold dropChunkTake
  try dsimp only
  repeat' first
    | with_reducible exact SameExcept.refl _ _
    | ((with_reducible apply covers_intro); decide)
    | with_reducible apply SameExcept.step (semSettle_reach _ _ _ _)
    | split
    | dsimp only

theorem issueCtl_reach (a b s) : SameExcept [.isl, .mem, .poison, .qs, .sems, .cores, .links, .grinders] s (issueCtl a b s) := by
  unfold issueCtl
  try dsimp only
  repeat' first
    | with_reducible exact SameExcept.refl _ _
    | ((with_reducible apply covers_intro); decide)
    | with_reducible apply SameExcept.step (setCore_reach _ _ _)
    | with_reducible apply SameExcept.step (dropChunkTake_reach _ _)
    | with_reducible apply SameExcept.step (armStream_reach _ _ _ _ _ _ _)
    | with_reducible apply SameExcept.step (scrWrite_reach _ _ _ _)
    | split
    | dsimp only

theorem endDeclaring_reach (a b s) : SameExcept [.cores] s (endDeclaring a b s) := by
  unfold endDeclaring
  try dsimp only
  repeat' first
    | with_reducible exact SameExcept.refl _ _
    | ((with_reducible apply covers_intro); decide)
    | with_reducible apply SameExcept.step (updCore_reach _ _ _)
    | split

theorem issueClass_reach (a b s) : SameExcept [.log, .isl, .mem, .poison, .seg, .xfers, .net, .qs, .sems, .cores, .links, .grinders] s (issueClass a b s) := by
  unfold issueClass
  try dsimp only
  repeat' first
    | with_reducible exact SameExcept.refl _ _
    | ((with_reducible apply covers_intro); decide)
    | with_reducible apply SameExcept.step (pushOp_reach _ _ _ _)
    | with_reducible apply SameExcept.step (updCore_reach _ _ _)
    | with_reducible apply SameExcept.step (issueMov_reach _ _ _)
    | with_reducible apply SameExcept.step (issueGrd_reach _ _ _)
    | with_reducible apply SameExcept.step (issueSem_reach _ _ _)
    | with_reducible apply SameExcept.step (issueCtl_reach _ _ _)
    | split
    | dsimp only

theorem prefetchOps_reach (a s) : SameExcept [.seg] s (prefetchOps a s) := by
  unfold prefetchOps
  try dsimp only
  repeat' first
    | with_reducible exact SameExcept.refl _ _
    | ((with_reducible apply covers_intro); decide)
    | with_reducible apply SameExcept.step (prefetch_reach _ _ _ _)
    | with_reducible apply SameExcept.forEach
    | ((with_reducible intro _ _); try dsimp only)
    | ((with_reducible intro _); try dsimp only)
    | split
    | dsimp only

theorem prefetchStream_reach (a b s) : SameExcept [.seg] s (prefetchStream a b s) := by
  unfold prefetchStream
  try dsimp only
  repeat' first
    | with_reducible exact SameExcept.refl _ _
    | ((with_reducible apply covers_intro); decide)
    | with_reducible apply SameExcept.step (prefetch_reach _ _ _ _)
    | with_reducible apply SameExcept.forEach
    | ((with_reducible intro _ _); try dsimp only)
    | ((with_reducible intro _); try dsimp only)
    | split

theorem prefetchLink_reach (a s) : SameExcept [.seg] s (prefetchLink a s) := by
  unfold prefetchLink
  try dsimp only
  repeat' first
    | with_reducible exact SameExcept.refl _ _
    | ((with_reducible apply covers_intro); decide)
    | with_reducible apply SameExcept.step (prefetchStream_reach _ _ _)
    | with_reducible apply SameExcept.forEach
    | ((with_reducible intro _ _); try dsimp only)
    | ((with_reducible intro _); try dsimp only)
    | split
    | dsimp only

theorem issueOp_reach (a b s) : SameExcept [.log, .isl, .mem, .poison, .seg, .xfers, .net, .qs, .sems, .cores, .links, .grinders] s (issueOp a b s) := by
  unfold issueOp
  try dsimp only
  repeat' first
    | with_reducible exact SameExcept.refl _ _
    | ((with_reducible apply covers_intro); decide)
    | with_reducible apply SameExcept.step (endDeclaring_reach _ _ _)
    | with_reducible apply SameExcept.step (issueClass_reach _ _ _)
    | with_reducible apply SameExcept.step (prefetchOps_reach _ _)
    | with_reducible apply SameExcept.step (prefetchLink_reach _ _)
    | split

theorem noteStall_reach (a s) : SameExcept [.cores] s (noteStall a s) := by
  unfold noteStall
  try dsimp only
  repeat' first
    | with_reducible exact SameExcept.refl _ _
    | ((with_reducible apply covers_intro); decide)
    | with_reducible apply SameExcept.step (updCore_reach _ _ _)
    | split
    | dsimp only

theorem issueAt_reach (a b c s) : SameExcept [.log, .isl, .mem, .poison, .seg, .xfers, .net, .qs, .sems, .cores, .links, .grinders] s (issueAt a b c s) := by
  unfold issueAt
  try dsimp only
  repeat' first
    | with_reducible exact SameExcept.refl _ _
    | ((with_reducible apply covers_intro); decide)
    | with_reducible apply SameExcept.step (tileFault_reach _ _ _ _ _)
    | with_reducible apply SameExcept.step (issueOp_reach _ _ _)
    | with_reducible apply SameExcept.step (noteStall_reach _ _)
    | split
    | dsimp only

theorem issueLogical_reach (a b s) : SameExcept [.log, .isl, .mem, .poison, .seg, .xfers, .net, .qs, .sems, .cores, .links, .grinders] s (issueLogical a b s) := by
  unfold issueLogical
  try dsimp only
  repeat' first
    | with_reducible exact SameExcept.refl _ _
    | ((with_reducible apply covers_intro); decide)
    | with_reducible apply SameExcept.step (issueAt_reach _ _ _ _)
    | split
    | dsimp only

/-! ### The canonical form -/

theorem beginMov_stored {s : State} (a b) (h : s.stored = true) : (beginMov a b s).stored = true := by
  unfold beginMov
  try dsimp only
  repeat' first
    | with_reducible assumption
    | with_reducible apply pumpMovs_stored
    | with_reducible apply newXfer_stored
    | with_reducible apply SameExcept.stored (attachTo_reach _ _ _ _) rfl
    | split
    | dsimp only

theorem issueMov_stored {s : State} (a b) (h : s.stored = true) : (issueMov a b s).stored = true := by
  unfold issueMov
  try dsimp only
  repeat' first
    | with_reducible assumption
    | with_reducible apply SameExcept.stored (pushOp_reach _ _ _ _) rfl
    | with_reducible apply beginMov_stored
    | split
    | dsimp only

theorem issueGrd_stored {s : State} (a b) (h : s.stored = true) : (issueGrd a b s).stored = true := by
  unfold issueGrd
  try dsimp only
  repeat' first
    | with_reducible assumption
    | with_reducible apply SameExcept.stored (pushOp_reach _ _ _ _) rfl
    | with_reducible apply newXfer_stored
    | split
    | dsimp only
    | with_reducible apply fields_stored

theorem issueCtl_stored {s : State} (a b) (h : s.stored = true) : (issueCtl a b s).stored = true := by
  unfold issueCtl
  try dsimp only
  repeat' first
    | with_reducible assumption
    | with_reducible apply SameExcept.stored (setCore_reach _ _ _) rfl
    | with_reducible apply SameExcept.stored (dropChunkTake_reach _ _) rfl
    | with_reducible apply SameExcept.stored (armStream_reach _ _ _ _ _ _ _) rfl
    | with_reducible apply scrWrite_stored
    | split
    | dsimp only

theorem issueClass_stored {s : State} (a b) (h : s.stored = true) : (issueClass a b s).stored = true := by
  unfold issueClass
  try dsimp only
  repeat' first
    | with_reducible assumption
    | with_reducible apply SameExcept.stored (pushOp_reach _ _ _ _) rfl
    | with_reducible apply SameExcept.stored (updCore_reach _ _ _) rfl
    | with_reducible apply issueMov_stored
    | with_reducible apply issueGrd_stored
    | with_reducible apply SameExcept.stored (issueSem_reach _ _ _) rfl
    | with_reducible apply issueCtl_stored
    | split
    | dsimp only

theorem issueOp_stored {s : State} (a b) (h : s.stored = true) : (issueOp a b s).stored = true := by
  unfold issueOp
  try dsimp only
  repeat' first
    | with_reducible assumption
    | with_reducible apply SameExcept.stored (endDeclaring_reach _ _ _) rfl
    | with_reducible apply issueClass_stored
    | with_reducible apply SameExcept.stored (prefetchOps_reach _ _) rfl
    | with_reducible apply SameExcept.stored (prefetchLink_reach _ _) rfl
    | split

theorem issueAt_stored {s : State} (a b c) (h : s.stored = true) : (issueAt a b c s).stored = true := by
  unfold issueAt
  try dsimp only
  repeat' first
    | with_reducible assumption
    | with_reducible apply SameExcept.stored (tileFault_reach _ _ _ _ _) rfl
    | with_reducible apply issueOp_stored
    | with_reducible apply SameExcept.stored (noteStall_reach _ _) rfl
    | split
    | dsimp only

theorem issueLogical_stored {s : State} (a b) (h : s.stored = true) : (issueLogical a b s).stored = true := by
  unfold issueLogical
  try dsimp only
  repeat' first
    | with_reducible assumption
    | with_reducible apply issueAt_stored
    | split
    | dsimp only

end Sys2Proof.Machine
end

