-- ==== Sys2Proof/Laws/Stops.lean ====
section
/-! SUPPORT. What each operation of Machine/Stops.lean reaches: every other part of the state is as it was (`_reach`), and memory and the
marks keep their canonical form (`_stored`). -/

namespace Sys2Proof.Machine

set_option linter.unusedTactic false
set_option linter.unreachableTactic false
set_option linter.unnecessarySeqFocus false

theorem logFlit_reach (a s) : SameExcept [.log] s (logFlit a s) := by
  unfold logFlit
  try dsimp only
  repeat' first
    | with_reducible exact SameExcept.refl _ _
    | ((with_reducible apply covers_intro); decide)
    | with_reducible apply SameExcept.step (logEvent_reach _ _ _ _)

theorem spoilFlit_reach (a b s) : SameExcept [.log] s (spoilFlit a b s).2 := by
  unfold spoilFlit
  try dsimp only
  repeat' first
    | with_reducible exact SameExcept.refl _ _
    | ((with_reducible apply covers_intro); decide)
    | with_reducible apply SameExcept.step (logFlit_reach _ _)
    | split
    | dsimp only

end Sys2Proof.Machine
end

