-- ==== Sys2Proof/Laws/Run.lean ====
section
/-! SUPPORT. What each operation of Machine/Run.lean reaches: every other part of the state is as it was (`_reach`), and memory and the
marks keep their canonical form (`_stored`). -/

namespace Sys2Proof.Machine

set_option linter.unusedTactic false
set_option linter.unreachableTactic false
set_option linter.unnecessarySeqFocus false

theorem onCore_reach {ps : List Part} {s0 s : State} {l f}
    (hf : ∀ p t, SameExcept ps t (f p t)) (h0 : SameExcept ps s0 s) : SameExcept ps s0 (onCore l f s) := by
  refine h0.trans ?_
  unfold onCore
  try dsimp only
  repeat' first
    | with_reducible exact SameExcept.refl _ _
    | ((with_reducible apply covers_intro); decide)
    | with_reducible exact hf _ _
    | ((with_reducible intro _ _); try dsimp only)
    | ((with_reducible intro _); try dsimp only)
    | split
    | dsimp only

theorem updOp_reach (a b c s) : SameExcept [.cores] s (updOp a b c s) := by
  unfold updOp
  try dsimp only
  repeat' first
    | with_reducible exact SameExcept.refl _ _
    | ((with_reducible apply covers_intro); decide)
    | with_reducible apply SameExcept.step (updCore_reach _ _ _)
    | split

theorem addFree_reach (a b s) : SameExcept [.freeCtr, .cores] s (addFree a b s) := by
  unfold addFree
  try dsimp only
  repeat' first
    | with_reducible exact SameExcept.refl _ _
    | ((with_reducible apply covers_intro); decide)
    | with_reducible apply SameExcept.step (drawFree_reach _)
    | with_reducible apply SameExcept.step (updCore_reach _ _ _)
    | split
    | dsimp only

theorem markStarted_reach (a b c d s) : SameExcept [.cores] s (markStarted a b c d s) := by
  unfold markStarted
  try dsimp only
  repeat' first
    | with_reducible exact SameExcept.refl _ _
    | ((with_reducible apply covers_intro); decide)
    | with_reducible apply SameExcept.step (updOp_reach _ _ _ _)

theorem startMat_reach (a s) : SameExcept [.cores] s (startMat a s) := by
  unfold startMat
  try dsimp only
  repeat' first
    | with_reducible exact SameExcept.refl _ _
    | ((with_reducible apply covers_intro); decide)
    | with_reducible apply SameExcept.step (markStarted_reach _ _ _ _ _)
    | with_reducible apply SameExcept.step (updCore_reach _ _ _)
    | split
    | dsimp only

theorem noteDz_reach (a b c s) : SameExcept [.log, .qs, .cores] s (noteDz a b c s) := by
  unfold noteDz
  try dsimp only
  repeat' first
    | with_reducible exact SameExcept.refl _ _
    | ((with_reducible apply covers_intro); decide)
    | with_reducible apply SameExcept.step (updInv_reach _ _ _)
    | with_reducible apply SameExcept.step (setCore_reach _ _ _)
    | with_reducible apply SameExcept.step (logEvent_reach _ _ _ _)
    | with_reducible apply SameExcept.forEach
    | ((with_reducible intro _ _); try dsimp only)
    | ((with_reducible intro _); try dsimp only)
    | split
    | dsimp only

theorem writeRows_reach (a b c d s) : SameExcept [.isl, .mem, .poison] s (writeRows a b c d s) := by
  unfold writeRows
  try dsimp only
  repeat' first
    | with_reducible exact SameExcept.refl _ _
    | ((with_reducible apply covers_intro); decide)
    | with_reducible apply SameExcept.step (portWrite_reach _ _ _ _ _)
    | with_reducible apply SameExcept.forEach
    | ((with_reducible intro _ _); try dsimp only)
    | ((with_reducible intro _); try dsimp only)

theorem noteSaturation_reach (a b c d s) : SameExcept [.log] s (noteSaturation a b c d s) := by
  unfold noteSaturation
  try dsimp only
  repeat' first
    | with_reducible exact SameExcept.refl _ _
    | ((with_reducible apply covers_intro); decide)
    | with_reducible apply SameExcept.step (logEvent_reach _ _ _ _)
    | with_reducible apply SameExcept.foldl
    | with_reducible apply SameExcept.foldlFst
    | ((with_reducible intro _ _); try dsimp only)
    | ((with_reducible intro _); try dsimp only)
    | split
    | dsimp only

theorem overflowMat_reach (a s) : SameExcept [.freeCtr, .log, .isl, .mem, .poison, .qs, .cores] s (overflowMat a s) := by
  unfold overflowMat
  try dsimp only
  repeat' first
    | with_reducible exact SameExcept.refl _ _
    | ((with_reducible apply covers_intro); decide)
    | with_reducible apply SameExcept.step (updCore_reach _ _ _)
    | with_reducible apply SameExcept.step (noteSaturation_reach _ _ _ _ _)
    | with_reducible apply SameExcept.step (raiseFlags_reach _ _ _)
    | with_reducible apply SameExcept.step (writeRows_reach _ _ _ _ _)
    | with_reducible apply SameExcept.step (noteDz_reach _ _ _ _)
    | with_reducible apply SameExcept.step (updInv_reach _ _ _)
    | with_reducible apply SameExcept.step (addFree_reach _ _ _)
    | with_reducible apply SameExcept.forEach
    | with_reducible apply SameExcept.foldl
    | with_reducible apply SameExcept.foldlFst
    | ((with_reducible intro _ _); try dsimp only)
    | ((with_reducible intro _); try dsimp only)
    | split
    | dsimp only

theorem restartMat_reach (a s) : SameExcept [.cores] s (restartMat a s) := by
  unfold restartMat
  try dsimp only
  repeat' first
    | with_reducible exact SameExcept.refl _ _
    | ((with_reducible apply covers_intro); decide)
    | with_reducible apply SameExcept.step (updCore_reach _ _ _)
    | split

theorem postTile_reach (a b c d s) : SameExcept [.cores] s (postTile a b c d s) := by
  unfold postTile
  try dsimp only
  repeat' first
    | with_reducible exact SameExcept.refl _ _
    | ((with_reducible apply covers_intro); decide)
    | with_reducible apply SameExcept.step (updCore_reach _ _ _)

theorem handOff_reach (a b c d s) : SameExcept [.log, .isl, .mem, .poison, .qs, .cores] s (handOff a b c d s) := by
  unfold handOff
  try dsimp only
  repeat' first
    | with_reducible exact SameExcept.refl _ _
    | ((with_reducible apply covers_intro); decide)
    | with_reducible apply SameExcept.step (updCore_reach _ _ _)
    | with_reducible apply SameExcept.step (writeRows_reach _ _ _ _ _)
    | with_reducible apply SameExcept.step (portWrite_reach _ _ _ _ _)
    | with_reducible apply SameExcept.step (raiseFlags_reach _ _ _)
    | with_reducible apply SameExcept.step (logEvent_reach _ _ _ _)
    | with_reducible apply SameExcept.foldl
    | with_reducible apply SameExcept.foldlFst
    | ((with_reducible intro _ _); try dsimp only)
    | ((with_reducible intro _); try dsimp only)
    | split
    | dsimp only

theorem completeMat_reach (a s) : SameExcept [.freeCtr, .log, .isl, .mem, .poison, .qs, .cores] s (completeMat a s) := by
  unfold completeMat
  try dsimp only
  repeat' first
    | with_reducible exact SameExcept.refl _ _
    | ((with_reducible apply covers_intro); decide)
    | with_reducible apply SameExcept.step (noteDz_reach _ _ _ _)
    | with_reducible apply SameExcept.step (noteSaturation_reach _ _ _ _ _)
    | with_reducible apply SameExcept.step (raiseFlags_reach _ _ _)
    | with_reducible apply SameExcept.step (handOff_reach _ _ _ _ _)
    | with_reducible apply SameExcept.step (postTile_reach _ _ _ _ _)
    | with_reducible apply SameExcept.step (updInv_reach _ _ _)
    | with_reducible apply SameExcept.step (updCore_reach _ _ _)
    | with_reducible apply SameExcept.step (retireOp_reach _ _ _)
    | with_reducible apply SameExcept.step (addFree_reach _ _ _)
    | with_reducible apply SameExcept.forEach
    | with_reducible apply SameExcept.foldl
    | with_reducible apply SameExcept.foldlFst
    | ((with_reducible intro _ _); try dsimp only)
    | ((with_reducible intro _); try dsimp only)
    | split
    | dsimp only

theorem startVec_reach (a s) : SameExcept [.log, .isl, .xfers, .qs, .sems, .cores, .links, .grinders] s (startVec a s) := by
  unfold startVec
  try dsimp only
  repeat' first
    | with_reducible exact SameExcept.refl _ _
    | ((with_reducible apply covers_intro); decide)
    | with_reducible apply SameExcept.step (tileFault_reach _ _ _ _ _)
    | with_reducible apply SameExcept.step (updOp_reach _ _ _ _)
    | with_reducible apply SameExcept.step (setCore_reach _ _ _)
    | with_reducible apply SameExcept.foldl
    | with_reducible apply SameExcept.foldlFst
    | ((with_reducible intro _ _); try dsimp only)
    | ((with_reducible intro _); try dsimp only)
    | split
    | dsimp only

theorem completeVec_reach (a s) : SameExcept [.freeCtr, .log, .isl, .mem, .poison, .qs, .cores] s (completeVec a s) := by
  unfold completeVec
  try dsimp only
  repeat' first
    | with_reducible exact SameExcept.refl _ _
    | ((with_reducible apply covers_intro); decide)
    | with_reducible apply SameExcept.step (portWrite_reach _ _ _ _ _)
    | with_reducible apply SameExcept.step (logEvent_reach _ _ _ _)
    | with_reducible apply SameExcept.step (updCore_reach _ _ _)
    | with_reducible apply SameExcept.step (raiseFlags_reach _ _ _)
    | with_reducible apply SameExcept.step (retireOp_reach _ _ _)
    | with_reducible apply SameExcept.step (addFree_reach _ _ _)
    | with_reducible apply SameExcept.forEach
    | with_reducible apply SameExcept.foldl
    | with_reducible apply SameExcept.foldlFst
    | ((with_reducible intro _ _); try dsimp only)
    | ((with_reducible intro _); try dsimp only)
    | split
    | dsimp only

theorem skewWrite_reach (a b c d e s) : SameExcept [.isl, .mem, .poison] s (skewWrite a b c d e s) := by
  unfold skewWrite
  try dsimp only
  repeat' first
    | with_reducible exact SameExcept.refl _ _
    | ((with_reducible apply covers_intro); decide)
    | with_reducible apply SameExcept.step (portWrite_reach _ _ _ _ _)
    | with_reducible apply SameExcept.forEach
    | ((with_reducible intro _ _); try dsimp only)
    | ((with_reducible intro _); try dsimp only)

theorem movFinish_reach (a b c s) : SameExcept [.isl, .mem, .poison] s (movFinish a b c s) := by
  unfold movFinish
  try dsimp only
  repeat' first
    | with_reducible exact SameExcept.refl _ _
    | ((with_reducible apply covers_intro); decide)
    | with_reducible apply SameExcept.step (skewWrite_reach _ _ _ _ _ _)
    | with_reducible apply SameExcept.step (portWrite_reach _ _ _ _ _)
    | with_reducible apply SameExcept.forEach
    | ((with_reducible intro _ _); try dsimp only)
    | ((with_reducible intro _); try dsimp only)
    | split
    | dsimp only

theorem postDone_reach (a s) : SameExcept [.log, .isl, .qs, .sems, .cores, .links, .grinders] s (postDone a s) := by
  unfold postDone
  try dsimp only
  repeat' first
    | with_reducible exact SameExcept.refl _ _
    | ((with_reducible apply covers_intro); decide)
    | with_reducible apply SameExcept.step (semPost_reach _ _ _)
    | split
    | dsimp only

theorem completeMov_reach (a b s) : SameExcept [.log, .isl, .mem, .poison, .seg, .xfers, .net, .qs, .sems, .cores, .links, .grinders] s (completeMov a b s) := by
  unfold completeMov
  try dsimp only
  repeat' first
    | with_reducible exact SameExcept.refl _ _
    | ((with_reducible apply covers_intro); decide)
    | with_reducible apply SameExcept.step (movFinish_reach _ _ _ _)
    | with_reducible apply SameExcept.step (delXfer_reach _ _)
    | with_reducible apply SameExcept.step (postDone_reach _ _)
    | with_reducible apply SameExcept.step (pumpMovs_reach _ _)
    | with_reducible apply SameExcept.step (retireOp_reach _ _ _)
    | split
    | dsimp only

theorem checkUnseal_reach (a b s) : SameExcept [.log, .isl, .mem, .poison, .xfers, .cores] s (checkUnseal a b s) := by
  unfold checkUnseal
  try dsimp only
  repeat' first
    | with_reducible exact SameExcept.refl _ _
    | ((with_reducible apply covers_intro); decide)
    | with_reducible apply SameExcept.step (setXfer_reach _ _ _)
    | with_reducible apply SameExcept.step (portWrite_reach _ _ _ _ _)
    | with_reducible apply SameExcept.step (poisonRange_reach _ _ _)
    | with_reducible apply SameExcept.step (updCore_reach _ _ _)
    | with_reducible apply SameExcept.step (logEvent_reach _ _ _ _)
    | split
    | dsimp only

theorem firePost_reach (a s) : SameExcept [.log, .isl, .qs, .sems, .cores, .links, .grinders] s (firePost a s) := by
  unfold firePost
  try dsimp only
  repeat' first
    | with_reducible exact SameExcept.refl _ _
    | ((with_reducible apply covers_intro); decide)
    | with_reducible apply SameExcept.step (semPost_reach _ _ _)
    | with_reducible apply SameExcept.step (retireOp_reach _ _ _)
    | split
    | dsimp only

theorem lateOp_reach (a b c d s) : SameExcept [.log, .isl, .xfers, .qs, .sems, .cores, .links, .grinders] s (lateOp a b c d s) := by
  unfold lateOp
  try dsimp only
  repeat' first
    | with_reducible exact SameExcept.refl _ _
    | ((with_reducible apply covers_intro); decide)
    | with_reducible apply SameExcept.step (endEarly_reach _ _ _ _)
    | with_reducible apply SameExcept.step (logEvent_reach _ _ _ _)
    | with_reducible apply SameExcept.step (recordFault_reach _ _ _ _ _)

theorem overrun_reach (a b s) : SameExcept [.log, .isl, .xfers, .qs, .sems, .cores, .links, .grinders] s (overrun a b s) := by
  unfold overrun
  try dsimp only
  repeat' first
    | with_reducible exact SameExcept.refl _ _
    | ((with_reducible apply covers_intro); decide)
    | with_reducible apply SameExcept.step (lateOp_reach _ _ _ _ _)
    | split
    | dsimp only

theorem cancelAbroad_reach (a s) : SameExcept [.log, .isl, .mem, .poison, .seg, .xfers, .net, .host, .qs, .sems, .cores, .links, .grinders] s (cancelAbroad a s) := by
  unfold cancelAbroad
  try dsimp only
  repeat' first
    | with_reducible exact SameExcept.refl _ _
    | ((with_reducible apply covers_intro); decide)
    | with_reducible apply SameExcept.step (cancelXfer_reach _ _)
    | with_reducible apply SameExcept.forEach
    | ((with_reducible intro _ _); try dsimp only)
    | ((with_reducible intro _); try dsimp only)

theorem waitTimeout_reach (a s) : SameExcept [.log, .isl, .mem, .poison, .seg, .xfers, .net, .host, .qs, .sems, .cores, .links, .grinders] s (waitTimeout a s) := by
  unfold waitTimeout
  try dsimp only
  repeat' first
    | with_reducible exact SameExcept.refl _ _
    | ((with_reducible apply covers_intro); decide)
    | with_reducible apply SameExcept.step (cancelAbroad_reach _ _)
    | with_reducible apply SameExcept.step (endEarly_reach _ _ _ _)
    | with_reducible apply SameExcept.step (recordFault_reach _ _ _ _ _)
    | split
    | dsimp only

/-! ### The canonical form -/

theorem onCore_stored {s : State} {l f}
    (hf : ∀ p t, t.stored = true → (f p t).stored = true) (h : s.stored = true) : (onCore l f s).stored = true := by
  unfold onCore
  try dsimp only
  repeat' first
    | with_reducible assumption
    | with_reducible apply hf
    | ((with_reducible intro _ _ _ _); try dsimp only)
    | ((with_reducible intro _ _ _); try dsimp only)
    | ((with_reducible intro _ _); try dsimp only)
    | split
    | dsimp only

theorem writeRows_stored {s : State} (a b c d) (h : s.stored = true) : (writeRows a b c d s).stored = true := by
  unfold writeRows
  try dsimp only
  repeat' first
    | with_reducible assumption
    | with_reducible apply portWrite_stored
    | with_reducible apply forEach_stored
    | ((with_reducible intro _ _ _ _); try dsimp only)
    | ((with_reducible intro _ _ _); try dsimp only)
    | ((with_reducible intro _ _); try dsimp only)

theorem overflowMat_stored {s : State} (a) (h : s.stored = true) : (overflowMat a s).stored = true := by
  unfold overflowMat
  try dsimp only
  repeat' first
    | with_reducible assumption
    | with_reducible apply SameExcept.stored (updCore_reach _ _ _) rfl
    | with_reducible apply SameExcept.stored (noteSaturation_reach _ _ _ _ _) rfl
    | with_reducible apply SameExcept.stored (raiseFlags_reach _ _ _) rfl
    | with_reducible apply writeRows_stored
    | with_reducible apply SameExcept.stored (noteDz_reach _ _ _ _) rfl
    | with_reducible apply SameExcept.stored (updInv_reach _ _ _) rfl
    | with_reducible apply SameExcept.stored (addFree_reach _ _ _) rfl
    | with_reducible apply forEach_stored
    | with_reducible apply foldl_stored
    | with_reducible apply foldlFst_stored
    | ((with_reducible intro _ _ _ _); try dsimp only)
    | ((with_reducible intro _ _ _); try dsimp only)
    | ((with_reducible intro _ _); try dsimp only)
    | split
    | dsimp only

theorem handOff_stored {s : State} (a b c d) (h : s.stored = true) : (handOff a b c d s).stored = true := by
  unfold handOff
  try dsimp only
  repeat' first
    | with_reducible assumption
    | with_reducible apply SameExcept.stored (updCore_reach _ _ _) rfl
    | with_reducible apply writeRows_stored
    | with_reducible apply portWrite_stored
    | with_reducible apply SameExcept.stored (raiseFlags_reach _ _ _) rfl
    | with_reducible apply SameExcept.stored (logEvent_reach _ _ _ _) rfl
    | with_reducible apply foldl_stored
    | with_reducible apply foldlFst_stored
    | ((with_reducible intro _ _ _ _); try dsimp only)
    | ((with_reducible intro _ _ _); try dsimp only)
    | ((with_reducible intro _ _); try dsimp only)
    | split
    | dsimp only

theorem completeMat_stored {s : State} (a) (h : s.stored = true) : (completeMat a s).stored = true := by
  unfold completeMat
  try dsimp only
  repeat' first
    | with_reducible assumption
    | with_reducible apply SameExcept.stored (noteDz_reach _ _ _ _) rfl
    | with_reducible apply SameExcept.stored (noteSaturation_reach _ _ _ _ _) rfl
    | with_reducible apply SameExcept.stored (raiseFlags_reach _ _ _) rfl
    | with_reducible apply handOff_stored
    | with_reducible apply SameExcept.stored (postTile_reach _ _ _ _ _) rfl
    | with_reducible apply SameExcept.stored (updInv_reach _ _ _) rfl
    | with_reducible apply SameExcept.stored (updCore_reach _ _ _) rfl
    | with_reducible apply SameExcept.stored (retireOp_reach _ _ _) rfl
    | with_reducible apply SameExcept.stored (addFree_reach _ _ _) rfl
    | with_reducible apply forEach_stored
    | with_reducible apply foldl_stored
    | with_reducible apply foldlFst_stored
    | ((with_reducible intro _ _ _ _); try dsimp only)
    | ((with_reducible intro _ _ _); try dsimp only)
    | ((with_reducible intro _ _); try dsimp only)
    | split
    | dsimp only

theorem completeVec_stored {s : State} (a) (h : s.stored = true) : (completeVec a s).stored = true := by
  unfold completeVec
  try dsimp only
  repeat' first
    | with_reducible assumption
    | with_reducible apply portWrite_stored
    | with_reducible apply SameExcept.stored (logEvent_reach _ _ _ _) rfl
    | with_reducible apply SameExcept.stored (updCore_reach _ _ _) rfl
    | with_reducible apply SameExcept.stored (raiseFlags_reach _ _ _) rfl
    | with_reducible apply SameExcept.stored (retireOp_reach _ _ _) rfl
    | with_reducible apply SameExcept.stored (addFree_reach _ _ _) rfl
    | with_reducible apply forEach_stored
    | with_reducible apply foldl_stored
    | with_reducible apply foldlFst_stored
    | ((with_reducible intro _ _ _ _); try dsimp only)
    | ((with_reducible intro _ _ _); try dsimp only)
    | ((with_reducible intro _ _); try dsimp only)
    | split
    | dsimp only

theorem skewWrite_stored {s : State} (a b c d e) (h : s.stored = true) : (skewWrite a b c d e s).stored = true := by
  unfold skewWrite
  try dsimp only
  repeat' first
    | with_reducible assumption
    | with_reducible apply portWrite_stored
    | with_reducible apply forEach_stored
    | ((with_reducible intro _ _ _ _); try dsimp only)
    | ((with_reducible intro _ _ _); try dsimp only)
    | ((with_reducible intro _ _); try dsimp only)

theorem movFinish_stored {s : State} (a b c) (h : s.stored = true) : (movFinish a b c s).stored = true := by
  unfold movFinish
  try dsimp only
  repeat' first
    | with_reducible assumption
    | with_reducible apply skewWrite_stored
    | with_reducible apply portWrite_stored
    | with_reducible apply forEach_stored
    | ((with_reducible intro _ _ _ _); try dsimp only)
    | ((with_reducible intro _ _ _); try dsimp only)
    | ((with_reducible intro _ _); try dsimp only)
    | split
    | dsimp only

theorem completeMov_stored {s : State} (a b) (h : s.stored = true) : (completeMov a b s).stored = true := by
  unfold completeMov
  try dsimp only
  repeat' first
    | with_reducible assumption
    | with_reducible apply movFinish_stored
    | with_reducible apply SameExcept.stored (delXfer_reach _ _) rfl
    | with_reducible apply SameExcept.stored (postDone_reach _ _) rfl
    | with_reducible apply pumpMovs_stored
    | with_reducible apply SameExcept.stored (retireOp_reach _ _ _) rfl
    | split
    | dsimp only

theorem checkUnseal_stored {s : State} (a b) (h : s.stored = true) : (checkUnseal a b s).stored = true := by
  unfold checkUnseal
  try dsimp only
  repeat' first
    | with_reducible assumption
    | with_reducible apply SameExcept.stored (setXfer_reach _ _ _) rfl
    | with_reducible apply portWrite_stored
    | with_reducible apply poisonRange_stored
    | with_reducible apply SameExcept.stored (updCore_reach _ _ _) rfl
    | with_reducible apply SameExcept.stored (logEvent_reach _ _ _ _) rfl
    | split
    | dsimp only

theorem cancelAbroad_stored {s : State} (a) (h : s.stored = true) : (cancelAbroad a s).stored = true := by
  unfold cancelAbroad
  try dsimp only
  repeat' first
    | with_reducible assumption
    | with_reducible apply cancelXfer_stored
    | with_reducible apply forEach_stored
    | ((with_reducible intro _ _ _ _); try dsimp only)
    | ((with_reducible intro _ _ _); try dsimp only)
    | ((with_reducible intro _ _); try dsimp only)

theorem waitTimeout_stored {s : State} (a) (h : s.stored = true) : (waitTimeout a s).stored = true := by
  unfold waitTimeout
  try dsimp only
  repeat' first
    | with_reducible assumption
    | with_reducible apply cancelAbroad_stored
    | with_reducible apply SameExcept.stored (endEarly_reach _ _ _ _) rfl
    | with_reducible apply SameExcept.stored (recordFault_reach _ _ _ _ _) rfl
    | split
    | dsimp only

end Sys2Proof.Machine
end

