-- ==== Sys2Proof/Laws/Sequencer.lean ====
section
/-! SUPPORT. What each operation of Machine/Sequencer.lean reaches: every other part of the state is as it was (`_reach`), and memory and the
marks keep their canonical form (`_stored`). -/

namespace Sys2Proof.Machine

set_option linter.unusedTactic false
set_option linter.unreachableTactic false
set_option linter.unnecessarySeqFocus false

theorem fetchBlock_reach (a b c d s) : SameExcept [.log, .plan, .isl, .pm, .mem, .poison, .cache, .mc, .seg, .xfers, .qs, .sems, .cores, .links, .grinders] s (fetchBlock a b c d s) := by
  unfold fetchBlock
  try dsimp only
  repeat' first
    | with_reducible exact SameExcept.refl _ _
    | ((with_reducible apply covers_intro); decide)
    | with_reducible apply SameExcept.step (translate_reach _ _ _ _)
    | with_reducible apply SameExcept.step (endEarly_reach _ _ _ _)
    | with_reducible apply SameExcept.step (hbmRead_reach _ _ _ _ _)
    | with_reducible apply SameExcept.step (hbmTurn_reach _ _ _ _)
    | with_reducible apply SameExcept.step (spoilFlit_reach _ _ _)
    | with_reducible apply SameExcept.step (prefetchOps_reach _ _)
    | with_reducible apply SameExcept.step (updCore_reach _ _ _)
    | split
    | dsimp only

theorem stopStreams_reach (a s) : SameExcept [.isl, .qs, .sems, .cores, .links, .grinders] s (stopStreams a s) := by
  unfold stopStreams
  try dsimp only
  repeat' first
    | with_reducible exact SameExcept.refl _ _
    | ((with_reducible apply covers_intro); decide)
    | with_reducible apply SameExcept.step (dropChunkTake_reach _ _)
    | with_reducible apply SameExcept.step (setLink_reach _ _ _)

theorem resetLink_reach (a b s) : SameExcept [.log, .isl, .qs, .sems, .cores, .links, .grinders] s (resetLink a b s) := by
  unfold resetLink
  try dsimp only
  repeat' first
    | with_reducible exact SameExcept.refl _ _
    | ((with_reducible apply covers_intro); decide)
    | with_reducible apply SameExcept.step (resetEnds_reach _ _ _)
    | with_reducible apply SameExcept.step (logEvent_reach _ _ _ _)
    | with_reducible apply SameExcept.step (setLink_reach _ _ _)
    | with_reducible apply SameExcept.step (semSet_reach _ _ _)

theorem setHost_reach (s b c) : SameExcept [.host] s (setHost s b c) := by
  unfold setHost
  try dsimp only
  repeat' first
    | with_reducible exact SameExcept.refl _ _
    | ((with_reducible apply covers_intro); decide)
    | ((with_reducible apply FieldsSame.intro); intro q hq; cases q <;> first | exact absurd (by decide) hq | (dsimp only [Part.same, memByte]; done) | (dsimp only [Part.same, memByte]; exact ⟨rfl, fun _ => rfl⟩) | (dsimp only [Part.same]; exact ⟨rfl, rfl⟩))
    | with_reducible apply SameExcept.fields

theorem updHost_reach (s b c) : SameExcept [.host] s (updHost s b c) := by
  unfold updHost
  try dsimp only
  repeat' first
    | with_reducible exact SameExcept.refl _ _
    | ((with_reducible apply covers_intro); decide)
    | with_reducible apply SameExcept.step (setHost_reach _ _ _)

theorem setGk_reach (s b c) : SameExcept [.host] s (setGk s b c) := by
  unfold setGk
  try dsimp only
  repeat' first
    | with_reducible exact SameExcept.refl _ _
    | ((with_reducible apply covers_intro); decide)
    | ((with_reducible apply FieldsSame.intro); intro q hq; cases q <;> first | exact absurd (by decide) hq | (dsimp only [Part.same, memByte]; done) | (dsimp only [Part.same, memByte]; exact ⟨rfl, fun _ => rfl⟩) | (dsimp only [Part.same]; exact ⟨rfl, rfl⟩))
    | with_reducible apply SameExcept.fields

theorem updGk_reach (s b c) : SameExcept [.host] s (updGk s b c) := by
  unfold updGk
  try dsimp only
  repeat' first
    | with_reducible exact SameExcept.refl _ _
    | ((with_reducible apply covers_intro); decide)
    | with_reducible apply SameExcept.step (setGk_reach _ _ _)

theorem dropLost_reach (a s) : SameExcept [.host, .qs] s (dropLost a s) := by
  unfold dropLost
  try dsimp only
  repeat' first
    | with_reducible exact SameExcept.refl _ _
    | ((with_reducible apply covers_intro); decide)
    | with_reducible apply SameExcept.step (updHost_reach _ _ _)
    | with_reducible apply SameExcept.step (updQ_reach _ _ _)
    | split
    | dsimp only

theorem settleLoss_reach (a s) : SameExcept [.log, .host] s (settleLoss a s) := by
  unfold settleLoss
  try dsimp only
  repeat' first
    | with_reducible exact SameExcept.refl _ _
    | ((with_reducible apply covers_intro); decide)
    | with_reducible apply SameExcept.step (updHost_reach _ _ _)
    | with_reducible apply SameExcept.step (logEvent_reach _ _ _ _)
    | split
    | dsimp only

theorem settleRelease_reach (a s) : SameExcept [.host, .qs] s (settleRelease a s) := by
  unfold settleRelease
  try dsimp only
  repeat' first
    | with_reducible exact SameExcept.refl _ _
    | ((with_reducible apply covers_intro); decide)
    | with_reducible apply SameExcept.step (updHost_reach _ _ _)
    | with_reducible apply SameExcept.step (updQ_reach _ _ _)
    | with_reducible apply SameExcept.forEach
    | ((with_reducible intro _ _); try dsimp only)
    | ((with_reducible intro _); try dsimp only)
    | split

theorem settleHosts_reach (s) : SameExcept [.log, .host, .qs] s (settleHosts s) := by
  unfold settleHosts
  try dsimp only
  repeat' first
    | with_reducible exact SameExcept.refl _ _
    | ((with_reducible apply covers_intro); decide)
    | with_reducible apply SameExcept.step (settleRelease_reach _ _)
    | with_reducible apply SameExcept.step (settleLoss_reach _ _)

theorem addReceipt_reach (a s) : SameExcept [.qs] s (addReceipt a s) := by
  unfold addReceipt
  try dsimp only
  repeat' first
    | with_reducible exact SameExcept.refl _ _
    | ((with_reducible apply covers_intro); decide)
    | with_reducible apply SameExcept.step (updQ_reach _ _ _)

theorem freeSlot_reach (a b c s) : SameExcept [.qs] s (freeSlot a b c s) := by
  unfold freeSlot
  try dsimp only
  repeat' first
    | with_reducible exact SameExcept.refl _ _
    | ((with_reducible apply covers_intro); decide)
    | ((with_reducible apply FieldsSame.intro); intro q hq; cases q <;> first | exact absurd (by decide) hq | (dsimp only [Part.same, memByte]; done) | (dsimp only [Part.same, memByte]; exact ⟨rfl, fun _ => rfl⟩) | (dsimp only [Part.same]; exact ⟨rfl, rfl⟩))
    | split
    | dsimp only
    | with_reducible apply SameExcept.fields

theorem freeCore_reach (a b s) : SameExcept [.isl, .cores] s (freeCore a b s) := by
  unfold freeCore
  try dsimp only
  repeat' first
    | with_reducible exact SameExcept.refl _ _
    | ((with_reducible apply covers_intro); decide)
    | with_reducible apply SameExcept.step (updIsl_reach _ _ _)
    | with_reducible apply SameExcept.step (updCore_reach _ _ _)
    | split

theorem finishInv_reach (a s) : SameExcept [.log, .isl, .xfers, .host, .qs, .sems, .cores, .links, .grinders] s (finishInv a s) := by
  unfold finishInv
  try dsimp only
  repeat' first
    | with_reducible exact SameExcept.refl _ _
    | ((with_reducible apply covers_intro); decide)
    | with_reducible apply SameExcept.step (stopStreams_reach _ _)
    | with_reducible apply SameExcept.step (resetLink_reach _ _ _)
    | with_reducible apply SameExcept.step (freeCore_reach _ _ _)
    | with_reducible apply SameExcept.step (delXfer_reach _ _)
    | with_reducible apply SameExcept.step (freeSlot_reach _ _ _ _)
    | with_reducible apply SameExcept.step (settleHosts_reach _)
    | with_reducible apply SameExcept.step (dropLost_reach _ _)
    | with_reducible apply SameExcept.step (addReceipt_reach _ _)
    | with_reducible apply SameExcept.forEach
    | ((with_reducible apply FieldsSame.intro); intro q hq; cases q <;> first | exact absurd (by decide) hq | (dsimp only [Part.same, memByte]; done) | (dsimp only [Part.same, memByte]; exact ⟨rfl, fun _ => rfl⟩) | (dsimp only [Part.same]; exact ⟨rfl, rfl⟩))
    | ((with_reducible intro _ _); try dsimp only)
    | ((with_reducible intro _); try dsimp only)
    | split
    | dsimp only
    | with_reducible apply SameExcept.fields

theorem drainCore_reach (a s) : SameExcept [.isl, .xfers, .qs, .sems, .cores, .links, .grinders] s (drainCore a s) := by
  unfold drainCore
  try dsimp only
  repeat' first
    | with_reducible exact SameExcept.refl _ _
    | ((with_reducible apply covers_intro); decide)
    | with_reducible apply SameExcept.step (semLeave_reach _ _ _)
    | with_reducible apply SameExcept.step (dropGone_reach _ _)
    | with_reducible apply SameExcept.step (updCore_reach _ _ _)
    | split
    | dsimp only

theorem requestSwitch_reach (a b s) : SameExcept [.log, .isl, .xfers, .qs, .sems, .cores, .links, .grinders] s (requestSwitch a b s) := by
  unfold requestSwitch
  try dsimp only
  repeat' first
    | with_reducible exact SameExcept.refl _ _
    | ((with_reducible apply covers_intro); decide)
    | with_reducible apply SameExcept.step (setInv_reach _ _ _)
    | with_reducible apply SameExcept.step (drainCore_reach _ _)
    | with_reducible apply SameExcept.step (logEvent_reach _ _ _ _)
    | with_reducible apply SameExcept.forEach
    | ((with_reducible apply FieldsSame.intro); intro q hq; cases q <;> first | exact absurd (by decide) hq | (dsimp only [Part.same, memByte]; done) | (dsimp only [Part.same, memByte]; exact ⟨rfl, fun _ => rfl⟩) | (dsimp only [Part.same]; exact ⟨rfl, rfl⟩))
    | ((with_reducible intro _ _); try dsimp only)
    | ((with_reducible intro _); try dsimp only)
    | split
    | dsimp only
    | with_reducible apply SameExcept.fields

theorem saveCore_reach (a s) : SameExcept [.freeCtr, .mem, .poison, .cores] s (saveCore a s) := by
  unfold saveCore
  try dsimp only
  repeat' first
    | with_reducible exact SameExcept.refl _ _
    | ((with_reducible apply covers_intro); decide)
    | with_reducible apply SameExcept.step (drawFree_reach _)
    | with_reducible apply SameExcept.step (setCore_reach _ _ _)
    | with_reducible apply SameExcept.step (scrWrite_reach _ _ _ _)
    | split
    | dsimp only

theorem saveDone_reach (a s) : SameExcept [.log, .plan, .isl, .pm, .mem, .poison, .cache, .mc, .qs, .cores] s (saveDone a s) := by
  unfold saveDone
  try dsimp only
  repeat' first
    | with_reducible exact SameExcept.refl _ _
    | ((with_reducible apply covers_intro); decide)
    | with_reducible apply SameExcept.step (hbmWrite_reach _ _ _ _ _)
    | with_reducible apply SameExcept.step (hbmTurn_reach _ _ _ _)
    | with_reducible apply SameExcept.step (freeCore_reach _ _ _)
    | with_reducible apply SameExcept.step (setInv_reach _ _ _)
    | with_reducible apply SameExcept.foldl
    | with_reducible apply SameExcept.foldlFst
    | ((with_reducible apply FieldsSame.intro); intro q hq; cases q <;> first | exact absurd (by decide) hq | (dsimp only [Part.same, memByte]; done) | (dsimp only [Part.same, memByte]; exact ⟨rfl, fun _ => rfl⟩) | (dsimp only [Part.same]; exact ⟨rfl, rfl⟩))
    | ((with_reducible intro _ _); try dsimp only)
    | ((with_reducible intro _); try dsimp only)
    | split
    | dsimp only
    | with_reducible apply SameExcept.fields

theorem restoreCore_reach (a b c d s) : SameExcept [.log, .isl, .mem, .poison, .seg, .xfers, .net, .qs, .sems, .cores, .links, .grinders] s (restoreCore a b c d s) := by
  unfold restoreCore
  try dsimp only
  repeat' first
    | with_reducible exact SameExcept.refl _ _
    | ((with_reducible apply covers_intro); decide)
    | with_reducible apply SameExcept.step (scrWrite_reach _ _ _ _)
    | with_reducible apply SameExcept.step (setCore_reach _ _ _)
    | with_reducible apply SameExcept.step (updIsl_reach _ _ _)
    | with_reducible apply SameExcept.step (newXfer_reach _ _)
    | with_reducible apply SameExcept.step (updCore_reach _ _ _)
    | with_reducible apply SameExcept.forEach
    | with_reducible apply SameExcept.foldl
    | with_reducible apply SameExcept.foldlFst
    | ((with_reducible intro _ _); try dsimp only)
    | ((with_reducible intro _); try dsimp only)
    | split
    | dsimp only

theorem resumeInv_reach (a b s) : SameExcept [.log, .isl, .mem, .poison, .seg, .xfers, .net, .qs, .sems, .cores, .links, .grinders] s (resumeInv a b s) := by
  unfold resumeInv
  try dsimp only
  repeat' first
    | with_reducible exact SameExcept.refl _ _
    | ((with_reducible apply covers_intro); decide)
    | with_reducible apply SameExcept.step (endEarly_reach _ _ _ _)
    | with_reducible apply SameExcept.step (freeSlot_reach _ _ _ _)
    | with_reducible apply SameExcept.step (setInv_reach _ _ _)
    | with_reducible apply SameExcept.step (restoreCore_reach _ _ _ _ _)
    | with_reducible apply SameExcept.forEach
    | ((with_reducible intro _ _); try dsimp only)
    | ((with_reducible intro _); try dsimp only)
    | split
    | dsimp only

theorem restoreDone_reach (a s) : SameExcept [.log, .isl, .mem, .poison, .seg, .xfers, .net, .qs, .sems, .cores, .links, .grinders] s (restoreDone a s) := by
  unfold restoreDone
  try dsimp only
  repeat' first
    | with_reducible exact SameExcept.refl _ _
    | ((with_reducible apply covers_intro); decide)
    | with_reducible apply SameExcept.step (delXfer_reach _ _)
    | with_reducible apply SameExcept.step (updCore_reach _ _ _)
    | with_reducible apply SameExcept.step (beginMov_reach _ _ _)
    | with_reducible apply SameExcept.step (updInv_reach _ _ _)
    | with_reducible apply SameExcept.forEach
    | ((with_reducible intro _ _); try dsimp only)
    | ((with_reducible intro _); try dsimp only)
    | split
    | dsimp only

theorem issueChunk_reach (a s) : SameExcept [.log, .isl, .mem, .poison, .seg, .xfers, .net, .qs, .sems, .cores, .links, .grinders] s (issueChunk a s) := by
  unfold issueChunk
  try dsimp only
  repeat' first
    | with_reducible exact SameExcept.refl _ _
    | ((with_reducible apply covers_intro); decide)
    | with_reducible apply SameExcept.step (semTake_reach _ _ _ _)
    | with_reducible apply SameExcept.step (setLink_reach _ _ _)
    | with_reducible apply SameExcept.step (newXfer_reach _ _)
    | with_reducible apply SameExcept.step (prefetchLink_reach _ _)
    | split
    | dsimp only

theorem chunkLanded_reach (a b s) : SameExcept [.log, .isl, .xfers, .qs, .sems, .cores, .links, .grinders] s (chunkLanded a b s) := by
  unfold chunkLanded
  try dsimp only
  repeat' first
    | with_reducible exact SameExcept.refl _ _
    | ((with_reducible apply covers_intro); decide)
    | with_reducible apply SameExcept.step (setLink_reach _ _ _)
    | with_reducible apply SameExcept.step (delXfer_reach _ _)
    | with_reducible apply SameExcept.step (semPost_reach _ _ _)
    | with_reducible apply SameExcept.forEach
    | ((with_reducible intro _ _); try dsimp only)
    | ((with_reducible intro _); try dsimp only)
    | split
    | dsimp only

theorem stallXfer_reach (a s) : SameExcept [.log, .isl, .mem, .poison, .seg, .xfers, .net, .host, .qs, .sems, .cores, .links, .grinders] s (stallXfer a s) := by
  unfold stallXfer
  try dsimp only
  repeat' first
    | with_reducible exact SameExcept.refl _ _
    | ((with_reducible apply covers_intro); decide)
    | with_reducible apply SameExcept.step (cancelXfer_reach _ _)
    | split
    | dsimp only

theorem stepCore_reach (a b s) : SameExcept [.log, .isl, .mem, .poison, .seg, .xfers, .net, .qs, .sems, .cores, .links, .grinders] s (stepCore a b s) := by
  unfold stepCore
  try dsimp only
  repeat' first
    | with_reducible exact SameExcept.refl _ _
    | ((with_reducible apply covers_intro); decide)
    | with_reducible apply SameExcept.step (updCore_reach _ _ _)
    | with_reducible apply SameExcept.step (issueAt_reach _ _ _ _)
    | split

theorem haltCore_reach (a b s) : SameExcept [.cores] s (haltCore a b s) := by
  unfold haltCore
  try dsimp only
  repeat' first
    | with_reducible exact SameExcept.refl _ _
    | ((with_reducible apply covers_intro); decide)
    | with_reducible apply SameExcept.step (updCore_reach _ _ _)
    | split

theorem whenReached_reach {ps : List Part} {s0 s : State} {w f}
    (hf : ∀ t, SameExcept ps t (f t)) (h0 : SameExcept ps s0 s) : SameExcept ps s0 (whenReached w f s) := by
  refine h0.trans ?_
  unfold whenReached
  try dsimp only
  repeat' first
    | with_reducible exact SameExcept.refl _ _
    | ((with_reducible apply covers_intro); decide)
    | with_reducible exact hf _
    | ((with_reducible intro _ _); try dsimp only)
    | ((with_reducible intro _); try dsimp only)
    | split

theorem answer_reach (a s) : SameExcept [.answers] s (answer a s) := by
  unfold answer
  try dsimp only
  repeat' first
    | with_reducible exact SameExcept.refl _ _
    | ((with_reducible apply covers_intro); decide)
    | ((with_reducible apply FieldsSame.intro); intro q hq; cases q <;> first | exact absurd (by decide) hq | (dsimp only [Part.same, memByte]; done) | (dsimp only [Part.same, memByte]; exact ⟨rfl, fun _ => rfl⟩) | (dsimp only [Part.same]; exact ⟨rfl, rfl⟩))
    | with_reducible apply SameExcept.fields

theorem debugRead_reach (a b c d s) : SameExcept [.cores, .answers] s (debugRead a b c d s) := by
  unfold debugRead
  try dsimp only
  repeat' first
    | with_reducible exact SameExcept.refl _ _
    | ((with_reducible apply covers_intro); decide)
    | with_reducible apply SameExcept.step (answer_reach _ _)
    | with_reducible apply SameExcept.step (setCore_reach _ _ _)
    | split

/-! ### The canonical form -/

theorem fetchBlock_stored {s : State} (a b c d) (h : s.stored = true) : (fetchBlock a b c d s).stored = true := by
  unfold fetchBlock
  try dsimp only
  repeat' first
    | with_reducible assumption
    | with_reducible apply SameExcept.stored (translate_reach _ _ _ _) rfl
    | with_reducible apply SameExcept.stored (endEarly_reach _ _ _ _) rfl
    | with_reducible apply hbmRead_stored
    | with_reducible apply SameExcept.stored (hbmTurn_reach _ _ _ _) rfl
    | with_reducible apply SameExcept.stored (spoilFlit_reach _ _ _) rfl
    | with_reducible apply SameExcept.stored (prefetchOps_reach _ _) rfl
    | with_reducible apply SameExcept.stored (updCore_reach _ _ _) rfl
    | split
    | dsimp only

theorem saveCore_stored {s : State} (a) (h : s.stored = true) : (saveCore a s).stored = true := by
  unfold saveCore
  try dsimp only
  repeat' first
    | with_reducible assumption
    | with_reducible apply SameExcept.stored (drawFree_reach _) rfl
    | with_reducible apply SameExcept.stored (setCore_reach _ _ _) rfl
    | with_reducible apply scrWrite_stored
    | split
    | dsimp only

theorem saveDone_stored {s : State} (a) (h : s.stored = true) : (saveDone a s).stored = true := by
  unfold saveDone
  try dsimp only
  repeat' first
    | with_reducible assumption
    | with_reducible apply hbmWrite_stored
    | with_reducible apply SameExcept.stored (hbmTurn_reach _ _ _ _) rfl
    | with_reducible apply SameExcept.stored (freeCore_reach _ _ _) rfl
    | with_reducible apply SameExcept.stored (setInv_reach _ _ _) rfl
    | with_reducible apply foldl_stored
    | with_reducible apply foldlFst_stored
    | ((with_reducible intro _ _ _ _); try dsimp only)
    | ((with_reducible intro _ _ _); try dsimp only)
    | ((with_reducible intro _ _); try dsimp only)
    | split
    | dsimp only
    | with_reducible apply fields_stored

theorem restoreCore_stored {s : State} (a b c d) (h : s.stored = true) : (restoreCore a b c d s).stored = true := by
  unfold restoreCore
  try dsimp only
  repeat' first
    | with_reducible assumption
    | with_reducible apply scrWrite_stored
    | with_reducible apply SameExcept.stored (setCore_reach _ _ _) rfl
    | with_reducible apply SameExcept.stored (updIsl_reach _ _ _) rfl
    | with_reducible apply newXfer_stored
    | with_reducible apply SameExcept.stored (updCore_reach _ _ _) rfl
    | with_reducible apply forEach_stored
    | with_reducible apply foldl_stored
    | with_reducible apply foldlFst_stored
    | ((with_reducible intro _ _ _ _); try dsimp only)
    | ((with_reducible intro _ _ _); try dsimp only)
    | ((with_reducible intro _ _); try dsimp only)
    | split
    | dsimp only

theorem resumeInv_stored {s : State} (a b) (h : s.stored = true) : (resumeInv a b s).stored = true := by
  unfold resumeInv
  try dsimp only
  repeat' first
    | with_reducible assumption
    | with_reducible apply SameExcept.stored (endEarly_reach _ _ _ _) rfl
    | with_reducible apply SameExcept.stored (freeSlot_reach _ _ _ _) rfl
    | with_reducible apply SameExcept.stored (setInv_reach _ _ _) rfl
    | with_reducible apply restoreCore_stored
    | with_reducible apply forEach_stored
    | ((with_reducible intro _ _ _ _); try dsimp only)
    | ((with_reducible intro _ _ _); try dsimp only)
    | ((with_reducible intro _ _); try dsimp only)
    | split
    | dsimp only

theorem restoreDone_stored {s : State} (a) (h : s.stored = true) : (restoreDone a s).stored = true := by
  unfold restoreDone
  try dsimp only
  repeat' first
    | with_reducible assumption
    | with_reducible apply SameExcept.stored (delXfer_reach _ _) rfl
    | with_reducible apply SameExcept.stored (updCore_reach _ _ _) rfl
    | with_reducible apply beginMov_stored
    | with_reducible apply SameExcept.stored (updInv_reach _ _ _) rfl
    | with_reducible apply forEach_stored
    | ((with_reducible intro _ _ _ _); try dsimp only)
    | ((with_reducible intro _ _ _); try dsimp only)
    | ((with_reducible intro _ _); try dsimp only)
    | split
    | dsimp only

theorem issueChunk_stored {s : State} (a) (h : s.stored = true) : (issueChunk a s).stored = true := by
  unfold issueChunk
  try dsimp only
  repeat' first
    | with_reducible assumption
    | with_reducible apply SameExcept.stored (semTake_reach _ _ _ _) rfl
    | with_reducible apply SameExcept.stored (setLink_reach _ _ _) rfl
    | with_reducible apply newXfer_stored
    | with_reducible apply SameExcept.stored (prefetchLink_reach _ _) rfl
    | split
    | dsimp only

theorem stallXfer_stored {s : State} (a) (h : s.stored = true) : (stallXfer a s).stored = true := by
  unfold stallXfer
  try dsimp only
  repeat' first
    | with_reducible assumption
    | with_reducible apply cancelXfer_stored
    | split
    | dsimp only

theorem stepCore_stored {s : State} (a b) (h : s.stored = true) : (stepCore a b s).stored = true := by
  unfold stepCore
  try dsimp only
  repeat' first
    | with_reducible assumption
    | with_reducible apply SameExcept.stored (updCore_reach _ _ _) rfl
    | with_reducible apply issueAt_stored
    | split

theorem whenReached_stored {s : State} {w f}
    (hf : ∀ t, t.stored = true → (f t).stored = true) (h : s.stored = true) : (whenReached w f s).stored = true := by
  unfold whenReached
  try dsimp only
  repeat' first
    | with_reducible assumption
    | with_reducible apply hf
    | ((with_reducible intro _ _ _ _); try dsimp only)
    | ((with_reducible intro _ _ _); try dsimp only)
    | ((with_reducible intro _ _); try dsimp only)
    | split

end Sys2Proof.Machine
end

