-- ==== Sys2Proof/Laws/Grinder.lean ====
section
/-! SUPPORT. What each operation of Machine/Grinder.lean reaches: every other part of the state is as it was (`_reach`), and memory and the
marks keep their canonical form (`_stored`). -/

namespace Sys2Proof.Machine

set_option linter.unusedTactic false
set_option linter.unreachableTactic false
set_option linter.unnecessarySeqFocus false

theorem setGrinder_reach (s b c) : SameExcept [.grinders] s (setGrinder s b c) := by
  unfold setGrinder
  try dsimp only
  repeat' first
    | with_reducible exact SameExcept.refl _ _
    | ((with_reducible apply covers_intro); decide)
    | ((with_reducible apply FieldsSame.intro); intro q hq; cases q <;> first | exact absurd (by decide) hq | (dsimp only [Part.same, memByte]; done) | (dsimp only [Part.same, memByte]; exact ⟨rfl, fun _ => rfl⟩) | (dsimp only [Part.same]; exact ⟨rfl, rfl⟩))
    | with_reducible apply SameExcept.fields

theorem setStore_reach (s b c) : SameExcept [.stores] s (setStore s b c) := by
  unfold setStore
  try dsimp only
  repeat' first
    | with_reducible exact SameExcept.refl _ _
    | ((with_reducible apply covers_intro); decide)
    | ((with_reducible apply FieldsSame.intro); intro q hq; cases q <;> first | exact absurd (by decide) hq | (dsimp only [Part.same, memByte]; done) | (dsimp only [Part.same, memByte]; exact ⟨rfl, fun _ => rfl⟩) | (dsimp only [Part.same]; exact ⟨rfl, rfl⟩))
    | with_reducible apply SameExcept.fields

theorem updStore_reach (s b c) : SameExcept [.stores] s (updStore s b c) := by
  unfold updStore
  try dsimp only
  repeat' first
    | with_reducible exact SameExcept.refl _ _
    | ((with_reducible apply covers_intro); decide)
    | with_reducible apply SameExcept.step (setStore_reach _ _ _)

theorem updBatch_reach (a b c s) : SameExcept [.grinders] s (updBatch a b c s) := by
  unfold updBatch
  try dsimp only
  repeat' first
    | with_reducible exact SameExcept.refl _ _
    | ((with_reducible apply covers_intro); decide)
    | with_reducible apply SameExcept.step (setGrinder_reach _ _ _)
    | split

theorem readFar_reach (a b c d s) : SameExcept [.log, .isl, .mem, .poison, .seg, .xfers, .net, .qs, .sems, .cores, .links, .grinders] s (readFar a b c d s).2 := by
  unfold readFar
  try dsimp only
  repeat' first
    | with_reducible exact SameExcept.refl _ _
    | ((with_reducible apply covers_intro); decide)
    | with_reducible apply SameExcept.step (newXfer_reach _ _)
    | dsimp only

theorem takeXfer_reach (a s) : SameExcept [.xfers] s (takeXfer a s).2 := by
  unfold takeXfer
  try dsimp only
  repeat' first
    | with_reducible exact SameExcept.refl _ _
    | ((with_reducible apply covers_intro); decide)
    | with_reducible apply SameExcept.step (delXfer_reach _ _)
    | split
    | dsimp only

theorem ringWrite_reach (a b c d s) : SameExcept [.isl, .mem, .poison] s (ringWrite a b c d s) := by
  unfold ringWrite
  try dsimp only
  repeat' first
    | with_reducible exact SameExcept.refl _ _
    | ((with_reducible apply covers_intro); decide)
    | with_reducible apply SameExcept.step (sendScr_reach _ _ _ _)

theorem linkTake_reach (a b c d e s) : SameExcept [.sems, .grinders] s (linkTake a b c d e s).2 := by
  unfold linkTake
  try dsimp only
  repeat' first
    | with_reducible exact SameExcept.refl _ _
    | ((with_reducible apply covers_intro); decide)
    | with_reducible apply SameExcept.step (setGrinder_reach _ _ _)
    | with_reducible apply SameExcept.step (setSem_reach _ _ _)
    | split
    | dsimp only

theorem takeRing_reach (a b c d s) : SameExcept [.log, .isl, .qs, .sems, .cores, .links, .grinders] s (takeRing a b c d s).2 := by
  unfold takeRing
  try dsimp only
  repeat' first
    | with_reducible exact SameExcept.refl _ _
    | ((with_reducible apply covers_intro); decide)
    | with_reducible apply SameExcept.step (linkTake_reach _ _ _ _ _ _)
    | with_reducible apply SameExcept.step (wakeIsl_reach _ _)
    | with_reducible apply SameExcept.step (setGrinder_reach _ _ _)
    | with_reducible apply SameExcept.step (semPost_reach _ _ _)
    | split
    | dsimp only

theorem applyWindows_reach (a b s) : SameExcept [.grinders] s (applyWindows a b s) := by
  unfold applyWindows
  try dsimp only
  repeat' first
    | with_reducible exact SameExcept.refl _ _
    | ((with_reducible apply covers_intro); decide)
    | with_reducible apply SameExcept.step (updBatch_reach _ _ _ _)
    | split
    | dsimp only

theorem intake_reach (a b c s) : SameExcept [.log, .isl, .mem, .poison, .seg, .xfers, .net, .qs, .sems, .cores, .links, .grinders] s (intake a b c s) := by
  induction a generalizing b c s with
  | zero => exact SameExcept.refl _ _
  | succ n ih =>
    unfold intake
    try dsimp only
    repeat' first
      | with_reducible exact SameExcept.refl _ _
      | ((with_reducible apply covers_intro); decide)
      | with_reducible apply SameExcept.step (ih _ _ _)
      | with_reducible apply SameExcept.step (setGrinder_reach _ _ _)
      | with_reducible apply SameExcept.step (readFar_reach _ _ _ _ _)
      | with_reducible apply SameExcept.step (updBatch_reach _ _ _ _)
      | split
      | dsimp only

theorem intakeOne_reach (a b s) : SameExcept [.log, .isl, .mem, .poison, .seg, .xfers, .net, .qs, .sems, .cores, .links, .grinders] s (intakeOne a b s) := by
  unfold intakeOne
  try dsimp only
  repeat' first
    | with_reducible exact SameExcept.refl _ _
    | ((with_reducible apply covers_intro); decide)
    | with_reducible apply SameExcept.step (applyWindows_reach _ _ _)
    | with_reducible apply SameExcept.step (intake_reach _ _ _ _)
    | with_reducible apply SameExcept.step (setGrinder_reach _ _ _)
    | split
    | dsimp only

theorem intakeAll_reach (a s) : SameExcept [.log, .isl, .mem, .poison, .seg, .xfers, .net, .qs, .sems, .cores, .links, .grinders] s (intakeAll a s) := by
  unfold intakeAll
  try dsimp only
  repeat' first
    | with_reducible exact SameExcept.refl _ _
    | ((with_reducible apply covers_intro); decide)
    | with_reducible apply SameExcept.step (intakeOne_reach _ _ _)
    | with_reducible apply SameExcept.forEach
    | ((with_reducible intro _ _); try dsimp only)
    | ((with_reducible intro _); try dsimp only)

theorem noteRange_reach (a b c d s) : SameExcept [.log] s (noteRange a b c d s) := by
  unfold noteRange
  try dsimp only
  repeat' first
    | with_reducible exact SameExcept.refl _ _
    | ((with_reducible apply covers_intro); decide)
    | with_reducible apply SameExcept.step (logEvent_reach _ _ _ _)
    | split
    | dsimp only

theorem beginBatch_reach (a s) : SameExcept [.log, .isl, .mem, .poison, .seg, .xfers, .net, .qs, .sems, .cores, .links, .grinders] s (beginBatch a s) := by
  unfold beginBatch
  try dsimp only
  repeat' first
    | with_reducible exact SameExcept.refl _ _
    | ((with_reducible apply covers_intro); decide)
    | with_reducible apply SameExcept.step (takeXfer_reach _ _)
    | with_reducible apply SameExcept.step (setGrinder_reach _ _ _)
    | with_reducible apply SameExcept.step (endEarly_reach _ _ _ _)
    | with_reducible apply SameExcept.step (logEvent_reach _ _ _ _)
    | with_reducible apply SameExcept.step (readFar_reach _ _ _ _ _)
    | with_reducible apply SameExcept.step (updBatch_reach _ _ _ _)
    | split
    | dsimp only

theorem startPooling_reach (a b c d e f s) : SameExcept [.log, .isl, .mem, .poison, .seg, .xfers, .net, .qs, .sems, .cores, .links, .grinders] s (startPooling a b c d e f s) := by
  unfold startPooling
  try dsimp only
  repeat' first
    | with_reducible exact SameExcept.refl _ _
    | ((with_reducible apply covers_intro); decide)
    | with_reducible apply SameExcept.step (updBatch_reach _ _ _ _)
    | with_reducible apply SameExcept.step (noteRange_reach _ _ _ _ _)
    | with_reducible apply SameExcept.step (intakeAll_reach _ _)
    | split
    | dsimp only

theorem inputStep_reach (a b c s) : SameExcept [.log, .isl, .mem, .poison, .seg, .xfers, .net, .qs, .sems, .cores, .links, .grinders] s (inputStep a b c s) := by
  unfold inputStep
  try dsimp only
  repeat' first
    | with_reducible exact SameExcept.refl _ _
    | ((with_reducible apply covers_intro); decide)
    | with_reducible apply SameExcept.step (takeRing_reach _ _ _ _ _)
    | with_reducible apply SameExcept.step (updBatch_reach _ _ _ _)
    | with_reducible apply SameExcept.step (startPooling_reach _ _ _ _ _ _ _)
    | with_reducible apply SameExcept.step (takeXfer_reach _ _)
    | with_reducible apply SameExcept.step (readFar_reach _ _ _ _ _)
    | split
    | dsimp only

theorem prefetchGrinder_reach (a s) : SameExcept [.seg] s (prefetchGrinder a s) := by
  unfold prefetchGrinder
  try dsimp only
  repeat' first
    | with_reducible exact SameExcept.refl _ _
    | ((with_reducible apply covers_intro); decide)
    | with_reducible apply SameExcept.step (prefetch_reach _ _ _ _)
    | with_reducible apply SameExcept.forEach
    | ((with_reducible intro _ _); try dsimp only)
    | ((with_reducible intro _); try dsimp only)
    | split
    | dsimp only

theorem grinderBegin_reach (a s) : SameExcept [.log, .isl, .mem, .poison, .seg, .xfers, .net, .qs, .sems, .cores, .links, .grinders] s (grinderBegin a s) := by
  unfold grinderBegin
  try dsimp only
  repeat' first
    | with_reducible exact SameExcept.refl _ _
    | ((with_reducible apply covers_intro); decide)
    | with_reducible apply SameExcept.step (prefetchGrinder_reach _ _)
    | with_reducible apply SameExcept.step (inputStep_reach _ _ _ _)
    | with_reducible apply SameExcept.step (beginBatch_reach _ _)
    | split
    | dsimp only

theorem leaveLink_reach (a b c s) : SameExcept [.isl, .qs, .sems, .cores, .links, .grinders] s (leaveLink a b c s) := by
  unfold leaveLink
  try dsimp only
  repeat' first
    | with_reducible exact SameExcept.refl _ _
    | ((with_reducible apply covers_intro); decide)
    | with_reducible apply SameExcept.step (setGrinder_reach _ _ _)
    | with_reducible apply SameExcept.step (semSettle_reach _ _ _ _)
    | split
    | dsimp only

theorem stopBatch_reach (a b c s) : SameExcept [.isl, .qs, .sems, .cores, .links, .grinders] s (stopBatch a b c s) := by
  unfold stopBatch
  try dsimp only
  repeat' first
    | with_reducible exact SameExcept.refl _ _
    | ((with_reducible apply covers_intro); decide)
    | with_reducible apply SameExcept.step (updBatch_reach _ _ _ _)
    | with_reducible apply SameExcept.step (leaveLink_reach _ _ _ _)
    | split
    | dsimp only

theorem abortBatches_reach (a s) : SameExcept [.isl, .qs, .sems, .cores, .links, .grinders] s (abortBatches a s) := by
  unfold abortBatches
  try dsimp only
  repeat' first
    | with_reducible exact SameExcept.refl _ _
    | ((with_reducible apply covers_intro); decide)
    | with_reducible apply SameExcept.step (setGrinder_reach _ _ _)
    | with_reducible apply SameExcept.step (stopBatch_reach _ _ _ _)
    | with_reducible apply SameExcept.forEach
    | ((with_reducible intro _ _); try dsimp only)
    | ((with_reducible intro _); try dsimp only)
    | split

theorem rowReturn_reach (a b c s) : SameExcept [.log, .isl, .mem, .poison, .seg, .xfers, .net, .qs, .sems, .cores, .links, .grinders] s (rowReturn a b c s) := by
  unfold rowReturn
  try dsimp only
  repeat' first
    | with_reducible exact SameExcept.refl _ _
    | ((with_reducible apply covers_intro); decide)
    | with_reducible apply SameExcept.step (takeXfer_reach _ _)
    | with_reducible apply SameExcept.step (updBatch_reach _ _ _ _)
    | with_reducible apply SameExcept.step (intakeAll_reach _ _)
    | split
    | dsimp only

theorem dropUpdates_reach (a b c s) : SameExcept [.log, .isl, .qs, .sems, .cores, .links, .grinders, .stores] s (dropUpdates a b c s) := by
  unfold dropUpdates
  try dsimp only
  repeat' first
    | with_reducible exact SameExcept.refl _ _
    | ((with_reducible apply covers_intro); decide)
    | with_reducible apply SameExcept.step (postDone_reach _ _)
    | with_reducible apply SameExcept.step (setStore_reach _ _ _)
    | with_reducible apply SameExcept.forEach
    | ((with_reducible intro _ _); try dsimp only)
    | ((with_reducible intro _); try dsimp only)

theorem settleTable_reach (a b s) : SameExcept [.log, .isl, .qs, .sems, .cores, .links, .grinders, .stores] s (settleTable a b s) := by
  unfold settleTable
  try dsimp only
  repeat' first
    | with_reducible exact SameExcept.refl _ _
    | ((with_reducible apply covers_intro); decide)
    | with_reducible apply SameExcept.step (updStore_reach _ _ _)
    | with_reducible apply SameExcept.step (dropUpdates_reach _ _ _ _)
    | with_reducible apply SameExcept.step (logEvent_reach _ _ _ _)
    | with_reducible apply SameExcept.step (postDone_reach _ _)
    | split
    | dsimp only

theorem feedRing_reach (a b c d e s) : SameExcept [.log, .isl, .mem, .poison, .qs, .sems, .cores, .links, .grinders] s (feedRing a b c d e s) := by
  induction a generalizing s with
  | zero => exact SameExcept.refl _ _
  | succ n ih =>
    unfold feedRing
    try dsimp only
    repeat' first
      | with_reducible exact SameExcept.refl _ _
      | ((with_reducible apply covers_intro); decide)
      | with_reducible apply SameExcept.step (ih _)
      | with_reducible apply SameExcept.step (linkTake_reach _ _ _ _ _ _)
      | with_reducible apply SameExcept.step (ringWrite_reach _ _ _ _ _)
      | with_reducible apply SameExcept.step (setGrinder_reach _ _ _)
      | with_reducible apply SameExcept.step (updBatch_reach _ _ _ _)
      | with_reducible apply SameExcept.step (semPost_reach _ _ _)
      | split
      | dsimp only

theorem endBatch_reach (a b s) : SameExcept [.log, .isl, .mem, .poison, .seg, .xfers, .net, .qs, .sems, .cores, .links, .grinders, .stores] s (endBatch a b s) := by
  unfold endBatch
  try dsimp only
  repeat' first
    | with_reducible exact SameExcept.refl _ _
    | ((with_reducible apply covers_intro); decide)
    | with_reducible apply SameExcept.step (delXfer_reach _ _)
    | with_reducible apply SameExcept.step (setGrinder_reach _ _ _)
    | with_reducible apply SameExcept.step (updInv_reach _ _ _)
    | with_reducible apply SameExcept.step (retireOp_reach _ _ _)
    | with_reducible apply SameExcept.step (postDone_reach _ _)
    | with_reducible apply SameExcept.step (settleTable_reach _ _ _)
    | with_reducible apply SameExcept.step (intakeAll_reach _ _)
    | with_reducible apply SameExcept.forEach
    | ((with_reducible intro _ _); try dsimp only)
    | ((with_reducible intro _); try dsimp only)
    | split
    | dsimp only

theorem completeBatch_reach (a b s) : SameExcept [.log, .isl, .mem, .poison, .seg, .xfers, .net, .qs, .sems, .cores, .links, .grinders, .stores] s (completeBatch a b s) := by
  unfold completeBatch
  try dsimp only
  repeat' first
    | with_reducible exact SameExcept.refl _ _
    | ((with_reducible apply covers_intro); decide)
    | with_reducible apply SameExcept.step (delXfer_reach _ _)
    | with_reducible apply SameExcept.step (updBatch_reach _ _ _ _)
    | with_reducible apply SameExcept.step (newXfer_reach _ _)
    | with_reducible apply SameExcept.step (feedRing_reach _ _ _ _ _ _)
    | with_reducible apply SameExcept.step (endBatch_reach _ _ _)
    | with_reducible apply SameExcept.forEach
    | ((with_reducible intro _ _); try dsimp only)
    | ((with_reducible intro _); try dsimp only)
    | split
    | dsimp only

theorem firePort_reach (a b s) : SameExcept [.log, .isl, .qs, .sems, .cores, .links, .grinders, .stores] s (firePort a b s) := by
  unfold firePort
  try dsimp only
  repeat' first
    | with_reducible exact SameExcept.refl _ _
    | ((with_reducible apply covers_intro); decide)
    | with_reducible apply SameExcept.step (semPost_reach _ _ _)
    | with_reducible apply SameExcept.step (updStore_reach _ _ _)
    | split
    | dsimp only

theorem firePorts_reach (s) : SameExcept [.log, .isl, .qs, .sems, .cores, .links, .grinders, .stores] s (firePorts s) := by
  unfold firePorts
  try dsimp only
  repeat' first
    | with_reducible exact SameExcept.refl _ _
    | ((with_reducible apply covers_intro); decide)
    | with_reducible apply SameExcept.step (firePort_reach _ _ _)

theorem tableCommand_reach {ps : List Part} {s0 s : State} {op d p w v f}
    (hf : ∀ a b c t, SameExcept ps t (f a b c t).2) (hc : covers ps [.freeCtr, .log, .isl, .qs, .sems, .cores, .links, .grinders, .stores] = true) (h0 : SameExcept ps s0 s) : SameExcept ps s0 (tableCommand op d p w v f s) := by
  refine h0.trans ?_
  unfold tableCommand
  try dsimp only
  repeat' first
    | with_reducible exact SameExcept.refl _ _
    | ((with_reducible apply covers_intro); decide)
    | with_reducible apply (hf _ _ _ _).after
    | exact covers_trans hc (by decide)
    | with_reducible apply SameExcept.step (logEvent_reach _ _ _ _)
    | with_reducible apply SameExcept.step (firePort_reach _ _ _)
    | with_reducible apply SameExcept.step (drawFree_reach _)
    | with_reducible apply SameExcept.step (updStore_reach _ _ _)
    | ((with_reducible intro _ _); try dsimp only)
    | ((with_reducible intro _); try dsimp only)
    | split
    | dsimp only

theorem foldRead_reach (a b s) : SameExcept [.log, .plan, .pm, .mem, .poison, .cache, .mc] s (foldRead a b s).2 := by
  induction b generalizing s with
  | nil => exact SameExcept.refl _ _
  | cons e t ih =>
    unfold foldRead
    try dsimp only
    repeat' first
      | with_reducible exact SameExcept.refl _ _
      | ((with_reducible apply covers_intro); decide)
      | with_reducible apply SameExcept.step (ih _)
      | with_reducible apply SameExcept.step (hbmRead_reach _ _ _ _ _)
      | with_reducible apply SameExcept.step (hbmTurn_reach _ _ _ _)
      | split
      | dsimp only

theorem foldUpdate_reach (a b c s) : SameExcept [.log, .plan, .isl, .pm, .mem, .poison, .cache, .mc, .qs, .sems, .cores, .links, .grinders, .stores] s (foldUpdate a b c s) := by
  unfold foldUpdate
  try dsimp only
  repeat' first
    | with_reducible exact SameExcept.refl _ _
    | ((with_reducible apply covers_intro); decide)
    | with_reducible apply SameExcept.step (foldRead_reach _ _ _)
    | with_reducible apply SameExcept.step (hbmWrite_reach _ _ _ _ _)
    | with_reducible apply SameExcept.step (hbmTurn_reach _ _ _ _)
    | with_reducible apply SameExcept.step (memWrite_reach _ _ _)
    | with_reducible apply SameExcept.step (postDone_reach _ _)
    | with_reducible apply SameExcept.step (updStore_reach _ _ _)
    | with_reducible apply SameExcept.forEach
    | ((with_reducible intro _ _); try dsimp only)
    | ((with_reducible intro _); try dsimp only)
    | split
    | dsimp only

/-! ### The canonical form -/

theorem readFar_stored {s : State} (a b c d) (h : s.stored = true) : (readFar a b c d s).2.stored = true := by
  unfold readFar
  try dsimp only
  repeat' first
    | with_reducible assumption
    | with_reducible apply newXfer_stored
    | dsimp only

theorem ringWrite_stored {s : State} (a b c d) (h : s.stored = true) : (ringWrite a b c d s).stored = true := by
  unfold ringWrite
  try dsimp only
  repeat' first
    | with_reducible assumption
    | with_reducible apply sendScr_stored

theorem intake_stored {s : State} (a b c) (h : s.stored = true) : (intake a b c s).stored = true := by
  induction a generalizing b c s with
  | zero => exact h
  | succ n ih =>
    unfold intake
    try dsimp only
    repeat' first
      | with_reducible assumption
      | with_reducible apply ih
      | with_reducible apply SameExcept.stored (setGrinder_reach _ _ _) rfl
      | with_reducible apply readFar_stored
      | with_reducible apply SameExcept.stored (updBatch_reach _ _ _ _) rfl
      | split
      | dsimp only

theorem intakeOne_stored {s : State} (a b) (h : s.stored = true) : (intakeOne a b s).stored = true := by
  unfold intakeOne
  try dsimp only
  repeat' first
    | with_reducible assumption
    | with_reducible apply SameExcept.stored (applyWindows_reach _ _ _) rfl
    | with_reducible apply intake_stored
    | with_reducible apply SameExcept.stored (setGrinder_reach _ _ _) rfl
    | split
    | dsimp only

theorem intakeAll_stored {s : State} (a) (h : s.stored = true) : (intakeAll a s).stored = true := by
  unfold intakeAll
  try dsimp only
  repeat' first
    | with_reducible assumption
    | with_reducible apply intakeOne_stored
    | with_reducible apply forEach_stored
    | ((with_reducible intro _ _ _ _); try dsimp only)
    | ((with_reducible intro _ _ _); try dsimp only)
    | ((with_reducible intro _ _); try dsimp only)

theorem beginBatch_stored {s : State} (a) (h : s.stored = true) : (beginBatch a s).stored = true := by
  unfold beginBatch
  try dsimp only
  repeat' first
    | with_reducible assumption
    | with_reducible apply SameExcept.stored (takeXfer_reach _ _) rfl
    | with_reducible apply SameExcept.stored (setGrinder_reach _ _ _) rfl
    | with_reducible apply SameExcept.stored (endEarly_reach _ _ _ _) rfl
    | with_reducible apply SameExcept.stored (logEvent_reach _ _ _ _) rfl
    | with_reducible apply readFar_stored
    | with_reducible apply SameExcept.stored (updBatch_reach _ _ _ _) rfl
    | split
    | dsimp only

theorem startPooling_stored {s : State} (a b c d e f) (h : s.stored = true) : (startPooling a b c d e f s).stored = true := by
  unfold startPooling
  try dsimp only
  repeat' first
    | with_reducible assumption
    | with_reducible apply SameExcept.stored (updBatch_reach _ _ _ _) rfl
    | with_reducible apply SameExcept.stored (noteRange_reach _ _ _ _ _) rfl
    | with_reducible apply intakeAll_stored
    | split
    | dsimp only

theorem inputStep_stored {s : State} (a b c) (h : s.stored = true) : (inputStep a b c s).stored = true := by
  unfold inputStep
  try dsimp only
  repeat' first
    | with_reducible assumption
    | with_reducible apply SameExcept.stored (takeRing_reach _ _ _ _ _) rfl
    | with_reducible apply SameExcept.stored (updBatch_reach _ _ _ _) rfl
    | with_reducible apply startPooling_stored
    | with_reducible apply SameExcept.stored (takeXfer_reach _ _) rfl
    | with_reducible apply readFar_stored
    | split
    | dsimp only

theorem grinderBegin_stored {s : State} (a) (h : s.stored = true) : (grinderBegin a s).stored = true := by
  unfold grinderBegin
  try dsimp only
  repeat' first
    | with_reducible assumption
    | with_reducible apply SameExcept.stored (prefetchGrinder_reach _ _) rfl
    | with_reducible apply inputStep_stored
    | with_reducible apply beginBatch_stored
    | split
    | dsimp only

theorem rowReturn_stored {s : State} (a b c) (h : s.stored = true) : (rowReturn a b c s).stored = true := by
  unfold rowReturn
  try dsimp only
  repeat' first
    | with_reducible assumption
    | with_reducible apply SameExcept.stored (takeXfer_reach _ _) rfl
    | with_reducible apply SameExcept.stored (updBatch_reach _ _ _ _) rfl
    | with_reducible apply intakeAll_stored
    | split
    | dsimp only

theorem feedRing_stored {s : State} (a b c d e) (h : s.stored = true) : (feedRing a b c d e s).stored = true := by
  induction a generalizing s with
  | zero => exact h
  | succ n ih =>
    unfold feedRing
    try dsimp only
    repeat' first
      | with_reducible assumption
      | with_reducible apply ih
      | with_reducible apply SameExcept.stored (linkTake_reach _ _ _ _ _ _) rfl
      | with_reducible apply ringWrite_stored
      | with_reducible apply SameExcept.stored (setGrinder_reach _ _ _) rfl
      | with_reducible apply SameExcept.stored (updBatch_reach _ _ _ _) rfl
      | with_reducible apply SameExcept.stored (semPost_reach _ _ _) rfl
      | split
      | dsimp only

theorem endBatch_stored {s : State} (a b) (h : s.stored = true) : (endBatch a b s).stored = true := by
  unfold endBatch
  try dsimp only
  repeat' first
    | with_reducible assumption
    | with_reducible apply SameExcept.stored (delXfer_reach _ _) rfl
    | with_reducible apply SameExcept.stored (setGrinder_reach _ _ _) rfl
    | with_reducible apply SameExcept.stored (updInv_reach _ _ _) rfl
    | with_reducible apply SameExcept.stored (retireOp_reach _ _ _) rfl
    | with_reducible apply SameExcept.stored (postDone_reach _ _) rfl
    | with_reducible apply SameExcept.stored (settleTable_reach _ _ _) rfl
    | with_reducible apply intakeAll_stored
    | with_reducible apply forEach_stored
    | ((with_reducible intro _ _ _ _); try dsimp only)
    | ((with_reducible intro _ _ _); try dsimp only)
    | ((with_reducible intro _ _); try dsimp only)
    | split
    | dsimp only

theorem completeBatch_stored {s : State} (a b) (h : s.stored = true) : (completeBatch a b s).stored = true := by
  unfold completeBatch
  try dsimp only
  repeat' first
    | with_reducible assumption
    | with_reducible apply SameExcept.stored (delXfer_reach _ _) rfl
    | with_reducible apply SameExcept.stored (updBatch_reach _ _ _ _) rfl
    | with_reducible apply newXfer_stored
    | with_reducible apply feedRing_stored
    | with_reducible apply endBatch_stored
    | with_reducible apply forEach_stored
    | ((with_reducible intro _ _ _ _); try dsimp only)
    | ((with_reducible intro _ _ _); try dsimp only)
    | ((with_reducible intro _ _); try dsimp only)
    | split
    | dsimp only

theorem tableCommand_stored {s : State} {op d p w v f}
    (hf : ∀ a b c t, t.stored = true → (f a b c t).2.stored = true) (h : s.stored = true) : (tableCommand op d p w v f s).stored = true := by
  unfold tableCommand
  try dsimp only
  repeat' first
    | with_reducible assumption
    | with_reducible apply hf
    | with_reducible apply SameExcept.stored (logEvent_reach _ _ _ _) rfl
    | with_reducible apply SameExcept.stored (firePort_reach _ _ _) rfl
    | with_reducible apply SameExcept.stored (drawFree_reach _) rfl
    | with_reducible apply SameExcept.stored (updStore_reach _ _ _) rfl
    | ((with_reducible intro _ _ _ _); try dsimp only)
    | ((with_reducible intro _ _ _); try dsimp only)
    | ((with_reducible intro _ _); try dsimp only)
    | split
    | dsimp only

theorem foldRead_stored {s : State} (a b) (h : s.stored = true) : (foldRead a b s).2.stored = true := by
  induction b generalizing s with
  | nil => exact h
  | cons e t ih =>
    unfold foldRead
    try dsimp only
    repeat' first
      | with_reducible assumption
      | with_reducible apply ih
      | with_reducible apply hbmRead_stored
      | with_reducible apply SameExcept.stored (hbmTurn_reach _ _ _ _) rfl
      | split
      | dsimp only

theorem foldUpdate_stored {s : State} (a b c) (h : s.stored = true) : (foldUpdate a b c s).stored = true := by
  unfold foldUpdate
  try dsimp only
  repeat' first
    | with_reducible assumption
    | with_reducible apply foldRead_stored
    | with_reducible apply hbmWrite_stored
    | with_reducible apply SameExcept.stored (hbmTurn_reach _ _ _ _) rfl
    | with_reducible apply memWrite_stored
    | with_reducible apply SameExcept.stored (postDone_reach _ _) rfl
    | with_reducible apply SameExcept.stored (updStore_reach _ _ _) rfl
    | with_reducible apply forEach_stored
    | ((with_reducible intro _ _ _ _); try dsimp only)
    | ((with_reducible intro _ _ _); try dsimp only)
    | ((with_reducible intro _ _); try dsimp only)
    | split
    | dsimp only

end Sys2Proof.Machine
end

