-- ==== Sys2Proof/Laws/Queue.lean ====
section
/-! SUPPORT. What each operation of Machine/Queue.lean reaches: every other part of the state is as it was (`_reach`), and memory and the
marks keep their canonical form (`_stored`). -/

namespace Sys2Proof.Machine

set_option linter.unusedTactic false
set_option linter.unreachableTactic false
set_option linter.unnecessarySeqFocus false

theorem writeTail_reach (a b c s) : SameExcept [.log, .qs] s (writeTail a b c s) := by
  unfold writeTail
  try dsimp only
  repeat' first
    | with_reducible exact SameExcept.refl _ _
    | ((with_reducible apply covers_intro); decide)
    | with_reducible apply SameExcept.step (setQ_reach _ _ _)
    | with_reducible apply SameExcept.step (logEvent_reach _ _ _ _)
    | split

theorem writeHead_reach (a b c s) : SameExcept [.log, .qs] s (writeHead a b c s) := by
  unfold writeHead
  try dsimp only
  repeat' first
    | with_reducible exact SameExcept.refl _ _
    | ((with_reducible apply covers_intro); decide)
    | with_reducible apply SameExcept.step (setQ_reach _ _ _)
    | with_reducible apply SameExcept.step (logEvent_reach _ _ _ _)
    | split

theorem enableQueue_reach (a b c s) : SameExcept [.log, .qs] s (enableQueue a b c s) := by
  unfold enableQueue
  try dsimp only
  repeat' first
    | with_reducible exact SameExcept.refl _ _
    | ((with_reducible apply covers_intro); decide)
    | with_reducible apply SameExcept.step (updQ_reach _ _ _)
    | with_reducible apply SameExcept.step (logEvent_reach _ _ _ _)
    | split

theorem disableQueue_reach (a b c s) : SameExcept [.qs] s (disableQueue a b c s) := by
  unfold disableQueue
  try dsimp only
  repeat' first
    | with_reducible exact SameExcept.refl _ _
    | ((with_reducible apply covers_intro); decide)
    | with_reducible apply SameExcept.step (updQ_reach _ _ _)
    | split

theorem stageEnvelope_reach (a b c d s) : SameExcept [.qs] s (stageEnvelope a b c d s) := by
  unfold stageEnvelope
  try dsimp only
  repeat' first
    | with_reducible exact SameExcept.refl _ _
    | ((with_reducible apply covers_intro); decide)
    | with_reducible apply SameExcept.step (setQ_reach _ _ _)
    | split
    | dsimp only

theorem startCore_reach (a b c d s) : SameExcept [.isl, .cores] s (startCore a b c d s) := by
  unfold startCore
  try dsimp only
  repeat' first
    | with_reducible exact SameExcept.refl _ _
    | ((with_reducible apply covers_intro); decide)
    | with_reducible apply SameExcept.step (updIsl_reach _ _ _)
    | with_reducible apply SameExcept.step (updCore_reach _ _ _)
    | split
    | dsimp only

theorem dispatch_reach (a b s) : SameExcept [.log, .isl, .host, .qs, .cores] s (dispatch a b s) := by
  unfold dispatch
  try dsimp only
  repeat' first
    | with_reducible exact SameExcept.refl _ _
    | ((with_reducible apply covers_intro); decide)
    | with_reducible apply SameExcept.step (updQ_reach _ _ _)
    | with_reducible apply SameExcept.step (logEvent_reach _ _ _ _)
    | with_reducible apply SameExcept.step (dropLost_reach _ _)
    | with_reducible apply SameExcept.step (addReceipt_reach _ _)
    | with_reducible apply SameExcept.step (startCore_reach _ _ _ _ _)
    | with_reducible apply SameExcept.forEach
    | ((with_reducible apply FieldsSame.intro); intro q hq; cases q <;> first | exact absurd (by decide) hq | (dsimp only [Part.same, memByte]; done) | (dsimp only [Part.same, memByte]; exact ⟨rfl, fun _ => rfl⟩) | (dsimp only [Part.same]; exact ⟨rfl, rfl⟩))
    | ((with_reducible intro _ _); try dsimp only)
    | ((with_reducible intro _); try dsimp only)
    | split
    | dsimp only
    | with_reducible apply SameExcept.fields

theorem noteHold_reach (a s) : SameExcept [.qs] s (noteHold a s) := by
  unfold noteHold
  try dsimp only
  repeat' first
    | with_reducible exact SameExcept.refl _ _
    | ((with_reducible apply covers_intro); decide)
    | with_reducible apply SameExcept.step (updQ_reach _ _ _)
    | split
    | dsimp only

theorem serveClasses_reach (a b s) : SameExcept [.log, .isl, .xfers, .host, .qs, .sems, .cores, .links, .grinders] s (serveClasses a b s) := by
  induction b generalizing s with
  | nil => exact SameExcept.refl _ _
  | cons e t ih =>
    unfold serveClasses
    try dsimp only
    repeat' first
      | with_reducible exact SameExcept.refl _ _
      | ((with_reducible apply covers_intro); decide)
      | with_reducible apply SameExcept.step (ih _)
      | with_reducible apply SameExcept.step (dispatch_reach _ _ _)
      | with_reducible apply SameExcept.step (noteHold_reach _ _)
      | with_reducible apply SameExcept.step (requestSwitch_reach _ _ _)
      | with_reducible apply SameExcept.forEach
      | ((with_reducible intro _ _); try dsimp only)
      | ((with_reducible intro _); try dsimp only)
      | split
      | dsimp only

theorem makeRoom_reach (a s) : SameExcept [.log, .isl, .xfers, .qs, .sems, .cores, .links, .grinders] s (makeRoom a s) := by
  unfold makeRoom
  try dsimp only
  repeat' first
    | with_reducible exact SameExcept.refl _ _
    | ((with_reducible apply covers_intro); decide)
    | with_reducible apply SameExcept.step (requestSwitch_reach _ _ _)
    | with_reducible apply SameExcept.forEach
    | ((with_reducible intro _ _); try dsimp only)
    | ((with_reducible intro _); try dsimp only)
    | split
    | dsimp only

end Sys2Proof.Machine
end

