-- ==== Sys2Proof/Laws/Host.lean ====
section
/-! SUPPORT. What each operation of Machine/Host.lean reaches: every other part of the state is as it was (`_reach`), and memory and the
marks keep their canonical form (`_stored`). -/

namespace Sys2Proof.Machine

set_option linter.unusedTactic false
set_option linter.unreachableTactic false
set_option linter.unnecessarySeqFocus false

theorem deliverWrite_reach (a b s) : SameExcept [.isl, .mem, .poison, .xfers, .host, .qs] s (deliverWrite a b s) := by
  unfold deliverWrite
  try dsimp only
  repeat' first
    | with_reducible exact SameExcept.refl _ _
    | ((with_reducible apply covers_intro); decide)
    | with_reducible apply SameExcept.step (setGk_reach _ _ _)
    | with_reducible apply SameExcept.step (updInv_reach _ _ _)
    | with_reducible apply SameExcept.step (landPiece_reach _ _ _ _)
    | ((with_reducible apply FieldsSame.intro); intro q hq; cases q <;> first | exact absurd (by decide) hq | (dsimp only [Part.same, memByte]; done) | (dsimp only [Part.same, memByte]; exact ⟨rfl, fun _ => rfl⟩) | (dsimp only [Part.same]; exact ⟨rfl, rfl⟩))
    | split
    | dsimp only
    | with_reducible apply SameExcept.fields

theorem sendWrite_reach (a s) : SameExcept [.isl, .mem, .poison, .xfers, .host, .qs] s (sendWrite a s) := by
  unfold sendWrite
  try dsimp only
  repeat' first
    | with_reducible exact SameExcept.refl _ _
    | ((with_reducible apply covers_intro); decide)
    | with_reducible apply SameExcept.step (deliverWrite_reach _ _ _)
    | with_reducible apply SameExcept.step (updGk_reach _ _ _)
    | split
    | dsimp only

theorem releaseHeld_reach (a s) : SameExcept [.isl, .mem, .poison, .xfers, .host, .qs] s (releaseHeld a s) := by
  unfold releaseHeld
  try dsimp only
  repeat' first
    | with_reducible exact SameExcept.refl _ _
    | ((with_reducible apply covers_intro); decide)
    | with_reducible apply SameExcept.step (deliverWrite_reach _ _ _)
    | with_reducible apply SameExcept.step (updGk_reach _ _ _)
    | with_reducible apply SameExcept.forEach
    | ((with_reducible intro _ _); try dsimp only)
    | ((with_reducible intro _); try dsimp only)

theorem movePort_reach (a b s) : SameExcept [.isl, .mem, .poison, .xfers, .host, .qs] s (movePort a b s) := by
  unfold movePort
  try dsimp only
  repeat' first
    | with_reducible exact SameExcept.refl _ _
    | ((with_reducible apply covers_intro); decide)
    | with_reducible apply SameExcept.step (setGk_reach _ _ _)
    | with_reducible apply SameExcept.step (updGk_reach _ _ _)
    | with_reducible apply SameExcept.step (releaseHeld_reach _ _)
    | split

theorem askFlush_reach (a s) : SameExcept [.host] s (askFlush a s) := by
  unfold askFlush
  try dsimp only
  repeat' first
    | with_reducible exact SameExcept.refl _ _
    | ((with_reducible apply covers_intro); decide)
    | with_reducible apply SameExcept.step (setGk_reach _ _ _)
    | split

theorem flushReturn_reach (a s) : SameExcept [.host] s (flushReturn a s) := by
  unfold flushReturn
  try dsimp only
  repeat' first
    | with_reducible exact SameExcept.refl _ _
    | ((with_reducible apply covers_intro); decide)
    | with_reducible apply SameExcept.step (setGk_reach _ _ _)
    | split
    | dsimp only

theorem addNotice_reach (a b s) : SameExcept [.host] s (addNotice a b s) := by
  unfold addNotice
  try dsimp only
  repeat' first
    | with_reducible exact SameExcept.refl _ _
    | ((with_reducible apply covers_intro); decide)
    | ((with_reducible apply FieldsSame.intro); intro q hq; cases q <;> first | exact absurd (by decide) hq | (dsimp only [Part.same, memByte]; done) | (dsimp only [Part.same, memByte]; exact ⟨rfl, fun _ => rfl⟩) | (dsimp only [Part.same]; exact ⟨rfl, rfl⟩))
    | split
    | with_reducible apply SameExcept.fields

theorem portNotice_reach (a s) : SameExcept [.host] s (portNotice a s) := by
  unfold portNotice
  try dsimp only
  repeat' first
    | with_reducible exact SameExcept.refl _ _
    | ((with_reducible apply covers_intro); decide)
    | with_reducible apply SameExcept.step (addNotice_reach _ _ _)
    | split
    | dsimp only

theorem loseHost_reach (a s) : SameExcept [.log, .isl, .mem, .poison, .xfers, .net, .host, .qs, .sems, .cores, .links, .grinders] s (loseHost a s) := by
  unfold loseHost
  try dsimp only
  repeat' first
    | with_reducible exact SameExcept.refl _ _
    | ((with_reducible apply covers_intro); decide)
    | with_reducible apply SameExcept.step (setHost_reach _ _ _)
    | with_reducible apply SameExcept.step (endPiece_reach _ _ _)
    | with_reducible apply SameExcept.step (updQ_reach _ _ _)
    | with_reducible apply SameExcept.step (endEarly_reach _ _ _ _)
    | with_reducible apply SameExcept.step (settleLoss_reach _ _)
    | with_reducible apply SameExcept.forEach
    | with_reducible apply SameExcept.foldl
    | with_reducible apply SameExcept.foldlFst
    | ((with_reducible apply FieldsSame.intro); intro q hq; cases q <;> first | exact absurd (by decide) hq | (dsimp only [Part.same, memByte]; done) | (dsimp only [Part.same, memByte]; exact ⟨rfl, fun _ => rfl⟩) | (dsimp only [Part.same]; exact ⟨rfl, rfl⟩))
    | ((with_reducible intro _ _); try dsimp only)
    | ((with_reducible intro _); try dsimp only)
    | split
    | dsimp only
    | with_reducible apply SameExcept.fields

theorem startRetrain_reach (a b s) : SameExcept [.log, .host] s (startRetrain a b s) := by
  unfold startRetrain
  try dsimp only
  repeat' first
    | with_reducible exact SameExcept.refl _ _
    | ((with_reducible apply covers_intro); decide)
    | with_reducible apply SameExcept.step (logEvent_reach _ _ _ _)
    | with_reducible apply SameExcept.step (updGk_reach _ _ _)

theorem portDown_reach (a s) : SameExcept [.log, .isl, .pm, .mem, .poison, .xfers, .host, .qs] s (portDown a s) := by
  unfold portDown
  try dsimp only
  repeat' first
    | with_reducible exact SameExcept.refl _ _
    | ((with_reducible apply covers_intro); decide)
    | with_reducible apply SameExcept.step (portNotice_reach _ _)
    | with_reducible apply SameExcept.step (logEvent_reach _ _ _ _)
    | with_reducible apply SameExcept.step (updGk_reach _ _ _)
    | with_reducible apply SameExcept.step (movePort_reach _ _ _)
    | with_reducible apply SameExcept.step (settleRelease_reach _ _)
    | with_reducible apply SameExcept.step (updHost_reach _ _ _)
    | with_reducible apply SameExcept.forEach
    | ((with_reducible apply FieldsSame.intro); intro q hq; cases q <;> first | exact absurd (by decide) hq | (dsimp only [Part.same, memByte]; done) | (dsimp only [Part.same, memByte]; exact ⟨rfl, fun _ => rfl⟩) | (dsimp only [Part.same]; exact ⟨rfl, rfl⟩))
    | ((with_reducible intro _ _); try dsimp only)
    | ((with_reducible intro _); try dsimp only)
    | split
    | dsimp only
    | with_reducible apply SameExcept.fields

theorem linkUp_reach (a b c s) : SameExcept [.isl, .mem, .poison, .xfers, .host, .qs] s (linkUp a b c s) := by
  unfold linkUp
  try dsimp only
  repeat' first
    | with_reducible exact SameExcept.refl _ _
    | ((with_reducible apply covers_intro); decide)
    | with_reducible apply SameExcept.step (setGk_reach _ _ _)
    | with_reducible apply SameExcept.step (updHost_reach _ _ _)
    | with_reducible apply SameExcept.step (movePort_reach _ _ _)
    | with_reducible apply SameExcept.step (portNotice_reach _ _)
    | with_reducible apply SameExcept.step (releaseHeld_reach _ _)
    | with_reducible apply SameExcept.forEach
    | ((with_reducible intro _ _); try dsimp only)
    | ((with_reducible intro _); try dsimp only)
    | split
    | dsimp only

theorem replay_reach (a s) : SameExcept [.log, .host] s (replay a s) := by
  unfold replay
  try dsimp only
  repeat' first
    | with_reducible exact SameExcept.refl _ _
    | ((with_reducible apply covers_intro); decide)
    | with_reducible apply SameExcept.step (setGk_reach _ _ _)
    | with_reducible apply SameExcept.step (startRetrain_reach _ _ _)
    | split

theorem retrainDone_reach (a b s) : SameExcept [.log, .isl, .pm, .mem, .poison, .xfers, .host, .qs] s (retrainDone a b s) := by
  unfold retrainDone
  try dsimp only
  repeat' first
    | with_reducible exact SameExcept.refl _ _
    | ((with_reducible apply covers_intro); decide)
    | with_reducible apply SameExcept.step (startRetrain_reach _ _ _)
    | with_reducible apply SameExcept.step (portDown_reach _ _)
    | with_reducible apply SameExcept.step (logEvent_reach _ _ _ _)
    | with_reducible apply SameExcept.step (setGk_reach _ _ _)
    | with_reducible apply SameExcept.step (releaseHeld_reach _ _)
    | with_reducible apply SameExcept.step (portNotice_reach _ _)
    | split
    | dsimp only

theorem ctrlRetrain_reach (a b s) : SameExcept [.log, .host] s (ctrlRetrain a b s) := by
  unfold ctrlRetrain
  try dsimp only
  repeat' first
    | with_reducible exact SameExcept.refl _ _
    | ((with_reducible apply covers_intro); decide)
    | with_reducible apply SameExcept.step (startRetrain_reach _ _ _)
    | split

theorem cmdRefused_reach (a b c s) : SameExcept [.log] s (cmdRefused a b c s) := by
  unfold cmdRefused
  try dsimp only
  repeat' first
    | with_reducible exact SameExcept.refl _ _
    | ((with_reducible apply covers_intro); decide)
    | with_reducible apply SameExcept.step (logEvent_reach _ _ _ _)

theorem registerHost_reach (a b c s) : SameExcept [.log, .host] s (registerHost a b c s) := by
  unfold registerHost
  try dsimp only
  repeat' first
    | with_reducible exact SameExcept.refl _ _
    | ((with_reducible apply covers_intro); decide)
    | with_reducible apply SameExcept.step (setHost_reach _ _ _)
    | with_reducible apply SameExcept.step (cmdRefused_reach _ _ _ _)
    | split
    | dsimp only

theorem releaseHost_reach (a s) : SameExcept [.log, .host, .qs] s (releaseHost a s) := by
  unfold releaseHost
  try dsimp only
  repeat' first
    | with_reducible exact SameExcept.refl _ _
    | ((with_reducible apply covers_intro); decide)
    | with_reducible apply SameExcept.step (settleRelease_reach _ _)
    | with_reducible apply SameExcept.step (updHost_reach _ _ _)
    | with_reducible apply SameExcept.step (cmdRefused_reach _ _ _ _)
    | split
    | dsimp only

theorem refreshStop_reach (a s) : SameExcept [.log, .qs] s (refreshStop a s) := by
  unfold refreshStop
  try dsimp only
  repeat' first
    | with_reducible exact SameExcept.refl _ _
    | ((with_reducible apply covers_intro); decide)
    | with_reducible apply SameExcept.step (logEvent_reach _ _ _ _)
    | with_reducible apply SameExcept.step (updQ_reach _ _ _)
    | split

theorem spillReceipt_reach (a b s) : SameExcept [.log, .plan, .pm, .mem, .poison, .cache, .mc, .host, .qs] s (spillReceipt a b s) := by
  unfold spillReceipt
  try dsimp only
  repeat' first
    | with_reducible exact SameExcept.refl _ _
    | ((with_reducible apply covers_intro); decide)
    | with_reducible apply SameExcept.step (refreshStop_reach _ _)
    | with_reducible apply SameExcept.step (setQ_reach _ _ _)
    | with_reducible apply SameExcept.step (hbmWrite_reach _ _ _ _ _)
    | with_reducible apply SameExcept.step (logEvent_reach _ _ _ _)
    | with_reducible apply SameExcept.step (addNotice_reach _ _ _)
    | split
    | dsimp only

theorem receiptArrived_reach (a b c s) : SameExcept [.log, .host, .qs] s (receiptArrived a b c s) := by
  unfold receiptArrived
  try dsimp only
  repeat' first
    | with_reducible exact SameExcept.refl _ _
    | ((with_reducible apply covers_intro); decide)
    | with_reducible apply SameExcept.step (updQ_reach _ _ _)
    | with_reducible apply SameExcept.step (raiseVectorOn_reach _ _ _)
    | with_reducible apply SameExcept.step (settleHosts_reach _)
    | with_reducible apply SameExcept.step (refreshStop_reach _ _)
    | split

theorem writeRing_reach (a b c d s) : SameExcept [.isl, .mem, .poison, .xfers, .host, .qs] s (writeRing a b c d s) := by
  unfold writeRing
  try dsimp only
  repeat' first
    | with_reducible exact SameExcept.refl _ _
    | ((with_reducible apply covers_intro); decide)
    | with_reducible apply SameExcept.step (sendWrite_reach _ _)
    | split
    | dsimp only

theorem drainOne_reach (a s) : SameExcept [.log, .plan, .isl, .pm, .mem, .poison, .cache, .mc, .xfers, .host, .qs] s (drainOne a s) := by
  unfold drainOne
  try dsimp only
  repeat' first
    | with_reducible exact SameExcept.refl _ _
    | ((with_reducible apply covers_intro); decide)
    | with_reducible apply SameExcept.step (receiptArrived_reach _ _ _ _)
    | with_reducible apply SameExcept.step (updQ_reach _ _ _)
    | with_reducible apply SameExcept.step (writeRing_reach _ _ _ _ _)
    | with_reducible apply SameExcept.step (hbmRead_reach _ _ _ _ _)
    | split
    | dsimp only

theorem drainHost_reach (a b c s) : SameExcept [.log, .plan, .isl, .pm, .mem, .poison, .cache, .mc, .xfers, .host, .qs] s (drainHost a b c s) := by
  unfold drainHost
  try dsimp only
  repeat' first
    | with_reducible exact SameExcept.refl _ _
    | ((with_reducible apply covers_intro); decide)
    | with_reducible apply SameExcept.step (cmdRefused_reach _ _ _ _)
    | with_reducible apply SameExcept.step (drainOne_reach _ _)
    | with_reducible apply SameExcept.step (addNotice_reach _ _ _)
    | with_reducible apply SameExcept.iter
    | ((with_reducible intro _ _); try dsimp only)
    | ((with_reducible intro _); try dsimp only)
    | split
    | dsimp only

theorem withdrawPiece_reach (a b s) : SameExcept [.net, .host] s (withdrawPiece a b s) := by
  unfold withdrawPiece
  try dsimp only
  repeat' first
    | with_reducible exact SameExcept.refl _ _
    | ((with_reducible apply covers_intro); decide)
    | ((with_reducible apply FieldsSame.intro); intro q hq; cases q <;> first | exact absurd (by decide) hq | (dsimp only [Part.same, memByte]; done) | (dsimp only [Part.same, memByte]; exact ⟨rfl, fun _ => rfl⟩) | (dsimp only [Part.same]; exact ⟨rfl, rfl⟩))
    | with_reducible apply SameExcept.fields

theorem accessRefused_reach (a s) : SameExcept [.log, .plan, .isl, .pm, .mem, .poison, .cache, .mc, .xfers, .net, .host, .qs] s (accessRefused a s) := by
  unfold accessRefused
  try dsimp only
  repeat' first
    | with_reducible exact SameExcept.refl _ _
    | ((with_reducible apply covers_intro); decide)
    | with_reducible apply SameExcept.step (logEvent_reach _ _ _ _)
    | with_reducible apply SameExcept.step (endPiece_reach _ _ _)
    | with_reducible apply SameExcept.step (withdrawPiece_reach _ _ _)
    | with_reducible apply SameExcept.step (setXfer_reach _ _ _)
    | with_reducible apply SameExcept.step (updInv_reach _ _ _)
    | with_reducible apply SameExcept.step (spillReceipt_reach _ _ _)
    | with_reducible apply SameExcept.step (updQ_reach _ _ _)
    | split
    | dsimp only

theorem writeSpillBase_reach (a b s) : SameExcept [.log, .host] s (writeSpillBase a b s) := by
  unfold writeSpillBase
  try dsimp only
  repeat' first
    | with_reducible exact SameExcept.refl _ _
    | ((with_reducible apply covers_intro); decide)
    | with_reducible apply SameExcept.step (logEvent_reach _ _ _ _)
    | ((with_reducible apply FieldsSame.intro); intro q hq; cases q <;> first | exact absurd (by decide) hq | (dsimp only [Part.same, memByte]; done) | (dsimp only [Part.same, memByte]; exact ⟨rfl, fun _ => rfl⟩) | (dsimp only [Part.same]; exact ⟨rfl, rfl⟩))
    | split
    | dsimp only
    | with_reducible apply SameExcept.fields

theorem carrierDenied_reach (a b s) : SameExcept [.log] s (carrierDenied a b s) := by
  unfold carrierDenied
  try dsimp only
  repeat' first
    | with_reducible exact SameExcept.refl _ _
    | ((with_reducible apply covers_intro); decide)
    | with_reducible apply SameExcept.step (logEvent_reach _ _ _ _)

theorem holdMailbox_reach (a s) : SameExcept [.freeCtr, .host] s (holdMailbox a s) := by
  unfold holdMailbox
  try dsimp only
  repeat' first
    | with_reducible exact SameExcept.refl _ _
    | ((with_reducible apply covers_intro); decide)
    | with_reducible apply SameExcept.step (drawFree_reach _)
    | ((with_reducible apply FieldsSame.intro); intro q hq; cases q <;> first | exact absurd (by decide) hq | (dsimp only [Part.same, memByte]; done) | (dsimp only [Part.same, memByte]; exact ⟨rfl, fun _ => rfl⟩) | (dsimp only [Part.same]; exact ⟨rfl, rfl⟩))
    | split
    | dsimp only
    | with_reducible apply SameExcept.fields

theorem ringMailbox_reach {ps : List Part} {s0 s : State} {m w k f}
    (hf : ∀ h t, SameExcept ps t (f h t)) (hc : covers ps [.log] = true) (h0 : SameExcept ps s0 s) : SameExcept ps s0 (ringMailbox m w k f s) := by
  refine h0.trans ?_
  unfold ringMailbox
  try dsimp only
  repeat' first
    | with_reducible exact SameExcept.refl _ _
    | ((with_reducible apply covers_intro); decide)
    | with_reducible exact hf _ _
    | exact covers_trans hc (by decide)
    | with_reducible apply SameExcept.step (carrierDenied_reach _ _ _)
    | with_reducible apply SameExcept.step (logEvent_reach _ _ _ _)
    | ((with_reducible intro _ _); try dsimp only)
    | ((with_reducible intro _); try dsimp only)
    | split
    | dsimp only

theorem toCarrier_reach (a s) : SameExcept [.freeCtr, .host] s (toCarrier a s) := by
  unfold toCarrier
  try dsimp only
  repeat' first
    | with_reducible exact SameExcept.refl _ _
    | ((with_reducible apply covers_intro); decide)
    | with_reducible apply SameExcept.step (holdMailbox_reach _ _)
    | ((with_reducible apply FieldsSame.intro); intro q hq; cases q <;> first | exact absurd (by decide) hq | (dsimp only [Part.same, memByte]; done) | (dsimp only [Part.same, memByte]; exact ⟨rfl, fun _ => rfl⟩) | (dsimp only [Part.same]; exact ⟨rfl, rfl⟩))
    | split
    | with_reducible apply SameExcept.fields

theorem carrierTakesMail_reach (s) : SameExcept [.host] s (carrierTakesMail s) := by
  unfold carrierTakesMail
  try dsimp only
  repeat' first
    | with_reducible exact SameExcept.refl _ _
    | ((with_reducible apply covers_intro); decide)
    | with_reducible apply SameExcept.forEach
    | ((with_reducible apply FieldsSame.intro); intro q hq; cases q <;> first | exact absurd (by decide) hq | (dsimp only [Part.same, memByte]; done) | (dsimp only [Part.same, memByte]; exact ⟨rfl, fun _ => rfl⟩) | (dsimp only [Part.same]; exact ⟨rfl, rfl⟩))
    | ((with_reducible intro _ _); try dsimp only)
    | ((with_reducible intro _); try dsimp only)
    | with_reducible apply SameExcept.fields

theorem submitMail_reach (a b c d e s) : SameExcept [.freeCtr, .log, .host, .qs] s (submitMail a b c d e s) := by
  unfold submitMail
  try dsimp only
  repeat' first
    | with_reducible exact SameExcept.refl _ _
    | ((with_reducible apply covers_intro); decide)
    | with_reducible apply SameExcept.step (logEvent_reach _ _ _ _)
    | with_reducible apply SameExcept.step (holdMailbox_reach _ _)
    | with_reducible apply SameExcept.step (updQ_reach _ _ _)
    | split

theorem putMessage_reach (a b s) : SameExcept [.host] s (putMessage a b s) := by
  unfold putMessage
  try dsimp only
  repeat' first
    | with_reducible exact SameExcept.refl _ _
    | ((with_reducible apply covers_intro); decide)
    | with_reducible apply SameExcept.step (raiseVector_reach _ _)
    | with_reducible apply SameExcept.foldl
    | with_reducible apply SameExcept.foldlFst
    | ((with_reducible apply FieldsSame.intro); intro q hq; cases q <;> first | exact absurd (by decide) hq | (dsimp only [Part.same, memByte]; done) | (dsimp only [Part.same, memByte]; exact ⟨rfl, fun _ => rfl⟩) | (dsimp only [Part.same]; exact ⟨rfl, rfl⟩))
    | ((with_reducible intro _ _); try dsimp only)
    | ((with_reducible intro _); try dsimp only)
    | dsimp only
    | with_reducible apply SameExcept.fields

theorem sendMessage_reach (a b s) : SameExcept [.host] s (sendMessage a b s) := by
  unfold sendMessage
  try dsimp only
  repeat' first
    | with_reducible exact SameExcept.refl _ _
    | ((with_reducible apply covers_intro); decide)
    | with_reducible apply SameExcept.step (putMessage_reach _ _ _)
    | ((with_reducible apply FieldsSame.intro); intro q hq; cases q <;> first | exact absurd (by decide) hq | (dsimp only [Part.same, memByte]; done) | (dsimp only [Part.same, memByte]; exact ⟨rfl, fun _ => rfl⟩) | (dsimp only [Part.same]; exact ⟨rfl, rfl⟩))
    | split
    | dsimp only
    | with_reducible apply SameExcept.fields

theorem releaseFull_reach (a b s) : SameExcept [.log, .host] s (releaseFull a b s) := by
  unfold releaseFull
  try dsimp only
  repeat' first
    | with_reducible exact SameExcept.refl _ _
    | ((with_reducible apply covers_intro); decide)
    | with_reducible apply SameExcept.step (carrierDenied_reach _ _ _)
    | ((with_reducible apply FieldsSame.intro); intro q hq; cases q <;> first | exact absurd (by decide) hq | (dsimp only [Part.same, memByte]; done) | (dsimp only [Part.same, memByte]; exact ⟨rfl, fun _ => rfl⟩) | (dsimp only [Part.same]; exact ⟨rfl, rfl⟩))
    | split
    | dsimp only
    | with_reducible apply SameExcept.fields

theorem setVec_reach (s b c) : SameExcept [.host] s (setVec s b c) := by
  unfold setVec
  try dsimp only
  repeat' first
    | with_reducible exact SameExcept.refl _ _
    | ((with_reducible apply covers_intro); decide)
    | ((with_reducible apply FieldsSame.intro); intro q hq; cases q <;> first | exact absurd (by decide) hq | (dsimp only [Part.same, memByte]; done) | (dsimp only [Part.same, memByte]; exact ⟨rfl, fun _ => rfl⟩) | (dsimp only [Part.same]; exact ⟨rfl, rfl⟩))
    | with_reducible apply SameExcept.fields

theorem sendVector_reach (a b s) : SameExcept [.host] s (sendVector a b s) := by
  unfold sendVector
  try dsimp only
  repeat' first
    | with_reducible exact SameExcept.refl _ _
    | ((with_reducible apply covers_intro); decide)
    | with_reducible apply SameExcept.step (setVec_reach _ _ _)
    | ((with_reducible apply FieldsSame.intro); intro q hq; cases q <;> first | exact absurd (by decide) hq | (dsimp only [Part.same, memByte]; done) | (dsimp only [Part.same, memByte]; exact ⟨rfl, fun _ => rfl⟩) | (dsimp only [Part.same]; exact ⟨rfl, rfl⟩))
    | with_reducible apply SameExcept.fields

theorem sendPending_reach (a s) : SameExcept [.host] s (sendPending a s) := by
  unfold sendPending
  try dsimp only
  repeat' first
    | with_reducible exact SameExcept.refl _ _
    | ((with_reducible apply covers_intro); decide)
    | with_reducible apply SameExcept.step (sendVector_reach _ _ _)
    | split
    | dsimp only

theorem actRaise_reach (a s) : SameExcept [.host] s (actRaise a s) := by
  unfold actRaise
  try dsimp only
  repeat' first
    | with_reducible exact SameExcept.refl _ _
    | ((with_reducible apply covers_intro); decide)
    | with_reducible apply SameExcept.step (setVec_reach _ _ _)
    | with_reducible apply SameExcept.step (sendVector_reach _ _ _)
    | ((with_reducible apply FieldsSame.intro); intro q hq; cases q <;> first | exact absurd (by decide) hq | (dsimp only [Part.same, memByte]; done) | (dsimp only [Part.same, memByte]; exact ⟨rfl, fun _ => rfl⟩) | (dsimp only [Part.same]; exact ⟨rfl, rfl⟩))
    | split
    | dsimp only
    | with_reducible apply SameExcept.fields

theorem writeIvCtrl_reach (a b c s) : SameExcept [.log, .host] s (writeIvCtrl a b c s) := by
  unfold writeIvCtrl
  try dsimp only
  repeat' first
    | with_reducible exact SameExcept.refl _ _
    | ((with_reducible apply covers_intro); decide)
    | with_reducible apply SameExcept.step (carrierDenied_reach _ _ _)
    | with_reducible apply SameExcept.step (sendPending_reach _ _)
    | with_reducible apply SameExcept.step (setVec_reach _ _ _)
    | split
    | dsimp only

/-! ### The canonical form -/

theorem deliverWrite_stored {s : State} (a b) (h : s.stored = true) : (deliverWrite a b s).stored = true := by
  unfold deliverWrite
  try dsimp only
  repeat' first
    | with_reducible assumption
    | with_reducible apply SameExcept.stored (setGk_reach _ _ _) rfl
    | with_reducible apply SameExcept.stored (updInv_reach _ _ _) rfl
    | with_reducible apply landPiece_stored
    | split
    | dsimp only
    | with_reducible apply fields_stored

theorem sendWrite_stored {s : State} (a) (h : s.stored = true) : (sendWrite a s).stored = true := by
  unfold sendWrite
  try dsimp only
  repeat' first
    | with_reducible assumption
    | with_reducible apply deliverWrite_stored
    | with_reducible apply SameExcept.stored (updGk_reach _ _ _) rfl
    | split
    | dsimp only

theorem releaseHeld_stored {s : State} (a) (h : s.stored = true) : (releaseHeld a s).stored = true := by
  unfold releaseHeld
  try dsimp only
  repeat' first
    | with_reducible assumption
    | with_reducible apply deliverWrite_stored
    | with_reducible apply SameExcept.stored (updGk_reach _ _ _) rfl
    | with_reducible apply forEach_stored
    | ((with_reducible intro _ _ _ _); try dsimp only)
    | ((with_reducible intro _ _ _); try dsimp only)
    | ((with_reducible intro _ _); try dsimp only)

theorem movePort_stored {s : State} (a b) (h : s.stored = true) : (movePort a b s).stored = true := by
  unfold movePort
  try dsimp only
  repeat' first
    | with_reducible assumption
    | with_reducible apply SameExcept.stored (setGk_reach _ _ _) rfl
    | with_reducible apply SameExcept.stored (updGk_reach _ _ _) rfl
    | with_reducible apply releaseHeld_stored
    | split

theorem loseHost_stored {s : State} (a) (h : s.stored = true) : (loseHost a s).stored = true := by
  unfold loseHost
  try dsimp only
  repeat' first
    | with_reducible assumption
    | with_reducible apply SameExcept.stored (setHost_reach _ _ _) rfl
    | with_reducible apply endPiece_stored
    | with_reducible apply SameExcept.stored (updQ_reach _ _ _) rfl
    | with_reducible apply SameExcept.stored (endEarly_reach _ _ _ _) rfl
    | with_reducible apply SameExcept.stored (settleLoss_reach _ _) rfl
    | with_reducible apply forEach_stored
    | with_reducible apply foldl_stored
    | with_reducible apply foldlFst_stored
    | ((with_reducible intro _ _ _ _); try dsimp only)
    | ((with_reducible intro _ _ _); try dsimp only)
    | ((with_reducible intro _ _); try dsimp only)
    | split
    | dsimp only
    | with_reducible apply fields_stored

theorem portDown_stored {s : State} (a) (h : s.stored = true) : (portDown a s).stored = true := by
  unfold portDown
  try dsimp only
  repeat' first
    | with_reducible assumption
    | with_reducible apply SameExcept.stored (portNotice_reach _ _) rfl
    | with_reducible apply SameExcept.stored (logEvent_reach _ _ _ _) rfl
    | with_reducible apply SameExcept.stored (updGk_reach _ _ _) rfl
    | with_reducible apply movePort_stored
    | with_reducible apply SameExcept.stored (settleRelease_reach _ _) rfl
    | with_reducible apply SameExcept.stored (updHost_reach _ _ _) rfl
    | with_reducible apply forEach_stored
    | ((with_reducible intro _ _ _ _); try dsimp only)
    | ((with_reducible intro _ _ _); try dsimp only)
    | ((with_reducible intro _ _); try dsimp only)
    | split
    | dsimp only
    | with_reducible apply fields_stored

theorem linkUp_stored {s : State} (a b c) (h : s.stored = true) : (linkUp a b c s).stored = true := by
  unfold linkUp
  try dsimp only
  repeat' first
    | with_reducible assumption
    | with_reducible apply SameExcept.stored (setGk_reach _ _ _) rfl
    | with_reducible apply SameExcept.stored (updHost_reach _ _ _) rfl
    | with_reducible apply movePort_stored
    | with_reducible apply SameExcept.stored (portNotice_reach _ _) rfl
    | with_reducible apply releaseHeld_stored
    | with_reducible apply forEach_stored
    | ((with_reducible intro _ _ _ _); try dsimp only)
    | ((with_reducible intro _ _ _); try dsimp only)
    | ((with_reducible intro _ _); try dsimp only)
    | split
    | dsimp only

theorem retrainDone_stored {s : State} (a b) (h : s.stored = true) : (retrainDone a b s).stored = true := by
  unfold retrainDone
  try dsimp only
  repeat' first
    | with_reducible assumption
    | with_reducible apply SameExcept.stored (startRetrain_reach _ _ _) rfl
    | with_reducible apply portDown_stored
    | with_reducible apply SameExcept.stored (logEvent_reach _ _ _ _) rfl
    | with_reducible apply SameExcept.stored (setGk_reach _ _ _) rfl
    | with_reducible apply releaseHeld_stored
    | with_reducible apply SameExcept.stored (portNotice_reach _ _) rfl
    | split
    | dsimp only

theorem spillReceipt_stored {s : State} (a b) (h : s.stored = true) : (spillReceipt a b s).stored = true := by
  unfold spillReceipt
  try dsimp only
  repeat' first
    | with_reducible assumption
    | with_reducible apply SameExcept.stored (refreshStop_reach _ _) rfl
    | with_reducible apply SameExcept.stored (setQ_reach _ _ _) rfl
    | with_reducible apply hbmWrite_stored
    | with_reducible apply SameExcept.stored (logEvent_reach _ _ _ _) rfl
    | with_reducible apply SameExcept.stored (addNotice_reach _ _ _) rfl
    | split
    | dsimp only

theorem writeRing_stored {s : State} (a b c d) (h : s.stored = true) : (writeRing a b c d s).stored = true := by
  unfold writeRing
  try dsimp only
  repeat' first
    | with_reducible assumption
    | with_reducible apply sendWrite_stored
    | split
    | dsimp only

theorem drainOne_stored {s : State} (a) (h : s.stored = true) : (drainOne a s).stored = true := by
  unfold drainOne
  try dsimp only
  repeat' first
    | with_reducible assumption
    | with_reducible apply SameExcept.stored (receiptArrived_reach _ _ _ _) rfl
    | with_reducible apply SameExcept.stored (updQ_reach _ _ _) rfl
    | with_reducible apply writeRing_stored
    | with_reducible apply hbmRead_stored
    | split
    | dsimp only

theorem drainHost_stored {s : State} (a b c) (h : s.stored = true) : (drainHost a b c s).stored = true := by
  unfold drainHost
  try dsimp only
  repeat' first
    | with_reducible assumption
    | with_reducible apply SameExcept.stored (cmdRefused_reach _ _ _ _) rfl
    | with_reducible apply drainOne_stored
    | with_reducible apply SameExcept.stored (addNotice_reach _ _ _) rfl
    | with_reducible apply iter_stored
    | ((with_reducible intro _ _ _ _); try dsimp only)
    | ((with_reducible intro _ _ _); try dsimp only)
    | ((with_reducible intro _ _); try dsimp only)
    | split
    | dsimp only

theorem accessRefused_stored {s : State} (a) (h : s.stored = true) : (accessRefused a s).stored = true := by
  unfold accessRefused
  try dsimp only
  repeat' first
    | with_reducible assumption
    | with_reducible apply SameExcept.stored (logEvent_reach _ _ _ _) rfl
    | with_reducible apply endPiece_stored
    | with_reducible apply SameExcept.stored (withdrawPiece_reach _ _ _) rfl
    | with_reducible apply SameExcept.stored (setXfer_reach _ _ _) rfl
    | with_reducible apply SameExcept.stored (updInv_reach _ _ _) rfl
    | with_reducible apply spillReceipt_stored
    | with_reducible apply SameExcept.stored (updQ_reach _ _ _) rfl
    | split
    | dsimp only

theorem ringMailbox_stored {s : State} {m w k f}
    (hf : ∀ p t, t.stored = true → (f p t).stored = true) (h : s.stored = true) : (ringMailbox m w k f s).stored = true := by
  unfold ringMailbox
  try dsimp only
  repeat' first
    | with_reducible assumption
    | with_reducible apply hf
    | with_reducible apply SameExcept.stored (carrierDenied_reach _ _ _) rfl
    | with_reducible apply SameExcept.stored (logEvent_reach _ _ _ _) rfl
    | ((with_reducible intro _ _ _ _); try dsimp only)
    | ((with_reducible intro _ _ _); try dsimp only)
    | ((with_reducible intro _ _); try dsimp only)
    | split
    | dsimp only

end Sys2Proof.Machine
end

