-- ==== Sys2Proof/Laws/HbmRows.lean ====
section
/-! SUPPORT. What each operation of Machine/HbmRows.lean reaches: every other part of the state is as it was (`_reach`), and memory and the
marks keep their canonical form (`_stored`). -/

namespace Sys2Proof.Machine

set_option linter.unusedTactic false
set_option linter.unreachableTactic false
set_option linter.unnecessarySeqFocus false

theorem dropFill_reach (a b s) : SameExcept [.cache] s (dropFill a b s) := by
  unfold dropFill
  try dsimp only
  repeat' first
    | with_reducible exact SameExcept.refl _ _
    | ((with_reducible apply covers_intro); decide)
    | with_reducible apply SameExcept.step (setCache_reach _ _ _)

theorem startFill_reach (a b c s) : SameExcept [.log, .mem, .poison, .cache, .mc] s (startFill a b c s) := by
  unfold startFill
  try dsimp only
  repeat' first
    | with_reducible exact SameExcept.refl _ _
    | ((with_reducible apply covers_intro); decide)
    | with_reducible apply SameExcept.step (dropFill_reach _ _ _)
    | with_reducible apply SameExcept.step (offlineAccess_reach _ _)
    | with_reducible apply SameExcept.step (dramRead_reach _ _ _ _)
    | with_reducible apply SameExcept.step (setCache_reach _ _ _)
    | split
    | dsimp only

theorem lateFill_reach (a b s) : SameExcept [.cache] s (lateFill a b s) := by
  unfold lateFill
  try dsimp only
  repeat' first
    | with_reducible exact SameExcept.refl _ _
    | ((with_reducible apply covers_intro); decide)
    | with_reducible apply SameExcept.step (dropFill_reach _ _ _)
    | split
    | dsimp only

theorem writeBack_reach (a b s) : SameExcept [.log, .mem, .poison, .cache, .mc] s (writeBack a b s) := by
  unfold writeBack
  try dsimp only
  repeat' first
    | with_reducible exact SameExcept.refl _ _
    | ((with_reducible apply covers_intro); decide)
    | with_reducible apply SameExcept.step (writeLine_reach _ _ _ _)
    | with_reducible apply SameExcept.step (passOlder_reach _ _ _ _ _)
    | with_reducible apply SameExcept.step (setCache_reach _ _ _)
    | split
    | dsimp only

theorem finishClean_reach (a s) : SameExcept [.log, .mem, .poison, .cache, .mc] s (finishClean a s) := by
  unfold finishClean
  try dsimp only
  repeat' first
    | with_reducible exact SameExcept.refl _ _
    | ((with_reducible apply covers_intro); decide)
    | with_reducible apply SameExcept.step (setCache_reach _ _ _)
    | with_reducible apply SameExcept.step (writeLine_reach _ _ _ _)
    | with_reducible apply SameExcept.forEach
    | ((with_reducible intro _ _); try dsimp only)
    | ((with_reducible intro _); try dsimp only)
    | split

theorem patrol_reach (a b s) : SameExcept [.log, .mem, .poison, .mc] s (patrol a b s) := by
  unfold patrol
  try dsimp only
  repeat' first
    | with_reducible exact SameExcept.refl _ _
    | ((with_reducible apply covers_intro); decide)
    | with_reducible apply SameExcept.step (updMc_reach _ _ _)
    | with_reducible apply SameExcept.step (dramCheck_reach _ _ _)
    | split

theorem patrolBehind_reach (a s) : SameExcept [.log, .mc] s (patrolBehind a s) := by
  unfold patrolBehind
  try dsimp only
  repeat' first
    | with_reducible exact SameExcept.refl _ _
    | ((with_reducible apply covers_intro); decide)
    | with_reducible apply SameExcept.step (logEvent_reach _ _ _ _)
    | with_reducible apply SameExcept.step (setMc_reach _ _ _)
    | split

theorem recordFix_reach (a s) : SameExcept [.pm] s (recordFix a s) := by
  unfold recordFix
  try dsimp only
  repeat' first
    | with_reducible exact SameExcept.refl _ _
    | ((with_reducible apply covers_intro); decide)
    | ((with_reducible apply FieldsSame.intro); intro q hq; cases q <;> first | exact absurd (by decide) hq | (dsimp only [Part.same, memByte]; done) | (dsimp only [Part.same, memByte]; exact ⟨rfl, fun _ => rfl⟩) | (dsimp only [Part.same]; exact ⟨rfl, rfl⟩))
    | with_reducible apply SameExcept.fields

theorem stackOut_reach (a s) : SameExcept [.freeCtr, .log, .isl, .mc, .blend] s (stackOut a s) := by
  unfold stackOut
  try dsimp only
  repeat' first
    | with_reducible exact SameExcept.refl _ _
    | ((with_reducible apply covers_intro); decide)
    | with_reducible apply SameExcept.step (drawFree_reach _)
    | with_reducible apply SameExcept.step (updIsl_reach _ _ _)
    | with_reducible apply SameExcept.step (updMc_reach _ _ _)
    | with_reducible apply SameExcept.step (logEvent_reach _ _ _ _)
    | ((with_reducible apply FieldsSame.intro); intro q hq; cases q <;> first | exact absurd (by decide) hq | (dsimp only [Part.same, memByte]; done) | (dsimp only [Part.same, memByte]; exact ⟨rfl, fun _ => rfl⟩) | (dsimp only [Part.same]; exact ⟨rfl, rfl⟩))
    | split
    | dsimp only
    | with_reducible apply SameExcept.fields

theorem laneFails_reach (a b c s) : SameExcept [.freeCtr, .log, .plan, .isl, .pm, .mc, .blend] s (laneFails a b c s) := by
  unfold laneFails
  try dsimp only
  repeat' first
    | with_reducible exact SameExcept.refl _ _
    | ((with_reducible apply covers_intro); decide)
    | with_reducible apply SameExcept.step (stackOut_reach _ _)
    | with_reducible apply SameExcept.step (recordFix_reach _ _)
    | with_reducible apply SameExcept.step (updMc_reach _ _ _)
    | with_reducible apply SameExcept.step (logEvent_reach _ _ _ _)
    | ((with_reducible apply FieldsSame.intro); intro q hq; cases q <;> first | exact absurd (by decide) hq | (dsimp only [Part.same, memByte]; done) | (dsimp only [Part.same, memByte]; exact ⟨rfl, fun _ => rfl⟩) | (dsimp only [Part.same]; exact ⟨rfl, rfl⟩))
    | split
    | dsimp only
    | with_reducible apply SameExcept.fields

theorem startPause_reach (a b c s) : SameExcept [.freeCtr, .log, .plan, .isl, .pm, .mc, .blend] s (startPause a b c s) := by
  unfold startPause
  try dsimp only
  repeat' first
    | with_reducible exact SameExcept.refl _ _
    | ((with_reducible apply covers_intro); decide)
    | with_reducible apply SameExcept.step (setMc_reach _ _ _)
    | with_reducible apply SameExcept.step (laneFails_reach _ _ _ _)
    | split
    | dsimp only

theorem endPause_reach (a s) : SameExcept [.mc] s (endPause a s) := by
  unfold endPause
  try dsimp only
  repeat' first
    | with_reducible exact SameExcept.refl _ _
    | ((with_reducible apply covers_intro); decide)
    | with_reducible apply SameExcept.step (setMc_reach _ _ _)
    | split
    | dsimp only

/-! ### The canonical form -/

theorem startFill_stored {s : State} (a b c) (h : s.stored = true) : (startFill a b c s).stored = true := by
  unfold startFill
  try dsimp only
  repeat' first
    | with_reducible assumption
    | with_reducible apply SameExcept.stored (dropFill_reach _ _ _) rfl
    | with_reducible apply SameExcept.stored (offlineAccess_reach _ _) rfl
    | with_reducible apply dramRead_stored
    | with_reducible apply SameExcept.stored (setCache_reach _ _ _) rfl
    | split
    | dsimp only

theorem writeBack_stored {s : State} (a b) (h : s.stored = true) : (writeBack a b s).stored = true := by
  unfold writeBack
  try dsimp only
  repeat' first
    | with_reducible assumption
    | with_reducible apply writeLine_stored
    | with_reducible apply SameExcept.stored (passOlder_reach _ _ _ _ _) rfl
    | with_reducible apply SameExcept.stored (setCache_reach _ _ _) rfl
    | split
    | dsimp only

theorem finishClean_stored {s : State} (a) (h : s.stored = true) : (finishClean a s).stored = true := by
  unfold finishClean
  try dsimp only
  repeat' first
    | with_reducible assumption
    | with_reducible apply SameExcept.stored (setCache_reach _ _ _) rfl
    | with_reducible apply writeLine_stored
    | with_reducible apply forEach_stored
    | ((with_reducible intro _ _ _ _); try dsimp only)
    | ((with_reducible intro _ _ _); try dsimp only)
    | ((with_reducible intro _ _); try dsimp only)
    | split

theorem patrol_stored {s : State} (a b) (h : s.stored = true) : (patrol a b s).stored = true := by
  unfold patrol
  try dsimp only
  repeat' first
    | with_reducible assumption
    | with_reducible apply SameExcept.stored (updMc_reach _ _ _) rfl
    | with_reducible apply dramCheck_stored
    | split

end Sys2Proof.Machine
end

