-- ==== Sys2Proof/Laws/Pm.lean ====
section
/-! SUPPORT. What each operation of Machine/Pm.lean reaches: every other part of the state is as it was (`_reach`), and memory and the
marks keep their canonical form (`_stored`). -/

namespace Sys2Proof.Machine

set_option linter.unusedTactic false
set_option linter.unreachableTactic false
set_option linter.unnecessarySeqFocus false

theorem setSlot_reach (s b c) : SameExcept [.pm] s (setSlot s b c) := by
  unfold setSlot
  try dsimp only
  repeat' first
    | with_reducible exact SameExcept.refl _ _
    | ((with_reducible apply covers_intro); decide)
    | ((with_reducible apply FieldsSame.intro); intro q hq; cases q <;> first | exact absurd (by decide) hq | (dsimp only [Part.same, memByte]; done) | (dsimp only [Part.same, memByte]; exact ⟨rfl, fun _ => rfl⟩) | (dsimp only [Part.same]; exact ⟨rfl, rfl⟩))
    | with_reducible apply SameExcept.fields

theorem updSlot_reach (s b c) : SameExcept [.pm] s (updSlot s b c) := by
  unfold updSlot
  try dsimp only
  repeat' first
    | with_reducible exact SameExcept.refl _ _
    | ((with_reducible apply covers_intro); decide)
    | with_reducible apply SameExcept.step (setSlot_reach _ _ _)

theorem finishCall_reach (a b c s) : SameExcept [.pm, .host] s (finishCall a b c s) := by
  unfold finishCall
  try dsimp only
  repeat' first
    | with_reducible exact SameExcept.refl _ _
    | ((with_reducible apply covers_intro); decide)
    | with_reducible apply SameExcept.step (setSlot_reach _ _ _)
    | with_reducible apply SameExcept.step (raiseVector_reach _ _)
    | with_reducible apply SameExcept.foldl
    | with_reducible apply SameExcept.foldlFst
    | ((with_reducible intro _ _); try dsimp only)
    | ((with_reducible intro _); try dsimp only)
    | split
    | dsimp only

theorem pmCall_reach {ps : List Part} {s0 s : State} {r p w k n v f} (hf : ∀ a b t, SameExcept ps t (f a b t).1)
    (hc : covers ps [.log, .pm, .host] = true) (h0 : SameExcept ps s0 s) : SameExcept ps s0 (pmCall r p w k n v f s) := by
  refine h0.trans ?_
  unfold pmCall
  dsimp only
  split
  · exact SameExcept.refl _ _
  · split
    · split
      · split
        · exact SameExcept.step (carrierDenied_reach _ _ _) (covers_trans hc (by decide)) (SameExcept.refl _ _)
        · exact SameExcept.refl _ _
      · exact SameExcept.refl _ _
    · split
      · exact SameExcept.step (logEvent_reach _ _ _ _) (covers_trans hc (by decide)) (SameExcept.refl _ _)
      · have hs : ∀ x, SameExcept ps s (setSlot s k x) := fun x =>
          SameExcept.step (setSlot_reach _ _ _) (covers_trans hc (by decide)) (SameExcept.refl _ _)
        split
        · exact SameExcept.step (finishCall_reach _ _ _ _) (covers_trans hc (by decide)) (hs _)
        · split
          · next h => exact SameExcept.step (finishCall_reach _ _ _ _) (covers_trans hc (by decide)) (SameExcept.pairFst h (hf _ _ _) (covers_refl _) (hs _))
          · next h => exact SameExcept.pairFst h (hf _ _ _) (covers_refl _) (hs _)

/-! ### The canonical form -/

theorem pmCall_stored {s : State} {r p w k n v f} (hf : ∀ a b t, t.stored = true → (f a b t).1.stored = true) (h : s.stored = true) :
    (pmCall r p w k n v f s).stored = true := by
  unfold pmCall
  dsimp only
  split
  · exact h
  · split
    · split
      · split
        · exact SameExcept.stored (carrierDenied_reach _ _ _) rfl h
        · exact h
      · exact h
    · split
      · exact SameExcept.stored (logEvent_reach _ _ _ _) rfl h
      · have hs : ∀ x, (setSlot s k x).stored = true := fun x => SameExcept.stored (setSlot_reach _ _ _) rfl h
        split
        · exact SameExcept.stored (finishCall_reach _ _ _ _) rfl (hs _)
        · split
          · next hb => exact SameExcept.stored (finishCall_reach _ _ _ _) rfl (pairFst_stored hb (hf _ _ _ (hs _)))
          · next hb => exact pairFst_stored hb (hf _ _ _ (hs _))

end Sys2Proof.Machine
end

