-- ==== Sys2Proof/Laws/Seg.lean ====
section
/-! SUPPORT. What each operation of Machine/Seg.lean reaches: every other part of the state is as it was (`_reach`), and memory and the
marks keep their canonical form (`_stored`). -/

namespace Sys2Proof.Machine

set_option linter.unusedTactic false
set_option linter.unreachableTactic false
set_option linter.unnecessarySeqFocus false

theorem setSeg_reach (s b c d) : SameExcept [.seg] s (setSeg s b c d) := by
  unfold setSeg
  try dsimp only
  repeat' first
    | with_reducible exact SameExcept.refl _ _
    | ((with_reducible apply covers_intro); decide)
    | ((with_reducible apply FieldsSame.intro); intro q hq; cases q <;> first | exact absurd (by decide) hq | (dsimp only [Part.same, memByte]; done) | (dsimp only [Part.same, memByte]; exact ⟨rfl, fun _ => rfl⟩) | (dsimp only [Part.same]; exact ⟨rfl, rfl⟩))
    | with_reducible apply SameExcept.fields

theorem withdraw_reach (a b c d s) : SameExcept [.seg] s (withdraw a b c d s) := by
  unfold withdraw
  try dsimp only
  repeat' first
    | with_reducible exact SameExcept.refl _ _
    | ((with_reducible apply covers_intro); decide)
    | with_reducible apply SameExcept.step (setSeg_reach _ _ _ _)
    | ((with_reducible apply FieldsSame.intro); intro q hq; cases q <;> first | exact absurd (by decide) hq | (dsimp only [Part.same, memByte]; done) | (dsimp only [Part.same, memByte]; exact ⟨rfl, fun _ => rfl⟩) | (dsimp only [Part.same]; exact ⟨rfl, rfl⟩))
    | with_reducible apply SameExcept.fields

theorem flushFor_reach (a b s) : SameExcept [.host] s (flushFor a b s) := by
  unfold flushFor
  try dsimp only
  repeat' first
    | with_reducible exact SameExcept.refl _ _
    | ((with_reducible apply covers_intro); decide)
    | with_reducible apply SameExcept.step (askFlush_reach _ _)
    | with_reducible apply SameExcept.forEach
    | ((with_reducible intro _ _); try dsimp only)
    | ((with_reducible intro _); try dsimp only)
    | split

theorem putWithdrawal_reach (s b) : SameExcept [.seg] s (putWithdrawal s b) := by
  unfold putWithdrawal
  try dsimp only
  repeat' first
    | with_reducible exact SameExcept.refl _ _
    | ((with_reducible apply covers_intro); decide)
    | ((with_reducible apply FieldsSame.intro); intro q hq; cases q <;> first | exact absurd (by decide) hq | (dsimp only [Part.same, memByte]; done) | (dsimp only [Part.same, memByte]; exact ⟨rfl, fun _ => rfl⟩) | (dsimp only [Part.same]; exact ⟨rfl, rfl⟩))
    | split
    | with_reducible apply SameExcept.fields

theorem applyInvalidate_reach (a b c s) : SameExcept [.seg, .host] s (applyInvalidate a b c s) := by
  unfold applyInvalidate
  try dsimp only
  repeat' first
    | with_reducible exact SameExcept.refl _ _
    | ((with_reducible apply covers_intro); decide)
    | with_reducible apply SameExcept.step (flushFor_reach _ _ _)
    | with_reducible apply SameExcept.step (putWithdrawal_reach _ _)
    | ((with_reducible apply FieldsSame.intro); intro q hq; cases q <;> first | exact absurd (by decide) hq | (dsimp only [Part.same, memByte]; done) | (dsimp only [Part.same, memByte]; exact ⟨rfl, fun _ => rfl⟩) | (dsimp only [Part.same]; exact ⟨rfl, rfl⟩))
    | split
    | dsimp only
    | with_reducible apply SameExcept.fields

theorem putCall_reach (s b) : SameExcept [.seg] s (putCall s b) := by
  unfold putCall
  try dsimp only
  repeat' first
    | with_reducible exact SameExcept.refl _ _
    | ((with_reducible apply covers_intro); decide)
    | ((with_reducible apply FieldsSame.intro); intro q hq; cases q <;> first | exact absurd (by decide) hq | (dsimp only [Part.same, memByte]; done) | (dsimp only [Part.same, memByte]; exact ⟨rfl, fun _ => rfl⟩) | (dsimp only [Part.same]; exact ⟨rfl, rfl⟩))
    | split
    | with_reducible apply SameExcept.fields

theorem endCall_reach (a b c s) : SameExcept [.pm, .seg, .host] s (endCall a b c s) := by
  unfold endCall
  try dsimp only
  repeat' first
    | with_reducible exact SameExcept.refl _ _
    | ((with_reducible apply covers_intro); decide)
    | with_reducible apply SameExcept.step (finishCall_reach _ _ _ _)
    | ((with_reducible apply FieldsSame.intro); intro q hq; cases q <;> first | exact absurd (by decide) hq | (dsimp only [Part.same, memByte]; done) | (dsimp only [Part.same, memByte]; exact ⟨rfl, fun _ => rfl⟩) | (dsimp only [Part.same]; exact ⟨rfl, rfl⟩))
    | with_reducible apply SameExcept.fields

theorem noteHot_reach (a b s) : SameExcept [.seg] s (noteHot a b s) := by
  unfold noteHot
  try dsimp only
  repeat' first
    | with_reducible exact SameExcept.refl _ _
    | ((with_reducible apply covers_intro); decide)
    | ((with_reducible apply FieldsSame.intro); intro q hq; cases q <;> first | exact absurd (by decide) hq | (dsimp only [Part.same, memByte]; done) | (dsimp only [Part.same, memByte]; exact ⟨rfl, fun _ => rfl⟩) | (dsimp only [Part.same]; exact ⟨rfl, rfl⟩))
    | split
    | with_reducible apply SameExcept.fields

theorem runCall_reach (a s) : SameExcept [.pm, .seg, .host] s (runCall a s) := by
  unfold runCall
  try dsimp only
  repeat' first
    | with_reducible exact SameExcept.refl _ _
    | ((with_reducible apply covers_intro); decide)
    | with_reducible apply SameExcept.step (withdraw_reach _ _ _ _ _)
    | with_reducible apply SameExcept.step (putCall_reach _ _)
    | with_reducible apply SameExcept.step (endCall_reach _ _ _ _)
    | with_reducible apply SameExcept.step (setSeg_reach _ _ _ _)
    | with_reducible apply SameExcept.step (noteHot_reach _ _ _)
    | split
    | dsimp only

theorem runCalls_reach (a b s) : SameExcept [.pm, .seg, .host] s (runCalls a b s) := by
  induction b generalizing s with
  | zero => exact SameExcept.refl _ _
  | succ n ih =>
    unfold runCalls
    try dsimp only
    repeat' first
      | with_reducible exact SameExcept.refl _ _
      | ((with_reducible apply covers_intro); decide)
      | with_reducible apply SameExcept.step (ih _)
      | with_reducible apply SameExcept.step (runCall_reach _ _)
      | split
      | dsimp only

theorem runContext_reach (a s) : SameExcept [.pm, .seg, .host] s (runContext a s) := by
  unfold runContext
  try dsimp only
  repeat' first
    | with_reducible exact SameExcept.refl _ _
    | ((with_reducible apply covers_intro); decide)
    | with_reducible apply SameExcept.step (runCalls_reach _ _ _)

theorem withdrawalDone_reach (a s) : SameExcept [.log, .pm, .seg, .host] s (withdrawalDone a s) := by
  unfold withdrawalDone
  try dsimp only
  repeat' first
    | with_reducible exact SameExcept.refl _ _
    | ((with_reducible apply covers_intro); decide)
    | with_reducible apply SameExcept.step (logEvent_reach _ _ _ _)
    | with_reducible apply SameExcept.step (putCall_reach _ _)
    | with_reducible apply SameExcept.step (runContext_reach _ _)
    | with_reducible apply SameExcept.step (endCall_reach _ _ _ _)
    | ((with_reducible apply FieldsSame.intro); intro q hq; cases q <;> first | exact absurd (by decide) hq | (dsimp only [Part.same, memByte]; done) | (dsimp only [Part.same, memByte]; exact ⟨rfl, fun _ => rfl⟩) | (dsimp only [Part.same]; exact ⟨rfl, rfl⟩))
    | split
    | dsimp only
    | with_reducible apply SameExcept.fields

theorem ackWithdrawal_reach (a b c s) : SameExcept [.log, .pm, .seg, .host] s (ackWithdrawal a b c s) := by
  unfold ackWithdrawal
  try dsimp only
  repeat' first
    | with_reducible exact SameExcept.refl _ _
    | ((with_reducible apply covers_intro); decide)
    | with_reducible apply SameExcept.step (flushFor_reach _ _ _)
    | with_reducible apply SameExcept.step (putWithdrawal_reach _ _)
    | with_reducible apply SameExcept.step (withdrawalDone_reach _ _)
    | split
    | dsimp only

theorem copyOut_reach (a b c d s) : SameExcept [.log, .plan, .isl, .pm, .mem, .poison, .cache, .mc, .xfers, .host, .qs] s (copyOut a b c d s) := by
  unfold copyOut
  try dsimp only
  repeat' first
    | with_reducible exact SameExcept.refl _ _
    | ((with_reducible apply covers_intro); decide)
    | with_reducible apply SameExcept.step (hbmRead_reach _ _ _ _ _)
    | with_reducible apply SameExcept.step (sendWrite_reach _ _)
    | with_reducible apply SameExcept.forEach
    | ((with_reducible intro _ _); try dsimp only)
    | ((with_reducible intro _); try dsimp only)
    | split
    | dsimp only

theorem copyDone_reach (a b s) : SameExcept [.log, .plan, .isl, .pm, .mem, .poison, .cache, .mc, .seg, .xfers, .host, .qs] s (copyDone a b s) := by
  unfold copyDone
  try dsimp only
  repeat' first
    | with_reducible exact SameExcept.refl _ _
    | ((with_reducible apply covers_intro); decide)
    | with_reducible apply SameExcept.step (withdraw_reach _ _ _ _ _)
    | with_reducible apply SameExcept.step (putCall_reach _ _)
    | with_reducible apply SameExcept.step (copyOut_reach _ _ _ _ _)
    | with_reducible apply SameExcept.step (hbmWrite_reach _ _ _ _ _)
    | split
    | dsimp only

theorem acceptSeg_reach (a b c d e s) : SameExcept [.pm, .seg, .host] s (acceptSeg a b c d e s).1 := by
  unfold acceptSeg
  try dsimp only
  repeat' first
    | with_reducible exact SameExcept.refl _ _
    | ((with_reducible apply covers_intro); decide)
    | with_reducible apply SameExcept.step (runContext_reach _ _)
    | ((with_reducible apply FieldsSame.intro); intro q hq; cases q <;> first | exact absurd (by decide) hq | (dsimp only [Part.same, memByte]; done) | (dsimp only [Part.same, memByte]; exact ⟨rfl, fun _ => rfl⟩) | (dsimp only [Part.same]; exact ⟨rfl, rfl⟩))
    | split
    | dsimp only
    | with_reducible apply SameExcept.fields

theorem segCall_reach (a b c d e f g j k l s) : SameExcept [.log, .pm, .seg, .host] s (segCall a b c d e f g j k l s) := by
  unfold segCall
  try dsimp only
  repeat' first
    | with_reducible exact SameExcept.refl _ _
    | ((with_reducible apply covers_intro); decide)
    | with_reducible apply pmCall_reach
    | with_reducible apply SameExcept.step (acceptSeg_reach _ _ _ _ _ _)
    | ((with_reducible intro _ _); try dsimp only)
    | ((with_reducible intro _); try dsimp only)

theorem adviseCall_reach (a b c d e f g s) : SameExcept [.log, .pm, .seg, .host] s (adviseCall a b c d e f g s) := by
  unfold adviseCall
  try dsimp only
  repeat' first
    | with_reducible exact SameExcept.refl _ _
    | ((with_reducible apply covers_intro); decide)
    | with_reducible apply SameExcept.step (segCall_reach _ _ _ _ _ _ _ _ _ _ _)

theorem faultTimeout_reach (a s) : SameExcept [.log, .isl, .mem, .poison, .seg, .xfers, .net, .qs, .sems, .cores, .links, .grinders] s (faultTimeout a s) := by
  unfold faultTimeout
  try dsimp only
  repeat' first
    | with_reducible exact SameExcept.refl _ _
    | ((with_reducible apply covers_intro); decide)
    | with_reducible apply SameExcept.step (failRecord_reach _ _)
    | with_reducible apply SameExcept.step (logEvent_reach _ _ _ _)
    | split
    | dsimp only

theorem resolve_reach {ps : List Part} {s0 s : State} {k f}
    (hf : ∀ p t, SameExcept ps t (f p t)) (h0 : SameExcept ps s0 s) : SameExcept ps s0 (resolve k f s) := by
  refine h0.trans ?_
  unfold resolve
  try dsimp only
  repeat' first
    | with_reducible exact SameExcept.refl _ _
    | ((with_reducible apply covers_intro); decide)
    | with_reducible exact hf _ _
    | ((with_reducible intro _ _); try dsimp only)
    | ((with_reducible intro _); try dsimp only)
    | split
    | dsimp only

/-! ### The canonical form -/

theorem copyOut_stored {s : State} (a b c d) (h : s.stored = true) : (copyOut a b c d s).stored = true := by
  unfold copyOut
  try dsimp only
  repeat' first
    | with_reducible assumption
    | with_reducible apply hbmRead_stored
    | with_reducible apply sendWrite_stored
    | with_reducible apply forEach_stored
    | ((with_reducible intro _ _ _ _); try dsimp only)
    | ((with_reducible intro _ _ _); try dsimp only)
    | ((with_reducible intro _ _); try dsimp only)
    | split
    | dsimp only

theorem copyDone_stored {s : State} (a b) (h : s.stored = true) : (copyDone a b s).stored = true := by
  unfold copyDone
  try dsimp only
  repeat' first
    | with_reducible assumption
    | with_reducible apply SameExcept.stored (withdraw_reach _ _ _ _ _) rfl
    | with_reducible apply SameExcept.stored (putCall_reach _ _) rfl
    | with_reducible apply copyOut_stored
    | with_reducible apply hbmWrite_stored
    | split
    | dsimp only

theorem faultTimeout_stored {s : State} (a) (h : s.stored = true) : (faultTimeout a s).stored = true := by
  unfold faultTimeout
  try dsimp only
  repeat' first
    | with_reducible assumption
    | with_reducible apply failRecord_stored
    | with_reducible apply SameExcept.stored (logEvent_reach _ _ _ _) rfl
    | split
    | dsimp only

theorem resolve_stored {s : State} {k f}
    (hf : ∀ p t, t.stored = true → (f p t).stored = true) (h : s.stored = true) : (resolve k f s).stored = true := by
  unfold resolve
  try dsimp only
  repeat' first
    | with_reducible assumption
    | with_reducible apply hf
    | ((with_reducible intro _ _ _ _); try dsimp only)
    | ((with_reducible intro _ _ _); try dsimp only)
    | ((with_reducible intro _ _); try dsimp only)
    | split
    | dsimp only

end Sys2Proof.Machine
end

