-- ==== Sys2Proof/Laws/Courier.lean ====
section
/-! SUPPORT. What each operation of Machine/Courier.lean reaches: every other part of the state is as it was (`_reach`), and memory and the
marks keep their canonical form (`_stored`). -/

namespace Sys2Proof.Machine

set_option linter.unusedTactic false
set_option linter.unreachableTactic false
set_option linter.unnecessarySeqFocus false

theorem setCr_reach (s b c) : SameExcept [.courier] s (setCr s b c) := by
  unfold setCr
  try dsimp only
  repeat' first
    | with_reducible exact SameExcept.refl _ _
    | ((with_reducible apply covers_intro); decide)
    | ((with_reducible apply FieldsSame.intro); intro q hq; cases q <;> first | exact absurd (by decide) hq | (dsimp only [Part.same, memByte]; done) | (dsimp only [Part.same, memByte]; exact ⟨rfl, fun _ => rfl⟩) | (dsimp only [Part.same]; exact ⟨rfl, rfl⟩))
    | with_reducible apply SameExcept.fields

theorem updCr_reach (s b c) : SameExcept [.courier] s (updCr s b c) := by
  unfold updCr
  try dsimp only
  repeat' first
    | with_reducible exact SameExcept.refl _ _
    | ((with_reducible apply covers_intro); decide)
    | with_reducible apply SameExcept.step (setCr_reach _ _ _)

theorem setSw_reach (s b c) : SameExcept [.courier] s (setSw s b c) := by
  unfold setSw
  try dsimp only
  repeat' first
    | with_reducible exact SameExcept.refl _ _
    | ((with_reducible apply covers_intro); decide)
    | ((with_reducible apply FieldsSame.intro); intro q hq; cases q <;> first | exact absurd (by decide) hq | (dsimp only [Part.same, memByte]; done) | (dsimp only [Part.same, memByte]; exact ⟨rfl, fun _ => rfl⟩) | (dsimp only [Part.same]; exact ⟨rfl, rfl⟩))
    | with_reducible apply SameExcept.fields

theorem emitOn_reach (a b s) : SameExcept [.courier] s (emitOn a b s) := by
  unfold emitOn
  try dsimp only
  repeat' first
    | with_reducible exact SameExcept.refl _ _
    | ((with_reducible apply covers_intro); decide)
    | ((with_reducible apply FieldsSame.intro); intro q hq; cases q <;> first | exact absurd (by decide) hq | (dsimp only [Part.same, memByte]; done) | (dsimp only [Part.same, memByte]; exact ⟨rfl, fun _ => rfl⟩) | (dsimp only [Part.same]; exact ⟨rfl, rfl⟩))
    | with_reducible apply SameExcept.fields

theorem emit_reach (a b s) : SameExcept [.courier] s (emit a b s) := by
  unfold emit
  try dsimp only
  repeat' first
    | with_reducible exact SameExcept.refl _ _
    | ((with_reducible apply covers_intro); decide)
    | with_reducible apply SameExcept.step (emitOn_reach _ _ _)
    | ((with_reducible apply FieldsSame.intro); intro q hq; cases q <;> first | exact absurd (by decide) hq | (dsimp only [Part.same, memByte]; done) | (dsimp only [Part.same, memByte]; exact ⟨rfl, fun _ => rfl⟩) | (dsimp only [Part.same]; exact ⟨rfl, rfl⟩))
    | split
    | dsimp only
    | with_reducible apply SameExcept.fields

theorem sendMsg_reach (a b c d e s) : SameExcept [.courier] s (sendMsg a b c d e s) := by
  unfold sendMsg
  try dsimp only
  repeat' first
    | with_reducible exact SameExcept.refl _ _
    | ((with_reducible apply covers_intro); decide)
    | with_reducible apply SameExcept.step (emit_reach _ _ _)
    | ((with_reducible apply FieldsSame.intro); intro q hq; cases q <;> first | exact absurd (by decide) hq | (dsimp only [Part.same, memByte]; done) | (dsimp only [Part.same, memByte]; exact ⟨rfl, fun _ => rfl⟩) | (dsimp only [Part.same]; exact ⟨rfl, rfl⟩))
    | with_reducible apply SameExcept.fields

theorem sendPoint_reach (a b c d e f s) : SameExcept [.courier] s (sendPoint a b c d e f s) := by
  unfold sendPoint
  try dsimp only
  repeat' first
    | with_reducible exact SameExcept.refl _ _
    | ((with_reducible apply covers_intro); decide)
    | with_reducible apply SameExcept.step (sendMsg_reach _ _ _ _ _ _)

theorem sendControl_reach (a b c s) : SameExcept [.courier] s (sendControl a b c s) := by
  unfold sendControl
  try dsimp only
  repeat' first
    | with_reducible exact SameExcept.refl _ _
    | ((with_reducible apply covers_intro); decide)
    | with_reducible apply SameExcept.step (sendPoint_reach _ _ _ _ _ _ _)

theorem answerMsg_reach (a b c d s) : SameExcept [.courier] s (answerMsg a b c d s) := by
  unfold answerMsg
  try dsimp only
  repeat' first
    | with_reducible exact SameExcept.refl _ _
    | ((with_reducible apply covers_intro); decide)
    | with_reducible apply SameExcept.step (emit_reach _ _ _)

theorem ackMsg_reach (a s) : SameExcept [.courier] s (ackMsg a s) := by
  unfold ackMsg
  try dsimp only
  repeat' first
    | with_reducible exact SameExcept.refl _ _
    | ((with_reducible apply covers_intro); decide)
    | with_reducible apply SameExcept.step (answerMsg_reach _ _ _ _ _)

theorem nackMsg_reach (a b s) : SameExcept [.courier] s (nackMsg a b s) := by
  unfold nackMsg
  try dsimp only
  repeat' first
    | with_reducible exact SameExcept.refl _ _
    | ((with_reducible apply covers_intro); decide)
    | with_reducible apply SameExcept.step (answerMsg_reach _ _ _ _ _)

theorem turnAway_reach (a b c s) : SameExcept [.courier] s (turnAway a b c s) := by
  unfold turnAway
  try dsimp only
  repeat' first
    | with_reducible exact SameExcept.refl _ _
    | ((with_reducible apply covers_intro); decide)
    | with_reducible apply SameExcept.step (nackMsg_reach _ _ _)
    | ((with_reducible apply FieldsSame.intro); intro q hq; cases q <;> first | exact absurd (by decide) hq | (dsimp only [Part.same, memByte]; done) | (dsimp only [Part.same, memByte]; exact ⟨rfl, fun _ => rfl⟩) | (dsimp only [Part.same]; exact ⟨rfl, rfl⟩))
    | with_reducible apply SameExcept.fields

theorem answerAgain_reach {ps : List Part} {s0 s : State} {k hd g}
    (hg : ∀ t, SameExcept ps t (g t)) (hc : covers ps [.courier] = true) (h0 : SameExcept ps s0 s) : SameExcept ps s0 (answerAgain k hd g s) := by
  refine h0.trans ?_
  unfold answerAgain
  try dsimp only
  repeat' first
    | with_reducible exact SameExcept.refl _ _
    | ((with_reducible apply covers_intro); decide)
    | with_reducible exact hg _
    | exact covers_trans hc (by decide)
    | with_reducible apply SameExcept.step (nackMsg_reach _ _ _)
    | ((with_reducible intro _ _); try dsimp only)
    | ((with_reducible intro _); try dsimp only)
    | split
    | dsimp only

theorem inFlow_reach {ps : List Part} {s0 s : State} {hd k a f}
    (ha : ∀ t, SameExcept ps t (a t)) (hf : ∀ t, SameExcept ps t (f t)) (hc : covers ps [.courier] = true) (h0 : SameExcept ps s0 s) : SameExcept ps s0 (inFlow hd k a f s) := by
  refine h0.trans ?_
  unfold inFlow
  try dsimp only
  repeat' first
    | with_reducible exact SameExcept.refl _ _
    | ((with_reducible apply covers_intro); decide)
    | with_reducible apply answerAgain_reach
    | with_reducible exact ha
    | exact hc
    | with_reducible apply (hf _).after
    | exact covers_trans hc (by decide)
    | with_reducible refine FieldsSame.weaken (qs := [.courier]) ?_ hc
    | with_reducible apply answerAgain_reach
    | ((with_reducible apply FieldsSame.intro); intro q hq; cases q <;> first | exact absurd (by decide) hq | (dsimp only [Part.same, memByte]; done) | (dsimp only [Part.same, memByte]; exact ⟨rfl, fun _ => rfl⟩) | (dsimp only [Part.same]; exact ⟨rfl, rfl⟩))
    | ((with_reducible intro _ _); try dsimp only)
    | ((with_reducible intro _); try dsimp only)
    | split
    | with_reducible apply SameExcept.fields

theorem logRefused_reach (a b c s) : SameExcept [.log] s (logRefused a b c s) := by
  unfold logRefused
  try dsimp only
  repeat' first
    | with_reducible exact SameExcept.refl _ _
    | ((with_reducible apply covers_intro); decide)
    | with_reducible apply SameExcept.step (logEvent_reach _ _ _ _)

theorem peerAccess_reach {ps : List Part} {s0 s : State} {hd a n r f}
    (hf : ∀ t, SameExcept ps t (f t)) (hc : covers ps [.log, .courier] = true) (h0 : SameExcept ps s0 s) : SameExcept ps s0 (peerAccess hd a n r f s) := by
  refine h0.trans ?_
  unfold peerAccess
  try dsimp only
  repeat' first
    | with_reducible exact SameExcept.refl _ _
    | ((with_reducible apply covers_intro); decide)
    | with_reducible exact hf _
    | exact covers_trans hc (by decide)
    | with_reducible apply SameExcept.step (logRefused_reach _ _ _ _)
    | with_reducible apply SameExcept.step (turnAway_reach _ _ _ _)
    | ((with_reducible intro _ _); try dsimp only)
    | ((with_reducible intro _); try dsimp only)
    | split

theorem lookUp_reach {ps : List Part} {s0 s : State} {hd a n t0 f}
    (hf : ∀ t, SameExcept ps t (f t)) (hc : covers ps [.mode, .log, .plan, .power, .isl, .pm, .mem, .poison, .cache, .mc, .xfers, .net, .qs, .cores, .links, .grinders, .courier] = true) (h0 : SameExcept ps s0 s) : SameExcept ps s0 (lookUp hd a n t0 f s) := by
  refine h0.trans ?_
  unfold lookUp
  try dsimp only
  repeat' first
    | with_reducible exact SameExcept.refl _ _
    | ((with_reducible apply covers_intro); decide)
    | with_reducible apply (hf _).after
    | exact covers_trans hc (by decide)
    | with_reducible apply SameExcept.step (tagCheck_reach _ _ _)
    | with_reducible apply SameExcept.step (hbmTurn_reach _ _ _ _)
    | ((with_reducible intro _ _); try dsimp only)
    | ((with_reducible intro _); try dsimp only)
    | split
    | dsimp only

theorem sendGather_reach (a b c d e f s) : SameExcept [.courier] s (sendGather a b c d e f s) := by
  unfold sendGather
  try dsimp only
  repeat' first
    | with_reducible exact SameExcept.refl _ _
    | ((with_reducible apply covers_intro); decide)
    | with_reducible apply SameExcept.step (sendMsg_reach _ _ _ _ _ _)
    | split

theorem captureIn_reach (a b c d s) : SameExcept [.courier] s (captureIn a b c d s) := by
  unfold captureIn
  try dsimp only
  repeat' first
    | with_reducible exact SameExcept.refl _ _
    | ((with_reducible apply covers_intro); decide)
    | with_reducible apply SameExcept.step (sendGather_reach _ _ _ _ _ _ _)
    | with_reducible apply SameExcept.forEach
    | ((with_reducible intro _ _); try dsimp only)
    | ((with_reducible intro _); try dsimp only)
    | split

theorem captureWrite_reach (a b s) : SameExcept [.courier] s (captureWrite a b s) := by
  unfold captureWrite
  try dsimp only
  repeat' first
    | with_reducible exact SameExcept.refl _ _
    | ((with_reducible apply covers_intro); decide)
    | with_reducible apply SameExcept.step (captureIn_reach _ _ _ _ _)
    | with_reducible apply SameExcept.forEach
    | ((with_reducible intro _ _); try dsimp only)
    | ((with_reducible intro _); try dsimp only)
    | split

theorem passOn_reach (a b c d e s) : SameExcept [.courier] s (passOn a b c d e s) := by
  unfold passOn
  try dsimp only
  repeat' first
    | with_reducible exact SameExcept.refl _ _
    | ((with_reducible apply covers_intro); decide)
    | with_reducible apply SameExcept.step (emit_reach _ _ _)
    | split

theorem gather_reach (a b c d e s) : SameExcept [.log, .plan, .isl, .pm, .mem, .poison, .cache, .mc, .qs, .sems, .cores, .links, .grinders, .courier] s (gather a b c d e s) := by
  unfold gather
  try dsimp only
  repeat' first
    | with_reducible exact SameExcept.refl _ _
    | ((with_reducible apply covers_intro); decide)
    | with_reducible apply inFlow_reach
    | with_reducible apply SameExcept.step (nackMsg_reach _ _ _)
    | with_reducible apply SameExcept.step (turnAway_reach _ _ _ _)
    | with_reducible apply SameExcept.step (passOn_reach _ _ _ _ _ _)
    | with_reducible apply SameExcept.step (ackMsg_reach _ _)
    | with_reducible apply SameExcept.step (hbmWrite_reach _ _ _ _ _)
    | with_reducible apply SameExcept.step (hbmTurn_reach _ _ _ _)
    | with_reducible apply SameExcept.step (semPost_reach _ _ _)
    | ((with_reducible intro _ _); try dsimp only)
    | ((with_reducible intro _); try dsimp only)
    | split
    | dsimp only

theorem tableWrite_reach (a b s) : SameExcept [.log, .plan, .pm, .mem, .poison, .cache, .mc, .courier] s (tableWrite a b s) := by
  unfold tableWrite
  try dsimp only
  repeat' first
    | with_reducible exact SameExcept.refl _ _
    | ((with_reducible apply covers_intro); decide)
    | with_reducible apply SameExcept.step (captureWrite_reach _ _ _)
    | with_reducible apply SameExcept.step (hbmWrite_reach _ _ _ _ _)

theorem sendSteps_reach (s) : SameExcept [.courier] s (sendSteps s) := by
  unfold sendSteps
  try dsimp only
  repeat' first
    | with_reducible exact SameExcept.refl _ _
    | ((with_reducible apply covers_intro); decide)
    | with_reducible apply SameExcept.step (sendPoint_reach _ _ _ _ _ _ _)
    | with_reducible apply SameExcept.forEach
    | ((with_reducible apply FieldsSame.intro); intro q hq; cases q <;> first | exact absurd (by decide) hq | (dsimp only [Part.same, memByte]; done) | (dsimp only [Part.same, memByte]; exact ⟨rfl, fun _ => rfl⟩) | (dsimp only [Part.same]; exact ⟨rfl, rfl⟩))
    | ((with_reducible intro _ _); try dsimp only)
    | ((with_reducible intro _); try dsimp only)
    | split
    | with_reducible apply SameExcept.fields

theorem putStored_reach (a b s) : SameExcept [.courier] s (putStored a b s) := by
  unfold putStored
  try dsimp only
  repeat' first
    | with_reducible exact SameExcept.refl _ _
    | ((with_reducible apply covers_intro); decide)
    | ((with_reducible apply FieldsSame.intro); intro q hq; cases q <;> first | exact absurd (by decide) hq | (dsimp only [Part.same, memByte]; done) | (dsimp only [Part.same, memByte]; exact ⟨rfl, fun _ => rfl⟩) | (dsimp only [Part.same]; exact ⟨rfl, rfl⟩))
    | split
    | with_reducible apply SameExcept.fields

theorem ackedBy_reach (a b s) : SameExcept [.courier] s (ackedBy a b s) := by
  unfold ackedBy
  try dsimp only
  repeat' first
    | with_reducible exact SameExcept.refl _ _
    | ((with_reducible apply covers_intro); decide)
    | with_reducible apply SameExcept.step (putStored_reach _ _ _)
    | split

theorem acked_reach (a b c d s) : SameExcept [.isl, .mem, .poison, .xfers, .qs, .courier, .answers] s (acked a b c d s) := by
  unfold acked
  try dsimp only
  repeat' first
    | with_reducible exact SameExcept.refl _ _
    | ((with_reducible apply covers_intro); decide)
    | with_reducible apply SameExcept.step (ackedBy_reach _ _ _)
    | with_reducible apply SameExcept.step (landPiece_reach _ _ _ _)
    | with_reducible apply SameExcept.step (answer_reach _ _)
    | with_reducible apply SameExcept.step (updQ_reach _ _ _)
    | with_reducible apply SameExcept.step (sendSteps_reach _)
    | split
    | dsimp only

theorem nacked_reach (a b c d s) : SameExcept [.log, .isl, .mem, .poison, .xfers, .qs, .courier] s (nacked a b c d s) := by
  unfold nacked
  try dsimp only
  repeat' first
    | with_reducible exact SameExcept.refl _ _
    | ((with_reducible apply covers_intro); decide)
    | with_reducible apply SameExcept.step (putStored_reach _ _ _)
    | with_reducible apply SameExcept.step (sendSteps_reach _)
    | with_reducible apply SameExcept.step (logEvent_reach _ _ _ _)
    | with_reducible apply SameExcept.step (endPiece_reach _ _ _)
    | with_reducible apply SameExcept.step (logRefused_reach _ _ _ _)
    | with_reducible apply SameExcept.step (setXfer_reach _ _ _)
    | with_reducible apply SameExcept.step (updInv_reach _ _ _)
    | ((with_reducible apply FieldsSame.intro); intro q hq; cases q <;> first | exact absurd (by decide) hq | (dsimp only [Part.same, memByte]; done) | (dsimp only [Part.same, memByte]; exact ⟨rfl, fun _ => rfl⟩) | (dsimp only [Part.same]; exact ⟨rfl, rfl⟩))
    | split
    | dsimp only
    | with_reducible apply SameExcept.fields

theorem readData_reach (a b c s) : SameExcept [.isl, .mem, .poison, .xfers, .qs, .courier] s (readData a b c s) := by
  unfold readData
  try dsimp only
  repeat' first
    | with_reducible exact SameExcept.refl _ _
    | ((with_reducible apply covers_intro); decide)
    | with_reducible apply inFlow_reach
    | with_reducible apply SameExcept.step (ackMsg_reach _ _)
    | with_reducible apply SameExcept.step (putStored_reach _ _ _)
    | with_reducible apply SameExcept.step (landPiece_reach _ _ _ _)
    | ((with_reducible intro _ _); try dsimp only)
    | ((with_reducible intro _); try dsimp only)
    | split
    | dsimp only

theorem peerAtomic_reach (a b c d e f g j s) : SameExcept [.mode, .log, .plan, .power, .isl, .pm, .mem, .poison, .cache, .mc, .xfers, .net, .qs, .cores, .links, .grinders, .courier] s (peerAtomic a b c d e f g j s) := by
  unfold peerAtomic
  try dsimp only
  repeat' first
    | with_reducible exact SameExcept.refl _ _
    | ((with_reducible apply covers_intro); decide)
    | with_reducible apply SameExcept.step (answerMsg_reach _ _ _ _ _)
    | with_reducible apply inFlow_reach
    | with_reducible apply SameExcept.step (nackMsg_reach _ _ _)
    | with_reducible apply peerAccess_reach
    | with_reducible apply lookUp_reach
    | with_reducible apply SameExcept.step (hbmAtomic_reach _ _ _ _ _ _ _)
    | with_reducible apply SameExcept.step (captureWrite_reach _ _ _)
    | ((with_reducible apply FieldsSame.intro); intro q hq; cases q <;> first | exact absurd (by decide) hq | (dsimp only [Part.same, memByte]; done) | (dsimp only [Part.same, memByte]; exact ⟨rfl, fun _ => rfl⟩) | (dsimp only [Part.same]; exact ⟨rfl, rfl⟩))
    | ((with_reducible intro _ _); try dsimp only)
    | ((with_reducible intro _); try dsimp only)
    | split
    | dsimp only
    | with_reducible apply SameExcept.fields

theorem resend_reach (a s) : SameExcept [.courier] s (resend a s) := by
  unfold resend
  try dsimp only
  repeat' first
    | with_reducible exact SameExcept.refl _ _
    | ((with_reducible apply covers_intro); decide)
    | with_reducible apply SameExcept.step (emit_reach _ _ _)
    | with_reducible apply SameExcept.step (putStored_reach _ _ _)
    | split
    | dsimp only

theorem peerLost_reach (a s) : SameExcept [.log, .isl, .mem, .poison, .xfers, .courier] s (peerLost a s) := by
  unfold peerLost
  try dsimp only
  repeat' first
    | with_reducible exact SameExcept.refl _ _
    | ((with_reducible apply covers_intro); decide)
    | with_reducible apply SameExcept.step (logEvent_reach _ _ _ _)
    | with_reducible apply SameExcept.step (sendSteps_reach _)
    | with_reducible apply SameExcept.step (ackedBy_reach _ _ _)
    | with_reducible apply SameExcept.step (endPiece_reach _ _ _)
    | with_reducible apply SameExcept.forEach
    | ((with_reducible apply FieldsSame.intro); intro q hq; cases q <;> first | exact absurd (by decide) hq | (dsimp only [Part.same, memByte]; done) | (dsimp only [Part.same, memByte]; exact ⟨rfl, fun _ => rfl⟩) | (dsimp only [Part.same]; exact ⟨rfl, rfl⟩))
    | ((with_reducible intro _ _); try dsimp only)
    | ((with_reducible intro _); try dsimp only)
    | split
    | dsimp only
    | with_reducible apply SameExcept.fields

theorem noteOpen_reach (a s) : SameExcept [.log] s (noteOpen a s) := by
  unfold noteOpen
  try dsimp only
  repeat' first
    | with_reducible exact SameExcept.refl _ _
    | ((with_reducible apply covers_intro); decide)
    | with_reducible apply SameExcept.step (logEvent_reach _ _ _ _)
    | split
    | dsimp only

theorem markLink_reach (a b c s) : SameExcept [.log, .courier] s (markLink a b c s) := by
  unfold markLink
  try dsimp only
  repeat' first
    | with_reducible exact SameExcept.refl _ _
    | ((with_reducible apply covers_intro); decide)
    | with_reducible apply SameExcept.step (noteOpen_reach _ _)
    | ((with_reducible apply FieldsSame.intro); intro q hq; cases q <;> first | exact absurd (by decide) hq | (dsimp only [Part.same, memByte]; done) | (dsimp only [Part.same, memByte]; exact ⟨rfl, fun _ => rfl⟩) | (dsimp only [Part.same]; exact ⟨rfl, rfl⟩))
    | split
    | with_reducible apply SameExcept.fields

theorem noticeLink_reach (a b s) : SameExcept [.log, .courier] s (noticeLink a b s) := by
  unfold noticeLink
  try dsimp only
  repeat' first
    | with_reducible exact SameExcept.refl _ _
    | ((with_reducible apply covers_intro); decide)
    | with_reducible apply SameExcept.step (markLink_reach _ _ _ _)
    | with_reducible apply SameExcept.step (sendControl_reach _ _ _ _)
    | with_reducible apply SameExcept.forEach
    | ((with_reducible intro _ _); try dsimp only)
    | ((with_reducible intro _); try dsimp only)
    | split
    | dsimp only

theorem crDown_reach (a s) : SameExcept [.log, .courier] s (crDown a s) := by
  unfold crDown
  try dsimp only
  repeat' first
    | with_reducible exact SameExcept.refl _ _
    | ((with_reducible apply covers_intro); decide)
    | with_reducible apply SameExcept.step (noticeLink_reach _ _ _)
    | with_reducible apply SameExcept.step (logEvent_reach _ _ _ _)
    | with_reducible apply SameExcept.step (updCr_reach _ _ _)

theorem crRetrain_reach (a b s) : SameExcept [.log, .courier] s (crRetrain a b s) := by
  unfold crRetrain
  try dsimp only
  repeat' first
    | with_reducible exact SameExcept.refl _ _
    | ((with_reducible apply covers_intro); decide)
    | with_reducible apply SameExcept.step (logEvent_reach _ _ _ _)
    | with_reducible apply SameExcept.step (updCr_reach _ _ _)

theorem crRetrained_reach (a b s) : SameExcept [.log, .courier] s (crRetrained a b s) := by
  unfold crRetrained
  try dsimp only
  repeat' first
    | with_reducible exact SameExcept.refl _ _
    | ((with_reducible apply covers_intro); decide)
    | with_reducible apply SameExcept.step (crRetrain_reach _ _ _)
    | with_reducible apply SameExcept.step (crDown_reach _ _)
    | with_reducible apply SameExcept.step (logEvent_reach _ _ _ _)
    | with_reducible apply SameExcept.step (setCr_reach _ _ _)
    | split
    | dsimp only

theorem applyHold_reach (a s) : SameExcept [.courier] s (applyHold a s) := by
  unfold applyHold
  try dsimp only
  repeat' first
    | with_reducible exact SameExcept.refl _ _
    | ((with_reducible apply covers_intro); decide)
    | with_reducible apply SameExcept.step (sendControl_reach _ _ _ _)
    | with_reducible apply SameExcept.step (setSw_reach _ _ _)
    | with_reducible apply SameExcept.forEach
    | ((with_reducible intro _ _); try dsimp only)
    | ((with_reducible intro _); try dsimp only)
    | split

theorem releaseHold_reach (s) : SameExcept [.courier] s (releaseHold s) := by
  unfold releaseHold
  try dsimp only
  repeat' first
    | with_reducible exact SameExcept.refl _ _
    | ((with_reducible apply covers_intro); decide)
    | with_reducible apply SameExcept.step (setSw_reach _ _ _)
    | split

theorem holdDue_reach (s) : SameExcept [.courier] s (holdDue s) := by
  unfold holdDue
  try dsimp only
  repeat' first
    | with_reducible exact SameExcept.refl _ _
    | ((with_reducible apply covers_intro); decide)
    | with_reducible apply SameExcept.step (applyHold_reach _ _)
    | with_reducible apply SameExcept.step (releaseHold_reach _)
    | split

theorem settleSwitch_reach (a s) : SameExcept [.log, .courier] s (settleSwitch a s) := by
  unfold settleSwitch
  try dsimp only
  repeat' first
    | with_reducible exact SameExcept.refl _ _
    | ((with_reducible apply covers_intro); decide)
    | with_reducible apply SameExcept.step (setSw_reach _ _ _)
    | with_reducible apply SameExcept.step (setCr_reach _ _ _)
    | with_reducible apply SameExcept.step (crDown_reach _ _)
    | with_reducible apply SameExcept.step (updCr_reach _ _ _)
    | with_reducible apply SameExcept.forEach
    | ((with_reducible intro _ _); try dsimp only)
    | ((with_reducible intro _); try dsimp only)
    | split

theorem crLinkUp_reach (a b c d s) : SameExcept [.log, .courier] s (crLinkUp a b c d s) := by
  unfold crLinkUp
  try dsimp only
  repeat' first
    | with_reducible exact SameExcept.refl _ _
    | ((with_reducible apply covers_intro); decide)
    | with_reducible apply SameExcept.step (holdDue_reach _)
    | with_reducible apply SameExcept.step (noticeLink_reach _ _ _)
    | with_reducible apply SameExcept.step (setCr_reach _ _ _)
    | with_reducible apply SameExcept.step (logEvent_reach _ _ _ _)
    | split

theorem setCourierIslands_reach (a s) : SameExcept [.isl, .courier] s (setCourierIslands a s) := by
  unfold setCourierIslands
  try dsimp only
  repeat' first
    | with_reducible exact SameExcept.refl _ _
    | ((with_reducible apply covers_intro); decide)
    | with_reducible apply SameExcept.step (updIsl_reach _ _ _)
    | with_reducible apply SameExcept.step (updCr_reach _ _ _)
    | split

theorem control_reach {ps : List Part} {s0 s : State} {hd e f}
    (hf : ∀ t, SameExcept ps t (f t)) (hc : covers ps [.courier] = true) (h0 : SameExcept ps s0 s) : SameExcept ps s0 (control hd e f s) := by
  refine h0.trans ?_
  unfold control
  try dsimp only
  repeat' first
    | with_reducible exact SameExcept.refl _ _
    | ((with_reducible apply covers_intro); decide)
    | with_reducible apply (hf _).after
    | exact covers_trans hc (by decide)
    | exact hc
    | with_reducible refine FieldsSame.weaken (qs := [.courier]) ?_ hc
    | with_reducible apply inFlow_reach
    | with_reducible apply SameExcept.step (ackMsg_reach _ _)
    | with_reducible apply SameExcept.step (turnAway_reach _ _ _ _)
    | ((with_reducible apply FieldsSame.intro); intro q hq; cases q <;> first | exact absurd (by decide) hq | (dsimp only [Part.same, memByte]; done) | (dsimp only [Part.same, memByte]; exact ⟨rfl, fun _ => rfl⟩) | (dsimp only [Part.same]; exact ⟨rfl, rfl⟩))
    | ((with_reducible intro _ _); try dsimp only)
    | ((with_reducible intro _); try dsimp only)
    | split
    | with_reducible apply SameExcept.fields

theorem sendJoin_reach (s) : SameExcept [.freeCtr, .courier] s (sendJoin s) := by
  unfold sendJoin
  try dsimp only
  repeat' first
    | with_reducible exact SameExcept.refl _ _
    | ((with_reducible apply covers_intro); decide)
    | with_reducible apply SameExcept.step (sendControl_reach _ _ _ _)
    | ((with_reducible apply FieldsSame.intro); intro q hq; cases q <;> first | exact absurd (by decide) hq | (dsimp only [Part.same, memByte]; done) | (dsimp only [Part.same, memByte]; exact ⟨rfl, fun _ => rfl⟩) | (dsimp only [Part.same]; exact ⟨rfl, rfl⟩))
    | with_reducible apply SameExcept.fields

theorem takeManagerPos_reach (s) : SameExcept [.courier] s (takeManagerPos s) := by
  unfold takeManagerPos
  try dsimp only
  repeat' first
    | with_reducible exact SameExcept.refl _ _
    | ((with_reducible apply covers_intro); decide)
    | ((with_reducible apply FieldsSame.intro); intro q hq; cases q <;> first | exact absurd (by decide) hq | (dsimp only [Part.same, memByte]; done) | (dsimp only [Part.same, memByte]; exact ⟨rfl, fun _ => rfl⟩) | (dsimp only [Part.same]; exact ⟨rfl, rfl⟩))
    | split
    | with_reducible apply SameExcept.fields

theorem joinRing_reach (s) : SameExcept [.freeCtr, .courier] s (joinRing s) := by
  unfold joinRing
  try dsimp only
  repeat' first
    | with_reducible exact SameExcept.refl _ _
    | ((with_reducible apply covers_intro); decide)
    | with_reducible apply SameExcept.step (holdDue_reach _)
    | with_reducible apply SameExcept.step (takeManagerPos_reach _)
    | with_reducible apply SameExcept.step (sendJoin_reach _)
    | split

theorem recordPlace_reach (a b s) : SameExcept [.log, .plan, .pm, .mem, .poison, .cache, .mc, .courier] s (recordPlace a b s) := by
  unfold recordPlace
  try dsimp only
  repeat' first
    | with_reducible exact SameExcept.refl _ _
    | ((with_reducible apply covers_intro); decide)
    | with_reducible apply SameExcept.step (tableWrite_reach _ _ _)
    | split

theorem readPlaces_reach (s) : SameExcept [.courier] s (readPlaces s) := by
  unfold readPlaces
  try dsimp only
  repeat' first
    | with_reducible exact SameExcept.refl _ _
    | ((with_reducible apply covers_intro); decide)
    | ((with_reducible apply FieldsSame.intro); intro q hq; cases q <;> first | exact absurd (by decide) hq | (dsimp only [Part.same, memByte]; done) | (dsimp only [Part.same, memByte]; exact ⟨rfl, fun _ => rfl⟩) | (dsimp only [Part.same]; exact ⟨rfl, rfl⟩))
    | split
    | with_reducible apply SameExcept.fields

theorem becomeManager_reach (s) : SameExcept [.courier] s (becomeManager s) := by
  unfold becomeManager
  try dsimp only
  repeat' first
    | with_reducible exact SameExcept.refl _ _
    | ((with_reducible apply covers_intro); decide)
    | with_reducible apply SameExcept.step (readPlaces_reach _)
    | with_reducible apply SameExcept.step (takeManagerPos_reach _)
    | with_reducible apply SameExcept.step (sendControl_reach _ _ _ _)
    | with_reducible apply SameExcept.forEach
    | ((with_reducible apply FieldsSame.intro); intro q hq; cases q <;> first | exact absurd (by decide) hq | (dsimp only [Part.same, memByte]; done) | (dsimp only [Part.same, memByte]; exact ⟨rfl, fun _ => rfl⟩) | (dsimp only [Part.same]; exact ⟨rfl, rfl⟩))
    | ((with_reducible intro _ _); try dsimp only)
    | ((with_reducible intro _); try dsimp only)
    | with_reducible apply SameExcept.fields

theorem joined'_reach (a s) : SameExcept [.log, .plan, .pm, .mem, .poison, .cache, .mc, .courier] s (joined' a s) := by
  unfold joined'
  try dsimp only
  repeat' first
    | with_reducible exact SameExcept.refl _ _
    | ((with_reducible apply covers_intro); decide)
    | with_reducible apply SameExcept.step (sendControl_reach _ _ _ _)
    | with_reducible apply SameExcept.step (recordPlace_reach _ _ _)
    | with_reducible apply SameExcept.forEach
    | ((with_reducible apply FieldsSame.intro); intro q hq; cases q <;> first | exact absurd (by decide) hq | (dsimp only [Part.same, memByte]; done) | (dsimp only [Part.same, memByte]; exact ⟨rfl, fun _ => rfl⟩) | (dsimp only [Part.same]; exact ⟨rfl, rfl⟩))
    | ((with_reducible intro _ _); try dsimp only)
    | ((with_reducible intro _); try dsimp only)
    | split
    | dsimp only
    | with_reducible apply SameExcept.fields

theorem linkNotice_reach (a b c s) : SameExcept [.log, .courier] s (linkNotice a b c s) := by
  unfold linkNotice
  try dsimp only
  repeat' first
    | with_reducible exact SameExcept.refl _ _
    | ((with_reducible apply covers_intro); decide)
    | with_reducible apply SameExcept.step (noteOpen_reach _ _)
    | with_reducible apply SameExcept.step (markLink_reach _ _ _ _)
    | with_reducible apply SameExcept.foldl
    | with_reducible apply SameExcept.foldlFst
    | ((with_reducible apply FieldsSame.intro); intro q hq; cases q <;> first | exact absurd (by decide) hq | (dsimp only [Part.same, memByte]; done) | (dsimp only [Part.same, memByte]; exact ⟨rfl, fun _ => rfl⟩) | (dsimp only [Part.same]; exact ⟨rfl, rfl⟩))
    | ((with_reducible intro _ _); try dsimp only)
    | ((with_reducible intro _); try dsimp only)
    | split
    | dsimp only
    | with_reducible apply SameExcept.fields

theorem passToken_reach (a b c s) : SameExcept [.courier] s (passToken a b c s) := by
  unfold passToken
  try dsimp only
  repeat' first
    | with_reducible exact SameExcept.refl _ _
    | ((with_reducible apply covers_intro); decide)
    | with_reducible apply SameExcept.step (emitOn_reach _ _ _)
    | split

theorem heartbeat_reach (a b s) : SameExcept [.courier] s (heartbeat a b s) := by
  unfold heartbeat
  try dsimp only
  repeat' first
    | with_reducible exact SameExcept.refl _ _
    | ((with_reducible apply covers_intro); decide)
    | with_reducible apply SameExcept.step (passToken_reach _ _ _ _)
    | ((with_reducible apply FieldsSame.intro); intro q hq; cases q <;> first | exact absurd (by decide) hq | (dsimp only [Part.same, memByte]; done) | (dsimp only [Part.same, memByte]; exact ⟨rfl, fun _ => rfl⟩) | (dsimp only [Part.same]; exact ⟨rfl, rfl⟩))
    | split
    | with_reducible apply SameExcept.fields

theorem sendToken_reach (a b s) : SameExcept [.courier] s (sendToken a b s) := by
  unfold sendToken
  try dsimp only
  repeat' first
    | with_reducible exact SameExcept.refl _ _
    | ((with_reducible apply covers_intro); decide)
    | with_reducible apply SameExcept.step (emitOn_reach _ _ _)
    | split

theorem sendTimeUp_reach (a s) : SameExcept [.courier] s (sendTimeUp a s) := by
  unfold sendTimeUp
  try dsimp only
  repeat' first
    | with_reducible exact SameExcept.refl _ _
    | ((with_reducible apply covers_intro); decide)
    | with_reducible apply SameExcept.step (emitOn_reach _ _ _)
    | split

theorem sendBeat_reach (s) : SameExcept [.courier] s (sendBeat s) := by
  unfold sendBeat
  try dsimp only
  repeat' first
    | with_reducible exact SameExcept.refl _ _
    | ((with_reducible apply covers_intro); decide)
    | with_reducible apply SameExcept.step (sendTimeUp_reach _ _)
    | with_reducible apply SameExcept.step (sendToken_reach _ _ _)
    | ((with_reducible apply FieldsSame.intro); intro q hq; cases q <;> first | exact absurd (by decide) hq | (dsimp only [Part.same, memByte]; done) | (dsimp only [Part.same, memByte]; exact ⟨rfl, fun _ => rfl⟩) | (dsimp only [Part.same]; exact ⟨rfl, rfl⟩))
    | split
    | with_reducible apply SameExcept.fields

theorem steerTime_reach (a b c s) : SameExcept [.devTime, .log, .courier] s (steerTime a b c s) := by
  unfold steerTime
  try dsimp only
  repeat' first
    | with_reducible exact SameExcept.refl _ _
    | ((with_reducible apply covers_intro); decide)
    | with_reducible apply SameExcept.step (logEvent_reach _ _ _ _)
    | with_reducible apply SameExcept.step (sendTimeUp_reach _ _)
    | with_reducible apply SameExcept.step (passToken_reach _ _ _ _)
    | ((with_reducible apply FieldsSame.intro); intro q hq; cases q <;> first | exact absurd (by decide) hq | (dsimp only [Part.same, memByte]; done) | (dsimp only [Part.same, memByte]; exact ⟨rfl, fun _ => rfl⟩) | (dsimp only [Part.same]; exact ⟨rfl, rfl⟩))
    | split
    | with_reducible apply SameExcept.fields

theorem assign_reach (a b c d s) : SameExcept [.courier] s (assign a b c d s) := by
  unfold assign
  try dsimp only
  repeat' first
    | with_reducible exact SameExcept.refl _ _
    | ((with_reducible apply covers_intro); decide)
    | with_reducible apply SameExcept.step (nackMsg_reach _ _ _)
    | with_reducible apply SameExcept.step (ackMsg_reach _ _)
    | with_reducible apply SameExcept.step (holdDue_reach _)
    | ((with_reducible apply FieldsSame.intro); intro q hq; cases q <;> first | exact absurd (by decide) hq | (dsimp only [Part.same, memByte]; done) | (dsimp only [Part.same, memByte]; exact ⟨rfl, fun _ => rfl⟩) | (dsimp only [Part.same]; exact ⟨rfl, rfl⟩))
    | split
    | with_reducible apply SameExcept.fields

theorem announce_reach (a s) : SameExcept [.freeCtr, .courier] s (announce a s) := by
  unfold announce
  try dsimp only
  repeat' first
    | with_reducible exact SameExcept.refl _ _
    | ((with_reducible apply covers_intro); decide)
    | with_reducible apply SameExcept.step (sendPoint_reach _ _ _ _ _ _ _)
    | with_reducible apply SameExcept.step (sendJoin_reach _)
    | with_reducible apply SameExcept.forEach
    | ((with_reducible apply FieldsSame.intro); intro q hq; cases q <;> first | exact absurd (by decide) hq | (dsimp only [Part.same, memByte]; done) | (dsimp only [Part.same, memByte]; exact ⟨rfl, fun _ => rfl⟩) | (dsimp only [Part.same]; exact ⟨rfl, rfl⟩))
    | ((with_reducible intro _ _); try dsimp only)
    | ((with_reducible intro _); try dsimp only)
    | with_reducible apply SameExcept.fields

theorem managerGone_reach (s) : SameExcept [.log, .courier] s (managerGone s) := by
  unfold managerGone
  try dsimp only
  repeat' first
    | with_reducible exact SameExcept.refl _ _
    | ((with_reducible apply covers_intro); decide)
    | with_reducible apply SameExcept.step (logEvent_reach _ _ _ _)
    | ((with_reducible apply FieldsSame.intro); intro q hq; cases q <;> first | exact absurd (by decide) hq | (dsimp only [Part.same, memByte]; done) | (dsimp only [Part.same, memByte]; exact ⟨rfl, fun _ => rfl⟩) | (dsimp only [Part.same]; exact ⟨rfl, rfl⟩))
    | split
    | with_reducible apply SameExcept.fields

theorem drainRing_reach (a b s) : SameExcept [.courier] s (drainRing a b s) := by
  unfold drainRing
  try dsimp only
  repeat' first
    | with_reducible exact SameExcept.refl _ _
    | ((with_reducible apply covers_intro); decide)
    | with_reducible apply SameExcept.step (updCr_reach _ _ _)

theorem sendStepReceipt_reach (a b c s) : SameExcept [.courier] s (sendStepReceipt a b c s) := by
  unfold sendStepReceipt
  try dsimp only
  repeat' first
    | with_reducible exact SameExcept.refl _ _
    | ((with_reducible apply covers_intro); decide)
    | with_reducible apply SameExcept.step (sendPoint_reach _ _ _ _ _ _ _)
    | split
    | dsimp only

theorem acceptStep_reach (a b c d s) : SameExcept [.qs, .courier] s (acceptStep a b c d s) := by
  unfold acceptStep
  try dsimp only
  repeat' first
    | with_reducible exact SameExcept.refl _ _
    | ((with_reducible apply covers_intro); decide)
    | with_reducible apply SameExcept.step (setQ_reach _ _ _)
    | ((with_reducible apply FieldsSame.intro); intro q hq; cases q <;> first | exact absurd (by decide) hq | (dsimp only [Part.same, memByte]; done) | (dsimp only [Part.same, memByte]; exact ⟨rfl, fun _ => rfl⟩) | (dsimp only [Part.same]; exact ⟨rfl, rfl⟩))
    | with_reducible apply SameExcept.fields

theorem stepMsg_reach (a b c d e f s) : SameExcept [.qs, .courier] s (stepMsg a b c d e f s) := by
  unfold stepMsg
  try dsimp only
  repeat' first
    | with_reducible exact SameExcept.refl _ _
    | ((with_reducible apply covers_intro); decide)
    | with_reducible apply inFlow_reach
    | with_reducible apply SameExcept.step (ackMsg_reach _ _)
    | with_reducible apply SameExcept.step (turnAway_reach _ _ _ _)
    | with_reducible apply SameExcept.step (sendStepReceipt_reach _ _ _ _)
    | with_reducible apply SameExcept.step (acceptStep_reach _ _ _ _ _)
    | ((with_reducible apply FieldsSame.intro); intro q hq; cases q <;> first | exact absurd (by decide) hq | (dsimp only [Part.same, memByte]; done) | (dsimp only [Part.same, memByte]; exact ⟨rfl, fun _ => rfl⟩) | (dsimp only [Part.same]; exact ⟨rfl, rfl⟩))
    | ((with_reducible intro _ _); try dsimp only)
    | ((with_reducible intro _); try dsimp only)
    | split
    | dsimp only
    | with_reducible apply SameExcept.fields

theorem routed_reach (a b c d s) : SameExcept [.courier] s (routed a b c d s) := by
  unfold routed
  try dsimp only
  repeat' first
    | with_reducible exact SameExcept.refl _ _
    | ((with_reducible apply covers_intro); decide)
    | with_reducible apply inFlow_reach
    | with_reducible apply SameExcept.step (ackMsg_reach _ _)
    | with_reducible apply SameExcept.step (sendPoint_reach _ _ _ _ _ _ _)
    | with_reducible apply SameExcept.step (sendMsg_reach _ _ _ _ _ _)
    | ((with_reducible apply FieldsSame.intro); intro q hq; cases q <;> first | exact absurd (by decide) hq | (dsimp only [Part.same, memByte]; done) | (dsimp only [Part.same, memByte]; exact ⟨rfl, fun _ => rfl⟩) | (dsimp only [Part.same]; exact ⟨rfl, rfl⟩))
    | ((with_reducible intro _ _); try dsimp only)
    | ((with_reducible intro _); try dsimp only)
    | split
    | with_reducible apply SameExcept.fields

theorem mirrorSend_reach (s) : SameExcept [.log, .courier] s (mirrorSend s) := by
  unfold mirrorSend
  try dsimp only
  repeat' first
    | with_reducible exact SameExcept.refl _ _
    | ((with_reducible apply covers_intro); decide)
    | with_reducible apply SameExcept.step (logEvent_reach _ _ _ _)
    | with_reducible apply SameExcept.step (sendPoint_reach _ _ _ _ _ _ _)
    | ((with_reducible apply FieldsSame.intro); intro q hq; cases q <;> first | exact absurd (by decide) hq | (dsimp only [Part.same, memByte]; done) | (dsimp only [Part.same, memByte]; exact ⟨rfl, fun _ => rfl⟩) | (dsimp only [Part.same]; exact ⟨rfl, rfl⟩))
    | split
    | dsimp only
    | with_reducible apply SameExcept.fields

/-! ### The canonical form -/

theorem answerAgain_stored {s : State} {k hd g}
    (hg : ∀ t, t.stored = true → (g t).stored = true) (h : s.stored = true) : (answerAgain k hd g s).stored = true := by
  unfold answerAgain
  try dsimp only
  repeat' first
    | with_reducible assumption
    | with_reducible apply hg
    | with_reducible apply SameExcept.stored (nackMsg_reach _ _ _) rfl
    | ((with_reducible intro _ _ _ _); try dsimp only)
    | ((with_reducible intro _ _ _); try dsimp only)
    | ((with_reducible intro _ _); try dsimp only)
    | split
    | dsimp only

theorem inFlow_stored {s : State} {hd k a f}
    (ha : ∀ t, t.stored = true → (a t).stored = true) (hf : ∀ t, t.stored = true → (f t).stored = true) (h : s.stored = true) : (inFlow hd k a f s).stored = true := by
  unfold inFlow
  try dsimp only
  repeat' first
    | with_reducible assumption
    | with_reducible apply hf
    | with_reducible apply answerAgain_stored
    | with_reducible assumption
    | with_reducible apply ha
    | with_reducible apply answerAgain_stored
    | ((with_reducible intro _ _ _ _); try dsimp only)
    | ((with_reducible intro _ _ _); try dsimp only)
    | ((with_reducible intro _ _); try dsimp only)
    | split
    | with_reducible apply fields_stored

theorem peerAccess_stored {s : State} {hd a n r f}
    (hf : ∀ t, t.stored = true → (f t).stored = true) (h : s.stored = true) : (peerAccess hd a n r f s).stored = true := by
  unfold peerAccess
  try dsimp only
  repeat' first
    | with_reducible assumption
    | with_reducible apply hf
    | with_reducible apply SameExcept.stored (logRefused_reach _ _ _ _) rfl
    | with_reducible apply SameExcept.stored (turnAway_reach _ _ _ _) rfl
    | ((with_reducible intro _ _ _ _); try dsimp only)
    | ((with_reducible intro _ _ _); try dsimp only)
    | ((with_reducible intro _ _); try dsimp only)
    | split

theorem lookUp_stored {s : State} {hd a n t0 f}
    (hf : ∀ t, t.stored = true → (f t).stored = true) (h : s.stored = true) : (lookUp hd a n t0 f s).stored = true := by
  unfold lookUp
  try dsimp only
  repeat' first
    | with_reducible assumption
    | with_reducible apply hf
    | with_reducible apply tagCheck_stored
    | with_reducible apply SameExcept.stored (hbmTurn_reach _ _ _ _) rfl
    | ((with_reducible intro _ _ _ _); try dsimp only)
    | ((with_reducible intro _ _ _); try dsimp only)
    | ((with_reducible intro _ _); try dsimp only)
    | split
    | dsimp only

theorem gather_stored {s : State} (a b c d e) (h : s.stored = true) : (gather a b c d e s).stored = true := by
  unfold gather
  try dsimp only
  repeat' first
    | with_reducible assumption
    | with_reducible apply inFlow_stored
    | with_reducible apply SameExcept.stored (nackMsg_reach _ _ _) rfl
    | with_reducible apply SameExcept.stored (turnAway_reach _ _ _ _) rfl
    | with_reducible apply SameExcept.stored (passOn_reach _ _ _ _ _ _) rfl
    | with_reducible apply SameExcept.stored (ackMsg_reach _ _) rfl
    | with_reducible apply hbmWrite_stored
    | with_reducible apply SameExcept.stored (hbmTurn_reach _ _ _ _) rfl
    | with_reducible apply SameExcept.stored (semPost_reach _ _ _) rfl
    | ((with_reducible intro _ _ _ _); try dsimp only)
    | ((with_reducible intro _ _ _); try dsimp only)
    | ((with_reducible intro _ _); try dsimp only)
    | split
    | dsimp only

theorem tableWrite_stored {s : State} (a b) (h : s.stored = true) : (tableWrite a b s).stored = true := by
  unfold tableWrite
  try dsimp only
  repeat' first
    | with_reducible assumption
    | with_reducible apply SameExcept.stored (captureWrite_reach _ _ _) rfl
    | with_reducible apply hbmWrite_stored

theorem acked_stored {s : State} (a b c d) (h : s.stored = true) : (acked a b c d s).stored = true := by
  unfold acked
  try dsimp only
  repeat' first
    | with_reducible assumption
    | with_reducible apply SameExcept.stored (ackedBy_reach _ _ _) rfl
    | with_reducible apply landPiece_stored
    | with_reducible apply SameExcept.stored (answer_reach _ _) rfl
    | with_reducible apply SameExcept.stored (updQ_reach _ _ _) rfl
    | with_reducible apply SameExcept.stored (sendSteps_reach _) rfl
    | split
    | dsimp only

theorem nacked_stored {s : State} (a b c d) (h : s.stored = true) : (nacked a b c d s).stored = true := by
  unfold nacked
  try dsimp only
  repeat' first
    | with_reducible assumption
    | with_reducible apply SameExcept.stored (putStored_reach _ _ _) rfl
    | with_reducible apply SameExcept.stored (sendSteps_reach _) rfl
    | with_reducible apply SameExcept.stored (logEvent_reach _ _ _ _) rfl
    | with_reducible apply endPiece_stored
    | with_reducible apply SameExcept.stored (logRefused_reach _ _ _ _) rfl
    | with_reducible apply SameExcept.stored (setXfer_reach _ _ _) rfl
    | with_reducible apply SameExcept.stored (updInv_reach _ _ _) rfl
    | split
    | dsimp only
    | with_reducible apply fields_stored

theorem readData_stored {s : State} (a b c) (h : s.stored = true) : (readData a b c s).stored = true := by
  unfold readData
  try dsimp only
  repeat' first
    | with_reducible assumption
    | with_reducible apply inFlow_stored
    | with_reducible apply SameExcept.stored (ackMsg_reach _ _) rfl
    | with_reducible apply SameExcept.stored (putStored_reach _ _ _) rfl
    | with_reducible apply landPiece_stored
    | ((with_reducible intro _ _ _ _); try dsimp only)
    | ((with_reducible intro _ _ _); try dsimp only)
    | ((with_reducible intro _ _); try dsimp only)
    | split
    | dsimp only

theorem peerAtomic_stored {s : State} (a b c d e f g j) (h : s.stored = true) : (peerAtomic a b c d e f g j s).stored = true := by
  unfold peerAtomic
  try dsimp only
  repeat' first
    | with_reducible assumption
    | with_reducible apply SameExcept.stored (answerMsg_reach _ _ _ _ _) rfl
    | with_reducible apply inFlow_stored
    | with_reducible apply SameExcept.stored (nackMsg_reach _ _ _) rfl
    | with_reducible apply peerAccess_stored
    | with_reducible apply lookUp_stored
    | with_reducible apply hbmAtomic_stored
    | with_reducible apply SameExcept.stored (captureWrite_reach _ _ _) rfl
    | ((with_reducible intro _ _ _ _); try dsimp only)
    | ((with_reducible intro _ _ _); try dsimp only)
    | ((with_reducible intro _ _); try dsimp only)
    | split
    | dsimp only
    | with_reducible apply fields_stored

theorem peerLost_stored {s : State} (a) (h : s.stored = true) : (peerLost a s).stored = true := by
  unfold peerLost
  try dsimp only
  repeat' first
    | with_reducible assumption
    | with_reducible apply SameExcept.stored (logEvent_reach _ _ _ _) rfl
    | with_reducible apply SameExcept.stored (sendSteps_reach _) rfl
    | with_reducible apply SameExcept.stored (ackedBy_reach _ _ _) rfl
    | with_reducible apply endPiece_stored
    | with_reducible apply forEach_stored
    | ((with_reducible intro _ _ _ _); try dsimp only)
    | ((with_reducible intro _ _ _); try dsimp only)
    | ((with_reducible intro _ _); try dsimp only)
    | split
    | dsimp only
    | with_reducible apply fields_stored

theorem control_stored {s : State} {hd e f}
    (hf : ∀ t, t.stored = true → (f t).stored = true) (h : s.stored = true) : (control hd e f s).stored = true := by
  unfold control
  try dsimp only
  repeat' first
    | with_reducible assumption
    | with_reducible apply hf
    | with_reducible apply inFlow_stored
    | with_reducible apply SameExcept.stored (ackMsg_reach _ _) rfl
    | with_reducible apply SameExcept.stored (turnAway_reach _ _ _ _) rfl
    | ((with_reducible intro _ _ _ _); try dsimp only)
    | ((with_reducible intro _ _ _); try dsimp only)
    | ((with_reducible intro _ _); try dsimp only)
    | split
    | with_reducible apply fields_stored

theorem recordPlace_stored {s : State} (a b) (h : s.stored = true) : (recordPlace a b s).stored = true := by
  unfold recordPlace
  try dsimp only
  repeat' first
    | with_reducible assumption
    | with_reducible apply tableWrite_stored
    | split

theorem joined'_stored {s : State} (a) (h : s.stored = true) : (joined' a s).stored = true := by
  unfold joined'
  try dsimp only
  repeat' first
    | with_reducible assumption
    | with_reducible apply SameExcept.stored (sendControl_reach _ _ _ _) rfl
    | with_reducible apply recordPlace_stored
    | with_reducible apply forEach_stored
    | ((with_reducible intro _ _ _ _); try dsimp only)
    | ((with_reducible intro _ _ _); try dsimp only)
    | ((with_reducible intro _ _); try dsimp only)
    | split
    | dsimp only
    | with_reducible apply fields_stored

end Sys2Proof.Machine
end

