-- ==== Sys2Proof/Laws/Manager.lean ====
section
/-! SUPPORT. What each operation of Machine/Manager.lean reaches: every other part of the state is as it was (`_reach`), and memory and the
marks keep their canonical form (`_stored`). -/

namespace Sys2Proof.Machine

set_option linter.unusedTactic false
set_option linter.unreachableTactic false
set_option linter.unnecessarySeqFocus false

theorem putSession_reach (a b s) : SameExcept [.log, .plan, .pm, .mem, .poison, .cache, .mc, .courier] s (putSession a b s) := by
  unfold putSession
  try dsimp only
  repeat' first
    | with_reducible exact SameExcept.refl _ _
    | ((with_reducible apply covers_intro); decide)
    | with_reducible apply SameExcept.step (tableWrite_reach _ _ _)

theorem putNode_reach (a b s) : SameExcept [.log, .plan, .pm, .mem, .poison, .cache, .mc, .courier] s (putNode a b s) := by
  unfold putNode
  try dsimp only
  repeat' first
    | with_reducible exact SameExcept.refl _ _
    | ((with_reducible apply covers_intro); decide)
    | with_reducible apply SameExcept.step (tableWrite_reach _ _ _)

theorem updNode_reach (a b s) : SameExcept [.log, .plan, .pm, .mem, .poison, .cache, .mc, .courier] s (updNode a b s) := by
  unfold updNode
  try dsimp only
  repeat' first
    | with_reducible exact SameExcept.refl _ _
    | ((with_reducible apply covers_intro); decide)
    | with_reducible apply SameExcept.step (putNode_reach _ _ _)

theorem evictNode_reach (a s) : SameExcept [.log, .plan, .pm, .mem, .poison, .cache, .mc, .courier] s (evictNode a s) := by
  unfold evictNode
  try dsimp only
  repeat' first
    | with_reducible exact SameExcept.refl _ _
    | ((with_reducible apply covers_intro); decide)
    | with_reducible apply SameExcept.step (putNode_reach _ _ _)
    | with_reducible apply SameExcept.step (updNode_reach _ _ _)
    | split

theorem makeNodeRoom_reach (a s) : SameExcept [.log, .plan, .pm, .mem, .poison, .cache, .mc, .courier] s (makeNodeRoom a s) := by
  unfold makeNodeRoom
  try dsimp only
  repeat' first
    | with_reducible exact SameExcept.refl _ _
    | ((with_reducible apply covers_intro); decide)
    | with_reducible apply SameExcept.step (evictNode_reach _ _)
    | split
    | dsimp only

theorem insertNodes_reach (a b c d e s) : SameExcept [.log, .plan, .pm, .mem, .poison, .cache, .mc, .courier] s (insertNodes a b c d e s).2 := by
  induction c generalizing d e s with
  | nil => exact SameExcept.refl _ _
  | cons e t ih =>
    unfold insertNodes
    try dsimp only
    repeat' first
      | with_reducible exact SameExcept.refl _ _
      | ((with_reducible apply covers_intro); decide)
      | with_reducible apply SameExcept.step (ih _ _ _)
      | with_reducible apply SameExcept.step (makeNodeRoom_reach _ _)
      | with_reducible apply SameExcept.step (putNode_reach _ _ _)
      | with_reducible apply SameExcept.step (updNode_reach _ _ _)
      | split
      | dsimp only

theorem releaseChain_reach (a s) : SameExcept [.log, .plan, .pm, .mem, .poison, .cache, .mc, .courier] s (releaseChain a s) := by
  unfold releaseChain
  try dsimp only
  repeat' first
    | with_reducible exact SameExcept.refl _ _
    | ((with_reducible apply covers_intro); decide)
    | with_reducible apply SameExcept.step (updNode_reach _ _ _)
    | with_reducible apply SameExcept.forEach
    | ((with_reducible intro _ _); try dsimp only)
    | ((with_reducible intro _); try dsimp only)

theorem repairChain_reach (a s) : SameExcept [.log, .plan, .pm, .mem, .poison, .cache, .mc, .courier] s (repairChain a s) := by
  unfold repairChain
  try dsimp only
  repeat' first
    | with_reducible exact SameExcept.refl _ _
    | ((with_reducible apply covers_intro); decide)
    | with_reducible apply SameExcept.step (updNode_reach _ _ _)
    | with_reducible apply SameExcept.step (insertNodes_reach _ _ _ _ _ _)
    | with_reducible apply SameExcept.step (putSession_reach _ _ _)
    | with_reducible apply SameExcept.forEach
    | ((with_reducible intro _ _); try dsimp only)
    | ((with_reducible intro _); try dsimp only)
    | split
    | dsimp only

theorem setBad_reach (a s) : SameExcept [.log, .plan, .pm, .mem, .poison, .cache, .mc, .courier] s (setBad a s) := by
  unfold setBad
  try dsimp only
  repeat' first
    | with_reducible exact SameExcept.refl _ _
    | ((with_reducible apply covers_intro); decide)
    | with_reducible apply SameExcept.step (updNode_reach _ _ _)
    | with_reducible apply SameExcept.step (repairChain_reach _ _)
    | with_reducible apply SameExcept.forEach
    | ((with_reducible intro _ _); try dsimp only)
    | ((with_reducible intro _); try dsimp only)

theorem admitSession_reach (a s) : SameExcept [.log, .plan, .pm, .mem, .poison, .cache, .mc, .courier] s (admitSession a s) := by
  unfold admitSession
  try dsimp only
  repeat' first
    | with_reducible exact SameExcept.refl _ _
    | ((with_reducible apply covers_intro); decide)
    | with_reducible apply SameExcept.step (updNode_reach _ _ _)
    | with_reducible apply SameExcept.step (insertNodes_reach _ _ _ _ _ _)
    | with_reducible apply SameExcept.step (putSession_reach _ _ _)
    | with_reducible apply SameExcept.forEach
    | ((with_reducible intro _ _); try dsimp only)
    | ((with_reducible intro _); try dsimp only)
    | split
    | dsimp only

theorem buildStep_reach (a b c d e f s) : SameExcept [.log, .plan, .pm, .mem, .poison, .cache, .mc, .courier] s (buildStep a b c d e f s) := by
  unfold buildStep
  try dsimp only
  repeat' first
    | with_reducible exact SameExcept.refl _ _
    | ((with_reducible apply covers_intro); decide)
    | with_reducible apply SameExcept.step (putSession_reach _ _ _)
    | with_reducible apply SameExcept.step (sendSteps_reach _)
    | with_reducible apply SameExcept.forEach
    | ((with_reducible apply FieldsSame.intro); intro q hq; cases q <;> first | exact absurd (by decide) hq | (dsimp only [Part.same, memByte]; done) | (dsimp only [Part.same, memByte]; exact ⟨rfl, fun _ => rfl⟩) | (dsimp only [Part.same]; exact ⟨rfl, rfl⟩))
    | ((with_reducible intro _ _); try dsimp only)
    | ((with_reducible intro _); try dsimp only)
    | split
    | dsimp only
    | with_reducible apply SameExcept.fields

theorem sessionReturns_reach (a b c s) : SameExcept [.log, .plan, .pm, .mem, .poison, .cache, .mc, .courier] s (sessionReturns a b c s) := by
  unfold sessionReturns
  try dsimp only
  repeat' first
    | with_reducible exact SameExcept.refl _ _
    | ((with_reducible apply covers_intro); decide)
    | with_reducible apply SameExcept.step (setBad_reach _ _)
    | with_reducible apply SameExcept.step (updNode_reach _ _ _)
    | with_reducible apply SameExcept.step (putSession_reach _ _ _)
    | with_reducible apply SameExcept.step (releaseChain_reach _ _)
    | with_reducible apply SameExcept.forEach
    | ((with_reducible intro _ _); try dsimp only)
    | ((with_reducible intro _); try dsimp only)
    | split
    | dsimp only

theorem stepReturned_reach (a b c d e s) : SameExcept [.log, .plan, .pm, .mem, .poison, .cache, .mc, .courier] s (stepReturned a b c d e s) := by
  unfold stepReturned
  try dsimp only
  repeat' first
    | with_reducible exact SameExcept.refl _ _
    | ((with_reducible apply covers_intro); decide)
    | with_reducible apply inFlow_reach
    | with_reducible apply SameExcept.step (ackMsg_reach _ _)
    | with_reducible apply SameExcept.step (sessionReturns_reach _ _ _ _)
    | with_reducible apply SameExcept.forEach
    | ((with_reducible apply FieldsSame.intro); intro q hq; cases q <;> first | exact absurd (by decide) hq | (dsimp only [Part.same, memByte]; done) | (dsimp only [Part.same, memByte]; exact ⟨rfl, fun _ => rfl⟩) | (dsimp only [Part.same]; exact ⟨rfl, rfl⟩))
    | ((with_reducible intro _ _); try dsimp only)
    | ((with_reducible intro _); try dsimp only)
    | split
    | with_reducible apply SameExcept.fields

/-! ### The canonical form -/

theorem putSession_stored {s : State} (a b) (h : s.stored = true) : (putSession a b s).stored = true := by
  unfold putSession
  try dsimp only
  repeat' first
    | with_reducible assumption
    | with_reducible apply tableWrite_stored

theorem putNode_stored {s : State} (a b) (h : s.stored = true) : (putNode a b s).stored = true := by
  unfold putNode
  try dsimp only
  repeat' first
    | with_reducible assumption
    | with_reducible apply tableWrite_stored

theorem updNode_stored {s : State} (a b) (h : s.stored = true) : (updNode a b s).stored = true := by
  unfold updNode
  try dsimp only
  repeat' first
    | with_reducible assumption
    | with_reducible apply putNode_stored

theorem evictNode_stored {s : State} (a) (h : s.stored = true) : (evictNode a s).stored = true := by
  unfold evictNode
  try dsimp only
  repeat' first
    | with_reducible assumption
    | with_reducible apply putNode_stored
    | with_reducible apply updNode_stored
    | split

theorem makeNodeRoom_stored {s : State} (a) (h : s.stored = true) : (makeNodeRoom a s).stored = true := by
  unfold makeNodeRoom
  try dsimp only
  repeat' first
    | with_reducible assumption
    | with_reducible apply evictNode_stored
    | split
    | dsimp only

theorem insertNodes_stored {s : State} (a b c d e) (h : s.stored = true) : (insertNodes a b c d e s).2.stored = true := by
  induction c generalizing d e s with
  | nil => exact h
  | cons e t ih =>
    unfold insertNodes
    try dsimp only
    repeat' first
      | with_reducible assumption
      | with_reducible apply ih
      | with_reducible apply makeNodeRoom_stored
      | with_reducible apply putNode_stored
      | with_reducible apply updNode_stored
      | split
      | dsimp only

theorem releaseChain_stored {s : State} (a) (h : s.stored = true) : (releaseChain a s).stored = true := by
  unfold releaseChain
  try dsimp only
  repeat' first
    | with_reducible assumption
    | with_reducible apply updNode_stored
    | with_reducible apply forEach_stored
    | ((with_reducible intro _ _ _ _); try dsimp only)
    | ((with_reducible intro _ _ _); try dsimp only)
    | ((with_reducible intro _ _); try dsimp only)

theorem repairChain_stored {s : State} (a) (h : s.stored = true) : (repairChain a s).stored = true := by
  unfold repairChain
  try dsimp only
  repeat' first
    | with_reducible assumption
    | with_reducible apply updNode_stored
    | with_reducible apply insertNodes_stored
    | with_reducible apply putSession_stored
    | with_reducible apply forEach_stored
    | ((with_reducible intro _ _ _ _); try dsimp only)
    | ((with_reducible intro _ _ _); try dsimp only)
    | ((with_reducible intro _ _); try dsimp only)
    | split
    | dsimp only

theorem setBad_stored {s : State} (a) (h : s.stored = true) : (setBad a s).stored = true := by
  unfold setBad
  try dsimp only
  repeat' first
    | with_reducible assumption
    | with_reducible apply updNode_stored
    | with_reducible apply repairChain_stored
    | with_reducible apply forEach_stored
    | ((with_reducible intro _ _ _ _); try dsimp only)
    | ((with_reducible intro _ _ _); try dsimp only)
    | ((with_reducible intro _ _); try dsimp only)

theorem admitSession_stored {s : State} (a) (h : s.stored = true) : (admitSession a s).stored = true := by
  unfold admitSession
  try dsimp only
  repeat' first
    | with_reducible assumption
    | with_reducible apply updNode_stored
    | with_reducible apply insertNodes_stored
    | with_reducible apply putSession_stored
    | with_reducible apply forEach_stored
    | ((with_reducible intro _ _ _ _); try dsimp only)
    | ((with_reducible intro _ _ _); try dsimp only)
    | ((with_reducible intro _ _); try dsimp only)
    | split
    | dsimp only

theorem buildStep_stored {s : State} (a b c d e f) (h : s.stored = true) : (buildStep a b c d e f s).stored = true := by
  unfold buildStep
  try dsimp only
  repeat' first
    | with_reducible assumption
    | with_reducible apply putSession_stored
    | with_reducible apply SameExcept.stored (sendSteps_reach _) rfl
    | with_reducible apply forEach_stored
    | ((with_reducible intro _ _ _ _); try dsimp only)
    | ((with_reducible intro _ _ _); try dsimp only)
    | ((with_reducible intro _ _); try dsimp only)
    | split
    | dsimp only
    | with_reducible apply fields_stored

theorem sessionReturns_stored {s : State} (a b c) (h : s.stored = true) : (sessionReturns a b c s).stored = true := by
  unfold sessionReturns
  try dsimp only
  repeat' first
    | with_reducible assumption
    | with_reducible apply setBad_stored
    | with_reducible apply updNode_stored
    | with_reducible apply putSession_stored
    | with_reducible apply releaseChain_stored
    | with_reducible apply forEach_stored
    | ((with_reducible intro _ _ _ _); try dsimp only)
    | ((with_reducible intro _ _ _); try dsimp only)
    | ((with_reducible intro _ _); try dsimp only)
    | split
    | dsimp only

theorem stepReturned_stored {s : State} (a b c d e) (h : s.stored = true) : (stepReturned a b c d e s).stored = true := by
  unfold stepReturned
  try dsimp only
  repeat' first
    | with_reducible assumption
    | with_reducible apply inFlow_stored
    | with_reducible apply SameExcept.stored (ackMsg_reach _ _) rfl
    | with_reducible apply sessionReturns_stored
    | with_reducible apply forEach_stored
    | ((with_reducible intro _ _ _ _); try dsimp only)
    | ((with_reducible intro _ _ _); try dsimp only)
    | ((with_reducible intro _ _); try dsimp only)
    | split
    | with_reducible apply fields_stored

end Sys2Proof.Machine
end

