-- ==== Sys2Proof/Laws/Planner.lean ====
section
/-! SUPPORT. What each operation of Machine/Planner.lean reaches: every other part of the state is as it was (`_reach`), and memory and the
marks keep their canonical form (`_stored`). -/

namespace Sys2Proof.Machine

set_option linter.unusedTactic false
set_option linter.unreachableTactic false
set_option linter.unnecessarySeqFocus false

theorem stepCode_reach (a b c s) : SameExcept [.isl] s (stepCode a b c s) := by
  unfold stepCode
  try dsimp only
  repeat' first
    | with_reducible exact SameExcept.refl _ _
    | ((with_reducible apply covers_intro); decide)
    | with_reducible apply SameExcept.step (updIsl_reach _ _ _)

theorem clockStep_reach (a s) : SameExcept [.log, .isl] s (clockStep a s) := by
  unfold clockStep
  try dsimp only
  repeat' first
    | with_reducible exact SameExcept.refl _ _
    | ((with_reducible apply covers_intro); decide)
    | with_reducible apply SameExcept.step (stepCode_reach _ _ _ _)
    | with_reducible apply SameExcept.step (logLimited_reach _ _ _ _)
    | with_reducible apply SameExcept.step (updIsl_reach _ _ _)
    | split

theorem retireIsland_reach (a b s) : SameExcept [.log, .plan, .isl, .pm, .xfers, .qs, .sems, .cores, .links, .grinders] s (retireIsland a b s) := by
  unfold retireIsland
  try dsimp only
  repeat' first
    | with_reducible exact SameExcept.refl _ _
    | ((with_reducible apply covers_intro); decide)
    | with_reducible apply SameExcept.step (updIsl_reach _ _ _)
    | with_reducible apply SameExcept.step (updMargin_reach _ _ _)
    | with_reducible apply SameExcept.step (logEvent_reach _ _ _ _)
    | with_reducible apply SameExcept.step (endEarly_reach _ _ _ _)
    | with_reducible apply SameExcept.forEach
    | ((with_reducible apply FieldsSame.intro); intro q hq; cases q <;> first | exact absurd (by decide) hq | (dsimp only [Part.same, memByte]; done) | (dsimp only [Part.same, memByte]; exact ⟨rfl, fun _ => rfl⟩) | (dsimp only [Part.same]; exact ⟨rfl, rfl⟩))
    | ((with_reducible intro _ _); try dsimp only)
    | ((with_reducible intro _); try dsimp only)
    | split
    | with_reducible apply SameExcept.fields

theorem slackAlarm_reach (a s) : SameExcept [.log, .plan, .isl, .pm, .xfers, .qs, .sems, .cores, .links, .grinders] s (slackAlarm a s) := by
  unfold slackAlarm
  try dsimp only
  repeat' first
    | with_reducible exact SameExcept.refl _ _
    | ((with_reducible apply covers_intro); decide)
    | with_reducible apply SameExcept.step (setIsl_reach _ _ _)
    | with_reducible apply SameExcept.step (logLimited_reach _ _ _ _)
    | with_reducible apply SameExcept.step (retireIsland_reach _ _ _)
    | ((with_reducible apply FieldsSame.intro); intro q hq; cases q <;> first | exact absurd (by decide) hq | (dsimp only [Part.same, memByte]; done) | (dsimp only [Part.same, memByte]; exact ⟨rfl, fun _ => rfl⟩) | (dsimp only [Part.same]; exact ⟨rfl, rfl⟩))
    | split
    | with_reducible apply SameExcept.fields

theorem updRecord_reach (a s) : SameExcept [.pm] s (updRecord a s) := by
  unfold updRecord
  try dsimp only
  repeat' first
    | with_reducible exact SameExcept.refl _ _
    | ((with_reducible apply covers_intro); decide)
    | ((with_reducible apply FieldsSame.intro); intro q hq; cases q <;> first | exact absurd (by decide) hq | (dsimp only [Part.same, memByte]; done) | (dsimp only [Part.same, memByte]; exact ⟨rfl, fun _ => rfl⟩) | (dsimp only [Part.same]; exact ⟨rfl, rfl⟩))
    | with_reducible apply SameExcept.fields

theorem movePoint_reach (a b c s) : SameExcept [.plan, .isl] s (movePoint a b c s) := by
  unfold movePoint
  try dsimp only
  repeat' first
    | with_reducible exact SameExcept.refl _ _
    | ((with_reducible apply covers_intro); decide)
    | with_reducible apply SameExcept.step (updIsl_reach _ _ _)
    | ((with_reducible apply FieldsSame.intro); intro q hq; cases q <;> first | exact absurd (by decide) hq | (dsimp only [Part.same, memByte]; done) | (dsimp only [Part.same, memByte]; exact ⟨rfl, fun _ => rfl⟩) | (dsimp only [Part.same]; exact ⟨rfl, rfl⟩))
    | split
    | with_reducible apply SameExcept.fields

theorem verified_reach (a s) : SameExcept [.pm, .blend] s (verified a s) := by
  unfold verified
  try dsimp only
  repeat' first
    | with_reducible exact SameExcept.refl _ _
    | ((with_reducible apply covers_intro); decide)
    | with_reducible apply SameExcept.step (updMargin_reach _ _ _)
    | ((with_reducible apply FieldsSame.intro); intro q hq; cases q <;> first | exact absurd (by decide) hq | (dsimp only [Part.same, memByte]; done) | (dsimp only [Part.same, memByte]; exact ⟨rfl, fun _ => rfl⟩) | (dsimp only [Part.same]; exact ⟨rfl, rfl⟩))
    | split
    | with_reducible apply SameExcept.fields

theorem takeReading_reach (a s) : SameExcept [.isl, .pm] s (takeReading a s) := by
  unfold takeReading
  try dsimp only
  repeat' first
    | with_reducible exact SameExcept.refl _ _
    | ((with_reducible apply covers_intro); decide)
    | with_reducible apply SameExcept.step (setIsl_reach _ _ _)
    | with_reducible apply SameExcept.step (updMargin_reach _ _ _)
    | split

theorem beginRun_reach (a s) : SameExcept [.plan] s (beginRun a s) := by
  unfold beginRun
  try dsimp only
  repeat' first
    | with_reducible exact SameExcept.refl _ _
    | ((with_reducible apply covers_intro); decide)
    | ((with_reducible apply FieldsSame.intro); intro q hq; cases q <;> first | exact absurd (by decide) hq | (dsimp only [Part.same, memByte]; done) | (dsimp only [Part.same, memByte]; exact ⟨rfl, fun _ => rfl⟩) | (dsimp only [Part.same]; exact ⟨rfl, rfl⟩))
    | with_reducible apply SameExcept.fields

theorem endRun_reach (s) : SameExcept [.log, .plan, .pm] s (endRun s) := by
  unfold endRun
  try dsimp only
  repeat' first
    | with_reducible exact SameExcept.refl _ _
    | ((with_reducible apply covers_intro); decide)
    | with_reducible apply SameExcept.step (logEvent_reach _ _ _ _)
    | with_reducible apply SameExcept.step (updRecord_reach _ _)
    | with_reducible apply SameExcept.forEach
    | with_reducible apply SameExcept.foldl
    | with_reducible apply SameExcept.foldlFst
    | ((with_reducible apply FieldsSame.intro); intro q hq; cases q <;> first | exact absurd (by decide) hq | (dsimp only [Part.same, memByte]; done) | (dsimp only [Part.same, memByte]; exact ⟨rfl, fun _ => rfl⟩) | (dsimp only [Part.same]; exact ⟨rfl, rfl⟩))
    | ((with_reducible intro _ _); try dsimp only)
    | ((with_reducible intro _); try dsimp only)
    | split
    | dsimp only
    | with_reducible apply SameExcept.fields

theorem bootRun_reach (a s) : SameExcept [.log, .plan, .isl, .pm, .xfers, .qs, .sems, .cores, .links, .grinders, .blend] s (bootRun a s) := by
  unfold bootRun
  try dsimp only
  repeat' first
    | with_reducible exact SameExcept.refl _ _
    | ((with_reducible apply covers_intro); decide)
    | with_reducible apply SameExcept.step (endRun_reach _)
    | with_reducible apply SameExcept.step (takeReading_reach _ _)
    | with_reducible apply SameExcept.step (verified_reach _ _)
    | with_reducible apply SameExcept.step (movePoint_reach _ _ _ _)
    | with_reducible apply SameExcept.step (retireIsland_reach _ _ _)
    | with_reducible apply SameExcept.forEach
    | ((with_reducible intro _ _); try dsimp only)
    | ((with_reducible intro _); try dsimp only)
    | split
    | dsimp only

theorem dailyIsland_reach (a s) : SameExcept [.plan, .isl, .pm] s (dailyIsland a s) := by
  unfold dailyIsland
  try dsimp only
  repeat' first
    | with_reducible exact SameExcept.refl _ _
    | ((with_reducible apply covers_intro); decide)
    | with_reducible apply SameExcept.step (takeReading_reach _ _)
    | with_reducible apply SameExcept.step (movePoint_reach _ _ _ _)
    | with_reducible apply SameExcept.step (updIsl_reach _ _ _)
    | split
    | dsimp only

theorem dailyRun_reach (a b s) : SameExcept [.plan, .isl, .pm] s (dailyRun a b s) := by
  unfold dailyRun
  try dsimp only
  repeat' first
    | with_reducible exact SameExcept.refl _ _
    | ((with_reducible apply covers_intro); decide)
    | with_reducible apply SameExcept.step (dailyIsland_reach _ _)
    | with_reducible apply SameExcept.step (beginRun_reach _ _)
    | with_reducible apply SameExcept.forEach
    | ((with_reducible intro _ _); try dsimp only)
    | ((with_reducible intro _); try dsimp only)
    | split

theorem checkDone_reach (a b c s) : SameExcept [.log, .plan, .isl, .pm, .xfers, .qs, .sems, .cores, .links, .grinders, .blend] s (checkDone a b c s) := by
  unfold checkDone
  try dsimp only
  repeat' first
    | with_reducible exact SameExcept.refl _ _
    | ((with_reducible apply covers_intro); decide)
    | with_reducible apply SameExcept.step (updIsl_reach _ _ _)
    | with_reducible apply SameExcept.step (takeReading_reach _ _)
    | with_reducible apply SameExcept.step (verified_reach _ _)
    | with_reducible apply SameExcept.step (movePoint_reach _ _ _ _)
    | with_reducible apply SameExcept.step (retireIsland_reach _ _ _)
    | split
    | dsimp only

theorem runDone_reach (s) : SameExcept [.log, .plan, .pm] s (runDone s) := by
  unfold runDone
  try dsimp only
  repeat' first
    | with_reducible exact SameExcept.refl _ _
    | ((with_reducible apply covers_intro); decide)
    | with_reducible apply SameExcept.step (endRun_reach _)
    | with_reducible apply SameExcept.step (logEvent_reach _ _ _ _)
    | split

theorem planCtrlRun_reach (a b s) : SameExcept [.plan, .isl, .pm] s (planCtrlRun a b s) := by
  unfold planCtrlRun
  try dsimp only
  repeat' first
    | with_reducible exact SameExcept.refl _ _
    | ((with_reducible apply covers_intro); decide)
    | with_reducible apply SameExcept.step (dailyRun_reach _ _ _)
    | ((with_reducible apply FieldsSame.intro); intro q hq; cases q <;> first | exact absurd (by decide) hq | (dsimp only [Part.same, memByte]; done) | (dsimp only [Part.same, memByte]; exact ⟨rfl, fun _ => rfl⟩) | (dsimp only [Part.same]; exact ⟨rfl, rfl⟩))
    | split
    | dsimp only
    | with_reducible apply SameExcept.fields

theorem powerOnHour_reach (s) : SameExcept [.plan, .pm] s (powerOnHour s) := by
  unfold powerOnHour
  try dsimp only
  repeat' first
    | with_reducible exact SameExcept.refl _ _
    | ((with_reducible apply covers_intro); decide)
    | with_reducible apply SameExcept.step (updRecord_reach _ _)
    | ((with_reducible apply FieldsSame.intro); intro q hq; cases q <;> first | exact absurd (by decide) hq | (dsimp only [Part.same, memByte]; done) | (dsimp only [Part.same, memByte]; exact ⟨rfl, fun _ => rfl⟩) | (dsimp only [Part.same]; exact ⟨rfl, rfl⟩))
    | split
    | with_reducible apply SameExcept.fields

theorem scrubBad_reach (a b s) : SameExcept [.log, .plan, .isl, .pm, .poison, .xfers, .qs, .sems, .cores, .links, .grinders] s (scrubBad a b s) := by
  unfold scrubBad
  try dsimp only
  repeat' first
    | with_reducible exact SameExcept.refl _ _
    | ((with_reducible apply covers_intro); decide)
    | with_reducible apply SameExcept.step (setMemPoison_reach _ _ _)
    | with_reducible apply SameExcept.step (logEvent_reach _ _ _ _)
    | with_reducible apply SameExcept.step (setIsl_reach _ _ _)
    | with_reducible apply SameExcept.step (retireIsland_reach _ _ _)
    | split

theorem readWord_reach (a b c s) : SameExcept [.log, .plan, .isl, .pm, .poison, .xfers, .qs, .sems, .cores, .links, .grinders] s (readWord a b c s) := by
  unfold readWord
  try dsimp only
  repeat' first
    | with_reducible exact SameExcept.refl _ _
    | ((with_reducible apply covers_intro); decide)
    | with_reducible apply SameExcept.step (updIsl_reach _ _ _)
    | with_reducible apply SameExcept.step (scrubBad_reach _ _ _)
    | split
    | dsimp only

theorem scrub_reach (a b s) : SameExcept [.log, .plan, .isl, .pm, .poison, .xfers, .qs, .sems, .cores, .links, .grinders] s (scrub a b s) := by
  unfold scrub
  try dsimp only
  repeat' first
    | with_reducible exact SameExcept.refl _ _
    | ((with_reducible apply covers_intro); decide)
    | with_reducible apply SameExcept.step (readWord_reach _ _ _ _)
    | with_reducible apply SameExcept.step (setIsl_reach _ _ _)
    | split

theorem readSem_reach (a b s) : SameExcept [.log, .sems] s (readSem a b s) := by
  unfold readSem
  try dsimp only
  repeat' first
    | with_reducible exact SameExcept.refl _ _
    | ((with_reducible apply covers_intro); decide)
    | with_reducible apply SameExcept.step (logEvent_reach _ _ _ _)
    | with_reducible apply SameExcept.step (setSem_reach _ _ _)
    | split

theorem readControl_reach (a b s) : SameExcept [.mode, .log, .power, .isl, .pm, .mem, .poison, .cache, .mc, .xfers, .net, .qs, .cores, .links, .grinders, .courier] s (readControl a b s) := by
  unfold readControl
  try dsimp only
  repeat' first
    | with_reducible exact SameExcept.refl _ _
    | ((with_reducible apply covers_intro); decide)
    | with_reducible apply SameExcept.step (enterFaulted_reach _ _)
    | with_reducible apply SameExcept.step (logEvent_reach _ _ _ _)
    | split

theorem readBuffer_reach (a b c d e s) : SameExcept [.log, .net] s (readBuffer a b c d e s) := by
  unfold readBuffer
  try dsimp only
  repeat' first
    | with_reducible exact SameExcept.refl _ _
    | ((with_reducible apply covers_intro); decide)
    | with_reducible apply SameExcept.step (logEvent_reach _ _ _ _)
    | ((with_reducible apply FieldsSame.intro); intro q hq; cases q <;> first | exact absurd (by decide) hq | (dsimp only [Part.same, memByte]; done) | (dsimp only [Part.same, memByte]; exact ⟨rfl, fun _ => rfl⟩) | (dsimp only [Part.same]; exact ⟨rfl, rfl⟩))
    | split
    | dsimp only
    | with_reducible apply SameExcept.fields

theorem sramRead_reach (a b s) : SameExcept [.mode, .log, .plan, .power, .isl, .pm, .mem, .poison, .cache, .mc, .xfers, .net, .qs, .sems, .cores, .links, .grinders, .courier] s (sramRead a b s) := by
  unfold sramRead
  try dsimp only
  repeat' first
    | with_reducible exact SameExcept.refl _ _
    | ((with_reducible apply covers_intro); decide)
    | with_reducible apply SameExcept.step (scrub_reach _ _ _)
    | with_reducible apply SameExcept.step (readWord_reach _ _ _ _)
    | with_reducible apply SameExcept.step (readSem_reach _ _ _)
    | with_reducible apply SameExcept.step (readControl_reach _ _ _)
    | with_reducible apply SameExcept.step (readBuffer_reach _ _ _ _ _ _)
    | split
    | dsimp only

theorem logWrite_reach (a s) : SameExcept [.log, .power, .host] s (logWrite a s) := by
  unfold logWrite
  try dsimp only
  repeat' first
    | with_reducible exact SameExcept.refl _ _
    | ((with_reducible apply covers_intro); decide)
    | with_reducible apply SameExcept.step (raiseVector_reach _ _)
    | ((with_reducible apply FieldsSame.intro); intro q hq; cases q <;> first | exact absurd (by decide) hq | (dsimp only [Part.same, memByte]; done) | (dsimp only [Part.same, memByte]; exact ⟨rfl, fun _ => rfl⟩) | (dsimp only [Part.same]; exact ⟨rfl, rfl⟩))
    | split
    | dsimp only
    | with_reducible apply SameExcept.fields

theorem intervalEnd_reach (a b s) : SameExcept [.log] s (intervalEnd a b s) := by
  unfold intervalEnd
  try dsimp only
  repeat' first
    | with_reducible exact SameExcept.refl _ _
    | ((with_reducible apply covers_intro); decide)
    | ((with_reducible apply FieldsSame.intro); intro q hq; cases q <;> first | exact absurd (by decide) hq | (dsimp only [Part.same, memByte]; done) | (dsimp only [Part.same, memByte]; exact ⟨rfl, fun _ => rfl⟩) | (dsimp only [Part.same]; exact ⟨rfl, rfl⟩))
    | split
    | dsimp only
    | with_reducible apply SameExcept.fields

/-! ### The canonical form -/

theorem scrubBad_stored {s : State} (a b) (h : s.stored = true) : (scrubBad a b s).stored = true := by
  unfold scrubBad
  try dsimp only
  repeat' first
    | with_reducible assumption
    | with_reducible apply setMemPoison_stored
    | with_reducible apply SameExcept.stored (logEvent_reach _ _ _ _) rfl
    | with_reducible apply SameExcept.stored (setIsl_reach _ _ _) rfl
    | with_reducible apply SameExcept.stored (retireIsland_reach _ _ _) rfl
    | split

theorem readWord_stored {s : State} (a b c) (h : s.stored = true) : (readWord a b c s).stored = true := by
  unfold readWord
  try dsimp only
  repeat' first
    | with_reducible assumption
    | with_reducible apply SameExcept.stored (updIsl_reach _ _ _) rfl
    | with_reducible apply scrubBad_stored
    | split
    | dsimp only

theorem scrub_stored {s : State} (a b) (h : s.stored = true) : (scrub a b s).stored = true := by
  unfold scrub
  try dsimp only
  repeat' first
    | with_reducible assumption
    | with_reducible apply readWord_stored
    | with_reducible apply SameExcept.stored (setIsl_reach _ _ _) rfl
    | split

theorem readControl_stored {s : State} (a b) (h : s.stored = true) : (readControl a b s).stored = true := by
  unfold readControl
  try dsimp only
  repeat' first
    | with_reducible assumption
    | with_reducible apply enterFaulted_stored
    | with_reducible apply SameExcept.stored (logEvent_reach _ _ _ _) rfl
    | split

theorem sramRead_stored {s : State} (a b) (h : s.stored = true) : (sramRead a b s).stored = true := by
  unfold sramRead
  try dsimp only
  repeat' first
    | with_reducible assumption
    | with_reducible apply scrub_stored
    | with_reducible apply readWord_stored
    | with_reducible apply SameExcept.stored (readSem_reach _ _ _) rfl
    | with_reducible apply readControl_stored
    | with_reducible apply SameExcept.stored (readBuffer_reach _ _ _ _ _ _) rfl
    | split
    | dsimp only

end Sys2Proof.Machine
end

