-- ==== Sys2Proof/Laws/Blend.lean ====
section
/-! SUPPORT. What each operation of Machine/Blend.lean reaches: every other part of the state is as it was (`_reach`), and memory and the
marks keep their canonical form (`_stored`). -/

namespace Sys2Proof.Machine

set_option linter.unusedTactic false
set_option linter.unreachableTactic false
set_option linter.unnecessarySeqFocus false

theorem inPhase_reach {ps : List Part} {s0 s : State} {p f}
    (hf : ∀ l t, SameExcept ps t (f l t)) (h0 : SameExcept ps s0 s) : SameExcept ps s0 (inPhase p f s) := by
  refine h0.trans ?_
  unfold inPhase
  try dsimp only
  repeat' first
    | with_reducible exact SameExcept.refl _ _
    | ((with_reducible apply covers_intro); decide)
    | with_reducible exact hf _ _
    | ((with_reducible intro _ _); try dsimp only)
    | ((with_reducible intro _); try dsimp only)
    | split
    | dsimp only

theorem setLoad_reach (s b) : SameExcept [.blend] s (setLoad s b) := by
  unfold setLoad
  try dsimp only
  repeat' first
    | with_reducible exact SameExcept.refl _ _
    | ((with_reducible apply covers_intro); decide)
    | ((with_reducible apply FieldsSame.intro); intro q hq; cases q <;> first | exact absurd (by decide) hq | (dsimp only [Part.same, memByte]; done) | (dsimp only [Part.same, memByte]; exact ⟨rfl, fun _ => rfl⟩) | (dsimp only [Part.same]; exact ⟨rfl, rfl⟩))
    | with_reducible apply SameExcept.fields

theorem endLoad_reach (a b s) : SameExcept [.pm, .host, .blend] s (endLoad a b s) := by
  unfold endLoad
  try dsimp only
  repeat' first
    | with_reducible exact SameExcept.refl _ _
    | ((with_reducible apply covers_intro); decide)
    | with_reducible apply SameExcept.step (finishCall_reach _ _ _ _)
    | with_reducible apply SameExcept.step (setLoad_reach _ _)

theorem rejectLoad_reach (a b c s) : SameExcept [.log, .pm, .host, .blend] s (rejectLoad a b c s) := by
  unfold rejectLoad
  try dsimp only
  repeat' first
    | with_reducible exact SameExcept.refl _ _
    | ((with_reducible apply covers_intro); decide)
    | with_reducible apply SameExcept.step (endLoad_reach _ _ _)
    | with_reducible apply SameExcept.step (logEvent_reach _ _ _ _)

theorem acceptImage_reach (a b c d e f g s) : SameExcept [.blend] s (acceptImage a b c d e f g s).1 := by
  unfold acceptImage
  try dsimp only
  repeat' first
    | with_reducible exact SameExcept.refl _ _
    | ((with_reducible apply covers_intro); decide)
    | with_reducible apply SameExcept.step (setLoad_reach _ _)
    | split
    | dsimp only

theorem acceptReblend_reach (a b c s) : SameExcept [.blend] s (acceptReblend a b c s).1 := by
  unfold acceptReblend
  try dsimp only
  repeat' first
    | with_reducible exact SameExcept.refl _ _
    | ((with_reducible apply covers_intro); decide)
    | with_reducible apply SameExcept.step (acceptImage_reach _ _ _ _ _ _ _ _)
    | with_reducible apply SameExcept.step (setLoad_reach _ _)
    | split
    | dsimp only

theorem copied_reach (a b s) : SameExcept [.log, .plan, .pm, .mem, .poison, .cache, .mc, .host, .blend] s (copied a b s) := by
  unfold copied
  try dsimp only
  repeat' first
    | with_reducible exact SameExcept.refl _ _
    | ((with_reducible apply covers_intro); decide)
    | with_reducible apply SameExcept.step (rejectLoad_reach _ _ _ _)
    | with_reducible apply SameExcept.step (hbmWrite_reach _ _ _ _ _)
    | with_reducible apply SameExcept.step (setLoad_reach _ _)
    | ((with_reducible apply FieldsSame.intro); intro q hq; cases q <;> first | exact absurd (by decide) hq | (dsimp only [Part.same, memByte]; done) | (dsimp only [Part.same, memByte]; exact ⟨rfl, fun _ => rfl⟩) | (dsimp only [Part.same]; exact ⟨rfl, rfl⟩))
    | split
    | dsimp only
    | with_reducible apply SameExcept.fields

theorem measured_reach (a s) : SameExcept [.blend] s (measured a s) := by
  unfold measured
  try dsimp only
  repeat' first
    | with_reducible exact SameExcept.refl _ _
    | ((with_reducible apply covers_intro); decide)
    | with_reducible apply SameExcept.step (setLoad_reach _ _)

theorem signatureDone_reach (a s) : SameExcept [.log, .pm, .host, .blend] s (signatureDone a s) := by
  unfold signatureDone
  try dsimp only
  repeat' first
    | with_reducible exact SameExcept.refl _ _
    | ((with_reducible apply covers_intro); decide)
    | with_reducible apply SameExcept.step (rejectLoad_reach _ _ _ _)
    | with_reducible apply SameExcept.step (endLoad_reach _ _ _)
    | with_reducible apply SameExcept.step (setLoad_reach _ _)
    | ((with_reducible apply FieldsSame.intro); intro q hq; cases q <;> first | exact absurd (by decide) hq | (dsimp only [Part.same, memByte]; done) | (dsimp only [Part.same, memByte]; exact ⟨rfl, fun _ => rfl⟩) | (dsimp only [Part.same]; exact ⟨rfl, rfl⟩))
    | split
    | with_reducible apply SameExcept.fields

theorem zeroScratch_reach (a s) : SameExcept [.mem, .poison, .blend] s (zeroScratch a s) := by
  unfold zeroScratch
  try dsimp only
  repeat' first
    | with_reducible exact SameExcept.refl _ _
    | ((with_reducible apply covers_intro); decide)
    | ((with_reducible apply FieldsSame.intro); intro q hq; cases q <;> first | exact absurd (by decide) hq | (dsimp only [Part.same, memByte]; done) | (dsimp only [Part.same, memByte]; exact ⟨rfl, fun _ => rfl⟩) | (dsimp only [Part.same]; exact ⟨rfl, rfl⟩))
    | split
    | with_reducible apply SameExcept.fields

theorem powerUpIsl_reach (a s) : SameExcept [.isl] s (powerUpIsl a s) := by
  unfold powerUpIsl
  try dsimp only
  repeat' first
    | with_reducible exact SameExcept.refl _ _
    | ((with_reducible apply covers_intro); decide)
    | with_reducible apply SameExcept.step (updIsl_reach _ _ _)
    | split

theorem idleLinked_reach (a s) : SameExcept [.isl] s (idleLinked a s) := by
  unfold idleLinked
  try dsimp only
  repeat' first
    | with_reducible exact SameExcept.refl _ _
    | ((with_reducible apply covers_intro); decide)
    | with_reducible apply SameExcept.step (updIsl_reach _ _ _)
    | split

theorem setFloors_reach (a b c d s) : SameExcept [.isl] s (setFloors a b c d s) := by
  unfold setFloors
  try dsimp only
  repeat' first
    | with_reducible exact SameExcept.refl _ _
    | ((with_reducible apply covers_intro); decide)
    | with_reducible apply SameExcept.step (updIsl_reach _ _ _)
    | with_reducible apply SameExcept.forEach
    | ((with_reducible intro _ _); try dsimp only)
    | ((with_reducible intro _); try dsimp only)
    | split

theorem powerStructure_reach (a s) : SameExcept [.isl, .mem, .poison, .blend] s (powerStructure a s) := by
  unfold powerStructure
  try dsimp only
  repeat' first
    | with_reducible exact SameExcept.refl _ _
    | ((with_reducible apply covers_intro); decide)
    | with_reducible apply SameExcept.step (powerUpIsl_reach _ _)
    | with_reducible apply SameExcept.step (zeroScratch_reach _ _)
    | with_reducible apply SameExcept.step (idleLinked_reach _ _)
    | with_reducible apply SameExcept.step (updIsl_reach _ _ _)
    | with_reducible apply SameExcept.forEach
    | ((with_reducible intro _ _); try dsimp only)
    | ((with_reducible intro _); try dsimp only)

theorem setRegions_reach (a b s) : SameExcept [.cache] s (setRegions a b s) := by
  unfold setRegions
  try dsimp only
  repeat' first
    | with_reducible exact SameExcept.refl _ _
    | ((with_reducible apply covers_intro); decide)
    | with_reducible apply SameExcept.step (setCache_reach _ _ _)
    | split

theorem setModes_reach (a b c s) : SameExcept [.cores] s (setModes a b c s) := by
  unfold setModes
  try dsimp only
  repeat' first
    | with_reducible exact SameExcept.refl _ _
    | ((with_reducible apply covers_intro); decide)
    | with_reducible apply SameExcept.step (updCore_reach _ _ _)
    | with_reducible apply SameExcept.forEach
    | ((with_reducible intro _ _); try dsimp only)
    | ((with_reducible intro _); try dsimp only)

theorem quiesce_reach (a s) : SameExcept [.isl, .xfers, .qs, .sems, .cores, .links, .grinders, .blend] s (quiesce a s) := by
  unfold quiesce
  try dsimp only
  repeat' first
    | with_reducible exact SameExcept.refl _ _
    | ((with_reducible apply covers_intro); decide)
    | with_reducible apply SameExcept.step (updQ_reach _ _ _)
    | with_reducible apply SameExcept.step (endEarly_reach _ _ _ _)
    | with_reducible apply SameExcept.step (abortBatches_reach _ _)
    | with_reducible apply SameExcept.forEach
    | ((with_reducible apply FieldsSame.intro); intro q hq; cases q <;> first | exact absurd (by decide) hq | (dsimp only [Part.same, memByte]; done) | (dsimp only [Part.same, memByte]; exact ⟨rfl, fun _ => rfl⟩) | (dsimp only [Part.same]; exact ⟨rfl, rfl⟩))
    | ((with_reducible intro _ _); try dsimp only)
    | ((with_reducible intro _); try dsimp only)
    | split
    | with_reducible apply SameExcept.fields

theorem validated_reach (a s) : SameExcept [.log, .isl, .pm, .xfers, .host, .qs, .sems, .cores, .links, .grinders, .blend] s (validated a s) := by
  unfold validated
  try dsimp only
  repeat' first
    | with_reducible exact SameExcept.refl _ _
    | ((with_reducible apply covers_intro); decide)
    | with_reducible apply SameExcept.step (rejectLoad_reach _ _ _ _)
    | with_reducible apply SameExcept.step (setLoad_reach _ _)
    | with_reducible apply SameExcept.step (quiesce_reach _ _)
    | split
    | dsimp only

theorem applyFull_reach (a s) : SameExcept [.log, .plan, .isl, .mem, .poison, .cache, .mc, .sems, .cores, .links, .grinders, .blend, .courier] s (applyFull a s) := by
  unfold applyFull
  try dsimp only
  repeat' first
    | with_reducible exact SameExcept.refl _ _
    | ((with_reducible apply covers_intro); decide)
    | with_reducible apply SameExcept.step (flushCaches_reach _)
    | with_reducible apply SameExcept.step (beginRun_reach _ _)
    | with_reducible apply SameExcept.step (powerStructure_reach _ _)
    | with_reducible apply SameExcept.step (setModes_reach _ _ _ _)
    | with_reducible apply SameExcept.step (setFloors_reach _ _ _ _ _)
    | with_reducible apply SameExcept.step (resetLinkSems_reach _ _ _)
    | with_reducible apply SameExcept.step (setCourierIslands_reach _ _)
    | with_reducible apply SameExcept.step (setRegions_reach _ _ _)
    | with_reducible apply SameExcept.step (setLoad_reach _ _)
    | with_reducible apply SameExcept.forEach
    | ((with_reducible apply FieldsSame.intro); intro q hq; cases q <;> first | exact absurd (by decide) hq | (dsimp only [Part.same, memByte]; done) | (dsimp only [Part.same, memByte]; exact ⟨rfl, fun _ => rfl⟩) | (dsimp only [Part.same]; exact ⟨rfl, rfl⟩))
    | ((with_reducible intro _ _); try dsimp only)
    | ((with_reducible intro _); try dsimp only)
    | with_reducible apply SameExcept.fields

theorem enterServing_reach (a s) : SameExcept [.freeCtr, .mode, .plan, .pm, .host, .blend, .courier] s (enterServing a s) := by
  unfold enterServing
  try dsimp only
  repeat' first
    | with_reducible exact SameExcept.refl _ _
    | ((with_reducible apply covers_intro); decide)
    | with_reducible apply SameExcept.step (endLoad_reach _ _ _)
    | with_reducible apply SameExcept.step (joinRing_reach _)
    | ((with_reducible apply FieldsSame.intro); intro q hq; cases q <;> first | exact absurd (by decide) hq | (dsimp only [Part.same, memByte]; done) | (dsimp only [Part.same, memByte]; exact ⟨rfl, fun _ => rfl⟩) | (dsimp only [Part.same]; exact ⟨rfl, rfl⟩))
    | with_reducible apply SameExcept.fields

theorem bootRunDone_reach (a b s) : SameExcept [.freeCtr, .mode, .log, .plan, .isl, .pm, .xfers, .host, .qs, .sems, .cores, .links, .grinders, .blend, .courier] s (bootRunDone a b s) := by
  unfold bootRunDone
  try dsimp only
  repeat' first
    | with_reducible exact SameExcept.refl _ _
    | ((with_reducible apply covers_intro); decide)
    | with_reducible apply SameExcept.step (bootRun_reach _ _)
    | with_reducible apply SameExcept.step (enterServing_reach _ _)
    | with_reducible apply SameExcept.step (setLoad_reach _ _)
    | split

theorem rampDone_reach (a s) : SameExcept [.freeCtr, .mode, .plan, .pm, .host, .blend, .courier] s (rampDone a s) := by
  unfold rampDone
  try dsimp only
  repeat' first
    | with_reducible exact SameExcept.refl _ _
    | ((with_reducible apply covers_intro); decide)
    | with_reducible apply SameExcept.step (enterServing_reach _ _)
    | split

theorem stopDone_reach (a s) : SameExcept [.log, .isl, .cache, .seg, .qs, .sems, .cores, .links, .grinders, .blend] s (stopDone a s) := by
  unfold stopDone
  try dsimp only
  repeat' first
    | with_reducible exact SameExcept.refl _ _
    | ((with_reducible apply covers_intro); decide)
    | with_reducible apply SameExcept.step (stopStreams_reach _ _)
    | with_reducible apply SameExcept.step (resetLink_reach _ _ _)
    | with_reducible apply SameExcept.step (updCore_reach _ _ _)
    | with_reducible apply SameExcept.step (setLoad_reach _ _)
    | with_reducible apply SameExcept.step (beginClean_reach _ _ _ _)
    | with_reducible apply SameExcept.forEach
    | with_reducible apply SameExcept.foldl
    | with_reducible apply SameExcept.foldlFst
    | ((with_reducible apply FieldsSame.intro); intro q hq; cases q <;> first | exact absurd (by decide) hq | (dsimp only [Part.same, memByte]; done) | (dsimp only [Part.same, memByte]; exact ⟨rfl, fun _ => rfl⟩) | (dsimp only [Part.same]; exact ⟨rfl, rfl⟩))
    | ((with_reducible intro _ _); try dsimp only)
    | ((with_reducible intro _); try dsimp only)
    | split
    | dsimp only
    | with_reducible apply SameExcept.fields

theorem resumeFetch_reach (a s) : SameExcept [.blend] s (resumeFetch a s) := by
  unfold resumeFetch
  try dsimp only
  repeat' first
    | with_reducible exact SameExcept.refl _ _
    | ((with_reducible apply covers_intro); decide)
    | ((with_reducible apply FieldsSame.intro); intro q hq; cases q <;> first | exact absurd (by decide) hq | (dsimp only [Part.same, memByte]; done) | (dsimp only [Part.same, memByte]; exact ⟨rfl, fun _ => rfl⟩) | (dsimp only [Part.same]; exact ⟨rfl, rfl⟩))
    | with_reducible apply SameExcept.fields

theorem abandon_reach (a b c s) : SameExcept [.pm, .host, .blend] s (abandon a b c s) := by
  unfold abandon
  try dsimp only
  repeat' first
    | with_reducible exact SameExcept.refl _ _
    | ((with_reducible apply covers_intro); decide)
    | with_reducible apply SameExcept.step (endLoad_reach _ _ _)
    | with_reducible apply SameExcept.step (resumeFetch_reach _ _)

theorem drainLate_reach (a s) : SameExcept [.pm, .host, .blend] s (drainLate a s) := by
  unfold drainLate
  try dsimp only
  repeat' first
    | with_reducible exact SameExcept.refl _ _
    | ((with_reducible apply covers_intro); decide)
    | with_reducible apply SameExcept.step (abandon_reach _ _ _ _)
    | split

theorem resetSems_reach (a b s) : SameExcept [.sems, .grinders] s (resetSems a b s) := by
  unfold resetSems
  try dsimp only
  repeat' first
    | with_reducible exact SameExcept.refl _ _
    | ((with_reducible apply covers_intro); decide)
    | with_reducible apply SameExcept.step (resetLinkSems_reach _ _ _)
    | with_reducible apply SameExcept.forEach
    | ((with_reducible apply FieldsSame.intro); intro q hq; cases q <;> first | exact absurd (by decide) hq | (dsimp only [Part.same, memByte]; done) | (dsimp only [Part.same, memByte]; exact ⟨rfl, fun _ => rfl⟩) | (dsimp only [Part.same]; exact ⟨rfl, rfl⟩))
    | ((with_reducible intro _ _); try dsimp only)
    | ((with_reducible intro _); try dsimp only)
    | split
    | dsimp only
    | with_reducible apply SameExcept.fields

theorem enterNext_reach (a s) : SameExcept [.isl, .mem, .poison, .cache, .sems, .cores, .links, .grinders, .blend] s (enterNext a s) := by
  unfold enterNext
  try dsimp only
  repeat' first
    | with_reducible exact SameExcept.refl _ _
    | ((with_reducible apply covers_intro); decide)
    | with_reducible apply SameExcept.step (resetSems_reach _ _ _)
    | with_reducible apply SameExcept.step (setRegions_reach _ _ _)
    | with_reducible apply SameExcept.step (powerStructure_reach _ _)
    | with_reducible apply SameExcept.step (setModes_reach _ _ _ _)
    | with_reducible apply SameExcept.step (setFloors_reach _ _ _ _ _)
    | with_reducible apply SameExcept.step (updIsl_reach _ _ _)
    | with_reducible apply SameExcept.forEach
    | with_reducible apply SameExcept.foldl
    | with_reducible apply SameExcept.foldlFst
    | ((with_reducible apply FieldsSame.intro); intro q hq; cases q <;> first | exact absurd (by decide) hq | (dsimp only [Part.same, memByte]; done) | (dsimp only [Part.same, memByte]; exact ⟨rfl, fun _ => rfl⟩) | (dsimp only [Part.same]; exact ⟨rfl, rfl⟩))
    | ((with_reducible intro _ _); try dsimp only)
    | ((with_reducible intro _); try dsimp only)
    | split
    | dsimp only
    | with_reducible apply SameExcept.fields

theorem enterRole_reach (a b s) : SameExcept [.isl, .courier] s (enterRole a b s) := by
  unfold enterRole
  try dsimp only
  repeat' first
    | with_reducible exact SameExcept.refl _ _
    | ((with_reducible apply covers_intro); decide)
    | with_reducible apply SameExcept.step (setCourierIslands_reach _ _)
    | with_reducible apply SameExcept.step (holdDue_reach _)
    | with_reducible apply SameExcept.step (becomeManager_reach _)
    | split

theorem enterPoints_reach (a b c s) : SameExcept [.isl] s (enterPoints a b c s) := by
  unfold enterPoints
  try dsimp only
  repeat' first
    | with_reducible exact SameExcept.refl _ _
    | ((with_reducible apply covers_intro); decide)
    | with_reducible apply SameExcept.step (updIsl_reach _ _ _)
    | with_reducible apply SameExcept.forEach
    | ((with_reducible intro _ _); try dsimp only)
    | ((with_reducible intro _); try dsimp only)
    | split
    | dsimp only

theorem cleanDone_reach (a b s) : SameExcept [.isl, .pm, .mem, .poison, .cache, .host, .sems, .cores, .links, .grinders, .blend, .courier] s (cleanDone a b s) := by
  unfold cleanDone
  try dsimp only
  repeat' first
    | with_reducible exact SameExcept.refl _ _
    | ((with_reducible apply covers_intro); decide)
    | with_reducible apply SameExcept.step (abandon_reach _ _ _ _)
    | with_reducible apply SameExcept.step (setRegions_reach _ _ _)
    | with_reducible apply SameExcept.step (setLoad_reach _ _)
    | with_reducible apply SameExcept.step (enterPoints_reach _ _ _ _)
    | with_reducible apply SameExcept.step (enterRole_reach _ _ _)
    | with_reducible apply SameExcept.step (enterNext_reach _ _)
    | split

theorem resumeTarget_reach (a s) : SameExcept [.log, .pm, .host, .blend] s (resumeTarget a s) := by
  unfold resumeTarget
  try dsimp only
  repeat' first
    | with_reducible exact SameExcept.refl _ _
    | ((with_reducible apply covers_intro); decide)
    | with_reducible apply SameExcept.step (resumeFetch_reach _ _)
    | with_reducible apply SameExcept.step (logEvent_reach _ _ _ _)
    | with_reducible apply SameExcept.step (endLoad_reach _ _ _)
    | ((with_reducible apply FieldsSame.intro); intro q hq; cases q <;> first | exact absurd (by decide) hq | (dsimp only [Part.same, memByte]; done) | (dsimp only [Part.same, memByte]; exact ⟨rfl, fun _ => rfl⟩) | (dsimp only [Part.same]; exact ⟨rfl, rfl⟩))
    | split
    | with_reducible apply SameExcept.fields

/-! ### The canonical form -/

theorem inPhase_stored {s : State} {p f}
    (hf : ∀ p t, t.stored = true → (f p t).stored = true) (h : s.stored = true) : (inPhase p f s).stored = true := by
  unfold inPhase
  try dsimp only
  repeat' first
    | with_reducible assumption
    | with_reducible apply hf
    | ((with_reducible intro _ _ _ _); try dsimp only)
    | ((with_reducible intro _ _ _); try dsimp only)
    | ((with_reducible intro _ _); try dsimp only)
    | split
    | dsimp only

theorem copied_stored {s : State} (a b) (h : s.stored = true) : (copied a b s).stored = true := by
  unfold copied
  try dsimp only
  repeat' first
    | with_reducible assumption
    | with_reducible apply SameExcept.stored (rejectLoad_reach _ _ _ _) rfl
    | with_reducible apply hbmWrite_stored
    | with_reducible apply SameExcept.stored (setLoad_reach _ _) rfl
    | split
    | dsimp only
    | with_reducible apply fields_stored

theorem zeroScratch_stored {s : State} (a) (h : s.stored = true) : (zeroScratch a s).stored = true := by
  unfold zeroScratch
  dsimp only
  split
  · exact h
  · exact filter_stored _ _ rfl rfl h

theorem powerStructure_stored {s : State} (a) (h : s.stored = true) : (powerStructure a s).stored = true := by
  unfold powerStructure
  try dsimp only
  repeat' first
    | with_reducible assumption
    | with_reducible apply SameExcept.stored (powerUpIsl_reach _ _) rfl
    | with_reducible apply zeroScratch_stored
    | with_reducible apply SameExcept.stored (idleLinked_reach _ _) rfl
    | with_reducible apply SameExcept.stored (updIsl_reach _ _ _) rfl
    | with_reducible apply forEach_stored
    | ((with_reducible intro _ _ _ _); try dsimp only)
    | ((with_reducible intro _ _ _); try dsimp only)
    | ((with_reducible intro _ _); try dsimp only)

theorem applyFull_stored {s : State} (a) (h : s.stored = true) : (applyFull a s).stored = true := by
  unfold applyFull
  try dsimp only
  repeat' first
    | with_reducible assumption
    | with_reducible apply flushCaches_stored
    | with_reducible apply SameExcept.stored (beginRun_reach _ _) rfl
    | with_reducible apply powerStructure_stored
    | with_reducible apply SameExcept.stored (setModes_reach _ _ _ _) rfl
    | with_reducible apply SameExcept.stored (setFloors_reach _ _ _ _ _) rfl
    | with_reducible apply SameExcept.stored (resetLinkSems_reach _ _ _) rfl
    | with_reducible apply SameExcept.stored (setCourierIslands_reach _ _) rfl
    | with_reducible apply SameExcept.stored (setRegions_reach _ _ _) rfl
    | with_reducible apply SameExcept.stored (setLoad_reach _ _) rfl
    | with_reducible apply forEach_stored
    | ((with_reducible intro _ _ _ _); try dsimp only)
    | ((with_reducible intro _ _ _); try dsimp only)
    | ((with_reducible intro _ _); try dsimp only)
    | with_reducible apply fields_stored

theorem enterNext_stored {s : State} (a) (h : s.stored = true) : (enterNext a s).stored = true := by
  unfold enterNext
  try dsimp only
  repeat' first
    | with_reducible assumption
    | with_reducible apply SameExcept.stored (resetSems_reach _ _ _) rfl
    | with_reducible apply SameExcept.stored (setRegions_reach _ _ _) rfl
    | with_reducible apply powerStructure_stored
    | with_reducible apply SameExcept.stored (setModes_reach _ _ _ _) rfl
    | with_reducible apply SameExcept.stored (setFloors_reach _ _ _ _ _) rfl
    | with_reducible apply SameExcept.stored (updIsl_reach _ _ _) rfl
    | with_reducible apply forEach_stored
    | with_reducible apply foldl_stored
    | with_reducible apply foldlFst_stored
    | ((with_reducible intro _ _ _ _); try dsimp only)
    | ((with_reducible intro _ _ _); try dsimp only)
    | ((with_reducible intro _ _); try dsimp only)
    | split
    | dsimp only
    | with_reducible apply fields_stored

theorem cleanDone_stored {s : State} (a b) (h : s.stored = true) : (cleanDone a b s).stored = true := by
  unfold cleanDone
  try dsimp only
  repeat' first
    | with_reducible assumption
    | with_reducible apply SameExcept.stored (abandon_reach _ _ _ _) rfl
    | with_reducible apply SameExcept.stored (setRegions_reach _ _ _) rfl
    | with_reducible apply SameExcept.stored (setLoad_reach _ _) rfl
    | with_reducible apply SameExcept.stored (enterPoints_reach _ _ _ _) rfl
    | with_reducible apply SameExcept.stored (enterRole_reach _ _ _) rfl
    | with_reducible apply enterNext_stored
    | split

end Sys2Proof.Machine
end

