-- ==== Sys2Proof/Laws/PmRows.lean ====
section
/-! SUPPORT. What each operation of Machine/PmRows.lean reaches: every other part of the state is as it was (`_reach`), and memory and the
marks keep their canonical form (`_stored`). -/

namespace Sys2Proof.Machine

set_option linter.unusedTactic false
set_option linter.unreachableTactic false
set_option linter.unnecessarySeqFocus false

theorem setDue_reach (a b c s) : SameExcept [.pm] s (setDue a b c s).1 := by
  unfold setDue
  try dsimp only
  repeat' first
    | with_reducible exact SameExcept.refl _ _
    | ((with_reducible apply covers_intro); decide)
    | with_reducible apply SameExcept.step (updSlot_reach _ _ _)
    | dsimp only

theorem writeHost_reach (a b c d s) : SameExcept [.isl, .mem, .poison, .xfers, .host, .qs] s (writeHost a b c d s) := by
  unfold writeHost
  try dsimp only
  repeat' first
    | with_reducible exact SameExcept.refl _ _
    | ((with_reducible apply covers_intro); decide)
    | with_reducible apply SameExcept.step (sendWrite_reach _ _)
    | with_reducible apply SameExcept.forEach
    | ((with_reducible intro _ _); try dsimp only)
    | ((with_reducible intro _); try dsimp only)

theorem quote_reach (a b c s) : SameExcept [.isl, .pm, .mem, .poison, .xfers, .host, .qs] s (quote a b c s).1 := by
  unfold quote
  try dsimp only
  repeat' first
    | with_reducible exact SameExcept.refl _ _
    | ((with_reducible apply covers_intro); decide)
    | with_reducible apply SameExcept.step (setDue_reach _ _ _ _)
    | with_reducible apply SameExcept.step (writeHost_reach _ _ _ _ _)
    | split
    | dsimp only

theorem ownerRegister_reach (a b c d s) : SameExcept [.log, .pm] s (ownerRegister a b c d s).1 := by
  simp only [ownerRegister]
  try dsimp only
  repeat' first
    | with_reducible exact SameExcept.refl _ _
    | ((with_reducible apply covers_intro); decide)
    | with_reducible apply SameExcept.step (setDue_reach _ _ _ _)
    | with_reducible apply SameExcept.step (logEvent_reach _ _ _ _)
    | with_reducible apply SameExcept.step (updRecord_reach _ _)
    | split
    | dsimp only

theorem ownerTransfer_reach (a b c d s) : SameExcept [.log, .pm] s (ownerTransfer a b c d s).1 := by
  simp only [ownerTransfer]
  try dsimp only
  repeat' first
    | with_reducible exact SameExcept.refl _ _
    | ((with_reducible apply covers_intro); decide)
    | with_reducible apply SameExcept.step (setDue_reach _ _ _ _)
    | with_reducible apply SameExcept.step (logEvent_reach _ _ _ _)
    | with_reducible apply SameExcept.step (updRecord_reach _ _)
    | split
    | dsimp only

theorem carrierLoad_reach (a b c s) : SameExcept [.pm] s (carrierLoad a b c s).1 := by
  unfold carrierLoad
  try dsimp only
  repeat' first
    | with_reducible exact SameExcept.refl _ _
    | ((with_reducible apply covers_intro); decide)
    | ((with_reducible apply FieldsSame.intro); intro q hq; cases q <;> first | exact absurd (by decide) hq | (dsimp only [Part.same, memByte]; done) | (dsimp only [Part.same, memByte]; exact ⟨rfl, fun _ => rfl⟩) | (dsimp only [Part.same]; exact ⟨rfl, rfl⟩))
    | split
    | dsimp only
    | with_reducible apply SameExcept.fields

theorem startCarrier_reach (s) : SameExcept [.power, .isl, .pm, .host] s (startCarrier s) := by
  unfold startCarrier
  try dsimp only
  repeat' first
    | with_reducible exact SameExcept.refl _ _
    | ((with_reducible apply covers_intro); decide)
    | with_reducible apply SameExcept.step (updIsl_reach _ _ _)
    | with_reducible apply SameExcept.step (carrierTakesMail_reach _)
    | with_reducible apply SameExcept.forEach
    | ((with_reducible apply FieldsSame.intro); intro q hq; cases q <;> first | exact absurd (by decide) hq | (dsimp only [Part.same, memByte]; done) | (dsimp only [Part.same, memByte]; exact ⟨rfl, fun _ => rfl⟩) | (dsimp only [Part.same]; exact ⟨rfl, rfl⟩))
    | ((with_reducible intro _ _); try dsimp only)
    | ((with_reducible intro _); try dsimp only)
    | with_reducible apply SameExcept.fields

theorem carrierLoaded_reach (a s) : SameExcept [.mode, .log, .plan, .power, .isl, .pm, .mem, .poison, .cache, .mc, .host] s (carrierLoaded a s) := by
  unfold carrierLoaded
  try dsimp only
  repeat' first
    | with_reducible exact SameExcept.refl _ _
    | ((with_reducible apply covers_intro); decide)
    | with_reducible apply SameExcept.step (finishCall_reach _ _ _ _)
    | with_reducible apply SameExcept.step (hbmWrite_reach _ _ _ _ _)
    | with_reducible apply SameExcept.step (startCarrier_reach _)
    | ((with_reducible apply FieldsSame.intro); intro q hq; cases q <;> first | exact absurd (by decide) hq | (dsimp only [Part.same, memByte]; done) | (dsimp only [Part.same, memByte]; exact ⟨rfl, fun _ => rfl⟩) | (dsimp only [Part.same]; exact ⟨rfl, rfl⟩))
    | split
    | dsimp only
    | with_reducible apply SameExcept.fields

theorem claimContexts_reach (a b s) : SameExcept [.pm] s (claimContexts a b s).1 := by
  unfold claimContexts
  try dsimp only
  repeat' first
    | with_reducible exact SameExcept.refl _ _
    | ((with_reducible apply covers_intro); decide)
    | with_reducible apply SameExcept.foldl
    | with_reducible apply SameExcept.foldlFst
    | ((with_reducible apply FieldsSame.intro); intro q hq; cases q <;> first | exact absurd (by decide) hq | (dsimp only [Part.same, memByte]; done) | (dsimp only [Part.same, memByte]; exact ⟨rfl, fun _ => rfl⟩) | (dsimp only [Part.same]; exact ⟨rfl, rfl⟩))
    | ((with_reducible intro _ _); try dsimp only)
    | ((with_reducible intro _); try dsimp only)
    | split
    | dsimp only
    | with_reducible apply SameExcept.fields

theorem releaseNow_reach (a b s) : SameExcept [.pm] s (releaseNow a b s).1 := by
  unfold releaseNow
  try dsimp only
  repeat' first
    | with_reducible exact SameExcept.refl _ _
    | ((with_reducible apply covers_intro); decide)
    | with_reducible apply SameExcept.foldl
    | with_reducible apply SameExcept.foldlFst
    | ((with_reducible apply FieldsSame.intro); intro q hq; cases q <;> first | exact absurd (by decide) hq | (dsimp only [Part.same, memByte]; done) | (dsimp only [Part.same, memByte]; exact ⟨rfl, fun _ => rfl⟩) | (dsimp only [Part.same]; exact ⟨rfl, rfl⟩))
    | ((with_reducible intro _ _); try dsimp only)
    | ((with_reducible intro _); try dsimp only)
    | split
    | dsimp only
    | with_reducible apply SameExcept.fields

theorem releaseContexts_reach (a b c s) : SameExcept [.pm] s (releaseContexts a b c s).1 := by
  unfold releaseContexts
  try dsimp only
  repeat' first
    | with_reducible exact SameExcept.refl _ _
    | ((with_reducible apply covers_intro); decide)
    | with_reducible apply SameExcept.step (updSlot_reach _ _ _)
    | with_reducible apply SameExcept.step (releaseNow_reach _ _ _)
    | split
    | dsimp only

theorem queueContext_reach (a b s) : SameExcept [.qs] s (queueContext a b s).1 := by
  unfold queueContext
  try dsimp only
  repeat' first
    | with_reducible exact SameExcept.refl _ _
    | ((with_reducible apply covers_intro); decide)
    | with_reducible apply SameExcept.step (updQ_reach _ _ _)
    | split
    | dsimp only

theorem ringSet_reach (a s) : SameExcept [.qs] s (ringSet a s).1 := by
  unfold ringSet
  try dsimp only
  repeat' first
    | with_reducible exact SameExcept.refl _ _
    | ((with_reducible apply covers_intro); decide)
    | with_reducible apply SameExcept.step (updQ_reach _ _ _)
    | with_reducible apply SameExcept.forEach
    | ((with_reducible intro _ _); try dsimp only)
    | ((with_reducible intro _); try dsimp only)
    | split
    | dsimp only

theorem ringClear_reach (a s) : SameExcept [.qs] s (ringClear a s).1 := by
  unfold ringClear
  try dsimp only
  repeat' first
    | with_reducible exact SameExcept.refl _ _
    | ((with_reducible apply covers_intro); decide)
    | with_reducible apply SameExcept.step (updQ_reach _ _ _)
    | with_reducible apply SameExcept.forEach
    | ((with_reducible intro _ _); try dsimp only)
    | ((with_reducible intro _); try dsimp only)
    | split
    | dsimp only

theorem savePool_reach (a s) : SameExcept [.qs] s (savePool a s).1 := by
  unfold savePool
  try dsimp only
  repeat' first
    | with_reducible exact SameExcept.refl _ _
    | ((with_reducible apply covers_intro); decide)
    | ((with_reducible apply FieldsSame.intro); intro q hq; cases q <;> first | exact absurd (by decide) hq | (dsimp only [Part.same, memByte]; done) | (dsimp only [Part.same, memByte]; exact ⟨rfl, fun _ => rfl⟩) | (dsimp only [Part.same]; exact ⟨rfl, rfl⟩))
    | split
    | dsimp only
    | with_reducible apply SameExcept.fields

theorem abortInv_reach (a b s) : SameExcept [.isl, .xfers, .qs, .sems, .cores, .links, .grinders] s (abortInv a b s).1 := by
  unfold abortInv
  try dsimp only
  repeat' first
    | with_reducible exact SameExcept.refl _ _
    | ((with_reducible apply covers_intro); decide)
    | with_reducible apply SameExcept.step (endEarly_reach _ _ _ _)
    | with_reducible apply SameExcept.step (abortBatches_reach _ _)
    | split
    | dsimp only

theorem keyInstall_reach (a b c s) : SameExcept [.pm] s (keyInstall a b c s).1 := by
  unfold keyInstall
  try dsimp only
  repeat' first
    | with_reducible exact SameExcept.refl _ _
    | ((with_reducible apply covers_intro); decide)
    | with_reducible apply SameExcept.step (setDue_reach _ _ _ _)
    | ((with_reducible apply FieldsSame.intro); intro q hq; cases q <;> first | exact absurd (by decide) hq | (dsimp only [Part.same, memByte]; done) | (dsimp only [Part.same, memByte]; exact ⟨rfl, fun _ => rfl⟩) | (dsimp only [Part.same]; exact ⟨rfl, rfl⟩))
    | split
    | dsimp only
    | with_reducible apply SameExcept.fields

theorem keyBind_reach (a b s) : SameExcept [.pm] s (keyBind a b s).1 := by
  unfold keyBind
  try dsimp only
  repeat' first
    | with_reducible exact SameExcept.refl _ _
    | ((with_reducible apply covers_intro); decide)
    | ((with_reducible apply FieldsSame.intro); intro q hq; cases q <;> first | exact absurd (by decide) hq | (dsimp only [Part.same, memByte]; done) | (dsimp only [Part.same, memByte]; exact ⟨rfl, fun _ => rfl⟩) | (dsimp only [Part.same]; exact ⟨rfl, rfl⟩))
    | split
    | dsimp only
    | with_reducible apply SameExcept.fields

theorem keyRemove_reach (a b s) : SameExcept [.pm] s (keyRemove a b s).1 := by
  unfold keyRemove
  try dsimp only
  repeat' first
    | with_reducible exact SameExcept.refl _ _
    | ((with_reducible apply covers_intro); decide)
    | ((with_reducible apply FieldsSame.intro); intro q hq; cases q <;> first | exact absurd (by decide) hq | (dsimp only [Part.same, memByte]; done) | (dsimp only [Part.same, memByte]; exact ⟨rfl, fun _ => rfl⟩) | (dsimp only [Part.same]; exact ⟨rfl, rfl⟩))
    | split
    | dsimp only
    | with_reducible apply SameExcept.fields

theorem exportWindow_reach (a b s) : SameExcept [.courier] s (exportWindow a b s).1 := by
  unfold exportWindow
  try dsimp only
  repeat' first
    | with_reducible exact SameExcept.refl _ _
    | ((with_reducible apply covers_intro); decide)
    | ((with_reducible apply FieldsSame.intro); intro q hq; cases q <;> first | exact absurd (by decide) hq | (dsimp only [Part.same, memByte]; done) | (dsimp only [Part.same, memByte]; exact ⟨rfl, fun _ => rfl⟩) | (dsimp only [Part.same]; exact ⟨rfl, rfl⟩))
    | split
    | dsimp only
    | with_reducible apply SameExcept.fields

theorem putGroup_reach (a b s) : SameExcept [.courier] s (putGroup a b s) := by
  unfold putGroup
  try dsimp only
  repeat' first
    | with_reducible exact SameExcept.refl _ _
    | ((with_reducible apply covers_intro); decide)
    | ((with_reducible apply FieldsSame.intro); intro q hq; cases q <;> first | exact absurd (by decide) hq | (dsimp only [Part.same, memByte]; done) | (dsimp only [Part.same, memByte]; exact ⟨rfl, fun _ => rfl⟩) | (dsimp only [Part.same]; exact ⟨rfl, rfl⟩))
    | split
    | dsimp only
    | with_reducible apply SameExcept.fields

theorem groupWrite_reach (a b s) : SameExcept [.courier] s (groupWrite a b s).1 := by
  unfold groupWrite
  try dsimp only
  repeat' first
    | with_reducible exact SameExcept.refl _ _
    | ((with_reducible apply covers_intro); decide)
    | with_reducible apply SameExcept.step (putGroup_reach _ _ _)
    | split
    | dsimp only

theorem groupDelete_reach (a b s) : SameExcept [.courier] s (groupDelete a b s).1 := by
  unfold groupDelete
  try dsimp only
  repeat' first
    | with_reducible exact SameExcept.refl _ _
    | ((with_reducible apply covers_intro); decide)
    | with_reducible apply SameExcept.step (putGroup_reach _ _ _)
    | split
    | dsimp only

theorem loseRow_reach (a s) : SameExcept [.freeCtr, .mem] s (loseRow a s) := by
  unfold loseRow
  try dsimp only
  repeat' first
    | with_reducible exact SameExcept.refl _ _
    | ((with_reducible apply covers_intro); decide)
    | with_reducible apply SameExcept.step (drawFree_reach _)
    | with_reducible apply SameExcept.step (setMemByte_reach _ _ _)
    | with_reducible apply SameExcept.forEach
    | ((with_reducible intro _ _); try dsimp only)
    | ((with_reducible intro _); try dsimp only)
    | split
    | dsimp only

theorem setRepairs_reach (a b s) : SameExcept [.pm, .mc] s (setRepairs a b s) := by
  unfold setRepairs
  try dsimp only
  repeat' first
    | with_reducible exact SameExcept.refl _ _
    | ((with_reducible apply covers_intro); decide)
    | with_reducible apply SameExcept.step (updRecord_reach _ _)
    | with_reducible apply SameExcept.step (updMc_reach _ _ _)

theorem repair_reach (a s) : SameExcept [.freeCtr, .log, .pm, .mem, .mc] s (repair a s).1 := by
  unfold repair
  try dsimp only
  repeat' first
    | with_reducible exact SameExcept.refl _ _
    | ((with_reducible apply covers_intro); decide)
    | with_reducible apply SameExcept.step (logEvent_reach _ _ _ _)
    | with_reducible apply SameExcept.step (recordFix_reach _ _)
    | with_reducible apply SameExcept.step (setMc_reach _ _ _)
    | with_reducible apply SameExcept.step (loseRow_reach _ _)
    | with_reducible apply SameExcept.step (setRepairs_reach _ _ _)
    | split
    | dsimp only

theorem hbmRepair_reach (a b s) : SameExcept [.freeCtr, .log, .pm, .mem, .mc] s (hbmRepair a b s).1 := by
  unfold hbmRepair
  try dsimp only
  repeat' first
    | with_reducible exact SameExcept.refl _ _
    | ((with_reducible apply covers_intro); decide)
    | with_reducible apply SameExcept.step (repair_reach _ _)
    | with_reducible apply SameExcept.step (setDue_reach _ _ _ _)
    | split
    | dsimp only

theorem islandRetire_reach (a s) : SameExcept [.log, .plan, .isl, .pm, .cache, .xfers, .qs, .sems, .cores, .links, .grinders] s (islandRetire a s).1 := by
  unfold islandRetire
  try dsimp only
  repeat' first
    | with_reducible exact SameExcept.refl _ _
    | ((with_reducible apply covers_intro); decide)
    | with_reducible apply SameExcept.step (retireIsland_reach _ _ _)
    | with_reducible apply SameExcept.step (retireWay_reach _ _ _ _)
    | split
    | dsimp only

theorem callDone_reach (a s) : SameExcept [.pm, .host] s (callDone a s) := by
  unfold callDone
  try dsimp only
  repeat' first
    | with_reducible exact SameExcept.refl _ _
    | ((with_reducible apply covers_intro); decide)
    | with_reducible apply SameExcept.step (finishCall_reach _ _ _ _)
    | with_reducible apply SameExcept.step (releaseNow_reach _ _ _)
    | split
    | dsimp only

theorem markRetired_reach (s) : SameExcept [.isl, .cache] s (markRetired s) := by
  unfold markRetired
  try dsimp only
  repeat' first
    | with_reducible exact SameExcept.refl _ _
    | ((with_reducible apply covers_intro); decide)
    | with_reducible apply SameExcept.step (updIsl_reach _ _ _)
    | with_reducible apply SameExcept.step (setCache_reach _ _ _)
    | with_reducible apply SameExcept.forEach
    | ((with_reducible intro _ _); try dsimp only)
    | ((with_reducible intro _); try dsimp only)

theorem bootStart_reach (a s) : SameExcept [.log, .plan, .power, .isl, .pm, .cache] s (bootStart a s) := by
  unfold bootStart
  try dsimp only
  repeat' first
    | with_reducible exact SameExcept.refl _ _
    | ((with_reducible apply covers_intro); decide)
    | with_reducible apply SameExcept.step (logEvent_reach _ _ _ _)
    | with_reducible apply SameExcept.step (updIsl_reach _ _ _)
    | with_reducible apply SameExcept.step (markRetired_reach _)
    | with_reducible apply SameExcept.forEach
    | ((with_reducible apply FieldsSame.intro); intro q hq; cases q <;> first | exact absurd (by decide) hq | (dsimp only [Part.same, memByte]; done) | (dsimp only [Part.same, memByte]; exact ⟨rfl, fun _ => rfl⟩) | (dsimp only [Part.same]; exact ⟨rfl, rfl⟩))
    | ((with_reducible intro _ _); try dsimp only)
    | ((with_reducible intro _); try dsimp only)
    | split
    | dsimp only
    | with_reducible apply SameExcept.fields

theorem trainLane_reach (a b c s) : SameExcept [.freeCtr, .log, .isl, .pm, .mc, .blend] s (trainLane a b c s) := by
  unfold trainLane
  try dsimp only
  repeat' first
    | with_reducible exact SameExcept.refl _ _
    | ((with_reducible apply covers_intro); decide)
    | with_reducible apply SameExcept.step (stackOut_reach _ _)
    | with_reducible apply SameExcept.step (logEvent_reach _ _ _ _)
    | with_reducible apply SameExcept.step (recordFix_reach _ _)
    | with_reducible apply SameExcept.step (setMc_reach _ _ _)
    | split
    | dsimp only

theorem trainStack_reach (a b s) : SameExcept [.freeCtr, .log, .isl, .pm, .mc, .blend] s (trainStack a b s) := by
  unfold trainStack
  try dsimp only
  repeat' first
    | with_reducible exact SameExcept.refl _ _
    | ((with_reducible apply covers_intro); decide)
    | with_reducible apply SameExcept.step (updMc_reach _ _ _)
    | with_reducible apply SameExcept.step (trainLane_reach _ _ _ _)
    | with_reducible apply SameExcept.step (stackOut_reach _ _)
    | with_reducible apply SameExcept.step (updRecord_reach _ _)
    | with_reducible apply SameExcept.forEach
    | with_reducible apply SameExcept.foldl
    | with_reducible apply SameExcept.foldlFst
    | ((with_reducible intro _ _); try dsimp only)
    | ((with_reducible intro _); try dsimp only)
    | split
    | dsimp only

theorem bootDone_reach (a b s) : SameExcept [.freeCtr, .mode, .log, .power, .isl, .pm, .mem, .poison, .cache, .mc, .xfers, .net, .qs, .cores, .links, .grinders, .blend, .courier] s (bootDone a b s) := by
  unfold bootDone
  try dsimp only
  repeat' first
    | with_reducible exact SameExcept.refl _ _
    | ((with_reducible apply covers_intro); decide)
    | with_reducible apply SameExcept.step (enterFaulted_reach _ _)
    | with_reducible apply SameExcept.step (logEvent_reach _ _ _ _)
    | with_reducible apply SameExcept.step (trainStack_reach _ _ _)
    | with_reducible apply SameExcept.step (updMc_reach _ _ _)
    | with_reducible apply SameExcept.forEach
    | ((with_reducible apply FieldsSame.intro); intro q hq; cases q <;> first | exact absurd (by decide) hq | (dsimp only [Part.same, memByte]; done) | (dsimp only [Part.same, memByte]; exact ⟨rfl, fun _ => rfl⟩) | (dsimp only [Part.same]; exact ⟨rfl, rfl⟩))
    | ((with_reducible intro _ _); try dsimp only)
    | ((with_reducible intro _); try dsimp only)
    | split
    | dsimp only
    | with_reducible apply SameExcept.fields

/-! ### The canonical form -/

theorem writeHost_stored {s : State} (a b c d) (h : s.stored = true) : (writeHost a b c d s).stored = true := by
  unfold writeHost
  try dsimp only
  repeat' first
    | with_reducible assumption
    | with_reducible apply sendWrite_stored
    | with_reducible apply forEach_stored
    | ((with_reducible intro _ _ _ _); try dsimp only)
    | ((with_reducible intro _ _ _); try dsimp only)
    | ((with_reducible intro _ _); try dsimp only)

theorem quote_stored {s : State} (a b c) (h : s.stored = true) : (quote a b c s).1.stored = true := by
  unfold quote
  try dsimp only
  repeat' first
    | with_reducible assumption
    | with_reducible apply SameExcept.stored (setDue_reach _ _ _ _) rfl
    | with_reducible apply writeHost_stored
    | split
    | dsimp only

theorem carrierLoaded_stored {s : State} (a) (h : s.stored = true) : (carrierLoaded a s).stored = true := by
  unfold carrierLoaded
  try dsimp only
  repeat' first
    | with_reducible assumption
    | with_reducible apply SameExcept.stored (finishCall_reach _ _ _ _) rfl
    | with_reducible apply hbmWrite_stored
    | with_reducible apply SameExcept.stored (startCarrier_reach _) rfl
    | split
    | dsimp only
    | with_reducible apply fields_stored

theorem loseRow_stored {s : State} (a) (h : s.stored = true) : (loseRow a s).stored = true := by
  unfold loseRow
  try dsimp only
  repeat' first
    | with_reducible assumption
    | with_reducible apply SameExcept.stored (drawFree_reach _) rfl
    | with_reducible apply setMemByte_stored
    | with_reducible apply forEach_stored
    | ((with_reducible intro _ _ _ _); try dsimp only)
    | ((with_reducible intro _ _ _); try dsimp only)
    | ((with_reducible intro _ _); try dsimp only)
    | split
    | dsimp only

theorem repair_stored {s : State} (a) (h : s.stored = true) : (repair a s).1.stored = true := by
  unfold repair
  try dsimp only
  repeat' first
    | with_reducible assumption
    | with_reducible apply SameExcept.stored (logEvent_reach _ _ _ _) rfl
    | with_reducible apply SameExcept.stored (recordFix_reach _ _) rfl
    | with_reducible apply SameExcept.stored (setMc_reach _ _ _) rfl
    | with_reducible apply loseRow_stored
    | with_reducible apply SameExcept.stored (setRepairs_reach _ _ _) rfl
    | split
    | dsimp only

theorem hbmRepair_stored {s : State} (a b) (h : s.stored = true) : (hbmRepair a b s).1.stored = true := by
  unfold hbmRepair
  try dsimp only
  repeat' first
    | with_reducible assumption
    | with_reducible apply repair_stored
    | with_reducible apply SameExcept.stored (setDue_reach _ _ _ _) rfl
    | split
    | dsimp only

theorem bootDone_stored {s : State} (a b) (h : s.stored = true) : (bootDone a b s).stored = true := by
  unfold bootDone
  try dsimp only
  repeat' first
    | with_reducible assumption
    | with_reducible apply enterFaulted_stored
    | with_reducible apply SameExcept.stored (logEvent_reach _ _ _ _) rfl
    | with_reducible apply SameExcept.stored (trainStack_reach _ _ _) rfl
    | with_reducible apply SameExcept.stored (updMc_reach _ _ _) rfl
    | with_reducible apply forEach_stored
    | ((with_reducible intro _ _ _ _); try dsimp only)
    | ((with_reducible intro _ _ _); try dsimp only)
    | ((with_reducible intro _ _); try dsimp only)
    | split
    | dsimp only
    | with_reducible apply fields_stored

end Sys2Proof.Machine
end

