-- ==== Sys2Proof/Laws/Power.lean ====
section
/-! SUPPORT. What each operation of Machine/Power.lean reaches: every other part of the state is as it was (`_reach`), and memory and the
marks keep their canonical form (`_stored`). -/

namespace Sys2Proof.Machine

set_option linter.unusedTactic false
set_option linter.unreachableTactic false
set_option linter.unnecessarySeqFocus false

theorem stopModule_reach (s) : SameExcept [.freeCtr, .devTime, .mode, .log, .plan, .power, .isl, .pm, .mem, .poison, .cache, .mc, .seg, .xfers, .net, .host, .qs, .sems, .cores, .links, .selects, .grinders, .stores, .blend, .courier, .answers] s (stopModule s) := by
  unfold stopModule
  try dsimp only
  repeat' first
    | with_reducible exact SameExcept.refl _ _
    | ((with_reducible apply covers_intro); decide)
    | with_reducible apply SameExcept.step (flushCaches_reach _)
    | ((with_reducible apply FieldsSame.intro); intro q hq; cases q <;> first | exact absurd (by decide) hq | (dsimp only [Part.same, memByte]; done) | (dsimp only [Part.same, memByte]; exact ⟨rfl, fun _ => rfl⟩) | (dsimp only [Part.same]; exact ⟨rfl, rfl⟩))
    | split
    | with_reducible apply SameExcept.fields

theorem triggerReset_reach (a s) : SameExcept [.freeCtr, .devTime, .mode, .log, .plan, .power, .isl, .pm, .mem, .poison, .cache, .mc, .seg, .xfers, .net, .host, .qs, .sems, .cores, .links, .selects, .grinders, .stores, .blend, .courier, .answers] s (triggerReset a s) := by
  unfold triggerReset
  try dsimp only
  repeat' first
    | with_reducible exact SameExcept.refl _ _
    | ((with_reducible apply covers_intro); decide)
    | with_reducible apply SameExcept.step (stopModule_reach _)
    | ((with_reducible apply FieldsSame.intro); intro q hq; cases q <;> first | exact absurd (by decide) hq | (dsimp only [Part.same, memByte]; done) | (dsimp only [Part.same, memByte]; exact ⟨rfl, fun _ => rfl⟩) | (dsimp only [Part.same]; exact ⟨rfl, rfl⟩))
    | split
    | with_reducible apply SameExcept.fields

theorem startBoot_reach (a s) : SameExcept [.mode, .power] s (startBoot a s) := by
  unfold startBoot
  try dsimp only
  repeat' first
    | with_reducible exact SameExcept.refl _ _
    | ((with_reducible apply covers_intro); decide)
    | ((with_reducible apply FieldsSame.intro); intro q hq; cases q <;> first | exact absurd (by decide) hq | (dsimp only [Part.same, memByte]; done) | (dsimp only [Part.same, memByte]; exact ⟨rfl, fun _ => rfl⟩) | (dsimp only [Part.same]; exact ⟨rfl, rfl⟩))
    | with_reducible apply SameExcept.fields

theorem resetBoot_reach (s) : SameExcept [.mode, .power] s (resetBoot s) := by
  unfold resetBoot
  try dsimp only
  repeat' first
    | with_reducible exact SameExcept.refl _ _
    | ((with_reducible apply covers_intro); decide)
    | with_reducible apply SameExcept.step (startBoot_reach _ _)
    | split
    | dsimp only

theorem supplyLost_reach (s) : SameExcept [.freeCtr, .devTime, .mode, .log, .plan, .power, .isl, .pm, .mem, .poison, .cache, .mc, .seg, .xfers, .net, .host, .qs, .sems, .cores, .links, .selects, .grinders, .stores, .blend, .courier, .answers] s (supplyLost s) := by
  unfold supplyLost
  try dsimp only
  repeat' first
    | with_reducible exact SameExcept.refl _ _
    | ((with_reducible apply covers_intro); decide)
    | ((with_reducible apply FieldsSame.intro); intro q hq; cases q <;> first | exact absurd (by decide) hq | (dsimp only [Part.same, memByte]; done) | (dsimp only [Part.same, memByte]; exact ⟨rfl, fun _ => rfl⟩) | (dsimp only [Part.same]; exact ⟨rfl, rfl⟩))
    | with_reducible apply SameExcept.fields

theorem sampleMv_reach (a s) : SameExcept [.power] s (sampleMv a s) := by
  unfold sampleMv
  try dsimp only
  repeat' first
    | with_reducible exact SameExcept.refl _ _
    | ((with_reducible apply covers_intro); decide)
    | ((with_reducible apply FieldsSame.intro); intro q hq; cases q <;> first | exact absurd (by decide) hq | (dsimp only [Part.same, memByte]; done) | (dsimp only [Part.same, memByte]; exact ⟨rfl, fun _ => rfl⟩) | (dsimp only [Part.same]; exact ⟨rfl, rfl⟩))
    | split
    | with_reducible apply SameExcept.fields

theorem supplyWarning_reach (a s) : SameExcept [.power, .isl] s (supplyWarning a s) := by
  unfold supplyWarning
  try dsimp only
  repeat' first
    | with_reducible exact SameExcept.refl _ _
    | ((with_reducible apply covers_intro); decide)
    | with_reducible apply SameExcept.step (sampleMv_reach _ _)
    | ((with_reducible apply FieldsSame.intro); intro q hq; cases q <;> first | exact absurd (by decide) hq | (dsimp only [Part.same, memByte]; done) | (dsimp only [Part.same, memByte]; exact ⟨rfl, fun _ => rfl⟩) | (dsimp only [Part.same]; exact ⟨rfl, rfl⟩))
    | split
    | dsimp only
    | with_reducible apply SameExcept.fields

theorem supplyClear_reach (a s) : SameExcept [.log, .plan, .power] s (supplyClear a s) := by
  unfold supplyClear
  try dsimp only
  repeat' first
    | with_reducible exact SameExcept.refl _ _
    | ((with_reducible apply covers_intro); decide)
    | with_reducible apply SameExcept.step (sampleMv_reach _ _)
    | with_reducible apply SameExcept.step (logEvent_reach _ _ _ _)
    | ((with_reducible apply FieldsSame.intro); intro q hq; cases q <;> first | exact absurd (by decide) hq | (dsimp only [Part.same, memByte]; done) | (dsimp only [Part.same, memByte]; exact ⟨rfl, fun _ => rfl⟩) | (dsimp only [Part.same]; exact ⟨rfl, rfl⟩))
    | split
    | dsimp only
    | with_reducible apply SameExcept.fields

theorem supplyFalls_reach (a s) : SameExcept [.freeCtr, .devTime, .mode, .log, .plan, .power, .isl, .pm, .mem, .poison, .cache, .mc, .seg, .xfers, .net, .host, .qs, .sems, .cores, .links, .selects, .grinders, .stores, .blend, .courier, .answers] s (supplyFalls a s) := by
  unfold supplyFalls
  try dsimp only
  repeat' first
    | with_reducible exact SameExcept.refl _ _
    | ((with_reducible apply covers_intro); decide)
    | with_reducible apply SameExcept.step (sampleMv_reach _ _)
    | with_reducible apply SameExcept.step (stopModule_reach _)
    | ((with_reducible apply FieldsSame.intro); intro q hq; cases q <;> first | exact absurd (by decide) hq | (dsimp only [Part.same, memByte]; done) | (dsimp only [Part.same, memByte]; exact ⟨rfl, fun _ => rfl⟩) | (dsimp only [Part.same]; exact ⟨rfl, rfl⟩))
    | split
    | with_reducible apply SameExcept.fields

theorem supplyBack_reach (a s) : SameExcept [.mode, .power] s (supplyBack a s) := by
  unfold supplyBack
  try dsimp only
  repeat' first
    | with_reducible exact SameExcept.refl _ _
    | ((with_reducible apply covers_intro); decide)
    | with_reducible apply SameExcept.step (startBoot_reach _ _)
    | with_reducible apply SameExcept.step (sampleMv_reach _ _)
    | split

theorem powerGood_reach (s) : SameExcept [.devTime, .mode, .power, .isl] s (powerGood s) := by
  unfold powerGood
  try dsimp only
  repeat' first
    | with_reducible exact SameExcept.refl _ _
    | ((with_reducible apply covers_intro); decide)
    | with_reducible apply SameExcept.step (updIsl_reach _ _ _)
    | ((with_reducible apply FieldsSame.intro); intro q hq; cases q <;> first | exact absurd (by decide) hq | (dsimp only [Part.same, memByte]; done) | (dsimp only [Part.same, memByte]; exact ⟨rfl, fun _ => rfl⟩) | (dsimp only [Part.same]; exact ⟨rfl, rfl⟩))
    | split
    | with_reducible apply SameExcept.fields

theorem pinLow_reach (s) : SameExcept [.freeCtr, .devTime, .mode, .log, .plan, .power, .isl, .pm, .mem, .poison, .cache, .mc, .seg, .xfers, .net, .host, .qs, .sems, .cores, .links, .selects, .grinders, .stores, .blend, .courier, .answers] s (pinLow s) := by
  unfold pinLow
  try dsimp only
  repeat' first
    | with_reducible exact SameExcept.refl _ _
    | ((with_reducible apply covers_intro); decide)
    | with_reducible apply SameExcept.step (triggerReset_reach _ _)
    | ((with_reducible apply FieldsSame.intro); intro q hq; cases q <;> first | exact absurd (by decide) hq | (dsimp only [Part.same, memByte]; done) | (dsimp only [Part.same, memByte]; exact ⟨rfl, fun _ => rfl⟩) | (dsimp only [Part.same]; exact ⟨rfl, rfl⟩))
    | with_reducible apply SameExcept.fields

theorem railFault_reach (s) : SameExcept [.freeCtr, .devTime, .mode, .log, .plan, .power, .isl, .pm, .mem, .poison, .cache, .mc, .seg, .xfers, .net, .host, .qs, .sems, .cores, .links, .selects, .grinders, .stores, .blend, .courier, .answers] s (railFault s) := by
  unfold railFault
  try dsimp only
  repeat' first
    | with_reducible exact SameExcept.refl _ _
    | ((with_reducible apply covers_intro); decide)
    | with_reducible apply SameExcept.step (enterFaulted_reach _ _)
    | with_reducible apply SameExcept.step (triggerReset_reach _ _)
    | ((with_reducible apply FieldsSame.intro); intro q hq; cases q <;> first | exact absurd (by decide) hq | (dsimp only [Part.same, memByte]; done) | (dsimp only [Part.same, memByte]; exact ⟨rfl, fun _ => rfl⟩) | (dsimp only [Part.same]; exact ⟨rfl, rfl⟩))
    | split
    | with_reducible apply SameExcept.fields

theorem sramFault_reach (a s) : SameExcept [.freeCtr, .devTime, .mode, .log, .plan, .power, .isl, .pm, .mem, .poison, .cache, .mc, .seg, .xfers, .net, .host, .qs, .sems, .cores, .links, .selects, .grinders, .stores, .blend, .courier, .answers] s (sramFault a s) := by
  unfold sramFault
  try dsimp only
  repeat' first
    | with_reducible exact SameExcept.refl _ _
    | ((with_reducible apply covers_intro); decide)
    | with_reducible apply SameExcept.step (triggerReset_reach _ _)
    | with_reducible apply SameExcept.step (logEvent_reach _ _ _ _)
    | split

theorem writePwr_reach {ps : List Part} {s0 s : State} {a w m f}
    (hf : ∀ t, SameExcept ps t (f t)) (hc : covers ps [.power] = true) (h0 : SameExcept ps s0 s) : SameExcept ps s0 (writePwr a w m f s) := by
  refine h0.trans ?_
  unfold writePwr
  try dsimp only
  repeat' first
    | with_reducible exact SameExcept.refl _ _
    | ((with_reducible apply covers_intro); decide)
    | with_reducible apply (hf _).after
    | exact covers_trans hc (by decide)
    | with_reducible refine FieldsSame.weaken (qs := [.power]) ?_ hc
    | ((with_reducible apply FieldsSame.intro); intro q hq; cases q <;> first | exact absurd (by decide) hq | (dsimp only [Part.same, memByte]; done) | (dsimp only [Part.same, memByte]; exact ⟨rfl, fun _ => rfl⟩) | (dsimp only [Part.same]; exact ⟨rfl, rfl⟩))
    | ((with_reducible intro _ _); try dsimp only)
    | ((with_reducible intro _); try dsimp only)
    | split
    | dsimp only
    | with_reducible apply SameExcept.fields

theorem discardCarrierCalls_reach (s) : SameExcept [.pm] s (discardCarrierCalls s) := by
  unfold discardCarrierCalls
  try dsimp only
  repeat' first
    | with_reducible exact SameExcept.refl _ _
    | ((with_reducible apply covers_intro); decide)
    | with_reducible apply SameExcept.step (updSlot_reach _ _ _)
    | with_reducible apply SameExcept.forEach
    | ((with_reducible intro _ _); try dsimp only)
    | ((with_reducible intro _); try dsimp only)
    | split

theorem measureAndStart_reach (s) : SameExcept [.power, .isl, .pm, .host] s (measureAndStart s) := by
  unfold measureAndStart
  try dsimp only
  repeat' first
    | with_reducible exact SameExcept.refl _ _
    | ((with_reducible apply covers_intro); decide)
    | with_reducible apply SameExcept.step (startCarrier_reach _)
    | split

theorem restartCarrier_reach (s) : SameExcept [.log, .power, .isl, .pm, .host] s (restartCarrier s) := by
  unfold restartCarrier
  try dsimp only
  repeat' first
    | with_reducible exact SameExcept.refl _ _
    | ((with_reducible apply covers_intro); decide)
    | with_reducible apply SameExcept.step (logEvent_reach _ _ _ _)
    | with_reducible apply SameExcept.step (measureAndStart_reach _)
    | with_reducible apply SameExcept.step (discardCarrierCalls_reach _)
    | ((with_reducible apply FieldsSame.intro); intro q hq; cases q <;> first | exact absurd (by decide) hq | (dsimp only [Part.same, memByte]; done) | (dsimp only [Part.same, memByte]; exact ⟨rfl, fun _ => rfl⟩) | (dsimp only [Part.same]; exact ⟨rfl, rfl⟩))
    | split
    | with_reducible apply SameExcept.fields

theorem watchdogOut_reach (s) : SameExcept [.log, .power, .isl, .pm, .host] s (watchdogOut s) := by
  unfold watchdogOut
  try dsimp only
  repeat' first
    | with_reducible exact SameExcept.refl _ _
    | ((with_reducible apply covers_intro); decide)
    | with_reducible apply SameExcept.step (restartCarrier_reach _)
    | split

theorem saveDirectory_reach (s) : SameExcept [.mem, .poison] s (saveDirectory s) := by
  unfold saveDirectory
  try dsimp only
  repeat' first
    | with_reducible exact SameExcept.refl _ _
    | ((with_reducible apply covers_intro); decide)
    | with_reducible apply SameExcept.step (memWrite_reach _ _ _)
    | with_reducible apply SameExcept.forEach
    | ((with_reducible apply FieldsSame.intro); intro q hq; cases q <;> first | exact absurd (by decide) hq | (dsimp only [Part.same, memByte]; done) | (dsimp only [Part.same, memByte]; exact ⟨rfl, fun _ => rfl⟩) | (dsimp only [Part.same]; exact ⟨rfl, rfl⟩))
    | ((with_reducible intro _ _); try dsimp only)
    | ((with_reducible intro _); try dsimp only)
    | with_reducible apply SameExcept.fields

theorem park_reach (s) : SameExcept [.log, .power, .isl, .mem, .poison, .cache, .mc, .qs, .sems, .cores, .links, .grinders, .blend, .courier] s (park s) := by
  unfold park
  try dsimp only
  repeat' first
    | with_reducible exact SameExcept.refl _ _
    | ((with_reducible apply covers_intro); decide)
    | with_reducible apply SameExcept.step (sendControl_reach _ _ _ _)
    | with_reducible apply SameExcept.step (resetLink_reach _ _ _)
    | with_reducible apply SameExcept.step (stopStreams_reach _ _)
    | with_reducible apply SameExcept.step (flushCaches_reach _)
    | with_reducible apply SameExcept.forEach
    | ((with_reducible apply FieldsSame.intro); intro q hq; cases q <;> first | exact absurd (by decide) hq | (dsimp only [Part.same, memByte]; done) | (dsimp only [Part.same, memByte]; exact ⟨rfl, fun _ => rfl⟩) | (dsimp only [Part.same]; exact ⟨rfl, rfl⟩))
    | ((with_reducible intro _ _); try dsimp only)
    | ((with_reducible intro _); try dsimp only)
    | split
    | with_reducible apply SameExcept.fields

theorem loadSems_reach (s) : SameExcept [.sems, .grinders] s (loadSems s) := by
  unfold loadSems
  try dsimp only
  repeat' first
    | with_reducible exact SameExcept.refl _ _
    | ((with_reducible apply covers_intro); decide)
    | with_reducible apply SameExcept.step (resetLinkSems_reach _ _ _)
    | with_reducible apply SameExcept.forEach
    | ((with_reducible apply FieldsSame.intro); intro q hq; cases q <;> first | exact absurd (by decide) hq | (dsimp only [Part.same, memByte]; done) | (dsimp only [Part.same, memByte]; exact ⟨rfl, fun _ => rfl⟩) | (dsimp only [Part.same]; exact ⟨rfl, rfl⟩))
    | ((with_reducible intro _ _); try dsimp only)
    | ((with_reducible intro _); try dsimp only)
    | with_reducible apply SameExcept.fields

theorem parkDone_reach (s) : SameExcept [.mode, .power, .isl, .pm, .mem, .poison, .mc, .seg, .xfers, .net, .host, .qs, .sems, .cores, .links, .grinders, .courier] s (parkDone s) := by
  unfold parkDone
  try dsimp only
  repeat' first
    | with_reducible exact SameExcept.refl _ _
    | ((with_reducible apply covers_intro); decide)
    | with_reducible apply SameExcept.step (stopEngines_reach _)
    | with_reducible apply SameExcept.step (saveDirectory_reach _)
    | with_reducible apply SameExcept.step (loadSems_reach _)
    | with_reducible apply SameExcept.step (updIsl_reach _ _ _)
    | with_reducible apply SameExcept.step (updGk_reach _ _ _)
    | with_reducible apply SameExcept.forEach
    | ((with_reducible apply FieldsSame.intro); intro q hq; cases q <;> first | exact absurd (by decide) hq | (dsimp only [Part.same, memByte]; done) | (dsimp only [Part.same, memByte]; exact ⟨rfl, fun _ => rfl⟩) | (dsimp only [Part.same]; exact ⟨rfl, rfl⟩))
    | ((with_reducible intro _ _); try dsimp only)
    | ((with_reducible intro _); try dsimp only)
    | split
    | with_reducible apply SameExcept.fields

theorem unpark_reach (a s) : SameExcept [.freeCtr, .log, .plan, .power, .isl, .pm, .mem, .poison, .mc, .host, .cores, .blend, .courier] s (unpark a s) := by
  unfold unpark
  try dsimp only
  repeat' first
    | with_reducible exact SameExcept.refl _ _
    | ((with_reducible apply covers_intro); decide)
    | with_reducible apply SameExcept.step (trainStack_reach _ _ _)
    | with_reducible apply SameExcept.step (updIsl_reach _ _ _)
    | with_reducible apply SameExcept.step (powerStructure_reach _ _)
    | with_reducible apply SameExcept.step (setModes_reach _ _ _ _)
    | with_reducible apply SameExcept.step (setFloors_reach _ _ _ _ _)
    | with_reducible apply SameExcept.step (beginRun_reach _ _)
    | with_reducible apply SameExcept.step (measureAndStart_reach _)
    | with_reducible apply SameExcept.step (setCourierIslands_reach _ _)
    | with_reducible apply SameExcept.forEach
    | ((with_reducible apply FieldsSame.intro); intro q hq; cases q <;> first | exact absurd (by decide) hq | (dsimp only [Part.same, memByte]; done) | (dsimp only [Part.same, memByte]; exact ⟨rfl, fun _ => rfl⟩) | (dsimp only [Part.same]; exact ⟨rfl, rfl⟩))
    | ((with_reducible intro _ _); try dsimp only)
    | ((with_reducible intro _); try dsimp only)
    | split
    | with_reducible apply SameExcept.fields

theorem unparked_reach (s) : SameExcept [.freeCtr, .mode, .power, .courier] s (unparked s) := by
  unfold unparked
  try dsimp only
  repeat' first
    | with_reducible exact SameExcept.refl _ _
    | ((with_reducible apply covers_intro); decide)
    | with_reducible apply SameExcept.step (joinRing_reach _)
    | ((with_reducible apply FieldsSame.intro); intro q hq; cases q <;> first | exact absurd (by decide) hq | (dsimp only [Part.same, memByte]; done) | (dsimp only [Part.same, memByte]; exact ⟨rfl, fun _ => rfl⟩) | (dsimp only [Part.same]; exact ⟨rfl, rfl⟩))
    | with_reducible apply SameExcept.fields

theorem unparkDone_reach (a s) : SameExcept [.freeCtr, .mode, .log, .plan, .power, .isl, .pm, .xfers, .qs, .sems, .cores, .links, .grinders, .blend, .courier] s (unparkDone a s) := by
  unfold unparkDone
  try dsimp only
  repeat' first
    | with_reducible exact SameExcept.refl _ _
    | ((with_reducible apply covers_intro); decide)
    | with_reducible apply SameExcept.step (unparked_reach _)
    | with_reducible apply SameExcept.step (bootRun_reach _ _)
    | ((with_reducible apply FieldsSame.intro); intro q hq; cases q <;> first | exact absurd (by decide) hq | (dsimp only [Part.same, memByte]; done) | (dsimp only [Part.same, memByte]; exact ⟨rfl, fun _ => rfl⟩) | (dsimp only [Part.same]; exact ⟨rfl, rfl⟩))
    | split
    | with_reducible apply SameExcept.fields

theorem logCritical_reach (s) : SameExcept [.log] s (logCritical s) := by
  unfold logCritical
  try dsimp only
  repeat' first
    | with_reducible exact SameExcept.refl _ _
    | ((with_reducible apply covers_intro); decide)
    | with_reducible apply SameExcept.step (logEvent_reach _ _ _ _)

theorem readSensor_reach (a b s) : SameExcept [.mode, .log, .power, .isl, .pm, .mem, .poison, .cache, .mc, .xfers, .net, .qs, .cores, .links, .grinders, .courier] s (readSensor a b s) := by
  unfold readSensor
  try dsimp only
  repeat' first
    | with_reducible exact SameExcept.refl _ _
    | ((with_reducible apply covers_intro); decide)
    | with_reducible apply SameExcept.step (logCritical_reach _)
    | with_reducible apply SameExcept.step (enterFaulted_reach _ _)
    | ((with_reducible apply FieldsSame.intro); intro q hq; cases q <;> first | exact absurd (by decide) hq | (dsimp only [Part.same, memByte]; done) | (dsimp only [Part.same, memByte]; exact ⟨rfl, fun _ => rfl⟩) | (dsimp only [Part.same]; exact ⟨rfl, rfl⟩))
    | split
    | with_reducible apply SameExcept.fields

theorem junction_reach (a b s) : SameExcept [.mode, .log, .plan, .power, .isl, .pm, .mem, .poison, .cache, .mc, .xfers, .net, .qs, .cores, .links, .grinders, .courier] s (junction a b s) := by
  unfold junction
  try dsimp only
  repeat' first
    | with_reducible exact SameExcept.refl _ _
    | ((with_reducible apply covers_intro); decide)
    | with_reducible apply SameExcept.step (updIsl_reach _ _ _)
    | with_reducible apply SameExcept.step (readSensor_reach _ _ _)
    | ((with_reducible apply FieldsSame.intro); intro q hq; cases q <;> first | exact absurd (by decide) hq | (dsimp only [Part.same, memByte]; done) | (dsimp only [Part.same, memByte]; exact ⟨rfl, fun _ => rfl⟩) | (dsimp only [Part.same]; exact ⟨rfl, rfl⟩))
    | split
    | with_reducible apply SameExcept.fields

theorem stackTemp_reach (a b s) : SameExcept [.mode, .log, .power, .isl, .pm, .mem, .poison, .cache, .mc, .xfers, .net, .qs, .cores, .links, .grinders, .courier] s (stackTemp a b s) := by
  unfold stackTemp
  try dsimp only
  repeat' first
    | with_reducible exact SameExcept.refl _ _
    | ((with_reducible apply covers_intro); decide)
    | with_reducible apply SameExcept.step (readSensor_reach _ _ _)
    | with_reducible apply SameExcept.step (updMc_reach _ _ _)
    | split

theorem criticalTimeout_reach (s) : SameExcept [.mode, .log, .power, .isl, .pm, .mem, .poison, .cache, .mc, .xfers, .net, .qs, .cores, .links, .grinders, .courier] s (criticalTimeout s) := by
  unfold criticalTimeout
  try dsimp only
  repeat' first
    | with_reducible exact SameExcept.refl _ _
    | ((with_reducible apply covers_intro); decide)
    | with_reducible apply SameExcept.step (enterFaulted_reach _ _)
    | with_reducible apply SameExcept.step (logCritical_reach _)
    | split

theorem inputPower_reach (a s) : SameExcept [.power] s (inputPower a s) := by
  unfold inputPower
  try dsimp only
  repeat' first
    | with_reducible exact SameExcept.refl _ _
    | ((with_reducible apply covers_intro); decide)
    | ((with_reducible apply FieldsSame.intro); intro q hq; cases q <;> first | exact absurd (by decide) hq | (dsimp only [Part.same, memByte]; done) | (dsimp only [Part.same, memByte]; exact ⟨rfl, fun _ => rfl⟩) | (dsimp only [Part.same]; exact ⟨rfl, rfl⟩))
    | split
    | with_reducible apply SameExcept.fields

theorem joinedCore_reach (a s) : SameExcept [.blend] s (joinedCore a s) := by
  unfold joinedCore
  try dsimp only
  repeat' first
    | with_reducible exact SameExcept.refl _ _
    | ((with_reducible apply covers_intro); decide)
    | ((with_reducible apply FieldsSame.intro); intro q hq; cases q <;> first | exact absurd (by decide) hq | (dsimp only [Part.same, memByte]; done) | (dsimp only [Part.same, memByte]; exact ⟨rfl, fun _ => rfl⟩) | (dsimp only [Part.same]; exact ⟨rfl, rfl⟩))
    | with_reducible apply SameExcept.fields

theorem resetCore_reach (a s) : SameExcept [.log, .isl, .mem, .poison, .seg, .xfers, .net, .host, .qs, .sems, .cores, .links, .grinders] s (resetCore a s) := by
  unfold resetCore
  try dsimp only
  repeat' first
    | with_reducible exact SameExcept.refl _ _
    | ((with_reducible apply covers_intro); decide)
    | with_reducible apply SameExcept.step (logEvent_reach _ _ _ _)
    | with_reducible apply SameExcept.step (cancelXfer_reach _ _)
    | with_reducible apply SameExcept.step (resetLink_reach _ _ _)
    | with_reducible apply SameExcept.step (stopStreams_reach _ _)
    | with_reducible apply SameExcept.step (endEarly_reach _ _ _ _)
    | with_reducible apply SameExcept.step (updCore_reach _ _ _)
    | with_reducible apply SameExcept.forEach
    | ((with_reducible intro _ _); try dsimp only)
    | ((with_reducible intro _); try dsimp only)
    | split
    | dsimp only

theorem coreReset'_reach (a s) : SameExcept [.log, .isl, .mem, .poison, .seg, .xfers, .net, .host, .qs, .sems, .cores, .links, .grinders, .blend] s (coreReset' a s) := by
  unfold coreReset'
  try dsimp only
  repeat' first
    | with_reducible exact SameExcept.refl _ _
    | ((with_reducible apply covers_intro); decide)
    | with_reducible apply SameExcept.step (joinedCore_reach _ _)
    | with_reducible apply SameExcept.step (resetCore_reach _ _)
    | split

theorem idleGate_reach (a s) : SameExcept [.isl] s (idleGate a s) := by
  unfold idleGate
  try dsimp only
  repeat' first
    | with_reducible exact SameExcept.refl _ _
    | ((with_reducible apply covers_intro); decide)
    | with_reducible apply SameExcept.step (updIsl_reach _ _ _)
    | split

/-! ### The canonical form -/

theorem stopModule_stored {s : State} (h : s.stored = true) : (stopModule s).stored = true := by
  unfold stopModule
  try dsimp only
  repeat' first
    | with_reducible assumption
    | with_reducible apply flushCaches_stored
    | split
    | with_reducible apply fields_stored

theorem triggerReset_stored {s : State} (a) (h : s.stored = true) : (triggerReset a s).stored = true := by
  unfold triggerReset
  try dsimp only
  repeat' first
    | with_reducible assumption
    | with_reducible apply stopModule_stored
    | split
    | with_reducible apply fields_stored

theorem supplyLost_stored {s : State} (h : s.stored = true) : (supplyLost s).stored = true := by
  exact reset_stored

theorem supplyFalls_stored {s : State} (a) (h : s.stored = true) : (supplyFalls a s).stored = true := by
  unfold supplyFalls
  try dsimp only
  repeat' first
    | with_reducible assumption
    | with_reducible apply SameExcept.stored (sampleMv_reach _ _) rfl
    | with_reducible apply stopModule_stored
    | split
    | with_reducible apply fields_stored

theorem pinLow_stored {s : State} (h : s.stored = true) : (pinLow s).stored = true := by
  unfold pinLow
  try dsimp only
  repeat' first
    | with_reducible assumption
    | with_reducible apply triggerReset_stored
    | with_reducible apply fields_stored

theorem railFault_stored {s : State} (h : s.stored = true) : (railFault s).stored = true := by
  unfold railFault
  try dsimp only
  repeat' first
    | with_reducible assumption
    | with_reducible apply enterFaulted_stored
    | with_reducible apply triggerReset_stored
    | split
    | with_reducible apply fields_stored

theorem sramFault_stored {s : State} (a) (h : s.stored = true) : (sramFault a s).stored = true := by
  unfold sramFault
  try dsimp only
  repeat' first
    | with_reducible assumption
    | with_reducible apply triggerReset_stored
    | with_reducible apply SameExcept.stored (logEvent_reach _ _ _ _) rfl
    | split

theorem writePwr_stored {s : State} {a w m f}
    (hf : ∀ t, t.stored = true → (f t).stored = true) (h : s.stored = true) : (writePwr a w m f s).stored = true := by
  unfold writePwr
  try dsimp only
  repeat' first
    | with_reducible assumption
    | with_reducible apply hf
    | ((with_reducible intro _ _ _ _); try dsimp only)
    | ((with_reducible intro _ _ _); try dsimp only)
    | ((with_reducible intro _ _); try dsimp only)
    | split
    | dsimp only
    | with_reducible apply fields_stored

theorem saveDirectory_stored {s : State} (h : s.stored = true) : (saveDirectory s).stored = true := by
  exact forEach_stored (fun _ _ ht => memWrite_stored _ _ ht) _ (filter_stored _ _ rfl rfl h)

theorem park_stored {s : State} (h : s.stored = true) : (park s).stored = true := by
  unfold park
  try dsimp only
  repeat' first
    | with_reducible assumption
    | with_reducible apply SameExcept.stored (sendControl_reach _ _ _ _) rfl
    | with_reducible apply SameExcept.stored (resetLink_reach _ _ _) rfl
    | with_reducible apply SameExcept.stored (stopStreams_reach _ _) rfl
    | with_reducible apply flushCaches_stored
    | with_reducible apply forEach_stored
    | ((with_reducible intro _ _ _ _); try dsimp only)
    | ((with_reducible intro _ _ _); try dsimp only)
    | ((with_reducible intro _ _); try dsimp only)
    | split
    | with_reducible apply fields_stored

theorem parkDone_stored {s : State} (h : s.stored = true) : (parkDone s).stored = true := by
  unfold parkDone
  try dsimp only
  repeat' first
    | with_reducible assumption
    | with_reducible apply SameExcept.stored (stopEngines_reach _) rfl
    | with_reducible apply saveDirectory_stored
    | with_reducible apply SameExcept.stored (loadSems_reach _) rfl
    | with_reducible apply SameExcept.stored (updIsl_reach _ _ _) rfl
    | with_reducible apply SameExcept.stored (updGk_reach _ _ _) rfl
    | with_reducible apply forEach_stored
    | ((with_reducible intro _ _ _ _); try dsimp only)
    | ((with_reducible intro _ _ _); try dsimp only)
    | ((with_reducible intro _ _); try dsimp only)
    | split
    | with_reducible apply fields_stored

theorem unpark_stored {s : State} (a) (h : s.stored = true) : (unpark a s).stored = true := by
  unfold unpark
  try dsimp only
  repeat' first
    | with_reducible assumption
    | with_reducible apply SameExcept.stored (trainStack_reach _ _ _) rfl
    | with_reducible apply SameExcept.stored (updIsl_reach _ _ _) rfl
    | with_reducible apply powerStructure_stored
    | with_reducible apply SameExcept.stored (setModes_reach _ _ _ _) rfl
    | with_reducible apply SameExcept.stored (setFloors_reach _ _ _ _ _) rfl
    | with_reducible apply SameExcept.stored (beginRun_reach _ _) rfl
    | with_reducible apply SameExcept.stored (measureAndStart_reach _) rfl
    | with_reducible apply SameExcept.stored (setCourierIslands_reach _ _) rfl
    | with_reducible apply forEach_stored
    | ((with_reducible intro _ _ _ _); try dsimp only)
    | ((with_reducible intro _ _ _); try dsimp only)
    | ((with_reducible intro _ _); try dsimp only)
    | split
    | with_reducible apply fields_stored

theorem readSensor_stored {s : State} (a b) (h : s.stored = true) : (readSensor a b s).stored = true := by
  unfold readSensor
  try dsimp only
  repeat' first
    | with_reducible assumption
    | with_reducible apply SameExcept.stored (logCritical_reach _) rfl
    | with_reducible apply enterFaulted_stored
    | split
    | with_reducible apply fields_stored

theorem junction_stored {s : State} (a b) (h : s.stored = true) : (junction a b s).stored = true := by
  unfold junction
  try dsimp only
  repeat' first
    | with_reducible assumption
    | with_reducible apply SameExcept.stored (updIsl_reach _ _ _) rfl
    | with_reducible apply readSensor_stored
    | split
    | with_reducible apply fields_stored

theorem stackTemp_stored {s : State} (a b) (h : s.stored = true) : (stackTemp a b s).stored = true := by
  unfold stackTemp
  try dsimp only
  repeat' first
    | with_reducible assumption
    | with_reducible apply readSensor_stored
    | with_reducible apply SameExcept.stored (updMc_reach _ _ _) rfl
    | split

theorem criticalTimeout_stored {s : State} (h : s.stored = true) : (criticalTimeout s).stored = true := by
  unfold criticalTimeout
  try dsimp only
  repeat' first
    | with_reducible assumption
    | with_reducible apply enterFaulted_stored
    | with_reducible apply SameExcept.stored (logCritical_reach _) rfl
    | split

theorem resetCore_stored {s : State} (a) (h : s.stored = true) : (resetCore a s).stored = true := by
  unfold resetCore
  try dsimp only
  repeat' first
    | with_reducible assumption
    | with_reducible apply SameExcept.stored (logEvent_reach _ _ _ _) rfl
    | with_reducible apply cancelXfer_stored
    | with_reducible apply SameExcept.stored (resetLink_reach _ _ _) rfl
    | with_reducible apply SameExcept.stored (stopStreams_reach _ _) rfl
    | with_reducible apply SameExcept.stored (endEarly_reach _ _ _ _) rfl
    | with_reducible apply SameExcept.stored (updCore_reach _ _ _) rfl
    | with_reducible apply forEach_stored
    | ((with_reducible intro _ _ _ _); try dsimp only)
    | ((with_reducible intro _ _ _); try dsimp only)
    | ((with_reducible intro _ _); try dsimp only)
    | split
    | dsimp only

theorem coreReset'_stored {s : State} (a) (h : s.stored = true) : (coreReset' a s).stored = true := by
  unfold coreReset'
  try dsimp only
  repeat' first
    | with_reducible assumption
    | with_reducible apply SameExcept.stored (joinedCore_reach _ _) rfl
    | with_reducible apply resetCore_stored
    | split

end Sys2Proof.Machine
end

