-- ==== Sys2Proof/Laws/Network.lean ====
section
/-! SUPPORT. What each operation of Machine/Network.lean reaches: every other part of the state is as it was (`_reach`), and memory and the
marks keep their canonical form (`_stored`). -/

namespace Sys2Proof.Machine

set_option linter.unusedTactic false
set_option linter.unreachableTactic false
set_option linter.unnecessarySeqFocus false

theorem circuitError_reach (a b c d s) : SameExcept [.log, .poison] s (circuitError a b c d s) := by
  unfold circuitError
  try dsimp only
  repeat' first
    | with_reducible exact SameExcept.refl _ _
    | ((with_reducible apply covers_intro); decide)
    | with_reducible apply SameExcept.step (logFlit_reach _ _)
    | with_reducible apply SameExcept.step (poisonRange_reach _ _ _)
    | split
    | dsimp only

theorem sendReply_reach (a b c d e s) : SameExcept [.net] s (sendReply a b c d e s) := by
  unfold sendReply
  try dsimp only
  repeat' first
    | with_reducible exact SameExcept.refl _ _
    | ((with_reducible apply covers_intro); decide)
    | ((with_reducible apply FieldsSame.intro); intro q hq; cases q <;> first | exact absurd (by decide) hq | (dsimp only [Part.same, memByte]; done) | (dsimp only [Part.same, memByte]; exact ⟨rfl, fun _ => rfl⟩) | (dsimp only [Part.same]; exact ⟨rfl, rfl⟩))
    | split
    | dsimp only
    | with_reducible apply SameExcept.fields

theorem scratchAccess_reach (a b c d e s) : SameExcept [.isl, .mem, .poison, .xfers, .net, .qs] s (scratchAccess a b c d e s) := by
  unfold scratchAccess
  try dsimp only
  repeat' first
    | with_reducible exact SameExcept.refl _ _
    | ((with_reducible apply covers_intro); decide)
    | with_reducible apply SameExcept.step (wakeIsl_reach _ _)
    | with_reducible apply SameExcept.step (landPiece_reach _ _ _ _)
    | with_reducible apply SameExcept.step (memWrite_reach _ _ _)
    | with_reducible apply SameExcept.step (sendReply_reach _ _ _ _ _ _)
    | split
    | dsimp only

theorem hostPiece_reach (a b c d s) : SameExcept [.isl, .mem, .poison, .xfers, .host, .qs] s (hostPiece a b c d s) := by
  unfold hostPiece
  try dsimp only
  repeat' first
    | with_reducible exact SameExcept.refl _ _
    | ((with_reducible apply covers_intro); decide)
    | with_reducible apply SameExcept.step (sendWrite_reach _ _)
    | with_reducible apply SameExcept.step (updGk_reach _ _ _)
    | split
    | dsimp only

theorem peerPiece_reach (a b c d s) : SameExcept [.courier] s (peerPiece a b c d s) := by
  unfold peerPiece
  try dsimp only
  repeat' first
    | with_reducible exact SameExcept.refl _ _
    | ((with_reducible apply covers_intro); decide)
    | with_reducible apply SameExcept.step (sendPoint_reach _ _ _ _ _ _ _)
    | split
    | dsimp only

theorem stackPiece_reach (a b c d e s) : SameExcept [.mc] s (stackPiece a b c d e s) := by
  unfold stackPiece
  try dsimp only
  repeat' first
    | with_reducible exact SameExcept.refl _ _
    | ((with_reducible apply covers_intro); decide)
    | with_reducible apply SameExcept.step (updMc_reach _ _ _)

theorem replyArrives_reach (a b s) : SameExcept [.isl, .mem, .poison, .xfers, .qs] s (replyArrives a b s) := by
  unfold replyArrives
  try dsimp only
  repeat' first
    | with_reducible exact SameExcept.refl _ _
    | ((with_reducible apply covers_intro); decide)
    | with_reducible apply SameExcept.step (landPiece_reach _ _ _ _)
    | with_reducible apply SameExcept.step (wakeIsl_reach _ _)
    | split
    | dsimp only

theorem packetArrives_reach (a b s) : SameExcept [.isl, .mem, .poison, .mc, .xfers, .net, .host, .qs, .courier] s (packetArrives a b s) := by
  unfold packetArrives
  try dsimp only
  repeat' first
    | with_reducible exact SameExcept.refl _ _
    | ((with_reducible apply covers_intro); decide)
    | with_reducible apply SameExcept.step (replyArrives_reach _ _ _)
    | with_reducible apply SameExcept.step (stackPiece_reach _ _ _ _ _ _)
    | with_reducible apply SameExcept.step (scratchAccess_reach _ _ _ _ _ _)
    | with_reducible apply SameExcept.step (hostPiece_reach _ _ _ _ _)
    | with_reducible apply SameExcept.step (peerPiece_reach _ _ _ _ _)
    | split
    | dsimp only

theorem deliverQueued_reach (a b s) : SameExcept [.log, .isl, .mem, .poison, .mc, .xfers, .net, .host, .qs, .courier] s (deliverQueued a b s) := by
  unfold deliverQueued
  try dsimp only
  repeat' first
    | with_reducible exact SameExcept.refl _ _
    | ((with_reducible apply covers_intro); decide)
    | with_reducible apply SameExcept.step (spoilFlit_reach _ _ _)
    | with_reducible apply SameExcept.step (packetArrives_reach _ _ _)
    | ((with_reducible apply FieldsSame.intro); intro q hq; cases q <;> first | exact absurd (by decide) hq | (dsimp only [Part.same, memByte]; done) | (dsimp only [Part.same, memByte]; exact ⟨rfl, fun _ => rfl⟩) | (dsimp only [Part.same]; exact ⟨rfl, rfl⟩))
    | split
    | dsimp only
    | with_reducible apply SameExcept.fields

theorem deliverHostData_reach (a b c d s) : SameExcept [.log, .isl, .mem, .poison, .xfers, .host, .qs] s (deliverHostData a b c d s) := by
  unfold deliverHostData
  try dsimp only
  repeat' first
    | with_reducible exact SameExcept.refl _ _
    | ((with_reducible apply covers_intro); decide)
    | with_reducible apply SameExcept.step (setGk_reach _ _ _)
    | with_reducible apply SameExcept.step (spoilFlit_reach _ _ _)
    | with_reducible apply SameExcept.step (landPiece_reach _ _ _ _)
    | with_reducible apply SameExcept.step (wakeIsl_reach _ _)
    | split
    | dsimp only

theorem takeTurn_reach (a b c s) : SameExcept [.cache, .mc] s (takeTurn a b c s) := by
  unfold takeTurn
  try dsimp only
  repeat' first
    | with_reducible exact SameExcept.refl _ _
    | ((with_reducible apply covers_intro); decide)
    | with_reducible apply SameExcept.step (passOlder_reach _ _ _ _ _)
    | split
    | dsimp only

theorem takeArrival_reach (a b c s) : SameExcept [.mc] s (takeArrival a b c s) := by
  unfold takeArrival
  try dsimp only
  repeat' first
    | with_reducible exact SameExcept.refl _ _
    | ((with_reducible apply covers_intro); decide)
    | with_reducible apply SameExcept.step (updMc_reach _ _ _)
    | split

theorem readPart_reach (a b c s) : SameExcept [.mc, .net] s (readPart a b c s) := by
  unfold readPart
  try dsimp only
  repeat' first
    | with_reducible exact SameExcept.refl _ _
    | ((with_reducible apply covers_intro); decide)
    | with_reducible apply SameExcept.step (setMc_reach _ _ _)
    | with_reducible apply SameExcept.step (sendReply_reach _ _ _ _ _ _)
    | split

theorem performAccess_reach (a b c d s) : SameExcept [.mode, .log, .plan, .power, .isl, .pm, .mem, .poison, .cache, .mc, .xfers, .net, .qs, .cores, .links, .grinders, .courier] s (performAccess a b c d s) := by
  unfold performAccess
  try dsimp only
  repeat' first
    | with_reducible exact SameExcept.refl _ _
    | ((with_reducible apply covers_intro); decide)
    | with_reducible apply SameExcept.step (tagCheck_reach _ _ _)
    | with_reducible apply SameExcept.step (takeArrival_reach _ _ _ _)
    | with_reducible apply SameExcept.step (takeTurn_reach _ _ _ _)
    | with_reducible apply SameExcept.step (accessRead_reach _ _ _ _ _)
    | with_reducible apply SameExcept.step (readPart_reach _ _ _ _)
    | with_reducible apply SameExcept.step (accessWrite_reach _ _ _ _ _)
    | with_reducible apply SameExcept.step (captureWrite_reach _ _ _)
    | with_reducible apply SameExcept.step (countPoison_reach _ _ _ _)
    | with_reducible apply SameExcept.step (landPiece_reach _ _ _ _)
    | split
    | dsimp only

theorem atomicAt_reach (a b c d e f g j s) : SameExcept [.mode, .log, .plan, .power, .isl, .pm, .mem, .poison, .cache, .mc, .xfers, .net, .qs, .cores, .links, .grinders, .courier, .answers] s (atomicAt a b c d e f g j s) := by
  unfold atomicAt
  try dsimp only
  repeat' first
    | with_reducible exact SameExcept.refl _ _
    | ((with_reducible apply covers_intro); decide)
    | with_reducible apply SameExcept.step (tagCheck_reach _ _ _)
    | with_reducible apply SameExcept.step (hbmTurn_reach _ _ _ _)
    | with_reducible apply SameExcept.step (hbmAtomic_reach _ _ _ _ _ _ _)
    | with_reducible apply SameExcept.step (captureWrite_reach _ _ _)
    | with_reducible apply SameExcept.step (answer_reach _ _)
    | split
    | dsimp only

theorem requestAtomic_reach (a b c d e f g j k l s) : SameExcept [.mode, .log, .plan, .power, .isl, .pm, .mem, .poison, .cache, .mc, .seg, .xfers, .net, .qs, .cores, .links, .grinders, .courier, .answers] s (requestAtomic a b c d e f g j k l s) := by
  unfold requestAtomic
  try dsimp only
  repeat' first
    | with_reducible exact SameExcept.refl _ _
    | ((with_reducible apply covers_intro); decide)
    | with_reducible apply SameExcept.step (translate_reach _ _ _ _)
    | with_reducible apply SameExcept.step (raiseFault_reach _ _ _ _ _ _ _)
    | with_reducible apply SameExcept.step (atomicAt_reach _ _ _ _ _ _ _ _ _)
    | with_reducible apply SameExcept.step (sendPoint_reach _ _ _ _ _ _ _)
    | split
    | dsimp only

theorem ringReceipt_reach (a b c s) : SameExcept [.log, .host, .qs, .courier] s (ringReceipt a b c s) := by
  unfold ringReceipt
  try dsimp only
  repeat' first
    | with_reducible exact SameExcept.refl _ _
    | ((with_reducible apply covers_intro); decide)
    | with_reducible apply SameExcept.step (setQ_reach _ _ _)
    | with_reducible apply SameExcept.step (sendStepReceipt_reach _ _ _ _)
    | with_reducible apply SameExcept.step (receiptArrived_reach _ _ _ _)
    | ((with_reducible apply FieldsSame.intro); intro q hq; cases q <;> first | exact absurd (by decide) hq | (dsimp only [Part.same, memByte]; done) | (dsimp only [Part.same, memByte]; exact ⟨rfl, fun _ => rfl⟩) | (dsimp only [Part.same]; exact ⟨rfl, rfl⟩))
    | split
    | dsimp only
    | with_reducible apply SameExcept.fields

theorem beginReceipt_reach (a b c s) : SameExcept [.log, .plan, .pm, .mem, .poison, .cache, .mc, .host, .qs, .courier] s (beginReceipt a b c s) := by
  unfold beginReceipt
  try dsimp only
  repeat' first
    | with_reducible exact SameExcept.refl _ _
    | ((with_reducible apply covers_intro); decide)
    | with_reducible apply SameExcept.step (ringReceipt_reach _ _ _ _)
    | with_reducible apply SameExcept.step (spillReceipt_reach _ _ _)
    | with_reducible apply SameExcept.step (setQ_reach _ _ _)
    | with_reducible apply SameExcept.step (askFlush_reach _ _)
    | with_reducible apply SameExcept.forEach
    | ((with_reducible intro _ _); try dsimp only)
    | ((with_reducible intro _); try dsimp only)
    | split
    | dsimp only

theorem ackReceipt_reach (a b c s) : SameExcept [.log, .isl, .mem, .poison, .xfers, .host, .qs] s (ackReceipt a b c s) := by
  unfold ackReceipt
  try dsimp only
  repeat' first
    | with_reducible exact SameExcept.refl _ _
    | ((with_reducible apply covers_intro); decide)
    | with_reducible apply SameExcept.step (receiptArrived_reach _ _ _ _)
    | with_reducible apply SameExcept.step (writeRing_reach _ _ _ _ _)
    | with_reducible apply SameExcept.step (updQ_reach _ _ _)
    | split
    | dsimp only

theorem writeReceipt_reach (a s) : SameExcept [.log, .plan, .isl, .pm, .mem, .poison, .cache, .mc, .xfers, .host, .qs, .courier] s (writeReceipt a s) := by
  unfold writeReceipt
  try dsimp only
  repeat' first
    | with_reducible exact SameExcept.refl _ _
    | ((with_reducible apply covers_intro); decide)
    | with_reducible apply SameExcept.step (ackReceipt_reach _ _ _ _)
    | with_reducible apply SameExcept.step (beginReceipt_reach _ _ _ _)
    | split
    | dsimp only

/-! ### The canonical form -/

theorem circuitError_stored {s : State} (a b c d) (h : s.stored = true) : (circuitError a b c d s).stored = true := by
  unfold circuitError
  try dsimp only
  repeat' first
    | with_reducible assumption
    | with_reducible apply SameExcept.stored (logFlit_reach _ _) rfl
    | with_reducible apply poisonRange_stored
    | split
    | dsimp only

theorem scratchAccess_stored {s : State} (a b c d e) (h : s.stored = true) : (scratchAccess a b c d e s).stored = true := by
  unfold scratchAccess
  try dsimp only
  repeat' first
    | with_reducible assumption
    | with_reducible apply SameExcept.stored (wakeIsl_reach _ _) rfl
    | with_reducible apply landPiece_stored
    | with_reducible apply memWrite_stored
    | with_reducible apply SameExcept.stored (sendReply_reach _ _ _ _ _ _) rfl
    | split
    | dsimp only

theorem hostPiece_stored {s : State} (a b c d) (h : s.stored = true) : (hostPiece a b c d s).stored = true := by
  unfold hostPiece
  try dsimp only
  repeat' first
    | with_reducible assumption
    | with_reducible apply sendWrite_stored
    | with_reducible apply SameExcept.stored (updGk_reach _ _ _) rfl
    | split
    | dsimp only

theorem replyArrives_stored {s : State} (a b) (h : s.stored = true) : (replyArrives a b s).stored = true := by
  unfold replyArrives
  try dsimp only
  repeat' first
    | with_reducible assumption
    | with_reducible apply landPiece_stored
    | with_reducible apply SameExcept.stored (wakeIsl_reach _ _) rfl
    | split
    | dsimp only

theorem packetArrives_stored {s : State} (a b) (h : s.stored = true) : (packetArrives a b s).stored = true := by
  unfold packetArrives
  try dsimp only
  repeat' first
    | with_reducible assumption
    | with_reducible apply replyArrives_stored
    | with_reducible apply SameExcept.stored (stackPiece_reach _ _ _ _ _ _) rfl
    | with_reducible apply scratchAccess_stored
    | with_reducible apply hostPiece_stored
    | with_reducible apply SameExcept.stored (peerPiece_reach _ _ _ _ _) rfl
    | split
    | dsimp only

theorem deliverQueued_stored {s : State} (a b) (h : s.stored = true) : (deliverQueued a b s).stored = true := by
  unfold deliverQueued
  try dsimp only
  repeat' first
    | with_reducible assumption
    | with_reducible apply SameExcept.stored (spoilFlit_reach _ _ _) rfl
    | with_reducible apply packetArrives_stored
    | split
    | dsimp only
    | with_reducible apply fields_stored

theorem deliverHostData_stored {s : State} (a b c d) (h : s.stored = true) : (deliverHostData a b c d s).stored = true := by
  unfold deliverHostData
  try dsimp only
  repeat' first
    | with_reducible assumption
    | with_reducible apply SameExcept.stored (setGk_reach _ _ _) rfl
    | with_reducible apply SameExcept.stored (spoilFlit_reach _ _ _) rfl
    | with_reducible apply landPiece_stored
    | with_reducible apply SameExcept.stored (wakeIsl_reach _ _) rfl
    | split
    | dsimp only

theorem performAccess_stored {s : State} (a b c d) (h : s.stored = true) : (performAccess a b c d s).stored = true := by
  unfold performAccess
  try dsimp only
  repeat' first
    | with_reducible assumption
    | with_reducible apply tagCheck_stored
    | with_reducible apply SameExcept.stored (takeArrival_reach _ _ _ _) rfl
    | with_reducible apply SameExcept.stored (takeTurn_reach _ _ _ _) rfl
    | with_reducible apply accessRead_stored
    | with_reducible apply SameExcept.stored (readPart_reach _ _ _ _) rfl
    | with_reducible apply accessWrite_stored
    | with_reducible apply SameExcept.stored (captureWrite_reach _ _ _) rfl
    | with_reducible apply SameExcept.stored (countPoison_reach _ _ _ _) rfl
    | with_reducible apply landPiece_stored
    | split
    | dsimp only

theorem atomicAt_stored {s : State} (a b c d e f g j) (h : s.stored = true) : (atomicAt a b c d e f g j s).stored = true := by
  unfold atomicAt
  try dsimp only
  repeat' first
    | with_reducible assumption
    | with_reducible apply tagCheck_stored
    | with_reducible apply SameExcept.stored (hbmTurn_reach _ _ _ _) rfl
    | with_reducible apply hbmAtomic_stored
    | with_reducible apply SameExcept.stored (captureWrite_reach _ _ _) rfl
    | with_reducible apply SameExcept.stored (answer_reach _ _) rfl
    | split
    | dsimp only

theorem requestAtomic_stored {s : State} (a b c d e f g j k l) (h : s.stored = true) : (requestAtomic a b c d e f g j k l s).stored = true := by
  unfold requestAtomic
  try dsimp only
  repeat' first
    | with_reducible assumption
    | with_reducible apply SameExcept.stored (translate_reach _ _ _ _) rfl
    | with_reducible apply SameExcept.stored (raiseFault_reach _ _ _ _ _ _ _) rfl
    | with_reducible apply atomicAt_stored
    | with_reducible apply SameExcept.stored (sendPoint_reach _ _ _ _ _ _ _) rfl
    | split
    | dsimp only

theorem beginReceipt_stored {s : State} (a b c) (h : s.stored = true) : (beginReceipt a b c s).stored = true := by
  unfold beginReceipt
  try dsimp only
  repeat' first
    | with_reducible assumption
    | with_reducible apply SameExcept.stored (ringReceipt_reach _ _ _ _) rfl
    | with_reducible apply spillReceipt_stored
    | with_reducible apply SameExcept.stored (setQ_reach _ _ _) rfl
    | with_reducible apply SameExcept.stored (askFlush_reach _ _) rfl
    | with_reducible apply forEach_stored
    | ((with_reducible intro _ _ _ _); try dsimp only)
    | ((with_reducible intro _ _ _); try dsimp only)
    | ((with_reducible intro _ _); try dsimp only)
    | split
    | dsimp only

theorem ackReceipt_stored {s : State} (a b c) (h : s.stored = true) : (ackReceipt a b c s).stored = true := by
  unfold ackReceipt
  try dsimp only
  repeat' first
    | with_reducible assumption
    | with_reducible apply SameExcept.stored (receiptArrived_reach _ _ _ _) rfl
    | with_reducible apply writeRing_stored
    | with_reducible apply SameExcept.stored (updQ_reach _ _ _) rfl
    | split
    | dsimp only

theorem writeReceipt_stored {s : State} (a) (h : s.stored = true) : (writeReceipt a s).stored = true := by
  unfold writeReceipt
  try dsimp only
  repeat' first
    | with_reducible assumption
    | with_reducible apply ackReceipt_stored
    | with_reducible apply beginReceipt_stored
    | split
    | dsimp only

end Sys2Proof.Machine
end

