-- ==== Sys2Proof/Laws/Registers.lean ====
section
/-! SUPPORT. What each operation of Machine/Registers.lean reaches: every other part of the state is as it was (`_reach`), and memory and the
marks keep their canonical form (`_stored`). -/

namespace Sys2Proof.Machine

set_option linter.unusedTactic false
set_option linter.unreachableTactic false
set_option linter.unnecessarySeqFocus false

theorem misaligned_reach (a b c d s) : SameExcept [.freeCtr, .log, .answers] s (misaligned a b c d s) := by
  unfold misaligned
  try dsimp only
  repeat' first
    | with_reducible exact SameExcept.refl _ _
    | ((with_reducible apply covers_intro); decide)
    | with_reducible apply SameExcept.step (drawFree_reach _)
    | with_reducible apply SameExcept.step (logEvent_reach _ _ _ _)
    | with_reducible apply SameExcept.step (answer_reach _ _)
    | split
    | dsimp only

theorem readWindow_reach (a b c s) : SameExcept [.freeCtr, .cores, .answers] s (readWindow a b c s) := by
  unfold readWindow
  try dsimp only
  repeat' first
    | with_reducible exact SameExcept.refl _ _
    | ((with_reducible apply covers_intro); decide)
    | with_reducible apply SameExcept.step (debugRead_reach _ _ _ _ _)
    | with_reducible apply SameExcept.step (drawFree_reach _)
    | with_reducible apply SameExcept.step (answer_reach _ _)
    | split
    | dsimp only

theorem writeCore_reach (a b c d s) : SameExcept [.isl, .seg, .cores] s (writeCore a b c d s) := by
  unfold writeCore
  try dsimp only
  repeat' first
    | with_reducible exact SameExcept.refl _ _
    | ((with_reducible apply covers_intro); decide)
    | with_reducible apply SameExcept.step (updCore_reach _ _ _)
    | with_reducible apply SameExcept.step (updIsl_reach _ _ _)
    | ((with_reducible apply FieldsSame.intro); intro q hq; cases q <;> first | exact absurd (by decide) hq | (dsimp only [Part.same, memByte]; done) | (dsimp only [Part.same, memByte]; exact ⟨rfl, fun _ => rfl⟩) | (dsimp only [Part.same]; exact ⟨rfl, rfl⟩))
    | split
    | dsimp only
    | with_reducible apply SameExcept.fields

theorem writeGrinder_reach (a b c s) : SameExcept [.seg, .grinders] s (writeGrinder a b c s) := by
  unfold writeGrinder
  try dsimp only
  repeat' first
    | with_reducible exact SameExcept.refl _ _
    | ((with_reducible apply covers_intro); decide)
    | with_reducible apply SameExcept.step (setGrinder_reach _ _ _)
    | ((with_reducible apply FieldsSame.intro); intro q hq; cases q <;> first | exact absurd (by decide) hq | (dsimp only [Part.same, memByte]; done) | (dsimp only [Part.same, memByte]; exact ⟨rfl, fun _ => rfl⟩) | (dsimp only [Part.same]; exact ⟨rfl, rfl⟩))
    | split
    | dsimp only
    | with_reducible apply SameExcept.fields

theorem writeMemory_reach (a b c s) : SameExcept [.mc] s (writeMemory a b c s) := by
  unfold writeMemory
  try dsimp only
  repeat' first
    | with_reducible exact SameExcept.refl _ _
    | ((with_reducible apply covers_intro); decide)
    | with_reducible apply SameExcept.step (updMc_reach _ _ _)
    | split
    | dsimp only

theorem writeSelect_reach (a b c s) : SameExcept [.selects] s (writeSelect a b c s) := by
  unfold writeSelect
  try dsimp only
  repeat' first
    | with_reducible exact SameExcept.refl _ _
    | ((with_reducible apply covers_intro); decide)
    | ((with_reducible apply FieldsSame.intro); intro q hq; cases q <;> first | exact absurd (by decide) hq | (dsimp only [Part.same, memByte]; done) | (dsimp only [Part.same, memByte]; exact ⟨rfl, fun _ => rfl⟩) | (dsimp only [Part.same]; exact ⟨rfl, rfl⟩))
    | split
    | dsimp only
    | with_reducible apply SameExcept.fields

theorem writeTable_reach (a b c s) : SameExcept [.stores] s (writeTable a b c s) := by
  unfold writeTable
  try dsimp only
  repeat' first
    | with_reducible exact SameExcept.refl _ _
    | ((with_reducible apply covers_intro); decide)
    | with_reducible apply SameExcept.step (updStore_reach _ _ _)
    | split

theorem writeCacheReg_reach (a b c s) : SameExcept [.cache] s (writeCacheReg a b c s) := by
  unfold writeCacheReg
  try dsimp only
  repeat' first
    | with_reducible exact SameExcept.refl _ _
    | ((with_reducible apply covers_intro); decide)
    | with_reducible apply SameExcept.step (setCache_reach _ _ _)
    | split
    | dsimp only

theorem writeTrust_reach (a b c s) : SameExcept [.log, .plan, .power] s (writeTrust a b c s) := by
  unfold writeTrust
  try dsimp only
  repeat' first
    | with_reducible exact SameExcept.refl _ _
    | ((with_reducible apply covers_intro); decide)
    | with_reducible exact SameExcept.ident _ _
    | with_reducible apply writePwr_reach
    | ((with_reducible apply FieldsSame.intro); intro q hq; cases q <;> first | exact absurd (by decide) hq | (dsimp only [Part.same, memByte]; done) | (dsimp only [Part.same, memByte]; exact ⟨rfl, fun _ => rfl⟩) | (dsimp only [Part.same]; exact ⟨rfl, rfl⟩))
    | ((with_reducible intro _ _); try dsimp only)
    | ((with_reducible intro _); try dsimp only)
    | split
    | dsimp only
    | with_reducible apply SameExcept.fields

theorem writeCourierReg_reach (a b c s) : SameExcept [.courier] s (writeCourierReg a b c s) := by
  unfold writeCourierReg
  try dsimp only
  repeat' first
    | with_reducible exact SameExcept.refl _ _
    | ((with_reducible apply covers_intro); decide)
    | with_reducible apply SameExcept.step (updCr_reach _ _ _)
    | ((with_reducible apply FieldsSame.intro); intro q hq; cases q <;> first | exact absurd (by decide) hq | (dsimp only [Part.same, memByte]; done) | (dsimp only [Part.same, memByte]; exact ⟨rfl, fun _ => rfl⟩) | (dsimp only [Part.same]; exact ⟨rfl, rfl⟩))
    | split
    | with_reducible apply SameExcept.fields

theorem writeIsland_reach (a b c d e s) : SameExcept [.log, .plan, .power, .isl, .cache, .mc, .seg, .host, .cores, .selects, .grinders, .stores, .courier] s (writeIsland a b c d e s) := by
  unfold writeIsland
  try dsimp only
  repeat' first
    | with_reducible exact SameExcept.refl _ _
    | ((with_reducible apply covers_intro); decide)
    | with_reducible apply SameExcept.step (writeCore_reach _ _ _ _ _)
    | with_reducible apply SameExcept.step (writeGrinder_reach _ _ _ _)
    | with_reducible apply SameExcept.step (writeMemory_reach _ _ _ _)
    | with_reducible apply SameExcept.step (writeSelect_reach _ _ _ _)
    | with_reducible apply SameExcept.step (writeTable_reach _ _ _ _)
    | with_reducible apply SameExcept.step (writeCacheReg_reach _ _ _ _)
    | with_reducible apply SameExcept.step (writeTrust_reach _ _ _ _)
    | with_reducible apply SameExcept.step (updGk_reach _ _ _)
    | with_reducible apply SameExcept.step (writeCourierReg_reach _ _ _ _)
    | ((with_reducible apply FieldsSame.intro); intro q hq; cases q <;> first | exact absurd (by decide) hq | (dsimp only [Part.same, memByte]; done) | (dsimp only [Part.same, memByte]; exact ⟨rfl, fun _ => rfl⟩) | (dsimp only [Part.same]; exact ⟨rfl, rfl⟩))
    | split
    | dsimp only
    | with_reducible apply SameExcept.fields

theorem writeCall_reach (a b c s) : SameExcept [.log, .pm, .host] s (writeCall a b c s) := by
  unfold writeCall
  try dsimp only
  repeat' first
    | with_reducible exact SameExcept.refl _ _
    | ((with_reducible apply covers_intro); decide)
    | with_reducible apply pmCall_reach
    | with_reducible apply SameExcept.step (logEvent_reach _ _ _ _)
    | with_reducible apply SameExcept.step (updSlot_reach _ _ _)
    | ((with_reducible intro _ _); try dsimp only)
    | ((with_reducible intro _); try dsimp only)
    | split

theorem writeSlot_reach (a b c d e s) : SameExcept [.log, .pm, .host] s (writeSlot a b c d e s) := by
  unfold writeSlot
  try dsimp only
  repeat' first
    | with_reducible exact SameExcept.refl _ _
    | ((with_reducible apply covers_intro); decide)
    | with_reducible apply SameExcept.step (writeCall_reach _ _ _ _)
    | with_reducible apply SameExcept.step (updSlot_reach _ _ _)
    | with_reducible apply SameExcept.foldl
    | with_reducible apply SameExcept.foldlFst
    | ((with_reducible intro _ _); try dsimp only)
    | ((with_reducible intro _); try dsimp only)
    | split
    | dsimp only

theorem writeQueueReg_reach (a b c d s) : SameExcept [.qs] s (writeQueueReg a b c d s) := by
  unfold writeQueueReg
  try dsimp only
  repeat' first
    | with_reducible exact SameExcept.refl _ _
    | ((with_reducible apply covers_intro); decide)
    | with_reducible apply SameExcept.step (setQ_reach _ _ _)
    | split
    | dsimp only

theorem writeMailbox_reach (a b c s) : SameExcept [.log, .host] s (writeMailbox a b c s) := by
  unfold writeMailbox
  try dsimp only
  repeat' first
    | with_reducible exact SameExcept.refl _ _
    | ((with_reducible apply covers_intro); decide)
    | with_reducible apply SameExcept.step (logEvent_reach _ _ _ _)
    | with_reducible apply SameExcept.foldl
    | with_reducible apply SameExcept.foldlFst
    | ((with_reducible apply FieldsSame.intro); intro q hq; cases q <;> first | exact absurd (by decide) hq | (dsimp only [Part.same, memByte]; done) | (dsimp only [Part.same, memByte]; exact ⟨rfl, fun _ => rfl⟩) | (dsimp only [Part.same]; exact ⟨rfl, rfl⟩))
    | ((with_reducible intro _ _); try dsimp only)
    | ((with_reducible intro _); try dsimp only)
    | split
    | dsimp only
    | with_reducible apply SameExcept.fields

theorem writeWindow_reach (a b c d s) : SameExcept [.log, .plan, .power, .isl, .pm, .cache, .mc, .seg, .host, .qs, .cores, .selects, .grinders, .stores, .courier] s (writeWindow a b c d s) := by
  unfold writeWindow
  try dsimp only
  repeat' first
    | with_reducible exact SameExcept.refl _ _
    | ((with_reducible apply covers_intro); decide)
    | with_reducible apply SameExcept.step (writeSlot_reach _ _ _ _ _ _)
    | with_reducible apply SameExcept.step (writeQueueReg_reach _ _ _ _ _)
    | with_reducible apply SameExcept.step (writeIsland_reach _ _ _ _ _ _)
    | with_reducible apply SameExcept.step (writeMailbox_reach _ _ _ _)
    | split
    | dsimp only

theorem registerWrite_reach (a b c d s) : SameExcept [.freeCtr, .log, .plan, .power, .isl, .pm, .cache, .mc, .seg, .host, .qs, .cores, .selects, .grinders, .stores, .courier, .answers] s (registerWrite a b c d s) := by
  unfold registerWrite
  try dsimp only
  repeat' first
    | with_reducible exact SameExcept.refl _ _
    | ((with_reducible apply covers_intro); decide)
    | with_reducible apply SameExcept.step (misaligned_reach _ _ _ _ _)
    | with_reducible apply SameExcept.step (carrierDenied_reach _ _ _)
    | with_reducible apply SameExcept.step (writeWindow_reach _ _ _ _ _)
    | split
    | dsimp only

theorem carrierAccess_reach (a b s) : SameExcept [.freeCtr, .log, .plan, .pm, .mem, .poison, .cache, .mc, .cores, .courier, .answers] s (carrierAccess a b s) := by
  unfold carrierAccess
  try dsimp only
  repeat' first
    | with_reducible exact SameExcept.refl _ _
    | ((with_reducible apply covers_intro); decide)
    | with_reducible apply SameExcept.step (answer_reach _ _)
    | with_reducible apply SameExcept.step (carrierDenied_reach _ _ _)
    | with_reducible apply SameExcept.step (hbmRead_reach _ _ _ _ _)
    | with_reducible apply SameExcept.step (hbmTurn_reach _ _ _ _)
    | with_reducible apply SameExcept.step (captureWrite_reach _ _ _)
    | with_reducible apply SameExcept.step (hbmWrite_reach _ _ _ _ _)
    | with_reducible apply SameExcept.step (misaligned_reach _ _ _ _ _)
    | with_reducible apply SameExcept.step (readWindow_reach _ _ _ _)
    | split
    | dsimp only

theorem sideband_reach (a s) : SameExcept [.answers] s (sideband a s) := by
  unfold sideband
  try dsimp only
  repeat' first
    | with_reducible exact SameExcept.refl _ _
    | ((with_reducible apply covers_intro); decide)
    | with_reducible apply SameExcept.step (answer_reach _ _)
    | split

theorem recordRead_reach (a b s) : SameExcept [.freeCtr, .answers] s (recordRead a b s) := by
  unfold recordRead
  try dsimp only
  repeat' first
    | with_reducible exact SameExcept.refl _ _
    | ((with_reducible apply covers_intro); decide)
    | with_reducible apply SameExcept.step (answer_reach _ _)
    | with_reducible apply SameExcept.step (drawFree_reach _)
    | split
    | dsimp only

theorem alertRead_reach (s) : SameExcept [.power, .answers] s (alertRead s) := by
  unfold alertRead
  try dsimp only
  repeat' first
    | with_reducible exact SameExcept.refl _ _
    | ((with_reducible apply covers_intro); decide)
    | with_reducible apply SameExcept.step (answer_reach _ _)
    | ((with_reducible apply FieldsSame.intro); intro q hq; cases q <;> first | exact absurd (by decide) hq | (dsimp only [Part.same, memByte]; done) | (dsimp only [Part.same, memByte]; exact ⟨rfl, fun _ => rfl⟩) | (dsimp only [Part.same]; exact ⟨rfl, rfl⟩))
    | split
    | with_reducible apply SameExcept.fields

/-! ### The canonical form -/

theorem carrierAccess_stored {s : State} (a b) (h : s.stored = true) : (carrierAccess a b s).stored = true := by
  unfold carrierAccess
  try dsimp only
  repeat' first
    | with_reducible assumption
    | with_reducible apply SameExcept.stored (answer_reach _ _) rfl
    | with_reducible apply SameExcept.stored (carrierDenied_reach _ _ _) rfl
    | with_reducible apply hbmRead_stored
    | with_reducible apply SameExcept.stored (hbmTurn_reach _ _ _ _) rfl
    | with_reducible apply SameExcept.stored (captureWrite_reach _ _ _) rfl
    | with_reducible apply hbmWrite_stored
    | with_reducible apply SameExcept.stored (misaligned_reach _ _ _ _ _) rfl
    | with_reducible apply SameExcept.stored (readWindow_reach _ _ _ _) rfl
    | split
    | dsimp only

end Sys2Proof.Machine
end

