-- ==== Sys2Proof/Laws/Ready.lean ====
section
/-! SUPPORT. What the conditions of Safety on a ready op mean to the sequencer: a valid op passes its checks, and a ready op is issued. -/

namespace Sys2Proof.Machine

set_option linter.unusedTactic false
set_option linter.unreachableTactic false
set_option linter.unnecessarySeqFocus false

theorem lowestCode_none {l : List (Bool × Nat)} (h : ∀ e ∈ l, e.1 = false) : lowestCode l = none := by
  have e : l.filter (·.1) = [] := by
    rw [List.filter_eq_nil_iff]
    intro e he
    simp [h e he]
  simp [lowestCode, e]

theorem not_lt_decide {a b : Nat} (h : b ≤ a) : decide (a < b) = false := by simp [h]

theorem div_pow_zero {a n : Nat} (h : a < n) : a / n = 0 := Nat.div_eq_of_lt h

theorem semValid_checks {s : State} {p : Nat} {w : Bits256} (h : SemValid s p w) : semChecks s p w = none := by
  obtain ⟨h1, h2, h3, h4, h5, h6, h7, h8, h9, h10, h11⟩ := h
  have e3 := div_pow_zero h3
  refine lowestCode_none fun e he => ?_
  simp only [List.mem_cons, List.not_mem_nil, or_false] at he
  rcases he with rfl | rfl | rfl | rfl | rfl <;> simp_all

theorem grdValid_checks {s : State} {p : Nat} {w : Bits256} (h : GrdValid s p w) : grdChecks s p w = none := by
  obtain ⟨h1, h2, h3, h4, h5, h6, h7, h8, h9, h10⟩ := h
  refine lowestCode_none fun e he => ?_
  simp only [List.mem_cons, List.not_mem_nil, or_false] at he
  rcases he with rfl | rfl | rfl | rfl | rfl
  · simp_all
  · simp_all
  · simp_all
  · revert h8
    cases grdDone w <;> simp_all [DoneOk]
  · simp_all

theorem vecValid_checks {s : State} {p : Nat} {w : Bits256} (h : VecValid s p w) : vecChecks s p (getCore s p) w = none := by
  obtain ⟨h1, h2, h3, h4, h5, h6, h7, h8, h9⟩ := h
  have e3 := div_pow_zero h3
  refine lowestCode_none fun e he => ?_
  simp only [List.mem_cons, List.not_mem_nil, or_false] at he
  rcases he with rfl | rfl | rfl | rfl
  · simp_all
  · simp_all
  · dsimp only
    split
    · next hc =>
      simp only [Bool.and_eq_true, beq_iff_eq] at hc
      have := h9 hc.1.2 hc.2
      simp only [Bool.or_eq_false_iff, decide_eq_false_iff_not, not_lt, beq_eq_false_iff_ne]
      omega
    · simp only [Bool.or_eq_false_iff, decide_eq_false_iff_not, not_lt, beq_eq_false_iff_ne]
      omega
  · simp_all

theorem movValid_checks {s : State} {p : Nat} {w : Bits256} (h : MovValid s p w) : movChecks s p (getCore s p) w = none := by
  obtain ⟨⟨a1, a2, a3⟩, ⟨b1, b2, b3, b4, b5, b6, b7, b8, b9⟩, ⟨c1, c2, c3, c4, c5, c6, c7⟩, ⟨d1, d2⟩, e1, f1, g1⟩ := h
  have b6' := div_pow_zero b6
  have b1' := div_pow_zero b1
  refine lowestCode_none fun e he => ?_
  simp only [List.mem_cons, List.not_mem_nil, or_false] at he
  rcases he with rfl | rfl | rfl | rfl | rfl | rfl
  · simp only [Bool.or_eq_false_iff, decide_eq_false_iff_not, not_lt, Bool.and_eq_false_iff]
    refine ⟨⟨a1, ?_⟩, ?_⟩
    · by_cases hs : (movOp w).skew <;> simp_all
    · by_cases hs : (movOp w).unsealed <;> simp_all
  · simp only [Bool.or_eq_false_iff, Bool.and_eq_false_iff, bne_eq_false_iff_eq]
    refine ⟨⟨⟨⟨⟨⟨⟨⟨b1', ?_⟩, ?_⟩, ?_⟩, ?_⟩, b6'⟩, ?_⟩, b8⟩, b9⟩
    · by_cases hk : (movOp w).kind = 4 <;> simp_all
    · by_cases hk : (movOp w).kind = 2
      · simp_all
      · by_cases hk : (movOp w).kind = 3 <;> simp_all
    · by_cases hk : (movOp w).kind = 2 ∨ (movOp w).kind = 3
      · exact Or.inr (div_pow_zero (b4 hk))
      · simp_all
    · by_cases hk : (movOp w).kind = 2 <;> simp_all
    · by_cases hs : (movOp w).unsealed = true
      · exact Or.inr (div_pow_zero (b7 hs))
      · simp_all
  · by_cases hs : (movOp w).skew = true <;> by_cases hu : (movOp w).unsealed = true <;> by_cases h3 : (movOp w).kind = 3 <;>
      by_cases h4 : (movOp w).kind = 4 <;> simp_all <;> omega
  · simp only [Bool.or_eq_false_iff, decide_eq_false_iff_not, not_lt]
    exact ⟨d1, d2⟩
  · simp only [Bool.or_eq_false_iff, Bool.and_eq_false_iff, Bool.not_eq_false', List.all_eq_true]
    refine ⟨?_, ?_⟩
    · by_cases hk : (movOp w).kind = 4 <;> simp_all
    · by_cases hk : (movOp w).kind = 2
      · refine Or.inr fun r hr => ?_
        obtain ⟨k, hk', rfl⟩ := List.mem_map.1 hr
        exact f1 hk k (List.mem_range.1 hk')
      · simp_all
  · dsimp only
    revert g1
    cases (movOp w).done <;> simp_all [DoneOk]

theorem ctlValid_checks {s : State} {p : Nat} {w : Bits256} (hc : opClass w = 5) (h : CtlValid s p w) : ctlChecks s p (getCore s p) w = none := by
  obtain ⟨a, b, c, d, e, f, g, j, k, l⟩ := h
  refine lowestCode_none fun x hx => ?_
  simp only [List.mem_cons, List.not_mem_nil, or_false] at hx
  rcases hx with rfl | rfl | rfl | rfl | rfl | rfl | rfl | rfl
  · by_cases h7 : opSub w = 7 <;> simp_all
  · exact b
  · by_cases h1 : opSub w = 1 <;> simp_all
  · simp only [Bool.or_eq_false_iff, decide_eq_false_iff_not, not_lt]
    exact ⟨e, c⟩
  · by_cases h3 : opSub w = 3 <;> by_cases h7 : opSub w = 7 <;> by_cases h0 : opField w 4 1 = 0 <;> simp_all
  · by_cases h4 : opSub w = 4 <;> simp_all
  · by_cases h7 : opSub w = 7
    · obtain ⟨j1, j2, j3⟩ := j h7
      by_cases h0 : opField w 4 1 = 0
      · have := (j2 h0).2
        cases hp : partOfPhys s p <;> simp_all
      · have := j3 (by omega)
        cases hp : partOfPhys s p <;> simp_all
    · simp_all
  · by_cases h6 : opSub w = 6
    · obtain ⟨n, hn, hl⟩ := k h6
      simp_all
    · by_cases h5 : opSub w = 5 <;> simp_all

theorem sourceOk {x a b i c d e n hb m q sc wi it lo : Bool}
    (h : x = true → a = false ∧ b = false ∧ c = false ∧ d = false ∧ e = false ∧ n = false ∧ (hb = true → m = false) ∧ q = false)
    (k : sc = true → wi = false ∧ it = false ∧ lo = false) :
    ((x && (a || b || (i && (c || d || e || n || (hb && m) || q)))) || (sc && (wi || it || lo))) = false := by
  cases x <;> cases sc <;> cases hb <;> simp_all

theorem areasOk {a x b h c d : Bool} (ha : a = true) (hx : x = true → b = false) (hh : h = true → c = true ∧ d = true) :
    (!a || (x && b) || (h && (!c || !d))) = false := by
  cases x <;> cases h <;> simp_all

theorem matValid_checks {s : State} {p : Nat} {w : Bits256} (h : MatValid s p w) : matChecks s p (getCore s p) w = none := by
  obtain ⟨⟨a1, a2, a3, a4, a5⟩, ⟨b1, b2, b3, b4, b5, b6⟩, ⟨c1, c2⟩, ⟨d1, d2, d3⟩, ⟨e1, e2, e3, e4, e5⟩, f, g, k, l, ⟨m1, m2, m3, m4, m5, m6, m7, m8, m9⟩⟩ := h
  have m1' := div_pow_zero m1
  have m2' := div_pow_zero m2
  have m5' := div_pow_zero m5
  refine lowestCode_none fun x hx => ?_
  simp only [List.mem_cons, List.not_mem_nil, or_false] at hx
  have w3 : (((matOp w).cls == 3) != ((matOp w).mode == 2)) = false := by
    by_cases h2 : (matOp w).mode = 2 <;> simp_all
  rcases hx with rfl | rfl | rfl | rfl | rfl | rfl | rfl | rfl | rfl | rfl
  · simpa using a1
  · by_cases h2 : (matOp w).mode = 2 <;> by_cases h0 : (matOp w).mode = 0 <;> by_cases hh : (matOp w).handoff = true <;>
      by_cases hs : (matOp w).scaled_ = true <;> by_cases hx : (matOp w).expander = true <;> simp_all <;> omega
  · by_cases h2 : (matOp w).mode = 2 <;> simp_all
  · dsimp only
    revert c1 c2
    cases hp : partOfPhys s p <;> simp_all
  · by_cases h2 : (matOp w).mode = 2
    · have := b6 h2
      simp_all
      omega
    · by_cases h1 : (matOp w).mode = 1 <;> simp_all <;> omega
  · simp only [Bool.or_eq_false_iff, decide_eq_false_iff_not, not_lt, Bool.and_eq_false_iff, beq_eq_false_iff_ne]
    exact ⟨⟨d3, Or.inr d2⟩, by omega⟩
  · simp only [Bool.or_eq_false_iff, Bool.and_eq_false_iff, decide_eq_false_iff_not, not_lt, bne_eq_false_iff_eq]
    refine ⟨⟨⟨⟨?_, e2⟩, e3⟩, ?_⟩, ?_⟩
    · by_cases hi : fmtIsInt (matOp w).fw = true <;> simp_all
    · by_cases hc : (matOp w).cont = true
      · refine Or.inr ?_
        simp only [List.any_eq_false, List.mem_map, decide_eq_true_eq, not_not]
        rintro k ⟨a, ha, rfl⟩
        exact e4 hc a ha
      · simp_all
    · by_cases hh : (matOp w).handoff = true <;> simp_all
  · by_cases hh : (matOp w).handoff = true <;> simp_all
  · refine sourceOk (fun hx => ?_) (fun hs => ?_)
    · obtain ⟨g1, g2, g3, g4, g5, g6, g7, g8, g9⟩ := g hx
      refine ⟨?_, bne_eq_false_iff_eq.2 g2, bne_eq_false_iff_eq.2 (div_pow_zero g4), bne_eq_false_iff_eq.2 g5, bne_eq_false_iff_eq.2 g6, g7, g8, g9⟩
      by_contra hn
      simp only [Bool.not_eq_false, Bool.and_eq_true, beq_iff_eq, decide_eq_true_eq] at hn
      exact g1 ⟨hn.1.1, hn.1.2, hn.2⟩
    · obtain ⟨k1, k2, k3⟩ := k hs
      exact ⟨beq_eq_false_iff_ne.2 k1, k2, decide_eq_false (by omega)⟩
  · refine areasOk (List.all_eq_true.2 l) (fun hx => bne_eq_false_iff_eq.2 (g hx).2.2.1) (fun hh => ?_)
    obtain ⟨-, f2, -, -, f5⟩ := f hh
    exact ⟨f2, List.all_eq_true.2 f5⟩

/-- A valid op passes the checks of its class (R205). -/
theorem opValid_checks {s : State} {p : Nat} {w : Bits256} (h : OpValid s p w) : opChecks s p (getCore s p) w = none := by
  unfold opChecks
  rcases h with ⟨h, v⟩ | ⟨h, v⟩ | ⟨h, v⟩ | ⟨h, v⟩ | ⟨h, v⟩ | ⟨h, v⟩ <;> simp only [h]
  · exact matValid_checks v
  · exact vecValid_checks v
  · exact movValid_checks v
  · exact grdValid_checks v
  · exact semValid_checks v
  · exact ctlValid_checks h v

theorem issueOpen_canIssue {c : Core} (h : IssueOpen c) : canIssue c false = true := by
  obtain ⟨h1, h2, h3, h4, h5, h6, h7⟩ := h
  simp [canIssue, *]

/-- A ready op is issued, by every way of issuing that names it. -/
theorem readyOp_issues {s : State} {l p : Nat} {w : Bits256} {pick : Bits256 → Bool} (h : ReadyOp s l p w) (hk : pick w = true) :
    issueLogical l pick s = issueOp p w s := by
  obtain ⟨h1, h2, h3, h4, h5⟩ := h
  have hu : unitTakes s p (getCore s p) w = true := by
    obtain ⟨u1, u2, u3, u4⟩ := h5
    unfold unitTakes
    split
    · next h => exact decide_eq_true (u1 h)
    · next h => exact decide_eq_true (u2 h)
    · next h =>
      split
      · next h4 => rcases u3 h h4 with e | e <;> simp [e]
      · split
        · next h7 =>
          simp only [Bool.not_eq_true', List.any_eq_false, beq_iff_eq]
          exact u4 h h7.1 h7.2
        · rfl
    · rfl
  simp [issueLogical, h1, issueAt, issueOpen_canIssue h2, h3, hk, opValid_checks h4, hu]

end Sys2Proof.Machine
end

