-- ==== Sys2Proof/Laws/State.lean ====
section
/-! SUPPORT. One lemma for each field and each plain update of the state, and the read after a write of each table. -/

namespace Sys2Proof.Machine

set_option linter.unusedTactic false
set_option linter.unreachableTactic false
set_option linter.unnecessarySeqFocus false

@[simp] theorem setIsl_pending (s n i) : (setIsl s n i).pending = s.pending := rfl
@[simp] theorem setIsl_freeCtr (s n i) : (setIsl s n i).freeCtr = s.freeCtr := rfl
@[simp] theorem setIsl_devTime (s n i) : (setIsl s n i).devTime = s.devTime := rfl
@[simp] theorem setIsl_mode (s n i) : (setIsl s n i).mode = s.mode := rfl
@[simp] theorem setIsl_log (s n i) : (setIsl s n i).log = s.log := rfl
@[simp] theorem setIsl_plan (s n i) : (setIsl s n i).plan = s.plan := rfl
@[simp] theorem setIsl_power (s n i) : (setIsl s n i).power = s.power := rfl
@[simp] theorem setIsl_pm (s n i) : (setIsl s n i).pm = s.pm := rfl
@[simp] theorem setIsl_mem (s n i) : (setIsl s n i).mem = s.mem := rfl
@[simp] theorem setIsl_poison (s n i) : (setIsl s n i).poison = s.poison := rfl
@[simp] theorem setIsl_cache (s n i) : (setIsl s n i).cache = s.cache := rfl
@[simp] theorem setIsl_mc (s n i) : (setIsl s n i).mc = s.mc := rfl
@[simp] theorem setIsl_seg (s n i) : (setIsl s n i).seg = s.seg := rfl
@[simp] theorem setIsl_xfers (s n i) : (setIsl s n i).xfers = s.xfers := rfl
@[simp] theorem setIsl_nextXfer (s n i) : (setIsl s n i).nextXfer = s.nextXfer := rfl
@[simp] theorem setIsl_net (s n i) : (setIsl s n i).net = s.net := rfl
@[simp] theorem setIsl_host (s n i) : (setIsl s n i).host = s.host := rfl
@[simp] theorem setIsl_qs (s n i) : (setIsl s n i).qs = s.qs := rfl
@[simp] theorem setIsl_sems (s n i) : (setIsl s n i).sems = s.sems := rfl
@[simp] theorem setIsl_cores (s n i) : (setIsl s n i).cores = s.cores := rfl
@[simp] theorem setIsl_links (s n i) : (setIsl s n i).links = s.links := rfl
@[simp] theorem setIsl_selects (s n i) : (setIsl s n i).selects = s.selects := rfl
@[simp] theorem setIsl_grinders (s n i) : (setIsl s n i).grinders = s.grinders := rfl
@[simp] theorem setIsl_stores (s n i) : (setIsl s n i).stores = s.stores := rfl
@[simp] theorem setIsl_blend (s n i) : (setIsl s n i).blend = s.blend := rfl
@[simp] theorem setIsl_courier (s n i) : (setIsl s n i).courier = s.courier := rfl
@[simp] theorem setIsl_answers (s n i) : (setIsl s n i).answers = s.answers := rfl

@[simp] theorem setCore_pending (s p c) : (setCore s p c).pending = s.pending := rfl
@[simp] theorem setCore_freeCtr (s p c) : (setCore s p c).freeCtr = s.freeCtr := rfl
@[simp] theorem setCore_devTime (s p c) : (setCore s p c).devTime = s.devTime := rfl
@[simp] theorem setCore_mode (s p c) : (setCore s p c).mode = s.mode := rfl
@[simp] theorem setCore_log (s p c) : (setCore s p c).log = s.log := rfl
@[simp] theorem setCore_plan (s p c) : (setCore s p c).plan = s.plan := rfl
@[simp] theorem setCore_power (s p c) : (setCore s p c).power = s.power := rfl
@[simp] theorem setCore_isl (s p c) : (setCore s p c).isl = s.isl := rfl
@[simp] theorem setCore_pm (s p c) : (setCore s p c).pm = s.pm := rfl
@[simp] theorem setCore_mem (s p c) : (setCore s p c).mem = s.mem := rfl
@[simp] theorem setCore_poison (s p c) : (setCore s p c).poison = s.poison := rfl
@[simp] theorem setCore_cache (s p c) : (setCore s p c).cache = s.cache := rfl
@[simp] theorem setCore_mc (s p c) : (setCore s p c).mc = s.mc := rfl
@[simp] theorem setCore_seg (s p c) : (setCore s p c).seg = s.seg := rfl
@[simp] theorem setCore_xfers (s p c) : (setCore s p c).xfers = s.xfers := rfl
@[simp] theorem setCore_nextXfer (s p c) : (setCore s p c).nextXfer = s.nextXfer := rfl
@[simp] theorem setCore_net (s p c) : (setCore s p c).net = s.net := rfl
@[simp] theorem setCore_host (s p c) : (setCore s p c).host = s.host := rfl
@[simp] theorem setCore_qs (s p c) : (setCore s p c).qs = s.qs := rfl
@[simp] theorem setCore_sems (s p c) : (setCore s p c).sems = s.sems := rfl
@[simp] theorem setCore_links (s p c) : (setCore s p c).links = s.links := rfl
@[simp] theorem setCore_selects (s p c) : (setCore s p c).selects = s.selects := rfl
@[simp] theorem setCore_grinders (s p c) : (setCore s p c).grinders = s.grinders := rfl
@[simp] theorem setCore_stores (s p c) : (setCore s p c).stores = s.stores := rfl
@[simp] theorem setCore_blend (s p c) : (setCore s p c).blend = s.blend := rfl
@[simp] theorem setCore_courier (s p c) : (setCore s p c).courier = s.courier := rfl
@[simp] theorem setCore_answers (s p c) : (setCore s p c).answers = s.answers := rfl

@[simp] theorem setSem_pending (s i x) : (setSem s i x).pending = s.pending := rfl
@[simp] theorem setSem_freeCtr (s i x) : (setSem s i x).freeCtr = s.freeCtr := rfl
@[simp] theorem setSem_devTime (s i x) : (setSem s i x).devTime = s.devTime := rfl
@[simp] theorem setSem_mode (s i x) : (setSem s i x).mode = s.mode := rfl
@[simp] theorem setSem_log (s i x) : (setSem s i x).log = s.log := rfl
@[simp] theorem setSem_plan (s i x) : (setSem s i x).plan = s.plan := rfl
@[simp] theorem setSem_power (s i x) : (setSem s i x).power = s.power := rfl
@[simp] theorem setSem_isl (s i x) : (setSem s i x).isl = s.isl := rfl
@[simp] theorem setSem_pm (s i x) : (setSem s i x).pm = s.pm := rfl
@[simp] theorem setSem_mem (s i x) : (setSem s i x).mem = s.mem := rfl
@[simp] theorem setSem_poison (s i x) : (setSem s i x).poison = s.poison := rfl
@[simp] theorem setSem_cache (s i x) : (setSem s i x).cache = s.cache := rfl
@[simp] theorem setSem_mc (s i x) : (setSem s i x).mc = s.mc := rfl
@[simp] theorem setSem_seg (s i x) : (setSem s i x).seg = s.seg := rfl
@[simp] theorem setSem_xfers (s i x) : (setSem s i x).xfers = s.xfers := rfl
@[simp] theorem setSem_nextXfer (s i x) : (setSem s i x).nextXfer = s.nextXfer := rfl
@[simp] theorem setSem_net (s i x) : (setSem s i x).net = s.net := rfl
@[simp] theorem setSem_host (s i x) : (setSem s i x).host = s.host := rfl
@[simp] theorem setSem_qs (s i x) : (setSem s i x).qs = s.qs := rfl
@[simp] theorem setSem_cores (s i x) : (setSem s i x).cores = s.cores := rfl
@[simp] theorem setSem_links (s i x) : (setSem s i x).links = s.links := rfl
@[simp] theorem setSem_selects (s i x) : (setSem s i x).selects = s.selects := rfl
@[simp] theorem setSem_grinders (s i x) : (setSem s i x).grinders = s.grinders := rfl
@[simp] theorem setSem_stores (s i x) : (setSem s i x).stores = s.stores := rfl
@[simp] theorem setSem_blend (s i x) : (setSem s i x).blend = s.blend := rfl
@[simp] theorem setSem_courier (s i x) : (setSem s i x).courier = s.courier := rfl
@[simp] theorem setSem_answers (s i x) : (setSem s i x).answers = s.answers := rfl

@[simp] theorem setLink_pending (s l x) : (setLink s l x).pending = s.pending := rfl
@[simp] theorem setLink_freeCtr (s l x) : (setLink s l x).freeCtr = s.freeCtr := rfl
@[simp] theorem setLink_devTime (s l x) : (setLink s l x).devTime = s.devTime := rfl
@[simp] theorem setLink_mode (s l x) : (setLink s l x).mode = s.mode := rfl
@[simp] theorem setLink_log (s l x) : (setLink s l x).log = s.log := rfl
@[simp] theorem setLink_plan (s l x) : (setLink s l x).plan = s.plan := rfl
@[simp] theorem setLink_power (s l x) : (setLink s l x).power = s.power := rfl
@[simp] theorem setLink_isl (s l x) : (setLink s l x).isl = s.isl := rfl
@[simp] theorem setLink_pm (s l x) : (setLink s l x).pm = s.pm := rfl
@[simp] theorem setLink_mem (s l x) : (setLink s l x).mem = s.mem := rfl
@[simp] theorem setLink_poison (s l x) : (setLink s l x).poison = s.poison := rfl
@[simp] theorem setLink_cache (s l x) : (setLink s l x).cache = s.cache := rfl
@[simp] theorem setLink_mc (s l x) : (setLink s l x).mc = s.mc := rfl
@[simp] theorem setLink_seg (s l x) : (setLink s l x).seg = s.seg := rfl
@[simp] theorem setLink_xfers (s l x) : (setLink s l x).xfers = s.xfers := rfl
@[simp] theorem setLink_nextXfer (s l x) : (setLink s l x).nextXfer = s.nextXfer := rfl
@[simp] theorem setLink_net (s l x) : (setLink s l x).net = s.net := rfl
@[simp] theorem setLink_host (s l x) : (setLink s l x).host = s.host := rfl
@[simp] theorem setLink_qs (s l x) : (setLink s l x).qs = s.qs := rfl
@[simp] theorem setLink_sems (s l x) : (setLink s l x).sems = s.sems := rfl
@[simp] theorem setLink_cores (s l x) : (setLink s l x).cores = s.cores := rfl
@[simp] theorem setLink_selects (s l x) : (setLink s l x).selects = s.selects := rfl
@[simp] theorem setLink_grinders (s l x) : (setLink s l x).grinders = s.grinders := rfl
@[simp] theorem setLink_stores (s l x) : (setLink s l x).stores = s.stores := rfl
@[simp] theorem setLink_blend (s l x) : (setLink s l x).blend = s.blend := rfl
@[simp] theorem setLink_courier (s l x) : (setLink s l x).courier = s.courier := rfl
@[simp] theorem setLink_answers (s l x) : (setLink s l x).answers = s.answers := rfl

@[simp] theorem setXfer_pending (s x v) : (setXfer s x v).pending = s.pending := rfl
@[simp] theorem setXfer_freeCtr (s x v) : (setXfer s x v).freeCtr = s.freeCtr := rfl
@[simp] theorem setXfer_devTime (s x v) : (setXfer s x v).devTime = s.devTime := rfl
@[simp] theorem setXfer_mode (s x v) : (setXfer s x v).mode = s.mode := rfl
@[simp] theorem setXfer_log (s x v) : (setXfer s x v).log = s.log := rfl
@[simp] theorem setXfer_plan (s x v) : (setXfer s x v).plan = s.plan := rfl
@[simp] theorem setXfer_power (s x v) : (setXfer s x v).power = s.power := rfl
@[simp] theorem setXfer_isl (s x v) : (setXfer s x v).isl = s.isl := rfl
@[simp] theorem setXfer_pm (s x v) : (setXfer s x v).pm = s.pm := rfl
@[simp] theorem setXfer_mem (s x v) : (setXfer s x v).mem = s.mem := rfl
@[simp] theorem setXfer_poison (s x v) : (setXfer s x v).poison = s.poison := rfl
@[simp] theorem setXfer_cache (s x v) : (setXfer s x v).cache = s.cache := rfl
@[simp] theorem setXfer_mc (s x v) : (setXfer s x v).mc = s.mc := rfl
@[simp] theorem setXfer_seg (s x v) : (setXfer s x v).seg = s.seg := rfl
@[simp] theorem setXfer_nextXfer (s x v) : (setXfer s x v).nextXfer = s.nextXfer := rfl
@[simp] theorem setXfer_net (s x v) : (setXfer s x v).net = s.net := rfl
@[simp] theorem setXfer_host (s x v) : (setXfer s x v).host = s.host := rfl
@[simp] theorem setXfer_qs (s x v) : (setXfer s x v).qs = s.qs := rfl
@[simp] theorem setXfer_sems (s x v) : (setXfer s x v).sems = s.sems := rfl
@[simp] theorem setXfer_cores (s x v) : (setXfer s x v).cores = s.cores := rfl
@[simp] theorem setXfer_links (s x v) : (setXfer s x v).links = s.links := rfl
@[simp] theorem setXfer_selects (s x v) : (setXfer s x v).selects = s.selects := rfl
@[simp] theorem setXfer_grinders (s x v) : (setXfer s x v).grinders = s.grinders := rfl
@[simp] theorem setXfer_stores (s x v) : (setXfer s x v).stores = s.stores := rfl
@[simp] theorem setXfer_blend (s x v) : (setXfer s x v).blend = s.blend := rfl
@[simp] theorem setXfer_courier (s x v) : (setXfer s x v).courier = s.courier := rfl
@[simp] theorem setXfer_answers (s x v) : (setXfer s x v).answers = s.answers := rfl

@[simp] theorem delXfer_pending (s x) : (delXfer s x).pending = s.pending := rfl
@[simp] theorem delXfer_freeCtr (s x) : (delXfer s x).freeCtr = s.freeCtr := rfl
@[simp] theorem delXfer_devTime (s x) : (delXfer s x).devTime = s.devTime := rfl
@[simp] theorem delXfer_mode (s x) : (delXfer s x).mode = s.mode := rfl
@[simp] theorem delXfer_log (s x) : (delXfer s x).log = s.log := rfl
@[simp] theorem delXfer_plan (s x) : (delXfer s x).plan = s.plan := rfl
@[simp] theorem delXfer_power (s x) : (delXfer s x).power = s.power := rfl
@[simp] theorem delXfer_isl (s x) : (delXfer s x).isl = s.isl := rfl
@[simp] theorem delXfer_pm (s x) : (delXfer s x).pm = s.pm := rfl
@[simp] theorem delXfer_mem (s x) : (delXfer s x).mem = s.mem := rfl
@[simp] theorem delXfer_poison (s x) : (delXfer s x).poison = s.poison := rfl
@[simp] theorem delXfer_cache (s x) : (delXfer s x).cache = s.cache := rfl
@[simp] theorem delXfer_mc (s x) : (delXfer s x).mc = s.mc := rfl
@[simp] theorem delXfer_seg (s x) : (delXfer s x).seg = s.seg := rfl
@[simp] theorem delXfer_nextXfer (s x) : (delXfer s x).nextXfer = s.nextXfer := rfl
@[simp] theorem delXfer_net (s x) : (delXfer s x).net = s.net := rfl
@[simp] theorem delXfer_host (s x) : (delXfer s x).host = s.host := rfl
@[simp] theorem delXfer_qs (s x) : (delXfer s x).qs = s.qs := rfl
@[simp] theorem delXfer_sems (s x) : (delXfer s x).sems = s.sems := rfl
@[simp] theorem delXfer_cores (s x) : (delXfer s x).cores = s.cores := rfl
@[simp] theorem delXfer_links (s x) : (delXfer s x).links = s.links := rfl
@[simp] theorem delXfer_selects (s x) : (delXfer s x).selects = s.selects := rfl
@[simp] theorem delXfer_grinders (s x) : (delXfer s x).grinders = s.grinders := rfl
@[simp] theorem delXfer_stores (s x) : (delXfer s x).stores = s.stores := rfl
@[simp] theorem delXfer_blend (s x) : (delXfer s x).blend = s.blend := rfl
@[simp] theorem delXfer_courier (s x) : (delXfer s x).courier = s.courier := rfl
@[simp] theorem delXfer_answers (s x) : (delXfer s x).answers = s.answers := rfl

@[simp] theorem setQ_pending (s q x) : (setQ s q x).pending = s.pending := rfl
@[simp] theorem setQ_freeCtr (s q x) : (setQ s q x).freeCtr = s.freeCtr := rfl
@[simp] theorem setQ_devTime (s q x) : (setQ s q x).devTime = s.devTime := rfl
@[simp] theorem setQ_mode (s q x) : (setQ s q x).mode = s.mode := rfl
@[simp] theorem setQ_log (s q x) : (setQ s q x).log = s.log := rfl
@[simp] theorem setQ_plan (s q x) : (setQ s q x).plan = s.plan := rfl
@[simp] theorem setQ_power (s q x) : (setQ s q x).power = s.power := rfl
@[simp] theorem setQ_isl (s q x) : (setQ s q x).isl = s.isl := rfl
@[simp] theorem setQ_pm (s q x) : (setQ s q x).pm = s.pm := rfl
@[simp] theorem setQ_mem (s q x) : (setQ s q x).mem = s.mem := rfl
@[simp] theorem setQ_poison (s q x) : (setQ s q x).poison = s.poison := rfl
@[simp] theorem setQ_cache (s q x) : (setQ s q x).cache = s.cache := rfl
@[simp] theorem setQ_mc (s q x) : (setQ s q x).mc = s.mc := rfl
@[simp] theorem setQ_seg (s q x) : (setQ s q x).seg = s.seg := rfl
@[simp] theorem setQ_xfers (s q x) : (setQ s q x).xfers = s.xfers := rfl
@[simp] theorem setQ_nextXfer (s q x) : (setQ s q x).nextXfer = s.nextXfer := rfl
@[simp] theorem setQ_net (s q x) : (setQ s q x).net = s.net := rfl
@[simp] theorem setQ_host (s q x) : (setQ s q x).host = s.host := rfl
@[simp] theorem setQ_sems (s q x) : (setQ s q x).sems = s.sems := rfl
@[simp] theorem setQ_cores (s q x) : (setQ s q x).cores = s.cores := rfl
@[simp] theorem setQ_links (s q x) : (setQ s q x).links = s.links := rfl
@[simp] theorem setQ_selects (s q x) : (setQ s q x).selects = s.selects := rfl
@[simp] theorem setQ_grinders (s q x) : (setQ s q x).grinders = s.grinders := rfl
@[simp] theorem setQ_stores (s q x) : (setQ s q x).stores = s.stores := rfl
@[simp] theorem setQ_blend (s q x) : (setQ s q x).blend = s.blend := rfl
@[simp] theorem setQ_courier (s q x) : (setQ s q x).courier = s.courier := rfl
@[simp] theorem setQ_answers (s q x) : (setQ s q x).answers = s.answers := rfl
@[simp] theorem setQ_qs_invs (s q x) : (setQ s q x).qs.invs = s.qs.invs := rfl
@[simp] theorem setQ_qs_nextInv (s q x) : (setQ s q x).qs.nextInv = s.qs.nextInv := rfl
@[simp] theorem setQ_qs_pools (s q x) : (setQ s q x).qs.pools = s.qs.pools := rfl
@[simp] theorem setQ_qs_savedCores (s q x) : (setQ s q x).qs.savedCores = s.qs.savedCores := rfl
@[simp] theorem setQ_qs_lastServed (s q x) : (setQ s q x).qs.lastServed = s.qs.lastServed := rfl

@[simp] theorem setInv_pending (s i x) : (setInv s i x).pending = s.pending := rfl
@[simp] theorem setInv_freeCtr (s i x) : (setInv s i x).freeCtr = s.freeCtr := rfl
@[simp] theorem setInv_devTime (s i x) : (setInv s i x).devTime = s.devTime := rfl
@[simp] theorem setInv_mode (s i x) : (setInv s i x).mode = s.mode := rfl
@[simp] theorem setInv_log (s i x) : (setInv s i x).log = s.log := rfl
@[simp] theorem setInv_plan (s i x) : (setInv s i x).plan = s.plan := rfl
@[simp] theorem setInv_power (s i x) : (setInv s i x).power = s.power := rfl
@[simp] theorem setInv_isl (s i x) : (setInv s i x).isl = s.isl := rfl
@[simp] theorem setInv_pm (s i x) : (setInv s i x).pm = s.pm := rfl
@[simp] theorem setInv_mem (s i x) : (setInv s i x).mem = s.mem := rfl
@[simp] theorem setInv_poison (s i x) : (setInv s i x).poison = s.poison := rfl
@[simp] theorem setInv_cache (s i x) : (setInv s i x).cache = s.cache := rfl
@[simp] theorem setInv_mc (s i x) : (setInv s i x).mc = s.mc := rfl
@[simp] theorem setInv_seg (s i x) : (setInv s i x).seg = s.seg := rfl
@[simp] theorem setInv_xfers (s i x) : (setInv s i x).xfers = s.xfers := rfl
@[simp] theorem setInv_nextXfer (s i x) : (setInv s i x).nextXfer = s.nextXfer := rfl
@[simp] theorem setInv_net (s i x) : (setInv s i x).net = s.net := rfl
@[simp] theorem setInv_host (s i x) : (setInv s i x).host = s.host := rfl
@[simp] theorem setInv_sems (s i x) : (setInv s i x).sems = s.sems := rfl
@[simp] theorem setInv_cores (s i x) : (setInv s i x).cores = s.cores := rfl
@[simp] theorem setInv_links (s i x) : (setInv s i x).links = s.links := rfl
@[simp] theorem setInv_selects (s i x) : (setInv s i x).selects = s.selects := rfl
@[simp] theorem setInv_grinders (s i x) : (setInv s i x).grinders = s.grinders := rfl
@[simp] theorem setInv_stores (s i x) : (setInv s i x).stores = s.stores := rfl
@[simp] theorem setInv_blend (s i x) : (setInv s i x).blend = s.blend := rfl
@[simp] theorem setInv_courier (s i x) : (setInv s i x).courier = s.courier := rfl
@[simp] theorem setInv_answers (s i x) : (setInv s i x).answers = s.answers := rfl
@[simp] theorem setInv_qs_queues (s i x) : (setInv s i x).qs.queues = s.qs.queues := rfl
@[simp] theorem setInv_qs_nextInv (s i x) : (setInv s i x).qs.nextInv = s.qs.nextInv := rfl
@[simp] theorem setInv_qs_pools (s i x) : (setInv s i x).qs.pools = s.qs.pools := rfl
@[simp] theorem setInv_qs_savedCores (s i x) : (setInv s i x).qs.savedCores = s.qs.savedCores := rfl
@[simp] theorem setInv_qs_lastServed (s i x) : (setInv s i x).qs.lastServed = s.qs.lastServed := rfl

@[simp] theorem setHost_pending (s h x) : (setHost s h x).pending = s.pending := rfl
@[simp] theorem setHost_freeCtr (s h x) : (setHost s h x).freeCtr = s.freeCtr := rfl
@[simp] theorem setHost_devTime (s h x) : (setHost s h x).devTime = s.devTime := rfl
@[simp] theorem setHost_mode (s h x) : (setHost s h x).mode = s.mode := rfl
@[simp] theorem setHost_log (s h x) : (setHost s h x).log = s.log := rfl
@[simp] theorem setHost_plan (s h x) : (setHost s h x).plan = s.plan := rfl
@[simp] theorem setHost_power (s h x) : (setHost s h x).power = s.power := rfl
@[simp] theorem setHost_isl (s h x) : (setHost s h x).isl = s.isl := rfl
@[simp] theorem setHost_pm (s h x) : (setHost s h x).pm = s.pm := rfl
@[simp] theorem setHost_mem (s h x) : (setHost s h x).mem = s.mem := rfl
@[simp] theorem setHost_poison (s h x) : (setHost s h x).poison = s.poison := rfl
@[simp] theorem setHost_cache (s h x) : (setHost s h x).cache = s.cache := rfl
@[simp] theorem setHost_mc (s h x) : (setHost s h x).mc = s.mc := rfl
@[simp] theorem setHost_seg (s h x) : (setHost s h x).seg = s.seg := rfl
@[simp] theorem setHost_xfers (s h x) : (setHost s h x).xfers = s.xfers := rfl
@[simp] theorem setHost_nextXfer (s h x) : (setHost s h x).nextXfer = s.nextXfer := rfl
@[simp] theorem setHost_net (s h x) : (setHost s h x).net = s.net := rfl
@[simp] theorem setHost_qs (s h x) : (setHost s h x).qs = s.qs := rfl
@[simp] theorem setHost_sems (s h x) : (setHost s h x).sems = s.sems := rfl
@[simp] theorem setHost_cores (s h x) : (setHost s h x).cores = s.cores := rfl
@[simp] theorem setHost_links (s h x) : (setHost s h x).links = s.links := rfl
@[simp] theorem setHost_selects (s h x) : (setHost s h x).selects = s.selects := rfl
@[simp] theorem setHost_grinders (s h x) : (setHost s h x).grinders = s.grinders := rfl
@[simp] theorem setHost_stores (s h x) : (setHost s h x).stores = s.stores := rfl
@[simp] theorem setHost_blend (s h x) : (setHost s h x).blend = s.blend := rfl
@[simp] theorem setHost_courier (s h x) : (setHost s h x).courier = s.courier := rfl
@[simp] theorem setHost_answers (s h x) : (setHost s h x).answers = s.answers := rfl
@[simp] theorem setHost_host_ports (s h x) : (setHost s h x).host.ports = s.host.ports := rfl
@[simp] theorem setHost_host_spillBase (s h x) : (setHost s h x).host.spillBase = s.host.spillBase := rfl
@[simp] theorem setHost_host_h2m (s h x) : (setHost s h x).host.h2m = s.host.h2m := rfl
@[simp] theorem setHost_host_busy (s h x) : (setHost s h x).host.busy = s.host.busy := rfl
@[simp] theorem setHost_host_m2h (s h x) : (setHost s h x).host.m2h = s.host.m2h := rfl
@[simp] theorem setHost_host_full (s h x) : (setHost s h x).host.full = s.host.full := rfl
@[simp] theorem setHost_host_mbCtrl (s h x) : (setHost s h x).host.mbCtrl = s.host.mbCtrl := rfl
@[simp] theorem setHost_host_notices (s h x) : (setHost s h x).host.notices = s.host.notices := rfl
@[simp] theorem setHost_host_toCarrier (s h x) : (setHost s h x).host.toCarrier = s.host.toCarrier := rfl
@[simp] theorem setHost_host_vectors (s h x) : (setHost s h x).host.vectors = s.host.vectors := rfl
@[simp] theorem setHost_host_raised (s h x) : (setHost s h x).host.raised = s.host.raised := rfl
@[simp] theorem setHost_host_sent (s h x) : (setHost s h x).host.sent = s.host.sent := rfl
@[simp] theorem setHost_host_delivered (s h x) : (setHost s h x).host.delivered = s.host.delivered := rfl

@[simp] theorem setGk_pending (s p x) : (setGk s p x).pending = s.pending := rfl
@[simp] theorem setGk_freeCtr (s p x) : (setGk s p x).freeCtr = s.freeCtr := rfl
@[simp] theorem setGk_devTime (s p x) : (setGk s p x).devTime = s.devTime := rfl
@[simp] theorem setGk_mode (s p x) : (setGk s p x).mode = s.mode := rfl
@[simp] theorem setGk_log (s p x) : (setGk s p x).log = s.log := rfl
@[simp] theorem setGk_plan (s p x) : (setGk s p x).plan = s.plan := rfl
@[simp] theorem setGk_power (s p x) : (setGk s p x).power = s.power := rfl
@[simp] theorem setGk_isl (s p x) : (setGk s p x).isl = s.isl := rfl
@[simp] theorem setGk_pm (s p x) : (setGk s p x).pm = s.pm := rfl
@[simp] theorem setGk_mem (s p x) : (setGk s p x).mem = s.mem := rfl
@[simp] theorem setGk_poison (s p x) : (setGk s p x).poison = s.poison := rfl
@[simp] theorem setGk_cache (s p x) : (setGk s p x).cache = s.cache := rfl
@[simp] theorem setGk_mc (s p x) : (setGk s p x).mc = s.mc := rfl
@[simp] theorem setGk_seg (s p x) : (setGk s p x).seg = s.seg := rfl
@[simp] theorem setGk_xfers (s p x) : (setGk s p x).xfers = s.xfers := rfl
@[simp] theorem setGk_nextXfer (s p x) : (setGk s p x).nextXfer = s.nextXfer := rfl
@[simp] theorem setGk_net (s p x) : (setGk s p x).net = s.net := rfl
@[simp] theorem setGk_qs (s p x) : (setGk s p x).qs = s.qs := rfl
@[simp] theorem setGk_sems (s p x) : (setGk s p x).sems = s.sems := rfl
@[simp] theorem setGk_cores (s p x) : (setGk s p x).cores = s.cores := rfl
@[simp] theorem setGk_links (s p x) : (setGk s p x).links = s.links := rfl
@[simp] theorem setGk_selects (s p x) : (setGk s p x).selects = s.selects := rfl
@[simp] theorem setGk_grinders (s p x) : (setGk s p x).grinders = s.grinders := rfl
@[simp] theorem setGk_stores (s p x) : (setGk s p x).stores = s.stores := rfl
@[simp] theorem setGk_blend (s p x) : (setGk s p x).blend = s.blend := rfl
@[simp] theorem setGk_courier (s p x) : (setGk s p x).courier = s.courier := rfl
@[simp] theorem setGk_answers (s p x) : (setGk s p x).answers = s.answers := rfl
@[simp] theorem setGk_host_hosts (s p x) : (setGk s p x).host.hosts = s.host.hosts := rfl
@[simp] theorem setGk_host_spillBase (s p x) : (setGk s p x).host.spillBase = s.host.spillBase := rfl
@[simp] theorem setGk_host_h2m (s p x) : (setGk s p x).host.h2m = s.host.h2m := rfl
@[simp] theorem setGk_host_busy (s p x) : (setGk s p x).host.busy = s.host.busy := rfl
@[simp] theorem setGk_host_m2h (s p x) : (setGk s p x).host.m2h = s.host.m2h := rfl
@[simp] theorem setGk_host_full (s p x) : (setGk s p x).host.full = s.host.full := rfl
@[simp] theorem setGk_host_mbCtrl (s p x) : (setGk s p x).host.mbCtrl = s.host.mbCtrl := rfl
@[simp] theorem setGk_host_notices (s p x) : (setGk s p x).host.notices = s.host.notices := rfl
@[simp] theorem setGk_host_toCarrier (s p x) : (setGk s p x).host.toCarrier = s.host.toCarrier := rfl
@[simp] theorem setGk_host_vectors (s p x) : (setGk s p x).host.vectors = s.host.vectors := rfl
@[simp] theorem setGk_host_raised (s p x) : (setGk s p x).host.raised = s.host.raised := rfl
@[simp] theorem setGk_host_sent (s p x) : (setGk s p x).host.sent = s.host.sent := rfl
@[simp] theorem setGk_host_delivered (s p x) : (setGk s p x).host.delivered = s.host.delivered := rfl

@[simp] theorem setVec_pending (s v x) : (setVec s v x).pending = s.pending := rfl
@[simp] theorem setVec_freeCtr (s v x) : (setVec s v x).freeCtr = s.freeCtr := rfl
@[simp] theorem setVec_devTime (s v x) : (setVec s v x).devTime = s.devTime := rfl
@[simp] theorem setVec_mode (s v x) : (setVec s v x).mode = s.mode := rfl
@[simp] theorem setVec_log (s v x) : (setVec s v x).log = s.log := rfl
@[simp] theorem setVec_plan (s v x) : (setVec s v x).plan = s.plan := rfl
@[simp] theorem setVec_power (s v x) : (setVec s v x).power = s.power := rfl
@[simp] theorem setVec_isl (s v x) : (setVec s v x).isl = s.isl := rfl
@[simp] theorem setVec_pm (s v x) : (setVec s v x).pm = s.pm := rfl
@[simp] theorem setVec_mem (s v x) : (setVec s v x).mem = s.mem := rfl
@[simp] theorem setVec_poison (s v x) : (setVec s v x).poison = s.poison := rfl
@[simp] theorem setVec_cache (s v x) : (setVec s v x).cache = s.cache := rfl
@[simp] theorem setVec_mc (s v x) : (setVec s v x).mc = s.mc := rfl
@[simp] theorem setVec_seg (s v x) : (setVec s v x).seg = s.seg := rfl
@[simp] theorem setVec_xfers (s v x) : (setVec s v x).xfers = s.xfers := rfl
@[simp] theorem setVec_nextXfer (s v x) : (setVec s v x).nextXfer = s.nextXfer := rfl
@[simp] theorem setVec_net (s v x) : (setVec s v x).net = s.net := rfl
@[simp] theorem setVec_qs (s v x) : (setVec s v x).qs = s.qs := rfl
@[simp] theorem setVec_sems (s v x) : (setVec s v x).sems = s.sems := rfl
@[simp] theorem setVec_cores (s v x) : (setVec s v x).cores = s.cores := rfl
@[simp] theorem setVec_links (s v x) : (setVec s v x).links = s.links := rfl
@[simp] theorem setVec_selects (s v x) : (setVec s v x).selects = s.selects := rfl
@[simp] theorem setVec_grinders (s v x) : (setVec s v x).grinders = s.grinders := rfl
@[simp] theorem setVec_stores (s v x) : (setVec s v x).stores = s.stores := rfl
@[simp] theorem setVec_blend (s v x) : (setVec s v x).blend = s.blend := rfl
@[simp] theorem setVec_courier (s v x) : (setVec s v x).courier = s.courier := rfl
@[simp] theorem setVec_answers (s v x) : (setVec s v x).answers = s.answers := rfl
@[simp] theorem setVec_host_ports (s v x) : (setVec s v x).host.ports = s.host.ports := rfl
@[simp] theorem setVec_host_hosts (s v x) : (setVec s v x).host.hosts = s.host.hosts := rfl
@[simp] theorem setVec_host_spillBase (s v x) : (setVec s v x).host.spillBase = s.host.spillBase := rfl
@[simp] theorem setVec_host_h2m (s v x) : (setVec s v x).host.h2m = s.host.h2m := rfl
@[simp] theorem setVec_host_busy (s v x) : (setVec s v x).host.busy = s.host.busy := rfl
@[simp] theorem setVec_host_m2h (s v x) : (setVec s v x).host.m2h = s.host.m2h := rfl
@[simp] theorem setVec_host_full (s v x) : (setVec s v x).host.full = s.host.full := rfl
@[simp] theorem setVec_host_mbCtrl (s v x) : (setVec s v x).host.mbCtrl = s.host.mbCtrl := rfl
@[simp] theorem setVec_host_notices (s v x) : (setVec s v x).host.notices = s.host.notices := rfl
@[simp] theorem setVec_host_toCarrier (s v x) : (setVec s v x).host.toCarrier = s.host.toCarrier := rfl
@[simp] theorem setVec_host_raised (s v x) : (setVec s v x).host.raised = s.host.raised := rfl
@[simp] theorem setVec_host_sent (s v x) : (setVec s v x).host.sent = s.host.sent := rfl
@[simp] theorem setVec_host_delivered (s v x) : (setVec s v x).host.delivered = s.host.delivered := rfl

@[simp] theorem setCache_pending (s d c) : (setCache s d c).pending = s.pending := rfl
@[simp] theorem setCache_freeCtr (s d c) : (setCache s d c).freeCtr = s.freeCtr := rfl
@[simp] theorem setCache_devTime (s d c) : (setCache s d c).devTime = s.devTime := rfl
@[simp] theorem setCache_mode (s d c) : (setCache s d c).mode = s.mode := rfl
@[simp] theorem setCache_log (s d c) : (setCache s d c).log = s.log := rfl
@[simp] theorem setCache_plan (s d c) : (setCache s d c).plan = s.plan := rfl
@[simp] theorem setCache_power (s d c) : (setCache s d c).power = s.power := rfl
@[simp] theorem setCache_isl (s d c) : (setCache s d c).isl = s.isl := rfl
@[simp] theorem setCache_pm (s d c) : (setCache s d c).pm = s.pm := rfl
@[simp] theorem setCache_mem (s d c) : (setCache s d c).mem = s.mem := rfl
@[simp] theorem setCache_poison (s d c) : (setCache s d c).poison = s.poison := rfl
@[simp] theorem setCache_mc (s d c) : (setCache s d c).mc = s.mc := rfl
@[simp] theorem setCache_seg (s d c) : (setCache s d c).seg = s.seg := rfl
@[simp] theorem setCache_xfers (s d c) : (setCache s d c).xfers = s.xfers := rfl
@[simp] theorem setCache_nextXfer (s d c) : (setCache s d c).nextXfer = s.nextXfer := rfl
@[simp] theorem setCache_net (s d c) : (setCache s d c).net = s.net := rfl
@[simp] theorem setCache_host (s d c) : (setCache s d c).host = s.host := rfl
@[simp] theorem setCache_qs (s d c) : (setCache s d c).qs = s.qs := rfl
@[simp] theorem setCache_sems (s d c) : (setCache s d c).sems = s.sems := rfl
@[simp] theorem setCache_cores (s d c) : (setCache s d c).cores = s.cores := rfl
@[simp] theorem setCache_links (s d c) : (setCache s d c).links = s.links := rfl
@[simp] theorem setCache_selects (s d c) : (setCache s d c).selects = s.selects := rfl
@[simp] theorem setCache_grinders (s d c) : (setCache s d c).grinders = s.grinders := rfl
@[simp] theorem setCache_stores (s d c) : (setCache s d c).stores = s.stores := rfl
@[simp] theorem setCache_blend (s d c) : (setCache s d c).blend = s.blend := rfl
@[simp] theorem setCache_courier (s d c) : (setCache s d c).courier = s.courier := rfl
@[simp] theorem setCache_answers (s d c) : (setCache s d c).answers = s.answers := rfl

@[simp] theorem setMc_pending (s k m) : (setMc s k m).pending = s.pending := rfl
@[simp] theorem setMc_freeCtr (s k m) : (setMc s k m).freeCtr = s.freeCtr := rfl
@[simp] theorem setMc_devTime (s k m) : (setMc s k m).devTime = s.devTime := rfl
@[simp] theorem setMc_mode (s k m) : (setMc s k m).mode = s.mode := rfl
@[simp] theorem setMc_log (s k m) : (setMc s k m).log = s.log := rfl
@[simp] theorem setMc_plan (s k m) : (setMc s k m).plan = s.plan := rfl
@[simp] theorem setMc_power (s k m) : (setMc s k m).power = s.power := rfl
@[simp] theorem setMc_isl (s k m) : (setMc s k m).isl = s.isl := rfl
@[simp] theorem setMc_pm (s k m) : (setMc s k m).pm = s.pm := rfl
@[simp] theorem setMc_mem (s k m) : (setMc s k m).mem = s.mem := rfl
@[simp] theorem setMc_poison (s k m) : (setMc s k m).poison = s.poison := rfl
@[simp] theorem setMc_cache (s k m) : (setMc s k m).cache = s.cache := rfl
@[simp] theorem setMc_seg (s k m) : (setMc s k m).seg = s.seg := rfl
@[simp] theorem setMc_xfers (s k m) : (setMc s k m).xfers = s.xfers := rfl
@[simp] theorem setMc_nextXfer (s k m) : (setMc s k m).nextXfer = s.nextXfer := rfl
@[simp] theorem setMc_net (s k m) : (setMc s k m).net = s.net := rfl
@[simp] theorem setMc_host (s k m) : (setMc s k m).host = s.host := rfl
@[simp] theorem setMc_qs (s k m) : (setMc s k m).qs = s.qs := rfl
@[simp] theorem setMc_sems (s k m) : (setMc s k m).sems = s.sems := rfl
@[simp] theorem setMc_cores (s k m) : (setMc s k m).cores = s.cores := rfl
@[simp] theorem setMc_links (s k m) : (setMc s k m).links = s.links := rfl
@[simp] theorem setMc_selects (s k m) : (setMc s k m).selects = s.selects := rfl
@[simp] theorem setMc_grinders (s k m) : (setMc s k m).grinders = s.grinders := rfl
@[simp] theorem setMc_stores (s k m) : (setMc s k m).stores = s.stores := rfl
@[simp] theorem setMc_blend (s k m) : (setMc s k m).blend = s.blend := rfl
@[simp] theorem setMc_courier (s k m) : (setMc s k m).courier = s.courier := rfl
@[simp] theorem setMc_answers (s k m) : (setMc s k m).answers = s.answers := rfl

@[simp] theorem setGrinder_pending (s g x) : (setGrinder s g x).pending = s.pending := rfl
@[simp] theorem setGrinder_freeCtr (s g x) : (setGrinder s g x).freeCtr = s.freeCtr := rfl
@[simp] theorem setGrinder_devTime (s g x) : (setGrinder s g x).devTime = s.devTime := rfl
@[simp] theorem setGrinder_mode (s g x) : (setGrinder s g x).mode = s.mode := rfl
@[simp] theorem setGrinder_log (s g x) : (setGrinder s g x).log = s.log := rfl
@[simp] theorem setGrinder_plan (s g x) : (setGrinder s g x).plan = s.plan := rfl
@[simp] theorem setGrinder_power (s g x) : (setGrinder s g x).power = s.power := rfl
@[simp] theorem setGrinder_isl (s g x) : (setGrinder s g x).isl = s.isl := rfl
@[simp] theorem setGrinder_pm (s g x) : (setGrinder s g x).pm = s.pm := rfl
@[simp] theorem setGrinder_mem (s g x) : (setGrinder s g x).mem = s.mem := rfl
@[simp] theorem setGrinder_poison (s g x) : (setGrinder s g x).poison = s.poison := rfl
@[simp] theorem setGrinder_cache (s g x) : (setGrinder s g x).cache = s.cache := rfl
@[simp] theorem setGrinder_mc (s g x) : (setGrinder s g x).mc = s.mc := rfl
@[simp] theorem setGrinder_seg (s g x) : (setGrinder s g x).seg = s.seg := rfl
@[simp] theorem setGrinder_xfers (s g x) : (setGrinder s g x).xfers = s.xfers := rfl
@[simp] theorem setGrinder_nextXfer (s g x) : (setGrinder s g x).nextXfer = s.nextXfer := rfl
@[simp] theorem setGrinder_net (s g x) : (setGrinder s g x).net = s.net := rfl
@[simp] theorem setGrinder_host (s g x) : (setGrinder s g x).host = s.host := rfl
@[simp] theorem setGrinder_qs (s g x) : (setGrinder s g x).qs = s.qs := rfl
@[simp] theorem setGrinder_sems (s g x) : (setGrinder s g x).sems = s.sems := rfl
@[simp] theorem setGrinder_cores (s g x) : (setGrinder s g x).cores = s.cores := rfl
@[simp] theorem setGrinder_links (s g x) : (setGrinder s g x).links = s.links := rfl
@[simp] theorem setGrinder_selects (s g x) : (setGrinder s g x).selects = s.selects := rfl
@[simp] theorem setGrinder_stores (s g x) : (setGrinder s g x).stores = s.stores := rfl
@[simp] theorem setGrinder_blend (s g x) : (setGrinder s g x).blend = s.blend := rfl
@[simp] theorem setGrinder_courier (s g x) : (setGrinder s g x).courier = s.courier := rfl
@[simp] theorem setGrinder_answers (s g x) : (setGrinder s g x).answers = s.answers := rfl

@[simp] theorem setStore_pending (s d x) : (setStore s d x).pending = s.pending := rfl
@[simp] theorem setStore_freeCtr (s d x) : (setStore s d x).freeCtr = s.freeCtr := rfl
@[simp] theorem setStore_devTime (s d x) : (setStore s d x).devTime = s.devTime := rfl
@[simp] theorem setStore_mode (s d x) : (setStore s d x).mode = s.mode := rfl
@[simp] theorem setStore_log (s d x) : (setStore s d x).log = s.log := rfl
@[simp] theorem setStore_plan (s d x) : (setStore s d x).plan = s.plan := rfl
@[simp] theorem setStore_power (s d x) : (setStore s d x).power = s.power := rfl
@[simp] theorem setStore_isl (s d x) : (setStore s d x).isl = s.isl := rfl
@[simp] theorem setStore_pm (s d x) : (setStore s d x).pm = s.pm := rfl
@[simp] theorem setStore_mem (s d x) : (setStore s d x).mem = s.mem := rfl
@[simp] theorem setStore_poison (s d x) : (setStore s d x).poison = s.poison := rfl
@[simp] theorem setStore_cache (s d x) : (setStore s d x).cache = s.cache := rfl
@[simp] theorem setStore_mc (s d x) : (setStore s d x).mc = s.mc := rfl
@[simp] theorem setStore_seg (s d x) : (setStore s d x).seg = s.seg := rfl
@[simp] theorem setStore_xfers (s d x) : (setStore s d x).xfers = s.xfers := rfl
@[simp] theorem setStore_nextXfer (s d x) : (setStore s d x).nextXfer = s.nextXfer := rfl
@[simp] theorem setStore_net (s d x) : (setStore s d x).net = s.net := rfl
@[simp] theorem setStore_host (s d x) : (setStore s d x).host = s.host := rfl
@[simp] theorem setStore_qs (s d x) : (setStore s d x).qs = s.qs := rfl
@[simp] theorem setStore_sems (s d x) : (setStore s d x).sems = s.sems := rfl
@[simp] theorem setStore_cores (s d x) : (setStore s d x).cores = s.cores := rfl
@[simp] theorem setStore_links (s d x) : (setStore s d x).links = s.links := rfl
@[simp] theorem setStore_selects (s d x) : (setStore s d x).selects = s.selects := rfl
@[simp] theorem setStore_grinders (s d x) : (setStore s d x).grinders = s.grinders := rfl
@[simp] theorem setStore_blend (s d x) : (setStore s d x).blend = s.blend := rfl
@[simp] theorem setStore_courier (s d x) : (setStore s d x).courier = s.courier := rfl
@[simp] theorem setStore_answers (s d x) : (setStore s d x).answers = s.answers := rfl

@[simp] theorem setCr_pending (s p x) : (setCr s p x).pending = s.pending := rfl
@[simp] theorem setCr_freeCtr (s p x) : (setCr s p x).freeCtr = s.freeCtr := rfl
@[simp] theorem setCr_devTime (s p x) : (setCr s p x).devTime = s.devTime := rfl
@[simp] theorem setCr_mode (s p x) : (setCr s p x).mode = s.mode := rfl
@[simp] theorem setCr_log (s p x) : (setCr s p x).log = s.log := rfl
@[simp] theorem setCr_plan (s p x) : (setCr s p x).plan = s.plan := rfl
@[simp] theorem setCr_power (s p x) : (setCr s p x).power = s.power := rfl
@[simp] theorem setCr_isl (s p x) : (setCr s p x).isl = s.isl := rfl
@[simp] theorem setCr_pm (s p x) : (setCr s p x).pm = s.pm := rfl
@[simp] theorem setCr_mem (s p x) : (setCr s p x).mem = s.mem := rfl
@[simp] theorem setCr_poison (s p x) : (setCr s p x).poison = s.poison := rfl
@[simp] theorem setCr_cache (s p x) : (setCr s p x).cache = s.cache := rfl
@[simp] theorem setCr_mc (s p x) : (setCr s p x).mc = s.mc := rfl
@[simp] theorem setCr_seg (s p x) : (setCr s p x).seg = s.seg := rfl
@[simp] theorem setCr_xfers (s p x) : (setCr s p x).xfers = s.xfers := rfl
@[simp] theorem setCr_nextXfer (s p x) : (setCr s p x).nextXfer = s.nextXfer := rfl
@[simp] theorem setCr_net (s p x) : (setCr s p x).net = s.net := rfl
@[simp] theorem setCr_host (s p x) : (setCr s p x).host = s.host := rfl
@[simp] theorem setCr_qs (s p x) : (setCr s p x).qs = s.qs := rfl
@[simp] theorem setCr_sems (s p x) : (setCr s p x).sems = s.sems := rfl
@[simp] theorem setCr_cores (s p x) : (setCr s p x).cores = s.cores := rfl
@[simp] theorem setCr_links (s p x) : (setCr s p x).links = s.links := rfl
@[simp] theorem setCr_selects (s p x) : (setCr s p x).selects = s.selects := rfl
@[simp] theorem setCr_grinders (s p x) : (setCr s p x).grinders = s.grinders := rfl
@[simp] theorem setCr_stores (s p x) : (setCr s p x).stores = s.stores := rfl
@[simp] theorem setCr_blend (s p x) : (setCr s p x).blend = s.blend := rfl
@[simp] theorem setCr_answers (s p x) : (setCr s p x).answers = s.answers := rfl

@[simp] theorem setSw_pending (s k x) : (setSw s k x).pending = s.pending := rfl
@[simp] theorem setSw_freeCtr (s k x) : (setSw s k x).freeCtr = s.freeCtr := rfl
@[simp] theorem setSw_devTime (s k x) : (setSw s k x).devTime = s.devTime := rfl
@[simp] theorem setSw_mode (s k x) : (setSw s k x).mode = s.mode := rfl
@[simp] theorem setSw_log (s k x) : (setSw s k x).log = s.log := rfl
@[simp] theorem setSw_plan (s k x) : (setSw s k x).plan = s.plan := rfl
@[simp] theorem setSw_power (s k x) : (setSw s k x).power = s.power := rfl
@[simp] theorem setSw_isl (s k x) : (setSw s k x).isl = s.isl := rfl
@[simp] theorem setSw_pm (s k x) : (setSw s k x).pm = s.pm := rfl
@[simp] theorem setSw_mem (s k x) : (setSw s k x).mem = s.mem := rfl
@[simp] theorem setSw_poison (s k x) : (setSw s k x).poison = s.poison := rfl
@[simp] theorem setSw_cache (s k x) : (setSw s k x).cache = s.cache := rfl
@[simp] theorem setSw_mc (s k x) : (setSw s k x).mc = s.mc := rfl
@[simp] theorem setSw_seg (s k x) : (setSw s k x).seg = s.seg := rfl
@[simp] theorem setSw_xfers (s k x) : (setSw s k x).xfers = s.xfers := rfl
@[simp] theorem setSw_nextXfer (s k x) : (setSw s k x).nextXfer = s.nextXfer := rfl
@[simp] theorem setSw_net (s k x) : (setSw s k x).net = s.net := rfl
@[simp] theorem setSw_host (s k x) : (setSw s k x).host = s.host := rfl
@[simp] theorem setSw_qs (s k x) : (setSw s k x).qs = s.qs := rfl
@[simp] theorem setSw_sems (s k x) : (setSw s k x).sems = s.sems := rfl
@[simp] theorem setSw_cores (s k x) : (setSw s k x).cores = s.cores := rfl
@[simp] theorem setSw_links (s k x) : (setSw s k x).links = s.links := rfl
@[simp] theorem setSw_selects (s k x) : (setSw s k x).selects = s.selects := rfl
@[simp] theorem setSw_grinders (s k x) : (setSw s k x).grinders = s.grinders := rfl
@[simp] theorem setSw_stores (s k x) : (setSw s k x).stores = s.stores := rfl
@[simp] theorem setSw_blend (s k x) : (setSw s k x).blend = s.blend := rfl
@[simp] theorem setSw_answers (s k x) : (setSw s k x).answers = s.answers := rfl

@[simp] theorem setSeg_pending (s c i e) : (setSeg s c i e).pending = s.pending := rfl
@[simp] theorem setSeg_freeCtr (s c i e) : (setSeg s c i e).freeCtr = s.freeCtr := rfl
@[simp] theorem setSeg_devTime (s c i e) : (setSeg s c i e).devTime = s.devTime := rfl
@[simp] theorem setSeg_mode (s c i e) : (setSeg s c i e).mode = s.mode := rfl
@[simp] theorem setSeg_log (s c i e) : (setSeg s c i e).log = s.log := rfl
@[simp] theorem setSeg_plan (s c i e) : (setSeg s c i e).plan = s.plan := rfl
@[simp] theorem setSeg_power (s c i e) : (setSeg s c i e).power = s.power := rfl
@[simp] theorem setSeg_isl (s c i e) : (setSeg s c i e).isl = s.isl := rfl
@[simp] theorem setSeg_pm (s c i e) : (setSeg s c i e).pm = s.pm := rfl
@[simp] theorem setSeg_mem (s c i e) : (setSeg s c i e).mem = s.mem := rfl
@[simp] theorem setSeg_poison (s c i e) : (setSeg s c i e).poison = s.poison := rfl
@[simp] theorem setSeg_cache (s c i e) : (setSeg s c i e).cache = s.cache := rfl
@[simp] theorem setSeg_mc (s c i e) : (setSeg s c i e).mc = s.mc := rfl
@[simp] theorem setSeg_xfers (s c i e) : (setSeg s c i e).xfers = s.xfers := rfl
@[simp] theorem setSeg_nextXfer (s c i e) : (setSeg s c i e).nextXfer = s.nextXfer := rfl
@[simp] theorem setSeg_net (s c i e) : (setSeg s c i e).net = s.net := rfl
@[simp] theorem setSeg_host (s c i e) : (setSeg s c i e).host = s.host := rfl
@[simp] theorem setSeg_qs (s c i e) : (setSeg s c i e).qs = s.qs := rfl
@[simp] theorem setSeg_sems (s c i e) : (setSeg s c i e).sems = s.sems := rfl
@[simp] theorem setSeg_cores (s c i e) : (setSeg s c i e).cores = s.cores := rfl
@[simp] theorem setSeg_links (s c i e) : (setSeg s c i e).links = s.links := rfl
@[simp] theorem setSeg_selects (s c i e) : (setSeg s c i e).selects = s.selects := rfl
@[simp] theorem setSeg_grinders (s c i e) : (setSeg s c i e).grinders = s.grinders := rfl
@[simp] theorem setSeg_stores (s c i e) : (setSeg s c i e).stores = s.stores := rfl
@[simp] theorem setSeg_blend (s c i e) : (setSeg s c i e).blend = s.blend := rfl
@[simp] theorem setSeg_courier (s c i e) : (setSeg s c i e).courier = s.courier := rfl
@[simp] theorem setSeg_answers (s c i e) : (setSeg s c i e).answers = s.answers := rfl

@[simp] theorem setSlot_pending (s k x) : (setSlot s k x).pending = s.pending := rfl
@[simp] theorem setSlot_freeCtr (s k x) : (setSlot s k x).freeCtr = s.freeCtr := rfl
@[simp] theorem setSlot_devTime (s k x) : (setSlot s k x).devTime = s.devTime := rfl
@[simp] theorem setSlot_mode (s k x) : (setSlot s k x).mode = s.mode := rfl
@[simp] theorem setSlot_log (s k x) : (setSlot s k x).log = s.log := rfl
@[simp] theorem setSlot_plan (s k x) : (setSlot s k x).plan = s.plan := rfl
@[simp] theorem setSlot_power (s k x) : (setSlot s k x).power = s.power := rfl
@[simp] theorem setSlot_isl (s k x) : (setSlot s k x).isl = s.isl := rfl
@[simp] theorem setSlot_mem (s k x) : (setSlot s k x).mem = s.mem := rfl
@[simp] theorem setSlot_poison (s k x) : (setSlot s k x).poison = s.poison := rfl
@[simp] theorem setSlot_cache (s k x) : (setSlot s k x).cache = s.cache := rfl
@[simp] theorem setSlot_mc (s k x) : (setSlot s k x).mc = s.mc := rfl
@[simp] theorem setSlot_seg (s k x) : (setSlot s k x).seg = s.seg := rfl
@[simp] theorem setSlot_xfers (s k x) : (setSlot s k x).xfers = s.xfers := rfl
@[simp] theorem setSlot_nextXfer (s k x) : (setSlot s k x).nextXfer = s.nextXfer := rfl
@[simp] theorem setSlot_net (s k x) : (setSlot s k x).net = s.net := rfl
@[simp] theorem setSlot_host (s k x) : (setSlot s k x).host = s.host := rfl
@[simp] theorem setSlot_qs (s k x) : (setSlot s k x).qs = s.qs := rfl
@[simp] theorem setSlot_sems (s k x) : (setSlot s k x).sems = s.sems := rfl
@[simp] theorem setSlot_cores (s k x) : (setSlot s k x).cores = s.cores := rfl
@[simp] theorem setSlot_links (s k x) : (setSlot s k x).links = s.links := rfl
@[simp] theorem setSlot_selects (s k x) : (setSlot s k x).selects = s.selects := rfl
@[simp] theorem setSlot_grinders (s k x) : (setSlot s k x).grinders = s.grinders := rfl
@[simp] theorem setSlot_stores (s k x) : (setSlot s k x).stores = s.stores := rfl
@[simp] theorem setSlot_blend (s k x) : (setSlot s k x).blend = s.blend := rfl
@[simp] theorem setSlot_courier (s k x) : (setSlot s k x).courier = s.courier := rfl
@[simp] theorem setSlot_answers (s k x) : (setSlot s k x).answers = s.answers := rfl
@[simp] theorem setSlot_pm_fault (s k x) : (setSlot s k x).pm.fault = s.pm.fault := rfl
@[simp] theorem setSlot_pm_record (s k x) : (setSlot s k x).pm.record = s.pm.record := rfl
@[simp] theorem setSlot_pm_copy (s k x) : (setSlot s k x).pm.copy = s.pm.copy := rfl
@[simp] theorem setSlot_pm_serial (s k x) : (setSlot s k x).pm.serial = s.pm.serial := rfl
@[simp] theorem setSlot_pm_seed (s k x) : (setSlot s k x).pm.seed = s.pm.seed := rfl
@[simp] theorem setSlot_pm_romHash (s k x) : (setSlot s k x).pm.romHash = s.pm.romHash := rfl
@[simp] theorem setSlot_pm_booting (s k x) : (setSlot s k x).pm.booting = s.pm.booting := rfl
@[simp] theorem setSlot_pm_recordBad (s k x) : (setSlot s k x).pm.recordBad = s.pm.recordBad := rfl
@[simp] theorem setSlot_pm_carrierRuns (s k x) : (setSlot s k x).pm.carrierRuns = s.pm.carrierRuns := rfl
@[simp] theorem setSlot_pm_carrierBase (s k x) : (setSlot s k x).pm.carrierBase = s.pm.carrierBase := rfl
@[simp] theorem setSlot_pm_carrierSize (s k x) : (setSlot s k x).pm.carrierSize = s.pm.carrierSize := rfl
@[simp] theorem setSlot_pm_carrierMeas (s k x) : (setSlot s k x).pm.carrierMeas = s.pm.carrierMeas := rfl
@[simp] theorem setSlot_pm_carrierVersion (s k x) : (setSlot s k x).pm.carrierVersion = s.pm.carrierVersion := rfl
@[simp] theorem setSlot_pm_carrierEntry (s k x) : (setSlot s k x).pm.carrierEntry = s.pm.carrierEntry := rfl
@[simp] theorem setSlot_pm_carrierSigOffset (s k x) : (setSlot s k x).pm.carrierSigOffset = s.pm.carrierSigOffset := rfl
@[simp] theorem setSlot_pm_carrierLoading (s k x) : (setSlot s k x).pm.carrierLoading = s.pm.carrierLoading := rfl
@[simp] theorem setSlot_pm_contexts (s k x) : (setSlot s k x).pm.contexts = s.pm.contexts := rfl
@[simp] theorem setSlot_pm_keys (s k x) : (setSlot s k x).pm.keys = s.pm.keys := rfl

@[simp] theorem setLoad_pending (s l) : (setLoad s l).pending = s.pending := rfl
@[simp] theorem setLoad_freeCtr (s l) : (setLoad s l).freeCtr = s.freeCtr := rfl
@[simp] theorem setLoad_devTime (s l) : (setLoad s l).devTime = s.devTime := rfl
@[simp] theorem setLoad_mode (s l) : (setLoad s l).mode = s.mode := rfl
@[simp] theorem setLoad_log (s l) : (setLoad s l).log = s.log := rfl
@[simp] theorem setLoad_plan (s l) : (setLoad s l).plan = s.plan := rfl
@[simp] theorem setLoad_power (s l) : (setLoad s l).power = s.power := rfl
@[simp] theorem setLoad_isl (s l) : (setLoad s l).isl = s.isl := rfl
@[simp] theorem setLoad_pm (s l) : (setLoad s l).pm = s.pm := rfl
@[simp] theorem setLoad_mem (s l) : (setLoad s l).mem = s.mem := rfl
@[simp] theorem setLoad_poison (s l) : (setLoad s l).poison = s.poison := rfl
@[simp] theorem setLoad_cache (s l) : (setLoad s l).cache = s.cache := rfl
@[simp] theorem setLoad_mc (s l) : (setLoad s l).mc = s.mc := rfl
@[simp] theorem setLoad_seg (s l) : (setLoad s l).seg = s.seg := rfl
@[simp] theorem setLoad_xfers (s l) : (setLoad s l).xfers = s.xfers := rfl
@[simp] theorem setLoad_nextXfer (s l) : (setLoad s l).nextXfer = s.nextXfer := rfl
@[simp] theorem setLoad_net (s l) : (setLoad s l).net = s.net := rfl
@[simp] theorem setLoad_host (s l) : (setLoad s l).host = s.host := rfl
@[simp] theorem setLoad_qs (s l) : (setLoad s l).qs = s.qs := rfl
@[simp] theorem setLoad_sems (s l) : (setLoad s l).sems = s.sems := rfl
@[simp] theorem setLoad_cores (s l) : (setLoad s l).cores = s.cores := rfl
@[simp] theorem setLoad_links (s l) : (setLoad s l).links = s.links := rfl
@[simp] theorem setLoad_selects (s l) : (setLoad s l).selects = s.selects := rfl
@[simp] theorem setLoad_grinders (s l) : (setLoad s l).grinders = s.grinders := rfl
@[simp] theorem setLoad_stores (s l) : (setLoad s l).stores = s.stores := rfl
@[simp] theorem setLoad_courier (s l) : (setLoad s l).courier = s.courier := rfl
@[simp] theorem setLoad_answers (s l) : (setLoad s l).answers = s.answers := rfl

@[simp] theorem answer_pending (d s) : (answer d s).pending = s.pending := rfl
@[simp] theorem answer_freeCtr (d s) : (answer d s).freeCtr = s.freeCtr := rfl
@[simp] theorem answer_devTime (d s) : (answer d s).devTime = s.devTime := rfl
@[simp] theorem answer_mode (d s) : (answer d s).mode = s.mode := rfl
@[simp] theorem answer_log (d s) : (answer d s).log = s.log := rfl
@[simp] theorem answer_plan (d s) : (answer d s).plan = s.plan := rfl
@[simp] theorem answer_power (d s) : (answer d s).power = s.power := rfl
@[simp] theorem answer_isl (d s) : (answer d s).isl = s.isl := rfl
@[simp] theorem answer_pm (d s) : (answer d s).pm = s.pm := rfl
@[simp] theorem answer_mem (d s) : (answer d s).mem = s.mem := rfl
@[simp] theorem answer_poison (d s) : (answer d s).poison = s.poison := rfl
@[simp] theorem answer_cache (d s) : (answer d s).cache = s.cache := rfl
@[simp] theorem answer_mc (d s) : (answer d s).mc = s.mc := rfl
@[simp] theorem answer_seg (d s) : (answer d s).seg = s.seg := rfl
@[simp] theorem answer_xfers (d s) : (answer d s).xfers = s.xfers := rfl
@[simp] theorem answer_nextXfer (d s) : (answer d s).nextXfer = s.nextXfer := rfl
@[simp] theorem answer_net (d s) : (answer d s).net = s.net := rfl
@[simp] theorem answer_host (d s) : (answer d s).host = s.host := rfl
@[simp] theorem answer_qs (d s) : (answer d s).qs = s.qs := rfl
@[simp] theorem answer_sems (d s) : (answer d s).sems = s.sems := rfl
@[simp] theorem answer_cores (d s) : (answer d s).cores = s.cores := rfl
@[simp] theorem answer_links (d s) : (answer d s).links = s.links := rfl
@[simp] theorem answer_selects (d s) : (answer d s).selects = s.selects := rfl
@[simp] theorem answer_grinders (d s) : (answer d s).grinders = s.grinders := rfl
@[simp] theorem answer_stores (d s) : (answer d s).stores = s.stores := rfl
@[simp] theorem answer_blend (d s) : (answer d s).blend = s.blend := rfl
@[simp] theorem answer_courier (d s) : (answer d s).courier = s.courier := rfl

@[simp] theorem setMemByte_pending (s a b) : (setMemByte s a b).pending = s.pending := rfl
@[simp] theorem setMemByte_freeCtr (s a b) : (setMemByte s a b).freeCtr = s.freeCtr := rfl
@[simp] theorem setMemByte_devTime (s a b) : (setMemByte s a b).devTime = s.devTime := rfl
@[simp] theorem setMemByte_mode (s a b) : (setMemByte s a b).mode = s.mode := rfl
@[simp] theorem setMemByte_log (s a b) : (setMemByte s a b).log = s.log := rfl
@[simp] theorem setMemByte_plan (s a b) : (setMemByte s a b).plan = s.plan := rfl
@[simp] theorem setMemByte_power (s a b) : (setMemByte s a b).power = s.power := rfl
@[simp] theorem setMemByte_isl (s a b) : (setMemByte s a b).isl = s.isl := rfl
@[simp] theorem setMemByte_pm (s a b) : (setMemByte s a b).pm = s.pm := rfl
@[simp] theorem setMemByte_poison (s a b) : (setMemByte s a b).poison = s.poison := rfl
@[simp] theorem setMemByte_cache (s a b) : (setMemByte s a b).cache = s.cache := rfl
@[simp] theorem setMemByte_mc (s a b) : (setMemByte s a b).mc = s.mc := rfl
@[simp] theorem setMemByte_seg (s a b) : (setMemByte s a b).seg = s.seg := rfl
@[simp] theorem setMemByte_xfers (s a b) : (setMemByte s a b).xfers = s.xfers := rfl
@[simp] theorem setMemByte_nextXfer (s a b) : (setMemByte s a b).nextXfer = s.nextXfer := rfl
@[simp] theorem setMemByte_net (s a b) : (setMemByte s a b).net = s.net := rfl
@[simp] theorem setMemByte_host (s a b) : (setMemByte s a b).host = s.host := rfl
@[simp] theorem setMemByte_qs (s a b) : (setMemByte s a b).qs = s.qs := rfl
@[simp] theorem setMemByte_sems (s a b) : (setMemByte s a b).sems = s.sems := rfl
@[simp] theorem setMemByte_cores (s a b) : (setMemByte s a b).cores = s.cores := rfl
@[simp] theorem setMemByte_links (s a b) : (setMemByte s a b).links = s.links := rfl
@[simp] theorem setMemByte_selects (s a b) : (setMemByte s a b).selects = s.selects := rfl
@[simp] theorem setMemByte_grinders (s a b) : (setMemByte s a b).grinders = s.grinders := rfl
@[simp] theorem setMemByte_stores (s a b) : (setMemByte s a b).stores = s.stores := rfl
@[simp] theorem setMemByte_blend (s a b) : (setMemByte s a b).blend = s.blend := rfl
@[simp] theorem setMemByte_courier (s a b) : (setMemByte s a b).courier = s.courier := rfl
@[simp] theorem setMemByte_answers (s a b) : (setMemByte s a b).answers = s.answers := rfl

@[simp] theorem setMemPoison_pending (s a p) : (setMemPoison s a p).pending = s.pending := rfl
@[simp] theorem setMemPoison_freeCtr (s a p) : (setMemPoison s a p).freeCtr = s.freeCtr := rfl
@[simp] theorem setMemPoison_devTime (s a p) : (setMemPoison s a p).devTime = s.devTime := rfl
@[simp] theorem setMemPoison_mode (s a p) : (setMemPoison s a p).mode = s.mode := rfl
@[simp] theorem setMemPoison_log (s a p) : (setMemPoison s a p).log = s.log := rfl
@[simp] theorem setMemPoison_plan (s a p) : (setMemPoison s a p).plan = s.plan := rfl
@[simp] theorem setMemPoison_power (s a p) : (setMemPoison s a p).power = s.power := rfl
@[simp] theorem setMemPoison_isl (s a p) : (setMemPoison s a p).isl = s.isl := rfl
@[simp] theorem setMemPoison_pm (s a p) : (setMemPoison s a p).pm = s.pm := rfl
@[simp] theorem setMemPoison_mem (s a p) : (setMemPoison s a p).mem = s.mem := rfl
@[simp] theorem setMemPoison_cache (s a p) : (setMemPoison s a p).cache = s.cache := rfl
@[simp] theorem setMemPoison_mc (s a p) : (setMemPoison s a p).mc = s.mc := rfl
@[simp] theorem setMemPoison_seg (s a p) : (setMemPoison s a p).seg = s.seg := rfl
@[simp] theorem setMemPoison_xfers (s a p) : (setMemPoison s a p).xfers = s.xfers := rfl
@[simp] theorem setMemPoison_nextXfer (s a p) : (setMemPoison s a p).nextXfer = s.nextXfer := rfl
@[simp] theorem setMemPoison_net (s a p) : (setMemPoison s a p).net = s.net := rfl
@[simp] theorem setMemPoison_host (s a p) : (setMemPoison s a p).host = s.host := rfl
@[simp] theorem setMemPoison_qs (s a p) : (setMemPoison s a p).qs = s.qs := rfl
@[simp] theorem setMemPoison_sems (s a p) : (setMemPoison s a p).sems = s.sems := rfl
@[simp] theorem setMemPoison_cores (s a p) : (setMemPoison s a p).cores = s.cores := rfl
@[simp] theorem setMemPoison_links (s a p) : (setMemPoison s a p).links = s.links := rfl
@[simp] theorem setMemPoison_selects (s a p) : (setMemPoison s a p).selects = s.selects := rfl
@[simp] theorem setMemPoison_grinders (s a p) : (setMemPoison s a p).grinders = s.grinders := rfl
@[simp] theorem setMemPoison_stores (s a p) : (setMemPoison s a p).stores = s.stores := rfl
@[simp] theorem setMemPoison_blend (s a p) : (setMemPoison s a p).blend = s.blend := rfl
@[simp] theorem setMemPoison_courier (s a p) : (setMemPoison s a p).courier = s.courier := rfl
@[simp] theorem setMemPoison_answers (s a p) : (setMemPoison s a p).answers = s.answers := rfl

@[simp] theorem raiseVectorOn_pending (p v s) : (raiseVectorOn p v s).pending = s.pending := rfl
@[simp] theorem raiseVectorOn_freeCtr (p v s) : (raiseVectorOn p v s).freeCtr = s.freeCtr := rfl
@[simp] theorem raiseVectorOn_devTime (p v s) : (raiseVectorOn p v s).devTime = s.devTime := rfl
@[simp] theorem raiseVectorOn_mode (p v s) : (raiseVectorOn p v s).mode = s.mode := rfl
@[simp] theorem raiseVectorOn_log (p v s) : (raiseVectorOn p v s).log = s.log := rfl
@[simp] theorem raiseVectorOn_plan (p v s) : (raiseVectorOn p v s).plan = s.plan := rfl
@[simp] theorem raiseVectorOn_power (p v s) : (raiseVectorOn p v s).power = s.power := rfl
@[simp] theorem raiseVectorOn_isl (p v s) : (raiseVectorOn p v s).isl = s.isl := rfl
@[simp] theorem raiseVectorOn_pm (p v s) : (raiseVectorOn p v s).pm = s.pm := rfl
@[simp] theorem raiseVectorOn_mem (p v s) : (raiseVectorOn p v s).mem = s.mem := rfl
@[simp] theorem raiseVectorOn_poison (p v s) : (raiseVectorOn p v s).poison = s.poison := rfl
@[simp] theorem raiseVectorOn_cache (p v s) : (raiseVectorOn p v s).cache = s.cache := rfl
@[simp] theorem raiseVectorOn_mc (p v s) : (raiseVectorOn p v s).mc = s.mc := rfl
@[simp] theorem raiseVectorOn_seg (p v s) : (raiseVectorOn p v s).seg = s.seg := rfl
@[simp] theorem raiseVectorOn_xfers (p v s) : (raiseVectorOn p v s).xfers = s.xfers := rfl
@[simp] theorem raiseVectorOn_nextXfer (p v s) : (raiseVectorOn p v s).nextXfer = s.nextXfer := rfl
@[simp] theorem raiseVectorOn_net (p v s) : (raiseVectorOn p v s).net = s.net := rfl
@[simp] theorem raiseVectorOn_qs (p v s) : (raiseVectorOn p v s).qs = s.qs := rfl
@[simp] theorem raiseVectorOn_sems (p v s) : (raiseVectorOn p v s).sems = s.sems := rfl
@[simp] theorem raiseVectorOn_cores (p v s) : (raiseVectorOn p v s).cores = s.cores := rfl
@[simp] theorem raiseVectorOn_links (p v s) : (raiseVectorOn p v s).links = s.links := rfl
@[simp] theorem raiseVectorOn_selects (p v s) : (raiseVectorOn p v s).selects = s.selects := rfl
@[simp] theorem raiseVectorOn_grinders (p v s) : (raiseVectorOn p v s).grinders = s.grinders := rfl
@[simp] theorem raiseVectorOn_stores (p v s) : (raiseVectorOn p v s).stores = s.stores := rfl
@[simp] theorem raiseVectorOn_blend (p v s) : (raiseVectorOn p v s).blend = s.blend := rfl
@[simp] theorem raiseVectorOn_courier (p v s) : (raiseVectorOn p v s).courier = s.courier := rfl
@[simp] theorem raiseVectorOn_answers (p v s) : (raiseVectorOn p v s).answers = s.answers := rfl
@[simp] theorem raiseVectorOn_host_ports (p v s) : (raiseVectorOn p v s).host.ports = s.host.ports := rfl
@[simp] theorem raiseVectorOn_host_hosts (p v s) : (raiseVectorOn p v s).host.hosts = s.host.hosts := rfl
@[simp] theorem raiseVectorOn_host_spillBase (p v s) : (raiseVectorOn p v s).host.spillBase = s.host.spillBase := rfl
@[simp] theorem raiseVectorOn_host_h2m (p v s) : (raiseVectorOn p v s).host.h2m = s.host.h2m := rfl
@[simp] theorem raiseVectorOn_host_busy (p v s) : (raiseVectorOn p v s).host.busy = s.host.busy := rfl
@[simp] theorem raiseVectorOn_host_m2h (p v s) : (raiseVectorOn p v s).host.m2h = s.host.m2h := rfl
@[simp] theorem raiseVectorOn_host_full (p v s) : (raiseVectorOn p v s).host.full = s.host.full := rfl
@[simp] theorem raiseVectorOn_host_mbCtrl (p v s) : (raiseVectorOn p v s).host.mbCtrl = s.host.mbCtrl := rfl
@[simp] theorem raiseVectorOn_host_notices (p v s) : (raiseVectorOn p v s).host.notices = s.host.notices := rfl
@[simp] theorem raiseVectorOn_host_toCarrier (p v s) : (raiseVectorOn p v s).host.toCarrier = s.host.toCarrier := rfl
@[simp] theorem raiseVectorOn_host_vectors (p v s) : (raiseVectorOn p v s).host.vectors = s.host.vectors := rfl
@[simp] theorem raiseVectorOn_host_sent (p v s) : (raiseVectorOn p v s).host.sent = s.host.sent := rfl
@[simp] theorem raiseVectorOn_host_delivered (p v s) : (raiseVectorOn p v s).host.delivered = s.host.delivered := rfl

@[simp] theorem logEvent_pending (e n d s) : (logEvent e n d s).pending = s.pending := rfl
@[simp] theorem logEvent_freeCtr (e n d s) : (logEvent e n d s).freeCtr = s.freeCtr := rfl
@[simp] theorem logEvent_devTime (e n d s) : (logEvent e n d s).devTime = s.devTime := rfl
@[simp] theorem logEvent_mode (e n d s) : (logEvent e n d s).mode = s.mode := rfl
@[simp] theorem logEvent_plan (e n d s) : (logEvent e n d s).plan = s.plan := rfl
@[simp] theorem logEvent_power (e n d s) : (logEvent e n d s).power = s.power := rfl
@[simp] theorem logEvent_isl (e n d s) : (logEvent e n d s).isl = s.isl := rfl
@[simp] theorem logEvent_pm (e n d s) : (logEvent e n d s).pm = s.pm := rfl
@[simp] theorem logEvent_mem (e n d s) : (logEvent e n d s).mem = s.mem := rfl
@[simp] theorem logEvent_poison (e n d s) : (logEvent e n d s).poison = s.poison := rfl
@[simp] theorem logEvent_cache (e n d s) : (logEvent e n d s).cache = s.cache := rfl
@[simp] theorem logEvent_mc (e n d s) : (logEvent e n d s).mc = s.mc := rfl
@[simp] theorem logEvent_seg (e n d s) : (logEvent e n d s).seg = s.seg := rfl
@[simp] theorem logEvent_xfers (e n d s) : (logEvent e n d s).xfers = s.xfers := rfl
@[simp] theorem logEvent_nextXfer (e n d s) : (logEvent e n d s).nextXfer = s.nextXfer := rfl
@[simp] theorem logEvent_net (e n d s) : (logEvent e n d s).net = s.net := rfl
@[simp] theorem logEvent_host (e n d s) : (logEvent e n d s).host = s.host := rfl
@[simp] theorem logEvent_qs (e n d s) : (logEvent e n d s).qs = s.qs := rfl
@[simp] theorem logEvent_sems (e n d s) : (logEvent e n d s).sems = s.sems := rfl
@[simp] theorem logEvent_cores (e n d s) : (logEvent e n d s).cores = s.cores := rfl
@[simp] theorem logEvent_links (e n d s) : (logEvent e n d s).links = s.links := rfl
@[simp] theorem logEvent_selects (e n d s) : (logEvent e n d s).selects = s.selects := rfl
@[simp] theorem logEvent_grinders (e n d s) : (logEvent e n d s).grinders = s.grinders := rfl
@[simp] theorem logEvent_stores (e n d s) : (logEvent e n d s).stores = s.stores := rfl
@[simp] theorem logEvent_blend (e n d s) : (logEvent e n d s).blend = s.blend := rfl
@[simp] theorem logEvent_courier (e n d s) : (logEvent e n d s).courier = s.courier := rfl
@[simp] theorem logEvent_answers (e n d s) : (logEvent e n d s).answers = s.answers := rfl

@[simp] theorem logLimited_pending (e n d s) : (logLimited e n d s).pending = s.pending := rfl
@[simp] theorem logLimited_freeCtr (e n d s) : (logLimited e n d s).freeCtr = s.freeCtr := rfl
@[simp] theorem logLimited_devTime (e n d s) : (logLimited e n d s).devTime = s.devTime := rfl
@[simp] theorem logLimited_mode (e n d s) : (logLimited e n d s).mode = s.mode := rfl
@[simp] theorem logLimited_plan (e n d s) : (logLimited e n d s).plan = s.plan := rfl
@[simp] theorem logLimited_power (e n d s) : (logLimited e n d s).power = s.power := rfl
@[simp] theorem logLimited_isl (e n d s) : (logLimited e n d s).isl = s.isl := rfl
@[simp] theorem logLimited_pm (e n d s) : (logLimited e n d s).pm = s.pm := rfl
@[simp] theorem logLimited_mem (e n d s) : (logLimited e n d s).mem = s.mem := rfl
@[simp] theorem logLimited_poison (e n d s) : (logLimited e n d s).poison = s.poison := rfl
@[simp] theorem logLimited_cache (e n d s) : (logLimited e n d s).cache = s.cache := rfl
@[simp] theorem logLimited_mc (e n d s) : (logLimited e n d s).mc = s.mc := rfl
@[simp] theorem logLimited_seg (e n d s) : (logLimited e n d s).seg = s.seg := rfl
@[simp] theorem logLimited_xfers (e n d s) : (logLimited e n d s).xfers = s.xfers := rfl
@[simp] theorem logLimited_nextXfer (e n d s) : (logLimited e n d s).nextXfer = s.nextXfer := rfl
@[simp] theorem logLimited_net (e n d s) : (logLimited e n d s).net = s.net := rfl
@[simp] theorem logLimited_host (e n d s) : (logLimited e n d s).host = s.host := rfl
@[simp] theorem logLimited_qs (e n d s) : (logLimited e n d s).qs = s.qs := rfl
@[simp] theorem logLimited_sems (e n d s) : (logLimited e n d s).sems = s.sems := rfl
@[simp] theorem logLimited_cores (e n d s) : (logLimited e n d s).cores = s.cores := rfl
@[simp] theorem logLimited_links (e n d s) : (logLimited e n d s).links = s.links := rfl
@[simp] theorem logLimited_selects (e n d s) : (logLimited e n d s).selects = s.selects := rfl
@[simp] theorem logLimited_grinders (e n d s) : (logLimited e n d s).grinders = s.grinders := rfl
@[simp] theorem logLimited_stores (e n d s) : (logLimited e n d s).stores = s.stores := rfl
@[simp] theorem logLimited_blend (e n d s) : (logLimited e n d s).blend = s.blend := rfl
@[simp] theorem logLimited_courier (e n d s) : (logLimited e n d s).courier = s.courier := rfl
@[simp] theorem logLimited_answers (e n d s) : (logLimited e n d s).answers = s.answers := rfl

@[simp] theorem getIsl_setIsl (s n x) : getIsl (setIsl s n x) n = x := tabGet_tabSet_same _ _ _ _
theorem getIsl_setIsl_ne (s x) {n m : Nat} (h : m ≠ n) : getIsl (setIsl s n x) m = getIsl s m := tabGet_tabSet_ne _ _ _ h
@[simp] theorem getCore_setCore (s n x) : getCore (setCore s n x) n = x := tabGet_tabSet_same _ _ _ _
theorem getCore_setCore_ne (s x) {n m : Nat} (h : m ≠ n) : getCore (setCore s n x) m = getCore s m := tabGet_tabSet_ne _ _ _ h
@[simp] theorem getSem_setSem (s n x) : getSem (setSem s n x) n = x := tabGet_tabSet_same _ _ _ _
theorem getSem_setSem_ne (s x) {n m : Nat} (h : m ≠ n) : getSem (setSem s n x) m = getSem s m := tabGet_tabSet_ne _ _ _ h
@[simp] theorem getLink_setLink (s n x) : getLink (setLink s n x) n = x := tabGet_tabSet_same _ _ _ _
theorem getLink_setLink_ne (s x) {n m : Nat} (h : m ≠ n) : getLink (setLink s n x) m = getLink s m := tabGet_tabSet_ne _ _ _ h
@[simp] theorem getQ_setQ (s n x) : getQ (setQ s n x) n = x := tabGet_tabSet_same _ _ _ _
theorem getQ_setQ_ne (s x) {n m : Nat} (h : m ≠ n) : getQ (setQ s n x) m = getQ s m := tabGet_tabSet_ne _ _ _ h
@[simp] theorem getHost_setHost (s n x) : getHost (setHost s n x) n = x := tabGet_tabSet_same _ _ _ _
theorem getHost_setHost_ne (s x) {n m : Nat} (h : m ≠ n) : getHost (setHost s n x) m = getHost s m := tabGet_tabSet_ne _ _ _ h
@[simp] theorem getGk_setGk (s n x) : getGk (setGk s n x) n = x := tabGet_tabSet_same _ _ _ _
theorem getGk_setGk_ne (s x) {n m : Nat} (h : m ≠ n) : getGk (setGk s n x) m = getGk s m := tabGet_tabSet_ne _ _ _ h
@[simp] theorem getCache_setCache (s n x) : getCache (setCache s n x) n = x := tabGet_tabSet_same _ _ _ _
theorem getCache_setCache_ne (s x) {n m : Nat} (h : m ≠ n) : getCache (setCache s n x) m = getCache s m := tabGet_tabSet_ne _ _ _ h
@[simp] theorem getMc_setMc (s n x) : getMc (setMc s n x) n = x := tabGet_tabSet_same _ _ _ _
theorem getMc_setMc_ne (s x) {n m : Nat} (h : m ≠ n) : getMc (setMc s n x) m = getMc s m := tabGet_tabSet_ne _ _ _ h
@[simp] theorem getGrinder_setGrinder (s n x) : getGrinder (setGrinder s n x) n = x := tabGet_tabSet_same _ _ _ _
theorem getGrinder_setGrinder_ne (s x) {n m : Nat} (h : m ≠ n) : getGrinder (setGrinder s n x) m = getGrinder s m := tabGet_tabSet_ne _ _ _ h
@[simp] theorem getStore_setStore (s n x) : getStore (setStore s n x) n = x := tabGet_tabSet_same _ _ _ _
theorem getStore_setStore_ne (s x) {n m : Nat} (h : m ≠ n) : getStore (setStore s n x) m = getStore s m := tabGet_tabSet_ne _ _ _ h
@[simp] theorem getCr_setCr (s n x) : getCr (setCr s n x) n = x := tabGet_tabSet_same _ _ _ _
theorem getCr_setCr_ne (s x) {n m : Nat} (h : m ≠ n) : getCr (setCr s n x) m = getCr s m := tabGet_tabSet_ne _ _ _ h
@[simp] theorem getSw_setSw (s n x) : getSw (setSw s n x) n = x := tabGet_tabSet_same _ _ _ _
theorem getSw_setSw_ne (s x) {n m : Nat} (h : m ≠ n) : getSw (setSw s n x) m = getSw s m := tabGet_tabSet_ne _ _ _ h
@[simp] theorem getSlot_setSlot (s n x) : getSlot (setSlot s n x) n = x := tabGet_tabSet_same _ _ _ _
theorem getSlot_setSlot_ne (s x) {n m : Nat} (h : m ≠ n) : getSlot (setSlot s n x) m = getSlot s m := tabGet_tabSet_ne _ _ _ h
@[simp] theorem getVec_setVec (s n x) : getVec (setVec s n x) n = x := tabGet_tabSet_same _ _ _ _
theorem getVec_setVec_ne (s x) {n m : Nat} (h : m ≠ n) : getVec (setVec s n x) m = getVec s m := tabGet_tabSet_ne _ _ _ h
@[simp] theorem getXfer_setXfer (s n x) : getXfer (setXfer s n x) n = some x := tabFind_tabPut_same _ _ _
theorem getXfer_setXfer_ne (s x) {n m : Nat} (h : m ≠ n) : getXfer (setXfer s n x) m = getXfer s m := tabFind_tabPut_ne _ _ h
@[simp] theorem getXfer_delXfer (s n) : getXfer (delXfer s n) n = none := tabFind_tabDel_same _ _
theorem getXfer_delXfer_ne (s) {n m : Nat} (h : m ≠ n) : getXfer (delXfer s n) m = getXfer s m := tabFind_tabDel_ne _ h
@[simp] theorem getInv_setInv (s n x) : getInv (setInv s n x) n = some x := tabFind_tabPut_same _ _ _
theorem getInv_setInv_ne (s x) {n m : Nat} (h : m ≠ n) : getInv (setInv s n x) m = getInv s m := tabFind_tabPut_ne _ _ h
@[simp] theorem memByte_setMemByte (s a b) : memByte (setMemByte s a b) a = b := tabGet_tabSet_same _ _ _ _
theorem memByte_setMemByte_ne (s b) {n m : Nat} (h : m ≠ n) : memByte (setMemByte s n b) m = memByte s m := tabGet_tabSet_ne _ _ _ h
@[simp] theorem getIsl_setCore (s p c k0) : getIsl (setCore s p c) k0 = getIsl s k0 := rfl
@[simp] theorem getIsl_setSem (s i x k0) : getIsl (setSem s i x) k0 = getIsl s k0 := rfl
@[simp] theorem getIsl_setLink (s l x k0) : getIsl (setLink s l x) k0 = getIsl s k0 := rfl
@[simp] theorem getIsl_setXfer (s x v k0) : getIsl (setXfer s x v) k0 = getIsl s k0 := rfl
@[simp] theorem getIsl_delXfer (s x k0) : getIsl (delXfer s x) k0 = getIsl s k0 := rfl
@[simp] theorem getIsl_setQ (s q x k0) : getIsl (setQ s q x) k0 = getIsl s k0 := rfl
@[simp] theorem getIsl_setInv (s i x k0) : getIsl (setInv s i x) k0 = getIsl s k0 := rfl
@[simp] theorem getIsl_setHost (s h x k0) : getIsl (setHost s h x) k0 = getIsl s k0 := rfl
@[simp] theorem getIsl_setGk (s p x k0) : getIsl (setGk s p x) k0 = getIsl s k0 := rfl
@[simp] theorem getIsl_setCache (s d c k0) : getIsl (setCache s d c) k0 = getIsl s k0 := rfl
@[simp] theorem getIsl_setMc (s k m k0) : getIsl (setMc s k m) k0 = getIsl s k0 := rfl
@[simp] theorem getIsl_setSlot (s k x k0) : getIsl (setSlot s k x) k0 = getIsl s k0 := rfl
@[simp] theorem getIsl_setMemByte (s a b k0) : getIsl (setMemByte s a b) k0 = getIsl s k0 := rfl
@[simp] theorem getIsl_setMemPoison (s a p k0) : getIsl (setMemPoison s a p) k0 = getIsl s k0 := rfl
@[simp] theorem getIsl_logEvent (e n d s k0) : getIsl (logEvent e n d s) k0 = getIsl s k0 := rfl
@[simp] theorem getCore_setIsl (s n i k0) : getCore (setIsl s n i) k0 = getCore s k0 := rfl
@[simp] theorem getCore_setSem (s i x k0) : getCore (setSem s i x) k0 = getCore s k0 := rfl
@[simp] theorem getCore_setLink (s l x k0) : getCore (setLink s l x) k0 = getCore s k0 := rfl
@[simp] theorem getCore_setXfer (s x v k0) : getCore (setXfer s x v) k0 = getCore s k0 := rfl
@[simp] theorem getCore_delXfer (s x k0) : getCore (delXfer s x) k0 = getCore s k0 := rfl
@[simp] theorem getCore_setQ (s q x k0) : getCore (setQ s q x) k0 = getCore s k0 := rfl
@[simp] theorem getCore_setInv (s i x k0) : getCore (setInv s i x) k0 = getCore s k0 := rfl
@[simp] theorem getCore_setHost (s h x k0) : getCore (setHost s h x) k0 = getCore s k0 := rfl
@[simp] theorem getCore_setGk (s p x k0) : getCore (setGk s p x) k0 = getCore s k0 := rfl
@[simp] theorem getCore_setCache (s d c k0) : getCore (setCache s d c) k0 = getCore s k0 := rfl
@[simp] theorem getCore_setMc (s k m k0) : getCore (setMc s k m) k0 = getCore s k0 := rfl
@[simp] theorem getCore_setSlot (s k x k0) : getCore (setSlot s k x) k0 = getCore s k0 := rfl
@[simp] theorem getCore_setMemByte (s a b k0) : getCore (setMemByte s a b) k0 = getCore s k0 := rfl
@[simp] theorem getCore_setMemPoison (s a p k0) : getCore (setMemPoison s a p) k0 = getCore s k0 := rfl
@[simp] theorem getCore_logEvent (e n d s k0) : getCore (logEvent e n d s) k0 = getCore s k0 := rfl
@[simp] theorem getSem_setIsl (s n i k0) : getSem (setIsl s n i) k0 = getSem s k0 := rfl
@[simp] theorem getSem_setCore (s p c k0) : getSem (setCore s p c) k0 = getSem s k0 := rfl
@[simp] theorem getSem_setLink (s l x k0) : getSem (setLink s l x) k0 = getSem s k0 := rfl
@[simp] theorem getSem_setXfer (s x v k0) : getSem (setXfer s x v) k0 = getSem s k0 := rfl
@[simp] theorem getSem_delXfer (s x k0) : getSem (delXfer s x) k0 = getSem s k0 := rfl
@[simp] theorem getSem_setQ (s q x k0) : getSem (setQ s q x) k0 = getSem s k0 := rfl
@[simp] theorem getSem_setInv (s i x k0) : getSem (setInv s i x) k0 = getSem s k0 := rfl
@[simp] theorem getSem_setHost (s h x k0) : getSem (setHost s h x) k0 = getSem s k0 := rfl
@[simp] theorem getSem_setGk (s p x k0) : getSem (setGk s p x) k0 = getSem s k0 := rfl
@[simp] theorem getSem_setCache (s d c k0) : getSem (setCache s d c) k0 = getSem s k0 := rfl
@[simp] theorem getSem_setMc (s k m k0) : getSem (setMc s k m) k0 = getSem s k0 := rfl
@[simp] theorem getSem_setSlot (s k x k0) : getSem (setSlot s k x) k0 = getSem s k0 := rfl
@[simp] theorem getSem_setMemByte (s a b k0) : getSem (setMemByte s a b) k0 = getSem s k0 := rfl
@[simp] theorem getSem_setMemPoison (s a p k0) : getSem (setMemPoison s a p) k0 = getSem s k0 := rfl
@[simp] theorem getSem_logEvent (e n d s k0) : getSem (logEvent e n d s) k0 = getSem s k0 := rfl
@[simp] theorem getLink_setIsl (s n i k0) : getLink (setIsl s n i) k0 = getLink s k0 := rfl
@[simp] theorem getLink_setCore (s p c k0) : getLink (setCore s p c) k0 = getLink s k0 := rfl
@[simp] theorem getLink_setSem (s i x k0) : getLink (setSem s i x) k0 = getLink s k0 := rfl
@[simp] theorem getLink_setXfer (s x v k0) : getLink (setXfer s x v) k0 = getLink s k0 := rfl
@[simp] theorem getLink_delXfer (s x k0) : getLink (delXfer s x) k0 = getLink s k0 := rfl
@[simp] theorem getLink_setQ (s q x k0) : getLink (setQ s q x) k0 = getLink s k0 := rfl
@[simp] theorem getLink_setInv (s i x k0) : getLink (setInv s i x) k0 = getLink s k0 := rfl
@[simp] theorem getLink_setHost (s h x k0) : getLink (setHost s h x) k0 = getLink s k0 := rfl
@[simp] theorem getLink_setGk (s p x k0) : getLink (setGk s p x) k0 = getLink s k0 := rfl
@[simp] theorem getLink_setCache (s d c k0) : getLink (setCache s d c) k0 = getLink s k0 := rfl
@[simp] theorem getLink_setMc (s k m k0) : getLink (setMc s k m) k0 = getLink s k0 := rfl
@[simp] theorem getLink_setSlot (s k x k0) : getLink (setSlot s k x) k0 = getLink s k0 := rfl
@[simp] theorem getLink_setMemByte (s a b k0) : getLink (setMemByte s a b) k0 = getLink s k0 := rfl
@[simp] theorem getLink_setMemPoison (s a p k0) : getLink (setMemPoison s a p) k0 = getLink s k0 := rfl
@[simp] theorem getLink_logEvent (e n d s k0) : getLink (logEvent e n d s) k0 = getLink s k0 := rfl
@[simp] theorem getQ_setIsl (s n i k0) : getQ (setIsl s n i) k0 = getQ s k0 := rfl
@[simp] theorem getQ_setCore (s p c k0) : getQ (setCore s p c) k0 = getQ s k0 := rfl
@[simp] theorem getQ_setSem (s i x k0) : getQ (setSem s i x) k0 = getQ s k0 := rfl
@[simp] theorem getQ_setLink (s l x k0) : getQ (setLink s l x) k0 = getQ s k0 := rfl
@[simp] theorem getQ_setXfer (s x v k0) : getQ (setXfer s x v) k0 = getQ s k0 := rfl
@[simp] theorem getQ_delXfer (s x k0) : getQ (delXfer s x) k0 = getQ s k0 := rfl
@[simp] theorem getQ_setHost (s h x k0) : getQ (setHost s h x) k0 = getQ s k0 := rfl
@[simp] theorem getQ_setGk (s p x k0) : getQ (setGk s p x) k0 = getQ s k0 := rfl
@[simp] theorem getQ_setCache (s d c k0) : getQ (setCache s d c) k0 = getQ s k0 := rfl
@[simp] theorem getQ_setMc (s k m k0) : getQ (setMc s k m) k0 = getQ s k0 := rfl
@[simp] theorem getQ_setSlot (s k x k0) : getQ (setSlot s k x) k0 = getQ s k0 := rfl
@[simp] theorem getQ_setMemByte (s a b k0) : getQ (setMemByte s a b) k0 = getQ s k0 := rfl
@[simp] theorem getQ_setMemPoison (s a p k0) : getQ (setMemPoison s a p) k0 = getQ s k0 := rfl
@[simp] theorem getQ_logEvent (e n d s k0) : getQ (logEvent e n d s) k0 = getQ s k0 := rfl
@[simp] theorem getHost_setIsl (s n i k0) : getHost (setIsl s n i) k0 = getHost s k0 := rfl
@[simp] theorem getHost_setCore (s p c k0) : getHost (setCore s p c) k0 = getHost s k0 := rfl
@[simp] theorem getHost_setSem (s i x k0) : getHost (setSem s i x) k0 = getHost s k0 := rfl
@[simp] theorem getHost_setLink (s l x k0) : getHost (setLink s l x) k0 = getHost s k0 := rfl
@[simp] theorem getHost_setXfer (s x v k0) : getHost (setXfer s x v) k0 = getHost s k0 := rfl
@[simp] theorem getHost_delXfer (s x k0) : getHost (delXfer s x) k0 = getHost s k0 := rfl
@[simp] theorem getHost_setQ (s q x k0) : getHost (setQ s q x) k0 = getHost s k0 := rfl
@[simp] theorem getHost_setInv (s i x k0) : getHost (setInv s i x) k0 = getHost s k0 := rfl
@[simp] theorem getHost_setCache (s d c k0) : getHost (setCache s d c) k0 = getHost s k0 := rfl
@[simp] theorem getHost_setMc (s k m k0) : getHost (setMc s k m) k0 = getHost s k0 := rfl
@[simp] theorem getHost_setSlot (s k x k0) : getHost (setSlot s k x) k0 = getHost s k0 := rfl
@[simp] theorem getHost_setMemByte (s a b k0) : getHost (setMemByte s a b) k0 = getHost s k0 := rfl
@[simp] theorem getHost_setMemPoison (s a p k0) : getHost (setMemPoison s a p) k0 = getHost s k0 := rfl
@[simp] theorem getHost_logEvent (e n d s k0) : getHost (logEvent e n d s) k0 = getHost s k0 := rfl
@[simp] theorem getGk_setIsl (s n i k0) : getGk (setIsl s n i) k0 = getGk s k0 := rfl
@[simp] theorem getGk_setCore (s p c k0) : getGk (setCore s p c) k0 = getGk s k0 := rfl
@[simp] theorem getGk_setSem (s i x k0) : getGk (setSem s i x) k0 = getGk s k0 := rfl
@[simp] theorem getGk_setLink (s l x k0) : getGk (setLink s l x) k0 = getGk s k0 := rfl
@[simp] theorem getGk_setXfer (s x v k0) : getGk (setXfer s x v) k0 = getGk s k0 := rfl
@[simp] theorem getGk_delXfer (s x k0) : getGk (delXfer s x) k0 = getGk s k0 := rfl
@[simp] theorem getGk_setQ (s q x k0) : getGk (setQ s q x) k0 = getGk s k0 := rfl
@[simp] theorem getGk_setInv (s i x k0) : getGk (setInv s i x) k0 = getGk s k0 := rfl
@[simp] theorem getGk_setCache (s d c k0) : getGk (setCache s d c) k0 = getGk s k0 := rfl
@[simp] theorem getGk_setMc (s k m k0) : getGk (setMc s k m) k0 = getGk s k0 := rfl
@[simp] theorem getGk_setSlot (s k x k0) : getGk (setSlot s k x) k0 = getGk s k0 := rfl
@[simp] theorem getGk_setMemByte (s a b k0) : getGk (setMemByte s a b) k0 = getGk s k0 := rfl
@[simp] theorem getGk_setMemPoison (s a p k0) : getGk (setMemPoison s a p) k0 = getGk s k0 := rfl
@[simp] theorem getGk_logEvent (e n d s k0) : getGk (logEvent e n d s) k0 = getGk s k0 := rfl
@[simp] theorem getCache_setIsl (s n i k0) : getCache (setIsl s n i) k0 = getCache s k0 := rfl
@[simp] theorem getCache_setCore (s p c k0) : getCache (setCore s p c) k0 = getCache s k0 := rfl
@[simp] theorem getCache_setSem (s i x k0) : getCache (setSem s i x) k0 = getCache s k0 := rfl
@[simp] theorem getCache_setLink (s l x k0) : getCache (setLink s l x) k0 = getCache s k0 := rfl
@[simp] theorem getCache_setXfer (s x v k0) : getCache (setXfer s x v) k0 = getCache s k0 := rfl
@[simp] theorem getCache_delXfer (s x k0) : getCache (delXfer s x) k0 = getCache s k0 := rfl
@[simp] theorem getCache_setQ (s q x k0) : getCache (setQ s q x) k0 = getCache s k0 := rfl
@[simp] theorem getCache_setInv (s i x k0) : getCache (setInv s i x) k0 = getCache s k0 := rfl
@[simp] theorem getCache_setHost (s h x k0) : getCache (setHost s h x) k0 = getCache s k0 := rfl
@[simp] theorem getCache_setGk (s p x k0) : getCache (setGk s p x) k0 = getCache s k0 := rfl
@[simp] theorem getCache_setMc (s k m k0) : getCache (setMc s k m) k0 = getCache s k0 := rfl
@[simp] theorem getCache_setSlot (s k x k0) : getCache (setSlot s k x) k0 = getCache s k0 := rfl
@[simp] theorem getCache_setMemByte (s a b k0) : getCache (setMemByte s a b) k0 = getCache s k0 := rfl
@[simp] theorem getCache_setMemPoison (s a p k0) : getCache (setMemPoison s a p) k0 = getCache s k0 := rfl
@[simp] theorem getCache_logEvent (e n d s k0) : getCache (logEvent e n d s) k0 = getCache s k0 := rfl
@[simp] theorem getMc_setIsl (s n i k0) : getMc (setIsl s n i) k0 = getMc s k0 := rfl
@[simp] theorem getMc_setCore (s p c k0) : getMc (setCore s p c) k0 = getMc s k0 := rfl
@[simp] theorem getMc_setSem (s i x k0) : getMc (setSem s i x) k0 = getMc s k0 := rfl
@[simp] theorem getMc_setLink (s l x k0) : getMc (setLink s l x) k0 = getMc s k0 := rfl
@[simp] theorem getMc_setXfer (s x v k0) : getMc (setXfer s x v) k0 = getMc s k0 := rfl
@[simp] theorem getMc_delXfer (s x k0) : getMc (delXfer s x) k0 = getMc s k0 := rfl
@[simp] theorem getMc_setQ (s q x k0) : getMc (setQ s q x) k0 = getMc s k0 := rfl
@[simp] theorem getMc_setInv (s i x k0) : getMc (setInv s i x) k0 = getMc s k0 := rfl
@[simp] theorem getMc_setHost (s h x k0) : getMc (setHost s h x) k0 = getMc s k0 := rfl
@[simp] theorem getMc_setGk (s p x k0) : getMc (setGk s p x) k0 = getMc s k0 := rfl
@[simp] theorem getMc_setCache (s d c k0) : getMc (setCache s d c) k0 = getMc s k0 := rfl
@[simp] theorem getMc_setSlot (s k x k0) : getMc (setSlot s k x) k0 = getMc s k0 := rfl
@[simp] theorem getMc_setMemByte (s a b k0) : getMc (setMemByte s a b) k0 = getMc s k0 := rfl
@[simp] theorem getMc_setMemPoison (s a p k0) : getMc (setMemPoison s a p) k0 = getMc s k0 := rfl
@[simp] theorem getMc_logEvent (e n d s k0) : getMc (logEvent e n d s) k0 = getMc s k0 := rfl
@[simp] theorem getGrinder_setIsl (s n i k0) : getGrinder (setIsl s n i) k0 = getGrinder s k0 := rfl
@[simp] theorem getGrinder_setCore (s p c k0) : getGrinder (setCore s p c) k0 = getGrinder s k0 := rfl
@[simp] theorem getGrinder_setSem (s i x k0) : getGrinder (setSem s i x) k0 = getGrinder s k0 := rfl
@[simp] theorem getGrinder_setLink (s l x k0) : getGrinder (setLink s l x) k0 = getGrinder s k0 := rfl
@[simp] theorem getGrinder_setXfer (s x v k0) : getGrinder (setXfer s x v) k0 = getGrinder s k0 := rfl
@[simp] theorem getGrinder_delXfer (s x k0) : getGrinder (delXfer s x) k0 = getGrinder s k0 := rfl
@[simp] theorem getGrinder_setQ (s q x k0) : getGrinder (setQ s q x) k0 = getGrinder s k0 := rfl
@[simp] theorem getGrinder_setInv (s i x k0) : getGrinder (setInv s i x) k0 = getGrinder s k0 := rfl
@[simp] theorem getGrinder_setHost (s h x k0) : getGrinder (setHost s h x) k0 = getGrinder s k0 := rfl
@[simp] theorem getGrinder_setGk (s p x k0) : getGrinder (setGk s p x) k0 = getGrinder s k0 := rfl
@[simp] theorem getGrinder_setCache (s d c k0) : getGrinder (setCache s d c) k0 = getGrinder s k0 := rfl
@[simp] theorem getGrinder_setMc (s k m k0) : getGrinder (setMc s k m) k0 = getGrinder s k0 := rfl
@[simp] theorem getGrinder_setSlot (s k x k0) : getGrinder (setSlot s k x) k0 = getGrinder s k0 := rfl
@[simp] theorem getGrinder_setMemByte (s a b k0) : getGrinder (setMemByte s a b) k0 = getGrinder s k0 := rfl
@[simp] theorem getGrinder_setMemPoison (s a p k0) : getGrinder (setMemPoison s a p) k0 = getGrinder s k0 := rfl
@[simp] theorem getGrinder_logEvent (e n d s k0) : getGrinder (logEvent e n d s) k0 = getGrinder s k0 := rfl
@[simp] theorem getStore_setIsl (s n i k0) : getStore (setIsl s n i) k0 = getStore s k0 := rfl
@[simp] theorem getStore_setCore (s p c k0) : getStore (setCore s p c) k0 = getStore s k0 := rfl
@[simp] theorem getStore_setSem (s i x k0) : getStore (setSem s i x) k0 = getStore s k0 := rfl
@[simp] theorem getStore_setLink (s l x k0) : getStore (setLink s l x) k0 = getStore s k0 := rfl
@[simp] theorem getStore_setXfer (s x v k0) : getStore (setXfer s x v) k0 = getStore s k0 := rfl
@[simp] theorem getStore_delXfer (s x k0) : getStore (delXfer s x) k0 = getStore s k0 := rfl
@[simp] theorem getStore_setQ (s q x k0) : getStore (setQ s q x) k0 = getStore s k0 := rfl
@[simp] theorem getStore_setInv (s i x k0) : getStore (setInv s i x) k0 = getStore s k0 := rfl
@[simp] theorem getStore_setHost (s h x k0) : getStore (setHost s h x) k0 = getStore s k0 := rfl
@[simp] theorem getStore_setGk (s p x k0) : getStore (setGk s p x) k0 = getStore s k0 := rfl
@[simp] theorem getStore_setCache (s d c k0) : getStore (setCache s d c) k0 = getStore s k0 := rfl
@[simp] theorem getStore_setMc (s k m k0) : getStore (setMc s k m) k0 = getStore s k0 := rfl
@[simp] theorem getStore_setSlot (s k x k0) : getStore (setSlot s k x) k0 = getStore s k0 := rfl
@[simp] theorem getStore_setMemByte (s a b k0) : getStore (setMemByte s a b) k0 = getStore s k0 := rfl
@[simp] theorem getStore_setMemPoison (s a p k0) : getStore (setMemPoison s a p) k0 = getStore s k0 := rfl
@[simp] theorem getStore_logEvent (e n d s k0) : getStore (logEvent e n d s) k0 = getStore s k0 := rfl
@[simp] theorem getCr_setIsl (s n i k0) : getCr (setIsl s n i) k0 = getCr s k0 := rfl
@[simp] theorem getCr_setCore (s p c k0) : getCr (setCore s p c) k0 = getCr s k0 := rfl
@[simp] theorem getCr_setSem (s i x k0) : getCr (setSem s i x) k0 = getCr s k0 := rfl
@[simp] theorem getCr_setLink (s l x k0) : getCr (setLink s l x) k0 = getCr s k0 := rfl
@[simp] theorem getCr_setXfer (s x v k0) : getCr (setXfer s x v) k0 = getCr s k0 := rfl
@[simp] theorem getCr_delXfer (s x k0) : getCr (delXfer s x) k0 = getCr s k0 := rfl
@[simp] theorem getCr_setQ (s q x k0) : getCr (setQ s q x) k0 = getCr s k0 := rfl
@[simp] theorem getCr_setInv (s i x k0) : getCr (setInv s i x) k0 = getCr s k0 := rfl
@[simp] theorem getCr_setHost (s h x k0) : getCr (setHost s h x) k0 = getCr s k0 := rfl
@[simp] theorem getCr_setGk (s p x k0) : getCr (setGk s p x) k0 = getCr s k0 := rfl
@[simp] theorem getCr_setCache (s d c k0) : getCr (setCache s d c) k0 = getCr s k0 := rfl
@[simp] theorem getCr_setMc (s k m k0) : getCr (setMc s k m) k0 = getCr s k0 := rfl
@[simp] theorem getCr_setSlot (s k x k0) : getCr (setSlot s k x) k0 = getCr s k0 := rfl
@[simp] theorem getCr_setMemByte (s a b k0) : getCr (setMemByte s a b) k0 = getCr s k0 := rfl
@[simp] theorem getCr_setMemPoison (s a p k0) : getCr (setMemPoison s a p) k0 = getCr s k0 := rfl
@[simp] theorem getCr_logEvent (e n d s k0) : getCr (logEvent e n d s) k0 = getCr s k0 := rfl
@[simp] theorem getSlot_setIsl (s n i k0) : getSlot (setIsl s n i) k0 = getSlot s k0 := rfl
@[simp] theorem getSlot_setCore (s p c k0) : getSlot (setCore s p c) k0 = getSlot s k0 := rfl
@[simp] theorem getSlot_setSem (s i x k0) : getSlot (setSem s i x) k0 = getSlot s k0 := rfl
@[simp] theorem getSlot_setLink (s l x k0) : getSlot (setLink s l x) k0 = getSlot s k0 := rfl
@[simp] theorem getSlot_setXfer (s x v k0) : getSlot (setXfer s x v) k0 = getSlot s k0 := rfl
@[simp] theorem getSlot_delXfer (s x k0) : getSlot (delXfer s x) k0 = getSlot s k0 := rfl
@[simp] theorem getSlot_setQ (s q x k0) : getSlot (setQ s q x) k0 = getSlot s k0 := rfl
@[simp] theorem getSlot_setInv (s i x k0) : getSlot (setInv s i x) k0 = getSlot s k0 := rfl
@[simp] theorem getSlot_setHost (s h x k0) : getSlot (setHost s h x) k0 = getSlot s k0 := rfl
@[simp] theorem getSlot_setGk (s p x k0) : getSlot (setGk s p x) k0 = getSlot s k0 := rfl
@[simp] theorem getSlot_setCache (s d c k0) : getSlot (setCache s d c) k0 = getSlot s k0 := rfl
@[simp] theorem getSlot_setMc (s k m k0) : getSlot (setMc s k m) k0 = getSlot s k0 := rfl
@[simp] theorem getSlot_setMemByte (s a b k0) : getSlot (setMemByte s a b) k0 = getSlot s k0 := rfl
@[simp] theorem getSlot_setMemPoison (s a p k0) : getSlot (setMemPoison s a p) k0 = getSlot s k0 := rfl
@[simp] theorem getSlot_logEvent (e n d s k0) : getSlot (logEvent e n d s) k0 = getSlot s k0 := rfl
@[simp] theorem getXfer_setIsl (s n i k0) : getXfer (setIsl s n i) k0 = getXfer s k0 := rfl
@[simp] theorem getInv_setIsl (s n i k0) : getInv (setIsl s n i) k0 = getInv s k0 := rfl
@[simp] theorem getXfer_setCore (s p c k0) : getXfer (setCore s p c) k0 = getXfer s k0 := rfl
@[simp] theorem getInv_setCore (s p c k0) : getInv (setCore s p c) k0 = getInv s k0 := rfl
@[simp] theorem getXfer_setSem (s i x k0) : getXfer (setSem s i x) k0 = getXfer s k0 := rfl
@[simp] theorem getInv_setSem (s i x k0) : getInv (setSem s i x) k0 = getInv s k0 := rfl
@[simp] theorem getXfer_setLink (s l x k0) : getXfer (setLink s l x) k0 = getXfer s k0 := rfl
@[simp] theorem getInv_setLink (s l x k0) : getInv (setLink s l x) k0 = getInv s k0 := rfl
@[simp] theorem getXfer_setQ (s q x k0) : getXfer (setQ s q x) k0 = getXfer s k0 := rfl
@[simp] theorem getInv_setQ (s q x k0) : getInv (setQ s q x) k0 = getInv s k0 := rfl
@[simp] theorem getXfer_logEvent (e n d s k0) : getXfer (logEvent e n d s) k0 = getXfer s k0 := rfl
@[simp] theorem getInv_logEvent (e n d s k0) : getInv (logEvent e n d s) k0 = getInv s k0 := rfl
@[simp] theorem getQ_setInv (s i x k0) : getQ (setInv s i x) k0 = getQ s k0 := rfl
@[simp] theorem getHost_setGk (s p x k0) : getHost (setGk s p x) k0 = getHost s k0 := rfl
@[simp] theorem getGk_setHost (s h x k0) : getGk (setHost s h x) k0 = getGk s k0 := rfl

end Sys2Proof.Machine
end

