-- ==== Sys2Proof/WellFormed.lean ====
section
/-! DEFINITION. What a command's operands must be for it to be one that the outside world can send: ranges that their types do not state. -/

namespace Sys2Proof

/-- An island of R29. -/
def islandNumber (n : Nat) : Bool := decide (n % 256 < 129) || (decide (n / 256 = 1) && decide (n % 256 < 132))

/-- Readings are of compute and grinder islands, one of each island at most (R444). -/
def movableReadings : List IslandReading → Bool
  | [] => true
  | r :: t => decide (r.island.val % 256 < 100) && t.all (fun q => q.island != r.island) && movableReadings t

/-- A piece's bytes: 1 to 4,096 (R313). -/
def pieceBytes (b : List Byte) : Bool := decide (1 ≤ b.length) && decide (b.length ≤ 4096)

/-- A ring message's data: 1 to 4,096 bytes (R385). -/
def ringBytes (b : List (Byte × Bool)) : Bool := decide (1 ≤ b.length) && decide (b.length ≤ 4096)

/-- A training result of each stack at most once (R292). -/
def distinctStacks : List StackTraining → Bool
  | [] => true
  | r :: t => t.all (fun q => q.stack != r.stack) && distinctStacks t

/-- A flit error names a stop that exists: there is none at (0, 0) and none at (0, 8) (R20). -/
def flitErrorOk (e : Option FlitError) : Bool := e.all (fun e => !(e.x.val == 0 && (e.y.val == 0 || e.y.val == 8)))

/-- A command that can be sent. -/
def Instr.wellFormed : Instr → Bool
  | .accessMisaligned _ _ z _ => decide (1 ≤ z.val)
  | .registerWrite _ _ _ _ => true
  | .islClockStep n => decide (n.val % 256 < 100)
  | .packetDeliver src e => flitErrorOk e && (match src with | .queued _ => true | .hostData _ _ b => pieceBytes b | .circuit _ _ _ => true)
  | .blendLoad _ _ _ _ => true
  | .blendStage _ _ _ _ => true
  | .reblend _ _ _ _ => true
  | .blendCopyDone image => image.all (fun b => decide (b.length ≤ 0x1000000))
  | .blendMeasureDone => true
  | .blendSignatureDone => true
  | .blendValidateDone => true
  | .blendApplyDone => true
  | .plannerBootRunDone rs => movableReadings rs
  | .reblendStopDone => true
  | .drainTimeout => true
  | .reblendCleanDone rs => movableReadings rs
  | .reblendResume => true
  | .matGrid _ => true
  | .matFan _ => true
  | .matWide _ => true
  | .matStart _ => true
  | .accOverflow _ => true
  | .accReplayRestart _ => true
  | .matComplete _ => true
  | .vec _ => true
  | .vecStart _ => true
  | .vecComplete _ => true
  | .movLoad _ => true
  | .movLoadUnseal _ => true
  | .movStore _ => true
  | .movLocal _ => true
  | .movFillNear _ => true
  | .movFillFar _ => true
  | .movComplete _ _ => true
  | .unsealCheckDone _ _ => true
  | .grd _ => true
  | .semWait _ => true
  | .semPost _ => true
  | .semSet _ => true
  | .semPostFire _ => true
  | .waitTimeout _ => true
  | .ctlEnd _ => true
  | .ctlLoop _ => true
  | .ctlSet _ => true
  | .ctlLdx _ => true
  | .ctlArm _ => true
  | .ctlCheap _ => true
  | .ctlLive _ => true
  | .ctlDebugAccRead _ => true
  | .ctlDebugBreak _ => true
  | .overrun _ _ => true
  | .blockFetchDone _ _ e => flitErrorOk e.flit
  | .invocationEnd _ => true
  | .seqStepStep _ _ _ => true
  | .seqStepHalt _ _ _ => true
  | .dbgScrDataRead _ _ => true
  | .switchRequest _ => true
  | .tileBoundarySave _ => true
  | .spillSaveDone _ => true
  | .contextResume _ _ => true
  | .resumeRestoreDone _ => true
  | .streamChunkIssue _ => true
  | .streamChunkLanded _ _ => true
  | .streamStall _ => true
  | .grdBatchBegin _ => true
  | .grdRowReadReturn _ _ _ => true
  | .grdBatchComplete _ _ => true
  | .tableDefine _ _ _ _ => true
  | .tableStage _ _ _ _ => true
  | .tableSwitch _ _ _ _ => true
  | .tableRetire _ _ _ _ => true
  | .tableRetireForce _ _ _ _ => true
  | .tableUpdate _ _ _ _ => true
  | .tableUndefine _ _ _ _ => true
  | .updateFold _ _ _ => true
  | .sessionAdmit _ => true
  | .stepBatchBuild _ _ _ l e c => decide (1 ≤ l.length) && e.length == 64 && decide (c.length ≤ 4096)
  | .prefixNodeBadReport _ _ => true
  | .hbmAccess _ _ _ _ => true
  | .hbmAtomic _ p w _ _ => decide (p.addr < 0x4800000000) && p.addr % (if w then 8 else 4) == 0
  | .backgroundFillStart _ _ _ => true
  | .backgroundFillDrop _ _ => true
  | .evictionWritebackDone _ _ => true
  | .hbmPatrolRead _ _ => true
  | .hbmScrubLate _ => true
  | .hbmRetrainPauseStart _ _ _ => true
  | .hbmRetrainPauseEnd _ => true
  | .cacheCleanDone _ => true
  | .segWrite _ _ _ _ => true
  | .segClear _ _ _ _ => true
  | .segRead _ _ _ _ => true
  | .segAdviseWillNeed _ _ _ _ => true
  | .segAdviseCold _ _ _ _ => true
  | .segAdviseReadMostly _ _ _ _ => true
  | .segAdviseRevokeRm _ _ _ _ => true
  | .segAdviseHot _ _ _ _ => true
  | .segAdviseNormal _ _ _ _ => true
  | .segAdviseCopyDone _ d => d.all (fun b => decide (1 ≤ b.length))
  | .segInvalidateApply _ _ _ => true
  | .segWithdrawAck _ _ _ => true
  | .segMissFill _ => true
  | .segFaultResolveRetry _ _ => true
  | .segFaultResolveFail _ _ => true
  | .segmentFaultTimeout _ => true
  | .segFaultCtrlWrite _ _ => true
  | .gkLinkUp _ _ _ => true
  | .gkReplay _ => true
  | .gkRetrain _ => true
  | .gkRetrainDone _ _ => true
  | .gkLinkCtrlRetrain _ _ => true
  | .gkLinkCtrlFull _ _ => true
  | .hostLostTimeout _ => true
  | .hostReset _ => true
  | .hostRegister _ _ _ => true
  | .hostRelease _ => true
  | .hostDrain _ _ _ => true
  | .hostAccessRefused _ => true
  | .flushReadReturn _ => true
  | .gkSpillBaseWrite _ _ => true
  | .mailboxToCarrier _ _ => true
  | .mailboxSubmit _ _ e _ => decide (e.length ≤ 4096)
  | .m2hMessage _ m => m.all (fun b => decide (b.length ≤ 256))
  | .mbM2hFullRelease _ _ => true
  | .vectorRaise _ => true
  | .vectorHoldoffEnd _ => true
  | .ivCtrlWrite _ _ _ => true
  | .gkWake _ => true
  | .sqTailWrite _ _ _ => true
  | .rqHeadWrite _ _ _ => true
  | .sqEnable _ _ v => v.toNat / 2147483648 == 1
  | .sqDisable _ _ v => v.toNat / 2147483648 == 0
  | .envelopeStage _ e c _ => decide (e.length ≤ 64) && decide (c.length ≤ 4096)
  | .invocationDispatch _ => true
  | .invocationRunnable _ => true
  | .receiptWrite _ => true
  | .courierReplay _ => true
  | .courierRetrain _ => true
  | .courierRetrainDone _ _ => true
  | .read _ _ n _ => decide (1 ≤ n.val)
  | .readData _ _ d => ringBytes d
  | .write _ _ d _ => ringBytes d
  | .atomic _ _ _ _ _ _ => true
  | .ack _ _ _ _ => true
  | .nack _ _ _ _ => true
  | .gather _ _ _ d _ => ringBytes d
  | .step _ _ _ _ e c => e.length == 64 && decide (c.length ≤ 4096)
  | .stepReceipt _ _ _ _ r _ => r.length == 32
  | .routed _ _ _ _ d => decide (d.length ≤ 4096)
  | .join _ _ _ => true
  | .assign _ _ _ _ => true
  | .heartbeat _ _ => true
  | .heartbeatSend => true
  | .time _ _ _ => true
  | .timeExchange _ _ => true
  | .linkNotice _ _ _ _ => true
  | .announce _ _ => true
  | .drainRing _ _ _ => true
  | .courierResend _ => true
  | .courierPeerLost _ => true
  | .managerLost => true
  | .bypassSwitchSettle _ => true
  | .caps _ _ _ _ => true
  | .quote _ _ _ _ => true
  | .ownerRegister _ _ _ _ g => g.all (fun b => decide (b.length ≤ 0x10000))
  | .ownerTransfer _ _ _ _ g => g.all (fun b => decide (b.length ≤ 0x20000))
  | .carrierLoad _ _ _ _ => true
  | .carrierLoadDone _ => true
  | .contextClaim _ _ _ _ => true
  | .contextRelease _ _ _ _ => true
  | .queueContext _ _ _ _ => true
  | .ringQueuesSet _ _ _ _ => true
  | .ringQueuesClear _ _ _ _ => true
  | .savePool _ _ _ _ => true
  | .abort _ _ _ _ => true
  | .keyInstall _ _ _ _ => true
  | .keyBind _ _ _ _ => true
  | .keyRemove _ _ _ _ => true
  | .exportWindow _ _ _ _ => true
  | .groupWrite _ _ _ _ => true
  | .groupDelete _ _ _ _ => true
  | .hbmRepair _ _ _ _ => true
  | .islandRetire _ _ _ _ => true
  | .bootStart _ => true
  | .bootDone _ t => distinctStacks t
  | .slackAlarm n => decide (n.val % 256 < 100)
  | .plannerDailyRun rs => movableReadings rs
  | .planCtrlRun _ _ rs => movableReadings rs
  | .powerOnHour => true
  | .scratchpadScrub _ _ => true
  | .logEntryWrite n => islandNumber n.val
  | .logIntervalEnd n _ => islandNumber n.val
  | .logMirrorSend => true
  | .supplyWarning _ => true
  | .supplyWarningClear _ => true
  | .supplyReset _ => true
  | .supplyRestored _ => true
  | .supplyOff => true
  | .powerUp _ => true
  | .powerGood => true
  | .mrstNAssert => true
  | .mrstNRelease => true
  | .pwrCtrlModuleReset _ _ => true
  | .postmasterReset _ => true
  | .moduleResetBoot => true
  | .pwrCtrlCarrierRestart _ _ => true
  | .carrierWatchdogExpiry => true
  | .pwrCtrlWdogKick _ _ => true
  | .pwrCtrlPark _ _ => true
  | .parkDone => true
  | .pwrCtrlUnpark _ _ t => distinctStacks t
  | .unparkDone rs => movableReadings rs
  | .junctionTempChange n _ => islandNumber n.val
  | .thermalCriticalTimeout => true
  | .inputPowerLimit _ => true
  | .hbmTempChange _ _ => true
  | .coreReset _ => true
  | .islandIdleGate n => decide (n.val % 256 < 100)
  | .sbReadModId => true
  | .sbReadModState => true
  | .sbReadModSerial => true
  | .sbReadPmStatus => true
  | .sbReadPwrSupply => true
  | .sbReadPwrThermal => true
  | .sbReadAlertStatus => true
  | .sbReadLogSeq => true
  | .sbReadModuleRecord _ n => decide (1 ≤ n.val)
  | .sbUnusedCommand c => decide (7 < c.toNat) && c.toNat != 0x10
  | .courierLinkUp _ _ _ _ => true
  | .pmCallDone _ => true
  | .slackCheckDone n _ r => decide (n.val % 256 < 100) && r.island == n
  | .plannerRunDone => true
  | .semPostRegister _ _ _ => true
  | .carrierAccess _ k => (match k with | .readMem _ n => decide (1 ≤ n.val) | .writeMem _ b => decide (1 ≤ b.length) && decide (b.length ≤ 256) | .readReg _ _ => true)

end Sys2Proof
end

