-- ==== Sys2Proof/Tests/Slice0.lean ====
section
/-! SUPPORT. Small checks of the model: operands that the well-formedness check refuses, and for each statement a concrete state and operands
that meet what it supposes, with what the command does there. -/

set_option Elab.async false
set_option synthInstance.maxSize 4096
set_option synthInstance.maxHeartbeats 400000

namespace Sys2Proof.Tests
open Sys2Proof Sys2Proof.Machine

/-! ### Helpers -/

/-- The next state that a command answers. -/
def after (c : Instr) (s : State) : State := match exec c s with | .next t => t | _ => State.reset

/-- A tile op from its fields: byte offset and value. -/
def opWord (fields : List (Nat × Nat)) : Bits256 := BitVec.ofNat 256 ((fields.map (fun e => e.2 * 2 ^ (8 * e.1))).foldl (· + ·) 0)

/-- A partition of core 0 and grinder 0 that may switch its dataflow and shows its state to debuggers. -/
def part : Partition :=
  { express := false, dataflow := 2, cacheRegion := none, grinderMask := 1, streamUnits := 8, stationaryUnits := 8, spillUnits := 4,
    accumVisible := true, singleStep := true, hostScratchRead := true, semBase := 0, semUnits := 1, cores := [0], stages := [] }

/-- A link from core 0 to itself, carried by streams at its consumer. -/
def link : LinkDef :=
  { producer := { grinder := false, port := 0, unit := 0 }, consumer := { grinder := false, port := 1, unit := 0 }, length := 0, order := 0,
    slotMask := 1, ringKib := 8, ringOffset := 0x80000, semFull := 16, semEmpty := 17, persistent := true }

/-- The structure with that partition and queue 0 bound to it. -/
def plan0 : Structure :=
  { structureReset with parts := [(0, part)], spareWritten := [(0, 0)], spare := [(0, 0)], queues := [(0, { partition := 0, cls := 2, depthLog2 := 4 })] }

/-- A serving module with that structure, 1 s after reset, with its Carrier running and host 0 on port 0. -/
def base : State :=
  { State.reset with
    mode := .serving, devTime := 1000000000
    power := { State.reset.power with bootDue := none }
    pm := { State.reset.pm with carrierRuns := true, carrierBase := 0x1000000, carrierSize := 0x100000, carrierEntry := 0x1000000 }
    plan := { State.reset.plan with bootDone := true, lastRun := some 0 }
    blend := { State.reset.blend with applied := true, cur := plan0 }
    host := { State.reset.host with
      ports := [(0, { gkPortReset with link := .up, lanes := 8, host := some 0, identity := 5 })]
      hosts := [(0, { hostStateReset with cond := .registered, identity := some 5, queueFirst := 0, queueCount := 8 })] } }

/-- Invocation 1 of queue 0, resident on core 0. -/
def inv1 : Invocation :=
  { queue := 0, context := 3, partition := 0, cls := 2, cores := [0], linkSet := 0, program := 0x1000, seed := 0, enclosure := [], rankStride := 0,
    notify := false, mailbox := false, sqIndex := 0, state := .resident, dispatched := 0, early := none, refused := false, sizeFault := false,
    versionRetired := false, poisoned := 0, replays := 0, switches := 0, fpFlags := 0, done := [], saved := [], slot := none, preempted := false,
    satPoison := false, blockedSince := none, outSince := 0 }

/-- Core 0 running invocation 1 with an op at its PC. -/
def coreWith (w : Bits256) : Core :=
  { coreReset with inv := some 1, phase := .running, pc := 0x1000, blocks := [{ base := 0x1000, bytes := leBytes 32 w.toNat, poison := [false] }] }

/-- That invocation resident with an op at the PC of its core. -/
def running (w : Bits256) : State :=
  { base with qs := { base.qs with invs := [(1, inv1)], nextInv := 2 }, cores := [(0, coreWith w)] }

/-- An issued op of a word. -/
def issued (w : Bits256) (seq : Nat) (started : Bool) : IssuedOp :=
  { seq := seq, addr := 0x1000, word := w, started := started, issuedAt := 0, joins := false, abandoned := false, near := 0, near2 := 0, near3 := 0, near4 := 0, far := 0, startedAt := 0,
    count := 0, fence := [], xfer := none, extra := 0, frame := [] }

/-- The running core with a change. -/
def runningCore (w : Bits256) (f : Core → Core) : State := updCore (running w) 0 f

/-- A segment in HBM leads to no host. -/
theorem entryServes_low (s : State) (e : SegEntry) (h : e.dbase + e.length ≤ hbmTop) : EntryServes s e := by
  intro va hc
  have : e.dbase + (va - e.vstart) < hbmTop := by simp [segCovers] at hc; omega
  simp [hostServes, placeOf, this]

theorem tabFind_mem {α : Type} (t : Tab α) (k : Nat) (v : α) (h : tabFind t k = some v) : (k, v) ∈ t := by
  induction t with
  | nil => simp [tabFind] at h
  | cons e t ih =>
    obtain ⟨n, w⟩ := e
    simp only [tabFind] at h
    split at h <;> simp_all

/-- With every segment in HBM and no cache filled, no segment leads to a host that is not registered. -/
theorem hostsServe_low (s : State) (h : s.seg.entries.all (fun e => decide (e.2.dbase + e.2.length ≤ hbmTop)) = true) (hc : s.seg.caches = []) :
    HostsServe s := by
  refine ⟨fun k => entryServes_low s _ ?_, fun n c hm => ?_⟩
  · unfold tabGet
    rcases hv : tabFind s.seg.entries k with _ | v
    · decide
    · exact of_decide_eq_true (List.all_eq_true.mp h _ (tabFind_mem _ _ _ hv))
  · simp [engineCache, hc, tabGet, tabFind] at hm

/-! ### Operands that cannot be sent -/

def head : CrHead := { port := 0, src := 1, cls := 2, seq := 1 }
def reading (n : Fin 512) : IslandReading := { island := n, slack := 30, roDelta := 0, headroom := 500, belowGoal := false, vCode := 40, fCode := 48 }
def training (k : Fin 12) : StackTraining := { stack := k, failed := [], command := false, moved := [] }

theorem test_wf_access_size : (Instr.accessMisaligned (.host 0) 0 0 false).wellFormed = false := by decide
theorem test_wf_clock_island : (Instr.islClockStep 100).wellFormed = false := by decide
theorem test_wf_host_data : (Instr.packetDeliver (.hostData 0 0 []) none).wellFormed = false := by decide
theorem test_wf_host_data_long : pieceBytes (zeros 4097) = false ∧ pieceBytes (zeros 4096) = true := by decide +kernel
theorem test_wf_image_long (b : List Byte) (h : b.length = 0x1000001) : (Instr.blendCopyDone (some b)).wellFormed = false := by
  simp [Instr.wellFormed, h]
theorem test_wf_boot_run_twice : (Instr.plannerBootRunDone [reading 3, reading 3]).wellFormed = false := by decide
theorem test_wf_boot_run_fixed : (Instr.plannerBootRunDone [reading 100]).wellFormed = false := by decide
theorem test_wf_reblend_twice : (Instr.reblendCleanDone [reading 3, reading 3]).wellFormed = false := by decide
theorem test_wf_daily_twice : (Instr.plannerDailyRun [reading 3, reading 3]).wellFormed = false := by decide
theorem test_wf_requested_twice : (Instr.planCtrlRun (.host 0) 0x60 [reading 3, reading 3]).wellFormed = false := by decide
theorem test_wf_unpark_run_twice : (Instr.unparkDone [reading 3, reading 3]).wellFormed = false := by decide
theorem test_wf_batch_empty : (Instr.stepBatchBuild 1 0 1 [] (zeros 64) []).wellFormed = false := by decide
theorem test_wf_atomic_alignment : (Instr.hbmAtomic .add ⟨none, 1, 4, [], .clean⟩ true 1 0).wellFormed = false ∧
    (Instr.hbmAtomic .add ⟨none, 1, 4, [], .clean⟩ false 1 0).wellFormed = true := by
  decide
theorem test_wf_atomic_address : (Instr.hbmAtomic .add ⟨none, 1, 0x4800000000, [], .clean⟩ true 1 0).wellFormed = false := by decide
theorem test_wf_copy_empty : (Instr.segAdviseCopyDone 0 (some [])).wellFormed = false := by decide
theorem test_wf_enclosure_long : (Instr.mailboxSubmit (.host 0) 0 (zeros 4097) false).wellFormed = false := by decide +kernel
theorem test_wf_message_long : (Instr.m2hMessage 0 (some (zeros 257))).wellFormed = false := by decide +kernel
theorem test_wf_enable_bit : (Instr.sqEnable (.host 0) 0 0x7FFFFFFF).wellFormed = false ∧
    (Instr.sqDisable (.host 0) 0 0x80000000).wellFormed = false := by decide
theorem test_wf_envelope_long : (Instr.envelopeStage 0 (zeros 65) [] false).wellFormed = false := by decide +kernel
theorem test_wf_read_empty : (Instr.read head 0 0 ⟨[], .clean⟩).wellFormed = false := by decide
theorem test_wf_ring_data_empty : (Instr.readData head 0 []).wellFormed = false ∧ (Instr.write head 0 [] ⟨[], .clean⟩).wellFormed = false ∧
    (Instr.gather head 0 0 [] true).wellFormed = false := by decide
theorem test_wf_step_envelope : (Instr.step head 0 0 1 (zeros 63) []).wellFormed = false := by decide +kernel
theorem test_wf_step_receipt : (Instr.stepReceipt head 0 0 1 (zeros 31) []).wellFormed = false := by decide +kernel
theorem test_wf_routed_long : (Instr.routed head false 0 0 (zeros 4097)).wellFormed = false := by decide +kernel
theorem test_wf_signature_long (b : List Byte) (h : b.length = 0x10001) :
    (Instr.ownerRegister (.host 0) 0 false 0 (some b)).wellFormed = false := by simp [Instr.wellFormed, h]
theorem test_wf_signatures_long (b : List Byte) (h : b.length = 0x20001) :
    (Instr.ownerTransfer (.host 0) 0 false 0 (some b)).wellFormed = false := by simp [Instr.wellFormed, h]
theorem test_wf_training_twice : (Instr.bootDone true [training 3, training 3]).wellFormed = false ∧
    (Instr.pwrCtrlUnpark (.host 0) 0 [training 3, training 3]).wellFormed = false := by decide
theorem test_wf_alarm_island : (Instr.slackAlarm 100).wellFormed = false := by decide
theorem test_wf_check_island : (Instr.slackCheckDone 3 true (reading 4)).wellFormed = false ∧
    (Instr.slackCheckDone 3 true (reading 3)).wellFormed = true := by decide
theorem test_wf_log_island : (Instr.logEntryWrite 129).wellFormed = false ∧ (Instr.logEntryWrite 387).wellFormed = true ∧
    (Instr.logIntervalEnd 388 0).wellFormed = false := by decide
theorem test_wf_sensor_island : (Instr.junctionTempChange 129 0).wellFormed = false := by decide
theorem test_wf_idle_island : (Instr.islandIdleGate 100).wellFormed = false := by decide
theorem test_wf_record_read : (Instr.sbReadModuleRecord 0 0).wellFormed = false := by decide
theorem test_wf_sideband_command : (Instr.sbUnusedCommand 7).wellFormed = false ∧ (Instr.sbUnusedCommand 0x10).wellFormed = false ∧
    (Instr.sbUnusedCommand 8).wellFormed = true := by decide
theorem test_wf_carrier_access : (Instr.carrierAccess 0 (.readMem 0 0)).wellFormed = false ∧ (Instr.carrierAccess 0 (.writeMem 0 [])).wellFormed = false := by
  decide

/-! ### The queue of commands and the whole state -/

theorem test_step_front : step { base with pending := [.powerOnHour, .parkDone] } = exec .powerOnHour { base with pending := [.parkDone] } := rfl
theorem test_tick_off : step { base with mode := .off } = .next { base with mode := .off } := rfl
theorem test_tick_on : base.mode ≠ .off ∧ base.courier.slew = 0 ∧ step base = .next { base with devTime := 1000000001 } :=
  ⟨by decide, rfl, rfl⟩
theorem test_stored_step : ∃ t, base.stored = true ∧ step { base with pending := [.sbReadModId] } = .next t ∧ t.stored = true := ⟨_, by decide, rfl, by decide⟩
theorem test_reset_stored : State.reset.stored = true := by decide
theorem test_mode_power_good : (after .powerGood { State.reset with mode := .off }).mode = .rom := by decide
theorem test_mode_supply_off : (after .supplyOff base).mode = .off ∧ (after .supplyOff base).devTime = 0 := by decide +kernel
theorem test_mode_faulted : (after (.postmasterReset none) { base with power := { base.power with regFaults := [1, 2] } }).mode = .faulted := by decide +kernel

/-! ### Tile ops: issue -/

def gridOp : Bits256 := opWord [(2, 65), (5, 1), (6, 1), (8, 1)]
def fanOp : Bits256 := opWord [(0, 0x10), (2, 321), (5, 1), (6, 1), (7, 1), (8, 1)]
def wideOp : Bits256 := opWord [(0, 0x20), (2, 284), (4, 0x99), (5, 1), (8, 1)]
def vecOp : Bits256 := opWord [(0, 1), (2, 1), (5, 1)]
def loadOp : Bits256 := opWord [(0, 2), (2, 8), (8, 0x5000), (0x10, 64), (0x13, 1)]
def unsealOp : Bits256 := opWord [(0, 2), (1, 2), (2, 8), (8, 0x5000), (0x10, 64), (0x13, 1), (0x18, 7)]
def storeOp : Bits256 := opWord [(0, 0x12), (2, 8), (8, 0x5000), (0x10, 64), (0x13, 1)]
def localOp : Bits256 := opWord [(0, 0x22), (2, 8), (8, 0x5000), (0x10, 64), (0x13, 1)]
def fillNearOp : Bits256 := opWord [(0, 0x32), (2, 8), (8, 0xABCD), (0x10, 64), (0x13, 1)]
def fillFarOp : Bits256 := opWord [(0, 0x42), (2, 8), (4, 0xABCD), (8, 0x5000), (0x10, 64), (0x13, 1)]
def grdOp : Bits256 := opWord [(0, 3), (2, 8), (8, 0x5000)]
def waitOp : Bits256 := opWord [(0, 4), (2, 4), (4, 3), (8, 2)]
def postOp (fence : Nat) : Bits256 := opWord [(0, 0x14), (2, 4), (4, 3), (8, 2), (0xA, fence)]
def setOp : Bits256 := opWord [(0, 0x24), (2, 4), (4, 3), (8, 2)]
def endOp : Bits256 := opWord [(0, 5), (2, 4)]
def loopOp : Bits256 := opWord [(0, 0x15), (2, 4), (4, 1), (5, 0x0A), (8, 0xFFFFFFFF), (0x10, 64), (0x18, 128)]
def setXOp : Bits256 := opWord [(0, 0x25), (1, 3), (2, 4), (4, 3), (5, 1), (8, 9), (0x10, 5)]
def ldxOp : Bits256 := opWord [(0, 0x35), (2, 4), (4, 3), (8, 0x100)]
def armOp (len : Nat) : Bits256 := opWord [(0, 0x45), (2, 4), (8, 0x5000), (0x10, len)]
def cheapOp : Bits256 := opWord [(0, 0x55), (1, 1), (2, 4), (4, 1), (8, 0x1000), (12, 64)]
def liveOp : Bits256 := opWord [(0, 0x65), (2, 4), (4, 1), (8, 0x2000), (12, 64)]
def accReadOp : Bits256 := opWord [(0, 0x75), (2, 200), (8, 0x4000)]
def breakOp : Bits256 := opWord [(0, 0x75), (2, 4), (4, 1)]

/-- What follows an op that was issued: PC and the length of the window. -/
def issuedState (c : Instr) (s : State) : Nat × Nat := ((getCore (after c s) 0).pc, (getCore (after c s) 0).window.length)

theorem test_hosts_serve : HostsServe (running loadOp) ∧ HostsServe (running grdOp) :=
  ⟨hostsServe_low _ rfl rfl, hostsServe_low _ rfl rfl⟩
theorem test_ready_grid : ReadyOp (running gridOp) 0 0 gridOp ∧ isMatGrid gridOp = true ∧ issuedState (.matGrid 0) (running gridOp) = (0x1020, 1) := by
  decide +kernel
theorem test_ready_fan : ReadyOp (running fanOp) 0 0 fanOp ∧ isMatFan fanOp = true ∧ issuedState (.matFan 0) (running fanOp) = (0x1020, 1) := by
  decide +kernel
theorem test_ready_wide : ReadyOp (running wideOp) 0 0 wideOp ∧ isMatWide wideOp = true ∧ issuedState (.matWide 0) (running wideOp) = (0x1020, 1) := by
  decide +kernel
theorem test_ready_vec : ReadyOp (running vecOp) 0 0 vecOp ∧ isVec vecOp = true ∧ issuedState (.vec 0) (running vecOp) = (0x1020, 1) := by decide +kernel
theorem test_ready_load : ReadyOp (running loadOp) 0 0 loadOp ∧ isMovLoad loadOp = true ∧ issuedState (.movLoad 0) (running loadOp) = (0x1020, 1) ∧
    (after (.movLoad 0) (running loadOp)).nextXfer = (running loadOp).nextXfer + 1 := by decide +kernel
theorem test_ready_unseal : ReadyOp (running unsealOp) 0 0 unsealOp ∧ isMovLoadUnseal unsealOp = true ∧
    issuedState (.movLoadUnseal 0) (running unsealOp) = (0x1020, 1) := by decide +kernel
theorem test_ready_store : ReadyOp (running storeOp) 0 0 storeOp ∧ isMovStore storeOp = true ∧
    issuedState (.movStore 0) (running storeOp) = (0x1020, 1) := by decide +kernel
theorem test_ready_local : ReadyOp (running localOp) 0 0 localOp ∧ isMovLocal localOp = true ∧
    issuedState (.movLocal 0) (running localOp) = (0x1020, 1) := by decide +kernel
theorem test_ready_fill_near : ReadyOp (running fillNearOp) 0 0 fillNearOp ∧ isMovFillNear fillNearOp = true ∧
    issuedState (.movFillNear 0) (running fillNearOp) = (0x1020, 1) := by decide +kernel
theorem test_ready_fill_far : ReadyOp (running fillFarOp) 0 0 fillFarOp ∧ isMovFillFar fillFarOp = true ∧
    issuedState (.movFillFar 0) (running fillFarOp) = (0x1020, 1) := by decide +kernel
theorem test_ready_grd : ReadyOp (running grdOp) 0 0 grdOp ∧ isGrd grdOp = true ∧
    (getGrinder (after (.grd 0) (running grdOp)) 0).queue.length = 1 := by decide +kernel

/-- The running core with a value of semaphore 3. -/
def withSem (w : Bits256) (v : Nat) (l : List Waiter) : State := setSem (running w) 3 { value := v, waiters := l }

theorem test_wait_taken : ReadyOp (withSem waitOp 2 []) 0 0 waitOp ∧ isSemWait waitOp = true ∧ semCount waitOp = 2 ∧
    getSem (after (.semWait 0) (withSem waitOp 2 [])) 3 = { value := 0, waiters := [] } := by decide +kernel
theorem test_wait_held : ReadyOp (withSem waitOp 1 []) 0 0 waitOp ∧ isSemWait waitOp = true ∧ ¬(semCount waitOp ≤ 1) ∧
    (getSem (after (.semWait 0) (withSem waitOp 1 [])) 3).waiters = [.core 0 2] := by decide +kernel
theorem test_post_now : ReadyOp (withSem (postOp 0) 1 []) 0 0 (postOp 0) ∧ isSemPost (postOp 0) = true ∧ semArg (postOp 0) = 0 ∧
    (getSem (after (.semPost 0) (withSem (postOp 0) 1 [])) 3).value = 3 := by decide +kernel
theorem test_post_fenced : ReadyOp (withSem (postOp 15) 1 []) 0 0 (postOp 15) ∧ isSemPost (postOp 15) = true ∧ semArg (postOp 15) ≠ 0 ∧
    issuedState (.semPost 0) (withSem (postOp 15) 1 []) = (0x1020, 1) := by decide +kernel
theorem test_set_value : ReadyOp (withSem setOp 9 []) 0 0 setOp ∧ isSemSet setOp = true ∧
    (getSem (after (.semSet 0) (withSem setOp 9 [])) 3).value = 2 := by decide +kernel
theorem test_post_overflow : semMax < (getSem (withSem setOp semMax []) 3).value + 1 ∧
    (semPost 3 1 (withSem setOp semMax [])).log ≠ (withSem setOp semMax []).log := by decide +kernel
theorem test_post_grants_oldest : (getSem (semPost 3 2 (withSem setOp 1 [.core 5 2, .core 6 4, .core 7 1])) 3) =
    { value := 1, waiters := [.core 6 4, .core 7 1] } := by decide +kernel

theorem test_ctl_end : ReadyOp (running endOp) 0 0 endOp ∧ isCtlEnd endOp = true ∧ (getCore (after (.ctlEnd 0) (running endOp)) 0).ended = true := by
  decide +kernel
/-- The running core with loop counter 1 at a value. -/
def looping (n : Nat) : State := runningCore loopOp (fun c => { c with lcs := [0, BitVec.ofNat 32 n, 0, 0] })
theorem test_loop_back : ReadyOp (looping 2) 0 0 loopOp ∧ isCtlLoop loopOp = true ∧ (getCore (after (.ctlLoop 0) (looping 2)) 0).pc = 0xFE0 ∧
    (getCore (after (.ctlLoop 0) (looping 2)) 0).xs = [0, 128, 64, 0, 0, 0, 0, 0] := by decide +kernel
theorem test_loop_out : ReadyOp (looping 1) 0 0 loopOp ∧ (getCore (after (.ctlLoop 0) (looping 1)) 0).pc = 0x1020 ∧
    (getCore (after (.ctlLoop 0) (looping 1)) 0).xs = coreReset.xs := by decide +kernel
theorem test_loop_wraps : (getCore (after (.ctlLoop 0) (looping 0)) 0).lcs = [0, 0xFFFFFFFF, 0, 0] := by decide +kernel
theorem test_ctl_set : ReadyOp (running setXOp) 0 0 setXOp ∧ isCtlSet setXOp = true ∧
    (getCore (after (.ctlSet 0) (running setXOp)) 0).xs = [0, 0, 0, 9, 0, 0, 0, 0] ∧
    (getCore (after (.ctlSet 0) (running setXOp)) 0).lcs = [0, 5, 0, 0] := by decide +kernel
theorem test_ctl_ldx : ReadyOp (running ldxOp) 0 0 ldxOp ∧ isCtlLdx ldxOp = true ∧
    (getCore (after (.ctlLdx 0) (scrWrite (running ldxOp) 0 0x100 (clean [1, 2]))) 0).xs = [0, 0, 0, 0x201, 0, 0, 0, 0] := by decide +kernel

/-- The running core with the link. -/
def linked (w : Bits256) : State := { running w with blend := { (running w).blend with cur := { plan0 with links := [(0, link)] } } }
theorem test_arm_idle : ReadyOp (linked (armOp 64)) 0 0 (armOp 64) ∧ isCtlArm (armOp 64) = true ∧ opField (armOp 64) 0x10 8 ≠ 0 ∧
    (getLink (after (.ctlArm 0) (linked (armOp 64))) 0).active.isSome = true := by decide +kernel
theorem test_arm_cancel : ReadyOp (linked (armOp 0)) 0 0 (armOp 0) ∧ isCtlArm (armOp 0) = true ∧ opField (armOp 0) 0x10 8 = 0 := by decide +kernel
theorem test_ctl_cheap : ReadyOp (running cheapOp) 0 0 cheapOp ∧ isCtlCheap cheapOp = true ∧
    (getCore (after (.ctlCheap 0) (running cheapOp)) 0).live = [{ reload := false, start := 0x1000, reg := 0, length := 64 }] := by decide +kernel
def liveNext : State := runningCore liveOp (fun c => { c with liveMore := some 0 })
theorem test_ctl_live : ReadyOp liveNext 0 0 liveOp ∧ isCtlLive liveOp = true ∧ (getCore (after (.ctlLive 0) liveNext) 0).liveMore = none := by decide +kernel
theorem test_ctl_break : ReadyOp (running breakOp) 0 0 breakOp ∧ isCtlDebugBreak breakOp = true ∧
    (getCore (after (.ctlDebugBreak 0) (running breakOp)) 0).halt = true := by decide +kernel
theorem test_ctl_acc_read : ReadyOp (running accReadOp) 0 0 accReadOp ∧ isCtlDebugAccRead accReadOp = true := by decide +kernel

def badOp : Bits256 := opWord [(0, 1), (2, 1), (5, 0x11)]
theorem test_bad_op_faults : physOf (running badOp) 0 = some 0 ∧ canIssue (getCore (running badOp) 0) false = true ∧
    opAt (getCore (running badOp) 0) 0x1000 = some (badOp, false) ∧ opChecks (running badOp) 0 (getCore (running badOp) 0) badOp = some 2 ∧
    (getCore (after (.vec 0) (running badOp)) 0).fault = { code := 2, cls := 1, valid := true, addr := 0x1000 } ∧
    (getInv (after (.vec 0) (running badOp)) 1).map (·.early) = some (some (.aborted, 2)) := by decide +kernel
theorem test_poisoned_op_faults :
    (getCore (after (.vec 0) (runningCore vecOp (fun c => { c with blocks := [{ base := 0x1000, bytes := leBytes 32 vecOp.toNat, poison := [true] }] }))) 0).fault.code =
      0x11 := by decide +kernel
theorem test_row_of_other_op : isVec loadOp = false ∧ exec (.vec 0) (running loadOp) = .next (running loadOp) := ⟨by decide +kernel, rfl⟩

/-! ### The units at work -/

/-- The core with a MAT op that waits for its start, and its tile queue holding n entries. -/
def waiting (w : Bits256) (n : Nat) : State :=
  runningCore w (fun c => { c with window := [issued w 0 false], nextSeq := 1, tiles := if n = 0 then [] else [(0, List.replicate n
    { state := .occupied, addr := 0x2000, stride := 16, rows := 1, fmt := 9, seq := 0 })] })
def postingOp : Bits256 := opWord [(0, 0x10), (1, 5), (2, 321), (5, 1), (6, 1), (7, 1), (8, 1)]

theorem test_mat_start : (getCore (waiting fanOp 0) 0).mat = none ∧ (firstWaiting (getCore (waiting fanOp 0) 0) 0).isSome = true ∧ (matOp fanOp).post = false ∧
    ((getCore (after (.matStart 0) (waiting fanOp 0)) 0).mat.map (·.seq)) = some 0 := by decide +kernel
theorem test_mat_start_post : (matOp postingOp).post = true ∧ (∀ a ∈ maskArrays (matOp postingOp).mask, (tabGet [] (getCore (waiting postingOp 7) 0).tiles a).length < 8) ∧
    (tabGet [] (getCore (after (.matStart 0) (waiting postingOp 7)) 0).tiles 0).length = 8 := by decide +kernel
theorem test_mat_start_full : (∃ a ∈ maskArrays (matOp postingOp).mask, 8 ≤ (tabGet [] (getCore (waiting postingOp 8) 0).tiles a).length) ∧
    exec (.matStart 0) (waiting postingOp 8) = .next (waiting postingOp 8) := by
  refine ⟨by decide +kernel, rfl⟩

/-- A second fan op that joins the chain of one in progress, or waits for it. -/
def chained (joins : Bool) : State :=
  runningCore fanOp (fun c => { c with window := [issued fanOp 0 true, { issued fanOp 1 false with joins := joins }], nextSeq := 2,
                                       mat := some (newRun 0 0) })
theorem test_mat_joins : (nextMat (getCore (chained true) 0)).map (fun o => (o.seq, o.joins)) = some (1, true) ∧
    (getCore (after (.matStart 0) (chained true)) 0).matNext.map (fun r => (r.seq, r.since)) = some (1, 160 * (matOp fanOp).chainCount) := by decide +kernel
theorem test_mat_start_waits : (nextMat (getCore (chained false) 0)).map (·.joins) = some false ∧ exec (.matStart 0) (chained false) = .next (chained false) := by
  refine ⟨by decide +kernel, rfl⟩

/-- The core with a MAT op in progress from a snapshot of array 0. -/
def matching (w : Bits256) (snap : ArrAcc) (draining : Bool) : State :=
  runningCore w (fun c => { c with
    window := [{ issued w 0 true with near := 0x2000, near2 := 0x3000, near3 := 0x4000 }], nextSeq := 1, acc := [(0, snap)],
    mat := some { seq := 0, snap := [(0, snap)], draining := draining, satNoted := false, replays := 0, since := 0, satArrays := [] } })
def fresh (w : Bits256) : ArrAcc := freshAcc (matOp w)
/-- With an op behind it that has joined its chain. -/
def joined (s : State) : State :=
  updCore s 0 (fun c => { c with window := c.window ++ [{ issued fanOp 1 true with joins := true }], matNext := some (newRun 1 800) })
def handoffOp : Bits256 := opWord [(0, 0x10), (1, 1), (2, 321), (5, 1), (6, 1), (7, 1), (8, 1)]
/-- E4M3 pairs in fan mode, and their accumulation at the limit. -/
def floatOp (x : Nat) : Bits256 := opWord [(0, 0x10), (2, 321), (4, 0x44), (5, 1), (6, 1), (7, 1), (8, 1), (0xA, x)]
def full (w : Bits256) (r : Nat) : ArrAcc := { fresh w with r := r, vals := [(0, accMax)] }
/-- With ones for every operand. -/
def ones (s : State) : State := scrWrite (scrWrite s 0 0x2000 (clean (List.replicate 64 0x38))) 0 0x3000 (clean (List.replicate 64 0x38))

theorem test_mat_complete : replayArrays (matIn (matching fanOp (fresh fanOp) false) 0 { issued fanOp 0 true with near := 0x2000, near2 := 0x3000, near3 := 0x4000 })
      { seq := 0, snap := [(0, fresh fanOp)], draining := false, satNoted := false, replays := 0, since := 0, satArrays := [] }
      (matOuts (matching fanOp (fresh fanOp) false) (matIn (matching fanOp (fresh fanOp) false) 0 { issued fanOp 0 true with near := 0x2000, near2 := 0x3000, near3 := 0x4000 })
        { seq := 0, snap := [(0, fresh fanOp)], draining := false, satNoted := false, replays := 0, since := 0, satArrays := [] }) = [] ∧
    (getCore (after (.matComplete 0) (matching fanOp (fresh fanOp) false)) 0).mat = none ∧
    (getCore (after (.matComplete 0) (matching fanOp (fresh fanOp) false)) 0).window = [] := by decide +kernel
theorem test_mat_complete_chain :
    replayArrays (matIn (joined (matching fanOp (fresh fanOp) false)) 0 { issued fanOp 0 true with near := 0x2000, near2 := 0x3000, near3 := 0x4000 })
      { seq := 0, snap := [(0, fresh fanOp)], draining := false, satNoted := false, replays := 0, since := 0, satArrays := [] }
      (matOuts (joined (matching fanOp (fresh fanOp) false)) (matIn (joined (matching fanOp (fresh fanOp) false)) 0
        { issued fanOp 0 true with near := 0x2000, near2 := 0x3000, near3 := 0x4000 })
        { seq := 0, snap := [(0, fresh fanOp)], draining := false, satNoted := false, replays := 0, since := 0, satArrays := [] }) = [] ∧
    (getCore (after (.matComplete 0) (joined (matching fanOp (fresh fanOp) false))) 0).mat.map (fun r => (r.seq, r.since)) = some (1, 800) ∧
    (getCore (after (.matComplete 0) (joined (matching fanOp (fresh fanOp) false))) 0).matNext = none := by decide +kernel
theorem test_mat_handoff : (getCore (after (.matComplete 0) (ones (matching handoffOp (fresh handoffOp) false))) 0).mat = none ∧
    tabGet arrAccReset (getCore (after (.matComplete 0) (matching handoffOp (fresh handoffOp) false)) 0).acc 0 = arrAccReset := by decide +kernel
theorem test_mat_sum : tabGet 0 (tabGet arrAccReset (getCore (after (.matComplete 0) (ones (matching (floatOp 0) (fresh (floatOp 0)) false))) 0).acc 0).vals 0 = 64 := by
  decide +kernel
theorem test_mat_replay : ((getCore (after (.accOverflow 0) (ones (matching (floatOp 0xFFD8) (full (floatOp 0xFFD8) 1) false))) 0).mat.map (fun r => (r.draining, r.replays))) =
    some (true, 1) := by decide +kernel
theorem test_mat_replay_abandons : (getCore (after (.accOverflow 0) (joined (ones (matching (floatOp 0xFFD8) (full (floatOp 0xFFD8) 1) false)))) 0).matNext = none ∧
    (getCore (after (.accOverflow 0) (joined (ones (matching (floatOp 0xFFD8) (full (floatOp 0xFFD8) 1) false)))) 0).window.map (fun o => (o.seq, o.joins, o.abandoned)) =
      [(0, false, false), (1, false, true)] := by decide +kernel
theorem test_mat_replay_waits : (getCore (after (.matComplete 0) (ones (matching (floatOp 0xFFD8) (full (floatOp 0xFFD8) 1) false))) 0).mat.isSome = true := by decide +kernel
theorem test_mat_saturates : ((getCore (after (.accOverflow 0) (ones (matching (floatOp 0xFFD8) (full (floatOp 0xFFD8) 2) false))) 0).mat.map (fun r => (r.satNoted, r.satArrays))) = some (true, [0]) := by
  decide +kernel
theorem test_mat_no_overflow : exec (.accOverflow 0) (matching fanOp (fresh fanOp) false) = .next (matching fanOp (fresh fanOp) false) := rfl
theorem test_mat_restart : ((getCore (after (.accReplayRestart 0) (matching fanOp (fresh fanOp) true)) 0).mat.map (·.draining)) = some false ∧
    exec (.accOverflow 0) (matching fanOp (fresh fanOp) true) = .next (matching fanOp (fresh fanOp) true) := ⟨by decide +kernel, rfl⟩

/-- A stage that copies input 0 to output 0, and a block of one FP32 element. -/
def copyStage : Bits256 := opWord [(2, 0xFF), (3, 0xFF), (4, 1), (5, 1)]
def vecBlock (mode rows : Nat) : List Byte :=
  leBytes 2 rows ++ leBytes 2 1 ++ zeros 12 ++ leBytes 4 0x2000 ++ leBytes 2 1 ++ [9, BitVec.ofNat 8 mode] ++ zeros 16 ++ leBytes 4 0x3000 ++ leBytes 2 1 ++ [9, 1] ++
    zeros 16
def vecRunOp : Bits256 := opWord [(0, 1), (2, 100), (5, 1), (8, 0x1000)]
/-- The core with a VEC op in the window over that block; its input holds 1.0. -/
def vectoring (mode rows tiles : Nat) (run : Bool) : State :=
  let s := waiting vecRunOp tiles
  let s := updCore s 0 (fun c => { c with window := [{ issued vecRunOp 0 run with near := 0x1000 }],
                                          vec := if run then some { seq := 0, popped := [] } else none })
  let s : State := { s with blend := { s.blend with cur := { plan0 with parts := [(0, { part with stages := [copyStage] })] } } }
  scrWrite (scrWrite s 0 0x1000 (clean (vecBlock mode rows))) 0 0x2000 (clean (leBytes 4 0x3F800000))

theorem test_vec_start : vecStartCode (vectoring 1 1 0 false) 0 { issued vecRunOp 0 false with near := 0x1000 } (vBlock (vectoring 1 1 0 false) 0 0x1000) [] = none ∧
    ((getCore (after (.vecStart 0) (vectoring 1 1 0 false)) 0).vec.map (·.seq)) = some 0 := by decide +kernel
theorem test_vec_start_tile : (headTile (getCore (vectoring 5 0 1 false) 0) 0).isSome = true ∧ queueArrays (vBlock (vectoring 5 0 1 false) 0 0x1000) = [0] ∧
    ((tabGet [] (getCore (after (.vecStart 0) (vectoring 5 0 1 false)) 0).tiles 0).map (·.state)) = [.popped] := by decide +kernel
theorem test_vec_start_bad : (getCore (after (.vecStart 0) (vectoring 1 0 0 false)) 0).fault.code = 0x0A ∧
    (getCore (after (.vecStart 0) (vectoring 1 0 0 false)) 0).vec = none := by decide +kernel
theorem test_vec_complete : (getCore (after (.vecComplete 0) (vectoring 1 1 0 true)) 0).vec = none ∧
    scrBytes (after (.vecComplete 0) (vectoring 1 1 0 true)) 0 0x3000 4 = leBytes 4 0x3F800000 := by decide +kernel

/-- The core with a MOV op of word w in the window, and its transfer. -/
def moving (w : Bits256) (x : Option Xfer) : State :=
  let s := runningCore w (fun c => { c with window := [{ issued w 0 true with xfer := x.map (fun _ => 0), near2 := 0x5000 }], nextSeq := 1 })
  match x with | some x => { s with xfers := [(0, x)], nextXfer := 1 } | none => s
def landedXfer (sealed_ : Option (Option Bits256)) (checked : Bool) : Xfer :=
  { engine := 0, context := 3, inv := 1, owner := .mov 0 0, kind := .read, cls := 2, region := none,
    pieces := [{ vaddr := 0x5000, len := 64, near := 0, state := .landed, trans := some (0, 0), daddr := 0x5000 }], lastLand := 0, cancelled := false, failed := false,
    buffered := true, payload := clean (zeros 104), sealed_ := sealed_, checked := checked }
def doneLoadOp : Bits256 := opWord [(0, 2), (2, 8), (8, 0x5000), (0x10, 64), (0x13, 1), (0x1C, 0x800003)]

theorem test_mov_complete : xferDone (landedXfer none false) = true ∧ (movOp doneLoadOp).done = some 3 ∧
    (getCore (after (.movComplete 0 0) (moving doneLoadOp (some (landedXfer none false)))) 0).window = [] ∧
    (getSem (after (.movComplete 0 0) (moving doneLoadOp (some (landedXfer none false)))) 3).value = 1 ∧
    getXfer (after (.movComplete 0 0) (moving doneLoadOp (some (landedXfer none false)))) 0 = none := by decide +kernel
theorem test_mov_fill_near : scrBytes (after (.movComplete 0 0) (moving fillNearOp none)) 0 0 5 = [0xCD, 0xAB, 0, 0, 0xCD] := by decide +kernel
theorem test_mov_local : scrBytes (after (.movComplete 0 0) (scrWrite (moving localOp none) 0 0x5000 (clean [7, 8, 9]))) 0 0 3 = [7, 8, 9] := by decide +kernel
theorem test_unseal_denied : (∀ e ∈ (moving unsealOp (some (landedXfer (some none) false))).blend.cur.links, e.2.producer.port ≠ 0) ∧
    (getCore (after (.unsealCheckDone 0 0) (moving unsealOp (some (landedXfer (some none) false)))) 0).sealFails = 1 ∧
    memPoison (after (.unsealCheckDone 0 0) (moving unsealOp (some (landedXfer (some none) false)))) (scratchKey 0 63) = true := by decide +kernel

/-- A sealed unit of 16 bytes 0x10 to 0x1F under the key of bytes 0 to 31, with the IV of bytes 1 to 12 (R281, R282): ciphertext and check code are
those of AES-256-GCM as FIPS 197 and NIST SP 800-38D define it, computed apart from the model. -/
def sealedUnit : List Byte :=
  leBytes 56 0x2a968f377bf74d2637f40e0c5c79bb5491e681f8c648fb150000000000000000000000000c0b0a090807060504030201000000104c414553
def unitKey : Bits256 := 0x1f1e1d1c1b1a191817161514131211100f0e0d0c0b0a09080706050403020100
def unitXfer : Xfer := { landedXfer (some (some unitKey)) false with payload := clean sealedUnit }
theorem test_unseal_plain : unsealed unitXfer unitKey 16 = some (leBytes 16 0x1f1e1d1c1b1a19181716151413121110) := by decide +kernel
theorem test_unseal_unit : xferDone unitXfer = true ∧ unitXfer.checked = false ∧ unitXfer.sealed_ = some (some unitKey) ∧
    (movOp (opWord [(0, 2), (1, 2), (2, 8), (8, 0x5000), (0x10, 16), (0x13, 1), (0x18, 7)])).rowBytes = 16 := by decide +kernel
/-- The S-box of FIPS 197: 0x53 gives 0xED. -/
theorem test_aes_sbox : subByte 0x53 = 0xED := by decide +kernel

/-- A fenced POST in the window behind the ops of a list. -/
def fenced (l : List IssuedOp) : State := runningCore (postOp 15) (fun c => { c with window := l ++ [{ issued (postOp 15) 5 true with fence := [0] }], nextSeq := 6 })
theorem test_post_fires : (getSem (after (.semPostFire 0) (fenced [])) 3).value = 2 ∧ (getCore (after (.semPostFire 0) (fenced [])) 0).window = [] := by decide +kernel
theorem test_post_waits : exec (.semPostFire 0) (fenced [issued loadOp 0 true]) = .next (fenced [issued loadOp 0 true]) := rfl

/-- Cores 1 s of device time into their ops. -/
theorem test_overrun_window : opBound fanOp + (issued fanOp 0 true).extra ≤ cyclesOf (islTicks (matching fanOp (fresh fanOp) false) (islOfCore 0) - 0) ∧
    (getInv (after (.overrun 0 (some 0)) (matching fanOp (fresh fanOp) false)) 1).map (·.early) = some (some (.late, 0x20)) := by decide +kernel
/-- The same op started in this tick stays. -/
def justStarted : State :=
  updCore (matching fanOp (fresh fanOp) false) 0 (fun c => { c with window := [{ issued fanOp 0 true with startedAt := islTicks base (islOfCore 0) }] })
theorem test_overrun_not_yet : cyclesOf (islTicks justStarted (islOfCore 0) - islTicks base (islOfCore 0)) < opBound fanOp ∧
    exec (.overrun 0 (some 0)) justStarted = .next justStarted := by
  refine ⟨by decide +kernel, rfl⟩
def batch : Batch :=
  { id := 0, inv := 1, context := 3, cls := 2, region := none, core := 0, opSeq := 0, done := none, phase := .queued, desc := none, binding := none, xfers := [],
    ring := [], lens := [], idx := [], wgt := [], next := 0, outstanding := [], resident := [], data := [], reads := 0, lookups := 0, forced := none, rows := [],
    rowsOut := 0, unposted := 0, recorded := false, applied := 0 }
def stuckGrd (since : Nat) : State :=
  { running grdOp with grinders := [(0, { grinderReset with queue := List.replicate 16 batch })], cores := [(0, { coreWith grdOp with stall := some (0x1000, since) })] }
theorem test_overrun_at_pc : unitTakes (stuckGrd 0) 0 (getCore (stuckGrd 0) 0) grdOp = false ∧ opChecks (stuckGrd 0) 0 (getCore (stuckGrd 0) 0) grdOp = none ∧
    opBound grdOp ≤ cyclesOf (islTicks (stuckGrd 0) (islOfCore 0) - 0) ∧
    (getInv (after (.overrun 0 none) (stuckGrd 0)) 1).map (·.early) = some (some (.late, 0x20)) := by decide +kernel
theorem test_overrun_at_pc_not_yet : exec (.overrun 0 none) (stuckGrd (islTicks base (islOfCore 0))) = .next (stuckGrd (islTicks base (islOfCore 0))) := rfl
def held (limit : Nat) : State :=
  runningCore waitOp (fun c => { c with wait := some { sem := 3, count := 2, timeoutUs := limit, since := 0, addr := 0x1000, granted := false } })
theorem test_wait_timeout : (getInv (after (.waitTimeout 0) (held 60000)) 1).map (·.early) = some (some (.late, 0x21)) := by decide +kernel
theorem test_wait_no_limit : exec (.waitTimeout 0) (held 0) = .next (held 0) := rfl

/-! ### The sequencer around its ops -/

/-- A local segment of context 3 over the first MiB. -/
def seg0 : SegEntry :=
  { segEntryReset with vstart := 0, length := 0x100000, dbase := 0x2000000, read := true, write := true, atomic := true, home := .local }
def withSeg (s : State) (e : SegEntry) : State := { s with seg := { s.seg with entries := [(192, e)] } }
/-- The core without its block. -/
def blockless : State := runningCore endOp (fun c => { c with blocks := [] })

/-- A pause of a channel of stack 0. -/
def paused (s : State) (ch : Nat) : State := { s with mc := tabSet mcReset s.mc 0 { getMc s 0 with pause := some (ch, 0) } }
/-- An error in a flit at a stop of die 0. -/
def spoilt (flit : Fin 256) (x : Fin 13) (y : Fin 9) : Option FlitError := some { flit := flit, die := 0, x := x, y := y, link := 1 }

/-- The address of the block that PC stands in, and the state in which it is fetched. -/
def blockFrom (s : State) : Option Nat := (translate (engineOfPhys s 0) 3 0x1000 s).1.bind (fun e => blockAddr (translate (engineOfPhys s 0) 3 0x1000 s).2 e 0x1000)
def fetching : State := withSeg blockless seg0
theorem test_block_arrives : blockFrom fetching = some 0x2001000 ∧ hbmReady (translate (engineOfPhys fetching 0) 3 0x1000 fetching).2 2 0x2001000 2048 = true ∧
    ((getCore (after (.blockFetchDone 0 0 ⟨[], none⟩) fetching) 0).blocks.map (·.base)) = [0x1000] := by decide +kernel
theorem test_block_flit : errorOnWay (spoilt 2 1 1) (.stack 0) (.core 0) (clean (zeros 2048)) = true ∧
    ((getCore (after (.blockFetchDone 0 0 ⟨[], spoilt 2 1 1⟩) fetching) 0).blocks.map (fun b => b.poison.findIdx (· == true))) = [8] := by decide +kernel
theorem test_block_paused : hbmReady (translate (engineOfPhys fetching 0) 3 0x1000 fetching).2 2 0x2001000 2048 = true ∧
    (List.range 16).any (fun ch => hbmReady (paused fetching ch) 2 0x2001000 2048 == false &&
      (getCore (after (.blockFetchDone 0 0 ⟨[], none⟩) (paused fetching ch)) 0).blocks == []) = true := by decide +kernel
theorem test_block_denied : blockFrom blockless = none ∧
    (getInv (after (.blockFetchDone 0 0 ⟨[], none⟩) blockless) 1).map (·.early) = some (some (.segmentFault, 0)) := by decide +kernel
theorem test_block_ahead_denied : (translate (engineOfPhys blockless 0) 3 0x1800 blockless).1 = none ∧
    exec (.blockFetchDone 0 1 ⟨[], none⟩) blockless = .next (translate (engineOfPhys blockless 0) 3 0x1800 blockless).2 :=
  ⟨by decide +kernel, rfl⟩

/-- The invocation with its program ended, and with an early end. -/
def ended : State := runningCore endOp (fun c => { c with ended := true })
def endedEarly : State := setInv (runningCore endOp (fun c => { c with phase := .faulted })) 1 { inv1 with early := some (.late, 0x21), poisoned := 2 }
theorem test_invocation_ends : getInv ended 1 = some inv1 ∧ invSettled ended 1 inv1 = true ∧ queueHost ended 0 = some 0 ∧ (getHost ended 0).cond ≠ .lost ∧
    getInv (after (.invocationEnd 1) ended) 1 = none ∧ ((getQ (after (.invocationEnd 1) ended) 0).due.map (fun r => (r.status, r.invocation))) = [(.ok, 1)] := by
  decide +kernel
theorem test_invocation_ends_early : (∀ e ∈ linksOn endedEarly inv1.cores, (getLink endedEarly e.1).chunks = []) ∧
    ((getQ (after (.invocationEnd 1) endedEarly) 0).due.map (fun r => (r.status, r.fault, r.poisoned))) = [(.late, 0x21, 2)] := by decide +kernel
theorem test_status_order : (invStatus { inv1 with refused := true, sizeFault := true }).1 = .segmentFault ∧
    (invStatus { inv1 with sizeFault := true, versionRetired := true }).1 = .sizeFault ∧ (invStatus { inv1 with versionRetired := true, poisoned := 1 }).1 = .versionRetired ∧
    (invStatus { inv1 with poisoned := 1, replays := 1 }).1 = .okPoisoned ∧ (invStatus { inv1 with replays := 1, switches := 1 }).1 = .okReplayed ∧
    (invStatus { inv1 with satPoison := true, replays := 1 }).1 = .okPoisoned ∧ (invStatus { inv1 with switches := 1 }).1 = .preemptResumed ∧ (invStatus inv1).1 = .ok := by decide

theorem test_step_disabled : singleStep (running vecOp) 1 = false ∧ exec (.seqStepStep (.host 0) 1 true) (running vecOp) = .next (running vecOp) := ⟨by decide, rfl⟩
theorem test_step_one_op : singleStep (running vecOp) 0 = true ∧ opClass vecOp < 2 ∧
    canIssue (getCore (runningCore vecOp (fun c => { c with halt := true })) 0) true = true ∧
    (getCore (after (.seqStepStep (.host 0) 0 true) (running vecOp)) 0).window.length = 1 ∧ (getCore (after (.seqStepStep (.host 0) 0 true) (running vecOp)) 0).halt = true := by
  decide +kernel
theorem test_step_halt : (getCore (after (.seqStepHalt (.host 0) 0 true) (running vecOp)) 0).halt = true := by decide +kernel
theorem test_debug_port : mayPeek (running vecOp) (.host 0) 0 = true ∧
    (after (.dbgScrDataRead (.host 0) ⟨0, none⟩) (scrWrite (runningCore vecOp (fun c => { c with dbgWord := 524287 })) 0 0x3FFFF8 (clean [1, 2]))).answers = [[1, 2, 0, 0, 0, 0, 0, 0]] ∧
    (getCore (after (.dbgScrDataRead (.host 0) ⟨0, none⟩) (runningCore vecOp (fun c => { c with dbgWord := 524287 }))) 0).dbgWord = 0 := by decide +kernel
theorem test_debug_port_half : (after (.dbgScrDataRead (.host 0) ⟨0, some 1⟩) (scrWrite (running vecOp) 0 0 (clean [1, 2, 3, 4, 5]))).answers = [[5, 0, 0, 0]] ∧
    (getCore (after (.dbgScrDataRead (.host 0) ⟨0, some 1⟩) (running vecOp)) 0).dbgWord = 1 := by decide +kernel
theorem test_debug_port_unreached : reaches (running vecOp) (.host 1) = false ∧ exec (.dbgScrDataRead (.host 1) ⟨0, none⟩) (running vecOp) = .next (running vecOp) := ⟨by decide, rfl⟩
theorem test_debug_port_denied : mayPeek (running vecOp) (.host 0) 1 = false ∧ (after (.dbgScrDataRead (.host 0) ⟨1, none⟩) (running vecOp)).answers = [zeros 8] := by decide +kernel

/-- The invocation in a partition with a pool of n save slots. -/
def pooled (s : State) (n : Nat) (used : List Nat) : State := { s with qs := { s.qs with pools := [(0, { base := 0x100000, slots := n, used := used })] } }
/-- A resident invocation blocked on a WAIT, while one of a higher class waits at the front end. -/
def env0 : Envelope :=
  { fence := false, notify := false, cores := 1, linkSet := 0, rankStride := 0, program := 0x1000, seed := 0, pin := none, mailbox := false, sqIndex := 0, enclosure := [],
    bad := 0, start := 0 }
def contested : State :=
  let s := setInv (runningCore vecOp (fun c => { c with window := [issued vecOp 0 false] })) 1 { inv1 with cls := 3 }
  let s := { s with blend := { s.blend with cur := { plan0 with queues := [(0, { partition := 0, cls := 3, depthLog2 := 4 }), (1, { partition := 0, cls := 1, depthLog2 := 4 })] } } }
  setQ s 1 { queueReset with enable := true, bound := true, context := 3, staged := [env0] }
theorem test_switch_requested : (switchWanted (pooled contested 1 []) 1).isSome = true ∧ freeSaveSlot (pooled contested 1 []) 0 = some 0 ∧
    (getInv (after (.switchRequest 1) (pooled contested 1 [])) 1).map (fun x => (x.state, x.slot)) = some (.switching, some 0) ∧
    (getCore (after (.switchRequest 1) (pooled contested 1 [])) 0).phase = .boundary ∧ (getCore (after (.switchRequest 1) (pooled contested 1 [])) 0).withdrawn.length = 1 := by
  decide +kernel
theorem test_switch_no_slot : (switchWanted (pooled contested 1 [0]) 1).isSome = true ∧ freeSaveSlot (pooled contested 1 [0]) 0 = none ∧
    (after (.switchRequest 1) (pooled contested 1 [0])).log ≠ contested.log := by decide +kernel

def range0 : LiveRange := { reload := false, start := 0x100, reg := 0, length := 2 }
def atBoundary : State := scrWrite (runningCore vecOp (fun c => { c with phase := .boundary, live := [range0] })) 0 0x100 (clean [5, 6])
theorem test_boundary_save : (getCore (after (.tileBoundarySave 0) atBoundary) 0).phase = .saving ∧
    ((getCore (after (.tileBoundarySave 0) atBoundary) 0).spill.map (·.ranges)) = some [(0x100, clean [5, 6])] := by decide +kernel
def saved0 : SavedCore :=
  { pc := 0x1020, xs := coreReset.xs, lcs := coreReset.lcs, withdrawn := [], wait := none, live := [], liveMore := none, ended := false, gens := [], acc := [], tiles := [],
    ranges := [(0x100, clean [5, 6])], image := clean [9, 5, 6], slotOff := 0 }
def saving : State := setInv (runningCore vecOp (fun c => { c with phase := .saving, spill := some saved0 })) 1 { inv1 with state := .switching, slot := some 0 }
theorem test_save_done : logicalOf saving 0 = some 0 ∧ (getCore (after (.spillSaveDone 0) saving) 0).inv = none ∧
    (getInv (after (.spillSaveDone 0) saving) 1).map (fun x => (x.state, x.switches)) = some (.switchedOut, 1) := by decide +kernel
theorem test_save_done_writes : slotBase (pooled saving 1 [0]) { inv1 with state := .switching, slot := some 0 } = some 0x100000 ∧
    hbmReady (pooled saving 1 [0]) 2 0x100000 3 = true ∧
    (hbmRead (after (.spillSaveDone 0) (pooled saving 1 [0])) none 0x100000 3 []).1.map (·.1) = [9, 5, 6] := by decide +kernel
/-- The invocation switched out in slot 0. -/
def switchedOut : State :=
  let s := pooled { running vecOp with cores := [] } 1 [0]
  setInv { s with qs := { s.qs with savedCores := [(1, [(0, saved0)])] } } 1 { inv1 with state := .switchedOut, slot := some 0, preempted := true }
theorem test_resume : runnable switchedOut 1 { inv1 with state := .switchedOut, slot := some 0, preempted := true } = true ∧ coresFree switchedOut inv1 = true ∧
    stackOffline switchedOut (stackOf 0x100000) = false ∧ (getCore (after (.contextResume 1 false) switchedOut) 0).phase = .restoring ∧
    (getCore (after (.contextResume 1 false) switchedOut) 0).pc = 0x1020 ∧ scrBytes (after (.contextResume 1 false) switchedOut) 0 0x100 2 = [5, 6] := by decide +kernel
theorem test_resume_lost : (getInv (after (.contextResume 1 true) switchedOut) 1).map (·.early) = some (some (.aborted, 0x33)) := by decide +kernel
def restoring : State :=
  setInv (runningCore vecOp (fun c => { c with phase := .restoring, withdrawn := [issued vecOp 0 false] })) 1 { inv1 with state := .resuming }
theorem test_restore_serves : HostsServe restoring := hostsServe_low _ rfl rfl
theorem test_restore_done : (getCore (after (.resumeRestoreDone 0) restoring) 0).phase = .running ∧ (getCore (after (.resumeRestoreDone 0) restoring) 0).window.length = 1 ∧
    (getInv (after (.resumeRestoreDone 0) restoring) 1).map (·.state) = some .resident := by decide +kernel

/-! ### Streams -/

/-- The link with a read stream of n bytes of which `done` are issued, and empty granules. -/
def streaming (n done empty : Nat) : State :=
  let s := linked vecOp
  let s := setSem s 17 { value := empty, waiters := [] }
  setLink s 0 { linkRunReset with active := some { base := 0x5000, length := n, issued := done, context := 3, inv := 1, cls := 2 } }
theorem test_chunk_issues : streamEnd (streaming 4096 0 64) 0 link = some (0, true) ∧ (getSem (streaming 4096 0 64) 17).value = 64 ∧
    (getLink (after (.streamChunkIssue 0) (streaming 4096 0 64)) 0).position = 4096 ∧ (getLink (after (.streamChunkIssue 0) (streaming 4096 0 64)) 0).active = none ∧
    ((getLink (after (.streamChunkIssue 0) (streaming 4096 0 64)) 0).chunks.map (·.granules)) = [64] := by decide +kernel
theorem test_chunk_more : ((getLink (after (.streamChunkIssue 0) (streaming 8192 0 64)) 0).active.map (·.issued)) = some 4096 := by decide +kernel
theorem test_chunk_waits : ¬((getSem (streaming 4096 0 63) 17).waiters = [] ∧ 4096 / 64 ≤ (getSem (streaming 4096 0 63) 17).value) ∧
    (getLink (after (.streamChunkIssue 0) (streaming 4096 0 63)) 0).waiting = true ∧
    (getSem (after (.streamChunkIssue 0) (streaming 4096 0 63)) 17).waiters = [.stream 0 0 64] := by decide +kernel

/-- Two chunks in flight whose transfers 0 and 1 have landed. -/
def inFlight : State :=
  let x := { landedXfer none false with owner := .stream 0 0 0, buffered := false, payload := [] }
  let s := { streaming 8192 8192 0 with xfers := [(0, x), (1, x)], nextXfer := 2 }
  setLink s 0 { linkRunReset with chunks := [{ no := 0, granules := 64, xfer := 0, landed := false }, { no := 1, granules := 64, xfer := 1, landed := false }], nextChunk := 2 }
theorem test_chunk_lands_first : (getSem (after (.streamChunkLanded 0 0) inFlight) 16).value = 64 ∧ ((getLink (after (.streamChunkLanded 0 0) inFlight) 0).chunks.map (·.no)) = [1] := by
  decide +kernel
theorem test_chunk_lands_second : (getSem (after (.streamChunkLanded 0 1) inFlight) 16).value = 0 ∧
    ((getLink (after (.streamChunkLanded 0 1) inFlight) 0).chunks.map (fun c => (c.no, c.landed))) = [(0, false), (1, true)] := by decide +kernel

/-- A read of host memory under way since reset. -/
def abroad : State :=
  { running loadOp with nextXfer := 1, xfers := [(0, { landedXfer none false with
      pieces := [{ vaddr := 0x5000, len := 64, near := 0, state := .sent, trans := some (0, 0), daddr := hostBase }], buffered := false, payload := [] })] }
theorem test_stall : stallLimit abroad 0 = 1000 ∧ (getXfer abroad 0).all (xferAbroad abroad) = true ∧ (after (.streamStall 0) abroad).log ≠ abroad.log ∧
    ((getXfer (after (.streamStall 0) abroad) 0).map (fun x => (x.cancelled, xferDone x))) = some (true, true) := by decide +kernel
theorem test_stall_no_limit : stallLimit (updCore abroad 0 (fun c => { c with stallUs := 0 })) 0 = 0 ∧
    exec (.streamStall 0) (updCore abroad 0 (fun c => { c with stallUs := 0 })) = .next (updCore abroad 0 (fun c => { c with stallUs := 0 })) := ⟨by decide, rfl⟩

/-! ### Grinders and table stores -/

/-- A table of FP32 rows of 4 bytes with a current version of 8 rows, owned by context 3. -/
def slotAt (state epoch : Nat) : TableSlot := { state := state, base := 0x2000000, rows := 8, epoch := epoch }
def table0 : TableEntry :=
  { rowFmt := 9, sliceBytes := 4, rowStride := 1, owner := 3, slot0 := slotAt 2 1, slot1 := slotEmpty, retiring := none, undefining := none, forced := none, seq := 0 }
def withTable (s : State) (e : TableEntry) : State := { s with stores := [(0, { tableStoreReset with tables := [(5, e)] })] }
/-- A descriptor of one bag of table 5. -/
def descBytes (epoch : Nat) : List Byte :=
  leBytes 2 5 ++ [0, 9] ++ leBytes 2 1 ++ zeros 2 ++ leBytes 4 epoch ++ zeros 4 ++ leBytes 8 0x1000 ++ leBytes 8 0x1100 ++ zeros 8 ++ leBytes 8 0x1200 ++ leBytes 4 64 ++
    zeros 4 ++ leBytes 8 0x1400
/-- Grinder 0 with a queued batch whose descriptor has arrived. -/
def queued (d : List Byte) (failed : Bool) : State :=
  let x := { landedXfer none false with owner := .batch 0 0, payload := clean d, failed := failed }
  withTable { running grdOp with xfers := [(0, x)], nextXfer := 1, grinders := [(0, { grinderReset with queue := [{ batch with xfers := [0] }], nextId := 1 })] } table0
def forcedOf (s : State) : Option (Option Nat × BatchPhase) := (getGrinder (after (.grdBatchBegin 0) s) 0).active.head?.map (fun b => (b.forced, b.phase))

theorem test_batch_begins : descOk (queued (descBytes 0) false) 0 (batchDesc (descBytes 0)) = true ∧ strideOk (queued (descBytes 0) false) 0 (batchDesc (descBytes 0)) = true ∧
    (bindBatch (queued (descBytes 0) false) 0 batch (batchDesc (descBytes 0))).2 = none ∧ forcedOf (queued (descBytes 0) false) = some (none, .lengths) := by decide +kernel
theorem test_batch_version_gone : forcedOf (queued (descBytes 9) false) = some (some 2, .pooling) := by decide +kernel
theorem test_batch_bad : forcedOf (queued (zeros 64) false) = some (some 3, .pooling) ∧
    (getInv (after (.grdBatchBegin 0) (queued (zeros 64) false)) 1).map (·.early) = some (some (.aborted, 0)) := by decide +kernel
theorem test_batch_failed : forcedOf (queued (descBytes 0) true) = some (some 5, .pooling) := by decide +kernel

/-- A queued batch that an abort has stopped, and one with an output stride below its row's bytes. -/
def queuedAborted : State :=
  { queued (descBytes 0) false with grinders := [(0, { grinderReset with queue := [{ batch with xfers := [0], forced := some 5 }], nextId := 1 })] }
theorem test_batch_aborted : forcedOf queuedAborted = some (some 5, .pooling) := by decide +kernel
theorem test_batch_bad_stride : strideOk (queued (descBytes 0) false) 0 { batchDesc (descBytes 0) with outStride := 0 } = false := by decide +kernel

/-- Grinder 0 with a begun batch. -/
def bound0 : Binding := { slot := 0, epoch := 1, q := 0, base := 0x2000000, rows := 8 }
def begun : Batch := { batch with desc := some (batchDesc (descBytes 0)), binding := some bound0, phase := .pooling, done := some 3 }
def grinding (b : Batch) (xs : Tab Xfer) : State :=
  withTable { running grdOp with xfers := xs, nextXfer := 4, grinders := [(0, { grinderReset with active := [b], nextId := 1 })] } table0
def rowXfer : Xfer := { landedXfer none false with owner := .batch 0 0, payload := clean (leBytes 4 0x3F800000) }
def reading0 : Batch := { begun with lens := [(1, false)], idx := [(2, false)], next := 1, outstanding := [(2, 0)], resident := [2] }
theorem test_row_returns : (getGrinder (after (.grdRowReadReturn 0 0 0) (grinding reading0 [(0, rowXfer)])) 0).active.head?.map (fun b => (b.outstanding, tabFind b.data 2)) =
    some ([], some (clean (leBytes 4 0x3F800000))) := by decide +kernel
def pooled0 : Batch := { reading0 with outstanding := [], data := [(2, clean (leBytes 4 0x3F800000))] }
theorem test_batch_pools : (getGrinder (after (.grdBatchComplete 0 0) (grinding pooled0 [])) 0).active.head?.map (fun b => (b.phase, b.rows)) =
    some (.writing, [clean (leBytes 4 0x3F800000 ++ zeros 60)]) := by decide +kernel
theorem test_batch_forced_row : (getGrinder (after (.grdBatchComplete 0 0) (grinding { begun with forced := some 2, lens := [(1, false)], idx := [(2, false)] } [])) 0).active.head?.map
    (fun b => (b.rows.map (fun r => r.all (·.2)))) = some [true] := by decide +kernel
theorem test_batch_records : (getGrinder (after (.grdBatchComplete 0 0) (grinding { pooled0 with phase := .writing } [])) 0).active.head?.map (·.recorded) = some true := by
  decide +kernel
theorem test_batch_ends : (getGrinder (after (.grdBatchComplete 0 0) (grinding { pooled0 with phase := .writing, recorded := true } [])) 0).active = [] ∧
    (getSem (after (.grdBatchComplete 0 0) (grinding { pooled0 with phase := .writing, recorded := true } [])) 3).value = 1 := by decide +kernel

/-- Port 0 of die 0's store with arguments. -/
def ported (s : State) (args : List Dword) : State :=
  updStore s 0 (fun st => { st with port0 := { tablePortReset with args := args } })
def cmd (op : Nat) : Dword := BitVec.ofNat 64 (op + 5 * 256)
def codeOf (c : Instr) (s : State) : Nat := (getStore (after c s) 0).port0.code
def entryOf (c : Instr) (s : State) : Option TableEntry := tabFind (getStore (after c s) 0).tables 5
def defineArgs : List Dword := [0x2000000, BitVec.ofNat 64 (8 + 9 * 2 ^ 37 + 4 * 2 ^ 41), BitVec.ofNat 64 (1 + 3 * 2 ^ 16), 1]
theorem test_table_define : codeOf (.tableDefine (.host 0) 0 0 (cmd 1)) (ported base defineArgs) = 0 ∧
    entryOf (.tableDefine (.host 0) 0 0 (cmd 1)) (ported base defineArgs) = some table0 := by decide +kernel
theorem test_table_define_twice : codeOf (.tableDefine (.host 0) 0 0 (cmd 1)) (ported (withTable base table0) defineArgs) = 3 := by decide +kernel
theorem test_table_stage : codeOf (.tableStage (.host 0) 0 0 (cmd 2)) (ported (withTable base table0) [0x2000000, 8, 0, 2]) = 0 ∧
    entryOf (.tableStage (.host 0) 0 0 (cmd 2)) (ported (withTable base table0) [0x2000000, 8, 0, 2]) = some { table0 with slot1 := slotAt 1 2 } := by decide +kernel
def staged1 : TableEntry := { table0 with slot1 := slotAt 1 2 }
theorem test_table_switch : codeOf (.tableSwitch (.host 0) 0 0 (cmd 3)) (withTable base staged1) = 0 ∧
    entryOf (.tableSwitch (.host 0) 0 0 (cmd 3)) (withTable base staged1) = some { table0 with slot0 := slotAt 3 1, slot1 := slotAt 2 2 } := by decide +kernel
def switched : TableEntry := { table0 with slot0 := slotAt 3 1, slot1 := slotAt 2 2 }
theorem test_table_retire : codeOf (.tableRetire (.host 0) 0 0 (cmd 4)) (withTable base switched) = 0 ∧
    entryOf (.tableRetire (.host 0) 0 0 (cmd 4)) (withTable base switched) = some { switched with slot0 := slotEmpty } := by decide +kernel
def boundTo0 : State := { grinding reading0 [(0, rowXfer)] with stores := [(0, { tableStoreReset with tables := [(5, switched)] })] }
theorem test_table_retire_bound : (boundBatches boundTo0 0 5 0).length = 1 ∧
    (entryOf (.tableRetire (.host 0) 0 0 (cmd 4)) boundTo0).map (fun e => (e.slot0, e.retiring)) = some (slotAt 3 1, some none) := by decide +kernel
def boundOnly : State := { boundTo0 with stores := [(0, { tableStoreReset with tables := [(5, table0), (6, table0)] })] }
theorem test_table_undefine_bound : (boundBatches boundOnly 0 5 0).length = 1 ∧
    (entryOf (.tableUndefine (.host 0) 0 0 (cmd 6)) boundOnly).map (·.undefining) = some (some none) := by decide +kernel
def forceCmd : Dword := BitVec.ofNat 64 (4 + 16 + 5 * 256)
theorem test_table_retire_force : bit63 forceCmd 4 4 = 1 ∧
    (getGrinder (after (.tableRetireForce (.host 0) 0 0 forceCmd) boundTo0) 0).active.map (·.forced) = [some 2] := by decide +kernel
theorem test_table_update : codeOf (.tableUpdate (.host 0) 0 0 (cmd 5)) (ported (withTable base table0) [0x3000000, 7, 0, 0]) = 0 ∧
    ((getStore (after (.tableUpdate (.host 0) 0 0 (cmd 5)) (ported (withTable base table0) [0x3000000, 7, 0, 0])) 0).updates.map (fun u => (u.row, u.u))) = [(7, 1)] := by
  decide +kernel
theorem test_table_update_row : codeOf (.tableUpdate (.host 0) 0 0 (cmd 5)) (ported (withTable base table0) [0x3000000, 8, 0, 0]) = 2 := by decide +kernel
def twoTables : State := { base with stores := [(0, { tableStoreReset with tables := [(5, table0), (6, table0)] })] }
theorem test_table_undefine : codeOf (.tableUndefine (.host 0) 0 0 (cmd 6)) twoTables = 0 ∧ entryOf (.tableUndefine (.host 0) 0 0 (cmd 6)) twoTables = none := by
  decide +kernel
theorem test_table_busy : (after (.tableSwitch (.host 0) 0 0 (cmd 3))
    (updStore (withTable base staged1) 0 (fun st => { st with port0 := { tablePortReset with busyUntil := 1000000001 } }))).log ≠ base.log := by decide +kernel
theorem test_table_unreached : reaches (withTable base staged1) (.host 1) = false ∧
    exec (.tableSwitch (.host 1) 0 0 (cmd 3)) (withTable base staged1) = .next (withTable base staged1) := ⟨by decide, rfl⟩
/-- A SWITCH that names the Carrier's semaphore owes its post. -/
theorem test_table_due : carrierSem (withTable base staged1) 65535 = true ∧
    (getStore (after (.tableSwitch (.host 0) 0 0 (cmd 3 + BitVec.ofNat 64 (2 ^ 41 + 65535 * 2 ^ 24))) (withTable base staged1)) 0).port0.due = some 65535 := by
  decide +kernel
theorem test_table_reserved : codeOf (.tableSwitch (.host 0) 0 0 (cmd 3 + 32)) (withTable base staged1) = 1 := by decide +kernel
theorem test_table_semaphore : carrierSem base 3 = false ∧ carrierSem base 65535 = true ∧
    codeOf (.tableSwitch (.host 0) 0 0 (cmd 3 + BitVec.ofNat 64 (2 ^ 41 + 3 * 2 ^ 24))) (withTable base staged1) = 2 := by decide +kernel
theorem test_table_unknown_op : codeOf (.tableDefine (.host 0) 0 0 (cmd 7)) (withTable base staged1) = 1 := by decide +kernel

/-- A pending update of row 2, its source in the same segment. -/
def folding : State :=
  let u : RowUpdate := { table := 5, slot := 0, row := 2, source := 0x8000, u := 1, done := some 3 }
  let s := withSeg (updStore (withTable base { table0 with slot0 := { slotAt 2 1 with base := 0x4000 } }) 0 (fun st => { st with updates := [u] })) seg0
  memWrite s 0x2008000 (clean [1, 2, 3, 4])
theorem test_update_folds : mayFold folding 0 { table := 5, slot := 0, row := 2, source := 0x8000, u := 1, done := some 3 } = true ∧
    inlineAddr folding 3 0x4080 4 .write = some 0x2004080 ∧ memBytes (after (.updateFold 0 0 []) folding) 0x2004080 4 = [1, 2, 3, 4] ∧
    (getStore (after (.updateFold 0 0 []) folding) 0).updates = [] ∧ (getSem (after (.updateFold 0 0 []) folding) 3).value = 1 := by decide +kernel
/-- Where the segment may not be written, the update stays pending. -/
def foldingDenied : State := withSeg folding { seg0 with write := false }
theorem test_update_waits : foldPlaces foldingDenied 3 0x4080 4 .write = none ∧ exec (.updateFold 0 0 []) foldingDenied = .next foldingDenied := by
  refine ⟨by decide +kernel, rfl⟩
theorem test_update_places : (foldPlaces folding 3 0x4080 4 .write).isSome = true ∧ (foldPlaces folding 3 0x8000 4 .read).isSome = true ∧
    mayFold folding 0 { table := 5, slot := 0, row := 2, source := 0x8000, u := 1, done := some 3 } = true := by decide +kernel

/-! ### Packets and HBM -/

/-- A transfer of 4 bytes between core 0 and an address, its one piece on the way. -/
def sending (kind : AccessKind) (daddr : Nat) : Xfer :=
  { landedXfer none false with kind := kind, payload := clean (zeros 4),
                               pieces := [{ vaddr := 0x5000, len := 4, near := 0, state := .sent, trans := some (0, 0), daddr := daddr }] }
def packet (src dst : NetDest) (kind : PacketKind) : Packet := { src := src, dst := dst, cls := 2, kind := kind, xfer := 0, piece := 0, data := clean [1, 2, 3, 4] }
def network (x : Xfer) (l : List Packet) : State := { running loadOp with xfers := [(0, x)], nextXfer := 1, net := l }
def deliver (i : Nat) : Instr := .packetDeliver (.queued i) none
/-- How far the piece of transfer 0 has come. -/
def pieceIn (s : State) : Option PieceState := (getPiece s 0 0).map (·.2.state)

theorem test_packet_behind : packetBehind [packet (.core 0) (.stack 0) .request, packet (.core 0) (.stack 0) .request] 1 (packet (.core 0) (.stack 0) .request) = true ∧
    exec (deliver 1) (network (sending .write 0x100) [packet (.core 0) (.stack 0) .request, packet (.core 0) (.stack 0) .request]) =
      .next (network (sending .write 0x100) [packet (.core 0) (.stack 0) .request, packet (.core 0) (.stack 0) .request]) := ⟨by decide, rfl⟩
theorem test_packet_at_stack : ((getMc (after (deliver 0) (network (sending .write 0x100) [packet (.core 0) (.stack 0) .request])) 0).arrivals.map (fun r => (r.addr, r.data))) =
    [(0x100, clean [1, 2, 3, 4])] := by decide +kernel
def piece512 : Piece := { vaddr := 0x5000, len := 512, near := 0, state := .sent, trans := some (0, 0), daddr := 0x700 }
def packet512 : Packet := { packet (.core 0) (.stack 0) .request with data := clean (zeros 512) }
theorem test_packet_units : ((getMc (after (deliver 0) (network { sending .write 0x700 with pieces := [piece512] } [packet512])) 0).arrivals.map (fun r => (r.addr, r.len))) =
    [(0x700, 256), (0x800, 256)] := by decide +kernel
theorem test_packet_spoiled : errorOnWay (spoilt 0 1 1) (.core 0) (.stack 0) (clean [1, 2, 3, 4]) = true ∧
    ((getMc (after (.packetDeliver (.queued 0) (spoilt 0 1 1)) (network (sending .write 0x100) [packet (.core 0) (.stack 0) .request])) 0).arrivals.map (·.data)) =
      [marked [1, 2, 3, 4]] := by decide +kernel
theorem test_packet_spoiled_elsewhere : errorOnWay (spoilt 0 9 0) (.core 0) (.stack 0) (clean [1, 2, 3, 4]) = false ∧
    exec (.packetDeliver (.queued 0) (spoilt 0 9 0)) (network (sending .write 0x100) [packet (.core 0) (.stack 0) .request]) =
      .next (network (sending .write 0x100) [packet (.core 0) (.stack 0) .request]) := ⟨by decide, rfl⟩
/-- The link from core 0 to core 1 instead. -/
def linkOut : LinkDef := { link with consumer := { grinder := false, port := 1, unit := 1 }, length := 1 }
def linkedOut : State :=
  { running vecOp with blend := { base.blend with cur := { plan0 with links := [(0, linkOut)], spareWritten := [(0, 0), (1, 1)], spare := [(0, 0), (1, 1)] } } }
theorem test_circuit_spoiled : linkDef linkedOut 0 = some linkOut ∧ (circuitStops linkedOut 0 linkOut).contains (0, 1, 1) = true ∧ physOf linkedOut 1 = some 1 ∧
    memPoison (after (.packetDeliver (.circuit 0 0 1) (spoilt 0 1 1)) linkedOut) (scratchKey 1 (0x80000 + 64)) = true ∧
    memPoison (after (.packetDeliver (.circuit 0 0 1) (spoilt 0 1 1)) linkedOut) (scratchKey 1 0x80000) = false := by decide +kernel
/-- With core 1's island at a power state, and linked core 1 on it. -/
def islandAt (p : Nat) (s : State) : State := updIsl s (islOfCore 1) (fun i => { i with power := p })
theorem test_packet_at_core_write : pieceIn (after (deliver 0) (islandAt 2 (network (sending .write (scratchKey 1 0)) [packet (.core 0) (.core 1) .request]))) = some .landed ∧
    memBytes (after (deliver 0) (islandAt 2 (network (sending .write (scratchKey 1 0)) [packet (.core 0) (.core 1) .request]))) (scratchKey 1 0) 4 = [1, 2, 3, 4] := by decide +kernel
theorem test_packet_at_core_read : ((after (deliver 0) (islandAt 2 (network (sending .read (scratchKey 1 0)) [packet (.core 0) (.core 1) .request]))).net.map (fun k => (k.kind, k.data))) =
    [(.reply, clean (zeros 4))] := by decide +kernel
theorem test_packet_at_gated_core :
    (getIsl (after (deliver 0) (islandAt 1 (network (sending .write (scratchKey 1 0)) [packet (.core 0) (.core 1) .request]))) (islOfCore 1)).power = 2 ∧
    exec (deliver 0) (islandAt 0 (network (sending .write (scratchKey 1 0)) [packet (.core 0) (.core 1) .request])) =
      .next (islandAt 0 (network (sending .write (scratchKey 1 0)) [])) := ⟨by decide +kernel, rfl⟩
theorem test_reply_lands : pieceOver { vaddr := 0x5000, len := 4, near := 0, state := .sent, trans := some (0, 0), daddr := 0x100 } = false ∧
    (getXfer (after (deliver 0) (network (sending .read 0x100) [packet (.stack 0) (.core 0) .reply])) 0).map (·.payload) = some (clean [1, 2, 3, 4]) := by decide +kernel
theorem test_reply_lands_in_scratchpad :
    memBytes (after (deliver 0) (network { sending .read 0x100 with buffered := false } [packet (.stack 0) (.core 0) .reply])) (scratchKey 0 0) 4 = [1, 2, 3, 4] := by decide +kernel
theorem test_packet_to_host : portFor (network (sending .write hostBase) []) 0 0 = some 0 ∧
    ((after (deliver 0) (network (sending .write hostBase) [packet (.core 0) (.gkPort 0) .request])).host.delivered.map (fun e => (e.1, e.2.bytes))) = [(0, [1, 2, 3, 4])] ∧
    ((getGk (after (deliver 0) (network (sending .read hostBase) [packet (.core 0) (.gkPort 0) .request])) 0).reads.map (·.len)) = [4] := by decide +kernel
theorem test_packet_to_peer : packetStuck (network (sending .write peerBase) []) (packet (.core 0) (.courierPort 0) .request) = false ∧
    ((after (deliver 0) (network (sending .write peerBase) [packet (.core 0) (.courierPort 0) .request])).courier.store.map (fun e => (e.msg.type, e.piece))) =
      [(crWrite, some (0, 0))] := by decide +kernel
def hostRead : State := setGk (network (sending .read hostBase) []) 0 { getGk base 0 with reads := [{ host := 0, addr := 0, len := 4, xfer := 0, piece := 0 }] }
theorem test_host_data_lands : (getXfer (after (.packetDeliver (.hostData 0 0 [9, 8]) none) hostRead) 0).map (·.payload) = some (clean [9, 8, 0, 0]) := by decide +kernel

/-- A 4-byte access waiting at stack 0. -/
def arrived (kind : AccessKind) : Arrived :=
  { xfer := 0, piece := 0, kind := kind, addr := 0x100, len := 4, data := clean [1, 2, 3, 4], region := none, cls := 2, since := 0, passed := 0 }
def atStack (l : List Arrived) : State :=
  setMc (memWrite (network (sending .write 0x100) []) 0x100 (clean [5, 6, 7, 8])) 0 { mcReset with train := 1, arrivals := l }
theorem test_access_waits : accessWaits (atStack [arrived .write, arrived .read]) 0 1 (arrived .read) = true ∧
    exec (.hbmAccess 0 1 [] .clean) (atStack [arrived .write, arrived .read]) = .next (atStack [arrived .write, arrived .read]) := ⟨by decide +kernel, rfl⟩
theorem test_access_read : accessWaits (atStack [arrived .read]) 0 0 (arrived .read) = false ∧
    ((after (.hbmAccess 0 0 [] .clean) (atStack [arrived .read])).net.map (·.data)) = [clean [5, 6, 7, 8]] := by decide +kernel
theorem test_access_turn : (accessTurn (atStack [arrived .read]) 0 (arrived .read)).isSome = true ∧ (accessTurn (atStack [arrived .write]) 0 (arrived .write)).isSome = true ∧
    accessTurn (atStack [{ arrived .read with addr := 0x300, cls := 0 }, arrived .read]) 0 (arrived .read) = none ∧
    exec (.hbmAccess 0 1 [] .clean) (atStack [{ arrived .read with addr := 0x300, cls := 0 }, arrived .read]) =
      .next (atStack [{ arrived .read with addr := 0x300, cls := 0 }, arrived .read]) := ⟨by decide +kernel, by decide +kernel, by decide +kernel, rfl⟩
/-- The first of a piece's two accesses leaves its data at the stop. -/
theorem test_access_part : ((getMc (after (.hbmAccess 0 0 [] .clean) (atStack [arrived .read, { arrived .read with addr := 0x900 }])) 0).parts.map (·.data)) = [clean [5, 6, 7, 8]] ∧
    (after (.hbmAccess 0 0 [] .clean) (atStack [arrived .read, { arrived .read with addr := 0x900 }])).net = [] := by decide +kernel
theorem test_access_write : InDram (atStack [arrived .write]) 0x100 4 ∧ pieceIn (after (.hbmAccess 0 0 [] .clean) (atStack [arrived .write])) = some .landed ∧
    memBytes (after (.hbmAccess 0 0 [] .clean) (atStack [arrived .write])) 0xFF 6 = [0, 1, 2, 3, 4, 0] := by
  refine ⟨fun l h1 h2 => ?_, by decide +kernel, by decide +kernel⟩
  obtain rfl : l = 1 := by omega
  decide +kernel
theorem test_tags_lost : (after (.hbmAccess 0 0 [] (.bothLost 0 0)) (atStack [arrived .read])).mode = .faulted ∧
    (after (.hbmAccess 0 0 [] (.bothLost 0 0)) (atStack [arrived .read])).pm.fault = 3 := by decide +kernel

/-- A dirty line of sevens, and a state whose die 0 caches it. -/
def line0 : CacheLine := { region := 0, way := 1, dirty := true, bytes := List.replicate 256 7, poison := [false, false, false, false], stamp := 0 }
def cached8 : State := setCache (atStack []) 0 { dieCacheReset with lines := [(2, { line0 with dirty := false })], powered := [0, 1] }
theorem test_atomic_not_ready : hbmReady (atStack [arrived .write]) 1 0x100 4 = false ∧
    exec (.hbmAtomic .add ⟨none, 1, 0x100, [], .clean⟩ false 1 0) (atStack [arrived .write]) = .next (atStack [arrived .write]) := ⟨by decide +kernel, rfl⟩
/-- A segment of context 3 over an address. -/
def atomicSeg (dbase : Nat) (home : SegHome) (granted : Bool) : State := withSeg (atStack []) { seg0 with dbase := dbase, home := home, atomic := granted }
def atomicBy (a : Nat) : Instr := .hbmAtomic .add ⟨some (0, 3), 1, a, [], .clean⟩ false 1 0
theorem test_atomic_at_home : (after (atomicBy 0) (atomicSeg 0x100 .local true)).answers = [[5, 6, 7, 8, 0]] ∧
    memBytes (after (atomicBy 0) (atomicSeg 0x100 .local true)) 0x100 4 = [6, 6, 7, 8] := by decide +kernel
/-- The reasons that the fault records hold. -/
def faultsOf (s : State) : List SegReason := s.seg.records.map (·.2.reason)
theorem test_atomic_faults : faultsOf (after (atomicBy 0) (atStack [])) = [.noSegment] ∧ faultsOf (after (atomicBy 0) (atomicSeg 0x100 .local false)) = [.rights] ∧
    faultsOf (after (atomicBy 0) (atomicSeg (peerBase + 5 * peerSlot) .peer true)) = [.homeDown] ∧
    exec (atomicBy 2) (atomicSeg 0x100 .local true) = .next (atomicSeg 0x100 .local true) := ⟨by decide +kernel, by decide +kernel, by decide +kernel, rfl⟩
theorem test_atomic_cached : (tabFind (getCache cached8 0).lines 2).isSome = true ∧ (after (.hbmAtomic .add ⟨none, 1, 0x200, [], .clean⟩ true 1 0) cached8).answers = [leBytes 8 0x0707070707070707 ++ [0]] ∧
    ((tabFind (getCache (after (.hbmAtomic .add ⟨none, 1, 0x200, [], .clean⟩ true 1 0) cached8) 0).lines 2).map (fun e => (e.dirty, e.bytes.take 2))) = some (true, [8, 7]) := by
  decide +kernel
theorem test_atomic_add : hbmReady (atStack []) 1 0x100 4 = true ∧ stackOffline (atStack []) 0 = false ∧
    (after (.hbmAtomic .add ⟨none, 1, 0x100, [], .clean⟩ false 0xFFFFFFFF 0) (atStack [])).answers = [[5, 6, 7, 8, 0]] ∧
    memBytes (after (.hbmAtomic .add ⟨none, 1, 0x100, [], .clean⟩ false 0xFFFFFFFF 0) (atStack [])) 0x100 5 = [4, 6, 7, 8, 0] := by decide +kernel
theorem test_atomic_poisoned : memPoison (poisonRange (atStack []) 0x100 4) 0x100 = true ∧
    (after (.hbmAtomic .swap ⟨none, 1, 0x100, [], .clean⟩ false 1 0) (poisonRange (atStack []) 0x100 4)).answers = [[5, 6, 7, 8, 1]] ∧
    memBytes (after (.hbmAtomic .swap ⟨none, 1, 0x100, [], .clean⟩ false 1 0) (poisonRange (atStack []) 0x100 4)) 0x100 4 = [5, 6, 7, 8] := by decide +kernel

/-- Die 0's cache with a fill, a write-back, and dirty line 2 in a way being cleaned. -/
def caching : State := setCache (atStack []) 0 { dieCacheReset with
  lines := [(2, line0)], fills := [{ line := 21, region := 0, since := 999999000 }], evb := [{ line := 3, bytes := List.replicate 256 9, poison := [false, true, false, false], since := 0, passed := 0, cleaned := false }],
  powered := [0, 1], cleaning := [1], departing := [1] }
theorem test_fill_starts : idleSlot caching 0x1500 = true ∧ (getCache (after (.backgroundFillStart 0 0 []) caching) 0).fills = [] := by decide +kernel
theorem test_fill_drops : (getCache (after (.backgroundFillDrop 0 0) { caching with devTime := 1000001000 }) 0).fillsDropped = 1 := by decide +kernel
theorem test_fill_in_time : exec (.backgroundFillDrop 0 0) { caching with devTime := 1000000999 } = .next { caching with devTime := 1000000999 } := rfl
theorem test_write_back : channelPaused caching 0x300 = false ∧ (getCache (after (.evictionWritebackDone 0 0) caching) 0).evb = [] ∧
    memBytes (after (.evictionWritebackDone 0 0) caching) 0x2FF 2 = [0, 9] ∧ memPoison (after (.evictionWritebackDone 0 0) caching) 0x340 = true := by decide +kernel
/-- With a pause of the channel of a line. -/
def pausedAt (s : State) (line : Nat) : State := setMc s 0 { getMc s 0 with pause := some (channelOf (line * 256), 0) }
theorem test_write_back_paused : channelPaused (pausedAt caching 3) 0x300 = true ∧
    exec (.evictionWritebackDone 0 0) (pausedAt caching 3) = .next (pausedAt caching 3) := ⟨by decide +kernel, rfl⟩
theorem test_clean_paused : channelPaused (pausedAt caching 2) 0x200 = true ∧ exec (.cacheCleanDone 0) (pausedAt caching 2) = .next (pausedAt caching 2) := ⟨by decide +kernel, rfl⟩
theorem test_clean_none : exec (.cacheCleanDone 0) (atStack []) = .next (atStack []) := rfl
theorem test_clean_done : (getCache (after (.cacheCleanDone 0) caching) 0).lines = [] ∧ (getCache (after (.cacheCleanDone 0) caching) 0).powered = [0] ∧
    memBytes (after (.cacheCleanDone 0) caching) 0x200 2 = [7, 7] := by decide +kernel
theorem test_patrol : idleSlot (atStack []) 0 = true ∧ (getMc (after (.hbmPatrolRead 0 []) (atStack [])) 0).patrolNext = 1 := by decide +kernel
/-- One bit of a word is corrected; two bits of a word are not (R295). -/
theorem test_patrol_corrects : (getMc (after (.hbmPatrolRead 0 [{ word := 0, flips := [3] }, { word := 5, flips := [70] }]) (atStack [])) 0).corrected = 2 ∧
    memPoison (after (.hbmPatrolRead 0 [{ word := 0, flips := [3] }, { word := 5, flips := [70] }]) (atStack [])) 0 = false := by decide +kernel
theorem test_patrol_poisons : (getMc (after (.hbmPatrolRead 0 [{ word := 0, flips := [3, 4] }]) (atStack [])) 0).uncorrected = 1 ∧
    memPoison (after (.hbmPatrolRead 0 [{ word := 0, flips := [3, 4] }]) (atStack [])) 0 = true := by decide +kernel
theorem test_patrol_wraps : (getMc (after (.hbmPatrolRead 0 []) (setMc (atStack []) 0 { mcReset with train := 1, patrolNext := stackGranules - 1, patrolLate := true })) 0) =
    { mcReset with train := 1, patrolStart := 1000000000, rdBytes := 64 } := by decide +kernel
theorem test_scrub_late : (getMc (after (.hbmScrubLate 0) { atStack [] with devTime := patrolRound + 1 }) 0).patrolLate = true ∧
    exec (.hbmScrubLate 0) { atStack [] with devTime := patrolRound } = .next { atStack [] with devTime := patrolRound } := ⟨by decide +kernel, rfl⟩
def planning : State := { atStack [] with plan := { base.plan with running := true } }
theorem test_pause_starts : mayPause planning 0 = true ∧ (getMc (after (.hbmRetrainPauseStart 0 3 none) planning) 0).pause = some (3, 1000000000) := by decide +kernel
theorem test_pause_lane : fixFor (getMc planning 0) 0 3 9 = some { stack := 0, channel := 3, lane := 9, erased := false } ∧
    (getMc (after (.hbmRetrainPauseStart 0 3 (some 9)) planning) 0).newFixes.length = 1 := by decide +kernel
def fix (lane : Nat) (erased : Bool) : LaneFix := { stack := 0, channel := 3, lane := lane, erased := erased }
def wornOut : State := setMc planning 0 { mcReset with train := 1, fixes := [fix 1 false, fix 2 false, fix 3 true] }
theorem test_pause_stack_out : fixFor (getMc wornOut 0) 0 3 9 = none ∧ (getMc (after (.hbmRetrainPauseStart 0 3 (some 9)) wornOut) 0).train = 3 := by decide +kernel
theorem test_pause_takes_waiting : (getMc (after (.hbmRetrainPauseStart 0 3 none) (setMc planning 0 { mcReset with train := 1, newFixes := [fix 3 true] })) 0).coming =
    [fix 3 true] := by decide +kernel
def pausing : McState := { mcReset with train := 1, pause := some (3, 0), coming := [fix 3 true], newFixes := [fix 4 false] }
theorem test_pause_ends : (getMc (after (.hbmRetrainPauseEnd 0) (setMc planning 0 pausing)) 0) = { mcReset with train := 2, fixes := [fix 3 true], newFixes := [fix 4 false] } := by decide +kernel

/-! ### Postmaster calls -/

/-- A call whose checks pass on its own slot's arguments is admitted, for a rule whose caller check reads only them. -/
theorem admitted (s : State) (who : Agent) (k : Nat) (r : CallRule) (hc : ∀ x y : CallSlot, x.args = y.args → r.carrier x = r.carrier y)
    (h : ownsSlot s who k = true ∧ (getSlot s k).state ≠ 1 ∧ callCheck s r (agentHost s who) (getSlot s k) = 0) : CallAdmitted s who k r :=
  ⟨h.1, h.2.1, fun x hx => by have := h.2.2; simp only [callCheck, hx, hc x _ hx] at this ⊢; exact this⟩

/-- Slot 0 with argument bytes from an offset. -/
def argTab (l : List (Nat × List Byte)) : Tab Byte :=
  ((l.map (fun e => (List.range e.2.length).map (fun i => (e.1 + i, e.2.getD i 0)))).flatten).filter (fun e => e.2 != 0)
def called (s : State) (l : List (Nat × List Byte)) : State :=
  setSlot { s with pm := { s.pm with contexts := [(3, 0), (4, 0)] } } 0 { callSlotReset with args := argTab l }
/-- The state, result and first reply byte of slot 0. -/
def slotEnd (c : Instr) (s : State) : Nat × Dword := ((getSlot (after c s) 0).state, (getSlot (after c s) 0).result)

/-! ### Segments -/

def ctx3 (index advice : Byte) : Nat × List Byte := (0, [3, 0, index, advice])
def seg0Write : List Byte := leBytes 8 0 ++ leBytes 8 0x100000 ++ leBytes 8 0x2000000 ++ [7, 1, 0, 0, 0, 0, 0, 0]
theorem test_seg_read : CallAdmitted (called (withSeg base seg0) [ctx3 0 0]) (.host 0) 0 (segRule 0x22 true [(0, 3)]) ∧
    ownsContext (called (withSeg base seg0) [ctx3 0 0]) 0 3 = true ∧ slotEnd (.segRead (.host 0) 0 false 0) (called (withSeg base seg0) [ctx3 0 0]) = (2, 0) ∧
    (List.range 32).map (tabGet 0 (getSlot (after (.segRead (.host 0) 0 false 0) (called (withSeg base seg0) [ctx3 0 0])) 0).reply) = segBytes seg0 :=
  ⟨admitted _ _ _ _ (fun _ _ _ => rfl) (by decide +kernel), by decide +kernel, by decide +kernel, by decide +kernel⟩
theorem test_seg_write_new : CallAdmitted (called base [ctx3 0 0, (8, seg0Write)]) (.host 0) 0 (segRule 0x20 false [(0, 3), (8, 32)]) ∧ segArgsOk seg0Write = true ∧
    (checkSeg (called base [ctx3 0 0]) 0 3 0 (parseSeg seg0Write) (segReservedOk seg0Write)).1 = 0 ∧ (getSeg base 3 0).home = .empty ∧
    slotEnd (.segWrite (.host 0) 0 false 0) (called base [ctx3 0 0, (8, seg0Write)]) = (2, 0) ∧
    getSeg (after (.segWrite (.host 0) 0 false 0) (called base [ctx3 0 0, (8, seg0Write)])) 3 0 = { seg0 with gen := 1 } :=
  ⟨admitted _ _ _ _ (fun _ _ _ => rfl) (by decide +kernel), by decide +kernel, by decide +kernel, by decide +kernel, by decide +kernel, by decide +kernel⟩
theorem test_seg_write_live : (getSeg (withSeg base seg0) 3 0).home ≠ .empty ∧
    (slotEnd (.segWrite (.host 0) 0 false 0) (called (withSeg base seg0) [ctx3 0 0, (8, seg0Write)])).1 = 1 ∧
    ((after (.segWrite (.host 0) 0 false 0) (called (withSeg base seg0) [ctx3 0 0, (8, seg0Write)])).seg.withdrawals.map (·.index)) = [0] := by decide +kernel
theorem test_seg_write_rule : (checkSeg (called base []) 0 3 0 (parseSeg (seg0Write.set 24 0)) true) = (0x48, 6) ∧
    slotEnd (.segWrite (.host 0) 0 false 0) (called base [ctx3 0 0, (8, seg0Write.set 24 0)]) = (2, BitVec.ofNat 64 (0x48 + 6 * 2 ^ 32)) := by decide +kernel
theorem test_seg_clear : CallAdmitted (called base [ctx3 0 0]) (.host 0) 0 (segRule 0x21 false [(0, 3)]) ∧
    slotEnd (.segClear (.host 0) 0 false 0) (called base [ctx3 0 0]) = (2, 0) ∧
    (slotEnd (.segClear (.host 0) 0 false 0) (called (withSeg base seg0) [ctx3 0 0])).1 = 1 :=
  ⟨admitted _ _ _ _ (fun _ _ _ => rfl) (by decide +kernel), by decide +kernel, by decide +kernel⟩

/-- A segment of host memory, and one read-mostly. -/
def hostSeg : SegEntry := { seg0 with dbase := hostBase, home := .host, atomic := false }
def mostly : SegEntry := { seg0 with write := false, atomic := false, readMostly := true, hostBase := hostBase, hostRead := true, hostWrite := true }
def advised (e : SegEntry) (advice : Byte) (dest : Nat) : State := called (withSeg base e) [ctx3 0 advice, (8, leBytes 8 dest)]
/-- The phase of the call begun, or the code of one that ended. -/
def adviceEnd (c : Instr) (s : State) : List Nat × Nat × Dword := ((after c s).seg.calls.map (·.phase), slotEnd c s)
theorem test_advise_admitted : CallAdmitted (advised hostSeg 0 0x2000000) (.host 0) 0 (segRule 0x23 false [(0, 4), (8, 8)]) ∧ destAligned 0x2000000 = true ∧
    (checkSeg (advised hostSeg 0 0x2000000) 0 3 0 (advisedEntry hostSeg (.willNeed 0x2000000)) true).1 = 0 :=
  ⟨admitted _ _ _ _ (fun _ _ _ => rfl) (by decide +kernel), by decide +kernel, by decide +kernel⟩
theorem test_advise_will_need : adviceEnd (.segAdviseWillNeed (.host 0) 0 false 0) (advised hostSeg 0 0x2000000) = ([1], 1, 0) ∧
    adviceEnd (.segAdviseWillNeed (.host 0) 0 false 0) (advised seg0 0 0x2000000) = ([], 2, 0x42) := by decide +kernel
theorem test_advise_cold : (checkSeg (advised seg0 1 hostBase) 0 3 0 (advisedEntry seg0 (.cold hostBase)) true).1 = 0 ∧
    adviceEnd (.segAdviseCold (.host 0) 0 false 0) (advised seg0 1 hostBase) = ([1], 1, 0) ∧
    adviceEnd (.segAdviseCold (.host 0) 0 false 0) (advised hostSeg 1 hostBase) = ([], 2, 0x42) := by decide +kernel
theorem test_advise_read_mostly : (checkSeg (advised hostSeg 2 0x2000000) 0 3 0 (advisedEntry hostSeg (.readMostly 0x2000000)) true).1 = 0 ∧
    adviceEnd (.segAdviseReadMostly (.host 0) 0 false 0) (advised hostSeg 2 0x2000000) = ([1], 1, 0) ∧
    adviceEnd (.segAdviseReadMostly (.host 0) 0 false 0) (advised seg0 2 0x2000000) = ([], 2, 0x42) := by decide +kernel
theorem test_advise_revoke : adviceEnd (.segAdviseRevokeRm (.host 0) 0 false 0) (advised mostly 3 0) = ([3], 1, 0) ∧
    adviceEnd (.segAdviseRevokeRm (.host 0) 0 false 0) (advised seg0 3 0) = ([], 2, 0x42) := by decide +kernel
theorem test_advise_hot : adviceEnd (.segAdviseHot (.host 0) 0 false 0) (advised seg0 4 0) = ([3], 1, 0) ∧
    (after (.segAdviseHot (.host 0) 0 false 0) (advised seg0 4 0)).seg.hotOrder = [192] ∧
    adviceEnd (.segAdviseHot (.host 0) 0 false 0) (advised segEntryReset 4 0) = ([], 2, 0x42) := by decide +kernel
theorem test_advise_normal : adviceEnd (.segAdviseNormal (.host 0) 0 false 0) (advised seg0 5 0) = ([3], 1, 0) ∧
    adviceEnd (.segAdviseNormal (.host 0) 0 false 0) (advised segEntryReset 5 0) = ([], 2, 0x42) := by decide +kernel

/-- A withdrawal of segment 0 of context 3 that engines below n have acknowledged, for a call in a phase. -/
def wd (applied acked : List Nat) : Withdrawal :=
  { context := 3, index := 0, oldGen := 0, wTime := 5, applied := applied, acked := acked, drained := 0, slot := 0 }
def draining (applied acked : List Nat) (phase : Nat) : State :=
  let s := setSlot base 0 { callSlotReset with state := 1 }
  { s with seg := { s.seg with
      withdrawals := [wd applied acked]
      caches := [(7, [{ context := 3, index := 0, entry := seg0, stamp := 0 }])]
      calls := [{ slot := 0, host := 0, context := 3, index := 0, op := .willNeed 0x2000000, phase := phase, orig := hostSeg, code := 0 }] } }
theorem test_invalidate : findWithdrawal (draining [] [] 1) 3 0 = some (wd [] []) ∧ engineCache (after (.segInvalidateApply 3 0 7) (draining [] [] 1)) 7 = [] ∧
    (findWithdrawal (after (.segInvalidateApply 3 0 7) (draining [] [] 1)) 3 0).map (·.applied) = some [7] := by decide +kernel
theorem test_withdraw_ack : heldUnder (draining [7] [] 1) (wd [7] []) 7 = 0 ∧
    (findWithdrawal (after (.segWithdrawAck 3 0 7) (draining [7] [] 1)) 3 0).map (·.acked) = some [7] := by decide +kernel
theorem test_last_ack_copies : (setIns (List.range 191) 191).length = 192 ∧
    ((after (.segWithdrawAck 3 0 191) (draining (List.range 192) (List.range 191) 1)).seg.calls.map (·.phase)) = [2] := by decide +kernel
theorem test_last_ack_ends : (getSlot (after (.segWithdrawAck 3 0 191) (draining (List.range 192) (List.range 191) 3)) 0).state = 2 ∧
    tabGet 0 (getSlot (after (.segWithdrawAck 3 0 191) (draining (List.range 192) (List.range 191) 3)) 0).reply 0 = 5 := by decide +kernel
def copying : State :=
  { withSeg base { hostSeg with length := 64 } with seg := { (withSeg base { hostSeg with length := 64 }).seg with
      calls := [{ slot := 0, host := 0, context := 3, index := 0, op := .willNeed 0x2000000, phase := 2, orig := { hostSeg with length := 64 }, code := 0 }] } }
theorem test_copy_done : getSeg (after (.segAdviseCopyDone 3 (some [1])) copying) 3 0 = { seg0 with gen := 1, atomic := false, length := 64 } ∧
    ((after (.segAdviseCopyDone 3 (some [1])) copying).seg.calls.map (·.phase)) = [3] := by decide +kernel
theorem test_copy_free : rangeFree copying 0x2000000 64 = true ∧ (getHost copying ((hostBase - hostBase) / 2 ^ 39)).cond = .registered := by decide +kernel
theorem test_copy_failed : getSeg (after (.segAdviseCopyDone 3 none) copying) 3 0 = { hostSeg with gen := 1, length := 64 } ∧
    ((after (.segAdviseCopyDone 3 none) copying).seg.calls.map (·.code)) = [pmHostFetch] := by decide +kernel

/-- A piece of engine 0 that waits for the directory, and one held at record 0. -/
def missing (st : PieceState) : State :=
  { running loadOp with nextXfer := 1, xfers := [(0, { landedXfer none false with
      pieces := [{ vaddr := 0x5000, len := 64, near := 0, state := st, trans := none, daddr := 0 }], buffered := false, payload := [] })] }
theorem test_miss_serves : HostsServe (withSeg (missing .missing) seg0) ∧ (∀ f ∈ (withSeg (missing .missing) seg0).seg.records, f.2.resolving = none) :=
  ⟨hostsServe_low _ (by decide) rfl, by decide⟩
theorem test_miss_counts : tabGet 0 (after (.segMissFill 0) (withSeg (missing .missing) seg0)).seg.misses (engineIsland (missing .missing) 0) = 1 := by decide +kernel
theorem test_miss_fills : oldestMiss (withSeg (missing .missing) seg0) 0 = some (0, 0) ∧
    ((engineCache (after (.segMissFill 0) (withSeg (missing .missing) seg0)) 0).map (·.index)) = [0] ∧ pieceIn (after (.segMissFill 0) (withSeg (missing .missing) seg0)) = some .sent := by
  decide +kernel
theorem test_miss_held : covering (missing .missing) 3 0x5000 = none ∧ pieceIn (after (.segMissFill 0) (missing .missing)) = some (.held (some 0)) ∧
    (tabFind (after (.segMissFill 0) (missing .missing)).seg.records 0).map (·.reason) = some .noSegment := by decide +kernel
def record0 : FaultRec :=
  { vaddr := 0, context := 3, segment := none, reason := .noSegment, kindRead := true, kindWrite := false, kindAtomic := false, postmark := 999000000, waiters := [0], resolving := none }
def faulted (limit : Nat) : State := { missing (.held (some 0)) with seg := { base.seg with records := [(0, record0)], limitUs := limit } }
/-- The same with a segment for the page in the engine's cache. -/
def faultedCached : State := { faulted 1000 with seg := { (faulted 1000).seg with entries := [(192, seg0)], caches := [(0, [{ context := 3, index := 0, entry := seg0, stamp := 0 }])] } }
theorem test_fault_retry : (tabFind (after (.segFaultResolveRetry (.host 0) 0) (faulted 1000)).seg.records 0).map (·.resolving) = some (some [(0, 0)]) ∧
    pieceIn (after (.segFaultResolveRetry (.host 0) 0) (faulted 1000)) = some .missing ∧
    tabFind (after (.segFaultResolveRetry (.host 0) 0) faultedCached).seg.records 0 = none ∧
    pieceIn (after (.segFaultResolveRetry (.host 0) 0) faultedCached) = some .sent := by decide +kernel
theorem test_fault_fail : getXfer (after (.segFaultResolveFail (.host 0) 0) (faulted 1000)) 0 = none ∧
    (getInv (after (.segFaultResolveFail (.host 0) 0) (faulted 1000)) 1).map (·.early) = some (some (.segmentFault, 0)) := by decide +kernel
theorem test_fault_timeout : getXfer (after (.segmentFaultTimeout 0) (faulted 1000)) 0 = none ∧ exec (.segmentFaultTimeout 0) (faulted 1001) = .next (faulted 1001) ∧
    exec (.segmentFaultTimeout 0) (faulted 0) = .next (faulted 0) := ⟨by decide +kernel, rfl, rfl⟩
theorem test_fault_unreached : reaches (faulted 1000) (.host 1) = false ∧ exec (.segFaultResolveFail (.host 1) 0) (faulted 1000) = .next (faulted 1000) ∧
    exec (.segFaultCtrlWrite (.host 1) 5) (faulted 1000) = .next (faulted 1000) := ⟨by decide, rfl, rfl⟩
/-- A record that is resolving already. -/
def resolving0 : State := { faulted 1 with seg := { (faulted 1).seg with records := [(0, { record0 with resolving := some [(0, 0)] })] } }
theorem test_fault_resolving : exec (.segFaultResolveRetry (.host 0) 0) resolving0 = .next resolving0 ∧ exec (.segmentFaultTimeout 0) resolving0 = .next resolving0 := ⟨rfl, rfl⟩
theorem test_fault_limit : (after (.segFaultCtrlWrite (.host 0) 0x1FFFF) base).seg.limitUs = 0xFFFF := by decide +kernel

/-! ### Hosts, mailboxes and vectors -/

def portAs (l : GkLink) (full : Bool) : State := updGk base 0 (fun k => { k with link := l, full := full })
def linkOf (c : Instr) (s : State) : GkLink × Nat × Word := let k := getGk (after c s) 0; (k.link, k.lanes, k.retrains)
def powered : State := setIsl base 128 { islandReset with power := 2 }
theorem test_link_up : (getIsl powered 128).power = 2 ∧ (getGk powered 1).link ≠ .up ∧ (getGk powered 1).link ≠ .retraining ∧ powered.power.reset = none ∧
    powered.power.supplyReset = false ∧ (getGk (after (.gkLinkUp 1 9 true) powered) 1) = { gkPortReset with link := .up, lanes := 4, host := some 1, identity := 9 } ∧
    (getHost (after (.gkLinkUp 1 9 true) powered) 1).cond = .linked ∧ (getGk (after (.gkLinkUp 1 5 false) powered) 1).host = some 0 := by decide +kernel
/-- With as many replays in this millisecond. -/
def replayed (n : Nat) : State := updGk base 0 (fun k => { k with replayTimes := List.replicate n 999500000 })
theorem test_replay_limit : linkOf (.gkReplay 0) (replayed 15) = (.up, 8, 0) ∧ linkOf (.gkReplay 0) (replayed 16) = (.retraining, 8, 1) ∧
    (getGk (after (.gkReplay 0) (replayed 16)) 0).full = false := by decide +kernel
theorem test_retrain_unreached : reaches base (.host 1) = false ∧ exec (.gkLinkCtrlFull (.host 1) 0) base = .next base := ⟨by decide, rfl⟩
theorem test_replay : (getGk (after (.gkReplay 0) base) 0).replays = 1 := by decide +kernel
theorem test_retrain : linkOf (.gkRetrain 0) base = (.retraining, 8, 1) ∧ linkOf (.gkLinkCtrlRetrain (.host 0) 0) base = (.retraining, 8, 1) ∧
    (getGk (after (.gkLinkCtrlFull (.host 0) 0) base) 0).full = true := by decide +kernel
theorem test_retrain_quick : linkOf (.gkRetrainDone 0 .failed) (portAs .retraining false) = (.retraining, 8, 1) ∧
    (getGk (after (.gkRetrainDone 0 .failed) (portAs .retraining false)) 0).full = true ∧
    linkOf (.gkRetrainDone 0 .half4) (portAs .retraining false) = (.up, 8, 0) := by decide +kernel
theorem test_retrain_full : linkOf (.gkRetrainDone 0 .full8) (portAs .retraining true) = (.up, 8, 0) ∧
    linkOf (.gkRetrainDone 0 .half4) (portAs .retraining true) = (.up, 4, 0) ∧ linkOf (.gkRetrainDone 0 .failed) (portAs .retraining true) = (.down, 0, 0) := by
  decide +kernel

def hostAs (c : HostCond) (since : Option Nat) : State := updHost base 0 (fun h => { h with cond := c, lostSince := since })
theorem test_register : claimOk base 0 1023 1 = true ∧ claimOk base 0 1023 2 = false ∧
    (getHost (after (.hostRegister (.host 0) 1023 1) (hostAs .linked none)) 0) =
      { getHost base 0 with cond := .registered, queueFirst := 1023, queueCount := 1 } ∧
    (after (.hostRegister (.host 0) 1023 2) (hostAs .linked none)).log ≠ base.log := by decide +kernel
theorem test_release : (getHost base 0).cond = .registered ∧ (getHost (after (.hostRelease (.host 0)) base) 0).cond = .linked ∧
    (getHost (after (.hostRelease (.host 0)) base) 0).queueCount = 0 ∧
    (getHost (after (.hostRelease (.host 0)) (updQ base 7 (fun x => { x with openCount := 1 }))) 0).queueCount = 8 ∧
    (after (.hostRelease (.host 0)) (hostAs .lost none)).log ≠ base.log := by decide +kernel
theorem test_host_lost : (getHost (after (.hostLostTimeout 0) (hostAs .registered (some 900000000))) 0).cond = .lost ∧
    (getHost (after (.hostLostTimeout 0) (hostAs .linked (some 900000001))) 0).cond = .linked := by decide +kernel
theorem test_host_lost_queue : lossQueues base 0 = [0, 1, 2, 3, 4, 5, 6, 7] ∧
    (getInv (after (.hostReset 0) (setInv base 1 inv1)) 1).map (·.early) = some (some (.hostLost, 0)) ∧
    (getQ (after (.hostReset 0) (updQ base 7 (fun x => { x with enable := true, sqTail := 3 }))) 7).enable = false ∧
    (getGk (after (.hostReset 0) base) 0).link = .hostReset := by decide +kernel
def asleep : State := setIsl { base with mode := .parked } 127 { islandReset with power := 0 }
theorem test_gk_wake : (getIsl asleep 127).power = 0 ∧ (getIsl (after (.gkWake 0) asleep) 127).power = 2 ∧ (getGk (after (.gkWake 0) asleep) 0).link = .up := by
  decide +kernel

/-- A load's one piece, sent to host 0's memory. -/
def hostLoad : State :=
  { running loadOp with nextXfer := 1, xfers := [(0, { landedXfer none false with
      pieces := [{ vaddr := 0x5000, len := 64, near := 0, state := .sent, trans := none, daddr := hostBase }], buffered := false, payload := [] })] }
theorem test_refused_piece : (sentToHost hostLoad 0 0).isSome = true ∧ pieceIn (after (.hostAccessRefused (.piece 0 0)) hostLoad) = some .ended ∧
    (getInv (after (.hostAccessRefused (.piece 0 0)) hostLoad) 1).map (·.refused) = some true := by decide +kernel
def okReceipt : Receipt :=
  { status := .ok, mailbox := false, fault := 0, fpFlags := 0, replays := 0, switches := 0, queue := 0, invocation := 1, postmark := 999000000, poisoned := 0,
    sqIndex := 0, notify := true }
/-- Queue 0 with its rings at the start of host 0's memory. -/
def queue0 (f : QueueState → QueueState) : State := setQ base 0 (f { queueReset with enable := true, bound := true, context := 3, sqRing := hostBase, rqRing := hostBase })
def flying : State := queue0 (fun x => { x with inFlight := some (okReceipt, 0), openCount := 1 })
theorem test_refused_receipt : (getQ (after (.hostAccessRefused (.receipt 0)) flying) 0).heldBack = some okReceipt ∧
    (getQ (after (.hostAccessRefused (.receipt 0)) { flying with host := { flying.host with spillBase := 0x100000 } }) 0).spill = [true] := by decide +kernel
theorem test_drain : claims base 0 7 = true ∧ (getQ (after (.hostDrain (.host 0) 0 none) (queue0 (fun x => { x with heldBack := some okReceipt, spillStop := true }))) 0).heldBack =
    none := by decide +kernel
def write1 (n : Nat) : HostWrite := { seq := n, host := 0, addr := 0, bytes := [], marks := 0, trans := none, invocation := 0, for_ := .receipt 0 }
theorem test_flush_read : ((getGk (after (.flushReadReturn 0) (updGk base 0 (fun k => { k with flushes := [3], unflushed := [write1 2, write1 3] }))) 0).unflushed.map (·.seq)) =
    [3] := by decide +kernel
def unregistered : State := hostAs .linked none
theorem test_spill_base : unregistered.blend.reserve = none ∧ (after (.gkSpillBaseWrite (.host 0) 0x5F000) unregistered).host.spillBase = 0x5F000 ∧
    (after (.gkSpillBaseWrite (.host 0) 0x800) unregistered).log ≠ unregistered.log ∧ (after (.gkSpillBaseWrite (.host 0) 0x5F000) base).log ≠ base.log ∧
    (after (.gkSpillBaseWrite (.host 0) 0) { unregistered with host := { unregistered.host with spillBase := 0x1000 } }).host.spillBase = 0 := by decide +kernel

/-! ### Mailboxes and vectors -/

def boxAs (mode : Bool) (busy : Nat) : State :=
  { base with host := { base.host with h2m := [(0, 0xAB), (0x24, 7)], busy := if busy = 0 then [] else [(0, busy)],
                                       mbCtrl := if mode then [(0, { mode := true, queue := 7, vector := 5 })] else [] } }
def carrierHalted (s : State) : State := { s with pm := { s.pm with carrierRuns := false } }
theorem test_mailbox : mbOwner base 31 = 0 ∧ (after (.mailboxToCarrier (.host 0) 0) (boxAs false 0)).host.toCarrier = [(0, mbBytes (boxAs false 0) 0)] ∧
    (after (.mailboxToCarrier (.host 0) 0) (carrierHalted (boxAs false 0))).host.toCarrier = [] ∧
    mbBusy (after (.mailboxToCarrier (.host 0) 0) (carrierHalted (boxAs false 0))) 0 = true ∧
    (after (.mailboxToCarrier (.host 0) 0) (boxAs false 1000000001)).log ≠ base.log := by decide +kernel
theorem test_mailbox_submit : claims base 0 7 = true ∧ ((getQ (after (.mailboxSubmit (.host 0) 0 [] false) (boxAs true 0)) 7).mailed.map (fun e => (e.mailbox, e.sqIndex))) =
    [(true, 7)] ∧ (after (.mailboxSubmit (.host 0) 0 [] false) (boxAs true 1000000001)).log ≠ base.log := by decide +kernel
theorem test_message : upPorts base 0 = [0] ∧ (after (.m2hMessage 0 (some [9])) base).host.full = [0] ∧ (after (.m2hMessage 0 (some [9])) base).host.raised = [(0, none)] ∧
    tabGet 0 (after (.m2hMessage 0 (some [9])) base).host.m2h 0 = 9 ∧ (after (.mbM2hFullRelease (.host 0) 0) (after (.m2hMessage 0 (some [9])) base)).host.full = [] := by
  decide +kernel
def notice : Notice := { kind := .spill, port := 0, queue := 7, spilled := 1, postmark := 0 }
theorem test_message_notice : noticeMailbox base 0 = 63 ∧
    (after (.m2hMessage 63 none) { base with host := { base.host with notices := [(0, [notice])] } }).host.notices = [] ∧
    (after (.m2hMessage 63 none) { base with host := { base.host with notices := [(0, [notice])] } }).host.full = [63] := by decide +kernel
theorem test_message_full : exec (.m2hMessage 0 (some [])) { base with host := { base.host with full := [0] } } =
    .next { base with host := { base.host with full := [0] } } := rfl

def vec0 : VectorState := { vectorReset with enable := true }
def raising (x : VectorState) : State := { setVec base 1023 x with host := { (setVec base 1023 x).host with raised := [(1023, none)] } }
theorem test_vector_sent : takeRaise 1023 (raising vec0).host.raised = some (none, []) ∧ holdoffOver base { vec0 with holdoffUs := 5, lastSent := some 999995000 } = true ∧
    (vectorPort (raising vec0) 0 none).isSome = true ∧ (after (.vectorRaise 1023) (raising vec0)).host.sent = [{ vector := 1023, host := 0, port := 0, at_ := 1000000000 }] := by
  decide +kernel
theorem test_vector_kept : (getVec (after (.vectorRaise 1023) (raising { vec0 with mask := true })) 1023).pending = true ∧
    (getVec (after (.vectorRaise 1023) (raising { vec0 with holdoffUs := 5, lastSent := some 999995001 })) 1023).pending = true ∧
    (after (.vectorRaise 1023) (raising { vec0 with pending := true })).host.sent = [] ∧ (after (.vectorRaise 1023) (raising vectorReset)).host.raised = [] := by decide +kernel
theorem test_vector_holdoff_end : (after (.vectorHoldoffEnd 1023) (setVec base 1023 { vec0 with pending := true })).host.sent.length = 1 := by decide +kernel
theorem test_iv_ctrl : agentHost base (.host 0) = some 0 ∧ (getVec (after (.ivCtrlWrite (.host 0) 1023 0x80050000) base) 1023) = { vec0 with holdoffUs := 5 } ∧
    (getVec (after (.ivCtrlWrite (.host 0) 1023 0) (setVec base 1023 vec0)) 1023) = vectorReset ∧
    exec (.ivCtrlWrite (.host 0) 1023 0) (setVec base 1023 { vec0 with owner := 1 }) = .next (setVec base 1023 { vec0 with owner := 1 }) :=
  ⟨by decide +kernel, by decide +kernel, by decide +kernel, rfl⟩

/-! ### Queues -/

/-- Queue 0 of depth 16: 15 envelopes in its ring, 15 receipts unread. -/
def counted : State := queue0 (fun x => { x with sqTail := 15, rqTail := 15 })
def ctr (c : Instr) (s : State) : QueueState := getQ (after c s) 0
theorem test_sq_tail : queueDepth counted 0 = 16 ∧ mayDrive counted (.host 0) 0 = true ∧ (ctr (.sqTailWrite (.host 0) 0 16) counted).sqTail = 16 ∧
    (ctr (.sqTailWrite (.host 0) 0 17) counted).sqTail = 15 ∧ (ctr (.sqTailWrite (.host 0) 0 17) counted).error = true ∧
    (ctr (.sqTailWrite (.host 0) 0 0xFFFFFFFF) counted).error = true := by decide +kernel
theorem test_rq_head : (ctr (.rqHeadWrite (.host 0) 0 15) counted).rqHead = 15 ∧ (ctr (.rqHeadWrite (.host 0) 0 16) counted).rqHead = 0 ∧
    (ctr (.rqHeadWrite (.host 0) 0 16) counted).error = true ∧ mayDrive counted (.host 0) 8 = false ∧
    exec (.sqTailWrite (.host 0) 8 1) counted = .next counted := ⟨by decide +kernel, by decide +kernel, by decide +kernel, by decide +kernel, rfl⟩
theorem test_sq_enable : mayEnable (queue0 (fun x => { x with enable := false })) 0 = true ∧
    (ctr (.sqEnable (.host 0) 0 0xE0000007) (queue0 (fun x => { x with enable := false }))) =
      { getQ (queue0 id) 0 with enable := true, fastMode := true, hold := true, vector := 7 } ∧
    (ctr (.sqEnable (.host 0) 0 0x80000000) (queue0 (fun x => { x with enable := false, sqTail := 1 }))).enable = false ∧
    (after (.sqEnable (.host 0) 0 0x80000000) (queue0 (fun x => { x with enable := false, sqTail := 1 }))).log ≠ base.log := by decide +kernel

/-- The bytes of an envelope for one core, with 56 bytes of enclosure. -/
def invoke : List Byte := [0, 0, 1, 9, 56, 0, 0, 0] ++ leBytes 8 0x1000 ++ leBytes 8 hostBase ++ leBytes 8 0 ++ [0xFF] ++ zeros 31
def envelope : Envelope :=
  { fence := false, notify := false, cores := 1, linkSet := 9, rankStride := 0, program := 0x1000, seed := 0, pin := none, mailbox := false, sqIndex := 0,
    enclosure := leBytes 8 77 ++ zeros 48, bad := 0, start := 0 }
theorem test_stage : mayServe counted 0 = true ∧ readEnvelope counted 0 invoke (leBytes 8 77 ++ zeros 48) false .ring 0 0 = envelope ∧
    (ctr (.envelopeStage 0 invoke (leBytes 8 77 ++ zeros 48) false) counted).staged = [{ envelope with start := bellTime (getQ counted 0) 0 1000000000 }] ∧
    (readEnvelope counted 0 (invoke.set 2 2) [] false .ring 0 0).bad = 0x30 ∧ (readEnvelope counted 0 invoke [] true .ring 0 0).bad = 0x31 := by decide +kernel
/-- The latency counts from the doorbell, which the envelope carries. -/
theorem test_stage_doorbell : ((getQ (after (.sqTailWrite (.host 0) 0 1) (queue0 id)) 0).doorbells.map (·.2)) = [1000000000] ∧
    ((ctr (.envelopeStage 0 invoke [] false) { after (.sqTailWrite (.host 0) 0 1) (queue0 id) with devTime := 1000000500 }).staged.map (·.start)) = [1000000000] := by
  decide +kernel
theorem test_stage_none_left : (ctr (.envelopeStage 0 [] [] false) (queue0 id)).idle = true := by decide +kernel
theorem test_stage_fed : (ctr (.envelopeStage 0 [] [] false) (queue0 (fun x => { x with sqTail := 1, ringFed := true, fed := [envelope] }))).staged = [envelope] := by
  decide +kernel
theorem test_disable : (ctr (.sqDisable (.host 0) 0 0) (queue0 (fun x => { x with staged := [envelope] }))).staged = [] ∧
    (ctr (.sqDisable (.host 0) 0 0) counted).enable = false := by decide +kernel

/-- Queue 0 with an envelope staged on a module whose core 0 is in service. -/
def staging (e : Envelope) : State :=
  setIsl (queue0 (fun x => { x with sqTail := 1, staged := if e.mailbox then [] else [e], mailed := if e.mailbox then [e] else [] })) 0 { islandReset with power := 2 }
theorem test_dispatch : envHold (staging envelope) 0 = .ready [0] ∧ queuesOf (staging envelope) 0 2 = [0] ∧ resumable (staging envelope) 0 2 = false ∧
    envBad 0 part envelope = 0 ∧ (ctr (.invocationDispatch 0) (staging envelope)).sqHead = 1 ∧
    (getInv (after (.invocationDispatch 0) (staging envelope)) 1).map (·.cores) = some [0] ∧
    (getCore (after (.invocationDispatch 0) (staging envelope)) 0).pc = 0x1000 ∧
    (getCore (after (.invocationDispatch 0) (staging envelope)) 0).xs = [0, 77, 0, 0, 0, 0, 0, 0] := by decide +kernel
/-- From the resume of the partition where that is later. -/
def resumedAt (n : Nat) : State := { staging envelope with blend := { (staging envelope).blend with resumedAt := [(0, n)] } }
theorem test_dispatch_latency : (ctr (.invocationDispatch 0) (staging envelope)).lat = 1000000000 ∧ (ctr (.invocationDispatch 0) (resumedAt 999999990)).lat = 10 := by
  decide +kernel
theorem test_dispatch_mailed : (ctr (.invocationDispatch 0) (staging { envelope with mailbox := true, sqIndex := 7 })).mailed = [] ∧
    (ctr (.invocationDispatch 0) (staging { envelope with mailbox := true, sqIndex := 7 })).sqHead = 0 := by decide +kernel
theorem test_dispatch_fence : ((ctr (.invocationDispatch 0) (staging { envelope with fence := true })).due.map (·.status)) = [.ok] ∧
    ((ctr (.invocationDispatch 0) (setInv (staging { envelope with fence := true }) 1 inv1)).fences.map (·.waits)) = [[1]] := by decide +kernel
theorem test_dispatch_bad : envBad 0 part { envelope with bad := 0x30 } = 0x30 ∧
    ((ctr (.invocationDispatch 0) (staging { envelope with bad := 0x30 })).due.map (fun r => (r.status, r.fault))) = [(.aborted, 0x30)] := by decide +kernel

/-- Invocation 1 blocked on core 0, invocation 2 switched out of it and preempted, and a save pool of n slots. -/
def roomless (slots : Nat) : State :=
  let s := setInv (setInv (running waitOp) 1 { inv1 with blockedSince := some 0 }) 2 { inv1 with state := .switchedOut, preempted := true, slot := some 1 }
  { s with qs := { s.qs with pools := [(0, { base := 0x10000, slots := slots, used := [1] })], nextInv := 3 } }
theorem test_make_room : runnable (roomless 1) 2 { inv1 with state := .switchedOut, preempted := true, slot := some 1 } = true ∧
    residentsUnder (roomless 1) { inv1 with state := .switchedOut } = [(1, { inv1 with blockedSince := some 0 })] ∧ freeSaveSlot (roomless 1) 0 = some 0 ∧
    (getInv (after (.invocationRunnable 2) (roomless 1)) 1).map (fun v => (v.state, v.slot)) = some (.switching, some 0) ∧
    (getCore (after (.invocationRunnable 2) (roomless 1)) 0).phase = .boundary ∧
    freeSaveSlot (roomless 0) 0 = none ∧ (after (.invocationRunnable 2) (roomless 0)).log ≠ base.log := by decide +kernel

/-- A receipt due, with what port 1 has delivered for its invocation. -/
def due (f : QueueState → QueueState) (other : List HostWrite) : State := updGk (queue0 (fun x => f { x with due := [okReceipt], openCount := 1 })) 1 (fun k =>
  { k with link := .up, host := some 0, unflushed := other, seq := 4 })
theorem test_receipt_out : portFor (due id []) 0 0 = some 0 ∧ receiptPlace (due id []) 0 0 = (0, 0) ∧ unflushedPorts (due id []) 1 0 = [] ∧
    (ctr (.receiptWrite 0) (due id [])).inFlight = some (okReceipt, 0) ∧
    (ctr (.receiptWrite 0) (due (fun x => { x with fastMode := true }) [{ write1 2 with invocation := 1 }])).inFlight = some (okReceipt, 0) := by decide +kernel
theorem test_receipt_flush : unflushedPorts (due id [{ write1 2 with invocation := 1 }]) 1 0 = [1] ∧
    (getGk (after (.receiptWrite 0) (due id [{ write1 2 with invocation := 1 }])) 1).flushes = [4] := by decide +kernel
theorem test_receipt_lands : (ctr (.receiptWrite 0) flying).rqTail = 1 ∧ (ctr (.receiptWrite 0) flying).openCount = 0 ∧
    ((after (.receiptWrite 0) flying).host.delivered.map (fun w => (w.1, w.2.addr, w.2.bytes))) = [(0, 0, receiptBytes okReceipt 0 16)] ∧
    (after (.receiptWrite 0) flying).host.raised = [(0, some 0)] := by decide +kernel
theorem test_receipt_spills : (ctr (.receiptWrite 0) { due (fun x => { x with spill := [false], spillTotal := 1 }) [] with
      host := { (due (fun x => { x with spill := [false] }) []).host with spillBase := 0x100000 } }).spill = [false, true] := by decide +kernel
theorem test_receipt_none : exec (.receiptWrite 0) (queue0 id) = .next (queue0 id) := rfl

/-! ### The Courier ring -/

/-- Position 1 on a ring of three modules, with ring A's ports up, and a manager at position 0. -/
def ringed (s : State) : State :=
  { s with courier := { s.courier with
      ports := [(0, { crPortReset with link := .up, lanes := 8 }), (1, { crPortReset with link := .up, lanes := 8 })]
      switches := [(0, { crSwitchReset with pos := 2, hold := true })]
      position := some 1, present := [0, 2], places := [some 0, some 1, some 2], lastBeat := 999500000 } }
def ring : State := ringed base
def port0 (f : CrPort → CrPort) : State := updCr ring 0 f
def crAfter (c : Instr) (s : State) : CrLink × Nat × Bool × Nat := let x := getCr (after c s) 0; (x.link, x.lanes, x.full, x.retrains.toNat)
theorem test_courier_replay : (getCr (after (.courierReplay 0) ring) 0).replays = 1 ∧ (getCr (after (.timeExchange 0 700) ring) 0).hopDelay = 700 ∧
    crAfter (.courierRetrain 0) ring = (.retraining, 8, false, 1) ∧ (getCr (after (.courierRetrain 0) ring) 0).moved = true := by decide +kernel
def retraining (full : Bool) : State := port0 (fun x => { x with link := .retraining, full := full, moved := true })
theorem test_courier_retrained : crAfter (.courierRetrainDone 0 .half4) (retraining false) = (.up, 8, false, 0) ∧
    crAfter (.courierRetrainDone 0 .full8) (retraining true) = (.up, 8, true, 0) ∧ crAfter (.courierRetrainDone 0 .half4) (retraining true) = (.up, 4, true, 0) ∧
    crAfter (.courierRetrainDone 0 .failed) (retraining false) = (.retraining, 8, true, 1) := by decide +kernel
theorem test_courier_down : crAfter (.courierRetrainDone 0 .failed) (retraining true) = (.down, 0, true, 0) ∧ linkPlace (retraining true) 0 = some 1 ∧
    (after (.courierRetrainDone 0 .failed) (retraining true)).courier.down = [(1, 0)] ∧
    ((after (.courierRetrainDone 0 .failed) (retraining true)).courier.store.map (·.msg.dst)) = [0, 2] := by decide +kernel
def trainingPort : State := setIsl (port0 (fun x => { x with link := .training })) (islOfCourier 0) { islandReset with power := 2 }
theorem test_courier_link_up : crAfter (.courierLinkUp 0 2 3 true) trainingPort = (.up, 4, false, 0) ∧
    (getCr (after (.courierLinkUp 0 2 3 true) trainingPort) 0).neighbour = some 2 ∧ crAfter (.courierLinkUp 0 2 4 false) trainingPort = (.down, 8, false, 0) := by decide +kernel
def switching (hold : Bool) : State := setSw ring 0 { crSwitchReset with pos := 1, hold := hold, moves := 0xFFFF }
theorem test_switch_settles : getSw (after (.bypassSwitchSettle 0) (switching true)) 0 = { pos := 2, hold := true, moves := 0xFFFF } ∧
    (getCr (after (.bypassSwitchSettle 0) (switching true)) 0).link = .training ∧ (getSw (after (.bypassSwitchSettle 0) (switching false)) 0).pos = 0 ∧
    (getCr (after (.bypassSwitchSettle 0) (switching false)) 0).link = .dark ∧ (getCr (after (.bypassSwitchSettle 1) (setSw ring 1 { crSwitchReset with pos := 1, hold := true })) 2).link =
      .disabled := by decide +kernel

def msgHead (seq : Word) : CrHead := { port := 0, src := 2, cls := 1, seq := seq }
/-- The ring on a module with HBM, a window over 4 KiB of it for position 2, and a group of positions 1 and 2 at its base. -/
def exported : State :=
  let s := ringed (atStack [])
  { s with courier := { s.courier with
      windows := [(0, { base := 0, length := 0x1000, read := true, write := true, atomic := true, sources := 4 })]
      groups := [(5, { handoff := false, cls := 1, context := 3, source := 1, members := 6, base := 0, row := 64, rows := 2, sem := 7 })] } }
theorem test_peer_order : arrives exported (msgHead 2) = true ∧ after (.read (msgHead 2) 0 4 ⟨[], .clean⟩) exported = exported ∧
    after (.read (msgHead 0) 0 4 ⟨[], .clean⟩) exported = exported ∧ after (.read (msgHead 0x80000000) 0 4 ⟨[], .clean⟩) exported = exported ∧
    after (.write (msgHead 2) 0 [] ⟨[], .clean⟩) exported = exported ∧ after (.write (msgHead 0) 0 [] ⟨[], .clean⟩) exported = (ackMsg (msgHead 0) exported) :=
  by decide +kernel
theorem test_peer_read : windowOk exported 2 0xFFC 4 (·.read) = true ∧ windowOk exported 2 0xFFD 4 (·.read) = false ∧ windowOk exported 0 0 4 (·.read) = false ∧
    rangeOffline exported 0x100 4 = false ∧
    ((after (.read (msgHead 1) 0x100 4 ⟨[], .clean⟩) exported).courier.store.map (fun e => (e.msg.type, e.msg.dst, e.msg.payload))) = [(crReadData, 2, clean [5, 6, 7, 8])] ∧
    (after (.read (msgHead 1) 0xFFD 4 ⟨[], .clean⟩) exported).courier.store = [] ∧ (after (.read (msgHead 1) 0xFFD 4 ⟨[], .clean⟩) exported).log ≠ exported.log := by decide +kernel
theorem test_peer_write : memBytes (after (.write (msgHead 1) 0x100 (clean [1, 2]) ⟨[], .clean⟩) exported) 0x100 4 = [1, 2, 7, 8] := by decide +kernel
theorem test_peer_offline : rangeOffline (setMc exported 0 { mcReset with train := 3 }) 0x100 4 = true ∧
    memBytes (after (.write (msgHead 1) 0x100 (clean [1, 2]) ⟨[], .clean⟩) (setMc exported 0 { mcReset with train := 3 })) 0x100 4 = [5, 6, 7, 8] := by decide +kernel
/-- A message that came over an uplink is refused, and its duplicate in the same way. -/
theorem test_peer_uplink : peerGranted exported { msgHead 1 with port := 4 } 0x100 4 (·.read) = false ∧
    (tabGet [] (after (.read (msgHead 1) 0xFFD 4 ⟨[], .clean⟩) exported).courier.turned (inPoint (msgHead 1))) = [(1, 1)] ∧
    after (.read (msgHead 1) 0x100 4 ⟨[], .clean⟩) (after (.read (msgHead 1) 0xFFD 4 ⟨[], .clean⟩) exported) =
      nackMsg (msgHead 1) 1 (after (.read (msgHead 1) 0xFFD 4 ⟨[], .clean⟩) exported) := by decide +kernel
/-- With earlier accesses to the lines waiting at the stop. -/
def busyHbm (a : Nat) : State := { exported with mc := (atStack [{ arrived .write with addr := a }]).mc }
theorem test_peer_turn : hbmReady exported 1 0x100 4 = true ∧ hbmReady (busyHbm 0x100) 1 0x100 4 = false ∧ hbmReady (busyHbm 64) 1 64 2 = false ∧
    after (.write (msgHead 1) 0x100 (clean [1, 2]) ⟨[], .clean⟩) (busyHbm 0x100) = busyHbm 0x100 ∧
    after (.gather (msgHead 1) 5 64 (clean [1, 2]) true) (busyHbm 64) = busyHbm 64 := by decide +kernel
theorem test_peer_tags : (tagCheck 0 (.bothLost 0 0) (hbmTurn 1 0x100 4 exported)).2 = true ∧ (tagCheck 0 .clean (hbmTurn 1 0x100 4 exported)).2 = false ∧
    (after (.read (msgHead 1) 0x100 4 ⟨[], (.bothLost 0 0)⟩) exported).mode = .faulted := by decide +kernel
/-- An atomic of an engine leaves for the peer that its segment names. -/
def atomicOut : State := withSeg exported { seg0 with dbase := peerBase + 2 * peerSlot, home := .peer }
theorem test_atomic_out : placeFault atomicOut (peerBase + 2 * peerSlot) 4 = none ∧ modPosition atomicOut = some 1 ∧
    ((after (atomicBy 0) atomicOut).courier.store.map (fun e => (e.msg.type, e.msg.dst))) = [(crAtomic, 2)] := by decide +kernel
theorem test_peer_atomic : memBytes (after (.atomic (msgHead 1) .add ⟨0x100, [], .clean⟩ false 1 0) exported) 0x100 4 = [6, 6, 7, 8] ∧
    oldValue (after (.atomic (msgHead 1) .add ⟨0x100, [], .clean⟩ false 1 0) exported) (inPoint (msgHead 1)) 1 = some (0x08070605, false) ∧
    memBytes (after (.atomic (msgHead 1) .add ⟨0x100, [], .clean⟩ false 1 0) (after (.atomic (msgHead 1) .add ⟨0x100, [], .clean⟩ false 1 0) exported)) 0x100 4 = [6, 6, 7, 8] := by decide +kernel
theorem test_group : travelDir ((tabFind exported.courier.groups 5).getD { handoff := false, cls := 0, context := 0, source := 0, members := 0, base := 0, row := 0, rows := 0, sem := 0 })
      (msgHead 1) = 1 ∧ groupBad exported (tabFind exported.courier.groups 5) (msgHead 1) 64 2 true = false ∧ groupBad exported (tabFind exported.courier.groups 5) (msgHead 1) 0 2 true = true ∧
    memBytes (after (.gather (msgHead 1) 5 64 (clean [1, 2]) true) exported) 64 2 = [1, 2] ∧ (getSem (after (.gather (msgHead 1) 5 64 (clean [1, 2]) true) exported) (65536 + 7)).value = 1 ∧
    memBytes (after (.gather (msgHead 1) 5 0 (clean [1, 2]) true) exported) 0 2 = [0, 0] := by decide +kernel

/-- A remote write of transfer 0 that waits for position 2. -/
def kept (type : Nat) (waits : List Nat) (piece : Option (Nat × Nat)) : CrStored :=
  { msg := { type := type, cls := 1, src := 1, dst := 2, seq := 4, tag := 3, payload := clean [1, 2, 3, 4], up := false }, flow := flowPoint 2 1 false, dir := none,
    first := 900000000, last := 999980000, waits := waits, piece := piece }
def awaiting (e : CrStored) : State :=
  let s := ringed (network (sending .write peerBase) [])
  { updPiece s 0 0 (fun p => { p with state := .sent }) with courier := { s.courier with store := [e], out := [(flowPoint 2 1 false, 4)] } }
theorem test_ack : findStored (awaiting (kept crWrite [2] (some (0, 0)))) (msgHead 9) (.point 1) 4 = some (kept crWrite [2] (some (0, 0))) ∧
    (after (.ack (msgHead 9) (.point 1) 4 0) (awaiting (kept crWrite [2] (some (0, 0))))).courier.store = [] ∧
    pieceIn (after (.ack (msgHead 9) (.point 1) 4 0) (awaiting (kept crWrite [2] (some (0, 0))))) = some .landed ∧
    (after (.ack (msgHead 9) (.point 1) 4 0) (awaiting (kept crGather [0, 2] none))).courier.store = [kept crGather [0] none] ∧
    (getQ (after (.ack (msgHead 9) (.point 1) 4 0) (awaiting (kept crStepReceipt [2] none))) 3).rqHead = 1 := by decide +kernel
theorem test_nack : ((after (.nack (msgHead 9) (.point 1) 4 2) (awaiting (kept crStep [2] none))).courier.store.map (·.msg.seq)) = [5] ∧
    (after (.nack (msgHead 9) (.point 1) 4 4) (awaiting (kept crGather [2] none))).courier.store = [] ∧
    pieceIn (after (.nack (msgHead 9) (.point 1) 4 1) (awaiting (kept crWrite [2] (some (0, 0))))) = some .ended := by decide +kernel
theorem test_read_data : pieceIn (after (.readData (msgHead 1) 3 (clean [1])) (awaiting { kept crRead [2] (some (0, 0)) with
      msg := { (kept crRead [2] none).msg with tag := 3 + 1 * 2 ^ 48 } })) = some .landed := by decide +kernel
theorem test_resend : ((after (.courierResend 0) (awaiting (kept crWrite [2] none))).courier.store.map (·.last)) = [1000000000] ∧
    portTo (awaiting (kept crWrite [2] none)) 2 none = some 0 ∧ (after (.courierResend 0) (awaiting (kept crWrite [2] none))).courier.sent = [(0, (kept crWrite [2] none).msg)] ∧
    exec (.courierResend 0) (awaiting { kept crWrite [2] none with last := 999980001 }) = .next (awaiting { kept crWrite [2] none with last := 999980001 }) :=
  ⟨by decide +kernel, by decide +kernel, by decide +kernel, rfl⟩
theorem test_peer_lost : (after (.courierPeerLost 2) (awaiting (kept crWrite [2] none))).courier.present = [0] ∧
    (after (.courierPeerLost 2) (awaiting (kept crWrite [2] none))).courier.store = [] ∧
    (after (.courierPeerLost 2) (awaiting { kept crWrite [2] none with first := 900000001 })).courier.present = [0, 2] := by decide +kernel

/-! ### Ring control, steps and Carrier data -/

def joining : JoinInfo :=
  { place := 3, serial := 77, poolBase := 0, poolSlots := 0, capacity := 4, queueCount := 0, firstQueue := 0, standby := true, share := 0 }
def manager : State := { base with
  blend := { base.blend with cur := { plan0 with role := { plan0.role with manager := true } } }
  courier := { ring.courier with position := some 0, serials := [(55, 1), (66, 2)] } }
theorem test_join : freePosition manager.courier = some 3 ∧ (tabFind (after (.join (msgHead 1) 0 joining) manager).courier.joins 3).map (·.capacity) = some 4 ∧
    (after (.join (msgHead 1) 0 joining) manager).courier.places = [some 0, some 1, some 2, some 3] ∧
    (tabFind (after (.join (msgHead 1) 0 { joining with serial := 66 }) manager).courier.joins 2).map (·.serial) = some 66 := by decide +kernel
theorem test_assign : (after (.assign { msgHead 1 with src := 0 } 2 5 9) base).courier.position = some 9 ∧ (after (.assign { msgHead 1 with src := 0 } 2 5 9) base).courier.ringNo = 5 ∧
    (after (.assign { msgHead 1 with src := 0 } 2 5 9) base).courier.epoch = 2 ∧ (getSw (after (.assign { msgHead 1 with src := 0 } 2 5 9) base) 0).hold = true := by decide +kernel
theorem test_heartbeat : (after (.heartbeat { msgHead 1 with port := 1 } 2) ring).courier.lastBeat = 1000000000 ∧ portCarries ring 0 = true ∧
    ((after (.heartbeat { msgHead 1 with port := 1 } 2) ring).courier.sent.map (fun e => (e.1, e.2.tag % 256))) = [(0, 3)] ∧
    (after (.heartbeat { msgHead 1 with port := 1 } 0) manager).courier.sent = [] ∧
    ((after .heartbeatSend manager).courier.sent.map (fun e => (e.1, e.2.tag % 256))) = [(0, 3), (0, 4)] ∧ (after .heartbeatSend manager).courier.beatSent = 1000000000 := by decide +kernel
theorem test_time : (after (.time (msgHead 1) 0 1000001001) base).devTime = 1000001001 ∧ (after (.time (msgHead 1) 0 1000001000) base).courier.slew = 1000 ∧
    (after (.time (msgHead 1) 0 1000001001) ring).courier.slew = 1001 ∧ (after (.time (msgHead 1) 0 999999999) base).courier.timeOffset = 1 := by decide +kernel
theorem test_heartbeat_halted : exec .heartbeatSend (carrierHalted manager) = .next (carrierHalted manager) := rfl
/-- A manager takes its time from a lower ring over its uplink only. -/
def upManager : State := { manager with courier := { manager.courier with ringNo := 3 } }
theorem test_time_manager : exec (.time (msgHead 1) 0 1000001001) upManager = .next upManager ∧
    exec (.time { msgHead 1 with port := 4, src := 3 } 0 1000001001) upManager = .next upManager ∧
    (after (.time { msgHead 1 with port := 4 } 0 1000000500) upManager).courier.slew = 500 := ⟨rfl, rfl, by decide +kernel⟩
theorem test_link_notice : (after (.linkNotice (msgHead 1) 0 none (some (1, 0, false))) ring).courier.down = [(1, 0)] ∧
    (after (.linkNotice (msgHead 1) 0 (some [some 0, none, some 1]) none) ring).courier.places = [some 0, none, some 1] ∧
    after (.linkNotice (msgHead 1) 0 none none) { ring with courier := { ring.courier with epoch := 1 } } =
      turnAway (inPoint (msgHead 1)) (msgHead 1) 3 { ring with courier := { ring.courier with epoch := 1, inn := [(9, 1)] } } := by decide +kernel
theorem test_announce : (after (.announce (msgHead 1) 3) ring).courier.managerPos = 2 ∧ (after (.announce (msgHead 1) 3) ring).courier.store.length = 1 ∧
    (after (.announce (msgHead 1) 3) ring).courier.epoch = 3 := by decide +kernel
theorem test_drain_ring : (getCr (after (.drainRing (msgHead 1) 0 0) ring) 0).moved = true ∧ (getCr (after (.drainRing { msgHead 1 with port := 1 } 0 0) ring) 1).moved = true := by
  decide +kernel
theorem test_manager_lost : (after .managerLost { ring with devTime := 1000500000 }).courier.managerLost = true ∧
    exec .managerLost { ring with devTime := 1000499999 } = .next { ring with devTime := 1000499999 } := ⟨by decide +kernel, rfl⟩

/-- Queue 0 ring-fed, with room for one more step. -/
def feeding (steps : List StepSeen) (tail : Nat) : State :=
  let s := ringed (queue0 (fun x => { x with ringFed := true, sqTail := tail }))
  { s with courier := { s.courier with steps := steps } }
def seen (r : Option (List Byte)) : StepSeen := { id := 8, queue := 0, index := 0, receipt := r }
def stepOf (c : CrHead) (epoch : Word) : Instr := .step c 0 epoch 8 invoke []
theorem test_step_taken : receiptRoom (feeding [] 15) 0 = true ∧ (getQ (after (stepOf (msgHead 1) 0) (feeding [] 15)) 0).sqTail = 16 ∧
    (after (stepOf (msgHead 1) 0) (feeding [] 15)).courier.steps = [{ id := 8, queue := 0, index := 15, receipt := none }] ∧
    (getQ (after (stepOf (msgHead 1) 0) (feeding [] 16)) 0).sqTail = 16 := by decide +kernel
theorem test_step_seen : (after (stepOf (msgHead 1) 0) (feeding [seen none] 1)).qs = (feeding [seen none] 1).qs ∧
    ((after (stepOf (msgHead 1) 0) (feeding [seen (some [9])] 1)).courier.store.map (fun e => (e.msg.type, e.msg.dst))) = [(crStepReceipt, 0)] := by decide +kernel
theorem test_routed : (after (.routed (msgHead 1) false 0 1 [3]) ring).courier.inbox = [(2, [3])] ∧
    ((after (.routed (msgHead 1) false 0 2 [3]) manager).courier.store.map (·.msg.dst)) = [2] ∧ ((after (.routed (msgHead 1) true 6 2 [3]) manager).courier.store.map (·.msg.dst)) = [6] ∧
    ((after (.routed (msgHead 1) false 6 2 [3]) ring).courier.store.map (·.msg.dst)) = [0] := by decide +kernel
def logged : State :=
  { ring with log := { ring.log with next := 7, mirrorSeq := 3, slots := [(5, { seq := 5, entry := { postmark := 0, event := .managerLost, source := 0, count := 1, data := [] } })] } }
theorem test_log_mirror : storeRoom logged = true ∧ (nextMirror logged.log 3).map (·.1) = some 5 ∧ (after .logMirrorSend logged).log.mirrorSeq = 6 ∧
    ((after .logMirrorSend logged).courier.store.map (fun e => (e.msg.type, e.msg.dst))) = [(crRouted, 0)] := by decide +kernel

/-! ### The manager's tables -/

/-- A manager at position 0 with its tables at 0x10000 and worker 1 joined with one queue. -/
def managed : State :=
  let s := atStack []
  { s with
    blend := { s.blend with cur := { plan0 with role := { plan0.role with manager := true, sessionLimit := 2, prefixNodes := 2, tableBase := 0x10000, tableSize := 0x2000 } } }
    courier := { ring.courier with
      position := some 0, present := [1]
      joins := [(1, { serial := 77, poolBase := 0, poolSlots := 1, capacity := 2, queueCount := 1, firstQueue := 7, standby := false, share := 0 })] } }
def session (state length lastStep : Nat) : Session :=
  { state := state, worker := 1, cls := 2, ended := 0, nspace := 0, nMax := 9, length := length, region := 0x200000, chainNode := noNode, chainLen := 0, context := 3,
    lastStep := lastStep, windowLo := 0, token := 55, admitted := 1000000000, promptLen := 1, matched := 0, tiles := 1 }
def withSession (i : Nat) (x : Session) (s : State) : State := memWrite s (sessionAddr s i) (clean (sessionBytes i x))
def sessionAfter (c : Instr) (s : State) (i : Nat) : List Byte := memBytes (after c s) (sessionAddr s i) 76
def admission : Admission := { session := 1, nspace := 0, cls := 2, context := 3, prompt := [5], nMax := 9, worker := 1, region := 0x200000, windowLo := 0 }
theorem test_session_in_dram (i : Nat) (h : i < 2) : InDram managed (sessionAddr managed i) 128 := by
  intro l h1 h2
  have e : sessionAddr managed i = 69632 + 128 * i := by simp [sessionAddr, managed]
  rw [e] at h1 h2
  obtain rfl : l = 272 := by omega
  decide +kernel
theorem test_admit : managing managed = true ∧ mirrored managed = true ∧ (getSession managed 1).state = 0 ∧
    sessionAfter (.sessionAdmit admission) managed 1 = sessionBytes 1 { session 1 0 0 with token := 0 } := by decide +kernel
theorem test_admit_region : regionTiles 9 0 = 1 ∧ regionFree managed 1 3 0x200000 1 = true ∧ regionFree managed 1 3 0x200000 0 = true ∧
    regionFree (withSession 0 (session 2 1 0) managed) 1 3 0x200000 1 = false ∧
    after (.sessionAdmit admission) (withSession 0 (session 2 1 0) managed) = withSession 0 (session 2 1 0) managed ∧
    sessionAfter (.sessionAdmit { admission with windowLo := 4 }) managed 1 = sessionBytes 1 { session 1 0 0 with token := 0, windowLo := 4 } := by decide +kernel
theorem test_admit_taken : sessionAfter (.sessionAdmit admission) (withSession 1 (session 2 1 0) managed) 1 = sessionBytes 1 (session 2 1 0) := by decide +kernel
def ready : State := withSession 0 (session 1 0 0) (withSession 1 (session 2 8 0) managed)
theorem test_step_build : stepReady ready 1 0 = true ∧ stepReady ready 1 1 = true ∧ stepReady (withSession 1 (session 2 9 0) managed) 1 1 = false ∧
    ((after (.stepBatchBuild 1 7 8 [0, 1] [9] []) ready).courier.store.map (fun e => (e.msg.type, e.msg.dst, e.msg.payload.length))) = [(crStep, 1, 72)] ∧
    (tabFind (after (.stepBatchBuild 1 7 8 [0, 1] [9] []) ready).courier.tables 8).map (·.1) = some 1 ∧
    sessionAfter (.stepBatchBuild 1 7 8 [0, 1] [9] []) ready 1 = sessionBytes 1 (session 3 8 8) := by decide +kernel
/-- The standby at position 2 keeps a copy of the tables, through group 3. -/
def shadowed (s : State) : State :=
  { s with courier := { s.courier with present := [1, 2]
                                       groups := [(3, { handoff := true, cls := 1, context := 0, source := 0, members := 4, base := 0x10000, row := 128, rows := 64, sem := 0xFFFF })] } }
def holding : State := after (.stepBatchBuild 1 7 8 [1] [9] []) (shadowed ready)
theorem test_step_held : mirrored (shadowed ready) = true ∧ mirrored holding = false ∧
    (holding.courier.heldSteps.map (fun h => (h.1, h.2.1, h.2.2.1, h.2.2.2.length))) = [(1, 2, 7, 72)] ∧
    (holding.courier.store.map (·.msg.type)).contains crStep = false := by decide +kernel
/-- A step waits for the last answer of the standby. -/
def lastWrite (e : CrStored) : State :=
  { shadowed ready with courier := { (shadowed ready).courier with heldSteps := [(1, 2, 7, clean [9])], store := [e] } }
theorem test_held_go : findStored (lastWrite (kept crGather [2] none)) (msgHead 9) (.point 1) 4 = some (kept crGather [2] none) ∧
    mirrored (lastWrite (kept crGather [2] none)) = false ∧
    ((after (.ack (msgHead 9) (.point 1) 4 0) (lastWrite (kept crGather [2] none))).courier.store.map (fun e => (e.msg.type, e.msg.cls, e.msg.dst, e.msg.tag))) = [(crStep, 2, 1, 7)] ∧
    (after (.ack (msgHead 9) (.point 1) 4 0) (lastWrite (kept crGather [2] none))).courier.heldSteps = [] ∧
    (after (.ack (msgHead 9) (.point 1) 4 0) (lastWrite (kept crGather [1, 2] none))).courier.heldSteps = [(1, 2, 7, clean [9])] := by decide +kernel
theorem test_join_recorded : memBytes (after (.join (msgHead 1) 0 { joining with serial := 88 }) managed) (headerEntry managed 1) 9 = leBytes 8 88 ++ [1] ∧
    (tabFind (after (.join (msgHead 1) 0 { joining with serial := 88 }) managed).courier.joins 1).map (·.serial) = some 88 := by decide +kernel
theorem test_receipt_held : receiptHeld { ring with courier := { ring.courier with managerLost := true, managerPos := 2 } } (kept crStepReceipt [2] none) = true ∧
    receiptHeld ring (kept crStepReceipt [2] none) = false := by decide +kernel
def stepped : State :=
  let s := withSession 0 (session 3 7 8) (withSession 1 (session 3 8 8) managed)
  { s with courier := { s.courier with tables := [(8, 1, [], [])] } }
def result : List StepResult := [{ session := 0, token := 66, windowLo := none, ended := 0 }, { session := 1, token := 66, windowLo := none, ended := 0 }]
theorem test_step_receipt : sessionAfter (.stepReceipt { msgHead 1 with src := 1 } 7 0 8 [0] result) stepped 0 = sessionBytes 0 { session 2 8 8 with token := 66 } ∧
    sessionAfter (.stepReceipt { msgHead 1 with src := 1 } 7 0 8 [0] result) stepped 1 = sessionBytes 1 { session 0 9 8 with token := 66, ended := 1 } ∧
    (after (.stepReceipt { msgHead 1 with src := 1 } 7 0 8 [0] result) stepped).courier.tables = [] ∧ earlyEnd [0] = none := by decide +kernel
def node : Node := { hash := 1, parent := noNode, depth := 1, state := 2, home := 1, refs := 0, children := 0, slot := 0, lastUse := 0, nspace := 0 }
def noded : State := memWrite managed (nodeAddr managed 1) (clean (nodeBytes node))
theorem test_step_receipt_window : sessionAfter (.stepReceipt { msgHead 1 with src := 1 } 7 0 8 [0] [{ session := 0, token := 66, windowLo := some 3, ended := 0 }]) stepped 0 =
    sessionBytes 0 { session 2 8 8 with token := 66, windowLo := 3 } := by decide +kernel
theorem test_node_bad : getNode noded 1 = node ∧ getNode (after (.prefixNodeBadReport 1 0) noded) 1 = { node with state := 3 } ∧
    getNode (after (.prefixNodeBadReport 1 4) noded) 1 = node := by decide +kernel

/-! ### Islands, the planner and the log -/

def isle (f : Island → Island) : State := setIsl base 0 (f { islandReset with power := 2, vCode := 0x40 })
def isleAfter (c : Instr) (s : State) : Island := getIsl (after c s) 0
def alarmTo (f : Island → Island) : Nat × Nat × Bool := let i := isleAfter (.slackAlarm 0) (isle f); (i.target, i.vCode, i.faulty)
theorem test_clock_step : (isleAfter (.islClockStep 0) (isle (fun i => { i with target := 0x31, lastStep := 999999900 }))).current = 0x31 ∧
    (isleAfter (.islClockStep 0) (isle (fun i => { i with target := 0x31, lastStep := 999999901 }))).current = 0x30 ∧
    (isleAfter (.islClockStep 0) (isle (fun i => { i with target := 0x2F }))).current = 0x2F := by decide +kernel
theorem test_clock_hot : (isleAfter (.islClockStep 0) (isle (fun i => { i with tempC := 100, lastStep := 999990000 }))).current = 0x2F ∧
    (isleAfter (.islClockStep 0) (isle (fun i => { i with tempC := 100, lastStep := 999990001 }))).current = 0x30 ∧
    (isleAfter (.islClockStep 0) (isle (fun i => { i with tempC := 104, floor := 0x30 }))).current = 0x30 ∧
    (isleAfter (.islClockStep 0) (isle (fun i => { i with tempC := 105, floor := 0x30 }))).current = 0x2F := by decide +kernel
theorem test_clock_cooled : (isleAfter (.islClockStep 0) (isle (fun i => { i with current := 0x2F, throttled := true, tempC := 96, lastStep := 999000000 }))) =
      { islandReset with power := 2, vCode := 0x40, lastStep := 1000000000, tempC := 96, ticks := 47 * 4000000000, ticksAt := 4000000000 } ∧
    (isleAfter (.islClockStep 0) (isle (fun i => { i with current := 0x2F, throttled := true, tempC := 97, lastStep := 999000000 }))).current = 0x2F := by decide +kernel
theorem test_slack_alarm : alarmTo id = (0x2F, 0x40, false) ∧ alarmTo (fun i => { i with target := 0x18 }) = (0x18, 0x41, false) ∧
    alarmTo (fun i => { i with target := 0x30, floor := 0x30, vCode := 0x46, alarmTimes := [5] }) = (0x30, 0x46, false) ∧
    alarmTo (fun i => { i with target := 0x30, floor := 0x30, vCode := 0x46, alarmTimes := [5, 6] }) = (0x30, 0x46, true) := by decide +kernel
def slackRead (v : Fin 71) (slack : Fin 256) : IslandReading :=
  { island := 0, slack := slack, roDelta := 0, headroom := 300, belowGoal := false, vCode := v, fCode := 0x30 }
def checking (f : Island → Island) : State := isle (fun i => f { i with check := some (0x46, 0x18) })
def checkEnd (pass : Bool) (f : Island → Island) : Nat × Bool × Bool :=
  let i := isleAfter (.slackCheckDone 0 pass (slackRead 0x40 30)) (checking f); (i.vCode, i.faulty, i.check.isSome)
theorem test_check_done : checkEnd true id = (0x46, false, false) ∧ checkEnd false id = (0x40, true, false) ∧ checkEnd true (fun i => { i with checkVoid := true }) =
    (0x40, false, true) := by decide +kernel

def planned (last : Nat) : State := { isle id with plan := { base.plan with lastRun := some 0 }, devTime := last }
theorem test_daily_run : (after (.plannerDailyRun []) (planned 86400000000000)).plan.running = true ∧ (after (.plannerDailyRun []) (planned 86399999999999)).plan.running = false ∧
    (after (.planCtrlRun (.host 0) 0x68 []) (planned 3600000000000)).plan.goalNow = 0x68 ∧
    (after (.planCtrlRun (.host 0) 0x48 []) (planned 3599999999999)).plan.goal = 0x48 ∧ (after (.planCtrlRun (.host 0) 0x69 []) (planned 3599999999999)).plan = (planned 1).plan ∧
    (after (.planCtrlRun (.host 0) 0x48 []) (planned 3599999999999)).plan.running = false := by decide +kernel
def fast : State := { planned 86400000000000 with isl := [(0, { islandReset with power := 2, vCode := 0x40, target := 0x60 })] }
theorem test_daily_moves : readPoint (beginRun 1 fast) (slackRead 0x42 23) = (0x42, base.plan.goal) ∧ (liveIsls fast).contains 0 = true ∧
    moreSlack (getIsl fast 0) 0x42 base.plan.goal = decide (base.plan.goal ≤ 0x60) := by decide +kernel
theorem test_daily_point : base.plan.goal ≤ 0x60 ∧ (getIsl (after (.plannerDailyRun [slackRead 0x42 23]) fast) 0).vCode = 0x42 ∧
    (getIsl (after (.plannerDailyRun [slackRead 0x42 24]) fast) 0).vCode = 0x40 := by decide +kernel
def runningPlan : State := { isle id with plan := { base.plan with running := true, runKind := 1, runNo := 2929 } }
theorem test_run_done : movableIsls.all (fun m => (getIsl runningPlan m).check.isNone) = true ∧ (after .plannerRunDone runningPlan).plan.running = false ∧
    (tabFind (after .plannerRunDone runningPlan).pm.record.runs 1).map (·.run) = some 2929 := by decide +kernel
theorem test_hour : (after .powerOnHour { base with devTime := 3600000000000 }).plan.hours = 1 ∧
    (after .powerOnHour { base with devTime := 3600000000000 }).pm.record.headerA.map (·.hours) = some 1 ∧
    after .powerOnHour { base with devTime := 3599999999999 } = { base with devTime := 3599999999999 } := by decide +kernel

def scrubbed (e : EccOutcome) (f : Island → Island) : State := after (.scratchpadScrub 0 (.scrub e)) (isle f)
theorem test_scrub : (getIsl (scrubbed .clean (fun i => { i with scrubWord := 524287 })) 0).scrubWord = 0 ∧ (getIsl (scrubbed .corrected id) 0).eccCorrected = 1 ∧
    memPoison (scrubbed .uncorrectable (fun i => { i with scrubWord := 8 })) (scratchKey 0 64) = true ∧
    (getIsl (scrubbed .uncorrectable (fun i => { i with eccErrors := [(5, 8)] })) 0).faulty = true ∧
    (getIsl (scrubbed .uncorrectable (fun i => { i with eccErrors := [(5, 0)] })) 0).faulty = false ∧
    exec (.scratchpadScrub 0 (.scrub .clean)) base = .next base := ⟨by decide +kernel, by decide +kernel, by decide +kernel, by decide +kernel, by decide +kernel, rfl⟩
theorem test_word : memPoison (after (.scratchpadScrub 0 (.word 8 .uncorrectable)) (isle id)) (scratchKey 0 64) = true ∧
    (isleAfter (.scratchpadScrub 0 (.word 8 .uncorrectable)) (isle id)).scrubWord = 0 := by decide +kernel
def semsOn : State := setSem (setIsl base 106 { islandReset with power := 2, vCode := 0x40 }) 9 { value := 5, waiters := [] }
theorem test_sem_lost : semIsland 9 = 106 ∧ (getSem (after (.scratchpadScrub 0 (.semaphore 9 .uncorrectable)) semsOn) 9).value = 0 := by decide +kernel
theorem test_control_lost : (after (.scratchpadScrub 0 (.control 1 true)) base).mode = .faulted ∧ (after (.scratchpadScrub 0 (.control 1 true)) base).pm.fault = 4 ∧
    exec (.scratchpadScrub 0 (.control 1 false)) base = .next base := ⟨by decide +kernel, by decide +kernel, rfl⟩
def carried : State := { isle id with net := [packet (.core 0) (.stack 0) .request] }
theorem test_buffer_lost : ((after (.scratchpadScrub 0 (.buffer 0 0 0 0 .uncorrectable)) carried).net.map (·.data)) = [marked [1, 2, 3, 4]] := by decide +kernel
def entry (e : Event) : LogEntry := { postmark := 5, event := e, source := 3, count := 1, data := [1] }
def waitingLog (e : Event) : State := { base with log := { base.log with queues := [(3, [entry e])], next := 16384, irqSev := 2, vector := 9 } }
theorem test_log_write : tabFind (after (.logEntryWrite 3) (waitingLog .tileLate)).log.slots 0 = some { seq := 16384, entry := entry .tileLate } ∧
    (after (.logEntryWrite 3) (waitingLog .tileLate)).host.raised = [(9, none)] ∧ (after (.logEntryWrite 3) (waitingLog .gkRetrain)).host.raised = [] ∧
    (after (.logEntryWrite 3) (waitingLog .mscTagLost)).power.alertCritical = true ∧ (after (.logEntryWrite 3) (waitingLog .tileLate)).log.queues = [] := by decide +kernel
def interval (count : Nat) : LogInterval := { event := .tileLate, source := 3, endsAt := 1000000000, count := count, last := entry .tileLate }
def counting (count : Nat) : State := { base with log := { base.log with intervals := [interval count] } }
theorem test_interval_end : (after (.logIntervalEnd 3 0x302) (counting 0)).log = base.log ∧
    (after (.logIntervalEnd 3 0x302) (counting 4)).log.queues = [(3, [{ entry .tileLate with count := 4 }])] ∧
    exec (.logIntervalEnd 3 0x302) { counting 4 with devTime := 999999999 } = .next { counting 4 with devTime := 999999999 } :=
  ⟨by decide +kernel, by decide +kernel, rfl⟩
theorem test_limited : ((logLimited .tileLate 3 [] (counting 0xFFFF)).log.intervals.map (·.count)) = [0xFFFF] ∧ (logLimited .tileLate 3 [] (counting 0)).log.queues = [] ∧
    ((logLimited .tileLate 3 [] base).log.intervals.map (·.endsAt)) = [1001000000] ∧ (logLimited .tileLate 3 [] base).log.queues.length = 1 := by decide +kernel

/-! ### Blend loads and re-blends -/


/-- What a load answers. -/
def loadEnd (c : Instr) (s : State) : Nat × Nat := let r := slotEnd c s; (r.1, r.2.toNat)
/-- The module in a state, with a call that names an image of host 0. -/
def loadCall (m : ModState) (addr len : Nat) : State := called { base with mode := m, blend := { base.blend with reserve := some 0 } } [(0, leBytes 8 addr ++ leBytes 4 len)]
def loadOf (c : Instr) (s : State) : Option (LoadKind × LoadPhase × Nat × Bool) := (after c s).blend.load.map (fun l => (l.kind, l.phase, l.len, l.abortMode))
def anyLoad (kind : LoadKind) (phase : LoadPhase) (image : List Byte) : BlendLoad :=
  { newLoad kind 0 0 phase image 0 callSlotReset with len := image.length, next := plan0 }
theorem test_blend_load : CallAdmitted (loadCall .awaitBlend hostBase 0x1000000) (.host 0) 0 (loadRule 6 .awaitBlend) ∧
    loadOf (.blendLoad (.host 0) 0 false 0) (loadCall .awaitBlend hostBase 0x1000000) = some (.full, .copying, 0x1000000, false) ∧
    loadOf (.blendLoad (.host 0) 0 false 0) (loadCall .awaitBlend hostBase 30128) = some (.full, .copying, 30128, false) ∧
    loadEnd (.blendLoad (.host 0) 0 false 0) (loadCall .awaitBlend hostBase 0x1000001) = (2, loadCode 0x03 0) ∧
    loadEnd (.blendLoad (.host 0) 0 false 0) (loadCall .awaitBlend (hostBase + 32) 30128) = (2, loadCode pmBadArg 0) ∧
    loadEnd (.blendLoad (.host 0) 0 false 0) (setLoad (loadCall .awaitBlend hostBase 30128) (some (anyLoad .full .copying []))) = (2, loadCode 0x24 0) :=
  ⟨admitted _ _ _ _ (fun _ _ _ => rfl) (by decide +kernel), by decide +kernel, by decide +kernel, by decide +kernel, by decide +kernel, by decide +kernel⟩
theorem test_blend_stage : CallAdmitted (setMc (loadCall .serving hostBase 0x800000) 0 { mcReset with train := 1 }) (.host 0) 0 (loadRule 7 .serving) ∧
    reserveLost (setMc (loadCall .serving hostBase 0x800000) 0 { mcReset with train := 1 }) = false ∧
    loadOf (.blendStage (.host 0) 0 false 0) (setMc (loadCall .serving hostBase 0x800000) 0 { mcReset with train := 1 }) = some (.stage, .copying, 0x800000, false) ∧
    loadEnd (.blendStage (.host 0) 0 false 0) (loadCall .serving hostBase 0x800001) = (2, loadCode 0x03 0) :=
  ⟨admitted _ _ _ _ (fun _ _ _ => rfl) (by decide +kernel), by decide +kernel, by decide +kernel, by decide +kernel⟩
/-- A REBLEND call: source, mode, limit, address and length. -/
def reblendCall (source mode limit addr len : Nat) (staged : Bool) : State :=
  let s := called (setMc { base with blend := { base.blend with reserve := some 0, staged := if staged then some ([7], 5) else none } } 0 { mcReset with train := 1 })
    [(0, leBytes 1 source ++ leBytes 1 mode ++ [0, 0] ++ leBytes 4 limit ++ leBytes 8 addr ++ leBytes 4 len)]
  s
def reblendNow : Instr := .reblend (.host 0) 0 false 0
theorem reblend_admitted (s : State) (h : ownsSlot s (.host 0) 0 = true ∧ (getSlot s 0).state ≠ 1 ∧ callCheck s reblendRule (agentHost s (.host 0)) (getSlot s 0) = 0) :
    CallAdmitted s (.host 0) 0 reblendRule :=
  admitted s (.host 0) 0 reblendRule (fun x y e => by simp only [reblendRule, argAt, argBytes, e]) h
theorem test_reblend_host : CallAdmitted (reblendCall 0 1 0 hostBase 30128 false) (.host 0) 0 reblendRule ∧
    loadOf reblendNow (reblendCall 0 1 0 hostBase 30128 false) = some (.reblend, .copying, 30128, true) ∧
    loadEnd reblendNow (reblendCall 0 0 0 hostBase 30128 false) = (2, loadCode pmBadArg 0) ∧ loadEnd reblendNow (reblendCall 0 1 1 hostBase 30128 false) = (2, loadCode pmBadArg 0) :=
  ⟨reblend_admitted _ (by decide +kernel), by decide +kernel, by decide +kernel, by decide +kernel⟩
theorem test_reblend_staged : CallAdmitted (reblendCall 1 0 9 0 0 true) (.host 0) 0 reblendRule ∧ loadOf reblendNow (reblendCall 1 0 9 0 0 true) = some (.reblend, .validating, 1, false) ∧
    loadEnd reblendNow (reblendCall 1 0 9 0 0 false) = (2, loadCode 0x21 0) := ⟨reblend_admitted _ (by decide +kernel), by decide +kernel, by decide +kernel⟩

/-- A load in progress, whose call waits. -/
def loadingAs (m : ModState) (l : BlendLoad) (s : State) : State := setSlot (setLoad { s with mode := m } (some l)) 0 { callSlotReset with state := 1 }
def fullLoad (phase : LoadPhase) (image : List Byte) : State := loadingAs .awaitBlend (anyLoad .full phase image) base
def partial_ (phase : LoadPhase) (image : List Byte) : State := loadingAs .serving (anyLoad .reblend phase image) base
/-- A header with its signature block right after it, and 48 bytes of that block. -/
def header (kind : Byte) : List Byte :=
  leBytes 4 0x444E4C42 ++ [1, 0, kind, 0] ++ leBytes 4 30128 ++ leBytes 4 256 ++ zeros 240 ++ leBytes 4 0x47534C42 ++ [2, 0, 0, 0] ++ leBytes 4 29792 ++ zeros 4
def copyingLoad (len : Nat) : State := loadingAs .awaitBlend { anyLoad .full .copying [] with len := len } (setMc base 0 { mcReset with train := 1 })
theorem test_copy_fails : slotEnd (.blendCopyDone none) (copyingLoad 30128) = (2, loadResult (failPlain pmHostFetch) 0) ∧
    checkHeader (padTo 16 []) 16 false = some (failPlain 1) ∧ slotEnd (.blendCopyDone (some [])) (copyingLoad 16) = (2, loadResult (failPlain 1) 0) ∧
    (after (.blendCopyDone (some [])) (copyingLoad 16)).blend.load = none := by decide +kernel
theorem test_header_ok : checkHeader (padTo 30128 (header 0)) 30128 false = none ∧ checkHeader (header 1) 30128 false = some (failPlain 0x21) ∧ checkHeader (header 0) 30127 false = some (failPlain 3) := by
  decide +kernel
theorem test_measured : loadOf .blendMeasureDone (fullLoad .measuring []) = some (.full, .verifying, 0, false) := by decide +kernel
theorem test_rejected : (validateImage (fullLoad .validating []) []).1 = some (failPlain 6) ∧ slotEnd .blendValidateDone (fullLoad .validating []) = (2, loadResult (failPlain 6) 3) := by
  decide +kernel
/-- The bytes of a full image without partitions before its queue table, which ends it. -/
def imageHead : List Byte :=
  let entry := fun (type inst off len : Nat) => leBytes 2 type ++ leBytes 2 inst ++ leBytes 4 off ++ leBytes 4 len ++ zeros 4
  [leBytes 4 0x444E4C42, [1, 0, 0, 0], leBytes 4 0, leBytes 4 0x1340, leBytes 2 11, zeros 6, leBytes 8 7, zeros 224, entry 7 0 0x340 4096,
   entry 1 0 0x1C0 0, entry 1 1 0x1C0 0, entry 2 0 0x1C0 80, entry 2 1 0x240 80, entry 3 0 0x1C0 0, entry 3 1 0x1C0 0, entry 4 0 0x1C0 0,
   entry 4 1 0x1C0 0, entry 6 0 0x2C0 16, entry 8 0 0x300 32, zeros 16, List.replicate 80 0xFE, zeros 48, List.replicate 80 0xFE, zeros 48,
   [0, 0, 0, 0, 1, 1, 1], zeros 57, zeros 64].flatten
def unbound : List Byte := [0xFF, 0, 0, 0]
def emptyImage : List Byte := imageHead ++ (List.replicate 1024 unbound).flatten
theorem drop_unbound (n q : Nat) : ((List.replicate (q + n) unbound).flatten).drop (4 * q) = (List.replicate n unbound).flatten := by
  induction q with
  | zero => simp
  | succ q ih =>
    rw [show q + 1 + n = (q + n) + 1 by omega, List.replicate_succ, List.flatten_cons, show 4 * (q + 1) = unbound.length + 4 * q by simp [unbound]; omega]
    rw [List.drop_append, List.drop_eq_nil_of_le (by omega), List.nil_append, Nat.add_sub_cancel_left]
    exact ih
theorem queue_record (q : Nat) (h : q < 1024) : sliceAt emptyImage (0x340 + 4 * q) 4 = unbound := by
  have hl : imageHead.length = 0x340 := by decide +kernel
  have hd := drop_unbound (1024 - q) q
  rw [show q + (1024 - q) = 1024 by omega] at hd
  unfold sliceAt emptyImage
  rw [← hl, List.drop_append, List.drop_eq_nil_of_le (by omega), List.nil_append, Nat.add_sub_cancel_left, hd]
  obtain ⟨m, hm⟩ : ∃ m, 1024 - q = m + 1 := ⟨1023 - q, by omega⟩
  rw [hm, List.replicate_succ, List.flatten_cons]
  simp [unbound]
def sections : List SecEntry :=
  [⟨0, 7, 0, 0x340, 4096⟩, ⟨1, 1, 0, 0x1C0, 0⟩, ⟨2, 1, 1, 0x1C0, 0⟩, ⟨3, 2, 0, 0x1C0, 80⟩, ⟨4, 2, 1, 0x240, 80⟩, ⟨5, 3, 0, 0x1C0, 0⟩, ⟨6, 3, 1, 0x1C0, 0⟩,
   ⟨7, 4, 0, 0x1C0, 0⟩, ⟨8, 4, 1, 0x1C0, 0⟩, ⟨9, 6, 0, 0x2C0, 16⟩, ⟨10, 8, 0, 0x300, 32⟩]
theorem empty_directory : directory emptyImage = sections := by decide +kernel
theorem firstFail_none : ∀ l : List (Option BlendFail), (∀ x ∈ l, x = none) → firstFail l = none
  | [], _ => rfl
  | none :: t, h => firstFail_none t (fun x hx => h x (List.mem_cons_of_mem _ hx))
  | some f :: _, h => nomatch h (some f) List.mem_cons_self
theorem empty_queues (v : CheckEnv) (h : v.img = emptyImage) : checkQueues v ⟨0, 7, 0, 0x340, 4096⟩ = none := by
  unfold checkQueues
  refine firstFail_none _ (fun x hx => ?_)
  obtain ⟨q, hq, rfl⟩ := List.mem_map.1 hx
  have hq := List.mem_range.1 hq
  have hr : (List.map (fun q => sliceAt v.img (0x340 + 4 * q) 4) (List.range 1024)).getD q [] = unbound := by
    simp [List.getD_eq_getElem?_getD, hq, h, queue_record q hq]
  simp only [hr]
  rfl
theorem zero_in_slice (l : List Byte) (a n o : Nat) (h : (sliceAt l a n).all (· == 0) = true) (h1 : a ≤ o) (h2 : o < a + n) : l.getD o 0 = 0 := by
  rw [List.getD_eq_getElem?_getD]
  cases hb : l[o]? with
  | none => rfl
  | some b =>
    have hm : b ∈ sliceAt l a n := List.mem_of_getElem? (i := o - a) (by
      rw [sliceAt, List.getElem?_take_of_lt (by omega), List.getElem?_drop, Nat.add_sub_cancel' h1, hb])
    simpa using List.all_eq_true.1 h b hm
theorem empty_gaps : gapByte emptyImage = none := by
  have hn : hdrSections emptyImage = 11 := by decide +kernel
  have hs : hdrSigOffset emptyImage = 0x1340 := by decide +kernel
  have hz : ∀ g ∈ [(0x1B0, 16), (0x210, 48), (0x290, 48), (0x2D0, 48), (0x320, 32)], (sliceAt emptyImage g.1 g.2).all (· == 0) = true := by decide +kernel
  have zero := fun g hg o => zero_in_slice emptyImage g.1 g.2 o (hz g hg)
  simp only [List.forall_mem_cons] at zero
  unfold gapByte
  rw [empty_directory, hn, hs]
  refine List.find?_eq_none.2 (fun o ho => ?_)
  have ho := List.mem_range.1 ho
  simp only [sections, List.any_cons, List.any_nil, Bool.or_false, Bool.and_eq_true, Bool.not_eq_true', Bool.or_eq_false_iff, Bool.and_eq_false_imp,
    decide_eq_true_eq, decide_eq_false_iff_not, bne_iff_ne, ne_eq]
  rintro ⟨⟨h, hc⟩, hv⟩
  refine hv ?_
  rcases zero with ⟨z1, z2, z3, z4, z5, -⟩
  by_cases a : o < 0x1C0
  · exact z1 o (by omega) (by omega)
  by_cases b : o < 0x240
  · exact z2 o (by omega) (by omega)
  by_cases c : o < 0x2C0
  · exact z3 o (by omega) (by omega)
  by_cases d : o < 0x300
  · exact z4 o (by omega) (by omega)
  · exact z5 o (by omega) (by omega)
theorem valid_in (s : State) (h1 : s.blend.meas = 0) (h2 : s.blend.cur = plan0) (h3 : faultyIslands s = []) (h4 : faultyWays s = [])
    (h5 : reserveBase s = 0x23FE000000) : (validateImage s emptyImage).1 = none := by
  unfold validateImage
  rw [h1, h2, h3, h4, h5]
  dsimp only
  refine firstFail_none _ (fun x hx => ?_)
  simp only [List.mem_cons, List.not_mem_nil, or_false] at hx
  rcases hx with h | h | h | h | h | h
  · exact h.trans (by decide +kernel)
  · exact h.trans (by decide +kernel)
  · exact h.trans (by simp only [checkGaps, empty_gaps, Option.map_none])
  · rw [h, empty_directory]
    refine firstFail_none _ (fun x hx => ?_)
    obtain ⟨e, he, hx⟩ := List.mem_map.1 hx
    rw [← hx]
    simp only [sections, List.mem_cons, List.not_mem_nil, or_false] at he
    rcases he with he | he | he | he | he | he | he | he | he | he | he <;> subst he
    · simp only [checkSection]
      exact empty_queues _ rfl
    all_goals decide +kernel
  · exact h.trans (by decide +kernel)
  · exact h.trans (by decide +kernel)
theorem test_valid : (validateImage (fullLoad .validating emptyImage) emptyImage).1 = none ∧ (validateImage (partial_ .validating emptyImage) emptyImage).1 = none :=
  ⟨valid_in _ (by decide +kernel) (by decide +kernel) (by decide +kernel) (by decide +kernel) (by decide +kernel),
   valid_in _ (by decide +kernel) (by decide +kernel) (by decide +kernel) (by decide +kernel) (by decide +kernel)⟩
/-- A module whose registered owner has the key of an image. -/
def owned (kind : LoadKind) : State :=
  let s := loadingAs (if kind = .full then .awaitBlend else .serving) (anyLoad kind .verifying [9]) base
  { s with pm := { s.pm with record := { s.pm.record with ownerA := some { hash := shake256 (sigPublicKey [9]), counter := 0, seq := 1 }, ownerB := none } } }
theorem test_signature_bad : checkSignature (fullLoad .verifying [9]) blendContext [9] = 5 ∧
    slotEnd .blendSignatureDone (fullLoad .verifying [9]) = (2, loadResult (failPlain 5) 2) := by decide +kernel
theorem owner_key_hash : shake256 (sigPublicKey [9]) ≠ 0 := by decide +kernel
/-- Where the signature verifies, the check passes. -/
theorem test_signature_good (kind : LoadKind)
    (h2 : Slh.verify Slh.small (sigPublicKey [9]) (withContext blendContext (signedMessage [9])) (sigSignature [9]) = true) :
    checkSignature (owned kind) blendContext [9] = 0 := by
  have h3 : ownerHash (owned kind) = shake256 (sigPublicKey [9]) := rfl
  simp only [checkSignature, ownerMatches, h2, h3, bne_iff_ne.2 owner_key_hash, beq_self_eq_true, Bool.and_self]
  rfl

/-- A structure in which partition 0 has core 0, on physical core 1, and partition 1 core 5. -/
def nextPlan : Structure := { plan0 with spare := [(0, 1), (5, 7)], parts := [(0, part), (1, { part with cores := [5], grinderMask := 2 })] }
def withNext (m : ModState) (kind : LoadKind) (phase : LoadPhase) (s : State) : State :=
  loadingAs m { anyLoad kind phase [] with next := nextPlan, target := 0, started := 999999000, drainLimitUs := 1, meas := 5 } s
def phaseOf (c : Instr) (s : State) : Option LoadPhase := (after c s).blend.load.map (·.phase)
def applied : State := after .blendApplyDone (withNext .awaitBlend .full .applying (memWrite base (scratchKey 1 0) (clean [9])))
theorem test_apply : applied.blend.applied = true ∧ applied.blend.cur = nextPlan ∧ applied.blend.load.map (·.phase) = some .bootRun ∧
    (getIsl applied 1).power = 2 ∧ (getIsl applied 0).power = 0 ∧ memByte applied (scratchKey 1 0) = 0 ∧ (getCr applied 3).link = .dark := by decide +kernel
def booting (s : State) : State := withNext .awaitBlend .full .bootRun s
/-- A reading whose best point is the frequency at which the island starts, and one whose point lies above it. -/
def slowRead : IslandReading := { slackRead 0x42 24 with belowGoal := true }
theorem test_boot_reads : readsAll [] (booting (isle id)) = false ∧ exec (.plannerBootRunDone []) (booting (isle id)) = .next (booting (isle id)) := ⟨by decide +kernel, rfl⟩
theorem test_boot_run : readsAll [slowRead] (booting (isle id)) = true ∧ ramped (bootRun [slowRead] (booting (isle id))) = true ∧
    (after (.plannerBootRunDone [slowRead]) (booting (isle id))).mode = .serving ∧ (getIsl (after (.plannerBootRunDone [slowRead]) (booting (isle id))) 0).vCode = 0x46 ∧
    slotEnd (.plannerBootRunDone [slowRead]) (booting (isle id)) = (2, loadResult (failPlain 0) 6) := by decide +kernel
/-- The island climbs to its point a code at a time, and the module serves when it is there. -/
def ramping : State := after (.plannerBootRunDone [slackRead 0x42 24]) (booting (isle id))
theorem test_boot_ramps : ramped (bootRun [slackRead 0x42 24] (booting (isle id))) = false ∧ ramping.mode = .awaitBlend ∧ ramping.blend.load.map (·.phase) = some .ramping ∧
    (getIsl ramping 0).vCode = 0x42 ∧ (getIsl ramping 0).current = 0x30 ∧ after (.plannerBootRunDone []) ramping = ramping ∧
    (after (.plannerBootRunDone []) (updIsl ramping 0 (fun i => { i with current := i.target }))).mode = .serving := by decide +kernel
def reblending (phase : LoadPhase) (s : State) : State := withNext .serving .reblend phase { s with blend := { s.blend with quiesced := [0] } }
def cached : State := { base with seg := { base.seg with caches := [(0, []), (9, [])] } }
theorem test_stop : invsOf (reblending .stopping cached) 0 = [] ∧ grindersIdle (reblending .stopping cached) 0 = true ∧ linksFor plan0 0 = [] ∧
    phaseOf .reblendStopDone (reblending .stopping cached) = some .cleaning ∧ (after .reblendStopDone (reblending .stopping cached)).seg.caches = [(9, [])] ∧
    invsOf (reblending .stopping (running endOp)) 0 = [1] ∧ exec .reblendStopDone (reblending .stopping (running endOp)) = .next (reblending .stopping (running endOp)) :=
  ⟨by decide +kernel, by decide +kernel, by decide +kernel, by decide +kernel, by decide +kernel, by decide +kernel, rfl⟩
theorem test_stop_empties : (match tabFind plan0.parts 0 with | some p => partPhys plan0 0 p | none => []) = [0] ∧
    (getCore (after .reblendStopDone (reblending .stopping (updCore cached 0 (fun c => { c with tiles := (getCore (waiting vecOp 1) 0).tiles })))) 0).tiles = [] := by decide +kernel
theorem test_drain_timeout : slotEnd .drainTimeout (reblending .stopping (running endOp)) = (2, loadResult (failPlain 0x23) 4) ∧
    (after .drainTimeout (reblending .stopping (running endOp))).blend.quiesced = [] ∧
    exec .drainTimeout { reblending .stopping (running endOp) with devTime := 999999999 } = .next { reblending .stopping (running endOp) with devTime := 999999999 } :=
  ⟨by decide +kernel, by decide +kernel, rfl⟩
theorem test_clean : newCores plan0 nextPlan 0 = [1] ∧ checkPoint (reblending .cleaning base) [] 1 = none ∧
    exec (.reblendCleanDone []) (reblending .cleaning base) = .next (reblending .cleaning base) ∧
    exec (.reblendCleanDone []) (setCache (reblending .cleaning base) 0 { dieCacheReset with cleaning := [1] }) =
      .next (setCache (reblending .cleaning base) 0 { dieCacheReset with cleaning := [1] }) ∧
    slotEnd (.reblendCleanDone []) (setIsl (reblending .cleaning base) 1 { islandReset with faulty := true }) = (2, loadResult (failPlain 0x11) 5) ∧
    (after (.reblendCleanDone [{ slackRead 0x42 24 with island := 1 }]) (reblending .cleaning base)).blend.cur = nextPlan ∧
    phaseOf (.reblendCleanDone [{ slackRead 0x42 24 with island := 1 }]) (reblending .cleaning base) = some .resuming :=
  ⟨by decide +kernel, by decide +kernel, rfl, rfl, by decide +kernel, by decide +kernel, by decide +kernel⟩
theorem test_reblend_joining : (after (.reblendCleanDone [{ slackRead 0x42 24 with island := 1 }]) (reblending .cleaning base)).blend.load.map (·.joining) = some [1] ∧
    exec .reblendResume (setLoad (reblending .resuming base) (some { anyLoad .reblend .resuming [] with next := nextPlan, joining := [1] })) =
      .next (setLoad (reblending .resuming base) (some { anyLoad .reblend .resuming [] with next := nextPlan, joining := [1] })) := ⟨by decide +kernel, rfl⟩
theorem test_reblend_resume : (after .reblendResume (reblending .resuming base)).blend.reblends = 1 ∧ (after .reblendResume (reblending .resuming base)).blend.quiesced = [] ∧
    slotEnd .reblendResume (reblending .resuming base) = (2, loadResult (failPlain 0) 6) ∧
    exec .reblendResume (setIsl (reblending .resuming base) 0 { islandReset with floor := 0x31 }) = .next (setIsl (reblending .resuming base) 0 { islandReset with floor := 0x31 }) :=
  ⟨by decide +kernel, by decide +kernel, by decide +kernel, rfl⟩

/-! ### Boot, identity and calls -/

/-- The module in a state with slot 0's arguments. -/
def asked (m : ModState) (s : State) (l : List (Nat × List Byte)) : State := { called s l with mode := m }
theorem admit0 (s : State) (r : CallRule) (hc : ∀ x y : CallSlot, x.args = y.args → r.carrier x = r.carrier y)
    (h : ownsSlot s (.host 0) 0 = true ∧ (getSlot s 0).state ≠ 1 ∧ callCheck s r (agentHost s (.host 0)) (getSlot s 0) = 0) : CallAdmitted s (.host 0) 0 r :=
  admitted s (.host 0) 0 r hc h
/-- What a call that takes time will answer. -/
def dueOf (c : Instr) (s : State) : Option (Nat × List Byte) := (getSlot (after c s) 0).due.map (fun d => (d.1.toNat, d.2))
theorem test_caps : CallAdmitted (asked .serving base []) (.host 0) 0 (plainRule 1 true true [.awaitCarrier, .awaitBlend, .serving] []) ∧
    slotEnd (.caps (.host 0) 0 false 0) (asked .serving base []) = (2, 0) ∧
    (List.range 4).map (tabGet 0 (getSlot (after (.caps (.host 0) 0 false 0) (asked .serving base [])) 0).reply) = leBytes 4 modRev :=
  ⟨admit0 _ _ (fun _ _ _ => rfl) (by decide +kernel), by decide +kernel, by decide +kernel⟩
theorem test_quote : CallAdmitted (asked .serving base [(0x20, leBytes 8 hostBase)]) (.host 0) 0 (plainRule 2 true false [.awaitCarrier, .awaitBlend, .serving] [(0, 40)]) ∧
    imageAddrOk 0 hostBase quoteSize = true ∧ imageAddrOk 0 (hostBase + 32) quoteSize = false ∧ trustBusy (asked .serving base []) 0 = false ∧
    trustBusy (setSlot base 1 { callSlotReset with state := 1, func := 4 }) 0 = true ∧
    loadEnd (.quote (.host 0) 0 false 0) (asked .serving base [(0x20, leBytes 8 (hostBase + 32))]) = (2, pmBadArg) ∧
    loadEnd (.quote (.host 0) 0 false 0) (setSlot (asked .serving base [(0x20, leBytes 8 hostBase)]) 1 { callSlotReset with state := 1, func := 4 }) = (2, pmBusy) :=
  ⟨admit0 _ _ (fun _ _ _ => rfl) (by decide +kernel), by decide +kernel, by decide +kernel, by decide +kernel, by decide +kernel, by decide +kernel, by decide +kernel⟩
def withOwner (hash : Bits256) (s : State) : State :=
  { s with pm := { s.pm with record := { s.pm.record with ownerA := some { hash := hash, counter := 0, seq := 1 }, ownerB := none } } }
def registering (hash : Bits256) : State := asked .awaitCarrier (withOwner hash base) [(0x40, leBytes 8 hostBase)]
def register (v : Option (List Byte)) : Instr := .ownerRegister (.host 0) 0 false 0 v
theorem test_register_owner : CallAdmitted (registering 0) (.host 0) 0 (plainRule 3 true false [.awaitCarrier] [(0, 72)]) ∧ inOwnHalf 0 hostBase 29792 = true ∧
    trustBusy (registering 0) 0 = false ∧ loadEnd (register (some [])) (registering 5) = (2, pmOwner) ∧ dueOf (register none) (registering 0) = some (pmHostFetch, []) :=
  ⟨admit0 _ _ (fun _ _ _ => rfl) (by decide +kernel), by decide +kernel, by decide +kernel, by decide +kernel, by decide +kernel⟩
/-- Whichever answer a verification gives, one of the two cases is met. -/
theorem test_register_signature (ok : Bool) (h : ownerSigned (argBytes (getSlot (registering 0) 0) 0 64) (registerStatement (registering 0)) (padTo 29792 []) = ok) :
    ownerHash (registering 0) = 0 ∧ (ok = false ∨ ok = true) := ⟨by decide +kernel, by cases ok <;> simp⟩
def transferring (hash : Bits256) : State := asked .awaitCarrier (withOwner hash base) [(0x80, leBytes 8 hostBase)]
theorem test_transfer_owner : CallAdmitted (transferring 5) (.host 0) 0 (plainRule 4 true false [.awaitCarrier] [(0, 136)]) ∧ inOwnHalf 0 hostBase 59584 = true ∧
    trustBusy (transferring 5) 0 = false ∧ ownerMatches (transferring 0) (zeros 64) = false ∧
    loadEnd (.ownerTransfer (.host 0) 0 false 0 (some [])) (transferring 0) = (2, pmOwner) :=
  ⟨admit0 _ _ (fun _ _ _ => rfl) (by decide +kernel), by decide +kernel, by decide +kernel, by decide +kernel, by decide +kernel⟩
/-- SHAKE256 of no bytes, as FIPS 202 has it. -/
theorem test_shake256 : leBytes 32 (shake256 []).toNat = leBytes 32 0x2f76d56e64270cb5821bb862ea52cd3f24eb3e74eb3f3b23138da80b2bddb946 := by decide +kernel
theorem key_hash : shake256 (zeros 64) ≠ 0 := by decide +kernel
theorem test_owner_matches : ownerMatches (transferring (shake256 (zeros 64))) (zeros 64) = true := by
  have e : ownerHash (transferring (shake256 (zeros 64))) = shake256 (zeros 64) := rfl
  simp only [ownerMatches, e, bne_iff_ne.2 key_hash, beq_self_eq_true, Bool.and_self]

def loading : State := asked .awaitCarrier base [(0, leBytes 8 hostBase ++ leBytes 4 30128), (0x10, leBytes 8 0x200000 ++ leBytes 8 0x400000)]
def carrierRule : CallRule := { plainRule 5 true false [.awaitCarrier] [(0, 12), (0x10, 16)] with load := true }
theorem test_carrier_load : CallAdmitted loading (.host 0) 0 carrierRule ∧ imageAddrOk 0 hostBase 30128 = true ∧ loadRuns loading = false ∧
    regionOk (setMc loading 0 { mcReset with train := 1 }) 0x200000 0x400000 30128 = true ∧
    (after (.carrierLoad (.host 0) 0 false 0) (setMc loading 0 { mcReset with train := 1 })).pm.carrierLoading.map (fun l => (l.base, l.size, l.imageLen)) =
      some (0x200000, 0x400000, 30128) ∧
    loadEnd (.carrierLoad (.host 0) 0 false 0) (setLoad (setMc loading 0 { mcReset with train := 1 }) (some (anyLoad .full .copying []))) = (2, loadCode 0x24 0) :=
  ⟨admit0 _ _ (fun _ _ _ => rfl) (by decide +kernel), by decide +kernel, by decide +kernel, by decide +kernel, by decide +kernel, by decide +kernel⟩
def carrierImage : List Byte :=
  leBytes 4 0x52524143 ++ [1, 0, 0, 0] ++ leBytes 4 30128 ++ leBytes 4 256 ++ zeros 240 ++ leBytes 4 0x47534143 ++ [2, 0, 0, 0] ++ leBytes 4 29792
def carrierAt (hash : Bits256) : State :=
  let s := setSlot (withOwner hash base) 0 { callSlotReset with state := 1 }
  { s with mode := .awaitCarrier, pm := { s.pm with carrierLoading := some { slot := 0, base := 0x200000, size := 0x400000, imageLen := 30128, image := [] } } }
theorem test_carrier_load_fails : loadEnd (.carrierLoadDone none) (carrierAt 0) = (2, loadCode pmHostFetch 0) ∧ carrierHeader (padTo 30128 []) 30128 = 1 ∧
    carrierHeader (padTo 30128 carrierImage) 30128 = 0 ∧ checkSignature (carrierAt 0) carrierContext (padTo 30128 carrierImage) = 5 := by decide +kernel
theorem image_key_hash : shake256 (sigPublicKey (padTo 30128 carrierImage)) ≠ 0 := by decide +kernel
theorem test_carrier_starts
    (h2 : Slh.verify Slh.small (sigPublicKey (padTo 30128 carrierImage)) (withContext carrierContext (signedMessage (padTo 30128 carrierImage)))
      (sigSignature (padTo 30128 carrierImage)) = true) :
    checkSignature (carrierAt (shake256 (sigPublicKey (padTo 30128 carrierImage)))) carrierContext (padTo 30128 carrierImage) = 0 := by
  have e : ∀ h, ownerHash (carrierAt h) = h := fun _ => rfl
  simp only [checkSignature, ownerMatches, h2, e, bne_iff_ne.2 image_key_hash, beq_self_eq_true, Bool.and_self]
  rfl

def answering (due : Option (Dword × List Byte)) (waits : List Nat) (s : State) : State :=
  setSlot { s with pm := { s.pm with contexts := [(3, 0)] } } 0 { callSlotReset with state := 1, due := due, waits := waits, caller := some 0 }
theorem test_call_done : slotEnd (.pmCallDone 0) (answering (some (0, [7])) [] base) = (2, 0) ∧ quoteGone (answering (some (0, [7])) [] base) 0 = true ∧
    quoteGone (updGk base 0 (fun k => { k with held := [{ write1 0 with for_ := .quote 0 }] })) 0 = false ∧
    slotEnd (.pmCallDone 0) (answering none [3] base) = (2, 0) ∧ (after (.pmCallDone 0) (answering none [3] base)).pm.contexts = [] := by decide +kernel

def inRom : State := { base with mode := .rom, power := { base.power with bootDue := some 1000000000 } }
theorem test_boot_start : (after (.bootStart none) inRom).pm.booting = true ∧ (after (.bootStart none) inRom).pm.copy = some base.pm.record ∧
    (after (.bootStart (some 16)) inRom).pm.copy = none ∧ (getIsl (after (.bootStart none) inRom) (islIx 1 124)).power = 2 ∧
    (after (.bootStart none) { inRom with devTime := 999999999 }).pm.booting = false := by decide +kernel
def booted (bad : Option Nat) : State := { base with mode := .rom, pm := { base.pm with booting := true, recordBad := bad } }
theorem test_boot_done : (after (.bootDone true []) (booted (some 4))).pm.fault = 1 ∧ ownerNow (booted none).pm.record ≠ none ∧ (after (.bootDone false []) (booted none)).pm.fault = 2 ∧
    (after (.bootDone true []) (booted none)).mode = .awaitCarrier ∧ (getMc (after (.bootDone true []) (booted none)) 11).train = 1 ∧
    (after (.bootDone true []) (booted none)).blend.reserve = some 5 := by decide +kernel

/-- Contexts 3 and 4 are host 0's, context 9 is host 1's. -/
def ctxArgs (first count release : Nat) : List (Nat × List Byte) := [(0, leBytes 2 first ++ leBytes 2 count ++ leBytes 1 release)]
def foreign (s : State) : State := { s with pm := { s.pm with contexts := s.pm.contexts ++ [(9, 1)] } }
theorem test_context_claim : CallAdmitted (asked .serving base (ctxArgs 4094 2 0)) (.host 0) 0 (plainRule 0x10 true false [.awaitBlend, .serving] [(0, 5)]) ∧
    ctxArgsOk (getSlot (asked .serving base (ctxArgs 4094 2 0)) 0) = true ∧ ctxArgsOk (getSlot (asked .serving base (ctxArgs 4095 2 0)) 0) = false ∧
    (after (.contextClaim (.host 0) 0 false 0) (asked .serving base (ctxArgs 4094 2 0))).pm.contexts = [(3, 0), (4, 0), (4094, 0), (4095, 0)] ∧
    loadEnd (.contextClaim (.host 0) 0 false 0) (foreign (asked .serving base (ctxArgs 8 2 0))) = (2, pmNotPermitted) :=
  ⟨admit0 _ _ (fun _ _ _ => rfl) (by decide +kernel), by decide +kernel, by decide +kernel, by decide +kernel, by decide +kernel⟩
def segCalling (s : State) : State :=
  { s with seg := { s.seg with calls := [{ slot := 5, host := 0, context := 3, index := 0, op := .clear, phase := 0, orig := segEntryReset, code := 0 }] } }
theorem test_context_release : (after (.contextRelease (.host 0) 0 false 0) (asked .serving base (ctxArgs 3 2 1))).pm.contexts = [] ∧
    (getSlot (after (.contextRelease (.host 0) 0 false 0) (segCalling (asked .serving base (ctxArgs 3 2 1)))) 0).waits = [3, 4] ∧
    loadEnd (.contextRelease (.host 0) 0 false 0) (asked .serving (withSeg base seg0) (ctxArgs 3 2 1)) = (2, pmWrongState) := by decide +kernel
def queueArgs : List (Nat × List Byte) := [(0, leBytes 2 7 ++ leBytes 2 3 ++ [1])]
theorem test_queue_context : CallAdmitted (asked .serving base queueArgs) (.host 0) 0 (plainRule 0x11 true false [.serving] [(0, 5)]) ∧
    getQ (after (.queueContext (.host 0) 0 false 0) (asked .serving base queueArgs)) 7 = { queueReset with context := 3, bound := true, ringFeedOk := true } ∧
    loadEnd (.queueContext (.host 0) 0 false 0) (asked .serving (setQ base 7 { queueReset with enable := true }) queueArgs) = (2, pmWrongState) :=
  ⟨admit0 _ _ (fun _ _ _ => rfl) (by decide +kernel), by decide +kernel, by decide +kernel⟩
/-- The same by the Carrier, in slot 8. -/
def carrierAsked (s : State) (l : List (Nat × List Byte)) : State := setSlot s 8 { callSlotReset with args := argTab l }
def carrierEnd (c : Instr) (s : State) : Nat × Nat := let x := getSlot (after c s) 8; (x.state, x.result.toNat)
def ringArgs (set : Byte) : List (Nat × List Byte) := [(0, [0, 0, 1, 0, set])]
theorem test_ring_queues : CallAdmitted (carrierAsked base (ringArgs 1)) (.carrier 0) 8 (plainRule 0x12 false true [.serving] [(0, 5)]) ∧
    (getQ (after (.ringQueuesSet (.carrier 0) 8 false 0) (carrierAsked (queue0 (fun x => { x with ringFeedOk := true })) (ringArgs 1))) 0).ringFed = true ∧
    carrierEnd (.ringQueuesSet (.carrier 0) 8 false 0) (carrierAsked base (ringArgs 1)) = (2, pmNotPermitted) ∧
    (getQ (after (.ringQueuesClear (.carrier 0) 8 false 0) (carrierAsked (queue0 (fun x => { x with enable := false, ringFed := true, fed := [envelope] })) (ringArgs 0))) 0).fed = [] :=
  ⟨admitted _ _ _ _ (fun _ _ _ => rfl) (by decide +kernel), by decide +kernel, by decide +kernel, by decide +kernel⟩
def poolArgs (slots : Nat) : List (Nat × List Byte) := [(8, leBytes 8 0x2000000 ++ leBytes 4 slots)]
def poolTo (s : State) (slots : Nat) : Option (Nat × Nat) := (tabFind (after (.savePool (.carrier 0) 8 false 0) (carrierAsked s (poolArgs slots))).qs.pools 0).map (fun p => (p.base, p.slots))
theorem test_save_pool : CallAdmitted (carrierAsked (atStack []) (poolArgs 2)) (.carrier 0) 8 (plainRule 0x13 false true [.serving] [(0, 1), (8, 12)]) ∧
    inService (atStack []) 0x2000000 (2 * slotBytes (atStack []) 0) = true ∧ poolTo (atStack []) 2 = some (0x2000000, 2) ∧
    poolTo { atStack [] with qs := { (atStack []).qs with pools := [(0, { base := 0, slots := 1, used := [] })] } } 0 = none ∧
    carrierEnd (.savePool (.carrier 0) 8 false 0) (carrierAsked (withSeg (atStack []) seg0) (poolArgs 2)) = (2, pmProtected) :=
  ⟨admitted _ _ _ _ (fun _ _ _ => rfl) (by decide +kernel), by decide +kernel, by decide +kernel, by decide +kernel, by decide +kernel⟩
def abortArgs : List (Nat × List Byte) := [(0, [1])]
theorem test_abort : CallAdmitted (asked .serving (running endOp) abortArgs) (.host 0) 0 (plainRule 0x14 true true [.serving] [(0, 8)]) ∧
    (getInv (after (.abort (.host 0) 0 false 0) (asked .serving (running endOp) abortArgs)) 1).map (·.early) = some (some (.aborted, 0x32)) ∧
    loadEnd (.abort (.host 0) 0 false 0) (asked .serving base abortArgs) = (2, pmBadArg) ∧
    loadEnd (.abort (.host 0) 0 false 0) (asked .serving (setInv base 1 { inv1 with queue := 8 }) abortArgs) = (2, pmNotPermitted) :=
  ⟨admit0 _ _ (fun _ _ _ => rfl) (by decide +kernel), by decide +kernel, by decide +kernel, by decide +kernel⟩
def keyed (s : State) : State := { s with pm := { s.pm with keys := [(0, { key := 5, context := 3 })] } }
def keyArgs : List (Nat × List Byte) := [(2, [3])]
theorem test_key_install : CallAdmitted (asked .serving base keyArgs) (.host 0) 0 (plainRule 0x30 true false [.awaitBlend, .serving] [(0, 4), (0x10, 1580), (0x640, 48)]) ∧
    loadEnd (.keyInstall (.host 0) 0 false 0) (keyed (asked .serving base keyArgs)) = (2, pmFull) ∧ tabFind (asked .serving base keyArgs).pm.keys 0 = none :=
  ⟨admit0 _ _ (fun _ _ _ => rfl) (by decide +kernel), by decide +kernel, by decide +kernel⟩
theorem test_key_bind : CallAdmitted (keyed (asked .serving base [(2, [4])])) (.host 0) 0 (plainRule 0x31 true false [.awaitBlend, .serving] [(0, 4)]) ∧
    (after (.keyBind (.host 0) 0 false 0) (keyed (asked .serving base [(2, [4])]))).pm.keys = [(0, { key := 5, context := 4 })] ∧
    loadEnd (.keyBind (.host 0) 0 false 0) (asked .serving base [(2, [4])]) = (2, pmNotPermitted) :=
  ⟨admit0 _ _ (fun _ _ _ => rfl) (by decide +kernel), by decide +kernel, by decide +kernel⟩
theorem test_key_remove : CallAdmitted (keyed (asked .serving base [])) (.host 0) 0 (plainRule 0x32 true false [.awaitBlend, .serving] [(0, 2)]) ∧
    (after (.keyRemove (.host 0) 0 false 0) (keyed (asked .serving base []))).pm.keys = [] ∧ loadEnd (.keyRemove (.host 0) 0 false 0) (asked .serving base []) = (2, pmNotPermitted) :=
  ⟨admit0 _ _ (fun _ _ _ => rfl) (by decide +kernel), by decide +kernel, by decide +kernel⟩
def windowArgs (n : Nat) : List (Nat × List Byte) := [(0, [63, 5]), (8, leBytes 8 0x2000000 ++ leBytes 8 n ++ leBytes 8 6)]
def windowCall : Instr := .exportWindow (.host 0) 0 false 0
theorem test_window : CallAdmitted (asked .serving (withSeg base seg0) (windowArgs 0x100000)) (.host 0) 0 (plainRule 0x40 true false [.serving] [(0, 2), (8, 24)]) ∧
    tabFind (after windowCall (asked .serving (withSeg base seg0) (windowArgs 0x100000))).courier.windows 63 =
      some { base := 0x2000000, length := 0x100000, read := true, write := false, atomic := true, sources := 6 } ∧
    loadEnd windowCall (asked .serving (withSeg base seg0) (windowArgs 0x101000)) = (2, pmBadArg) ∧ slotEnd windowCall (asked .serving base (windowArgs 0)) = (2, 0) :=
  ⟨admit0 _ _ (fun _ _ _ => rfl) (by decide +kernel), by decide +kernel, by decide +kernel, by decide +kernel⟩
def groupArgs (delete : Byte) (ctx : Nat) : List (Nat × List Byte) :=
  if delete = 1 then [(0, [5]), (0x20, [1])] else
  [(0, [5, 0, 0, 1] ++ leBytes 2 ctx ++ [0, 0]), (8, leBytes 8 6 ++ leBytes 8 0x2000000 ++ leBytes 4 64 ++ leBytes 2 2 ++ leBytes 2 0xFFFF)]
def grouped (ctx : Nat) (s : State) : State :=
  { s with courier := { s.courier with groups := [(5, { handoff := false, cls := 1, context := ctx, source := 0, members := 6, base := 0x2000000, row := 64, rows := 2, sem := 0xFFFF })] } }
theorem group_admitted (s : State) (h : ownsSlot s (.host 0) 0 = true ∧ (getSlot s 0).state ≠ 1 ∧ callCheck s groupRule (agentHost s (.host 0)) (getSlot s 0) = 0) :
    CallAdmitted s (.host 0) 0 groupRule := admit0 s groupRule (fun x y e => by simp only [groupRule, argAt, argBytes, e]) h
theorem test_group_write : CallAdmitted (asked .serving (withSeg base seg0) (groupArgs 0 3)) (.host 0) 0 groupRule ∧
    (after (.groupWrite (.host 0) 0 false 0) (asked .serving (withSeg base seg0) (groupArgs 0 3))).courier.groups = (grouped 3 base).courier.groups ∧
    loadEnd (.groupWrite (.host 0) 0 false 0) (asked .serving (withSeg base seg0) (groupArgs 0 9)) = (2, pmNotPermitted) :=
  ⟨group_admitted _ (by decide +kernel), by decide +kernel, by decide +kernel⟩
theorem test_group_delete : CallAdmitted (asked .serving (grouped 3 base) (groupArgs 1 3)) (.host 0) 0 groupRule ∧
    (after (.groupDelete (.host 0) 0 false 0) (asked .serving (grouped 3 base) (groupArgs 1 3))).courier.groups = [] ∧
    loadEnd (.groupDelete (.host 0) 0 false 0) (asked .serving (grouped 9 base) (groupArgs 1 3)) = (2, pmNotPermitted) :=
  ⟨group_admitted _ (by decide +kernel), by decide +kernel, by decide +kernel⟩
def repairOf (l : List (Nat × List Byte)) : State := after (.hbmRepair (.host 0) 0 false 0) (asked .awaitBlend (atStack []) l)
theorem test_hbm_repair : CallAdmitted (asked .awaitBlend (atStack []) [(2, [15, 63])]) (.host 0) 0 (plainRule 0x50 true false [.awaitBlend] [(0, 7), (8, 4)]) ∧
    repairArgsOk (getSlot (asked .awaitBlend (atStack []) [(2, [15, 63])]) 0) = true ∧ (repairOf [(2, [15, 63])]).pm.record.lanes = [{ stack := 0, channel := 15, lane := 63, erased := false }] ∧
    repairArgsOk (getSlot (asked .awaitBlend (atStack []) [(1, [2, 31])]) 0) = true ∧ (getMc (atStack []) 0).repairs = [] :=
  ⟨admit0 _ _ (fun _ _ _ => rfl) (by decide +kernel), by decide +kernel, by decide +kernel, by decide +kernel, by decide +kernel⟩
theorem test_island_retire : CallAdmitted (asked .serving base [(0, [1, 0, 99])]) (.host 0) 0 (plainRule 0x51 true false [.awaitBlend, .serving] [(0, 4)]) ∧
    (getIsl (after (.islandRetire (.host 0) 0 false 0) (asked .serving base [(0, [1, 0, 99])])) (islIx 1 99)).faulty = true ∧
    (getCache (after (.islandRetire (.host 0) 0 false 0) (asked .serving base [(1, [1, 0, 7])])) 0).faulty = [7] :=
  ⟨admit0 _ _ (fun _ _ _ => rfl) (by decide +kernel), by decide +kernel, by decide +kernel⟩

/-! ### Supply, resets, parking, heat and idling -/

def dipping : State := { checking id with power := { base.power with minMv := 44000, nowMv := 48000 } }
theorem test_warning : (after (.supplyWarning 44999) dipping).power.stretch = some (1000000000, 44999) ∧ (after (.supplyWarning 43000) dipping).power.minMv = 43000 ∧
    (getIsl (after (.supplyWarning 44999) dipping) 0).checkVoid = true ∧ (after (.supplyWarning 45000) dipping).power.stretch = none ∧
    (after (.supplyWarning 44000) { base with power := { base.power with stretch := some (5, 43500) } }).power.stretch = some (5, 43500) := by decide +kernel
theorem test_warning_clear : (after (.supplyWarningClear 46000) { base with power := { base.power with stretch := some (5, 43500), dips := 0xFFFF } }).power.dips = 0xFFFF ∧
    (after (.supplyWarningClear 46000) { base with power := { base.power with stretch := some (5, 43500) } }).plan.dipsSince = 1 := by decide +kernel
theorem test_supply_reset : (after (.supplyReset 40999) (running endOp)).power.supplyReset = true ∧ (after (.supplyReset 40999) (running endOp)).qs.invs = [] ∧
    (after (.supplyReset 40999) (running endOp)).devTime = 1000000000 ∧ (after (.supplyReset 40999) (running endOp)).mode = .serving ∧
    (after (.supplyReset 41000) (running endOp)).power.supplyReset = false ∧ memByte (after (.supplyReset 0) (memWrite base 0x40 (clean [9]))) 0x40 = 9 ∧
    (after (.supplyReset 40999) { base with mode := .off }).power.rails = false := by decide +kernel
theorem test_supply_restored : (after (.supplyRestored 48000) { base with power := { base.power with supplyReset := true } }).mode = .rom ∧
    (after (.supplyRestored 48000) { base with power := { base.power with supplyReset := true } }).power.lastReset = 3 := by decide +kernel
theorem test_supply_off : (after .supplyOff (memWrite base 0x40 (clean [9]))).mem = [] ∧ (after .supplyOff base).pm.record = base.pm.record := by decide +kernel
def dark : State := { base with mode := .off, power := { base.power with rails := false } }
theorem test_power_up : (after (.powerUp 48000) dark).power.rails = true ∧ (after .powerGood (after (.powerUp 48000) dark)).mode = .rom ∧ exec .powerGood dark = .next dark :=
  ⟨by decide +kernel, by decide +kernel, rfl⟩
def resetKind (c : Instr) (s : State) : Option (Nat × Nat) := (after c s).power.reset.map (fun r => (r.kind, r.since))
theorem test_resets : reaches base (.host 0) = true ∧ reaches base (.host 1) = false ∧ resetKind .mrstNAssert base = some (1, 1000000000) ∧
    (after .mrstNAssert base).power.mrstHeld = true ∧ resetKind (.pwrCtrlModuleReset (.host 0) 0) base = some (2, 1000000000) ∧
    resetKind (.postmasterReset (some 0)) base = some (4, 1000000000) ∧ resetKind (.postmasterReset none) { base with power := { base.power with regFaults := [5] } } = some (4, 1000000000) ∧
    resetKind (.pwrCtrlModuleReset (.carrier 0) 0) base = none := by decide +kernel
theorem test_third_rail_fault : (after (.postmasterReset none) { base with power := { base.power with regFaults := [5, 6] } }).pm.fault = 6 ∧
    ([5, 6].filter (fun t => decide ((1000000000 : Nat) < t + 3600000000000))).length = 2 := by decide +kernel
def pendingReset (held : Bool) (since : Nat) : State := { base with power := { base.power with reset := some { kind := 2, since := since }, mrstHeld := held } }
theorem test_reset_boot : (after .moduleResetBoot (pendingReset false 998500000)).mode = .rom ∧ (after .moduleResetBoot (pendingReset false 998500000)).power.lastReset = 2 ∧
    exec .moduleResetBoot (pendingReset false 998500001) = .next (pendingReset false 998500001) ∧ exec .moduleResetBoot (pendingReset true 0) = .next (pendingReset true 0) ∧
    (after .mrstNRelease (pendingReset true 0)).power.mrstHeld = false := ⟨by decide +kernel, by decide +kernel, rfl, rfl, by decide +kernel⟩
/-- A Carrier whose copy, of no bytes, is the one measured. -/
def intact : State := { base with pm := { base.pm with carrierMeas := shake256 [] }, power := { base.power with wdogMs := 1000 } }
theorem test_carrier_intact : carrierIntact intact = true := by
  have h : (List.range intact.pm.carrierSigOffset).map (fun i => (hbmPeek intact (intact.pm.carrierBase + i)).1) = [] := rfl
  have m : intact.pm.carrierMeas = shake256 [] := rfl
  simp only [carrierIntact, h, m, beq_self_eq_true]
theorem test_watchdog : intact.power.wdogKick + 1000000 * intact.power.wdogMs = intact.devTime ∧ exec .carrierWatchdogExpiry { intact with devTime := 999999999 } =
      .next { intact with devTime := 999999999 } ∧ (after (.pwrCtrlWdogKick (.host 0) 9) intact).power.wdogMs = 9 ∧
    (after (.pwrCtrlWdogKick (.carrier 1) 9) intact).power.wdogKick = 1000000000 := ⟨rfl, rfl, by decide +kernel, by decide +kernel⟩

def parkable : State := setMc { base with blend := { base.blend with reserve := some 0, staged := some ([], 0) } } 0 { mcReset with train := 1 }
theorem test_park : mayPark parkable = true ∧ (after (.pwrCtrlPark (.host 0) 0) parkable).power.parking = true ∧ (after (.pwrCtrlPark (.host 0) 0) parkable).blend.staged = none ∧
    mayPark base = false ∧ (after (.pwrCtrlPark (.host 0) 9) base).power.parkResult = 2 := by decide +kernel
def parking : State := setIsl { withSeg (ringed base) { seg0 with gen := 5 } with power := { base.power with parking := true } } 0 { islandReset with power := 2 }
theorem test_park_done : (after .parkDone parking).mode = .parked ∧ (after .parkDone parking).power.parkResult = 1 ∧ (getIsl (after .parkDone parking) 0).power = 0 ∧
    tabRising 0 parking.seg.entries = true ∧ memBytes (after .parkDone parking) (reserveBase parking + 32 * 192) 32 = segBytes { seg0 with gen := 5 } := by decide +kernel
def parked : State := { base with mode := .parked, pm := { base.pm with carrierMeas := 0, carrierSigOffset := 0 } }
theorem test_unpark : parked.mode = .parked ∧ parked.power.unparking = false ∧ (getIsl parked (islOfCore 0)).power = 0 ∧ (getIsl parked (islOfCore 0)).faulty = false := by
  decide +kernel
def unparking : State := { isle id with mode := .parked, power := { base.power with unparking := true } }
theorem test_unpark_done : readsAll [slowRead] unparking = true ∧ ramped (bootRun [slowRead] unparking) = true ∧ (after (.unparkDone [slowRead]) unparking).mode = .serving ∧
    (after (.unparkDone [slowRead]) unparking).power.parkResult = 3 ∧ exec (.unparkDone []) unparking = .next unparking :=
  ⟨by decide +kernel, by decide +kernel, by decide +kernel, by decide +kernel, rfl⟩
/-- With a point above the one at which the island starts, the run is over and the island climbs first. -/
def climbing : State := after (.unparkDone [slackRead 0x42 24]) unparking
theorem test_unpark_ramps : ramped (bootRun [slackRead 0x42 24] unparking) = false ∧ climbing.mode = .parked ∧ climbing.power.unparkRan = true ∧
    after (.unparkDone []) climbing = climbing ∧ (after (.unparkDone []) (updIsl climbing 0 (fun i => { i with current := i.target }))).mode = .serving := by decide +kernel

def critical (key since : Nat) : State := { base with power := { base.power with critical := [(key, since)] } }
def criticalAfter (c : Instr) (s : State) : Tab Nat × ModState := let t := after c s; (t.power.critical, t.mode)
theorem test_junction : criticalAfter (.junctionTempChange 0 104) (critical 0 5) = ([], .serving) ∧ criticalAfter (.junctionTempChange 0 105) base = ([(0, 1000000000)], .serving) ∧
    criticalAfter (.junctionTempChange 0 114) (critical 0 5) = ([(0, 5)], .serving) ∧ (criticalAfter (.junctionTempChange 0 115) base).2 = .faulted ∧
    (getIsl (after (.junctionTempChange 0 114) base) 0).tempC = 114 ∧ (after (.junctionTempChange 0 115) base).pm.fault = 5 := by decide +kernel
theorem test_stack_temp : criticalAfter (.hbmTempChange 11 105) base = ([(523, 1000000000)], .serving) ∧ (getMc (after (.hbmTempChange 11 105) base) 11).tempC = 105 ∧
    criticalAfter (.hbmTempChange 11 104) (critical 523 5) = ([], .serving) ∧ (criticalAfter (.hbmTempChange 11 115) base).2 = .faulted := by decide +kernel
theorem test_thermal_timeout : (after .thermalCriticalTimeout (critical 0 0)).mode = .faulted ∧ exec .thermalCriticalTimeout (critical 0 1) = .next (critical 0 1) :=
  ⟨by decide +kernel, rfl⟩
theorem test_power_limit : (after (.inputPowerLimit 1601) base).power.powerLimit = true ∧ (after (.inputPowerLimit 1600) base).power.powerLimit = false ∧
    (after (.inputPowerLimit 1550) { base with power := { base.power with powerLimit := true } }).power.powerLimit = true ∧
    (after (.inputPowerLimit 1549) { base with power := { base.power with powerLimit := true } }).power.powerLimit = false := by decide +kernel
def stuckCore (ended : Nat) : State := runningCore endOp (fun c => { c with window := [issued fanOp 0 true], endedAt := some ended })
theorem test_core_reset : coreStuck (stuckCore 999000000) 0 = true ∧ (getCore (after (.coreReset 0) (stuckCore 999000000)) 0).window = [] ∧
    (getCore (after (.coreReset 0) (stuckCore 999000000)) 0).phase = .faulted ∧ coreStuck (stuckCore 999000001) 0 = false ∧ coreJoining (stuckCore 999000001) 0 = false ∧
    exec (.coreReset 0) (stuckCore 999000001) = .next (stuckCore 999000001) := ⟨by decide +kernel, by decide +kernel, by decide +kernel, by decide +kernel, by decide +kernel, rfl⟩
/-- A core that a re-blend has newly linked. -/
def newlyLinked : State := setLoad (reblending .resuming base) (some { anyLoad .reblend .resuming [] with next := nextPlan, joining := [1] })
theorem test_core_joins : coreJoining newlyLinked 1 = true ∧ coreJoining newlyLinked 2 = false ∧ coreJoining (after (.coreReset 1) newlyLinked) 1 = false ∧
    (getCore (after (.coreReset 1) newlyLinked) 1).phase = .idle := by decide +kernel
theorem test_idle_gate : islandIdle (isle id) 0 = true ∧ (getIsl (after (.islandIdleGate 0) (isle id)) 0).power = 1 ∧
    islandIdle (setIsl (running endOp) 0 { islandReset with power := 2 }) 0 = false ∧ exec (.islandIdleGate 0) base = .next base :=
  ⟨by decide +kernel, by decide +kernel, by decide +kernel, rfl⟩

/-! ### The control window, the Carrier and the sideband -/

def write (off : Fin 33554432) (v : Dword) (wide : Bool) : Instr := .registerWrite (.host 0) off v wide
theorem test_unreached : reaches base (.host 1) = false ∧ exec (.registerWrite (.host 1) 0x2000C0 1 false) base = .next base ∧
    exec (.accessMisaligned (.host 1) 0 2 true) base = .next base ∧ exec (.semPostRegister (.host 1) 0 1) base = .next base := ⟨by decide +kernel, rfl, rfl, rfl⟩
theorem test_access : accessFits 0 2 true = false ∧ (after (.accessMisaligned (.host 0) 0 2 true) base).answers = [[0xFF, 0xFF]] ∧
    accessFits 0x200080 8 false = false ∧ (after (write 0x200080 1 true) base).log ≠ base.log ∧ (after (write 0x200080 1 true) base).answers = [] := by decide +kernel
theorem test_sem_post : carrierSem base 0xFFFF = true ∧ carrierSem base 0 = false ∧
    (getSem (after (.semPostRegister (.host 0) 0 3) { base with selects := [(0, { dieSelectReset with sem := 0xFFFF })] }) 0xFFFF).value = 3 ∧
    exec (.semPostRegister (.host 0) 0 3) base = .next base := ⟨by decide +kernel, by decide +kernel, by decide +kernel, rfl⟩
theorem test_write_fields : (getCore (after (write 0x253080 0x25 false) (setCore base 83 { coreReset with fpStatus := 0x7F })) 83).fpStatus = 0x5A ∧
    (getMc (after (write 0x369068 0x12345 false) base) 11).expressMax = 0x2345 ∧
    (let l := (after (write 0x27E058 0x3FF0304 false) base).log; (l.vector, l.irqSev, l.mirrorSev)) = (0x3FF, 3, 4) := by decide +kernel
theorem test_write_ring : (getQ (after (write 0x20390 0x123456789ABCDEF0 true) base) 7).sqRing = 0x56789ABCDEF0 ∧
    exec (write 0x20390 5 true) (setQ base 7 { queueReset with enable := true }) = .next (setQ base 7 { queueReset with enable := true }) := ⟨by decide +kernel, rfl⟩
theorem test_write_args : ownsSlot base (.host 0) 3 = true ∧ ownsSlot base (.host 0) 8 = false ∧
    (getSlot (after (write 0x147F8 0x0807060504030201 true) base) 3).args = [(0x7B8, 1), (0x7B9, 2), (0x7BA, 3), (0x7BB, 4), (0x7BC, 5), (0x7BD, 6), (0x7BE, 7), (0x7BF, 8)] ∧
    after (write 0x19040 1 true) base = base ∧ accessFits 0x10FFC 4 false = true ∧ after (write 0x10FFC 1 false) base = base := by decide +kernel
theorem test_carrier_barred : carrierBarred 0x48100 = true ∧ carrierReadOnly 0x11000 = true ∧ accessFits 0x48100 4 false = true ∧
    (after (.registerWrite (.carrier 0) 0x48100 1 false) base).log ≠ base.log ∧ (after (.registerWrite (.carrier 0) 0x48100 1 false) base).host = base.host := by decide +kernel
def inWindow : State := memWrite (atStack []) 0x1000000 (clean [7])
theorem test_carrier_access : inCarrierWindow inWindow 0x1000000 1 = true ∧ inCarrierWindow inWindow 0xFFFFFF 1 = false ∧
    (after (.carrierAccess 0 (.readMem 0x1000000 1)) inWindow).answers = [[7]] ∧ (after (.carrierAccess 0 (.readMem 0xFFFFFF 1)) inWindow).answers = [[0]] ∧
    memByte (after (.carrierAccess 0 (.writeMem 0x1000000 [8])) inWindow) 0x1000000 = 8 ∧ (after (.carrierAccess 0 (.writeMem 0xFFFFFF [8])) inWindow).mem = inWindow.mem ∧
    (after (.carrierAccess 1 (.readReg 0x18 false)) base).answers = [[4, 0, 0, 0]] ∧ (after (.carrierAccess 0 (.readReg 0x10 true)) base).answers = [leBytes 8 1000000000] := by
  decide +kernel
/-- With an earlier access to the line waiting at the stop. -/
def windowBusy : State := { inWindow with mc := (atStack [{ arrived .write with addr := 0x1000000 }]).mc }
theorem test_carrier_turn : hbmReady inWindow 1 0x1000000 1 = true ∧ hbmReady windowBusy 1 0x1000000 1 = false ∧
    after (.carrierAccess 0 (.readMem 0x1000000 1)) windowBusy = windowBusy ∧ after (.carrierAccess 0 (.writeMem 0x1000000 [8])) windowBusy = windowBusy := by decide +kernel
theorem test_carrier_halted : exec (.carrierAccess 0 (.readMem 0x1000000 1)) (carrierHalted base) = .next (carrierHalted base) := rfl

theorem test_sideband : (after .sbReadModId base).answers = [[0x40, 0x96, 0x4E, 0x1D]] ∧ (after .sbReadModState base).answers = [[4, 0, 0, 0]] ∧
    exec .sbReadModId { base with mode := .off } = .next { base with mode := .off } ∧ exec (.sbReadModuleRecord 0 32) base = .next { base with answers := [[]] } ∧
    (after (.sbReadModuleRecord 0x1000 2) { base with pm := { base.pm with copy := some recordReset } }).answers = [[0, 0]] ∧
    (after .sbReadAlertStatus { base with power := { base.power with alertFaulted := true } }).answers = [[2, 0, 0, 0]] ∧
    (after .sbReadAlertStatus { base with power := { base.power with alertFaulted := true } }).power.alertFaulted = false :=
  ⟨by decide +kernel, by decide +kernel, rfl, rfl, by decide +kernel, by decide +kernel, by decide +kernel⟩
theorem test_sideband_unused : knownCommand 0xF0 = false ∧ (after (.sbUnusedCommand 0xF0) base).answers = [[0xFF]] := by decide +kernel

end Sys2Proof.Tests
end

section
/-! SUPPORT. The counters, the control and the staging of a queue (R351-R358, R375): what each operation does in each of its cases, and the
statement O42 put together from them. -/

namespace Sys2Proof.Machine

/-! ### An event always shows in the log (R452) -/

/-- An entry takes a place in its island's queue, or is counted as dropped. -/
theorem queueEntry_cases (e : LogEntry) (l : LogState) :
    queueEntry e l = (true, { l with queues := tabSet [] l.queues e.source (tabGet [] l.queues e.source ++ [e]) }) ∨
    queueEntry e l = (false, countDropped l) := by
  by_cases room : (tabGet [] l.queues e.source).length < 16
  · exact .inl (if_pos room)
  · exact .inr (if_neg room)

theorem droppedSince_le_queueEntry (e : LogEntry) (l : LogState) : l.droppedSince ≤ (queueEntry e l).2.droppedSince := by
  obtain eq | eq := queueEntry_cases e l
  · simp [eq]
  · simp [eq, countDropped]

theorem droppedSince_le_noteDropped (s : State) (l : LogState) : l.droppedSince ≤ (noteDropped s l).droppedSince := by
  unfold noteDropped logLimitedEntry
  split
  case h_1 => exact Nat.le_refl _
  case h_2 => exact droppedSince_le_queueEntry _ _

/-- An event changes the log whether or not there is room for its entry: a queue is longer, or one more entry is counted as dropped. -/
theorem logEvent_log_ne (e : Event) (source : Nat) (data : List Byte) (s : State) : (logEvent e source data s).log ≠ s.log := by
  intro same
  obtain room | full := queueEntry_cases (mkEntry s e source data) s.log
  · simp only [logEvent, room, if_true] at same
    have longer := congrArg (fun l => tabGet [] l.queues source) same
    simp [mkEntry] at longer
  · simp only [logEvent, full, Bool.false_eq_true, if_false] at same
    have counted := droppedSince_le_noteDropped s (countDropped s.log)
    rw [same] at counted
    exact Nat.not_succ_le_self _ counted

/-! ### One queue is written -/

theorem setQ_otherQueues (s : State) (q : Nat) (x : QueueState) : OtherQueues q s (setQ s q x) := fun _ h => getQ_setQ_ne s x h

@[simp] theorem getQ_updQ (s : State) (q : Nat) (f : QueueState → QueueState) : getQ (updQ s q f) q = f (getQ s q) := getQ_setQ _ _ _

theorem updQ_otherQueues (s : State) (q : Nat) (f : QueueState → QueueState) : OtherQueues q s (updQ s q f) := setQ_otherQueues _ _ _

theorem OtherQueues.trans {q : Nat} {s t u : State} (h : OtherQueues q s t) (h' : OtherQueues q t u) : OtherQueues q s u :=
  fun r hr => (h' r hr).trans (h r hr)

theorem logEvent_otherQueues (q : Nat) (e : Event) (source : Nat) (data : List Byte) (s : State) :
    OtherQueues q s (logEvent e source data s) := fun _ _ => getQ_logEvent _ _ _ _ _

/-! ### The counters (R353, R358) -/

/-- What an invalid counter write leaves: `ERROR` set in the queue, and the event logged with the queue and the value. -/
def refuseCounter (e : Event) (a : Agent) (q v : Nat) (s : State) : State :=
  logEvent e (agentIsland a) (leBytes 2 q ++ leBytes 4 v) (setQ s q { getQ s q with error := true })

theorem refuseCounter_effect (e : Event) (a : Agent) (q v : Nat) (s : State) :
    getQ (refuseCounter e a q v s) q = { getQ s q with error := true } ∧
    (refuseCounter e a q v s).log = (logEvent e (agentIsland a) (leBytes 2 q ++ leBytes 4 v) s).log ∧
    OtherQueues q s (refuseCounter e a q v s) ∧ SameExcept [.log, .qs] s (refuseCounter e a q v s) := by
  refine ⟨?_, rfl, ?_, ?_⟩
  · simp [refuseCounter]
  · exact (setQ_otherQueues s q _).trans (logEvent_otherQueues q _ _ _ _)
  · exact ((setQ_reach s q _).weaken (by decide)).trans ((logEvent_reach _ _ _ _).weaken (by decide))

theorem writeTail_of_barred {a : Agent} {q : Nat} {s : State} (v : Nat) (h : mayDrive s a q = false ∨ (getQ s q).ringFed = true) :
    writeTail a q v s = s := if_pos (by simpa using h)

theorem writeHead_of_barred {a : Agent} {q : Nat} {s : State} (v : Nat) (h : mayDrive s a q = false ∨ (getQ s q).ringFed = true) :
    writeHead a q v s = s := if_pos (by simpa using h)

section
variable {a : Agent} {q v : Nat} {s : State} (drive : mayDrive s a q = true) (hostFed : (getQ s q).ringFed = false)
include drive hostFed

theorem writeTail_of_valid (valid : ahead v (getQ s q).sqHead ≤ queueDepth s q) :
    writeTail a q v s = setQ s q { getQ s q with sqTail := v, doorbells := ringBell (getQ s q) v s.devTime, idle := false } := by
  simp [writeTail, drive, hostFed, valid]

theorem writeTail_of_invalid (invalid : queueDepth s q < ahead v (getQ s q).sqHead) :
    writeTail a q v s = refuseCounter .sqTailInvalid a q v s := by
  simp [writeTail, refuseCounter, drive, hostFed, Nat.not_le.2 invalid]

theorem writeHead_of_valid (valid : ahead v (getQ s q).rqHead ≤ ahead (getQ s q).rqTail (getQ s q).rqHead) :
    writeHead a q v s = setQ s q { getQ s q with rqHead := v } := by
  simp [writeHead, drive, hostFed, valid]

theorem writeHead_of_invalid (invalid : ahead (getQ s q).rqTail (getQ s q).rqHead < ahead v (getQ s q).rqHead) :
    writeHead a q v s = refuseCounter .rqHeadInvalid a q v s := by
  simp [writeHead, refuseCounter, drive, hostFed, Nat.not_le.2 invalid]

end

/-! ### The control (R352) -/

@[simp] theorem ctrlFields_enable (x : QueueState) (v : Nat) : (ctrlFields x v).enable = x.enable := rfl

/-- R352's conditions read the binding, the claim, the rings and the counters of a queue, none of which `SQ_CTRL` holds. -/
theorem mayEnable_updQ_ctrlFields (s : State) (q v : Nat) : mayEnable (updQ s q (fun x => ctrlFields x v)) q = mayEnable s q := by
  unfold mayEnable
  rw [getQ_updQ]
  rfl

section
variable {a : Agent} {q v : Nat} {s : State} (drive : mayDrive s a q = true)
include drive

/-- ENABLE takes effect: the queue is enabled already, or R352's conditions hold. -/
theorem enableQueue_of_allowed (one : bitOf v 31 = true) (allowed : (getQ s q).enable = true ∨ mayEnable s q = true) :
    getQ (enableQueue a q v s) q = { ctrlFields (getQ s q) v with enable := true } ∧
    OtherQueues q s (enableQueue a q v s) ∧ SameExcept [.qs] s (enableQueue a q v s) := by
  cases on : (getQ s q).enable with
  | true =>
    have eq : enableQueue a q v s = updQ s q (fun x => ctrlFields x v) := by
      simp [enableQueue, drive, one, on]
    rw [eq]
    exact ⟨by simp [ctrlFields, on], updQ_otherQueues _ _ _, updQ_reach _ _ _⟩
  | false =>
    have may : mayEnable s q = true := allowed.resolve_left (by simp [on])
    have eq : enableQueue a q v s = updQ (updQ s q (fun x => ctrlFields x v)) q (fun x => { x with enable := true }) := by
      simp [enableQueue, drive, one, mayEnable_updQ_ctrlFields, may, on]
    rw [eq]
    exact ⟨by simp, (updQ_otherQueues _ _ _).trans (updQ_otherQueues _ _ _), (updQ_reach _ _ _).trans (updQ_reach _ _ _)⟩

/-- ENABLE is refused: the other fields are written, and the refusal is logged. -/
theorem enableQueue_of_refused (one : bitOf v 31 = true) (off : (getQ s q).enable = false) (mayNot : mayEnable s q = false) :
    getQ (enableQueue a q v s) q = ctrlFields (getQ s q) v ∧ (enableQueue a q v s).log ≠ s.log ∧ OtherQueues q s (enableQueue a q v s) := by
  have eq : enableQueue a q v s =
      logEvent .queueConfigRefused (agentIsland a) (leBytes 2 q) (updQ s q (fun x => ctrlFields x v)) := by
    simp [enableQueue, drive, one, mayEnable_updQ_ctrlFields, mayNot, off]
  rw [eq]
  exact ⟨by simp, logEvent_log_ne _ _ _ _, (updQ_otherQueues _ _ _).trans (logEvent_otherQueues q _ _ _ _)⟩

/-- A write of 0 writes the other fields, stops the queue and drops what it has staged (log entry 43). -/
theorem disableQueue_of_zero (zero : bitOf v 31 = false) :
    disableQueue a q v s = updQ s q (fun x => { ctrlFields x v with enable := false, staged := [] }) := by
  simp [disableQueue, drive, zero]

end

/-! ### Staging (R355-R359) -/

section
variable {q : Nat} {s : State} (b enc : List Byte) (refused : Bool) (serve : mayServe s q = true)
include serve

theorem stageEnvelope_of_none_left (none_left : ahead (getQ s q).sqTail (getQ s q).sqHead ≤ (getQ s q).staged.length) :
    stageEnvelope q b enc refused s = setQ s q { getQ s q with idle := true } := by
  simp [stageEnvelope, serve, none_left]

variable (more : (getQ s q).staged.length < ahead (getQ s q).sqTail (getQ s q).sqHead) (place : (getQ s q).staged.length < 2)
include more place

/-- The next envelope of a host's ring is fetched and checked. -/
theorem stageEnvelope_of_hostFed (hostFed : (getQ s q).ringFed = false) :
    stageEnvelope q b enc refused s = setQ s q { getQ s q with
      staged := (getQ s q).staged ++ [readEnvelope s q (padTo 64 b) enc refused .ring (((getQ s q).sqHead + (getQ s q).staged.length) % 2 ^ 32)
        (bellTime (getQ s q) (getQ s q).staged.length s.devTime)],
      idle := decide (ahead (getQ s q).sqTail (getQ s q).sqHead = (getQ s q).staged.length + 1) } := by
  simp [stageEnvelope, serve, Nat.not_le.2 more, Nat.not_le.2 place, hostFed]

/-- The next envelope that the Courier ring has brought is taken as it came. -/
theorem stageEnvelope_of_ringFed {e : Envelope} (ringFed : (getQ s q).ringFed = true) (brought : (getQ s q).fed[(getQ s q).staged.length]? = some e) :
    stageEnvelope q b enc refused s = setQ s q { getQ s q with
      staged := (getQ s q).staged ++ [e],
      idle := decide (ahead (getQ s q).sqTail (getQ s q).sqHead = (getQ s q).staged.length + 1) } := by
  simp [stageEnvelope, serve, Nat.not_le.2 more, Nat.not_le.2 place, ringFed, brought]

end

/-! ### The commands -/

theorem exec_sqTailWrite (a : Agent) (q : Fin 1024) (v : Word) (s : State) :
    exec (.sqTailWrite a q v) s = .next (writeTail a q.val v.toNat s) := rfl
theorem exec_rqHeadWrite (a : Agent) (q : Fin 1024) (v : Word) (s : State) :
    exec (.rqHeadWrite a q v) s = .next (writeHead a q.val v.toNat s) := rfl
theorem exec_sqEnable (a : Agent) (q : Fin 1024) (v : Word) (s : State) :
    exec (.sqEnable a q v) s = .next (enableQueue a q.val v.toNat s) := rfl
theorem exec_sqDisable (a : Agent) (q : Fin 1024) (v : Word) (s : State) :
    exec (.sqDisable a q v) s = .next (disableQueue a q.val v.toNat s) := rfl
theorem exec_envelopeStage (q : Fin 1024) (b enc : List Byte) (refused : Bool) (s : State) :
    exec (.envelopeStage q b enc refused) s = .next (stageEnvelope q.val b enc refused s) := rfl

/-- Settles O42: the cases of each of the five commands, as the lemmas above give them. -/
theorem queuesTakeTheirCountersAndEnvelopes : Obligations.QueuesTakeTheirCountersAndEnvelopes := by
  intro a queue v s q x refused
  simp only [exec_sqTailWrite, exec_rqHeadWrite, exec_sqEnable, exec_sqDisable, exec_envelopeStage]
  refine ⟨fun barred => ⟨?_, ?_⟩, fun drive hostFed => ⟨?_, ?_, ?_, ?_⟩, fun drive => ⟨?_, ?_, ?_⟩, fun b enc bad serve => ⟨?_, ?_, ?_⟩⟩
  · rw [writeTail_of_barred _ barred]
  · rw [writeHead_of_barred _ barred]
  · intro valid
    rw [writeTail_of_valid drive hostFed valid]
  · intro invalid
    exact ⟨_, congrArg _ (writeTail_of_invalid drive hostFed invalid), refuseCounter_effect _ _ _ _ _⟩
  · intro valid
    rw [writeHead_of_valid drive hostFed valid]
  · intro invalid
    exact ⟨_, congrArg _ (writeHead_of_invalid drive hostFed invalid), refuseCounter_effect _ _ _ _ _⟩
  · intro one allowed
    exact ⟨_, rfl, enableQueue_of_allowed drive one allowed⟩
  · intro one off mayNot
    obtain ⟨written, logged, others⟩ := enableQueue_of_refused drive one off mayNot
    exact ⟨_, rfl, written, logged, others, enableQueue_reach _ _ _ _⟩
  · intro zero
    exact ⟨_, congrArg _ (disableQueue_of_zero drive zero), getQ_updQ _ _ _, updQ_otherQueues _ _ _, updQ_reach _ _ _⟩
  · intro none_left
    rw [stageEnvelope_of_none_left b enc bad serve none_left]
  · intro more place hostFed
    rw [stageEnvelope_of_hostFed b enc bad serve more place hostFed]
  · intro e more place ringFed brought
    rw [stageEnvelope_of_ringFed b enc bad serve more place ringFed brought]

end Sys2Proof.Machine
end

section
/-! SUPPORT. The module state (R461): which parts of the state each command reaches, put together from what its operation reaches; what leaves
the module state as it was; the entries into FAULTED (R462); the other rows of the table; and the statement O7 put together from them. -/

namespace Sys2Proof.Machine

/-! ### Changes of one field, and of a choice -/

theorem sameExcept_power (s : State) (x : PowerState) : SameExcept [.power] s { s with power := x } := by
  intro p hp
  cases p with
  | power => exact absurd (List.mem_singleton.2 rfl) hp
  | mem => exact ⟨rfl, fun _ => rfl⟩
  | xfers => exact ⟨rfl, rfl⟩
  | _ => exact rfl

theorem sameExcept_seg (s : State) (x : SegState) : SameExcept [.seg] s { s with seg := x } := by
  intro p hp
  cases p with
  | seg => exact absurd (List.mem_singleton.2 rfl) hp
  | mem => exact ⟨rfl, fun _ => rfl⟩
  | xfers => exact ⟨rfl, rfl⟩
  | _ => exact rfl

theorem sameExcept_courier (s : State) (x : CourierState) : SameExcept [.courier] s { s with courier := x } := by
  intro p hp
  cases p with
  | courier => exact absurd (List.mem_singleton.2 rfl) hp
  | mem => exact ⟨rfl, fun _ => rfl⟩
  | xfers => exact ⟨rfl, rfl⟩
  | _ => exact rfl

theorem SameExcept.ite {ps : List Part} {p : Prop} [Decidable p] {s t u : State} (h : SameExcept ps s t) (h' : SameExcept ps s u) :
    SameExcept ps s (if p then t else u) := by
  split
  · exact h
  · exact h'

/-! ### The table commands (R245): a code on the state as it was, or a write of the die's store -/

theorem tableDefine_reach (die table : Nat) (a : List Dword) (s : State) : SameExcept [.stores] s (tableDefine die table a s).2 := by
  unfold tableDefine
  extract_lets
  split
  · exact .refl _ _
  split
  · exact .refl _ _
  split
  · exact .refl _ _
  · exact updStore_reach _ _ _

theorem tableStage_reach (die table : Nat) (a : List Dword) (s : State) : SameExcept [.stores] s (tableStage die table a s).2 := by
  unfold tableStage
  dsimp only
  split
  · exact .refl _ _
  split
  · exact .refl _ _
  split
  · exact .refl _ _
  split
  · exact .refl _ _
  · exact updStore_reach _ _ _

theorem tableSwitch_reach (die table : Nat) (a : List Dword) (s : State) : SameExcept [.stores] s (tableSwitch die table a s).2 := by
  unfold tableSwitch
  split
  · exact .refl _ _
  split
  · exact .refl _ _
  split
  · exact updStore_reach _ _ _
  · exact .refl _ _

theorem tableRetire_reach (die table : Nat) (force : Bool) (done : Option Nat) (a : List Dword) (s : State) :
    SameExcept [.log, .isl, .qs, .sems, .cores, .links, .grinders, .stores] s (tableRetire die table force done a s).2 := by
  unfold tableRetire
  split
  · exact .refl _ _
  split
  · exact .refl _ _
  split
  · exact .refl _ _
  split
  · exact .refl _ _
  refine (settleTable_reach _ _ _).after ?_
  split
  · exact .forEach (fun _ _ => (stopBatch_reach _ _ _ _).weaken rfl) _ ((updStore_reach _ _ _).weaken rfl)
  · exact (updStore_reach _ _ _).weaken rfl

theorem tableUpdate_reach (die table : Nat) (done : Option Nat) (a : List Dword) (s : State) :
    SameExcept [.stores] s (tableUpdate die table done a s).2 := by
  unfold tableUpdate
  dsimp only
  split
  · exact .refl _ _
  split
  · exact .refl _ _
  split
  · exact .refl _ _
  split_ifs
  · exact .refl _ _
  · exact .refl _ _
  · exact updStore_reach _ _ _

theorem tableUndefine_reach (die table : Nat) (done : Option Nat) (a : List Dword) (s : State) :
    SameExcept [.log, .isl, .qs, .sems, .cores, .links, .grinders, .stores] s (tableUndefine die table done a s).2 := by
  unfold tableUndefine
  split
  · exact .refl _ _
  split
  · exact .refl _ _
  split
  · exact .refl _ _
  · exact (settleTable_reach _ _ _).step rfl ((updStore_reach _ _ _).weaken rfl)

/-! ### The commands -/

/-- Every command answers a next state, in which every part but those that `Reaches` lists is as it was. -/
theorem exec_reach (c : Instr) (s : State) : ∃ t, exec c s = .next t ∧ SameExcept (Reaches c) s t := by
  cases c with
  | accessMisaligned => exact ⟨_, rfl, .ite ((misaligned_reach _ _ _ _ _).weaken rfl) (.refl _ _)⟩
  | registerWrite => exact ⟨_, rfl, (registerWrite_reach _ _ _ _ _).weaken rfl⟩
  | islClockStep => exact ⟨_, rfl, (clockStep_reach _ _).weaken rfl⟩
  | packetDeliver =>
    refine ⟨_, rfl, ?_⟩
    split
    · exact (deliverQueued_reach _ _ _).weaken rfl
    · split
      · exact (circuitError_reach _ _ _ _ _).weaken rfl
      · exact .refl _ _
    · exact (deliverHostData_reach _ _ _ _ _).weaken rfl
  | blendLoad | blendStage => exact ⟨_, rfl, pmCall_reach (fun _ _ _ => (acceptImage_reach _ _ _ _ _ _ _ _).weaken rfl) rfl (.refl _ _)⟩
  | reblend => exact ⟨_, rfl, pmCall_reach (fun _ _ _ => (acceptReblend_reach _ _ _ _).weaken rfl) rfl (.refl _ _)⟩
  | blendCopyDone => exact ⟨_, rfl, (inPhase_reach (fun _ _ => copied_reach _ _ _) (.refl _ _)).weaken rfl⟩
  | blendMeasureDone => exact ⟨_, rfl, (inPhase_reach (fun _ _ => measured_reach _ _) (.refl _ _)).weaken rfl⟩
  | blendSignatureDone => exact ⟨_, rfl, (inPhase_reach (fun _ _ => signatureDone_reach _ _) (.refl _ _)).weaken rfl⟩
  | blendValidateDone => exact ⟨_, rfl, (inPhase_reach (fun _ _ => validated_reach _ _) (.refl _ _)).weaken rfl⟩
  | blendApplyDone => exact ⟨_, rfl, (inPhase_reach (fun _ _ => applyFull_reach _ _) (.refl _ _)).weaken rfl⟩
  | plannerBootRunDone =>
    refine ⟨_, rfl, ?_⟩
    split
    · exact .ite ((inPhase_reach (fun _ _ => rampDone_reach _ _) (.refl _ _)).weaken rfl)
        ((inPhase_reach (fun _ _ => bootRunDone_reach _ _ _) (.refl _ _)).weaken rfl)
    · exact .refl _ _
  | reblendStopDone => exact ⟨_, rfl, (inPhase_reach (fun _ _ => stopDone_reach _ _) (.refl _ _)).weaken rfl⟩
  | drainTimeout => exact ⟨_, rfl, (inPhase_reach (fun _ _ => drainLate_reach _ _) (.refl _ _)).weaken rfl⟩
  | reblendCleanDone => exact ⟨_, rfl, (inPhase_reach (fun _ _ => cleanDone_reach _ _ _) (.refl _ _)).weaken rfl⟩
  | reblendResume => exact ⟨_, rfl, (inPhase_reach (fun _ _ => resumeTarget_reach _ _) (.refl _ _)).weaken rfl⟩
  | matGrid | matFan | matWide | vec | movLoad | movLoadUnseal | movStore | movLocal | movFillNear | movFillFar | grd | semWait | semPost |
  semSet | ctlEnd | ctlLoop | ctlSet | ctlLdx | ctlArm | ctlCheap | ctlLive | ctlDebugAccRead | ctlDebugBreak =>
    exact ⟨_, rfl, (issueLogical_reach _ _ _).weaken rfl⟩
  | matStart => exact ⟨_, rfl, (onCore_reach (fun _ _ => startMat_reach _ _) (.refl _ _)).weaken rfl⟩
  | accOverflow => exact ⟨_, rfl, (onCore_reach (fun _ _ => overflowMat_reach _ _) (.refl _ _)).weaken rfl⟩
  | accReplayRestart => exact ⟨_, rfl, (onCore_reach (fun _ _ => restartMat_reach _ _) (.refl _ _)).weaken rfl⟩
  | matComplete => exact ⟨_, rfl, (onCore_reach (fun _ _ => completeMat_reach _ _) (.refl _ _)).weaken rfl⟩
  | vecStart => exact ⟨_, rfl, (onCore_reach (fun _ _ => startVec_reach _ _) (.refl _ _)).weaken rfl⟩
  | vecComplete => exact ⟨_, rfl, (onCore_reach (fun _ _ => completeVec_reach _ _) (.refl _ _)).weaken rfl⟩
  | movComplete => exact ⟨_, rfl, (onCore_reach (fun _ _ => completeMov_reach _ _ _) (.refl _ _)).weaken rfl⟩
  | unsealCheckDone => exact ⟨_, rfl, (onCore_reach (fun _ _ => checkUnseal_reach _ _ _) (.refl _ _)).weaken rfl⟩
  | semPostFire => exact ⟨_, rfl, (onCore_reach (fun _ _ => firePost_reach _ _) (.refl _ _)).weaken rfl⟩
  | waitTimeout => exact ⟨_, rfl, (onCore_reach (fun _ _ => waitTimeout_reach _ _) (.refl _ _)).weaken rfl⟩
  | overrun => exact ⟨_, rfl, (onCore_reach (fun _ _ => overrun_reach _ _ _) (.refl _ _)).weaken rfl⟩
  | blockFetchDone => exact ⟨_, rfl, (onCore_reach (fun _ _ => fetchBlock_reach _ _ _ _ _) (.refl _ _)).weaken rfl⟩
  | invocationEnd => exact ⟨_, rfl, (finishInv_reach _ _).weaken rfl⟩
  | seqStepStep => exact ⟨_, rfl, (whenReached_reach (fun _ => stepCore_reach _ _ _) (.refl _ _)).weaken rfl⟩
  | seqStepHalt => exact ⟨_, rfl, (whenReached_reach (fun _ => haltCore_reach _ _ _) (.refl _ _)).weaken rfl⟩
  | dbgScrDataRead agent port =>
    refine ⟨_, rfl, whenReached_reach (fun _ => ?_) (.refl _ _)⟩
    cases port.half with
    | none => exact debugRead_reach _ _ _ _ _
    | some h => exact debugRead_reach _ _ _ _ _
  | switchRequest =>
    refine ⟨_, rfl, ?_⟩
    split
    · exact (requestSwitch_reach _ _ _).weaken rfl
    · exact .refl _ _
  | tileBoundarySave => exact ⟨_, rfl, (onCore_reach (fun _ _ => saveCore_reach _ _) (.refl _ _)).weaken rfl⟩
  | spillSaveDone => exact ⟨_, rfl, (onCore_reach (fun _ _ => saveDone_reach _ _) (.refl _ _)).weaken rfl⟩
  | contextResume => exact ⟨_, rfl, (resumeInv_reach _ _ _).weaken rfl⟩
  | resumeRestoreDone => exact ⟨_, rfl, (onCore_reach (fun _ _ => restoreDone_reach _ _) (.refl _ _)).weaken rfl⟩
  | streamChunkIssue => exact ⟨_, rfl, (issueChunk_reach _ _).weaken rfl⟩
  | streamChunkLanded => exact ⟨_, rfl, (chunkLanded_reach _ _ _).weaken rfl⟩
  | streamStall => exact ⟨_, rfl, (stallXfer_reach _ _).weaken rfl⟩
  | grdBatchBegin =>
    refine ⟨_, rfl, (grinderBegin_reach _ _).step rfl ?_⟩
    split
    · exact .refl _ _
    · exact (updIsl_reach _ _ _).weaken rfl
  | grdRowReadReturn => exact ⟨_, rfl, (rowReturn_reach _ _ _ _).weaken rfl⟩
  | grdBatchComplete => exact ⟨_, rfl, (completeBatch_reach _ _ _).weaken rfl⟩
  | tableDefine =>
    refine ⟨_, rfl, tableCommand_reach (fun _ _ _ _ => ?_) rfl (.refl _ _)⟩
    split
    · exact (tableDefine_reach _ _ _ _).weaken rfl
    · exact .refl _ _
  | tableStage => exact ⟨_, rfl, tableCommand_reach (fun _ _ _ _ => (tableStage_reach _ _ _ _).weaken rfl) rfl (.refl _ _)⟩
  | tableSwitch => exact ⟨_, rfl, tableCommand_reach (fun _ _ _ _ => (tableSwitch_reach _ _ _ _).weaken rfl) rfl (.refl _ _)⟩
  | tableRetire | tableRetireForce =>
    exact ⟨_, rfl, tableCommand_reach (fun _ _ _ _ => (tableRetire_reach _ _ _ _ _ _).weaken rfl) rfl (.refl _ _)⟩
  | tableUpdate => exact ⟨_, rfl, tableCommand_reach (fun _ _ _ _ => (tableUpdate_reach _ _ _ _ _).weaken rfl) rfl (.refl _ _)⟩
  | tableUndefine => exact ⟨_, rfl, tableCommand_reach (fun _ _ _ _ => (tableUndefine_reach _ _ _ _ _).weaken rfl) rfl (.refl _ _)⟩
  | updateFold => exact ⟨_, rfl, (foldUpdate_reach _ _ _ _).weaken rfl⟩
  | sessionAdmit => exact ⟨_, rfl, (admitSession_reach _ _).weaken rfl⟩
  | stepBatchBuild => exact ⟨_, rfl, (buildStep_reach _ _ _ _ _ _ _).weaken rfl⟩
  | prefixNodeBadReport => exact ⟨_, rfl, .ite (.forEach (fun _ _ => (setBad_reach _ _).weaken rfl) _ (.refl _ _)) (.refl _ _)⟩
  | hbmAccess => exact ⟨_, rfl, (performAccess_reach _ _ _ _ _).weaken rfl⟩
  | hbmAtomic =>
    refine ⟨_, rfl, ?_⟩
    split
    · exact (atomicAt_reach _ _ _ _ _ _ _ _ _).weaken rfl
    · exact (requestAtomic_reach _ _ _ _ _ _ _ _ _ _ _).weaken rfl
  | backgroundFillStart => exact ⟨_, rfl, (startFill_reach _ _ _ _).weaken rfl⟩
  | backgroundFillDrop => exact ⟨_, rfl, (lateFill_reach _ _ _).weaken rfl⟩
  | evictionWritebackDone => exact ⟨_, rfl, (writeBack_reach _ _ _).weaken rfl⟩
  | hbmPatrolRead => exact ⟨_, rfl, (patrol_reach _ _ _).weaken rfl⟩
  | hbmScrubLate => exact ⟨_, rfl, (patrolBehind_reach _ _).weaken rfl⟩
  | hbmRetrainPauseStart => exact ⟨_, rfl, (startPause_reach _ _ _ _).weaken rfl⟩
  | hbmRetrainPauseEnd => exact ⟨_, rfl, (endPause_reach _ _).weaken rfl⟩
  | cacheCleanDone => exact ⟨_, rfl, (finishClean_reach _ _).weaken rfl⟩
  | segWrite | segClear | segRead => exact ⟨_, rfl, (segCall_reach _ _ _ _ _ _ _ _ _ _ _).weaken rfl⟩
  | segAdviseWillNeed | segAdviseCold | segAdviseReadMostly | segAdviseRevokeRm | segAdviseHot | segAdviseNormal =>
    exact ⟨_, rfl, (adviseCall_reach _ _ _ _ _ _ _ _).weaken rfl⟩
  | segAdviseCopyDone => exact ⟨_, rfl, (copyDone_reach _ _ _).weaken rfl⟩
  | segInvalidateApply => exact ⟨_, rfl, (applyInvalidate_reach _ _ _ _).weaken rfl⟩
  | segWithdrawAck => exact ⟨_, rfl, (ackWithdrawal_reach _ _ _ _).weaken rfl⟩
  | segMissFill =>
    refine ⟨_, rfl, ?_⟩
    split
    · exact (fillMiss_reach _ _ _).weaken rfl
    · exact .refl _ _
  | segFaultResolveRetry =>
    exact ⟨_, rfl, (whenReached_reach (fun _ => resolve_reach (fun _ _ => retryRecord_reach _ _) (.refl _ _)) (.refl _ _)).weaken rfl⟩
  | segFaultResolveFail =>
    exact ⟨_, rfl, (whenReached_reach (fun _ => resolve_reach (fun _ _ => failRecord_reach _ _) (.refl _ _)) (.refl _ _)).weaken rfl⟩
  | segmentFaultTimeout => exact ⟨_, rfl, (faultTimeout_reach _ _).weaken rfl⟩
  | segFaultCtrlWrite =>
    exact ⟨_, rfl,
      (whenReached_reach (fun _ => .forEach (fun _ _ => faultTimeout_reach _ _) _ ((sameExcept_seg _ _).weaken rfl)) (.refl _ _)).weaken rfl⟩
  | gkLinkUp => exact ⟨_, rfl, (linkUp_reach _ _ _ _).weaken rfl⟩
  | gkReplay => exact ⟨_, rfl, (replay_reach _ _).weaken rfl⟩
  | gkRetrain => exact ⟨_, rfl, (ctrlRetrain_reach _ _ _).weaken rfl⟩
  | gkRetrainDone => exact ⟨_, rfl, (retrainDone_reach _ _ _).weaken rfl⟩
  | gkLinkCtrlRetrain | gkLinkCtrlFull => exact ⟨_, rfl, (whenReached_reach (fun _ => ctrlRetrain_reach _ _ _) (.refl _ _)).weaken rfl⟩
  | hostLostTimeout =>
    refine ⟨_, rfl, ?_⟩
    split
    · exact .ite ((loseHost_reach _ _).weaken rfl) (.refl _ _)
    · exact .refl _ _
  | hostReset =>
    refine ⟨_, rfl, ?_⟩
    split
    · exact .forEach (fun _ _ => (updGk_reach _ _ _).weaken rfl) _ ((loseHost_reach _ _).weaken rfl)
    · exact .refl _ _
  | hostRegister => exact ⟨_, rfl, (registerHost_reach _ _ _ _).weaken rfl⟩
  | hostRelease => exact ⟨_, rfl, (releaseHost_reach _ _).weaken rfl⟩
  | hostDrain => exact ⟨_, rfl, (drainHost_reach _ _ _ _).weaken rfl⟩
  | hostAccessRefused => exact ⟨_, rfl, (accessRefused_reach _ _).weaken rfl⟩
  | flushReadReturn => exact ⟨_, rfl, (flushReturn_reach _ _).weaken rfl⟩
  | gkSpillBaseWrite => exact ⟨_, rfl, (whenReached_reach (fun _ => writeSpillBase_reach _ _ _) (.refl _ _)).weaken rfl⟩
  | mailboxToCarrier => exact ⟨_, rfl, ringMailbox_reach (fun _ _ => (toCarrier_reach _ _).weaken rfl) rfl (.refl _ _)⟩
  | mailboxSubmit => exact ⟨_, rfl, ringMailbox_reach (fun _ _ => (submitMail_reach _ _ _ _ _ _).weaken rfl) rfl (.refl _ _)⟩
  | m2hMessage => exact ⟨_, rfl, (sendMessage_reach _ _ _).weaken rfl⟩
  | mbM2hFullRelease => exact ⟨_, rfl, (releaseFull_reach _ _ _).weaken rfl⟩
  | vectorRaise => exact ⟨_, rfl, (actRaise_reach _ _).weaken rfl⟩
  | vectorHoldoffEnd => exact ⟨_, rfl, (sendPending_reach _ _).weaken rfl⟩
  | ivCtrlWrite => exact ⟨_, rfl, (writeIvCtrl_reach _ _ _ _).weaken rfl⟩
  | gkWake => exact ⟨_, rfl, .ite ((updGk_reach _ _ _).step rfl ((updIsl_reach _ _ _).weaken rfl)) (.refl _ _)⟩
  | sqTailWrite => exact ⟨_, rfl, (writeTail_reach _ _ _ _).weaken rfl⟩
  | rqHeadWrite => exact ⟨_, rfl, (writeHead_reach _ _ _ _).weaken rfl⟩
  | sqEnable => exact ⟨_, rfl, (enableQueue_reach _ _ _ _).weaken rfl⟩
  | sqDisable => exact ⟨_, rfl, (disableQueue_reach _ _ _ _).weaken rfl⟩
  | envelopeStage => exact ⟨_, rfl, (stageEnvelope_reach _ _ _ _ _).weaken rfl⟩
  | invocationDispatch => exact ⟨_, rfl, (serveClasses_reach _ _ _).weaken rfl⟩
  | invocationRunnable => exact ⟨_, rfl, (makeRoom_reach _ _).weaken rfl⟩
  | receiptWrite => exact ⟨_, rfl, (writeReceipt_reach _ _).weaken rfl⟩
  | courierReplay | timeExchange => exact ⟨_, rfl, .ite ((updCr_reach _ _ _).weaken rfl) (.refl _ _)⟩
  | courierRetrain => exact ⟨_, rfl, .ite ((crRetrain_reach _ _ _).weaken rfl) (.refl _ _)⟩
  | courierRetrainDone => exact ⟨_, rfl, (crRetrained_reach _ _ _).weaken rfl⟩
  | read =>
    refine ⟨_, rfl, ?_⟩
    split
    · exact .refl _ _
    · refine inFlow_reach (.refl _)
        (fun _ => peerAccess_reach (fun _ => lookUp_reach (fun _ => ?_) rfl (.refl _ _)) rfl (.refl _ _)) rfl (.refl _ _)
      exact (sendPoint_reach _ _ _ _ _ _ _).step rfl ((hbmRead_reach _ _ _ _ _).weaken rfl)
  | readData => exact ⟨_, rfl, (readData_reach _ _ _ _).weaken rfl⟩
  | write =>
    refine ⟨_, rfl, ?_⟩
    split
    · exact .refl _ _
    · refine inFlow_reach (fun _ => (ackMsg_reach _ _).weaken rfl)
        (fun _ => peerAccess_reach (fun _ => lookUp_reach (fun _ => ?_) rfl (.refl _ _)) rfl (.refl _ _)) rfl (.refl _ _)
      exact (ackMsg_reach _ _).step rfl ((captureWrite_reach _ _ _).step rfl ((hbmWrite_reach _ _ _ _ _).weaken rfl))
  | atomic => exact ⟨_, rfl, (peerAtomic_reach _ _ _ _ _ _ _ _ _).weaken rfl⟩
  | ack => exact ⟨_, rfl, (acked_reach _ _ _ _ _).weaken rfl⟩
  | nack => exact ⟨_, rfl, (nacked_reach _ _ _ _ _).weaken rfl⟩
  | gather => exact ⟨_, rfl, (gather_reach _ _ _ _ _ _).weaken rfl⟩
  | step => exact ⟨_, rfl, (stepMsg_reach _ _ _ _ _ _ _).weaken rfl⟩
  | stepReceipt => exact ⟨_, rfl, (stepReturned_reach _ _ _ _ _ _).weaken rfl⟩
  | routed => exact ⟨_, rfl, (routed_reach _ _ _ _ _).weaken rfl⟩
  | join => exact ⟨_, rfl, .ite ((joined'_reach _ _).step rfl ((ackMsg_reach _ _).step rfl ((sameExcept_courier _ _).weaken rfl))) (.refl _ _)⟩
  | assign => exact ⟨_, rfl, (assign_reach _ _ _ _ _).weaken rfl⟩
  | heartbeat => exact ⟨_, rfl, (heartbeat_reach _ _ _).weaken rfl⟩
  | heartbeatSend => exact ⟨_, rfl, (sendBeat_reach _).weaken rfl⟩
  | time => exact ⟨_, rfl, (steerTime_reach _ _ _ _).weaken rfl⟩
  | linkNotice => exact ⟨_, rfl, (control_reach (fun _ => linkNotice_reach _ _ _ _) rfl (.refl _ _)).weaken rfl⟩
  | announce => exact ⟨_, rfl, (control_reach (fun _ => announce_reach _ _) rfl (.refl _ _)).weaken rfl⟩
  | drainRing => exact ⟨_, rfl, (control_reach (fun _ => drainRing_reach _ _ _) rfl (.refl _ _)).weaken rfl⟩
  | courierResend => exact ⟨_, rfl, (resend_reach _ _).weaken rfl⟩
  | courierPeerLost => exact ⟨_, rfl, (peerLost_reach _ _).weaken rfl⟩
  | managerLost => exact ⟨_, rfl, (managerGone_reach _).weaken rfl⟩
  | bypassSwitchSettle => exact ⟨_, rfl, (settleSwitch_reach _ _).weaken rfl⟩
  | caps => exact ⟨_, rfl, pmCall_reach (fun _ _ t => .refl _ t) rfl (.refl _ _)⟩
  | quote => exact ⟨_, rfl, pmCall_reach (fun _ _ _ => (quote_reach _ _ _ _).weaken rfl) rfl (.refl _ _)⟩
  | ownerRegister => exact ⟨_, rfl, pmCall_reach (fun _ _ _ => (ownerRegister_reach _ _ _ _ _).weaken rfl) rfl (.refl _ _)⟩
  | ownerTransfer => exact ⟨_, rfl, pmCall_reach (fun _ _ _ => (ownerTransfer_reach _ _ _ _ _).weaken rfl) rfl (.refl _ _)⟩
  | carrierLoad => exact ⟨_, rfl, pmCall_reach (fun _ _ _ => (carrierLoad_reach _ _ _ _).weaken rfl) rfl (.refl _ _)⟩
  | carrierLoadDone => exact ⟨_, rfl, (carrierLoaded_reach _ _).weaken rfl⟩
  | contextClaim => exact ⟨_, rfl, pmCall_reach (fun _ _ _ => (claimContexts_reach _ _ _).weaken rfl) rfl (.refl _ _)⟩
  | contextRelease => exact ⟨_, rfl, pmCall_reach (fun _ _ _ => (releaseContexts_reach _ _ _ _).weaken rfl) rfl (.refl _ _)⟩
  | queueContext => exact ⟨_, rfl, pmCall_reach (fun _ _ _ => (queueContext_reach _ _ _).weaken rfl) rfl (.refl _ _)⟩
  | ringQueuesSet => exact ⟨_, rfl, pmCall_reach (fun _ _ _ => (ringSet_reach _ _).weaken rfl) rfl (.refl _ _)⟩
  | ringQueuesClear => exact ⟨_, rfl, pmCall_reach (fun _ _ _ => (ringClear_reach _ _).weaken rfl) rfl (.refl _ _)⟩
  | savePool => exact ⟨_, rfl, pmCall_reach (fun _ _ _ => (savePool_reach _ _).weaken rfl) rfl (.refl _ _)⟩
  | abort => exact ⟨_, rfl, pmCall_reach (fun _ _ _ => (abortInv_reach _ _ _).weaken rfl) rfl (.refl _ _)⟩
  | keyInstall => exact ⟨_, rfl, pmCall_reach (fun _ _ _ => (keyInstall_reach _ _ _ _).weaken rfl) rfl (.refl _ _)⟩
  | keyBind => exact ⟨_, rfl, pmCall_reach (fun _ _ _ => (keyBind_reach _ _ _).weaken rfl) rfl (.refl _ _)⟩
  | keyRemove => exact ⟨_, rfl, pmCall_reach (fun _ _ _ => (keyRemove_reach _ _ _).weaken rfl) rfl (.refl _ _)⟩
  | exportWindow => exact ⟨_, rfl, pmCall_reach (fun _ _ _ => (exportWindow_reach _ _ _).weaken rfl) rfl (.refl _ _)⟩
  | groupWrite => exact ⟨_, rfl, pmCall_reach (fun _ _ _ => (groupWrite_reach _ _ _).weaken rfl) rfl (.refl _ _)⟩
  | groupDelete => exact ⟨_, rfl, pmCall_reach (fun _ _ _ => (groupDelete_reach _ _ _).weaken rfl) rfl (.refl _ _)⟩
  | hbmRepair => exact ⟨_, rfl, pmCall_reach (fun _ _ _ => (hbmRepair_reach _ _ _).weaken rfl) rfl (.refl _ _)⟩
  | islandRetire => exact ⟨_, rfl, pmCall_reach (fun _ _ _ => (islandRetire_reach _ _).weaken rfl) rfl (.refl _ _)⟩
  | bootStart => exact ⟨_, rfl, (bootStart_reach _ _).weaken rfl⟩
  | bootDone => exact ⟨_, rfl, (bootDone_reach _ _ _).weaken rfl⟩
  | slackAlarm => exact ⟨_, rfl, (slackAlarm_reach _ _).weaken rfl⟩
  | plannerDailyRun =>
    refine ⟨_, rfl, ?_⟩
    split
    · exact .ite ((dailyRun_reach _ _ _).weaken rfl) (.refl _ _)
    · exact .refl _ _
  | planCtrlRun => exact ⟨_, rfl, (whenReached_reach (fun _ => planCtrlRun_reach _ _ _) (.refl _ _)).weaken rfl⟩
  | powerOnHour => exact ⟨_, rfl, (powerOnHour_reach _).weaken rfl⟩
  | scratchpadScrub => exact ⟨_, rfl, (sramRead_reach _ _ _).weaken rfl⟩
  | logEntryWrite => exact ⟨_, rfl, (logWrite_reach _ _).weaken rfl⟩
  | logIntervalEnd => exact ⟨_, rfl, (intervalEnd_reach _ _ _).weaken rfl⟩
  | logMirrorSend => exact ⟨_, rfl, (mirrorSend_reach _).weaken rfl⟩
  | supplyWarning => exact ⟨_, rfl, (supplyWarning_reach _ _).weaken rfl⟩
  | supplyWarningClear => exact ⟨_, rfl, (supplyClear_reach _ _).weaken rfl⟩
  | supplyReset => exact ⟨_, rfl, (supplyFalls_reach _ _).weaken rfl⟩
  | supplyRestored => exact ⟨_, rfl, (supplyBack_reach _ _).weaken rfl⟩
  | supplyOff => exact ⟨_, rfl, (supplyLost_reach _).weaken rfl⟩
  | powerUp => exact ⟨_, rfl, .ite (sameExcept_power _ _) (.refl _ _)⟩
  | powerGood => exact ⟨_, rfl, (powerGood_reach _).weaken rfl⟩
  | mrstNAssert => exact ⟨_, rfl, (pinLow_reach _).weaken rfl⟩
  | mrstNRelease => exact ⟨_, rfl, sameExcept_power _ _⟩
  | pwrCtrlModuleReset => exact ⟨_, rfl, (writePwr_reach (fun _ => triggerReset_reach _ _) rfl (.refl _ _)).weaken rfl⟩
  | postmasterReset =>
    refine ⟨_, rfl, ?_⟩
    split
    · exact (sramFault_reach _ _).weaken rfl
    · exact (railFault_reach _).weaken rfl
  | moduleResetBoot => exact ⟨_, rfl, (resetBoot_reach _).weaken rfl⟩
  | pwrCtrlCarrierRestart => exact ⟨_, rfl, (writePwr_reach (fun _ => restartCarrier_reach _) rfl (.refl _ _)).weaken rfl⟩
  | carrierWatchdogExpiry => exact ⟨_, rfl, (watchdogOut_reach _).weaken rfl⟩
  | pwrCtrlWdogKick => exact ⟨_, rfl, writePwr_reach (fun _ => sameExcept_power _ _) rfl (.refl _ _)⟩
  | pwrCtrlPark => exact ⟨_, rfl, (writePwr_reach (fun _ => park_reach _) rfl (.refl _ _)).weaken rfl⟩
  | parkDone => exact ⟨_, rfl, (parkDone_reach _).weaken rfl⟩
  | pwrCtrlUnpark => exact ⟨_, rfl, (writePwr_reach (fun _ => unpark_reach _ _) rfl (.refl _ _)).weaken rfl⟩
  | unparkDone => exact ⟨_, rfl, (unparkDone_reach _ _).weaken rfl⟩
  | junctionTempChange => exact ⟨_, rfl, (junction_reach _ _ _).weaken rfl⟩
  | thermalCriticalTimeout => exact ⟨_, rfl, (criticalTimeout_reach _).weaken rfl⟩
  | inputPowerLimit => exact ⟨_, rfl, (inputPower_reach _ _).weaken rfl⟩
  | hbmTempChange => exact ⟨_, rfl, (stackTemp_reach _ _ _).weaken rfl⟩
  | coreReset => exact ⟨_, rfl, (coreReset'_reach _ _).weaken rfl⟩
  | islandIdleGate => exact ⟨_, rfl, (idleGate_reach _ _).weaken rfl⟩
  | sbReadModId | sbReadModState | sbReadModSerial | sbReadPmStatus | sbReadPwrSupply | sbReadPwrThermal | sbReadLogSeq =>
    exact ⟨_, rfl, (sideband_reach _ _).weaken rfl⟩
  | sbReadAlertStatus => exact ⟨_, rfl, (alertRead_reach _).weaken rfl⟩
  | sbReadModuleRecord => exact ⟨_, rfl, (recordRead_reach _ _ _).weaken rfl⟩
  | sbUnusedCommand => exact ⟨_, rfl, .ite (.refl _ _) ((sideband_reach _ _).weaken rfl)⟩
  | courierLinkUp => exact ⟨_, rfl, (crLinkUp_reach _ _ _ _ _).weaken rfl⟩
  | pmCallDone => exact ⟨_, rfl, (callDone_reach _ _).weaken rfl⟩
  | slackCheckDone => exact ⟨_, rfl, (checkDone_reach _ _ _ _).weaken rfl⟩
  | plannerRunDone => exact ⟨_, rfl, (runDone_reach _).weaken rfl⟩
  | semPostRegister => exact ⟨_, rfl, .ite ((semPost_reach _ _ _).weaken rfl) (.refl _ _)⟩
  | carrierAccess => exact ⟨_, rfl, (carrierAccess_reach _ _ _).weaken rfl⟩

/-! ### What leaves the module state as it was -/

theorem SameExcept.mode_eq {ps : List Part} {s t : State} (h : SameExcept ps s t) (hm : ps.contains .mode = false) : t.mode = s.mode :=
  h .mode (fun hp => by simp [hp] at hm)

/-- A command that does not reach the module state leaves it. -/
theorem exec_mode_of_not_reached {c : Instr} {s t : State} (h : exec c s = .next t) (hm : (Reaches c).contains .mode = false) :
    t.mode = s.mode := by
  obtain ⟨u, answers, reach⟩ := exec_reach c s
  obtain rfl : u = t := Host.Outcome.next.inj (answers.symm.trans h)
  exact reach.mode_eq hm

@[simp] theorem flushCaches_mode (s : State) : (flushCaches s).mode = s.mode := (flushCaches_reach s).mode_eq rfl
@[simp] theorem hbmTurn_mode (cls a n : Nat) (s : State) : (hbmTurn cls a n s).mode = s.mode := (hbmTurn_reach cls a n s).mode_eq rfl
@[simp] theorem retireWay_mode (die way reason : Nat) (s : State) : (retireWay die way reason s).mode = s.mode :=
  (retireWay_reach die way reason s).mode_eq rfl
@[simp] theorem hbmWrite_mode (s : State) (region : Option Nat) (a : Nat) (d : PData) (errs : List HbmError) :
    (hbmWrite s region a d errs).mode = s.mode := (hbmWrite_reach s region a d errs).mode_eq rfl
@[simp] theorem accessWrite_mode (s : State) (region : Option Nat) (a : Nat) (d : PData) (errs : List HbmError) :
    (accessWrite s region a d errs).mode = s.mode := (accessWrite_reach s region a d errs).mode_eq rfl
@[simp] theorem countPoison_mode (x : Xfer) (a : Nat) (d : PData) (s : State) : (countPoison x a d s).mode = s.mode :=
  (countPoison_reach x a d s).mode_eq rfl
@[simp] theorem landPiece_mode (x p : Nat) (d : PData) (s : State) : (landPiece x p d s).mode = s.mode :=
  (landPiece_reach x p d s).mode_eq rfl
@[simp] theorem captureWrite_mode (a : Nat) (d : PData) (s : State) : (captureWrite a d s).mode = s.mode :=
  (captureWrite_reach a d s).mode_eq rfl
@[simp] theorem hbmAtomic_mode (s : State) (op : AtomicOp) (a n x cmp : Nat) (errs : List HbmError) :
    (hbmAtomic s op a n x cmp errs).2.mode = s.mode := (hbmAtomic_reach s op a n x cmp errs).mode_eq rfl
@[simp] theorem finishCall_mode (k result : Nat) (reply : List Byte) (s : State) : (finishCall k result reply s).mode = s.mode :=
  (finishCall_reach k result reply s).mode_eq rfl
@[simp] theorem startCarrier_mode (s : State) : (startCarrier s).mode = s.mode := (startCarrier_reach s).mode_eq rfl
@[simp] theorem joinRing_mode (s : State) : (joinRing s).mode = s.mode := (joinRing_reach s).mode_eq rfl
@[simp] theorem bootRun_mode (rs : List IslandReading) (s : State) : (bootRun rs s).mode = s.mode := (bootRun_reach rs s).mode_eq rfl
@[simp] theorem endLoad_mode (l : BlendLoad) (result : Dword) (s : State) : (endLoad l result s).mode = s.mode :=
  (endLoad_reach l result s).mode_eq rfl
@[simp] theorem logCritical_mode (s : State) : (logCritical s).mode = s.mode := (logCritical_reach s).mode_eq rfl

/-! ### A reset stops the module in the state it is in (R464); the boot is a command of its own -/

@[simp] theorem stopModule_mode (s : State) : (stopModule s).mode = s.mode := flushCaches_mode s

@[simp] theorem triggerReset_mode (kind : Nat) (s : State) : (triggerReset kind s).mode = s.mode := by
  unfold triggerReset
  split
  · rfl
  · exact stopModule_mode s

theorem pinLow_mode (s : State) : (pinLow s).mode = s.mode := triggerReset_mode 1 s

theorem supplyFalls_mode (mv : Half) (s : State) : (supplyFalls mv s).mode = s.mode := by
  unfold supplyFalls
  split
  · rfl
  split
  · rfl
  split
  · rfl
  · exact stopModule_mode (sampleMv mv s)

theorem sramFault_mode (off : Nat) (s : State) : (sramFault off s).mode = s.mode := by
  unfold sramFault
  split
  · rfl
  · simp

theorem writePwr_mode {f : State → State} (hf : ∀ t, (f t).mode = t.mode) (hostOnly : Bool) (who : Agent) (wdogMs : Nat) (s : State) :
    (writePwr hostOnly who wdogMs f s).mode = s.mode := by
  unfold writePwr
  split
  · rfl
  dsimp only
  split
  · rfl
  · exact hf _

/-! ### The faulted state (R462) -/

/-- The module state is as it was, or the module, neither OFF nor FAULTED, has entered FAULTED for one of R462's six causes. -/
def StaysOrFaults (s t : State) : Prop :=
  t.mode = s.mode ∨ (s.mode ≠ .off ∧ s.mode ≠ .faulted ∧ t.mode = .faulted ∧ 1 ≤ t.pm.fault ∧ t.pm.fault ≤ 6)

theorem StaysOrFaults.of_mode_eq {s t u : State} (h : StaysOrFaults t u) (same : t.mode = s.mode) : StaysOrFaults s u := by
  rw [StaysOrFaults, ← same]
  exact h

theorem enterFaulted_staysOrFaults {fault : Nat} (lo : 1 ≤ fault) (hi : fault ≤ 6) (s : State) : StaysOrFaults s (enterFaulted fault s) := by
  unfold enterFaulted
  split
  case isTrue => exact .inl rfl
  case isFalse on =>
    obtain ⟨notOff, notFaulted⟩ := not_or.1 on
    exact .inr ⟨notOff, notFaulted, rfl, lo, hi⟩

/-- A tag check that finds both copies lost ends in FAULTED, and says so; any other leaves the module state (R308). -/
theorem tagCheck_cases {die : Nat} {tags : TagOutcome} {s u : State} {dead : Bool} (h : tagCheck die tags s = (u, dead)) :
    (dead = false ∧ u.mode = s.mode) ∨ (dead = true ∧ StaysOrFaults s u) := by
  cases tags with
  | clean | corrected | oneCopyLost way =>
    obtain ⟨rfl, rfl⟩ := Prod.mk.inj h
    exact .inl ⟨rfl, by simp⟩
  | bothLost way set =>
    obtain ⟨rfl, rfl⟩ := Prod.mk.inj h
    exact .inr ⟨rfl, (enterFaulted_staysOrFaults (by decide) (by decide) _).of_mode_eq (by simp)⟩

theorem performAccess_staysOrFaults (stack i : Nat) (errs : List HbmError) (tags : TagOutcome) (s : State) :
    StaysOrFaults s (performAccess stack i errs tags s) := by
  unfold performAccess
  split
  · exact .inl rfl
  split
  · exact .inl rfl
  split
  · exact .inl rfl
  next r _ _ _ w _ =>
  have taken : (takeArrival stack i r (takeTurn stack r w s)).mode = s.mode :=
    ((takeArrival_reach _ _ _ _).mode_eq rfl).trans ((takeTurn_reach _ _ _ _).mode_eq rfl)
  rcases checked : tagCheck (dieOfStack stack) tags (takeArrival stack i r (takeTurn stack r w s)) with ⟨u, dead⟩
  obtain ⟨rfl, same⟩ | ⟨rfl, faults⟩ := tagCheck_cases checked
  · simp only [Bool.false_eq_true, if_false]
    refine .inl (Eq.trans ?_ (same.trans taken))
    split
    · exact ((readPart_reach _ _ _ _).mode_eq rfl).trans ((accessRead_reach _ _ _ _ _).mode_eq rfl)
    · repeat' split
      all_goals simp
    · rfl
  · simp only [if_true]
    exact faults.of_mode_eq taken

theorem atomicAt_staysOrFaults (cls : Nat) (op : AtomicOp) (a : Nat) (wide : Bool) (x cmp : Nat) (errs : List HbmError) (tags : TagOutcome)
    (s : State) : StaysOrFaults s (atomicAt cls op a wide x cmp errs tags s) := by
  unfold atomicAt
  extract_lets n
  split
  · exact .inl rfl
  rcases checked : tagCheck (dieOfStack (stackOf a)) tags (hbmTurn cls a n s) with ⟨u, dead⟩
  obtain ⟨rfl, same⟩ | ⟨rfl, faults⟩ := tagCheck_cases checked
  · simp only [Bool.false_eq_true, if_false]
    refine .inl (Eq.trans ?_ (same.trans (hbmTurn_mode cls a n s)))
    rw [answer_mode]
    split <;> simp
  · simp only [if_true]
    exact faults.of_mode_eq (hbmTurn_mode cls a n s)

theorem requestAtomic_staysOrFaults (e ctx cls : Nat) (op : AtomicOp) (va : Nat) (wide : Bool) (x cmp : Nat) (errs : List HbmError)
    (tags : TagOutcome) (s : State) : StaysOrFaults s (requestAtomic e ctx cls op va wide x cmp errs tags s) := by
  unfold requestAtomic
  extract_lets n t
  split
  · exact .inl rfl
  refine StaysOrFaults.of_mode_eq (t := t) ?_ ((translate_reach e ctx va s).mode_eq rfl)
  split
  · exact .inl ((raiseFault_reach _ _ _ _ _ _ _).mode_eq rfl)
  split
  · exact .inl ((raiseFault_reach _ _ _ _ _ _ _).mode_eq rfl)
  dsimp only
  split
  · exact .inl ((raiseFault_reach _ _ _ _ _ _ _).mode_eq rfl)
  split
  · exact atomicAt_staysOrFaults _ _ _ _ _ _ _ _ _
  · split
    · exact atomicAt_staysOrFaults _ _ _ _ _ _ _ _ _
    · exact .inl ((sendPoint_reach _ _ _ _ _ _ _).mode_eq rfl)
  · exact .inl rfl

theorem execHbmAtomic_staysOrFaults {op : AtomicOp} {place : AtomicPlace} {wide : Bool} {operand compare : Dword} {s t : State}
    (ran : execHbmAtomic op place wide operand compare s = .next t) : StaysOrFaults s t := by
  unfold execHbmAtomic at ran
  obtain rfl := Host.Outcome.next.inj ran
  split
  · exact atomicAt_staysOrFaults _ _ _ _ _ _ _ _ s
  · exact requestAtomic_staysOrFaults _ _ _ _ _ _ _ _ _ _ s

/-! ### A peer's access (R388-R391) -/

theorem lookUp_staysOrFaults (h : CrHead) (a n : Nat) (tags : TagOutcome) {f : State → State} (hf : ∀ t, (f t).mode = t.mode) (s : State) :
    StaysOrFaults s (lookUp h a n tags f s) := by
  unfold lookUp
  rcases checked : tagCheck (dieOfStack (stackOf a)) tags (hbmTurn h.cls.val a n s) with ⟨u, dead⟩
  obtain ⟨rfl, same⟩ | ⟨rfl, faults⟩ := tagCheck_cases checked
  · simp only [Bool.false_eq_true, if_false]
    exact .inl ((hf u).trans (same.trans (hbmTurn_mode _ _ _ s)))
  · simp only [if_true]
    exact faults.of_mode_eq (hbmTurn_mode _ _ _ s)

theorem peerAccess_staysOrFaults (h : CrHead) (a n : Nat) (right : ExportWin → Bool) {f : State → State} (hf : ∀ t, StaysOrFaults t (f t))
    (s : State) : StaysOrFaults s (peerAccess h a n right f s) := by
  have refused (reason : Nat) : (logRefused h.src.val reason a (turnAway (inPoint h) h reason s)).mode = s.mode :=
    ((logRefused_reach _ _ _ _).mode_eq rfl).trans ((turnAway_reach _ _ _ _).mode_eq rfl)
  unfold peerAccess
  dsimp only
  split
  · exact .inl (refused 1)
  split
  · exact .inl (refused 5)
  · exact hf s

theorem inFlow_staysOrFaults (h : CrHead) (key : Nat) {again f : State → State} (ha : ∀ t, SameExcept [.courier] t (again t))
    (hf : ∀ t, StaysOrFaults t (f t)) (s : State) : StaysOrFaults s (inFlow h key again f s) := by
  unfold inFlow
  split
  · exact .inl rfl
  dsimp only
  split
  · exact (hf _).of_mode_eq rfl
  split
  · exact .inl ((answerAgain_reach ha rfl (.refl _ s)).mode_eq rfl)
  · exact .inl rfl

theorem peerAtomic_staysOrFaults (h : CrHead) (op : AtomicOp) (a : Nat) (wide : Bool) (x cmp : Nat) (errs : List HbmError) (tags : TagOutcome)
    (s : State) : StaysOrFaults s (peerAtomic h op a wide x cmp errs tags s) := by
  unfold peerAtomic
  extract_lets n reply
  split
  · exact .inl rfl
  refine inFlow_staysOrFaults h _ (fun t => ?_)
    (peerAccess_staysOrFaults h _ _ _ (lookUp_staysOrFaults h _ _ _ (fun t => ?_))) s
  · split
    · exact answerMsg_reach _ _ _ _ _
    · exact nackMsg_reach _ _ _
  · have performed := hbmAtomic_mode t op a n x cmp errs
    generalize hbmAtomic t op a n x cmp errs = r at performed ⊢
    obtain ⟨⟨old, bad⟩, u⟩ := r
    refine ((answerMsg_reach _ _ _ _ _).mode_eq rfl).trans ?_
    cases bad <;> simpa using performed

theorem execRead_staysOrFaults {h : CrHead} {offset : Fin 281474976710656} {bytes : Fin 4097} {met : AccessErrors} {s t : State}
    (ran : execRead h offset bytes met s = .next t) : StaysOrFaults s t := by
  unfold execRead at ran
  obtain rfl := Host.Outcome.next.inj ran
  split
  · exact .inl rfl
  · exact inFlow_staysOrFaults h _ (.refl _) (peerAccess_staysOrFaults h _ _ _ (lookUp_staysOrFaults h _ _ _ (fun u =>
      ((sendPoint_reach _ _ _ _ _ _ _).mode_eq rfl).trans ((hbmRead_reach u _ _ _ _).mode_eq rfl)))) s

theorem execWrite_staysOrFaults {h : CrHead} {offset : Fin 281474976710656} {data : List (Byte × Bool)} {met : AccessErrors} {s t : State}
    (ran : execWrite h offset data met s = .next t) : StaysOrFaults s t := by
  unfold execWrite at ran
  obtain rfl := Host.Outcome.next.inj ran
  split
  · exact .inl rfl
  · exact inFlow_staysOrFaults h _ (ackMsg_reach h) (peerAccess_staysOrFaults h _ _ _ (lookUp_staysOrFaults h _ _ _ (fun u =>
      ((ackMsg_reach _ _).mode_eq rfl).trans ((captureWrite_mode _ _ _).trans (hbmWrite_mode u _ _ _ _))))) s

/-! ### Control state, temperature and regulation (R438, R459, R460, R462) -/

theorem readControl_staysOrFaults (part : Nat) (lost : Bool) (s : State) : StaysOrFaults s (readControl part lost s) := by
  unfold readControl
  split
  · exact .inl rfl
  · exact (enterFaulted_staysOrFaults (by decide) (by decide) _).of_mode_eq (logEvent_mode _ _ _ s)

theorem sramRead_staysOrFaults (p : Nat) (r : SramRead) (s : State) : StaysOrFaults s (sramRead p r s) := by
  cases r with
  | scrub ecc => exact .inl ((scrub_reach _ _ s).mode_eq rfl)
  | word w ecc => exact .inl ((readWord_reach _ _ _ s).mode_eq rfl)
  | semaphore i ecc => exact .inl ((readSem_reach _ _ s).mode_eq rfl)
  | control part lost => exact readControl_staysOrFaults _ _ s
  | buffer n off k g ecc => exact .inl ((readBuffer_reach _ _ _ _ _ s).mode_eq rfl)

theorem readSensor_staysOrFaults (key c : Nat) (s : State) : StaysOrFaults s (readSensor key c s) := by
  unfold readSensor
  dsimp only
  split
  · exact .inl rfl
  split
  · refine .inl ?_
    split <;> simp
  · refine (enterFaulted_staysOrFaults (by decide) (by decide) _).of_mode_eq ?_
    split <;> simp

theorem junction_staysOrFaults (n c : Nat) (s : State) : StaysOrFaults s (junction n c s) := by
  unfold junction
  split
  · exact .inl rfl
  · exact (readSensor_staysOrFaults _ _ _).of_mode_eq rfl

theorem stackTemp_staysOrFaults (k c : Nat) (s : State) : StaysOrFaults s (stackTemp k c s) := by
  unfold stackTemp
  split
  · exact .inl rfl
  · exact (readSensor_staysOrFaults _ _ _).of_mode_eq rfl

theorem criticalTimeout_staysOrFaults (s : State) : StaysOrFaults s (criticalTimeout s) := by
  unfold criticalTimeout
  split
  · exact .inl rfl
  · exact (enterFaulted_staysOrFaults (by decide) (by decide) _).of_mode_eq (logCritical_mode s)

theorem railFault_staysOrFaults (s : State) : StaysOrFaults s (railFault s) := by
  unfold railFault
  split
  · exact .inl rfl
  dsimp only
  split
  · exact (enterFaulted_staysOrFaults (by decide) (by decide) _).of_mode_eq rfl
  · exact .inl (triggerReset_mode _ _)

theorem execPostmasterReset_staysOrFaults {sram : Option Word} {s t : State} (ran : execPostmasterReset sram s = .next t) :
    StaysOrFaults s t := by
  unfold execPostmasterReset at ran
  obtain rfl := Host.Outcome.next.inj ran
  split
  · exact .inl (sramFault_mode _ s)
  · exact railFault_staysOrFaults s

/-! ### The other rows of the table (R461) -/

theorem powerGood_mode (s : State) : (powerGood s).mode = s.mode ∨ (s.mode = .off ∧ (powerGood s).mode = .rom) := by
  unfold powerGood
  split
  case isTrue due => exact .inr ⟨due.1, rfl⟩
  case isFalse => exact .inl rfl

theorem bootDone_mode (pufOk : Bool) (training : List StackTraining) (s : State) :
    StaysOrFaults s (bootDone pufOk training s) ∨ (s.mode = .rom ∧ (bootDone pufOk training s).mode = .awaitCarrier) := by
  unfold bootDone
  split
  · exact .inl (.inl rfl)
  next booting =>
  dsimp only
  split
  · exact .inl ((enterFaulted_staysOrFaults (by decide) (by decide) _).of_mode_eq (logEvent_mode _ _ _ _))
  split
  · exact .inl ((enterFaulted_staysOrFaults (by decide) (by decide) _).of_mode_eq (logEvent_mode _ _ _ _))
  · exact .inr ⟨not_not.1 (not_or.1 booting).1, rfl⟩

theorem carrierLoaded_mode (image : Option (List Byte)) (s : State) :
    (carrierLoaded image s).mode = s.mode ∨ (s.mode = .awaitCarrier ∧ (carrierLoaded image s).mode = .awaitBlend) := by
  unfold carrierLoaded
  split
  · exact .inl rfl
  split
  · exact .inl rfl
  next waits =>
  dsimp only
  split
  · exact .inl (finishCall_mode _ _ _ _)
  split
  · exact .inl (by simp)
  split
  · exact .inl (by simp)
  · exact .inr ⟨not_not.1 waits, by simp⟩

/-- A load's phase is performed in the module state that its kind needs. -/
theorem inPhase_cases (p : LoadPhase) (f : BlendLoad → State → State) (s : State) :
    inPhase p f s = s ∨ ∃ l, inPhase p f s = f l s ∧ (s.mode = .awaitBlend ∨ s.mode = .serving) := by
  unfold inPhase
  split
  · exact .inl rfl
  next l _ =>
  split
  · split
    case isTrue now => exact .inr ⟨l, rfl, .inl now.2⟩
    case isFalse => exact .inl rfl
  · split
    case isTrue now => exact .inr ⟨l, rfl, .inr now.2⟩
    case isFalse => exact .inl rfl

theorem enterServing_mode (l : BlendLoad) (s : State) : (enterServing l s).mode = .serving := by simp [enterServing]

theorem rampDone_mode (l : BlendLoad) (s : State) : (rampDone l s).mode = s.mode ∨ (rampDone l s).mode = .serving := by
  unfold rampDone
  split
  · exact .inr (enterServing_mode l s)
  · exact .inl rfl

theorem bootRunDone_mode (rs : List IslandReading) (l : BlendLoad) (s : State) :
    (bootRunDone rs l s).mode = s.mode ∨ (bootRunDone rs l s).mode = .serving := by
  unfold bootRunDone
  split
  · exact .inl rfl
  dsimp only
  split
  · exact .inr (enterServing_mode _ _)
  · exact .inl (bootRun_mode rs s)

/-- The end of a phase that ends in service takes the module there from AWAIT_BLEND; a load in service leaves it there. -/
theorem inPhase_mode {f : BlendLoad → State → State} (hf : ∀ l t, (f l t).mode = t.mode ∨ (f l t).mode = .serving) (p : LoadPhase) (s : State) :
    (inPhase p f s).mode = s.mode ∨ (s.mode = .awaitBlend ∧ (inPhase p f s).mode = .serving) := by
  obtain idle | ⟨l, runs, waits | serves⟩ := inPhase_cases p f s
  · exact .inl (congrArg State.mode idle)
  · rw [runs]
    exact (hf l s).imp_right (fun ends => ⟨waits, ends⟩)
  · rw [runs]
    exact .inl ((hf l s).elim id (fun ends => ends.trans serves.symm))

theorem execPlannerBootRunDone_mode {rs : List IslandReading} {s t : State} (ran : execPlannerBootRunDone rs s = .next t) :
    t.mode = s.mode ∨ (s.mode = .awaitBlend ∧ t.mode = .serving) := by
  unfold execPlannerBootRunDone at ran
  obtain rfl := Host.Outcome.next.inj ran
  split
  · split
    · exact inPhase_mode rampDone_mode .ramping s
    · exact inPhase_mode (bootRunDone_mode rs) .bootRun s
  · exact .inl rfl

theorem parkDone_mode (s : State) : (parkDone s).mode = s.mode ∨ (s.mode = .serving ∧ (parkDone s).mode = .parked) := by
  unfold parkDone
  split
  · exact .inl rfl
  next parking => exact .inr ⟨not_not.1 (not_or.1 parking).2, rfl⟩

theorem unparked_mode (s : State) : (unparked s).mode = .serving := by simp [unparked]

theorem unparkDone_mode (rs : List IslandReading) (s : State) :
    (unparkDone rs s).mode = s.mode ∨ (s.mode = .parked ∧ (unparkDone rs s).mode = .serving) := by
  unfold unparkDone
  split
  · exact .inl rfl
  next unparking =>
  have parked : s.mode = .parked := not_not.1 (not_or.1 unparking).1
  split
  · split
    · exact .inr ⟨parked, unparked_mode s⟩
    · exact .inl rfl
  split
  · exact .inl rfl
  dsimp only
  split
  · exact .inr ⟨parked, unparked_mode _⟩
  · exact .inl (bootRun_mode rs s)

theorem resetBoot_mode (s : State) : (resetBoot s).mode = s.mode ∨ (s.mode ≠ .off ∧ (resetBoot s).mode = .rom) := by
  unfold resetBoot
  split
  · exact .inl rfl
  split
  · exact .inl rfl
  next due => exact .inr ⟨(not_or.1 due).1, rfl⟩

theorem supplyBack_mode (mv : Half) (s : State) : (supplyBack mv s).mode = s.mode ∨ (s.mode ≠ .off ∧ (supplyBack mv s).mode = .rom) := by
  unfold supplyBack
  split
  case isTrue back => exact .inr ⟨back.1, rfl⟩
  case isFalse => exact .inl rfl

/-! ### The table (R461) -/

/-- The entries into FAULTED are the eighth of the statement's ten cases. -/
theorem StaysOrFaults.row {s t : State} (h : StaysOrFaults s t) {a b c d e f g : Prop} :
    t.mode = s.mode ∨ a ∨ b ∨ c ∨ d ∨ e ∨ f ∨
      (s.mode ≠ .off ∧ s.mode ≠ .faulted ∧ t.mode = .faulted ∧ 1 ≤ t.pm.fault ∧ t.pm.fault ≤ 6) ∨ g :=
  h.imp_right (fun faults => .inr (.inr (.inr (.inr (.inr (.inr (.inl faults)))))))

/-- Settles O7: a command that does not reach the module state leaves it; each of the others takes it along a row of the table. -/
theorem moduleStateChangesAsTheTableGives : Obligations.ModuleStateChangesAsTheTableGives := by
  intro c s t h
  cases c with
  | powerGood =>
    obtain rfl : powerGood s = t := Host.Outcome.next.inj h
    exact (powerGood_mode s).imp_right (fun ⟨off, rom⟩ => .inl ⟨off, rom, rfl⟩)
  | bootDone ok training =>
    obtain rfl : bootDone ok training s = t := Host.Outcome.next.inj h
    exact (bootDone_mode ok training s).elim (·.row) (fun ⟨rom, boots⟩ => .inr (.inr (.inl ⟨rom, boots, ok, training, rfl⟩)))
  | carrierLoadDone image =>
    obtain rfl : carrierLoaded image s = t := Host.Outcome.next.inj h
    exact (carrierLoaded_mode image s).imp_right (fun ⟨waits, loads⟩ => .inr (.inr (.inl ⟨waits, loads, image, rfl⟩)))
  | plannerBootRunDone readings =>
    exact (execPlannerBootRunDone_mode h).imp_right (fun ⟨waits, serves⟩ => .inr (.inr (.inr (.inl ⟨waits, serves, readings, rfl⟩))))
  | parkDone =>
    obtain rfl : parkDone s = t := Host.Outcome.next.inj h
    exact (parkDone_mode s).imp_right (fun ⟨serves, parks⟩ => .inr (.inr (.inr (.inr (.inl ⟨serves, parks, rfl⟩)))))
  | unparkDone readings =>
    obtain rfl : unparkDone readings s = t := Host.Outcome.next.inj h
    exact (unparkDone_mode readings s).imp_right
      (fun ⟨parked, serves⟩ => .inr (.inr (.inr (.inr (.inr (.inl ⟨parked, serves, readings, rfl⟩))))))
  | hbmAccess stack index errs tags =>
    obtain rfl : performAccess stack.val index errs tags s = t := Host.Outcome.next.inj h
    exact (performAccess_staysOrFaults _ _ _ _ s).row
  | hbmAtomic => exact (execHbmAtomic_staysOrFaults h).row
  | read => exact (execRead_staysOrFaults h).row
  | write => exact (execWrite_staysOrFaults h).row
  | atomic head op place wide operand compare =>
    obtain rfl : peerAtomic head op place.offset.val wide operand.toNat compare.toNat place.met.words place.met.tags s = t :=
      Host.Outcome.next.inj h
    exact (peerAtomic_staysOrFaults _ _ _ _ _ _ _ _ s).row
  | scratchpadScrub core met =>
    obtain rfl : sramRead core.val met s = t := Host.Outcome.next.inj h
    exact (sramRead_staysOrFaults _ _ s).row
  | postmasterReset => exact (execPostmasterReset_staysOrFaults h).row
  | junctionTempChange island tempC =>
    obtain rfl : junction island.val tempC.val s = t := Host.Outcome.next.inj h
    exact (junction_staysOrFaults _ _ s).row
  | hbmTempChange stack tempC =>
    obtain rfl : stackTemp stack.val tempC.val s = t := Host.Outcome.next.inj h
    exact (stackTemp_staysOrFaults _ _ s).row
  | thermalCriticalTimeout =>
    obtain rfl : criticalTimeout s = t := Host.Outcome.next.inj h
    exact (criticalTimeout_staysOrFaults s).row
  | moduleResetBoot =>
    obtain rfl : resetBoot s = t := Host.Outcome.next.inj h
    exact (resetBoot_mode s).imp_right
      (fun ⟨on, boots⟩ => .inr (.inr (.inr (.inr (.inr (.inr (.inr (.inl ⟨on, boots, .inl rfl⟩))))))))
  | supplyRestored mv =>
    obtain rfl : supplyBack mv s = t := Host.Outcome.next.inj h
    exact (supplyBack_mode mv s).imp_right
      (fun ⟨on, boots⟩ => .inr (.inr (.inr (.inr (.inr (.inr (.inr (.inl ⟨on, boots, .inr ⟨mv, rfl⟩⟩))))))))
  | supplyOff =>
    obtain rfl : supplyLost s = t := Host.Outcome.next.inj h
    exact .inr (.inr (.inr (.inr (.inr (.inr (.inr (.inr (.inr ⟨rfl, rfl⟩))))))))
  | supplyReset mv =>
    obtain rfl : supplyFalls mv s = t := Host.Outcome.next.inj h
    exact .inl (supplyFalls_mode mv s)
  | mrstNAssert =>
    obtain rfl : pinLow s = t := Host.Outcome.next.inj h
    exact .inl (pinLow_mode s)
  | pwrCtrlModuleReset who wdogMs =>
    obtain rfl : writePwr true who wdogMs.val (triggerReset 2) s = t := Host.Outcome.next.inj h
    exact .inl (writePwr_mode (triggerReset_mode 2) _ _ _ s)
  | _ => exact .inl (exec_mode_of_not_reached h rfl)

end Sys2Proof.Machine
end

section
/-! SUPPORT. The sideband (R479, R480): what each kind of command does in OFF and in every other state, which bytes of the module record read 0, and
the statement O60 put together from them. -/

namespace Sys2Proof.Machine

/-! ### A register's command (R479) -/

theorem sideband_of_off {s : State} (off : s.mode = .off) (reply : State → List Byte) : sideband reply s = s := if_pos off

theorem sideband_of_on {s : State} (on : s.mode ≠ .off) (reply : State → List Byte) :
    sideband reply s = answer (reply s) s := if_neg on

/-! ### A command with no row of its own (R479) -/

theorem execSbUnusedCommand_of_off {s : State} (off : s.mode = .off) (cmd : Byte) : execSbUnusedCommand cmd s = .next s := by
  rw [execSbUnusedCommand, sideband_of_off off, ite_self]

theorem execSbUnusedCommand_of_known {cmd : Byte} (known : knownCommand cmd = true) (s : State) :
    execSbUnusedCommand cmd s = .next s := by
  rw [execSbUnusedCommand, if_pos known]

theorem execSbUnusedCommand_of_unknown {s : State} {cmd : Byte} (on : s.mode ≠ .off) (unknown : knownCommand cmd = false) :
    execSbUnusedCommand cmd s = .next (answer [0xFF] s) := by
  rw [execSbUnusedCommand, if_neg (ne_true_of_eq_false unknown), sideband_of_on on]

/-! ### The alert status (R479) -/

theorem alertRead_of_off {s : State} (off : s.mode = .off) : alertRead s = s := if_pos off

theorem bitAt_one (b : Bool) : bitAt 1 b = if b then 2 else 0 := by cases b <;> rfl

theorem alertRead_of_on {s : State} (on : s.mode ≠ .off) :
    alertRead s = { s with
      answers := s.answers ++ [leBytes 4 ((if s.power.alertCritical then 1 else 0) + (if s.power.alertFaulted then 2 else 0))],
      power := { s.power with alertCritical := false, alertFaulted := false } } := by
  rw [← bitAt_one]
  exact if_neg on

/-! ### The module record (R480) -/

theorem recordRead_of_off {s : State} (off : s.mode = .off) (start n : Nat) : recordRead start n s = s := if_pos off

/-- Before the boot has made the copy, the read is answered with no byte, a NACK. -/
theorem recordRead_of_no_copy {s : State} (on : s.mode ≠ .off) (no_copy : s.pm.copy = none) (start n : Nat) :
    recordRead start n s = answer [] s := by
  rw [recordRead, if_neg on, no_copy]

theorem recordRead_of_copy {s : State} {r : ModRecord} (on : s.mode ≠ .off) (copy : s.pm.copy = some r) (start n : Nat) :
    recordRead start n s =
      answer ((List.range n).map (fun i => recordByte r s.freeCtr (start + i))) { s with freeCtr := s.freeCtr + 1 } := by
  rw [recordRead, if_neg on, copy]
  rfl

theorem recordRead_answers_of_copy {s : State} {r : ModRecord} (on : s.mode ≠ .off) (copy : s.pm.copy = some r) (start n : Nat) :
    (recordRead start n s).answers = s.answers ++ [(List.range n).map (fun i => recordByte r s.freeCtr (start + i))] := by
  rw [recordRead_of_copy on copy]
  rfl

/-- The areas of the module record that the sideband may read (R480). -/
def RecordReadable (off : Nat) : Prop :=
  off < 0x1000 ∨ (0x2000 ≤ off ∧ off < 0x2800) ∨ (0x3000 ≤ off ∧ off < 0x40000)

/-- What lies outside is the PUF helper data, the reserved 2 KiB after the owner area, and what follows the record. -/
theorem not_recordReadable_cases {off : Nat} (barred : ¬ RecordReadable off) :
    (0x1000 ≤ off ∧ off < 0x2000) ∨ (0x2800 ≤ off ∧ off < 0x3000) ∨ 0x40000 ≤ off := by
  unfold RecordReadable at barred
  omega

theorem recordByte_of_not_readable (r : ModRecord) (f : Nat) {off : Nat} (barred : ¬ RecordReadable off) : recordByte r f off = 0 := by
  obtain ⟨lo, hi⟩ | ⟨lo, hi⟩ | lo := not_recordReadable_cases barred
  all_goals have past {n : Nat} (le : n ≤ _) : ¬ off < n := Nat.not_lt.2 (le.trans lo)
  case inl => simp [recordByte, past, hi]
  case inr.inl => simp [recordByte, past, hi]
  case inr.inr => simp [recordByte, past]

/-! ### The statement O60 -/

/-- In OFF no command of the sideband is answered, and none changes anything. -/
theorem exec_sideband_of_off {s : State} (off : s.mode = .off) (start : Fin 16777216) (count : Fin 33) (cmd : Byte) :
    ∀ c ∈ [Instr.sbReadModId, .sbReadModState, .sbReadModSerial, .sbReadPmStatus, .sbReadPwrSupply, .sbReadPwrThermal,
      .sbReadAlertStatus, .sbReadLogSeq, .sbReadModuleRecord start count, .sbUnusedCommand cmd], exec c s = .next s := by
  have silent (reply : State → List Byte) : (.next (sideband reply s) : Out State) = .next s :=
    congrArg _ (sideband_of_off off reply)
  simp only [List.forall_mem_cons]
  exact ⟨silent _, silent _, silent _, silent _, silent _, silent _, congrArg _ (alertRead_of_off off), silent _,
    congrArg _ (recordRead_of_off off _ _), execSbUnusedCommand_of_off off cmd, by simp⟩

/-- Settles O60: OFF answers nothing; elsewhere the registers' commands, the alert status, the record and the unused commands one by one. -/
theorem sidebandAnswersItsCommands : Obligations.SidebandAnswersItsCommands := by
  intro off count cmd s
  refine ⟨fun isOff => exec_sideband_of_off isOff off count cmd, fun on => ?_⟩
  have replies (reply : State → List Byte) : (.next (sideband reply s) : Out State) = .next (answer (reply s) s) :=
    congrArg _ (sideband_of_on on reply)
  refine ⟨replies _, replies _, replies _, replies _, replies _, replies _, replies _, congrArg _ (alertRead_of_on on),
    fun no_copy => congrArg _ (recordRead_of_no_copy on no_copy _ _), fun r copy => ?record,
    execSbUnusedCommand_of_unknown on, fun known => execSbUnusedCommand_of_known known s⟩
  case record =>
    exact ⟨_, rfl, recordRead_reach _ _ _, recordRead_answers_of_copy on copy _ _, fun _ => recordByte_of_not_readable r _⟩

end Sys2Proof.Machine
end

section
/-! SUPPORT. What holds of every command: a step is the front command, each answers a state and reaches only its parts, `DEV_TIME` does not
decrease, and memory and the marks keep their canonical forms. -/

namespace Sys2Proof.Machine

/-! ### The step and the parts a command reaches (O1, O3, O4) -/

/-- Settles O1: the step looks at the front of the queue alone. -/
theorem stepRunsTheFrontCommand : Obligations.StepRunsTheFrontCommand := fun _ _ _ => rfl

/-- Settles O3: the state that `exec_reach` names. -/
theorem everyCommandAnswersANextState : Obligations.EveryCommandAnswersANextState := by
  intro c s
  obtain ⟨t, answers, _⟩ := exec_reach c s
  exact ⟨t, answers⟩

theorem exec_reach_of_next {c : Instr} {s t : State} (ran : exec c s = .next t) : SameExcept (Reaches c) s t := by
  obtain ⟨u, answers, reach⟩ := exec_reach c s
  obtain rfl : u = t := Host.Outcome.next.inj (answers.symm.trans ran)
  exact reach

/-- Settles O4: what each command reaches, put together from what its operation reaches. -/
theorem commandsReachOnlyTheirParts : Obligations.CommandsReachOnlyTheirParts := fun _ _ _ ran => exec_reach_of_next ran

/-! ### What reset leaves (O6) -/

/-- Settles O6: each table of the reset state is empty, so a read of it gives the reset value. -/
theorem resetLeavesTheModuleInRom : Obligations.ResetLeavesTheModuleInRom := by
  refine ⟨rfl, rfl, rfl, rfl, rfl, rfl, rfl, rfl, rfl, rfl, rfl, reset_stored, fun a => rfl, fun n => rfl, fun p => rfl, fun p => rfl, fun q => rfl,
    fun k => rfl⟩

/-! ### Device time (O8) -/

theorem SameExcept.devTime_eq {ps : List Part} {s t : State} (h : SameExcept ps s t) (kept : ps.contains .devTime = false) :
    t.devTime = s.devTime :=
  h .devTime (fun listed => by simp [listed] at kept)

@[simp] theorem stopModule_devTime (s : State) : (stopModule s).devTime = s.devTime := (flushCaches_reach s).devTime_eq rfl

@[simp] theorem triggerReset_devTime (kind : Nat) (s : State) : (triggerReset kind s).devTime = s.devTime := by
  unfold triggerReset
  split
  · rfl
  · exact stopModule_devTime s

theorem pinLow_devTime (s : State) : (pinLow s).devTime = s.devTime := triggerReset_devTime 1 s

theorem supplyFalls_devTime (mv : Half) (s : State) : (supplyFalls mv s).devTime = s.devTime := by
  unfold supplyFalls
  split
  · rfl
  split
  · rfl
  split
  · rfl
  · exact stopModule_devTime (sampleMv mv s)

theorem writePwr_devTime {f : State → State} (hf : ∀ t, (f t).devTime = t.devTime) (hostOnly : Bool) (who : Agent) (wdogMs : Nat) (s : State) :
    (writePwr hostOnly who wdogMs f s).devTime = s.devTime := by
  unfold writePwr
  split
  · rfl
  dsimp only
  split
  · rfl
  · exact hf _

theorem sramFault_devTime (off : Nat) (s : State) : (sramFault off s).devTime = s.devTime := by
  unfold sramFault
  split
  · rfl
  · simp

theorem railFault_devTime (s : State) : (railFault s).devTime = s.devTime := by
  unfold railFault
  split
  · rfl
  dsimp only
  split
  · exact (enterFaulted_reach _ _).devTime_eq rfl
  · exact triggerReset_devTime _ _

/-- A step of the time is forward (R407); a slew leaves `DEV_TIME` to the clock. -/
theorem steerTime_devTime (h : CrHead) (epoch time : Nat) (s : State) : s.devTime ≤ (steerTime h epoch time s).devTime := by
  unfold steerTime
  dsimp only
  split
  · exact Nat.le_refl _
  have sent (t : State) :
      (if s.blend.cur.role.manager = true then sendTimeUp h.src.val t else passToken h 4 (leBytes 8 t.devTime) t).devTime = t.devTime := by
    split
    · exact (sendTimeUp_reach _ _).devTime_eq rfl
    · exact (passToken_reach _ _ _ _).devTime_eq rfl
  rw [sent]
  split
  · exact Nat.le_add_right _ _
  · exact Nat.le_refl _

/-- Settles O8: of the commands that reach `DEV_TIME`, TIME steps it forward, a reset keeps it, and the supply's loss and return set it to 0. -/
theorem deviceTimeNeverDecreases : Obligations.DeviceTimeNeverDecreases := by
  intro c s t ran
  cases c with
  | time head epoch value =>
    obtain rfl : steerTime head _ _ s = t := Host.Outcome.next.inj ran
    exact .inl (steerTime_devTime _ _ _ s)
  | supplyReset mv =>
    obtain rfl : supplyFalls mv s = t := Host.Outcome.next.inj ran
    exact .inl (supplyFalls_devTime mv s).ge
  | supplyOff =>
    obtain rfl : supplyLost s = t := Host.Outcome.next.inj ran
    exact .inr (.inl ⟨rfl, rfl, rfl⟩)
  | powerGood =>
    obtain rfl : powerGood s = t := Host.Outcome.next.inj ran
    unfold powerGood
    split
    case isTrue due => exact .inr (.inr ⟨rfl, due.1, rfl, rfl⟩)
    case isFalse => exact .inl (Nat.le_refl _)
  | mrstNAssert =>
    obtain rfl : pinLow s = t := Host.Outcome.next.inj ran
    exact .inl (pinLow_devTime s).ge
  | pwrCtrlModuleReset who wdogMs =>
    obtain rfl : writePwr true who wdogMs.val (triggerReset 2) s = t := Host.Outcome.next.inj ran
    exact .inl (writePwr_devTime (triggerReset_devTime 2) _ _ _ s).ge
  | postmasterReset sram =>
    unfold exec execPostmasterReset at ran
    obtain rfl := Host.Outcome.next.inj ran
    split
    · exact .inl (sramFault_devTime _ s).ge
    · exact .inl (railFault_devTime s).ge
  | _ => exact .inl ((exec_reach_of_next ran).devTime_eq rfl).ge

/-! ### The canonical forms (O5) -/

theorem exec_stored_of_not_reached {c : Instr} {s t : State} (ran : exec c s = .next t)
    (kept : ((Reaches c).contains .mem || (Reaches c).contains .poison) = false) (hs : s.stored = true) : t.stored = true := by
  obtain ⟨u, toU, reach⟩ := exec_reach c s
  obtain rfl : u = t := Host.Outcome.next.inj (toU.symm.trans ran)
  exact reach.stored kept hs

/-- Every command keeps the canonical forms: those that reach memory or the marks by the law of their operation, the others by their frame. -/
theorem exec_stored {c : Instr} {s t : State} (ran : exec c s = .next t) (hs : s.stored = true) : t.stored = true := by
  suffices keeps : ∃ u, exec c s = .next u ∧ u.stored = true by
    obtain ⟨u, toU, stored⟩ := keeps
    exact Host.Outcome.next.inj (toU.symm.trans ran) ▸ stored
  cases c with
  | packetDeliver =>
    refine ⟨_, rfl, ?_⟩
    split
    · exact deliverQueued_stored _ _ hs
    · split
      · exact circuitError_stored _ _ _ _ hs
      · exact hs
    · exact deliverHostData_stored _ _ _ _ hs
  | blendCopyDone => exact ⟨_, rfl, inPhase_stored (fun _ _ hs => copied_stored _ _ hs) hs⟩
  | blendApplyDone => exact ⟨_, rfl, inPhase_stored (fun _ _ hs => applyFull_stored _ hs) hs⟩
  | reblendCleanDone => exact ⟨_, rfl, inPhase_stored (fun _ _ hs => cleanDone_stored _ _ hs) hs⟩
  | matGrid | matFan | matWide | vec | movLoad | movLoadUnseal | movStore | movLocal | movFillNear | movFillFar | grd | semWait | semPost |
  semSet | ctlEnd | ctlLoop | ctlSet | ctlLdx | ctlArm | ctlCheap | ctlLive | ctlDebugAccRead | ctlDebugBreak =>
    exact ⟨_, rfl, issueLogical_stored _ _ hs⟩
  | accOverflow => exact ⟨_, rfl, onCore_stored (fun _ _ hs => overflowMat_stored _ hs) hs⟩
  | matComplete => exact ⟨_, rfl, onCore_stored (fun _ _ hs => completeMat_stored _ hs) hs⟩
  | vecComplete => exact ⟨_, rfl, onCore_stored (fun _ _ hs => completeVec_stored _ hs) hs⟩
  | movComplete => exact ⟨_, rfl, onCore_stored (fun _ _ hs => completeMov_stored _ _ hs) hs⟩
  | unsealCheckDone => exact ⟨_, rfl, onCore_stored (fun _ _ hs => checkUnseal_stored _ _ hs) hs⟩
  | waitTimeout => exact ⟨_, rfl, onCore_stored (fun _ _ hs => waitTimeout_stored _ hs) hs⟩
  | blockFetchDone => exact ⟨_, rfl, onCore_stored (fun _ _ hs => fetchBlock_stored _ _ _ _ hs) hs⟩
  | seqStepStep => exact ⟨_, rfl, whenReached_stored (fun _ hs => stepCore_stored _ _ hs) hs⟩
  | tileBoundarySave => exact ⟨_, rfl, onCore_stored (fun _ _ hs => saveCore_stored _ hs) hs⟩
  | spillSaveDone => exact ⟨_, rfl, onCore_stored (fun _ _ hs => saveDone_stored _ hs) hs⟩
  | contextResume => exact ⟨_, rfl, resumeInv_stored _ _ hs⟩
  | resumeRestoreDone => exact ⟨_, rfl, onCore_stored (fun _ _ hs => restoreDone_stored _ hs) hs⟩
  | streamChunkIssue => exact ⟨_, rfl, issueChunk_stored _ hs⟩
  | streamStall => exact ⟨_, rfl, stallXfer_stored _ hs⟩
  | grdBatchBegin =>
    refine ⟨_, rfl, ?_⟩
    refine grinderBegin_stored _ ?_
    split
    · exact hs
    · exact (updIsl_reach _ _ _).stored rfl hs
  | grdRowReadReturn => exact ⟨_, rfl, rowReturn_stored _ _ _ hs⟩
  | grdBatchComplete => exact ⟨_, rfl, completeBatch_stored _ _ hs⟩
  | updateFold => exact ⟨_, rfl, foldUpdate_stored _ _ _ hs⟩
  | sessionAdmit => exact ⟨_, rfl, admitSession_stored _ hs⟩
  | stepBatchBuild => exact ⟨_, rfl, buildStep_stored _ _ _ _ _ _ hs⟩
  | prefixNodeBadReport =>
    refine ⟨_, rfl, ?_⟩
    split
    · exact forEach_stored (fun _ _ hs => setBad_stored _ hs) _ hs
    · exact hs
  | hbmAccess => exact ⟨_, rfl, performAccess_stored _ _ _ _ hs⟩
  | hbmAtomic =>
    refine ⟨_, rfl, ?_⟩
    split
    · exact atomicAt_stored _ _ _ _ _ _ _ _ hs
    · exact requestAtomic_stored _ _ _ _ _ _ _ _ _ _ hs
  | backgroundFillStart => exact ⟨_, rfl, startFill_stored _ _ _ hs⟩
  | evictionWritebackDone => exact ⟨_, rfl, writeBack_stored _ _ hs⟩
  | hbmPatrolRead => exact ⟨_, rfl, patrol_stored _ _ hs⟩
  | cacheCleanDone => exact ⟨_, rfl, finishClean_stored _ hs⟩
  | segAdviseCopyDone => exact ⟨_, rfl, copyDone_stored _ _ hs⟩
  | segMissFill =>
    refine ⟨_, rfl, ?_⟩
    split
    · exact fillMiss_stored _ _ hs
    · exact hs
  | segFaultResolveRetry =>
    exact ⟨_, rfl, whenReached_stored (fun _ hs => resolve_stored (fun _ _ hs => retryRecord_stored _ hs) hs) hs⟩
  | segFaultResolveFail =>
    exact ⟨_, rfl, whenReached_stored (fun _ hs => resolve_stored (fun _ _ hs => failRecord_stored _ hs) hs) hs⟩
  | segmentFaultTimeout => exact ⟨_, rfl, faultTimeout_stored _ hs⟩
  | segFaultCtrlWrite =>
    exact ⟨_, rfl, whenReached_stored (fun _ hs => forEach_stored (fun _ _ hs => faultTimeout_stored _ hs) _ hs) hs⟩
  | gkLinkUp => exact ⟨_, rfl, linkUp_stored _ _ _ hs⟩
  | gkRetrainDone => exact ⟨_, rfl, retrainDone_stored _ _ hs⟩
  | hostLostTimeout =>
    refine ⟨_, rfl, ?_⟩
    split
    · split
      · exact loseHost_stored _ hs
      · exact hs
    · exact hs
  | hostReset =>
    refine ⟨_, rfl, ?_⟩
    split
    · exact forEach_stored (fun _ _ hs => (updGk_reach _ _ _).stored rfl hs) _ (loseHost_stored _ hs)
    · exact hs
  | hostDrain => exact ⟨_, rfl, drainHost_stored _ _ _ hs⟩
  | hostAccessRefused => exact ⟨_, rfl, accessRefused_stored _ hs⟩
  | receiptWrite => exact ⟨_, rfl, writeReceipt_stored _ hs⟩
  | read =>
    refine ⟨_, rfl, ?_⟩
    split
    · exact hs
    · exact inFlow_stored (fun _ hs => hs) (fun _ hs => peerAccess_stored (fun _ hs => lookUp_stored (fun _ hs =>
        (sendPoint_reach _ _ _ _ _ _ _).stored rfl (hbmRead_stored _ _ _ _ hs)) hs) hs) hs
  | readData => exact ⟨_, rfl, readData_stored _ _ _ hs⟩
  | write =>
    refine ⟨_, rfl, ?_⟩
    split
    · exact hs
    · exact inFlow_stored (fun _ hs => (ackMsg_reach _ _).stored rfl hs) (fun _ hs => peerAccess_stored (fun _ hs => lookUp_stored (fun _ hs =>
        (ackMsg_reach _ _).stored rfl ((captureWrite_reach _ _ _).stored rfl (hbmWrite_stored _ _ _ _ hs))) hs) hs) hs
  | atomic => exact ⟨_, rfl, peerAtomic_stored _ _ _ _ _ _ _ _ hs⟩
  | ack => exact ⟨_, rfl, acked_stored _ _ _ _ hs⟩
  | nack => exact ⟨_, rfl, nacked_stored _ _ _ _ hs⟩
  | gather => exact ⟨_, rfl, gather_stored _ _ _ _ _ hs⟩
  | stepReceipt => exact ⟨_, rfl, stepReturned_stored _ _ _ _ _ hs⟩
  | join =>
    refine ⟨_, rfl, ?_⟩
    split
    · exact joined'_stored _ ((ackMsg_reach _ _).stored rfl hs)
    · exact hs
  | courierPeerLost => exact ⟨_, rfl, peerLost_stored _ hs⟩
  | quote => exact ⟨_, rfl, pmCall_stored (fun _ _ _ hs => quote_stored _ _ _ hs) hs⟩
  | carrierLoadDone => exact ⟨_, rfl, carrierLoaded_stored _ hs⟩
  | hbmRepair => exact ⟨_, rfl, pmCall_stored (fun _ _ _ hs => hbmRepair_stored _ _ hs) hs⟩
  | bootDone => exact ⟨_, rfl, bootDone_stored _ _ hs⟩
  | scratchpadScrub => exact ⟨_, rfl, sramRead_stored _ _ hs⟩
  | supplyReset => exact ⟨_, rfl, supplyFalls_stored _ hs⟩
  | supplyOff => exact ⟨_, rfl, supplyLost_stored hs⟩
  | mrstNAssert => exact ⟨_, rfl, pinLow_stored hs⟩
  | pwrCtrlModuleReset => exact ⟨_, rfl, writePwr_stored (fun _ hs => triggerReset_stored _ hs) hs⟩
  | postmasterReset =>
    refine ⟨_, rfl, ?_⟩
    split
    · exact sramFault_stored _ hs
    · exact railFault_stored hs
  | pwrCtrlPark => exact ⟨_, rfl, writePwr_stored (fun _ hs => park_stored hs) hs⟩
  | parkDone => exact ⟨_, rfl, parkDone_stored hs⟩
  | pwrCtrlUnpark => exact ⟨_, rfl, writePwr_stored (fun _ hs => unpark_stored _ hs) hs⟩
  | junctionTempChange => exact ⟨_, rfl, junction_stored _ _ hs⟩
  | thermalCriticalTimeout => exact ⟨_, rfl, criticalTimeout_stored hs⟩
  | hbmTempChange => exact ⟨_, rfl, stackTemp_stored _ _ hs⟩
  | coreReset => exact ⟨_, rfl, coreReset'_stored _ hs⟩
  | carrierAccess => exact ⟨_, rfl, carrierAccess_stored _ _ hs⟩
  | _ => exact ⟨t, ran, exec_stored_of_not_reached ran rfl hs⟩

theorem tick_reach (s : State) : SameExcept [.devTime, .log, .isl, .cache, .qs, .sems, .cores, .links, .grinders, .stores, .courier] s (tick s) := by
  unfold tick
  split
  · exact .refl _ _
  · exact (firePorts_reach _).step rfl ((walkCache_reach _ _ _).step rfl ((walkCache_reach _ _ _).step rfl ((advance_reach _).weaken rfl)))

/-- Settles O5: a tick reaches neither memory nor the marks, and a command keeps their forms. -/
theorem stepsKeepMemoryAndMarksCanonical : Obligations.StepsKeepMemoryAndMarksCanonical := by
  intro s t hs stepped
  unfold step at stepped
  split at stepped
  case h_1 => exact Host.Outcome.next.inj stepped ▸ (tick_reach s).stored rfl hs
  case h_2 => exact exec_stored stepped hs

end Sys2Proof.Machine
end

section
/-! SUPPORT. What a frame leaves of each table, one core written, and a read of memory after a write of bytes: the rules that the statements about
the tile ops, the transfers and the calls share. -/

namespace Sys2Proof.Machine

/-! ### What a frame leaves -/

section
variable {ps : List Part} {s t : State}

theorem not_mem_of_contains {p : Part} (kept : ps.contains p = false) : p ∉ ps := fun listed => by simp [listed] at kept

theorem SameExcept.cores_eq (h : SameExcept ps s t) (kept : ps.contains .cores = false) : t.cores = s.cores := h .cores (not_mem_of_contains kept)
theorem SameExcept.getCore_eq (h : SameExcept ps s t) (kept : ps.contains .cores = false) (q : Nat) : getCore t q = getCore s q :=
  congrArg (tabGet coreReset · q) (h.cores_eq kept)
theorem SameExcept.otherCores (h : SameExcept ps s t) (kept : ps.contains .cores = false) (p : Nat) : OtherCores p s t :=
  fun q _ => h.getCore_eq kept q
theorem SameExcept.getSem_eq (h : SameExcept ps s t) (kept : ps.contains .sems = false) (i : Nat) : getSem t i = getSem s i :=
  congrArg (tabGet semReset · i) (h .sems (not_mem_of_contains kept))
theorem SameExcept.getLink_eq (h : SameExcept ps s t) (kept : ps.contains .links = false) (i : Nat) : getLink t i = getLink s i :=
  congrArg (tabGet linkRunReset · i) (h .links (not_mem_of_contains kept))
theorem SameExcept.getIsl_eq (h : SameExcept ps s t) (kept : ps.contains .isl = false) (i : Nat) : getIsl t i = getIsl s i :=
  congrArg (tabGet islandReset · i) (h .isl (not_mem_of_contains kept))
theorem SameExcept.getGrinder_eq (h : SameExcept ps s t) (kept : ps.contains .grinders = false) (i : Nat) : getGrinder t i = getGrinder s i :=
  congrArg (tabGet grinderReset · i) (h .grinders (not_mem_of_contains kept))
theorem SameExcept.qs_eq (h : SameExcept ps s t) (kept : ps.contains .qs = false) : t.qs = s.qs := h .qs (not_mem_of_contains kept)
theorem SameExcept.getInv_eq (h : SameExcept ps s t) (kept : ps.contains .qs = false) (i : Nat) : getInv t i = getInv s i := by
  rw [getInv, getInv, h.qs_eq kept]
theorem SameExcept.getQ_eq (h : SameExcept ps s t) (kept : ps.contains .qs = false) (i : Nat) : getQ t i = getQ s i := by
  rw [getQ, getQ, h.qs_eq kept]
theorem SameExcept.getXfer_eq (h : SameExcept ps s t) (kept : ps.contains .xfers = false) (n : Nat) : getXfer t n = getXfer s n :=
  congrArg (tabFind · n) (h .xfers (not_mem_of_contains kept)).1
theorem SameExcept.nextXfer_eq (h : SameExcept ps s t) (kept : ps.contains .xfers = false) : t.nextXfer = s.nextXfer :=
  (h .xfers (not_mem_of_contains kept)).2
theorem SameExcept.memByte_eq (h : SameExcept ps s t) (kept : ps.contains .mem = false) (a : Nat) : memByte t a = memByte s a :=
  (h .mem (not_mem_of_contains kept)).2 a
theorem SameExcept.poison_eq (h : SameExcept ps s t) (kept : ps.contains .poison = false) : t.poison = s.poison :=
  h .poison (not_mem_of_contains kept)
theorem SameExcept.blend_eq (h : SameExcept ps s t) (kept : ps.contains .blend = false) : t.blend = s.blend :=
  h .blend (not_mem_of_contains kept)
theorem SameExcept.log_eq (h : SameExcept ps s t) (kept : ps.contains .log = false) : t.log = s.log := h .log (not_mem_of_contains kept)
theorem SameExcept.seg_eq (h : SameExcept ps s t) (kept : ps.contains .seg = false) : t.seg = s.seg := h .seg (not_mem_of_contains kept)
theorem SameExcept.pm_eq (h : SameExcept ps s t) (kept : ps.contains .pm = false) : t.pm = s.pm := h .pm (not_mem_of_contains kept)
theorem SameExcept.host_eq (h : SameExcept ps s t) (kept : ps.contains .host = false) : t.host = s.host := h .host (not_mem_of_contains kept)

end

/-! ### One core is written -/

theorem OtherCores.refl (p : Nat) (s : State) : OtherCores p s s := fun _ _ => rfl

theorem OtherCores.trans {p : Nat} {s t u : State} (h : OtherCores p s t) (h' : OtherCores p t u) : OtherCores p s u :=
  fun q ne => (h' q ne).trans (h q ne)

theorem setCore_otherCores (s : State) (p : Nat) (c : Core) : OtherCores p s (setCore s p c) := fun _ ne => getCore_setCore_ne s c ne

@[simp] theorem getCore_updCore (s : State) (p : Nat) (f : Core → Core) : getCore (updCore s p f) p = f (getCore s p) := getCore_setCore _ _ _

theorem getCore_updCore_ne (s : State) {p q : Nat} (f : Core → Core) (ne : q ≠ p) : getCore (updCore s p f) q = getCore s q :=
  getCore_setCore_ne _ _ ne

theorem updCore_otherCores (s : State) (p : Nat) (f : Core → Core) : OtherCores p s (updCore s p f) := fun _ ne => getCore_updCore_ne s f ne

/-! ### A read of memory after a write of bytes (R31, R290) -/

theorem memByte_setMemByte_eq (s : State) (a b : Nat) (v : Byte) : memByte (setMemByte s a v) b = if b = a then v else memByte s b := by
  split
  · next same => rw [same, memByte_setMemByte]
  · next ne => exact memByte_setMemByte_ne _ _ ne

theorem memByte_storeBytes : ∀ (d : PData) (s : State) (a b : Nat),
    memByte (storeBytes s a d) b = if a ≤ b ∧ b < a + d.length then (d.getD (b - a) (0, false)).1 else memByte s b
  | [], s, a, b => by
    have none_written : ¬ (a ≤ b ∧ b < a + ([] : PData).length) := by simp
    rw [if_neg none_written]
    rfl
  | (v, m) :: d, s, a, b => by
    rw [storeBytes, memByte_storeBytes d, memByte_setMemByte_eq, List.length_cons]
    rcases lt_trichotomy b a with before | rfl | after
    · rw [if_neg (by omega), if_neg (by omega), if_neg (by omega)]
    · rw [if_neg (by omega), if_pos rfl, if_pos (by omega), Nat.sub_self, List.getD_cons_zero]
    · obtain ⟨k, rfl⟩ := Nat.exists_eq_add_of_lt after
      rw [if_neg (show a + k + 1 ≠ a by omega), show a + k + 1 - a = k + 1 by omega, List.getD_cons_succ, show a + k + 1 - (a + 1) = k by omega]
      exact if_congr (by omega) rfl rfl


theorem forEach_memByte {β : Type} {f : β → State → State} (hf : ∀ b t a, memByte (f b t) a = memByte t a) :
    ∀ (l : List β) (t : State) (a : Nat), memByte (forEach l f t) a = memByte t a
  | [], _, _ => rfl
  | b :: l, t, a => (forEach_memByte hf l (f b t) a).trans (hf b t a)

/-- A write leaves its bytes where they stand and every other byte as it was. -/
theorem memByte_memWrite (s : State) (a : Nat) (d : PData) (b : Nat) :
    memByte (memWrite s a d) b = if a ≤ b ∧ b < a + d.length then (d.getD (b - a) (0, false)).1 else memByte s b := by
  rw [memWrite, forEach_memByte (fun g t x => (settleGranule_reach a d g t).memByte_eq rfl x), memByte_storeBytes]

theorem memByte_memWrite_of_outside {s : State} {a b : Nat} {d : PData} (outside : b < a ∨ a + d.length ≤ b) :
    memByte (memWrite s a d) b = memByte s b := by
  rw [memByte_memWrite, if_neg (by omega)]

theorem memByte_memWrite_add {s : State} {a j : Nat} {d : PData} (inside : j < d.length) :
    memByte (memWrite s a d) (a + j) = (d.getD j (0, false)).1 := by
  rw [memByte_memWrite, if_pos (by omega), Nat.add_sub_cancel_left]

@[simp] theorem clean_length (l : List Byte) : (clean l).length = l.length := List.length_map _

@[simp] theorem marked_length (l : List Byte) : (marked l).length = l.length := List.length_map _

theorem clean_getD (l : List Byte) (j : Nat) : ((clean l).getD j (0, false)).1 = l.getD j 0 := by
  rw [clean, List.getD_eq_getElem?_getD, List.getD_eq_getElem?_getD, List.getElem?_map]
  cases l[j]? <;> rfl

theorem memBytes_eq {s : State} : ∀ {n a : Nat} {l : List Byte}, l.length = n → (∀ j < n, memByte s (a + j) = l.getD j 0) → memBytes s a n = l
  | 0, _, _, len, _ => (List.eq_nil_of_length_eq_zero len).symm
  | n + 1, a, b :: l, len, bytes => by
    rw [memBytes]
    congr 1
    · exact bytes 0 (Nat.succ_pos n)
    · refine memBytes_eq (Nat.succ.inj len) (fun j lt => ?_)
      have := bytes (j + 1) (Nat.succ_lt_succ lt)
      rwa [List.getD_cons_succ, Nat.add_comm j 1, ← Nat.add_assoc] at this

@[simp] theorem memBytes_length (s : State) : ∀ a n, (memBytes s a n).length = n
  | _, 0 => rfl
  | a, n + 1 => congrArg (· + 1) (memBytes_length s (a + 1) n)

theorem memBytes_getD {s : State} : ∀ {a n j : Nat}, j < n → (memBytes s a n).getD j 0 = memByte s (a + j)
  | _, n + 1, 0, _ => rfl
  | a, n + 1, j + 1, lt => by
    rw [memBytes, List.getD_cons_succ, memBytes_getD (Nat.lt_of_succ_lt_succ lt), Nat.add_right_comm, Nat.add_assoc]

@[simp] theorem leBytes_length : ∀ n v, (leBytes n v).length = n
  | 0, _ => rfl
  | n + 1, v => congrArg (· + 1) (leBytes_length n (v / 256))

/-- Bytes written low first spell the number they were taken from (R7). -/
theorem leNat_leBytes : ∀ (n v : Nat), leNat (leBytes n v) = v % 2 ^ (8 * n)
  | 0, v => by rw [leBytes, leNat, Nat.mul_zero, Nat.pow_zero, Nat.mod_one]
  | n + 1, v => by
    rw [leBytes, leNat, leNat_leBytes n, BitVec.toNat_ofNat, Nat.mul_succ, Nat.add_comm (8 * n) 8, Nat.pow_add, Nat.mod_mul]

theorem leNat_leBytes_of_lt {n v : Nat} (small : v < 2 ^ (8 * n)) : leNat (leBytes n v) = v := by rw [leNat_leBytes, Nat.mod_eq_of_lt small]

/-- Where parts of one length stand end to end, a place is found by its part and its place there. -/
theorem getD_flatten_of_length {α : Type} {k : Nat} (d : α) {j : Nat} (hj : j < k) : ∀ {ls : List (List α)} (n : Nat), (∀ l ∈ ls, l.length = k) → n < ls.length →
    ls.flatten.getD (k * n + j) d = (ls.getD n []).getD j d
  | [], n, _, lt => absurd lt (Nat.not_lt_zero n)
  | l :: ls, 0, len, _ => by
    rw [List.flatten_cons, Nat.mul_zero, Nat.zero_add, List.getD_cons_zero, List.getD_append _ _ _ _ (by rw [len l List.mem_cons_self]; exact hj)]
  | l :: ls, n + 1, len, lt => by
    have hl := len l List.mem_cons_self
    rw [List.flatten_cons, List.getD_append_right _ _ _ _ (by rw [hl, Nat.mul_succ]; omega), hl, List.getD_cons_succ, Nat.mul_succ,
      show k * n + k + j - k = k * n + j by omega]
    exact getD_flatten_of_length d hj n (fun m hm => len m (List.mem_cons_of_mem _ hm)) (Nat.lt_of_succ_lt_succ lt)

end Sys2Proof.Machine
end

section
/-! SUPPORT. Issue (R188-R202): what an issued op leaves besides its effect, the place that it takes in the window, and the statements O9, O12, O14
and O17 put together from what each class of op does. -/

namespace Sys2Proof.Machine

/-! ### What every issue leaves (R200, R202, R317) -/

theorem AfterIssue.otherCores {p : Nat} {s u t : State} (h : AfterIssue p u t) (before : OtherCores p s u) : OtherCores p s t :=
  before.trans h.2.1

theorem AfterIssue.frame {p : Nat} {ps : List Part} {s u t : State} (h : AfterIssue p u t) (before : SameExcept ps s u)
    (listed : covers ps [.cores, .seg] = true) : SameExcept ps s t :=
  h.2.2.step listed before

/-- The look-ahead of the engine, which issue ends with, reaches no core. -/
theorem lookAhead_reach (p l : Nat) (arms : Prop) [Decidable arms] (s : State) :
    SameExcept [.seg] s (prefetchOps p (if arms then prefetchLink l s else s)) := by
  refine (prefetchOps_reach p _).after ?_
  split
  · exact prefetchLink_reach l s
  · exact .refl _ _

/-- An op that is no declaration: a declaration before it is over, as is a stall. -/
theorem issueOp_after {p : Nat} {w : Bits256} (s : State) (plain : ¬ (opClass w = 5 ∧ (opSub w = 5 ∨ opSub w = 6))) :
    AfterIssue p (issueClass p w s) (issueOp p w s) := by
  have looks := lookAhead_reach p (armLink s p w) (opClass w = 5 ∧ opSub w = 4)
    (updCore (issueClass p w s) p (fun c => { c with liveMore := none, stall := none }))
  have eq : issueOp p w s = prefetchOps p (if opClass w = 5 ∧ opSub w = 4 then
      prefetchLink (armLink s p w) (updCore (issueClass p w s) p (fun c => { c with liveMore := none, stall := none })) else
      updCore (issueClass p w s) p (fun c => { c with liveMore := none, stall := none })) := by
    rw [issueOp, endDeclaring, if_neg plain]
  rw [eq]
  refine ⟨?_, ?_, ?_⟩
  · rw [looks.getCore_eq rfl, getCore_updCore]
  · exact (updCore_otherCores _ p _).trans (looks.otherCores rfl p)
  · exact looks.step rfl ((updCore_reach _ _ _).weaken rfl)

/-- A CHEAP or LIVE op (R206): nothing but the engine's look-ahead follows its effect. -/
theorem issueOp_of_declaring {p : Nat} {w : Bits256} (s : State) (cls : opClass w = 5) (sub : opSub w = 5 ∨ opSub w = 6) :
    SameExcept [.seg] (issueClass p w s) (issueOp p w s) := by
  have eq : issueOp p w s = prefetchOps p (issueClass p w s) := by
    rw [issueOp, if_neg (by omega), endDeclaring, if_pos ⟨cls, sub⟩]
  rw [eq]
  exact prefetchOps_reach p _

/-- A ready op is issued by its own row. -/
theorem ReadyOp.issues {s : State} {l p : Nat} {w : Bits256} {pick : Bits256 → Bool} (ready : ReadyOp s l p w) (named : pick w = true) :
    (.next (issueLogical l pick s) : Out State) = .next (issueOp p w s) := congrArg _ (readyOp_issues ready named)

theorem ReadyOp.matValid {s : State} {l p : Nat} {w : Bits256} (ready : ReadyOp s l p w) (cls : opClass w = 0) : MatValid s p w := by
  obtain ⟨_, _, _, ⟨_, valid⟩ | ⟨other, _⟩ | ⟨other, _⟩ | ⟨other, _⟩ | ⟨other, _⟩ | ⟨other, _⟩, _⟩ := ready
  · exact valid
  all_goals exact absurd (cls.symm.trans other) (by decide)

theorem ReadyOp.semValid {s : State} {l p : Nat} {w : Bits256} (ready : ReadyOp s l p w) (cls : opClass w = 4) : SemValid s p w := by
  obtain ⟨_, _, _, ⟨other, _⟩ | ⟨other, _⟩ | ⟨other, _⟩ | ⟨other, _⟩ | ⟨_, valid⟩ | ⟨other, _⟩, _⟩ := ready
  case inr.inr.inr.inr.inl => exact valid
  all_goals exact absurd (cls.symm.trans other) (by decide)

theorem ReadyOp.movValid {s : State} {l p : Nat} {w : Bits256} (ready : ReadyOp s l p w) (cls : opClass w = 2) : MovValid s p w := by
  obtain ⟨_, _, _, ⟨other, _⟩ | ⟨other, _⟩ | ⟨_, valid⟩ | ⟨other, _⟩ | ⟨other, _⟩ | ⟨other, _⟩, _⟩ := ready
  case inr.inr.inl => exact valid
  all_goals exact absurd (cls.symm.trans other) (by decide)

theorem ReadyOp.class_le {s : State} {l p : Nat} {w : Bits256} (ready : ReadyOp s l p w) : opClass w ≤ 5 := by
  obtain ⟨_, _, _, ⟨cls, _⟩ | ⟨cls, _⟩ | ⟨cls, _⟩ | ⟨cls, _⟩ | ⟨cls, _⟩ | ⟨cls, _⟩, _⟩ := ready <;> omega

theorem ReadyOp.ctlValid {s : State} {l p : Nat} {w : Bits256} (ready : ReadyOp s l p w) (cls : opClass w = 5) : CtlValid s p w := by
  obtain ⟨_, _, _, ⟨other, _⟩ | ⟨other, _⟩ | ⟨other, _⟩ | ⟨other, _⟩ | ⟨other, _⟩ | ⟨_, valid⟩, _⟩ := ready
  case inr.inr.inr.inr.inr => exact valid
  all_goals exact absurd (cls.symm.trans other) (by decide)

/-! ### A place in the window (R188) -/

theorem pushOp_otherCores (p : Nat) (w : Bits256) (started : Bool) (s : State) : OtherCores p s (pushOp p w started s) :=
  updCore_otherCores s p _

/-- The op that takes the last place, with the fields that its class gives it. -/
theorem getCore_pushOp (p : Nat) (w : Bits256) (started : Bool) (s : State) :
    ∃ o : IssuedOp, getCore (pushOp p w started s) p = { getCore s p with
        window := (getCore s p).window ++ [o], nextSeq := (getCore s p).nextSeq + 1, pc := nextPc (getCore s p), stall := none } ∧
      o.word = w ∧ o.addr = (getCore s p).pc ∧ o.seq = (getCore s p).nextSeq ∧ o.started = started ∧ o.issuedAt = s.devTime ∧
      o.joins = (opClass w == 0 && joinsChain s p (getCore s p) (matOp w)) ∧
      o.fence = (if opClass w = 4 then
        ((getCore s p).window.filter (fun q => decide (opClass q.word < 4) && bitOf (semArg w) (opClass q.word))).map (·.seq) else []) ∧
      o.xfer = none ∧ o.far = farRef (getCore s p) (opField w 8 8) ∧ o.near = nearRef (getCore s p) (opField w (nearAt w) 4) :=
  ⟨_, getCore_updCore s p _, rfl, rfl, rfl, rfl, rfl, rfl, rfl, rfl, rfl, rfl⟩

/-- An op whose issue leaves its core's window and PC as its place in the window does stands placed. -/
theorem placed_of_pushed {s t : State} {p : Nat} {w : Bits256} {started : Bool} (pc : (getCore t p).pc = (getCore (pushOp p w started s) p).pc)
    (seq : (getCore t p).nextSeq = (getCore (pushOp p w started s) p).nextSeq)
    (window : (getCore t p).window = (getCore (pushOp p w started s) p).window) : Placed s t p w started := by
  obtain ⟨o, pushed, word, addr, oseq, ostarted, issued, _⟩ := getCore_pushOp p w started s
  rw [pushed] at pc seq window
  exact ⟨pc, seq, o, window, word, addr, oseq, ostarted, issued⟩

/-! ### MAT and VEC ops (O9) -/

theorem issueClass_of_mat {w : Bits256} (p : Nat) (s : State) (cls : opClass w = 0) :
    issueClass p w s = updCore (pushOp p w false s) p (fun c => { c with
      issueMode := (matOp w).mode,
      chain := some { mode := (matOp w).mode, cls := (matOp w).cls, m := (matOp w).m, mask := (matOp w).mask, n := (matOp w).n, seq := c.nextSeq - 1 } }) := by
  rw [issueClass, cls]
  rfl

theorem issueClass_of_vec {w : Bits256} (p : Nat) (s : State) (cls : opClass w = 1) : issueClass p w s = pushOp p w false s := by
  rw [issueClass, cls]
  rfl

/-- What the issue of a MAT op leaves, whatever its mode. -/
theorem issueOp_of_mat {s : State} {p : Nat} {w : Bits256} (cls : opClass w = 0) :
    Placed s (issueOp p w s) p w false ∧ (getCore (issueOp p w s) p).issueMode = (matOp w).mode ∧
    (∃ o ∈ (getCore (issueOp p w s) p).window, o.seq = (getCore s p).nextSeq ∧ o.joins = joinsChain s p (getCore s p) (matOp w)) ∧
    OtherCores p s (issueOp p w s) ∧ SameExcept [.cores, .seg] s (issueOp p w s) := by
  have after := issueOp_after (p := p) (w := w) s (by omega)
  rw [issueClass_of_mat p s cls] at after
  have core := after.1
  rw [getCore_updCore] at core
  refine ⟨placed_of_pushed ?_ ?_ ?_, ?_, ?_, ?_, ?_⟩
  · rw [core]
  · rw [core]
  · rw [core]
  · rw [core]
  · obtain ⟨o, pushed, _, _, seq, _, _, joins, _⟩ := getCore_pushOp p w false s
    refine ⟨o, ?_, seq, ?_⟩
    · rw [core, pushed]
      exact List.mem_append_right _ List.mem_cons_self
    · rw [joins, cls]
      rfl
  · exact after.otherCores ((pushOp_otherCores p w false s).trans (updCore_otherCores _ p _))
  · exact after.frame ((updCore_reach _ _ _).step rfl ((pushOp_reach _ _ _ _).weaken rfl)) rfl

theorem matOp_mode (w : Bits256) : (matOp w).mode = opSub w := rfl

/-- Settles O9: a MAT op and a VEC op take their place, and a valid MAT op's mode is its subclass. -/
theorem matAndVecOpsTakeAPlaceInTheWindow : Obligations.MatAndVecOpsTakeAPlaceInTheWindow := by
  intro core s p w ready
  have mat (cls : opClass w = 0) (mode : Nat) (sub : opSub w = mode) := issueOp_of_mat (s := s) (p := p) cls |>.imp_right (·.imp_left (·.trans sub))
  refine ⟨fun named => ⟨_, ready.issues named, ?_⟩, fun named => ⟨_, ready.issues named, ?_⟩, fun named => ⟨_, ready.issues named, ?_⟩,
    fun named => ⟨_, ready.issues named, ?_⟩⟩
  · simp only [isMatGrid, Bool.and_eq_true, beq_iff_eq, bne_iff_ne] at named
    obtain ⟨⟨cls, notFan⟩, notWide⟩ := named
    have known : opSub w ≤ 2 := (ready.matValid cls).1.1
    exact mat cls 0 (by omega)
  · simp only [isMatFan, Bool.and_eq_true, beq_iff_eq] at named
    exact mat named.1 1 named.2
  · simp only [isMatWide, Bool.and_eq_true, beq_iff_eq] at named
    exact mat named.1 2 named.2
  · have cls : opClass w = 1 := by simpa [isVec] using named
    have after := issueOp_after (p := p) (w := w) s (by omega)
    rw [issueClass_of_vec p s cls] at after
    have core := after.1
    refine ⟨placed_of_pushed ?_ ?_ ?_, ?_, after.otherCores (pushOp_otherCores p w false s), after.frame ((pushOp_reach _ _ _ _).weaken rfl) rfl⟩
    · rw [core]
    · rw [core]
    · rw [core]
    · rw [core]
      obtain ⟨o, pushed, _⟩ := getCore_pushOp p w false s
      rw [pushed]

end Sys2Proof.Machine
end

section
/-! SUPPORT. SEM and CTL ops at issue (R199, R200, R206): the effect of each subclass, and the statements O12, O14 and O17. -/

namespace Sys2Proof.Machine

/-! ### SEM ops (O12) -/

theorem issueClass_of_sem {w : Bits256} (p : Nat) (s : State) (cls : opClass w = 4) : issueClass p w s = issueSem p w s := by
  rw [issueClass, cls]
  rfl

/-- PC past the op, and nothing else. -/
def passOp (p : Nat) (s : State) : State := updCore s p (fun c => { c with pc := nextPc c })

@[simp] theorem getSem_updCore (s : State) (p : Nat) (f : Core → Core) (i : Nat) : getSem (updCore s p f) i = getSem s i := rfl

theorem semTake_of_granted {s : State} {i n : Nat} {w : Waiter} (grants : (getSem s i).waiters = [] ∧ n ≤ (getSem s i).value) :
    semTake i n w s = (true, setSem s i { getSem s i with value := (getSem s i).value - n }) := by
  rw [semTake, if_pos grants]

theorem semTake_of_held {s : State} {i n : Nat} {w : Waiter} (held : ¬ ((getSem s i).waiters = [] ∧ n ≤ (getSem s i).value)) :
    semTake i n w s = (false, setSem s i { getSem s i with waiters := (getSem s i).waiters ++ [w] }) := by
  rw [semTake, if_neg held]

theorem issueSem_of_granted {s : State} {p : Nat} {w : Bits256} (wait : opSub w = 0)
    (grants : (getSem s (semId w)).waiters = [] ∧ semCount w ≤ (getSem s (semId w)).value) :
    issueSem p w s = setSem (passOp p s) (semId w) { getSem s (semId w) with value := (getSem s (semId w)).value - semCount w } := by
  rw [issueSem, wait]
  simp only [semTake_of_granted grants, if_true]
  rfl

/-- What a WAIT that cannot be granted leaves: the core holds it, and waits at the semaphore as the youngest. -/
def holdWait (p : Nat) (w : Bits256) (s : State) : State :=
  updCore (setSem s (semId w) { getSem s (semId w) with waiters := (getSem s (semId w)).waiters ++ [.core p (semCount w)] }) p
    (fun c => { c with wait := some { sem := semId w, count := semCount w, timeoutUs := semArg w, since := s.devTime, addr := c.pc, granted := false } })

theorem getCore_holdWait (p : Nat) (w : Bits256) (s : State) : getCore (holdWait p w s) p = { getCore s p with
    wait := some { sem := semId w, count := semCount w, timeoutUs := semArg w, since := s.devTime, addr := (getCore s p).pc, granted := false } } :=
  getCore_updCore _ _ _

theorem issueSem_of_held {s : State} {p : Nat} {w : Bits256} (wait : opSub w = 0)
    (held : ¬ ((getSem s (semId w)).waiters = [] ∧ semCount w ≤ (getSem s (semId w)).value)) :
    SameExcept [.qs] (holdWait p w s) (issueSem p w s) := by
  rw [issueSem, wait]
  simp only [semTake_of_held held, Bool.false_eq_true, if_false]
  split
  · exact refreshBlocked_reach _ _
  · exact .refl _ _

theorem issueSem_of_post {s : State} {p : Nat} {w : Bits256} (post : opSub w = 1) (noFence : semArg w = 0) :
    issueSem p w s = semPost (semId w) (semCount w) (passOp p s) := by
  rw [issueSem, post]
  exact if_pos noFence

theorem issueSem_of_fenced {s : State} {p : Nat} {w : Bits256} (post : opSub w = 1) (fence : semArg w ≠ 0) :
    issueSem p w s = pushOp p w true s := by
  rw [issueSem, post]
  exact if_neg fence

theorem issueSem_of_set {s : State} {p : Nat} {w : Bits256} (set : opSub w = 2) :
    issueSem p w s = semSet (semId w) (semCount w) (passOp p s) := by
  rw [issueSem, set]
  rfl

/-- Settles O12: each subclass by its equation, and what issue leaves after it. -/
theorem semOpsWaitPostAndSet : Obligations.SemOpsWaitPostAndSet := by
  intro core s p w ready
  have after (cls : opClass w = 4) : AfterIssue p (issueSem p w s) (issueOp p w s) :=
    issueClass_of_sem p s cls ▸ issueOp_after s (by omega)
  have wait (named : isSemWait w = true) : opClass w = 4 ∧ opSub w = 0 := by
    simp only [isSemWait, Bool.and_eq_true, beq_iff_eq, bne_iff_ne] at named
    obtain ⟨⟨cls, notPost⟩, notSet⟩ := named
    have known : opSub w ≤ 2 := (ready.semValid cls).1
    exact ⟨cls, by omega⟩
  have post (named : isSemPost w = true) : opClass w = 4 ∧ opSub w = 1 := by simpa [isSemPost] using named
  refine ⟨fun named noWaiter enough => ⟨_, ready.issues named, ?_⟩, fun named held => ⟨_, ready.issues named, ?_⟩,
    fun named noFence => ⟨_, ready.issues named, ?_⟩, fun named fence => ⟨_, ready.issues named, ?_⟩, fun named => ⟨_, ready.issues named, ?_⟩⟩
  · obtain ⟨cls, sub⟩ := wait named
    exact issueSem_of_granted sub ⟨noWaiter, enough⟩ ▸ after cls
  · obtain ⟨cls, sub⟩ := wait named
    have left := issueSem_of_held (p := p) sub held
    have issued := after cls
    have core : getCore (issueOp p w s) p = { getCore (holdWait p w s) p with liveMore := none, stall := none } :=
      left.getCore_eq rfl p ▸ issued.1
    have reach : SameExcept [.sems, .cores, .qs, .seg] s (holdWait p w s) :=
      (updCore_reach _ _ _).step rfl ((setSem_reach _ _ _).weaken rfl)
    rw [getCore_holdWait] at core
    refine ⟨?_, ?_, ?_, issued.otherCores ?_, issued.frame (left.step rfl reach) rfl⟩
    · rw [core]
    · rw [core]
    · rw [issued.2.2.getSem_eq rfl, left.getSem_eq rfl]
      exact getSem_setSem _ _ _
    · exact (updCore_otherCores (setSem s _ _) p _).trans (left.otherCores rfl p)
  · obtain ⟨cls, sub⟩ := post named
    exact issueSem_of_post (p := p) sub noFence ▸ after cls
  · obtain ⟨cls, sub⟩ := post named
    have issued := after cls
    rw [issueSem_of_fenced sub fence] at issued
    have core := issued.1
    obtain ⟨o, pushed, _, _, seq, _, _, _, fenced, _⟩ := getCore_pushOp p w true s
    refine ⟨placed_of_pushed ?_ ?_ ?_, ⟨o, ?_, seq, ?_⟩, issued.otherCores (pushOp_otherCores p w true s),
      issued.frame ((pushOp_reach _ _ _ _).weaken rfl) rfl⟩
    · rw [core]
    · rw [core]
    · rw [core]
    · rw [core, pushed]
      exact List.mem_append_right _ List.mem_cons_self
    · rw [fenced, if_pos cls]
  · have sub : opClass w = 4 ∧ opSub w = 2 := by simpa [isSemSet] using named
    exact issueSem_of_set (p := p) sub.2 ▸ after sub.1

/-! ### CTL ops of the loop counters and registers (O14) -/

theorem issueClass_of_ctl {w : Bits256} (p : Nat) (s : State) (cls : opClass w = 5) : issueClass p w s = issueCtl p w s := by
  rw [issueClass, cls]
  rfl

theorem setReg_xs (c : Core) (n : Nat) (v : Dword) : (setReg c n v).xs = if n = 0 then c.xs else setNth c.xs n v := by
  unfold setReg
  split <;> rfl

theorem setReg_pc (c : Core) (n : Nat) (v : Dword) : (setReg c n v).pc = c.pc := by
  unfold setReg
  split <;> rfl

theorem setReg_lcs (c : Core) (n : Nat) (v : Dword) : (setReg c n v).lcs = c.lcs := by
  unfold setReg
  split <;> rfl

/-- A CTL op whose effect is one write of its core: what issue leaves. -/
theorem issueCtl_setsCore {s : State} {p : Nat} {w : Bits256} {c : Core} (cls : opClass w = 5) (plain : ¬ (opSub w = 5 ∨ opSub w = 6))
    (sets : issueCtl p w s = setCore s p c) :
    getCore (issueOp p w s) p = { c with liveMore := none, stall := none } ∧ OtherCores p s (issueOp p w s) ∧
    SameExcept [.cores, .seg] s (issueOp p w s) := by
  have after : AfterIssue p (setCore s p c) (issueOp p w s) := sets ▸ issueClass_of_ctl p s cls ▸ issueOp_after s (by omega)
  exact ⟨after.1.trans (by rw [getCore_setCore]), after.otherCores (setCore_otherCores s p c), after.frame ((setCore_reach _ _ _).weaken rfl) rfl⟩

theorem issueCtl_of_end {s : State} {p : Nat} {w : Bits256} (sub : opSub w = 0) :
    issueCtl p w s = setCore s p { getCore s p with ended := true, pc := nextPc (getCore s p) } := by
  rw [issueCtl, sub]
  rfl

/-- The core after the increments of a LOOP that goes round. -/
def incremented (c : Core) (w : Bits256) : Core :=
  let a := opField w 5 1 % 8
  let b := opField w 5 1 / 8 % 8
  let first := setReg c a (BitVec.ofNat 64 (regOf c a) + BitVec.ofNat 64 (opField w 0x10 8))
  setReg first b (BitVec.ofNat 64 (regOf first b) + BitVec.ofNat 64 (opField w 0x18 8))

theorem incremented_of_lcs (c : Core) (l : List Word) (w : Bits256) : incremented { c with lcs := l } w = { incremented c w with lcs := l } := by
  unfold incremented setReg
  dsimp only
  split <;> split <;> rfl

theorem incremented_pc (c : Core) (w : Bits256) : (incremented c w).pc = c.pc := (setReg_pc _ _ _).trans (setReg_pc _ _ _)

/-- PC at the target of a LOOP. -/
def atTarget (c : Core) (w : Bits256) : Core := { c with pc := (((c.pc : Int) + 32 * loopTarget w) % (2 ^ 48 : Int)).toNat }

theorem issueCtl_of_loop_ended {s : State} {p : Nat} {w : Bits256} (sub : opSub w = 1) (last : (getCore s p).lcs.getD (opField w 4 1 % 4) 0 - 1 = 0) :
    issueCtl p w s = setCore s p { getCore s p with lcs := setNth (getCore s p).lcs (opField w 4 1 % 4) ((getCore s p).lcs.getD (opField w 4 1 % 4) 0 - 1),
                                                    pc := nextPc (getCore s p) } := by
  rw [issueCtl, sub]
  exact if_pos last

theorem issueCtl_of_loop_round {s : State} {p : Nat} {w : Bits256} (sub : opSub w = 1) (more : (getCore s p).lcs.getD (opField w 4 1 % 4) 0 - 1 ≠ 0) :
    issueCtl p w s = setCore s p { incremented (getCore s p) w with
      lcs := setNth (getCore s p).lcs (opField w 4 1 % 4) ((getCore s p).lcs.getD (opField w 4 1 % 4) 0 - 1),
      pc := (((getCore s p).pc : Int) + 32 * loopTarget w) % (2 ^ 48 : Int) |>.toNat } := by
  have round : issueCtl p w s = setCore s p (atTarget (incremented { getCore s p with
      lcs := setNth (getCore s p).lcs (opField w 4 1 % 4) ((getCore s p).lcs.getD (opField w 4 1 % 4) 0 - 1) } w) w) := by
    rw [issueCtl, sub]
    exact if_neg more
  rw [round, incremented_of_lcs, atTarget, incremented_pc]

theorem issueCtl_of_set {s : State} {p : Nat} {w : Bits256} (sub : opSub w = 2) :
    ∃ c : Core, issueCtl p w s = setCore s p c ∧ c.pc = nextPc (getCore s p) ∧
      c.xs = (if bitOf (opFlags w) 0 ∧ opField w 4 1 % 8 ≠ 0 then setNth (getCore s p).xs (opField w 4 1 % 8) (BitVec.ofNat 64 (opField w 8 8))
        else (getCore s p).xs) ∧
      c.lcs = (if bitOf (opFlags w) 1 then setNth (getCore s p).lcs (opField w 5 1 % 4) (BitVec.ofNat 32 (opField w 0x10 4))
        else (getCore s p).lcs) := by
  rw [issueCtl, sub]
  refine ⟨_, rfl, ?_, ?_, ?_⟩
  · unfold nextPc
    split <;> split <;> simp [setReg_pc]
  · by_cases reg : bitOf (opFlags w) 0 = true <;> by_cases ctr : bitOf (opFlags w) 1 = true <;> by_cases x0 : opField w 4 1 % 8 = 0 <;>
      simp [reg, ctr, x0, setReg_xs]
  · by_cases reg : bitOf (opFlags w) 0 = true <;> by_cases ctr : bitOf (opFlags w) 1 = true <;> simp [reg, ctr, setReg_lcs]

theorem issueCtl_of_ldx {s : State} {p : Nat} {w : Bits256} (sub : opSub w = 3) :
    issueCtl p w s = setCore s p { setReg (getCore s p) (opField w 4 1 % 8)
      (BitVec.ofNat 64 (scrNat s p (nearRef (getCore s p) (opField w 8 4)) 8)) with pc := nextPc (getCore s p) } := by
  rw [issueCtl, sub]
  rfl

/-- Settles O14: the core that each op writes, and what issue leaves. -/
theorem ctlOpsLoopSetAndLoad : Obligations.CtlOpsLoopSetAndLoad := by
  intro core s p w ready
  refine ⟨fun named => ⟨_, ready.issues named, ?_⟩, fun named => ⟨_, ready.issues named, ?_⟩, fun named => ⟨_, ready.issues named, ?_⟩,
    fun named => ⟨_, ready.issues named, ?_⟩⟩
  case refine_1 =>
    have known := ready.class_le
    simp only [isCtlEnd, Bool.or_eq_true, decide_eq_true_eq, Bool.and_eq_true, beq_iff_eq] at named
    have cls : opClass w = 5 := by omega
    have subs : opSub w ≤ 7 := (ready.ctlValid cls).1
    have sub : opSub w = 0 := by omega
    exact issueCtl_of_end (p := p) sub ▸ issueClass_of_ctl p s cls ▸ issueOp_after s (by omega)
  case refine_2 =>
    obtain ⟨cls, sub⟩ : opClass w = 5 ∧ opSub w = 1 := by simpa [isCtlLoop] using named
    by_cases last : (getCore s p).lcs.getD (opField w 4 1 % 4) 0 - 1 = 0
    · obtain ⟨eq, others, frame⟩ := issueCtl_setsCore cls (by omega) (issueCtl_of_loop_ended sub last)
      refine ⟨others, frame, ?_, fun _ => ⟨?_, ?_⟩, fun more => absurd (sub_eq_zero.1 last) more⟩
      all_goals rw [eq]
    · obtain ⟨eq, others, frame⟩ := issueCtl_setsCore cls (by omega) (issueCtl_of_loop_round sub last)
      refine ⟨others, frame, ?_, fun one => absurd (sub_eq_zero.2 one) last, fun _ => ⟨?_, ?_⟩⟩
      · rw [eq]
      · rw [eq]
      · rw [eq]
        rfl
  case refine_3 =>
    obtain ⟨cls, sub⟩ : opClass w = 5 ∧ opSub w = 2 := by simpa [isCtlSet] using named
    obtain ⟨c, sets, pc, xs, lcs⟩ := issueCtl_of_set (s := s) (p := p) sub
    obtain ⟨eq, others, frame⟩ := issueCtl_setsCore cls (by omega) sets
    rw [eq]
    exact ⟨others, frame, pc, xs, lcs⟩
  case refine_4 =>
    obtain ⟨cls, sub⟩ : opClass w = 5 ∧ opSub w = 3 := by simpa [isCtlLdx] using named
    obtain ⟨eq, others, frame⟩ := issueCtl_setsCore cls (by omega) (issueCtl_of_ldx (s := s) (p := p) sub)
    rw [eq]
    exact ⟨others, frame, rfl, setReg_lcs _ _ _, setReg_xs _ _ _⟩

/-! ### Rows that do not issue (O17) -/

theorem issueLogical_of_issueAt {s : State} {l : Nat} {pick : Bits256 → Bool}
    (idle : ∀ p, physOf s l = some p → issueAt p false pick s = s) : issueLogical l pick s = s := by
  unfold issueLogical
  split
  · rfl
  · next p linked => exact idle p linked

/-- The op at PC of a core that issues, where the row names it, or nothing. -/
theorem issueAt_of_unnamed {s : State} {p : Nat} {pick : Bits256 → Bool}
    (unnamed : ∀ w bad, canIssue (getCore s p) false = true → opAt (getCore s p) (getCore s p).pc = some (w, bad) → pick w = false) :
    issueAt p false pick s = s := by
  unfold issueAt
  dsimp only
  split
  · rfl
  next open_ =>
  split
  · rfl
  next w bad stands =>
  rw [unnamed w bad (by simpa using open_) stands]
  rfl

theorem issueAt_of_stalled {s : State} {p : Nat} {w : Bits256} {pick : Bits256 → Bool} (open_ : canIssue (getCore s p) false = true)
    (stands : opAt (getCore s p) (getCore s p).pc = some (w, false)) (named : pick w = true) (valid : opChecks s p (getCore s p) w = none)
    (busy : unitTakes s p (getCore s p) w = false) : issueAt p false pick s = noteStall p s := by
  simp [issueAt, open_, stands, named, valid, busy]

/-- The count of an op that its unit has not taken begins at its first try (R202). -/
theorem noteStall_core (p : Nat) (s : State) : ∃ since, getCore (noteStall p s) p = { getCore s p with stall := some ((getCore s p).pc, since) } ∧
    (since = islTicks s (islOfCore p) ∨ (getCore s p).stall = some ((getCore s p).pc, since)) := by
  rw [noteStall, getCore_updCore]
  split
  case h_1 at_ since before =>
    by_cases same : at_ = (getCore s p).pc
    · refine ⟨since, ?_, .inr (same ▸ before)⟩
      rw [if_pos same, ← same, ← before]
    · exact ⟨_, if_neg same, .inl rfl⟩
  case h_2 => exact ⟨_, rfl, .inl rfl⟩

theorem exec_of_tileRow {core : Fin 160} {e : Instr × (Bits256 → Bool)} (row : e ∈ TileRows core) (s : State) :
    exec e.1 s = .next (issueLogical core.val e.2 s) := by
  simp only [TileRows, List.mem_cons, List.not_mem_nil, or_false] at row
  rcases row with rfl | rfl | rfl | rfl | rfl | rfl | rfl | rfl | rfl | rfl | rfl | rfl | rfl | rfl | rfl | rfl | rfl | rfl | rfl | rfl | rfl | rfl | rfl <;>
    rfl

/-- Settles O17: a row issues the op at PC where it names it, and one whose unit is busy begins its count. -/
theorem tileRowsIssueOnlyTheirOwnOps : Obligations.TileRowsIssueOnlyTheirOwnOps := by
  intro core s e row
  rw [exec_of_tileRow row]
  refine ⟨fun unnamed => ?_, fun p w linked open_ stands valid busy named => ?_⟩
  · exact congrArg _ (issueLogical_of_issueAt (fun p linked => issueAt_of_unnamed (fun w bad => unnamed p w bad linked)))
  · obtain ⟨since, eq, began⟩ := noteStall_core p s
    refine ⟨noteStall p s, since, ?_, eq, began, updCore_otherCores s p _, noteStall_reach p s⟩
    rw [issueLogical, linked]
    exact congrArg _ (issueAt_of_stalled open_ stands named valid busy)

end Sys2Proof.Machine
end

section
/-! SUPPORT. Semaphores, their grants, and the early end of an invocation (R205, R211, R212, R363): which fields of the cores and of the invocations
they leave, and the statements O13 and O16. -/

namespace Sys2Proof.Machine

/-! ### Fields that a change leaves in every core and in every invocation -/

/-- What `f` reads of each core is in `t` what it was in `s`. -/
def CoresKeep {β : Type} (f : Core → β) (s t : State) : Prop := ∀ p, f (getCore t p) = f (getCore s p)

/-- What `f` reads of each invocation is in `t` what it was in `s`, and no invocation has come or gone. -/
def InvsKeep {β : Type} (f : Invocation → β) (s t : State) : Prop := ∀ i, (getInv t i).map f = (getInv s i).map f

section
variable {β : Type} {f : Core → β} {g : Invocation → β} {s t u : State}

theorem CoresKeep.refl (f : Core → β) (s : State) : CoresKeep f s s := fun _ => rfl
theorem InvsKeep.refl (g : Invocation → β) (s : State) : InvsKeep g s s := fun _ => rfl
theorem CoresKeep.trans (h : CoresKeep f s t) (h' : CoresKeep f t u) : CoresKeep f s u := fun p => (h' p).trans (h p)
theorem InvsKeep.trans (h : InvsKeep g s t) (h' : InvsKeep g t u) : InvsKeep g s u := fun i => (h' i).trans (h i)

theorem SameExcept.coresKeep {ps : List Part} (h : SameExcept ps s t) (kept : ps.contains .cores = false) : CoresKeep f s t :=
  fun p => congrArg f (h.getCore_eq kept p)
theorem SameExcept.invsKeep {ps : List Part} (h : SameExcept ps s t) (kept : ps.contains .qs = false) : InvsKeep g s t :=
  fun i => congrArg (Option.map g) (h.getInv_eq kept i)

theorem CoresKeep.setCore {p : Nat} {c : Core} (same : f c = f (getCore s p)) : CoresKeep f s (setCore s p c) := by
  intro q
  by_cases here : q = p
  · rw [here, getCore_setCore, same]
  · rw [getCore_setCore_ne s c here]

theorem CoresKeep.updCore {p : Nat} {m : Core → Core} (same : ∀ c, f (m c) = f c) : CoresKeep f s (updCore s p m) := CoresKeep.setCore (same _)

theorem CoresKeep.forEach {α : Type} {m : α → State → State} (each : ∀ a t, CoresKeep f t (m a t)) :
    ∀ (l : List α) (t : State), CoresKeep f t (forEach l m t)
  | [], t => .refl f t
  | a :: l, t => (each a t).trans (CoresKeep.forEach each l (m a t))

theorem InvsKeep.forEach {α : Type} {m : α → State → State} (each : ∀ a t, InvsKeep g t (m a t)) :
    ∀ (l : List α) (t : State), InvsKeep g t (forEach l m t)
  | [], t => .refl g t
  | a :: l, t => (each a t).trans (InvsKeep.forEach each l (m a t))

theorem InvsKeep.setInv {i : Nat} {x y : Invocation} (stands : getInv s i = some x) (same : g y = g x) : InvsKeep g s (setInv s i y) := by
  intro j
  by_cases here : j = i
  · rw [here, getInv_setInv, stands, Option.map_some, Option.map_some, same]
  · rw [getInv_setInv_ne s y here]

theorem InvsKeep.updInv {i : Nat} {m : Invocation → Invocation} (same : ∀ x, g (m x) = g x) : InvsKeep g s (updInv s i m) := by
  unfold Machine.updInv
  split
  · exact .refl g s
  · next x stands => exact .setInv stands (same x)

theorem InvsKeep.stands {i : Nat} {x : Invocation} (h : InvsKeep g s t) (stands : getInv s i = some x) : ∃ y, getInv t i = some y ∧ g y = g x := by
  have eq := h i
  rw [stands, Option.map_some, Option.map_eq_some_iff] at eq
  exact eq

theorem InvsKeep.refreshBlocked {i : Nat} (blind : ∀ x b, g { x with blockedSince := b } = g x) : InvsKeep g s (refreshBlocked i s) := by
  refine .updInv (fun x => ?_)
  split
  · exact blind x _
  · exact blind x none

end

/-! ### Grants (R211) -/

section
variable {β : Type} {f : Core → β} {g : Invocation → β}

theorem grantTo_coresKeep (blind : ∀ c w n, f { c with wait := w, pc := n } = f c) (w : Waiter) (s : State) : CoresKeep f s (grantTo w s) := by
  cases w with
  | core p n =>
    have passed : CoresKeep f s (updIsl (setCore s p { getCore s p with wait := none, pc := ((getCore s p).pc + 32) % 2 ^ 48 }) (islOfCore p)
        (fun i => { i with power := 2, gatedSince := none })) :=
      (CoresKeep.setCore (blind _ _ _)).trans ((updIsl_reach _ _ _).coresKeep rfl)
    rw [grantTo]
    split
    · exact passed.trans ((refreshBlocked_reach _ _).coresKeep rfl)
    · exact passed
  | stream => exact .refl f s
  | grinder => exact .refl f s

theorem grantTo_invsKeep (blind : ∀ x b, g { x with blockedSince := b } = g x) (w : Waiter) (s : State) : InvsKeep g s (grantTo w s) := by
  cases w with
  | core p n =>
    rw [grantTo]
    split
    · exact .refreshBlocked blind
    · exact .refl g s
  | stream => exact .refl g s
  | grinder => exact .refl g s

theorem semSettle_coresKeep (blind : ∀ c w n, f { c with wait := w, pc := n } = f c) (i v : Nat) (l : List Waiter) (s : State) :
    CoresKeep f s (semSettle i v l s) :=
  ((setSem_reach s i _).coresKeep rfl).trans (.forEach (grantTo_coresKeep blind) _ _)

theorem semSettle_invsKeep (blind : ∀ x b, g { x with blockedSince := b } = g x) (i v : Nat) (l : List Waiter) (s : State) :
    InvsKeep g s (semSettle i v l s) :=
  ((setSem_reach s i _).invsKeep rfl).trans (.forEach (grantTo_invsKeep blind) _ _)

end

/-- A grant reaches the core that waited alone. -/
theorem grantTo_getCore_ne {w : Waiter} {p : Nat} (other : ∀ n, w ≠ .core p n) (s : State) : getCore (grantTo w s) p = getCore s p := by
  cases w with
  | core q n =>
    have ne : p ≠ q := fun same => other n (same ▸ rfl)
    rw [grantTo]
    split
    · rw [(refreshBlocked_reach _ _).getCore_eq rfl, (updIsl_reach _ _ _).getCore_eq rfl, getCore_setCore_ne _ _ ne]
    · rw [(updIsl_reach _ _ _).getCore_eq rfl, getCore_setCore_ne _ _ ne]
  | stream => rfl
  | grinder => rfl

theorem grantAll_getCore_ne {p : Nat} : ∀ {l : List Waiter}, (∀ n, Waiter.core p n ∉ l) → ∀ s, getCore (forEach l grantTo s) p = getCore s p
  | [], _, _ => rfl
  | w :: l, other, s => by
    rw [forEach, grantAll_getCore_ne (fun n listed => other n (List.mem_cons_of_mem _ listed)),
      grantTo_getCore_ne (fun n same => other n (same ▸ List.mem_cons_self))]

/-- The grants go to the oldest, as far as the value reaches: to none that the next in line would have to wait for. -/
theorem grantGo_spec : ∀ (l : List Waiter) (v : Nat), ∃ granted rest, l = granted ++ rest ∧
    grantGo l v = (granted, rest, v - (granted.map waiterCount).sum) ∧ (granted.map waiterCount).sum ≤ v ∧
    ∀ w, rest.head? = some w → v < (granted.map waiterCount).sum + waiterCount w
  | [], v => ⟨[], [], rfl, rfl, Nat.zero_le v, fun _ none => by cases none⟩
  | w :: l, v => by
    by_cases enough : waiterCount w ≤ v
    · obtain ⟨granted, rest, split, go, sum, blocked⟩ := grantGo_spec l (v - waiterCount w)
      refine ⟨w :: granted, rest, congrArg (w :: ·) split, ?_, ?_, fun x head => ?_⟩
      · simp only [grantGo, if_pos enough, go, List.map_cons, List.sum_cons, Nat.sub_add_eq]
      · rw [List.map_cons, List.sum_cons]
        omega
      · have := blocked x head
        rw [List.map_cons, List.sum_cons]
        omega
    · refine ⟨[], w :: l, rfl, ?_, Nat.zero_le v, fun x head => ?_⟩
      · simp only [grantGo, if_neg enough, List.map_nil, List.sum_nil, Nat.sub_zero]
      · obtain rfl := Option.some.inj head
        rw [List.map_nil, List.sum_nil]
        omega

theorem grantGo_sublist (l : List Waiter) (v : Nat) {w : Waiter} (granted : w ∈ (grantGo l v).1) : w ∈ l := by
  obtain ⟨g, r, split, go, _⟩ := grantGo_spec l v
  rw [go] at granted
  exact split ▸ List.mem_append_left r granted

theorem grantAll_reach (l : List Waiter) (s : State) : SameExcept [.isl, .qs, .cores, .links, .grinders] s (forEach l grantTo s) :=
  .forEach (fun _ _ => grantTo_reach _ _) l (.refl _ s)

theorem getSem_semSettle (i v : Nat) (l : List Waiter) (s : State) :
    getSem (semSettle i v l s) i = { value := (grantGo l v).2.2, waiters := (grantGo l v).2.1 } :=
  ((grantAll_reach _ _).getSem_eq rfl i).trans (getSem_setSem _ _ _)

theorem getSem_semSettle_ne {i j : Nat} (ne : j ≠ i) (v : Nat) (l : List Waiter) (s : State) : getSem (semSettle i v l s) j = getSem s j :=
  ((grantAll_reach _ _).getSem_eq rfl j).trans (getSem_setSem_ne _ _ ne)

theorem semSettle_log (i v : Nat) (l : List Waiter) (s : State) : (semSettle i v l s).log = s.log := (semSettle_reach i v l s).log_eq rfl

theorem semSettle_getCore_ne {p : Nat} {l : List Waiter} (other : ∀ n, Waiter.core p n ∉ l) (i v : Nat) (s : State) :
    getCore (semSettle i v l s) p = getCore s p :=
  (grantAll_getCore_ne (fun n granted => other n (grantGo_sublist l v granted)) _).trans (getCore_setSem _ _ _ _)

/-- Settles O13: what a settled semaphore holds, and that a post logs only its overflow. -/
theorem postsAndSetsGrantTheOldestWaiters : Obligations.PostsAndSetsGrantTheOldestWaiters := by
  intro i n s
  refine ⟨?_, ?_, ?_, fun j ne => ⟨?_, getSem_semSettle_ne ne _ _ s⟩⟩
  · obtain ⟨granted, rest, split, go, sum, blocked⟩ := grantGo_spec (getSem s i).waiters (min semMax ((getSem s i).value + n))
    refine ⟨granted, rest, split, ?_, sum, blocked⟩
    rw [semPost, getSem_semSettle, go]
  · obtain ⟨granted, rest, split, go, sum, blocked⟩ := grantGo_spec (getSem s i).waiters n
    refine ⟨granted, rest, split, ?_, sum, blocked⟩
    rw [semSet, getSem_semSettle, go]
  · rw [semPost, semSettle_log]
    constructor
    · intro overflows
      rw [if_pos overflows]
      exact logEvent_log_ne _ _ _ s
    · intro logged
      by_contra within
      exact logged (by rw [if_neg within])
  · rw [semPost, getSem_semSettle_ne ne]
    split
    · exact getSem_logEvent _ _ _ _ _
    · rfl

/-! ### The early end of an invocation (O16) -/

section
variable {β : Type} {f : Core → β} {g : Invocation → β}

theorem semLeave_coresKeep (blind : ∀ c w n, f { c with wait := w, pc := n } = f c) (i : Nat) (w : Waiter) (s : State) :
    CoresKeep f s (semLeave i w s) := semSettle_coresKeep blind _ _ _ s

theorem semLeave_invsKeep (blind : ∀ x b, g { x with blockedSince := b } = g x) (i : Nat) (w : Waiter) (s : State) :
    InvsKeep g s (semLeave i w s) := semSettle_invsKeep blind _ _ _ s

theorem keepIssued_blind (blind : ∀ c m k, f { c with issueMode := m, chain := k } = f c) (c : Core) : f (keepIssued c) = f c := by
  unfold keepIssued
  split
  · exact blind _ _ _
  · exact blind _ _ _

theorem stopCore_coresKeep (grants : ∀ c w n, f { c with wait := w, pc := n } = f c) (issued : ∀ c m k, f { c with issueMode := m, chain := k } = f c)
    (stops : ∀ c w e, f { c with phase := .faulted, wait := none, window := w, withdrawn := [], endedAt := some e, stall := none } = f c)
    (p : Nat) (s : State) : CoresKeep f s (stopCore p s) := by
  rw [stopCore]
  refine CoresKeep.trans (CoresKeep.trans ?_ (CoresKeep.updCore (fun c => (keepIssued_blind issued _).trans (stops c _ _)))) ((dropGone_reach _ _).coresKeep rfl)
  split
  · exact semLeave_coresKeep grants _ _ s
  · exact .refl f s

theorem stopCore_invsKeep (blind : ∀ x b, g { x with blockedSince := b } = g x) (p : Nat) (s : State) : InvsKeep g s (stopCore p s) := by
  rw [stopCore]
  refine InvsKeep.trans ?_ (((updCore_reach _ _ _).invsKeep rfl).trans ((dropGone_reach _ _).invsKeep rfl))
  split
  · exact semLeave_invsKeep blind _ _ s
  · exact .refl g s

end

/-- The first early end of a resident invocation of which no access was refused: it is recorded, and no core's `SEQ_FAULT` changes. -/
theorem endEarly_of_resident {s : State} {i : Nat} {x : Invocation} (st : Status) (code : Nat) (stands : getInv s i = some x) (first : x.early = none)
    (granted : x.refused = false) (resident : x.state = .resident) :
    (∃ y, getInv (endEarly i st code s) i = some y ∧ y.early = some (st, code)) ∧ CoresKeep Core.fault s (endEarly i st code s) := by
  have eq : endEarly i st code s = forEach ((invPhys (setInv s i { x with early := some (st, code), blockedSince := none }) x).filter
      (fun p => (getCore (setInv s i { x with early := some (st, code), blockedSince := none }) p).inv == some i)) stopCore
      (setInv s i { x with early := some (st, code), blockedSince := none }) := by
    simp [endEarly, stands, first, granted, resident]
  rw [eq]
  constructor
  · exact (InvsKeep.forEach (stopCore_invsKeep (g := Invocation.early) (fun _ _ => rfl)) _ _).stands (getInv_setInv _ _ _)
  · exact ((setInv_reach _ _ _).coresKeep rfl).trans
      (.forEach (stopCore_coresKeep (fun _ _ _ => rfl) (fun _ _ _ => rfl) (fun _ _ _ => rfl)) _ _)

theorem recordFault_core (p code cls addr : Nat) (s : State) :
    getCore (recordFault p code cls addr s) p = if (getCore s p).fault.valid then getCore s p else
      { getCore s p with fault := { code := code, cls := cls, valid := true, addr := addr } } := getCore_updCore _ _ _

theorem recordFault_inv (p code cls addr : Nat) (s : State) : (getCore (recordFault p code cls addr s) p).inv = (getCore s p).inv := by
  rw [recordFault_core]
  split <;> rfl

/-- A fault of the core of a resident invocation: it is recorded where none is, and the invocation ends ABORTED with its code (R205). -/
theorem tileFault_of_resident {s : State} {p i : Nat} {x : Invocation} (code cls addr : Nat) (holds : (getCore s p).inv = some i)
    (stands : getInv s i = some x) (first : x.early = none) (granted : x.refused = false) (resident : x.state = .resident) :
    (getCore (tileFault p code cls addr s) p).fault = (if (getCore s p).fault.valid then (getCore s p).fault else
      { code := code, cls := cls, valid := true, addr := addr }) ∧
    ∃ y, getInv (tileFault p code cls addr s) i = some y ∧ y.early = some (.aborted, code) := by
  have eq : tileFault p code cls addr s = endEarly i .aborted code (logEvent .tileFault (islOfCore p) (leBytes 1 code ++ leBytes 8 addr ++ leBytes 8 i)
      (recordFault p code cls addr s)) := by
    rw [tileFault, recordFault_inv, holds]
  obtain ⟨ended, faults⟩ := endEarly_of_resident (s := logEvent .tileFault (islOfCore p) (leBytes 1 code ++ leBytes 8 addr ++ leBytes 8 i)
    (recordFault p code cls addr s)) .aborted code stands first granted resident
  rw [eq]
  refine ⟨?_, ended⟩
  rw [faults p, (logEvent_reach _ _ _ _).getCore_eq rfl, recordFault_core]
  split <;> rfl

theorem issueAt_of_faulty {s : State} {p code : Nat} {w : Bits256} {bad : Bool} {pick : Bits256 → Bool} (open_ : canIssue (getCore s p) false = true)
    (stands : opAt (getCore s p) (getCore s p).pc = some (w, bad)) (named : pick w = true)
    (lowest : code = if bad then 0x11 else (opChecks s p (getCore s p) w).getD 0) (faulty : bad = true ∨ (opChecks s p (getCore s p) w).isSome = true) :
    issueAt p false pick s = tileFault p code (opClass w) (getCore s p).pc s := by
  cases bad with
  | true => simp [issueAt, open_, stands, named, lowest]
  | false =>
    obtain ⟨k, breaks⟩ := Option.isSome_iff_exists.1 (faulty.resolve_left (by simp))
    simp [issueAt, open_, stands, named, lowest, breaks]

/-- Settles O16: the row of a faulty op is its core's fault. -/
theorem invalidOpsFaultAtIssue : Obligations.InvalidOpsFaultAtIssue := by
  intro core s p w bad code x i linked open_ stands lowest faulty holds inv first granted resident e row named
  obtain ⟨fault, ended⟩ := tileFault_of_resident code (opClass w) (getCore s p).pc holds inv first granted resident
  refine ⟨tileFault p code (opClass w) (getCore s p).pc s, ?_, fun none => ?_, fun one => ?_, ended, tileFault_reach _ _ _ _ s⟩
  · rw [exec_of_tileRow row, issueLogical, linked]
    exact congrArg _ (issueAt_of_faulty open_ stands named lowest faulty)
  · rw [fault, none]
    rfl
  · rw [fault, if_pos one]

end Sys2Proof.Machine
end

section
/-! SUPPORT. The CTL ops ARM, CHEAP, LIVE, ACC_READ and BREAK at issue (R50, R144, R200, R206, R219), and the statement O15. -/

namespace Sys2Proof.Machine

/-! ### ARM -/

/-- A stream that an ARM op starts. -/
def armedStream (s : State) (p : Nat) (w : Bits256) : Stream :=
  { base := farRef (getCore s p) (opField w 8 8), length := opField w 0x10 8, issued := 0,
    context := invContext s ((getCore s p).inv.getD 0), inv := (getCore s p).inv.getD 0, cls := invClass s ((getCore s p).inv.getD 0) }

theorem issueCtl_of_arm {s : State} {p : Nat} {w : Bits256} (sub : opSub w = 4) (some_ : opField w 0x10 8 ≠ 0) :
    issueCtl p w s = setLink (passOp p s) (armLink s p w) (if (getLink s (armLink s p w)).active.isNone
      then { getLink s (armLink s p w) with active := some (armedStream s p w) }
      else { getLink s (armLink s p w) with pending := some (armedStream s p w) }) := by
  rw [issueCtl, sub]
  simp only [if_neg some_, armStream, getLink_setCore]
  rfl

theorem issueCtl_of_cancel {s : State} {p : Nat} {w : Bits256} (sub : opSub w = 4) (none_ : opField w 0x10 8 = 0) :
    issueCtl p w s = setLink (dropChunkTake (armLink s p w) (passOp p s)) (armLink s p w)
      { getLink (dropChunkTake (armLink s p w) (passOp p s)) (armLink s p w) with pending := none, active := none, waiting := false, granted := false } := by
  rw [issueCtl, sub]
  simp only [if_pos none_, armStream]
  rfl

/-- What `f` reads of each link is in `t` what it was in `s`. -/
def LinksKeep {β : Type} (f : LinkRun → β) (s t : State) : Prop := ∀ l, f (getLink t l) = f (getLink s l)

section
variable {β : Type} {f : LinkRun → β} {s t u : State}

theorem LinksKeep.refl (f : LinkRun → β) (s : State) : LinksKeep f s s := fun _ => rfl

theorem LinksKeep.trans (h : LinksKeep f s t) (h' : LinksKeep f t u) : LinksKeep f s u := fun l => (h' l).trans (h l)

theorem SameExcept.linksKeep {ps : List Part} (h : SameExcept ps s t) (kept : ps.contains .links = false) : LinksKeep f s t :=
  fun l => congrArg f (h.getLink_eq kept l)

theorem LinksKeep.setLink {l : Nat} {x : LinkRun} (same : f x = f (getLink s l)) : LinksKeep f s (setLink s l x) := by
  intro k
  by_cases here : k = l
  · rw [here, getLink_setLink, same]
  · rw [getLink_setLink_ne s x here]

theorem LinksKeep.forEach {α : Type} {m : α → State → State} (each : ∀ a t, LinksKeep f t (m a t)) :
    ∀ (l : List α) (t : State), LinksKeep f t (forEach l m t)
  | [], t => .refl f t
  | a :: l, t => (each a t).trans (LinksKeep.forEach each l (m a t))

theorem grantTo_linksKeep (blind : ∀ r w g, f { r with waiting := w, granted := g } = f r) (w : Waiter) (s : State) :
    LinksKeep f s (grantTo w s) := by
  cases w with
  | core p n =>
    rw [grantTo]
    split
    · exact (refreshBlocked_reach _ _).linksKeep rfl
    · exact .refl f s
  | stream die k n => exact .setLink (l := die * 4096 + k) (blind _ _ _)
  | grinder => exact .refl f s

theorem semSettle_linksKeep (blind : ∀ r w g, f { r with waiting := w, granted := g } = f r) (i v : Nat) (l : List Waiter) (s : State) :
    LinksKeep f s (semSettle i v l s) :=
  ((setSem_reach s i _).linksKeep rfl).trans (.forEach (grantTo_linksKeep blind) _ _)

theorem dropChunkTake_linksKeep (blind : ∀ r w g, f { r with waiting := w, granted := g } = f r) (k : Nat) (s : State) :
    LinksKeep f s (dropChunkTake k s) := by
  rw [dropChunkTake]
  split
  · exact .refl f s
  · exact semSettle_linksKeep blind _ _ _ s

end

theorem dropChunkTake_chunks (k : Nat) (s : State) (l : Nat) : (getLink (dropChunkTake k s) l).chunks = (getLink s l).chunks :=
  dropChunkTake_linksKeep (fun _ _ _ => rfl) k s l

/-- The take of a link that leaves its semaphore grants no core that does not wait. -/
theorem dropChunkTake_getCore {p : Nat} {s : State} (free : ∀ i n, Waiter.core p n ∉ (getSem s i).waiters) (k : Nat) :
    getCore (dropChunkTake k s) p = getCore s p := by
  rw [dropChunkTake]
  split
  · rfl
  · exact semSettle_getCore_ne (fun n listed => free _ n (List.mem_filter.1 listed).1) _ _ s

/-! ### CHEAP, LIVE and BREAK -/

theorem issueCtl_of_cheap {s : State} {p : Nat} {w : Bits256} (sub : opSub w = 5) :
    issueCtl p w s = setCore s p { getCore s p with
      live := (List.range (rangeCount w)).map (fun i => liveRange (rangeAt w i)), liveMore := if bitOf (opFlags w) 0 then some 0 else none,
      pc := nextPc (getCore s p) } := by
  rw [issueCtl, sub]
  simp only [declared, sub, if_true, List.nil_append]

theorem issueCtl_of_live {s : State} {p : Nat} {w : Bits256} (sub : opSub w = 6) :
    issueCtl p w s = setCore s p { getCore s p with
      live := (getCore s p).live ++ (List.range (rangeCount w)).map (fun i => liveRange (rangeAt w i)),
      liveMore := if bitOf (opFlags w) 0 then some ((getCore s p).liveMore.getD 0 + 1) else none, pc := nextPc (getCore s p) } := by
  rw [issueCtl, sub]
  simp only [declared, sub, if_neg (show ¬ 6 = 5 by decide)]

theorem issueCtl_of_break {s : State} {p : Nat} {w : Bits256} (sub : opSub w = 7) (act : opField w 4 1 = 1) :
    issueCtl p w s = setCore s p { getCore s p with halt := true, pc := nextPc (getCore s p) } := by
  rw [issueCtl, sub]
  exact if_neg (by omega)

/-- A declaration leaves its core as it writes it. -/
theorem issueOp_of_declared {s : State} {p : Nat} {w : Bits256} {c : Core} (cls : opClass w = 5) (sub : opSub w = 5 ∨ opSub w = 6)
    (sets : issueCtl p w s = setCore s p c) :
    getCore (issueOp p w s) p = c ∧ OtherCores p s (issueOp p w s) ∧ SameExcept [.cores, .seg] s (issueOp p w s) := by
  have left := issueOp_of_declaring (p := p) s cls sub
  rw [issueClass_of_ctl p s cls, sets] at left
  exact ⟨(left.getCore_eq rfl p).trans (getCore_setCore _ _ _), (setCore_otherCores s p c).trans (left.otherCores rfl p),
    left.step rfl ((setCore_reach _ _ _).weaken rfl)⟩

/-! ### ACC_READ (R144) -/

theorem issueCtl_of_accRead {s : State} {p : Nat} {w : Bits256} (sub : opSub w = 7) (act : opField w 4 1 = 0) :
    issueCtl p w s = memWrite (passOp p s) (scratchKey p (nearRef (getCore s p) (opField w 8 4)))
      (clean (accImage (tabGet arrAccReset (getCore s p).acc (opField w 5 1 % 4)))) := by
  rw [issueCtl, sub]
  exact if_pos act

theorem length_flatten_of_length {α : Type} {k : Nat} : ∀ {ls : List (List α)}, (∀ l ∈ ls, l.length = k) → ls.flatten.length = k * ls.length
  | [], _ => rfl
  | l :: ls, len => by
    rw [List.flatten_cons, List.length_append, len l List.mem_cons_self, length_flatten_of_length (fun m hm => len m (List.mem_cons_of_mem _ hm)),
      List.length_cons, Nat.mul_succ, Nat.add_comm]

/-- The values of an array's accumulation, 8 bytes a cell. -/
def accValues (k : ArrAcc) : List (List Byte) := (List.range 4096).map (fun n => leBytes 8 (ofSigned 64 (tabGet 0 k.vals n)))

theorem accValues_length (k : ArrAcc) : (accValues k).length = 4096 := by rw [accValues, List.length_map, List.length_range]

theorem accValues_getD (k : ArrAcc) {n : Nat} (hn : n < 4096) : (accValues k).getD n [] = leBytes 8 (ofSigned 64 (tabGet 0 k.vals n)) := by
  rw [accValues, List.getD_eq_getElem?_getD, List.getElem?_map, List.getElem?_range hn, Option.map_some, Option.getD_some]

theorem accValues_cells (k : ArrAcc) : ∀ l ∈ accValues k, l.length = 8 := by
  intro l listed
  obtain ⟨n, _, rfl⟩ := List.mem_map.1 listed
  exact leBytes_length _ _

theorem accValues_flatten_length (k : ArrAcc) : (accValues k).flatten.length = 32768 := by
  rw [length_flatten_of_length (accValues_cells k), accValues_length]

/-- An image is the values, and the masks and the scale after them. -/
theorem accImage_eq (k : ArrAcc) : ∃ rest : List Byte, accImage k = (accValues k).flatten ++ rest ∧ rest.length = 1600 := by
  refine ⟨_, (List.append_assoc _ _ _).trans ((List.append_assoc _ _ _).trans rfl), ?_⟩
  simp only [List.length_append, List.length_map, List.length_range]
  split
  · rfl
  · simp [leBytes_length, zeros]

theorem accImage_length (k : ArrAcc) : (accImage k).length = 34368 := by
  obtain ⟨rest, eq, len⟩ := accImage_eq k
  rw [eq, List.length_append, accValues_flatten_length, len]

/-- The bytes of a cell in an image. -/
theorem accImage_cell (k : ArrAcc) {n j : Nat} (hn : n < 4096) (hj : j < 8) :
    (accImage k).getD (8 * n + j) 0 = (leBytes 8 (ofSigned 64 (tabGet 0 k.vals n))).getD j 0 := by
  obtain ⟨rest, eq, _⟩ := accImage_eq k
  rw [eq, List.getD_append _ _ _ _ (by rw [accValues_flatten_length]; omega), getD_flatten_of_length 0 hj n (accValues_cells k) (by rwa [accValues_length]),
    accValues_getD k hn]

theorem ofSigned_lt (n : Nat) (v : Int) : ofSigned n v < 2 ^ n := by
  have positive : (0 : Int) < (2 ^ n : Nat) := by exact_mod_cast Nat.two_pow_pos n
  have low := Int.emod_nonneg v positive.ne'
  have high := Int.emod_lt_of_pos v positive
  rw [ofSigned]
  omega

/-- After an ACC_READ, 8 bytes at a cell's place spell its value. -/
theorem leNat_memWrite_accImage (s : State) (a : Nat) (k : ArrAcc) {n : Nat} (hn : n < 4096) :
    leNat (memBytes (memWrite s a (clean (accImage k))) (a + 8 * n) 8) = ofSigned 64 (tabGet 0 k.vals n) := by
  have cell : memBytes (memWrite s a (clean (accImage k))) (a + 8 * n) 8 = leBytes 8 (ofSigned 64 (tabGet 0 k.vals n)) := by
    refine memBytes_eq (leBytes_length _ _) (fun j hj => ?_)
    rw [Nat.add_assoc, memByte_memWrite_add (by rw [clean_length, accImage_length]; omega), clean_getD, accImage_cell k hn hj]
  rw [cell]
  exact leNat_leBytes_of_lt (ofSigned_lt 64 _)

/-! ### The statement O15 -/

/-- Settles O15: the effect of each op, and what issue leaves after it. -/
theorem ctlOpsArmDeclareAndDebug : Obligations.CtlOpsArmDeclareAndDebug := by
  intro core s p w ready
  have after (cls : opClass w = 5) (plain : ¬ (opSub w = 5 ∨ opSub w = 6)) : AfterIssue p (issueCtl p w s) (issueOp p w s) :=
    issueClass_of_ctl p s cls ▸ issueOp_after s (fun declares => plain declares.2)
  have passed : getCore (passOp p s) p = { getCore s p with pc := nextPc (getCore s p) } := getCore_updCore _ _ _
  have reach : SameExcept [.cores] s (passOp p s) := updCore_reach _ _ _
  have others : OtherCores p s (passOp p s) := updCore_otherCores s p _
  refine ⟨fun named some_ => ?arm, fun named none_ => ?cancel, fun named => ⟨_, ready.issues named, ?cheap⟩, fun named => ⟨_, ready.issues named, ?live⟩,
    fun named => ⟨_, ready.issues named, ?brk⟩, fun named => ⟨_, ready.issues named, ?read⟩⟩
  case arm =>
    obtain ⟨cls, sub⟩ : opClass w = 5 ∧ opSub w = 4 := by simpa [isCtlArm] using named
    have issued := after cls (by omega)
    rw [issueCtl_of_arm sub some_] at issued
    refine ⟨_, armedStream s p w, ready.issues named, ?_, rfl, rfl, rfl, rfl, ?_, fun k ne => ?_, issued.otherCores others,
      issued.frame ((setLink_reach _ _ _).step rfl (reach.weaken rfl)) rfl⟩
    · rw [issued.1, getCore_setLink, passed]
    · rw [issued.2.2.getLink_eq rfl, getLink_setLink]
    · rw [issued.2.2.getLink_eq rfl, getLink_setLink_ne _ _ ne, reach.getLink_eq rfl]
  case cancel =>
    obtain ⟨cls, sub⟩ : opClass w = 5 ∧ opSub w = 4 := by simpa [isCtlArm] using named
    have issued := after cls (by omega)
    rw [issueCtl_of_cancel sub none_] at issued
    have link := issued.2.2.getLink_eq rfl (armLink s p w)
    rw [getLink_setLink] at link
    refine ⟨_, ready.issues named, fun free => ?_, ?_, ?_, ?_⟩
    · rw [issued.1, getCore_setLink, dropChunkTake_getCore (fun i n => reach.getSem_eq rfl i ▸ free i n), passed]
    · rw [link]
    · rw [link]
    · rw [link]
      exact (dropChunkTake_chunks _ _ _).trans (congrArg LinkRun.chunks (reach.getLink_eq rfl _))
  case cheap =>
    obtain ⟨cls, sub⟩ : opClass w = 5 ∧ opSub w = 5 := by simpa [isCtlCheap] using named
    exact issueOp_of_declared cls (.inl sub) (issueCtl_of_cheap sub)
  case live =>
    obtain ⟨cls, sub⟩ : opClass w = 5 ∧ opSub w = 6 := by simpa [isCtlLive] using named
    exact issueOp_of_declared cls (.inr sub) (issueCtl_of_live sub)
  case brk =>
    obtain ⟨⟨cls, sub⟩, act⟩ : (opClass w = 5 ∧ opSub w = 7) ∧ opField w 4 1 = 1 := by simpa [isCtlDebugBreak] using named
    exact issueCtl_of_break (p := p) sub act ▸ after cls (by omega)
  case read =>
    obtain ⟨⟨cls, sub⟩, notBreak⟩ : (opClass w = 5 ∧ opSub w = 7) ∧ opField w 4 1 ≠ 1 := by simpa [isCtlDebugAccRead] using named
    have known : opField w 4 1 ≤ 1 := by
      obtain ⟨_, _, _, _, _, _, _, debug, _⟩ := ready.ctlValid cls
      exact (debug sub).1
    have issued := after cls (by omega)
    rw [issueCtl_of_accRead sub (by omega)] at issued
    have bytes := issued.2.2.memByte_eq rfl
    have writes := memWrite_reach (passOp p s) (scratchKey p (nearRef (getCore s p) (opField w 8 4)))
      (clean (accImage (tabGet arrAccReset (getCore s p).acc (opField w 5 1 % 4))))
    refine ⟨?_, fun a outside => ?_, fun n hn => ?_, issued.otherCores (others.trans (writes.otherCores rfl p)),
      issued.frame (writes.step rfl (reach.weaken rfl)) rfl⟩
    · rw [issued.1, writes.getCore_eq rfl, passed]
    · rw [bytes, memByte_memWrite_of_outside (by rwa [clean_length, accImage_length]), reach.memByte_eq rfl]
    · rw [← leNat_memWrite_accImage (passOp p s) _ _ hn]
      exact congrArg leNat (memBytes_eq (memBytes_length _ _ _) (fun j hj => (bytes _).trans (memBytes_getD hj).symm))

end Sys2Proof.Machine
end

section
/-! SUPPORT. Transfers on their way (R188, R189, R313-R318, R336): what making a transfer and starting its pieces leaves where every host that a segment
leads to is registered, and the statements O10 and O11. -/

namespace Sys2Proof.Machine

/-! ### What the way of a piece leaves of its transfer -/

/-- What `f` reads of each transfer is in `t` what it was in `s`, and no transfer has come or gone. -/
def XfersKeep {β : Type} (f : Xfer → β) (s t : State) : Prop := ∀ n, (getXfer t n).map f = (getXfer s n).map f

/-- `f` reads no piece of a transfer, but for their number. -/
def PieceBlind {β : Type} (f : Xfer → β) : Prop := ∀ x ps, ps.length = x.pieces.length → f { x with pieces := ps } = f x

section
variable {β : Type} {f : Xfer → β} {s t u : State}

theorem XfersKeep.refl (f : Xfer → β) (s : State) : XfersKeep f s s := fun _ => rfl
theorem XfersKeep.trans (h : XfersKeep f s t) (h' : XfersKeep f t u) : XfersKeep f s u := fun n => (h' n).trans (h n)

theorem SameExcept.xfersKeep {ps : List Part} (h : SameExcept ps s t) (kept : ps.contains .xfers = false) : XfersKeep f s t :=
  fun n => congrArg (Option.map f) (h.getXfer_eq kept n)

theorem XfersKeep.after {n : Nat} {x : Xfer} (h : XfersKeep f s t) (stands : getXfer s n = some x) : ∃ y, getXfer t n = some y ∧ f y = f x := by
  have eq := h n
  rw [stands, Option.map_some, Option.map_eq_some_iff] at eq
  exact eq

theorem XfersKeep.before {n : Nat} {y : Xfer} (h : XfersKeep f s t) (stands : getXfer t n = some y) : ∃ x, getXfer s n = some x ∧ f x = f y := by
  have eq := (h n).symm
  rw [stands, Option.map_some, Option.map_eq_some_iff] at eq
  exact eq

theorem XfersKeep.setXfer {n : Nat} {x y : Xfer} (stands : getXfer s n = some x) (same : f y = f x) : XfersKeep f s (setXfer s n y) := by
  intro k
  by_cases here : k = n
  · rw [here, getXfer_setXfer, stands, Option.map_some, Option.map_some, same]
  · rw [getXfer_setXfer_ne s y here]

theorem setNth_length {α : Type} : ∀ (l : List α) (n : Nat) (a : α), (setNth l n a).length = l.length
  | [], _, _ => rfl
  | _ :: _, 0, _ => rfl
  | _ :: l, n + 1, a => congrArg (· + 1) (setNth_length l n a)

theorem XfersKeep.updPiece (blind : PieceBlind f) (x p : Nat) (m : Piece → Piece) : XfersKeep f s (updPiece s x p m) := by
  unfold Machine.updPiece
  split
  · exact .refl f s
  next v stands =>
  split
  · exact .refl f s
  · exact .setXfer stands (blind v _ (setNth_length _ _ _))

end

/-! ### Hosts that serve (R336) -/

/-- The tables and the engines' caches hold the same entries under the same hosts. -/
theorem HostsServe.of_entries {s t : State} (serves : HostsServe s) (host : t.host = s.host) (entries : t.seg.entries = s.seg.entries)
    (cached : ∀ n, ∀ d ∈ engineCache t n, ∃ c ∈ engineCache s n, c.entry = d.entry) : HostsServe t := by
  have same (a : Nat) : hostServes t a = hostServes s a := by rw [hostServes, hostServes, host]
  constructor
  · intro k va covers
    rw [entries] at covers ⊢
    rw [same]
    exact serves.1 k va covers
  · intro n d listed va covers
    obtain ⟨c, before, entry⟩ := cached n d listed
    rw [same]
    rw [← entry] at covers ⊢
    exact serves.2 n c before va covers

theorem HostsServe.of_frame {ps : List Part} {s t : State} (serves : HostsServe s) (h : SameExcept ps s t) (host : ps.contains .host = false)
    (seg : ps.contains .seg = false) : HostsServe t := by
  have eq := h.seg_eq seg
  exact serves.of_entries (h.host_eq host) (by rw [eq]) (fun n d listed => ⟨d, by rwa [engineCache, eq] at listed, rfl⟩)

theorem raiseFault_tables (e ctx va : Nat) (seg : Option Nat) (r : SegReason) (k : AccessKind) (s : State) :
    (raiseFault e ctx va seg r k s).2.seg.entries = s.seg.entries ∧ (raiseFault e ctx va seg r k s).2.seg.caches = s.seg.caches := by
  unfold raiseFault
  dsimp only
  split
  · exact ⟨rfl, rfl⟩
  · split <;> exact ⟨rfl, rfl⟩

theorem raiseFault_serves {s : State} (serves : HostsServe s) (e ctx va : Nat) (seg : Option Nat) (r : SegReason) (k : AccessKind) :
    HostsServe (raiseFault e ctx va seg r k s).2 := by
  obtain ⟨entries, caches⟩ := raiseFault_tables e ctx va seg r k s
  exact serves.of_entries ((raiseFault_reach e ctx va seg r k s).host_eq rfl) entries (fun n d listed => ⟨d, by rwa [engineCache, caches] at listed, rfl⟩)

/-! ### The DMA goes on (R188, R189) -/

/-- Ops of a core's window have started, or not; nothing else of the core has changed. -/
def MovsStarted (p : Nat) (s t : State) : Prop :=
  ∃ g : IssuedOp → Bool, getCore t p = { getCore s p with window := (getCore s p).window.map (fun o => { o with started := g o }) }

theorem MovsStarted.refl (p : Nat) (s : State) : MovsStarted p s s := ⟨IssuedOp.started, by rw [List.map_id']⟩

theorem MovsStarted.of_eq {p : Nat} {s t : State} (same : getCore t p = getCore s p) : MovsStarted p s t := by
  obtain ⟨g, eq⟩ := MovsStarted.refl p s
  exact ⟨g, same.trans eq⟩

theorem MovsStarted.trans {p : Nat} {s t u : State} (h : MovsStarted p s t) (h' : MovsStarted p t u) : MovsStarted p s u := by
  obtain ⟨g, first⟩ := h
  obtain ⟨g', second⟩ := h'
  refine ⟨fun o => g' { o with started := g o }, ?_⟩
  rw [second, first, List.map_map]
  rfl

/-- What a piece's way leaves of its transfer: whose it is, what it does and how many pieces it has. -/
def xferHead (x : Xfer) : XferOwner × Nat × AccessKind × Option (Option Bits256) × Nat := (x.owner, x.inv, x.kind, x.sealed_, x.pieces.length)

theorem xferHead_blind : PieceBlind xferHead := fun x ps len => by rw [xferHead, xferHead, len]

/-- Pieces have gone on their way for transfers that serve the MOVs of one core, or of none, while every host serves. -/
structure DmaGoes (core : Option Nat) (s t : State) : Prop where
  serves : HostsServe t
  frame : SameExcept [.log, .seg, .xfers, .net, .cores] s t
  others : ∀ q, core ≠ some q → getCore t q = getCore s q
  starts : ∀ p, MovsStarted p s t
  heads : XfersKeep xferHead s t
  next : t.nextXfer = s.nextXfer

/-- A transfer that serves a MOV serves one of the core named. -/
def Serves (core : Option Nat) (s : State) (x : Nat) : Prop := ∀ v, getXfer s x = some v → ∀ q n, v.owner = .mov q n → core = some q

section
variable {core : Option Nat} {s t u : State}

theorem DmaGoes.refl (serves : HostsServe s) : DmaGoes core s s :=
  ⟨serves, .refl _ _, fun _ _ => rfl, fun p => .refl p s, .refl _ _, rfl⟩

theorem DmaGoes.trans (h : DmaGoes core s t) (h' : DmaGoes core t u) : DmaGoes core s u :=
  ⟨h'.serves, h.frame.trans h'.frame, fun q ne => (h'.others q ne).trans (h.others q ne), fun p => (h.starts p).trans (h'.starts p),
    h.heads.trans h'.heads, h'.next.trans h.next⟩

theorem DmaGoes.forEach {α : Type} {m : α → State → State} (each : ∀ a t, DmaGoes core s t → DmaGoes core t (m a t)) :
    ∀ (l : List α) {t : State}, DmaGoes core s t → DmaGoes core s (forEach l m t)
  | [], _, so_far => so_far
  | a :: l, t, so_far => DmaGoes.forEach each l (so_far.trans (each a t so_far))

theorem Serves.later {x : Nat} (h : Serves core s x) (goes : DmaGoes core s t) : Serves core t x := by
  intro v stands q n owner
  obtain ⟨w, before, head⟩ := goes.heads.before stands
  exact h w before q n ((congrArg Prod.fst head).trans owner)

/-- A change that reaches neither the cores nor the segments, and of the transfers their pieces. -/
theorem DmaGoes.of_frame {ps : List Part} (serves : HostsServe s) (h : SameExcept ps s t) (listed : covers [.log, .xfers, .net] ps = true)
    (heads : XfersKeep xferHead s t) (next : t.nextXfer = s.nextXfer) : DmaGoes core s t := by
  have frame := h.weaken listed
  exact ⟨serves.of_frame frame rfl rfl, frame.weaken rfl, fun q _ => frame.getCore_eq rfl q, fun p => .of_eq (frame.getCore_eq rfl p), heads, next⟩

theorem updPiece_nextXfer (s : State) (x p : Nat) (m : Piece → Piece) : (updPiece s x p m).nextXfer = s.nextXfer := by
  unfold updPiece
  split
  · rfl
  · split <;> rfl

theorem updPiece_dma (serves : HostsServe s) (x p : Nat) (m : Piece → Piece) : DmaGoes core s (updPiece s x p m) :=
  .of_frame serves (updPiece_reach s x p m) rfl (.updPiece xferHead_blind x p m) (updPiece_nextXfer s x p m)

theorem raiseFault_dma (serves : HostsServe s) (e ctx va : Nat) (seg : Option Nat) (r : SegReason) (k : AccessKind) :
    DmaGoes core s (raiseFault e ctx va seg r k s).2 := by
  have reach := raiseFault_reach e ctx va seg r k s
  exact ⟨raiseFault_serves serves _ _ _ _ _ _, reach.weaken rfl, fun q _ => reach.getCore_eq rfl q, fun p => .of_eq (reach.getCore_eq rfl p),
    reach.xfersKeep rfl, reach.nextXfer_eq rfl⟩

theorem startMov_dma (serves : HostsServe s) {owner : XferOwner} (named : ∀ q n, owner = .mov q n → core = some q) :
    DmaGoes core s (startMov owner s) := by
  have reach := startMov_reach owner s
  refine ⟨serves.of_frame reach rfl rfl, reach.weaken rfl, fun q ne => ?_, fun p => ?_, reach.xfersKeep rfl, reach.nextXfer_eq rfl⟩
  · unfold startMov
    split
    case h_1 k n =>
      refine getCore_updCore_ne s _ (fun same => ne ?_)
      rw [same]
      exact named _ n rfl
    case h_2 => rfl
  · unfold startMov
    split
    case h_1 k n =>
      by_cases here : p = k
      · refine ⟨fun o => if o.seq = n ∧ opClass o.word = 2 then true else o.started, ?_⟩
        rw [here, getCore_updCore]
        congr 1
        refine List.map_congr_left (fun o _ => ?_)
        dsimp only
        split <;> rfl
      · exact .of_eq (getCore_updCore_ne s _ here)
    case h_2 => exact .refl p s

theorem getXfer_of_getPiece {s : State} {x p : Nat} {v : Xfer} {q : Piece} (stands : getPiece s x p = some (v, q)) : getXfer s x = some v := by
  unfold getPiece at stands
  obtain ⟨w, here, there⟩ := Option.bind_eq_some_iff.1 stands
  obtain ⟨r, _, same⟩ := Option.map_eq_some_iff.1 there
  exact (Prod.mk.inj same).1 ▸ here

theorem sameExcept_net (s : State) (l : List Packet) : SameExcept [.net] s { s with net := l } := by
  intro p hp
  cases p with
  | net => exact absurd List.mem_cons_self hp
  | mem => exact ⟨rfl, fun _ => rfl⟩
  | xfers => exact ⟨rfl, rfl⟩
  | _ => rfl

theorem net_dma (serves : HostsServe s) (l : List Packet) : DmaGoes core s { s with net := l } :=
  .of_frame serves (sameExcept_net s l) rfl (fun _ => rfl) rfl

/-- An engine uses an entry of its cache: the entry's stamp is the newest. -/
def touchEntry (e : Nat) (c : SegCached) (s : State) : State :=
  { s with seg := { s.seg with
      caches := tabSet [] s.seg.caches e ((engineCache s e).map (fun d => if d = c then { d with stamp := s.seg.clock + 1 } else d)),
      clock := s.seg.clock + 1 } }

theorem touchEntry_dma (serves : HostsServe s) (e : Nat) (c : SegCached) : DmaGoes core s (touchEntry e c s) := by
  refine ⟨serves.of_entries rfl rfl ?_, (sameExcept_seg s _).weaken rfl, fun q _ => rfl, fun p => .refl p s, .refl _ _, rfl⟩
  intro n d listed
  rw [engineCache, touchEntry, tabGet_tabSet] at listed
  split at listed
  case isTrue here =>
    obtain ⟨b, before, rfl⟩ := List.mem_map.1 listed
    refine ⟨b, here ▸ before, ?_⟩
    split <;> rfl
  case isFalse => exact ⟨d, listed, rfl⟩

theorem EntryServes.later {e : SegEntry} (h : EntryServes s e) (goes : DmaGoes core s t) : EntryServes t e := by
  intro va covers
  rw [hostServes, goes.frame.host_eq rfl]
  exact h va covers

theorem sendPiece_dma (serves : HostsServe s) {x : Nat} (named : Serves core s x) (p : Nat) {c : SegCached} (entry : EntryServes s c.entry)
    (covers : ∀ v q, getPiece s x p = some (v, q) → segCovers c.entry q.vaddr = true) : DmaGoes core s (sendPiece x p c s) := by
  have faulted (e ctx va : Nat) (seg : Option Nat) (r : SegReason) (k : AccessKind) (m : Piece → Piece) :
      DmaGoes core s (updPiece (raiseFault e ctx va seg r k s).2 x p m) :=
    (raiseFault_dma serves e ctx va seg r k).trans (updPiece_dma (raiseFault_serves serves _ _ _ _ _ _) x p m)
  unfold sendPiece
  split
  · exact .refl serves
  next v q stands =>
  have reached : hostServes s (c.entry.dbase + (q.vaddr - c.entry.vstart)) = true := entry _ (covers v q stands)
  dsimp only
  split
  · exact faulted _ _ _ _ _ _ _
  split
  · exact faulted _ _ _ _ _ _ _
  rw [if_neg (by simp [reached])]
  obtain ⟨dst, key⟩ := pieceDest s (c.entry.dbase + (q.vaddr - c.entry.vstart))
  have sent := updPiece_dma (core := core) serves x p (fun q => { q with
    state := .sent, trans := some (c.index, c.entry.gen), daddr := key })
  have starts := startMov_dma (core := core) sent.serves (named v (getXfer_of_getPiece stands))
  exact (sent.trans starts).trans (net_dma starts.serves _)

theorem startPiece_dma (serves : HostsServe s) {x : Nat} (named : Serves core s x) (p : Nat) : DmaGoes core s (startPiece x p s) := by
  unfold startPiece
  split
  · exact .refl serves
  next v q stands =>
  split
  · exact updPiece_dma serves x p _
  split
  · exact updPiece_dma serves x p _
  next c found =>
  have looked := touchEntry_dma (core := core) serves v.engine c
  refine looked.trans (sendPiece_dma looked.serves (named.later looked) p ?_ ?_)
  · exact (serves.2 v.engine c (List.mem_of_find?_eq_some found)).later looked
  · intro w r again
    obtain ⟨_, rfl⟩ := Prod.mk.inj (Option.some.inj (again.symm.trans stands))
    have covers := List.find?_some found
    exact (Bool.and_eq_true _ _ ▸ covers).2

theorem startWaiting_dma (serves : HostsServe s) {x : Nat} (named : Serves core s x) : DmaGoes core s (startWaiting x s) := by
  unfold startWaiting
  split
  · exact .refl serves
  · refine .forEach (fun p t so_far => ?_) _ (.refl serves)
    split
    · split
      · exact startPiece_dma so_far.serves (named.later so_far) p
      · exact .refl so_far.serves
    · exact .refl so_far.serves

theorem pumpMov_dma {p : Nat} (serves : HostsServe s) (o : IssuedOp) : DmaGoes (some p) s (pumpMov p o s) := by
  have own : ∀ q n, XferOwner.mov p o.seq = .mov q n → some p = some q := fun q n same => congrArg some (XferOwner.mov.inj same).1
  unfold pumpMov
  split
  · exact .refl serves
  split
  · exact startMov_dma serves own
  next n _ =>
  split
  case h_2 => exact .refl serves
  next v stands =>
  split
  · exact .refl serves
  next mine =>
  split
  · exact startMov_dma serves own
  · refine startWaiting_dma serves (fun w same q k owner => own q k ?_)
    obtain rfl := Option.some.inj (stands.symm.trans same)
    exact (not_not.1 mine).symm.trans owner

theorem pumpMovs_dma {p : Nat} (serves : HostsServe s) : DmaGoes (some p) s (pumpMovs p s) :=
  .forEach (fun o _ so_far => pumpMov_dma so_far.serves o) _ (.refl serves)

/-- A transfer is made, and its pieces go on their way. -/
theorem newXfer_dma (serves : HostsServe s) (v : Xfer) (named : ∀ q n, v.owner = .mov q n → core = some q) :
    (newXfer v s).1 = s.nextXfer ∧ DmaGoes core { setXfer s s.nextXfer v with nextXfer := s.nextXfer + 1 } (newXfer v s).2 := by
  have made : HostsServe { setXfer s s.nextXfer v with nextXfer := s.nextXfer + 1 } := serves
  refine ⟨rfl, .forEach (fun p t so_far => startPiece_dma so_far.serves (Serves.later ?_ so_far) p) _ (.refl made)⟩
  intro w stands q n owner
  obtain rfl := Option.some.inj ((getXfer_setXfer s s.nextXfer v).symm.trans stands)
  exact named q n owner

end

end Sys2Proof.Machine
end

section
/-! SUPPORT. MOV and GRD ops at issue (R188, R196, R198, R283, R285): the transfer that each makes, and the statements O10 and O11. -/

namespace Sys2Proof.Machine

/-! ### The transfer of a MOV op -/

/-- What the transfer of a MOV op is for: of which kind it is, of which sealed unit, and how many pieces it has. -/
structure MovMakes (p seq inv : Nat) (kind : AccessKind) (unit : Option (Option Bits256)) (pieces : Nat) (x : Xfer) : Prop where
  owner : x.owner = .mov p seq
  inv : x.inv = inv
  kind : x.kind = kind
  unit : x.sealed_ = unit
  pieces : x.pieces.length = pieces

theorem MovMakes.of_head {p seq inv pieces : Nat} {kind : AccessKind} {unit : Option (Option Bits256)} {x y : Xfer}
    (h : MovMakes p seq inv kind unit pieces x) (same : xferHead y = xferHead x) : MovMakes p seq inv kind unit pieces y := by
  simp only [xferHead, Prod.mk.injEq] at same
  obtain ⟨owner, inv, kind, unit, pieces⟩ := same
  exact ⟨owner.trans h.owner, inv.trans h.inv, kind.trans h.kind, unit.trans h.unit, pieces.trans h.pieces⟩

/-- The far references of a MOV op in the window, as its pieces lie. -/
def farPieces (o : IssuedOp) : List Piece := movPieces (movOp o.word) o.near o.far

/-- The transfer made, attached to its op, and on its way. -/
def beginWith (p : Nat) (o : IssuedOp) (x : Xfer) (s : State) : State := pumpMovs p (attachTo p o.seq (newXfer x s).1 (newXfer x s).2)

section
variable (p : Nat) (o : IssuedOp) (s : State)

theorem beginMov_of_load (kind : opSub o.word = 0) (plain : bitOf (opFlags o.word) 1 = false) :
    ∃ x, beginMov p o s = beginWith p o x s ∧ MovMakes p o.seq ((getCore s p).inv.getD 0) .read none (farPieces o).length x := by
  rw [beginMov, show (movOp o.word).kind = 0 from kind, show (movOp o.word).unsealed = false from plain]
  exact ⟨_, rfl, rfl, rfl, rfl, rfl, rfl⟩

theorem beginMov_of_unseal (kind : opSub o.word = 0) (opens : bitOf (opFlags o.word) 1 = true) :
    let key := unsealKey s (invContext s ((getCore s p).inv.getD 0)) ((movOp o.word).farStride % 2 ^ 16)
    ∃ x, beginMov p o s = beginWith p o x s ∧
      MovMakes p o.seq ((getCore s p).inv.getD 0) .read (some key) (if key = none then 0 else (farPieces o).length) x := by
  intro key
  rw [beginMov, show (movOp o.word).kind = 0 from kind, show (movOp o.word).unsealed = true from opens]
  refine ⟨_, rfl, rfl, rfl, rfl, rfl, ?_⟩
  by_cases refused : key = none
  · rw [if_pos refused]
    exact congrArg List.length (if_pos (congrArg some refused))
  · rw [if_neg refused]
    exact congrArg List.length (if_neg (fun same => refused (Option.some.inj same)))

theorem beginMov_of_store (kind : opSub o.word = 1) :
    ∃ x, beginMov p o s = beginWith p o x s ∧ MovMakes p o.seq ((getCore s p).inv.getD 0) .write none (farPieces o).length x := by
  rw [beginMov, show (movOp o.word).kind = 1 from kind]
  exact ⟨_, rfl, rfl, rfl, rfl, rfl, rfl⟩

theorem beginMov_of_fillFar (kind : opSub o.word = 4) :
    ∃ x, beginMov p o s = beginWith p o x s ∧ MovMakes p o.seq ((getCore s p).inv.getD 0) .write none (farPieces o).length x := by
  rw [beginMov, show (movOp o.word).kind = 4 from kind]
  exact ⟨_, rfl, rfl, rfl, rfl, rfl, rfl⟩

theorem beginMov_of_near (kind : opSub o.word = 2 ∨ opSub o.word = 3) : beginMov p o s = pumpMovs p s := by
  rw [beginMov]
  rcases kind with kind | kind
  · rw [show (movOp o.word).kind = 2 from kind]
    rfl
  · rw [show (movOp o.word).kind = 3 from kind]
    rfl

end

/-! ### Its place in the window -/

theorem issueClass_of_mov {w : Bits256} (p : Nat) (s : State) (cls : opClass w = 2) : issueClass p w s = issueMov p w s := by
  rw [issueClass, cls]
  rfl

/-- An issued MOV op begins as the last of the window. -/
theorem issueMov_begins (p : Nat) (w : Bits256) (s : State) :
    ∃ o : IssuedOp, issueMov p w s = beginMov p o (pushOp p w false s) ∧
      getCore (pushOp p w false s) p = { getCore s p with
        window := (getCore s p).window ++ [o], nextSeq := (getCore s p).nextSeq + 1, pc := nextPc (getCore s p), stall := none } ∧
      o.word = w ∧ o.addr = (getCore s p).pc ∧ o.seq = (getCore s p).nextSeq ∧ o.started = false ∧ o.issuedAt = s.devTime ∧ o.xfer = none ∧
      o.far = farRef (getCore s p) (opField w 8 8) ∧ o.near = nearRef (getCore s p) (opField w (nearAt w) 4) := by
  obtain ⟨o, pushed, word, addr, seq, started, issued, _, _, xfer, far, near⟩ := getCore_pushOp p w false s
  refine ⟨o, ?_, pushed, word, addr, seq, started, issued, xfer, far, near⟩
  have last : (getCore (pushOp p w false s) p).window.getLast? = some o := by
    rw [pushed]
    exact List.getLast?_concat
  rw [issueMov]
  simp only [last]

theorem pushOp_serves {s : State} (serves : HostsServe s) (p : Nat) (w : Bits256) (started : Bool) : HostsServe (pushOp p w started s) :=
  serves.of_frame (pushOp_reach p w started s) rfl rfl

/-- A MOV op whose window went on from its place stands placed. -/
theorem movPlaced_of_going {s t u : State} {p : Nat} {w : Bits256} {m : IssuedOp → IssuedOp} {x : Option Nat} (after : AfterIssue p u t)
    (core : getCore u p = { getCore (pushOp p w false s) p with window := (getCore (pushOp p w false s) p).window.map m })
    (keeps : ∀ r, (m r).word = r.word ∧ (m r).addr = r.addr ∧ (m r).seq = r.seq ∧ (m r).issuedAt = r.issuedAt)
    (attached : ∀ r, r.seq = (getCore s p).nextSeq → r.xfer = none → (m r).xfer = x) : MovPlaced s t p w x := by
  obtain ⟨o, pushed, word, addr, seq, _, issued, _, _, xfer, _⟩ := getCore_pushOp p w false s
  have eq := after.1
  rw [core, pushed] at eq
  obtain ⟨sameWord, sameAddr, sameSeq, sameIssued⟩ := keeps o
  refine ⟨by rw [eq], by rw [eq], ?_, m o, ?_, sameWord.trans word, sameAddr.trans addr, sameSeq.trans seq, sameIssued.trans issued, attached o seq xfer⟩
  · rw [eq]
    simp
  · rw [eq]
    simp

/-- The op of a transfer has its number. -/
def attached (seq n : Nat) (o : IssuedOp) : IssuedOp := if o.seq = seq then { o with xfer := some n } else o

theorem attachTo_eq (p seq n : Nat) (s : State) :
    getCore (attachTo p seq n s) p = { getCore s p with window := (getCore s p).window.map (attached seq n) } := getCore_updCore _ _ _

/-- A MOV op with a far end: its transfer stands as it was made, and the op in its place. -/
theorem issueMov_transfers {s : State} {p : Nat} {w : Bits256} {o : IssuedOp} {x : Xfer} {inv pieces : Nat} {kind : AccessKind}
    {unit : Option (Option Bits256)} (cls : opClass w = 2) (serves : HostsServe s) (seq : o.seq = (getCore s p).nextSeq)
    (begins : issueMov p w s = beginWith p o x (pushOp p w false s)) (makes : MovMakes p o.seq inv kind unit pieces x) :
    ∃ y, MovMakes p o.seq inv kind unit pieces y ∧ getXfer (issueOp p w s) s.nextXfer = some y ∧ (issueOp p w s).nextXfer = s.nextXfer + 1 ∧
      MovPlaced s (issueOp p w s) p w (some s.nextXfer) ∧ OtherCores p s (issueOp p w s) := by
  have after : AfterIssue p (beginWith p o x (pushOp p w false s)) (issueOp p w s) := by
    rw [← begins, ← issueClass_of_mov p s cls]
    exact issueOp_after s (by omega)
  have own : ∀ q n, x.owner = .mov q n → some p = some q := fun q n same => congrArg some (XferOwner.mov.inj (makes.owner.symm.trans same)).1
  obtain ⟨_, made⟩ := newXfer_dma (pushOp_serves serves p w false) x own
  have attach := attachTo_reach p o.seq s.nextXfer (newXfer x (pushOp p w false s)).2
  have pumps := pumpMovs_dma (p := p) (made.serves.of_frame attach rfl rfl)
  obtain ⟨g, started⟩ := made.starts p
  obtain ⟨g', pumped⟩ := pumps.starts p
  rw [attachTo_eq, started] at pumped
  obtain ⟨y, stands, head⟩ := (made.heads.trans ((attach.xfersKeep rfl).trans pumps.heads)).after (getXfer_setXfer (pushOp p w false s) s.nextXfer x)
  refine ⟨y, makes.of_head head, (after.2.2.getXfer_eq rfl _).trans stands, ?_, ?_, ?_⟩
  · rw [after.2.2.nextXfer_eq rfl]
    exact pumps.next.trans ((attach.nextXfer_eq rfl).trans made.next)
  · refine movPlaced_of_going (m := fun r => { attached o.seq s.nextXfer { r with started := g r } with started := g' (attached o.seq s.nextXfer { r with started := g r }) })
      after ?_ (fun r => ?_) (fun r same _ => ?_)
    · refine pumped.trans ?_
      rw [List.map_map, List.map_map]
      rfl
    · unfold attached
      split <;> exact ⟨rfl, rfl, rfl, rfl⟩
    · exact congrArg IssuedOp.xfer (if_pos (same.trans seq.symm))
  · refine after.otherCores (fun q ne => ?_)
    have other : some p ≠ some q := fun same => ne (Option.some.inj same).symm
    exact (pumps.others q other).trans ((getCore_updCore_ne _ _ ne).trans ((made.others q other).trans (pushOp_otherCores p w false s q ne)))

/-- A MOV op with no far end: it stands in its place, and starts with the MOVs before it. -/
theorem issueMov_near {s : State} {p : Nat} {w : Bits256} (cls : opClass w = 2) (near : opSub w = 2 ∨ opSub w = 3) (serves : HostsServe s) :
    MovPlaced s (issueOp p w s) p w none ∧ OtherCores p s (issueOp p w s) := by
  obtain ⟨o, begins, _, word, _⟩ := issueMov_begins p w s
  have pumped : issueMov p w s = pumpMovs p (pushOp p w false s) := begins.trans (beginMov_of_near p o _ (word.symm ▸ near))
  have after : AfterIssue p (pumpMovs p (pushOp p w false s)) (issueOp p w s) := by
    rw [← pumped, ← issueClass_of_mov p s cls]
    exact issueOp_after s (by omega)
  have pumps := pumpMovs_dma (p := p) (pushOp_serves serves p w false)
  obtain ⟨g, started⟩ := pumps.starts p
  refine ⟨movPlaced_of_going after started (fun r => ⟨rfl, rfl, rfl, rfl⟩) (fun r _ none => none), after.otherCores (fun q ne => ?_)⟩
  exact (pumps.others q (fun same => ne (Option.some.inj same).symm)).trans (pushOp_otherCores p w false s q ne)

theorem pumpMov_of_other {p : Nat} {o : IssuedOp} (other : opClass o.word ≠ 2) (s : State) : pumpMov p o s = s := if_pos (.inl other)

/-- With no other MOV in the window a MOV op with no transfer starts at once (R188). -/
theorem pumpMovs_of_alone {s : State} {p : Nat} {o : IssuedOp} {before : List IssuedOp} (window : (getCore s p).window = before ++ [o])
    (alone : ∀ r ∈ before, opClass r.word ≠ 2) (cls : opClass o.word = 2) (none : o.xfer = none) : pumpMovs p s = startMov (.mov p o.seq) s := by
  have passes : ∀ (l : List IssuedOp), (∀ r ∈ l, opClass r.word ≠ 2) → forEach (l ++ [o]) (pumpMov p) s = pumpMov p o s := by
    intro l others
    induction l with
    | nil => rfl
    | cons r l ih =>
      rw [List.cons_append, forEach, pumpMov_of_other (others r List.mem_cons_self)]
      exact ih (fun q listed => others q (List.mem_cons_of_mem _ listed))
  have first : behindMov s (.mov p o.seq) = false := by
    rw [behindMov, window, List.any_append, Bool.or_eq_false_iff]
    constructor
    · rw [List.any_eq_false]
      intro r listed
      simp [alone r listed]
    · simp
  rw [pumpMovs, window, passes before alone, pumpMov, if_neg (by simp [cls, first]), none]

theorem startMov_core (p n : Nat) (s : State) : getCore (startMov (.mov p n) s) p = { getCore s p with
    window := (getCore s p).window.map (fun o => if o.seq = n ∧ opClass o.word = 2 then { o with started := true } else o) } := getCore_updCore _ _ _

theorem issueMov_near_alone {s : State} {p : Nat} {w : Bits256} (cls : opClass w = 2) (near : opSub w = 2 ∨ opSub w = 3)
    (alone : ∀ o ∈ (getCore s p).window, opClass o.word ≠ 2) : Placed s (issueOp p w s) p w true ∧ SameExcept [.cores, .seg] s (issueOp p w s) := by
  obtain ⟨o, begins, pushed, word, addr, seq, _, issued, none, _⟩ := issueMov_begins p w s
  have window : (getCore (pushOp p w false s) p).window = (getCore s p).window ++ [o] := by rw [pushed]
  have begun : issueMov p w s = startMov (.mov p o.seq) (pushOp p w false s) :=
    (begins.trans (beginMov_of_near p o _ (word.symm ▸ near))).trans (pumpMovs_of_alone window alone (word.symm ▸ cls) none)
  have after : AfterIssue p (startMov (.mov p o.seq) (pushOp p w false s)) (issueOp p w s) := by
    rw [← begun, ← issueClass_of_mov p s cls]
    exact issueOp_after s (by omega)
  have core := after.1
  rw [startMov_core, pushed] at core
  refine ⟨⟨by rw [core], by rw [core], { o with started := true }, ?_, word, addr, seq, rfl, issued⟩,
    after.frame ((startMov_reach _ _).step rfl ((pushOp_reach _ _ _ _).weaken rfl)) rfl⟩
  rw [core]
  dsimp only
  rw [List.map_append, List.map_singleton, if_pos ⟨rfl, word.symm ▸ cls⟩]
  exact congrArg (· ++ _) ((List.map_congr_left (fun r listed => if_neg (fun both => alone r listed both.2))).trans (List.map_id _))

/-- Settles O10: a MOV with a far end by the transfer that it makes, one without by its place. -/
theorem movOpsBeginTheirTransfers : Obligations.MovOpsBeginTheirTransfers := by
  intro core s p w ready serves c far key alone
  have inv : (getCore (pushOp p w false s) p).inv = c.inv := by
    obtain ⟨o, pushed, _⟩ := getCore_pushOp p w false s
    rw [pushed]
  obtain ⟨o, begins, _, word, _, seq, _, _, _, farAt, nearAt_⟩ := issueMov_begins p w s
  have pieces (cls : opClass w = 2) : farPieces o = far := by
    rw [farPieces, word, farAt, nearAt_, nearAt, cls]
    rfl
  have transfers (cls : opClass w = 2) {x : Xfer} {kind : AccessKind} {unit : Option (Option Bits256)} {n : Nat}
      (with_ : beginMov p o (pushOp p w false s) = beginWith p o x (pushOp p w false s))
      (makes : MovMakes p o.seq ((getCore (pushOp p w false s) p).inv.getD 0) kind unit n x) :
      ∃ y, TransferBegun s (issueOp p w s) p w y ∧ y.kind = kind ∧ y.sealed_ = unit ∧ y.pieces.length = n ∧ OtherCores p s (issueOp p w s) := by
    obtain ⟨y, made, stands, next, placed, others⟩ := issueMov_transfers cls serves seq (begins.trans with_) makes
    exact ⟨y, ⟨stands, next, made.owner.trans (seq ▸ rfl), made.inv.trans (by rw [inv]), placed⟩, made.kind, made.unit, made.pieces, others⟩
  have kind {n : Nat} (sub : opSub w = n) : opSub o.word = n := word ▸ sub
  refine ⟨fun named => ?load, fun named => ?opens, fun named => ?store, fun named => ?fillFar, fun named => ?localMov, fun named => ?fillNear⟩
  case load =>
    simp only [isMovLoad, Bool.and_eq_true, Bool.or_eq_true, beq_iff_eq, decide_eq_true_eq, Bool.not_eq_true'] at named
    obtain ⟨cls, form⟩ := named
    have known : opSub w ≤ 4 := (ready.movValid cls).1.1
    obtain ⟨sub, plain⟩ := form.resolve_left (by omega)
    obtain ⟨x, with_, makes⟩ := beginMov_of_load p o (pushOp p w false s) (kind sub) (word.symm ▸ plain)
    obtain ⟨y, begun, reads, _, length, others⟩ := transfers cls with_ makes
    exact ⟨_, y, ready.issues (by simp [isMovLoad, cls, sub, plain]), begun, reads, length.trans (congrArg List.length (pieces cls)), others, issueOp_reach _ _ _⟩
  case opens =>
    obtain ⟨⟨cls, sub⟩, sealed_⟩ : (opClass w = 2 ∧ opSub w = 0) ∧ bitOf (opFlags w) 1 = true := by simpa [isMovLoadUnseal] using named
    obtain ⟨x, with_, makes⟩ := beginMov_of_unseal p o (pushOp p w false s) (kind sub) (word.symm ▸ sealed_)
    obtain ⟨y, begun, reads, unit, length, others⟩ := transfers cls with_ makes
    rw [inv, word] at unit length
    refine ⟨_, y, ready.issues named, begun, reads, unit, length.trans ?_, others, issueOp_reach _ _ _⟩
    rw [pieces cls]
    rfl
  case store =>
    obtain ⟨cls, sub⟩ : opClass w = 2 ∧ opSub w = 1 := by simpa [isMovStore] using named
    obtain ⟨x, with_, makes⟩ := beginMov_of_store p o (pushOp p w false s) (kind sub)
    obtain ⟨y, begun, writes, _, length, others⟩ := transfers cls with_ makes
    exact ⟨_, y, ready.issues named, begun, writes, length.trans (congrArg List.length (pieces cls)), others, issueOp_reach _ _ _⟩
  case fillFar =>
    obtain ⟨cls, sub⟩ : opClass w = 2 ∧ opSub w = 4 := by simpa [isMovFillFar] using named
    obtain ⟨x, with_, makes⟩ := beginMov_of_fillFar p o (pushOp p w false s) (kind sub)
    obtain ⟨y, begun, writes, _, length, others⟩ := transfers cls with_ makes
    exact ⟨_, y, ready.issues named, begun, writes, length.trans (congrArg List.length (pieces cls)), others, issueOp_reach _ _ _⟩
  case localMov =>
    obtain ⟨cls, sub⟩ : opClass w = 2 ∧ opSub w = 2 := by simpa [isMovLocal] using named
    obtain ⟨placed, others⟩ := issueMov_near (p := p) cls (.inl sub) serves
    exact ⟨_, ready.issues named, placed, others, issueMov_near_alone cls (.inl sub)⟩
  case fillNear =>
    obtain ⟨cls, sub⟩ : opClass w = 2 ∧ opSub w = 3 := by simpa [isMovFillNear] using named
    obtain ⟨placed, others⟩ := issueMov_near (p := p) cls (.inr sub) serves
    exact ⟨_, ready.issues named, placed, others, issueMov_near_alone cls (.inr sub)⟩

/-! ### GRD ops (O11) -/

theorem issueClass_of_grd {w : Bits256} (p : Nat) (s : State) (cls : opClass w = 3) : issueClass p w s = issueGrd p w s := by
  rw [issueClass, cls]
  rfl

/-- The transfer that reads the descriptor of a batch. -/
def descXfer (p : Nat) (w : Bits256) (s : State) : Xfer :=
  let i := (getCore s p).inv.getD 0
  let g := (logicalOf s p).getD 0 / 80 * 16 + grdGrinder w
  { xferOf (pushOp p w true s) (engineOfGrinder g) (invContext s i) i (.batch g (getGrinder s g).nextId) .read (invClass s i)
      (regionOf (pushOp p w true s) p) (rowPieces (farRef (getCore s p) (grdDesc w)) 0 64) with buffered := true, payload := clean (zeros 64) }

/-- The grinder of a GRD op takes its batch behind the others. -/
theorem issueGrd_takes (p : Nat) (w : Bits256) (s : State) :
    ∃ b : Batch, issueGrd p w s = (let g := (logicalOf s p).getD 0 / 80 * 16 + grdGrinder w
        let u := (newXfer (descXfer p w s) (pushOp p w true s)).2
        setGrinder u g { getGrinder u g with queue := (getGrinder u g).queue ++ [b], nextId := (getGrinder s g).nextId + 1 }) ∧
      b.id = (getGrinder s ((logicalOf s p).getD 0 / 80 * 16 + grdGrinder w)).nextId ∧ b.phase = .queued ∧ b.core = p ∧
      b.inv = (getCore s p).inv.getD 0 ∧ b.done = grdDone w ∧ b.xfers = [s.nextXfer] :=
  ⟨_, rfl, rfl, rfl, rfl, rfl, rfl, rfl⟩

/-- Settles O11: the batch of the op, and the transfer that reads its descriptor. -/
theorem grdOpsHandTheirGrinderABatch : Obligations.GrdOpsHandTheirGrinderABatch := by
  intro core s p w ready serves named
  have cls : opClass w = 3 := by simpa [isGrd] using named
  obtain ⟨b, takes, facts⟩ := issueGrd_takes p w s
  have after : AfterIssue p (issueGrd p w s) (issueOp p w s) := by
    rw [← issueClass_of_grd p s cls]
    exact issueOp_after s (by omega)
  have own : ∀ q n, (descXfer p w s).owner = .mov q n → none = some q := fun q n same => nomatch (show XferOwner.batch _ _ = .mov q n from same)
  obtain ⟨_, made⟩ := newXfer_dma (pushOp_serves serves p w true) (descXfer p w s) own
  have sameCore (q : Nat) : getCore (issueGrd p w s) q = getCore (pushOp p w true s) q := by
    rw [takes]
    exact made.others q (fun same => by cases same)
  have placed : Placed s (issueOp p w s) p w true := by
    refine placed_of_pushed ?_ ?_ ?_
    all_goals rw [after.1, sameCore]
  obtain ⟨x, stands, head⟩ := made.heads.after (getXfer_setXfer (pushOp p w true s) s.nextXfer (descXfer p w s))
  simp only [xferHead, Prod.mk.injEq] at head
  obtain ⟨owner, _, kind, _⟩ := head
  have grinder (k : Nat) : getGrinder (newXfer (descXfer p w s) (pushOp p w true s)).2 k = getGrinder s k := made.frame.getGrinder_eq rfl k
  obtain ⟨id, phase, onCore, inv, done, xfers⟩ := facts
  refine ⟨_, b, x, ready.issues named, ?_, ?_, fun k ne => ?_, placed, id, phase, onCore, inv, done, xfers, ?_, ?_, kind, ?_, issueOp_reach _ _ _⟩
  · rw [after.2.2.getGrinder_eq rfl, takes, getGrinder_setGrinder, grinder]
  · rw [after.2.2.getGrinder_eq rfl, takes, getGrinder_setGrinder]
  · rw [after.2.2.getGrinder_eq rfl, takes, getGrinder_setGrinder_ne _ _ ne, grinder]
  · rw [after.2.2.getXfer_eq rfl, takes]
    exact stands
  · exact owner.trans (congrArg _ id.symm)
  · exact after.otherCores (fun q ne => (sameCore q).trans (pushOp_otherCores p w true s q ne))

end Sys2Proof.Machine
end

section
/-! SUPPORT. What ends early stays so (R205, R319): through the transfers that go on, and the core of the one that a command ends. -/
section
namespace Sys2Proof.Machine

section
variable {s t u : State}

/-- No core's `SEQ_FAULT` changes, and an invocation that has ended early keeps what ended it. -/
structure EndsStay (s t : State) : Prop where
  faults : CoresKeep Core.fault s t
  ends : ∀ i x e, getInv s i = some x → x.early = some e → ∃ y, getInv t i = some y ∧ y.early = some e

theorem EndsStay.refl (s : State) : EndsStay s s := ⟨.refl _ s, fun _ x _ stands ended => ⟨x, stands, ended⟩⟩

theorem EndsStay.trans (h : EndsStay s t) (h' : EndsStay t u) : EndsStay s u := by
  refine ⟨h.faults.trans h'.faults, fun i x e stands ended => ?_⟩
  obtain ⟨y, stands, ended⟩ := h.ends i x e stands ended
  exact h'.ends i y e stands ended

theorem EndsStay.forEach {α : Type} {m : α → State → State} (each : ∀ a t, EndsStay t (m a t)) :
    ∀ (l : List α) (s : State), EndsStay s (forEach l m s)
  | [], s => .refl s
  | a :: l, s => (each a s).trans (.forEach each l (m a s))

theorem EndsStay.of_keeps (faults : CoresKeep Core.fault s t) (ends : InvsKeep Invocation.early s t) : EndsStay s t := by
  refine ⟨faults, fun i x e stands ended => ?_⟩
  obtain ⟨y, after, same⟩ := ends.stands stands
  exact ⟨y, after, same.trans ended⟩

theorem EndsStay.of_frame {ps : List Part} (h : SameExcept ps s t) (cores : ps.contains .cores = false) (qs : ps.contains .qs = false) :
    EndsStay s t := .of_keeps (h.coresKeep cores) (h.invsKeep qs)

theorem stopCores_faults (l : List Nat) (s : State) : CoresKeep Core.fault s (forEach l stopCore s) :=
  .forEach (stopCore_coresKeep (fun _ _ _ => rfl) (fun _ _ _ => rfl) (fun _ _ _ => rfl)) l s

/-- What ends an invocation: its early end, and whether an access of its was refused. -/
def endOf (x : Invocation) : Option (Status × Nat) × Bool := (x.early, x.refused)

theorem setInv_endOf (s : State) (i : Nat) (y : Invocation) (j : Nat) :
    (getInv (setInv s i y) j).map endOf = if j = i then some (endOf y) else (getInv s j).map endOf := by
  by_cases same : j = i
  · rw [same, getInv_setInv, if_pos rfl, Option.map_some]
  · rw [getInv_setInv_ne s y same, if_neg same]

/-- The first early end of an invocation: it is recorded, and nothing that another ends by changes, nor any core's `SEQ_FAULT`. -/
theorem endEarly_records {i : Nat} {x : Invocation} (st : Status) (code : Nat) (stands : getInv s i = some x) (first : x.early = none) :
    (∀ j, (getInv (endEarly i st code s) j).map endOf =
      if j = i then some (some (if x.refused then (.segmentFault, 0) else (st, code)), x.refused) else (getInv s j).map endOf) ∧
      CoresKeep Core.fault s (endEarly i st code s) := by
  have kept (t : State) (y : Invocation) : CoresKeep Core.fault t (setInv t i y) := (setInv_reach _ _ _).coresKeep rfl
  unfold endEarly
  simp only [stands, first, Option.isSome_none, Bool.false_eq_true, if_false]
  generalize (if x.refused = true then (Status.segmentFault, 0) else (st, code)) = e
  cases state : x.state with
  | switchedOut =>
    have recorded (t : State) (y y' : Invocation) (ended : endOf y' = (some e, x.refused)) (j : Nat) :
        (getInv (setInv (setInv t i y) i y') j).map endOf = if j = i then some (some e, x.refused) else (getInv t j).map endOf := by
      rw [setInv_endOf, setInv_endOf, ended]
      split <;> rfl
    cases slot : x.slot with
    | some k => exact ⟨recorded s _ _ rfl, fun _ => rfl⟩
    | none => exact ⟨recorded s _ _ rfl, (kept s _).trans (kept _ _)⟩
  | resident | switching | resuming =>
    exact ⟨fun j => ((InvsKeep.forEach (stopCore_invsKeep (fun _ _ => rfl)) _ _) j).trans (setInv_endOf s i _ j), (kept s _).trans (stopCores_faults _ _)⟩

theorem endEarly_first {i : Nat} {x : Invocation} (st : Status) (code : Nat) (stands : getInv s i = some x) (first : x.early = none) :
    ∃ y, getInv (endEarly i st code s) i = some y ∧ y.early = some (if x.refused then (.segmentFault, 0) else (st, code)) := by
  have recorded := (endEarly_records st code stands first).1 i
  rw [if_pos rfl] at recorded
  obtain ⟨y, after, same⟩ := Option.map_eq_some_iff.1 recorded
  exact ⟨y, after, congrArg Prod.fst same⟩

theorem endEarly_stays (i : Nat) (st : Status) (code : Nat) (s : State) : EndsStay s (endEarly i st code s) := by
  cases stands : getInv s i with
  | none => rw [endEarly, stands]; exact .refl s
  | some x =>
    cases first : x.early with
    | some e =>
      have eq : endEarly i st code s = s := by simp [endEarly, stands, first]
      rw [eq]; exact .refl s
    | none =>
      obtain ⟨recorded, faults⟩ := endEarly_records st code stands first
      refine ⟨faults, fun j z e there ended => ?_⟩
      have same : j ≠ i := by
        rintro rfl
        obtain rfl := Option.some.inj (stands.symm.trans there)
        exact absurd (first.symm.trans ended) nofun
      have eq := recorded j
      rw [if_neg same, there, Option.map_some] at eq
      obtain ⟨y, after, kept⟩ := Option.map_eq_some_iff.1 eq
      exact ⟨y, after, (congrArg Prod.fst kept).trans ended⟩

theorem updPiece_stays (s : State) (x p : Nat) (m : Piece → Piece) : EndsStay s (updPiece s x p m) := .of_frame (updPiece_reach s x p m) rfl rfl

theorem endPiece_stays (x p : Nat) (s : State) : EndsStay s (endPiece x p s) := .of_frame (endPiece_reach x p s) rfl rfl

theorem startMov_stays (owner : XferOwner) (s : State) : EndsStay s (startMov owner s) := by
  refine .of_keeps ?_ ((startMov_reach owner s).invsKeep rfl)
  unfold startMov
  split
  · exact .updCore (fun _ => rfl)
  · exact .refl _ s

theorem net_stays (s : State) (l : List Packet) : EndsStay s { s with net := l } := .of_frame (sameExcept_net s l) rfl rfl

theorem sendPiece_stays (x p : Nat) (c : SegCached) (s : State) : EndsStay s (sendPiece x p c s) := by
  have faulted (e ctx va : Nat) (seg : Option Nat) (r : SegReason) (k : AccessKind) (m : Piece → Piece) :
      EndsStay s (updPiece (raiseFault e ctx va seg r k s).2 x p m) :=
    .trans (.of_frame (raiseFault_reach e ctx va seg r k s) rfl rfl) (updPiece_stays _ x p m)
  unfold sendPiece
  split
  · exact .refl s
  next v q _ =>
  dsimp only
  split
  · exact faulted _ _ _ _ _ _ _
  split
  · exact faulted _ _ _ _ _ _ _
  split
  · exact (endPiece_stays x p s).trans (endEarly_stays _ _ _ _)
  obtain ⟨dst, key⟩ := pieceDest s (c.entry.dbase + (q.vaddr - c.entry.vstart))
  exact ((updPiece_stays s x p _).trans (startMov_stays v.owner _)).trans (net_stays _ _)

theorem startPiece_stays (x p : Nat) (s : State) : EndsStay s (startPiece x p s) := by
  unfold startPiece
  split
  · exact .refl s
  split
  · exact updPiece_stays s x p _
  split
  · exact updPiece_stays s x p _
  next v _ _ _ _ c _ => exact .trans (t := touchEntry v.engine c s) (.of_frame (sameExcept_seg s _) rfl rfl) (sendPiece_stays x p c _)

theorem startWaiting_stays (x : Nat) (s : State) : EndsStay s (startWaiting x s) := by
  unfold startWaiting
  split
  · exact .refl s
  · refine .forEach (fun p t => ?_) _ s
    split
    · split
      · exact startPiece_stays x p t
      · exact .refl t
    · exact .refl t

theorem pumpMov_stays (p : Nat) (o : IssuedOp) (s : State) : EndsStay s (pumpMov p o s) := by
  unfold pumpMov
  split
  · exact .refl s
  split
  · exact startMov_stays _ s
  split
  case h_2 => exact .refl s
  split
  · exact .refl s
  split
  · exact startMov_stays _ s
  · exact startWaiting_stays _ s

theorem pumpXfer_stays (x : Nat) (s : State) : EndsStay s (pumpXfer x s) := by
  unfold pumpXfer
  split
  · split
    · exact .forEach (pumpMov_stays _) _ s
    · exact .refl s
  · exact .refl s

theorem retryUnrecorded_stays (s : State) : EndsStay s (retryUnrecorded s) := by
  refine .forEach (fun e t => .forEach (fun p t => ?_) _ t) _ s
  split
  · split
    · exact (startPiece_stays e.1 p t).trans (pumpXfer_stays e.1 _)
    · exact .refl t
  · exact .refl t

theorem settleRecord_stays (k : Nat) (s : State) : EndsStay s (settleRecord k s) := by
  unfold settleRecord
  split
  · exact .refl s
  split
  · exact .refl s
  dsimp only
  split
  · exact .trans (.of_frame (sameExcept_seg s _) rfl rfl) (retryUnrecorded_stays _)
  · exact .of_frame (sameExcept_seg s _) rfl rfl

theorem settleRecords_stays (s : State) : EndsStay s (settleRecords s) := .forEach settleRecord_stays _ s

theorem sameExcept_net_host (s : State) (l : List Packet) (h : HostSide) : SameExcept [.net, .host] s { s with net := l, host := h } := by
  intro p hp
  cases p with
  | net => exact absurd List.mem_cons_self hp
  | host => exact absurd (List.mem_cons_of_mem _ List.mem_cons_self) hp
  | mem => exact ⟨rfl, fun _ => rfl⟩
  | xfers => exact ⟨rfl, rfl⟩
  | _ => rfl

theorem cancelXfer_stays (x : Nat) (s : State) : EndsStay s (cancelXfer x s) := by
  unfold cancelXfer
  split
  · exact .refl s
  next v _ =>
  dsimp only
  refine .trans ?_ (settleRecords_stays _)
  refine .trans ?_ (pumpXfer_stays x _)
  refine .trans ?_ (.of_frame (logEvent_reach _ _ _ _) rfl rfl)
  refine .trans ?_ (.of_frame (ps := [.net, .host]) (sameExcept_net_host _ _ _) rfl rfl)
  refine .trans (.forEach (m := fun p t => endPiece x p t) (endPiece_stays x) (openPieces v) s) ?_
  split
  · exact .trans (.of_frame (setXfer_reach _ _ _) rfl rfl) (startMov_stays _ _)
  · exact .refl _

theorem cancelAbroad_stays (i : Nat) (s : State) : EndsStay s (cancelAbroad i s) := by
  unfold cancelAbroad
  exact .forEach (m := fun (e : Nat × Xfer) t => cancelXfer e.1 t) (fun e => cancelXfer_stays e.1) _ s

/-! ### Posts, overruns and timeouts -/

theorem retireOp_core (p seq : Nat) (s : State) :
    getCore (retireOp p seq s) p = { getCore s p with window := (getCore s p).window.filter (fun q => q.seq != seq) } ∧
      OtherCores p s (retireOp p seq s) := by
  have dropped := setCore_otherCores s p { getCore s p with window := (getCore s p).window.filter (fun q => q.seq != seq) }
  unfold retireOp
  dsimp only
  split
  next i _ =>
    have kept := refreshBlocked_reach i (setCore s p { getCore s p with window := (getCore s p).window.filter (fun q => q.seq != seq) })
    refine ⟨(kept.getCore_eq rfl p).trans (getCore_setCore _ _ _), dropped.trans (kept.otherCores rfl p)⟩
  · exact ⟨getCore_setCore _ _ _, dropped⟩

/-- Settles O21: the POST leaves the window, and what it posts goes on from there. -/
theorem postsFireOnceTheirFenceHasCleared : Obligations.PostsFireOnceTheirFenceHasCleared := by
  intro core s p placed
  have ran : exec (.semPostFire core) s = .next (firePost p s) := by
    change Host.Outcome.next (onCore core.val firePost s) = _
    rw [onCore, placed]
  constructor
  · intro o oldest
    obtain ⟨retired, others⟩ := retireOp_core p o.seq s
    refine ⟨retireOp p o.seq s, ?_, congrArg Core.window retired, others, retireOp_reach p o.seq s⟩
    rw [ran, firePost, oldest]
  · intro fenced
    have none_ : (getCore s p).window.find? (fun o => opClass o.word == 4 && o.fence.all (fun n => (findOp (getCore s p) n).isNone)) = none := by
      rw [List.find?_eq_none]
      intro o listed clear
      obtain ⟨isPost, cleared⟩ := Bool.and_eq_true .. ▸ clear
      obtain ⟨n, fence, stands⟩ := fenced o listed (beq_iff_eq.1 isPost)
      have gone := List.all_eq_true.1 cleared n fence
      rw [Option.isNone_iff_eq_none] at gone
      rw [gone] at stands
      exact absurd stands nofun
    rw [ran, firePost, none_]

theorem recordFault_of_clear {p : Nat} {s : State} (clear : (getCore s p).fault.valid = false) (code cls addr : Nat) :
    (getCore (recordFault p code cls addr s) p).fault = { code := code, cls := cls, valid := true, addr := addr } := by
  rw [recordFault_core, clear]
  rfl

/-- An op that is late: its fault is recorded where none is, and its invocation ends LATE. -/
theorem lateOp_ends {s : State} {p i : Nat} {x : Invocation} (holds : (getCore s p).inv = some i) (stands : getInv s i = some x)
    (first : x.early = none) (granted : x.refused = false) (clear : (getCore s p).fault.valid = false) (addr cls beyond : Nat) :
    ∃ y, getInv (lateOp p addr cls beyond s) i = some y ∧ y.early = some (.late, 0x20) ∧
      (getCore (lateOp p addr cls beyond s) p).fault = { code := 0x20, cls := cls, valid := true, addr := addr } := by
  have eq : lateOp p addr cls beyond s = endEarly i .late 0x20 (logEvent .tileLate (islOfCore p) (leBytes 8 addr ++ leBytes 8 i ++ leBytes 4 beyond)
      (recordFault p 0x20 cls addr s)) := by rw [lateOp, holds, Option.getD_some]
  rw [eq]
  generalize before : logEvent .tileLate _ _ _ = t
  have there : getInv t i = some x := by subst before; exact stands
  have faulted : (getCore t p).fault = { code := 0x20, cls := cls, valid := true, addr := addr } := by
    subst before
    exact (congrArg Core.fault ((logEvent_reach _ _ _ _).getCore_eq rfl p)).trans (recordFault_of_clear clear 0x20 cls addr)
  obtain ⟨y, after, ended⟩ := endEarly_first .late 0x20 there first
  rw [granted] at ended
  exact ⟨y, after, ended, ((endEarly_stays i .late 0x20 t).faults p).trans faulted⟩

/-- Settles O22: whether an op is late, and what a late one ends. -/
theorem overrunsAndTimeoutsEndLate : Obligations.OverrunsAndTimeoutsEndLate := by
  intro core s p i x placed holds stands first granted clear
  dsimp only
  have ran (slot : Option (Fin 8)) : exec (.overrun core slot) s = .next (overrun (slot.map Fin.val) p s) := by
    change Host.Outcome.next (onCore core.val (overrun _) s) = _
    rw [onCore, placed]
  have waited : exec (.waitTimeout core) s = .next (waitTimeout p s) := by
    change Host.Outcome.next (onCore core.val waitTimeout s) = _
    rw [onCore, placed]
  have late (addr cls beyond : Nat) := lateOp_ends holds stands first granted clear addr cls beyond
  refine ⟨?started, ?within, ?atPc, ?timeout, ?unlimited⟩
  case started =>
    intro k o listed started standing unit passed
    obtain ⟨y, ended⟩ := late o.addr (opClass o.word) (cyclesOf (islTicks s (islOfCore p) - o.startedAt) -
      min (opBound o.word + o.extra) (if opClass o.word = 1 then o.count else opBound o.word + o.extra))
    refine ⟨_, y, (ran (some k)).trans (congrArg Host.Outcome.next ?_), ended⟩
    have isLate : (if opClass o.word = 0 then decide (opBound o.word + o.extra ≤ cyclesOf (islTicks s (islOfCore p) - o.startedAt)) else
        opClass o.word == 1 && (decide (opBound o.word + o.extra ≤ cyclesOf (islTicks s (islOfCore p) - o.startedAt)) ||
          decide (o.count < cyclesOf (islTicks s (islOfCore p) - o.startedAt)))) = true := by
      grind
    simp only [overrun, Option.map_some, listed]
    exact if_pos ⟨started, by rw [standing]; rfl, isLate⟩
  case within =>
    intro k o listed short inC
    rw [ran (some k)]
    simp only [overrun, Option.map_some, listed]
    refine congrArg Host.Outcome.next (if_neg ?_)
    rintro ⟨-, -, isLate⟩
    grind
  case atPc =>
    intro w since fetched open_ stalled unit valid busy
    constructor
    · intro passed
      obtain ⟨y, ended⟩ := late (getCore s p).pc (opClass w) (cyclesOf (islTicks s (islOfCore p) - since) - opBound w)
      refine ⟨_, y, (ran none).trans (congrArg Host.Outcome.next ?_), ended⟩
      simp only [overrun, Option.map_none, fetched, stalled]
      exact if_pos ⟨trivial, open_, rfl, unit, valid, by rw [busy]; rfl, passed⟩
    · intro short
      rw [ran none]
      simp only [overrun, Option.map_none, fetched, stalled]
      refine congrArg Host.Outcome.next (if_neg ?_)
      rintro ⟨-, -, -, -, -, -, passed⟩
      exact absurd short (Nat.not_lt.2 passed)
  case timeout =>
    intro w waits running limited passed
    obtain ⟨y, there, ended⟩ := endEarly_first (s := recordFault p 0x21 4 w.addr s) .late 0x21 stands first
    rw [granted] at ended
    have stays := cancelAbroad_stays i (endEarly i .late 0x21 (recordFault p 0x21 4 w.addr s))
    obtain ⟨z, after, still⟩ := stays.ends i y _ there ended
    refine ⟨_, z, waited.trans (congrArg Host.Outcome.next ?_), after, still, ?_⟩
    · simp only [waitTimeout, waits, holds]
      exact if_pos ⟨limited, passed, running⟩
    · rw [stays.faults p, (endEarly_stays i .late 0x21 _).faults p, recordFault_of_clear clear]
  case unlimited =>
    intro w waits unlimited
    rw [waited]
    simp [waitTimeout, waits, holds, unlimited]

end
end Sys2Proof.Machine
end
end

section
/-! SUPPORT. The sequencer around its ops: program blocks, stepping, the debug port and the end of an invocation (R50, R187, R205, R209, R221,
R360-R363), and the statements O23, O24 and O25. -/
section
namespace Sys2Proof.Machine

/-! ### Program blocks -/

/-- What `fetchBlock` does with a block that the core has not got, once its address is known. -/
theorem fetchBlock_of_new {s : State} {p i k : Nat} (errs : List HbmError) (flit : Option FlitError) (holds : (getCore s p).inv = some i)
    (running : (getCore s p).phase = .running) (going : (getCore s p).ended = false)
    (new : ∀ b ∈ (getCore s p).blocks, b.base ≠ blockBase (getCore s p).pc + 2048 * k) :
    fetchBlock k errs flit p s =
      (let base := blockBase (getCore s p).pc + 2048 * k
       let u := translate (engineOfPhys s p) (invContext s i) base s
       match u.1.bind (fun e => blockAddr u.2 e base) with
       | none => if k = 0 then endEarly i .segmentFault 0 u.2 else u.2
       | some a =>
         let cls := ((getInv u.2 i).map (·.cls)).getD 1
         if !hbmReady u.2 cls a 2048 || !errorOnWay flit (.stack (stackOf a)) (.core p) (clean (zeros 2048)) then u.2
         else
           let r := hbmRead (hbmTurn cls a 2048 u.2) (regionOf u.2 p) a 2048 errs
           let d := spoilFlit flit r.1 r.2
           prefetchOps p (updCore d.2 p (fun c => { c with blocks := keepBlocks c.pc (c.blocks ++
             [{ base := base, bytes := d.1.map (·.1), poison := (List.range 32).map (fun g => (d.1.getD (64 * g) (0, false)).2) }]) }))) := by
  have absent : (getCore s p).blocks.any (fun b => decide (b.base = blockBase (getCore s p).pc + 2048 * k)) = false :=
    List.any_eq_false.2 (fun b listed => by simp [new b listed])
  unfold fetchBlock
  simp only [holds, running, going, absent]
  rw [if_neg (by simp)] <;> rfl

theorem keepBlocks_new {pc k : Nat} (ahead : k < 4) (l : List Block) {b : Block} (base : b.base = blockBase pc + 2048 * k) :
    b ∈ keepBlocks pc (l ++ [b]) := by
  refine List.mem_append_left _ (List.mem_filter.2 ⟨List.mem_append_right _ (List.mem_singleton.2 rfl), ?_⟩)
  rw [base, decide_eq_true (Nat.le_add_right _ _), decide_eq_true (by omega)]
  rfl

/-- Settles O23: the translation leaves all but the engine's cache, and what the read returns is a block of its own. -/
theorem programBlocksArriveFromHbm : Obligations.ProgramBlocksArriveFromHbm := by
  intro core ahead errs flit s p i placed holds running going base u cls new
  have ran : exec (.blockFetchDone core ahead ⟨errs, flit⟩) s = .next (fetchBlock ahead.val errs flit p s) := by
    change Host.Outcome.next (onCore core.val (fetchBlock _ _ _) s) = _
    rw [onCore, placed]
  have looked : SameExcept [.seg] s u.2 := translate_reach _ _ _ s
  have region : regionOf u.2 p = regionOf s p := by
    have part : partOf u.2 = partOf s := funext fun l => by rw [partOf, partOf, looked.blend_eq rfl]
    rw [regionOf, regionOf, partOfPhys, partOfPhys, logicalOf, logicalOf, looked.blend_eq rfl, part]
  have inv : getInv u.2 i = getInv s i := looked.getInv_eq rfl i
  rw [ran, fetchBlock_of_new errs flit holds running going new]
  constructor
  · intro e a granted placed_ due r d
    have found : u.1.bind (fun e => blockAddr u.2 e base) = some a := by rw [granted]; exact placed_
    have isDue : (!hbmReady u.2 cls a 2048 || !errorOnWay flit (.stack (stackOf a)) (.core p) (clean (zeros 2048))) = !due :=
      (Bool.not_and _ _).symm
    dsimp only
    rw [found]
    dsimp only
    rw [inv, region, isDue]
    constructor
    · intro isDue
      rw [isDue]
      have same : getCore (spoilFlit flit r.1 r.2).2 p = getCore s p :=
        ((spoilFlit_reach _ _ _).getCore_eq rfl p).trans (((hbmRead_reach _ _ _ _ _).getCore_eq rfl p).trans
          (((hbmTurn_reach _ _ _ _).getCore_eq rfl p).trans (looked.getCore_eq rfl p)))
      let b : Block := { base := base, bytes := d.map (·.1), poison := (List.range 32).map (fun g => (d.getD (64 * g) (0, false)).2) }
      let held := updCore (spoilFlit flit r.1 r.2).2 p (fun c => { c with blocks := keepBlocks c.pc (c.blocks ++ [b]) })
      have after : getCore (prefetchOps p held) p =
          { getCore s p with blocks := keepBlocks (getCore s p).pc ((getCore s p).blocks ++ [b]) } := by
        rw [(prefetchOps_reach p held).getCore_eq rfl, getCore_updCore, same]
      refine ⟨prefetchOps p held, b, rfl, ?_, rfl, rfl, rfl, ?_, ?_⟩
      · rw [after]
        exact keepBlocks_new ahead.isLt _ rfl
      · rw [after]
      · rw [after]
    · intro notDue
      rw [notDue]
      rfl
  · intro refused
    dsimp only
    rw [refused]
    refine ⟨fun later => if_neg (Nat.pos_iff_ne_zero.1 later) ▸ rfl, fun here x stands first => ?_⟩
    obtain ⟨y, after, ended⟩ := endEarly_first .segmentFault 0 (inv.trans stands) first
    exact ⟨_, y, congrArg Host.Outcome.next (if_pos here), after, ended.trans (by split <;> rfl)⟩

/-! ### Stepping and the debug port -/

theorem whenReached_no {s : State} {who : Agent} (absent : reaches s who = false) (f : State → State) : whenReached who f s = s := by
  simp [whenReached, absent]

theorem whenReached_yes {s : State} {who : Agent} (there : reaches s who = true) (f : State → State) : whenReached who f s = f s := by
  simp [whenReached, there]

theorem debugRead_of_allowed {s : State} {a : Agent} {p : Nat} (allowed : mayPeek s a p = true) (at_ n : Nat) :
    debugRead a p at_ n s = answer (scrBytes s p (8 * (getCore s p).dbgWord + at_) n)
      (setCore s p { getCore s p with dbgPoison := scrPoisoned s p (8 * (getCore s p).dbgWord) 8, dbgWord := ((getCore s p).dbgWord + 1) % 524288 }) := by
  simp [debugRead, allowed]

theorem debugRead_of_refused {s : State} {a : Agent} {p : Nat} (refused : mayPeek s a p = false) (at_ n : Nat) :
    debugRead a p at_ n s = { s with answers := s.answers ++ [zeros n] } := by
  simp [debugRead, refused, answer]

/-- What an allowed read of the debug port leaves. -/
theorem debugRead_leaves {s : State} {a : Agent} {p : Nat} (allowed : mayPeek s a p = true) (at_ n : Nat) :
    (debugRead a p at_ n s).answers = s.answers ++ [scrBytes s p (8 * (getCore s p).dbgWord + at_) n] ∧
    (getCore (debugRead a p at_ n s) p).dbgWord = ((getCore s p).dbgWord + 1) % 524288 ∧
    (getCore (debugRead a p at_ n s) p).dbgPoison = scrPoisoned s p (8 * (getCore s p).dbgWord) 8 ∧
    OtherCores p s (debugRead a p at_ n s) ∧ SameExcept [.cores, .answers] s (debugRead a p at_ n s) := by
  rw [debugRead_of_allowed allowed]
  have set := setCore_otherCores s p { getCore s p with
    dbgPoison := scrPoisoned s p (8 * (getCore s p).dbgWord) 8, dbgWord := ((getCore s p).dbgWord + 1) % 524288 }
  refine ⟨rfl, congrArg Core.dbgWord (getCore_setCore s p _), congrArg Core.dbgPoison (getCore_setCore s p _), set, ?_⟩
  exact (answer_reach _ _).step rfl ((setCore_reach _ _ _).weaken rfl)

/-- A MAT or VEC op issues to its place in the window, and leaves `HALT` as it is. -/
theorem issueOp_of_mat_or_vec {s : State} {p : Nat} {w : Bits256} (unit : opClass w < 2) :
    Placed s (issueOp p w s) p w false ∧ (getCore (issueOp p w s) p).halt = (getCore s p).halt ∧ OtherCores p s (issueOp p w s) ∧
      SameExcept [.cores, .seg] s (issueOp p w s) := by
  have after := issueOp_after (p := p) (w := w) s (by omega)
  obtain ⟨o, pushed, -⟩ := getCore_pushOp p w false s
  have halted : (getCore (pushOp p w false s) p).halt = (getCore s p).halt := by rw [pushed]
  obtain cls | cls : opClass w = 0 ∨ opClass w = 1 := by omega
  · obtain ⟨placed, -, -, others, reach⟩ := issueOp_of_mat (s := s) (p := p) cls
    rw [issueClass_of_mat p s cls] at after
    have core := after.1
    rw [getCore_updCore] at core
    exact ⟨placed, (congrArg Core.halt core).trans halted, others, reach⟩
  · rw [issueClass_of_vec p s cls] at after
    have core := after.1
    exact ⟨placed_of_pushed (by rw [core]) (by rw [core]) (by rw [core]), (congrArg Core.halt core).trans halted,
      after.otherCores (pushOp_otherCores p w false s), after.frame ((pushOp_reach _ _ _ _).weaken rfl) rfl⟩

theorem issueAt_of_stepped {s : State} {p : Nat} {w : Bits256} (open_ : canIssue (getCore s p) true = true)
    (fetched : opAt (getCore s p) (getCore s p).pc = some (w, false)) (valid : opChecks s p (getCore s p) w = none) (unit : opClass w < 2) :
    issueAt p true (fun _ => true) s = issueOp p w s := by
  have takes : unitTakes s p (getCore s p) w = true := by
    obtain cls | cls : opClass w = 0 ∨ opClass w = 1 := by omega
    · simp [unitTakes, cls]
    · simp [unitTakes, cls]
  simp [issueAt, open_, fetched, valid, takes]

/-- Settles O25. -/
theorem steppingAndTheDebugPort : Obligations.SteppingAndTheDebugPort := by
  intro agent core halt half s
  have stepped : exec (.seqStepStep agent core halt) s = .next (whenReached agent (stepCore core.val halt) s) := rfl
  have halted : exec (.seqStepHalt agent core halt) s = .next (whenReached agent (haltCore core.val halt) s) := rfl
  refine ⟨?barred, ?acts, ?reads⟩
  case barred =>
    rintro (absent | barred)
    · exact ⟨stepped.trans (congrArg _ (whenReached_no absent _)), halted.trans (congrArg _ (whenReached_no absent _))⟩
    · have nothing : stepCore core.val halt s = s ∧ haltCore core.val halt s = s := by simp [stepCore, haltCore, barred]
      rw [stepped, halted, whenReached, whenReached, nothing.1, nothing.2, ite_self]
      exact ⟨rfl, rfl⟩
  case acts =>
    intro there enabled
    dsimp only
    rw [stepped, halted, whenReached_yes there, whenReached_yes there]
    refine ⟨?_, ?_, ?_⟩
    · simp [haltCore, enabled, updCore]
    · rintro rfl
      simp [stepCore, enabled, updCore]
    · rintro w rfl open_ fetched valid unit
      have set : SameExcept [.cores, .seg] s (setCore s core.val { getCore s core.val with halt := true }) := (setCore_reach _ _ _).weaken rfl
      have core_eq := getCore_setCore s core.val { getCore s core.val with halt := true }
      obtain ⟨⟨pc, seq, o, window, op⟩, halts, others, reach⟩ := issueOp_of_mat_or_vec (p := core.val)
        (s := setCore s core.val { getCore s core.val with halt := true }) unit
      rw [core_eq] at pc seq window halts op
      refine ⟨_, congrArg Host.Outcome.next ?_, ⟨pc, seq, o, window, op⟩, halts, (setCore_otherCores _ _ _).trans others, set.trans reach⟩
      rw [stepCore, if_neg (by simp [enabled]), if_pos rfl]
      exact issueAt_of_stepped open_ fetched valid unit
  case reads =>
    cases half with
    | none =>
      have ran : exec (.dbgScrDataRead agent ⟨core, none⟩) s = .next (whenReached agent (debugRead agent core.val 0 8) s) := rfl
      refine ⟨fun absent => ?_, fun there refused => ?_, fun there allowed => ?_⟩
      · rw [ran, whenReached_no absent]
      · rw [ran, whenReached_yes there, debugRead_of_refused refused]
      · rw [ran, whenReached_yes there]
        exact ⟨_, rfl, debugRead_leaves allowed 0 8⟩
    | some h =>
      have ran : exec (.dbgScrDataRead agent ⟨core, some h⟩) s = .next (whenReached agent (debugRead agent core.val (4 * h.val) 4) s) := rfl
      refine ⟨fun absent => ?_, fun there refused => ?_, fun there allowed => ?_⟩
      · rw [ran, whenReached_no absent]
      · rw [ran, whenReached_yes there, debugRead_of_refused refused]
      · rw [ran, whenReached_yes there]
        exact ⟨_, rfl, debugRead_leaves allowed (4 * h.val) 4⟩

/-! ### The end of an invocation -/

theorem sameExcept_qs (s : State) (x : QueueSide) : SameExcept [.qs] s { s with qs := x } := by
  intro p hp
  cases p with
  | qs => exact absurd List.mem_cons_self hp
  | mem => exact ⟨rfl, fun _ => rfl⟩
  | xfers => exact ⟨rfl, rfl⟩
  | _ => rfl

section
variable {s t u : State}

/-- The queues of work stand as they are. -/
def QueuesStand (s t : State) : Prop := t.qs.queues = s.qs.queues

theorem QueuesStand.trans (h : QueuesStand s t) (h' : QueuesStand t u) : QueuesStand s u := Eq.trans h' h

theorem QueuesStand.forEach {α : Type} {m : α → State → State} (each : ∀ a t, QueuesStand t (m a t)) :
    ∀ (l : List α) (t : State), QueuesStand t (forEach l m t)
  | [], _ => rfl
  | a :: l, t => (each a t).trans (QueuesStand.forEach each l (m a t))

theorem SameExcept.queuesStand {ps : List Part} (h : SameExcept ps s t) (kept : ps.contains .qs = false) : QueuesStand s t :=
  congrArg QueueSide.queues (h.qs_eq kept)

theorem refreshBlocked_queues (i : Nat) (s : State) : QueuesStand s (refreshBlocked i s) := by
  unfold refreshBlocked updInv
  split
  · exact rfl
  · exact rfl

theorem grantTo_queues (w : Waiter) (s : State) : QueuesStand s (grantTo w s) := by
  cases w with
  | core p n =>
    rw [grantTo]
    split
    · exact refreshBlocked_queues _ _
    · exact rfl
  | stream => exact rfl
  | grinder => exact rfl

theorem semSettle_queues (i v : Nat) (l : List Waiter) (s : State) : QueuesStand s (semSettle i v l s) :=
  QueuesStand.forEach grantTo_queues _ _

theorem forEach_establishes {α β : Type} {m : α → β → β} {P : α → β → Prop} (makes : ∀ a t, P a (m a t)) (keeps : ∀ a b t, P a t → P a (m b t)) :
    ∀ (l : List α) (t : β), ∀ a ∈ l, P a (forEach l m t)
  | b :: l, t, a, listed => by
    have kept : ∀ (l : List α) (t : β), P a t → P a (Machine.forEach l m t) := by
      intro l
      induction l with
      | nil => exact fun _ h => h
      | cons c l ih => exact fun t h => ih _ (keeps a c t h)
    rcases List.mem_cons.1 listed with rfl | later
    · exact kept l _ (makes a t)
    · exact forEach_establishes makes keeps l _ a later

/-- What the end of an invocation needs of the links that it stops and resets: the cores keep their invocations, and the queues stand. -/
structure LinksStop (s t : State) : Prop where
  holds : CoresKeep Core.inv s t
  queues : QueuesStand s t
  reach : SameExcept [.log, .isl, .qs, .sems, .cores, .links, .grinders] s t

theorem LinksStop.trans (h : LinksStop s t) (h' : LinksStop t u) : LinksStop s u :=
  ⟨h.holds.trans h'.holds, h.queues.trans h'.queues, h.reach.trans h'.reach⟩

theorem LinksStop.forEach {α : Type} {m : α → State → State} (each : ∀ a t, LinksStop t (m a t)) :
    ∀ (l : List α) (t : State), LinksStop t (forEach l m t)
  | [], t => ⟨.refl _ t, rfl, .refl _ t⟩
  | a :: l, t => (each a t).trans (LinksStop.forEach each l (m a t))

theorem stopStreams_stops (l : Nat) (s : State) : LinksStop s (stopStreams l s) := by
  have dropped : CoresKeep Core.inv s (dropChunkTake l s) ∧ QueuesStand s (dropChunkTake l s) := by
    rw [dropChunkTake]
    split
    · exact ⟨.refl _ s, rfl⟩
    · exact ⟨semSettle_coresKeep (fun _ _ _ => rfl) _ _ _ s, semSettle_queues _ _ _ s⟩
  exact ⟨dropped.1, dropped.2, (stopStreams_reach l s).weaken rfl⟩

theorem stopStreams_chunks (l : Nat) (s : State) : LinksKeep LinkRun.chunks s (stopStreams l s) :=
  (dropChunkTake_linksKeep (fun _ _ _ => rfl) l s).trans (.setLink rfl)

/-- A reset of a link up to its positions: it is logged, its grinders' ends start anew, and its semaphores have their start values (R221). -/
def resetLinkSemaphores (l : Nat) (d : LinkDef) (s : State) : State :=
  semSet (l / 4096 * 65536 + d.semEmpty) (d.ringKib * 16) (semSet (l / 4096 * 65536 + d.semFull) 0
    (resetEnds l d (logEvent .linkReset (islIx (l / 4096) 106)
      (leBytes 2 (l % 4096) ++ leBytes 4 (d.ringKib * 16 - (getSem s (l / 4096 * 65536 + d.semEmpty)).value)) s)))

theorem resetLink_eq (l : Nat) (d : LinkDef) (s : State) : resetLink l d s = setLink (resetLinkSemaphores l d s) l linkRunReset := rfl

theorem resetLinkSemaphores_before (l : Nat) (d : LinkDef) (s : State) : ∃ t, SameExcept [.log, .grinders] s t ∧
    resetLinkSemaphores l d s = semSet (l / 4096 * 65536 + d.semEmpty) (d.ringKib * 16) (semSet (l / 4096 * 65536 + d.semFull) 0 t) :=
  ⟨_, (resetEnds_reach l d _).step rfl ((logEvent_reach _ _ _ _).weaken rfl), rfl⟩

theorem resetLink_stops (l : Nat) (d : LinkDef) (s : State) : LinksStop s (resetLink l d s) := by
  obtain ⟨t, before, eq⟩ := resetLinkSemaphores_before l d s
  refine ⟨?_, ?_, (resetLink_reach l d s).weaken rfl⟩
  · have sems : CoresKeep Core.inv s (resetLinkSemaphores l d s) := eq ▸
      (before.coresKeep rfl).trans ((semSettle_coresKeep (fun _ _ _ => rfl) _ _ _ _).trans (semSettle_coresKeep (fun _ _ _ => rfl) _ _ _ _))
    exact sems
  · have sems : QueuesStand s (resetLinkSemaphores l d s) := eq ▸
      (before.queuesStand rfl).trans ((semSettle_queues _ _ _ _).trans (semSettle_queues _ _ _ _))
    exact sems

theorem resetLinkSemaphores_links (l : Nat) (d : LinkDef) (s : State) :
    LinksKeep (fun r => (r.active, r.pending, r.position)) s (resetLinkSemaphores l d s) := by
  obtain ⟨t, before, eq⟩ := resetLinkSemaphores_before l d s
  exact eq ▸ (before.linksKeep rfl).trans ((semSettle_linksKeep (fun _ _ _ => rfl) _ _ _ _).trans (semSettle_linksKeep (fun _ _ _ => rfl) _ _ _ _))

/-- A link with no stream, at the start of its ring. -/
def AtStart (l : Nat) (s : State) : Prop := (getLink s l).active = none ∧ (getLink s l).pending = none ∧ (getLink s l).position = 0

theorem resetLink_atStart (l : Nat) (d : LinkDef) (s : State) : AtStart l (resetLink l d s) := by
  rw [AtStart, resetLink_eq, getLink_setLink]
  exact ⟨rfl, rfl, rfl⟩

theorem AtStart.resetLink {l : Nat} (h : AtStart l s) (k : Nat) (d : LinkDef) : AtStart l (resetLink k d s) := by
  by_cases same : l = k
  · exact same ▸ resetLink_atStart l d s
  · have eq := resetLinkSemaphores_links k d s l
    simp only [Prod.mk.injEq] at eq
    obtain ⟨active, pending, position⟩ := eq
    rw [AtStart, resetLink_eq, getLink_setLink_ne _ _ same]
    exact ⟨active.trans h.1, pending.trans h.2.1, position.trans h.2.2⟩

/-- A core that holds no invocation and has no op in its window. -/
def CoreFree (p : Nat) (s : State) : Prop := (getCore s p).inv = none ∧ (getCore s p).phase = .idle ∧ (getCore s p).window = []

theorem freeCore_frees (early : Bool) (p : Nat) (s : State) : CoreFree p (freeCore early p s) := by
  have kept (c : Core) : (keepIssued c).inv = c.inv ∧ (keepIssued c).phase = c.phase ∧ (keepIssued c).window = c.window := by
    unfold keepIssued
    split <;> exact ⟨rfl, rfl, rfl⟩
  rw [CoreFree, freeCore, getCore_updCore]
  exact ⟨(kept _).1, (kept _).2.1, (kept _).2.2⟩

theorem CoreFree.freeCore {p : Nat} (h : CoreFree p s) (early : Bool) (q : Nat) : CoreFree p (freeCore early q s) := by
  by_cases same : p = q
  · exact same ▸ freeCore_frees early p s
  · rw [CoreFree, Machine.freeCore, getCore_updCore_ne _ _ same, (updIsl_reach _ _ _).getCore_eq rfl]
    exact h

/-- What `f` reads of each queue is in `t` what it was in `s`. -/
def QsKeep {β : Type} (f : QueueState → β) (s t : State) : Prop := ∀ q, f (getQ t q) = f (getQ s q)

theorem QsKeep.trans {β : Type} {f : QueueState → β} (h : QsKeep f s t) (h' : QsKeep f t u) : QsKeep f s u := fun q => (h' q).trans (h q)

theorem QsKeep.updQ {β : Type} {f : QueueState → β} {q : Nat} {m : QueueState → QueueState} (same : ∀ x, f (m x) = f x) : QsKeep f s (updQ s q m) := by
  intro k
  by_cases here : k = q
  · rw [here, Machine.updQ, getQ_setQ, same]
  · rw [Machine.updQ, getQ_setQ_ne _ _ here]

theorem QsKeep.forEach {α β : Type} {f : QueueState → β} {m : α → State → State} (each : ∀ a t, QsKeep f t (m a t)) :
    ∀ (l : List α) (t : State), QsKeep f t (forEach l m t)
  | [], _ => fun _ => rfl
  | a :: l, t => (each a t).trans (QsKeep.forEach each l (m a t))

theorem SameExcept.qsKeep {β : Type} {f : QueueState → β} {ps : List Part} (h : SameExcept ps s t) (kept : ps.contains .qs = false) : QsKeep f s t :=
  fun q => congrArg f (h.getQ_eq kept q)

theorem settleRelease_keeps {β : Type} {f : QueueState → β} (blind : ∀ x, f { x with enable := false, staged := [], mailed := [] } = f x) (h : Nat)
    (s : State) : QsKeep f s (settleRelease h s) ∧ InvsKeep id s (settleRelease h s) := by
  have closed (l : List Nat) (m : QueueState → QueueState) (same : ∀ y, f (m y) = f y) :
      QsKeep f s (forEach l (fun q t => updQ t q m) s) ∧ InvsKeep id s (forEach l (fun q t => updQ t q m) s) :=
    ⟨.forEach (fun _ _ => .updQ same) l s, .forEach (m := fun q t => updQ t q m) (fun _ _ _ => rfl) l s⟩
  have host (t : State) (m : HostState → HostState) (kept : QsKeep f s t ∧ InvsKeep id s t) :
      QsKeep f s (updHost t h m) ∧ InvsKeep id s (updHost t h m) :=
    ⟨kept.1.trans ((updHost_reach t h m).qsKeep rfl), kept.2.trans ((updHost_reach t h m).invsKeep rfl)⟩
  unfold settleRelease
  dsimp only
  split
  · exact ⟨fun _ => rfl, .refl _ s⟩
  · exact host _ _ (closed _ _ blind)

theorem settleHosts_keeps {β : Type} {f : QueueState → β} (blind : ∀ x, f { x with enable := false, staged := [], mailed := [] } = f x) (s : State) :
    QsKeep f s (settleHosts s) ∧ InvsKeep id s (settleHosts s) := by
  have losses : SameExcept [.log, .host] s (settleLoss 1 (settleLoss 0 s)) := (settleLoss_reach 1 (settleLoss 0 s)).step rfl ((settleLoss_reach 0 s).weaken rfl)
  have first := settleRelease_keeps blind 0 (settleLoss 1 (settleLoss 0 s))
  have second := settleRelease_keeps blind 1 (settleRelease 0 (settleLoss 1 (settleLoss 0 s)))
  exact ⟨(losses.qsKeep rfl).trans (first.1.trans second.1), (losses.invsKeep rfl).trans (first.2.trans second.2)⟩

theorem dropLost_of_present {q : Nat} (present : ∀ h, queueHost s q = some h → (getHost s h).cond ≠ .lost) : dropLost q s = s := by
  unfold dropLost
  split
  · rfl
  next h host => exact if_pos (.inl (present h host))

theorem addReceipt_due (r : Receipt) (s : State) : ∃ more, (getQ (addReceipt r s) r.queue).due = (getQ s r.queue).due ++ [r] ++ more ∧
    ∀ f ∈ more, f.invocation = 0 ∧ f.status = .ok := by
  refine ⟨_, by rw [addReceipt, updQ, getQ_setQ], ?_⟩
  intro f listed
  obtain ⟨w, _, rfl⟩ := List.mem_map.1 listed
  exact ⟨rfl, rfl⟩

/-- The receipt of an invocation whose host is there stands at its queue, behind what was due there before. -/
theorem receipt_delivered {r : Receipt} (present : ∀ h, queueHost s r.queue = some h → (getHost s h).cond ≠ .lost) :
    (∃ more, (getQ (settleHosts (dropLost r.queue (addReceipt r s))) r.queue).due = (getQ s r.queue).due ++ [r] ++ more ∧
      ∀ f ∈ more, f.invocation = 0 ∧ f.status = .ok) ∧
    (∀ i, getInv s i = none → getInv (settleHosts (dropLost r.queue (addReceipt r s))) i = none) ∧
    SameExcept [.log, .host, .qs] s (settleHosts (dropLost r.queue (addReceipt r s))) := by
  have same : dropLost r.queue (addReceipt r s) = addReceipt r s := dropLost_of_present present
  rw [same]
  obtain ⟨due, invs⟩ := settleHosts_keeps (f := QueueState.due) (fun _ => rfl) (addReceipt r s)
  obtain ⟨more, added, fences⟩ := addReceipt_due r s
  refine ⟨⟨more, (due r.queue).trans added, fences⟩, fun i gone => ?_, (settleHosts_reach _).step rfl ((addReceipt_reach r s).weaken rfl)⟩
  have eq := invs i
  rw [Option.map_id_fun, id_eq, id_eq] at eq
  exact eq.trans gone

theorem residentOn_eq (holds : CoresKeep Core.inv s t) (blend : t.blend = s.blend) (i : Nat) (x : Invocation) : residentOn t i x = residentOn s i x := by
  have phys : physOf t = physOf s := funext fun l => by rw [physOf, physOf, blend]
  rw [residentOn, residentOn, invPhys, invPhys, phys]
  exact List.filter_congr fun p _ => by rw [holds p]

/-- The links of an invocation's cores that its end resets: where it ended early, or one of its accesses was refused. -/
def linksEnding (s : State) (x : Invocation) : List (Nat × LinkDef) := if x.early.isSome || x.refused then linksOn s x.cores else []

/-- The state in which an ending invocation's links have been stopped and reset, before its cores are freed. -/
def linksEnded (s : State) (x : Invocation) : State :=
  forEach (linksEnding s x) (fun e t => resetLink e.1 e.2 t) (forEach (linksEnding s x) (fun e t => stopStreams e.1 t) s)

theorem linksEnded_stops (s : State) (x : Invocation) : LinksStop s (linksEnded s x) :=
  (LinksStop.forEach (m := fun (e : Nat × LinkDef) t => stopStreams e.1 t) (fun e t => stopStreams_stops e.1 t) _ s).trans
    (LinksStop.forEach (m := fun (e : Nat × LinkDef) t => resetLink e.1 e.2 t) (fun e t => resetLink_stops e.1 e.2 t) _ _)

theorem linksEnded_atStart (s : State) (x : Invocation) : ∀ e ∈ linksEnding s x, AtStart e.1 (linksEnded s x) :=
  forEach_establishes (P := fun (e : Nat × LinkDef) t => AtStart e.1 t) (fun e t => resetLink_atStart e.1 e.2 t)
    (fun _ e _ h => h.resetLink e.1 e.2) _ _

/-- The invocation's cores are free, what it reloaded and its save slot are gone, and it is listed no more. -/
def invocationFreed (i : Nat) (x : Invocation) (s : State) : State :=
  let s := forEach (residentOn s i x) (fun p t => freeCore (x.early.isSome || x.refused) p t) s
  let s := forEach (xfersOfInv s i) (fun e t => match e.2.owner with | .reload _ => delXfer t e.1 | _ => t) s
  let s := freeSlot x.partition x.slot i s
  { s with qs := { s.qs with invs := tabDel s.qs.invs i, savedCores := tabDel s.qs.savedCores i } }

theorem finishInv_of_settled {i : Nat} {x : Invocation} (stands : getInv s i = some x) (settled : invSettled s i x = true)
    (landed : ∀ e ∈ linksEnding s x, (getLink s e.1).chunks = []) :
    finishInv i s = settleHosts (dropLost x.queue (addReceipt (invReceipt (invocationFreed i x (linksEnded s x)) i x)
      (invocationFreed i x (linksEnded s x)))) := by
  have kept := LinksKeep.forEach (m := fun (e : Nat × LinkDef) t => stopStreams e.1 t) (fun e t => stopStreams_chunks e.1 t) (linksEnding s x) s
  have none_left : (linksEnding s x).any (fun e => (getLink (forEach (linksEnding s x) (fun e t => stopStreams e.1 t) s) e.1).chunks != []) = false := by
    refine List.any_eq_false.2 fun e listed => ?_
    rw [kept e.1, landed e listed]
    decide
  unfold finishInv
  rw [stands]
  dsimp only
  rw [if_neg (by rw [settled]; decide)]
  exact if_neg (by rw [← linksEnding, none_left]; decide)

/-- What the freeing leaves: the invocation is listed no more, its cores are free, and the queues stand. -/
theorem invocationFreed_leaves (i : Nat) (x : Invocation) (s : State) : getInv (invocationFreed i x s) i = none ∧
    (∀ p ∈ residentOn s i x, CoreFree p (invocationFreed i x s)) ∧ QueuesStand s (invocationFreed i x s) ∧
    SameExcept [.isl, .xfers, .qs, .cores] s (invocationFreed i x s) := by
  have freed := forEach_establishes (P := CoreFree) (m := freeCore (x.early.isSome || x.refused)) (fun p t => freeCore_frees _ p t)
    (fun p q t h => h.freeCore _ q) (residentOn s i x) s
  have cores : SameExcept [.isl, .cores] s (forEach (residentOn s i x) (fun p t => freeCore (x.early.isSome || x.refused) p t) s) :=
    .forEach (fun p t => freeCore_reach _ p t) _ (.refl _ s)
  have queues : QueuesStand s (forEach (residentOn s i x) (fun p t => freeCore (x.early.isSome || x.refused) p t) s) := cores.queuesStand rfl
  unfold invocationFreed
  dsimp only
  generalize forEach (residentOn s i x) (fun p t => freeCore (x.early.isSome || x.refused) p t) s = t at freed cores queues
  have reloads : SameExcept [.xfers] t (forEach (xfersOfInv t i) (fun e t => match e.2.owner with | .reload _ => delXfer t e.1 | _ => t) t) := by
    refine .forEach (fun e u => ?_) _ (.refl _ t)
    split
    · exact delXfer_reach u e.1
    · exact .refl _ u
  generalize forEach (xfersOfInv t i) (fun e t => match e.2.owner with | .reload _ => delXfer t e.1 | _ => t) t = u at reloads
  have slot : QueuesStand u (freeSlot x.partition x.slot i u) := by
    unfold freeSlot
    split
    · exact rfl
    · exact rfl
  have last : SameExcept [.isl, .xfers, .qs, .cores] s (freeSlot x.partition x.slot i u) :=
    (freeSlot_reach _ _ _ u).step rfl (reloads.step rfl (cores.weaken rfl))
  have kept (p : Nat) : getCore (freeSlot x.partition x.slot i u) p = getCore t p :=
    ((freeSlot_reach _ _ _ u).getCore_eq rfl p).trans (reloads.getCore_eq rfl p)
  generalize freeSlot x.partition x.slot i u = v at slot last kept
  refine ⟨tabFind_tabDel_same _ _, fun p listed => ?_, (queues.trans (reloads.queuesStand rfl)).trans slot, ?_⟩
  · have free := freed p listed
    rw [CoreFree, ← kept p] at free
    exact free
  · exact (sameExcept_qs v _).step rfl last

/-- The status that a receipt reports, in the order of R360. -/
theorem invStatus_cases (x : Invocation) :
    (∀ e, x.early = some e → invStatus x = e) ∧
    (x.early = none → x.refused = true → invStatus x = (.segmentFault, 0)) ∧
    (x.early = none → x.refused = false →
      (x.sizeFault = true → invStatus x = (.sizeFault, 0)) ∧
      (x.sizeFault = false → x.versionRetired = true → invStatus x = (.versionRetired, 0)) ∧
      (x.sizeFault = false → x.versionRetired = false → (0 < x.poisoned ∨ x.satPoison = true) → invStatus x = (.okPoisoned, 0)) ∧
      (x.sizeFault = false → x.versionRetired = false → x.poisoned = 0 → x.satPoison = false → 0 < x.replays → invStatus x = (.okReplayed, 0)) ∧
      (x.sizeFault = false → x.versionRetired = false → x.poisoned = 0 → x.satPoison = false → x.replays = 0 →
        invStatus x = (if x.switches = 0 then .ok else .preemptResumed, 0))) := by
  refine ⟨fun e ended => by rw [invStatus, ended], fun going refused => by rw [invStatus, going, refused]; rfl,
    fun going granted => ⟨?_, ?_, ?_, ?_, ?_⟩⟩
  · intro size
    simp [invStatus, going, granted, size]
  · intro size version
    simp [invStatus, going, granted, size, version]
  · intro size version poisoned
    have saturated : x.poisoned ≠ 0 ∨ x.satPoison = true := poisoned.imp_left Nat.pos_iff_ne_zero.1
    simp only [invStatus, going, granted, size, version, if_pos saturated]
    rfl
  · intro size version clean exact_ replayed
    simp [invStatus, going, granted, size, version, clean, exact_, Nat.pos_iff_ne_zero.1 replayed]
  · intro size version clean exact_ plain
    simp [invStatus, going, granted, size, version, clean, exact_, plain, ite_not]

/-- Settles O24: the links that it resets, the cores and the slot that it frees, and the receipt, part by part. -/
theorem invocationsEndWithTheirReceipt : Obligations.InvocationsEndWithTheirReceipt := by
  refine ⟨fun i s x stands settled present landed => ?_, invStatus_cases⟩
  have ran : exec (.invocationEnd i) s = .next (finishInv i s) := rfl
  have stops := linksEnded_stops s x
  obtain ⟨gone, free, queues, freed⟩ := invocationFreed_leaves i x (linksEnded s x)
  have start := linksEnded_atStart s x
  rw [residentOn_eq stops.holds (stops.reach.blend_eq rfl)] at free
  have whole : SameExcept [.log, .isl, .xfers, .qs, .sems, .cores, .links, .grinders] s (invocationFreed i x (linksEnded s x)) :=
    freed.step rfl (stops.reach.weaken rfl)
  have hosts : (invocationFreed i x (linksEnded s x)).host = s.host := whole.host_eq rfl
  have time : (invocationFreed i x (linksEnded s x)).devTime = s.devTime := whole.devTime_eq rfl
  have queue (q : Nat) : getQ (invocationFreed i x (linksEnded s x)) q = getQ s q := by
    rw [getQ, getQ, stops.queues.trans queues]
  have links (l : Nat) : getLink (invocationFreed i x (linksEnded s x)) l = getLink (linksEnded s x) l := freed.getLink_eq rfl l
  have ended := finishInv_of_settled stands settled (by
    intro e listed
    unfold linksEnding at listed
    split at listed
    · next early =>
      refine landed.elim (fun h => ?_) (fun h => h e listed)
      rw [h.1, h.2] at early
      exact absurd early (by decide)
    · exact absurd listed List.not_mem_nil)
  generalize invocationFreed i x (linksEnded s x) = u at gone free whole hosts time queue links ended
  have delivered := receipt_delivered (r := invReceipt u i x) (s := u) (fun h claimed => by
    rw [getHost, hosts]
    refine present h ?_
    rw [queueHost, ← hosts]
    exact claimed)
  obtain ⟨⟨more, due, fences⟩, later, (reach : SameExcept _ u (settleHosts (dropLost x.queue (addReceipt (invReceipt u i x) u))))⟩ := delivered
  refine ⟨_, invReceipt u i x, more, ran.trans (congrArg _ ended), later i gone, ?_, fences, rfl, rfl, rfl, rfl, rfl, time, rfl, rfl, rfl, rfl, rfl,
    fun p listed => ?_, fun early e listed => ?_, exec_reach_of_next (ran.trans (congrArg _ ended))⟩
  · rw [← queue x.queue]
    exact due
  · rw [reach.getCore_eq rfl]
    exact free p listed
  · rw [reach.getLink_eq rfl, links]
    refine start e ?_
    rw [linksEnding, if_pos]
    · exact listed
    · rw [Option.isSome_iff_ne_none.2 early]
      rfl

end
end Sys2Proof.Machine
end
end

section
/-! SUPPORT. Gheklink ports and their hosts (R330-R333, R345, R374, R469): what moves through a port leaves of the ports and the hosts, and the
statements O38 and O39. -/
section
namespace Sys2Proof.Machine

section
variable {s t u : State}

/-! ### What moves through the ports -/

/-- The link of a port: its state, its width, its host, and what has happened to it. -/
def linkOf (k : GkPort) : GkLink × Nat × Option Nat × Dword × Bool × Word × Word :=
  (k.link, k.lanes, k.host, k.identity, k.full, k.retrains, k.replays)

/-- Writes and reads have moved through the ports: their links and the hosts stand as they were. -/
structure PortsMove (s t : State) : Prop where
  links : ∀ p, linkOf (getGk t p) = linkOf (getGk s p)
  hosts : t.host.hosts = s.host.hosts

theorem PortsMove.refl (s : State) : PortsMove s s := ⟨fun _ => rfl, rfl⟩

theorem PortsMove.trans (h : PortsMove s t) (h' : PortsMove t u) : PortsMove s u :=
  ⟨fun p => (h'.links p).trans (h.links p), h'.hosts.trans h.hosts⟩

theorem PortsMove.forEach {α : Type} {m : α → State → State} (each : ∀ a t, PortsMove t (m a t)) :
    ∀ (l : List α) (s : State), PortsMove s (forEach l m s)
  | [], s => .refl s
  | a :: l, s => (each a s).trans (.forEach each l (m a s))

theorem PortsMove.of_frame {ps : List Part} (h : SameExcept ps s t) (kept : ps.contains .host = false) : PortsMove s t := by
  have eq := h.host_eq kept
  exact ⟨fun p => by rw [getGk, getGk, eq], by rw [eq]⟩

theorem PortsMove.host (h : PortsMove s t) (n : Nat) : getHost t n = getHost s n := by rw [getHost, getHost, h.hosts]

theorem PortsMove.setGk {p : Nat} {x : GkPort} (same : linkOf x = linkOf (getGk s p)) : PortsMove s (setGk s p x) := by
  refine ⟨fun q => ?_, rfl⟩
  by_cases here : q = p
  · rw [here, getGk_setGk, same]
  · rw [getGk_setGk_ne s x here]

theorem PortsMove.updGk {p : Nat} {m : GkPort → GkPort} (same : ∀ k, linkOf (m k) = linkOf k) : PortsMove s (updGk s p m) := .setGk (same _)

theorem deliverWrite_moves (p : Nat) (w : HostWrite) (s : State) : PortsMove s (deliverWrite p w s) := by
  have taken : PortsMove s { Machine.setGk s p { getGk s p with
      seq := (getGk s p).seq + 1, unflushed := (getGk s p).unflushed ++ [{ w with seq := (getGk s p).seq }] } with
      host := { (Machine.setGk s p { getGk s p with
        seq := (getGk s p).seq + 1, unflushed := (getGk s p).unflushed ++ [{ w with seq := (getGk s p).seq }] }).host with
        delivered := s.host.delivered ++ [(p, { w with seq := (getGk s p).seq })] } } :=
    .trans (.setGk (by rfl)) ⟨fun _ => rfl, rfl⟩
  unfold deliverWrite
  dsimp only
  split
  · exact taken.trans (.of_frame ((updInv_reach _ _ _).step rfl ((landPiece_reach _ _ _ _).weaken rfl) : SameExcept [.isl, .mem, .poison, .xfers, .qs] _ _) rfl)
  · exact taken

theorem releaseHeld_moves (p : Nat) (s : State) : PortsMove s (releaseHeld p s) := by
  unfold releaseHeld
  exact .trans (.updGk (m := fun k => { k with held := [] }) fun _ => rfl) (.forEach (deliverWrite_moves p) _ _)

theorem movePort_moves (p q : Nat) (s : State) : PortsMove s (movePort p q s) := by
  have emptied : PortsMove s (Machine.setGk s p { getGk s p with held := [], reads := [], unflushed := [], flushes := [] }) := .setGk rfl
  have moved := emptied.trans (.updGk (p := q) (m := fun d =>
    { d with held := d.held ++ (getGk s p).held, reads := d.reads ++ (getGk s p).reads,
             unflushed := d.unflushed ++ (getGk s p).unflushed.map (fun w => { w with seq := d.seq }), seq := d.seq + 1,
             flushes := d.flushes ++ (getGk s p).flushes.map (fun _ => d.seq + 1) }) fun _ => rfl)
  unfold movePort
  dsimp only
  split
  · exact moved.trans (releaseHeld_moves q _)
  · exact moved

theorem portNotice_moves (p : Nat) (s : State) : PortsMove s (portNotice p s) := by
  unfold portNotice
  split
  · exact ⟨fun _ => rfl, rfl⟩
  · exact .refl s

/-! ### The link layer -/

theorem startRetrain_begins (p : Nat) (full : Bool) (s : State) :
    getGk (startRetrain p full s) p = { getGk s p with link := .retraining, full := full, retrains := (getGk s p).retrains + 1 } ∧
      (startRetrain p full s).log ≠ s.log ∧ SameExcept [.log, .host] s (startRetrain p full s) :=
  ⟨getGk_setGk _ _ _, logEvent_log_ne _ _ _ (updGk s p _), startRetrain_reach p full s⟩

theorem replay_counts {p : Nat} (up : (getGk s p).link = .up) :
    replay p s =
      (let times := (getGk s p).replayTimes.filter (fun t => decide (s.devTime < t + 1000000)) ++ [s.devTime]
       let u := setGk s p { getGk s p with replays := (getGk s p).replays + 1, replayTimes := times }
       if 16 < times.length then startRetrain p false u else u) := by
  unfold replay
  dsimp only
  rw [if_neg (not_not.2 up)]

/-- What `f` reads of each port is in `t` what it was in `s`. -/
def PortsKeep {β : Type} (f : GkPort → β) (s t : State) : Prop := ∀ p, f (getGk t p) = f (getGk s p)

theorem PortsKeep.trans {β : Type} {f : GkPort → β} (h : PortsKeep f s t) (h' : PortsKeep f t u) : PortsKeep f s u := fun p => (h' p).trans (h p)

theorem PortsKeep.updGk {β : Type} {f : GkPort → β} {p : Nat} {m : GkPort → GkPort} (same : ∀ k, f (m k) = f k) : PortsKeep f s (updGk s p m) := by
  intro q
  by_cases here : q = p
  · rw [here, Machine.updGk, getGk_setGk, same]
  · rw [Machine.updGk, getGk_setGk_ne s _ here]

theorem PortsKeep.forEach {α β : Type} {f : GkPort → β} {m : α → State → State} (each : ∀ a t, PortsKeep f t (m a t)) :
    ∀ (l : List α) (s : State), PortsKeep f s (forEach l m s)
  | [], _ => fun _ => rfl
  | a :: l, s => (each a s).trans (PortsKeep.forEach each l (m a s))

theorem PortsKeep.of_ports {β : Type} {f : GkPort → β} (same : t.host.ports = s.host.ports) : PortsKeep f s t :=
  fun p => by rw [getGk, getGk, same]

theorem settleRelease_ports (h : Nat) (s : State) : (settleRelease h s).host.ports = s.host.ports := by
  unfold settleRelease
  dsimp only
  split
  · rfl
  · have kept : SameExcept [.qs] s (forEach ((List.range (getHost s h).queueCount).map (· + (getHost s h).queueFirst))
        (fun q t => updQ t q (fun y => { y with enable := false, staged := [], mailed := [] })) s) :=
      .forEach (fun _ _ => updQ_reach _ _ _) _ (.refl _ s)
    have ports := congrArg HostSide.ports (kept.host_eq rfl)
    exact ports

/-- What a port that has gone down leaves to the others of its host (R345). -/
def portLeaves (p : Nat) (s : State) : State :=
  match (getGk s p).host with
  | none => s
  | some h =>
    match (portsOf s h).filter (fun q => decide ((getGk s q).link ≠ .down)) with
    | q :: _ => movePort p q s
    | [] =>
      if (getHost s h).released ∧ (getHost s h).cond = .linked then
        let s := forEach (portsOf s h) (fun q t => updGk t q (fun k => { k with host := none })) s
        let s := { s with pm := { s.pm with contexts := s.pm.contexts.filter (fun e => e.2 != h) } }
        settleRelease h (updHost s h (fun x => { x with cond := .absent, identity := none }))
      else updHost s h (fun x => { x with lostSince := if x.cond = .linked ∨ x.cond = .registered then some s.devTime else none })

theorem portLeaves_keeps (p : Nat) (s : State) :
    PortsKeep (fun k => (k.link, k.lanes)) s (portLeaves p s) ∧ (portLeaves p s).log = s.log := by
  unfold portLeaves
  split
  · exact ⟨fun _ => rfl, rfl⟩
  next h _ =>
  split
  next q l _ =>
    refine ⟨fun r => ?_, (movePort_reach p q s).log_eq rfl⟩
    have links := (movePort_moves p q s).links r
    simp only [linkOf, Prod.mk.injEq] at links
    exact Prod.ext links.1 links.2.1
  next =>
    split
    · have apart : PortsKeep (fun k => (k.link, k.lanes)) s (forEach (portsOf s h) (fun q t => updGk t q (fun k => { k with host := none })) s) :=
        .forEach (m := fun q t => updGk t q (fun k => { k with host := none })) (fun _ _ => .updGk fun _ => rfl) _ s
      have logged : SameExcept [.host] s (forEach (portsOf s h) (fun q t => updGk t q (fun k => { k with host := none })) s) :=
        .forEach (fun _ _ => updGk_reach _ _ _) _ (.refl _ s)
      dsimp only
      generalize forEach (portsOf s h) (fun q t => updGk t q (fun k => { k with host := none })) s = u at apart logged
      exact ⟨apart.trans (.of_ports (settleRelease_ports h _)), ((settleRelease_reach h _).log_eq rfl).trans (logged.log_eq rfl)⟩
    · exact ⟨.of_ports rfl, rfl⟩

theorem portDown_eq (p : Nat) (s : State) : portDown p s =
    portLeaves p (updGk (portNotice p (logEvent .gkLinkDown (islOfGk p) (leBytes 1 p) s)) p (fun k => { k with link := .down, lanes := 0 })) := rfl

theorem portDown_goesDown (p : Nat) (s : State) :
    (getGk (portDown p s) p).link = .down ∧ (getGk (portDown p s) p).lanes = 0 ∧ (portDown p s).log ≠ s.log := by
  obtain ⟨kept, log⟩ := portLeaves_keeps p
    (updGk (portNotice p (logEvent .gkLinkDown (islOfGk p) (leBytes 1 p) s)) p (fun k => { k with link := .down, lanes := 0 }))
  have link := kept p
  rw [updGk, getGk_setGk] at link
  rw [portDown_eq, log]
  refine ⟨congrArg Prod.fst link, congrArg Prod.snd link, fun same => logEvent_log_ne .gkLinkDown (islOfGk p) (leBytes 1 p) s ?_⟩
  exact ((portNotice_reach p _).log_eq rfl).symm.trans same

/-- What a port that has come up takes over from those of its host that are down, and sends (R332, R345). -/
def portTakes (p h : Nat) (s : State) : State :=
  portNotice p (releaseHeld p (forEach ((portsOf s h).filter (fun q => decide (q ≠ p) && decide ((getGk s q).link = .down)))
    (fun q t => movePort q p t) s))

theorem portTakes_moves (p h : Nat) (s : State) : PortsMove s (portTakes p h s) :=
  ((PortsMove.forEach (fun q t => movePort_moves q p t) _ s).trans (releaseHeld_moves p _)).trans (portNotice_moves p _)

theorem linkUp_comesUp {p lanes : Nat} {id : Dword} (notUp : (getGk s p).link ≠ .up) (notTraining : (getGk s p).link ≠ .retraining)
    (powered : (getIsl s (islOfGk p)).power = 2) (noReset : s.power.reset = none) (supply : s.power.supplyReset = false) :
    linkOf (getGk (linkUp p id lanes s) p) = (.up, lanes, hostNumber s id, id, (getGk s p).full, (getGk s p).retrains, (getGk s p).replays) ∧
    ∀ h, hostNumber s id = some h → getHost (linkUp p id lanes s) h = { getHost s h with
      cond := if (getHost s h).cond = .absent then .linked else (getHost s h).cond, identity := some id, lostSince := none } := by
  have eq : linkUp p id lanes s =
      (let u := setGk s p { getGk s p with link := .up, lanes := lanes, host := hostNumber s id, identity := id }
       match hostNumber s id with
       | none => u
       | some h => portTakes p h (updHost u h (fun x => { x with
          cond := if x.cond = .absent then .linked else x.cond, identity := some id, lostSince := none }))) := by
    unfold linkUp
    dsimp only
    rw [if_neg (by simp [notUp, notTraining, powered, noReset, supply])] <;> rfl
  rw [eq]
  dsimp only
  cases hostNumber s id with
  | none => exact ⟨congrArg linkOf (getGk_setGk _ _ _), nofun⟩
  | some h =>
    have moves := portTakes_moves p h (updHost (setGk s p { getGk s p with link := .up, lanes := lanes, host := some h, identity := id }) h
      (fun x => { x with cond := if x.cond = .absent then .linked else x.cond, identity := some id, lostSince := none }))
    have link := getGk_setGk s p { getGk s p with link := .up, lanes := lanes, host := some h, identity := id }
    refine ⟨(moves.links p).trans (congrArg linkOf link), fun k named => ?_⟩
    obtain rfl := Option.some.inj named
    exact (moves.host h).trans (getHost_setHost _ _ _)

/-- A port sends what it has held, and notes where its width has changed. -/
def portWidened (p before after : Nat) (s : State) : State := releaseHeld p (if before = after then s else portNotice p s)

theorem portWidened_moves (p before after : Nat) (s : State) : PortsMove s (portWidened p before after s) := by
  refine .trans ?_ (releaseHeld_moves p _)
  split
  · exact .refl s
  · exact portNotice_moves p s

theorem portWidened_log (p before after : Nat) (s : State) : (portWidened p before after s).log = s.log := by
  refine ((releaseHeld_reach p _).log_eq rfl).trans ?_
  split
  · rfl
  · exact (portNotice_reach p s).log_eq rfl

theorem retrainDone_of_full {p : Nat} (training : (getGk s p).link = .retraining) (full : (getGk s p).full = true) :
    retrainDone p .failed s = portDown p s ∧
    retrainDone p .full8 s = portWidened p (getGk s p).lanes 8 (setGk s p { getGk s p with link := .up, lanes := 8 }) ∧
    retrainDone p .half4 s = portWidened p (getGk s p).lanes 4
      (logEvent .gkLinkDegraded (islOfGk p) (leBytes 1 p ++ leBytes 1 4) (setGk s p { getGk s p with link := .up, lanes := 4 })) := by
  unfold retrainDone
  dsimp only
  rw [if_neg (not_not.2 training), if_neg (not_not.2 training), if_neg (not_not.2 training), full]
  exact ⟨rfl, rfl, rfl⟩

theorem retrainDone_of_quick {p : Nat} {r : RetrainResult} (training : (getGk s p).link = .retraining) (quick : (getGk s p).full = false)
    (held : r ≠ .failed) : retrainDone p r s = releaseHeld p (setGk s p { getGk s p with link := .up }) := by
  unfold retrainDone
  dsimp only
  rw [if_neg (not_not.2 training), quick]
  cases r with
  | failed => exact absurd rfl held
  | _ => rfl

/-- Settles O38. -/
theorem gheklinkPortsTrainRetrainAndReplay : Obligations.GheklinkPortsTrainRetrainAndReplay := by
  intro port s p k
  refine ⟨?up, ?replays, ?retrains, ?done⟩
  case up =>
    intro id lanes4 notUp notTraining powered noReset supply
    have ran : exec (.gkLinkUp port id lanes4) s = .next (linkUp p id (if lanes4 then 4 else 8) s) := rfl
    obtain ⟨link, hosts⟩ := linkUp_comesUp (lanes := if lanes4 then 4 else 8) (id := id) notUp notTraining powered noReset supply
    simp only [linkOf, Prod.mk.injEq] at link
    obtain ⟨up, lanes, host, identity, -⟩ := link
    exact ⟨_, ran, up, lanes, host, identity, exec_reach_of_next ran, fun h named => by rw [hosts h named]; exact ⟨rfl, rfl, rfl⟩⟩
  case replays =>
    intro up lately
    have ran : exec (.gkReplay port) s = .next (replay p s) := rfl
    rw [ran, replay_counts up]
    refine ⟨fun few => ⟨_, congrArg _ (if_neg ?_), ?_, ?_, ?_⟩, fun many => ?_⟩
    · rw [List.length_append, List.length_singleton]
      exact Nat.not_lt.2 (Nat.succ_le_of_lt few)
    · rw [getGk_setGk]
    · rw [getGk_setGk]
      exact up
    · exact setGk_reach _ _ _
    · obtain ⟨begun, logged, reach⟩ := startRetrain_begins p false (setGk s p { k with
        replays := k.replays + 1, replayTimes := lately ++ [s.devTime] })
      rw [getGk_setGk] at begun
      refine ⟨_, congrArg _ (if_pos ?_), ?_, ?_, ?_, ?_, logged, reach.step rfl ((setGk_reach _ _ _).weaken rfl)⟩
      · rw [List.length_append, List.length_singleton]
        exact Nat.lt_succ_of_le many
      all_goals rw [begun]
  case retrains =>
    have asked (full : Bool) (up : k.link = .up) : ctrlRetrain p full s = startRetrain p full s := if_pos up
    refine ⟨fun up => ⟨_, congrArg Host.Outcome.next (asked false up), startRetrain_begins p false s⟩, fun who => ⟨fun up there => ⟨?_, ?_⟩, fun absent => ⟨?_, ?_⟩⟩⟩
    · exact ⟨_, congrArg Host.Outcome.next ((whenReached_yes there _).trans (asked false up)), startRetrain_begins p false s⟩
    · exact ⟨_, congrArg Host.Outcome.next ((whenReached_yes there _).trans (asked true up)), startRetrain_begins p true s⟩
    · exact congrArg Host.Outcome.next (whenReached_no absent _)
    · exact congrArg Host.Outcome.next (whenReached_no absent _)
  case done =>
    intro training
    have ran (r : RetrainResult) : exec (.gkRetrainDone port r) s = .next (retrainDone p r s) := rfl
    refine ⟨fun quick => ?_, fun quick r held => ?_, fun full => ?_⟩
    · obtain ⟨begun, -, -⟩ := startRetrain_begins p true s
      have eq : retrainDone p .failed s = startRetrain p true s := by
        unfold retrainDone
        dsimp only
        rw [if_neg (not_not.2 training), quick]
      exact ⟨_, (ran _).trans (congrArg _ eq), by rw [begun], by rw [begun], by rw [begun]⟩
    · have eq := retrainDone_of_quick training quick held
      have link := (releaseHeld_moves p (setGk s p { k with link := .up })).links p
      rw [getGk_setGk] at link
      simp only [linkOf, Prod.mk.injEq] at link
      exact ⟨_, (ran r).trans (congrArg _ eq), link.1, link.2.1⟩
    · obtain ⟨failed, full8, half4⟩ := retrainDone_of_full training full
      refine ⟨⟨_, (ran _).trans (congrArg _ full8), ?_⟩, ⟨_, (ran _).trans (congrArg _ half4), ?_⟩,
        ⟨_, (ran _).trans (congrArg _ failed), portDown_goesDown p s⟩⟩
      · have link := (portWidened_moves p k.lanes 8 (setGk s p { k with link := .up, lanes := 8 })).links p
        rw [getGk_setGk] at link
        simp only [linkOf, Prod.mk.injEq] at link
        exact ⟨link.1, link.2.1⟩
      · have link := (portWidened_moves p k.lanes 4 (logEvent .gkLinkDegraded (islOfGk p) (leBytes 1 p ++ leBytes 1 4)
          (setGk s p { k with link := .up, lanes := 4 }))).links p
        have set : getGk (logEvent .gkLinkDegraded (islOfGk p) (leBytes 1 p ++ leBytes 1 4) (setGk s p { k with link := .up, lanes := 4 })) p =
            { k with link := .up, lanes := 4 } := getGk_setGk s p _
        rw [set] at link
        simp only [linkOf, Prod.mk.injEq] at link
        refine ⟨link.1, link.2.1, ?_⟩
        rw [portWidened_log]
        exact logEvent_log_ne _ _ _ (setGk s p _)

/-! ### Hosts that come and go -/

theorem forEach_keeps {α β γ : Type} {f : β → γ} {m : α → β → β} (each : ∀ a b, f (m a b) = f b) : ∀ (l : List α) (b : β), f (Machine.forEach l m b) = f b
  | [], _ => rfl
  | a :: l, b => (forEach_keeps each l (m a b)).trans (each a b)


theorem stopCore_queues (p : Nat) (s : State) : QueuesStand s (stopCore p s) := by
  rw [stopCore]
  refine QueuesStand.trans ?_ (((updCore_reach _ _ _).queuesStand rfl).trans ((dropGone_reach _ _).queuesStand rfl))
  split
  · exact semSettle_queues _ _ _ s
  · exact rfl

theorem endEarly_queues (i : Nat) (st : Status) (code : Nat) (s : State) : QueuesStand s (endEarly i st code s) := by
  cases stands : getInv s i with
  | none => rw [endEarly, stands]; exact rfl
  | some x =>
    unfold endEarly
    simp only [stands]
    split
    · exact rfl
    generalize (if x.refused = true then (Status.segmentFault, 0) else (st, code)) = e
    cases state : x.state with
    | switchedOut => cases slot : x.slot with
      | some k => exact rfl
      | none => exact rfl
    | resident | switching | resuming => exact .forEach (fun p t => stopCore_queues p t) _ (setInv s i _)

/-- Once an invocation that had not ended, and of which no access was refused, has been ended, it stays ended so. -/
theorem endEarly_endOf (i j : Nat) (st : Status) (code : Nat) (s : State) :
    ((getInv s i).map endOf = some (some (st, code), false) → (getInv (endEarly j st code s) i).map endOf = some (some (st, code), false)) ∧
    ((getInv s i).map endOf = some (none, false) →
      (getInv (endEarly j st code s) i).map endOf = if i = j then some (some (st, code), false) else some (none, false)) := by
  cases stands : getInv s j with
  | none =>
    have same : endEarly j st code s = s := by rw [endEarly, stands]
    rw [same]
    refine ⟨id, fun open_ => ?_⟩
    rw [open_, if_neg]
    rintro rfl
    exact absurd (stands ▸ open_) nofun
  | some x =>
    cases first : x.early with
    | some e =>
      have same : endEarly j st code s = s := by simp [endEarly, stands, first]
      rw [same]
      refine ⟨id, fun open_ => ?_⟩
      rw [open_, if_neg]
      rintro rfl
      rw [stands, Option.map_some, endOf, first] at open_
      exact absurd open_ nofun
    | none =>
      rw [(endEarly_records st code stands first).1 i]
      constructor
      · intro ended
        rw [ended, if_neg]
        rintro rfl
        rw [stands, Option.map_some, endOf, first] at ended
        exact absurd ended nofun
      · intro open_
        rw [open_]
        split
        · next here =>
          rw [here, stands, Option.map_some, endOf] at open_
          have granted : x.refused = false := congrArg Prod.snd (Option.some.inj open_)
          rw [granted]
          rfl
        · rfl

/-- An early end of some invocations leaves one among them, that had not ended and of which no access was refused, ended so. -/
theorem endAll_ends {i : Nat} (st : Status) (code : Nat) :
    ∀ (l : List Nat) (s : State), i ∈ l → (getInv s i).map endOf = some (none, false) →
      (getInv (forEach l (fun j t => endEarly j st code t) s) i).map endOf = some (some (st, code), false) := by
  have stays : ∀ (l : List Nat) (s : State), (getInv s i).map endOf = some (some (st, code), false) →
      (getInv (forEach l (fun j t => endEarly j st code t) s) i).map endOf = some (some (st, code), false) := by
    intro l
    induction l with
    | nil => exact fun _ h => h
    | cons j l ih => exact fun s h => ih _ ((endEarly_endOf i j st code s).1 h)
  intro l
  induction l with
  | nil => exact fun _ listed => absurd listed List.not_mem_nil
  | cons j l ih =>
    intro s listed open_
    have next := (endEarly_endOf i j st code s).2 open_
    by_cases here : i = j
    · rw [if_pos here] at next
      exact stays l _ next
    · rw [if_neg here] at next
      exact ih _ ((List.mem_cons.1 listed).resolve_left here) next

/-- A queue that its host's loss has stopped: not enabled, and at the start of its rings. -/
def QueueLost (q : Nat) (s : State) : Prop := (getQ s q).enable = false ∧ (getQ s q).sqTail = 0 ∧ (getQ s q).sqHead = 0 ∧ (getQ s q).rqTail = 0 ∧
  (getQ s q).rqHead = 0

theorem QueueLost.later {q : Nat} (h : QueueLost q s) (queues : QueuesStand s t) : QueueLost q t := by
  have same : getQ t q = getQ s q := by rw [getQ, getQ, queues]
  rw [QueueLost, same]
  exact h

theorem loseQueue_loses (q : Nat) (s : State) : QueueLost q (updQ s q loseQueue) := by
  rw [QueueLost, getQ_updQ]
  exact ⟨rfl, rfl, rfl, rfl, rfl⟩

theorem QueueLost.loseQueue {q : Nat} (h : QueueLost q s) (r : Nat) : QueueLost q (updQ s r loseQueue) := by
  by_cases here : q = r
  · exact here ▸ loseQueue_loses q s
  · rw [QueueLost, updQ, getQ_setQ_ne _ _ here]
    exact h

/-- What the loss of a host leaves: the host is lost, its queues have stopped, and their invocations end in HOST_LOST. -/
structure HostGone (h : Nat) (s t : State) : Prop where
  cond : (getHost t h).cond = .lost
  since : (getHost t h).lostSince = none
  queues : ∀ q ∈ lossQueues s h, QueueLost q t
  ends : ∀ i v, getInv s i = some v → v.queue ∈ lossQueues s h → v.early = none → v.refused = false →
    ∃ w, getInv t i = some w ∧ w.early = some (.hostLost, 0)

theorem settleLoss_host (h : Nat) (s : State) : (getHost (settleLoss h s) h).cond = (getHost s h).cond ∧
    (getHost (settleLoss h s) h).lostSince = (getHost s h).lostSince := by
  unfold settleLoss
  dsimp only
  split
  · exact ⟨rfl, rfl⟩
  split
  · exact ⟨rfl, rfl⟩
  · have set := fun x => getHost_setHost (logEvent .hostReset (islOfGk (getHost s h).lossPort) x s) h
    rw [updHost, getHost_setHost]
    exact ⟨rfl, rfl⟩

theorem tabFind_listed {α : Type} : ∀ {t : Tab α} {k : Nat} {v : α}, tabFind t k = some v → (k, v) ∈ t
  | (n, w) :: t, k, v, found => by
    rw [tabFind] at found
    split at found
    next same =>
      rw [same, Option.some.inj found]
      exact List.mem_cons_self
    next => exact List.mem_cons_of_mem _ (tabFind_listed found)

/-- The loss of a host step by step: what is on its way goes, then its queues, its invocations, and the event. -/
theorem loseHost_steps {h : Nat} (there : (getHost s h).cond = .linked ∨ (getHost s h).cond = .registered) : ∃ (u : State) (l : List Nat),
    loseHost h s = settleLoss h (forEach l (fun i t => endEarly i .hostLost 0 t) (forEach (lossQueues s h) (fun q t => updQ t q loseQueue)
      (forEach (hostPieces s h) (fun e t => endPiece e.1 e.2 t) u))) ∧
    u.qs = s.qs ∧ (getHost u h).cond = .lost ∧ (getHost u h).lostSince = none ∧
    ∀ i v, getInv s i = some v → v.queue ∈ lossQueues s h → i ∈ l := by
  unfold loseHost
  dsimp only
  rw [if_neg (fun away => there.elim away.1 away.2)]
  refine ⟨_, _, rfl, rfl, ?_, ?_, fun i v stands loses => List.mem_append_right _ ?_⟩
  · rw [getHost_setHost]
  · rw [getHost_setHost]
  · exact List.mem_map.2 ⟨(i, v), List.mem_filter.2 ⟨tabFind_listed stands, List.contains_iff_mem.2 loses⟩, rfl⟩

theorem loseHost_gone {h : Nat} (there : (getHost s h).cond = .linked ∨ (getHost s h).cond = .registered) : HostGone h s (loseHost h s) := by
  obtain ⟨u, l, eq, qs, cond, since, listed⟩ := loseHost_steps there
  rw [eq]
  have ended : SameExcept [.isl, .mem, .poison, .xfers] u (forEach (hostPieces s h) (fun e t => endPiece e.1 e.2 t) u) :=
    .forEach (fun (e : Nat × Nat) t => endPiece_reach e.1 e.2 t) _ (.refl _ u)
  generalize forEach (hostPieces s h) (fun e t => endPiece e.1 e.2 t) u = v at ended
  have stopped := forEach_establishes (P := QueueLost) (fun q t => loseQueue_loses q t) (fun q r t h => h.loseQueue r) (lossQueues s h) v
  have queued : SameExcept [.qs] v (forEach (lossQueues s h) (fun q t => updQ t q loseQueue) v) :=
    .forEach (fun q t => updQ_reach _ _ _) _ (.refl _ v)
  have kept : InvsKeep id v (forEach (lossQueues s h) (fun q t => updQ t q loseQueue) v) :=
    .forEach (m := fun q t => updQ t q loseQueue) (fun _ _ _ => rfl) _ v
  generalize forEach (lossQueues s h) (fun q t => updQ t q loseQueue) v = w at stopped queued kept
  have frame : SameExcept [.isl, .xfers, .qs, .sems, .cores, .links, .grinders] w (forEach l (fun i t => endEarly i .hostLost 0 t) w) :=
    .forEach (fun i t => endEarly_reach _ _ _ _) _ (.refl _ w)
  have queues : QueuesStand w (forEach l (fun i t => endEarly i .hostLost 0 t) w) := .forEach (fun i t => endEarly_queues _ _ _ _) _ w
  have settled := settleLoss_reach h (forEach l (fun i t => endEarly i .hostLost 0 t) w)
  obtain ⟨cond', since'⟩ := settleLoss_host h (forEach l (fun i t => endEarly i .hostLost 0 t) w)
  have host : getHost (forEach l (fun i t => endEarly i .hostLost 0 t) w) h = getHost u h := by
    rw [getHost, frame.host_eq rfl, queued.host_eq rfl, ended.host_eq rfl, getHost]
  have inv (i : Nat) : getInv w i = getInv s i := by
    have eq := kept i
    rw [Option.map_id_fun, id_eq, id_eq] at eq
    rw [eq, ended.getInv_eq rfl, getInv, getInv, qs]
  refine ⟨?_, ?_, fun q loses => ?_, fun i x stands loses first granted => ?_⟩
  · rw [cond', host, cond]
  · rw [since', host, since]
  · exact ((stopped q loses).later queues).later (settled.queuesStand rfl)
  · rw [settled.getInv_eq rfl]
    have ends := endAll_ends (i := i) .hostLost 0 l w (listed i x stands loses) (by
      rw [inv, stands, Option.map_some, endOf, first, granted])
    obtain ⟨y, after, same⟩ := Option.map_eq_some_iff.1 ends
    exact ⟨y, after, congrArg Prod.fst same⟩

/-- A release is over once nothing of the host's is open (R333). -/
theorem settleRelease_host (h : Nat) (s : State) : (getHost (settleRelease h s) h).cond = (getHost s h).cond ∧
    ((getHost s h).released = true →
      (∀ q, (getHost s h).queueFirst ≤ q → q < (getHost s h).queueFirst + (getHost s h).queueCount → (getQ s q).openCount = 0 ∧ (getQ s q).due = []) →
      (getHost (settleRelease h s) h).queueCount = 0) ∧
    (∀ q, (getHost s h).queueFirst ≤ q → q < (getHost s h).queueFirst + (getHost s h).queueCount → (getQ s q).openCount ≠ 0 → settleRelease h s = s) := by
  have freed (l : List Nat) (m : QueueState → QueueState) : getHost (forEach l (fun q t => updQ t q m) s) h = getHost s h := by
    have kept : SameExcept [.qs] s (forEach l (fun q t => updQ t q m) s) := .forEach (fun _ _ => updQ_reach _ _ _) _ (.refl _ s)
    rw [getHost, kept.host_eq rfl, getHost]
  unfold settleRelease
  dsimp only
  refine ⟨?_, fun released closed => ?_, fun q low high busy => ?_⟩
  · split
    · rfl
    · rw [updHost, getHost_setHost, freed]
  · split
    next waits =>
      rcases waits with unreleased | none_ | busy
      · rw [released] at unreleased
        exact absurd unreleased (by decide)
      · exact none_
      · obtain ⟨q, listed, busy⟩ := List.any_eq_true.1 busy
        obtain ⟨k, below, rfl⟩ := List.mem_map.1 listed
        obtain ⟨count, due⟩ := closed (k + (getHost s h).queueFirst) (Nat.le_add_left _ _) (by have := List.mem_range.1 below; omega)
        rw [count, due] at busy
        exact absurd busy (by decide)
    next =>
      rw [updHost, getHost_setHost]
  · refine if_pos (.inr (.inr (List.any_eq_true.2 ⟨q, List.mem_map.2 ⟨q - (getHost s h).queueFirst, List.mem_range.2 (by omega), by omega⟩, ?_⟩)))
    rw [bne_iff_ne.2 busy]
    rfl

/-- Settles O39. -/
theorem hostsRegisterReleaseAndAreLost : Obligations.HostsRegisterReleaseAndAreLost := by
  intro who h s x lost
  refine ⟨fun here => ⟨?registers, ?refused, ?releases, ?bound⟩, ?timeout, ?reset, ?wakes⟩
  case registers =>
    intro q n claimed cond
    change Host.Outcome.next (registerHost who q.val n.val s) = _
    rw [registerHost, here]
    exact congrArg _ (if_pos ⟨claimed, cond⟩)
  case refused =>
    intro q n refused
    refine ⟨cmdRefused who h 1 s, ?_, logEvent_log_ne _ _ _ s, logEvent_reach _ _ _ s⟩
    change Host.Outcome.next (registerHost who q.val n.val s) = _
    rw [registerHost, here]
    exact congrArg _ (if_neg refused)
  case releases =>
    intro registered
    have ran : exec (.hostRelease who) s = .next (settleRelease h (updHost s h (fun x => { x with cond := .linked, released := true }))) := by
      change Host.Outcome.next (releaseHost who s) = _
      rw [releaseHost, here]
      exact congrArg _ (if_pos registered)
    have host : getHost (updHost s h (fun x => { x with cond := .linked, released := true })) h = { x with cond := .linked, released := true } :=
      getHost_setHost _ _ _
    have queue (q : Nat) : getQ (updHost s h (fun x => { x with cond := .linked, released := true })) q = getQ s q := rfl
    generalize updHost s h (fun x => { x with cond := .linked, released := true }) = u at ran host queue
    obtain ⟨cond, released, held⟩ := settleRelease_host h u
    rw [host] at cond released held
    refine ⟨_, ran, cond, fun closed => released rfl fun q low high => ?_, fun q low high busy => ?_⟩
    · rw [queue]
      exact closed q low high
    · rw [held q low high (by rwa [queue]), host]
  case bound =>
    intro other
    refine ⟨cmdRefused who h 2 s, ?_, logEvent_log_ne _ _ _ s, logEvent_reach _ _ _ s⟩
    change Host.Outcome.next (releaseHost who s) = _
    rw [releaseHost, here]
    exact congrArg _ (if_neg other)
  case timeout =>
    intro host since same cond lostSince passed
    subst same
    have gone := loseHost_gone cond
    refine ⟨loseHost host.val s, ?_, gone.cond, gone.since, gone.queues, gone.ends⟩
    change Host.Outcome.next _ = _
    rw [show (getHost s host.val).lostSince = some since from lostSince]
    exact congrArg _ (if_pos passed)
  case reset =>
    intro port up serves cond
    have gone := loseHost_gone cond
    let down := fun (q : Nat) (t : State) => updGk t q (fun k => { k with link := .hostReset, lanes := 0, host := none })
    have downs : SameExcept [.host] (loseHost h s) (forEach (portsOf s h) down (loseHost h s)) :=
      .forEach (fun _ _ => updGk_reach _ _ _) _ (.refl _ _)
    have hosts : (forEach (portsOf s h) down (loseHost h s)).host.hosts = (loseHost h s).host.hosts :=
      forEach_keeps (f := fun t : State => t.host.hosts) (m := down) (fun _ _ => rfl) _ _
    have ports := forEach_establishes (P := fun p t => (getGk t p).link = .hostReset ∧ (getGk t p).lanes = 0 ∧ (getGk t p).host = none) (m := down)
      (fun p t => by simp only [down, updGk, getGk_setGk, and_self]) (fun p q t closed => by
        by_cases same : p = q
        · subst same
          simp only [down, updGk, getGk_setGk, and_self]
        · simpa only [down, updGk, getGk_setGk_ne _ _ same] using closed) (portsOf s h) (loseHost h s)
    refine ⟨forEach (portsOf s h) down (loseHost h s), ?_, ⟨?_, ?_, ?_, ?_⟩, ports⟩
    · change Host.Outcome.next _ = _
      rw [up, serves]
    · rw [getHost, hosts]
      exact gone.cond
    · rw [getHost, hosts]
      exact gone.since
    · exact fun q loses => (gone.queues q loses).later (downs.queuesStand rfl)
    · intro i v stands loses first granted
      rw [downs.getInv_eq rfl]
      exact gone.ends i v stands loses first granted
  case wakes =>
    intro port parked asleep
    refine ⟨_, congrArg Host.Outcome.next (if_pos ⟨parked, asleep⟩), ?_, ?_, ?_⟩
    · have set := getIsl_setIsl s (islOfGk port.val) { getIsl s (islOfGk port.val) with power := 2 }
      exact congrArg Island.power set
    · intro wide
      rw [updGk, getGk_setGk]
      exact congrArg GkPort.link (if_neg wide)
    · exact (updGk_reach _ _ _).step rfl ((updIsl_reach _ _ _).weaken rfl)

end
end Sys2Proof.Machine
end
end

section
/-! SUPPORT. Mailboxes and interrupt vectors (R346-R349), and the statement O41. -/
section
namespace Sys2Proof.Machine

theorem sameExcept_host (s : State) (x : HostSide) : SameExcept [.host] s { s with host := x } := by
  intro p hp
  cases p with
  | host => exact absurd List.mem_cons_self hp
  | mem => exact ⟨rfl, fun _ => rfl⟩
  | xfers => exact ⟨rfl, rfl⟩
  | _ => rfl

/-! ### Mailboxes -/

/-- The bytes of a message stand in its mailbox. -/
theorem putBytes_spec (b : List Byte) (base : Nat) : ∀ (l : List Nat) (t : Tab Byte) (j : Nat),
    tabGet 0 (l.foldl (fun t i => tabSet 0 t (base + i) (b.getD i 0)) t) (base + j) = if j ∈ l then b.getD j 0 else tabGet 0 t (base + j)
  | [], _, _ => rfl
  | i :: l, t, j => by
    rw [List.foldl_cons, putBytes_spec b base l _ j, tabGet_tabSet]
    by_cases here : j = i
    · simp [here]
    · simp [here]

theorem fieldAt_take (b : List Byte) {k at_ n : Nat} (within : at_ + n ≤ k) : fieldAt (b.take k) at_ n = fieldAt b at_ n := by
  rw [fieldAt, fieldAt, sliceAt, sliceAt, List.drop_take, List.take_take, Nat.min_eq_left (by omega)]

/-- A ring of a mailbox that its host may ring, of the mode asked for, and that is not busy. -/
theorem ringMailbox_of_free {s : State} {mode : Bool} {p : Fin 2} {k h : Nat} (act : Nat → State → State)
    (is : (getMbCtrl s k).mode = mode) (here : agentHost s (.host p) = some h) (own : mbOwner s k = h) (free : mbBusy s k = false) :
    ringMailbox mode (.host p) k act s = act h s := by
  simp [ringMailbox, is, here, own, free]

theorem ringMailbox_of_busy {s : State} {mode : Bool} {p : Fin 2} {k h : Nat} (act : Nat → State → State)
    (is : (getMbCtrl s k).mode = mode) (here : agentHost s (.host p) = some h) (own : mbOwner s k = h) (busy : mbBusy s k = true) :
    ringMailbox mode (.host p) k act s = logEvent .mailboxOverrun (agentIsland (.host p)) (leBytes 1 k) s := by
  simp [ringMailbox, is, here, own, busy]

theorem sendMessage_of_full {s : State} {k : Nat} (full : k ∈ s.host.full) (m : Option (List Byte)) : sendMessage k m s = s := by
  have has : setHas s.host.full k = true := List.contains_iff_mem.2 full
  unfold sendMessage
  exact if_pos (.inl has)

/-- What a message leaves in its mailbox. -/
theorem putMessage_leaves (k : Nat) (b : List Byte) (s : State) : k ∈ (putMessage k b s).host.full ∧
    (∀ j < 256, tabGet 0 (putMessage k b s).host.m2h (256 * k + j) = b.getD j 0) ∧
    (putMessage k b s).host.raised = s.host.raised ++ [((getMbCtrl s k).vector, none)] ∧ SameExcept [.host] s (putMessage k b s) := by
  refine ⟨mem_setIns.2 (.inl rfl), fun j within => ?_, rfl, sameExcept_host s _⟩
  have m2h : (putMessage k b s).host.m2h = (List.range 256).foldl (fun t i => tabSet 0 t (256 * k + i) (b.getD i 0)) s.host.m2h := by
    simp only [putMessage, raiseVector, raiseVectorOn]
  rw [m2h, putBytes_spec, if_pos (List.mem_range.2 within)]

/-- A submission to a queue that the host has claimed: the envelope that the mailbox holds joins it. -/
theorem submitMail_of_claimed {s : State} {who : Agent} {k h : Nat} (enc : List Byte) (refused : Bool)
    (claimed : claims s h (getMbCtrl s k).queue = true) : ∃ e : Envelope, e.mailbox = true ∧ e.sqIndex = fieldAt (mbBytes s k) 0x24 4 ∧
    submitMail who k h enc refused s = holdMailbox k (updQ s (getMbCtrl s k).queue (fun x => { x with mailed := x.mailed ++ [e] })) := by
  have index := fieldAt_take (mbBytes s k) (k := 64) (at_ := 0x24) (n := 4) (by decide)
  unfold submitMail
  dsimp only
  rw [if_neg (by rw [claimed]; decide)]
  exact ⟨_, rfl, index, rfl⟩

/-! ### Vectors -/

/-- A vector's message is sent to its owner. -/
theorem sendVector_sends (v p : Nat) (s : State) : ((getVec (sendVector v p s) v).pending = false ∧
    (getVec (sendVector v p s) v).lastSent = some s.devTime ∧
    ∃ q, (sendVector v p s).host.sent = s.host.sent ++ [{ vector := v, host := (getVec s v).owner, port := q, at_ := s.devTime }]) ∧
    SameExcept [.host] s (sendVector v p s) := by
  have set := getVec_setVec s v { getVec s v with pending := false, lastSent := some s.devTime }
  exact ⟨⟨congrArg VectorState.pending set, congrArg VectorState.lastSent set, p, rfl⟩, sameExcept_host s _⟩

theorem sendPending_keeps (v : Nat) (s : State) :
    ((getVec (sendPending v s) v).enable, (getVec (sendPending v s) v).mask, (getVec (sendPending v s) v).holdoffUs, (getVec (sendPending v s) v).owner) =
      ((getVec s v).enable, (getVec s v).mask, (getVec s v).holdoffUs, (getVec s v).owner) ∧ SameExcept [.host] s (sendPending v s) := by
  unfold sendPending
  dsimp only
  split
  · split
    · have set := getVec_setVec s v { getVec s v with pending := false, lastSent := some s.devTime }
      have kept := congrArg (fun y : VectorState => (y.enable, y.mask, y.holdoffUs, y.owner)) set
      exact ⟨kept, sameExcept_host s _⟩
    · exact ⟨rfl, .refl _ s⟩
  · exact ⟨rfl, .refl _ s⟩

/-- Settles O41. -/
theorem mailboxesAndVectors : Obligations.MailboxesAndVectors := by
  refine ⟨fun who mailbox s h => ⟨?mail, ?messages, ?full⟩, fun vector s => ⟨?raised, ?pends, ?written⟩⟩
  case mail =>
    rintro ⟨p, rfl⟩ here own
    have toCarrier_ran : exec (.mailboxToCarrier (.host p) mailbox) s =
      .next (ringMailbox false (.host p) mailbox.val (fun _ t => toCarrier mailbox.val t) s) := rfl
    have submit_ran (enc : List Byte) (refused : Bool) : exec (.mailboxSubmit (.host p) mailbox enc refused) s =
      .next (ringMailbox true (.host p) mailbox.val (fun h t => submitMail (.host p) mailbox.val h enc refused t) s) := rfl
    refine ⟨fun free => ⟨fun is runs => ?_, fun is stopped => ?_, fun enc refused is claimed => ?_⟩, fun busy => ⟨fun is => ?_, fun enc refused is => ?_⟩, ?_⟩
    · have eq : toCarrier mailbox.val s =
          holdMailbox mailbox.val { s with host := { s.host with toCarrier := s.host.toCarrier ++ [(mailbox.val, mbBytes s mailbox.val)] } } := by
        rw [toCarrier, if_pos runs]
      refine ⟨toCarrier mailbox.val s, toCarrier_ran.trans (congrArg _ (ringMailbox_of_free _ is here own free)), ?_⟩
      rw [eq]
      refine ⟨rfl, ?_, ?_⟩
      · refine (tabGet_tabSet_same 0 s.host.busy mailbox.val _).trans_le ?_
        exact Nat.add_le_add_left (Nat.le_of_lt_succ (Nat.mod_lt _ (by decide))) _
      · exact (holdMailbox_reach _ _).step rfl ((sameExcept_host s _).weaken rfl)
    · have eq : toCarrier mailbox.val s = { s with host := { s.host with busy := tabSet 0 s.host.busy mailbox.val busyUntilCarrier } } := by
        rw [toCarrier, if_neg (by rw [stopped]; decide)]
      have busy := tabGet_tabSet_same 0 s.host.busy mailbox.val busyUntilCarrier
      exact ⟨_, toCarrier_ran.trans (congrArg _ ((ringMailbox_of_free _ is here own free).trans eq)), rfl, busy, sameExcept_host s _⟩
    · obtain ⟨e, mail, index, eq⟩ := submitMail_of_claimed (who := .host p) (k := mailbox.val) enc refused claimed
      refine ⟨_, e, (submit_ran enc refused).trans (congrArg _ (ringMailbox_of_free _ is here own free)), mail, index, ?_⟩
      rw [eq]
      have held := holdMailbox_reach mailbox.val (updQ s (getMbCtrl s mailbox.val).queue (fun x => { x with mailed := x.mailed ++ [e] }))
      refine ⟨?_, ?_, held.step rfl ((updQ_reach _ _ _).weaken rfl)⟩
      · rw [held.getQ_eq rfl, getQ_updQ]
      · exact (updQ_otherQueues s _ _).trans (fun q _ => held.getQ_eq rfl q)
    · exact ⟨_, toCarrier_ran.trans (congrArg _ (ringMailbox_of_busy _ is here own busy)), logEvent_log_ne _ _ _ s, logEvent_reach _ _ _ s⟩
    · exact ⟨_, (submit_ran enc refused).trans (congrArg _ (ringMailbox_of_busy _ is here own busy)), logEvent_log_ne _ _ _ s, logEvent_reach _ _ _ s⟩
    · have ran : exec (.mbM2hFullRelease (.host p) mailbox) s = .next (releaseFull (.host p) mailbox.val s) := rfl
      rw [ran]
      simp only [releaseFull, here]
      exact congrArg _ (if_pos own)
  case messages =>
    intro empty up cond
    have open_ : ¬(setHas s.host.full mailbox.val = true ∨ upPorts s (mbOwner s mailbox.val) = [] ∨
        ((getHost s (mbOwner s mailbox.val)).cond ≠ .linked ∧ (getHost s (mbOwner s mailbox.val)).cond ≠ .registered)) := by
      rintro (full | down | away)
      · exact empty (List.contains_iff_mem.1 full)
      · exact up down
      · exact cond.elim away.1 away.2
    have ran (m : Option (List Byte)) : exec (.m2hMessage mailbox m) s = .next (sendMessage mailbox.val m s) := rfl
    constructor
    · intro b other runs
      refine ⟨putMessage mailbox.val b s, (ran _).trans (congrArg _ ?_), putMessage_leaves _ b s⟩
      unfold sendMessage
      dsimp only
      rw [if_neg open_]
      exact if_neg (by rw [runs]; simpa using other)
    · intro n rest notice waits
      refine ⟨putMessage mailbox.val (noticeBytes n) { s with host := { s.host with notices := tabSet [] s.host.notices (mbOwner s mailbox.val) rest } },
        (ran _).trans (congrArg _ ?_), ?_, ?_⟩
      · unfold sendMessage
        dsimp only
        rw [if_neg open_, waits]
        exact if_pos notice
      · obtain ⟨full, bytes, raised, reach⟩ := putMessage_leaves mailbox.val (noticeBytes n)
          { s with host := { s.host with notices := tabSet [] s.host.notices (mbOwner s mailbox.val) rest } }
        exact ⟨full, bytes, raised, (sameExcept_host s _).trans reach⟩
      · have left := tabGet_tabSet_same [] s.host.notices (mbOwner s mailbox.val) rest
        exact left
  case full =>
    intro full m
    exact congrArg Host.Outcome.next (sendMessage_of_full full m)
  case raised =>
    intro p rest taken
    have ran : exec (.vectorRaise vector) s = .next (actRaise vector.val s) := rfl
    refine ⟨fun off => ?_, fun on kept => ?_, fun on unmasked over_ clear port => ?_⟩
    · rw [ran, actRaise, taken]
      exact congrArg _ (if_pos (by rw [off]; rfl))
    · have held : (getVec s vector.val).mask = true ∨ (!holdoffOver s (getVec s vector.val)) = true ∨ (getVec s vector.val).pending = true := by
        simpa using kept
      refine ⟨setVec { s with host := { s.host with raised := rest } } vector.val { getVec s vector.val with pending := true }, ?_, getVec_setVec _ _ _,
        rfl, rfl, sameExcept_host s _⟩
      rw [ran, actRaise, taken]
      dsimp only
      rw [if_neg (by rw [on]; decide), if_pos held]
    · obtain ⟨q, leaves⟩ := Option.isSome_iff_exists.1 port
      obtain ⟨sent, reach⟩ := sendVector_sends vector.val q { s with host := { s.host with raised := rest } }
      refine ⟨_, ?_, sent, rfl, (sameExcept_host s _).trans reach⟩
      rw [ran, actRaise, taken]
      dsimp only
      rw [if_neg (by rw [on]; decide), if_neg (by rw [unmasked, over_, clear]; decide), leaves]
  case pends =>
    intro on pends unmasked over_ port
    obtain ⟨q, leaves⟩ := Option.isSome_iff_exists.1 port
    obtain ⟨sent, reach⟩ := sendVector_sends vector.val q s
    refine ⟨_, congrArg Host.Outcome.next ?_, sent, reach⟩
    unfold sendPending
    dsimp only
    rw [leaves]
    exact if_pos ⟨on, pends, by rw [unmasked]; rfl, over_⟩
  case written =>
    intro p h w here
    have ran : exec (.ivCtrlWrite (.host p) vector w) s = .next (writeIvCtrl (.host p) vector.val w.toNat s) := rfl
    refine ⟨fun on other => ?_, fun mine => ?_⟩
    · rw [ran]
      simp only [writeIvCtrl, here]
      exact congrArg _ (if_pos ⟨on, other⟩)
    · let x := getVec s vector.val
      let y : VectorState := { x with
        enable := bitOf w.toNat 31, mask := bitOf w.toNat 30, holdoffUs := bitsOf w.toNat 25 16,
        owner := if bitOf w.toNat 31 then h else x.owner, pending := x.pending && bitOf w.toNat 31 }
      have eq : writeIvCtrl (.host p) vector.val w.toNat s = sendPending vector.val (setVec s vector.val y) := by
        simp only [writeIvCtrl, here]
        refine if_neg ?_
        rintro ⟨on, other⟩
        exact mine.elim (fun off => absurd (off.symm.trans on) (by decide)) other
      have kept := sendPending_keeps vector.val (setVec s vector.val y)
      rw [getVec_setVec] at kept
      refine ⟨_, ran.trans (congrArg _ eq), ?_⟩
      simp only [Prod.mk.injEq] at kept
      obtain ⟨enable, mask, holdoff, owner⟩ := kept.1
      exact ⟨enable, mask, holdoff, owner, (sameExcept_host s _).trans kept.2⟩

end Sys2Proof.Machine
end
end

section
/-! SUPPORT. Dispatch and the receipts that reach their rings (R186, R337-R339, R359, R362, R365-R368, R371), and the statements O43 and O44. -/
section
namespace Sys2Proof.Machine

section
variable {s t u : State}

/-! ### Switching an invocation out -/

/-- Core phases and the switching state of invocations survive what the switches of other cores grant. -/
def switchOf (x : Invocation) : InvState × Option Nat × Bool := (x.state, x.slot, x.preempted)

theorem drainCore_invs (p : Nat) (s : State) : InvsKeep switchOf s (drainCore p s) := by
  rw [drainCore]
  refine InvsKeep.trans ?_ (((updCore_reach _ _ _).invsKeep rfl).trans ((dropGone_reach _ _).invsKeep rfl))
  split
  · exact semLeave_invsKeep (fun _ _ => rfl) _ _ s
  · exact .refl _ s

theorem keepIssued_phase (c : Core) : (keepIssued c).phase = c.phase := keepIssued_blind (f := Core.phase) (fun _ _ _ => rfl) c

theorem drainCore_phase (p q : Nat) (s : State) :
    (getCore (drainCore p s) q).phase = if q = p then .boundary else (getCore s q).phase := by
  have left : ∀ w : Option HeldWait, CoresKeep Core.phase s (match w with
      | some w => semLeave w.sem (.core p w.count) s
      | none => s) := by
    rintro (_ | w)
    · exact .refl _ s
    · exact semLeave_coresKeep (fun _ _ _ => rfl) _ _ s
  rw [drainCore, (dropGone_reach _ _).getCore_eq rfl]
  by_cases here : q = p
  · rw [here, getCore_updCore, if_pos rfl]
    exact keepIssued_phase _
  · rw [getCore_updCore_ne _ _ here, if_neg here]
    exact left (getCore s p).wait q

/-- What a switch of a resident invocation below class Express does where its pool has a free slot (R207, R371). -/
theorem requestSwitch_takes {k n : Nat} {y : Invocation} (preempt : Bool) (stands : getInv s k = some y) (resident : y.state = .resident)
    (going : y.early = none) (below : y.cls ≠ 0) (slot : freeSaveSlot s y.partition = some n) :
    (∃ z, getInv (requestSwitch k preempt s) k = some z ∧ z.state = .switching ∧ z.slot = some n ∧ z.preempted = preempt) ∧
    ∀ p ∈ residentOn s k y, (getCore (requestSwitch k preempt s) p).phase = .boundary := by
  obtain ⟨pool, found⟩ : ∃ pool, tabFind s.qs.pools y.partition = some pool := by
    unfold freeSaveSlot at slot
    split at slot
    · exact absurd slot nofun
    · next pool found => exact ⟨pool, found⟩
  have eq : requestSwitch k preempt s = forEach (residentOn s k y) drainCore
      (setInv { s with qs := { s.qs with pools := tabPut s.qs.pools y.partition { pool with used := setIns pool.used n } } } k
        { y with state := .switching, slot := some n, preempted := preempt, blockedSince := none, saved := [] }) := by
    unfold requestSwitch
    rw [stands]
    dsimp only
    rw [if_neg (by simp [resident, going, below]), slot, found]
    rfl
  rw [eq]
  constructor
  · obtain ⟨z, after, same⟩ := (InvsKeep.forEach drainCore_invs (residentOn s k y) _).stands (getInv_setInv _ k _)
    simp only [switchOf, Prod.mk.injEq] at same
    exact ⟨z, after, same⟩
  · refine forEach_establishes (P := fun p t => (getCore t p).phase = .boundary) (fun p t => ?_) (fun p q t holds => ?_) _ _
    · rw [drainCore_phase, if_pos rfl]
    · rw [drainCore_phase]
      split
      · rfl
      · exact holds

theorem requestSwitch_of_full {k : Nat} {y : Invocation} (preempt : Bool) (stands : getInv s k = some y) (resident : y.state = .resident)
    (going : y.early = none) (below : y.cls ≠ 0) (full : freeSaveSlot s y.partition = none) :
    requestSwitch k preempt s = logEvent .savePoolFull (islIx (y.partition / 32) 125) (leBytes 1 y.partition) s := by
  unfold requestSwitch
  rw [stands]
  dsimp only
  rw [if_neg (by simp [resident, going, below]), full]

/-- The residents on another invocation's cores: one alone, that is blocked, is switched out. -/
theorem makeRoom_of_one {i k : Nat} {x y : Invocation} (stands : getInv s i = some x) (ready : runnable s i x = true)
    (one : residentsUnder s x = [(k, y)]) (blocked : y.blockedSince.isSome = true) : makeRoom i s = requestSwitch k false s := by
  unfold makeRoom
  rw [stands]
  dsimp only
  rw [one, if_neg (by simp [ready, Option.isSome_iff_ne_none.1 blocked])]
  rfl

theorem residentsUnder_resident {x y : Invocation} {k : Nat} (listed : (k, y) ∈ residentsUnder s x) : y.state = .resident := by
  have holds := (List.mem_filter.1 listed).2
  rw [Bool.and_eq_true, decide_eq_true_eq] at holds
  exact holds.1

/-! ### Dispatch -/

/-- The envelope that a class of a partition would dispatch now, and where: its queue and its cores. -/
def readyQueue (s : State) (pid c : Nat) : Option (Nat × List Nat) :=
  (queuesOf s pid c).findSome? (fun q => match envHold s q with | .ready cores => some (q, cores) | _ => none)

theorem noteHold_of_other {q : Nat} (other : envHold s q = .other) : noteHold q s = s := by rw [noteHold, other]

theorem noteAll_of_other : ∀ (l : List Nat), (∀ r ∈ l, envHold s r = .other) → forEach l noteHold s = s
  | [], _ => rfl
  | q :: l, others => by
    rw [forEach, noteHold_of_other (others q List.mem_cons_self)]
    exact noteAll_of_other l (fun r listed => others r (List.mem_cons_of_mem _ listed))

/-- A class that holds no envelope and no invocation that could be served is passed over (R368). -/
theorem serveClasses_skip {pid c : Nat} (rest : List Nat) (idle : resumable s pid c = false)
    (others : ∀ r ∈ queuesOf s pid c, envHold s r = .other) : serveClasses pid (c :: rest) s = serveClasses pid rest s := by
  rw [serveClasses, idle]
  simp only [Bool.false_eq_true, if_false]
  split
  next q cores found =>
    obtain ⟨r, listed, ready⟩ := List.exists_of_findSome?_eq_some found
    rw [others r listed] at ready
    exact absurd ready nofun
  next =>
    rw [noteAll_of_other _ others]
    split
    next v found =>
      obtain ⟨r, listed, need⟩ := List.exists_of_findSome?_eq_some found
      rw [others r listed] at need
      exact absurd need nofun
    next => rfl

theorem serveClasses_of_ready {pid c q : Nat} {cores : List Nat} (rest : List Nat) (idle : resumable s pid c = false)
    (ready : readyQueue s pid c = some (q, cores)) : serveClasses pid (c :: rest) s = dispatch q cores s := by
  rw [serveClasses, idle]
  simp only [Bool.false_eq_true, if_false]
  split
  next q' cores' found =>
    obtain ⟨rfl, rfl⟩ := Prod.mk.inj (Option.some.inj (ready.symm.trans found))
    rfl
  next found => exact absurd (ready.symm.trans found) nofun

/-- The highest class at which an envelope is ready is served first (R359, R368). -/
theorem serveClasses_of_highest {pid q : Nat} {cores : List Nat} : ∀ {n c first : Nat}, c < n →
    (∀ d, first ≤ d → d < first + c → resumable s pid d = false ∧ ∀ r ∈ queuesOf s pid d, envHold s r = .other) →
    resumable s pid (first + c) = false → readyQueue s pid (first + c) = some (q, cores) →
    serveClasses pid (List.range' first n) s = dispatch q cores s
  | n + 1, 0, first, _, _, idle, ready => serveClasses_of_ready _ idle ready
  | n + 1, c + 1, first, within, above, idle, ready => by
    obtain ⟨none_, others⟩ := above first (Nat.le_refl _) (by omega)
    rw [List.range'_succ, serveClasses_skip _ none_ others]
    exact serveClasses_of_highest (c := c) (by omega) (fun d low high => above d (by omega) (by omega))
      (by rwa [Nat.add_assoc, Nat.add_comm 1 c]) (by rwa [Nat.add_assoc, Nat.add_comm 1 c])

/-- An envelope has left its queue, which counts it as open. -/
def envelopeTaken (q : Nat) (b : QueueBind) (p : Partition) (e : Envelope) (s : State) : State :=
  updQ { s with qs := { s.qs with lastServed := tabSet 0 s.qs.lastServed (b.partition * 4 + b.cls) q } } q (fun x =>
    { takeEnvelope x e with
      openCount := x.openCount + 1, linkWait := false, coreWait := false,
      lat := if envBad b.partition p e = 0 ∧ !e.fence then
        max x.lat (min 0xFFFFFFFF (s.devTime - max e.start (tabGet 0 s.blend.resumedAt b.partition))) else x.lat })

theorem envelopeTaken_reach (q : Nat) (b : QueueBind) (p : Partition) (e : Envelope) (s : State) : SameExcept [.qs] s (envelopeTaken q b p e s) :=
  (updQ_reach _ _ _).step rfl (sameExcept_qs s _)

theorem getQ_envelopeTaken (q : Nat) (b : QueueBind) (p : Partition) (e : Envelope) (s : State) :
    getQ (envelopeTaken q b p e s) q = { takeEnvelope (getQ s q) e with
      openCount := (getQ s q).openCount + 1, linkWait := false, coreWait := false,
      lat := if envBad b.partition p e = 0 ∧ !e.fence then
        max (getQ s q).lat (min 0xFFFFFFFF (s.devTime - max e.start (tabGet 0 s.blend.resumedAt b.partition))) else (getQ s q).lat } :=
  getQ_updQ _ _ _

/-- A rejected envelope's receipt. -/
def rejection (q i now bad : Nat) (e : Envelope) : Receipt :=
  { status := .aborted, mailbox := e.mailbox, fault := bad, fpFlags := 0, replays := 0, switches := 0, queue := q,
    invocation := i, postmark := now, poisoned := 0, sqIndex := e.sqIndex, notify := e.notify }

/-- An envelope that breaks a rule is logged and ends. -/
def envelopeRejected (q bad : Nat) (e : Envelope) (s : State) : State :=
  let u := logEvent .envelopeInvalid (queueIsland s q) (leBytes 2 q ++ leBytes 4 e.sqIndex) { s with qs := { s.qs with nextInv := s.qs.nextInv + 1 } }
  dropLost q (addReceipt (rejection q s.qs.nextInv s.devTime bad e) u)

/-- A FENCE waits for what its queue has in progress. -/
def fencePut (q : Nat) (e : Envelope) (s : State) : State :=
  let f : FenceWait := { sqIndex := e.sqIndex, mailbox := e.mailbox, waits := (s.qs.invs.filter (fun v => v.2.queue == q)).map (·.1) }
  updQ s q (fun x => if f.waits = [] then { x with due := x.due ++ [fenceReceipt s q f] } else { x with fences := x.fences ++ [f] })

/-- The invocation that an envelope becomes. -/
def invocationOf (q : Nat) (b : QueueBind) (e : Envelope) (cores : List Nat) (s : State) : Invocation :=
  { queue := q, context := (getQ s q).context, partition := b.partition, cls := b.cls, cores := cores, linkSet := e.linkSet,
    program := e.program, seed := e.seed, enclosure := e.enclosure, rankStride := e.rankStride, notify := e.notify,
    mailbox := e.mailbox, sqIndex := e.sqIndex, state := .resident, dispatched := s.devTime, early := none, refused := false,
    sizeFault := false, versionRetired := false, poisoned := 0, replays := 0, switches := 0, fpFlags := 0, done := [], saved := [],
    slot := none, preempted := false, satPoison := false, blockedSince := none, outSince := 0 }

/-- The cores of an invocation start, rank by rank. -/
def coresStarted (i : Nat) (e : Envelope) (cores : List Nat) (s : State) : State :=
  forEach ((List.range cores.length).zip cores) (fun r t => startCore i e r.1 r.2 t) s

/-- An invocation is resident, and its cores start. -/
def invocationStarted (q : Nat) (b : QueueBind) (e : Envelope) (cores : List Nat) (s : State) : State :=
  coresStarted s.qs.nextInv e cores
    { s with qs := { s.qs with nextInv := s.qs.nextInv + 1, invs := tabPut s.qs.invs s.qs.nextInv (invocationOf q b e cores s) } }

theorem dispatch_eq {q : Nat} {cores : List Nat} {b : QueueBind} {p : Partition} {e : Envelope} (bound : queueBind s q = some b)
    (part : getPart s b.partition = some p) (next : nextEnvelope (getQ s q) = some e) :
    dispatch q cores s =
      (let u := envelopeTaken q b p e s
       if envBad b.partition p e ≠ 0 then envelopeRejected q (envBad b.partition p e) e u
       else if e.fence then fencePut q e u
       else invocationStarted q b e cores u) := by
  unfold dispatch
  rw [bound]
  dsimp only
  rw [part, next]
  rfl

/-! ### An envelope that breaks a rule -/

theorem dropLost_keeps (q : Nat) (s : State) : (getQ (dropLost q s) q).openCount ≤ (getQ s q).openCount ∧
    QsKeep (fun x => (x.mailed, x.staged, x.sqHead)) s (dropLost q s) := by
  have dropped (m : HostState → HostState) (h n : Nat) :
      (getQ (updHost (updQ s q (fun y => { y with due := [], openCount := y.openCount - n })) h m) q).openCount ≤ (getQ s q).openCount ∧
      QsKeep (fun x => (x.mailed, x.staged, x.sqHead)) s (updHost (updQ s q (fun y => { y with due := [], openCount := y.openCount - n })) h m) := by
    have host := updHost_reach (updQ s q (fun y => { y with due := [], openCount := y.openCount - n })) h m
    refine ⟨?_, QsKeep.trans (.updQ (m := fun y => { y with due := [], openCount := y.openCount - n }) fun _ => rfl) (host.qsKeep rfl)⟩
    rw [host.getQ_eq rfl, getQ_updQ]
    exact Nat.sub_le _ _
  unfold dropLost
  split
  · exact ⟨Nat.le_refl _, fun _ => rfl⟩
  dsimp only
  split
  · exact ⟨Nat.le_refl _, fun _ => rfl⟩
  · exact dropped _ _ _

theorem addReceipt_keeps (r : Receipt) (s : State) : QsKeep (fun x => (x.openCount, x.mailed, x.staged, x.sqHead)) s (addReceipt r s) :=
  .updQ fun _ => rfl

/-- What a rejected envelope leaves of its queue. -/
theorem envelopeRejected_keeps (q bad : Nat) (e : Envelope) (s : State) :
    (getQ (envelopeRejected q bad e s) q).openCount ≤ (getQ s q).openCount ∧ (getQ (envelopeRejected q bad e s) q).mailed = (getQ s q).mailed ∧
    (getQ (envelopeRejected q bad e s) q).staged = (getQ s q).staged ∧ (getQ (envelopeRejected q bad e s) q).sqHead = (getQ s q).sqHead := by
  unfold envelopeRejected
  dsimp only
  generalize before : logEvent .envelopeInvalid _ _ _ = u
  have queue : getQ u q = getQ s q := by subst before; rfl
  obtain ⟨count, kept⟩ := dropLost_keeps q (addReceipt (rejection q s.qs.nextInv s.devTime bad e) u)
  have added := addReceipt_keeps (rejection q s.qs.nextInv s.devTime bad e) u q
  have kept := kept q
  rw [queue] at added
  simp only [Prod.mk.injEq] at added kept
  obtain ⟨open_, mailed, staged, head⟩ := added
  exact ⟨count.trans_eq open_, kept.1.trans mailed, kept.2.1.trans staged, kept.2.2.trans head⟩

/-- A rejected envelope is logged, and its receipt is due where its host is there. -/
theorem envelopeRejected_ends {q bad : Nat} {e : Envelope} (present : ∀ h, queueHost s q = some h → (getHost s h).cond ≠ .lost) :
    (envelopeRejected q bad e s).log ≠ s.log ∧
    ∃ more, (getQ (envelopeRejected q bad e s) q).due = (getQ s q).due ++ [rejection q s.qs.nextInv s.devTime bad e] ++ more := by
  unfold envelopeRejected
  dsimp only
  rw [dropLost_of_present]
  · constructor
    · rw [(addReceipt_reach _ _).log_eq rfl]
      exact logEvent_log_ne _ _ _ { s with qs := { s.qs with nextInv := s.qs.nextInv + 1 } }
    · obtain ⟨more, added, -⟩ := addReceipt_due (rejection q s.qs.nextInv s.devTime bad e)
        (logEvent .envelopeInvalid (queueIsland s q) (leBytes 2 q ++ leBytes 4 e.sqIndex) { s with qs := { s.qs with nextInv := s.qs.nextInv + 1 } })
      exact ⟨more, added⟩
  · exact present

/-! ### Cores that start -/

/-- A core that has started as a rank of an invocation (R186). -/
structure CoreStarted (i : Nat) (e : Envelope) (rank p : Nat) (s : State) : Prop where
  inv : (getCore s p).inv = some i
  phase : (getCore s p).phase = .running
  pc : (getCore s p).pc = e.program
  lcs : (getCore s p).lcs = [0, 0, 0, 0]
  window : (getCore s p).window = []
  xs : (getCore s p).xs = 0 :: (List.range 7).map (fun k => BitVec.ofNat 64 (fieldAt (e.enclosure.drop (rank * e.rankStride)) (8 * k) 8))

theorem startCore_starts {i rank l p : Nat} {e : Envelope} (placed : physOf s l = some p) : CoreStarted i e rank p (startCore i e rank l s) := by
  have kept {β : Type} (f : Core → β) (blind : ∀ c m k, f { c with issueMode := m, chain := k } = f c) (c : Core) := keepIssued_blind blind c
  rw [startCore, placed]
  dsimp only
  constructor
  all_goals rw [getCore_updCore]
  · exact kept Core.inv (fun _ _ _ => rfl) _
  · exact kept Core.phase (fun _ _ _ => rfl) _
  · exact kept Core.pc (fun _ _ _ => rfl) _
  · exact kept Core.lcs (fun _ _ _ => rfl) _
  · exact kept Core.window (fun _ _ _ => rfl) _
  · exact kept Core.xs (fun _ _ _ => rfl) _

theorem startCore_others {i rank l p : Nat} {e : Envelope} (other : physOf s l ≠ some p) :
    getCore (startCore i e rank l s) p = getCore s p := by
  unfold startCore
  split
  · rfl
  next q placed =>
    have ne : p ≠ q := fun same => other (same ▸ placed)
    dsimp only
    rw [getCore_updCore_ne _ _ ne, (updIsl_reach _ _ _).getCore_eq rfl]

theorem CoreStarted.of_core {i rank p : Nat} {e : Envelope} (h : CoreStarted i e rank p s) (same : getCore t p = getCore s p) :
    CoreStarted i e rank p t := by
  obtain ⟨inv, phase, pc, lcs, window, xs⟩ := h
  constructor <;> rwa [same]

theorem startCore_physOf (i : Nat) (e : Envelope) (rank l : Nat) (s : State) : physOf (startCore i e rank l s) = physOf s :=
  funext fun k => by rw [physOf, physOf, (startCore_reach i e rank l s).blend_eq rfl]

theorem CoreStarted.startCore {i rank p : Nat} {e : Envelope} (h : CoreStarted i e rank p s) {k l : Nat} (own : physOf s l = some p → k = rank) :
    CoreStarted i e rank p (Machine.startCore i e k l s) := by
  by_cases here : physOf s l = some p
  · exact own here ▸ startCore_starts here
  · exact h.of_core (startCore_others here)

/-- Of the cores that start, each that no other rank is placed on starts as its own. -/
theorem startAll_starts {i rank l p : Nat} {e : Envelope} : ∀ (ranks : List (Nat × Nat)) (s : State), (rank, l) ∈ ranks → physOf s l = some p →
    (∀ r ∈ ranks, physOf s r.2 = some p → r.1 = rank) → CoreStarted i e rank p (forEach ranks (fun r t => startCore i e r.1 r.2 t) s) := by
  have stays : ∀ (ranks : List (Nat × Nat)) (s : State), CoreStarted i e rank p s → (∀ r ∈ ranks, physOf s r.2 = some p → r.1 = rank) →
      CoreStarted i e rank p (forEach ranks (fun r t => startCore i e r.1 r.2 t) s) := by
    intro ranks
    induction ranks with
    | nil => exact fun _ h _ => h
    | cons r ranks ih =>
      intro s h own
      refine ih _ (h.startCore (own r List.mem_cons_self)) (fun k listed placed => own k (List.mem_cons_of_mem _ listed) ?_)
      rwa [startCore_physOf] at placed
  intro ranks
  induction ranks with
  | nil => exact fun _ listed => absurd listed List.not_mem_nil
  | cons r ranks ih =>
    intro s listed placed own
    have later : ∀ k ∈ ranks, physOf (startCore i e r.1 r.2 s) k.2 = some p → k.1 = rank := fun k there placed =>
      own k (List.mem_cons_of_mem _ there) (by rwa [startCore_physOf] at placed)
    by_cases here : (rank, l) = r
    · subst here
      exact stays ranks _ (startCore_starts placed) later
    · exact ih _ ((List.mem_cons.1 listed).resolve_left here) (by rwa [startCore_physOf]) later

theorem coresStarted_reach (i : Nat) (e : Envelope) (cores : List Nat) (s : State) : SameExcept [.isl, .cores] s (coresStarted i e cores s) :=
  .forEach (fun (r : Nat × Nat) t => startCore_reach i e r.1 r.2 t) _ (.refl _ s)

theorem coresStarted_starts {i rank l p : Nat} {e : Envelope} {cores : List Nat} (listed : cores[rank]? = some l) (placed : physOf s l = some p)
    (own : ∀ k j, cores[k]? = some j → physOf s j = some p → k = rank) : CoreStarted i e rank p (coresStarted i e cores s) := by
  have within : rank < cores.length := (List.getElem?_eq_some_iff.1 listed).1
  refine startAll_starts _ s ?_ placed (fun r there => own r.1 r.2 ?_)
  · exact List.mem_of_getElem? (i := rank) (by rw [List.getElem?_zip_eq_some]; exact ⟨List.getElem?_range within, listed⟩)
  · obtain ⟨n, at_⟩ := List.mem_iff_getElem?.1 there
    obtain ⟨range, core⟩ := List.getElem?_zip_eq_some.1 at_
    obtain ⟨below, same⟩ := List.getElem?_eq_some_iff.1 range
    rw [List.getElem_range] at same
    exact same ▸ core

/-- What an envelope leaves of its queue, whatever it becomes. -/
theorem envelopeTaken_counts (q : Nat) (b : QueueBind) (p : Partition) (e : Envelope) (s : State) :
    (getQ (envelopeTaken q b p e s) q).openCount = (getQ s q).openCount + 1 ∧ (getQ (envelopeTaken q b p e s) q).due = (getQ s q).due ∧
    (getQ (envelopeTaken q b p e s) q).fences = (getQ s q).fences ∧ (getQ (envelopeTaken q b p e s) q).context = (getQ s q).context ∧
    (e.mailbox = true → (getQ (envelopeTaken q b p e s) q).mailed = (getQ s q).mailed.drop 1 ∧
      (getQ (envelopeTaken q b p e s) q).sqHead = (getQ s q).sqHead) ∧
    (e.mailbox = false → (getQ (envelopeTaken q b p e s) q).staged = (getQ s q).staged.drop 1 ∧
      (getQ (envelopeTaken q b p e s) q).sqHead = ((getQ s q).sqHead + 1) % 2 ^ 32) ∧
    (envBad b.partition p e = 0 → e.fence = false → (getQ (envelopeTaken q b p e s) q).lat =
      max (getQ s q).lat (min 0xFFFFFFFF (s.devTime - max e.start (tabGet 0 s.blend.resumedAt b.partition)))) := by
  rw [getQ_envelopeTaken]
  refine ⟨rfl, ?_, ?_, ?_, fun mail => ?_, fun ring => ?_, fun good plain => ?_⟩
  · dsimp only
    unfold takeEnvelope
    split <;> rfl
  · dsimp only
    unfold takeEnvelope
    split <;> rfl
  · dsimp only
    unfold takeEnvelope
    split <;> rfl
  · rw [takeEnvelope, if_pos mail]
    exact ⟨rfl, rfl⟩
  · rw [takeEnvelope, if_neg (by rw [ring]; decide)]
    exact ⟨rfl, rfl⟩
  · dsimp only
    rw [if_pos ⟨good, by rw [plain]; rfl⟩]

/-- What an invocation's start leaves: the invocation, its queue as it was, and its cores. -/
theorem invocationStarted_leaves (q : Nat) (b : QueueBind) (e : Envelope) (cores : List Nat) (s : State) :
    (invocationStarted q b e cores s).qs.nextInv = s.qs.nextInv + 1 ∧ getQ (invocationStarted q b e cores s) q = getQ s q ∧
    getInv (invocationStarted q b e cores s) s.qs.nextInv = some (invocationOf q b e cores s) := by
  have reach := coresStarted_reach s.qs.nextInv e cores
    { s with qs := { s.qs with nextInv := s.qs.nextInv + 1, invs := tabPut s.qs.invs s.qs.nextInv (invocationOf q b e cores s) } }
  have qs := reach.qs_eq rfl
  refine ⟨congrArg QueueSide.nextInv qs, reach.getQ_eq rfl q, (reach.getInv_eq rfl _).trans ?_⟩
  exact tabFind_tabPut_same _ _ _

theorem fencePut_queue (q : Nat) (e : Envelope) (s : State) :
    ((∀ v ∈ s.qs.invs, v.2.queue ≠ q) → ∃ r, (getQ (fencePut q e s) q).due = (getQ s q).due ++ [r] ∧ r.status = .ok ∧ r.sqIndex = e.sqIndex) ∧
    ((∃ v ∈ s.qs.invs, v.2.queue = q) → ∃ f, (getQ (fencePut q e s) q).fences = (getQ s q).fences ++ [f] ∧
      f.waits = (s.qs.invs.filter (fun v => v.2.queue == q)).map (·.1)) ∧
    QsKeep (fun x => (x.openCount, x.mailed, x.staged, x.sqHead)) s (fencePut q e s) := by
  refine ⟨fun idle => ?_, fun ⟨v, listed, own⟩ => ?_, ?_⟩
  rotate_left 2
  · unfold fencePut
    refine QsKeep.updQ fun x => ?_
    split <;> rfl
  · have none_ : (s.qs.invs.filter (fun v => v.2.queue == q)).map (·.1) = [] :=
      List.map_eq_nil_iff.2 (List.filter_eq_nil_iff.2 fun v listed same => idle v listed (beq_iff_eq.1 same))
    refine ⟨fenceReceipt s q { sqIndex := e.sqIndex, mailbox := e.mailbox, waits := (s.qs.invs.filter (fun v => v.2.queue == q)).map (·.1) }, ?_, rfl, rfl⟩
    rw [fencePut, getQ_updQ, if_pos none_]
  · have some_ : (s.qs.invs.filter (fun v => v.2.queue == q)).map (·.1) ≠ [] := fun none_ =>
      absurd (List.map_eq_nil_iff.1 none_) (List.ne_nil_of_mem (List.mem_filter.2 ⟨listed, beq_iff_eq.2 own⟩))
    exact ⟨_, by rw [fencePut, getQ_updQ, if_neg some_], rfl⟩

/-- Settles O43: the scheduler comes to the envelope, which is rejected, waits as a FENCE, or becomes an invocation; and the blocked resident. -/
theorem readyEnvelopesAreDispatched : Obligations.ReadyEnvelopesAreDispatched := by
  constructor
  · intro partition s c q cores b p e below above idle ready bound part next
    have ran : exec (.invocationDispatch partition) s = .next (dispatch q cores s) := by
      have served := serveClasses_of_highest (s := s) (pid := partition.val) (n := 4) (first := 0) below
        (fun d _ high => above d (by omega)) (by rwa [Nat.zero_add]) (by rw [Nat.zero_add]; exact ready)
      exact congrArg Host.Outcome.next served
    rw [dispatch_eq bound part next] at ran
    obtain ⟨count, due, fences, context, mail, ring, lat⟩ := envelopeTaken_counts q b p e s
    have taken := envelopeTaken_reach q b p e s
    have invs : (envelopeTaken q b p e s).qs.invs = s.qs.invs := rfl
    have number : (envelopeTaken q b p e s).qs.nextInv = s.qs.nextInv := rfl
    dsimp only at ran
    generalize envelopeTaken q b p e s = u at ran count due fences context mail ring lat taken invs number
    by_cases bad : envBad b.partition p e ≠ 0
    · rw [if_pos bad] at ran
      obtain ⟨open_, mailed, staged, head⟩ := envelopeRejected_keeps q (envBad b.partition p e) e u
      refine ⟨_, ran, open_.trans_eq count, fun h => ?_, fun h => ?_, fun h => absurd h bad, fun h => absurd h bad, fun _ present => ?_⟩
      · rw [mailed, head]
        exact mail h
      · rw [staged, head]
        exact ring h
      · have host : u.host = s.host := taken.host_eq rfl
        obtain ⟨logged, more, added⟩ := envelopeRejected_ends (q := q) (bad := envBad b.partition p e) (e := e) (s := u) (fun h claimed => by
          rw [getHost, host]
          exact present h (by rwa [queueHost, host] at claimed))
        rw [taken.log_eq rfl] at logged
        exact ⟨logged, _, more, by rw [← due]; exact added, rfl, rfl, rfl⟩
    · rw [if_neg bad] at ran
      have good : envBad b.partition p e = 0 := not_not.1 bad
      by_cases fence : e.fence = true
      · rw [if_pos fence] at ran
        obtain ⟨answered, waits, kept⟩ := fencePut_queue q e u
        have kept := kept q
        simp only [Prod.mk.injEq] at kept
        obtain ⟨open_, mailed, staged, head⟩ := kept
        rw [invs, due] at answered
        rw [invs, fences] at waits
        refine ⟨_, ran, (open_.trans count).le, fun h => ?_, fun h => ?_, fun _ plain => absurd (fence.symm.trans plain) (by decide),
          fun _ _ => ⟨answered, waits⟩, fun h => absurd h bad⟩
        · rw [mailed, head]
          exact mail h
        · rw [staged, head]
          exact ring h
      · rw [if_neg fence] at ran
        obtain ⟨later, queue, invocation⟩ := invocationStarted_leaves q b e cores u
        rw [number] at later invocation
        refine ⟨_, ran, ?_, fun h => ?_, fun h => ?_, fun _ plain => ⟨later, ?_, ?_, ⟨_, invocation, rfl, rfl, rfl, rfl, context, rfl, rfl, rfl, rfl, rfl, ?_⟩, ?_⟩,
          fun _ h => absurd h fence, fun h => absurd h bad⟩
        · rw [queue, count]
        · rw [queue]
          exact mail h
        · rw [queue]
          exact ring h
        · rw [queue, count]
        · rw [queue]
          exact lat good plain
        · exact taken.devTime_eq rfl
        · intro rank l phys listed placed own
          have phys_eq : physOf { u with qs := { u.qs with nextInv := u.qs.nextInv + 1, invs := tabPut u.qs.invs u.qs.nextInv (invocationOf q b e cores u) } } =
              physOf s := funext fun k => by rw [physOf, physOf, taken.blend_eq rfl]
          obtain ⟨inv, phase, pc, lcs, window, xs⟩ := coresStarted_starts (i := u.qs.nextInv) (e := e) listed (phys_eq ▸ placed) (phys_eq ▸ own)
          exact ⟨number ▸ inv, phase, pc, lcs, window, xs⟩
  · intro i k s x y stands ready one there blocked going below
    have resident := residentsUnder_resident (one ▸ List.mem_singleton.2 rfl : (k, y) ∈ residentsUnder s x)
    have ran : exec (.invocationRunnable i) s = .next (requestSwitch k false s) :=
      congrArg Host.Outcome.next (makeRoom_of_one stands ready one blocked)
    refine ⟨fun n slot => ?_, fun full => ⟨_, ran, ?_⟩⟩
    · obtain ⟨⟨z, after, state, own, preempted⟩, phases⟩ := requestSwitch_takes false there resident going below slot
      exact ⟨_, z, ran, after, state, own, preempted, phases⟩
    · rw [requestSwitch_of_full false there resident going below full]
      exact ⟨logEvent_log_ne _ _ _ s, logEvent_reach _ _ _ s⟩

/-! ### Receipts on their way -/

/-- What the settling of hosts leaves of the host side but for the hosts' own state. -/
theorem settleHosts_side {β : Type} {f : HostSide → β} (blind : ∀ x h, f { x with hosts := h } = f x) (s : State) :
    f (settleHosts s).host = f s.host := by
  have loss (h : Nat) (s : State) : f (settleLoss h s).host = f s.host := by
    unfold settleLoss
    dsimp only
    split
    · rfl
    split
    · rfl
    · exact blind _ _
  have release (h : Nat) (s : State) : f (settleRelease h s).host = f s.host := by
    have closed (l : List Nat) (m : QueueState → QueueState) : (forEach l (fun q t => updQ t q m) s).host = s.host :=
      forEach_keeps (f := State.host) (m := fun q t => updQ t q m) (fun _ _ => rfl) l s
    unfold settleRelease
    dsimp only
    split
    · rfl
    · exact (blind _ _).trans (congrArg f (closed _ _))
  exact (release 1 _).trans ((release 0 _).trans ((loss 1 _).trans (loss 0 s)))

theorem refreshStop_keeps {β : Type} {f : QueueState → β} (blind : ∀ x b, f { x with spillStop := b } = f x) (q : Nat) (s : State) :
    QsKeep f s (refreshStop q s) := by
  have logged (c : Prop) [Decidable c] (e : Event) (n : Nat) (d : List Byte) : QsKeep f s (if c then logEvent e n d s else s) := by
    split
    · exact (logEvent_reach _ _ _ _).qsKeep rfl
    · exact fun _ => rfl
  exact (logged _ _ _ _).trans (.updQ fun x => blind x _)

/-- A receipt that has reached the ring (R362). -/
theorem receiptArrived_leaves (q : Nat) (port : Option Nat) (raises : Bool) (s : State) :
    (getQ (receiptArrived q port raises s) q).inFlight = (getQ s q).inFlight ∧
    (getQ (receiptArrived q port raises s) q).rqTail = ((getQ s q).rqTail + 1) % 2 ^ 32 ∧
    (getQ (receiptArrived q port raises s) q).openCount = (getQ s q).openCount - 1 ∧
    (receiptArrived q port raises s).host.delivered = s.host.delivered ∧
    (receiptArrived q port raises s).host.raised = s.host.raised ++ (if raises then [((getQ s q).vector, port)] else []) := by
  let moved := updQ s q (fun x => { x with rqTail := (x.rqTail + 1) % 2 ^ 32, openCount := x.openCount - 1 })
  let told := if raises then raiseVectorOn port (getQ moved q).vector moved else moved
  have eq : receiptArrived q port raises s = settleHosts (refreshStop q told) := rfl
  have queue : getQ told q = { getQ s q with rqTail := ((getQ s q).rqTail + 1) % 2 ^ 32, openCount := (getQ s q).openCount - 1 } := by
    have set : getQ moved q = { getQ s q with rqTail := ((getQ s q).rqTail + 1) % 2 ^ 32, openCount := (getQ s q).openCount - 1 } := getQ_updQ _ _ _
    cases raises
    · exact set
    · exact ((raiseVectorOn_reach _ _ _).getQ_eq rfl q).trans set
  have side : (told.host.delivered, told.host.raised) =
      (s.host.delivered, s.host.raised ++ (if raises then [((getQ s q).vector, port)] else [])) := by
    cases raises
    · exact Prod.ext rfl (List.append_nil _).symm
    · have vector : (getQ moved q).vector = (getQ s q).vector := by
        change (getQ (updQ s q _) q).vector = _
        rw [getQ_updQ]
      exact Prod.ext rfl (congrArg (fun v => s.host.raised ++ [(v, port)]) vector)
  have stopped := refreshStop_keeps (f := fun x => (x.inFlight, x.rqTail, x.openCount)) (fun _ _ => rfl) q told
  have settled := (settleHosts_keeps (f := fun x => (x.inFlight, x.rqTail, x.openCount)) (fun _ => rfl) (refreshStop q told)).1
  have fields := (settled q).trans (stopped q)
  rw [queue] at fields
  have hosts := (settleHosts_side (f := fun x => (x.delivered, x.raised)) (fun _ _ => rfl) (refreshStop q told)).trans
    ((congrArg (fun x : HostSide => (x.delivered, x.raised)) ((refreshStop_reach q told).host_eq rfl)).trans side)
  simp only [Prod.mk.injEq] at fields hosts
  rw [eq]
  exact ⟨fields.1, fields.2.1, fields.2.2, hosts.1, hosts.2⟩

/-- A flush of what a port has delivered so far is under way. -/
def FlushCovers (n k : Nat) (s : State) : Prop := ∃ m ∈ (getGk s k).flushes, n ≤ m

theorem askFlush_port {k : Nat} (j : Nat) (s : State) : (getGk (askFlush j s) k).seq = (getGk s k).seq ∧
    (getGk (askFlush j s) k).unflushed = (getGk s k).unflushed ∧ ∀ m ∈ (getGk s k).flushes, m ∈ (getGk (askFlush j s) k).flushes := by
  unfold askFlush
  dsimp only
  split
  · exact ⟨rfl, rfl, fun _ h => h⟩
  · by_cases here : k = j
    · subst here
      rw [getGk_setGk]
      exact ⟨rfl, rfl, fun _ h => List.mem_append_left _ h⟩
    · rw [getGk_setGk_ne s _ here]
      exact ⟨rfl, rfl, fun _ h => h⟩

theorem askFlush_covers {k : Nat} (waits : (getGk s k).unflushed ≠ []) : FlushCovers (getGk s k).seq k (askFlush k s) := by
  unfold askFlush
  dsimp only
  split
  next covered =>
    obtain ⟨m, listed, low⟩ := List.any_eq_true.1 (covered.resolve_left waits)
    exact ⟨m, listed, of_decide_eq_true low⟩
  next =>
    rw [FlushCovers, getGk_setGk]
    exact ⟨_, List.mem_append_right _ List.mem_cons_self, Nat.le_refl _⟩

/-- A flush is asked for at each of some ports that have something to flush. -/
theorem askAll_covers {k : Nat} : ∀ (l : List Nat) (s : State), k ∈ l → (getGk s k).unflushed ≠ [] →
    FlushCovers (getGk s k).seq k (forEach l askFlush s) := by
  have stays {n : Nat} : ∀ (l : List Nat) (s : State), FlushCovers n k s → FlushCovers n k (forEach l askFlush s) := by
    intro l
    induction l with
    | nil => exact fun _ h => h
    | cons j l ih =>
      rintro s ⟨m, listed, low⟩
      exact ih _ ⟨m, (askFlush_port j s).2.2 m listed, low⟩
  intro l
  induction l with
  | nil => exact fun _ listed => absurd listed List.not_mem_nil
  | cons j l ih =>
    intro s listed waits
    by_cases here : k = j
    · subst here
      exact stays l _ (askFlush_covers waits)
    · obtain ⟨seq, unflushed, -⟩ := askFlush_port (k := k) j s
      rw [← seq]
      exact ih _ ((List.mem_cons.1 listed).resolve_left here) (by rwa [unflushed])

/-- A receipt spilled behind others (R342). -/
theorem spillReceipt_queue {q : Nat} (r : Receipt) (area : s.host.spillBase ≠ 0) :
    (getQ (spillReceipt q r s) q).spill = (getQ s q).spill ++ [receiptRaises r] ∧ (getQ (spillReceipt q r s) q).due = (getQ s q).due ∧
    (getQ (spillReceipt q r s) q).rqTail = (getQ s q).rqTail := by
  have written := hbmWrite_reach s none (spillAddr s q ((getQ s q).spillFirst + (getQ s q).spill.length))
    (clean (receiptBytes r (nextIndex (getQ s q)) (queueDepth s q))) []
  generalize before : hbmWrite s none (spillAddr s q ((getQ s q).spillFirst + (getQ s q).spill.length))
    (clean (receiptBytes r (nextIndex (getQ s q)) (queueDepth s q))) [] = w at written
  have stopped := refreshStop_keeps (f := fun x => (x.spill, x.due, x.rqTail)) (fun _ _ => rfl) q
    (setQ w q { getQ s q with spill := (getQ s q).spill ++ [receiptRaises r], spillTotal := (getQ s q).spillTotal + 1 }) q
  rw [getQ_setQ] at stopped
  simp only [Prod.mk.injEq] at stopped
  unfold spillReceipt
  dsimp only
  rw [if_neg area, before]
  generalize refreshStop q _ = v at stopped ⊢
  split
  · exact stopped
  · split
    · exact stopped
    · exact stopped

theorem writeReceipt_of_due {q : Nat} {r : Receipt} {rest : List Receipt} (idle : (getQ s q).inFlight = none) (due : (getQ s q).due = r :: rest) :
    writeReceipt q s = beginReceipt q r rest s := by simp only [writeReceipt, idle, due]

theorem writeReceipt_of_flight {q j : Nat} {r : Receipt} (flying : (getQ s q).inFlight = some (r, j)) : writeReceipt q s = ackReceipt q r j s := by
  simp only [writeReceipt, flying]

theorem writeReceipt_of_none {q : Nat} (idle : (getQ s q).inFlight = none) (due : (getQ s q).due = []) : writeReceipt q s = s := by
  simp only [writeReceipt, idle, due]

/-- A host-fed queue with nothing held back spills a receipt behind others that are spilled. -/
theorem beginReceipt_of_spill {q : Nat} {r : Receipt} {rest : List Receipt} (fed : (getQ s q).ringFed = false) (clear : (getQ s q).heldBack = none)
    (spilled : (getQ s q).spill ≠ []) : beginReceipt q r rest s = spillReceipt q r (setQ s q { getQ s q with due := rest }) := by
  unfold beginReceipt
  dsimp only
  rw [if_neg (by rw [fed]; decide), if_neg (by rw [clear]; decide), if_pos spilled]

theorem beginReceipt_of_clear {q p : Nat} {r : Receipt} {rest : List Receipt} (fed : (getQ s q).ringFed = false) (clear : (getQ s q).heldBack = none)
    (empty : (getQ s q).spill = [])
    (port : portFor s (receiptPlace s q (nextIndex (getQ s q))).1 (receiptPlace s q (nextIndex (getQ s q))).2 = some p) :
    beginReceipt q r rest s = if !(getQ s q).fastMode ∧ unflushedPorts s r.invocation p ≠ [] then forEach (unflushedPorts s r.invocation p) askFlush s
      else setQ s q { getQ s q with due := rest, inFlight := some (r, nextIndex (getQ s q)) } := by
  unfold beginReceipt
  dsimp only
  rw [if_neg (by rw [fed]; decide), if_neg (by rw [clear]; decide), if_neg (not_not.2 empty), port]

/-- A receipt write that its port carries is delivered there. -/
theorem writeRing_delivers {q j inv p : Nat} {bytes : List Byte} (port : portFor s (receiptPlace s q j).1 (receiptPlace s q j).2 = some p) :
    ∃ w : HostWrite, (writeRing q j inv bytes s).host.delivered = s.host.delivered ++ [(p, w)] ∧ (writeRing q j inv bytes s).host.raised = s.host.raised ∧
      QueuesStand s (writeRing q j inv bytes s) ∧ w.bytes = bytes ∧ w.host = (receiptPlace s q j).1 ∧ w.addr = (receiptPlace s q j).2 := by
  have eq : writeRing q j inv bytes s = deliverWrite p
      { host := (receiptPlace s q j).1, addr := (receiptPlace s q j).2, bytes := bytes, marks := 0, for_ := .receipt q, invocation := inv,
        trans := none, seq := 0 } s := by
    unfold writeRing sendWrite
    dsimp only
    rw [port]
  rw [eq]
  exact ⟨_, rfl, rfl, rfl, rfl, rfl, rfl⟩

theorem unflushed_waits {inv p k : Nat} (listed : k ∈ unflushedPorts s inv p) : (getGk s k).unflushed ≠ [] := by
  have waits := (Bool.and_eq_true .. ▸ (List.mem_filter.1 listed).2).2
  intro none_
  rw [none_] at waits
  exact absurd waits nofun

/-- Settles O44: the oldest receipt goes out, is acknowledged, or is spilled behind others. -/
theorem receiptsReachTheRingInOrder : Obligations.ReceiptsReachTheRingInOrder := by
  intro queue s q x
  have ran : exec (.receiptWrite queue) s = .next (writeReceipt q s) := rfl
  refine ⟨fun r rest p idle due fed clear empty port => ?_, fun r j p flying port => ?_, fun r rest idle due fed clear spilled area => ?_, fun idle due => ?_⟩
  · rw [ran, writeReceipt_of_due idle due, beginReceipt_of_clear fed clear empty port]
    refine ⟨fun flushed => congrArg _ (if_neg ?_), fun ordered waits => ⟨_, congrArg _ (if_pos ⟨by rw [show (getQ s q).fastMode = false from ordered]; rfl,
      waits⟩), ?_, fun k listed => ?_, ?_⟩⟩
    · rintro ⟨ordered, waits⟩
      rcases flushed with fast | none_
      · rw [show (getQ s q).fastMode = true from fast] at ordered
        exact absurd ordered (by decide)
      · exact waits none_
    · have reach : SameExcept [.host] s (forEach (unflushedPorts s r.invocation p) askFlush s) := .forEach askFlush_reach _ (.refl _ s)
      exact reach.getQ_eq rfl q
    · exact askAll_covers _ s listed (unflushed_waits listed)
    · exact .forEach askFlush_reach _ (.refl _ s)
  · have acks : writeReceipt q s = receiptArrived q (some p) (receiptRaises r)
        (writeRing q j r.invocation (receiptBytes r j (queueDepth s q)) (updQ s q (fun x => { x with inFlight := none }))) := by
      rw [writeReceipt_of_flight flying, ackReceipt, port]
    have place : receiptPlace (updQ s q (fun x => { x with inFlight := none })) q j = receiptPlace s q j := by
      rw [receiptPlace, receiptPlace, getQ_updQ]
      rfl
    obtain ⟨w, delivered, raised, queues, bytes, host, addr⟩ := writeRing_delivers (s := updQ s q (fun x => { x with inFlight := none })) (q := q) (j := j)
      (inv := r.invocation) (bytes := receiptBytes r j (queueDepth s q)) (p := p) (by rw [place]; exact port)
    obtain ⟨flight, tail, open_, delivered', raised'⟩ := receiptArrived_leaves q (some p) (receiptRaises r)
      (writeRing q j r.invocation (receiptBytes r j (queueDepth s q)) (updQ s q (fun x => { x with inFlight := none })))
    have queue_ : getQ (writeRing q j r.invocation (receiptBytes r j (queueDepth s q)) (updQ s q (fun x => { x with inFlight := none }))) q =
        { x with inFlight := none } := by
      rw [getQ, queues]
      exact getQ_updQ s q _
    rw [queue_] at flight tail open_ raised'
    rw [place] at host addr
    exact ⟨_, w, ran.trans (congrArg _ acks), flight, tail, open_, delivered'.trans delivered, bytes, host, addr,
      raised'.trans (congrArg (· ++ _) raised)⟩
  · obtain ⟨spill, left, tail⟩ := spillReceipt_queue (s := setQ s q { x with due := rest }) (q := q) r area
    rw [getQ_setQ] at spill left tail
    exact ⟨_, ran.trans (congrArg _ ((writeReceipt_of_due idle due).trans (beginReceipt_of_spill fed clear spilled))), spill, left, tail⟩
  · rw [ran, writeReceipt_of_none idle due]

end
end Sys2Proof.Machine
end
end

section
/-! SUPPORT. The Courier ring: what a message that is sent leaves of the ring, its ports and its map (R383-R387), the log's growth, and the
statement O45. -/
section
namespace Sys2Proof.Machine

section
variable {ps : List Part} {s t : State}

theorem SameExcept.courier_eq (h : SameExcept ps s t) (kept : ps.contains .courier = false) : t.courier = s.courier :=
  h .courier (not_mem_of_contains kept)
theorem SameExcept.plan_eq (h : SameExcept ps s t) (kept : ps.contains .plan = false) : t.plan = s.plan := h .plan (not_mem_of_contains kept)
theorem SameExcept.power_eq (h : SameExcept ps s t) (kept : ps.contains .power = false) : t.power = s.power := h .power (not_mem_of_contains kept)
theorem SameExcept.net_eq (h : SameExcept ps s t) (kept : ps.contains .net = false) : t.net = s.net := h .net (not_mem_of_contains kept)
theorem SameExcept.mc_eq (h : SameExcept ps s t) (kept : ps.contains .mc = false) : t.mc = s.mc := h .mc (not_mem_of_contains kept)
theorem SameExcept.cache_eq (h : SameExcept ps s t) (kept : ps.contains .cache = false) : t.cache = s.cache := h .cache (not_mem_of_contains kept)
theorem SameExcept.stores_eq (h : SameExcept ps s t) (kept : ps.contains .stores = false) : t.stores = s.stores :=
  h .stores (not_mem_of_contains kept)
theorem SameExcept.isl_eq (h : SameExcept ps s t) (kept : ps.contains .isl = false) : t.isl = s.isl := h .isl (not_mem_of_contains kept)

end

/-! ### The log only grows (R452) -/

/-- An island's queue of entries is nowhere shorter, and no fewer are counted as dropped. -/
def LogGrows (l m : LogState) : Prop :=
  l.droppedSince ≤ m.droppedSince ∧ ∀ n, (tabGet [] l.queues n).length ≤ (tabGet [] m.queues n).length

theorem LogGrows.refl (l : LogState) : LogGrows l l := ⟨Nat.le_refl _, fun _ => Nat.le_refl _⟩

theorem LogGrows.trans {l m n : LogState} (h : LogGrows l m) (h' : LogGrows m n) : LogGrows l n :=
  ⟨h.1.trans h'.1, fun k => (h.2 k).trans (h'.2 k)⟩

theorem queueEntry_grows (e : LogEntry) (l : LogState) : LogGrows l (queueEntry e l).2 := by
  obtain eq | eq := queueEntry_cases e l
  · rw [eq]
    refine ⟨Nat.le_refl _, fun n => ?_⟩
    rw [tabGet_tabSet]
    split
    · next same => rw [same, List.length_append]; exact Nat.le_add_right _ _
    · exact Nat.le_refl _
  · rw [eq]
    exact ⟨Nat.le_succ _, fun _ => Nat.le_refl _⟩

theorem logLimitedEntry_grows (n : Nat) (e : LogEntry) (l : LogState) : LogGrows l (logLimitedEntry n e l).2 := by
  unfold logLimitedEntry
  split
  · exact .refl _
  · exact queueEntry_grows e l

theorem noteDropped_grows (s : State) (l : LogState) : LogGrows l (noteDropped s l) := logLimitedEntry_grows _ _ l

theorem logEvent_grows (e : Event) (n : Nat) (d : List Byte) (s : State) : LogGrows s.log (logEvent e n d s).log := by
  unfold logEvent
  have entered := queueEntry_grows (mkEntry s e n d) s.log
  generalize queueEntry (mkEntry s e n d) s.log = r at entered
  obtain ⟨ok, l⟩ := r
  cases ok with
  | true => exact entered
  | false => exact entered.trans (noteDropped_grows s l)

/-- An event, whatever is logged after it, shows in the log. -/
theorem LogGrows.ne_of_event {e : Event} {n : Nat} {d : List Byte} {s : State} {l : LogState} (h : LogGrows (logEvent e n d s).log l) : l ≠ s.log := by
  rintro rfl
  obtain ⟨dropped, queues⟩ := h
  obtain eq | eq := queueEntry_cases (mkEntry s e n d) s.log
  · simp only [logEvent, eq, if_true] at queues
    have longer := queues n
    simp [mkEntry] at longer
  · simp only [logEvent, eq, Bool.false_eq_true, if_false] at dropped
    have counted := (noteDropped_grows s (countDropped s.log)).1.trans dropped
    exact absurd counted (Nat.not_succ_le_self _)

/-! ### What a message leaves of the ring -/

section
variable {β : Type} {f : CourierState → β} {s t u : State}

/-- Blind to what messages that leave change: their numbers, the retry store, what has left, and the rings' turns. -/
def SendBlind (f : CourierState → β) : Prop :=
  ∀ c o st se ae aw, f { c with out := o, store := st, sent := se, altEast := ae, altWest := aw } = f c

theorem emit_courier (blind : SendBlind f) (m : CrMsg) (dir : Option Nat) (s : State) : f (emit m dir s).courier = f s.courier := by
  have left (p : Nat) (t : State) : f (emitOn p m t).courier = f t.courier := blind _ _ _ _ _ _
  have turned (p : Nat) (c : CourierState) : f (turnRing p c) = f c := by
    unfold turnRing
    split
    · exact blind _ _ _ _ _ _
    · exact blind _ _ _ _ _ _
  unfold emit
  split
  · split
    · exact left 4 s
    split
    · exact left 5 s
    · rfl
  split
  · rfl
  split
  · next p _ => exact (left p _).trans (turned p _)
  · split
    · exact left 0 s
    · rfl

theorem sendMsg_courier (blind : SendBlind f) (flow : Nat) (m : CrMsg) (dir : Option Nat) (waits : List Nat) (piece : Option (Nat × Nat)) (s : State) :
    f (sendMsg flow m dir waits piece s).courier = f s.courier :=
  (emit_courier blind _ _ _).trans (blind _ _ _ _ _ _)

theorem sendPoint_courier (blind : SendBlind f) (type cls dst tag : Nat) (payload : PData) (piece : Option (Nat × Nat)) (s : State) :
    f (sendPoint type cls dst tag payload piece s).courier = f s.courier := sendMsg_courier blind _ _ _ _ _ s

theorem sendControl_courier (blind : SendBlind f) (fn dst : Nat) (payload : List Byte) (s : State) :
    f (sendControl fn dst payload s).courier = f s.courier := sendPoint_courier blind _ _ _ _ _ _ s

/-- Every message that is sent joins the retry store. -/
theorem emit_store (m : CrMsg) (dir : Option Nat) (s : State) : (emit m dir s).courier.store = s.courier.store := by
  have turned (p : Nat) (c : CourierState) : (turnRing p c).store = c.store := by
    unfold turnRing
    split <;> rfl
  unfold emit
  split
  · split
    · rfl
    split
    · rfl
    · rfl
  split
  · rfl
  split
  · next p _ => exact turned p _
  · split
    · rfl
    · rfl

theorem sendMsg_store (flow : Nat) (m : CrMsg) (dir : Option Nat) (waits : List Nat) (piece : Option (Nat × Nat)) (s : State) :
    ∃ e, (sendMsg flow m dir waits piece s).courier.store = s.courier.store ++ [e] ∧ e.flow = flow ∧ e.dir = dir ∧ e.waits = waits ∧ e.piece = piece ∧
      e.first = s.devTime ∧ e.last = s.devTime ∧ e.msg = { m with seq := (tabGet 0 s.courier.out flow + 1) % 2 ^ 32, src := ownPos s } :=
  ⟨_, emit_store _ _ _, rfl, rfl, rfl, rfl, rfl, rfl, rfl⟩

/-! ### Ports, links and switches -/

/-- The links of the ring map, the switches and the ports of the ring, which no message that leaves changes. -/
def ringOf (c : CourierState) : Tab CrPort × Tab CrSwitch × List (Nat × Nat) × List (Option Nat) × Option Nat × List Nat :=
  (c.ports, c.switches, c.down, c.places, c.position, c.present)

theorem ringOf_sendBlind : SendBlind ringOf := fun _ _ _ _ _ _ => rfl

theorem getCr_of_ring (h : ringOf t.courier = ringOf s.courier) (p : Nat) : getCr t p = getCr s p := by
  have ports := congrArg Prod.fst h
  exact congrArg (tabGet crPortReset · p) ports

theorem getSw_of_ring (h : ringOf t.courier = ringOf s.courier) (k : Nat) : getSw t k = getSw s k := by
  have switches := congrArg (fun r => r.2.1) h
  exact congrArg (tabGet crSwitchReset · k) switches

theorem noteOpen_courier (n : Nat) (s : State) : (noteOpen n s).courier = s.courier := (noteOpen_reach n s).courier_eq rfl

theorem noteOpen_grows (n : Nat) (s : State) : LogGrows s.log (noteOpen n s).log := by
  have logged (c : Prop) [Decidable c] (e : Event) (k : Nat) (d : List Byte) (s : State) : LogGrows s.log (if c then logEvent e k d s else s).log := by
    split
    · exact logEvent_grows _ _ _ s
    · exact .refl _
  unfold noteOpen
  split
  · exact .refl _
  · exact (logged _ _ _ _ s).trans (logged _ _ _ _ _)

/-- Tell every module of a link's change (R383). -/
def tellLink (l ring up : Nat) (s : State) : State :=
  forEach s.courier.present (fun d t => sendControl 5 d (leBytes 1 l ++ leBytes 1 ring ++ leBytes 1 up) t) s

theorem tellAll_ring (b : List Byte) : ∀ (l : List Nat) (s : State),
    ringOf (forEach l (fun d t => sendControl 5 d b t) s).courier = ringOf s.courier ∧
    (forEach l (fun d t => sendControl 5 d b t) s).courier.store.length = s.courier.store.length + l.length
  | [], _ => ⟨rfl, rfl⟩
  | d :: l, s => by
    obtain ⟨ring, count⟩ := tellAll_ring b l (sendControl 5 d b s)
    obtain ⟨e, store, -⟩ := sendMsg_store (flowPoint d 0 false) { type := crControl, cls := 0, src := 0, dst := d, seq := 0, tag := 5 + s.courier.epoch * 2 ^ 32, payload := clean b, up := false } none [d] none s
    have one : (sendControl 5 d b s).courier.store.length = s.courier.store.length + 1 := by
      rw [sendControl, sendPoint, store, List.length_append, List.length_singleton]
    exact ⟨ring.trans (sendControl_courier ringOf_sendBlind 5 d b s), by rw [forEach, count, one, List.length_cons, Nat.add_assoc, Nat.add_comm 1]⟩

/-- A link's change in the ring map. -/
def downAfter (c : CourierState) (l ring : Nat) (up : Bool) : List (Nat × Nat) :=
  if up then c.down.filter (· != (l, ring)) else c.down.filter (· != (l, ring)) ++ [(l, ring)]

theorem noticeLink_of_place {p l : Nat} {up : Bool} (low : p < 4) (place : linkPlace s p = some l) :
    ringOf (noticeLink p up s).courier = ringOf { s.courier with down := downAfter s.courier l (p / 2) up } ∧
    (noticeLink p up s).courier.store.length = s.courier.store.length + s.courier.present.length := by
  have marked : (markLink l (p / 2) up s).courier = { s.courier with down := downAfter s.courier l (p / 2) up } := noteOpen_courier _ _
  have told := tellAll_ring (leBytes 1 l ++ leBytes 1 (p / 2) ++ leBytes 1 (b2n up)) (markLink l (p / 2) up s).courier.present (markLink l (p / 2) up s)
  unfold noticeLink
  rw [if_neg (by omega), place]
  obtain ⟨ring, count⟩ := told
  have store : (markLink l (p / 2) up s).courier.store.length + (markLink l (p / 2) up s).courier.present.length =
      s.courier.store.length + s.courier.present.length := by rw [marked]
  exact ⟨ring.trans (congrArg ringOf marked), count.trans store⟩

theorem noticeLink_other {p : Nat} (up : Bool) (none_ : 4 ≤ p ∨ linkPlace s p = none) : noticeLink p up s = s := by
  unfold noticeLink
  split
  · rfl
  next low => rw [none_.resolve_left low]

/-- A notice of a link leaves the ports and the switches as they are. -/
theorem noticeLink_keeps (p : Nat) (up : Bool) (s : State) :
    (noticeLink p up s).courier.ports = s.courier.ports ∧ (noticeLink p up s).courier.switches = s.courier.switches := by
  by_cases none_ : 4 ≤ p ∨ linkPlace s p = none
  · rw [noticeLink_other up none_]
    exact ⟨rfl, rfl⟩
  · obtain ⟨low, there⟩ := not_or.1 none_
    obtain ⟨l, place⟩ := Option.ne_none_iff_exists'.1 there
    obtain ⟨ring, -⟩ := noticeLink_of_place (up := up) (Nat.not_le.1 low) place
    simp only [ringOf, Prod.mk.injEq] at ring
    exact ⟨ring.1, ring.2.1⟩

theorem markLink_grows (l ring : Nat) (up : Bool) (s : State) : LogGrows s.log (markLink l ring up s).log := by
  have grows := noteOpen_grows (openPoints s.courier).length { s with courier := { s.courier with down := downAfter s.courier l ring up } }
  exact grows

theorem noticeLink_grows (p : Nat) (up : Bool) (s : State) : LogGrows s.log (noticeLink p up s).log := by
  have told (l : List Nat) (b : List Byte) (t : State) : (forEach l (fun d t => sendControl 5 d b t) t).log = t.log := by
    have reach : SameExcept [.courier] t (forEach l (fun d t => sendControl 5 d b t) t) := .forEach (fun d t => sendControl_reach _ _ _ _) _ (.refl _ t)
    exact reach.log_eq rfl
  unfold noticeLink
  split
  · exact .refl _
  split
  · exact .refl _
  · dsimp only
    rw [told]
    exact markLink_grows _ _ _ s

theorem applyHold_ring (k : Nat) (s : State) : (applyHold k s).courier.ports = s.courier.ports ∧ (applyHold k s).courier.down = s.courier.down := by
  have told (l : List Nat) (t : State) : ringOf (forEach l (fun d t => sendControl 7 d (leBytes 1 k) t) t).courier = ringOf t.courier :=
    forEach_keeps (f := fun t : State => ringOf t.courier) (fun d t => sendControl_courier ringOf_sendBlind 7 d (leBytes 1 k) t) l t
  have moved (t : State) (h : ringOf t.courier = ringOf s.courier) (x : CrSwitch) :
      (setSw t k x).courier.ports = s.courier.ports ∧ (setSw t k x).courier.down = s.courier.down := by
    simp only [ringOf, Prod.mk.injEq] at h
    exact ⟨h.1, h.2.2.1⟩
  unfold applyHold
  split
  · exact ⟨rfl, rfl⟩
  dsimp only
  split
  · exact moved _ (told _ s) _
  · exact moved s rfl _

theorem holdDue_ring (s : State) : (holdDue s).courier.ports = s.courier.ports ∧ (holdDue s).courier.down = s.courier.down := by
  have chain {a b c : State} (h : b.courier.ports = a.courier.ports ∧ b.courier.down = a.courier.down)
      (h' : c.courier.ports = b.courier.ports ∧ c.courier.down = b.courier.down) :
      c.courier.ports = a.courier.ports ∧ c.courier.down = a.courier.down := ⟨h'.1.trans h.1, h'.2.trans h.2⟩
  have uplink (c : Prop) [Decidable c] : (if c then applyHold 2 s else releaseHold s).courier.ports = s.courier.ports ∧
      (if c then applyHold 2 s else releaseHold s).courier.down = s.courier.down := by
    split
    · exact applyHold_ring 2 s
    · unfold releaseHold
      split
      · exact ⟨rfl, rfl⟩
      · exact ⟨rfl, rfl⟩
  have up := uplink ((s.blend.cur.role.manager && (s.blend.cur.role.uplinkEast || s.blend.cur.role.uplinkWest)) = true)
  unfold holdDue
  split
  · exact ⟨rfl, rfl⟩
  dsimp only
  generalize (if (s.blend.cur.role.manager && (s.blend.cur.role.uplinkEast || s.blend.cur.role.uplinkWest)) = true then applyHold 2 s
    else releaseHold s) = u at up ⊢
  split
  · exact up
  split
  · exact chain up (chain (applyHold_ring 0 u) (applyHold_ring 1 _))
  · exact chain up (applyHold_ring 0 u)

theorem getCr_of_ports (h : t.courier.ports = s.courier.ports) (p : Nat) : getCr t p = getCr s p := congrArg (tabGet crPortReset · p) h

theorem linkPlace_of {s t : State} (places : t.courier.places = s.courier.places) (position : t.courier.position = s.courier.position) (p : Nat) :
    linkPlace t p = linkPlace s p := by
  have occ : occupied t.courier = occupied s.courier := by rw [occupied, occupied, places]
  have at_ : occOf t.courier = occOf s.courier := funext fun q => by rw [occOf, occOf, occ]
  rw [linkPlace, linkPlace, occ, at_, position]

/-- A port whose link goes down: its own state, the other ports, and the log. -/
theorem crDown_leaves (p : Nat) (s : State) : getCr (crDown p s) p = { getCr s p with link := .down, lanes := 0, neighbour := none } ∧
    (∀ q, q ≠ p → getCr (crDown p s) q = getCr s q) ∧ (crDown p s).courier.switches = s.courier.switches ∧ (crDown p s).log ≠ s.log ∧
    ∀ l, p < 4 → linkPlace s p = some l → (l, p / 2) ∈ (crDown p s).courier.down ∧
      (crDown p s).courier.store.length = s.courier.store.length + s.courier.present.length := by
  let set := updCr s p (fun x => { x with link := .down, lanes := 0, neighbour := none })
  let u := logEvent .courierLinkDown (islOfCourier p) (leBytes 1 p) set
  have eq : crDown p s = noticeLink p false u := rfl
  obtain ⟨ports, switches⟩ := noticeLink_keeps p false u
  rw [eq]
  refine ⟨?_, fun q ne => ?_, switches, (noticeLink_grows p false u).ne_of_event (s := set), fun l low place => ?_⟩
  · exact (getCr_of_ports ports p).trans (getCr_setCr s p _)
  · exact (getCr_of_ports ports q).trans (getCr_setCr_ne s _ ne)
  · obtain ⟨ring, count⟩ := noticeLink_of_place (s := u) (up := false) low ((linkPlace_of rfl rfl p).trans place)
    have down := congrArg (fun r => r.2.2.1) ring
    refine ⟨?_, count⟩
    rw [show (noticeLink p false u).courier.down = downAfter u.courier l (p / 2) false from down]
    exact List.mem_append_right _ List.mem_cons_self

theorem crRetrain_leaves (p : Nat) (full : Bool) (s : State) :
    getCr (crRetrain p full s) p = { getCr s p with link := .retraining, moved := true, full := full, retrains := (getCr s p).retrains + 1 } ∧
    (∀ q, q ≠ p → getCr (crRetrain p full s) q = getCr s q) ∧
    (crRetrain p full s).log = (logEvent .courierRetrain (islOfCourier p) (leBytes 1 p) s).log :=
  ⟨getCr_setCr s p _, fun _ ne => getCr_setCr_ne s _ ne, rfl⟩

/-- A retrain that ends, by its result and by whether it was a full one. -/
theorem crRetrained_cases {p : Nat} (training : (getCr s p).link = .retraining) :
    (∀ r, r ≠ .failed → (getCr s p).full = false → crRetrained p r s = setCr s p { getCr s p with link := .up, moved := false }) ∧
    ((getCr s p).full = true → crRetrained p .full8 s = setCr s p { getCr s p with link := .up, lanes := 8, moved := false }) ∧
    ((getCr s p).full = true → crRetrained p .half4 s = logEvent .courierLinkDegraded (islOfCourier p) (leBytes 1 p ++ leBytes 1 4)
      (setCr s p { getCr s p with link := .up, lanes := 4, moved := false })) ∧
    ((getCr s p).full = false → crRetrained p .failed s = crRetrain p true s) ∧ ((getCr s p).full = true → crRetrained p .failed s = crDown p s) := by
  have begun : ¬ ((getCr s p).link ≠ .retraining) := not_not.2 training
  refine ⟨fun r held quick => ?_, fun full => ?_, fun full => ?_, fun quick => ?_, fun full => ?_⟩
  · cases r with
    | failed => exact absurd rfl held
    | _ => simp only [crRetrained, if_neg begun, quick]
  · simp only [crRetrained, if_neg begun, full]
  · simp only [crRetrained, if_neg begun, full]
  · simp only [crRetrained, if_neg begun, quick]
  · simp only [crRetrained, if_neg begun, full]

/-- A link that comes up, or that spans too many bypassed places, up to its notice. -/
theorem crLinkUp_cases {p pos bypassed : Nat} (lanes4 : Bool) (powered : (getIsl s (islOfCourier p)).power ≠ 0) (moved : (getSw s (p / 2)).pos = 2)
    (idle : (getCr s p).link = .training ∨ (getCr s p).link = .down ∨ (getCr s p).link = .dark) :
    (3 < bypassed → crLinkUp p pos bypassed lanes4 s = holdDue (noticeLink p false (setCr s p { getCr s p with link := .down }))) ∧
    (bypassed ≤ 3 → ∃ u, crLinkUp p pos bypassed lanes4 s = holdDue (noticeLink p true u) ∧
      u.courier = (setCr s p { getCr s p with
        link := .up, lanes := if lanes4 then 4 else 8, neighbour := some pos, bypassed := bypassed, moved := false,
        express := s.blend.cur.classes.expressRing }).courier) := by
  have open_ : ¬ ((getIsl s (islOfCourier p)).power = 0 ∨ (getSw s (p / 2)).pos ≠ 2 ∨
      (!(decide ((getCr s p).link = .training) || decide ((getCr s p).link = .down) || decide ((getCr s p).link = .dark))) = true) := by
    rintro (off | elsewhere | busy)
    · exact powered off
    · exact elsewhere moved
    · rcases idle with is | is | is <;> simp [is] at busy
  unfold crLinkUp
  dsimp only
  rw [if_neg open_]
  refine ⟨fun far => if_pos far, fun near => ?_⟩
  rw [if_neg (Nat.not_lt.2 near)]
  cases lanes4 with
  | true => exact ⟨_, rfl, rfl⟩
  | false => exact ⟨_, rfl, rfl⟩

/-- A port of a switch that has settled: it trains, or goes dark. -/
def settlePort (hold : Bool) (p : Nat) (t : State) : State :=
  if (getCr t p).link = .disabled then t
  else if hold then setCr t p { getCr t p with link := .training }
  else updCr (if (getCr t p).link = .up ∨ (getCr t p).link = .retraining then crDown p t else t) p (fun x => { x with link := .dark, moved := false })

theorem settleSwitch_eq {k : Nat} (moving : (getSw s k).pos = 1) : settleSwitch k s =
    settlePort (getSw s k).hold (2 * k + 1) (settlePort (getSw s k).hold (2 * k) (setSw s k { getSw s k with
      pos := if (getSw s k).hold then 2 else 0, moves := min 0xFFFF ((getSw s k).moves + 1) })) := by
  unfold settleSwitch
  dsimp only
  rw [if_neg (not_not.2 moving)]
  rfl

theorem settlePort_keeps (hold : Bool) (p : Nat) (s : State) :
    (∀ q, q ≠ p → getCr (settlePort hold p s) q = getCr s q) ∧ (settlePort hold p s).courier.switches = s.courier.switches := by
  unfold settlePort
  split
  · exact ⟨fun _ _ => rfl, rfl⟩
  split
  · exact ⟨fun q ne => getCr_setCr_ne s _ ne, rfl⟩
  split
  · obtain ⟨-, others, switches, -⟩ := crDown_leaves p s
    exact ⟨fun q ne => (getCr_setCr_ne _ _ ne).trans (others q ne), switches⟩
  · exact ⟨fun q ne => getCr_setCr_ne s _ ne, rfl⟩

theorem settlePort_own (hold : Bool) (p : Nat) (s : State) : ((getCr s p).link = .disabled → getCr (settlePort hold p s) p = getCr s p) ∧
    ((getCr s p).link ≠ .disabled → hold = true → (getCr (settlePort hold p s) p).link = .training) ∧
    ((getCr s p).link ≠ .disabled → hold = false → (getCr (settlePort hold p s) p).link = .dark ∧ (getCr (settlePort hold p s) p).moved = false) := by
  unfold settlePort
  refine ⟨fun off => by rw [if_pos off], fun on held => ?_, fun on free => ?_⟩
  · rw [if_neg on, if_pos held, getCr_setCr]
  · rw [if_neg on, if_neg (by rw [free]; decide), updCr, getCr_setCr]
    exact ⟨rfl, rfl⟩

/-- Settles O45. -/
theorem courierPortsTrainRetrainAndGoDown : Obligations.CourierPortsTrainRetrainAndGoDown := by
  intro port pos byp half r ns k s p x
  refine ⟨fun up => ⟨?_, ?_, ?_⟩, fun training => ?_, fun powered moved idle => ?_, fun moving => ?_⟩
  · exact congrArg Host.Outcome.next (if_pos up)
  · exact congrArg Host.Outcome.next (if_pos up)
  · obtain ⟨own, others, log⟩ := crRetrain_leaves p false s
    exact ⟨_, congrArg Host.Outcome.next (if_pos up), own, log, others, crRetrain_reach p false s⟩
  · have ran (r : RetrainResult) : exec (.courierRetrainDone port r) s = .next (crRetrained p r s) := rfl
    obtain ⟨quick, full8, half4, again, down⟩ := crRetrained_cases training
    refine ⟨fun held is => ?_, ?_, ?_, ?_, ?_⟩
    · rw [ran, quick r held is]
    · rintro rfl full
      rw [ran, full8 full]
    · rintro rfl full
      exact ⟨_, (ran _).trans (congrArg _ (half4 full)), getCr_setCr s p _, rfl, crRetrained_reach p .half4 s |> fun h => half4 full ▸ h⟩
    · rintro rfl is
      obtain ⟨own, -, -⟩ := crRetrain_leaves p true s
      exact ⟨_, (ran _).trans (congrArg _ (again is)), own, crRetrain_reach p true s⟩
    · rintro rfl full
      obtain ⟨own, others, -, log, place⟩ := crDown_leaves p s
      exact ⟨_, (ran _).trans (congrArg _ (down full)), own, log, others, place, crDown_reach p s⟩
  · have ran : exec (.courierLinkUp port pos byp half) s = .next (crLinkUp p pos.val byp.val half s) := rfl
    obtain ⟨far, near⟩ := crLinkUp_cases (pos := pos.val) (bypassed := byp.val) half powered moved idle
    refine ⟨fun few => ⟨_, ran, ?_⟩, fun many => ⟨_, ran, ?_⟩⟩
    · have reach := crLinkUp_reach p pos.val byp.val half s
      obtain ⟨u, eq, courier⟩ := near few
      rw [eq] at reach ⊢
      obtain ⟨ports, down⟩ := holdDue_ring (noticeLink p true u)
      have ports := ports.trans (noticeLink_keeps p true u).1
      rw [courier] at ports
      refine ⟨(getCr_of_ports ports p).trans (getCr_setCr s p _), fun q ne => (getCr_of_ports ports q).trans (getCr_setCr_ne s _ ne),
        fun l low place => ?_, reach⟩
      obtain ⟨ring, -⟩ := noticeLink_of_place (s := u) (up := true) low ((linkPlace_of (by rw [courier]; rfl) (by rw [courier]; rfl) p).trans place)
      have marked := congrArg (fun r => r.2.2.1) ring
      rw [down, show (noticeLink p true u).courier.down = downAfter u.courier l (p / 2) true from marked]
      intro listed
      exact absurd (List.mem_filter.1 listed).2 (by simp)
    · have reach := crLinkUp_reach p pos.val byp.val half s
      rw [far many] at reach ⊢
      have ports := (holdDue_ring _).1.trans (noticeLink_keeps p false (setCr s p { x with link := .down })).1
      exact ⟨(getCr_of_ports ports p).trans (getCr_setCr s p _), reach⟩
  · have ran : exec (.bypassSwitchSettle k) s = .next (settleSwitch k.val s) := rfl
    have reach := settleSwitch_reach k.val s
    rw [settleSwitch_eq moving] at ran reach
    let w : CrSwitch := { getSw s k.val with pos := if (getSw s k.val).hold then 2 else 0, moves := min 0xFFFF ((getSw s k.val).moves + 1) }
    let u := setSw s k.val w
    let v := settlePort (getSw s k.val).hold (2 * k.val) u
    obtain ⟨others, switches⟩ := settlePort_keeps (getSw s k.val).hold (2 * k.val) u
    obtain ⟨others', switches'⟩ := settlePort_keeps (getSw s k.val).hold (2 * k.val + 1) v
    have switch : getSw (settlePort (getSw s k.val).hold (2 * k.val + 1) v) k.val = w :=
      (congrArg (tabGet crSwitchReset · k.val) (switches'.trans switches)).trans (getSw_setSw s k.val w)
    have held := congrArg CrSwitch.hold switch
    have unmoved (q : Nat) : getCr u q = getCr s q := rfl
    refine ⟨_, ran, congrArg CrSwitch.pos switch, held, congrArg CrSwitch.moves switch, ?_, reach⟩
    rintro q (rfl | rfl)
    · have own := settlePort_own (getSw s k.val).hold (2 * k.val) u
      rw [unmoved] at own
      rw [others' (2 * k.val) (by omega)]
      exact own
    · have own := settlePort_own (getSw s k.val).hold (2 * k.val + 1) v
      rw [others (2 * k.val + 1) (by omega), unmoved] at own
      exact own

end
end Sys2Proof.Machine
end
end

section
/-! SUPPORT. Pending row updates (R242): the statement O31. -/
section
namespace Sys2Proof.Machine

/-- What a fold writes: each piece of the row, in HBM or in a scratchpad. -/
def foldPut (data : PData) (e : FoldPlace × Nat × Nat) (t : State) : State :=
  let d := sliceAt data e.2.1 e.2.2
  match e.1 with
  | .hbm a => hbmWrite (hbmTurn 1 a e.2.2 t) none a d []
  | .scratch k => memWrite t k d
  | .outside => t

/-- An update whose row and source are reached, and that may fold, folds. -/
theorem foldUpdate_folds {die k : Nat} {src : PData} {s : State} {u : RowUpdate} {e : TableEntry} {ws rs : List (FoldPlace × Nat × Nat)}
    (pending : (getStore s die).updates[k]? = some u) (table : tabFind (getStore s die).tables u.table = some e)
    (row : foldPlaces s e.owner (((e.slot u.slot).base + u.row * e.rowStride * 64) % 2 ^ 48) e.rowBytes .write = some ws)
    (source : foldPlaces s e.owner u.source e.rowBytes .read = some rs)
    (may : mayFold s die u = true) (inside : ∀ w ∈ ws, w.1 ≠ .outside) :
    foldUpdate die k src s = postDone u.done (updStore (forEach ws (foldPut (foldRead src rs s).1) (foldRead src rs s).2) die
      (fun st => { st with updates := st.updates.filter (fun w => decide (w ≠ u)) })) := by
  have none_ : ws.any (fun e => decide (e.1 = .outside)) = false := by
    simpa using fun a b c h => inside (a, b, c) h
  unfold foldUpdate
  simp only [pending, table, row, source, may, none_]
  rfl

/-- One that may not, or whose row or source is not reached, stays pending. -/
theorem foldUpdate_stays {die k : Nat} {s : State} {u : RowUpdate} {e : TableEntry} (src : PData)
    (pending : (getStore s die).updates[k]? = some u) (table : tabFind (getStore s die).tables u.table = some e)
    (kept : foldPlaces s e.owner (((e.slot u.slot).base + u.row * e.rowStride * 64) % 2 ^ 48) e.rowBytes .write = none ∨
      foldPlaces s e.owner u.source e.rowBytes .read = none ∨ mayFold s die u = false) :
    foldUpdate die k src s = s := by
  unfold foldUpdate
  simp only [pending, table]
  obtain row | source | may := kept
  · rw [row]
  · rw [source]
    split
    · contradiction
    · rfl
  · split
    · rw [if_pos (.inl (by simp [may]))]
    · rfl

/-- Settles O31: a pending update is `foldUpdate`, which folds where the row and the source are reached and the update may fold. -/
theorem updatesFoldIntoTheirRows : Obligations.UpdatesFoldIntoTheirRows := by
  intro die update source s u e pending table row src
  exact ⟨fun ws rs isRow isSrc may inside => congrArg Host.Outcome.next (foldUpdate_folds pending table isRow isSrc may inside),
    fun kept => congrArg Host.Outcome.next (foldUpdate_stays _ pending table kept)⟩

end Sys2Proof.Machine
end
end

section
/-! SUPPORT. Table commands (R244): the refutation of O30. A port's owed post fires before its next command is performed, and the grant that the
post gives writes the table of grinders; where that table lists a grinder twice, the write drops both, and with them a bound batch. -/
section
namespace Sys2Proof.Machine

/-- A version that is retired but not yet marked. -/
def retiredEntry : TableEntry :=
  { rowFmt := 9, sliceBytes := 4, rowStride := 1, owner := 0, slot0 := { state := 3, base := 0, rows := 1, epoch := 1 }, slot1 := slotEmpty,
    retiring := none, undefining := none, forced := none, seq := 0 }

/-- A batch in progress that is bound to it. -/
def boundBatch : Batch :=
  { id := 0, inv := 0, context := 0, cls := 0, region := none, core := 0, opSeq := 0, done := none, phase := .pooling,
    desc := some (batchDesc []), binding := some { slot := 0, epoch := 1, q := 0, base := 0, rows := 1 }, xfers := [], ring := [], lens := [], idx := [],
    wgt := [], next := 0, applied := 0, outstanding := [], resident := [], data := [], reads := 0, lookups := 0, forced := none, rows := [], rowsOut := 0,
    unposted := 0, recorded := false }

/-- A port owes its post to a semaphore at which grinder 0 takes nothing; the table of grinders lists grinder 0 twice, the second time with the
bound batch. -/
def doubledGrinder : State :=
  { State.reset with
    pm := { State.reset.pm with carrierRuns := true }
    sems := [(0, { value := 0, waiters := [.grinder 0 0 0] })]
    grinders := [(0, { grinderReset with takes := [0] }), (0, { grinderReset with active := [boundBatch] })]
    stores := [(0, { tableStoreReset with tables := [(0, retiredEntry)], port0 := { tablePortReset with due := some 0 } })] }

/-- The state of the slot after a command. -/
def slotAfter : Out State → Option Nat
  | .next t => (tabFind (getStore t 0).tables 0).map (fun e => (e.slot 0).state)
  | _ => none

theorem retire_empties_doubled : slotAfter (exec (.tableRetire (.carrier 0) 0 0 4) doubledGrinder) = some 0 := by decide

/-- Refutes O30: RETIRE on `doubledGrinder` empties the slot that a batch is bound to. -/
theorem not_tableCommandsChangeTheirTable : ¬ Obligations.TableCommandsChangeTheirTable := by
  intro h
  obtain ⟨-, -, -, retire, -⟩ := h.1 (.carrier 0) 0 0 4 doubledGrinder (by decide) (by decide) (by decide) (by decide) (by decide) (by decide)
    (by decide)
  obtain ⟨t, f, ran, -, entry, -, stays⟩ := (retire retiredEntry 0 (by decide) (by decide) (by decide) (by decide) rfl rfl).1 (by decide)
  have emptied := retire_empties_doubled
  rw [ran] at emptied
  have entry : tabFind (getStore t 0).tables 0 = some f := entry
  have kept : f.slot 0 = retiredEntry.slot 0 := (stays (by decide)).1
  simp only [slotAfter, entry, Option.map_some, kept] at emptied
  exact absurd emptied (by decide)

end Sys2Proof.Machine
end
end

section
/-! SUPPORT. How a piece of a transfer lands and ends (R189, R391), the steps that wait for the standby (R406), and the statement O47. -/
section
namespace Sys2Proof.Machine

/-! ### Pieces -/

section
variable {s t : State} {x p : Nat} {v : Xfer} {q : Piece}

theorem getElem?_setNth {α : Type} : ∀ (l : List α) (n : Nat) (a b : α), l[n]? = some b → (setNth l n a)[n]? = some a
  | [], _, _, _, h => by simp at h
  | _ :: _, 0, _, _, _ => rfl
  | _ :: l, n + 1, a, b, h => getElem?_setNth l n a b h

theorem getPiece_iff : getPiece s x p = some (v, q) ↔ getXfer s x = some v ∧ v.pieces[p]? = some q := by
  unfold getPiece
  constructor
  · intro stands
    obtain ⟨w, here, there⟩ := Option.bind_eq_some_iff.1 stands
    obtain ⟨r, at_, same⟩ := Option.map_eq_some_iff.1 there
    obtain ⟨rfl, rfl⟩ := Prod.mk.inj same
    exact ⟨here, at_⟩
  · rintro ⟨here, at_⟩
    rw [here, Option.bind_some, at_, Option.map_some]

theorem getPiece_of_xfer (h : getXfer t x = getXfer s x) : getPiece t x p = getPiece s x p := by rw [getPiece, getPiece, h]

theorem updPiece_of_piece (m : Piece → Piece) (stands : getPiece s x p = some (v, q)) :
    updPiece s x p m = setXfer s x { v with pieces := setNth v.pieces p (m q) } := by
  obtain ⟨here, at_⟩ := getPiece_iff.1 stands
  simp only [updPiece, here, at_]

theorem getPiece_updPiece (m : Piece → Piece) (stands : getPiece s x p = some (v, q)) :
    getPiece (updPiece s x p m) x p = some ({ v with pieces := setNth v.pieces p (m q) }, m q) := by
  rw [updPiece_of_piece m stands]
  exact getPiece_iff.2 ⟨getXfer_setXfer _ _ _, getElem?_setNth _ _ _ _ (getPiece_iff.1 stands).2⟩

theorem getPiece_setXfer {w : Xfer} (stands : getPiece s x p = some (v, q)) (pieces : w.pieces = v.pieces) :
    getPiece (setXfer s x w) x p = some (w, q) :=
  getPiece_iff.2 ⟨getXfer_setXfer _ _ _, pieces ▸ (getPiece_iff.1 stands).2⟩

/-- A piece that is not over lands. -/
theorem landPiece_lands (d : PData) (stands : getPiece s x p = some (v, q)) (under : pieceOver q = false) :
    ∃ w r, getPiece (landPiece x p d s) x p = some (w, r) ∧ r.state = .landed := by
  unfold landPiece
  rw [stands]
  dsimp only
  rw [if_neg (by simp [under])]
  generalize written : (if v.kind = .write then countPoison v q.daddr d s else _) = u
  have there : ∃ w, getPiece u x p = some (w, q) := by
    rw [← written]
    split
    · exact ⟨v, (getPiece_of_xfer ((countPoison_reach v q.daddr d s).getXfer_eq rfl x)).trans stands⟩
    split
    · exact ⟨_, getPiece_setXfer stands rfl⟩
    split
    · next ph _ => exact ⟨v, (getPiece_of_xfer ((portWrite_reach ph 0 q.near d s).getXfer_eq rfl x)).trans stands⟩
    · exact ⟨v, stands⟩
  obtain ⟨w, there⟩ := there
  have landed := getPiece_updPiece (fun q => { q with state := .landed }) there
  rw [(getPiece_iff.1 landed).1]
  exact ⟨_, _, getPiece_setXfer landed rfl, rfl⟩

theorem poisonPiece_piece (stands : getPiece s x p = some (v, q)) : ∃ w, getPiece (poisonPiece x q s) x p = some (w, q) := by
  unfold poisonPiece
  rw [(getPiece_iff.1 stands).1]
  dsimp only
  split
  · exact ⟨v, stands⟩
  split
  · exact ⟨_, getPiece_setXfer stands rfl⟩
  split
  · next ph _ =>
    have reach : SameExcept [.isl, .mem, .poison] s
        (portWrite ph 0 q.near (marked (scrBytes s ph q.near q.len)) (poisonRange s (scratchKey ph q.near) q.len)) :=
      .step (portWrite_reach _ _ _ _ _) rfl ((poisonRange_reach s _ _).weaken rfl)
    exact ⟨v, (getPiece_of_xfer (reach.getXfer_eq rfl x)).trans stands⟩
  · exact ⟨v, stands⟩

/-- A piece that is not over ends. -/
theorem endPiece_ends (stands : getPiece s x p = some (v, q)) (under : pieceOver q = false) :
    ∃ w r, getPiece (endPiece x p s) x p = some (w, r) ∧ r.state = .ended := by
  unfold endPiece
  rw [stands]
  dsimp only
  rw [if_neg (by simp [under])]
  obtain ⟨w, there⟩ := poisonPiece_piece stands
  exact ⟨_, _, getPiece_updPiece _ there, rfl⟩

theorem landPiece_getQ (x p : Nat) (d : PData) (s : State) (k : Nat) : getQ (landPiece x p d s) k = getQ s k := by
  have counted (u : State) (i : Nat) (m : Invocation → Invocation) : getQ (updInv u i m) k = getQ u k := by
    unfold updInv
    split
    · rfl
    · rfl
  unfold landPiece
  split
  · rfl
  split
  · rfl
  next v q _ _ =>
  have last (u : State) : getQ (match getXfer u x with | some w => setXfer u x { w with lastLand := u.devTime } | none => u) k = getQ u k := by
    split
    · rfl
    · rfl
  dsimp only
  refine ((last _).trans ((updPiece_reach _ x p _).getQ_eq rfl k)).trans ?_
  split
  · unfold countPoison
    rw [if_pos ‹_›]
    exact counted s v.inv _
  split
  · rfl
  split
  · exact (portWrite_reach _ _ _ _ _).getQ_eq rfl k
  · rfl

theorem getInv_updInv {i : Nat} {u : Invocation} (m : Invocation → Invocation) (stands : getInv s i = some u) : getInv (updInv s i m) i = some (m u) := by
  rw [updInv, stands]
  exact tabFind_tabPut_same _ _ _

end

/-! ### Steps wait for the standby (R406) -/

/-- What becomes of the steps that waited: they leave once the tables are mirrored. -/
def StepsGo (held : List (Nat × Nat × Nat × PData)) (t : State) : Prop :=
  (mirrored t = true → t.courier.heldSteps = [] ∧ ∀ x ∈ held, ∃ f ∈ t.courier.store, f.msg.type = crStep ∧ f.msg.dst = x.1 ∧
    f.msg.cls = x.2.1 ∧ f.msg.payload = x.2.2.2 ∧ f.waits = [x.1]) ∧
  (mirrored t = false → t.courier.heldSteps = held)

/-- What the tables' mirroring depends on: the groups, and the table that they hold. -/
theorem mirrored_of {s t : State} {e : CrStored} (store : t.courier.store = s.courier.store ++ [e]) (step : e.msg.type = crStep)
    (groups : t.courier.groups = s.courier.groups) (blend : t.blend = s.blend) : mirrored t = mirrored s := by
  have no : (crStep == crGather) = false := rfl
  rw [mirrored, mirrored, store, List.any_append, groups, blend, List.any_cons, List.any_nil, step, no, Bool.false_and, Bool.or_false, Bool.or_false]

/-- Send one step. -/
def sendStep (h : Nat × Nat × Nat × PData) (t : State) : State := sendPoint crStep h.2.1 h.1 (h.2.2.1 + t.courier.epoch * 2 ^ 32) h.2.2.2 none t

theorem sendStep_leaves (h : Nat × Nat × Nat × PData) (s : State) : (∃ e, (sendStep h s).courier.store = s.courier.store ++ [e] ∧ e.msg.type = crStep ∧
      e.msg.dst = h.1 ∧ e.msg.cls = h.2.1 ∧ e.msg.payload = h.2.2.2 ∧ e.waits = [h.1]) ∧ mirrored (sendStep h s) = mirrored s ∧
    (sendStep h s).courier.heldSteps = s.courier.heldSteps := by
  obtain ⟨e, store, -, -, waits, -, -, -, msg⟩ := sendMsg_store (flowPoint h.1 h.2.1 false)
    { type := crStep, cls := h.2.1, src := 0, dst := h.1, seq := 0, tag := h.2.2.1 + s.courier.epoch * 2 ^ 32, payload := h.2.2.2, up := false } none [h.1] none s
  have groups : (sendStep h s).courier.groups = s.courier.groups := sendPoint_courier (f := CourierState.groups) (fun _ _ _ _ _ _ => rfl) _ _ _ _ _ _ s
  have held : (sendStep h s).courier.heldSteps = s.courier.heldSteps :=
    sendPoint_courier (f := CourierState.heldSteps) (fun _ _ _ _ _ _ => rfl) _ _ _ _ _ _ s
  refine ⟨⟨e, store, ?_⟩, mirrored_of store (by rw [msg]) groups ((sendPoint_reach _ _ _ _ _ _ s).blend_eq rfl), held⟩
  rw [msg]
  exact ⟨rfl, rfl, rfl, rfl, waits⟩

theorem sendAll_leaves : ∀ (l : List (Nat × Nat × Nat × PData)) (s : State), (∀ e ∈ s.courier.store, e ∈ (forEach l sendStep s).courier.store) ∧
    (∀ x ∈ l, ∃ f ∈ (forEach l sendStep s).courier.store, f.msg.type = crStep ∧ f.msg.dst = x.1 ∧ f.msg.cls = x.2.1 ∧ f.msg.payload = x.2.2.2 ∧
      f.waits = [x.1]) ∧ mirrored (forEach l sendStep s) = mirrored s ∧ (forEach l sendStep s).courier.heldSteps = s.courier.heldSteps
  | [], s => ⟨fun _ h => h, fun _ h => absurd h (by simp), rfl, rfl⟩
  | h :: l, s => by
    obtain ⟨⟨e, store, sent⟩, same, held⟩ := sendStep_leaves h s
    obtain ⟨stay, all, same', held'⟩ := sendAll_leaves l (sendStep h s)
    refine ⟨fun f there => stay f (by rw [store]; exact List.mem_append_left _ there), fun x listed => ?_, same'.trans same, held'.trans held⟩
    obtain rfl | listed := List.mem_cons.1 listed
    · exact ⟨e, stay e (by rw [store]; exact List.mem_append_right _ (List.mem_singleton.2 rfl)), sent⟩
    · exact all x listed

theorem sendSteps_of_none (none_ : s.courier.heldSteps = []) : sendSteps s = s := if_pos (.inl none_)

/-- The steps go, and no stored message is lost. -/
theorem sendSteps_go (s : State) : StepsGo s.courier.heldSteps (sendSteps s) ∧ ∀ e ∈ s.courier.store, e ∈ (sendSteps s).courier.store := by
  by_cases stays : s.courier.heldSteps = [] ∨ !mirrored s
  · rw [show sendSteps s = s from if_pos stays]
    refine ⟨⟨fun is => ?_, fun _ => rfl⟩, fun _ h => h⟩
    have none_ := stays.resolve_right (by simp [is])
    exact ⟨none_, by rw [none_]; exact fun _ h => absurd h (by simp)⟩
  · have eq : sendSteps s = forEach s.courier.heldSteps sendStep { s with courier := { s.courier with heldSteps := [] } } := if_neg stays
    obtain ⟨stay, all, same, held⟩ := sendAll_leaves s.courier.heldSteps { s with courier := { s.courier with heldSteps := [] } }
    have is : mirrored s = true := by simpa using (not_or.1 stays).2
    have same : mirrored (sendSteps s) = mirrored s := by rw [eq, same]; rfl
    refine ⟨⟨fun _ => ⟨by rw [eq, held], by rw [eq]; exact all⟩, fun no => absurd (no.symm.trans (same.trans is)) (by decide)⟩, by rw [eq]; exact stay⟩

/-! ### Stored messages -/

theorem findStored_spec {s : State} {h : CrHead} {flow : CrFlow} {seq : Nat} {e : CrStored} (found : findStored s h flow seq = some e) :
    e ∈ s.courier.store ∧ e.msg.seq = seq ∧ h.src.val ∈ e.waits := by
  have named := List.find?_some found
  simp only [Bool.and_eq_true, beq_iff_eq, List.contains_iff_mem] at named
  exact ⟨List.mem_of_find?_eq_some found, named.1.2, named.2⟩

theorem putStored_removed (e : CrStored) (s : State) : ∀ f ∈ (putStored e none s).courier.store, f.flow = e.flow → f.msg.seq ≠ e.msg.seq := by
  intro f there flow seq
  obtain ⟨g, -, kept⟩ := List.mem_filterMap.1 there
  split at kept
  · contradiction
  next other => exact other (Option.some.inj kept ▸ ⟨flow, seq⟩)

theorem putStored_replaced {e : CrStored} (f : CrStored) {s : State} (listed : e ∈ s.courier.store) : f ∈ (putStored e (some f) s).courier.store :=
  List.mem_filterMap.2 ⟨e, listed, if_pos ⟨rfl, rfl⟩⟩

theorem putStored_mem {e g : CrStored} {f : Option CrStored} {s : State} (there : g ∈ (putStored e f s).courier.store) :
    f = some g ∨ g ∈ s.courier.store ∧ ¬(g.flow = e.flow ∧ g.msg.seq = e.msg.seq) := by
  obtain ⟨k, listed, kept⟩ := List.mem_filterMap.1 there
  split at kept
  · exact .inl kept
  next other => exact .inr (Option.some.inj kept ▸ ⟨listed, other⟩)

/-- An acknowledgement leaves every field of the ring but the retry store. -/
theorem ackedBy_heldSteps (e : CrStored) (pos : Nat) (s : State) : (ackedBy e pos s).courier.heldSteps = s.courier.heldSteps := rfl

end Sys2Proof.Machine
end
end

section
/-! SUPPORT. Answers of the Courier ring (R387, R389, R391, R395, R405): the statement O47. -/
section
namespace Sys2Proof.Machine

/-- A stored message's piece lands, if it has one. -/
def landStored (e : CrStored) (s : State) : State :=
  match e.piece with
  | some (x, p) => landPiece x p e.msg.payload s
  | none => s

/-- What an ACK answers, and what the acknowledgement of a step's receipt advances. -/
def ackTail (e : CrStored) (old : Dword) (s : State) : State :=
  let s := if e.msg.type = crAtomic then answer (leBytes 8 old.toNat) s else s
  if e.msg.type = crStepReceipt then updQ s (e.msg.tag % 1024) (fun q => { q with rqHead := (q.rqHead + 1) % 2 ^ 32 }) else s

theorem acked_eq {h : CrHead} {flow : CrFlow} {seq : Nat} {e : CrStored} {s : State} (old : Dword) (there : arrives s h = true)
    (found : findStored s h flow seq = some e) (other : e.msg.type ≠ crRead) :
    acked h flow seq old s = sendSteps (ackTail e old (landStored e (ackedBy e h.src.val s))) := by
  unfold acked
  simp only [there, found, if_true]
  exact if_neg other

theorem landStored_reach (e : CrStored) (s : State) : SameExcept [.isl, .mem, .poison, .xfers, .qs] s (landStored e s) := by
  unfold landStored
  split
  · exact landPiece_reach _ _ _ s
  · exact .refl _ s

theorem ackTail_reach (e : CrStored) (old : Dword) (s : State) : SameExcept [.qs, .answers] s (ackTail e old s) := by
  have one (u : State) : SameExcept [.qs, .answers] u
      (if e.msg.type = crStepReceipt then updQ u (e.msg.tag % 1024) (fun q => { q with rqHead := (q.rqHead + 1) % 2 ^ 32 }) else u) := by
    split
    · exact (updQ_reach _ _ _).weaken rfl
    · exact .refl _ u
  refine .trans ?_ (one _)
  split
  · exact (answer_reach _ _).weaken rfl
  · exact .refl _ s

theorem landStored_getQ (e : CrStored) (s : State) (k : Nat) : getQ (landStored e s) k = getQ s k := by
  unfold landStored
  split
  · exact landPiece_getQ _ _ _ s k
  · rfl

theorem ackTail_rqHead {e : CrStored} (receipt : e.msg.type = crStepReceipt) (old : Dword) (s : State) :
    (getQ (ackTail e old s) (e.msg.tag % 1024)).rqHead = ((getQ s (e.msg.tag % 1024)).rqHead + 1) % 2 ^ 32 := by
  have no : ¬ e.msg.type = crAtomic := by rw [receipt]; decide
  simp only [ackTail, if_neg no, if_pos receipt, updQ, getQ_setQ]

/-! ### A NACK -/

theorem nacked_eq {h : CrHead} {flow : CrFlow} {seq reason : Nat} {e : CrStored} {s : State} (there : arrives s h = true)
    (found : findStored s h flow seq = some e) :
    (reason = 2 → nacked h flow seq reason s =
      let q := (tabGet 0 s.courier.out e.flow + 1) % 2 ^ 32
      let t := putStored e (some { e with msg := { e.msg with seq := q }, last := s.devTime }) s
      { t with courier := { t.courier with out := tabSet 0 s.courier.out e.flow q } }) ∧
    (reason = 4 → nacked h flow seq reason s =
      sendSteps (logEvent .courierGroupRefused islRing (leBytes 2 (e.msg.tag % 256) ++ leBytes 1 h.src.val) (putStored e none s))) := by
  constructor
  · rintro rfl
    unfold nacked
    simp only [there, found, if_true]
    rfl
  · rintro rfl
    unfold nacked
    simp only [there, found, if_true]
    rfl

/-- A transfer is marked as failed. -/
def failXfer (x : Nat) (s : State) : State := match getXfer s x with | some w => setXfer s x { w with failed := true } | none => s

theorem nacked_of_refused {h : CrHead} {flow : CrFlow} {seq reason x p : Nat} {e : CrStored} {s : State} {v : Xfer} (there : arrives s h = true)
    (found : findStored s h flow seq = some e) (no2 : reason ≠ 2) (no4 : reason ≠ 4) (piece : e.piece = some (x, p)) (stands : getXfer s x = some v) :
    nacked h flow seq reason s = updInv (failXfer x (endPiece x p (logRefused h.src.val reason (e.msg.tag % 2 ^ 48) (putStored e none s)))) v.inv
      (fun i => { i with refused := true }) := by
  have kept : getXfer (putStored e none s) x = some v := stands
  unfold nacked
  simp only [there, found, no2, no4, piece, kept, if_true, if_false]
  rfl

theorem failXfer_piece {s : State} {x p : Nat} {v : Xfer} {q : Piece} (stands : getPiece s x p = some (v, q)) :
    getPiece (failXfer x s) x p = some ({ v with failed := true }, q) := by
  rw [failXfer, (getPiece_iff.1 stands).1]
  exact getPiece_setXfer stands rfl

theorem failXfer_reach (x : Nat) (s : State) : SameExcept [.xfers] s (failXfer x s) := by
  unfold failXfer
  split
  · exact setXfer_reach _ _ _
  · exact .refl _ s

/-! ### A position that is lost -/

/-- A stored message that no longer waits for a position. -/
def WaitsNot (pos : Nat) (f : CrStored) : Prop := pos ∉ f.waits

theorem ackedBy_waits {e f : CrStored} {pos : Nat} {s : State} (there : f ∈ (ackedBy e pos s).courier.store) :
    WaitsNot pos f ∨ f ∈ s.courier.store ∧ ¬(f.flow = e.flow ∧ f.msg.seq = e.msg.seq) := by
  obtain new | old := putStored_mem there
  · split at new
    · contradiction
    · exact .inl (Option.some.inj new ▸ fun listed => by simp at listed)
  · exact .inr old

/-- End a message held for a position. -/
def endHeld (pos : Nat) (e : CrStored) (t : State) : State :=
  match e.piece with
  | some (x, p) => endPiece x p (ackedBy e pos t)
  | none => ackedBy e pos t

theorem endHeld_reach (pos : Nat) (e : CrStored) (s : State) : SameExcept [.isl, .mem, .poison, .xfers, .courier] s (endHeld pos e s) := by
  have acks : SameExcept [.isl, .mem, .poison, .xfers, .courier] s (ackedBy e pos s) := (ackedBy_reach _ _ _).weaken rfl
  unfold endHeld
  split
  · exact .step (endPiece_reach _ _ _) rfl acks
  · exact acks

theorem endHeld_courier (pos : Nat) (e : CrStored) (s : State) : (endHeld pos e s).courier = (ackedBy e pos s).courier := by
  unfold endHeld
  split
  · exact (endPiece_reach _ _ _).courier_eq rfl
  · rfl

theorem endAll_waits {pos : Nat} : ∀ (l : List CrStored) (s : State) (f : CrStored), f ∈ (forEach l (endHeld pos) s).courier.store →
    WaitsNot pos f ∨ f ∈ s.courier.store ∧ ∀ e ∈ l, ¬(f.flow = e.flow ∧ f.msg.seq = e.msg.seq)
  | [], _, _, there => .inr ⟨there, fun _ h => absurd h (by simp)⟩
  | e :: l, s, f, there => by
    obtain done | ⟨before, rest⟩ := endAll_waits l _ f there
    · exact .inl done
    · rw [endHeld_courier] at before
      obtain done | ⟨before, this⟩ := ackedBy_waits before
      · exact .inl done
      · exact .inr ⟨before, fun g listed => by
          obtain rfl | listed := List.mem_cons.1 listed
          · exact this
          · exact rest g listed⟩

theorem endAll_keeps {β : Type} {f : CourierState → β} (blind : ∀ c l, f { c with store := l } = f c) (pos : Nat) (l : List CrStored) (s : State) :
    f (forEach l (endHeld pos) s).courier = f s.courier :=
  forEach_keeps (f := fun t : State => f t.courier) (fun e t => (congrArg f (endHeld_courier pos e t)).trans (blind _ _)) l s

/-- The state in which a position is found to be absent. -/
def markAbsent (pos : Nat) (s : State) : State :=
  let t := logEvent .courierPeerLost islRing (leBytes 1 pos) s
  { t with courier := { t.courier with present := setDel s.courier.present pos } }

theorem peerLost_eq {pos : Nat} {e : CrStored} {s : State} (limit : s.courier.limitMs ≠ 0) (listed : e ∈ heldFor s pos)
    (late : e.first + s.courier.limitMs * 1000000 ≤ s.devTime) :
    peerLost pos s = sendSteps (forEach (heldFor s pos) (endHeld pos) (markAbsent pos s)) := by
  have any : (heldFor s pos).any (fun e => decide (e.first + s.courier.limitMs * 1000000 ≤ s.devTime)) = true :=
    List.any_eq_true.2 ⟨e, listed, decide_eq_true late⟩
  unfold peerLost
  simp only [any]
  rw [if_neg (by simp [limit])]
  rfl

theorem not_mem_setDel (n : Nat) : ∀ l : List Nat, n ∉ setDel l n
  | [] => by simp [setDel]
  | k :: l => by
    unfold setDel
    split
    · exact not_mem_setDel n l
    · next ne => exact fun listed => (List.mem_cons.1 listed).elim ne (not_mem_setDel n l)

theorem sendSteps_courier {β : Type} {f : CourierState → β} (blind : SendBlind f) (held : ∀ c l, f { c with heldSteps := l } = f c) (s : State) :
    f (sendSteps s).courier = f s.courier := by
  unfold sendSteps
  split
  · rfl
  · exact (forEach_keeps (f := fun t : State => f t.courier) (fun h t => sendPoint_courier blind _ _ _ _ _ _ t) _ _).trans (held _ _)

theorem emit_routed {m : CrMsg} {dir : Option Nat} {p : Nat} {s : State} (own : m.up = false) (serves : s.courier.managerLost = false)
    (port : portTo s m.dst dir = some p) : (emit m dir s).courier.sent = s.courier.sent ++ [(p, m)] := by
  have turned : (turnRing p s.courier).sent = s.courier.sent := by
    unfold turnRing
    split
    · rfl
    · rfl
  unfold emit
  simp only [own, serves, port]
  exact congrArg (· ++ [(p, m)]) turned

theorem endPiece_over {s : State} {x p : Nat} {v : Xfer} {q : Piece} (stands : getPiece s x p = some (v, q)) :
    ∃ w r, getPiece (endPiece x p s) x p = some (w, r) ∧ pieceOver r = true := by
  cases under : pieceOver q with
  | false =>
    obtain ⟨w, r, there, ended⟩ := endPiece_ends stands under
    exact ⟨w, r, there, by simp [pieceOver, ended]⟩
  | true =>
    have same : endPiece x p s = s := by
      simp only [endPiece, stands, under]
      rfl
    exact ⟨v, q, same.symm ▸ stands, under⟩

theorem landStored_lands {e : CrStored} {s : State} {x p : Nat} {v : Xfer} {q : Piece} (piece : e.piece = some (x, p))
    (stands : getPiece s x p = some (v, q)) (under : pieceOver q = false) :
    ∃ w r, getPiece (landStored e s) x p = some (w, r) ∧ r.state = .landed := by
  rw [landStored, piece]
  exact landPiece_lands e.msg.payload stands under

/-- Settles O47: an answer is followed through the stored message that it names, its piece, and the steps that waited. -/
theorem answersEndWhatWaitsForThem : Obligations.AnswersEndWhatWaitsForThem := by
  intro h flow seq old reason i pos s e stepsGo noHeld
  refine ⟨fun there found => ?_, fun at_ early => ?_, fun at_ late => ?_, fun limit listed own waits free late => ?_⟩
  · obtain ⟨listed, -, -⟩ := findStored_spec found
    refine ⟨fun other => ?_, fun full => ?_, fun group => ?_, fun no2 no4 j k v p piece stands => ?_⟩
    · let w := ackedBy e h.src.val s
      let u := landStored e w
      let t := ackTail e old u
      have ran : exec (.ack h flow seq old) s = .next (sendSteps t) := congrArg Host.Outcome.next (acked_eq old there found other)
      have courier : t.courier = w.courier := ((ackTail_reach e old u).courier_eq rfl).trans ((landStored_reach e w).courier_eq rfl)
      have held : t.courier.heldSteps = s.courier.heldSteps := (congrArg CourierState.heldSteps courier).trans rfl
      obtain ⟨go, stay⟩ := sendSteps_go t
      have frame := sendSteps_reach t
      rw [held] at go
      refine ⟨_, ran, go, fun none_ all f => ?_, fun more => ?_, fun j k v p piece stands under => ?_, fun receipt => ?_⟩
      · have gone : e.waits.filter (· != h.src.val) = [] := List.filter_eq_nil_iff.2 fun x listed => by simp [all x listed]
        have removed := putStored_removed e s f
        rw [sendSteps_of_none (held.trans none_), courier, show w = putStored e none s by simp only [w, ackedBy, gone, if_true]]
        exact removed
      · obtain ⟨x, listed', ne⟩ := more
        have some_ : e.waits.filter (· != h.src.val) ≠ [] := List.ne_nil_of_mem (List.mem_filter.2 ⟨listed', by simpa using ne⟩)
        refine stay _ ?_
        rw [courier, show w = putStored e (some { e with waits := e.waits.filter (· != h.src.val) }) s by simp only [w, ackedBy, some_, if_false]]
        exact putStored_replaced _ listed
      · obtain ⟨y, r, landed, is⟩ := landStored_lands (s := w) piece stands under
        have kept := (frame.getXfer_eq rfl j).trans ((ackTail_reach e old u).getXfer_eq rfl j)
        exact ⟨y, r, (getPiece_of_xfer kept).trans landed, is⟩
      · have queue := (congrArg QueueState.rqHead (frame.getQ_eq rfl (e.msg.tag % 1024))).trans (ackTail_rqHead receipt old u)
        rw [landStored_getQ] at queue
        exact queue
    · have ran : exec (.nack h flow seq reason) s = .next (nacked h flow seq.toNat reason.val s) := rfl
      have reach := nacked_eq (h := h) there found |>.1 full
      rw [reach] at ran
      refine ⟨_, ran, tabGet_tabSet_same _ _ _ _, ?_, ?_⟩
      · dsimp only
        rw [tabGet_tabSet_same]
        exact putStored_replaced _ listed
      · exact SameExcept.after (sameExcept_courier _ _) (putStored_reach _ _ s)
    · have ran : exec (.nack h flow seq reason) s = .next (nacked h flow seq.toNat reason.val s) := rfl
      rw [(nacked_eq (h := h) there found).2 group] at ran
      obtain ⟨go, -⟩ := sendSteps_go (logEvent .courierGroupRefused islRing (leBytes 2 (e.msg.tag % 256) ++ leBytes 1 h.src.val) (putStored e none s))
      refine ⟨_, ran, go, fun none_ => ?_, (sendSteps_reach _).log_eq rfl, ?_⟩
      · have none_ : s.courier.heldSteps = [] := none_
        rw [sendSteps_of_none (by exact none_)]
        exact putStored_removed e s
      · exact .step (sendSteps_reach _) rfl (.step (logEvent_reach _ _ _ _) rfl ((putStored_reach _ _ s).weaken rfl))
    · have xfer := (getPiece_iff.1 stands).1
      have ran : exec (.nack h flow seq reason) s = .next _ := congrArg Host.Outcome.next (nacked_of_refused there found no2 no4 piece xfer)
      let a := putStored e none s
      let b := logRefused h.src.val reason.val (e.msg.tag % 2 ^ 48) a
      let c := endPiece j k b
      let d := failXfer j c
      obtain ⟨w, r, ended, isOver⟩ := endPiece_over (s := b) stands
      have failed := failXfer_piece ended
      have upd := updInv_reach d v.inv (fun i => { i with refused := true })
      have frame : SameExcept [.isl, .mem, .poison, .xfers, .qs] b (updInv d v.inv (fun i => { i with refused := true })) :=
        .step upd rfl (.step (failXfer_reach j c) rfl ((endPiece_reach j k b).weaken rfl))
      have qs : d.qs = s.qs := ((failXfer_reach j c).qs_eq rfl).trans ((endPiece_reach j k b).qs_eq rfl)
      refine ⟨_, _, r, ran, (getPiece_of_xfer (upd.getXfer_eq rfl j)).trans failed, isOver, rfl, ?_, ?_, fun u stands => ?_⟩
      · rw [frame.courier_eq rfl]
        exact putStored_removed e s
      · rw [frame.log_eq rfl]
        exact LogGrows.ne_of_event (s := a) (.refl _)
      · have there : getInv d v.inv = some u := by
          rw [getInv, qs]
          exact stands
        exact getInv_updInv _ there
  · refine congrArg Host.Outcome.next ?_
    simp only [resend, at_]
    exact if_pos early
  · let u := putStored e (some { e with last := s.devTime }) s
    have ran : exec (.courierResend i) s = .next (emit e.msg e.dir u) := by
      refine congrArg Host.Outcome.next ?_
      simp only [resend, at_]
      exact if_neg (by omega)
    refine ⟨_, ran, ?_, (emit_reach _ _ _).after ((putStored_reach _ _ s)), fun p up serves port => ?_⟩
    · rw [emit_store]
      exact putStored_replaced _ (List.mem_of_getElem? at_)
    · exact emit_routed (s := u) up serves port
  · have held : e ∈ heldFor s pos.val := List.mem_filter.2 ⟨listed, by simp [own, waits, free]⟩
    have ran : exec (.courierPeerLost pos) s = .next _ := congrArg Host.Outcome.next (peerLost_eq limit held late)
    let u := markAbsent pos.val s
    let v := forEach (heldFor s pos.val) (endHeld pos.val) u
    have keeps {β : Type} (f : CourierState → β) (blind : ∀ c l, f { c with store := l } = f c) : f v.courier = f u.courier :=
      endAll_keeps blind pos.val _ u
    have steps : v.courier.heldSteps = s.courier.heldSteps := keeps CourierState.heldSteps fun _ _ => rfl
    have present : (sendSteps v).courier.present = setDel s.courier.present pos.val :=
      (sendSteps_courier (f := CourierState.present) (fun _ _ _ _ _ _ => rfl) (fun _ _ => rfl) v).trans (keeps CourierState.present fun _ _ => rfl)
    obtain ⟨go, -⟩ := sendSteps_go v
    have reach : SameExcept [.isl, .mem, .poison, .xfers, .courier] u v := .forEach (fun e t => endHeld_reach pos.val e t) _ (.refl _ u)
    rw [steps] at go
    refine ⟨_, ran, ?_, go, fun none_ f there up free' => ?_, ?_⟩
    · rw [present]
      exact not_mem_setDel _ _
    · rw [sendSteps_of_none (steps.trans none_)] at there
      obtain done | ⟨before, others⟩ := endAll_waits _ u f there
      · exact done
      · intro waits'
        exact others f (List.mem_filter.2 ⟨before, by simp [up, waits', free']⟩) ⟨rfl, rfl⟩
    · exact ((sendSteps_reach v).log_eq rfl).trans (reach.log_eq rfl)

end Sys2Proof.Machine
end
end

section
/-! SUPPORT. Messages of a flow (R387), remote accesses (R390, R391), what group messages leave (R393-R395), and the statement O46. -/
section
namespace Sys2Proof.Machine

section
variable {h : CrHead} {key : Nat} {s : State}

/-- The state in which the next message of a flow is performed. -/
def takenAt (h : CrHead) (key : Nat) (s : State) : State :=
  { s with courier := { s.courier with inn := tabSet 0 s.courier.inn key h.seq.toNat } }

/-- How far a message is ahead of the last of its flow. -/
def flowGap (s : State) (h : CrHead) (key : Nat) : Nat := (h.seq.toNat + 2 ^ 32 - tabGet 0 s.courier.inn key) % 2 ^ 32

/-! ### In its flow (R387) -/

theorem inFlow_later (again f : State → State) (waits : arrives s h = false ∨ (1 < flowGap s h key ∧ flowGap s h key < 2 ^ 31)) :
    inFlow h key again f s = s := by
  unfold inFlow
  obtain away | ⟨low, high⟩ := waits
  · rw [if_pos (by simp [away])]
  · unfold flowGap at low high
    split
    · rfl
    · simp only
      rw [if_neg (by omega), if_neg (by omega)]

theorem inFlow_next (again f : State → State) (there : arrives s h = true) (next : flowGap s h key = 1) :
    inFlow h key again f s = f (takenAt h key s) := by
  unfold inFlow
  rw [if_neg (by simp [there])]
  exact if_pos next

theorem inFlow_again (again f : State → State) (there : arrives s h = true) (old : flowGap s h key = 0 ∨ 2 ^ 31 ≤ flowGap s h key) :
    inFlow h key again f s = answerAgain key h again s := by
  unfold flowGap at old
  unfold inFlow
  rw [if_neg (by simp [there])]
  simp only
  rw [if_neg (by omega), if_pos old]

theorem answerAgain_turned {e : Nat × Nat} (again : State → State) (turned : (tabGet [] s.courier.turned key).find? (fun e => e.1 == h.seq.toNat) = some e) :
    answerAgain key h again s = nackMsg h e.2 s := by
  rw [answerAgain, turned]

theorem answerAgain_clear (again : State → State) (clear : (tabGet [] s.courier.turned key).find? (fun e => e.1 == h.seq.toNat) = none) :
    answerAgain key h again s = again s := by
  rw [answerAgain, clear]

theorem peerWaits_of_gap (a n : Nat) (right : ExportWin → Bool) (other : flowGap s h (inPoint h) ≠ 1) : peerWaits h a n right s = false := by
  have no : nextInFlow s h (inPoint h) = false := decide_eq_false other
  simp [peerWaits, no]

theorem peerWaits_of_next {a n : Nat} {right : ExportWin → Bool} (next : flowGap s h (inPoint h) = 1) :
    peerWaits h a n right s = (peerGranted s h a n right && !rangeOffline s a n && !hbmReady s h.cls.val a n) := by
  have is : nextInFlow s h (inPoint h) = true := decide_eq_true next
  simp [peerWaits, is]

end

/-- An entry depends on the time and on the log alone. -/
theorem logEvent_log_of {s t : State} (e : Event) (n : Nat) (d : List Byte) (time : t.devTime = s.devTime) (log : t.log = s.log) :
    (logEvent e n d t).log = (logEvent e n d s).log := by
  unfold logEvent noteDropped mkEntry
  rw [time, log]

/-! ### Turned away (R391) -/

theorem turnAway_leaves (key : Nat) (h : CrHead) (reason : Nat) (s : State) :
    (turnAway key h reason s).courier.store = s.courier.store ∧ (turnAway key h reason s).courier.inn = s.courier.inn ∧
    (tabGet [] (turnAway key h reason s).courier.turned key).getLast? = some (h.seq.toNat, reason) := by
  let l := tabGet [] s.courier.turned key ++ [(h.seq.toNat, reason)]
  let t : State := { s with courier := { s.courier with turned := tabSet [] s.courier.turned key (l.drop (l.length - 256)) } }
  have store : (turnAway key h reason s).courier.store = s.courier.store := emit_store _ _ t
  have inn : (turnAway key h reason s).courier.inn = t.courier.inn := emit_courier (f := CourierState.inn) (fun _ _ _ _ _ _ => rfl) _ _ t
  have turned : (turnAway key h reason s).courier.turned = t.courier.turned := emit_courier (f := CourierState.turned) (fun _ _ _ _ _ _ => rfl) _ _ t
  refine ⟨store, inn, ?_⟩
  rw [turned, tabGet_tabSet_same, List.getLast?_drop, if_neg (by simp [l])]
  exact List.getLast?_concat

/-- A peer's access that is refused. -/
def refuseAccess (h : CrHead) (a reason : Nat) (s : State) : State := logRefused h.src.val reason a (turnAway (inPoint h) h reason s)

theorem peerAccess_cases {s : State} {h : CrHead} {a n : Nat} {right : ExportWin → Bool} (perform : State → State) :
    (peerGranted s h a n right = false → peerAccess h a n right perform s = refuseAccess h a 1 s) ∧
    (peerGranted s h a n right = true → rangeOffline s a n = true → peerAccess h a n right perform s = refuseAccess h a 5 s) ∧
    (peerGranted s h a n right = true → rangeOffline s a n = false → peerAccess h a n right perform s = perform s) := by
  refine ⟨fun no => ?_, fun yes off => ?_, fun yes on => ?_⟩
  · simp only [peerAccess, no]
    rfl
  · simp only [peerAccess, yes, off]
    rfl
  · simp only [peerAccess, yes, on]
    rfl

theorem refuseAccess_leaves (h : CrHead) (a reason : Nat) (s : State) :
    (refuseAccess h a reason s).log = (logEvent .peerAccessRefused islRing (leBytes 1 h.src.val ++ leBytes 1 reason ++ leBytes 8 a) s).log ∧
    (refuseAccess h a reason s).courier = (turnAway (inPoint h) h reason s).courier ∧ SameExcept [.log, .courier] s (refuseAccess h a reason s) := by
  have reach := turnAway_reach (inPoint h) h reason s
  exact ⟨logEvent_log_of _ _ _ (reach.devTime_eq rfl) (reach.log_eq rfl), rfl, .step (logRefused_reach _ _ _ _) rfl (reach.weaken rfl)⟩

/-- An access that would be performed, up to its lookup. -/
def lookedUp (h : CrHead) (a n : Nat) (tags : TagOutcome) (s : State) : State × Bool := tagCheck (dieOfStack (stackOf a)) tags (hbmTurn h.cls.val a n s)

theorem lookUp_eq (h : CrHead) (a n : Nat) (tags : TagOutcome) (f : State → State) (s : State) :
    lookUp h a n tags f s = if (lookedUp h a n tags s).2 then (lookedUp h a n tags s).1 else f (lookedUp h a n tags s).1 := rfl

theorem lookUp_of_alive {h : CrHead} {a n : Nat} {tags : TagOutcome} {s : State} (f : State → State) (alive : (lookedUp h a n tags s).2 = false) :
    lookUp h a n tags f s = f (lookedUp h a n tags s).1 := by
  rw [lookUp_eq, alive]
  rfl

theorem lookedUp_reach {h : CrHead} {a n : Nat} {tags : TagOutcome} {s : State} (alive : (lookedUp h a n tags s).2 = false) :
    SameExcept [.log, .plan, .pm, .cache, .mc] s (lookedUp h a n tags s).1 := by
  have turn : SameExcept [.log, .plan, .pm, .cache, .mc] s (hbmTurn h.cls.val a n s) := (hbmTurn_reach _ _ _ _).weaken rfl
  unfold lookedUp at alive ⊢
  cases tags with
  | clean => exact turn
  | corrected => exact .step (setCache_reach _ _ _) rfl turn
  | oneCopyLost way => exact .step (retireWay_reach _ _ _ _) rfl turn
  | bothLost way set => simp [tagCheck] at alive

/-! ### What the captures of a write leave (R393, R394) -/

section
variable {β : Type} {f : CourierState → β}

theorem captureWrite_courier (blind : SendBlind f) (a : Nat) (d : PData) (s : State) : f (captureWrite a d s).courier = f s.courier := by
  have one (id : Nat) (g : GroupRec) (dir dst a : Nat) (d : PData) (s : State) : f (sendGather id g dir dst a d s).courier = f s.courier := by
    unfold sendGather
    split
    · rfl
    · exact sendMsg_courier blind _ _ _ _ _ s
  have group (id : Nat) (g : GroupRec) (s : State) : f (captureIn id g a d s).courier = f s.courier := by
    refine forEach_keeps (f := fun t : State => f t.courier) (fun r t => ?_) _ s
    dsimp only
    split
    · exact forEach_keeps (f := fun t : State => f t.courier) (fun p u => one _ _ _ _ _ _ u) _ t
    · exact (one _ _ _ _ _ _ _).trans (one _ _ _ _ _ _ t)
  unfold captureWrite
  split
  · rfl
  · exact forEach_keeps (f := fun t : State => f t.courier) (fun (e : Nat × GroupRec) t => group e.1 e.2 t) _ s

theorem passOn_courier (blind : SendBlind f) (h : CrHead) (id : Nat) (g : GroupRec) (off : Nat) (d : PData) (s : State) :
    f (passOn h id g off d s).courier = f s.courier := by
  unfold passOn
  dsimp only
  split
  · rfl
  · exact emit_courier blind _ _ s

end

/-! ### An access that is performed (R390) -/

/-- A read's data leave for the reader. -/
def readReply (h : CrHead) (a n : Nat) (errs : List HbmError) (t : State) : State :=
  sendPoint crReadData h.cls.val h.src.val (a + n * 2 ^ 48) (hbmRead t none a n errs).1 none (hbmRead t none a n errs).2

def writePeer (h : CrHead) (a : Nat) (d : PData) (errs : List HbmError) (t : State) : State :=
  ackMsg h (captureWrite a d (hbmWrite t none a d errs))

/-- An atomic's old value is kept, with its mark, and answered. -/
def atomicPeer (h : CrHead) (op : AtomicOp) (a n x cmp : Nat) (errs : List HbmError) (t : State) : State :=
  let r := hbmAtomic t op a n x cmp errs
  let u := if r.1.2 then r.2 else captureWrite a ((List.range n).map (fun i => hbmPeek r.2 (a + i))) r.2
  let v := (BitVec.ofNat 64 r.1.1, r.1.2)
  let keep := (tabGet [] u.courier.olds (inPoint h) ++ [(h.seq.toNat, v)])
  let w := { u with courier := { u.courier with olds := tabSet [] u.courier.olds (inPoint h) (keep.drop (keep.length - 256)) } }
  answerMsg crAck h h.seq.toNat ((leBytes n v.1.toNat).map (fun b => (b, v.2))) w

/-- A kind of access: its message, its length, its right, what answers it again, and what performs it. -/
structure PeerAccess (h : CrHead) (a : Nat) (tags : TagOutcome) (s : State) where
  cmd : Instr
  n : Nat
  right : ExportWin → Bool
  again : State → State
  perform : State → State
  ran : exec cmd s = .next (if peerWaits h a n right s then s else inFlow h (inPoint h) again (peerAccess h a n right (lookUp h a n tags perform)) s)

section
variable {h : CrHead} {a : Nat} {tags : TagOutcome} {s : State} (m : PeerAccess h a tags s)
include m

theorem PeerAccess.later (waits : arrives s h = false ∨ (1 < flowGap s h (inPoint h) ∧ flowGap s h (inPoint h) < 2 ^ 31)) :
    exec m.cmd s = .next s := by
  rw [m.ran, inFlow_later _ _ waits, ite_self]

theorem PeerAccess.before (there : arrives s h = true) (old : flowGap s h (inPoint h) = 0 ∨ 2 ^ 31 ≤ flowGap s h (inPoint h)) :
    (∀ e, (tabGet [] s.courier.turned (inPoint h)).find? (fun e => e.1 == h.seq.toNat) = some e → exec m.cmd s = .next (nackMsg h e.2 s)) ∧
    ((tabGet [] s.courier.turned (inPoint h)).find? (fun e => e.1 == h.seq.toNat) = none → exec m.cmd s = .next (m.again s)) := by
  have ran : exec m.cmd s = .next (answerAgain (inPoint h) h m.again s) := by
    rw [m.ran, peerWaits_of_gap _ _ _ (by omega), inFlow_again _ _ there old]
    rfl
  exact ⟨fun e turned => by rw [ran, answerAgain_turned _ turned], fun clear => by rw [ran, answerAgain_clear _ clear]⟩

theorem PeerAccess.next (there : arrives s h = true) (next : flowGap s h (inPoint h) = 1) :
    (peerGranted s h a m.n m.right = false → exec m.cmd s = .next (refuseAccess h a 1 (takenAt h (inPoint h) s))) ∧
    (peerGranted s h a m.n m.right = true → rangeOffline s a m.n = true → exec m.cmd s = .next (refuseAccess h a 5 (takenAt h (inPoint h) s))) ∧
    (peerGranted s h a m.n m.right = true → rangeOffline s a m.n = false → hbmReady s h.cls.val a m.n = false → exec m.cmd s = .next s) ∧
    (peerGranted s h a m.n m.right = true → rangeOffline s a m.n = false → hbmReady s h.cls.val a m.n = true →
      exec m.cmd s = .next (lookUp h a m.n tags m.perform (takenAt h (inPoint h) s))) := by
  obtain ⟨denied, offline, performed⟩ := peerAccess_cases (s := takenAt h (inPoint h) s) (h := h) (a := a) (n := m.n) (right := m.right)
    (lookUp h a m.n tags m.perform)
  have ran := m.ran
  rw [peerWaits_of_next next, inFlow_next _ _ there next] at ran
  refine ⟨fun no => ?_, fun yes off => ?_, fun yes on wait => ?_, fun yes on ready => ?_⟩
  · rw [ran, no, denied no]
    rfl
  · rw [ran, yes, off, offline yes off]
    rfl
  · rw [ran, yes, on, wait]
    rfl
  · rw [ran, yes, on, ready, performed yes on]
    rfl

end

def readAccess (h : CrHead) (off : Fin 281474976710656) (n : Fin 4097) (met : AccessErrors) (s : State) : PeerAccess h off.val met.tags s :=
  { cmd := .read h off n met, n := n.val, right := (·.read), again := id, perform := readReply h off.val n.val met.words, ran := rfl }

def writeAccess (h : CrHead) (off : Fin 281474976710656) (d : PData) (met : AccessErrors) (s : State) : PeerAccess h off.val met.tags s :=
  { cmd := .write h off d met, n := d.length, right := (·.write), again := ackMsg h, perform := writePeer h off.val d met.words, ran := rfl }

/-- What a duplicate of an atomic is answered. -/
def atomicAgain (h : CrHead) (n : Nat) (t : State) : State :=
  match oldValue t (inPoint h) h.seq.toNat with
  | some v => answerMsg crAck h h.seq.toNat ((leBytes n v.1.toNat).map (fun b => (b, v.2))) t
  | none => nackMsg h 1 t

def atomicAccess (h : CrHead) (op : AtomicOp) (place : PeerPlace) (wide : Bool) (x cmp : Dword) (s : State) :
    PeerAccess h place.offset.val place.met.tags s :=
  { cmd := .atomic h op place wide x cmp, n := if wide then 8 else 4, right := (·.atomic), again := atomicAgain h (if wide then 8 else 4),
    perform := atomicPeer h op place.offset.val (if wide then 8 else 4) x.toNat cmp.toNat place.met.words
    ran := by
      change Host.Outcome.next (peerAtomic h op place.offset.val wide x.toNat cmp.toNat place.met.words place.met.tags s) = _
      unfold peerAtomic
      rfl }

end Sys2Proof.Machine
end
end

section
/-! SUPPORT. What an access of a peer leaves when it is performed, group messages, and the statement O46. -/
section
namespace Sys2Proof.Machine

theorem SameExcept.mem_eq {ps : List Part} {s t : State} (h : SameExcept ps s t) (kept : ps.contains .mem = false) : t.mem = s.mem :=
  (h .mem (not_mem_of_contains kept)).1

section
variable {h : CrHead} {s : State}

/-! ### An access performed -/

theorem readReply_leaves (h : CrHead) (a n : Nat) (errs : List HbmError) (t : State) : ∃ e,
    (readReply h a n errs t).courier.store = (hbmRead t none a n errs).2.courier.store ++ [e] ∧ e.msg.type = crReadData ∧ e.msg.dst = h.src.val ∧
    e.msg.cls = h.cls.val ∧ e.msg.payload = (hbmRead t none a n errs).1 ∧ e.waits = [h.src.val] ∧
    e.msg.seq = (tabGet 0 t.courier.out e.flow + 1) % 2 ^ 32 ∧ (readReply h a n errs t).mem = (hbmRead t none a n errs).2.mem ∧
    (readReply h a n errs t).poison = (hbmRead t none a n errs).2.poison := by
  have reach := sendPoint_reach crReadData h.cls.val h.src.val (a + n * 2 ^ 48) (hbmRead t none a n errs).1 none (hbmRead t none a n errs).2
  obtain ⟨e, store, flow, -, waits, -, -, -, msg⟩ := sendMsg_store (flowPoint h.src.val h.cls.val false)
    { type := crReadData, cls := h.cls.val, src := 0, dst := h.src.val, seq := 0, tag := a + n * 2 ^ 48, payload := (hbmRead t none a n errs).1, up := false }
    none [h.src.val] none (hbmRead t none a n errs).2
  have courier : (hbmRead t none a n errs).2.courier = t.courier := (hbmRead_reach _ _ _ _ _).courier_eq rfl
  refine ⟨e, store, ?_⟩
  rw [msg, flow, courier]
  exact ⟨rfl, rfl, rfl, rfl, waits, rfl, reach.mem_eq rfl, reach.poison_eq rfl⟩

theorem writePeer_leaves (h : CrHead) (a : Nat) (d : PData) (errs : List HbmError) (t : State) :
    (writePeer h a d errs t).mem = (hbmWrite t none a d errs).mem ∧ (writePeer h a d errs t).poison = (hbmWrite t none a d errs).poison ∧
    (writePeer h a d errs t).courier.inn = t.courier.inn := by
  have reach : SameExcept [.courier] (hbmWrite t none a d errs) (writePeer h a d errs t) := .step (ackMsg_reach _ _) rfl (captureWrite_reach _ _ _)
  refine ⟨reach.mem_eq rfl, reach.poison_eq rfl, ?_⟩
  have blind : SendBlind CourierState.inn := fun _ _ _ _ _ _ => rfl
  calc (writePeer h a d errs t).courier.inn = (captureWrite a d (hbmWrite t none a d errs)).courier.inn := emit_courier blind _ _ _
    _ = (hbmWrite t none a d errs).courier.inn := captureWrite_courier blind _ _ _
    _ = t.courier.inn := congrArg _ ((hbmWrite_reach _ _ _ _ _).courier_eq rfl)

theorem atomicPeer_leaves (h : CrHead) (op : AtomicOp) (a n x cmp : Nat) (errs : List HbmError) (t : State) :
    (atomicPeer h op a n x cmp errs t).mem = (hbmAtomic t op a n x cmp errs).2.mem ∧ (atomicPeer h op a n x cmp errs t).courier.inn = t.courier.inn ∧
    (tabGet [] (atomicPeer h op a n x cmp errs t).courier.olds (inPoint h)).getLast? =
      some (h.seq.toNat, (BitVec.ofNat 64 (hbmAtomic t op a n x cmp errs).1.1, (hbmAtomic t op a n x cmp errs).1.2)) := by
  generalize ran : hbmAtomic t op a n x cmp errs = r
  let u := if r.1.2 then r.2 else captureWrite a ((List.range n).map (fun i => hbmPeek r.2 (a + i))) r.2
  let v := (BitVec.ofNat 64 r.1.1, r.1.2)
  let keep := tabGet [] u.courier.olds (inPoint h) ++ [(h.seq.toNat, v)]
  let w : State := { u with courier := { u.courier with olds := tabSet [] u.courier.olds (inPoint h) (keep.drop (keep.length - 256)) } }
  have eq : atomicPeer h op a n x cmp errs t = answerMsg crAck h h.seq.toNat ((leBytes n v.1.toNat).map (fun b => (b, v.2))) w := by
    unfold atomicPeer
    rw [ran]
  have captured : SameExcept [.courier] r.2 u := by
    dsimp only [u]
    split
    · exact .refl _ _
    · exact captureWrite_reach _ _ _
  have inn : u.courier.inn = r.2.courier.inn := by
    dsimp only [u]
    split
    · rfl
    · exact captureWrite_courier (f := CourierState.inn) (fun _ _ _ _ _ _ => rfl) _ _ _
  have before : r.2.courier = t.courier := by
    rw [← ran]
    exact (hbmAtomic_reach _ _ _ _ _ _ _).courier_eq rfl
  have olds : (answerMsg crAck h h.seq.toNat ((leBytes n v.1.toNat).map (fun b => (b, v.2))) w).courier.olds = w.courier.olds :=
    emit_courier (f := CourierState.olds) (fun _ _ _ _ _ _ => rfl) _ _ w
  rw [eq]
  refine ⟨((answerMsg_reach _ _ _ _ w).mem_eq rfl).trans (captured.mem_eq rfl), ?_, ?_⟩
  · exact ((emit_courier (f := CourierState.inn) (fun _ _ _ _ _ _ => rfl) _ _ w).trans inn).trans (congrArg _ before)
  · rw [olds, tabGet_tabSet_same, List.getLast?_drop, if_neg (by simp [keep])]
    exact List.getLast?_concat

/-! ### The data of a remote read (R388) -/

theorem readData_lands {off i j : Nat} {d : PData} {e : CrStored} {v : Xfer} {p : Piece} (there : arrives s h = true) (next : flowGap s h (inPoint h) = 1)
    (found : (ackMsg h (takenAt h (inPoint h) s)).courier.store.find? (fun e => e.msg.type == crRead && e.msg.dst == h.src.val && e.msg.cls == h.cls.val &&
      e.msg.tag == off + d.length * 2 ^ 48) = some e) (piece : e.piece = some (i, j)) (stands : getPiece s i j = some (v, p)) (under : pieceOver p = false) :
    ∃ w r, getPiece (readData h off d s) i j = some (w, r) ∧ r.state = .landed ∧
      ∀ f ∈ (readData h off d s).courier.store, f.flow = e.flow → f.msg.seq ≠ e.msg.seq := by
  let t := ackMsg h (takenAt h (inPoint h) s)
  have eq : readData h off d s = landPiece i j d (putStored e none t) := by
    rw [readData, inFlow_next _ _ there next]
    simp only [found, piece]
    rfl
  have stands : getPiece (putStored e none t) i j = some (v, p) :=
    (getPiece_of_xfer (((putStored_reach e none t).getXfer_eq rfl i).trans ((ackMsg_reach h (takenAt h (inPoint h) s)).getXfer_eq rfl i))).trans stands
  obtain ⟨w, r, landed, is⟩ := landPiece_lands d stands under
  rw [eq]
  refine ⟨w, r, landed, is, ?_⟩
  rw [(landPiece_reach i j d _).courier_eq rfl]
  exact putStored_removed e t

/-! ### Group messages (R393-R395) -/

theorem gather_bad {id off : Nat} {d : PData} {same : Bool} {g : GroupRec} (listed : tabFind s.courier.groups id = some g)
    (bad : groupBad s (some g) h off d.length same = true) :
    gather h id off d same s = inFlow h (inGroup h id (travelDir g h)) (nackMsg h 4) (turnAway (inGroup h id (travelDir g h)) h 4) s := by
  unfold gather
  simp only [listed]
  exact if_pos bad

/-- A group's write is performed: it lands in the buffer, posts the semaphore, is acknowledged and passed on. -/
def gatherLand (h : CrHead) (id off : Nat) (g : GroupRec) (d : PData) (t : State) : State :=
  passOn h id g off d (ackMsg h (semPost (65536 + g.sem) (granulesOf (g.base + off) d.length).length
    (hbmWrite (hbmTurn h.cls.val (g.base + off) d.length t) none (g.base + off) d [])))

theorem gather_good {id off : Nat} {d : PData} {same : Bool} {g : GroupRec} (listed : tabFind s.courier.groups id = some g)
    (good : groupBad s (some g) h off d.length same = false) :
    gather h id off d same s = if nextInFlow s h (inGroup h id (travelDir g h)) && !hbmReady s h.cls.val (g.base + off) d.length then s
      else inFlow h (inGroup h id (travelDir g h)) (fun t => passOn h id g off d (ackMsg h t)) (gatherLand h id off g d) s := by
  unfold gather
  simp only [listed]
  exact if_neg (by simp [good])

theorem gatherLand_leaves (h : CrHead) (id off : Nat) (g : GroupRec) (d : PData) (t : State) :
    let w := hbmWrite (hbmTurn h.cls.val (g.base + off) d.length t) none (g.base + off) d []
    (gatherLand h id off g d t).mem = w.mem ∧ (gatherLand h id off g d t).poison = w.poison ∧ (gatherLand h id off g d t).courier.inn = t.courier.inn ∧
    (gatherLand h id off g d t).sems = (semPost (65536 + g.sem) (granulesOf (g.base + off) d.length).length w).sems := by
  intro w
  let p := semPost (65536 + g.sem) (granulesOf (g.base + off) d.length).length w
  have post := semPost_reach (65536 + g.sem) (granulesOf (g.base + off) d.length).length w
  have last : SameExcept [.courier] p (gatherLand h id off g d t) := .step (passOn_reach _ _ _ _ _ _) rfl (ackMsg_reach h p)
  have blind : SendBlind CourierState.inn := fun _ _ _ _ _ _ => rfl
  refine ⟨(last.mem_eq rfl).trans (post.mem_eq rfl), (last.poison_eq rfl).trans (post.poison_eq rfl), ?_, last .sems (by decide)⟩
  calc (gatherLand h id off g d t).courier.inn = (ackMsg h p).courier.inn := passOn_courier blind _ _ _ _ _ _
    _ = p.courier.inn := emit_courier blind _ _ _
    _ = t.courier.inn := congrArg _ ((post.courier_eq rfl).trans (((hbmWrite_reach _ _ _ _ _).courier_eq rfl).trans ((hbmTurn_reach _ _ _ _).courier_eq rfl)))

theorem gather_again {id off : Nat} {d : PData} {same : Bool} {g : GroupRec} (listed : tabFind s.courier.groups id = some g) (there : arrives s h = true)
    (old : flowGap s h (inGroup h id (travelDir g h)) = 0 ∨ 2 ^ 31 ≤ flowGap s h (inGroup h id (travelDir g h))) :
    SameExcept [.courier] s (gather h id off d same s) := by
  cases bad : groupBad s (some g) h off d.length same with
  | true =>
    rw [gather_bad listed bad, inFlow_again _ _ there old]
    exact answerAgain_reach (nackMsg_reach h 4) rfl (.refl _ s)
  | false =>
    have no : nextInFlow s h (inGroup h id (travelDir g h)) = false := decide_eq_false (by unfold flowGap at old; omega)
    rw [gather_good listed bad, no, inFlow_again _ _ there old]
    exact answerAgain_reach (fun t => (ackMsg_reach h t).trans (passOn_reach _ _ _ _ _ _)) rfl (.refl _ s)

end

/-- The messages of a flow, but for the accesses to HBM, are acknowledged again. -/
theorem ackedAgain {h : CrHead} {s : State} (off : Fin 281474976710656) (data : PData) (x : Dword) (q : Fin 1024)
    (epoch : Word) (env enc : List Byte) (up : Bool) (ring pos : Fin 64) (places : Option (List (Option (Fin 64)))) (link : Option (Fin 64 × Fin 2 × Bool))
    (r2 : Fin 2) {c : Instr} (listed : c ∈ [Instr.readData h off data, .step h q epoch x env enc, .routed h up ring pos env,
      .linkNotice h epoch places link, .announce h epoch, .drainRing h epoch r2]) :
    ∃ f, exec c s = .next (inFlow h (inPoint h) (ackMsg h) f s) := by
  simp only [List.mem_cons, List.not_mem_nil, or_false] at listed
  obtain rfl | rfl | rfl | rfl | rfl | rfl := listed
  · exact ⟨_, rfl⟩
  · exact ⟨_, rfl⟩
  · have eq := routed.eq_1 h ring.val pos.val env s
    exact ⟨_, congrArg Host.Outcome.next eq⟩
  · exact ⟨_, rfl⟩
  · exact ⟨_, rfl⟩
  · exact ⟨_, rfl⟩

/-- Settles O46: a message is followed through its place in its flow, an access through its grant, its turn and its lookup. -/
theorem peerMessagesArePerformedInOrder : Obligations.PeerMessagesArePerformedInOrder := by
  intro h off n errs tags data op wide x cmp q epoch env enc up ring pos places link r2 grp same s key d taken others read write atomic bytes turned looked
    refused
  let r := readAccess h off n ⟨errs, tags⟩ s
  let w := writeAccess h off data ⟨errs, tags⟩ s
  let a := atomicAccess h op ⟨off, errs, tags⟩ wide x cmp s
  have plain (c : Instr) (listed : c ∈ others) : c = write ∨ ∃ f, exec c s = .next (inFlow h (inPoint h) (ackMsg h) f s) := by
    by_cases is : c = write
    · exact .inl is
    · refine .inr (ackedAgain off data x q epoch env enc up ring pos places link r2 ?_)
      simp only [others, List.mem_cons] at listed ⊢
      obtain rfl | rfl | rest := listed
      · exact .inl rfl
      · exact absurd rfl is
      · exact .inr rest
  have refuses {c : Instr} {reason : Nat} (ran : exec c s = .next (refuseAccess h off.val reason (taken key))) : refused c reason := by
    obtain ⟨log, courier, reach⟩ := refuseAccess_leaves h off.val reason (taken key)
    obtain ⟨store, inn, last⟩ := turnAway_leaves key h reason (taken key)
    refine ⟨_, ran, log, ?_, ?_, ?_, reach.after (sameExcept_courier s _ |>.weaken rfl)⟩
    · rw [courier]
      exact store
    · rw [courier, show (turnAway (inPoint h) h reason (taken key)).courier.inn = (taken key).courier.inn from inn]
      exact tabGet_tabSet_same _ _ _ _
    · rw [courier]
      exact last
  refine ⟨fun c listed waits => ?_, fun there old => ⟨fun e isTurned c listed => ?_, fun clear => ⟨?_, fun c listed => ?_, fun v kept => ?_⟩⟩,
    fun there next c k right listed => ?_, fun there next => ⟨fun granted on ready alive => ?_, fun granted on ready alive => ?_,
      fun granted on ready alive new => ?_, fun e v p found i j piece stands under => ?_⟩, fun g listed => ?_⟩
  · obtain rfl | rfl | listed := List.mem_cons.1 listed |>.imp id List.mem_cons.1
    · exact r.later waits
    · exact a.later waits
    obtain rfl | ⟨f, ran⟩ := plain c listed
    · exact w.later waits
    · rw [ran, inFlow_later _ _ waits]
  · obtain rfl | rfl | listed := List.mem_cons.1 listed |>.imp id List.mem_cons.1
    · exact (r.before there old).1 e isTurned
    · exact (a.before there old).1 e isTurned
    obtain rfl | ⟨f, ran⟩ := plain c listed
    · exact (w.before there old).1 e isTurned
    · rw [ran, inFlow_again _ _ there old, answerAgain_turned _ isTurned]
  · exact (r.before there old).2 clear
  · obtain rfl | ⟨f, ran⟩ := plain c listed
    · exact (w.before there old).2 clear
    · rw [ran, inFlow_again _ _ there old, answerAgain_clear _ clear]
  · refine ((a.before there old).2 clear).trans (congrArg Host.Outcome.next ?_)
    change atomicAgain h bytes s = _
    rw [atomicAgain, show oldValue s (inPoint h) h.seq.toNat = some v from kept]
  · have each (m : PeerAccess h off.val tags s) : (peerGranted s h off.val m.n m.right = false → refused m.cmd 1) ∧
        (peerGranted s h off.val m.n m.right = true → rangeOffline s off.val m.n = true → refused m.cmd 5) ∧
        (peerGranted s h off.val m.n m.right = true → rangeOffline s off.val m.n = false → hbmReady s h.cls.val off.val m.n = false → exec m.cmd s = .next s) ∧
        (peerGranted s h off.val m.n m.right = true → rangeOffline s off.val m.n = false → hbmReady s h.cls.val off.val m.n = true →
          (looked m.n).2 = true → exec m.cmd s = .next (looked m.n).1) := by
      obtain ⟨denied, offline, waits, runs⟩ := m.next there next
      exact ⟨fun no => refuses (denied no), fun yes off => refuses (offline yes off), waits, fun yes on ready dead =>
        (runs yes on ready).trans (congrArg Host.Outcome.next ((lookUp_eq _ _ _ _ _ _).trans (if_pos dead)))⟩
    simp only [List.mem_cons, List.not_mem_nil, or_false, Prod.mk.injEq] at listed
    obtain ⟨rfl, rfl, rfl⟩ | ⟨rfl, rfl, rfl⟩ | ⟨rfl, rfl, rfl⟩ := listed
    · exact each r
    · exact each w
    · exact each a
  · intro got
    have frame := lookedUp_reach (h := h) (a := off.val) (n := n.val) (tags := tags) (s := taken key) alive
    obtain ⟨e, store, type, dst, cls, payload, waits, seq, mem, poison⟩ := readReply_leaves h off.val n.val errs (looked n.val).1
    have ran := ((r.next there next).2.2.2 granted on ready).trans (congrArg Host.Outcome.next (lookUp_of_alive _ alive))
    refine ⟨_, e, ran, store, type, dst, cls, payload, waits, ?_, mem, poison⟩
    rw [seq, show (looked n.val).1.courier = (taken key).courier from frame.courier_eq rfl]
  · intro v
    have frame := lookedUp_reach (h := h) (a := off.val) (n := data.length) (tags := tags) (s := taken key) alive
    obtain ⟨mem, poison, inn⟩ := writePeer_leaves h off.val data errs (looked data.length).1
    have ran := ((w.next there next).2.2.2 granted on ready).trans (congrArg Host.Outcome.next (lookUp_of_alive _ alive))
    refine ⟨writePeer h off.val data errs (looked data.length).1, ran, mem, poison, ?_⟩
    rw [inn, show (looked data.length).1.courier = (taken key).courier from frame.courier_eq rfl]
    exact tabGet_tabSet_same _ _ _ _
  · intro done
    have frame := lookedUp_reach (h := h) (a := off.val) (n := bytes) (tags := tags) (s := taken key) alive
    obtain ⟨mem, inn, olds⟩ := atomicPeer_leaves h op off.val bytes x.toNat cmp.toNat errs (looked bytes).1
    have ran := ((a.next there next).2.2.2 granted on ready).trans (congrArg Host.Outcome.next (lookUp_of_alive _ alive))
    refine ⟨atomicPeer h op off.val bytes x.toNat cmp.toNat errs (looked bytes).1, ran, mem, ?_, olds⟩
    rw [inn, show (looked bytes).1.courier = (taken key).courier from frame.courier_eq rfl]
    exact tabGet_tabSet_same _ _ _ _
  · obtain ⟨w, r, landed, is, gone⟩ := readData_lands there next found piece stands under
    exact ⟨_, w, r, rfl, landed, is, gone⟩
  · intro gk gd cmd there
    have ran : exec cmd s = .next (gather h grp.val off.val data same s) := rfl
    refine ⟨fun next bad => ?_, fun next good wait => ?_, fun next good ready => ?_, fun old => ⟨_, ran, gather_again listed there old⟩⟩
    · rw [ran, gather_bad listed bad, inFlow_next _ _ there next]
      rfl
    · have is : nextInFlow s h gk = true := decide_eq_true next
      rw [ran, gather_good listed good, if_pos (by simp [gk, is, wait])]
    · intro w
      obtain ⟨mem, poison, inn, sems⟩ := gatherLand_leaves h grp.val off.val g data (taken gk)
      rw [gather_good listed good, if_neg (by simp [ready]), inFlow_next _ _ there next] at ran
      refine ⟨_, ran, mem, poison, ?_, sems⟩
      rw [show (gatherLand h grp.val off.val g data (takenAt h gk s)).courier.inn = (taken gk).courier.inn from inn]
      exact tabGet_tabSet_same _ _ _ _

end Sys2Proof.Machine
end
end

section
/-! SUPPORT. Stalled transfers (R224): the refutation of O28. A read that is cancelled marks its bytes in its core's scratchpad, and that write, like
every write of the DMA's port, is forwarded to the ring that a link feeds from there (R215): the consumer's bytes change. -/
section
namespace Sys2Proof.Machine

/-- A link from core 0's DMA port to core 1, whose ring lies at the start of both scratchpads. -/
def fedLink : LinkDef :=
  { producer := { grinder := false, port := 0, unit := 0 }, consumer := { grinder := false, port := 0, unit := 1 }, length := 0, order := 0,
    slotMask := 0, ringKib := 1, ringOffset := 0, semFull := 0, semEmpty := 0, persistent := false }

/-- A read of one byte from host memory to the start of core 0's scratchpad. -/
def hostRead : Xfer :=
  { engine := 0, context := 0, inv := 0, owner := .reload 0, kind := .read, cls := 0, region := none,
    pieces := [{ vaddr := 0, len := 1, near := 0, state := .sent, trans := some (0, 0), daddr := hostBase }], lastLand := 0, cancelled := false,
    failed := false, buffered := false, payload := [], sealed_ := none, checked := false }

/-- The read has stalled, and core 0 holds a byte at its target that core 1's ring does not hold yet. -/
def stalledRead : State :=
  { State.reset with
    devTime := 1000
    isl := [(islOfCore 1, { getIsl State.reset (islOfCore 1) with power := 2 })]
    mem := [(scratchKey 0 0, 1)]
    xfers := [(0, hostRead)]
    cores := [(0, { getCore State.reset 0 with stallUs := 1 })]
    blend := { State.reset.blend with cur := { structureReset with spare := [(0, 0), (1, 1)], links := [(0, fedLink)] } } }

/-- A byte of core 1's ring after a command. -/
def ringByteAfter : Out State → Option Byte
  | .next t => some (memByte t (scratchKey 1 0))
  | _ => none

theorem stall_forwards : ringByteAfter (exec (.streamStall 0) stalledRead) = some 1 := by decide

/-- Refutes O28: the stall of `stalledRead` changes a byte of core 1's ring. -/
theorem not_streamsIssueLandAndStall : ¬ Obligations.StreamsIssueLandAndStall := by
  intro h
  obtain ⟨t, -, ran, -, -, -, -, -, same⟩ :=
    (h.2.2 0 stalledRead hostRead 0 (by decide) (by decide) (by decide)).1 (by decide) (by decide) (by decide) (by decide)
  have forwarded := stall_forwards
  rw [ran, ringByteAfter, same] at forwarded
  exact absurd forwarded (by decide)

end Sys2Proof.Machine
end
end

section
/-! SUPPORT. How a call ends (R413, R418), the segment calls of a context (R323-R327), and the statement O36. -/
section
namespace Sys2Proof.Machine

/-! ### A call ends (R418) -/

theorem foldl_tabSet_zip : ∀ (b : List Byte) (k : Nat) (t : Tab Byte) (j : Nat),
    tabGet 0 (((List.range' k b.length).zip b).foldl (fun t e => tabSet 0 t e.1 e.2) t) j =
      if k ≤ j ∧ j < k + b.length then b.getD (j - k) 0 else tabGet 0 t j
  | [], k, t, j => by simp
  | v :: b, k, t, j => by
    rw [List.length_cons, List.range'_succ, List.zip_cons_cons, List.foldl_cons, foldl_tabSet_zip b (k + 1) _ j, tabGet_tabSet]
    by_cases here : j = k
    · subst here
      simp
    · by_cases inside : k + 1 ≤ j ∧ j < k + 1 + b.length
      · rw [if_pos inside, if_pos (by omega), show j - k = (j - (k + 1)) + 1 by omega, List.getD_cons_succ]
      · rw [if_neg inside, if_neg here, if_neg (by omega)]

/-- The bytes of a reply stand in the slot. -/
def putReply (b : List Byte) (t : Tab Byte) : Tab Byte := ((List.range b.length).zip b).foldl (fun t e => tabSet 0 t e.1 e.2) t

theorem putReply_spec (b : List Byte) (t : Tab Byte) {j : Nat} (inside : j < b.length) : tabGet 0 (putReply b t) j = b.getD j 0 := by
  rw [putReply, List.range_eq_range', foldl_tabSet_zip b 0 t j, if_pos (by omega)]
  rfl

section
variable {k : Nat} {s : State}

theorem getSlot_of_pm {s t : State} (pm : t.pm = s.pm) (k : Nat) : getSlot t k = getSlot s k := by rw [getSlot, getSlot, pm]

theorem SameExcept.getSlot_eq {ps : List Part} {s t : State} (h : SameExcept ps s t) (kept : ps.contains .pm = false) (k : Nat) :
    getSlot t k = getSlot s k := getSlot_of_pm (h.pm_eq kept) k

/-- The slot of a call that has ended. -/
def endedSlot (x : CallSlot) (result : Nat) (reply : List Byte) : CallSlot :=
  let y := { x with state := 2, due := none, waits := [], discard := false }
  if x.discard then y else { y with result := BitVec.ofNat 64 result, reply := putReply reply x.reply }

theorem finishCall_slot {result : Nat} {reply : List Byte} (busy : (getSlot s k).state = 1) :
    getSlot (finishCall k result reply s) k = endedSlot (getSlot s k) result reply := by
  have raised (t : State) (c : Prop) [Decidable c] (v : Nat) : getSlot (if c then raiseVector v t else t) k = getSlot t k := by
    split
    · exact (raiseVector_reach v t).getSlot_eq rfl k
    · rfl
  unfold finishCall
  dsimp only
  rw [if_neg (by simp [busy]), raised, getSlot_setSlot]
  rfl

theorem finishCall_slot_ne {j : Nat} (result : Nat) (reply : List Byte) (ne : j ≠ k) : getSlot (finishCall k result reply s) j = getSlot s j := by
  have raised (t : State) (c : Prop) [Decidable c] (v : Nat) : getSlot (if c then raiseVector v t else t) j = getSlot t j := by
    split
    · exact (raiseVector_reach v t).getSlot_eq rfl j
    · rfl
  unfold finishCall
  dsimp only
  split
  · rfl
  · rw [raised, getSlot_setSlot_ne _ _ ne]

theorem CallEnded.of_slot {t : State} {x : CallSlot} {result : Nat} {reply : List Byte} (slot : getSlot t k = endedSlot x result reply)
    (kept : x.discard = false) : CallEnded t k result reply := by
  rw [CallEnded, slot, endedSlot, kept]
  exact ⟨rfl, rfl, fun j inside => putReply_spec reply _ inside⟩

theorem CallEnded.of_same {t u : State} {result : Nat} {reply : List Byte} (h : CallEnded t k result reply) (same : getSlot u k = getSlot t k) :
    CallEnded u k result reply := by rwa [CallEnded, same]

theorem finishCall_ends {result : Nat} {reply : List Byte} (busy : (getSlot s k).state = 1) (kept : (getSlot s k).discard = false) :
    CallEnded (finishCall k result reply s) k result reply := .of_slot (finishCall_slot busy) kept

end

/-! ### The segment calls of a context (R323-R325) -/

section
variable {s t : State}

/-- The slots of the calls in the table are those of before, or fewer; what no call is at stays as it is. -/
structure CallsRun (k : Nat) (s t : State) : Prop where
  slot : getSlot t k = getSlot s k
  others : ∀ c ∈ t.seg.calls, c.slot ≠ k

theorem putCall_calls (c : SegCall) (s : State) : ∀ d ∈ (putCall s c).seg.calls, d = c ∧ (∃ e ∈ s.seg.calls, e.slot = c.slot) ∨ d ∈ s.seg.calls := by
  intro d there
  obtain ⟨e, listed, eq⟩ := List.mem_map.1 there
  split at eq
  · next same => exact .inl ⟨eq.symm, e, listed, same⟩
  · exact .inr (eq ▸ listed)

theorem putCall_listed {c d : SegCall} (listed : d ∈ s.seg.calls) (same : d.slot = c.slot) : c ∈ (putCall s c).seg.calls :=
  List.mem_map.2 ⟨d, listed, if_pos same⟩

theorem endCall_run {k slot : Nat} (result : Nat) (reply : List Byte) (ne : k ≠ slot) (others : ∀ c ∈ s.seg.calls, c.slot ≠ k) :
    CallsRun k s (endCall slot result reply s) := by
  refine ⟨finishCall_slot_ne result reply ne, fun c there => ?_⟩
  rw [endCall, (finishCall_reach _ _ _ _).seg_eq rfl] at there
  exact others c (List.mem_filter.1 there).1

theorem begin_run {k : Nat} {c : SegCall} (ne : c.slot ≠ k) (e : SegEntry) (others : ∀ d ∈ s.seg.calls, d.slot ≠ k) :
    CallsRun k s (withdraw c.slot c.context c.index e (putCall s c)) := by
  refine ⟨rfl, fun d there => ?_⟩
  obtain ⟨rfl, -⟩ | before := putCall_calls c s d there
  · exact ne
  · exact others d before

theorem runCall_run {k : Nat} {c : SegCall} (ne : c.slot ≠ k) (others : ∀ d ∈ s.seg.calls, d.slot ≠ k) : CallsRun k s (runCall c s) := by
  have ends (result : Nat) (reply : List Byte) (t : State) (pm : t.pm = s.pm) (calls : t.seg.calls = s.seg.calls) :
      CallsRun k s (endCall c.slot result reply t) := by
    obtain ⟨slot, rest⟩ := endCall_run (s := t) result reply (Ne.symm ne) (calls ▸ others)
    exact ⟨slot.trans (getSlot_of_pm pm k), rest⟩
  have begins (phase : Nat) (o e : SegEntry) (t : State) (pm : t.pm = s.pm) (calls : t.seg.calls = s.seg.calls) :
      CallsRun k s (withdraw c.slot c.context c.index e (putCall t { c with phase := phase, orig := o })) := by
    obtain ⟨slot, rest⟩ := begin_run (s := t) (c := { c with phase := phase, orig := o }) ne e (calls ▸ others)
    exact ⟨slot.trans (getSlot_of_pm pm k), rest⟩
  have advises (code rule : Nat) (t : State) (h : CallsRun k s t) : CallsRun k s (if code ≠ 0 then endCall c.slot (code + rule * 2 ^ 32) [] s else t) := by
    split
    · exact ends _ _ s rfl rfl
    · exact h
  unfold runCall
  dsimp only
  split
  · exact ends _ _ s rfl rfl
  · split
    · exact ends _ _ s rfl rfl
    split
    · exact ends _ _ _ rfl rfl
    · exact begins _ _ _ s rfl rfl
  · split
    · exact ends _ _ _ rfl rfl
    · exact begins _ _ _ s rfl rfl
  · refine advises _ _ _ ?_
    split
    · exact begins _ _ _ _ rfl rfl
    · exact begins _ _ _ _ rfl rfl
    · exact begins _ _ _ s rfl rfl
    · exact begins _ _ _ s rfl rfl

theorem runCalls_run {k : Nat} (ctx : Nat) : ∀ (n : Nat) (s : State), (∀ d ∈ s.seg.calls, d.slot ≠ k) → CallsRun k s (runCalls ctx n s)
  | 0, _, others => ⟨rfl, others⟩
  | n + 1, s, others => by
    unfold runCalls
    split
    · exact ⟨rfl, others⟩
    next c found =>
    split
    · exact ⟨rfl, others⟩
    · have one := runCall_run (others c (List.mem_of_find?_eq_some found)) others
      have rest := runCalls_run ctx n _ one.others
      exact ⟨rest.slot.trans one.slot, rest.others⟩

end

/-! ### Withdrawals (R326, R327) -/

section
variable {s : State} {ctx i engine : Nat} {w : Withdrawal}

theorem findWithdrawal_spec (found : findWithdrawal s ctx i = some w) : w.context = ctx ∧ w.index = i := by
  have named := List.find?_some found
  simpa using named

theorem findWithdrawal_put {v : Withdrawal} (found : findWithdrawal s ctx i = some w) (context : v.context = ctx) (index : v.index = i) :
    findWithdrawal (putWithdrawal s v) ctx i = some v := by
  have gen : ∀ l : List Withdrawal, l.find? (fun w => w.context == ctx && w.index == i) = some w →
      (l.map (fun u => if u.context = v.context ∧ u.index = v.index then v else u)).find? (fun w => w.context == ctx && w.index == i) = some v := by
    intro l
    induction l with
    | nil => intro h; simp at h
    | cons a l ih =>
      intro h
      rw [List.find?_cons] at h
      by_cases here : a.context = ctx ∧ a.index = i
      · simp [here, context, index]
      · have no : (a.context == ctx && a.index == i) = false := by simpa using here
        rw [no] at h
        rw [List.map_cons, if_neg (by rw [context, index]; exact here), List.find?_cons, no]
        exact ih h
  exact gen _ found

theorem flushFor_seg (w : Withdrawal) (engine : Nat) (s : State) : (flushFor w engine s).seg = s.seg := (flushFor_reach w engine s).seg_eq rfl

theorem applyInvalidate_leaves (found : findWithdrawal s ctx i = some w) (new : setHas w.applied engine = false) :
    ∃ v, findWithdrawal (applyInvalidate ctx i engine s) ctx i = some v ∧ v.applied = setIns w.applied engine ∧
      v.drained = w.drained + (heldUnder s w engine + unflushedUnder w engine (getGk s 0) + unflushedUnder w engine (getGk s 1)) ∧ v.acked = w.acked ∧
      ∀ c ∈ engineCache (applyInvalidate ctx i engine s) engine, ¬(c.context = ctx ∧ c.index = i) := by
  obtain ⟨context, index⟩ := findWithdrawal_spec found
  unfold applyInvalidate
  simp only [found, new, Bool.false_eq_true, if_false]
  refine ⟨{ w with
    applied := setIns w.applied engine
    drained := w.drained + (heldUnder s w engine + unflushedUnder w engine (getGk s 0) + unflushedUnder w engine (getGk s 1)) }, ?_, rfl, rfl, rfl, ?_⟩
  · rw [findWithdrawal, flushFor_seg]
    exact findWithdrawal_put (s := { s with seg := _ }) found context index
  · intro c there
    rw [engineCache, flushFor_seg] at there
    have there : c ∈ tabGet [] (tabSet [] s.seg.caches engine ((engineCache s engine).filter (fun c => !(c.context == ctx && c.index == i)))) engine := there
    rw [tabGet_tabSet_same] at there
    simpa [imp_iff_not_or] using (List.mem_filter.1 there).2

/-- The acknowledgement of an engine that holds nothing under the old translation. -/
theorem ackWithdrawal_eq (found : findWithdrawal s ctx i = some w) (applied : setHas w.applied engine = true) (new : setHas w.acked engine = false)
    (held : heldUnder s w engine + unflushedUnder w engine (getGk s 0) + unflushedUnder w engine (getGk s 1) = 0)
    (free : ∀ p < 2, ∀ x ∈ (getGk s p).held, x.trans ≠ some (engine, ctx, i, w.oldGen)) :
    ackWithdrawal ctx i engine s = if (setIns w.acked engine).length = 192
      then withdrawalDone { w with acked := setIns w.acked engine } (putWithdrawal s { w with acked := setIns w.acked engine })
      else putWithdrawal s { w with acked := setIns w.acked engine } := by
  obtain ⟨rfl, rfl⟩ := findWithdrawal_spec found
  have none_ : [0, 1].any (fun p => (getGk s p).held.any (fun x => decide (x.trans = some (engine, w.context, w.index, w.oldGen)))) = false := by
    simp only [List.any_cons, List.any_nil, Bool.or_false, Bool.or_eq_false_iff, List.any_eq_false, decide_eq_true_eq]
    exact ⟨free 0 (by omega), free 1 (by omega)⟩
  unfold ackWithdrawal
  simp only [found]
  rw [if_neg (by simp only [applied, new, none_]; simp; omega), if_neg (by omega)]

theorem findCall_mem {slot : Nat} {c : SegCall} (found : findCall s slot = some c) : c ∈ s.seg.calls ∧ c.slot = slot :=
  ⟨List.mem_of_find?_eq_some found, by simpa using List.find?_some found⟩

theorem findCall_put {slot : Nat} {c d : SegCall} (found : findCall s slot = some c) (same : d.slot = slot) : findCall (putCall s d) slot = some d := by
  have gen : ∀ l : List SegCall, l.find? (fun c => c.slot == slot) = some c →
      (l.map (fun e => if e.slot = d.slot then d else e)).find? (fun c => c.slot == slot) = some d := by
    intro l
    induction l with
    | nil => intro h; simp at h
    | cons a l ih =>
      intro h
      rw [List.find?_cons] at h
      by_cases here : a.slot = slot
      · simp [here, same]
      · have no : (a.slot == slot) = false := by simpa using here
        rw [no] at h
        rw [List.map_cons, if_neg (by rw [same]; exact here), List.find?_cons, no]
        exact ih h
  exact gen _ found

/-- The state in which a withdrawal is over. -/
def dropWithdrawal (w : Withdrawal) (s : State) : State :=
  logEvent .segWithdrawDone islTrust (leBytes 2 w.context ++ leBytes 1 w.index ++ leBytes 4 w.oldGen ++ leBytes 4 (min w.drained 0xFFFFFFFF))
    { s with seg := { s.seg with withdrawals := s.seg.withdrawals.filter (fun v => !(v.context == w.context && v.index == w.index)) } }

theorem findWithdrawal_dropped (w : Withdrawal) (s : State) : findWithdrawal (dropWithdrawal w s) w.context w.index = none := by
  refine List.find?_eq_none.2 fun v there => ?_
  simpa [imp_iff_not_or] using (List.mem_filter.1 there).2

theorem withdrawalDone_cases {c : SegCall} (found : findCall s w.slot = some c) :
    (c.phase = 1 → withdrawalDone w s = putCall (dropWithdrawal w s) { c with phase := 2 }) ∧
    (c.phase ≠ 1 → withdrawalDone w s =
      runContext w.context (endCall w.slot c.code (withdrawReceipt w s.devTime) (dropWithdrawal w s))) := by
  have kept : findCall (dropWithdrawal w s) w.slot = some c := found
  constructor
  · intro first
    change (match findCall (dropWithdrawal w s) w.slot with | none => _ | some c => _) = _
    rw [kept]
    exact if_pos first
  · intro other
    change (match findCall (dropWithdrawal w s) w.slot with | none => _ | some c => _) = _
    rw [kept]
    exact if_neg other

theorem endCall_ends {slot result : Nat} {reply : List Byte} (busy : (getSlot s slot).state = 1) (kept : (getSlot s slot).discard = false) :
    CallEnded (endCall slot result reply s) slot result reply ∧ ∀ c ∈ (endCall slot result reply s).seg.calls, c.slot ≠ slot := by
  refine ⟨finishCall_ends busy kept, fun c there => ?_⟩
  rw [endCall, (finishCall_reach _ _ _ _).seg_eq rfl] at there
  simpa using (List.mem_filter.1 there).2

end

/-! ### The final entry of an advice (R324) -/

/-- The final entry is written, and its own withdrawal begins. -/
def finalEntry (c : SegCall) (ctx code : Nat) (f : SegEntry) (t : State) : State := withdraw c.slot ctx c.index f (putCall t { c with phase := 3, code := code })

theorem finalEntry_leaves {c : SegCall} {ctx code : Nat} {s t : State} (f : SegEntry) (listed : c ∈ s.seg.calls) (seg : t.seg = s.seg) :
    ∃ w d, getSeg (finalEntry c ctx code f t) ctx c.index = { f with gen := ((getSeg s ctx c.index).gen + 1) % 2 ^ 32 } ∧
      (finalEntry c ctx code f t).seg.withdrawals = s.seg.withdrawals ++ [w] ∧ w.oldGen = (getSeg s ctx c.index).gen ∧ w.slot = c.slot ∧
      d ∈ (finalEntry c ctx code f t).seg.calls ∧ d.slot = c.slot ∧ d.phase = 3 ∧ d.code = code := by
  have old : getSeg (putCall t { c with phase := 3, code := code }) ctx c.index = getSeg s ctx c.index := by
    change tabGet segEntryReset t.seg.entries _ = _
    rw [seg]
    rfl
  have entry : getSeg (finalEntry c ctx code f t) ctx c.index =
      { f with gen := ((getSeg (putCall t { c with phase := 3, code := code }) ctx c.index).gen + 1) % 2 ^ 32 } := tabGet_tabSet_same _ _ _ _
  let w : Withdrawal := { context := ctx, index := c.index, oldGen := (getSeg s ctx c.index).gen, wTime := t.devTime, applied := [], acked := [], drained := 0,
                          slot := c.slot }
  have held : (finalEntry c ctx code f t).seg.withdrawals = s.seg.withdrawals ++ [w] := by
    rw [← seg]
    exact congrArg (fun g => t.seg.withdrawals ++ [{ w with oldGen := g }]) (congrArg SegEntry.gen old)
  refine ⟨w, { c with phase := 3, code := code }, entry.trans (by rw [old]), held, rfl, rfl, putCall_listed (s := t) (d := c) (seg ▸ listed) rfl, rfl, rfl, rfl⟩

theorem copyDone_none {ctx : Nat} {s : State} {c : SegCall} (found : s.seg.calls.find? (fun c => c.context == ctx) = some c) (phase : c.phase = 2) :
    copyDone ctx none s = finalEntry c ctx pmHostFetch c.orig s := by
  unfold copyDone
  simp only [found, phase]
  rfl

theorem copyDone_cold {ctx d : Nat} {s : State} {c : SegCall} (b : List Byte) (found : s.seg.calls.find? (fun c => c.context == ctx) = some c)
    (phase : c.phase = 2) (op : c.op = .cold d) (free : rangeFree s c.orig.dbase c.orig.length = true)
    (host : (getHost s ((d - hostBase) / 2 ^ 39)).cond = .registered) :
    copyDone ctx (some b) s = finalEntry c ctx pmOk (advisedEntry c.orig c.op) (copyOut c d c.orig.dbase c.orig.length s) := by
  obtain ⟨slot, h, context, index, o, p, orig, code⟩ := c
  dsimp only at phase op free
  subst phase op
  unfold copyDone
  simp only [found, free, host]
  rfl

theorem copyDone_near {ctx d : Nat} {s : State} {c : SegCall} (b : List Byte) (found : s.seg.calls.find? (fun c => c.context == ctx) = some c)
    (phase : c.phase = 2) (op : c.op = .willNeed d ∨ c.op = .readMostly d) (free : rangeFree s d c.orig.length = true) :
    copyDone ctx (some b) s = finalEntry c ctx pmOk (advisedEntry c.orig c.op) (hbmWrite s none d (clean (padTo c.orig.length b)) []) := by
  obtain ⟨slot, h, context, index, o, p, orig, code⟩ := c
  dsimp only at phase op free
  subst phase
  obtain rfl | rfl := op
  · unfold copyDone
    simp only [found, free]
    rfl
  · unfold copyDone
    simp only [found, free]
    rfl

/-- Settles O36: an invalidation and its acknowledgement change one withdrawal, the last one ends it, and a copy's end writes the final entry. -/
theorem withdrawalsDrainEveryEngine : Obligations.WithdrawalsDrainEveryEngine := by
  intro context index engine s
  refine ⟨fun w found => ?_, fun data c f code found phase ends => ?_⟩
  · intro held
    refine ⟨fun new => ?_, fun applied new none_ free _ _ => ?_⟩
    · obtain ⟨v, there, applied, drained, acked, cache⟩ := applyInvalidate_leaves found new
      exact ⟨_, v, rfl, there, applied, drained, acked, cache, applyInvalidate_reach _ _ _ s⟩
    · let v : Withdrawal := { w with acked := setIns w.acked engine.val }
      obtain ⟨isContext, isIndex⟩ := findWithdrawal_spec found
      have ran : exec (.segWithdrawAck context index engine) s = .next _ := congrArg Host.Outcome.next (ackWithdrawal_eq found applied new none_ free)
      refine ⟨fun more => ?_, fun last d foundCall => ?_⟩
      · rw [if_neg more] at ran
        exact ⟨_, v, ran, findWithdrawal_put found isContext isIndex, rfl, putWithdrawal_reach s v⟩
      · rw [if_pos last] at ran
        obtain ⟨first, other⟩ := withdrawalDone_cases (s := putWithdrawal s v) (w := v) foundCall
        refine ⟨fun is => ?_, fun is busy kept => ?_⟩
        · rw [first is] at ran
          refine ⟨_, { d with phase := 2 }, ran, findCall_put (s := dropWithdrawal v (putWithdrawal s v)) foundCall (findCall_mem foundCall).2, rfl, ?_⟩
          rw [← isContext, ← isIndex]
          exact findWithdrawal_dropped v (putWithdrawal s v)
        · rw [other is] at ran
          obtain ⟨ended, others⟩ := endCall_ends (s := dropWithdrawal v (putWithdrawal s v)) (result := d.code) (reply := withdrawReceipt v s.devTime) busy kept
          exact ⟨_, ran, ended.of_same (runCalls_run _ _ _ others).slot⟩
  · have listed := List.mem_of_find?_eq_some found
    obtain ⟨rfl, rfl, rfl⟩ | ⟨there, rfl, rfl, d, ⟨op, free, host⟩ | ⟨op, free⟩⟩ := ends
    · obtain ⟨w, d, leaves⟩ := finalEntry_leaves (ctx := context.val) (code := pmHostFetch) c.orig listed rfl
      exact ⟨_, w, d, congrArg Host.Outcome.next (copyDone_none found phase), leaves⟩
    · obtain ⟨b, rfl⟩ := Option.ne_none_iff_exists'.1 there
      obtain ⟨w, e, leaves⟩ := finalEntry_leaves (ctx := context.val) (code := pmOk) (advisedEntry c.orig c.op) listed
        ((copyOut_reach c d c.orig.dbase c.orig.length s).seg_eq rfl)
      exact ⟨_, w, e, congrArg Host.Outcome.next (copyDone_cold b found phase op free host), leaves⟩
    · obtain ⟨b, rfl⟩ := Option.ne_none_iff_exists'.1 there
      obtain ⟨w, e, leaves⟩ := finalEntry_leaves (ctx := context.val) (code := pmOk) (advisedEntry c.orig c.op) listed
        ((hbmWrite_reach s none d (clean (padTo c.orig.length b)) []).seg_eq rfl)
      exact ⟨_, w, e, congrArg Host.Outcome.next (copyDone_near b found phase op free), leaves⟩

end Sys2Proof.Machine
end
end

section
/-! SUPPORT. A call that its slot and its caller allow (R413, R414), segment calls and advices (R323-R325), and the statement O35. -/
section
namespace Sys2Proof.Machine

/-! ### A call that is admitted (R413-R416) -/

/-- The slot of a call that has begun. -/
def begunSlot (s : State) (who : Agent) (k func : Nat) (notify : Bool) (vec : Nat) : CallSlot :=
  { getSlot s k with state := 1, notify := notify, vector := vec, func := func, caller := agentHost s who, due := none, waits := [], discard := false }

/-- The state in which a call's own work begins. -/
def callBegun (s : State) (who : Agent) (k func : Nat) (notify : Bool) (vec : Nat) : State := setSlot s k (begunSlot s who k func notify vec)

theorem pmCall_of_admitted {s : State} {who : Agent} {k : Nat} {r : CallRule} (admitted : CallAdmitted s who k r) (pick : CallSlot → Bool) (notify : Bool)
    (vec : Nat) (body : CallSlot → Option Nat → State → State × CallEnd) (picked : pick (getSlot s k) = true) :
    pmCall r pick who k notify vec body s =
      match body (begunSlot s who k r.func notify vec) (agentHost s who) (callBegun s who k r.func notify vec) with
      | (t, .now result reply) => finishCall k result reply t
      | (t, .later) => t := by
  obtain ⟨owns, idle, check⟩ := admitted
  have passes : callCheck (callBegun s who k r.func notify vec) r (agentHost s who) (begunSlot s who k r.func notify vec) = 0 :=
    check (begunSlot s who k r.func notify vec) rfl
  unfold pmCall
  rw [if_neg (by simp [picked]), if_neg (by simp [owns]), if_neg idle]
  exact if_neg (fun no => no passes)

/-! ### A segment call runs at once (R325) -/

section
variable {s t : State} {ctx : Nat} {c : SegCall}

/-- A call as it joins its context's calls. -/
def newCall (k host ctx i : Nat) (op : SegOp) : SegCall :=
  { slot := k, host := host, context := ctx, index := i, op := op, phase := 0, orig := segEntryReset, code := pmOk }

def joinCalls (c : SegCall) (s : State) : State := { s with seg := { s.seg with calls := s.seg.calls ++ [c] } }

/-- A call is written at the head of a withdrawal. -/
def beginCall (c : SegCall) (phase : Nat) (e f : SegEntry) (t : State) : State :=
  withdraw c.slot c.context c.index f (putCall t { c with phase := phase, orig := e })

theorem runCalls_settled (settled : ∀ d ∈ s.seg.calls, d.context = ctx → d.phase ≠ 0) : ∀ n, runCalls ctx n s = s
  | 0 => rfl
  | n + 1 => by
    unfold runCalls
    split
    · rfl
    next d found =>
    have named : d.context = ctx := by simpa using List.find?_some found
    exact if_pos (settled d (List.mem_of_find?_eq_some found) named)

theorem endCall_settled {result : Nat} {reply : List Byte} {u : State} (only : ∀ d ∈ u.seg.calls, d.context = ctx → d.slot = c.slot) :
    ∀ d ∈ (endCall c.slot result reply u).seg.calls, d.context = ctx → d.phase ≠ 0 := by
  intro d there named
  rw [endCall, (finishCall_reach _ _ _ _).seg_eq rfl] at there
  obtain ⟨listed, other⟩ := List.mem_filter.1 there
  exact absurd (only d listed named) (by simpa using other)

theorem beginCall_settled {phase : Nat} {e f : SegEntry} {u : State} (moved : phase ≠ 0) (only : ∀ d ∈ u.seg.calls, d.context = ctx → d.slot = c.slot) :
    ∀ d ∈ (beginCall c phase e f u).seg.calls, d.context = ctx → d.phase ≠ 0 := by
  intro d there named
  obtain ⟨a, listed, eq⟩ := List.mem_map.1 there
  split at eq
  · subst eq
    exact moved
  next other =>
    subst eq
    exact absurd (only a listed named) other

/-- The new call of a context that has no other runs, and no call after it. -/
theorem runContext_new {k host i : Nat} {op : SegOp} (new : ∀ d ∈ s.seg.calls, d.context ≠ ctx)
    (settled : ∀ d ∈ (runCall (newCall k host ctx i op) (joinCalls (newCall k host ctx i op) s)).seg.calls, d.context = ctx → d.phase ≠ 0) :
    runContext ctx (joinCalls (newCall k host ctx i op) s) = runCall (newCall k host ctx i op) (joinCalls (newCall k host ctx i op) s) := by
  have found : (joinCalls (newCall k host ctx i op) s).seg.calls.find? (fun c => c.context == ctx) = some (newCall k host ctx i op) := by
    rw [joinCalls]
    dsimp only
    rw [List.find?_append, List.find?_eq_none.2 (fun d listed => by simpa using new d listed)]
    simp [newCall]
  rw [runContext, runCalls, found]
  dsimp only
  rw [if_neg (by simp [newCall])]
  exact runCalls_settled settled _

/-- Every call of the context is at the slot of the one that has joined. -/
theorem joinCalls_only {k host i : Nat} {op : SegOp} (new : ∀ d ∈ s.seg.calls, d.context ≠ ctx) :
    ∀ d ∈ (joinCalls (newCall k host ctx i op) s).seg.calls, d.context = ctx → d.slot = k := by
  intro d there named
  obtain before | joined := List.mem_append.1 there
  · exact absurd named (new d before)
  · exact (List.mem_singleton.1 joined) ▸ rfl

end

section
variable {s : State} {who : Agent} {slot : Fin 12}

/-- A segment call that is admitted, with a context and an index in range, its operands in order and its context its caller's, is the run of its
context's calls. -/
theorem segCall_runs {func : Nat} {carrier : Bool} {named : List (Nat × Nat)} (pick : CallSlot → Bool) (op : CallSlot → SegOp) (argsOk : CallSlot → Bool)
    (notify : Bool) (vector : Fin 1024) (admitted : CallAdmitted s who slot.val (segRule func carrier named)) (picked : pick (getSlot s slot.val) = true)
    (low : argAt (getSlot s slot.val) 0 2 < 4096) (inside : argAt (getSlot s slot.val) 2 1 < 64)
    (args : argsOk (begunSlot s who slot.val func notify vector.val) = true)
    (owns : ∀ h, agentHost s who = some h → ownsContext s h (argAt (getSlot s slot.val) 0 2) = true) :
    segCall func carrier named pick op argsOk who slot notify vector s =
      runContext (argAt (getSlot s slot.val) 0 2) (joinCalls (newCall slot.val ((agentHost s who).getD 0) (argAt (getSlot s slot.val) 0 2)
        (argAt (getSlot s slot.val) 2 1) (op (begunSlot s who slot.val func notify vector.val))) (callBegun s who slot.val func notify vector.val)) := by
  rw [segCall, pmCall_of_admitted admitted pick notify vector.val _ picked]
  have accepted : acceptSeg op argsOk slot.val (begunSlot s who slot.val func notify vector.val) (agentHost s who)
      (callBegun s who slot.val func notify vector.val) =
      (runContext (argAt (getSlot s slot.val) 0 2) (joinCalls (newCall slot.val ((agentHost s who).getD 0) (argAt (getSlot s slot.val) 0 2)
        (argAt (getSlot s slot.val) 2 1) (op (begunSlot s who slot.val func notify vector.val))) (callBegun s who slot.val func notify vector.val)), .later) := by
    unfold acceptSeg
    dsimp only
    rw [if_neg (by
      rw [not_or, not_or]
      exact ⟨Nat.not_le.2 low, Nat.not_le.2 inside, by simp [args]⟩)]
    refine if_neg ?_
    cases caller : agentHost s who with
    | none => simp
    | some h =>
      have own := owns h caller
      simp only [Bool.not_eq_true', Bool.not_eq_false]
      exact own
  rw [show (segRule func carrier named).func = func from rfl, accepted]

end

/-! ### How a segment call ends, or begins its withdrawal (R325, R326) -/

/-- The state in which a segment call runs: its slot runs and it has joined its context's calls. -/
def segJoined (s : State) (who : Agent) (k func : Nat) (notify : Bool) (vec : Nat) (op : SegOp) : State :=
  joinCalls (newCall k ((agentHost s who).getD 0) (argAt (getSlot s k) 0 2) (argAt (getSlot s k) 2 1) op) (callBegun s who k func notify vec)

/-- The call of an agent's slot. -/
def calledSeg (s : State) (who : Agent) (k : Nat) (op : SegOp) : SegCall :=
  newCall k ((agentHost s who).getD 0) (argAt (getSlot s k) 0 2) (argAt (getSlot s k) 2 1) op

/-- What the first conditions of R325 ask of a segment call, and that no earlier call of its context is ahead of it. -/
structure SegReady (s : State) (who : Agent) (k : Nat) (r : CallRule) : Prop where
  admitted : CallAdmitted s who k r
  low : argAt (getSlot s k) 0 2 < 4096
  inside : argAt (getSlot s k) 2 1 < 64
  owns : ∀ h, agentHost s who = some h → ownsContext s h (argAt (getSlot s k) 0 2) = true
  alone : ∀ c ∈ s.seg.calls, c.context ≠ argAt (getSlot s k) 0 2

section
variable {s : State} {who : Agent} {slot : Fin 12} {func : Nat} {carrier : Bool} {named : List (Nat × Nat)} {pick : CallSlot → Bool}
  {op : CallSlot → SegOp} {argsOk : CallSlot → Bool} {notify : Bool} {vector : Fin 1024} {o : SegOp} {u : State}

theorem getSlot_segJoined (k vec : Nat) (o : SegOp) : getSlot (segJoined s who k func notify vec o) k = begunSlot s who k func notify vec :=
  (getSlot_of_pm rfl k).trans (getSlot_setSlot s k (begunSlot s who k func notify vec))

theorem segJoined_getSeg (k : Nat) (o : SegOp) (c j : Nat) : getSeg (segJoined s who k func notify vector.val o) c j = getSeg s c j := rfl

theorem segJoined_checkSeg (k : Nat) (o : SegOp) (h c j : Nat) (e : SegEntry) (ok : Bool) :
    checkSeg (segJoined s who k func notify vector.val o) h c j e ok = checkSeg s h c j e ok := rfl

theorem segCall_eq (ready : SegReady s who slot.val (segRule func carrier named)) (picked : pick (getSlot s slot.val) = true)
    (args : argsOk (begunSlot s who slot.val func notify vector.val) = true) (names : op (begunSlot s who slot.val func notify vector.val) = o)
    (run : runCall (calledSeg s who slot.val o) (segJoined s who slot.val func notify vector.val o) = u)
    (settled : ∀ d ∈ u.seg.calls, d.context = argAt (getSlot s slot.val) 0 2 → d.phase ≠ 0) :
    segCall func carrier named pick op argsOk who slot notify vector s = u := by
  subst run names
  rw [segCall_runs pick op argsOk notify vector ready.admitted picked ready.low ready.inside args ready.owns]
  exact runContext_new (s := callBegun s who slot.val func notify vector.val) ready.alone settled

/-- A call whose run ends it: its slot has its result, and the table is as its work has left it. -/
theorem segCall_ended {result : Nat} {reply : List Byte} (ready : SegReady s who slot.val (segRule func carrier named))
    (picked : pick (getSlot s slot.val) = true) (args : argsOk (begunSlot s who slot.val func notify vector.val) = true)
    (names : op (begunSlot s who slot.val func notify vector.val) = o)
    (run : runCall (calledSeg s who slot.val o) (segJoined s who slot.val func notify vector.val o) = endCall slot.val result reply u)
    (pm : u.pm = (segJoined s who slot.val func notify vector.val o).pm)
    (calls : u.seg.calls = (segJoined s who slot.val func notify vector.val o).seg.calls) :
    ∃ t, segCall func carrier named pick op argsOk who slot notify vector s = t ∧ CallEnded t slot.val result reply ∧
      ∀ c j, getSeg t c j = getSeg u c j := by
  have only : ∀ d ∈ u.seg.calls, d.context = argAt (getSlot s slot.val) 0 2 → d.slot = slot.val := by
    rw [calls]
    exact joinCalls_only (s := callBegun s who slot.val func notify vector.val) ready.alone
  have busy : getSlot u slot.val = begunSlot s who slot.val func notify vector.val := (getSlot_of_pm pm _).trans (getSlot_segJoined _ _ _)
  refine ⟨_, segCall_eq ready picked args names run (endCall_settled (c := calledSeg s who slot.val o) only),
    (endCall_ends (by rw [busy]; rfl) (by rw [busy]; rfl)).1, fun c j => ?_⟩
  rw [getSeg, endCall, (finishCall_reach _ _ _ _).seg_eq rfl]
  rfl

/-- A call whose run begins a withdrawal: its slot runs on, and the new entry stands. -/
theorem segCall_begun {phase : Nat} {f : SegEntry} (ready : SegReady s who slot.val (segRule func carrier named))
    (picked : pick (getSlot s slot.val) = true) (args : argsOk (begunSlot s who slot.val func notify vector.val) = true)
    (names : op (begunSlot s who slot.val func notify vector.val) = o) (moved : phase ≠ 0)
    (run : runCall (calledSeg s who slot.val o) (segJoined s who slot.val func notify vector.val o) =
      beginCall (calledSeg s who slot.val o) phase (getSeg s (argAt (getSlot s slot.val) 0 2) (argAt (getSlot s slot.val) 2 1)) f u)
    (calls : u.seg.calls = (segJoined s who slot.val func notify vector.val o).seg.calls) :
    segCall func carrier named pick op argsOk who slot notify vector s =
      beginCall (calledSeg s who slot.val o) phase (getSeg s (argAt (getSlot s slot.val) 0 2) (argAt (getSlot s slot.val) 2 1)) f u := by
  have only : ∀ d ∈ u.seg.calls, d.context = argAt (getSlot s slot.val) 0 2 → d.slot = slot.val := by
    rw [calls]
    exact joinCalls_only (s := callBegun s who slot.val func notify vector.val) ready.alone
  exact segCall_eq ready picked args names run (beginCall_settled (c := calledSeg s who slot.val o) moved only)

theorem getSeg_setSeg_ne {s : State} {a b c d : Nat} (e : SegEntry) (ne : a * 64 + b ≠ c * 64 + d) : getSeg (setSeg s c d e) a b = getSeg s a b :=
  tabGet_tabSet_ne _ _ e ne

end

/-! ### The run of a call, operation by operation (R323, R325) -/

section
variable {s : State} {c : SegCall}

theorem runCall_read (op : c.op = .read) : runCall c s = endCall c.slot pmOk (segBytes (getSeg s c.context c.index)) s := by
  unfold runCall
  rw [op]

theorem runCall_write_refused {f : SegEntry} {ok : Bool} {p : Nat × Nat} (op : c.op = .write f ok)
    (check : checkSeg s c.host c.context c.index f ok = p) (refused : p.1 ≠ 0) : runCall c s = endCall c.slot (p.1 + p.2 * 2 ^ 32) [] s := by
  unfold runCall
  rw [op]
  dsimp only
  rw [check]
  exact if_pos refused

theorem runCall_write_empty {f : SegEntry} {ok : Bool} {p : Nat × Nat} (op : c.op = .write f ok)
    (check : checkSeg s c.host c.context c.index f ok = p) (passes : p.1 = 0) (empty : (getSeg s c.context c.index).home = .empty) :
    runCall c s = endCall c.slot pmOk (zeros 32)
      (setSeg s c.context c.index { f with gen := ((getSeg s c.context c.index).gen + 1) % 2 ^ 32 }) := by
  unfold runCall
  rw [op]
  dsimp only
  rw [check]
  exact (if_neg (fun no => no passes)).trans (if_pos empty)

theorem runCall_write_live {f : SegEntry} {ok : Bool} {p : Nat × Nat} (op : c.op = .write f ok)
    (check : checkSeg s c.host c.context c.index f ok = p) (passes : p.1 = 0) (live : (getSeg s c.context c.index).home ≠ .empty) :
    runCall c s = beginCall c 3 (getSeg s c.context c.index) f s := by
  obtain ⟨_, _, _, _, o, _, _, _⟩ := c
  obtain rfl : o = _ := op
  unfold runCall
  dsimp only
  rw [check]
  exact (if_neg (fun no => no passes)).trans (if_neg live)

theorem runCall_clear_empty (op : c.op = .clear) (empty : (getSeg s c.context c.index).home = .empty) :
    runCall c s = endCall c.slot pmOk (zeros 32)
      (setSeg s c.context c.index { segEntryReset with gen := ((getSeg s c.context c.index).gen + 1) % 2 ^ 32 }) := by
  unfold runCall
  rw [op]
  exact if_pos empty

theorem runCall_clear_live (op : c.op = .clear) (live : (getSeg s c.context c.index).home ≠ .empty) :
    runCall c s = beginCall c 3 (getSeg s c.context c.index) segEntryReset s := by
  obtain ⟨_, _, _, _, o, _, _, _⟩ := c
  obtain rfl : o = _ := op
  exact if_neg live

/-- An operation of `SEG_ADVISE`. -/
def isAdvice : SegOp → Bool
  | .read | .write _ _ | .clear => false
  | _ => true

/-- The advices that copy first withdraw the rights to write (R323). -/
def copies : SegOp → Bool
  | .willNeed _ | .cold _ | .readMostly _ => true
  | _ => false

theorem runCall_advice_refused (advice : isAdvice c.op = true) {code rule : Nat} (check : checkAdvice s c (getSeg s c.context c.index) = (code, rule))
    (refused : code ≠ 0) : runCall c s = endCall c.slot (code + rule * 2 ^ 32) [] s := by
  unfold runCall
  cases op : c.op with
  | read => simp [op, isAdvice] at advice
  | write => simp [op, isAdvice] at advice
  | clear => simp [op, isAdvice] at advice
  | _ =>
    dsimp only
    rw [check]
    exact if_pos refused

theorem runCall_advice_copies (copy : copies c.op = true) {rule : Nat} (check : checkAdvice s c (getSeg s c.context c.index) = (0, rule)) :
    runCall c s = beginCall c 1 (getSeg s c.context c.index) { getSeg s c.context c.index with write := false, atomic := false } s := by
  obtain ⟨_, _, _, _, o, _, _, _⟩ := c
  cases o with
  | willNeed | cold | readMostly =>
    unfold runCall
    dsimp only
    rw [check]
    exact if_neg (fun no => no rfl)
  | _ => exact absurd copy Bool.false_ne_true

theorem runCall_revoke (op : c.op = .revokeRm) {rule : Nat} (check : checkAdvice s c (getSeg s c.context c.index) = (0, rule)) :
    runCall c s = beginCall c 3 (getSeg s c.context c.index) (advisedEntry (getSeg s c.context c.index) .revokeRm) s := by
  obtain ⟨_, _, _, _, o, _, _, _⟩ := c
  obtain rfl : o = _ := op
  unfold runCall
  dsimp only
  rw [check]
  exact if_neg (fun no => no rfl)

theorem runCall_hot (op : c.op = .hot) {rule : Nat} (check : checkAdvice s c (getSeg s c.context c.index) = (0, rule)) :
    runCall c s = beginCall c 3 (getSeg s c.context c.index) { getSeg s c.context c.index with hot := true }
      (noteHot (c.context * 64 + c.index) true s) := by
  obtain ⟨_, _, _, _, o, _, _, _⟩ := c
  obtain rfl : o = _ := op
  unfold runCall
  dsimp only
  rw [check]
  exact if_neg (fun no => no rfl)

theorem runCall_normal (op : c.op = .normal) {rule : Nat} (check : checkAdvice s c (getSeg s c.context c.index) = (0, rule)) :
    runCall c s = beginCall c 3 (getSeg s c.context c.index) { getSeg s c.context c.index with hot := false }
      (noteHot (c.context * 64 + c.index) false s) := by
  obtain ⟨_, _, _, _, o, _, _, _⟩ := c
  obtain rfl : o = _ := op
  unfold runCall
  dsimp only
  rw [check]
  exact if_neg (fun no => no rfl)

end

end Sys2Proof.Machine
end
end

section
/-! SUPPORT. Segment calls and advices: the statement O35 (R312, R323-R326). -/
section
namespace Sys2Proof.Machine

section
variable {s u : State} {who : Agent} {k func : Nat} {notify : Bool} {vec : Nat} {o : SegOp}

/-- The withdrawal that a call of a slot begins. -/
def segHold (s : State) (k : Nat) : Withdrawal :=
  { context := argAt (getSlot s k) 0 2, index := argAt (getSlot s k) 2 1,
    oldGen := (getSeg s (argAt (getSlot s k) 0 2) (argAt (getSlot s k) 2 1)).gen, wTime := s.devTime, applied := [], acked := [], drained := 0, slot := k }

/-- A state that keeps, of the one in which a segment call runs, all that the beginning of its withdrawal goes by. -/
structure BeginsFrom (s : State) (who : Agent) (k func : Nat) (notify : Bool) (vec : Nat) (o : SegOp) (u : State) : Prop where
  pm : u.pm = (segJoined s who k func notify vec o).pm
  entries : u.seg.entries = s.seg.entries
  holds : u.seg.withdrawals = s.seg.withdrawals
  calls : u.seg.calls = s.seg.calls ++ [calledSeg s who k o]
  time : u.devTime = s.devTime

theorem BeginsFrom.refl : BeginsFrom s who k func notify vec o (segJoined s who k func notify vec o) := ⟨rfl, rfl, rfl, rfl, rfl⟩

theorem BeginsFrom.noteHot (key : Nat) (hot : Bool) :
    BeginsFrom s who k func notify vec o (noteHot key hot (segJoined s who k func notify vec o)) := ⟨rfl, rfl, rfl, rfl, rfl⟩

theorem beginCall_leaves (h : BeginsFrom s who k func notify vec o u) (phase : Nat) (e f : SegEntry) :
    (getSlot (beginCall (calledSeg s who k o) phase e f u) k).state = 1 ∧
    getSeg (beginCall (calledSeg s who k o) phase e f u) (argAt (getSlot s k) 0 2) (argAt (getSlot s k) 2 1) =
      { f with gen := ((getSeg s (argAt (getSlot s k) 0 2) (argAt (getSlot s k) 2 1)).gen + 1) % 2 ^ 32 } ∧
    (beginCall (calledSeg s who k o) phase e f u).seg.withdrawals = s.seg.withdrawals ++ [segHold s k] ∧
    ∀ c j, c * 64 + j ≠ argAt (getSlot s k) 0 2 * 64 + argAt (getSlot s k) 2 1 →
      getSeg (beginCall (calledSeg s who k o) phase e f u) c j = getSeg s c j := by
  have seg : ∀ c j, getSeg (putCall u { calledSeg s who k o with phase := phase, orig := e }) c j = getSeg s c j :=
    fun c j => congrArg (fun t => tabGet segEntryReset t (c * 64 + j)) h.entries
  refine ⟨?_, ?_, ?_, fun c j ne => (getSeg_setSeg_ne (a := c) (b := j) (c := argAt (getSlot s k) 0 2) (d := argAt (getSlot s k) 2 1) _ ne).trans (seg c j)⟩
  · rw [getSlot_of_pm (show (beginCall (calledSeg s who k o) phase e f u).pm = _ from h.pm) k, getSlot_segJoined]
    rfl
  · rw [← seg (argAt (getSlot s k) 0 2) (argAt (getSlot s k) 2 1)]
    exact tabGet_tabSet_same _ _ _ _
  · rw [segHold, ← seg (argAt (getSlot s k) 0 2) (argAt (getSlot s k) 2 1), ← h.holds, ← h.time]
    rfl

/-- Where no other call stands at the slot, the call joins the others with its phase. -/
theorem beginCall_calls (h : BeginsFrom s who k func notify vec o u) (phase : Nat) (e f : SegEntry) (alone : ∀ c ∈ s.seg.calls, c.slot ≠ k) :
    (beginCall (calledSeg s who k o) phase e f u).seg.calls = s.seg.calls ++ [{ calledSeg s who k o with phase := phase, orig := e }] := by
  change u.seg.calls.map _ = _
  rw [h.calls, List.map_append]
  refine congrArg₂ (· ++ ·) ((List.map_congr_left fun d listed => if_neg (alone d listed)).trans (List.map_id _)) ?_
  exact congrArg (fun d => [d]) (if_pos rfl)

end

/-! ### The three operations on an entry (R325) -/

section
variable {who : Agent} {slot : Fin 12} {s : State} (notify : Bool) (vector : Fin 1024)

/-- What a call of a slot operates on. -/
def oldEntry (s : State) (k : Nat) : SegEntry := getSeg s (argAt (getSlot s k) 0 2) (argAt (getSlot s k) 2 1)

/-- The descriptor of a `SEG_WRITE`, its reserved fields' check, and what its rules say of it. -/
def newEntry (s : State) (k : Nat) : SegEntry := parseSeg (argBytes (getSlot s k) 8 32)

def writeOp (s : State) (k : Nat) : SegOp := .write (newEntry s k) (segReservedOk (argBytes (getSlot s k) 8 32))

def writeCheck (s : State) (who : Agent) (k : Nat) : Nat × Nat :=
  checkSeg s ((agentHost s who).getD 0) (argAt (getSlot s k) 0 2) (argAt (getSlot s k) 2 1) (newEntry s k) (segReservedOk (argBytes (getSlot s k) 8 32))

/-- The generation that a new entry takes. -/
def nextGen (s : State) (k : Nat) : Nat := ((oldEntry s k).gen + 1) % 2 ^ 32

/-- A call of a slot ends and leaves the table as it was. -/
def EndsAlone (r : Host.Outcome State Fault Refusal) (s : State) (k result : Nat) (reply : List Byte) : Prop :=
  ∃ t, r = .next t ∧ CallEnded t k result reply ∧ ∀ c j, getSeg t c j = getSeg s c j

/-- A call of a slot ends and writes its entry at once. -/
def EndsWith (r : Host.Outcome State Fault Refusal) (s : State) (k : Nat) (f : SegEntry) : Prop :=
  ∃ t, r = .next t ∧ CallEnded t k 0 (zeros 32) ∧
    getSeg t (argAt (getSlot s k) 0 2) (argAt (getSlot s k) 2 1) = { f with gen := nextGen s k } ∧
    ∀ c j, c * 64 + j ≠ argAt (getSlot s k) 0 2 * 64 + argAt (getSlot s k) 2 1 → getSeg t c j = getSeg s c j

theorem segRead_ends (ready : SegReady s who slot.val (segRule 0x22 true [(0, 3)])) :
    EndsAlone (exec (.segRead who slot notify vector) s) s slot.val 0 (segBytes (oldEntry s slot.val)) := by
  obtain ⟨t, eq, ended, same⟩ := segCall_ended (pick := fun _ => true) (op := fun _ => .read) (argsOk := fun _ => true) (notify := notify) (vector := vector)
    ready rfl rfl rfl (runCall_read rfl) rfl rfl
  exact ⟨t, congrArg Host.Outcome.next eq, ended, same⟩

theorem segWrite_refused (ready : SegReady s who slot.val (segRule 0x20 false [(0, 3), (8, 32)]))
    (args : segArgsOk (argBytes (getSlot s slot.val) 8 32) = true) (refused : (writeCheck s who slot.val).1 ≠ 0) :
    EndsAlone (exec (.segWrite who slot notify vector) s) s slot.val ((writeCheck s who slot.val).1 + (writeCheck s who slot.val).2 * 2 ^ 32) [] := by
  obtain ⟨t, eq, ended, same⟩ := segCall_ended (o := writeOp s slot.val) (pick := fun _ => true)
    (op := fun x => .write (parseSeg (argBytes x 8 32)) (segReservedOk (argBytes x 8 32))) (argsOk := fun x => segArgsOk (argBytes x 8 32))
    (notify := notify) (vector := vector) ready rfl args rfl (runCall_write_refused (c := calledSeg s who slot.val (writeOp s slot.val)) (p := writeCheck s who slot.val) rfl (segJoined_checkSeg _ _ _ _ _ _ _) refused) rfl rfl
  exact ⟨t, congrArg Host.Outcome.next eq, ended, same⟩

/-- A call of an empty entry writes it at once. -/
theorem segCall_writes {func : Nat} {carrier : Bool} {named : List (Nat × Nat)} {op : CallSlot → SegOp} {argsOk : CallSlot → Bool} {o : SegOp}
    (f : SegEntry) (ready : SegReady s who slot.val (segRule func carrier named))
    (args : argsOk (begunSlot s who slot.val func notify vector.val) = true) (names : op (begunSlot s who slot.val func notify vector.val) = o)
    (run : runCall (calledSeg s who slot.val o) (segJoined s who slot.val func notify vector.val o) = endCall slot.val pmOk (zeros 32)
      (setSeg (segJoined s who slot.val func notify vector.val o) (argAt (getSlot s slot.val) 0 2) (argAt (getSlot s slot.val) 2 1)
        { f with gen := nextGen s slot.val })) :
    EndsWith (.next (segCall func carrier named (fun _ => true) op argsOk who slot notify vector s)) s slot.val f := by
  obtain ⟨t, eq, ended, same⟩ := segCall_ended (pick := fun _ => true) ready rfl args names run rfl rfl
  exact ⟨t, congrArg Host.Outcome.next eq, ended, (same _ _).trans (tabGet_tabSet_same _ _ _ _), fun c j ne => (same c j).trans (getSeg_setSeg_ne _ ne)⟩

theorem segWrite_empty (ready : SegReady s who slot.val (segRule 0x20 false [(0, 3), (8, 32)]))
    (args : segArgsOk (argBytes (getSlot s slot.val) 8 32) = true) (passes : (writeCheck s who slot.val).1 = 0)
    (empty : (oldEntry s slot.val).home = .empty) :
    EndsWith (exec (.segWrite who slot notify vector) s) s slot.val (newEntry s slot.val) :=
  segCall_writes (o := writeOp s slot.val) notify vector (newEntry s slot.val) ready args rfl
    (runCall_write_empty (c := calledSeg s who slot.val (writeOp s slot.val)) (p := writeCheck s who slot.val) rfl (segJoined_checkSeg _ _ _ _ _ _ _)
      passes empty)

theorem segWrite_live (ready : SegReady s who slot.val (segRule 0x20 false [(0, 3), (8, 32)]))
    (args : segArgsOk (argBytes (getSlot s slot.val) 8 32) = true) (passes : (writeCheck s who slot.val).1 = 0)
    (live : (oldEntry s slot.val).home ≠ .empty) :
    exec (.segWrite who slot notify vector) s = .next (beginCall (calledSeg s who slot.val (writeOp s slot.val)) 3 (oldEntry s slot.val)
      (newEntry s slot.val) (segJoined s who slot.val 0x20 notify vector.val (writeOp s slot.val))) :=
  congrArg Host.Outcome.next (segCall_begun (o := writeOp s slot.val) (pick := fun _ => true)
    (op := fun x => .write (parseSeg (argBytes x 8 32)) (segReservedOk (argBytes x 8 32))) (argsOk := fun x => segArgsOk (argBytes x 8 32))
    ready rfl args rfl (by decide) (runCall_write_live rfl (segJoined_checkSeg _ _ _ _ _ _ _) passes live) rfl)

theorem segClear_empty (ready : SegReady s who slot.val (segRule 0x21 false [(0, 3)])) (empty : (oldEntry s slot.val).home = .empty) :
    EndsWith (exec (.segClear who slot notify vector) s) s slot.val segEntryReset :=
  segCall_writes (o := .clear) notify vector segEntryReset ready rfl rfl (runCall_clear_empty (c := calledSeg s who slot.val .clear) rfl empty)

theorem segClear_live (ready : SegReady s who slot.val (segRule 0x21 false [(0, 3)])) (live : (oldEntry s slot.val).home ≠ .empty) :
    exec (.segClear who slot notify vector) s = .next (beginCall (calledSeg s who slot.val .clear) 3 (oldEntry s slot.val) segEntryReset
      (segJoined s who slot.val 0x21 notify vector.val .clear)) :=
  congrArg Host.Outcome.next (segCall_begun (pick := fun _ => true) (op := fun _ => .clear) (argsOk := fun _ => true) ready rfl rfl rfl (by decide)
    (runCall_clear_live rfl live) rfl)

end

/-! ### The advices (R316, R323) -/

section
variable {who : Agent} {slot : Fin 12} {s : State} {pick : Nat → Bool} {op : Nat → SegOp} {destOk : Nat → Bool} {o : SegOp} (notify : Bool)
  (vector : Fin 1024)

/-- The advice of a slot's operands and its destination, as `adviseCall` takes them up. -/
structure Advises (s : State) (who : Agent) (k : Nat) (pick : Nat → Bool) (op : Nat → SegOp) (destOk : Nat → Bool) (o : SegOp) : Prop where
  ready : SegReady s who k (segRule 0x23 false [(0, 4), (8, 8)])
  alone : ∀ c ∈ s.seg.calls, c.slot ≠ k
  names : pick (argAt (getSlot s k) 3 1) = true
  known : argAt (getSlot s k) 3 1 ≤ 5
  dest : destOk (argAt (getSlot s k) 8 8) = true
  op : op (argAt (getSlot s k) 8 8) = o

theorem Advises.args (h : Advises s who slot.val pick op destOk o) :
    (decide (argAt (getSlot s slot.val) 3 1 ≤ 5) && destOk (argAt (getSlot s slot.val) 8 8)) = true := by
  rw [decide_eq_true h.known, h.dest]
  rfl

theorem advise_wrong (h : Advises s who slot.val pick op destOk o) (advice : isAdvice o = true)
    (check : checkAdvice (segJoined s who slot.val 0x23 notify vector.val o) (calledSeg s who slot.val o) (oldEntry s slot.val) = (pmWrongState, 0)) :
    EndsAlone (.next (adviseCall pick op destOk who slot notify vector s)) s slot.val pmWrongState [] := by
  obtain ⟨t, eq, ended, same⟩ := segCall_ended (o := o) (pick := fun x => pick (argAt x 3 1)) (op := fun x => op (argAt x 8 8))
    (argsOk := fun x => decide (argAt x 3 1 ≤ 5) && destOk (argAt x 8 8)) (notify := notify) (vector := vector) h.ready h.names h.args h.op
    (runCall_advice_refused (c := calledSeg s who slot.val o) advice check (by decide)) rfl rfl
  exact ⟨t, congrArg Host.Outcome.next eq, ended, same⟩

/-- A call of a slot begins its withdrawal in a phase: the entry is in place and the call waits. -/
def Begins (r : Host.Outcome State Fault Refusal) (s : State) (k : Nat) (f : SegEntry) (phase : Nat) : Prop :=
  ∃ t c w, r = .next t ∧ (getSlot t k).state = 1 ∧
    getSeg t (argAt (getSlot s k) 0 2) (argAt (getSlot s k) 2 1) = { f with gen := nextGen s k } ∧ t.seg.calls = s.seg.calls ++ [c] ∧ c.slot = k ∧
    c.context = argAt (getSlot s k) 0 2 ∧ c.index = argAt (getSlot s k) 2 1 ∧ c.phase = phase ∧ c.orig = oldEntry s k ∧
    t.seg.withdrawals = s.seg.withdrawals ++ [w] ∧ w.context = argAt (getSlot s k) 0 2 ∧ w.index = argAt (getSlot s k) 2 1 ∧
    w.oldGen = (oldEntry s k).gen ∧ w.slot = k

theorem advise_eq {u : State} {phase : Nat} {f : SegEntry} (h : Advises s who slot.val pick op destOk o) (moved : phase ≠ 0)
    (run : runCall (calledSeg s who slot.val o) (segJoined s who slot.val 0x23 notify vector.val o) =
      beginCall (calledSeg s who slot.val o) phase (oldEntry s slot.val) f u)
    (begins : BeginsFrom s who slot.val 0x23 notify vector.val o u) :
    adviseCall pick op destOk who slot notify vector s = beginCall (calledSeg s who slot.val o) phase (oldEntry s slot.val) f u :=
  segCall_begun (o := o) (pick := fun x => pick (argAt x 3 1)) (op := fun x => op (argAt x 8 8))
    (argsOk := fun x => decide (argAt x 3 1 ≤ 5) && destOk (argAt x 8 8)) h.ready h.names h.args h.op moved run begins.calls

theorem advise_begins {u : State} {phase : Nat} {f : SegEntry} (h : Advises s who slot.val pick op destOk o) (moved : phase ≠ 0)
    (run : runCall (calledSeg s who slot.val o) (segJoined s who slot.val 0x23 notify vector.val o) =
      beginCall (calledSeg s who slot.val o) phase (oldEntry s slot.val) f u)
    (begins : BeginsFrom s who slot.val 0x23 notify vector.val o u) :
    Begins (.next (adviseCall pick op destOk who slot notify vector s)) s slot.val f phase := by
  obtain ⟨busy, entry, holds, -⟩ := beginCall_leaves begins phase (oldEntry s slot.val) f
  exact ⟨_, _, _, congrArg Host.Outcome.next (advise_eq notify vector h moved run begins), busy, entry, beginCall_calls begins phase _ f h.alone,
    rfl, rfl, rfl, rfl, rfl, holds, rfl, rfl, rfl, rfl⟩

/-- The advices that copy begin by withdrawing the rights to write. -/
theorem advise_copies {rule : Nat} (h : Advises s who slot.val pick op destOk o) (copy : copies o = true)
    (check : checkAdvice (segJoined s who slot.val 0x23 notify vector.val o) (calledSeg s who slot.val o) (oldEntry s slot.val) = (0, rule)) :
    Begins (.next (adviseCall pick op destOk who slot notify vector s)) s slot.val { oldEntry s slot.val with write := false, atomic := false } 1 :=
  advise_begins notify vector h (by decide) (runCall_advice_copies (c := calledSeg s who slot.val o) copy check) .refl

/-! What an advice finds wrong (R323). -/

/-- The destination of an advice passes: in HBM where it has to be, and by the rules on the final entry. -/
def DestPasses (s : State) (who : Agent) (k d : Nat) (o : SegOp) (hbm : Bool) : Prop :=
  (hbm = true → d + (oldEntry s k).length ≤ hbmTop) ∧
  (checkSeg s ((agentHost s who).getD 0) (argAt (getSlot s k) 0 2) (argAt (getSlot s k) 2 1) (advisedEntry (oldEntry s k) o) true).1 = 0

theorem destPasses_check {d : Nat} {hbm : Bool} (passes : DestPasses s who slot.val d o hbm) :
    ∃ rule, (if hbm && decide (hbmTop < d + (oldEntry s slot.val).length) then (0x44, 1)
      else checkSeg (segJoined s who slot.val 0x23 notify vector.val o) ((agentHost s who).getD 0) (argAt (getSlot s slot.val) 0 2)
        (argAt (getSlot s slot.val) 2 1) (advisedEntry (oldEntry s slot.val) o) true) = ((0 : Nat), rule) := by
  obtain ⟨room, check⟩ := passes
  refine ⟨_, (if_neg ?_).trans ((segJoined_checkSeg _ _ _ _ _ _ _).trans (Prod.ext check rfl))⟩
  rw [Bool.and_eq_true, decide_eq_true_eq]
  exact fun ⟨near, far⟩ => Nat.not_lt.2 (room near) far

theorem willNeed_check {d : Nat} (home : (oldEntry s slot.val).home = .host) (passes : DestPasses s who slot.val d (.willNeed d) true) :
    ∃ rule, checkAdvice (segJoined s who slot.val 0x23 notify vector.val (.willNeed d)) (calledSeg s who slot.val (.willNeed d)) (oldEntry s slot.val) =
      (0, rule) := by
  obtain ⟨rule, check⟩ := destPasses_check notify vector passes
  exact ⟨rule, (if_neg (fun no => no home)).trans check⟩

theorem readMostly_check {d : Nat} (home : (oldEntry s slot.val).home = .host) (passes : DestPasses s who slot.val d (.readMostly d) true) :
    ∃ rule, checkAdvice (segJoined s who slot.val 0x23 notify vector.val (.readMostly d)) (calledSeg s who slot.val (.readMostly d))
      (oldEntry s slot.val) = (0, rule) := by
  obtain ⟨rule, check⟩ := destPasses_check notify vector passes
  exact ⟨rule, (if_neg (fun no => no home)).trans check⟩

theorem cold_check {d : Nat} (home : (oldEntry s slot.val).home = .local) (near : (oldEntry s slot.val).dbase < hbmTop)
    (passes : DestPasses s who slot.val d (.cold d) false) :
    ∃ rule, checkAdvice (segJoined s who slot.val 0x23 notify vector.val (.cold d)) (calledSeg s who slot.val (.cold d)) (oldEntry s slot.val) =
      (0, rule) := by
  obtain ⟨rule, check⟩ := destPasses_check notify vector passes
  exact ⟨rule, (if_neg (not_or.2 ⟨fun no => no home, Nat.not_le.2 near⟩)).trans check⟩

/-- HOT and NORMAL begin the withdrawal of the entry with its mark, and the order of the pinned ones is what they leave. -/
theorem adviseHot_begins (h : Advises s who slot.val pick op destOk .hot) (live : (oldEntry s slot.val).home ≠ .empty) :
    Begins (.next (adviseCall pick op destOk who slot notify vector s)) s slot.val { oldEntry s slot.val with hot := true } 3 ∧
    (adviseCall pick op destOk who slot notify vector s).seg.hotOrder.head? = some (argAt (getSlot s slot.val) 0 2 * 64 + argAt (getSlot s slot.val) 2 1) := by
  have run := runCall_hot (c := calledSeg s who slot.val .hot) (s := segJoined s who slot.val 0x23 notify vector.val .hot) rfl (if_neg live)
  refine ⟨advise_begins notify vector h (by decide) run (.noteHot _ _), ?_⟩
  rw [advise_eq notify vector h (by decide) run (.noteHot _ _)]
  rfl

theorem adviseNormal_begins (h : Advises s who slot.val pick op destOk .normal) (live : (oldEntry s slot.val).home ≠ .empty) :
    Begins (.next (adviseCall pick op destOk who slot notify vector s)) s slot.val { oldEntry s slot.val with hot := false } 3 ∧
    argAt (getSlot s slot.val) 0 2 * 64 + argAt (getSlot s slot.val) 2 1 ∉ (adviseCall pick op destOk who slot notify vector s).seg.hotOrder := by
  have run := runCall_normal (c := calledSeg s who slot.val .normal) (s := segJoined s who slot.val 0x23 notify vector.val .normal) rfl (if_neg live)
  refine ⟨advise_begins notify vector h (by decide) run (.noteHot _ _), ?_⟩
  rw [advise_eq notify vector h (by decide) run (.noteHot _ _)]
  exact fun listed => absurd (List.mem_filter.1 listed).2 (by simp [calledSeg, newCall])

end

/-- Settles O35: no earlier call of the context is ahead, so the call runs at once; each operation ends its slot or begins its withdrawal. -/
theorem segmentCallsAndAdvices : Obligations.SegmentCallsAndAdvices := by
  refine ⟨?_, ?_⟩
  · intro who slot notify vector s k x ctx i old new check next begun low inside owns alone
    refine ⟨fun admitted => segRead_ends notify vector ⟨admitted, low, inside, owns, alone⟩, fun admitted args => ?_, fun admitted => ?_⟩
    · have ready : SegReady s who k _ := ⟨admitted, low, inside, owns, alone⟩
      refine ⟨segWrite_refused notify vector ready args, segWrite_empty notify vector ready args, fun passes live => ?_⟩
      obtain ⟨busy, entry, holds, others⟩ := beginCall_leaves (who := who) (func := 0x20) (notify := notify) (vec := vector.val) .refl 3 old new
      exact ⟨_, segWrite_live notify vector ready args passes live, ⟨busy, entry, _, holds, rfl, rfl, rfl, rfl, rfl, rfl, rfl⟩, others⟩
    · have ready : SegReady s who k _ := ⟨admitted, low, inside, owns, alone⟩
      refine ⟨fun empty => ?_, fun live => ?_⟩
      · obtain ⟨t, eq, ended, entry, -⟩ := segClear_empty notify vector ready empty
        exact ⟨t, eq, ended, entry⟩
      · obtain ⟨busy, entry, holds, others⟩ := beginCall_leaves (who := who) (func := 0x21) (notify := notify) (vec := vector.val) .refl 3 old segEntryReset
        exact ⟨_, segClear_live notify vector ready live, ⟨busy, entry, _, holds, rfl, rfl, rfl, rfl, rfl, rfl, rfl⟩, others⟩
  · intro who slot notify vector s k x ctx i old d next begun wrong stripped destOk low inside owns alone admitted
    have ready : SegReady s who k (segRule 0x23 false [(0, 4), (8, 8)]) := ⟨admitted, low, inside, owns, fun c listed => (alone c listed).1⟩
    have others : ∀ c ∈ s.seg.calls, c.slot ≠ k := fun c listed => (alone c listed).2
    refine ⟨fun advice aligned => ?_, fun advice aligned => ?_, fun advice aligned => ?_, fun advice aligned => ?_, fun advice aligned => ?_,
      fun advice aligned => ?_⟩
    · have named : Advises s who k (fun a => decide (a = 0 ∨ 5 < a)) .willNeed destAligned (.willNeed d) :=
        ⟨ready, others, by rw [advice]; rfl, by rw [advice]; decide, aligned, rfl⟩
      refine ⟨fun home passes => ?_, fun home => advise_wrong notify vector named rfl (if_pos home)⟩
      obtain ⟨rule, check⟩ := willNeed_check notify vector home passes
      exact advise_copies notify vector named rfl check
    · have named : Advises s who k (· == 1) .cold destAligned (.cold d) := ⟨ready, others, by rw [advice]; rfl, by rw [advice]; decide, aligned, rfl⟩
      refine ⟨fun home near passes => ?_, fun home => advise_wrong notify vector named rfl (if_pos (.inl home))⟩
      obtain ⟨rule, check⟩ := cold_check notify vector home near passes
      exact advise_copies notify vector named rfl check
    · have named : Advises s who k (· == 2) .readMostly destAligned (.readMostly d) :=
        ⟨ready, others, by rw [advice]; rfl, by rw [advice]; decide, aligned, rfl⟩
      refine ⟨fun home passes => ?_, fun home => advise_wrong notify vector named rfl (if_pos home)⟩
      obtain ⟨rule, check⟩ := readMostly_check notify vector home passes
      exact advise_copies notify vector named rfl check
    · have named : Advises s who k (· == 3) (fun _ => .revokeRm) (· == 0) .revokeRm :=
        ⟨ready, others, by rw [advice]; rfl, by rw [advice]; decide, beq_iff_eq.2 aligned, rfl⟩
      refine ⟨fun mostly => ?_, fun mostly => advise_wrong notify vector named rfl (if_pos ?_)⟩
      · refine advise_begins notify vector named (by decide) (runCall_revoke (c := calledSeg s who k .revokeRm) (rule := 0) rfl (if_neg ?_)) .refl
        change ¬ (!(oldEntry s k).readMostly) = true
        rw [show (oldEntry s k).readMostly = true from mostly]
        decide
      · change (!(oldEntry s k).readMostly) = true
        rw [show (oldEntry s k).readMostly = false from mostly]
        decide
    · have named : Advises s who k (· == 4) (fun _ => .hot) (· == 0) .hot :=
        ⟨ready, others, by rw [advice]; rfl, by rw [advice]; decide, beq_iff_eq.2 aligned, rfl⟩
      refine ⟨fun live => ?_, fun empty => advise_wrong notify vector named rfl (if_pos empty)⟩
      obtain ⟨begins, first⟩ := adviseHot_begins notify vector named live
      exact ⟨begins, fun t eq => (Host.Outcome.next.inj eq) ▸ first⟩
    · have named : Advises s who k (· == 5) (fun _ => .normal) (· == 0) .normal :=
        ⟨ready, others, by rw [advice]; rfl, Nat.le_of_eq advice, beq_iff_eq.2 aligned, rfl⟩
      refine ⟨fun live => ?_, fun empty => advise_wrong notify vector named rfl (if_pos empty)⟩
      obtain ⟨begins, gone⟩ := adviseNormal_begins notify vector named live
      exact ⟨begins, fun t eq => (Host.Outcome.next.inj eq) ▸ gone⟩

end Sys2Proof.Machine
end
end

section
/-! SUPPORT. Uncached accesses of HBM (R290, R301-R308): what a write leaves in the DRAM, line by line, and that it holds nothing new. -/
section
namespace Sys2Proof.Machine

/-! ### Pieces of a range -/

/-- The pieces of a range between the multiples of a size. -/
def cutPieces (m a n : Nat) : List (Nat × Nat) :=
  if n = 0 then [] else
    (List.range ((a + n - 1) / m - a / m + 1)).map (fun k =>
      let lo := max a ((a / m + k) * m)
      let hi := min (a + n) ((a / m + k + 1) * m)
      (lo, hi - lo))

theorem linePieces_eq (a n : Nat) : linePieces a n = cutPieces 256 a n := rfl
theorem unitPieces_eq (a n : Nat) : unitPieces a n = cutPieces 2048 a n := rfl

/-- An address lies in a piece. -/
def InPiece (p : Nat × Nat) (x : Nat) : Prop := p.1 ≤ x ∧ x < p.1 + p.2

/-- A piece lies in the range and in one unit of the size. -/
theorem cutPieces_inside {m a n : Nat} {p : Nat × Nat} (pos : 0 < m) (listed : p ∈ cutPieces m a n) :
    a ≤ p.1 ∧ p.1 + p.2 ≤ a + n ∧ ∀ x, InPiece p x → x / m = p.1 / m := by
  unfold cutPieces at listed
  split at listed
  · exact absurd listed List.not_mem_nil
  obtain ⟨k, inside, rfl⟩ := List.mem_map.1 listed
  have last : k ≤ (a + n - 1) / m - a / m := Nat.le_of_lt_succ (List.mem_range.1 inside)
  have le : a / m ≤ (a + n - 1) / m := Nat.div_le_div_right (by omega)
  have below : (a / m + k) * m ≤ a + n - 1 := (Nat.mul_le_mul_right m (by omega)).trans (Nat.div_mul_le_self _ _)
  have above : a < (a / m + k + 1) * m := by
    have := Nat.lt_div_mul_add (a := a) pos
    have step : (a / m + k + 1) * m = a / m * m + k * m + m := by ring
    omega
  have step : (a / m + k + 1) * m = (a / m + k) * m + m := Nat.succ_mul _ _
  have unit : ∀ x, (a / m + k) * m ≤ x → x < (a / m + k + 1) * m → x / m = a / m + k := fun x low high =>
    Nat.le_antisymm (Nat.le_of_lt_succ ((Nat.div_lt_iff_lt_mul pos).2 high)) ((Nat.le_div_iff_mul_le pos).2 low)
  refine ⟨Nat.le_max_left _ _, by dsimp only; omega, fun x ⟨low, high⟩ => ?_⟩
  dsimp only at low high
  rw [unit x (by omega) (by omega), unit (max a ((a / m + k) * m)) (Nat.le_max_right _ _) (by omega)]

/-- The pieces cover the range. -/
theorem cutPieces_cover {m a n x : Nat} (pos : 0 < m) (low : a ≤ x) (high : x < a + n) : ∃ p ∈ cutPieces m a n, InPiece p x := by
  have left : a / m ≤ x / m := Nat.div_le_div_right low
  have right : x / m ≤ (a + n - 1) / m := Nat.div_le_div_right (by omega)
  have first_ : x / m * m ≤ x := Nat.div_mul_le_self x m
  have till := Nat.lt_div_mul_add (a := x) pos
  unfold cutPieces
  rw [if_neg (by omega)]
  refine ⟨_, List.mem_map.2 ⟨x / m - a / m, List.mem_range.2 (by omega), rfl⟩, ?_⟩
  have at_ : a / m + (x / m - a / m) = x / m := by omega
  have step : (x / m + 1) * m = x / m * m + m := Nat.succ_mul _ _
  rw [InPiece]
  dsimp only
  rw [at_]
  omega

/-! ### What the caches hold -/

/-- The same lines are held, and the same stacks are out of service. -/
structure SameHold (s t : State) : Prop where
  offline : ∀ k, stackOffline t k = stackOffline s k
  lines : ∀ die l, tabFind (getCache t die).lines l = none ↔ tabFind (getCache s die).lines l = none
  evb : ∀ die l, findEvb (getCache t die) l = none ↔ findEvb (getCache s die) l = none

/-- A line is in the DRAM alone. -/
def LineInDram (s : State) (l : Nat) : Prop :=
  stackOffline s (stackOf (l * 256)) = false ∧ tabFind (getCache s (dieOfStack (stackOf (l * 256)))).lines l = none ∧
    findEvb (getCache s (dieOfStack (stackOf (l * 256)))) l = none

section
variable {s t u : State}

theorem SameHold.refl (s : State) : SameHold s s := ⟨fun _ => rfl, fun _ _ => .rfl, fun _ _ => .rfl⟩

theorem SameHold.trans (h : SameHold s t) (h' : SameHold t u) : SameHold s u :=
  ⟨fun k => (h'.offline k).trans (h.offline k), fun d l => (h'.lines d l).trans (h.lines d l), fun d l => (h'.evb d l).trans (h.evb d l)⟩

theorem SameHold.of_parts (cache : t.cache = s.cache) (mc : t.mc = s.mc) : SameHold s t :=
  ⟨fun k => by rw [stackOffline, stackOffline, getMc, getMc, mc], fun d l => by rw [getCache, getCache, cache], fun d l => by rw [getCache, getCache, cache]⟩

theorem SameHold.of_same {ps : List Part} (h : SameExcept ps s t) (cache : ps.contains .cache = false) (mc : ps.contains .mc = false) : SameHold s t :=
  .of_parts (h.cache_eq cache) (h.mc_eq mc)

theorem SameHold.line (h : SameHold s t) (l : Nat) : LineInDram t l ↔ LineInDram s l := by
  rw [LineInDram, LineInDram, h.offline, h.lines, h.evb]

theorem SameHold.inDram (h : SameHold s t) {a n : Nat} (dram : InDram s a n) : InDram t a n := fun l low high => (h.line l).2 (dram l low high)

theorem stackOf_line (x : Nat) : stackOf (x / 256 * 256) = stackOf x := by
  have : (0x600000000 : Nat) = 256 * 0x6000000 := by decide
  rw [stackOf, stackOf, show stackSize = 256 * 0x6000000 from this, ← Nat.div_div_eq_div_mul, ← Nat.div_div_eq_div_mul,
    Nat.mul_div_cancel _ (by decide)]

theorem stackOf_unit {x y : Nat} (same : x / 2048 = y / 2048) : stackOf x = stackOf y := by
  have : (0x600000000 : Nat) = 2048 * 0xC00000 := by decide
  rw [stackOf, stackOf, show stackSize = 2048 * 0xC00000 from this, ← Nat.div_div_eq_div_mul, ← Nat.div_div_eq_div_mul, same]

/-- A cache that lists the same lines takes the place of a die's. -/
theorem SameHold.setCache {die : Nat} {c : DieCache} (lines : ∀ l, tabFind c.lines l = none ↔ tabFind (getCache s die).lines l = none)
    (evb : ∀ l, findEvb c l = none ↔ findEvb (getCache s die) l = none) : SameHold s (setCache s die c) := by
  refine ⟨fun _ => rfl, fun d l => ?_, fun d l => ?_⟩ <;> by_cases same : d = die
  · subst same
    rw [getCache_setCache]
    exact lines l
  · rw [getCache_setCache_ne _ _ same]
  · subst same
    rw [getCache_setCache]
    exact evb l
  · rw [getCache_setCache_ne _ _ same]

theorem SameHold.updMc {k : Nat} {f : McState → McState} (train : ∀ m, (f m).train = m.train) : SameHold s (updMc s k f) := by
  refine ⟨fun j => ?_, fun _ _ => .rfl, fun _ _ => .rfl⟩
  by_cases same : j = k
  · subst same
    rw [stackOffline, Machine.updMc, getMc_setMc, train]
    rfl
  · rw [stackOffline, Machine.updMc, getMc_setMc_ne _ _ same]
    rfl

/-- The lines that a merge finds held are those that it leaves held. -/
theorem mergeHeld_keeps {c c' : DieCache} {a : Nat} {d : PData} (merged : mergeHeld c a d = some c') :
    (∀ l, tabFind c'.lines l = none ↔ tabFind c.lines l = none) ∧ ∀ l, findEvb c' l = none ↔ findEvb c l = none := by
  unfold mergeHeld at merged
  dsimp only at merged
  split at merged
  next e held =>
    cases merged
    refine ⟨fun l => ?_, fun l => .rfl⟩
    by_cases same : l = a / 256
    · subst same
      simp [touchLine, held]
    · simp only [touchLine]
      rw [tabFind_tabPut_ne _ _ same]
  next =>
    split at merged
    · cases merged
      refine ⟨fun l => .rfl, fun l => ?_⟩
      simp only [findEvb, List.find?_eq_none, List.mem_map, forall_exists_index, and_imp, forall_apply_eq_imp_iff₂]
      refine forall₂_congr fun e _ => ?_
      split <;> rfl
    · cases merged

theorem mergeHeld_none {c : DieCache} {a : Nat} {d : PData} (lines : tabFind c.lines (a / 256) = none) (evb : findEvb c (a / 256) = none) :
    mergeHeld c a d = none := by
  unfold mergeHeld
  dsimp only
  rw [lines]
  simp [evb]

theorem cancelFill_keeps (c : DieCache) (l : Nat) : (cancelFill c l).lines = c.lines ∧ (cancelFill c l).evb = c.evb := by
  unfold cancelFill
  split <;> exact ⟨rfl, rfl⟩

end

/-! ### An uncached write (R290, R306) -/

/-- A write of data that begin at an address has reached the bytes of a set: the lines in the DRAM have them, and no other byte changes. -/
structure Writes (s t : State) (at_ : Nat) (d : PData) (P : Nat → Prop) : Prop where
  hold : SameHold s t
  outside : ∀ x, ¬P x → memByte t x = memByte s x
  inside : ∀ x, P x → LineInDram s (x / 256) → memByte t x = (d.getD (x - at_) (0, false)).1

section
variable {s t u : State} {at_ : Nat} {d : PData} {P Q : Nat → Prop}

theorem Writes.nothing (h : SameHold s t) (mem : t.mem = s.mem) (none_ : ∀ x, P x → ¬LineInDram s (x / 256)) : Writes s t at_ d P :=
  ⟨h, fun x _ => by rw [memByte, memByte, mem], fun x there dram => absurd dram (none_ x there)⟩

theorem Writes.both (h : Writes s t at_ d P) (h' : Writes t u at_ d Q) : Writes s u at_ d (fun x => P x ∨ Q x) := by
  refine ⟨h.hold.trans h'.hold, fun x none_ => ?_, fun x there dram => ?_⟩
  · rw [not_or] at none_
    exact (h'.outside x none_.2).trans (h.outside x none_.1)
  · by_cases later : Q x
    · exact h'.inside x later ((h.hold.line _).2 dram)
    · exact (h'.outside x later).trans (h.inside x (there.resolve_right later) dram)

theorem Writes.congr (h : Writes s t at_ d P) (same : ∀ x, Q x ↔ P x) : Writes s t at_ d Q :=
  ⟨h.hold, fun x none_ => h.outside x (fun there => none_ ((same x).2 there)), fun x there => h.inside x ((same x).1 there)⟩

/-- What follows a write without touching memory, the caches or the controllers. -/
theorem Writes.then (h : Writes s t at_ d P) (hold : SameHold t u) (mem : u.mem = t.mem) : Writes s u at_ d P :=
  ⟨h.hold.trans hold, fun x none_ => (show memByte u x = memByte t x by rw [memByte, memByte, mem]).trans (h.outside x none_),
    fun x there dram => (show memByte u x = memByte t x by rw [memByte, memByte, mem]).trans (h.inside x there dram)⟩

/-- A write of the slice that a piece takes of the data is a write of the data to the piece. -/
theorem Writes.slice {p : Nat × Nat} (h : Writes s t p.1 (sliceAt d (p.1 - at_) p.2) P) (low : at_ ≤ p.1) (only : ∀ x, P x → InPiece p x) :
    Writes s t at_ d P := by
  refine ⟨h.hold, h.outside, fun x there dram => (h.inside x there dram).trans ?_⟩
  obtain ⟨first_, till⟩ := only x there
  rw [sliceAt, List.getD_eq_getElem?_getD, List.getD_eq_getElem?_getD, List.getElem?_take, if_pos (by omega), List.getElem?_drop,
    show p.1 - at_ + (x - p.1) = x - at_ by omega]

/-- A list of pieces written one after another. -/
theorem Writes.each {f : Nat × Nat → State → State} : ∀ (ps : List (Nat × Nat)) (s : State),
    (∀ p ∈ ps, ∀ t, SameHold s t → Writes t (f p t) at_ d (InPiece p)) → Writes s (forEach ps f s) at_ d (fun x => ∃ p ∈ ps, InPiece p x)
  | [], s, _ => ⟨.refl s, fun _ _ => rfl, fun _ ⟨_, there, _⟩ => absurd there List.not_mem_nil⟩
  | p :: ps, s, each => by
    have first := each p (.head _) s (.refl s)
    have rest := Writes.each ps (f p s) (fun q listed t hold => each q (.tail _ listed) t (first.hold.trans hold))
    exact (first.both rest).congr fun x => by simp

end

section
variable {s : State} {d : PData}

theorem sliceAt_length {α : Type} {l : List α} {off n : Nat} (inside : off + n ≤ l.length) : (sliceAt l off n).length = n := by
  rw [sliceAt, List.length_take, List.length_drop]
  omega

theorem dramWrite_writes (s : State) (a : Nat) (d : PData) : Writes s (dramWrite s a d []) a d (InPiece (a, d.length)) := by
  refine ⟨.trans (.of_same (memWrite_reach s a d) rfl rfl) (.updMc (f := fun m => { m with wrBytes := inc64 m.wrBytes d.length }) fun _ => rfl), fun x none_ => ?_, fun x there _ => ?_⟩
  · refine (show memByte (dramWrite s a d []) x = memByte (memWrite s a d) x from rfl).trans (memByte_memWrite_of_outside ?_)
    rw [InPiece] at none_
    omega
  · obtain ⟨low, high⟩ := there
    have := memByte_memWrite_add (s := s) (a := a) (j := x - a) (d := d) (by omega)
    rwa [show a + (x - a) = x by omega] at this

/-- A write within one line, uncached. -/
theorem lineWrite_writes {a : Nat} (s : State) (one : ∀ x, InPiece (a, d.length) x → x / 256 = a / 256) :
    Writes s (lineWrite s none a d []).2 a d (InPiece (a, d.length)) := by
  obtain ⟨lines, evb⟩ := cancelFill_keeps (getCache s (dieOfStack (stackOf a))) (a / 256)
  unfold lineWrite
  dsimp only
  rw [show cacheCheck (dieOfStack (stackOf a)) (a / 256) [] s = s from rfl]
  split
  next c merged =>
    obtain ⟨keepLines, keepEvb⟩ := mergeHeld_keeps merged
    refine .nothing (.setCache (fun l => by rw [keepLines, lines]) (fun l => by rw [keepEvb, findEvb, evb, findEvb])) rfl fun x there dram => ?_
    rw [LineInDram, one x there, stackOf_line, findEvb, ← evb, ← findEvb, ← lines] at dram
    obtain ⟨-, noLine, noEvb⟩ := dram
    exact absurd (mergeHeld_none (d := d) noLine noEvb) (by rw [merged]; exact Option.some_ne_none c)
  next =>
    have hold : SameHold s (setCache s (dieOfStack (stackOf a)) (cancelFill (getCache s (dieOfStack (stackOf a))) (a / 256))) :=
      .setCache (fun l => by rw [lines]) (fun l => by rw [findEvb, evb, findEvb])
    have written := dramWrite_writes (setCache s (dieOfStack (stackOf a)) (cancelFill (getCache s (dieOfStack (stackOf a))) (a / 256))) a d
    exact ⟨hold.trans written.hold, written.outside, fun x there dram => written.inside x there ((hold.line _).2 dram)⟩

theorem linesWriteGo_eq (errs : List HbmError) (at_ : Nat) (d : PData) : ∀ (ps : List (Nat × Nat)) (s : State), (linesWriteGo none errs at_ d ps s).2 =
    forEach ps (fun p t => (lineWrite t none p.1 (sliceAt d (p.1 - at_) p.2) errs).2) s
  | [], _ => rfl
  | p :: ps, s => linesWriteGo_eq errs at_ d ps (lineWrite s none p.1 (sliceAt d (p.1 - at_) p.2) errs).2

theorem countAccess_keeps (die : Nat) (hit : Bool) (s : State) : SameHold s (countAccess die hit s) := by
  unfold countAccess
  dsimp only
  split <;> exact .setCache (fun _ => .rfl) (fun _ => .rfl)

/-- A write of one access, uncached, where the stack of its first byte is in service. -/
theorem accessWrite_served {a : Nat} (s : State) (on : ¬stackOffline s (stackOf a) = true) : Writes s (accessWrite s none a d []) a d (InPiece (a, d.length)) := by
  unfold accessWrite
  rw [if_neg on]
  dsimp only
  rw [linesWriteGo_eq]
  refine (Writes.congr (.each (linePieces a d.length) s fun p listed t _ => ?_) fun x => ?_).then (countAccess_keeps _ _ _) rfl
  · obtain ⟨low, high, line⟩ := cutPieces_inside (by decide) listed
    have len : (sliceAt d (p.1 - a) p.2).length = p.2 := sliceAt_length (by omega)
    have written := lineWrite_writes (d := sliceAt d (p.1 - a) p.2) (a := p.1) t (by rw [len]; exact line)
    rw [len] at written
    exact .slice written low fun _ there => there
  · refine ⟨fun ⟨low, high⟩ => cutPieces_cover (by decide) low high, fun ⟨p, listed, first_, till⟩ => ?_⟩
    obtain ⟨low, high, -⟩ := cutPieces_inside (m := 256) (by decide) listed
    exact ⟨low.trans first_, lt_of_lt_of_le till high⟩

/-- A write of one access, uncached and within one unit. -/
theorem accessWrite_writes {a : Nat} (s : State) (one : ∀ x, InPiece (a, d.length) x → x / 2048 = a / 2048) :
    Writes s (accessWrite s none a d []) a d (InPiece (a, d.length)) := by
  by_cases gone : stackOffline s (stackOf a) = true
  · have same : SameExcept [.log] s (offlineAccess a s) := offlineAccess_reach a s
    rw [accessWrite, if_pos gone]
    refine .nothing (.of_same same rfl rfl) (same.mem_eq rfl) fun x there dram => ?_
    have alive := dram.1
    rw [stackOf_line, stackOf_unit (one x there), gone] at alive
    exact absurd alive (by decide)
  · exact accessWrite_served s gone

/-- A write of any length, uncached. -/
theorem hbmWrite_writes (s : State) (a : Nat) (d : PData) : Writes s (hbmWrite s none a d []) a d (InPiece (a, d.length)) := by
  refine Writes.congr (.each (unitPieces a d.length) s fun p listed t _ => ?_) fun x => ?_
  · obtain ⟨low, high, unit⟩ := cutPieces_inside (m := 2048) (by decide) listed
    have len : (sliceAt d (p.1 - a) p.2).length = p.2 := sliceAt_length (by omega)
    have written := accessWrite_writes (d := sliceAt d (p.1 - a) p.2) (a := p.1) t (by rw [len]; exact unit)
    rw [len] at written
    exact .slice written low fun _ there => there
  · refine ⟨fun ⟨low, high⟩ => cutPieces_cover (by decide) low high, fun ⟨p, listed, first_, till⟩ => ?_⟩
    obtain ⟨low, high, -⟩ := cutPieces_inside (m := 2048) (by decide) listed
    exact ⟨low.trans first_, lt_of_lt_of_le till high⟩

theorem InDram.line {a n x : Nat} (dram : InDram s a n) (low : a ≤ x) (high : x < a + n) : LineInDram s (x / 256) :=
  dram (x / 256) (Nat.div_le_div_right low) (Nat.div_le_div_right (by omega))

/-- The bytes that a write to the DRAM leaves. -/
theorem Writes.bytes {t : State} {a : Nat} {b : List Byte} (h : Writes s t a (clean b) (InPiece (a, (clean b).length))) (dram : InDram s a b.length) :
    memBytes t a b.length = b := by
  have len : (clean b).length = b.length := List.length_map _
  refine memBytes_eq rfl fun j inside => ?_
  rw [h.inside (a + j) ⟨Nat.le_add_right a j, by dsimp only; omega⟩ (dram.line (Nat.le_add_right a j) (by omega)), Nat.add_sub_cancel_left]
  simp [clean, inside]

theorem InDram.weaken {a n m : Nat} (dram : InDram s a n) (le : m ≤ n) (pos : 0 < m) : InDram s a m :=
  fun l low high => dram l low (high.trans (Nat.div_le_div_right (by omega)))

/-- A write of the manager's tables, in HBM. -/
theorem tableWrite_writes (s : State) (a : Nat) (b : List Byte) : Writes s (tableWrite a b s) a (clean b) (InPiece (a, (clean b).length)) := by
  have capture : SameExcept [.courier] _ (tableWrite a b s) := captureWrite_reach a (clean b) (hbmWrite s none a (clean b) [])
  exact (hbmWrite_writes s a (clean b)).then (.of_same capture rfl rfl) (capture.mem_eq rfl)

end

end Sys2Proof.Machine
end
end

section
/-! SUPPORT. Ring control: joins and the holds of the switches (R382, R383, R399-R409). -/
section
namespace Sys2Proof.Machine

/-! ### A worker that joins (R382, R403, R404) -/

section
variable {β : Type} {f : CourierState → β} {s : State}

theorem tableWrite_courier (blind : SendBlind f) (a : Nat) (b : List Byte) (s : State) : f (tableWrite a b s).courier = f s.courier :=
  (captureWrite_courier blind a (clean b) (hbmWrite s none a (clean b) [])).trans (congrArg f ((hbmWrite_reach s none a (clean b) []).courier_eq rfl))

theorem recordPlace_courier (blind : SendBlind f) (serial : Dword) (pos : Nat) (s : State) : f (recordPlace serial pos s).courier = f s.courier := by
  unfold recordPlace
  split
  · rfl
  · dsimp only
    refine (tableWrite_courier blind _ _ _).trans ?_
    split
    · exact (tableWrite_courier blind _ _ _).trans (tableWrite_courier blind _ _ _)
    · exact tableWrite_courier blind _ _ _

theorem recordPlace_bytes {serial : Dword} {pos : Nat} (tables : s.blend.cur.role.tableSize ≠ 0) (dram : InDram s (headerEntry s pos) 16) :
    memBytes (recordPlace serial pos s) (headerEntry s pos) 9 = leBytes 8 serial.toNat ++ [1] := by
  have len : (leBytes 8 serial.toNat ++ [1]).length = 9 := by simp
  have last (t : State) (hold : SameHold s t) :
      memBytes (tableWrite (headerEntry s pos) (leBytes 8 serial.toNat ++ [1]) t) (headerEntry s pos) 9 = leBytes 8 serial.toNat ++ [1] := by
    have bytes := (tableWrite_writes t (headerEntry s pos) (leBytes 8 serial.toNat ++ [1])).bytes
    rw [len] at bytes
    exact bytes ((hold.inDram dram).weaken (by decide) (by decide))
  unfold recordPlace
  rw [if_neg tables]
  dsimp only
  split
  · exact last _ ((tableWrite_writes _ _ _).hold.trans (tableWrite_writes _ _ _).hold)
  · exact last _ (tableWrite_writes _ _ _).hold

/-- The manager's records with a worker taken in at a position. -/
def takeIn (j : JoinInfo) (pos : Nat) (s : State) : State :=
  let c := s.courier
  let r : JoinRec := { serial := j.serial, poolBase := j.poolBase, poolSlots := j.poolSlots.toNat, capacity := j.capacity.toNat,
                       queueCount := j.queueCount.toNat, firstQueue := j.firstQueue.toNat, standby := j.standby, share := j.share }
  let places := setNth (c.places ++ List.replicate (j.place.val + 1 - c.places.length) none) j.place.val (some pos)
  let serials := if c.serials.any (fun e => e.1 == j.serial) then c.serials else c.serials ++ [(j.serial, pos)]
  let c := if setHas c.present pos then c else restartFlows pos c
  { s with courier := { c with serials := serials, joins := tabPut c.joins pos r, places := places, present := setIns c.present pos } }

/-- What the manager tells of a worker that it has taken in: its place to itself, and the map to every module. -/
def tellJoin (ring pos : Nat) (s : State) : State :=
  let t := sendControl 2 pos (leBytes 1 ring ++ leBytes 1 pos) s
  forEach t.courier.present (fun d u => sendControl 5 d (mapBytes u.courier) u) t

theorem joined_eq {j : JoinInfo} {pos : Nat}
    (given : ((s.courier.serials.find? (fun e => e.1 == j.serial)).map (·.2)).or (freePosition s.courier) = some pos) :
    ∃ ring, joined' j s = tellJoin ring pos (recordPlace j.serial pos (takeIn j pos s)) := by
  unfold joined'
  dsimp only
  rw [given]
  exact ⟨_, rfl⟩

theorem tellJoin_courier (blind : SendBlind f) (ring pos : Nat) (s : State) : f (tellJoin ring pos s).courier = f s.courier :=
  (forEach_keeps (f := fun t : State => f t.courier) (fun d t => sendControl_courier blind 5 d (mapBytes t.courier) t) _ _).trans
    (sendControl_courier blind _ _ _ s)

theorem tellJoin_reach (ring pos : Nat) (s : State) : SameExcept [.courier] s (tellJoin ring pos s) :=
  .after (.forEach (fun d t => sendControl_reach 5 d (mapBytes t.courier) t) _ (.refl _ _)) (sendControl_reach _ _ _ s)

theorem takeIn_join (j : JoinInfo) (pos : Nat) (s : State) : ∃ r, tabFind (takeIn j pos s).courier.joins pos = some r ∧ r.serial = j.serial ∧
    r.standby = j.standby ∧ r.share = j.share := ⟨_, tabFind_tabPut_same _ _ _, rfl, rfl, rfl⟩

theorem takeIn_place (j : JoinInfo) (pos : Nat) (s : State) : (takeIn j pos s).courier.places[j.place.val]? = some (some pos) := by
  have room : j.place.val < (s.courier.places ++ List.replicate (j.place.val + 1 - s.courier.places.length) (none : Option Nat)).length := by
    rw [List.length_append, List.length_replicate]
    omega
  exact getElem?_setNth _ _ _ _ (List.getElem?_eq_getElem room)

theorem takeIn_serial {j : JoinInfo} {pos : Nat}
    (given : ((s.courier.serials.find? (fun e => e.1 == j.serial)).map (·.2)).or (freePosition s.courier) = some pos) :
    ((takeIn j pos s).courier.serials.find? (fun e => e.1 == j.serial)).map (·.2) = some pos := by
  have serials : (takeIn j pos s).courier.serials =
      if s.courier.serials.any (fun e => e.1 == j.serial) then s.courier.serials else s.courier.serials ++ [(j.serial, pos)] := rfl
  rw [serials]
  cases known : s.courier.serials.find? (fun e => e.1 == j.serial) with
  | some e =>
    rw [known] at given
    rw [if_pos (List.any_eq_true.2 ⟨e, List.mem_of_find?_eq_some known, List.find?_some known⟩), known]
    exact given
  | none =>
    have none_ : ¬ s.courier.serials.any (fun e => e.1 == j.serial) = true := by
      rw [List.any_eq_true]
      exact fun ⟨e, there, same⟩ => (List.find?_eq_none.1 known) e there same
    rw [if_neg none_, List.find?_append, known]
    simp

/-- A worker that asks to join while the manager serves. -/
theorem joined_leaves {j : JoinInfo} {pos : Nat}
    (given : ((s.courier.serials.find? (fun e => e.1 == j.serial)).map (·.2)).or (freePosition s.courier) = some pos) :
    ∃ t r, joined' j s = t ∧ tabFind t.courier.joins pos = some r ∧ r.serial = j.serial ∧ r.standby = j.standby ∧ r.share = j.share ∧
      pos ∈ t.courier.present ∧ t.courier.places[j.place.val]? = some (some pos) ∧
      (t.courier.serials.find? (fun e => e.1 == j.serial)).map (·.2) = some pos ∧
      SameExcept [.log, .plan, .pm, .mem, .poison, .cache, .mc, .courier] s t ∧ (s.blend.cur.role.tableSize = 0 → SameExcept [.courier] s t) ∧
      (s.blend.cur.role.tableSize ≠ 0 → InDram s (headerEntry s pos) 16 → memBytes t (headerEntry s pos) 9 = leBytes 8 j.serial.toNat ++ [1]) := by
  obtain ⟨ring, eq⟩ := joined_eq given
  have keeps {γ : Type} {g : CourierState → γ} (blind : SendBlind g) :
      g (tellJoin ring pos (recordPlace j.serial pos (takeIn j pos s))).courier = g (takeIn j pos s).courier :=
    (tellJoin_courier blind _ _ _).trans (recordPlace_courier blind _ _ _)
  obtain ⟨r, listed, serial, standby, share⟩ := takeIn_join j pos s
  have reach := joined'_reach j s
  rw [eq] at reach
  refine ⟨_, r, eq, ?_, serial, standby, share, ?_, ?_, ?_, reach, fun none_ => ?_, fun tables dram => ?_⟩
  · rw [keeps (g := CourierState.joins) fun _ _ _ _ _ _ => rfl]
    exact listed
  · rw [keeps (g := CourierState.present) fun _ _ _ _ _ _ => rfl]
    exact mem_setIns.2 (.inl rfl)
  · rw [keeps (g := CourierState.places) fun _ _ _ _ _ _ => rfl]
    exact takeIn_place j pos s
  · rw [keeps (g := CourierState.serials) fun _ _ _ _ _ _ => rfl]
    exact takeIn_serial given
  · have alone : recordPlace j.serial pos (takeIn j pos s) = takeIn j pos s := if_pos none_
    rw [alone]
    exact (sameExcept_courier s _).trans (tellJoin_reach ring pos _)
  · have bytes := recordPlace_bytes (s := takeIn j pos s) (serial := j.serial) (pos := pos) tables ((SameHold.of_parts rfl rfl).inDram dram)
    refine (memBytes_eq (memBytes_length _ _ _) fun i inside => ?_).trans bytes
    rw [(tellJoin_reach ring pos _).memByte_eq rfl, memBytes_getD inside]
    rfl

end

/-! ### The holds of the bypass switches (R397, R398) -/

section
variable {β : Type} {f : CourierState → β}

theorem applyHold_courier (blind : SendBlind f) (switches : ∀ c w, f { c with switches := w } = f c) (k : Nat) (s : State) :
    f (applyHold k s).courier = f s.courier := by
  unfold applyHold
  split
  · rfl
  dsimp only
  split
  · exact (switches _ _).trans (forEach_keeps (f := fun t : State => f t.courier) (fun d t => sendControl_courier blind 7 d (leBytes 1 k) t) _ s)
  · exact switches _ _

theorem releaseHold_courier (switches : ∀ c w, f { c with switches := w } = f c) (s : State) : f (releaseHold s).courier = f s.courier := by
  unfold releaseHold
  split
  · exact switches _ _
  · rfl

/-- The hold of the U switch, where it is due. -/
def uplinkHold (s : State) : State :=
  if (s.blend.cur.role.manager && (s.blend.cur.role.uplinkEast || s.blend.cur.role.uplinkWest)) = true then applyHold 2 s else releaseHold s

theorem uplinkHold_courier (blind : SendBlind f) (switches : ∀ c w, f { c with switches := w } = f c) (s : State) :
    f (uplinkHold s).courier = f s.courier := by
  unfold uplinkHold
  split
  · exact applyHold_courier blind switches 2 s
  · exact releaseHold_courier switches s

theorem uplinkHold_position (s : State) : (uplinkHold s).courier.position = s.courier.position :=
  uplinkHold_courier (f := CourierState.position) (fun _ _ _ _ _ _ => rfl) (fun _ _ => rfl) s

theorem holdDue_cases (s : State) : (s.mode ≠ .serving ∧ holdDue s = s) ∨ (s.courier.position = none ∧ holdDue s = uplinkHold s) ∨
    holdDue s = applyHold 0 (uplinkHold s) ∨ holdDue s = applyHold 1 (applyHold 0 (uplinkHold s)) := by
  unfold holdDue
  split
  next other => exact .inl ⟨other, rfl⟩
  dsimp only
  rw [show (if (s.blend.cur.role.manager && (s.blend.cur.role.uplinkEast || s.blend.cur.role.uplinkWest)) = true then applyHold 2 s
    else releaseHold s) = uplinkHold s from rfl]
  split
  next none_ => exact .inr (.inl ⟨by simpa [uplinkHold_position] using none_, rfl⟩)
  split
  · exact .inr (.inr (.inr rfl))
  · exact .inr (.inr (.inl rfl))

theorem holdDue_courier (blind : SendBlind f) (switches : ∀ c w, f { c with switches := w } = f c) (s : State) :
    f (holdDue s).courier = f s.courier := by
  have up := uplinkHold_courier blind switches s
  have ringA := (applyHold_courier blind switches 0 (uplinkHold s)).trans up
  obtain ⟨-, eq⟩ | ⟨-, eq⟩ | eq | eq := holdDue_cases s <;> rw [eq]
  · exact up
  · exact ringA
  · exact (applyHold_courier blind switches 1 _).trans ringA

theorem applyHold_holds (k : Nat) (s : State) : (getSw (applyHold k s) k).hold = true := by
  unfold applyHold
  split
  · assumption
  · dsimp only
    rw [getSw_setSw]

theorem applyHold_getSw_ne {k j : Nat} (s : State) (ne : j ≠ k) : getSw (applyHold k s) j = getSw s j := by
  have told (l : List Nat) : getSw (forEach l (fun d t => sendControl 7 d (leBytes 1 k) t) s) j = getSw s j :=
    getSw_of_ring (forEach_keeps (f := fun t : State => ringOf t.courier) (fun d t => sendControl_courier ringOf_sendBlind 7 d (leBytes 1 k) t) l s) j
  unfold applyHold
  split
  · rfl
  dsimp only
  rw [getSw_setSw_ne _ _ ne]
  split
  · exact told _
  · rfl

/-- Ring A is held once a module serves and has its position. -/
theorem holdDue_holds {s : State} (serves : s.mode = .serving) (placed : s.courier.position ≠ none) : (getSw (holdDue s) 0).hold = true := by
  obtain ⟨other, -⟩ | ⟨none_, -⟩ | eq | eq := holdDue_cases s
  · exact absurd serves other
  · exact absurd none_ placed
  · rw [eq]
    exact applyHold_holds 0 _
  · rw [eq, applyHold_getSw_ne _ (by decide)]
    exact applyHold_holds 0 _

end

end Sys2Proof.Machine
end
end

section
/-! SUPPORT. Ring control: assignments, heartbeats, the time, the map and the manager (R382, R383, R399-R409), and the statement O48. -/
section
namespace Sys2Proof.Machine

/-! ### What an answer and a token leave -/

section
variable {β : Type} {f : CourierState → β}

theorem ackMsg_courier (blind : SendBlind f) (h : CrHead) (s : State) : f (ackMsg h s).courier = f s.courier := emit_courier blind _ _ s

theorem passToken_courier (blind : SendBlind f) (h : CrHead) (fn : Nat) (payload : List Byte) (s : State) :
    f (passToken h fn payload s).courier = f s.courier := by
  unfold passToken
  dsimp only
  split
  · rfl
  split
  · exact blind _ _ _ _ _ _
  split
  · exact blind _ _ _ _ _ _
  · rfl

theorem sendTimeUp_courier (blind : SendBlind f) (ring : Nat) (s : State) : f (sendTimeUp ring s).courier = f s.courier := by
  unfold sendTimeUp
  split
  · exact blind _ _ _ _ _ _
  · rfl

/-- A message leaves by a port that carries messages. -/
def leaveOn (p : Nat) (m : CrMsg) (s : State) : State := if portCarries s p then emitOn p m s else s

theorem leaveOn_courier (blind : SendBlind f) (p : Nat) (m : CrMsg) (s : State) : f (leaveOn p m s).courier = f s.courier := by
  unfold leaveOn
  split
  · exact blind _ _ _ _ _ _
  · rfl

theorem sendToken_eq (fn : Nat) (payload : List Byte) (s : State) : ∃ m, sendToken fn payload s = leaveOn 3 m (leaveOn 0 m s) := ⟨_, rfl⟩

theorem sendToken_courier (blind : SendBlind f) (fn : Nat) (payload : List Byte) (s : State) : f (sendToken fn payload s).courier = f s.courier := by
  obtain ⟨m, eq⟩ := sendToken_eq fn payload s
  rw [eq, leaveOn_courier blind, leaveOn_courier blind]

end

section
variable {s : State}

/-! ### Assignments and heartbeats (R382, R402) -/

/-- What an ASSIGN writes. -/
def assigned (h : CrHead) (epoch ring pos : Nat) (s : State) : State :=
  { s with courier := { openFlow h s.courier with
                        epoch := epoch
                        ringNo := ring
                        position := some pos
                        managerPos := h.src.val
                        lastBeat := s.devTime
                        managerLost := false } }

theorem assign_old {h : CrHead} {epoch : Nat} (ring pos : Nat) (worker : s.blend.cur.role.manager = false) (serves : s.mode = .serving)
    (old : epoch < s.courier.epoch) : assign h epoch ring pos s = nackMsg h 3 s := by
  unfold assign
  rw [if_neg (by simp [worker, serves]), if_pos old]

theorem assign_eq {h : CrHead} {epoch : Nat} (ring pos : Nat) (worker : s.blend.cur.role.manager = false) (serves : s.mode = .serving)
    (new : s.courier.epoch ≤ epoch) : assign h epoch ring pos s = ackMsg h (holdDue (assigned h epoch ring pos s)) := by
  unfold assign
  rw [if_neg (by simp [worker, serves]), if_neg (Nat.not_lt.2 new)]
  rfl

theorem assign_courier {β : Type} {f : CourierState → β} (blind : SendBlind f) (switches : ∀ c w, f { c with switches := w } = f c) {h : CrHead}
    {epoch : Nat} (ring pos : Nat) (worker : s.blend.cur.role.manager = false) (serves : s.mode = .serving) (new : s.courier.epoch ≤ epoch) :
    f (assign h epoch ring pos s).courier = f (assigned h epoch ring pos s).courier := by
  rw [assign_eq ring pos worker serves new, ackMsg_courier blind, holdDue_courier blind switches]

/-- The manager of an epoch is there. -/
def hasBeaten (epoch : Nat) (s : State) : State :=
  { s with courier := { s.courier with epoch := epoch, lastBeat := s.devTime, managerLost := false } }

theorem heartbeat_eq {h : CrHead} {epoch : Nat} (there : arrives s h = true) (new : s.courier.epoch ≤ epoch) :
    heartbeat h epoch s = passToken h 3 [] (hasBeaten epoch s) := by
  unfold heartbeat
  exact if_neg (by simp [there, Nat.not_lt.2 new])

theorem passToken_manager {h : CrHead} (fn : Nat) (payload : List Byte) (manages : s.blend.cur.role.manager = true) : passToken h fn payload s = s :=
  if_pos manages

/-- A token that comes in by a port goes on round its ring. -/
theorem passToken_on {h : CrHead} {i o fn : Nat} (payload : List Byte) (ring : (i, o) ∈ [(1, 0), (2, 3)]) (worker : s.blend.cur.role.manager = false)
    (port : h.port.val = i) (carries : portCarries s o = true) (low : fn < 256) : ∃ m, (passToken h fn payload s).courier.sent = s.courier.sent ++ [(o, m)] ∧
      m.type = crControl ∧ m.tag % 256 = fn := by
  have tag : (fn + s.courier.epoch * 2 ^ 32) % 256 = fn := by omega
  have own : ¬ s.blend.cur.role.manager = true := by simp [worker]
  obtain first | second := List.mem_cons.1 ring
  · obtain ⟨rfl, rfl⟩ := Prod.mk.inj first
    refine ⟨_, congrArg (fun t : State => t.courier.sent) ((if_neg own).trans (if_pos ⟨port, carries⟩)), rfl, tag⟩
  · obtain ⟨rfl, rfl⟩ := Prod.mk.inj (List.mem_singleton.1 second)
    refine ⟨_, congrArg (fun t : State => t.courier.sent) ((if_neg own).trans ((if_neg (by omega)).trans (if_pos ⟨port, carries⟩))), rfl, tag⟩

theorem portCarries_of_ports {t : State} (ports : t.courier.ports = s.courier.ports) (p : Nat) : portCarries t p = portCarries s p := by
  rw [portCarries, portCarries, getCr_of_ports ports]

theorem leaveOn_sent (p : Nat) (m : CrMsg) (s : State) : (leaveOn p m s).courier.sent.length = s.courier.sent.length + b2n (portCarries s p) := by
  unfold leaveOn
  cases h : portCarries s p <;> simp [emitOn, b2n]

/-- A token of the manager leaves on each ring that carries it. -/
theorem sendToken_sent (fn : Nat) (payload : List Byte) (s : State) :
    (sendToken fn payload s).courier.sent.length = s.courier.sent.length + b2n (portCarries s 0) + b2n (portCarries s 3) := by
  obtain ⟨m, eq⟩ := sendToken_eq fn payload s
  rw [eq, leaveOn_sent, leaveOn_sent, portCarries_of_ports (leaveOn_courier (f := CourierState.ports) (fun _ _ _ _ _ _ => rfl) 0 m s)]

theorem sendTimeUp_sent (ring : Nat) (s : State) :
    (sendTimeUp ring s).courier.sent.length = s.courier.sent.length + b2n (portCarries s 4) := by
  unfold sendTimeUp
  cases a : portCarries s 4 <;> simp [emitOn, b2n]

/-- The time of the last heartbeat is set. -/
def beating (s : State) : State := { s with courier := { s.courier with beatSent := s.devTime } }

theorem sendBeat_eq (manages : s.blend.cur.role.manager = true) (runs : s.pm.carrierRuns = true) (serves : s.mode = .serving)
    (due : s.courier.beatSent + 100000 ≤ s.devTime) :
    sendBeat s = sendTimeUp s.courier.ringNo (sendToken 4 (leBytes 8 s.devTime) (sendToken 3 [] (beating s))) :=
  if_neg (by simp [manages, runs, serves, Nat.not_lt.2 due])

/-- A manager's heartbeat and its time leave on each ring, and its time on the manager ring. -/
theorem sendBeat_leaves (manages : s.blend.cur.role.manager = true) (runs : s.pm.carrierRuns = true) (serves : s.mode = .serving)
    (due : s.courier.beatSent + 100000 ≤ s.devTime) : (sendBeat s).courier.beatSent = s.devTime ∧ (sendBeat s).courier.sent.length =
      s.courier.sent.length + 2 * b2n (portCarries s 0) + 2 * b2n (portCarries s 3) + b2n (portCarries s 4) := by
  rw [sendBeat_eq manages runs serves due]
  have ports1 : ∀ p, portCarries (sendToken 3 [] (beating s)) p = portCarries s p := fun p =>
    portCarries_of_ports (s := s) (sendToken_courier (f := CourierState.ports) (fun _ _ _ _ _ _ => rfl) 3 [] (beating s)) p
  have ports2 : ∀ p, portCarries (sendToken 4 (leBytes 8 s.devTime) (sendToken 3 [] (beating s))) p = portCarries s p := fun p =>
    (portCarries_of_ports (sendToken_courier (f := CourierState.ports) (fun _ _ _ _ _ _ => rfl) 4 _ _) p).trans (ports1 p)
  have ports0 : ∀ p, portCarries (beating s) p = portCarries s p := fun _ => rfl
  have sent : (beating s).courier.sent.length = s.courier.sent.length := rfl
  refine ⟨?_, ?_⟩
  · rw [sendTimeUp_courier (f := CourierState.beatSent) fun _ _ _ _ _ _ => rfl, sendToken_courier (f := CourierState.beatSent) fun _ _ _ _ _ _ => rfl,
      sendToken_courier (f := CourierState.beatSent) fun _ _ _ _ _ _ => rfl]
    rfl
  · rw [sendTimeUp_sent, sendToken_sent, sendToken_sent, ports2, ports1, ports1, ports0, ports0, sent]
    omega

/-! ### The time (R407) -/

/-- The state of a module that steps forward at its join, and of one that slews. -/
def stepped (diff : Int) (s : State) : State :=
  { s with devTime := s.devTime + diff.toNat, courier := { s.courier with timeOffset := 0, slew := 0 } }

def slewing (diff : Int) (s : State) : State := { s with courier := { s.courier with timeOffset := -diff, slew := diff } }

/-- A module's time goes on: a manager's over its uplink, a worker's round the ring. -/
def passTime (manages : Bool) (h : CrHead) (s : State) : State :=
  if manages then sendTimeUp h.src.val s else passToken h 4 (leBytes 8 s.devTime) s

theorem passTime_courier {β : Type} {f : CourierState → β} (blind : SendBlind f) (manages : Bool) (h : CrHead) (s : State) :
    f (passTime manages h s).courier = f s.courier := by
  unfold passTime
  split
  · exact sendTimeUp_courier blind _ s
  · exact passToken_courier blind h 4 _ s

theorem passTime_reach (manages : Bool) (h : CrHead) (s : State) : SameExcept [.courier] s (passTime manages h s) := by
  unfold passTime
  split
  · exact sendTimeUp_reach _ s
  · exact passToken_reach h 4 _ s

/-- A TIME message that a module follows. -/
def follows (h : CrHead) (epoch : Nat) (s : State) : Prop :=
  (s.blend.cur.role.manager = false ∧ s.courier.epoch ≤ epoch) ∨ (s.blend.cur.role.manager = true ∧ 4 ≤ h.port.val ∧ h.src.val < s.courier.ringNo)

theorem steerTime_not {h : CrHead} (epoch time : Nat) (manages : s.blend.cur.role.manager = true) (other : h.port.val < 4 ∨ s.courier.ringNo ≤ h.src.val) :
    steerTime h epoch time s = s := by
  refine if_pos (.inr (.inl ?_))
  rw [manages]
  obtain near | low := other
  · simp [Nat.not_le.2 near]
  · simp [Nat.not_lt.2 low]

theorem steerTime_guard {h : CrHead} {epoch : Nat} (comes : follows h epoch s) (awake : s.mode ≠ .off) :
    ¬((!s.blend.cur.role.manager && decide (epoch < s.courier.epoch)) = true ∨
      (s.blend.cur.role.manager && !(decide (4 ≤ h.port.val) && decide (h.src.val < s.courier.ringNo))) = true ∨ s.mode = .off) := by
  obtain ⟨worker, new⟩ | ⟨manages, port, low⟩ := comes
  · simp [worker, Nat.not_lt.2 new, awake]
  · simp [manages, port, low, awake]

/-- What a TIME message says that a module's time is behind by. -/
def behind (h : CrHead) (time : Nat) (s : State) : Int := ((time + (getCr s h.port.val).hopDelay : Nat) : Int) - (s.devTime : Int)

/-- A module's time follows. -/
def timed (diff : Int) (s : State) : State :=
  if s.courier.position.isNone ∧ 1000 < diff then logEvent .timeStepped islRing (leBytes 8 diff.toNat) (stepped diff s) else slewing diff s

theorem steerTime_eq {h : CrHead} {epoch : Nat} (time : Nat) (comes : follows h epoch s) (awake : s.mode ≠ .off) :
    steerTime h epoch time s = passTime s.blend.cur.role.manager h (timed (behind h time s) s) := if_neg (steerTime_guard comes awake)

theorem steerTime_steps {h : CrHead} {epoch time : Nat} (comes : follows h epoch s) (awake : s.mode ≠ .off) (lost : s.courier.position = none)
    (late : 1000 < behind h time s) : steerTime h epoch time s = passTime s.blend.cur.role.manager h
      (logEvent .timeStepped islRing (leBytes 8 (behind h time s).toNat) (stepped (behind h time s) s)) := by
  rw [steerTime_eq time comes awake, timed, if_pos ⟨by simp [lost], late⟩]

theorem steerTime_slews {h : CrHead} {epoch time : Nat} (comes : follows h epoch s) (awake : s.mode ≠ .off)
    (near : s.courier.position ≠ none ∨ behind h time s ≤ 1000) :
    steerTime h epoch time s = passTime s.blend.cur.role.manager h (slewing (behind h time s) s) := by
  rw [steerTime_eq time comes awake, timed, if_neg (by
    rintro ⟨lost, late⟩
    exact near.elim (fun placed => placed (by simpa using lost)) (fun low => absurd late (Int.not_lt.2 low)))]

/-! ### Control messages in their flow (R405) -/

theorem control_next {h : CrHead} {epoch : Nat} (f : State → State) (there : arrives s h = true) (next : flowGap s h (inPoint h) = 1)
    (new : s.courier.epoch ≤ epoch) :
    ∃ u, control h epoch f s = f (ackMsg h u) ∧ u = { s with courier := { s.courier with
                                                                         inn := tabSet 0 s.courier.inn (inPoint h) h.seq.toNat
                                                                         epoch := epoch } } := by
  refine ⟨_, ?_, rfl⟩
  rw [control, inFlow_next _ _ there next]
  exact if_neg (Nat.not_lt.2 new)

theorem control_old {h : CrHead} {epoch : Nat} (f : State → State) (there : arrives s h = true) (next : flowGap s h (inPoint h) = 1)
    (old : epoch < s.courier.epoch) :
    control h epoch f s = turnAway (inPoint h) h 3 { s with courier := { s.courier with inn := tabSet 0 s.courier.inn (inPoint h) h.seq.toNat } } := by
  rw [control, inFlow_next _ _ there next]
  exact if_pos old

/-! ### A new manager (R409) -/

/-- The manager changes, and the receipts for the old one leave the retry store. -/
def announced (h : CrHead) (s : State) : State :=
  { s with courier := { s.courier with
                        managerPos := h.src.val
                        managerLost := false
                        lastBeat := s.devTime
                        store := s.courier.store.filter (fun e => !(e.msg.type == crStepReceipt && e.msg.dst == s.courier.managerPos)) } }

/-- The receipts held for the old manager. -/
def heldReceipts (s : State) : List CrStored := s.courier.store.filter (fun e => e.msg.type == crStepReceipt && e.msg.dst == s.courier.managerPos)

/-- A receipt is sent to the new manager. -/
def sendAnew (dst : Nat) (e : CrStored) (t : State) : State :=
  sendPoint crStepReceipt e.msg.cls dst (e.msg.tag % 2 ^ 32 + t.courier.epoch * 2 ^ 32) e.msg.payload none t

theorem announce_eq (h : CrHead) (s : State) : announce h s = forEach (heldReceipts s) (sendAnew h.src.val) (sendJoin (announced h s)) := rfl

theorem sendAll_store (dst : Nat) : ∀ (l : List CrStored) (s : State), ∃ es, (forEach l (sendAnew dst) s).courier.store = s.courier.store ++ es ∧
    es.length = l.length ∧ ∀ e ∈ es, e.msg.dst = dst
  | [], s => ⟨[], (List.append_nil _).symm, rfl, fun _ there => absurd there List.not_mem_nil⟩
  | a :: l, s => by
    obtain ⟨e, one, -, -, -, -, -, -, msg⟩ := sendMsg_store (flowPoint dst a.msg.cls false)
      { type := crStepReceipt, cls := a.msg.cls, src := 0, dst := dst, seq := 0, tag := a.msg.tag % 2 ^ 32 + s.courier.epoch * 2 ^ 32,
        payload := a.msg.payload, up := false } none [dst] none s
    obtain ⟨es, rest, len, all⟩ := sendAll_store dst l (sendAnew dst a s)
    refine ⟨e :: es, ?_, congrArg (· + 1) len, fun f there => ?_⟩
    · rw [forEach, rest, show (sendAnew dst a s).courier.store = _ from one, List.append_assoc]
      rfl
    · obtain rfl | later := List.mem_cons.1 there
      · rw [msg]
      · exact all f later

theorem announce_courier {β : Type} {f : CourierState → β} (blind : SendBlind f) (h : CrHead) (s : State) :
    f (announce h s).courier = f (announced h s).courier := by
  rw [announce_eq]
  exact (forEach_keeps (f := fun t : State => f t.courier) (fun e t => sendPoint_courier blind _ _ _ _ _ _ t) _ _).trans (sendControl_courier blind _ _ _ _)

theorem announce_freeCtr (h : CrHead) (s : State) : (announce h s).freeCtr = s.freeCtr + 1 := by
  have sent (e : CrStored) (t : State) : (sendAnew h.src.val e t).freeCtr = t.freeCtr := sendPoint_reach _ _ _ _ _ _ t .freeCtr (by decide)
  exact (forEach_keeps (f := State.freeCtr) sent _ _).trans
    (sendControl_reach _ _ _ { announced h s with freeCtr := s.freeCtr + 1 } .freeCtr (by decide))

/-- Every entry stays, JOIN joins them, and a receipt for the old manager is for the new one. -/
theorem announce_store (h : CrHead) (s : State) : (announce h s).courier.store.length = s.courier.store.length + 1 ∧
    ∀ e ∈ (announce h s).courier.store, e.msg.type = crStepReceipt → e.msg.dst = s.courier.managerPos → h.src.val = s.courier.managerPos := by
  obtain ⟨j, join, -, -, -, -, -, -, msg⟩ := sendMsg_store (flowPoint h.src.val 0 false)
    { type := crControl, cls := 0, src := 0, dst := h.src.val, seq := 0, tag := 1 + s.courier.epoch * 2 ^ 32, payload := clean (joinPayload (announced h s)),
      up := false } none [h.src.val] none { announced h s with freeCtr := s.freeCtr + 1 }
  have joins : (sendJoin (announced h s)).courier.store = (announced h s).courier.store ++ [j] := join
  obtain ⟨es, store, len, all⟩ := sendAll_store h.src.val (heldReceipts s) (sendJoin (announced h s))
  rw [← announce_eq, joins] at store
  rw [store]
  have parts := List.length_eq_length_filter_add (l := s.courier.store) (fun e => e.msg.type == crStepReceipt && e.msg.dst == s.courier.managerPos)
  refine ⟨?_, fun e there type dst => ?_⟩
  · simp only [List.length_append, len, announced, heldReceipts, List.length_singleton]
    omega
  · obtain first | last := List.mem_append.1 there
    · obtain kept | own := List.mem_append.1 first
      · have other := (List.mem_filter.1 kept).2
        simp [type, dst] at other
      · rw [List.mem_singleton.1 own, msg] at type
        exact absurd (show crControl = crStepReceipt from type) (by decide)
    · exact (all e last).symm.trans dst

/-! ### The map (R383, R399) -/

/-- A new map takes its place. -/
def newMap (h : CrHead) (places : Option (List (Option (Fin 64)))) (s : State) : State :=
  match places with
  | none => s
  | some l =>
    let ps := l.map (fun p => p.map (·.val))
    let before := (openPoints s.courier).length
    let now := (ps.filterMap id).filter (· != ownPos s)
    let back := now.filter (fun p => p != h.src.val && !setHas s.courier.present p)
    noteOpen before { s with courier := { back.foldl (fun c p => restartFlows p c) s.courier with places := ps, present := now.foldl setIns [] } }

theorem restartFlows_foldl {β : Type} {f : CourierState → β} (blind : ∀ pos c, f (restartFlows pos c) = f c) : ∀ (l : List Nat) (c : CourierState),
    f (l.foldl (fun c p => restartFlows p c) c) = f c
  | [], _ => rfl
  | p :: l, c => (restartFlows_foldl blind l (restartFlows p c)).trans (blind p c)

theorem newMap_leaves (h : CrHead) (places : Option (List (Option (Fin 64)))) (s : State) : (newMap h places s).courier.epoch = s.courier.epoch ∧
    ∀ l, places = some l → (newMap h places s).courier.places = l.map (fun p => p.map (·.val)) := by
  unfold newMap
  split
  next => exact ⟨rfl, fun l eq => absurd eq (Option.some_ne_none l).symm⟩
  next l =>
    refine ⟨?_, fun m eq => ?_⟩
    · rw [noteOpen_courier]
      exact restartFlows_foldl (f := CourierState.epoch) (fun _ _ => rfl) _ s.courier
    · cases eq
      rw [noteOpen_courier]

theorem linkNotice_eq (h : CrHead) (places : Option (List (Option (Fin 64)))) (link : Option (Fin 64 × Fin 2 × Bool)) (s : State) :
    linkNotice h places link s = match link with | some (l, r, up) => markLink l.val r.val up (newMap h places s) | none => newMap h places s := rfl

theorem markLink_down (l r : Nat) (up : Bool) (s : State) : (markLink l r up s).courier.epoch = s.courier.epoch ∧
    (markLink l r up s).courier.places = s.courier.places ∧ ((l, r) ∈ (markLink l r up s).courier.down ↔ up = false) := by
  unfold markLink
  dsimp only
  rw [noteOpen_courier]
  refine ⟨rfl, rfl, ?_⟩
  cases up <;> simp

theorem linkNotice_leaves (h : CrHead) (places : Option (List (Option (Fin 64)))) (link : Option (Fin 64 × Fin 2 × Bool)) (s : State) :
    (linkNotice h places link s).courier.epoch = s.courier.epoch ∧
    (∀ l, places = some l → (linkNotice h places link s).courier.places = l.map (fun p => p.map (·.val))) ∧
    ∀ l r up, link = some (l, r, up) → ((l.val, r.val) ∈ (linkNotice h places link s).courier.down ↔ up = false) := by
  obtain ⟨epoch, map⟩ := newMap_leaves h places s
  rw [linkNotice_eq]
  cases link with
  | none => exact ⟨epoch, map, fun l r up eq => absurd eq (Option.some_ne_none _).symm⟩
  | some e =>
    obtain ⟨l, r, up⟩ := e
    obtain ⟨markEpoch, markPlaces, down⟩ := markLink_down l.val r.val up (newMap h places s)
    refine ⟨markEpoch.trans epoch, fun m eq => markPlaces.trans (map m eq), fun l' r' up' eq => ?_⟩
    cases eq
    exact down

end

/-- Settles O48: each control message, command by command; what leaves of it changes the ring's records only in numbers and the retry store. -/
theorem ringControlKeepsTheRing : Obligations.RingControlKeepsTheRing := by
  intro h epoch ring pos time j places link r2 s c mgr given next taken
  refine ⟨fun p manages runs serves free => ?_, fun worker serves old => ?_, fun worker serves new => ?_, fun there new => ?_, fun stopped => ?_,
    fun manages runs serves due => ?_, fun manages other => ?_, fun comes awake => ?_,
    fun ⟨there, gap⟩ old m listed => ?_, fun ⟨there, gap⟩ new => ⟨?_, ?_, ?_⟩, fun worker placed kept due => ?_⟩
  · let u : State := ackMsg h { s with courier := openFlow h s.courier }
    have serials : u.courier.serials = s.courier.serials := ackMsg_courier (f := CourierState.serials) (fun _ _ _ _ _ _ => rfl) h _
    have position : u.courier.position = s.courier.position := ackMsg_courier (f := CourierState.position) (fun _ _ _ _ _ _ => rfl) h _
    have same : ((u.courier.serials.find? (fun e => e.1 == j.serial)).map (·.2)).or (freePosition u.courier) = some p := by
      rw [freePosition, serials, position]
      exact free
    have before : SameExcept [.courier] s u := (sameExcept_courier s _).trans (ackMsg_reach h _)
    obtain ⟨t, r, eq, listed, serial, standby, share, there, place, known, reach, only, bytes⟩ := joined_leaves same
    have blend : u.blend = s.blend := before.blend_eq rfl
    have header : headerEntry u p = headerEntry s p := by rw [headerEntry, headerEntry, blend]
    refine ⟨t, r, ?_, listed, serial, standby, share, there, place, known, .after reach (before.weaken rfl), fun none_ => ?_, fun tables dram => ?_⟩
    · rw [← eq]
      exact congrArg Host.Outcome.next (if_pos ⟨manages, runs, serves⟩)
    · exact before.trans (only (by rw [blend]; exact none_))
    · rw [← header]
      exact bytes (by rw [blend]; exact tables) ((SameHold.of_same before rfl rfl).inDram (by rw [header]; exact dram))
  · exact congrArg Host.Outcome.next (assign_old _ _ worker serves old)
  · have keeps {γ : Type} {g : CourierState → γ} (blind : SendBlind g) (switches : ∀ c w, g { c with switches := w } = g c) :=
      assign_courier blind switches (h := h) ring.val pos.val worker serves new
    refine ⟨_, rfl, keeps (g := CourierState.position) (fun _ _ _ _ _ _ => rfl) fun _ _ => rfl, keeps (g := CourierState.ringNo) (fun _ _ _ _ _ _ => rfl) fun _ _ => rfl,
      keeps (g := CourierState.managerPos) (fun _ _ _ _ _ _ => rfl) fun _ _ => rfl, keeps (g := CourierState.epoch) (fun _ _ _ _ _ _ => rfl) fun _ _ => rfl,
      keeps (g := CourierState.lastBeat) (fun _ _ _ _ _ _ => rfl) fun _ _ => rfl, keeps (g := CourierState.managerLost) (fun _ _ _ _ _ _ => rfl) fun _ _ => rfl,
      ?_, ?_, assign_reach h _ _ _ s⟩
    · rw [keeps (g := CourierState.inn) (fun _ _ _ _ _ _ => rfl) fun _ _ => rfl]
      exact tabGet_tabSet_same _ _ _ _
    · rw [assign_eq ring.val pos.val worker serves new, getSw_of_ring (ackMsg_courier ringOf_sendBlind h _)]
      exact holdDue_holds serves (Option.some_ne_none _)
  · have keeps {γ : Type} {g : CourierState → γ} (blind : SendBlind g) := passToken_courier blind h 3 [] (hasBeaten epoch.toNat s)
    rw [← heartbeat_eq there new] at keeps
    refine ⟨_, rfl, keeps (g := CourierState.epoch) fun _ _ _ _ _ _ => rfl, keeps (g := CourierState.lastBeat) fun _ _ _ _ _ _ => rfl,
      keeps (g := CourierState.managerLost) fun _ _ _ _ _ _ => rfl, heartbeat_reach h _ s, fun manages => ?_, fun i o turn worker port carries => ?_⟩
    · rw [heartbeat_eq there new]
      exact (congrArg (fun t : State => t.courier.sent) (passToken_manager (s := hasBeaten epoch.toNat s) 3 [] manages)).trans rfl
    · rw [heartbeat_eq there new]
      exact passToken_on (s := hasBeaten epoch.toNat s) [] turn worker port carries (by decide)
  · exact congrArg Host.Outcome.next (if_pos (.inr (.inl (by simp [stopped]))))
  · obtain ⟨beat, sent⟩ := sendBeat_leaves manages runs serves due
    exact ⟨_, rfl, beat, sent, sendBeat_reach s⟩
  · exact congrArg Host.Outcome.next (steerTime_not _ _ manages other)
  · intro late
    refine ⟨fun ⟨lost, far⟩ => ?_, fun near => ?_⟩
    · have eq := steerTime_steps comes awake lost far
      have logged := logEvent_reach .timeStepped islRing (leBytes 8 (behind h time.toNat s).toNat) (stepped (behind h time.toNat s) s)
      have passed := passTime_reach s.blend.cur.role.manager h
        (logEvent .timeStepped islRing (leBytes 8 (behind h time.toNat s).toNat) (stepped (behind h time.toNat s) s))
      refine ⟨_, rfl, ?_, ?_, ?_, steerTime_reach h _ _ s⟩
      · rw [eq, passed.devTime_eq rfl, logged.devTime_eq rfl]
        have far : 1000 < behind h time.toNat s := far
        rw [behind] at far
        change s.devTime + (behind h time.toNat s).toNat = _
        rw [behind]
        omega
      · rw [eq, passTime_courier (f := CourierState.slew) fun _ _ _ _ _ _ => rfl, logged.courier_eq rfl]
        rfl
      · rw [eq, passed.log_eq rfl]
        exact LogGrows.ne_of_event (s := stepped (behind h time.toNat s) s) (.refl _)
    · have eq := steerTime_slews comes awake near
      refine ⟨_, congrArg Host.Outcome.next eq, passTime_courier (f := CourierState.slew) (fun _ _ _ _ _ _ => rfl) _ _ _,
        passTime_courier (f := CourierState.timeOffset) (fun _ _ _ _ _ _ => rfl) _ _ _, ?_⟩
      exact (sameExcept_courier s _).trans (passTime_reach _ _ _)
  · simp only [List.mem_cons, List.not_mem_nil, or_false] at listed
    obtain rfl | rfl | rfl := listed
    · exact congrArg Host.Outcome.next (control_old _ there gap old)
    · exact congrArg Host.Outcome.next (control_old _ there gap old)
    · exact congrArg Host.Outcome.next (control_old _ there gap old)
  · obtain ⟨u, eq, state⟩ := control_next (h := h) (linkNotice h places link) there gap new
    have before : SameExcept [.courier] s (ackMsg h u) := (state ▸ sameExcept_courier s _ : SameExcept [.courier] s u).trans (ackMsg_reach h u)
    obtain ⟨same, map, down⟩ := linkNotice_leaves h places link (ackMsg h u)
    refine ⟨_, congrArg Host.Outcome.next eq, ?_, map, down, .after (linkNotice_reach _ _ _ _) (before.weaken rfl)⟩
    rw [same, ackMsg_courier (f := CourierState.epoch) fun _ _ _ _ _ _ => rfl, state]
  · obtain ⟨u, eq, state⟩ := control_next (h := h) (announce h) there gap new
    have before : SameExcept [.courier] s (ackMsg h u) := (state ▸ sameExcept_courier s _ : SameExcept [.courier] s u).trans (ackMsg_reach h u)
    have kept : (ackMsg h u).courier.store = s.courier.store := by
      rw [show (ackMsg h u).courier.store = u.courier.store from emit_store _ _ u, state]
    have old : (ackMsg h u).courier.managerPos = s.courier.managerPos := by
      rw [ackMsg_courier (f := CourierState.managerPos) fun _ _ _ _ _ _ => rfl, state]
    obtain ⟨len, receipts⟩ := announce_store h (ackMsg h u)
    rw [kept] at len
    rw [old] at receipts
    refine ⟨_, congrArg Host.Outcome.next eq, announce_courier (f := CourierState.managerPos) (fun _ _ _ _ _ _ => rfl) h _,
      announce_courier (f := CourierState.managerLost) (fun _ _ _ _ _ _ => rfl) h _, ?_, ?_, ?_, len, receipts,
      .after (announce_reach _ _) (before.weaken rfl)⟩
    · rw [announce_courier (f := CourierState.epoch) fun _ _ _ _ _ _ => rfl]
      change (ackMsg h u).courier.epoch = _
      rw [ackMsg_courier (f := CourierState.epoch) fun _ _ _ _ _ _ => rfl, state]
    · rw [announce_courier (f := CourierState.lastBeat) fun _ _ _ _ _ _ => rfl]
      exact before.devTime_eq rfl
    · rw [announce_freeCtr]
      exact congrArg (· + 1) (before .freeCtr (by decide))
  · obtain ⟨u, eq, state⟩ := control_next (h := h) (drainRing h r2.val) there gap new
    have before : SameExcept [.courier] s (ackMsg h u) := (state ▸ sameExcept_courier s _ : SameExcept [.courier] s u).trans (ackMsg_reach h u)
    have ports : (ackMsg h u).courier.ports = s.courier.ports := by
      rw [ackMsg_courier (f := CourierState.ports) fun _ _ _ _ _ _ => rfl, state]
    refine ⟨_, congrArg Host.Outcome.next eq, ?_, ?_, fun q ne => ?_, before.trans (drainRing_reach _ _ _)⟩
    · rw [drainRing, updCr, getCr_setCr]
    · change (ackMsg h u).courier.epoch = _
      rw [ackMsg_courier (f := CourierState.epoch) fun _ _ _ _ _ _ => rfl, state]
    · rw [drainRing, updCr, getCr_setCr_ne _ _ ne]
      exact getCr_of_ports ports q
  · have eq : managerGone s = logEvent .managerLost islRing (leBytes 1 s.courier.managerPos ++ leBytes 4 s.courier.epoch)
        { s with courier := { s.courier with managerLost := true } } :=
      if_neg (by simp only [not_or]; exact ⟨by simp [show s.blend.cur.role.manager = false from worker], by simpa using placed, by simpa using kept, Nat.not_lt.2 due⟩)
    refine ⟨_, congrArg Host.Outcome.next eq, (logEvent_reach _ _ _ _).courier_eq rfl, ?_, ?_⟩
    · exact logEvent_log_of _ _ _ rfl rfl
    · rw [← eq]
      exact managerGone_reach s

end Sys2Proof.Machine
end
end

section
/-! SUPPORT. What an island keeps while takes are granted and cores stop (R30, R211, R439). -/
section
namespace Sys2Proof.Machine

section
variable {β : Type} {f : Island → β} {s t u : State}

/-- Blind to whether an island runs, and since when it is gated. -/
def PowerBlind (f : Island → β) : Prop := ∀ i p g, f { i with power := p, gatedSince := g } = f i

/-- Every island keeps what a reading of it gives. -/
def IslesKeep (f : Island → β) (s t : State) : Prop := ∀ n, f (getIsl t n) = f (getIsl s n)

theorem IslesKeep.refl (f : Island → β) (s : State) : IslesKeep f s s := fun _ => rfl
theorem IslesKeep.trans (h : IslesKeep f s t) (h' : IslesKeep f t u) : IslesKeep f s u := fun n => (h' n).trans (h n)

theorem IslesKeep.of_same {ps : List Part} (h : SameExcept ps s t) (kept : ps.contains .isl = false) : IslesKeep f s t :=
  fun n => congrArg f (h.getIsl_eq kept n)

theorem IslesKeep.each {α : Type} {m : α → State → State} (one : ∀ a t, IslesKeep f t (m a t)) : ∀ (l : List α) (s : State), IslesKeep f s (forEach l m s)
  | [], s => .refl f s
  | a :: l, s => (one a s).trans (IslesKeep.each one l (m a s))

theorem updIsl_keeps {n : Nat} {m : Island → Island} (same : ∀ i, f (m i) = f i) (s : State) : IslesKeep f s (updIsl s n m) := by
  intro k
  by_cases here : k = n
  · subst here
    rw [updIsl, getIsl_setIsl, same]
  · rw [updIsl, getIsl_setIsl_ne _ _ here]

theorem wakeIsl_keeps (blind : PowerBlind f) (n : Nat) (s : State) : IslesKeep f s (wakeIsl n s) := by
  refine updIsl_keeps (fun i => ?_) s
  split
  · exact blind i 2 none
  · rfl

theorem grantTo_keeps (blind : PowerBlind f) (w : Waiter) (s : State) : IslesKeep f s (grantTo w s) := by
  unfold grantTo
  split
  next p _ =>
    have woken : IslesKeep f s (updIsl (setCore s p { getCore s p with wait := none, pc := ((getCore s p).pc + 32) % 2 ^ 48 }) (islOfCore p)
        (fun i => { i with power := 2, gatedSince := none })) :=
      (IslesKeep.of_same (setCore_reach s p _) rfl).trans (updIsl_keeps (fun i => blind i 2 none) _)
    dsimp only
    split
    · exact woken.trans (.of_same (refreshBlocked_reach _ _) rfl)
    · exact woken
  · exact fun _ => rfl
  · exact fun _ => rfl

theorem semSettle_keeps (blind : PowerBlind f) (i v : Nat) (ws : List Waiter) (s : State) : IslesKeep f s (semSettle i v ws s) :=
  (IslesKeep.of_same (setSem_reach s i _) rfl).trans (.each (fun w t => grantTo_keeps blind w t) _ _)

theorem stopCore_keeps (blind : PowerBlind f) (p : Nat) (s : State) : IslesKeep f s (stopCore p s) := by
  unfold stopCore
  dsimp only
  split
  · exact ((semSettle_keeps blind _ _ _ s).trans (.of_same (updCore_reach _ p _) rfl)).trans (.of_same (dropGone_reach p _) rfl)
  · exact (IslesKeep.of_same (updCore_reach s p _) rfl).trans (.of_same (dropGone_reach p _) rfl)

theorem endEarly_keeps (blind : PowerBlind f) (i : Nat) (st : Status) (code : Nat) (s : State) : IslesKeep f s (endEarly i st code s) := by
  unfold endEarly
  split
  · exact .refl f s
  split
  · exact .refl f s
  dsimp only
  split
  · split
    · exact fun _ => rfl
    · exact fun _ => rfl
  · exact IslesKeep.trans (fun _ => rfl) (.each (fun p t => stopCore_keeps blind p t) _ _)

end

/-! ### An island that goes out of service (R439) -/

section
variable {β : Type} {f : Island → β} {s : State}

/-- An island is marked, recorded and logged as out of service. -/
def outOfService (n reason : Nat) (s : State) : State :=
  let t := updMargin (updIsl s n (fun i => { i with faulty := true, check := none, power := if unused s n then 0 else i.power })) n
    (fun e => { e with retired := true, reason := reason })
  logEvent .islandRetired islTrust (leBytes 2 n ++ leBytes 1 reason ++ leBytes 1 (logicalOfIsl s n))
    { t with plan := { t.plan with retired := t.plan.retired + 1, retiredThisRun := t.plan.retiredThisRun + 1 } }

/-- The invocations of a core that has gone out of service end. -/
def endThose (l : Nat) (s : State) : State :=
  forEach (s.qs.invs.filter (fun e => l != 0xFF && e.2.cores.contains l)) (fun e t => endEarly e.1 .aborted 0x34 t) s

theorem retireIsland_eq {n : Nat} (reason : Nat) (sound : (getIsl s n).faulty = false) :
    retireIsland n reason s = endThose (logicalOfIsl s n) (outOfService n reason s) :=
  if_neg (by simp [sound])

theorem endThose_reach (l : Nat) (s : State) : SameExcept [.isl, .xfers, .qs, .sems, .cores, .links, .grinders] s (endThose l s) :=
  .forEach (fun (e : Nat × Invocation) t => endEarly_reach e.1 .aborted 0x34 t) _ (.refl _ s)

theorem endThose_keeps (blind : PowerBlind f) (l : Nat) (s : State) : IslesKeep f s (endThose l s) :=
  .each (fun (e : Nat × Invocation) t => endEarly_keeps blind e.1 .aborted 0x34 t) _ s

theorem outOfService_isl (n reason : Nat) (s : State) : (outOfService n reason s).isl =
    (updIsl s n (fun i => { i with faulty := true, check := none, power := if unused s n then 0 else i.power })).isl := by
  unfold outOfService
  dsimp only
  rw [(logEvent_reach _ _ _ _).isl_eq rfl]
  rfl

theorem getIsl_of_isl {s t : State} (isl : t.isl = s.isl) (n : Nat) : getIsl t n = getIsl s n := congrArg (tabGet islandReset · n) isl

/-- What the retirement of an island leaves of it. -/
theorem retireIsland_leaves {n : Nat} (reason : Nat) (sound : (getIsl s n).faulty = false) : (getIsl (retireIsland n reason s) n).faulty = true ∧
    (retireIsland n reason s).plan.retired = s.plan.retired + 1 ∧ (retireIsland n reason s).log ≠ s.log := by
  rw [retireIsland_eq reason sound]
  refine ⟨?_, ?_, ?_⟩
  · rw [endThose_keeps (f := Island.faulty) (fun _ _ _ => rfl) _ _ n, getIsl_of_isl (outOfService_isl n reason s),
      updIsl, getIsl_setIsl]
  · rw [(endThose_reach _ _).plan_eq rfl, outOfService, (logEvent_reach _ _ _ _).plan_eq rfl]
    rfl
  · rw [(endThose_reach _ _).log_eq rfl]
    have logged : ∀ t : State, t.log = s.log → ∀ e n d, (logEvent e n d t).log ≠ s.log := fun t same e n d =>
      same ▸ LogGrows.ne_of_event (.refl _)
    exact logged _ rfl _ _ _

/-- The retirement leaves its entry. -/
theorem retireIsland_logs {n : Nat} (reason : Nat) (sound : (getIsl s n).faulty = false) :
    ∃ e k d, LogGrows (logEvent e k d s).log (retireIsland n reason s).log := by
  have entry : (retireIsland n reason s).log =
      (logEvent .islandRetired islTrust (leBytes 2 n ++ leBytes 1 reason ++ leBytes 1 (logicalOfIsl s n)) s).log := by
    rw [retireIsland_eq reason sound, (endThose_reach _ _).log_eq rfl]
    exact logEvent_log_of _ _ _ rfl rfl
  refine ⟨.islandRetired, islTrust, leBytes 2 n ++ leBytes 1 reason ++ leBytes 1 (logicalOfIsl s n), ?_⟩
  rw [entry]
  exact .refl _

theorem LogGrows.ne_after {t : State} {e : Event} {n : Nat} {d : List Byte} {l : LogState} (before : LogGrows s.log t.log)
    (h : LogGrows (logEvent e n d t).log l) : l ≠ s.log := fun same => (h.trans (same ▸ before)).ne_of_event rfl

theorem retireIsland_faulty {n reason : Nat} : (getIsl (retireIsland n reason s) n).faulty = true := by
  cases sound : (getIsl s n).faulty with
  | false => exact (retireIsland_leaves reason sound).1
  | true =>
    rw [show retireIsland n reason s = s from if_pos sound]
    exact sound

/-- What a retirement keeps of every island. -/
theorem retireIsland_keeps (blind : PowerBlind f) (service : ∀ i b c, f { i with faulty := b, check := c } = f i) (n reason : Nat) (s : State) :
    IslesKeep f s (retireIsland n reason s) := by
  cases sound : (getIsl s n).faulty with
  | true =>
    rw [show retireIsland n reason s = s from if_pos sound]
    exact .refl f s
  | false =>
    rw [retireIsland_eq reason sound]
    refine IslesKeep.trans (t := outOfService n reason s) (fun k => ?_) (endThose_keeps blind _ _)
    rw [getIsl_of_isl (outOfService_isl n reason s)]
    exact updIsl_keeps (fun i => (blind { i with faulty := true, check := none } _ i.gatedSince).trans (service i true none)) s k

theorem retireIsland_grows (n reason : Nat) (s : State) : LogGrows s.log (retireIsland n reason s).log := by
  cases sound : (getIsl s n).faulty with
  | true =>
    rw [show retireIsland n reason s = s from if_pos sound]
    exact .refl _
  | false =>
    rw [retireIsland_eq reason sound, (endThose_reach _ _).log_eq rfl]
    have logged : ∀ t : State, t.log = s.log → ∀ e n d, LogGrows s.log (logEvent e n d t).log := fun t same e n d => same ▸ logEvent_grows e n d t
    exact logged _ rfl _ _ _

end
end Sys2Proof.Machine
end
end

section
/-! SUPPORT. The scrub, what other reads of SRAM meet, the log's places and its intervals (R438, R439, R450-R452, R486), and the statement O52. -/
section
namespace Sys2Proof.Machine

/-! ### A word that cannot be corrected (R438, R439) -/

section
variable {s : State}

theorem memPoison_setMemPoison (s : State) (a : Nat) : memPoison (setMemPoison s a true) a = true := by
  simp only [memPoison, setMemPoison, setHas, if_true]
  exact List.contains_iff_mem.2 (mem_setIns.2 (.inl rfl))

/-- The errors of an island's scratchpad within a day, with the one met now. -/
def dayErrors (s : State) (i : Island) (off : Nat) : List (Nat × Nat) :=
  i.eccErrors.filter (fun e => decide (s.devTime < e.1 + 86400000000000)) ++ [(s.devTime, off)]

/-- The word is poisoned, logged and counted. -/
def wordBad (p off : Nat) (s : State) : State :=
  let t := logEvent .sramUncorrectable (islOfCore p) (leBytes 4 off) (setMemPoison s (scratchKey p off) true)
  setIsl t (islOfCore p) { getIsl s (islOfCore p) with
                           eccUncorrected := (getIsl s (islOfCore p)).eccUncorrected + 1
                           eccErrors := dayErrors s (getIsl s (islOfCore p)) off }

theorem scrubBad_eq (p off : Nat) (s : State) : scrubBad p off s =
    if (dayErrors s (getIsl s (islOfCore p)) off).any (fun e => e.2 != off) then retireIsland (islOfCore p) 3 (wordBad p off s) else wordBad p off s := rfl

theorem wordBad_reach (p off : Nat) (s : State) : SameExcept [.log, .isl, .poison] s (wordBad p off s) := by
  unfold wordBad
  dsimp only
  exact .after ((setIsl_reach _ _ _).weaken rfl) (.after ((logEvent_reach _ _ _ _).weaken rfl) ((setMemPoison_reach s _ _).weaken rfl))

theorem wordBad_grows (p off : Nat) (s : State) : (wordBad p off s).log = (logEvent .sramUncorrectable (islOfCore p) (leBytes 4 off) s).log :=
  logEvent_log_of _ _ _ rfl rfl

/-- What a word that cannot be corrected leaves. -/
theorem scrubBad_leaves (p off : Nat) (s : State) : memPoison (scrubBad p off s) (scratchKey p off) = true ∧ (scrubBad p off s).log ≠ s.log ∧
    (∀ a, memByte (scrubBad p off s) a = memByte s a) ∧ (getIsl (scrubBad p off s) (islOfCore p)).scrubWord = (getIsl s (islOfCore p)).scrubWord ∧
    (getIsl (scrubBad p off s) (islOfCore p)).eccUncorrected = (getIsl s (islOfCore p)).eccUncorrected + 1 := by
  have marked : memPoison (wordBad p off s) (scratchKey p off) = true := by
    rw [memPoison, wordBad, (setIsl_reach _ _ _).poison_eq rfl, (logEvent_reach _ _ _ _).poison_eq rfl]
    exact memPoison_setMemPoison s _
  have island : getIsl (wordBad p off s) (islOfCore p) = { getIsl s (islOfCore p) with
                                                            eccUncorrected := (getIsl s (islOfCore p)).eccUncorrected + 1
                                                            eccErrors := dayErrors s (getIsl s (islOfCore p)) off } := getIsl_setIsl _ _ _
  have logged : LogGrows (logEvent .sramUncorrectable (islOfCore p) (leBytes 4 off) s).log (wordBad p off s).log := wordBad_grows p off s ▸ .refl _
  rw [scrubBad_eq]
  split
  · have reach := retireIsland_reach (islOfCore p) 3 (wordBad p off s)
    refine ⟨?_, (logged.trans (retireIsland_grows _ _ _)).ne_of_event, fun a => ?_, ?_, ?_⟩
    · rw [memPoison, reach.poison_eq rfl]
      exact marked
    · rw [reach.memByte_eq rfl, (wordBad_reach p off s).memByte_eq rfl]
    · rw [retireIsland_keeps (f := Island.scrubWord) (fun _ _ _ => rfl) (fun _ _ _ => rfl), island]
    · rw [retireIsland_keeps (f := Island.eccUncorrected) (fun _ _ _ => rfl) (fun _ _ _ => rfl), island]
  · exact ⟨marked, logged.ne_of_event, fun a => (wordBad_reach p off s).memByte_eq rfl a, by rw [island], by rw [island]⟩

/-- A second word at another address within a day takes the island out of service; no other does. -/
theorem scrubBad_service (p off : Nat) (s : State) :
    ((∃ e ∈ (getIsl s (islOfCore p)).eccErrors.filter (fun e => decide (s.devTime < e.1 + 86400000000000)), e.2 ≠ off) →
      (getIsl (scrubBad p off s) (islOfCore p)).faulty = true) ∧
    ((∀ e ∈ (getIsl s (islOfCore p)).eccErrors.filter (fun e => decide (s.devTime < e.1 + 86400000000000)), e.2 = off) →
      (getIsl (scrubBad p off s) (islOfCore p)).faulty = (getIsl s (islOfCore p)).faulty) := by
  refine ⟨fun ⟨e, there, other⟩ => ?_, fun all => ?_⟩
  · have second : (dayErrors s (getIsl s (islOfCore p)) off).any (fun e => e.2 != off) = true :=
      List.any_eq_true.2 ⟨e, List.mem_append_left _ there, bne_iff_ne.2 other⟩
    rw [scrubBad_eq, if_pos second]
    exact retireIsland_faulty
  · rw [scrubBad_eq, if_neg ?_]
    · rw [wordBad, getIsl_setIsl]
    · rw [List.any_eq_true]
      rintro ⟨e, there, other⟩
      obtain before | now := List.mem_append.1 there
      · exact bne_iff_ne.1 other (all e before)
      · rw [List.mem_singleton.1 now] at other
        exact bne_iff_ne.1 other rfl

/-! ### Lost control state, and a buffer's granule (R438, R462) -/

theorem enterFaulted_leaves {fault : Nat} (on : s.mode ≠ .off) (sound : s.mode ≠ .faulted) : (enterFaulted fault s).mode = .faulted ∧
    (enterFaulted fault s).pm.fault = fault ∧ (enterFaulted fault s).power.alertFaulted = true := by
  unfold enterFaulted
  rw [if_neg (not_or.2 ⟨on, sound⟩)]
  exact ⟨rfl, rfl, rfl⟩

/-- The marks of 64 bytes of some data are set. -/
def markGranule (g : Nat) (d : PData) : PData := d.take (64 * g) ++ (sliceAt d (64 * g) 64).map (fun b => (b.1, true)) ++ d.drop (64 * g + 64)

theorem markGranule_bytes (g : Nat) (d : PData) : (markGranule g d).map (·.1) = d.map (·.1) := by
  have parts : d = d.take (64 * g) ++ (sliceAt d (64 * g) 64 ++ d.drop (64 * g + 64)) := by
    rw [sliceAt, show d.drop (64 * g + 64) = (d.drop (64 * g)).drop 64 by rw [List.drop_drop], List.take_append_drop, List.take_append_drop]
  conv_rhs => rw [parts]
  simp [markGranule, Function.comp_def]

theorem markGranule_getElem? (g : Nat) (d : PData) (m : Nat) :
    (markGranule g d)[m]? = (d[m]?).map (fun b => (b.1, if 64 * g ≤ m ∧ m < 64 * g + 64 then true else b.2)) := by
  have cut : (d.take (64 * g)).length = min (64 * g) d.length := List.length_take
  have granule : ((sliceAt d (64 * g) 64).map (fun b => (b.1, true))).length = min 64 (d.length - 64 * g) := by simp [sliceAt]
  unfold markGranule
  by_cases low : m < 64 * g
  · rw [List.append_assoc]
    by_cases inside : m < d.length
    · rw [List.getElem?_append_left (by omega), List.getElem?_take, if_pos low, List.getElem?_eq_getElem inside]
      simp only [Option.map_some, if_neg (show ¬(64 * g ≤ m ∧ m < 64 * g + 64) by omega)]
    · rw [List.getElem?_eq_none (by simp only [List.length_append, List.length_drop]; omega), List.getElem?_eq_none (l := d) (by omega)]
      rfl
  · by_cases near : m < 64 * g + 64
    · by_cases inside : m < d.length
      · rw [List.getElem?_append_left (by simp only [List.length_append]; omega), List.getElem?_append_right (by omega), cut,
          show min (64 * g) d.length = 64 * g by omega, List.getElem?_map, sliceAt, List.getElem?_take, if_pos (by omega), List.getElem?_drop,
          show 64 * g + (m - 64 * g) = m by omega]
        simp only [if_pos (show 64 * g ≤ m ∧ m < 64 * g + 64 by omega)]
      · rw [List.getElem?_eq_none (by simp only [List.length_append, List.length_drop]; omega), List.getElem?_eq_none (l := d) (by omega)]
        rfl
    · by_cases inside : m < d.length
      · rw [List.getElem?_append_right (by simp only [List.length_append]; omega), List.length_append, cut, granule, List.getElem?_drop,
          show 64 * g + 64 + (m - (min (64 * g) d.length + min 64 (d.length - 64 * g))) = m by omega]
        simp only [if_neg (show ¬(64 * g ≤ m ∧ m < 64 * g + 64) by omega)]
        exact (Option.map_id' ).symm ▸ rfl
      · rw [List.getElem?_eq_none (by simp only [List.length_append, List.length_drop]; omega), List.getElem?_eq_none (l := d) (by omega)]
        rfl

theorem getElem?_setNth_ne {α : Type} : ∀ (l : List α) (n m : Nat) (a : α), m ≠ n → (setNth l n a)[m]? = l[m]?
  | [], _, _, _, _ => rfl
  | _ :: _, 0, m, _, ne => by
    cases m with
    | zero => exact absurd rfl ne
    | succ m => rfl
  | _ :: l, n + 1, m, a, ne => by
    cases m with
    | zero => rfl
    | succ m => exact getElem?_setNth_ne l n m a (fun same => ne (congrArg (· + 1) same))

theorem readBuffer_eq {n off k g : Nat} {p : Packet} (there : s.net[k]? = some p) (inside : 64 * g < p.data.length) (powered : (getIsl s n).power ≠ 0) :
    readBuffer n off k g .uncorrectable s =
      logEvent .sramUncorrectable n (leBytes 4 off) { s with net := setNth s.net k { p with data := markGranule g p.data } } := by
  unfold readBuffer
  rw [there]
  exact if_neg (by simp only [not_or]; exact ⟨fun no => no rfl, powered, Nat.not_le.2 inside⟩)

/-! ### The log's places and its intervals (R450-R452, R486) -/

/-- The log once an island's oldest entry has its place. -/
def placed (n : Nat) (e : LogEntry) (rest : List LogEntry) (l : LogState) : LogState :=
  { l with queues := tabSet [] l.queues n rest, slots := tabPut l.slots (l.next % 16384) { seq := l.next, entry := e }, next := l.next + 1 }

theorem logWrite_eq {n : Nat} {e : LogEntry} {rest : List LogEntry} (waits : tabGet [] s.log.queues n = e :: rest) (on : s.mode ≠ .off)
    (plain : e.event ≠ .logDropped) : logWrite n s =
      (if s.log.irqSev ≤ eventSeverity e.event then raiseVector s.log.vector else id)
        (if eventSeverity e.event = 4 then { s with log := placed n e rest s.log, power := { s.power with alertCritical := true } }
          else { s with log := placed n e rest s.log }) := by
  unfold logWrite
  rw [waits]
  dsimp only
  rw [if_neg on, if_neg plain, if_neg plain]
  split <;> rfl

theorem findInterval_putInterval (l : List LogInterval) (i : LogInterval) : findInterval (putInterval l i) i.event i.source = some i := by
  have none_ : (l.filter (fun j => !(decide (j.event = i.event) && decide (j.source = i.source)))).find?
      (fun j => decide (j.event = i.event) && decide (j.source = i.source)) = none := by
    rw [List.find?_eq_none]
    intro j there
    have other := (List.mem_filter.1 there).2
    rw [Bool.not_eq_true'] at other
    rw [other]
    exact Bool.false_ne_true
  rw [findInterval, putInterval, List.find?_append, none_]
  simp

/-- An interval that is put takes the place of those of its event and source. -/
theorem filter_putInterval (l : List LogInterval) (i : LogInterval) :
    (putInterval l i).filter (fun v => v.event == i.event && v.source == i.source) = [i] := by
  have none_ : (l.filter (fun j => !(decide (j.event = i.event) && decide (j.source = i.source)))).filter
      (fun v => v.event == i.event && v.source == i.source) = [] := by
    rw [List.filter_eq_nil_iff]
    intro v there
    have other := (List.mem_filter.1 there).2
    rw [Bool.not_eq_true'] at other
    rw [Bool.beq_eq_decide_eq, Bool.beq_eq_decide_eq, other]
    exact Bool.false_ne_true
  rw [putInterval, List.filter_append, none_]
  simp

theorem queueEntry_room {e : LogEntry} {l : LogState} (room : (tabGet [] l.queues e.source).length < 16) :
    queueEntry e l = (true, { l with queues := tabSet [] l.queues e.source (tabGet [] l.queues e.source ++ [e]) }) := if_pos room

theorem logLimited_counted {e : Event} {source : Nat} {v : LogInterval} (data : List Byte) (found : findInterval s.log.intervals e source = some v) :
    (logLimited e source data s).log =
      { s.log with intervals := putInterval s.log.intervals { v with count := satAdd 0xFFFF v.count 1, last := mkEntry s e source data } } := by
  simp only [logLimited, logLimitedEntry, mkEntry, found, if_true]

/-- The interval that a first occurrence opens. -/
def newInterval (s : State) (e : Event) (source : Nat) (data : List Byte) : LogInterval :=
  { event := e, source := source, endsAt := s.devTime + 1000000, count := 0, last := mkEntry s e source data }

theorem logLimited_first {e : Event} {source : Nat} (data : List Byte) (none_ : findInterval s.log.intervals e source = none)
    (room : (tabGet [] s.log.queues source).length < 16) : (logLimited e source data s).log =
      { s.log with queues := tabSet [] s.log.queues source (tabGet [] s.log.queues source ++ [mkEntry s e source data]),
                   intervals := putInterval s.log.intervals (newInterval s e source data) } := by
  have queued := queueEntry_room (e := mkEntry s e source data) (l := s.log) room
  simp only [logLimited, logLimitedEntry, show (mkEntry s e source data).event = e from rfl, show (mkEntry s e source data).source = source from rfl, none_,
    queued, if_true]
  rfl

/-- The interval of a code that ends. -/
def closed (v : LogInterval) (l : LogState) : LogState :=
  { l with intervals := l.intervals.filter (fun j => !(decide (j.event = v.event) && j.source == v.source)) }

theorem closed_none (v : LogInterval) (l : LogState) : findInterval (closed v l).intervals v.event v.source = none := by
  rw [findInterval, List.find?_eq_none]
  intro j there
  have other := (List.mem_filter.1 there).2
  rw [Bool.not_eq_true', Bool.beq_eq_decide_eq] at other
  rw [other]
  exact Bool.false_ne_true

theorem intervalEnd_eq {source code : Nat} {v : LogInterval}
    (found : s.log.intervals.find? (fun i => i.source == source && eventCode i.event == code) = some v) : intervalEnd source code s =
      if s.devTime < v.endsAt then s
      else if v.count = 0 then { s with log := closed v s.log }
      else { s with log := if (queueEntry { v.last with count := v.count } (closed v s.log)).1 then (queueEntry { v.last with count := v.count } (closed v s.log)).2
                           else noteDropped s (queueEntry { v.last with count := v.count } (closed v s.log)).2 } := by
  unfold intervalEnd
  rw [found]
  rfl

end

/-- Settles O52: what each read of SRAM meets, and the place of each log entry. -/
theorem scrubAndLogGoOn : Obligations.ScrubAndLogGoOn := by
  intro core ecc word sem part off k g n code s isl i scrub moved errs l
  refine ⟨fun powered => ⟨fun clean => ?_, fun corrected => ?_, fun bad => ?_⟩, fun gated => ?_, fun powered => ?_, fun powered => ?_, ?_,
    fun on sound => ?_, fun p there inside powered => ?_, fun e rest waits on plain => ?_, fun v found => ⟨fun early => ?_, fun due => ?_⟩, fun e source data => ⟨fun none_ => ?_, fun none_ room => ?_, fun v found => ?_⟩⟩
  · subst clean
    refine congrArg Host.Outcome.next ((if_neg powered).trans ?_)
    unfold readWord
    split
    · rfl
    · rfl
  · subst corrected
    have island : getIsl (setIsl s isl moved) isl = moved := getIsl_setIsl _ _ _
    refine ⟨_, congrArg Host.Outcome.next ((if_neg powered).trans (if_neg ?_)), ?_, fun m other => ?_, .trans (setIsl_reach _ _ _) (updIsl_reach _ _ _)⟩
    · rw [island]
      exact powered
    · rw [updIsl, getIsl_setIsl, island]
    · rw [updIsl, getIsl_setIsl_ne _ _ other, getIsl_setIsl_ne _ _ other]
  · subst bad
    have island : getIsl (setIsl s isl moved) isl = moved := getIsl_setIsl _ _ _
    obtain ⟨marked, logged, kept, next, counted⟩ := scrubBad_leaves core.val (8 * i.scrubWord) (setIsl s isl moved)
    obtain ⟨second, first⟩ := scrubBad_service core.val (8 * i.scrubWord) (setIsl s isl moved)
    rw [island] at next counted second first
    refine ⟨_, congrArg Host.Outcome.next ((if_neg powered).trans (if_neg ?_)), marked, logged, kept, next, counted, second, first⟩
    rw [island]
    exact powered
  · exact congrArg Host.Outcome.next (if_pos gated)
  · obtain ⟨marked, logged, kept, next, counted⟩ := scrubBad_leaves core.val (8 * word.val) s
    exact ⟨_, congrArg Host.Outcome.next (if_neg powered), marked, logged, kept, next, counted⟩
  · exact congrArg Host.Outcome.next (if_neg (not_or.2 ⟨fun no => no rfl, powered⟩))
  · exact congrArg Host.Outcome.next (show readControl part.toNat false s = s from if_pos (.inl rfl))
  · obtain ⟨mode, fault, alert⟩ := enterFaulted_leaves (s := logEvent .controlStateLost islTrust (leBytes 1 part.toNat) s) (fault := 4) on sound
    exact ⟨_, congrArg Host.Outcome.next (if_neg (by simp [on, sound])), mode, fault, alert⟩
  · refine ⟨_, { p with data := markGranule g p.data }, congrArg Host.Outcome.next (readBuffer_eq there inside powered), ?_, rfl, markGranule_bytes g p.data,
      fun m b listed => ?_, fun m other => ?_, .trans (t := { s with net := setNth s.net k { p with data := markGranule g p.data } }) ?_
        ((logEvent_reach _ _ _ _).weaken rfl)⟩
    · rw [(logEvent_reach _ _ _ _).net_eq rfl]
      exact getElem?_setNth _ _ _ _ there
    · rw [markGranule_getElem?] at listed
      obtain ⟨a, at_, rfl⟩ := Option.map_eq_some_iff.1 listed
      rw [List.getD_eq_getElem?_getD, at_]
      rfl
    · rw [(logEvent_reach _ _ _ _).net_eq rfl]
      exact getElem?_setNth_ne _ _ _ _ other
    · exact (sameExcept_net s _).weaken rfl
  · refine ⟨_, congrArg Host.Outcome.next (logWrite_eq waits on plain), ?_⟩
    have reach := logWrite_reach n.val s
    rw [logWrite_eq waits on plain] at reach
    have slots : tabFind (placed n.val e rest l).slots (l.next % 16384) = some { seq := l.next, entry := e } := tabFind_tabPut_same _ _ _
    have queue : tabGet [] (placed n.val e rest l).queues n.val = rest := tabGet_tabSet_same _ _ _ _
    by_cases critical : eventSeverity e.event = 4 <;> by_cases severe : l.irqSev ≤ eventSeverity e.event
    · rw [if_pos severe, if_pos critical] at reach
      rw [if_pos severe, if_pos critical, if_pos severe]
      exact ⟨slots, rfl, queue, by simp [critical, raiseVector, raiseVectorOn], rfl, reach⟩
    · rw [if_neg severe, if_pos critical] at reach
      rw [if_neg severe, if_pos critical, if_neg severe]
      exact ⟨slots, rfl, queue, by simp [critical], (List.append_nil _).symm, reach⟩
    · rw [if_pos severe, if_neg critical] at reach
      rw [if_pos severe, if_neg critical, if_pos severe]
      exact ⟨slots, rfl, queue, by simp [critical, raiseVector, raiseVectorOn], rfl, reach⟩
    · rw [if_neg severe, if_neg critical] at reach
      rw [if_neg severe, if_neg critical, if_neg severe]
      exact ⟨slots, rfl, queue, by simp [critical], (List.append_nil _).symm, reach⟩
  · exact congrArg Host.Outcome.next ((intervalEnd_eq found).trans (if_pos early))
  · have eq := (intervalEnd_eq found).trans (if_neg (Nat.not_lt.2 due))
    refine ⟨_, rfl, intervalEnd_reach _ _ s, fun none_ => ?_, fun some_ room => ?_⟩
    · rw [eq, if_pos none_]
      exact ⟨rfl, closed_none v l⟩
    · have queued := queueEntry_room (e := { v.last with count := v.count }) (l := closed v l) room
      rw [eq, if_neg some_, queued]
      exact ⟨tabGet_tabSet_same _ _ _ _, closed_none v l⟩
  · by_cases room : (tabGet [] l.queues source).length < 16
    · left
      rw [logLimited_first data none_ room]
      exact filter_putInterval l.intervals (newInterval s e source data)
    · exact .inr (Nat.not_lt.1 room)
  · rw [logLimited_first data none_ room]
    exact tabGet_tabSet_same _ _ _ _
  · rw [logLimited_counted data found]
    obtain ⟨event, source_⟩ : v.event = e ∧ v.source = source := by simpa using List.find?_some found
    subst event source_
    exact ⟨rfl, findInterval_putInterval _ _⟩

end Sys2Proof.Machine
end
end

section
/-! SUPPORT. Island clocks, slack alarms, checks and the planner's runs (R17, R439-R449, R459), and the statement O51. -/
section
namespace Sys2Proof.Machine

section
variable {s : State} {n : Nat}

theorem otherIslands_setIsl (x : Island) : OtherIslands n s (setIsl s n x) := fun _ other => getIsl_setIsl_ne _ _ other

theorem OtherIslands.trans {t u : State} (h : OtherIslands n s t) (h' : OtherIslands n t u) : OtherIslands n s u :=
  fun m other => (h' m other).trans (h m other)

theorem OtherIslands.of_same {t : State} {ps : List Part} (h : SameExcept ps s t) (kept : ps.contains .isl = false) : OtherIslands n s t :=
  fun m _ => h.getIsl_eq kept m

/-- An island is set, and what follows keeps every island. -/
theorem island_set {t : State} (x : Island) {ps : List Part} (h : SameExcept ps (setIsl s n x) t) (kept : ps.contains .isl = false) :
    getIsl t n = x ∧ OtherIslands n s t :=
  ⟨(h.getIsl_eq kept n).trans (getIsl_setIsl _ _ _), (otherIslands_setIsl x).trans (.of_same h kept)⟩

/-! ### A step of a clock (R17, R459) -/

/-- An island is hot, or short of power. -/
def slowed (s : State) (i : Island) : Bool := decide (100 ≤ i.tempC) || (s.power.powerLimit && i.floor == 0)

/-- The state of an island whose clock has changed. -/
def steppedTo (s : State) (n code : Nat) (throttled : Bool) : Island :=
  { getIsl s n with current := code, lastStep := s.devTime, throttled := throttled, ticks := islTicks s n, ticksAt := runTime s }

theorem stepCode_eq (code : Nat) (throttled : Bool) : stepCode n code throttled s = setIsl s n (steppedTo s n code throttled) := rfl

/-- A movable island that is powered, outside the reset of a supply. -/
def Clocked (s : State) (n : Nat) : Prop := isMovable n = true ∧ (getIsl s n).power ≠ 0 ∧ s.power.supplyReset = false

theorem Clocked.guard (h : Clocked s n) : ¬((!isMovable n) = true ∨ (getIsl s n).power = 0 ∨ s.power.supplyReset = true) := by
  obtain ⟨movable, powered, up⟩ := h
  simp [movable, powered, up]

theorem clockStep_hot (h : Clocked s n) (hot : slowed s (getIsl s n) = true) (due : 10000 ≤ s.devTime - (getIsl s n).lastStep)
    (above : (if 105 ≤ (getIsl s n).tempC then 0x18 else bottomCode (getIsl s n)) < (getIsl s n).current) :
    getIsl (clockStep n s) n = steppedTo s n ((getIsl s n).current - 1) true ∧ OtherIslands n s (clockStep n s) := by
  have step : ∃ t, clockStep n s = t ∧ SameExcept [.log] (setIsl s n (steppedTo s n ((getIsl s n).current - 1) true)) t := by
    refine ⟨_, (if_neg h.guard).trans ((if_pos (Bool.or_eq_true _ _ ▸ hot)).trans (if_neg (by omega))), ?_⟩
    rw [stepCode_eq]
    split
    · exact .refl _ _
    split
    · exact logLimited_reach _ _ _ _
    · exact logLimited_reach _ _ _ _
  obtain ⟨t, rfl, same⟩ := step
  exact island_set _ same rfl

theorem Clocked.cool (h : Clocked s n) (cool : slowed s (getIsl s n) = false) : clockStep n s =
    if (getIsl s n).target < (getIsl s n).current then
      (if s.devTime - (getIsl s n).lastStep < 100 then s else stepCode n ((getIsl s n).current - 1) (getIsl s n).throttled s)
    else if (getIsl s n).current = (getIsl s n).target then
      (if (getIsl s n).throttled then updIsl s n (fun i => { i with throttled := false }) else s)
    else if (getIsl s n).throttled then
      if 97 ≤ (getIsl s n).tempC ∨ s.devTime - (getIsl s n).lastStep < 1000000 then s
      else stepCode n ((getIsl s n).current + 1) (decide ((getIsl s n).current + 1 ≠ (getIsl s n).target)) s
    else if s.devTime - (getIsl s n).lastStep < 100 then s else stepCode n ((getIsl s n).current + 1) false s := by
  refine (if_neg h.guard).trans (if_neg fun hot => ?_)
  have yes : slowed s (getIsl s n) = true := Bool.or_eq_true _ _ ▸ hot
  rw [cool] at yes
  exact absurd yes (by decide)

/-! ### A slack alarm (R439, R443) -/

/-- An island that a slack alarm can act on. -/
def Alarmable (s : State) (n : Nat) : Prop := isMovable n = true ∧ (getIsl s n).power ≠ 0 ∧ (getIsl s n).faulty = false

/-- A slack alarm that has set its island, counted and logged. -/
def alarmed (n : Nat) (x : Island) (s : State) : State :=
  let t := setIsl s n x
  logLimited .slackAlarm n (leBytes 1 x.target ++ leBytes 1 x.vCode) { t with plan := { t.plan with alarmsSince := satAdd 0xFFFF t.plan.alarmsSince 1 } }

/-- An island after an alarm, by whether its target and its voltage are at their ends. -/
def afterAlarm (s : State) (i : Island) : Island :=
  if i.target ≤ bottomCode i then
    if 0x46 ≤ i.vCode then { i with alarms := satAdd 0xFF i.alarms 1, alarmTimes := lastDay s i.alarmTimes ++ [s.devTime] }
    else { i with vCode := i.vCode + 1, alarms := satAdd 0xFF i.alarms 1 }
  else { i with target := i.target - 1, alarms := satAdd 0xFF i.alarms 1 }

theorem slackAlarm_eq (h : Alarmable s n) : slackAlarm n s =
    if 3 ≤ (lastDay (alarmed n (afterAlarm s (getIsl s n)) s) (afterAlarm s (getIsl s n)).alarmTimes).length ∧ (getIsl s n).target ≤ bottomCode (getIsl s n) ∧ 0x46 ≤ (getIsl s n).vCode then
      retireIsland n 2 (alarmed n (afterAlarm s (getIsl s n)) s)
    else alarmed n (afterAlarm s (getIsl s n)) s := by
  obtain ⟨movable, powered, sound⟩ := h
  unfold slackAlarm
  dsimp only
  rw [if_neg (by simp [movable, powered, sound])]
  unfold afterAlarm
  by_cases floor : (getIsl s n).target ≤ bottomCode (getIsl s n)
  · by_cases top : 0x46 ≤ (getIsl s n).vCode
    · simp only [floor, top, decide_true, Bool.not_true, Bool.and_self, if_true, and_true, and_false, Bool.false_eq_true, if_false]
      rfl
    · simp only [floor, top, decide_true, decide_false, Bool.not_false, Bool.and_false, if_true, and_true, and_false, Bool.false_eq_true, if_false]
      rfl
  · simp only [floor, decide_false, Bool.false_and, if_false, false_and, and_false, Bool.false_eq_true]
    rfl

theorem lastDay_alarmed (x : Island) (l : List Nat) : lastDay (alarmed n x s) l = lastDay s l := by
  have time : (alarmed n x s).devTime = s.devTime := (logLimited_reach _ _ _ _).devTime_eq rfl
  rw [lastDay, lastDay, time]

theorem alarmed_only (x : Island) : getIsl (alarmed n x s) n = x ∧ OtherIslands n s (alarmed n x s) :=
  ⟨((logLimited_reach _ _ _ _).getIsl_eq rfl n).trans (getIsl_setIsl s n x),
    fun m other => ((logLimited_reach _ _ _ _).getIsl_eq rfl m).trans (getIsl_setIsl_ne s x other)⟩

theorem lastDay_again (s : State) (l : List Nat) : lastDay s (lastDay s l ++ [s.devTime]) = lastDay s l ++ [s.devTime] := by
  simp [lastDay, List.filter_append, List.filter_filter]

/-! ### A check that is done (R445, R71) -/

theorem toFin_ofNat (n : Fin 512) : BitVec.toFin (BitVec.ofNat 9 n.val) = n := Fin.ext (Nat.mod_eq_of_lt n.isLt)

theorem movePoint_island (v f : Nat) : getIsl (movePoint n v f s) n = { getIsl s n with vCode := v, target := f } ∧ OtherIslands n s (movePoint n v f s) := by
  have set : ∀ c : Prop, [Decidable c] → getIsl (if c then { updIsl s n (fun i => { i with vCode := v, target := f }) with
      plan := { (updIsl s n (fun i => { i with vCode := v, target := f })).plan with
                changed := (updIsl s n (fun i => { i with vCode := v, target := f })).plan.changed + 1 } }
      else updIsl s n (fun i => { i with vCode := v, target := f })) = getIsl (updIsl s n (fun i => { i with vCode := v, target := f })) := by
    intro c _
    split <;> rfl
  have eq : getIsl (movePoint n v f s) = getIsl (updIsl s n (fun i => { i with vCode := v, target := f })) := set _
  exact ⟨(congrFun eq n).trans (getIsl_setIsl _ _ _), fun m other => (congrFun eq m).trans (getIsl_setIsl_ne _ _ other)⟩

end

end Sys2Proof.Machine
end
end

section
/-! SUPPORT. Checks that are done and the planner's runs (R71, R444-R449), and the statement O51. -/
section
namespace Sys2Proof.Machine

section
variable {s : State}

/-! ### A check that is done (R445, R71) -/

theorem verified_isl (n : Nat) (s : State) : (verified n s).isl = s.isl := by
  unfold verified
  dsimp only
  split
  · rfl
  · rfl

theorem takeReading_island (r : IslandReading) (s : State) :
    (∃ i, getIsl (takeReading r s) r.island.val = i ∧ i.vCode = (getIsl s r.island.val).vCode ∧ i.target = (getIsl s r.island.val).target ∧
      i.check = (getIsl s r.island.val).check ∧ i.headroom = (if r.belowGoal then 0 else r.headroom.val) ∧ i.slack = r.slack.val ∧ i.alarms = 0) ∧
    OtherIslands r.island.val s (takeReading r s) :=
  ⟨⟨_, getIsl_setIsl _ _ _, rfl, rfl, rfl, rfl, rfl, rfl⟩, fun _ other => getIsl_setIsl_ne _ _ other⟩

/-- The island's check is over. -/
def unchecked (n : Nat) (s : State) : State := updIsl s n (fun i => { i with check := none })

theorem unchecked_island (n : Nat) : getIsl (unchecked n s) n = { getIsl s n with check := none } ∧ OtherIslands n s (unchecked n s) :=
  ⟨getIsl_setIsl _ _ _, fun _ other => getIsl_setIsl_ne _ _ other⟩

theorem checkDone_eq {n : Fin 512} {v f : Nat} (pass : Bool) (r : IslandReading) (checks : (getIsl s n.val).check = some (v, f))
    (valid : (getIsl s n.val).checkVoid = false) : checkDone n.val pass r s =
      if pass then takeReading { r with island := n } (verified n.val (movePoint n.val v f (unchecked n.val s)))
      else if v = 0x46 ∧ f ≤ bottomCode (getIsl s n.val) then retireIsland n.val 1 (unchecked n.val s)
      else if unverified s n.val then
        updIsl (unchecked n.val s) n.val (fun i => { i with check := some (readPoint (unchecked n.val s) { r with island := n }) })
      else unchecked n.val s := by
  unfold checkDone
  dsimp only
  rw [checks, toFin_ofNat]
  exact if_neg (by simp [valid])

theorem checkDone_void {n : Fin 512} {v f : Nat} (pass : Bool) (r : IslandReading) (checks : (getIsl s n.val).check = some (v, f))
    (void : (getIsl s n.val).checkVoid = true) :
    checkDone n.val pass r s = updIsl s n.val (fun i => { i with checkVoid := s.power.stretch.isSome }) := by
  unfold checkDone
  dsimp only
  rw [checks]
  exact if_pos void

theorem readPoint_unchecked (n : Fin 512) (r : IslandReading) : readPoint (unchecked n.val s) { r with island := n } = readPoint s { r with island := n } := by
  have island : getIsl (unchecked n.val s) n.val = { getIsl s n.val with check := none } := getIsl_setIsl _ _ _
  simp only [readPoint, goalOf, bottomCode, island]
  rfl

/-- A check that passes: the island is at its point. -/
theorem checkDone_passes {n : Fin 512} {v f : Nat} (r : IslandReading) (checks : (getIsl s n.val).check = some (v, f))
    (valid : (getIsl s n.val).checkVoid = false) :
    ∃ i, getIsl (checkDone n.val true r s) n.val = i ∧ i.vCode = v ∧ i.target = f ∧ i.check = none ∧
      i.headroom = (if r.belowGoal then 0 else r.headroom.val) ∧ i.slack = r.slack.val ∧ OtherIslands n.val s (checkDone n.val true r s) := by
  rw [checkDone_eq true r checks valid, if_pos rfl]
  obtain ⟨start, others⟩ := unchecked_island (s := s) n.val
  obtain ⟨moved, othersMoved⟩ := movePoint_island (s := unchecked n.val s) (n := n.val) v f
  have verifies : ∀ m, getIsl (verified n.val (movePoint n.val v f (unchecked n.val s))) m = getIsl (movePoint n.val v f (unchecked n.val s)) m :=
    getIsl_of_isl (verified_isl _ _)
  obtain ⟨⟨i, island, code, target, check, head, slack, -⟩, othersRead⟩ := takeReading_island { r with island := n }
    (verified n.val (movePoint n.val v f (unchecked n.val s)))
  rw [verifies, moved, start] at code target check
  exact ⟨i, island, code, target, check, head, slack,
    ((others.trans othersMoved).trans fun m _ => verifies m).trans othersRead⟩

/-! ### The planner's runs (R446, R448, R449) -/

/-- A run of a kind and a goal has begun. -/
def RunBegun (s : State) (kind g : Nat) (t : State) : Prop :=
  t.plan.running = true ∧ t.plan.runKind = kind ∧ t.plan.runNo = s.plan.runNo + 1 ∧ t.plan.goal = g ∧ t.plan.goalNow = g

theorem movePoint_plan {β : Type} {f : PlanState → β} (blind : ∀ p c, f { p with changed := c } = f p) (n v w : Nat) (s : State) :
    f (movePoint n v w s).plan = f s.plan := by
  unfold movePoint
  dsimp only
  split
  · exact blind _ _
  · rfl

theorem dailyIsland_plan {β : Type} {f : PlanState → β} (blind : ∀ p c, f { p with changed := c } = f p) (r : IslandReading) (s : State) :
    f (dailyIsland r s).plan = f s.plan := by
  unfold dailyIsland
  dsimp only
  split
  · rfl
  split
  · split
    · rfl
    · exact (movePoint_plan blind _ _ _ _).trans rfl
  · split <;> split <;> rfl

theorem dailyRun_begins {kind : Nat} (rs : List IslandReading) (idle : s.plan.running = false) (booted : s.plan.bootDone = true)
    (serves : s.mode = .serving) : RunBegun s kind s.plan.goal (dailyRun kind rs s) := by
  have eq : dailyRun kind rs s = forEach rs dailyIsland (beginRun kind s) := if_neg (by simp [idle, booted, serves])
  have keeps {β : Type} {f : PlanState → β} (blind : ∀ p c, f { p with changed := c } = f p) : f (dailyRun kind rs s).plan = f (beginRun kind s).plan := by
    rw [eq]
    exact forEach_keeps (f := fun t : State => f t.plan) (dailyIsland_plan blind) rs _
  exact ⟨keeps (f := PlanState.running) fun _ _ => rfl, keeps (f := PlanState.runKind) fun _ _ => rfl, keeps (f := PlanState.runNo) fun _ _ => rfl,
    keeps (f := PlanState.goal) fun _ _ => rfl, keeps (f := PlanState.goalNow) fun _ _ => rfl⟩

/-- An island whose slack is short and that a point would give more slack moves to it. -/
theorem dailyIsland_moves {r : IslandReading} (live : (liveIsls s).contains r.island.val = true)
    (more : moreSlack (getIsl s r.island.val) (readPoint s r).1 (readPoint s r).2 = true) (short : slackOk r = false) :
    (getIsl (dailyIsland r s) r.island.val).vCode = (readPoint s r).1 ∧ (getIsl (dailyIsland r s) r.island.val).target = (readPoint s r).2 ∧
    (getIsl (dailyIsland r s) r.island.val).alarms = 0 ∧ OtherIslands r.island.val s (dailyIsland r s) := by
  have eq : dailyIsland r s = movePoint r.island.val (readPoint s r).1 (readPoint s r).2 (takeReading r s) :=
    (if_neg (by rw [live]; decide)).trans ((if_pos more).trans (if_neg (by simp [short])))
  obtain ⟨⟨i, island, -, -, -, -, -, alarms⟩, others⟩ := takeReading_island r s
  obtain ⟨moved, othersMoved⟩ := movePoint_island (s := takeReading r s) (n := r.island.val) (readPoint s r).1 (readPoint s r).2
  rw [eq, moved, island]
  exact ⟨rfl, rfl, alarms, others.trans othersMoved⟩

/-- Low margins are logged. -/
def noteLow (s : State) : State :=
  forEach (liveIsls s) (fun n t =>
    let i := getIsl t n
    if i.headroom < 200 ∨ (i.predict ≠ 0xFFFFFFFF ∧ i.predict < t.plan.hours + 2000) then
      logEvent .marginLow islTrust (leBytes 2 n ++ leBytes 2 i.headroom ++ leBytes 4 i.predict) t
    else t) s

theorem noteLow_reach (s : State) : SameExcept [.log] s (noteLow s) := by
  refine .forEach (fun n t => ?_) _ (.refl _ s)
  dsimp only
  split
  · exact logEvent_reach _ _ _ _
  · exact .refl _ _

theorem noteLow_grows (s : State) : LogGrows s.log (noteLow s).log := by
  have each : ∀ (l : List Nat) (t : State), LogGrows t.log (forEach l (fun n t =>
      if (getIsl t n).headroom < 200 ∨ ((getIsl t n).predict ≠ 0xFFFFFFFF ∧ (getIsl t n).predict < t.plan.hours + 2000) then
        logEvent .marginLow islTrust (leBytes 2 n ++ leBytes 2 (getIsl t n).headroom ++ leBytes 4 (getIsl t n).predict) t
      else t) t).log := by
    intro l
    induction l with
    | nil => exact fun t => .refl _
    | cons n l ih =>
      intro t
      refine LogGrows.trans ?_ (ih _)
      dsimp only
      split
      · exact logEvent_grows _ _ _ _
      · exact .refl _
  exact each _ s

theorem logLimited_grows (e : Event) (n : Nat) (d : List Byte) (s : State) : LogGrows s.log (logLimited e n d s).log := by
  have entry := logLimitedEntry_grows 1000000 (mkEntry s e n d) s.log
  unfold logLimited
  dsimp only
  split
  · exact entry
  · exact entry.trans (noteDropped_grows s _)

theorem putHeader_runs (r : ModRecord) (h n : Nat) : (putHeader r h n).runs = r.runs := by
  unfold putHeader
  dsimp only
  split
  · rfl
  · rfl

theorem putHeader_new (r : ModRecord) (h n : Nat) : ∃ x, ((putHeader r h n).headerA = some x ∨ (putHeader r h n).headerB = some x) ∧ x.hours = h ∧
    x.runs = n := by
  unfold putHeader
  dsimp only
  split
  · exact ⟨_, .inl rfl, rfl, rfl⟩
  · exact ⟨_, .inr rfl, rfl, rfl⟩

/-- The entry of the module record for a run that ends. -/
def runEntry (minHeadroom minIsland predict : Nat) (p : PlanState) : RunEntry :=
  { run := p.runNo, hours := p.hours, kind := p.runKind, retired := p.retiredThisRun, changed := p.changed, minHeadroom := minHeadroom,
    minIsland := minIsland, predict := predict, lanesSpared := p.lanesSpared, dips := p.dipsSince, alarms := p.alarmsSince, maxTemp := p.maxTempSince }

theorem endRun_leaves (s : State) : ∃ m i p, (endRun s).plan.running = false ∧ (endRun s).plan.lastRun = some s.devTime ∧ (endRun s).plan.minHeadroom = m ∧
    tabFind (endRun s).pm.record.runs (s.plan.runNo % 2928) = some (runEntry m i p s.plan) ∧ LogGrows s.log (endRun s).log := by
  have reach := noteLow_reach s
  have plan : (noteLow s).plan = s.plan := reach.plan_eq rfl
  refine ⟨(endRun s).plan.minHeadroom, (leastHeadroom s (liveIsls s)).getD 0, (endRun s).plan.predictHours, rfl, congrArg some (reach.devTime_eq rfl), rfl, ?_,
    noteLow_grows s⟩
  rw [← plan]
  exact (congrArg (tabFind · _) (putHeader_runs _ _ _)).trans (tabFind_tabPut_same _ _ _)

theorem runDone_eq (runs : s.plan.running = true) (kind : s.plan.runKind ≠ 0) (clear : ∀ m ∈ movableIsls, (getIsl s m).check = none) :
    runDone s = logEvent .marginRun islTrust (leBytes 4 s.plan.runNo ++ leBytes 2 s.plan.changed ++ leBytes 2 (endRun s).plan.minHeadroom ++
      leBytes 4 (endRun s).plan.predictHours) (endRun s) := by
  refine if_neg ?_
  rw [not_or, not_or, List.any_eq_true]
  exact ⟨by simp [runs], kind, fun ⟨m, there, some_⟩ => by simp [clear m there] at some_⟩

/-- A daily run starts a day after the last. -/
theorem daily_due {last : Nat} (rs : List IslandReading) (ran : s.plan.lastRun = some last) (due : last + 86400000000000 ≤ s.devTime) :
    exec (.plannerDailyRun rs) s = .next (dailyRun 1 rs s) := by
  change execPlannerDailyRun rs s = _
  unfold execPlannerDailyRun
  rw [ran]
  exact congrArg Host.Outcome.next (if_pos due)

theorem daily_early {last : Nat} (rs : List IslandReading) (ran : s.plan.lastRun = some last) (early : s.devTime < last + 86400000000000) :
    exec (.plannerDailyRun rs) s = .next s := by
  change execPlannerDailyRun rs s = _
  unfold execPlannerDailyRun
  rw [ran]
  exact congrArg Host.Outcome.next (if_neg (Nat.not_le.2 early))

/-- The goal that a write of `PLAN_CTRL` sets, where it is in range. -/
def withGoal (goal : Nat) (s : State) : State :=
  { s with plan := { s.plan with goal := if 0x48 ≤ goal ∧ goal ≤ 0x68 then goal else s.plan.goal } }

theorem planCtrlRun_eq {last : Nat} (goal : Nat) (rs : List IslandReading) (ran : s.plan.lastRun = some last) :
    planCtrlRun goal rs s = if s.devTime < last + 3600000000000 then withGoal goal s else dailyRun 2 rs (withGoal goal s) := by
  have set : planCtrlRun goal rs s = match (withGoal goal s).plan.lastRun with
      | some t => if (withGoal goal s).devTime < t + 3600000000000 then withGoal goal s else dailyRun 2 rs (withGoal goal s)
      | none => dailyRun 2 rs (withGoal goal s) := by
    unfold planCtrlRun withGoal
    split <;> rfl
  rw [set, show (withGoal goal s).plan.lastRun = some last from ran]
  rfl

theorem planCtrlRun_due {last : Nat} (goal : Nat) (rs : List IslandReading) (ran : s.plan.lastRun = some last)
    (due : last + 3600000000000 ≤ s.devTime) : planCtrlRun goal rs s = dailyRun 2 rs (withGoal goal s) :=
  (planCtrlRun_eq goal rs ran).trans (if_neg (Nat.not_lt.2 due))

theorem planCtrlRun_early {last : Nat} (goal : Nat) (rs : List IslandReading) (ran : s.plan.lastRun = some last)
    (early : s.devTime < last + 3600000000000) : planCtrlRun goal rs s = withGoal goal s :=
  (planCtrlRun_eq goal rs ran).trans (if_pos early)

theorem powerOnHour_due (due : s.plan.lastHour + 3600000000000 ≤ s.devTime) (on : s.mode ≠ .off) : powerOnHour s =
    updRecord (fun r => putHeader r (s.plan.hours + 1) s.plan.runNo)
      { s with plan := { s.plan with hours := s.plan.hours + 1, lastHour := s.plan.lastHour + 3600000000000 } } :=
  if_neg (not_or.2 ⟨Nat.not_lt.2 due, on⟩)

end

/-- Settles O51: each step of a clock, each alarm and check, and each run of the planner, case by case. -/
theorem islandsAndThePlannerKeepTheirMargins : Obligations.IslandsAndThePlannerKeepTheirMargins := by
  refine ⟨?_, ?_⟩
  · intro n pass r s i only alarm check hot
    refine ⟨fun movable powered up => ?_, fun movable powered sound => ?_, fun v f checks => ?_⟩
    · intro at_
      have clocked : Clocked s n.val := ⟨movable, powered, up⟩
      refine ⟨fun hot due above => ?_, fun cool above due => ?_, fun cool below free due => ?_, fun cool below held cold due => ?_⟩
      · obtain ⟨island, others⟩ := clockStep_hot clocked hot due above
        exact ⟨_, rfl, island, others⟩
      · exact congrArg Host.Outcome.next ((clocked.cool cool).trans ((if_pos above).trans (if_neg (Nat.not_lt.2 due))))
      · refine congrArg Host.Outcome.next ((clocked.cool cool).trans ((if_neg (Nat.lt_asymm below)).trans ((if_neg (Nat.ne_of_lt below)).trans
          ((if_neg ?_).trans (if_neg (Nat.not_lt.2 due))))))
        exact fun throttled => absurd (free.symm.trans throttled) (by decide)
      · exact congrArg Host.Outcome.next ((clocked.cool cool).trans ((if_neg (Nat.lt_asymm below)).trans ((if_neg (Nat.ne_of_lt below)).trans
          ((if_pos held).trans (if_neg (not_or.2 ⟨Nat.not_le.2 cold, Nat.not_lt.2 due⟩))))))
    · have acts : Alarmable s n.val := ⟨movable, powered, sound⟩
      have eq := slackAlarm_eq acts
      have plain (x : Island) (same : afterAlarm s i = x) (few : ¬(3 ≤ (lastDay s x.alarmTimes).length ∧ i.target ≤ bottomCode i ∧ 0x46 ≤ i.vCode)) :
          only alarm x := by
        rw [lastDay_alarmed, same] at eq
        obtain ⟨island, others⟩ := alarmed_only (s := s) (n := n.val) x
        exact ⟨_, congrArg Host.Outcome.next (eq.trans (if_neg few)), island, others⟩
      refine ⟨fun above => plain _ (if_neg (Nat.not_le.2 above)) (fun no => Nat.not_le.2 above no.2.1), fun floor low => ?_, fun floor top few => ?_,
        fun floor top many => ?_⟩
      · exact plain _ ((if_pos floor).trans (if_neg (Nat.not_le.2 low))) (fun no => Nat.not_le.2 low no.2.2)
      · refine plain _ ((if_pos floor).trans (if_pos top)) (fun no => ?_)
        have count := no.1
        rw [lastDay_again, List.length_append, List.length_singleton] at count
        omega
      · have after : afterAlarm s i = { i with alarms := satAdd 0xFF i.alarms 1, alarmTimes := lastDay s i.alarmTimes ++ [s.devTime] } :=
          (if_pos floor).trans (if_pos top)
        rw [lastDay_alarmed, after] at eq
        have third : 3 ≤ (lastDay s (lastDay s i.alarmTimes ++ [s.devTime])).length := by
          rw [lastDay_again, List.length_append, List.length_singleton]
          omega
        obtain ⟨island, -⟩ := alarmed_only (s := s) (n := n.val)
          { i with alarms := satAdd 0xFF i.alarms 1, alarmTimes := lastDay s i.alarmTimes ++ [s.devTime] }
        obtain ⟨faulty, retired, logged⟩ := retireIsland_leaves (n := n.val) (s := alarmed n.val
          { i with alarms := satAdd 0xFF i.alarms 1, alarmTimes := lastDay s i.alarmTimes ++ [s.devTime] } s) 2 (by rw [island]; exact sound)
        have before : LogGrows s.log (alarmed n.val { i with alarms := satAdd 0xFF i.alarms 1, alarmTimes := lastDay s i.alarmTimes ++ [s.devTime] } s).log :=
          logLimited_grows _ _ _ _
        obtain ⟨_, _, _, entry⟩ := retireIsland_logs (n := n.val) (s := alarmed n.val
          { i with alarms := satAdd 0xFF i.alarms 1, alarmTimes := lastDay s i.alarmTimes ++ [s.devTime] } s) 2 (by rw [island]; exact sound)
        refine ⟨_, congrArg Host.Outcome.next (eq.trans (if_pos ⟨third, floor, top⟩)), faulty, retired.trans ?_, before.ne_after entry⟩
        exact (congrArg (fun p : PlanState => p.retired + 1) ((logLimited_reach _ _ _ _).plan_eq rfl)).trans rfl
    · refine ⟨fun void => ?_, fun valid passes => ?_, fun valid fails top floor => ?_, fun valid fails inside => ?_⟩
      · exact ⟨_, congrArg Host.Outcome.next (checkDone_void pass r checks void), getIsl_setIsl _ _ _, fun _ other => getIsl_setIsl_ne _ _ other⟩
      · subst passes
        obtain ⟨x, island, code, target, none_, head, slack, others⟩ := checkDone_passes r checks valid
        refine ⟨_, rfl, ?_⟩
        subst island
        exact ⟨code, target, none_, head, slack, others⟩
      · subst fails
        have eq := (checkDone_eq false r checks valid).trans ((if_neg (by decide)).trans (if_pos ⟨top, floor⟩))
        exact ⟨_, congrArg Host.Outcome.next eq, retireIsland_faulty⟩
      · subst fails
        have outside : ¬(v = 0x46 ∧ f ≤ bottomCode (getIsl s n.val)) := fun ⟨top, floor⟩ => inside.elim (fun no => no top) (fun no => Nat.not_le.2 no floor)
        refine ⟨fun known => ?_, fun fresh => ?_⟩
        · have eq := (checkDone_eq false r checks valid).trans ((if_neg (by decide)).trans ((if_neg outside).trans (if_neg (by rw [known]; decide))))
          exact ⟨_, congrArg Host.Outcome.next eq, unchecked_island n.val⟩
        · have eq := (checkDone_eq false r checks valid).trans ((if_neg (by decide)).trans ((if_neg outside).trans (if_pos fresh)))
          obtain ⟨island, others⟩ := unchecked_island (s := s) n.val
          refine ⟨_, congrArg Host.Outcome.next eq, ?_, others.trans fun _ other => getIsl_setIsl_ne _ _ other⟩
          rw [updIsl, getIsl_setIsl, island, readPoint_unchecked]
  · intro who goal r rs s p ready begun n point
    refine ⟨fun last ran set => ⟨fun due => ⟨?_, fun live more short => ?_⟩, fun early => ?_, fun there due => ?_, fun away => ?_, fun there early => ?_⟩,
      fun runs kind clear => ?_, fun due on => ?_, fun early => ?_⟩
    · obtain ⟨idle, booted, serves⟩ := set
      exact ⟨_, daily_due rs ran due, dailyRun_begins rs idle booted serves⟩
    · obtain ⟨idle, booted, serves⟩ := set
      have eq : dailyRun 1 [r] s = dailyIsland r (beginRun 1 s) :=
        if_neg (by simp [show s.plan.running = false from idle, show s.plan.bootDone = true from booted, serves])
      obtain ⟨code, target, alarms, others⟩ := dailyIsland_moves (s := beginRun 1 s) live more short
      exact ⟨_, (daily_due [r] ran due).trans (congrArg Host.Outcome.next eq), code, target, alarms, others⟩
    · exact daily_early rs ran early
    · obtain ⟨idle, booted, serves⟩ := set
      refine ⟨_, congrArg Host.Outcome.next ((if_pos there).trans (planCtrlRun_due goal.val rs ran due)), ?_⟩
      exact dailyRun_begins (s := withGoal goal.val s) rs idle booted serves
    · exact congrArg Host.Outcome.next (if_neg (by simp [away]))
    · exact congrArg Host.Outcome.next ((if_pos there).trans (planCtrlRun_early goal.val rs ran early))
    · obtain ⟨m, island, predict, stopped, last, least, entry, grows⟩ := endRun_leaves s
      have reach := logEvent_reach .marginRun islTrust (leBytes 4 s.plan.runNo ++ leBytes 2 s.plan.changed ++ leBytes 2 (endRun s).plan.minHeadroom ++
        leBytes 4 (endRun s).plan.predictHours) (endRun s)
      refine ⟨_, runEntry m island predict p, congrArg Host.Outcome.next (runDone_eq runs kind clear), ?_, ?_, ?_, rfl, rfl, rfl, rfl, ?_,
        grows.ne_after (.refl _)⟩
      · rw [reach.plan_eq rfl]
        exact stopped
      · rw [reach.plan_eq rfl]
        exact last
      · rw [reach.pm_eq rfl]
        exact entry
      · rw [reach.plan_eq rfl]
        exact least.symm
    · have eq := powerOnHour_due due on
      obtain ⟨x, header, hours, runs⟩ := putHeader_new s.pm.record (s.plan.hours + 1) s.plan.runNo
      have reach := powerOnHour_reach s
      rw [eq] at reach
      exact ⟨_, x, congrArg Host.Outcome.next eq, rfl, header, hours, runs, reach⟩
    · exact congrArg Host.Outcome.next (if_pos (.inl early))

end Sys2Proof.Machine
end
end

section
/-! SUPPORT. The control window and the Carrier's accesses (R8, R11, R27-R29, R411, R413), and the statement O59. -/
section
namespace Sys2Proof.Machine

/-! ### Where an offset lies (R27, R29) -/

theorem parts_island {die i o : Nat} (onDie : die < 2) (inDie : i < 256) (inBlock : o < 0x1000) :
    slotPart (0x200000 + die * 0x100000 + i * 0x1000 + o) = none ∧ queuePart (0x200000 + die * 0x100000 + i * 0x1000 + o) = none ∧
    islandPart (0x200000 + die * 0x100000 + i * 0x1000 + o) = some (die, i, o) := by
  refine ⟨if_neg (by omega), if_neg (by omega), (if_pos (by omega)).trans (congrArg some ?_)⟩
  refine Prod.ext (by dsimp only; omega) (Prod.ext (by dsimp only; omega) (by dsimp only; omega))

theorem parts_queue {q o : Nat} (known : q < 1024) (inBlock : o < 128) :
    slotPart (0x20000 + q * 128 + o) = none ∧ queuePart (0x20000 + q * 128 + o) = some (q, o) := by
  refine ⟨if_neg (by omega), (if_pos (by omega)).trans (congrArg some (Prod.ext (by dsimp only; omega) (by dsimp only; omega)))⟩

theorem parts_slot {k o : Nat} (known : k < 12) (inBlock : o < 0x1000) : slotPart (0x11000 + k * 0x1000 + o) = some (k, o) :=
  (if_pos (by omega)).trans (congrArg some (Prod.ext (by dsimp only; omega) (by dsimp only; omega)))

section
variable {s : State} {who : Agent} {v : Nat}

/-- A 32-bit write to a register of an island's block that is not 64 bits wide. -/
theorem write_island {die i o : Nat} (onDie : die < 2) (inDie : i < 256) (inBlock : o < 0x1000) (start : o % 8 = 0)
    (narrow : (wideRegs (unitOf die i)).contains o = false) :
    accessFits (0x200000 + die * 0x100000 + i * 0x1000 + o) 4 false = true ∧
    writeWindow who (0x200000 + die * 0x100000 + i * 0x1000 + o) 4 v s = writeIsland who die i o v s := by
  obtain ⟨slot, queue, island⟩ := parts_island onDie inDie inBlock
  have whole : (0x200000 + die * 0x100000 + i * 0x1000 + o) / 8 * 8 = 0x200000 + die * 0x100000 + i * 0x1000 + o := by omega
  have wide : isWide (0x200000 + die * 0x100000 + i * 0x1000 + o) = false := by
    rw [isWide, slot, queue, island]
    exact narrow
  refine ⟨?_, ?_⟩
  · rw [accessFits, whole, wide]
    simp only [show (0x200000 + die * 0x100000 + i * 0x1000 + o) % 4 = 0 by omega,
      show 0x200000 + die * 0x100000 + i * 0x1000 + o + 4 ≤ 0x2000000 by omega, decide_true]
    rfl
  · rw [writeWindow, slot, queue, island]

theorem write_queue {q o : Nat} (known : q < 1024) (place : o = 0x10 ∨ o = 0x18) : accessFits (0x20000 + q * 128 + o) 8 false = true ∧
    writeWindow who (0x20000 + q * 128 + o) 8 v s = writeQueueReg who q o v s := by
  obtain ⟨slot, queue⟩ := parts_queue (o := o) known (by omega)
  have wide : isWide (0x20000 + q * 128 + o) = true := by
    rw [isWide, slot, queue]
    simpa using place
  refine ⟨?_, ?_⟩
  · rw [accessFits, wide]
    simp only [show (0x20000 + q * 128 + o) % 8 = 0 by omega, show 0x20000 + q * 128 + o + 8 ≤ 0x2000000 by omega, decide_true]
    rfl
  · rw [writeWindow, slot, queue]

theorem write_slot {k o : Nat} (known : k < 12) (low : 0x40 ≤ o) (high : o + 8 ≤ 0x1000) (start : o % 8 = 0) :
    accessFits (0x11000 + k * 0x1000 + o) 8 false = true ∧ writeWindow who (0x11000 + k * 0x1000 + o) 8 v s = writeSlot who k o 8 v s := by
  have slot := parts_slot (o := o) known (by omega)
  have bytes : isCallBytes (0x11000 + k * 0x1000 + o) = true := by
    rw [isCallBytes, slot]
    exact decide_eq_true low
  refine ⟨?_, ?_⟩
  · rw [accessFits, bytes]
    simp only [show (0x11000 + k * 0x1000 + o) % 8 = 0 by omega, show 0x11000 + k * 0x1000 + o + 8 ≤ 0x2000000 by omega, decide_true, Bool.or_true]
    rfl
  · rw [writeWindow, slot]

/-! ### A write that arrives (R8, R11) -/

theorem registerWrite_host {p : Fin 2} {off n : Nat} (there : reaches s (.host p) = true) (fits : accessFits off n false = true) :
    registerWrite (.host p) off n v s = writeWindow (.host p) off n v s :=
  (if_neg (by rw [there]; decide)).trans (if_neg (by rw [fits]; decide))

theorem registerWrite_misfit {off n : Nat} (there : reaches s who = true) (misfit : accessFits off n false = false) :
    registerWrite who off n v s = misaligned who off n false s :=
  (if_neg (by rw [there]; decide)).trans (if_pos (by rw [misfit]; decide))

theorem misaligned_leaves (who : Agent) (off n : Nat) (isRead : Bool) (s : State) : (misaligned who off n isRead s).freeCtr = s.freeCtr + 1 ∧
    (misaligned who off n isRead s).log ≠ s.log ∧
    (misaligned who off n isRead s).answers = s.answers ++ (if isRead then [List.replicate n 0xFF] else []) := by
  obtain ⟨d, eq⟩ : ∃ d, misaligned who off n isRead s = if isRead
      then answer (List.replicate n 0xFF) (logEvent .accessMisaligned (agentIsland who) d { s with freeCtr := s.freeCtr + 1 })
      else logEvent .accessMisaligned (agentIsland who) d { s with freeCtr := s.freeCtr + 1 } := ⟨_, rfl⟩
  have same : SameExcept [.log] { s with freeCtr := s.freeCtr + 1 } (logEvent .accessMisaligned (agentIsland who) d { s with freeCtr := s.freeCtr + 1 }) :=
    logEvent_reach _ _ _ _
  have logged : (logEvent .accessMisaligned (agentIsland who) d { s with freeCtr := s.freeCtr + 1 }).log ≠ s.log :=
    LogGrows.ne_of_event (s := { s with freeCtr := s.freeCtr + 1 }) (.refl _)
  have answers : (logEvent .accessMisaligned (agentIsland who) d { s with freeCtr := s.freeCtr + 1 }).answers = s.answers := same .answers (by decide)
  rw [eq]
  cases isRead with
  | false => exact ⟨same .freeCtr (by decide), logged, answers.trans (List.append_nil _).symm⟩
  | true => exact ⟨same .freeCtr (by decide), logged, congrArg (· ++ [List.replicate n 0xFF]) answers⟩

theorem writeWindow_low {p : Fin 2} {off n : Nat} (low : off < 0x11000) : writeWindow (.host p) off n v s = s := by
  rw [writeWindow, show slotPart off = none from if_neg (by omega), show queuePart off = none from if_neg (by omega),
    show islandPart off = none from if_neg (by omega)]
  change writeMailbox (.host p) off v s = s
  unfold writeMailbox
  split
  · rfl
  · exact (if_neg (by omega)).trans (if_neg (by omega))

/-- The argument bytes that a write leaves. -/
theorem foldl_args : ∀ (b : List Byte) (base k : Nat) (t : Tab Byte) (i : Nat),
    tabGet 0 (((List.range' k b.length).zip b).foldl (fun t e => tabSet 0 t (base + e.1) e.2) t) i =
      if base + k ≤ i ∧ i < base + k + b.length then b.getD (i - (base + k)) 0 else tabGet 0 t i
  | [], base, k, t, i => by simp
  | a :: b, base, k, t, i => by
    rw [List.length_cons, List.range'_succ, List.zip_cons_cons, List.foldl_cons, foldl_args b base (k + 1)]
    by_cases here : i = base + k
    · subst here
      rw [if_neg (by omega), if_pos (by omega), tabGet_tabSet_same]
      simp
    · by_cases inside : base + (k + 1) ≤ i ∧ i < base + (k + 1) + b.length
      · rw [if_pos inside, if_pos (by omega), show i - (base + k) = (i - (base + (k + 1))) + 1 by omega]
        rfl
      · rw [if_neg inside, if_neg (by omega), tabGet_tabSet_ne _ _ _ here]

end

/-! ### The Carrier's reads (R411) -/

section
variable {s : State}

/-- An uncached read that meets no error. -/
theorem lineRead_plain (s : State) (a n : Nat) : SameExcept [.cache, .mc] s (lineRead s none a n []).2 := by
  unfold lineRead
  dsimp only [cacheCheck, List.filter_nil, forEach]
  split
  · exact (setCache_reach _ _ _).weaken rfl
  · split
    · exact .refl _ s
    · exact (updMc_reach _ _ _).weaken rfl

theorem linesReadGo_plain : ∀ (l : List (Nat × Nat)) (s : State), SameExcept [.cache, .mc] s (linesReadGo none [] l s).2
  | [], s => .refl _ s
  | p :: l, s => (lineRead_plain s p.1 p.2).trans (linesReadGo_plain l _)

theorem accessRead_plain (s : State) (a n : Nat) : SameExcept [.log, .cache, .mc] s (accessRead s none a n []).2 := by
  unfold accessRead
  split
  · exact (offlineAccess_reach _ _).weaken rfl
  · exact .step (countAccess_reach _ _ _) rfl ((linesReadGo_plain _ s).weaken rfl)

theorem hbmReadGo_plain : ∀ (l : List (Nat × Nat)) (s : State), SameExcept [.log, .cache, .mc] s (hbmReadGo none [] l s).2
  | [], s => .refl _ s
  | p :: l, s => (accessRead_plain s p.1 p.2).trans (hbmReadGo_plain l _)

theorem hbmRead_plain (s : State) (a n : Nat) : SameExcept [.log, .cache, .mc] s (hbmRead s none a n []).2 := hbmReadGo_plain _ s

theorem carrierAccess_readMem {die : Fin 2} {a : Nat} {n : Fin 257} (runs : s.pm.carrierRuns = true) :
    (inCarrierWindow s a n.val = false → carrierAccess die (.readMem a n) s = answer (zeros n.val) (carrierDenied die.val a s)) ∧
    (inCarrierWindow s a n.val = true → hbmReady s 1 a n.val = false → carrierAccess die (.readMem a n) s = s) ∧
    (inCarrierWindow s a n.val = true → hbmReady s 1 a n.val = true → carrierAccess die (.readMem a n) s =
      answer ((hbmRead (hbmTurn 1 a n.val s) none a n.val []).1.map (·.1)) (hbmRead (hbmTurn 1 a n.val s) none a n.val []).2) := by
  unfold carrierAccess
  rw [if_neg (by rw [runs]; decide)]
  dsimp only
  refine ⟨fun out => if_pos (by rw [out]; decide), fun inside busy => ?_, fun inside ready => ?_⟩
  · rw [if_neg (by rw [inside]; decide), if_pos (by rw [busy]; decide)]
  · rw [if_neg (by rw [inside]; decide), if_neg (by rw [ready]; decide)]

theorem carrierAccess_writeMem {die : Fin 2} {a : Nat} {b : List Byte} (runs : s.pm.carrierRuns = true) :
    (inCarrierWindow s a b.length = false → carrierAccess die (.writeMem a b) s = carrierDenied die.val a s) ∧
    (inCarrierWindow s a b.length = true → hbmReady s 1 a b.length = false → carrierAccess die (.writeMem a b) s = s) ∧
    (inCarrierWindow s a b.length = true → hbmReady s 1 a b.length = true → carrierAccess die (.writeMem a b) s =
      captureWrite a (clean b) (hbmWrite (hbmTurn 1 a b.length s) none a (clean b) [])) := by
  unfold carrierAccess
  rw [if_neg (by rw [runs]; decide)]
  dsimp only
  refine ⟨fun out => if_pos (by rw [out]; decide), fun inside busy => ?_, fun inside ready => ?_⟩
  · rw [if_neg (by rw [inside]; decide), if_pos (by rw [busy]; decide)]
  · rw [if_neg (by rw [inside]; decide), if_neg (by rw [ready]; decide)]

/-- `MOD_STATE` and `DEV_TIME` as the Carrier reads them. -/
theorem carrierAccess_readReg (die : Fin 2) (runs : s.pm.carrierRuns = true) :
    carrierAccess die (.readReg 0x18 false) s = answer (leBytes 4 (modeCode s.mode)) { s with freeCtr := s.freeCtr + 1 } ∧
    carrierAccess die (.readReg 0x10 true) s = answer (leBytes 8 s.devTime) { s with freeCtr := s.freeCtr + 1 } := by
  unfold carrierAccess
  rw [if_neg (by rw [runs]; decide), if_neg (by rw [runs]; decide)]
  exact ⟨rfl, rfl⟩

end

/-! ### The statement -/

section
variable {s : State} {p : Fin 2} {off : Fin 33554432} {v : Dword}

theorem exec_registerWrite (who : Agent) (wide : Bool) : exec (.registerWrite who off v wide) s =
    .next (registerWrite who off.val (if wide then 8 else 4) (if wide then v.toNat else v.toNat % 2 ^ 32) s) := rfl

/-- A 32-bit write that a host makes to an island's block. -/
theorem hostWrite_island {die i o : Nat} (there : reaches s (.host p) = true) (onDie : die < 2) (inDie : i < 256) (inBlock : o < 0x1000)
    (start : o % 8 = 0) (narrow : (wideRegs (unitOf die i)).contains o = false) (place : off.val = 0x200000 + die * 0x100000 + i * 0x1000 + o) :
    exec (.registerWrite (.host p) off v false) s = .next (writeIsland (.host p) die i o (v.toNat % 2 ^ 32) s) := by
  obtain ⟨fits, writes⟩ := write_island (s := s) (who := .host p) (v := v.toNat % 2 ^ 32) onDie inDie inBlock start narrow
  rw [exec_registerWrite, place]
  exact congrArg Host.Outcome.next ((registerWrite_host there fits).trans writes)

theorem hostWrite_fpStatus {die : Fin 2} {i : Nat} (there : reaches s (.host p) = true) (core : i < 84)
    (place : off.val = 0x200000 + die.val * 0x100000 + i * 0x1000 + 0x80) : exec (.registerWrite (.host p) off v false) s =
    .next (updCore s (die.val * 84 + i) (fun c => { c with fpStatus := c.fpStatus &&& (0x7F - v.toNat % 2 ^ 32 % 0x80) })) := by
  have unit : unitOf die.val i = .compute (die.val * 84 + i) := if_pos core
  rw [hostWrite_island there die.isLt (by omega) (by decide) (by decide) (by rw [unit]; rfl) place, writeIsland, unit]
  rfl

theorem hostWrite_expressMax {die : Fin 2} {k : Nat} (there : reaches s (.host p) = true) (stack : k / 6 = die.val)
    (place : off.val = 0x200000 + die.val * 0x100000 + (100 + k % 6) * 0x1000 + 0x68) : exec (.registerWrite (.host p) off v false) s =
    .next (updMc s k (fun m => { m with expressMax := v.toNat % 2 ^ 32 % 65536 })) := by
  have unit : unitOf die.val (100 + k % 6) = .memory k := by
    refine (if_neg (by omega)).trans ((if_neg (by omega)).trans ((if_pos (by omega)).trans (congrArg Unit_.memory ?_)))
    omega
  rw [hostWrite_island there die.isLt (by omega) (by decide) (by decide) (by rw [unit]; rfl) place, writeIsland, unit]
  rfl

theorem hostWrite_logCtrl (there : reaches s (.host p) = true) (place : off.val = 0x27E058) : exec (.registerWrite (.host p) off v false) s =
    .next { s with log := { s.log with vector := bitsOf (v.toNat % 2 ^ 32) 25 16, irqSev := bitsOf (v.toNat % 2 ^ 32) 10 8,
                                       mirrorSev := bitsOf (v.toNat % 2 ^ 32) 2 0 } } :=
  hostWrite_island (die := 0) (i := 126) (o := 0x58) there (by decide) (by decide) (by decide) (by decide) (by decide) place

theorem hostWrite_ring {q : Nat} (there : reaches s (.host p) = true) (known : q < 1024) (place : off.val = 0x20000 + q * 128 + 0x10)
    (drives : mayDrive s (.host p) q = true) :
    ((getQ s q).enable = false → exec (.registerWrite (.host p) off v true) s = .next (setQ s q { getQ s q with sqRing := v.toNat % 2 ^ 48 })) ∧
    ((getQ s q).enable = true → exec (.registerWrite (.host p) off v true) s = .next s) := by
  obtain ⟨fits, writes⟩ := write_queue (s := s) (who := .host p) (v := v.toNat) known (.inl rfl)
  have does : exec (.registerWrite (.host p) off v true) s = .next (if (getQ s q).enable then s else setQ s q { getQ s q with sqRing := v.toNat % 2 ^ 48 }) := by
    rw [exec_registerWrite, place]
    exact congrArg Host.Outcome.next ((registerWrite_host there fits).trans (writes.trans (if_neg (by rw [drives]; decide))))
  exact ⟨fun off_ => does.trans (congrArg Host.Outcome.next (if_neg (by rw [off_]; decide))), fun on => does.trans (congrArg Host.Outcome.next (if_pos on))⟩

theorem hostWrite_args {k j : Nat} (there : reaches s (.host p) = true) (known : k < 12) (place : off.val = 0x11000 + k * 0x1000 + 0x40 + j)
    (start : j % 8 = 0) (inside : j + 8 ≤ 0x7C0) :
    (ownsSlot s (.host p) k = true → ∃ t, exec (.registerWrite (.host p) off v true) s = .next t ∧ SameExcept [.pm] s t ∧
      (∀ i < 8, tabGet 0 (getSlot t k).args (j + i) = (leBytes 8 v.toNat).getD i 0) ∧
      ∀ i, (i < j ∨ j + 8 ≤ i) → tabGet 0 (getSlot t k).args i = tabGet 0 (getSlot s k).args i) ∧
    (ownsSlot s (.host p) k = false → exec (.registerWrite (.host p) off v true) s = .next s) := by
  obtain ⟨fits, writes⟩ := write_slot (s := s) (who := .host p) (v := v.toNat) (o := 0x40 + j) known (by omega) (by omega) (by omega)
  have does : exec (.registerWrite (.host p) off v true) s = .next (writeSlot (.host p) k (0x40 + j) 8 v.toNat s) := by
    rw [exec_registerWrite, place, Nat.add_assoc]
    exact congrArg Host.Outcome.next ((registerWrite_host there fits).trans writes)
  have byArgs : writeSlot (.host p) k (0x40 + j) 8 v.toNat s = if 0x40 ≤ 0x40 + j ∧ 0x40 + j < 0x800 ∧ ownsSlot s (.host p) k then
      updSlot s k (fun x => { x with args := ((List.range 8).zip (leBytes 8 v.toNat)).foldl (fun t e => tabSet 0 t (0x40 + j - 0x40 + e.1) e.2) x.args })
    else s := if_neg (by omega)
  rw [does, byArgs]
  refine ⟨fun owns => ?_, fun other => congrArg Host.Outcome.next (if_neg (by rw [other]; simp))⟩
  rw [if_pos ⟨by omega, by omega, owns⟩, Nat.add_sub_cancel_left]
  have eight : (leBytes 8 v.toNat).length = 8 := by simp [leBytes]
  have bytes : ∀ i, tabGet 0 (((List.range 8).zip (leBytes 8 v.toNat)).foldl (fun t e => tabSet 0 t (j + e.1) e.2) (getSlot s k).args) i =
      if j ≤ i ∧ i < j + 8 then (leBytes 8 v.toNat).getD (i - j) 0 else tabGet 0 (getSlot s k).args i := fun i => by
    have folded := foldl_args (leBytes 8 v.toNat) j 0 (getSlot s k).args i
    rwa [eight, ← List.range_eq_range'] at folded
  refine ⟨_, rfl, updSlot_reach _ _ _, fun i low => ?_, fun i out => ?_⟩
  · rw [updSlot, getSlot_setSlot]
    rw [bytes, if_pos (by omega), Nat.add_sub_cancel_left]
  · rw [updSlot, getSlot_setSlot]
    rw [bytes, if_neg (by omega)]

end

theorem barred_of_carrier {s : State} {d : Fin 2} {off n v : Nat} (there : reaches s (.carrier d) = true) (fits : accessFits off n false = true)
    (barred : carrierBarred off = true ∨ carrierReadOnly off = true) : registerWrite (.carrier d) off n v s = carrierDenied d.val off s :=
  (if_neg (by rw [there]; decide)).trans ((if_neg (by rw [fits]; decide)).trans (if_pos (by simpa using barred)))

/-- Settles O59: an access is judged by its agent and its width before it reaches a register. -/
theorem registersTakeTheirWrites : Obligations.RegistersTakeTheirWrites := by
  unfold Obligations.RegistersTakeTheirWrites
  intro who off v wide isRead size die word a count b s n val write host sem
  have posted : ∀ c, (reaches s who && carrierSem s sem) = c →
      exec (.semPostRegister who die word) s = .next (if c then semPost sem (word.toNat % 65536) s else s) := fun c e => by rw [← e]; rfl
  have misfit : ∀ c, (reaches s who && !accessFits off.val size.val isRead) = c →
      exec (.accessMisaligned who off size isRead) s = .next (if c then misaligned who off.val size.val isRead s else s) := fun c e => by rw [← e]; rfl
  refine ⟨fun away => ⟨?_, ?_, ?_⟩, fun there wrong => ?_, fun there wrong => ?_, fun there => ⟨fun own => ?_, fun other => ?_⟩, ?_, ?_, fun halted => ?_, fun runs => ?_⟩
  · exact congrArg Host.Outcome.next (if_pos (by rw [away]; decide))
  · exact misfit false (by rw [away]; rfl)
  · exact posted false (by rw [away]; rfl)
  · obtain ⟨drawn, logged, answered⟩ := misaligned_leaves who off.val size.val isRead s
    exact ⟨_, misfit true (by rw [there, wrong]; rfl), drawn, logged, answered, misaligned_reach _ _ _ _ _⟩
  · obtain ⟨-, logged, answered⟩ := misaligned_leaves who off.val n false s
    refine ⟨_, congrArg Host.Outcome.next (registerWrite_misfit there wrong), logged, answered.trans (List.append_nil _), fun part kept => ?_⟩
    by_cases answers : part = .answers
    · subst answers
      exact answered.trans (List.append_nil _)
    · exact misaligned_reach who off.val n false s part (by simp_all)
  · exact posted true (by rw [there, own]; rfl)
  · exact posted false (by rw [there, other]; rfl)
  · rintro there ⟨p, rfl⟩
    refine ⟨fun i core place narrow => ?_, fun k _ place stack narrow => ?_, fun place narrow => ?_, fun q known place wide drives => ?_,
      fun k j known place start inside wide => ?_, fun low fits => ?_⟩
    · subst narrow
      exact hostWrite_fpStatus there core place
    · subst narrow
      exact hostWrite_expressMax there stack place
    · subst narrow
      exact hostWrite_logCtrl there place
    · subst wide
      exact hostWrite_ring there known place drives
    · subst wide
      exact hostWrite_args there known place start inside
    · exact congrArg Host.Outcome.next ((registerWrite_host there fits).trans (writeWindow_low low))
  · rintro d rfl there fits barred
    exact congrArg Host.Outcome.next (barred_of_carrier there fits barred)
  · exact congrArg Host.Outcome.next (if_pos (by rw [halted]; decide))
  · obtain ⟨readOut, readBusy, readDone⟩ := carrierAccess_readMem (die := die) (a := a) (n := count) runs
    obtain ⟨writeOut, writeBusy, writeDone⟩ := carrierAccess_writeMem (die := die) (a := a) (b := b) runs
    obtain ⟨modState, time⟩ := carrierAccess_readReg die runs
    refine ⟨fun out => ?_, fun inside ready => ?_, fun inside busy => congrArg Host.Outcome.next (readBusy inside busy), fun inside ready => ?_,
      fun inside busy => congrArg Host.Outcome.next (writeBusy inside busy), fun out => congrArg Host.Outcome.next (writeOut out), ?_, ?_⟩
    · have denied : SameExcept [.log] s (carrierDenied die.val a s) := carrierDenied_reach _ _ _
      refine ⟨_, congrArg Host.Outcome.next (readOut out), congrArg (· ++ [zeros count.val]) (show (carrierDenied die.val a s).answers = s.answers from denied .answers (by decide)), rfl, ?_⟩
      exact .step (answer_reach _ _) rfl (denied.weaken rfl)
    · have same : SameExcept [.log, .cache, .mc] s (hbmRead (hbmTurn 1 a count.val s) none a count.val []).2 :=
        .step (hbmRead_plain _ _ _) rfl ((hbmTurn_reach _ _ _ _).weaken rfl)
      refine ⟨_, congrArg Host.Outcome.next (readDone inside ready), congrArg (· ++ [_]) (show (hbmRead (hbmTurn 1 a count.val s) none a count.val []).2.answers = s.answers from same .answers (by decide)), fun x => ?_⟩
      exact same.memByte_eq rfl x
    · intro w
      have same : SameExcept [.courier] w (captureWrite a (clean b) w) := captureWrite_reach _ _ _
      exact ⟨_, congrArg Host.Outcome.next (writeDone inside ready), same.mem_eq rfl, same.poison_eq rfl⟩
    · exact ⟨_, congrArg Host.Outcome.next modState, rfl⟩
    · exact ⟨_, congrArg Host.Outcome.next time, rfl⟩

end Sys2Proof.Machine
end
end

section
/-! SUPPORT. The reset of a core (R466): what the cancels, the resets of links and the early end that it consists of keep. -/
section
namespace Sys2Proof.Machine

section
variable {s t u : State}

/-- Every core keeps its invocation, and the log only grows. -/
structure HoldsAndLogs (s t : State) : Prop where
  holds : CoresKeep Core.inv s t
  logs : LogGrows s.log t.log

theorem HoldsAndLogs.refl (s : State) : HoldsAndLogs s s := ⟨.refl _ s, .refl _⟩
theorem HoldsAndLogs.trans (h : HoldsAndLogs s t) (h' : HoldsAndLogs t u) : HoldsAndLogs s u := ⟨h.holds.trans h'.holds, h.logs.trans h'.logs⟩

theorem HoldsAndLogs.forEach {α : Type} {m : α → State → State} (each : ∀ a t, HoldsAndLogs t (m a t)) :
    ∀ (l : List α) (s : State), HoldsAndLogs s (forEach l m s)
  | [], s => .refl s
  | a :: l, s => (each a s).trans (HoldsAndLogs.forEach each l (m a s))

theorem HoldsAndLogs.of_log (holds : CoresKeep Core.inv s t) (log : t.log = s.log) : HoldsAndLogs s t := ⟨holds, by rw [log]; exact .refl _⟩

theorem HoldsAndLogs.of_frame {ps : List Part} (h : SameExcept ps s t) (cores : ps.contains .cores = false) (log : ps.contains .log = false) :
    HoldsAndLogs s t := .of_log (h.coresKeep cores) (h.log_eq log)

theorem HoldsAndLogs.event (e : Event) (n : Nat) (d : List Byte) (s : State) : HoldsAndLogs s (logEvent e n d s) :=
  ⟨(logEvent_reach e n d s).coresKeep rfl, logEvent_grows e n d s⟩

theorem endEarly_holds (i : Nat) (st : Status) (code : Nat) (s : State) : HoldsAndLogs s (endEarly i st code s) := by
  refine .of_log ?_ ((endEarly_reach i st code s).log_eq rfl)
  have kept (t : State) (y : Invocation) : CoresKeep Core.inv t (setInv t i y) := (setInv_reach _ _ _).coresKeep rfl
  have stopped (l : List Nat) (t : State) : CoresKeep Core.inv t (Machine.forEach l stopCore t) :=
    .forEach (stopCore_coresKeep (fun _ _ _ => rfl) (fun _ _ _ => rfl) (fun _ _ _ => rfl)) l t
  unfold endEarly
  split
  · exact .refl _ s
  split
  · exact .refl _ s
  dsimp only
  split
  · split
    · exact fun _ => rfl
    · exact (kept s _).trans (kept _ _)
  · exact (kept s _).trans (stopped _ _)

theorem raiseFault_logs (e ctx va : Nat) (seg : Option Nat) (r : SegReason) (k : AccessKind) (s : State) :
    HoldsAndLogs s (raiseFault e ctx va seg r k s).2 := by
  refine ⟨(raiseFault_reach e ctx va seg r k s).coresKeep rfl, ?_⟩
  unfold raiseFault
  dsimp only
  split
  · exact .refl _
  split
  · exact .refl _
  · exact logLimited_grows _ _ _ { s with seg := { s.seg with overflow := true } }

theorem startMov_holds (owner : XferOwner) (s : State) : HoldsAndLogs s (startMov owner s) := by
  refine .of_log ?_ ((startMov_reach owner s).log_eq rfl)
  unfold startMov
  split
  · exact .updCore (fun _ => rfl)
  · exact .refl _ s

theorem updPiece_holds (s : State) (x p : Nat) (m : Piece → Piece) : HoldsAndLogs s (updPiece s x p m) := .of_frame (updPiece_reach s x p m) rfl rfl
theorem endPiece_holds (x p : Nat) (s : State) : HoldsAndLogs s (endPiece x p s) := .of_frame (endPiece_reach x p s) rfl rfl

theorem sendPiece_holds (x p : Nat) (c : SegCached) (s : State) : HoldsAndLogs s (sendPiece x p c s) := by
  have faulted (e ctx va : Nat) (seg : Option Nat) (r : SegReason) (k : AccessKind) (m : Piece → Piece) :
      HoldsAndLogs s (updPiece (raiseFault e ctx va seg r k s).2 x p m) := (raiseFault_logs e ctx va seg r k s).trans (updPiece_holds _ x p m)
  unfold sendPiece
  split
  · exact .refl s
  next v q _ =>
  dsimp only
  split
  · exact faulted _ _ _ _ _ _ _
  split
  · exact faulted _ _ _ _ _ _ _
  split
  · exact (endPiece_holds x p s).trans (endEarly_holds _ _ _ _)
  obtain ⟨dst, key⟩ := pieceDest s (c.entry.dbase + (q.vaddr - c.entry.vstart))
  exact ((updPiece_holds s x p _).trans (startMov_holds v.owner _)).trans (.of_frame (sameExcept_net _ _) rfl rfl)

theorem startPiece_holds (x p : Nat) (s : State) : HoldsAndLogs s (startPiece x p s) := by
  unfold startPiece
  split
  · exact .refl s
  split
  · exact updPiece_holds s x p _
  split
  · exact updPiece_holds s x p _
  next v _ _ _ _ c _ => exact .trans (t := touchEntry v.engine c s) (.of_frame (sameExcept_seg s _) rfl rfl) (sendPiece_holds x p c _)

theorem startWaiting_holds (x : Nat) (s : State) : HoldsAndLogs s (startWaiting x s) := by
  unfold startWaiting
  split
  · exact .refl s
  · refine .forEach (fun p t => ?_) _ s
    split
    · split
      · exact startPiece_holds x p t
      · exact .refl t
    · exact .refl t

theorem pumpMov_holds (p : Nat) (o : IssuedOp) (s : State) : HoldsAndLogs s (pumpMov p o s) := by
  unfold pumpMov
  split
  · exact .refl s
  split
  · exact startMov_holds _ s
  split
  case h_2 => exact .refl s
  split
  · exact .refl s
  split
  · exact startMov_holds _ s
  · exact startWaiting_holds _ s

theorem pumpXfer_holds (x : Nat) (s : State) : HoldsAndLogs s (pumpXfer x s) := by
  unfold pumpXfer
  split
  · split
    · exact .forEach (pumpMov_holds _) _ s
    · exact .refl s
  · exact .refl s

theorem retryUnrecorded_holds (s : State) : HoldsAndLogs s (retryUnrecorded s) := by
  refine .forEach (fun e t => .forEach (fun p t => ?_) _ t) _ s
  split
  · split
    · exact (startPiece_holds e.1 p t).trans (pumpXfer_holds e.1 _)
    · exact .refl t
  · exact .refl t

theorem settleRecord_holds (k : Nat) (s : State) : HoldsAndLogs s (settleRecord k s) := by
  unfold settleRecord
  split
  · exact .refl s
  split
  · exact .refl s
  dsimp only
  split
  · exact .trans (.of_frame (sameExcept_seg s _) rfl rfl) (retryUnrecorded_holds _)
  · exact .of_frame (sameExcept_seg s _) rfl rfl

theorem cancelXfer_holds (x : Nat) (s : State) : HoldsAndLogs s (cancelXfer x s) := by
  unfold cancelXfer
  split
  · exact .refl s
  next v _ =>
  dsimp only
  refine .trans ?_ (.forEach settleRecord_holds _ _)
  refine .trans ?_ (pumpXfer_holds x _)
  refine .trans ?_ (.event _ _ _ _)
  refine .trans ?_ (.of_frame (ps := [.net, .host]) (sameExcept_net_host _ _ _) rfl rfl)
  refine .trans (.forEach (m := fun p t => endPiece x p t) (endPiece_holds x) (openPieces v) s) ?_
  split
  · exact .trans (.of_frame (setXfer_reach _ _ _) rfl rfl) (startMov_holds _ _)
  · exact .refl _

theorem resetLink_logs (l : Nat) (d : LinkDef) (s : State) : LogGrows s.log (resetLink l d s).log := by
  rw [resetLink_eq, (setLink_reach _ _ _).log_eq rfl, resetLinkSemaphores, (semSet_reach _ _ _).log_eq rfl, (semSet_reach _ _ _).log_eq rfl, (resetEnds_reach _ _ _).log_eq rfl]
  exact logEvent_grows _ _ _ _

theorem resetLinks_holds (links : List (Nat × LinkDef)) (s : State) :
    HoldsAndLogs s (Machine.forEach links (fun e t => resetLink e.1 e.2 (stopStreams e.1 t)) s) := by
  have one : ∀ (e : Nat × LinkDef) (t : State), HoldsAndLogs t (resetLink e.1 e.2 (stopStreams e.1 t)) := fun e t => by
    refine ⟨((stopStreams_stops e.1 t).trans (resetLink_stops e.1 e.2 (stopStreams e.1 t))).holds, ?_⟩
    have streams := resetLink_logs e.1 e.2 (stopStreams e.1 t)
    rwa [(stopStreams_reach e.1 t).log_eq rfl] at streams
  exact .forEach one links s

end

/-! ### A core's reset (R466) -/

section
variable {s : State} {p : Nat}

/-- The reset of a core logged, its transfers cancelled and its links reset. -/
def coreCleared (p : Nat) (s : State) : State :=
  let l := logicalOf s p
  let links := match l with | some l => linksOn s [l] | none => []
  let mine := match l with | some l => (s.xfers.filter (fun e => e.2.engine == l && !xferDone e.2)).map (·.1) | none => []
  forEach links (fun e t => resetLink e.1 e.2 (stopStreams e.1 t)) (forEach mine cancelXfer (logEvent .resetCause (islOfCore p) (leBytes 1 7) s))

/-- The core's invocation ended early. -/
def coreStopped (p : Nat) (s : State) : State :=
  match (getCore (coreCleared p s) p).inv with | some i => endEarly i .aborted 0 (coreCleared p s) | none => coreCleared p s

theorem coreCleared_holds (p : Nat) (s : State) : HoldsAndLogs (logEvent .resetCause (islOfCore p) (leBytes 1 7) s) (coreCleared p s) :=
  (HoldsAndLogs.forEach cancelXfer_holds _ _).trans (resetLinks_holds _ _)

theorem coreStopped_holds (p : Nat) (s : State) : HoldsAndLogs (logEvent .resetCause (islOfCore p) (leBytes 1 7) s) (coreStopped p s) := by
  unfold coreStopped
  split
  · exact (coreCleared_holds p s).trans (endEarly_holds _ _ _ _)
  · exact coreCleared_holds p s

theorem resetCore_eq (p : Nat) (s : State) : resetCore p s = updCore (coreStopped p s) p (fun c =>
    { idleCore c with
      inv := (getCore s p).inv
      phase := if (getCore s p).inv.isSome then .faulted else .idle }) := by
  have held : (getCore (coreCleared p s) p).inv = (getCore s p).inv := ((HoldsAndLogs.event _ _ _ s).trans (coreCleared_holds p s)).holds p
  rw [← held]
  rfl

theorem coreReset_leaves (due : coreStuck s p = true ∨ coreJoining s p = true) : coreReset' p s = joinedCore p (resetCore p s) ∧
    (getCore (coreReset' p s) p).window = [] ∧ (getCore (coreReset' p s) p).mat = none ∧ (getCore (coreReset' p s) p).vec = none ∧
    (coreReset' p s).log ≠ s.log ∧ (getCore (coreReset' p s) p).inv = (getCore s p).inv ∧
    (getCore (coreReset' p s) p).phase = (if (getCore s p).inv.isSome then .faulted else .idle) ∧ coreJoining (coreReset' p s) p = false := by
  have eq : coreReset' p s = joinedCore p (resetCore p s) := if_pos (by simpa using due)
  have core : getCore (joinedCore p (resetCore p s)) p = { idleCore (getCore (coreStopped p s) p) with
      inv := (getCore s p).inv
      phase := if (getCore s p).inv.isSome then .faulted else .idle } := by
    rw [(joinedCore_reach _ _).getCore_eq rfl, resetCore_eq, updCore, getCore_setCore]
  have logged : (resetCore p s).log ≠ s.log := by
    rw [resetCore_eq, (updCore_reach _ _ _).log_eq rfl]
    exact (coreStopped_holds p s).logs.ne_of_event
  have joined : coreJoining (joinedCore p (resetCore p s)) p = false := by
    unfold coreJoining joinedCore
    cases (resetCore p s).blend.load with
    | none => rfl
    | some l => simp
  rw [eq, core]
  exact ⟨rfl, rfl, rfl, rfl, by rw [(joinedCore_reach _ _).log_eq rfl]; exact logged, rfl, rfl, joined⟩

end

/-! ### Sensors (R459, R460) -/

section
variable {s : State} {key c : Nat}

theorem readSensor_cool (cool : c < 105) : readSensor key c s = { s with power := { s.power with critical := tabDel s.power.critical key } } := if_pos cool

theorem readSensor_rises (hot : 105 ≤ c) (below : c < 115) (rises : tabFind s.power.critical key = none) :
    readSensor key c s = logCritical { s with power := { s.power with critical := tabPut s.power.critical key s.devTime } } := by
  unfold readSensor
  rw [if_neg (by omega), rises]
  exact if_pos below

theorem readSensor_stays {a : Nat} (hot : 105 ≤ c) (below : c < 115) (stays : tabFind s.power.critical key = some a) : readSensor key c s = s := by
  unfold readSensor
  rw [if_neg (by omega), stays]
  exact if_pos below

theorem readSensor_ends (end_ : 115 ≤ c) (on : s.mode ≠ .off) (sound : s.mode ≠ .faulted) : (readSensor key c s).mode = .faulted ∧
    (readSensor key c s).pm.fault = 5 ∧ (readSensor key c s).power.selfRefresh = true := by
  have faults : ∀ t : State, t.mode = s.mode → (enterFaulted 5 t).mode = .faulted ∧ (enterFaulted 5 t).pm.fault = 5 ∧
      (enterFaulted 5 t).power.selfRefresh = true := fun t same => by
    unfold enterFaulted
    rw [if_neg (by rw [same]; exact not_or.2 ⟨on, sound⟩)]
    exact ⟨rfl, rfl, rfl⟩
  have logs : ∀ t : State, (logCritical t).mode = t.mode := fun t => (logCritical_reach t).mode_eq rfl
  unfold readSensor
  rw [if_neg (by omega)]
  dsimp only
  rw [if_neg (by omega)]
  cases was : (tabFind s.power.critical key).isSome with
  | true => exact faults _ (logs s)
  | false => exact faults _ (logs _)

/-- What each reading of a sensor leaves. -/
theorem readSensor_leaves (key c : Nat) (s : State) (on : s.mode ≠ .off) :
    (c < 105 → tabFind (readSensor key c s).power.critical key = none ∧ (readSensor key c s).mode = s.mode ∧ (readSensor key c s).log = s.log) ∧
    (105 ≤ c → c < 115 → tabFind s.power.critical key = none → tabFind (readSensor key c s).power.critical key = some s.devTime ∧
      (readSensor key c s).log ≠ s.log ∧ (readSensor key c s).mode = s.mode) ∧
    (105 ≤ c → c < 115 → ∀ a, tabFind s.power.critical key = some a → tabFind (readSensor key c s).power.critical key = some a ∧
      (readSensor key c s).log = s.log) ∧
    (115 ≤ c → s.mode ≠ .faulted → (readSensor key c s).mode = .faulted ∧ (readSensor key c s).pm.fault = 5 ∧
      (readSensor key c s).power.selfRefresh = true) := by
  refine ⟨fun cool => ?_, fun hot below rises => ?_, fun hot below a stays => ?_, fun end_ sound => readSensor_ends end_ on sound⟩
  · rw [readSensor_cool cool]
    exact ⟨tabFind_tabDel_same _ _, rfl, rfl⟩
  · rw [readSensor_rises hot below rises]
    have same := logCritical_reach { s with power := { s.power with critical := tabPut s.power.critical key s.devTime } }
    refine ⟨?_, LogGrows.ne_of_event (s := { s with power := { s.power with critical := tabPut s.power.critical key s.devTime } }) (.refl _), same.mode_eq rfl⟩
    rw [same.power_eq rfl]
    exact tabFind_tabPut_same _ _ _
  · rw [readSensor_stays hot below stays]
    exact ⟨stays, rfl⟩

/-- Below the level that ends in FAULTED a reading reaches the log and what is critical. -/
theorem readSensor_below (below : c < 115) (s : State) : ∃ l k, readSensor key c s = { s with log := l, power := { s.power with critical := k } } := by
  by_cases cool : c < 105
  · exact ⟨_, _, readSensor_cool cool⟩
  cases was : tabFind s.power.critical key with
  | none => exact ⟨_, _, readSensor_rises (by omega) below was⟩
  | some a => exact ⟨_, _, readSensor_stays (by omega) below was⟩

end

end Sys2Proof.Machine
end
end

section
/-! SUPPORT. Parking and unparking (R468, R469): what each leaves of memory and of the islands, and the statement O58. -/
section
namespace Sys2Proof.Machine

theorem forEach_fixes {α β γ : Type} {f : β → γ} {m : α → β → β} : ∀ (l : List α) (_ : ∀ a ∈ l, ∀ b, f (m a b) = f b) (b : β), f (Machine.forEach l m b) = f b
  | [], _, _ => rfl
  | a :: l, each, b => (forEach_fixes l (fun c later => each c (List.mem_cons_of_mem _ later)) (m a b)).trans (each a List.mem_cons_self b)

/-! ### The directory in the staging area (R468) -/

section
variable {s t : State}

theorem segBytes_length (e : SegEntry) : (segBytes e).length = 32 := by simp [segBytes]

/-- An entry's place in the staging area is written. -/
def saveEntry (lo : Nat) (e : Nat × SegEntry) (t : State) : State := memWrite t (lo + 32 * e.1) (clean (segBytes e.2))

theorem saveEntry_outside {lo x : Nat} {e : Nat × SegEntry} (outside : x < lo + 32 * e.1 ∨ lo + 32 * e.1 + 32 ≤ x) :
    memByte (saveEntry lo e t) x = memByte t x := memByte_memWrite_of_outside (by rw [clean_length, segBytes_length]; exact outside)

theorem saveEntry_bytes (lo : Nat) (e : Nat × SegEntry) (t : State) : memBytes (saveEntry lo e t) (lo + 32 * e.1) 32 = segBytes e.2 :=
  memBytes_eq (segBytes_length _) fun j lt => by
    rw [saveEntry, memByte_memWrite_add (by rw [clean_length, segBytes_length]; exact lt), clean_getD]

theorem tabRising_below {α : Type} : ∀ {l : Tab α} {b : Nat}, tabRising b l = true → ∀ e ∈ l, b ≤ e.1
  | (k, a) :: l, b, rising, e, listed => by
    obtain ⟨first_, later⟩ := Bool.and_eq_true_iff.1 rising
    have low : b ≤ k := of_decide_eq_true first_
    obtain rfl | there := List.mem_cons.1 listed
    · exact low
    · exact (low.trans (Nat.le_succ k)).trans (tabRising_below later e there)

theorem saveAll_kept {lo x : Nat} (l : Tab SegEntry) (outside : ∀ f ∈ l, x < lo + 32 * f.1) (t : State) :
    memByte (forEach l (saveEntry lo) t) x = memByte t x :=
  forEach_fixes (f := fun u => memByte u x) l (fun f listed _ => saveEntry_outside (.inl (outside f listed))) t

theorem saveAll_bytes (lo : Nat) (l : Tab SegEntry) : ∀ (b : Nat) (t : State), tabRising b l = true → ∀ e ∈ l,
    memBytes (forEach l (saveEntry lo) t) (lo + 32 * e.1) 32 = segBytes e.2 := by
  induction l with
  | nil => exact fun _ _ _ e listed => absurd listed List.not_mem_nil
  | cons a l ih =>
    intro b t rising e listed
    have later : tabRising (a.1 + 1) l = true := (Bool.and_eq_true_iff.1 rising).2
    obtain rfl | there := List.mem_cons.1 listed
    · refine memBytes_eq (segBytes_length _) fun j lt => ?_
      have kept : memByte (forEach l (saveEntry lo) (saveEntry lo e t)) (lo + 32 * e.1 + j) = memByte (saveEntry lo e t) (lo + 32 * e.1 + j) :=
        saveAll_kept l (fun f listed => by
          have after := tabRising_below later f listed
          omega) _
      refine Eq.trans kept ?_
      rw [← memBytes_getD lt, saveEntry_bytes]
    · exact ih (a.1 + 1) _ later e there

theorem saveDirectory_bytes (rising : tabRising 0 s.seg.entries = true) : ∀ e ∈ s.seg.entries,
    memBytes (saveDirectory s) (reserveBase s + 32 * e.1) 32 = segBytes e.2 := saveAll_bytes (reserveBase s) s.seg.entries 0 _ rising

theorem memBytes_of_memByte (same : ∀ x, memByte t x = memByte s x) (a n : Nat) : memBytes t a n = memBytes s a n :=
  memBytes_eq (memBytes_length s a n) fun j lt => by rw [same, memBytes_getD lt]

theorem reserveBase_of_blend (same : t.blend = s.blend) : reserveBase t = reserveBase s := by rw [reserveBase, reserveBase, same]

/-! ### The park (R468) -/

/-- The engines stopped over the saved directory. -/
def parkStopped (s : State) : State := stopEngines (saveDirectory (loadSems s))

def gateIsl (n : Nat) (t : State) : State := updIsl t n (fun i => { i with power := 0, gatedSince := none })

theorem gateAll_power (l : List Nat) (t : State) : ∀ m ∈ l, (getIsl (forEach l gateIsl t) m).power = 0 :=
  forEach_establishes (m := gateIsl) (P := fun m t => (getIsl t m).power = 0) (fun m t => by rw [gateIsl, updIsl, getIsl_setIsl])
    (fun m n t zero => by
      by_cases same : m = n
      · subst same
        rw [gateIsl, updIsl, getIsl_setIsl]
      · rw [gateIsl, updIsl, getIsl_setIsl_ne _ _ same, zero]) l t

theorem gateAll_reach (l : List Nat) (t : State) : SameExcept [.isl] t (forEach l gateIsl t) :=
  .forEach (fun n t => updIsl_reach t n (fun i => { i with power := 0, gatedSince := none })) l (.refl _ t)

def portsDown (t : State) : State := forEach [0, 1] (fun p t => updGk t p (fun k => { k with link := .down })) t

theorem portsDown_reach (t : State) : SameExcept [.host] t (portsDown t) :=
  .forEach (fun p t => updGk_reach t p (fun k => { k with link := .down })) [0, 1] (.refl _ t)

/-- The islands gated and the ports down. -/
def parkGated (s : State) : State := portsDown (forEach (movableIsls ++ parkedIsls) gateIsl (parkStopped s))

theorem parkGated_reach (s : State) : SameExcept [.isl, .host] (parkStopped s) (parkGated s) :=
  ((portsDown_reach (forEach (movableIsls ++ parkedIsls) gateIsl (parkStopped s))).weaken rfl).after
    ((gateAll_reach (movableIsls ++ parkedIsls) (parkStopped s)).weaken rfl)

theorem parkGated_islands (s : State) : ∀ m ∈ movableIsls, (getIsl (parkGated s) m).power = 0 := fun m listed =>
  (congrArg Island.power ((portsDown_reach (forEach (movableIsls ++ parkedIsls) gateIsl (parkStopped s))).getIsl_eq rfl m)).trans
    (gateAll_power (movableIsls ++ parkedIsls) (parkStopped s) m (List.mem_append_left parkedIsls listed))

/-- The park recorded. -/
def parkRecorded (t : State) : State := { t with
  mode := .parked
  pm := { t.pm with carrierRuns := false }
  seg := { t.seg with caches := [] }
  power := { t.power with parking := false, parkResult := 1, selfRefresh := true }
  courier := { dropHold t.courier with
    position := none
    store := []
    ports := (dropHold t.courier).ports.map (fun e => (e.1, { e.2 with link := .disabled, lanes := 0, neighbour := none, moved := false })) } }

theorem parkRecorded_leaves (t : State) : (parkRecorded t).mode = .parked ∧ (parkRecorded t).pm.carrierRuns = false ∧
    (parkRecorded t).power.parkResult = 1 ∧ (parkRecorded t).power.parking = false ∧ (parkRecorded t).power.selfRefresh = true ∧
    (parkRecorded t).courier.position = none ∧ (parkRecorded t).courier.store = [] ∧ (parkRecorded t).xfers = t.xfers ∧
    (∀ n, getIsl (parkRecorded t) n = getIsl t n) ∧ ∀ x, memByte (parkRecorded t) x = memByte t x :=
  ⟨rfl, rfl, rfl, rfl, rfl, rfl, rfl, rfl, fun _ => rfl, fun _ => rfl⟩

theorem parkDone_leaves (parks : s.power.parking = true) (serves : s.mode = .serving) : ∃ t, exec .parkDone s = .next t ∧ t.mode = .parked ∧
    t.pm.carrierRuns = false ∧ t.power.parkResult = 1 ∧ t.power.parking = false ∧ t.power.selfRefresh = true ∧ t.courier.position = none ∧
    t.courier.store = [] ∧ t.xfers = [] ∧ (∀ m ∈ movableIsls, (getIsl t m).power = 0) ∧
    (tabRising 0 s.seg.entries = true → ∀ e ∈ s.seg.entries, memBytes t (reserveBase s + 32 * e.1) 32 = segBytes e.2) := by
  have gated := parkGated_reach s
  have steps : parkDone s = parkRecorded (parkGated s) := if_neg (by rw [parks, serves]; decide)
  obtain ⟨mode, runs, result, parking, refresh, position, store, xfers, isles, bytes⟩ := parkRecorded_leaves (parkGated s)
  have gone : (parkGated s).xfers = [] := (gated .xfers (by decide)).1
  refine ⟨_, congrArg Host.Outcome.next steps, mode, runs, result, parking, refresh, position, store, xfers.trans gone,
    fun m listed => (congrArg Island.power (isles m)).trans (parkGated_islands s m listed), fun rising e listed => ?_⟩
  · have loaded : SameExcept [.sems, .grinders] s (loadSems s) := loadSems_reach s
    have entries : (loadSems s).seg.entries = s.seg.entries := by rw [loaded.seg_eq rfl]
    have saved := saveDirectory_bytes (s := loadSems s) (by rw [entries]; exact rising) e (by rw [entries]; exact listed)
    rw [reserveBase_of_blend (loaded.blend_eq rfl)] at saved
    rw [← saved]
    exact memBytes_of_memByte (fun x => (bytes x).trans ((gated.memByte_eq rfl x).trans ((stopEngines_reach _).memByte_eq rfl x))) _ _

/-- The traffic moved, the links reset and the caches clean. -/
def parkFlushed (s : State) : State :=
  let s := forEach [0, 1] (fun k t => forEach (ringNeighbours t) (fun d u => sendControl 7 d (leBytes 1 k) u) t) s
  let s := forEach s.blend.cur.links (fun e t => resetLink e.1 e.2 (stopStreams e.1 t)) s
  flushCaches { s with blend := { s.blend with staged := none } }

theorem parkFlushed_staged (s : State) : (parkFlushed s).blend.staged = none := by
  have dropped : ∀ t : State, (flushCaches { t with blend := { t.blend with staged := none } }).blend.staged = none := fun t => by
    rw [(flushCaches_reach _).blend_eq rfl]
  exact dropped _

theorem park_leaves (may : mayPark s = true) : (park s).power.parking = true ∧ (park s).blend.staged = none ∧ (park s).mode = .serving := by
  have serves : s.mode = .serving := by
    simp only [mayPark, Bool.and_eq_true, decide_eq_true_eq] at may
    obtain ⟨⟨⟨⟨⟨⟨mode, -⟩, -⟩, -⟩, -⟩, -⟩, -⟩ := may
    exact mode
  have parks : park s = { parkFlushed s with power := { (parkFlushed s).power with parking := true } } := if_neg (by rw [may]; decide)
  exact ⟨congrArg (fun t => t.power.parking) parks, (congrArg (fun t => t.blend.staged) parks).trans (parkFlushed_staged s), ((park_reach s).mode_eq rfl).trans serves⟩

theorem park_refused (may : mayPark s = false) : park s = { s with power := { s.power with parkResult := 2 } } := if_pos (by rw [may]; decide)

end

/-! ### The islands of an unpark (R46, R469) -/

section
variable {s t u : State} {n c : Nat}

/-- Every compute island is what it was. -/
def ComputeStays (s t : State) : Prop := ∀ n, n % 256 < 84 → getIsl t n = getIsl s n

theorem ComputeStays.trans (h : ComputeStays s t) (h' : ComputeStays t u) : ComputeStays s u := fun n low => (h' n low).trans (h n low)
theorem ComputeStays.of_same {ps : List Part} (h : SameExcept ps s t) (kept : ps.contains .isl = false) : ComputeStays s t := fun n _ => h.getIsl_eq kept n

theorem ComputeStays.updIsl {m : Nat} (high : 84 ≤ m % 256) (f : Island → Island) (s : State) : ComputeStays s (updIsl s m f) := fun n low =>
  getIsl_setIsl_ne _ _ (fun same => by subst same; omega)

theorem ComputeStays.forEach {α : Type} {m : α → State → State} : ∀ (l : List α) (_ : ∀ a ∈ l, ∀ t, ComputeStays t (m a t)) (s : State),
    ComputeStays s (forEach l m s) := fun l each s n low => forEach_fixes (f := fun t => getIsl t n) l (fun a listed t => each a listed t n low) s

theorem islOfCore_low (c : Nat) : islOfCore c % 256 < 84 := by
  rw [islOfCore, islIx]
  omega

theorem islOfCore_inj {c d : Nat} (same : islOfCore c = islOfCore d) : c = d := by
  rw [islOfCore, islOfCore, islIx, islIx] at same
  omega

theorem islOfMc_high (k : Nat) : 84 ≤ islOfMc k % 256 := by
  rw [islOfMc, islIx]
  omega

theorem islOfGrinder_high (g : Nat) : 84 ≤ islOfGrinder g % 256 := by
  rw [islOfGrinder, islIx]
  omega

theorem stackOut_compute (k : Nat) (s : State) : ComputeStays s (stackOut k s) := by
  unfold stackOut drawFree
  dsimp only
  refine .trans ?_ (.of_same (logEvent_reach _ _ _ _) rfl)
  refine .trans (.updIsl (s := updMc { s with freeCtr := s.freeCtr + 1 } k (fun m => { m with train := 3, pause := none })) (islOfMc_high k) (fun i => { i with power := 0 })) ?_
  split
  · exact fun _ _ => rfl
  · exact fun _ _ => rfl

theorem trainLane_compute (k ch lane : Nat) (s : State) : ComputeStays s (trainLane k ch lane s) := by
  unfold trainLane
  dsimp only
  split
  · exact fun _ _ => rfl
  split
  · exact stackOut_compute k s
  · exact (ComputeStays.of_same (setMc_reach _ _ _) rfl).trans ((ComputeStays.of_same (recordFix_reach _ _) rfl).trans (.of_same (logEvent_reach _ _ _ _) rfl))

theorem trainStack_compute (l : List StackTraining) (k : Nat) (s : State) : ComputeStays s (trainStack l k s) := by
  have begun : ∀ f : McState → McState, ComputeStays s (updMc s k f) := fun f => .of_same (updMc_reach s k f) rfl
  have lanes : ∀ (l : List (Fin 16 × Fin 64)) (t : State), ComputeStays t (forEach l (fun e u => trainLane k e.1.val e.2.val u) t) := fun l t =>
    .forEach (m := fun (e : Fin 16 × Fin 64) u => trainLane k e.1.val e.2.val u) l (fun e _ u => trainLane_compute k e.1.val e.2.val u) t
  unfold trainStack
  dsimp only
  refine .trans ?_ (.of_same (updMc_reach _ _ _) rfl)
  split
  · exact .of_same (updMc_reach _ _ _) rfl
  · refine .trans ?_ (.of_same (updRecord_reach _ _) rfl)
    split
    · exact (begun _).trans ((lanes _ _).trans (stackOut_compute _ _))
    · exact (begun _).trans (lanes _ _)

theorem setCourierIslands_compute (r : RoleDef) (s : State) : ComputeStays s (setCourierIslands r s) := by
  have put : ∀ p < 6, ∀ (on : Bool) (t : State), ComputeStays t (updCr (updIsl t (islOfCourier p) (fun i => { i with power := if on then 2 else 0 })) p
      (fun x => if !on then { x with link := .disabled, lanes := 0, neighbour := none } else if x.link = .disabled then { x with link := .dark } else x)) :=
    fun p known on t => (ComputeStays.updIsl (by rw [islOfCourier, islIx]; omega) _ t).trans (.of_same (updCr_reach _ _ _) rfl)
  exact ((((((put 0 (by decide) true s).trans (put 1 (by decide) true _)).trans (put 2 (by decide) true _)).trans (put 3 (by decide) true _)).trans
    (put 4 (by decide) r.uplinkEast _)).trans (put 5 (by decide) r.uplinkWest _))

theorem measureAndStart_compute (s : State) : ComputeStays s (measureAndStart s) := by
  unfold measureAndStart
  split
  · have high : ∀ m ∈ controlIsls, 84 ≤ m % 256 := by decide
    refine (ComputeStays.forEach (m := fun m t => updIsl t m (fun i => { i with power := 2 })) controlIsls
      (fun m listed t => .updIsl (high m listed) _ t) s).trans (fun n _ => ?_)
    · have mail : ∀ t : State, (carrierTakesMail t).isl = t.isl := fun t => (carrierTakesMail_reach t).isl_eq rfl
      exact getIsl_of_isl (mail _) n
  · exact fun _ _ => rfl

/-- Ready to power up, or running. -/
def Startable (i : Island) : Prop := (i.power = 0 ∧ i.faulty = false) ∨ i.power = 2

theorem powerUpIsl_starts (ready : Startable (getIsl s n)) : (getIsl (powerUpIsl n s) n).power = 2 := by
  rw [powerUpIsl, updIsl, getIsl_setIsl]
  obtain ⟨gated, sound⟩ | runs := ready
  · rw [if_pos ⟨gated, by rw [sound]; rfl⟩]
  · rw [if_neg (by rw [runs]; simp), runs]

theorem powerUpIsl_other {m : Nat} (other : m ≠ n) : getIsl (powerUpIsl n s) m = getIsl s m := getIsl_setIsl_ne _ _ other

/-- A core's island powers up over a scratchpad of zeros. -/
def powerUpCore (c : Nat) (t : State) : State := powerUpIsl (islOfCore c) (zeroScratch c t)

theorem powerUpCore_startable {d : Nat} (ready : Startable (getIsl s (islOfCore c))) : Startable (getIsl (powerUpCore d s) (islOfCore c)) := by
  have scratch : getIsl (zeroScratch d s) (islOfCore c) = getIsl s (islOfCore c) := (zeroScratch_reach d s).getIsl_eq rfl _
  by_cases same : islOfCore c = islOfCore d
  · rw [same] at ready scratch ⊢
    exact .inr (powerUpIsl_starts (by rw [scratch]; exact ready))
  · rw [powerUpCore, powerUpIsl_other same, scratch]
    exact ready

theorem powerUpCore_runs {d : Nat} (runs : (getIsl s (islOfCore c)).power = 2) : (getIsl (powerUpCore d s) (islOfCore c)).power = 2 := by
  have scratch : getIsl (zeroScratch d s) (islOfCore c) = getIsl s (islOfCore c) := (zeroScratch_reach d s).getIsl_eq rfl _
  by_cases same : islOfCore c = islOfCore d
  · rw [same] at runs scratch ⊢
    exact powerUpIsl_starts (by rw [scratch]; exact .inr runs)
  · rw [powerUpCore, powerUpIsl_other same, scratch, runs]

theorem powerUpAll_runs : ∀ (l : List Nat) (s : State), Startable (getIsl s (islOfCore c)) → (c ∈ l ∨ (getIsl s (islOfCore c)).power = 2) →
    (getIsl (forEach l powerUpCore s) (islOfCore c)).power = 2
  | [], s, _, run => run.resolve_left List.not_mem_nil
  | d :: l, s, ready, run => by
    refine powerUpAll_runs l _ (powerUpCore_startable ready) ?_
    obtain here | runs := run
    · obtain rfl | later := List.mem_cons.1 here
      · refine .inr (powerUpIsl_starts ?_)
        rw [(zeroScratch_reach c s).getIsl_eq rfl]
        exact ready
      · exact .inl later
    · exact .inr (powerUpCore_runs runs)

/-- A gated or running island whose core is in no partition ends gated by its clock. -/
theorem idleLinked_power {m : Nat} (on : (getIsl s n).power ≠ 0) : (getIsl (idleLinked m s) n).power = if n = m then 1 else (getIsl s n).power := by
  by_cases same : n = m
  · subst same
    rw [idleLinked, updIsl, getIsl_setIsl, if_neg on, if_pos rfl]
  · rw [if_neg same, idleLinked, updIsl, getIsl_setIsl_ne _ _ same]

theorem idleAll_power : ∀ (l : List Nat) (s : State), (getIsl s (islOfCore c)).power = 2 ∨ (getIsl s (islOfCore c)).power = 1 →
    (getIsl (forEach l (fun d t => idleLinked (islOfCore d) t) s) (islOfCore c)).power = if c ∈ l then 1 else (getIsl s (islOfCore c)).power
  | [], s, _ => (if_neg List.not_mem_nil).symm
  | d :: l, s, on => by
    have first_ := idleLinked_power (s := s) (n := islOfCore c) (m := islOfCore d) (by omega)
    have later := idleAll_power l (idleLinked (islOfCore d) s) (by rw [first_]; split <;> simp [on])
    refine later.trans ?_
    rw [first_]
    by_cases same : c = d
    · subst same
      simp
    · rw [if_neg (fun eq => same (islOfCore_inj eq))]
      simp [same]

/-- The islands of a structure's cores: those in a partition run, the others stay clock-gated. -/
theorem powerStructure_power {st : Structure} (listed : c ∈ st.spare.map (·.2)) (ready : Startable (getIsl s (islOfCore c))) :
    (getIsl (powerStructure st s) (islOfCore c)).power = if c ∈ (st.parts.map (fun e => partPhys st e.1 e.2)).flatten then 2 else 1 := by
  have runs := powerUpAll_runs (st.spare.map (·.2)) s ready (.inl listed)
  have idle := idleAll_power (c := c) ((st.spare.map (·.2)).filter (fun c => !((st.parts.map (fun e => partPhys st e.1 e.2)).flatten).contains c)) _ (.inl runs)
  unfold powerStructure
  dsimp only
  rw [forEach_fixes (f := fun t => (getIsl t (islOfCore c)).power), forEach_fixes (f := fun t => (getIsl t (islOfCore c)).power),
    forEach_fixes (f := fun t => (getIsl t (islOfCore c)).power)]
  · refine idle.trans ?_
    rw [runs]
    by_cases used : c ∈ (st.parts.map (fun e => partPhys st e.1 e.2)).flatten <;> simp [used, listed]
  · intro d _ t
    exact updIsl_keeps (f := Island.power) (m := fun i => { i with floor := 0 }) (fun _ => rfl) t (islOfCore c)
  · intro g _ t
    have low := islOfCore_low c
    have high := islOfGrinder_high g
    exact congrArg Island.power (powerUpIsl_other (fun same => by rw [same] at low; omega))
  · intro m kept t
    refine congrArg Island.power (getIsl_setIsl_ne _ _ (fun same => ?_))
    subst same
    have gone := (List.mem_filter.1 kept).2
    rw [List.contains_iff_mem.2 (List.mem_append_left _ (List.mem_map_of_mem listed))] at gone
    exact absurd gone (by decide)

theorem setFloors_power (cl : ClassDef) (pid : Nat) (p : Partition) (st : Structure) (s : State) : IslesKeep Island.power s (setFloors cl pid p st s) :=
  have floors (x : Nat) (isl : Nat → Nat) (l : List Nat) (t : State) :
      IslesKeep Island.power t (forEach l (fun n u => updIsl u (isl n) (fun i => { i with floor := x })) t) :=
    .each (m := fun n u => updIsl u (isl n) (fun i => { i with floor := x })) (fun _ u => updIsl_keeps (m := fun i => { i with floor := x }) (fun _ => rfl) u) l t
  (floors _ islOfCore _ s).trans (floors _ islOfGrinder _ _)

/-- HBM trained and the boot's islands on. -/
def unparkTrained (training : List StackTraining) (s : State) : State :=
  let s := { s with power := { s.power with unparking := true, selfRefresh := false } }
  let s := forEach ((List.range 12).filter (fun k => !stackOffline s k)) (trainStack training) s
  forEach (bootIsls.filter (fun n => decide (n % 256 < 100 ∨ 105 < n % 256))) (fun n t => updIsl t n (fun i => { i with power := 2 })) s

/-- The structure back in force. -/
def unparkPowered (s : State) : State :=
  forEach s.blend.cur.parts (fun e t => setModes s.blend.cur e.1 e.2 (setFloors s.blend.cur.classes e.1 e.2 s.blend.cur t)) (powerStructure s.blend.cur s)

theorem unpark_eq {training : List StackTraining} (parked : s.mode = .parked) (first_ : s.power.unparking = false) : unpark training s =
    beginRun 0 (measureAndStart (setCourierIslands (unparkTrained training s).blend.cur.role (unparkPowered (unparkTrained training s)))) :=
  if_neg (by rw [parked, first_]; decide)

theorem unparkTrained_compute (training : List StackTraining) (s : State) : ComputeStays s (unparkTrained training s) := by
  have boots : ∀ m ∈ bootIsls, 84 ≤ m % 256 := by decide
  refine .trans (t := { s with power := { s.power with unparking := true, selfRefresh := false } }) (fun _ _ => rfl) ?_
  exact .trans (.forEach _ (fun k _ t => trainStack_compute training k t) _)
    (.forEach _ (fun m listed t => .updIsl (boots m (List.mem_filter.1 listed).1) _ t) _)

theorem trainStack_cur (training : List StackTraining) (k : Nat) (s : State) : (trainStack training k s).blend.cur = s.blend.cur := by
  have out : ∀ (k : Nat) (t : State), (stackOut k t).blend.cur = t.blend.cur := fun k t => by
    unfold stackOut drawFree
    dsimp only
    rw [(logEvent_reach _ _ _ _).blend_eq rfl]
    split <;> rfl
  have lane : ∀ (e : Fin 16 × Fin 64) (t : State), (trainLane k e.1.val e.2.val t).blend.cur = t.blend.cur := fun e t => by
    unfold trainLane
    dsimp only
    split
    · rfl
    split
    · exact out k t
    · rw [(logEvent_reach _ _ _ _).blend_eq rfl, (recordFix_reach _ _).blend_eq rfl, (setMc_reach _ _ _).blend_eq rfl]
  have lanes : ∀ (l : List (Fin 16 × Fin 64)) (t : State), (forEach l (fun e u => trainLane k e.1.val e.2.val u) t).blend.cur = t.blend.cur :=
    fun l t => forEach_keeps (f := fun u : State => u.blend.cur) lane l t
  unfold trainStack
  dsimp only
  rw [(updMc_reach _ _ _).blend_eq rfl]
  split
  · rw [(updMc_reach _ _ _).blend_eq rfl]
  · rw [(updRecord_reach _ _).blend_eq rfl]
    split
    · rw [out, lanes, (updMc_reach _ _ _).blend_eq rfl]
    · rw [lanes, (updMc_reach _ _ _).blend_eq rfl]

theorem unparkTrained_leaves (training : List StackTraining) (s : State) : (unparkTrained training s).blend.cur = s.blend.cur ∧
    (unparkTrained training s).power = { s.power with unparking := true, selfRefresh := false } := by
  have boots : ∀ (l : List Nat) (t : State), SameExcept [.isl] t (forEach l (fun n t => updIsl t n (fun i => { i with power := 2 })) t) := fun l t =>
    .forEach (fun n u => updIsl_reach u n _) l (.refl _ t)
  unfold unparkTrained
  dsimp only
  refine ⟨?_, ?_⟩
  · rw [(boots _ _).blend_eq rfl]
    exact forEach_keeps (f := fun u : State => u.blend.cur) (trainStack_cur training) _ _
  · rw [(boots _ _).power_eq rfl]
    have same : ∀ (l : List Nat) (t : State), SameExcept [.freeCtr, .log, .isl, .pm, .mc, .blend] t (forEach l (trainStack training) t) := fun l t =>
      .forEach (trainStack_reach training) l (.refl _ t)
    rw [(same _ _).power_eq rfl]

theorem zeroScratch_cur (c : Nat) (s : State) : (zeroScratch c s).blend.cur = s.blend.cur := by
  unfold zeroScratch
  split <;> rfl

theorem powerStructure_cur (st : Structure) (s : State) : (powerStructure st s).blend.cur = s.blend.cur := by
  have isles : ∀ (l : List Nat) (m : Nat → State → State) (_ : ∀ n t, SameExcept [.isl] t (m n t)) (t : State), (forEach l m t).blend = t.blend :=
    fun l m each t => (SameExcept.forEach each l (.refl [.isl] t)).blend_eq rfl
  unfold powerStructure
  dsimp only
  rw [isles _ _ (fun _ _ => updIsl_reach _ _ _), isles _ _ (fun _ _ => powerUpIsl_reach _ _), isles _ _ (fun _ _ => updIsl_reach _ _ _),
    isles _ _ (fun _ _ => idleLinked_reach _ _)]
  exact forEach_keeps (f := fun u : State => u.blend.cur) (fun c t => by rw [(powerUpIsl_reach _ _).blend_eq rfl, zeroScratch_cur]) _ s

theorem unparkPowered_leaves (s : State) : (unparkPowered s).blend.cur = s.blend.cur ∧ (unparkPowered s).power = s.power := by
  have parts : SameExcept [.isl, .cores] (powerStructure s.blend.cur s) (unparkPowered s) :=
    .forEach (fun e t => .step (setModes_reach _ _ _ _) rfl ((setFloors_reach _ _ _ _ _).weaken rfl)) s.blend.cur.parts (.refl _ _)
  exact ⟨by rw [parts.blend_eq rfl, powerStructure_cur], by rw [parts.power_eq rfl, (powerStructure_reach _ _).power_eq rfl]⟩

/-- A start of the Carrier counts the watchdog from now. -/
theorem measureAndStart_power (s : State) : ∃ k, (measureAndStart s).power = { s.power with wdogKick := k } := by
  have on : SameExcept [.isl] s (forEach controlIsls (fun n t => updIsl t n (fun i => { i with power := 2 })) s) :=
    .forEach (fun n u => updIsl_reach u n (fun i => { i with power := 2 })) controlIsls (.refl _ s)
  unfold measureAndStart
  split
  · refine ⟨s.devTime, ?_⟩
    unfold startCarrier
    dsimp only
    rw [(carrierTakesMail_reach _).power_eq rfl, on.power_eq rfl, on.devTime_eq rfl]
  · exact ⟨_, rfl⟩

/-- What an unpark leaves. -/
theorem unpark_leaves {training : List StackTraining} (parked : s.mode = .parked) (first_ : s.power.unparking = false) :
    (unpark training s).power.unparking = true ∧ (unpark training s).power.selfRefresh = false ∧ (unpark training s).mode = .parked ∧
    (unpark training s).blend.cur = s.blend.cur ∧
    ∀ e ∈ s.blend.cur.spare, (getIsl s (islOfCore e.2)).power = 0 → (getIsl s (islOfCore e.2)).faulty = false →
      (getIsl (unpark training s) (islOfCore e.2)).power =
        if e.2 ∈ (s.blend.cur.parts.map (fun e => partPhys s.blend.cur e.1 e.2)).flatten then 2 else 1 := by
  have mode := ((unpark_reach training s).mode_eq rfl).trans parked
  rw [unpark_eq parked first_] at mode ⊢
  obtain ⟨trained, power⟩ := unparkTrained_leaves training s
  obtain ⟨cur, same⟩ := unparkPowered_leaves (unparkTrained training s)
  obtain ⟨k, kicked⟩ := measureAndStart_power (setCourierIslands (unparkTrained training s).blend.cur.role (unparkPowered (unparkTrained training s)))
  have blend := (measureAndStart_reach (setCourierIslands (unparkTrained training s).blend.cur.role (unparkPowered (unparkTrained training s)))).blend_eq rfl
  have courier := setCourierIslands_reach (unparkTrained training s).blend.cur.role (unparkPowered (unparkTrained training s))
  refine ⟨?_, ?_, mode, ?_, fun e listed gated sound => ?_⟩
  · refine (congrArg PowerState.unparking kicked).trans ?_
    rw [courier.power_eq rfl, same, power]
  · refine (congrArg PowerState.selfRefresh kicked).trans ?_
    rw [courier.power_eq rfl, same, power]
  · refine (congrArg BlendState.cur blend).trans ?_
    rw [courier.blend_eq rfl, cur, trained]
  · have low := islOfCore_low e.2
    have after := ((setCourierIslands_compute (unparkTrained training s).blend.cur.role (unparkPowered (unparkTrained training s))).trans
      (measureAndStart_compute _)) (islOfCore e.2) low
    refine (congrArg Island.power after).trans ?_
    have floors := IslesKeep.each (f := Island.power) (m := fun (e : Nat × Partition) t =>
        setModes (unparkTrained training s).blend.cur e.1 e.2 (setFloors (unparkTrained training s).blend.cur.classes e.1 e.2 (unparkTrained training s).blend.cur t))
      (fun e t => (setFloors_power _ _ _ _ t).trans (.of_same (setModes_reach _ _ _ _) rfl)) (unparkTrained training s).blend.cur.parts
      (powerStructure (unparkTrained training s).blend.cur (unparkTrained training s)) (islOfCore e.2)
    refine floors.trans ?_
    rw [trained]
    refine powerStructure_power (List.mem_map_of_mem listed) (.inl ?_)
    rw [unparkTrained_compute training s _ low]
    exact ⟨gated, sound⟩

end

end Sys2Proof.Machine
end
end

section
/-! SUPPORT. Sensors, idling and the statement O58. -/
section
namespace Sys2Proof.Machine

section
variable {s : State} {who : Agent} {ms : Fin 256}

theorem writePwr_host {g : Fin 2} {n : Nat} {f : State → State} (there : reaches s (.host g) = true) :
    writePwr true (.host g) n f s = f { s with power := { s.power with wdogMs := n } } := if_neg (by rw [there]; decide)

theorem hostParks {g : Fin 2} (there : reaches s (.host g) = true) :
    (mayPark s = true → ∃ t, exec (.pwrCtrlPark (.host g) ms) s = .next t ∧ t.power.parking = true ∧ t.blend.staged = none ∧ t.mode = .serving) ∧
    (mayPark s = false → exec (.pwrCtrlPark (.host g) ms) s = .next { s with power := { s.power with wdogMs := ms.val, parkResult := 2 } }) := by
  have does : exec (.pwrCtrlPark (.host g) ms) s = .next (park { s with power := { s.power with wdogMs := ms.val } }) :=
    congrArg Host.Outcome.next (writePwr_host there)
  have asked : mayPark { s with power := { s.power with wdogMs := ms.val } } = mayPark s := rfl
  refine ⟨fun may => ⟨_, does, park_leaves (asked.trans may)⟩, fun may => ?_⟩
  rw [does, park_refused (asked.trans may)]

theorem hostUnparks {g : Fin 2} {training : List StackTraining} (there : reaches s (.host g) = true) (parked : s.mode = .parked)
    (first_ : s.power.unparking = false) : ∃ t, exec (.pwrCtrlUnpark (.host g) ms training) s = .next t ∧ t.power.unparking = true ∧
    t.power.selfRefresh = false ∧ t.mode = .parked ∧ t.blend.cur = s.blend.cur ∧
    ∀ e ∈ s.blend.cur.spare, (getIsl s (islOfCore e.2)).power = 0 → (getIsl s (islOfCore e.2)).faulty = false →
      (getIsl t (islOfCore e.2)).power = (if e.2 ∈ (s.blend.cur.parts.map (fun e => partPhys s.blend.cur e.1 e.2)).flatten then 2 else 1) :=
  ⟨_, congrArg Host.Outcome.next (writePwr_host there),
    unpark_leaves (s := { s with power := { s.power with wdogMs := ms.val } }) parked first_⟩

theorem unparked_leaves (s : State) : (unparked s).mode = .serving ∧ (unparked s).power.unparking = false ∧ (unparked s).power.unparkRan = false ∧
    (unparked s).power.parkResult = 3 := by
  have joined : ∀ t : State, (joinRing t).mode = t.mode ∧ (joinRing t).power = t.power := fun t =>
    ⟨(joinRing_reach t).mode_eq rfl, (joinRing_reach t).power_eq rfl⟩
  unfold unparked
  obtain ⟨mode, power⟩ := joined { s with mode := .serving, power := { s.power with unparking := false, unparkRan := false, parkResult := 3 } }
  rw [mode, power]
  exact ⟨rfl, rfl, rfl, rfl⟩

theorem unparkDone_early {rs : List IslandReading} (parked : s.mode = .parked) (unparks : s.power.unparking = true) (first_ : s.power.unparkRan = false) :
    unparkDone rs s = if !readsAll rs s then s else
      if ramped (bootRun rs s) then unparked (bootRun rs s) else { bootRun rs s with power := { (bootRun rs s).power with unparkRan := true } } :=
  (if_neg (by rw [parked, unparks]; decide)).trans (if_neg (by rw [first_]; decide))

theorem unparkDone_late {rs : List IslandReading} (parked : s.mode = .parked) (unparks : s.power.unparking = true) (ran : s.power.unparkRan = true) :
    unparkDone rs s = if ramped s then unparked s else s :=
  (if_neg (by rw [parked, unparks]; decide)).trans (if_pos ran)

theorem junction_eq {n : Fin 512} {c : Nat} (known : islExists n.val = true) (on : s.mode ≠ .off) :
    junction n.val c s = readSensor n.val c { updIsl s n.val (fun i => { i with tempC := c }) with
      power := { s.power with peakC := max s.power.peakC c }
      plan := { s.plan with maxTempSince := max s.plan.maxTempSince c } } := if_neg (by rw [known]; simpa using on)

theorem sameExcept_log_power (s : State) (l : LogState) (p : PowerState) : SameExcept [.log, .power] s { s with log := l, power := p } := by
  intro q hq
  cases q with
  | log => exact absurd List.mem_cons_self hq
  | power => exact absurd (List.mem_cons_of_mem _ List.mem_cons_self) hq
  | mem => exact ⟨rfl, fun _ => rfl⟩
  | xfers => exact ⟨rfl, rfl⟩
  | _ => rfl

theorem sameExcept_plan_power (s : State) (l : PlanState) (p : PowerState) : SameExcept [.plan, .power] s { s with plan := l, power := p } := by
  intro q hq
  cases q with
  | plan => exact absurd List.mem_cons_self hq
  | power => exact absurd (List.mem_cons_of_mem _ List.mem_cons_self) hq
  | mem => exact ⟨rfl, fun _ => rfl⟩
  | xfers => exact ⟨rfl, rfl⟩
  | _ => rfl

/-- An island's reading below the level that ends in FAULTED. -/
theorem junction_below {n : Fin 512} {c : Nat} (known : islExists n.val = true) (on : s.mode ≠ .off) (below : c < 115) :
    getIsl (junction n.val c s) n.val = { getIsl s n.val with tempC := c } ∧ OtherIslands n.val s (junction n.val c s) ∧
    (junction n.val c s).power.peakC = max s.power.peakC c ∧ SameExcept [.log, .plan, .power, .isl] s (junction n.val c s) := by
  have read : SameExcept [.isl] s (updIsl s n.val (fun i => { i with tempC := c })) := updIsl_reach _ _ _
  obtain ⟨l, k, eq⟩ := readSensor_below (key := n.val) below { updIsl s n.val (fun i => { i with tempC := c }) with
    power := { s.power with peakC := max s.power.peakC c }
    plan := { s.plan with maxTempSince := max s.plan.maxTempSince c } }
  rw [junction_eq known on, eq]
  refine ⟨getIsl_setIsl _ _ _, otherIslands_setIsl _, rfl, ?_⟩
  exact .step (sameExcept_log_power _ l _) rfl (.step (sameExcept_plan_power _ _ _) rfl (read.weaken rfl))

theorem stackTemp_eq {k c : Nat} (on : s.mode ≠ .off) : stackTemp k c s = readSensor (512 + k) c (updMc s k (fun m => { m with tempC := c })) := if_neg on

theorem stackTemp_below {k c : Nat} (on : s.mode ≠ .off) (below : c < 115) : getMc (stackTemp k c s) k = { getMc s k with tempC := c } ∧
    SameExcept [.log, .power, .mc] s (stackTemp k c s) := by
  obtain ⟨l, p, eq⟩ := readSensor_below (key := 512 + k) below (updMc s k (fun m => { m with tempC := c }))
  rw [stackTemp_eq on, eq]
  exact ⟨getMc_setMc _ _ _, .step (sameExcept_log_power _ l _) rfl ((updMc_reach _ _ _).weaken rfl)⟩

theorem criticalTimeout_ends (on : s.mode ≠ .off) (sound : s.mode ≠ .faulted) (long : ∃ e ∈ s.power.critical, e.2 + 1000000000 ≤ s.devTime) :
    (criticalTimeout s).mode = .faulted ∧ (criticalTimeout s).pm.fault = 5 := by
  obtain ⟨e, listed, late⟩ := long
  have due : criticalTimeout s = enterFaulted 5 (logCritical s) := by
    refine if_neg (not_or.2 ⟨on, not_or.2 ⟨sound, fun all => ?_⟩⟩)
    have early := of_decide_eq_true (List.all_eq_true.1 all e listed)
    omega
  have mode : (logCritical s).mode = s.mode := (logCritical_reach s).mode_eq rfl
  obtain ⟨faulted, fault, -⟩ := enterFaulted_leaves (s := logCritical s) (fault := 5) (by rwa [mode]) (by rwa [mode])
  rw [due]
  exact ⟨faulted, fault⟩

end

/-- Settles O58: each command's step as its rule gives it, a park and an unpark by what their parts leave. -/
theorem parkHeatAndIdleness : Obligations.ParkHeatAndIdleness := by
  unfold Obligations.ParkHeatAndIdleness
  intro who ms training rs n c w stack core s p host used done b back only hot
  refine ⟨?_, parkDone_leaves, fun parked unparks => ⟨fun first_ => ⟨fun short => ?_, fun full ready => ?_, fun full slow => ?_⟩, fun ran => ⟨fun ready => ?_, fun slow => ?_⟩⟩,
    fun known on => ⟨?_, fun below => ?_⟩, fun on => ⟨?_, fun below => ?_⟩, fun on sound long => ?_, fun early => ?_, rfl, fun due => ?_,
    fun free apart => ?_, fun movable runs idle => ?_, fun busy => ?_⟩
  · rintro there ⟨g, rfl⟩
    obtain ⟨parks, refused⟩ := hostParks (ms := ms) there
    exact ⟨parks, refused, hostUnparks there⟩
  · exact congrArg Host.Outcome.next ((unparkDone_early parked unparks first_).trans (if_pos (by rw [short]; decide)))
  · exact ⟨_, congrArg Host.Outcome.next ((unparkDone_early parked unparks first_).trans ((if_neg (by rw [full]; decide)).trans (if_pos ready))), unparked_leaves _⟩
  · exact congrArg Host.Outcome.next ((unparkDone_early parked unparks first_).trans ((if_neg (by rw [full]; decide)).trans (if_neg (by rw [slow]; decide))))
  · exact ⟨_, congrArg Host.Outcome.next ((unparkDone_late parked unparks ran).trans (if_pos ready)), unparked_leaves _⟩
  · exact congrArg Host.Outcome.next ((unparkDone_late parked unparks ran).trans (if_neg (by rw [slow]; decide)))
  · obtain ⟨cool, rises, stays, ends⟩ := readSensor_leaves n.val c.val { updIsl s n.val (fun i => { i with tempC := c.val }) with
      power := { s.power with peakC := max s.power.peakC c.val }
      plan := { s.plan with maxTempSince := max s.plan.maxTempSince c.val } } on
    have does : exec (.junctionTempChange n c) s = .next (junction n.val c.val s) := rfl
    rw [← junction_eq known on] at cool rises stays ends
    exact ⟨fun h => ⟨_, does, cool h⟩, fun h h' fresh => ⟨_, does, rises h h' fresh⟩, fun h h' a was => ⟨_, does, stays h h' a was⟩,
      fun h sound => ⟨_, does, ends h sound⟩⟩
  · obtain ⟨island, others, peak, same⟩ := junction_below known on below
    exact ⟨_, rfl, ⟨island, others⟩, peak, same⟩
  · obtain ⟨cool, rises, stays, ends⟩ := readSensor_leaves (512 + stack.val) c.val (updMc s stack.val (fun m => { m with tempC := c.val })) on
    have does : exec (.hbmTempChange stack c) s = .next (stackTemp stack.val c.val s) := rfl
    rw [← stackTemp_eq on] at cool rises stays ends
    exact ⟨fun h => ⟨_, does, cool h⟩, fun h h' fresh => ⟨_, does, rises h h' fresh⟩, fun h h' a was => ⟨_, does, stays h h' a was⟩,
      fun h sound => ⟨_, does, ends h sound⟩⟩
  · obtain ⟨mc, same⟩ := stackTemp_below (k := stack.val) on below
    exact ⟨_, rfl, mc, same⟩
  · exact ⟨_, rfl, criticalTimeout_ends on sound long⟩
  · exact congrArg Host.Outcome.next (if_pos (.inr (.inr (List.all_eq_true.2 fun e listed => decide_eq_true (early e listed)))))
  · exact ⟨_, rfl, (coreReset_leaves due).2⟩
  · exact congrArg Host.Outcome.next (if_neg (by rw [free, apart]; decide))
  · exact congrArg Host.Outcome.next (if_pos ⟨movable, runs, idle⟩)
  · refine congrArg Host.Outcome.next (if_neg fun all => ?_)
    obtain ⟨-, runs, idle⟩ := all
    obtain gated | works := busy
    · exact gated runs
    · rw [works] at idle
      exact absurd idle (by decide)

end Sys2Proof.Machine
end
end

section
/-! SUPPORT. Blend loads (R37-R44, R63-R70, R415, R416, R488): their calls, the checks of their image, and the statement O53. -/
section
namespace Sys2Proof.Machine

/-! ### A write of HBM that meets no error -/

theorem lineWrite_plain (s : State) (a : Nat) (d : PData) : SameExcept [.mem, .poison, .cache, .mc] s (lineWrite s none a d []).2 := by
  unfold lineWrite
  dsimp only [cacheCheck, List.filter_nil, forEach]
  split
  · exact (setCache_reach _ _ _).weaken rfl
  · exact .step (updMc_reach _ _ _) rfl (.step (memWrite_reach _ _ _) rfl ((setCache_reach _ _ _).weaken rfl))

theorem accessWrite_plain (s : State) (a : Nat) (d : PData) : SameExcept [.log, .mem, .poison, .cache, .mc] s (accessWrite s none a d []) := by
  unfold accessWrite
  split
  · exact (offlineAccess_reach _ _).weaken rfl
  · refine .step (countAccess_reach _ _ _) rfl ?_
    rw [linesWriteGo_eq]
    exact (SameExcept.forEach (fun (p : Nat × Nat) t => lineWrite_plain t p.1 (sliceAt d (p.1 - a) p.2)) (linePieces a d.length) (.refl _ s)).weaken rfl

theorem hbmWrite_plain (s : State) (a : Nat) (d : PData) : SameExcept [.log, .mem, .poison, .cache, .mc] s (hbmWrite s none a d []) :=
  .forEach (fun (p : Nat × Nat) t => accessWrite_plain t p.1 (sliceAt d (p.1 - a) p.2)) (unitPieces a d.length) (.refl _ s)

/-! ### The calls that begin a load (R415, R416, R488) -/

section
variable {s : State} {who : Agent} {k : Nat} {rule : CallRule} {notify : Bool} {vector : Nat} {body : CallSlot → Option Nat → State → State × CallEnd}

/-- The state in which an admitted call of a rule works. -/
abbrev workState (s : State) (who : Agent) (k : Nat) (rule : CallRule) (notify : Bool) (vector : Nat) : State :=
  callBegun s who k rule.func notify vector

theorem callBegun_reach (s : State) (who : Agent) (k func : Nat) (notify : Bool) (vec : Nat) : SameExcept [.pm] s (callBegun s who k func notify vec) :=
  setSlot_reach _ _ _

theorem callBegun_slot (s : State) (who : Agent) (k func : Nat) (notify : Bool) (vec : Nat) :
    getSlot (callBegun s who k func notify vec) k = begunSlot s who k func notify vec := getSlot_setSlot _ _ _

/-- An admitted call that is answered at once. -/
theorem pmCall_answers {t : State} {result : Nat} (admitted : CallAdmitted s who k rule)
    (answer : body (begunSlot s who k rule.func notify vector) (agentHost s who) (callBegun s who k rule.func notify vector) =
      (callBegun s who k rule.func notify vector, .now result [])) (does : t = pmCall rule (fun _ => true) who k notify vector body s) :
    CallEnded t k result [] ∧ t.blend = s.blend := by
  have begun := callBegun_reach s who k rule.func notify vector
  have slot := callBegun_slot s who k rule.func notify vector
  rw [does, pmCall_of_admitted admitted (fun _ => true) notify vector body rfl, answer]
  refine ⟨finishCall_ends (by rw [slot]; rfl) (by rw [slot]; rfl), ?_⟩
  dsimp only
  rw [(finishCall_reach _ _ _ _).blend_eq rfl, begun.blend_eq rfl]

/-- An admitted call that begins a load. -/
theorem pmCall_begins {t : State} {l : BlendLoad} (admitted : CallAdmitted s who k rule)
    (later : body (begunSlot s who k rule.func notify vector) (agentHost s who) (callBegun s who k rule.func notify vector) =
      (setLoad (callBegun s who k rule.func notify vector) (some l), .later)) (does : t = pmCall rule (fun _ => true) who k notify vector body s) :
    t.blend = { s.blend with load := some l } ∧ (getSlot t k).state = 1 ∧ SameExcept [.pm, .blend] s t := by
  have begun := callBegun_reach s who k rule.func notify vector
  have slot := callBegun_slot s who k rule.func notify vector
  rw [does, pmCall_of_admitted admitted (fun _ => true) notify vector body rfl, later]
  exact ⟨rfl, (congrArg CallSlot.state slot).trans rfl, .step (setLoad_reach _ _) rfl (begun.weaken rfl)⟩

/-- What a call that names a host image does with it. -/
theorem acceptImage_cases {kind : LoadKind} {limit addr len : Nat} {x : CallSlot} {caller : Option Nat} {t : State} :
    (imageAddrOk (caller.getD 0) addr len = false → acceptImage kind limit addr len k x caller t = (t, .now (loadCode pmBadArg 0) [])) ∧
    (imageAddrOk (caller.getD 0) addr len = true →
      (limit < len → acceptImage kind limit addr len k x caller t = (t, .now (loadCode 0x03 0) [])) ∧
      (len ≤ limit → 0x100 + sigBlockLen ≤ len →
        (loadRuns t = true → acceptImage kind limit addr len k x caller t = (t, .now (loadCode 0x24 0) [])) ∧
        (loadRuns t = false → kind = .full ∨ reserveLost t = false →
          acceptImage kind limit addr len k x caller t = (setLoad t (some (newLoad kind k len .copying [] 0 x)), .later)))) := by
  unfold acceptImage
  refine ⟨fun wrong => if_pos (by rw [wrong]; rfl), fun right => ?_⟩
  rw [if_neg (by rw [right]; decide)]
  refine ⟨fun long => if_pos (.inl long), fun fits holds => ?_⟩
  rw [if_neg (by omega)]
  refine ⟨fun runs => if_pos runs, fun free there => ?_⟩
  rw [if_neg (by rw [free]; decide), if_neg (fun both => ?_)]
  obtain full | inService := there
  · exact both.1 full
  · exact absurd both.2 (by rw [inService]; decide)

theorem loadRuns_begun (s : State) (who : Agent) (k func : Nat) (notify : Bool) (vec : Nat) : loadRuns (callBegun s who k func notify vec) = loadRuns s := rfl
theorem reserveLost_begun (s : State) (who : Agent) (k func : Nat) (notify : Bool) (vec : Nat) :
    reserveLost (callBegun s who k func notify vec) = reserveLost s := rfl

/-- REBLEND past the arguments that may not be. -/
theorem acceptReblend_past {x : CallSlot} {caller : Option Nat} {t : State} (source : argAt x 0 1 ≤ 1) (mode : argAt x 1 1 ≤ 1)
    (limit : ¬(argAt x 1 1 = 0 ↔ argAt x 4 4 = 0)) :
    (argAt x 0 1 = 0 → acceptReblend k x caller t = acceptImage .reblend 0x1000000 (argAt x 8 8) (argAt x 0x10 4) k x caller t) ∧
    (argAt x 0 1 = 1 → argAt x 8 8 = 0 → argAt x 0x10 4 = 0 → loadRuns t = false →
      (t.blend.staged = none → acceptReblend k x caller t = (t, .now (loadCode 0x21 0) [])) ∧
      ∀ img m, reserveLost t = false → t.blend.staged = some (img, m) →
        acceptReblend k x caller t = (setLoad t (some (newLoad .reblend k img.length .validating img m x)), .later)) := by
  unfold acceptReblend
  dsimp only
  have passes : argAt x 0 1 = 0 ∨ (argAt x 8 8 = 0 ∧ argAt x 0x10 4 = 0) →
      ¬(1 < argAt x 0 1 ∨ 1 < argAt x 1 1 ∨ (argAt x 1 1 = 0) = (argAt x 4 4 = 0) ∨ (argAt x 0 1 = 1 ∧ (argAt x 8 8 ≠ 0 ∨ argAt x 0x10 4 ≠ 0))) := by
    rw [eq_iff_iff]
    omega
  refine ⟨fun host => ?_, fun stage addr len free => ?_⟩
  · rw [if_neg (passes (.inl host)), if_pos host]
  · rw [if_neg (passes (.inr ⟨addr, len⟩)), if_neg (by omega), if_neg (by rw [free]; decide)]
    refine ⟨fun none_ => ?_, fun img m there staged => ?_⟩
    · rw [none_]
      split <;> rfl
    · rw [if_neg (by rw [there]; decide), staged]

theorem acceptReblend_refused {x : CallSlot} {caller : Option Nat} {t : State} (limit : argAt x 1 1 = 0 ↔ argAt x 4 4 = 0) :
    acceptReblend k x caller t = (t, .now (loadCode pmBadArg 0) []) := if_pos (.inr (.inr (.inl (propext limit))))

end

/-! ### A load's phases (R43, R44, R63) -/

section
variable {s t : State} {l : BlendLoad}

theorem inPhase_does {p : LoadPhase} {f : BlendLoad → State → State} (load : s.blend.load = some l) (phase : l.phase = p)
    (mode : s.mode = (if l.kind = .full then .awaitBlend else .serving)) : inPhase p f s = f l s := by
  rw [inPhase, load]
  exact if_pos ⟨phase, mode⟩

theorem endLoad_leaves {r : Dword} (busy : (getSlot s l.slot).state = 1) (kept : (getSlot s l.slot).discard = false) :
    CallEnded (endLoad l r s) l.slot r.toNat [] ∧ (endLoad l r s).blend = { s.blend with load := none } := by
  refine ⟨finishCall_ends (s := setLoad s none) busy kept, ?_⟩
  rw [endLoad, (finishCall_reach _ _ _ _).blend_eq rfl]
  rfl

/-- A rejection: nothing changes but that the load ends, and it is logged. -/
theorem rejectLoad_leaves {f : BlendFail} {phase : Nat} (busy : (getSlot s l.slot).state = 1) (kept : (getSlot s l.slot).discard = false) :
    (rejectLoad l f phase s).blend = { s.blend with load := none } ∧ CallEnded (rejectLoad l f phase s) l.slot (loadResult f phase).toNat [] ∧
    LogGrows s.log (rejectLoad l f phase s).log ∧ (rejectLoad l f phase s).log ≠ s.log := by
  obtain ⟨d, eq⟩ : ∃ d, rejectLoad l f phase s = endLoad l (loadResult f phase) (logEvent .blendRejected islTrust d s) :=
    ⟨leBytes 8 (loadResult f phase).toNat ++ leBytes 8 (hdrBlendId l.image), rfl⟩
  have same := logEvent_reach .blendRejected islTrust d s
  have slot : getSlot (logEvent .blendRejected islTrust d s) l.slot = getSlot s l.slot := same.getSlot_eq rfl _
  obtain ⟨ended, blend⟩ := endLoad_leaves (s := logEvent .blendRejected islTrust d s) (l := l) (r := loadResult f phase) (by rw [slot]; exact busy)
    (by rw [slot]; exact kept)
  have log : (endLoad l (loadResult f phase) (logEvent .blendRejected islTrust d s)).log = (logEvent .blendRejected islTrust d s).log :=
    (finishCall_reach _ _ _ _).log_eq rfl
  rw [eq, log, blend, same.blend_eq rfl]
  exact ⟨rfl, ended, logEvent_grows _ _ _ _, LogGrows.ne_of_event (.refl _)⟩

theorem hbmWrite_grows (s : State) (a : Nat) (d : PData) : LogGrows s.log (hbmWrite s none a d []).log := by
  have access : ∀ (t : State) (b : Nat) (e : PData), LogGrows t.log (accessWrite t none b e []).log := fun t b e => by
    unfold accessWrite
    split
    · exact logLimited_grows _ _ _ t
    · dsimp only
      have lines : (linesWriteGo none [] b e (linePieces b e.length) t).2.log = t.log := by
        rw [linesWriteGo_eq]
        exact forEach_keeps (f := State.log) (m := fun (p : Nat × Nat) u => (lineWrite u none p.1 (sliceAt e (p.1 - b) p.2) []).2)
          (fun p u => (lineWrite_plain u p.1 (sliceAt e (p.1 - b) p.2)).log_eq rfl) _ t
      rw [(countAccess_reach _ _ _).log_eq rfl, lines]
      exact .refl _
  have each : ∀ (ps : List (Nat × Nat)) (t : State), LogGrows t.log (forEach ps (fun p u => accessWrite u none p.1 (sliceAt d (p.1 - a) p.2) []) t).log := by
    intro ps
    induction ps with
    | nil => exact fun t => .refl _
    | cons p ps ih => exact fun t => (access t p.1 _).trans (ih _)
  exact each _ s

end

end Sys2Proof.Machine
end
end

section
/-! SUPPORT. A re-blend's target stops (R70, R71), and the statement O53. -/
section
namespace Sys2Proof.Machine

/-! ### The target's queues and invocations (R70, R71) -/

section
variable {s t u : State} {β : Type} {g : Invocation → β}

theorem leaveLink_stands (blind : ∀ x b, g { x with blockedSince := b } = g x) (gr link sem : Nat) (s : State) :
    QueuesStand s (leaveLink gr link sem s) ∧ InvsKeep g s (leaveLink gr link sem s) := by
  have before (x : Grinder) := setGrinder_reach s gr x
  exact ⟨((before _).queuesStand rfl).trans (semSettle_queues _ _ _ _), ((before _).invsKeep rfl).trans (semSettle_invsKeep blind _ _ _ _)⟩

theorem stopBatch_stands (blind : ∀ x b, g { x with blockedSince := b } = g x) (code gr : Nat) (b : Batch) (s : State) :
    QueuesStand s (stopBatch code gr b s) ∧ InvsKeep g s (stopBatch code gr b s) := by
  have forced (m : Batch → Batch) : QueuesStand s (updBatch gr b.id m s) ∧ InvsKeep g s (updBatch gr b.id m s) :=
    ⟨(updBatch_reach gr b.id m s).queuesStand rfl, (updBatch_reach gr b.id m s).invsKeep rfl⟩
  have then_ {t : State} (h : QueuesStand s t ∧ InvsKeep g s t) (link sem : Nat) :
      QueuesStand s (leaveLink gr link sem t) ∧ InvsKeep g s (leaveLink gr link sem t) :=
    ⟨h.1.trans (leaveLink_stands blind gr link sem t).1, h.2.trans (leaveLink_stands blind gr link sem t).2⟩
  unfold stopBatch
  split
  · exact ⟨rfl, .refl g s⟩
  dsimp only
  split
  · exact forced _
  split
  · split
    · exact then_ (then_ (forced _) _ _) _ _
    · exact then_ (forced _) _ _
  · split
    · exact then_ (forced _) _ _
    · exact forced _

theorem abortBatches_stands (blind : ∀ x b, g { x with blockedSince := b } = g x) (i : Nat) (s : State) :
    QueuesStand s (abortBatches i s) ∧ InvsKeep g s (abortBatches i s) := by
  have stopped (gr : Nat) (l : List Batch) (t : State) : QueuesStand t (forEach l (stopBatch 5 gr) t) ∧ InvsKeep g t (forEach l (stopBatch 5 gr) t) :=
    ⟨.forEach (fun b u => (stopBatch_stands blind 5 gr b u).1) l t, .forEach (fun b u => (stopBatch_stands blind 5 gr b u).2) l t⟩
  have one (gr : Nat) (t : State) (m : Grinder) (l : List Batch) (c : Prop) [Decidable c] :
      QueuesStand t (forEach l (stopBatch 5 gr) (if c then setGrinder t gr m else t)) ∧
      InvsKeep g t (forEach l (stopBatch 5 gr) (if c then setGrinder t gr m else t)) := by
    split
    · exact ⟨((setGrinder_reach t gr m).queuesStand rfl).trans (stopped gr l _).1, ((setGrinder_reach t gr m).invsKeep rfl).trans (stopped gr l _).2⟩
    · exact stopped gr l t
  exact ⟨.forEach (fun gr t => (one gr t _ _ _).1) _ s, .forEach (fun gr t => (one gr t _ _ _).2) _ s⟩

theorem endEarly_partition (i : Nat) (st : Status) (code : Nat) (s : State) : InvsKeep Invocation.partition s (endEarly i st code s) := by
  cases stands : getInv s i with
  | none => rw [endEarly, stands]; exact .refl _ s
  | some x =>
    unfold endEarly
    simp only [stands]
    split
    · exact .refl _ s
    generalize (if x.refused = true then (Status.segmentFault, 0) else (st, code)) = e
    have once (y : Invocation) (same : y.partition = x.partition) (j : Nat) :
        (getInv (setInv s i y) j).map Invocation.partition = (getInv s j).map Invocation.partition := InvsKeep.setInv stands same j
    have twice (y z : Invocation) (same : z.partition = x.partition) (j : Nat) :
        (getInv (setInv (setInv s i y) i z) j).map Invocation.partition = (getInv s j).map Invocation.partition := by
      by_cases here : j = i
      · rw [here, getInv_setInv, stands, Option.map_some, Option.map_some, same]
      · rw [getInv_setInv_ne _ z here, getInv_setInv_ne s y here]
    cases state : x.state with
    | switchedOut => cases slot : x.slot with
      | some k => exact twice _ _ rfl
      | none => exact twice _ _ rfl
    | resident | switching | resuming =>
      intro j
      refine (InvsKeep.forEach (stopCore_invsKeep (fun _ _ => rfl)) _ _ j).trans (once _ ?_ j)
      rfl

/-- The invocation that an early end names has ended. -/
theorem endEarly_ended (i : Nat) (st : Status) (code : Nat) {y : Invocation} (stands : getInv (endEarly i st code s) i = some y) : y.early.isSome = true := by
  obtain ⟨x, before, -⟩ : ∃ x, getInv s i = some x ∧ x.partition = y.partition := by
    have same := endEarly_partition i st code s i
    rw [stands] at same
    obtain ⟨x, before, eq⟩ := Option.map_eq_some_iff.1 same.symm
    exact ⟨x, before, eq⟩
  cases first_ : x.early with
  | none =>
    obtain ⟨z, after, ended⟩ := endEarly_first st code before first_
    obtain rfl := Option.some.inj (after.symm.trans stands)
    rw [ended]
    rfl
  | some e =>
    obtain ⟨z, after, ended⟩ := (endEarly_stays i st code s).ends i x e before first_
    obtain rfl := Option.some.inj (after.symm.trans stands)
    rw [ended]
    rfl

/-- The invocations of a partition that have not ended are listed. -/
def OpenIn (l : List Nat) (pid : Nat) (t : State) : Prop := ∀ i y, getInv t i = some y → y.partition = pid → y.early.isSome = false → i ∈ l

/-- An invocation of the target is aborted, its batches first. -/
def stopForLoad (i : Nat) (t : State) : State := endEarly i .aborted 0 (abortBatches i t)

theorem stopForLoad_open {i pid : Nat} {l : List Nat} (listed : OpenIn (i :: l) pid t) : OpenIn l pid (stopForLoad i t) := by
  intro j y stands named unended
  by_cases same : j = i
  · subst same
    rw [endEarly_ended j .aborted 0 stands] at unended
    cases unended
  have batches : InvsKeep (fun x => (x.early, x.partition)) t (abortBatches i t) := (abortBatches_stands (fun _ _ => rfl) i t).2
  have kept := endEarly_partition i .aborted 0 (abortBatches i t) j
  rw [show getInv (endEarly i .aborted 0 (abortBatches i t)) j = some y from stands] at kept
  obtain ⟨x, before, part⟩ := Option.map_eq_some_iff.1 kept.symm
  have first_ : x.early = none := by
    cases early : x.early with
    | none => rfl
    | some e =>
      obtain ⟨z, after, ended⟩ := (endEarly_stays i .aborted 0 (abortBatches i t)).ends j x e before early
      obtain rfl := Option.some.inj (after.symm.trans stands)
      rw [ended] at unended
      cases unended
  have begun := batches j
  rw [before] at begun
  obtain ⟨w, there, eq⟩ := Option.map_eq_some_iff.1 begun.symm
  obtain ⟨early, partition⟩ := Prod.ext_iff.1 eq
  dsimp only at early partition
  have member := listed j w there (partition.trans (part.trans named)) (by rw [early, first_]; rfl)
  exact (List.mem_cons.1 member).resolve_left same

theorem abortAll_open {pid : Nat} : ∀ (l : List Nat) (t : State), OpenIn l pid t → OpenIn [] pid (forEach l stopForLoad t)
  | [], _, h => h
  | _ :: l, _, h => abortAll_open l _ (stopForLoad_open h)

theorem abortAll_queues (l : List Nat) (t : State) : QueuesStand t (forEach l stopForLoad t) :=
  .forEach (fun i u => ((abortBatches_stands (g := Invocation.early) (fun _ _ => rfl) i u).1).trans (endEarly_queues i .aborted 0 _)) l t

/-- The target's fetched envelopes are dropped. -/
def dropFetched (l : BlendLoad) (s : State) : State :=
  forEach (queuesFor s l.target) (fun q t => updQ t q (fun x => { x with staged := [] })) { s with blend := { s.blend with quiesced := setIns s.blend.quiesced l.target } }

theorem quiesce_eq (l : BlendLoad) (s : State) :
    quiesce l s = if l.abortMode then forEach (invsOf (dropFetched l s) l.target) stopForLoad (dropFetched l s) else dropFetched l s := rfl

theorem dropFetched_reach (l : BlendLoad) (s : State) :
    SameExcept [.qs] { s with blend := { s.blend with quiesced := setIns s.blend.quiesced l.target } } (dropFetched l s) :=
  .forEach (fun q t => updQ_reach t q (fun x => { x with staged := [] })) (queuesFor s l.target) (.refl _ _)

theorem dropFetched_queues (l : BlendLoad) (s : State) : ∀ q ∈ queuesFor s l.target, (getQ (dropFetched l s) q).staged = [] :=
  forEach_establishes (m := fun q t => updQ t q (fun x => { x with staged := [] })) (P := fun q t => (getQ t q).staged = [])
    (fun q t => by rw [updQ, getQ_setQ]) (fun q r t none_ => by
      by_cases same : q = r
      · subst same
        rw [updQ, getQ_setQ]
      · rw [updQ, getQ_setQ_ne _ _ same, none_]) (queuesFor s l.target) _

theorem invsOf_open (pid : Nat) (s : State) : OpenIn (invsOf s pid) pid s := fun i y stands named _ =>
  List.mem_map.2 ⟨(i, y), List.mem_filter.2 ⟨tabFind_listed stands, by simpa using named⟩, rfl⟩

/-- A target that stops fetches no more, and what it has fetched is dropped; in abort mode its invocations have ended. -/
theorem quiesce_leaves (l : BlendLoad) (s : State) : (quiesce l s).blend = { s.blend with quiesced := setIns s.blend.quiesced l.target } ∧
    (∀ q ∈ queuesFor s l.target, (getQ (quiesce l s) q).staged = []) ∧
    (l.abortMode = true → ∀ i y, getInv (quiesce l s) i = some y → y.partition = l.target → y.early.isSome = true) := by
  have dropped := dropFetched_reach l s
  have aborted : ∀ (ids : List Nat) (t : State), SameExcept [.isl, .xfers, .qs, .sems, .cores, .links, .grinders] t (forEach ids stopForLoad t) := fun ids t =>
    .forEach (fun i u => .step (endEarly_reach _ _ _ _) rfl ((abortBatches_reach i u).weaken rfl)) ids (.refl _ t)
  rw [quiesce_eq]
  cases mode : l.abortMode with
  | false =>
    rw [if_neg Bool.false_ne_true]
    exact ⟨dropped.blend_eq rfl, dropFetched_queues l s, nofun⟩
  | true =>
    rw [if_pos rfl]
    refine ⟨((aborted _ _).blend_eq rfl).trans (dropped.blend_eq rfl), fun q listed => ?_, fun _ i y stands named => ?_⟩
    · rw [getQ, abortAll_queues, ← getQ]
      exact dropFetched_queues l s q listed
    · have ended := abortAll_open (invsOf (dropFetched l s) l.target) (dropFetched l s) (invsOf_open _ _) i y stands named
      cases early : y.early.isSome with
      | true => rfl
      | false => exact absurd (ended early) List.not_mem_nil

end

/-! ### The statement -/

section
variable {s : State} {l : BlendLoad} {b : List Byte}

theorem copied_fails (busy : (getSlot s l.slot).state = 1) (kept : (getSlot s l.slot).discard = false) :
    (copied none l s).blend = { s.blend with load := none } ∧ CallEnded (copied none l s) l.slot (loadResult (failPlain pmHostFetch) 0).toNat [] ∧
    (copied none l s).log ≠ s.log := by
  obtain ⟨blend, ended, -, logged⟩ := rejectLoad_leaves (l := { l with image := [] }) (f := failPlain pmHostFetch) (phase := 0) busy kept
  exact ⟨blend, ended, logged⟩

/-- The image in its half of the staging area. -/
def imageStaged (b : List Byte) (l : BlendLoad) (s : State) : State :=
  let t := hbmWrite s none (stagingBase s l.kind) (clean (padTo l.len b)) []
  if l.kind = .stage then { t with blend := { t.blend with staged := none } } else t

theorem copied_eq (b : List Byte) (l : BlendLoad) (s : State) : copied (some b) l s =
    match checkHeader (padTo l.len b) l.len (decide (l.kind ≠ .full)) with
    | some f => rejectLoad { l with image := padTo l.len b } f 0 (imageStaged b l s)
    | none => setLoad (imageStaged b l s) (some { l with image := padTo l.len b, phase := .measuring }) := rfl

theorem imageStaged_leaves (b : List Byte) (l : BlendLoad) (s : State) : (imageStaged b l s).blend.cur = s.blend.cur ∧ (imageStaged b l s).pm = s.pm ∧
    LogGrows s.log (imageStaged b l s).log ∧
    (imageStaged b l s).mem = (hbmWrite s none (stagingBase s l.kind) (clean (padTo l.len b)) []).mem := by
  have written := hbmWrite_plain s (stagingBase s l.kind) (clean (padTo l.len b))
  have grows := hbmWrite_grows s (stagingBase s l.kind) (clean (padTo l.len b))
  have cur := congrArg BlendState.cur (written.blend_eq rfl)
  unfold imageStaged
  dsimp only
  split
  · exact ⟨cur, written.pm_eq rfl, grows, rfl⟩
  · exact ⟨cur, written.pm_eq rfl, grows, rfl⟩

theorem copied_rejects {f : BlendFail} (busy : (getSlot s l.slot).state = 1) (kept : (getSlot s l.slot).discard = false)
    (fails : checkHeader (padTo l.len b) l.len (decide (l.kind ≠ .full)) = some f) : (copied (some b) l s).blend.load = none ∧
    (copied (some b) l s).blend.cur = s.blend.cur ∧ CallEnded (copied (some b) l s) l.slot (loadResult f 0).toNat [] ∧ (copied (some b) l s).log ≠ s.log := by
  obtain ⟨cur, pm, grows, -⟩ := imageStaged_leaves b l s
  obtain ⟨d, eq⟩ : ∃ d, rejectLoad { l with image := padTo l.len b } f 0 (imageStaged b l s) =
      endLoad { l with image := padTo l.len b } (loadResult f 0) (logEvent .blendRejected islTrust d (imageStaged b l s)) :=
    ⟨leBytes 8 (loadResult f 0).toNat ++ leBytes 8 (hdrBlendId (padTo l.len b)), rfl⟩
  have slot := getSlot_of_pm pm l.slot
  obtain ⟨blend, ended, -, -⟩ := rejectLoad_leaves (s := imageStaged b l s) (l := { l with image := padTo l.len b }) (f := f) (phase := 0)
    (by rw [slot]; exact busy) (by rw [slot]; exact kept)
  have log : (endLoad { l with image := padTo l.len b } (loadResult f 0) (logEvent .blendRejected islTrust d (imageStaged b l s))).log =
      (logEvent .blendRejected islTrust d (imageStaged b l s)).log := (finishCall_reach _ _ _ _).log_eq rfl
  rw [copied_eq, fails]
  refine ⟨congrArg BlendState.load blend, (congrArg BlendState.cur blend).trans cur, ended, ?_⟩
  dsimp only
  rw [eq, log]
  exact grows.ne_after (.refl _)

theorem copied_passes (passes : checkHeader (padTo l.len b) l.len (decide (l.kind ≠ .full)) = none) :
    (copied (some b) l s).blend.load = some { l with image := padTo l.len b, phase := .measuring } ∧
    (copied (some b) l s).mem = (hbmWrite s none (stagingBase s l.kind) (clean (padTo l.len b)) []).mem := by
  obtain ⟨-, -, -, mem⟩ := imageStaged_leaves b l s
  rw [copied_eq, passes]
  exact ⟨rfl, mem⟩

theorem signatureDone_cases (l : BlendLoad) (s : State) :
    (checkSignature s blendContext l.image ≠ 0 → signatureDone l s = rejectLoad l (failPlain (checkSignature s blendContext l.image)) 2 s) ∧
    (checkSignature s blendContext l.image = 0 →
      (l.kind = .stage → signatureDone l s =
        endLoad l (loadResult (failPlain 0) 6) { s with blend := { s.blend with staged := some (l.image, l.meas) } }) ∧
      (l.kind ≠ .stage → signatureDone l s = setLoad s (some { l with phase := .validating }))) := by
  unfold signatureDone
  generalize checkSignature s blendContext l.image = code
  refine ⟨fun wrong => if_pos wrong, fun right => ?_⟩
  dsimp only
  rw [if_neg (by rw [right]; decide)]
  exact ⟨fun stage => if_pos stage, fun other => if_neg other⟩

/-- What the validated image's load goes on with. -/
def validLoad (s : State) (l : BlendLoad) (next : Structure) : BlendLoad :=
  { l with next := next, target := hdrTarget l.image, roleChange := hdrRoleChange l.image, started := s.devTime }

theorem validated_cases (l : BlendLoad) (s : State) :
    (∀ f st, validateImage s l.image = (some f, st) → validated l s = rejectLoad l f 3 s) ∧
    (∀ next, validateImage s l.image = (none, next) →
      (l.kind = .full → validated l s = setLoad s (some { validLoad s l next with phase := .applying })) ∧
      (l.kind ≠ .full → validated l s = quiesce (validLoad s l next) (setLoad s (some { validLoad s l next with phase := .stopping })))) := by
  unfold validated
  generalize validateImage s l.image = r
  refine ⟨?_, ?_⟩
  · rintro f st rfl
    rfl
  · rintro next rfl
    exact ⟨fun full => if_pos full, fun other => if_neg other⟩

/-- A re-blend past its checks: the target stops. -/
theorem quiesced_leaves (s : State) (v : BlendLoad) : let t := quiesce v (setLoad s (some { v with phase := .stopping }))
    t.blend.load = some { v with phase := .stopping } ∧ v.target ∈ t.blend.quiesced ∧ (∀ q ∈ queuesFor s v.target, (getQ t q).staged = []) ∧
    (v.abortMode = true → ∀ i y, getInv t i = some y → y.partition = v.target → y.early.isSome = true) := by
  obtain ⟨blend, queues, ends⟩ := quiesce_leaves v (setLoad s (some { v with phase := .stopping }))
  refine ⟨congrArg BlendState.load blend, ?_, queues, ends⟩
  rw [blend]
  exact mem_setIns.2 (.inl rfl)

end

section
variable {s : State} {who : Agent} {slot : Fin 12} {notify : Bool} {vector : Fin 1024}

/-- What BLEND_LOAD and BLEND_STAGE do (R66, R415). -/
theorem imageLoad_does {c : Instr} {kind : LoadKind} {rule : CallRule} {limit : Nat} (admitted : CallAdmitted s who slot.val rule)
    (does : exec c s = .next (pmCall rule (fun _ => true) who slot.val notify vector.val (fun x h t =>
      acceptImage kind limit (argAt x 0 8) (argAt x 8 4) slot.val x h t) s)) :
    let x := getSlot s slot.val
    let half := (agentHost s who).getD 0
    let sized := imageAddrOk half (argAt x 0 8) (argAt x 8 4) = true ∧ argAt x 8 4 ≤ limit ∧ 0x100 + sigBlockLen ≤ argAt x 8 4
    let answered (code : Nat) : Prop := ∃ t, exec c s = .next t ∧ CallEnded t slot.val (loadCode code 0) [] ∧ t.blend = s.blend
    (sized → loadRuns s = false → (kind = .full ∨ reserveLost s = false) → ∃ t, exec c s = .next t ∧
      t.blend = { s.blend with load := some (newLoad kind slot.val (argAt x 8 4) .copying [] 0 x) } ∧ (getSlot t slot.val).state = 1 ∧
      SameExcept [.pm, .blend] s t) ∧
    (sized → loadRuns s = true → answered 0x24) ∧
    (imageAddrOk half (argAt x 0 8) (argAt x 8 4) = false → answered pmBadArg) ∧
    (imageAddrOk half (argAt x 0 8) (argAt x 8 4) = true → limit < argAt x 8 4 → answered 0x03) := by
  intro x half sized answered
  have same : ∀ o n, argAt (begunSlot s who slot.val rule.func notify vector.val) o n = argAt x o n := fun _ _ => rfl
  have begins : newLoad kind slot.val (argAt x 8 4) .copying [] 0 (begunSlot s who slot.val rule.func notify vector.val) =
      newLoad kind slot.val (argAt x 8 4) .copying [] 0 x := rfl
  obtain ⟨wrong, right⟩ := acceptImage_cases (k := slot.val) (kind := kind) (limit := limit) (addr := argAt x 0 8) (len := argAt x 8 4)
    (x := begunSlot s who slot.val rule.func notify vector.val) (caller := agentHost s who) (t := callBegun s who slot.val rule.func notify vector.val)
  rw [begins] at right
  have answers : ∀ {code : Nat}, acceptImage kind limit (argAt x 0 8) (argAt x 8 4) slot.val (begunSlot s who slot.val rule.func notify vector.val)
      (agentHost s who) (callBegun s who slot.val rule.func notify vector.val) = (callBegun s who slot.val rule.func notify vector.val, .now (loadCode code 0) []) →
      answered code := fun answer => ⟨_, does, pmCall_answers (body := fun x h t => acceptImage kind limit (argAt x 0 8) (argAt x 8 4) slot.val x h t)
        admitted (by rw [same, same]; exact answer) rfl⟩
  refine ⟨?_, ?_, fun outside => answers (wrong outside), fun inside long => answers ((right inside).1 long)⟩
  · rintro ⟨inside, fits, holds⟩ free there
    exact ⟨_, does, pmCall_begins (body := fun x h t => acceptImage kind limit (argAt x 0 8) (argAt x 8 4) slot.val x h t) admitted
      (by rw [same, same]; exact ((right inside).2 fits holds).2 free there) rfl⟩
  · rintro ⟨inside, fits, holds⟩ runs
    exact answers (((right inside).2 fits holds).1 runs)

end

/-- Settles O53: what each call answers or begins, and what each phase of a load leaves. -/
theorem loadsCheckTheirImage : Obligations.LoadsCheckTheirImage := by
  unfold Obligations.LoadsCheckTheirImage
  intro who slot notify vector b s k x half begun answered sized
  refine ⟨?_, ?_, ?_⟩
  · rintro load kind rule limit (⟨rfl, rfl, rfl, rfl⟩ | ⟨rfl, rfl, rfl, rfl⟩) admitted
    · exact imageLoad_does admitted rfl
    · exact imageLoad_does admitted rfl
  · intro admitted source mode load
    refine ⟨fun limit => ⟨_, rfl, pmCall_answers admitted (acceptReblend_refused limit) rfl⟩, fun limit => ?_⟩
    obtain ⟨fromHost, fromStage⟩ := acceptReblend_past (k := k) (x := begunSlot s who k reblendRule.func notify vector.val) (caller := agentHost s who)
      (t := callBegun s who k reblendRule.func notify vector.val) source mode limit
    refine ⟨?_, fun img m stage addr len free there staged => ?_, fun stage addr len free none_ => ?_⟩
    · rintro host ⟨inside, fits, holds⟩ free there
      obtain ⟨-, right⟩ := acceptImage_cases (k := k) (kind := .reblend) (limit := 0x1000000) (addr := argAt x 8 8) (len := argAt x 0x10 4)
        (x := begunSlot s who k reblendRule.func notify vector.val) (caller := agentHost s who) (t := callBegun s who k reblendRule.func notify vector.val)
      exact ⟨_, rfl, pmCall_begins admitted ((fromHost host).trans (((right inside).2 fits holds).2 free (.inr there))) rfl⟩
    · exact ⟨_, rfl, pmCall_begins admitted ((fromStage stage addr len free).2 img m there staged) rfl⟩
    · exact ⟨_, rfl, pmCall_answers admitted ((fromStage stage addr len free).1 none_) rfl⟩
  · intro l load mode busy kept rejected code
    have phaseDoes : ∀ {p : LoadPhase} (f : BlendLoad → State → State), l.phase = p → inPhase p f s = f l s := fun _ phase => inPhase_does load phase mode
    have rejects : ∀ {c : Instr} (f : BlendFail) (phase : Nat), exec c s = .next (rejectLoad l f phase s) → rejected c f phase := fun f phase does => by
      obtain ⟨blend, ended, -, logged⟩ := rejectLoad_leaves (f := f) (phase := phase) busy kept
      exact ⟨_, does, congrArg BlendState.load blend, by rw [blend], ended, logged⟩
    refine ⟨fun phase => ⟨?_, fun f fails => ?_, fun passes => ?_⟩, fun phase => congrArg Host.Outcome.next (phaseDoes measured phase),
      fun phase => ⟨fun wrong => ?_, fun right stage => ?_, fun right other => ?_⟩, fun phase => ⟨fun f st fails => ?_, fun next passes => ?_⟩⟩
    · obtain ⟨blend, ended, logged⟩ := copied_fails busy kept
      exact ⟨_, congrArg Host.Outcome.next (phaseDoes (copied none) phase), congrArg BlendState.load blend, by rw [blend], ended, logged⟩
    · exact ⟨_, congrArg Host.Outcome.next (phaseDoes (copied (some b)) phase), copied_rejects busy kept fails⟩
    · exact ⟨_, congrArg Host.Outcome.next (phaseDoes (copied (some b)) phase), copied_passes passes⟩
    · exact rejects _ 2 (congrArg Host.Outcome.next ((phaseDoes signatureDone phase).trans ((signatureDone_cases l s).1 wrong)))
    · obtain ⟨ended, blend⟩ := endLoad_leaves (s := { s with blend := { s.blend with staged := some (l.image, l.meas) } }) (l := l)
        (r := loadResult (failPlain 0) 6) busy kept
      exact ⟨_, congrArg Host.Outcome.next ((phaseDoes signatureDone phase).trans (((signatureDone_cases l s).2 right).1 stage)), blend, ended⟩
    · exact congrArg Host.Outcome.next ((phaseDoes signatureDone phase).trans (((signatureDone_cases l s).2 right).2 other))
    · exact rejects f 3 (congrArg Host.Outcome.next ((phaseDoes validated phase).trans ((validated_cases l s).1 f st fails)))
    · intro v
      obtain ⟨full, other⟩ := (validated_cases l s).2 next passes
      exact ⟨fun isFull => congrArg Host.Outcome.next ((phaseDoes validated phase).trans (full isFull)), fun isOther =>
        ⟨_, congrArg Host.Outcome.next ((phaseDoes validated phase).trans (other isOther)), quiesced_leaves s v⟩⟩

end Sys2Proof.Machine
end
end

section
/-! SUPPORT. The Postmaster's calls (R413-R431): how they end or fall due, the boot's islands and stacks, and the statement O55. -/
section
namespace Sys2Proof.Machine

/-! ### How an admitted call goes on -/

section
variable {s t : State} {who : Agent} {k : Nat} {rule : CallRule} {pick : CallSlot → Bool} {notify : Bool} {vector : Nat}
  {body : CallSlot → Option Nat → State → State × CallEnd}

/-- The Postmaster's state but for its slots. -/
def SamePm (s t : State) : Prop := ∃ slots, t.pm = { s.pm with slots := slots }

theorem SamePm.trans {u : State} (h : SamePm s t) (h' : SamePm t u) : SamePm s u := by
  obtain ⟨a, first_⟩ := h
  obtain ⟨b, last⟩ := h'
  exact ⟨b, by rw [last, first_]⟩

theorem SamePm.of_same {ps : List Part} (h : SameExcept ps s t) (kept : ps.contains .pm = false) : SamePm s t := ⟨s.pm.slots, h.pm_eq kept⟩

theorem finishCall_samePm (k result : Nat) (reply : List Byte) (s : State) : SamePm s (finishCall k result reply s) := by
  unfold finishCall
  dsimp only
  split
  · exact ⟨s.pm.slots, rfl⟩
  · split
    · exact ⟨_, (raiseVector_reach _ _).pm_eq rfl⟩
    · exact ⟨_, rfl⟩

theorem callBegun_samePm (s : State) (who : Agent) (k func : Nat) (notify : Bool) (vec : Nat) : SamePm s (callBegun s who k func notify vec) := ⟨_, rfl⟩

/-- A call whose own work leaves a state and ends with a result. -/
theorem pmCall_ends {u : State} {result : Nat} {reply : List Byte} (admitted : CallAdmitted s who k rule) (picked : pick (getSlot s k) = true)
    (works : body (begunSlot s who k rule.func notify vector) (agentHost s who) (callBegun s who k rule.func notify vector) = (u, .now result reply))
    (slot : getSlot u k = begunSlot s who k rule.func notify vector) :
    CallEnded (pmCall rule pick who k notify vector body s) k result reply ∧ SameExcept [.pm, .host] u (pmCall rule pick who k notify vector body s) ∧
      SamePm u (pmCall rule pick who k notify vector body s) := by
  rw [pmCall_of_admitted admitted pick notify vector body picked, works]
  exact ⟨finishCall_ends (by rw [slot]; rfl) (by rw [slot]; rfl), finishCall_reach _ _ _ _, finishCall_samePm _ _ _ _⟩

/-- A call that is answered before it does anything. -/
theorem pmCall_refused {result : Nat} {reply : List Byte} (admitted : CallAdmitted s who k rule) (picked : pick (getSlot s k) = true)
    (works : body (begunSlot s who k rule.func notify vector) (agentHost s who) (callBegun s who k rule.func notify vector) =
      (callBegun s who k rule.func notify vector, .now result reply)) :
    CallEnded (pmCall rule pick who k notify vector body s) k result reply ∧ SameExcept [.pm, .host] s (pmCall rule pick who k notify vector body s) ∧
      SamePm s (pmCall rule pick who k notify vector body s) := by
  obtain ⟨ended, same, pm⟩ := pmCall_ends admitted picked works (callBegun_slot _ _ _ _ _ _)
  exact ⟨ended, .step same rfl ((callBegun_reach _ _ _ _ _ _).weaken rfl), (callBegun_samePm _ _ _ _ _ _).trans pm⟩

/-- A call whose answer falls due. -/
theorem pmCall_due {u : State} {code : Nat} {reply : List Byte} (admitted : CallAdmitted s who k rule) (picked : pick (getSlot s k) = true)
    (works : body (begunSlot s who k rule.func notify vector) (agentHost s who) (callBegun s who k rule.func notify vector) = setDue k code reply u)
    (slot : getSlot u k = begunSlot s who k rule.func notify vector) :
    (getSlot (pmCall rule pick who k notify vector body s) k).state = 1 ∧
    (getSlot (pmCall rule pick who k notify vector body s) k).due = some (BitVec.ofNat 64 code, reply) ∧
    SameExcept [.pm] u (pmCall rule pick who k notify vector body s) ∧ SamePm u (pmCall rule pick who k notify vector body s) := by
  rw [pmCall_of_admitted admitted pick notify vector body picked, works]
  have stands : getSlot (updSlot u k (fun x => { x with due := some (BitVec.ofNat 64 code, reply) })) k =
      { begunSlot s who k rule.func notify vector with due := some (BitVec.ofNat 64 code, reply) } := by
    rw [updSlot, getSlot_setSlot, slot]
  exact ⟨congrArg CallSlot.state stands, congrArg CallSlot.due stands, updSlot_reach _ _ _, ⟨_, rfl⟩⟩

end

/-! ### A quote's writes (R431) -/

section
variable {s t : State}

theorem getGk_of_host (same : t.host = s.host) : getGk t = getGk s := funext fun p => by rw [getGk, getGk, same]

theorem boundPort_of_host (same : t.host = s.host) (h o : Nat) : boundPort t h o = boundPort s h o := by
  rw [boundPort, boundPort, getGk_of_host same]

theorem portsOf_of_host (same : t.host = s.host) (h : Nat) : portsOf t h = portsOf s h := by
  rw [portsOf, portsOf, getGk_of_host same]

theorem portUp_of_host (same : t.host = s.host) : portUp t = portUp s := funext fun p => by rw [portUp, portUp, getGk_of_host same]

theorem upPorts_of_host (same : t.host = s.host) (h : Nat) : upPorts t h = upPorts s h := by
  rw [upPorts, upPorts, portUp_of_host same, portsOf_of_host same]

theorem portFor_of_host (same : t.host = s.host) (h o : Nat) : portFor t h o = portFor s h o := by
  unfold portFor
  rw [boundPort_of_host same, upPorts_of_host same, portUp_of_host same]

theorem waitPort_of_host (same : t.host = s.host) (h o : Nat) : waitPort t h o = waitPort s h o := by
  unfold waitPort
  rw [boundPort_of_host same, portsOf_of_host same]

theorem sendWrite_host {k : Nat} {w : HostWrite} (kind : w.for_ = .quote k) (same : t.host = s.host) : (sendWrite w t).host = (sendWrite w s).host := by
  have gk : ∀ p, getGk t p = getGk s p := fun p => by rw [getGk, getGk, same]
  have delivered : ∀ p, (deliverWrite p w t).host = (deliverWrite p w s).host := fun p => by
    simp only [deliverWrite, kind, setGk, getGk, same]
  unfold sendWrite
  rw [portFor_of_host same, waitPort_of_host same]
  split
  · exact delivered _
  · simp only [updGk, setGk, getGk, same]

/-- The write of one piece of a quote. -/
def quotePiece (h k : Nat) (b : List Byte) (e : Nat × Nat × Nat) : HostWrite where
  host := h
  addr := (e.1 - hostBase) % 2 ^ 39
  bytes := sliceAt b e.2.2 e.2.1
  marks := 0
  for_ := .quote k
  invocation := 0
  trans := none
  seq := 0

theorem quotePieces_host (h k : Nat) (b : List Byte) : ∀ (l : List (Nat × Nat × Nat)) (t s : State), t.host = s.host →
    (forEach l (fun e u => sendWrite (quotePiece h k b e) u) t).host = (forEach l (fun e u => sendWrite (quotePiece h k b e) u) s).host
  | [], _, _, same => same
  | e :: l, _, _, same => quotePieces_host h k b l _ _ (sendWrite_host (k := k) (w := quotePiece h k b e) rfl same)

theorem writeHost_host (h k a : Nat) (b : List Byte) (same : t.host = s.host) : (writeHost h (.quote k) a b t).host = (writeHost h (.quote k) a b s).host :=
  quotePieces_host h k b (splitRange a b.length) t s same

theorem trustBusy_begun (s : State) (who : Agent) (k func : Nat) (notify : Bool) (vec : Nat) :
    trustBusy (callBegun s who k func notify vec) k = trustBusy s k := by
  unfold trustBusy
  congr 1
  funext j
  by_cases same : j = k
  · subst same
    simp
  · rw [callBegun, getSlot_setSlot_ne _ _ same]

end

/-! ### The boot's islands (R30, R424) -/

section
variable {s : State}

/-- An island powers up. -/
def powerIsl (n : Nat) (t : State) : State := updIsl t n (fun i => { i with power := 2 })

theorem powerAll_power (l : List Nat) (t : State) : ∀ n ∈ l, (getIsl (forEach l powerIsl t) n).power = 2 :=
  forEach_establishes (m := powerIsl) (P := fun n t => (getIsl t n).power = 2) (fun n t => by rw [powerIsl, updIsl, getIsl_setIsl])
    (fun n m t runs => by
      by_cases same : n = m
      · subst same
        rw [powerIsl, updIsl, getIsl_setIsl]
      · rw [powerIsl, updIsl, getIsl_setIsl_ne _ _ same, runs]) l t

theorem powerAll_reach (l : List Nat) (t : State) : SameExcept [.isl] t (forEach l powerIsl t) :=
  .forEach (fun n t => updIsl_reach t n (fun i => { i with power := 2 })) l (.refl _ t)

theorem markRetired_leaves (s : State) : IslesKeep Island.power s (markRetired s) ∧ SameExcept [.isl, .cache] s (markRetired s) := by
  have marked (l : List (Nat × MarginEntry)) (t : State) : IslesKeep Island.power t (forEach l (fun e t => updIsl t e.1 (fun i => { i with faulty := true })) t) ∧
      SameExcept [.isl] t (forEach l (fun e t => updIsl t e.1 (fun i => { i with faulty := true })) t) :=
    ⟨.each (m := fun (e : Nat × MarginEntry) t => updIsl t e.1 (fun i => { i with faulty := true }))
      (fun e u => updIsl_keeps (m := fun i => { i with faulty := true }) (fun _ => rfl) u) l t,
     .forEach (fun (e : Nat × MarginEntry) u => updIsl_reach u e.1 (fun i => { i with faulty := true })) l (.refl _ t)⟩
  have ways (t : State) : SameExcept [.cache] t (forEach [0, 1] (fun d t => setCache t d { getCache t d with faulty := maskBits 8 (marginEntry t (islIx d 124)).reason }) t) :=
    .forEach (fun d u => setCache_reach u d _) [0, 1] (.refl _ t)
  obtain ⟨power, isles⟩ := marked (s.pm.record.islands.filter (fun e => isMovable e.1 && e.2.retired)) s
  exact ⟨power.trans (.of_same (ways _) rfl), .step (ways _) rfl (isles.weaken rfl)⟩

/-- What the boot notes of the record that it read. -/
def recordTaken (bad : Option Nat) (u : State) : State :=
  let head := headerNow u.pm.record
  { u with
    power := { u.power with bootDue := none, selfRefresh := false }
    pm := { u.pm with
      booting := true
      recordBad := bad
      romHash := Config.romHash
      copy := if bad.isNone then some u.pm.record else none
      serial := if bad.isNone then Config.serial else 0 }
    plan := { u.plan with
      hours := max u.plan.hours ((head.map (·.hours)).getD 0)
      runNo := max u.plan.runNo ((head.map (·.runs)).getD 0) } }

/-- The boot's islands on, its record read. -/
def bootRead (bad : Option Nat) (s : State) : State :=
  recordTaken bad (forEach bootIsls powerIsl (logEvent .resetCause islTrust (leBytes 1 s.power.lastReset) s))

theorem bootStart_eq {bad : Option Nat} {at_ : Nat} (rom : s.mode = .rom) (idle : s.pm.booting = false) (high : s.power.mrstHeld = false)
    (due : s.power.bootDue = some at_) (late : at_ ≤ s.devTime) : bootStart bad s = markRetired (bootRead bad s) := by
  unfold bootStart
  dsimp only
  rw [due]
  exact if_neg (by rw [rom, idle, high]; simpa using late)

theorem recordTaken_copy (bad : Option Nat) (u : State) : (recordTaken bad u).pm.copy = (if bad.isNone then some u.pm.record else none) := rfl
theorem recordTaken_pm (bad : Option Nat) (u : State) : (recordTaken bad u).pm.booting = true ∧ (recordTaken bad u).power.bootDue = none ∧
    (recordTaken bad u).pm.serial = (if bad.isNone then Config.serial else 0) := ⟨rfl, rfl, rfl⟩
theorem recordTaken_isl (bad : Option Nat) (u : State) (n : Nat) : getIsl (recordTaken bad u) n = getIsl u n := rfl
theorem recordTaken_log (bad : Option Nat) (u : State) : (recordTaken bad u).log = u.log := rfl
theorem recordTaken_mode (bad : Option Nat) (u : State) : (recordTaken bad u).mode = u.mode := rfl

theorem bootRead_leaves (bad : Option Nat) (s : State) : (bootRead bad s).pm.booting = true ∧ (bootRead bad s).power.bootDue = none ∧
    (bootRead bad s).pm.serial = (if bad.isNone then Config.serial else 0) ∧ (bootRead bad s).pm.copy = (if bad.isNone then some s.pm.record else none) ∧
    (∀ n ∈ bootIsls, (getIsl (bootRead bad s) n).power = 2) ∧ (bootRead bad s).log ≠ s.log ∧ (bootRead bad s).mode = s.mode := by
  have logged := logEvent_reach .resetCause islTrust (leBytes 1 s.power.lastReset) s
  have grown := LogGrows.ne_of_event (LogGrows.refl (logEvent .resetCause islTrust (leBytes 1 s.power.lastReset) s).log)
  unfold bootRead
  generalize logEvent .resetCause islTrust (leBytes 1 s.power.lastReset) s = v at logged grown ⊢
  have on := powerAll_reach bootIsls v
  have powered := powerAll_power bootIsls v
  generalize forEach bootIsls powerIsl v = u at on powered ⊢
  obtain ⟨booting, due, serial⟩ := recordTaken_pm bad u
  refine ⟨booting, due, serial, ?_, powered, ?_, ?_⟩
  · rw [recordTaken_copy, on.pm_eq rfl, logged.pm_eq rfl]
  · rw [recordTaken_log, on.log_eq rfl]
    exact grown
  · rw [recordTaken_mode, on.mode_eq rfl, logged.mode_eq rfl]

theorem bootStart_leaves {bad : Option Nat} {at_ : Nat} (rom : s.mode = .rom) (idle : s.pm.booting = false) (high : s.power.mrstHeld = false)
    (due : s.power.bootDue = some at_) (late : at_ ≤ s.devTime) : (bootStart bad s).pm.booting = true ∧ (bootStart bad s).power.bootDue = none ∧
    (bootStart bad s).pm.serial = (if bad.isNone then Config.serial else 0) ∧ (bootStart bad s).pm.copy = (if bad.isNone then some s.pm.record else none) ∧
    (∀ n ∈ bootIsls, (getIsl (bootStart bad s) n).power = 2) ∧ (bootStart bad s).log ≠ s.log ∧ (bootStart bad s).mode = .rom := by
  obtain ⟨power, same⟩ := markRetired_leaves (bootRead bad s)
  obtain ⟨booting, bootDue, serial, copy, islands, log, mode⟩ := bootRead_leaves bad s
  rw [bootStart_eq rom idle high due late, same.pm_eq rfl, same.power_eq rfl, same.log_eq rfl, same.mode_eq rfl]
  exact ⟨booting, bootDue, serial, copy, fun n listed => (power n).trans (islands n listed), log, mode.trans rom⟩

end

end Sys2Proof.Machine
end
end

section
/-! SUPPORT. Boot, capability, quote, ownership and Carrier load (R417, R423-R431), and the statement O55. -/
section
namespace Sys2Proof.Machine

/-! ### What the calls of the owner do (R429, R430) -/

section
variable {s : State} {k : Nat} {x : CallSlot} {caller : Option Nat} {b : List Byte}

/-- The state in which a new owner is recorded and logged. -/
def ownerRecorded (event : Event) (logged : List Byte) (hash : Bits256) (counter : Word) (s : State) : State :=
  logEvent event islTrust logged (updRecord (putOwner hash counter) s)

theorem ownerRecorded_reach (e : Event) (l : List Byte) (hash : Bits256) (n : Word) (s : State) : SameExcept [.log, .pm] s (ownerRecorded e l hash n s) :=
  .step (logEvent_reach _ _ _ _) rfl ((updRecord_reach _ _).weaken rfl)

theorem ownerRecorded_leaves (e : Event) (l : List Byte) (hash : Bits256) (n : Word) (s : State) :
    (ownerRecorded e l hash n s).pm.record = putOwner hash n s.pm.record ∧ (ownerRecorded e l hash n s).log ≠ s.log ∧
    getSlot (ownerRecorded e l hash n s) k = getSlot s k := by
  have pm : (ownerRecorded e l hash n s).pm = (updRecord (putOwner hash n) s).pm := (logEvent_reach _ _ _ _).pm_eq rfl
  refine ⟨?_, LogGrows.ne_of_event (s := updRecord (putOwner hash n) s) (.refl _), ?_⟩
  · rw [pm]
    rfl
  · rw [getSlot, pm]
    rfl

section
variable (inside : inOwnHalf (caller.getD 0) (argAt x 0x40 8) 29792 = true) (idle : trustBusy s k = false)
include inside idle

theorem ownerRegister_owned (signature : Option (List Byte)) (owned : ownerHash s ≠ 0) : ownerRegister k signature x caller s = (s, .now pmOwner []) := by
  unfold ownerRegister
  dsimp only
  rw [if_neg (by rw [inside]; decide), if_neg (by rw [idle]; decide), if_pos owned]

theorem ownerRegister_unread (free : ownerHash s = 0) : ownerRegister k none x caller s = setDue k pmHostFetch [] s := by
  unfold ownerRegister
  dsimp only
  rw [if_neg (by rw [inside]; decide), if_neg (by rw [idle]; decide), if_neg (not_not.2 free)]

theorem ownerRegister_unsigned (free : ownerHash s = 0) (bad : ownerSigned (argBytes x 0 64) (registerStatement s) (padTo 29792 b) = false) :
    ownerRegister k (some b) x caller s = setDue k pmSignature [] s := by
  unfold ownerRegister
  dsimp only
  rw [if_neg (by rw [inside]; decide), if_neg (by rw [idle]; decide), if_neg (not_not.2 free), if_pos (by rw [bad]; decide)]

theorem ownerRegister_signed (free : ownerHash s = 0) (good : ownerSigned (argBytes x 0 64) (registerStatement s) (padTo 29792 b) = true) :
    ownerRegister k (some b) x caller s =
      setDue k pmOk [] (ownerRecorded .ownerRegistered (leBytes 32 (shake256 (argBytes x 0 64)).toNat) (shake256 (argBytes x 0 64)) 0 s) := by
  unfold ownerRegister
  dsimp only
  rw [if_neg (by rw [inside]; decide), if_neg (by rw [idle]; decide), if_neg (not_not.2 free), if_neg (by rw [good]; decide)]
  rfl

end

/-- Both signatures of a transfer hold. -/
def transferSigned (s : State) (x : CallSlot) (b : List Byte) : Bool :=
  ownerSigned (argBytes x 0 64) (transferStatement s (argBytes x 0x40 64)) ((padTo 59584 b).take 29792) &&
    ownerSigned (argBytes x 0x40 64) (transferStatement s (argBytes x 0x40 64)) ((padTo 59584 b).drop 29792)

/-- What a transfer logs. -/
def transferLogged (s : State) (x : CallSlot) : List Byte :=
  leBytes 32 (shake256 (argBytes x 0x40 64)).toNat ++ leBytes 4 (ownerCounter s + 1).toNat

section
variable (inside : inOwnHalf (caller.getD 0) (argAt x 0x80 8) 59584 = true) (idle : trustBusy s k = false)
include inside idle

theorem ownerTransfer_foreign (signatures : Option (List Byte)) (other : ownerMatches s (argBytes x 0 64) = false) :
    ownerTransfer k signatures x caller s = (s, .now pmOwner []) := by
  unfold ownerTransfer
  dsimp only
  rw [if_neg (by rw [inside]; decide), if_neg (by rw [idle]; decide), if_pos (by rw [other]; decide)]

theorem ownerTransfer_unsigned (own : ownerMatches s (argBytes x 0 64) = true) (bad : transferSigned s x b = false) :
    ownerTransfer k (some b) x caller s = setDue k pmSignature [] s := by
  unfold transferSigned at bad
  unfold ownerTransfer
  dsimp only
  rw [if_neg (by rw [inside]; decide), if_neg (by rw [idle]; decide), if_neg (by rw [own]; decide), if_pos (by rw [← Bool.not_and, bad]; decide)]

theorem ownerTransfer_signed (own : ownerMatches s (argBytes x 0 64) = true) (good : transferSigned s x b = true) :
    ownerTransfer k (some b) x caller s =
      setDue k pmOk [] (ownerRecorded .ownerTransferred (transferLogged s x) (shake256 (argBytes x 0x40 64)) (ownerCounter s + 1) s) := by
  unfold transferSigned at good
  unfold ownerTransfer
  dsimp only
  rw [if_neg (by rw [inside]; decide), if_neg (by rw [idle]; decide), if_neg (by rw [own]; decide), if_neg (by rw [← Bool.not_and, good]; decide)]
  rfl

end

/-! ### What a quote does (R431) -/

theorem quote_misplaced (bad : imageAddrOk (caller.getD 0) (argAt x 0x20 8) quoteSize = false) : quote k x caller s = (s, .now pmBadArg []) := by
  unfold quote
  exact if_pos (by rw [bad]; decide)

theorem quote_busy (fits : imageAddrOk (caller.getD 0) (argAt x 0x20 8) quoteSize = true) (busy : trustBusy s k = true) :
    quote k x caller s = (s, .now pmBusy []) := by
  unfold quote
  exact (if_neg (by rw [fits]; decide)).trans (if_pos busy)

theorem quote_writes (fits : imageAddrOk (caller.getD 0) (argAt x 0x20 8) quoteSize = true) (idle : trustBusy s k = false) :
    quote k x caller s = setDue k pmOk (leBytes 4 quoteSize) (writeHost (caller.getD 0) (.quote k) (argAt x 0x20 8) (quoteBytes s (argBytes x 0 32)) s) := by
  unfold quote
  exact (if_neg (by rw [fits]; decide)).trans (if_neg (by rw [idle]; decide))

theorem sendWrite_slot {w : HostWrite} (kind : w.for_ = .quote k) (t : State) : (sendWrite w t).pm = t.pm := by
  have delivered : ∀ p, (deliverWrite p w t).pm = t.pm := fun p => by
    simp only [deliverWrite, kind]
    rfl
  unfold sendWrite
  split
  · exact delivered _
  · rfl

theorem writeHost_pm (h k a : Nat) (b : List Byte) (s : State) : (writeHost h (.quote k) a b s).pm = s.pm :=
  forEach_keeps (f := State.pm) (m := fun e t => sendWrite (quotePiece h k b e) t) (fun e t => sendWrite_slot (k := k) (w := quotePiece h k b e) rfl t)
    (splitRange a b.length) s

/-! ### What a Carrier load begins (R427) -/

theorem carrierLoad_checked {addr len base size : Nat} (place : argAt x 0 8 = addr) (length : argAt x 8 4 = len) (at_ : argAt x 0x10 8 = base)
    (span : argAt x 0x18 8 = size) (fits : imageAddrOk (caller.getD 0) addr len = true) (short : len ≤ carrierLimit) (long : 0x100 + sigBlockLen ≤ len)
    (region : regionOk s base size len = true) :
    carrierLoad k x caller s = if loadRuns s then (s, .now (loadCode 0x24 0) []) else
      ({ s with pm := { s.pm with carrierLoading := some { slot := k, base := base, size := size, imageLen := len, image := [] } } }, .later) := by
  unfold carrierLoad
  dsimp only
  rw [place, length, at_, span, if_neg (by rw [fits]; decide), if_neg (by omega), if_neg (by rw [region]; decide)]

end

end Sys2Proof.Machine
end
end

section
/-! SUPPORT. How a Carrier load, a call and the boot end (R424-R427), and the statement O55. -/
section
namespace Sys2Proof.Machine

/-! ### A Carrier load ends (R426, R427) -/

section
variable {s t : State} {c : CarrierLoading}

/-- The state in which a Carrier load of which the copy has ended is judged. -/
def loadEnded (s : State) : State := { s with pm := { s.pm with carrierLoading := none } }

/-- The state in which the copy stands in the Carrier's region. -/
def carrierCopied (c : CarrierLoading) (img : List Byte) (s : State) : State := hbmWrite (loadEnded s) none c.base (clean img) []

/-- The Carrier's region, measure and entry taken from its image. -/
def carrierTaken (c : CarrierLoading) (img : List Byte) (s : State) : State :=
  { s with
    mode := .awaitBlend
    pm := { s.pm with
      carrierBase := c.base
      carrierSize := c.size
      carrierMeas := shake256 (signedMessage img)
      carrierVersion := BitVec.ofNat 64 (fieldAt img 0x18 8)
      carrierEntry := fieldAt img 0x10 4
      carrierSigOffset := fieldAt img 0x0C 4 } }

theorem carrierCopied_pm (c : CarrierLoading) (img : List Byte) (s : State) : (carrierCopied c img s).pm = (loadEnded s).pm := (hbmWrite_plain _ _ _).pm_eq rfl
theorem carrierCopied_mode (c : CarrierLoading) (img : List Byte) (s : State) : (carrierCopied c img s).mode = s.mode := (hbmWrite_plain _ _ _).mode_eq rfl
theorem carrierCopied_devTime (c : CarrierLoading) (img : List Byte) (s : State) : (carrierCopied c img s).devTime = s.devTime :=
  (hbmWrite_plain _ _ _).devTime_eq rfl

theorem checkSignature_of_record (ctx img : List Byte) (same : t.pm.record = s.pm.record) : checkSignature t ctx img = checkSignature s ctx img := by
  have owner : ownerMatches t (sigPublicKey img) = ownerMatches s (sigPublicKey img) := by
    rw [ownerMatches, ownerMatches, ownerHash, ownerHash, same]
  rw [checkSignature, checkSignature, owner]

section
variable (runs : s.pm.carrierLoading = some c) (waits : s.mode = .awaitCarrier)
include runs waits

theorem carrierLoaded_unread : carrierLoaded none s = finishCall c.slot (loadCode pmHostFetch 0) [] (loadEnded s) := by
  unfold carrierLoaded
  rw [runs]
  exact if_neg (by rw [waits]; decide)

theorem carrierLoaded_malformed (b : List Byte) (bad : carrierHeader (padTo c.imageLen b) c.imageLen ≠ 0) : carrierLoaded (some b) s =
    finishCall c.slot (loadCode (carrierHeader (padTo c.imageLen b) c.imageLen) 0) [] (carrierCopied c (padTo c.imageLen b) s) := by
  unfold carrierLoaded
  rw [runs]
  exact (if_neg (by rw [waits]; decide)).trans (if_pos bad)

theorem carrierLoaded_unsigned (b : List Byte) (good : carrierHeader (padTo c.imageLen b) c.imageLen = 0)
    (bad : checkSignature s carrierContext (padTo c.imageLen b) ≠ 0) : carrierLoaded (some b) s =
    finishCall c.slot (loadCode (checkSignature s carrierContext (padTo c.imageLen b)) 2) [] (carrierCopied c (padTo c.imageLen b) s) := by
  have same := checkSignature_of_record (s := s) carrierContext (padTo c.imageLen b)
    ((congrArg PmState.record (carrierCopied_pm c (padTo c.imageLen b) s)).trans rfl)
  unfold carrierLoaded
  rw [runs]
  refine (if_neg (by rw [waits]; decide)).trans ((if_neg (not_not.2 good)).trans ?_)
  rw [← same] at bad ⊢
  exact if_pos bad

theorem carrierLoaded_signed (b : List Byte) (good : carrierHeader (padTo c.imageLen b) c.imageLen = 0)
    (signed : checkSignature s carrierContext (padTo c.imageLen b) = 0) : carrierLoaded (some b) s =
    finishCall c.slot (loadCode 0 6) [] (startCarrier (carrierTaken c (padTo c.imageLen b) (carrierCopied c (padTo c.imageLen b) s))) := by
  have same := checkSignature_of_record (s := s) carrierContext (padTo c.imageLen b)
    ((congrArg PmState.record (carrierCopied_pm c (padTo c.imageLen b) s)).trans rfl)
  unfold carrierLoaded
  rw [runs]
  refine (if_neg (by rw [waits]; decide)).trans ((if_neg (not_not.2 good)).trans ?_)
  rw [← same] at signed
  exact if_neg (not_not.2 signed)

end

theorem startCarrier_leaves (s : State) : (startCarrier s).pm = { s.pm with carrierRuns := true } ∧ (startCarrier s).power.wdogKick = s.devTime ∧
    (startCarrier s).mode = s.mode := by
  have on : SameExcept [.isl] s (forEach controlIsls powerIsl s) := powerAll_reach controlIsls s
  have mail : ∀ t, SameExcept [.host] t (carrierTakesMail t) := carrierTakesMail_reach
  unfold startCarrier
  dsimp only
  change SameExcept [.isl] s (forEach controlIsls (fun n t => updIsl t n (fun i => { i with power := 2 })) s) at on
  generalize forEach controlIsls (fun n t => updIsl t n (fun i => { i with power := 2 })) s = u at on ⊢
  rw [(mail _).pm_eq rfl, (mail _).power_eq rfl, (mail _).mode_eq rfl]
  exact ⟨by rw [on.pm_eq rfl], on.devTime_eq rfl, on.mode_eq rfl⟩

/-- What the end of the load's call keeps of what the load has left. -/
theorem finishCall_loaded {u : State} {result : Nat} (busy : (getSlot s c.slot).state = 1) (kept : (getSlot s c.slot).discard = false)
    (slots : u.pm.slots = s.pm.slots) : CallEnded (finishCall c.slot result [] u) c.slot result [] ∧ SamePm u (finishCall c.slot result [] u) ∧
      (finishCall c.slot result [] u).mode = u.mode ∧ (finishCall c.slot result [] u).power = u.power := by
  have slot : getSlot u c.slot = getSlot s c.slot := by rw [getSlot, getSlot, slots]
  have same := finishCall_reach c.slot result [] u
  exact ⟨finishCall_ends (by rw [slot, busy]) (by rw [slot, kept]), finishCall_samePm _ _ _ _, same.mode_eq rfl, same.power_eq rfl⟩

/-- A load that fails leaves the module waiting for a Carrier. -/
theorem carrierLoad_fails {u : State} {result : Nat} (busy : (getSlot s c.slot).state = 1) (kept : (getSlot s c.slot).discard = false)
    (waits : s.mode = .awaitCarrier) (pm : u.pm = (loadEnded s).pm) (mode : u.mode = s.mode) : (finishCall c.slot result [] u).mode = .awaitCarrier ∧
      (finishCall c.slot result [] u).pm.carrierLoading = none ∧ (finishCall c.slot result [] u).pm.carrierRuns = s.pm.carrierRuns ∧
      CallEnded (finishCall c.slot result [] u) c.slot result [] := by
  obtain ⟨ended, ⟨slots, stays⟩, same, -⟩ := finishCall_loaded (u := u) (result := result) busy kept (by rw [pm]; rfl)
  refine ⟨by rw [same, mode, waits], ?_, ?_, ended⟩
  · rw [stays, pm]
    rfl
  · rw [stays, pm]
    rfl

theorem carrierLoad_starts (img : List Byte) (busy : (getSlot s c.slot).state = 1) (kept : (getSlot s c.slot).discard = false) {t : State}
    (does : t = finishCall c.slot (loadCode 0 6) [] (startCarrier (carrierTaken c img (carrierCopied c img s)))) :
    t.mode = .awaitBlend ∧ t.pm.carrierRuns = true ∧ t.pm.carrierBase = c.base ∧ t.pm.carrierSize = c.size ∧
      t.pm.carrierMeas = shake256 (signedMessage img) ∧ t.power.wdogKick = s.devTime ∧ CallEnded t c.slot (loadCode 0 6) [] := by
  obtain ⟨pm, kick, mode⟩ := startCarrier_leaves (carrierTaken c img (carrierCopied c img s))
  have copied := carrierCopied_pm c img s
  obtain ⟨ended, ⟨slots, stays⟩, same, power⟩ := finishCall_loaded (u := startCarrier (carrierTaken c img (carrierCopied c img s))) (result := loadCode 0 6)
    busy kept (by rw [pm]; exact (congrArg PmState.slots copied).trans rfl)
  subst does
  rw [same, power, stays, pm, kick, mode]
  exact ⟨rfl, rfl, rfl, rfl, rfl, carrierCopied_devTime c img s, ended⟩

end

/-! ### A call whose answer is due ends (R414, R420) -/

section
variable {s : State} {k : Nat}

theorem callDone_due {r : Dword} {reply : List Byte} (runs : (getSlot s k).state = 1) (due : (getSlot s k).due = some (r, reply)) :
    callDone k s = if quoteGone s k then finishCall k r.toNat reply s else s := by
  unfold callDone
  rw [if_neg (not_not.2 runs), due]

theorem callDone_released (runs : (getSlot s k).state = 1) (due : (getSlot s k).due = none) (waits : (getSlot s k).waits ≠ [])
    (free : segCallOn s (getSlot s k).waits = false) (own : (getSlot s k).waits.all (ownsContext s ((getSlot s k).caller.getD 0)) = true)
    (unused : (getSlot s k).waits.all (contextFree s) = true) :
    callDone k s = finishCall k pmOk [] { s with pm := { s.pm with contexts := (getSlot s k).waits.foldl tabDel s.pm.contexts } } := by
  unfold callDone
  rw [if_neg (not_not.2 runs), due]
  dsimp only
  rw [if_neg (by rw [free]; simpa using waits), releaseNow, if_neg (by rw [own]; decide), if_neg (by rw [unused]; decide)]

theorem tabFind_deleted {α : Type} : ∀ (l : List Nat) (m : Tab α) (c : Nat), (c ∈ l ∨ tabFind m c = none) → tabFind (l.foldl tabDel m) c = none
  | [], _, _, h => h.resolve_left (List.not_mem_nil)
  | n :: l, m, c, h => tabFind_deleted l (tabDel m n) c (by
      by_cases same : c = n
      · subst same
        exact Or.inr (tabFind_tabDel_same m c)
      · rw [tabFind_tabDel_ne m same]
        exact h.imp_left (fun listed => (List.mem_cons.1 listed).resolve_left same))

end

/-! ### The boot's end (R424, R425, R292) -/

section
variable {s : State}

theorem stackOut_mc_ne {j k : Nat} (other : j ≠ k) (s : State) : getMc (stackOut k s) j = getMc s j := by
  unfold stackOut drawFree
  dsimp only
  rw [getMc_logEvent]
  split
  · exact getMc_setMc_ne s _ other
  · exact getMc_setMc_ne s _ other

theorem trainLane_mc_ne {j k : Nat} (other : j ≠ k) (ch lane : Nat) (s : State) : getMc (trainLane k ch lane s) j = getMc s j := by
  unfold trainLane
  dsimp only
  split
  · rfl
  split
  · exact stackOut_mc_ne other s
  · exact getMc_setMc_ne s _ other

theorem updMc_mc_ne {j k : Nat} (other : j ≠ k) (f : McState → McState) (s : State) : getMc (updMc s k f) j = getMc s j := getMc_setMc_ne s _ other

theorem updMc_mc (k : Nat) (f : McState → McState) (s : State) : getMc (updMc s k f) k = f (getMc s k) := getMc_setMc s _ _

theorem trainStack_mc_ne (l : List StackTraining) {j k : Nat} (other : j ≠ k) (s : State) : getMc (trainStack l k s) j = getMc s j := by
  have lanes : ∀ (l : List (Fin 16 × Fin 64)) (t : State), getMc (forEach l (fun e u => trainLane k e.1.val e.2.val u) t) j = getMc t j :=
    fun l t => forEach_keeps (f := fun u : State => getMc u j) (fun (e : Fin 16 × Fin 64) u => trainLane_mc_ne other e.1.val e.2.val u) l t
  have recorded : ∀ (f : ModRecord → ModRecord) (t : State), getMc (updRecord f t) j = getMc t j := fun _ _ => rfl
  unfold trainStack
  dsimp only
  rw [updMc_mc_ne other]
  split
  · rw [updMc_mc_ne other]
  · rw [recorded]
    split
    · rw [stackOut_mc_ne other, lanes, updMc_mc_ne other]
    · rw [lanes, updMc_mc_ne other]

theorem trainStack_untold {l : List StackTraining} {k : Nat} (untold : l.find? (fun v => v.stack.val == k) = none) (s : State) :
    (getMc (trainStack l k s) k).train = 1 ∨ (getMc (trainStack l k s) k).train = 2 := by
  unfold trainStack
  dsimp only
  rw [untold, updMc_mc, updMc_mc]
  dsimp only
  rw [if_neg (by omega)]
  dsimp only
  split
  · exact .inr rfl
  · exact .inl rfl

/-- A stack of which no training is told runs, with or without erased lanes. -/
def TrainedUntold (l : List StackTraining) (j : Nat) (t : State) : Prop :=
  l.find? (fun v => v.stack.val == j) = none → (getMc t j).train = 1 ∨ (getMc t j).train = 2

theorem stacksTrained (l : List StackTraining) (l' : List Nat) (s : State) : ∀ j ∈ l', TrainedUntold l j (forEach l' (trainStack l) s) :=
  forEach_establishes (P := TrainedUntold l) (fun _ t untold => trainStack_untold untold t) (fun j k t trained untold => by
    by_cases same : j = k
    · subst same
      exact trainStack_untold untold t
    · rw [trainStack_mc_ne l same]
      exact trained untold) l' s

/-- The patrol of a stack begins. -/
def patrolBegins (k : Nat) (t : State) : State := updMc t k (fun m => { m with patrolNext := 0, patrolStart := t.devTime, patrolLate := false })

theorem patrolBegins_train (j k : Nat) (t : State) : (getMc (patrolBegins k t) j).train = (getMc t j).train := by
  by_cases same : j = k
  · subst same
    rw [patrolBegins, updMc_mc]
  · rw [patrolBegins, updMc_mc_ne same]

theorem patrolsBegun (l' : List Nat) (s : State) : ∀ j ∈ l', (getMc (forEach l' patrolBegins s) j).patrolNext = 0 :=
  forEach_establishes (P := fun j t => (getMc t j).patrolNext = 0) (fun k t => by rw [patrolBegins, updMc_mc]) (fun j k t begun => by
    by_cases same : j = k
    · subst same
      rw [patrolBegins, updMc_mc]
    · rw [patrolBegins, updMc_mc_ne same, begun]) l' s

/-- The boot's stacks trained and their patrols begun. -/
def bootTrained (l : List StackTraining) (s : State) : State := forEach (List.range 12) patrolBegins (forEach (List.range 12) (trainStack l) s)

theorem bootTrained_leaves (l : List StackTraining) (s : State) {j : Nat} (below : j < 12) : (getMc (bootTrained l s) j).patrolNext = 0 ∧
    (l.find? (fun v => v.stack.val == j) = none → (getMc (bootTrained l s) j).train = 1 ∨ (getMc (bootTrained l s) j).train = 2) := by
  have listed : j ∈ List.range 12 := List.mem_range.2 below
  have train := forEach_keeps (f := fun t : State => (getMc t j).train) (m := patrolBegins) (fun k t => patrolBegins_train j k t) (List.range 12)
    (forEach (List.range 12) (trainStack l) s)
  refine ⟨patrolsBegun (List.range 12) _ j listed, fun untold => ?_⟩
  rw [bootTrained, train]
  exact stacksTrained l (List.range 12) s j listed untold

/-- The boot's state once its stacks serve. -/
def bootServes (s : State) : State := { s with mode := .awaitCarrier, blend := { s.blend with reserve := pickReserve s } }

theorem bootServes_leaves (s : State) : (bootServes s).mode = .awaitCarrier ∧ (bootServes s).pm = s.pm ∧
    (bootServes s).blend.reserve = pickReserve (bootServes s) ∧ ∀ j, getMc (bootServes s) j = getMc s j := ⟨rfl, rfl, rfl, fun _ => rfl⟩

/-- The state at the boot's end. -/
def bootOver (s : State) : State := { s with pm := { s.pm with booting := false } }

/-- The PUF's seed taken. -/
def bootSeeded (s : State) : State := { bootOver s with pm := { (bootOver s).pm with seed := some Config.pufSeed } }

section
variable (rom : s.mode = .rom) (boots : s.pm.booting = true)
include rom boots

theorem bootDone_badRecord {puf : Bool} {training : List StackTraining} (bad : s.pm.recordBad ≠ none) :
    ∃ o, bootDone puf training s = enterFaulted 1 (logEvent .recordInvalid islTrust (leBytes 4 o) (bootOver s)) := by
  obtain ⟨o, is⟩ := Option.ne_none_iff_exists'.1 bad
  have some_ : s.pm.recordBad.isSome = true := by rw [is, Option.isSome_some]
  refine ⟨o, ?_⟩
  unfold bootDone bootOver
  rw [if_neg (by rw [rom, boots]; decide)]
  dsimp only
  rw [if_pos some_, is]

section
variable (good : s.pm.recordBad = none) (owned : ownerNow s.pm.record ≠ none)
include good owned

theorem bootDone_sound {puf : Bool} {training : List StackTraining} : bootDone puf training s =
    if puf then bootServes (bootTrained training (bootSeeded s)) else enterFaulted 2 (logEvent .pufFailed islTrust [] (bootOver s)) := by
  obtain ⟨o, is⟩ := Option.ne_none_iff_exists'.1 owned
  have known : (ownerNow s.pm.record).isNone = false := by rw [is, Option.isNone_some]
  unfold bootDone
  rw [if_neg (by rw [rom, boots]; decide)]
  dsimp only
  rw [if_neg (by rw [good]; decide), if_neg (by rw [known]; decide)]
  dsimp only
  unfold bootServes bootTrained bootSeeded bootOver patrolBegins
  cases puf <;> rfl

end

end

end

end Sys2Proof.Machine
end
end

section
/-! SUPPORT. The parts of the statement O55, and the statement. -/
section
namespace Sys2Proof.Machine

/-! ### The calls (R417, R427-R431) -/

section
variable {who : Agent} {slot : Fin 12} {notify : Bool} {vector : Fin 1024} {s : State}

/-- A call that is answered at once without having done anything. -/
def CallAnswered (c : Instr) (s : State) (k code : Nat) (reply : List Byte) : Prop :=
  ∃ t, exec c s = .next t ∧ CallEnded t k code reply ∧ SameExcept [.pm, .host] s t

/-- A call of which the answer falls due. -/
def CallFallsDue (c : Instr) (s : State) (k code : Nat) (reply : List Byte) (P : State → Prop) : Prop :=
  ∃ t, exec c s = .next t ∧ (getSlot t k).state = 1 ∧ (getSlot t k).due = some (BitVec.ofNat 64 code, reply) ∧ P t

theorem callAnswered {c : Instr} {k v code : Nat} {reply : List Byte} {rule : CallRule} {pick : CallSlot → Bool}
    {body : CallSlot → Option Nat → State → State × CallEnd} (row : exec c s = .next (pmCall rule pick who k notify v body s))
    (admitted : CallAdmitted s who k rule) (picked : pick (getSlot s k) = true)
    (works : body (begunSlot s who k rule.func notify v) (agentHost s who) (callBegun s who k rule.func notify v) =
      (callBegun s who k rule.func notify v, .now code reply)) : CallAnswered c s k code reply := by
  obtain ⟨ended, same, -⟩ := pmCall_refused admitted picked works
  exact ⟨_, row, ended, same⟩

theorem callFallsDue {c : Instr} {k v code : Nat} {reply : List Byte} {rule : CallRule} {pick : CallSlot → Bool} {P : State → Prop} {u : State}
    {body : CallSlot → Option Nat → State → State × CallEnd} (row : exec c s = .next (pmCall rule pick who k notify v body s))
    (admitted : CallAdmitted s who k rule) (picked : pick (getSlot s k) = true)
    (works : body (begunSlot s who k rule.func notify v) (agentHost s who) (callBegun s who k rule.func notify v) = setDue k code reply u)
    (slot : getSlot u k = begunSlot s who k rule.func notify v)
    (leaves : ∀ t, SameExcept [.pm] u t → SamePm u t → P t) : CallFallsDue c s k code reply P := by
  obtain ⟨state, due, same, pm⟩ := pmCall_due admitted picked works slot
  exact ⟨_, row, state, due, leaves _ same pm⟩

theorem SamePm.record {s t : State} (h : SamePm s t) : t.pm.record = s.pm.record := by
  obtain ⟨slots, eq⟩ := h
  rw [eq]

theorem quote_settles (admitted : CallAdmitted s who slot.val (plainRule 2 true false [.awaitCarrier, .awaitBlend, .serving] [(0, 40)])) :
    (imageAddrOk ((agentHost s who).getD 0) (argAt (getSlot s slot.val) 0x20 8) quoteSize = false →
      CallAnswered (.quote who slot notify vector) s slot.val pmBadArg []) ∧
    (imageAddrOk ((agentHost s who).getD 0) (argAt (getSlot s slot.val) 0x20 8) quoteSize = true → trustBusy s slot.val = true →
      CallAnswered (.quote who slot notify vector) s slot.val pmBusy []) ∧
    (imageAddrOk ((agentHost s who).getD 0) (argAt (getSlot s slot.val) 0x20 8) quoteSize = true → trustBusy s slot.val = false →
      CallFallsDue (.quote who slot notify vector) s slot.val 0 (leBytes 4 quoteSize) (fun t => t.host = (writeHost ((agentHost s who).getD 0)
        (.quote slot.val) (argAt (getSlot s slot.val) 0x20 8) (quoteBytes s (argBytes (getSlot s slot.val) 0 32)) s).host)) := by
  refine ⟨fun bad => callAnswered rfl admitted rfl (quote_misplaced bad),
    fun fits busy => callAnswered rfl admitted rfl (quote_busy fits ((trustBusy_begun _ _ _ _ _ _).trans busy)),
    fun fits idle => callFallsDue rfl admitted rfl (quote_writes fits ((trustBusy_begun _ _ _ _ _ _).trans idle)) ?_ (fun t same _ => ?_)⟩
  · rw [getSlot, writeHost_pm]
    exact callBegun_slot _ _ _ _ _ _
  · rw [same.host_eq rfl]
    exact writeHost_host _ _ _ _ rfl

theorem ownerRegister_settles (admitted : CallAdmitted s who slot.val (plainRule 3 true false [.awaitCarrier] [(0, 72)]))
    (inside : inOwnHalf ((agentHost s who).getD 0) (argAt (getSlot s slot.val) 0x40 8) 29792 = true) (idle : trustBusy s slot.val = false) (b : List Byte) :
    (ownerHash s ≠ 0 → CallAnswered (.ownerRegister who slot notify vector (some b)) s slot.val pmOwner []) ∧
    (ownerHash s = 0 → CallFallsDue (.ownerRegister who slot notify vector none) s slot.val pmHostFetch [] (fun t => t.pm.record = s.pm.record) ∧
      (ownerSigned (argBytes (getSlot s slot.val) 0 64) (registerStatement s) (padTo 29792 b) = false →
        CallFallsDue (.ownerRegister who slot notify vector (some b)) s slot.val pmSignature [] (fun t => t.pm.record = s.pm.record)) ∧
      (ownerSigned (argBytes (getSlot s slot.val) 0 64) (registerStatement s) (padTo 29792 b) = true →
        CallFallsDue (.ownerRegister who slot notify vector (some b)) s slot.val 0 [] (fun t =>
          t.pm.record = putOwner (shake256 (argBytes (getSlot s slot.val) 0 64)) 0 s.pm.record ∧ t.log ≠ s.log))) := by
  have idle' : trustBusy (callBegun s who slot.val 3 notify vector.val) slot.val = false := (trustBusy_begun _ _ _ _ _ _).trans idle
  refine ⟨fun owned => callAnswered rfl admitted rfl (ownerRegister_owned inside idle' (some b) owned), fun free => ⟨?_, fun bad => ?_, fun good => ?_⟩⟩
  · exact callFallsDue rfl admitted rfl (ownerRegister_unread inside idle' free) (callBegun_slot _ _ _ _ _ _) (fun t _ pm => pm.record)
  · exact callFallsDue rfl admitted rfl (ownerRegister_unsigned inside idle' free bad) (callBegun_slot _ _ _ _ _ _) (fun t _ pm => pm.record)
  · obtain ⟨record, log, kept⟩ := ownerRecorded_leaves (k := slot.val) .ownerRegistered (leBytes 32 (shake256 (argBytes (getSlot s slot.val) 0 64)).toNat)
      (shake256 (argBytes (getSlot s slot.val) 0 64)) 0 (callBegun s who slot.val 3 notify vector.val)
    exact callFallsDue rfl admitted rfl (ownerRegister_signed inside idle' free good) (kept.trans (callBegun_slot _ _ _ _ _ _))
      (fun t same pm => ⟨pm.record.trans record, by rw [same.log_eq rfl]; exact log⟩)

theorem ownerTransfer_settles (admitted : CallAdmitted s who slot.val (plainRule 4 true false [.awaitCarrier] [(0, 136)]))
    (inside : inOwnHalf ((agentHost s who).getD 0) (argAt (getSlot s slot.val) 0x80 8) 59584 = true) (idle : trustBusy s slot.val = false) (b : List Byte) :
    (ownerMatches s (argBytes (getSlot s slot.val) 0 64) = false → CallAnswered (.ownerTransfer who slot notify vector (some b)) s slot.val pmOwner []) ∧
    (ownerMatches s (argBytes (getSlot s slot.val) 0 64) = true →
      (transferSigned s (getSlot s slot.val) b = false →
        CallFallsDue (.ownerTransfer who slot notify vector (some b)) s slot.val pmSignature [] (fun t => t.pm.record = s.pm.record)) ∧
      (transferSigned s (getSlot s slot.val) b = true →
        CallFallsDue (.ownerTransfer who slot notify vector (some b)) s slot.val 0 [] (fun t =>
          t.pm.record = putOwner (shake256 (argBytes (getSlot s slot.val) 0x40 64)) (ownerCounter s + 1) s.pm.record ∧ t.log ≠ s.log))) := by
  have idle' : trustBusy (callBegun s who slot.val 4 notify vector.val) slot.val = false := (trustBusy_begun _ _ _ _ _ _).trans idle
  refine ⟨fun other => callAnswered rfl admitted rfl (ownerTransfer_foreign inside idle' (some b) other), fun own => ⟨fun bad => ?_, fun good => ?_⟩⟩
  · exact callFallsDue rfl admitted rfl (ownerTransfer_unsigned inside idle' own bad) (callBegun_slot _ _ _ _ _ _) (fun t _ pm => pm.record)
  · obtain ⟨record, log, kept⟩ := ownerRecorded_leaves (k := slot.val) .ownerTransferred (transferLogged s (getSlot s slot.val))
      (shake256 (argBytes (getSlot s slot.val) 0x40 64)) (ownerCounter s + 1) (callBegun s who slot.val 4 notify vector.val)
    exact callFallsDue rfl admitted rfl (ownerTransfer_signed inside idle' own good) (kept.trans (callBegun_slot _ _ _ _ _ _))
      (fun t same pm => ⟨pm.record.trans record, by rw [same.log_eq rfl]; exact log⟩)

/-- The rule of CARRIER_LOAD. -/
def carrierRule : CallRule := { plainRule 5 true false [.awaitCarrier] [(0, 12), (0x10, 16)] with load := true }

theorem carrierLoad_settles (admitted : CallAdmitted s who slot.val carrierRule)
    (fits : imageAddrOk ((agentHost s who).getD 0) (argAt (getSlot s slot.val) 0 8) (argAt (getSlot s slot.val) 8 4) = true)
    (short : argAt (getSlot s slot.val) 8 4 ≤ carrierLimit) (long : 0x100 + sigBlockLen ≤ argAt (getSlot s slot.val) 8 4)
    (region : regionOk s (argAt (getSlot s slot.val) 0x10 8) (argAt (getSlot s slot.val) 0x18 8) (argAt (getSlot s slot.val) 8 4) = true) :
    (loadRuns s = true → CallAnswered (.carrierLoad who slot notify vector) s slot.val (loadCode 0x24 0) []) ∧
    (loadRuns s = false → ∃ t l, exec (.carrierLoad who slot notify vector) s = .next t ∧ (getSlot t slot.val).state = 1 ∧
      t.pm.carrierLoading = some l ∧ l.slot = slot.val ∧ l.base = argAt (getSlot s slot.val) 0x10 8 ∧ l.size = argAt (getSlot s slot.val) 0x18 8 ∧
      l.imageLen = argAt (getSlot s slot.val) 8 4) := by
  have works := carrierLoad_checked (s := callBegun s who slot.val 5 notify vector.val) (k := slot.val)
    (x := begunSlot s who slot.val 5 notify vector.val) (caller := agentHost s who) rfl rfl rfl rfl fits short long region
  have runs_ : loadRuns (callBegun s who slot.val 5 notify vector.val) = loadRuns s := rfl
  rw [runs_] at works
  refine ⟨fun runs => callAnswered (rule := carrierRule) rfl admitted rfl (works.trans (if_pos runs)), fun free => ?_⟩
  have runs := pmCall_of_admitted admitted anyArgs notify vector.val (carrierLoad slot.val) rfl
  rw [show carrierLoad slot.val (begunSlot s who slot.val carrierRule.func notify vector.val) (agentHost s who)
    (callBegun s who slot.val carrierRule.func notify vector.val) = _ from works.trans (if_neg (by rw [free]; decide))] at runs
  exact ⟨_, _, congrArg Host.Outcome.next runs, congrArg CallSlot.state (callBegun_slot s who slot.val 5 notify vector.val), rfl, rfl, rfl, rfl, rfl⟩

end

/-! ### The ends (R414, R420, R424-R427) -/

section
variable {s : State}

theorem carrierLoadDone_settles {l : CarrierLoading} (b : List Byte) (loads : s.pm.carrierLoading = some l) (waits : s.mode = .awaitCarrier)
    (busy : (getSlot s l.slot).state = 1) (kept : (getSlot s l.slot).discard = false) :
    let failed (v : Option (List Byte)) (c phase : Nat) : Prop := ∃ t, exec (.carrierLoadDone v) s = .next t ∧ t.mode = .awaitCarrier ∧
      t.pm.carrierLoading = none ∧ t.pm.carrierRuns = s.pm.carrierRuns ∧ CallEnded t l.slot (loadCode c phase) []
    failed none pmHostFetch 0 ∧
    (carrierHeader (padTo l.imageLen b) l.imageLen ≠ 0 → failed (some b) (carrierHeader (padTo l.imageLen b) l.imageLen) 0) ∧
    (carrierHeader (padTo l.imageLen b) l.imageLen = 0 → checkSignature s carrierContext (padTo l.imageLen b) ≠ 0 →
      failed (some b) (checkSignature s carrierContext (padTo l.imageLen b)) 2) ∧
    (carrierHeader (padTo l.imageLen b) l.imageLen = 0 → checkSignature s carrierContext (padTo l.imageLen b) = 0 →
      ∃ t, exec (.carrierLoadDone (some b)) s = .next t ∧ t.mode = .awaitBlend ∧ t.pm.carrierRuns = true ∧ t.pm.carrierBase = l.base ∧
        t.pm.carrierSize = l.size ∧ t.pm.carrierMeas = shake256 (signedMessage (padTo l.imageLen b)) ∧ t.power.wdogKick = s.devTime ∧
        CallEnded t l.slot (loadCode 0 6) []) := by
  intro failed
  have copied := carrierCopied_pm l (padTo l.imageLen b) s
  have mode := carrierCopied_mode l (padTo l.imageLen b) s
  refine ⟨?_, fun bad => ?_, fun good bad => ?_, fun good signed => ?_⟩
  · exact ⟨_, congrArg Host.Outcome.next (carrierLoaded_unread loads waits), carrierLoad_fails busy kept waits rfl rfl⟩
  · exact ⟨_, congrArg Host.Outcome.next (carrierLoaded_malformed loads waits b bad), carrierLoad_fails busy kept waits copied mode⟩
  · exact ⟨_, congrArg Host.Outcome.next (carrierLoaded_unsigned loads waits b good bad), carrierLoad_fails busy kept waits copied mode⟩
  · exact ⟨_, congrArg Host.Outcome.next (carrierLoaded_signed loads waits b good signed), carrierLoad_starts (padTo l.imageLen b) busy kept rfl⟩

theorem callDone_settles (slot : Fin 12) (runs : (getSlot s slot.val).state = 1) (kept : (getSlot s slot.val).discard = false) :
    (∀ r reply, (getSlot s slot.val).due = some (r, reply) → (quoteGone s slot.val = false → exec (.pmCallDone slot) s = .next s) ∧
      (quoteGone s slot.val = true → CallAnswered (.pmCallDone slot) s slot.val r.toNat reply)) ∧
    ((getSlot s slot.val).due = none → (getSlot s slot.val).waits ≠ [] → segCallOn s (getSlot s slot.val).waits = false →
      (getSlot s slot.val).waits.all (ownsContext s ((getSlot s slot.val).caller.getD 0)) = true →
      (getSlot s slot.val).waits.all (contextFree s) = true → ∃ t, exec (.pmCallDone slot) s = .next t ∧ CallEnded t slot.val 0 [] ∧
        ∀ c ∈ (getSlot s slot.val).waits, tabFind t.pm.contexts c = none) := by
  refine ⟨fun r reply due => ⟨fun held => ?_, fun gone => ?_⟩, fun due waits free own unused => ?_⟩
  · exact congrArg Host.Outcome.next ((callDone_due runs due).trans (if_neg (by rw [held]; decide)))
  · exact ⟨_, congrArg Host.Outcome.next ((callDone_due runs due).trans (if_pos gone)), finishCall_ends runs kept, finishCall_reach _ _ _ _⟩
  · refine ⟨_, congrArg Host.Outcome.next (callDone_released runs due waits free own unused), finishCall_ends runs kept, fun c listed => ?_⟩
    obtain ⟨slots, pm⟩ := finishCall_samePm slot.val pmOk []
      { s with pm := { s.pm with contexts := (getSlot s slot.val).waits.foldl tabDel s.pm.contexts } }
    rw [pm]
    exact tabFind_deleted (getSlot s slot.val).waits s.pm.contexts c (.inl listed)

theorem stackOut_seed (k : Nat) (s : State) : (stackOut k s).pm.seed = s.pm.seed := congrArg PmState.seed ((stackOut_reach k s).pm_eq rfl)

theorem trainLane_seed (k ch lane : Nat) (s : State) : (trainLane k ch lane s).pm.seed = s.pm.seed := by
  unfold trainLane
  dsimp only
  split
  · rfl
  split
  · exact stackOut_seed k s
  · rw [(logEvent_reach _ _ _ _).pm_eq rfl]
    rfl

theorem trainStack_seed (l : List StackTraining) (k : Nat) (s : State) : (trainStack l k s).pm.seed = s.pm.seed := by
  have lanes : ∀ (l : List (Fin 16 × Fin 64)) (t : State), (forEach l (fun e u => trainLane k e.1.val e.2.val u) t).pm.seed = t.pm.seed :=
    fun l t => forEach_keeps (f := fun u : State => u.pm.seed) (fun (e : Fin 16 × Fin 64) u => trainLane_seed k e.1.val e.2.val u) l t
  have recorded : ∀ (f : ModRecord → ModRecord) (t : State), (updRecord f t).pm.seed = t.pm.seed := fun _ _ => rfl
  unfold trainStack
  dsimp only
  rw [(updMc_reach _ _ _).pm_eq rfl]
  split
  · rw [(updMc_reach _ _ _).pm_eq rfl]
  · rw [recorded]
    split
    · rw [stackOut_seed, lanes, (updMc_reach _ _ _).pm_eq rfl]
    · rw [lanes, (updMc_reach _ _ _).pm_eq rfl]

theorem bootTrained_seed (l : List StackTraining) (s : State) : (bootTrained l s).pm.seed = s.pm.seed := by
  have begun := forEach_keeps (f := fun u : State => u.pm.seed) (m := patrolBegins) (fun _ _ => rfl) (List.range 12) (forEach (List.range 12) (trainStack l) s)
  exact begun.trans (forEach_keeps (f := fun u : State => u.pm.seed) (trainStack_seed l) (List.range 12) s)

theorem bootDone_settles (puf : Bool) (training : List StackTraining) (rom : s.mode = .rom) (boots : s.pm.booting = true) :
    (s.pm.recordBad ≠ none → ∃ t, exec (.bootDone puf training) s = .next t ∧ t.mode = .faulted ∧ t.pm.fault = 1) ∧
    (s.pm.recordBad = none → ownerNow s.pm.record ≠ none → puf = false →
      ∃ t, exec (.bootDone puf training) s = .next t ∧ t.mode = .faulted ∧ t.pm.fault = 2) ∧
    (s.pm.recordBad = none → ownerNow s.pm.record ≠ none → puf = true → ∃ t, exec (.bootDone puf training) s = .next t ∧ t.mode = .awaitCarrier ∧
      t.pm.seed = some Config.pufSeed ∧ t.blend.reserve = pickReserve t ∧ ∀ j < 12, (getMc t j).patrolNext = 0 ∧
        (training.find? (fun v => v.stack.val == j) = none → (getMc t j).train = 1 ∨ (getMc t j).train = 2)) := by
  have rom' : (bootOver s).mode = .rom := rom
  refine ⟨fun bad => ?_, fun good owned failed => ?_, fun good owned sound => ?_⟩
  · obtain ⟨o, does⟩ := bootDone_badRecord (puf := puf) (training := training) rom boots bad
    have mode : (logEvent .recordInvalid islTrust (leBytes 4 o) (bootOver s)).mode = .rom := ((logEvent_reach _ _ _ _).mode_eq rfl).trans rom'
    obtain ⟨faulted, code, -⟩ := enterFaulted_leaves (s := logEvent .recordInvalid islTrust (leBytes 4 o) (bootOver s)) (fault := 1)
      (by rw [mode]; decide) (by rw [mode]; decide)
    exact ⟨_, congrArg Host.Outcome.next does, faulted, code⟩
  · have mode : (logEvent .pufFailed islTrust [] (bootOver s)).mode = .rom := ((logEvent_reach _ _ _ _).mode_eq rfl).trans rom'
    obtain ⟨faulted, code, -⟩ := enterFaulted_leaves (s := logEvent .pufFailed islTrust [] (bootOver s)) (fault := 2)
      (by rw [mode]; decide) (by rw [mode]; decide)
    exact ⟨_, congrArg Host.Outcome.next ((bootDone_sound rom boots good owned).trans (if_neg (by rw [failed]; decide))), faulted, code⟩
  · obtain ⟨mode, pm, reserve, mc⟩ := bootServes_leaves (bootTrained training (bootSeeded s))
    refine ⟨_, congrArg Host.Outcome.next ((bootDone_sound rom boots good owned).trans (if_pos sound)), mode, ?_, reserve, fun j below => ?_⟩
    · rw [pm, bootTrained_seed]
      rfl
    · rw [mc]
      exact bootTrained_leaves training (bootSeeded s) below

end

/-- Settles O55: each call by what its body does once admitted, the Carrier load by how far its image is good, the boot by its record and its PUF. -/
theorem bootAndIdentityHold : Obligations.BootAndIdentityHold := by
  unfold Obligations.BootAndIdentityHold
  intro who slot notify vector b bad puf training s k x half due answered key newKey m
  refine ⟨fun admitted => callAnswered rfl admitted rfl rfl, fun admitted => quote_settles admitted,
    fun admitted inside idle => ownerRegister_settles admitted inside idle b, fun admitted inside idle => ownerTransfer_settles admitted inside idle b,
    fun admitted fits short long region => carrierLoad_settles admitted fits short long region,
    fun l loads waits busy kept => carrierLoadDone_settles b loads waits busy kept, fun runs kept => callDone_settles slot runs kept,
    fun at_ rom idle high set late => ?_, fun rom boots => bootDone_settles puf training rom boots⟩
  obtain ⟨booting, bootDue, serial, copy, islands, log, mode⟩ := bootStart_leaves (bad := bad.map (·.toNat)) rom idle high set late
  refine ⟨_, rfl, booting, bootDue, ?_, ?_, islands, log, mode⟩
  · rw [serial]
    cases bad <;> rfl
  · rw [copy]
    cases bad <;> rfl

end Sys2Proof.Machine
end
end

section
/-! SUPPORT. What the calls of R415 that change a table do once they are admitted. -/
section
namespace Sys2Proof.Machine

/-! ### An admitted call ends, or is refused -/

section
variable {who : Agent} {k v : Nat} {notify : Bool} {s : State} {c : Instr} {rule : CallRule} {pick : CallSlot → Bool}
  {body : CallSlot → Option Nat → State → State × CallEnd}

/-- A call ends with a code. -/
def CallEnds (c : Instr) (s : State) (k code : Nat) (P : State → Prop) : Prop := ∃ t, exec c s = .next t ∧ CallEnded t k code [] ∧ P t

/-- A call ends with a code and changes neither contexts nor keys, nor anything but the Postmaster's and the hosts' state. -/
def CallRefuses (c : Instr) (s : State) (k code : Nat) : Prop :=
  CallEnds c s k code (fun t => SameExcept [.pm, .host] s t ∧ t.pm.contexts = s.pm.contexts ∧ t.pm.keys = s.pm.keys)

theorem callEnds {u : State} {code : Nat} {P : State → Prop} (row : exec c s = .next (pmCall rule pick who k notify v body s))
    (admitted : CallAdmitted s who k rule) (picked : pick (getSlot s k) = true)
    (works : body (begunSlot s who k rule.func notify v) (agentHost s who) (callBegun s who k rule.func notify v) = (u, .now code []))
    (slots : getSlot u k = getSlot (callBegun s who k rule.func notify v) k) (leaves : ∀ t, SameExcept [.pm, .host] u t → SamePm u t → P t) :
    CallEnds c s k code P := by
  obtain ⟨ended, same, pm⟩ := pmCall_ends admitted picked works (slots.trans (callBegun_slot _ _ _ _ _ _))
  exact ⟨_, row, ended, leaves _ same pm⟩

/-- A call that goes on. -/
theorem pmCall_later {u : State} (admitted : CallAdmitted s who k rule) (picked : pick (getSlot s k) = true)
    (works : body (begunSlot s who k rule.func notify v) (agentHost s who) (callBegun s who k rule.func notify v) = (u, .later)) :
    pmCall rule pick who k notify v body s = u := by
  rw [pmCall_of_admitted admitted pick notify v body picked, works]

theorem callRefuses {code : Nat} (row : exec c s = .next (pmCall rule pick who k notify v body s))
    (admitted : CallAdmitted s who k rule) (picked : pick (getSlot s k) = true)
    (works : body (begunSlot s who k rule.func notify v) (agentHost s who) (callBegun s who k rule.func notify v) =
      (callBegun s who k rule.func notify v, .now code [])) : CallRefuses c s k code := by
  obtain ⟨ended, same, slots, pm⟩ := pmCall_refused admitted picked works
  exact ⟨_, row, ended, same, by rw [pm], by rw [pm]⟩

end

/-! ### Contexts and queues (R369, R405, R420) -/

section
variable {x : CallSlot} {caller : Option Nat} {s : State}

theorem tabFind_putAll {h : Nat} : ∀ (l : List Nat) (m : Tab Nat) (c : Nat), tabFind (l.foldl (fun t c => tabPut t c h) m) c =
    if c ∈ l then some h else tabFind m c
  | [], m, c => by simp
  | n :: l, m, c => by
    rw [List.foldl_cons, tabFind_putAll l]
    by_cases later : c ∈ l
    · rw [if_pos later, if_pos (List.mem_cons_of_mem _ later)]
    · by_cases same : c = n
      · subst same
        rw [if_neg later, tabFind_tabPut_same, if_pos List.mem_cons_self]
      · rw [if_neg later, tabFind_tabPut_ne _ _ same, if_neg (by simp [same, later])]

/-- The contexts of a range claimed for a host. -/
def contextsClaimed (h : Nat) (l : List Nat) (s : State) : State :=
  { s with pm := { s.pm with contexts := l.foldl (fun t c => tabPut t c h) s.pm.contexts } }

/-- The contexts of a range released. -/
def contextsReleased (l : List Nat) (s : State) : State := { s with pm := { s.pm with contexts := l.foldl tabDel s.pm.contexts } }

theorem claimContexts_free (sound : ctxArgsOk x = true)
    (free : ∀ c ∈ ctxRange x, tabFind s.pm.contexts c = none ∨ tabFind s.pm.contexts c = some (caller.getD 0)) :
    claimContexts x caller s = (contextsClaimed (caller.getD 0) (ctxRange x) s, .now pmOk []) := by
  have none_ : (ctxRange x).any (fun c => match tabFind s.pm.contexts c with | some g => g != caller.getD 0 | none => false) = false :=
    List.any_eq_false.2 (fun c listed => by
      obtain absent | own := free c listed
      · simp [absent]
      · simp [own])
  unfold claimContexts
  exact (if_neg (by rw [sound]; decide)).trans (if_neg (fun taken => Bool.false_ne_true (none_.symm.trans taken)))

theorem claimContexts_taken (sound : ctxArgsOk x = true) (taken : ∃ c ∈ ctxRange x, ∃ g, g ≠ caller.getD 0 ∧ tabFind s.pm.contexts c = some g) :
    claimContexts x caller s = (s, .now pmNotPermitted []) := by
  obtain ⟨c, listed, g, other, held⟩ := taken
  have some_ : (ctxRange x).any (fun c => match tabFind s.pm.contexts c with | some g => g != caller.getD 0 | none => false) = true :=
    List.any_eq_true.2 ⟨c, listed, by simpa [held] using other⟩
  unfold claimContexts
  exact (if_neg (by rw [sound]; decide)).trans (if_pos some_)

section
variable (sound : ctxArgsOk x = true)
include sound

theorem releaseContexts_waits (k : Nat) (on : segCallOn s (ctxRange x) = true) :
    releaseContexts k x caller s = (updSlot s k (fun y => { y with waits := ctxRange x }), .later) := by
  unfold releaseContexts
  rw [if_neg (by rw [sound]; decide), if_pos on]

theorem releaseContexts_ends (k : Nat) (off : segCallOn s (ctxRange x) = false) (own : (ctxRange x).all (ownsContext s (caller.getD 0)) = true) :
    releaseContexts k x caller s = if (ctxRange x).all (contextFree s) then (contextsReleased (ctxRange x) s, .now pmOk []) else (s, .now pmWrongState []) := by
  unfold releaseContexts releaseNow contextsReleased
  rw [if_neg (by rw [sound]; decide), if_neg (by rw [off]; decide), if_neg (by rw [own]; decide)]
  cases (ctxRange x).all (contextFree s) <;> rfl

end

theorem queueContext_checked (flag : argAt x 4 1 ≤ 1) (queue : argAt x 0 2 < 1024) (context : argAt x 2 2 < 4096)
    (claimed : claims s (caller.getD 0) (argAt x 0 2) = true) (own : ownsContext s (caller.getD 0) (argAt x 2 2) = true) :
    queueContext x caller s = if (getQ s (argAt x 0 2)).enable then (s, .now pmWrongState []) else
      (updQ s (argAt x 0 2) (fun y => { y with context := argAt x 2 2, bound := true, ringFeedOk := argAt x 4 1 == 1 }), .now pmOk []) := by
  unfold queueContext
  dsimp only
  rw [if_neg (by omega), if_neg (by omega), if_neg (by rw [claimed, own]; decide)]

/-- The queues of a list set by a change that leaves what it has left. -/
theorem queuesSet {m : QueueState → QueueState} (settled : ∀ y, m (m y) = m y) : ∀ (l : List Nat) (s : State),
    ∀ q ∈ l, getQ (forEach l (fun q t => updQ t q m) s) q = m (getQ s q) := by
  intro l
  have stays : ∀ (l : List Nat) (q : Nat) (y : QueueState) (s : State), getQ s q = m y → getQ (forEach l (fun q t => updQ t q m) s) q = m y := by
    intro l
    induction l with
    | nil => exact fun _ _ _ same => same
    | cons n l ih =>
      intro q y s same
      refine ih q y _ ?_
      by_cases here : q = n
      · subst here
        rw [getQ_updQ, same, settled]
      · exact (getQ_setQ_ne _ _ here).trans same
  induction l with
  | nil => exact fun _ _ listed => absurd listed List.not_mem_nil
  | cons n l ih =>
    intro s q listed
    by_cases here : q = n
    · subst here
      exact stays l q (getQ s q) _ (getQ_updQ _ _ _)
    · have below := ih (updQ s n m) q ((List.mem_cons.1 listed).resolve_left here)
      rw [show getQ (updQ s n m) q = getQ s q from getQ_setQ_ne _ _ here] at below
      exact below

/-- A queue that the ring feeds. -/
def ringFedQueue (y : QueueState) : QueueState := { y with ringFed := true }

/-- A queue that the ring feeds no more. -/
def ringFreedQueue (y : QueueState) : QueueState := { y with ringFed := false, fed := [] }

section
variable (sound : ringArgsOk x = true)
include sound

theorem ringSet_refused (one : ∃ q ∈ ctxRange x, (getQ s q).ringFeedOk = false) : ringSet x s = (s, .now pmNotPermitted []) := by
  obtain ⟨q, listed, off⟩ := one
  unfold ringSet
  exact (if_neg (by rw [sound]; decide)).trans (if_pos (List.any_eq_true.2 ⟨q, listed, by rw [off]; decide⟩))

theorem ringSet_feeds (all : ∀ q ∈ ctxRange x, (getQ s q).ringFeedOk = true ∧ (queueBind s q).isSome = true) :
    ringSet x s = (forEach (ctxRange x) (fun q t => updQ t q ringFedQueue) s, .now pmOk []) := by
  have fed : (ctxRange x).any (fun q => !(getQ s q).ringFeedOk) = false := List.any_eq_false.2 (fun q listed => by simp [(all q listed).1])
  have bound : (ctxRange x).any (fun q => (queueBind s q).isNone) = false :=
    List.any_eq_false.2 (fun q listed => by simpa [Option.isSome_iff_ne_none] using (all q listed).2)
  unfold ringSet
  exact (if_neg (by rw [sound]; decide)).trans ((if_neg (by rw [fed]; decide)).trans (if_neg (by rw [bound]; decide)))

theorem ringClear_frees (off : ∀ q ∈ ctxRange x, (getQ s q).enable = false) :
    ringClear x s = (forEach (ctxRange x) (fun q t => updQ t q ringFreedQueue) s, .now pmOk []) := by
  have idle : (ctxRange x).any (fun q => (getQ s q).ringFed && (getQ s q).enable) = false :=
    List.any_eq_false.2 (fun q listed => by simp [off q listed])
  unfold ringClear
  exact (if_neg (by rw [sound]; decide)).trans (if_neg (by rw [idle]; decide))

end

/-! ### Save pools and aborts (R370, R373) -/

theorem tabDel_absent {α : Type} {n : Nat} : ∀ {m : Tab α}, tabFind m n = none → tabDel m n = m
  | [], _ => rfl
  | (j, w) :: m, absent => by
    rw [tabFind] at absent
    by_cases here : n = j
    · rw [if_pos here] at absent
      exact absurd absent (Option.some_ne_none w)
    · rw [if_neg here] at absent
      rw [tabDel, if_neg here, tabDel_absent absent]

/-- A partition's save pools replaced. -/
def poolsSet (pools : Tab SavePool) (s : State) : State := { s with qs := { s.qs with pools := pools } }

section
variable (part : (getPart s (argAt x 0 1)).isSome = true) (aligned : argAt x 8 8 % 4096 = 0) (few : argAt x 0x10 4 ≤ 65535)
  (unused_ : ∀ p, tabFind s.qs.pools (argAt x 0 1) = some p → p.used = [])
include part aligned few unused_

theorem savePool_checked : savePool x s =
    if argAt x 0x10 4 = 0 then (poolsSet (tabDel s.qs.pools (argAt x 0 1)) s, .now pmOk [])
    else if !inService s (argAt x 8 8) (argAt x 0x10 4 * slotBytes s (argAt x 0 1)) then (s, .now pmBadArg [])
    else if meetsAny (argAt x 8 8) (argAt x 0x10 4 * slotBytes s (argAt x 0 1)) (protectedRanges (poolsSet (tabDel s.qs.pools (argAt x 0 1)) s)) ||
        segmentOver s (argAt x 8 8) (argAt x 0x10 4 * slotBytes s (argAt x 0 1)) then (s, .now pmProtected [])
    else (poolsSet (tabPut s.qs.pools (argAt x 0 1) { base := argAt x 8 8, slots := argAt x 0x10 4, used := [] }) s, .now pmOk []) := by
  have idle : (match tabFind s.qs.pools (argAt x 0 1) with | some p => decide (p.used ≠ []) | none => false) = false := by
    cases is : tabFind s.qs.pools (argAt x 0 1) with
    | none => rfl
    | some p => simp [unused_ p is]
  unfold savePool
  refine (if_neg ?_).trans (if_neg (fun taken => Bool.false_ne_true (idle.symm.trans taken)))
  obtain ⟨p, is⟩ := Option.isSome_iff_exists.1 part
  rw [is, not_or, not_or]
  exact ⟨Bool.false_ne_true, not_not.2 aligned, by omega⟩

theorem savePool_removes (zero : argAt x 0x10 4 = 0) : savePool x s = (poolsSet (tabDel s.qs.pools (argAt x 0 1)) s, .now pmOk []) :=
  (savePool_checked part aligned few unused_).trans (if_pos zero)

theorem savePool_protected (some_ : argAt x 0x10 4 ≠ 0)
    (serves : inService s (argAt x 8 8) (argAt x 0x10 4 * slotBytes s (argAt x 0 1)) = true)
    (over_ : segmentOver s (argAt x 8 8) (argAt x 0x10 4 * slotBytes s (argAt x 0 1)) = true) : savePool x s = (s, .now pmProtected []) :=
  (savePool_checked part aligned few unused_).trans ((if_neg some_).trans ((if_neg (by rw [serves]; decide)).trans (if_pos (by rw [over_, Bool.or_true]))))

theorem savePool_sets (absent : tabFind s.qs.pools (argAt x 0 1) = none) (some_ : argAt x 0x10 4 ≠ 0)
    (serves : inService s (argAt x 8 8) (argAt x 0x10 4 * slotBytes s (argAt x 0 1)) = true)
    (clear : segmentOver s (argAt x 8 8) (argAt x 0x10 4 * slotBytes s (argAt x 0 1)) = false)
    (open_ : meetsAny (argAt x 8 8) (argAt x 0x10 4 * slotBytes s (argAt x 0 1)) (protectedRanges s) = false) : savePool x s =
      (poolsSet (tabPut s.qs.pools (argAt x 0 1) { base := argAt x 8 8, slots := argAt x 0x10 4, used := [] }) s, .now pmOk []) := by
  have same : poolsSet (tabDel s.qs.pools (argAt x 0 1)) s = s := by rw [tabDel_absent absent, poolsSet]
  refine (savePool_checked part aligned few unused_).trans ((if_neg some_).trans ((if_neg (by rw [serves]; decide)).trans (if_neg ?_)))
  rw [same, open_, clear]
  decide

end

section
variable {i : Nat} {v : Invocation}

theorem abortInv_unknown (absent : getInv s (argAt x 0 8) = none) : abortInv x caller s = (s, .now pmBadArg []) := by
  unfold abortInv
  dsimp only
  rw [absent]

theorem abortInv_foreign (known : getInv s (argAt x 0 8) = some v) (runs : v.early = none) {g : Nat} (host : caller = some g)
    (other : claims s g v.queue = false) : abortInv x caller s = (s, .now pmNotPermitted []) := by
  subst host
  unfold abortInv
  dsimp only
  rw [known]
  exact (if_neg (by rw [runs]; decide)).trans (if_pos (by rw [other]; decide))

theorem abortInv_ends (known : getInv s (argAt x 0 8) = some v) (runs : v.early = none) (own : ∀ g, caller = some g → claims s g v.queue = true) :
    abortInv x caller s = (endEarly (argAt x 0 8) .aborted 0x32 (abortBatches (argAt x 0 8) s), .now pmOk []) := by
  unfold abortInv
  dsimp only
  rw [known]
  refine (if_neg (by rw [runs]; decide)).trans (if_neg ?_)
  cases caller with
  | none => exact Bool.false_ne_true
  | some g =>
    dsimp only
    rw [own g rfl]
    decide

end

end

end Sys2Proof.Machine
end
end

section
/-! SUPPORT. What the calls of R415 for keys, windows, groups, repairs and retirements do once they are admitted. -/
section
namespace Sys2Proof.Machine

section
variable {x : CallSlot} {caller : Option Nat} {s : State} {k : Nat}

/-! ### Keys (R432-R434) -/

/-- The key slots replaced. -/
def keysSet (keys : Tab KeySlot) (s : State) : State := { s with pm := { s.pm with keys := keys } }

section
variable (slot : argAt x 0 2 < 4096)
include slot

section
variable (context : argAt x 2 2 < 4096)
include context

theorem keyInstall_taken (own : ownsContext s (caller.getD 0) (argAt x 2 2) = true) (taken : (tabFind s.pm.keys (argAt x 0 2)).isSome = true) :
    keyInstall k x caller s = (s, .now pmFull []) := by
  unfold keyInstall
  dsimp only
  rw [if_neg (by omega), if_neg (by rw [own]; decide), if_pos taken]

theorem keyInstall_free (own : ownsContext s (caller.getD 0) (argAt x 2 2) = true) (free : tabFind s.pm.keys (argAt x 0 2) = none) :
    keyInstall k x caller s = match unwrapKey s x with
      | none => setDue k pmUnwrap [] s
      | some key => setDue k pmOk [] (keysSet (tabPut s.pm.keys (argAt x 0 2) { key := key, context := argAt x 2 2 }) s) := by
  unfold keyInstall
  dsimp only
  rw [if_neg (by omega), if_neg (by rw [own]; decide), if_neg (by rw [free]; decide)]
  cases unwrapKey s x <;> rfl

theorem keyBind_foreign (other : ownKey s (caller.getD 0) (argAt x 0 2) = none) : keyBind x caller s = (s, .now pmNotPermitted []) := by
  unfold keyBind
  dsimp only
  rw [if_neg (by omega), other]

theorem keyBind_binds {v : KeySlot} (mine : ownKey s (caller.getD 0) (argAt x 0 2) = some v)
    (own : ownsContext s (caller.getD 0) (argAt x 2 2) = true) :
    keyBind x caller s = (keysSet (tabPut s.pm.keys (argAt x 0 2) { v with context := argAt x 2 2 }) s, .now pmOk []) := by
  unfold keyBind
  dsimp only
  rw [if_neg (by omega), mine]
  exact if_neg (by rw [own]; decide)

end

theorem keyRemove_foreign (other : ownKey s (caller.getD 0) (argAt x 0 2) = none) : keyRemove x caller s = (s, .now pmNotPermitted []) := by
  unfold keyRemove
  dsimp only
  rw [if_neg (by omega), other]

theorem keyRemove_removes (mine : (ownKey s (caller.getD 0) (argAt x 0 2)).isSome = true) :
    keyRemove x caller s = (keysSet (tabDel s.pm.keys (argAt x 0 2)) s, .now pmOk []) := by
  obtain ⟨v, is⟩ := Option.isSome_iff_exists.1 mine
  unfold keyRemove keysSet
  dsimp only
  rw [if_neg (by omega), is]

end

/-! ### Export windows and groups (R390, R392) -/

/-- The windows of the caller replaced. -/
def windowsSet (windows : Tab ExportWin) (s : State) : State := { s with courier := { s.courier with windows := windows } }

/-- The window that the arguments spell. -/
def argWindow (x : CallSlot) : ExportWin where
  base := argAt x 8 8
  length := argAt x 0x10 8
  read := bitOf (argAt x 1 1) 0
  write := bitOf (argAt x 1 1) 1
  atomic := bitOf (argAt x 1 1) 2
  sources := argAt x 0x18 8

theorem exportWindow_checked (window : argAt x 0 1 < 64) (rights : argAt x 1 1 ≤ 7) (base : argAt x 8 8 % 4096 = 0) (length : argAt x 0x10 8 % 4096 = 0)
    (inside : argAt x 8 8 + argAt x 0x10 8 ≤ hbmTop) : exportWindow x caller s =
      if argAt x 0x10 8 = 0 then (windowsSet (tabDel s.courier.windows (argAt x 0 1)) s, .now pmOk [])
      else if !covered (ownHbm s (caller.getD 0)) ((ownHbm s (caller.getD 0)).length + 1) (argAt x 8 8) (argAt x 0x10 8) then (s, .now pmBadArg [])
      else (windowsSet (tabPut s.courier.windows (argAt x 0 1) (argWindow x)) s, .now pmOk []) := by
  unfold exportWindow
  dsimp only
  rw [if_neg (by omega), if_neg (by omega)]
  rfl

theorem groupWrite_checked (write : argAt x 0x20 1 = 0) (sound : groupArgsOk x (parseGroup x) = true) : groupWrite x caller s =
    if !groupOwner s caller (parseGroup x).context ||
        (match tabFind s.courier.groups (argAt x 0 2) with | some o => !groupOwner s caller o.context | none => false) then (s, .now pmNotPermitted [])
    else if !groupBufferOk s (parseGroup x) || !groupSemOk s (parseGroup x) then (s, .now pmBadArg [])
    else (putGroup (argAt x 0 2) (some (parseGroup x)) s, .now pmOk []) := by
  unfold groupWrite
  exact if_neg (by rw [write, sound]; decide)

theorem groupWrite_foreign (write : argAt x 0x20 1 = 0) (sound : groupArgsOk x (parseGroup x) = true)
    (other : ¬groupOwner s caller (parseGroup x).context = true) : groupWrite x caller s = (s, .now pmNotPermitted []) :=
  (groupWrite_checked write sound).trans (if_pos (by rw [Bool.eq_false_iff.2 other]; rfl))

theorem groupWrite_writes (write : argAt x 0x20 1 = 0) (sound : groupArgsOk x (parseGroup x) = true) (buffer : groupBufferOk s (parseGroup x) = true)
    (sem : groupSemOk s (parseGroup x) = true) (mine : groupOwner s caller (parseGroup x).context = true)
    (free : ∀ o, tabFind s.courier.groups (argAt x 0 2) = some o → groupOwner s caller o.context = true) :
    groupWrite x caller s = (putGroup (argAt x 0 2) (some (parseGroup x)) s, .now pmOk []) := by
  have open_ : (match tabFind s.courier.groups (argAt x 0 2) with | some o => !groupOwner s caller o.context | none => false) = false := by
    cases is : tabFind s.courier.groups (argAt x 0 2) with
    | none => rfl
    | some o => simp [free o is]
  refine (groupWrite_checked write sound).trans ((if_neg (fun taken => ?_)).trans (if_neg (by rw [buffer, sem]; decide)))
  rw [mine, Bool.not_true, Bool.false_or] at taken
  exact Bool.false_ne_true (open_.symm.trans taken)

theorem groupDelete_checked {o : GroupRec} (group : argAt x 0 2 < 256) (zero : allZero (argBytes x 2 30) = true)
    (held : tabFind s.courier.groups (argAt x 0 2) = some o) :
    groupDelete x caller s = if groupOwner s caller o.context then (putGroup (argAt x 0 2) none s, .now pmOk []) else (s, .now pmNotPermitted []) := by
  unfold groupDelete
  dsimp only
  rw [if_neg (by rw [zero, not_or]; exact ⟨by omega, Bool.false_ne_true⟩), held]

/-! ### Repairs and retirements (R300, R439) -/

/-- The fix that a repair of a lane leaves. -/
def argFix (x : CallSlot) : LaneFix := { stack := argAt x 0 1, channel := argAt x 2 1, lane := argAt x 3 1, erased := false }

/-- The row that a repair names. -/
def argRow (x : CallSlot) : RowRepair where
  stack := argAt x 0 1
  pseudo := argAt x 2 1
  bankGroup := argAt x 4 1
  bank := argAt x 5 1
  row := argAt x 8 4
  hard := argAt x 1 1 == 4

/-- What a repair logs. -/
def repairLogged (x : CallSlot) (p r : Nat) (t : State) : State :=
  logEvent .hbmRepair (islOfMc (argAt x 0 1)) (leBytes 1 (argAt x 0 1) ++ leBytes 1 p ++ leBytes 1 (argAt x 1 1) ++ leBytes 4 r) t

/-- The state in which a spare lane is in use. -/
def laneSpared (x : CallSlot) (s : State) : State :=
  recordFix (argFix x) (setMc s (argAt x 0 1) { getMc s (argAt x 0 1) with fixes := (getMc s (argAt x 0 1)).fixes ++ [argFix x] })

/-- The state in which a spare row is in use. -/
def rowSpared (x : CallSlot) (s : State) : State := loseRow (argRow x) (setRepairs (argAt x 0 1) (fun l => l ++ [argRow x]) s)

theorem hbmRepair_checked {t : State} (sound : repairArgsOk x = true) (does : repair x s = (t, pmOk)) : hbmRepair k x s = setDue k pmOk [] t := by
  have flag : argAt x 6 1 ≤ 1 := by
    unfold repairArgsOk at sound
    have said : argAt x 6 1 = if argAt x 1 1 = 4 then 1 else 0 := by
      simp only [Bool.and_eq_true, beq_iff_eq] at sound
      exact sound.1.2
    rw [said]
    split <;> decide
  unfold hbmRepair
  rw [if_neg (by omega), if_neg (by rw [sound]; decide), does]
  exact if_pos rfl

theorem repair_lane (serves : (getMc s (argAt x 0 1)).train ≠ 3) (lane : argAt x 1 1 = 0)
    (few : ((getMc s (argAt x 0 1)).fixes.filter (fun f => f.channel == argAt x 2 1 && !f.erased)).length < 2) :
    repair x s = (repairLogged x (2 * argAt x 2 1 + argAt x 3 1 / 32) 0 (laneSpared x s), pmOk) := by
  have few' : ¬2 ≤ (((getMc s (argAt x 0 1)).fixes.filter (fun f => f.channel == argAt x 2 1)).filter (fun f => !f.erased)).length := by
    have both := List.filter_congr (l := (getMc s (argAt x 0 1)).fixes) (p := fun f => !f.erased && f.channel == argAt x 2 1)
      (q := fun f => f.channel == argAt x 2 1 && !f.erased) (fun f _ => Bool.and_comm _ _)
    rw [List.filter_filter, both]
    omega
  unfold repair repairLogged laneSpared argFix
  dsimp only
  rw [if_neg serves, lane]
  exact (if_neg few').trans rfl

theorem repair_row (serves : (getMc s (argAt x 0 1)).train ≠ 3) (row : argAt x 1 1 = 2)
    (free : (getMc s (argAt x 0 1)).repairs.any (fun r => sameGroup r (argRow x) && !r.hard) = false) :
    repair x s = (repairLogged x (argAt x 2 1) (argAt x 8 4) (rowSpared x s), pmOk) := by
  unfold argRow at free
  rw [row] at free
  unfold repair repairLogged rowSpared argRow
  dsimp only
  rw [if_neg serves, row]
  exact if_neg (by rw [free]; decide)

theorem loseRow_leaves (r : RowRepair) (s : State) : SameExcept [.freeCtr, .mem] s (loseRow r s) := by
  have bytes (l : List Nat) (n : Nat) (t : State) : SameExcept [.mem] t (forEach l (fun a u => setMemByte u a (Config.freeByte n a)) t) :=
    .forEach (fun a u => setMemByte_reach u a _) l (.refl _ t)
  exact .step (bytes _ _ _) rfl ((drawFree_reach s).weaken rfl)

theorem beginClean_faulty (die d : Nat) (ways departing : List Nat) (s : State) :
    (getCache (beginClean die ways departing s) d).faulty = (getCache s d).faulty := by
  rw [beginClean]
  by_cases same : d = die
  · subst same
    rw [getCache_setCache]
  · rw [getCache_setCache_ne _ _ same]

theorem retireWay_marks (die way reason : Nat) (s : State) : way ∈ (getCache (retireWay die way reason s) die).faulty := by
  unfold retireWay
  dsimp only
  split
  next held => exact List.contains_iff_mem.1 held
  next =>
    rw [beginClean_faulty, getCache_logEvent]
    have marked : ∀ c, getCache (updMargin (setCache s die c) (islIx die 124)
        (fun e => { e with retired := true, reason := if bitOf e.reason way then e.reason else e.reason + 2 ^ way })) die = c :=
      fun c => getCache_setCache s die c
    exact (congrArg (fun c : DieCache => way ∈ c.faulty) (marked _)).mpr (mem_setIns.2 (.inl rfl))

theorem updMargin_slots (n : Nat) (f : MarginEntry → MarginEntry) (s : State) : (updMargin s n f).pm.slots = s.pm.slots := rfl

theorem retireWay_slots (die way reason : Nat) (s : State) : (retireWay die way reason s).pm.slots = s.pm.slots := by
  unfold retireWay
  dsimp only
  split
  · rfl
  · rw [(beginClean_reach _ _ _ _).pm_eq rfl, (logEvent_reach _ _ _ _).pm_eq rfl]
    rfl

theorem retireIsland_slots (n reason : Nat) (s : State) : (retireIsland n reason s).pm.slots = s.pm.slots := by
  cases sound : (getIsl s n).faulty with
  | true => rw [show retireIsland n reason s = s from if_pos sound]
  | false =>
    rw [retireIsland_eq reason sound, (endThose_reach _ _).pm_eq rfl, outOfService, (logEvent_reach _ _ _ _).pm_eq rfl]
    rfl

theorem islandRetire_island (die : argAt x 0 1 ≤ 1) (kind : argAt x 1 1 = 0) (island : argAt x 2 1 ≤ 99) (zero : argAt x 3 1 = 0) :
    islandRetire x s = (retireIsland (islIx (argAt x 0 1) (argAt x 2 1)) 4 s, .now pmOk []) := by
  unfold islandRetire
  dsimp only
  rw [if_neg (by omega), if_pos kind]

theorem islandRetire_way (die : argAt x 0 1 ≤ 1) (kind : argAt x 1 1 = 1) (zero : argAt x 2 1 = 0) (way : argAt x 3 1 ≤ 7) :
    islandRetire x s = (retireWay (argAt x 0 1) (argAt x 3 1) 4 s, .now pmOk []) := by
  unfold islandRetire
  dsimp only
  rw [if_neg (by omega), if_neg (by omega)]

end

end Sys2Proof.Machine
end
end

section
/-! SUPPORT. The parts of the statement O56, and the statement. -/
section
namespace Sys2Proof.Machine

section
variable {who : Agent} {slot : Fin 12} {notify : Bool} {vector : Fin 1024} {s : State}

/-- The call slot of a row, and the host of its caller. -/
abbrev rowSlot (s : State) (slot : Fin 12) : CallSlot := getSlot s slot.val
abbrev rowHost (s : State) (who : Agent) : Nat := (agentHost s who).getD 0

/-! ### Contexts and queues (R369, R405, R420) -/

theorem contextCalls_settle (admitted : CallAdmitted s who slot.val (plainRule 0x10 true false [.awaitBlend, .serving] [(0, 5)]))
    (sound : ctxArgsOk (rowSlot s slot) = true) :
    (argAt (rowSlot s slot) 4 1 = 0 →
      (∀ c ∈ ctxRange (rowSlot s slot), tabFind s.pm.contexts c = none ∨ tabFind s.pm.contexts c = some (rowHost s who)) →
      CallEnds (.contextClaim who slot notify vector) s slot.val 0 (fun t =>
        (∀ c ∈ ctxRange (rowSlot s slot), tabFind t.pm.contexts c = some (rowHost s who)) ∧
        ∀ c, c ∉ ctxRange (rowSlot s slot) → tabFind t.pm.contexts c = tabFind s.pm.contexts c)) ∧
    (argAt (rowSlot s slot) 4 1 = 0 → (∃ c ∈ ctxRange (rowSlot s slot), ∃ g, g ≠ rowHost s who ∧ tabFind s.pm.contexts c = some g) →
      CallRefuses (.contextClaim who slot notify vector) s slot.val pmNotPermitted) ∧
    (argAt (rowSlot s slot) 4 1 = 1 → segCallOn s (ctxRange (rowSlot s slot)) = true → ∃ t, exec (.contextRelease who slot notify vector) s = .next t ∧
      (getSlot t slot.val).state = 1 ∧ (getSlot t slot.val).waits = ctxRange (rowSlot s slot) ∧ t.pm.contexts = s.pm.contexts) ∧
    (argAt (rowSlot s slot) 4 1 = 1 → segCallOn s (ctxRange (rowSlot s slot)) = false →
      (ctxRange (rowSlot s slot)).all (ownsContext s (rowHost s who)) = true →
      ((ctxRange (rowSlot s slot)).all (contextFree s) = true → CallEnds (.contextRelease who slot notify vector) s slot.val 0 (fun t =>
        ∀ c ∈ ctxRange (rowSlot s slot), tabFind t.pm.contexts c = none)) ∧
      ((ctxRange (rowSlot s slot)).all (contextFree s) = false → CallRefuses (.contextRelease who slot notify vector) s slot.val pmWrongState)) := by
  have ends := releaseContexts_ends (x := begunSlot s who slot.val 0x10 notify vector.val) (s := callBegun s who slot.val 0x10 notify vector.val)
    (caller := agentHost s who) sound slot.val
  refine ⟨fun claim free => ?_, fun claim taken => ?_, fun release on => ?_, fun release off own => ⟨fun unused_ => ?_, fun used => ?_⟩⟩
  · refine callEnds rfl admitted (by rw [claim]; decide) (claimContexts_free sound free) rfl (fun t _ pm => ?_)
    obtain ⟨slots, pm⟩ := pm
    rw [pm]
    exact ⟨fun c listed => (tabFind_putAll _ _ c).trans (if_pos listed), fun c out => (tabFind_putAll _ _ c).trans (if_neg out)⟩
  · exact callRefuses rfl admitted (by rw [claim]; decide) (claimContexts_taken sound taken)
  · have runs := pmCall_later admitted (pick := fun x => argAt x 4 1 == 1) (by rw [release]; decide) (releaseContexts_waits (caller := agentHost s who)
      (x := begunSlot s who slot.val 0x10 notify vector.val) (s := callBegun s who slot.val 0x10 notify vector.val) sound slot.val on)
    have stands := getSlot_setSlot (callBegun s who slot.val 0x10 notify vector.val) slot.val
      { getSlot (callBegun s who slot.val 0x10 notify vector.val) slot.val with waits := ctxRange (rowSlot s slot) }
    refine ⟨_, congrArg Host.Outcome.next runs, (congrArg CallSlot.state stands).trans ?_, congrArg CallSlot.waits stands, rfl⟩
    exact congrArg CallSlot.state (callBegun_slot s who slot.val 0x10 notify vector.val)
  · refine callEnds rfl admitted (by rw [release]; decide) ((ends off own).trans (if_pos unused_)) rfl (fun t _ pm c listed => ?_)
    obtain ⟨slots, pm⟩ := pm
    rw [pm]
    exact tabFind_deleted (ctxRange (rowSlot s slot)) s.pm.contexts c (.inl listed)
  · exact callRefuses rfl admitted (by rw [release]; decide) ((ends off own).trans (if_neg (fun all =>
      Bool.false_ne_true (used.symm.trans all))))

theorem queueContext_settles (admitted : CallAdmitted s who slot.val (plainRule 0x11 true false [.serving] [(0, 5)]))
    (flag : argAt (rowSlot s slot) 4 1 ≤ 1) (queue : argAt (rowSlot s slot) 0 2 < 1024) (context : argAt (rowSlot s slot) 2 2 < 4096)
    (claimed : claims s (rowHost s who) (argAt (rowSlot s slot) 0 2) = true) (own : ownsContext s (rowHost s who) (argAt (rowSlot s slot) 2 2) = true) :
    ((getQ s (argAt (rowSlot s slot) 0 2)).enable = true → CallRefuses (.queueContext who slot notify vector) s slot.val pmWrongState) ∧
    ((getQ s (argAt (rowSlot s slot) 0 2)).enable = false → CallEnds (.queueContext who slot notify vector) s slot.val 0 (fun t =>
      OtherQueues (argAt (rowSlot s slot) 0 2) s t ∧ getQ t (argAt (rowSlot s slot) 0 2) =
        { getQ s (argAt (rowSlot s slot) 0 2) with
          context := argAt (rowSlot s slot) 2 2, bound := true, ringFeedOk := argAt (rowSlot s slot) 4 1 == 1 })) := by
  have works := queueContext_checked (x := begunSlot s who slot.val 0x11 notify vector.val) (caller := agentHost s who)
    (s := callBegun s who slot.val 0x11 notify vector.val) flag queue context claimed own
  refine ⟨fun on => callRefuses rfl admitted rfl (works.trans (if_pos on)), fun off => ?_⟩
  refine callEnds rfl admitted rfl (works.trans (if_neg (fun on => Bool.false_ne_true (off.symm.trans on)))) rfl (fun t same _ => ⟨fun r other => ?_, ?_⟩)
  · rw [same.getQ_eq rfl]
    exact getQ_setQ_ne _ _ other
  · rw [same.getQ_eq rfl]
    exact getQ_updQ _ _ _

theorem ringQueues_settle (admitted : CallAdmitted s who slot.val (plainRule 0x12 false true [.serving] [(0, 5)]))
    (sound : ringArgsOk (rowSlot s slot) = true) :
    (argAt (rowSlot s slot) 4 1 = 1 → (∀ q ∈ ctxRange (rowSlot s slot), (getQ s q).ringFeedOk = true ∧ (queueBind s q).isSome = true) →
      CallEnds (.ringQueuesSet who slot notify vector) s slot.val 0 (fun t =>
        ∀ q ∈ ctxRange (rowSlot s slot), getQ t q = { getQ s q with ringFed := true })) ∧
    (argAt (rowSlot s slot) 4 1 = 1 → (∃ q ∈ ctxRange (rowSlot s slot), (getQ s q).ringFeedOk = false) →
      CallRefuses (.ringQueuesSet who slot notify vector) s slot.val pmNotPermitted) ∧
    (argAt (rowSlot s slot) 4 1 = 0 → (∀ q ∈ ctxRange (rowSlot s slot), (getQ s q).enable = false) →
      CallEnds (.ringQueuesClear who slot notify vector) s slot.val 0 (fun t =>
        ∀ q ∈ ctxRange (rowSlot s slot), getQ t q = { getQ s q with ringFed := false, fed := [] })) := by
  have queues (m : QueueState → QueueState) (l : List Nat) (t : State) : SameExcept [.qs] t (forEach l (fun q u => updQ u q m) t) :=
    .forEach (fun q u => updQ_reach u q m) l (.refl _ t)
  refine ⟨fun set all => ?_, fun set one => ?_, fun clear off => ?_⟩
  · refine callEnds rfl admitted (by rw [set]; decide) (ringSet_feeds sound all) ((queues _ _ _).getSlot_eq rfl _) (fun t same _ q listed => ?_)
    rw [same.getQ_eq rfl]
    exact queuesSet (m := ringFedQueue) (fun _ => rfl) _ _ q listed
  · exact callRefuses rfl admitted (by rw [set]; decide) (ringSet_refused sound one)
  · refine callEnds rfl admitted (by rw [clear]; decide) (ringClear_frees sound off) ((queues _ _ _).getSlot_eq rfl _) (fun t same _ q listed => ?_)
    rw [same.getQ_eq rfl]
    exact queuesSet (m := ringFreedQueue) (fun _ => rfl) _ _ q listed

/-! ### Save pools and aborts (R370, R373) -/

theorem savePool_settles (admitted : CallAdmitted s who slot.val (plainRule 0x13 false true [.serving] [(0, 1), (8, 12)]))
    (part : (getPart s (argAt (rowSlot s slot) 0 1)).isSome = true) (aligned : argAt (rowSlot s slot) 8 8 % 4096 = 0)
    (few : argAt (rowSlot s slot) 0x10 4 ≤ 65535) (unused_ : ∀ p, tabFind s.qs.pools (argAt (rowSlot s slot) 0 1) = some p → p.used = []) :
    let bytes := argAt (rowSlot s slot) 0x10 4 * slotBytes s (argAt (rowSlot s slot) 0 1)
    (argAt (rowSlot s slot) 0x10 4 = 0 → CallEnds (.savePool who slot notify vector) s slot.val 0 (fun t =>
      tabFind t.qs.pools (argAt (rowSlot s slot) 0 1) = none)) ∧
    (tabFind s.qs.pools (argAt (rowSlot s slot) 0 1) = none → argAt (rowSlot s slot) 0x10 4 ≠ 0 → inService s (argAt (rowSlot s slot) 8 8) bytes = true →
      segmentOver s (argAt (rowSlot s slot) 8 8) bytes = false → meetsAny (argAt (rowSlot s slot) 8 8) bytes (protectedRanges s) = false →
      CallEnds (.savePool who slot notify vector) s slot.val 0 (fun t => tabFind t.qs.pools (argAt (rowSlot s slot) 0 1) =
        some { base := argAt (rowSlot s slot) 8 8, slots := argAt (rowSlot s slot) 0x10 4, used := [] })) ∧
    (argAt (rowSlot s slot) 0x10 4 ≠ 0 → inService s (argAt (rowSlot s slot) 8 8) bytes = true → segmentOver s (argAt (rowSlot s slot) 8 8) bytes = true →
      CallRefuses (.savePool who slot notify vector) s slot.val pmProtected) := by
  intro bytes
  refine ⟨fun zero => ?_, fun absent some_ serves clear open_ => ?_, fun some_ serves covered_ => ?_⟩
  · refine callEnds rfl admitted rfl (savePool_removes part aligned few unused_ zero) rfl (fun t same _ => ?_)
    rw [same.qs_eq rfl]
    exact tabFind_tabDel_same _ _
  · refine callEnds rfl admitted rfl (savePool_sets part aligned few unused_ absent some_ serves clear open_) rfl (fun t same _ => ?_)
    rw [same.qs_eq rfl]
    exact tabFind_tabPut_same _ _ _
  · exact callRefuses rfl admitted rfl (savePool_protected part aligned few unused_ some_ serves covered_)

theorem abort_settles (admitted : CallAdmitted s who slot.val (plainRule 0x14 true true [.serving] [(0, 8)])) :
    (getInv s (argAt (rowSlot s slot) 0 8) = none → CallRefuses (.abort who slot notify vector) s slot.val pmBadArg) ∧
    ∀ v, getInv s (argAt (rowSlot s slot) 0 8) = some v → v.early = none →
      (∀ g, agentHost s who = some g → claims s g v.queue = false → CallRefuses (.abort who slot notify vector) s slot.val pmNotPermitted) ∧
      ((∀ g, agentHost s who = some g → claims s g v.queue = true) → v.refused = false → CallEnds (.abort who slot notify vector) s slot.val 0 (fun t =>
        ∃ w, getInv t (argAt (rowSlot s slot) 0 8) = some w ∧ w.early = some (.aborted, 0x32))) := by
  refine ⟨fun absent => callRefuses rfl admitted rfl (abortInv_unknown absent), fun v known runs => ⟨fun g host other => ?_, fun own sound => ?_⟩⟩
  · exact callRefuses rfl admitted rfl (abortInv_foreign known runs host other)
  · have begun : getInv (callBegun s who slot.val 0x14 notify vector.val) (argAt (rowSlot s slot) 0 8) = some v := known
    have kept := (abortBatches_stands (g := fun x : Invocation => (x.early, x.refused)) (fun _ _ => rfl) (argAt (rowSlot s slot) 0 8)
      (callBegun s who slot.val 0x14 notify vector.val)).2 (argAt (rowSlot s slot) 0 8)
    rw [begun, Option.map_some] at kept
    obtain ⟨w, still, same⟩ := Option.map_eq_some_iff.1 kept
    obtain ⟨early, refused⟩ := Prod.mk.inj same
    obtain ⟨y, after, ended⟩ := endEarly_first .aborted 0x32 still (early.trans runs)
    rw [refused, if_neg (by rw [sound]; decide)] at ended
    refine callEnds (u := endEarly (argAt (rowSlot s slot) 0 8) .aborted 0x32 (abortBatches (argAt (rowSlot s slot) 0 8)
      (callBegun s who slot.val 0x14 notify vector.val))) rfl admitted rfl (abortInv_ends known runs own) ?_ (fun t same _ => ⟨y, ?_, ended⟩)
    · exact ((endEarly_reach _ _ _ _).getSlot_eq rfl _).trans ((abortBatches_reach _ _).getSlot_eq rfl _)
    · exact (same.getInv_eq rfl _).trans after

end

end Sys2Proof.Machine
end
end

section
/-! SUPPORT. The parts of the statement O56 that speak of keys, windows, groups, repairs and retirements, and the statement. -/
section
namespace Sys2Proof.Machine

section
variable {who : Agent} {slot : Fin 12} {notify : Bool} {vector : Fin 1024} {s : State}

/-! ### Keys (R432-R434) -/

theorem keyInstall_settles
    (admitted : CallAdmitted s who slot.val (plainRule 0x30 true false [.awaitBlend, .serving] [(0, 4), (0x10, 1580), (0x640, 48)]))
    (key : argAt (rowSlot s slot) 0 2 < 4096) (context : argAt (rowSlot s slot) 2 2 < 4096)
    (own : ownsContext s (rowHost s who) (argAt (rowSlot s slot) 2 2) = true) :
    ((tabFind s.pm.keys (argAt (rowSlot s slot) 0 2)).isSome = true → CallRefuses (.keyInstall who slot notify vector) s slot.val pmFull) ∧
    (tabFind s.pm.keys (argAt (rowSlot s slot) 0 2) = none → ∃ t, exec (.keyInstall who slot notify vector) s = .next t ∧
      (getSlot t slot.val).state = 1 ∧
      (unwrapKey s (rowSlot s slot) = none → (getSlot t slot.val).due = some (BitVec.ofNat 64 pmUnwrap, []) ∧ t.pm.keys = s.pm.keys) ∧
      (∀ key, unwrapKey s (rowSlot s slot) = some key → (getSlot t slot.val).due = some (0, []) ∧
        tabFind t.pm.keys (argAt (rowSlot s slot) 0 2) = some { key := key, context := argAt (rowSlot s slot) 2 2 })) := by
  refine ⟨fun taken => callRefuses rfl admitted rfl (keyInstall_taken key context own taken), fun free => ?_⟩
  have works := keyInstall_free (k := slot.val) (x := begunSlot s who slot.val 0x30 notify vector.val) (caller := agentHost s who)
    (s := callBegun s who slot.val 0x30 notify vector.val) key context own free
  have same : unwrapKey (callBegun s who slot.val 0x30 notify vector.val) (begunSlot s who slot.val 0x30 notify vector.val) =
      unwrapKey s (rowSlot s slot) := rfl
  rw [same] at works
  have slot_ := callBegun_slot s who slot.val 0x30 notify vector.val
  cases is : unwrapKey s (rowSlot s slot) with
  | none =>
    rw [is] at works
    obtain ⟨state, due, -, slots, pm⟩ := pmCall_due (pick := anyArgs) admitted rfl works slot_
    exact ⟨_, rfl, state, fun _ => ⟨due, (congrArg PmState.keys pm).trans rfl⟩, fun _ some_ => absurd some_ (Option.some_ne_none _).symm⟩
  | some key =>
    rw [is] at works
    obtain ⟨state, due, -, slots, pm⟩ := pmCall_due (pick := anyArgs) admitted rfl works slot_
    refine ⟨_, rfl, state, fun none_ => absurd none_ (Option.some_ne_none _), fun key' is' => ?_⟩
    rw [← Option.some.inj is']
    exact ⟨due, (congrArg (fun p : PmState => tabFind p.keys (argAt (rowSlot s slot) 0 2)) pm).trans (tabFind_tabPut_same _ _ _)⟩

theorem keyBind_settles (admitted : CallAdmitted s who slot.val (plainRule 0x31 true false [.awaitBlend, .serving] [(0, 4)]))
    (key : argAt (rowSlot s slot) 0 2 < 4096) (context : argAt (rowSlot s slot) 2 2 < 4096) :
    (ownKey s (rowHost s who) (argAt (rowSlot s slot) 0 2) = none → CallRefuses (.keyBind who slot notify vector) s slot.val pmNotPermitted) ∧
    (∀ v, ownKey s (rowHost s who) (argAt (rowSlot s slot) 0 2) = some v → ownsContext s (rowHost s who) (argAt (rowSlot s slot) 2 2) = true →
      CallEnds (.keyBind who slot notify vector) s slot.val 0 (fun t =>
        tabFind t.pm.keys (argAt (rowSlot s slot) 0 2) = some { v with context := argAt (rowSlot s slot) 2 2 } ∧
        ∀ i, i ≠ argAt (rowSlot s slot) 0 2 → tabFind t.pm.keys i = tabFind s.pm.keys i)) := by
  refine ⟨fun other => callRefuses rfl admitted rfl (keyBind_foreign key context other), fun v mine own => ?_⟩
  refine callEnds rfl admitted rfl (keyBind_binds key context mine own) rfl (fun t _ pm => ?_)
  obtain ⟨slots, pm⟩ := pm
  rw [pm]
  exact ⟨tabFind_tabPut_same _ _ _, fun i other => tabFind_tabPut_ne _ _ other⟩

theorem keyRemove_settles (admitted : CallAdmitted s who slot.val (plainRule 0x32 true false [.awaitBlend, .serving] [(0, 2)]))
    (key : argAt (rowSlot s slot) 0 2 < 4096) :
    (ownKey s (rowHost s who) (argAt (rowSlot s slot) 0 2) = none → CallRefuses (.keyRemove who slot notify vector) s slot.val pmNotPermitted) ∧
    ((ownKey s (rowHost s who) (argAt (rowSlot s slot) 0 2)).isSome = true → CallEnds (.keyRemove who slot notify vector) s slot.val 0 (fun t =>
      tabFind t.pm.keys (argAt (rowSlot s slot) 0 2) = none)) := by
  refine ⟨fun other => callRefuses rfl admitted rfl (keyRemove_foreign key other), fun mine => ?_⟩
  refine callEnds rfl admitted rfl (keyRemove_removes key mine) rfl (fun t _ pm => ?_)
  obtain ⟨slots, pm⟩ := pm
  rw [pm]
  exact tabFind_tabDel_same _ _

/-! ### Export windows and groups (R390, R392) -/

theorem exportWindow_settles (admitted : CallAdmitted s who slot.val (plainRule 0x40 true false [.serving] [(0, 2), (8, 24)]))
    (window : argAt (rowSlot s slot) 0 1 < 64) (rights : argAt (rowSlot s slot) 1 1 ≤ 7) (base : argAt (rowSlot s slot) 8 8 % 4096 = 0)
    (length : argAt (rowSlot s slot) 0x10 8 % 4096 = 0) (inside : argAt (rowSlot s slot) 8 8 + argAt (rowSlot s slot) 0x10 8 ≤ hbmTop) :
    (argAt (rowSlot s slot) 0x10 8 = 0 → CallEnds (.exportWindow who slot notify vector) s slot.val 0 (fun t =>
      tabFind t.courier.windows (argAt (rowSlot s slot) 0 1) = none)) ∧
    (argAt (rowSlot s slot) 0x10 8 ≠ 0 → covered (ownHbm s (rowHost s who)) ((ownHbm s (rowHost s who)).length + 1) (argAt (rowSlot s slot) 8 8)
      (argAt (rowSlot s slot) 0x10 8) = false → CallRefuses (.exportWindow who slot notify vector) s slot.val pmBadArg) ∧
    (argAt (rowSlot s slot) 0x10 8 ≠ 0 → covered (ownHbm s (rowHost s who)) ((ownHbm s (rowHost s who)).length + 1) (argAt (rowSlot s slot) 8 8)
      (argAt (rowSlot s slot) 0x10 8) = true → CallEnds (.exportWindow who slot notify vector) s slot.val 0 (fun t =>
        ∃ e, tabFind t.courier.windows (argAt (rowSlot s slot) 0 1) = some e ∧ e.base = argAt (rowSlot s slot) 8 8 ∧
          e.length = argAt (rowSlot s slot) 0x10 8 ∧ e.read = bitOf (argAt (rowSlot s slot) 1 1) 0 ∧ e.write = bitOf (argAt (rowSlot s slot) 1 1) 1 ∧
          e.atomic = bitOf (argAt (rowSlot s slot) 1 1) 2 ∧ e.sources = argAt (rowSlot s slot) 0x18 8)) := by
  have works := exportWindow_checked (x := begunSlot s who slot.val 0x40 notify vector.val) (caller := agentHost s who)
    (s := callBegun s who slot.val 0x40 notify vector.val) window rights base length inside
  refine ⟨fun zero => ?_, fun some_ bare => ?_, fun some_ own => ?_⟩
  · refine callEnds rfl admitted rfl (works.trans (if_pos zero)) rfl (fun t same _ => ?_)
    rw [same.courier_eq rfl]
    exact tabFind_tabDel_same _ _
  · exact callRefuses rfl admitted rfl (works.trans ((if_neg some_).trans (if_pos ((congrArg not bare).trans rfl))))
  · refine callEnds rfl admitted rfl (works.trans ((if_neg some_).trans (if_neg (fun bare => Bool.false_ne_true ((congrArg not own).symm.trans bare)))))
      rfl (fun t same _ => ⟨argWindow (rowSlot s slot), ?_, rfl, rfl, rfl, rfl, rfl, rfl⟩)
    rw [same.courier_eq rfl]
    exact tabFind_tabPut_same _ _ _

theorem groups_settle (admitted : CallAdmitted s who slot.val groupRule) :
    (argAt (rowSlot s slot) 0x20 1 = 0 → groupArgsOk (rowSlot s slot) (parseGroup (rowSlot s slot)) = true →
      groupBufferOk s (parseGroup (rowSlot s slot)) = true → groupSemOk s (parseGroup (rowSlot s slot)) = true →
      groupOwner s (agentHost s who) (parseGroup (rowSlot s slot)).context = true →
      (∀ o, tabFind s.courier.groups (argAt (rowSlot s slot) 0 2) = some o → groupOwner s (agentHost s who) o.context = true) →
      CallEnds (.groupWrite who slot notify vector) s slot.val 0 (fun t =>
        tabFind t.courier.groups (argAt (rowSlot s slot) 0 2) = some (parseGroup (rowSlot s slot)))) ∧
    (argAt (rowSlot s slot) 0x20 1 = 0 → groupArgsOk (rowSlot s slot) (parseGroup (rowSlot s slot)) = true →
      ¬groupOwner s (agentHost s who) (parseGroup (rowSlot s slot)).context = true →
      CallRefuses (.groupWrite who slot notify vector) s slot.val pmNotPermitted) ∧
    (argAt (rowSlot s slot) 0x20 1 = 1 → argAt (rowSlot s slot) 0 2 < 256 → allZero (argBytes (rowSlot s slot) 2 30) = true →
      ∀ o, tabFind s.courier.groups (argAt (rowSlot s slot) 0 2) = some o →
        (groupOwner s (agentHost s who) o.context = true → CallEnds (.groupDelete who slot notify vector) s slot.val 0 (fun t =>
          tabFind t.courier.groups (argAt (rowSlot s slot) 0 2) = none)) ∧
        (¬groupOwner s (agentHost s who) o.context = true → CallRefuses (.groupDelete who slot notify vector) s slot.val pmNotPermitted)) := by
  have deletes (o : GroupRec) := groupDelete_checked (x := begunSlot s who slot.val groupRule.func notify vector.val) (caller := agentHost s who)
    (s := callBegun s who slot.val groupRule.func notify vector.val) (o := o)
  refine ⟨fun write sound buffer sem mine free => ?_, fun write sound other => ?_, fun delete group zero o held => ⟨fun mine => ?_, fun other => ?_⟩⟩
  · refine callEnds rfl admitted (by rw [write]; decide) (groupWrite_writes write sound buffer sem mine free) rfl (fun t same _ => ?_)
    rw [same.courier_eq rfl]
    exact tabFind_tabPut_same _ _ _
  · exact callRefuses rfl admitted (by rw [write]; decide) (groupWrite_foreign write sound other)
  · refine callEnds rfl admitted (by rw [delete]; decide) ((deletes o group zero held).trans (if_pos mine)) rfl (fun t same _ => ?_)
    rw [same.courier_eq rfl]
    exact tabFind_tabDel_same _ _
  · exact callRefuses rfl admitted (by rw [delete]; decide) ((deletes o group zero held).trans (if_neg other))

/-! ### Repairs and retirements (R300, R439) -/

theorem laneSpared_leaves (x : CallSlot) (p r : Nat) (s : State) : (getMc (repairLogged x p r (laneSpared x s)) (argAt x 0 1)).fixes =
      (getMc s (argAt x 0 1)).fixes ++ [argFix x] ∧ (repairLogged x p r (laneSpared x s)).pm.record.lanes = s.pm.record.lanes ++ [argFix x] ∧
    (repairLogged x p r (laneSpared x s)).log ≠ s.log ∧ (repairLogged x p r (laneSpared x s)).pm.slots = s.pm.slots := by
  have logged : SameExcept [.log] (laneSpared x s) (repairLogged x p r (laneSpared x s)) := logEvent_reach _ _ _ _
  refine ⟨?_, ?_, LogGrows.ne_of_event (s := laneSpared x s) (.refl _), ?_⟩
  · exact (congrArg McState.fixes (getMc_logEvent _ _ _ _ _)).trans (congrArg McState.fixes (getMc_setMc s _ _))
  · rw [logged.pm_eq rfl]
    rfl
  · rw [logged.pm_eq rfl]
    rfl

theorem rowSpared_leaves (x : CallSlot) (p r : Nat) (s : State) : (getMc (repairLogged x p r (rowSpared x s)) (argAt x 0 1)).repairs =
      (getMc s (argAt x 0 1)).repairs ++ [argRow x] ∧ (repairLogged x p r (rowSpared x s)).pm.record.repairs = s.pm.record.repairs ++ [argRow x] ∧
    (repairLogged x p r (rowSpared x s)).log ≠ s.log ∧ (repairLogged x p r (rowSpared x s)).pm.slots = s.pm.slots := by
  have logged : SameExcept [.log] (rowSpared x s) (repairLogged x p r (rowSpared x s)) := logEvent_reach _ _ _ _
  have lost : SameExcept [.freeCtr, .mem] (setRepairs (argAt x 0 1) (fun l => l ++ [argRow x]) s) (rowSpared x s) := loseRow_leaves _ _
  have log : (rowSpared x s).log = s.log := lost.log_eq rfl
  refine ⟨?_, ?_, ?_, ?_⟩
  · have mc := (logged.mc_eq rfl).trans (lost.mc_eq rfl)
    rw [getMc, mc]
    exact congrArg McState.repairs (getMc_setMc _ _ _)
  · rw [logged.pm_eq rfl, lost.pm_eq rfl]
    rfl
  · rw [← log]
    exact LogGrows.ne_of_event (s := rowSpared x s) (.refl _)
  · rw [logged.pm_eq rfl, lost.pm_eq rfl]
    rfl

theorem hbmRepair_settles (admitted : CallAdmitted s who slot.val (plainRule 0x50 true false [.awaitBlend] [(0, 7), (8, 4)]))
    (sound : repairArgsOk (rowSlot s slot) = true) (serves : (getMc s (argAt (rowSlot s slot) 0 1)).train ≠ 3) :
    (argAt (rowSlot s slot) 1 1 = 0 →
      ((getMc s (argAt (rowSlot s slot) 0 1)).fixes.filter (fun f => f.channel == argAt (rowSlot s slot) 2 1 && !f.erased)).length < 2 →
      ∃ t f, exec (.hbmRepair who slot notify vector) s = .next t ∧ (getSlot t slot.val).due = some (0, []) ∧
        (getMc t (argAt (rowSlot s slot) 0 1)).fixes = (getMc s (argAt (rowSlot s slot) 0 1)).fixes ++ [f] ∧
        t.pm.record.lanes = s.pm.record.lanes ++ [f] ∧ f.channel = argAt (rowSlot s slot) 2 1 ∧ f.lane = argAt (rowSlot s slot) 3 1 ∧
        f.erased = false ∧ t.log ≠ s.log) ∧
    (argAt (rowSlot s slot) 1 1 = 2 →
      (getMc s (argAt (rowSlot s slot) 0 1)).repairs.any (fun r => sameGroup r (argRow (rowSlot s slot)) && !r.hard) = false →
      ∃ t, exec (.hbmRepair who slot notify vector) s = .next t ∧ (getSlot t slot.val).due = some (0, []) ∧
        (getMc t (argAt (rowSlot s slot) 0 1)).repairs = (getMc s (argAt (rowSlot s slot) 0 1)).repairs ++ [argRow (rowSlot s slot)] ∧
        t.pm.record.repairs = s.pm.record.repairs ++ [argRow (rowSlot s slot)] ∧ t.log ≠ s.log) := by
  refine ⟨fun lane few => ?_, fun row free => ?_⟩
  · have works := hbmRepair_checked (k := slot.val) sound (repair_lane (x := rowSlot s slot) (s := callBegun s who slot.val 0x50 notify vector.val) serves lane few)
    obtain ⟨fixes, lanes, log, slots⟩ := laneSpared_leaves (rowSlot s slot) (2 * argAt (rowSlot s slot) 2 1 + argAt (rowSlot s slot) 3 1 / 32) 0
      (callBegun s who slot.val 0x50 notify vector.val)
    obtain ⟨-, due, same, pm⟩ := pmCall_due (pick := anyArgs) (body := fun x _ => hbmRepair slot.val x) admitted rfl works
      ((congrArg (tabGet callSlotReset · slot.val) slots).trans (callBegun_slot _ _ _ _ _ _))
    refine ⟨_, argFix (rowSlot s slot), rfl, due, ?_, (congrArg ModRecord.lanes pm.record).trans lanes, rfl, rfl, rfl, by rw [same.log_eq rfl]; exact log⟩
    rw [getMc, same.mc_eq rfl]
    exact fixes
  · have works := hbmRepair_checked (k := slot.val) sound (repair_row (x := rowSlot s slot) (s := callBegun s who slot.val 0x50 notify vector.val) serves row free)
    obtain ⟨repairs, record, log, slots⟩ := rowSpared_leaves (rowSlot s slot) (argAt (rowSlot s slot) 2 1) (argAt (rowSlot s slot) 8 4)
      (callBegun s who slot.val 0x50 notify vector.val)
    obtain ⟨-, due, same, pm⟩ := pmCall_due (pick := anyArgs) (body := fun x _ => hbmRepair slot.val x) admitted rfl works
      ((congrArg (tabGet callSlotReset · slot.val) slots).trans (callBegun_slot _ _ _ _ _ _))
    refine ⟨_, rfl, due, ?_, (congrArg ModRecord.repairs pm.record).trans record, by rw [same.log_eq rfl]; exact log⟩
    rw [getMc, same.mc_eq rfl]
    exact repairs

theorem islandRetire_settles (admitted : CallAdmitted s who slot.val (plainRule 0x51 true false [.awaitBlend, .serving] [(0, 4)]))
    (die : argAt (rowSlot s slot) 0 1 ≤ 1) :
    (argAt (rowSlot s slot) 1 1 = 0 → argAt (rowSlot s slot) 2 1 ≤ 99 → argAt (rowSlot s slot) 3 1 = 0 →
      CallEnds (.islandRetire who slot notify vector) s slot.val 0 (fun t =>
        (getIsl t (islIx (argAt (rowSlot s slot) 0 1) (argAt (rowSlot s slot) 2 1))).faulty = true)) ∧
    (argAt (rowSlot s slot) 1 1 = 1 → argAt (rowSlot s slot) 2 1 = 0 → argAt (rowSlot s slot) 3 1 ≤ 7 →
      CallEnds (.islandRetire who slot notify vector) s slot.val 0 (fun t =>
        argAt (rowSlot s slot) 3 1 ∈ (getCache t (argAt (rowSlot s slot) 0 1)).faulty)) := by
  refine ⟨fun kind island zero => ?_, fun kind zero way => ?_⟩
  · refine callEnds (body := fun x _ => islandRetire x) rfl admitted rfl (islandRetire_island (x := rowSlot s slot) die kind island zero)
      (congrArg (tabGet callSlotReset · slot.val) (retireIsland_slots _ _ _)) (fun t same _ => ?_)
    rw [same.getIsl_eq rfl]
    exact retireIsland_faulty
  · refine callEnds (body := fun x _ => islandRetire x) rfl admitted rfl (islandRetire_way (x := rowSlot s slot) die kind zero way)
      (congrArg (tabGet callSlotReset · slot.val) (retireWay_slots _ _ _ _)) (fun t same _ => ?_)
    rw [getCache, same.cache_eq rfl]
    exact retireWay_marks _ _ _ _

end

/-- Settles O56: each call by what its body does with arguments that pass its checks. -/
theorem callsChangeWhatTheyName : Obligations.CallsChangeWhatTheyName := by
  unfold Obligations.CallsChangeWhatTheyName
  intro who slot notify vector s k x h a0 a2 ended call refuses adm
  exact ⟨fun admitted sound => contextCalls_settle admitted sound,
    fun admitted flag queue context claimed own => queueContext_settles admitted flag queue context claimed own,
    fun admitted sound => ringQueues_settle admitted sound,
    fun admitted part aligned few unused_ => savePool_settles admitted part aligned few unused_,
    fun admitted => abort_settles admitted, fun admitted key context own => keyInstall_settles admitted key context own,
    fun admitted key context => keyBind_settles admitted key context, fun admitted key => keyRemove_settles admitted key,
    fun admitted window rights base length inside => exportWindow_settles admitted window rights base length inside,
    fun admitted => groups_settle admitted, fun admitted sound serves => hbmRepair_settles admitted sound serves,
    fun admitted die => islandRetire_settles admitted die⟩

end Sys2Proof.Machine
end
end

section
/-! SUPPORT. A full image in force (R30, R46, R66, R435): the structure's islands, scratchpads and Courier ports. -/
section
namespace Sys2Proof.Machine

/-! ### Scratchpads of zeros (R435) -/

section
variable {s : State} {c d : Nat}

theorem tabFind_filter {α : Type} (keeps : Nat → Bool) (n : Nat) : ∀ m : Tab α, tabFind (m.filter (fun e => keeps e.1)) n = if keeps n then tabFind m n else none
  | [] => by simp [tabFind]
  | (k, v) :: m => by
    rw [List.filter_cons, tabFind]
    by_cases here : n = k
    · subst here
      cases kept : keeps n with
      | true => rw [if_pos rfl, if_pos rfl, tabFind, if_pos rfl, if_pos rfl]
      | false =>
        rw [if_neg Bool.false_ne_true, tabFind_filter keeps n m, kept]
        rfl
    · rw [if_neg here, ← tabFind_filter keeps n m]
      split
      · rw [tabFind, if_neg here]
      · rfl

/-- A core's scratchpad holds zeros. -/
def ScratchZero (c : Nat) (s : State) : Prop := ∀ off < scratchSize, memByte s (scratchKey c off) = 0

theorem zeroScratch_mem (d : Nat) (s : State) (a : Nat) : memByte (zeroScratch d s) a =
    if setHas s.blend.zeroed d then memByte s a
    else if (decide (a < scratchKey d 0) || decide (scratchKey d 0 + scratchSize ≤ a)) then memByte s a else 0 := by
  unfold zeroScratch
  split
  · rfl
  · dsimp only
    unfold memByte tabGet
    dsimp only
    rw [tabFind_filter (fun k => decide (k < scratchKey d 0) || decide (scratchKey d 0 + scratchSize ≤ k)) a s.mem]
    split <;> rfl

theorem zeroScratch_keeps (zero : ScratchZero c s) (d : Nat) : ScratchZero c (zeroScratch d s) := fun off inside => by
  rw [zeroScratch_mem, zero off inside]
  split
  · rfl
  · split <;> rfl

theorem zeroScratch_zeroes (fresh : c ∉ s.blend.zeroed) : ScratchZero c (zeroScratch c s) := fun off inside => by
  rw [zeroScratch_mem, if_neg (by rw [setHas]; simpa using fresh), if_neg]
  rw [scratchKey, scratchKey, Nat.mod_eq_of_lt inside]
  simp
  omega

theorem zeroScratch_zeroed (other : c ≠ d) (fresh : c ∉ s.blend.zeroed) : c ∉ (zeroScratch d s).blend.zeroed := by
  unfold zeroScratch
  split
  · exact fresh
  · exact fun listed => (mem_setIns.1 listed).elim other fresh

theorem powerUpCore_mem (d : Nat) (s : State) : memByte (powerUpCore d s) = memByte (zeroScratch d s) ∧
    (powerUpCore d s).blend = (zeroScratch d s).blend := ⟨rfl, rfl⟩

/-- Every core that powers up over a scratchpad not yet zeroed finds zeros. -/
theorem powerUpAll_zeroes : ∀ (l : List Nat) (s : State), (c ∈ l ∧ c ∉ s.blend.zeroed) ∨ ScratchZero c s → ScratchZero c (forEach l powerUpCore s)
  | [], _, zero => zero.resolve_left (fun listed => List.not_mem_nil listed.1)
  | d :: l, s, zero => by
    refine powerUpAll_zeroes l _ ?_
    obtain ⟨mem, blend⟩ := powerUpCore_mem d s
    rw [blend, ScratchZero, mem]
    obtain ⟨listed, fresh⟩ | zero := zero
    · by_cases same : c = d
      · subst same
        exact .inr (zeroScratch_zeroes fresh)
      · exact .inl ⟨(List.mem_cons.1 listed).resolve_left same, zeroScratch_zeroed same fresh⟩
    · exact .inr (zeroScratch_keeps zero d)

/-! ### The islands' points (R30, R46) -/

/-- What an island runs at. -/
def islPoint (i : Island) : Nat × Nat := (i.target, i.current)

/-- Ready to power up, or up at 1.2 GHz. -/
def StartableAt (i : Island) : Prop := (i.power = 0 ∧ i.faulty = false) ∨ i.power = 2 ∧ islPoint i = (0x30, 0x30)

theorem powerUpIsl_starts_at {n : Nat} (ready : StartableAt (getIsl s n)) : (getIsl (powerUpIsl n s) n).power = 2 ∧
    islPoint (getIsl (powerUpIsl n s) n) = (0x30, 0x30) := by
  rw [powerUpIsl, updIsl, getIsl_setIsl]
  obtain ⟨gated, sound⟩ | ⟨runs, point⟩ := ready
  · rw [if_pos ⟨gated, by rw [sound]; rfl⟩]
    exact ⟨rfl, rfl⟩
  · rw [if_neg (by rw [runs]; simp)]
    exact ⟨runs, point⟩

theorem powerUpCore_starts_at (ready : StartableAt (getIsl s (islOfCore c))) : (getIsl (powerUpCore c s) (islOfCore c)).power = 2 ∧
    islPoint (getIsl (powerUpCore c s) (islOfCore c)) = (0x30, 0x30) :=
  powerUpIsl_starts_at (by rw [(zeroScratch_reach c s).getIsl_eq rfl]; exact ready)

theorem powerUpCore_startable_at {d : Nat} (ready : StartableAt (getIsl s (islOfCore c))) : StartableAt (getIsl (powerUpCore d s) (islOfCore c)) := by
  by_cases same : c = d
  · subst same
    exact .inr (powerUpCore_starts_at ready)
  · rw [powerUpCore, powerUpIsl_other (fun eq => same (islOfCore_inj eq)), (zeroScratch_reach d s).getIsl_eq rfl]
    exact ready

theorem powerUpAll_point : ∀ (l : List Nat) (s : State), StartableAt (getIsl s (islOfCore c)) → (c ∈ l ∨ islPoint (getIsl s (islOfCore c)) = (0x30, 0x30)) →
    islPoint (getIsl (forEach l powerUpCore s) (islOfCore c)) = (0x30, 0x30)
  | [], _, _, at_ => at_.resolve_left List.not_mem_nil
  | d :: l, s, ready, at_ => by
    refine powerUpAll_point l _ (powerUpCore_startable_at ready) ?_
    by_cases same : c = d
    · subst same
      exact .inr (powerUpCore_starts_at ready).2
    · refine at_.imp (fun listed => (List.mem_cons.1 listed).resolve_left same) (fun point => ?_)
      rw [powerUpCore, powerUpIsl_other (fun eq => same (islOfCore_inj eq)), (zeroScratch_reach d s).getIsl_eq rfl]
      exact point

/-- The islands of a structure that stay on. -/
def structureIsls (st : Structure) : List Nat :=
  (st.spare.map (·.2)).map islOfCore ++ ((st.parts.map (fun e => partGrinders e.1 e.2)).flatten).map islOfGrinder

/-- An island that a structure does not use is gated. -/
def gateUnused (n : Nat) (t : State) : State := updIsl t n (fun i => { i with power := 0, floor := 0, gatedSince := none })

/-- The structure's islands on, the others as they are. -/
def structurePowered (st : Structure) (s : State) : State :=
  let cores := st.spare.map (·.2)
  let s := forEach cores powerUpCore s
  let s := forEach (cores.filter (fun c => !((st.parts.map (fun e => partPhys st e.1 e.2)).flatten).contains c)) (fun c t => idleLinked (islOfCore c) t) s
  let s := forEach (cores.filter (fun c => !(expressPhys st).contains c)) (fun c t => updIsl t (islOfCore c) (fun i => { i with floor := 0 })) s
  forEach (st.parts.map (fun e => partGrinders e.1 e.2)).flatten (fun g t => powerUpIsl (islOfGrinder g) t) s

theorem powerStructure_eq (st : Structure) (s : State) :
    powerStructure st s = forEach (movableIsls.filter (fun n => !(structureIsls st).contains n)) gateUnused (structurePowered st s) := by
  unfold powerStructure structurePowered structureIsls gateUnused powerUpCore
  rfl

theorem structurePowered_point {st : Structure} (listed : c ∈ st.spare.map (·.2)) (ready : StartableAt (getIsl s (islOfCore c))) :
    islPoint (getIsl (structurePowered st s) (islOfCore c)) = (0x30, 0x30) := by
  have runs := powerUpAll_point (st.spare.map (·.2)) s ready (.inl listed)
  unfold structurePowered
  dsimp only
  rw [forEach_fixes (f := fun t => islPoint (getIsl t (islOfCore c))), forEach_fixes (f := fun t => islPoint (getIsl t (islOfCore c))),
    forEach_fixes (f := fun t => islPoint (getIsl t (islOfCore c)))]
  · exact runs
  · intro d _ t
    exact updIsl_keeps (f := islPoint) (m := fun i => if i.power = 0 then i else { i with power := 1, gatedSince := i.gatedSince.or (some t.devTime) })
      (fun i => by split <;> rfl) t (islOfCore c)
  · intro d _ t
    exact updIsl_keeps (f := islPoint) (m := fun i => { i with floor := 0 }) (fun _ => rfl) t (islOfCore c)
  · intro g _ t
    have low := islOfCore_low c
    have high := islOfGrinder_high g
    exact congrArg islPoint (powerUpIsl_other (fun same => by rw [same] at low; omega))

theorem gateUnused_mem (l : List Nat) (t : State) : SameExcept [.isl] t (forEach l gateUnused t) :=
  .forEach (fun n u => updIsl_reach u n _) l (.refl _ t)

theorem powerStructure_used {st : Structure} (n : Nat) (used : n ∈ structureIsls st) (s : State) :
    getIsl (powerStructure st s) n = getIsl (structurePowered st s) n := by
  rw [powerStructure_eq]
  refine forEach_fixes (f := fun t => getIsl t n) _ (fun m kept t => ?_) _
  refine getIsl_setIsl_ne _ _ (fun same => ?_)
  subst same
  have gone := (List.mem_filter.1 kept).2
  rw [List.contains_iff_mem.2 used] at gone
  exact absurd gone (by decide)

theorem powerStructure_point {st : Structure} (listed : c ∈ st.spare.map (·.2)) (ready : StartableAt (getIsl s (islOfCore c))) :
    islPoint (getIsl (powerStructure st s) (islOfCore c)) = (0x30, 0x30) := by
  rw [powerStructure_used _ (List.mem_append_left _ (List.mem_map_of_mem listed))]
  exact structurePowered_point listed ready

theorem powerStructure_gates {st : Structure} {n : Nat} (movable : n ∈ movableIsls) (unused_ : n ∉ structureIsls st) (s : State) :
    (getIsl (powerStructure st s) n).power = 0 := by
  have none_ : (!(structureIsls st).contains n) = true := by
    rw [Bool.not_eq_true', Bool.eq_false_iff]
    exact fun has => unused_ (List.contains_iff_mem.1 has)
  rw [powerStructure_eq]
  refine forEach_establishes (m := gateUnused) (P := fun n t => (getIsl t n).power = 0) (fun m t => ?_) (fun n m t off => ?_) _ _ n
    (List.mem_filter.2 ⟨movable, none_⟩)
  · rw [gateUnused, updIsl, getIsl_setIsl]
  · by_cases same : n = m
    · subst same
      rw [gateUnused, updIsl, getIsl_setIsl]
    · rw [gateUnused, updIsl, getIsl_setIsl_ne _ _ same, off]

theorem powerStructure_zeroes {st : Structure} (listed : c ∈ st.spare.map (·.2)) (fresh : c ∉ s.blend.zeroed) : ScratchZero c (powerStructure st s) := by
  have zero := powerUpAll_zeroes (st.spare.map (·.2)) s (.inl ⟨listed, fresh⟩)
  have idle (l : List Nat) (t : State) : SameExcept [.isl] t (forEach l (fun c u => idleLinked (islOfCore c) u) t) :=
    .forEach (fun c u => idleLinked_reach (islOfCore c) u) l (.refl _ t)
  have floors (l : List Nat) (t : State) : SameExcept [.isl] t (forEach l (fun c u => updIsl u (islOfCore c) (fun i => { i with floor := 0 })) t) :=
    .forEach (fun c u => updIsl_reach u (islOfCore c) _) l (.refl _ t)
  have grinders (l : List Nat) (t : State) : SameExcept [.isl] t (forEach l (fun g u => powerUpIsl (islOfGrinder g) u) t) :=
    .forEach (fun g u => powerUpIsl_reach (islOfGrinder g) u) l (.refl _ t)
  have later : SameExcept [.isl] (forEach (st.spare.map (·.2)) powerUpCore s) (powerStructure st s) := by
    rw [powerStructure_eq]
    exact .step (gateUnused_mem _ _) rfl (.step (grinders _ _) rfl (.step (floors _ _) rfl (idle _ _)))
  exact fun off inside => (later.memByte_eq rfl _).trans (zero off inside)

end

end Sys2Proof.Machine
end
end

section
/-! SUPPORT. A full image in force: the rest of its structure, its Courier ports and the boot run (R66, R435, R446). -/
section
namespace Sys2Proof.Machine

/-! ### Floors and Courier ports -/

section
variable {β : Type} {f : Island → β} {s t : State}

theorem setFloors_keeps (blind : ∀ i x, f { i with floor := x } = f i) (cl : ClassDef) (pid : Nat) (p : Partition) (st : Structure) (s : State) :
    IslesKeep f s (setFloors cl pid p st s) :=
  have floors (x : Nat) (isl : Nat → Nat) (l : List Nat) (t : State) :
      IslesKeep f t (forEach l (fun n u => updIsl u (isl n) (fun i => { i with floor := x })) t) :=
    .each (m := fun n u => updIsl u (isl n) (fun i => { i with floor := x })) (fun _ u => updIsl_keeps (m := fun i => { i with floor := x }) (blind · x) u) l t
  (floors _ islOfCore _ s).trans (floors _ islOfGrinder _ _)

/-- A Courier port's island goes on or off, and its link with it. -/
def putCourier (p : Nat) (on : Bool) (t : State) : State :=
  updCr (updIsl t (islOfCourier p) (fun i => { i with power := if on then 2 else 0 })) p
    (fun x => if !on then { x with link := .disabled, lanes := 0, neighbour := none } else if x.link = .disabled then { x with link := .dark } else x)

/-- A Courier port that is on. -/
def CourierOn (p : Nat) (t : State) : Prop := (getCr t p).link ≠ .disabled ∧ (getIsl t (islOfCourier p)).power = 2

theorem islOfCourier_inj {p q : Nat} (same : islOfCourier p = islOfCourier q) : p = q := by
  rw [islOfCourier, islOfCourier, islIx, islIx] at same
  omega

theorem putCourier_on (p : Nat) (t : State) : CourierOn p (putCourier p true t) := by
  have port : ∀ x : CrPort, (if x.link = .disabled then { x with link := CrLink.dark } else x).link ≠ .disabled := fun x => by
    split
    · exact fun dark => absurd dark (by simp)
    · assumption
  refine ⟨?_, ?_⟩
  · rw [putCourier, updCr, getCr_setCr]
    exact port _
  · rw [putCourier, (updCr_reach _ _ _).getIsl_eq rfl, updIsl, getIsl_setIsl]
    rfl

theorem putCourier_other {p q : Nat} (other : p ≠ q) (on : Bool) (t : State) : getCr (putCourier q on t) p = getCr t p ∧
    getIsl (putCourier q on t) (islOfCourier p) = getIsl t (islOfCourier p) := by
  refine ⟨getCr_setCr_ne _ _ other, ?_⟩
  rw [putCourier, (updCr_reach _ _ _).getIsl_eq rfl]
  exact getIsl_setIsl_ne _ _ (fun same => other (islOfCourier_inj same))

theorem CourierOn.put {p q : Nat} (on : CourierOn p t) (other : p ≠ q) (b : Bool) : CourierOn p (putCourier q b t) := by
  obtain ⟨port, isl⟩ := putCourier_other other b t
  rw [CourierOn, port, isl]
  exact on

theorem setCourierIslands_eq (r : RoleDef) (s : State) : setCourierIslands r s =
    putCourier 5 r.uplinkWest (putCourier 4 r.uplinkEast (putCourier 3 true (putCourier 2 true (putCourier 1 true (putCourier 0 true s))))) := rfl

theorem setCourierIslands_on (r : RoleDef) (s : State) : ∀ p < 4, CourierOn p (setCourierIslands r s) := by
  intro p known
  rw [setCourierIslands_eq]
  match p, known with
  | 0, _ => exact (((((putCourier_on 0 _).put (by decide) _).put (by decide) _).put (by decide) _).put (by decide) _).put (by decide) _
  | 1, _ => exact ((((putCourier_on 1 _).put (by decide) _).put (by decide) _).put (by decide) _).put (by decide) _
  | 2, _ => exact (((putCourier_on 2 _).put (by decide) _).put (by decide) _).put (by decide) _
  | 3, _ => exact ((putCourier_on 3 _).put (by decide) _).put (by decide) _

theorem putCourier_movable {n : Nat} (p : Nat) (known : p < 6) (movable : n % 256 < 100) (on : Bool) (t : State) : getIsl (putCourier p on t) n = getIsl t n := by
  rw [putCourier, (updCr_reach _ _ _).getIsl_eq rfl]
  refine getIsl_setIsl_ne _ _ (fun same => ?_)
  rw [same, islOfCourier, islIx] at movable
  omega

theorem setCourierIslands_movable {n : Nat} (movable : n % 256 < 100) (r : RoleDef) (s : State) : getIsl (setCourierIslands r s) n = getIsl s n := by
  rw [setCourierIslands_eq, putCourier_movable 5 (by decide) movable, putCourier_movable 4 (by decide) movable,
    putCourier_movable 3 (by decide) movable, putCourier_movable 2 (by decide) movable, putCourier_movable 1 (by decide) movable,
    putCourier_movable 0 (by decide) movable]

theorem movableIsls_low {n : Nat} (movable : n ∈ movableIsls) : n % 256 < 100 := by
  obtain low | high := List.mem_append.1 movable
  · have := List.mem_range.1 low
    omega
  · obtain ⟨m, below, rfl⟩ := List.mem_map.1 high
    have := List.mem_range.1 below
    omega

end

/-! ### The structure of a full image (R66) -/

section
variable {s : State} {l : BlendLoad}

theorem powerStructure_blend (st : Structure) (s : State) : ∃ z, (powerStructure st s).blend = { s.blend with zeroed := z } := by
  have scratch : ∀ (c : Nat) (t : State), ∃ z, (zeroScratch c t).blend = { t.blend with zeroed := z } := fun c t => by
    unfold zeroScratch
    split
    · exact ⟨t.blend.zeroed, rfl⟩
    · exact ⟨_, rfl⟩
  have cores : ∀ (l : List Nat) (t : State), ∃ z, (forEach l powerUpCore t).blend = { t.blend with zeroed := z } := by
    intro l
    induction l with
    | nil => exact fun t => ⟨t.blend.zeroed, rfl⟩
    | cons c l ih =>
      intro t
      obtain ⟨z, here⟩ := scratch c t
      obtain ⟨z', later⟩ := ih (powerUpCore c t)
      exact ⟨z', later.trans (by rw [(powerUpCore_mem c t).2, here])⟩
  have idle (l : List Nat) (t : State) : SameExcept [.isl] t (forEach l (fun c u => idleLinked (islOfCore c) u) t) :=
    .forEach (fun c u => idleLinked_reach (islOfCore c) u) l (.refl _ t)
  have floors (l : List Nat) (t : State) : SameExcept [.isl] t (forEach l (fun c u => updIsl u (islOfCore c) (fun i => { i with floor := 0 })) t) :=
    .forEach (fun c u => updIsl_reach u (islOfCore c) _) l (.refl _ t)
  have grinders (l : List Nat) (t : State) : SameExcept [.isl] t (forEach l (fun g u => powerUpIsl (islOfGrinder g) u) t) :=
    .forEach (fun g u => powerUpIsl_reach (islOfGrinder g) u) l (.refl _ t)
  have later : SameExcept [.isl] (forEach (st.spare.map (·.2)) powerUpCore s) (powerStructure st s) := by
    rw [powerStructure_eq]
    exact .step (gateUnused_mem _ _) rfl (.step (grinders _ _) rfl (.step (floors _ _) rfl (idle _ _)))
  obtain ⟨z, eq⟩ := cores (st.spare.map (·.2)) s
  exact ⟨z, (later.blend_eq rfl).trans eq⟩

/-- The image's structure in force, before its islands power up. -/
def structureTaken (l : BlendLoad) (s : State) : State :=
  let s := flushCaches s
  { s with
    blend := { s.blend with
      applied := true
      cur := l.next
      meas := l.meas
      blendId := BitVec.ofNat 64 (hdrBlendId l.image)
      reblends := 0
      quiesced := []
      staged := none }
    sems := []
    links := [] }

/-- A partition's modes and floors. -/
def partitionSet (st : Structure) (e : Nat × Partition) (t : State) : State := setModes st e.1 e.2 (setFloors st.classes e.1 e.2 st t)

/-- The structure's partitions, links and cache regions set. -/
def structureSet (st : Structure) (s : State) : State :=
  setRegions st 1 (setRegions st 0 (forEach st.links (fun e t => resetLinkSems e.1 e.2 t) (forEach st.parts (partitionSet st) s)))

theorem applyFull_eq (l : BlendLoad) (s : State) : applyFull l s =
    setLoad (setCourierIslands l.next.role (structureSet l.next (beginRun 0 (powerStructure l.next (structureTaken l s))))) (some { l with phase := .bootRun }) := rfl

theorem structureSet_reach (st : Structure) (s : State) : SameExcept [.isl, .cores, .sems, .grinders, .cache] s (structureSet st s) := by
  have parts : SameExcept [.isl, .cores] s (forEach st.parts (partitionSet st) s) :=
    .forEach (fun (e : Nat × Partition) t => .step (setModes_reach _ _ _ _) rfl ((setFloors_reach _ _ _ _ _).weaken rfl)) st.parts (.refl _ s)
  have links (t : State) : SameExcept [.sems, .grinders] t (forEach st.links (fun e t => resetLinkSems e.1 e.2 t) t) :=
    .forEach (fun (e : Nat × LinkDef) t => resetLinkSems_reach e.1 e.2 t) st.links (.refl _ t)
  exact .step (setRegions_reach _ _ _) rfl (.step (setRegions_reach _ _ _) rfl (.step (links _) rfl (parts.weaken rfl)))

theorem structureSet_keeps {β : Type} {f : Island → β} (blind : ∀ i x, f { i with floor := x } = f i) (st : Structure) (s : State) :
    IslesKeep f s (structureSet st s) := by
  have parts : IslesKeep f s (forEach st.parts (partitionSet st) s) :=
    .each (fun (e : Nat × Partition) t => (setFloors_keeps blind st.classes e.1 e.2 st t).trans (.of_same (setModes_reach _ _ _ _) rfl)) st.parts s
  have links (t : State) : SameExcept [.sems, .grinders] t (forEach st.links (fun e t => resetLinkSems e.1 e.2 t) t) :=
    .forEach (fun (e : Nat × LinkDef) t => resetLinkSems_reach e.1 e.2 t) st.links (.refl _ t)
  exact ((parts.trans (.of_same (links _) rfl)).trans (.of_same (setRegions_reach _ _ _) rfl)).trans (.of_same (setRegions_reach _ _ _) rfl)

/-- What an island of the structure in force is, but for its floor. -/
def islRun (i : Island) : Nat × Nat × Nat := (i.power, islPoint i)

theorem applyFull_isl (l : BlendLoad) (s : State) {n : Nat} (movable : n % 256 < 100) :
    islRun (getIsl (applyFull l s) n) = islRun (getIsl (powerStructure l.next (structureTaken l s)) n) := by
  rw [applyFull_eq, (setLoad_reach _ _).getIsl_eq rfl, setCourierIslands_movable movable,
    structureSet_keeps (f := islRun) (fun _ _ => rfl) l.next _ n, (beginRun_reach _ _).getIsl_eq rfl]

theorem structureTaken_isl (l : BlendLoad) (s : State) (n : Nat) : getIsl (structureTaken l s) n = getIsl s n := (flushCaches_reach s).getIsl_eq rfl n

theorem structureTaken_zeroed (l : BlendLoad) (s : State) : (structureTaken l s).blend.zeroed = s.blend.zeroed :=
  (congrArg BlendState.zeroed ((flushCaches_reach s).blend_eq rfl) :)

theorem applyFull_blend (l : BlendLoad) (s : State) : (applyFull l s).blend.applied = true ∧ (applyFull l s).blend.cur = l.next ∧
    (applyFull l s).blend.meas = l.meas ∧ (applyFull l s).blend.blendId = BitVec.ofNat 64 (hdrBlendId l.image) ∧ (applyFull l s).blend.reblends = 0 ∧
    (applyFull l s).blend.load = some { l with phase := .bootRun } := by
  have set : SameExcept [.plan, .isl, .cores, .sems, .grinders, .cache, .courier] (powerStructure l.next (structureTaken l s))
      (setCourierIslands l.next.role (structureSet l.next (beginRun 0 (powerStructure l.next (structureTaken l s))))) :=
    .step (setCourierIslands_reach _ _) rfl (.step (structureSet_reach _ _) rfl ((beginRun_reach _ _).weaken rfl))
  obtain ⟨z, blend⟩ := powerStructure_blend l.next (structureTaken l s)
  have now : (applyFull l s).blend = { (structureTaken l s).blend with zeroed := z, load := some { l with phase := .bootRun } } := by
    rw [applyFull_eq, setLoad, set.blend_eq rfl, blend]
  rw [now]
  exact ⟨rfl, rfl, rfl, rfl, rfl, rfl⟩

theorem applyFull_mem (l : BlendLoad) (s : State) (a : Nat) : memByte (applyFull l s) a = memByte (powerStructure l.next (structureTaken l s)) a := by
  rw [applyFull_eq, (setLoad_reach _ _).memByte_eq rfl, (setCourierIslands_reach _ _).memByte_eq rfl, (structureSet_reach _ _).memByte_eq rfl,
    (beginRun_reach _ _).memByte_eq rfl]

theorem applyFull_core {e : Nat × Nat} (listed : e ∈ l.next.spare) (gated : (getIsl s (islOfCore e.2)).power = 0)
    (sound : (getIsl s (islOfCore e.2)).faulty = false) : islRun (getIsl (applyFull l s) (islOfCore e.2)) =
      (if e.2 ∈ (l.next.parts.map (fun e => partPhys l.next e.1 e.2)).flatten then 2 else 1, 0x30, 0x30) := by
  have low := islOfCore_low e.2
  have here : e.2 ∈ l.next.spare.map (·.2) := List.mem_map_of_mem listed
  have power := powerStructure_power (s := structureTaken l s) here (.inl (by rw [structureTaken_isl]; exact ⟨gated, sound⟩))
  have point := powerStructure_point (s := structureTaken l s) here (.inl (by rw [structureTaken_isl]; exact ⟨gated, sound⟩))
  rw [applyFull_isl l s (by omega), islRun, power, point]

theorem applyFull_leaves (l : BlendLoad) (s : State) :
    (∀ e ∈ l.next.spare, e.2 ∉ s.blend.zeroed → ScratchZero e.2 (applyFull l s)) ∧
    (∀ n ∈ movableIsls, n ∉ structureIsls l.next → (getIsl (applyFull l s) n).power = 0) ∧ ∀ p < 4, CourierOn p (applyFull l s) := by
  refine ⟨fun e listed fresh off inside => ?_, fun n movable unused_ => ?_, fun p known => ?_⟩
  · rw [applyFull_mem]
    exact powerStructure_zeroes (List.mem_map_of_mem listed) (by rw [structureTaken_zeroed]; exact fresh) off inside
  · have same := congrArg Prod.fst (applyFull_isl l s (movableIsls_low movable))
    exact same.trans (powerStructure_gates movable unused_ _)
  · obtain ⟨port, isl⟩ := setCourierIslands_on l.next.role (structureSet l.next (beginRun 0 (powerStructure l.next (structureTaken l s)))) p known
    rw [applyFull_eq]
    refine ⟨?_, ?_⟩
    · rw [getCr, (setLoad_reach _ _).courier_eq rfl]
      exact port
    · rw [(setLoad_reach _ _).getIsl_eq rfl]
      exact isl

end

end Sys2Proof.Machine
end
end

section
/-! SUPPORT. The boot run, and how a re-blend stops, cleans and resumes (R66, R70-R76, R446). -/
section
namespace Sys2Proof.Machine

/-! ### The boot run (R66, R446) -/

section
variable {rs : List IslandReading} {r : IslandReading} {s t : State}

/-- What the boot run does with a reading. -/
def readingTaken (r : IslandReading) (t : State) : State :=
  if slackOk r then takeReading r (verified r.island.val (movePoint r.island.val (readPoint t r).1 (readPoint t r).2 t)) else retireIsland r.island.val 1 t

theorem bootRun_eq (rs : List IslandReading) (s : State) :
    bootRun rs s = endRun (forEach (rs.filter (fun r => (liveIsls s).contains r.island.val)) readingTaken s) := rfl

/-- What a reading's point depends on, and the code that an island runs at. -/
def pointBasis (n : Nat) (t : State) : (Nat × Nat) × Nat := (((getIsl t n).floor, (getIsl t n).current), t.plan.goalNow)

/-- The point that an island is set to. -/
def pointSet (n : Nat) (t : State) : Nat × Nat := ((getIsl t n).vCode, (getIsl t n).target)

theorem readPoint_of_basis (same : pointBasis r.island.val t = pointBasis r.island.val s) : readPoint t r = readPoint s r := by
  obtain ⟨isl, goal⟩ := Prod.mk.inj same
  obtain ⟨floor, -⟩ := Prod.mk.inj isl
  have bottom : bottomCode (getIsl t r.island.val) = bottomCode (getIsl s r.island.val) := by rw [bottomCode, bottomCode, floor]
  have goals : goalOf t r.island.val = goalOf s r.island.val := by rw [goalOf, goalOf, floor, goal]
  unfold readPoint
  dsimp only
  rw [bottom, goals]

theorem movePoint_isl (n v f : Nat) (s : State) (m : Nat) : getIsl (movePoint n v f s) m = if m = n then { getIsl s n with vCode := v, target := f } else getIsl s m := by
  have moved : getIsl (updIsl s n (fun i => { i with vCode := v, target := f })) m = if m = n then { getIsl s n with vCode := v, target := f } else getIsl s m := by
    split
    next same =>
      subst same
      rw [updIsl, getIsl_setIsl]
    next other => exact getIsl_setIsl_ne _ _ other
  unfold movePoint
  dsimp only
  split
  · exact moved
  · exact moved

theorem movePoint_goal (n v f : Nat) (s : State) : (movePoint n v f s).plan.goalNow = s.plan.goalNow := by
  unfold movePoint
  dsimp only
  split <;> rfl

theorem takeReading_keeps {β : Type} {f : Island → β}
    (blind : ∀ i a b c d e g h, f { i with headroom := a, roDelta := b, slack := c, alarms := d, belowGoal := e, history := g, predict := h } = f i)
    (r : IslandReading) (s : State) : IslesKeep f s (takeReading r s) := by
  unfold takeReading
  dsimp only
  refine IslesKeep.trans (t := setIsl s r.island.val _) (fun n => ?_) (.of_same (updMargin_reach _ _ _) rfl)
  by_cases same : n = r.island.val
  · subst same
    rw [getIsl_setIsl]
    exact blind _ _ _ _ _ _ _ _
  · rw [getIsl_setIsl_ne _ _ same]

/-- The state in which a reading that shows slack has moved its island. -/
def pointMoved (r : IslandReading) (t : State) : State :=
  takeReading r (verified r.island.val (movePoint r.island.val (readPoint t r).1 (readPoint t r).2 t))

theorem pointMoved_isl {β : Type} {f : Island → β}
    (blind : ∀ i a b c d e g h, f { i with headroom := a, roDelta := b, slack := c, alarms := d, belowGoal := e, history := g, predict := h } = f i)
    (r : IslandReading) (t : State) (n : Nat) : f (getIsl (pointMoved r t) n) =
      f (if n = r.island.val then { getIsl t n with vCode := (readPoint t r).1, target := (readPoint t r).2 } else getIsl t n) := by
  rw [pointMoved, takeReading_keeps blind r _ n, (verified_reach _ _).getIsl_eq rfl, movePoint_isl]
  split
  next same => rw [same]
  next => rfl

theorem pointMoved_goal (r : IslandReading) (t : State) : (pointMoved r t).plan.goalNow = t.plan.goalNow := by
  rw [pointMoved, (takeReading_reach _ _).plan_eq rfl, (verified_reach _ _).plan_eq rfl, movePoint_goal]

theorem retireIsland_goal (n reason : Nat) (s : State) : (retireIsland n reason s).plan.goalNow = s.plan.goalNow := by
  cases sound : (getIsl s n).faulty with
  | true => rw [show retireIsland n reason s = s from if_pos sound]
  | false =>
    rw [retireIsland_eq reason sound, (endThose_reach _ _).plan_eq rfl, outOfService, (logEvent_reach _ _ _ _).plan_eq rfl]
    rfl

theorem readingTaken_basis (r : IslandReading) (t : State) (n : Nat) : pointBasis n (readingTaken r t) = pointBasis n t := by
  unfold readingTaken pointBasis
  split
  · have isl := pointMoved_isl (f := fun i => (i.floor, i.current)) (fun _ _ _ _ _ _ _ _ => rfl) r t n
    rw [show takeReading r _ = pointMoved r t from rfl, pointMoved_goal, isl]
    split <;> rfl
  · have isl := retireIsland_keeps (f := fun i => (i.floor, i.current)) (fun _ _ _ => rfl) (fun _ _ _ => rfl) r.island.val 1 t n
    rw [retireIsland_goal]
    exact congrArg (·, t.plan.goalNow) isl

theorem readingTaken_other (r : IslandReading) (t : State) {n : Nat} (other : n ≠ r.island.val) : pointSet n (readingTaken r t) = pointSet n t := by
  unfold readingTaken pointSet
  split
  · have isl := pointMoved_isl (f := fun i => (i.vCode, i.target)) (fun _ _ _ _ _ _ _ _ => rfl) r t n
    rw [if_neg other] at isl
    exact isl
  · exact retireIsland_keeps (f := fun i => (i.vCode, i.target)) (fun _ _ _ => rfl) (fun _ _ _ => rfl) r.island.val 1 t n

theorem readingTaken_sets (slack : slackOk r = true) (t : State) : pointSet r.island.val (readingTaken r t) = readPoint t r := by
  have isl := pointMoved_isl (f := fun i => (i.vCode, i.target)) (fun _ _ _ _ _ _ _ _ => rfl) r t r.island.val
  rw [if_pos rfl] at isl
  unfold readingTaken
  rw [if_pos slack]
  exact isl

theorem readings_set (slack : slackOk r = true) : ∀ (l : List IslandReading), (∀ r' ∈ l, r'.island = r.island → r' = r) → ∀ (t : State),
    (r ∈ l ∨ pointSet r.island.val t = readPoint s r) → pointBasis r.island.val t = pointBasis r.island.val s →
    pointSet r.island.val (forEach l readingTaken t) = readPoint s r ∧ pointBasis r.island.val (forEach l readingTaken t) = pointBasis r.island.val s
  | [], _, _, set, basis => ⟨set.resolve_left List.not_mem_nil, basis⟩
  | r' :: l, only, t, set, basis => by
    have basis' : pointBasis r.island.val (readingTaken r' t) = pointBasis r.island.val s := (readingTaken_basis r' t _).trans basis
    refine readings_set slack l (fun q listed => only q (List.mem_cons_of_mem _ listed)) _ ?_ basis'
    by_cases same : r' = r
    · subst same
      exact .inr ((readingTaken_sets slack t).trans (readPoint_of_basis basis))
    · have other : r.island.val ≠ r'.island.val := fun eq => same (only r' List.mem_cons_self (Fin.ext eq.symm))
      refine set.imp (fun listed => (List.mem_cons.1 listed).resolve_left (fun eq => same eq.symm)) (fun point => ?_)
      rw [readingTaken_other r' t other, point]

theorem bootRun_point (listed : r ∈ rs) (only : ∀ r' ∈ rs, r'.island = r.island → r' = r) (live : r.island.val ∈ liveIsls s) (slack : slackOk r = true) :
    (getIsl (bootRun rs s) r.island.val).vCode = (readPoint s r).1 ∧ (getIsl (bootRun rs s) r.island.val).target = (readPoint s r).2 ∧
    (getIsl (bootRun rs s) r.island.val).current = (getIsl s r.island.val).current := by
  have kept : r ∈ rs.filter (fun r => (liveIsls s).contains r.island.val) := List.mem_filter.2 ⟨listed, List.contains_iff_mem.2 live⟩
  obtain ⟨set, basis⟩ := readings_set (s := s) slack (rs.filter (fun r => (liveIsls s).contains r.island.val))
    (fun r' in_ => only r' (List.mem_filter.1 in_).1) s (.inl kept) rfl
  rw [bootRun_eq, (endRun_reach _).getIsl_eq rfl]
  exact ⟨congrArg Prod.fst set, congrArg Prod.snd set, congrArg (fun b => b.1.2) basis⟩

theorem bootRun_slots (rs : List IslandReading) (s : State) : (bootRun rs s).pm.slots = s.pm.slots := by
  have taken : ∀ (r : IslandReading) (t : State), (readingTaken r t).pm.slots = t.pm.slots := fun r t => by
    have moved : ∀ (n v f : Nat) (u : State), (movePoint n v f u).pm = u.pm := fun n v f u => (movePoint_reach n v f u).pm_eq rfl
    have checked : ∀ (n : Nat) (u : State), (verified n u).pm.slots = u.pm.slots := fun n u => by
      unfold verified
      dsimp only
      split <;> rfl
    have read : ∀ u : State, (takeReading r u).pm.slots = u.pm.slots := fun _ => rfl
    unfold readingTaken
    split
    · rw [read, checked, moved]
    · exact retireIsland_slots _ _ t
  have ended : ∀ t : State, (endRun t).pm.slots = t.pm.slots := fun t => by
    have logged : ∀ (l : List Nat) (u : State), (forEach l (fun n t =>
        let i := getIsl t n
        if i.headroom < 200 ∨ (i.predict ≠ 0xFFFFFFFF ∧ i.predict < t.plan.hours + 2000) then
          logEvent .marginLow islTrust (leBytes 2 n ++ leBytes 2 i.headroom ++ leBytes 4 i.predict) t
        else t) u).pm.slots = u.pm.slots := fun l u => forEach_keeps (f := fun u : State => u.pm.slots) (fun n v => by
          dsimp only
          split
          · rw [(logEvent_reach _ _ _ _).pm_eq rfl]
          · rfl) l u
    exact logged (liveIsls t) t
  rw [bootRun_eq, ended]
  exact forEach_keeps (f := fun t : State => t.pm.slots) taken _ s

/-- The module serves. -/
theorem enterServing_leaves {l : BlendLoad} (busy : (getSlot s l.slot).state = 1) (kept : (getSlot s l.slot).discard = false) :
    (enterServing l s).mode = .serving ∧ (enterServing l s).plan.bootDone = true ∧ (enterServing l s).blend.load = none ∧
    CallEnded (enterServing l s) l.slot (loadResult (failPlain 0) 6).toNat [] := by
  have joined := joinRing_reach { s with mode := .serving, plan := { s.plan with bootDone := true } }
  have slot : getSlot (joinRing { s with mode := .serving, plan := { s.plan with bootDone := true } }) l.slot = getSlot s l.slot := joined.getSlot_eq rfl _
  obtain ⟨ended, blend⟩ := endLoad_leaves (l := l) (r := loadResult (failPlain 0) 6)
    (s := joinRing { s with mode := .serving, plan := { s.plan with bootDone := true } }) (by rw [slot, busy]) (by rw [slot, kept])
  have finished : SameExcept [.pm, .host, .blend] (joinRing { s with mode := .serving, plan := { s.plan with bootDone := true } }) (enterServing l s) :=
    .step (finishCall_reach _ _ _ _) rfl ((setLoad_reach _ _).weaken rfl)
  exact ⟨(finished.mode_eq rfl).trans (joined.mode_eq rfl), (congrArg PlanState.bootDone ((finished.plan_eq rfl).trans (joined.plan_eq rfl))).trans rfl,
    congrArg BlendState.load blend, ended⟩

end

end Sys2Proof.Machine
end
end

section
/-! SUPPORT. How a re-blend stops, cleans and resumes (R70-R76), and the statement O54. -/
section
namespace Sys2Proof.Machine

section
variable {s t : State} {l : BlendLoad}

/-! ### The target stops (R70, R71) -/

/-- A core's tiles dropped. -/
def dropTiles (c : Nat) (t : State) : State := updCore t c (fun x => { x with tiles := [] })

theorem tilesDropped (cores : List Nat) (s : State) : ∀ c ∈ cores, (getCore (forEach cores dropTiles s) c).tiles = [] :=
  forEach_establishes (m := dropTiles) (P := fun c t => (getCore t c).tiles = []) (fun c t => by rw [dropTiles, getCore_updCore])
    (fun c d t gone => by
      by_cases same : c = d
      · subst same
        rw [dropTiles, getCore_updCore]
      · rw [dropTiles, getCore_updCore_ne _ _ same, gone]) cores s

theorem dropTiles_reach (cores : List Nat) (s : State) : SameExcept [.cores] s (forEach cores dropTiles s) :=
  .forEach (fun c t => updCore_reach t c _) cores (.refl _ s)

/-- The segment caches of some engines emptied. -/
def enginesCold (engines : List Nat) (s : State) : State := { s with seg := { s.seg with caches := engines.foldl tabDel s.seg.caches } }

/-- The state in which a target without links has stopped. -/
def targetStopped (l : BlendLoad) (s : State) : State :=
  let t := enginesCold (enginesOf s l.target) (forEach (partCores s.blend.cur l.target) dropTiles s)
  setLoad (beginClean (l.target / 32) (waysToClean s.blend.cur l.next (l.target / 32)).1 (waysToClean s.blend.cur l.next (l.target / 32)).2 t)
    (some { l with phase := .cleaning })

theorem mem_setInsAll {w : Nat} : ∀ (l m : List Nat), (w ∈ l ∨ w ∈ m) → w ∈ l.foldl setIns m
  | [], _, h => h.resolve_left List.not_mem_nil
  | _ :: l, _, h => mem_setInsAll l _ (h.elim (fun listed => (List.mem_cons.1 listed).elim (fun same => .inr (mem_setIns.2 (.inl same))) .inl)
      (fun kept => .inr (mem_setIns.2 (.inr kept))))

theorem beginClean_cleaning (die : Nat) (ways departing : List Nat) (s : State) : ∀ w ∈ ways, w ∈ (getCache (beginClean die ways departing s) die).cleaning := by
  intro w listed
  rw [beginClean, getCache_setCache]
  exact mem_setInsAll ways _ (.inl listed)

theorem stopDone_waits (busy : invsOf s l.target ≠ [] ∨ grindersIdle s l.target = false) : stopDone l s = s :=
  if_pos (busy.imp_right (fun off => by rw [off]; decide))

theorem stopDone_stops (idle : invsOf s l.target = []) (grinders : grindersIdle s l.target = true) (links : linksFor s.blend.cur l.target = []) :
    stopDone l s = targetStopped l s := by
  have same := dropTiles_reach (partCores s.blend.cur l.target) s
  have engines : enginesOf (forEach (partCores s.blend.cur l.target) dropTiles s) l.target = enginesOf s l.target := by
    rw [enginesOf, enginesOf, getPart, getPart, same.blend_eq rfl]
  unfold stopDone
  rw [if_neg (by rw [idle, grinders]; decide)]
  dsimp only
  rw [links]
  refine (if_neg Bool.false_ne_true).trans ?_
  unfold targetStopped enginesCold
  rw [← engines]
  have cur : (forEach (partCores s.blend.cur l.target) dropTiles s).blend.cur = s.blend.cur := congrArg BlendState.cur (same.blend_eq rfl)
  rw [show waysToClean s.blend.cur l.next (l.target / 32) = waysToClean (forEach (partCores s.blend.cur l.target) dropTiles s).blend.cur l.next (l.target / 32)
    from by rw [cur]]
  rfl

theorem targetStopped_leaves (l : BlendLoad) (s : State) : (targetStopped l s).blend.load = some { l with phase := .cleaning } ∧
    (∀ c ∈ partCores s.blend.cur l.target, (getCore (targetStopped l s) c).tiles = []) ∧
    (∀ e ∈ enginesOf s l.target, tabFind (targetStopped l s).seg.caches e = none) ∧
    ∀ w ∈ (waysToClean s.blend.cur l.next (l.target / 32)).1, w ∈ (getCache (targetStopped l s) (l.target / 32)).cleaning := by
  refine ⟨rfl, fun c listed => ?_, fun e listed => ?_, fun w listed => ?_⟩
  · exact tilesDropped _ s c listed
  · exact tabFind_deleted (enginesOf s l.target) (forEach (partCores s.blend.cur l.target) dropTiles s).seg.caches e (.inl listed)
  · exact beginClean_cleaning (l.target / 32) _ _ (enginesCold (enginesOf s l.target) (forEach (partCores s.blend.cur l.target) dropTiles s)) w listed

/-- A re-blend that is abandoned leaves the structure in force, and its target fetches again. -/
theorem abandon_leaves (code phase : Nat) (busy : (getSlot s l.slot).state = 1) (kept : (getSlot s l.slot).discard = false) :
    (abandon code phase l s).blend.load = none ∧ (abandon code phase l s).blend.cur = s.blend.cur ∧
    CallEnded (abandon code phase l s) l.slot (loadResult (failPlain code) phase).toNat [] ∧ l.target ∉ (abandon code phase l s).blend.quiesced ∧
    tabGet 0 (abandon code phase l s).blend.resumedAt l.target = s.devTime := by
  obtain ⟨ended, blend⟩ := endLoad_leaves (l := l) (s := resumeFetch l.target s) (r := loadResult (failPlain code) phase) busy kept
  rw [abandon, blend]
  exact ⟨rfl, rfl, ended, not_mem_setDel l.target s.blend.quiesced, tabGet_tabSet_same _ _ _ _⟩

theorem drainLate_abandons (complete : l.abortMode = false) (busy : invsOf s l.target ≠ []) (late : l.started + l.drainLimitUs * 1000 ≤ s.devTime) :
    drainLate l s = abandon 0x23 4 l s := if_neg (by simp [complete, busy]; omega)

theorem drainLate_waits (early : s.devTime < l.started + l.drainLimitUs * 1000) : drainLate l s = s := if_pos (.inr (.inr early))

/-! ### The next structure comes into force (R71, R75, R76) -/

theorem tabFind_delLinks (links : List (Nat × LinkDef)) (m : Tab LinkRun) : ∀ e ∈ links, tabFind (links.foldl (fun t e => tabDel t e.1) m) e.1 = none := by
  intro e listed
  have deleted := tabFind_deleted (links.map (·.1)) m e.1 (.inl (List.mem_map_of_mem listed))
  rwa [List.foldl_map] at deleted

/-- The next structure's tables in force, its links without state. -/
def nextTaken (l : BlendLoad) (s : State) : State :=
  { s with
    blend := { s.blend with cur := l.next }
    links := (linksFor l.next l.target).foldl (fun t e => tabDel t e.1) s.links }

theorem enterNext_leaves (l : BlendLoad) (s : State) : (enterNext l s).blend.cur = l.next ∧ (enterNext l s).links = (nextTaken l s).links := by
  obtain ⟨z, blend⟩ := powerStructure_blend l.next (nextTaken l s)
  have power := powerStructure_reach l.next (nextTaken l s)
  have reset : SameExcept [.cache, .sems, .grinders] (powerStructure l.next (nextTaken l s))
      (resetSems l.next l.target (setRegions l.next (l.target / 32) (powerStructure l.next (nextTaken l s)))) :=
    .step (resetSems_reach _ _ _) rfl ((setRegions_reach _ _ _).weaken rfl)
  have on (u : State) (cores : List Nat) : SameExcept [.isl] u
      (forEach cores (fun c t => updIsl t (islOfCore c) (fun i => if i.power = 1 then { i with power := 2, gatedSince := none } else i)) u) :=
    .forEach (fun c t => updIsl_reach t (islOfCore c) _) cores (.refl _ u)
  have last : SameExcept [.isl, .cores] (resetSems l.next l.target (setRegions l.next (l.target / 32) (powerStructure l.next (nextTaken l s)))) (enterNext l s) := by
    unfold enterNext
    dsimp only
    split
    · exact .step (on _ _) rfl (.step (setModes_reach _ _ _ _) rfl ((setFloors_reach _ _ _ _ _).weaken rfl))
    · exact (on _ _).weaken rfl
  refine ⟨?_, ?_⟩
  · rw [last.blend_eq rfl, reset.blend_eq rfl, blend]
    rfl
  · rw [last .links (by decide), reset .links (by decide), power .links (by decide)]

theorem cleanDone_waits (rs : List IslandReading) (cleaning : (getCache s (l.target / 32)).cleaning ≠ []) : cleanDone rs l s = s := if_pos cleaning

section
variable {rs : List IslandReading} (clean_ : (getCache s (l.target / 32)).cleaning = [])
include clean_

theorem cleanDone_abandons (faulty : ∃ c ∈ partCores l.next l.target, (getIsl s (islOfCore c)).faulty = true) :
    cleanDone rs l s = abandon 0x11 5 l (setRegions s.blend.cur (l.target / 32) s) := by
  unfold cleanDone
  dsimp only
  rw [if_neg (not_not.2 clean_), if_pos (List.any_eq_true.2 faulty)]

section
variable (sound : ∀ c ∈ partCores l.next l.target, (getIsl s (islOfCore c)).faulty = false)
include sound

theorem cleanDone_sound : cleanDone rs l s =
    if (newCores s.blend.cur l.next l.target).any (fun c => unverified s (islOfCore c) && (checkPoint s rs (islOfCore c)).isNone) then s
    else setLoad (enterPoints rs l (newCores s.blend.cur l.next l.target) (enterRole l s.blend.cur.role.manager (enterNext l s)))
      (some { l with phase := .resuming, joining := newCores s.blend.cur l.next l.target }) := by
  have none_ : ¬(partCores l.next l.target).any (fun c => (getIsl s (islOfCore c)).faulty) = true := fun any => by
    obtain ⟨c, listed, bad⟩ := List.any_eq_true.1 any
    exact Bool.false_ne_true ((sound c listed).symm.trans bad)
  unfold cleanDone
  dsimp only
  rw [if_neg (not_not.2 clean_), if_neg none_]

theorem cleanDone_unset (unset : ∃ c ∈ newCores s.blend.cur l.next l.target, unverified s (islOfCore c) = true ∧ checkPoint s rs (islOfCore c) = none) :
    cleanDone rs l s = s := by
  obtain ⟨c, listed, raw, none_⟩ := unset
  exact (cleanDone_sound clean_ sound).trans (if_pos (List.any_eq_true.2 ⟨c, listed, by rw [raw, none_]; rfl⟩))

theorem cleanDone_enters (set : ∀ c ∈ newCores s.blend.cur l.next l.target, ¬(unverified s (islOfCore c) = true ∧ checkPoint s rs (islOfCore c) = none)) :
    ∃ t, cleanDone rs l s = t ∧ t.blend.cur = l.next ∧
      t.blend.load = some { l with phase := .resuming, joining := newCores s.blend.cur l.next l.target } ∧
      ∀ e ∈ linksFor l.next l.target, getLink t e.1 = linkRunReset := by
  have none_ : ¬(newCores s.blend.cur l.next l.target).any (fun c => unverified s (islOfCore c) && (checkPoint s rs (islOfCore c)).isNone) = true := fun any => by
    obtain ⟨c, listed, bad⟩ := List.any_eq_true.1 any
    rw [Bool.and_eq_true, Option.isNone_iff_eq_none] at bad
    exact set c listed bad
  obtain ⟨cur, links⟩ := enterNext_leaves l s
  have same : SameExcept [.isl, .courier] (enterNext l s)
      (enterPoints rs l (newCores s.blend.cur l.next l.target) (enterRole l s.blend.cur.role.manager (enterNext l s))) :=
    .step (enterPoints_reach _ _ _ _) rfl ((enterRole_reach _ _ _).weaken rfl)
  refine ⟨_, (cleanDone_sound clean_ sound).trans (if_neg none_), ?_, rfl, fun e listed => ?_⟩
  · exact (congrArg BlendState.cur (same.blend_eq rfl)).trans cur
  · have gone := tabFind_delLinks (linksFor l.next l.target) s.links e listed
    have now : (enterPoints rs l (newCores s.blend.cur l.next l.target) (enterRole l s.blend.cur.role.manager (enterNext l s))).links = _ :=
      (same .links (by decide)).trans links
    exact (congrArg (tabGet linkRunReset · e.1) now).trans (by rw [tabGet, show tabFind (nextTaken l s).links e.1 = none from gone]; rfl)

end

end

/-! ### The target serves again (R71, R74) -/

/-- A core of the target that its slack check or its floor still holds. -/
def CoreHeld (s : State) (c : Nat) : Prop := (getIsl s (islOfCore c)).faulty = false ∧
  ((getIsl s (islOfCore c)).check.isSome = true ∨ (getIsl s (islOfCore c)).current < (getIsl s (islOfCore c)).floor)

theorem coresHeld_iff (cores : List Nat) : cores.any (fun c => !(getIsl s (islOfCore c)).faulty &&
    ((getIsl s (islOfCore c)).check.isSome || decide ((getIsl s (islOfCore c)).current < (getIsl s (islOfCore c)).floor))) = true ↔ ∃ c ∈ cores, CoreHeld s c := by
  simp only [List.any_eq_true, CoreHeld, Bool.and_eq_true, Bool.not_eq_true', Bool.or_eq_true, decide_eq_true_eq]

theorem resumeTarget_waits (held : l.joining ≠ [] ∨ ∃ c ∈ partCores s.blend.cur l.target, CoreHeld s c) : resumeTarget l s = s :=
  if_pos (held.imp_right (coresHeld_iff _).2)

/-- The blend once a re-blend is in force. -/
def reblendDone (l : BlendLoad) (s : State) : BlendState :=
  { s.blend with
    meas := shake256 (leBytes 32 s.blend.meas.toNat ++ leBytes 32 l.meas.toNat)
    reblends := s.blend.reblends + 1
    staged := none
    load := none
    quiesced := setDel s.blend.quiesced l.target
    resumedAt := tabSet 0 s.blend.resumedAt l.target s.devTime }

/-- The state in which a re-blend is in force. -/
def reblendJoined (l : BlendLoad) (s : State) : State := { s with blend := { reblendDone l s with load := s.blend.load } }

/-- What a re-blend logs of its outage. -/
def outageBytes (l : BlendLoad) (s : State) : List Byte :=
  leBytes 1 l.target ++ leBytes 4 (min 0xFFFFFFFF (s.devTime - l.started)) ++
    leBytes 32 (shake256 (leBytes 32 s.blend.meas.toNat ++ leBytes 32 l.meas.toNat)).toNat

/-- A re-blend's end in the log. -/
def reblendLogged (d : List Byte) (u : State) : State := logEvent .reblendDone islTrust d (logEvent .resetCause islTrust (leBytes 1 6) u)

theorem reblendLogged_reach (d : List Byte) (u : State) : SameExcept [.log] u (reblendLogged d u) :=
  .step (logEvent_reach _ _ _ _) rfl (logEvent_reach _ _ _ _)

theorem reblendLogged_grows (d : List Byte) (u : State) : (reblendLogged d u).log ≠ u.log := LogGrows.ne_of_event (logEvent_grows _ _ _ _)

theorem resumeTarget_eq (joined : l.joining = []) (free : ∀ c ∈ partCores s.blend.cur l.target, ¬CoreHeld s c) :
    resumeTarget l s = endLoad l (loadResult (failPlain 0) 6) (reblendLogged (outageBytes l s) (reblendJoined l s)) := by
  have none_ : ¬∃ c ∈ partCores s.blend.cur l.target, CoreHeld s c := fun ⟨c, listed, held⟩ => free c listed held
  unfold resumeTarget
  exact if_neg (not_or.2 ⟨not_not.2 joined, fun any => none_ ((coresHeld_iff _).1 any)⟩)

theorem resumeTarget_resumes (joined : l.joining = []) (free : ∀ c ∈ partCores s.blend.cur l.target, ¬CoreHeld s c)
    (busy : (getSlot s l.slot).state = 1) (kept : (getSlot s l.slot).discard = false) : (resumeTarget l s).blend = reblendDone l s ∧
      CallEnded (resumeTarget l s) l.slot (loadResult (failPlain 0) 6).toNat [] ∧ (resumeTarget l s).log ≠ s.log := by
  have logged := reblendLogged_reach (outageBytes l s) (reblendJoined l s)
  have grown : (reblendLogged (outageBytes l s) (reblendJoined l s)).log ≠ s.log := reblendLogged_grows (outageBytes l s) (reblendJoined l s)
  rw [resumeTarget_eq joined free]
  generalize reblendLogged (outageBytes l s) (reblendJoined l s) = u at logged grown ⊢
  have slot : getSlot u l.slot = getSlot s l.slot := logged.getSlot_eq rfl _
  obtain ⟨ended, blend⟩ := endLoad_leaves (l := l) (s := u) (r := loadResult (failPlain 0) 6) (by rw [slot, busy]) (by rw [slot, kept])
  have finished : SameExcept [.pm, .host, .blend] u (endLoad l (loadResult (failPlain 0) 6) u) :=
    .step (finishCall_reach _ _ _ _) rfl ((setLoad_reach _ _).weaken rfl)
  refine ⟨?_, ended, by rw [finished.log_eq rfl]; exact grown⟩
  rw [blend, logged.blend_eq rfl]
  rfl

end

/-- Settles O54: each phase of a load by what its command does in it, the full image by what its structure powers up, zeroes and gates. -/
theorem blendsTakeEffect : Obligations.BlendsTakeEffect := by
  unfold Obligations.BlendsTakeEffect
  intro rs s l load mode ends serves waiting cores fresh unset held used boot running
  have does (p : LoadPhase) (f : BlendLoad → State → State) (phase : l.phase = p) : inPhase p f s = f l s := inPhase_does load phase mode
  have atBoot (phase : l.phase = .bootRun) : exec boot s = .next (bootRunDone rs l s) := by
    refine congrArg Host.Outcome.next ?_
    rw [load]
    exact (if_neg (by rw [phase]; decide)).trans (does .bootRun (bootRunDone rs) phase)
  have atRamp (phase : l.phase = .ramping) : exec boot s = .next (rampDone l s) := by
    refine congrArg Host.Outcome.next ?_
    rw [load]
    exact (if_pos phase).trans (does .ramping rampDone phase)
  refine ⟨fun phase => ?_, fun phase => ⟨fun unread => ?_, fun read => ⟨fun r listed only live slack => bootRun_point listed only live slack,
    fun slow => ?_, fun fast wait => ?_⟩⟩, fun phase => ⟨fun slow => ?_, fun fast wait => ?_⟩,
    fun phase => ⟨fun busy => ?_, fun idle grinders links => ?_, fun complete busy late wait => ?_, fun early => ?_⟩,
    fun phase => ⟨fun cleaning => ?_, fun clean_ => ⟨fun faulty wait => ?_, fun sound none_ => ?_, fun sound set => ?_⟩⟩,
    fun phase => ⟨fun held_ => ?_, fun joined free wait => ?_⟩⟩
  · obtain ⟨applied, cur, meas, id, reblends, loads⟩ := applyFull_blend l s
    obtain ⟨zero, gated, courier⟩ := applyFull_leaves l s
    refine ⟨_, congrArg Host.Outcome.next (does .applying applyFull phase), applied, cur, meas, id, reblends, loads, fun e listed off sound => ?_,
      zero, fun n movable spare grinders => gated n movable (fun used_ => ?_), courier⟩
    · have run := applyFull_core (l := l) listed off sound
      obtain ⟨power, point⟩ := Prod.mk.inj run
      obtain ⟨target, current⟩ := Prod.mk.inj point
      exact ⟨power, target, current⟩
    · obtain core | grinder := List.mem_append.1 used_
      · rw [List.map_map] at core
        exact spare core
      · exact grinders grinder
  · exact (atBoot phase).trans (congrArg Host.Outcome.next (if_pos (by rw [unread]; decide)))
  · exact (atBoot phase).trans (congrArg Host.Outcome.next ((if_neg (by rw [read]; decide)).trans (if_neg (fun fast => Bool.false_ne_true (slow.symm.trans fast)))))
  · have slot : getSlot (bootRun rs s) l.slot = getSlot s l.slot := congrArg (tabGet callSlotReset · l.slot) (bootRun_slots rs s)
    exact ⟨_, (atBoot phase).trans (congrArg Host.Outcome.next ((if_neg (by rw [read]; decide)).trans (if_pos fast))),
      enterServing_leaves (by rw [slot]; exact wait.1) (by rw [slot]; exact wait.2)⟩
  · exact (atRamp phase).trans (congrArg Host.Outcome.next (if_neg (fun fast => Bool.false_ne_true (slow.symm.trans fast))))
  · exact ⟨_, (atRamp phase).trans (congrArg Host.Outcome.next (if_pos fast)), enterServing_leaves wait.1 wait.2⟩
  · exact congrArg Host.Outcome.next ((does .stopping stopDone phase).trans (stopDone_waits busy))
  · exact ⟨_, congrArg Host.Outcome.next ((does .stopping stopDone phase).trans (stopDone_stops idle grinders links)), targetStopped_leaves l s⟩
  · exact ⟨_, congrArg Host.Outcome.next ((does .stopping drainLate phase).trans (drainLate_abandons complete busy late)), abandon_leaves 0x23 4 wait.1 wait.2⟩
  · exact congrArg Host.Outcome.next ((does .stopping drainLate phase).trans (drainLate_waits early))
  · exact congrArg Host.Outcome.next ((does .cleaning (cleanDone rs) phase).trans (cleanDone_waits rs cleaning))
  · exact ⟨_, congrArg Host.Outcome.next ((does .cleaning (cleanDone rs) phase).trans (cleanDone_abandons clean_ faulty)),
      abandon_leaves (s := setRegions s.blend.cur (l.target / 32) s) 0x11 5 wait.1 wait.2⟩
  · exact congrArg Host.Outcome.next ((does .cleaning (cleanDone rs) phase).trans (cleanDone_unset clean_ sound none_))
  · obtain ⟨t, eq, cur, loads, links⟩ := cleanDone_enters (rs := rs) clean_ sound set
    exact ⟨t, congrArg Host.Outcome.next ((does .cleaning (cleanDone rs) phase).trans eq), cur, loads, links⟩
  · exact congrArg Host.Outcome.next ((does .resuming resumeTarget phase).trans (resumeTarget_waits held_))
  · exact ⟨_, congrArg Host.Outcome.next (does .resuming resumeTarget phase), resumeTarget_resumes joined free wait.1 wait.2⟩

end Sys2Proof.Machine
end
end

section
/-! SUPPORT. The manager's tables in HBM (R254, R404): which records a table write keeps. -/
section
namespace Sys2Proof.Machine

/-! ### What a write of the tables keeps -/

/-- The bytes of a set are kept: the lines held are the same, and the structure in force is. -/
structure BytesKept (P : Nat → Prop) (s t : State) : Prop where
  hold : SameHold s t
  bytes : ∀ x, P x → memByte t x = memByte s x
  cur : t.blend.cur = s.blend.cur

section
variable {P Q : Nat → Prop} {s t u : State} {i j k : Nat}

theorem BytesKept.refl (P : Nat → Prop) (s : State) : BytesKept P s s := ⟨.refl s, fun _ _ => rfl, rfl⟩

theorem BytesKept.trans (h : BytesKept P s t) (h' : BytesKept P t u) : BytesKept P s u :=
  ⟨h.hold.trans h'.hold, fun x there => (h'.bytes x there).trans (h.bytes x there), h'.cur.trans h.cur⟩

theorem BytesKept.weaken (h : BytesKept P s t) (fewer : ∀ x, Q x → P x) : BytesKept Q s t := ⟨h.hold, fun x there => h.bytes x (fewer x there), h.cur⟩

theorem BytesKept.of_same {ps : List Part} (h : SameExcept ps s t) (cache : ps.contains .cache = false) (mc : ps.contains .mc = false)
    (mem : ps.contains .mem = false) (blend : ps.contains .blend = false) : BytesKept P s t :=
  ⟨.of_same h cache mc, fun x _ => h.memByte_eq mem x, congrArg BlendState.cur (h.blend_eq blend)⟩

theorem tableWrite_cur (a : Nat) (b : List Byte) (s : State) : (tableWrite a b s).blend.cur = s.blend.cur := by
  have captured : SameExcept [.courier] (hbmWrite s none a (clean b) []) (tableWrite a b s) := captureWrite_reach _ _ _
  rw [captured.blend_eq rfl, (hbmWrite_plain s a (clean b)).blend_eq rfl]

theorem tableWrite_keeps {a : Nat} {b : List Byte} (apart : ∀ x, P x → x < a ∨ a + b.length ≤ x) (s : State) : BytesKept P s (tableWrite a b s) := by
  have written := tableWrite_writes s a b
  have len : (clean b).length = b.length := List.length_map _
  refine ⟨written.hold, fun x there => written.outside x (fun inside => ?_), tableWrite_cur a b s⟩
  obtain ⟨low, high⟩ := inside
  rw [len] at high
  dsimp only at low high
  have := apart x there
  omega

/-- A session's record. -/
def InSession (s : State) (i : Nat) (x : Nat) : Prop := sessionAddr s i ≤ x ∧ x < sessionAddr s i + 128

/-- A record that is kept. -/
def SessionKept (i : Nat) (s t : State) : Prop := BytesKept (InSession s i) s t

theorem sessionAddr_of_cur (same : t.blend.cur = s.blend.cur) (i : Nat) : sessionAddr t i = sessionAddr s i := by rw [sessionAddr, sessionAddr, same]
theorem nodeAddr_of_cur (same : t.blend.cur = s.blend.cur) (k : Nat) : nodeAddr t k = nodeAddr s k := by rw [nodeAddr, nodeAddr, same]
theorem sessionIxs_of_cur (same : t.blend.cur = s.blend.cur) : sessionIxs t = sessionIxs s := by rw [sessionIxs, sessionIxs, same]
theorem nodeIxs_of_cur (same : t.blend.cur = s.blend.cur) : nodeIxs t = nodeIxs s := by rw [nodeIxs, nodeIxs, same]

theorem SessionKept.trans (h : SessionKept i s t) (h' : SessionKept i t u) : SessionKept i s u :=
  BytesKept.trans h (BytesKept.weaken h' (fun x there => by rwa [InSession, sessionAddr_of_cur h.cur]))

theorem SessionKept.each {α : Type} {m : α → State → State} : ∀ (l : List α) (_ : ∀ a ∈ l, ∀ t, t.blend.cur = s.blend.cur → SessionKept i t (m a t)) (t : State),
    t.blend.cur = s.blend.cur → SessionKept i t (forEach l m t)
  | [], _, t, _ => .refl _ t
  | a :: l, one, t, cur =>
    (one a List.mem_cons_self t cur).trans (SessionKept.each l (fun b later => one b (List.mem_cons_of_mem _ later)) (m a t)
      ((one a List.mem_cons_self t cur).cur.trans cur))

theorem hbmPeek_line {x : Nat} (dram : LineInDram s (x / 256)) : (hbmPeek s x).1 = memByte s x := by
  obtain ⟨-, line, evb⟩ := dram
  rw [stackOf_line] at line evb
  unfold hbmPeek
  dsimp only
  rw [line, evb]

theorem peekBytes_kept {a n : Nat} (dram : InDram s a n) (kept : BytesKept (fun x => a ≤ x ∧ x < a + n) s t) : peekBytes t a n = peekBytes s a n := by
  unfold peekBytes
  refine List.map_congr_left (fun j listed => ?_)
  have inside := List.mem_range.1 listed
  have here := dram.line (x := a + j) (Nat.le_add_right a j) (by omega)
  rw [hbmPeek_line here, hbmPeek_line ((kept.hold.line _).2 here), kept.bytes (a + j) ⟨Nat.le_add_right a j, by omega⟩]

theorem getSession_kept (dram : InDram s (sessionAddr s i) 128) (kept : SessionKept i s t) : getSession t i = getSession s i := by
  rw [getSession, getSession, sessionAddr_of_cur kept.cur, peekBytes_kept dram kept]

theorem sessionBytes_length (i : Nat) (x : Session) : (sessionBytes i x).length = 76 := by
  simp only [sessionBytes, List.length_append, leBytes_length]

theorem putSession_other (other : i ≠ j) (x : Session) (s : State) : SessionKept i s (putSession j x s) :=
  tableWrite_keeps (fun y there => by
    rw [InSession] at there
    rw [sessionBytes_length]
    unfold sessionAddr at *
    omega) s

theorem putSession_own (x : Session) (dram : InDram s (sessionAddr s i) 128) :
    memBytes (putSession i x s) (sessionAddr s i) (sessionBytes i x).length = sessionBytes i x :=
  (tableWrite_writes s (sessionAddr s i) (sessionBytes i x)).bytes (dram.weaken (by rw [sessionBytes_length]; omega) (by rw [sessionBytes_length]; omega))

theorem memBytes_kept {a n : Nat} (kept : BytesKept (fun x => a ≤ x ∧ x < a + n) s t) : memBytes t a n = memBytes s a n :=
  memBytes_eq (by simp) (fun j inside => by rw [memBytes_getD inside]; exact kept.bytes (a + j) ⟨Nat.le_add_right a j, by omega⟩)

/-- A record that stands in the tables, and that what follows keeps. -/
theorem sessionBytes_kept (kept : SessionKept i s t) (x : Session) : memBytes t (sessionAddr s i) (sessionBytes i x).length =
    memBytes s (sessionAddr s i) (sessionBytes i x).length :=
  memBytes_kept (BytesKept.weaken kept (fun y there => ⟨there.1, by rw [sessionBytes_length] at there; omega⟩))

/-! ### Writes of nodes alone (R252-R259) -/

/-- Nothing below the node records changes. -/
def NodesOnly (s t : State) : Prop := BytesKept (fun x => x < nodeAddr s 0) s t

theorem NodesOnly.refl (s : State) : NodesOnly s s := BytesKept.refl _ s

theorem NodesOnly.trans (h : NodesOnly s t) (h' : NodesOnly t u) : NodesOnly s u :=
  BytesKept.trans h (BytesKept.weaken h' (fun x there => by rwa [nodeAddr_of_cur h.cur]))

theorem NodesOnly.session (h : NodesOnly s t) (inside : i < s.blend.cur.role.sessionLimit) : SessionKept i s t :=
  BytesKept.weaken h (fun x there => by
    rw [InSession] at there
    unfold sessionAddr at there
    unfold nodeAddr
    omega)

theorem nodeBytes_length (x : Node) : (nodeBytes x).length = 64 := by
  simp [nodeBytes, zeros]

theorem putNode_only (k : Nat) (x : Node) (s : State) : NodesOnly s (putNode k x s) :=
  tableWrite_keeps (fun y there => by
    unfold nodeAddr at *
    omega) s

theorem updNode_only (k : Nat) (f : Node → Node) (s : State) : NodesOnly s (updNode k f s) := putNode_only _ _ _

/-- The record of a node that a prompt has just brought into the tree (R255). -/
def madeNode (ns w h parent depth slot now : Nat) : Node where
  hash := h
  parent := parent
  depth := depth + 1
  state := 1
  home := w
  refs := 1
  children := 0
  slot := slot
  lastUse := now
  nspace := ns

/-- A relation that a write of a node's record is in, and that goes on from one to the next. -/
structure NodeSteps (R : State → State → Prop) : Prop where
  refl : ∀ s, R s s
  trans : ∀ {s t u}, R s t → R t u → R s u
  put : ∀ k x s, R s (putNode k x s)

section
variable {R : State → State → Prop} (steps : NodeSteps R)
include steps

theorem NodeSteps.upd (k : Nat) (f : Node → Node) (s : State) : R s (updNode k f s) := steps.put k _ s

theorem NodeSteps.each {α : Type} {m : α → State → State} (one : ∀ a t, R t (m a t)) : ∀ (l : List α) (t : State), R t (forEach l m t)
  | [], t => steps.refl t
  | a :: l, t => steps.trans (one a t) (NodeSteps.each one l (m a t))

theorem NodeSteps.evict (k : Nat) (s : State) : R s (evictNode k s) := by
  unfold evictNode
  dsimp only
  split
  · exact steps.put _ _ _
  · exact steps.trans (steps.put _ _ _) (steps.upd _ _ _)

theorem NodeSteps.room (w : Nat) (s : State) : R s (makeNodeRoom w s) := by
  have evicted (home : Option Nat) (t : State) : R t (match evictable t home with | some k => evictNode k t | none => t) := by
    split
    · exact steps.evict _ _
    · exact steps.refl t
  have slot : R s (if (freePool s w).isSome then s else match evictable s (some w) with | some k => evictNode k s | none => s) := by
    split
    · exact steps.refl s
    · exact evicted _ s
  have record (t : State) : R t (if (freeNode t).isSome then t else match evictable t none with | some k => evictNode k t | none => t) := by
    split
    · exact steps.refl t
    · exact evicted _ t
  exact steps.trans slot (record _)

theorem NodeSteps.insert (ns w : Nat) : ∀ (l : List Nat) (parent depth : Nat) (s : State), R s (insertNodes ns w l parent depth s).2
  | [], _, _, s => steps.refl s
  | h :: l, parent, depth, s => by
    have room := steps.room w s
    unfold insertNodes
    dsimp only
    split
    next slot k _ _ =>
      have put := steps.trans room (steps.put k (madeNode ns w h parent depth slot (makeNodeRoom w s).devTime) (makeNodeRoom w s))
      split
      · exact steps.trans put (NodeSteps.insert ns w l k (depth + 1) _)
      · exact steps.trans (steps.trans put (steps.upd _ _ _)) (NodeSteps.insert ns w l k (depth + 1) _)
    · exact room

theorem NodeSteps.release (x : Session) (s : State) : R s (releaseChain x s) := steps.each (fun k t => steps.upd k _ t) (chainOf s x) s

end

theorem nodesOnly_steps : NodeSteps NodesOnly := ⟨.refl, .trans, putNode_only⟩

theorem insertNodes_length (ns w : Nat) : ∀ (l : List Nat) (parent depth : Nat) (s : State), (insertNodes ns w l parent depth s).1.length ≤ l.length
  | [], _, _, _ => le_rfl
  | _ :: l, _, depth, _ => by
    unfold insertNodes
    dsimp only
    split
    next k _ _ => exact Nat.succ_le_succ (insertNodes_length ns w l k (depth + 1) _)
    · exact Nat.zero_le _

end

/-! ### Admission (R248, R255) -/

section
variable {a : Admission} {s : State}

/-- The hashes of an admission's blocks. -/
def admitHashes (a : Admission) : List Nat :=
  if a.nspace = 0 then [] else chainHashes ((a.prompt.length - 1) / 64) (t128 (prefixLabel ++ leBytes 8 a.nspace.toNat)) a.prompt

/-- The state in which the nodes that an admission finds are in use. -/
def nodesFound (a : Admission) (s : State) : State :=
  forEach (matchChain s (admitHashes a)) (fun k t => updNode k (fun x => { x with refs := x.refs + 1, lastUse := t.devTime }) t) s

/-- The nodes that an admission makes, and the state that they leave. -/
def nodesMade (a : Admission) (s : State) : List Nat × State :=
  insertNodes a.nspace.toNat a.worker.val ((admitHashes a).drop (matchChain s (admitHashes a)).length) (((matchChain s (admitHashes a)).getLast?).getD noNode)
    (matchChain s (admitHashes a)).length (nodesFound a s)

/-- An admission's chain. -/
def admitChain (a : Admission) (s : State) : List Nat := matchChain s (admitHashes a) ++ (nodesMade a s).1

/-- The record of an admitted prompt. -/
def admitRecord (a : Admission) (s : State) : Session where
  state := 1
  worker := a.worker.val
  cls := a.cls.val
  ended := 0
  nspace := a.nspace.toNat
  nMax := a.nMax.val
  length := 0
  region := a.region.toNat
  chainNode := ((admitChain a s).getLast?).getD noNode
  chainLen := (admitChain a s).length
  context := a.context.val
  lastStep := 0
  windowLo := a.windowLo.toNat
  token := 0
  admitted := s.devTime
  promptLen := a.prompt.length
  matched := (matchChain s (admitHashes a)).length
  tiles := regionTiles a.nMax.val (admitChain a s).length

/-- An admission that its slot and its prompt allow. -/
def Admissible (a : Admission) (s : State) : Prop := ¬(!managing s ∨ s.blend.cur.role.sessionLimit ≤ a.session.val ∨ (getSession s a.session.val).state ≠ 0 ∨
  a.prompt.length = 0 ∨ a.nMax.val < a.prompt.length ∨ !mirrored s)

theorem admitSession_places (may : Admissible a s) : admitSession a s =
    if !regionFree s a.worker.val a.context.val a.region.toNat (regionTiles a.nMax.val (admitChain a s).length) then s
    else putSession a.session.val (admitRecord a s) (nodesMade a s).2 := by
  unfold admitSession
  exact if_neg may

theorem matchChain_length (s : State) : ∀ l : List Nat, (matchChain s l).length ≤ l.length
  | [] => le_rfl
  | h :: l => by
    unfold matchChain
    split
    · exact Nat.succ_le_succ (matchChain_length s l)
    · exact Nat.zero_le _

theorem nodesMade_only (a : Admission) (s : State) : NodesOnly s (nodesMade a s).2 := by
  have found : NodesOnly s (nodesFound a s) := nodesOnly_steps.each (m := fun k t => updNode k (fun x => { x with refs := x.refs + 1, lastUse := t.devTime }) t)
    (fun k t => updNode_only k _ t) _ s
  exact found.trans (nodesOnly_steps.insert _ _ _ _ _ _)

theorem admitChain_length (a : Admission) (s : State) : (matchChain s (admitHashes a)).length ≤ (admitChain a s).length ∧
    (admitChain a s).length ≤ (admitHashes a).length := by
  have made : (nodesMade a s).1.length ≤ ((admitHashes a).drop (matchChain s (admitHashes a)).length).length :=
    insertNodes_length _ _ _ _ _ _
  have found := matchChain_length s (admitHashes a)
  rw [List.length_drop] at made
  rw [admitChain, List.length_append]
  omega

theorem regionTiles_le (n k : Nat) : regionTiles n k ≤ regionTiles n 0 := by
  unfold regionTiles ceilDiv
  exact Nat.div_le_div_right (by omega)

theorem nodesMade_plain (plain : a.nspace = 0) : admitChain a s = [] ∧ (nodesMade a s).2 = s := by
  have none_ : admitHashes a = [] := if_pos plain
  unfold admitChain nodesMade nodesFound
  rw [none_]
  exact ⟨rfl, rfl⟩

theorem admitSession_refused (plain : a.nspace = 0) (taken : regionFree s a.worker.val a.context.val a.region.toNat (regionTiles a.nMax.val 0) = false) :
    admitSession a s = s := by
  by_cases may : Admissible a s
  · rw [admitSession_places may, (nodesMade_plain plain).1]
    exact if_pos (by rw [List.length_nil, taken]; decide)
  · exact if_pos (not_not.1 may)

theorem admitSession_admits (may : Admissible a s) (free : ∀ k ≤ regionTiles a.nMax.val 0, regionFree s a.worker.val a.context.val a.region.toNat k = true) :
    admitSession a s = putSession a.session.val (admitRecord a s) (nodesMade a s).2 :=
  (admitSession_places may).trans (if_neg (by rw [free _ (regionTiles_le _ _)]; decide))

theorem admitted_record (inside : a.session.val < s.blend.cur.role.sessionLimit) (dram : InDram s (sessionAddr s a.session.val) 128) :
    memBytes (putSession a.session.val (admitRecord a s) (nodesMade a s).2) (sessionAddr s a.session.val)
      (sessionBytes a.session.val (admitRecord a s)).length = sessionBytes a.session.val (admitRecord a s) := by
  have kept := (nodesMade_only a s).session inside
  have here := sessionAddr_of_cur kept.cur a.session.val
  have own := putSession_own (s := (nodesMade a s).2) (i := a.session.val) (admitRecord a s) (by rw [here]; exact kept.hold.inDram dram)
  rwa [here] at own

theorem admitted_outside (plain : a.nspace = 0) {b : Nat} (out : b < sessionAddr s a.session.val ∨ sessionAddr s a.session.val + 128 ≤ b) :
    memByte (putSession a.session.val (admitRecord a s) (nodesMade a s).2) b = memByte s b := by
  rw [(nodesMade_plain plain).2]
  refine (tableWrite_writes s (sessionAddr s a.session.val) (sessionBytes a.session.val (admitRecord a s))).outside b (fun inside => ?_)
  obtain ⟨low, high⟩ := inside
  have len : (clean (sessionBytes a.session.val (admitRecord a s))).length = 76 := (List.length_map _).trans (sessionBytes_length _ _)
  rw [len] at high
  dsimp only at low high
  omega

end

end Sys2Proof.Machine
end
end

section
/-! SUPPORT. Step batches, bad nodes and step receipts (R256-R259, R267, R268, R405, R406), and the statement O50. -/
section
namespace Sys2Proof.Machine

/-! ### Step batches (R267, R268, R406) -/

theorem eraseDups_length_le : ∀ (n : Nat) (l : List Nat), l.length ≤ n → l.eraseDups.length ≤ l.length
  | 0, l, short => by rw [List.eq_nil_of_length_eq_zero (Nat.le_zero.1 short)]; rfl
  | _ + 1, [], _ => le_rfl
  | n + 1, a :: l, short => by
    have less := List.length_filter_le (fun b => !b == a) l
    have rest := eraseDups_length_le n (l.filter fun b => !b == a) (less.trans (Nat.le_of_succ_le_succ short))
    rw [List.eraseDups_cons, List.length_cons, List.length_cons]
    omega

theorem nodup_of_eraseDups : ∀ {l : List Nat}, l.eraseDups.length = l.length → l.Nodup
  | [], _ => List.nodup_nil
  | a :: l, same => by
    rw [List.eraseDups_cons, List.length_cons, List.length_cons] at same
    have less := List.length_filter_le (fun b => !b == a) l
    have rest := eraseDups_length_le _ (l.filter fun b => !b == a) le_rfl
    have all : l.filter (fun b => !b == a) = l := (List.filter_sublist (p := fun b => !b == a) (l := l)).eq_of_length (by omega)
    rw [all] at same
    refine List.nodup_cons.2 ⟨fun listed => ?_, nodup_of_eraseDups (Nat.succ.inj same)⟩
    rw [← all] at listed
    simpa using (List.mem_filter.1 listed).2

section
variable {s t : State} {i j k w q : Nat} {id : Dword} {l : List Nat}

/-- A session's record once it is in a step. -/
def steppedRecord (id : Dword) (x : Session) : Session := { x with state := if x.state = 1 then 1 else 3, lastStep := id.toNat }

/-- A session put in a step. -/
def stepSession (id : Dword) (i : Nat) (t : State) : State := putSession i (steppedRecord id (getSession t i)) t

theorem stepSession_other (other : i ≠ j) (t : State) : SessionKept i t (stepSession id j t) := putSession_other other _ t

theorem stepSession_cur (id : Dword) (j : Nat) (t : State) : (stepSession id j t).blend.cur = t.blend.cur := by
  rw [stepSession, putSession, tableWrite_cur]

theorem stepSession_own (dram : InDram s (sessionAddr s i) 128) (kept : SessionKept i s t) :
    memBytes (stepSession id i t) (sessionAddr s i) (sessionBytes i (steppedRecord id (getSession s i))).length =
      sessionBytes i (steppedRecord id (getSession s i)) := by
  have own := putSession_own (s := t) (i := i) (steppedRecord id (getSession t i)) (by rw [sessionAddr_of_cur kept.cur]; exact kept.hold.inDram dram)
  rwa [getSession_kept dram kept, sessionAddr_of_cur kept.cur, ← getSession_kept dram kept, ← stepSession, getSession_kept dram kept] at own

/-- Every session of a step has its record. -/
theorem sessionsStepped : ∀ (l : List Nat) (t : State), l.Nodup → (∀ i ∈ l, InDram s (sessionAddr s i) 128) → (∀ i ∈ l, SessionKept i s t) →
    ∀ i ∈ l, memBytes (forEach l (stepSession id) t) (sessionAddr s i) (sessionBytes i (steppedRecord id (getSession s i))).length =
      sessionBytes i (steppedRecord id (getSession s i))
  | [], _, _, _, _, _, listed => absurd listed List.not_mem_nil
  | j :: l, t, once, dram, kept, i, listed => by
    obtain ⟨out, rest⟩ := List.nodup_cons.1 once
    obtain rfl | later := List.mem_cons.1 listed
    · have here := kept i List.mem_cons_self
      have onward : SessionKept i (stepSession id i t) (forEach l (stepSession id) (stepSession id i t)) :=
        SessionKept.each (s := stepSession id i t) l (fun j listed u _ => stepSession_other (fun same => out (by rwa [same])) u) (stepSession id i t) rfl
      have cur : (stepSession id i t).blend.cur = s.blend.cur := (stepSession_cur id i t).trans here.cur
      have still := sessionBytes_kept onward (steppedRecord id (getSession s i))
      rw [sessionAddr_of_cur cur] at still
      have unrolled : forEach (i :: l) (stepSession id) t = forEach l (stepSession id) (stepSession id i t) := rfl
      rw [unrolled, still]
      exact stepSession_own (dram i List.mem_cons_self) here
    · refine sessionsStepped l _ rest (fun i later => dram i (List.mem_cons_of_mem _ later)) (fun i later => ?_) i later
      exact (kept i (List.mem_cons_of_mem _ later)).trans (stepSession_other (fun same => out (by rwa [← same])) t)

theorem sessionsStepped_courier {β : Type} {f : CourierState → β} (blind : SendBlind f) (l : List Nat) (t : State) :
    f (forEach l (stepSession id) t).courier = f t.courier :=
  forEach_keeps (f := fun u : State => f u.courier)
    (fun i u => tableWrite_courier blind (sessionAddr u i) (sessionBytes i (steppedRecord id (getSession u i))) u) l t

/-- One held step leaves. -/
def sendHeld (h : Nat × Nat × Nat × PData) (t : State) : State := sendPoint crStep h.2.1 h.1 (h.2.2.1 + t.courier.epoch * 2 ^ 32) h.2.2.2 none t

theorem forEach_concat {α β : Type} (m : α → β → β) (a : α) : ∀ (l : List α) (t : β), forEach (l ++ [a]) m t = m a (forEach l m t)
  | [], _ => rfl
  | b :: l, t => forEach_concat m a l (m b t)

theorem sendHeld_mirrored (h : Nat × Nat × Nat × PData) (t : State) : mirrored (sendHeld h t) = mirrored t := by
  have same : SameExcept [.courier] t (sendHeld h t) := sendPoint_reach _ _ _ _ _ _ _
  obtain ⟨e, store, -, -, -, -, -, -, msg⟩ := sendMsg_store (flowPoint h.1 h.2.1 false)
    { type := crStep, cls := h.2.1, src := 0, dst := h.1, seq := 0, tag := h.2.2.1 + t.courier.epoch * 2 ^ 32, payload := h.2.2.2, up := false } none [h.1] none t
  have groups : (sendHeld h t).courier.groups = t.courier.groups := sendPoint_courier (f := CourierState.groups) (fun _ _ _ _ _ _ => rfl) _ _ _ _ _ _ t
  have plain : (e.msg.type == crGather) = false := by
    rw [msg]
    rfl
  have stored : (sendHeld h t).courier.store = t.courier.store ++ [e] := store
  unfold mirrored
  rw [stored, groups, congrArg BlendState.cur (same.blend_eq rfl), List.any_append, List.any_cons, plain]
  simp

theorem sendHeld_held (h : Nat × Nat × Nat × PData) (t : State) : (sendHeld h t).courier.heldSteps = t.courier.heldSteps :=
  sendPoint_courier (f := CourierState.heldSteps) (fun _ _ _ _ _ _ => rfl) crStep h.2.1 h.1 (h.2.2.1 + t.courier.epoch * 2 ^ 32) h.2.2.2 none t

/-- What the last held step that leaves is in the retry store. -/
theorem sendHeld_last (h : Nat × Nat × Nat × PData) (t : State) : ∃ e, (sendHeld h t).courier.store.getLast? = some e ∧ e.msg.type = crStep ∧
    e.msg.dst = h.1 ∧ e.msg.cls = h.2.1 ∧ e.msg.payload = h.2.2.2 := by
  obtain ⟨e, store, -, -, -, -, -, -, msg⟩ := sendMsg_store (flowPoint h.1 h.2.1 false)
    { type := crStep, cls := h.2.1, src := 0, dst := h.1, seq := 0, tag := h.2.2.1 + t.courier.epoch * 2 ^ 32, payload := h.2.2.2, up := false } none [h.1] none t
  have stored : (sendHeld h t).courier.store = t.courier.store ++ [e] := store
  refine ⟨e, ?_, ?_, ?_, ?_, ?_⟩
  · rw [stored, List.getLast?_concat]
  all_goals rw [msg]

/-- Steps that are held leave together, once the standby has acknowledged what records them. -/
theorem sendSteps_sends {held : List (Nat × Nat × Nat × PData)} {h : Nat × Nat × Nat × PData} (last : t.courier.heldSteps = held ++ [h]) :
    (mirrored (sendSteps t) = true → (sendSteps t).courier.heldSteps = [] ∧ ∃ e, (sendSteps t).courier.store.getLast? = some e ∧ e.msg.type = crStep ∧
      e.msg.dst = h.1 ∧ e.msg.cls = h.2.1 ∧ e.msg.payload = h.2.2.2) ∧
    (mirrored (sendSteps t) = false → (sendSteps t).courier.heldSteps = held ++ [h]) := by
  have some_ : t.courier.heldSteps ≠ [] := by rw [last]; simp
  cases clear : mirrored t with
  | true =>
    have sent : sendSteps t = forEach (held ++ [h]) sendHeld { t with courier := { t.courier with heldSteps := [] } } := by
      unfold sendSteps
      rw [if_neg (by rw [clear]; simpa using some_), last]
      rfl
    have still : mirrored (sendSteps t) = true := by
      rw [sent, forEach_keeps (f := mirrored) sendHeld_mirrored]
      exact clear
    refine ⟨fun _ => ⟨?_, ?_⟩, fun not_ => absurd still (by rw [not_]; decide)⟩
    · rw [sent]
      exact forEach_keeps (f := fun u : State => u.courier.heldSteps) sendHeld_held (held ++ [h]) { t with courier := { t.courier with heldSteps := [] } }
    · rw [sent, forEach_concat]
      exact sendHeld_last h _
  | false =>
    have kept : sendSteps t = t := if_pos (.inr (by rw [clear]; rfl))
    rw [kept]
    exact ⟨fun yes => absurd (clear.symm.trans yes) (by decide), fun _ => last⟩

theorem sendSteps_mem (t : State) : SameExcept [.courier] t (sendSteps t) := sendSteps_reach t

/-- A step's table, kept with it. -/
def stepTabled (w : Nat) (id : Dword) (l : List Nat) (r : JoinRec) (s : State) : State :=
  { s with courier := { s.courier with tables := tabPut s.courier.tables id.toNat (w, stepTable s l l 0, chainList s r w l) } }

/-- A step that is held back. -/
def stepHeld (h : Nat × Nat × Nat × PData) (t : State) : State := { t with courier := { t.courier with heldSteps := t.courier.heldSteps ++ [h] } }

/-- The message of a step. -/
def stepPayload (id : Dword) (env enc : List Byte) : PData := clean (leBytes 8 id.toNat ++ padTo 64 env ++ enc)

/-- The class of a step: its first session's. -/
def stepClass (s : State) (l : List Nat) : Nat := (l.head?.map (fun i => (getSession s i).cls)).getD 1

theorem buildStep_builds {r : JoinRec} {env enc : List Byte} (joined : tabFind s.courier.joins w = some r) (manages : managing s = true)
    (clear : mirrored s = true) (room : storeRoom s = true) (present : w ∈ s.courier.present) (fits : l.length ≤ r.capacity) (some_ : l ≠ []) (named : id ≠ 0)
    (fresh : tabFind s.courier.tables id.toNat = none) (ready : ∀ i ∈ l, i < s.blend.cur.role.sessionLimit ∧ stepReady s w i = true)
    (once : l.eraseDups.length = l.length) (first_ : r.firstQueue ≤ q) (below : q < r.firstQueue + r.queueCount) :
    buildStep w q id l env enc s =
      sendSteps (stepHeld (w, stepClass s l, q, stepPayload id env enc) (forEach l (stepSession id) (stepTabled w id l r s))) := by
  have all : l.all (fun i => decide (i < s.blend.cur.role.sessionLimit) && stepReady s w i) = true :=
    List.all_eq_true.2 (fun i listed => by rw [decide_eq_true (ready i listed).1, (ready i listed).2]; rfl)
  have ok : (managing s && mirrored s && storeRoom s && s.courier.present.contains w && decide (l.length ≤ r.capacity) && l != [] && decide (id ≠ 0) &&
      (tabFind s.courier.tables id.toNat).isNone && l.all (fun i => decide (i < s.blend.cur.role.sessionLimit) && stepReady s w i) &&
      decide (l.eraseDups.length = l.length) && decide (r.firstQueue ≤ q) && decide (q < r.firstQueue + r.queueCount)) = true := by
    rw [manages, clear, room, List.contains_iff_mem.2 present, decide_eq_true fits, bne_iff_ne.2 some_, decide_eq_true named, fresh, all,
      decide_eq_true once, decide_eq_true first_, decide_eq_true below]
    rfl
  unfold buildStep
  rw [joined]
  refine (if_neg (fun no => ?_)).trans rfl
  rw [ok] at no
  exact Bool.false_ne_true no

theorem buildStep_leaves {r : JoinRec} {h : Nat × Nat × Nat × PData} (dram : ∀ i ∈ l, InDram s (sessionAddr s i) 128) (once : l.Nodup) {t : State}
    (does : t = sendSteps (stepHeld h (forEach l (stepSession id) (stepTabled w id l r s)))) :
    tabFind t.courier.tables id.toNat = some (w, stepTable s l l 0, chainList s r w l) ∧
    (mirrored t = true → t.courier.heldSteps = [] ∧ ∃ e, t.courier.store.getLast? = some e ∧ e.msg.type = crStep ∧ e.msg.dst = h.1 ∧ e.msg.cls = h.2.1 ∧
      e.msg.payload = h.2.2.2) ∧
    (mirrored t = false → t.courier.heldSteps = s.courier.heldSteps ++ [h]) ∧
    ∀ i ∈ l, memBytes t (sessionAddr s i) (sessionBytes i (steppedRecord id (getSession s i))).length = sessionBytes i (steppedRecord id (getSession s i)) := by
  have tables : (forEach l (stepSession id) (stepTabled w id l r s)).courier.tables = (stepTabled w id l r s).courier.tables :=
    sessionsStepped_courier (f := CourierState.tables) (fun _ _ _ _ _ _ => rfl) l _
  have heldNow : (forEach l (stepSession id) (stepTabled w id l r s)).courier.heldSteps = s.courier.heldSteps :=
    sessionsStepped_courier (f := CourierState.heldSteps) (fun _ _ _ _ _ _ => rfl) l _
  have tabled : ∀ i, SessionKept i s (stepTabled w id l r s) := fun i => ⟨.of_parts rfl rfl, fun _ _ => rfl, rfl⟩
  have records := sessionsStepped (s := s) (id := id) l (stepTabled w id l r s) once dram (fun i _ => tabled i)
  generalize forEach l (stepSession id) (stepTabled w id l r s) = u at does tables heldNow records
  obtain ⟨sends, waits⟩ := sendSteps_sends (t := stepHeld h u) (held := s.courier.heldSteps) (h := h) (by rw [stepHeld, heldNow])
  subst does
  refine ⟨?_, sends, waits, fun i listed => ?_⟩
  · rw [sendSteps_courier (f := CourierState.tables) (fun _ _ _ _ _ _ => rfl) (fun _ _ => rfl)]
    refine (congrArg (tabFind · id.toNat) tables).trans ?_
    exact tabFind_tabPut_same _ _ _
  · rw [memBytes_of_memByte (fun x => (sendSteps_mem (stepHeld h u)).memByte_eq rfl x)]
    have same : ∀ x, memByte (stepHeld h u) x = memByte u x := fun _ => rfl
    rw [memBytes_of_memByte same]
    exact records i listed

end

end Sys2Proof.Machine
end
end

section
/-! SUPPORT. Bad nodes and step receipts (R256-R259, R405), and the statement O50. -/
section
namespace Sys2Proof.Machine

/-! ### The lines that the caches hold -/

/-- The caches hold the same lines. -/
structure LinesKept (s t : State) : Prop where
  lines : ∀ d, (getCache t d).lines = (getCache s d).lines
  evb : ∀ d, (getCache t d).evb = (getCache s d).evb

section
variable {s t u : State} {a n : Nat} {d : PData}

theorem LinesKept.refl (s : State) : LinesKept s s := ⟨fun _ => rfl, fun _ => rfl⟩

theorem LinesKept.trans (h : LinesKept s t) (h' : LinesKept t u) : LinesKept s u :=
  ⟨fun d => (h'.lines d).trans (h.lines d), fun d => (h'.evb d).trans (h.evb d)⟩

theorem LinesKept.of_cache (cache : t.cache = s.cache) : LinesKept s t := ⟨fun d => by rw [getCache, getCache, cache], fun d => by rw [getCache, getCache, cache]⟩

theorem LinesKept.setCache {die : Nat} {c : DieCache} (lines : c.lines = (getCache s die).lines) (evb : c.evb = (getCache s die).evb) :
    LinesKept s (setCache s die c) := by
  refine ⟨fun d => ?_, fun d => ?_⟩ <;> by_cases same : d = die
  · subst same
    rw [getCache_setCache, lines]
  · rw [getCache_setCache_ne _ _ same]
  · subst same
    rw [getCache_setCache, evb]
  · rw [getCache_setCache_ne _ _ same]

theorem hbmPeek_kept {x : Nat} (h : LinesKept s t) (byte : memByte t x = memByte s x) : (hbmPeek t x).1 = (hbmPeek s x).1 := by
  unfold hbmPeek
  dsimp only
  rw [findEvb, findEvb, h.lines, h.evb]
  split
  · rfl
  · split
    · rfl
    · exact byte

theorem lineWrite_lines {x : Nat} (dram : LineInDram s (x / 256)) : LinesKept s (lineWrite s none x d []).2 := by
  obtain ⟨lines, evb⟩ := cancelFill_keeps (getCache s (dieOfStack (stackOf x))) (x / 256)
  obtain ⟨-, noLine, noEvb⟩ := dram
  rw [stackOf_line] at noLine noEvb
  have none_ : mergeHeld (cancelFill (getCache s (dieOfStack (stackOf x))) (x / 256)) x d = none :=
    mergeHeld_none (by rw [lines]; exact noLine) (by rw [findEvb, evb, ← findEvb]; exact noEvb)
  unfold lineWrite
  dsimp only
  rw [show cacheCheck (dieOfStack (stackOf x)) (x / 256) [] s = s from rfl, none_]
  have written : ∀ u : State, LinesKept u (dramWrite u x d []) := fun u =>
    .of_cache ((show (dramWrite u x d []).cache = (memWrite u x d).cache from rfl).trans ((memWrite_reach u x d).cache_eq rfl))
  exact LinesKept.trans (.setCache lines evb) (written _)

theorem cutPieces_start {m : Nat} {p : Nat × Nat} (listed : p ∈ cutPieces m a n) : a ≤ p.1 ∧ p.1 ≤ a + n - 1 := by
  unfold cutPieces at listed
  split at listed
  · exact absurd listed List.not_mem_nil
  obtain ⟨k, inside, rfl⟩ := List.mem_map.1 listed
  have last : k ≤ (a + n - 1) / m - a / m := Nat.le_of_lt_succ (List.mem_range.1 inside)
  have le : a / m ≤ (a + n - 1) / m := Nat.div_le_div_right (by omega)
  have below : (a / m + k) * m ≤ a + n - 1 := (Nat.mul_le_mul_right m (by omega)).trans (Nat.div_mul_le_self _ _)
  dsimp only
  omega

/-- Every line from one address to another is in the DRAM alone. -/
def LinesInDram (s : State) (lo hi : Nat) : Prop := ∀ x, lo ≤ x → x ≤ hi → LineInDram s (x / 256)

theorem SameHold.linesInDram {lo hi : Nat} (h : SameHold s t) (dram : LinesInDram s lo hi) : LinesInDram t lo hi :=
  fun x low high => (h.line _).2 (dram x low high)

/-- Pieces written one after another, each leaving the lines held as they are. -/
theorem LinesKept.each {lo hi : Nat} {f : Nat × Nat → State → State} : ∀ (ps : List (Nat × Nat)) (s : State), LinesInDram s lo hi →
    (∀ p ∈ ps, ∀ t, LinesInDram t lo hi → LinesKept t (f p t) ∧ SameHold t (f p t)) → LinesKept s (forEach ps f s)
  | [], s, _, _ => .refl s
  | p :: ps, s, dram, one => by
    obtain ⟨kept, hold⟩ := one p List.mem_cons_self s dram
    exact kept.trans (LinesKept.each ps (f p s) (hold.linesInDram dram) (fun q later => one q (List.mem_cons_of_mem _ later)))

theorem countAccess_lines (die : Nat) (hit : Bool) (s : State) : LinesKept s (countAccess die hit s) := by
  unfold countAccess
  dsimp only
  split <;> exact .setCache rfl rfl

theorem accessWrite_lines (dram : LinesInDram s a (a + d.length - 1)) : LinesKept s (accessWrite s none a d []) := by
  unfold accessWrite
  split
  · exact .of_cache ((offlineAccess_reach a s).cache_eq rfl)
  · dsimp only
    rw [linesWriteGo_eq]
    refine (LinesKept.each (linePieces a d.length) s dram (fun p listed t there => ?_)).trans (countAccess_lines _ _ _)
    obtain ⟨low, high⟩ := cutPieces_start (m := 256) listed
    obtain ⟨low', high', line⟩ := cutPieces_inside (m := 256) (by decide) listed
    have len : (sliceAt d (p.1 - a) p.2).length = p.2 := sliceAt_length (by omega)
    exact ⟨lineWrite_lines (there p.1 low high), (lineWrite_writes t (by rw [len]; exact line)).hold⟩

theorem hbmWrite_lines (dram : LinesInDram s a (a + d.length - 1)) : LinesKept s (hbmWrite s none a d []) := by
  refine LinesKept.each (unitPieces a d.length) s dram (fun p listed t there => ?_)
  obtain ⟨low, high⟩ := cutPieces_start (m := 2048) listed
  obtain ⟨low', high', unit⟩ := cutPieces_inside (m := 2048) (by decide) listed
  have len : (sliceAt d (p.1 - a) p.2).length = p.2 := sliceAt_length (by omega)
  refine ⟨accessWrite_lines (fun x from' till => there x (by omega) ?_), (accessWrite_writes t (by rw [len]; exact unit)).hold⟩
  rw [len] at till
  omega

theorem tableWrite_lines {b : List Byte} (some_ : 0 < b.length) (dram : InDram s a b.length) : LinesKept s (tableWrite a b s) := by
  have len : (clean b).length = b.length := List.length_map _
  have captured : SameExcept [.courier] (hbmWrite s none a (clean b) []) (tableWrite a b s) := captureWrite_reach _ _ _
  refine LinesKept.trans (hbmWrite_lines (fun x low high => dram.line low ?_)) (.of_cache (captured.cache_eq rfl))
  rw [len] at high
  omega

end

/-! ### Bad nodes (R259) -/

section
variable {s t u : State} {i j k : Nat} {l : List Nat}

/-- A node's record kept. -/
def NodeKept (k : Nat) (s t : State) : Prop := BytesKept (fun x => nodeAddr s k ≤ x ∧ x < nodeAddr s k + 64) s t

theorem NodeKept.trans (h : NodeKept k s t) (h' : NodeKept k t u) : NodeKept k s u :=
  BytesKept.trans h (BytesKept.weaken h' (fun x there => by rwa [nodeAddr_of_cur h.cur]))

theorem getNode_kept (dram : InDram s (nodeAddr s k) 64) (kept : NodeKept k s t) : getNode t k = getNode s k := by
  rw [getNode, getNode, nodeAddr_of_cur kept.cur, peekBytes_kept dram kept]

/-- A node written as BAD. -/
def markBad (k : Nat) (s : State) : State := putNode k { getNode s k with state := 3 } s

theorem markBad_other (other : k ≠ j) (s : State) : NodeKept k s (markBad j s) :=
  tableWrite_keeps (fun x there => by
    rw [nodeBytes_length]
    unfold nodeAddr at *
    omega) s

theorem markBad_cur (k : Nat) (s : State) : (markBad k s).blend.cur = s.blend.cur := by rw [markBad, putNode, tableWrite_cur]

theorem markBad_own (dram : InDram s (nodeAddr s k) 64) (kept : NodeKept k s t) :
    memBytes (markBad k t) (nodeAddr s k) 64 = nodeBytes { getNode s k with state := 3 } := by
  have own := (tableWrite_writes t (nodeAddr t k) (nodeBytes { getNode t k with state := 3 })).bytes
  rw [nodeBytes_length, nodeAddr_of_cur kept.cur, getNode_kept dram kept] at own
  rw [markBad, putNode, nodeAddr_of_cur kept.cur, getNode_kept dram kept]
  exact own (kept.hold.inDram dram)

theorem nodesBad : ∀ (l : List Nat) (t : State), l.Nodup → (∀ k ∈ l, InDram s (nodeAddr s k) 64) → (∀ k ∈ l, NodeKept k s t) →
    ∀ k ∈ l, memBytes (forEach l markBad t) (nodeAddr s k) 64 = nodeBytes { getNode s k with state := 3 }
  | [], _, _, _, _, _, listed => absurd listed List.not_mem_nil
  | j :: l, t, once, dram, kept, k, listed => by
    obtain ⟨out, rest⟩ := List.nodup_cons.1 once
    obtain rfl | later := List.mem_cons.1 listed
    · have here := kept k List.mem_cons_self
      have still : ∀ (l : List Nat) (u : State), k ∉ l → NodeKept k u (forEach l markBad u) := by
        intro l
        induction l with
        | nil => exact fun u _ => BytesKept.refl _ u
        | cons j l ih =>
          intro u out
          obtain ⟨other, out⟩ := not_or.1 (fun listed => out (List.mem_cons.2 listed))
          exact (markBad_other other u).trans (ih (markBad j u) out)
      have unrolled : forEach (k :: l) markBad t = forEach l markBad (markBad k t) := rfl
      have onward := still l (markBad k t) out
      have bytes := memBytes_kept onward
      rw [nodeAddr_of_cur (markBad_cur k t), nodeAddr_of_cur here.cur] at bytes
      rw [unrolled, bytes]
      exact markBad_own (dram k List.mem_cons_self) here
    · refine nodesBad l _ rest (fun i later => dram i (List.mem_cons_of_mem _ later)) (fun i later => ?_) k later
      exact (kept i (List.mem_cons_of_mem _ later)).trans (markBad_other (fun same => out (by rwa [← same])) t)

/-- The sessions' records stand as they did, wherever they are held. -/
def SessionsStand (s t : State) : Prop := LinesKept s t ∧ NodesOnly s t

theorem SessionsStand.getSession (h : SessionsStand s t) (inside : i < s.blend.cur.role.sessionLimit) : getSession t i = getSession s i := by
  obtain ⟨lines, only⟩ := h
  rw [Machine.getSession, Machine.getSession, sessionAddr_of_cur only.cur]
  congr 1
  refine List.map_congr_left (fun j listed => hbmPeek_kept lines (only.bytes _ ?_))
  have below := List.mem_range.1 listed
  unfold sessionAddr nodeAddr
  omega

theorem SessionsStand.markBad (h : SessionsStand s t) (dram : InDram s (nodeAddr s k) 64) : SessionsStand s (markBad k t) := by
  obtain ⟨lines, only⟩ := h
  have there : InDram t (nodeAddr t k) 64 := by
    rw [nodeAddr_of_cur only.cur]
    exact only.hold.inDram dram
  have len := nodeBytes_length { getNode t k with state := 3 }
  exact ⟨lines.trans (tableWrite_lines (by rw [len]; decide) (by rw [len]; exact there)), only.trans (putNode_only _ _ _)⟩

theorem setBad_quiet (quiet : ∀ i ∈ sessionIxs s, (getSession s i).state ≠ 1) (stand : SessionsStand s t) (dram : InDram s (nodeAddr s k) 64) :
    setBad k t = markBad k t := by
  have now := stand.markBad dram
  have none_ : (sessionIxs (markBad k t)).filter (fun i => (getSession (markBad k t) i).state == 1) = [] := by
    rw [sessionIxs_of_cur now.2.cur]
    refine List.filter_eq_nil_iff.2 (fun i listed => ?_)
    rw [now.getSession (List.mem_range.1 listed)]
    simpa using quiet i listed
  unfold setBad
  change forEach ((sessionIxs (markBad k t)).filter (fun i => (getSession (markBad k t) i).state == 1)) repairChain (markBad k t) = markBad k t
  rw [none_]
  rfl

theorem forEach_nil {α β : Type} (m : α → β → β) (t : β) : forEach [] m t = t := rfl
theorem forEach_cons {α β : Type} (m : α → β → β) (a : α) (l : List α) (t : β) : forEach (a :: l) m t = forEach l m (m a t) := rfl

theorem setBad_all (quiet : ∀ i ∈ sessionIxs s, (getSession s i).state ≠ 1) (l : List Nat) : ∀ t : State, SessionsStand s t →
    (∀ k ∈ l, InDram s (nodeAddr s k) 64) → forEach l setBad t = forEach l markBad t := by
  induction l with
  | nil =>
    intro t _ _
    rw [forEach_nil, forEach_nil]
  | cons k l ih =>
    intro t stand dram
    have now := stand.markBad (dram k List.mem_cons_self)
    rw [forEach_cons, forEach_cons, setBad_quiet quiet stand (dram k List.mem_cons_self)]
    exact ih (markBad k t) now (fun j later => dram j (List.mem_cons_of_mem _ later))

theorem nodesReported {home : Nat} {slot : Nat} (quiet : ∀ i ∈ sessionIxs s, (getSession s i).state ≠ 1) (dram : ∀ k ∈ nodeIxs s, InDram s (nodeAddr s k) 64) :
    ∀ k ∈ nodeIxs s, (getNode s k).state ≠ 0 → (getNode s k).home = home → (getNode s k).slot = slot →
      memBytes (forEach ((nodeIxs s).filter (fun k => let x := getNode s k; x.state != 0 && x.home == home && x.slot == slot)) setBad s) (nodeAddr s k) 64 =
        nodeBytes { getNode s k with state := 3 } := by
  intro k listed used at_ in_
  have there : ∀ j ∈ (nodeIxs s).filter (fun k => let x := getNode s k; x.state != 0 && x.home == home && x.slot == slot), InDram s (nodeAddr s j) 64 :=
    fun j chosen => dram j (List.mem_filter.1 chosen).1
  rw [setBad_all quiet _ s ⟨.refl s, .refl s⟩ there]
  refine nodesBad _ s (List.nodup_range.filter _) there (fun j _ => BytesKept.refl _ s) k (List.mem_filter.2 ⟨listed, ?_⟩)
  simp [used, at_, in_]

end

end Sys2Proof.Machine
end
end

section
/-! SUPPORT. Receipts of steps (R258, R268, R405), and the statement O50. -/
section
namespace Sys2Proof.Machine

/-! ### What the manager's records leave of the ring -/

section
variable {β : Type} {f : CourierState → β}

/-- A field of the ring's state is the same. -/
def RingKept (f : CourierState → β) (s t : State) : Prop := f t.courier = f s.courier

theorem ringKept_steps (blind : SendBlind f) : NodeSteps (RingKept f) :=
  ⟨fun _ => rfl, fun h h' => h'.trans h, fun k x s => tableWrite_courier blind (nodeAddr s k) (nodeBytes x) s⟩

theorem RingKept.putSession (blind : SendBlind f) (i : Nat) (x : Session) (s : State) : RingKept f s (putSession i x s) :=
  tableWrite_courier blind (sessionAddr s i) (sessionBytes i x) s

theorem repairChain_courier (blind : SendBlind f) (i : Nat) (s : State) : RingKept f s (repairChain i s) := by
  have steps := ringKept_steps blind
  unfold repairChain
  dsimp only
  split
  · exact steps.refl s
  · refine steps.trans (steps.trans (steps.each (fun k t => steps.upd k _ t) _ s) (steps.insert _ _ _ _ _ _)) (RingKept.putSession blind _ _ _)

theorem setBad_courier (blind : SendBlind f) (k : Nat) (s : State) : RingKept f s (setBad k s) := by
  have steps := ringKept_steps blind
  exact steps.trans (steps.upd k _ s) (steps.each (repairChain_courier blind) _ _)

end

/-! ### A session that a step returns (R258, R268) -/

/-- What becomes of a node of a prompt that a step returns. -/
def nodeReturned (early : Option Nat) (k : Nat) (t : State) : State :=
  if early.isSome then setBad k t else if (getNode t k).state = 1 then updNode k (fun n => { n with state := 2 }) t else t

/-- The nodes that a session's prompt filled. -/
def filledNodes (s : State) (x : Session) : List Nat := if x.state = 1 then ownNodes s x else []

section
variable {s t : State} {i j : Nat} {r : StepResult} {rs : List StepResult} {early : Option Nat}

/-- Why a session ends that a step returns, 0 where it goes on. -/
def returnReason (early : Option Nat) (rs : List StepResult) (i : Nat) (x : Session) : Nat :=
  match early with
  | some e => e
  | none =>
    let e := match rs.find? (fun r => r.session.val == i) with | some r => r.ended.val | none => 0
    if e ≠ 0 then e else if x.nMax ≤ (if x.state = 1 then x.promptLen else x.length + 1) then 1 else 0

/-- The record of a session that a step returns, but for its state. -/
def returnRecord (early : Option Nat) (rs : List StepResult) (i : Nat) (x : Session) : Session :=
  { x with length := if early.isSome then x.length else if x.state = 1 then x.promptLen else x.length + 1,
           token := match rs.find? (fun r => r.session.val == i) with | some r => r.token.toNat | none => x.token,
           windowLo := match (rs.find? (fun r => r.session.val == i)).bind (·.windowLo) with | some l => l.toNat | none => x.windowLo,
           ended := returnReason early rs i x }

/-- What a session's record becomes, and its chain, once its nodes are done with. -/
def recordReturns (early : Option Nat) (rs : List StepResult) (i : Nat) (x : Session) (u : State) : State :=
  if returnReason early rs i x = 0 then putSession i { returnRecord early rs i x with state := 2 } u
  else putSession i { returnRecord early rs i x with state := 0 } (releaseChain x u)

theorem sessionReturns_eq (early : Option Nat) (rs : List StepResult) (i : Nat) (s : State) :
    sessionReturns early rs i s = recordReturns early rs i (getSession s i) (forEach (filledNodes s (getSession s i)) (nodeReturned early) s) := by
  unfold sessionReturns recordReturns filledNodes returnRecord returnReason
  generalize getSession s i = x
  rfl

/-- What holds of every write of a node holds of the nodes that a returned step leaves FREE or READY. -/
theorem NodeSteps.returned {R : State → State → Prop} (steps : NodeSteps R) (k : Nat) (t : State) : R t (nodeReturned none k t) := by
  unfold nodeReturned
  rw [if_neg (by decide)]
  split
  · exact steps.upd k _ t
  · exact steps.refl t

theorem nodeReturned_courier {β : Type} {f : CourierState → β} (blind : SendBlind f) (early : Option Nat) (k : Nat) (t : State) :
    RingKept f t (nodeReturned early k t) := by
  cases early with
  | none => exact (ringKept_steps blind).returned k t
  | some e => exact setBad_courier blind k t

theorem recordReturns_courier {β : Type} {f : CourierState → β} (blind : SendBlind f) (early : Option Nat) (rs : List StepResult) (i : Nat) (x : Session)
    (u : State) : RingKept f u (recordReturns early rs i x u) := by
  unfold recordReturns
  split
  · exact RingKept.putSession blind i _ u
  · exact (ringKept_steps blind).trans ((ringKept_steps blind).release x u) (RingKept.putSession blind i _ _)

theorem sessionReturns_courier {β : Type} {f : CourierState → β} (blind : SendBlind f) (early : Option Nat) (rs : List StepResult) (i : Nat) (s : State) :
    RingKept f s (sessionReturns early rs i s) := by
  have nodes := (ringKept_steps blind).each (nodeReturned_courier blind early) (filledNodes s (getSession s i)) s
  rw [sessionReturns_eq]
  exact (ringKept_steps blind).trans nodes (recordReturns_courier blind early rs i _ _)

theorem recordReturns_other (inside : i < s.blend.cur.role.sessionLimit) (other : i ≠ j) (early : Option Nat) (rs : List StepResult) (x : Session) :
    SessionKept i s (recordReturns early rs j x s) := by
  unfold recordReturns
  split
  · exact putSession_other other _ s
  · exact ((nodesOnly_steps.release x s).session inside).trans (putSession_other other _ _)

theorem sessionReturns_other (inside : i < s.blend.cur.role.sessionLimit) (other : i ≠ j) : SessionKept i s (sessionReturns none rs j s) := by
  have nodes : NodesOnly s (forEach (filledNodes s (getSession s j)) (nodeReturned none) s) := nodesOnly_steps.each nodesOnly_steps.returned _ s
  rw [sessionReturns_eq]
  exact (nodes.session inside).trans (recordReturns_other (by rwa [nodes.cur]) other none rs _)

theorem putSession_cur (i : Nat) (x : Session) (s : State) : (putSession i x s).blend.cur = s.blend.cur := by rw [putSession, tableWrite_cur]

theorem sessionReturns_cur (rs : List StepResult) (i : Nat) (s : State) : (sessionReturns none rs i s).blend.cur = s.blend.cur := by
  have nodes : NodesOnly s (forEach (filledNodes s (getSession s i)) (nodeReturned none) s) := nodesOnly_steps.each nodesOnly_steps.returned _ s
  rw [sessionReturns_eq, ← nodes.cur, recordReturns]
  split
  · exact putSession_cur _ _ _
  · exact (putSession_cur _ _ _).trans (nodesOnly_steps.release _ _).cur

/-- Why a decoding session ends, 0 where it goes on. -/
def endReason (r : StepResult) (x : Session) : Nat := if r.ended.val ≠ 0 then r.ended.val else if x.nMax ≤ x.length + 1 then 1 else 0

/-- The record of a decoding session that a step returns. -/
def returnedRecord (r : StepResult) (x : Session) : Session :=
  { x with state := if endReason r x = 0 then 2 else 0, length := x.length + 1, token := r.token.toNat, ended := endReason r x,
           windowLo := (r.windowLo.map (·.toNat)).getD x.windowLo }

theorem returnReason_decodes {x : Session} (decodes : x.state = 3) (found : rs.find? (fun r => r.session.val == i) = some r) :
    returnReason none rs i x = endReason r x := by
  unfold returnReason endReason
  rw [found, if_neg (show ¬x.state = 1 by omega)]

theorem returnRecord_decodes {x : Session} (decodes : x.state = 3) (found : rs.find? (fun r => r.session.val == i) = some r) :
    { returnRecord none rs i x with state := if endReason r x = 0 then 2 else 0 } = returnedRecord r x := by
  unfold returnRecord returnedRecord
  rw [returnReason_decodes decodes found, found, if_neg (show ¬x.state = 1 by omega)]
  obtain ⟨session, token, window, ended⟩ := r
  cases window <;> rfl

theorem recordReturns_decodes {x : Session} (decodes : x.state = 3) (found : rs.find? (fun r => r.session.val == i) = some r) (u : State) :
    recordReturns none rs i x u = putSession i (returnedRecord r x) (if endReason r x = 0 then u else releaseChain x u) := by
  rw [recordReturns, returnReason_decodes decodes found, ← returnRecord_decodes decodes found]
  split <;> rfl

theorem sessionReturns_decodes (decodes : (getSession s i).state = 3) (found : rs.find? (fun r => r.session.val == i) = some r) :
    sessionReturns none rs i s = putSession i (returnedRecord r (getSession s i))
      (if endReason r (getSession s i) = 0 then s else releaseChain (getSession s i) s) := by
  have no_nodes : filledNodes s (getSession s i) = [] := if_neg (by omega)
  rw [sessionReturns_eq, no_nodes, forEach_nil, recordReturns_decodes decodes found]

theorem sessionReturns_own (inside : i < s.blend.cur.role.sessionLimit) (dram : InDram s (sessionAddr s i) 128) (kept : SessionKept i s t)
    (decodes : (getSession s i).state = 3) (found : rs.find? (fun r => r.session.val == i) = some r) :
    memBytes (sessionReturns none rs i t) (sessionAddr s i) (sessionBytes i (returnedRecord r (getSession s i))).length =
      sessionBytes i (returnedRecord r (getSession s i)) := by
  have same := getSession_kept dram kept
  have released : NodesOnly t (if endReason r (getSession s i) = 0 then t else releaseChain (getSession s i) t) := by
    split
    · exact .refl t
    · exact nodesOnly_steps.release _ t
  have now := kept.trans (released.session (by rwa [kept.cur]))
  rw [sessionReturns_decodes (by rw [same]; exact decodes) found, same]
  generalize (if endReason r (getSession s i) = 0 then t else releaseChain (getSession s i) t) = u at now
  have own := putSession_own (s := u) (i := i) (returnedRecord r (getSession s i)) (by rw [sessionAddr_of_cur now.cur]; exact now.hold.inDram dram)
  rwa [sessionAddr_of_cur now.cur] at own

/-- Every session of a step that the step returns has its record. -/
theorem sessionsReturned : ∀ (l : List Nat) (t : State), l.Nodup → SessionKept i s t → i ∈ l → i < s.blend.cur.role.sessionLimit →
    InDram s (sessionAddr s i) 128 → (getSession s i).state = 3 → rs.find? (fun r => r.session.val == i) = some r →
    memBytes (forEach l (sessionReturns none rs) t) (sessionAddr s i) (sessionBytes i (returnedRecord r (getSession s i))).length =
      sessionBytes i (returnedRecord r (getSession s i))
  | [], _, _, _, listed, _, _, _, _ => absurd listed List.not_mem_nil
  | j :: l, t, once, kept, listed, inside, dram, decodes, found => by
    obtain ⟨out, rest⟩ := List.nodup_cons.1 once
    have within : i < t.blend.cur.role.sessionLimit := by rwa [kept.cur]
    rw [forEach_cons]
    by_cases same : i = j
    · subst same
      have own := sessionReturns_own inside dram kept decodes found
      have onward : SessionKept i (sessionReturns none rs i t) (forEach l (sessionReturns none rs) (sessionReturns none rs i t)) :=
        SessionKept.each l (fun j later u cur => sessionReturns_other (by rwa [cur, sessionReturns_cur, kept.cur]) (fun same => out (by rwa [same])))
          (sessionReturns none rs i t) rfl
      have still := sessionBytes_kept onward (returnedRecord r (getSession s i))
      rw [sessionAddr_of_cur (sessionReturns_cur rs i t), sessionAddr_of_cur kept.cur] at still
      rw [still]
      exact own
    · refine sessionsReturned l _ rest (kept.trans (sessionReturns_other within same)) ?_ inside dram decodes found
      exact (List.mem_cons.1 listed).resolve_left same

/-! ### Step receipts (R405) -/

/-- The sessions that a receipt of a step returns. -/
def sessionsOfStep (t : State) (id : Dword) : List Nat :=
  (sessionIxs t).filter (fun i => let x := getSession t i; x.lastStep == id.toNat && (x.state == 1 || x.state == 3))

/-- A step whose receipt has come: its table is kept no more. -/
def stepUntabled (id : Dword) (t : State) : State := { t with courier := { t.courier with tables := tabDel t.courier.tables id.toNat } }

/-- The state in which a step's receipt is taken. -/
def receiptTaken (h : CrHead) (id : Dword) (s : State) : State := stepUntabled id (ackMsg h (takenAt h (inPoint h) s))

theorem receiptTaken_same (h : CrHead) (id : Dword) (s : State) : SameExcept [.courier] s (receiptTaken h id s) := by
  have acked : SameExcept [.courier] (takenAt h (inPoint h) s) (ackMsg h (takenAt h (inPoint h) s)) := emit_reach _ _ _
  have taken : SameExcept [.courier] s (takenAt h (inPoint h) s) := sameExcept_courier s _
  exact (taken.trans acked).trans (sameExcept_courier _ _)

theorem stepReturned_returns {h : CrHead} {epoch : Nat} {id : Dword} {receipt : List Byte} (there : arrives s h = true) (next : flowGap s h (inPoint h) = 1)
    (manages : managing s = true) (late : s.courier.epoch ≤ epoch) (tabled : (tabFind s.courier.tables id.toNat).isSome = true) :
    stepReturned h epoch id receipt rs s =
      forEach (sessionsOfStep (receiptTaken h id s) id) (sessionReturns (earlyEnd receipt) rs) (receiptTaken h id s) := by
  have epoch_ : (ackMsg h (takenAt h (inPoint h) s)).courier.epoch = s.courier.epoch := ackMsg_courier (f := CourierState.epoch) (fun _ _ _ _ _ _ => rfl) h _
  have tables : (ackMsg h (takenAt h (inPoint h) s)).courier.tables = s.courier.tables := ackMsg_courier (f := CourierState.tables) (fun _ _ _ _ _ _ => rfl) h _
  have manages' : managing (ackMsg h (takenAt h (inPoint h) s)) = true := by
    have acked : SameExcept [.courier] (takenAt h (inPoint h) s) (ackMsg h (takenAt h (inPoint h) s)) := emit_reach _ _ _
    rw [managing, acked.blend_eq rfl, acked.pm_eq rfl, acked.mode_eq rfl]
    exact manages
  rw [stepReturned, inFlow_next _ _ there next]
  refine (if_neg ?_).trans rfl
  rw [epoch_, tables, manages']
  simp [Nat.not_lt.2 late, Option.isSome_iff_ne_none.1 tabled]

/-- What a step's receipt leaves in the tables. -/
theorem receiptTaken_tables (h : CrHead) (id : Dword) (s : State) (early : Option Nat) (rs : List StepResult) (l : List Nat) :
    tabFind (forEach l (sessionReturns early rs) (receiptTaken h id s)).courier.tables id.toNat = none := by
  have blind : SendBlind CourierState.tables := fun _ _ _ _ _ _ => rfl
  have kept : RingKept CourierState.tables (receiptTaken h id s) (forEach l (sessionReturns early rs) (receiptTaken h id s)) :=
    (ringKept_steps blind).each (sessionReturns_courier blind early rs) l _
  rw [kept]
  exact tabFind_tabDel_same _ _

/-- A decoding session of a step that its receipt returns. -/
theorem receiptTaken_session {h : CrHead} {id : Dword} (listed : i ∈ sessionIxs s) (dram : InDram s (sessionAddr s i) 128)
    (in_ : (getSession s i).lastStep = id.toNat) (decodes : (getSession s i).state = 3) (found : rs.find? (fun r => r.session.val == i) = some r) :
    memBytes (forEach (sessionsOfStep (receiptTaken h id s) id) (sessionReturns none rs) (receiptTaken h id s)) (sessionAddr s i)
      (sessionBytes i (returnedRecord r (getSession s i))).length = sessionBytes i (returnedRecord r (getSession s i)) := by
  have kept : SessionKept i s (receiptTaken h id s) := .of_same (receiptTaken_same h id s) rfl rfl rfl rfl
  have same := getSession_kept dram kept
  refine sessionsReturned _ _ (List.nodup_range.filter _) kept (List.mem_filter.2 ⟨?_, ?_⟩) (List.mem_range.1 listed) dram decodes found
  · rwa [sessionIxs_of_cur kept.cur]
  · dsimp only
    rw [same, in_, decodes]
    simp

end

/-- Settles O50: what a record is written over is the session's or the node's own, so that each record stands as it was last written. -/
theorem sessionsFollowTheirSteps : Obligations.SessionsFollowTheirSteps := by
  unfold Obligations.SessionsFollowTheirSteps
  intro a w q id is env enc slot h epoch receipt rs s
  dsimp only
  refine ⟨?_, ?_, ?_, ?_, ?_⟩
  · intro manages inside empty some_ fits region clear dram
    have may : Admissible a s := by
      have long : a.prompt.length ≠ 0 := fun none_ => some_ (List.eq_nil_of_length_eq_zero none_)
      simp [Admissible, manages, clear, empty, long, Nat.not_le.2 inside, Nat.not_lt.2 fits]
    obtain ⟨atLeast, atMost⟩ := admitChain_length a s
    exact ⟨_, admitRecord a s, congrArg Host.Outcome.next (admitSession_admits may region), admitted_record inside dram, rfl, rfl, rfl, rfl, rfl, rfl, rfl, rfl,
      rfl, rfl, rfl, atLeast, atMost, rfl, rfl, fun plain =>
        ⟨(congrArg List.length (nodesMade_plain plain).1 : _), fun b out => admitted_outside plain out⟩⟩
  · exact fun plain taken => congrArg Host.Outcome.next (admitSession_refused plain taken)
  · intro j joined manages clear room present fits some_ named fresh ready once first_ below
    have built := buildStep_builds (env := env) (enc := enc) joined manages clear room present fits some_ named fresh
      (fun i listed => ⟨(ready i listed).1, (ready i listed).2.1⟩) once first_ below
    exact ⟨_, congrArg Host.Outcome.next built, buildStep_leaves (fun i listed => (ready i listed).2.2) (nodup_of_eraseDups once) rfl⟩
  · intro manages quiet dram
    exact ⟨_, congrArg Host.Outcome.next (if_pos manages), nodesReported quiet dram⟩
  · intro there next manages late tabled
    refine ⟨_, congrArg Host.Outcome.next (stepReturned_returns there next manages late tabled), receiptTaken_tables h id s _ rs _, ?_⟩
    intro i r listed dram in_ decodes early found
    rw [early]
    exact receiptTaken_session listed dram in_ decodes found

end Sys2Proof.Machine
end
end

section
/-! SUPPORT. What the ports of a core write (R54, R215), and what a piece leaves that lands (R196). -/
section
namespace Sys2Proof.Machine

/-! ### The bytes that a change may reach -/

/-- No byte changes but those of a set, and the structure in force stays. -/
structure WritesWithin (P : Nat → Prop) (s t : State) : Prop where
  cur : t.blend.cur = s.blend.cur
  bytes : ∀ a, ¬P a → memByte t a = memByte s a

section
variable {P Q : Nat → Prop} {s t u : State} {ps : List Part} {p port off : Nat}

theorem WritesWithin.refl (P : Nat → Prop) (s : State) : WritesWithin P s s := ⟨rfl, fun _ _ => rfl⟩

theorem WritesWithin.trans (h : WritesWithin P s t) (h' : WritesWithin P t u) : WritesWithin P s u :=
  ⟨h'.cur.trans h.cur, fun a out => (h'.bytes a out).trans (h.bytes a out)⟩

theorem WritesWithin.weaken (h : WritesWithin P s t) (more : ∀ a, P a → Q a) : WritesWithin Q s t :=
  ⟨h.cur, fun a out => h.bytes a (fun inside => out (more a inside))⟩

theorem WritesWithin.of_same (h : SameExcept ps s t) (mem : ps.contains .mem = false) (blend : ps.contains .blend = false) : WritesWithin P s t :=
  ⟨congrArg BlendState.cur (h.blend_eq blend), fun a _ => h.memByte_eq mem a⟩

theorem WritesWithin.each {α : Type} {f : α → State → State} : ∀ (l : List α) (s : State),
    (∀ b ∈ l, ∀ t, t.blend.cur = s.blend.cur → WritesWithin P t (f b t)) → WritesWithin P s (forEach l f s)
  | [], s, _ => .refl P s
  | b :: l, s, one => by
    have first := one b List.mem_cons_self s rfl
    rw [forEach_cons]
    exact first.trans (WritesWithin.each l (f b s) (fun c later t cur => one c (List.mem_cons_of_mem _ later) t (cur.trans first.cur)))

theorem logicalOf_of_cur (same : t.blend.cur = s.blend.cur) (p : Nat) : logicalOf t p = logicalOf s p := by rw [logicalOf, logicalOf, same]
theorem physOf_of_cur (same : t.blend.cur = s.blend.cur) (l : Nat) : physOf t l = physOf s l := by rw [physOf, physOf, same]
theorem feedingLinks_of_cur (same : t.blend.cur = s.blend.cur) (l port off n : Nat) : feedingLinks t l port off n = feedingLinks s l port off n := by
  rw [feedingLinks, feedingLinks, same]

theorem portHits_of_cur (same : t.blend.cur = s.blend.cur) {n a : Nat} : PortHits t p port off n a ↔ PortHits s p port off n a := by
  unfold PortHits
  rw [logicalOf_of_cur same]
  simp only [feedingLinks_of_cur same, physOf_of_cur same]

theorem memRead_length (s : State) : ∀ n a, (memRead s a n).length = n
  | 0, _ => rfl
  | n + 1, a => congrArg (· + 1) (memRead_length s n (a + 1))

theorem sendScr_within {q at_ n : Nat} {d : PData} (len : d.length = n) (s : State) :
    WritesWithin (fun a => scratchKey q at_ ≤ a ∧ a < scratchKey q at_ + n) s (sendScr q at_ d s) := by
  unfold sendScr
  split
  · exact .refl _ s
  · have woken : WritesWithin (fun a => scratchKey q at_ ≤ a ∧ a < scratchKey q at_ + n) s (wakeIsl (islOfCore q) s) :=
      .of_same (wakeIsl_reach _ s) rfl rfl
    refine woken.trans ⟨congrArg BlendState.cur ((scrWrite_reach _ q at_ d).blend_eq rfl), fun a out => memByte_memWrite_of_outside ?_⟩
    rw [len]
    omega

/-- A port's write reaches the bytes that it hits, and no others. -/
theorem portWrite_within (d : PData) (s : State) : WritesWithin (PortHits s p port off d.length) s (portWrite p port off d s) := by
  have own : WritesWithin (PortHits s p port off d.length) s (scrWrite s p off d) := by
    refine ⟨congrArg BlendState.cur ((scrWrite_reach s p off d).blend_eq rfl), fun a out => memByte_memWrite_of_outside ?_⟩
    have := not_and_or.1 (fun inside => out (.inl inside))
    omega
  unfold portWrite
  dsimp only
  split
  · exact own
  next l at_ =>
    refine own.trans (WritesWithin.each _ _ (fun e listed t _ => ?_))
    split
    · exact .refl _ t
    next q there =>
      exact (sendScr_within (memRead_length _ _ _) t).weaken (fun a inside => .inr ⟨l, e, q, at_, listed, there, inside⟩)

/-- The same in a state that has the structure of an earlier one. -/
theorem portWrite_hits (same : t.blend.cur = s.blend.cur) {n : Nat} {d : PData} (len : d.length = n) :
    WritesWithin (PortHits s p port off n) t (portWrite p port off d t) := by
  subst len
  exact (portWrite_within d t).weaken (fun a hit => (portHits_of_cur same).1 hit)

/-- A port that feeds no link writes its own scratchpad and nothing else. -/
theorem portWrite_plain (plain : ∀ e ∈ s.blend.cur.links, e.2.producer.port ≠ port) (d : PData) :
    portWrite p port off d s = scrWrite s p off d := by
  unfold portWrite
  dsimp only
  split
  · rfl
  next l _ =>
    have none_ : feedingLinks s l port off d.length = [] :=
      List.filter_eq_nil_iff.2 (fun e listed => by simp [plain e listed])
    rw [none_, forEach_nil]

end

/-! ### A piece that lands -/

section
variable {s : State} {x p : Nat} {v : Xfer} {q : Piece}

/-- Where a piece that lands puts its data. -/
def landData (x : Nat) (v : Xfer) (q : Piece) (d : PData) (s : State) : State :=
  if v.kind = .write then countPoison v q.daddr d s
  else if v.buffered then setXfer s x { v with payload := v.payload.take q.near ++ d ++ v.payload.drop (q.near + d.length) }
  else match physOf s v.engine with
    | some ph => portWrite ph 0 q.near d s
    | none => s

/-- The transfer of a piece, once that piece's data stand. -/
def landedXfer (v : Xfer) (q : Piece) (d : PData) : Xfer :=
  if v.kind ≠ .write ∧ v.buffered = true then { v with payload := v.payload.take q.near ++ d ++ v.payload.drop (q.near + d.length) } else v

theorem landData_piece (d : PData) (stands : getPiece s x p = some (v, q)) :
    getPiece (landData x v q d s) x p = some (landedXfer v q d, q) := by
  unfold landData landedXfer
  by_cases writes : v.kind = .write
  · rw [if_pos writes, if_neg (fun h => h.1 writes)]
    exact (getPiece_of_xfer ((countPoison_reach v q.daddr d s).getXfer_eq rfl x)).trans stands
  rw [if_neg writes]
  by_cases buffered : v.buffered = true
  · rw [if_pos buffered, if_pos ⟨writes, buffered⟩]
    exact getPiece_setXfer stands rfl
  rw [if_neg buffered, if_neg (fun h => buffered h.2)]
  split
  · next ph _ => exact (getPiece_of_xfer ((portWrite_reach ph 0 q.near d s).getXfer_eq rfl x)).trans stands
  · exact stands

/-- What a piece leaves that lands. -/
def landedAs (x p : Nat) (v : Xfer) (q : Piece) (d : PData) (s : State) : State :=
  setXfer (updPiece (landData x v q d s) x p (fun q => { q with state := .landed })) x
    { landedXfer v q d with pieces := setNth (landedXfer v q d).pieces p { q with state := .landed }, lastLand := s.devTime }

theorem landPiece_eq (d : PData) (stands : getPiece s x p = some (v, q)) (under : pieceOver q = false) :
    landPiece x p d s = landedAs x p v q d s := by
  have there := landData_piece d stands
  have landed := getPiece_updPiece (fun q : Piece => { q with state := .landed }) there
  have now : (updPiece (landData x v q d s) x p (fun q => { q with state := .landed })).devTime = s.devTime := by
    have data : SameExcept [.isl, .mem, .poison, .xfers, .qs] s (landData x v q d s) := by
      unfold landData
      split
      · exact (countPoison_reach v q.daddr d s).weaken rfl
      split
      · exact (setXfer_reach s x _).weaken rfl
      split
      · exact (portWrite_reach _ _ _ _ _).weaken rfl
      · exact .refl _ s
    exact (data.trans ((updPiece_reach _ x p _).weaken rfl)).devTime_eq rfl
  unfold landPiece
  rw [stands]
  dsimp only
  rw [if_neg (by simp [under])]
  change (match getXfer (updPiece (landData x v q d s) x p (fun q => { q with state := .landed })) x with
    | some w => setXfer (updPiece (landData x v q d s) x p (fun q => { q with state := .landed })) x
        { w with lastLand := (updPiece (landData x v q d s) x p (fun q => { q with state := .landed })).devTime }
    | none => updPiece (landData x v q d s) x p (fun q => { q with state := .landed })) = landedAs x p v q d s
  rw [(getPiece_iff.1 landed).1, now]
  rfl

theorem landPiece_piece (d : PData) (stands : getPiece s x p = some (v, q)) (under : pieceOver q = false) :
    ∃ w r, getPiece (landPiece x p d s) x p = some (w, r) ∧ r.state = .landed ∧ w.lastLand = s.devTime ∧
      w.payload = (landedXfer v q d).payload := by
  rw [landPiece_eq d stands under]
  have landed := getPiece_updPiece (fun q : Piece => { q with state := .landed }) (landData_piece d stands)
  exact ⟨_, _, getPiece_setXfer landed rfl, rfl, rfl, rfl⟩

/-- What lands reaches no byte of memory but those that its core's port 0 hits. -/
theorem landPiece_within (d : PData) (s : State) (stands : getPiece s x p = some (v, q)) :
    WritesWithin (fun a => v.kind ≠ .write ∧ v.buffered = false ∧ ∃ ph, physOf s v.engine = some ph ∧ PortHits s ph 0 q.near d.length a) s
      (landPiece x p d s) := by
  by_cases under : pieceOver q = false
  · have data : WritesWithin (fun a => v.kind ≠ .write ∧ v.buffered = false ∧ ∃ ph, physOf s v.engine = some ph ∧ PortHits s ph 0 q.near d.length a) s
        (landData x v q d s) := by
      unfold landData
      split
      · exact .of_same (countPoison_reach v q.daddr d s) rfl rfl
      next reads =>
      split
      · exact .of_same (setXfer_reach s x _) rfl rfl
      next plain =>
      split
      next ph there => exact (portWrite_within d s).weaken (fun a hit => ⟨reads, by simpa using plain, ph, there, hit⟩)
      · exact .refl _ s
    rw [landPiece_eq d stands under, landedAs]
    exact data.trans ((WritesWithin.of_same (updPiece_reach _ x p _) rfl rfl).trans (.of_same (setXfer_reach _ x _) rfl rfl))
  · have unchanged : landPiece x p d s = s := by
      unfold landPiece
      rw [stands]
      exact if_pos (by simpa using under)
    rw [unchanged]
    exact .refl _ s

end

end Sys2Proof.Machine
end
end

section
/-! SUPPORT. Packets at their stops (R21, R22, R30, R339, R388), and the statement O32. -/
section
namespace Sys2Proof.Machine

/-! ### Marks (R21, R438) -/

section
variable {s : State} {a n g b : Nat}

theorem setHas_setIns {l : List Nat} : setHas (setIns l n) a = (decide (a = n) || setHas l a) := by
  rw [Bool.eq_iff_iff]
  simp [setHas, mem_setIns]

/-- Marks that a range leaves. -/
theorem memPoison_markAll : ∀ (l : List Nat) (s : State) (b : Nat), memPoison (forEach l (fun g t => setMemPoison t (g * 64) true) s) b =
    (decide (b / 64 ∈ l) || memPoison s b)
  | [], s, b => by simp [forEach_nil]
  | g :: l, s, b => by
    have one : memPoison (setMemPoison s (g * 64) true) b = (decide (b / 64 = g) || memPoison s b) := by
      unfold memPoison setMemPoison
      rw [if_pos rfl, setHas_setIns, Nat.mul_div_cancel _ (by decide)]
    rw [forEach_cons, memPoison_markAll l, one, Bool.eq_iff_iff]
    simp only [Bool.or_eq_true, decide_eq_true_eq, List.mem_cons]
    rw [← or_assoc]
    exact or_congr or_comm Iff.rfl

theorem mem_granulesOf (inside : a ≤ b ∧ b < a + n) : b / 64 ∈ granulesOf a n := by
  have first : a / 64 ≤ b / 64 := Nat.div_le_div_right inside.1
  have last : b / 64 ≤ (a + n - 1) / 64 := Nat.div_le_div_right (by omega)
  unfold granulesOf
  rw [if_neg (by omega)]
  exact List.mem_map.2 ⟨b / 64 - a / 64, List.mem_range.2 (by omega), Nat.sub_add_cancel first⟩

theorem poisonRange_marks (inside : a ≤ b ∧ b < a + n) : memPoison (poisonRange s a n) b = true := by
  unfold poisonRange
  rw [memPoison_markAll, decide_eq_true (mem_granulesOf inside), Bool.true_or]

end

/-! ### A flit's error (R21) -/

theorem logFlit_ne (e : FlitError) (s : State) : (logFlit e s).log ≠ s.log := logEvent_log_ne _ _ _ _

/-- A stretch of a list put through a function. -/
theorem getElem?_stretch {α : Type} (g : α → α) (d : List α) (lo n j : Nat) :
    (d.take lo ++ (sliceAt d lo n).map g ++ d.drop (lo + n))[j]? = (d[j]?).map (fun b => if lo ≤ j ∧ j < lo + n then g b else b) := by
  unfold sliceAt
  by_cases below : j < lo
  · grind
  by_cases inside : j < lo + n
  · grind
  have len : (d.take lo ++ ((d.drop lo).take n).map g).length = min (lo + n) d.length := by simp; omega
  by_cases short : d.length ≤ j
  · rw [List.getElem?_eq_none short, List.getElem?_eq_none (by rw [List.length_append, len, List.length_drop]; omega)]
    rfl
  · rw [List.getElem?_append_right (by omega), len, List.getElem?_drop, show lo + n + (j - min (lo + n) d.length) = j by omega]
    cases d[j]? with
    | none => rfl
    | some b => exact congrArg some (if_neg (fun h => inside h.2)).symm

theorem spoilFlit_marks (e : FlitError) (d : PData) (s : State) (j : Nat) :
    (spoilFlit (some e) d s).1[j]? = (d[j]?).map (fun b => (b.1, b.2 || decide (j / 256 = e.flit.val))) := by
  refine (getElem?_stretch (fun b : Byte × Bool => (b.1, true)) d (256 * e.flit.val) 256 j).trans ?_
  congr 1
  funext b
  by_cases there : j / 256 = e.flit.val
  · rw [if_pos (by omega), decide_eq_true there, Bool.or_true]
  · rw [if_neg (by omega), decide_eq_false there, Bool.or_false]

/-! ### Packets (R22) -/

section
variable {s : State} {i : Nat} {k : Packet} {e : Option FlitError} {v : Xfer} {q : Piece}

/-- The state in which a packet has left the network. -/
def netTook (i : Nat) (s : State) : State := { s with net := dropNth s.net i }

theorem netTook_same (i : Nat) (s : State) : SameExcept [.net] s (netTook i s) := sameExcept_net s _

theorem deliverQueued_waits (at_ : s.net[i]? = some k)
    (waits : packetBehind s.net i k = true ∨ packetStuck s k = true ∨ errorOnWay e k.src k.dst k.data = false) : deliverQueued i e s = s := by
  unfold deliverQueued
  rw [at_]
  refine if_pos ?_
  obtain h | h | h := waits
  · exact .inl h
  · exact .inr (.inl h)
  · exact .inr (.inr (by rw [h]; rfl))

theorem deliverQueued_arrives (at_ : s.net[i]? = some k) (first_ : packetBehind s.net i k = false) (room : packetStuck s k = false)
    (onWay : errorOnWay e k.src k.dst k.data = true) :
    deliverQueued i e s = packetArrives k (spoilFlit e k.data (netTook i s)).1 (spoilFlit e k.data (netTook i s)).2 := by
  unfold deliverQueued
  rw [at_]
  refine (if_neg ?_).trans rfl
  rw [first_, room, onWay]
  decide

theorem deliverQueued_clean (at_ : s.net[i]? = some k) (first_ : packetBehind s.net i k = false) (room : packetStuck s k = false) :
    deliverQueued i none s = packetArrives k k.data (netTook i s) := deliverQueued_arrives at_ first_ room rfl

theorem packetArrives_request (request : k.kind = .request) (stands : getPiece s k.xfer k.piece = some (v, q)) (d : PData) :
    packetArrives k d s = match k.dst with
      | .stack n => stackPiece n k v q d s
      | .core p => scratchAccess p k v q d s
      | .gkPort _ => hostPiece k v q d s
      | .courierPort _ => peerPiece k v q d s
      | .grinder _ => s := by
  unfold packetArrives
  rw [request, stands] <;> rfl

theorem packetArrives_reply (reply : k.kind = .reply) (d : PData) : packetArrives k d s = replyArrives k d s := by
  unfold packetArrives
  rw [reply]

/-! ### What a packet is for -/

/-- The accesses that wait at a stack for a piece that has arrived there (R287). -/
def arrivedPieces (k : Packet) (v : Xfer) (q : Piece) (s : State) (d : PData) : List Arrived :=
  (unitPieces q.daddr q.len).map (fun x => (
    { xfer := k.xfer, piece := k.piece, kind := v.kind, addr := x.1, len := x.2, data := sliceAt d (x.1 - q.daddr) x.2, region := v.region,
      cls := k.cls, since := s.devTime, passed := 0 } : Arrived))

theorem stackPiece_waits (n : Nat) (k : Packet) (v : Xfer) (q : Piece) (d : PData) (s : State) :
    stackPiece n k v q d s = updMc s n (fun m => { m with arrivals := m.arrivals ++ arrivedPieces k v q s d }) := rfl

theorem getMc_updMc (s : State) (n : Nat) (f : McState → McState) : getMc (updMc s n f) n = f (getMc s n) := tabGet_tabSet_same _ _ _ _

/-- A write of a piece of a scratchpad that is powered. -/
theorem scratchAccess_writes {p : Nat} {d : PData} (kind : v.kind = .write) (on : (getIsl s (islOfCore p)).power ≠ 0) :
    scratchAccess p k v q d s = landPiece k.xfer k.piece [] (memWrite (wakeIsl (islOfCore p) s) q.daddr d) := by
  unfold scratchAccess
  rw [if_neg on, kind]

theorem wakeIsl_power (n : Nat) (s : State) : (getIsl (wakeIsl n s) n).power = if (getIsl s n).power = 1 then 2 else (getIsl s n).power := by
  unfold wakeIsl updIsl
  rw [getIsl_setIsl]
  dsimp only
  by_cases gated : (getIsl s n).power = 1
  · rw [if_pos gated, if_pos gated]
  · rw [if_neg gated, if_neg gated]

theorem landPiece_writes {x p : Nat} (kind : v.kind = .write) (stands : getPiece s x p = some (v, q)) (under : pieceOver q = false) (d : PData) :
    SameExcept [.xfers, .qs] s (landPiece x p d s) := by
  rw [landPiece_eq d stands under, landedAs, landData, if_pos kind]
  exact (((countPoison_reach v q.daddr d s).weaken rfl).trans ((updPiece_reach _ _ _ _).weaken rfl)).trans ((setXfer_reach _ _ _).weaken rfl)

theorem packet_writesScratch {p : Nat} {d : PData} (kind : v.kind = .write) (on : (getIsl s (islOfCore p)).power ≠ 0)
    (stands : getPiece s k.xfer k.piece = some (v, q)) (under : pieceOver q = false) : ∃ t w r, scratchAccess p k v q d s = t ∧
      getPiece t k.xfer k.piece = some (w, r) ∧ r.state = .landed ∧ w.lastLand = s.devTime ∧
      (∀ j < d.length, memByte t (q.daddr + j) = (d.getD j (0, false)).1) ∧
      (∀ a, (a < q.daddr ∨ q.daddr + d.length ≤ a) → memByte t a = memByte s a) ∧ t.net = s.net ∧
      (getIsl t (islOfCore p)).power = (if (getIsl s (islOfCore p)).power = 1 then 2 else (getIsl s (islOfCore p)).power) := by
  have woken : SameExcept [.isl, .mem, .poison] s (memWrite (wakeIsl (islOfCore p) s) q.daddr d) :=
    ((wakeIsl_reach _ s).weaken rfl).trans ((memWrite_reach _ _ _).weaken rfl)
  have stands' := (getPiece_of_xfer (woken.getXfer_eq rfl k.xfer)).trans stands
  have landed := landPiece_writes kind stands' under []
  obtain ⟨w, r, there, state, last, -⟩ := landPiece_piece [] stands' under
  have bytes (a : Nat) : memByte (memWrite (wakeIsl (islOfCore p) s) q.daddr d) a =
      if q.daddr ≤ a ∧ a < q.daddr + d.length then (d.getD (a - q.daddr) (0, false)).1 else memByte s a := by
    rw [memByte_memWrite, (wakeIsl_reach (islOfCore p) s).memByte_eq rfl a]
  refine ⟨_, w, r, scratchAccess_writes kind on, there, state, last.trans (woken.devTime_eq rfl), fun j inside => ?_, fun a out => ?_, ?_, ?_⟩
  · rw [landed.memByte_eq rfl, bytes, if_pos (by omega), Nat.add_sub_cancel_left]
  · rw [landed.memByte_eq rfl, bytes, if_neg (by omega)]
  · exact (landed.net_eq rfl).trans (woken.net_eq rfl)
  · rw [landed.getIsl_eq rfl, (memWrite_reach _ _ _).getIsl_eq rfl, wakeIsl_power]

theorem memRead_same {ps : List Part} {t : State} (h : SameExcept ps s t) (mem : ps.contains .mem = false) (poison : ps.contains .poison = false) :
    ∀ n a, memRead t a n = memRead s a n
  | 0, _ => rfl
  | n + 1, a => by rw [memRead, memRead, h.memByte_eq mem, memPoison, memPoison, h.poison_eq poison, memRead_same h mem poison n]

/-- A reply toward an engine. -/
def replyFrom (s : State) (src : NetDest) (v : Xfer) (x p cls : Nat) (d : PData) : Packet where
  src := src
  dst := engineStop s v.engine
  cls := cls
  kind := .reply
  xfer := x
  piece := p
  data := d

theorem sendReply_sends {src : NetDest} {x p cls : Nat} {d : PData} (there : getXfer s x = some v) :
    sendReply src x p cls d s = { s with net := s.net ++ [replyFrom s src v x p cls d] } := by
  unfold sendReply
  rw [there]
  rfl

theorem packet_readsScratch {p : Nat} {d : PData} (kind : v.kind = .read) (on : (getIsl s (islOfCore p)).power ≠ 0)
    (stands : getPiece s k.xfer k.piece = some (v, q)) : SameExcept [.isl, .net] s (scratchAccess p k v q d s) ∧
      (scratchAccess p k v q d s).net = s.net ++ [replyFrom s (.core p) v k.xfer k.piece k.cls (memRead s q.daddr q.len)] := by
  have woken := wakeIsl_reach (islOfCore p) s
  have there : getXfer (wakeIsl (islOfCore p) s) k.xfer = some v := (woken.getXfer_eq rfl k.xfer).trans (getPiece_iff.1 stands).1
  have data := memRead_same woken rfl rfl q.len q.daddr
  have read : scratchAccess p k v q d s = sendReply (.core p) k.xfer k.piece k.cls (memRead s q.daddr q.len) (wakeIsl (islOfCore p) s) := by
    unfold scratchAccess
    rw [if_neg on, kind, ← data]
  rw [read, sendReply_sends there]
  exact ⟨(woken.weaken rfl).trans ((sameExcept_net _ _).weaken rfl), rfl⟩

theorem scratchAccess_gated {p : Nat} (off : (getIsl s (islOfCore p)).power = 0) (d : PData) : scratchAccess p k v q d s = s := if_pos off

/-- A core that a packet comes to wakes. -/
def wakeDest (dst : NetDest) (s : State) : State := match dst with | .core p => wakeIsl (islOfCore p) s | _ => s

theorem wakeDest_same (dst : NetDest) (s : State) : SameExcept [.isl] s (wakeDest dst s) := by
  unfold wakeDest
  split
  · exact wakeIsl_reach _ s
  · exact .refl _ s

/-- The data of a read land at their engine. -/
theorem data_lands {x n : Nat} {d : PData} {u : State} (woken : SameExcept [.isl] s u) (kind : v.kind = .read)
    (stands : getPiece s x n = some (v, q)) (under : pieceOver q = false) :
    ∃ w r, getPiece (landPiece x n d u) x n = some (w, r) ∧ r.state = .landed ∧ (landPiece x n d u).net = s.net ∧
      (v.buffered = true → w.payload = v.payload.take q.near ++ d ++ v.payload.drop (q.near + d.length) ∧
        ∀ a, memByte (landPiece x n d u) a = memByte s a) ∧
      (∀ ph, v.buffered = false → physOf s v.engine = some ph →
        ∀ a, ¬PortHits s ph 0 q.near d.length a → memByte (landPiece x n d u) a = memByte s a) := by
  have stands' := (getPiece_of_xfer (woken.getXfer_eq rfl x)).trans stands
  obtain ⟨w, r, there, state, -, payload⟩ := landPiece_piece d stands' under
  have within := landPiece_within d u stands'
  have cur : u.blend.cur = s.blend.cur := congrArg BlendState.cur (woken.blend_eq rfl)
  refine ⟨w, r, there, state, ((landPiece_reach _ _ _ _).net_eq rfl).trans (woken.net_eq rfl), fun buffered => ⟨?_, fun a => ?_⟩,
    fun ph plain engine a out => ?_⟩
  · rw [payload, landedXfer, if_pos ⟨by rw [kind]; decide, buffered⟩]
  · rw [within.bytes a (fun h => by rw [buffered] at h; exact absurd h.2.1 (by decide)), woken.memByte_eq rfl]
  · refine (within.bytes a (fun h => ?_)).trans (woken.memByte_eq rfl a)
    obtain ⟨-, -, ph', there', hit⟩ := h
    rw [physOf_of_cur cur, engine] at there'
    cases there'
    exact out ((portHits_of_cur cur).1 hit)

theorem replyArrives_lands (k : Packet) (d : PData) (s : State) : replyArrives k d s = landPiece k.xfer k.piece d (wakeDest k.dst s) := rfl

/-- What a posted write leaves that has been delivered, before its piece lands. -/
def posted (p : Nat) (w : HostWrite) (s : State) : State :=
  let t := setGk s p { getGk s p with seq := (getGk s p).seq + 1, unflushed := (getGk s p).unflushed ++ [{ w with seq := (getGk s p).seq }] }
  { t with host := { t.host with delivered := t.host.delivered ++ [(p, { w with seq := (getGk s p).seq })] } }

theorem posted_same (p : Nat) (w : HostWrite) (s : State) : SameExcept [.host] s (posted p w s) :=
  (setGk_reach s p _).trans (sameExcept_host _ _)

theorem deliverWrite_piece {p x n : Nat} {w : HostWrite} (for_ : w.for_ = .piece x n) :
    deliverWrite p w s = updInv (landPiece x n [] (posted p w s)) w.invocation (fun i => { i with poisoned := satAdd 0xFFFFFFFF i.poisoned w.marks }) := by
  cases w
  cases for_
  rfl

/-- A posted write of a piece (R339). -/
def pieceWrite (k : Packet) (v : Xfer) (q : Piece) (d : PData) : HostWrite where
  host := (q.daddr - hostBase) / 2 ^ 39
  addr := (q.daddr - hostBase) % 2 ^ 39
  bytes := d.map (·.1)
  marks := countMarked q.daddr d
  for_ := .piece k.xfer k.piece
  invocation := v.inv
  trans := q.trans.map (fun t => (v.engine, v.context, t.1, t.2))
  seq := 0

/-- A write of a host's memory leaves by its port as a posted write. -/
theorem packet_writesHost {p : Nat} {d : PData} (kind : v.kind = .write) (stands : getPiece s k.xfer k.piece = some (v, q)) (under : pieceOver q = false)
    (port : portFor s ((q.daddr - hostBase) / 2 ^ 39) ((q.daddr - hostBase) % 2 ^ 39) = some p) : ∃ w r,
      (hostPiece k v q d s).host.delivered = s.host.delivered ++ [(p, w)] ∧ w.host = (q.daddr - hostBase) / 2 ^ 39 ∧
      w.addr = (q.daddr - hostBase) % 2 ^ 39 ∧ w.bytes = d.map (·.1) ∧ getPiece (hostPiece k v q d s) k.xfer k.piece = some r ∧
      r.2.state = .landed := by
  have sent : hostPiece k v q d s = sendWrite (pieceWrite k v q d) s := by
    unfold hostPiece
    rw [kind]
    rfl
  have delivered : hostPiece k v q d s = updInv (landPiece k.xfer k.piece [] (posted p (pieceWrite k v q d) s)) v.inv
      (fun i => { i with poisoned := satAdd 0xFFFFFFFF i.poisoned (countMarked q.daddr d) }) := by
    rw [sent, sendWrite]
    change (match portFor s ((q.daddr - hostBase) / 2 ^ 39) ((q.daddr - hostBase) % 2 ^ 39) with
      | some p => deliverWrite p (pieceWrite k v q d) s | none => _) = _
    rw [port]
    exact deliverWrite_piece rfl
  have post := posted_same p (pieceWrite k v q d) s
  have stands' := (getPiece_of_xfer (post.getXfer_eq rfl k.xfer)).trans stands
  obtain ⟨w, r, there, state, -, -⟩ := landPiece_piece [] stands' under
  rw [delivered]
  refine ⟨{ pieceWrite k v q d with seq := (getGk s p).seq }, (w, r), ?_, rfl, rfl, rfl, ?_, state⟩
  · rw [(updInv_reach _ _ _).host_eq rfl, (landPiece_reach _ _ _ _).host_eq rfl]
    rfl
  · exact (getPiece_of_xfer ((updInv_reach _ _ _).getXfer_eq rfl k.xfer)).trans there

theorem getGk_updGk (s : State) (p : Nat) (f : GkPort → GkPort) : getGk (updGk s p f) p = f (getGk s p) := getGk_setGk _ _ _

/-- A read of a host's memory waits at its port for the host's data. -/
theorem packet_readsHost {p : Nat} {d : PData} (kind : v.kind = .read)
    (port : portFor s ((q.daddr - hostBase) / 2 ^ 39) ((q.daddr - hostBase) % 2 ^ 39) = some p) : ∃ r,
      (getGk (hostPiece k v q d s) p).reads = (getGk s p).reads ++ [r] ∧ r.xfer = k.xfer ∧ r.piece = k.piece ∧
      r.addr = (q.daddr - hostBase) % 2 ^ 39 ∧ r.len = q.len ∧ SameExcept [.host] s (hostPiece k v q d s) := by
  unfold hostPiece
  dsimp only
  rw [kind, port]
  dsimp only [Option.getD_some]
  exact ⟨_, congrArg GkPort.reads (getGk_updGk _ _ _), rfl, rfl, rfl, rfl, updGk_reach _ _ _⟩

/-- The type of the message by which a transfer's pieces leave (R385). -/
def peerType (kind : AccessKind) : Nat := match kind with | .read => crRead | .write => crWrite | .atomic => crAtomic

/-- A request for another module leaves by the ring. -/
theorem packet_leavesRing {d : PData} : ∃ e, (peerPiece k v q d s).courier.store = s.courier.store ++ [e] ∧ e.piece = some (k.xfer, k.piece) ∧
    e.msg.payload = d ∧ e.msg.cls = k.cls ∧ e.msg.type = peerType v.kind ∧
    SameExcept [.courier] s (peerPiece k v q d s) := by
  obtain ⟨e, store, -, -, -, piece, -, -, msg⟩ := sendMsg_store (flowPoint ((q.daddr - peerBase) / peerSlot) k.cls false)
    { type := peerType v.kind, cls := k.cls, src := 0, dst := (q.daddr - peerBase) / peerSlot, seq := 0,
      tag := (q.daddr - peerBase) % peerSlot + q.len * 2 ^ 48, payload := d, up := false } none [(q.daddr - peerBase) / peerSlot]
    (some (k.xfer, k.piece)) s
  refine ⟨e, store, piece, ?_, ?_, ?_, sendPoint_reach _ _ _ _ _ _ _⟩
  all_goals rw [msg]

end

end Sys2Proof.Machine
end
end

section
/-! SUPPORT. Hosts' data and circuits' errors (R21, R339), and the statement O32. -/
section
namespace Sys2Proof.Machine

section
variable {s : State} {x p : Nat} {v : Xfer} {q : Piece} {r : HostRead}

/-- The state in which a host's read is answered. -/
def hostAnswered (p j : Nat) (s : State) : State := setGk s p { getGk s p with reads := dropNth (getGk s p).reads j }

theorem deliverHostData_lands {j : Nat} {bytes : List Byte} (at_ : (getGk s p).reads[j]? = some r) (up : (getGk s p).link = .up)
    (there : getXfer s r.xfer = some v) : deliverHostData p j bytes none s =
      landPiece r.xfer r.piece (clean (padTo r.len bytes)) (wakeDest (engineStop s v.engine) (hostAnswered p j s)) := by
  unfold deliverHostData
  dsimp only
  rw [at_]
  dsimp only
  rw [there]
  dsimp only
  refine (if_neg ?_).trans rfl
  rw [up]
  simp [errorOnWay]

/-- The data of a host's read land as its port has sent them (R339). -/
theorem hostData_lands {j : Nat} {bytes : List Byte} (at_ : (getGk s p).reads[j]? = some r) (up : (getGk s p).link = .up)
    (there : getXfer s r.xfer = some v) (stands : getPiece s r.xfer r.piece = some (v, q)) (under : pieceOver q = false) (kind : v.kind = .read) :
    ∃ w r', getPiece (deliverHostData p j bytes none s) r.xfer r.piece = some (w, r') ∧ r'.state = .landed ∧
      (getGk (deliverHostData p j bytes none s) p).reads = dropNth (getGk s p).reads j ∧
      (v.buffered = true → w.payload = v.payload.take q.near ++ clean (padTo r.len bytes) ++ v.payload.drop (q.near + (padTo r.len bytes).length)) := by
  have answered : SameExcept [.host] s (hostAnswered p j s) := setGk_reach s p _
  have stands' := (getPiece_of_xfer (answered.getXfer_eq rfl r.xfer)).trans stands
  obtain ⟨w, r', there', state, -, buffered, -⟩ :=
    data_lands (d := clean (padTo r.len bytes)) (wakeDest_same (engineStop s v.engine) (hostAnswered p j s)) kind stands' under
  rw [deliverHostData_lands at_ up there]
  refine ⟨w, r', there', state, ?_, fun buf => ?_⟩
  · have kept : (landPiece r.xfer r.piece (clean (padTo r.len bytes)) (wakeDest (engineStop s v.engine) (hostAnswered p j s))).host =
        (hostAnswered p j s).host := ((landPiece_reach _ _ _ _).host_eq rfl).trans ((wakeDest_same _ _).host_eq rfl)
    rw [getGk, kept]
    exact congrArg GkPort.reads (getGk_setGk s p _)
  · have payload := (buffered buf).1
    rwa [clean_length] at payload

/-- A flit of a circuit that cannot be corrected (R21). -/
theorem circuitError_marks {die link g : Nat} {f : FlitError} {l : LinkDef} (def_ : linkDef s (die * 4096 + link) = some l)
    (toCore : l.consumer.grinder = false) (stop : (circuitStops s die l).contains (f.die.val, f.x.val, f.y.val) = true)
    (phys : physOf s (die * 80 + l.consumer.unit) = some p) : (circuitError die link g f s).log ≠ s.log ∧
      SameExcept [.log, .poison] s (circuitError die link g f s) ∧
      ∀ j < min 256 (l.ringKib * 1024 - g * 64), memPoison (circuitError die link g f s) (scratchKey p (l.ringOffset + g * 64) + j) = true := by
  have marks : circuitError die link g f s =
      logFlit f (poisonRange s (scratchKey p (l.ringOffset + g * 64)) (min 256 (l.ringKib * 1024 - g * 64))) := by
    unfold linkDef at def_
    unfold physOf at phys
    unfold circuitError
    rw [def_]
    dsimp only
    rw [if_neg (by rw [toCore, stop]; decide), phys]
  have poisoned := poisonRange_reach s (scratchKey p (l.ringOffset + g * 64)) (min 256 (l.ringKib * 1024 - g * 64))
  rw [marks]
  refine ⟨fun same => ?_, (poisoned.weaken rfl).trans ((logFlit_reach _ _).weaken rfl), fun j inside => ?_⟩
  · rw [← poisoned.log_eq rfl] at same
    exact logFlit_ne _ _ same
  · have kept : memPoison (logFlit f (poisonRange s (scratchKey p (l.ringOffset + g * 64)) (min 256 (l.ringKib * 1024 - g * 64))))
        (scratchKey p (l.ringOffset + g * 64) + j) = memPoison (poisonRange s (scratchKey p (l.ringOffset + g * 64))
        (min 256 (l.ringKib * 1024 - g * 64))) (scratchKey p (l.ringOffset + g * 64) + j) :=
      congrArg (setHas · _) ((logFlit_reach _ _).poison_eq rfl)
    rw [kept]
    exact poisonRange_marks ⟨Nat.le_add_right _ _, by omega⟩

end

theorem packetDeliver_runs {s t : State} {i : Nat} {e : Option FlitError} (does : deliverQueued i e s = t) :
    exec (.packetDeliver (.queued i) e) s = .next t := congrArg Host.Outcome.next does

/-- Settles O32: a packet that may arrive leaves the network, and what its kind, its stop and its piece ask for happens in that state. -/
theorem packetsDoWhatTheirStopDoes : Obligations.PacketsDoWhatTheirStopDoes := by
  unfold Obligations.PacketsDoWhatTheirStopDoes
  intro i s k at_
  dsimp only
  have took := netTook_same i s
  have piece {v : Xfer} {q : Piece} (stands : getPiece s k.xfer k.piece = some (v, q)) : getPiece (netTook i s) k.xfer k.piece = some (v, q) :=
    (getPiece_of_xfer (took.getXfer_eq rfl k.xfer)).trans stands
  refine ⟨fun e waits => packetDeliver_runs (deliverQueued_waits at_ waits), fun first_ room => ?_, ?_, ?_⟩
  · have clean_ := deliverQueued_clean at_ first_ room
    refine ⟨?_, ?_, ?_, ?_, ?_, ?_, ?_⟩
    · intro v q n request dst stands
      have arrives (u : State) (same : getXfer u k.xfer = getXfer s k.xfer) (d : PData) : packetArrives k d u = stackPiece n k v q d u := by
        rw [packetArrives_request request ((getPiece_of_xfer same).trans stands), dst]
      refine ⟨packetDeliver_runs (clean_.trans (arrives (netTook i s) rfl _)), fun f onWay => ?_⟩
      have spoiled := logFlit_reach f (netTook i s)
      refine ⟨_, (spoilFlit (some f) k.data (netTook i s)).1, packetDeliver_runs ((deliverQueued_arrives at_ first_ room onWay).trans
        (arrives _ (spoiled.getXfer_eq rfl k.xfer) _)), ?_, ?_, spoilFlit_marks f k.data _⟩
      · rw [stackPiece_waits, (updMc_reach _ _ _).log_eq rfl]
        exact logFlit_ne f (netTook i s)
      · rw [stackPiece_waits, getMc_updMc]
        rfl
    · intro v q p request dst stands kind under on
      obtain ⟨t, w, r, does, rest⟩ := packet_writesScratch (s := netTook i s) (d := k.data) kind on (piece stands) under
      refine ⟨t, w, r, packetDeliver_runs ?_, rest⟩
      rw [clean_, packetArrives_request request (piece stands), dst]
      exact does
    · intro v q p request dst stands kind on
      obtain ⟨same, net⟩ := packet_readsScratch (s := netTook i s) (d := k.data) kind on (piece stands)
      refine ⟨_, packetDeliver_runs ?_, ((took.weaken rfl).trans same : SameExcept [.isl, .net] s _), ?_⟩
      · rw [clean_, packetArrives_request request (piece stands), dst]
      · rw [net, memRead_same took rfl rfl]
        rfl
    · intro p request dst some_ off
      obtain ⟨⟨v, q⟩, stands⟩ := Option.isSome_iff_exists.1 some_
      refine packetDeliver_runs ?_
      rw [clean_, packetArrives_request request (piece stands), dst]
      exact scratchAccess_gated (s := netTook i s) off _
    · intro v q reply stands kind under
      obtain ⟨w, r, there, state, net, buffered, plain⟩ := data_lands (d := k.data) (wakeDest_same k.dst (netTook i s)) kind (piece stands) under
      refine ⟨_, w, r, packetDeliver_runs ?_, there, state, net, buffered, plain⟩
      rw [clean_, packetArrives_reply reply, replyArrives_lands]
    · intro v q g p request dst stands under port
      have does : deliverQueued i none s = hostPiece k v q k.data (netTook i s) := by
        rw [clean_, packetArrives_request request (piece stands), dst]
      refine ⟨fun kind => ?_, fun kind => ?_⟩
      · obtain ⟨w, r, rest⟩ := packet_writesHost (s := netTook i s) (d := k.data) kind (piece stands) under port
        exact ⟨_, w, r, packetDeliver_runs does, rest⟩
      · obtain ⟨r, reads, xfer, piece_, addr, len, same⟩ := packet_readsHost (s := netTook i s) (k := k) (q := q) (d := k.data) kind port
        exact ⟨_, r, packetDeliver_runs does, reads, xfer, piece_, addr, len, (took.weaken rfl).trans (same.weaken rfl)⟩
    · intro v q c request dst stands
      obtain ⟨e, store, forPiece, payload, cls, type, same⟩ := packet_leavesRing (s := netTook i s) (k := k) (v := v) (q := q) (d := k.data)
      refine ⟨_, e, packetDeliver_runs ?_, store, forPiece, payload, cls, type, (took.weaken rfl).trans (same.weaken rfl)⟩
      rw [clean_, packetArrives_request request (piece stands), dst]
  · intro p j bytes r v q waits up there stands under kind
    obtain ⟨w, r', rest⟩ := hostData_lands (bytes := bytes) waits up there stands under kind
    exact ⟨_, w, r', rfl, rest⟩
  · intro die link g f l p def_ toCore stop phys
    exact ⟨_, rfl, circuitError_marks def_ toCore stop phys⟩

end Sys2Proof.Machine
end
end

section
/-! SUPPORT. Accesses at a stack's stop (R288, R290, R294, R308): what a turn, a tag check and an access leave of the stop, and the statement O33. -/
section
namespace Sys2Proof.Machine

/-! ### What an access leaves of its stop -/

/-- A part of a stop's state that the counts of accesses do not change. -/
def StopBlind {β : Type} (f : McState → β) : Prop :=
  ∀ m r w c u, f { m with rdBytes := r, wrBytes := w, corrected := c, uncorrected := u } = f m

/-- Every stop keeps a part of its state. -/
def StopKept {β : Type} (f : McState → β) (s t : State) : Prop := ∀ k, f (getMc t k) = f (getMc s k)

section
variable {β : Type} {f : McState → β} {s t u : State} {ps : List Part}

theorem StopKept.refl (s : State) : StopKept f s s := fun _ => rfl
theorem StopKept.trans (h : StopKept f s t) (h' : StopKept f t u) : StopKept f s u := fun k => (h' k).trans (h k)

theorem StopKept.of_same (h : SameExcept ps s t) (mc : ps.contains .mc = false) : StopKept f s t := fun k => by rw [getMc, getMc, h.mc_eq mc]

theorem StopKept.updMc (s : State) (k : Nat) (m : McState → McState) (same : ∀ x, f (m x) = f x) : StopKept f s (updMc s k m) := fun j => by
  by_cases here : j = k
  · subst here
    rw [getMc_updMc, same]
  · rw [Machine.updMc, getMc_setMc_ne _ _ here]

theorem StopKept.each {α : Type} {m : α → State → State} (one : ∀ a t, StopKept f t (m a t)) : ∀ (l : List α) (s : State), StopKept f s (forEach l m s)
  | [], s => .refl s
  | a :: l, s => (one a s).trans (StopKept.each one l (m a s))

/-- What the check of a granule says. -/
def granuleSays (s : State) (g : Nat) (l : List WordError) : Nat × Bool × List Nat :=
  granuleCheck (memPoison s (g * 64)) (seenErrors (getMc s (stackOf (g * 64))) (pseudoOf (g * 64)) l)

/-- A granule as its check has delivered it. -/
def dramRewritten (s : State) (g : Nat) (l : List WordError) : State :=
  if (granuleSays s g l).2.2 = [] then s
  else memWrite s (g * 64) ((flipBits (memBytes s (g * 64) 64) (granuleSays s g l).2.2).map (fun b => (b, memPoison s (g * 64))))

theorem dramCheck_eq (s : State) (g : Nat) (l : List WordError) : dramCheck s g l =
    if (granuleSays s g l).2.1 then
      logEvent .hbmUncorrectable (islOfMc (stackOf (g * 64))) (leBytes 8 (g * 64))
        (setMemPoison (updMc (dramRewritten s g l) (stackOf (g * 64)) (fun m => { m with uncorrected := inc64 m.uncorrected 1 })) (g * 64) true)
    else updMc (dramRewritten s g l) (stackOf (g * 64)) (fun m => { m with corrected := inc64 m.corrected (granuleSays s g l).1 }) := rfl

variable (blind : StopBlind f)
include blind

theorem dramCheck_stop (s : State) (g : Nat) (l : List WordError) : StopKept f s (dramCheck s g l) := by
  have bad (u : State) : StopKept f u (logEvent .hbmUncorrectable (islOfMc (stackOf (g * 64))) (leBytes 8 (g * 64))
      (setMemPoison (updMc u (stackOf (g * 64)) (fun m => { m with uncorrected := inc64 m.uncorrected 1 })) (g * 64) true)) :=
    ((StopKept.updMc u _ (fun m => { m with uncorrected := inc64 m.uncorrected 1 }) (fun m => blind m _ _ _ _)).trans
      (.of_same (setMemPoison_reach _ _ _) rfl)).trans (.of_same (logEvent_reach _ _ _ _) rfl)
  have good (u : State) (n : Nat) : StopKept f u (updMc u (stackOf (g * 64)) (fun m => { m with corrected := inc64 m.corrected n })) :=
    .updMc u _ _ (fun m => blind m _ _ _ _)
  rw [dramCheck_eq]
  have first_ : StopKept f s (dramRewritten s g l) := by
    unfold dramRewritten
    split
    · exact .refl s
    · exact .of_same (memWrite_reach _ _ _) rfl
  split
  · exact first_.trans (bad _)
  · exact first_.trans (good _ _)

theorem dramChecks_stop (gs : List Nat) (errs : List HbmError) (s : State) : StopKept f s (dramChecks gs errs s) := by
  unfold dramChecks
  have one (e : HbmError) (t : State) : StopKept f t (dramCheck t e.granule e.words) := dramCheck_stop blind t e.granule e.words
  exact StopKept.each one _ s

theorem dramRead_stop (s : State) (a n : Nat) (errs : List HbmError) : StopKept f s (dramRead s a n errs).2 := by
  unfold dramRead
  exact (dramChecks_stop blind (granulesOf a n) errs s).trans
    (.updMc _ _ (fun m => { m with rdBytes := inc64 m.rdBytes n }) (fun m => blind m _ _ _ _))

theorem dramWrite_stop (s : State) (a : Nat) (d : PData) (errs : List HbmError) : StopKept f s (dramWrite s a d errs) := by
  have checked : StopKept f s (dramChecks (mergedGranules a d.length) errs s) := dramChecks_stop blind _ errs s
  have written : StopKept f s (memWrite (dramChecks (mergedGranules a d.length) errs s) a d) := checked.trans (.of_same (memWrite_reach _ _ _) rfl)
  unfold dramWrite
  exact written.trans (.updMc _ _ (fun m => { m with wrBytes := inc64 m.wrBytes d.length }) (fun m => blind m _ _ _ _))

theorem lineRead_stop (s : State) (region : Option Nat) (a n : Nat) (errs : List HbmError) : StopKept f s (lineRead s region a n errs).2 := by
  have checked : StopKept f s (cacheCheck (dieOfStack (stackOf a)) (a / 256) errs s) := .of_same (cacheCheck_reach _ _ _ _) rfl
  unfold lineRead
  dsimp only
  split
  · exact checked.trans (.of_same (setCache_reach _ _ _) rfl)
  split
  · exact checked
  · exact (checked.trans (dramRead_stop blind _ a n errs)).trans (.of_same (readAllocates_reach _ _ _ _ _ _) rfl)

theorem lineWrite_stop (s : State) (region : Option Nat) (a : Nat) (d : PData) (errs : List HbmError) : StopKept f s (lineWrite s region a d errs).2 := by
  have checked : StopKept f s (cacheCheck (dieOfStack (stackOf a)) (a / 256) errs s) := .of_same (cacheCheck_reach _ _ _ _) rfl
  have cached (c : DieCache) : StopKept f s (setCache (cacheCheck (dieOfStack (stackOf a)) (a / 256) errs s) (dieOfStack (stackOf a)) c) :=
    checked.trans (.of_same (setCache_reach _ _ _) rfl)
  unfold lineWrite
  dsimp only
  split
  · exact cached _
  split
  · exact (cached _).trans (dramWrite_stop blind _ a d errs)
  split
  · split
    · split
      · exact (cached _).trans (.of_same (setCache_reach _ _ _) rfl)
      · exact ((cached _).trans (.of_same (setCache_reach _ _ _) rfl)).trans (dramWrite_stop blind _ a d errs)
    · exact (cached _).trans (dramWrite_stop blind _ a d errs)
  · exact (cached _).trans (dramWrite_stop blind _ a d errs)

theorem linesReadGo_stop (region : Option Nat) (errs : List HbmError) : ∀ (l : List (Nat × Nat)) (s : State), StopKept f s (linesReadGo region errs l s).2
  | [], s => .refl s
  | (a, n) :: l, s => (lineRead_stop blind s region a n errs).trans (linesReadGo_stop region errs l _)

theorem linesWriteGo_stop (region : Option Nat) (errs : List HbmError) (at_ : Nat) (d : PData) : ∀ (l : List (Nat × Nat)) (s : State),
    StopKept f s (linesWriteGo region errs at_ d l s).2
  | [], s => .refl s
  | (a, n) :: l, s => (lineWrite_stop blind s region a (sliceAt d (a - at_) n) errs).trans (linesWriteGo_stop region errs at_ d l _)

theorem accessRead_stop (s : State) (region : Option Nat) (a n : Nat) (errs : List HbmError) : StopKept f s (accessRead s region a n errs).2 := by
  unfold accessRead
  split
  · exact .of_same (offlineAccess_reach _ _) rfl
  · exact (linesReadGo_stop blind region errs _ s).trans (.of_same (countAccess_reach _ _ _) rfl)

theorem accessWrite_stop (s : State) (region : Option Nat) (a : Nat) (d : PData) (errs : List HbmError) : StopKept f s (accessWrite s region a d errs) := by
  unfold accessWrite
  split
  · exact .of_same (offlineAccess_reach _ _) rfl
  · exact (linesWriteGo_stop blind region errs a d _ s).trans (.of_same (countAccess_reach _ _ _) rfl)

end

/-! ### A read without errors changes no byte -/

section
variable {s : State}

theorem lineRead_bytes (s : State) (region : Option Nat) (a n : Nat) : (lineRead s region a n []).2.mem = s.mem := by
  unfold lineRead
  dsimp only
  rw [show cacheCheck (dieOfStack (stackOf a)) (a / 256) [] s = s from rfl]
  split
  · rfl
  split
  · rfl
  · exact (readAllocates_reach _ _ _ _ _ _).mem_eq rfl

theorem linesReadGo_bytes (region : Option Nat) : ∀ (l : List (Nat × Nat)) (s : State), (linesReadGo region [] l s).2.mem = s.mem
  | [], _ => rfl
  | (a, n) :: l, s => (linesReadGo_bytes region l _).trans (lineRead_bytes s region a n)

theorem accessRead_bytes (s : State) (region : Option Nat) (a n : Nat) : (accessRead s region a n []).2.mem = s.mem := by
  unfold accessRead
  split
  · exact (offlineAccess_reach _ _).mem_eq rfl
  · exact ((countAccess_reach _ _ _).mem_eq rfl).trans (linesReadGo_bytes region _ s)

end

end Sys2Proof.Machine
end
end

section
/-! SUPPORT. What an access at a stack's stop does in its turn (R288, R290, R294, R308), and the statement O33. -/
section
namespace Sys2Proof.Machine

/-! ### The stop once an access has taken its turn (R288, R289) -/

/-- What tells one access at a stop from another. -/
def arrivalKey (e : Arrived) : Nat × Nat × Nat × Nat := (e.xfer, e.piece, e.addr, e.since)

/-- The accesses that wait at a stop. -/
def stopKeys (m : McState) : List (Nat × Nat × Nat × Nat) := m.arrivals.map arrivalKey

theorem stopKeys_blind : StopBlind stopKeys := fun _ _ _ _ _ => rfl
theorem stopParts_blind : StopBlind McState.parts := fun _ _ _ _ _ => rfl

theorem dropNth_map {α β : Type} (f : α → β) (l : List α) (n : Nat) : (dropNth l n).map f = dropNth (l.map f) n := by
  simp [dropNth, List.map_take, List.map_drop]

/-- The access after its turn, off the list of its stop. -/
def turnTaken (stack i : Nat) (r : Arrived) (w : Option Wheel) (s : State) : State := takeArrival stack i r (takeTurn stack r w s)

section
variable {s : State} {stack i : Nat} {r : Arrived} {w : Option Wheel}

theorem turnTaken_same (stack i : Nat) (r : Arrived) (w : Option Wheel) (s : State) : SameExcept [.cache, .mc] s (turnTaken stack i r w s) :=
  (takeTurn_reach stack r w s).trans ((takeArrival_reach stack i r _).weaken rfl)

theorem passOlder_mc (stack pc : Nat) (v : Rival) (w : Wheel) (s : State) : ∃ pass : Arrived → Arrived, (∀ e, arrivalKey (pass e) = arrivalKey e) ∧
    (passOlder stack pc v w s).mc =
      (updMc s stack (fun m => { m with wheels := tabSet wheelReset m.wheels pc w, arrivals := m.arrivals.map pass })).mc := by
  refine ⟨fun e => if e.cls = v.cls ∧ accessOn s pc e then { e with passed := if e.since < v.since then e.passed + 1 else e.passed } else e,
    fun e => ?_, ?_⟩
  · dsimp only
    split <;> rfl
  · unfold passOlder
    dsimp only
    split <;> rfl

theorem takeTurn_stop (stack : Nat) (r : Arrived) (w : Option Wheel) (s : State) :
    stopKeys (getMc (takeTurn stack r w s) stack) = stopKeys (getMc s stack) ∧ (getMc (takeTurn stack r w s) stack).parts = (getMc s stack).parts := by
  cases w with
  | none => exact ⟨rfl, rfl⟩
  | some w =>
    obtain ⟨pass, keys, mc⟩ := passOlder_mc stack (pseudoOf r.addr) (rivalOf r) w s
    have there : getMc (takeTurn stack r (some w) s) stack =
        { getMc s stack with wheels := tabSet wheelReset (getMc s stack).wheels (pseudoOf r.addr) w, arrivals := (getMc s stack).arrivals.map pass } := by
      rw [getMc, takeTurn, mc]
      exact getMc_updMc s stack _
    rw [there]
    refine ⟨?_, rfl⟩
    rw [stopKeys, List.map_map]
    exact List.map_congr_left (fun e _ => keys e)

theorem turnTaken_stop (stack i : Nat) (r : Arrived) (w : Option Wheel) (s : State) :
    stopKeys (getMc (turnTaken stack i r w s) stack) = (dropNth (getMc s stack).arrivals i).map arrivalKey ∧
      (getMc (turnTaken stack i r w s) stack).parts = (getMc s stack).parts := by
  obtain ⟨keys, parts⟩ := takeTurn_stop stack r w s
  rw [turnTaken, takeArrival, getMc_updMc]
  refine ⟨?_, parts⟩
  rw [stopKeys, dropNth_map, dropNth_map]
  exact congrArg (dropNth · i) keys

theorem passOlder_hold (stack pc : Nat) (v : Rival) (w : Wheel) (s : State) : SameHold s (passOlder stack pc v w s) := by
  have aged (l : List EvbEntry) (f : EvbEntry → EvbEntry) (line : ∀ e, (f e).line = e.line) (k : Nat) :
      (l.map f).find? (fun e => decide (e.line = k)) = none ↔ l.find? (fun e => decide (e.line = k)) = none := by
    simp only [List.find?_eq_none, List.mem_map, forall_exists_index, and_imp, forall_apply_eq_imp_iff₂, line]
  unfold passOlder
  dsimp only
  split
  · exact .updMc (f := fun m => { m with wheels := tabSet wheelReset m.wheels pc w, arrivals := _ }) (fun _ => rfl)
  · refine .trans ?_ (.setCache (fun _ => .rfl) (fun l => aged _ _ (fun e => ?_) l))
    · exact .updMc (f := fun m => { m with wheels := tabSet wheelReset m.wheels pc w, arrivals := _ }) (fun _ => rfl)
    · split <;> rfl

theorem turnTaken_hold (stack i : Nat) (r : Arrived) (w : Option Wheel) (s : State) : SameHold s (turnTaken stack i r w s) := by
  refine SameHold.trans (t := takeTurn stack r w s) ?_ ?_
  · cases w with
    | none => exact .refl s
    | some w => exact passOlder_hold _ _ _ _ s
  · exact .updMc (f := fun m => { m with arrivals := dropNth m.arrivals i, expressMax := _ }) (fun _ => rfl)

/-- A tag check that finds a sound copy of each tag. -/
theorem tagCheck_sound {tags : TagOutcome} (die : Nat) (sound : ∀ way set, tags ≠ .bothLost way set) (s : State) :
    (tagCheck die tags s).2 = false ∧ SameExcept [.log, .plan, .pm, .cache] s (tagCheck die tags s).1 := by
  cases tags with
  | clean => exact ⟨rfl, .refl _ s⟩
  | corrected => exact ⟨rfl, (setCache_reach s die _).weaken rfl⟩
  | oneCopyLost way => exact ⟨rfl, retireWay_reach _ _ _ _⟩
  | bothLost way set => exact absurd rfl (sound way set)

theorem tagCheck_lost {way : Fin 8} {set : Nat} {tags : TagOutcome} (lost : tags = .bothLost way set) (die : Nat) (on : s.mode ≠ .off)
    (sound : s.mode ≠ .faulted) : (tagCheck die tags s).2 = true ∧ (tagCheck die tags s).1.mode = .faulted ∧ (tagCheck die tags s).1.pm.fault = 3 := by
  subst lost
  generalize logged : logEvent .mscTagLost (islIx die 124) (leBytes 1 way.val ++ leBytes 4 set) s = t
  have mode : t.mode = s.mode := by
    rw [← logged]
    exact (logEvent_reach _ _ _ _).mode_eq rfl
  unfold tagCheck
  dsimp only
  rw [logged]
  have left := enterFaulted_leaves (fault := 3)
    (s := setCache t die { getCache t die with lines := (tagLines (getCache t die) way.val set).foldl (fun t e => tabDel t e.1) (getCache t die).lines })
    (by rw [← mode] at on; exact on) (by rw [← mode] at sound; exact sound)
  exact ⟨rfl, left.1, left.2.1⟩

/-! ### What an access does (R290) -/

/-- A write of one access, with what it hands on: the bytes to a mirror, the marks to its invocation's count. -/
def accessWritten (stack : Nat) (r : Arrived) (errs : List HbmError) (s : State) : State :=
  let s := accessWrite s r.region r.addr r.data errs
  let s := if stackOffline s stack then s else captureWrite r.addr r.data s
  match getPiece s r.xfer r.piece with
  | some (v, q) => if pieceOver q then s else countPoison v r.addr r.data s
  | none => s

/-- What an access does after its tags have been checked. -/
def accessDoes (stack : Nat) (r : Arrived) (errs : List HbmError) (s : State) : State :=
  match r.kind with
  | .read => readPart stack r (accessRead s r.region r.addr r.len errs).1 (accessRead s r.region r.addr r.len errs).2
  | .write =>
    let s := accessWritten stack r errs s
    if moreOfPiece s stack r then s else landPiece r.xfer r.piece [] s
  | .atomic => s

theorem performAccess_waits {errs : List HbmError} {tags : TagOutcome} (at_ : (getMc s stack).arrivals[i]? = some r)
    (waits : accessWaits s stack i r = true ∨ accessTurn s stack r = none) : performAccess stack i errs tags s = s := by
  unfold performAccess
  rw [at_]
  dsimp only
  split
  · rfl
  next free =>
    rw [waits.resolve_left free]

theorem performAccess_takes {errs : List HbmError} {tags : TagOutcome} (at_ : (getMc s stack).arrivals[i]? = some r)
    (free : accessWaits s stack i r = false) (turn : accessTurn s stack r = some w) :
    performAccess stack i errs tags s = if (tagCheck (dieOfStack stack) tags (turnTaken stack i r w s)).2 then
      (tagCheck (dieOfStack stack) tags (turnTaken stack i r w s)).1
    else accessDoes stack r errs (tagCheck (dieOfStack stack) tags (turnTaken stack i r w s)).1 := by
  unfold performAccess
  rw [at_]
  dsimp only
  rw [if_neg (by rw [free]; decide), turn]
  rfl

theorem performAccess_does {errs : List HbmError} {tags : TagOutcome} (at_ : (getMc s stack).arrivals[i]? = some r)
    (free : accessWaits s stack i r = false) (turn : accessTurn s stack r = some w) (sound : ∀ way set, tags ≠ .bothLost way set) :
    performAccess stack i errs tags s = accessDoes stack r errs (tagCheck (dieOfStack stack) tags (turnTaken stack i r w s)).1 := by
  rw [performAccess_takes at_ free turn, (tagCheck_sound (dieOfStack stack) sound _).1]
  rfl

end

end Sys2Proof.Machine
end
end

section
/-! SUPPORT. Reads and writes at a stack's stop (R290), and the statement O33. -/
section
namespace Sys2Proof.Machine

section
variable {s t u : State} {stack i : Nat} {r : Arrived} {errs : List HbmError}

/-- The accesses of a piece that wait. -/
def piecesWait (r : Arrived) (l : List Arrived) : Bool := l.any (fun e => decide (e.xfer = r.xfer) && decide (e.piece = r.piece))

theorem piecesWait_keys (r : Arrived) (l : List Arrived) :
    piecesWait r l = (l.map arrivalKey).any (fun k => decide (k.1 = r.xfer) && decide (k.2.1 = r.piece)) := by
  rw [piecesWait, List.any_map]
  rfl

theorem moreOfPiece_keys {l : List Arrived} (keys : stopKeys (getMc t stack) = l.map arrivalKey) : moreOfPiece t stack r = piecesWait r l := by
  rw [piecesWait_keys, ← keys]
  exact piecesWait_keys r (getMc t stack).arrivals

/-- A part of a read's data. -/
def partOfRead (r : Arrived) (d : PData) : ReadPart where
  xfer := r.xfer
  piece := r.piece
  addr := r.addr
  data := d

/-- The data of a read whose last access has been performed, in the order of their addresses. -/
def wholeRead (stack : Nat) (r : Arrived) (d : PData) (s : State) : PData :=
  ((((getMc s stack).parts ++ [partOfRead r d]).filter (fun e => decide (e.xfer = r.xfer) && decide (e.piece = r.piece))).mergeSort
    (fun a b => decide (a.addr ≤ b.addr))).flatMap (·.data)

theorem readPart_more {d : PData} (more : moreOfPiece s stack r = true) :
    readPart stack r d s = setMc s stack { getMc s stack with parts := (getMc s stack).parts ++ [partOfRead r d] } := if_pos more

theorem readPart_last {d : PData} (last : moreOfPiece s stack r = false) : ∃ parts, readPart stack r d s =
    sendReply (.stack stack) r.xfer r.piece r.cls (wholeRead stack r d s) (setMc s stack { getMc s stack with parts := parts }) :=
  ⟨_, if_neg (by rw [last]; decide)⟩

/-- A read of one access holds all of the piece's data where no other part has come. -/
theorem wholeRead_alone {d : PData} (alone : ∀ e ∈ (getMc s stack).parts, ¬(e.xfer = r.xfer ∧ e.piece = r.piece)) : wholeRead stack r d s = d := by
  have none_ : (getMc s stack).parts.filter (fun e => decide (e.xfer = r.xfer) && decide (e.piece = r.piece)) = [] :=
    List.filter_eq_nil_iff.2 (fun e listed h => alone e listed (by simpa using h))
  simp [wholeRead, List.filter_append, none_, partOfRead]

/-- A stop of which a part has been kept, its accesses still waiting. -/
theorem stopKeys_setMc (m : List ReadPart) : stopKeys (getMc (setMc s stack { getMc s stack with parts := m }) stack) = stopKeys (getMc s stack) := by
  rw [getMc_setMc]
  rfl

theorem readPart_leaves {d : PData} {v : Xfer} (there : getXfer s r.xfer = some v) :
    stopKeys (getMc (readPart stack r d s) stack) = stopKeys (getMc s stack) ∧ (∀ a, memByte (readPart stack r d s) a = memByte s a) ∧
    (moreOfPiece s stack r = true → (readPart stack r d s).net = s.net ∧
      (getMc (readPart stack r d s) stack).parts = (getMc s stack).parts ++ [partOfRead r d]) ∧
    (moreOfPiece s stack r = false → (∀ e ∈ (getMc s stack).parts, ¬(e.xfer = r.xfer ∧ e.piece = r.piece)) →
      (readPart stack r d s).net = s.net ++ [replyFrom s (.stack stack) v r.xfer r.piece r.cls d]) := by
  have memory (a : Nat) : memByte (readPart stack r d s) a = memByte s a := (readPart_reach _ _ _ _).memByte_eq rfl a
  cases more : moreOfPiece s stack r with
  | true =>
    rw [readPart_more more] at memory ⊢
    refine ⟨stopKeys_setMc _, memory, fun _ => ⟨rfl, ?_⟩, fun no => absurd no (by decide)⟩
    rw [getMc_setMc]
  | false =>
    obtain ⟨parts, does⟩ := readPart_last (d := d) more
    have there' : getXfer (setMc s stack { getMc s stack with parts := parts }) r.xfer = some v := there
    rw [does, sendReply_sends there'] at memory ⊢
    refine ⟨stopKeys_setMc parts, memory, fun yes => absurd yes (by decide), fun _ alone => ?_⟩
    rw [wholeRead_alone alone]
    rfl

theorem engineStop_of_cur (same : t.blend.cur = s.blend.cur) (e : Nat) : engineStop t e = engineStop s e := by
  rw [engineStop, engineStop, physOf_of_cur same]

/-- What a read's access leaves of its stop, of memory and of the network. -/
theorem accessDoes_reads {v : Xfer} (kind : r.kind = .read) (there : getXfer s r.xfer = some v) :
    stopKeys (getMc (accessDoes stack r errs s) stack) = stopKeys (getMc s stack) ∧
    (errs = [] → ∀ a, memByte (accessDoes stack r errs s) a = memByte s a) ∧
    (moreOfPiece s stack r = true → (accessDoes stack r errs s).net = s.net ∧ (getMc (accessDoes stack r errs s) stack).parts =
      (getMc s stack).parts ++ [partOfRead r (accessRead s r.region r.addr r.len errs).1]) ∧
    (moreOfPiece s stack r = false → (∀ e ∈ (getMc s stack).parts, ¬(e.xfer = r.xfer ∧ e.piece = r.piece)) → (accessDoes stack r errs s).net =
      s.net ++ [replyFrom s (.stack stack) v r.xfer r.piece r.cls (accessRead s r.region r.addr r.len errs).1]) := by
  have same := accessRead_reach s r.region r.addr r.len errs
  have keys := accessRead_stop stopKeys_blind s r.region r.addr r.len errs stack
  have parts := accessRead_stop stopParts_blind s r.region r.addr r.len errs stack
  have memory : errs = [] → ∀ a, memByte (accessRead s r.region r.addr r.len errs).2 a = memByte s a := fun none_ a => by
    subst none_
    rw [memByte, memByte, accessRead_bytes]
  have does : accessDoes stack r errs s = readPart stack r (accessRead s r.region r.addr r.len errs).1 (accessRead s r.region r.addr r.len errs).2 := by
    rw [accessDoes, kind]
  rw [does]
  generalize (accessRead s r.region r.addr r.len errs).1 = d
  generalize (accessRead s r.region r.addr r.len errs).2 = u at same keys parts memory
  have more : moreOfPiece u stack r = moreOfPiece s stack r := by
    rw [moreOfPiece_keys (r := r) keys]
    rfl
  have reply : replyFrom u (.stack stack) v r.xfer r.piece r.cls d = replyFrom s (.stack stack) v r.xfer r.piece r.cls d := by
    rw [replyFrom, replyFrom, engineStop_of_cur (congrArg BlendState.cur (same.blend_eq rfl))]
  obtain ⟨left, bytes, waits, last⟩ := readPart_leaves (s := u) (stack := stack) (r := r) (d := d) ((same.getXfer_eq rfl r.xfer).trans there)
  rw [more, parts, same.net_eq rfl, reply] at *
  exact ⟨left.trans keys, fun none_ a => (bytes a).trans (memory none_ a), waits, last⟩

/-! ### Writes -/

theorem accessWritten_same (stack : Nat) (r : Arrived) (errs : List HbmError) (s : State) :
    SameExcept [.courier, .qs] (accessWrite s r.region r.addr r.data errs) (accessWritten stack r errs s) := by
  unfold accessWritten
  dsimp only
  generalize accessWrite s r.region r.addr r.data errs = t
  have captured : SameExcept [.courier, .qs] t (if stackOffline t stack then t else captureWrite r.addr r.data t) := by
    split
    · exact .refl _ t
    · exact (captureWrite_reach _ _ _).weaken rfl
  refine captured.trans ?_
  generalize (if stackOffline t stack then t else captureWrite r.addr r.data t) = u
  split
  · split
    · exact .refl _ u
    · exact (countPoison_reach _ _ _ u).weaken rfl
  · exact .refl _ u

theorem accessWritten_stop {β : Type} {f : McState → β} (blind : StopBlind f) : StopKept f s (accessWritten stack r errs s) :=
  (accessWrite_stop blind s r.region r.addr r.data errs).trans (.of_same (accessWritten_same stack r errs s) rfl)

theorem accessWritten_xfer (x : Nat) : getXfer (accessWritten stack r errs s) x = getXfer s x :=
  ((accessWritten_same stack r errs s).getXfer_eq rfl x).trans ((accessWrite_reach _ _ _ _ _).getXfer_eq rfl x)

/-- An uncached write reaches the DRAM, and nothing else there changes. -/
theorem accessWrite_bytes {a : Nat} {d : PData} (dram : InDram s a d.length) :
    (∀ j < d.length, memByte (accessWrite s none a d []) (a + j) = (d.getD j (0, false)).1) ∧
    ∀ x, (x < a ∨ a + d.length ≤ x) → memByte (accessWrite s none a d []) x = memByte s x := by
  by_cases gone : stackOffline s (stackOf a) = true
  · have short (j : Nat) (inside : j < d.length) : False := by
      have alive := (dram.line (x := a) le_rfl (by omega)).1
      rw [stackOf_line, gone] at alive
      exact absurd alive (by decide)
    refine ⟨fun j inside => (short j inside).elim, fun x _ => ?_⟩
    rw [accessWrite, if_pos gone]
    exact (offlineAccess_reach _ _).memByte_eq rfl x
  · have written := accessWrite_served (d := d) s gone
    refine ⟨fun j inside => ?_, fun x out => written.outside x (fun there => ?_)⟩
    · have here := written.inside (a + j) ⟨Nat.le_add_right a j, by dsimp only; omega⟩ (dram.line (Nat.le_add_right a j) (by omega))
      rwa [Nat.add_sub_cancel_left] at here
    · obtain ⟨low, high⟩ := there
      dsimp only at low high
      omega

/-- What a write's access leaves of its piece and of its stop. -/
theorem accessDoes_writes {v : Xfer} {q : Piece} (kind : r.kind = .write) (stands : getPiece s r.xfer r.piece = some (v, q)) (writes : v.kind = .write)
    (under : pieceOver q = false) : ∃ x p, getPiece (accessDoes stack r errs s) r.xfer r.piece = some (x, p) ∧
      (moreOfPiece s stack r = false → p.state = .landed) ∧ (moreOfPiece s stack r = true → p = q) ∧
      stopKeys (getMc (accessDoes stack r errs s) stack) = stopKeys (getMc s stack) ∧
      ∀ a, memByte (accessDoes stack r errs s) a = memByte (accessWrite s r.region r.addr r.data errs) a := by
  have stands' : getPiece (accessWritten stack r errs s) r.xfer r.piece = some (v, q) := (getPiece_of_xfer (accessWritten_xfer r.xfer)).trans stands
  have keys : stopKeys (getMc (accessWritten stack r errs s) stack) = stopKeys (getMc s stack) := accessWritten_stop stopKeys_blind stack
  have memory (a : Nat) := (accessWritten_same stack r errs s).memByte_eq rfl a
  have more : moreOfPiece (accessWritten stack r errs s) stack r = moreOfPiece s stack r := by
    rw [moreOfPiece_keys (r := r) keys]
    rfl
  have does : accessDoes stack r errs s = if moreOfPiece s stack r then accessWritten stack r errs s
      else landPiece r.xfer r.piece [] (accessWritten stack r errs s) := by
    rw [← more, accessDoes, kind]
  rw [does]
  cases last : moreOfPiece s stack r with
  | true => exact ⟨v, q, stands', fun no => absurd no (by decide), fun _ => rfl, keys, memory⟩
  | false =>
    obtain ⟨w, p, there, state, -, -⟩ := landPiece_piece [] stands' under
    have landed := landPiece_writes writes stands' under []
    refine ⟨w, p, there, fun _ => state, fun no => absurd no (by decide), ?_, fun a => (landed.memByte_eq rfl a).trans (memory a)⟩
    refine Eq.trans ?_ keys
    exact StopKept.of_same landed rfl stack

end

/-- Settles O33: an access that its line, its channel and its pseudo-channel let go leaves the list of its stop, and is performed once a tag check
has found a copy of each tag. -/
theorem hbmAccessesArePerformedInOrder : Obligations.HbmAccessesArePerformedInOrder := by
  unfold Obligations.HbmAccessesArePerformedInOrder
  intro stack i errs tags s r at_
  dsimp only
  refine ⟨fun waits => congrArg Host.Outcome.next (performAccess_waits at_ waits), fun free w turn => ?_⟩
  have turned := turnTaken_same stack.val i r w s
  obtain ⟨keys, parts⟩ := turnTaken_stop stack.val i r w s
  have taken (sound : ∀ way set, tags ≠ .bothLost way set) :
      SameExcept [.log, .plan, .pm, .cache, .mc] s (tagCheck (dieOfStack stack.val) tags (turnTaken stack.val i r w s)).1 ∧
      stopKeys (getMc (tagCheck (dieOfStack stack.val) tags (turnTaken stack.val i r w s)).1 stack.val) =
        (dropNth (getMc s stack.val).arrivals i).map arrivalKey ∧
      (getMc (tagCheck (dieOfStack stack.val) tags (turnTaken stack.val i r w s)).1 stack.val).parts = (getMc s stack.val).parts := by
    have tagged := (tagCheck_sound (tags := tags) (dieOfStack stack.val) sound (turnTaken stack.val i r w s)).2
    exact ⟨(turned.weaken rfl).trans (tagged.weaken rfl), (StopKept.of_same (f := stopKeys) tagged rfl stack.val).trans keys,
      (StopKept.of_same (f := McState.parts) tagged rfl stack.val).trans parts⟩
  refine ⟨fun way set lost on sound => ?_, ?_, ?_⟩
  · obtain ⟨dead, mode, fault⟩ := tagCheck_lost lost (dieOfStack stack.val) (s := turnTaken stack.val i r w s)
      (by rwa [turned.mode_eq rfl]) (by rwa [turned.mode_eq rfl])
    refine ⟨_, congrArg Host.Outcome.next ((performAccess_takes at_ free turn).trans (if_pos dead)), mode, fault⟩
  · intro v kind sound there
    obtain ⟨same, left, had⟩ := taken sound
    obtain ⟨keys', bytes, more, last⟩ := accessDoes_reads (stack := stack.val) (errs := errs) kind ((same.getXfer_eq rfl r.xfer).trans there)
    rw [moreOfPiece_keys left] at more last
    refine ⟨_, congrArg Host.Outcome.next (performAccess_does at_ free turn sound), keys'.trans left, fun none_ a => (bytes none_ a).trans (same.memByte_eq rfl a),
      fun yes => ?_, fun no alone => ?_⟩
    · obtain ⟨net, parts'⟩ := more yes
      rw [had] at parts'
      exact ⟨net.trans (same.net_eq rfl), parts'⟩
    · have net := last no (by rwa [had])
      rw [same.net_eq rfl, replyFrom, engineStop_of_cur (congrArg BlendState.cur (same.blend_eq rfl))] at net
      exact net
  · intro v q kind sound stands writes under
    obtain ⟨same, left, -⟩ := taken sound
    obtain ⟨x, p, there, landed, kept, keys', memory⟩ := accessDoes_writes (stack := stack.val) (errs := errs) kind
      ((getPiece_of_xfer (same.getXfer_eq rfl r.xfer)).trans stands) writes under
    rw [moreOfPiece_keys left] at landed kept
    refine ⟨_, x, p, congrArg Host.Outcome.next (performAccess_does at_ free turn sound), keys'.trans left, there, landed, kept, fun plain clean_ none_ dram => ?_⟩
    subst none_ clean_
    rw [plain] at memory
    obtain ⟨inside, outside⟩ := accessWrite_bytes ((turnTaken_hold stack.val i r w s).inDram dram)
    exact ⟨fun j there => (memory _).trans (inside j there), fun a out => ((memory a).trans (outside a out)).trans (turned.memByte_eq rfl a)⟩

end Sys2Proof.Machine
end
end

section
/-! SUPPORT. MOV ops that complete, sealed units that are checked (R188, R196, R197, R284, R285), and the statement O20. -/
section
namespace Sys2Proof.Machine

section
variable {s t : State} {p n : Nat} {o : IssuedOp} {x : Xfer} {m : MovOp}

theorem scrRead_length (s : State) (p off n : Nat) : (scrRead s p off n).length = n := memRead_length s n _

theorem memRead_getD (s : State) : ∀ {n a j : Nat}, j < n → ((memRead s a n).getD j (0, false)).1 = memByte s (a + j)
  | _ + 1, a, 0, _ => rfl
  | n + 1, a, j + 1, inside => by
    rw [memRead, List.getD_cons_succ, memRead_getD s (Nat.lt_of_succ_lt_succ inside)]
    congr 1
    omega

theorem patternBytes_length (v n : Nat) : (patternBytes v n).length = n := by simp [patternBytes]

theorem padTo_length (n : Nat) (l : List Byte) : (padTo n l).length = n := by simp [padTo, zeros]

/-! ### What a MOV writes when it completes (R196, R197) -/

theorem skewLine_length (w : Nat) (rows : List PData) (lost : Nat → Nat → Bool) (old : PData) (t : Nat) : (skewLine w rows lost old t).length = old.length := by
  simp [skewLine]

theorem skewWrite_within (p near rowBytes : Nat) (rows : List PData) (lost : Nat → Nat → Bool) (s : State) :
    WritesWithin (fun a => ∃ r < rows.length + 63, PortHits s p 0 (near + r * rowBytes) rowBytes a) s (skewWrite p near rowBytes rows lost s) := by
  unfold skewWrite
  refine .each _ s (fun r listed t cur => ?_)
  have len : (skewLine (rowBytes / 8) rows lost (scrRead t p (near + r * rowBytes) rowBytes) r).length = rowBytes := by
    rw [skewLine_length, scrRead_length]
  exact (portWrite_hits cur len).weaken (fun a hit => ⟨r, List.mem_range.1 listed, hit⟩)

/-- Rows that a MOV writes one after another. -/
theorem rowsWrite_within (p near stride n rows : Nat) (row : Nat → State → PData) (len : ∀ r t, (row r t).length = n) (s : State) :
    WritesWithin (fun a => ∃ r < rows, PortHits s p 0 (near + r * stride) n a) s
      (forEach (List.range rows) (fun r t => portWrite p 0 (near + r * stride) (row r t) t) s) :=
  .each _ s (fun r listed t cur => (portWrite_hits cur (len r t)).weaken (fun _ hit => ⟨r, List.mem_range.1 listed, hit⟩))

theorem movFinish_load (kind : (movOp o.word).kind = 0) (x : Xfer) (s : State) : movFinish p o (some x) s =
    if (movOp o.word).skew then skewWrite p o.near (movOp o.word).rowBytes (payloadRows x.payload (movOp o.word).rowBytes (movOp o.word).rows)
      (skewLost (movOp o.word).rowBytes x) s
    else s := by
  unfold movFinish
  dsimp only
  rw [kind]
  rfl

theorem movFinish_loadNone (kind : (movOp o.word).kind = 0) (s : State) : movFinish p o none s = s := by
  unfold movFinish
  dsimp only
  rw [kind]
  rfl

/-- A plain transfer between the scratchpad and elsewhere has written all its bytes as its pieces landed. -/
theorem movFinish_plain (x : Option Xfer) (done_ : (movOp o.word).kind = 1 ∨ (movOp o.word).kind = 4 ∨ ((movOp o.word).kind = 0 ∧ (movOp o.word).skew = false))
    (s : State) : movFinish p o x s = s := by
  obtain kind | kind | ⟨kind, plain⟩ := done_
  · unfold movFinish
    dsimp only
    rw [kind]
    rfl
  · unfold movFinish
    dsimp only
    rw [kind]
    rfl
  · cases x with
    | none => exact movFinish_loadNone kind s
    | some x =>
      rw [movFinish_load kind, plain]
      rfl

theorem movFinish_local (x : Option Xfer) (kind : (movOp o.word).kind = 2) (plain : (movOp o.word).skew = false) (s : State) : movFinish p o x s =
    forEach (List.range (movOp o.word).rows) (fun r t => portWrite p 0 (o.near + r * (movOp o.word).nearStride)
      (scrRead t p (o.near2 + r * (movOp o.word).farStride) (movOp o.word).rowBytes) t) s := by
  unfold movFinish
  dsimp only
  rw [kind, plain]
  rfl

theorem movFinish_localSkewed (x : Option Xfer) (kind : (movOp o.word).kind = 2) (skewed : (movOp o.word).skew = true) (s : State) : movFinish p o x s =
    skewWrite p o.near (movOp o.word).rowBytes
      ((List.range (movOp o.word).rows).map (fun r => scrRead s p (o.near2 + r * (movOp o.word).farStride) (movOp o.word).rowBytes))
      (fun _ _ => false) s := by
  unfold movFinish
  dsimp only
  rw [kind, skewed]
  rfl

theorem movFinish_fill (x : Option Xfer) (kind : (movOp o.word).kind = 3) (s : State) : movFinish p o x s =
    forEach (List.range (movOp o.word).rows) (fun r t => portWrite p 0 (o.near + r * (movOp o.word).nearStride)
      (clean (patternBytes ((movOp o.word).far % 2 ^ 32) (movOp o.word).rowBytes)) t) s := by
  unfold movFinish
  dsimp only
  rw [kind]
  rfl

theorem movFinish_rows (x : Option Xfer) (kind : (movOp o.word).kind = 2 ∨ (movOp o.word).kind = 3)
    (plain : (movOp o.word).kind = 2 → (movOp o.word).skew = false) (s : State) :
    WritesWithin (fun a => ∃ r < (movOp o.word).rows, PortHits s p 0 (o.near + r * (movOp o.word).nearStride) (movOp o.word).rowBytes a) s
      (movFinish p o x s) := by
  obtain kind | kind := kind
  · rw [movFinish_local x kind (plain kind)]
    exact rowsWrite_within p _ _ _ _ (fun r t => scrRead t p (o.near2 + r * (movOp o.word).farStride) (movOp o.word).rowBytes)
      (fun _ _ => scrRead_length _ _ _ _) s
  · rw [movFinish_fill x kind]
    exact rowsWrite_within p _ _ _ _ (fun _ _ => clean (patternBytes ((movOp o.word).far % 2 ^ 32) (movOp o.word).rowBytes))
      (fun _ _ => (clean_length _).trans (patternBytes_length _ _)) s

theorem movFinish_skewed (x : Option Xfer) (kind : (movOp o.word).kind = 0 ∨ (movOp o.word).kind = 2) (skewed : (movOp o.word).skew = true) (s : State) :
    WritesWithin (fun a => ∃ r < (movOp o.word).rows + 63, PortHits s p 0 (o.near + r * (movOp o.word).rowBytes) (movOp o.word).rowBytes a) s
      (movFinish p o x s) := by
  have lines (rows : List PData) (lost : Nat → Nat → Bool) (len : rows.length = (movOp o.word).rows) :
      WritesWithin (fun a => ∃ r < (movOp o.word).rows + 63, PortHits s p 0 (o.near + r * (movOp o.word).rowBytes) (movOp o.word).rowBytes a) s
        (skewWrite p o.near (movOp o.word).rowBytes rows lost s) := by
    rw [← len]
    exact skewWrite_within p _ _ rows lost s
  obtain kind | kind := kind
  · cases x with
    | none =>
      rw [movFinish_loadNone kind]
      exact .refl _ s
    | some x =>
      rw [movFinish_load kind, if_pos skewed]
      exact lines _ _ (by simp [payloadRows])
  · rw [movFinish_localSkewed x kind skewed]
    exact lines _ _ (by simp)

/-- The bytes of a row that a port which feeds no link has written. -/
theorem rowWrite_bytes {off : Nat} {d : PData} (plain : ∀ e ∈ s.blend.cur.links, e.2.producer.port ≠ 0) {j : Nat} (inside : j < d.length) :
    memByte (portWrite p 0 off d s) (scratchKey p off + j) = (d.getD j (0, false)).1 := by
  rw [portWrite_plain plain]
  exact memByte_memWrite_add inside

theorem movFinish_fillBytes (x : Option Xfer) (kind : (movOp o.word).kind = 3) (one : (movOp o.word).rows = 1)
    (plain : ∀ e ∈ s.blend.cur.links, e.2.producer.port ≠ 0) {j : Nat} (inside : j < (movOp o.word).rowBytes) :
    memByte (movFinish p o x s) (scratchKey p o.near + j) = BitVec.ofNat 8 ((movOp o.word).far % 2 ^ 32 / 256 ^ (j % 4)) := by
  have written := rowWrite_bytes (p := p) (off := o.near + 0 * (movOp o.word).nearStride)
    (d := clean (patternBytes ((movOp o.word).far % 2 ^ 32) (movOp o.word).rowBytes)) plain (by rwa [clean_length, patternBytes_length])
  rw [clean_getD, Nat.zero_mul, Nat.add_zero] at written
  rw [movFinish_fill x kind, one, show List.range 1 = [0] from rfl, forEach_cons, forEach_nil, Nat.zero_mul, Nat.add_zero, written]
  simp [patternBytes, inside]

theorem movFinish_localBytes (x : Option Xfer) (kind : (movOp o.word).kind = 2) (unskewed : (movOp o.word).skew = false) (one : (movOp o.word).rows = 1)
    (plain : ∀ e ∈ s.blend.cur.links, e.2.producer.port ≠ 0) {j : Nat} (inside : j < (movOp o.word).rowBytes) :
    memByte (movFinish p o x s) (scratchKey p o.near + j) = memByte s (scratchKey p o.near2 + j) := by
  have written := rowWrite_bytes (p := p) (off := o.near + 0 * (movOp o.word).nearStride)
    (d := scrRead s p (o.near2 + 0 * (movOp o.word).farStride) (movOp o.word).rowBytes) plain (by rwa [scrRead_length])
  rw [scrRead, memRead_getD s inside, Nat.zero_mul, Nat.zero_mul, Nat.add_zero, Nat.add_zero, ← scrRead] at written
  rw [movFinish_local x kind unskewed, one, show List.range 1 = [0] from rfl, forEach_cons, forEach_nil, Nat.zero_mul, Nat.zero_mul, Nat.add_zero,
    Nat.add_zero, written]

/-! ### A MOV that has completed (R188) -/

/-- The state in which a MOV has left the window, its transfer gone. -/
def movLeft (p : Nat) (o : IssuedOp) (s : State) : State :=
  retireOp p o.seq (match o.xfer with | some n => delXfer s n | none => s)

theorem movLeft_reach (p : Nat) (o : IssuedOp) (s : State) : SameExcept [.xfers, .qs, .cores] s (movLeft p o s) := by
  unfold movLeft
  refine SameExcept.trans ?_ ((retireOp_reach p o.seq _).weaken rfl)
  split
  · exact (delXfer_reach s _).weaken rfl
  · exact .refl _ s

theorem movLeft_core (p : Nat) (o : IssuedOp) (s : State) :
    (getCore (movLeft p o s) p).window = (getCore s p).window.filter (fun q => q.seq != o.seq) ∧ OtherCores p s (movLeft p o s) := by
  unfold movLeft
  generalize gone : (match o.xfer with | some n => delXfer s n | none => s) = t
  have same : SameExcept [.xfers] s t := by
    rw [← gone]
    split
    · exact delXfer_reach s _
    · exact .refl _ s
  obtain ⟨retired, others⟩ := retireOp_core p o.seq t
  refine ⟨?_, (same.otherCores rfl p).trans others⟩
  rw [← same.getCore_eq rfl p]
  exact congrArg Core.window retired

theorem movLeft_xfer (number : o.xfer = some n) (s : State) : getXfer (movLeft p o s) n = none := by
  unfold movLeft
  rw [number, (retireOp_reach _ _ _).getXfer_eq rfl]
  exact getXfer_delXfer s n

/-- A MOV's transfer lets it complete. -/
def movReady : Option Xfer → Bool
  | some x => xferDone x && (x.sealed_.isNone || x.checked)
  | none => true

theorem completeMov_completes {slot : Nat} (at_ : (getCore s p).window[slot]? = some o) (mov : opClass o.word = 2) (started : o.started = true)
    (ready : ∀ x, o.xfer.bind (getXfer s) = some x → xferDone x = true ∧ (x.sealed_ = none ∨ x.checked = true)) :
    completeMov slot p s = postDone (movOp o.word).done (pumpMovs p (movLeft p o (movFinish p o (o.xfer.bind (getXfer s)) s))) := by
  have may : movReady (o.xfer.bind (getXfer s)) = true := by
    cases found : o.xfer.bind (getXfer s) with
    | none => rfl
    | some x =>
      obtain ⟨done_, open_ | checked⟩ := ready x found
      · simp [movReady, done_, open_]
      · simp [movReady, done_, checked]
  unfold completeMov
  rw [at_]
  refine (if_neg ?_).trans rfl
  rintro (h | h | h)
  · exact h mov
  · rw [started] at h
    exact absurd h (by decide)
  · have blocked : (!movReady (o.xfer.bind (getXfer s))) = true := h
    rw [may] at blocked
    exact absurd blocked (by decide)

end

end Sys2Proof.Machine
end
end

section
/-! SUPPORT. The check of a sealed unit (R284, R285), and the statement O20. -/
section
namespace Sys2Proof.Machine

section
variable {s : State} {p n slot : Nat} {o : IssuedOp} {x : Xfer} {k : Option Bits256}

/-- What a sealed unit gives, where its key is there and its tag is right. -/
def unsealedBytes (k : Option Bits256) (x : Xfer) (rowBytes : Nat) : Option (List Byte) := k.bind (fun key => unsealed x key rowBytes)

/-- A transfer whose sealed unit has been checked. -/
def checkedXfer (n : Nat) (x : Xfer) (s : State) : State := setXfer s n { x with checked := true }

theorem unsealed_length {key : Bits256} {rowBytes : Nat} {d : List Byte} (passes : unsealed x key rowBytes = some d) : d.length = rowBytes := by
  unfold unsealed at passes
  dsimp only at passes
  split at passes
  · rw [← Option.some.inj passes, padTo_length]
  · exact absurd passes nofun

theorem unsealedBytes_length {rowBytes : Nat} {d : List Byte} (passes : unsealedBytes k x rowBytes = some d) : d.length = rowBytes := by
  obtain ⟨key, -, passes⟩ := Option.bind_eq_some_iff.1 passes
  exact unsealed_length passes

/-- The zeros that stand for a unit which fails, marked. -/
def failedBytes (p near rowBytes : Nat) (s : State) : State :=
  poisonRange (portWrite p 0 near (marked (zeros rowBytes)) s) (scratchKey p near) rowBytes

/-- What counts and logs a unit that fails. -/
def failedCounted (p : Nat) (o : IssuedOp) (k : Option Bits256) (inv : Nat) (s : State) : State :=
  let t := updCore s p (fun c => { c with sealFails := inc64 c.sealFails 1 })
  match k with
  | none => logEvent .sealKeyDenied (islOfCore p) (leBytes 2 ((movOp o.word).farStride % 2 ^ 16) ++ leBytes 8 inv) t
  | some _ => logEvent .sealCheckFailed (islOfCore p) (leBytes 8 o.far ++ leBytes 8 inv) t

/-- A sealed unit that is to be checked. -/
structure SealedUnit (s : State) (p slot n : Nat) (o : IssuedOp) (x : Xfer) (k : Option Bits256) : Prop where
  op : (getCore s p).window[slot]? = some o
  number : o.xfer = some n
  xfer : getXfer s n = some x
  sealed_ : x.sealed_ = some k
  landed : xferDone x = true
  fresh : x.checked = false

theorem checkUnseal_passes {d : List Byte} (unit : SealedUnit s p slot n o x k) (passes : unsealedBytes k x (movOp o.word).rowBytes = some d) :
    checkUnseal slot p s = portWrite p 0 o.near (clean d) (checkedXfer n x s) := by
  unfold unsealedBytes at passes
  unfold checkUnseal
  dsimp only
  rw [unit.op]
  dsimp only
  rw [unit.number]
  dsimp only
  rw [unit.xfer]
  dsimp only
  split
  next open_ => exact absurd (unit.sealed_.symm.trans open_) nofun
  next k' closed =>
    cases unit.sealed_.symm.trans closed
    rw [if_neg (by rw [unit.landed, unit.fresh]; decide), passes]
    rfl

theorem checkUnseal_fails (unit : SealedUnit s p slot n o x k) (fails : unsealedBytes k x (movOp o.word).rowBytes = none) :
    checkUnseal slot p s = failedCounted p o k ((getCore s p).inv.getD 0) (failedBytes p o.near (movOp o.word).rowBytes (checkedXfer n x s)) := by
  unfold unsealedBytes at fails
  unfold checkUnseal
  dsimp only
  rw [unit.op]
  dsimp only
  rw [unit.number]
  dsimp only
  rw [unit.xfer]
  dsimp only
  split
  next open_ => exact absurd (unit.sealed_.symm.trans open_) nofun
  next k' closed =>
    cases unit.sealed_.symm.trans closed
    rw [if_neg (by rw [unit.landed, unit.fresh]; decide), fails]
    cases k <;> rfl

theorem failedCounted_leaves (p : Nat) (o : IssuedOp) (k : Option Bits256) (inv : Nat) (s : State) : SameExcept [.log, .cores] s (failedCounted p o k inv s) ∧
    (getCore (failedCounted p o k inv s) p).sealFails = (getCore s p).sealFails + 1 ∧ OtherCores p s (failedCounted p o k inv s) := by
  have counted := updCore_reach s p (fun c => { c with sealFails := inc64 c.sealFails 1 })
  have others := updCore_otherCores s p (fun c => { c with sealFails := inc64 c.sealFails 1 })
  have own : (getCore (updCore s p (fun c => { c with sealFails := inc64 c.sealFails 1 })) p).sealFails = (getCore s p).sealFails + 1 := by
    rw [getCore_updCore]
    rfl
  unfold failedCounted
  dsimp only
  generalize updCore s p (fun c => { c with sealFails := inc64 c.sealFails 1 }) = t at *
  have logged (e : Event) (d : List Byte) : SameExcept [.log, .cores] s (logEvent e (islOfCore p) d t) ∧
      (getCore (logEvent e (islOfCore p) d t) p).sealFails = (getCore s p).sealFails + 1 ∧ OtherCores p s (logEvent e (islOfCore p) d t) := by
    have kept := logEvent_reach e (islOfCore p) d t
    exact ⟨(counted.weaken rfl).trans (kept.weaken rfl), by rw [kept.getCore_eq rfl, own], others.trans (kept.otherCores rfl p)⟩
  split
  · exact logged _ _
  · exact logged _ _

theorem marked_getD (l : List Byte) (j : Nat) : ((marked l).getD j (0, false)).1 = l.getD j 0 := by
  rw [marked, List.getD_eq_getElem?_getD, List.getD_eq_getElem?_getD, List.getElem?_map]
  cases l[j]? <;> rfl

/-- What a unit that fails leaves at its place. -/
theorem failedBytes_leaves {near rowBytes : Nat} (plain : ∀ e ∈ s.blend.cur.links, e.2.producer.port ≠ 0) :
    SameExcept [.mem, .poison] s (failedBytes p near rowBytes s) ∧ (∀ j < rowBytes, memByte (failedBytes p near rowBytes s) (scratchKey p near + j) = 0 ∧
      memPoison (failedBytes p near rowBytes s) (scratchKey p near + j) = true) ∧
    ∀ a, (a < scratchKey p near ∨ scratchKey p near + rowBytes ≤ a) → memByte (failedBytes p near rowBytes s) a = memByte s a := by
  have bytes (a : Nat) : memByte (failedBytes p near rowBytes s) a = memByte (scrWrite s p near (marked (zeros rowBytes))) a := by
    rw [failedBytes, (poisonRange_reach _ _ _).memByte_eq rfl, portWrite_plain plain]
  have len : (marked (zeros rowBytes)).length = rowBytes := by simp [zeros]
  refine ⟨?_, fun j inside => ⟨?_, poisonRange_marks ⟨Nat.le_add_right _ _, by omega⟩⟩, fun a out => ?_⟩
  · rw [failedBytes, portWrite_plain plain]
    exact (scrWrite_reach _ _ _ _).trans ((poisonRange_reach _ _ _).weaken rfl)
  · rw [bytes, scrWrite, memByte_memWrite_add (by rwa [len]), marked_getD]
    simp [zeros, inside]
  · rw [bytes, scrWrite, memByte_memWrite_of_outside (by rwa [len])]

end

/-- Settles O20: a MOV leaves the window once its rows stand, its transfer with it, and what then moves on and is posted comes after. -/
theorem movOpsCompleteAndPost : Obligations.MovOpsCompleteAndPost := by
  unfold Obligations.MovOpsCompleteAndPost
  constructor
  · intro core slot s p o placed at_ mov started ready
    dsimp only
    have does : exec (.movComplete core slot) s = .next (completeMov slot.val p s) := by
      change Host.Outcome.next (onCore core.val (completeMov slot.val) s) = _
      rw [onCore, placed]
    rw [does, completeMov_completes at_ mov started ready]
    generalize o.xfer.bind (getXfer s) = x
    have wrote := movFinish_reach p o x s
    have left := movLeft_reach p o (movFinish p o x s)
    obtain ⟨retired, others⟩ := movLeft_core p o (movFinish p o x s)
    have mem (a : Nat) : memByte (movLeft p o (movFinish p o x s)) a = memByte (movFinish p o x s) a := left.memByte_eq rfl a
    refine ⟨_, rfl, ?_, fun n number => movLeft_xfer number _, (wrote.otherCores rfl p).trans others,
      (wrote.weaken rfl).trans (left.weaken rfl), fun kind a => ?_, fun kind plain a out => ?_, fun kind skewed a out => ?_,
      fun kind one plain j inside => ?_, fun kind unskewed one plain j inside => ?_⟩
    · rw [retired, wrote.getCore_eq rfl]
    · rw [mem, movFinish_plain x kind]
    · exact (mem a).trans ((movFinish_rows x kind plain s).bytes a (fun ⟨r, listed, hit⟩ => out r listed hit))
    · exact (mem a).trans ((movFinish_skewed x kind skewed s).bytes a (fun ⟨r, listed, hit⟩ => out r listed hit))
    · exact (mem _).trans (movFinish_fillBytes x kind one plain inside)
    · exact (mem _).trans (movFinish_localBytes x kind unskewed one plain inside)
  · intro core slot s p n o x k placed at_ number there sealed_ landed fresh plain
    have unit : SealedUnit s p slot.val n o x k := ⟨at_, number, there, sealed_, landed, fresh⟩
    have does : exec (.unsealCheckDone core slot) s = .next (checkUnseal slot.val p s) := by
      change Host.Outcome.next (onCore core.val (checkUnseal slot.val) s) = _
      rw [onCore, placed]
    have marked_ : SameExcept [.xfers] s (checkedXfer n x s) := setXfer_reach s n _
    refine ⟨fun d passes => ?_, fun fails => ?_⟩
    · have len := unsealedBytes_length passes
      have wrote : SameExcept [.mem, .poison] (checkedXfer n x s) (scrWrite (checkedXfer n x s) p o.near (clean d)) := scrWrite_reach _ _ _ _
      refine ⟨_, does.trans (congrArg Host.Outcome.next ((checkUnseal_passes unit passes).trans (portWrite_plain (s := checkedXfer n x s) plain _))), ?_, len, fun j inside => ?_,
        fun a out => ?_, (marked_.weaken rfl).trans (wrote.weaken rfl)⟩
      · exact (wrote.getXfer_eq rfl n).trans (getXfer_setXfer s n _)
      · rw [scrWrite, memByte_memWrite_add (by rwa [clean_length, len]), clean_getD]
      · rw [scrWrite, memByte_memWrite_of_outside (by rwa [clean_length, len])]
        exact marked_.memByte_eq rfl a
    · obtain ⟨wrote, zeroed, outside⟩ := failedBytes_leaves (s := checkedXfer n x s) (p := p) (near := o.near) (rowBytes := (movOp o.word).rowBytes) plain
      obtain ⟨counted, fails_, others⟩ := failedCounted_leaves p o k ((getCore s p).inv.getD 0) (failedBytes p o.near (movOp o.word).rowBytes (checkedXfer n x s))
      refine ⟨_, does.trans (congrArg Host.Outcome.next (checkUnseal_fails unit fails)), ?_, fun j inside => ⟨?_, ?_⟩, ?_, fun a out => ?_, ?_, ?_⟩
      · exact ((counted.getXfer_eq rfl n).trans (wrote.getXfer_eq rfl n)).trans (getXfer_setXfer s n _)
      · rw [counted.memByte_eq rfl]
        exact (zeroed j inside).1
      · rw [memPoison, counted.poison_eq rfl]
        exact (zeroed j inside).2
      · rw [fails_, wrote.getCore_eq rfl, marked_.getCore_eq rfl]
      · rw [counted.memByte_eq rfl, outside a out]
        exact marked_.memByte_eq rfl a
      · exact ((marked_.otherCores rfl p).trans (wrote.otherCores rfl p)).trans others
      · exact ((marked_.weaken rfl).trans (wrote.weaken rfl)).trans (counted.weaken rfl)

end Sys2Proof.Machine
end
end

section
/-! SUPPORT. The units of a core at work: tile queues, flags, and what an op that retires leaves (R96, R171, R184, R189), and the statement O19. -/
section
namespace Sys2Proof.Machine

/-! ### Tables changed place by place -/

section
variable {α : Type} {dflt : α}

/-- Each place of a list is changed once. -/
theorem tabPut_each (g : α → α) : ∀ (l : List Nat) (m : Tab α) (a : Nat), l.Nodup →
    tabGet dflt (l.foldl (fun t a => tabPut t a (g (tabGet dflt t a))) m) a = if a ∈ l then g (tabGet dflt m a) else tabGet dflt m a
  | [], m, a, _ => (if_neg List.not_mem_nil).symm
  | b :: l, m, a, once => by
    obtain ⟨out, rest⟩ := List.nodup_cons.1 once
    rw [List.foldl_cons, tabPut_each g l _ a rest]
    by_cases same : a = b
    · subst same
      have own : tabGet dflt (tabPut m a (g (tabGet dflt m a))) a = g (tabGet dflt m a) := by
        rw [tabGet, tabFind_tabPut_same]
        rfl
      rw [if_neg out, if_pos List.mem_cons_self, own]
    · have other : tabGet dflt (tabPut m b (g (tabGet dflt m b))) a = tabGet dflt m a := by
        rw [tabGet, tabFind_tabPut_ne _ _ same]
        rfl
      rw [other]
      exact if_congr (by simp [same]) rfl rfl

end

/-! ### What a fault leaves of a core's units (R205) -/

section
variable {β : Type} {f : Core → β} {s : State} {p : Nat}

theorem endEarly_cores (grants : ∀ c w n, f { c with wait := w, pc := n } = f c) (issued : ∀ c m k, f { c with issueMode := m, chain := k } = f c)
    (stops : ∀ c w e, f { c with phase := .faulted, wait := none, window := w, withdrawn := [], endedAt := some e, stall := none } = f c)
    (i : Nat) (st : Status) (code : Nat) (s : State) : CoresKeep f s (endEarly i st code s) := by
  have noted (t : State) (x : Invocation) : CoresKeep f t (setInv t i x) := (setInv_reach t i x).coresKeep rfl
  have stopped (l : List Nat) (t : State) : CoresKeep f t (forEach l stopCore t) := .forEach (stopCore_coresKeep grants issued stops) l t
  unfold endEarly
  split
  · exact .refl f s
  next x _ =>
    split
    · exact .refl f s
    dsimp only
    split
    · split
      · exact ((noted s _).trans (noted _ _)).trans ((sameExcept_qs _ _).coresKeep rfl)
      · exact (noted s _).trans (noted _ _)
    · exact (noted s _).trans (stopped _ _)

/-- A fault is recorded where none is, and leaves the vector engine with the op that it has. -/
theorem tileFault_records (code cls addr : Nat) (clear : (getCore s p).fault.valid = false) :
    (getCore (tileFault p code cls addr s) p).fault = { code := code, cls := cls, valid := true, addr := addr } ∧
    (getCore (tileFault p code cls addr s) p).vec = (getCore s p).vec := by
  have recorded : getCore (recordFault p code cls addr s) p =
      { getCore s p with fault := { code := code, cls := cls, valid := true, addr := addr } } := by
    rw [recordFault_core, clear]
    rfl
  have ended : CoresKeep (fun c => (c.fault, c.vec)) (recordFault p code cls addr s) (tileFault p code cls addr s) := by
    unfold tileFault
    dsimp only
    split
    · exact .refl _ _
    · exact ((logEvent_reach _ _ _ _).coresKeep rfl).trans
        (endEarly_cores (fun _ _ _ => rfl) (fun _ _ _ => rfl) (fun _ _ _ => rfl) _ _ _ _)
  obtain ⟨fault, vec⟩ := Prod.mk.inj (ended p)
  rw [fault, vec, recorded]
  exact ⟨rfl, rfl⟩

end

/-! ### Flags, counts and the window (R96, R189) -/

section
variable {s : State} {p seq : Nat}

theorem raiseFlags_core (flags : Nat) (s : State) : getCore (raiseFlags p flags s) p = { getCore s p with fpStatus := (getCore s p).fpStatus ||| flags } ∧
    OtherCores p s (raiseFlags p flags s) := by
  have others := setCore_otherCores s p { getCore s p with fpStatus := (getCore s p).fpStatus ||| flags }
  unfold raiseFlags
  dsimp only
  split
  next i _ =>
    have kept := updInv_reach (setCore s p { getCore s p with fpStatus := (getCore s p).fpStatus ||| flags }) i
      (fun x => { x with fpFlags := x.fpFlags ||| flags })
    exact ⟨(kept.getCore_eq rfl p).trans (getCore_setCore _ _ _), others.trans (kept.otherCores rfl p)⟩
  · exact ⟨getCore_setCore _ _ _, others⟩

theorem addFree_core (f : Core → Nat → Core) (s : State) : ∃ n, getCore (addFree p f s) p = f (getCore s p) n ∧ OtherCores p s (addFree p f s) :=
  ⟨_, getCore_updCore _ _ _, updCore_otherCores _ _ _⟩

/-- An op retires, with the work of its unit counted. -/
def opRetired (p seq : Nat) (count : Core → Nat → Core) (s : State) : State := retireOp p seq (addFree p count s)

theorem opRetired_same (p seq : Nat) (count : Core → Nat → Core) (s : State) : SameExcept [.freeCtr, .qs, .cores] s (opRetired p seq count s) :=
  ((addFree_reach p count s).weaken rfl).trans ((retireOp_reach p seq _).weaken rfl)

theorem opRetired_core (p seq : Nat) (count : Core → Nat → Core) (s : State) : ∃ n, getCore (opRetired p seq count s) p =
    { count (getCore s p) n with window := (count (getCore s p) n).window.filter (fun q => q.seq != seq) } ∧ OtherCores p s (opRetired p seq count s) := by
  obtain ⟨n, counted, others⟩ := addFree_core (p := p) count s
  obtain ⟨retired, others'⟩ := retireOp_core p seq (addFree p count s)
  refine ⟨n, ?_, others.trans others'⟩
  rw [opRetired, retired, counted]

theorem updOp_window (f : IssuedOp → IssuedOp) (s : State) : getCore (updOp p seq f s) p =
    { getCore s p with window := (getCore s p).window.map (fun o => if o.seq = seq then f o else o) } := getCore_updCore _ _ _

end

end Sys2Proof.Machine
end
end

section
/-! SUPPORT. VEC ops that start and complete (R54, R171, R184, R189), and the statement O19. -/
section
namespace Sys2Proof.Machine

/-! ### A VEC op starts (R184) -/

section
variable {s : State} {p : Nat} {o : IssuedOp}

theorem queueArrays_nodup (b : VBlock) : (queueArrays b).Nodup := List.nodup_range.filter _

/-- The oldest occupied entries of some queues, each with its array. -/
def headTiles (c : Core) (l : List Nat) : List (Nat × TileEntry) := l.filterMap (fun a => (headTile c a).map (fun e => (a, e)))

theorem headTiles_length {c : Core} : ∀ {l : List Nat}, (∀ a ∈ l, (headTile c a).isSome = true) → (headTiles c l).length = l.length
  | [], _ => rfl
  | a :: l, filled => by
    obtain ⟨e, head⟩ := Option.isSome_iff_exists.1 (filled a List.mem_cons_self)
    have rest := headTiles_length (fun b later => filled b (List.mem_cons_of_mem a later))
    rw [headTiles, List.filterMap_cons, head]
    exact congrArg (· + 1) rest

/-- The state in which a VEC op has begun. -/
def vecBegun (p : Nat) (o : IssuedOp) (l : List Nat) (s : State) : State :=
  updOp p o.seq (fun q => { q with started := true, startedAt := islTicks s (islOfCore p),
                                   count := vecCount ((vBlock s p o.near).popped (headTiles (getCore s p) l)) (opChain s p o.word) })
    (setCore s p { getCore s p with vec := some { seq := o.seq, popped := headTiles (getCore s p) l },
                                    tiles := l.foldl (fun t a => tabPut t a (popTile (tabGet [] t a))) (getCore s p).tiles })

theorem startVec_starts (runs : (getCore s p).phase = .running) (free : (getCore s p).vec = none) (next : firstWaiting (getCore s p) 1 = some o)
    (filled : ∀ a ∈ queueArrays (vBlock s p o.near), (headTile (getCore s p) a).isSome = true) : startVec p s =
      match vecStartCode s p o ((vBlock s p o.near).popped (headTiles (getCore s p) (queueArrays (vBlock s p o.near))))
        (headTiles (getCore s p) (queueArrays (vBlock s p o.near))) with
      | some k => tileFault p k 1 o.addr s
      | none => vecBegun p o (queueArrays (vBlock s p o.near)) s := by
  have all := headTiles_length filled
  unfold startVec
  dsimp only
  rw [free, next]
  dsimp only
  refine (if_neg ?_).trans rfl
  rintro (h | h)
  · exact h runs
  · exact h all

theorem vecBegun_core (p : Nat) (o : IssuedOp) (l : List Nat) (s : State) : ∃ f : IssuedOp → IssuedOp,
    (∀ q, (f q).started = true ∧ (f q).startedAt = islTicks s (islOfCore p) ∧
      (f q).count = vecCount ((vBlock s p o.near).popped (headTiles (getCore s p) l)) (opChain s p o.word) ∧ (f q).seq = q.seq) ∧
    getCore (vecBegun p o l s) p = { getCore s p with
      vec := some { seq := o.seq, popped := headTiles (getCore s p) l }
      tiles := l.foldl (fun t a => tabPut t a (popTile (tabGet [] t a))) (getCore s p).tiles
      window := (getCore s p).window.map (fun q => if q.seq = o.seq then f q else q) } ∧ OtherCores p s (vecBegun p o l s) := by
  refine ⟨fun q => { q with started := true, startedAt := islTicks s (islOfCore p),
                            count := vecCount ((vBlock s p o.near).popped (headTiles (getCore s p) l)) (opChain s p o.word) },
    fun q => ⟨rfl, rfl, rfl, rfl⟩, ?_, ?_⟩
  · rw [vecBegun, updOp_window, getCore_setCore]
  · exact (setCore_otherCores s p _).trans (updCore_otherCores _ p _)

theorem vecBegun_same (p : Nat) (o : IssuedOp) (l : List Nat) (s : State) : SameExcept [.cores] s (vecBegun p o l s) :=
  (setCore_reach s p _).trans (updCore_reach _ p _)

/-- The op that has begun, wherever it stands in the window. -/
theorem mem_updated {l : List IssuedOp} {seq : Nat} {f : IssuedOp → IssuedOp} {q : IssuedOp}
    (listed : q ∈ l.map (fun o => if o.seq = seq then f o else o)) (same : q.seq = seq) : ∃ o, q = f o := by
  obtain ⟨o, -, rfl⟩ := List.mem_map.1 listed
  split at same
  next here =>
    rw [if_pos here]
    exact ⟨o, rfl⟩
  next other => exact absurd same other

end

/-! ### What a VEC op writes (R54, R184) -/

section
variable {s t : State} {p : Nat} {b : VBlock} {r : VRun} {chain : List Bits256} {fp64 : Bool} {a : Nat}

theorem scaleBlock_length (rows fmt : Nat) (codes : List Nat) : (clean (scaleBlock rows fmt codes)).length = 76 := by
  simp [scaleBlock, zeros]

theorem cupAdd_length (l : List Byte) (c : CupPart) : (clean (cupAdd l c)).length = 32 := by
  simp [cupAdd, zeros]

/-- The output rows of a run. -/
def vecOuts (p : Nat) (b : VBlock) (r : VRun) (s : State) : State :=
  forEach ((List.range 2).filter (fun k => (b.outp k).mode != 0)) (fun k t =>
    forEach (outRows b r k) (fun e t => portWrite p 2 ((b.outp k).addr + e.1 * (b.outp k).stride) e.2 t) t) s

/-- The slots that a run has changed from what they held before it. -/
def vecSlots (p : Nat) (chain : List Bits256) (l : List (Nat × PData)) (s : State) : State :=
  if usesSlots chain then forEach l (fun e t => portWrite p 2 e.1 e.2 t) s else s

/-- The scale blocks of a run that quantises. -/
def vecScales (p : Nat) (b : VBlock) (chain : List Bits256) (codes : Tab Nat) (s : State) : State :=
  match chain.find? (fun d => stOpcode d == 0x29) with
  | none => s
  | some d =>
    forEach (List.range (ceilDiv b.rows 64)) (fun t u =>
      portWrite p 2 (b.qscale + 80 * t + 4)
        (clean (scaleBlock (min 64 (b.rows - 64 * t)) (b.outp ((stWrites d).headD 0)).fmt ((List.range 64).map (fun m => tabGet 0 codes (64 * t + m))))) u) s

/-- The statistics of a run. -/
def vecStats (p : Nat) (b : VBlock) (chain : List Bits256) (cup : CupPart) (s : State) : State :=
  if chain.any stCupping then portWrite p 2 b.stats (clean (cupAdd (scrBytes s p b.stats 32) cup)) s else s

theorem vecOuts_within (same : t.blend.cur = s.blend.cur) :
    WritesWithin (fun a => ∃ k < 2, (b.outp k).mode ≠ 0 ∧ ∃ e ∈ outRows b r k, PortHits s p 2 ((b.outp k).addr + e.1 * (b.outp k).stride) e.2.length a)
      t (vecOuts p b r t) := by
  refine .each _ t (fun k listed u cur => .each _ u (fun e row v cur' => ?_))
  obtain ⟨inside, used⟩ := List.mem_filter.1 listed
  exact (portWrite_hits ((cur'.trans cur).trans same) rfl).weaken
    (fun a hit => ⟨k, List.mem_range.1 inside, by simpa using used, e, row, hit⟩)

theorem vecSlots_within {l : List (Nat × PData)} (same : t.blend.cur = s.blend.cur) :
    WritesWithin (fun a => usesSlots chain = true ∧ ∃ e ∈ l, PortHits s p 2 e.1 e.2.length a) t (vecSlots p chain l t) := by
  unfold vecSlots
  split
  next uses =>
    exact .each _ t (fun e listed u cur => (portWrite_hits (cur.trans same) rfl).weaken (fun a hit => ⟨uses, e, listed, hit⟩))
  · exact .refl _ t

theorem vecScales_within {codes : Tab Nat} (same : t.blend.cur = s.blend.cur) :
    WritesWithin (fun a => chain.any (fun d => stOpcode d == 0x29) = true ∧ ∃ k < ceilDiv b.rows 64, PortHits s p 2 (b.qscale + 80 * k + 4) 76 a) t
      (vecScales p b chain codes t) := by
  unfold vecScales
  split
  · exact .refl _ t
  next d found =>
    have quantises : chain.any (fun d => stOpcode d == 0x29) = true := List.any_eq_true.2 ⟨d, List.mem_of_find?_eq_some found, List.find?_some (p := fun d => stOpcode d == 0x29) found⟩
    exact .each _ t (fun k listed u cur => (portWrite_hits (cur.trans same) (scaleBlock_length _ _ _)).weaken
      (fun a hit => ⟨quantises, k, List.mem_range.1 listed, hit⟩))

theorem vecStats_within {cup : CupPart} (same : t.blend.cur = s.blend.cur) :
    WritesWithin (fun a => chain.any stCupping = true ∧ PortHits s p 2 b.stats 32 a) t (vecStats p b chain cup t) := by
  unfold vecStats
  split
  next cups => exact (portWrite_hits same (cupAdd_length _ _)).weaken (fun a hit => ⟨cups, hit⟩)
  · exact .refl _ t

end

end Sys2Proof.Machine
end
end

section
/-! SUPPORT. A VEC op that completes (R189), and the statement O19. -/
section
namespace Sys2Proof.Machine

section
variable {s t : State} {p : Nat} {o : IssuedOp} {run : VecRun}

/-- The chain's width: that of its first stage. -/
def chainFp64 (chain : List Bits256) : Bool := match chain with | d :: _ => stFp64 d | [] => false

/-- A tile scale that a run has met and that is not valid is logged (R150). -/
def vecLogged (p : Nat) (o : IssuedOp) (b : VBlock) (bad : Bool) (s t : State) : State :=
  match bad, (List.range (ceilDiv b.rows 64)).find? (fun k => (tileScaleAt s p (b.qscale + 80 * k)).isNone) with
  | true, some k => logEvent .quantScaleInvalid (islOfCore p) (leBytes 8 o.addr ++ scrBytes s p (b.qscale + 80 * k) 4) t
  | _, _ => t

/-- What a run writes. -/
def vecWrites (p : Nat) (o : IssuedOp) (b : VBlock) (chain : List Bits256) (r : VRun) (s : State) : State :=
  vecLogged p o b r.badScale s (vecStats p b chain r.cup (vecScales p b chain r.codes
    (vecSlots p chain (slotWrites s p b (chainFp64 chain) (List.range b.rows) r.slots) (vecOuts p b r s))))

/-- The tile queues once the entries of a run are free. -/
def tilesFreed (popped : List (Nat × TileEntry)) (m : Tab (List TileEntry)) : Tab (List TileEntry) :=
  popped.foldl (fun t e => tabSet [] t e.1 ((tabGet [] t e.1).filter (fun q => decide (q.state ≠ .popped)))) m

/-- What a run leaves once its outputs stand: its flags are raised, its entries free and its op retired. -/
def vecFinished (p seq : Nat) (popped : List (Nat × TileEntry)) (r : VRun) (s : State) : State :=
  opRetired p seq (fun c n => { c with vecBusy := inc64 c.vecBusy n })
    (updCore (raiseFlags p r.flags s) p (fun c => { c with vec := none, gens := r.gens, tiles := tilesFreed popped c.tiles }))

/-- The block of a VEC op in progress, its queue streams taken from the entries that it popped. -/
def runBlock (s : State) (p : Nat) (o : IssuedOp) (run : VecRun) : VBlock := (vBlock s p o.near).popped run.popped

/-- What a VEC op in progress comes to. -/
def runResult (s : State) (p : Nat) (o : IssuedOp) (run : VecRun) : VRun :=
  runVec s p (runBlock s p o run) (chainFp64 (opChain s p o.word)) (opChain s p o.word) (getCore s p).gens

theorem completeVec_completes (runs : (getCore s p).vec = some run) (found : findOp (getCore s p) run.seq = some o) :
    completeVec p s = vecFinished p o.seq run.popped (runResult s p o run)
      (vecWrites p o (runBlock s p o run) (opChain s p o.word) (runResult s p o run) s) := by
  unfold completeVec
  dsimp only
  rw [runs]
  dsimp only
  rw [found]
  rfl

theorem vecLogged_same (b : VBlock) (bad : Bool) (s t : State) : SameExcept [.log] t (vecLogged p o b bad s t) := by
  unfold vecLogged
  split
  · exact logEvent_reach _ _ _ _
  · exact .refl _ t

theorem portWrites_same {α : Type} {port : Nat} {off : α → Nat} {d : α → State → PData} (l : List α) (s : State) :
    SameExcept [.isl, .mem, .poison] s (forEach l (fun e t => portWrite p port (off e) (d e t) t) s) :=
  SameExcept.forEach (fun _ _ => portWrite_reach _ _ _ _ _) l (.refl _ s)

theorem vecWrites_same (b : VBlock) (chain : List Bits256) (r : VRun) (s : State) : SameExcept [.log, .isl, .mem, .poison] s (vecWrites p o b chain r s) := by
  have outs (u : State) : SameExcept [.isl, .mem, .poison] u (vecOuts p b r u) :=
    SameExcept.forEach (fun _ _ => portWrites_same (off := fun e : Nat × PData => (b.outp _).addr + e.1 * (b.outp _).stride) (d := fun e _ => e.2) _ _) _ (.refl _ u)
  have slots (l : List (Nat × PData)) (u : State) : SameExcept [.isl, .mem, .poison] u (vecSlots p chain l u) := by
    unfold vecSlots
    split
    · exact portWrites_same (off := fun e : Nat × PData => e.1) (d := fun e _ => e.2) l u
    · exact .refl _ u
  have scales (u : State) : SameExcept [.isl, .mem, .poison] u (vecScales p b chain r.codes u) := by
    unfold vecScales
    split
    · exact .refl _ u
    · exact portWrites_same _ u
  have stats (u : State) : SameExcept [.isl, .mem, .poison] u (vecStats p b chain r.cup u) := by
    unfold vecStats
    split
    · exact portWrite_reach _ _ _ _ _
    · exact .refl _ u
  exact ((((outs s).trans (slots _ _)).trans (scales _)).trans (stats _)).weaken rfl |>.trans ((vecLogged_same b r.badScale s _).weaken rfl)

/-- The bytes that a VEC op may write. -/
def VecHits (s : State) (p : Nat) (b : VBlock) (chain : List Bits256) (r : VRun) (a : Nat) : Prop :=
  (∃ k < 2, (b.outp k).mode ≠ 0 ∧ ∃ e ∈ outRows b r k, PortHits s p 2 ((b.outp k).addr + e.1 * (b.outp k).stride) e.2.length a) ∨
  (usesSlots chain = true ∧ ∃ e ∈ slotWrites s p b (chainFp64 chain) (List.range b.rows) r.slots, PortHits s p 2 e.1 e.2.length a) ∨
  (chain.any (fun d => stOpcode d == 0x29) = true ∧ ∃ k < ceilDiv b.rows 64, PortHits s p 2 (b.qscale + 80 * k + 4) 76 a) ∨
  (chain.any stCupping = true ∧ PortHits s p 2 b.stats 32 a)

theorem vecWrites_within (b : VBlock) (chain : List Bits256) (r : VRun) (s : State) :
    WritesWithin (VecHits s p b chain r) s (vecWrites p o b chain r s) := by
  have outs := vecOuts_within (s := s) (t := s) (p := p) (b := b) (r := r) rfl
  have slots := vecSlots_within (s := s) (p := p) (chain := chain) (l := slotWrites s p b (chainFp64 chain) (List.range b.rows) r.slots) outs.cur
  have scales := vecScales_within (s := s) (p := p) (b := b) (chain := chain) (codes := r.codes) (slots.cur.trans outs.cur)
  have stats := vecStats_within (s := s) (p := p) (b := b) (chain := chain) (cup := r.cup) (scales.cur.trans (slots.cur.trans outs.cur))
  refine ((((outs.weaken fun a hit => .inl hit).trans (slots.weaken fun a hit => .inr (.inl hit))).trans
    (scales.weaken fun a hit => .inr (.inr (.inl hit)))).trans (stats.weaken fun a hit => .inr (.inr (.inr hit)))).trans ?_
  exact .of_same (vecLogged_same b r.badScale s _) rfl rfl

theorem vecFinished_same (seq : Nat) (popped : List (Nat × TileEntry)) (r : VRun) (s : State) :
    SameExcept [.freeCtr, .qs, .cores] s (vecFinished p seq popped r s) :=
  (((raiseFlags_reach p r.flags s).trans ((updCore_reach _ p _).weaken rfl)).weaken rfl).trans (opRetired_same _ _ _ _)

theorem vecFinished_core (seq : Nat) (popped : List (Nat × TileEntry)) (r : VRun) (s : State) : ∃ n,
    getCore (vecFinished p seq popped r s) p = { getCore s p with
      vec := none
      gens := r.gens
      tiles := tilesFreed popped (getCore s p).tiles
      fpStatus := (getCore s p).fpStatus ||| r.flags
      vecBusy := inc64 (getCore s p).vecBusy n
      window := (getCore s p).window.filter (fun q => q.seq != seq) } ∧ OtherCores p s (vecFinished p seq popped r s) := by
  obtain ⟨raised, others⟩ := raiseFlags_core (p := p) r.flags s
  obtain ⟨n, retired, others'⟩ := opRetired_core p seq (fun c n => { c with vecBusy := inc64 c.vecBusy n })
    (updCore (raiseFlags p r.flags s) p (fun c => { c with vec := none, gens := r.gens, tiles := tilesFreed popped c.tiles }))
  refine ⟨n, ?_, (others.trans (updCore_otherCores _ p _)).trans others'⟩
  rw [vecFinished, retired, getCore_updCore, raised]

theorem tilesFreed_free : ∀ (popped : List (Nat × TileEntry)) (m : Tab (List TileEntry)) (a : Nat),
    ((∃ e ∈ popped, e.1 = a) ∨ ∀ q ∈ tabGet [] m a, q.state ≠ .popped) → ∀ q ∈ tabGet [] (tilesFreed popped m) a, q.state ≠ .popped
  | [], _, _, free => free.resolve_left (fun ⟨_, none_, _⟩ => absurd none_ List.not_mem_nil)
  | e :: l, m, a, free => by
    refine tilesFreed_free l _ a ?_
    by_cases same : a = e.1
    · right
      intro q listed
      rw [same, tabGet_tabSet_same] at listed
      simpa using (List.mem_filter.1 listed).2
    · rw [tabGet_tabSet_ne _ _ _ same]
      refine free.imp_left (fun ⟨d, listed, here⟩ => ⟨d, (List.mem_cons.1 listed).resolve_left (fun h => same (by rw [← here, h])), here⟩)

end

/-- Settles O19: a VEC op takes its entries as it starts, and what it writes as it completes stands where its block names it. -/
theorem vecOpsStartAndComplete : Obligations.VecOpsStartAndComplete := by
  unfold Obligations.VecOpsStartAndComplete
  intro core s p o placed
  dsimp only
  constructor
  · intro runs free next filled
    have does : exec (.vecStart core) s = .next (startVec p s) := by
      change Host.Outcome.next (onCore core.val startVec s) = _
      rw [onCore, placed]
    have starts := startVec_starts runs free next filled
    refine ⟨fun fits => ?_, fun k breaks clear => ?_⟩
    · obtain ⟨f, begun, core_, others⟩ := vecBegun_core p o (queueArrays (vBlock s p o.near)) s
      have there : startVec p s = vecBegun p o (queueArrays (vBlock s p o.near)) s := by
        rw [starts]
        split
        next k breaks => exact absurd (fits.symm.trans breaks) nofun
        · rfl
      refine ⟨_, does.trans (congrArg Host.Outcome.next there), ?_, fun a listed => ?_, fun q listed same => ?_, others, vecBegun_same p o _ s⟩
      · rw [core_]
        rfl
      · rw [core_]
        exact (tabPut_each popTile _ _ a (queueArrays_nodup _)).trans (if_pos listed)
      · rw [core_] at listed
        obtain ⟨q', rfl⟩ := mem_updated listed same
        obtain ⟨started, at_, count, -⟩ := begun q'
        exact ⟨started, at_, count⟩
    · have there : startVec p s = tileFault p k 1 o.addr s := by
        rw [starts]
        split
        next k' breaks' =>
          cases breaks.symm.trans breaks'
          rfl
        next fits => exact absurd (fits.symm.trans breaks) nofun
      obtain ⟨fault, vec⟩ := tileFault_records k 1 o.addr clear
      exact ⟨_, does.trans (congrArg Host.Outcome.next there), fault, vec.trans free⟩
  · intro run runs found
    have does : exec (.vecComplete core) s = .next (completeVec p s) := by
      change Host.Outcome.next (onCore core.val completeVec s) = _
      rw [onCore, placed]
    have seq : o.seq = run.seq := by simpa using List.find?_some found
    rw [does, completeVec_completes runs found]
    have wrote := vecWrites_same (p := p) (o := o) (runBlock s p o run) (opChain s p o.word) (runResult s p o run) s
    have within := vecWrites_within (p := p) (o := o) (runBlock s p o run) (opChain s p o.word) (runResult s p o run) s
    obtain ⟨n, core_, others⟩ := vecFinished_core (p := p) o.seq run.popped (runResult s p o run)
      (vecWrites p o (runBlock s p o run) (opChain s p o.word) (runResult s p o run) s)
    have finished := vecFinished_same (p := p) o.seq run.popped (runResult s p o run)
      (vecWrites p o (runBlock s p o run) (opChain s p o.word) (runResult s p o run) s)
    rw [wrote.getCore_eq rfl] at core_
    refine ⟨_, rfl, ?_, ?_, ?_, ?_, fun e listed q there => ?_, fun a out slots scales stats => ?_, (wrote.otherCores rfl p).trans others,
      (wrote.weaken rfl).trans (finished.weaken rfl)⟩
    · rw [core_]
    · rw [core_]
      rfl
    · rw [core_]
      rfl
    · rw [core_, seq]
    · rw [core_] at there
      exact tilesFreed_free run.popped _ e.1 (.inl ⟨e, listed, rfl⟩) q there
    · refine (finished.memByte_eq rfl a).trans (within.bytes a ?_)
      rintro (⟨k, inside, used, e, listed, hit⟩ | ⟨uses, e, listed, hit⟩ | ⟨quantises, k, inside, hit⟩ | ⟨cups, hit⟩)
      · exact out k inside used e listed hit
      · exact slots uses e listed hit
      · exact scales quantises k inside hit
      · exact stats cups hit

end Sys2Proof.Machine
end
end

section
/-! SUPPORT. MAT ops that start (R103, R117, R118, R121, R171), and the statement O18. -/
section
namespace Sys2Proof.Machine

section
variable {α : Type} {dflt : α}

/-- Places of a table written from what is named for each. -/
theorem tabSet_each {β : Type} [DecidableEq α] (h : Nat → β) (k : Nat × β → α) : ∀ (l : List Nat) (m : Tab α) (a : Nat),
    tabGet dflt ((l.map (fun b => (b, h b))).foldl (fun t e => tabSet dflt t e.1 (k e)) m) a = if a ∈ l then k (a, h a) else tabGet dflt m a
  | [], m, a => (if_neg List.not_mem_nil).symm
  | b :: l, m, a => by
    rw [List.map_cons, List.foldl_cons, tabSet_each h k l _ a]
    by_cases same : a = b
    · subst same
      rw [tabGet_tabSet_same, ite_self, if_pos List.mem_cons_self]
    · rw [tabGet_tabSet_ne _ _ _ same]
      exact if_congr (by simp [same]) rfl rfl

end

theorem maskArrays_nodup (mask : Nat) : (maskArrays mask).Nodup := List.nodup_range.filter _

section
variable {s : State} {p : Nat} {o : IssuedOp} {c : Core} {m : MatOp} {run : MatRun}

/-- An entry that waits for the tile of an op in progress. -/
def reservedTile : TileEntry := { state := .reserved, addr := 0, stride := 0, rows := 0, fmt := 0, seq := 0 }

theorem reserveTiles_posts (posts : m.post = true) (c : Core) : reserveTiles m c =
    { c with tiles := (maskArrays m.mask).foldl (fun t a => tabPut t a (tabGet [] t a ++ [reservedTile])) c.tiles } := if_pos posts

theorem reserveTiles_silent (silent : m.post = false) (c : Core) : reserveTiles m c = c := if_neg (by rw [silent]; decide)

theorem reserveTiles_keeps {β : Type} {f : Core → β} (blind : ∀ c t, f { c with tiles := t } = f c) (m : MatOp) (c : Core) :
    f (reserveTiles m c) = f c := by
  unfold reserveTiles
  dsimp only
  split
  · exact blind _ _
  · rfl

/-- A posting op reserves an entry on each masked array's queue, and no other op does. -/
theorem reserveTiles_tiles (m : MatOp) (c : Core) :
    (m.post = true → ∀ a ∈ maskArrays m.mask, (tabGet [] (reserveTiles m c).tiles a).length = (tabGet [] c.tiles a).length + 1) ∧
    (m.post = false → (reserveTiles m c).tiles = c.tiles) := by
  refine ⟨fun posts a listed => ?_, fun silent => by rw [reserveTiles_silent silent]⟩
  rw [reserveTiles_posts posts]
  dsimp only
  rw [tabPut_each (fun l => l ++ [reservedTile]) _ _ a (maskArrays_nodup _), if_pos listed, List.length_append]
  rfl

/-- What an op's begin leaves of its arrays. -/
theorem enterMat_acc (run : MatRun) (m : MatOp) (c : Core) :
    (∀ a ∈ maskArrays m.mask, tabGet arrAccReset (enterMat run m c).acc a =
      if m.cont then { tabGet arrAccReset c.acc a with isInt := fmtIsInt m.fw, fp64 := m.fp64 } else freshAcc m) ∧
    (∀ a, a ∉ maskArrays m.mask → tabGet arrAccReset (enterMat run m c).acc a = tabGet arrAccReset c.acc a) := by
  have places (a : Nat) := tabSet_each (dflt := arrAccReset)
    (fun a => if m.cont then { tabGet arrAccReset c.acc a with isInt := fmtIsInt m.fw, fp64 := m.fp64 } else freshAcc m) (·.2) (maskArrays m.mask) c.acc a
  exact ⟨fun a listed => (places a).trans (if_pos listed), fun a out => (places a).trans (if_neg out)⟩

theorem markStarted_core (p seq at_ : Nat) (joined : Bool) (s : State) : ∃ f : IssuedOp → IssuedOp,
    (∀ q, (f q).started = true ∧ (f q).abandoned = false ∧ (f q).joins = joined ∧ (f q).startedAt = at_) ∧
    getCore (markStarted p seq at_ joined s) p =
      { getCore s p with window := (getCore s p).window.map (fun q => if q.seq = seq then f q else q) } ∧ OtherCores p s (markStarted p seq at_ joined s) :=
  ⟨fun q => { q with started := true, abandoned := false, joins := joined, startedAt := at_ }, fun _ => ⟨rfl, rfl, rfl, rfl⟩, getCore_updCore _ _ _,
    updCore_otherCores _ _ _⟩

/-- What every start leaves. -/
def MatBegun (s : State) (p : Nat) (o : IssuedOp) (t : State) (at_ : Nat) (joined : Bool) : Prop :=
  ((matOp o.word).post = true → ∀ a ∈ maskArrays (matOp o.word).mask,
    (tabGet [] (getCore t p).tiles a).length = (tabGet [] (getCore s p).tiles a).length + 1) ∧
  ((matOp o.word).post = false → (getCore t p).tiles = (getCore s p).tiles) ∧
  (∀ q ∈ (getCore t p).window, q.seq = o.seq → q.started = true ∧ q.abandoned = false ∧ q.joins = joined ∧ q.startedAt = at_) ∧
  (getCore t p).window.length = (getCore s p).window.length ∧ OtherCores p s t ∧ SameExcept [.cores] s t

/-- A start that reserves the op's entries, marks it as started and changes its core's unit. -/
theorem matBegun_starts (enter : Core → Core) (tiles : ∀ c, (enter c).tiles = (reserveTiles (matOp o.word) c).tiles)
    (window : ∀ c, (enter c).window = c.window) (at_ : Nat) (joined : Bool) (s : State) :
    MatBegun s p o (markStarted p o.seq at_ joined (updCore s p enter)) at_ joined := by
  obtain ⟨f, begun, core_, others⟩ := markStarted_core p o.seq at_ joined (updCore s p enter)
  obtain ⟨posts, silent⟩ := reserveTiles_tiles (matOp o.word) (getCore s p)
  have same : SameExcept [.cores] s (markStarted p o.seq at_ joined (updCore s p enter)) := (updCore_reach s p enter).trans (updCore_reach _ p _)
  rw [getCore_updCore] at core_
  refine ⟨fun post a listed => ?_, fun post => ?_, fun q listed mine => ?_, ?_, (updCore_otherCores s p enter).trans others, same⟩
  · rw [core_]
    dsimp only
    rw [tiles]
    exact posts post a listed
  · rw [core_]
    dsimp only
    rw [tiles]
    exact silent post
  · rw [core_] at listed
    obtain ⟨q', rfl⟩ := mem_updated listed mine
    exact begun q'
  · rw [core_]
    dsimp only
    rw [List.length_map, window]

theorem startMat_blocked (next : nextMat (getCore s p) = some o) (full : (matOp o.word).post = true)
    (held : ∃ a ∈ maskArrays (matOp o.word).mask, 8 ≤ (tabGet [] (getCore s p).tiles a).length) : startMat p s = s := by
  unfold startMat
  dsimp only
  rw [next]
  obtain ⟨a, listed, eight⟩ := held
  exact if_pos (.inr ⟨full, List.any_eq_true.2 ⟨a, listed, decide_eq_true eight⟩⟩)

/-- Nothing holds back an op whose queues have room. -/
theorem matRoom (may : (getCore s p).phase = .running ∨ o.abandoned = true)
    (room : (matOp o.word).post = true → ∀ a ∈ maskArrays (matOp o.word).mask, (tabGet [] (getCore s p).tiles a).length < 8) :
    ¬(((getCore s p).phase ≠ .running ∧ (!o.abandoned) = true) ∨ ((matOp o.word).post = true ∧
      (maskArrays (matOp o.word).mask).any (fun a => decide (8 ≤ (tabGet [] (getCore s p).tiles a).length)) = true)) := by
  rintro (⟨halted, sound⟩ | ⟨posts, full⟩)
  · refine may.elim halted (fun broken => ?_)
    rw [broken] at sound
    exact absurd sound (by decide)
  · obtain ⟨a, listed, eight⟩ := List.any_eq_true.1 full
    exact absurd (of_decide_eq_true eight) (Nat.not_le.2 (room posts a listed))

/-- The state in which an op has started alone. -/
def matAlone (p : Nat) (o : IssuedOp) (s : State) : State :=
  markStarted p o.seq (islTicks s (islOfCore p)) false
    (updCore s p (fun c => enterMat (newRun o.seq (islTicks s (islOfCore p))) (matOp o.word) (reserveTiles (matOp o.word) c)))

/-- The state in which an op has joined the chain before it. -/
def matJoined (p : Nat) (o : IssuedOp) (at_ : Nat) (s : State) : State :=
  markStarted p o.seq at_ true (updCore s p (fun c => { reserveTiles (matOp o.word) c with matNext := some (newRun o.seq at_) }))

theorem startMat_alone (next : nextMat (getCore s p) = some o) (may : (getCore s p).phase = .running ∨ o.abandoned = true)
    (room : (matOp o.word).post = true → ∀ a ∈ maskArrays (matOp o.word).mask, (tabGet [] (getCore s p).tiles a).length < 8)
    (free : (getCore s p).mat = none) : startMat p s = matAlone p o s := by
  unfold startMat
  dsimp only
  rw [next]
  refine (if_neg (matRoom may room)).trans ?_
  rw [free]
  rfl

theorem startMat_joins {q : IssuedOp} (next : nextMat (getCore s p) = some o) (may : (getCore s p).phase = .running ∨ o.abandoned = true)
    (room : (matOp o.word).post = true → ∀ a ∈ maskArrays (matOp o.word).mask, (tabGet [] (getCore s p).tiles a).length < 8)
    (running : (getCore s p).mat = some run) (before : findOp (getCore s p) run.seq = some q) (joins : o.joins = true) (goes : run.draining = false)
    (alone : (getCore s p).matNext = none) : startMat p s = matJoined p o (run.since + ticksOf (matOp q.word).chainCount) s := by
  unfold startMat
  dsimp only
  rw [next]
  refine (if_neg (matRoom may room)).trans ?_
  rw [running]
  dsimp only
  rw [if_neg (by rw [joins, goes, alone]; decide), before]
  rfl

theorem startMat_waits (next : nextMat (getCore s p) = some o) (running : (getCore s p).mat = some run)
    (apart : o.joins = false ∨ run.draining = true ∨ (getCore s p).matNext ≠ none) : startMat p s = s := by
  unfold startMat
  dsimp only
  rw [next]
  dsimp only
  split
  · rfl
  · rw [running]
    refine if_pos ?_
    obtain h | h | h := apart
    · exact .inl (by rw [h]; rfl)
    · exact .inr (.inl h)
    · exact .inr (.inr (Option.isSome_iff_ne_none.2 h))

theorem matAlone_core (p : Nat) (o : IssuedOp) (s : State) :
    (getCore (matAlone p o s) p).mat = some { newRun o.seq (islTicks s (islOfCore p)) with snap := snapOf (getCore s p) (matOp o.word) } ∧
    (getCore (matAlone p o s) p).arrMode = (matOp o.word).mode ∧ (getCore (matAlone p o s) p).arrClass = (matOp o.word).cls ∧
    (getCore (matAlone p o s) p).acc = (enterMat (newRun o.seq (islTicks s (islOfCore p))) (matOp o.word) (getCore s p)).acc := by
  have acc : (reserveTiles (matOp o.word) (getCore s p)).acc = (getCore s p).acc := reserveTiles_keeps (f := Core.acc) (fun _ _ => rfl) _ _
  obtain ⟨f, -, core_, -⟩ := markStarted_core p o.seq (islTicks s (islOfCore p)) false
    (updCore s p (fun c => enterMat (newRun o.seq (islTicks s (islOfCore p))) (matOp o.word) (reserveTiles (matOp o.word) c)))
  rw [getCore_updCore] at core_
  rw [matAlone, core_]
  refine ⟨?_, rfl, rfl, ?_⟩
  · simp only [enterMat, snapOf, acc]
  · simp only [enterMat, snapOf, acc]

theorem matJoined_core (p : Nat) (o : IssuedOp) (at_ : Nat) (s : State) :
    (getCore (matJoined p o at_ s) p).mat = (getCore s p).mat ∧ (getCore (matJoined p o at_ s) p).matNext = some (newRun o.seq at_) ∧
    (getCore (matJoined p o at_ s) p).acc = (getCore s p).acc := by
  obtain ⟨f, -, core_, -⟩ := markStarted_core p o.seq at_ true
    (updCore s p (fun c => { reserveTiles (matOp o.word) c with matNext := some (newRun o.seq at_) }))
  rw [getCore_updCore] at core_
  rw [matJoined, core_]
  exact ⟨reserveTiles_keeps (f := Core.mat) (fun _ _ => rfl) _ _, rfl, reserveTiles_keeps (f := Core.acc) (fun _ _ => rfl) _ _⟩

theorem matAlone_begun (p : Nat) (o : IssuedOp) (s : State) : MatBegun s p o (matAlone p o s) (islTicks s (islOfCore p)) false := by
  unfold matAlone
  generalize islTicks s (islOfCore p) = now
  exact matBegun_starts (fun c => enterMat (newRun o.seq now) (matOp o.word) (reserveTiles (matOp o.word) c)) (fun _ => rfl)
    (fun c => reserveTiles_keeps (f := Core.window) (fun _ _ => rfl) (matOp o.word) c) now false s

theorem matJoined_begun (p : Nat) (o : IssuedOp) (at_ : Nat) (s : State) : MatBegun s p o (matJoined p o at_ s) at_ true := by
  unfold matJoined
  exact matBegun_starts (fun c => { reserveTiles (matOp o.word) c with matNext := some (newRun o.seq at_) }) (fun _ => rfl)
    (fun c => reserveTiles_keeps (f := Core.window) (fun _ _ => rfl) (matOp o.word) c) at_ true s

end

end Sys2Proof.Machine
end
end

section
/-! SUPPORT. Overflows, replays and what an attempt leaves of its core (R96, R132-R134, R201), and the statement O18. -/
section
namespace Sys2Proof.Machine

/-! ### What an attempt's outputs leave of their core -/

/-- What does not read a core's generators, flags and block faults. -/
def UnitBlind {β : Type} (f : Core → β) : Prop := ∀ c g x d, f { c with gens := g, fpStatus := x, dzFaults := d } = f c

section
variable {β : Type} {f : Core → β} {s : State} {p : Nat}

theorem raiseFlags_keeps (blind : UnitBlind f) (flags : Nat) (s : State) : CoresKeep f s (raiseFlags p flags s) := fun q => by
  obtain ⟨raised, others⟩ := raiseFlags_core (p := p) flags s
  by_cases same : q = p
  · subst same
    rw [raised]
    exact blind _ _ _ _
  · rw [others q same]

/-- Blocks that are at fault, counted on their core and in its invocation. -/
def dzCounted (p n i : Nat) (s : State) : State :=
  updInv (setCore s p { getCore s p with dzFaults := inc64 (getCore s p).dzFaults n }) i (fun x => { x with sizeFault := true })

theorem noteDz_counts (first : Bool) (r : DzResult) (s : State) :
    noteDz p first r s = s ∨ ∃ n i, SameExcept [.log] (dzCounted p n i s) (noteDz p first r s) := by
  have logged (i : Nat) (t : State) :
      SameExcept [.log] t (forEach r.sizeFaults (fun b t => logEvent .dzSizeFault (islOfCore p) (leBytes 4 b ++ leBytes 8 i) t) t) :=
    .forEach (fun _ _ => logEvent_reach _ _ _ _) _ (.refl _ t)
  unfold noteDz
  dsimp only
  generalize (r.sizeFaults.length + (match r.headerFault with | some h => h.2 | none => 0)) = n
  by_cases none_ : n = 0
  · exact .inl (if_pos none_)
  refine .inr ⟨n, (getCore s p).inv.getD 0, ?_⟩
  rw [if_neg none_]
  split
  · exact .refl _ _
  refine (logged ((getCore s p).inv.getD 0) (dzCounted p n ((getCore s p).inv.getD 0) s)).trans ?_
  split
  · exact logEvent_reach _ _ _ _
  · exact .refl _ _

/-- Faults of blocks change nothing on a core but their count. -/
theorem noteDz_lasts (blind : ∀ c d, f { c with dzFaults := d } = f c) (first : Bool) (r : DzResult) (s : State) : CoresKeep f s (noteDz p first r s) := by
  obtain none_ | ⟨n, i, logs⟩ := noteDz_counts (p := p) first r s
  · rw [none_]
    exact .refl f s
  · exact ((CoresKeep.setCore (blind (getCore s p) _)).trans ((updInv_reach _ _ _).coresKeep rfl)).trans (logs.coresKeep rfl)

theorem noteDz_keeps (blind : UnitBlind f) (first : Bool) (r : DzResult) (s : State) : CoresKeep f s (noteDz p first r s) :=
  noteDz_lasts (fun c d => blind c c.gens c.fpStatus d) first r s

theorem noteDz_flags (first : Bool) (r : DzResult) (s : State) : CoresKeep Core.fpStatus s (noteDz p first r s) :=
  noteDz_lasts (fun _ _ => rfl) first r s

theorem noteDz_others (first : Bool) (r : DzResult) (s : State) : OtherCores p s (noteDz p first r s) := by
  obtain none_ | ⟨n, i, logs⟩ := noteDz_counts (p := p) first r s
  · rw [none_]
    exact .refl p s
  · exact ((setCore_otherCores s p _).trans ((updInv_reach _ _ _).otherCores rfl p)).trans (logs.otherCores rfl p)

/-- An array's rows are written, and its core's generators and flags go on. -/
def rowsOut (p : Nat) (d : EpiDesc) (a : Nat) (out : EpiOut) (t : State) : State :=
  raiseFlags p out.flags (updCore (writeRows p d a out.rows t) p (fun c => { c with gens := out.gens }))

theorem rowsOut_keeps (blind : UnitBlind f) (d : EpiDesc) (a : Nat) (out : EpiOut) (t : State) : CoresKeep f t (rowsOut p d a out t) :=
  (((writeRows_reach _ _ _ _ _).coresKeep rfl).trans (CoresKeep.updCore (fun c => blind c out.gens c.fpStatus c.dzFaults))).trans
    (raiseFlags_keeps blind out.flags _)

theorem rowsOut_others (d : EpiDesc) (a : Nat) (out : EpiOut) (t : State) : OtherCores p t (rowsOut p d a out t) :=
  (((writeRows_reach _ _ _ _ _).otherCores rfl p).trans (updCore_otherCores _ p _)).trans (raiseFlags_core out.flags _).2

end

/-! ### Overflows (R132-R134) -/

section
variable {s : State} {p : Nat} {run : MatRun} {o : IssuedOp}

/-- The rows that an attempt has given before it stops. -/
def attemptRows (s : State) (p : Nat) (v : MatIn) (d : EpiDesc) (left : Nat) (outs : List (Nat × ArrayOut)) (u : State) : State :=
  forEach outs (fun e t => if left = 0 then t else
    rowsOut p d e.1 (epiArray s p { v.op with m := left } d e.2.acc e.2.counted e.1 (getCore t p).gens cupNone) t) u

/-- The op that replays, its bound longer by its isolated count and 192 cycles (R201). -/
def replayedOp (v : MatIn) (q : IssuedOp) : IssuedOp := { q with extra := q.extra + v.op.isolated + 192 }

/-- The core once a replay has been called for, before the chain behind it is broken. -/
def replayBegun (o : IssuedOp) (v : MatIn) (run : MatRun) (arrays : List Nat) (c : Core) : Core :=
  let snap := run.snap.map (fun e => (e.1, if arrays.contains e.1 then raised e.2 else e.2))
  { c with mat := some { run with snap := snap, draining := true, replays := run.replays + 1, satArrays := [] },
           acc := snap.foldl (fun t e => tabSet arrAccReset t e.1 e.2) c.acc, accReplays := inc64 c.accReplays 1,
           window := c.window.map (fun q => if q.seq = o.seq then replayedOp v q else q) }

/-- The core once a replay has been called for. -/
def replayCore (o : IssuedOp) (v : MatIn) (run : MatRun) (arrays : List Nat) (c : Core) : Core := abandonNext (replayBegun o v run arrays c)

/-- The replay is counted, in the invocation too. -/
def replayCounted (p : Nat) (inv : Option Nat) (s : State) : State :=
  addFree p (fun c n => { c with arrMacs := inc64 c.arrMacs n })
    (match inv with | some i => updInv s i (fun x => { x with replays := x.replays + 1 }) | none => s)

theorem overflowMat_replays (runs : (getCore s p).mat = some run) (found : findOp (getCore s p) run.seq = some o) (goes : run.draining = false)
    (hot : replayArrays (matIn s p o) run (matOuts s (matIn s p o) run) ≠ []) : overflowMat p s =
    replayCounted p (getCore s p).inv (updCore (noteDz p (run.replays == 0) (opDz s p o)
      (attemptRows s p (matIn s p o) (epiDesc s p (matIn s p o).refs.epi)
        (rowsLeft (matIn s p o).op (detectCycle (matIn s p o) (replayArrays (matIn s p o) run (matOuts s (matIn s p o) run)) (matOuts s (matIn s p o) run)))
        (matOuts s (matIn s p o) run) s)) p
      (replayCore o (matIn s p o) run (replayArrays (matIn s p o) run (matOuts s (matIn s p o) run)))) := by
  unfold overflowMat
  dsimp only
  rw [runs]
  dsimp only
  rw [found]
  dsimp only
  rw [if_neg (by rw [goes]; decide), if_neg hot]
  rfl

theorem attemptRows_keeps {β : Type} {f : Core → β} (blind : UnitBlind f) (v : MatIn) (d : EpiDesc) (left : Nat) (outs : List (Nat × ArrayOut)) (u : State) :
    CoresKeep f u (attemptRows s p v d left outs u) :=
  .forEach (fun e t => by
    split
    · exact .refl f t
    · exact rowsOut_keeps blind _ _ _ _) outs u

theorem OtherCores.each {α : Type} {m : α → State → State} (one : ∀ a t, OtherCores p t (m a t)) : ∀ (l : List α) (t : State), OtherCores p t (forEach l m t)
  | [], t => .refl p t
  | a :: l, t => (one a t).trans (OtherCores.each one l (m a t))

theorem attemptRows_others (v : MatIn) (d : EpiDesc) (left : Nat) (outs : List (Nat × ArrayOut)) (u : State) :
    OtherCores p u (attemptRows s p v d left outs u) :=
  .each (fun e t => by
    split
    · exact .refl p t
    · exact rowsOut_others _ _ _ _) outs u

theorem abandonNext_keeps {β : Type} {f : Core → β} (blind : ∀ c n t w, f { c with matNext := n, tiles := t, window := w } = f c) (c : Core) :
    f (abandonNext c) = f c := by
  unfold abandonNext
  split
  · rfl
  · exact blind c _ _ _

theorem abandonNext_none (c : Core) : (abandonNext c).matNext = none := by
  unfold abandonNext
  split
  next gone => exact gone
  · rfl

/-- An op that a replay leaves alone stays in the window as it is. -/
theorem abandonNext_apart {c : Core} {q : IssuedOp} (listed : q ∈ c.window) (apart : ∀ n, c.matNext = some n → n.seq ≠ q.seq) :
    q ∈ (abandonNext c).window := by
  unfold abandonNext
  split
  · exact listed
  next n next => exact List.mem_map.2 ⟨q, listed, if_neg (fun same => apart n next same.symm)⟩

/-- The op that had joined the chain of the one that replays is abandoned (R134). -/
theorem abandonNext_behind {c : Core} {n : MatRun} {q : IssuedOp} (behind : c.matNext = some n) (there : findOp c n.seq = some q) :
    { q with abandoned := true, joins := false, extra := q.extra + ((matOp q.word).isolated - (matOp q.word).chainCount) } ∈ (abandonNext c).window := by
  have listed : q ∈ c.window := List.mem_of_find?_eq_some there
  have seq : q.seq = n.seq := by simpa using List.find?_some there
  unfold abandonNext
  rw [behind]
  dsimp only
  rw [there]
  exact List.mem_map.2 ⟨q, listed, if_pos seq⟩

theorem replayCore_replayed {v : MatIn} {arrays : List Nat} {c : Core} {q : IssuedOp} (listed : q ∈ c.window) (same : q.seq = o.seq)
    (apart : ∀ n, c.matNext = some n → n.seq ≠ o.seq) :
    replayedOp v q ∈ (replayCore o v run arrays c).window := by
  rw [replayCore]
  refine abandonNext_apart (List.mem_map.2 ⟨q, listed, if_pos same⟩) (fun n next => ?_)
  have mine : (replayedOp v q).seq = o.seq := same
  rw [mine]
  exact apart n next

theorem replayCore_abandoned {v : MatIn} {arrays : List Nat} {c : Core} {n : MatRun} {q : IssuedOp} (behind : c.matNext = some n) (apart : n.seq ≠ o.seq)
    (there : findOp c n.seq = some q) :
    { q with abandoned := true, joins := false, extra := q.extra + ((matOp q.word).isolated - (matOp q.word).chainCount) } ∈
      (replayCore o v run arrays c).window := by
  have seq : q.seq = n.seq := by simpa using List.find?_some there
  have still : findOp (replayBegun o v run arrays c) n.seq = some q := by
    have found : (c.window.map (fun q => if q.seq = o.seq then replayedOp v q else q)).find? (fun q => q.seq == n.seq) =
        (c.window.find? (fun q => q.seq == n.seq)).map (fun q => if q.seq = o.seq then replayedOp v q else q) := by
      rw [List.find?_map]
      congr 2
      funext r
      dsimp only [Function.comp_apply]
      split <;> rfl
    refine found.trans ?_
    have there' : c.window.find? (fun q => q.seq == n.seq) = some q := there
    rw [there', Option.map_some, if_neg (by rwa [seq])]
  rw [replayCore]
  exact abandonNext_behind behind still

theorem replayCore_unit (o : IssuedOp) (v : MatIn) (run : MatRun) (arrays : List Nat) (c : Core) :
    (replayCore o v run arrays c).mat = some { run with
      snap := run.snap.map (fun e => (e.1, if arrays.contains e.1 then raised e.2 else e.2))
      draining := true, replays := run.replays + 1, satArrays := [] } ∧
    (replayCore o v run arrays c).matNext = none ∧ (replayCore o v run arrays c).accReplays = c.accReplays + 1 := by
  rw [replayCore]
  exact ⟨abandonNext_keeps (f := Core.mat) (fun _ _ _ _ => rfl) _, abandonNext_none _, abandonNext_keeps (f := Core.accReplays) (fun _ _ _ _ => rfl) _⟩

theorem replayCounted_core (inv : Option Nat) (s : State) : ∃ n, getCore (replayCounted p inv s) p = { getCore s p with arrMacs := n } ∧
    OtherCores p s (replayCounted p inv s) := by
  unfold replayCounted
  generalize noted : (match inv with | some i => updInv s i (fun x => { x with replays := x.replays + 1 }) | none => s) = t
  have same : SameExcept [.qs] s t := by
    rw [← noted]
    split
    · exact updInv_reach _ _ _
    · exact .refl _ s
  obtain ⟨n, counted, others⟩ := addFree_core (p := p) (fun c n => { c with arrMacs := inc64 c.arrMacs n }) t
  refine ⟨inc64 (getCore s p).arrMacs n, ?_, (same.otherCores rfl p).trans others⟩
  rw [counted, same.getCore_eq rfl]

/-- What a replay leaves of its core. -/
theorem overflowMat_core (runs : (getCore s p).mat = some run) (found : findOp (getCore s p) run.seq = some o) (goes : run.draining = false)
    (hot : replayArrays (matIn s p o) run (matOuts s (matIn s p o) run) ≠ []) : ∃ c n,
    getCore (overflowMat p s) p = { replayCore o (matIn s p o) run (replayArrays (matIn s p o) run (matOuts s (matIn s p o) run)) c with arrMacs := n } ∧
    c.window = (getCore s p).window ∧ c.matNext = (getCore s p).matNext ∧ c.accReplays = (getCore s p).accReplays ∧
    OtherCores p s (overflowMat p s) := by
  rw [overflowMat_replays runs found goes hot]
  generalize replayArrays (matIn s p o) run (matOuts s (matIn s p o) run) = arrays
  generalize rowsLeft (matIn s p o).op (detectCycle (matIn s p o) arrays (matOuts s (matIn s p o) run)) = left
  have rows {β : Type} {f : Core → β} (blind : UnitBlind f) := (attemptRows_keeps (s := s) (p := p) blind (matIn s p o)
    (epiDesc s p (matIn s p o).refs.epi) left (matOuts s (matIn s p o) run) s).trans (noteDz_keeps (p := p) blind (run.replays == 0) (opDz s p o) _)
  have others := (attemptRows_others (s := s) (p := p) (matIn s p o) (epiDesc s p (matIn s p o).refs.epi) left (matOuts s (matIn s p o) run) s).trans
    (noteDz_others (p := p) (run.replays == 0) (opDz s p o) _)
  generalize noteDz p (run.replays == 0) (opDz s p o) (attemptRows s p (matIn s p o) (epiDesc s p (matIn s p o).refs.epi) left
    (matOuts s (matIn s p o) run) s) = u at rows others ⊢
  obtain ⟨n, core_, others'⟩ := replayCounted_core (p := p) (getCore s p).inv (updCore u p (replayCore o (matIn s p o) run arrays))
  rw [getCore_updCore] at core_
  exact ⟨getCore u p, n, core_, rows (f := Core.window) (fun _ _ _ _ => rfl) p, rows (f := Core.matNext) (fun _ _ _ _ => rfl) p,
    rows (f := Core.accReplays) (fun _ _ _ _ => rfl) p, (others.trans (updCore_otherCores _ p _)).trans others'⟩

end

end Sys2Proof.Machine
end
end

section
/-! SUPPORT. The epilogue of a MAT op, what it writes and what it leaves of its core (R54, R137-R163), and the statement O18. -/
section
namespace Sys2Proof.Machine

/-! ### The rows of an array (R138-R142) -/

section
variable {s : State} {p : Nat} {o : MatOp} {d : EpiDesc} {acc : ArrAcc} {counted : List Nat} {a n : Nat}

theorem packMarked_length (f : Nat) (cs : List (Nat × Bool)) : (packMarked f cs).length = packedBytes f cs.length := by
  simp [packMarked, packCodes]

theorem epiNarrow_codes (lane : Nat) (e : EpiElem) (div : Num) (t : List (Nat × Bool) × EpiOut) :
    (epiNarrow d lane e div t).1.length = t.1.length + 1 ∧ (epiNarrow d lane e div t).2.rows = t.2.rows := by
  obtain ⟨cs, r⟩ := t
  exact ⟨List.length_append, rfl⟩

theorem epiNarrow_each (lane : Nat → Nat) (e : Nat → EpiElem) (div : Num) : ∀ (l : List Nat) (t : List (Nat × Bool) × EpiOut),
    (l.foldl (fun r n => epiNarrow d (lane n) (e n) div r) t).1.length = t.1.length + l.length ∧
    (l.foldl (fun r n => epiNarrow d (lane n) (e n) div r) t).2.rows = t.2.rows
  | [], _ => ⟨rfl, rfl⟩
  | n :: l, t => by
    obtain ⟨len, rows⟩ := epiNarrow_each lane e div l (epiNarrow d (lane n) (e n) div t)
    obtain ⟨one, same⟩ := epiNarrow_codes (d := d) (lane n) (e n) div t
    rw [List.foldl_cons, List.length_cons]
    exact ⟨by omega, rows.trans same⟩

/-- The epilogue of a row appends one packed row, and that of a wide row in FP64 one too. -/
theorem epiRow_rows (s2 : Option Num) (m : Nat) (t : EpiOut) :
    ∃ row, row.length = packedBytes d.outFmt o.cols ∧ (epiRow s p o d acc counted s2 a m t).rows = t.rows ++ [row] := by
  unfold epiRow
  dsimp only
  generalize (if (d.rowQuant && s2.isNone) = true then _ else _ : List EpiElem) = es
  have each (div : Num) := epiNarrow_each (d := d) (fun n => 64 * a + n) (fun n => es.getD n { v := .zero false, special := false, poison := false }) div
    (List.range o.cols) ([], t)
  refine ⟨_, ?_, congrArg (· ++ [_]) (each _).2⟩
  rw [packMarked_length, (each _).1, List.length_range]
  exact congrArg _ (Nat.zero_add _)

theorem epiWide64_rows (m : Nat) (t : EpiOut) : ∃ row, row.length = packedBytes 10 o.cols ∧ (epiWide64 o acc m t).rows = t.rows ++ [row] :=
  ⟨_, by rw [packMarked_length, List.length_map, List.length_range], rfl⟩

/-- The bytes of an output row. -/
def rowBytesOf (o : MatOp) (d : EpiDesc) : Nat := packedBytes (if o.fp64 then 10 else d.outFmt) o.cols

/-- Steps that each append one row give as many rows as there are steps. -/
theorem rows_each {f : EpiOut → Nat → EpiOut} (one : ∀ t m, ∃ row : PData, row.length = n ∧ (f t m).rows = t.rows ++ [row]) :
    ∀ (l : List Nat) (t : EpiOut), (∀ row ∈ t.rows, row.length = n) →
      (l.foldl f t).rows.length = t.rows.length + l.length ∧ ∀ row ∈ (l.foldl f t).rows, row.length = n
  | [], _, fits => ⟨rfl, fits⟩
  | m :: l, t, fits => by
    obtain ⟨row, len, appended⟩ := one t m
    obtain ⟨many, all⟩ := rows_each one l (f t m) (fun r listed => by
      rw [appended] at listed
      exact (List.mem_append.1 listed).elim (fits r) (fun new => by rw [List.mem_singleton.1 new, len]))
    refine ⟨?_, all⟩
    rw [List.foldl_cons, many, appended, List.length_append, List.length_singleton, List.length_cons]
    omega

/-- The rows of an array are as many as its op has, all of one length. -/
theorem epiArray_rows (gens : Tab Dword) (cup : CupPart) : (epiArray s p o d acc counted a gens cup).rows.length = o.rows ∧
    ∀ row ∈ (epiArray s p o d acc counted a gens cup).rows, row.length = rowBytesOf o d := by
  have one (t : EpiOut) (m : Nat) : ∃ row : PData, row.length = rowBytesOf o d ∧
      (if o.fp64 then epiWide64 o acc m t else epiRow s p o d acc counted (tileScaleAt s p (d.qscale + 80 * a)) a m t).rows = t.rows ++ [row] := by
    unfold rowBytesOf
    split
    · exact epiWide64_rows m t
    · exact epiRow_rows (tileScaleAt s p (d.qscale + 80 * a)) m t
  obtain ⟨many, all⟩ := rows_each one (List.range o.rows) { rows := [], codes := [], flags := 0, gens := gens, cup := cup }
    (fun _ none_ => absurd none_ List.not_mem_nil)
  refine ⟨many.trans ?_, all⟩
  rw [List.length_range]
  exact Nat.zero_add _

end

/-! ### The hand-off (R137-R163) -/

section
variable {s t : State} {p a n k : Nat} {d : EpiDesc} {v : MatIn} {outs : List (Nat × ArrayOut)}

theorem writeRows_within {rows : List PData} (same : t.blend.cur = s.blend.cur) (many : rows.length = n) (all : ∀ row ∈ rows, row.length = k) :
    WritesWithin (fun x => ∃ r < n, PortHits s p 1 (d.out + a * d.arrayStride + r * d.outStride) k x) t (writeRows p d a rows t) := by
  unfold writeRows
  refine .each _ t (fun e listed u cur => ?_)
  obtain ⟨inside, row⟩ := List.of_mem_zip (a := e.1) (b := e.2) listed
  rw [List.mem_range, many] at inside
  exact (portWrite_hits (cur.trans same) (all e.2 row)).weaken (fun x hit => ⟨e.1, inside, hit⟩)

/-- What the epilogue of one array writes: its rows, and its block of row scales. -/
def handArray (p : Nat) (v : MatIn) (d : EpiDesc) (a : Nat) (out : EpiOut) (t : State) : State :=
  let u := updCore (writeRows p d a out.rows t) p (fun c => { c with gens := out.gens })
  raiseFlags p out.flags (if d.rowQuant then portWrite p 1 (d.qscale + 80 * a + 4) (clean (scaleBlock v.op.rows d.outFmt out.codes)) u else u)

/-- The epilogues of all masked arrays, one after another. -/
def handArrays (s : State) (p : Nat) (v : MatIn) (d : EpiDesc) (outs : List (Nat × ArrayOut)) (x : State × CupPart) : State × CupPart :=
  outs.foldl (fun (t : State × CupPart) (e : Nat × ArrayOut) =>
    (handArray p v d e.1 (epiArray s p v.op d e.2.acc e.2.counted e.1 (getCore t.1 p).gens t.2) t.1,
      (epiArray s p v.op d e.2.acc e.2.counted e.1 (getCore t.1 p).gens t.2).cup)) x

/-- The statistics of an op that measures its results are added to those in the scratchpad. -/
def handStats (p : Nat) (d : EpiDesc) (x : State × CupPart) : State :=
  if d.cupping then portWrite p 1 d.stats (clean (cupAdd (scrBytes x.1 p d.stats 32) x.2)) x.1 else x.1

/-- A tile scale that an op has met and that is not valid is logged (R150). -/
def handLogged (s : State) (p : Nat) (o : IssuedOp) (d : EpiDesc) (outs : List (Nat × ArrayOut)) (t : State) : State :=
  match if d.rowQuant then outs.find? (fun e => (tileScaleAt s p (d.qscale + 80 * e.1)).isNone) else none with
  | some e => logEvent .quantScaleInvalid (islOfCore p) (leBytes 8 o.addr ++ scrBytes s p (d.qscale + 80 * e.1) 4) t
  | none => t

theorem handOff_steps (o : IssuedOp) (v : MatIn) (outs : List (Nat × ArrayOut)) (s : State) : handOff p o v outs s =
    handLogged s p o (epiDesc s p v.refs.epi) outs (handStats p (epiDesc s p v.refs.epi) (handArrays s p v (epiDesc s p v.refs.epi) outs (s, cupNone))) := rfl

theorem handStats_reach (x : State × CupPart) : SameExcept [.isl, .mem, .poison] x.1 (handStats p d x) := by
  unfold handStats
  split
  · exact portWrite_reach _ _ _ _ _
  · exact .refl _ _

theorem handLogged_reach (s : State) (o : IssuedOp) (t : State) : SameExcept [.log] t (handLogged s p o d outs t) := by
  unfold handLogged
  split
  · exact logEvent_reach _ _ _ _
  · exact .refl _ _

/-- What lasts through the epilogue of each array lasts through them all. -/
theorem handArrays_lasts {R : State → State → Prop} (refl : ∀ t, R t t) (trans : ∀ t u w, R t u → R u w → R t w) (s : State) :
    ∀ (outs : List (Nat × ArrayOut)) (x : State × CupPart),
      (∀ e ∈ outs, ∀ gens cup u, R x.1 u → R u (handArray p v d e.1 (epiArray s p v.op d e.2.acc e.2.counted e.1 gens cup) u)) →
      R x.1 (handArrays s p v d outs x).1
  | [], x, _ => refl x.1
  | e :: outs, x, one => by
    have first := one e List.mem_cons_self (getCore x.1 p).gens x.2 x.1 (refl x.1)
    exact trans _ _ _ first (handArrays_lasts refl trans s outs
      (handArray p v d e.1 (epiArray s p v.op d e.2.acc e.2.counted e.1 (getCore x.1 p).gens x.2) x.1,
        (epiArray s p v.op d e.2.acc e.2.counted e.1 (getCore x.1 p).gens x.2).cup)
      (fun e' later gens cup u before => one e' (List.mem_cons_of_mem e later) gens cup u (trans _ _ _ first before)))

/-- The bytes that the hand-off of an op may write. -/
def HandHits (s : State) (p : Nat) (v : MatIn) (d : EpiDesc) (outs : List (Nat × ArrayOut)) (x : Nat) : Prop :=
  (∃ e ∈ outs, ∃ r < v.op.rows, PortHits s p 1 (d.out + e.1 * d.arrayStride + r * d.outStride) (rowBytesOf v.op d) x) ∨
  (d.rowQuant = true ∧ ∃ e ∈ outs, PortHits s p 1 (d.qscale + 80 * e.1 + 4) 76 x) ∨ (d.cupping = true ∧ PortHits s p 1 d.stats 32 x)

theorem handArray_within {out : EpiOut} (same : t.blend.cur = s.blend.cur) (many : out.rows.length = v.op.rows)
    (all : ∀ row ∈ out.rows, row.length = rowBytesOf v.op d) :
    WritesWithin (fun x => (∃ r < v.op.rows, PortHits s p 1 (d.out + a * d.arrayStride + r * d.outStride) (rowBytesOf v.op d) x) ∨
      (d.rowQuant = true ∧ PortHits s p 1 (d.qscale + 80 * a + 4) 76 x)) t (handArray p v d a out t) := by
  have rows := writeRows_within (s := s) (t := t) (p := p) (a := a) (d := d) same many all
  have gens : WritesWithin (fun _ => False) (writeRows p d a out.rows t) (updCore (writeRows p d a out.rows t) p (fun c => { c with gens := out.gens })) :=
    .of_same (updCore_reach _ p _) rfl rfl
  have before := (rows.weaken (fun x hit => Or.inl hit)).trans (gens.weaken (Q := fun x =>
    (∃ r < v.op.rows, PortHits s p 1 (d.out + a * d.arrayStride + r * d.outStride) (rowBytesOf v.op d) x) ∨
      (d.rowQuant = true ∧ PortHits s p 1 (d.qscale + 80 * a + 4) 76 x)) (fun _ => False.elim))
  unfold handArray
  refine (before.trans ?_).trans (.of_same (raiseFlags_reach p out.flags _) rfl rfl)
  split
  next quant => exact (portWrite_hits (before.cur.trans same) (scaleBlock_length _ _ _)).weaken (fun x hit => .inr ⟨quant, hit⟩)
  · exact .refl _ _

theorem handOff_within (o : IssuedOp) (s : State) :
    WritesWithin (HandHits s p v (epiDesc s p v.refs.epi) outs) s (handOff p o v outs s) := by
  rw [handOff_steps]
  generalize epiDesc s p v.refs.epi = d
  have arrays := handArrays_lasts (p := p) (v := v) (d := d) (R := WritesWithin (HandHits s p v d outs)) (fun t => .refl _ t) (fun _ _ _ h h' => h.trans h') s outs
    (s, cupNone) (fun e listed gens cup u before => by
      obtain ⟨many, all⟩ := epiArray_rows (s := s) (p := p) (o := v.op) (d := d) (acc := e.2.acc) (counted := e.2.counted) (a := e.1) gens cup
      exact (handArray_within before.cur many all).weaken (fun x hit =>
        hit.elim (fun ⟨r, inside, hit⟩ => .inl ⟨e, listed, r, inside, hit⟩) (fun ⟨quant, hit⟩ => .inr (.inl ⟨quant, e, listed, hit⟩))))
  have stats : WritesWithin (HandHits s p v d outs) (handArrays s p v d outs (s, cupNone)).1 (handStats p d (handArrays s p v d outs (s, cupNone))) := by
    unfold handStats
    split
    next cups => exact (portWrite_hits arrays.cur (cupAdd_length _ _)).weaken (fun x hit => .inr (.inr ⟨cups, hit⟩))
    · exact .refl _ _
  exact (arrays.trans stats).trans (.of_same (handLogged_reach s o _) rfl rfl)

theorem handScales_reach (out : EpiOut) (u : State) : SameExcept [.isl, .mem, .poison] u
    (if d.rowQuant then portWrite p 1 (d.qscale + 80 * a + 4) (clean (scaleBlock v.op.rows d.outFmt out.codes)) u else u) := by
  split
  · exact portWrite_reach _ _ _ _ _
  · exact .refl _ u

theorem handOff_keeps {β : Type} {f : Core → β} (blind : UnitBlind f) (o : IssuedOp) (s : State) : CoresKeep f s (handOff p o v outs s) := by
  rw [handOff_steps]
  generalize epiDesc s p v.refs.epi = d
  refine ((handArrays_lasts (p := p) (v := v) (d := d) (R := CoresKeep f) (fun t => .refl f t) (fun _ _ _ h h' => h.trans h') s outs (s, cupNone)
    (fun e _ gens cup u _ => ?_)).trans ((handStats_reach _).coresKeep rfl)).trans ((handLogged_reach s o _).coresKeep rfl)
  unfold handArray
  exact ((((writeRows_reach _ _ _ _ _).coresKeep rfl).trans (CoresKeep.updCore (fun c => blind c _ c.fpStatus c.dzFaults))).trans
    ((handScales_reach _ _).coresKeep rfl)).trans (raiseFlags_keeps blind _ _)

theorem handOff_others (o : IssuedOp) (s : State) : OtherCores p s (handOff p o v outs s) := by
  rw [handOff_steps]
  generalize epiDesc s p v.refs.epi = d
  refine ((handArrays_lasts (p := p) (v := v) (d := d) (R := OtherCores p) (fun t => .refl p t) (fun _ _ _ h h' => h.trans h') s outs (s, cupNone)
    (fun e _ gens cup u _ => ?_)).trans ((handStats_reach _).otherCores rfl p)).trans ((handLogged_reach s o _).otherCores rfl p)
  unfold handArray
  exact ((((writeRows_reach _ _ _ _ _).otherCores rfl p).trans (updCore_otherCores _ p _)).trans
    ((handScales_reach _ _).otherCores rfl p)).trans (raiseFlags_core _ _).2

end

end Sys2Proof.Machine
end
end

section
/-! SUPPORT. A MAT op that completes (R103, R118, R133, R138, R172, R189), and the statement O18. -/
section
namespace Sys2Proof.Machine

/-! ### The op that goes on -/

section
variable {c : Core}

/-- What does not read the unit's op, its arrays' accumulations and their kind. -/
def ChainBlind {β : Type} (f : Core → β) : Prop := ∀ c m n t k x, f { c with mat := m, matNext := n, acc := t, arrMode := k, arrClass := x } = f c

theorem nextOfChain_alone (alone : c.matNext = none) : nextOfChain c = c := by rw [nextOfChain, alone]

theorem nextOfChain_joined {n : MatRun} (joined : c.matNext = some n) :
    ∃ snap, (nextOfChain c).mat = some { n with snap := snap } ∧ (nextOfChain c).matNext = none := by
  unfold nextOfChain
  rw [joined]
  exact ⟨_, rfl, rfl⟩

theorem nextOfChain_keeps {β : Type} {f : Core → β} (blind : ChainBlind f) (c : Core) : f (nextOfChain c) = f c := by
  unfold nextOfChain
  split
  · rfl
  · exact blind c _ _ _ _ _

end

/-! ### The steps of a completion -/

section
variable {s : State} {p : Nat} {o : IssuedOp} {v : MatIn} {run : MatRun} {outs : List (Nat × ArrayOut)}

/-- What its outputs raise is noted: saturation, faults of blocks, and flags. -/
def matNoted (p : Nat) (o : IssuedOp) (run : MatRun) (outs : List (Nat × ArrayOut)) (dz : DzResult) (s : State) : State :=
  raiseFlags p (outs.foldl (fun f e => f ||| e.2.flags) 0) (noteDz p (run.replays == 0) dz (noteSaturation p o run outs s))

/-- The op's tiles go to their queues. -/
def matPosted (p : Nat) (m : MatOp) (d : EpiDesc) (outs : List (Nat × ArrayOut)) (s : State) : State :=
  if m.post then forEach outs (fun e t => postTile p e.1 m d t) s else s

/-- A saturated accumulation marks the invocation (R136). -/
def matMarked (inv : Option Nat) (sat : Bool) (s : State) : State :=
  match inv with
  | some i => updInv s i (fun x => { x with satPoison := x.satPoison || sat })
  | none => s

/-- What an op gives to the world: notes, rows and tiles. -/
def matGiven (s : State) (p : Nat) (o : IssuedOp) (v : MatIn) (run : MatRun) (outs : List (Nat × ArrayOut)) : State :=
  matMarked (getCore s p).inv (outs.any (fun e => e.2.counted != []))
    (matPosted p v.op (epiDesc s p v.refs.epi) outs
      (if v.op.handoff then handOff p o v outs (matNoted p o run outs (opDz s p o) s) else matNoted p o run outs (opDz s p o) s))

/-- What an array holds once its op has completed. -/
def accLeft (v : MatIn) (e : Nat × ArrayOut) : ArrAcc :=
  if v.op.handoff then arrAccReset else { e.2.acc with kept := true, poison := e.2.counted.foldl setIns e.2.acc.poison }

/-- The core once its op is done, before what is behind it goes on. -/
def coreDone (v : MatIn) (outs : List (Nat × ArrayOut)) (c : Core) : Core :=
  { c with mat := none, acc := outs.foldl (fun t e => tabSet arrAccReset t e.1 (accLeft v e)) c.acc,
           accSats := inc64 c.accSats ((outs.map (fun e => e.2.counted.length)).foldl (· + ·) 0),
           arrMacs := inc64 c.arrMacs (v.op.macs * outs.length) }

theorem completeMat_completes (runs : (getCore s p).mat = some run) (found : findOp (getCore s p) run.seq = some o) (goes : run.draining = false)
    (cold : replayArrays (matIn s p o) run (matOuts s (matIn s p o) run) = []) : completeMat p s =
    opRetired p o.seq (fun c n => { c with arrBusy := inc64 c.arrBusy n })
      (updCore (matGiven s p o (matIn s p o) run (matOuts s (matIn s p o) run)) p
        (fun c => nextOfChain (coreDone (matIn s p o) (matOuts s (matIn s p o) run) c))) := by
  unfold completeMat
  dsimp only
  rw [runs]
  dsimp only
  rw [found]
  dsimp only
  rw [if_neg (by rw [goes, cold]; decide)]
  rfl

theorem matNoted_same (dz : DzResult) (s : State) : SameExcept [.log, .qs, .cores] s (matNoted p o run outs dz s) :=
  (((noteSaturation_reach _ _ _ _ _).weaken rfl).trans (noteDz_reach _ _ _ _)).trans ((raiseFlags_reach _ _ _).weaken rfl)

theorem matPosted_same (m : MatOp) (d : EpiDesc) (s : State) : SameExcept [.cores] s (matPosted p m d outs s) := by
  unfold matPosted
  split
  · exact .forEach (fun _ _ => postTile_reach _ _ _ _ _) _ (.refl _ s)
  · exact .refl _ s

theorem matMarked_same (inv : Option Nat) (sat : Bool) (s : State) : SameExcept [.qs] s (matMarked inv sat s) := by
  unfold matMarked
  split
  · exact updInv_reach _ _ _
  · exact .refl _ s

/-- What does not read what an op's outputs change on a core. -/
def GivenBlind {β : Type} (f : Core → β) : Prop :=
  UnitBlind f ∧ ∀ c t n, f { c with tiles := t, tileSeq := n } = f c

theorem matNoted_keeps {β : Type} {f : Core → β} (blind : UnitBlind f) (dz : DzResult) (s : State) : CoresKeep f s (matNoted p o run outs dz s) :=
  (((noteSaturation_reach _ _ _ _ _).coresKeep rfl).trans (noteDz_keeps blind _ _ _)).trans (raiseFlags_keeps blind _ _)

theorem matPosted_keeps {β : Type} {f : Core → β} (blind : ∀ c t n, f { c with tiles := t, tileSeq := n } = f c) (m : MatOp) (d : EpiDesc) (s : State) :
    CoresKeep f s (matPosted p m d outs s) := by
  unfold matPosted
  split
  · exact .forEach (fun _ _ => CoresKeep.updCore (fun c => blind c _ _)) _ s
  · exact .refl f s

theorem matGiven_keeps {β : Type} {f : Core → β} (blind : GivenBlind f) : CoresKeep f s (matGiven s p o v run outs) := by
  obtain ⟨unit, queue⟩ := blind
  have noted := matNoted_keeps (p := p) (o := o) (run := run) (outs := outs) unit (opDz s p o) s
  refine (CoresKeep.trans ?_ (matPosted_keeps queue _ _ _)).trans ((matMarked_same _ _ _).coresKeep rfl)
  split
  · exact noted.trans (handOff_keeps unit o _)
  · exact noted

theorem matPosted_others (m : MatOp) (d : EpiDesc) (s : State) : OtherCores p s (matPosted p m d outs s) := by
  unfold matPosted
  split
  · exact .each (fun _ _ => updCore_otherCores _ _ _) _ s
  · exact .refl p s

theorem matGiven_others : OtherCores p s (matGiven s p o v run outs) := by
  have noted : OtherCores p s (matNoted p o run outs (opDz s p o) s) :=
    (((noteSaturation_reach _ _ _ _ _).otherCores rfl p).trans (noteDz_others _ _ _)).trans (raiseFlags_core _ _).2
  refine (OtherCores.trans ?_ (matPosted_others _ _ _)).trans ((matMarked_same _ _ _).otherCores rfl p)
  split
  · exact noted.trans (handOff_others o _)
  · exact noted

theorem epiDesc_of_same {ps : List Part} {t : State} (same : SameExcept ps s t) (mem : ps.contains .mem = false) (at_ : Nat) :
    epiDesc t p at_ = epiDesc s p at_ := by
  rw [epiDesc, scrBytes, memBytes_of_memByte (fun a => same.memByte_eq mem a)]
  rfl

theorem matGiven_within : WritesWithin (fun a => v.op.handoff = true ∧ HandHits s p v (epiDesc s p v.refs.epi) outs a) s (matGiven s p o v run outs) := by
  have noted := matNoted_same (p := p) (o := o) (run := run) (outs := outs) (opDz s p o) s
  have before (P : Nat → Prop) : WritesWithin P s (matNoted p o run outs (opDz s p o) s) := .of_same noted rfl rfl
  refine (WritesWithin.trans ?_ (.of_same (matPosted_same _ _ _) rfl rfl)).trans (.of_same (matMarked_same _ _ _) rfl rfl)
  split
  next hands =>
    have wrote := handOff_within (p := p) (v := v) (outs := outs) o (matNoted p o run outs (opDz s p o) s)
    rw [epiDesc_of_same noted rfl] at wrote
    refine (before _).trans (wrote.weaken (fun a hit => ⟨hands, ?_⟩))
    unfold HandHits at hit ⊢
    simpa only [portHits_of_cur (before (fun _ => False)).cur] using hit
  · exact before _

/-- An op that keeps its arrays' accumulations writes nothing. -/
theorem matGiven_silent (silent : v.op.handoff = false) : SameExcept [.log, .qs, .cores] s (matGiven s p o v run outs) := by
  refine (SameExcept.trans ?_ ((matPosted_same _ _ _).weaken rfl)).trans ((matMarked_same _ _ _).weaken rfl)
  rw [if_neg (by rw [silent]; decide)]
  exact matNoted_same (opDz s p o) s

theorem matGiven_flags (silent : v.op.handoff = false) : (getCore (matGiven s p o v run outs) p).fpStatus =
    (getCore s p).fpStatus ||| outs.foldl (fun f e => f ||| e.2.flags) 0 := by
  have counted : CoresKeep Core.fpStatus s (noteDz p (run.replays == 0) (opDz s p o) (noteSaturation p o run outs s)) :=
    ((noteSaturation_reach _ _ _ _ _).coresKeep rfl).trans (noteDz_flags _ _ _)
  have given : CoresKeep Core.fpStatus (matNoted p o run outs (opDz s p o) s) (matGiven s p o v run outs) := by
    unfold matGiven
    rw [if_neg (by rw [silent]; decide)]
    exact (matPosted_keeps (fun _ _ _ => rfl) _ _ _).trans ((matMarked_same _ _ _).coresKeep rfl)
  rw [given p, matNoted, (raiseFlags_core _ _).1, ← counted p]

end

end Sys2Proof.Machine
end
end

section
/-! SUPPORT. What overflows and completions leave, and the statement O18. -/
section
namespace Sys2Proof.Machine

section
variable {s : State} {p : Nat} {o : IssuedOp} {run : MatRun}

/-! ### Overflows that call for no replay (R133) -/

theorem overflowMat_draining (runs : (getCore s p).mat = some run) (found : findOp (getCore s p) run.seq = some o) (drains : run.draining = true) :
    overflowMat p s = s := by
  unfold overflowMat
  dsimp only
  rw [runs]
  dsimp only
  rw [found]
  exact if_pos drains

/-- The arrays of an attempt on which cells have saturated. -/
def satArrays (outs : List (Nat × ArrayOut)) : List Nat := (outs.filter (fun e => e.2.counted != [])).map (·.1)

theorem overflowMat_cold (runs : (getCore s p).mat = some run) (found : findOp (getCore s p) run.seq = some o) (goes : run.draining = false)
    (cold : replayArrays (matIn s p o) run (matOuts s (matIn s p o) run) = []) : overflowMat p s =
    if satArrays (matOuts s (matIn s p o) run) = [] then s
    else updCore (noteSaturation p o run (matOuts s (matIn s p o) run) s) p
      (fun c => { c with mat := some { run with satNoted := true, satArrays := satArrays (matOuts s (matIn s p o) run) } }) := by
  unfold overflowMat
  dsimp only
  rw [runs]
  dsimp only
  rw [found]
  dsimp only
  rw [if_neg (by rw [goes]; decide), if_pos cold]
  rfl

theorem satArrays_empty (outs : List (Nat × ArrayOut)) : satArrays outs = [] ↔ ∀ e ∈ outs, e.2.counted = [] := by
  simp [satArrays]

theorem noteSaturation_noted (noted : run.satNoted = true) (outs : List (Nat × ArrayOut)) (s : State) : noteSaturation p o run outs s = s :=
  if_pos (.inl noted)

theorem restartMat_core (runs : (getCore s p).mat = some run) (drains : run.draining = true) :
    (getCore (restartMat p s) p).mat = some { run with draining := false, since := islTicks s (islOfCore p) } := by
  rw [restartMat, getCore_updCore]
  dsimp only
  rw [runs, Option.map_some, if_pos drains]

/-! ### What a completion leaves -/

theorem coreDone_acc (c : Core) {e : Nat × ArrayOut} (listed : e ∈ matOuts s (matIn s p o) run) :
    tabGet arrAccReset (coreDone (matIn s p o) (matOuts s (matIn s p o) run) c).acc e.1 = accLeft (matIn s p o) e := by
  obtain ⟨a, masked, rfl⟩ := List.mem_map.1 listed
  have places := tabSet_each (dflt := arrAccReset) (fun a => runArray s (matIn s p o) a (tabGet arrAccReset run.snap a)) (accLeft (matIn s p o))
    (maskArrays (matIn s p o).op.mask) c.acc a
  exact places.trans (if_pos masked)

/-- What a completion leaves of its core: the op is gone, and the next of its chain, where there is one, goes on. -/
theorem completeMat_core (runs : (getCore s p).mat = some run) (found : findOp (getCore s p) run.seq = some o) (goes : run.draining = false)
    (cold : replayArrays (matIn s p o) run (matOuts s (matIn s p o) run) = []) : ∃ c n,
    getCore (completeMat p s) p =
      { nextOfChain (coreDone (matIn s p o) (matOuts s (matIn s p o) run) c) with
        arrBusy := n
        window := (getCore s p).window.filter (fun q => q.seq != run.seq) } ∧
    c.matNext = (getCore s p).matNext ∧ c.arrMacs = (getCore s p).arrMacs ∧
    ((matIn s p o).op.handoff = false → c.fpStatus = (getCore s p).fpStatus ||| (matOuts s (matIn s p o) run).foldl (fun f e => f ||| e.2.flags) 0) ∧
    OtherCores p s (completeMat p s) := by
  have seq : o.seq = run.seq := by simpa using List.find?_some found
  rw [completeMat_completes runs found goes cold]
  generalize matOuts s (matIn s p o) run = outs
  generalize matIn s p o = v
  have others := matGiven_others (s := s) (p := p) (o := o) (v := v) (run := run) (outs := outs)
  have kept {β : Type} {f : Core → β} (blind : GivenBlind f) := matGiven_keeps (s := s) (p := p) (o := o) (v := v) (run := run) (outs := outs) blind p
  have flags := matGiven_flags (s := s) (p := p) (o := o) (v := v) (run := run) (outs := outs)
  generalize matGiven s p o v run outs = u at others kept flags ⊢
  obtain ⟨n, core_, others'⟩ := opRetired_core p o.seq (fun c n => { c with arrBusy := inc64 c.arrBusy n }) (updCore u p (fun c => nextOfChain (coreDone v outs c)))
  have window : (nextOfChain (coreDone v outs (getCore u p))).window = (getCore s p).window :=
    (nextOfChain_keeps (f := Core.window) (fun _ _ _ _ _ _ => rfl) _).trans (kept (f := Core.window) ⟨fun _ _ _ _ => rfl, fun _ _ _ => rfl⟩)
  refine ⟨getCore u p, inc64 (nextOfChain (coreDone v outs (getCore u p))).arrBusy n, ?_, kept (f := Core.matNext) ⟨fun _ _ _ _ => rfl, fun _ _ _ => rfl⟩,
    kept (f := Core.arrMacs) ⟨fun _ _ _ _ => rfl, fun _ _ _ => rfl⟩, flags, (others.trans (updCore_otherCores u p _)).trans others'⟩
  rw [core_, getCore_updCore]
  dsimp only
  rw [window, seq]

/-- What a completion changes but the core. -/
theorem completeMat_silent (runs : (getCore s p).mat = some run) (found : findOp (getCore s p) run.seq = some o) (goes : run.draining = false)
    (cold : replayArrays (matIn s p o) run (matOuts s (matIn s p o) run) = []) (silent : (matIn s p o).op.handoff = false) :
    SameExcept [.freeCtr, .log, .qs, .cores] s (completeMat p s) := by
  rw [completeMat_completes runs found goes cold]
  exact (((matGiven_silent silent).weaken rfl).trans ((updCore_reach _ p _).weaken rfl)).trans ((opRetired_same _ _ _ _).weaken rfl)

theorem completeMat_within (runs : (getCore s p).mat = some run) (found : findOp (getCore s p) run.seq = some o) (goes : run.draining = false)
    (cold : replayArrays (matIn s p o) run (matOuts s (matIn s p o) run) = []) :
    WritesWithin (fun a => (matIn s p o).op.handoff = true ∧
      HandHits s p (matIn s p o) (epiDesc s p (matIn s p o).refs.epi) (matOuts s (matIn s p o) run) a) s (completeMat p s) := by
  rw [completeMat_completes runs found goes cold]
  exact (matGiven_within.trans (.of_same (updCore_reach _ p _) rfl rfl)).trans (.of_same (opRetired_same _ _ _ _) rfl rfl)

end

/-! ### The three parts of O18 -/

section
variable {s : State} {p : Nat} {core : Fin 160}

theorem exec_onCore {f : Nat → State → State} (placed : physOf s core.val = some p) : Host.Outcome.next (onCore core.val f s) =
    (Host.Outcome.next (f p s) : Host.Outcome State Fault Refusal) := by
  rw [onCore, placed]

end

/-- Settles O18: MAT ops start alone or in a chain, replay where they overflow, and complete. -/
theorem matOpsStartReplayAndComplete : Obligations.MatOpsStartReplayAndComplete := by
  unfold Obligations.MatOpsStartReplayAndComplete
  refine ⟨?_, ?_, ?_⟩
  · intro core s p o placed next may
    dsimp only
    have does : exec (.matStart core) s = .next (startMat p s) := exec_onCore placed
    rw [does]
    refine ⟨fun free room => ?_, fun run q running before joins goes alone room => ?_, fun full held => congrArg _ (startMat_blocked next full held),
      fun run running apart => congrArg _ (startMat_waits next running apart)⟩
    · obtain ⟨mat, mode, cls, acc⟩ := matAlone_core p o s
      obtain ⟨masked, other⟩ := enterMat_acc (newRun o.seq (islTicks s (islOfCore p))) (matOp o.word) (getCore s p)
      rw [startMat_alone next may room free]
      refine ⟨_, _, rfl, matAlone_begun p o s, mat, rfl, rfl, rfl, rfl, rfl, mode, cls, ?_, ?_⟩
      · rw [acc]
        exact masked
      · rw [acc]
        exact other
    · obtain ⟨mat, behind, acc⟩ := matJoined_core p o (run.since + ticksOf (matOp q.word).chainCount) s
      rw [startMat_joins next may room running before joins goes alone]
      exact ⟨_, rfl, matJoined_begun p o _ s, mat.trans running, behind, acc⟩
  · intro core s p run o placed runs found
    dsimp only
    have does : exec (.accOverflow core) s = .next (overflowMat p s) := exec_onCore placed
    have restarts : exec (.accReplayRestart core) s = .next (restartMat p s) := exec_onCore placed
    rw [does, restarts]
    refine ⟨fun goes hot => ?_, fun goes cold saturated => ?_, fun goes cold none_ => ?_, fun drains => ?_⟩
    · obtain ⟨c, n, core_, window, behind, replays, others⟩ := overflowMat_core runs found goes hot
      obtain ⟨mat, alone, counted⟩ := replayCore_unit o (matIn s p o) run (replayArrays (matIn s p o) run (matOuts s (matIn s p o) run)) c
      refine ⟨_, _, rfl, (congrArg Core.mat core_).trans mat, rfl, rfl, rfl, ?_, fun q listed same apart => ?_, ?_, fun n q next apart there => ?_, others, overflowMat_reach p s⟩
      · rw [core_, ← replays]
        exact counted
      · rw [core_]
        rw [← window] at listed
        rw [← behind] at apart
        exact replayCore_replayed listed same apart
      · rw [core_]
        exact alone
      · rw [core_]
        have seq : o.seq = run.seq := by simpa using List.find?_some found
        rw [findOp, ← window, ← findOp] at there
        exact replayCore_abandoned (behind.trans next) apart there
    · rw [overflowMat_cold runs found goes cold, if_neg (fun none_ => by
        obtain ⟨e, listed, counted⟩ := saturated
        exact counted ((satArrays_empty _).1 none_ e listed))]
      have noted := noteSaturation_reach p o run (matOuts s (matIn s p o) run) s
      refine ⟨_, rfl, ?_, fun already => ?_, (noted.otherCores rfl p).trans (updCore_otherCores _ p _),
        (noted.weaken rfl).trans ((updCore_reach _ p _).weaken rfl)⟩
      · rw [getCore_updCore]
        rfl
      · rw [noteSaturation_noted already]
        exact (updCore_reach s p _).log_eq rfl
    · rw [overflowMat_cold runs found goes cold, if_pos ((satArrays_empty _).2 none_)]
    · exact ⟨congrArg _ (overflowMat_draining runs found drains), _, rfl, restartMat_core runs drains, updCore_otherCores s p _, restartMat_reach p s⟩
  · intro core s p run o placed runs found goes
    dsimp only
    intro cold
    have does : exec (.matComplete core) s = .next (completeMat p s) := exec_onCore placed
    obtain ⟨c, n, core_, behind, macs, flags, others⟩ := completeMat_core runs found goes cold
    have within := completeMat_within runs found goes cold
    have stays (alone : (getCore s p).matNext = none) := nextOfChain_alone (c := coreDone (matIn s p o) (matOuts s (matIn s p o) run) c) (behind.trans alone)
    refine ⟨_, does, fun alone => ?_, fun n q next there => ?_, ?_, ?_, fun alone e listed => ?_, fun silent => ⟨?_, ?_, ?_⟩,
      fun _ a rows scales stats => within.bytes a ?_, others, completeMat_reach p s⟩
    · rw [core_, stays alone]
      rfl
    · obtain ⟨snap, mat, none_⟩ := nextOfChain_joined (c := coreDone (matIn s p o) (matOuts s (matIn s p o) run) c) (behind.trans next)
      rw [core_]
      exact ⟨_, mat, none_, rfl, rfl, rfl⟩
    · rw [core_]
    · rw [core_, ← macs]
      exact nextOfChain_keeps (f := Core.arrMacs) (fun _ _ _ _ _ _ => rfl) _
    · rw [core_, stays alone]
      exact coreDone_acc _ listed
    · rw [core_, ← flags silent]
      exact nextOfChain_keeps (f := Core.fpStatus) (fun _ _ _ _ _ _ => rfl) _
    · exact (completeMat_silent runs found goes cold silent).poison_eq rfl
    · exact (completeMat_silent runs found goes cold silent).memByte_eq rfl
    · rintro ⟨-, ⟨e, listed, r, inside, hit⟩ | ⟨quant, e, listed, hit⟩ | ⟨cups, hit⟩⟩
      · exact rows e listed r inside hit
      · exact scales quant e listed hit
      · exact stats cups hit

end Sys2Proof.Machine
end
end
